-- ==== Sys2Proof/Word.lean ====
section
/-! DEFINITION. The word types of the Y9 (R18, R19, R57): bytes, words, doublewords, the 512-bit value of a vector
register, a 128-byte line with its byte mask, and the register numbers of a thread word. -/

namespace Sys2Proof

/-- A byte (R19). -/
abbrev Byte := BitVec 8
/-- A half: 16 bits (R19). -/
abbrev Half := BitVec 16
/-- A word: 32 bits, one lane of a vector register (R18, R19). -/
abbrev W32 := BitVec 32
/-- A doubleword: 64 bits; also one thread word (R19, R56). -/
abbrev W64 := BitVec 64
/-- The 512-bit value of a vector register, lane l at bits [32l+31:32l] (R18); also a tile command (R65). -/
abbrev V512 := BitVec 512
/-- A 128-byte line, byte i at bits [8i+7:8i] (R18, R19). -/
abbrev Line := BitVec 1024
/-- The byte mask of a line: bit i stands for byte i (R141). -/
abbrev LineMask := BitVec 128
/-- A vector register number, v0 to v127 (R30, R57). -/
abbrev VReg := BitVec 7
/-- An address register number, a0 to a15 (R31). -/
abbrev AReg := BitVec 4
/-- A mask register number, k0 to k7 (R31). -/
abbrev KReg := BitVec 3

/-- SignExt(x, n) read as an integer (R17). -/
abbrev sx {n : Nat} (x : BitVec n) : Int := x.toInt
/-- ZeroExt(x, n) read as an integer (R17). -/
abbrev zx {n : Nat} (x : BitVec n) : Int := (x.toNat : Int)

end Sys2Proof
end

