-- ==== Sys2Proof/Config.lean ====
section
/-! DEFINITION. What an implementation of the Y9 fixes and the spec leaves open: free values, constants without a
body, so that no proof can see what they are. Each is named in the assumption log. -/

namespace Sys2Proof

/-- The transit time, in cycles, of the n-th message the machine sends (R37: times change only how long a wait
lasts). Free (log 4). -/
opaque Config.latency : Nat → Nat

/-- Which entry makes room when a full cache takes one more, by cycle, message count and the address taken (R139, R318: no
order is given). Free (log 7). -/
opaque Config.victim : Nat → Nat → Nat → Nat

/-- The SHA-512 digest of the vendor's firmware key, fused into the device (R358). Free (log 6). -/
opaque Config.vendorRoot : BitVec 512

/-- The fused counter below which a firmware image's security version may not lie (R358). Free (log 6). -/
opaque Config.fusedVersion : Nat

/-- The ports that the firmware configuration marks required (R357). Free (log 6). -/
opaque Config.requiredPorts : BitVec 12

/-- The two primes of the export key's RSA-4096 pair, by the firmware's security version (R359: derived from a fused secret and that
version). The private half never leaves the device. Free (log 6). -/
opaque Config.exportPrimes : Nat → Nat × Nat

/-- The two primes of the identity key's pair (R359: generated at manufacture). Free (log 6). -/
opaque Config.identityPrimes : Nat × Nat

/-- The two primes of the pair of Grenwin's device CA (R359). Free (log 6). -/
opaque Config.caPrimes : Nat × Nat

/-- What certificate n says of a public key, before its signature: 0 the identity certificate, 1 the export key's (R359, R360). Free
(log 6). -/
opaque Config.certBody : Nat → BitVec 4096 → List Byte

/-- The address field of the n-th record whose cause defines none (R292). Free (log 13). -/
opaque Config.freeAddr : Nat → BitVec 64

/-- The lane mask of the n-th record of a fault that concerns no lanes (R292). Free (log 13). -/
opaque Config.freeLanes : Nat → BitVec 16

/-- The bytes of a context block's device-private parts, by core and offset (R305: device-private). Free (log 6). -/
opaque Config.privateByte : Nat → Nat → Byte

/-- The bridge flits that a district sends in a cycle, by cycle and district (R345 Table 4: the flits of a message are not given). Free
(log 41). -/
opaque Config.flitCount : Nat → Nat → BitVec 64

/-- Whether a partner refuses the n-th transfer as outside its window (R356). Free (log 58). -/
opaque Config.partnerRefuses : Nat → Bool

/-- Whether a bridge flit's CRC-32 holds (R364: the flit's layout is not given). Free (log 59). -/
opaque Config.bridgeFlitGood : BitVec 512 → Bool

/-- The flit as its sender keeps it for replay, where a bad one arrived (R364). Free (log 59). -/
opaque Config.bridgeCopy : BitVec 512 → BitVec 512

/-- The failed cores (R366) and the SKIP value of a row, by 16 x district + row (R365), that bring-up finds. Free (log 6). -/
opaque Config.failedCores : List Nat
opaque Config.skipOf : Nat → Nat

/-- The failure code of a bring-up stage other than 6 (R357). Free (log 6). -/
opaque Config.failCode : Nat → Byte

end Sys2Proof
end

