-- ==== Sys2Proof/Syntax.lean ====
section
/-! DEFINITION. The syntax of the Y9: one constructor of `Instr` for every row of the opcode table, thread
instructions with their fields as R57 to R62 name them, tile commands with the operands of R229, R231, R236 and R261,
and the events and outside requests with what each carries. -/

namespace Sys2Proof

/-- Integer types of OP 0x20 and 0x27 (R62, R95). -/
inductive IType where | i32 | u32
deriving DecidableEq, Repr

/-- Floating types of OP 0x40 to 0x43 (R62, R105). -/
inductive FType where | f32 | bf16
deriving DecidableEq, Repr

/-- The six number formats of R39. -/
inductive Fmt where | i32 | u32 | f32 | bf16 | e4m3 | e5m2
deriving DecidableEq, Repr

/-- The rnd key (R62). -/
inductive Rnd where | rn | rz | ru | rd | dyn
deriving DecidableEq, Repr

/-- Conditions (R74 Table 2). -/
inductive Cc where | eq | ne | lt | ge | ltu | geu
deriving DecidableEq, Repr

/-- The conditions vfcmp accepts (R106). -/
inductive Fcc where | eq | ne | lt | ge
deriving DecidableEq, Repr

/-- Directions of the neighbour link (R100). -/
inductive Dir where | up | down
deriving DecidableEq, Repr

/-- The kind key of local-store accesses (R62, R129). -/
inductive LKind where | plain | x
deriving DecidableEq, Repr

/-- Lease classes (R151). -/
inductive LeaseCls where | short | medium | long
deriving DecidableEq, Repr

/-- Operations of amo (R62, R157). -/
inductive AmoOp where | add | and | or | xor | min | max | minu | maxu | swap | cas
deriving DecidableEq, Repr

/-- The sem key of fence (R62). -/
inductive Sem where | acq | rel | full
deriving DecidableEq, Repr

/-- Scopes (R167 Table 2). -/
inductive Scope where | core | court | district | device | system
deriving DecidableEq, Repr

/-- Special registers (R35 Table 4). -/
inductive SReg where
  | pc | tsw | gtid | core | slot | ts | taskid | frec0 | frec1 | frec2 | frec3 | clock | tbgen | mode
deriving DecidableEq, Repr

/-- The header of a tile command without its opcode (R65 Table 6). -/
structure TileHdr where
  cb : BitVec 9
  rst : Bool
  rstep : BitVec 16
deriving DecidableEq, Repr

/-- Operands of mm (R231 Table 5), as stored. -/
structure MmArgs where
  acc : BitVec 2
  mt : BitVec 2
  nt : BitVec 2
  kb : BitVec 8
  asrc : Bool
  bsrc : Bool
  abase : W64
  bbase : W64
  apitch : W32
  bpitch : W32
  sabase : W64
  sbbase : W64
deriving DecidableEq, Repr

/-- Operands of acc.load and acc.store (R229 Table 4), as stored. -/
structure AccArgs where
  acc : BitVec 2
  cnt : BitVec 2
  sp : Bool
  base : W64
  pitch : W32
deriving DecidableEq, Repr

/-- Operands of the copy commands (R236 Table 6), as stored. -/
structure CpArgs where
  ssp : Bool
  dsp : Bool
  isp : Bool
  src : W64
  dst : W64
  len : W32
  cnt : W32
  idx : W64
  ipitch : W32
  typ : BitVec 8
  op : BitVec 4
deriving DecidableEq, Repr

/-- Operands of kv.imp and kv.exp (R261 Table 6), as stored. -/
structure KvArgs where
  dep : BitVec 4
  pool : BitVec 4
  src : W64
  dst : W64
  nb : W32
  ses : W64
deriving DecidableEq, Repr

/-- A window access of a slot on its way to a core's banks (R114, R147): the requester's core, slot, outstanding
instruction and access index, the local address and lane, for a store its data, the lane's address and the slot's launch. -/
structure RemoteAcc where
  dst : Nat
  addr : Nat
  store : Bool
  data : W32
  h : Nat
  n : Nat
  op : Nat
  idx : Nat
  lane : Nat
  pc : W64
  va : W64
  lk : Nat
deriving DecidableEq, Repr

/-- What a destination core reports to the requester of a window access (R147). -/
inductive RReply where
  | performed
  | parked
  | data (w : W32) (sealedWord : Bool)
  | trapped (cause sub : Nat)
deriving DecidableEq, Repr

/-- A request for a line (R150): requester, virtual and physical line, and for an amo its outstanding instruction. -/
structure LeaseReq where
  h : Nat
  n : Nat
  va : Nat
  pa : Nat
  amo : Option Nat
deriving DecidableEq, Repr

/-- A task descriptor, words 0 to 7 (R191). -/
structure Desc where
  w0 : W32
  ts : W32
  a1 : W32
  a2 : W32
  a3 : W32
  a4 : W32
  parent : W32
  id : W32
deriving DecidableEq, Repr

/-- A push on its way to the queue of core dst (R200), and the lane it came from. -/
structure PushMsg where
  dst : Nat
  h : Nat
  n : Nat
  lane : Nat
  d : Desc
deriving DecidableEq, Repr

/-- A 64-byte message (R210 to R213), with the slot that waits for its acceptance, if any; host names a function whose
BUSY bit waits (R374). -/
structure Msg where
  terr : Nat
  rank : Nat
  data : V512
  sRank : Nat
  sCore : Nat
  waiter : Option (Nat × Nat)
  host : Option Nat
deriving DecidableEq, Repr

/-- An update of cp.spred or of a port (R238, R356): the router and entry that hold it, the physical word, type and
operation, the values merged into it, the commands that wait for it with the pairs each contributed, and the virtual addresses
that were translated. -/
structure Upd where
  rt : Nat
  id : Nat
  lk : Nat
  pa : Nat
  typ : Nat
  op : Nat
  vals : List W32
  srcs : List (Nat × Nat)
  vas : List Nat
deriving DecidableEq, Repr

/-- An engine word on its way to a bank (R237): destination core and local address, data, and the command. -/
structure EngWord where
  dst : Nat
  addr : Nat
  data : W32
  h : Nat
  cq : Bool
  seq : Nat
  step : Nat
deriving DecidableEq, Repr

/-- Who submitted a launch (R277): a host function, or a slot with its rank if it holds one. -/
inductive Submitter where
  | host (f : Nat)
  | slot (terr : Nat) (rank : Option Nat)
deriving DecidableEq, Repr

/-- A command on its way to a slot (R302). -/
inductive SlotOp where
  | spawn (entry : W64) (arg : W64)
  | eret (flags : W64) (value : W64)
  | wake (kind : BitVec 2)
  | kill
deriving DecidableEq, Repr

/-- A slot command: its issuer (a slot, or a host function for SLOTCMD), the target and the operation. -/
structure SlotCmd where
  issuer : Option (Nat × Nat)
  host : Option Nat
  h : Nat
  n : Nat
  op : SlotOp
deriving DecidableEq, Repr

/-- A test at a block's header home (R250, R253): core, slot, physical header line and frame, and for kvlook its
outstanding instruction, hash and tag. -/
inductive HdrTest where
  | look (h n op : Nat) (pa : Nat) (frame : W64) (hash : W64) (tag : W32)
  | free (h n : Nat) (pa : Nat) (frame : W64)
deriving DecidableEq, Repr

/-- Where an uncorrectable error struck (R362 Table 2). -/
inductive UncErr where
  | regfile (h e : Nat)
  | lword (h w : Nat)
  | line (pa : Nat)
  | l1 (h va : Nat)
  | icache (h va : Nat)
  | sync (h n va : Nat)
deriving DecidableEq, Repr

/-- A firmware image as the boot ROM reads it (R358): body, digest, signature, key modulus, security version and the
measurement register its digest extends. -/
structure FwImage where
  body : List Byte
  digest : V512
  sig : BitVec 4096
  key : BitVec 4096
  version : Nat
  mr : Nat
deriving DecidableEq, Repr

/-- An instruction, command, event or request of the opcode table, one constructor a row, in the table's order. -/
inductive Instr where
  -- control (R72 to R78)
  | nop
  | br (off : W32)
  | bc (cc : Cc) (aa ab : AReg) (off : W32)
  | bany (k : KReg) (off : W32)
  | ball (k : KReg) (off : W32)
  | bnone (k : KReg) (off : W32)
  | call (off : W32)
  | jr (a : AReg)
  | callr (a : AReg)
  | ret
  | loop (a : AReg) (off : W32)
  | halt (retain : Bool)
  | yield
  -- address arithmetic (R79, R80)
  | aadd (d a b : AReg)
  | asub (d a b : AReg)
  | amul (d a b : AReg)
  | amulh (d a b : AReg)
  | amulhu (d a b : AReg)
  | aand (d a b : AReg)
  | aor (d a b : AReg)
  | axor (d a b : AReg)
  | ashl (d a b : AReg)
  | ashr (d a b : AReg)
  | asar (d a b : AReg)
  | amin (d a b : AReg)
  | amax (d a b : AReg)
  | aminu (d a b : AReg)
  | amaxu (d a b : AReg)
  | amov (d a : AReg)
  | asel (d a b c : AReg)
  | aset (cc : Cc) (d a b : AReg)
  | aaddi (u : Bool) (d a : AReg) (imm : W32)
  | ali (u : Bool) (d : AReg) (imm : W32)
  | alih (d a : AReg) (imm : W32)
  -- vector integer (R95, R96)
  | vadd (ty : IType) (km : KReg) (kz : Bool) (d a b : VReg)
  | vsub (ty : IType) (km : KReg) (kz : Bool) (d a b : VReg)
  | vmul (ty : IType) (km : KReg) (kz : Bool) (d a b : VReg)
  | vmulh (ty : IType) (km : KReg) (kz : Bool) (d a b : VReg)
  | vmin (ty : IType) (km : KReg) (kz : Bool) (d a b : VReg)
  | vmax (ty : IType) (km : KReg) (kz : Bool) (d a b : VReg)
  | vabs (km : KReg) (kz : Bool) (d a : VReg)
  | vneg (ty : IType) (km : KReg) (kz : Bool) (d a : VReg)
  | vand (ty : IType) (km : KReg) (kz : Bool) (d a b : VReg)
  | vor (ty : IType) (km : KReg) (kz : Bool) (d a b : VReg)
  | vxor (ty : IType) (km : KReg) (kz : Bool) (d a b : VReg)
  | vnot (ty : IType) (km : KReg) (kz : Bool) (d a : VReg)
  | vshl (ty : IType) (km : KReg) (kz : Bool) (d a b : VReg)
  | vshr (ty : IType) (km : KReg) (kz : Bool) (d a b : VReg)
  | vsar (ty : IType) (km : KReg) (kz : Bool) (d a b : VReg)
  | vmad (ty : IType) (km : KReg) (kz : Bool) (d a b c : VReg)
  | vcmp (cc : Cc) (km : KReg) (kz : Bool) (d : KReg) (a b : VReg)
  -- masks (R97)
  | kand (d a b : KReg)
  | kor (d a b : KReg)
  | kxor (d a b : KReg)
  | kandn (d a b : KReg)
  | knot (d a : KReg)
  | kmov (d a : KReg)
  | kpop (d : AReg) (a : KReg)
  | kfirst (d : AReg) (a : KReg)
  | kset (d : KReg) (a : AReg)
  -- constants and lane moves (R98, R99), the neighbour link (R100 to R103)
  | vli (km : KReg) (kz : Bool) (d : VReg) (a : AReg) (imm : W32)
  | vbcast (lane : BitVec 4) (km : KReg) (kz : Bool) (d a : VReg)
  | viota (km : KReg) (kz : Bool) (d : VReg)
  | vperm (km : KReg) (kz : Bool) (d a b : VReg)
  | vrotl (lane : BitVec 4) (km : KReg) (kz : Bool) (d a : VReg)
  | vext (lane : BitVec 4) (d : AReg) (a : VReg)
  | vins (lane : BitVec 4) (d : VReg) (a : AReg)
  | vmov (km : KReg) (kz : Bool) (d a : VReg)
  | linkw (dir : Dir) (a : VReg) (b : AReg)
  | linkwArm (dir : Dir) (d : VReg)
  | linkWriteArrival (dst : Nat) (src : Dir) (slot reg : Nat) (lk : Nat) (val : V512)
  -- reductions and scans (R108)
  | vredsum (ty : IType) (km : KReg) (kz : Bool) (d a : VReg)
  | vredmin (ty : IType) (km : KReg) (kz : Bool) (d a : VReg)
  | vredmax (ty : IType) (km : KReg) (kz : Bool) (d a : VReg)
  | vredand (ty : IType) (km : KReg) (kz : Bool) (d a : VReg)
  | vredor (ty : IType) (km : KReg) (kz : Bool) (d a : VReg)
  | vredxor (ty : IType) (km : KReg) (kz : Bool) (d a : VReg)
  | vscan (ty : IType) (km : KReg) (kz : Bool) (d a : VReg)
  | vscanx (ty : IType) (km : KReg) (kz : Bool) (d a : VReg)
  -- floating (R105 to R110)
  | vfadd (ty : FType) (rnd : Rnd) (km : KReg) (kz : Bool) (d a b : VReg)
  | vfsub (ty : FType) (rnd : Rnd) (km : KReg) (kz : Bool) (d a b : VReg)
  | vfmul (ty : FType) (rnd : Rnd) (km : KReg) (kz : Bool) (d a b : VReg)
  | vfma (ty : FType) (rnd : Rnd) (km : KReg) (kz : Bool) (d a b c : VReg)
  | vfms (ty : FType) (rnd : Rnd) (km : KReg) (kz : Bool) (d a b c : VReg)
  | vfnma (ty : FType) (rnd : Rnd) (km : KReg) (kz : Bool) (d a b c : VReg)
  | vfmin (ty : FType) (km : KReg) (kz : Bool) (d a b : VReg)
  | vfmax (ty : FType) (km : KReg) (kz : Bool) (d a b : VReg)
  | vfabs (ty : FType) (km : KReg) (kz : Bool) (d a : VReg)
  | vfneg (ty : FType) (km : KReg) (kz : Bool) (d a : VReg)
  | vfcmp (cc : Fcc) (ty : FType) (km : KReg) (kz : Bool) (d : KReg) (a b : VReg)
  | vfrcpa (km : KReg) (kz : Bool) (d a : VReg)
  | vfrsqa (km : KReg) (kz : Bool) (d a : VReg)
  | vfexp2a (km : KReg) (kz : Bool) (d a : VReg)
  | vflog2a (km : KReg) (kz : Bool) (d a : VReg)
  | vfredsum (ty : FType) (rnd : Rnd) (km : KReg) (kz : Bool) (d a : VReg)
  | vfredmin (ty : FType) (km : KReg) (kz : Bool) (d a : VReg)
  | vfredmax (ty : FType) (km : KReg) (kz : Bool) (d a : VReg)
  | vfscan (ty : FType) (rnd : Rnd) (km : KReg) (kz : Bool) (d a : VReg)
  | vfscanx (ty : FType) (rnd : Rnd) (km : KReg) (kz : Bool) (d a : VReg)
  | vcvt (dst src : Fmt) (rnd : Rnd) (km : KReg) (kz : Bool) (d a : VReg)
  | vcvtFp8 (la : BitVec 4) (dst src : Fmt) (rnd : Rnd) (km : KReg) (kz : Bool) (d a : VReg)
  | vcvtsc (la : BitVec 4) (dst src : Fmt) (rnd : Rnd) (km : KReg) (kz : Bool) (d a b : VReg)
  -- local store (R129 to R136) and the window (R114, R147)
  | lld (kind : LKind) (km : KReg) (kz : Bool) (d x : VReg) (base : AReg) (off : BitVec 24)
  | lst (kind : LKind) (km : KReg) (d x : VReg) (base : AReg) (off : BitVec 24)
  | lldx (kind : LKind) (km : KReg) (kz : Bool) (d x : VReg) (base : AReg) (off : BitVec 24)
  | lstx (kind : LKind) (km : KReg) (d x : VReg) (base : AReg) (off : BitVec 24)
  | ald (kind : LKind) (d base : AReg) (off : BitVec 24)
  | ast (kind : LKind) (d base : AReg) (off : BitVec 24)
  | ltag (km : KReg) (kz : Bool) (d x : VReg) (base : AReg) (off : BitVec 24)
  | stag (km : KReg) (d x : VReg) (base : AReg) (off : BitVec 24)
  | lpeek (km : KReg) (kz : Bool) (d x : VReg) (base : AReg) (off : BitVec 24)
  | rgnset (a b : AReg)
  | tbld (a : VReg) (b : AReg)
  | tbsw (a : AReg)
  | tableFlip (h : Nat) (mask : BitVec 8)
  | tbrd (d : VReg) (b : AReg)
  | remoteAccess (acc : RemoteAcc)
  | windowStoreRefused (acc : RemoteAcc) (cause sub : Nat)
  -- global access (R145 to R149) and groups (R142)
  | gld (la : BitVec 4) (km : KReg) (kz : Bool) (d x : VReg) (base : AReg) (off : BitVec 24)
  | gldx (la : BitVec 4) (km : KReg) (kz : Bool) (d x : VReg) (base : AReg) (off : BitVec 24)
  | gst (km : KReg) (d x : VReg) (base : AReg) (off : BitVec 24)
  | gstx (km : KReg) (d x : VReg) (base : AReg) (off : BitVec 24)
  | gpf (km : KReg) (x : VReg) (base : AReg) (off : BitVec 24)
  | ginv (km : KReg) (x : VReg) (base : AReg) (off : BitVec 24)
  | homeRead (h n op idx : Nat) (pa : Nat)
  | resultLanding (h n op : Nat)
  | deferredFault (h n : Nat)
  | groupPhaseOne (g q : Nat)
  | phaseOneAck (g q : Nat)
  | groupRelease (g q : Nat)
  -- leases, atomics, fences (R150 to R160)
  | lease (la : BitVec 4) (cls : LeaseCls) (d base : AReg) (off : BitVec 24)
  | leaseRequestArrival (r : LeaseReq)
  | leaseRetry (r : LeaseReq)
  | leaseGrant (r : LeaseReq) (data : Line)
  | leaseExpiry (h n : Nat) (va : Nat)
  | breakNotice (r : LeaseReq)
  | sld (km : KReg) (kz : Bool) (d x : VReg) (base : AReg) (off : BitVec 24)
  | sst (km : KReg) (d x : VReg) (base : AReg) (off : BitVec 24)
  | release (d a : AReg)
  | lstat (d a : AReg)
  | amo (la : BitVec 4) (op : AmoOp) (w64 : Bool) (d x base : AReg) (off : BitVec 24)
  | amoGrant (r : LeaseReq) (data : Line)
  | fence (sem : Sem) (scope : Scope)
  | commit
  | isync
  -- barriers and objects (R176 to R190)
  | bini (bar : BitVec 9) (a : AReg)
  | barr (bar : BitVec 9) (a : AReg)
  | barrierArrival (t b h n : Nat)
  | barrierAck (h n sub : Nat)
  | bwait (bar : BitVec 9) (d a : AReg)
  | barw (bar : BitVec 9) (d : AReg)
  | bexp (bar : BitVec 9) (a : AReg)
  | bphs (bar : BitVec 9) (part : Bool) (d : AReg)
  | bclr (bar : BitVec 9)
  | engineReport (h : Nat) (cq : Bool) (seq bytes : Nat)
  | odecl (obj : BitVec 6) (a : AReg)
  | oseal (obj : BitVec 6)
  | ocopy (obj : BitVec 6) (a b c : AReg)
  | oreopen (obj : BitVec 6)
  | ofree (obj : BitVec 6)
  | ostat (obj : BitVec 6) (d : AReg)
  -- tasks, mailboxes, regrouping (R191 to R215, R81 to R90)
  | tqcfg (a : VReg)
  | tqpush (a : VReg) (b : AReg)
  | tqpushv (km : KReg) (a : VReg) (b : AReg) (c : VReg)
  | taskPushArrival (m : PushMsg)
  | spill (h : Nat)
  | ringRefill (h : Nat)
  | ringAccessRetry (h : Nat)
  | dispatch (h : Nat)
  | tend (a : KReg)
  | tabort (a : KReg)
  | tqstat (d a : AReg)
  | arbiterRound (lk : Nat)
  | progressAbort (h : Nat)
  | strandedRequeue (h : Nat)
  | mbsend (a : VReg) (b : AReg)
  | mbrecv (d : VReg) (a : AReg)
  | mbpoll (d : VReg) (a : AReg)
  | messageArrival (m : Msg)
  | messageRetry (m : Msg)
  | split (km : KReg) (d : VReg) (n : BitVec 7) (imm : W32)
  | refill (d : KReg) (imm : W32)
  | join (a : KReg)
  | lanes (d : KReg)
  -- engines (R216 to R238, R261)
  | mqpush (la : BitVec 4) (d : AReg) (a : VReg)
  | cqpush (la : BitVec 4) (d : AReg) (a : VReg)
  | qstat (d a : AReg)
  | tnop (hd : TileHdr)
  | fmtSet (hd : TileHdr) (ctx : W32)
  | accZero (hd : TileHdr) (acc cnt : BitVec 2)
  | accLoad (hd : TileHdr) (x : AccArgs)
  | accStore (hd : TileHdr) (x : AccArgs)
  | accRel (hd : TileHdr) (acc cnt : BitVec 2)
  | mm (hd : TileHdr) (x : MmArgs)
  | sig (hd : TileHdr) (sbar : BitVec 9)
  | twait (hd : TileHdr) (wbar : BitVec 9) (wph : Bool)
  | tfence (hd : TileHdr)
  | cpCopy (hd : TileHdr) (x : CpArgs)
  | cpGather (hd : TileHdr) (x : CpArgs)
  | cpScatter (hd : TileHdr) (x : CpArgs)
  | cpFill (hd : TileHdr) (x : CpArgs)
  | cpSpred (hd : TileHdr) (x : CpArgs)
  | spredMerge (rt : Nat) (u : Upd)
  | spredApply (u : Upd)
  | engineWordLanding (w : EngWord)
  | engineLandingRetry (w : EngWord)
  | kvImp (hd : TileHdr) (x : KvArgs)
  | kvExp (hd : TileHdr) (x : KvArgs)
  -- attention (R240 to R259)
  | kvlook (la : BitVec 4) (d a : AReg) (b : VReg)
  | kvins (d a b : AReg)
  | kvapp (d : AReg) (a b : VReg) (c : AReg)
  | kvfree (d a : AReg)
  | kvpos (a b : AReg)
  | ldkr (la : BitVec 4) (km : KReg) (kz : Bool) (d : VReg) (base : AReg) (off : BitVec 24)
  | rtab (base : AReg) (off : BitVec 24)
  | depotPop (dep pool h n : Nat)
  | depotPush (dep pool idx : Nat)
  | migr (la : BitVec 4) (live : BitVec 4) (d a : AReg)
  | migrArrival (h n t : Nat)
  -- system (R290 to R312, R345, R33, R23)
  | mfs (sr : SReg) (d : AReg)
  | mts (sr : SReg) (a : AReg)
  | spawn (d a b c : AReg)
  | kill (a : AReg)
  | trap (a : AReg) (imm : W32)
  | brk
  | eret (a b c : AReg)
  | park
  | wake (d a : AReg)
  | plbinv (a : AReg)
  | tlbinv (a b : AReg)
  | shootdownAck (id h : Nat)
  | profRd (d a : AReg)
  | profClr (a : AReg)
  | profLease (d a : AReg)
  | profLeaseGrant (t : Nat)
  | seatAssign (h : Nat)
  | granuleRefill (h n g : Nat)
  -- launches, contexts, partitions (R275 to R289, R303 to R308, R328 to R336)
  | launchRequest (t : Nat) (req : V512) (full : Bool) (sub : Submitter)
  | placement
  | launchLoad (lk : Nat)
  | launchComplete (lk : Nat)
  | terraceDescriptorWrite (t : Nat) (w0 w1 : W64)
  | switchRequest (req : BitVec 256)
  | seatLapse (h seat : Nat)
  | contextSave (h : Nat)
  | contextRestore (h : Nat)
  | poolDescriptorWrite (dep pool : Nat) (w0 w1 : W64)
  | qpartWrite (f : Nat) (v : W64)
  | qmewsWrite (f : Nat) (v : W64)
  | resWrite (f : Nat) (v : W32)
  | hqRingWrite (f : Nat) (len : Bool) (v : W64)
  | hqtailWrite (f : Nat) (v : W32)
  | slotcmdEret (f : Nat) (b : BitVec 256)
  | slotcmdWake (f : Nat) (b : BitVec 256)
  | slotcmdKill (f : Nat) (b : BitVec 256)
  | hmsgctl (f : Nat) (v : W64)
  | hostMemRead (pa : Nat)
  | hostMemWrite (pa : Nat) (data : Line) (mask : LineMask)
  | birsp (pa : Nat) (dirty : Bool) (data : Line)
  -- observation, peers, errors (R338 to R346, R351 to R356, R362 to R368)
  | breakpointEntryWrite (t e : Nat) (w0 w1 : W64)
  | hold (t : Nat)
  | debugRelease (t : Nat)
  | stop (t h n : Nat)
  | cont (t h n : Nat)
  | step (t h n : Nat)
  | freeze (t h : Nat)
  | thaw (t h : Nat)
  | dump (t h : Nat)
  | traceRingWrite (t : Nat) (len : Bool) (v : W64)
  | portRingWrite (p : Nat) (len : Bool) (v : W64)
  | portTailWrite (p : Nat) (v : W32)
  | portTransfer (p : Nat)
  | portReduceI32 (p : Nat)
  | portReduceF32 (p : Nat)
  | portMessage (p : Nat)
  | partnerTransferApply (p : Nat)
  | flitReceive (p : Nat) (flit : BitVec 2048)
  | portRetrain (p : Nat) (ok narrow : Bool)
  | bridgeRetrain (b : Nat) (lanes : V512) (spares : BitVec 32)
  | bridgeLost (b : Nat)
  | correctableError (d s : Nat)
  | uncorrectableError (e : UncErr)
  | patrolScrub (pa : Nat) (bad : Bool)
  -- bring-up, identity, repairs, registers (R349, R357 to R371)
  | powerOn
  | powerStages (ok : Bool)
  | bridgeTraining (ok : Bool)
  | hbmTraining (ok : Bool)
  | extanNegotiation (up narrow : BitVec 12)
  | cxlTraining (ok : Bool)
  | firmwareVerify (images : List FwImage)
  | ready
  | getDigests
  | getCertificate
  | challenge (nonce : BitVec 256)
  | getMeasurements (blk : Nat) (nonce : BitVec 256)
  | installKey (slot : Nat) (key : BitVec 4096)
  | errcnt (d : Nat)
  | errlog
  | remapget (d : Nat)
  | remapset (d y skip : Nat)
  | logset (f : Nat) (base : W64) (en : Bool)
  | ctxout (t : Nat) (area : W64) (key : Nat)
  | ctxin (t : Nat) (area : W64) (key : Nat)
  | poolget (dep pool : Nat) (addr : W64)
  | poolset (dep pool : Nat) (addr : W64)
  | registerWrite (f off : Nat) (v : W64)
  | remoteAccessReply (h n op idx : Nat) (r : RReply)
  | slotCommandArrival (c : SlotCmd)
  | tableWalkDone (d va : Nat)
  | sealedLineDrop (h src n : Nat) (lo len : Nat)
  | headerHomeTest (t : HdrTest)
  | bridgeFlitReceive (b : Nat) (flit : V512)
  | retainedHoldWithdrawal (lk : Nat)
deriving DecidableEq, Repr

end Sys2Proof
end

