-- ==== Sys2Proof/Machine/State.lean ====
section
/-! DEFINITION. The state of the Y9 as plain data: everything the spec gives the machine (INVENTORY.md, State), the
model's own schedule (log 3), the fault and refusal reasons, and the state after reset. -/

namespace Sys2Proof.Machine

/-- Why the machine stops. -/
inductive Fault where
  /-- Raised by the host's CXL.mem reads and writes (hostMemRead, hostMemWrite) at an address outside the first tier, the one range
  that R347 exposes to the host: no such device memory exists. Safe: no slot of the device makes such an access. -/
  | noSuchAddress (pa : Nat)
deriving DecidableEq, Repr

/-- Why an instruction has no meaning here. -/
inductive Refusal where
  /-- Raised by an arm of `exec` for an instruction the model does not yet give a meaning. Safe: nothing is claimed. -/
  | notModelled (mnemonic : String)
deriving DecidableEq, Repr

/-- A finite table: keys and values, a later setting of a key in place of an earlier one. -/
structure AMap (α : Type) where
  ents : List (Nat × α)
deriving DecidableEq, Repr

/-- The empty table. -/
def AMap.empty {α : Type} : AMap α := ⟨[]⟩

/-- Physical memory (R313): the bytes that differ from what an unlisted address reads as, by rising address. -/
structure Memory where
  cells : List Host.Cell
deriving DecidableEq, Repr

/-- What an unlisted address reads as: DESIGN CHOICE 0, the spec gives no contents before the first write (log 2). -/
def Memory.unlisted : Byte := 0#8

/-- Addresses strictly rising from a bound. -/
def Memory.risingFrom : Nat → List Host.Cell → Bool
  | _, [] => true
  | lo, (a, _) :: r => decide (lo ≤ a) && Memory.risingFrom (a + 1) r

/-- The canonical form: addresses strictly rising, and no entry equal to what an unlisted address reads as. -/
def Memory.wf (m : Memory) : Bool :=
  Memory.risingFrom 0 m.cells && m.cells.all (fun c => c.2 != Memory.unlisted)

/-! ### Slots -/

/-- What a WAITING slot waits for (R20, R22). -/
inductive WaitFor where
  | lanes (cls : Nat)
  | barrier (b : Nat)
  | link
  | pool
  | join (tgt : W64) (mask : BitVec 16)
  | queue (cq : Bool)
  | pend (b : Nat)
  | object (o : Nat)
  | visible
  | records
  | lowest
  | push
  | message
  | mailbox
  | park
  | bank
  | service
  | ack
  | home
  | room
  | move
  | reply
deriving DecidableEq, Repr

/-- Why a slot is HELD (R20, R340, R304, R368). A pre-empted slot keeps whether it was WAITING. -/
inductive HeldBy where | trap | preempt (waiting : Bool) | debug | lost
deriving DecidableEq, Repr

/-- Slot states (R20 Table 1). -/
inductive SlotSt where
  | free
  | ready
  | seated (seat : Nat)
  | waiting (w : WaitFor)
  | held (by_ : HeldBy)
deriving DecidableEq, Repr

/-- Vector register states (R32 Table 3). -/
inductive VSt where | present | pending | unrestored | awaiting (d : Dir)
deriving DecidableEq, Repr

/-- Thread kinds (%mode[1:0], R35). -/
inductive Kind where | launch | freeTask | ordered
deriving DecidableEq, Repr

/-- A lookahead window (R26, R27): the long-latency instruction, the registers it writes, instructions left. -/
structure Win where
  pc : W64
  vr : List Nat
  ar : List Nat
  kr : List Nat
  left : Nat
deriving DecidableEq, Repr

/-- Where one access of a long-latency load stands (R29, R146 to R148, R165). -/
inductive AccSt where
  | xlat
  | home (pa : Nat)
  | window
  | parked
  | got
  | page (sub : Nat)
  | prot (cause sub : Nat)
  | bad (cause sub : Nat)
deriving DecidableEq, Repr

/-- One access of a load: lane and part, address, standing, the line (before it is read only the slot's own bytes, with
their mask, as they stood at the issue), and the number of the fault that reports it (0: none). -/
structure Acc where
  lane : Nat
  part : Nat
  va : W64
  st : AccSt
  line : Line
  own : LineMask
  flt : Nat
deriving DecidableEq, Repr

/-- What a long-latency instruction does when its accesses are answered. -/
inductive OpKind where
  | gld (d : Nat)
  | gldx (d : Nat)
  | ldkr (d : Nat) (off : BitVec 24) (rot : AMap W32)
  | rtab
  | kvlook (d a : Nat)
  | value
  | lease
  | amo (op : AmoOp) (w64 : Bool) (x c : W64)
deriving DecidableEq, Repr

/-- An outstanding long-latency instruction (R26, R28): its destinations, mask, accesses and results so far. -/
structure LongOp where
  id : Nat
  pc : W64
  kind : OpKind
  vd : List Nat
  ad : List Nat
  mask : BitVec 16
  kz : Bool
  acc : List Acc
  vres : List (Nat × V512)
  ares : List (Nat × W64)
  addr : W64
  hash : W64
  fin : Bool
deriving DecidableEq, Repr

/-- A lease record (R150 to R155). -/
structure LeaseRec where
  va : Nat
  pa : Nat
  cls : LeaseCls
  granted : Bool
  broken : Bool
  why : Nat
  expiry : Nat
  shadow : Line
  mask : LineMask
  waitq : Bool
  op : Nat
deriving DecidableEq, Repr

/-- One lane word of a local-store access already performed, and the data of its load (R123). -/
structure ResLane where
  lane : Nat
  part : Nat
  data : W32
  trap : Option (Nat × Nat)
deriving DecidableEq, Repr

/-- A fault found after issue (R29, R55, R147, R148, R323): its record, the instruction or window store it is of, and the number under
which a load's accesses name it. -/
structure Deferred where
  cause : Nat
  sub : Nat
  pc : W64
  addr : W64
  lanes : BitVec 16
  svc : Bool
  op : Option Nat
  id : Nat
deriving DecidableEq, Repr

/-- The answer to a request the slot skips turns or waits for; `stale` is one that is to be dropped when it comes. -/
inductive Reply where
  | idle
  | sent
  | stale
  | done (v : W64)
  | fail (cause sub : Nat)
deriving DecidableEq, Repr

/-- A thread slot (R20 to R36, R81, R123, R255, R292, R299). -/
structure Slot where
  st : SlotSt
  readyAt : Nat
  yielded : Bool
  lk : Nat
  ri : Nat
  kind : Kind
  pc : W64
  vregs : AMap V512
  vst : AMap VSt
  aregs : AMap W64
  kregs : AMap (BitVec 16)
  winBase : Nat
  winCount : Nat
  wins : List Win
  ops : List LongOp
  laneSet : BitVec 16
  tasks : AMap W32
  tsw : W32
  gtid : BitVec 48
  frec0 : W64
  frec1 : W64
  frec2 : W64
  frec3 : W64
  wakeBit : Bool
  svcHeld : Bool
  svcWait : Bool
  rot : AMap W32
  resPh : Bool
  residue : List ResLane
  pushed : List Nat
  pushWait : List Nat
  closed : Bool
  leases : List LeaseRec
  defer : List Deferred
  refused : List RemoteAcc
  winStores : List Nat
  stream : List (Nat × W64)
  reply : Reply
  stopReq : Bool
  preempt : Bool
  endReq : Bool
  stepReq : Bool
  bpPass : Option W64
  bpDue : Bool
  stepDue : Bool
  killed : Bool
  heldAt : Nat
  live : Nat
deriving DecidableEq, Repr

/-- The slot with no thread. Values the spec does not give are zero (log 1). -/
def Slot.init : Slot where
  st := .free
  readyAt := 0
  yielded := false
  lk := 0
  ri := 0
  kind := .launch
  pc := 0#64
  vregs := .empty
  vst := .empty
  aregs := .empty
  kregs := .empty
  winBase := 0
  winCount := 8
  wins := []
  ops := []
  laneSet := 0#16
  tasks := .empty
  tsw := 0#32
  gtid := 0#48
  frec0 := 0#64
  frec1 := 0#64
  frec2 := 0#64
  frec3 := 0#64
  wakeBit := false
  svcHeld := false
  svcWait := false
  rot := .empty
  resPh := false
  residue := []
  pushed := []
  pushWait := []
  closed := false
  leases := []
  defer := []
  refused := []
  winStores := []
  stream := []
  reply := .idle
  stopReq := false
  preempt := false
  endReq := false
  stepReq := false
  bpPass := none
  bpDue := false
  stepDue := false
  killed := false
  heldAt := 0
  live := 0

/-! ### Cores -/

/-- The kinds of access that reach a bank (R117 Table 1). -/
inductive BankKind where | ld | st | rld | rst | erd | ewr | xld | xst
deriving DecidableEq, Repr

/-- Where a parked access came from (R121, R122): a lane word of an own slot, a remote access, an engine word landing,
or word number i of the step a queue is reading. -/
inductive ParkSrc where
  | own (n lane part : Nat)
  | remote (r : RemoteAcc)
  | landing (w : EngWord)
  | engine (h : Nat) (cq : Bool) (i : Nat)
deriving DecidableEq, Repr

/-- A wait-list entry (R121). -/
structure Parked where
  addr : Nat
  kind : BankKind
  data : W32
  cls : Nat
  src : ParkSrc
deriving DecidableEq, Repr

/-- Words 0 and 1 of a page-table leaf with the page it maps (R315, R318). -/
structure Leaf where
  base : Nat
  size : Nat
  w0 : W64
  w1 : W64
deriving DecidableEq, Repr

/-- An L1 or instruction-cache line with the words of it that it holds (R139, R319). -/
structure CLine where
  data : Line
  sealed_ : Bool
  leaf : Option Leaf
  words : BitVec 32
deriving DecidableEq, Repr

/-- One generation of an action table (R118): entries kind x 16 + tag, and redirect bases. -/
structure TGen where
  ents : AMap (BitVec 16)
  rb : AMap W32
deriving DecidableEq, Repr

/-- A protection lookaside entry (R318, R319). -/
structure PlbEnt where
  terr : Nat
  dom : Nat
  rights : BitVec 16
deriving DecidableEq, Repr

/-- A barrier (R176 Table 1) and its owner. -/
structure Bar where
  exp : BitVec 16
  arr : BitVec 16
  pend : Nat
  ph : Bool
  err : Bool
  code : BitVec 16
  det : BitVec 16
  owner : Option Nat
deriving DecidableEq, Repr

def Bar.init : Bar := ⟨0, 0, 0, false, false, 0, 0, none⟩

/-- Object states (R185). -/
inductive ObjSt where | free | open_ | sealed_
deriving DecidableEq, Repr

/-- An object table entry: the shape record of R184, its state, its transfers in flight and its owner. -/
structure Obj where
  st : ObjSt
  base : Nat
  rows : Nat
  cols : Nat
  etype : Nat
  pitch : Nat
  trows : Nat
  tcols : Nat
  ref : Nat
  owner : Nat
  drops : Nat
deriving DecidableEq, Repr

def Obj.init : Obj := ⟨.free, 0, 0, 0, 0, 0, 0, 0, 0, 0, 0⟩

/-- A continuation pool directory entry (R82), by pool index. -/
structure PoolEnt where
  idx : Nat
  lk : Nat
  tgt : W64
  vlo : Nat
  n : Nat
  kind : Kind
  task : W32
  order : Nat
deriving DecidableEq, Repr

/-- What the unit keeps of a descriptor it placed in the ring (R194), with its place in the ring. -/
structure RingEnt where
  pos : Nat
  ts : W32
  parent : W32
  id : W32
  rr : Bool
deriving DecidableEq, Repr

/-- The queue unit of a core (R193 to R195). -/
structure TQ where
  lk : Option Nat
  rbase : W64
  rsize : Nat
  hi : Nat
  lo : Nat
  ordered : Bool
  pb : Nat
  smin : Nat
  chip : List Desc
  ring : List RingEnt
  counter : BitVec 20
  waiting : List PushMsg
  drops : W64
  requeue : List Desc
  hold : List (Nat × Nat)
  inq : List PushMsg
  retry : List (Nat × Nat)
  filling : Bool
deriving DecidableEq, Repr

def TQ.init : TQ := ⟨none, 0, 0, 192, 64, false, 0, 0, [], [], 0, [], 0, [], [], [], [], false⟩

/-- An inbox buffer (R211). -/
structure InMsg where
  terr : Nat
  rank : Nat
  sRank : Nat
  sCore : Nat
  data : V512
deriving DecidableEq, Repr

/-- A copy made by ocopy (R188). -/
structure OCopy where
  obj : Nat
  base : Nat
  ext : Nat
  t : Nat
  dst : Nat
deriving DecidableEq, Repr

/-- A command in an engine queue (R216 to R223): its image or the ocopy it stands for, its pusher, its step, the bytes
it still owes its barrier, the groups it waits for, what its present step has read, the cycle before which it does not try a full
wait list again, and the cause, sub-code, address and step with which it is to stop. -/
structure Cmd where
  seq : Nat
  img : V512
  oc : Option OCopy
  bar : Nat
  lk : Nat
  n : Nat
  pc : W64
  gtid : BitVec 48
  recov : Bool
  priv : Bool
  step : Nat
  begun : Bool
  total : Nat
  left : Nat
  after : List Nat
  rd : AMap W32
  trapped : List Nat
  parked : List Nat
  sa : AMap W32
  sb : AMap W32
  objs : List (Nat × Nat)
  prev : W64
  retryAt : Nat
  stop : Option (Nat × Nat × W64 × Nat)
deriving DecidableEq, Repr

/-- An engine queue (R216, R220): commands not yet executed, commands executed and not completed, the format context,
the number of the last command accepted and that of the last load, the last stop, its freeze, and the first and the last frame that its last kv.imp placed (log 43). -/
structure EQ where
  q : List Cmd
  live : List Cmd
  ctx : W32
  seqa : BitVec 16
  base : BitVec 16
  fseq : BitVec 16
  faddr : W64
  frz : Bool
  kvFirst : W64
  kvPrev : W64
deriving DecidableEq, Repr

/-- An empty queue; the reset value of a format context is 0x0000_02A4 (R216). -/
def EQ.init : EQ := ⟨[], [], 0x000002A4#32, 0, 0, 0, 0, false, 0, 0⟩

/-- A group directory entry (R141): buffer and record, virtual line, the group (none while open) and the task whose
record it is (0: none). -/
structure DirEnt where
  buf : Nat
  rec_ : Nat
  va : Nat
  gid : Option Nat
  task : W32
  seq : Nat
deriving DecidableEq, Repr

/-- A core (R2, R112, R121, R138 to R141, R176, R184, R193, R211, R216, R310). `away` holds the slots that have been saved and not
restored, `lsTodo` the 4 KiB units of local store that a restore has still to bring: local address, context block, launch (R305, R306). -/
structure Core where
  slots : AMap Slot
  away : AMap Slot
  words : AMap W32
  tags : AMap (BitVec 4)
  map : AMap W32
  gen0 : AMap TGen
  gen1 : AMap TGen
  tbgen : BitVec 8
  tlk : AMap Nat
  parked : List Parked
  held : List RemoteAcc
  heldEng : List EngWord
  l1 : AMap CLine
  ic : AMap CLine
  plb : List PlbEnt
  linkUp : List (Nat × Nat × Nat × V512)
  linkDown : List (Nat × Nat × Nat × V512)
  waitUp : List (Nat × Nat × Nat × V512)
  waitDown : List (Nat × Nat × Nat × V512)
  bars : AMap Bar
  objs : AMap Obj
  pool : List PoolEnt
  tq : TQ
  inbox : List InMsg
  mq : EQ
  cq : EQ
  dir : List DirEnt
  prof : AMap W64
  rfPoison : List Nat
  lsPoison : List Nat
  lapsed : List Nat
  lsTodo : List (Nat × Nat × Nat)
deriving DecidableEq, Repr

/-- A core at reset. Values the spec does not give are zero or empty (log 1). -/
def Core.init : Core where
  slots := .empty
  away := .empty
  words := .empty
  tags := .empty
  map := .empty
  gen0 := .empty
  gen1 := .empty
  tbgen := 0
  tlk := .empty
  parked := []
  held := []
  heldEng := []
  l1 := .empty
  ic := .empty
  plb := []
  linkUp := []
  linkDown := []
  waitUp := []
  waitDown := []
  bars := .empty
  objs := .empty
  pool := []
  tq := .init
  inbox := []
  mq := .init
  cq := .init
  dir := []
  prof := .empty
  rfPoison := []
  lsPoison := []
  lapsed := []
  lsTodo := []

/-- An accumulator tile: its owning queue and its elements by 128 x row + column (R216). -/
structure Tile where
  owner : Option Nat
  el : AMap W32
  lk : Nat
deriving DecidableEq, Repr

def Tile.init : Tile := ⟨none, .empty, 0⟩

/-- A court (R216, R221, R320, R341). -/
structure Court where
  tiles : AMap Tile
  group : BitVec 6
  last : Nat
  frozen : Bool
  tried : List Nat
  ran : Bool
deriving DecidableEq, Repr

def Court.init : Court := ⟨.empty, 0, 3, false, [], false⟩

/-! ### Homes and groups -/

/-- A line of a group (R141, R142): virtual and physical line, bytes and mask, or the record that still holds them. -/
structure GLine where
  va : Nat
  pa : Nat
  data : Line
  mask : LineMask
  rec_ : Option (Nat × Nat)
deriving DecidableEq, Repr

/-- What follows when a group has been released at every home (R142, R154, R157, R173, R205, R251 to R254). -/
inductive Fin where
  | slot (h n : Nat)
  | task (lk : Nat) (id : W32) (done : Bool)
  | lease (pa : Nat)
  | amo (h n op : Nat) (old : W64) (pa : Nat)
  | engine (h : Nat) (cq : Bool) (seq bytes : Nat)
  | reply (h n : Nat) (v : W64)
  | insert (h n : Nat) (bucket : Nat) (ent : BitVec 128)
  | pos (h n : Nat)
  | push (dep pool idx : Nat)
  | host (f : Nat)
  | ring (h : Nat)
  | trace (t epoch : Nat)
  | nothing
deriving DecidableEq, Repr

/-- Phases of a group (R142): closed and waiting for its predecessor, sending lines, releasing. -/
inductive GPhase where | waiting | one | two
deriving DecidableEq, Repr

/-- A closed group in flight. `homes` are those still to acknowledge, `rel` those still to release; `fn` is the function
whose mask governs its fills (R330); `after` is the group it must follow. -/
structure Grp where
  id : Nat
  lines : List GLine
  phase : GPhase
  homes : List Nat
  rel : List Nat
  fn : Nat
  after : Option Nat
  core : Nat
  fin : List Fin
deriving DecidableEq, Repr

/-- A home: 0 to 511 the quays, 512 the host port (R138, R142, R150). -/
structure Home where
  pend : List (Nat × Nat)
  wait : List Nat
  leaseQ : List LeaseReq
  holders : List LeaseReq
  snoop : List (Nat × Nat)
deriving DecidableEq, Repr

def Home.init : Home := ⟨[], [], [], [], []⟩

/-- A line of a quay set (R329 to R334). -/
structure QLine where
  way : Nat
  pa : Nat
  owner : Nat
  dirty : Bool
  mews : Bool
  trim : Bool
  age : Nat
deriving DecidableEq, Repr

/-- A depot pool (R243): the descriptor, the indices pushed back (top first), and the first index never popped. -/
structure Pool where
  base : W64
  hc : BitVec 2
  fmt : BitVec 3
  v : Bool
  terr : Nat
  count : Nat
  pushed : List Nat
  fresh : Nat
deriving DecidableEq, Repr

def Pool.init : Pool := ⟨0, 0, 0, false, 0, 0, [], 0⟩

/-! ### Launches, tasks, terraces, functions -/

/-- Stages of a launch (R277 to R289). -/
inductive LSt where | pending | placed | resident | retained
deriving DecidableEq, Repr

/-- A launch's reservation on one core (R281). -/
structure Resv where
  slots : List Nat
  seats : List Nat
  rbase : Nat
deriving DecidableEq, Repr

/-- A launch: its request, its image header, its reservations and counters (R277 to R289, R200, R193). -/
structure Launch where
  st : LSt
  order : Nat
  terr : Nat
  lnum : Nat
  image : W64
  data : W64
  first : Nat
  len : Nat
  prio : Nat
  succ : Option Nat
  rankBase : Nat
  exportA : W64
  sub : Submitter
  read : Bool
  nslots : Nat
  nseats : Nat
  nregs : Nat
  flags : BitVec 8
  tmask : BitVec 8
  codeOff : Nat
  dataOff : Nat
  dataLen : Nat
  entries : List Nat
  lives : List (BitVec 128 × BitVec 16 × BitVec 8)
  maps : List W32
  tables : AMap TGen
  resv : AMap Resv
  serial : Nat
  ordered : Option Bool
  horizon : W32
  known : W32
  retain : List Nat
  out : Bool
  predOf : Option Nat
  succDone : Bool
  round : Option Nat
  retryAt : Nat
  reported : Option Nat
  grps : List Nat
  ending : Option Nat
  dropped : Nat
  flushAt : Nat
  expbad : BitVec 32
  noFlush : Bool
deriving DecidableEq, Repr

/-- A dispatched task that has not finished (R191, R204, R205). `group` is its lines once ended. -/
structure Task where
  lk : Nat
  d : Desc
  core : Nat
  buf : Nat
  sig : BitVec 1024
  ended : Bool
  xl : List (Nat × Nat)
  redo : Bool
  plain : Bool
  recov : Bool
deriving DecidableEq, Repr

/-- A debug block (R338, R343, R352): with the place of the next trace record, which TRHEAD reaches when the records before it are
visible (R346), and how often the ring was set. -/
structure Dbg where
  hold : Bool
  dumpBase : W64
  trBase : W64
  trLen : Nat
  trDrop : W32
  trHead : W32
  trTail : W32
  bp : AMap (W64 × W64)
  trNext : W32
  epoch : Nat
deriving DecidableEq, Repr

def Dbg.init : Dbg := ⟨false, 0, 0, 0, 0, 0, 0, .empty, 0, 0⟩

/-- A terrace: its descriptor words (R275), domain table base (R318), last named context area (R303), debug block. -/
structure Terrace where
  w0 : W64
  w1 : W64
  dtBase : W64
  area : W64
  dbg : Dbg
deriving DecidableEq, Repr

def Terrace.init : Terrace := ⟨0, 0, 0, 0, .init⟩

/-- The registers of a function (R328, R332, R334, R349, R350, R370, R374). -/
structure Func where
  hqBase : W64
  hqLen : Nat
  hqHead : W32
  hqTail : W32
  slotcmd : BitVec 256
  hmsg : V512
  busy : Bool
  err : Bool
  guar : Nat
  burst : Nat
  res : Nat
  qpart : W64
  qmews : W64
  logBase : W64
  logOn : Bool
deriving DecidableEq, Repr

/-- A function at reset: WMASK is 0xFFFF (R332), everything else zero. -/
def Func.init : Func := ⟨0, 0, 0, 0, 0, 0, false, false, 0, 0, 0, 0xFFFF#64, 0, 0, false⟩

/-! ### Ports, bridges, switches -/

/-- An Extan port (R351, R354 to R356): its registers, its sequence numbers and flits, what is still to send of the work
in hand and where its status goes, what has arrived of a partner's work under which window, and works that are complete. -/
structure Port where
  rbase : W64
  rlen : Nat
  state : W32
  head : W32
  tail : W32
  rxbase : W64
  rxlen : W64
  replay : W64
  retrain : W32
  rxSeq : BitVec 12
  txSeq : BitVec 12
  freed : Nat
  sent : List (BitVec 2048)
  out : List (BitVec 2048)
  fails : Nat
  ackAt : Nat
  toSend : List Byte
  vc : Nat
  stat : Option W64
  inBytes : List Byte
  inWin : Nat × Nat
  inDone : List (List Byte × (Nat × Nat))
deriving DecidableEq, Repr

def Port.init : Port := ⟨0, 0, 0, 0, 0, 0, 0, 0, 0, 0, 0, 0, [], [], 0, 0, [], 0, none, [], (0, 0), []⟩

/-- A bridge (R364): lost or not, its failed data lanes and spares, the last flit received in order, the replays of the next one
that have failed, and the acks (true) and naks that its receiver returned, with their sequence numbers. -/
structure Bridge where
  lost : Bool
  bad : V512
  badSpare : BitVec 32
  rxSeq : Nat
  fails : Nat
  acks : List (Bool × Nat)
  sent : List V512
  out : List V512
deriving DecidableEq, Repr

def Bridge.init : Bridge := ⟨false, 0, 0, 0, 0, [], [], []⟩

/-- A switch in progress (R303 to R306): the outgoing and incoming terraces, areas, start cycle, the number under which its saves
write device-private bytes, and the cores still to save and to restore. -/
structure Switch where
  out : Option Nat
  inn : Option Nat
  oarea : W64
  iarea : W64
  start : Nat
  seed : Nat
  toSave : List Nat
  toRestore : List Nat
deriving DecidableEq, Repr

/-- What a save keeps of a launch on a core beside the context block (R305, R307): the terrace, the launch (none once only tiles are
still to come back), the core, the number under which the block's device-private bytes were written and whether they stand in portable
form (R371), the slots saved, what the core held of the launch beside them, and the tiles of its matrix queue. -/
structure Saved where
  terr : Nat
  lks : List Nat
  h : Nat
  seed : Nat
  portable : Bool
  slots : List Nat
  core : Core
  tiles : AMap Tile
deriving DecidableEq, Repr

/-- A record of ERRLOG (R363): structure sub-code, district, address, %gtid where a slot met it. -/
structure ErrRec where
  sub : Nat
  district : Nat
  addr : Nat
  gtid : BitVec 48
deriving DecidableEq, Repr

/-- A shoot-down in progress (R309, R327): the slot that waits, the pages it drops, the cores still to acknowledge. -/
structure Shoot where
  id : Nat
  h : Nat
  n : Nat
  lo : Nat
  len : Nat
  cores : List Nat
deriving DecidableEq, Repr

/-- What the machine itself brings about: messages that arrive and events that fall due, each under the name and with the
operands of its row of the opcode table. -/
inductive Ev where
  | linkWriteArrival (dst : Nat) (src : Dir) (slot reg : Nat) (lk : Nat) (val : V512)
  | tableFlip (h : Nat) (mask : BitVec 8)
  | remoteAccess (acc : RemoteAcc)
  | windowStoreRefused (acc : RemoteAcc) (cause sub : Nat)
  | homeRead (h n op idx : Nat) (pa : Nat)
  | resultLanding (h n op : Nat)
  | deferredFault (h n : Nat)
  | groupPhaseOne (g q : Nat)
  | phaseOneAck (g q : Nat)
  | groupRelease (g q : Nat)
  | leaseRequestArrival (r : LeaseReq)
  | leaseRetry (r : LeaseReq)
  | leaseGrant (r : LeaseReq) (data : Line)
  | leaseExpiry (h n : Nat) (va : Nat)
  | breakNotice (r : LeaseReq)
  | amoGrant (r : LeaseReq) (data : Line)
  | barrierArrival (t b h n : Nat)
  | barrierAck (h n sub : Nat)
  | engineReport (h : Nat) (cq : Bool) (seq bytes : Nat)
  | taskPushArrival (m : PushMsg)
  | spill (h : Nat)
  | ringRefill (h : Nat)
  | ringAccessRetry (h : Nat)
  | dispatch (h : Nat)
  | arbiterRound (lk : Nat)
  | progressAbort (h : Nat)
  | strandedRequeue (h : Nat)
  | messageArrival (m : Msg)
  | messageRetry (m : Msg)
  | spredMerge (rt : Nat) (u : Upd)
  | spredApply (u : Upd)
  | engineWordLanding (w : EngWord)
  | engineLandingRetry (w : EngWord)
  | depotPop (dep pool h n : Nat)
  | depotPush (dep pool idx : Nat)
  | migrArrival (h n t : Nat)
  | shootdownAck (id h : Nat)
  | profLeaseGrant (t : Nat)
  | seatAssign (h : Nat)
  | granuleRefill (h n g : Nat)
  | launchRequest (t : Nat) (req : V512) (full : Bool) (sub : Submitter)
  | placement
  | launchLoad (lk : Nat)
  | launchComplete (lk : Nat)
  | seatLapse (h seat : Nat)
  | contextSave (h : Nat)
  | contextRestore (h : Nat)
  | portTransfer (p : Nat)
  | portReduceI32 (p : Nat)
  | portReduceF32 (p : Nat)
  | portMessage (p : Nat)
  | partnerTransferApply (p : Nat)
  | remoteAccessReply (h n op idx : Nat) (r : RReply)
  | slotCommandArrival (c : SlotCmd)
  | tableWalkDone (d va : Nat)
  | sealedLineDrop (h src n : Nat) (lo len : Nat)
  | headerHomeTest (t : HdrTest)
deriving DecidableEq, Repr

/-- What an agent of the machine does next: a seat's turn on a core, a step of a court or of a copy engine, an event of the
machine, or a request from outside. -/
inductive Act where
  | turn (h : Nat)
  | court (c : Nat)
  | copy (h : Nat)
  | ev (e : Ev)
  | req (i : Instr)
deriving DecidableEq, Repr

/-- A message in flight: the cycle it is due, its channel (messages of one channel stay in order), what arrives. -/
structure Flight where
  due : Nat
  chan : Nat
  e : Ev
deriving DecidableEq, Repr

/-- The instruction being executed belongs to a slot (with the word it was read from), or to a queue (of core h, matrix or
copy), or to nobody. -/
inductive Cur where
  | none
  | slot (h n : Nat) (w : W64)
  | queue (h : Nat) (cq : Bool)
deriving DecidableEq, Repr

/-- Everything but physical memory. -/
structure Dev where
  clock : Nat
  stage : Nat
  failure : Nat
  up : Bool
  cores : AMap Core
  courts : AMap Court
  homes : AMap Home
  groups : List Grp
  qsets : AMap (List QLine)
  pins : List Nat
  stalled : List (Nat × Nat)
  linePoison : List Nat
  hostLines : List Nat
  buckets : AMap V512
  merges : AMap (List Upd)
  xl : AMap (List Leaf)
  walks : List (Nat × Nat × Nat)
  shoots : List Shoot
  troot : W64
  depots : AMap Pool
  launches : AMap Launch
  tasks : AMap Task
  terr : AMap Terrace
  ranks : AMap W32
  ctlDrops : W64
  funcs : AMap Func
  profHolder : Option Nat
  profQueue : List Nat
  shared : AMap W64
  ports : AMap Port
  bridges : AMap Bridge
  mr : AMap V512
  fwVersion : Nat
  keys : AMap (BitVec 4096)
  doe : List Byte
  hostRead : List Byte
  errCount : AMap W64
  errLog : List ErrRec
  skip : AMap Nat
  failed : List Nat
  switch : Option Switch
  switchDone : Nat
  saved : List Saved
  agenda : List Act
  net : List Flight
  cur : Cur
  count : Nat
deriving DecidableEq, Repr

/-- The state of the machine: physical memory, and everything else. -/
structure State where
  mem : Memory
  dev : Dev
deriving DecidableEq, Repr

/-- The device at reset, before bring-up: every field empty or zero but those the spec gives a value (log 1). -/
def Dev.reset : Dev where
  clock := 0
  stage := 0
  failure := 0
  up := false
  cores := .empty
  courts := .empty
  homes := .empty
  groups := []
  qsets := .empty
  pins := []
  stalled := []
  linePoison := []
  hostLines := []
  buckets := .empty
  merges := .empty
  xl := .empty
  walks := []
  shoots := []
  troot := 0
  depots := .empty
  launches := .empty
  tasks := .empty
  terr := .empty
  ranks := .empty
  ctlDrops := 0
  funcs := .empty
  profHolder := none
  profQueue := []
  shared := .empty
  ports := .empty
  bridges := .empty
  mr := .empty
  fwVersion := 0
  keys := .empty
  doe := []
  hostRead := []
  errCount := .empty
  errLog := []
  skip := .empty
  failed := []
  switch := none
  switchDone := 0
  saved := []
  agenda := []
  net := []
  cur := .none
  count := 0

/-- The machine right after reset: nothing listed in memory, the device before bring-up. -/
def State.reset : State := ⟨⟨[]⟩, Dev.reset⟩

end Sys2Proof.Machine
end

