-- ==== Sys2Proof/Machine/Maps.lean ====
section
/-! DEFINITION. Reading and writing tables and physical memory. Memory keeps its canonical form: a byte equal to what an
unlisted address reads as is not listed. -/

namespace Sys2Proof.Machine

/-- The value under a key, if any. -/
def AMap.find? {α : Type} (m : AMap α) (k : Nat) : Option α :=
  match m.ents.find? (fun e => e.1 == k) with
  | some e => some e.2
  | none => none

/-- The value under a key, or the default. -/
def AMap.get {α : Type} (d : α) (m : AMap α) (k : Nat) : α := (m.find? k).getD d

/-- A table without a key. -/
def AMap.erase {α : Type} (m : AMap α) (k : Nat) : AMap α := ⟨m.ents.filter (fun e => e.1 != k)⟩

/-- A key and its value put among entries by rising key. -/
def putSorted {α : Type} (k : Nat) (v : α) : List (Nat × α) → List (Nat × α)
  | [] => [(k, v)]
  | (a, b) :: r => if k < a then (k, v) :: (a, b) :: r else (a, b) :: putSorted k v r

/-- A table with a key set. -/
def AMap.put {α : Type} (m : AMap α) (k : Nat) (v : α) : AMap α := ⟨putSorted k v (m.erase k).ents⟩

/-- A table with the value of a key changed. -/
def AMap.upd {α : Type} (d : α) (m : AMap α) (k : Nat) (f : α → α) : AMap α := m.put k (f (m.get d k))

/-- The keys of a table. -/
def AMap.keys {α : Type} (m : AMap α) : List Nat := m.ents.map (·.1)

/-- A byte of memory (R313). -/
def Memory.read (m : Memory) (a : Nat) : Byte :=
  match m.cells.find? (fun c => c.1 == a) with
  | some c => c.2
  | none => Memory.unlisted

/-- Memory with one byte written. -/
def Memory.write (m : Memory) (c : Host.Cell) : Memory :=
  let rest := m.cells.filter (fun e => e.1 != c.1)
  if c.2 = Memory.unlisted then ⟨rest⟩ else ⟨putSorted c.1 c.2 rest⟩

/-- Memory with bytes written in order. -/
def Memory.writeAll (m : Memory) (cs : List Host.Cell) : Memory := cs.foldl Memory.write m

/-- n bytes from an address, lowest first. -/
def Memory.bytes (m : Memory) (a n : Nat) : List Byte := (List.range n).map (fun i => m.read (a + i))

/-- Bytes, lowest first, as one little-endian value (R18). -/
def leNat : List Byte → Nat
  | [] => 0
  | b :: r => b.toNat + 256 * leNat r

/-- The n lowest bytes of a value, lowest first (R18). -/
def leBytes : Nat → Nat → List Byte
  | 0, _ => []
  | n + 1, v => BitVec.ofNat 8 v :: leBytes n (v / 256)

/-- Little-endian values in memory (R17). -/
def Memory.w16 (m : Memory) (a : Nat) : Nat := leNat (m.bytes a 2)
def Memory.w32 (m : Memory) (a : Nat) : W32 := BitVec.ofNat 32 (leNat (m.bytes a 4))
def Memory.w64 (m : Memory) (a : Nat) : W64 := BitVec.ofNat 64 (leNat (m.bytes a 8))
/-- The 128-byte line at an address. -/
def Memory.line (m : Memory) (a : Nat) : Line := BitVec.ofNat 1024 (leNat (m.bytes a 128))

/-- Cells that write consecutive bytes from an address. -/
def cellsAt (a : Nat) (bs : List Byte) : List Host.Cell := bs.zipIdx.map (fun p => (a + p.2, p.1))

/-- Byte i of a line. -/
def Line.byte (l : Line) (i : Nat) : Byte := l.extractLsb' (8 * i) 8

/-- Cells that write the masked bytes of a line (R142 phase two). -/
def maskedCells (pa : Nat) (l : Line) (m : LineMask) : List Host.Cell :=
  ((List.range 128).filter (fun i => m.getLsbD i)).map (fun i => (pa + i, Line.byte l i))

/-- A line with byte i replaced. -/
def Line.setByte (l : Line) (i : Nat) (b : Byte) : Line :=
  (l &&& ~~~((0xFF#1024) <<< (8 * i))) ||| (b.setWidth 1024 <<< (8 * i))

/-- The 128-bit mask widened to a mask of bits. -/
def LineMask.bits (m : LineMask) : Line :=
  (List.range 128).foldl (fun acc i => if m.getLsbD i then acc ||| ((0xFF#1024) <<< (8 * i)) else acc) 0#1024

/-- The masked bytes of `new` over `old`. -/
def Line.over (old new : Line) (m : LineMask) : Line := (old &&& ~~~(LineMask.bits m)) ||| (new &&& LineMask.bits m)

/-- The 32-bit word at byte offset o of a line. -/
def Line.w32 (l : Line) (o : Nat) : W32 := l.extractLsb' (8 * o) 32
/-- The 64-bit word at byte offset o of a line. -/
def Line.w64 (l : Line) (o : Nat) : W64 := l.extractLsb' (8 * o) 64
/-- n consecutive bytes of a line from offset o. -/
def Line.bytes (l : Line) (o n : Nat) : List Byte := (List.range n).map (fun i => Line.byte l (o + i))

end Sys2Proof.Machine
end

