-- ==== Sys2Proof/Machine/Operands.lean ====
section
/-! DEFINITION. Operand forms: lanes of a vector register, the three register files of a slot with their hard-wired
registers, masked results, memory addresses, immediates, and what an instruction names (R14 to R18, R27, R30, R31, R57,
R72, R80, R92, R113). -/

namespace Sys2Proof.Machine

/-! ### Lanes (R18) -/

/-- Lane l of a vector value: bits [32l+31:32l]. -/
def lane (v : V512) (l : Nat) : W32 := v.extractLsb' (32 * l) 32

/-- The vector value whose lane l is f l. -/
def ofLanes (f : Nat → W32) : V512 :=
  f 15 ++ f 14 ++ f 13 ++ f 12 ++ f 11 ++ f 10 ++ f 9 ++ f 8 ++
  f 7 ++ f 6 ++ f 5 ++ f 4 ++ f 3 ++ f 2 ++ f 1 ++ f 0

/-- The 16-bit value whose bit l is f l. -/
def ofBits (f : Nat → Bool) : BitVec 16 :=
  (List.range 16).foldl (fun acc l => if f l then acc ||| (1#16 <<< l) else acc) 0#16

/-- The lanes of a mask, ascending (R14). -/
def lanesOf (m : BitVec 16) : List Nat := (List.range 16).filter (fun l => m.getLsbD l)

/-- A masked vector result (R15): active lanes take the new value, the others keep the old (KZ = 0) or become zero. -/
def maskV (m : BitVec 16) (kz : Bool) (old new : V512) : V512 :=
  ofLanes (fun l => if m.getLsbD l then lane new l else if kz then 0#32 else lane old l)

/-- A masked mask result (R15). -/
def maskK (m : BitVec 16) (kz : Bool) (old new : BitVec 16) : BitVec 16 :=
  (new &&& m) ||| (if kz then 0#16 else old &&& ~~~m)

/-- Number of ones of a mask. -/
def popcount (m : BitVec 16) : Nat := (lanesOf m).length

/-- The lowest lane of a mask, or 16 (R97). -/
def firstLane (m : BitVec 16) : Nat := ((lanesOf m).head?).getD 16

/-! ### Register files of a slot (R30, R31) -/

/-- a0 reads as zero. -/
def Slot.A (s : Slot) (n : Nat) : W64 := if n = 0 then 0#64 else s.aregs.get 0#64 n

/-- A write to a0 is discarded. -/
def Slot.setA (s : Slot) (n : Nat) (v : W64) : Slot := if n = 0 then s else { s with aregs := s.aregs.put n v }

/-- k0 reads as all ones. -/
def Slot.K (s : Slot) (n : Nat) : BitVec 16 := if n = 0 then 0xFFFF#16 else s.kregs.get 0#16 n

/-- A write to k0 is discarded. -/
def Slot.setK (s : Slot) (n : Nat) (v : BitVec 16) : Slot :=
  if n = 0 then s else { s with kregs := s.kregs.put n v }

/-- Vector register j of the window. -/
def Slot.V (s : Slot) (j : Nat) : V512 := s.vregs.get 0#512 j

def Slot.setV (s : Slot) (j : Nat) (v : V512) : Slot := { s with vregs := s.vregs.put j v }

/-- A vector register written under a mask (R15). -/
def Slot.setVm (s : Slot) (j : Nat) (m : BitVec 16) (kz : Bool) (v : V512) : Slot :=
  s.setV j (maskV m kz (s.V j) v)

/-- A mask register written under a mask (R15). -/
def Slot.setKm (s : Slot) (j : Nat) (m : BitVec 16) (kz : Bool) (v : BitVec 16) : Slot :=
  s.setK j (maskK m kz (s.K j) v)

/-! ### Addresses and immediates -/

/-- Target := PC + 8 x SignExt(OFF, 32), modulo 2^64 (R72). -/
def branchTarget (pc : W64) (off : W32) : W64 := pc + (off.signExtend 64 <<< 3)

/-- Ext(IMM32) (R80). -/
def extImm (u : Bool) (imm : W32) : W64 := if u then imm.setWidth 64 else imm.signExtend 64

/-- The index register is present (R12: X = 0x7F means none). -/
def hasIndex (x : VReg) : Bool := x != 0x7F#7

/-- Addr(l) of R113, with the step of the form in bytes a lane. -/
def Slot.addr (s : Slot) (base : AReg) (x : VReg) (off : BitVec 24) (step l : Nat) : W64 :=
  s.A base.toNat + off.signExtend 64 +
    (if hasIndex x then (lane (s.V x.toNat) l).setWidth 64 else BitVec.ofNat 64 (step * l))

/-- The single address A[base] + SignExt(OFF, 24). -/
def Slot.addr1 (s : Slot) (base : AReg) (off : BitVec 24) : W64 := s.A base.toNat + off.signExtend 64

/-- The bytes of a vector register, byte i of the 64-byte image (R18). -/
def vecBytes (v : V512) : List Byte := (List.range 64).map (fun i => v.extractLsb' (8 * i) 8)

/-- The vector register of 64 bytes (R18). -/
def vecOfBytes (b : List Byte) : V512 := BitVec.ofNat 512 (leNat b)

/-! ### What an instruction names (R27, R30, R64) -/

/-- Register classes, coded as sub-code bits [8:7] of LAVIOL (R27). -/
inductive RCls where | v | a | k
deriving DecidableEq, Repr

def RCls.code : RCls → Nat
  | .v => 0 | .a => 1 | .k => 2

/-- A register an instruction reads or writes. -/
structure RegUse where
  cls : RCls
  reg : Nat
  write : Bool
deriving DecidableEq, Repr

/-- Which lanes of its vector destination an instruction writes: all, those of a mask (all with KZ = 1, R15), or one. -/
inductive WrLanes where
  | all
  | masked (k : KReg) (kz : Bool)
  | one
deriving DecidableEq, Repr

/-- What an instruction names: the vector registers whose numbers its fields carry, in field order, the further vector
registers it uses (checked after them), every register it reads or writes, its lookahead if it is long-latency, the lanes
it writes, and whether the form is wholly privileged (R290). -/
structure Use where
  fields : List Nat
  extra : List Nat
  regs : List RegUse
  la : Option Nat
  wr : WrLanes
  priv : Bool
deriving DecidableEq, Repr

def rv (r : VReg) : RegUse := ⟨.v, r.toNat, false⟩
def wv (r : VReg) : RegUse := ⟨.v, r.toNat, true⟩
def ra (r : AReg) : RegUse := ⟨.a, r.toNat, false⟩
def wa (r : AReg) : RegUse := ⟨.a, r.toNat, true⟩
def rk (r : KReg) : RegUse := ⟨.k, r.toNat, false⟩
def wk (r : KReg) : RegUse := ⟨.k, r.toNat, true⟩
def rvn (r : Nat) : RegUse := ⟨.v, r, false⟩
def wvn (r : Nat) : RegUse := ⟨.v, r, true⟩

/-- A short form without vector registers. -/
def useA (regs : List RegUse) : Use := ⟨[], [], regs, none, .all, false⟩
/-- A short form with vector fields. -/
def useV (fields : List VReg) (regs : List RegUse) : Use := ⟨fields.map BitVec.toNat, [], regs, none, .all, false⟩
/-- The index register of a memory operand: a named vector field where present (R12). -/
def idxField (x : VReg) : List Nat := if hasIndex x then [x.toNat] else []
def idxUse (x : VReg) : List RegUse := if hasIndex x then [rv x] else []

/-- The same use under a mask and a fill. -/
def Use.masked (u : Use) (km : KReg) (kz : Bool) : Use := { u with regs := u.regs ++ [rk km], wr := .masked km kz }
/-- The same use, with a further vector register checked after the named fields (R110, R130). -/
def Use.also (u : Use) (r : RegUse) : Use := { u with extra := u.extra ++ [r.reg], regs := u.regs ++ [r] }

/-- The three-register, two-register and four-register masked forms. -/
def useDAB (km : KReg) (kz : Bool) (d a b : VReg) : Use := (useV [d, a, b] [wv d, rv a, rv b]).masked km kz
def useDA (km : KReg) (kz : Bool) (d a : VReg) : Use := (useV [d, a] [wv d, rv a]).masked km kz
def useDABC (km : KReg) (kz : Bool) (d a b c : VReg) : Use := (useV [d, a, b, c] [wv d, rv a, rv b, rv c]).masked km kz
/-- Loads and stores of the memory formats: D, then the index if present. -/
def useLoad (km : KReg) (kz : Bool) (d x : VReg) (base : AReg) : Use :=
  (⟨d.toNat :: idxField x, [], [wv d] ++ idxUse x ++ [ra base], none, .all, false⟩ : Use).masked km kz
def useStore (km : KReg) (d x : VReg) (base : AReg) : Use :=
  ⟨d.toNat :: idxField x, [], [rv d] ++ idxUse x ++ [ra base, rk km], none, .all, false⟩

/-- The same use, as a long-latency form with lookahead L (R25, R26). -/
def Use.long (u : Use) (la : BitVec 4) : Use := { u with la := some la.toNat }
/-- The same use, as a wholly privileged form (R290). -/
def Use.privileged (u : Use) : Use := { u with priv := true }

end Sys2Proof.Machine
end

