-- ==== Sys2Proof/Machine/Flags.lean ====
section
/-! DEFINITION. Flags and status words: the fields of %tsw and who may write them (R36), conditions (R74), the
reduction of integer results (R40, R95), the status images of barriers, objects, leases and queues (R155, R176, R188,
R203, R220), and the fault record (R292). -/

namespace Sys2Proof.Machine

/-! ### %tsw (R36 Table 5) -/

def Slot.ap (s : Slot) : Bool := s.tsw.getLsbD 0
def Slot.il (s : Slot) : Bool := s.tsw.getLsbD 1
def Slot.lb (s : Slot) : Bool := s.tsw.getLsbD 2
def Slot.spec (s : Slot) : Bool := s.tsw.getLsbD 3
def Slot.rm (s : Slot) : BitVec 2 := s.tsw.extractLsb' 4 2
def Slot.ftz (s : Slot) : Bool := s.tsw.getLsbD 6
def Slot.sat (s : Slot) : Bool := s.tsw.getLsbD 7
def Slot.priv (s : Slot) : Bool := s.tsw.getLsbD 8
def Slot.recov (s : Slot) : Bool := s.tsw.getLsbD 9

/-- A bit of a word set or cleared. -/
def putBit (w : W32) (i : Nat) (b : Bool) : W32 := if b then w ||| (1#32 <<< i) else w &&& ~~~(1#32 <<< i)

def Slot.setAp (s : Slot) (b : Bool) : Slot := { s with tsw := putBit s.tsw 0 b }
def Slot.setIl (s : Slot) (b : Bool) : Slot := { s with tsw := putBit s.tsw 1 b }
def Slot.setLb (s : Slot) (b : Bool) : Slot := { s with tsw := putBit s.tsw 2 b }
def Slot.setSpec (s : Slot) (b : Bool) : Slot := { s with tsw := putBit s.tsw 3 b }

/-- LFC and LFS after a fault (R292): the cause and SUB[7:0]. -/
def tswFault (t : W32) (cause sub : Nat) : W32 :=
  (t &&& 0x0000FFFF#32) ||| (BitVec.ofNat 32 (sub % 256) <<< 24) ||| (BitVec.ofNat 32 (cause % 256) <<< 16)

/-- The fields mts may write in any slot: LFS, LFC, SAT, FTZ, RM. -/
def tswUser : W32 := 0xFFFF00F0#32
/-- The fields a privileged slot may write besides: RECOV and PRIV. -/
def tswPriv : W32 := 0x00000300#32

/-- %tsw after an mts of v (R36): hardware fields and reserved bits keep their value, LB may only be cleared. -/
def tswWrite (old v : W32) (priv : Bool) : W32 :=
  let m := tswUser ||| (if priv then tswPriv else 0#32)
  let t := (old &&& ~~~m) ||| (v &&& m)
  if v.getLsbD 2 then t else putBit t 2 false

/-- An mts by an unprivileged slot would change PRIV or RECOV (R36). -/
def tswPrivBreach (old v : W32) : Bool := (old &&& tswPriv) != (v &&& tswPriv)

/-! ### Conditions (R74 Table 2, R96) -/

def cond {n : Nat} (cc : Cc) (x y : BitVec n) : Bool :=
  match cc with
  | .eq => x == y
  | .ne => x != y
  | .lt => decide (x.toInt < y.toInt)
  | .ge => decide (y.toInt ≤ x.toInt)
  | .ltu => decide (x.toNat < y.toNat)
  | .geu => decide (y.toNat ≤ x.toNat)

/-! ### Integer results (R17, R40, R95) -/

def wrap32 (t : Int) : W32 := BitVec.ofInt 32 t
def sat32 (t : Int) : W32 := BitVec.ofInt 32 (max (-2147483648) (min t 2147483647))
def satU32 (t : Int) : W32 := BitVec.ofInt 32 (max 0 (min t 4294967295))

/-- In of R92 for an integer type. -/
def inInt (ty : IType) (w : W32) : Int :=
  match ty with
  | .i32 => w.toInt
  | .u32 => (w.toNat : Int)

/-- The reduce column of R95. -/
def outInt (ty : IType) (sat : Bool) (t : Int) : W32 :=
  if sat then (match ty with | .i32 => sat32 t | .u32 => satU32 t) else wrap32 t

/-! ### Status images -/

/-- Word 0 of a barrier (R176 Table 1). -/
def Bar.word0 (b : Bar) : W64 :=
  b.det ++ b.code ++ b.arr ++ 0#13 ++ BitVec.ofBool b.owner.isSome ++ BitVec.ofBool b.err ++ BitVec.ofBool b.ph
/-- Word 1 of a barrier. -/
def Bar.word1 (b : Bar) : W64 := 0#16 ++ BitVec.ofNat 32 b.pend ++ b.exp

/-- lstat (R155 Table 2) at a cycle. -/
def LeaseRec.stat (r : LeaseRec) (clock : Nat) : W64 :=
  let held := r.granted && !r.broken
  let cls : BitVec 2 := match r.cls with | .short => 0 | .medium => 1 | .long => 2
  0#40 ++ BitVec.ofNat 4 r.why ++ cls ++ BitVec.ofBool r.broken ++ BitVec.ofBool held ++ 0#4 ++
    BitVec.ofBool r.waitq ++ (if held then BitVec.ofNat 11 (r.expiry - clock) else 0#11)

/-- The bound of a lease class in cycles (R151). -/
def LeaseCls.bound : LeaseCls → Nat
  | .short => 64 | .medium => 256 | .long => 1024

/-- ostat (R188 Table 8) for a launch. -/
def Obj.stat (o : Obj) (lk : Nat) : W64 :=
  if o.st != .free && o.owner == lk then
    0#12 ++ BitVec.ofNat 20 o.base ++ BitVec.ofNat 16 o.ref ++ 0#13 ++ 1#1 ++
      (match o.st with | .free => 0#2 | .open_ => 1#2 | .sealed_ => 2#2)
  else 0#64

/-- tqstat (R203 Table 4). -/
def TQ.stat (q : TQ) : W64 :=
  0#22 ++ BitVec.ofBool q.lk.isSome ++ BitVec.ofBool q.ordered ++ BitVec.ofNat 8 q.waiting.length ++
    BitVec.ofNat 20 q.ring.length ++ 0#3 ++ BitVec.ofNat 9 q.chip.length

/-- A command's sequence number as software sees it: the accepted count is zero at a launch's load (R216, R219). -/
def EQ.shown (e : EQ) (seq : Nat) : BitVec 16 := BitVec.ofNat 16 seq - e.base

/-- The highest s such that every command with a sequence number up to s has completed (R220); 0 while a command of before the load
has not. -/
def EQ.seqc (e : EQ) : BitVec 16 :=
  (e.live ++ e.q).foldl (fun m c =>
    let s := BitVec.ofNat 16 c.seq - 1
    if (e.seqa - e.base).toNat < (e.seqa - s).toNat then 0#16
    else if (e.seqa - s).toNat > (e.seqa - e.base - m).toNat then s - e.base else m) (e.seqa - e.base)

/-- Commands that are in the queue: executed ones until they complete (R220, R65). -/
def EQ.depth (e : EQ) : Nat := (e.q ++ e.live).length

/-- qstat part 0 (R220 Table 1); own is the mask of tiles the queue owns. -/
def EQ.stat (e : EQ) (own : BitVec 4) : W64 :=
  (e.seqa - e.base) ++ e.seqc ++ e.fseq ++ own ++ 0#4 ++ BitVec.ofBool e.frz ++ 0#1 ++ BitVec.ofNat 6 e.depth

/-! ### The fault record (R292 Table 2) -/

/-- A fault as an instruction raises it. -/
structure Trap where
  cause : Nat
  sub : Nat
  addr : W64
  lanes : BitVec 16
deriving DecidableEq, Repr

/-- Registers %frec0 to %frec3 of a fault: core h, slot n, DEF, SVC, the instruction's address. -/
def frecOf (h n : Nat) (gtid : BitVec 48) (t : Trap) (def_ svc : Bool) (pc : W64) : W64 × W64 × W64 × W64 :=
  (0#4 ++ BitVec.ofNat 12 h ++ t.lanes ++ 0#5 ++ BitVec.ofBool def_ ++ BitVec.ofBool svc ++ 1#1 ++
     BitVec.ofNat 16 t.sub ++ BitVec.ofNat 8 t.cause,
   pc, t.addr, 0#10 ++ BitVec.ofNat 6 n ++ gtid)

/-- The record written into a slot, with LFC and LFS (R292). -/
def Slot.record (s : Slot) (h n : Nat) (t : Trap) (def_ svc : Bool) (pc : W64) : Slot :=
  let f := frecOf h n s.gtid t def_ svc pc
  { s with frec0 := f.1, frec1 := f.2.1, frec2 := f.2.2.1, frec3 := f.2.2.2, tsw := tswFault s.tsw t.cause t.sub }

/-- DEF of the slot's record. -/
def Slot.recDef (s : Slot) : Bool := s.frec0.getLsbD 26
/-- V of the slot's record. -/
def Slot.recValid (s : Slot) : Bool := s.frec0.getLsbD 24

end Sys2Proof.Machine
end

