-- ==== Sys2Proof/Machine/Base.lean ====
section
/-! DEFINITION. Parts of the device by number, messages in flight, and slots becoming READY (R2, R20, R23, R37, R273 to
R275, R330). -/

namespace Sys2Proof.Machine

/-! ### Parts by number -/

def Dev.core (d : Dev) (h : Nat) : Core := d.cores.get .init h
def Dev.updCore (d : Dev) (h : Nat) (f : Core → Core) : Dev := { d with cores := d.cores.upd .init h f }
/-- The index under which a core keeps slot n of a terrace while it is saved: what is in flight for the slot follows it there (R307). -/
def awayIx (t n : Nat) : Nat := 64 * (t + 1) + n
def Core.slot (c : Core) (n : Nat) : Slot := (if n < 64 then c.slots else c.away).get .init n
def Core.updSlot (c : Core) (n : Nat) (f : Slot → Slot) : Core :=
  if n < 64 then { c with slots := c.slots.upd .init n f } else { c with away := c.away.upd .init n f }
/-- The slots that stand on a core and those saved there. -/
def Core.allSlots (c : Core) : List (Nat × Slot) := c.slots.ents ++ c.away.ents
def Dev.slot (d : Dev) (h n : Nat) : Slot := (d.core h).slot n
def Dev.updSlot (d : Dev) (h n : Nat) (f : Slot → Slot) : Dev := d.updCore h (fun c => c.updSlot n f)
def Dev.setSlot (d : Dev) (h n : Nat) (s : Slot) : Dev := d.updSlot h n (fun _ => s)
def Dev.court (d : Dev) (c : Nat) : Court := d.courts.get .init c
def Dev.updCourt (d : Dev) (c : Nat) (f : Court → Court) : Dev := { d with courts := d.courts.upd .init c f }
def Dev.home (d : Dev) (q : Nat) : Home := d.homes.get .init q
def Dev.updHome (d : Dev) (q : Nat) (f : Home → Home) : Dev := { d with homes := d.homes.upd .init q f }
def Dev.terrace (d : Dev) (t : Nat) : Terrace := d.terr.get .init t
def Dev.updTerr (d : Dev) (t : Nat) (f : Terrace → Terrace) : Dev := { d with terr := d.terr.upd .init t f }
def Dev.func (d : Dev) (f : Nat) : Func := d.funcs.get .init f
def Dev.updFunc (d : Dev) (f : Nat) (g : Func → Func) : Dev := { d with funcs := d.funcs.upd .init f g }
def Dev.launch? (d : Dev) (lk : Nat) : Option Launch := d.launches.find? lk
def Dev.updLaunch (d : Dev) (lk : Nat) (f : Launch → Launch) : Dev :=
  match d.launches.find? lk with
  | some l => { d with launches := d.launches.put lk (f l) }
  | none => d
def Dev.task? (d : Dev) (lk : Nat) (id : W32) : Option Task := d.tasks.find? (lk * 2 ^ 32 + id.toNat)
def Dev.putTask (d : Dev) (lk : Nat) (id : W32) (t : Task) : Dev :=
  { d with tasks := d.tasks.put (lk * 2 ^ 32 + id.toNat) t }
def Dev.dropTask (d : Dev) (lk : Nat) (id : W32) : Dev := { d with tasks := d.tasks.erase (lk * 2 ^ 32 + id.toNat) }
def Dev.updTask (d : Dev) (lk : Nat) (id : W32) (f : Task → Task) : Dev :=
  match d.task? lk id with
  | some t => d.putTask lk id (f t)
  | none => d

/-- The court of a core (R274) and its district (R273). -/
def courtOf (h : Nat) : Nat := h / 4
def districtOf (h : Nat) : Nat := h / 256
/-- Cores of the device (R2). -/
def nCores : Nat := 2304

/-! ### Terrace descriptors (R275 Table 2) -/

def Terrace.base (t : Terrace) : Nat := (t.w0.extractLsb' 52 12).toNat
def Terrace.len (t : Terrace) : Nat := (t.w0.extractLsb' 40 12).toNat
def Terrace.vf (t : Terrace) : Nat := (t.w0.extractLsb' 35 5).toNat
def Terrace.state (t : Terrace) : Nat := (t.w0.extractLsb' 33 2).toNat
def Terrace.privOk (t : Terrace) : Bool := t.w0.getLsbD 32
def Terrace.ctx (t : Terrace) : W32 := t.w0.extractLsb' 0 32
def Terrace.tenant (t : Terrace) : W32 := t.w1.extractLsb' 32 32
def Terrace.supH (t : Terrace) : Nat := (t.w1.extractLsb' 20 12).toNat
def Terrace.supSlot (t : Terrace) : Nat := (t.w1.extractLsb' 14 6).toNat
/-- The core lies in the terrace's interval. -/
def Terrace.has (t : Terrace) (h : Nat) : Bool := decide (t.base ≤ h) && decide (h < t.base + t.len)

/-- The window addresses of a local range of a core (R161, R314): bits 56:48 ones, 2 MiB a core. -/
def windowOf (h a : Nat) : Nat := 511 * 2 ^ 48 + h * 2 ^ 21 + a

/-- Terrace of a launch key: launch keys are 1,024 x terrace + launch number. -/
def terrOf (lk : Nat) : Nat := lk / 1024
/-- The function whose ways a launch's fills take (R330). -/
def Dev.fnOf (d : Dev) (lk : Nat) : Nat := (d.terrace (terrOf lk)).vf
/-- The core lies in the launch's interval. -/
def Launch.has (l : Launch) (h : Nat) : Bool := decide (l.first ≤ h) && decide (h < l.first + l.len)
/-- The image may run privileged or in recovery mode (R279 FLAGS). -/
def Launch.priv (l : Launch) : Bool := l.flags.getLsbD 0
def Launch.recov (l : Launch) : Bool := l.flags.getLsbD 1
def Launch.spillOpt (l : Launch) : Bool := l.flags.getLsbD 3
/-- A launch with its threads on the device. -/
def Launch.running (l : Launch) : Bool := l.st == .resident
/-- The reservation of a launch on a core. -/
def Launch.resvOn (l : Launch) (h : Nat) : Resv := l.resv.get ⟨[], [], 0⟩ h
/-- The address of the kernel's code (R279). -/
def Launch.code (l : Launch) : W64 := l.image + BitVec.ofNat 64 l.codeOff

/-- The launch has been saved on a core and not restored (R305). -/
def Dev.isSaved (d : Dev) (lk h : Nat) : Bool := d.saved.any (fun x => x.lks.contains lk && x.h == h)

/-- A launch of a terrace has been saved on a core and not restored: its regions there have still to come back. -/
def Dev.awayOn (d : Dev) (t h : Nat) : Bool := d.saved.any (fun x => x.terr == t && x.h == h && !x.lks.isEmpty)

/-- The saved slot n of a launch on a core, if there is one. -/
def Dev.savedSlot (d : Dev) (lk h n : Nat) : Option Slot :=
  ((d.core h).away.find? (awayIx (terrOf lk) n)).filter (fun s => s.st != .free && s.lk == lk)

/-- A slot of the launch is saved on some core, or local store of it has still to come back. -/
def Dev.anySaved (d : Dev) (lk : Nat) : Bool :=
  d.saved.any (fun x => x.lks.contains lk) || d.cores.ents.any (fun c => c.2.lsTodo.any (fun u => u.2.2 == lk)) || d.cores.ents.any (fun c => c.2.away.ents.any (fun e => e.2.st != .free && e.2.lk == lk))

/-- The local address lies in a unit that a restore has still to bring (R306). -/
def Core.unrestored (c : Core) (a : Nat) : Bool := c.lsTodo.any (fun u => decide (u.1 ≤ a) && decide (a < u.1 + 4096))
/-- A unit of some range has still to come. -/
def Core.unrestoredIn (c : Core) (lo hi : Nat) : Bool := c.lsTodo.any (fun u => decide (u.1 < hi) && decide (lo < u.1 + 4096))

/-- A command of a queue belongs to a launch that is saved on the queue's core (R307). -/
def Dev.savedCmd (d : Dev) (h : Nat) (cq : Bool) (seq : Nat) : Bool :=
  d.saved.any (fun x => x.h == h && (let e := if cq then x.core.cq else x.core.mq; (e.q ++ e.live).any (fun c => c.seq == seq)))

/-- Launches that hold reservations on a core, with their keys (R281): not those whose core is saved. -/
def Dev.holders (d : Dev) (h : Nat) : List (Nat × Launch) :=
  d.launches.ents.filter (fun e => (e.2.resv.find? h).isSome && !d.isSaved e.1 h)

/-- The queues of a core take no step: their terrace is being saved, or their tiles have not come back (R304, R306). -/
def Dev.queueStopped (d : Dev) (h : Nat) : Bool :=
  (d.switch.map (fun w => w.toSave.contains h)).getD false || d.saved.any (fun x => x.h == h && x.lks.isEmpty)

/-! ### Messages in flight (R37; log 4) -/

/-- The last cycle at which a message of a channel is due. -/
def lastDue (chan : Nat) (net : List Flight) : Nat :=
  net.foldl (fun m f => if f.chan == chan && m < f.due then f.due else m) 0

/-- Send what arrives later. Channel 0 keeps no order; messages of any other channel arrive in the order sent. -/
def Dev.send (d : Dev) (chan : Nat) (e : Ev) : Dev :=
  let t := d.clock + 1 + Config.latency d.count
  let due := if chan == 0 then t else max t (lastDue chan d.net)
  { d with net := d.net ++ [⟨due, chan, e⟩], count := d.count + 1 }

/-- Send several messages that arrive together, none before what went earlier on its channel. -/
def Dev.sendAll (d : Dev) (es : List (Nat × Ev)) : Dev :=
  let t := d.clock + 1 + Config.latency d.count
  let due := es.foldl (fun t e => if e.1 == 0 then t else max t (lastDue e.1 d.net)) t
  { d with net := d.net ++ es.map (fun e => ⟨due, e.1, e.2⟩), count := d.count + 1 }

/-- What arrives after a number of cycles that the spec fixes (R150, R211, R325). -/
def Dev.later (d : Dev) (cycles : Nat) (e : Ev) : Dev :=
  { d with net := d.net ++ [⟨d.clock + cycles, 0, e⟩] }

/-- Channel numbers, by kind of traffic and its two ends. -/
def chanOf (kind a b : Nat) : Nat := kind + 32 * (a + 2 ^ 24 * b)

/-- A source slot, as one number. -/
def slotKey (h n : Nat) : Nat := h * 4096 + n

/-! ### Caches (R139, R318, R319; log 7) -/

/-- A cache of a number of entries makes room for one more: the entry that leaves a full one is a free choice. -/
def makeRoom {α : Type} (cap pick : Nat) (l : List α) : List α := if cap ≤ l.length then l.eraseIdx (pick % l.length) else l
/-- The choice, at this moment, for what is to enter. -/
def Dev.victim (d : Dev) (key : Nat) : Nat := Config.victim d.clock d.count key

/-! ### Becoming READY (R23) -/

/-- The slot becomes READY in this cycle. -/
def Slot.toReady (s : Slot) (clock : Nat) : Slot := { s with st := .ready, readyAt := clock, yielded := false }
def Dev.ready (d : Dev) (h n : Nat) : Dev := d.updSlot h n (fun s => s.toReady d.clock)

/-- Slots of a core that wait for something become READY. -/
def Core.wake (c : Core) (clock : Nat) (p : Nat → Slot → WaitFor → Bool) : Core :=
  { c with slots := ⟨c.slots.ents.map (fun e =>
      match e.2.st with
      | .waiting w => if p e.1 e.2 w then (e.1, e.2.toReady clock) else e
      | _ => e)⟩ }
def Dev.wake (d : Dev) (h : Nat) (p : Nat → Slot → WaitFor → Bool) : Dev := d.updCore h (fun c => c.wake d.clock p)

/-- One slot becomes READY if it waits for what p names. -/
def Dev.wakeSlot (d : Dev) (h n : Nat) (p : WaitFor → Bool) : Dev :=
  match (d.slot h n).st with
  | .waiting w => if p w then d.ready h n else d
  | _ => d

/-- The slot waits for the answer to a request and has it (R24). A requester beyond the cores is a slot that was killed; an answer to
what a slot no longer presents is dropped. -/
def Dev.reply (d : Dev) (h n : Nat) (r : Reply) : Dev :=
  if nCores ≤ h then d else
  if (d.slot h n).reply == .stale then d.updSlot h n (fun s => { s with reply := .idle }) else
  let d := d.updSlot h n (fun s => { s with reply := r })
  d.wakeSlot h n (fun w => w == .reply || w == .ack || w == .message || w == .home || w == .push || w == .move)

/-! ### Extan ports (R351, R355) -/

/-- STATE[1:0]: 0 down, 1 up, 2 retraining, 3 lost. -/
def Port.st (p : Port) : Nat := (p.state.extractLsb' 0 2).toNat
/-- The port's STATE with new bits [1:0]. -/
def Port.withSt (p : Port) (st : Nat) : Port := { p with state := (p.state &&& ~~~3#32) ||| BitVec.ofNat 32 st }
/-- A cycle passes: 65,536 without an ack start a retrain (R355). -/
def Port.ageOne (p : Port) (clock : Nat) : Port :=
  if p.st == 1 && !p.sent.isEmpty && decide (p.ackAt + 65536 ≤ clock) then p.withSt 2 else p

/-! ### Counters (R310, R344, R345) -/

/-- A profiling count of a core advances. -/
def Core.bump (c : Core) (group idx by_ : Nat) : Core :=
  { c with prof := c.prof.upd 0#64 (group * 256 + idx) (fun v => v + BitVec.ofNat 64 by_) }

/-- A shared unit counts for the holder of the profiling lease while it runs alone (R345). -/
def Dev.addShared (d : Dev) (idx : Nat) (by_ : W64) : Dev :=
  match d.profHolder with
  | some t =>
    if d.terr.ents.any (fun e => e.1 != t && e.2.state == 1) then d
    else { d with shared := d.shared.upd 0#64 (t * 256 + idx) (fun v => v + by_) }
  | none => d
def Dev.bumpShared (d : Dev) (idx : Nat) : Dev := d.addShared idx 1#64

/-- The bridge flits that the nine districts send in the cycle (R345; log 41). -/
def Dev.countFlits (d : Dev) : Dev := (List.range 9).foldl (fun d i => d.addShared (192 + i) (Config.flitCount d.clock i)) d

/-- The delay field of a reply, saturated at 0xFFFF (R140), enters group 0 of the requester's core (R344). The cycles are
a free value (log 4). -/
def Dev.delay (d : Dev) (h idx : Nat) : Dev :=
  { d.updCore h (fun c => c.bump 0 idx (min 65535 (Config.latency d.count))) with count := d.count + 1 }

end Sys2Proof.Machine
end

