-- ==== Sys2Proof/Machine/Quay.lean ====
section
/-! DEFINITION. Homes and quays: the home of an address, the ways of a quay set, pins, fills and victims (R138, R313,
R329 to R336), and the write log (R370). Quays keep no data of their own here: physical memory holds the value of every
line, as R37 and R346 let no quay change a value. -/

namespace Sys2Proof.Machine

/-- The line that holds a byte. -/
def lineOf (a : Nat) : Nat := a / 128 * 128

/-- Ranges of the physical map (R313 Table 1). -/
def isHbm (pa : Nat) : Bool := decide (pa < 0x10000000000)
def isLpddr (pa : Nat) : Bool := decide (0x20000000000 ≤ pa) && decide (pa < 0x40000000000)
def isDoorbell (pa : Nat) : Bool := decide (0x7FE0000000000 ≤ pa) && decide (pa < 0x7FE0000020000)
def isHostMem (pa : Nat) : Bool := decide (0x8000000000000 ≤ pa) && decide (pa < 0x10000000000000)
def paNamed (pa : Nat) : Bool := isHbm pa || isLpddr pa || isDoorbell pa || isHostMem pa

/-- Home(pa) (R138); the host port is home 512. -/
def homeOf (pa : Nat) : Nat :=
  if isHostMem pa then 512
  else ((pa >>> 12) % 512) ^^^ ((pa >>> 21) % 512) ^^^ ((pa >>> 30) % 512)

/-- Attach(q) (R257), and the district of a home by it. -/
def attachOf (q : Nat) : Nat := 256 * ([0, 1, 2, 3, 5, 6, 7, 8].getD (q / 32 / 2) 0) + 8 * (q % 32) + 4 * (q / 32 % 2)
def homeDistrict (q : Nat) : Nat := districtOf (attachOf q)

/-- Set(pa) (R329), with its quay as one key. -/
def quaySet (pa : Nat) : Nat := (pa >>> 7) % 4096
def quayKey (pa : Nat) : Nat := homeOf pa * 4096 + quaySet pa

/-! ### Partition registers (R332, R334) -/

def Func.wmask (f : Func) : Nat := f.qpart.toNat % 65536
def Func.mways (f : Func) : Nat := (f.qpart.toNat >>> 32) % 65536
def Func.mewsV (f : Func) : Bool := f.qmews.getLsbD 0
def Func.mewsBase (f : Func) : Nat := (f.qmews.extractLsb' 21 31).toNat * 2 ^ 21
def Func.mewsLen (f : Func) : Nat := (f.qmews.extractLsb' 52 12).toNat * 2 ^ 21
/-- The line lies in the function's mews region in force. -/
def Func.inMews (f : Func) (pa : Nat) : Bool :=
  f.mewsV && decide (f.mewsBase ≤ pa) && decide (pa < f.mewsBase + f.mewsLen)

/-- The function whose mews region holds the line, if any. -/
def Dev.mewsOf (d : Dev) (pa : Nat) : Option Nat := (List.range 33).find? (fun f => (d.func f).inMews pa)

/-! ### Pending and held lines -/

/-- The line is pending for a group (R142). -/
def Dev.pending (d : Dev) (pa : Nat) : Bool := (d.home (homeOf pa)).pend.any (fun e => e.1 == lineOf pa)
/-- Any line of a range of bytes is pending. -/
def Dev.pendingIn (d : Dev) (pa n : Nat) : Bool :=
  (List.range ((pa + n - 1) / 128 + 1 - pa / 128)).any (fun i => d.pending (lineOf pa + 128 * i))
/-- A lease record or an amo holds the line (R150). -/
def Dev.heldLine (d : Dev) (pa : Nat) : Bool := (d.home (homeOf pa)).holders.any (fun r => r.pa == lineOf pa)
/-- The line is pinned (R331): by a mews region, a lease or an amo, a pending group, or the step that fetches it (R233). A step names
at most 776 lines, fewer than the 1,024 that a quay may pin, and its fetch and its end are one act. -/
def Dev.pinned (d : Dev) (q : QLine) : Bool := q.mews || d.heldLine q.pa || d.pending q.pa || d.pins.contains q.pa

/-! ### Hits, fills and victims (R330, R331) -/

/-- The valid lines of a set: a trimmed line is invalid once its pin has ended (R333). -/
def Dev.quayLines (d : Dev) (key : Nat) : List QLine := (d.qsets.get [] key).filter (fun q => !q.trim || d.pinned q)

/-- The least recent line among those given. -/
def leastRecent : List QLine → Option QLine
  | [] => none
  | q :: r =>
    match leastRecent r with
    | none => some q
    | some x => if q.age ≤ x.age then some q else some x

/-- The way of a fill: none when every way of the mask is pinned. Way 15 of sets 0 to 1,023 holds the prefix table. -/
def Dev.fillWay (d : Dev) (pa mask : Nat) : Option Nat :=
  let set := d.quayLines (quayKey pa)
  let ways := (List.range 16).filter (fun w => mask.testBit w && !(w == 15 && decide (quaySet pa < 1024)))
  match ways.find? (fun w => !(set.any (fun q => q.way == w))) with
  | some w => some w
  | none => (leastRecent (set.filter (fun q => ways.contains q.way && !(d.pinned q)))).map (·.way)

/-- An access of function f reaches the home quay of a line: a hit, or a fill. None: the fill waits for a pin to end, or a read for
the line that is being trimmed (R333). Lines of host memory and doorbells have no quay. -/
def Dev.quay (d : Dev) (f pa : Nat) (write : Bool) : Option Dev :=
  let pa := lineOf pa
  if homeOf pa == 512 || isDoorbell pa then some d else
  let key := quayKey pa
  let set := d.quayLines key
  let g := homeOf pa / 8
  let d' : Dev := { d with stalled := d.stalled.filter (· != (f, pa)), count := d.count + 1 }
  if set.any (fun q => q.pa == pa && q.trim) && !write then none
  else if set.any (fun q => q.pa == pa) then
    some { d'.bumpShared g with
      qsets := d.qsets.put key (set.map (fun q => if q.pa == pa then { q with age := d.count, dirty := q.dirty || write } else q)) }
  else
    let mews := d.mewsOf pa
    let mask := match mews with | some m => (d.func m).mways | none => (d.func f).wmask
    match d.fillWay pa mask with
    | none => none
    | some w =>
      some { d'.bumpShared (64 + g) with
        qsets := d.qsets.put key (set.filter (fun q => q.way != w) ++ [⟨w, pa, f, write, mews.isSome, false, d.count⟩]) }

/-- A fill that waits on pinned ways counts, once (R345 Table 4). -/
def Dev.quayWaited (d : Dev) (f pa : Nat) : Dev :=
  if d.stalled.contains (f, lineOf pa) then d
  else { d.bumpShared (128 + homeOf pa / 8) with stalled := d.stalled ++ [(f, lineOf pa)] }

/-- Accesses of function f to some lines at once: each finds its line or a way, or else none is made and the fill that waits counts. A
step of an engine pins its lines meanwhile (R233). -/
def Dev.visit (d : Dev) (f : Nat) (write : Bool) (ls : List Nat) (pin : Bool := false) : Dev × Bool :=
  match ls.foldl (fun (a : Option Dev × Nat) l => match a.1 with
      | some d => ((d.quay f l write).map (fun d => { d with pins := if pin then lineOf l :: d.pins else d.pins }), l)
      | none => a) (some d, 0) with
  | (some d, _) => ({ d with pins := [] }, true)
  | (none, l) => (d.quayWaited f l, false)

/-- A pin of a line has ended: if it was to be trimmed and nothing else pins it, it leaves its set (R333). -/
def Dev.unpin (d : Dev) (pa : Nat) : Dev :=
  let key := quayKey pa
  let set := d.qsets.get [] key
  if set.any (fun q => q.pa == lineOf pa && q.trim && !d.pinned q) then
    { d with qsets := d.qsets.put key (set.filter (fun q => !(q.pa == lineOf pa && q.trim && !d.pinned q))) }
  else d

/-- The lines of rising bytes, each once. -/
def linesOf (as : List Nat) : List Nat :=
  (as.foldl (fun acc a => match acc with
    | l :: _ => if l == lineOf a then acc else lineOf a :: acc
    | [] => [lineOf a]) []).reverse

/-! ### Write log (R370) -/

/-- The bit of the log for a line, if its page lies in device memory. -/
def logBit (pa : Nat) : Option Nat :=
  if isHbm pa then some (pa >>> 12)
  else if isLpddr pa then some (2 ^ 28 + ((pa - 0x20000000000) >>> 12))
  else none

/-- The cell that sets the log bit of a line written on behalf of function f. -/
def Dev.logCells (d : Dev) (m : Memory) (f pa : Nat) : List Host.Cell :=
  let fn := d.func f
  if fn.logOn then
    match logBit pa with
    | some i =>
      let a := fn.logBase.toNat + i / 8
      [(a, m.read a ||| (1#8 <<< (i % 8)))]
    | none => []
  else []

end Sys2Proof.Machine
end

