-- ==== Sys2Proof/Machine/Xlate.lean ====
section
/-! DEFINITION. Translation and rights: windows, page-table walks, the district translation caches, domain tables and
the order of the protection causes (R313 to R324). -/

namespace Sys2Proof.Machine

/-! ### Pages (R315, R316) -/

/-- Page size in bytes of a SIZE code. -/
def pageSize : Nat → Nat
  | 0 => 2 ^ 12 | 1 => 2 ^ 14 | 2 => 2 ^ 16 | 3 => 2 ^ 18 | 4 => 2 ^ 21 | 5 => 2 ^ 26 | 6 => 2 ^ 30 | _ => 2 ^ 34

/-- The level at which a leaf of a SIZE code stands. -/
def pageLevel (c : Nat) : Nat := if c ≤ 3 then 4 else if c ≤ 5 then 3 else 2

def Leaf.dom (l : Leaf) : Nat := (l.w0.extractLsb' 52 12).toNat
/-- The physical address of a virtual address of the page. -/
def Leaf.pa (l : Leaf) (va : Nat) : Nat := (l.w0.extractLsb' 12 40).toNat * 4096 + (va - l.base)

/-- What a walk finds: a leaf and the address of its entry, a fault with its sub-code (R324), or a line pending. -/
inductive Walked where
  | leaf (l : Leaf) (entry : Nat)
  | fault (sub : Nat)
  | busy
deriving DecidableEq, Repr

/-- One entry read by a walk: malformed entries are those of R316. -/
def walkLeaf (va lvl entry : Nat) (w0 w1 : W64) : Walked :=
  let c := (w0.extractLsb' 9 3).toNat
  let size := pageSize c
  let frame := (w0.extractLsb' 12 40).toNat * 4096
  if pageLevel c != lvl || w0.getLsbD 7 || frame % size != 0 || !paNamed frame || !paNamed (frame + size - 1) then .fault 2
  else .leaf ⟨va / size * size, size, w0, w1⟩ entry

/-- A table entry of a level is malformed (R316). -/
def tableBad (lvl : Nat) (w0 w1 : W64) : Bool :=
  lvl == 4 || w0.extractLsb' 52 12 != 0#12 || w0.extractLsb' 9 3 != 0#3 || w0.getLsbD 12 || w0.getLsbD 7 || w1 != 0#64
/-- The table that an entry names. -/
def tableAt (w0 : W64) : Nat := (w0.extractLsb' 13 39).toNat * 8192
/-- The entry of an address in a table, by its lowest index bit. -/
def entryAt (va sh table : Nat) : Nat := table + 16 * ((va >>> sh) % 512)

/-- A walk from the table at an address down the levels given as (level, lowest index bit). -/
def Dev.walkFrom (d : Dev) (m : Memory) (va : Nat) : List (Nat × Nat) → Nat → Walked
  | [], _ => .fault 2
  | (lvl, sh) :: rest, table =>
    let e := entryAt va sh table
    if d.pending e then .busy else
    let w0 := m.w64 e
    let w1 := m.w64 (e + 8)
    if !w0.getLsbD 0 then .fault 1
    else if w0.getLsbD 8 then (if tableBad lvl w0 w1 then .fault 2 else d.walkFrom m va rest (tableAt w0))
    else walkLeaf va lvl e w0 w1

/-- The five levels of a walk, each with its lowest index bit. -/
def walkLevels : List (Nat × Nat) := [(0, 48), (1, 39), (2, 30), (3, 21), (4, 12)]

/-- A walk of the five levels from TROOT (R315, R317). -/
def Dev.walk (d : Dev) (m : Memory) (va : Nat) : Walked := d.walkFrom m va walkLevels d.troot.toNat

/-- The entries that a walk reads. -/
def walkReads (m : Memory) (va : Nat) : List (Nat × Nat) → Nat → List Nat
  | [], _ => []
  | (lvl, sh) :: rest, table =>
    let e := entryAt va sh table
    let w0 := m.w64 e
    e :: (if w0.getLsbD 0 && w0.getLsbD 8 && !tableBad lvl w0 (m.w64 (e + 8)) then walkReads m va rest (tableAt w0) else [])

/-- A walk's reads reach the quays of its entries on behalf of function f (R330). -/
def Dev.walkVisit (d : Dev) (m : Memory) (f va : Nat) : Dev × Bool := d.visit f false (walkReads m va walkLevels d.troot.toNat)

/-- A walk that faults has made its reads (R324, R330). -/
def Dev.walkFailed (d : Dev) (m : Memory) (f : Nat) (va : W64) : Dev := (d.walkVisit m f va.toNat).1

/-! ### The district translation cache (R318) -/

/-- The cached leaf of a district that maps an address. -/
def Dev.findLeaf (d : Dev) (dist va : Nat) : Option Leaf :=
  (d.xl.get [] dist).find? (fun l => decide (l.base ≤ va) && decide (va < l.base + l.size))

/-- A leaf enters a cache of 8,192 entries (log 7). -/
def Dev.cacheLeaf (d : Dev) (dist : Nat) (l : Leaf) : Dev :=
  { d with xl := d.xl.upd [] dist (fun ls =>
      makeRoom 8192 (d.victim l.base) (ls.filter (fun x => !(x.base == l.base && x.size == l.size))) ++ [l]) }

/-- Start the walk of an address in a district for a terrace, whose function's mask its fills take (R330), unless one for its page is in
flight. -/
def Dev.askWalk (d : Dev) (dist va terr : Nat) : Dev :=
  let pg := va / 4096 * 4096
  if d.walks.any (fun w => w.1 == dist && w.2.1 == pg) then d
  else { d with walks := d.walks ++ [(dist, pg, (d.terrace terr).vf)] }.send 0 (.tableWalkDone dist pg)

/-! ### Rights (R319 to R322) -/

inductive Right where | r | w | x | a
deriving DecidableEq, Repr

/-- Whose rights an access uses: the core whose lookaside buffer and court group serve it, the terrace, and the modes of
the slot (R320, R321). -/
structure Who where
  h : Nat
  terr : Nat
  priv : Bool
  recov : Bool
deriving DecidableEq, Repr

/-- The rights of a slot of core h. -/
def Slot.who (s : Slot) (h : Nat) : Who := ⟨h, terrOf s.lk, s.priv, s.recov⟩

/-- The rights of a domain for a terrace: from the core's buffer, or else from the table at its home; none while that line
is pending. -/
def Dev.domRights (d : Dev) (m : Memory) (who : Who) (dom : Nat) : Option (BitVec 16) :=
  match (d.core who.h).plb.find? (fun e => e.terr == who.terr && e.dom == dom) with
  | some e => some e.rights
  | none =>
    let a := (d.terrace who.terr).dtBase.toNat + 2 * dom
    if d.pending a then none else some (BitVec.ofNat 16 (m.w16 a))

/-- Sub-code of a missing right, 0 for R to 3 for A. -/
def Right.ix : Right → Nat
  | .r => 0 | .w => 1 | .x => 2 | .a => 3
/-- The bit of a right in a domain entry (R319) and in a leaf (R315). -/
def Right.domBit : Right → Nat
  | .r => 0 | .w => 1 | .x => 2 | .a => 3
def Right.leafBit : Right → Nat
  | .r => 1 | .w => 2 | .x => 3 | .a => 4

/-- The first cause of R322 Table 4 that applies to a translated access. -/
def protCause (who : Who) (need : List Right) (l : Leaf) (rights : BitVec 16) (group : BitVec 6) : Option (Nat × Nat) :=
  if who.recov then
    match need.find? (fun q => !l.w0.getLsbD q.leafBit) with
    | some q => some (0x23 + q.ix, 1)
    | none => if l.w0.getLsbD 5 && !who.priv then some (0x27, 1) else none
  else
    match need.find? (fun q => !rights.getLsbD q.domBit) with
    | some q => some (0x21, 3 + q.ix)
    | none =>
      if rights.getLsbD 4 && !who.priv then some (0x21, 7)
      else if !l.w1.getLsbD group.toNat then some (0x22, 1) else none

/-- The check of an access against the leaf that maps it: none while the domain entry cannot be read. -/
def Dev.protect (d : Dev) (m : Memory) (who : Who) (need : List Right) (l : Leaf) : Option (Option (Nat × Nat)) :=
  let g := (d.court (courtOf who.h)).group
  if who.recov then some (protCause who need l 0#16 g)
  else (d.domRights m who l.dom).map (fun r => protCause who need l r g)

/-- The entry of a domain that an access read stays in the core's buffer of 64 (log 7). -/
def Dev.fillPlb (d : Dev) (m : Memory) (who : Who) (dom : Nat) : Dev :=
  if who.recov || (d.core who.h).plb.any (fun e => e.terr == who.terr && e.dom == dom) then d else
  match d.domRights m who dom with
  | some r =>
    -- the table is read at its home (R319, R330); while its fill finds no way, nothing is kept
    match d.visit (d.terrace who.terr).vf false [(d.terrace who.terr).dtBase.toNat + 2 * dom] with
    | (d, true) => d.updCore who.h (fun c => { c with plb := makeRoom 64 (d.victim dom) c.plb ++ [⟨who.terr, dom, r⟩] })
    | (d, false) => d
  | none => d

/-! ### Translating an access -/

/-- The outcome of translating and checking one address. -/
inductive Tr where
  | ok (pa : Nat) (l : Leaf)
  | miss
  | page (sub : Nat)
  | bad (cause sub : Nat)
deriving DecidableEq, Repr

/-- A virtual address outside the window, translated and checked (R313, R318, R321, R324). -/
def Dev.translate (d : Dev) (m : Memory) (who : Who) (need : List Right) (va : W64) : Tr :=
  let a := va.toNat
  if a ≥ 2 ^ 57 then .bad 0x21 2 else
  match d.findLeaf (districtOf who.h) a with
  | none =>
    match d.walk m a with
    | .fault sub => .page sub
    | _ => .miss
  | some l =>
    match d.protect m who need l with
    | none => .miss
    | some (some e) => .bad e.1 e.2
    | some none => .ok (l.pa a) l

/-- Ask for what a missing translation needs. -/
def Dev.askFor (d : Dev) (who : Who) (va : W64) : Dev :=
  match d.findLeaf (districtOf who.h) va.toNat with
  | none => d.askWalk (districtOf who.h) va.toNat who.terr
  | some _ => d

/-- The outcome of translating the lanes of one access (R323): physical addresses, a wait with what it asked for, the
lowest failing lane, or the faulting lanes of a PAGE. -/
inductive TrLanes where
  | ok (pas : List (Nat × W64 × Nat)) (d : Dev)
  | wait (d : Dev)
  | bad (va : W64) (cause sub : Nat)
  | page (va : W64) (sub : Nat) (lanes : BitVec 16)

/-- Lanes with their addresses, translated together: a protection failure of any lane before PAGE, the lowest first. -/
def Dev.translateLanes (d : Dev) (m : Memory) (who : Who) (need : List Right) (as : List (Nat × W64)) : TrLanes :=
  let rs := as.map (fun p => (p.1, p.2, d.translate m who need p.2))
  let missed := rs.filter (fun r => r.2.2 == .miss)
  if !missed.isEmpty then .wait (missed.foldl (fun d r => d.askFor who r.2.1) d) else
  match rs.findSome? (fun r => match r.2.2 with | .bad c s => some (r.2.1, c, s) | _ => none) with
  | some (va, c, s) => .bad va c s
  | none =>
    let pages := rs.filterMap (fun r => match r.2.2 with | .page s => some (r.1, r.2.1, s) | _ => none)
    match pages with
    | (_, va, s) :: _ => .page va s (ofBits (fun l => pages.any (fun p => p.1 == l)))
    | [] =>
      let oks := rs.filterMap (fun r => match r.2.2 with | .ok pa l => some (r.1, r.2.1, pa, l) | _ => none)
      .ok (oks.map (fun p => (p.1, p.2.1, p.2.2.1))) (oks.foldl (fun d p => d.fillPlb m who p.2.2.2.dom) d)

/-! ### The window (R161, R314) -/

/-- The destination core of a window address, by its 2 MiB slot. -/
def windowCore (va : W64) : Nat := va.toNat % 2 ^ 48 / 2 ^ 21
/-- The local address within the slot of the destination core. -/
def windowAddr (va : W64) : Nat := va.toNat % 2 ^ 21

/-- The fault of a window access at the requester: a target outside the terrace (DOMAIN 8), or a reserved byte of the
slot (LSMAP 1). -/
def Dev.windowFault (d : Dev) (terr : Nat) (va : W64) : Option (Nat × Nat) :=
  let h := windowCore va
  if h ≥ nCores || !(d.terrace terr).has h then some (0x21, 8)
  else if windowAddr va ≥ 2 ^ 20 then some (0x04, 1) else none

end Sys2Proof.Machine
end

