-- ==== Sys2Proof/Machine/Spec.lean ====
section
/-! DEFINITION. The tasks of a launch: pairs, which are unfinished, the lowest, aborts with their children, and the broadcast
of a committing group (R191, R192, R204 to R209). -/

namespace Sys2Proof.Machine

/-! ### Pairs (R192) -/

/-- A pair as one number: TS first, then ID. -/
def pairOf (ts id : W32) : Nat := ts.toNat * 2 ^ 32 + id.toNat
def descPair (d : Desc) : Nat := pairOf d.ts d.id
/-- The core whose queue gave a task its identifier. -/
def queueCore (id : W32) : Nat := id.toNat / 2 ^ 20

/-- The cores of a launch that hold any state. -/
def Dev.launchCores (d : Dev) (lk : Nat) : List Nat :=
  match d.launch? lk with
  | some l => d.cores.keys.filter (fun h => l.has h)
  | none => []

/-- The queue units a launch has configured. -/
def Dev.queues (d : Dev) (lk : Nat) : List (Nat × TQ) :=
  (d.launchCores lk).filterMap (fun h => let q := (d.core h).tq; if q.lk == some lk then some (h, q) else none)

/-- Tasks dispatched and not committed. -/
def Dev.running (d : Dev) (lk : Nat) : List Task := (d.tasks.ents.map (·.2)).filter (fun t => t.lk == lk)

/-- Pairs of tasks that have not been dispatched: on chip, in rings, and in pushes that wait, whose identifier counts as
below every real one (R205 step 1). -/
def Dev.queuedPairs (d : Dev) (lk : Nat) : List Nat :=
  (d.queues lk).flatMap (fun e =>
    e.2.chip.map descPair ++ e.2.requeue.map descPair ++ e.2.ring.map (fun r => pairOf r.ts r.id) ++
    e.2.waiting.map (fun w => pairOf w.d.ts 0#32))

/-- The least of some numbers. -/
def leastOf : List Nat → Option Nat
  | [] => none
  | a :: r => match leastOf r with
    | none => some a
    | some b => some (min a b)

/-- The lowest pair over the unfinished tasks that have not ended (R205). -/
def Dev.bound (d : Dev) (lk : Nat) : Option Nat :=
  leastOf (d.queuedPairs lk ++ ((d.running lk).filter (fun t => !t.ended)).map (fun t => descPair t.d))

/-- The task is lowest: every task with a lower pair has committed, and it has not ended (R206). -/
def Dev.isLowest (d : Dev) (lk : Nat) (id : W32) : Bool :=
  match d.task? lk id with
  | some t => !t.ended && (d.queuedPairs lk ++ (d.running lk).map (fun t => descPair t.d)).all (fun p => decide (descPair t.d ≤ p))
  | none => false

/-- The round's bound falls to the pair of a task that becomes unfinished (R205 step 2). -/
def Dev.lowerBound (d : Dev) (lk pair : Nat) : Dev :=
  d.updLaunch lk (fun l => { l with round := l.round.map (min pair) })

/-! ### Removing a task (R208) -/

/-- A slot without the lanes that a task is bound to; an emptied slot ends at its next turn. -/
def Slot.unbind (s : Slot) (id : W32) : Slot :=
  let ls := (lanesOf s.laneSet).filter (fun l => s.tasks.find? l == some id)
  if ls.isEmpty then s else
  let set := s.laneSet &&& ~~~(ofBits (fun l => ls.contains l))
  { s with laneSet := set, tasks := ⟨s.tasks.ents.filter (fun e => e.2 != id)⟩, endReq := s.endReq || set == 0#16 }

/-- A core without a task's records, lanes and pool entries. -/
def Core.dropTask (c : Core) (lk : Nat) (id : W32) : Core :=
  { c with
    dir := c.dir.filter (fun e => !(e.task == id && e.gid.isNone)),
    slots := ⟨c.slots.ents.map (fun e => if e.2.lk == lk && e.2.kind == .ordered then (e.1, e.2.unbind id) else e)⟩,
    away := ⟨c.away.ents.map (fun e => if e.2.lk == lk && e.2.kind == .ordered then (e.1, e.2.unbind id) else e)⟩,
    pool := c.pool.filter (fun e => !(e.lk == lk && e.task == id)) }

/-- A dispatched task leaves: its records, signature, lanes and pool entries go. -/
def Dev.discardTask (d : Dev) (lk : Nat) (id : W32) : Dev :=
  match d.task? lk id with
  | none => d
  | some t =>
    let d := d.updCore t.core (fun c => c.dropTask lk id)
    (d.wake t.core (fun _ _ w => w == .pool || w == .records)).dropTask lk id

/-- Identifiers and parents of every task of the launch. -/
def Dev.parents (d : Dev) (lk : Nat) : List (W32 × W32) :=
  (d.running lk).map (fun t => (t.d.id, t.d.parent)) ++
  (d.queues lk).flatMap (fun e => e.2.chip.map (fun x => (x.id, x.parent)) ++ e.2.requeue.map (fun x => (x.id, x.parent)) ++
    e.2.ring.map (fun r => (r.id, r.parent)))

/-- The tasks that descend from those given. -/
def descendants (ps : List (W32 × W32)) : Nat → List W32 → List W32
  | 0, ids => ids
  | k + 1, ids => descendants ps k (ids ++ ((ps.filter (fun p => ids.contains p.2 && !ids.contains p.1)).map (·.1)))

/-- A push that is dropped counts as accepted for the slot that waits on it. -/
def Dev.pushDone (d : Dev) (h n lane : Nat) : Dev :=
  let d := d.updSlot h n (fun s => { s with
    pushed := if s.reply == .stale then s.pushed else s.pushed ++ [lane], pushWait := s.pushWait.erase lane })
  if !(d.slot h n).pushWait.isEmpty then d
  else if (d.slot h n).reply == .stale then d.updSlot h n (fun s => { s with reply := .idle })
  else d.wakeSlot h n (fun w => w == .push)

/-- A queue unit without the tasks given and the pushes of their children. -/
def TQ.without (q : TQ) (ids : List W32) (also : List W32) : TQ :=
  { q with
    chip := q.chip.filter (fun x => !ids.contains x.id),
    requeue := q.requeue.filter (fun x => !ids.contains x.id),
    ring := q.ring.filter (fun x => !ids.contains x.id),
    waiting := q.waiting.filter (fun x => !also.contains x.d.parent),
    inq := q.inq.filter (fun x => !also.contains x.d.parent) }

/-- The descendants of a task are removed and not re-queued, wherever they are (R208). -/
def Dev.dropChildren (d : Dev) (lk : Nat) (id : W32) : Dev :=
  let ps := d.parents lk
  let all := descendants ps ps.length [id]
  let kids := all.filter (· != id)
  let waiting := (d.queues lk).flatMap (fun e => (e.2.waiting ++ e.2.inq).filter (fun x => all.contains x.d.parent))
  let inNet := d.net.filterMap (fun f => match f.e with
    | .taskPushArrival m => if all.contains m.d.parent && (d.slot m.h m.n).lk == lk then some m else none
    | _ => none)
  let d := kids.foldl (fun d k => d.discardTask lk k) d
  let d := (d.queues lk).foldl (fun d e => d.updCore e.1 (fun c => { c with tq := c.tq.without kids all })) d
  let d : Dev := { d with net := d.net.filter (fun f => match f.e with
    | .taskPushArrival m => !inNet.contains m
    | _ => true) }
  (waiting ++ inNet).foldl (fun d m => d.pushDone m.h m.n m.lane) d

/-- Abort (R208): the task and its descendants leave, and its descriptor, with RR set, goes back to its queue; until a cycle
it is not dispatched again (R202). -/
def Dev.abort (d : Dev) (lk : Nat) (id : W32) (until_ : Nat) : Dev :=
  match d.task? lk id with
  | none => d
  | some t =>
    let d := (d.dropChildren lk id).discardTask lk id
    let again : Desc := { t.d with w0 := t.d.w0 ||| 0x20000000#32 }
    (d.updCore (queueCore id) (fun c => { c with tq := { c.tq with
      requeue := c.tq.requeue ++ [again], hold := c.tq.hold.filter (fun e => e.1 != id.toNat) ++ [(id.toNat, until_)] } })).lowerBound
      lk (descPair t.d)

/-- Drop: the task and its descendants leave for good (R301). -/
def Dev.dropWhole (d : Dev) (lk : Nat) (id : W32) : Dev := (d.dropChildren lk id).discardTask lk id

/-! ### Signatures and the broadcast (R204, R205, R208) -/

/-- SigBit(va). -/
def sigBit (va : Nat) : Nat :=
  ((va >>> 7) % 1024) ^^^ ((va >>> 17) % 1024) ^^^ ((va >>> 27) % 1024) ^^^ ((va >>> 37) % 1024) ^^^ ((va >>> 47) % 1024)

/-- A load lane of a task sets its bit. -/
def Dev.setSig (d : Dev) (lk : Nat) (id : W32) (va : Nat) : Dev :=
  d.updTask lk id (fun t => { t with sig := t.sig ||| (1#1024 <<< sigBit va) })

/-- A committing group's lines are broadcast: every uncommitted task above the committer whose signature holds the bit of
a line is aborted. -/
def Dev.broadcast (d : Dev) (lk pair : Nat) (vas : List Nat) : Dev :=
  let hit := (d.running lk).filter (fun t => decide (pair < descPair t.d) && vas.any (fun va => t.sig.getLsbD (sigBit va)))
  hit.foldl (fun d t => d.abort lk t.d.id d.clock) d

end Sys2Proof.Machine
end

