-- ==== Sys2Proof/Machine/Groups.lean ====
section
/-! DEFINITION. Groups and leases at the homes: records of the commit buffers, the two phases, releases, the order of a
slot's groups, the reservation queues, breaks, and trace records (R141 to R144, R150 to R157, R163 to R166, R326, R343,
R348). -/

namespace Sys2Proof.Machine

/-! ### Words of a local store and commit records (R112, R141) -/

/-- The word at a local address. -/
def Core.word (c : Core) (a : Nat) : W32 := c.words.get 0#32 (a / 4)
/-- A word set; a zero word is not listed. -/
def Core.setWord (c : Core) (a : Nat) (v : W32) : Core :=
  { c with words := if v == 0#32 then c.words.erase (a / 4) else c.words.put (a / 4) v,
           lsPoison := c.lsPoison.filter (· != a / 4) }
def Core.tag (c : Core) (a : Nat) : BitVec 4 := c.tags.get 0#4 (a / 4)
def Core.setTag (c : Core) (a : Nat) (v : BitVec 4) : Core :=
  { c with tags := if v == 0#4 then c.tags.erase (a / 4) else c.tags.put (a / 4) v,
           lsPoison := c.lsPoison.filter (· != a / 4) }

/-- n words from a local address as one little-endian number. -/
def Core.wordsNat (c : Core) (a n : Nat) : Nat :=
  (List.range n).foldr (fun i acc => (c.word (a + 4 * i)).toNat + 2 ^ 32 * acc) 0

/-- Words written from a local address. -/
def Core.putWords (c : Core) (a : Nat) : List W32 → Core
  | [] => c
  | w :: r => (c.setWord a w).putWords (a + 4) r

/-- The bytes and the mask of the record at a local address. -/
def Core.recLine (c : Core) (a : Nat) : Line := BitVec.ofNat 1024 (c.wordsNat a 32)
def Core.recMask (c : Core) (a : Nat) : LineMask := BitVec.ofNat 128 (c.wordsNat (a + 128) 4)

/-- A record written whole: data, mask, zeros (R141). -/
def Core.putRecord (c : Core) (a : Nat) (l : Line) (m : LineMask) : Core :=
  ((c.putWords a ((List.range 32).map (fun i => Line.w32 l (4 * i)))).putWords (a + 128)
    ((List.range 4).map (fun i => m.extractLsb' (32 * i) 32))).putWords (a + 144) (List.replicate 28 0#32)

/-- Local address of a directory entry's record. -/
def DirEnt.at (e : DirEnt) : Nat := e.buf + 256 * e.rec_

/-- A line of the L1 leaves it (R139). -/
def Core.dropLine (c : Core) (va : Nat) : Core := { c with l1 := c.l1.erase (lineOf va) }

/-! ### Leases at a home (R150, R151, R156) -/

/-- The function of a slot's terrace. -/
def Dev.slotFn (d : Dev) (h n : Nat) : Nat := d.fnOf (d.slot h n).lk

/-- The home grants a line to its oldest request when no record holds it and no group has it pending, with its own copy; the request
waits for a way as any fill does (R330, R331). -/
def Dev.grantNext (m : Memory) (d : Dev) (pa : Nat) : Dev :=
  let q := homeOf pa
  let hm := d.home q
  if hm.holders.any (fun r => r.pa == pa) || d.pending pa then d else
  match hm.leaseQ.find? (fun r => r.pa == pa) with
  | none => d
  | some r =>
    match d.quay (d.slotFn r.h r.n) pa false with
    | none =>
      let d := d.quayWaited (d.slotFn r.h r.n) pa
      if d.net.any (fun f => f.e == .leaseRetry r) then d else d.later 1 (.leaseRetry r)
    | some d =>
      let d := d.updHome q (fun x => { x with leaseQ := x.leaseQ.erase r, holders := x.holders ++ [r] })
      match r.amo with
      | none => d.send (chanOf 1 q (slotKey r.h r.n)) (.leaseGrant r (m.line pa))
      | some _ => d.send (chanOf 1 q (slotKey r.h r.n)) (.amoGrant r (m.line pa))

/-- A request reaches its home: refused when 64 requests stand there, else appended (R150). One that stands there already and found no
way (R331) is tried again. -/
def Dev.leaseArrive (m : Memory) (d : Dev) (r : LeaseReq) : Dev :=
  let q := homeOf r.pa
  let hm := d.home q
  if hm.leaseQ.contains r then d.grantNext m r.pa
  else if hm.leaseQ.length + hm.holders.length ≥ 64 then d.later 64 (.leaseRetry r)
  else (d.updHome q (fun x => { x with leaseQ := x.leaseQ ++ [r] })).grantNext m r.pa

/-- The line's holder gives it up, and the next request is granted. -/
def Dev.unhold (m : Memory) (d : Dev) (pa h n : Nat) : Dev :=
  ((d.updHome (homeOf pa) (fun x =>
    { x with holders := x.holders.filter (fun r => !(r.pa == pa && r.h == h && r.n == n)) })).unpin pa).grantNext m pa

/-! ### Breaks (R153) -/

/-- %tsw.IL after a break: it falls when no unbroken record is left (log 8). -/
def Slot.fixIl (s : Slot) : Slot := s.setIl (s.il && s.leases.any (fun r => !r.broken))

/-- Stops and pre-emption are deferred (R153): the slot holds a lease, and a record of it is neither released nor broken. -/
def Slot.leased (s : Slot) : Bool := s.il && s.leases.any (fun r => !r.broken)

/-- The records p names break with a reason: LB is set, and a granted line's home gets a notice. -/
def Dev.breakLeases (d : Dev) (h n why : Nat) (p : LeaseRec → Bool) : Dev :=
  let s := d.slot h n
  let hit := s.leases.filter (fun (r : LeaseRec) => !r.broken && p r)
  if hit.isEmpty then d else
  let d := d.updSlot h n (fun s =>
    ({ s with leases := s.leases.map (fun (r : LeaseRec) => if !r.broken && p r then { r with broken := true, why := why } else r) }.setLb
      true).fixIl)
  (hit.filter (·.granted)).foldl (fun d r =>
    d.send (chanOf 2 (slotKey h n) (homeOf r.pa)) (.breakNotice ⟨h, n, r.va, r.pa, none⟩)) d

/-! ### Groups in flight (R142, R164) -/

/-- The homes of a list of lines, ascending, each once. -/
def homesOf (ls : List GLine) : List Nat :=
  ((ls.map (fun l => homeOf l.pa)).foldl (fun acc q => if acc.contains q then acc else acc ++ [q]) []).foldl (fun acc q =>
    acc.takeWhile (· < q) ++ q :: acc.dropWhile (· < q)) []

/-- The groups that a slot closed and that have not been released everywhere. -/
def Dev.slotGroups (d : Dev) (h n : Nat) : List Grp := d.groups.filter (fun g => g.fin.contains (.slot h n))

/-- Every group and window store of the slot so far is visible or performed (R142, R147). -/
def Dev.allVisible (d : Dev) (h n : Nat) : Bool := (d.slotGroups h n).isEmpty && (d.slot h n).winStores.isEmpty

/-- Slots that waited for the slot's own stores become READY. -/
def Dev.wakeVisible (d : Dev) (h n : Nat) : Dev :=
  if d.allVisible h n then d.wakeSlot h n (fun w => w == .visible || w == .records) else d.wakeSlot h n (· == .records)

/-- What follows a group's last release: the lines a committed task wrote are broadcast (R205, R206). -/
def Dev.finish (m : Memory) (d : Dev) (vas : List Nat) (f : Fin) : Dev :=
  match f with
  | .slot h n => d.wakeVisible h n
  | .task lk id done =>
    match d.task? lk id with
    | none => d
    | some t =>
      let d := d.broadcast lk (descPair t.d) vas
      let d := d.updLaunch lk (fun l => { l with horizon := if l.horizon.toNat < t.d.ts.toNat then t.d.ts else l.horizon })
      let d := if done then (d.dropTask lk id).wake t.core (fun _ _ w => w == .records) else d
      d.later 1 (.arbiterRound lk)
  | .lease pa =>
    match (d.home (homeOf pa)).holders.find? (fun r => r.pa == pa) with
    | some r => d.unhold m pa r.h r.n
    | none => d
  | .amo h n op old pa =>
    let d := d.updSlot h n (fun s => { s with ops := s.ops.map (fun o =>
      if o.id == op then { o with ares := o.ad.map (fun a => (a, old)), fin := true } else o) })
    (d.unhold m pa h n).send 0 (.resultLanding h n op)
  | .engine h cq seq bytes => d.send (chanOf 3 h (if cq then 1 else 0)) (.engineReport h cq seq bytes)
  | .reply h n v => d.reply h n (.done v)
  | .push dep pool idx => d.send 0 (.depotPush dep pool idx)
  | .trace t e => d.updTerr t (fun x => if x.dbg.epoch = e then { x with dbg := { x.dbg with trHead := x.dbg.trHead + 1#32 } } else x)
  | .insert _ _ _ _ | .pos _ _ | .host _ | .ring _ | .nothing => d

/-- A group with its lines for home q read out of the records that hold them. -/
def Grp.capture (g : Grp) (c : Core) (q : Nat) : Grp :=
  { g with lines := g.lines.map (fun l =>
      match l.rec_ with
      | some (b, r) => if homeOf l.pa == q then
          { l with data := c.recLine (b + 256 * r), mask := c.recMask (b + 256 * r), rec_ := none } else l
      | none => l) }

def Dev.updGroup (d : Dev) (id : Nat) (f : Grp → Grp) : Dev :=
  { d with groups := d.groups.map (fun g => if g.id == id then f g else g) }

/-- A released group leaves: its records are free, and what it was for follows. -/
def Dev.retire (m : Memory) (d : Dev) (g : Grp) : Dev :=
  let d := { d with groups := d.groups.filter (fun x => x.id != g.id) }
  let d := d.updCore g.core (fun c => { c with dir := c.dir.filter (fun e => e.gid != some g.id) })
  g.fin.foldl (fun d f => d.finish m (g.lines.map (·.va)) f) d

/-- The group goes to its next home, or, when every home has acknowledged, is released to all of them at once. -/
def Dev.advance (m : Memory) (d : Dev) (id : Nat) : Dev :=
  match d.groups.find? (fun g => g.id == id) with
  | none => d
  | some g =>
    match g.homes with
    | q :: _ => (d.updGroup id (fun g => { (g.capture (d.core g.core) q) with phase := .one })).send 0 (.groupPhaseOne id q)
    | [] =>
      let all := homesOf g.lines
      if all.isEmpty then d.retire m g else
      all.foldl (fun d q => d.send 0 (.groupRelease id q)) (d.updGroup id (fun g => { g with phase := .two, rel := all }))

/-- Groups whose predecessors have finished begin phase one. -/
def Dev.startGroups (m : Memory) : Nat → Dev → Dev
  | 0, d => d
  | k + 1, d =>
    match d.groups.find? (fun g => g.phase == .waiting &&
        (match g.after with | some a => !d.groups.any (fun x => x.id == a) | none => true)) with
    | none => d
    | some g => Dev.startGroups m k ((d.updGroup g.id (fun g => { g with phase := .one })).advance m g.id)

/-- Start what can start. -/
def Dev.settle (m : Memory) (d : Dev) : Dev := d.startGroups m (d.groups.length + 1)

/-- The number of a group that closes now: beyond every group in flight, and it serves as no other number. -/
def Dev.newGid (d : Dev) : Nat := d.groups.foldl (fun m g => max m (g.id + 1)) d.count

/-- A group closes: the lines it carries, the function of its fills, its core, the group it follows, what it is for. -/
def Dev.addGroup (m : Memory) (d : Dev) (lines : List GLine) (fn core : Nat) (after : Option Nat) (fin : List Fin) : Dev :=
  let g : Grp := ⟨d.newGid, lines, .waiting, homesOf lines, [], fn, after, core, fin⟩
  ({ d with groups := d.groups ++ [g], count := d.newGid + 1 }).settle m

/-- A one-line group whose line its home marks at once: none while the line is pending, held or in a host cache. -/
def Dev.groupNow (d : Dev) (l : GLine) (fn : Nat) (fin : List Fin) : Option Dev :=
  let q := homeOf l.pa
  if d.pending l.pa || d.heldLine l.pa || d.hostLines.contains l.pa then none else
  let id := d.newGid
  let g : Grp := ⟨id, [l], .two, [], [q], fn, none, 0, fin⟩
  some (({ d with groups := d.groups ++ [g], count := id + 1 }.updHome q (fun x => { x with pend := x.pend ++ [(l.pa, id)] })).send 0
    (.groupRelease id q))

/-- A home that must wait asks the host for a line that it caches (R348). -/
def Dev.askHost (d : Dev) (pa : Nat) : Dev :=
  if !d.hostLines.contains pa then d else
  d.updHome (homeOf pa) (fun x => { x with snoop := if x.snoop.any (fun e => e.2 == pa) then x.snoop else x.snoop ++ [(0, pa)] })

/-- The last unfinished group of a slot. -/
def Dev.lastGroup (d : Dev) (h n : Nat) : Option Nat := (d.slotGroups h n).getLast?.map (·.id)

/-! ### At the homes -/

/-- The lines of a group for one home. -/
def Grp.at (g : Grp) (q : Nat) : List GLine := g.lines.filter (fun l => homeOf l.pa == q)

/-- Another group's message that came earlier waits at the home for one of these lines. -/
def Dev.queuedAhead (d : Dev) (q id : Nat) (ls : List GLine) : Bool :=
  ((d.home q).wait.takeWhile (· != id)).any (fun w =>
    d.groups.any (fun g => g.id == w && (g.at q).any (fun x => ls.any (fun l => l.pa == x.pa))))

/-- A home takes a group's lines: it marks them pending and acknowledges, or queues the message whole while a line is
pending for another group or while the host holds one (R142, R348). -/
def Dev.phaseOne (d : Dev) (id q : Nat) : Dev :=
  match d.groups.find? (fun g => g.id == id) with
  | none => d.updHome q (fun x => { x with wait := x.wait.filter (· != id) })
  | some g =>
    let ls := g.at q
    let host := ls.filter (fun l => d.hostLines.contains l.pa)
    if ls.any (fun l => d.pending l.pa) || d.queuedAhead q id ls then
      d.updHome q (fun x => { x with wait := if x.wait.contains id then x.wait else x.wait ++ [id] })
    else if !host.isEmpty then
      d.updHome q (fun x => { x with
        wait := if x.wait.contains id then x.wait else x.wait ++ [id],
        snoop := x.snoop ++ ((host.map (fun l => (id, l.pa))).filter (fun e => !x.snoop.any (fun y => y.2 == e.2))) })
    else
      (d.updHome q (fun x => { x with
        wait := x.wait.filter (· != id), pend := x.pend ++ ls.map (fun l => (l.pa, id)) })).send 0 (.phaseOneAck id q)

/-- Messages that waited at a home are taken in the order they arrived. -/
def Dev.serveHome (d : Dev) (q : Nat) : Dev := (d.home q).wait.foldl (fun d id => d.phaseOne id q) d

/-- A home acknowledges. -/
def Dev.ackPhase (m : Memory) (d : Dev) (id q : Nat) : Dev :=
  (d.updGroup id (fun g => { g with homes := g.homes.filter (· != q) })).advance m id

/-- The memory and the device after one masked line is written at its home on behalf of function f: the bytes, the poison
(R363), the log (R370). -/
def writeLine (m : Memory) (d : Dev) (f pa : Nat) (l : Line) (k : LineMask) : Memory × Dev :=
  let m := m.writeAll (d.logCells m f pa)
  (m.writeAll (maskedCells pa l k),
   if k == BitVec.allOnes 128 then { d with linePoison := d.linePoison.filter (· != pa) } else d)

/-- The lines of a group written at one home. -/
def writeLines (f : Nat) : List GLine → Memory → Dev → Memory × Dev
  | [], m, d => (m, d)
  | l :: r, m, d => let x := writeLine m d f l.pa l.data l.mask; writeLines f r x.1 x.2

/-! ### Trace records (R343) -/

/-- The identifier of the task in the lowest lane that holds one, or 0 (R35). -/
def Slot.taskId (s : Slot) : W32 := ((lanesOf s.laneSet).findSome? (fun l => s.tasks.find? l)).getD 0#32

/-- A 32-byte record for the trace ring of a terrace: dropped and counted when the ring is off or full. Each record's group follows the
one before it, and TRHEAD counts it once it is visible (R346). -/
def Dev.traceRec (m : Memory) (d : Dev) (t type status core : Nat) (task : W32) (gtid : BitVec 48) (n : Nat) (pc : W64) : Dev :=
  let b := (d.terrace t).dbg
  if b.trLen = 0 ∨ (b.trNext - b.trTail).toNat = b.trLen then
    d.updTerr t (fun x => { x with dbg := { x.dbg with trDrop := x.dbg.trDrop + 1#32 } })
  else
    let a := b.trBase.toNat + 32 * (b.trNext.toNat % b.trLen)
    let last := (d.groups.filter (fun g => g.fin.any (fun f => match f with | .trace u _ => u == t | _ => false))).getLast?.map (·.id)
    let img : BitVec 256 := BitVec.ofNat 64 d.clock ++ pc ++ 0#10 ++ BitVec.ofNat 6 n ++ gtid ++ task ++
      BitVec.ofNat 16 core ++ BitVec.ofNat 8 status ++ BitVec.ofNat 8 type
    let o := a % 128
    let line : Line := img.setWidth 1024 <<< (8 * o)
    let mask : LineMask := (0xFFFFFFFF#128) <<< o
    (d.updTerr t (fun x => { x with dbg := { x.dbg with trNext := x.dbg.trNext + 1#32 } })).addGroup m
      [⟨lineOf a, lineOf a, line, mask, none⟩] (d.terrace t).vf core last [.trace t b.epoch]

/-- A record about a slot. -/
def Dev.traceSlot (m : Memory) (d : Dev) (h n type : Nat) : Dev :=
  let s := d.slot h n
  d.traceRec m (terrOf s.lk) type 0 h s.taskId s.gtid n s.pc

end Sys2Proof.Machine
end

