-- ==== Sys2Proof/WellFormed.lean ====
section
/-! DEFINITION. Well-formed instructions: the limits of R11, R59, R62, R67, R75, R88, R94, R109, R110, R236, R249,
R261 and R297 that the types of `Instr` do not already carry. A word that breaks one is refused by the decoder. -/

namespace Sys2Proof

/-- The format is e4m3 or e5m2 (R25, R62). -/
def Fmt.isFp8 : Fmt → Bool
  | .e4m3 | .e5m2 => true
  | .i32 | .u32 | .f32 | .bf16 => false

/-- The format is i32 or u32. -/
def Fmt.isInt : Fmt → Bool
  | .i32 | .u32 => true
  | .f32 | .bf16 | .e4m3 | .e5m2 => false

/-- Size in bytes of one element (R39). -/
def Fmt.size : Fmt → Nat
  | .i32 | .u32 | .f32 => 4
  | .bf16 => 2
  | .e4m3 | .e5m2 => 1

/-- The register number is even, as a register-pair form needs (R59). -/
def evenReg (d : VReg) : Bool := d.extractLsb' 0 1 == 0#1

/-- A command that is not a macro-op begins at step 0 and names no step (R67, CMDBAD 0x04). -/
def TileHdr.plain (hd : TileHdr) : Bool := !hd.rst && hd.rstep == 0#16

/-- The restart step of a macro-op: none, or one not beyond the command's last step (R67, CMDBAD 0x04). -/
def TileHdr.upTo (hd : TileHdr) (last : Nat) : Bool :=
  if hd.rst then decide (hd.rstep.toNat ≤ last) else hd.rstep == 0#16

/-- The address lies in the local-store window (R161). -/
def isWindow (a : W64) : Bool := a.extractLsb' 48 9 == 0x1FF#9 && a.extractLsb' 57 7 == 0#7

/-- A multiple of 2^k, by its low bits. -/
def lowZero {n : Nat} (a : BitVec n) (k : Nat) : Bool := a.extractLsb' 0 k == 0#k

/-- Tiles of an mm's output block (R231). -/
def MmArgs.tiles (x : MmArgs) : Nat := (x.mt.toNat + 1) * (x.nt.toNat + 1)

/-- Last step of an mm (R232). -/
def MmArgs.last (x : MmArgs) : Nat := x.tiles * (x.kb.toNat + 1) - 1

/-- The bits that an object operand of mm does not use are zero: the other bits of its base, and its pitch (R67, R231). -/
def objUnused (obj : Bool) (base : W64) (pitch : W32) : Bool := !obj || (base.extractLsb' 8 56 == 0#56 && pitch == 0#32)
def MmArgs.unused (x : MmArgs) : Bool := objUnused x.asrc x.abase x.apitch && objUnused x.bsrc x.bbase x.bpitch

/-- A global operand of mm and its pitch are multiples of 128 (R231). -/
def globalOk (obj : Bool) (base : W64) (pitch : W32) : Bool := obj || (lowZero base 7 && lowZero pitch 7)

/-- Limits of mm that its words alone decide (R231; the pitches and scales depend on the format context). -/
def MmArgs.ok (x : MmArgs) : Bool :=
  decide (x.tiles ≤ 4) && decide (x.acc.toNat + x.tiles ≤ 4) &&
  globalOk x.asrc x.abase x.apitch && globalOk x.bsrc x.bbase x.bpitch

/-- Limits of acc.load and acc.store that their words alone decide (R229). -/
def AccArgs.ok (x : AccArgs) : Bool :=
  decide (x.acc.toNat + x.cnt.toNat ≤ 3) && lowZero x.base 2 && lowZero x.pitch 2

/-- Last step of cp.copy and cp.fill: 4,096 bytes a step (R237). -/
def CpArgs.lastCopy (x : CpArgs) : Nat := (x.len.toNat + 4095) / 4096 - 1
/-- Last step of cp.gather and cp.scatter: 64 rows a step (R237). -/
def CpArgs.lastRows (x : CpArgs) : Nat := (x.cnt.toNat + 63) / 64 - 1
/-- Last step of cp.spred: 512 pairs a step (R237). -/
def CpArgs.lastPairs (x : CpArgs) : Nat := (x.len.toNat + 511) / 512 - 1

/-- Limits of cp.copy and cp.fill (R236). -/
def CpArgs.okCopy (x : CpArgs) : Bool :=
  lowZero x.src 2 && lowZero x.dst 2 && lowZero x.len 2 && decide (4 ≤ x.len.toNat)
/-- Limits of cp.gather and cp.scatter (R236). -/
def CpArgs.okRows (x : CpArgs) : Bool :=
  lowZero x.src 2 && lowZero x.dst 2 && lowZero x.len 2 && decide (4 ≤ x.len.toNat) &&
  decide (x.len.toNat ≤ 65536) && decide (1 ≤ x.cnt.toNat) && lowZero x.idx 2 && lowZero x.ipitch 2
/-- Limits of cp.spred (R236). -/
def CpArgs.okSpred (x : CpArgs) : Bool :=
  lowZero x.src 2 && lowZero x.dst 2 && decide (1 ≤ x.len.toNat) && decide (x.op.toNat ≤ 2) && !isWindow x.dst

/-- Limits of kv.imp (R261). Its DEP names one of the depots 0 to 8 (R244); another value is outside the limits of the field
(DESIGN CHOICE, log 65: Table 6 states no limit of DEP). -/
def KvArgs.okImp (x : KvArgs) : Bool :=
  decide (1 ≤ x.nb.toNat) && decide (x.nb.toNat ≤ 4096) && lowZero x.src 8 && lowZero x.dst 3 && lowZero x.ses 3 &&
  decide (x.dep.toNat ≤ 8)
/-- Limits of kv.exp (R261). -/
def KvArgs.okExp (x : KvArgs) : Bool :=
  decide (1 ≤ x.nb.toNat) && decide (x.nb.toNat ≤ 4096) && lowZero x.dst 8 && lowZero x.ses 3

/-- The fields a copy command does not use are zero (R236 Table 6). -/
def CpArgs.unusedCopy (x : CpArgs) : Bool :=
  !x.isp && x.cnt == 0#32 && x.idx == 0#64 && x.ipitch == 0#32 && x.typ == 0#8 && x.op == 0#4
/-- As `unusedCopy`, for cp.fill: the pattern stands in the count field. -/
def CpArgs.unusedFill (x : CpArgs) : Bool :=
  !x.ssp && !x.isp && x.src == 0#64 && x.idx == 0#64 && x.ipitch == 0#32 && x.typ == 0#8 && x.op == 0#4
/-- As `unusedCopy`, for cp.gather and cp.scatter. -/
def CpArgs.unusedRows (x : CpArgs) : Bool := x.typ == 0#8 && x.op == 0#4
/-- As `unusedCopy`, for cp.spred. -/
def CpArgs.unusedSpred (x : CpArgs) : Bool :=
  !x.dsp && !x.isp && x.cnt == 0#32 && x.idx == 0#64 && x.ipitch == 0#32

/-- Conversions of OP 0x44 (R62, R109): no FP8 format, and rn between integers. -/
def cvtOk (dst src : Fmt) (rnd : Rnd) : Bool :=
  !dst.isFp8 && !src.isFp8 && (!(dst.isInt && src.isInt) || rnd == .rn)

/-- Well-formed instructions. Events and outside requests carry no encoding and are well formed as they stand. -/
def Instr.wf : Instr → Bool
  | .loop a _ => a != 0#4
  | .vcvt dst src rnd _ _ _ _ => cvtOk dst src rnd
  | .vcvtFp8 _ dst src _ _ _ _ _ => dst.isFp8 || src.isFp8
  | .vcvtsc _ dst src _ _ _ d _ _ => dst.isFp8 && (src == .f32 || src == .bf16) && evenReg d
  | .lldx _ _ _ d _ _ _ => evenReg d
  | .lstx _ _ d _ _ _ => evenReg d
  | .gldx _ _ _ d _ _ _ => evenReg d
  | .gstx _ d _ _ _ => evenReg d
  | .split _ _ n _ => decide (n.toNat ≤ 16)
  | .trap _ imm => decide (imm.toNat < 0xFFFF)
  | .kvlook _ d a _ => d != a
  | .tnop hd => hd.plain
  | .fmtSet hd _ => hd.plain
  | .accZero hd acc cnt => hd.plain && decide (acc.toNat + cnt.toNat ≤ 3)
  | .accLoad hd x => hd.plain && x.ok && decide (512 ≤ x.pitch.toNat)
  | .accStore hd x => hd.plain && x.ok
  | .accRel hd acc cnt => hd.plain && decide (acc.toNat + cnt.toNat ≤ 3)
  | .mm hd x => x.unused && hd.upTo x.last && x.ok
  | .sig hd _ => hd.plain
  | .twait hd _ _ => hd.plain
  | .tfence hd => hd.plain
  | .cpCopy hd x => x.unusedCopy && hd.upTo x.lastCopy && x.okCopy
  | .cpGather hd x => x.unusedRows && hd.upTo x.lastRows && x.okRows
  | .cpScatter hd x => x.unusedRows && hd.upTo x.lastRows && x.okRows
  | .cpFill hd x => x.unusedFill && hd.upTo x.lastCopy && x.okCopy
  | .cpSpred hd x => x.unusedSpred && hd.upTo x.lastPairs && x.okSpred
  | .kvImp hd x => hd.upTo x.nb.toNat && x.okImp
  | .kvExp hd x => x.dep == 0#4 && x.pool == 0#4 && hd.upTo x.nb.toNat && x.okExp
  | _ => true

end Sys2Proof
end

