-- ==== Sys2Proof/Machine/Ops.lean ====
section
/-! DEFINITION. The named operations of a thread: taking an exception and a service wait, the return from one, and the
issue of an instruction with its checks (R16, R22 to R33, R64, R290 to R298, R324, R362). -/

namespace Sys2Proof.Machine

/-! ### Taking an exception (R292 to R295) -/

/-- The 64-byte report of R293 Table 3. -/
def reportImage (s : Slot) (h n kind : Nat) : V512 :=
  0#160 ++ BitVec.ofNat 16 (s.lk % 1024) ++ BitVec.ofNat 16 h ++ 0#16 ++ BitVec.ofNat 8 n ++ BitVec.ofNat 8 kind ++ 0#32 ++
    s.frec3 ++ s.frec2 ++ s.frec1 ++ s.frec0

/-- The report goes to the fault service, which rank 0xFFFF names (R291). -/
def Dev.report (d : Dev) (h n kind : Nat) : Dev :=
  let s := d.slot h n
  d.send 0 (.messageArrival ⟨terrOf s.lk, 0xFFFF, reportImage s h n kind, 0xFFFD, h, none, none⟩)

/-- A reading of a rotary table is given up: the form is presented again whole (R255). -/
def Slot.noTable (s : Slot) : Slot := { s with ops := s.ops.filter (fun o => o.kind != .rtab) }

/-- A slot meets an uncorrectable word or line: the error's record takes its %gtid, if no slot met it before (R363). -/
def Dev.metError (d : Dev) (h : Nat) (t : Trap) (gtid : BitVec 48) : Dev :=
  if t.cause != 0xF0 then d else
  let a := if t.sub == 3 then (((d.findLeaf (districtOf h) t.addr.toNat).map (fun l => lineOf (l.pa t.addr.toNat))).getD 0) else t.addr.toNat / 4 * 4
  { d with errLog := d.errLog.map (fun r =>
      if r.gtid == 0#48 && ((t.sub == 2 && r.sub == 2 && r.addr == a && r.district == districtOf h) ||
        (t.sub == 3 && decide (3 ≤ r.sub) && lineOf r.addr == a)) then { r with gtid := gtid } else r) }

/-- Taking an exception: the one operation by which a slot traps (R294). Every lease record breaks (but not by LEASEFLT 0x02,
R152), the record of R292 is written with the instruction's address, the slot becomes HELD and keeps its PC, and the report is
sent; RSVFMT sends its own message when it is raised (R55, R293). A fault found after issue leaves alone what the instruction at the PC
has asked for or closed. -/
def Dev.trap (m : Memory) (d : Dev) (h n : Nat) (t : Trap) (def_ : Bool) (pc : W64) : Dev :=
  let d := d.breakLeases h n 2 (fun _ => !(t.cause == 0x32 && t.sub == 2))
  let d := (d.metError h t (d.slot h n).gtid).updSlot h n (fun s => { (s.record h n t def_ false pc).noTable with
    st := .held .trap, heldAt := d.clock, reply := if def_ then s.reply else .idle, closed := def_ && s.closed })
  (if t.cause == 0x06 then d else d.report h n 1).traceSlot m h n 2

/-- A service wait ends: the slot is READY (R295, R299). -/
def Dev.endService (d : Dev) (h n : Nat) : Dev :=
  (d.updSlot h n (fun s => { s with svcWait := false })).ready h n

/-! ### Return from an exception (R298) -/

/-- An access that faulted after issue. -/
def AccSt.faulty : AccSt → Bool
  | .page _ | .prot _ _ | .bad _ _ => true
  | .xlat | .home _ | .window | .parked | .got => false

/-- The access faulted and its fault has been raised. -/
def Slot.lost (s : Slot) (a : Acc) : Bool := a.st.faulty && a.flt != 0 && !s.defer.any (fun f => f.id == a.flt)
/-- The refusal of a window store has not been raised yet. -/
def Slot.refusalDue (s : Slot) (r : RemoteAcc) : Bool := s.defer.any (fun f => f.op == some r.op)

/-- The faulting accesses whose fault was raised are issued again (R29): each is translated anew, a window access goes to its core
again. -/
def Dev.reissue (d : Dev) (h n : Nat) : Dev :=
  let s := d.slot h n
  let lost := s.ops.flatMap (fun o => (o.acc.zipIdx.filter (fun a => s.lost a.1)).map (fun a => (o, a.1, a.2)))
  let d := d.updSlot h n (fun s => { s with ops := s.ops.map (fun o =>
    { o with acc := o.acc.map (fun a => if s.lost a then { a with st := if isWindow a.va then .window else .xlat, flt := 0 } else a) }) })
  lost.foldl (fun d x =>
    let va := x.2.1.va
    if isWindow va then d.send (chanOf 4 (slotKey h n) (windowCore va)) (.remoteAccess
      ⟨windowCore va, windowAddr va, false, 0#32, h, n, x.1.id, x.2.2, x.2.1.lane, x.1.pc, va, s.lk⟩)
    else d.askWalk (districtOf h) va.toNat (terrOf s.lk)) d

/-- A service wake (R295): of a load only the faulting lanes are issued again, anything else is presented again whole. A slot
that is stopped meanwhile stays so. -/
def Dev.serviceWake (d : Dev) (h n : Nat) : Dev :=
  let d := if (d.slot h n).recDef then d.reissue h n else d
  if (d.slot h n).st == .waiting .service then d.endService h n else d.updSlot h n (fun s => { s with svcWait := false })

/-- Taking a service wait: PAGE or KVEMPTY (R295). Leases break but for one whose own request faulted (R153), the record
is written with SVC = 1, the slot waits, and the report is sent; a service wake that came before acts at once. -/
def Dev.service (m : Memory) (d : Dev) (h n : Nat) (t : Trap) (def_ : Bool) (pc : W64) (but : LeaseRec → Bool) : Dev :=
  let d := d.breakLeases h n 2 (fun r => !but r)
  let d := d.updSlot h n (fun s => { (s.record h n t def_ true pc).noTable with
    st := .waiting .service, svcWait := true, reply := if def_ then s.reply else .idle })
  let d := (d.report h n 2).traceSlot m h n 3
  if (d.slot h n).svcHeld then (d.updSlot h n (fun s => { s with svcHeld := false })).serviceWake h n else d

/-- An ldkr that is given up is a result of zeros. -/
def LongOp.dropped (o : LongOp) : LongOp :=
  match o.kind with
  | .ldkr d _ _ => { o with kind := .value, vres := [(d, 0#512)] }
  | _ => o

/-- Nothing is issued again: the faulting lanes hold 0 (R298 ACT 1 and 2). A lease whose request is given up is broken. -/
def Dev.giveUp (d : Dev) (h n : Nat) : Dev :=
  let s := d.slot h n
  let lost := s.ops.filter (fun o => o.acc.any s.lost)
  let whole (o : LongOp) : Bool := o.acc.all (fun a => s.lost a || a.st == .got)
  let d := d.updSlot h n (fun s => { s with
    ops := s.ops.map (fun o => if o.acc.any s.lost then
      { o.dropped with acc := o.acc.map (fun a => if s.lost a then { a with st := .got, line := 0#1024 } else a), fin := whole o } else o),
    leases := s.leases.map (fun r => if !r.granted && lost.any (fun o => o.id == r.op && o.kind == .lease) then
      { r with granted := true, broken := true, why := 2 } else r) })
  (lost.filter whole).foldl (fun d o => d.send 0 (.resultLanding h n o.id)) d

/-- Act first on some events, in the present cycle. -/
def Dev.first (d : Dev) (es : List Ev) : Dev := { d with agenda := es.map Act.ev ++ d.agenda }

/-- A core takes up the window accesses of a slot that it held back behind a parked or refused one (R126, R147). -/
def Dev.takeUp (d : Dev) (t h n : Nat) : Dev :=
  let hs := (d.core t).held.filter (fun r => r.h == h && r.n == n)
  if hs.isEmpty then d else
  (d.updCore t (fun c => { c with held := c.held.filter (fun r => !(r.h == h && r.n == n)) })).first (hs.map Ev.remoteAccess)

/-- Refused window stores whose fault was raised act again, in order, and what was held behind them follows (R147). -/
def Dev.resend (d : Dev) (h n : Nat) : Dev :=
  let s := d.slot h n
  let rs := s.refused.filter (fun r => !s.refusalDue r)
  let d := d.updSlot h n (fun s => { s with refused := s.refused.filter s.refusalDue })
  ((rs.map (·.dst)).dedup.foldl (fun d t => d.takeUp t h n) d).first (rs.map Ev.remoteAccess)

/-- Refused window stores of the slot are discarded (R147). -/
def Dev.discard (d : Dev) (h n : Nat) (rs : List RemoteAcc) : Dev :=
  let d := d.updSlot h n (fun s => { s with
    refused := s.refused.filter (fun r => !rs.contains r), winStores := rs.foldl (fun w r => w.erase r.op) s.winStores })
  (rs.map (·.dst)).dedup.foldl (fun d t => d.takeUp t h n) d

/-- Every refused window store is discarded: the slot becomes FREE. -/
def Dev.discardRefused (d : Dev) (h n : Nat) : Dev := d.discard h n (d.slot h n).refused

/-- What eret does to its target: none when the target is neither HELD by a trap nor in a service wait (SYSBAD 0x03; a
slot held by LINKLOST too, R369). The phase that an arrival recorded
stands as long as %tsw.AP, which is cleared when the wait completes (R36 Table 5, R180; DEDUCED, log 66). -/
def Dev.eretSlot (d : Dev) (h n : Nat) (flags value : W64) : Option Dev :=
  let s := d.slot h n
  if !(s.st == .held .trap || s.st == .waiting .service) then none else
  let act := (flags.extractLsb' 0 2).toNat
  let reg := (flags.extractLsb' 4 4).toNat
  let set : Slot → Slot := fun s => if act < 2 then s.setA reg value else s
  let d :=
    if act = 0 then (if s.recDef && s.frec0.extractLsb' 0 8 != 6#8 then (d.reissue h n).resend h n else d)
    else
      let d := if s.recDef && s.frec0.extractLsb' 0 8 != 6#8 then
          (d.giveUp h n).discard h n (s.refused.filter (fun r => !s.refusalDue r)) else d
      d.updSlot h n (fun s =>
        if act = 1 then
          (if s.recDef then s else { s with pc := s.pc + 8#64, residue := [], pushed := [], closed := false })
        else { s with pc := value, residue := [], pushed := [], closed := false,
                      reply := if s.reply == .sent then .stale else .idle })
  let d := if act = 0 then d else d.updSlot h n Slot.noTable
  some ((d.updSlot h n set).endService h n)

/-! ### Issuing an instruction (R22 to R33, R64) -/

/-- What a thread instruction works on: memory as it stands, the core and slot, the word, the slot, the device. -/
structure Ctx where
  m : Memory
  h : Nat
  n : Nat
  w : W64
  s : Slot
  d : Dev

/-- How the presentation of an instruction ends. -/
inductive Res where
  /-- The instruction completes and the PC advances by 8. -/
  | done (d : Dev)
  /-- The instruction completes and the PC goes elsewhere. -/
  | jump (d : Dev) (pc : W64)
  /-- The instruction is not issued, and the slot keeps its seat and lets the turn pass (R24). -/
  | skip (d : Dev)
  /-- The slot gives up its seat as WAITING, and the instruction is presented again whole (R22). -/
  | wait (d : Dev) (w : WaitFor)
  /-- The instruction faults (R16, R294). -/
  | trap (d : Dev) (t : Trap)
  /-- The instruction meets PAGE or KVEMPTY (R295). -/
  | service (d : Dev) (t : Trap)
  /-- The thread has left the slot (R76, R258, R301). -/
  | left (d : Dev)

/-- The slot changed and the instruction complete. -/
def Ctx.done (c : Ctx) (s : Slot) : Res := .done (c.d.setSlot c.h c.n s)

/-- Faults: with neither address nor lanes defined, with an address, with both (log 13). -/
def Ctx.fault (c : Ctx) (cause sub : Nat) : Res :=
  .trap c.d ⟨cause, sub, Config.freeAddr c.d.count, Config.freeLanes c.d.count⟩
def Ctx.faultAt (c : Ctx) (cause sub : Nat) (addr : W64) : Res := .trap c.d ⟨cause, sub, addr, Config.freeLanes c.d.count⟩
def Ctx.faultLanes (c : Ctx) (cause sub : Nat) (addr : W64) (lanes : BitVec 16) : Res := .trap c.d ⟨cause, sub, addr, lanes⟩
/-- PAGE (R324): the walk has made its reads. -/
def Ctx.page (c : Ctx) (sub : Nat) (addr : W64) (lanes : BitVec 16) : Res :=
  .service (c.d.walkFailed c.m (c.d.fnOf c.s.lk) addr) ⟨0x20, sub, addr, lanes⟩

/-- The registers that a window or an outstanding instruction covers (no long-latency form writes a mask). -/
def Win.has (w : Win) (r : RegUse) : Bool :=
  match r.cls with
  | .v => w.vr.contains r.reg
  | .a => w.ar.contains r.reg
  | .k => w.kr.contains r.reg
def LongOp.has (o : LongOp) (r : RegUse) : Bool :=
  match r.cls with
  | .v => o.vd.contains r.reg
  | .a => o.ad.contains r.reg
  | .k => false

/-- a0 and k0 carry no mark (R31). -/
def RegUse.hard (r : RegUse) : Bool := r.reg == 0 && r.cls != .v

/-- The first register whose window the instruction breaks, with the long-latency instruction's address (R27). Where several are broken
at once, or one register is both read and written, the oldest window is reported, and in it the first use in the form's order, the
destination before the sources (DESIGN CHOICE, log 65). -/
def Slot.laviol (s : Slot) (regs : List RegUse) : Option (Nat × W64) :=
  s.wins.findSome? (fun w =>
    (regs.find? (fun r => !r.hard && w.has r)).map (fun r =>
      ((if r.write then 512 else 0) + 128 * r.cls.code + r.reg, w.pc)))

/-- Why the instruction cannot be issued now, if it cannot: a register that is pending (with whether its load is parked at
another core, R147), awaiting a link write, or unrestored (with its granule). -/
inductive Block where
  | pending (parked : Bool)
  | awaiting
  | unrestored (g : Nat)
deriving DecidableEq, Repr

def Slot.blockOf (s : Slot) (r : RegUse) : Option Block :=
  if r.hard then none else
  match s.ops.find? (fun o => o.has r) with
  | some o => some (.pending (o.acc.any (fun a => a.st == .parked)))
  | none =>
    if r.cls != .v then none else
    match s.vst.get .present r.reg with
    | .unrestored => some (.unrestored (r.reg / 8))
    | .awaiting _ => some .awaiting
    | .present | .pending => none

/-- The lowest register field out of the window (R30, R64). -/
def Slot.windowBreach (s : Slot) (u : Use) : Option Nat :=
  (u.fields ++ u.extra).find? (fun j => decide (s.winCount ≤ j))

/-- The first register that the instruction reads and whose register-file entry is poisoned (R362). -/
def Ctx.poisoned (c : Ctx) (u : Use) : Option Nat :=
  let ps := (c.d.core c.h).rfPoison
  (u.regs.find? (fun r => r.cls == .v && !r.write && ps.contains (c.s.winBase + r.reg))).map (·.reg)

/-- The checks of R64 and the conditions of issue, in order: none lets the instruction act. -/
def Ctx.gate (c : Ctx) (u : Use) : Option Res :=
  if u.priv && !c.s.priv then some (c.faultAt 0x80 1 c.w) else
  match c.s.windowBreach u with
  | some j => some (c.fault 0x03 j)
  | none =>
  match c.s.laviol u.regs with
  | some (sub, pc) => some (c.faultAt 0x02 sub pc)
  | none =>
  match u.regs.findSome? c.s.blockOf with
  | some (.pending true) => some (.wait c.d .reply)
  | some (.pending false) | some .awaiting => some (.skip c.d)
  | some (.unrestored g) => some (.skip (c.d.later 1 (.granuleRefill c.h c.n g)))
  | none =>
  if (u.la.isSome && decide (16 ≤ c.s.ops.length)) || c.s.reply == .stale then some (.skip c.d) else
  match c.poisoned u with
  | some j => some (c.faultAt 0xF0 1 (BitVec.ofNat 64 j))
  | none => none

/-- The slot after an instruction has issued: windows count down and its own opens (R26), what served its presentations
is gone, and the PC stands at the next instruction. -/
def Slot.issued (s : Slot) (at_ next : W64) (u : Use) : Slot :=
  let own : List Win := match u.la with
    | some (k + 1) => [⟨at_, (u.regs.filter (fun r => r.write && r.cls == .v)).map (·.reg),
        (u.regs.filter (fun r => r.write && r.cls == .a && r.reg != 0)).map (·.reg),
        (u.regs.filter (fun r => r.write && r.cls == .k && r.reg != 0)).map (·.reg), k + 1⟩]
    | _ => []
  { s with
    pc := next
    wins := s.wins.filterMap (fun w => if w.left ≤ 1 then none else some { w with left := w.left - 1 }) ++ own
    residue := [], pushed := [], closed := false, reply := .idle, bpPass := none
    stream := s.stream.drop 1 }

/-- All 16 lanes of a vector destination are written (R362). -/
def Slot.wholeWrite (s : Slot) (u : Use) : Bool :=
  match u.wr with
  | .all => true
  | .masked k kz => kz || s.K k.toNat == 0xFFFF#16
  | .one => false

/-- The end of an issue: poison that the instruction overwrote clears, and a STEP stops the slot at its next turn (R340). -/
def Ctx.finish (c : Ctx) (u : Use) (d : Dev) (next : W64) : Dev :=
  let wr := (u.regs.filter (fun r => r.write && r.cls == .v)).map (fun r => c.s.winBase + r.reg)
  let d := if u.la.isNone && c.s.wholeWrite u && !(d.core c.h).rfPoison.isEmpty then
      d.updCore c.h (fun x => { x with rfPoison := x.rfPoison.filter (fun e => !wr.contains e) }) else d
  let d := d.updSlot c.h c.n (fun s => s.issued c.s.pc next u)
  if c.s.stepReq then d.updSlot c.h c.n (fun s => { s with stopReq := true, stepDue := true, stepReq := false }) else d

/-- The device after a presentation. -/
def Ctx.settle (c : Ctx) (u : Use) (r : Res) : Dev :=
  match r with
  | .done d => c.finish u d (c.s.pc + 8#64)
  | .jump d pc => c.finish u d pc
  | .skip d => d
  | .wait d w => d.updSlot c.h c.n (fun s => { s with st := .waiting w, readyAt := d.clock })
  | .trap d t => d.trap c.m c.h c.n t false c.s.pc
  | .service d t => d.service c.m c.h c.n t false c.s.pc (fun _ => false)
  | .left d => d

/-- A thread instruction, by what it names and what it does: its presentation in the slot whose turn it is. -/
def thread (u : Use) (body : Ctx → Res) (s : State) : Host.Outcome State Fault Refusal :=
  match s.dev.cur with
  | .slot h n w =>
    let c : Ctx := ⟨s.mem, h, n, w, s.dev.slot h n, s.dev⟩
    .next ⟨s.mem, c.settle u (match c.gate u with | some r => r | none => body c)⟩
  | _ => .next s

/-- A thread instruction that only changes its slot's registers. -/
def regForm (u : Use) (f : Slot → Slot) : State → Host.Outcome State Fault Refusal :=
  thread u (fun c => c.done (f c.s))

/-- An event or an outside request that changes the device alone. -/
def onDev (f : Memory → Dev → Dev) (s : State) : Host.Outcome State Fault Refusal := .next ⟨s.mem, f s.mem s.dev⟩

/-- An event or an outside request that also writes memory. -/
def onMem (f : Memory → Dev → List Host.Cell × Dev) (s : State) : Host.Outcome State Fault Refusal :=
  let r := f s.mem s.dev
  .next ⟨s.mem.writeAll r.1, r.2⟩

end Sys2Proof.Machine
end

