-- ==== Sys2Proof/Machine/Commit.lean ====
section
/-! DEFINITION. Commit groups of a slot: its buffer and records, its own bytes, closing, waiting for visibility, and forms that
are not issued speculatively (R71, R141 to R144, R166, R174, R206, R326, R363). -/

namespace Sys2Proof.Machine

/-! ### Regions (R70, R71) -/

/-- Fields of a region descriptor (R70 Table 10). -/
def rgnV (w : W32) : Bool := w.getLsbD 31
def rgnTbl (w : W32) : Nat := (w.extractLsb' 28 3).toNat
def rgnRole (w : W32) : Nat := (w.extractLsb' 24 4).toNat
def rgnBase (w : W32) : Nat := (w.extractLsb' 0 8).toNat * 4096
def rgnEnd (w : W32) : Nat := ((w.extractLsb' 0 8).toNat + (w.extractLsb' 16 8).toNat + 1) * 4096

/-- The valid regions of a launch in a core's map: keys are 16 x launch key + descriptor index. -/
def Core.regions (c : Core) (lk : Nat) : List (Nat × W32) :=
  (c.map.ents.filter (fun e => e.1 / 16 == lk && rgnV e.2))

/-- The region of a role. -/
def Core.roleRegion (c : Core) (lk role : Nat) : Option W32 := ((c.regions lk).find? (fun e => rgnRole e.2 == role)).map (·.2)

/-- First local address and records of the buffer of a launch's reserved slot number i (R71). -/
def Dev.bufferOf (d : Dev) (h lk i : Nat) : Nat × Nat :=
  match (d.core h).roleRegion lk 1, d.launch? lk with
  | some r, some l => let b := (rgnEnd r - rgnBase r) / (max 1 l.nslots); (rgnBase r + i * b, b / 256)
  | _, _ => (0, 0)

def Ctx.buffer (c : Ctx) : Nat × Nat := c.d.bufferOf c.h c.s.lk c.s.ri

/-- Records of the core, or the slot's own buffer, lie in units that a restore has still to bring: what uses them waits (R306). -/
def Ctx.bufferAway (c : Ctx) : Bool :=
  let k := c.d.core c.h
  let b := c.buffer
  k.dir.any (fun e => k.unrestoredIn e.at (e.at + 256)) || k.unrestoredIn b.1 (b.1 + 256 * b.2)

/-! ### Own bytes (R144, R204) -/

/-- The task whose records a lane's accesses use: that of the lane in an ORDERED slot, 0 otherwise. -/
def Slot.laneTask (s : Slot) (l : Nat) : W32 := if s.kind == .ordered then (s.tasks.find? l).getD 0#32 else 0#32

/-- The live records from which a lane reads: of its task, or of the slot's open and unreleased groups. -/
def Core.ownRecs (c : Core) (buf : Nat) (s : Slot) (task : W32) : List DirEnt :=
  if s.kind == .ordered && task != 0#32 then c.dir.filter (fun e => e.task == task) else c.dir.filter (fun e => e.buf == buf && e.task == 0#32)

/-- Bytes of a line that the slot wrote, with their place in the order of its writing. -/
structure OwnPart where
  seq : Nat
  data : Line
  mask : LineMask

/-- Parts by rising age, so that the newest is laid over last. -/
def bySeq (es : List OwnPart) : List OwnPart :=
  es.foldl (fun acc e => acc.takeWhile (fun x => decide (x.seq ≤ e.seq)) ++ e :: acc.dropWhile (fun x => decide (x.seq ≤ e.seq))) []

/-- What some records hold of a line. -/
def Core.recParts (c : Core) (es : List DirEnt) (va : Nat) : List OwnPart :=
  (es.filter (fun e => e.va == lineOf va)).map (fun e => ⟨e.seq, c.recLine e.at, c.recMask e.at⟩)

/-- What the slot's unreleased groups of no record hold of a line: those of its lease releases and atomics (R144, R164). -/
def Dev.lineParts (d : Dev) (h n va : Nat) : List OwnPart :=
  ((d.slotGroups h n).filter (fun g => !(d.core h).dir.any (fun e => e.gid == some g.id))).flatMap (fun g =>
    (g.lines.filter (fun l => l.va == lineOf va)).map (fun l => ⟨g.id, l.data, l.mask⟩))

/-- Parts over what lies below, and the bytes they cover. -/
def overParts (ps : List OwnPart) (base : Line) : Line × LineMask :=
  (bySeq ps).foldl (fun (acc : Line × LineMask) p => (Line.over acc.1 p.data p.mask, acc.2 ||| p.mask)) (base, 0#128)

/-! ### Buffering a store (R141, R143, R207) -/

/-- The open record of a task for a line. -/
def Core.openRec (c : Core) (buf : Nat) (task : W32) (va : Nat) : Option DirEnt :=
  c.dir.find? (fun e => e.buf == buf && e.task == task && e.gid.isNone && e.va == lineOf va)

/-- The lowest free record of a buffer. -/
def Core.freeRec (c : Core) (buf cap : Nat) : Option Nat :=
  (List.range cap).find? (fun r => !c.dir.any (fun e => e.buf == buf && e.rec_ == r))

/-- Words of a local store keep the poison they had, but for those that a store wrote whole (R362, R363). -/
def Core.keepPoison (c : Core) (old : List Nat) (a : Nat) (mask : LineMask) : Core :=
  { c with lsPoison := (old.filter (fun w => !(decide (a / 4 ≤ w) && decide (w < a / 4 + 32) &&
      mask.extractLsb' (4 * (w - a / 4)) 4 == 15#4))) }

/-- Bytes that a task writes anew leave its records of the line in other buffers, so that each byte stands where the task wrote
it last (R204). -/
def Core.supersede (c : Core) (buf : Nat) (task : W32) (va : Nat) (mask : LineMask) : Core :=
  if task == 0#32 then c else
  (c.dir.filter (fun e => e.buf != buf && e.task == task && e.gid.isNone && e.va == lineOf va)).foldl (fun c e =>
    (c.putRecord e.at (c.recLine e.at) (c.recMask e.at &&& ~~~mask)).keepPoison c.lsPoison e.at 0#128) c

/-- Bytes written into the open record of their line, which a new line takes first; none when no record is free. -/
def Core.buffer (c : Core) (buf cap seq : Nat) (task : W32) (va : Nat) (data : Line) (mask : LineMask) : Option Core :=
  let c := c.supersede buf task va mask
  match c.openRec buf task va with
  | some e =>
    let c' := c.putRecord e.at (Line.over (c.recLine e.at) data mask) (c.recMask e.at ||| mask)
    some { c'.keepPoison c.lsPoison e.at mask with
      dir := c'.dir.map (fun x => if x.buf == e.buf && x.rec_ == e.rec_ then { e with seq := seq } else x) }
  | none =>
    match c.freeRec buf cap with
    | none => none
    | some r =>
      let e : DirEnt := ⟨buf, r, lineOf va, none, task, seq⟩
      let c := c.putRecord e.at (Line.over 0#1024 data mask) mask
      some { c with dir := c.dir ++ [e] }

/-- Bytes at an address as a line's data and mask. -/
def lineBytes (va : Nat) (v n : Nat) : Line × LineMask :=
  (BitVec.ofNat 1024 (v * 2 ^ (8 * (va % 128))), BitVec.ofNat 128 ((2 ^ n - 1) * 2 ^ (va % 128)))

/-! ### Closing (R142, R326, R363) -/

/-- What translating and checking the lines of records comes to. -/
inductive Closing where
  | ok (lines : List GLine) (d : Dev)
  | wait (d : Dev)
  | bad (va : W64) (cause sub : Nat)
  | page (va : W64) (sub : Nat)

/-- Records by rising line, those of one line by rising age, so that the newest is written last. -/
def byLine (es : List DirEnt) : List DirEnt :=
  let le (x y : DirEnt) : Bool := decide (x.va < y.va) || (x.va == y.va && decide (x.seq ≤ y.seq))
  es.foldl (fun acc e => acc.takeWhile (fun x => le x e) ++ e :: acc.dropWhile (fun x => le x e)) []

/-- The lines of some records, translated with right W: the lowest line that is not translated decides (R326). -/
def Dev.closing (d : Dev) (m : Memory) (who : Who) (es : List DirEnt) : Closing :=
  let rs := (byLine es).map (fun e => (e, d.translate m who [.w] (BitVec.ofNat 64 e.va)))
  let bad (r : DirEnt × Tr) : Option Closing :=
    match r.2 with
    | .ok _ _ => none
    | .miss => some (.wait ((rs.filter (fun r => r.2 == .miss)).foldl (fun d r => d.askFor who (BitVec.ofNat 64 r.1.va)) d))
    | .bad c s => some (.bad (BitVec.ofNat 64 r.1.va) c s)
    | .page s => some (.page (BitVec.ofNat 64 r.1.va) s)
  match rs.findSome? bad with
  | some x => x
  | none =>
    let oks := rs.filterMap (fun r => match r.2 with | .ok pa l => some (r.1, pa, l) | _ => none)
    .ok (oks.map (fun p => ⟨p.1.va, p.2.1, 0#1024, 0#128, some (p.1.buf, p.1.rec_)⟩)) (oks.foldl (fun d p => d.fillPlb m who p.2.2.dom) d)

/-- A task of the slot has become non-speculative (R206). -/
def Ctx.plain (c : Ctx) (id : W32) : Bool := ((c.d.task? c.s.lk id).map Task.plain).getD false

/-- The records that a closing of the slot takes: its open group, in an ORDERED slot those of its non-speculative task too. -/
def Ctx.openRecs (c : Ctx) : List DirEnt :=
  let b := c.buffer.1
  let ts := (c.s.tasks.ents.map (·.2)).filter c.plain
  (c.d.core c.h).dir.filter (fun e => e.gid.isNone &&
    ((e.buf == b && e.task == 0#32) || (c.s.kind == .ordered && e.task != 0#32 && ts.contains e.task)))

/-- A record holds an uncorrectable word. -/
def Core.badRec (c : Core) (e : DirEnt) : Bool :=
  c.lsPoison.any (fun w => decide (e.at / 4 ≤ w) && decide (w < e.at / 4 + 64))

/-- The records become a group of the slot: marked with its number, their lines out of the L1 (R139). -/
def Dev.closeGroup (m : Memory) (d : Dev) (h n fn : Nat) (es : List DirEnt) (lines : List GLine) (fin : List Fin) : Dev :=
  let id := d.newGid
  let d := d.updCore h (fun c => { c with
    dir := c.dir.map (fun e => if es.contains e then { e with gid := some id } else e),
    l1 := ⟨c.l1.ents.filter (fun x => !lines.any (fun l => l.va == x.1))⟩ })
  d.addGroup m lines fn h (d.lastGroup h n) fin

/-- The signals of a slot's group: the slot, and in an ORDERED slot the broadcast of a commit (R206). -/
def Ctx.groupFin (c : Ctx) : List Fin :=
  .slot c.h c.n :: (if c.s.kind == .ordered then
    (((c.s.tasks.ents.map (·.2)).filter c.plain).map (fun i => Fin.task c.s.lk i false)).take 1 else [])

/-- Records discarded with the poison of their words. -/
def Core.discardRecs (c : Core) (es : List DirEnt) : Core :=
  { c with
    dir := c.dir.filter (fun e => !es.contains e),
    lsPoison := c.lsPoison.filter (fun w => !es.any (fun e => decide (e.at / 4 ≤ w) && decide (w < e.at / 4 + 64))) }

/-- CloseGroup (R142, R326): an empty group closes without effect; a failing line faults and the group stays open; an
uncorrectable record discards the whole group (R363). -/
def Ctx.close (c : Ctx) (k : Dev → Res) : Res :=
  let es := c.openRecs
  if es.isEmpty then k c.d else
  if c.bufferAway then .skip c.d else
  if es.any (fun e => (c.d.core c.h).badRec e) then
    Ctx.fault { c with d := c.d.updCore c.h (fun x => x.discardRecs es) } 0xF0 2
  else
  match c.d.closing c.m (c.s.who c.h) es with
  | .wait d => .skip d
  | .bad va cause sub => c.faultLanes cause sub va 1#16
  | .page va sub => c.page sub va 1#16
  | .ok lines d => k (d.closeGroup c.m c.h c.n (d.fnOf c.s.lk) es lines c.groupFin)

/-- Closing and waiting until every group of the slot is visible and its window stores are performed (R142, R147, R166). A
re-presentation does not close again. -/
def Ctx.release (c : Ctx) (k : Ctx → Res) : Res :=
  let go (d : Dev) : Res :=
    let d := d.updSlot c.h c.n (fun s => { s with closed := true })
    if d.allVisible c.h c.n then k { c with d := d, s := d.slot c.h c.n } else .wait d .visible
  if c.s.closed then go c.d else c.close go

/-! ### Forms that are not issued speculatively (R174, R206) -/

/-- The lane of lowest pair among the bound lanes of the lane set. -/
def Ctx.lowestLane (c : Ctx) : Option W32 :=
  let ids := (lanesOf c.s.laneSet).filterMap (fun l => c.s.tasks.find? l)
  ids.find? (fun i => ids.all (fun j => match c.d.task? c.s.lk i, c.d.task? c.s.lk j with
    | some a, some b => decide (descPair a.d ≤ descPair b.d)
    | _, _ => false))

/-- Every task of the lane set but the one of lowest pair is aborted (R206). -/
def Ctx.shed (c : Ctx) : Dev :=
  match c.lowestLane with
  | none => c.d
  | some low =>
    (((lanesOf c.s.laneSet).filterMap (fun l => c.s.tasks.find? l)).filter (· != low)).foldl (fun d i => d.abort c.s.lk i d.clock) c.d

/-- The records of a slot's one task commit as a group, and the slot is no longer speculative (R206). -/
def Ctx.commitOwn (c : Ctx) (id : W32) (k : Ctx → Res) : Res :=
  let es := (c.d.core c.h).dir.filter (fun e => e.task == id && e.gid.isNone)
  let on (d : Dev) : Res :=
    let d := (d.updSlot c.h c.n (fun s => s.setSpec false)).updTask c.s.lk id (fun t => { t with plain := true })
    k { c with d := d, s := d.slot c.h c.n }
  if es.any (fun e => (c.d.core c.h).badRec e) then
    Ctx.fault { c with d := c.d.updCore c.h (fun x => x.discardRecs es) } 0xF0 2
  else
  match c.d.closing c.m (c.s.who c.h) es with
  | .wait d => .skip d
  | .bad va cause sub => c.faultLanes cause sub va 1#16
  | .page va sub => c.page sub va 1#16
  | .ok lines d => on (d.closeGroup c.m c.h c.n (d.fnOf c.s.lk) es lines [.slot c.h c.n, .task c.s.lk id false])

/-- A form of R174: in a slot of tasks it waits, by skipped turns, until the slot's one task is the lowest, also where a refill
or join has bound a further task to a slot whose SPEC is 0 (R206). -/
def Ctx.unspec (c : Ctx) (k : Ctx → Res) : Res :=
  if c.s.kind != .ordered then k c else
  match (lanesOf c.s.laneSet).filterMap (fun l => c.s.tasks.find? l) with
  | [] => if c.s.spec then c.fault 0x52 0x0C else k c
  | [id] => if c.plain id then k c else if c.d.isLowest c.s.lk id then c.commitOwn id k else .skip c.d
  | _ => .skip c.shed

/-- A thread form of R174. -/
def specForm (u : Use) (body : Ctx → Res) : State → Host.Outcome State Fault Refusal := thread u (fun c => c.unspec body)

end Sys2Proof.Machine
end

