-- ==== Sys2Proof/Machine/Bars.lean ====
section
/-! DEFINITION. Barrier steps: arrivals, engine reports, errors and the completion test (R176 to R178, R183). -/

namespace Sys2Proof.Machine

def Core.bar (c : Core) (b : Nat) : Bar := c.bars.get .init b

/-- A barrier set; one that reads zero in every field is not listed. -/
def Core.setBar (c : Core) (b : Nat) (x : Bar) : Core :=
  { c with bars := if x = Bar.init then c.bars.erase b else c.bars.put b x }

/-- Test(b, ev) (R177): the barrier after it, and whether the phase completed. -/
def Bar.test (b : Bar) (drain : Bool) : Bar × Bool :=
  if b.pend = 0 ∧ b.exp.toNat ≤ b.arr.toNat ∧ (b.exp ≠ 0#16 ∨ drain = true) then
    ({ b with arr := b.arr - b.exp, ph := !b.ph }, true)
  else (b, false)

/-- One step of a barrier: a change, then the test; at a completion every slot waiting on it becomes READY. -/
def Dev.barStep (d : Dev) (h b : Nat) (f : Bar → Bar) (drain : Bool) : Dev :=
  let r := (f ((d.core h).bar b)).test drain
  let d := d.updCore h (fun c => c.setBar b r.1)
  if r.2 then d.wake h (fun _ _ w => w == .barrier b) else d

/-- The launch still has threads (R183). -/
def Dev.alive (d : Dev) (lk : Nat) : Bool :=
  match d.launch? lk with
  | some l => l.st == .resident
  | none => false

/-- Bytes are subtracted; a report that brings PEND to zero is a drain, after which a barrier of an ended launch is free. -/
def Dev.barReport (d : Dev) (h b bytes : Nat) : Dev :=
  let x := (d.core h).bar b
  if bytes = 0 ∨ x.pend = 0 then d else
  let d := d.wake h (fun _ _ w => w == .pend b)
  if bytes < x.pend then d.updCore h (fun c => c.setBar b { x with pend := x.pend - bytes }) else
  let d := d.barStep h b (fun x => { x with pend := 0 }) true
  match x.owner with
  | some lk => if d.alive lk then d else d.updCore h (fun c => c.setBar b .init)
  | none => d

/-- A first error is recorded (R178). -/
def Bar.error (x : Bar) (cause sub det : Nat) : Bar :=
  if x.err || x.owner.isNone then x
  else { x with err := true, code := BitVec.ofNat 16 (256 * (cause % 256) + sub % 256), det := BitVec.ofNat 16 det }

def Dev.barError (d : Dev) (h b cause sub det : Nat) : Dev :=
  d.updCore h (fun c => c.setBar b ((c.bar b).error cause sub det))

/-! ### Commands of a queue -/

def Core.eq (c : Core) (cq : Bool) : EQ := if cq then c.cq else c.mq
def Core.updEq (c : Core) (cq : Bool) (f : EQ → EQ) : Core := if cq then { c with cq := f c.cq } else { c with mq := f c.mq }

/-- The command with a sequence number in a queue. -/
def EQ.cmd? (e : EQ) (seq : Nat) : Option Cmd := (e.live ++ e.q).find? (fun c => c.seq == seq)
def EQ.updCmd (e : EQ) (seq : Nat) (f : Cmd → Cmd) : EQ :=
  { e with live := e.live.map (fun c => if c.seq == seq then f c else c), q := e.q.map (fun c => if c.seq == seq then f c else c) }
def Dev.cmd? (d : Dev) (h : Nat) (cq : Bool) (seq : Nat) : Option Cmd := ((d.core h).eq cq).cmd? seq
def Dev.updCmd (d : Dev) (h : Nat) (cq : Bool) (seq : Nat) (f : Cmd → Cmd) : Dev :=
  d.updCore h (fun c => c.updEq cq (fun e => e.updCmd seq f))

/-- An error that a command's description routes to its barrier (R178). -/
def Dev.cmdError (d : Dev) (h : Nat) (cq : Bool) (seq cause sub det : Nat) : Dev :=
  match d.cmd? h cq seq with
  | some c => d.barError h c.bar cause sub det
  | none => d

end Sys2Proof.Machine
end

