-- ==== Sys2Proof/Machine/Banks.lean ====
section
/-! DEFINITION. The banks of a local store: regions, action tables, one bank operation, waiting and re-evaluation, and the
answers that go back to slots, requesters and engines (R112 to R128, R186). -/

namespace Sys2Proof.Machine

/-! ### Regions, objects and tables -/

/-- The valid region that holds a local address, with its key. -/
def Core.regionOf (c : Core) (a : Nat) : Option (Nat × W32) :=
  c.map.ents.find? (fun e => rgnV e.2 && decide (rgnBase e.2 ≤ a) && decide (a < rgnEnd e.2))

/-- The address lies in a valid region of the launch. -/
def Core.inLaunch (c : Core) (lk a : Nat) : Bool :=
  match c.regionOf a with
  | some e => e.1 / 16 == lk
  | none => false

/-- The address lies in a valid region of a terrace's launch: the destination's map, for the window accesses of a terrace (R114, R314;
DEDUCED, log 22). -/
def Core.inTerrace (c : Core) (t a : Nat) : Bool :=
  match c.regionOf a with
  | some e => terrOf (e.1 / 16) == t
  | none => false

/-- Bytes of an element of an object's format (R184). -/
def etypeSize (e : Nat) : Nat := if e ≤ 2 then 4 else if e = 3 then 2 else 1

/-- The bytes of an object's extent, E of R184. -/
def Obj.bytes (o : Obj) : Nat := ((o.rows - 1) * o.pitch + o.cols * etypeSize o.etype + 3) / 4 * 4

/-- The word lies in the extent of a SEALED object (R186). -/
def Core.sealedAt (c : Core) (a : Nat) : Bool :=
  c.objs.ents.any (fun e => e.2.st == .sealed_ && decide (e.2.base ≤ a) && decide (a < e.2.base + e.2.bytes))

def BankKind.code : BankKind → Nat
  | .ld => 0 | .st => 1 | .rld => 2 | .rst => 3 | .erd => 4 | .ewr => 5 | .xld => 6 | .xst => 7
/-- The load kinds of R119. -/
def BankKind.load : BankKind → Bool
  | .ld | .rld | .erd | .xld => true
  | .st | .rst | .ewr | .xst => false

/-- The generation of table n in force, and the other. -/
def Core.gen (c : Core) (n : Nat) (shadow : Bool) : TGen :=
  (if c.tbgen.getLsbD n != shadow then c.gen1 else c.gen0).get ⟨.empty, .empty⟩ n

/-- An entry of a table; table 0 is fixed (R116). -/
def Core.entry (c : Core) (n ix : Nat) : BitVec 16 := if n = 0 then 0#16 else (c.gen n false).ents.get 0#16 ix
/-- A redirect base of a table. -/
def Core.rbase (c : Core) (n i : Nat) : Nat := if n = 0 then 0 else ((c.gen n false).rb.get 0#32 i).toNat

def actOf (e : BitVec 16) : Nat := (e.extractLsb' 0 3).toNat
def newTagOf (e : BitVec 16) : BitVec 4 := e.extractLsb' 4 4
def setTagOf (e : BitVec 16) : Bool := e.getLsbD 8
def redirOf (e : BitVec 16) : Nat := (e.extractLsb' 9 3).toNat
def codeOf (e : BitVec 16) : Nat := (e.extractLsb' 12 4).toNat

/-! ### One bank operation (R119) -/

inductive BankOut where
  | parked (cls : Nat)
  | trapped (cause sub : Nat)
  /-- OBJSTATE 0x09, with the word that is refused (R186, R189). -/
  | refused (p : Nat)
  | out (w : W32)
deriving DecidableEq, Repr

/-- Where a RETURN, REDIRECT or COMPLETE entry acts: a word, no word, or a redirect out of the launch's regions. -/
inductive Target where
  | word (p : Nat)
  | nowhere
  | bad

def Core.target (c : Core) (key : Nat) (g : W32) (e : BitVec 16) (a : Nat) : Target :=
  match actOf e with
  | 2 =>
    let p := c.rbase (rgnTbl g) (redirOf e) + (a - rgnBase g)
    if c.inLaunch (key / 16) p then .word p else .bad
  | 4 => .nowhere
  | _ => .word a

/-- The indivisible step of a bank on one word: its outcome, the core after it, and whether it wrote the tag. A load that
meets an uncorrectable word raises 0xF0; a store clears the poison, and consults the tag as it is held (R362; log 19). -/
def Core.bankStep (c : Core) (a : Nat) (k : BankKind) (data : W32) : BankOut × Core × Bool :=
  match c.regionOf a with
  | none => (.trapped 0x04 1, c, false)
  | some (key, g) =>
    if !k.load && c.sealedAt a then (.refused a, c, false)
    else if c.lsPoison.contains (a / 4) && k.load then (.trapped 0xF0 2, c, false) else
    let tag := (c.tag a).toNat
    let e := c.entry (rgnTbl g) (16 * k.code + tag)
    match actOf e with
    | 1 => (.parked (codeOf e), c, false)
    | 3 => (.trapped 0x10 (codeOf e + 16 * k.code + 128 * tag), c, false)
    | _ =>
      let mark (c : Core) : Core := if setTagOf e then c.setTag a (newTagOf e) else c
      if setTagOf e && c.sealedAt a then (.refused a, c, false) else
      match c.target key g e a with
      | .bad => (.trapped 0x04 3, c, false)
      | .nowhere => (.out (0xFFFFFFF0#32 ||| BitVec.ofNat 32 (codeOf e)), mark c, setTagOf e)
      | .word p =>
        if k.load then
          (if c.lsPoison.contains (p / 4) then (.trapped 0xF0 2, c, false) else (.out (c.word p), mark c, setTagOf e))
        else if p != a && c.sealedAt p then (.refused p, c, false)
        else (.out 0#32, mark (c.setWord p data), setTagOf e)

/-- The word lies in a SEALED object whose marked lines are not being dropped. -/
def Core.sealedFast (c : Core) (a : Nat) : Bool :=
  c.objs.ents.any (fun e => e.2.st == .sealed_ && e.2.drops == 0 && decide (e.2.base ≤ a) && decide (a < e.2.base + e.2.bytes))

/-- The words of a 128-byte line of the store that lie in SEALED objects and read without a wait, a trap or a change of tag: those
that another core's L1 holds when a load of one of them fills the line (R139; log 26). -/
def Core.lineWords (c : Core) (a : Nat) : BitVec 32 :=
  (List.range 32).foldl (fun acc i =>
    let w := lineOf a + 4 * i
    if c.sealedFast w && (match c.bankStep w .rld 0#32 with | (.out _, _, wrote) => !wrote | _ => false) then acc ||| (1#32 <<< i) else acc) 0#32

/-! ### Re-evaluation (R122) -/

/-- One pass over the accesses parked on a word, in order of parking. An access that must still wait keeps the wake class of its first
parking, though another WAIT entry now holds it (DESIGN CHOICE, log 65). -/
def Core.reevalPass : List Parked → Core → Core × List (Parked × BankOut) × Bool
  | [], c => (c, [], false)
  | p :: r, c =>
    match c.bankStep p.addr p.kind p.data with
    | (.parked _, c', _) => Core.reevalPass r c'
    | (o, c', wrote) =>
      let x := Core.reevalPass r { c' with parked := c'.parked.erase p }
      (x.1, (p, o) :: x.2.1, wrote || x.2.2)

/-- Reeval(a): passes until one writes no tag. -/
def Core.reeval (a : Nat) : Nat → Core → Core × List (Parked × BankOut)
  | 0, c => (c, [])
  | k + 1, c =>
    let x := Core.reevalPass (c.parked.filter (fun p => p.addr == a)) c
    if x.2.2 then
      let y := Core.reeval a k x.1
      (y.1, x.2.1 ++ y.2)
    else (x.1, x.2.1)

/-! ### Answers (R122 to R126, R147, R237) -/

/-- An own lane word is settled: it joins the slot's residue, and a slot with nothing left to wait for becomes READY. -/
def Dev.settleOwn (d : Dev) (h n lane part : Nat) (o : BankOut) : Dev :=
  let ent : ResLane := match o with
    | .trapped cause sub => ⟨lane, part, 0#32, some (cause, sub)⟩
    | .refused p => ⟨lane, part, BitVec.ofNat 32 p, some (0x41, 9)⟩
    | .out w => ⟨lane, part, w, none⟩
    | .parked _ => ⟨lane, part, 0#32, none⟩
  let d := d.updSlot h n (fun s => { s with residue := s.residue ++ [ent] })
  let left := (d.core h).parked.any (fun p => match p.src with | .own m _ _ => m == n | _ => false)
  if ent.trap.isSome || !left then d.wakeSlot h n (fun w => w == .bank) else d

/-- A window access is settled at its core: the requester learns of it. A refused store holds back what its slot sent later
to this core, until the fault is settled; its report names the word that is refused. -/
def Dev.settleRemote (d : Dev) (a : RemoteAcc) (o : BankOut) : Dev :=
  let back (r : RReply) : Dev := d.send (chanOf 5 a.dst (slotKey a.h a.n)) (.remoteAccessReply a.h a.n a.op a.idx r)
  let bad (x : RemoteAcc) (cause sub : Nat) : Dev :=
    if !a.store then back (.trapped cause sub)
    else if (d.slot a.h a.n).winStores.contains a.op then
      (d.updSlot a.h a.n (fun s => { s with refused := s.refused ++ [a] })).first [.windowStoreRefused x cause sub]
    else d
  match o with
  | .parked _ => back .parked
  | .out w => back (if a.store then .performed else .data w ((d.core a.dst).sealedAt a.addr))
  | .trapped cause sub => bad a cause sub
  | .refused p => bad { a with addr := p } 0x41 9

/-- A landing that its place refuses (R225): the word lies outside the map, or is uncorrectable. The barrier records FETCHFLT with the
destination as operand, and the command is to stop; one that has executed its last step leaves FSEQ and the address at once. -/
def Dev.landingFails (d : Dev) (w : EngWord) (cause : Nat) : Dev :=
  let sub := 16 * (if w.cq then 7 else 5) + (if cause = 0xF0 then 6 else 5)
  let va : W64 := BitVec.ofNat 64 (windowOf w.dst w.addr)
  (d.cmdError w.h w.cq w.seq 0x61 sub w.step).updCore w.h (fun c => c.updEq w.cq (fun e =>
    let e := e.updCmd w.seq (fun c => { c with stop := some (0x61, sub, va, w.step) })
    if e.live.any (fun c => c.seq == w.seq) then { e with fseq := e.shown w.seq, faddr := va &&& ~~~(0x7F#64) } else e))

/-- An engine word has landed, or will not (R237): it counts as reported. -/
def Dev.settleLanding (d : Dev) (w : EngWord) (o : BankOut) : Dev :=
  let d := match o with
    | .trapped 0x10 sub => d.cmdError w.h w.cq w.seq 0x10 (sub % 16) 0
    | .trapped cause _ => d.landingFails w cause
    | .refused _ => d.cmdError w.h w.cq w.seq 0x41 9 0
    | .out _ | .parked _ => d
  d.send (chanOf 3 w.h (if w.cq then 1 else 0)) (.engineReport w.h w.cq w.seq 4)

/-- A word that a copy command leaves unread is recorded on its barrier as it is met (R237). -/
def Dev.noteRead (d : Dev) (h : Nat) (cq : Bool) (o : BankOut) : Dev :=
  match ((d.core h).eq cq).q.head?, o with
  | some c, .trapped 0x10 sub => if cq then d.barError h c.bar 0x10 (sub % 16) 0 else d
  | some c, .refused _ => if cq then d.barError h c.bar 0x41 9 0 else d
  | _, _ => d

/-- A word that a queue's present step reads has come: the command at the queue's head takes it. -/
def Dev.settleRead (d : Dev) (h : Nat) (cq : Bool) (i : Nat) (o : BankOut) : Dev :=
  let bad (c : Cmd) (cause sub : Nat) : Cmd :=
    { c with trapped := c.trapped ++ [i], parked := c.parked.erase i, rd := c.rd.put i (BitVec.ofNat 32 (256 * cause + sub % 16)) }
  let f (c : Cmd) : Cmd := match o with
    | .out w => { c with rd := c.rd.put i w, parked := c.parked.erase i }
    | .trapped cause sub => bad c cause sub
    | .refused _ => bad c 0x41 9
    | .parked _ => c
  (d.noteRead h cq o).updCore h (fun c => c.updEq cq (fun e => match e.q with | x :: r => { e with q := f x :: r } | [] => e))

/-- A core takes up the engine words of a queue that it held back (R126). -/
def Dev.takeUpEng (d : Dev) (t h : Nat) (cq : Bool) : Dev :=
  let ws := (d.core t).heldEng.filter (fun w => w.h == h && w.cq == cq)
  if ws.isEmpty then d else
  (d.updCore t (fun c => { c with heldEng := c.heldEng.filter (fun w => !(w.h == h && w.cq == cq)) })).first (ws.map Ev.engineWordLanding)

/-- A re-evaluated access goes to its source, and what its source had held back is taken up. -/
def Dev.deliver (h : Nat) (d : Dev) (x : Parked × BankOut) : Dev :=
  match x.1.src with
  | .own n lane part => d.settleOwn h n lane part x.2
  | .remote a =>
    let d := d.settleRemote a x.2
    if (d.slot a.h a.n).refused.any (fun r => r.dst == h) then d else d.takeUp h a.h a.n
  | .landing w => (d.settleLanding w x.2).takeUpEng h w.h w.cq
  | .engine eh cq i => (d.settleRead eh cq i x.2).takeUpEng h eh cq

/-- Reeval of a word at a core, with its deliveries. -/
def Dev.reeval (d : Dev) (h a : Nat) : Dev :=
  let c := d.core h
  let x := c.reeval a (c.parked.length + 1)
  x.2.foldl (Dev.deliver h) (d.updCore h (fun _ => x.1))

/-- The word addresses on which something is parked. -/
def Core.parkedAt (c : Core) (p : Nat → Bool) : List Nat := ((c.parked.map (·.addr)).dedup).filter p

/-- Re-evaluation of every parked word that p names, once each (R127, R128). -/
def Dev.reevalWhere (d : Dev) (h : Nat) (p : Nat → Bool) : Dev :=
  ((d.core h).parkedAt p).foldl (fun d a => d.reeval h a) d

/-- A tag written by an instruction or an engine, and the re-evaluation it starts (R122). -/
def Dev.writeTag (d : Dev) (h a : Nat) (t : BitVec 4) : Dev := (d.updCore h (fun c => c.setTag a t)).reeval h a

/-- Bank(addr) (R112). -/
def bankOf (a : Nat) : Nat := a / 4 % 16

/-- BankOp of R119 with Park of R121: an access that must wait enters its bank's list of 32, or meets WAITOVF. -/
def Dev.bankOp (d : Dev) (h a : Nat) (k : BankKind) (data : W32) (src : ParkSrc) : BankOut × Dev :=
  let c := d.core h
  match c.bankStep a k data with
  | (.parked cls, _, _) =>
    if (c.parked.filter (fun p => bankOf p.addr == bankOf a)).length ≥ 32 then (.trapped 0x12 (bankOf a), d)
    else (.parked cls, d.updCore h (fun c => { c with parked := c.parked ++ [⟨a, k, data, cls, src⟩] }))
  | (o, c', wrote) =>
    let d := d.updCore h (fun _ => c')
    (o, if wrote then d.reeval h a else d)

/-- Accesses of one kind of source leave the wait lists without effect (R125). -/
def Core.withdraw (c : Core) (p : ParkSrc → Bool) : Core := { c with parked := c.parked.filter (fun x => !p x.src) }
/-- The parked lanes of an own slot. -/
def Core.withdrawSlot (c : Core) (n : Nat) : Core :=
  c.withdraw (fun s => match s with | .own m _ _ => m == n | _ => false)

end Sys2Proof.Machine
end

