-- ==== Sys2Proof/Machine/Blocks.lean ====
section
/-! DEFINITION. Depot pools, block headers and the prefix table (R240 to R248). -/

namespace Sys2Proof.Machine

/-! ### Pools (R240, R243, R244) -/

/-- Row bytes of an H code and a format (R240), and the frame stride. -/
def rowBytes (hc fmt : Nat) : Nat := 64 * 2 ^ hc * (if fmt = 3 then 2 else 1)
def Pool.rb (p : Pool) : Nat := rowBytes p.hc.toNat p.fmt.toNat
def Pool.stride (p : Pool) : Nat := 256 + 32 * p.rb
def Dev.pool (d : Dev) (dep pool : Nat) : Pool := d.depots.get .init (16 * dep + pool)
def Dev.updPool (d : Dev) (dep pool : Nat) (f : Pool → Pool) : Dev := { d with depots := d.depots.upd .init (16 * dep + pool) f }

/-- The configured pool of a terrace in whose frames an address lies, by number. -/
def Dev.poolAt (d : Dev) (terr va : Nat) : Option Nat :=
  (d.depots.ents.find? (fun e => e.2.v && e.2.terr == terr && decide (e.2.base.toNat ≤ va) &&
    decide (va < e.2.base.toNat + e.2.count * e.2.stride))).map (·.1)

/-- A pop: the index on top, and the pool without it; none from an empty list. -/
def Pool.pop (p : Pool) : Option (Nat × Pool) :=
  match p.pushed with
  | i :: r => some (i, { p with pushed := r })
  | [] => if p.fresh < p.count then some (p.fresh, { p with fresh := p.fresh + 1 }) else none
/-- A push places its index on top. -/
def Pool.push (p : Pool) (i : Nat) : Pool := { p with pushed := i :: p.pushed }
/-- Frames on the free list. -/
def Pool.free (p : Pool) : Nat := p.pushed.length + (p.count - p.fresh)
/-- The pool is configured and belongs to the terrace (R244). -/
def Pool.of (p : Pool) (terr : Nat) : Bool := p.v && p.terr == terr
/-- The index of a frame that starts at an address. -/
def Pool.index (p : Pool) (va : Nat) : Option Nat :=
  let o := va - p.base.toNat
  if p.v && decide (p.base.toNat ≤ va) && o % p.stride == 0 && decide (o / p.stride < p.count) then some (o / p.stride) else none
/-- The address of a frame. -/
def Pool.frame (p : Pool) (i : Nat) : W64 := p.base + BitVec.ofNat 64 (i * p.stride)

/-! ### Headers (R241) -/

/-- Fields of the first line of a header. -/
def hPos (l : Line) : W32 := Line.w32 l 0
def hCount (l : Line) : Nat := (Line.byte l 4).toNat
def hDep (l : Line) : Nat := (Line.byte l 5).toNat / 16
def hPool (l : Line) : Nat := (Line.byte l 5).toNat % 16
def hFmt (l : Line) : Nat := (Line.byte l 6).toNat % 8
def hHc (l : Line) : Nat := (Line.byte l 6).toNat / 16 % 4
def hIns (l : Line) : Bool := (Line.byte l 7).getLsbD 0
def hHash (l : Line) : W64 := Line.w64 l 8
def hCtx (l : Line) : W32 := Line.w32 l 16
def hRefs (l : Line) : W32 := Line.w32 l 20
def hNext (l : Line) : W64 := Line.w64 l 24
def hScale (l : Line) (r : Nat) : W32 := Line.w32 l (32 + 4 * r)
/-- Bytes of a row by a header's format. -/
def hRb (l : Line) : Nat := rowBytes (hHc l) (hFmt l)

/-- The checks of R242 on a header that has been read: 0, or the sub-code of KVTAG. -/
def Dev.frameCheck (d : Dev) (terr : Nat) (f : W64) (l : Line) : Nat :=
  if ((d.pool (hDep l) (hPool l)).index f.toNat).isNone || hRefs l == 0#32 then 2
  else if hCtx l != (d.terrace terr).ctx then 1 else 0

/-- The first 32 bytes of a new block's header (R252). -/
def newHeader (pos : W32) (dep pool fmt hc : Nat) (tag : W32) : BitVec 256 :=
  0#64 ++ 1#32 ++ tag ++ 0#64 ++ 0#8 ++ BitVec.ofNat 8 (fmt + 16 * hc) ++ BitVec.ofNat 8 (16 * dep + pool) ++ 0#8 ++ pos

/-! ### The prefix table (R246 to R248) -/

/-- Mix of R246. -/
def kvMix (z : W64) : W64 :=
  let z := z ^^^ (z >>> 29)
  let z := z * 0x9E6C63D0676A9A99#64
  let z := z ^^^ (z >>> 32)
  let z := z * 0xD6E8FEB86659FD93#64
  z ^^^ (z >>> 29)

/-- Chain of R246 over sixteen tokens. -/
def kvChain (p : W64) (ts : List W32) : W64 := ts.foldl (fun z t => kvMix (z ^^^ t.setWidth 64)) p

/-- Entry i of a bucket, and its fields. -/
def bucketEnt (b : V512) (i : Nat) : BitVec 128 := b.extractLsb' (128 * i) 128
def entValid (e : BitVec 128) : Bool := e.getLsbD 127
def entHash (e : BitVec 128) : W64 := e.extractLsb' 0 64
def entCtx (e : BitVec 128) : W32 := e.extractLsb' 64 32
def entDep (e : BitVec 128) : Nat := (e.extractLsb' 123 4).toNat
def entPool (e : BitVec 128) : Nat := (e.extractLsb' 119 4).toNat
def entIndex (e : BitVec 128) : Nat := (e.extractLsb' 96 23).toNat
def mkEnt (hash : W64) (ctx : W32) (dep pool ix : Nat) : BitVec 128 :=
  1#1 ++ BitVec.ofNat 4 dep ++ BitVec.ofNat 4 pool ++ BitVec.ofNat 23 ix ++ ctx ++ hash
/-- An entry matches a lookup (R248). -/
def entMatches (e : BitVec 128) (hash : W64) (ctx : W32) : Bool := entValid e && entHash e == hash && entCtx e == ctx

def Dev.bucket (d : Dev) (b : Nat) : V512 := d.buckets.get 0#512 b
/-- Entry i of a bucket replaced; an empty bucket is not listed. -/
def Dev.setEnt (d : Dev) (b i : Nat) (e : BitVec 128) : Dev :=
  let v := (d.bucket b &&& ~~~((BitVec.allOnes 128).setWidth 512 <<< (128 * i))) ||| (e.setWidth 512 <<< (128 * i))
  { d with buckets := if v == 0#512 then d.buckets.erase b else d.buckets.put b v }
/-- The bucket of a hash. -/
def bucketOf (hash : W64) : Nat := (hash.extractLsb' 0 20).toNat
/-- A matching entry of a bucket. -/
def Dev.findEnt (d : Dev) (hash : W64) (ctx : W32) : Option (BitVec 128) :=
  ((List.range 4).map (bucketEnt (d.bucket (bucketOf hash)))).find? (fun e => entMatches e hash ctx)

end Sys2Proof.Machine
end

