-- ==== Sys2Proof/Machine/Global.lean ====
section
/-! DEFINITION. Global access: load lanes and their read points, the L1, buffered stores, prefetch and invalidation, walks
that end, faults found after issue, and the two phases of a group at the homes (R29, R138 to R149, R165, R204, R207, R317,
R323, R324). -/

namespace Sys2Proof.Machine

/-! ### The L1 (R139) -/

/-- A line enters the L1 of 1,024 lines (log 7). -/
def Core.fillL1 (c : Core) (pick va : Nat) (l : CLine) : Core :=
  { c with l1 := (⟨makeRoom 1024 pick (c.l1.erase (lineOf va)).ents⟩ : AMap CLine).put (lineOf va) l }

/-- An unreleased group of the core wrote the line: a read of it is not kept in the L1 (R149; log 25). -/
def Dev.wroteLine (d : Dev) (h va : Nat) : Bool := d.groups.any (fun g => g.core == h && g.lines.any (fun l => l.va == lineOf va))

/-- The line of a load stays in the L1 with the leaf it was translated by. -/
def Dev.keepLine (d : Dev) (h va : Nat) (line : Line) : Dev :=
  if d.wroteLine h va then d else
  match d.findLeaf (districtOf h) va with
  | some lf => d.updCore h (fun c => c.fillL1 (d.victim (lineOf va)) va ⟨line, false, some lf, BitVec.allOnes 32⟩)
  | none => d

/-! ### Outstanding loads -/

def Dev.op? (d : Dev) (h n id : Nat) : Option LongOp := (d.slot h n).ops.find? (fun o => o.id == id)
def Dev.updOp (d : Dev) (h n id : Nat) (f : LongOp → LongOp) : Dev :=
  d.updSlot h n (fun s => { s with ops := s.ops.map (fun o => if o.id == id then f o else o) })
/-- Access number i of an instruction changed. -/
def LongOp.updAcc (o : LongOp) (i : Nat) (f : Acc → Acc) : LongOp :=
  { o with acc := o.acc.zipIdx.map (fun a => if a.2 == i then f a.1 else a.1) }

/-- An access still on its way. -/
def AccSt.flying : AccSt → Bool
  | .xlat | .home _ | .window | .parked => true
  | .got | .page _ | .prot _ _ | .bad _ _ => false

/-- A protection failure is reported before PAGE, PAGE before what the data brought (R148, R323). -/
def AccSt.rank : AccSt → Nat
  | .prot _ _ => 0
  | .page _ => 1
  | .bad _ _ => 2
  | .xlat | .home _ | .window | .parked | .got => 3
/-- Cause and sub-code of a faulting access. -/
def AccSt.cause : AccSt → Nat × Nat
  | .prot c b | .bad c b => (c, b)
  | .page b => (0x20, b)
  | .xlat | .home _ | .window | .parked | .got => (0, 0)

/-- The faulting accesses that the next fault of the instruction reports: of those that none reports yet, the ones of first rank. -/
def LongOp.hits (o : LongOp) : List Acc :=
  let us := o.acc.filter (fun a => a.st.faulty && a.flt == 0)
  us.filter (fun a => us.all (fun b => decide (a.st.rank ≤ b.st.rank)))

/-- The fault of an instruction: its lowest lane's, with the lanes it reports. -/
def LongOp.fault (o : LongOp) : Option Deferred :=
  match o.hits with
  | a :: _ => some ⟨a.st.cause.1, a.st.cause.2, o.pc, a.va - BitVec.ofNat 64 (4 * a.part), ofBits (fun l => o.hits.any (fun x => x.lane == l)),
      a.st.rank == 1, some o.id, 0⟩
  | [] => none

/-- A line of an ldkr as a lane of an ORDERED slot sees it: under the own bytes that stand for the lane and the part (R204). -/
def Acc.seen (a : Acc) (own : List Acc) (l p : Nat) : Acc :=
  match own.find? (fun x => x.lane == l && x.part == p) with
  | some x => { a with line := Line.over a.line x.line x.own }
  | none => a
/-- A header's or a row's line as an ldkr read it, moved to start at the byte accessed. -/
def Acc.from_ (a : Acc) : Line := BitVec.ofNat 1024 (a.line.toNat / 2 ^ (8 * (a.va.toNat % 128)))

/-- The fault of an ldkr (R256): its header's own, then what the header fails, then its row's. -/
def Dev.ldkrFault (d : Dev) (terr : Nat) (off : BitVec 24) (o : LongOp) : Option Deferred :=
  let one (a : Acc) : Option Deferred := (LongOp.fault { o with acc := [a] }).map (fun f => { f with lanes := o.mask })
  match o.acc with
  | hd :: rest =>
    (one hd).or (
      let mk (cause sub : Nat) (a : W64) : Option Deferred := some ⟨cause, sub, o.pc, a, o.mask, false, some o.id, 0⟩
      let l := (hd.seen rest (firstLane o.mask) 2).from_
      let k := d.frameCheck terr hd.va l
      if k ≠ 0 then mk 0x72 k hd.va
      else if off.toInt % (16 * (if hFmt l = 3 then 2 else 1)) ≠ 0 then mk 0x05 0 (hd.va + 256#64 + off.signExtend 64)
      else if off.toInt < 0 ∨ (16 * hRb l : Int) ≤ off.toInt then mk 0x72 3 hd.va
      else rest.findSome? one)
  | [] => none

/-- The accesses that a fault reports carry its number: an ldkr's first when it failed, those the fault counts, or the first, which
brought what fails (R298). -/
def LongOp.blame (o : LongOp) (f : Deferred) : LongOp :=
  let first := (o.acc.take 1).any (fun a => a.st.faulty && a.flt == 0)
  match o.kind with
  | .ldkr _ _ _ =>
    if first then o.updAcc 0 (fun a => { a with flt := f.id })
    else if o.hits.isEmpty then o.updAcc 0 (fun a => { a with st := .bad f.cause f.sub, flt := f.id })
    else { o with acc := o.acc.map (fun a => if o.hits.contains a then { a with flt := f.id } else a) }
  | _ => { o with acc := o.acc.map (fun a => if o.hits.contains a then { a with flt := f.id } else a) }

/-- The next fault of an instruction that can be told (R29, R323): once its lanes are translated, whatever else is in flight. An ldkr's
header decides first; rtab is judged when it is presented. -/
def Dev.nextFault (d : Dev) (terr : Nat) (o : LongOp) : Option Deferred :=
  match o.kind with
  | .rtab => none
  | .ldkr _ off _ =>
    let hd := o.acc.take 1
    if hd.any (fun a => a.st.faulty && a.flt == 0) || (!o.acc.any (fun a => a.st.flying) && !hd.any (fun a => a.st.faulty)) then
      d.ldkrFault terr off o
    else none
  | _ => if o.acc.any (fun a => a.st == .xlat) then none else o.fault

/-- The faults of an instruction wait for the slot's next turn, each under a number of its own. -/
def Dev.fileFaults (h n id : Nat) : Nat → Dev → Dev
  | 0, d => d
  | k + 1, d =>
    match (d.op? h n id).bind (fun o => (d.nextFault (terrOf (d.slot h n).lk) o)) with
    | none => d
    | some f =>
      let f := { f with id := d.count + 1 }
      Dev.fileFaults h n id k
        { (d.updOp h n id (fun o => o.blame f)).updSlot h n (fun s => { s with defer := s.defer ++ [f] }) with count := d.count + 1 }

/-- Faults of an instruction that are filed and not raised yet are taken back, to be told together with what has failed since: one record
names every lane that has failed when it is raised (R29, R323). An ldkr's stand, each for a test of its own. -/
def Dev.refile (d : Dev) (h n id : Nat) : Dev :=
  match d.op? h n id with
  | some o =>
    match o.kind with
    | .ldkr _ _ _ => d
    | _ =>
      let fs := ((d.slot h n).defer.filter (fun f => f.op == some id)).map (·.id)
      (d.updOp h n id (fun o => { o with acc := o.acc.map (fun a => if a.st.faulty && fs.contains a.flt then { a with flt := 0 } else a) })).updSlot h n
        (fun s => { s with defer := s.defer.filter (fun f => f.op != some id) })
  | none => d

/-- What an answer to an instruction's access brings: faults that wait for the slot (R29), and the result when every access has its
data. -/
def Dev.settleOp (d : Dev) (h n id : Nat) : Dev :=
  let d := Dev.fileFaults h n id 3 (d.refile h n id)
  match d.op? h n id with
  | none => d
  | some o =>
    if o.fin || o.kind == .rtab || o.acc.any (fun a => a.st != .got) then d
    else (d.updOp h n id (fun o => { o with fin := true })).send 0 (.resultLanding h n id)

/-- The rights an instruction's accesses need (R321 Table 3). -/
def OpKind.need : OpKind → List Right
  | .gld _ | .gldx _ | .ldkr _ _ _ | .kvlook _ _ | .rtab | .value => [.r]
  | .lease | .amo _ _ _ _ => [.r, .w, .a]

/-- A kvlook ends (R250): the hash and the frame, or 0, land. -/
def Dev.lookDone (d : Dev) (h n id : Nat) (frame : W64) : Dev :=
  (d.updOp h n id (fun o => match o.kind with
    | .kvlook x a => { o with acc := [], ares := [(x, frame), (a, o.hash)], fin := true }
    | _ => o)).send 0 (.resultLanding h n id)

/-- A translated access goes to the home: a load reads there, a lease or an amo enters the reservation queue. -/
def Dev.toHome (d : Dev) (h n : Nat) (o : LongOp) (i pa : Nat) : Dev :=
  match o.kind with
  | .lease =>
    let va := lineOf ((o.acc[i]?).map (fun a => a.va.toNat) |>.getD 0)
    let d := d.updSlot h n (fun s => { s with leases := s.leases.map (fun r => if r.op == o.id && !r.granted then { r with pa := lineOf pa } else r) })
    d.send 0 (.leaseRequestArrival ⟨h, n, va, lineOf pa, none⟩)
  | .amo _ _ _ _ => d.send 0 (.leaseRequestArrival ⟨h, n, lineOf o.addr.toNat, lineOf pa, some o.id⟩)
  | .kvlook _ _ => d.send 0 (.headerHomeTest (.look h n o.id pa o.addr o.hash (d.terrace (terrOf (d.slot h n).lk)).ctx))
  | _ => d.send 0 (.homeRead h n o.id i pa)

/-- An access whose page has been walked is checked and goes on (R318, R323); it stays as it is while its domain entry cannot
be read. -/
def Dev.resolve (m : Memory) (d : Dev) (h n id i : Nat) : Dev :=
  match d.op? h n id with
  | none => d
  | some o =>
    match o.acc[i]? with
    | none => d
    | some a =>
      let who := (d.slot h n).who h
      match d.translate m who o.kind.need a.va with
      | .miss => d.askWalk (districtOf h) a.va.toNat who.terr
      | .page sub => (d.updOp h n id (fun o => o.updAcc i (fun a => { a with st := .page sub }))).settleOp h n id
      | .bad c b =>
        match o.kind with
        | .kvlook _ _ => d.lookDone h n id 0#64
        | _ => (d.updOp h n id (fun o => o.updAcc i (fun a => { a with st := .prot c b }))).settleOp h n id
      | .ok pa l =>
        ((d.fillPlb m who l.dom).updOp h n id (fun o => o.updAcc i (fun a => { a with st := .home pa }))).toHome h n o i pa

/-- Accesses of a district that wait for a page, by core, slot, instruction and number. -/
def Dev.waitingFor (d : Dev) (dist va : Nat) : List (Nat × Nat × Nat × Nat) :=
  d.cores.ents.flatMap (fun c =>
    if districtOf c.1 != dist then [] else
    c.2.allSlots.flatMap (fun s => s.2.ops.flatMap (fun o =>
      (o.acc.zipIdx.filter (fun a => a.1.st == .xlat && a.1.va.toNat / 4096 == va / 4096)).map (fun a => (c.1, s.1, o.id, a.2)))))

/-- U of a leaf that stands at an address is set there as a one-line group in the manner of amo or (R317): behind whoever holds the
line, and after a host that caches it. -/
def Dev.setU (m : Memory) (d : Dev) (fn entry : Nat) : Option Dev :=
  let b := lineBytes entry (m.read entry ||| 0x40#8).toNat 1
  d.groupNow ⟨lineOf entry, lineOf entry, b.1, b.2, none⟩ fn [.nothing]

/-- A walk ends (R317, R318): its leaf enters the district's cache, with U set at its home, and what waited for the page goes
on; while a line on its way is pending, has no way in its quay, or cannot take U, the walk goes on. -/
def execTableWalkDone (dist va : Nat) : State → Host.Outcome State Fault Refusal :=
  onDev (fun m d =>
    let mine (w : Nat × Nat × Nat) : Bool := w.1 == dist && w.2.1 == va
    let fn := ((d.walks.find? mine).map (·.2.2)).getD 32
    let past (d : Dev) : Dev := { d with walks := d.walks.filter (fun w => !mine w) }
    let on (d : Dev) : Dev := (d.waitingFor dist va).foldl (fun d x => d.resolve m x.1 x.2.1 x.2.2.1 x.2.2.2) d
    let again (d : Dev) : Dev := d.later 1 (.tableWalkDone dist va)
    match d.walk m va with
    | .busy => again d
    | r =>
      match d.walkVisit m fn va, r with
      | (v, false), _ => again v
      | (v, true), .leaf l entry =>
        let l' : Leaf := { l with w0 := l.w0 ||| 0x40#64 }
        if l.w0.getLsbD 6 then on ((past v).cacheLeaf dist l')
        else
          (match (past v).setU m fn entry with
           | some v => on (v.cacheLeaf dist l')
           | none => again (d.askHost (lineOf entry)))
      | (v, true), _ => on (past v))

/-! ### Issue of a load (R146 to R148) -/

/-- Where a load lane stands at its issue. -/
inductive LoadAt where
  | bad (cause sub : Nat)
  | again
  | at_ (st : AccSt) (line : Line)

/-- The instruction has still to read, or may yet read, the line of a physical address (its page not yet walked, the place of the line in
the page tells). -/
def LongOp.reads (o : LongOp) (va : W64) (pa : Nat) : Bool :=
  !o.fin && o.acc.any (fun a => match a.st with
    | .home q => lineOf q == lineOf pa
    | .xlat => a.va.toNat % 4096 / 128 == va.toNat % 4096 / 128
    | _ => false)

/-- A lane of a load at issue: its checks as far as its translation is at hand, and the L1. Lanes of an ORDERED task read
their home even when the L1 holds the line (R204), and so does a lane whose line an earlier instruction of the slot has still to read,
so that no read point goes backwards (R149; log 66). -/
def Ctx.loadLane (c : Ctx) (l : Nat) (va : W64) (words : Nat) : LoadAt :=
  let k := c.d.core c.h
  let line := k.l1.find? (lineOf va.toNat)
  if isWindow va then
    match c.d.windowFault (terrOf c.s.lk) va with
    | some e => .bad e.1 e.2
    | none =>
      match line.filter (fun x => (List.range words).all (fun i => x.words.getLsbD (va.toNat % 128 / 4 + i))) with
      | some x => .at_ .got x.data
      | none => .at_ .window 0#1024
  else if 2 ^ 57 ≤ va.toNat then .bad 0x21 2
  else
    let who := c.s.who c.h
    let own := c.s.kind == .ordered && c.s.laneTask l != 0#32
    let leaf := match line with
      | some x => x.leaf.or (c.d.findLeaf (districtOf c.h) va.toNat)
      | none => c.d.findLeaf (districtOf c.h) va.toNat
    match leaf with
    | none => .at_ .xlat 0#1024
    | some lf =>
      match c.d.protect c.m who [.r] lf with
      | none => .again
      | some (some e) => .bad e.1 e.2
      | some none =>
        match line with
        | some x => if (own || c.s.ops.any (fun o => o.reads va (lf.pa va.toNat))) && !x.sealed_ then .at_ (.home (lf.pa va.toNat)) 0#1024 else .at_ .got x.data
        | none => .at_ (.home (lf.pa va.toNat)) 0#1024

/-- The own bytes of a lane's line (R144, R204). -/
def Ctx.ownBytes (c : Ctx) (l : Nat) (va : W64) : Line × LineMask :=
  if isWindow va then (0#1024, 0#128)
  else
    let k := c.d.core c.h
    overParts (k.recParts (k.ownRecs c.buffer.1 c.s (c.s.laneTask l)) va.toNat ++ c.d.lineParts c.h c.n va.toNat) 0#1024

/-- The messages of an instruction's accesses. One through the window goes to its core's banks, its own core's too, in the order sent. -/
def LongOp.sends (o : LongOp) (h n lk : Nat) : List (Nat × Ev) :=
  o.acc.zipIdx.filterMap (fun a =>
    match a.1.st with
    | .home pa => some (0, .homeRead h n o.id a.2 pa)
    | .window => some (chanOf 4 (slotKey h n) (windowCore a.1.va), .remoteAccess
        ⟨windowCore a.1.va, windowAddr a.1.va, false, 0#32, h, n, o.id, a.2, a.1.lane, o.pc, a.1.va, lk⟩)
    | _ => none)

/-- A load issues: it is outstanding, its accesses are on their way, and the signature of each lane's task is marked. -/
def Ctx.startLoad (c : Ctx) (o : LongOp) : Res :=
  let d := { c.d.updSlot c.h c.n (fun s => { s with ops := s.ops ++ [o] }) with count := c.d.count + 1 }
  let d := o.acc.foldl (fun d a =>
    if isWindow a.va || o.kind == .rtab || c.s.kind != .ordered || c.s.laneTask a.lane == 0#32 then d else d.setSig c.s.lk (c.s.laneTask a.lane) (lineOf a.va.toNat)) d
  let d := d.sendAll (o.sends c.h c.n c.s.lk)
  let d := (o.acc.filter (fun a => a.st == .xlat)).foldl (fun d a => d.askWalk (districtOf c.h) a.va.toNat (terrOf c.s.lk)) d
  .done (d.settleOp c.h c.n o.id)

/-- A global load of words: ALIGN, then the protection causes that can be told at issue, else it issues (R148). `parts` is 1
or 2 words a lane. -/
def Ctx.load (c : Ctx) (kind : OpKind) (vd : List Nat) (mask : BitVec 16) (kz : Bool) (parts : Nat) (as : List (Nat × W64)) : Res :=
  match as.find? (fun a => a.2.toNat % (4 * parts) != 0) with
  | some a => c.faultLanes 0x05 0 a.2 mask
  | none =>
    let ls := as.map (fun a => (a.1, a.2, c.loadLane a.1 a.2 parts))
    match ls.findSome? (fun x => match x.2.2 with | .bad e b => some (x.2.1, e, b) | _ => none) with
    | some x => c.faultLanes x.2.1 x.2.2 x.1 mask
    | none =>
      if c.bufferAway || ls.any (fun x => match x.2.2 with | .again => true | _ => false) then .skip c.d else
      let acc : List Acc := ls.flatMap (fun x =>
        let own := c.ownBytes x.1 x.2.1
        match x.2.2 with
        | .at_ .got line => [⟨x.1, 0, x.2.1, .got, Line.over line own.1 own.2, own.2, 0⟩]
        | .at_ .window _ => (List.range parts).map (fun p => ⟨x.1, p, x.2.1 + BitVec.ofNat 64 (4 * p), .window, 0#1024, 0#128, 0⟩)
        | .at_ st _ => [⟨x.1, 0, x.2.1, st, own.1, own.2, 0⟩]
        | _ => [])
      let who := c.s.who c.h
      let d := ls.foldl (fun d x => match d.findLeaf (districtOf c.h) x.2.1.toNat with
        | some lf => if isWindow x.2.1 then d else d.fillPlb c.m who lf.dom
        | none => d) c.d
      Ctx.startLoad { c with d := d } ⟨c.d.count, c.s.pc, kind, vd, [], mask, kz, acc, [], [], 0#64, 0#64, false⟩

/-- Active lanes with their addresses. -/
def Slot.lanesAt (s : Slot) (km : KReg) (x : VReg) (base : AReg) (off : BitVec 24) (step : Nat) : List (Nat × W64) :=
  (lanesOf (s.K km.toNat)).map (fun l => (l, s.addr base x off step l))

/-- gld (R146). -/
def execGld (la : BitVec 4) (km : KReg) (kz : Bool) (d x : VReg) (base : AReg) (off : BitVec 24) :
    State → Host.Outcome State Fault Refusal :=
  thread ((useLoad km kz d x base).long la) (fun c =>
    c.load (.gld d.toNat) [d.toNat] (c.s.K km.toNat) kz 1 (c.s.lanesAt km x base off 4))

/-- gldx (R146). -/
def execGldx (la : BitVec 4) (km : KReg) (kz : Bool) (d x : VReg) (base : AReg) (off : BitVec 24) :
    State → Host.Outcome State Fault Refusal :=
  thread (((useLoad km kz d x base).also (wvn (d.toNat + 1))).long la) (fun c =>
    c.load (.gldx d.toNat) [d.toNat, d.toNat + 1] (c.s.K km.toNat) kz 2 (c.s.lanesAt km x base off 8))

/-- A read at a home (R165): the read point. It waits for the slot's earlier reads of the line (R149; log 66), for a pending line, and
for a fill that finds every way pinned. -/
def execHomeRead (h n op idx : Nat) (pa : Nat) : State → Host.Outcome State Fault Refusal :=
  onDev (fun m d =>
    match d.op? h n op with
    | none => d
    | some o =>
      match o.acc[idx]? with
      | none => d
      | some a =>
        if a.st != .home pa then d
        else if ((d.slot h n).ops.takeWhile (fun x => x.id != op)).any (fun x => x.reads a.va pa) then d.later 1 (.homeRead h n op idx pa)
        else if d.pending pa then d.later 1 (.homeRead h n op idx pa)
        else if d.linePoison.contains (lineOf pa) then
          (d.updOp h n op (fun o => o.updAcc idx (fun a => { a with st := .bad 0xF0 3 }))).settleOp h n op
        else
          match d.quay (d.slotFn h n) pa false with
          | none => (d.quayWaited (d.slotFn h n) pa).later 1 (.homeRead h n op idx pa)
          | some d =>
            let line := m.line (lineOf pa)
            let d := d.keepLine h a.va.toNat line
            let d := if homeOf pa == 512 then d else d.delay h (homeOf pa / 8)
            (d.updOp h n op (fun o => o.updAcc idx (fun a => { a with st := .got, line := Line.over line a.line a.own }))).settleOp h n op)

/-- The answer of a window access reaches its slot (R147, R344). -/
def execRemoteAccessReply (h n op idx : Nat) (r : RReply) : State → Host.Outcome State Fault Refusal :=
  onDev (fun _ d =>
    match r with
    | .performed =>
      (d.updSlot h n (fun s => { s with winStores := s.winStores.erase op })).wakeVisible h n
    | .parked => d.updOp h n op (fun o => o.updAcc idx (fun a => { a with st := .parked }))
    | .data w sealedWord =>
      match (d.op? h n op).bind (fun o => o.acc[idx]?) with
      | none => d
      | some a =>
        let t := windowCore a.va
        let k := d.core t
        let base := lineOf (windowAddr a.va)
        let d := d.delay h (t / 36)
        let d := if sealedWord && (k.lineWords base).getLsbD (windowAddr a.va % 128 / 4) then
            d.updCore h (fun c => c.fillL1 (d.victim (lineOf a.va.toNat)) a.va.toNat ⟨k.recLine base, true, none, k.lineWords base⟩) else d
        let line : Line := w.setWidth 1024 <<< (8 * (a.va.toNat % 128))
        ((d.updOp h n op (fun o => o.updAcc idx (fun a => { a with st := .got, line := line }))).settleOp h n op).wakeSlot h n (· == .reply)
    | .trapped cause sub =>
      ((d.updOp h n op (fun o => o.updAcc idx (fun a => { a with st := .bad cause sub }))).settleOp h n op).wakeSlot h n (· == .reply))

/-- A fault found after issue is raised at once in a slot that is not seated (R29). -/
def execDeferredFault (h n : Nat) : State → Host.Outcome State Fault Refusal :=
  onDev (fun m d =>
    match (d.slot h n).st, (d.slot h n).defer with
    | .ready, f :: r | .waiting _, f :: r =>
      let d := d.updSlot h n (fun s => { s with defer := r })
      let t : Trap := ⟨f.cause, f.sub, f.addr, f.lanes⟩
      if f.svc then d.service m h n t true f.pc (fun l => some l.op == f.op && !l.granted) else d.trap m h n t true f.pc
    | _, _ => d)

/-! ### Stores (R143, R146, R148, R207) -/

/-- What checking the lanes of a store comes to. -/
inductive StoreAt where
  | ok (d : Dev)
  | skip (d : Dev)
  | bad (va : W64) (cause sub : Nat)
  | page (va : W64) (sub : Nat) (lanes : BitVec 16)

/-- Every active lane translated and checked: the lowest protection failure, then PAGE. -/
def Ctx.storeLanes (c : Ctx) (as : List (Nat × W64)) : StoreAt :=
  let win := as.filter (fun a => isWindow a.2)
  let rest := as.filter (fun a => !isWindow a.2)
  let w := win.findSome? (fun a => (c.d.windowFault (terrOf c.s.lk) a.2).map (fun e => (a, e)))
  match c.d.translateLanes c.m (c.s.who c.h) [.w] rest with
  | .wait d => .skip d
  | .bad va cause sub =>
    match w with
    | some (a, e) =>
      let l := ((rest.find? (fun x => x.2 == va)).map (·.1)).getD 0
      if a.1 < l then .bad a.2 e.1 e.2 else .bad va cause sub
    | none => .bad va cause sub
  | .page va sub lanes =>
    match w with
    | some (a, e) => .bad a.2 e.1 e.2
    | none => .page va sub lanes
  | .ok _ d =>
    match w with
    | some (a, e) => .bad a.2 e.1 e.2
    | none => .ok d

/-- A word of a store. -/
structure StWord where
  lane : Nat
  va : W64
  data : W32

/-- The words buffered in order, each in its task's record; none when a record is missing (R141, R204). -/
def Ctx.bufferAll (c : Ctx) (d : Dev) (ws : List StWord) : Option Dev :=
  let b := c.buffer
  (ws.foldl (fun (k : Option Core) w => k.bind (fun k =>
    let x := lineBytes w.va.toNat w.data.toNat 4
    k.buffer b.1 b.2 d.count (c.s.laneTask w.lane) w.va.toNat x.1 x.2)) (some (d.core c.h))).map (fun k =>
      { d.updCore c.h (fun _ => k) with count := d.count + 1 })

/-- Closed groups of the slot still occupy records of its buffer. -/
def Ctx.closedRecords (c : Ctx) : Bool := (c.d.core c.h).dir.any (fun e => e.buf == c.buffer.1 && e.gid.isSome)

/-- No record is free in a slot of an ORDERED launch (R207): ended tasks above the slot's lowest lose their records, the other
lanes are shed, and the remaining task waits until it is lowest; then its records commit, it is not speculative any more, and the
store is presented again as records come free. With no other task's record in the buffer the store can never fit (R143 point 4). -/
def Ctx.orderedFull (c : Ctx) : Res :=
  match c.lowestLane with
  | none => c.fault 0x51 1
  | some low =>
    let pair := ((c.d.task? c.s.lk low).map (fun t => descPair t.d)).getD 0
    let ended := (c.d.running c.s.lk).filter (fun t => t.ended && decide (pair < descPair t.d) &&
      (c.d.core c.h).dir.any (fun e => e.buf == c.buffer.1 && e.task == t.d.id))
    let d := ended.foldl (fun d t => d.abort c.s.lk t.d.id d.clock) c.d
    let c := { c with d := d, s := d.slot c.h c.n }
    let d := c.shed
    if d.isLowest c.s.lk low then
      let c := { c with d := d, s := d.slot c.h c.n }
      if !(d.core c.h).dir.any (fun e => e.buf == c.buffer.1) then c.fault 0x51 1
      else c.commitOwn low (fun c => .wait c.d .records)
    else .wait d .lowest

/-- No record is free (R143). A store of a spilling FREE task that needs more lines than its whole buffer holds closes an empty group and
waits for a record that nothing frees (DESIGN CHOICE, log 65: R143 gives it no outcome). -/
def Ctx.full (c : Ctx) : Res :=
  if c.closedRecords then .wait c.d .records
  else if c.s.kind == .freeTask && ((c.d.launch? c.s.lk).map Launch.spillOpt).getD false then
    c.close (fun d => .wait d .records)
  else if c.s.kind == .ordered then c.orderedFull
  else c.fault 0x51 1

/-- A global store: ALIGN, the checks of every lane, then the lanes are buffered in order, and window lanes are sent. A store
into the window is a form of R174. -/
def Ctx.store (c : Ctx) (mask : BitVec 16) (align : Nat) (as : List (Nat × W64)) (words : List StWord) : Res :=
  match as.find? (fun a => a.2.toNat % align != 0) with
  | some a => c.faultLanes 0x05 0 a.2 mask
  | none =>
    match c.storeLanes as with
    | .skip d => .skip d
    | .bad va cause sub => c.faultLanes cause sub va mask
    | .page va sub lanes => c.page sub va lanes
    | .ok d =>
      let go (c : Ctx) : Res :=
        if c.bufferAway then .skip c.d else
        let live := if c.s.kind == .ordered then words.filter (fun w => c.s.laneSet.getLsbD w.lane) else words
        match c.bufferAll c.d (live.filter (fun w => !isWindow w.va)) with
        | none => c.full
        | some d =>
          let win := live.filter (fun w => isWindow w.va)
          let laneVa (w : StWord) : W64 := ((as.find? (fun a => a.1 == w.lane)).map (·.2)).getD w.va
          if win.isEmpty then .done d else
          let id := d.count
          let d := { d.updSlot c.h c.n (fun s => { s with winStores := s.winStores ++ win.map (fun _ => id) }) with count := id + 1 }
          .done (d.sendAll (win.zipIdx.map (fun w => (chanOf 4 (slotKey c.h c.n) (windowCore w.1.va), .remoteAccess
            ⟨windowCore w.1.va, windowAddr w.1.va, true, w.1.data, c.h, c.n, id, w.2, w.1.lane, c.s.pc, laneVa w.1, c.s.lk⟩))))
      let c := { c with d := d }
      if as.any (fun a => isWindow a.2) then c.unspec go else go c

/-- gst (R146). -/
def execGst (km : KReg) (d x : VReg) (base : AReg) (off : BitVec 24) : State → Host.Outcome State Fault Refusal :=
  thread (useStore km d x base) (fun c =>
    let as := c.s.lanesAt km x base off 4
    c.store (c.s.K km.toNat) 4 as (as.map (fun a => ⟨a.1, a.2, lane (c.s.V d.toNat) a.1⟩)))

/-- gstx (R146). -/
def execGstx (km : KReg) (d x : VReg) (base : AReg) (off : BitVec 24) : State → Host.Outcome State Fault Refusal :=
  thread ((useStore km d x base).also (rvn (d.toNat + 1))) (fun c =>
    let as := c.s.lanesAt km x base off 8
    c.store (c.s.K km.toNat) 8 as (as.flatMap (fun a =>
      [⟨a.1, a.2, lane (c.s.V d.toNat) a.1⟩, ⟨a.1, a.2 + 4#64, lane (c.s.V (d.toNat + 1)) a.1⟩])))

/-! ### Prefetch and invalidation (R146) -/

/-- A prefetch lane: dropped, filled, or to be tried again when a walk, a release or a way is there. -/
def Ctx.prefetch (c : Ctx) (d : Dev) (va : W64) : Dev × Bool :=
  if ((d.core c.h).l1.find? (lineOf va.toNat)).isSome then (d, true) else
  if isWindow va then
    let t := windowCore va
    let base := lineOf (windowAddr va)
    if (d.windowFault (terrOf c.s.lk) va).isNone && ((d.core t).lineWords base).getLsbD (windowAddr va % 128 / 4) then
      (d.updCore c.h (fun x => x.fillL1 (d.victim (lineOf va.toNat)) va.toNat ⟨(d.core t).recLine base, true, none, (d.core t).lineWords base⟩), true)
    else (d, true)
  else
    match d.translate c.m (c.s.who c.h) [.r] va with
    | .page _ | .bad _ _ => (d, true)
    | .miss => (d.askFor (c.s.who c.h) va, false)
    | .ok pa _ =>
      if d.pending pa then (d, false)
      else if d.linePoison.contains (lineOf pa) then (d, true)
      else
        match d.quay (d.fnOf c.s.lk) pa false with
        | none => (d.quayWaited (d.fnOf c.s.lk) pa, false)
        | some d => (d.keepLine c.h va.toNat (c.m.line (lineOf pa)), true)

/-- gpf (R146): never faults; the slot skips turns until every lane's line is there or dropped. -/
def execGpf (km : KReg) (x : VReg) (base : AReg) (off : BitVec 24) : State → Host.Outcome State Fault Refusal :=
  thread ⟨idxField x, [], idxUse x ++ [ra base, rk km], none, .all, false⟩ (fun c =>
    let r := (c.s.lanesAt km x base off 4).foldl (fun (p : Dev × Bool) a =>
      let q := c.prefetch p.1 a.2
      (q.1, p.2 && q.2)) (c.d, true)
    if r.2 then .done r.1 else .skip r.1)

/-- ginv (R146). -/
def execGinv (km : KReg) (x : VReg) (base : AReg) (off : BitVec 24) : State → Host.Outcome State Fault Refusal :=
  thread ⟨idxField x, [], idxUse x ++ [ra base, rk km], none, .all, false⟩ (fun c =>
    .done ((c.s.lanesAt km x base off 4).foldl (fun d a => d.updCore c.h (fun k => k.dropLine a.2.toNat)) c.d))

/-! ### The two phases at the homes (R142) -/

/-- A group's lines reach a home. -/
def execGroupPhaseOne (g q : Nat) : State → Host.Outcome State Fault Refusal := onDev (fun _ d => d.phaseOne g q)

/-- A home's acknowledgement: the next home, or the release to all. -/
def execPhaseOneAck (g q : Nat) : State → Host.Outcome State Fault Refusal := onDev (fun m d => d.ackPhase m g q)

end Sys2Proof.Machine
end

