-- ==== Sys2Proof/Machine/Lease.lean ====
section
/-! DEFINITION. Leases, atomics, fences, commit and isync (R150 to R160, R166, R167). -/

namespace Sys2Proof.Machine

/-! ### Requests (R150, R151) -/

/-- A single-address access of rights R, W and A at issue: a fault, a turn to skip, or where it stands. -/
def Ctx.exclusive (c : Ctx) (a : W64) : LoadAt :=
  if 2 ^ 57 ≤ a.toNat then .bad 0x21 2 else
  match c.d.findLeaf (districtOf c.h) a.toNat with
  | none => .at_ .xlat 0#1024
  | some lf =>
    match c.d.protect c.m (c.s.who c.h) [.r, .w, .a] lf with
    | none => .again
    | some (some e) => .bad e.1 e.2
    | some none => .at_ (.home (lf.pa a.toNat)) 0#1024

/-- The request of a lease or an amo issues: outstanding, on its way to the home or to a walk. -/
def Ctx.ask (c : Ctx) (d : Dev) (o : LongOp) (a : W64) (st : AccSt) : Dev :=
  let d := d.updSlot c.h c.n (fun s => { s with ops := s.ops ++ [o] })
  match st with
  | .home pa => d.toHome c.h c.n o 0 pa
  | _ => d.askWalk (districtOf c.h) a.toNat (terrOf c.s.lk)

/-- lease (R151). -/
def execLease (la : BitVec 4) (cls : LeaseCls) (d base : AReg) (off : BitVec 24) : State → Host.Outcome State Fault Refusal :=
  specForm ((useA [wa d, ra base]).long la) (fun c =>
    let a := c.s.addr1 base off
    let ln := lineOf a.toNat
    if a.extractLsb' 0 3 != 0#3 then c.faultAt 0x05 0 a
    else if isWindow a then c.faultAt 0x04 6 a
    else if 2 ≤ c.s.leases.length then c.fault 0x31 1
    else if 16 ≤ (c.d.core c.h).slots.ents.foldl (fun k e => k + e.2.leases.length) 0 then c.fault 0x31 2
    else if c.s.leases.any (fun r => decide (ln ≤ r.va)) then c.fault 0x30 1
    else
      match c.exclusive a with
      | .bad e sub => c.faultAt e sub a
      | .again => .skip c.d
      | .at_ st _ =>
        let id := c.d.count
        let o : LongOp := ⟨id, c.s.pc, .lease, [], [d.toNat], 0#16, false, [⟨0, 0, a, st, 0#1024, 0#128, 0⟩], [], [], a, 0#64, false⟩
        let r : LeaseRec := ⟨ln, 0, cls, false, false, 0, 0, 0#1024, 0#128, false, id⟩
        let dv := { c.d.updSlot c.h c.n (fun s => { s with leases := s.leases ++ [r] }) with count := id + 1 }
        .done (c.ask dv o a st))

/-- A request reaches its home (R150). An amo's waits until the group it closed is visible (R157); the holder learns that
another waits (R155; log 27). -/
def Dev.requestArrives (m : Memory) (d : Dev) (r : LeaseReq) : Dev :=
  let hold := match r.amo with
    | some id => match d.op? r.h r.n id with
      | some o => o.hash != 0#64 && d.groups.any (fun g => g.id + 1 == o.hash.toNat)
      | none => false
    | none => false
  if hold then d.later 1 (.leaseRequestArrival r) else
  let d := match (d.home (homeOf r.pa)).holders.find? (fun x => x.pa == r.pa) with
    | some x => d.updSlot x.h x.n (fun s => { s with leases := s.leases.map (fun (l : LeaseRec) => if l.pa == r.pa && l.granted then { l with waitq := true } else l) })
    | none => d
  d.leaseArrive m r

def execLeaseRequestArrival (r : LeaseReq) : State → Host.Outcome State Fault Refusal := onDev (fun m d => d.requestArrives m r)
/-- A refused request is sent again (R150). -/
def execLeaseRetry (r : LeaseReq) : State → Host.Outcome State Fault Refusal := onDev (fun m d => d.requestArrives m r)

/-- The line granted to a lease or an amo is poisoned: the request's access meets an uncorrectable line (R363; log 19), and the home has
the line back. -/
def Dev.grantPoisoned (d : Dev) (r : LeaseReq) (op : Nat) : Dev :=
  ((d.updOp r.h r.n op (fun o => o.updAcc 0 (fun a => { a with st := .bad 0xF0 3 }))).settleOp r.h r.n op).send
    (chanOf 2 (slotKey r.h r.n) (homeOf r.pa)) (.breakNotice r)

/-- A grant lands (R151): the shadow takes the line, the bound starts, LB clears and IL is set, and aD lands. A record that
broke before keeps LB, and its line goes on at once (R153). -/
def execLeaseGrant (r : LeaseReq) (data : Line) : State → Host.Outcome State Fault Refusal :=
  onDev (fun _ d =>
    let notice (d : Dev) : Dev := d.send (chanOf 2 (slotKey r.h r.n) (homeOf r.pa)) (.breakNotice r)
    match (d.slot r.h r.n).leases.find? (fun l => l.va == r.va && !l.granted) with
    | none => notice d
    | some l =>
      if d.linePoison.contains r.pa && !l.broken then d.grantPoisoned r l.op else
      let more := (d.home (homeOf r.pa)).leaseQ.any (fun x => x.pa == r.pa)
      let l' : LeaseRec := { l with pa := r.pa, granted := true, shadow := data, mask := 0#128, waitq := more, expiry := d.clock + LeaseCls.bound l.cls }
      let d := d.updSlot r.h r.n (fun s =>
        let s := { s with leases := s.leases.map (fun x => if x = l then l' else x) }
        if l.broken then s else (s.setLb false).setIl true)
      let d := (d.updCore r.h (fun c => c.dropLine r.va)).delay r.h (homeOf r.pa / 8)
      let d := d.updOp r.h r.n l.op (fun o => { o with ares := o.ad.map (fun a => (a, Line.w64 data (o.addr.toNat % 128))), fin := true })
      let d := d.first [.resultLanding r.h r.n l.op]
      if l.broken then notice d else d)

/-- A record's bound ends: it breaks with reason 1 (R153). -/
def execLeaseExpiry (h n : Nat) (va : Nat) : State → Host.Outcome State Fault Refusal :=
  onDev (fun _ d => d.breakLeases h n 1 (fun r => r.va == va && r.granted && decide (r.expiry ≤ d.clock)))

/-- A break notice reaches the home, which grants the line to its next request unchanged (R153, R156). -/
def execBreakNotice (r : LeaseReq) : State → Host.Outcome State Fault Refusal := onDev (fun m d => d.unhold m r.pa r.h r.n)

/-! ### The shadow (R152) -/

/-- The slot's record for the line of an address. -/
def Slot.recFor (s : Slot) (a : W64) : Option LeaseRec := s.leases.find? (fun r => r.va == lineOf a.toNat)

/-- A form on the shadow: ALIGN, lanes without a record, lanes that await their grant. -/
def Ctx.shadow (c : Ctx) (mask : BitVec 16) (as : List (Nat × W64)) (k : Slot → Slot) : Res :=
  match as.find? (fun a => a.2.toNat % 4 != 0) with
  | some a => c.faultLanes 0x05 0 a.2 mask
  | none =>
    match as.find? (fun a => (c.s.recFor a.2).isNone) with
    | some a => c.faultLanes 0x32 2 a.2 mask
    | none =>
      if as.any (fun a => match c.s.recFor a.2 with | some r => !r.granted | none => false) then .skip c.d else c.done (k c.s)

/-- A word of the shadow of an address. -/
def Slot.shadowWord (s : Slot) (a : W64) : W32 := ((s.recFor a).map (fun r => Line.w32 r.shadow (a.toNat % 128))).getD 0#32
/-- The shadow with a word written and its mask bytes set. -/
def Slot.setShadow (s : Slot) (a : W64) (v : W32) : Slot :=
  let x := lineBytes a.toNat v.toNat 4
  { s with leases := s.leases.map (fun r => if r.va == lineOf a.toNat then
      { r with shadow := Line.over r.shadow x.1 x.2, mask := r.mask ||| x.2 } else r) }

/-- sld (R152). -/
def execSld (km : KReg) (kz : Bool) (d x : VReg) (base : AReg) (off : BitVec 24) : State → Host.Outcome State Fault Refusal :=
  thread (useLoad km kz d x base) (fun c =>
    c.shadow (c.s.K km.toNat) (c.s.lanesAt km x base off 4) (fun s =>
      s.setVm d.toNat (s.K km.toNat) kz (ofLanes (fun l => s.shadowWord (s.addr base x off 4 l)))))

/-- sst (R152). -/
def execSst (km : KReg) (d x : VReg) (base : AReg) (off : BitVec 24) : State → Host.Outcome State Fault Refusal :=
  thread (useStore km d x base) (fun c =>
    c.shadow (c.s.K km.toNat) (c.s.lanesAt km x base off 4) (fun s =>
      (s.lanesAt km x base off 4).foldl (fun s a => s.setShadow a.2 (lane (s.V d.toNat) a.1)) s))

/-- The slot stops the bound of its record for a line (R154): its expiry lies beyond every cycle reached. -/
def Slot.stopBound (s : Slot) (ln : Nat) : Slot :=
  { s with leases := s.leases.map (fun r => if r.va == ln && !r.broken then { r with expiry := r.expiry + 2 ^ 64 } else r) }

/-- In an ORDERED slot a group is broadcast as a commit (R206). -/
def Ctx.broadcastFin (c : Ctx) : List Fin :=
  if c.s.kind == .ordered then (c.s.tasks.ents.map (fun e => Fin.task c.s.lk e.2 false)).take 1 else []

/-- release (R154). -/
def execRelease (d a : AReg) : State → Host.Outcome State Fault Refusal :=
  specForm (useA [wa d, ra a]) (fun c =>
    let v := c.s.A a.toNat
    let ln := lineOf v.toNat
    if c.s.leases.any (fun r => r.va == ln && !r.granted) then .skip c.d else
    let s := if c.s.closed then c.s else c.s.stopBound ln
    let c := { c with s := s, d := c.d.setSlot c.h c.n s }
    c.release (fun c =>
      let r := c.s.recFor v
      let left := c.s.leases.filter (fun x => x.va != ln)
      let s := { c.s with leases := left }.setIl (!left.isEmpty)
      match r with
      | none => c.done (s.setA d.toNat 0#64)
      | some r =>
        if r.broken then c.done (s.setA d.toNat 0#64)
        else
          let dv := (c.d.setSlot c.h c.n (s.setA d.toNat 1#64)).updCore c.h (fun k => k.dropLine ln)
          .done (dv.addGroup c.m [⟨ln, r.pa, r.shadow, r.mask, none⟩] (dv.fnOf c.s.lk) c.h (dv.lastGroup c.h c.n)
            (.slot c.h c.n :: .lease r.pa :: c.broadcastFin))))

/-- lstat (R155). -/
def execLstat (d a : AReg) : State → Host.Outcome State Fault Refusal :=
  thread (useA [wa d, ra a]) (fun c =>
    c.done (c.s.setA d.toNat (((c.s.recFor (c.s.A a.toNat)).map (fun r => r.stat c.d.clock)).getD 0#64)))

/-! ### Atomics (R157) -/

/-- The new value of an amo of w bits. -/
def amoValue (w : Nat) (op : AmoOp) (old x cmp : BitVec w) : BitVec w :=
  match op with
  | .add => old + x
  | .and => old &&& x
  | .or => old ||| x
  | .xor => old ^^^ x
  | .min => if old.toInt ≤ x.toInt then old else x
  | .max => if x.toInt ≤ old.toInt then old else x
  | .minu => if old.toNat ≤ x.toNat then old else x
  | .maxu => if x.toNat ≤ old.toNat then old else x
  | .swap => x
  | .cas => if old = cmp then x else old

/-- amo (R157): waits until the slot's window stores are performed (R147, R166; log 28), closes the group, then asks for the line. -/
def execAmo (la : BitVec 4) (op : AmoOp) (w64 : Bool) (d x base : AReg) (off : BitVec 24) :
    State → Host.Outcome State Fault Refusal :=
  specForm ((useA [wa d, ra d, ra x, ra base]).long la) (fun c =>
    let a := c.s.addr1 base off
    let w := if w64 then 8 else 4
    if a.toNat % w ≠ 0 then c.faultAt 0x05 0 a
    else if isWindow a then c.faultAt 0x04 6 a
    else if (c.s.recFor a).isSome then c.fault 0x30 3
    else
      match c.exclusive a with
      | .bad e sub => c.faultAt e sub a
      | .again => .skip c.d
      | .at_ st _ =>
        if !c.s.winStores.isEmpty then .wait c.d .visible else
        c.close (fun dv =>
          let gid : W64 := match dv.lastGroup c.h c.n with | some g => BitVec.ofNat 64 (g + 1) | none => 0#64
          let o : LongOp := ⟨dv.count, c.s.pc, .amo op w64 (c.s.A x.toNat) (c.s.A d.toNat), [], [d.toNat], 0#16, false,
            [⟨0, 0, a, st, 0#1024, 0#128, 0⟩], [], [], a, gid, false⟩
          .done (c.ask { dv with count := dv.count + 1 } o a st)))

/-- An amo's line is granted (R157): the line leaves the L1 (R139), then the operation, and the new value as a one-line group behind
the slot's other groups (R164). -/
def execAmoGrant (r : LeaseReq) (data : Line) : State → Host.Outcome State Fault Refusal :=
  onDev (fun m d =>
    match r.amo.bind (fun id => d.op? r.h r.n id) with
    | none => d.unhold m r.pa r.h r.n
    | some o =>
      if d.linePoison.contains r.pa then d.grantPoisoned r o.id else
      match o.kind with
      | .amo op w64 x cmp =>
        let off := o.addr.toNat % 128
        let old64 := Line.w64 data off
        let old32 := Line.w32 data off
        let old : W64 := if w64 then old64 else old32.setWidth 64
        let new : Nat := if w64 then (amoValue 64 op old64 x cmp).toNat
          else (amoValue 32 op old32 (x.setWidth 32) (cmp.setWidth 32)).toNat
        let b := lineBytes o.addr.toNat new (if w64 then 8 else 4)
        let s := d.slot r.h r.n
        let fin : List Fin := if s.kind == .ordered then (s.tasks.ents.map (fun e => Fin.task s.lk e.2 false)).take 1 else []
        ((d.updCore r.h (fun c => c.dropLine r.va)).delay r.h (homeOf r.pa / 8)).addGroup m [⟨r.va, r.pa, b.1, b.2, none⟩] (d.fnOf s.lk) r.h
          (d.lastGroup r.h r.n) (.slot r.h r.n :: .amo r.h r.n o.id old r.pa :: fin)
      | _ => d.unhold m r.pa r.h r.n)

/-! ### Fences (R158 to R160, R167) -/

/-- A global load of the slot is outstanding. -/
def Slot.loading (s : Slot) : Bool :=
  s.ops.any (fun o => match o.kind with
    | .gld _ | .gldx _ | .ldkr _ _ _ | .kvlook _ _ => true
    | .value | .lease | .rtab | .amo _ _ _ _ => false)

/-- The L1 without the lines that are not marked sealed. -/
def Core.acquire (c : Core) : Core := { c with l1 := ⟨c.l1.ents.filter (fun e => e.2.sealed_)⟩ }

/-- An acquire: not before the slot's global loads have landed; it drops lines unless its scope is core. -/
def Ctx.acquire (c : Ctx) (drops : Bool) (k : Ctx → Res) : Res :=
  if c.s.loading then .skip c.d
  else k (if drops then { c with d := c.d.updCore c.h Core.acquire } else c)

/-- A scope whose acquire drops lines (R167 Table 2). -/
def scopeDrops : Scope → Bool
  | .core => false
  | .court | .district | .device | .system => true

/-- fence (R158). rel and full are forms of R174. -/
def execFence (sem : Sem) (scope : Scope) : State → Host.Outcome State Fault Refusal :=
  thread (useA []) (fun c =>
    match sem with
    | .acq => c.acquire (scopeDrops scope) (fun c => .done c.d)
    | .rel => c.unspec (fun c => c.release (fun c => .done c.d))
    | .full => c.unspec (fun c => c.release (fun c => c.acquire (scopeDrops scope) (fun c => .done c.d))))

/-- commit (R159); in a speculative task it has no effect (R174). -/
def execCommit : State → Host.Outcome State Fault Refusal :=
  thread (useA []) (fun c => if c.s.spec then .done c.d else c.close (fun d => .done d))

/-- isync (R160). -/
def execIsync : State → Host.Outcome State Fault Refusal :=
  thread (useA []) (fun c =>
    if !(c.d.slotGroups c.h c.n).isEmpty then .skip c.d
    else .done ((c.d.setSlot c.h c.n { c.s with stream := [] }).updCore c.h (fun k => { k with ic := .empty })))

end Sys2Proof.Machine
end

