-- ==== Sys2Proof/Machine/Barrier.lean ====
section
/-! DEFINITION. Barrier and object forms (R176 to R190). -/

namespace Sys2Proof.Machine

/-! ### Barriers (R179 to R182) -/

/-- Slots of a core wait on a barrier: for its completion, or for room in its PEND (R219). -/
def Core.barWaited (c : Core) (b : Nat) : Bool := c.slots.ents.any (fun e => e.2.st == .waiting (.barrier b) || e.2.st == .waiting (.pend b))

/-- The sub-code of Checks(b) for a launch (R181): 0 when it passes. -/
def Bar.check (x : Bar) (lk : Nat) : Nat :=
  match x.owner with
  | none => 1
  | some o => if o == lk then 0 else 2

/-- A form on an owned barrier. -/
def Ctx.onBar (c : Ctx) (b : Nat) (k : Bar → Res) : Res :=
  let x := (c.d.core c.h).bar b
  if x.check c.s.lk = 0 then k x else c.faultAt 0x40 (x.check c.s.lk) (BitVec.ofNat 64 b)

/-- Word 0 of a barrier after an acquire, into aD. -/
def Ctx.takePhase (c : Ctx) (b : Nat) (d : AReg) (f : Slot → Slot) : Res :=
  c.acquire true (fun c => c.done (f (c.s.setA d.toNat ((c.d.core c.h).bar b).word0)))

/-- bini (R180). -/
def execBini (bar : BitVec 9) (a : AReg) : State → Host.Outcome State Fault Refusal :=
  thread (useA [ra a]) (fun c =>
    let b := bar.toNat
    let x := (c.d.core c.h).bar b
    let v := c.s.A a.toNat
    if x.check c.s.lk = 2 then c.faultAt 0x40 2 (BitVec.ofNat 64 b)
    else if x.owner.isSome && ((c.d.core c.h).barWaited b || x.pend != 0) then c.faultAt 0x40 3 (BitVec.ofNat 64 b)
    else if v.extractLsb' 16 48 ≠ 0#48 then c.faultAt 0x40 6 (BitVec.ofNat 64 b)
    else
      .done (c.d.updCore c.h (fun k => k.setBar b { x with owner := some c.s.lk, exp := v.setWidth 16, arr := 0, err := false, code := 0, det := 0 })))

/-- The core a barr names: its own, or that of its register (R180). -/
def Ctx.barTarget (c : Ctx) (a : AReg) : Nat := if a = 0#4 then c.h else (c.s.A a.toNat).toNat % 4096

/-- An arrival at core t (R180): checked, counted and tested there; one for a saved launch waits (R307). -/
def Dev.arriveAt (d : Dev) (t b h n : Nat) : Dev :=
  let lk := (d.slot h n).lk
  if d.isSaved lk t then d.later 1 (.barrierArrival t b h n) else
  let x := (d.core t).bar b
  let e := x.check lk
  if e ≠ 0 then d.send 0 (.barrierAck h n e)
  else if x.arr = 0xFFFF#16 then d.send 0 (.barrierAck h n 5)
  else (d.barStep t b (fun x => { x with arr := x.arr + 1 }) false).send 0 (.barrierAck h n 0)

/-- barr (R180): the arrival is sent once the group it closes is visible, an own core's is a step there at once (R177); the slot waits for
the acknowledgement. -/
def execBarr (bar : BitVec 9) (a : AReg) : State → Host.Outcome State Fault Refusal :=
  specForm (useA [ra a]) (fun c =>
    let b := bar.toNat
    let t := c.barTarget a
    let at_ : W64 := BitVec.ofNat 64 (if t = c.h then b else t * 512 + b)
    if a ≠ 0#4 ∧ (c.s.A a.toNat).extractLsb' 12 52 ≠ 0#52 then c.faultAt 0x40 6 at_
    else if !((c.d.launch? c.s.lk).map (fun l => l.has t)).getD false then c.faultAt 0x40 4 at_
    else
      match c.s.reply with
      | .done _ => .done c.d
      | .fail cause sub => c.faultAt cause sub at_
      | .sent | .stale => .wait c.d .ack
      | .idle => c.release (fun c =>
          let d := c.d.updSlot c.h c.n (fun s => { s with reply := .sent })
          .wait (if t = c.h then d.arriveAt t b c.h c.n else d.send 0 (.barrierArrival t b c.h c.n)) .ack))

/-- An arrival at core t. -/
def execBarrierArrival (t b h n : Nat) : State → Host.Outcome State Fault Refusal := onDev (fun _ d => d.arriveAt t b h n)

/-- The acknowledgement, or the refusal, of an arrival. -/
def execBarrierAck (h n sub : Nat) : State → Host.Outcome State Fault Refusal :=
  onDev (fun _ d =>
    if (d.slot h n).reply != .sent && (d.slot h n).reply != .stale then d
    else d.reply h n (if sub = 0 then .done 0#64 else .fail 0x40 sub))

/-- bwait (R180). -/
def execBwait (bar : BitVec 9) (d a : AReg) : State → Host.Outcome State Fault Refusal :=
  thread (useA [wa d, ra a]) (fun c => c.onBar bar.toNat (fun x =>
    if x.ph != (c.s.A a.toNat).getLsbD 0 then .wait c.d (.barrier bar.toNat) else c.takePhase bar.toNat d id))

/-- The waiting half of barw: until the phase differs from that at arrival. -/
def Ctx.barWait (c : Ctx) (b : Nat) (d : AReg) : Res :=
  if ((c.d.core c.h).bar b).ph == c.s.resPh then .wait c.d (.barrier b)
  else c.takePhase b d (fun s => { s.setAp false with resPh := false })

/-- barw (R180): arrives once, AP marking the arrival, then waits. -/
def execBarw (bar : BitVec 9) (d : AReg) : State → Host.Outcome State Fault Refusal :=
  specForm (useA [wa d]) (fun c => c.onBar bar.toNat (fun _ =>
    let b := bar.toNat
    if c.s.ap then c.barWait b d
    else c.release (fun c =>
      let x := (c.d.core c.h).bar b
      if x.arr = 0xFFFF#16 then c.faultAt 0x40 5 (BitVec.ofNat 64 b)
      else
        let s := { c.s with resPh := x.ph }.setAp true
        let d' := (c.d.setSlot c.h c.n s).barStep c.h b (fun x => { x with arr := x.arr + 1 }) false
        Ctx.barWait { c with d := d', s := s } b d)))

/-- bexp (R180). -/
def execBexp (bar : BitVec 9) (a : AReg) : State → Host.Outcome State Fault Refusal :=
  thread (useA [ra a]) (fun c => c.onBar bar.toNat (fun _ =>
    let v := c.s.A a.toNat
    if v.extractLsb' 16 48 ≠ 0#48 then c.faultAt 0x40 6 (BitVec.ofNat 64 bar.toNat)
    else .done (c.d.barStep c.h bar.toNat (fun x => { x with exp := v.setWidth 16 }) false)))

/-- bphs (R180). -/
def execBphs (bar : BitVec 9) (part : Bool) (d : AReg) : State → Host.Outcome State Fault Refusal :=
  thread (useA [wa d]) (fun c => c.onBar bar.toNat (fun x => c.done (c.s.setA d.toNat (if part then x.word1 else x.word0))))

/-- bclr (R180). -/
def execBclr (bar : BitVec 9) : State → Host.Outcome State Fault Refusal :=
  thread (useA []) (fun c => c.onBar bar.toNat (fun x =>
    if (c.d.core c.h).barWaited bar.toNat || x.pend != 0 then c.faultAt 0x40 3 (BitVec.ofNat 64 bar.toNat)
    else .done (c.d.updCore c.h (fun k => k.setBar bar.toNat .init))))

/-! ### Objects (R184 to R190) -/

def Core.obj (c : Core) (o : Nat) : Obj := c.objs.get .init o
/-- An entry set; a FREE one is not listed. -/
def Core.setObj (c : Core) (o : Nat) (x : Obj) : Core := { c with objs := if x.st == .free then c.objs.erase o else c.objs.put o x }

/-- Lines of a range of window addresses leave a core's L1, sealed or not. -/
def Core.dropRange (c : Core) (lo len : Nat) : Core :=
  { c with l1 := ⟨c.l1.ents.filter (fun e => !(decide (lineOf lo ≤ e.1) && decide (e.1 < lo + len)))⟩ }

/-- DropSealed on every core at once: what a launch's end does (R190). -/
def Dev.dropSealed (d : Dev) (h : Nat) (o : Obj) : Dev :=
  { d with cores := ⟨d.cores.ents.map (fun e => (e.1, e.2.dropRange (windowOf h o.base) o.bytes))⟩ }

/-- A transfer from an object ends (R185): at zero its waiters become READY, and an entry whose launch has ended is FREE. -/
def Dev.objUnref (d : Dev) (h o : Nat) : Dev :=
  let x := (d.core h).obj o
  let x' : Obj := { x with ref := x.ref - 1 }
  let d := d.updCore h (fun c => c.setObj o x')
  if x'.ref ≠ 0 then d else
  let d := d.wake h (fun _ _ w => w == .object o)
  if d.alive x.owner then d else (d.dropSealed h x).updCore h (fun c => c.setObj o .init)

/-- A fault of an object form: its address is the entry index (R189). -/
def Ctx.objFault (c : Ctx) (o sub : Nat) : Res := c.faultAt 0x41 sub (BitVec.ofNat 64 o)

/-- A form on an entry that is not another launch's. -/
def Ctx.onObj (c : Ctx) (o : Nat) (k : Obj → Res) : Res :=
  let x := (c.d.core c.h).obj o
  if x.st != .free && x.owner != c.s.lk then c.objFault o 0x0A else k x

/-- The shape record of 8 words at a local address (R184 Table 5). -/
def shapeOf (w : Nat → W32) (lk : Nat) : Obj where
  st := .open_
  base := (w 0).toNat
  rows := (w 1).toNat % 65536
  cols := (w 1).toNat / 65536
  etype := (w 2).toNat % 256
  pitch := (w 3).toNat
  trows := (w 4).toNat % 65536
  tcols := (w 4).toNat / 65536
  ref := 0
  owner := lk
  drops := 0

/-- The record keeps Table 5. -/
def shapeOk (w : Nat → W32) (o : Obj) : Bool :=
  decide (o.base < 2 ^ 20) && o.base % 4 == 0 && o.rows != 0 && o.cols != 0 && decide (o.etype ≤ 5) &&
  (w 2).toNat / 256 == 0 && o.pitch % 4 == 0 && decide (o.cols * etypeSize o.etype ≤ o.pitch) &&
  o.trows != 0 && o.rows % o.trows == 0 && o.tcols != 0 && o.cols % o.tcols == 0 &&
  w 5 == 0#32 && w 6 == 0#32 && w 7 == 0#32

/-- odecl (R188). -/
def execOdecl (obj : BitVec 6) (a : AReg) : State → Host.Outcome State Fault Refusal :=
  thread (useA [ra a]) (fun c =>
    let o := obj.toNat
    let k := c.d.core c.h
    let r := c.s.A a.toNat
    if (k.obj o).st != .free then c.objFault o 1
    else if r.extractLsb' 0 5 ≠ 0#5 then c.faultAt 0x05 0 r
    else if decide (2 ^ 20 ≤ r.toNat) || !k.inLaunch c.s.lk r.toNat then c.faultAt 0x04 1 r
    else if (List.range 8).any (fun i => k.unrestored (r.toNat + 4 * i)) then .skip c.d
    else if (List.range 8).any (fun i => k.lsPoison.contains (r.toNat / 4 + i)) then c.faultAt 0xF0 2 r
    else
      let w := fun i => k.word (r.toNat + 4 * i)
      let x := shapeOf w c.s.lk
      let inside := match k.regionOf x.base with
        | some e => e.1 / 16 == c.s.lk && rgnRole e.2 == 0 && decide (x.base + x.bytes ≤ rgnEnd e.2)
        | none => false
      if !shapeOk w x || !inside then c.objFault o 6
      else if k.objs.ents.any (fun e => decide (e.2.base < x.base + x.bytes) && decide (x.base < e.2.base + e.2.bytes)) then c.objFault o 7
      else .done (c.d.updCore c.h (fun k => k.setObj o x)))

/-- oseal (R188). -/
def execOseal (obj : BitVec 6) : State → Host.Outcome State Fault Refusal :=
  thread (useA []) (fun c => c.onObj obj.toNat (fun x =>
    if x.st != .open_ then c.objFault obj.toNat 2
    else .done (c.d.updCore c.h (fun k => k.setObj obj.toNat { x with st := .sealed_ }))))

/-- The tail of a queue takes a command (R219): its count is added to PEND, its groups to wait for are those the slot has
closed. -/
def Ctx.accept (c : Ctx) (cq : Bool) (img : V512) (oc : Option OCopy) (bar cnt : Nat) : Dev × BitVec 16 :=
  let seq := ((c.d.core c.h).eq cq).seqa + 1
  let cmd : Cmd := ⟨seq.toNat, img, oc, bar, c.s.lk, c.n, c.s.pc, c.s.gtid, c.s.recov, c.s.priv, 0, false, 0, cnt,
    (c.d.slotGroups c.h c.n).map (·.id), .empty, [], [], .empty, .empty, [], 0#64, 0, none⟩
  (c.d.updCore c.h (fun k =>
    (k.setBar bar { k.bar bar with pend := (k.bar bar).pend + cnt }).updEq cq (fun e => { e with q := e.q ++ [cmd], seqa := seq })),
    ((c.d.core c.h).eq cq).shown seq.toNat)

/-- What a push waits for (R178, R219): a queue entry, or room in the barrier's PEND. -/
def Ctx.pushRoom (c : Ctx) (cq : Bool) (bar cnt : Nat) : Option WaitFor :=
  if 32 ≤ ((c.d.core c.h).eq cq).depth then some (.queue cq)
  else if 2 ^ 32 ≤ ((c.d.core c.h).bar bar).pend + cnt then some (.pend bar) else none

/-- ocopy (R188): a copy of the object's extent enters the copy queue. -/
def execOcopy (obj : BitVec 6) (a b bc : AReg) : State → Host.Outcome State Fault Refusal :=
  specForm (useA [ra a, ra b, ra bc]) (fun c => c.onObj obj.toNat (fun x =>
    let o := obj.toNat
    let t := c.s.A a.toNat
    let dst := c.s.A b.toNat
    let bar := c.s.A bc.toNat
    if x.st != .sealed_ then c.objFault o 3
    else if decide (4096 ≤ t.toNat) || !((c.d.launch? c.s.lk).map (fun l => l.has t.toNat)).getD false ||
        decide (2 ^ 20 ≤ dst.toNat) || dst.toNat % 4 != 0 || decide (2 ^ 20 < dst.toNat + x.bytes) || x.ref == 0xFFFF then c.objFault o 8
    else if 512 ≤ bar.toNat then c.objFault o 8
    else if ((c.d.core c.h).bar bar.toNat).check c.s.lk ≠ 0 then c.faultAt 0x40 7 bar
    else
      match c.pushRoom true bar.toNat x.bytes with
      | some w => .wait c.d w
      | none =>
        .done ((c.accept true 0#512 (some ⟨o, x.base, x.bytes, t.toNat, dst.toNat⟩) bar.toNat x.bytes).1.updCore c.h (fun k =>
          k.setObj o { x with ref := x.ref + 1 }))))

/-- DropSealed by an instruction (R188): the drops go to every core that holds any line, and the slot skips its turns until
all have acknowledged; then the entry changes. -/
def Ctx.unseal (c : Ctx) (o : Nat) (x : Obj) (k : Obj) : Res :=
  let fin (d : Dev) : Res := .done (d.updCore c.h (fun y => y.setObj o k))
  match c.s.reply with
  | .done _ => fin c.d
  | .sent | .stale | .fail _ _ => .skip c.d
  | .idle =>
    let lo := windowOf c.h x.base
    let cores := (c.d.cores.ents.filter (fun e => !e.2.l1.ents.isEmpty)).map (·.1)
    if cores.isEmpty then fin c.d else
    let d := c.d.updCore c.h (fun y => y.setObj o { x with drops := cores.length })
    let d := { d.updSlot c.h c.n (fun s => { s with reply := .sent }) with
      shoots := d.shoots ++ [⟨d.count, c.h, c.n, lo, x.bytes, cores⟩], count := d.count + 1 }
    .skip (cores.foldl (fun d t => d.send 0 (.sealedLineDrop t c.h c.n lo x.bytes)) d)

/-- A core drops the lines of an extent and acknowledges (R188). -/
def execSealedLineDrop (h src n : Nat) (lo len : Nat) : State → Host.Outcome State Fault Refusal :=
  onDev (fun _ d =>
    let d := d.updCore h (fun c => c.dropRange lo len)
    match d.shoots.find? (fun x => x.h == src && x.n == n && x.lo == lo && x.len == len && x.cores.contains h) with
    | none => d
    | some x =>
      let left := x.cores.erase h
      let d := { d with shoots := if left.isEmpty then d.shoots.erase x else d.shoots.map (fun y => if y = x then { x with cores := left } else y) }
      if left.isEmpty then d.reply src n (.done 0#64) else d)

/-- oreopen (R188). -/
def execOreopen (obj : BitVec 6) : State → Host.Outcome State Fault Refusal :=
  thread (useA []) (fun c => c.onObj obj.toNat (fun x =>
    if x.st != .sealed_ then c.objFault obj.toNat 4
    else if x.ref ≠ 0 then .wait c.d (.object obj.toNat)
    else c.unseal obj.toNat x { x with st := .open_, drops := 0 }))

/-- ofree (R188). -/
def execOfree (obj : BitVec 6) : State → Host.Outcome State Fault Refusal :=
  thread (useA []) (fun c => c.onObj obj.toNat (fun x =>
    match x.st with
    | .free => c.objFault obj.toNat 5
    | .open_ => .done (c.d.updCore c.h (fun k => k.setObj obj.toNat .init))
    | .sealed_ => if x.ref ≠ 0 then .wait c.d (.object obj.toNat) else c.unseal obj.toNat x .init))

/-- ostat (R188). -/
def execOstat (obj : BitVec 6) (d : AReg) : State → Host.Outcome State Fault Refusal :=
  thread (useA [wa d]) (fun c => c.done (c.s.setA d.toNat (((c.d.core c.h).obj obj.toNat).stat c.s.lk)))

/-! ### Engine reports (R178, R223) -/

/-- A command has completed: what it counted as a transfer of an object ends (R185, R234). -/
def Dev.completed (d : Dev) (h : Nat) (c : Cmd) : Dev :=
  let d := match c.oc with
    | some o => d.objUnref h o.obj
    | none => d
  c.objs.foldl (fun d o => d.objUnref o.1 o.2) d

/-- Bytes that a command reports: beyond its count nothing is subtracted, and an acc.store's last landing subtracts what is
left. -/
def Dev.cmdReport (d : Dev) (h : Nat) (cq : Bool) (seq bytes : Nat) : Dev :=
  match d.cmd? h cq seq with
  | none => d
  | some c =>
    let take := if c.total = 1 then c.left else min bytes c.left
    let d := d.updCmd h cq seq (fun c => { c with left := c.left - take, total := c.total - 1 })
    let d := d.barReport h c.bar take
    let e := (d.core h).eq cq
    if c.left = take ∧ e.live.any (fun x => x.seq == seq) then
      ((d.updCore h (fun k => k.updEq cq (fun e => { e with live := e.live.filter (fun x => x.seq != seq) }))).completed h c).wake h
        (fun _ _ w => w == .queue cq)
    else d

/-- A report of an engine reaches the pushing core (R177, R178). -/
def execEngineReport (h : Nat) (cq : Bool) (seq bytes : Nat) : State → Host.Outcome State Fault Refusal :=
  onDev (fun _ d => if d.savedCmd h cq seq then d.later 1 (.engineReport h cq seq bytes) else d.cmdReport h cq seq bytes)

end Sys2Proof.Machine
end

