-- ==== Sys2Proof/Machine/Link.lean ====
section
/-! DEFINITION. The neighbour link (R34, R100 to R104). -/

namespace Sys2Proof.Machine

def Dir.flip : Dir → Dir
  | .up => .down | .down => .up

/-- The neighbour of a core in a direction, if the device has it. -/
def neighbour (h : Nat) (dir : Dir) : Option Nat :=
  match dir with
  | .up => if h + 1 < nCores then some (h + 1) else none
  | .down => if h = 0 then none else some (h - 1)

/-- Writes held from the neighbour in a direction. -/
def Core.heldLink (c : Core) (dir : Dir) : List (Nat × Nat × Nat × V512) := match dir with | .up => c.linkUp | .down => c.linkDown
def Core.setLink (c : Core) (dir : Dir) (l : List (Nat × Nat × Nat × V512)) : Core :=
  match dir with | .up => { c with linkUp := l } | .down => { c with linkDown := l }

/-- Writes that stand on the link from a direction because four are held (R34). -/
def Core.linkQueue (c : Core) (dir : Dir) : List (Nat × Nat × Nat × V512) := match dir with | .up => c.waitUp | .down => c.waitDown
def Core.setQueue (c : Core) (dir : Dir) (l : List (Nat × Nat × Nat × V512)) : Core :=
  match dir with | .up => { c with waitUp := l } | .down => { c with waitDown := l }

/-- The core holds four writes from a direction (R34). -/
def Core.linkFull (c : Core) (dir : Dir) : Bool := decide (4 ≤ (c.heldLink dir).length)

/-- All 16 lanes of a register land, and it is present (R34). -/
def Slot.land (s : Slot) (reg : Nat) (v : V512) : Slot := { s.setV reg v with vst := s.vst.erase reg }
/-- The same on a core, where the write clears the entry's poison (R362). -/
def Core.land (c : Core) (n reg : Nat) (v : V512) : Core :=
  let e := (c.slot n).winBase + reg
  { c.updSlot n (fun s => s.land reg v) with rfPoison := c.rfPoison.filter (· != e) }

/-- The slot that a link write of a launch names, as it stands or as it was saved, with whether it is saved: none when it is FREE or
belongs to another launch (R103). -/
def Dev.linkTarget (d : Dev) (h slot lk : Nat) : Option (Bool × Slot) :=
  match d.savedSlot lk h slot with
  | some s => some (true, s)
  | none => let s := d.slot h slot; if s.st != .free && s.lk == lk then some (false, s) else none

/-- The core takes one write off the link: discarded and counted, landed, or held (R34, R103). A write to a saved slot is held (R307).
A write for an armed register lands though an earlier one is held for another register that is not armed: the order sent is kept
for each register (DESIGN CHOICE, log 65). -/
def Dev.takeLink (d : Dev) (h : Nat) (src : Dir) (e : Nat × Nat × Nat × V512) : Dev :=
  match (d.linkTarget h e.1 e.2.2.1).filter (fun t => decide (e.2.1 < t.2.winCount)) with
  | none => d.updCore h (fun c => c.bump 2 0 1)
  | some t =>
    if !t.1 && t.2.vst.get .present e.2.1 == .awaiting src then d.updCore h (fun c => c.land e.1 e.2.1 e.2.2.2)
    else d.updCore h (fun c => c.setLink src (c.heldLink src ++ [e]))

/-- Writes that stood on the link come in while there is room. -/
def Dev.takeLinks (src : Dir) (h : Nat) : List (Nat × Nat × Nat × V512) → Dev → Dev
  | [], d => d.updCore h (fun c => c.setQueue src [])
  | e :: r, d => if (d.core h).linkFull src then d.updCore h (fun c => c.setQueue src (e :: r)) else Dev.takeLinks src h r (d.takeLink h src e)

/-- A held write has left: what stood on the link comes in, and a neighbour that waits for room tries again (R34, R101). -/
def Dev.linkRoom (d : Dev) (h : Nat) (src : Dir) : Dev :=
  let d := Dev.takeLinks src h ((d.core h).linkQueue src) d
  match neighbour h src with
  | none => d
  | some p => if (d.core h).linkFull src then d else d.wake p (fun _ _ w => w == .link)

/-- Writes held for a slot are discarded and counted, and its armings lapse (R103). -/
def Dev.dropLinksOf (d : Dev) (h n lk : Nat) : Dev :=
  let go (d : Dev) (dir : Dir) : Dev :=
    let c := d.core h
    let mine (e : Nat × Nat × Nat × V512) : Bool := e.1 == n && e.2.2.1 == lk
    let gone := (c.heldLink dir).filter mine
    (d.updCore h (fun c => (c.setLink dir ((c.heldLink dir).filter (fun e => !mine e))).bump 2 0 gone.length)).linkRoom h dir
  if ((d.core h).linkUp ++ (d.core h).linkDown).any (fun e => e.1 == n) then go (go d .up) .down else d
/-- The same for the slot as it stands. -/
def Dev.dropLinks (d : Dev) (h n : Nat) : Dev := d.dropLinksOf h n (d.slot h n).lk

/-- linkw (R101): waits while the receiver holds four writes from this core, then, by skipped turns, for the slot's closed groups to be visible. -/
def execLinkw (dir : Dir) (a : VReg) (b : AReg) : State → Host.Outcome State Fault Refusal :=
  specForm (useV [a] [rv a, ra b]) (fun c =>
    match neighbour c.h dir with
    | none => c.fault 0x21 1
    | some t =>
      if !(c.d.terrace (terrOf c.s.lk)).has t then c.fault 0x21 1
      else if (c.d.core t).linkFull (Dir.flip dir) then .wait c.d .link
      else if !(c.d.slotGroups c.h c.n).isEmpty then .skip c.d
      else
        let sel := c.s.A b.toNat
        .done (c.d.send (chanOf 6 c.h t) (.linkWriteArrival t (Dir.flip dir) (sel.toNat % 64) (sel.extractLsb' 8 7).toNat c.s.lk (c.s.V a.toNat))))

/-- linkw.arm (R102): the oldest held write for the register lands at once, else the register awaits one. -/
def execLinkwArm (dir : Dir) (d : VReg) : State → Host.Outcome State Fault Refusal :=
  thread (useV [d] [wv d]) (fun c =>
    let hs := (c.d.core c.h).heldLink dir
    match hs.find? (fun e => e.1 == c.n && e.2.1 == d.toNat && e.2.2.1 == c.s.lk) with
    | some e => .done (((c.d.updCore c.h (fun k => k.setLink dir (hs.erase e))).setSlot c.h c.n (c.s.land d.toNat e.2.2.2)).linkRoom c.h dir)
    | none => c.done { c.s with vst := c.s.vst.put d.toNat (.awaiting dir) })

/-- A link write arrives, behind what stands on the link (R34, R103, R307). -/
def execLinkWriteArrival (dst : Nat) (src : Dir) (slot reg : Nat) (lk : Nat) (val : V512) : State → Host.Outcome State Fault Refusal :=
  onDev (fun _ d => Dev.takeLinks src dst ((d.core dst).linkQueue src ++ [(slot, reg, lk, val)]) d)

/-- Registers of a slot that await a link write take the oldest held one: the slot was saved while it came (R33, R307). -/
def Dev.landHeld (d : Dev) (h n : Nat) : Dev :=
  (d.slot h n).vst.ents.foldl (fun d x =>
    match x.2 with
    | .awaiting dir =>
      (match ((d.core h).heldLink dir).find? (fun e => e.1 == n && e.2.1 == x.1 && e.2.2.1 == (d.slot h n).lk) with
       | some e => (d.updCore h (fun c => (c.setLink dir ((c.heldLink dir).erase e)).land n x.1 e.2.2.2)).linkRoom h dir
       | none => d)
    | _ => d) d

end Sys2Proof.Machine
end

