-- ==== Sys2Proof/Machine/Threads.lean ====
section
/-! DEFINITION. Threads: creation, the slots of a launch, ranks, a slot becoming FREE, and the end of tasks in a slot (R76,
R81, R89, R197, R201, R206, R210, R212, R285, R301, R337). -/

namespace Sys2Proof.Machine

/-! ### Ranks (R210) -/

def Dev.rankEnt (d : Dev) (t r : Nat) : W32 := d.ranks.get 0#32 (t * 4096 + r)
def rankV (w : W32) : Bool := w.getLsbD 31
def rankIt (w : W32) : Bool := w.getLsbD 30
def rankCore (w : W32) : Nat := (w.extractLsb' 18 12).toNat
def rankSlot (w : W32) : Nat := (w.extractLsb' 12 6).toNat
/-- A valid entry for a slot. -/
def rankFor (h n : Nat) : W32 := 1#1 ++ 0#1 ++ BitVec.ofNat 12 h ++ BitVec.ofNat 6 n ++ 0#12
def Dev.setRank (d : Dev) (t r : Nat) (w : W32) : Dev :=
  { d with ranks := if w == 0#32 then d.ranks.erase (t * 4096 + r) else d.ranks.put (t * 4096 + r) w }

/-- The ranks 0 to 4,095 of a terrace that a slot holds. -/
def Dev.ranksOf (d : Dev) (t h n : Nat) : List Nat :=
  (d.ranks.ents.filter (fun e => e.1 / 4096 == t && rankV e.2 && rankCore e.2 == h && rankSlot e.2 == n)).map (fun e => e.1 % 4096)

/-- The slot's ranks become invalid, and the messages that wait for them are discarded (R212). -/
def Dev.dropRanks (d : Dev) (t h n : Nat) : Dev :=
  (d.ranksOf t h n).foldl (fun d r =>
    (d.setRank t r 0#32).updCore h (fun c => { c with inbox := c.inbox.filter (fun m => !(m.terr == t && m.rank == r)) })) d

/-! ### Slots of a launch (R281, R285) -/

/-- The lowest-numbered FREE slot that a launch reserves on a core, with its reserved number. -/
def Dev.freeSlot (d : Dev) (lk h : Nat) : Option (Nat × Nat) :=
  match d.launch? lk with
  | none => none
  | some l => ((l.resvOn h).slots.zipIdx.find? (fun e => (d.slot h e.1).st == .free && (d.savedSlot lk h e.1).isNone)).map (fun e => (e.2, e.1))

/-- %tsw of a new thread: PRIV and RECOV from the image (R285, R197). -/
def Launch.tsw (l : Launch) : W32 := putBit (putBit 0#32 8 l.priv) 9 l.recov

/-- %gtid: terrace, launch, serial (R35). -/
def gtidOf (lk : Nat) (serial : Nat) : BitVec 48 := BitVec.ofNat 6 (terrOf lk) ++ BitVec.ofNat 10 (lk % 1024) ++ BitVec.ofNat 32 serial

/-- A thread is created in a reserved slot (R285): zero registers, which also clears the poison of its window, READY. -/
def Dev.newThread (d : Dev) (lk h i n : Nat) (kind : Kind) (pc : W64) (serial : Nat) (f : Slot → Slot) : Dev :=
  match d.launch? lk with
  | none => d
  | some l =>
    let base := (l.resvOn h).rbase + i * l.nregs
    let s : Slot := { Slot.init with
      st := .ready, readyAt := d.clock, lk := lk, ri := i, kind := kind, pc := pc, winBase := base, winCount := l.nregs,
      tsw := l.tsw, gtid := gtidOf lk serial }
    (d.setSlot h n (f s)).updCore h (fun c => { c with rfPoison := c.rfPoison.filter (fun e => !(decide (base ≤ e) && decide (e < base + l.nregs))) })

/-- The next serial of a launch, and the counter after it, modulo 2^32 (R285). -/
def Dev.takeSerial (d : Dev) (lk : Nat) : Dev × Nat :=
  match d.launch? lk with
  | none => (d, 0)
  | some l => (d.updLaunch lk (fun l => { l with serial := (l.serial + 1) % 2 ^ 32 }), l.serial)

/-- The slot becomes FREE (R76 step 4, R258, R301): its parked lanes, held link writes, open records and shadows go, its
stopped window accesses are taken up without it. Threads that wait to move to a slot of the launch try again (R258). -/
def Dev.vacate (d : Dev) (h n : Nat) : Dev :=
  let s := d.slot h n
  let buf := (d.bufferOf h s.lk s.ri).1
  let d := (d.dropLinks h n).discardRefused h n
  let d := (d.updCore h (fun c => { c.withdrawSlot n with
    dir := c.dir.filter (fun e => !(e.buf == buf && e.task == 0#32 && e.gid.isNone)) })).setSlot h n Slot.init
  d.cores.keys.foldl (fun d t => d.wake t (fun _ x w => w == .move && x.lk == s.lk)) d

/-! ### Tasks of lanes (R201, R206) -/

/-- The tasks bound to some lanes, in lane order. -/
def Slot.tasksIn (s : Slot) (t : BitVec 16) : List W32 := (lanesOf t).filterMap (fun l => s.tasks.find? l)

/-- The lanes leave the lane set with their tasks; a slot that runs tasks and has none left is to end (R76, R201). -/
def Slot.leaveLanes (s : Slot) (t : BitVec 16) : Slot :=
  let set := s.laneSet &&& ~~~t
  { s with laneSet := set, tasks := ⟨s.tasks.ents.filter (fun e => !t.getLsbD e.1)⟩,
           endReq := s.endReq || (set == 0#16 && s.kind != .launch) }

/-- The open records of some tasks. -/
def Core.taskRecs (c : Core) (ids : List W32) : List DirEnt := c.dir.filter (fun e => e.gid.isNone && e.task != 0#32 && ids.contains e.task)

/-- The tasks of lanes t end. FREE tasks are finished. Records of ORDERED tasks are translated and checked first (R326), and
the tasks await their commit with those translations; a task that is not speculative commits at once. -/
def Ctx.endTasks (c : Ctx) (t : BitVec 16) (k : Dev → Res) : Res :=
  let ids := c.s.tasksIn t
  let gone (d : Dev) : Dev := d.updSlot c.h c.n (fun s => s.leaveLanes t)
  match c.s.kind with
  | .launch => k (gone c.d)
  | .freeTask => k (gone (ids.foldl (fun d i => d.dropTask c.s.lk i) c.d))
  | .ordered =>
    let es := (c.d.core c.h).taskRecs ids
    if es.any (fun e => (c.d.core c.h).badRec e) then
      Ctx.fault { c with d := c.d.updCore c.h (fun x => x.discardRecs es) } 0xF0 2
    else
    match c.d.closing c.m (c.s.who c.h) es with
    | .wait d => .skip d
    | .bad va cause sub => c.faultLanes cause sub va 1#16
    | .page va sub => c.page sub va 1#16
    | .ok lines d =>
      let xl (id : W32) : List (Nat × Nat) :=
        ((es.filter (fun e => e.task == id)).filterMap (fun e => (lines.find? (fun l => l.va == e.va)).map (fun l => (l.va, l.pa)))).dedup
      let d := ids.foldl (fun d id => d.updTask c.s.lk id (fun x => { x with ended := true, xl := xl id, redo := false, recov := c.s.recov })) d
      let d := (ids.filter c.plain).foldl (fun d id => d.closeGroup c.m c.h c.n (d.fnOf c.s.lk) (es.filter (fun e => e.task == id))
          (lines.filter (fun l => es.any (fun e => e.task == id && l.rec_ == some (e.buf, e.rec_)))) [.slot c.h c.n, .task c.s.lk id true]) d
      k ((gone d).wake c.h (fun _ s w => w == .records && s.kind == .ordered))

end Sys2Proof.Machine
end

