-- ==== Sys2Proof/Machine/Mail.lean ====
section
/-! DEFINITION. Mailboxes: ranks as destinations, the fault service, inboxes, the host inbox rings and the mailbox forms (R210 to
R213, R287, R291, R293, R350, R353, R368, R374). -/

namespace Sys2Proof.Machine

/-! ### Destinations -/

/-- A function's inbox ring as a destination: numbers above the ranks. -/
def hostDest (f : Nat) : Nat := 65536 + f

/-- The rank is a valid destination in a terrace (R210). -/
def Dev.rankOk (d : Dev) (t r : Nat) : Bool := r == 0xFFFF || r == 0xFFFE || (decide (r < 4096) && rankV (d.rankEnt t r))

/-- The slot is its terrace's supervisor slot (R275). -/
def Dev.isSup (d : Dev) (h n : Nat) : Bool :=
  let s := d.slot h n
  let t := d.terrace (terrOf s.lk)
  s.st != .free && t.supH == h && t.supSlot == n

/-- The supervisor slot of a terrace runs a thread of it with PRIV = 1 (R291). -/
def Dev.supRuns (d : Dev) (t : Nat) : Bool :=
  let x := d.terrace t
  let s := d.slot x.supH x.supSlot
  s.st != .free && terrOf s.lk == t && s.priv

/-- A fault report that the supervisor may not take: its own, or a LINKLOST report of its launch (R291, R368). -/
def Dev.notForSup (d : Dev) (m : Msg) : Bool :=
  let x := d.terrace m.terr
  m.sRank == 0xFFFD &&
  ((m.sCore == x.supH && (m.data.extractLsb' 296 8).toNat == x.supSlot) ||
   ((m.data.extractLsb' 0 8).toNat == 0xF1 && (m.data.extractLsb' 336 16).toNat == (d.slot x.supH x.supSlot).lk % 1024))

/-- Where a message goes at its arrival. -/
inductive MailTo where
  | inbox (h : Nat)
  | ring (f : Nat)
  | transit
  | invalid
  | nowhere

def Dev.mailTo (d : Dev) (m : Msg) : MailTo :=
  if 65536 ≤ m.rank then .ring (m.rank - 65536)
  else if m.rank = 0xFFFF then
    (if ((d.core (d.terrace m.terr).supH).slot (awayIx m.terr (d.terrace m.terr).supSlot)).st != .free then .transit
     else if d.supRuns m.terr && !d.notForSup m then .inbox (d.terrace m.terr).supH else .ring (d.terrace m.terr).vf)
  else if m.rank = 0xFFFE then .nowhere
  else
    let e := d.rankEnt m.terr m.rank
    if !rankV e then .invalid else if rankIt e then .transit else .inbox (rankCore e)

/-- The submitting mailbox of a launch as a destination (R277, R287); 0xFFFE when its slot held no rank. -/
def Launch.mailbox (l : Launch) : Nat :=
  match l.sub with
  | .host f => hostDest f
  | .slot _ (some r) => r
  | .slot _ none => 0xFFFE

/-- The terrace in which a message to the submitting mailbox travels. -/
def Launch.mailTerr (l : Launch) : Nat :=
  match l.sub with
  | .host _ => l.terr
  | .slot t _ => t

/-! ### Acceptance (R211, R353) -/

/-- The message is accepted: its sender goes on. -/
def Dev.mailDone (d : Dev) (m : Msg) : Dev :=
  let d := match m.waiter with
    | some w => d.reply w.1 w.2 (.done 0#64)
    | none => d
  match m.host with
  | some f => d.updFunc f (fun x => { x with busy := false })
  | none => d

/-- The message finds its rank invalid: the sending slot raises TASKBAD 0x09, and a sending function reads ERR (log 32). -/
def Dev.mailFail (d : Dev) (m : Msg) : Dev :=
  let d := match m.waiter with
    | some w => d.reply w.1 w.2 (.fail 0x52 9)
    | none => d
  match m.host with
  | some f => d.updFunc f (fun x => { x with busy := false, err := true })
  | none => d

/-- The device's view of a host physical address (R313; log 32). -/
def hostPa (a : Nat) : Nat := 2 ^ 51 + a % 2 ^ 51

/-- A message arrives: into an inbox buffer, into a function's ring, or refused and resent after 64 cycles. -/
def Dev.mailArrive (_m : Memory) (d : Dev) (g : Msg) : List Host.Cell × Dev :=
  match d.mailTo g with
  | .invalid => ([], d.mailFail g)
  | .nowhere => ([], { d.mailDone g with ctlDrops := d.ctlDrops + 1#64 })
  | .transit => ([], d.later 1 (.messageRetry g))
  | .inbox h =>
    if 64 ≤ (d.core h).inbox.length then ([], d.later 64 (.messageRetry g))
    else
      let d := d.updCore h (fun c => { c with inbox := c.inbox ++ [⟨g.terr, g.rank, g.sRank, g.sCore, g.data⟩] })
      ([], (d.wake h (fun _ _ w => w == .mailbox)).mailDone g)
  | .ring f =>
    let x := d.func f
    if x.hqLen = 0 ∨ (x.hqHead - x.hqTail).toNat = x.hqLen then ([], d.later 64 (.messageRetry g))
    else
      let a := hostPa (x.hqBase.toNat + 64 * (x.hqHead.toNat % x.hqLen))
      if d.pending a then ([], d.later 1 (.messageRetry g))
      else (cellsAt a (vecBytes g.data), (d.updFunc f (fun x => { x with hqHead := x.hqHead + 1#32 })).mailDone g)

/-- A message arrives (R211). -/
def execMessageArrival (m : Msg) : State → Host.Outcome State Fault Refusal := onMem (fun mem d => d.mailArrive mem m)
/-- A refused message, resent (R211). -/
def execMessageRetry (m : Msg) : State → Host.Outcome State Fault Refusal := onMem (fun mem d => d.mailArrive mem m)

/-! ### Mailbox forms (R212) -/

/-- The sender rank that a slot's message carries. -/
def Dev.senderRank (d : Dev) (h n : Nat) : Nat :=
  if d.isSup h n then 0xFFFF else ((d.ranksOf (terrOf (d.slot h n).lk) h n).head?).getD 0xFFFC

/-- mbsend (R212): checked, a release, sent, and waited for until it is accepted. -/
def execMbsend (a : VReg) (b : AReg) : State → Host.Outcome State Fault Refusal :=
  specForm (useV [a] [rv a, ra b]) (fun c =>
    let r := c.s.A b.toNat
    let t := terrOf c.s.lk
    let bad : Res := c.faultAt 0x52 9 r
    match c.s.reply with
    | .done _ => .done c.d
    | .fail cause sub => c.faultAt cause sub r
    | .sent | .stale => .wait c.d .message
    | .idle =>
      if !c.s.closed && (decide (2 ^ 16 ≤ r.toNat) || !c.d.rankOk t r.toNat) then bad
      else c.release (fun c =>
        let dst := if r.toNat = 0xFFFE then ((c.d.launch? c.s.lk).map Launch.mailbox).getD 0xFFFE else r.toNat
        let dt := if r.toNat = 0xFFFE then ((c.d.launch? c.s.lk).map Launch.mailTerr).getD t else t
        let d := c.d.updSlot c.h c.n (fun s => { s with reply := .sent })
        .wait (d.send 0 (.messageArrival ⟨dt, dst, c.s.V a.toNat, d.senderRank c.h c.n, c.h, some (c.h, c.n), none⟩)) .message))

/-- The ranks whose messages a slot takes: those it holds, and 0xFFFF for the supervisor slot. -/
def Dev.mailRanks (d : Dev) (h n : Nat) : List Nat :=
  let rs := d.ranksOf (terrOf (d.slot h n).lk) h n
  if d.isSup h n then rs ++ [0xFFFF] else rs

/-- The oldest message for a slot. -/
def Ctx.oldestMail (c : Ctx) : Option InMsg :=
  let rs := c.d.mailRanks c.h c.n
  (c.d.core c.h).inbox.find? (fun m => m.terr == terrOf c.s.lk && rs.contains m.rank)

/-- The status word of a message taken. -/
def InMsg.status (m : InMsg) : W64 := BitVec.ofNat 16 m.rank ++ 1#16 ++ BitVec.ofNat 16 m.sCore ++ BitVec.ofNat 16 m.sRank

/-- The two receiving forms: what an empty inbox gives is theirs. -/
def receive (d : VReg) (a : AReg) (empty : Ctx → Res) : State → Host.Outcome State Fault Refusal :=
  thread (useV [d] [wv d, wa a]) (fun c =>
    if (c.d.mailRanks c.h c.n).isEmpty then c.fault 0x52 0x0A
    else
      match c.oldestMail with
      | none => empty c
      | some m => c.acquire true (fun c =>
          .done ((c.d.setSlot c.h c.n ((c.s.setV d.toNat m.data).setA a.toNat m.status)).updCore c.h (fun k =>
            { k with inbox := k.inbox.erase m }))))

/-- mbrecv (R212). -/
def execMbrecv (d : VReg) (a : AReg) : State → Host.Outcome State Fault Refusal := receive d a (fun c => .wait c.d .mailbox)
/-- mbpoll (R212). -/
def execMbpoll (d : VReg) (a : AReg) : State → Host.Outcome State Fault Refusal :=
  receive d a (fun c => c.done (c.s.setA a.toNat 0#64))

end Sys2Proof.Machine
end

