-- ==== Sys2Proof/Decode.lean ====
section
/-! DEFINITION. Decoding of thread words (R56 to R63) and of tile commands (R65 to R67), total on any bits, refusing by
sub-code, and the encoder written from the same tables. -/

namespace Sys2Proof

/-- What decoding answers: an instruction, or the sub-code of ILLEGAL (R63) or of CMDBAD (R67). -/
inductive Decoded where
  | ok (i : Instr)
  | bad (sub : Nat)
deriving DecidableEq, Repr

/-! ### The five formats (R57) -/

/-- The fields of format V (R57 Table 1). -/
structure FieldsV where
  op : BitVec 8
  la : BitVec 4
  km : BitVec 3
  kz : BitVec 1
  d : BitVec 7
  a : BitVec 7
  b : BitVec 7
  c : BitVec 7
  fn : BitVec 8
  mod : BitVec 12
deriving DecidableEq, Repr

/-- The fields of format I (R57 Table 2). -/
structure FieldsI where
  op : BitVec 8
  la : BitVec 4
  km : BitVec 3
  kz : BitVec 1
  d : BitVec 7
  a : BitVec 7
  sub : BitVec 2
  imm : BitVec 32
deriving DecidableEq, Repr

/-- The fields of format M (R57 Table 2). -/
structure FieldsM where
  op : BitVec 8
  la : BitVec 4
  km : BitVec 3
  kz : BitVec 1
  d : BitVec 7
  x : BitVec 7
  base : BitVec 4
  mod : BitVec 6
  off : BitVec 24
deriving DecidableEq, Repr

/-- The fields of format B (R57 Table 2); z1 and z2 are the bits that must be zero. -/
structure FieldsB where
  op : BitVec 8
  la : BitVec 4
  km : BitVec 3
  kz : BitVec 1
  ab : BitVec 4
  cc : BitVec 3
  z1 : BitVec 3
  aa : BitVec 4
  z2 : BitVec 2
  off : BitVec 32
deriving DecidableEq, Repr

/-- The fields of format A (R57 Table 2); z1 to z4 are the bits that must be zero. -/
structure FieldsA where
  op : BitVec 8
  la : BitVec 4
  km : BitVec 3
  kz : BitVec 1
  z1 : BitVec 3
  d : BitVec 4
  z2 : BitVec 3
  a : BitVec 4
  z3 : BitVec 3
  b : BitVec 4
  z4 : BitVec 3
  c : BitVec 4
  fn : BitVec 8
  mod : BitVec 12
deriving DecidableEq, Repr

def FieldsV.split (w : W64) : FieldsV :=
  ⟨w.extractLsb' 56 8, w.extractLsb' 52 4, w.extractLsb' 49 3, w.extractLsb' 48 1, w.extractLsb' 41 7,
   w.extractLsb' 34 7, w.extractLsb' 27 7, w.extractLsb' 20 7, w.extractLsb' 12 8, w.extractLsb' 0 12⟩

def FieldsV.pack (f : FieldsV) : W64 := f.op ++ f.la ++ f.km ++ f.kz ++ f.d ++ f.a ++ f.b ++ f.c ++ f.fn ++ f.mod

def FieldsI.split (w : W64) : FieldsI :=
  ⟨w.extractLsb' 56 8, w.extractLsb' 52 4, w.extractLsb' 49 3, w.extractLsb' 48 1, w.extractLsb' 41 7,
   w.extractLsb' 34 7, w.extractLsb' 32 2, w.extractLsb' 0 32⟩

def FieldsI.pack (f : FieldsI) : W64 := f.op ++ f.la ++ f.km ++ f.kz ++ f.d ++ f.a ++ f.sub ++ f.imm

def FieldsM.split (w : W64) : FieldsM :=
  ⟨w.extractLsb' 56 8, w.extractLsb' 52 4, w.extractLsb' 49 3, w.extractLsb' 48 1, w.extractLsb' 41 7,
   w.extractLsb' 34 7, w.extractLsb' 30 4, w.extractLsb' 24 6, w.extractLsb' 0 24⟩

def FieldsM.pack (f : FieldsM) : W64 := f.op ++ f.la ++ f.km ++ f.kz ++ f.d ++ f.x ++ f.base ++ f.mod ++ f.off

def FieldsB.split (w : W64) : FieldsB :=
  ⟨w.extractLsb' 56 8, w.extractLsb' 52 4, w.extractLsb' 49 3, w.extractLsb' 48 1, w.extractLsb' 44 4,
   w.extractLsb' 41 3, w.extractLsb' 38 3, w.extractLsb' 34 4, w.extractLsb' 32 2, w.extractLsb' 0 32⟩

def FieldsB.pack (f : FieldsB) : W64 := f.op ++ f.la ++ f.km ++ f.kz ++ f.ab ++ f.cc ++ f.z1 ++ f.aa ++ f.z2 ++ f.off

def FieldsA.split (w : W64) : FieldsA :=
  ⟨w.extractLsb' 56 8, w.extractLsb' 52 4, w.extractLsb' 49 3, w.extractLsb' 48 1, w.extractLsb' 45 3,
   w.extractLsb' 41 4, w.extractLsb' 38 3, w.extractLsb' 34 4, w.extractLsb' 31 3, w.extractLsb' 27 4,
   w.extractLsb' 24 3, w.extractLsb' 20 4, w.extractLsb' 12 8, w.extractLsb' 0 12⟩

def FieldsA.pack (f : FieldsA) : W64 :=
  f.op ++ f.la ++ f.km ++ f.kz ++ f.z1 ++ f.d ++ f.z2 ++ f.a ++ f.z3 ++ f.b ++ f.z4 ++ f.c ++ f.fn ++ f.mod

/-! ### Coded fields (R39, R62 Table 4) -/

def IType.ofCode : BitVec 3 → Option IType
  | 0 => some .i32 | 1 => some .u32 | _ => none
def IType.code : IType → BitVec 3
  | .i32 => 0 | .u32 => 1
def FType.ofCode : BitVec 3 → Option FType
  | 2 => some .f32 | 3 => some .bf16 | _ => none
def FType.code : FType → BitVec 3
  | .f32 => 2 | .bf16 => 3
def Fmt.ofCode : BitVec 3 → Option Fmt
  | 0 => some .i32 | 1 => some .u32 | 2 => some .f32 | 3 => some .bf16 | 4 => some .e4m3 | 5 => some .e5m2 | _ => none
def Fmt.code : Fmt → BitVec 3
  | .i32 => 0 | .u32 => 1 | .f32 => 2 | .bf16 => 3 | .e4m3 => 4 | .e5m2 => 5
def Rnd.ofCode : BitVec 3 → Option Rnd
  | 0 => some .rn | 1 => some .rz | 2 => some .ru | 3 => some .rd | 4 => some .dyn | _ => none
def Rnd.code : Rnd → BitVec 3
  | .rn => 0 | .rz => 1 | .ru => 2 | .rd => 3 | .dyn => 4
def Cc.ofCode : BitVec 3 → Option Cc
  | 0 => some .eq | 1 => some .ne | 2 => some .lt | 3 => some .ge | 4 => some .ltu | 5 => some .geu | _ => none
def Cc.code : Cc → BitVec 3
  | .eq => 0 | .ne => 1 | .lt => 2 | .ge => 3 | .ltu => 4 | .geu => 5
def Fcc.ofCode : BitVec 3 → Option Fcc
  | 0 => some .eq | 1 => some .ne | 2 => some .lt | 3 => some .ge | _ => none
def Fcc.code : Fcc → BitVec 3
  | .eq => 0 | .ne => 1 | .lt => 2 | .ge => 3
def Dir.ofBit (b : BitVec 1) : Dir := if b == 0#1 then .up else .down
def Dir.bit : Dir → BitVec 1
  | .up => 0 | .down => 1
def LKind.ofBit (b : BitVec 1) : LKind := if b == 0#1 then .plain else .x
def LKind.bit : LKind → BitVec 1
  | .plain => 0 | .x => 1
def LeaseCls.ofCode : BitVec 2 → Option LeaseCls
  | 0 => some .short | 1 => some .medium | 2 => some .long | _ => none
def LeaseCls.code : LeaseCls → BitVec 2
  | .short => 0 | .medium => 1 | .long => 2
def AmoOp.ofCode : BitVec 4 → Option AmoOp
  | 0 => some .add | 1 => some .and | 2 => some .or | 3 => some .xor | 4 => some .min | 5 => some .max
  | 6 => some .minu | 7 => some .maxu | 8 => some .swap | 9 => some .cas | _ => none
def AmoOp.code : AmoOp → BitVec 4
  | .add => 0 | .and => 1 | .or => 2 | .xor => 3 | .min => 4 | .max => 5 | .minu => 6 | .maxu => 7 | .swap => 8
  | .cas => 9
def Sem.ofCode : BitVec 3 → Option Sem
  | 0 => some .acq | 1 => some .rel | 2 => some .full | _ => none
def Sem.code : Sem → BitVec 3
  | .acq => 0 | .rel => 1 | .full => 2
def Scope.ofCode : BitVec 3 → Option Scope
  | 0 => some .core | 1 => some .court | 2 => some .district | 3 => some .device | 4 => some .system | _ => none
def Scope.code : Scope → BitVec 3
  | .core => 0 | .court => 1 | .district => 2 | .device => 3 | .system => 4
def SReg.ofCode : BitVec 8 → Option SReg
  | 0x00 => some .pc | 0x01 => some .tsw | 0x02 => some .gtid | 0x03 => some .core | 0x04 => some .slot
  | 0x05 => some .ts | 0x06 => some .taskid | 0x08 => some .frec0 | 0x09 => some .frec1 | 0x0A => some .frec2
  | 0x0B => some .frec3 | 0x0C => some .clock | 0x0D => some .tbgen | 0x0E => some .mode | _ => none
def SReg.code : SReg → BitVec 8
  | .pc => 0x00 | .tsw => 0x01 | .gtid => 0x02 | .core => 0x03 | .slot => 0x04 | .ts => 0x05 | .taskid => 0x06
  | .frec0 => 0x08 | .frec1 => 0x09 | .frec2 => 0x0A | .frec3 => 0x0B | .clock => 0x0C | .tbgen => 0x0D
  | .mode => 0x0E

/-! ### One decoded row -/

/-- A word read under its OP and FN: whether its coded fields are accepted, whether the bits that must be zero are,
whether the form carries LA, whether the register-pair rule holds, and the instruction. -/
structure Row where
  ok4 : Bool
  ok5 : Bool
  long : Bool
  ok7 : Bool
  i : Instr

/-- The checks of R63 after the first three, in their order. -/
def Row.check (r : Row) (la : BitVec 4) : Decoded :=
  if !r.ok4 then .bad 4 else if !r.ok5 then .bad 5
  else if !r.long && la != 0#4 then .bad 6 else if !r.ok7 then .bad 7 else .ok r.i

/-- A short form whose coded fields need no check. -/
def Row.short (ok5 : Bool) (i : Instr) : Row := ⟨true, ok5, false, true, i⟩
/-- A short form with coded fields. -/
def Row.coded (ok4 ok5 : Bool) (i : Instr) : Row := ⟨ok4, ok5, false, true, i⟩

/-- An a-register in a 7-bit field, and the bits above it zero (R58). -/
def aOf (x : BitVec 7) : AReg := x.extractLsb' 0 4
def aZ (x : BitVec 7) : Bool := x.extractLsb' 4 3 == 0#3
/-- A mask register in a 7-bit field, and the bits above it zero (R58). -/
def kOf (x : BitVec 7) : KReg := x.extractLsb' 0 3
def kZ (x : BitVec 7) : Bool := x.extractLsb' 3 4 == 0#4

/-- KM and KZ are zero (R58). -/
def FieldsV.noMask (f : FieldsV) : Bool := f.km == 0#3 && f.kz == 0#1
def FieldsI.noMask (f : FieldsI) : Bool := f.km == 0#3 && f.kz == 0#1
def FieldsM.noMask (f : FieldsM) : Bool := f.km == 0#3 && f.kz == 0#1
def FieldsA.noMask (f : FieldsA) : Bool := f.km == 0#3 && f.kz == 0#1
def FieldsV.z (f : FieldsV) : Bool := f.kz == 1#1
def FieldsM.z (f : FieldsM) : Bool := f.kz == 1#1
/-- MOD[2:0], MOD[5:3], MOD[8:6], MOD[11:9]. -/
def FieldsV.m0 (f : FieldsV) : BitVec 3 := f.mod.extractLsb' 0 3
def FieldsV.m1 (f : FieldsV) : BitVec 3 := f.mod.extractLsb' 3 3
def FieldsV.m2 (f : FieldsV) : BitVec 3 := f.mod.extractLsb' 6 3
def FieldsV.m3 (f : FieldsV) : BitVec 3 := f.mod.extractLsb' 9 3

/-- Integer forms of OP 0x20 (R95). -/
def rowInt (f : FieldsV) : Option Row :=
  let ty := (IType.ofCode f.m0).getD .i32
  let okT := (IType.ofCode f.m0).isSome
  let okM := f.mod.extractLsb' 3 9 == 0#9
  let dab (c : IType → KReg → Bool → VReg → VReg → VReg → Instr) : Option Row :=
    some (.coded okT (okM && f.c == 0#7) (c ty f.km f.z f.d f.a f.b))
  let da (c : IType → KReg → Bool → VReg → VReg → Instr) : Option Row :=
    some (.coded okT (okM && f.b == 0#7 && f.c == 0#7) (c ty f.km f.z f.d f.a))
  match f.fn with
  | 0x00 => dab .vadd
  | 0x01 => dab .vsub
  | 0x02 => dab .vmul
  | 0x03 => dab .vmulh
  | 0x04 => dab .vmin
  | 0x05 => dab .vmax
  | 0x06 => some (.coded (f.m0 == 0#3) (okM && f.b == 0#7 && f.c == 0#7) (.vabs f.km f.z f.d f.a))
  | 0x07 => da .vneg
  | 0x08 => dab .vand
  | 0x09 => dab .vor
  | 0x0A => dab .vxor
  | 0x0B => da .vnot
  | 0x0C => dab .vshl
  | 0x0D => dab .vshr
  | 0x0E => dab .vsar
  | 0x0F => some (.coded okT okM (.vmad ty f.km f.z f.d f.a f.b f.c))
  | _ => none

/-- Integer reductions and scans, OP 0x27 (R108). -/
def rowRed (f : FieldsV) : Option Row :=
  let ty := (IType.ofCode f.m0).getD .i32
  let da (c : IType → KReg → Bool → VReg → VReg → Instr) : Option Row :=
    some (.coded (IType.ofCode f.m0).isSome (f.mod.extractLsb' 3 9 == 0#9 && f.b == 0#7 && f.c == 0#7)
      (c ty f.km f.z f.d f.a))
  match f.fn with
  | 0x00 => da .vredsum
  | 0x01 => da .vredmin
  | 0x02 => da .vredmax
  | 0x03 => da .vredand
  | 0x04 => da .vredor
  | 0x05 => da .vredxor
  | 0x08 => da .vscan
  | 0x09 => da .vscanx
  | _ => none

/-- Mask forms, OP 0x22 (R97). -/
def rowMask (f : FieldsV) : Option Row :=
  let okM := f.noMask && f.mod == 0#12
  let kab (c : KReg → KReg → KReg → Instr) : Option Row :=
    some (.short (okM && kZ f.d && kZ f.a && kZ f.b && f.c == 0#7) (c (kOf f.d) (kOf f.a) (kOf f.b)))
  let ka (c : KReg → KReg → Instr) : Option Row :=
    some (.short (okM && kZ f.d && kZ f.a && f.b == 0#7 && f.c == 0#7) (c (kOf f.d) (kOf f.a)))
  match f.fn with
  | 0x00 => kab .kand
  | 0x01 => kab .kor
  | 0x02 => kab .kxor
  | 0x03 => kab .kandn
  | 0x04 => ka .knot
  | 0x05 => ka .kmov
  | 0x06 => some (.short (okM && aZ f.d && kZ f.a && f.b == 0#7 && f.c == 0#7) (.kpop (aOf f.d) (kOf f.a)))
  | 0x07 => some (.short (okM && aZ f.d && kZ f.a && f.b == 0#7 && f.c == 0#7) (.kfirst (aOf f.d) (kOf f.a)))
  | 0x08 => some (.short (okM && kZ f.d && aZ f.a && f.b == 0#7 && f.c == 0#7) (.kset (kOf f.d) (aOf f.a)))
  | _ => none

/-- Lane moves, OP 0x24 and 0x25 (R99); `b24` chooses OP 0x24. -/
def rowLane (b24 : Bool) (f : FieldsV) : Option Row :=
  let lane : BitVec 4 := f.mod.extractLsb' 0 4
  let hi := f.mod.extractLsb' 4 8 == 0#8
  let m0 := f.mod == 0#12
  let bc0 := f.b == 0#7 && f.c == 0#7
  if b24 then
    match f.fn with
    | 0x00 => some (.short (hi && bc0) (.vbcast lane f.km f.z f.d f.a))
    | _ => none
  else
    match f.fn with
    | 0x00 => some (.short (m0 && f.a == 0#7 && bc0) (.viota f.km f.z f.d))
    | 0x01 => some (.short (m0 && f.c == 0#7) (.vperm f.km f.z f.d f.a f.b))
    | 0x02 => some (.short (hi && bc0) (.vrotl lane f.km f.z f.d f.a))
    | 0x03 => some (.short (hi && f.noMask && aZ f.d && bc0) (.vext lane (aOf f.d) f.a))
    | 0x04 => some (.short (hi && f.noMask && aZ f.a && bc0) (.vins lane f.d (aOf f.a)))
    | 0x05 => some (.short (m0 && bc0) (.vmov f.km f.z f.d f.a))
    | _ => none

/-- The neighbour link, OP 0x26 (R100). -/
def rowLink (f : FieldsV) : Option Row :=
  let dir := Dir.ofBit (f.mod.extractLsb' 0 1)
  let okM := f.noMask && f.mod.extractLsb' 1 11 == 0#11 && f.c == 0#7
  match f.fn with
  | 0x00 => some (.short (okM && f.d == 0#7 && aZ f.b) (.linkw dir f.a (aOf f.b)))
  | 0x01 => some (.short (okM && f.a == 0#7 && f.b == 0#7) (.linkwArm dir f.d))
  | _ => none

/-- Floating arithmetic, OP 0x40 (R105). -/
def rowFloat (f : FieldsV) : Option Row :=
  let ty := (FType.ofCode f.m0).getD .f32
  let okT := (FType.ofCode f.m0).isSome
  let rnd := (Rnd.ofCode f.m1).getD .rn
  let okR := (Rnd.ofCode f.m1).isSome
  let okM := f.mod.extractLsb' 6 6 == 0#6
  let rab (c : FType → Rnd → KReg → Bool → VReg → VReg → VReg → Instr) : Option Row :=
    some (.coded (okT && okR) (okM && f.c == 0#7) (c ty rnd f.km f.z f.d f.a f.b))
  let rabc (c : FType → Rnd → KReg → Bool → VReg → VReg → VReg → VReg → Instr) : Option Row :=
    some (.coded (okT && okR) okM (c ty rnd f.km f.z f.d f.a f.b f.c))
  let nab (c : FType → KReg → Bool → VReg → VReg → VReg → Instr) : Option Row :=
    some (.coded (okT && f.m1 == 0#3) (okM && f.c == 0#7) (c ty f.km f.z f.d f.a f.b))
  let na (c : FType → KReg → Bool → VReg → VReg → Instr) : Option Row :=
    some (.coded (okT && f.m1 == 0#3) (okM && f.b == 0#7 && f.c == 0#7) (c ty f.km f.z f.d f.a))
  match f.fn with
  | 0x00 => rab .vfadd
  | 0x01 => rab .vfsub
  | 0x02 => rab .vfmul
  | 0x03 => rabc .vfma
  | 0x04 => rabc .vfms
  | 0x05 => rabc .vfnma
  | 0x06 => nab .vfmin
  | 0x07 => nab .vfmax
  | 0x08 => na .vfabs
  | 0x09 => na .vfneg
  | _ => none

/-- The approximations, OP 0x42: type f32 and rnd code 0 (R107). -/
def rowApprox (f : FieldsV) : Option Row :=
  let r (c : KReg → Bool → VReg → VReg → Instr) : Option Row :=
    some (.coded (f.m0 == 2#3 && f.m1 == 0#3) (f.mod.extractLsb' 6 6 == 0#6 && f.b == 0#7 && f.c == 0#7)
      (c f.km f.z f.d f.a))
  match f.fn with
  | 0x00 => r .vfrcpa
  | 0x01 => r .vfrsqa
  | 0x02 => r .vfexp2a
  | 0x03 => r .vflog2a
  | _ => none

/-- Floating reductions and scans, OP 0x43 (R108): only the sums round. -/
def rowFred (f : FieldsV) : Option Row :=
  let ty := (FType.ofCode f.m0).getD .f32
  let okT := (FType.ofCode f.m0).isSome
  let rnd := (Rnd.ofCode f.m1).getD .rn
  let okR := (Rnd.ofCode f.m1).isSome
  let okM := f.mod.extractLsb' 6 6 == 0#6 && f.b == 0#7 && f.c == 0#7
  let r (c : FType → Rnd → KReg → Bool → VReg → VReg → Instr) : Option Row :=
    some (.coded (okT && okR) okM (c ty rnd f.km f.z f.d f.a))
  let n (c : FType → KReg → Bool → VReg → VReg → Instr) : Option Row :=
    some (.coded (okT && f.m1 == 0#3) okM (c ty f.km f.z f.d f.a))
  match f.fn with
  | 0x00 => r .vfredsum
  | 0x01 => n .vfredmin
  | 0x02 => n .vfredmax
  | 0x08 => r .vfscan
  | 0x09 => r .vfscanx
  | _ => none

/-- Conversions, OP 0x44 and 0x45 (R62, R109, R110); `b44` chooses OP 0x44. -/
def rowCvt (b44 : Bool) (f : FieldsV) : Option Row :=
  let dst := (Fmt.ofCode f.m0).getD .f32
  let src := (Fmt.ofCode f.m2).getD .f32
  let okF := (Fmt.ofCode f.m0).isSome && (Fmt.ofCode f.m2).isSome
  let rnd := (Rnd.ofCode f.m1).getD .rn
  let okR := (Rnd.ofCode f.m1).isSome
  let okM := f.m3 == 0#3 && f.c == 0#7
  if b44 then
    match f.fn with
    | 0x00 => some (.coded (okF && okR && cvtOk dst src rnd) (okM && f.b == 0#7) (.vcvt dst src rnd f.km f.z f.d f.a))
    | _ => none
  else
    match f.fn with
    | 0x00 => some ⟨okF && okR && (dst.isFp8 || src.isFp8), okM && f.b == 0#7, true, true,
                    .vcvtFp8 f.la dst src rnd f.km f.z f.d f.a⟩
    | 0x01 => some ⟨okF && okR && dst.isFp8 && (src == .f32 || src == .bf16), okM, true, evenReg f.d,
                    .vcvtsc f.la dst src rnd f.km f.z f.d f.a f.b⟩
    | _ => none

/-- Table and region forms, OP 0x69 (R132). -/
def rowTable (f : FieldsV) : Option Row :=
  let okM := f.noMask && f.mod == 0#12 && f.c == 0#7
  match f.fn with
  | 0x00 => some (.short (okM && f.d == 0#7 && aZ f.a && aZ f.b) (.rgnset (aOf f.a) (aOf f.b)))
  | 0x01 => some (.short (okM && f.d == 0#7 && aZ f.b) (.tbld f.a (aOf f.b)))
  | 0x02 => some (.short (okM && f.d == 0#7 && aZ f.a && f.b == 0#7) (.tbsw (aOf f.a)))
  | 0x03 => some (.short (okM && f.a == 0#7 && aZ f.b) (.tbrd f.d (aOf f.b)))
  | _ => none

/-- Barrier forms, OP 0x90 (R179); only bphs accepts MOD[9]. -/
def rowBar (f : FieldsV) : Option Row :=
  let bar : BitVec 9 := f.mod.extractLsb' 0 9
  let part := f.mod.extractLsb' 9 1 == 1#1
  let hi2 := f.mod.extractLsb' 10 2 == 0#2
  let okM := f.noMask && hi2 && f.c == 0#7
  let np := !part
  match f.fn with
  | 0x00 => some (.short (okM && np && f.d == 0#7 && aZ f.a && f.b == 0#7) (.bini bar (aOf f.a)))
  | 0x01 => some (.short (okM && np && f.d == 0#7 && aZ f.a && f.b == 0#7) (.barr bar (aOf f.a)))
  | 0x02 => some (.short (okM && np && aZ f.d && aZ f.a && f.b == 0#7) (.bwait bar (aOf f.d) (aOf f.a)))
  | 0x03 => some (.short (okM && np && aZ f.d && f.a == 0#7 && f.b == 0#7) (.barw bar (aOf f.d)))
  | 0x04 => some (.short (okM && np && f.d == 0#7 && aZ f.a && f.b == 0#7) (.bexp bar (aOf f.a)))
  | 0x05 => some (.short (okM && aZ f.d && f.a == 0#7 && f.b == 0#7) (.bphs bar part (aOf f.d)))
  | 0x06 => some (.short (okM && np && f.d == 0#7 && f.a == 0#7 && f.b == 0#7) (.bclr bar))
  | _ => none

/-- Object forms, OP 0x91 (R187). -/
def rowObj (f : FieldsV) : Option Row :=
  let obj : BitVec 6 := f.mod.extractLsb' 0 6
  let okM := f.noMask && f.mod.extractLsb' 6 6 == 0#6
  let z := f.d == 0#7
  let abc0 := f.a == 0#7 && f.b == 0#7 && f.c == 0#7
  match f.fn with
  | 0x00 => some (.short (okM && z && aZ f.a && f.b == 0#7 && f.c == 0#7) (.odecl obj (aOf f.a)))
  | 0x01 => some (.short (okM && z && abc0) (.oseal obj))
  | 0x02 => some (.short (okM && z && aZ f.a && aZ f.b && aZ f.c) (.ocopy obj (aOf f.a) (aOf f.b) (aOf f.c)))
  | 0x03 => some (.short (okM && z && abc0) (.oreopen obj))
  | 0x04 => some (.short (okM && z && abc0) (.ofree obj))
  | 0x05 => some (.short (okM && aZ f.d && abc0) (.ostat obj (aOf f.d)))
  | _ => none

/-- Task forms, OP 0xA0 (R199). -/
def rowTask (f : FieldsV) : Option Row :=
  let m := f.mod == 0#12
  let okM := f.noMask && m && f.c == 0#7
  match f.fn with
  | 0x00 => some (.short (okM && f.d == 0#7 && f.b == 0#7) (.tqcfg f.a))
  | 0x01 => some (.short (okM && f.d == 0#7 && aZ f.b) (.tqpush f.a (aOf f.b)))
  | 0x02 => some (.short (m && f.kz == 0#1 && f.d == 0#7 && aZ f.b) (.tqpushv f.km f.a (aOf f.b) f.c))
  | 0x03 => some (.short (okM && f.d == 0#7 && kZ f.a && f.b == 0#7) (.tend (kOf f.a)))
  | 0x04 => some (.short (okM && f.d == 0#7 && kZ f.a && f.b == 0#7) (.tabort (kOf f.a)))
  | 0x05 => some (.short (okM && aZ f.d && aZ f.a && f.b == 0#7) (.tqstat (aOf f.d) (aOf f.a)))
  | _ => none

/-- Mailbox forms, OP 0xA1 (R212). -/
def rowMail (f : FieldsV) : Option Row :=
  let okM := f.noMask && f.mod == 0#12 && f.c == 0#7
  match f.fn with
  | 0x00 => some (.short (okM && f.d == 0#7 && aZ f.b) (.mbsend f.a (aOf f.b)))
  | 0x01 => some (.short (okM && aZ f.a && f.b == 0#7) (.mbrecv f.d (aOf f.a)))
  | 0x02 => some (.short (okM && aZ f.a && f.b == 0#7) (.mbpoll f.d (aOf f.a)))
  | _ => none

/-- Forms of OP 0xAA (R83). -/
def rowGroup (f : FieldsV) : Option Row :=
  let okM := f.noMask && f.mod == 0#12 && f.b == 0#7 && f.c == 0#7
  match f.fn with
  | 0x00 => some (.short (okM && f.d == 0#7 && kZ f.a) (.join (kOf f.a)))
  | 0x01 => some (.short (okM && kZ f.d && f.a == 0#7) (.lanes (kOf f.d)))
  | _ => none

/-- Profiling forms, OP 0xDA (R310). -/
def rowProf (f : FieldsV) : Option Row :=
  let okM := f.noMask && f.mod == 0#12 && f.b == 0#7 && f.c == 0#7
  match f.fn with
  | 0x00 => some (.short (okM && aZ f.d && aZ f.a) (.profRd (aOf f.d) (aOf f.a)))
  | 0x01 => some (.short (okM && f.d == 0#7 && aZ f.a) (.profClr (aOf f.a)))
  | 0x02 => some (.short (okM && aZ f.d && aZ f.a) (.profLease (aOf f.d) (aOf f.a)))
  | _ => none

/-- Forms of format V whose OP lists the one function code 0x00. -/
def rowOne (f : FieldsV) (r : Row) : Option Row := if f.fn == 0x00#8 then some r else none

/-- Every OP of format V (R60 Table 3); none where the OP is unassigned, inner none where FN is not listed. -/
def rowV (f : FieldsV) : Option (Option Row) :=
  let nm := f.noMask && f.mod == 0#12
  let d0 := f.d == 0#7
  let a0 := f.a == 0#7
  let b0 := f.b == 0#7
  let c0 := f.c == 0#7
  match f.op with
  | 0x01 => some (rowOne f (.short (nm && d0 && a0 && b0 && c0) .nop))
  | 0x0A => some (match f.fn with
      | 0x00 => some (.short (f.noMask && f.mod.extractLsb' 1 11 == 0#11 && d0 && a0 && b0 && c0)
                  (.halt (f.mod.extractLsb' 0 1 == 1#1)))
      | 0x01 => some (.short (nm && d0 && a0 && b0 && c0) .yield)
      | _ => none)
  | 0x20 => some (rowInt f)
  | 0x21 => some (rowOne f (.coded (Cc.ofCode f.m2).isSome
      (f.m0 == 0#3 && f.m1 == 0#3 && f.m3 == 0#3 && kZ f.d && c0)
      (.vcmp ((Cc.ofCode f.m2).getD .eq) f.km f.z (kOf f.d) f.a f.b)))
  | 0x22 => some (rowMask f)
  | 0x24 => some (rowLane true f)
  | 0x25 => some (rowLane false f)
  | 0x26 => some (rowLink f)
  | 0x27 => some (rowRed f)
  | 0x40 => some (rowFloat f)
  | 0x41 => some (rowOne f (.coded ((FType.ofCode f.m0).isSome && (Fcc.ofCode f.m2).isSome && f.m1 == 0#3)
      (f.m3 == 0#3 && kZ f.d && c0)
      (.vfcmp ((Fcc.ofCode f.m2).getD .eq) ((FType.ofCode f.m0).getD .f32) f.km f.z (kOf f.d) f.a f.b)))
  | 0x42 => some (rowApprox f)
  | 0x43 => some (rowFred f)
  | 0x44 => some (rowCvt true f)
  | 0x45 => some (rowCvt false f)
  | 0x69 => some (rowTable f)
  | 0x86 => some (rowOne f (.coded ((Sem.ofCode f.m0).isSome && (Scope.ofCode f.m1).isSome)
      (f.noMask && f.mod.extractLsb' 6 6 == 0#6 && d0 && a0 && b0 && c0)
      (.fence ((Sem.ofCode f.m0).getD .acq) ((Scope.ofCode f.m1).getD .core))))
  | 0x87 => some (rowOne f (.short (nm && d0 && a0 && b0 && c0) .commit))
  | 0x88 => some (rowOne f (.short (nm && d0 && a0 && b0 && c0) .isync))
  | 0x90 => some (rowBar f)
  | 0x91 => some (rowObj f)
  | 0xA0 => some (rowTask f)
  | 0xA1 => some (rowMail f)
  | 0xAA => some (rowGroup f)
  | 0xB0 => some (rowOne f ⟨true, nm && aZ f.d && b0 && c0, true, true, .mqpush f.la (aOf f.d) f.a⟩)
  | 0xB1 => some (rowOne f ⟨true, nm && aZ f.d && b0 && c0, true, true, .cqpush f.la (aOf f.d) f.a⟩)
  | 0xB2 => some (rowOne f (.short (nm && aZ f.d && aZ f.a && b0 && c0) (.qstat (aOf f.d) (aOf f.a))))
  | 0xC0 => some (rowOne f ⟨aOf f.d != aOf f.a, nm && aZ f.d && aZ f.a && c0, true, true,
      .kvlook f.la (aOf f.d) (aOf f.a) f.b⟩)
  | 0xC1 => some (rowOne f (.short (nm && aZ f.d && aZ f.a && aZ f.b && c0) (.kvins (aOf f.d) (aOf f.a) (aOf f.b))))
  | 0xC2 => some (rowOne f (.short (nm && aZ f.d && aZ f.c) (.kvapp (aOf f.d) f.a f.b (aOf f.c))))
  | 0xC3 => some (rowOne f (.short (nm && aZ f.d && aZ f.a && b0 && c0) (.kvfree (aOf f.d) (aOf f.a))))
  | 0xC4 => some (rowOne f (.short (nm && d0 && aZ f.a && aZ f.b && c0) (.kvpos (aOf f.a) (aOf f.b))))
  | 0xC7 => some (rowOne f ⟨true, f.noMask && f.mod.extractLsb' 4 8 == 0#8 && aZ f.d && aZ f.a && b0 && c0, true, true,
      .migr f.la (f.mod.extractLsb' 0 4) (aOf f.d) (aOf f.a)⟩)
  | 0xD2 => some (rowOne f (.short (nm && aZ f.d && aZ f.a && aZ f.b && aZ f.c)
      (.spawn (aOf f.d) (aOf f.a) (aOf f.b) (aOf f.c))))
  | 0xD3 => some (rowOne f (.short (nm && d0 && aZ f.a && b0 && c0) (.kill (aOf f.a))))
  | 0xD5 => some (rowOne f (.short (nm && d0 && aZ f.a && aZ f.b && aZ f.c) (.eret (aOf f.a) (aOf f.b) (aOf f.c))))
  | 0xD6 => some (rowOne f (.short (nm && d0 && a0 && b0 && c0) .park))
  | 0xD7 => some (rowOne f (.short (nm && aZ f.d && aZ f.a && b0 && c0) (.wake (aOf f.d) (aOf f.a))))
  | 0xD8 => some (rowOne f (.short (nm && d0 && aZ f.a && b0 && c0) (.plbinv (aOf f.a))))
  | 0xD9 => some (rowOne f (.short (nm && d0 && aZ f.a && aZ f.b && c0) (.tlbinv (aOf f.a) (aOf f.b))))
  | 0xDA => some (rowProf f)
  | 0xDB => some (rowOne f (.short (nm && d0 && a0 && b0 && c0) .brk))
  | _ => none

/-- Every OP of format I (R60). -/
def rowI (f : FieldsI) : Option Row :=
  let nm := f.noMask
  let sub0 := f.sub == 0#2
  let u := f.sub == 1#2
  let okU := f.sub == 0#2 || f.sub == 1#2
  match f.op with
  | 0x12 => some (.coded okU (nm && aZ f.d && aZ f.a) (.aaddi u (aOf f.d) (aOf f.a) f.imm))
  | 0x13 => some (.coded okU (nm && aZ f.d && f.a == 0#7) (.ali u (aOf f.d) f.imm))
  | 0x14 => some (.coded sub0 (nm && aZ f.d && aZ f.a) (.alih (aOf f.d) (aOf f.a) f.imm))
  | 0x23 => some (.coded sub0 (aZ f.a) (.vli f.km (f.kz == 1#1) f.d (aOf f.a) f.imm))
  | 0xA8 => some (.coded (sub0 && decide (f.a.toNat ≤ 16)) (f.kz == 0#1) (.split f.km f.d f.a f.imm))
  | 0xA9 => some (.coded sub0 (nm && kZ f.d && f.a == 0#7) (.refill (kOf f.d) f.imm))
  | 0xD4 => some (.coded (sub0 && decide (f.imm.toNat < 0xFFFF)) (nm && f.d == 0#7 && aZ f.a) (.trap (aOf f.a) f.imm))
  | _ => none

/-- Every OP of format M (R60). -/
def rowM (f : FieldsM) : Option Row :=
  let kind := LKind.ofBit (f.mod.extractLsb' 0 1)
  let k5 := f.mod.extractLsb' 1 5 == 0#5
  let m0 := f.mod == 0#6
  let s := f.kz == 0#1
  let nm := f.noMask
  let xn := f.x == 0x7F#7
  match f.op with
  | 0x60 => some (.short k5 (.lld kind f.km f.z f.d f.x f.base f.off))
  | 0x61 => some (.short (k5 && s) (.lst kind f.km f.d f.x f.base f.off))
  | 0x62 => some ⟨true, k5, false, evenReg f.d, .lldx kind f.km f.z f.d f.x f.base f.off⟩
  | 0x63 => some ⟨true, k5 && s, false, evenReg f.d, .lstx kind f.km f.d f.x f.base f.off⟩
  | 0x64 => some (.coded xn (k5 && nm && aZ f.d) (.ald kind (aOf f.d) f.base f.off))
  | 0x65 => some (.coded xn (k5 && nm && aZ f.d) (.ast kind (aOf f.d) f.base f.off))
  | 0x66 => some (.short m0 (.ltag f.km f.z f.d f.x f.base f.off))
  | 0x67 => some (.short (m0 && s) (.stag f.km f.d f.x f.base f.off))
  | 0x68 => some (.short m0 (.lpeek f.km f.z f.d f.x f.base f.off))
  | 0x70 => some ⟨true, m0, true, true, .gld f.la f.km f.z f.d f.x f.base f.off⟩
  | 0x71 => some (.short (m0 && s) (.gst f.km f.d f.x f.base f.off))
  | 0x72 => some ⟨true, m0, true, evenReg f.d, .gldx f.la f.km f.z f.d f.x f.base f.off⟩
  | 0x73 => some ⟨true, m0 && s, false, evenReg f.d, .gstx f.km f.d f.x f.base f.off⟩
  | 0x74 => some (.short (m0 && s && f.d == 0#7) (.gpf f.km f.x f.base f.off))
  | 0x75 => some (.short (m0 && s && f.d == 0#7) (.ginv f.km f.x f.base f.off))
  | 0x80 => some ⟨xn && (LeaseCls.ofCode (f.mod.extractLsb' 0 2)).isSome,
      f.mod.extractLsb' 2 4 == 0#4 && nm && aZ f.d, true, true,
      .lease f.la ((LeaseCls.ofCode (f.mod.extractLsb' 0 2)).getD .short) (aOf f.d) f.base f.off⟩
  | 0x81 => some (.short m0 (.sld f.km f.z f.d f.x f.base f.off))
  | 0x82 => some (.short (m0 && s) (.sst f.km f.d f.x f.base f.off))
  | 0x85 => some ⟨(AmoOp.ofCode (f.mod.extractLsb' 0 4)).isSome,
      f.mod.extractLsb' 5 1 == 0#1 && nm && aZ f.d && aZ f.x, true, true,
      .amo f.la ((AmoOp.ofCode (f.mod.extractLsb' 0 4)).getD .add) (f.mod.extractLsb' 4 1 == 1#1) (aOf f.d) (aOf f.x)
        f.base f.off⟩
  | 0xC5 => some ⟨xn, m0, true, true, .ldkr f.la f.km f.z f.d f.base f.off⟩
  | 0xC6 => some (.coded xn (m0 && nm && f.d == 0#7) (.rtab f.base f.off))
  | _ => none

/-- Every OP of format B (R60, R73): LA and the unnamed bits are zero under R58. -/
def rowB (f : FieldsB) : Option Row :=
  let z := f.la == 0#4 && f.kz == 0#1 && f.z1 == 0#3 && f.z2 == 0#2
  let k0 := f.km == 0#3
  let r0 := f.ab == 0#4 && f.aa == 0#4
  let cc0 := f.cc == 0#3
  match f.op with
  | 0x02 => some (.short (z && k0 && r0 && cc0) (.br f.off))
  | 0x03 => some (.coded (Cc.ofCode f.cc).isSome (z && k0) (.bc ((Cc.ofCode f.cc).getD .eq) f.aa f.ab f.off))
  | 0x04 => some (.short (z && r0 && cc0) (.bany f.km f.off))
  | 0x05 => some (.short (z && r0 && cc0) (.ball f.km f.off))
  | 0x06 => some (.short (z && r0 && cc0) (.bnone f.km f.off))
  | 0x07 => some (.short (z && k0 && r0 && cc0) (.call f.off))
  | 0x09 => some (.coded (f.aa != 0#4) (z && k0 && f.ab == 0#4 && cc0) (.loop f.aa f.off))
  | _ => none

/-- Every OP of format A (R60); LA and the unnamed bits are zero under R58. -/
def rowA (f : FieldsA) : Option (Option Row) :=
  let z := f.la == 0#4 && f.noMask && f.z1 == 0#3 && f.z2 == 0#3 && f.z3 == 0#3 && f.z4 == 0#3
  let m0 := f.mod == 0#12
  let c0 := f.c == 0#4
  let b0 := f.b == 0#4
  let dab (c : AReg → AReg → AReg → Instr) : Option Row := some (.short (z && m0 && c0) (c f.d f.a f.b))
  match f.op with
  | 0x08 => some (match f.fn with
      | 0x00 => some (.short (z && m0 && f.d == 0#4 && b0 && c0) (.jr f.a))
      | 0x01 => some (.short (z && m0 && f.d == 0#4 && b0 && c0) (.callr f.a))
      | 0x02 => some (.short (z && m0 && f.d == 0#4 && f.a == 0#4 && b0 && c0) .ret)
      | _ => none)
  | 0x10 => some (match f.fn with
      | 0x00 => dab .aadd
      | 0x01 => dab .asub
      | 0x02 => dab .amul
      | 0x03 => dab .amulh
      | 0x04 => dab .amulhu
      | 0x05 => dab .aand
      | 0x06 => dab .aor
      | 0x07 => dab .axor
      | 0x08 => dab .ashl
      | 0x09 => dab .ashr
      | 0x0A => dab .asar
      | 0x0B => dab .amin
      | 0x0C => dab .amax
      | 0x0D => dab .aminu
      | 0x0E => dab .amaxu
      | 0x0F => some (.short (z && m0 && b0 && c0) (.amov f.d f.a))
      | 0x10 => some (.short (z && m0) (.asel f.d f.a f.b f.c))
      | _ => none)
  | 0x11 => some (if f.fn == 0x00#8 then
        some (.coded (Cc.ofCode (f.mod.extractLsb' 6 3)).isSome
          (z && c0 && f.mod.extractLsb' 0 6 == 0#6 && f.mod.extractLsb' 9 3 == 0#3)
          (.aset ((Cc.ofCode (f.mod.extractLsb' 6 3)).getD .eq) f.d f.a f.b))
      else none)
  | 0x83 => some (if f.fn == 0x00#8 then some (.short (z && m0 && b0 && c0) (.release f.d f.a)) else none)
  | 0x84 => some (if f.fn == 0x00#8 then some (.short (z && m0 && b0 && c0) (.lstat f.d f.a)) else none)
  | 0xD0 => some (if f.fn == 0x00#8 then
        some (.coded (SReg.ofCode (f.mod.extractLsb' 0 8)).isSome
          (z && f.mod.extractLsb' 8 4 == 0#4 && f.a == 0#4 && b0 && c0)
          (.mfs ((SReg.ofCode (f.mod.extractLsb' 0 8)).getD .pc) f.d))
      else none)
  | 0xD1 => some (if f.fn == 0x00#8 then
        some (.coded (SReg.ofCode (f.mod.extractLsb' 0 8)).isSome
          (z && f.mod.extractLsb' 8 4 == 0#4 && f.d == 0#4 && b0 && c0)
          (.mts ((SReg.ofCode (f.mod.extractLsb' 0 8)).getD .pc) f.a))
      else none)
  | _ => none

/-- The format that an OP selects (R56, R60 Table 3). -/
inductive Format where | v | i | m | b | a
deriving DecidableEq, Repr

def formatOf (op : BitVec 8) : Option Format :=
  match op with
  | 0x02 | 0x03 | 0x04 | 0x05 | 0x06 | 0x07 | 0x09 => some .b
  | 0x08 | 0x10 | 0x11 | 0x83 | 0x84 | 0xD0 | 0xD1 => some .a
  | 0x12 | 0x13 | 0x14 | 0x23 | 0xA8 | 0xA9 | 0xD4 => some .i
  | 0x60 | 0x61 | 0x62 | 0x63 | 0x64 | 0x65 | 0x66 | 0x67 | 0x68 | 0x70 | 0x71 | 0x72 | 0x73 | 0x74 | 0x75
  | 0x80 | 0x81 | 0x82 | 0x85 | 0xC5 | 0xC6 => some .m
  | 0x01 | 0x0A | 0x20 | 0x21 | 0x22 | 0x24 | 0x25 | 0x26 | 0x27 | 0x40 | 0x41 | 0x42 | 0x43 | 0x44 | 0x45 | 0x69
  | 0x86 | 0x87 | 0x88 | 0x90 | 0x91 | 0xA0 | 0xA1 | 0xAA | 0xB0 | 0xB1 | 0xB2 | 0xC0 | 0xC1 | 0xC2 | 0xC3 | 0xC4
  | 0xC7 | 0xD2 | 0xD3 | 0xD5 | 0xD6 | 0xD7 | 0xD8 | 0xD9 | 0xDA | 0xDB => some .v
  | _ => none

/-- The checks of R63 after 0x02 on what an OP's table gives. -/
def finishRow (la : BitVec 4) : Option Row → Decoded
  | none => .bad 3
  | some r => r.check la

/-- Decoding of one thread word, in the order of R63 Table 5. -/
def decode (w : W64) : Decoded :=
  if w == 0#64 || w == BitVec.allOnes 64 then .bad 1
  else
    match formatOf (w.extractLsb' 56 8) with
    | none => .bad 2
    | some .v =>
      let f := FieldsV.split w
      match rowV f with
      | none => .bad 2
      | some r => finishRow f.la r
    | some .i => let f := FieldsI.split w; finishRow f.la (rowI f)
    | some .m => let f := FieldsM.split w; finishRow f.la (rowM f)
    | some .b => let f := FieldsB.split w; finishRow 0#4 (rowB f)
    | some .a =>
      let f := FieldsA.split w
      match rowA f with
      | none => .bad 2
      | some r => finishRow 0#4 r

/-! ### Tile commands (R65 to R67) -/

/-- The header of a tile command (R65 Table 6), with its reserved bits. -/
structure TileFields where
  w1 : BitVec 256
  top : BitVec 8
  cb : BitVec 9
  rst : BitVec 1
  res : BitVec 6
  rstep : BitVec 16
  ops : BitVec 216
deriving DecidableEq, Repr

def TileFields.split (c : V512) : TileFields :=
  ⟨c.extractLsb' 256 256, c.extractLsb' 248 8, c.extractLsb' 239 9, c.extractLsb' 238 1, c.extractLsb' 232 6,
   c.extractLsb' 216 16, c.extractLsb' 0 216⟩

def TileFields.pack (f : TileFields) : V512 := f.w1 ++ f.top ++ f.cb ++ f.rst ++ f.res ++ f.rstep ++ f.ops

def TileFields.hdr (f : TileFields) : TileHdr := ⟨f.cb, f.rst == 1#1, f.rstep⟩

/-- A tile command read under its opcode: the queues it may stand in (matrix, copy), whether its unused bits are zero,
whether its restart fields are in order, whether its limits hold, and the command. -/
structure TileRow where
  mq : Bool
  cq : Bool
  ok3 : Bool
  ok4 : Bool
  ok5 : Bool
  i : Instr

/-- The operand bits of acc.load and acc.store, and of the copy and attention commands. -/
def accArgsOf (o : BitVec 216) : AccArgs :=
  ⟨o.extractLsb' 214 2, o.extractLsb' 212 2, o.extractLsb' 199 1 == 1#1, o.extractLsb' 128 64, o.extractLsb' 32 32⟩
def cpArgsOf (o : BitVec 216) (w1 : BitVec 256) : CpArgs :=
  ⟨o.extractLsb' 199 1 == 1#1, o.extractLsb' 198 1 == 1#1, o.extractLsb' 197 1 == 1#1, o.extractLsb' 128 64,
   o.extractLsb' 64 64, o.extractLsb' 32 32, o.extractLsb' 0 32, w1.extractLsb' 192 64, w1.extractLsb' 160 32,
   w1.extractLsb' 152 8, w1.extractLsb' 148 4⟩
def kvArgsOf (o : BitVec 216) (w1 : BitVec 256) : KvArgs :=
  ⟨o.extractLsb' 204 4, o.extractLsb' 200 4, o.extractLsb' 128 64, o.extractLsb' 64 64, o.extractLsb' 32 32,
   w1.extractLsb' 192 64⟩
def mmArgsOf (o : BitVec 216) (w1 : BitVec 256) : MmArgs :=
  ⟨o.extractLsb' 214 2, o.extractLsb' 212 2, o.extractLsb' 210 2, o.extractLsb' 200 8, o.extractLsb' 199 1 == 1#1,
   o.extractLsb' 198 1 == 1#1, o.extractLsb' 128 64, o.extractLsb' 64 64, o.extractLsb' 32 32, o.extractLsb' 0 32,
   w1.extractLsb' 192 64, w1.extractLsb' 128 64⟩

/-- The bits a copy command's layout does not name are zero (R236). -/
def cpZero (o : BitVec 216) (w1 : BitVec 256) : Bool :=
  o.extractLsb' 200 16 == 0#16 && o.extractLsb' 192 5 == 0#5 && w1.extractLsb' 0 148 == 0#148

/-- Tile opcodes (R66 Table 7) with the layouts of R229, R231, R236 and R261. -/
def tileRow (f : TileFields) : Option TileRow :=
  let o := f.ops
  let hd := f.hdr
  let w1z := f.w1 == 0#256
  let acc : BitVec 2 := o.extractLsb' 214 2
  let cnt : BitVec 2 := o.extractLsb' 212 2
  let lim := decide (acc.toNat + cnt.toNat ≤ 3)
  let cp := cpArgsOf o f.w1
  let kv := kvArgsOf o f.w1
  let io := accArgsOf o
  let ioZ := o.extractLsb' 200 12 == 0#12 && o.extractLsb' 192 7 == 0#7 && o.extractLsb' 64 64 == 0#64 &&
    o.extractLsb' 0 32 == 0#32 && w1z
  let kvZ := o.extractLsb' 208 8 == 0#8 && o.extractLsb' 192 8 == 0#8 && o.extractLsb' 0 32 == 0#32 &&
    f.w1.extractLsb' 0 192 == 0#192
  match f.top with
  | 0x00 => some ⟨true, true, o == 0#216 && w1z, hd.plain, true, .tnop hd⟩
  | 0x01 => some ⟨true, false, o.extractLsb' 32 184 == 0#184 && w1z, hd.plain, true, .fmtSet hd (o.extractLsb' 0 32)⟩
  | 0x02 => some ⟨true, false, o.extractLsb' 0 212 == 0#212 && w1z, hd.plain, lim, .accZero hd acc cnt⟩
  | 0x03 => some ⟨true, false, ioZ, hd.plain, io.ok && decide (512 ≤ io.pitch.toNat), .accLoad hd io⟩
  | 0x04 => some ⟨true, false, ioZ, hd.plain, io.ok, .accStore hd io⟩
  | 0x05 => some ⟨true, false, o.extractLsb' 0 212 == 0#212 && w1z, hd.plain, lim, .accRel hd acc cnt⟩
  | 0x10 =>
    let x := mmArgsOf o f.w1
    some ⟨true, false, o.extractLsb' 208 2 == 0#2 && o.extractLsb' 192 6 == 0#6 && f.w1.extractLsb' 0 128 == 0#128 && x.unused,
      hd.upTo x.last, x.ok, .mm hd x⟩
  | 0x20 => some ⟨false, true, cpZero o f.w1 && cp.unusedCopy, hd.upTo cp.lastCopy, cp.okCopy, .cpCopy hd cp⟩
  | 0x21 => some ⟨false, true, cpZero o f.w1 && cp.unusedRows, hd.upTo cp.lastRows, cp.okRows, .cpGather hd cp⟩
  | 0x22 => some ⟨false, true, cpZero o f.w1 && cp.unusedRows, hd.upTo cp.lastRows, cp.okRows, .cpScatter hd cp⟩
  | 0x23 => some ⟨false, true, cpZero o f.w1 && cp.unusedFill, hd.upTo cp.lastCopy, cp.okCopy, .cpFill hd cp⟩
  | 0x24 => some ⟨false, true, cpZero o f.w1 && cp.unusedSpred, hd.upTo cp.lastPairs, cp.okSpred, .cpSpred hd cp⟩
  | 0x30 => some ⟨true, true, o.extractLsb' 0 207 == 0#207 && w1z, hd.plain, true, .sig hd (o.extractLsb' 207 9)⟩
  | 0x31 => some ⟨true, true, o.extractLsb' 0 206 == 0#206 && w1z, hd.plain, true,
      .twait hd (o.extractLsb' 207 9) (o.extractLsb' 206 1 == 1#1)⟩
  | 0x32 => some ⟨true, true, o == 0#216 && w1z, hd.plain, true, .tfence hd⟩
  | 0x40 => some ⟨false, true, kvZ, hd.upTo kv.nb.toNat, kv.okImp, .kvImp hd kv⟩
  | 0x41 => some ⟨false, true, kvZ && kv.dep == 0#4 && kv.pool == 0#4, hd.upTo kv.nb.toNat, kv.okExp, .kvExp hd kv⟩
  | _ => none

/-- Decoding of a tile command standing in the copy queue (cq) or the matrix queue: the lowest sub-code of R67 that its
words decide, or the command. -/
def decodeTile (cq : Bool) (c : V512) : Decoded :=
  let f := TileFields.split c
  match tileRow f with
  | none => .bad 1
  | some r =>
    if !(if cq then r.cq else r.mq) then .bad 2
    else if !(f.res == 0#6 && r.ok3) then .bad 3
    else if !r.ok4 then .bad 4
    else if !r.ok5 then .bad 5
    else .ok r.i

/-! ### The encoder -/

def encV (op : BitVec 8) (la : BitVec 4) (km : KReg) (kz : Bool) (d a b c : BitVec 7) (fn : BitVec 8)
    (mod : BitVec 12) : Option W64 := some (FieldsV.pack ⟨op, la, km, BitVec.ofBool kz, d, a, b, c, fn, mod⟩)
def encI (op : BitVec 8) (km : KReg) (kz : Bool) (d a : BitVec 7) (sub : BitVec 2) (imm : W32) : Option W64 :=
  some (FieldsI.pack ⟨op, 0#4, km, BitVec.ofBool kz, d, a, sub, imm⟩)
def encM (op : BitVec 8) (la : BitVec 4) (km : KReg) (kz : Bool) (d x : BitVec 7) (base : AReg) (mod : BitVec 6)
    (off : BitVec 24) : Option W64 := some (FieldsM.pack ⟨op, la, km, BitVec.ofBool kz, d, x, base, mod, off⟩)
def encB (op : BitVec 8) (km : KReg) (ab aa : AReg) (cc : BitVec 3) (off : W32) : Option W64 :=
  some (FieldsB.pack ⟨op, 0#4, km, 0#1, ab, cc, 0#3, aa, 0#2, off⟩)
def encA (op : BitVec 8) (d a b c : AReg) (fn : BitVec 8) (mod : BitVec 12) : Option W64 :=
  some (FieldsA.pack ⟨op, 0#4, 0#3, 0#1, 0#3, d, 0#3, a, 0#3, b, 0#3, c, fn, mod⟩)

/-- An a-register or mask number in a 7-bit field (R58). -/
def fA (a : AReg) : BitVec 7 := 0#3 ++ a
def fK (k : KReg) : BitVec 7 := 0#4 ++ k
/-- MOD from its four 3-bit parts. -/
def mod4 (m3 m2 m1 m0 : BitVec 3) : BitVec 12 := m3 ++ m2 ++ m1 ++ m0
def subOf (u : Bool) : BitVec 2 := if u then 1#2 else 0#2

/-- OP 0x20 forms with three registers, with two, and OP 0x27 forms. -/
def encInt (fn : BitVec 8) (ty : IType) (km : KReg) (kz : Bool) (d a b c : VReg) : Option W64 :=
  encV 0x20 0#4 km kz d a b c fn (mod4 0 0 0 ty.code)
def encRed (fn : BitVec 8) (ty : IType) (km : KReg) (kz : Bool) (d a : VReg) : Option W64 :=
  encV 0x27 0#4 km kz d a 0#7 0#7 fn (mod4 0 0 0 ty.code)
def encFl (fn : BitVec 8) (ty : FType) (rnd : Rnd) (km : KReg) (kz : Bool) (d a b c : VReg) : Option W64 :=
  encV 0x40 0#4 km kz d a b c fn (mod4 0 0 rnd.code ty.code)
def encFred (fn : BitVec 8) (ty : FType) (rnd : Rnd) (km : KReg) (kz : Bool) (d a : VReg) : Option W64 :=
  encV 0x43 0#4 km kz d a 0#7 0#7 fn (mod4 0 0 rnd.code ty.code)
def encAp (fn : BitVec 8) (km : KReg) (kz : Bool) (d a : VReg) : Option W64 :=
  encV 0x42 0#4 km kz d a 0#7 0#7 fn (mod4 0 0 0 2)
def encAdr (fn : BitVec 8) (d a b : AReg) : Option W64 := encA 0x10 d a b 0#4 fn 0#12
/-- Forms without mask and MOD, a-registers in D, A, B, C. -/
def encN (op fn : BitVec 8) (d a b c : BitVec 7) : Option W64 := encV op 0#4 0#3 false d a b c fn 0#12
def encBar (fn : BitVec 8) (bar : BitVec 9) (part : Bool) (d a : BitVec 7) : Option W64 :=
  encV 0x90 0#4 0#3 false d a 0#7 0#7 fn (0#2 ++ BitVec.ofBool part ++ bar)
def encObj (fn : BitVec 8) (obj : BitVec 6) (d a b c : BitVec 7) : Option W64 :=
  encV 0x91 0#4 0#3 false d a b c fn (0#6 ++ obj)
def encLane (op fn : BitVec 8) (km : KReg) (kz : Bool) (d a b : BitVec 7) (lane : BitVec 4) : Option W64 :=
  encV op 0#4 km kz d a b 0#7 fn (0#8 ++ lane)
def kMod (k : LKind) : BitVec 6 := 0#5 ++ k.bit

/-- The thread word of a thread instruction (R57 to R62); none for a tile command or an event. -/
def encode : Instr → Option W64
  | .nop => encN 0x01 0x00 0 0 0 0
  | .br off => encB 0x02 0 0 0 0 off
  | .bc cc aa ab off => encB 0x03 0 ab aa cc.code off
  | .bany k off => encB 0x04 k 0 0 0 off
  | .ball k off => encB 0x05 k 0 0 0 off
  | .bnone k off => encB 0x06 k 0 0 0 off
  | .call off => encB 0x07 0 0 0 0 off
  | .jr a => encA 0x08 0 a 0 0 0x00 0
  | .callr a => encA 0x08 0 a 0 0 0x01 0
  | .ret => encA 0x08 0 0 0 0 0x02 0
  | .loop a off => encB 0x09 0 0 a 0 off
  | .halt r => encV 0x0A 0 0 false 0 0 0 0 0x00 (0#11 ++ BitVec.ofBool r)
  | .yield => encN 0x0A 0x01 0 0 0 0
  | .aadd d a b => encAdr 0x00 d a b
  | .asub d a b => encAdr 0x01 d a b
  | .amul d a b => encAdr 0x02 d a b
  | .amulh d a b => encAdr 0x03 d a b
  | .amulhu d a b => encAdr 0x04 d a b
  | .aand d a b => encAdr 0x05 d a b
  | .aor d a b => encAdr 0x06 d a b
  | .axor d a b => encAdr 0x07 d a b
  | .ashl d a b => encAdr 0x08 d a b
  | .ashr d a b => encAdr 0x09 d a b
  | .asar d a b => encAdr 0x0A d a b
  | .amin d a b => encAdr 0x0B d a b
  | .amax d a b => encAdr 0x0C d a b
  | .aminu d a b => encAdr 0x0D d a b
  | .amaxu d a b => encAdr 0x0E d a b
  | .amov d a => encAdr 0x0F d a 0
  | .asel d a b c => encA 0x10 d a b c 0x10 0
  | .aset cc d a b => encA 0x11 d a b 0 0x00 (mod4 0 cc.code 0 0)
  | .aaddi u d a imm => encI 0x12 0 false (fA d) (fA a) (subOf u) imm
  | .ali u d imm => encI 0x13 0 false (fA d) 0 (subOf u) imm
  | .alih d a imm => encI 0x14 0 false (fA d) (fA a) 0 imm
  | .vadd ty km kz d a b => encInt 0x00 ty km kz d a b 0
  | .vsub ty km kz d a b => encInt 0x01 ty km kz d a b 0
  | .vmul ty km kz d a b => encInt 0x02 ty km kz d a b 0
  | .vmulh ty km kz d a b => encInt 0x03 ty km kz d a b 0
  | .vmin ty km kz d a b => encInt 0x04 ty km kz d a b 0
  | .vmax ty km kz d a b => encInt 0x05 ty km kz d a b 0
  | .vabs km kz d a => encInt 0x06 .i32 km kz d a 0 0
  | .vneg ty km kz d a => encInt 0x07 ty km kz d a 0 0
  | .vand ty km kz d a b => encInt 0x08 ty km kz d a b 0
  | .vor ty km kz d a b => encInt 0x09 ty km kz d a b 0
  | .vxor ty km kz d a b => encInt 0x0A ty km kz d a b 0
  | .vnot ty km kz d a => encInt 0x0B ty km kz d a 0 0
  | .vshl ty km kz d a b => encInt 0x0C ty km kz d a b 0
  | .vshr ty km kz d a b => encInt 0x0D ty km kz d a b 0
  | .vsar ty km kz d a b => encInt 0x0E ty km kz d a b 0
  | .vmad ty km kz d a b c => encInt 0x0F ty km kz d a b c
  | .vcmp cc km kz d a b => encV 0x21 0 km kz (fK d) a b 0 0x00 (mod4 0 cc.code 0 0)
  | .kand d a b => encN 0x22 0x00 (fK d) (fK a) (fK b) 0
  | .kor d a b => encN 0x22 0x01 (fK d) (fK a) (fK b) 0
  | .kxor d a b => encN 0x22 0x02 (fK d) (fK a) (fK b) 0
  | .kandn d a b => encN 0x22 0x03 (fK d) (fK a) (fK b) 0
  | .knot d a => encN 0x22 0x04 (fK d) (fK a) 0 0
  | .kmov d a => encN 0x22 0x05 (fK d) (fK a) 0 0
  | .kpop d a => encN 0x22 0x06 (fA d) (fK a) 0 0
  | .kfirst d a => encN 0x22 0x07 (fA d) (fK a) 0 0
  | .kset d a => encN 0x22 0x08 (fK d) (fA a) 0 0
  | .vli km kz d a imm => encI 0x23 km kz d (fA a) 0 imm
  | .vbcast lane km kz d a => encLane 0x24 0x00 km kz d a 0 lane
  | .viota km kz d => encLane 0x25 0x00 km kz d 0 0 0
  | .vperm km kz d a b => encLane 0x25 0x01 km kz d a b 0
  | .vrotl lane km kz d a => encLane 0x25 0x02 km kz d a 0 lane
  | .vext lane d a => encLane 0x25 0x03 0 false (fA d) a 0 lane
  | .vins lane d a => encLane 0x25 0x04 0 false d (fA a) 0 lane
  | .vmov km kz d a => encLane 0x25 0x05 km kz d a 0 0
  | .linkw dir a b => encV 0x26 0 0 false 0 a (fA b) 0 0x00 (0#11 ++ dir.bit)
  | .linkwArm dir d => encV 0x26 0 0 false d 0 0 0 0x01 (0#11 ++ dir.bit)
  | .vredsum ty km kz d a => encRed 0x00 ty km kz d a
  | .vredmin ty km kz d a => encRed 0x01 ty km kz d a
  | .vredmax ty km kz d a => encRed 0x02 ty km kz d a
  | .vredand ty km kz d a => encRed 0x03 ty km kz d a
  | .vredor ty km kz d a => encRed 0x04 ty km kz d a
  | .vredxor ty km kz d a => encRed 0x05 ty km kz d a
  | .vscan ty km kz d a => encRed 0x08 ty km kz d a
  | .vscanx ty km kz d a => encRed 0x09 ty km kz d a
  | .vfadd ty r km kz d a b => encFl 0x00 ty r km kz d a b 0
  | .vfsub ty r km kz d a b => encFl 0x01 ty r km kz d a b 0
  | .vfmul ty r km kz d a b => encFl 0x02 ty r km kz d a b 0
  | .vfma ty r km kz d a b c => encFl 0x03 ty r km kz d a b c
  | .vfms ty r km kz d a b c => encFl 0x04 ty r km kz d a b c
  | .vfnma ty r km kz d a b c => encFl 0x05 ty r km kz d a b c
  | .vfmin ty km kz d a b => encFl 0x06 ty .rn km kz d a b 0
  | .vfmax ty km kz d a b => encFl 0x07 ty .rn km kz d a b 0
  | .vfabs ty km kz d a => encFl 0x08 ty .rn km kz d a 0 0
  | .vfneg ty km kz d a => encFl 0x09 ty .rn km kz d a 0 0
  | .vfcmp cc ty km kz d a b => encV 0x41 0 km kz (fK d) a b 0 0x00 (mod4 0 cc.code 0 ty.code)
  | .vfrcpa km kz d a => encAp 0x00 km kz d a
  | .vfrsqa km kz d a => encAp 0x01 km kz d a
  | .vfexp2a km kz d a => encAp 0x02 km kz d a
  | .vflog2a km kz d a => encAp 0x03 km kz d a
  | .vfredsum ty r km kz d a => encFred 0x00 ty r km kz d a
  | .vfredmin ty km kz d a => encFred 0x01 ty .rn km kz d a
  | .vfredmax ty km kz d a => encFred 0x02 ty .rn km kz d a
  | .vfscan ty r km kz d a => encFred 0x08 ty r km kz d a
  | .vfscanx ty r km kz d a => encFred 0x09 ty r km kz d a
  | .vcvt dst src r km kz d a => encV 0x44 0 km kz d a 0 0 0x00 (mod4 0 src.code r.code dst.code)
  | .vcvtFp8 la dst src r km kz d a => encV 0x45 la km kz d a 0 0 0x00 (mod4 0 src.code r.code dst.code)
  | .vcvtsc la dst src r km kz d a b => encV 0x45 la km kz d a b 0 0x01 (mod4 0 src.code r.code dst.code)
  | .lld k km kz d x base off => encM 0x60 0 km kz d x base (kMod k) off
  | .lst k km d x base off => encM 0x61 0 km false d x base (kMod k) off
  | .lldx k km kz d x base off => encM 0x62 0 km kz d x base (kMod k) off
  | .lstx k km d x base off => encM 0x63 0 km false d x base (kMod k) off
  | .ald k d base off => encM 0x64 0 0 false (fA d) 0x7F base (kMod k) off
  | .ast k d base off => encM 0x65 0 0 false (fA d) 0x7F base (kMod k) off
  | .ltag km kz d x base off => encM 0x66 0 km kz d x base 0 off
  | .stag km d x base off => encM 0x67 0 km false d x base 0 off
  | .lpeek km kz d x base off => encM 0x68 0 km kz d x base 0 off
  | .rgnset a b => encN 0x69 0x00 0 (fA a) (fA b) 0
  | .tbld a b => encN 0x69 0x01 0 a (fA b) 0
  | .tbsw a => encN 0x69 0x02 0 (fA a) 0 0
  | .tbrd d b => encN 0x69 0x03 d 0 (fA b) 0
  | .gld la km kz d x base off => encM 0x70 la km kz d x base 0 off
  | .gldx la km kz d x base off => encM 0x72 la km kz d x base 0 off
  | .gst km d x base off => encM 0x71 0 km false d x base 0 off
  | .gstx km d x base off => encM 0x73 0 km false d x base 0 off
  | .gpf km x base off => encM 0x74 0 km false 0 x base 0 off
  | .ginv km x base off => encM 0x75 0 km false 0 x base 0 off
  | .lease la cls d base off => encM 0x80 la 0 false (fA d) 0x7F base (0#4 ++ cls.code) off
  | .sld km kz d x base off => encM 0x81 0 km kz d x base 0 off
  | .sst km d x base off => encM 0x82 0 km false d x base 0 off
  | .release d a => encA 0x83 d a 0 0 0x00 0
  | .lstat d a => encA 0x84 d a 0 0 0x00 0
  | .amo la op w d x base off => encM 0x85 la 0 false (fA d) (fA x) base (0#1 ++ BitVec.ofBool w ++ op.code) off
  | .fence sem scope => encV 0x86 0 0 false 0 0 0 0 0x00 (mod4 0 0 scope.code sem.code)
  | .commit => encN 0x87 0x00 0 0 0 0
  | .isync => encN 0x88 0x00 0 0 0 0
  | .bini bar a => encBar 0x00 bar false 0 (fA a)
  | .barr bar a => encBar 0x01 bar false 0 (fA a)
  | .bwait bar d a => encBar 0x02 bar false (fA d) (fA a)
  | .barw bar d => encBar 0x03 bar false (fA d) 0
  | .bexp bar a => encBar 0x04 bar false 0 (fA a)
  | .bphs bar part d => encBar 0x05 bar part (fA d) 0
  | .bclr bar => encBar 0x06 bar false 0 0
  | .odecl obj a => encObj 0x00 obj 0 (fA a) 0 0
  | .oseal obj => encObj 0x01 obj 0 0 0 0
  | .ocopy obj a b c => encObj 0x02 obj 0 (fA a) (fA b) (fA c)
  | .oreopen obj => encObj 0x03 obj 0 0 0 0
  | .ofree obj => encObj 0x04 obj 0 0 0 0
  | .ostat obj d => encObj 0x05 obj (fA d) 0 0 0
  | .tqcfg a => encN 0xA0 0x00 0 a 0 0
  | .tqpush a b => encN 0xA0 0x01 0 a (fA b) 0
  | .tqpushv km a b c => encV 0xA0 0 km false 0 a (fA b) c 0x02 0
  | .tend a => encN 0xA0 0x03 0 (fK a) 0 0
  | .tabort a => encN 0xA0 0x04 0 (fK a) 0 0
  | .tqstat d a => encN 0xA0 0x05 (fA d) (fA a) 0 0
  | .mbsend a b => encN 0xA1 0x00 0 a (fA b) 0
  | .mbrecv d a => encN 0xA1 0x01 d (fA a) 0 0
  | .mbpoll d a => encN 0xA1 0x02 d (fA a) 0 0
  | .split km d n imm => encI 0xA8 km false d n 0 imm
  | .refill d imm => encI 0xA9 0 false (fK d) 0 0 imm
  | .join a => encN 0xAA 0x00 0 (fK a) 0 0
  | .lanes d => encN 0xAA 0x01 (fK d) 0 0 0
  | .mqpush la d a => encV 0xB0 la 0 false (fA d) a 0 0 0x00 0
  | .cqpush la d a => encV 0xB1 la 0 false (fA d) a 0 0 0x00 0
  | .qstat d a => encN 0xB2 0x00 (fA d) (fA a) 0 0
  | .kvlook la d a b => encV 0xC0 la 0 false (fA d) (fA a) b 0 0x00 0
  | .kvins d a b => encN 0xC1 0x00 (fA d) (fA a) (fA b) 0
  | .kvapp d a b c => encN 0xC2 0x00 (fA d) a b (fA c)
  | .kvfree d a => encN 0xC3 0x00 (fA d) (fA a) 0 0
  | .kvpos a b => encN 0xC4 0x00 0 (fA a) (fA b) 0
  | .ldkr la km kz d base off => encM 0xC5 la km kz d 0x7F base 0 off
  | .rtab base off => encM 0xC6 0 0 false 0 0x7F base 0 off
  | .migr la live d a => encV 0xC7 la 0 false (fA d) (fA a) 0 0 0x00 (0#8 ++ live)
  | .mfs sr d => encA 0xD0 d 0 0 0 0x00 (0#4 ++ sr.code)
  | .mts sr a => encA 0xD1 0 a 0 0 0x00 (0#4 ++ sr.code)
  | .spawn d a b c => encN 0xD2 0x00 (fA d) (fA a) (fA b) (fA c)
  | .kill a => encN 0xD3 0x00 0 (fA a) 0 0
  | .trap a imm => encI 0xD4 0 false 0 (fA a) 0 imm
  | .brk => encN 0xDB 0x00 0 0 0 0
  | .eret a b c => encN 0xD5 0x00 0 (fA a) (fA b) (fA c)
  | .park => encN 0xD6 0x00 0 0 0 0
  | .wake d a => encN 0xD7 0x00 (fA d) (fA a) 0 0
  | .plbinv a => encN 0xD8 0x00 0 (fA a) 0 0
  | .tlbinv a b => encN 0xD9 0x00 0 (fA a) (fA b) 0
  | .profRd d a => encN 0xDA 0x00 (fA d) (fA a) 0 0
  | .profClr a => encN 0xDA 0x01 0 (fA a) 0 0
  | .profLease d a => encN 0xDA 0x02 (fA d) (fA a) 0 0
  | _ => none

/-- The image of a tile command from its opcode, header, operand bits and W1. -/
def encT (top : BitVec 8) (hd : TileHdr) (ops : BitVec 216) (w1 : BitVec 256) : Option V512 :=
  some (TileFields.pack ⟨w1, top, hd.cb, BitVec.ofBool hd.rst, 0#6, hd.rstep, ops⟩)

def AccArgs.ops (x : AccArgs) : BitVec 216 :=
  x.acc ++ x.cnt ++ 0#12 ++ BitVec.ofBool x.sp ++ 0#7 ++ x.base ++ 0#64 ++ x.pitch ++ 0#32
def CpArgs.ops (x : CpArgs) : BitVec 216 :=
  0#16 ++ BitVec.ofBool x.ssp ++ BitVec.ofBool x.dsp ++ BitVec.ofBool x.isp ++ 0#5 ++ x.src ++ x.dst ++ x.len ++ x.cnt
def CpArgs.w1 (x : CpArgs) : BitVec 256 := x.idx ++ x.ipitch ++ x.typ ++ x.op ++ 0#148
def KvArgs.ops (x : KvArgs) : BitVec 216 :=
  0#8 ++ x.dep ++ x.pool ++ 0#8 ++ x.src ++ x.dst ++ x.nb ++ 0#32
def KvArgs.w1 (x : KvArgs) : BitVec 256 := x.ses ++ 0#192
def MmArgs.ops (x : MmArgs) : BitVec 216 :=
  x.acc ++ x.mt ++ x.nt ++ 0#2 ++ x.kb ++ BitVec.ofBool x.asrc ++ BitVec.ofBool x.bsrc ++ 0#6 ++ x.abase ++ x.bbase ++
    x.apitch ++ x.bpitch
def MmArgs.w1 (x : MmArgs) : BitVec 256 := x.sabase ++ x.sbbase ++ 0#128

/-- The 512-bit image of a tile command (R65, R229, R231, R236, R261); none for anything else. -/
def encodeTile : Instr → Option V512
  | .tnop hd => encT 0x00 hd 0 0
  | .fmtSet hd ctx => encT 0x01 hd (0#184 ++ ctx) 0
  | .accZero hd acc cnt => encT 0x02 hd (acc ++ cnt ++ 0#212) 0
  | .accLoad hd x => encT 0x03 hd x.ops 0
  | .accStore hd x => encT 0x04 hd x.ops 0
  | .accRel hd acc cnt => encT 0x05 hd (acc ++ cnt ++ 0#212) 0
  | .mm hd x => encT 0x10 hd x.ops x.w1
  | .sig hd b => encT 0x30 hd (b ++ 0#207) 0
  | .twait hd b p => encT 0x31 hd (b ++ BitVec.ofBool p ++ 0#206) 0
  | .tfence hd => encT 0x32 hd 0 0
  | .cpCopy hd x => encT 0x20 hd x.ops x.w1
  | .cpGather hd x => encT 0x21 hd x.ops x.w1
  | .cpScatter hd x => encT 0x22 hd x.ops x.w1
  | .cpFill hd x => encT 0x23 hd x.ops x.w1
  | .cpSpred hd x => encT 0x24 hd x.ops x.w1
  | .kvImp hd x => encT 0x40 hd x.ops x.w1
  | .kvExp hd x => encT 0x41 hd x.ops x.w1
  | _ => none

/-- The instruction that the decoder reads from an instruction of nbits bits w: a thread word of up to 64 bits, else a
512-bit tile command, in whichever queue Table 7 of R66 names for it. -/
def decodeTableWord (nbits w : Nat) : Option Instr :=
  if nbits ≤ 64 then
    match decode (BitVec.ofNat 64 w) with
    | .ok i => some i
    | .bad _ => none
  else
    match decodeTile false (BitVec.ofNat 512 w) with
    | .ok i => some i
    | .bad _ =>
      match decodeTile true (BitVec.ofNat 512 w) with
      | .ok i => some i
      | .bad _ => none

end Sys2Proof
end

