-- ==== Sys2Proof/Machine/Turn.lean ====
section
/-! DEFINITION. A seat's turn: who holds the seat, what precedes an instruction there, breakpoints and fetching (R21 to R24,
R29, R160, R283, R304, R318, R340). -/

namespace Sys2Proof.Machine

/-! ### Seats (R21, R23, R283) -/

/-- The slot seated in a seat. -/
def Core.seatedIn (c : Core) (seat : Nat) : Option Nat := (c.slots.ents.find? (fun e => e.2.st == .seated seat)).map (·.1)

/-- Launches that reserve a seat of a core; the reservation of an outgoing launch lapses seat by seat (R304). -/
def Dev.reservers (d : Dev) (h seat : Nat) : List Nat :=
  ((d.holders h).filter (fun e => (e.2.resvOn h).seats.contains seat && !(e.2.out && (d.core h).lapsed.contains seat))).map (·.1)

/-- The seat is eligible for a slot of a launch (R283): no other launch reserves it. -/
def Dev.eligible (d : Dev) (h seat lk : Nat) : Bool := (d.reservers h seat).all (· == lk)

/-- The launch that gives its task slots precedence at this seat (R193, R283). -/
def Dev.taskSeat (d : Dev) (h seat : Nat) : Option Nat :=
  (d.reservers h seat).find? (fun lk =>
    match d.launch? lk with
    | some l => ((l.resvOn h).seats.take (d.core h).tq.smin).contains seat && (d.core h).tq.lk == some lk
    | none => false)

/-- One slot stands before another in the order of R23. -/
def readyBefore (a b : Nat × Slot) : Bool :=
  let k (e : Nat × Slot) : Nat := e.2.readyAt * 128 + (if e.2.yielded then 64 else 0) + e.1
  decide (k a < k b)

/-- The earliest of some READY slots. -/
def firstReady : List (Nat × Slot) → Option (Nat × Slot)
  | [] => none
  | a :: r => match firstReady r with
    | none => some a
    | some b => if readyBefore a b then some a else some b

/-- The READY slot that takes a free seat. -/
def Dev.seatChoice (d : Dev) (h seat : Nat) : Option Nat :=
  let rs := (d.core h).slots.ents.filter (fun e => e.2.st == .ready && d.eligible h seat e.2.lk)
  let first := match d.taskSeat h seat with
    | some lk => rs.filter (fun e => e.2.kind != .launch && e.2.lk == lk)
    | none => []
  ((firstReady first).or (firstReady rs)).map (·.1)

/-- A free seat goes to the READY slot that comes first (R23). -/
def Dev.seatAssign (d : Dev) (h : Nat) : Dev :=
  let seat := d.clock % 16
  match (d.core h).seatedIn seat with
  | some _ => d
  | none =>
    match d.seatChoice h seat with
    | some n => d.updSlot h n (fun s => { s with st := .seated seat })
    | none => d

/-! ### Faults found after issue (R29, R147, R148, R323) -/

/-- The first such fault is raised, with DEF = 1. A lease whose own request met PAGE does not break (R153). -/
def Dev.raiseDeferred (m : Memory) (d : Dev) (h n : Nat) : Dev :=
  match (d.slot h n).defer with
  | [] => d
  | f :: r =>
    let d := d.updSlot h n (fun s => { s with defer := r })
    let t : Trap := ⟨f.cause, f.sub, f.addr, f.lanes⟩
    if f.svc then d.service m h n t true f.pc (fun l => some l.op == f.op && !l.granted) else d.trap m h n t true f.pc

/-! ### Stops (R304, R339, R340) -/

/-- The breakpoint entry matches the slot at its PC (R338). -/
def bpMatch (s : Slot) (e : W64 × W64) : Bool :=
  e.1 == s.pc &&
  (match (e.2.extractLsb' 62 2).toNat with
   | 1 => e.2.extractLsb' 0 48 == s.gtid
   | 2 => (lanesOf s.laneSet).any (fun l => s.tasks.find? l == some (e.2.extractLsb' 0 32))
   | 3 => true
   | _ => false)

/-- A slot of a held terrace stops before the instruction at its PC. -/
def Dev.atBreakpoint (d : Dev) (s : Slot) : Bool :=
  let b := (d.terrace (terrOf s.lk)).dbg
  b.hold && s.bpPass != some s.pc && b.bp.ents.any (fun e => bpMatch s e.2)

/-- The slot becomes HELD at its turn. -/
def Dev.hold (d : Dev) (h n : Nat) (why : HeldBy) : Dev :=
  d.updSlot h n (fun s => { s with st := .held why, heldAt := d.clock, stopReq := false, preempt := false, bpDue := false, stepDue := false })

/-- A pre-empted slot becomes HELD; parked lanes are withdrawn, and a stop that was asked for stands (R304, R125). -/
def Dev.preempt (d : Dev) (h n : Nat) : Dev :=
  let waiting := match (d.slot h n).st with | .waiting _ => true | _ => false
  d.updCore h (fun c => (c.withdrawSlot n).updSlot n (fun s => { s.noTable with
    st := .held (.preempt waiting), heldAt := d.clock, preempt := false }))

/-! ### Fetching (R56, R160, R318, R321) -/

/-- What fetching the word at a slot's PC gives. -/
inductive Fetched where
  | word (w : W64) (d : Dev)
  | skip (d : Dev)
  | trap (t : Trap)
  | service (t : Trap)

/-- The words from an address to the end of its line. -/
def lineWords (pc : W64) (l : Line) : List (Nat × W64) :=
  let o := pc.toNat % 128
  (List.range ((128 - o) / 8)).map (fun i => (pc.toNat + 8 * i, Line.w64 l (o + 8 * i)))

/-- The instruction cache of 512 lines keeps the lines the slots fetched (log 7). -/
def Core.putIc (c : Core) (pick va : Nat) (l : CLine) : Core :=
  { c with ic := (⟨makeRoom 512 pick (c.ic.erase (lineOf va)).ents⟩ : AMap CLine).put (lineOf va) l }

/-- Fetch: from the words the slot has fetched (those that do not stand at its PC are discarded), else from the core's
instruction cache, else from the line's home. -/
def Dev.fetch (m : Memory) (d : Dev) (h n : Nat) : Fetched :=
  let s := d.slot h n
  let pc := s.pc
  let fl : BitVec 16 := Config.freeLanes d.count
  let who := s.who h
  let take (d : Dev) (l : Line) : Fetched :=
    .word (Line.w64 l (pc.toNat % 128)) (d.updSlot h n (fun s => { s with stream := lineWords pc l }))
  match (s.stream.head?).filter (fun e => e.1 == pc.toNat) with
  | some e => .word e.2 d
  | none =>
    if pc.extractLsb' 0 3 != 0#3 then .trap ⟨0x05, 0, pc, fl⟩
    else if isWindow pc then .trap ⟨0x21, 8, pc, fl⟩
    else
    match (d.core h).ic.find? (lineOf pc.toNat) with
    | some l =>
      match l.leaf with
      | none => take d l.data
      | some lf =>
        match d.protect m who [.x] lf with
        | none => .skip d
        | some (some e) => .trap ⟨e.1, e.2, pc, fl⟩
        | some none => take (d.fillPlb m who lf.dom) l.data
    | none =>
      match d.translate m who [.x] pc with
      | .bad c sub => .trap ⟨c, sub, pc, fl⟩
      | .page sub => .service ⟨0x20, sub, pc, fl⟩
      | .miss => .skip (d.askFor who pc)
      | .ok pa lf =>
        if d.pending pa then .skip d
        else if d.linePoison.contains (lineOf pa) then .trap ⟨0xF0, 3, pc, fl⟩
        else
        match d.quay (d.fnOf s.lk) pa false with
        | none => .skip (d.quayWaited (d.fnOf s.lk) pa)
        | some d =>
          let line := m.line (lineOf pa)
          take ((d.fillPlb m who lf.dom).updCore h (fun c => c.putIc (d.victim (lineOf pc.toNat)) pc.toNat ⟨line, false, some lf, BitVec.allOnes 32⟩)) line

/-! ### The turn -/

/-- What a turn comes to: the device as it then is, or an instruction to execute. -/
inductive Plan where
  | stay (d : Dev)
  | run (d : Dev) (i : Instr)

/-- The word a seated slot presents (R63): an illegal word traps with the word as its address. -/
def Dev.present (m : Memory) (d : Dev) (h n : Nat) : Plan :=
  match d.fetch m h n with
  | .skip d => .stay d
  | .trap t => .stay (d.trap m h n t false (d.slot h n).pc)
  | .service t => .stay (d.service m h n t false (d.slot h n).pc (fun _ => false))
  | .word w d =>
    match decode w with
    | .ok i => .run { d with cur := .slot h n w } i
    | .bad sub => .stay (d.trap m h n ⟨0x01, sub, w, 0xFFFF#16⟩ false (d.slot h n).pc)

/-- The turn of the seat whose cycle it is, on core h (R21 to R24). -/
def Dev.turn (m : Memory) (d : Dev) (h : Nat) : Plan :=
  let d := d.seatAssign h
  match (d.core h).seatedIn (d.clock % 16) with
  | none => .stay d
  | some n =>
    let s := d.slot h n
    if s.killed then .stay (d.first [.slotCommandArrival ⟨none, none, h, n, .kill⟩])
    else if s.preempt && !s.leased then .stay (d.preempt h n)
    else if s.stopReq && !s.leased then
      let held := d.hold h n .debug
      let held := if s.stepDue then held.traceSlot m h n 6 else held
      .stay (if s.bpDue then held.traceSlot m h n 1 else held)
    else if !s.defer.isEmpty then .stay (d.raiseDeferred m h n)
    else if s.endReq then .run { d with cur := .slot h n 0x0A00000000000000#64 } (.halt false)
    else if d.atBreakpoint s then
      if s.leased then (d.updSlot h n (fun s => { s with stopReq := true, bpDue := true })).present m h n
      else .stay ((d.hold h n .debug).traceSlot m h n 1)
    else d.present m h n

end Sys2Proof.Machine
end

