-- ==== Sys2Proof/Machine/Engine.lean ====
section
/-! DEFINITION. Engine queues: pushes, qstat, arbitration, rejection, freezing and stopping of commands, and the commands that
read and write no memory (R54, R55, R66, R67, R173, R178, R216 to R230). -/

namespace Sys2Proof.Machine

/-! ### Counts (R223) -/

/-- Bytes of an element of a format code (R39). -/
def codeSize (f : Nat) : Nat := if f ≤ 2 then 4 else if f = 3 then 2 else 1

/-- OFMT of a format context (R53). -/
def ofmtOf (ctx : W32) : Nat := (ctx.extractLsb' 6 3).toNat
def afmtOf (ctx : W32) : Nat := (ctx.extractLsb' 0 3).toNat
def bfmtOf (ctx : W32) : Nat := (ctx.extractLsb' 3 3).toNat
def orndOf (ctx : W32) : Nat := (ctx.extractLsb' 10 2).toNat
def sclOf (ctx : W32) : Bool := ctx.getLsbD 9

/-- TOP of a tile command. -/
def topOf (img : V512) : Nat := (img.extractLsb' 248 8).toNat

/-- The tail context of a queue: that of the last fmt.set accepted and not yet executed, else the one in force. -/
def EQ.tailCtx (e : EQ) : W32 :=
  ((e.q.filter (fun c => c.oc.isNone && topOf c.img == 1)).getLast?.map (fun c => c.img.extractLsb' 0 32)).getD e.ctx

/-- HS of a prefix record (R260). -/
def recordHead (nb : Nat) : Nat := (608 + 8 * nb + 255) / 256 * 256

/-- The byte count of an image pushed to a queue (R223 Table 2, R261); zero counts as 1 (R178). -/
def Dev.imgCount (d : Dev) (h : Nat) (cq : Bool) (lk : Nat) (img : V512) : Nat :=
  let len := (img.extractLsb' 32 32).toNat
  let cnt := (img.extractLsb' 0 32).toNat
  let tiles := (img.extractLsb' 212 2).toNat + 1
  let strideOf (k : Option Nat) : Nat := (k.map (fun i => (d.depots.get Pool.init i).stride)).getD 0
  let n := match topOf img with
    | 0x03 => 65536 * tiles
    | 0x04 => 16384 * tiles * codeSize (ofmtOf ((d.core h).eq cq).tailCtx)
    | 0x20 | 0x23 => len
    | 0x21 | 0x22 => cnt * len
    | 0x24 => 8 * len
    | 0x40 => len * strideOf (some (16 * (img.extractLsb' 204 4).toNat + (img.extractLsb' 200 4).toNat)) + 8
    | 0x41 => recordHead len + len * strideOf (d.poolAt (terrOf lk) (img.extractLsb' 128 64).toNat)
    | _ => 0
  max 1 n

/-! ### Push forms (R218 to R220) -/

/-- A value that lands in an a-register later; a0 takes none (R26, R31). -/
def Ctx.landValue (c : Ctx) (d : Dev) (a : AReg) (v : W64) : Dev :=
  if a = 0#4 then d else
  let o : LongOp := ⟨d.count, c.s.pc, .value, [], [a.toNat], 0#16, false, [], [], [(a.toNat, v)], 0#64, 0#64, true⟩
  ({ d.updSlot c.h c.n (fun s => { s with ops := s.ops ++ [o] }) with count := d.count + 1 }).send 0 (.resultLanding c.h c.n o.id)

/-- mqpush and cqpush (R219). -/
def pushForm (cq : Bool) (la : BitVec 4) (d : AReg) (a : VReg) : State → Host.Outcome State Fault Refusal :=
  thread ((useV [a] [rv a, wa d]).long la) (fun c =>
    let img := c.s.V a.toNat
    let b := (img.extractLsb' 239 9).toNat
    if ((c.d.core c.h).bar b).check c.s.lk ≠ 0 then c.faultAt 0x40 7 (BitVec.ofNat 64 b)
    else c.unspec (fun c =>
      let n := c.d.imgCount c.h cq c.s.lk img
      match c.pushRoom cq b n with
      | some w => .wait c.d w
      | none =>
        let r := c.accept cq img none b n
        .done (c.landValue r.1 d (r.2.setWidth 64))))

/-- mqpush (R219). -/
def execMqpush (la : BitVec 4) (d : AReg) (a : VReg) : State → Host.Outcome State Fault Refusal := pushForm false la d a
/-- cqpush (R219). -/
def execCqpush (la : BitVec 4) (d : AReg) (a : VReg) : State → Host.Outcome State Fault Refusal := pushForm true la d a

/-- The tiles that a core's matrix queue owns. -/
def Dev.ownTiles (d : Dev) (h : Nat) : BitVec 4 :=
  let k := d.court (courtOf h)
  (List.range 4).foldl (fun m t => if (k.tiles.get Tile.init t).owner == some (h % 4) then m ||| (1#4 <<< t) else m) 0#4

/-- qstat (R220). -/
def execQstat (d a : AReg) : State → Host.Outcome State Fault Refusal :=
  thread (useA [wa d, ra a]) (fun c =>
    let s := c.s.A a.toNat
    let cq := s.getLsbD 0
    let e := (c.d.core c.h).eq cq
    c.done (c.s.setA d.toNat (if s.getLsbD 1 then e.faddr else e.stat (if cq then 0#4 else c.d.ownTiles c.h))))

/-! ### Commands leaving their queue (R67, R178, R223, R225) -/

/-- Slots that wait for room in a queue. -/
def Dev.wakeQueue (d : Dev) (h : Nat) (cq : Bool) : Dev := d.wake h (fun _ _ w => w == .queue cq)

/-- The matrix unit has executed a step of a queue: it searches from the next one after it (R221). -/
def Dev.unitRan (d : Dev) (h : Nat) (cq : Bool) : Dev :=
  if cq then d else d.updCourt (courtOf h) (fun k => { k with last := h % 4, ran := true })

/-- The head of a queue has executed: it waits to complete, or has. -/
def Dev.retireHead (d : Dev) (h : Nat) (cq : Bool) : Dev :=
  match ((d.core h).eq cq).q with
  | [] => d
  | c :: r =>
    let d := (d.unitRan h cq).updCore h (fun k => k.updEq cq (fun e => { e with q := r, live := if c.left = 0 then e.live else e.live ++ [c] }))
    if c.left = 0 then (d.completed h c).wakeQueue h cq else d

/-- A command that is removed: its bytes not yet reported are subtracted at once, and what it held ends. -/
def Dev.removed (d : Dev) (h : Nat) (c : Cmd) : Dev := (d.barReport h c.bar c.left).completed h c

/-- The head leaves with an error on its barrier. -/
def Dev.failHead (d : Dev) (h : Nat) (cq : Bool) (cause sub det : Nat) : Dev :=
  match ((d.core h).eq cq).q with
  | [] => d
  | c :: r =>
    let d := (d.updCore h (fun k => k.updEq cq (fun e => { e with q := r }))).wakeQueue h cq
    (d.barError h c.bar cause sub det).removed h c

/-- CMDBAD (R67). -/
def Dev.rejectHead (d : Dev) (h : Nat) (cq : Bool) (sub : Nat) : Dev := d.failHead h cq 0x60 sub 0

/-- Parked words of a queue's present step are withdrawn everywhere, and what they held back is taken up (R125, R126). -/
def Dev.withdrawReads (d : Dev) (h : Nat) (cq : Bool) : Dev :=
  let mine (s : ParkSrc) : Bool := match s with | .engine x q _ => x == h && q == cq | _ => false
  let cores := (d.cores.ents.filter (fun e => e.2.parked.any (fun p => mine p.src))).map (·.1)
  cores.foldl (fun d t => (d.updCore t (fun c => c.withdraw mine)).takeUpEng t h cq) d

/-- The command that an engine's word or report is for: core, queue, number. -/
def Ev.forCmd : Ev → List (Nat × Bool × Nat)
  | .engineWordLanding w | .engineLandingRetry w => [(w.h, w.cq, w.seq)]
  | .engineReport h cq seq _ => [(h, cq, seq)]
  | .spredMerge _ u | .spredApply u => u.srcs.map (fun s => (s.1 / 65536, true, s.1 % 65536))
  | _ => []

/-- The command for which a group's end is awaited. -/
def Fin.forCmd : Fin → Option (Nat × Bool × Nat)
  | .engine h cq seq _ => some (h, cq, seq)
  | _ => none

/-- Groups, landings, updates or reports of a command are under way. -/
def Dev.cmdFlying (d : Dev) (h : Nat) (cq : Bool) (seq : Nat) : Bool :=
  let me := (h, cq, seq)
  let word (w : EngWord) : Bool := w.h == h && w.cq == cq && w.seq == seq
  d.net.any (fun f => f.e.forCmd.contains me) || d.agenda.any (fun a => match a with | .ev e => e.forCmd.contains me | _ => false) ||
  d.groups.any (fun g => g.fin.any (fun f => f.forCmd == some me)) ||
  d.merges.ents.any (fun m => m.2.any (fun u => cq && u.srcs.any (fun s => s.1 == h * 65536 + seq))) ||
  d.cores.ents.any (fun c => c.2.heldEng.any word || c.2.parked.any (fun p => match p.src with | .landing w => word w | _ => false))

/-- Every command that stands in a queue behind a stopped one goes (R225). -/
def Dev.dropBehind (d : Dev) (h : Nat) (r : List Cmd) : Dev := r.foldl (fun d x => (d.barError h x.bar 0x61 0xFF 0).removed h x) d

/-- A command stops, with any cause on its barrier, and every command behind it goes (R225, R245). -/
def Dev.stopNow (d : Dev) (h : Nat) (cq : Bool) (x : Nat × Nat × W64 × Nat) : Dev :=
  match ((d.core h).eq cq).q with
  | [] => d
  | c :: r =>
    let d := d.withdrawReads h cq
    let d := (d.updCore h (fun k => k.updEq cq (fun e =>
      { e with q := [], fseq := e.shown c.seq, faddr := x.2.2.1 &&& ~~~(0x7F#64) }))).wakeQueue h cq
    ((d.barError h c.bar x.1 x.2.1 x.2.2.2).removed h c).dropBehind h r

/-- The command at the queue's head with what its next step needs. -/
def Dev.keepHead (d : Dev) (h : Nat) (cq : Bool) (f : Cmd → Cmd) : Dev :=
  d.updCore h (fun k => k.updEq cq (fun e => match e.q with | c :: r => { e with q := f c :: r } | [] => e))

/-- A command stops at its step once what its earlier steps wrote has landed and is visible (R173, R225). DET is the step where Table 1
of R176 and R245 say so. -/
def Dev.stopWith (d : Dev) (h : Nat) (cq : Bool) (cause sub : Nat) (va : W64) : Dev :=
  match ((d.core h).eq cq).q with
  | [] => d
  | c :: _ =>
    let x := (cause, sub, va, if cause = 0x61 ∨ cause = 0x70 then c.step else 0)
    if d.cmdFlying h cq c.seq then (d.withdrawReads h cq).keepHead h cq (fun c => { c with stop := some x }) else d.stopNow h cq x

/-- A command that executed its last step before a landing of it failed: those behind it go. -/
def Dev.stopLive (d : Dev) (h : Nat) (cq : Bool) : Dev :=
  let e := (d.core h).eq cq
  if !e.live.any (fun c => c.stop.isSome) then d else
  let d := d.withdrawReads h cq
  let d := (d.updCore h (fun k => k.updEq cq (fun e => { e with q := [], live := e.live.map (fun c => { c with stop := none }) }))).wakeQueue h cq
  d.dropBehind h e.q

/-- FETCHFLT (R225 Table 3). -/
def Dev.stopHead (d : Dev) (h : Nat) (cq : Bool) (op reason : Nat) (va : W64) : Dev := d.stopWith h cq 0x61 (16 * op + reason) va

/-! ### RSVFMT (R54, R55) -/

/-- The sub-code of a format context (R54 Table 7), or 0. -/
def ctxSub (ctx : W32) : Nat :=
  let a := afmtOf ctx
  let b := bfmtOf ctx
  let o := ofmtOf ctx
  if 6 ≤ a then 1 else if 6 ≤ b then 2 else if 6 ≤ o then 3
  else if a < 3 ∨ b < 3 then 4
  else if (a = 3) ≠ (b = 3) then 5
  else if o < 2 then 7
  else if ctx.extractLsb' 12 20 ≠ 0#20 then 8 else 0

/-- The message of R55 Table 8. -/
def rsvImage (f : W64 × W64 × W64 × W64) (word : W32) (queue slot bar h : Nat) : V512 :=
  0#176 ++ BitVec.ofNat 16 h ++ BitVec.ofNat 16 bar ++ BitVec.ofNat 8 slot ++ BitVec.ofNat 8 queue ++ word ++
    f.2.2.2 ++ f.2.2.1 ++ f.2.1 ++ f.1

/-- RSVFMT: the head is removed with its error, its queue freezes, the pushing slot is held, at once if it is not seated, and the
supervisor is told. A slot that is HELD already meets no further fault (R294): its record is written once it goes on (DESIGN CHOICE,
log 65). -/
def Dev.rsvfmt (d : Dev) (h : Nat) (cq : Bool) (sub : Nat) (word : W32) : Dev :=
  match ((d.core h).eq cq).q with
  | [] => d
  | c :: _ =>
    let s := d.slot h c.n
    let here := s.st != .free && s.gtid == c.gtid
    let t : Trap := ⟨6, sub, word.setWidth 64, 0xFFFF#16⟩
    let img := rsvImage (frecOf h c.n c.gtid t true false c.pc) word (if cq then 4 else h % 4) (if here then c.n else 0xFF) c.bar h
    let d := (d.failHead h cq 6 sub 0).updCore h (fun k => k.updEq cq (fun e => { e with frz := true }))
    let d := if here then d.updSlot h c.n (fun s => { s with defer := s.defer ++ [⟨6, sub, c.pc, t.addr, 0xFFFF#16, false, none, 0⟩] }) else d
    let d := match s.st with
      | .ready | .waiting _ => if here then d.first [.deferredFault h c.n] else d
      | _ => d
    d.send 0 (.messageArrival ⟨terrOf c.lk, 0xFFFF, img, 0xFFFD, h, none, none⟩)

/-! ### Arbitration (R173, R221, R224, R230) -/

/-- A command's wait condition is met. -/
def Dev.waitMet (d : Dev) (h : Nat) (cq : Bool) (c : Cmd) : Bool :=
  let e := (d.core h).eq cq
  let free (acc cnt : BitVec 2) : Bool :=
    (List.range (cnt.toNat + 1)).all (fun t =>
      match ((d.court (courtOf h)).tiles.get Tile.init (acc.toNat + t)).owner with
      | none => true
      | some q => q == h % 4)
  if c.oc.isSome then true else
  match decodeTile cq c.img with
  | .ok (.twait _ b ph) => ((d.core h).bar b.toNat).check c.lk != 0 || ((d.core h).bar b.toNat).ph == ph
  | .ok (.tfence _) | .ok (.sig _ _) => e.live.isEmpty
  | .ok (.accZero _ acc cnt) => free acc cnt
  | .ok (.accLoad _ x) => free x.acc x.cnt
  | _ => true

/-- A step of the command has begun: a freeze and a save let it end (R227, R341). -/
def Cmd.midStep (c : Cmd) : Bool := !c.rd.ents.isEmpty || !c.trapped.isEmpty || !c.parked.isEmpty

/-- The head of a queue may be taken. A command that is to stop waits for what its earlier steps wrote. Otherwise the queue and its
court are not frozen, or a step has begun; the groups that stood before the push have been released; and the wait condition is met. -/
def Dev.headReady (d : Dev) (h : Nat) (cq : Bool) : Bool :=
  let e := (d.core h).eq cq
  match e.q with
  | [] => false
  | c :: _ =>
    if c.stop.isSome then !d.cmdFlying h cq c.seq else
    (c.midStep || (!e.frz && !(d.court (courtOf h)).frozen)) && (!d.queueStopped h || (c.midStep && c.parked.isEmpty)) &&
    c.after.all (fun g => !d.groups.any (fun x => x.id == g)) && d.waitMet h cq c

/-- The queue whose head the matrix unit of a court tries next, searching from the one after that of the last step (R221): a queue
whose head does not come to a step is passed over in this cycle. -/
def Dev.courtPick (d : Dev) (c : Nat) : Option Nat :=
  ([1, 2, 3, 4].map (fun i => 4 * c + ((d.court c).last + i) % 4)).find? (fun h => !(d.court c).tried.contains (h % 4) && d.headReady h false)

/-- The copy that an ocopy stands for (R188). -/
def OCopy.args (o : OCopy) : CpArgs where
  ssp := true
  dsp := false
  isp := false
  src := BitVec.ofNat 64 o.base
  dst := BitVec.ofNat 64 (windowOf o.t o.dst)
  len := BitVec.ofNat 32 o.ext
  cnt := 0
  idx := 0
  ipitch := 0
  typ := 0
  op := 0

/-- What a queue's head comes to: rejected, or a step of its command. -/
def Dev.queuePlan (d : Dev) (h : Nat) (cq : Bool) : Plan :=
  match ((d.core h).eq cq).q with
  | [] => .stay d
  | c :: _ =>
    let on : Dev := { d with cur := .queue h cq }
    match c.stop with
    | some x => .stay (d.stopNow h cq x)
    | none =>
    match c.oc with
    | some o => .run on (.cpCopy ⟨0#9, false, 0#16⟩ o.args)
    | none =>
      match decodeTile cq c.img with
      | .bad sub => .stay (d.rejectHead h cq sub)
      | .ok i => .run on i

/-- A step of a court: queues are tried until one of them has come to a step. -/
def Dev.courtStep (d : Dev) (c : Nat) : Plan :=
  let d := (List.range 4).foldl (fun d i => d.stopLive (4 * c + i) false) d
  let end_ : Plan := .stay (if (d.court c).tried.isEmpty && !(d.court c).ran then d else d.updCourt c (fun k => { k with tried := [], ran := false }))
  if (d.court c).ran then end_ else
  match d.courtPick c with
  | some h => ({ d with agenda := .court c :: d.agenda }.updCourt c (fun k => { k with tried := k.tried ++ [h % 4] })).queuePlan h false
  | none => end_

/-- A step of a copy engine. -/
def Dev.copyStep (d : Dev) (h : Nat) : Plan :=
  let d := d.stopLive h true
  if d.headReady h true then d.queuePlan h true else .stay d

/-! ### The meaning of a command -/

/-- What a command works on: memory, the device, its core and queue, and itself at the queue's head. -/
structure QCtx where
  m : Memory
  h : Nat
  cq : Bool
  c : Cmd
  d : Dev

/-- The launch's rights with the modes of the pushing slot (R173, R321). -/
def QCtx.who (q : QCtx) : Who := ⟨q.h, terrOf q.c.lk, q.c.priv, q.c.recov⟩

/-- A tile command, by what one presentation of it at the head of its queue does. -/
def command (body : QCtx → Dev) (s : State) : Host.Outcome State Fault Refusal :=
  match s.dev.cur with
  | .queue h cq =>
    match ((s.dev.core h).eq cq).q with
    | c :: _ => .next ⟨s.mem, body ⟨s.mem, h, cq, c, s.dev⟩⟩
    | [] => .next s
  | _ => .next s

/-- A command of one step that counts nothing has executed. -/
def QCtx.executed (q : QCtx) (d : Dev) : Dev := (d.retireHead q.h q.cq).cmdReport q.h q.cq q.c.seq 1

/-- tnop (R229). -/
def execTnop (_hd : TileHdr) : State → Host.Outcome State Fault Refusal := command (fun q => q.executed q.d)

/-- fmt.set (R54, R229). -/
def execFmtSet (_hd : TileHdr) (ctx : W32) : State → Host.Outcome State Fault Refusal :=
  command (fun q =>
    if ctxSub ctx ≠ 0 then q.d.rsvfmt q.h q.cq (ctxSub ctx) ctx
    else q.executed (q.d.updCore q.h (fun k => k.updEq q.cq (fun e => { e with ctx := ctx }))))

/-! ### Accumulator tiles (R224, R229) -/

def Dev.tile (d : Dev) (h t : Nat) : Tile := (d.court (courtOf h)).tiles.get .init t
def Dev.setTile (d : Dev) (h t : Nat) (x : Tile) : Dev := d.updCourt (courtOf h) (fun k => { k with tiles := k.tiles.put t x })
/-- Numbers of the tiles from one on. -/
def tilesFrom (acc cnt : BitVec 2) : List Nat := (List.range (cnt.toNat + 1)).map (fun t => acc.toNat + t)
/-- The queue owns every tile named. -/
def Dev.ownsAll (d : Dev) (h : Nat) (ts : List Nat) : Bool := ts.all (fun t => (d.tile h t).owner == some (h % 4))

/-- acc.zero (R229). -/
def execAccZero (_hd : TileHdr) (acc cnt : BitVec 2) : State → Host.Outcome State Fault Refusal :=
  command (fun q => q.executed ((tilesFrom acc cnt).foldl (fun d t => d.setTile q.h t ⟨some (q.h % 4), .empty, q.c.lk⟩) q.d))

/-- acc.rel (R229). -/
def execAccRel (_hd : TileHdr) (acc cnt : BitVec 2) : State → Host.Outcome State Fault Refusal :=
  command (fun q =>
    let ts := tilesFrom acc cnt
    if !q.d.ownsAll q.h ts then q.d.rejectHead q.h q.cq 5
    else q.executed (ts.foldl (fun d t => d.setTile q.h t { d.tile q.h t with owner := none }) q.d))

/-! ### Synchronising commands (R230) -/

/-- sig (R230). -/
def execSig (_hd : TileHdr) (sbar : BitVec 9) : State → Host.Outcome State Fault Refusal :=
  command (fun q =>
    let x := (q.d.core q.h).bar sbar.toNat
    if x.check q.c.lk ≠ 0 then q.d.rejectHead q.h q.cq 5
    else if x.arr = 0xFFFF#16 then q.executed (q.d.barError q.h q.c.bar 0x60 5 0)
    else q.executed (q.d.barStep q.h sbar.toNat (fun x => { x with arr := x.arr + 1 }) false))

/-- twait (R230): taken only once the phase is there. -/
def execTwait (_hd : TileHdr) (wbar : BitVec 9) (_ph : Bool) : State → Host.Outcome State Fault Refusal :=
  command (fun q =>
    if ((q.d.core q.h).bar wbar.toNat).check q.c.lk ≠ 0 then q.d.rejectHead q.h q.cq 5 else q.executed q.d)

/-- tfence (R230): taken only once every earlier command has completed. -/
def execTfence (_hd : TileHdr) : State → Host.Outcome State Fault Refusal := command (fun q => q.executed q.d)

end Sys2Proof.Machine
end

