-- ==== Sys2Proof/Machine/Fetch.lean ====
section
/-! DEFINITION. The reads and writes of a command's step: where its words lie, what stops it, words read at homes and at banks,
landings and groups (R126, R165, R173, R225, R226, R233, R237). -/

namespace Sys2Proof.Machine

/-! ### Places -/

/-- Where a word lies: in global memory, in a local store, or nowhere, with the reason of R225 Table 3. -/
inductive Loc where
  | mem (va : Nat)
  | bank (t a : Nat)
  | bad (reason : Nat)
deriving DecidableEq, Repr

/-- The reason of a fault's cause (R225 Table 3). -/
def reasonOf (cause : Nat) : Nat :=
  if cause = 0x20 then 0 else if cause = 0x21 then 1 else if cause = 0x22 then 2
  else if 0x23 ≤ cause ∧ cause ≤ 0x27 then 3 else if cause = 0x04 then 5 else if cause = 0xF0 then 6 else 7

/-- A word of the pushing core's own store (space 1), of the window, or of global memory. -/
def QCtx.loc (q : QCtx) (own : Bool) (va : W64) : Loc :=
  if own then
    (if 2 ^ 20 ≤ va.toNat ∨ ((q.d.core q.h).regionOf va.toNat).isNone then .bad 5 else .bank q.h va.toNat)
  else if isWindow va then
    match q.d.windowFault (terrOf q.c.lk) va with
    | some e => .bad (reasonOf e.1)
    | none =>
      if ((q.d.core (windowCore va)).regionOf (windowAddr va)).isNone then .bad 5 else .bank (windowCore va) (windowAddr va)
  else .mem va.toNat

/-- A word that a step reads: its number, its operand (R225), where it lies, and the address a stop reports. -/
structure Rd where
  ix : Nat
  op : Nat
  loc : Loc
  va : W64

/-- A word that a step writes, in order. -/
structure Wr where
  loc : Loc
  va : W64
  data : W32

/-- A word of a space, to be read. -/
def QCtx.rd (q : QCtx) (ix op : Nat) (own : Bool) (va : W64) : Rd :=
  ⟨ix, op, q.loc own va, if own then BitVec.ofNat 64 (windowOf q.h (va.toNat % 2 ^ 20)) else va⟩
/-- A word of a space, to be written. -/
def QCtx.wr (q : QCtx) (own : Bool) (va : W64) (v : W32) : Wr :=
  ⟨q.loc own va, if own then BitVec.ofNat 64 (windowOf q.h (va.toNat % 2 ^ 20)) else va, v⟩

/-! ### Global lines -/

/-- Lines of some words, each run once. -/
def runLines : List (Nat × W64) → List (Nat × W64) → List (Nat × W64)
  | acc, [] => acc.reverse
  | [], x :: r => runLines [(lineOf x.1, x.2)] r
  | a :: acc, x :: r => if a.1 = lineOf x.1 then runLines (a :: acc) r else runLines ((lineOf x.1, x.2) :: a :: acc) r

/-- Lines each once, by their addresses, with their physical addresses. -/
inductive Lines where
  | ok (ps : List (Nat × Nat)) (d : Dev)
  | wait (d : Dev)
  | bad (reason : Nat) (va : W64)

/-- Lines translated for an engine: any that is missing is waited for, the first that fails stops the step. -/
def QCtx.lines (q : QCtx) (d : Dev) (need : List Right) (ls : List (Nat × W64)) : Lines :=
  let rs := ls.map (fun l => (l, d.translate q.m q.who need (BitVec.ofNat 64 l.1)))
  let missed := rs.filter (fun r => r.2 == .miss)
  if !missed.isEmpty then .wait (missed.foldl (fun d r => d.askFor q.who (BitVec.ofNat 64 r.1.1)) d) else
  match rs.findSome? (fun r => match r.2 with | .bad c _ => some (reasonOf c, r.1.2) | .page _ => some (0, r.1.2) | _ => none) with
  | some e => .bad e.1 e.2
  | none =>
    .ok (rs.filterMap (fun r => match r.2 with | .ok pa _ => some (r.1.1, pa) | _ => none))
      (rs.foldl (fun d r => match r.2 with | .ok _ l => d.fillPlb q.m q.who l.dom | _ => d) d)

/-! ### Bank words (R126, R237) -/

/-- The word comes from a queue. -/
def ParkSrc.ofQueue (h : Nat) (cq : Bool) : ParkSrc → Bool
  | .engine x c _ => x == h && c == cq
  | .landing w => w.h == h && w.cq == cq
  | .own _ _ _ | .remote _ => false

/-- A word of the queue is on its way to a core, held there, parked there, or to be tried again: what the queue sends later
waits behind it. -/
def Dev.queueBusy (d : Dev) (h : Nat) (cq : Bool) (t : Nat) : Bool :=
  let here (w : EngWord) : Bool := w.dst == t && w.h == h && w.cq == cq
  let inEv (e : Ev) : Bool := match e with | .engineWordLanding w | .engineLandingRetry w => here w | _ => false
  (d.core t).parked.any (fun p => p.src.ofQueue h cq) || (d.core t).heldEng.any here ||
    d.net.any (fun f => inEv f.e) || d.agenda.any (fun a => match a with | .ev e => inEv e | _ => false)

/-- What came of reading a word at its bank. -/
inductive BankRead where
  | on (d : Dev)
  | held (d : Dev)
  | stop (d : Dev) (reason : Nat)

/-- One word of the head's step is read at its bank, unless it is settled or must wait. `tol`: a trapped word is left unread. -/
def Dev.readBank (d : Dev) (h : Nat) (cq : Bool) (tol : Bool) (ix t a : Nat) : BankRead :=
  match ((d.core h).eq cq).q with
  | [] => .held d
  | c :: _ =>
    let settled (code : Nat) : BankRead :=
      let cause := code / 256
      if cause = 0x10 ∨ cause = 0x41 then (if tol then .on d else .stop d 7) else .stop d (reasonOf cause)
    if c.trapped.contains ix then settled ((c.rd.get 0#32 ix).toNat)
    else if (c.rd.find? ix).isSome then .on d
    else if c.parked.contains ix || decide (d.clock < c.retryAt) || d.queueBusy h cq t || d.awayOn (terrOf c.lk) t || (d.core t).unrestored a then .held d
    else
      let put (d : Dev) (f : Cmd → Cmd) : Dev := d.keepHead h cq f
      let lost (d : Dev) (o : BankOut) (cause sub : Nat) : BankRead :=
        let d := put (d.noteRead h cq o) (fun c => { c with trapped := c.trapped ++ [ix], rd := c.rd.put ix (BitVec.ofNat 32 (256 * cause + sub % 16)) })
        if (cause = 0x10 ∨ cause = 0x41) ∧ tol then .on d
        else .stop d (if cause = 0x10 ∨ cause = 0x41 then 7 else reasonOf cause)
      match d.bankOp t a .erd 0#32 (.engine h cq ix) with
      | (.out w, d) => .on (put d (fun c => { c with rd := c.rd.put ix w }))
      | (.parked _, d) => .held (put d (fun c => { c with parked := c.parked ++ [ix] }))
      | (.trapped cause sub, d) =>
        if cause = 0x12 then .held (put d (fun c => { c with retryAt := d.clock + 64 }))
        else lost d (.trapped cause sub) cause sub
      | (.refused p, d) => lost d (.refused p) 0x41 9

/-- Reading the bank words of a step in order; the words of a core behind one that waits there are not sent. -/
def Dev.readBanks (h : Nat) (cq tol : Bool) : List Rd → List Nat → Dev → Dev × List Nat × Option (Nat × Nat × W64)
  | [], w, d => (d, w, none)
  | r :: rest, w, d =>
    match r.loc with
    | .bank t a =>
      if w.contains t then Dev.readBanks h cq tol rest w d else
      match d.readBank h cq tol r.ix t a with
      | .on d => Dev.readBanks h cq tol rest w d
      | .held d => Dev.readBanks h cq tol rest (t :: w) d
      | .stop d reason => (d, w, some (r.op, reason, r.va))
    | _ => Dev.readBanks h cq tol rest w d

/-! ### A step's reads -/

/-- What a step's reading comes to: the values of its words in order (none for a word left unread), a wait, or a stop. -/
inductive Fetch where
  | ok (vs : List (Option W32)) (d : Dev)
  | wait (d : Dev)
  | stop (d : Dev) (op reason : Nat) (va : W64)

/-- The words of a step are read once all of them have come: the words at banks, then every line of global memory at one read
point each. -/
def QCtx.readAll (q : QCtx) (d : Dev) (rs : List Rd) (globs : List (Nat × Rd)) (ps : List (Nat × Nat)) : Fetch :=
  if ps.any (fun p => d.pending p.2) then .wait d else
  match ps.find? (fun p => d.linePoison.contains p.2) with
  | some p =>
    match globs.find? (fun g => lineOf g.1 == p.1) with
    | some g => .stop d g.2.op 6 g.2.va
    | none => .wait d
  | none =>
    match d.visit (d.fnOf q.c.lk) false (ps.map (·.2)) true with
    | (d, false) => .wait d
    | (d, true) =>
      let c := ((((d.core q.h).eq q.cq).q).head?).getD q.c
      .ok (rs.map (fun r => match r.loc with
        | .mem va => (ps.find? (fun p => p.1 == lineOf va)).map (fun p => q.m.w32 (p.2 + va % 128))
        | .bank _ _ => if c.trapped.contains r.ix then none else c.rd.find? r.ix
        | .bad _ => none)) d

/-- The words of a step up to the first that no waiting can bring: one that lies nowhere or whose page or rights fail. That one
stops the step when the words before it have come (R225: the first line whose fetch stopped the command). -/
def QCtx.fetch (q : QCtx) (tol : Bool) (rs : List Rd) : Fetch :=
  let placed := rs.takeWhile (fun r => match r.loc with | .bad _ => false | _ => true)
  let lost := (rs.drop placed.length).findSome? (fun r => match r.loc with | .bad reason => some (r.op, reason, r.va) | _ => none)
  let globs := placed.filterMap (fun r => match r.loc with | .mem va => some (va, r) | _ => none)
  match q.lines q.d [.r] (runLines [] (globs.map (fun g => (g.1, g.2.va)))) with
  | .wait d => .wait d
  | .bad reason va =>
    let op := ((globs.find? (fun g => g.2.va == va)).map (fun g => g.2.op)).getD 0
    match q.d.readBanks q.h q.cq tol (placed.takeWhile (fun r => r.va != va)) [] with
    | (d, _, some e) => .stop d e.1 e.2.1 e.2.2
    | (d, _ :: _, none) => .wait d
    | (d, [], none) => .stop d op reason va
  | .ok ps d =>
    match d.readBanks q.h q.cq tol placed [] with
    | (d, _, some e) => .stop d e.1 e.2.1 e.2.2
    | (d, _ :: _, none) => .wait d
    | (d, [], none) =>
      match lost with
      | some e => .stop d e.1 e.2.1 e.2.2
      | none => q.readAll d rs globs ps

/-! ### A step's writes -/

/-- The last unfinished group of a queue. -/
def Dev.lastQueueGroup (d : Dev) (h : Nat) (cq : Bool) : Option Nat :=
  (d.groups.filter (fun g => g.fin.any (fun f => match f with | .engine x c _ _ => x == h && c == cq | _ => false))).getLast?.map (·.id)

/-- Words laid into lines, later over earlier. -/
def putLine (pa : Nat → Nat) : List (Nat × W32) → List GLine → List GLine
  | [], ls => ls
  | (va, v) :: r, ls =>
    let b := lineBytes va v.toNat 4
    match ls with
    | l :: rest =>
      if l.va = lineOf va then putLine pa r ({ l with data := Line.over l.data b.1 b.2, mask := l.mask ||| b.2 } :: rest)
      else if rest.any (fun x => x.va == lineOf va) then
        putLine pa r (l :: rest.map (fun x => if x.va == lineOf va then { x with data := Line.over x.data b.1 b.2, mask := x.mask ||| b.2 } else x))
      else putLine pa r (⟨lineOf va, pa (lineOf va), b.1, b.2, none⟩ :: l :: rest)
    | [] => putLine pa r [⟨lineOf va, pa (lineOf va), b.1, b.2, none⟩]

/-- What a step's writing comes to. -/
inductive Store where
  | ok (d : Dev)
  | wait (d : Dev)
  | stop (d : Dev) (op reason : Nat) (va : W64)

/-- The words of a step are written (R173, R237): the global ones as one group of the queue that counts so many bytes, those at
banks as landings, each counting four. Nothing is written when a word's place fails. -/
def QCtx.writeAs (q : QCtx) (d : Dev) (op : Nat) (need : List Right) (ws : List Wr) (bytes : Nat) : Store :=
  match ws.findSome? (fun w => match w.loc with | .bad reason => some (reason, w.va) | _ => none) with
  | some e => .stop d op e.1 e.2
  | none =>
    let globs := ws.filterMap (fun w => match w.loc with | .mem va => some (va, w) | _ => none)
    match q.lines d need (runLines [] (globs.map (fun g => (g.1, g.2.va)))) with
    | .wait d => .wait d
    | .bad reason va => .stop d op reason va
    | .ok ps d =>
      let lines := putLine (fun v => ((ps.find? (fun p => p.1 == v)).map (·.2)).getD 0) (globs.map (fun g => (g.1, g.2.data))) []
      let d := ws.foldl (fun d w => match w.loc with
        | .bank t a => d.send (chanOf 8 (2 * q.h + (if q.cq then 1 else 0)) t) (.engineWordLanding ⟨t, a, w.data, q.h, q.cq, q.c.seq, q.c.step⟩)
        | _ => d) d
      if lines.isEmpty then .ok d else
      .ok (d.addGroup q.m lines (d.fnOf q.c.lk) q.h (d.lastQueueGroup q.h q.cq) [.engine q.h q.cq q.c.seq bytes])

/-- Words of a step written, each counting four bytes. -/
def QCtx.write (q : QCtx) (d : Dev) (op : Nat) (need : List Right) (ws : List Wr) : Store :=
  q.writeAs d op need ws (4 * (ws.filter (fun w => match w.loc with | .mem _ => true | _ => false)).length)

/-! ### Steps (R217, R226) -/

/-- The command begins, at the step its restart names (R226); the bytes of the steps it skips count as reported (log 33). -/
def QCtx.begin_ (q : QCtx) (hd : TileHdr) (skipped : Nat) : QCtx :=
  if q.c.begun then q else
  let c := { q.c with begun := true, step := hd.rstep.toNat }
  let d := q.d.updCore q.h (fun k => k.updEq q.cq (fun e => match e.q with | _ :: r => { e with q := c :: r } | [] => e))
  let d := if skipped = 0 then d else d.cmdReport q.h q.cq c.seq skipped
  { q with c := ((((d.core q.h).eq q.cq).q).head?).getD c, d := d }

/-- A step has executed: the command goes to its next step, or leaves the queue after its last. -/
def QCtx.stepped (q : QCtx) (d : Dev) (last : Nat) : Dev :=
  if last ≤ q.c.step then d.retireHead q.h q.cq
  else (d.unitRan q.h q.cq).keepHead q.h q.cq (fun c => { c with step := c.step + 1, rd := .empty, trapped := [], parked := [] })

/-- A step that must wait keeps what it has read. -/
def QCtx.stopAt (q : QCtx) (d : Dev) (op reason : Nat) (va : W64) : Dev := d.stopHead q.h q.cq op reason va

/-! ### Landings (R126, R237) -/

/-- A word lands: a WAIT entry parks it, a full list makes the engine try again in 64 cycles, anything else settles it. -/
def Dev.land (d : Dev) (w : EngWord) : Dev :=
  match d.bankOp w.dst w.addr .ewr w.data (.landing w) with
  | (.parked _, d) => d
  | (.trapped 0x12 _, d) => d.later 64 (.engineLandingRetry w)
  | (o, d) => d.settleLanding w o

/-- The launch of a command in a core's queue, if it stands there. -/
def Dev.cmdLk? (d : Dev) (h : Nat) (cq : Bool) (seq : Nat) : Option Nat := (((d.core h).eq cq).cmd? seq).map Cmd.lk

/-- The word's place is not there: its launch is saved where it comes from or one of its terrace where it lands, or the unit it falls in has still to be
restored (R306, R307). -/
def Dev.wordAway (d : Dev) (w : EngWord) : Bool :=
  d.savedCmd w.h w.cq w.seq || ((d.cmdLk? w.h w.cq w.seq).map (fun lk => d.awayOn (terrOf lk) w.dst)).getD false || (d.core w.dst).unrestored w.addr

/-- Something of the word's queue waits at the core, so that the word is held back. -/
def Dev.landingBlocked (d : Dev) (w : EngWord) : Bool :=
  d.wordAway w ||
  (d.core w.dst).parked.any (fun p => p.src.ofQueue w.h w.cq) ||
  (d.core w.dst).heldEng.any (fun x => x.h == w.h && x.cq == w.cq) ||
  d.net.any (fun f => match f.e with | .engineLandingRetry x => x.dst == w.dst && x.h == w.h && x.cq == w.cq | _ => false)

/-- An engine word arrives at its core (R237). -/
def execEngineWordLanding (w : EngWord) : State → Host.Outcome State Fault Refusal :=
  onDev (fun _ d =>
    if d.landingBlocked w then d.updCore w.dst (fun c => { c with heldEng := c.heldEng ++ [w] }) else d.land w)

/-- The engine tries a refused landing again (R237). -/
def execEngineLandingRetry (w : EngWord) : State → Host.Outcome State Fault Refusal :=
  onDev (fun _ d =>
    if d.wordAway w then d.updCore w.dst (fun c => { c with heldEng := w :: c.heldEng }) else
    let d := d.land w
    if (d.core w.dst).parked.any (fun p => p.src.ofQueue w.h w.cq) ||
        d.net.any (fun f => match f.e with | .engineLandingRetry x => x.dst == w.dst && x.h == w.h && x.cq == w.cq | _ => false)
    then d else d.takeUpEng w.dst w.h w.cq)

end Sys2Proof.Machine
end

