-- ==== Sys2Proof/Machine/Num.lean ====
section
/-! DEFINITION. Numbers: the floating formats, rounding, arithmetic on exact values, the lane tree, conversions and the
approximation tables (R39 to R54, R109, R110). -/

namespace Sys2Proof

/-- Exponent bias and fraction bits of a floating format (R41 Table 2); integer formats have none. -/
def Fmt.bias : Fmt → Int
  | .f32 | .bf16 => 127 | .e4m3 => 7 | .e5m2 => 15 | .i32 | .u32 => 0
def Fmt.frac : Fmt → Nat
  | .f32 => 23 | .bf16 => 7 | .e4m3 => 3 | .e5m2 => 2 | .i32 | .u32 => 0
def Fmt.expBits : Fmt → Nat
  | .f32 | .bf16 => 8 | .e4m3 => 4 | .e5m2 => 5 | .i32 | .u32 => 0
/-- Exponent of the top binade. -/
def Fmt.emax : Fmt → Int
  | .f32 | .bf16 => 127 | .e4m3 => 8 | .e5m2 => 15 | .i32 | .u32 => 0
/-- The largest finite value in units of the top binade's spacing, and the code of its magnitude. -/
def Fmt.maxUnits : Fmt → Nat
  | .f32 => 2 ^ 24 - 1 | .bf16 => 255 | .e4m3 => 14 | .e5m2 => 7 | .i32 | .u32 => 0
def Fmt.maxCode : Fmt → Nat
  | .f32 => 0x7F7FFFFF | .bf16 => 0x7F7F | .e4m3 => 0x7E | .e5m2 => 0x7B | .i32 | .u32 => 0
def Fmt.infCode : Fmt → Nat
  | .f32 => 0x7F800000 | .bf16 => 0x7F80 | .e4m3 => 0x7F | .e5m2 => 0x7C | .i32 | .u32 => 0
/-- The canonical NaN (R42). -/
def Fmt.nanCode : Fmt → Nat
  | .f32 => 0x7FC00000 | .bf16 => 0x7FC0 | .e4m3 => 0x7F | .e5m2 => 0x7E | .i32 | .u32 => 0
/-- Exponent of one unit in the last place of the subnormals. -/
def Fmt.qmin (f : Fmt) : Int := 1 - f.bias - f.frac

/-- Ends of an integer format's range. -/
def Fmt.lo : Fmt → Int
  | .i32 => -2 ^ 31 | .u32 | .f32 | .bf16 | .e4m3 | .e5m2 => 0
def Fmt.hi : Fmt → Int
  | .i32 => 2 ^ 31 - 1 | .u32 | .f32 | .bf16 | .e4m3 | .e5m2 => 2 ^ 32 - 1

/-- The number format of a floating type. -/
def FType.fmt : FType → Fmt
  | .f32 => .f32 | .bf16 => .bf16

end Sys2Proof

namespace Sys2Proof.Machine

/-! ### Exact values (R41, R42) -/

/-- A value a floating format can name, or an exact result: a NaN, an infinity by sign, or (-1)^s x m x 2^e. -/
inductive FVal where
  | nan
  | inf (neg : Bool)
  | fin (neg : Bool) (m : Nat) (e : Int)
deriving DecidableEq, Repr

/-- Rounding modes. -/
inductive RMode where | rn | rz | ru | rd
deriving DecidableEq, Repr

/-- A format's element read from the low bits of a lane (R41, R92), a subnormal as zero under FTZ (R45). -/
def decF (f : Fmt) (ftz : Bool) (w : W32) : FVal :=
  let v := w.toNat
  let m := v % 2 ^ f.frac
  let e := v / 2 ^ f.frac % 2 ^ f.expBits
  let neg := v.testBit (f.frac + f.expBits)
  let top := 2 ^ f.expBits - 1
  if f == .e4m3 && e == 15 && m == 7 then .nan
  else if f != .e4m3 && e == top then (if m = 0 then .inf neg else .nan)
  else if e = 0 then .fin neg (if ftz then 0 else m) f.qmin
  else .fin neg (2 ^ f.frac + m) (e - f.bias - f.frac)

/-! ### Rounding (R43) -/

/-- The integer part n of a magnitude, its remainder r out of h, rounded in a mode for a sign. -/
def roundInt (md : RMode) (neg : Bool) (n r h : Nat) : Nat :=
  if r = 0 then n else
  match md with
  | .rn => if 2 * r < h then n else if h < 2 * r then n + 1 else n + n % 2
  | .rz => n
  | .ru => if neg then n else n + 1
  | .rd => if neg then n + 1 else n

/-- The code of the overflow rule (R43 step 4), without the sign. -/
def overCode (f : Fmt) (md : RMode) (neg : Bool) : Nat :=
  if f == .e4m3 then f.maxCode else
  match md with
  | .rn => f.infCode
  | .rz => f.maxCode
  | .ru => if neg then f.maxCode else f.infCode
  | .rd => if neg then f.infCode else f.maxCode

/-- The sign bit over a magnitude's code. -/
def signed (f : Fmt) (neg : Bool) (c : Nat) : W32 := BitVec.ofNat 32 (c + if neg then 2 ^ (f.frac + f.expBits) else 0)

/-- RoundT (R43) into lane form (R92). -/
def encF (f : Fmt) (md : RMode) (ftz : Bool) : FVal → W32
  | .nan => BitVec.ofNat 32 f.nanCode
  | .inf neg => if f == .e4m3 then BitVec.ofNat 32 f.nanCode else signed f neg f.infCode
  | .fin neg m e =>
    if m = 0 then signed f neg 0 else
    let top : Int := m.log2 + e
    if f.emax + 1 < top then signed f neg (overCode f md neg) else
    let q : Int := min (max (top - f.frac) f.qmin) (f.emax - f.frac)
    let n : Nat :=
      if q ≤ e then m * 2 ^ (e - q).toNat
      else
        let sh := (q - e).toNat
        if m.log2 + 2 < sh then roundInt md neg 0 1 4
        else roundInt md neg (m / 2 ^ sh) (m % 2 ^ sh) (2 ^ sh)
    if q == f.emax - f.frac && decide (f.maxUnits < n) then signed f neg (overCode f md neg)
    else if n < 2 ^ f.frac then (if ftz then signed f neg 0 else signed f neg n)
    else signed f neg (n - 2 ^ f.frac + (q + f.frac + f.bias).toNat * 2 ^ f.frac)

/-! ### Exact arithmetic (R42, R44, R46) -/

/-- A signed integer at exponent e of a finite value with exponent at least e. -/
def atExp (neg : Bool) (m : Nat) (e0 e : Int) : Int :=
  let v : Int := m * 2 ^ (e0 - e).toNat
  if neg then -v else v

/-- The exact sum, with the sign that R44 gives a zero. -/
def addF (md : RMode) : FVal → FVal → FVal
  | .nan, _ => .nan
  | _, .nan => .nan
  | .inf a, .inf b => if a == b then .inf a else .nan
  | .inf a, .fin _ _ _ => .inf a
  | .fin _ _ _, .inf b => .inf b
  | .fin a m e, .fin b n g =>
    let k := min e g
    let t := atExp a m e k + atExp b n g k
    if t = 0 then .fin (if a == b then a else md == .rd) 0 0 else .fin (decide (t < 0)) t.natAbs k

/-- The exact product. -/
def mulF : FVal → FVal → FVal
  | .nan, _ => .nan
  | _, .nan => .nan
  | .inf a, .inf b => .inf (a != b)
  | .inf a, .fin b n _ => if n = 0 then .nan else .inf (a != b)
  | .fin a m _, .inf b => if m = 0 then .nan else .inf (a != b)
  | .fin a m e, .fin b n g => .fin (a != b) (m * n) (e + g)

def negF : FVal → FVal
  | .nan => .nan
  | .inf a => .inf (!a)
  | .fin a m e => .fin (!a) m e
def absF : FVal → FVal
  | .nan => .nan
  | .inf _ => .inf false
  | .fin _ m e => .fin false m e

/-- Order of two values that are not NaN: -1, 0 or 1; zeros are equal. -/
def cmpF : FVal → FVal → Int
  | .inf a, .inf b => if a == b then 0 else if a then -1 else 1
  | .inf a, _ => if a then -1 else 1
  | _, .inf b => if b then 1 else -1
  | .fin a m e, .fin b n g =>
    let k := min e g
    (atExp a m e k - atExp b n g k).sign
  | _, _ => 0

def isNegF : FVal → Bool
  | .nan => false | .inf a => a | .fin a _ _ => a

/-- The smaller: a NaN if either is one, -0 below +0 (R105). -/
def minF (x y : FVal) : FVal :=
  if x == .nan || y == .nan then .nan
  else if cmpF x y < 0 then x else if 0 < cmpF x y then y else if isNegF x then x else y
/-- The larger. -/
def maxF (x y : FVal) : FVal :=
  if x == .nan || y == .nan then .nan
  else if cmpF x y < 0 then y else if 0 < cmpF x y then x else if isNegF x then y else x

/-! ### Modes of an instruction -/

/-- Mode(rnd) (R62, R36). -/
def Slot.mode (s : Slot) (r : Rnd) : RMode :=
  match r with
  | .rn => .rn | .rz => .rz | .ru => .ru | .rd => .rd
  | .dyn => (match s.rm.toNat with | 0 => .rn | 1 => .rz | 2 => .ru | _ => .rd)

/-! ### The lane tree (R47, R48) -/

/-- Comb of two nodes. -/
def comb {α : Type} (op : α → α → α) : Option α → Option α → Option α
  | none, q => q
  | p, none => p
  | some p, some q => some (op p q)

/-- node(j, i). -/
def treeNode {α : Type} (op : α → α → α) (leaf : Nat → Option α) : Nat → Nat → Option α
  | 0, i => leaf i
  | j + 1, i => comb op (treeNode op leaf j (2 * i)) (treeNode op leaf j (2 * i + 1))

/-- The inclusive prefix of lanes 0 to l: the tree's aligned blocks, largest first. -/
def treePrefix {α : Type} (op : α → α → α) (leaf : Nat → Option α) (l : Nat) : Option α :=
  ([4, 3, 2, 1, 0].foldl (fun (acc : Option α × Nat) j =>
    if (l + 1).testBit j then (comb op acc.1 (treeNode op leaf j (acc.2 / 2 ^ j)), acc.2 + 2 ^ j) else acc) (none, 0)).1

/-- The exclusive prefix of lane l. -/
def treeBefore {α : Type} (op : α → α → α) (leaf : Nat → Option α) : Nat → Option α
  | 0 => none
  | l + 1 => treePrefix op leaf l

/-! ### Conversions (R109, R110) -/

/-- A value rounded to an integer in a mode; magnitudes at or beyond 2^40 stand for any that clamp. -/
def toIntF (md : RMode) (neg : Bool) (m : Nat) (e : Int) : Int :=
  if m = 0 then 0 else
  if 40 < (m.log2 : Int) + e then (if neg then -2 ^ 40 else 2 ^ 40) else
  let n := if 0 ≤ e then m * 2 ^ e.toNat
    else
      let sh := (-e).toNat
      if m.log2 + 2 < sh then roundInt md neg 0 1 4 else roundInt md neg (m / 2 ^ sh) (m % 2 ^ sh) (2 ^ sh)
  if neg then -(n : Int) else n

/-- Conv(T, F, x, m) (R109 Table 7). -/
def conv (t f : Fmt) (md : RMode) (ftz sat : Bool) (w : W32) : W32 :=
  if f.isInt then
    let x : Int := if f == .i32 then w.toInt else w.toNat
    if t.isInt then (if sat then BitVec.ofInt 32 (max t.lo (min x t.hi)) else BitVec.ofInt 32 x)
    else encF t md ftz (.fin (decide (x < 0)) x.natAbs 0)
  else
    let v := decF f ftz w
    if t.isInt then
      match v with
      | .nan => 0#32
      | .inf neg => BitVec.ofInt 32 (if neg then t.lo else t.hi)
      | .fin neg m e => BitVec.ofInt 32 (max t.lo (min (toIntF md neg m e) t.hi))
    else encF t md ftz v

/-- The scale exponent of vcvtsc: the least k with m x 2^e at most the largest finite value of t times 2^k, clamped. -/
def scaleExp (t : Fmt) (m : Nat) (e : Int) : Int :=
  if m = 0 then 0 else
  let g : Int := t.emax - t.frac
  let k : Int := (m.log2 + e) - (t.maxUnits.log2 + g)
  let lo := min e (g + k)
  let k := if atExp false m e lo ≤ atExp false t.maxUnits (g + k) lo then k else k + 1
  max (-126) (min k 127)

/-- One lane of vcvtsc: the converted element and the scale (R110). -/
def convScale (t f : Fmt) (md : RMode) (ftz : Bool) (xw bw : W32) : W32 × W32 :=
  match absF (decF f ftz bw) with
  | .fin _ m e =>
    let k := scaleExp t m e
    let x := match decF f ftz xw with | .fin n a g => .fin n a (g - k) | v => v
    (encF t md ftz x, BitVec.ofNat 32 ((k + 127).toNat * 2 ^ 23))
  | .nan | .inf _ => (BitVec.ofNat 32 t.nanCode, 0x7FC00000#32)

/-! ### Approximations (R51, R52) -/

/-- The largest n below 2^k that p accepts, for p true of 0 and false from some number on. -/
def greatest (p : Nat → Bool) : Nat → Nat → Nat
  | 0, n => n
  | k + 1, n => greatest p k (if p (n + 2 ^ k) then n + 2 ^ k else n)

/-- Entry of the reciprocal table, in 4,096ths: 256 / (257 + 2i), rounded to nearest even. -/
def rcpEntry (i : Nat) : Nat :=
  let h := 257 + 2 * i
  roundInt .rn false (2 ^ 20 / h) (2 ^ 20 % h) h

/-- Entry of the reciprocal square root table, in 4,096ths: the root of 256 / ((257 + 2i) 2^p). -/
def rsqEntry (p i : Nat) : Nat :=
  let h := (257 + 2 * i) * 2 ^ p
  let n := greatest (fun n => decide (n * n * h ≤ 2 ^ 32)) 13 0
  if (2 * n + 1) ^ 2 * h < 2 ^ 34 then n + 1 else n

/-- Entry of the power table, in 2,048ths: 2^((2i+1)/256). -/
def expEntry (i : Nat) : Nat :=
  let n := greatest (fun n => decide (n ^ 256 ≤ 1 <<< (11 * 256 + 2 * i + 1))) 12 0
  if (2 * n + 1) ^ 256 < 1 <<< (12 * 256 + 2 * i + 1) then n + 1 else n

/-- Entry of the logarithm table, in 4,096ths: log2((257 + 2i) / 256). -/
def logEntry (i : Nat) : Nat :=
  let q := (257 + 2 * i) ^ 4096
  let n := greatest (fun n => decide (1 <<< (8 * 4096 + n) ≤ q)) 12 0
  if 1 <<< (2 * (8 * 4096 + n) + 1) < q * q then n + 1 else n

/-- Exponent and the seven leading fraction bits of a finite value that is not zero. -/
def topBits (m : Nat) (e : Int) : Int × Nat := (m.log2 + e, m * 128 / 2 ^ m.log2 % 128)

/-- floor(128 x). -/
def floor128 (neg : Bool) (m : Nat) (e : Int) : Int :=
  if 140 < (m.log2 : Int) + e then (if neg then -2 ^ 140 else 2 ^ 140)
  else if 0 ≤ e + 7 then atExp neg m (e + 7) 0
  else
    let sh := (-(e + 7)).toNat
    if neg then -(((m + 2 ^ sh - 1) / 2 ^ sh : Nat) : Int) else ((m / 2 ^ sh : Nat) : Int)

def rcpF : FVal → FVal
  | .nan => .nan
  | .inf a => .fin a 0 0
  | .fin a m e => if m = 0 then .inf a else let t := topBits m e; .fin a (rcpEntry t.2) (-12 - t.1)
def rsqF : FVal → FVal
  | .nan => .nan
  | .inf a => if a then .nan else .fin false 0 0
  | .fin a m e =>
    if m = 0 then .inf a else if a then .nan else
    let t := topBits m e
    let p := t.1 % 2
    .fin false (rsqEntry p.toNat t.2) (-12 - (t.1 - p) / 2)
def exp2F : FVal → FVal
  | .nan => .nan
  | .inf a => if a then .fin false 0 0 else .inf false
  | .fin a m e => let t := floor128 a m e; .fin false (expEntry (t % 128).toNat) (t / 128 - 11)
def log2F : FVal → FVal
  | .nan => .nan
  | .inf a => if a then .nan else .inf false
  | .fin a m e =>
    if m = 0 then .inf true else if a then .nan else
    let t := topBits m e
    let v := t.1 * 4096 + logEntry t.2
    .fin (decide (v < 0)) v.natAbs (-12)

end Sys2Proof.Machine
end

