-- ==== Sys2Proof/Machine/Copy.lean ====
section
/-! DEFINITION. The copy engine: copies, fills, gathers, scatters, and the updates of cp.spred with their merging (R188, R236 to
R238). -/

namespace Sys2Proof.Machine

/-! ### Moving words (R237) -/

/-- Bytes that will not be written count as reported. -/
def QCtx.skip (q : QCtx) (d : Dev) (bytes : Nat) : Dev :=
  if bytes = 0 then d else d.send (chanOf 3 q.h (if q.cq then 1 else 0)) (.engineReport q.h q.cq q.c.seq bytes)

/-- A step that writes the words it reads: those left unread are not written. `lost` are bytes of rows without an index. -/
def QCtx.move (q : QCtx) (d : Dev) (last lost : Nat) (dsp : Bool) (dst : List W64) (vs : List (Option W32)) : Dev :=
  let ps := vs.zip dst
  let ws := ps.filterMap (fun p => p.1.map (fun v => q.wr dsp p.2 v))
  match q.write d 7 [.w] ws with
  | .wait d => d
  | .stop d op reason va => q.stopAt d op reason va
  | .ok d => q.stepped (q.skip d (lost + 4 * (ps.length - ws.length))) last

/-- The byte offsets of a step of cp.copy or cp.fill, by words. -/
def stepWords (len s : Nat) : List Nat := (List.range ((min (4096 * (s + 1)) len - 4096 * s) / 4)).map (fun i => 4096 * s + 4 * i)

/-- cp.copy (R237); an ocopy is one (R188). -/
def execCpCopy (hd : TileHdr) (x : CpArgs) : State → Host.Outcome State Fault Refusal :=
  command (fun q =>
    let q := q.begin_ hd (4096 * hd.rstep.toNat)
    let os := stepWords x.len.toNat q.c.step
    match q.fetch true (os.zipIdx.map (fun o => q.rd o.2 6 x.ssp (x.src + BitVec.ofNat 64 o.1))) with
    | .wait d => d
    | .stop d op reason va => q.stopAt d op reason va
    | .ok vs d => q.move d x.lastCopy 0 x.dsp (os.map (fun o => x.dst + BitVec.ofNat 64 o)) vs)

/-- cp.fill (R237). -/
def execCpFill (hd : TileHdr) (x : CpArgs) : State → Host.Outcome State Fault Refusal :=
  command (fun q =>
    let q := q.begin_ hd (4096 * hd.rstep.toNat)
    let os := stepWords x.len.toNat q.c.step
    q.move q.d x.lastCopy 0 x.dsp (os.map (fun o => x.dst + BitVec.ofNat 64 o)) (os.map (fun _ => some x.cnt)))

/-! ### Gather and scatter (R237) -/

/-- The rows of a step. -/
def stepRows (cnt s : Nat) : List Nat := (List.range (min 64 (cnt - 64 * s))).map (fun i => 64 * s + i)

/-- The indices of a step are read once: what has been read stays with the command. -/
def QCtx.indices (q : QCtx) (x : CpArgs) : Fetch :=
  let rows := stepRows x.cnt.toNat q.c.step
  let known := rows.zipIdx.map (fun r => q.c.rd.find? r.2)
  if known.all Option.isSome then
    .ok (rows.zipIdx.map (fun r => if q.c.trapped.contains r.2 then none else q.c.rd.find? r.2)) q.d
  else
    match q.fetch true (rows.zipIdx.map (fun r => q.rd r.2 8 x.isp (x.idx + BitVec.ofNat 64 (4 * r.1)))) with
    | .ok vs d =>
      .ok vs (d.updCore q.h (fun k => k.updEq q.cq (fun e => match e.q with
        | c :: r => { e with q := { c with rd := vs.zipIdx.foldl (fun m v => match v.1 with | some w => m.put v.2 w | none => m) c.rd } :: r }
        | [] => e)))
    | f => f

/-- Words of rows: for each row with its index, the addresses from a function of row and index. -/
def rowWords (rlen : Nat) (rows : List (Nat × W32)) (at_ : Nat → W32 → W64) : List (Nat × W64) :=
  rows.flatMap (fun r => (List.range (rlen / 4)).map (fun w => (r.1 % 64 * (rlen / 4) + w, at_ r.1 r.2 + BitVec.ofNat 64 (4 * w))))

/-- A step of a gather or a scatter, by where its rows are read and written. -/
def rowsForm (hd : TileHdr) (x : CpArgs) (src dst : Nat → W32 → W64) : State → Host.Outcome State Fault Refusal :=
  command (fun q =>
    let rlen := x.len.toNat
    let q := q.begin_ hd (64 * hd.rstep.toNat * rlen)
    match q.indices x with
    | .wait d => d
    | .stop d op reason va => q.stopAt d op reason va
    | .ok is d =>
      let q := { q with d := d, c := ((((d.core q.h).eq q.cq).q).head?).getD q.c }
      let rows := (stepRows x.cnt.toNat q.c.step).zip is
      let live := rows.filterMap (fun r => r.2.map (fun i => (r.1, i)))
      match q.fetch true ((rowWords rlen live src).map (fun w => q.rd (64 + w.1) 6 x.ssp w.2)) with
      | .wait d => d
      | .stop d op reason va => q.stopAt d op reason va
      | .ok vs d => q.move d x.lastRows (rlen * (rows.length - live.length)) x.dsp ((rowWords rlen live dst).map (·.2)) vs)

/-- Addresses of a row by its number and by its index. -/
def byRow (base : W64) (rlen : Nat) (i : Nat) : W64 := base + BitVec.ofNat 64 (i * rlen)
def byIndex (base : W64) (pitch i : W32) : W64 := base + BitVec.ofNat 64 (i.toNat * pitch.toNat)

/-- cp.gather (R237). -/
def execCpGather (hd : TileHdr) (x : CpArgs) : State → Host.Outcome State Fault Refusal :=
  rowsForm hd x (fun _ i => byIndex x.src x.ipitch i) (fun r _ => byRow x.dst x.len.toNat r)
/-- cp.scatter (R237). -/
def execCpScatter (hd : TileHdr) (x : CpArgs) : State → Host.Outcome State Fault Refusal :=
  rowsForm hd x (fun r _ => byRow x.src x.len.toNat r) (fun _ i => byIndex x.dst x.ipitch i)

/-! ### Updates (R238) -/

/-- A source of updates as one number: the copy queue of a core with a command's sequence number. -/
def updSrc (h seq : Nat) : Nat := h * 65536 + seq

/-- cp.spred (R238): each pair of a step leaves as an update. A word left unread drops its pair. -/
def execCpSpred (hd : TileHdr) (x : CpArgs) : State → Host.Outcome State Fault Refusal :=
  command (fun q =>
    if !q.c.begun && decide (2 < x.typ.toNat) then q.d.rsvfmt q.h q.cq 9 (x.typ.setWidth 32) else
    let q := q.begin_ hd (4096 * hd.rstep.toNat)
    let s := q.c.step
    let n := min 512 (x.len.toNat - 512 * s)
    match q.fetch true ((List.range (2 * n)).map (fun i => q.rd i 6 x.ssp (x.src + BitVec.ofNat 64 (4096 * s + 4 * i)))) with
    | .wait d => d
    | .stop d op reason va => q.stopAt d op reason va
    | .ok vs d =>
      let pairs := (pairsOf vs).filterMap (fun p => match p with
        | (some i, some v) => some (x.dst + (i.setWidth 64 <<< 2), v)
        | _ => none)
      match pairs.find? (fun p => isWindow p.1) with
      | some p => q.stopAt d 7 1 p.1
      | none =>
        match q.lines d [.r, .w, .a] (runLines [] (pairs.map (fun p => (p.1.toNat, p.1)))) with
        | .wait d => d
        | .bad reason va => q.stopAt d 7 reason va
        | .ok ps d =>
          let d := pairs.foldl (fun d p =>
            let pa := ((ps.find? (fun e => e.1 == lineOf p.1.toNat)).map (·.2)).getD 0 + p.1.toNat % 128
            d.send 0 (.spredMerge (districtOf q.h) ⟨districtOf q.h, 0, q.c.lk, pa, x.typ.toNat, x.op.toNat, [p.2],
              [(updSrc q.h q.c.seq, 1)], [p.1.toNat]⟩)) d
          q.stepped (q.skip d (8 * (n - pairs.length))) x.lastPairs)
where
  /-- Consecutive words as pairs. -/
  pairsOf : List (Option W32) → List (Option W32 × Option W32)
    | a :: b :: r => (a, b) :: pairsOf r
    | _ => []

/-- Two updates of one word, type and operation of a launch. -/
def sameUpd (a b : Upd) : Bool := a.lk == b.lk && a.pa == b.pa && a.typ == b.typ && a.op == b.op

/-- An update leaves the window of the roundabout where it stood, with what merged into it there. -/
def Dev.leaveWindow (d : Dev) (u : Upd) : Dev × Upd :=
  let es := d.merges.get [] u.rt
  match (if u.id = 0 then none else es.find? (fun e => e.id == u.id)) with
  | some e => ({ d with merges := d.merges.put u.rt (es.filter (fun e => e.id != u.id)) }, { e with id := 0 })
  | none => (d, { u with id := 0 })

/-- An update goes on from a roundabout: to that of its home's district, and from there to the home of its word. The roundabouts on its
way are that of the district or port that it comes from and that of its home's district (DESIGN CHOICE, log 65: R238 gives no route). -/
def Dev.updOn (d : Dev) (rt : Nat) (u : Upd) : Dev :=
  let q := homeOf u.pa
  if q == 512 || rt == homeDistrict q then d.send 0 (.spredApply u) else d.send 0 (.spredMerge (homeDistrict q) u)

/-- An update passes a roundabout (R238): merged into an entry, in a free entry, or on its way unmerged. -/
def execSpredMerge (rt : Nat) (u : Upd) : State → Host.Outcome State Fault Refusal :=
  onDev (fun _ d =>
    let r := d.leaveWindow u
    let d := r.1
    let u := r.2
    let es := d.merges.get [] rt
    if es.any (fun e => sameUpd e u) then
      { (if rt < 9 then d.bumpShared (201 + rt) else d) with merges := d.merges.put rt (es.map (fun e => if sameUpd e u then 
        { e with vals := e.vals ++ u.vals, srcs := e.srcs ++ u.srcs, vas := e.vas ++ u.vas } else e)) }
    else if es.length < 64 then
      let e : Upd := { u with rt := rt, id := d.count + 1 }
      { d with merges := d.merges.put rt (es ++ [e]), count := d.count + 1 }.updOn rt e
    else d.updOn rt { u with rt := rt, id := 0 })

/-- The value an update leaves (R238): i32 and u32 wrap, minima and maxima choose, an f32 sum is exact and rounded once. -/
def updValue (typ op : Nat) (old : W32) (vs : List W32) : W32 :=
  let f (w : W32) : FVal := decF .f32 false w
  match typ, op with
  | 2, 0 => encF .f32 .rn false (addF .rn (f old) (vs.foldl (fun a v => addF .rn a (f v)) (.fin true 0 0)))
  | 2, 1 => encF .f32 .rn false (vs.foldl (fun a v => minF a (f v)) (f old))
  | 2, _ => encF .f32 .rn false (vs.foldl (fun a v => maxF a (f v)) (f old))
  | _, 0 => vs.foldl (· + ·) old
  | 0, 1 => vs.foldl (fun a v => if a.toInt ≤ v.toInt then a else v) old
  | 0, _ => vs.foldl (fun a v => if v.toInt ≤ a.toInt then a else v) old
  | _, 1 => vs.foldl (fun a v => if a.toNat ≤ v.toNat then a else v) old
  | _, _ => vs.foldl (fun a v => if v.toNat ≤ a.toNat then a else v) old

/-- What waits for an update: a command of a copy queue, by its pairs; a port's work, by one number above all of them. -/
def updFin (s : Nat × Nat) : Fin := if 2 ^ 32 ≤ s.1 then .host (s.1 - 2 ^ 32) else .engine (s.1 / 65536) true (s.1 % 65536) (8 * s.2)

/-- An update is applied at the home of its word, indivisibly, as a one-line group (R238). -/
def execSpredApply (u : Upd) : State → Host.Outcome State Fault Refusal :=
  onDev (fun m d =>
    let r := d.leaveWindow u
    let d := r.1
    let u := r.2
    let b := lineBytes u.pa (updValue u.typ u.op (m.w32 u.pa) u.vals).toNat 4
    let line : GLine := ⟨lineOf u.pa, lineOf u.pa, b.1, b.2, none⟩
    match d.groupNow line (if 2 ^ 20 ≤ u.lk then 32 else d.fnOf u.lk) (u.srcs.map updFin) with
    | some d => d
    | none => (d.askHost (lineOf u.pa)).later 1 (.spredApply u))

end Sys2Proof.Machine
end

