-- ==== Sys2Proof/Machine/Local.lean ====
section
/-! DEFINITION. Local-store forms: loads and stores through the banks, tags, peeks, tables and regions, window accesses at
their destination (R113, R114, R123 to R136, R186). -/

namespace Sys2Proof.Machine

/-! ### Own accesses (R113, R123, R124) -/

/-- A word that an instruction sends to a bank. -/
structure LaneWord where
  lane : Nat
  part : Nat
  addr : W64
  data : W32

/-- The lane word has been performed. -/
def Slot.resDone (s : Slot) (l p : Nat) : Bool := s.residue.any (fun r => r.lane == l && r.part == p && r.trap.isNone)
/-- The data of a lane word's load. -/
def Slot.resData (s : Slot) (l p : Nat) : W32 :=
  match s.residue.find? (fun r => r.lane == l && r.part == p && r.trap.isNone) with
  | some r => r.data
  | none => 0#32

/-- The word of a SEALED object that an own access would change, by its data or by its tag (R186). -/
def Core.refuses (c : Core) (k : BankKind) (a : Nat) : Option Nat :=
  match c.regionOf a with
  | none => none
  | some (key, g) =>
    let e := c.entry (rgnTbl g) (16 * k.code + (c.tag a).toNat)
    let acts := actOf e != 1 && actOf e != 3
    if (!k.load && c.sealedAt a) || (acts && setTagOf e && c.sealedAt a) then some a
    else if !k.load && acts then (match c.target key g e a with | .word p => if c.sealedAt p then some p else none | _ => none)
    else none

/-- The word's lane lies outside the regions of its slot's launch (R113). -/
def Ctx.outside (c : Ctx) (w : LaneWord) : Bool := decide (2 ^ 20 ≤ w.addr.toNat) || !(c.d.core c.h).inLaunch c.s.lk w.addr.toNat

/-- The checks of R113 over some words: ALIGN of every lane first, then the lowest lane's LSMAP or OBJSTATE. Faults carry
the lane's address (for OBJSTATE the refused word's, R189) and the lanes given. -/
def Ctx.checkLanes (c : Ctx) (align : Nat) (ws : List LaneWord) (refuses : Nat → Option Nat) (flt : Nat → Nat → W64 → Res) : Option Res :=
  match ws.find? (fun w => w.part == 0 && w.addr.toNat % align != 0) with
  | some w => some (flt 0x05 0 w.addr)
  | none =>
    ws.findSome? (fun w =>
      if c.outside w then some (flt 0x04 1 (w.addr - BitVec.ofNat 64 (4 * w.part)))
      else (refuses w.addr.toNat).map (fun p => flt 0x41 9 (BitVec.ofNat 64 p)))

/-- The lanes of some words. -/
def lanesIn (ws : List LaneWord) : BitVec 16 := ofBits (fun l => ws.any (fun w => w.lane == l))

/-- A fault of a lane, or of a form with one address, whose record names no lanes. -/
def Ctx.laneFault (c : Ctx) (single : Bool) (lanes : BitVec 16) (d : Dev) (cause sub : Nat) (a : W64) : Res :=
  if single then Ctx.faultAt { c with d := d } cause sub a else Ctx.faultLanes { c with d := d } cause sub a lanes

/-- The lowest lane delivered as trapped faults (R124): the parked lanes are withdrawn, what was performed stays. The address is the
lane's, for OBJSTATE that of the refused word (R189). -/
def Ctx.raiseLane (c : Ctx) (single : Bool) (ws : List LaneWord) (d : Dev) : Option Res :=
  let s := d.slot c.h c.n
  (ws.findSome? (fun w => (s.residue.find? (fun r => r.lane == w.lane && r.part == w.part && r.trap.isSome)).map (fun r => (w, r)))).map
    (fun x =>
      let todo := ws.filter (fun w => !s.resDone w.lane w.part)
      let d := (d.updCore c.h (fun k => k.withdrawSlot c.n)).updSlot c.h c.n (fun s =>
        { s with residue := s.residue.filter (fun r => r.trap.isNone) })
      let t := x.2.trap.getD (0, 0)
      c.laneFault single (lanesIn todo) d t.1 t.2 (if t.1 = 0x41 then x.2.data.setWidth 64 else x.1.addr - BitVec.ofNat 64 (4 * x.1.part)))

/-- One lane word goes to its bank: behind a lane of the same instruction parked on its word without evaluation (R120), else
by BankOp. -/
def Ctx.sendLane (c : Ctx) (k : BankKind) (d : Dev) (w : LaneWord) : Dev :=
  let a := w.addr.toNat
  let src := ParkSrc.own c.n w.lane w.part
  let behind := (d.core c.h).parked.find? (fun p => p.addr == a && (match p.src with | .own m _ _ => m == c.n | _ => false))
  match behind with
  | some p =>
    if ((d.core c.h).parked.filter (fun p => bankOf p.addr == bankOf a)).length ≥ 32 then
      d.settleOwn c.h c.n w.lane w.part (.trapped 0x12 (bankOf a))
    else d.updCore c.h (fun x => { x with parked := x.parked ++ [⟨a, k, w.data, p.cls, src⟩] })
  | none =>
    match d.bankOp c.h a k w.data src with
    | (.parked _, d) => d
    | (o, d) => d.settleOwn c.h c.n w.lane w.part o

/-- A form that touches words of its own local store: checks, a wait for units still to be restored (R306), the words not yet done, a fault
or a wait if a lane calls for it, else completion from the residue. When it is presented again, R113 is checked for the words not yet done
only (DESIGN CHOICE, log 65). -/
def Ctx.touch (c : Ctx) (single : Bool) (align : Nat) (ws : List LaneWord) (refuses : Nat → Option Nat) (send : Dev → LaneWord → Dev)
    (fin : Slot → Slot) : Res :=
  match c.raiseLane single ws c.d with
  | some r => r
  | none =>
    let todo := ws.filter (fun w => !c.s.resDone w.lane w.part)
    match c.checkLanes align todo refuses (c.laneFault single (lanesIn ws) c.d) with
    | some r => r
    | none =>
      if todo.any (fun w => (c.d.core c.h).unrestored w.addr.toNat) then .skip c.d else
      let d := todo.foldl send c.d
      match c.raiseLane single ws d with
      | some r => r
      | none =>
        let s := d.slot c.h c.n
        if ws.all (fun w => s.resDone w.lane w.part) then .done (d.setSlot c.h c.n (fin s)) else .wait d .bank

/-- An own local-store access through the banks. -/
def Ctx.access (c : Ctx) (k : BankKind) (single : Bool) (align : Nat) (ws : List LaneWord) (fin : Slot → Slot) : Res :=
  c.touch single align ws ((c.d.core c.h).refuses k) (c.sendLane k) fin

/-! ### Loads and stores (R130) -/

def ldKind : LKind → BankKind
  | .plain => .ld | .x => .xld
def stKind : LKind → BankKind
  | .plain => .st | .x => .xst

/-- The words of a form with one word a lane. -/
def Slot.words1 (s : Slot) (km : KReg) (d x : VReg) (base : AReg) (off : BitVec 24) : List LaneWord :=
  (lanesOf (s.K km.toNat)).map (fun l => ⟨l, 0, s.addr base x off 4 l, lane (s.V d.toNat) l⟩)
/-- The words of a form with two words a lane. -/
def Slot.words2 (s : Slot) (km : KReg) (d x : VReg) (base : AReg) (off : BitVec 24) : List LaneWord :=
  (lanesOf (s.K km.toNat)).flatMap (fun l =>
    [⟨l, 0, s.addr base x off 8 l, lane (s.V d.toNat) l⟩, ⟨l, 1, s.addr base x off 8 l + 4#64, lane (s.V (d.toNat + 1)) l⟩])
/-- The two words of ald and ast. -/
def Slot.wordsA (s : Slot) (d base : AReg) (off : BitVec 24) : List LaneWord :=
  [⟨0, 0, s.addr1 base off, (s.A d.toNat).setWidth 32⟩, ⟨0, 1, s.addr1 base off + 4#64, (s.A d.toNat).extractLsb' 32 32⟩]

/-- lld (R130). -/
def execLld (kind : LKind) (km : KReg) (kz : Bool) (d x : VReg) (base : AReg) (off : BitVec 24) :
    State → Host.Outcome State Fault Refusal :=
  thread (useLoad km kz d x base) (fun c =>
    c.access (ldKind kind) false 4 (c.s.words1 km d x base off) (fun s =>
      s.setVm d.toNat (s.K km.toNat) kz (ofLanes (fun l => s.resData l 0))))

/-- lst (R130). -/
def execLst (kind : LKind) (km : KReg) (d x : VReg) (base : AReg) (off : BitVec 24) :
    State → Host.Outcome State Fault Refusal :=
  thread (useStore km d x base) (fun c => c.access (stKind kind) false 4 (c.s.words1 km d x base off) id)

/-- lldx (R130). -/
def execLldx (kind : LKind) (km : KReg) (kz : Bool) (d x : VReg) (base : AReg) (off : BitVec 24) :
    State → Host.Outcome State Fault Refusal :=
  thread ((useLoad km kz d x base).also (wvn (d.toNat + 1))) (fun c =>
    c.access (ldKind kind) false 8 (c.s.words2 km d x base off) (fun s =>
      (s.setVm d.toNat (s.K km.toNat) kz (ofLanes (fun l => s.resData l 0))).setVm (d.toNat + 1) (s.K km.toNat) kz
        (ofLanes (fun l => s.resData l 1))))

/-- lstx (R130). -/
def execLstx (kind : LKind) (km : KReg) (d x : VReg) (base : AReg) (off : BitVec 24) :
    State → Host.Outcome State Fault Refusal :=
  thread ((useStore km d x base).also (rvn (d.toNat + 1))) (fun c =>
    c.access (stKind kind) false 8 (c.s.words2 km d x base off) id)

/-- ald (R130). -/
def execAld (kind : LKind) (d base : AReg) (off : BitVec 24) : State → Host.Outcome State Fault Refusal :=
  thread (useA [wa d, ra base]) (fun c =>
    c.access (ldKind kind) true 8 (c.s.wordsA d base off) (fun s => s.setA d.toNat (s.resData 0 1 ++ s.resData 0 0)))

/-- ast (R130). -/
def execAst (kind : LKind) (d base : AReg) (off : BitVec 24) : State → Host.Outcome State Fault Refusal :=
  thread (useA [ra d, ra base]) (fun c => c.access (stKind kind) true 8 (c.s.wordsA d base off) id)

/-! ### Tags and peeks (R130) -/

/-- A form that reads its words without a table: an uncorrectable word faults its lane, and the lanes read stay in the residue (R112,
R124, R131). -/
def Ctx.peek (c : Ctx) (ws : List LaneWord) (read : Core → Nat → W32) (fin : Slot → Slot) : Res :=
  c.touch false 4 ws (fun _ => none) (fun d w =>
    let k := d.core c.h
    d.settleOwn c.h c.n w.lane w.part
      (if k.lsPoison.contains (w.addr.toNat / 4) then .trapped 0xF0 2 else .out (read k w.addr.toNat))) fin

/-- ltag (R130). -/
def execLtag (km : KReg) (kz : Bool) (d x : VReg) (base : AReg) (off : BitVec 24) : State → Host.Outcome State Fault Refusal :=
  thread (useLoad km kz d x base) (fun c =>
    c.peek (c.s.words1 km d x base off) (fun k a => (k.tag a).setWidth 32) (fun s =>
      s.setVm d.toNat (s.K km.toNat) kz (ofLanes (fun l => s.resData l 0))))

/-- lpeek (R130). -/
def execLpeek (km : KReg) (kz : Bool) (d x : VReg) (base : AReg) (off : BitVec 24) : State → Host.Outcome State Fault Refusal :=
  thread (useLoad km kz d x base) (fun c =>
    c.peek (c.s.words1 km d x base off) Core.word (fun s =>
      s.setVm d.toNat (s.K km.toNat) kz (ofLanes (fun l => s.resData l 0))))

/-- stag (R130): the tag write of a word is followed by its re-evaluation. -/
def execStag (km : KReg) (d x : VReg) (base : AReg) (off : BitVec 24) : State → Host.Outcome State Fault Refusal :=
  thread (useStore km d x base) (fun c =>
    let ws := c.s.words1 km d x base off
    match c.checkLanes 4 ws (fun a => if (c.d.core c.h).sealedAt a then some a else none) (c.laneFault false (lanesIn ws) c.d) with
    | some r => r
    | none =>
      if ws.any (fun w => (c.d.core c.h).unrestored w.addr.toNat) then .skip c.d else
      .done (ws.foldl (fun d w => d.writeTag c.h w.addr.toNat (w.data.setWidth 4)) c.d))

/-! ### Regions and tables (R132 to R136) -/

/-- The launch supplied table n of the core (R116). -/
def Core.supplied (c : Core) (lk n : Nat) : Bool := n != 0 && c.tlk.find? n == some lk

/-- A valid descriptor that rgnset refuses for launch lk at index i (R136). -/
def Core.badRegion (c : Core) (lk i : Nat) (w : W32) : Bool :=
  rgnRole w != 0 || w.extractLsb' 8 8 != 0#8 || decide (rgnEnd w > 2 ^ 20) ||
  c.map.ents.any (fun e => e.1 != 16 * lk + i && rgnV e.2 && decide (rgnBase e.2 < rgnEnd w) && decide (rgnBase w < rgnEnd e.2)) ||
  (rgnTbl w != 0 && !c.supplied lk (rgnTbl w))

/-- A local address lies in the range of a valid descriptor. -/
def inRange (w : W32) (a : Nat) : Bool := rgnV w && decide (rgnBase w ≤ a) && decide (a < rgnEnd w)

/-- rgnset (R136, R128). -/
def execRgnset (a b : AReg) : State → Host.Outcome State Fault Refusal :=
  thread (useA [ra a, ra b]) (fun c =>
    let k := c.d.core c.h
    let ix := c.s.A a.toNat
    let i := ix.toNat % 16
    let new : W32 := (c.s.A b.toNat).setWidth 32
    let old := k.map.get 0#32 (16 * c.s.lk + i)
    if ix.extractLsb' 4 60 != 0#60 || (rgnV old && rgnRole old != 0) || (rgnV new && k.badRegion c.s.lk i new) then c.fault 0x04 4
    else
      .done ((c.d.updCore c.h (fun x => { x with map := x.map.put (16 * c.s.lk + i) new })).reevalWhere c.h
        (fun a => inRange old a || inRange new a)))

/-- The group of 16-bit entries or of bases of R132 as lanes. -/
def TGen.group (t : TGen) (g : Nat) : V512 :=
  if g = 4 then ofLanes (fun l => if l < 8 then t.rb.get 0#32 l else 0#32)
  else ofLanes (fun l => t.ents.get 0#16 (32 * g + 2 * l + 1) ++ t.ents.get 0#16 (32 * g + 2 * l))

/-- A generation with a group written from lanes. -/
def TGen.setGroup (t : TGen) (g : Nat) (v : V512) : TGen :=
  if g = 4 then { t with rb := (List.range 8).foldl (fun m l => m.put l (lane v l)) t.rb }
  else { t with ents := (List.range 16).foldl (fun m l =>
    (m.put (32 * g + 2 * l) ((lane v l).setWidth 16)).put (32 * g + 2 * l + 1) ((lane v l).extractLsb' 16 16)) t.ents }

/-- An entry breaks the checks of tbld. -/
def badEntry (e : BitVec 16) : Bool := decide (5 ≤ actOf e) || e.getLsbD 3
/-- A redirect base breaks the checks of tbld. -/
def badBase (w : W32) : Bool := (w &&& ~~~0x000FFFC0#32) != 0#32

/-- Generation n of a core changed, in force or shadow. -/
def Core.updGen (c : Core) (n : Nat) (shadow : Bool) (f : TGen → TGen) : Core :=
  if c.tbgen.getLsbD n != shadow then { c with gen1 := c.gen1.upd ⟨.empty, .empty⟩ n f }
  else { c with gen0 := c.gen0.upd ⟨.empty, .empty⟩ n f }

/-- tbld (R133). -/
def execTbld (a : VReg) (b : AReg) : State → Host.Outcome State Fault Refusal :=
  thread (useV [a] [rv a, ra b]) (fun c =>
    let sel := c.s.A b.toNat
    let n := sel.toNat % 8
    let g := (sel.extractLsb' 4 3).toNat
    let v := c.s.V a.toNat
    if sel.extractLsb' 7 57 != 0#57 || sel.getLsbD 3 || decide (4 < g) || !(c.d.core c.h).supplied c.s.lk n then c.fault 0x11 2
    else if decide (g < 4) && (List.range 16).any (fun l => badEntry ((lane v l).setWidth 16) || badEntry ((lane v l).extractLsb' 16 16)) then
      c.fault 0x11 1
    else if g = 4 ∧ (List.range 8).any (fun l => badBase (lane v l)) = true then c.fault 0x11 3
    else .done (c.d.updCore c.h (fun k => k.updGen n true (fun t => t.setGroup g v))))

/-- tbsw (R134): the named tables flip together before the slot's next turn. -/
def execTbsw (a : AReg) : State → Host.Outcome State Fault Refusal :=
  thread (useA [ra a]) (fun c =>
    let v := c.s.A a.toNat
    if v.extractLsb' 8 56 != 0#56 || v.getLsbD 0 ||
        (List.range 8).any (fun n => v.getLsbD n && !(c.d.core c.h).supplied c.s.lk n) then c.fault 0x11 2
    else if v = 0#64 then .done c.d
    else .done (c.d.later 1 (.tableFlip c.h (v.setWidth 8))))

/-- The common boundary (R127): the generations flip, and what is parked under a flipped table is re-evaluated. -/
def execTableFlip (h : Nat) (mask : BitVec 8) : State → Host.Outcome State Fault Refusal :=
  onDev (fun _ d =>
    (d.updCore h (fun c => { c with tbgen := c.tbgen ^^^ mask })).reevalWhere h (fun a =>
      match (d.core h).regionOf a with
      | some e => mask.getLsbD (rgnTbl e.2)
      | none => false))

/-- tbrd (R135). -/
def execTbrd (d : VReg) (b : AReg) : State → Host.Outcome State Fault Refusal :=
  thread (useV [d] [wv d, ra b]) (fun c =>
    let sel := c.s.A b.toNat
    let n := sel.toNat % 8
    let g := (sel.extractLsb' 4 3).toNat
    let k := c.d.core c.h
    if sel.extractLsb' 8 56 != 0#56 || sel.getLsbD 3 || decide (4 < g) || (n != 0 && !k.supplied c.s.lk n) then c.fault 0x11 2
    else c.done (c.s.setV d.toNat (if n = 0 then 0#512 else (k.gen n (sel.getLsbD 7)).group g)))

/-! ### Window accesses at their destination (R114, R126, R147) -/

/-- A window access arrives at a core: held behind a parked, a held or a refused access of its slot and until its terrace's launches
and the unit it falls in are restored there (R306, R307), else checked against the regions
of the slot's terrace in the core's map (R113, R114, R314; log 22) and accepted. An access to the slot's own core comes this way too, and is not
ordered with the slot's own forms (DESIGN CHOICE, log 65). -/
def execRemoteAccess (acc : RemoteAcc) : State → Host.Outcome State Fault Refusal :=
  onDev (fun _ d =>
    let c := d.core acc.dst
    let mine (r : RemoteAcc) : Bool := r.h == acc.h && r.n == acc.n
    if d.awayOn (terrOf acc.lk) acc.dst || c.unrestored acc.addr || c.held.any mine || c.parked.any (fun p => match p.src with | .remote r => mine r | _ => false) ||
        (d.slot acc.h acc.n).refused.any (fun r => r.dst == acc.dst && r.op != acc.op) then
      d.updCore acc.dst (fun c => { c with held := c.held ++ [acc] })
    else
      let r := if c.inTerrace (terrOf acc.lk) acc.addr then d.bankOp acc.dst acc.addr (if acc.store then .rst else .rld) acc.data (.remote acc)
        else (.trapped 0x04 1, d)
      r.2.settleRemote acc r.1)

/-- The address in the window of another local address of the same core. -/
def windowWord (va : W64) (p : Nat) : W64 := BitVec.ofNat 64 (va.toNat / 2 ^ 21 * 2 ^ 21 + p)

/-- A refused window store is reported to its slot: the fault of the lowest refused lane, with the refused lanes (R147), for OBJSTATE
with the refused word (R189). -/
def execWindowStoreRefused (acc : RemoteAcc) (cause sub : Nat) : State → Host.Outcome State Fault Refusal :=
  onDev (fun _ d =>
    let s := d.slot acc.h acc.n
    let lanes : BitVec 16 := ofBits (fun l => s.refused.any (fun r => r.op == acc.op && r.lane == l))
    let va := if cause = 0x41 then windowWord acc.va acc.addr else acc.va
    match s.defer.find? (fun f => f.op == some acc.op && !f.svc) with
    | some f =>
      let g : Deferred := if firstLane f.lanes ≤ acc.lane then { f with lanes := lanes }
        else { f with lanes := lanes, cause := cause, sub := sub, addr := va }
      d.updSlot acc.h acc.n (fun s => { s with defer := s.defer.map (fun x => if x = f then g else x) })
    | none =>
      d.updSlot acc.h acc.n (fun s =>
        { s with defer := s.defer ++ [⟨cause, sub, acc.pc, va, lanes, false, some acc.op, 0⟩] }))

end Sys2Proof.Machine
end

