-- ==== Sys2Proof/Machine/Tasks.lean ====
section
/-! DEFINITION. The queue unit, task forms, dispatch, the commit arbiter and re-queues (R191 to R209, R325). -/

namespace Sys2Proof.Machine

/-! ### Descriptors (R191, R192, R194) -/

/-- A descriptor put among others by rising pair. -/
def insertDesc (x : Desc) (l : List Desc) : List Desc :=
  l.takeWhile (fun y => decide (descPair y ≤ descPair x)) ++ x :: l.dropWhile (fun y => decide (descPair y ≤ descPair x))

def RingEnt.pair (e : RingEnt) : Nat := pairOf e.ts e.id
/-- A ring entry put among others by rising pair. -/
def insertEnt (x : RingEnt) (l : List RingEnt) : List RingEnt :=
  l.takeWhile (fun y => decide (y.pair ≤ x.pair)) ++ x :: l.dropWhile (fun y => decide (y.pair ≤ x.pair))

/-- The 32-byte image of a descriptor. -/
def descImage (x : Desc) : BitVec 256 := x.id ++ x.parent ++ x.a4 ++ x.a3 ++ x.a2 ++ x.a1 ++ x.ts ++ x.w0
def descEntry (x : Desc) : Nat := (x.w0.extractLsb' 0 24).toNat
def descRr (x : Desc) : Bool := x.w0.getLsbD 29

/-- A lowest free place of the ring. -/
def TQ.freePos (q : TQ) : Option Nat := (List.range (q.ring.length + 1)).find? (fun p => decide (p < q.rsize) && !q.ring.any (fun e => e.pos == p))
def TQ.room (q : TQ) : Bool := decide (q.ring.length < q.rsize)
/-- Virtual address of a ring place. -/
def TQ.addr (q : TQ) (pos : Nat) : W64 := q.rbase + BitVec.ofNat 64 (32 * pos)

def Dev.updTq (d : Dev) (h : Nat) (f : TQ → TQ) : Dev := d.updCore h (fun c => { c with tq := f c.tq })

/-! ### An agent's accesses (R325) -/

/-- The rights of an agent that works for a launch on core h (log 12). -/
def Dev.agentWho (d : Dev) (h lk : Nat) : Who := ⟨h, terrOf lk, ((d.launch? lk).map Launch.priv).getD false, false⟩

/-- The report of an agent: byte 36 is 3, the slot 0xFF. -/
def Dev.agentReport (d : Dev) (h lk cause sub : Nat) (va : W64) : Dev :=
  let s := { Slot.init with lk := lk }.record h 0xFF ⟨cause, sub, va, 1#16⟩ false (cause == 0x20) 0#64
  d.send 0 (.messageArrival ⟨terrOf lk, 0xFFFF, reportImage s h 0xFF 3, 0xFFFD, h, none, none⟩)

/-- What an action of the unit comes to: made, not complete yet, or not to be made now (the place is full, or its page fails). -/
inductive Ring where | made | busy | shut
deriving DecidableEq, Repr

/-- The queue unit meets PAGE or a protection failure: it reports once a page, and tries that page again in 4,096 cycles. -/
def Dev.ringBlocked (d : Dev) (h lk cause sub : Nat) (va : W64) : Dev :=
  let pg := va.toNat / 4096
  let q := (d.core h).tq
  let d := if q.retry.any (fun e => e.1 == pg) then d else d.agentReport h lk cause sub va
  (d.updTq h (fun q => { q with retry := q.retry.filter (fun e => e.1 != pg) ++ [(pg, d.clock + 4096)] })).later 4096 (.ringAccessRetry h)

/-- A ring address translated for the unit: its physical address, or why not now. An address in the local-store window is outside
every terrace for the unit (R314, R322). -/
def Dev.ringAt (m : Memory) (d : Dev) (h lk : Nat) (need : Right) (va : W64) : Dev × Option Nat × Ring :=
  let pg := va.toNat / 4096
  if (d.core h).tq.retry.any (fun e => e.1 == pg && decide (d.clock < e.2)) then (d, none, .shut) else
  if isWindow va then (d.ringBlocked h lk 0x21 8 va, none, .shut) else
  let who := d.agentWho h lk
  match d.translate m who [need] va with
  | .ok pa l => ((d.fillPlb m who l.dom).updTq h (fun q => { q with retry := q.retry.filter (fun e => e.1 != pg) }), some pa, .made)
  | .miss => (d.askFor who va, none, .busy)
  | .page sub => ((d.walkFailed m (d.fnOf lk) va).ringBlocked h lk 0x20 sub va, none, .shut)
  | .bad c b => (d.ringBlocked h lk c b va, none, .shut)

/-- A write of the unit to its ring is on its way. -/
def Dev.ringWrites (d : Dev) (h : Nat) : Bool := d.groups.any (fun g => g.fin.contains (.ring h))

/-- A descriptor written to a place of the ring, as a one-line group of the unit. -/
def Dev.ringWrite (m : Memory) (d : Dev) (h lk pos pa : Nat) (x : Desc) : Dev :=
  let b := lineBytes pa (descImage x).toNat 32
  let va := (d.core h).tq.addr pos
  let d := d.updTq h (fun q => { q with ring := insertEnt ⟨pos, x.ts, x.parent, x.id, descRr x⟩ q.ring })
  d.addGroup m [⟨lineOf va.toNat, lineOf pa, b.1, b.2, none⟩] (d.fnOf lk) h none [.ring h]

/-- A descriptor goes to a free place of the ring. -/
def Dev.ringPut (m : Memory) (d : Dev) (h lk : Nat) (x : Desc) : Dev × Ring :=
  let q := (d.core h).tq
  match q.freePos with
  | none => (d, .shut)
  | some p =>
    match d.ringAt m h lk .w (q.addr p) with
    | (d, some pa, r) => (d.ringWrite m h lk p pa x, r)
    | (d, none, r) => (d, r)

/-- Whether a descriptor passes the checks of a refill: its reserved bits, and its entry (R194, R200). -/
def Launch.refillOk (l : Launch) (w0 : W32) : Bool :=
  w0.extractLsb' 30 2 == 0#2 && w0.extractLsb' 24 5 == 0#5 && l.entries.contains (w0.extractLsb' 0 24).toNat

/-- The ring's lowest descriptor as read back at an address, taken out of the ring; one that fails a check is dropped and counted. -/
def Dev.ringRead (m : Memory) (d : Dev) (h lk pa : Nat) (e : RingEnt) : Dev :=
  let w (i : Nat) : W32 := m.w32 (pa + 4 * i)
  let x : Desc := ⟨(w 0 &&& 0x00FFFFFF#32) ||| (if e.rr then 0x20000000#32 else 0#32), e.ts, w 2, w 3, w 4, w 5, e.parent, e.id⟩
  let ok := ((d.launch? lk).map (fun l => l.refillOk (w 0))).getD false
  let d := d.updTq h (fun q => { q with ring := q.ring.erase e, chip := if ok then insertDesc x q.chip else q.chip })
  if ok then d else (d.updCore h (fun c => c.bump 3 0 1)).updTq h (fun q => { q with drops := q.drops + 1#64 })

/-- The ring's lowest descriptor moves on chip. -/
def Dev.ringTake (m : Memory) (d : Dev) (h lk : Nat) : Dev × Ring :=
  match (d.core h).tq.ring with
  | [] => (d, .shut)
  | e :: _ =>
    match d.ringAt m h lk .r ((d.core h).tq.addr e.pos) with
    | (d, some pa, _) => if d.pending pa then (d, .busy) else
        match d.quay (d.fnOf lk) pa false with
        | none => (d.quayWaited (d.fnOf lk) pa, .busy)
        | some d => (d.ringRead m h lk pa e, .made)
    | (d, none, r) => (d, r)

/-! ### Placement, spill and refill (R194) -/

/-- On a full ring the floor moves on chip and the descriptor takes its place there. -/
def Dev.exchange (m : Memory) (d : Dev) (h lk : Nat) (x : Desc) : Dev × Ring :=
  match (d.core h).tq.ring with
  | [] => (d, .shut)
  | e :: _ =>
    match d.ringAt m h lk .w ((d.core h).tq.addr e.pos) with
    | (d, none, r) => (d, r)
    | (d, some pa, _) =>
      match d.ringTake m h lk with
      | (d, .made) => (d.ringWrite m h lk e.pos pa x, .made)
      | r => r

/-- A descriptor goes to its place: the ring when it stands above the floor, the floor moving on chip if the ring is full, else
the chip. -/
def Dev.place (m : Memory) (d : Dev) (h lk : Nat) (x : Desc) : Dev × Ring :=
  let q := (d.core h).tq
  let above := match q.ring with | e :: _ => decide (e.pair < descPair x) | [] => false
  if above && q.room then d.ringPut m h lk x
  else if 256 ≤ q.chip.length then (d, .shut)
  else if above then d.exchange m h lk x
  else (d.updTq h (fun q => { q with chip := insertDesc x q.chip }), .made)

/-- A spill is due. -/
def TQ.spillDue (q : TQ) : Bool := decide (q.hi < q.chip.length) && q.room

/-- One spill: the on-chip descriptor of highest pair moves to the ring. -/
def Dev.spillOne (m : Memory) (d : Dev) (h lk : Nat) : Dev × Ring :=
  let q := (d.core h).tq
  if !q.spillDue then (d, .shut) else
  match q.chip.getLast? with
  | none => (d, .shut)
  | some x =>
    match d.ringPut m h lk x with
    | (d, .made) => (d.updTq h (fun q => { q with chip := q.chip.erase x }), .made)
    | r => r

/-- A refill is due: it begins below LO and goes on to half way between the marks. -/
def TQ.refillDue (q : TQ) : Bool :=
  !q.ring.isEmpty && (decide (q.chip.length < q.lo) || (q.filling && decide (q.chip.length < (q.hi + q.lo) / 2)))

/-- One refill: the ring's lowest descriptor moves on chip. -/
def Dev.refillOne (m : Memory) (d : Dev) (h lk : Nat) : Dev × Ring :=
  if !(d.core h).tq.refillDue then (d.updTq h (fun q => { q with filling := false }), .shut) else
  let r := d.ringTake m h lk
  (r.1.updTq h (fun q => { q with filling := decide (q.chip.length < (q.hi + q.lo) / 2) && !q.ring.isEmpty }), r.2)

/-- An action of the unit made until it is not complete or not to be made; the answer says that it is not complete. -/
def Dev.untilDone (f : Dev → Dev × Ring) : Nat → Dev → Dev × Bool
  | 0, d => (d, false)
  | n + 1, d =>
    match f d with
    | (d, .made) => Dev.untilDone f n d
    | (d, .busy) => (d, true)
    | (d, .shut) => (d, false)

/-- The spills and refills that are due; the answer says that one of them is not complete, a write to the ring until it is visible. -/
def Dev.balance (m : Memory) (d : Dev) (h lk : Nat) : Dev × Bool :=
  if d.ringWrites h then (d, true) else
  let q := (d.core h).tq
  let r := if q.spillDue then d.spillOne m h lk else (d, .shut)
  match r with
  | (d, .made) => (d, d.ringWrites h)
  | (d, .busy) => (d, true)
  | (d, .shut) => Dev.untilDone (fun d => d.refillOne m h lk) ((q.hi + q.lo) / 2 + 1) d

/-! ### Acceptance (R192, R194, R195) -/

/-- Identifiers that unfinished tasks of a queue hold. -/
def Dev.idsOf (d : Dev) (h lk : Nat) : List W32 :=
  let q := (d.core h).tq
  q.chip.map (·.id) ++ q.requeue.map (·.id) ++ q.ring.map (·.id) ++ ((d.running lk).map (fun t => t.d.id)).filter (fun i => queueCore i == h)

/-- The next identifier of a queue, and its counter: 0 and the identifiers in use are skipped. -/
def nextId (h : Nat) (used : List W32) : Nat → BitVec 20 → W32 × BitVec 20
  | 0, k => (BitVec.ofNat 12 h ++ (k + 1), k + 1)
  | f + 1, k =>
    let k' := k + 1
    let id : W32 := BitVec.ofNat 12 h ++ k'
    if k' == 0#20 || used.contains id then nextId h used f k' else (id, k')

/-- A push is accepted if it can be placed: identifier, placement, the bound, and the pusher's lane. -/
def Dev.acceptPush (mem : Memory) (d : Dev) (h lk : Nat) (p : PushMsg) : Dev × Ring :=
  let q := (d.core h).tq
  let used := d.idsOf h lk
  let nid := nextId h used (used.length + 1) q.counter
  let x : Desc := { p.d with id := nid.1 }
  match d.place mem h lk x with
  | (d, .made) =>
    let d := (d.updTq h (fun q => { q with counter := nid.2, waiting := q.waiting.erase p })).lowerBound lk (descPair x)
    (d.pushDone p.h p.n p.lane, .made)
  | r => r

/-- A push that cannot be placed waits on the queue while fewer than PB do, else meets QFULL (R195). -/
def Dev.pushWaits (d : Dev) (h lk : Nat) (p : PushMsg) : Dev :=
  if (d.core h).tq.waiting.length < (d.core h).tq.pb then
    (d.updTq h (fun q => { q with waiting := q.waiting ++ [p] })).lowerBound lk (pairOf p.d.ts 0#32)
  else d.reply p.h p.n (.fail 0x50 1)

/-- What the unit takes up: descriptors of aborted tasks go to their places, then pushes that wait, in the order they began to, then
pushes that have come. -/
inductive Take where
  | again (x : Desc)
  | waiting (p : PushMsg)
  | come (p : PushMsg)

/-- One such action, followed by the spills and refills that fall due. -/
def Dev.takeOne (m : Memory) (h lk : Nat) (d : Dev) (t : Take) : Dev × Bool :=
  let r := match t with
    | .again x => match d.place m h lk x with
      | (d, .made) => (d.updTq h (fun q => { q with requeue := q.requeue.erase x }), Ring.made)
      | r => r
    | .waiting p => d.acceptPush m h lk p
    | .come p =>
      let off (d : Dev) : Dev := d.updTq h (fun q => { q with inq := q.inq.drop 1 })
      match d.acceptPush m h lk p with
      | (d, .made) => (off d, .made)
      | (d, .busy) => (d, .busy)
      | (d, .shut) => ((off d).pushWaits h lk p, .shut)
  match r with
  | (d, .made) => d.balance m h lk
  | (d, .busy) => (d, true)
  | (d, .shut) => (d, false)

/-- The unit acts, each action complete before the next (R194): the answer says that one is not complete. -/
def Dev.serveQueue (m : Memory) (d : Dev) (h lk : Nat) : Dev × Bool :=
  let b := d.balance m h lk
  let q := (b.1.core h).tq
  (q.requeue.map Take.again ++ q.waiting.map Take.waiting ++ q.inq.map Take.come).foldl
    (fun a t => if a.2 then a else Dev.takeOne m h lk a.1 t) b

/-- A push arrives at its queue (R194, R195). One for a queue that the pusher's launch no longer has counts as accepted. -/
def execTaskPushArrival (p : PushMsg) : State → Host.Outcome State Fault Refusal :=
  onDev (fun m d =>
    let lk := (d.slot p.h p.n).lk
    if d.isSaved lk p.dst then d.later 1 (.taskPushArrival p) else
    if (d.core p.dst).tq.lk != some lk then d.pushDone p.h p.n p.lane else
    ((d.updTq p.dst (fun q => { q with inq := q.inq ++ [p] })).serveQueue m p.dst lk).1)

/-- Spill (R194). -/
def execSpill (h : Nat) : State → Host.Outcome State Fault Refusal :=
  onDev (fun m d => match (d.core h).tq.lk with
    | some lk => if d.ringWrites h then d else ((d.spillOne m h lk).1.serveQueue m h lk).1
    | none => d)

/-- Refill (R194). -/
def execRingRefill (h : Nat) : State → Host.Outcome State Fault Refusal :=
  onDev (fun m d => match (d.core h).tq.lk with
    | some lk => if d.ringWrites h then d else ((d.refillOne m h lk).1.serveQueue m h lk).1
    | none => d)

/-- The unit tries again the pages that failed (R193, R325). -/
def execRingAccessRetry (h : Nat) : State → Host.Outcome State Fault Refusal :=
  onDev (fun m d => match (d.core h).tq.lk with
    | some lk => (d.serveQueue m h lk).1
    | none => d)

/-! ### Dispatch (R196, R197) -/

/-- The on-chip descriptors that may be dispatched now. -/
def TQ.ready (q : TQ) (clock : Nat) : List Desc :=
  q.chip.filter (fun x => q.hold.all (fun e => e.1 != x.id.toNat || decide (e.2 ≤ clock)))

/-- Tasks of a launch in a core's district that are dispatched and uncommitted. -/
def Dev.districtTasks (d : Dev) (lk h : Nat) : List Task := (d.running lk).filter (fun t => districtOf t.core == districtOf h)

/-- The lane-wise values of the bound tasks. -/
def taskLanes (xs : List Desc) (f : Desc → W32) : V512 := ofLanes (fun l => ((xs[l]?).map f).getD 0#32)

/-- A bundle of tasks starts in a slot. -/
def Dev.bundle (d : Dev) (lk h i n : Nat) (xs : List Desc) : Dev :=
  match d.launch? lk, xs with
  | some l, x :: _ =>
    let lanes : BitVec 16 := ofBits (fun j => decide (j < xs.length))
    let kind := if (d.core h).tq.ordered then Kind.ordered else Kind.freeTask
    let sr := d.takeSerial lk
    let d := sr.1.newThread lk h i n kind (l.code + BitVec.ofNat 64 (descEntry x)) sr.2 (fun s =>
      ((((((((s.setV 1 (taskLanes xs (·.a1))).setV 2 (taskLanes xs (·.a2))).setV 3 (taskLanes xs (·.a3))).setV 4 (taskLanes xs (·.a4))).setV 5
        (taskLanes xs (·.ts))).setV 6 (taskLanes xs (·.id))).setK 1 lanes).setSpec (kind == .ordered)) |>
      (fun s => { s with laneSet := lanes, tasks := ⟨xs.zipIdx.map (fun e => (e.2, e.1.id))⟩ }))
    let buf := (d.bufferOf h lk i).1
    xs.foldl (fun d x => d.putTask lk x.id ⟨lk, x, h, buf, 0#1024, false, [], false, false, false⟩) d
  | _, _ => d

/-- Dispatch (R196): the task of lowest pair and the next of the same entry start in the lowest FREE reserved slot. -/
def Dev.dispatch (m : Memory) (d : Dev) (h : Nat) : Dev :=
  let q := (d.core h).tq
  match q.lk with
  | none => d
  | some lk =>
    match d.balance m h lk with
    | (d, true) => d
    | (d, false) =>
    let q := (d.core h).tq
    match q.ready d.clock, d.freeSlot lk h with
    | x :: rest, some (i, n) =>
      if !d.alive lk || ((d.launch? lk).map (·.out)).getD true || (q.ordered && decide (1024 ≤ (d.districtTasks lk h).length)) then d else
      let xs := x :: (rest.filter (fun y => descEntry y == descEntry x)).take 15
      let d := d.updTq h (fun q => { q with chip := q.chip.filter (fun y => !xs.contains y), hold := q.hold.filter (fun e => !xs.any (fun y => y.id.toNat == e.1)) })
      ((d.bundle lk h i n xs).serveQueue m h lk).1
    | _, _ => d

def execDispatch (h : Nat) : State → Host.Outcome State Fault Refusal := onDev (fun m d => d.dispatch m h)

/-! ### Configuration and pushes (R193, R200) -/

/-- tqcfg (R193): lanes 0 to 7 of vA. -/
def execTqcfg (a : VReg) : State → Host.Outcome State Fault Refusal :=
  thread (useV [a] [rv a]) (fun c =>
    let v := c.s.V a.toNat
    let f (i : Nat) : Nat := (lane v i).toNat
    let q := (c.d.core c.h).tq
    match c.d.launch? c.s.lk with
    | none => c.fault 0x52 5
    | some l =>
      let hi := if f 3 = 0 then 192 else f 3
      let lo := if f 3 = 0 then 64 else f 4
      let ok := (List.range 8).all (fun i => lane v (8 + i) == 0#32) && f 0 % 4096 == 0 &&
        (f 2 == 0 || (List.range 11).any (fun i => f 2 == 512 * 2 ^ i)) && decide (f 3 ≤ 255) && decide (lo < hi) && decide (f 5 ≤ 1) &&
        decide (f 6 ≤ 255) && decide (f 7 ≤ 16) && decide (f 7 ≤ l.nseats) && l.flags.getLsbD 2
      let rbase : W64 := lane v 1 ++ lane v 0
      if !ok then c.fault 0x52 5
      else if l.ordered == some (f 5 == 0) then c.fault 0x52 6
      else if !q.ring.isEmpty && (q.rbase != rbase || q.rsize != f 2) then c.fault 0x52 7
      else
        .done ((c.d.updLaunch c.s.lk (fun l => { l with ordered := some (f 5 == 1) })).updTq c.h (fun q =>
          { q with lk := some c.s.lk, rbase := rbase, rsize := f 2, hi := hi, lo := lo, ordered := f 5 == 1, pb := f 6, smin := f 7 })))

/-- A descriptor that a slot forms, with its lane and its target. -/
structure Push where
  lane : Nat
  dst : W64
  upper : Bool
  d : Desc

/-- The check of one descriptor (R200, R215), with the horizon as the cores learned it at the last round: sub-code and address field. -/
def Ctx.pushCheck (c : Ctx) (p : Push) : Option (Nat × W64) :=
  let free := Config.freeAddr c.d.count
  match c.d.launch? c.s.lk with
  | none => some (2, p.dst)
  | some l =>
    let parent := (c.d.task? c.s.lk p.d.parent).map (fun t => t.d.ts)
    if p.upper || p.d.w0.extractLsb' 24 8 != 0#8 then some (0x0B, free)
    else if !l.entries.contains (descEntry p.d) then some (1, free)
    else if decide (4096 ≤ p.dst.toNat) || !l.has p.dst.toNat || (c.d.core p.dst.toNat).tq.lk != some c.s.lk then some (2, p.dst)
    else if l.ordered == some true then
      (match parent with
       | some ts => if p.d.ts.toNat ≤ ts.toNat then some (3, p.d.ts.setWidth 64)
                    else if p.d.ts.toNat < l.known.toNat then some (4, p.d.ts.setWidth 64) else none
       | none => if p.d.ts.toNat < l.known.toNat then some (4, p.d.ts.setWidth 64) else none)
    else none

/-- Pushes of the slot that no queue has received. -/
def Ctx.pushesFlying (c : Ctx) : Bool :=
  c.d.net.any (fun f => match f.e with | .taskPushArrival m => m.h == c.h && m.n == c.n | _ => false) ||
  (c.d.queues c.s.lk).any (fun e => e.2.inq.any (fun m => m.h == c.h && m.n == c.n))

/-- A push form (R200): checks, the messages, then the slot waits until every descriptor is accepted. QFULL withdraws those
that still wait and reports the lanes not accepted (R195). -/
def Ctx.push (c : Ctx) (single : Bool) (ps : List Push) : Res :=
  let todo := ps.filter (fun p => !c.s.pushed.contains p.lane)
  let lanes : BitVec 16 := ofBits (fun l => todo.any (fun p => p.lane == l))
  let flt (d : Dev) (cause sub : Nat) (a : W64) (m : BitVec 16) : Res := c.laneFault single m d cause sub a
  if todo.isEmpty then .done c.d else
  match c.s.reply with
  | .idle | .done _ =>
    match todo.findSome? (fun p => (c.pushCheck p).map (fun e => (p.lane, e.1, e.2))) with
    | some (l, sub, a) => flt c.d 0x52 sub a (1#16 <<< l)
    | none =>
      let d := c.d.updSlot c.h c.n (fun s => { s with reply := .sent, pushWait := todo.map (·.lane) })
      .skip (d.sendAll (todo.map (fun p => (chanOf 7 (slotKey c.h c.n) p.dst.toNat, .taskPushArrival ⟨p.dst.toNat, c.h, c.n, p.lane, p.d⟩))))
  | .sent | .stale => if c.pushesFlying then .skip c.d else .wait c.d .push
  | .fail cause sub =>
    if c.pushesFlying then .skip c.d else
    let d := (c.d.queues c.s.lk).foldl (fun d e => d.updTq e.1 (fun q => { q with waiting := q.waiting.filter (fun p => !(p.h == c.h && p.n == c.n)) })) c.d
    flt (d.updSlot c.h c.n (fun s => { s with pushWait := [] })) cause sub (Config.freeAddr c.d.count) lanes

/-- The task of the lowest lane of the lane set, or 0 (R200). -/
def Slot.lowestTask (s : Slot) : W32 := if s.laneSet = 0#16 then 0#32 else (s.tasks.find? (firstLane s.laneSet)).getD 0#32

/-- The task of the lowest lane as an ORDERED slot's records are named by it; elsewhere 0 (R204). -/
def Slot.ownTask (s : Slot) : W32 := if s.kind == .ordered then s.lowestTask else 0#32

/-- tqpush (R200). -/
def execTqpush (a : VReg) (b : AReg) : State → Host.Outcome State Fault Refusal :=
  thread (useV [a] [rv a, ra b]) (fun c =>
    let v := c.s.V a.toNat
    let x : Desc := ⟨lane v 0, lane v 1, lane v 2, lane v 3, lane v 4, lane v 5, c.s.lowestTask, 0#32⟩
    if c.s.kind == .ordered && c.s.tasks.ents.isEmpty then .done c.d
    else c.push true [⟨0, c.s.A b.toNat, false, x⟩])

/-- tqpushv (R199, R200): one descriptor a lane; a lane without a task in an ORDERED slot is skipped. Bits of A[b] above [23:0], those
above the descriptor's word 0 too, are bits of word 0 that are not zero (DESIGN CHOICE, log 65). -/
def execTqpushv (km : KReg) (a : VReg) (b : AReg) (cc : VReg) : State → Host.Outcome State Fault Refusal :=
  thread ⟨[a.toNat, cc.toNat], [a.toNat + 4], [rv a, rv cc, ra b, rk km] ++ (List.range 4).map (fun i => rvn (a.toNat + 1 + i)), none, .all,
      false⟩ (fun c =>
    let g (i l : Nat) : W32 := lane (c.s.V (a.toNat + i)) l
    let e := c.s.A b.toNat
    let lanes := (lanesOf (c.s.K km.toNat)).filter (fun l => c.s.kind != .ordered || (c.s.laneSet.getLsbD l && (c.s.tasks.find? l).isSome))
    c.push false (lanes.map (fun l =>
      ⟨l, (lane (c.s.V cc.toNat) l).setWidth 64, decide (2 ^ 24 ≤ e.toNat),
        ⟨e.setWidth 32, g 0 l, g 1 l, g 2 l, g 3 l, g 4 l, (c.s.tasks.find? l).getD 0#32, 0#32⟩⟩)))

/-! ### tend, tabort, tqstat (R201 to R203) -/

/-- tend (R201). -/
def execTend (a : KReg) : State → Host.Outcome State Fault Refusal :=
  thread (useA [rk a]) (fun c =>
    let t := c.s.K a.toNat &&& c.s.laneSet
    if c.s.kind == .ordered then (if c.s.winStores.isEmpty then c.endTasks t (fun d => .done d) else .wait c.d .visible)
    else c.release (fun c => c.endTasks t (fun d => .done d)))

/-- The next arbiter round (R202, R205). -/
def nextRound (clock : Nat) : Nat := (clock / 256 + 1) * 256

/-- tabort (R202). -/
def execTabort (a : KReg) : State → Host.Outcome State Fault Refusal :=
  thread (useA [rk a]) (fun c =>
    if c.s.kind != .ordered then c.fault 0x52 8
    else .done ((c.s.tasksIn (c.s.K a.toNat &&& c.s.laneSet)).foldl (fun d i => d.abort c.s.lk i (nextRound d.clock)) c.d))

/-- tqstat (R203). -/
def execTqstat (d a : AReg) : State → Host.Outcome State Fault Refusal :=
  thread (useA [wa d, ra a]) (fun c =>
    let t : W64 := if a = 0#4 then BitVec.ofNat 64 c.h else c.s.A a.toNat
    if decide (4096 ≤ t.toNat) || !((c.d.launch? c.s.lk).map (fun l => l.has t.toNat)).getD false then c.faultAt 0x52 2 t
    else c.done (c.s.setA d.toNat (c.d.core t.toNat).tq.stat))

/-! ### The arbiter (R205) and re-queues (R198, R209) -/

/-- The ended task of lowest pair below a bound. -/
def Dev.nextCommit (d : Dev) (lk bound : Nat) : Option Task :=
  let es := (d.running lk).filter (fun t => t.ended && decide (descPair t.d < bound))
  es.find? (fun t => es.all (fun u => decide (descPair t.d ≤ descPair u.d)))

/-- A commit of the launch's arbiter is in flight. -/
def Dev.committing (d : Dev) (lk : Nat) : Bool :=
  d.groups.any (fun g => g.fin.any (fun f => match f with | .task k _ done => k == lk && done | _ => false))

/-- The rights a task's records are checked with again at its commit: those of its slot at its tend (R326). -/
def Dev.taskWho (d : Dev) (t : Task) : Who := { d.agentWho t.core t.lk with recov := t.recov }

/-- An ended task's records become its group, through the translations made at its tend, those of one line by rising age. -/
def Dev.commitTask (m : Memory) (d : Dev) (t : Task) : Dev :=
  let es := byLine ((d.core t.core).taskRecs [t.d.id])
  let go (d : Dev) (lines : List GLine) : Dev :=
    let id := d.newGid
    let d := d.updCore t.core (fun c => { c with
      dir := c.dir.map (fun e => if es.contains e then { e with gid := some id } else e),
      l1 := ⟨c.l1.ents.filter (fun x => !lines.any (fun l => l.va == x.1))⟩ })
    d.addGroup m lines (d.fnOf t.lk) t.core none [.task t.lk t.d.id true]
  -- a record that has become uncorrectable is no value (R363): the task runs again (log 19)
  if es.any (fun e => (d.core t.core).badRec e) then (d.abort t.lk t.d.id d.clock).later 1 (.arbiterRound t.lk)
  else if t.redo then
    match d.closing m (d.taskWho t) es with
    | .wait d => d.later 1 (.arbiterRound t.lk)
    | .bad _ _ _ | .page _ _ => (d.abort t.lk t.d.id d.clock).later 1 (.arbiterRound t.lk)
    | .ok lines d => go d lines
  else go d (es.filterMap (fun e => (t.xl.find? (fun x => x.1 == e.va)).map (fun x => ⟨e.va, x.2, 0#1024, 0#128, some (e.buf, e.rec_)⟩)))

/-- A round that is over has told the cores the horizon (R200). -/
def Launch.endRound (l : Launch) : Launch := { l with round := none, known := l.horizon }

/-- The arbiter of a launch: a round begins every 256 cycles with the bound of R205, also while a commit is in flight, and commits one
task at a time; none while the launch is saved (R307). The cores learn the horizon as a round ends (log 65). -/
def execArbiterRound (lk : Nat) : State → Host.Outcome State Fault Refusal :=
  onDev (fun m d =>
    match d.launch? lk with
    | none => d
    | some l =>
      if l.ordered != some true || d.anySaved lk then d else
      let d := if d.clock % 256 = 0 then d.updLaunch lk (fun l => { l with round := some ((d.bound lk).getD (2 ^ 64)) }) else d
      if d.committing lk then d else
      match (d.launch? lk).bind (·.round) with
      | none => d
      | some bound =>
        match d.nextCommit lk bound with
        | none => d.updLaunch lk Launch.endRound
        | some t => d.commitTask m t)

/-- Progress (R198): the launch's lowest unfinished task is on chip here and cannot be dispatched, so the highest of the tasks
in its way is aborted. A slot that is about to end is waited for. -/
def execProgressAbort (h : Nat) : State → Host.Outcome State Fault Refusal :=
  onDev (fun _ d =>
    let q := (d.core h).tq
    match q.lk with
    | none => d
    | some lk =>
      if ((d.launch? lk).map (·.out)).getD true then d else
      match q.ready d.clock with
      | [] => d
      | x :: _ =>
        let lowest := (d.queuedPairs lk ++ (d.running lk).map (fun t => descPair t.d)).all (fun p => decide (descPair x ≤ p))
        if !q.ordered || !lowest then d else
        let ending := (d.core h).slots.ents.any (fun e => e.2.lk == lk && e.2.kind == .ordered && e.2.st != .free && e.2.endReq)
        let inSlots := (d.running lk).filter (fun t => t.core == h && !t.ended &&
          (d.core h).allSlots.any (fun e => e.2.lk == lk && e.2.tasks.ents.any (fun y => y.2 == t.d.id)))
        let cand := if (d.freeSlot lk h).isNone then (if ending then [] else inSlots)
          else if 1024 ≤ (d.districtTasks lk h).length then d.districtTasks lk h else []
        match cand.find? (fun t => cand.all (fun u => decide (descPair u.d ≤ descPair t.d))) with
        | some t => d.abort lk t.d.id d.clock
        | none => d)

/-- Tasks stranded in the pool of a core whose reserved slots are all FREE are re-queued, at the end of the cycle (R209). -/
def execStrandedRequeue (h : Nat) : State → Host.Outcome State Fault Refusal :=
  onDev (fun _ d =>
    match (d.core h).tq.lk with
    | none => d
    | some lk =>
      match d.launch? lk with
      | none => d
      | some l =>
        if l.ordered != some true || l.out || d.anySaved lk || (l.resvOn h).slots.any (fun n => (d.slot h n).st != .free) then d else
        let held := (d.running lk).filter (fun t => (d.core h).pool.any (fun e => e.lk == lk && e.task == t.d.id))
        let asc := held.foldl (fun acc t => acc.takeWhile (fun u => decide (descPair u.d ≤ descPair t.d)) ++ t ::
          acc.dropWhile (fun u => decide (descPair u.d ≤ descPair t.d))) []
        asc.foldl (fun d t => d.abort lk t.d.id d.clock) d)

end Sys2Proof.Machine
end

