-- ==== Sys2Proof/Machine/Attention.lean ====
section
/-! DEFINITION. Blocks, the depot, the prefix table, rotary on load and the walking thread (R240 to R259). -/

namespace Sys2Proof.Machine

/-! ### A header at issue (R242) -/

/-- What reading a header comes to. -/
inductive HeaderAt where
  | ok (l : Line) (pa : Nat) (d : Dev)
  | res (r : Res)

/-- A line read as gld reads it (R144, R165): the slot's own bytes over the L1's or the home's, with the rights a form needs, not before
the slot's earlier reads of the line (R149). -/
def Ctx.readLine (c : Ctx) (va : W64) (need : List Right) : HeaderAt :=
  match c.d.translate c.m (c.s.who c.h) need va with
  | .bad cause sub => .res (c.faultAt cause sub va)
  | .page sub => .res (c.page sub va (Config.freeLanes c.d.count))
  | .miss => .res (.skip (c.d.askFor (c.s.who c.h) va))
  | .ok pa lf =>
    let d := c.d.fillPlb c.m (c.s.who c.h) lf.dom
    let k := d.core c.h
    let laid (l : Line) : Line := (overParts (k.recParts (k.ownRecs c.buffer.1 c.s c.s.ownTask) va.toNat ++ c.d.lineParts c.h c.n va.toNat) l).1
    if c.bufferAway || c.s.ops.any (fun o => o.reads va pa) then .res (.skip d) else
    match (k.l1.find? (lineOf va.toNat)).filter (fun l => c.s.ownTask == 0#32 || l.sealed_) with
    | some l => .ok (laid l.data) pa d
    | none =>
      if d.pending pa then .res (.skip d)
      else if d.linePoison.contains (lineOf pa) then .res (c.faultAt 0xF0 3 va)
      else
        match d.quay (d.fnOf c.s.lk) pa false with
        | none => .res (.skip (d.quayWaited (d.fnOf c.s.lk) pa))
        | some d =>
          let line := c.m.line (lineOf pa)
          .ok (laid line) pa ((d.keepLine c.h va.toNat line).delay c.h (homeOf pa / 8))

/-- A short form that names a block: the frame's alignment, its header and the checks of R242, in order. -/
def Ctx.onBlock (c : Ctx) (f : W64) (need : List Right) (k : Ctx → Line → Nat → Res) : Res :=
  if f.toNat % 256 ≠ 0 ∨ isWindow f = true then c.faultAt 0x72 2 f else
  match c.readLine f need with
  | .res r => r
  | .ok l pa d =>
    let e := d.frameCheck (terrOf c.s.lk) f l
    if e ≠ 0 then Ctx.faultAt { c with d := d } 0x72 e f else k { c with d := d, s := d.slot c.h c.n } l pa

/-- The tag of the slot's terrace. -/
def Ctx.tag (c : Ctx) : W32 := (c.d.terrace (terrOf c.s.lk)).ctx

/-- The broadcast that a slot's home write brings in an ORDERED launch (R206). -/
def Slot.taskFin (s : Slot) : List Fin :=
  if s.kind == .ordered then (s.tasks.ents.map (fun e => Fin.task s.lk e.2 false)).take 1 else []

/-- Bytes of a header as a group's line. -/
def headerLine (va pa : Nat) (off : Nat) (v n : Nat) : GLine :=
  let b := lineBytes (pa + off) v n
  ⟨lineOf va, lineOf pa, b.1, b.2, none⟩

/-! ### kvlook (R250) -/

/-- kvlook (R250). -/
def execKvlook (la : BitVec 4) (d a : AReg) (b : VReg) : State → Host.Outcome State Fault Refusal :=
  specForm ((useV [b] [wa d, ra a, wa a, rv b]).long la) (fun c => c.release (fun c =>
    let h := kvChain (c.s.A a.toNat) ((List.range 16).map (lane (c.s.V b.toNat)))
    let id := c.d.count
    let frame : Option W64 := (c.d.findEnt h c.tag).bind (fun e =>
      let p := c.d.pool (entDep e) (entPool e)
      if p.of (terrOf c.s.lk) && decide (entIndex e < p.count) then some (p.frame (entIndex e)) else none)
    let start (f : W64) (acc : List Acc) : Ctx :=
      let o : LongOp := ⟨id, c.s.pc, .kvlook d.toNat a.toNat, [], [d.toNat, a.toNat], 0#16, false, acc, [], [], f, h, false⟩
      let d := if c.s.ownTask == 0#32 || acc.isEmpty then c.d else c.d.setSig c.s.lk c.s.ownTask (lineOf f.toNat)
      { c with d := { d.updSlot c.h c.n (fun s => { s with ops := s.ops ++ [o] }) with count := id + 1 } }
    match frame with
    | none => .done ((start 0#64 []).d.lookDone c.h c.n id 0#64)
    | some f => .done ((start f [⟨0, 0, f, .xlat, 0#1024, 0#128, 0⟩]).d.resolve c.m c.h c.n id 0)))

/-- The frame's lines leave a core's L1. -/
def Dev.dropFrame (d : Dev) (h : Nat) (f : W64) (stride : Nat) : Dev :=
  d.updCore h (fun c => { c with l1 := ⟨c.l1.ents.filter (fun e => !(decide (f.toNat ≤ e.1) && decide (e.1 < f.toNat + stride)))⟩ })

/-- The test of a kvlook at the header's home: a hit takes a holding and drops the frame's lines. -/
def Dev.lookTest (m : Memory) (d : Dev) (t : HdrTest) (h n op pa : Nat) (frame hash : W64) (tag : W32) : Dev :=
  if d.pending pa then d.later 1 (.headerHomeTest t) else
  if d.linePoison.contains (lineOf pa) then
    (d.updOp h n op (fun o => o.updAcc 0 (fun a => { a with st := .bad 0xF0 3 }))).settleOp h n op
  else
    let l := m.line (lineOf pa)
    let s := d.slot h n
    if hRefs l == 0#32 || !hIns l || hHash l != hash || hCtx l != tag then
      (match d.visit (d.fnOf s.lk) false [pa] with
       | (d, true) => d.lookDone h n op 0#64
       | (d, false) => d.later 1 (.headerHomeTest t))
    else
    match d.groupNow (headerLine frame.toNat pa 20 (hRefs l + 1#32).toNat 4) (d.fnOf s.lk) (.nothing :: s.taskFin) with
    | none => (d.askHost (lineOf pa)).later 1 (.headerHomeTest t)
    | some d => (d.dropFrame h frame (256 + 32 * hRb l)).lookDone h n op frame

/-! ### kvfree (R253) -/

/-- The end of a holding at the header's home; with the last one the entry goes and the frame returns to its pool. -/
def Dev.freeTest (m : Memory) (d : Dev) (t : HdrTest) (h n pa : Nat) (frame : W64) : Dev :=
  if d.pending pa then d.later 1 (.headerHomeTest t) else
  let l := m.line (lineOf pa)
  let s := d.slot h n
  if hRefs l == 0#32 then
    (match d.visit (d.fnOf s.lk) false [pa] with
     | (d, true) => d.reply h n (.fail 0x72 2)
     | (d, false) => d.later 1 (.headerHomeTest t))
  else
  let left := hRefs l - 1#32
  let last := left == 0#32
  let p := d.pool (hDep l) (hPool l)
  let ix := (p.index frame.toNat).getD 0
  let b := lineBytes (pa + 20) left.toNat 4
  let g : GLine :=
    if last then
      let f := lineBytes (pa + 7) 0 1
      ⟨lineOf frame.toNat, lineOf pa, b.1 ||| f.1, b.2 ||| f.2, none⟩
    else ⟨lineOf frame.toNat, lineOf pa, b.1, b.2, none⟩
  match d.groupNow g (d.fnOf s.lk) ((.reply h n (left.setWidth 64) :: (if last then [.push (hDep l) (hPool l) ix] else [])) ++ s.taskFin) with
  | none => (d.askHost (lineOf pa)).later 1 (.headerHomeTest t)
  | some d =>
    if !(last && hIns l) then d else
    let bk := bucketOf (hHash l)
    match (List.range 4).find? (fun i =>
        let e := bucketEnt (d.bucket bk) i
        entMatches e (hHash l) (hCtx l) && entDep e == hDep l && entPool e == hPool l && entIndex e == ix) with
    | some i => d.setEnt bk i (bucketEnt (d.bucket bk) i &&& ~~~((1#128) <<< 127))
    | none => d

/-- A test at a block's header home. -/
def execHeaderHomeTest (t : HdrTest) : State → Host.Outcome State Fault Refusal :=
  onDev (fun m d =>
    match t with
    | .look h n op pa frame hash tag => d.lookTest m t h n op pa frame hash tag
    | .free h n pa frame => d.freeTest m t h n pa frame)

/-- A form that closes its group, waits until it is visible, asks a home, and waits for its answer. -/
def Ctx.askHome (c : Ctx) (f : W64) (first : (Ctx → Line → Nat → Res) → Res) (send : Ctx → Nat → Line → Dev) (k : W64 → Res) : Res :=
  match c.s.reply with
  | .done v => k v
  | .fail cause sub => c.faultAt cause sub f
  | .sent | .stale => .wait c.d .home
  | .idle => first (fun c l pa => c.release (fun c =>
      .wait ((send c pa l).updSlot c.h c.n (fun s => { s with reply := .sent })) .home))

def Ctx.exclusiveBlock (c : Ctx) (f : W64) : (Ctx → Line → Nat → Res) → Res := c.onBlock f [.r, .w, .a]

/-- kvfree (R253). -/
def execKvfree (d a : AReg) : State → Host.Outcome State Fault Refusal :=
  specForm (useA [wa d, ra a]) (fun c =>
    let f := c.s.A a.toNat
    c.askHome f (c.exclusiveBlock f) (fun c pa _ => c.d.send 0 (.headerHomeTest (.free c.h c.n pa f)))
      (fun v => c.done (c.s.setA d.toNat v)))

/-! ### kvins and kvpos (R251, R254) -/

/-- kvins (R251): the two-line group's tests are made where the header's line is released (log 9). -/
def execKvins (d a b : AReg) : State → Host.Outcome State Fault Refusal :=
  specForm (useA [wa d, ra a, ra b]) (fun c =>
    let f := c.s.A b.toNat
    let hash := c.s.A a.toNat
    let first (k : Ctx → Line → Nat → Res) : Res := c.exclusiveBlock f (fun c l pa =>
      if !c.s.closed && (hCount l != 16 || hIns l) then c.faultAt 0x72 7 f else k c l pa)
    c.askHome f first (fun c pa l =>
      let p := c.d.pool (hDep l) (hPool l)
      let x := lineBytes (pa + 8) hash.toNat 8
      let y := lineBytes (pa + 7) 1 1
      let g : GLine := ⟨lineOf f.toNat, lineOf pa, x.1 ||| y.1, x.2 ||| y.2, none⟩
      c.d.addGroup c.m [g] (c.d.fnOf c.s.lk) c.h none (.insert c.h c.n (bucketOf hash)
        (mkEnt hash c.tag (hDep l) (hPool l) ((p.index f.toNat).getD 0)) :: c.s.taskFin))
      (fun v => c.done (c.s.setA d.toNat v)))

/-- kvpos (R254). -/
def execKvpos (a b : AReg) : State → Host.Outcome State Fault Refusal :=
  specForm (useA [ra a, ra b]) (fun c =>
    let f := c.s.A a.toNat
    c.askHome f (c.exclusiveBlock f) (fun c pa _ =>
      c.d.addGroup c.m [headerLine f.toNat pa 0 ((c.s.A b.toNat).toNat % 2 ^ 32) 4] (c.d.fnOf c.s.lk) c.h none (.pos c.h c.n :: c.s.taskFin))
      (fun _ => .done c.d))

/-! ### The depot (R244) -/

/-- A pop at a depot (R244): the index, or KVEMPTY. -/
def execDepotPop (dep pool h n : Nat) : State → Host.Outcome State Fault Refusal :=
  onDev (fun _ d =>
    match (d.pool dep pool).pop with
    | some (i, p) => (d.updPool dep pool (fun _ => p)).reply h n (.done (BitVec.ofNat 64 i))
    | none => d.reply h n (.fail 0x70 (16 * dep + pool)))

/-- A push at a depot (R244). -/
def execDepotPush (dep pool idx : Nat) : State → Host.Outcome State Fault Refusal :=
  onDev (fun _ d => d.updPool dep pool (fun p => p.push idx))

/-! ### kvapp (R252) -/

/-- Bytes to be buffered: address, value, length; none crosses a line. -/
structure Seg where
  va : W64
  v : Nat
  n : Nat

/-- Segments buffered in order in the slot's group; none when a record is missing. -/
def Ctx.bufferSegs (c : Ctx) (d : Dev) (ss : List Seg) : Option Dev :=
  let b := c.buffer
  (ss.foldl (fun (k : Option Core) w => k.bind (fun k =>
    let x := lineBytes w.va.toNat w.v w.n
    k.buffer b.1 b.2 d.count c.s.ownTask w.va.toNat x.1 x.2)) (some (d.core c.h))).map (fun k =>
      { d.updCore c.h (fun _ => k) with count := d.count + 1 })

/-- The rows of one token: 64-byte pieces of the registers from one on. -/
def rowSegs (s : Slot) (r0 n : Nat) (at_ : W64) : List Seg :=
  (List.range n).map (fun i => ⟨at_ + BitVec.ofNat 64 (64 * i), (s.V (r0 + i)).toNat, 64⟩)

/-- What one kvapp writes to frame g at row r (R252). -/
def appSegs (s : Slot) (ra rb_ : Nat) (n rb r : Nat) (scales : W64) (g : W64) : List Seg :=
  rowSegs s ra n (g + BitVec.ofNat 64 (256 + r * rb)) ++ rowSegs s rb_ n (g + BitVec.ofNat 64 (256 + 16 * rb + r * rb)) ++
  [⟨g + BitVec.ofNat 64 (32 + 4 * r), (scales.extractLsb' 0 32).toNat, 4⟩,
   ⟨g + BitVec.ofNat 64 (96 + 4 * r), (scales.extractLsb' 32 32).toNat, 4⟩,
   ⟨g + 4#64, r + 1, 1⟩]

/-- The header of a new block, all 256 bytes of it. -/
def headSegs (g : W64) (img : BitVec 256) : List Seg := [⟨g, img.toNat, 128⟩, ⟨g + 128#64, 0, 128⟩]

/-- Records that a new block needs: its header and rows, and the old block's NEXT unless its line has one. -/
def Ctx.newRecords (c : Ctx) (rb : Nat) (old : Option W64) : Nat :=
  2 + 2 * max 1 (rb / 128) + (match old with
    | some f => if ((c.d.core c.h).openRec c.buffer.1 c.s.ownTask f.toNat).isSome then 0 else 1
    | none => 0)
def Ctx.freeRecords (c : Ctx) : Nat := c.buffer.2 - ((c.d.core c.h).dir.filter (fun e => e.buf == c.buffer.1)).length

/-- The registers beyond the named ones that a token's rows take: window, lookahead, pending (R27, R64, R252). -/
def Ctx.spanGate (c : Ctx) (ra rb_ n : Nat) : Option Res :=
  let rs := (List.range n).map (ra + ·) ++ (List.range n).map (rb_ + ·)
  match [ra + n - 1, rb_ + n - 1].find? (fun r => decide (c.s.winCount ≤ r)) with
  | some r => some (c.fault 0x03 r)
  | none =>
    let u : Use := ⟨[], [], rs.map rvn, none, .all, false⟩
    c.gate u

/-- kvapp (R252). -/
def execKvapp (d : AReg) (a b : VReg) (cc : AReg) : State → Host.Outcome State Fault Refusal :=
  specForm (useV [a, b] [wa d, ra d, rv a, rv b, ra cc]) (fun c =>
    let tail := c.s.A d.toNat
    let scales := c.s.A cc.toNat
    let terr := terrOf c.s.lk
    -- the rows of a token in block f at row r, with what else is written, and aD
    let put (c : Ctx) (n rb r : Nat) (f : W64) (before after : List Seg) : Res :=
      let ss := before ++ appSegs c.s a.toNat b.toNat n rb r scales f ++ after
      if c.bufferAway then .skip c.d else
      match c.storeLanes (ss.map (fun w => (0, w.va))) with
      | .skip d => .skip d
      | .bad va cause sub => c.faultAt cause sub va
      | .page va sub _ => c.page sub va (Config.freeLanes c.d.count)
      | .ok dv =>
        match c.bufferSegs dv ss with
        | none => c.full
        | some dv => .done (dv.updSlot c.h c.n (fun s => s.setA d.toNat f))
    -- a new block of a pool: its records are reserved, an index popped, and the block written
    let fresh (c : Ctx) (dep pool fmt hc : Nat) (pos : W32) (old : Option W64) : Res :=
      let p := c.d.pool dep pool
      let rb := rowBytes hc fmt
      if !p.of terr then c.faultAt 0x72 6 tail else
      match c.spanGate a.toNat b.toNat (rb / 64) with
      | some r => r
      | none =>
        match c.s.reply with
        | .done v =>
          let g := p.frame v.toNat
          put c (rb / 64) rb 0 g (headSegs g (newHeader pos dep pool fmt hc c.tag)) (match old with | some f => [⟨f + 24#64, g.toNat, 8⟩] | none => [])
        | .sent | .stale => .wait c.d .reply
        | .fail cause sub => .service c.d ⟨cause, sub, tail, Config.freeLanes c.d.count⟩
        | .idle =>
          if c.freeRecords < c.newRecords rb old then c.full
          else .wait ((c.d.updSlot c.h c.n (fun s => { s with reply := .sent })).send 0 (.depotPop dep pool c.h c.n)) .reply
    if tail.getLsbD 63 then
      (if tail.extractLsb' 40 23 ≠ 0#23 then c.faultAt 0x72 2 tail
       else
         let dep := (tail.extractLsb' 36 4).toNat
         let pool := (tail.extractLsb' 32 4).toNat
         let p := c.d.pool dep pool
         fresh c dep pool p.fmt.toNat p.hc.toNat (tail.extractLsb' 0 32) none)
    else c.onBlock tail [.w] (fun c l _ =>
      let rb := hRb l
      if hCount l = 16 then fresh c (hDep l) (hPool l) (hFmt l) (hHc l) (hPos l + 16#32) (some tail)
      else
        match c.spanGate a.toNat b.toNat (rb / 64) with
        | some r => r
        | none => put c (rb / 64) rb (hCount l) tail [] []))

/-! ### Rotary on load (R255, R256) -/

/-- Accesses of a form that reads lines as gld does, with or without own bytes: a fault at issue, a turn to skip, or the accesses. -/
def Ctx.accesses (c : Ctx) (owned : Bool) (as : List (Nat × W64)) : Option (Sum (Nat × Nat × W64) (List Acc)) :=
  let ls := as.map (fun a => (a, c.loadLane a.1 a.2 1))
  match ls.findSome? (fun x => match x.2 with | .bad e b => some (e, b, x.1.2) | _ => none) with
  | some e => some (.inl e)
  | none =>
    if c.bufferAway || ls.any (fun x => match x.2 with | .again => true | _ => false) then none else
    some (.inr (ls.map (fun x =>
      let own := if owned then c.ownBytes x.1.1 x.1.2 else (0#1024, 0#128)
      match x.2 with
      | .at_ .got line => ⟨x.1.1, 0, x.1.2, .got, Line.over line own.1 own.2, own.2, 0⟩
      | .at_ st _ => ⟨x.1.1, 0, x.1.2, st, own.1, own.2, 0⟩
      | _ => ⟨x.1.1, 0, x.1.2, .xlat, own.1, own.2, 0⟩)))

/-- rtab (R255): 128 words, read as gld reads them; the slot skips its turns until all are there, then the table is written. -/
def execRtab (base : AReg) (off : BitVec 24) : State → Host.Outcome State Fault Refusal :=
  thread (useA [ra base]) (fun c =>
    let a := c.s.addr1 base off
    if a.toNat % 64 ≠ 0 then c.faultAt 0x05 0 a else
    match c.s.ops.find? (fun o => o.kind == .rtab) with
    | none =>
      let l := if c.s.kind == .ordered then firstLane c.s.laneSet else 0
      let words := (List.range 128).map (fun j => (l, a + BitVec.ofNat 64 (4 * j)))
      (match c.accesses true words with
       | none => .skip c.d
       | some (.inl e) => c.faultAt e.1 e.2.1 e.2.2
       | some (.inr acc) =>
         match Ctx.startLoad c ⟨c.d.count, c.s.pc, .rtab, [], [], 0#16, false, acc, [], [], a, 0#64, false⟩ with
         | .done d => .skip d
         | r => r)
    | some o =>
      if o.acc.any (fun x => x.st.flying) then .skip c.d else
      let c : Ctx := { c with s := c.s.noTable, d := c.d.setSlot c.h c.n c.s.noTable }
      match o.fault with
      | some f => if f.svc then c.page f.sub f.addr (Config.freeLanes c.d.count) else c.faultAt f.cause f.sub f.addr
      | none =>
        c.done { c.s with rot := ⟨(o.acc.zipIdx.map (fun x => (x.2, Line.w32 x.1.line (x.1.va.toNat % 128)))).filter (fun e => e.2 != 0#32)⟩ })

/-- ldkr (R256): the header's line and the row's line are read; the checks follow when the header has come. -/
def execLdkr (la : BitVec 4) (km : KReg) (kz : Bool) (d : VReg) (base : AReg) (off : BitVec 24) :
    State → Host.Outcome State Fault Refusal :=
  thread (((⟨[d.toNat], [], [wv d, ra base], none, .all, false⟩ : Use).masked km kz).long la) (fun c =>
    let f := c.s.A base.toNat
    let mask := c.s.K km.toNat
    let row := f + 256#64 + off.signExtend 64
    if f.toNat % 256 ≠ 0 ∨ isWindow f = true then c.faultLanes 0x72 2 f mask else
    let ord := c.s.kind == .ordered
    let l0 := if ord then firstLane mask else 0
    -- the own bytes of each active lane of an ORDERED slot stand beside the two lines
    let own : List Acc := if !ord then [] else (lanesOf mask).flatMap (fun l =>
      let x := c.ownBytes l f
      let y := c.ownBytes l (row &&& ~~~(3#64))
      [⟨l, 2, f, .got, x.1, x.2, 0⟩, ⟨l, 3, row &&& ~~~(3#64), .got, y.1, y.2, 0⟩])
    match c.accesses (!ord) [(l0, f)] with
    | none => .skip c.d
    | some (.inl e) => c.faultLanes e.1 e.2.1 e.2.2 mask
    | some (.inr hd) =>
      match c.accesses (!ord) [(l0, row &&& ~~~(3#64))] with
      | none => .skip c.d
      | some (.inl e) => go c f mask (hd ++ [⟨l0, 0, row, .prot e.1 e.2.1, 0#1024, 0#128, 0⟩] ++ own) d kz off
      | some (.inr r) => go c f mask (hd ++ r ++ own) d kz off)
where
  go (c : Ctx) (f : W64) (mask : BitVec 16) (acc : List Acc) (d : VReg) (kz : Bool) (off : BitVec 24) : Res :=
    Ctx.startLoad c ⟨c.d.count, c.s.pc, .ldkr d.toNat off c.s.rot, [d.toNat], [], mask, kz, acc, [], [], f, 0#64, false⟩

/-- 2^128 times pi, cut off. -/
def piBits : Nat := 0x3243F6A8885A308D313198A2E03707344

/-- Terms of the series of the sine, in 2^128ths: x is the angle, t the present term, k its number, n terms to go. -/
def sinTerms (x2 : Int) : Nat → Nat → Int → Int
  | 0, _, _ => 0
  | n + 1, k, t => t + sinTerms x2 n (k + 1) (-(t * x2 / 2 ^ 128) / ((2 * k + 2) * (2 * k + 3) : Nat))

/-- sin(2 pi r / 4096) for r up to 1,024, in 2^128ths. -/
def sinQuarter (r : Nat) : Int :=
  let x : Int := (2 * piBits * r / 4096 : Nat)
  if r = 1024 then 2 ^ 128 else sinTerms (x * x / 2 ^ 128) 24 0 x

/-- sin(2 pi i / 4096) in 2^128ths. -/
def sinWhole (i : Nat) : Int :=
  match i / 1024 % 4 with
  | 0 => sinQuarter (i % 1024)
  | 1 => sinQuarter (1024 - i % 1024)
  | 2 => 0 - sinQuarter (i % 1024)
  | _ => 0 - sinQuarter (1024 - i % 1024)

/-- T[i] of R256. -/
def sinTable (i : Nat) : W32 := encF .f32 .rn false (.fin (decide (sinWhole i < 0)) (sinWhole i).natAbs (-128))

/-- The value of an f32 word, and a result rounded to f32, subnormals kept. -/
def f32v (w : W32) : FVal := decF .f32 false w
def r32 (v : FVal) : W32 := encF .f32 .rn false v

/-- Sin(θ) of R256. -/
def kvSin (θ : W32) : W32 :=
  let i := (θ.extractLsb' 20 12).toNat
  let φ : FVal := .fin false (θ.extractLsb' 4 16).toNat (-16)
  let δ := r32 (addF .rn (f32v (sinTable ((i + 1) % 4096))) (negF (f32v (sinTable i))))
  r32 (addF .rn (mulF φ (f32v δ)) (f32v (sinTable i)))

/-- Lane l of an ldkr from its header, its segment of a row and the rotary table (R256). -/
def ldkrLane (hd : Line) (row : Line) (o : Nat) (rot : AMap W32) (l : Nat) : W32 :=
  let rb := hRb hd
  let size := if hFmt hd = 3 then 2 else 1
  let f : Fmt := if hFmt hd = 3 then .bf16 else .e4m3
  let r := o / rb
  let c0 := o % rb / size
  let p := hPos hd + BitVec.ofNat 32 r
  let ks := f32v (hScale hd r)
  let el (i : Nat) : FVal := decF f false (BitVec.ofNat 32 (leNat (Line.bytes row (size * i) size)))
  let m := l / 2
  let θ := p * rot.get 0#32 (c0 / 2 + m)
  let x0 := f32v (r32 (mulF (el (2 * m)) ks))
  let x1 := f32v (r32 (mulF (el (2 * m + 1)) ks))
  let s := f32v (kvSin θ)
  let c := f32v (kvSin (θ + 0x40000000#32))
  if l % 2 = 0 then r32 (addF .rn (f32v (r32 (mulF x0 c))) (negF (mulF x1 s)))
  else r32 (addF .rn (f32v (r32 (mulF x0 s))) (mulF x1 c))

/-! ### The walking thread (R257, R258) -/

/-- The core of an interval nearest an attach point, the lower on a tie. -/
def nearestCore (first len at_ : Nat) : Nat := if at_ < first then first else if first + len ≤ at_ then first + len - 1 else at_

/-- The target core of a migr to a physical address. -/
def Dev.migrTarget (d : Dev) (lk h pa : Nat) : Nat :=
  if homeOf pa = 512 then h else
  match d.launch? lk with
  | some l => nearestCore l.first l.len (attachOf (homeOf pa))
  | none => h

/-- The slot's ranks are marked as in transit, or no longer. -/
def Dev.transit (d : Dev) (t h n : Nat) (on : Bool) : Dev :=
  (d.ranksOf t h n).foldl (fun d r => d.setRank t r (putBit (d.rankEnt t r) 30 on)) d

/-- migr (R257, R258): its faults, its leases, its release; it stays, or leaves for its target, giving up its seat at this turn (R22). -/
def execMigr (la live : BitVec 4) (d a : AReg) : State → Host.Outcome State Fault Refusal :=
  specForm ((useA [wa d, ra a]).long la) (fun c =>
    let x := c.s.A a.toNat
    match c.s.reply with
    | .sent => .wait c.d .reply
    | _ =>
      if !c.s.ops.isEmpty then .skip c.d
      else if ((c.d.launch? c.s.lk).map (fun l => l.lives.length)).getD 0 ≤ live.toNat then c.faultAt 0x01 4 c.w
      else if x.toNat % 4 ≠ 0 then c.faultAt 0x05 0 x
      else if isWindow x then c.faultAt 0x04 6 x
      else
        match c.d.translate c.m (c.s.who c.h) [.r] x with
        | .bad cause sub => c.faultAt cause sub x
        | .page sub => c.page sub x (Config.freeLanes c.d.count)
        | .miss => .skip (c.d.askFor (c.s.who c.h) x)
        | .ok pa lf =>
          let dv := (c.d.fillPlb c.m (c.s.who c.h) lf.dom).breakLeases c.h c.n 2 (fun _ => true)
          Ctx.release { c with d := dv, s := dv.slot c.h c.n } (fun c =>
            let t := c.d.migrTarget c.s.lk c.h pa
            if t = c.h then c.acquire true (fun c => c.done (c.s.setA d.toNat (BitVec.ofNat 64 c.h)))
            else if (c.d.freeSlot c.s.lk t).isNone then .wait c.d .move
            else
              let dv := (c.d.updSlot c.h c.n (fun s => { s with reply := .sent, live := live.toNat + 16 * d.toNat + 256 * la.toNat })).transit (terrOf c.s.lk) c.h c.n true
              .wait (dv.send 0 (.migrArrival c.h c.n t)) .reply))

/-- The registers of a live set (R69 .live): 128 vector, 16 address and 8 mask registers. -/
def liveRegs (s : Slot) (l : BitVec 128 × BitVec 16 × BitVec 8) (t : Slot) : Slot :=
  { t with
    vregs := ⟨s.vregs.ents.filter (fun e => l.1.getLsbD e.1)⟩
    aregs := ⟨s.aregs.ents.filter (fun e => l.2.1.getLsbD e.1)⟩
    kregs := ⟨s.kregs.ents.filter (fun e => l.2.2.getLsbD e.1)⟩ }

/-- A walking thread arrives (R258): in the lowest FREE slot of its launch there, acquiring; its old slot is FREE. Without such
a slot it waits at home; a thread that was stopped or pre-empted on its way stays and presents migr again (R308, R340). -/
def execMigrArrival (h n t : Nat) : State → Host.Outcome State Fault Refusal :=
  onDev (fun m d =>
    let s := d.slot h n
    let terr := terrOf s.lk
    if s.reply == .stale then (d.transit terr h n false).updSlot h n (fun s => { s with reply := .idle }) else
    if s.reply != .sent then d else
    match d.launch? s.lk, (if (match s.st with | .held _ => true | _ => false) then none else d.freeSlot s.lk t) with
    | some l, some (i, k) =>
      let live := l.lives.getD (s.live % 16) (0#128, 0#16, 0#8)
      let da := s.live / 16 % 16
      let u : Use := (useA [⟨.a, da, true⟩]).long (BitVec.ofNat 4 (s.live / 256))
      let ranks := d.ranksOf terr h n
      let d := d.newThread s.lk t i k s.kind (s.pc + 8#64) 0 (fun z =>
        { (liveRegs s live z).setA da (BitVec.ofNat 64 t) with
          tsw := s.tsw, gtid := s.gtid, laneSet := s.laneSet, tasks := s.tasks, rot := s.rot
          wins := (s.issued s.pc (s.pc + 8#64) u).wins
          st := if s.stepReq then .held .debug else .ready })
      let d := d.updCore t Core.acquire
      let buf := (d.bufferOf t s.lk i).1
      let d := (s.tasks.ents.map (·.2)).foldl (fun d id => d.updTask s.lk id (fun x => { x with core := t, buf := buf })) d
      let moved := (d.core h).inbox.filter (fun x => x.terr == terr && ranks.contains x.rank)
      let d := (d.updCore h (fun c => { c with inbox := c.inbox.filter (fun x => !(x.terr == terr && ranks.contains x.rank)) })).updCore t (fun c =>
        { c with inbox := c.inbox ++ moved })
      let d := ranks.foldl (fun d r => d.setRank terr r (rankFor t k)) d
      let d := (d.vacate h n).traceSlot m t k 4
      if s.stepReq then d.traceSlot m t k 6 else d
    | _, _ => (d.transit terr h n false).updSlot h n (fun s => { s with
        reply := .idle, st := match s.st with | .held w => .held w | _ => .waiting .move }))

end Sys2Proof.Machine
end

