-- ==== Sys2Proof/Machine/Crypto.lean ====
section
/-! DEFINITION. SHA-512 (FIPS 180-4) and the check of an RSASSA-PKCS1-v1_5 signature with SHA-512 (RFC 8017), which R260, R358
and R360 name. -/

namespace Sys2Proof.Machine

/-! ### SHA-512 -/

/-- The eighty round constants. -/
def shaK : List Nat :=
  [0x428A2F98D728AE22, 0x7137449123EF65CD, 0xB5C0FBCFEC4D3B2F, 0xE9B5DBA58189DBBC] ++
  [0x3956C25BF348B538, 0x59F111F1B605D019, 0x923F82A4AF194F9B, 0xAB1C5ED5DA6D8118] ++
  [0xD807AA98A3030242, 0x12835B0145706FBE, 0x243185BE4EE4B28C, 0x550C7DC3D5FFB4E2] ++
  [0x72BE5D74F27B896F, 0x80DEB1FE3B1696B1, 0x9BDC06A725C71235, 0xC19BF174CF692694] ++
  [0xE49B69C19EF14AD2, 0xEFBE4786384F25E3, 0x0FC19DC68B8CD5B5, 0x240CA1CC77AC9C65] ++
  [0x2DE92C6F592B0275, 0x4A7484AA6EA6E483, 0x5CB0A9DCBD41FBD4, 0x76F988DA831153B5] ++
  [0x983E5152EE66DFAB, 0xA831C66D2DB43210, 0xB00327C898FB213F, 0xBF597FC7BEEF0EE4] ++
  [0xC6E00BF33DA88FC2, 0xD5A79147930AA725, 0x06CA6351E003826F, 0x142929670A0E6E70] ++
  [0x27B70A8546D22FFC, 0x2E1B21385C26C926, 0x4D2C6DFC5AC42AED, 0x53380D139D95B3DF] ++
  [0x650A73548BAF63DE, 0x766A0ABB3C77B2A8, 0x81C2C92E47EDAEE6, 0x92722C851482353B] ++
  [0xA2BFE8A14CF10364, 0xA81A664BBC423001, 0xC24B8B70D0F89791, 0xC76C51A30654BE30] ++
  [0xD192E819D6EF5218, 0xD69906245565A910, 0xF40E35855771202A, 0x106AA07032BBD1B8] ++
  [0x19A4C116B8D2D0C8, 0x1E376C085141AB53, 0x2748774CDF8EEB99, 0x34B0BCB5E19B48A8] ++
  [0x391C0CB3C5C95A63, 0x4ED8AA4AE3418ACB, 0x5B9CCA4F7763E373, 0x682E6FF3D6B2B8A3] ++
  [0x748F82EE5DEFB2FC, 0x78A5636F43172F60, 0x84C87814A1F0AB72, 0x8CC702081A6439EC] ++
  [0x90BEFFFA23631E28, 0xA4506CEBDE82BDE9, 0xBEF9A3F7B2C67915, 0xC67178F2E372532B] ++
  [0xCA273ECEEA26619C, 0xD186B8C721C0C207, 0xEADA7DD6CDE0EB1E, 0xF57D4F7FEE6ED178] ++
  [0x06F067AA72176FBA, 0x0A637DC5A2C898A6, 0x113F9804BEF90DAE, 0x1B710B35131C471B] ++
  [0x28DB77F523047D84, 0x32CAAB7B40C72493, 0x3C9EBE0A15C9BEBC, 0x431D67C49C100D4C] ++
  [0x4CC5D4BECB3E42B6, 0x597F299CFC657E2A, 0x5FCB6FAB3AD6FAEC, 0x6C44198C4A475817]

/-- The initial hash value. -/
def shaInit : List W64 := (
  [0x6A09E667F3BCC908, 0xBB67AE8584CAA73B, 0x3C6EF372FE94F82B, 0xA54FF53A5F1D36F1] ++
  [0x510E527FADE682D1, 0x9B05688C2B3E6C1F, 0x1F83D9ABFB41BD6B, 0x5BE0CD19137E2179]).map (BitVec.ofNat 64)

def shaS0 (x : W64) : W64 := x.rotateRight 28 ^^^ x.rotateRight 34 ^^^ x.rotateRight 39
def shaS1 (x : W64) : W64 := x.rotateRight 14 ^^^ x.rotateRight 18 ^^^ x.rotateRight 41
def shaT0 (x : W64) : W64 := x.rotateRight 1 ^^^ x.rotateRight 8 ^^^ (x >>> 7)
def shaT1 (x : W64) : W64 := x.rotateRight 19 ^^^ x.rotateRight 61 ^^^ (x >>> 6)

/-- The message schedule, newest word first, from the sixteen words of a block, newest first. -/
def shaSchedule : Nat → List W64 → List W64
  | 0, ws => ws
  | n + 1, ws =>
    let w (i : Nat) : W64 := ws.getD (i - 1) 0#64
    shaSchedule n ((shaT1 (w 2) + w 7 + shaT0 (w 15) + w 16) :: ws)

/-- The eight working values. -/
structure ShaRegs where
  a : W64
  b : W64
  c : W64
  d : W64
  e : W64
  f : W64
  g : W64
  h : W64

/-- One round. -/
def ShaRegs.round (r : ShaRegs) (k w : W64) : ShaRegs :=
  let t1 := r.h + shaS1 r.e + ((r.e &&& r.f) ^^^ (~~~r.e &&& r.g)) + k + w
  let t2 := shaS0 r.a + ((r.a &&& r.b) ^^^ (r.a &&& r.c) ^^^ (r.b &&& r.c))
  ⟨t1 + t2, r.a, r.b, r.c, r.d + t1, r.e, r.f, r.g⟩

/-- One block of sixteen words. -/
def shaBlock (hs : List W64) (ws : List W64) : List W64 :=
  let v (i : Nat) : W64 := hs.getD i 0#64
  let r := ((shaSchedule 64 ws.reverse).reverse.zip shaK).foldl (fun (r : ShaRegs) x => r.round (BitVec.ofNat 64 x.2) x.1)
    ⟨v 0, v 1, v 2, v 3, v 4, v 5, v 6, v 7⟩
  (hs.zip [r.a, r.b, r.c, r.d, r.e, r.f, r.g, r.h]).map (fun x => x.1 + x.2)

/-- Bytes, highest first, as one number. -/
def beNat (bs : List Byte) : Nat := bs.foldl (fun n b => 256 * n + b.toNat) 0
/-- The n lowest bytes of a number, highest first. -/
def beBytes (n v : Nat) : List Byte := (leBytes n v).reverse

/-- Blocks of a padded message. -/
def shaBlocks : Nat → List Byte → List W64 → List W64
  | 0, _, hs => hs
  | n + 1, bs, hs =>
    shaBlocks n (bs.drop 128) (shaBlock hs ((List.range 16).map (fun i => BitVec.ofNat 64 (beNat ((bs.drop (8 * i)).take 8)))))

/-- The 64-byte digest of a message. -/
def sha512 (bs : List Byte) : List Byte :=
  let n := bs.length
  let pad := (239 - n % 128) % 128
  let msg := bs ++ [0x80#8] ++ List.replicate pad 0#8 ++ beBytes 16 (8 * n)
  (shaBlocks (msg.length / 128) msg shaInit).flatMap (fun w => beBytes 8 w.toNat)

/-! ### RSASSA-PKCS1-v1_5 -/

/-- n squarings. -/
def squarings : Nat → Nat → Nat → Nat
  | 0, x, _ => x
  | n + 1, x, m => squarings n (x * x % m) m

/-- The public operation with exponent 65,537 (log 44). -/
def rsaPublic (s n : Nat) : Nat := if n = 0 then 0 else squarings 16 (s % n) n * s % n

/-- The encoded message of a SHA-512 digest, 512 bytes. -/
def pkcs1 (digest : List Byte) : List Byte :=
  let info : List Byte := [0x30, 0x51, 0x30, 0x0D, 0x06, 0x09, 0x60, 0x86, 0x48, 0x01, 0x65, 0x03, 0x04, 0x02, 0x03, 0x05, 0x00, 0x04, 0x40] ++ digest
  [0x00#8, 0x01#8] ++ List.replicate (512 - 3 - info.length) 0xFF#8 ++ [0x00#8] ++ info

/-- The signature of a digest verifies under a key. -/
def rsaVerify (key : BitVec 4096) (sig : List Byte) (digest : List Byte) : Bool :=
  sig.length == 512 && decide (beNat sig < key.toNat) && beBytes 512 (rsaPublic (beNat sig) key.toNat) == pkcs1 digest

/-! ### The device's own keys (R359; log 6) -/

/-- An RSA-4096 pair: the public modulus and the private exponent. -/
structure RsaPair where
  modulus : BitVec 4096
  priv : Nat

/-- The pair of two primes, with public exponent 65,537: the private one inverts it modulo the least common multiple of p − 1 and q − 1
(RFC 8017). -/
def RsaPair.of (pq : Nat × Nat) : RsaPair :=
  ⟨BitVec.ofNat 4096 (pq.1 * pq.2), (Nat.gcdA 65537 (Nat.lcm (pq.1 - 1) (pq.2 - 1)) % (Nat.lcm (pq.1 - 1) (pq.2 - 1) : Nat)).toNat⟩

/-- x to the power e modulo n, over the bits of e from the highest of 4,096. -/
def powMod (x e n : Nat) : Nat :=
  (List.range 4096).foldr (fun i r => let s := r * r % n; if e.testBit i then s * x % n else s) (1 % n)

/-- RSASSA-PKCS1-v1_5 with SHA-512 over a message (R260, R359, R360). -/
def RsaPair.sign (k : RsaPair) (msg : List Byte) : List Byte := beBytes 512 (powMod (beNat (pkcs1 (sha512 msg))) k.priv k.modulus.toNat)

/-- The identity key, and the export key of a firmware security version. -/
def identityKey : RsaPair := RsaPair.of Config.identityPrimes
def exportKey (version : Nat) : RsaPair := RsaPair.of (Config.exportPrimes version)

/-- A certificate: what it says of a key, then its signature (log 60). -/
def certOf (n : Nat) (key by_ : RsaPair) : List Byte := Config.certBody n key.modulus ++ by_.sign (Config.certBody n key.modulus)

end Sys2Proof.Machine
end

