-- ==== Sys2Proof/Machine/Record.lean ====
section
/-! DEFINITION. The parts of a context block that a slot's save writes, and what changes there while the slot is saved (R305 Tables 6
and 7, R307, R363, R370). -/

namespace Sys2Proof.Machine

/-- The state code of a slot record. -/
def Slot.saveCode (s : Slot) : Nat :=
  match s.st with
  | .held .trap => 2
  | .held .debug | .held .lost => 3
  | .waiting _ | .held (.preempt true) => 1
  | .free | .ready | .seated _ | .held (.preempt false) => 0

/-- The state of register j as Table 3 of R32 codes it. -/
def Slot.regCode (s : Slot) (j : Nat) : Nat :=
  if s.ops.any (fun o => o.vd.contains j) then 1 else
  match s.vst.get .present j with
  | .present => 0
  | .pending => 1
  | .unrestored => 2
  | .awaiting _ => 3

def bitNat (b : Bool) (i : Nat) : Nat := if b then 2 ^ i else 0

/-- The parts of a slot record that are not device-private, with their offsets. -/
def Slot.record' (s : Slot) : List (Nat × List Byte) :=
  [(0x000, leBytes 8 s.pc.toNat),
   (0x008, (List.range 16).flatMap (fun i => leBytes 8 (s.A i).toNat)),
   (0x088, (List.range 8).flatMap (fun i => leBytes 2 (s.K i).toNat)),
   (0x098, leBytes 4 s.tsw.toNat),
   (0x09C, leBytes 2 s.laneSet.toNat),
   (0x09E, leBytes 1 s.saveCode),
   (0x09F, leBytes 1 (bitNat s.wakeBit 0 + bitNat s.svcHeld 1 + bitNat s.svcWait 2)),
   (0x0A0, leBytes 8 s.frec0.toNat ++ leBytes 8 s.frec1.toNat ++ leBytes 8 s.frec2.toNat ++ leBytes 8 s.frec3.toNat),
   (0x0C0, (List.range 32).map (fun i => BitVec.ofNat 8 ((List.range 4).foldl (fun a k => a + 4 ^ k * s.regCode (4 * i + k)) 0))),
   (0x0E0, leBytes 8 s.gtid.toNat),
   (0x200, (List.range 128).flatMap (fun i => leBytes 4 (s.rot.get 0#32 i).toNat))]

/-- The record of slot n and the register-file entries of its window, in the block at address a; a FREE slot's record is zero. -/
def slotCells (a n : Nat) (s : Slot) : List Host.Cell :=
  let r := a + 0x140000 + 2048 * n
  cellsAt r (List.replicate 2048 0#8) ++
  (if s.st == .free then [] else
    (s.record'.flatMap (fun f => cellsAt (r + f.1) f.2)) ++
    (List.range s.winCount).flatMap (fun j => cellsAt (a + 0x160000 + 64 * (s.winBase + j)) (vecBytes (s.V j))))

/-- The block of core h of a terrace (R303). -/
def Terrace.block (t : Terrace) (area : W64) (h : Nat) : Nat := area.toNat + 2 ^ 21 * (h - t.base)

/-- Cells with those that log their pages on behalf of function f (R370). -/
def Dev.logged (d : Dev) (m : Memory) (f : Nat) (cells : List Host.Cell) : List Host.Cell :=
  (((cells.map (fun c => c.1 / 4096)).dedup).foldl (fun (r : Memory × List Host.Cell) p =>
    let cs := d.logCells r.1 f (4096 * p)
    (r.1.writeAll cs, r.2 ++ cs)) (m, [])).2 ++ cells

/-- Lines written whole are no longer poisoned (R363). -/
def Dev.clearPoison (d : Dev) (cells : List Host.Cell) : Dev :=
  { d with linePoison := d.linePoison.filter (fun p => !(List.range 128).all (fun i => cells.any (fun c => c.1 == p + i))) }

/-- Poison is kept on the lines that hold these addresses (R363). -/
def Dev.putPoison (d : Dev) (as : List Nat) : Dev :=
  as.foldl (fun d a => if d.linePoison.contains (lineOf a) then d else { d with linePoison := d.linePoison ++ [lineOf a] }) d

/-- The cells of a context block that change with a saved slot (R302, R307): none for a slot that stands on its core. -/
def Dev.awayCells (d d' : Dev) (m : Memory) (h n : Nat) : List Host.Cell :=
  if n < 64 then [] else
  let t := d.terrace (n / 64 - 1)
  let a := t.block t.area h
  let old := slotCells a (n % 64) (d.slot h n)
  let new := slotCells a (n % 64) (d'.slot h n)
  d.logged m t.vf (((old.zip new).filter (fun p => p.1 != p.2)).map (·.2))

end Sys2Proof.Machine
end

