-- ==== Sys2Proof/Machine/Landing.lean ====
section
/-! DEFINITION. Results that land (R15, R26, R28, R146, R256, R362) and groups that are released at a home (R142, R251, R254,
R277, R363, R370). -/

namespace Sys2Proof.Machine

/-! ### Results -/

/-- Word p of a lane's load: from its own access, or from the lane's first access. -/
def LongOp.word (o : LongOp) (l p : Nat) : W32 :=
  match o.acc.find? (fun a => a.lane == l && a.part == p) with
  | some a => Line.w32 a.line (a.va.toNat % 128)
  | none =>
    match o.acc.find? (fun a => a.lane == l) with
    | some a => Line.w32 a.line (a.va.toNat % 128 + 4 * p)
    | none => 0#32

/-- The vector results of an instruction whose accesses are answered: an ldkr's lane by lane (R204). -/
def LongOp.vectors (o : LongOp) : List (Nat × V512) :=
  match o.kind with
  | .gld d => [(d, ofLanes (fun l => o.word l 0))]
  | .gldx d => [(d, ofLanes (fun l => o.word l 0)), (d + 1, ofLanes (fun l => o.word l 1))]
  | .ldkr d off rot =>
    match o.acc with
    | hd :: row :: own => [(d, ofLanes (fun l => ldkrLane (hd.seen own l 2).from_ (row.seen own l 3).from_ off.toNat rot l))]
    | _ => [(d, 0#512)]
  | .kvlook _ _ | .rtab | .lease | .amo _ _ _ _ | .value => o.vres

/-- A result lands: the registers are present, with what the mask keeps (R15). -/
def Slot.landed (s : Slot) (o : LongOp) : Slot :=
  let s := o.vectors.foldl (fun s e => s.setVm e.1 o.mask o.kz e.2) s
  let s := o.ad.foldl (fun s a => s.setA a (((o.ares.find? (fun e => e.1 == a)).map (·.2)).getD 0#64)) s
  { s with ops := s.ops.filter (fun x => x.id != o.id), vst := ⟨s.vst.ents.filter (fun e => !o.vd.contains e.1)⟩ }

/-- The number under which a core keeps the poison of register r of a slot: its register-file entry, or beyond the file while the slot
is saved. -/
def Core.entryOf (c : Core) (n r : Nat) : Nat := if n < 64 then (c.slot n).winBase + r else 4096 * n + r

/-- A result that has all its data lands in its slot. A register written whole loses its poison. -/
def Dev.landResult (d : Dev) (h n op : Nat) : Dev :=
  match d.op? h n op with
  | none => d
  | some o =>
    if !o.fin then d else
    let whole := o.kz || o.mask == 0xFFFF#16
    let wr := o.vd.map ((d.core h).entryOf n)
    let d := if whole && !(d.core h).rfPoison.isEmpty then
        d.updCore h (fun c => { c with rfPoison := c.rfPoison.filter (fun e => !wr.contains e) }) else d
    (d.updSlot h n (fun s => s.landed o)).wakeSlot h n (· == .reply)

/-- The results of a long-latency instruction land; those of a saved slot in its context block as well, where their registers become
present (R307). -/
def execResultLanding (h n op : Nat) : State → Host.Outcome State Fault Refusal :=
  onMem (fun m d => let d' := d.landResult h n op; (d.awayCells d' m h n, d'))

/-! ### Releases at a home (R142) -/

/-- Who submits a launch by a store: the slot whose group it is, with its rank (R277). A slot that has gone holds none. -/
def Dev.submitterOf (d : Dev) (g : Grp) (t : Nat) : Submitter :=
  match g.fin.findSome? (fun f => match f with | .slot h n => some (h, n) | _ => none) with
  | some (h, n) =>
    let s := d.slot h n
    if s.st == .free then .slot t none else
    .slot (terrOf s.lk) ((d.ranksOf (terrOf s.lk) h n).head?.or (if d.isSup h n then some 0xFFFF else none))
  | none => .slot t none

/-- A line written to a launch doorbell (R277): the request in its first 64 bytes is taken. -/
def Dev.doorbell (d : Dev) (g : Grp) (l : GLine) : Dev :=
  let t := (l.pa - 0x7FE0000000000) / 4096
  if l.pa % 4096 ≠ 0 then d else
  d.first [.launchRequest t (l.data.setWidth 512) (l.mask.setWidth 64 == BitVec.allOnes 64) (d.submitterOf g t)]

/-- What a group's own tests at the home make of it (R251, R254): whether its lines are written, and what else happens. -/
def Dev.groupTest (m : Memory) (d : Dev) (g : Grp) (ls : List GLine) : Bool × Dev :=
  let hd : Line := match ls with | l :: _ => m.line l.pa | [] => 0#1024
  match g.fin with
  | .insert h n b e :: _ =>
    let es := (List.range 4).map (bucketEnt (d.bucket b))
    if es.any (fun x => entMatches x (entHash e) (entCtx e)) then (false, d.reply h n (.done 0#64))
    else
      match (List.range 4).find? (fun i => !entValid (bucketEnt (d.bucket b) i)) with
      | none => (false, d.reply h n (.done 2#64))
      | some i => (true, (d.setEnt b i e).reply h n (.done 1#64))
  | .pos h n :: _ =>
    if hRefs hd != 1#32 || hIns hd then (false, d.reply h n (.fail 0x72 4)) else (true, d.reply h n (.done 0#64))
  | _ => (true, d)

/-- A group is released at a home: its lines are written there, no longer pending, and what waited for them goes on. -/
def releaseAt (m : Memory) (d : Dev) (id q : Nat) : Memory × Dev :=
  match d.groups.find? (fun g => g.id == id) with
  | none => (m, d)
  | some g =>
    if g.phase != .two || !g.rel.contains q then (m, d) else
    let ls := g.at q
    match d.visit g.fn true (ls.map (·.pa)) with
    | (d, false) => (m, d.later 1 (.groupRelease id q))
    | (d, true) =>
      let t := d.groupTest m g ls
      let bells := ls.filter (fun l => isDoorbell l.pa)
      let r := writeLines g.fn (if t.1 then ls.filter (fun l => !isDoorbell l.pa) else []) m t.2
      let d := bells.foldl (fun d l => d.doorbell g l) r.2
      let d := (d.updHome q (fun x => { x with pend := x.pend.filter (fun e => e.2 != id) })).updGroup id (fun g => { g with rel := g.rel.filter (· != q) })
      let d := (ls.foldl (fun d l => d.unpin l.pa) d).serveHome q
      let d := ls.foldl (fun d l => d.grantNext r.1 l.pa) d
      (r.1, match d.groups.find? (fun g => g.id == id) with
        | some g => if g.rel.isEmpty then (d.retire r.1 g).settle r.1 else d
        | none => d)

/-- A group is released at a home (R142). -/
def execGroupRelease (g q : Nat) (s : State) : Host.Outcome State Fault Refusal :=
  let r := releaseAt s.mem s.dev g q
  .next ⟨r.1, r.2⟩

end Sys2Proof.Machine
end

