-- ==== Sys2Proof/Machine/Regroup.lean ====
section
/-! DEFINITION. Regrouping: split, refill, join and lanes over the continuation pool (R82 to R90). -/

namespace Sys2Proof.Machine

/-- The pool region of the slot's launch (R71, R82). -/
def Ctx.poolBase (c : Ctx) : Option Nat := ((c.d.core c.h).roleRegion c.s.lk 2).map rgnBase

/-- The live entries of a launch's pool. -/
def Core.poolOf (c : Core) (lk : Nat) : List PoolEnt := c.pool.filter (fun e => e.lk == lk)

/-- The oldest entry of a target for a launch and a kind. -/
def Core.oldest (c : Core) (lk : Nat) (tgt : W64) (k : Kind) : Option PoolEnt :=
  let es := (c.poolOf lk).filter (fun e => e.tgt == tgt && e.kind == k)
  es.find? (fun e => es.all (fun x => decide (e.order ≤ x.order)))

/-- The columns of an entry written into one lane, and its task bound there. -/
def Slot.fillLane (s : Slot) (c : Core) (base l : Nat) (e : PoolEnt) : Slot :=
  let s := (List.range e.n).foldl (fun s j =>
    s.setV (e.vlo + j) (maskV (1#16 <<< l) false (s.V (e.vlo + j)) (ofLanes (fun _ => c.word (base + 64 * e.idx + 4 * j))))) s
  { s with laneSet := s.laneSet ||| (1#16 <<< l), tasks := if e.task == 0#32 then s.tasks else s.tasks.put l e.task }

/-- The register-file entries to which poisoned words of a pool entry go (R363). -/
def Slot.fillPoison (s : Slot) (c : Core) (base : Nat) (e : PoolEnt) : List Nat :=
  ((List.range e.n).filter (fun j => c.lsPoison.contains ((base + 64 * e.idx + 4 * j) / 4))).map (fun j => s.winBase + (e.vlo + j))

/-- The empty lanes of a slot filled from the entries of a target, ascending: the core, the slot, the lanes filled. Poison goes with the
words (R363). -/
def fillLanes (base : Nat) (tgt : W64) : List Nat → Core × Slot × BitVec 16 → Core × Slot × BitVec 16
  | [], x => x
  | l :: r, (c, s, f) =>
    match c.oldest s.lk tgt s.kind with
    | none => (c, s, f)
    | some e => fillLanes base tgt r ({ c with pool := c.pool.erase e, rfPoison := c.rfPoison ++ s.fillPoison c base e }, s.fillLane c base l e, f ||| (1#16 <<< l))

/-- Refill of slot n of a core from a target (R85). -/
def Dev.fill (d : Dev) (h n base : Nat) (tgt : W64) : Dev × BitVec 16 :=
  let s := d.slot h n
  let r := fillLanes base tgt (lanesOf (~~~s.laneSet)) (d.core h, s, 0#16)
  let d := (d.updCore h (fun _ => r.1)).setSlot h n r.2.1
  (if r.2.2 = 0#16 then d else d.wake h (fun _ _ w => w == .pool), r.2.2)

/-- The entries of a target that a number of lanes would take, the oldest first. -/
def Core.takes (c : Core) (lk : Nat) (tgt : W64) (k : Kind) (lanes : Nat) : List PoolEnt :=
  (((c.poolOf lk).filter (fun e => e.tgt == tgt && e.kind == k)).foldl (fun acc e =>
    acc.takeWhile (fun x => decide (x.order ≤ e.order)) ++ e :: acc.dropWhile (fun x => decide (x.order ≤ e.order))) []).take lanes

/-- The vector registers that a refill from a target will write: those of the entries it takes (R85). -/
def Ctx.refillRegs (c : Ctx) (tgt : W64) : List RegUse :=
  ((c.d.core c.h).takes c.s.lk tgt c.s.kind (popcount (~~~c.s.laneSet))).flatMap (fun e => (List.range e.n).map (fun j => wvn (e.vlo + j)))

/-- A slot waiting in a join at a target. -/
def joinsAt (lk : Nat) (k : Kind) (tgt : W64) (e : Nat × Slot) : Bool :=
  match e.2.st with
  | .waiting (.join t _) => t == tgt && e.2.lk == lk && e.2.kind == k
  | _ => false

/-- Deliver(tgt) (R86): waiting joins are filled, the longest-waiting first; those then covered become READY. -/
def Dev.deliverTo (d : Dev) (h base lk : Nat) (k : Kind) (tgt : W64) : Dev :=
  let ws := (d.core h).slots.ents.filter (joinsAt lk k tgt)
  let asc := ws.foldl (fun acc e => acc.takeWhile (fun x => decide (x.2.readyAt ≤ e.2.readyAt)) ++ e ::
    acc.dropWhile (fun x => decide (x.2.readyAt ≤ e.2.readyAt))) []
  asc.foldl (fun d e =>
    let d := (d.fill h e.1 base tgt).1
    let s := d.slot h e.1
    match s.st with
    | .waiting (.join _ m) => if s.laneSet &&& m = m then d.ready h e.1 else d
    | _ => d) d

/-- split (R84). Of the free entries the lowest indices are taken, in lane order (DESIGN CHOICE, log 65: R84 names no order). -/
def execSplit (km : KReg) (d : VReg) (n : BitVec 7) (imm : W32) : State → Host.Outcome State Fault Refusal :=
  thread ⟨[d.toNat], if n = 0#7 then [] else [d.toNat + n.toNat - 1], (List.range n.toNat).map (fun j => rvn (d.toNat + j)) ++ [rk km],
      none, .all, false⟩ (fun c =>
    let tgt := branchTarget c.s.pc imm
    match c.poolBase with
    | none => c.faultAt 0x04 2 tgt
    | some base =>
      let set := c.s.K km.toNat &&& c.s.laneSet
      if set = 0#16 then .done c.d else
      let k := c.d.core c.h
      if k.unrestoredIn base (base + 65536) then .skip c.d else
      let mine := k.poolOf c.s.lk
      let free := (List.range 1024).filter (fun i => !mine.any (fun e => e.idx == i))
      let tgts := (mine.map (·.tgt)).dedup
      if free.length < popcount set || (!tgts.contains tgt && decide (64 ≤ tgts.length)) then .wait c.d .pool
      else
        let ls := (lanesOf set).zip free
        let ents : List PoolEnt := ls.map (fun x =>
          ⟨x.2, c.s.lk, tgt, d.toNat, n.toNat, c.s.kind, (c.s.tasks.find? x.1).getD 0#32, c.d.count + x.1⟩)
        let k := ls.foldl (fun k x => k.putWords (base + 64 * x.2)
          ((List.range 16).map (fun j => if j < n.toNat then lane (c.s.V (d.toNat + j)) x.1 else 0#32))) k
        let s := { c.s with laneSet := c.s.laneSet &&& ~~~set, tasks := ⟨c.s.tasks.ents.filter (fun e => !set.getLsbD e.1)⟩ }
        let dv := ({ c.d.updCore c.h (fun _ => { k with pool := k.pool ++ ents }) with count := c.d.count + 16 }).setSlot c.h c.n s
        .done (dv.deliverTo c.h base c.s.lk c.s.kind tgt))

/-- refill (R85). -/
def execRefill (d : KReg) (imm : W32) : State → Host.Outcome State Fault Refusal :=
  thread (useA [wk d]) (fun c =>
    let tgt := branchTarget c.s.pc imm
    match c.poolBase with
    | none => c.faultAt 0x04 2 tgt
    | some base =>
      match c.gate (useA (c.refillRegs tgt)) with
      | some r => r
      | none =>
        if (c.d.core c.h).unrestoredIn base (base + 65536) then .skip c.d else
        let r := c.d.fill c.h c.n base tgt
        .done (r.1.updSlot c.h c.n (fun s => s.setK d.toNat r.2)))

/-- join (R86). -/
def execJoin (a : KReg) : State → Host.Outcome State Fault Refusal :=
  thread (useA [rk a]) (fun c =>
    match c.poolBase with
    | none => c.faultAt 0x04 2 c.s.pc
    | some base =>
      if c.s.ops.any (fun o => !o.vd.isEmpty) || (c.d.core c.h).unrestoredIn base (base + 65536) then .skip c.d else
      match (c.refillRegs c.s.pc).findSome? c.s.blockOf with
      | some (.unrestored g) => .skip (c.d.later 1 (.granuleRefill c.h c.n g))
      | some _ => .skip c.d
      | none =>
        let d := (c.d.fill c.h c.n base c.s.pc).1
        let m := c.s.K a.toNat
        if (d.slot c.h c.n).laneSet &&& m = m then .done d else .wait d (.join c.s.pc m))

/-- lanes (R87). -/
def execLanes (d : KReg) : State → Host.Outcome State Fault Refusal :=
  regForm (useA [wk d]) (fun s => s.setK d.toNat s.laneSet)

end Sys2Proof.Machine
end

