-- ==== Sys2Proof/Machine/Launch.lean ====
section
/-! DEFINITION. The launch controller: requests, images, placement, start, completion and successors (R70, R71, R112, R116, R216,
R275 to R289, R325). -/

namespace Sys2Proof.Machine

/-! ### Requests (R277, R278) -/

/-- A field of a request: n bytes from byte o. -/
def reqField (r : V512) (o n : Nat) : Nat := (r.toNat / 2 ^ (8 * o)) % 2 ^ (8 * n)

/-- Cores of an interval of a SIZE code; none for a code that names none. -/
def sizeCores (s : Nat) : Option Nat :=
  if s ≤ 8 then some (2 ^ s) else if 0x12 ≤ s ∧ s ≤ 0x19 then some (256 * (s - 16)) else none

/-- The launch that a request asks for in terrace t, as the controller keeps it. -/
def launchOf (d : Dev) (t : Nat) (r : V512) (sub : Submitter) : Launch where
  st := .pending
  order := d.count
  terr := t
  lnum := reqField r 20 2
  image := BitVec.ofNat 64 (reqField r 0 8)
  data := BitVec.ofNat 64 (reqField r 8 8)
  first := (d.terrace t).base + reqField r 16 2
  len := (sizeCores (reqField r 18 1)).getD 0
  prio := reqField r 19 1
  succ := if reqField r 22 2 ≥ 2 ^ 15 then some (reqField r 22 2 % 1024) else none
  rankBase := reqField r 24 2
  exportA := BitVec.ofNat 64 (reqField r 32 8)
  sub := sub
  read := false
  nslots := 0
  nseats := 0
  nregs := 0
  flags := 0
  tmask := 0
  codeOff := 0
  dataOff := 0
  dataLen := 0
  entries := []
  lives := []
  maps := []
  tables := .empty
  resv := .empty
  serial := 0
  ordered := none
  horizon := 0
  known := 0
  retain := []
  out := false
  predOf := none
  succDone := false
  round := none
  retryAt := 0
  reported := none
  grps := []
  ending := none
  dropped := 0
  flushAt := 0
  expbad := 0
  noFlush := false

/-- The limits of Table 3. -/
def requestOk (r : V512) : Bool :=
  let succ := reqField r 22 2
  reqField r 0 8 % 4096 == 0 && reqField r 8 8 % 4096 == 0 && (sizeCores (reqField r 18 1)).isSome && decide (reqField r 19 1 ≤ 7) &&
  decide (reqField r 20 2 ≤ 1023) && succ / 1024 % 32 == 0 && reqField r 26 6 == 0 && reqField r 40 24 == 0

/-- The interval keeps R278 inside its terrace. -/
def Dev.intervalOk (d : Dev) (l : Launch) (size off : Nat) : Bool :=
  let t := d.terrace l.terr
  (if size ≤ 8 then off % 2 ^ size == 0 else l.first % 256 == 0) && decide (off + l.len ≤ t.len) && decide (l.rankBase + l.len ≤ 4096) &&
  !(d.launches.ents.any (fun e => e.2.terr == l.terr && (e.2.lnum == l.lnum ||
    (decide (e.2.rankBase < l.rankBase + l.len) && decide (l.rankBase < e.2.rankBase + e.2.len)))))

/-- The code with which a request is refused at acceptance, or 0 (R280). -/
def Dev.requestCode (d : Dev) (t : Nat) (r : V512) (full : Bool) (l : Launch) : Nat :=
  if !full || !requestOk r then 1
  else if (d.terrace t).state == 0 || !d.intervalOk l (reqField r 18 1) (reqField r 16 2) then 2 else 0

/-! ### Records (R287) -/

/-- The 64-byte launch record of Table 6. -/
def launchRecord (l : Launch) (status : Nat) (flush : Bool) : V512 :=
  0#320 ++ l.image ++ l.expbad ++ BitVec.ofNat 16 (min l.dropped 0xFFFF) ++ BitVec.ofNat 8 (if flush then 1 else 0) ++ BitVec.ofNat 8 l.terr ++
    BitVec.ofNat 16 l.lnum ++ BitVec.ofNat 16 status ++ 2#32

/-- The record goes to the submitting mailbox. -/
def Dev.sendRecord (d : Dev) (l : Launch) (status : Nat) (flush : Bool) : Dev :=
  d.send 0 (.messageArrival ⟨l.mailTerr, l.mailbox, launchRecord l status flush, 0xFFFE, l.first % 4096, none, none⟩)

/-- A request reaches the controller (R277, R280). A predecessor that completed before with retained banks makes it a named
successor whose predecessor is done. A doorbell in another function's space is dropped (R349). -/
def execLaunchRequest (t : Nat) (req : V512) (full : Bool) (sub : Submitter) : State → Host.Outcome State Fault Refusal :=
  onDev (fun _ d =>
    let mine := match sub with | .host f => (d.terrace t).vf == f | .slot _ _ => true
    if d.up = false ∨ mine = false then d else
    let l := launchOf d t req sub
    let code := d.requestCode t req full l
    let d := { d with count := d.count + 1 }
    if code ≠ 0 then d.sendRecord l code false else
    let pred := (d.launches.ents.find? (fun e => e.2.terr == t && e.2.st == .retained && e.2.succ == some l.lnum)).map (·.1)
    { d with launches := d.launches.put (1024 * t + l.lnum) { l with predOf := pred, succDone := pred.isSome } })

/-! ### The controller's accesses (R325) -/

/-- What an access of the controller comes to. -/
inductive Ctl (α : Type) where
  | ok (x : α) (d : Dev)
  | wait (d : Dev)
  | refused (d : Dev) (cause sub : Nat) (va : Nat)

/-- The controller meets PAGE or a protection failure: it reports a page once, and tries again in 4,096 cycles. -/
def Dev.ctlBlocked (d : Dev) (lk cause sub va : Nat) : Dev :=
  match d.launch? lk with
  | none => d
  | some l =>
    let d := if l.reported == some (va / 4096) then d else d.agentReport l.first lk cause sub (BitVec.ofNat 64 va)
    d.updLaunch lk (fun l => { l with retryAt := d.clock + 4096, reported := some (va / 4096) })

/-- The physical addresses of the lines of a range, with their virtual addresses: with the terrace's rights, as an agent of the
launch's first core. -/
def Dev.ctlLines (m : Memory) (d : Dev) (lk first : Nat) (need : Right) (va n : Nat) : Ctl (List (Nat × Nat)) :=
  let who : Who := ⟨first, terrOf lk, false, false⟩
  let vas := if n = 0 then [] else (List.range ((va + n - 1) / 128 - va / 128 + 1)).map (fun i => lineOf va + 128 * i)
  let go (a : Ctl (List (Nat × Nat))) (v : Nat) : Ctl (List (Nat × Nat)) :=
    match a with
    | .ok ps d =>
      let w : W64 := BitVec.ofNat 64 v
      if isWindow w then .refused d 0x21 8 v else
      match d.translate m who [need] w with
      | .ok pa l => .ok ((v, pa) :: ps) (d.fillPlb m who l.dom)
      | .miss => .wait (d.askFor who w)
      | .page sub => .refused (d.walkFailed m (d.fnOf lk) w) 0x20 sub v
      | .bad c b => .refused d c b v
    | x => x
  match vas.foldl go (.ok [] d) with
  | .ok ps d => .ok ps.reverse d
  | x => x

/-- The bytes of a range, each line read at its home on behalf of the terrace's function (R330); a pending line is waited for. -/
def Dev.ctlRead (m : Memory) (d : Dev) (lk first va n : Nat) : Ctl (List Byte) :=
  match d.ctlLines m lk first .r va n with
  | .ok ps d =>
    if ps.any (fun p => d.pending p.2) then .wait d else
    (match d.visit (d.fnOf lk) false (ps.map (·.2)) with
     | (d, true) => .ok (((ps.flatMap (fun p => m.bytes p.2 128)).drop (va % 128)).take n) d
     | (d, false) => .wait d)
  | .wait d => .wait d
  | .refused d c b v => .refused d c b v

/-- Bytes from an address cut into lines. -/
def cutLines : Nat → Nat → List Byte → List (Nat × Line × LineMask)
  | 0, _, _ => []
  | k + 1, va, bs =>
    if bs.isEmpty then [] else
    let n := min (128 - va % 128) bs.length
    let b := lineBytes va (leNat (bs.take n)) n
    (lineOf va, b.1, b.2) :: cutLines k (va + n) (bs.drop n)

/-- A range written as one group of the controller, under the physical function's mask (R330). -/
def Dev.ctlWrite (m : Memory) (d : Dev) (lk first va : Nat) (bs : List Byte) : Ctl Unit :=
  match d.ctlLines m lk first .w va bs.length with
  | .ok ps d =>
    let lines := ((cutLines (bs.length + 1) va bs).zip ps).map (fun x => (⟨x.1.1, x.2.2, x.1.2.1, x.1.2.2, none⟩ : GLine))
    if lines.isEmpty then .ok () d else
    let id := d.newGid
    .ok () ((d.addGroup m lines 32 first none [.nothing]).updLaunch lk (fun l => { l with grps := l.grps ++ [id] }))
  | .wait d => .wait d
  | .refused d c b v => .refused d c b v

/-! ### Images (R71, R279, R280) -/

/-- The map keeps R71: reserved bits and roles in every descriptor, the rest in the valid ones. -/
def mapOk (maps : List W32) (nslots : Nat) (tmask : BitVec 8) : Bool :=
  let vs := maps.filter rgnV
  let size (w : W32) : Nat := rgnEnd w - rgnBase w
  let commit := vs.filter (fun w => rgnRole w == 1)
  let pools := vs.filter (fun w => rgnRole w == 2)
  maps.all (fun w => decide (rgnRole w ≤ 2) && w.extractLsb' 8 8 == 0#8) &&
  vs.all (fun w => decide (rgnEnd w ≤ 2 ^ 20) && (rgnTbl w == 0 || tmask.getLsbD (rgnTbl w))) &&
  vs.zipIdx.all (fun a => vs.zipIdx.all (fun b => a.2 == b.2 || decide (rgnEnd a.1 ≤ rgnBase b.1) || decide (rgnEnd b.1 ≤ rgnBase a.1))) &&
  commit.length == 1 && commit.all (fun w => nslots != 0 && size w % nslots == 0 && size w / nslots % 1024 == 0 &&
    decide (1024 ≤ size w / nslots) && decide (size w / nslots ≤ 16384)) &&
  decide (pools.length ≤ 1) && pools.all (fun w => size w == 65536)

/-- Bytes of a list as a number. -/
def at_ (bs : List Byte) (o n : Nat) : Nat := leNat ((bs.drop o).take n)

/-- The launch with the fields of its image's header. -/
def Launch.withHeader (l : Launch) (h : List Byte) : Launch := { l with
  nslots := at_ h 6 1
  nseats := at_ h 7 1
  nregs := at_ h 8 1
  flags := BitVec.ofNat 8 (at_ h 9 1)
  tmask := BitVec.ofNat 8 (at_ h 10 1)
  codeOff := at_ h 16 4
  dataOff := at_ h 24 4
  dataLen := at_ h 28 4
  maps := (List.range 16).map (fun i => BitVec.ofNat 32 (at_ h (32 + 4 * i) 4)) }

/-- The header keeps Table 4 and the directives' limits. -/
def headerOk (l : Launch) (h : List Byte) : Bool :=
  at_ h 0 4 == 0x47390001 && at_ h 4 2 == 1 && decide (1 ≤ l.nslots) && decide (l.nslots ≤ 64) && decide (1 ≤ l.nseats) && decide (l.nseats ≤ 16) &&
  decide (l.nseats ≤ l.nslots) && l.nregs % 8 == 0 && decide (8 ≤ l.nregs) && decide (l.nregs ≤ 128) && l.flags.extractLsb' 4 4 == 0#4 &&
  !l.tmask.getLsbD 0 && decide (at_ h 11 1 ≤ 16) && decide (1 ≤ at_ h 12 2) && at_ h 14 2 == 0 && l.codeOff % 8 == 0 && (h.drop 96).all (· == 0#8)

/-- Tables of an image, by their numbers. -/
def tableNums (tmask : BitVec 8) : List Nat := (List.range 8).filter (fun n => n != 0 && tmask.getLsbD n)

/-- A table image of 288 bytes. -/
def tableOf (b : List Byte) : TGen where
  ents := ⟨(List.range 128).map (fun i => (i, BitVec.ofNat 16 (at_ b (2 * i) 2)))⟩
  rb := ⟨(List.range 8).map (fun i => (i, BitVec.ofNat 32 (at_ b (256 + 4 * i) 4)))⟩

/-- The table breaks the checks of tbld (R133). -/
def TGen.bad (t : TGen) : Bool := t.ents.ents.any (fun e => badEntry e.2) || t.rb.ents.any (fun e => badBase e.2)

/-- The launch with the tables, entries and live sets that follow its header. -/
def Launch.withBody (l : Launch) (h b : List Byte) : Launch :=
  let ts := tableNums l.tmask
  let e0 := 288 * ts.length
  let l0 := e0 + 4 * at_ h 12 2
  { l with
    tables := ⟨ts.zipIdx.map (fun t => (t.1, tableOf ((b.drop (288 * t.2)).take 288)))⟩
    entries := (List.range (at_ h 12 2)).map (fun i => at_ b (e0 + 4 * i) 4)
    lives := (List.range (at_ h 11 1)).map (fun i =>
      (BitVec.ofNat 128 (at_ b (l0 + 32 * i) 16), BitVec.ofNat 16 (at_ b (l0 + 32 * i + 16) 2), BitVec.ofNat 8 (at_ b (l0 + 32 * i + 18) 1))) }

/-- The launch is refused: it leaves the pending list, and its record is sent. -/
def Dev.refuse (d : Dev) (lk code : Nat) : Dev :=
  match d.launch? lk with
  | some l => { d.sendRecord { l with expbad := 0, dropped := 0 } code false with launches := d.launches.erase lk }
  | none => d

/-- Entries of an export list from one on are readable, up to its end (R288). -/
def Dev.exportReadable (m : Memory) (d : Dev) (lk first va : Nat) : Nat → Ctl Unit
  | 0 => .ok () d
  | n + 1 =>
    match d.ctlRead m lk first va 16 with
    | .ok bs d => if bs.all (· == 0xFF#8) then .ok () d else Dev.exportReadable m d lk first (va + 16) n
    | .wait d => .wait d
    | .refused d c b v => .refused d c b v

/-- What reading an image comes to: a part that cannot be read refuses the launch with a code. -/
def Dev.afterRead {α : Type} (d0 : Dev) (lk code : Nat) (c : Ctl α) (k : α → Dev → Dev) : Dev :=
  match c with
  | .ok x d => k x d
  | .wait d => d
  | .refused d cause sub va => if cause = 0x20 then d.ctlBlocked lk cause sub va else d0.refuse lk code

/-- A pending launch's image is read and checked (R280): the codes in the order of Table 5. -/
def Dev.readImage (m : Memory) (d : Dev) (lk : Nat) : Dev :=
  match d.launch? lk with
  | none => d
  | some l =>
    if l.read || decide (d.clock < l.retryAt) then d else
    let im := l.image.toNat
    d.afterRead lk 7 (d.ctlRead m lk l.first im 256) (fun h d =>
      let l := l.withHeader h
      let barred := (l.priv || l.recov) && !(d.terrace l.terr).privOk
      if !headerOk l h then d.refuse lk 3
      else if !mapOk l.maps l.nslots l.tmask then d.refuse lk 4
      else
        let n := 288 * (tableNums l.tmask).length + 4 * at_ h 12 2 + 32 * at_ h 11 1
        d.afterRead lk (if barred then 6 else 7) (d.ctlRead m lk l.first (im + 256) n) (fun b d =>
          let l := l.withBody h b
          if l.tables.ents.any (fun t => t.2.bad) then d.refuse lk 5
          else if barred then d.refuse lk 6
          else
            d.afterRead lk 7 (d.ctlLines m lk l.first .r (im + l.codeOff) (at_ h 20 4)) (fun _ d =>
              d.afterRead lk 7 (d.ctlLines m lk l.first .r (im + l.dataOff) l.dataLen) (fun _ d =>
                d.afterRead lk 7 (if l.exportA = 0#64 then .ok () d else d.exportReadable m lk l.first l.exportA.toNat 17) (fun _ d =>
                  if decide (2048 < l.nslots * l.nregs) || decide (16 < l.nseats) then d.refuse lk 8
                  else d.updLaunch lk (fun x => { l with read := true, predOf := x.predOf, succDone := x.succDone, reported := none, retryAt := 0 }))))))

/-! ### Placement (R281, R282) -/

/-- Numbers below n that are not among those given. -/
def freeNums (n : Nat) (used : List Nat) : List Nat := (List.range n).filter (fun i => !used.contains i)

/-- The lowest run of so many register-file entries that no other launch's run meets. -/
def freeRun (n : Nat) (runs : List (Nat × Nat)) : Option Nat :=
  let fits (b : Nat) : Bool := decide (b + n ≤ 2048) && runs.all (fun r => decide (b + n ≤ r.1) || decide (r.1 + r.2 ≤ b))
  leastOf ((0 :: runs.map (fun r => r.1 + r.2)).filter fits)

/-- What a launch would get on a core; none when it does not fit. The retained ranges of its predecessor are no obstacle. -/
def Dev.fitOn (d : Dev) (lk : Nat) (l : Launch) (h : Nat) : Option Resv :=
  let others := (d.holders h).filter (fun e => e.1 != lk && e.2.st != .retained)
  let slots := freeNums 64 (others.flatMap (fun e => (e.2.resvOn h).slots))
  let seats := freeNums 16 (others.flatMap (fun e => (e.2.resvOn h).seats))
  let run := freeRun (l.nslots * l.nregs) (others.map (fun e => ((e.2.resvOn h).rbase, e.2.nslots * e.2.nregs)))
  let regs := (d.core h).map.ents.filter (fun e => rgnV e.2 && e.1 / 16 != lk && some (e.1 / 16) != l.predOf)
  let clash := regs.any (fun e => l.maps.any (fun w => rgnV w && decide (rgnBase w < rgnEnd e.2) && decide (rgnBase e.2 < rgnEnd w)))
  let tabs := others.any (fun e => e.2.tmask &&& l.tmask != 0#8)
  let queue := l.flags.getLsbD 2 && others.any (fun e => e.2.flags.getLsbD 2)
  match run with
  | none => none
  | some b =>
    if slots.length < l.nslots || seats.length < l.nseats || clash || tabs || queue then none
    else some ⟨slots.take l.nslots, seats.take l.nseats, b⟩

/-- The cores of a launch's interval. -/
def Launch.cores (l : Launch) : List Nat := (List.range l.len).map (fun i => l.first + i)

/-- A launch is placed (R281): its reservations, its map and its tables are its own on every core at once. -/
def Dev.placeOn (d : Dev) (lk : Nat) (l : Launch) (rs : List (Nat × Resv)) : Dev :=
  let d := d.updLaunch lk (fun l => { l with st := .placed, resv := ⟨rs⟩ })
  rs.foldl (fun d r => d.updCore r.1 (fun c => { c with
    map := l.maps.zipIdx.foldl (fun m w => m.put (16 * lk + w.2) w.1) c.map
    tlk := (tableNums l.tmask).foldl (fun m n => m.put n lk) c.tlk })) d

/-- The launch is named as successor by a resident launch of its terrace. -/
def Dev.awaited (d : Dev) (l : Launch) : Bool :=
  d.launches.ents.any (fun e => e.2.terr == l.terr && (e.2.st == .resident || e.2.st == .placed) && e.2.succ == some l.lnum)

/-- The pending launches in the order of R282. -/
def Dev.pendingOrder (d : Dev) : List (Nat × Launch) :=
  let k (e : Nat × Launch) : Nat × Nat × Nat := (if e.2.succDone then 0 else 1, 7 - e.2.prio, e.2.order)
  let le (a b : Nat × Launch) : Bool :=
    let x := k a; let y := k b
    decide (x.1 < y.1) || (x.1 == y.1 && (decide (x.2.1 < y.2.1) || (x.2.1 == y.2.1 && decide (x.2.2 ≤ y.2.2))))
  (d.launches.ents.filter (fun e => e.2.st == .pending)).foldl (fun acc e => acc.takeWhile (fun x => le x e) ++ e :: acc.dropWhile (fun x => le x e)) []

/-- One request considered: placed, passed over, or holding its cores against later ones, which a successor of step 1 is not held by. -/
def placeOne (a : Dev × List (Nat × Nat)) (e : Nat × Launch) : Dev × List (Nat × Nat) :=
  let d := a.1
  let l := e.2
  let t := d.terrace l.terr
  let shares := a.2.any (fun r => decide (r.1 < l.first + l.len) && decide (l.first < r.1 + r.2))
  if t.state != 1 || (!l.succDone && d.awaited l) then a
  else if !l.succDone && shares then (d, a.2 ++ [(l.first, l.len)])
  else
    let rs := l.cores.map (fun h => (h, d.fitOn e.1 l h))
    let inside := decide (t.base ≤ l.first) && decide (l.first + l.len ≤ t.base + t.len)
    if l.read && inside && rs.all (fun r => r.2.isSome) then
      (d.placeOn e.1 l (rs.filterMap (fun r => r.2.map (fun x => (r.1, x)))), a.2)
    else (d, a.2 ++ [(l.first, l.len)])

/-- The controller reads the images of pending launches, and places those that fit (R282). -/
def execPlacement : State → Host.Outcome State Fault Refusal :=
  onDev (fun m d =>
    let d := (d.launches.ents.filter (fun e => e.2.st == .pending)).foldl (fun d e => d.readImage m e.1) d
    (d.pendingOrder.foldl placeOne (d, [])).1)

/-! ### Start (R284, R285) -/

/-- Words of a region zeroed with their tags, but those kept. -/
def Core.zeroRegion (c : Core) (w : W32) (keep : Nat → Bool) : Core :=
  let gone (i : Nat) : Bool := decide (rgnBase w ≤ 4 * i) && decide (4 * i < rgnEnd w) && !keep (4 * i)
  { c with
    words := ⟨c.words.ents.filter (fun e => !gone e.1)⟩
    tags := ⟨c.tags.ents.filter (fun e => !gone e.1)⟩
    lsPoison := c.lsPoison.filter (fun i => !gone i) }

/-- The predecessor's banks come to the launch: its interval lies in the district of the predecessor's first core (R289). -/
def keepsBanks (l p : Launch) : Bool := districtOf l.first == districtOf p.first && districtOf (l.first + l.len - 1) == districtOf p.first

/-- The local addresses that core h keeps for a launch from its predecessor. -/
def Dev.kept (d : Dev) (l : Launch) (h : Nat) (a : Nat) : Bool :=
  match l.predOf.bind (fun p => (d.launch? p).map (fun x => (p, x))) with
  | some (p, x) => x.retain.contains h && keepsBanks l x &&
      (d.core h).map.ents.any (fun e => e.1 / 16 == p && rgnV e.2 && rgnRole e.2 == 0 && decide (rgnBase e.2 ≤ a) && decide (a < rgnEnd e.2))
  | none => false

/-- Tables written into both generations, generation 0 in force; regions zeroed; the queues' counts zero (R216, R284). -/
def Dev.loadCore (d : Dev) (lk : Nat) (l : Launch) (h : Nat) : Dev :=
  let keep := d.kept l h
  d.updCore h (fun c =>
    let c := l.tables.ents.foldl (fun c t => { c with
      gen0 := c.gen0.put t.1 t.2, gen1 := c.gen1.put t.1 t.2, tbgen := c.tbgen &&& ~~~(1#8 <<< t.1) }) c
    let c := (l.maps.filter rgnV).foldl (fun c w => c.zeroRegion w (fun a => rgnRole w == 0 && keep a)) c
    let zero (e : EQ) : EQ := { e with base := e.seqa }
    { c with
      mq := zero c.mq, cq := zero c.cq, dir := c.dir.filter (fun e =>
        !(l.maps.any (fun w => rgnV w && rgnRole w == 1 && decide (rgnBase w ≤ e.buf) && decide (e.buf < rgnEnd w)))),
      pool := c.pool.filter (fun e => e.lk != lk) })

/-- A predecessor that waited for its successor is gone: its map leaves its cores, and no pending successor takes them over. -/
def Dev.dropRetained (d : Dev) (p : Nat) : Dev :=
  match d.launch? p with
  | some x => if x.st == .retained then
      { x.cores.foldl (fun d h => d.updCore h (fun c => { c with map := ⟨c.map.ents.filter (fun e => e.1 / 16 != p)⟩ })) d with
        launches := ⟨(d.launches.erase p).ents.map (fun (e : Nat × Launch) =>
          if e.2.st == .pending && e.2.predOf == some p then (e.1, { e.2 with predOf := none }) else e)⟩
        saved := d.saved.map (fun y => { y with core := { y.core with map := ⟨y.core.map.ents.filter (fun e => e.1 / 16 != p)⟩ } }) } else d
  | none => d

/-- The threads of a launch start: ranks, then every launch thread READY in one cycle, each with an acquire (R284 steps 4, 5). -/
def Dev.startThreads (d : Dev) (lk : Nat) (l : Launch) : Dev :=
  let d := l.cores.foldl (fun d h =>
    match (l.resvOn h).slots with
    | n :: _ =>
      let d := d.setRank l.terr (l.rankBase + (h - l.first)) (rankFor h n)
      let d := d.newThread lk h 0 n .launch (l.code + BitVec.ofNat 64 (l.entries.headD 0)) (h - l.first) (fun s =>
        { s.setA 1 l.data with laneSet := 0xFFFF#16 })
      d.updCore h Core.acquire
    | [] => d) d
  d.updLaunch lk (fun l => { l with st := .resident, serial := l.len, grps := [], predOf := none })

/-- A placed launch is loaded (R284): its cores, then its data as one group, then its threads. -/
def execLaunchLoad (lk : Nat) : State → Host.Outcome State Fault Refusal :=
  onDev (fun m d =>
    match d.launch? lk with
    | none => d
    | some l =>
      if l.st != .placed || decide (d.clock < l.retryAt) then d else
      if !l.grps.isEmpty then
        (if d.groups.any (fun g => l.grps.contains g.id) then d else d.startThreads lk l)
      else
        let go (d : Dev) (bs : List Byte) : Dev :=
          match d.ctlWrite m lk l.first l.data.toNat bs with
          | .wait d => d
          | .refused d c b v => d.ctlBlocked lk c b v
          | .ok () d =>
            let d := l.cores.foldl (fun d h => d.loadCore lk l h) d
            let d := match l.predOf with | some p => d.dropRetained p | none => d
            if bs.isEmpty then d.startThreads lk l else d
        match d.ctlRead m lk l.first (l.image.toNat + l.dataOff) l.dataLen with
        | .wait d => d
        | .refused d c b v => d.ctlBlocked lk c b v
        | .ok bs d => go d bs)

/-! ### Completion (R190, R287 to R289) -/

/-- The launch has nothing left to do (R287). -/
def Dev.launchIdle (d : Dev) (lk : Nat) (l : Launch) : Bool :=
  let cores := d.launchCores lk
  let mine (e : EQ) : Bool := (e.q ++ e.live).any (fun c => c.lk == lk)
  cores.all (fun h =>
    let c := d.core h
    (l.resvOn h).slots.all (fun n => (c.slot n).st == .free) && c.away.ents.all (fun e => e.2.st == .free || e.2.lk != lk) && !mine c.mq && !mine c.cq && !d.isSaved lk h) &&
  (d.queues lk).all (fun e => e.2.chip.isEmpty && e.2.ring.isEmpty && e.2.waiting.isEmpty && e.2.inq.isEmpty && e.2.requeue.isEmpty) &&
  (l.ordered != some true || (d.running lk).isEmpty)

/-- Pool entries of the launch. -/
def Dev.poolCount (d : Dev) (lk : Nat) : Nat := (d.launchCores lk).foldl (fun k h => k + ((d.core h).poolOf lk).length) 0

/-- The named successor, if its request is pending. -/
def Dev.successorOf (d : Dev) (l : Launch) : Option Launch := (l.succ.bind (fun n => d.launch? (1024 * l.terr + n))).filter (fun s => s.st == .pending)

/-- The launch completes in this cycle: what remains in its pools is dropped, and its successor decides on the flush (R289). -/
def Dev.beginEnd (d : Dev) (lk : Nat) (l : Launch) : Dev :=
  let n := d.poolCount lk
  let d := (d.launchCores lk).foldl (fun d h => d.updCore h (fun c => { c with pool := c.pool.filter (fun e => e.lk != lk) })) d
  let d := (d.running lk).foldl (fun d t => d.dropTask lk t.d.id) d
  let same := match d.successorOf l with | some s => keepsBanks s l | none => false
  let other := match d.successorOf l with | some s => !keepsBanks s l | none => false
  d.updLaunch lk (fun x => { x with
    ending := some d.count, dropped := n, noFlush := same && !l.retain.isEmpty, retain := if other then [] else l.retain, grps := [] })

/-- A sealed object's bytes as they lie in the local store. -/
def Core.objBytes (c : Core) (o : Obj) : List Byte := (List.range (o.bytes / 4)).flatMap (fun i => leBytes 4 (c.word (o.base + 4 * i)).toNat)

/-- An entry of the export list: its object's bytes and its destination; none for an entry that is skipped (R288). -/
def Dev.exportEntry (d : Dev) (lk : Nat) (l : Launch) (e : List Byte) : Option (Nat × List Byte) :=
  let h := at_ e 0 2
  let i := at_ e 2 1
  let dst := at_ e 8 8
  let c := d.core (l.first + h)
  let o := c.obj i
  if decide (h < l.len) && decide (i < 64) && at_ e 3 5 == 0 && dst % 4 == 0 && o.st == .sealed_ && o.owner == lk
  then some (dst, c.objBytes o) else none

/-- One entry of the flush: copied as one group, or skipped. The list ends after 16 entries, or at one that is all ones. -/
def Dev.flushOne (m : Memory) (d : Dev) (lk : Nat) (l : Launch) : Dev :=
  let finish (d : Dev) : Dev := d.updLaunch lk (fun x => { x with flushAt := 17 })
  let next (d : Dev) : Dev := d.updLaunch lk (fun x => { x with flushAt := x.flushAt + 1 })
  if l.flushAt = 16 then finish d else
  match d.ctlRead m lk l.first (l.exportA.toNat + 16 * l.flushAt) 16 with
  | .wait d => d
  | .refused d c b v => d.ctlBlocked lk c b v
  | .ok e d =>
    if e.all (· == 0xFF#8) then finish d else
    match d.exportEntry lk l e with
    | none => next (d.updLaunch lk (fun x => { x with expbad := x.expbad ||| (1#32 <<< l.flushAt) }))
    | some (dst, bs) =>
      match d.ctlWrite m lk l.first dst bs with
      | .wait d => d
      | .refused d c b v => d.ctlBlocked lk c b v
      | .ok () d => next d

/-- What a launch held is free (R287 step 4): barriers with nothing pending, objects without transfers, its queue units, tables,
ranks, and its map but for the ROLE 0 ranges of cores that keep their banks. -/
def Dev.freeLaunch (d : Dev) (lk : Nat) (l : Launch) : Dev :=
  let d := (d.launchCores lk).foldl (fun d h =>
    let keep (w : W32) : Bool := l.retain.contains h && rgnV w && rgnRole w == 0
    let d := (d.core h).objs.ents.foldl (fun d o =>
      if o.2.owner == lk && o.2.ref == 0 then (d.dropSealed h o.2).updCore h (fun c => { c with objs := c.objs.erase o.1 }) else d) d
    d.updCore h (fun c => { c with
      map := ⟨c.map.ents.filter (fun e => e.1 / 16 != lk || keep e.2)⟩
      tlk := ⟨c.tlk.ents.filter (fun e => e.2 != lk)⟩
      bars := ⟨c.bars.ents.filter (fun b => !(b.2.owner == some lk && b.2.pend == 0))⟩
      tq := if c.tq.lk == some lk then .init else c.tq
      dir := c.dir })) d
  (List.range l.len).foldl (fun d i => dropRank d (l.rankBase + i)) d
where
  dropRank (d : Dev) (r : Nat) : Dev :=
    let e := d.rankEnt l.terr r
    if !rankV e then d else
    (d.setRank l.terr r 0#32).updCore (rankCore e) (fun c => { c with inbox := c.inbox.filter (fun m => !(m.terr == l.terr && m.rank == r)) })

/-- The record is sent and everything freed; a launch with retained banks stays until its successor is placed. -/
def Dev.endLaunch (m : Memory) (d : Dev) (lk : Nat) (l : Launch) : Dev :=
  let d := d.sendRecord l 0 (l.flushAt == 17)
  let a := Config.freeAddr d.count
  let d := { d with count := d.count + 1 }.traceRec m l.terr 5 0 l.first 0#32 (a.setWidth 48) (a.toNat / 2 ^ 48 % 64) (Config.freeAddr (d.count + 1))
  let d := d.freeLaunch lk l
  let d := match l.succ with
    | some n => d.updLaunch (1024 * l.terr + n) (fun (s : Launch) => if s.st == LSt.pending then
        { s with succDone := true, predOf := if l.retain.isEmpty then none else some lk } else s)
    | none => d
  if l.retain.isEmpty then { d with launches := d.launches.erase lk }
  else d.updLaunch lk (fun x => { x with st := .retained, resv := .empty, grps := [] })

/-- A launch completes (R287): its condition, then its groups, its flush, its record. -/
def execLaunchComplete (lk : Nat) : State → Host.Outcome State Fault Refusal :=
  onDev (fun m d =>
    match d.launch? lk with
    | none => d
    | some l =>
      if l.st != .resident || decide (d.clock < l.retryAt) then d else
      match l.ending with
      | none => if d.launchIdle lk l && !l.out then d.beginEnd lk l else d
      | some c =>
        if d.groups.any (fun g => decide (g.id < c) && l.has g.core) then d
        else if l.exportA ≠ 0#64 ∧ !l.noFlush ∧ l.flushAt < 17 then d.flushOne m lk l
        else if d.groups.any (fun g => l.grps.contains g.id) then d
        else d.endLaunch m lk l)

/-- System software withdraws a retained hold (R289): the ranges are free, and no record is sent. -/
def execRetainedHoldWithdrawal (lk : Nat) : State → Host.Outcome State Fault Refusal := onDev (fun _ d => d.dropRetained lk)

end Sys2Proof.Machine
end

