-- ==== Sys2Proof/Machine/System.lean ====
section
/-! DEFINITION. System forms: special registers, traps, breakpoints, eret, park, wake, spawn, kill, halt, shoot-downs, the
profiling forms, and what a core does with its slots and their registers (R21, R33, R35, R36, R76, R289, R290 to R302, R309 to
R312, R327, R340, R344, R345). -/

namespace Sys2Proof.Machine

/-! ### Special registers (R35, R296) -/

def Kind.code : Kind → Nat
  | .launch => 0 | .freeTask => 1 | .ordered => 2

/-- %ts: the timestamp of the task in the lowest lane that holds one. -/
def Dev.tsOf (d : Dev) (s : Slot) : W32 :=
  ((((lanesOf s.laneSet).findSome? (fun l => s.tasks.find? l)).bind (d.task? s.lk)).map (fun t => t.d.ts)).getD 0#32

/-- %mode. -/
def Dev.modeOf (d : Dev) (s : Slot) : W64 :=
  let spill := ((d.launch? s.lk).map Launch.spillOpt).getD false
  BitVec.ofNat 64 (s.kind.code + (if spill then 4 else 0) + (if d.profHolder == some (terrOf s.lk) then 8 else 0))

/-- A special register as mfs reads it. -/
def Ctx.sreg (c : Ctx) (r : SReg) : W64 :=
  match r with
  | .pc => c.s.pc
  | .tsw => c.s.tsw.setWidth 64
  | .gtid => c.s.gtid.setWidth 64
  | .core => BitVec.ofNat 64 c.h
  | .slot => BitVec.ofNat 64 c.n
  | .ts => (c.d.tsOf c.s).setWidth 64
  | .taskid => c.s.taskId.setWidth 64
  | .frec0 => c.s.frec0
  | .frec1 => c.s.frec1
  | .frec2 => c.s.frec2
  | .frec3 => c.s.frec3
  | .clock => BitVec.ofNat 64 c.d.clock
  | .tbgen => (c.d.core c.h).tbgen.setWidth 64
  | .mode => c.d.modeOf c.s

/-- mfs (R296). -/
def execMfs (sr : SReg) (d : AReg) : State → Host.Outcome State Fault Refusal :=
  thread (useA [wa d]) (fun c => c.done (c.s.setA d.toNat (c.sreg sr)))

/-- A write of a fault record register: none but a privileged slot may. -/
def Ctx.setRec (c : Ctx) (s : Slot) : Res := if c.s.priv then c.done s else c.faultAt 0x80 2 c.w

/-- mts (R296, R35, R36): a read-only register ignores it. -/
def execMts (sr : SReg) (a : AReg) : State → Host.Outcome State Fault Refusal :=
  thread (useA [ra a]) (fun c =>
    let v := c.s.A a.toNat
    match sr with
    | .tsw =>
      if !c.s.priv && tswPrivBreach c.s.tsw (v.setWidth 32) then c.faultAt 0x80 2 c.w
      else c.done { c.s with tsw := tswWrite c.s.tsw (v.setWidth 32) c.s.priv }
    | .frec0 => c.setRec { c.s with frec0 := v }
    | .frec1 => c.setRec { c.s with frec1 := v }
    | .frec2 => c.setRec { c.s with frec2 := v }
    | .frec3 => c.setRec { c.s with frec3 := v }
    | .pc | .gtid | .core | .slot | .ts | .taskid | .clock | .tbgen | .mode => .done c.d)

/-! ### Traps and breakpoints (R297) -/

/-- trap (R297). -/
def execTrap (a : AReg) (imm : W32) : State → Host.Outcome State Fault Refusal :=
  thread (useA [ra a]) (fun c => c.faultAt 0x81 (imm.toNat % 65536) (c.s.A a.toNat))

/-- brk (R297): a debugger stop in a held terrace, passed over once after CONT or STEP (R340); else a trap. -/
def execBrk : State → Host.Outcome State Fault Refusal :=
  thread (useA []) (fun c =>
    if !(c.d.terrace (terrOf c.s.lk)).dbg.hold then c.faultAt 0x81 0xFFFF 0#64
    else if c.s.bpPass == some c.s.pc then .done c.d
    else .left (((c.d.breakLeases c.h c.n 2 (fun _ => true)).hold c.h c.n .debug).traceSlot c.m c.h c.n 1))

/-! ### Slot commands (R298 to R302) -/

/-- Core and slot number of a slot name. -/
def nameCore (v : W64) : Nat := (v.extractLsb' 0 12).toNat
def nameSlot (v : W64) : Nat := (v.extractLsb' 12 6).toNat
/-- The name of a slot. -/
def slotName (h n : Nat) : W64 := BitVec.ofNat 64 (h + 4096 * n)

/-- The name's reserved bits are zero, and its core lies in the terrace (R302); a wake's kind stands in bits 19:18. -/
def Dev.nameOk (d : Dev) (t : Nat) (v : W64) (kind : Bool) : Bool :=
  v.extractLsb' 20 44 == 0#44 && (kind || v.extractLsb' 18 2 == 0#2) && (d.terrace t).has (nameCore v)

/-- A command goes to its slot's core, at most one arriving there in a cycle (R302). -/
def Dev.sendCmd (d : Dev) (c : SlotCmd) : Dev :=
  let ch := chanOf 9 c.h 0
  let due := max (d.clock + 1 + Config.latency d.count) (lastDue ch d.net + 1)
  { d with net := d.net ++ [⟨due, ch, .slotCommandArrival c⟩], count := d.count + 1 }

/-- A form that acts on a slot: sent to the slot's core, and answered from there while the issuer skips its turns. -/
def Ctx.askSlot (c : Ctx) (h n : Nat) (op : SlotOp) (operand : W64) (k : W64 → Res) : Res :=
  match c.s.reply with
  | .done v => k v
  | .fail cause sub => c.faultAt cause sub (if cause = 0x80 then c.w else operand)
  | .sent | .stale => .skip c.d
  | .idle => .skip ((c.d.updSlot c.h c.n (fun s => { s with reply := .sent })).sendCmd ⟨some (c.h, c.n), none, h, n, op⟩)

/-- Reserved bits of eret's flags (R298 Table 4). -/
def eretFlagsOk (f : W64) : Bool :=
  f.extractLsb' 12 52 == 0#52 && f.extractLsb' 2 2 == 0#2 && f.extractLsb' 0 2 != 3#2 &&
  (f.getLsbD 8 || (!f.getLsbD 9 && !f.getLsbD 10))

/-- eret (R298). -/
def execEret (a b cc : AReg) : State → Host.Outcome State Fault Refusal :=
  thread ((useA [ra a, ra b, ra cc]).privileged) (fun c =>
    let v := c.s.A a.toNat
    let f := c.s.A b.toNat
    if !c.d.nameOk (terrOf c.s.lk) v false then c.faultAt 0x82 1 v
    else if !eretFlagsOk f then c.faultAt 0x82 3 f
    else c.askSlot (nameCore v) (nameSlot v) (.eret f (c.s.A cc.toNat)) v (fun _ => .done c.d))

/-- park (R299). -/
def execPark : State → Host.Outcome State Fault Refusal :=
  thread (useA []) (fun c => if c.s.wakeBit then c.done { c.s with wakeBit := false } else .wait c.d .park)

/-- wake (R299). -/
def execWake (d a : AReg) : State → Host.Outcome State Fault Refusal :=
  specForm (useA [wa d, ra a]) (fun c =>
    let v := c.s.A a.toNat
    let kind := v.extractLsb' 18 2
    if !c.d.nameOk (terrOf c.s.lk) v true || kind == 2#2 || kind == 3#2 then c.faultAt 0x82 1 v
    else if kind == 1#2 && !c.s.priv then c.faultAt 0x80 3 c.w
    else c.askSlot (nameCore v) (nameSlot v) (.wake kind) v (fun r => c.done (c.s.setA d.toNat r)))

/-- spawn (R300). -/
def execSpawn (d a b cc : AReg) : State → Host.Outcome State Fault Refusal :=
  specForm (useA [wa d, ra a, ra b, ra cc]) (fun c =>
    let t : W64 := if b = 0#4 then BitVec.ofNat 64 c.h else c.s.A b.toNat
    let e := c.s.A a.toNat
    if t.extractLsb' 12 52 ≠ 0#52 ∨ ((c.d.launch? c.s.lk).map (fun l => l.has t.toNat)).getD false = false then c.faultAt 0x82 1 t
    else if ((c.d.launch? c.s.lk).map (fun l => l.entries.contains e.toNat)).getD false = false then c.faultAt 0x82 2 e
    else c.askSlot t.toNat 0 (.spawn e (c.s.A cc.toNat)) t (fun r => c.done (c.s.setA d.toNat r)))

/-! ### A slot that leaves requests behind -/

/-- The slot for which a request in flight waits to be answered. -/
def Ev.requester : Ev → Option (Nat × Nat)
  | .barrierArrival _ _ h n => some (h, n)
  | .messageArrival m => m.waiter
  | .messageRetry m => m.waiter
  | .taskPushArrival m => some (m.h, m.n)
  | .slotCommandArrival c => c.issuer
  | .depotPop _ _ h n => some (h, n)
  | .headerHomeTest (.free h n _ _) => some (h, n)
  | .migrArrival h n _ => some (h, n)
  | _ => none

/-- The pushes of a slot leave a queue. -/
def TQ.dropSlot (q : TQ) (h n : Nat) : TQ :=
  { q with waiting := q.waiting.filter (fun p => !(p.h == h && p.n == n)), inq := q.inq.filter (fun p => !(p.h == h && p.n == n)) }

/-- The slot's requests that nobody has acted on are withdrawn: messages, and pushes that wait at a queue. -/
def Dev.recall (d : Dev) (h n : Nat) : Dev :=
  let mine (e : Ev) : Bool := e.requester == some (h, n)
  let lk := (d.slot h n).lk
  let d : Dev := { d with
    net := d.net.filter (fun f => !mine f.e)
    saved := d.saved.map (fun x => if x.lks.contains lk then { x with core := { x.core with tq := x.core.tq.dropSlot h n } } else x) }
  (d.queues lk).foldl (fun d e => d.updTq e.1 (fun q => q.dropSlot h n)) d

/-- The slot has asked for something that nobody has acted on yet. -/
def Dev.asking (d : Dev) (h n : Nat) : Bool :=
  let push (q : TQ) : Bool := (q.waiting ++ q.inq).any (fun p => p.h == h && p.n == n)
  d.net.any (fun f => f.e.requester == some (h, n)) || d.shoots.any (fun x => x.h == h && x.n == n) ||
  d.cores.ents.any (fun c => push c.2.tq) || d.saved.any (fun x => push x.core.tq)

/-- A killed slot's group goes on without it: what its end answers has nobody to hear it. -/
def Fin.orphan (h n : Nat) (f : Fin) : Fin :=
  match f with
  | .reply a b _ => if a == h && b == n then .nothing else f
  | .insert a b k e => if a == h && b == n then .insert nCores b k e else f
  | .pos a b => if a == h && b == n then .pos nCores b else f
  | .slot a b => if a == h && b == n then .nothing else f
  | _ => f

/-- What a killed slot has under way elsewhere: arrivals it made count (R301), other requests nobody has acted on are withdrawn,
its closed groups complete without it, and its window loads that are parked or held at other cores leave (R125). -/
def Dev.orphan (d : Dev) (h n : Nat) : Dev :=
  let arrivals := d.net.filterMap (fun f => match f.e with
    | .barrierArrival t b x y => if x == h && y == n then some (t, b) else none
    | _ => none)
  let d := arrivals.foldl (fun d a => d.arriveAt a.1 a.2 h n) d
  let d := d.recall h n
  let load (r : RemoteAcc) : Bool := r.h == h && r.n == n && !r.store
  let d : Dev := { d with
    net := d.net.filter (fun f => match f.e with
      | .barrierAck x y _ => !(x == h && y == n)
      | .remoteAccess r => !load r
      | .headerHomeTest (.look x y _ _ _ _ _) => !(x == h && y == n)
      | _ => true)
    groups := d.groups.map (fun g => { g with fin := g.fin.map (Fin.orphan h n) })
    shoots := d.shoots.filter (fun x => !(x.h == h && x.n == n)) }
  d.cores.keys.foldl (fun d t =>
    if (d.core t).parked.any (fun p => match p.src with | .remote r => load r | _ => false) || (d.core t).held.any load then
      (d.updCore t (fun c => { c.withdraw (fun s => match s with | .remote r => load r | _ => false) with
        held := c.held.filter (fun r => !load r) })).takeUp t h n
    else d) d

/-- kill of a slot that is not FREE (R301). -/
def Dev.killSlot (d : Dev) (h n : Nat) : Dev :=
  let s := d.slot h n
  let d := (d.breakLeases h n 2 (fun _ => true)).orphan h n
  let d := (s.tasks.ents.map (·.2)).foldl (fun d i => d.dropWhole s.lk i) d
  (d.dropRanks (terrOf s.lk) h n).vacate h n

/-- kill (R301). A slot that kills itself ends at this turn. -/
def execKill (a : AReg) : State → Host.Outcome State Fault Refusal :=
  specForm (useA [ra a]) (fun c =>
    let v := c.s.A a.toNat
    if !c.d.nameOk (terrOf c.s.lk) v false then c.faultAt 0x82 1 v
    else if nameCore v = c.h ∧ nameSlot v = c.n then .left (c.d.killSlot c.h c.n)
    else c.askSlot (nameCore v) (nameSlot v) .kill v (fun _ => .done c.d))

/-- A queue thaws (R298): with FLUSH every command of a frozen queue is removed, each with RSVFMT on its barrier. -/
def Dev.thaw (d : Dev) (h : Nat) (cq flush : Bool) : Dev :=
  let e := (d.core h).eq cq
  let d := if flush && e.frz then
      e.q.foldl (fun d c => (d.barError h c.bar 6 0xFF 0).removed h c)
        ((d.updCore h (fun k => k.updEq cq (fun e => { e with q := [] }))).wakeQueue h cq)
    else d
  d.updCore h (fun k => k.updEq cq (fun e => { e with frz := false }))

/-- What a slot command does at its slot: the device after it and the answer (R298 to R301). A seated slot that is killed leaves at its
turn (R22). -/
def Dev.slotCmd (d : Dev) (c : SlotCmd) : Dev × Reply :=
  let from_ := match c.issuer with | some i => d.slot i.1 i.2 | none => Slot.init
  let may (t : Slot) : Bool := c.issuer.isNone || from_.priv || t.lk == from_.lk
  -- a slot of another terrace, there while a core is handed over, is not seen (R290, R304)
  let t := if c.issuer.isSome && terrOf (d.slot c.h c.n).lk != terrOf from_.lk then Slot.init else d.slot c.h c.n
  match c.op with
  | .spawn e arg =>
    (match d.freeSlot from_.lk c.h, d.launch? from_.lk with
     | some (i, k), some l =>
       if !d.alive from_.lk then (d, .done (BitVec.allOnes 64)) else
       let sr := d.takeSerial from_.lk
       let d := sr.1.newThread from_.lk c.h i k .launch (l.code + e) sr.2 (fun s => { s.setA 1 arg with laneSet := 0xFFFF#16 })
       (d.updCore c.h Core.acquire, .done (slotName c.h k))
     | _, _ => (d, .done (BitVec.allOnes 64)))
  | .eret f v =>
    let thawed (d : Dev) : Dev := if f.getLsbD 8 then d.thaw c.h (f.getLsbD 10) (f.getLsbD 9) else d
    if f.getLsbD 11 then (thawed d, .done 0#64) else
    match (if t.st == .free then none else d.eretSlot c.h c.n f v) with
    | some d => (thawed d, .done 0#64)
    | none => (d, .fail 0x82 3)
  | .wake kind =>
    if t.st == .free then (d, .done 0#64)
    else if kind == 1#2 then
      (if t.svcWait then (d.serviceWake c.h c.n, .done 1#64)
       else (d.updSlot c.h c.n (fun s => { s with svcHeld := true }), .done 0#64))
    else if !may t then (d, .fail 0x80 3)
    else if t.wakeBit then (d, .done 0#64)
    else ((d.updSlot c.h c.n (fun s => { s with wakeBit := true })).wakeSlot c.h c.n (· == .park), .done 1#64)
  | .kill =>
    if t.st == .free then (d, .done 0#64)
    else if !may t then (d, .fail 0x80 4)
    else
      -- the command of the turn itself comes from nobody
      let turn := t.killed && c.issuer.isNone && c.host.isNone
      match t.st with
      | .seated _ => (if turn then d.killSlot c.h c.n else d.updSlot c.h c.n (fun s => { s with killed := true }), .done 0#64)
      | _ => (d.killSlot c.h c.n, .done 0#64)

/-! ### Commands to saved slots (R302) -/

/-- A queue as it was saved thaws: with FLUSH its commands go, each with RSVFMT on its barrier. -/
def Core.thawSaved (c : Core) (cq flush : Bool) : Core :=
  let e := if cq then c.cq else c.mq
  let gone := if flush && e.frz then e.q else []
  let c := gone.foldl (fun c x => { c with bars := c.bars.upd .init x.bar (fun b =>
    (({ b.error 6 0xFF 0 with pend := b.pend - x.left } : Bar).test true).1) }) c
  let e := { e with frz := false, q := if flush && e.frz then [] else e.q }
  if cq then { c with cq := e } else { c with mq := e }

/-- kill of a saved slot: its save record is discarded (R301). -/
def Dev.killSaved (d : Dev) (h i : Nat) : Dev :=
  let s := d.slot h i
  let n := i % 64
  let ids := s.tasks.ents.map (·.2)
  let buf := (d.bufferOf h s.lk s.ri).1
  let open_ (e : DirEnt) : Bool := e.gid.isNone && ((e.buf == buf && e.task == 0#32) || ids.contains e.task)
  let d := (d.breakLeases h i 2 (fun _ => true)).orphan h i
  let d := ids.foldl (fun d t => d.dropWhole s.lk t) d
  let d := (d.dropRanks (terrOf s.lk) h n).dropLinksOf h n s.lk
  let d := (d.discardRefused h i).updCore h (fun c => { c with
    away := c.away.erase i, dir := c.dir.filter (fun e => !open_ e), rfPoison := c.rfPoison.filter (fun e => e / 4096 != i) })
  { d with saved := d.saved.map (fun x => if x.h == h && x.lks.contains s.lk then
      { x with slots := x.slots.filter (· != n), core := { x.core with dir := x.core.dir.filter (fun e => !open_ e) } } else x) }

/-- The saved slot that a command is for: a slot of the issuer's terrace, or of a terrace of the function that commands. -/
def Dev.savedTarget (d : Dev) (c : SlotCmd) : Option Nat :=
  let from_ : Option Nat := c.issuer.map (fun i => terrOf (d.slot i.1 i.2).lk)
  let mine (t : Nat) : Bool := match from_, c.host with
    | some u, _ => t == u
    | none, some f => (d.terrace t).vf == f || f == 32
    | none, none => false
  ((d.core c.h).away.ents.find? (fun e => e.1 % 64 == c.n && e.2.st != .free && mine (terrOf e.2.lk))).map (·.1)

/-- The launch of a spawn is saved on the core named. -/
def Dev.spawnSaved (d : Dev) (c : SlotCmd) : Bool :=
  match c.op, c.issuer with
  | .spawn _ _, some i => d.isSaved (d.slot i.1 i.2).lk c.h
  | _, _ => false

/-- What a command does to the saved slot kept under index i (R302): it takes effect in the save record. -/
def Dev.savedCmdAct (d : Dev) (c : SlotCmd) (i : Nat) : Dev × Reply :=
  let lk := (d.slot c.h i).lk
  match c.op with
  | .kill =>
    let from_ := match c.issuer with | some i => d.slot i.1 i.2 | none => Slot.init
    if c.issuer.isNone || from_.priv || lk == from_.lk then (d.killSaved c.h i, .done 0#64) else (d, .fail 0x80 4)
  | .eret f v =>
    let d' := if (d.slot c.h i).svcWait then d.updSlot c.h i (fun s => { s with st := .waiting .service }) else d
    let r := d'.slotCmd { c with n := i, op := .eret (f &&& ~~~0x700#64) v }
    let r := if r.2 == .done 0#64 then r else (d, r.2)
    if f.getLsbD 8 && r.2 == .done 0#64 then
      ({ r.1 with saved := r.1.saved.map (fun x => if x.h == c.h && x.lks.contains lk then
          { x with core := x.core.thawSaved (f.getLsbD 10) (f.getLsbD 9) } else x) }, r.2)
    else r
  | _ => d.slotCmd { c with n := i }

/-- A command reaches its slot's core (R302); one for a saved slot changes its save record, and a spawn waits for its launch. -/
def execSlotCommandArrival (c : SlotCmd) : State → Host.Outcome State Fault Refusal :=
  onMem (fun m d =>
    let answer (r : Dev × Reply) : Dev := match c.issuer with
      | some i => if (r.1.slot i.1 i.2).reply == .sent || (r.1.slot i.1 i.2).reply == .stale then r.1.reply i.1 i.2 r.2 else r.1
      | none => r.1
    if d.spawnSaved c then ([], d.later 1 (.slotCommandArrival c)) else
    match (if (match c.op with | .spawn _ _ => true | _ => false) then none else d.savedTarget c) with
    | some i =>
      let r := d.savedCmdAct c i
      (if c.op == .kill then [] else d.awayCells r.1 m c.h i, answer r)
    | none => ([], answer (d.slotCmd c)))

/-! ### halt (R76) -/

/-- The slot's leases are released, lower address first: those that have not broken write their shadows. -/
def Ctx.releaseAll (c : Ctx) : Dev :=
  let rs := c.s.leases.foldl (fun acc r => acc.takeWhile (fun x => decide (x.va ≤ r.va)) ++ r :: acc.dropWhile (fun x => decide (x.va ≤ r.va))) []
  let d := c.d.updSlot c.h c.n (fun s => { s with leases := [] }.setIl false)
  rs.foldl (fun d r => if r.broken then d else
    (d.updCore c.h (fun k => k.dropLine r.va)).addGroup c.m [⟨r.va, r.pa, r.shadow, r.mask, none⟩] (d.fnOf c.s.lk) c.h (d.lastGroup c.h c.n)
      (.slot c.h c.n :: .lease r.pa :: c.broadcastFin)) d

/-- The bounds of all the slot's records stop (R154). -/
def Slot.stopBounds (s : Slot) : Slot := s.leases.foldl (fun s r => s.stopBound r.va) s

/-- halt (R76). A slot whose tasks have all ended begins at step 2. The slot is freed once the lines of its leases are visible (R166). -/
def execHalt (retain : Bool) : State → Host.Outcome State Fault Refusal :=
  thread (useA []) (fun c =>
    if !c.s.endReq && !c.s.ops.isEmpty then .skip c.d
    else if c.s.leases.any (fun r => !r.granted && !r.broken) then .skip c.d
    else
    let s := if c.s.closed then c.s else c.s.stopBounds
    Ctx.release { c with s := s, d := c.d.setSlot c.h c.n s } (fun c =>
      let d := c.releaseAll
      if !d.allVisible c.h c.n then .wait d .visible else
      Ctx.endTasks { c with d := d, s := d.slot c.h c.n } c.s.laneSet (fun d =>
        let d := if retain && ((d.launch? c.s.lk).bind (·.succ)).isSome then
            d.updLaunch c.s.lk (fun l => { l with retain := if l.retain.contains c.h then l.retain else l.retain ++ [c.h] }) else d
        .left ((d.dropRanks (terrOf c.s.lk) c.h c.n).vacate c.h c.n))))

/-! ### Shoot-downs (R309, R327) -/

/-- The page and the pages of a range overlap. -/
def overlaps (a n b m : Nat) : Bool := decide (a < b + m) && decide (b < a + n)

/-- Lines of a range leave a core's L1 and its instruction cache. -/
def Core.dropPages (c : Core) (lo len : Nat) : Core :=
  { c.dropRange lo len with ic := ⟨c.ic.ents.filter (fun e => !overlaps e.1 128 lo len)⟩ }

/-- The update came from a core's copy queue. -/
def updIsOf (u : Upd) (h : Nat) : Bool := u.srcs.any (fun s => decide (s.1 < 2 ^ 32) && s.1 / 65536 == h)

/-- A message on its way to a home for a core with an address translated in the range: an update, or the end of a holding. -/
def Ev.usesOld (e : Ev) (x : Shoot) (h : Nat) : Bool :=
  match e with
  | .spredMerge _ u | .spredApply u => updIsOf u h && u.vas.any (fun a => overlaps a 4 x.lo x.len)
  | .headerHomeTest (.free i _ _ f) => i == h && overlaps f.toNat 128 x.lo x.len
  | _ => false

/-- A core still has something of before the shoot-down that used an entry of the range (R327): a group has not marked its lines
everywhere, a load, an amo or a header test has not taken its read point, an update has not been applied. A lease is no such use: what
R150 says of shoot-downs is that they are no probes. -/
def Dev.usesOld (d : Dev) (x : Shoot) (h : Nat) : Bool :=
  d.groups.any (fun g => g.core == h && decide (g.id < x.id) && g.phase != .two && g.lines.any (fun l => overlaps l.va 128 x.lo x.len)) ||
  (d.core h).allSlots.any (fun s => s.2.ops.any (fun o => decide (o.id < x.id) && o.kind != .lease &&
    o.acc.any (fun a => (match a.st with | .home _ => true | _ => false) && overlaps a.va.toNat 4 x.lo x.len))) ||
  d.net.any (fun f => f.e.usesOld x h) || d.merges.ents.any (fun e => e.2.any (fun u => (Ev.spredApply u).usesOld x h))

/-- Every page, the window apart; and a range that stands for every entry of a protection buffer. -/
def allPages : Nat := 511 * 2 ^ 48
def allRights : Nat := 2 ^ 57

/-- A shoot-down begins: each core named is to acknowledge. -/
def Ctx.shoot (c : Ctx) (d : Dev) (lo len : Nat) (cores : List Nat) : Res :=
  if cores.isEmpty then .done d else
  let id := d.count
  let d : Dev := { d.updSlot c.h c.n (fun s => { s with reply := .sent }) with
    shoots := d.shoots ++ [⟨id, c.h, c.n, lo, len, cores⟩], count := id + 1 }
  .skip (cores.foldl (fun d t => d.send 0 (.shootdownAck id t)) d)

/-- A shoot-down form: begun once its checks pass, and complete when every core has acknowledged. -/
def Ctx.shootForm (c : Ctx) (begin_ : Res) : Res :=
  match c.s.reply with
  | .done _ => .done c.d
  | .sent | .stale | .fail _ _ => .skip c.d
  | .idle => begin_

/-- plbinv (R309). -/
def execPlbinv (a : AReg) : State → Host.Outcome State Fault Refusal :=
  thread ((useA [ra a]).privileged) (fun c =>
    let v := c.s.A a.toNat
    let t := terrOf c.s.lk
    if v ≠ BitVec.allOnes 64 ∧ 4096 ≤ v.toNat then c.faultAt 0x82 5 v
    else c.shootForm (
      let gone (e : PlbEnt) : Bool := e.terr == t && (v == BitVec.allOnes 64 || e.dom == v.toNat)
      let cores := c.d.cores.keys.filter (c.d.terrace t).has
      let d := cores.foldl (fun d h => d.updCore h (fun k => { k with plb := k.plb.filter (fun e => !gone e) })) c.d
      c.shoot d 0 allRights cores))

/-- Ended tasks that wait for their commit with a translation of the range translate again at their commit (R326). -/
def Dev.redoTasks (d : Dev) (lo len : Nat) : Dev :=
  { d with tasks := ⟨d.tasks.ents.map (fun e =>
      if e.2.ended && e.2.xl.any (fun x => overlaps x.1 128 lo len) then (e.1, { e.2 with redo := true }) else e)⟩ }

/-- tlbinv (R309). -/
def execTlbinv (a b : AReg) : State → Host.Outcome State Fault Refusal :=
  thread ((useA [ra a, ra b]).privileged) (fun c =>
    let v := c.s.A a.toNat
    let w := c.s.A b.toNat
    let size := pageSize (w.toNat % 8)
    if w.extractLsb' 4 60 ≠ 0#60 then c.faultAt 0x82 5 w
    else if v.toNat % size ≠ 0 then c.faultAt 0x82 5 v
    else c.shootForm (
      let lo := if w.getLsbD 3 then 0 else v.toNat
      let len := if w.getLsbD 3 then allPages else size
      let d : Dev := { c.d.redoTasks lo len with
        xl := ⟨c.d.xl.ents.map (fun e => (e.1, e.2.filter (fun l => !overlaps l.base l.size lo len)))⟩ }
      c.shoot d lo len d.cores.keys))

/-- A core acknowledges a shoot-down once it uses no entry of the range (R327). Cores of the issuer's terrace drop the lines. -/
def execShootdownAck (id h : Nat) : State → Host.Outcome State Fault Refusal :=
  onDev (fun _ d =>
    match d.shoots.find? (fun x => x.id == id) with
    | none => d
    | some x =>
      if !x.cores.contains h then d
      else if d.usesOld x h then d.later 1 (.shootdownAck id h)
      else
        let t := d.terrace (terrOf (d.slot x.h x.n).lk)
        let d := if t.has h && decide (x.len ≤ allPages) then d.updCore h (fun c => c.dropPages x.lo x.len) else d
        let left := x.cores.erase h
        let d := { d with shoots := if left.isEmpty then d.shoots.erase x else d.shoots.map (fun y => if y.id == id then { y with cores := left } else y) }
        if left.isEmpty then d.reply x.h x.n (.done 0#64) else d)

/-! ### Profiling (R310, R344, R345) -/

/-- Group and index of a selector that names a counter. -/
def selector (v : W64) (whole : Bool) : Option (Nat × Nat) :=
  let g := (v.extractLsb' 8 4).toNat
  let i := (v.extractLsb' 0 8).toNat
  let n := [64, 16, 1, 1, 210].getD g 0
  if v.extractLsb' 12 52 = 0#52 ∧ (i < n ∨ (whole = true ∧ i = 255 ∧ 0 < n)) then some (g, i) else none

/-- A count of a core: those of shared units since they were last zeroed there (log 41). -/
def Dev.profCount (d : Dev) (h t g i : Nat) : W64 :=
  if g = 4 then d.shared.get 0#64 (t * 256 + i) - (d.core h).prof.get 0#64 (1024 + i)
  else (d.core h).prof.get 0#64 (g * 256 + i)

/-- prof.rd (R310). -/
def execProfRd (d a : AReg) : State → Host.Outcome State Fault Refusal :=
  thread (useA [wa d, ra a]) (fun c =>
    let v := c.s.A a.toNat
    match selector v false with
    | none => c.faultAt 0x82 4 v
    | some (g, i) =>
      c.done (c.s.setA d.toNat (c.d.profCount c.h (terrOf c.s.lk) g i)))

/-- One count of a core zeroed. -/
def Dev.profZero (d : Dev) (h t g i : Nat) : Dev :=
  d.updCore h (fun c => { c with prof := if g = 4 then c.prof.put (1024 + i) (d.shared.get 0#64 (t * 256 + i)) else c.prof.erase (g * 256 + i) })

/-- prof.clr (R310). -/
def execProfClr (a : AReg) : State → Host.Outcome State Fault Refusal :=
  thread (useA [ra a]) (fun c =>
    let v := c.s.A a.toNat
    let t := terrOf c.s.lk
    if !c.s.priv && c.d.profHolder != some t then c.faultAt 0x80 5 c.w
    else
      match selector v true with
      | none => c.faultAt 0x82 4 v
      | some (g, i) =>
        let is := if i = 255 then List.range ([64, 16, 1, 1, 210].getD g 0) else [i]
        .done (is.foldl (fun d i => d.profZero c.h t g i) c.d))

/-- A terrace gives up the profiling lease or its request for it. -/
def Dev.profReturn (d : Dev) (t : Nat) : Dev :=
  { d with profHolder := if d.profHolder = some t then none else d.profHolder, profQueue := d.profQueue.filter (· != t) }

/-- A terrace becomes active, which starts a time slice of it: the lease that is its turn is granted (R345). -/
def Dev.sliceStarts (d : Dev) (t : Nat) : Dev :=
  if d.profHolder.isNone && d.profQueue.head? == some t then d.first [.profLeaseGrant t] else d

/-- prof.lease (R310). -/
def execProfLease (d a : AReg) : State → Host.Outcome State Fault Refusal :=
  thread (useA [wa d, ra a]) (fun c =>
    let v := c.s.A a.toNat
    let t := terrOf c.s.lk
    let answer (dv : Dev) (r : W64) : Res := .done (dv.setSlot c.h c.n (c.s.setA d.toNat r))
    if v = 0#64 then answer (c.d.profReturn t) 0#64
    else if v = 1#64 then
      (if c.d.profHolder = some t then answer c.d 2#64
       else answer { c.d with profQueue := if c.d.profQueue.contains t then c.d.profQueue else c.d.profQueue ++ [t] } 1#64)
    else c.faultAt 0x82 4 v)

/-- The lease is granted to the first terrace in its queue at the start of its time slice, and group 4 is zeroed (R345; log 41). -/
def execProfLeaseGrant (t : Nat) : State → Host.Outcome State Fault Refusal :=
  onDev (fun _ d =>
    if d.profHolder.isSome || d.profQueue.head? != some t then d else
    { d with
      profHolder := some t
      profQueue := d.profQueue.drop 1
      shared := ⟨d.shared.ents.filter (fun e => e.1 / 256 != t)⟩
      cores := ⟨d.cores.ents.map (fun e => if (d.terrace t).has e.1 then
        (e.1, { e.2 with prof := ⟨e.2.prof.ents.filter (fun p => p.1 / 256 != 4)⟩ }) else e)⟩ })

/-! ### Seats and granules (R21, R23, R33) -/

/-- A free seat goes to a READY slot (R23). -/
def execSeatAssign (h : Nat) : State → Host.Outcome State Fault Refusal := onDev (fun _ d => d.seatAssign h)

/-- Another slot's window still has one of eight register-file entries: it has not been saved. -/
def Core.entriesUsed (c : Core) (n e : Nat) : Bool :=
  c.slots.ents.any (fun x => x.1 != n && x.2.st != .free && decide (x.2.winBase < e + 8) && decide (e < x.2.winBase + x.2.winCount))

/-- A granule of eight registers is refilled (R33), once the outgoing save of its entries is complete (R306). -/
def execGranuleRefill (h n g : Nat) : State → Host.Outcome State Fault Refusal :=
  onDev (fun _ d =>
    if (d.core h).entriesUsed n ((d.slot h n).winBase + 8 * g) then d.later 1 (.granuleRefill h n g) else
    d.updSlot h n (fun s => { s with vst := ⟨s.vst.ents.filter (fun e => !(e.1 / 8 == g && e.2 == .unrestored))⟩ }))

end Sys2Proof.Machine
end

