-- ==== Sys2Proof/Machine/Context.lean ====
section
/-! DEFINITION. Tenant switches: the hand-over of seats, context blocks, saving and restoring the cores of a terrace (R125, R303 to
R308, R335, R363). -/

namespace Sys2Proof.Machine

/-! ### Context blocks (R305 Tables 6 and 7) -/

/-- The device-private bytes of a slot record: offset and length. -/
def privSlot : List (Nat × Nat) := [(0x0E8, 24), (0x100, 256), (0x400, 1024)]

/-- The device-private ranges of a block that a launch's save writes, and those of a slot's. -/
def privCore : List (Nat × Nat) := [(0x120000, 0x20000), (0x1C0000, 0x2000)]
def privOf (n : Nat) : List (Nat × Nat) := privSlot.map (fun r => (0x140000 + 2048 * n + r.1, r.2))

/-- The device-private bytes of some ranges of the block at an address, in private or in portable form (R371; log 50). -/
def privCells (a seed : Nat) (portable : Bool) (ranges : List (Nat × Nat)) : List Host.Cell :=
  ranges.flatMap (fun r => (List.range r.2).map (fun i =>
    (a + r.1 + i, Config.privateByte (2 * seed + (if portable then 1 else 0)) (r.1 + i))))

/-- Those of a saved launch on its core. -/
def Saved.priv (x : Saved) (a : Nat) (portable : Bool) : List Host.Cell := privCells a x.seed portable (privCore ++ x.slots.flatMap privOf)

/-- The word addresses of the valid regions of some launches. -/
def Core.regionWords (c : Core) (lks : List Nat) : List Nat :=
  (c.map.ents.filter (fun e => rgnV e.2 && lks.contains (e.1 / 16))).flatMap (fun e =>
    (List.range ((rgnEnd e.2 - rgnBase e.2) / 4)).map (fun i => rgnBase e.2 + 4 * i))

/-- Local store and tags of some launches' valid regions in the block at address a. -/
def Core.storeCells (c : Core) (a : Nat) (lks : List Nat) : List Host.Cell :=
  let ws := c.regionWords lks
  let tagByte (w : Nat) : Byte := (c.tag (8 * (w / 8) + 4)) ++ (c.tag (8 * (w / 8)))
  (ws.flatMap (fun w => cellsAt (a + w) (leBytes 4 (c.word w).toNat))) ++
  (ws.map (fun w => (a + 0x100000 + w / 8, tagByte w)))

/-- Tiles in a block. -/
def tileCells (a : Nat) (tiles : AMap Tile) : List Host.Cell :=
  tiles.ents.flatMap (fun t =>
    (List.range 16384).flatMap (fun i => cellsAt (a + 0x180000 + 65536 * t.1 + 4 * i) (leBytes 4 (t.2.el.get 0#32 i).toNat)))

/-- The zeros at a block's end. -/
def endCells (a : Nat) : List Host.Cell := cellsAt (a + 0x1C2000) (List.replicate 0x3E000 0#8)

/-- The addresses in a block of the poisoned words of some launches (R363). -/
def Core.poisonAt (c : Core) (a : Nat) (lks : List Nat) : List Nat :=
  ((c.regionWords lks).filter (fun w => c.lsPoison.contains (w / 4))).map (a + ·)

/-! ### What belongs to a launch on a core -/

/-- Launches of a terrace with something on a core: a reservation, or retained ranges. -/
def Dev.launchesOn (d : Dev) (t h : Nat) : List Nat :=
  (d.launches.ents.filter (fun e => e.2.terr == t && ((e.2.resv.find? h).isSome || (d.core h).map.ents.any (fun m => m.1 / 16 == e.1)))).map (·.1)

/-- The slots that some launches reserve on a core. -/
def Dev.slotsOn (d : Dev) (lks : List Nat) (h : Nat) : List Nat :=
  lks.flatMap (fun lk => ((d.launch? lk).map (fun l => (l.resvOn h).slots)).getD [])

/-- Slots of a terrace that stand on a core. -/
def Dev.liveSlots (d : Dev) (t h : Nat) : List Nat :=
  ((d.core h).slots.ents.filter (fun e => e.2.st != .free && terrOf e.2.lk == t)).map (·.1)

/-- The tiles that a core's matrix queue owns for launches that p names. -/
def Dev.queueTiles (d : Dev) (h : Nat) (p : Nat → Bool) : AMap Tile :=
  ⟨(d.court (courtOf h)).tiles.ents.filter (fun e => e.2.owner == some (h % 4) && p e.2.lk)⟩

/-- The two parts of a queue when a launch is saved: the launch has the queue whole, with its format context and counts, if no other
launch stands on the core; else its commands, with the context and the counts as they are. -/
def EQ.part (e : EQ) (lk : Nat) (whole : Bool) : EQ × EQ :=
  if whole then (e, .init) else
  ({ e with q := e.q.filter (fun c => c.lk == lk), live := e.live.filter (fun c => c.lk == lk) },
   { e with q := e.q.filter (fun c => c.lk != lk), live := e.live.filter (fun c => c.lk != lk) })

/-- A queue that comes back: whole onto one with no command, else its commands before those of another launch. -/
def EQ.merge (e x : EQ) : EQ :=
  if e.q.isEmpty && e.live.isEmpty then x else { e with q := x.q ++ e.q, live := x.live ++ e.live }

/-- A queue whose head reads again what was parked. -/
def EQ.unpark (e : EQ) : EQ :=
  match e.q with
  | c :: r => { e with q := { c with parked := [] } :: r }
  | [] => e

/-- What of a core belongs to a launch beside its slots and its register-file entries (R305). -/
def Core.taken (c : Core) (lk : Nat) (mail : InMsg → Bool) (whole : Bool) : Core :=
  let tabs := (c.tlk.ents.filter (fun e => e.2 == lk)).map (·.1)
  let inR (i : Nat) : Bool := c.map.ents.any (fun e => e.1 / 16 == lk && rgnV e.2 && decide (rgnBase e.2 ≤ 4 * i) && decide (4 * i < rgnEnd e.2))
  { Core.init with
    words := ⟨c.words.ents.filter (fun e => inR e.1)⟩
    tags := ⟨c.tags.ents.filter (fun e => inR e.1)⟩
    map := ⟨c.map.ents.filter (fun e => e.1 / 16 == lk)⟩
    gen0 := ⟨c.gen0.ents.filter (fun e => tabs.contains e.1)⟩
    gen1 := ⟨c.gen1.ents.filter (fun e => tabs.contains e.1)⟩
    tbgen := c.tbgen
    tlk := ⟨c.tlk.ents.filter (fun e => e.2 == lk)⟩
    bars := ⟨c.bars.ents.filter (fun e => e.2.owner == some lk)⟩
    objs := ⟨c.objs.ents.filter (fun e => e.2.st != .free && e.2.owner == lk)⟩
    pool := c.pool.filter (fun e => e.lk == lk)
    tq := if c.tq.lk == some lk then c.tq else .init
    inbox := c.inbox.filter mail
    mq := (c.mq.part lk whole).1.unpark
    cq := (c.cq.part lk whole).1.unpark
    dir := c.dir.filter (fun e => inR (e.buf / 4))
    lsPoison := c.lsPoison.filter inR }

/-- The core without what was taken. -/
def Core.without (c x : Core) (lk : Nat) (whole : Bool) : Core :=
  { c with
    map := ⟨c.map.ents.filter (fun e => !x.map.keys.contains e.1)⟩
    tlk := ⟨c.tlk.ents.filter (fun e => !x.tlk.keys.contains e.1)⟩
    bars := ⟨c.bars.ents.filter (fun e => !x.bars.keys.contains e.1)⟩
    objs := ⟨c.objs.ents.filter (fun e => !x.objs.keys.contains e.1)⟩
    pool := c.pool.filter (fun e => !x.pool.contains e)
    tq := if x.tq.lk.isSome then .init else c.tq
    inbox := c.inbox.filter (fun m => !x.inbox.contains m)
    mq := (c.mq.part lk whole).2
    cq := (c.cq.part lk whole).2
    dir := c.dir.filter (fun e => !x.dir.contains e)
    lsPoison := c.lsPoison.filter (fun e => !x.lsPoison.contains e) }

/-- What was taken stands on the core again; its local store comes back unit by unit afterwards. -/
def Core.withBack (c x : Core) : Core :=
  let ov {α : Type} (m y : AMap α) : AMap α := y.ents.foldl (fun m e => m.put e.1 e.2) m
  { c with
    map := ov c.map x.map
    gen0 := ov c.gen0 x.gen0
    gen1 := ov c.gen1 x.gen1
    tbgen := x.tlk.keys.foldl (fun b n => if x.tbgen.getLsbD n then b ||| (1#8 <<< n) else b &&& ~~~(1#8 <<< n)) c.tbgen
    tlk := ov c.tlk x.tlk
    bars := ov c.bars x.bars
    objs := ov c.objs x.objs
    pool := c.pool ++ x.pool
    tq := if x.tq.lk.isSome then x.tq else c.tq
    inbox := c.inbox ++ x.inbox
    mq := c.mq.merge x.mq
    cq := c.cq.merge x.cq
    dir := c.dir ++ x.dir
    lsPoison := c.lsPoison ++ x.lsPoison }

/-- Everything that a saved launch needs beside its slots is free on the core (R306): nothing of other launches there overlaps it.
Register-file entries may still be in use: their granules wait. -/
def Core.roomFor (c x : Core) : Bool :=
  let apart {α : Type} (m y : AMap α) : Bool := y.keys.all (fun k => !m.keys.contains k)
  let clash (w v : W32) : Bool := rgnV w && rgnV v && decide (rgnBase w < rgnEnd v) && decide (rgnBase v < rgnEnd w)
  x.map.ents.all (fun e => c.map.ents.all (fun f => !clash e.2 f.2)) &&
  apart c.tlk x.tlk && apart ⟨c.bars.ents.filter (fun e => e.2.owner.isSome)⟩ x.bars && apart ⟨c.objs.ents.filter (fun e => e.2.st != .free)⟩ x.objs &&
  (x.tq.lk.isNone || c.tq.lk.isNone)

/-! ### Messages of a slot that moves to its save record and back (R307) -/

def accFor (h n k : Nat) (r : RemoteAcc) : RemoteAcc := if r.h = h ∧ r.n = n then { r with n := k } else r

/-- An answer or an access in flight for slot n of core h is for number k from now on. -/
def Ev.rename (h n k : Nat) (e : Ev) : Ev :=
  let f (x y : Nat) : Nat := if x = h ∧ y = n then k else y
  match e with
  | .barrierAck x y s => .barrierAck x (f x y) s
  | .remoteAccess r => .remoteAccess (accFor h n k r)
  | .remoteAccessReply x y o i r => .remoteAccessReply x (f x y) o i r
  | .windowStoreRefused r c s => .windowStoreRefused (accFor h n k r) c s
  | .homeRead x y o i pa => .homeRead x (f x y) o i pa
  | .resultLanding x y o => .resultLanding x (f x y) o
  | .headerHomeTest (.look x y a b c e g) => .headerHomeTest (.look x (f x y) a b c e g)
  | _ => e

/-- The same for an access that waits at a core. -/
def ParkSrc.rename (h n k : Nat) : ParkSrc → ParkSrc
  | .remote r => .remote (accFor h n k r)
  | .own m l p => .own m l p
  | .landing w => .landing w
  | .engine x c i => .engine x c i

/-- Everything in flight for slot n of a core is for number k. -/
def Dev.rename (d : Dev) (h n k : Nat) : Dev :=
  { d with
    net := d.net.map (fun f => { f with e := f.e.rename h n k })
    agenda := d.agenda.map (fun a => match a with | .ev e => .ev (e.rename h n k) | a => a)
    cores := ⟨d.cores.ents.map (fun c => (c.1, { c.2 with
      parked := c.2.parked.map (fun p => { p with src := p.src.rename h n k })
      held := c.2.held.map (accFor h n k) }))⟩ }

/-! ### Switches (R303, R304) -/

/-- READY and WAITING outgoing slots without a lease become HELD; the others give up their seats at their turns. -/
def Dev.holdTerrace (d : Dev) (t h : Nat) : Dev :=
  (d.liveSlots t h).foldl (fun d n =>
    let s := d.slot h n
    match s.st with
    | .ready | .waiting _ => if s.leased then d.updSlot h n (fun s => { s with preempt := true }) else d.preempt h n
    | .seated _ => d.updSlot h n (fun s => { s with preempt := true })
    | .free | .held _ => d) d

/-- Cores of a terrace on which it has something. -/
def Dev.coresOf (d : Dev) (t : Nat) : List Nat :=
  d.cores.keys.filter (fun h => (d.terrace t).has h && !(d.launchesOn t h).isEmpty)

/-- A terrace's STATE changed; one that was off and becomes active starts with its debug block at reset (R338). -/
def Terrace.withState (x : Terrace) (st : Nat) : Terrace :=
  { x with
    w0 := (x.w0 &&& ~~~(3#64 <<< 33)) ||| (BitVec.ofNat 64 st <<< 33)
    dbg := if x.state = 0 then .init else x.dbg }

/-- Launches of the terrace that are saved nowhere go on (R306). -/
def Dev.launchesBack (d : Dev) (t : Nat) : Dev :=
  { d with launches := ⟨d.launches.ents.map (fun (e : Nat × Launch) =>
    if e.2.terr == t && !d.saved.any (fun x => x.lks.contains e.1) then (e.1, { e.2 with out := false }) else e)⟩ }

/-- A terrace that was off starts with no launch (R303). -/
def Dev.clearTerr (d : Dev) (t : Nat) : Dev :=
  let keep (lk : Nat) : Bool := terrOf lk != t
  { d with
    launches := ⟨d.launches.ents.filter (fun e => e.2.terr != t)⟩
    tasks := ⟨d.tasks.ents.filter (fun e => keep e.2.lk)⟩
    saved := d.saved.filter (fun x => x.terr != t)
    cores := ⟨d.cores.ents.map (fun c => (c.1, { c.2 with
      slots := ⟨c.2.slots.ents.filter (fun e => e.2.st == .free || keep e.2.lk)⟩
      away := ⟨c.2.away.ents.filter (fun e => keep e.2.lk)⟩
      map := ⟨c.2.map.ents.filter (fun e => keep (e.1 / 16))⟩
      lsTodo := c.2.lsTodo.filter (fun u => keep u.2.2) }))⟩ }

/-- The switch has nothing left to do. -/
def Dev.endSwitch (d : Dev) : Dev :=
  match d.switch with
  | some w => if w.toSave.isEmpty && w.toRestore.isEmpty then { d with switch := none, switchDone := max 1 d.switchDone } else d
  | none => d

/-- A hand-over starts: the outgoing terrace is suspended and its slots are held, the incoming one becomes active. -/
def Dev.startSwitch (d : Dev) (out inn : Option Nat) (oarea iarea : W64) : Dev :=
  let d := match inn with
    | some t => if (d.terrace t).state = 0 then d.clearTerr t else d
    | none => d
  let toSave := (out.map d.coresOf).getD []
  let toRestore := (inn.map (fun t => ((d.saved.filter (fun x => x.terr == t)).map (·.h)).dedup)).getD []
  let d := match out with
    | some t =>
      let d := d.updTerr t (fun x => { x.withState 2 with area := oarea })
      let d : Dev := { d with launches := ⟨d.launches.ents.map (fun (e : Nat × Launch) => if e.2.terr == t then (e.1, { e.2 with out := true }) else e)⟩ }
      toSave.foldl (fun (d : Dev) h => d.holdTerrace t h) d
    | none => d
  let d := match inn with
    | some t => ((d.updTerr t (fun x => { x.withState 1 with area := if x.state = 2 then iarea else x.area })).launchesBack t).sliceStarts t
    | none => d
  { d with switch := some ⟨out, inn, oarea, iarea, d.clock, d.count, toSave, toRestore⟩, switchDone := 0, count := d.count + 1 }.endSwitch

/-- Two intervals share a core. -/
def Terrace.meets (x y : Terrace) : Bool := decide (x.base < y.base + y.len) && decide (y.base < x.base + x.len)

/-- The engine takes the switch (R303). While one runs it takes no other. -/
def Dev.switchOk (d : Dev) (out inn : Nat) (oarea iarea : W64) : Bool :=
  let o := d.terrace out
  let i := d.terrace inn
  d.switch.isNone && (out == 0xFF || (decide (out < 32) && o.state == 1 && oarea.toNat % 2 ^ 21 == 0)) &&
  (inn == 0xFF || (decide (inn < 32) && (i.state == 0 || (i.state == 2 && iarea.toNat % 2 ^ 21 == 0)) &&
    (List.range 32).all (fun t => t == out || t == inn || (d.terrace t).state != 1 || !(d.terrace t).meets i)))

/-- A switch request of 32 bytes (R303). Completion status: 1 done, 2 refused; a request that comes while a switch runs is refused and
changes nothing (log 50). -/
def execSwitchRequest (req : BitVec 256) : State → Host.Outcome State Fault Refusal :=
  onDev (fun _ d =>
    if !d.up || d.switch.isSome then d else
    let out := (req.extractLsb' 0 8).toNat
    let inn := (req.extractLsb' 8 8).toNat
    let oarea := req.extractLsb' 64 64
    let iarea := req.extractLsb' 128 64
    if d.switchOk out inn oarea iarea then
      d.startSwitch (if out = 0xFF then none else some out) (if inn = 0xFF then none else some inn) oarea iarea
    else { d with switchDone := 2 })

/-- The reservation of a seat that no outgoing slot holds lapses at its turn (R304 step 5). -/
def execSeatLapse (h seat : Nat) : State → Host.Outcome State Fault Refusal :=
  onDev (fun _ d =>
    match d.switch with
    | none => d
    | some w =>
      let held := match (d.core h).seatedIn seat, w.out with
        | some n, some t => terrOf (d.slot h n).lk == t
        | _, _ => false
      if !w.toSave.contains h || decide (d.clock ≤ w.start) || d.clock % 16 != seat || held || (d.core h).lapsed.contains seat then d
      else d.updCore h (fun c => { c with lapsed := c.lapsed ++ [seat] }))

/-! ### Saving a slot (R305) -/

/-- The slot for which a group's end is awaited. -/
def Fin.forSlot : Fin → Option (Nat × Nat)
  | .slot h n | .amo h n _ _ _ | .reply h n _ | .insert h n _ _ | .pos h n => some (h, n)
  | _ => none

/-- Nothing of the slot is left that a save waits for: its groups have finished phase two, in an ORDERED slot a commit too, and its
leases and amos have been granted. What else is in flight follows the slot (R307). -/
def Dev.slotStill (d : Dev) (h n : Nat) : Bool :=
  let s := d.slot h n
  d.groups.all (fun g => g.fin.all (fun f => f.forSlot != some (h, n) &&
    (match f with | .task lk _ _ => s.kind != .ordered || lk != s.lk | _ => true))) &&
  s.ops.all (fun o => o.fin || (match o.kind with | .lease | .amo _ _ _ _ => false | _ => true))

/-- The HELD outgoing slot that is saved next: the first to become HELD, the lowest within a cycle. -/
def Dev.nextSlot (d : Dev) (t h : Nat) : Option Nat :=
  let hs := (d.liveSlots t h).filter (fun n => match (d.slot h n).st with | .held _ => true | _ => false)
  let key (n : Nat) : Nat := 64 * (d.slot h n).heldAt + n
  hs.find? (fun n => hs.all (fun x => decide (key n ≤ key x)))

/-- A slot as it is saved: a request that nobody has acted on is made again when the slot resumes (R308). -/
def Slot.asSaved (s : Slot) (asking : Bool) : Slot :=
  { s with reply := if asking && (s.reply == .sent || s.reply == .stale) then .idle else s.reply, pushWait := [], stream := [], preempt := false }

/-- A slot is saved: its record and its entries are written, poison kept on their lines, and what is in flight for it follows it. -/
def Dev.saveSlot (m : Memory) (d : Dev) (t h n : Nat) (w : Switch) : List Host.Cell × Dev :=
  let k := awayIx t n
  let asking := d.asking h n
  let d := d.recall h n
  let d := { d with shoots := d.shoots.filter (fun x => !(x.h == h && x.n == n)) }
  let s := (d.slot h n).asSaved asking
  let bad := (List.range s.winCount).filter (fun j => (d.core h).rfPoison.contains (s.winBase + j))
  let a := (d.terrace t).block w.oarea h
  let cells := slotCells a n s ++ privCells a w.seed false (privOf n)
  let d := d.rename h n k
  let d := d.updCore h (fun c => { c with
    slots := c.slots.erase n
    away := c.away.put k { s with refused := s.refused.map (accFor h n k) }
    rfPoison := c.rfPoison.filter (fun e => !(decide (s.winBase ≤ e) && decide (e < s.winBase + s.winCount))) ++ bad.map (4096 * k + ·) })
  (d.logged m (d.terrace t).vf cells,
   (d.clearPoison cells).putPoison (bad.map (fun j => a + 0x160000 + 64 * (s.winBase + j))))

/-! ### Saving a launch on a core (R304 steps 4 and 6, R305, R307) -/

/-- Commands of a launch in a core's queues. -/
def Dev.cmdsOf (d : Dev) (lk h : Nat) : List (Nat × Bool × Nat) :=
  let c := d.core h
  let go (cq : Bool) : List (Nat × Bool × Nat) := (((c.eq cq).q ++ (c.eq cq).live).filter (fun x => x.lk == lk)).map (fun x => (h, cq, x.seq))
  go false ++ go true

/-- A queue stands at a step boundary: its head has read nothing, or waits for words that are parked (R227). -/
def EQ.atStep (e : EQ) : Bool := (e.q.head?.map (fun c => !c.midStep || !c.parked.isEmpty)).getD true

/-- Nothing of a launch on a core is left that its save waits for: its slots there are saved, its queues stand at a step boundary, what
they had landing has landed, and its tasks' records and its ring are written. -/
def Dev.launchStill (d : Dev) (lk h : Nat) : Bool :=
  let c := d.core h
  let cmds := d.cmdsOf lk h
  let any (l : List (Nat × Bool × Nat)) : Bool := l.any cmds.contains
  c.slots.ents.all (fun e => e.2.st == .free || e.2.lk != lk) && c.mq.atStep && c.cq.atStep &&
  d.net.all (fun f => !any f.e.forCmd) && d.agenda.all (fun a => match a with | .ev e => !any e.forCmd | _ => true) &&
  d.groups.all (fun g => g.fin.all (fun f => !any f.forCmd.toList &&
    (match f with | .task k _ _ => k != lk | .ring x => !(x == h && c.tq.lk == some lk) | _ => true))) &&
  d.merges.ents.all (fun x => x.2.all (fun u => !any (u.srcs.map (fun s => (s.1 / 65536, true, s.1 % 65536))))) &&
  ((d.launch? lk).map (fun l => l.st != .placed && l.ending.isNone)).getD true

/-- Accesses that stand at a core in the wait lists, of a launch saved there or of commands saved, go back behind what their sources
hold there: they are presented again at the restore. -/
def Core.backOut (c : Core) (lk : Nat) (cmd : EngWord → Bool) (here : Bool) : Core :=
  let acc (p : Parked) : Option RemoteAcc := match p.src with
    | .remote r => if here && (r.lk == lk || c.inLaunch lk p.addr) then some r else none
    | _ => none
  let word (p : Parked) : Option EngWord := match p.src with | .landing w => if cmd w then some w else none | _ => none
  { c with
    held := c.parked.filterMap acc ++ c.held
    heldEng := c.parked.filterMap word ++ c.heldEng
    parked := c.parked.filter (fun p => (acc p).isNone && (word p).isNone) }

/-- The terrace's rank entries for slots of a core, in transit or not (R210, R307). -/
def Dev.rankTransit (d : Dev) (t h : Nat) (slots : List Nat) (on : Bool) : Dev :=
  (d.ranks.ents.filter (fun e => e.1 / 4096 == t && rankV e.2 && rankCore e.2 == h && slots.contains (rankSlot e.2))).foldl (fun d e =>
    d.setRank t (e.1 % 4096) (if on then e.2 ||| (1#32 <<< 30) else e.2 &&& ~~~(1#32 <<< 30))) d

/-- A launch is saved on a core: its local store, tables and core state, its part of the queues and its tiles; it holds no reservation
there any more. -/
def Dev.saveLaunch (m : Memory) (d : Dev) (t lk h : Nat) (w : Switch) : List Host.Cell × Dev :=
  let slots := ((d.core h).away.ents.filter (fun e => e.2.st != .free && e.2.lk == lk)).map (fun e => e.1 % 64)
  let whole := (d.holders h).all (fun e => e.1 == lk)
  let cmds := d.cmdsOf lk h
  let mine (x : EngWord) : Bool := cmds.contains (x.h, x.cq, x.seq)
  let here (x : EngWord) : Bool := mine x || d.cmdLk? x.h x.cq x.seq == some lk
  let reads (s : ParkSrc) : Bool := match s with
    | .engine x cq _ => x == h && (((d.core h).eq cq).q.head?).any (fun k => k.lk == lk)
    | _ => false
  let d : Dev := { d with cores := ⟨d.cores.ents.map (fun (c : Nat × Core) =>
    (c.1, (c.2.backOut lk (if c.1 = h then here else mine) (c.1 == h)).withdraw reads))⟩ }
  let c := d.core h
  let mail (g : InMsg) : Bool := g.terr == t && (slots.any (fun n => (d.ranksOf t h n).contains g.rank) ||
    (g.rank == 0xFFFF && slots.contains (d.terrace t).supSlot))
  let x := c.taken lk mail whole
  let tiles := d.queueTiles h (· == lk)
  let a := (d.terrace t).block w.oarea h
  let cells := c.storeCells a [lk] ++ tileCells a tiles ++ endCells a ++ privCells a w.seed false privCore
  let bad := c.poisonAt a [lk]
  let d := d.updCore h (fun c => c.without x lk whole)
  let d := d.updCourt (courtOf h) (fun k => { k with tiles := ⟨k.tiles.ents.filter (fun e => !tiles.keys.contains e.1)⟩ })
  let d := (d.rankTransit t h slots true).clearPoison cells
  (d.logged m (d.terrace t).vf cells,
   { d.putPoison bad with saved := d.saved ++ [⟨t, [lk], h, w.seed, false, slots, x, tiles⟩] })

/-- The context engine at a core of the outgoing terrace: its next slot, or else a launch that has no slot left there (R304, R305). -/
def execContextSave (h : Nat) : State → Host.Outcome State Fault Refusal :=
  onMem (fun m d =>
    match d.switch with
    | none => ([], d)
    | some w =>
      match w.out with
      | none => ([], d)
      | some t =>
        if !w.toSave.contains h then ([], d) else
        let d := d.holdTerrace t h
        -- the engine writes on behalf of the terrace's function (R330)
        let write (f : Dev → List Host.Cell × Dev) : List Host.Cell × Dev :=
          match d.visit (d.terrace t).vf true (linesOf ((f d).1.map (·.1))) with
          | (d, true) => f d
          | (d, false) => ([], d)
        match d.nextSlot t h with
        | some n => if d.slotStill h n then write (fun d => d.saveSlot m t h n w) else ([], d)
        | none =>
          let todo := (d.launchesOn t h).filter (fun lk => !d.isSaved lk h)
          if todo.isEmpty then
            ([], { d.updCore h (fun c => { c with lapsed := [] }) with switch := some { w with toSave := w.toSave.filter (· != h) } }.endSwitch)
          else
            match todo.find? (fun lk => d.launchStill lk h) with
            | some lk => write (fun d => d.saveLaunch m t lk h w)
            | none => ([], d))

/-! ### Restoring (R306 to R308) -/

/-- The saved launches of a core whose device-private bytes stand at their place in an area (R305, R371). -/
def Dev.savedAt (d : Dev) (m : Memory) (area : W64) (portable : Bool) (x : Saved) : Bool :=
  x.portable == portable && (x.priv ((d.terrace x.terr).block area x.h) portable).all (fun c => m.read c.1 == c.2)

/-- A slot takes its saved state from its record; its vector registers are unrestored, but for those that were pending or awaiting-link
(R306, R33). A slot lost with a bridge stays so. -/
def Slot.restored (s : Slot) (m : Memory) (a clock : Nat) (entry : Nat → V512) : Slot :=
  let n8 (o : Nat) : Nat := leNat (m.bytes (a + o) 8)
  let b (o : Nat) : Nat := (m.read (a + o)).toNat
  let lost := s.st == .held .lost
  let svc := !lost && (b 0x9F).testBit 2
  let st : SlotSt := if lost then s.st else match b 0x9E with
    | 0 => .ready
    | 1 => if svc then .waiting .service else .ready
    | 2 => .held .trap
    | _ => .held .debug
  let lanes := BitVec.ofNat 16 (leNat (m.bytes (a + 0x9C) 2))
  { s with
    st := st
    readyAt := clock
    yielded := false
    pc := BitVec.ofNat 64 (n8 0)
    aregs := ⟨(List.range 16).map (fun i => (i, BitVec.ofNat 64 (n8 (8 + 8 * i))))⟩
    kregs := ⟨(List.range 8).map (fun i => (i, BitVec.ofNat 16 (leNat (m.bytes (a + 0x88 + 2 * i) 2))))⟩
    tsw := BitVec.ofNat 32 (leNat (m.bytes (a + 0x98) 4))
    laneSet := if s.kind == .ordered then lanes &&& s.laneSet else lanes
    wakeBit := (b 0x9F).testBit 0
    svcHeld := (b 0x9F).testBit 1
    svcWait := svc
    frec0 := if lost then s.frec0 else BitVec.ofNat 64 (n8 0xA0)
    frec1 := if lost then s.frec1 else BitVec.ofNat 64 (n8 0xA8)
    frec2 := if lost then s.frec2 else BitVec.ofNat 64 (n8 0xB0)
    frec3 := if lost then s.frec3 else BitVec.ofNat 64 (n8 0xB8)
    gtid := BitVec.ofNat 48 (n8 0xE0)
    rot := ⟨(List.range 128).map (fun i => (i, BitVec.ofNat 32 (leNat (m.bytes (a + 0x200 + 4 * i) 4))))⟩
    vregs := ⟨(List.range s.winCount).map (fun j => (j, entry (s.winBase + j)))⟩
    vst := ⟨((List.range s.winCount).filter (fun j => !s.ops.any (fun o => o.vd.contains j))).map (fun j => (j, match s.vst.get .present j with
      | .awaiting x => VSt.awaiting x
      | _ => VSt.unrestored))⟩ }

/-- A saved slot stands on its core again; poison comes back where its line still has it. -/
def Dev.restoreSlot (m : Memory) (a t h : Nat) (d : Dev) (n : Nat) : Dev :=
  let k := awayIx t n
  let s := d.slot h k
  if s.st == .free then d else
  let entry (e : Nat) : V512 := BitVec.ofNat 512 (leNat (m.bytes (a + 0x160000 + 64 * e) 64))
  let bad := ((d.core h).rfPoison.filter (fun e => e / 4096 == k)).map (fun e => s.winBase + e % 4096)
  let bad := bad.filter (fun e => d.linePoison.contains (lineOf (a + 0x160000 + 64 * e)))
  let s := s.restored m (a + 0x140000 + 2048 * n) d.clock entry
  let d := (d.rename h k n).updCore h (fun c => { c with
    slots := c.slots.put n { s with refused := s.refused.map (accFor h k n) }
    away := c.away.erase k
    rfPoison := c.rfPoison.filter (fun e => e / 4096 != k) ++ bad })
  d.landHeld h n

/-- The restore is refused: the areas do not hold what this device saved (R305). -/
def Dev.refuseRestore (d : Dev) (w : Switch) : Dev :=
  let d : Dev := match w.inn with
    | some t => d.updTerr t (fun x => x.withState 2)
    | none => d
  let d : Dev := match w.inn with
    | some t => { d with launches := ⟨d.launches.ents.map (fun (e : Nat × Launch) => if e.2.terr == t then (e.1, { e.2 with out := true }) else e)⟩ }
    | none => d
  if w.toSave.isEmpty then { d with switch := none, switchDone := 2 }
  else { d with switch := some { w with inn := none, toRestore := [] }, switchDone := 2 }

/-- The tiles of a restored queue come back when all of them are FREE; until then the queue is not arbitrated. -/
def Dev.tilesBack (d : Dev) (h : Nat) (tiles : AMap Tile) : Option Dev :=
  let k := d.court (courtOf h)
  if tiles.keys.all (fun t => (k.tiles.get Tile.init t).owner.isNone) then
    some (d.updCourt (courtOf h) (fun k => { k with tiles := tiles.ents.foldl (fun m t => m.put t.1 t.2) k.tiles }))
  else none

/-- What had been held back at a core is presented again. -/
def Dev.takeUpAll (d : Dev) (h : Nat) : Dev :=
  let c := d.core h
  let d := ((c.held.map (fun r => (r.h, r.n))).dedup).foldl (fun d e => d.takeUp h e.1 e.2) d
  ((c.heldEng.map (fun w => (w.h, w.cq))).dedup).foldl (fun d e => d.takeUpEng h e.1 e.2) d

/-- The 4 KiB units of a launch's local store in ascending order. -/
def Core.units (x : Core) (lk : Nat) : List Nat := (List.range 256).filter (fun u => (x.regionWords [lk]).any (fun w => w / 4096 == u))

/-- A saved launch is restored on its core: its state, ranks and messages, then its slots; the units of its local store follow. -/
def Dev.restoreLaunch (m : Memory) (d : Dev) (x : Saved) (lk a : Nat) : Dev :=
  let tile (t : Nat × Tile) : Nat × Tile := (t.1, { t.2 with el := ⟨((List.range 16384).map (fun i =>
    (i, (BitVec.ofNat 32 (leNat (m.bytes (a + 0x180000 + 65536 * t.1 + 4 * i) 4)) : W32)))).filter (fun e => e.2 != 0#32)⟩ })
  let tiles : AMap Tile := ⟨x.tiles.ents.map tile⟩
  let bad := x.core.lsPoison.filter (fun i => d.linePoison.contains (lineOf (a + 4 * i)))
  let rest := d.saved.filter (· != x)
  let d := { d with saved := rest }.updCore x.h (fun c =>
    { c.withBack { x.core with lsPoison := bad } with lsTodo := c.lsTodo ++ (x.core.units lk).map (fun u => (4096 * u, a, lk)) })
  let d := match d.tilesBack x.h tiles with
    | some d => d
    | none => { d with saved := d.saved ++ [{ x with lks := [], slots := [], core := .init, tiles := tiles }] }
  let d := x.slots.foldl (Dev.restoreSlot m a x.terr x.h) (d.rankTransit x.terr x.h x.slots false)
  let d := (d.launchesBack x.terr).takeUpAll x.h
  -- words of its queues that other cores had held back
  d.cores.keys.foldl (fun d t => (d.takeUpEng t x.h false).takeUpEng t x.h true) d

/-- The first unit of a core's local store comes back (R306), as raw words and tags (R305). -/
def Core.restoreUnit (c : Core) (m : Memory) : Core :=
  match c.lsTodo with
  | [] => c
  | (u, a, lk) :: rest =>
    let ws := (c.regionWords [lk]).filter (fun w => w / 4096 == u / 4096)
    let word (w : Nat) : W32 := BitVec.ofNat 32 (leNat (m.bytes (a + w) 4))
    let tag (w : Nat) : BitVec 4 := (m.read (a + 0x100000 + w / 8)).extractLsb' (if w / 4 % 2 = 0 then 0 else 4) 4
    { c with
      words := ⟨(c.words.ents.filter (fun e => !ws.contains (4 * e.1))) ++ (ws.filter (fun w => word w != 0#32)).map (fun w => (w / 4, word w))⟩
      tags := ⟨(c.tags.ents.filter (fun e => !ws.contains (4 * e.1))) ++ (ws.filter (fun w => tag w != 0#4)).map (fun w => (w / 4, tag w))⟩
      lsTodo := rest }

/-- What a restored launch reads of its block at an address before its local store: its private parts, its slots' records and entries,
its tiles. -/
def Dev.restoreReads (d : Dev) (x : Saved) (a : Nat) : List Nat :=
  linesOf ((x.priv a false).map (·.1)) ++ linesOf (x.slots.flatMap (fun n =>
    let s := d.slot x.h (awayIx x.terr n)
    (List.range 16).map (fun i => a + 0x140000 + 2048 * n + 128 * i) ++
    (List.range s.winCount).map (fun j => a + 0x160000 + 64 * (s.winBase + j)))) ++
  x.tiles.keys.flatMap (fun t => (List.range 512).map (fun i => a + 0x180000 + 65536 * t + 128 * i))

/-- What the first unit of local store still to come is read from: its words and its tags. -/
def Core.unitReads (c : Core) : List Nat :=
  match c.lsTodo with
  | (u, a, _) :: _ => (List.range 32).map (fun i => a + u + 128 * i) ++ (List.range 4).map (fun i => a + 0x100000 + u / 8 + 128 * i)
  | [] => []

/-- The launch can be restored on the core (R306): its resources there are free, its slots neither held nor reserved, and no other
terrace's launch has the queues, if it needs them. -/
def Dev.canRestore (d : Dev) (x : Saved) (lk : Nat) : Bool :=
  let c := d.core x.h
  let ns := d.slotsOn [lk] x.h
  c.roomFor x.core && (ns ++ x.slots).all (fun n => (c.slot n).st == .free) &&
  !(d.holders x.h).any (fun e => (e.2.resvOn x.h).slots.any ns.contains ||
    (e.2.terr != x.terr && !(x.core.mq == .init && x.core.cq == .init)))

/-- The context engine at a core of the incoming terrace (R306): a unit of local store still to come, tiles that wait, or the next
launch whose resources are there; an area that this device did not write is refused. -/
def execContextRestore (h : Nat) : State → Host.Outcome State Fault Refusal :=
  onDev (fun m d =>
    match d.switch with
    | none => d
    | some w =>
      match w.inn with
      | none => d
      | some t =>
        if !w.toRestore.contains h then d else
        let read (ls : List Nat) (f : Dev → Dev) : Dev :=
          match d.visit (d.terrace t).vf false ls with
          | (d, true) => f d
          | (d, false) => d
        if !(d.core h).lsTodo.isEmpty then read (d.core h).unitReads (fun d => (d.updCore h (fun c => c.restoreUnit m)).takeUpAll h) else
        let here := d.saved.filter (fun x => x.terr == t && x.h == h)
        if here.isEmpty then { d with switch := some { w with toRestore := w.toRestore.filter (· != h) } }.endSwitch
        else if (d.saved.filter (fun x => x.terr == t && !x.lks.isEmpty)).any (fun x => !d.savedAt m w.iarea false x) then d.refuseRestore w
        else
          match here.find? (fun x => x.lks.isEmpty) with
          | some x =>
            (match d.tilesBack h x.tiles with
             | some d => { d with saved := d.saved.filter (· != x) }
             | none => d)
          | none =>
            match here.find? (fun x => x.lks.all (fun lk => d.canRestore x lk)) with
            | some x =>
              let a := (d.terrace t).block w.iarea h
              read (d.restoreReads x a) (fun d => d.restoreLaunch m x (x.lks.headD 0) a)
            | none => d)

end Sys2Proof.Machine
end

