-- ==== Sys2Proof/Machine/HostRegs.lean ====
section
/-! DEFINITION. What the host does: terrace descriptors, partition and frame registers, depot pools, inbox rings, slot commands,
messages, CXL.mem accesses and plain registers (R175, R243, R275, R276, R291, R313, R315, R318, R320, R328, R332 to R334, R347 to R352,
R374). -/

namespace Sys2Proof.Machine

/-! ### Terrace descriptors (R275, R276) -/

/-- The terrace with its descriptor words in place of the old ones. -/
def Terrace.withWords (x : Terrace) (w0 w1 : W64) : Terrace := { x with w0 := w0, w1 := w1 }

/-- The limits of Table 2. -/
def Terrace.limitsOk (x : Terrace) : Bool :=
  decide (1 ≤ x.len) && decide (x.base + x.len ≤ nCores) && decide (x.state ≤ 2) && x.has x.supH && x.w1.extractLsb' 0 14 == 0#14

/-- A terrace with STATE ≠ 0 other than t meets the interval. -/
def Dev.overlapped (d : Dev) (t : Nat) (x : Terrace) : Bool :=
  (List.range 32).any (fun u => u != t && (d.terrace u).state != 0 && (d.terrace u).meets x)

/-- The terrace takes part in the switch that runs. -/
def Dev.inSwitch (d : Dev) (t : Nat) : Bool := (d.switch.map (fun w => w.out == some t || w.inn == some t)).getD false

/-- The device takes a descriptor write (R276, R303, R366). A suspension or a resumption needs the context engine, which runs one
switch at a time (log 50). -/
def Dev.descriptorOk (d : Dev) (t : Nat) (x y : Terrace) : Bool :=
  let busy := d.launches.ents.any (fun e => e.2.terr == t && e.2.st != .pending)
  let moves := (x.state == 1 && y.state == 2) || (x.state == 2 && y.state == 1)
  y.limitsOk && !(y.state != 0 && d.overlapped t y) && !(busy && (y.base != x.base || y.len != x.len || y.vf != x.vf)) &&
  !(x.state == 1 && (y.ctx != x.ctx || y.tenant != x.tenant || y.supH != x.supH || y.supSlot != x.supSlot)) &&
  !(d.inSwitch t) && !(moves && d.switch.isSome) && !(d.failed.any y.has)

/-- The write takes effect: a change between active and suspended is a switch of that terrace alone with the area last named
(R303); a terrace turned off returns the profiling lease (R345). Pending launches keep their offset from BASE. -/
def Dev.writeDescriptor (d : Dev) (t : Nat) (w0 w1 : W64) : Dev :=
  let x := d.terrace t
  let y := x.withWords w0 w1
  let d : Dev := { d with launches := ⟨d.launches.ents.map (fun (e : Nat × Launch) =>
    if e.2.terr == t && e.2.st == .pending then (e.1, { e.2 with first := e.2.first + y.base - x.base }) else e)⟩ }
  if x.state = 1 ∧ y.state = 2 then
    (d.updTerr t (fun _ => y.withState 1)).startSwitch (some t) none x.area 0#64
  else if x.state = 2 ∧ y.state = 1 then
    (d.updTerr t (fun _ => y.withState 2)).startSwitch none (some t) 0#64 x.area
  else
    let d := d.updTerr t (fun _ => if x.state = 0 ∧ y.state ≠ 0 then { y with dbg := .init } else y)
    if y.state = 0 then d.profReturn t else if x.state = 0 then d.sliceStarts t else d

/-- A terrace descriptor write (R276). -/
def execTerraceDescriptorWrite (t : Nat) (w0 w1 : W64) : State → Host.Outcome State Fault Refusal :=
  onDev (fun _ d =>
    if t < 32 ∧ d.descriptorOk t (d.terrace t) ((d.terrace t).withWords w0 w1) = true then d.writeDescriptor t w0 w1 else d)

/-! ### Depot pools (R243) -/

/-- The limits of Table 2 of R243. -/
def poolOk (w0 w1 : W64) : Bool :=
  w0.extractLsb' 57 7 == 0#7 && w0.extractLsb' 8 4 == 0#4 && w0.extractLsb' 6 2 != 3#2 &&
  (w0.extractLsb' 3 3 == 3#3 || w0.extractLsb' 3 3 == 4#3) && w0.extractLsb' 1 2 == 0#2 &&
  w1.extractLsb' 55 3 == 0#3 && w1.extractLsb' 23 9 == 0#9 && w1.extractLsb' 0 23 != 0#23 && decide ((w1.extractLsb' 58 6).toNat < 32)

/-- A pool descriptor write (R243): taken only while every frame is free; the list is rebuilt with index 0 on top. -/
def execPoolDescriptorWrite (dep pool : Nat) (w0 w1 : W64) : State → Host.Outcome State Fault Refusal :=
  onDev (fun _ d =>
    let p := d.pool dep pool
    if p.free ≠ p.count ∨ poolOk w0 w1 = false ∨ 9 ≤ dep ∨ 16 ≤ pool then d else
    d.updPool dep pool (fun _ => ⟨w0 &&& ~~~0xFFF#64, w0.extractLsb' 6 2, w0.extractLsb' 3 3, w0.getLsbD 0, (w1.extractLsb' 58 6).toNat,
      (w1.extractLsb' 0 23).toNat, [], 0⟩))

/-! ### Partition and frame registers (R328, R332 to R334) -/

/-- The device takes a QPART write (R332): no function's MWAYS comes to lie in another's WMASK, whichever of the two the write
changes (R335). -/
def Dev.qpartOk (d : Dev) (f : Nat) (v : W64) : Bool :=
  let x := d.func f
  let w := v.toNat % 65536
  let m := (v.toNat / 2 ^ 32) % 65536
  decide (w ≠ 0) && decide (m &&& w = m) &&
  (List.range 33).all (fun g => g == f || (decide ((d.func g).wmask &&& m = 0) && decide (w &&& (d.func g).mways = 0))) &&
  !(x.mewsV && m != x.mways)

/-- A QPART write (R332, R333): with TRIM, the function's lines outside the new mask leave, written ones to memory first; a pinned
one leaves when its pin ends. -/
def execQpartWrite (f : Nat) (v : W64) : State → Host.Outcome State Fault Refusal :=
  onDev (fun _ d =>
    if 33 ≤ f ∨ d.qpartOk f v = false then d else
    let d := d.updFunc f (fun x => { x with qpart := v &&& 0x0000FFFF0000FFFF#64 })
    if v.getLsbD 48 then
      let w := v.toNat % 65536
      { d with qsets := ⟨d.qsets.ents.map (fun e => (e.1, (e.2.map (fun q =>
          if q.owner == f && !(w.testBit q.way) then { q with trim := true } else q)).filter (fun q => !q.trim || d.pinned q)))⟩ }
    else d)

/-- No set of a quay needs more lines of a region than the ways of the mask that it can fill (R334, R329). -/
def setsHold (ways base len : Nat) : Bool :=
  let ls := (List.range (len / 128)).map (fun i => base + 128 * i)
  let keys := ls.map quayKey
  ls.all (fun a => decide (keys.count (quayKey a) ≤
    ((List.range 16).filter (fun i => ways.testBit i && !(i == 15 && decide (quaySet a < 1024)))).length))

/-- The device takes a QMEWS write (R334). The range is tested whether or not the write sets V. -/
def Dev.qmewsOk (d : Dev) (f : Nat) (v : W64) : Bool :=
  let x := d.func f
  let y : Func := { x with qmews := v }
  let same := y.mewsBase == x.mewsBase && y.mewsLen == x.mewsLen
  v.extractLsb' 1 20 == 0#20 && !(x.mewsV && y.mewsV && !same) &&
  !(y.mewsV && (x.mways == 0 || y.mewsLen == 0)) && decide (y.mewsBase + y.mewsLen ≤ 0x10000000000) && setsHold x.mways y.mewsBase y.mewsLen

/-- A QMEWS write (R334): setting V makes the lines of the range that stand in a quay leave it, so that the first access to each fills it
into a way of MWAYS (log 46); clearing V turns every mews line into an ordinary line of the function, written to memory. -/
def execQmewsWrite (f : Nat) (v : W64) : State → Host.Outcome State Fault Refusal :=
  onDev (fun _ d =>
    if 33 ≤ f ∨ d.qmewsOk f v = false then d else
    let x := d.func f
    let y : Func := { x with qmews := v }
    let d := d.updFunc f (fun x => { x with qmews := v })
    let each (g : QLine → QLine) : Dev := { d with qsets := ⟨d.qsets.ents.map (fun e => (e.1, (e.2.map g).filter (fun q => !q.trim || d.pinned q)))⟩ }
    if !x.mewsV && y.mewsV then each (fun q => if !q.mews && y.inMews q.pa then { q with trim := true } else q)
    else if x.mewsV && !y.mewsV then each (fun q => if q.mews && x.inMews q.pa then { q with mews := false, dirty := false, owner := f } else q)
    else d)

/-- A RES write of ±n frames (R328). -/
def execResWrite (f : Nat) (v : W32) : State → Host.Outcome State Fault Refusal :=
  onDev (fun _ d =>
    let r : Int := (d.func f).res + v.toInt
    if 32 ≤ f ∨ r < 0 ∨ ((d.func f).burst : Int) < r then d else d.updFunc f (fun x => { x with res := r.toNat }))

/-! ### Host inbox rings (R350) -/

/-- A ring length: 0, or a power of two from 16 to 65,536. -/
def ringLen (v : Nat) : Bool := v == 0 || (List.range 13).any (fun i => v == 16 * 2 ^ i)

/-- A write of HQBASE or HQLEN (R350; log 51). -/
def execHqRingWrite (f : Nat) (len : Bool) (v : W64) : State → Host.Outcome State Fault Refusal :=
  onDev (fun _ d =>
    if 32 ≤ f then d
    else if len then
      (if ringLen (v.toNat % 2 ^ 32) then d.updFunc f (fun x => { x with hqLen := v.toNat % 2 ^ 32, hqHead := 0, hqTail := 0 }) else d)
    else if v.toNat % 4096 ≠ 0 then d
    else d.updFunc f (fun x => { x with hqBase := v, hqHead := 0, hqTail := 0 }))

/-- A write of HQTAIL (R350): ignored when it would leave more than HQLEN messages, or fewer than none, counted modulo 2^32. -/
def execHqtailWrite (f : Nat) (v : W32) : State → Host.Outcome State Fault Refusal :=
  onDev (fun _ d =>
    let x := d.func f
    if 32 ≤ f ∨ x.hqLen < (x.hqHead - v).toNat then d else d.updFunc f (fun x => { x with hqTail := v }))

/-! ### Slot commands of the host (R291, R349) -/

/-- Operand i of SLOTCMD, from byte 8 (log 52). -/
def cmdOperand (b : BitVec 256) (i : Nat) : W64 := b.extractLsb' (64 * (i + 1)) 64

/-- The slot named lies in a terrace of the function. -/
def Dev.hostName (d : Dev) (f : Nat) (v : W64) (kind : Bool) : Bool :=
  (List.range 32).any (fun t => (d.terrace t).state != 0 && (d.terrace t).vf == f && d.nameOk t v kind)

/-- The register takes the 32 bytes, and the command goes to its slot if its operands are good (log 52). -/
def Dev.hostCmd (d : Dev) (f op : Nat) (b : BitVec 256) (good : Bool) (o : SlotOp) : Dev :=
  if 32 ≤ f ∨ d.up = false then d else
  let d := d.updFunc f (fun x => { x with slotcmd := b })
  let v := cmdOperand b 0
  if (b.extractLsb' 0 8).toNat = op ∧ good = true then d.sendCmd ⟨none, some f, nameCore v, nameSlot v, o⟩ else d

/-- The host's eret (R291, R298). -/
def execSlotcmdEret (f : Nat) (b : BitVec 256) : State → Host.Outcome State Fault Refusal :=
  onDev (fun _ d => d.hostCmd f 1 b (d.hostName f (cmdOperand b 0) false && eretFlagsOk (cmdOperand b 1)) (.eret (cmdOperand b 1) (cmdOperand b 2)))

/-- The host's wake (R291, R299). -/
def execSlotcmdWake (f : Nat) (b : BitVec 256) : State → Host.Outcome State Fault Refusal :=
  onDev (fun _ d =>
    let k := (cmdOperand b 0).extractLsb' 18 2
    d.hostCmd f 2 b (d.hostName f (cmdOperand b 0) true && !k.getLsbD 1) (.wake k))

/-- The host's kill (R291, R301). -/
def execSlotcmdKill (f : Nat) (b : BitVec 256) : State → Host.Outcome State Fault Refusal :=
  onDev (fun _ d => d.hostCmd f 3 b (d.hostName f (cmdOperand b 0) false) .kill)

/-! ### Host messages (R374) -/

/-- A write of HMSGCTL. Host writes into device memory are applied at once, so those before it have been. -/
def execHmsgctl (f : Nat) (v : W64) : State → Host.Outcome State Fault Refusal :=
  onDev (fun _ d =>
    let x := d.func f
    if 32 ≤ f ∨ x.busy = true ∨ d.up = false then d else
    let t := (v.extractLsb' 0 5).toNat
    let r := (v.extractLsb' 16 16).toNat
    let y := d.terrace t
    if y.vf ≠ f ∨ y.state ≠ 1 ∨ d.rankOk t r = false then d.updFunc f (fun x => { x with err := true })
    else (d.updFunc f (fun x => { x with busy := true, err := false })).send 0 (.messageArrival ⟨t, r, x.hmsg, 0xFFFF, y.supH, none, some f⟩))

/-! ### CXL.mem (R175, R347, R348, R357, R363) -/

/-- A host read of a line of device memory: a read point at its home, after which the host holds the line. Before bring-up ends,
and of a poisoned line, it returns poison: no bytes. While the line is pending, or finds no way, the host's request stands as it is (log 53). -/
def execHostMemRead (pa : Nat) (s : State) : Host.Outcome State Fault Refusal :=
  let l := lineOf pa
  if isHbm pa then
    onDev (fun m d =>
      if !d.up then { d with hostRead := [] }
      else if d.pending l then d
      else
        match d.quay 32 l false with
        | none => d.quayWaited 32 l
        | some d =>
          { d with
            hostRead := if d.linePoison.contains l then [] else m.bytes l 128
            hostLines := if d.hostLines.contains l then d.hostLines else d.hostLines ++ [l] }) s
  else .fault (.noSuchAddress pa)

/-- A host group of one line, applied at its home with what follows; while the line finds no way the host's request stands as it is
(R331; log 53). -/
def hostApply (m : Memory) (d : Dev) (l : Nat) (data : Line) (mask : LineMask) (after : Dev → Dev) : List Host.Cell × Dev :=
  match d.quay 32 l true with
  | none => ([], d.quayWaited 32 l)
  | some d =>
    (d.logCells m 32 l ++ maskedCells l data mask,
     after (if mask == BitVec.allOnes 128 then { d with linePoison := d.linePoison.filter (· != l) } else d))

/-- A host write of a line of device memory: a one-line group at its home. Before bring-up ends nothing is written; while the line
is pending the host's request stands as it is (log 53). -/
def execHostMemWrite (pa : Nat) (data : Line) (mask : LineMask) (s : State) : Host.Outcome State Fault Refusal :=
  let l := lineOf pa
  if isHbm pa then onMem (fun m d => if d.up = false ∨ d.pending l = true then ([], d) else hostApply m d l data mask id) s
  else .fault (.noSuchAddress pa)

/-- The host's snoop response (R348): dirty data are applied first as a host group, then what waited at the home goes on. -/
def execBirsp (pa : Nat) (dirty : Bool) (data : Line) : State → Host.Outcome State Fault Refusal :=
  onMem (fun m d =>
    let l := lineOf pa
    let q := homeOf l
    if !((d.home q).snoop.any (fun e => e.2 == l)) then ([], d) else
    let on (d : Dev) : Dev :=
      (({ d with hostLines := d.hostLines.filter (· != l) } : Dev).updHome q (fun x => { x with snoop := x.snoop.filter (fun e => e.2 != l) })).serveHome q
    if dirty then hostApply m d l data (BitVec.allOnes 128) on else ([], on d))

/-! ### Registers without behaviour of their own (R349) -/

/-- The terrace whose debug block stands in a function's space: the first that it owns and that is not off (log 54). -/
def Dev.dbgTerr (d : Dev) (f : Nat) : Option Nat := (List.range 32).find? (fun t => (d.terrace t).state != 0 && (d.terrace t).vf == f)

/-- A register of a virtual function: HMSG, DUMPBASE, TRTAIL. -/
def Dev.writeVf (d : Dev) (f off : Nat) (v : W64) : Dev :=
  let dbg (g : Dbg → Dbg) : Dev := match d.dbgTerr f with
    | some t => d.updTerr t (fun x => { x with dbg := g x.dbg })
    | none => d
  if 0x20C0 ≤ off ∧ off < 0x2100 ∧ off % 8 = 0 then
    (if (d.func f).busy then d else
      let i := 8 * (off - 0x20C0)
      d.updFunc f (fun x => { x with hmsg := (x.hmsg &&& ~~~((0xFFFFFFFFFFFFFFFF#512) <<< i)) ||| ((v.setWidth 512) <<< i) }))
  else if off = 0x3008 then (if v.toNat % 2 ^ 21 = 0 then dbg (fun b => { b with dumpBase := v }) else d)
  else if off = 0x3024 then dbg (fun b => { b with trTail := v.setWidth 32 })
  else d

/-- A terrace other than off or suspended holds the court. -/
def Dev.courtActive (d : Dev) (c : Nat) : Bool :=
  (List.range 32).any (fun t => (d.terrace t).state == 1 && (List.range 4).any (fun i => (d.terrace t).has (4 * c + i)))

/-- A register of the physical function: DTBASE, TROOT, a court's group identifier, GUAR, BURST, RXBASE, RXLEN (log 51). -/
def Dev.writePf (d : Dev) (off : Nat) (v : W64) : Dev :=
  if 0x200 ≤ off ∧ off < 0x300 ∧ off % 8 = 0 then
    (if v.toNat % 8192 = 0 then d.updTerr ((off - 0x200) / 8) (fun x => { x with dtBase := v }) else d)
  else if off = 0x300 then (if v.toNat % 8192 = 0 then { d with troot := v } else d)
  else if 0x400 ≤ off ∧ off < 0x400 + 576 then
    (if d.courtActive (off - 0x400) then d else d.updCourt (off - 0x400) (fun k => { k with group := v.setWidth 6 }))
  else if 0x1000 ≤ off ∧ off < 0x1200 ∧ off % 16 = 0 then d.updFunc ((off - 0x1000) / 16) (fun x => { x with guar := v.toNat % 2 ^ 32 })
  else if 0x1000 ≤ off ∧ off < 0x1200 ∧ off % 16 = 4 then d.updFunc ((off - 0x1000) / 16) (fun x => { x with burst := v.toNat % 2 ^ 32 })
  else if 0x2100 ≤ off ∧ off < 0x2400 ∧ (off - 0x2100) % 64 = 0x18 then
    (if v.toNat % 4096 = 0 then { d with ports := d.ports.upd .init ((off - 0x2100) / 64) (fun p => { p with rxbase := v }) } else d)
  else if 0x2100 ≤ off ∧ off < 0x2400 ∧ (off - 0x2100) % 64 = 0x20 then
    (if v.toNat % 4096 = 0 then { d with ports := d.ports.upd .init ((off - 0x2100) / 64) (fun p => { p with rxlen := v }) } else d)
  else d

end Sys2Proof.Machine
end

