-- ==== Sys2Proof/Machine/Debug.lean ====
section
/-! DEFINITION. The debugger: breakpoint entries, holds, stops, single steps, freezes, dumps and the trace ring's registers (R337 to
R343, R346, R352). -/

namespace Sys2Proof.Machine

/-! ### Registers (R338, R352) -/

/-- An entry the block takes: a PC that is a multiple of 8, and no reserved bit (log 55). -/
def bpOk (w0 w1 : W64) : Bool :=
  w0.extractLsb' 0 3 == 0#3 && w1.extractLsb' 48 14 == 0#14 &&
  (match (w1.extractLsb' 62 2).toNat with
   | 1 => true
   | 2 => w1.extractLsb' 32 16 == 0#16
   | _ => w1.extractLsb' 0 48 == 0#48)

/-- A write of a breakpoint entry (R338). -/
def execBreakpointEntryWrite (t e : Nat) (w0 w1 : W64) : State → Host.Outcome State Fault Refusal :=
  onDev (fun _ d =>
    if (d.terrace t).state = 0 ∨ 8 ≤ e ∨ bpOk w0 w1 = false then d
    else d.updTerr t (fun x => { x with dbg := { x.dbg with bp := x.dbg.bp.put e (w0, w1) } }))

/-- A write of TRBASE or TRLEN (R352; log 51). -/
def execTraceRingWrite (t : Nat) (len : Bool) (v : W64) : State → Host.Outcome State Fault Refusal :=
  onDev (fun _ d =>
    let set (f : Dbg → Dbg) : Dev := d.updTerr t (fun x => { x with dbg := { f x.dbg with trHead := 0, trTail := 0, trDrop := 0, trNext := 0, epoch := x.dbg.epoch + 1 } })
    if (d.terrace t).state = 0 then d
    else if len then (if ringLen (v.toNat % 2 ^ 32) then set (fun b => { b with trLen := v.toNat % 2 ^ 32 }) else d)
    else if v.toNat % 4096 ≠ 0 then d else set (fun b => { b with trBase := v }))

/-! ### Commands (R339) -/

/-- A command of the debugger: none is taken of a terrace that is off. -/
def debugCmd (t : Nat) (f : Memory → Dev → Dev) : State → Host.Outcome State Fault Refusal :=
  onDev (fun m d => if (d.terrace t).state = 0 then d else f m d)

/-- A record about a command that is dropped (status 1) or refused (status 2). -/
def Dev.dropCmd (m : Memory) (d : Dev) (t h n status : Nat) : Dev :=
  let s := d.slot h n
  d.traceRec m t 7 status h s.taskId s.gtid n s.pc

/-- The command names a core of the terrace, and the terrace is held (log 56). -/
def Dev.cmdOk (d : Dev) (t h : Nat) : Bool := (d.terrace t).dbg.hold && (d.terrace t).has h

/-- HOLD. -/
def execHold (t : Nat) : State → Host.Outcome State Fault Refusal :=
  debugCmd t (fun _ d => d.updTerr t (fun x => { x with dbg := { x.dbg with hold := true } }))

/-- A stopped slot goes on: it waits for its service, or presents again the instruction at its PC, passing over a match there once
(R340). -/
def Slot.resume (s : Slot) (clock : Nat) (step : Bool) : Slot :=
  if s.st == .held .debug then
    { (if s.svcWait then { s with st := .waiting .service } else s.toReady clock) with bpPass := some s.pc, stepReq := step, stopReq := false }
  else s

/-- RELEASE. -/
def execDebugRelease (t : Nat) : State → Host.Outcome State Fault Refusal :=
  debugCmd t (fun _ d =>
    let x := d.terrace t
    let d : Dev := { d.updTerr t (fun x => { x with dbg := { x.dbg with hold := false } }) with
      cores := ⟨d.cores.ents.map (fun c => if !x.has c.1 then c else (c.1, { c.2 with
        slots := ⟨c.2.slots.ents.map (fun e => if e.2.st == .free || terrOf e.2.lk != t then e else
          (e.1, { e.2.resume d.clock false with stopReq := false, bpDue := false, stepReq := false, bpPass := none }))⟩ }))⟩ }
    { d with courts := ⟨d.courts.ents.map (fun k => if (List.range 4).any (fun i => x.has (4 * k.1 + i)) then (k.1, { k.2 with frozen := false }) else k)⟩ })

/-- STOP (R340): a WAITING slot at once, its parked lanes withdrawn; another at its turn. A slot with a lease stops once it has
none. -/
def execStop (t h n : Nat) : State → Host.Outcome State Fault Refusal :=
  debugCmd t (fun m d =>
    if !d.cmdOk t h then d.dropCmd m t h n 1 else
    let s := d.slot h n
    match s.st with
    | .free | .held _ => d
    | .waiting _ =>
      if s.leased then d.updSlot h n (fun s => { s with stopReq := true })
      else (d.updCore h (fun c => c.withdrawSlot n)).updSlot h n (fun s => { s.noTable with st := .held .debug, heldAt := d.clock })
    | .ready | .seated _ => d.updSlot h n (fun s => { s with stopReq := true }))

/-- CONT. -/
def execCont (t h n : Nat) : State → Host.Outcome State Fault Refusal :=
  debugCmd t (fun m d => if !d.cmdOk t h then d.dropCmd m t h n 1 else d.updSlot h n (fun s => s.resume d.clock false))

/-- STEP. -/
def execStep (t h n : Nat) : State → Host.Outcome State Fault Refusal :=
  debugCmd t (fun m d => if !d.cmdOk t h then d.dropCmd m t h n 1 else d.updSlot h n (fun s => s.resume d.clock true))

/-- FREEZE (R341): the court's queues stop at their step boundaries. -/
def execFreeze (t h : Nat) : State → Host.Outcome State Fault Refusal :=
  debugCmd t (fun m d => if !d.cmdOk t h then d.dropCmd m t h 0 1 else d.updCourt (courtOf h) (fun k => { k with frozen := true }))

/-- THAW. -/
def execThaw (t h : Nat) : State → Host.Outcome State Fault Refusal :=
  debugCmd t (fun m d => if !d.cmdOk t h then d.dropCmd m t h 0 1 else d.updCourt (courtOf h) (fun k => { k with frozen := false }))

/-! ### Dumps (R342) -/

/-- The court's freeze is in force: no step of its queues has begun, and what they had landing has landed (R227, R341). -/
def Dev.freezeOn (d : Dev) (c : Nat) : Bool :=
  let mine (x : Nat × Bool × Nat) : Bool := courtOf x.1 == c
  let word (w : EngWord) : Bool := courtOf w.h == c
  (d.court c).frozen &&
  (List.range 4).all (fun i => [false, true].all (fun cq => ((((d.core (4 * c + i)).eq cq).q.head?).map (fun x => !x.midStep)).getD true)) &&
  d.net.all (fun f => !f.e.forCmd.any mine) && d.cores.ents.all (fun k => !k.2.heldEng.any word &&
    !k.2.parked.any (fun p => match p.src with | .landing w => word w | _ => false))

/-- Every slot of the terrace on the core is stopped or FREE, and its court's freeze is in force. -/
def Dev.dumpOk (d : Dev) (t h : Nat) : Bool :=
  (d.liveSlots t h).all (fun n => match (d.slot h n).st with | .held _ => true | _ => false) && d.freezeOn (courtOf h)

/-- Slot n of core h as a dump of the terrace shows it: where it stands, or as it was saved; one that the terrace does not have is FREE. -/
def Dev.dumpSlot (d : Dev) (t h n : Nat) : Slot :=
  let s := d.slot h n
  if s.st != .free && terrOf s.lk == t then s else d.slot h (awayIx t n)

/-- The register-file entries of a slot so shown that are poisoned. -/
def Dev.dumpPoison (d : Dev) (t h n : Nat) (s : Slot) : List Nat :=
  let live := (d.slot h n).st != .free && terrOf (d.slot h n).lk == t
  ((List.range s.winCount).filter (fun j =>
    (d.core h).rfPoison.contains (if live then s.winBase + j else 4096 * awayIx t n + j))).map (s.winBase + ·)

/-- What a core's memory is for each launch of the terrace there: as it stands, or as it was saved. -/
def Dev.dumpCores (d : Dev) (t h : Nat) : List (Nat × Core) :=
  let saved := d.saved.filter (fun x => x.terr == t && x.h == h)
  (d.launchesOn t h).map (fun lk => (lk, ((saved.find? (fun x => x.lks.contains lk)).map (·.core)).getD (d.core h)))

/-- The slots of the terrace's launches on the core as a dump shows them. -/
def Dev.dumpSlots (d : Dev) (t h : Nat) : List (Nat × Slot) :=
  (d.slotsOn (d.launchesOn t h) h).map (fun n => (n, d.dumpSlot t h n))

/-- The cells of the context block that a dump of the core writes. -/
def Dev.dumpCells (d : Dev) (t h : Nat) : List Host.Cell :=
  let a := (d.terrace t).dbg.dumpBase.toNat
  let slots := d.dumpSlots t h
  let tiles : AMap Tile := ⟨(d.queueTiles h (fun lk => terrOf lk == t)).ents ++
    (d.saved.filter (fun x => x.terr == t && x.h == h)).flatMap (fun x => x.tiles.ents)⟩
  (d.dumpCores t h).flatMap (fun c => c.2.storeCells a [c.1]) ++ slots.flatMap (fun e => slotCells a e.1 e.2) ++ tileCells a tiles ++
    endCells a ++ privCells a d.count false (privCore ++ (slots.filter (fun e => e.2.st != .free)).flatMap (fun e => privOf e.1))

/-- DUMP: the context block of the core, or of what was saved of it, is written to DUMPBASE, and nothing of what it reads changes. -/
def execDump (t h : Nat) : State → Host.Outcome State Fault Refusal :=
  onMem (fun m d =>
    if (d.terrace t).state = 0 then ([], d)
    else if !d.cmdOk t h then ([], d.dropCmd m t h 0 1)
    else if !d.dumpOk t h then ([], d.dropCmd m t h 0 2)
    else
      let a := (d.terrace t).dbg.dumpBase.toNat
      let cells := d.dumpCells t h
      let bad := (d.dumpCores t h).flatMap (fun c => c.2.poisonAt a [c.1]) ++
        (d.dumpSlots t h).flatMap (fun e => (d.dumpPoison t h e.1 e.2).map (fun r => a + 0x160000 + 64 * r))
      match d.visit (d.terrace t).vf true (linesOf (cells.map (·.1))) with
      | (d, true) => (d.logged m (d.terrace t).vf cells, { (d.clearPoison cells).putPoison bad with count := d.count + 1 })
      | (d, false) => ([], d))

/-! ### DBGCMD and the other registers (R339, R349, R352) -/

/-- A write of DBGCMD: one command of Table 2 with its operands; an op that is not listed, or a bit that is not zero, is dropped and
reported. -/
def dbgCmd (t : Nat) (v : W64) : State → Host.Outcome State Fault Refusal :=
  let h := (v.extractLsb' 8 12).toNat
  let n := (v.extractLsb' 20 6).toNat
  let bad := debugCmd t (fun m d => d.dropCmd m t h n 1)
  if v.extractLsb' 26 38 ≠ 0#38 then bad else
  match (v.extractLsb' 0 8).toNat with
  | 1 => execHold t
  | 2 => execDebugRelease t
  | 3 => execStop t h n
  | 4 => execCont t h n
  | 5 => execStep t h n
  | 6 => execFreeze t h
  | 7 => execThaw t h
  | 8 => execDump t h
  | _ => bad

/-- A write of a register by its offset: DBGCMD, or one without behaviour of its own; one at an offset that names no such register is
dropped (R349). -/
def execRegisterWrite (f off : Nat) (v : W64) : State → Host.Outcome State Fault Refusal :=
  fun s =>
  match (if off = 0x3000 ∧ f < 32 then s.dev.dbgTerr f else none) with
  | some t => dbgCmd t v s
  | none => onDev (fun _ d => if f = 32 then d.writePf off v else if f < 32 then d.writeVf f off v else d) s

end Sys2Proof.Machine
end

