-- ==== Sys2Proof/Machine/Extan.lean ====
section
/-! DEFINITION. Extan ports: rings, flits and their replay, the port engine's work and a partner's (R238, R351, R354 to R356). -/

namespace Sys2Proof.Machine

def Dev.port (d : Dev) (p : Nat) : Port := d.ports.get .init p
def Dev.updPort (d : Dev) (p : Nat) (f : Port → Port) : Dev := { d with ports := d.ports.upd .init p f }

/-! ### Registers (R351) -/

/-- A write of RBASE or RLEN. -/
def execPortRingWrite (p : Nat) (len : Bool) (v : W64) : State → Host.Outcome State Fault Refusal :=
  onDev (fun _ d =>
    let x := d.port p
    if 12 ≤ p ∨ x.head ≠ x.tail then d
    else if len then
      (if ringLen (v.toNat % 2 ^ 32) then d.updPort p (fun x => { x with rlen := v.toNat % 2 ^ 32, head := 0, tail := 0 }) else d)
    else if v.toNat % 4096 ≠ 0 then d
    else d.updPort p (fun x => { x with rbase := v, head := 0, tail := 0 }))

/-- A write of TAIL. -/
def execPortTailWrite (p : Nat) (v : W32) : State → Host.Outcome State Fault Refusal :=
  onDev (fun _ d =>
    let x := d.port p
    if 12 ≤ p ∨ x.rlen < (v - x.head).toNat then d else d.updPort p (fun x => { x with tail := v }))

/-! ### Flits (R354; log 57) -/

/-- CRC-64 with the ECMA-182 polynomial, byte by byte. -/
def crcBit (c : W64) : W64 := if c.getLsbD 63 then (c <<< 1) ^^^ 0x42F0E1EBA9EA3693#64 else c <<< 1
def crcByte (c : W64) (b : Byte) : W64 :=
  let c := c ^^^ ((b.setWidth 64) <<< 56)
  crcBit (crcBit (crcBit (crcBit (crcBit (crcBit (crcBit (crcBit c)))))))
def crc64 (bs : List Byte) : W64 := bs.foldl crcByte 0#64

/-- The bytes of a flit, lowest first. -/
def flitBytes (f : BitVec 2048) : List Byte := (List.range 256).map (fun i => f.extractLsb' (8 * i) 8)

/-- A flit: header, payload, CRC. -/
def makeFlit (credit vc type : Nat) (ack seq : BitVec 12) (payload : List Byte) : BitVec 2048 :=
  let hd : W64 := 0#16 ++ BitVec.ofNat 16 credit ++ BitVec.ofNat 4 vc ++ BitVec.ofNat 4 type ++ ack ++ seq
  let body := leBytes 8 hd.toNat ++ (payload ++ List.replicate (240 - payload.length) 0#8)
  BitVec.ofNat 2048 (leNat (body ++ leBytes 8 (crc64 body).toNat))

def flitHdr (f : BitVec 2048) : W64 := f.extractLsb' 0 64
def flitVc (f : BitVec 2048) : Nat := ((flitHdr f).extractLsb' 28 4).toNat
def flitType (f : BitVec 2048) : Nat := ((flitHdr f).extractLsb' 24 4).toNat
def flitAck (f : BitVec 2048) : BitVec 12 := (flitHdr f).extractLsb' 12 12
def flitSeq (f : BitVec 2048) : BitVec 12 := (flitHdr f).extractLsb' 0 12

/-- A flit whose CRC holds and whose header holds no reserved value. -/
def flitGood (f : BitVec 2048) : Bool :=
  crc64 ((flitBytes f).take 248) == f.extractLsb' 1984 64 && (flitHdr f).extractLsb' 48 16 == 0#16 && decide (flitVc f ≤ 3) && decide (flitType f ≤ 3)

/-- A flit that carries no data goes out; it frees the buffers counted since the last. -/
def Port.control (x : Port) (type : Nat) : Port :=
  { x with out := x.out ++ [makeFlit x.freed 3 type x.rxSeq x.txSeq []], freed := 0 }

/-- Data flits go out while fewer than 1,024 await their acks. -/
def Port.pump : Nat → Port → Port
  | 0, x => x
  | k + 1, x =>
    if x.toSend.isEmpty || decide (1024 ≤ x.sent.length) then x else
    let seq := x.txSeq + 1
    let f := makeFlit x.freed x.vc 1 x.rxSeq seq (x.toSend.take 240)
    Port.pump k { x with txSeq := seq, freed := 0, sent := x.sent ++ [f], out := x.out ++ [f], toSend := x.toSend.drop 240 }

/-- The unacknowledged flits go out again, in order. -/
def Port.replayAll (x : Port) : Port := { x with out := x.out ++ x.sent, replay := x.replay + BitVec.ofNat 64 x.sent.length }

/-! ### The port engine (R356) -/

/-- Fields of a descriptor. -/
def pdOp (b : List Byte) : Nat := at_ b 0 1
def pdLen (b : List Byte) : Nat := at_ b 4 4
def pdSrc (b : List Byte) : Nat := at_ b 8 8
def pdDst (b : List Byte) : Nat := at_ b 16 8
def pdStat (b : List Byte) : Nat := at_ b 24 8

/-- All bytes of a range lie in the first tier. -/
def inTier (a n : Nat) : Bool := isHbm a && isHbm (a + n - 1)

/-- The descriptor keeps Table 4. Reductions work on words (R238). -/
def pdOk (b : List Byte) : Bool :=
  decide (1 ≤ pdOp b) && decide (pdOp b ≤ 4) && at_ b 1 3 == 0 && (b.drop 32).all (· == 0#8) && decide (4 ≤ pdLen b) && pdLen b % 4 == 0 &&
  (pdOp b != 4 || pdLen b == 64) && inTier (pdSrc b) (pdLen b) && ((pdOp b != 2 && pdOp b != 3) || pdDst b % 4 == 0) && pdStat b % 8 == 0

/-- The status of a work goes to STAT, in device memory, as a one-line group; an address of no such line gets none. -/
def Dev.portStatus (m : Memory) (d : Dev) (a status : Nat) : Dev :=
  if a % 128 > 120 ∨ (isHbm a || isLpddr a) = false then d else
  let x := lineBytes a status 8
  d.addGroup m [⟨lineOf a, lineOf a, x.1, x.2, none⟩] 32 0 none [.nothing]

/-- The engine takes the next descriptor if it is one of those that p names: read with its source at read points, and given its
status at once when it is malformed or the port is lost. -/
def Dev.portTake (m : Memory) (d : Dev) (p : Nat) (ops : Nat → Bool) : Dev :=
  let x := d.port p
  if !d.up || x.rlen == 0 || x.head == x.tail || x.stat.isSome || !(x.st == 1 || x.st == 3) then d else
  let a := x.rbase.toNat + 64 * (x.head.toNat % x.rlen)
  if d.pendingIn a 64 then d else
  let b := m.bytes a 64
  let read (d : Dev) (a n : Nat) : Dev × Bool := d.visit 32 false (linesOf ((List.range n).map (fun i => a + i)))
  if !ops (pdOp b) then d
  else
    match read d a 64 with
    | (d, false) => d
    | (d, true) =>
    let taken := d.updPort p (fun x => { x with head := x.head + 1#32 })
    if !pdOk b then taken.portStatus m (pdStat b) 3
    else if x.st == 3 then taken.portStatus m (pdStat b) 1
    else if d.pendingIn (pdSrc b) (pdLen b) then d
    else
      let n := pdLen b
      match read taken (pdSrc b) n with
      | (_, false) => d
      | (taken, true) => taken.updPort p (fun x => Port.pump 1024 { x with
          stat := some (BitVec.ofNat 64 (pdStat b)), ackAt := d.clock, vc := (if pdOp b = 1 then 0 else if pdOp b = 4 then 2 else 1)
          toSend := b ++ m.bytes (pdSrc b) n })

/-- A transfer, and every descriptor whose OP names no work. -/
def execPortTransfer (p : Nat) : State → Host.Outcome State Fault Refusal := onDev (fun m d => d.portTake m p (fun o => o != 2 && o != 3 && o != 4))
/-- An i32 add reduction. -/
def execPortReduceI32 (p : Nat) : State → Host.Outcome State Fault Refusal := onDev (fun m d => d.portTake m p (· == 2))
/-- An f32 add reduction. -/
def execPortReduceF32 (p : Nat) : State → Host.Outcome State Fault Refusal := onDev (fun m d => d.portTake m p (· == 3))
/-- A message. -/
def execPortMessage (p : Nat) : State → Host.Outcome State Fault Refusal := onDev (fun m d => d.portTake m p (· == 4))

/-! ### Receiving (R355) -/

/-- How many of the unacknowledged flits an acknowledgement covers. -/
def Port.covered (x : Port) (ack : BitVec 12) : Nat :=
  let n := (ack - (x.txSeq - BitVec.ofNat 12 x.sent.length)).toNat
  if n ≤ x.sent.length then n else 0

/-- An acknowledgement: flits leave the replay buffer, and more may go. -/
def Port.acked (x : Port) (ack : BitVec 12) (clock : Nat) : Port :=
  let n := x.covered ack
  if n = 0 then x else Port.pump 1024 { x with sent := x.sent.drop n, fails := 0, ackAt := clock }

/-- Payload of a partner's work in the order received: its window is that of its first flit (R351), and it is complete with the
last byte that its descriptor names. -/
def Port.gather (x : Port) (payload : List Byte) : Port :=
  let win := if x.inBytes.isEmpty then (x.rxbase.toNat, x.rxlen.toNat) else x.inWin
  let bs := x.inBytes ++ payload
  let total := 64 + pdLen bs
  if total ≤ bs.length then { x with inBytes := [], inWin := (0, 0), inDone := x.inDone ++ [(bs.take total, win)] }
  else { x with inBytes := bs, inWin := win }

/-- A data flit: the next in order is taken and acknowledged, a repeated one acknowledged again, one out of order refused. -/
def Port.data (x : Port) (f : BitVec 2048) : Port :=
  let k := (flitSeq f - (x.rxSeq + 1#12)).toNat
  if k = 0 then
    let x := { x with rxSeq := x.rxSeq + 1#12, freed := x.freed + 1 }
    (if flitVc f = 3 then x else x.gather (((flitBytes f).drop 8).take 240)).control 2
  else if 2048 ≤ k then x.control 2 else x.control 3

/-- The work in hand has left the port whole: done, or outside the partner's window, which a message does not name (log 58). -/
def Dev.portDone (m : Memory) (d : Dev) (p : Nat) : Dev :=
  let x := d.port p
  match x.stat with
  | some a =>
    if x.sent.isEmpty && x.toSend.isEmpty then
      { ((d.updPort p (fun x => { x with stat := none })).portStatus m a.toNat (if x.vc ≠ 2 ∧ Config.partnerRefuses d.count = true then 2 else 0)) with
        count := d.count + 1 }
    else d
  | none => d

/-- A flit arrives at a port: a bad one is discarded and refused. A nak of a flit replays, and the naks of sixteen replays, after the one of
its first sending, start a retrain. -/
def execFlitReceive (p : Nat) (flit : BitVec 2048) : State → Host.Outcome State Fault Refusal :=
  onDev (fun m d =>
    let x := d.port p
    if 12 ≤ p ∨ x.st ≠ 1 then d
    else if !flitGood flit then d.updPort p (fun x => x.control 3)
    else
      let x := x.acked (flitAck flit) d.clock
      let x := match flitType flit with
        | 1 => x.data flit
        | 3 => let x := { x with fails := x.fails + 1 }
               if 16 < x.fails then x.withSt 2 else x.replayAll
        | _ => x
      (d.updPort p (fun _ => x)).portDone m p)

/-- The end of a retrain, which failed replays or 65,536 cycles without an ack started (R355): the port comes back, perhaps narrow, and
replays, or it is lost: the work in hand ends with status 1, and what had arrived of a partner's work is dropped. -/
def execPortRetrain (p : Nat) (ok narrow : Bool) : State → Host.Outcome State Fault Refusal :=
  onDev (fun m d =>
    let x := d.port p
    if 12 ≤ p ∨ x.st ≠ 2 then d
    else
      let x := { x with retrain := x.retrain + 1#32, fails := 0, ackAt := d.clock }
      if ok then
        let lanes : W32 := if narrow then 0x140#32 else x.state &&& 0x1F0#32
        d.updPort p (fun _ => { x with state := (x.state &&& 0xFFFFFE0C#32) ||| lanes ||| 1#32 }.replayAll)
      else
        let d := match x.stat with
          | some a => d.portStatus m a.toNat 1
          | none => d
        d.updPort p (fun _ => { x.withSt 3 with stat := none, sent := [], toSend := [], inBytes := [], inWin := (0, 0) }))

/-! ### A partner's work (R356) -/

/-- The range lies in the window. -/
def inWindow (win : Nat × Nat) (a n : Nat) : Bool := decide (win.1 ≤ a) && decide (a + n ≤ win.1 + win.2)

/-- A complete work of a partner is applied: a transfer as one group of the port, a reduction word by word through the port's
roundabout, a message to rank 0xFFFF of its terrace. What does not lie in the window is not applied (log 58). -/
def execPartnerTransferApply (p : Nat) : State → Host.Outcome State Fault Refusal :=
  onDev (fun m d =>
    match (d.port p).inDone with
    | [] => d
    | (bs, win) :: rest =>
      let d := d.updPort p (fun x => { x with inDone := rest })
      let n := pdLen bs
      let dst := pdDst bs
      let body := bs.drop 64
      let inside := inWindow win dst n && inTier dst n
      match pdOp bs with
      | 1 =>
        if !inside then d else
        d.addGroup m ((cutLines (n + 1) dst body).map (fun x => ⟨x.1, x.1, x.2.1, x.2.2, none⟩)) 32 0 none [.nothing]
      | 2 | 3 =>
        if !inside || dst % 4 != 0 then d else
        (List.range (n / 4)).foldl (fun d i =>
          d.send 0 (.spredMerge (9 + p) ⟨9 + p, 0, 2 ^ 20 + p, dst + 4 * i, (if pdOp bs = 3 then 2 else 0), 0,
            [BitVec.ofNat 32 (at_ body (4 * i) 4)], [(2 ^ 32 + p, 1)], []⟩)) d
      | 4 =>
        { d.send 0 (.messageArrival ⟨dst % 32, 0xFFFF, BitVec.ofNat 512 (leNat (body.take 64)), 0xFFFC,
            (Config.freeAddr d.count).toNat % 4096, none, none⟩) with count := d.count + 2 }
      | _ => d)

end Sys2Proof.Machine
end

