-- ==== Sys2Proof/Machine/Place.lean ====
section
/-! DEFINITION. The place of a logical core on the grid, and the physical site that serves it (R3, R273, R365). No instruction names a
site; a remap changes no index. -/

namespace Sys2Proof.Machine

/-- A district's place on the 3 by 3 grid (R273 Table 1). -/
def districtAt (d : Nat) : Nat × Nat := [(0, 0), (1, 0), (2, 0), (2, 1), (1, 1), (0, 1), (0, 2), (1, 2), (2, 2)].getD d (0, 0)

/-- One round of Base: the point so far and what is left of the position, at size s. -/
def baseStep (a : (Nat × Nat) × Nat) (s : Nat) : (Nat × Nat) × Nat :=
  let u := a.1.1
  let v := a.1.2
  let rx := a.2 / 2 % 2
  let ry := (a.2 + rx) % 2
  let p : Nat × Nat := if ry = 0 then (if rx = 1 then (s - 1 - v, s - 1 - u) else (v, u)) else (u, v)
  ((p.1 + s * rx, p.2 + s * ry), a.2 / 4)

/-- Base(d): the base point of a base position, 0 to 255 (R273). -/
def basePoint (d : Nat) : Nat × Nat := ([1, 2, 4, 8].foldl baseStep ((0, 0), d)).1

/-- The local coordinates of a base point in a district (R273 Table 1). -/
def localPoint (dist : Nat) (p : Nat × Nat) : Nat × Nat :=
  match dist with
  | 2 | 3 => (p.2, p.1)
  | 4 | 5 => (15 - p.1, 15 - p.2)
  | _ => p

/-- A core's logical column and row in its district. -/
def corePoint (h : Nat) : Nat × Nat := localPoint (districtOf h) (basePoint (h % 256))

/-- A core's place (x, y) on the 48 by 48 grid (R273). -/
def corePlace (h : Nat) : Nat × Nat :=
  let o := districtAt (districtOf h)
  let p := corePoint h
  (16 * o.1 + p.1, 16 * o.2 + p.2)

/-- SKIP of a row: 16, no spare in use, unless set (R365). -/
def Dev.skipAt (d : Dev) (dist y : Nat) : Nat := d.skip.get 16 (16 * dist + y)

/-- The physical column that serves a logical column of a row (R365). -/
def Dev.siteColumn (d : Dev) (dist y c : Nat) : Nat := if c < d.skipAt dist y then c else c + 1

/-- The site that serves a core: its district, row and physical column, 0 to 16 (R3, R365). -/
def Dev.siteOf (d : Dev) (h : Nat) : Nat × Nat × Nat :=
  (districtOf h, (corePoint h).2, d.siteColumn (districtOf h) (corePoint h).2 (corePoint h).1)

end Sys2Proof.Machine
end

