-- ==== Sys2Proof/Machine/Ras.lean ====
section
/-! DEFINITION. Soft errors, bridges, the core remap, write logs and the RAS requests (R361 to R371). -/

namespace Sys2Proof.Machine

/-! ### Soft errors (R362, R363) -/

/-- A corrected error counts (R362). -/
def execCorrectableError (d s : Nat) : State → Host.Outcome State Fault Refusal :=
  onDev (fun _ x => { x with errCount := x.errCount.upd 0#64 (256 * d + s) (fun v => v + 1#64) })

/-- The log keeps the 256 oldest records that have not been read (log 60). -/
def Dev.logError (d : Dev) (r : ErrRec) : Dev := if 256 ≤ d.errLog.length then d else { d with errLog := d.errLog ++ [r] }

/-- The slot of a core whose window holds a register-file entry. -/
def Core.entryOwner (c : Core) (e : Nat) : Option Slot :=
  (c.slots.ents.find? (fun x => x.2.st != .free && decide (x.2.winBase ≤ e) && decide (e < x.2.winBase + x.2.winCount))).map (·.2)

/-- The sub-code of a line in its home's quay, or in the memory behind it. -/
def Dev.lineSub (d : Dev) (pa : Nat) : Nat :=
  if (d.quayLines (quayKey (lineOf pa))).any (fun q => q.pa == lineOf pa) then 3 else if isHbm pa then 4 else 5

/-- A poisoned line. -/
def Dev.poisonLine (d : Dev) (pa : Nat) : Dev :=
  { d with linePoison := if d.linePoison.contains (lineOf pa) then d.linePoison else d.linePoison ++ [lineOf pa] }.logError
    ⟨d.lineSub pa, homeOf pa / 64, pa, 0⟩

/-- An error that cannot be corrected (R362 Table 2): the structure is poisoned, or the line dropped, or the lease broken. -/
def execUncorrectableError (e : UncErr) : State → Host.Outcome State Fault Refusal :=
  onDev (fun _ d =>
    match e with
    | .regfile h r =>
      (d.updCore h (fun c => { c with rfPoison := if c.rfPoison.contains r then c.rfPoison else c.rfPoison ++ [r] })).logError
        ⟨1, districtOf h, r, (((d.core h).entryOwner r).map Slot.gtid).getD 0⟩
    | .lword h w =>
      (d.updCore h (fun c => { c with lsPoison := if c.lsPoison.contains w then c.lsPoison else c.lsPoison ++ [w] })).logError
        ⟨2, districtOf h, 4 * w, 0⟩
    | .line pa => d.poisonLine pa
    | .l1 h va => (d.updCore h (fun c => c.dropLine va)).logError ⟨0, districtOf h, va, 0⟩
    | .icache h va => (d.updCore h (fun c => { c with ic := c.ic.erase (lineOf va) })).logError ⟨0, districtOf h, va, 0⟩
    | .sync h n va => (d.breakLeases h n 2 (fun r => r.va == lineOf va)).logError ⟨0, districtOf h, va, (d.slot h n).gtid⟩)

/-- Patrol scrub of a line (R362): one that cannot be corrected is poisoned. -/
def execPatrolScrub (pa : Nat) (bad : Bool) : State → Host.Outcome State Fault Refusal :=
  onDev (fun _ d => if bad && !d.linePoison.contains (lineOf pa) then d.poisonLine pa else d)

/-! ### A lost bridge (R364, R368) -/

/-- The places that bridge b joins. -/
def bridgeEnds (b : Nat) : (Nat × Nat) × (Nat × Nat) :=
  if b < 6 then ((b % 2, b / 2), (b % 2 + 1, b / 2)) else (((b - 6) % 3, (b - 6) / 3), ((b - 6) % 3, (b - 6) / 3 + 1))

/-- The launch's interval holds cores of both districts that the bridge joins. -/
def Launch.spans (l : Launch) (b : Nat) : Bool :=
  let holds (p : Nat × Nat) : Bool := (List.range 9).any (fun d => districtAt d == p && decide (l.first < 256 * d + 256) && decide (256 * d < l.first + l.len))
  holds (bridgeEnds b).1 && holds (bridgeEnds b).2

/-- The launch for which a group was closed. -/
def Dev.grpLaunch (d : Dev) (g : Grp) : Option Nat :=
  g.fin.findSome? (fun f =>
    match f with
    | .task lk _ _ => some lk
    | .engine h cq seq _ => (d.cmd? h cq seq).map Cmd.lk
    | .lease pa => (((d.home (homeOf pa)).holders.find? (fun r => r.pa == pa)).map (fun r => (d.slot r.h r.n).lk))
    | f => f.forSlot.map (fun s => (d.slot s.1 s.2).lk))

/-- A group is aborted at every home: its marks clear without writing, its records are free, and a line it held is given up. -/
def Dev.abortGroup (m : Memory) (d : Dev) (g : Grp) : Dev :=
  let d : Dev := { d with groups := d.groups.filter (fun x => x.id != g.id) }
  let d := d.updCore g.core (fun c => { c with dir := c.dir.filter (fun e => e.gid != some g.id) })
  let d := (homesOf g.lines).foldl (fun d q => (d.updHome q (fun x => { x with
    pend := x.pend.filter (fun e => e.2 != g.id), wait := x.wait.filter (· != g.id), snoop := x.snoop.filter (fun e => e.1 != g.id) })).serveHome q) d
  let d := g.lines.foldl (fun d l => d.unpin l.pa) d
  g.fin.foldl (fun d f =>
    match f with
    | .lease pa => (match (d.home (homeOf pa)).holders.find? (fun r => r.pa == pa) with
        | some r => d.unhold m pa r.h r.n
        | none => d)
    | .amo h n _ _ pa => d.unhold m pa h n
    | _ => d) d

/-- Requests of a launch's slots that nobody has acted on are gone, and their window loads leave the wait lists (R125). Window stores,
landings and updates in flight arrive: nothing sent is lost with a bridge (R364). -/
def Dev.purge (d : Dev) (lk : Nat) : Dev :=
  let mine (s : Option (Nat × Nat)) : Bool := match s with
    | some (h, n) => (d.slot h n).st != .free && (d.slot h n).lk == lk
    | none => false
  let load (r : RemoteAcc) : Bool := !r.store && mine (some (r.h, r.n))
  { d with
    net := d.net.filter (fun f => !(mine f.e.requester) && (match f.e with | .remoteAccess r => !load r | _ => true))
    cores := ⟨d.cores.ents.map (fun (c : Nat × Core) => (c.1, { c.2.withdraw (fun s => match s with | .remote r => load r | _ => false) with
      held := c.2.held.filter (fun r => !load r) }))⟩ }

/-- A slot of a quiesced launch: its leases break, its parked lanes go, and it is HELD with cause 0xF1 and the bridge's number. -/
def Dev.loseSlot (m : Memory) (d : Dev) (h n b : Nat) : Dev :=
  let d := d.breakLeases h n 2 (fun _ => true)
  let t : Trap := ⟨0xF1, b, Config.freeAddr d.count, Config.freeLanes d.count⟩
  let d := d.updCore h (fun c => (c.withdrawSlot n).updSlot n (fun s => { (s.record h n t false false s.pc).noTable with
    st := .held .lost, heldAt := d.clock, svcWait := false, reply := .idle, closed := false, refused := [], winStores := [], defer := [] }))
  (d.report h n 1).traceSlot m h n 2

/-- The queues of a core lose a launch's commands, and its barriers with PEND ≠ 0 record LINKLOST and drain. -/
def Dev.loseQueues (d : Dev) (h lk b : Nat) : Dev :=
  let gone := ((d.core h).mq.q ++ (d.core h).mq.live ++ (d.core h).cq.q ++ (d.core h).cq.live).filter (fun c => c.lk == lk)
  let keep (e : EQ) : EQ := { e with q := e.q.filter (fun c => c.lk != lk), live := e.live.filter (fun c => c.lk != lk) }
  let d := d.updCore h (fun c => { c with mq := keep c.mq, cq := keep c.cq })
  let d := gone.foldl (fun d c => d.completed h c) d
  ((d.core h).bars.ents.filter (fun e => e.2.owner == some lk && e.2.pend != 0)).foldl (fun d e =>
    (d.barError h e.1 0xF1 b 0).barReport h e.1 e.2.pend) d

/-- A saved core of a quiesced launch: its queues lose its commands and its barriers drain (log 61). -/
def Saved.lose (x : Saved) (lk b : Nat) : Saved :=
  let keep (e : EQ) : EQ := { e with q := e.q.filter (fun c => c.lk != lk), live := e.live.filter (fun c => c.lk != lk) }
  let bar (e : Bar) : Bar := if e.owner == some lk && e.pend != 0 then (({ e.error 0xF1 b 0 with pend := 0 } : Bar).test true).1 else e
  { x with core := { x.core with
      mq := keep x.core.mq, cq := keep x.core.cq
      dir := []
      bars := ⟨x.core.bars.ents.map (fun e => (e.1, bar e.2))⟩ } }

/-- A saved slot of a quiesced launch, kept under index i: HELD, and reported. -/
def Dev.loseSaved (m : Memory) (d : Dev) (h i b : Nat) : Dev :=
  let s := d.slot h i
  let t : Trap := ⟨0xF1, b, Config.freeAddr d.count, Config.freeLanes d.count⟩
  let s := (s.record h (i % 64) t false false s.pc).noTable
  let d := (d.breakLeases h i 2 (fun _ => true)).setSlot h i { s with
    st := .held .lost, svcWait := false, reply := .idle, closed := false, refused := [], winStores := [], defer := [] }
  (d.traceRec m (terrOf s.lk) 2 0 h s.taskId s.gtid (i % 64) s.pc).send 0 (.messageArrival ⟨terrOf s.lk, 0xFFFF, reportImage s h (i % 64) 1, 0xFFFD, h, none, none⟩)

/-- A launch is quiesced (R368): groups that have not begun phase two are aborted, open records discarded, slots HELD, queues
stopped and barriers drained, reports sent. -/
def Dev.quiesce (m : Memory) (d : Dev) (b lk : Nat) (l : Launch) : Dev :=
  let gs := d.groups.filter (fun g => g.phase != .two && d.grpLaunch g == some lk)
  let d := (gs.foldl (fun d g => d.abortGroup m g) d).settle m
  let d := d.purge lk
  let d := (d.launchCores lk).foldl (fun d h =>
    let d := d.updCore h (fun c => { c with dir := c.dir.filter (fun e => e.gid.isSome ||
      !(l.maps.any (fun w => rgnV w && rgnRole w == 1 && decide (rgnBase w ≤ e.buf) && decide (e.buf < rgnEnd w)))) })
    let ns := ((d.core h).slots.ents.filter (fun e => e.2.st != .free && e.2.lk == lk)).map (·.1)
    let d := ns.foldl (fun d n => d.loseSlot m h n b) d
    let is := ((d.core h).away.ents.filter (fun e => e.2.st != .free && e.2.lk == lk)).map (·.1)
    let d := is.foldl (fun d i => d.loseSaved m h i b) d
    d.loseQueues h lk b) d
  { d with saved := d.saved.map (fun x => if x.lks.contains lk then x.lose lk b else x) }

/-- The flits that a lost bridge's sender keeps go out on another bridge: the lowest that is not lost (DESIGN CHOICE, log 59). -/
def Dev.resendFlits (d : Dev) (b : Nat) : Dev :=
  let x := d.bridges.get .init b
  match (List.range 12).find? (fun i => !(d.bridges.get .init i).lost) with
  | none => d
  | some i =>
    { d with bridges := (d.bridges.put b { x with sent := [] }).upd .init i (fun y => { y with sent := y.sent ++ x.sent, out := y.out ++ x.sent }) }

/-- A bridge is lost: its flits are resent (R364), and every resident launch it affects is quiesced in that cycle (R368). -/
def Dev.loseBridge (m : Memory) (d : Dev) (b : Nat) : Dev :=
  let x := d.bridges.get .init b
  if x.lost || decide (12 ≤ b) then d else
  let d : Dev := { d with bridges := d.bridges.put b { x with lost := true } }
  let d := d.resendFlits b
  (d.launches.ents.filter (fun e => (e.2.st == .resident || e.2.st == .placed) && e.2.spans b)).foldl (fun d e => d.quiesce m b e.1 e.2) d

/-- A lost bridge. -/
def execBridgeLost (b : Nat) : State → Host.Outcome State Fault Refusal := onDev (fun m d => d.loseBridge m b)

/-- Failed data lanes of a group of 16, and whether its spare has failed. -/
def laneGroupLost (bad : V512) (spare : BitVec 32) (g : Nat) : Bool :=
  decide ((if spare.getLsbD g then 0 else 1) < popcount (bad.extractLsb' (16 * g) 16))

/-- A retrain after sixteen failed replays (R364): failed lanes go to their groups' spares; a group with more failed lanes than
spares loses the bridge. -/
def execBridgeRetrain (b : Nat) (lanes : V512) (spares : BitVec 32) : State → Host.Outcome State Fault Refusal :=
  onDev (fun m d =>
    let x := d.bridges.get .init b
    if 12 ≤ b ∨ x.lost = true ∨ x.fails < 16 then d else
    let y : Bridge := { x with bad := x.bad ||| lanes, badSpare := x.badSpare ||| spares, fails := 0, out := x.out ++ x.sent }
    let d := { d with bridges := d.bridges.put b y }
    if (List.range 32).any (laneGroupLost y.bad y.badSpare) then d.loseBridge m b else d)

/-- A good flit arrives: it is acknowledged, and its sender keeps it for replay no longer. -/
def Bridge.takeGood (x : Bridge) : Bridge :=
  { x with rxSeq := x.rxSeq + 1, fails := 0, acks := x.acks ++ [(true, x.rxSeq + 1)], sent := x.sent.drop 1 }

/-- A bad flit arrives: it is refused, and its sender replays in order what it keeps, 256 flits at most, from that flit on. At its first
sending the sender's copy of it is the oldest kept; from then on each bad arrival is a failed replay. -/
def Bridge.takeBad (x : Bridge) (flit : V512) : Bridge :=
  let first := x.sent.isEmpty
  let sent := if first then [Config.bridgeCopy flit] else x.sent.take 256
  { x with fails := x.fails + (if first then 0 else 1), acks := x.acks ++ [(false, x.rxSeq)], sent := sent, out := x.out ++ sent }

/-- A flit on a bridge (R364; log 59): good or bad, by its CRC-32. -/
def execBridgeFlitReceive (b : Nat) (flit : V512) : State → Host.Outcome State Fault Refusal :=
  onDev (fun _ d =>
    let x := d.bridges.get .init b
    if 12 ≤ b ∨ x.lost = true then d
    else { d with bridges := d.bridges.put b (if Config.bridgeFlitGood flit then x.takeGood else x.takeBad flit) })

/-! ### RAS requests (R361; log 60) -/

/-- An answer of the mailbox: status and data. None is given before bring-up has ended. -/
def Dev.answer (d : Dev) (status : Nat) (data : List Byte) : Dev := { d with doe := BitVec.ofNat 8 status :: data }

/-- A RAS request. -/
def ras (f : Memory → Dev → List Host.Cell × Dev) : State → Host.Outcome State Fault Refusal :=
  onMem (fun m d => if d.up then f m d else ([], d))

/-- A district, or the base dies. -/
def okDistrict (d : Nat) : Bool := decide (d < 9) || d == 0xFF

/-- ERRCNT: the counts of the structures in the order of Table 2, those without a sub-code as 6 (L1, instruction cache) and 7 (sync store)
(log 60). -/
def execErrcnt (d : Nat) : State → Host.Outcome State Fault Refusal :=
  ras (fun _ x => ([], if okDistrict d then
    x.answer 0 ((List.range 7).flatMap (fun s => leBytes 8 (x.errCount.get 0#64 (256 * d + s + 1)).toNat)) else x.answer 1 []))

/-- ERRLOG: the oldest record, which goes. -/
def execErrlog : State → Host.Outcome State Fault Refusal :=
  ras (fun _ x => ([], match x.errLog with
    | [] => x.answer 2 []
    | r :: rest => { x with errLog := rest }.answer 0 (leBytes 1 r.sub ++ leBytes 1 r.district ++ leBytes 8 r.addr ++ leBytes 6 r.gtid.toNat)))

/-- REMAPGET: SKIP values and the failed-core mask. -/
def execRemapget (d : Nat) : State → Host.Outcome State Fault Refusal :=
  ras (fun _ x => ([], if d < 9 then
    x.answer 0 ((List.range 16).flatMap (fun y => leBytes 1 (x.skipAt d y)) ++
      (List.range 32).map (fun i => BitVec.ofNat 8 ((List.range 8).foldl (fun a k => a + bitNat (x.failed.contains (256 * d + 8 * i + k)) k) 0)))
    else x.answer 1 []))

/-- A terrace that is active has cores in the district. -/
def Dev.districtActive (x : Dev) (d : Nat) : Bool :=
  (List.range 32).any (fun t => let y := x.terrace t
    y.state == 1 && decide (y.base < 256 * d + 256) && decide (256 * d < y.base + y.len))

/-- REMAPSET (R365, R367). -/
def execRemapset (d y skip : Nat) : State → Host.Outcome State Fault Refusal :=
  ras (fun _ x => ([], if d < 9 ∧ y < 16 ∧ skip ≤ 16 ∧ x.districtActive d = false then
    { x with skip := x.skip.put (16 * d + y) skip }.answer 0 [] else x.answer 1 []))

/-- LOGSET (R370): the bitmap's 96 MiB lie in device memory, at a multiple of 2 MiB. -/
def execLogset (f : Nat) (base : W64) (en : Bool) : State → Host.Outcome State Fault Refusal :=
  ras (fun _ x => ([],
    let last := base.toNat + 96 * 2 ^ 20 - 1
    if f ≤ 32 ∧ (en = false ∨ (base.toNat % 2 ^ 21 = 0 ∧ ((isHbm base.toNat && isHbm last) || (isLpddr base.toNat && isLpddr last)) = true)) then
      (x.updFunc f (fun y => { y with logOn := en, logBase := if en then base else y.logBase })).answer 0 []
    else x.answer 1 []))

/-- POOLGET: the free list as 32-bit words from the top down, written as one group under the physical function's mask (R330). -/
def execPoolget (dep pool : Nat) (addr : W64) : State → Host.Outcome State Fault Refusal :=
  onDev (fun m x =>
    if !x.up then x else
    let p := x.pool dep pool
    if dep < 9 ∧ pool < 16 ∧ p.v = true ∧ paNamed addr.toNat = true then
      let list := p.pushed ++ (List.range (p.count - p.fresh)).map (fun i => p.fresh + i)
      let bs := leBytes 4 list.length ++ list.flatMap (leBytes 4)
      (x.addGroup m ((cutLines (bs.length + 1) addr.toNat bs).map (fun l => ⟨l.1, l.1, l.2.1, l.2.2, none⟩)) 32 0 none [.nothing]).answer 0 []
    else x.answer 1 [])

/-- POOLSET: a list as POOLGET writes it, of distinct indices of the pool. While a line of it is pending the request stands as it is. -/
def execPoolset (dep pool : Nat) (addr : W64) : State → Host.Outcome State Fault Refusal :=
  ras (fun m x =>
    let p := x.pool dep pool
    let n := m.w32 addr.toNat
    let list := (List.range n.toNat).map (fun i => (m.w32 (addr.toNat + 4 + 4 * i)).toNat)
    if x.pendingIn addr.toNat 4 || x.pendingIn addr.toNat (4 * min n.toNat p.count + 4) then ([], x)
    else if dep < 9 ∧ pool < 16 ∧ p.v = true ∧ paNamed addr.toNat = true ∧ n.toNat ≤ p.count ∧
        list.all (fun i => decide (i < p.count)) = true ∧ list.dedup.length = list.length then
      ([], (x.updPool dep pool (fun p => { p with pushed := list, fresh := p.count })).answer 0 [])
    else ([], x.answer 1 []))

/-! ### Context areas that move (R371) -/

/-- What of a terrace is saved, launch by launch and core by core. -/
def Dev.savedOf (d : Dev) (t : Nat) : List Saved := d.saved.filter (fun x => x.terr == t && !x.lks.isEmpty)

/-- The bytes of a terrace's context area: the blocks of its saved cores. -/
def Dev.areaBytes (d : Dev) (m : Memory) (t : Nat) (area : W64) : List Byte :=
  (((d.savedOf t).map Saved.h).dedup).flatMap (fun h => m.bytes ((d.terrace t).block area h) (2 ^ 21))

/-- The area's device-private bytes in the other form. -/
def Dev.rewriteArea (d : Dev) (t : Nat) (area : W64) (portable : Bool) : List Host.Cell × Dev :=
  ((d.savedOf t).flatMap (fun x => x.priv ((d.terrace t).block area x.h) portable),
   { d with saved := d.saved.map (fun x => if x.terr == t && !x.lks.isEmpty then { x with portable := portable } else x) })

/-- The area holds what the terrace's cores saved, in private or in portable form. -/
def Dev.areaHolds (d : Dev) (m : Memory) (t : Nat) (area : W64) (portable : Bool) : Bool :=
  !(d.savedOf t).isEmpty && (d.savedOf t).all (d.savedAt m area portable)

/-- CTXOUT: the device-private parts in portable form, and the export key's signature over the area in the answer. -/
def execCtxout (t : Nat) (area : W64) (_key : Nat) : State → Host.Outcome State Fault Refusal :=
  ras (fun m d =>
    if d.areaHolds m t area false then
      let r := d.rewriteArea t area true
      (r.1, r.2.answer 0 ((exportKey d.fwVersion).sign (d.areaBytes (m.writeAll r.1) t area)))
    else ([], d.answer 1 []))

/-- CTXIN: the area's signature holds under the trusted key, and the parts stand in private form again (log 62). -/
def execCtxin (t : Nat) (area : W64) (key : Nat) : State → Host.Outcome State Fault Refusal :=
  ras (fun m d =>
    let bytes := d.areaBytes m t area
    let good := match d.keys.find? key with
      | some k => decide (key < 8) && rsaVerify k ((exportKey d.fwVersion).sign bytes) (sha512 bytes)
      | none => false
    if d.areaHolds m t area true && good then
      let r := d.rewriteArea t area false
      (r.1, r.2.answer 0 [])
    else ([], d.answer 1 []))

end Sys2Proof.Machine
end

