-- ==== Sys2Proof/Machine/BringUp.lean ====
section
/-! DEFINITION. Bring-up, firmware, identity and attestation (R357 to R360). -/

namespace Sys2Proof.Machine

/-! ### Stages (R357) -/

/-- A stage's work: taken when the stage is the one in hand and has not failed. -/
def Dev.inStage (d : Dev) (n : Nat) : Bool := d.stage == n && d.failure == 0

/-- The stage succeeds, and the next one begins. -/
def Dev.passStage (d : Dev) : Dev := { d with stage := d.stage + 1 }
/-- The stage fails: the sequence stops there. The code is free but for stage 6 (log 6); 0 stands for no failure. -/
def Dev.failStage (d : Dev) : Dev := { d with failure := max 1 (Config.failCode d.stage).toNat }

/-- A stage that passes or fails. -/
def stage (n : Nat) (ok : Bool) (f : Dev → Dev) : State → Host.Outcome State Fault Refusal :=
  onDev (fun _ d => if !d.inStage n then d else if ok then (f d).passStage else d.failStage)

/-- Power-on: the device as at reset, with the boot ROM at stage 1 (log 63). -/
def execPowerOn : State → Host.Outcome State Fault Refusal :=
  onDev (fun _ _ => { Dev.reset with stage := 1 })

/-- Stage 1. -/
def execPowerStages (ok : Bool) : State → Host.Outcome State Fault Refusal := stage 1 ok id

/-- Stage 2, from which the districts' remaps stand (R365, R366). -/
def execBridgeTraining (ok : Bool) : State → Host.Outcome State Fault Refusal :=
  stage 2 ok (fun d => { d with
    skip := ⟨(List.range 144).map (fun i => (i, min 16 (Config.skipOf i)))⟩
    failed := Config.failedCores })

/-- Stage 3. -/
def execHbmTraining (ok : Bool) : State → Host.Outcome State Fault Refusal := stage 3 ok id

/-- A port's STATE after negotiation (R351). -/
def portState (up narrow required : Bool) : W32 :=
  BitVec.ofNat 32 ((if up then 1 + (if narrow then 0x140 else 0x80) else 0) + (if required then 0x200 else 0))

/-- Stage 4: ports that trained are up, the others down; every required port must be up. -/
def execExtanNegotiation (up narrow : BitVec 12) : State → Host.Outcome State Fault Refusal :=
  stage 4 ((Config.requiredPorts &&& ~~~up) == 0#12) (fun d => { d with
    ports := (List.range 12).foldl (fun m i => m.upd .init i (fun p => { p with
      state := portState (up.getLsbD i) (narrow.getLsbD i) (Config.requiredPorts.getLsbD i) })) d.ports })

/-- Stage 5. -/
def execCxlTraining (ok : Bool) : State → Host.Outcome State Fault Refusal := stage 5 ok id

/-! ### Firmware (R358) -/

/-- The image verifies: its digest, its key against the vendor root, its signature, its security version. -/
def imageOk (i : FwImage) : Bool :=
  vecBytes i.digest == sha512 i.body && vecBytes Config.vendorRoot == sha512 (beBytes 512 i.key.toNat) &&
  rsaVerify i.key (beBytes 512 i.sig.toNat) (vecBytes i.digest) && decide (Config.fusedVersion ≤ i.version)

/-- A measurement register after an image: MR := SHA-512(MR ‖ digest). -/
def extendMr (mr digest : V512) : V512 := vecOfBytes (sha512 (vecBytes mr ++ vecBytes digest))

/-- Images in order, each measured before it runs; the measurement register of the first that fails any check. -/
def verifyAll : List FwImage → AMap V512 → AMap V512 × Option Nat
  | [], mr => (mr, none)
  | i :: r, mr =>
    if imageOk i then verifyAll r (mr.upd 0#512 (i.mr % 8) (fun v => extendMr v i.digest)) else (mr, some (i.mr % 8))

/-- Stage 6: an image that fails any check stops it with code 0x60 + n, n the number of its measurement register (DEDUCED, log 60). The
firmware's security version is that of the last image (log 60). -/
def execFirmwareVerify (images : List FwImage) : State → Host.Outcome State Fault Refusal :=
  onDev (fun _ d =>
    if !d.inStage 6 then d else
    let r := verifyAll images d.mr
    match r.2 with
    | none => { d with mr := r.1, fwVersion := (images.getLast?.map FwImage.version).getD 0 }.passStage
    | some n => { d with mr := r.1, failure := 0x60 + n })

/-- Stage 7: %clock starts at 0, and the host may submit work. -/
def execReady : State → Host.Outcome State Fault Refusal :=
  onDev (fun _ d => if d.inStage 7 && !d.up then { d with up := true, clock := 0 } else d)

/-! ### Attestation (R359, R360; log 60) -/

/-- The mailbox serves once the host link is up. -/
def doe (f : Memory → Dev → Dev) : State → Host.Outcome State Fault Refusal :=
  onDev (fun m d => if 6 ≤ d.stage then f m d else d)

/-- The identity certificate: what it says of the identity key's public half, signed by Grenwin's device CA (R359). -/
def identityCert : List Byte := certOf 0 identityKey (RsaPair.of Config.caPrimes)
/-- The export key's certificate: what it says of its public half, signed by the identity key (R359). -/
def Dev.exportCert (d : Dev) : List Byte := certOf 1 (exportKey d.fwVersion) identityKey

/-- GET_DIGESTS: the digests of the certificates. -/
def execGetDigests : State → Host.Outcome State Fault Refusal :=
  doe (fun _ d => d.answer 0 (sha512 identityCert ++ sha512 d.exportCert))

/-- GET_CERTIFICATE: the identity certificate. -/
def execGetCertificate : State → Host.Outcome State Fault Refusal := doe (fun _ d => d.answer 0 identityCert)

/-- The bytes of a nonce. -/
def nonceBytes (n : BitVec 256) : List Byte := leBytes 32 n.toNat

/-- CHALLENGE: the identity key's signature over the nonce. -/
def execChallenge (nonce : BitVec 256) : State → Host.Outcome State Fault Refusal :=
  doe (fun _ d => d.answer 0 (identityKey.sign (nonceBytes nonce)))

/-- GET_MEASUREMENTS: blocks 0 to 7 are MR0 to MR7, block 8 the export key's certificate; signed over the nonce. -/
def execGetMeasurements (blk : Nat) (nonce : BitVec 256) : State → Host.Outcome State Fault Refusal :=
  doe (fun _ d =>
    let block := if blk < 8 then some (vecBytes (d.mr.get 0#512 blk)) else if blk = 8 then some d.exportCert else none
    match block with
    | some b => d.answer 0 (b ++ identityKey.sign (nonceBytes nonce ++ b))
    | none => d.answer 1 [])

/-- A command is a kv.imp whose export record names a key slot. -/
def Dev.namesKey (d : Dev) (m : Memory) (slot : Nat) (c : Cmd) : Bool :=
  match decodeTile true c.img with
  | .ok (.kvImp _ x) =>
    let va := x.src.toNat + 81
    (match d.walk m va with
     | .leaf l _ => (m.read (l.pa va)).toNat == slot
     | _ => false)
  | _ => false

/-- Installing a trusted key (R360): refused while a copy queue holds a kv.imp that names the slot. -/
def execInstallKey (slot : Nat) (key : BitVec 4096) : State → Host.Outcome State Fault Refusal :=
  doe (fun m d =>
    if 8 ≤ slot ∨ d.cores.ents.any (fun c => c.2.cq.q.any (d.namesKey m slot)) = true then d.answer 1 []
    else { d with keys := d.keys.put slot key }.answer 0 [])

end Sys2Proof.Machine
end

