-- ==== Sys2Proof/Machine/Control.lean ====
section
/-! DEFINITION. Control transfer (R72 to R78, but for halt) and address arithmetic (R79, R80). -/

namespace Sys2Proof.Machine

/-- A transfer: to the target where the condition holds, else on. -/
def branchIf (u : Use) (cnd : Slot → Bool) (off : W32) : State → Host.Outcome State Fault Refusal :=
  thread u (fun c => if cnd c.s then .jump c.d (branchTarget c.s.pc off) else .done c.d)

/-- A transfer to a register's address, aligned to 8 (R56), with a15 written where the form links. -/
def jumpTo (u : Use) (reg : Nat) (link : Bool) : State → Host.Outcome State Fault Refusal :=
  thread u (fun c =>
    let t := c.s.A reg
    if t.extractLsb' 0 3 != 0#3 then c.faultAt 0x05 0 t
    else .jump (if link then c.d.setSlot c.h c.n (c.s.setA 15 (c.s.pc + 8#64)) else c.d) t)

/-- Does nothing (R77). -/
def execNop : State → Host.Outcome State Fault Refusal := regForm (useA []) id
/-- br (R74). -/
def execBr (off : W32) : State → Host.Outcome State Fault Refusal := branchIf (useA []) (fun _ => true) off
/-- bc.cc (R74). -/
def execBc (cc : Cc) (aa ab : AReg) (off : W32) : State → Host.Outcome State Fault Refusal :=
  branchIf (useA [ra aa, ra ab]) (fun s => cond cc (s.A aa.toNat) (s.A ab.toNat)) off
/-- bany (R74). -/
def execBany (k : KReg) (off : W32) : State → Host.Outcome State Fault Refusal :=
  branchIf (useA [rk k]) (fun s => s.K k.toNat != 0#16) off
/-- ball (R74). -/
def execBall (k : KReg) (off : W32) : State → Host.Outcome State Fault Refusal :=
  branchIf (useA [rk k]) (fun s => s.K k.toNat == 0xFFFF#16) off
/-- bnone (R74). -/
def execBnone (k : KReg) (off : W32) : State → Host.Outcome State Fault Refusal :=
  branchIf (useA [rk k]) (fun s => s.K k.toNat == 0#16) off
/-- call (R74). -/
def execCall (off : W32) : State → Host.Outcome State Fault Refusal :=
  thread (useA [wa 15#4]) (fun c => .jump (c.d.setSlot c.h c.n (c.s.setA 15 (c.s.pc + 8#64))) (branchTarget c.s.pc off))
/-- jr (R74). -/
def execJr (a : AReg) : State → Host.Outcome State Fault Refusal := jumpTo (useA [ra a]) a.toNat false
/-- callr (R74): the target is the old value of the register. -/
def execCallr (a : AReg) : State → Host.Outcome State Fault Refusal := jumpTo (useA [ra a, wa 15#4]) a.toNat true
/-- ret (R74). -/
def execRet : State → Host.Outcome State Fault Refusal := jumpTo (useA [ra 15#4]) 15 false
/-- loop (R74). -/
def execLoop (a : AReg) (off : W32) : State → Host.Outcome State Fault Refusal :=
  thread (useA [wa a, ra a]) (fun c =>
    let t := c.s.A a.toNat - 1#64
    let d := c.d.setSlot c.h c.n (c.s.setA a.toNat t)
    if t = 0#64 then .done d else .jump d (branchTarget c.s.pc off))
/-- yield (R77): READY, behind every slot that became READY in this cycle (R23). -/
def execYield : State → Host.Outcome State Fault Refusal :=
  thread (useA []) (fun c => c.done { c.s with st := .ready, readyAt := c.d.clock, yielded := true })

/-! ### Address arithmetic (R79 Table 3) -/

/-- A form that writes aD from two a-registers. -/
def aForm (d a b : AReg) (f : W64 → W64 → W64) : State → Host.Outcome State Fault Refusal :=
  regForm (useA [wa d, ra a, ra b]) (fun s => s.setA d.toNat (f (s.A a.toNat) (s.A b.toNat)))

/-- A form of format I that writes aD from aA and the immediate. -/
def iForm (d a : AReg) (f : W64 → W64) : State → Host.Outcome State Fault Refusal :=
  regForm (useA [wa d, ra a]) (fun s => s.setA d.toNat (f (s.A a.toNat)))

/-- Shift counts use the six low bits. -/
def cnt6 (y : W64) : Nat := y.toNat % 64

def opAadd (x y : W64) : W64 := x + y
def opAsub (x y : W64) : W64 := x - y
def opAmul (x y : W64) : W64 := x * y
def opAmulh (x y : W64) : W64 := (x.signExtend 128 * y.signExtend 128).extractLsb' 64 64
def opAmulhu (x y : W64) : W64 := (x.setWidth 128 * y.setWidth 128).extractLsb' 64 64
def opAshl (x y : W64) : W64 := x <<< cnt6 y
def opAshr (x y : W64) : W64 := x >>> cnt6 y
def opAsar (x y : W64) : W64 := x.sshiftRight (cnt6 y)
def opAmin (x y : W64) : W64 := if x.toInt ≤ y.toInt then x else y
def opAmax (x y : W64) : W64 := if y.toInt ≤ x.toInt then x else y
def opAminu (x y : W64) : W64 := if x.toNat ≤ y.toNat then x else y
def opAmaxu (x y : W64) : W64 := if y.toNat ≤ x.toNat then x else y
/-- alih: the immediate over the low half. -/
def opAlih (imm : W32) (x : W64) : W64 := (imm.setWidth 64 <<< 32) ||| (x &&& 0xFFFFFFFF#64)

/-- aadd (R79). -/
def execAadd (d a b : AReg) : State → Host.Outcome State Fault Refusal := aForm d a b opAadd
/-- asub (R79). -/
def execAsub (d a b : AReg) : State → Host.Outcome State Fault Refusal := aForm d a b opAsub

/-- amul (R79). -/
def execAmul (d a b : AReg) : State → Host.Outcome State Fault Refusal := aForm d a b opAmul

/-- amulh (R79). -/
def execAmulh (d a b : AReg) : State → Host.Outcome State Fault Refusal := aForm d a b opAmulh

/-- amulhu (R79). -/
def execAmulhu (d a b : AReg) : State → Host.Outcome State Fault Refusal := aForm d a b opAmulhu

/-- aand (R79). -/
def execAand (d a b : AReg) : State → Host.Outcome State Fault Refusal := aForm d a b (· &&& ·)

/-- aor (R79). -/
def execAor (d a b : AReg) : State → Host.Outcome State Fault Refusal := aForm d a b (· ||| ·)

/-- axor (R79). -/
def execAxor (d a b : AReg) : State → Host.Outcome State Fault Refusal := aForm d a b (· ^^^ ·)

/-- ashl (R79). -/
def execAshl (d a b : AReg) : State → Host.Outcome State Fault Refusal := aForm d a b opAshl

/-- ashr (R79). -/
def execAshr (d a b : AReg) : State → Host.Outcome State Fault Refusal := aForm d a b opAshr

/-- asar (R79). -/
def execAsar (d a b : AReg) : State → Host.Outcome State Fault Refusal := aForm d a b opAsar

/-- amin (R79). -/
def execAmin (d a b : AReg) : State → Host.Outcome State Fault Refusal := aForm d a b opAmin

/-- amax (R79). -/
def execAmax (d a b : AReg) : State → Host.Outcome State Fault Refusal := aForm d a b opAmax

/-- aminu (R79). -/
def execAminu (d a b : AReg) : State → Host.Outcome State Fault Refusal := aForm d a b opAminu

/-- amaxu (R79). -/
def execAmaxu (d a b : AReg) : State → Host.Outcome State Fault Refusal := aForm d a b opAmaxu

/-- amov (R79). -/
def execAmov (d a : AReg) : State → Host.Outcome State Fault Refusal := iForm d a id
/-- asel (R79). -/
def execAsel (d a b c : AReg) : State → Host.Outcome State Fault Refusal :=
  regForm (useA [wa d, ra a, ra b, ra c]) (fun s =>
    s.setA d.toNat (if s.A c.toNat != 0#64 then s.A a.toNat else s.A b.toNat))
/-- aset.cc (R79). -/
def execAset (cc : Cc) (d a b : AReg) : State → Host.Outcome State Fault Refusal := aForm d a b (fun x y => if cond cc x y then 1#64 else 0#64)
/-- aaddi (R79, R80). -/
def execAaddi (u : Bool) (d a : AReg) (imm : W32) : State → Host.Outcome State Fault Refusal := iForm d a (fun x => x + extImm u imm)
/-- ali (R79, R80). -/
def execAli (u : Bool) (d : AReg) (imm : W32) : State → Host.Outcome State Fault Refusal :=
  regForm (useA [wa d]) (fun s => s.setA d.toNat (extImm u imm))
/-- alih (R79, R80). -/
def execAlih (d a : AReg) (imm : W32) : State → Host.Outcome State Fault Refusal := iForm d a (opAlih imm)

end Sys2Proof.Machine
end

