-- ==== Sys2Proof/Machine/KvEng.lean ====
section
/-! DEFINITION. Saved prefixes: kv.exp and kv.imp (R245, R260 to R262). -/

namespace Sys2Proof.Machine

/-! ### Records (R260) -/

/-- Words at consecutive addresses of global memory, to be read as a command's source. -/
def QCtx.words (q : QCtx) (va : W64) (n : Nat) : List Rd :=
  (List.range n).map (fun i =>
    let r := q.rd 0 6 false (va + BitVec.ofNat 64 (4 * i))
    if isWindow r.va then { r with loc := .bad 5 } else r)

/-- Words to be written at consecutive addresses of global memory. -/
def QCtx.puts (q : QCtx) (va : W64) (ws : List W32) : List Wr :=
  ws.zipIdx.map (fun w =>
    let r := q.wr false (va + BitVec.ofNat 64 (4 * w.2)) w.1
    if isWindow r.va then { r with loc := .bad 5 } else r)

/-- The bytes of words. -/
def wordBytes (ws : List (Option W32)) : List Byte := ws.flatMap (fun w => leBytes 4 (w.getD 0#32).toNat)
/-- The words of bytes. -/
def bytesWords (bs : List Byte) : List W32 := (List.range (bs.length / 4)).map (fun i => BitVec.ofNat 32 (leNat ((bs.drop (4 * i)).take 4)))
/-- Bytes from an offset. -/
def span (bs : List Byte) (o n : Nat) : List Byte := (bs.drop o).take n
/-- A line of bytes. -/
def lineOfBytes (bs : List Byte) : Line := BitVec.ofNat 1024 (leNat (bs.take 128))
/-- The stride of a block by its header (R240). -/
def hStride (l : Line) : Nat := 256 + 32 * hRb l

/-! ### kv.exp -/

/-- Walking a chain from its first frame. -/
inductive Chain where
  | ok (next : W64) (d : Dev) (hashes : AMap W32)
  | wait (d : Dev)
  | stop (d : Dev) (cause sub : Nat) (va : W64)
  | flt (d : Dev) (reason : Nat) (va : W64)

/-- A block of a chain is read: its header passes R242. -/
def QCtx.header (q : QCtx) (f : W64) (k : Line → Dev → Chain) : Chain :=
  if f.toNat % 256 ≠ 0 ∨ isWindow f = true then .stop q.d 0x72 2 f else
  match q.fetch false (q.words f 32) with
  | .wait d => .wait d
  | .stop d _ reason va => .flt d reason va
  | .ok vs d =>
    let l := lineOfBytes (wordBytes vs)
    let e := d.frameCheck (terrOf q.c.lk) f l
    if e ≠ 0 then .stop d 0x72 e f else k l d

/-- Key of the format byte of a chain's first block among its hashes. -/
def fmtKey : Nat := 8192

/-- Hashes of the first n blocks of a chain, and the address after them: what a restart needs of the steps it skips. -/
def QCtx.chase (q : QCtx) : Nat → Nat → W64 → AMap W32 → Chain
  | 0, _, f, m => .ok f q.d m
  | n + 1, i, f, m =>
    if f = 0#64 ∧ i ≠ 0 then .stop q.d 0x72 5 (Config.freeAddr q.d.count) else
    q.header f (fun l d => QCtx.chase { q with d := d } n (i + 1) (hNext l) (noteHash m i l))
where
  noteHash (m : AMap W32) (i : Nat) (l : Line) : AMap W32 :=
    let m := (m.put (2 * i) ((hHash l).setWidth 32)).put (2 * i + 1) ((hHash l).extractLsb' 32 32)
    if i = 0 then m.put fmtKey ((Line.byte l 6).setWidth 32) else m

/-- The hashes of a chain as the record's bytes. -/
def hashBytes (nb : Nat) (m : AMap W32) : List Byte := (List.range (2 * nb)).flatMap (fun i => leBytes 4 (m.get 0#32 i).toNat)

/-- The first 608 bytes of a record, with the signature of the export key (R260). -/
def recordBytes (version : Nat) (ses : List Byte) (tenant : W32) (nb fmt : Nat) (hashes : List Byte) : List Byte :=
  let m := ses.take 72 ++ leBytes 4 tenant.toNat
  m ++ leBytes 4 nb ++ leBytes 1 fmt ++ List.replicate 15 0#8 ++ (exportKey version).sign (m ++ hashes)

/-- A KVTAG of kv.exp: at step 0 it removes no command behind (R261), later it stops the command. -/
def QCtx.tagFails (q : QCtx) (d : Dev) (cause sub : Nat) (va : W64) : Dev :=
  if q.c.step = 0 then d.failHead q.h q.cq cause sub 0 else d.stopWith q.h q.cq cause sub va

/-- kv.exp (R261): a block a step, then the header with its signature. -/
def execKvExp (hd : TileHdr) (x : KvArgs) : State → Host.Outcome State Fault Refusal :=
  command (fun q =>
    let nb := x.nb.toNat
    let hs := recordHead nb
    let stride0 := ((q.d.poolAt (terrOf q.c.lk) x.src.toNat).map (fun i => (q.d.depots.get Pool.init i).stride)).getD 0
    let q := q.begin_ hd (hd.rstep.toNat * (stride0 + 8))
    let s := q.c.step
    let at_ : Chain := if s = hd.rstep.toNat then q.chase s 0 x.src .empty else .ok q.c.prev q.d q.c.sa
    match at_ with
    | .wait d => d
    | .stop d cause sub va => q.tagFails d cause sub va
    | .flt d reason va => q.stopAt d 6 reason va
    | .ok f d hashes =>
      let q := { q with d := d }
      if s = nb then
        (match q.fetch false (q.words x.ses 18) with
         | .wait d => d
         | .stop d _ reason va => q.stopAt d 6 reason va
         | .ok vs d =>
           let rec_ := recordBytes d.fwVersion (wordBytes vs) (d.terrace (terrOf q.c.lk)).tenant nb (hashes.get 0#32 fmtKey).toNat (hashBytes nb hashes)
           match q.writeAs d 7 [.w] (q.puts x.dst (bytesWords rec_)) (hs - 8 * nb) with
           | .wait d => d
           | .stop d op reason va => q.stopAt d op reason va
           | .ok d => q.stepped d nb)
      else if f = 0#64 ∧ s ≠ 0 then q.d.stopWith q.h q.cq 0x72 5 (Config.freeAddr q.d.count)
      else
        match q.header f (fun l d => .ok (hNext l) d (QCtx.chase.noteHash (hashes.put 8193 (BitVec.ofNat 32 (hStride l))) s l)) with
        | .wait d => d
        | .stop d cause sub va => q.tagFails d cause sub va
        | .flt d reason va => q.stopAt d 6 reason va
        | .ok next d hashes =>
          let stride := (hashes.get 0#32 8193).toNat
          match QCtx.fetch { q with d := d } false (q.words f (stride / 4)) with
          | .wait d => d
          | .stop d _ reason va => q.stopAt d 6 reason va
          | .ok vs d =>
            let body := q.puts (x.dst + BitVec.ofNat 64 (hs + s * stride)) (vs.map (fun v => v.getD 0#32))
            let hash := q.puts (x.dst + BitVec.ofNat 64 (608 + 8 * s)) [hashes.get 0#32 (2 * s), hashes.get 0#32 (2 * s + 1)]
            match q.writeAs d 7 [.w] (body ++ hash) (stride + 8) with
            | .wait d => d
            | .stop d op reason va => q.stopAt d op reason va
            | .ok d => q.stepped (d.keepHead q.h q.cq (fun c => { c with prev := next, sa := hashes })) nb)

/-! ### kv.imp -/

/-- The checks of kv.imp's step 0, in order: cause and sub-code, or 0. -/
def Dev.importCheck (d : Dev) (terr nb : Nat) (p : Pool) (rec_ hashes ses : List Byte) : Nat × Nat :=
  let keyid := ((rec_[81]?).getD 0#8).toNat
  let m := rec_.take 76 ++ hashes
  if leNat (span rec_ 76 4) ≠ nb ∨ nb < 1 ∨ 4096 < nb then (0x71, 5)
  else
    match (if keyid < 8 then d.keys.find? keyid else none) with
    | none => (0x71, 6)
    | some key =>
      if span rec_ 0 8 != span ses 0 8 then (0x71, 2)
      else if span rec_ 8 64 != span ses 8 64 then (0x71, 3)
      else if leNat (span rec_ 72 4) ≠ (d.terrace terr).tenant.toNat then (0x71, 4)
      else if !rsaVerify key (span rec_ 96 512) (sha512 m) then (0x71, 1)
      else if !p.of terr then (0x72, 6)
      else if (rec_[80]?).getD 0#8 != BitVec.ofNat 8 (p.fmt.toNat + 16 * p.hc.toNat) then (0x72, 3)
      else (0, 0)

/-- A frame as an import writes it: the body with its tag, one holding, no flags and no successor. -/
def importFrame (tag : W32) (body : List W32) : List W32 :=
  body.zipIdx.map (fun w =>
    match w.2 with
    | 1 => w.1 &&& 0x00FFFFFF#32
    | 4 => tag
    | 5 => 1#32
    | 6 | 7 => 0#32
    | _ => w.1)

/-- Two words of an address. -/
def addrWords (a : W64) : List W32 := [a.setWidth 32, a.extractLsb' 32 32]

/-- kv.imp (R261): the record's checks, then a block a step; a restart goes on from the frames that the queue keeps (log 43). -/
def execKvImp (hd : TileHdr) (x : KvArgs) : State → Host.Outcome State Fault Refusal :=
  command (fun q =>
    let nb := x.nb.toNat
    let hs := recordHead nb
    let terr := terrOf q.c.lk
    let p := q.d.pool x.dep.toNat x.pool.toNat
    let q := q.begin_ hd ((hd.rstep.toNat - 1) * p.stride)
    if q.c.step = 0 then
      (match q.fetch false (q.words x.src 152 ++ q.words (x.src + 608#64) (2 * nb) ++ q.words x.ses 18) with
       | .wait d => d
       | .stop d _ reason va => q.stopAt d 6 reason va
       | .ok vs d =>
         let e := d.importCheck terr nb p (wordBytes (vs.take 152)) (wordBytes ((vs.drop 152).take (2 * nb))) (wordBytes (vs.drop (152 + 2 * nb)))
         if e.1 ≠ 0 then d.failHead q.h q.cq e.1 e.2 0 else q.stepped d nb)
    else
      let s := q.c.step - 1
      let e := (q.d.core q.h).eq q.cq
      if !p.of terr then q.d.stopWith q.h q.cq 0x72 6 (Config.freeAddr q.d.count) else
      match p.pop with
      | none => q.d.stopWith q.h q.cq 0x70 (16 * x.dep.toNat + x.pool.toNat) (Config.freeAddr q.d.count)
      | some (i, p') =>
        let g := p.frame i
        match q.fetch false (q.words (x.src + BitVec.ofNat 64 (hs + s * p.stride)) (p.stride / 4)) with
        | .wait d => d
        | .stop d _ reason va => q.stopAt d 6 reason va
        | .ok vs d =>
          let first := if s = 0 then g else e.kvFirst
          let ws := q.puts g (importFrame (d.terrace terr).ctx (vs.map (fun v => v.getD 0#32))) ++
            (if s = 0 then [] else q.puts (e.kvPrev + 24#64) (addrWords g)) ++
            (if q.c.step = nb then q.puts x.dst (addrWords first) else [])
          match q.writeAs d 7 [.w] ws (p.stride + (if q.c.step = nb then 8 else 0)) with
          | .wait d => d
          | .stop d op reason va => q.stopAt d op reason va
          | .ok d =>
            let d := (d.updPool x.dep.toNat x.pool.toNat (fun _ => p')).updCore q.h (fun k => k.updEq q.cq (fun e => { e with kvFirst := first, kvPrev := g }))
            q.stepped d nb)

end Sys2Proof.Machine
end

