-- ==== Sys2Proof/Machine/Matrix.lean ====
section
/-! DEFINITION. The matrix unit: acc.load, acc.store and mm (R49, R50, R53, R224 to R235). -/

namespace Sys2Proof.Machine

/-! ### Elements -/

/-- The 16,384 elements of a tile in row order. -/
def denseFrom : Nat → Nat → List (Nat × W32) → List W32
  | 0, _, _ => []
  | n + 1, i, [] => 0#32 :: denseFrom n (i + 1) []
  | n + 1, i, (k, v) :: r => if k = i then v :: denseFrom n (i + 1) r else 0#32 :: denseFrom n (i + 1) ((k, v) :: r)
def Tile.dense (t : Tile) : List W32 := denseFrom 16384 0 t.el.ents

/-- A tile's elements from their values in row order; +0.0 is not listed. -/
def sparse (vs : List W32) : AMap W32 := ⟨((vs.zipIdx.filter (fun e => e.1 != 0#32)).map (fun e => (e.2, e.1)))⟩

/-- A list cut into pieces of n. -/
def pieces {α : Type} (n : Nat) : Nat → List α → List (List α)
  | 0, _ => []
  | k + 1, l => l.take n :: pieces n k (l.drop n)

/-- A format code as a format. -/
def fmtOf (code : Nat) : Fmt :=
  match code with | 0 => .i32 | 1 => .u32 | 2 => .f32 | 3 => .bf16 | 4 => .e4m3 | _ => .e5m2

/-- The elements of a word, lowest first. -/
def wordElems (f : Fmt) (w : W32) : List W32 :=
  match f.size with
  | 4 => [w]
  | 2 => [w &&& 0xFFFF#32, w >>> 16]
  | _ => [w &&& 0xFF#32, (w >>> 8) &&& 0xFF#32, (w >>> 16) &&& 0xFF#32, w >>> 24]

/-- Words made of elements, lowest first. -/
def elemWords (f : Fmt) : Nat → List W32 → List W32
  | 0, _ => []
  | k + 1, l =>
    match f.size with
    | 4 => (l[0]?).getD 0#32 :: elemWords f k (l.drop 1)
    | 2 => ((l[0]?).getD 0#32 ||| ((l[1]?).getD 0#32 <<< 16)) :: elemWords f k (l.drop 2)
    | _ => ((l[0]?).getD 0#32 ||| ((l[1]?).getD 0#32 <<< 8) ||| ((l[2]?).getD 0#32 <<< 16) ||| ((l[3]?).getD 0#32 <<< 24)) ::
        elemWords f k (l.drop 4)

/-! ### acc.load and acc.store (R229) -/

/-- Address of row r of tile t of a command. -/
def accRow (x : AccArgs) (t r : Nat) : W64 := x.base + BitVec.ofNat 64 ((128 * t + r) * x.pitch.toNat)

/-- acc.load (R229): the tiles are claimed, every tile's words are read, then every tile is in place at once. -/
def execAccLoad (_hd : TileHdr) (x : AccArgs) : State → Host.Outcome State Fault Refusal :=
  command (fun q =>
    let n := x.cnt.toNat + 1
    let q := { q with d := (tilesFrom x.acc x.cnt).foldl (fun d t =>
      d.setTile q.h t { d.tile q.h t with owner := some (q.h % 4), lk := q.c.lk }) q.d }
    let rs := (List.range n).flatMap (fun t => (List.range 128).flatMap (fun r => (List.range 128).map (fun c =>
      q.rd (16384 * t + 128 * r + c) 4 x.sp (accRow x t r + BitVec.ofNat 64 (4 * c)))))
    match q.fetch false rs with
    | .wait d => d
    | .stop d op reason va => q.stopAt d op reason va
    | .ok vs d =>
      let d := ((pieces 16384 n vs).zipIdx).foldl (fun d p =>
        d.setTile q.h (x.acc.toNat + p.2) ⟨some (q.h % 4), sparse (p.1.map (fun v => v.getD 0#32)), q.c.lk⟩) d
      (d.retireHead q.h q.cq).cmdReport q.h q.cq q.c.seq (65536 * n))

/-- The rounding mode of ORND. -/
def orndMode (ctx : W32) : RMode := match orndOf ctx with | 0 => .rn | 1 => .rz | 2 => .ru | _ => .rd

/-- acc.store (R229): converted rows are written as one group, or word by word at the banks. When the format that the count was
taken from is not the one in force, the last write subtracts what is left (R223). -/
def execAccStore (_hd : TileHdr) (x : AccArgs) : State → Host.Outcome State Fault Refusal :=
  command (fun q =>
    let ctx := ((q.d.core q.h).eq q.cq).ctx
    let f := fmtOf (ofmtOf ctx)
    let ts := tilesFrom x.acc x.cnt
    if x.pitch.toNat < 128 * f.size || !q.d.ownsAll q.h ts then q.d.rejectHead q.h q.cq 5 else
    let per := 32 * f.size
    let ws := ts.zipIdx.flatMap (fun t => ((pieces 128 128 (q.d.tile q.h t.1).dense).zipIdx).flatMap (fun r =>
      ((elemWords f per (r.1.map (fun v => encF f (orndMode ctx) false (decF .f32 false v)))).zipIdx).map (fun w =>
        q.wr x.sp (accRow x t.2 r.2 + BitVec.ofNat 64 (4 * w.2)) w.1)))
    match q.write q.d 5 [.w] ws with
    | .wait d => d
    | .stop d op reason va => q.stopAt d op reason va
    | .ok d =>
      let banks := (ws.filter (fun w => match w.loc with | .bank _ _ => true | _ => false)).length
      let reports := banks + (if banks < ws.length then 1 else 0)
      (d.retireHead q.h q.cq).updCmd q.h q.cq q.c.seq (fun c => { c with total := reports }))

/-! ### mm (R231 to R235) -/

/-- Sizes of a product: K blocks, tile rows and columns, whether it is scaled, and its two formats. -/
structure MmShape where
  kb : Nat
  mt : Nat
  nt : Nat
  scaled : Bool
  fa : Fmt
  fb : Fmt

def mmShape (x : MmArgs) (ctx : W32) : MmShape :=
  let fa := fmtOf (afmtOf ctx)
  let fb := fmtOf (bfmtOf ctx)
  ⟨x.kb.toNat + 1, x.mt.toNat + 1, x.nt.toNat + 1, sclOf ctx && fa.isFp8 && fb.isFp8, fa, fb⟩

/-- The limits that depend on the format context (R231). -/
def mmFits (x : MmArgs) (z : MmShape) : Bool :=
  (x.asrc || decide (128 * z.kb * z.fa.size ≤ x.apitch.toNat)) &&
  (x.bsrc || decide (128 * z.nt * z.fb.size ≤ x.bpitch.toNat)) &&
  (!z.scaled || (lowZero x.sabase 2 && lowZero x.sbbase 2 && decide (128 * z.mt * z.kb + z.kb * z.nt ≤ 8192)))

/-- An object operand: its core and index (R231). -/
def objCore (h : Nat) (base : W64) : Nat := 4 * courtOf h + (base.extractLsb' 6 2).toNat
def objIx (base : W64) : Nat := (base.extractLsb' 0 6).toNat

/-- The checks of R234. -/
def Obj.operandOk (o : Obj) (lk : Nat) (code rows cols : Nat) : Bool :=
  o.st == .sealed_ && o.owner == lk && o.etype == code && o.trows == 128 && o.tcols == 128 && decide (rows ≤ o.rows) && decide (cols ≤ o.cols)

/-- The object operands of a command that fail their checks, by operand number. -/
def QCtx.badObject (q : QCtx) (x : MmArgs) (z : MmShape) (ctx : W32) : Option (Nat × W64) :=
  let bad (n : Nat) (src : Bool) (base : W64) (code rows cols : Nat) : Option (Nat × W64) :=
    if !src then none else
    let t := objCore q.h base
    let o := (q.d.core t).obj (objIx base)
    if o.operandOk q.c.lk code rows cols then none else some (n, BitVec.ofNat 64 (windowOf t o.base))
  (bad 1 x.asrc x.abase (afmtOf ctx) (128 * z.mt) (128 * z.kb)).or (bad 2 x.bsrc x.bbase (bfmtOf ctx) (128 * z.kb) (128 * z.nt))

/-- The words of one 128-row operand block: rows from row0, bytes from byte column b0. -/
def QCtx.block (q : QCtx) (ix0 op : Nat) (src : Bool) (base : W64) (pitch row0 b0 words : Nat) : List Rd :=
  (List.range 128).flatMap (fun r => (List.range words).map (fun w =>
    if src then
      let t := objCore q.h base
      let o := (q.d.core t).obj (objIx base)
      let a := o.base + (row0 + r) * o.pitch + b0 + 4 * w
      ⟨ix0 + 128 * r + w, op, .bank t a, BitVec.ofNat 64 (windowOf t a)⟩
    else q.rd (ix0 + 128 * r + w) op false (base + BitVec.ofNat 64 ((row0 + r) * pitch + b0 + 4 * w))))

/-- The scales of a command (R232 capture). -/
def QCtx.scales (q : QCtx) (x : MmArgs) (z : MmShape) : List Rd :=
  ((List.range (128 * z.mt * z.kb)).map (fun i => q.rd (32768 + i) 3 false (x.sabase + BitVec.ofNat 64 (4 * i)))) ++
  ((List.range (z.kb * z.nt)).map (fun i => q.rd (40960 + i) 3 false (x.sbbase + BitVec.ofNat 64 (4 * i))))

/-- One element's accumulation for one block (R49). -/
def mmElem (g : FVal) (c : W32) (row col : List FVal) : W32 :=
  let s := (row.zip col).foldl (fun acc p => addF .rn acc (mulF p.1 p.2)) (.fin true 0 0)
  let r (v : FVal) : FVal := decF .f32 false (encF .f32 .rn false v)
  encF .f32 .rn false (addF .rn (decF .f32 false c) (r (mulF (r s) g)))

/-- Columns of a block given by rows. -/
def columns (rows : List (List FVal)) : List (List FVal) :=
  (List.range 128).map (fun j => rows.map (fun r => (r[j]?).getD .nan))

/-- A step of mm: at the first step the scales are captured, then the operands are fetched (R232), and the whole tile is updated at once. -/
def execMm (hd : TileHdr) (x : MmArgs) : State → Host.Outcome State Fault Refusal :=
  command (fun q =>
    let ctx := ((q.d.core q.h).eq q.cq).ctx
    let z := mmShape x ctx
    let tiles := (List.range (z.mt * z.nt)).map (fun t => x.acc.toNat + t)
    if !q.c.begun && (!mmFits x z || !q.d.ownsAll q.h tiles) then q.d.rejectHead q.h q.cq 5 else
    let first := hd.rstep.toNat
    match (if q.c.begun then none else q.badObject x z ctx) with
    | some e =>
      let q := q.begin_ hd 0
      q.stopAt q.d e.1 4 e.2
    | none =>
      let fresh := !q.c.begun
      let q := q.begin_ hd 0
      let objs := (if x.asrc then [(objCore q.h x.abase, objIx x.abase)] else []) ++ (if x.bsrc then [(objCore q.h x.bbase, objIx x.bbase)] else [])
      let objs := objs.dedup
      let d := if fresh then
          (objs.foldl (fun d o => d.updCore o.1 (fun k => k.setObj o.2 { k.obj o.2 with ref := (k.obj o.2).ref + 1 })) q.d).updCmd q.h q.cq q.c.seq
            (fun c => { c with objs := objs })
        else q.d
      let q := { q with d := d }
      let s := q.c.step
      let t := s / z.kb
      let β := s % z.kb
      let mi := t / z.nt
      let ni := t % z.nt
      let wa := 32 * z.fa.size
      let wb := 32 * z.fb.size
      let cap := z.scaled && s == first && q.c.sa.ents.isEmpty
      let scs := if cap then q.scales x z else []
      let rs := scs ++ q.block 0 1 x.asrc x.abase x.apitch.toNat (128 * mi) (128 * β * z.fa.size) wa ++
        q.block 16384 2 x.bsrc x.bbase x.bpitch.toNat (128 * β) (128 * ni * z.fb.size) wb
      match q.fetch false rs with
      | .wait d => d
      | .stop d op reason va => q.stopAt d op reason va
      | .ok vs d =>
        let vs := vs.map (fun v => v.getD 0#32)
        let sc := vs.take scs.length
        let vs := vs.drop scs.length
        let nsa := 128 * z.mt * z.kb
        let sa : AMap W32 := if cap then ⟨(sc.take nsa).zipIdx.map (fun e => (e.2, e.1))⟩ else q.c.sa
        let sb : AMap W32 := if cap then ⟨(sc.drop nsa).zipIdx.map (fun e => (e.2, e.1))⟩ else q.c.sb
        let elems (f : Fmt) (ws : List W32) : List FVal := (ws.flatMap (wordElems f)).map (decF f false)
        let rows := (pieces wa 128 vs).map (elems z.fa)
        let cols := columns ((pieces wb 128 (vs.drop (128 * wa))).map (elems z.fb))
        let g (i : Nat) : FVal :=
          if z.scaled then
            decF .f32 false (encF .f32 .rn false (mulF (decF .f32 false (sa.get 0#32 ((128 * mi + i) * z.kb + β))) (decF .f32 false (sb.get 0#32 (β * z.nt + ni)))))
          else .fin false 1 0
        let old := pieces 128 128 (d.tile q.h (x.acc.toNat + t)).dense
        let new := ((rows.zip old).zipIdx).flatMap (fun r =>
          let gi := g r.2
          (r.1.2.zip cols).map (fun c => mmElem gi c.1 r.1.1 c.2))
        let d := d.setTile q.h (x.acc.toNat + t) { d.tile q.h (x.acc.toNat + t) with el := sparse new }
        let d := d.updCmd q.h q.cq q.c.seq (fun c => { c with sa := sa, sb := sb })
        let d := q.stepped d (z.mt * z.nt * z.kb - 1)
        if z.mt * z.nt * z.kb - 1 ≤ s then d.cmdReport q.h q.cq q.c.seq 1 else d)

end Sys2Proof.Machine
end

