-- ==== Sys2Proof/Machine/Vector.lean ====
section
/-! DEFINITION. Vector integer, mask, lane-move, reduction, floating and conversion forms (R91 to R99, R105 to R110). -/

namespace Sys2Proof.Machine

/-- A form that writes the active lanes of vD, lane l with f s l. -/
def vForm (u : Use) (km : KReg) (kz : Bool) (d : VReg) (f : Slot → Nat → W32) : State → Host.Outcome State Fault Refusal :=
  regForm u (fun s => s.setVm d.toNat (s.K km.toNat) kz (ofLanes (f s)))

/-- A form that writes the active bits of kD, bit l with f s l. -/
def kForm (u : Use) (km : KReg) (kz : Bool) (d : KReg) (f : Slot → Nat → Bool) : State → Host.Outcome State Fault Refusal :=
  regForm u (fun s => s.setKm d.toNat (s.K km.toNat) kz (ofBits (f s)))

/-- Lane l of vector register r. -/
def Slot.ln (s : Slot) (r : VReg) (l : Nat) : W32 := lane (s.V r.toNat) l

/-! ### Integer forms (R95) -/

/-- Two sources, the exact value reduced. -/
def vInt (ty : IType) (km : KReg) (kz : Bool) (d a b : VReg) (op : Int → Int → Int) : State → Host.Outcome State Fault Refusal :=
  vForm (useDAB km kz d a b) km kz d (fun s l => outInt ty s.sat (op (inInt ty (s.ln a l)) (inInt ty (s.ln b l))))
/-- Two sources, a bit pattern. -/
def vBits (km : KReg) (kz : Bool) (d a b : VReg) (op : W32 → W32 → W32) : State → Host.Outcome State Fault Refusal :=
  vForm (useDAB km kz d a b) km kz d (fun s l => op (s.ln a l) (s.ln b l))
/-- One source, the exact value reduced. -/
def vInt1 (ty : IType) (km : KReg) (kz : Bool) (d a : VReg) (op : Int → Int) : State → Host.Outcome State Fault Refusal :=
  vForm (useDA km kz d a) km kz d (fun s l => outInt ty s.sat (op (inInt ty (s.ln a l))))

/-- A shift count: the five low bits. -/
def cnt5 (y : W32) : Nat := y.toNat % 32

def opVmulh (ty : IType) (x y : W32) : W32 := BitVec.ofInt 32 (inInt ty x * inInt ty y / 2 ^ 32)
def opVmin (ty : IType) (x y : W32) : W32 := if inInt ty x ≤ inInt ty y then x else y
def opVmax (ty : IType) (x y : W32) : W32 := if inInt ty y ≤ inInt ty x then x else y

/-- vadd (R95). -/
def execVadd (ty : IType) (km : KReg) (kz : Bool) (d a b : VReg) : State → Host.Outcome State Fault Refusal := vInt ty km kz d a b (· + ·)
/-- vsub (R95). -/
def execVsub (ty : IType) (km : KReg) (kz : Bool) (d a b : VReg) : State → Host.Outcome State Fault Refusal := vInt ty km kz d a b (· - ·)
/-- vmul (R95). -/
def execVmul (ty : IType) (km : KReg) (kz : Bool) (d a b : VReg) : State → Host.Outcome State Fault Refusal := vInt ty km kz d a b (· * ·)
/-- vmulh (R95). -/
def execVmulh (ty : IType) (km : KReg) (kz : Bool) (d a b : VReg) : State → Host.Outcome State Fault Refusal := vBits km kz d a b (opVmulh ty)
/-- vmin (R95). -/
def execVmin (ty : IType) (km : KReg) (kz : Bool) (d a b : VReg) : State → Host.Outcome State Fault Refusal := vBits km kz d a b (opVmin ty)
/-- vmax (R95). -/
def execVmax (ty : IType) (km : KReg) (kz : Bool) (d a b : VReg) : State → Host.Outcome State Fault Refusal := vBits km kz d a b (opVmax ty)
/-- vabs (R95). -/
def execVabs (km : KReg) (kz : Bool) (d a : VReg) : State → Host.Outcome State Fault Refusal := vInt1 .i32 km kz d a (fun x => (x.natAbs : Int))
/-- vneg (R95). -/
def execVneg (ty : IType) (km : KReg) (kz : Bool) (d a : VReg) : State → Host.Outcome State Fault Refusal := vInt1 ty km kz d a (fun x => -x)
/-- vand (R95). -/
def execVand (_ty : IType) (km : KReg) (kz : Bool) (d a b : VReg) : State → Host.Outcome State Fault Refusal := vBits km kz d a b (· &&& ·)
/-- vor (R95). -/
def execVor (_ty : IType) (km : KReg) (kz : Bool) (d a b : VReg) : State → Host.Outcome State Fault Refusal := vBits km kz d a b (· ||| ·)
/-- vxor (R95). -/
def execVxor (_ty : IType) (km : KReg) (kz : Bool) (d a b : VReg) : State → Host.Outcome State Fault Refusal := vBits km kz d a b (· ^^^ ·)
/-- vnot (R95). -/
def execVnot (_ty : IType) (km : KReg) (kz : Bool) (d a : VReg) : State → Host.Outcome State Fault Refusal :=
  vForm (useDA km kz d a) km kz d (fun s l => ~~~(s.ln a l))
/-- vshl (R95). -/
def execVshl (_ty : IType) (km : KReg) (kz : Bool) (d a b : VReg) : State → Host.Outcome State Fault Refusal := vBits km kz d a b (fun x y => x <<< cnt5 y)
/-- vshr (R95). -/
def execVshr (_ty : IType) (km : KReg) (kz : Bool) (d a b : VReg) : State → Host.Outcome State Fault Refusal := vBits km kz d a b (fun x y => x >>> cnt5 y)
/-- vsar (R95). -/
def execVsar (_ty : IType) (km : KReg) (kz : Bool) (d a b : VReg) : State → Host.Outcome State Fault Refusal := vBits km kz d a b (fun x y => x.sshiftRight (cnt5 y))
/-- vmad (R95): the exact x y + z, reduced once. -/
def execVmad (ty : IType) (km : KReg) (kz : Bool) (d a b c : VReg) : State → Host.Outcome State Fault Refusal :=
  vForm (useDABC km kz d a b c) km kz d (fun s l =>
    outInt ty s.sat (inInt ty (s.ln a l) * inInt ty (s.ln b l) + inInt ty (s.ln c l)))
/-- vcmp.cc (R96). -/
def execVcmp (cc : Cc) (km : KReg) (kz : Bool) (d : KReg) (a b : VReg) : State → Host.Outcome State Fault Refusal :=
  kForm ((useV [a, b] [wk d, rv a, rv b]).masked km kz) km kz d (fun s l => cond cc (s.ln a l) (s.ln b l))

/-! ### Masks (R97) -/

/-- A form that writes kD from two masks. -/
def kBits (d a b : KReg) (op : BitVec 16 → BitVec 16 → BitVec 16) : State → Host.Outcome State Fault Refusal :=
  regForm (useA [wk d, rk a, rk b]) (fun s => s.setK d.toNat (op (s.K a.toNat) (s.K b.toNat)))

/-- kand (R97). -/
def execKand (d a b : KReg) : State → Host.Outcome State Fault Refusal := kBits d a b (· &&& ·)
/-- kor (R97). -/
def execKor (d a b : KReg) : State → Host.Outcome State Fault Refusal := kBits d a b (· ||| ·)
/-- kxor (R97). -/
def execKxor (d a b : KReg) : State → Host.Outcome State Fault Refusal := kBits d a b (· ^^^ ·)
/-- kandn (R97). -/
def execKandn (d a b : KReg) : State → Host.Outcome State Fault Refusal := kBits d a b (fun x y => x &&& ~~~y)
/-- knot (R97). -/
def execKnot (d a : KReg) : State → Host.Outcome State Fault Refusal := regForm (useA [wk d, rk a]) (fun s => s.setK d.toNat (~~~(s.K a.toNat)))
/-- kmov (R97). -/
def execKmov (d a : KReg) : State → Host.Outcome State Fault Refusal := regForm (useA [wk d, rk a]) (fun s => s.setK d.toNat (s.K a.toNat))
/-- kpop (R97). -/
def execKpop (d : AReg) (a : KReg) : State → Host.Outcome State Fault Refusal :=
  regForm (useA [wa d, rk a]) (fun s => s.setA d.toNat (BitVec.ofNat 64 (popcount (s.K a.toNat))))
/-- kfirst (R97). -/
def execKfirst (d : AReg) (a : KReg) : State → Host.Outcome State Fault Refusal :=
  regForm (useA [wa d, rk a]) (fun s => s.setA d.toNat (BitVec.ofNat 64 (firstLane (s.K a.toNat))))
/-- kset (R97). -/
def execKset (d : KReg) (a : AReg) : State → Host.Outcome State Fault Refusal :=
  regForm (useA [wk d, ra a]) (fun s => s.setK d.toNat ((s.A a.toNat).extractLsb' 0 16))

/-! ### Constants and lane moves (R98, R99) -/

/-- vli (R98). -/
def execVli (km : KReg) (kz : Bool) (d : VReg) (a : AReg) (imm : W32) : State → Host.Outcome State Fault Refusal :=
  vForm ((useV [d] [wv d, ra a]).masked km kz) km kz d (fun s _ => (s.A a.toNat + imm.signExtend 64).extractLsb' 0 32)
/-- vbcast (R99). -/
def execVbcast (ln : BitVec 4) (km : KReg) (kz : Bool) (d a : VReg) : State → Host.Outcome State Fault Refusal :=
  vForm (useDA km kz d a) km kz d (fun s _ => s.ln a ln.toNat)
/-- viota (R99). -/
def execViota (km : KReg) (kz : Bool) (d : VReg) : State → Host.Outcome State Fault Refusal :=
  vForm ((useV [d] [wv d]).masked km kz) km kz d (fun _ l => BitVec.ofNat 32 l)
/-- vperm (R99). -/
def execVperm (km : KReg) (kz : Bool) (d a b : VReg) : State → Host.Outcome State Fault Refusal :=
  vForm (useDAB km kz d a b) km kz d (fun s l => s.ln a ((s.ln b l).toNat % 16))
/-- vrotl (R99). -/
def execVrotl (ln : BitVec 4) (km : KReg) (kz : Bool) (d a : VReg) : State → Host.Outcome State Fault Refusal :=
  vForm (useDA km kz d a) km kz d (fun s l => s.ln a ((l + ln.toNat) % 16))
/-- vext (R99). -/
def execVext (ln : BitVec 4) (d : AReg) (a : VReg) : State → Host.Outcome State Fault Refusal :=
  regForm (useV [a] [wa d, rv a]) (fun s => s.setA d.toNat ((s.ln a ln.toNat).setWidth 64))
/-- vins (R99): the other lanes are unchanged. -/
def execVins (ln : BitVec 4) (d : VReg) (a : AReg) : State → Host.Outcome State Fault Refusal :=
  regForm { useV [d] [wv d, ra a] with wr := .one } (fun s =>
    s.setVm d.toNat (1#16 <<< ln.toNat) false (ofLanes (fun _ => (s.A a.toNat).extractLsb' 0 32)))
/-- vmov (R99). -/
def execVmov (km : KReg) (kz : Bool) (d a : VReg) : State → Host.Outcome State Fault Refusal := vForm (useDA km kz d a) km kz d (fun s l => s.ln a l)

/-! ### Reductions and scans (R108) -/

/-- The leaves of the lane tree: the active lanes of va. -/
def Slot.leaf {α : Type} (s : Slot) (km : KReg) (a : VReg) (f : W32 → α) (l : Nat) : Option α :=
  if (s.K km.toNat).getLsbD l then some (f (s.ln a l)) else none

/-- A reduction: the root in every active lane. -/
def vRed {α : Type} (km : KReg) (kz : Bool) (d a : VReg) (inp : Slot → W32 → α) (op : Slot → α → α → α) (zero : α)
    (out : Slot → α → W32) : State → Host.Outcome State Fault Refusal :=
  vForm (useDA km kz d a) km kz d (fun s _ => out s ((treeNode (op s) (s.leaf km a (inp s)) 4 0).getD zero))

/-- A scan: each active lane takes its prefix. -/
def vPre {α : Type} (incl : Bool) (km : KReg) (kz : Bool) (d a : VReg) (inp : Slot → W32 → α) (op : Slot → α → α → α)
    (zero : α) (out : Slot → α → W32) : State → Host.Outcome State Fault Refusal :=
  vForm (useDA km kz d a) km kz d (fun s l =>
    let lf := s.leaf km a (inp s)
    out s ((if incl then treePrefix (op s) lf l else treeBefore (op s) lf l).getD zero))

/-- vredsum (R108): exact at every node, reduced at the root. -/
def execVredsum (ty : IType) (km : KReg) (kz : Bool) (d a : VReg) : State → Host.Outcome State Fault Refusal :=
  vRed km kz d a (fun _ => inInt ty) (fun _ => (· + ·)) 0 (fun s => outInt ty s.sat)
/-- vredmin (R108). -/
def execVredmin (ty : IType) (km : KReg) (kz : Bool) (d a : VReg) : State → Host.Outcome State Fault Refusal :=
  vRed km kz d a (fun _ w => w) (fun _ => opVmin ty) (match ty with | .i32 => 0x7FFFFFFF#32 | .u32 => 0xFFFFFFFF#32) (fun _ w => w)
/-- vredmax (R108). -/
def execVredmax (ty : IType) (km : KReg) (kz : Bool) (d a : VReg) : State → Host.Outcome State Fault Refusal :=
  vRed km kz d a (fun _ w => w) (fun _ => opVmax ty) (match ty with | .i32 => 0x80000000#32 | .u32 => 0#32) (fun _ w => w)
/-- vredand (R108). -/
def execVredand (_ty : IType) (km : KReg) (kz : Bool) (d a : VReg) : State → Host.Outcome State Fault Refusal := vRed km kz d a (fun _ w => w) (fun _ => (· &&& ·)) 0xFFFFFFFF#32 (fun _ w => w)
/-- vredor (R108). -/
def execVredor (_ty : IType) (km : KReg) (kz : Bool) (d a : VReg) : State → Host.Outcome State Fault Refusal := vRed km kz d a (fun _ w => w) (fun _ => (· ||| ·)) 0#32 (fun _ w => w)
/-- vredxor (R108). -/
def execVredxor (_ty : IType) (km : KReg) (kz : Bool) (d a : VReg) : State → Host.Outcome State Fault Refusal := vRed km kz d a (fun _ w => w) (fun _ => (· ^^^ ·)) 0#32 (fun _ w => w)
/-- vscan (R108): each exact prefix reduced once. -/
def execVscan (ty : IType) (km : KReg) (kz : Bool) (d a : VReg) : State → Host.Outcome State Fault Refusal :=
  vPre true km kz d a (fun _ => inInt ty) (fun _ => (· + ·)) 0 (fun s => outInt ty s.sat)
/-- vscanx (R108). -/
def execVscanx (ty : IType) (km : KReg) (kz : Bool) (d a : VReg) : State → Host.Outcome State Fault Refusal :=
  vPre false km kz d a (fun _ => inInt ty) (fun _ => (· + ·)) 0 (fun s => outInt ty s.sat)

/-! ### Floating forms (R105 to R108) -/

/-- Lane l of vr as a value of the type, after FTZin. -/
def Slot.fl (s : Slot) (ty : FType) (r : VReg) (l : Nat) : FVal := decF ty.fmt s.ftz (s.ln r l)

/-- Two or three sources, rounded once in Mode(rnd). -/
def vF2 (ty : FType) (rnd : Rnd) (km : KReg) (kz : Bool) (d a b : VReg) (op : RMode → FVal → FVal → FVal) : State → Host.Outcome State Fault Refusal :=
  vForm (useDAB km kz d a b) km kz d (fun s l =>
    encF ty.fmt (s.mode rnd) s.ftz (op (s.mode rnd) (s.fl ty a l) (s.fl ty b l)))
def vF3 (ty : FType) (rnd : Rnd) (km : KReg) (kz : Bool) (d a b c : VReg) (op : RMode → FVal → FVal → FVal → FVal) : State → Host.Outcome State Fault Refusal :=
  vForm (useDABC km kz d a b c) km kz d (fun s l =>
    encF ty.fmt (s.mode rnd) s.ftz (op (s.mode rnd) (s.fl ty a l) (s.fl ty b l) (s.fl ty c l)))
/-- One or two sources, a value the format already holds. -/
def vFsel (ty : FType) (km : KReg) (kz : Bool) (d a b : VReg) (op : FVal → FVal → FVal) : State → Host.Outcome State Fault Refusal :=
  vForm (useDAB km kz d a b) km kz d (fun s l => encF ty.fmt .rn false (op (s.fl ty a l) (s.fl ty b l)))
def vFsel1 (ty : FType) (km : KReg) (kz : Bool) (d a : VReg) (op : FVal → FVal) : State → Host.Outcome State Fault Refusal :=
  vForm (useDA km kz d a) km kz d (fun s l => encF ty.fmt .rn false (op (s.fl ty a l)))

/-- vfadd (R105). -/
def execVfadd (ty : FType) (rnd : Rnd) (km : KReg) (kz : Bool) (d a b : VReg) : State → Host.Outcome State Fault Refusal := vF2 ty rnd km kz d a b addF
/-- vfsub (R105). -/
def execVfsub (ty : FType) (rnd : Rnd) (km : KReg) (kz : Bool) (d a b : VReg) : State → Host.Outcome State Fault Refusal := vF2 ty rnd km kz d a b (fun m x y => addF m x (negF y))
/-- vfmul (R105). -/
def execVfmul (ty : FType) (rnd : Rnd) (km : KReg) (kz : Bool) (d a b : VReg) : State → Host.Outcome State Fault Refusal := vF2 ty rnd km kz d a b (fun _ x y => mulF x y)
/-- vfma (R105, R46). -/
def execVfma (ty : FType) (rnd : Rnd) (km : KReg) (kz : Bool) (d a b c : VReg) : State → Host.Outcome State Fault Refusal := vF3 ty rnd km kz d a b c (fun m x y z => addF m (mulF x y) z)
/-- vfms (R105). -/
def execVfms (ty : FType) (rnd : Rnd) (km : KReg) (kz : Bool) (d a b c : VReg) : State → Host.Outcome State Fault Refusal := vF3 ty rnd km kz d a b c (fun m x y z => addF m (mulF x y) (negF z))
/-- vfnma (R105). -/
def execVfnma (ty : FType) (rnd : Rnd) (km : KReg) (kz : Bool) (d a b c : VReg) : State → Host.Outcome State Fault Refusal := vF3 ty rnd km kz d a b c (fun m x y z => addF m (negF (mulF x y)) z)
/-- vfmin (R105). -/
def execVfmin (ty : FType) (km : KReg) (kz : Bool) (d a b : VReg) : State → Host.Outcome State Fault Refusal := vFsel ty km kz d a b minF
/-- vfmax (R105). -/
def execVfmax (ty : FType) (km : KReg) (kz : Bool) (d a b : VReg) : State → Host.Outcome State Fault Refusal := vFsel ty km kz d a b maxF
/-- vfabs (R105). -/
def execVfabs (ty : FType) (km : KReg) (kz : Bool) (d a : VReg) : State → Host.Outcome State Fault Refusal := vFsel1 ty km kz d a absF
/-- vfneg (R105). -/
def execVfneg (ty : FType) (km : KReg) (kz : Bool) (d a : VReg) : State → Host.Outcome State Fault Refusal := vFsel1 ty km kz d a negF

/-- The relations of vfcmp (R106): with a NaN only ne holds. -/
def fcond (cc : Fcc) (x y : FVal) : Bool :=
  if x == .nan || y == .nan then cc == .ne else
  match cc with
  | .eq => cmpF x y == 0
  | .ne => cmpF x y != 0
  | .lt => decide (cmpF x y < 0)
  | .ge => decide (0 ≤ cmpF x y)
/-- vfcmp.cc (R106). -/
def execVfcmp (cc : Fcc) (ty : FType) (km : KReg) (kz : Bool) (d : KReg) (a b : VReg) : State → Host.Outcome State Fault Refusal :=
  kForm ((useV [a, b] [wk d, rv a, rv b]).masked km kz) km kz d (fun s l => fcond cc (s.fl ty a l) (s.fl ty b l))

/-- An approximation: RoundF32 in rn of what its table gives (R51). -/
def vApprox (km : KReg) (kz : Bool) (d a : VReg) (op : FVal → FVal) : State → Host.Outcome State Fault Refusal :=
  vForm (useDA km kz d a) km kz d (fun s l => encF .f32 .rn s.ftz (op (s.fl .f32 a l)))
/-- vfrcpa (R107). -/
def execVfrcpa (km : KReg) (kz : Bool) (d a : VReg) : State → Host.Outcome State Fault Refusal := vApprox km kz d a rcpF
/-- vfrsqa (R107). -/
def execVfrsqa (km : KReg) (kz : Bool) (d a : VReg) : State → Host.Outcome State Fault Refusal := vApprox km kz d a rsqF
/-- vfexp2a (R107). -/
def execVfexp2a (km : KReg) (kz : Bool) (d a : VReg) : State → Host.Outcome State Fault Refusal := vApprox km kz d a exp2F
/-- vflog2a (R107). -/
def execVflog2a (km : KReg) (kz : Bool) (d a : VReg) : State → Host.Outcome State Fault Refusal := vApprox km kz d a log2F

/-- A node of a floating sum: rounded in Mode(rnd), with FTZ on its inputs and result (R47). -/
def fsumNode (ty : FType) (rnd : Rnd) (s : Slot) (x y : FVal) : FVal :=
  decF ty.fmt s.ftz (encF ty.fmt (s.mode rnd) s.ftz (addF (s.mode rnd) x y))

/-- vfredsum (R108). -/
def execVfredsum (ty : FType) (rnd : Rnd) (km : KReg) (kz : Bool) (d a : VReg) : State → Host.Outcome State Fault Refusal :=
  vRed km kz d a (fun s => decF ty.fmt s.ftz) (fsumNode ty rnd) (.fin false 0 0) (fun _ => encF ty.fmt .rn false)
/-- vfredmin (R108). -/
def execVfredmin (ty : FType) (km : KReg) (kz : Bool) (d a : VReg) : State → Host.Outcome State Fault Refusal :=
  vRed km kz d a (fun s => decF ty.fmt s.ftz) (fun _ => minF) (.inf false) (fun _ => encF ty.fmt .rn false)
/-- vfredmax (R108). -/
def execVfredmax (ty : FType) (km : KReg) (kz : Bool) (d a : VReg) : State → Host.Outcome State Fault Refusal :=
  vRed km kz d a (fun s => decF ty.fmt s.ftz) (fun _ => maxF) (.inf true) (fun _ => encF ty.fmt .rn false)
/-- vfscan (R108). -/
def execVfscan (ty : FType) (rnd : Rnd) (km : KReg) (kz : Bool) (d a : VReg) : State → Host.Outcome State Fault Refusal :=
  vPre true km kz d a (fun s => decF ty.fmt s.ftz) (fsumNode ty rnd) (.fin false 0 0) (fun _ => encF ty.fmt .rn false)
/-- vfscanx (R108). -/
def execVfscanx (ty : FType) (rnd : Rnd) (km : KReg) (kz : Bool) (d a : VReg) : State → Host.Outcome State Fault Refusal :=
  vPre false km kz d a (fun s => decF ty.fmt s.ftz) (fsumNode ty rnd) (.fin false 0 0) (fun _ => encF ty.fmt .rn false)

/-! ### Conversions (R109, R110) -/

/-- vcvt with neither format of 8 bits (R109). -/
def execVcvt (dst src : Fmt) (rnd : Rnd) (km : KReg) (kz : Bool) (d a : VReg) : State → Host.Outcome State Fault Refusal :=
  vForm (useDA km kz d a) km kz d (fun s l => conv dst src (s.mode rnd) s.ftz s.sat (s.ln a l))

/-- A long-latency form whose results are settled at issue: they land later (R26, R36, R109). -/
def longValue (u : Use) (km : KReg) (kz : Bool) (vd : List Nat) (f : Slot → List V512) : State → Host.Outcome State Fault Refusal :=
  thread u (fun c =>
    let o : LongOp := ⟨c.d.count, c.s.pc, .value, vd, [], c.s.K km.toNat, kz, [], vd.zip (f c.s), [], 0, 0, true⟩
    .done ((({ c.d with count := c.d.count + 1 } : Dev).setSlot c.h c.n { c.s with ops := c.s.ops ++ [o] }).send 0
      (.resultLanding c.h c.n o.id)))

/-- vcvt with an 8-bit format (R109), long-latency. -/
def execVcvtFp8 (la : BitVec 4) (dst src : Fmt) (rnd : Rnd) (km : KReg) (kz : Bool) (d a : VReg) : State → Host.Outcome State Fault Refusal :=
  longValue ((useDA km kz d a).long la) km kz [d.toNat] (fun s =>
    [ofLanes (fun l => conv dst src (s.mode rnd) s.ftz s.sat (s.ln a l))])

/-- vcvtsc (R110): elements into vD, scales into vD+1. -/
def execVcvtsc (la : BitVec 4) (dst src : Fmt) (rnd : Rnd) (km : KReg) (kz : Bool) (d a b : VReg) : State → Host.Outcome State Fault Refusal :=
  longValue (((useDAB km kz d a b).also (wvn (d.toNat + 1))).long la) km kz [d.toNat, d.toNat + 1] (fun s =>
    let r := fun l => convScale dst src (s.mode rnd) s.ftz (s.ln a l) (s.ln b l)
    [ofLanes (fun l => (r l).1), ofLanes (fun l => (r l).2)])

end Sys2Proof.Machine
end

