-- ==== Sys2Proof/Machine/Dispatch.lean ====
section
/-! DEFINITION. What each instruction, command, event and request does: one meaning an arm. -/

namespace Sys2Proof.Machine

def exec (i : Instr) (s : State) : Host.Outcome State Fault Refusal :=
  match i with
  | .nop => Sys2Proof.Machine.execNop s
  | .br off => Sys2Proof.Machine.execBr off s
  | .bc cc aa ab off => Sys2Proof.Machine.execBc cc aa ab off s
  | .bany k off => Sys2Proof.Machine.execBany k off s
  | .ball k off => Sys2Proof.Machine.execBall k off s
  | .bnone k off => Sys2Proof.Machine.execBnone k off s
  | .call off => Sys2Proof.Machine.execCall off s
  | .jr a => Sys2Proof.Machine.execJr a s
  | .callr a => Sys2Proof.Machine.execCallr a s
  | .ret => Sys2Proof.Machine.execRet s
  | .loop a off => Sys2Proof.Machine.execLoop a off s
  | .halt retain => Sys2Proof.Machine.execHalt retain s
  | .yield => Sys2Proof.Machine.execYield s
  | .aadd d a b => Sys2Proof.Machine.execAadd d a b s
  | .asub d a b => Sys2Proof.Machine.execAsub d a b s
  | .amul d a b => Sys2Proof.Machine.execAmul d a b s
  | .amulh d a b => Sys2Proof.Machine.execAmulh d a b s
  | .amulhu d a b => Sys2Proof.Machine.execAmulhu d a b s
  | .aand d a b => Sys2Proof.Machine.execAand d a b s
  | .aor d a b => Sys2Proof.Machine.execAor d a b s
  | .axor d a b => Sys2Proof.Machine.execAxor d a b s
  | .ashl d a b => Sys2Proof.Machine.execAshl d a b s
  | .ashr d a b => Sys2Proof.Machine.execAshr d a b s
  | .asar d a b => Sys2Proof.Machine.execAsar d a b s
  | .amin d a b => Sys2Proof.Machine.execAmin d a b s
  | .amax d a b => Sys2Proof.Machine.execAmax d a b s
  | .aminu d a b => Sys2Proof.Machine.execAminu d a b s
  | .amaxu d a b => Sys2Proof.Machine.execAmaxu d a b s
  | .amov d a => Sys2Proof.Machine.execAmov d a s
  | .asel d a b c => Sys2Proof.Machine.execAsel d a b c s
  | .aset cc d a b => Sys2Proof.Machine.execAset cc d a b s
  | .aaddi u d a imm => Sys2Proof.Machine.execAaddi u d a imm s
  | .ali u d imm => Sys2Proof.Machine.execAli u d imm s
  | .alih d a imm => Sys2Proof.Machine.execAlih d a imm s
  | .vadd ty km kz d a b => Sys2Proof.Machine.execVadd ty km kz d a b s
  | .vsub ty km kz d a b => Sys2Proof.Machine.execVsub ty km kz d a b s
  | .vmul ty km kz d a b => Sys2Proof.Machine.execVmul ty km kz d a b s
  | .vmulh ty km kz d a b => Sys2Proof.Machine.execVmulh ty km kz d a b s
  | .vmin ty km kz d a b => Sys2Proof.Machine.execVmin ty km kz d a b s
  | .vmax ty km kz d a b => Sys2Proof.Machine.execVmax ty km kz d a b s
  | .vabs km kz d a => Sys2Proof.Machine.execVabs km kz d a s
  | .vneg ty km kz d a => Sys2Proof.Machine.execVneg ty km kz d a s
  | .vand ty km kz d a b => Sys2Proof.Machine.execVand ty km kz d a b s
  | .vor ty km kz d a b => Sys2Proof.Machine.execVor ty km kz d a b s
  | .vxor ty km kz d a b => Sys2Proof.Machine.execVxor ty km kz d a b s
  | .vnot ty km kz d a => Sys2Proof.Machine.execVnot ty km kz d a s
  | .vshl ty km kz d a b => Sys2Proof.Machine.execVshl ty km kz d a b s
  | .vshr ty km kz d a b => Sys2Proof.Machine.execVshr ty km kz d a b s
  | .vsar ty km kz d a b => Sys2Proof.Machine.execVsar ty km kz d a b s
  | .vmad ty km kz d a b c => Sys2Proof.Machine.execVmad ty km kz d a b c s
  | .vcmp cc km kz d a b => Sys2Proof.Machine.execVcmp cc km kz d a b s
  | .kand d a b => Sys2Proof.Machine.execKand d a b s
  | .kor d a b => Sys2Proof.Machine.execKor d a b s
  | .kxor d a b => Sys2Proof.Machine.execKxor d a b s
  | .kandn d a b => Sys2Proof.Machine.execKandn d a b s
  | .knot d a => Sys2Proof.Machine.execKnot d a s
  | .kmov d a => Sys2Proof.Machine.execKmov d a s
  | .kpop d a => Sys2Proof.Machine.execKpop d a s
  | .kfirst d a => Sys2Proof.Machine.execKfirst d a s
  | .kset d a => Sys2Proof.Machine.execKset d a s
  | .vli km kz d a imm => Sys2Proof.Machine.execVli km kz d a imm s
  | .vbcast lane km kz d a => Sys2Proof.Machine.execVbcast lane km kz d a s
  | .viota km kz d => Sys2Proof.Machine.execViota km kz d s
  | .vperm km kz d a b => Sys2Proof.Machine.execVperm km kz d a b s
  | .vrotl lane km kz d a => Sys2Proof.Machine.execVrotl lane km kz d a s
  | .vext lane d a => Sys2Proof.Machine.execVext lane d a s
  | .vins lane d a => Sys2Proof.Machine.execVins lane d a s
  | .vmov km kz d a => Sys2Proof.Machine.execVmov km kz d a s
  | .linkw dir a b => Sys2Proof.Machine.execLinkw dir a b s
  | .linkwArm dir d => Sys2Proof.Machine.execLinkwArm dir d s
  | .linkWriteArrival dst src slot reg lk val => Sys2Proof.Machine.execLinkWriteArrival dst src slot reg lk val s
  | .vredsum ty km kz d a => Sys2Proof.Machine.execVredsum ty km kz d a s
  | .vredmin ty km kz d a => Sys2Proof.Machine.execVredmin ty km kz d a s
  | .vredmax ty km kz d a => Sys2Proof.Machine.execVredmax ty km kz d a s
  | .vredand ty km kz d a => Sys2Proof.Machine.execVredand ty km kz d a s
  | .vredor ty km kz d a => Sys2Proof.Machine.execVredor ty km kz d a s
  | .vredxor ty km kz d a => Sys2Proof.Machine.execVredxor ty km kz d a s
  | .vscan ty km kz d a => Sys2Proof.Machine.execVscan ty km kz d a s
  | .vscanx ty km kz d a => Sys2Proof.Machine.execVscanx ty km kz d a s
  | .vfadd ty rnd km kz d a b => Sys2Proof.Machine.execVfadd ty rnd km kz d a b s
  | .vfsub ty rnd km kz d a b => Sys2Proof.Machine.execVfsub ty rnd km kz d a b s
  | .vfmul ty rnd km kz d a b => Sys2Proof.Machine.execVfmul ty rnd km kz d a b s
  | .vfma ty rnd km kz d a b c => Sys2Proof.Machine.execVfma ty rnd km kz d a b c s
  | .vfms ty rnd km kz d a b c => Sys2Proof.Machine.execVfms ty rnd km kz d a b c s
  | .vfnma ty rnd km kz d a b c => Sys2Proof.Machine.execVfnma ty rnd km kz d a b c s
  | .vfmin ty km kz d a b => Sys2Proof.Machine.execVfmin ty km kz d a b s
  | .vfmax ty km kz d a b => Sys2Proof.Machine.execVfmax ty km kz d a b s
  | .vfabs ty km kz d a => Sys2Proof.Machine.execVfabs ty km kz d a s
  | .vfneg ty km kz d a => Sys2Proof.Machine.execVfneg ty km kz d a s
  | .vfcmp cc ty km kz d a b => Sys2Proof.Machine.execVfcmp cc ty km kz d a b s
  | .vfrcpa km kz d a => Sys2Proof.Machine.execVfrcpa km kz d a s
  | .vfrsqa km kz d a => Sys2Proof.Machine.execVfrsqa km kz d a s
  | .vfexp2a km kz d a => Sys2Proof.Machine.execVfexp2a km kz d a s
  | .vflog2a km kz d a => Sys2Proof.Machine.execVflog2a km kz d a s
  | .vfredsum ty rnd km kz d a => Sys2Proof.Machine.execVfredsum ty rnd km kz d a s
  | .vfredmin ty km kz d a => Sys2Proof.Machine.execVfredmin ty km kz d a s
  | .vfredmax ty km kz d a => Sys2Proof.Machine.execVfredmax ty km kz d a s
  | .vfscan ty rnd km kz d a => Sys2Proof.Machine.execVfscan ty rnd km kz d a s
  | .vfscanx ty rnd km kz d a => Sys2Proof.Machine.execVfscanx ty rnd km kz d a s
  | .vcvt dst src rnd km kz d a => Sys2Proof.Machine.execVcvt dst src rnd km kz d a s
  | .vcvtFp8 la dst src rnd km kz d a => Sys2Proof.Machine.execVcvtFp8 la dst src rnd km kz d a s
  | .vcvtsc la dst src rnd km kz d a b => Sys2Proof.Machine.execVcvtsc la dst src rnd km kz d a b s
  | .lld kind km kz d x base off => Sys2Proof.Machine.execLld kind km kz d x base off s
  | .lst kind km d x base off => Sys2Proof.Machine.execLst kind km d x base off s
  | .lldx kind km kz d x base off => Sys2Proof.Machine.execLldx kind km kz d x base off s
  | .lstx kind km d x base off => Sys2Proof.Machine.execLstx kind km d x base off s
  | .ald kind d base off => Sys2Proof.Machine.execAld kind d base off s
  | .ast kind d base off => Sys2Proof.Machine.execAst kind d base off s
  | .ltag km kz d x base off => Sys2Proof.Machine.execLtag km kz d x base off s
  | .stag km d x base off => Sys2Proof.Machine.execStag km d x base off s
  | .lpeek km kz d x base off => Sys2Proof.Machine.execLpeek km kz d x base off s
  | .rgnset a b => Sys2Proof.Machine.execRgnset a b s
  | .tbld a b => Sys2Proof.Machine.execTbld a b s
  | .tbsw a => Sys2Proof.Machine.execTbsw a s
  | .tableFlip h mask => Sys2Proof.Machine.execTableFlip h mask s
  | .tbrd d b => Sys2Proof.Machine.execTbrd d b s
  | .remoteAccess acc => Sys2Proof.Machine.execRemoteAccess acc s
  | .windowStoreRefused acc cause sub => Sys2Proof.Machine.execWindowStoreRefused acc cause sub s
  | .gld la km kz d x base off => Sys2Proof.Machine.execGld la km kz d x base off s
  | .gldx la km kz d x base off => Sys2Proof.Machine.execGldx la km kz d x base off s
  | .gst km d x base off => Sys2Proof.Machine.execGst km d x base off s
  | .gstx km d x base off => Sys2Proof.Machine.execGstx km d x base off s
  | .gpf km x base off => Sys2Proof.Machine.execGpf km x base off s
  | .ginv km x base off => Sys2Proof.Machine.execGinv km x base off s
  | .homeRead h n op idx pa => Sys2Proof.Machine.execHomeRead h n op idx pa s
  | .resultLanding h n op => Sys2Proof.Machine.execResultLanding h n op s
  | .deferredFault h n => Sys2Proof.Machine.execDeferredFault h n s
  | .groupPhaseOne g q => Sys2Proof.Machine.execGroupPhaseOne g q s
  | .phaseOneAck g q => Sys2Proof.Machine.execPhaseOneAck g q s
  | .groupRelease g q => Sys2Proof.Machine.execGroupRelease g q s
  | .lease la cls d base off => Sys2Proof.Machine.execLease la cls d base off s
  | .leaseRequestArrival r => Sys2Proof.Machine.execLeaseRequestArrival r s
  | .leaseRetry r => Sys2Proof.Machine.execLeaseRetry r s
  | .leaseGrant r data => Sys2Proof.Machine.execLeaseGrant r data s
  | .leaseExpiry h n va => Sys2Proof.Machine.execLeaseExpiry h n va s
  | .breakNotice r => Sys2Proof.Machine.execBreakNotice r s
  | .sld km kz d x base off => Sys2Proof.Machine.execSld km kz d x base off s
  | .sst km d x base off => Sys2Proof.Machine.execSst km d x base off s
  | .release d a => Sys2Proof.Machine.execRelease d a s
  | .lstat d a => Sys2Proof.Machine.execLstat d a s
  | .amo la op w64 d x base off => Sys2Proof.Machine.execAmo la op w64 d x base off s
  | .amoGrant r data => Sys2Proof.Machine.execAmoGrant r data s
  | .fence sem scope => Sys2Proof.Machine.execFence sem scope s
  | .commit => Sys2Proof.Machine.execCommit s
  | .isync => Sys2Proof.Machine.execIsync s
  | .bini bar a => Sys2Proof.Machine.execBini bar a s
  | .barr bar a => Sys2Proof.Machine.execBarr bar a s
  | .barrierArrival t b h n => Sys2Proof.Machine.execBarrierArrival t b h n s
  | .barrierAck h n sub => Sys2Proof.Machine.execBarrierAck h n sub s
  | .bwait bar d a => Sys2Proof.Machine.execBwait bar d a s
  | .barw bar d => Sys2Proof.Machine.execBarw bar d s
  | .bexp bar a => Sys2Proof.Machine.execBexp bar a s
  | .bphs bar part d => Sys2Proof.Machine.execBphs bar part d s
  | .bclr bar => Sys2Proof.Machine.execBclr bar s
  | .engineReport h cq seq bytes => Sys2Proof.Machine.execEngineReport h cq seq bytes s
  | .odecl obj a => Sys2Proof.Machine.execOdecl obj a s
  | .oseal obj => Sys2Proof.Machine.execOseal obj s
  | .ocopy obj a b c => Sys2Proof.Machine.execOcopy obj a b c s
  | .oreopen obj => Sys2Proof.Machine.execOreopen obj s
  | .ofree obj => Sys2Proof.Machine.execOfree obj s
  | .ostat obj d => Sys2Proof.Machine.execOstat obj d s
  | .tqcfg a => Sys2Proof.Machine.execTqcfg a s
  | .tqpush a b => Sys2Proof.Machine.execTqpush a b s
  | .tqpushv km a b c => Sys2Proof.Machine.execTqpushv km a b c s
  | .taskPushArrival m => Sys2Proof.Machine.execTaskPushArrival m s
  | .spill h => Sys2Proof.Machine.execSpill h s
  | .ringRefill h => Sys2Proof.Machine.execRingRefill h s
  | .ringAccessRetry h => Sys2Proof.Machine.execRingAccessRetry h s
  | .dispatch h => Sys2Proof.Machine.execDispatch h s
  | .tend a => Sys2Proof.Machine.execTend a s
  | .tabort a => Sys2Proof.Machine.execTabort a s
  | .tqstat d a => Sys2Proof.Machine.execTqstat d a s
  | .arbiterRound lk => Sys2Proof.Machine.execArbiterRound lk s
  | .progressAbort h => Sys2Proof.Machine.execProgressAbort h s
  | .strandedRequeue h => Sys2Proof.Machine.execStrandedRequeue h s
  | .mbsend a b => Sys2Proof.Machine.execMbsend a b s
  | .mbrecv d a => Sys2Proof.Machine.execMbrecv d a s
  | .mbpoll d a => Sys2Proof.Machine.execMbpoll d a s
  | .messageArrival m => Sys2Proof.Machine.execMessageArrival m s
  | .messageRetry m => Sys2Proof.Machine.execMessageRetry m s
  | .split km d n imm => Sys2Proof.Machine.execSplit km d n imm s
  | .refill d imm => Sys2Proof.Machine.execRefill d imm s
  | .join a => Sys2Proof.Machine.execJoin a s
  | .lanes d => Sys2Proof.Machine.execLanes d s
  | .mqpush la d a => Sys2Proof.Machine.execMqpush la d a s
  | .cqpush la d a => Sys2Proof.Machine.execCqpush la d a s
  | .qstat d a => Sys2Proof.Machine.execQstat d a s
  | .tnop hd => Sys2Proof.Machine.execTnop hd s
  | .fmtSet hd ctx => Sys2Proof.Machine.execFmtSet hd ctx s
  | .accZero hd acc cnt => Sys2Proof.Machine.execAccZero hd acc cnt s
  | .accLoad hd x => Sys2Proof.Machine.execAccLoad hd x s
  | .accStore hd x => Sys2Proof.Machine.execAccStore hd x s
  | .accRel hd acc cnt => Sys2Proof.Machine.execAccRel hd acc cnt s
  | .mm hd x => Sys2Proof.Machine.execMm hd x s
  | .sig hd sbar => Sys2Proof.Machine.execSig hd sbar s
  | .twait hd wbar wph => Sys2Proof.Machine.execTwait hd wbar wph s
  | .tfence hd => Sys2Proof.Machine.execTfence hd s
  | .cpCopy hd x => Sys2Proof.Machine.execCpCopy hd x s
  | .cpGather hd x => Sys2Proof.Machine.execCpGather hd x s
  | .cpScatter hd x => Sys2Proof.Machine.execCpScatter hd x s
  | .cpFill hd x => Sys2Proof.Machine.execCpFill hd x s
  | .cpSpred hd x => Sys2Proof.Machine.execCpSpred hd x s
  | .spredMerge rt u => Sys2Proof.Machine.execSpredMerge rt u s
  | .spredApply u => Sys2Proof.Machine.execSpredApply u s
  | .engineWordLanding w => Sys2Proof.Machine.execEngineWordLanding w s
  | .engineLandingRetry w => Sys2Proof.Machine.execEngineLandingRetry w s
  | .kvImp hd x => Sys2Proof.Machine.execKvImp hd x s
  | .kvExp hd x => Sys2Proof.Machine.execKvExp hd x s
  | .kvlook la d a b => Sys2Proof.Machine.execKvlook la d a b s
  | .kvins d a b => Sys2Proof.Machine.execKvins d a b s
  | .kvapp d a b c => Sys2Proof.Machine.execKvapp d a b c s
  | .kvfree d a => Sys2Proof.Machine.execKvfree d a s
  | .kvpos a b => Sys2Proof.Machine.execKvpos a b s
  | .ldkr la km kz d base off => Sys2Proof.Machine.execLdkr la km kz d base off s
  | .rtab base off => Sys2Proof.Machine.execRtab base off s
  | .depotPop dep pool h n => Sys2Proof.Machine.execDepotPop dep pool h n s
  | .depotPush dep pool idx => Sys2Proof.Machine.execDepotPush dep pool idx s
  | .migr la live d a => Sys2Proof.Machine.execMigr la live d a s
  | .migrArrival h n t => Sys2Proof.Machine.execMigrArrival h n t s
  | .mfs sr d => Sys2Proof.Machine.execMfs sr d s
  | .mts sr a => Sys2Proof.Machine.execMts sr a s
  | .spawn d a b c => Sys2Proof.Machine.execSpawn d a b c s
  | .kill a => Sys2Proof.Machine.execKill a s
  | .trap a imm => Sys2Proof.Machine.execTrap a imm s
  | .brk => Sys2Proof.Machine.execBrk s
  | .eret a b c => Sys2Proof.Machine.execEret a b c s
  | .park => Sys2Proof.Machine.execPark s
  | .wake d a => Sys2Proof.Machine.execWake d a s
  | .plbinv a => Sys2Proof.Machine.execPlbinv a s
  | .tlbinv a b => Sys2Proof.Machine.execTlbinv a b s
  | .shootdownAck id h => Sys2Proof.Machine.execShootdownAck id h s
  | .profRd d a => Sys2Proof.Machine.execProfRd d a s
  | .profClr a => Sys2Proof.Machine.execProfClr a s
  | .profLease d a => Sys2Proof.Machine.execProfLease d a s
  | .profLeaseGrant t => Sys2Proof.Machine.execProfLeaseGrant t s
  | .seatAssign h => Sys2Proof.Machine.execSeatAssign h s
  | .granuleRefill h n g => Sys2Proof.Machine.execGranuleRefill h n g s
  | .launchRequest t req full sub => Sys2Proof.Machine.execLaunchRequest t req full sub s
  | .placement => Sys2Proof.Machine.execPlacement s
  | .launchLoad lk => Sys2Proof.Machine.execLaunchLoad lk s
  | .launchComplete lk => Sys2Proof.Machine.execLaunchComplete lk s
  | .terraceDescriptorWrite t w0 w1 => Sys2Proof.Machine.execTerraceDescriptorWrite t w0 w1 s
  | .switchRequest req => Sys2Proof.Machine.execSwitchRequest req s
  | .seatLapse h seat => Sys2Proof.Machine.execSeatLapse h seat s
  | .contextSave h => Sys2Proof.Machine.execContextSave h s
  | .contextRestore h => Sys2Proof.Machine.execContextRestore h s
  | .poolDescriptorWrite dep pool w0 w1 => Sys2Proof.Machine.execPoolDescriptorWrite dep pool w0 w1 s
  | .qpartWrite f v => Sys2Proof.Machine.execQpartWrite f v s
  | .qmewsWrite f v => Sys2Proof.Machine.execQmewsWrite f v s
  | .resWrite f v => Sys2Proof.Machine.execResWrite f v s
  | .hqRingWrite f len v => Sys2Proof.Machine.execHqRingWrite f len v s
  | .hqtailWrite f v => Sys2Proof.Machine.execHqtailWrite f v s
  | .slotcmdEret f b => Sys2Proof.Machine.execSlotcmdEret f b s
  | .slotcmdWake f b => Sys2Proof.Machine.execSlotcmdWake f b s
  | .slotcmdKill f b => Sys2Proof.Machine.execSlotcmdKill f b s
  | .hmsgctl f v => Sys2Proof.Machine.execHmsgctl f v s
  | .hostMemRead pa => Sys2Proof.Machine.execHostMemRead pa s
  | .hostMemWrite pa data mask => Sys2Proof.Machine.execHostMemWrite pa data mask s
  | .birsp pa dirty data => Sys2Proof.Machine.execBirsp pa dirty data s
  | .breakpointEntryWrite t e w0 w1 => Sys2Proof.Machine.execBreakpointEntryWrite t e w0 w1 s
  | .hold t => Sys2Proof.Machine.execHold t s
  | .debugRelease t => Sys2Proof.Machine.execDebugRelease t s
  | .stop t h n => Sys2Proof.Machine.execStop t h n s
  | .cont t h n => Sys2Proof.Machine.execCont t h n s
  | .step t h n => Sys2Proof.Machine.execStep t h n s
  | .freeze t h => Sys2Proof.Machine.execFreeze t h s
  | .thaw t h => Sys2Proof.Machine.execThaw t h s
  | .dump t h => Sys2Proof.Machine.execDump t h s
  | .traceRingWrite t len v => Sys2Proof.Machine.execTraceRingWrite t len v s
  | .portRingWrite p len v => Sys2Proof.Machine.execPortRingWrite p len v s
  | .portTailWrite p v => Sys2Proof.Machine.execPortTailWrite p v s
  | .portTransfer p => Sys2Proof.Machine.execPortTransfer p s
  | .portReduceI32 p => Sys2Proof.Machine.execPortReduceI32 p s
  | .portReduceF32 p => Sys2Proof.Machine.execPortReduceF32 p s
  | .portMessage p => Sys2Proof.Machine.execPortMessage p s
  | .partnerTransferApply p => Sys2Proof.Machine.execPartnerTransferApply p s
  | .flitReceive p flit => Sys2Proof.Machine.execFlitReceive p flit s
  | .portRetrain p ok narrow => Sys2Proof.Machine.execPortRetrain p ok narrow s
  | .bridgeRetrain b lanes spares => Sys2Proof.Machine.execBridgeRetrain b lanes spares s
  | .bridgeLost b => Sys2Proof.Machine.execBridgeLost b s
  | .correctableError d k => Sys2Proof.Machine.execCorrectableError d k s
  | .uncorrectableError e => Sys2Proof.Machine.execUncorrectableError e s
  | .patrolScrub pa bad => Sys2Proof.Machine.execPatrolScrub pa bad s
  | .powerOn => Sys2Proof.Machine.execPowerOn s
  | .powerStages ok => Sys2Proof.Machine.execPowerStages ok s
  | .bridgeTraining ok => Sys2Proof.Machine.execBridgeTraining ok s
  | .hbmTraining ok => Sys2Proof.Machine.execHbmTraining ok s
  | .extanNegotiation up narrow => Sys2Proof.Machine.execExtanNegotiation up narrow s
  | .cxlTraining ok => Sys2Proof.Machine.execCxlTraining ok s
  | .firmwareVerify images => Sys2Proof.Machine.execFirmwareVerify images s
  | .ready => Sys2Proof.Machine.execReady s
  | .getDigests => Sys2Proof.Machine.execGetDigests s
  | .getCertificate => Sys2Proof.Machine.execGetCertificate s
  | .challenge nonce => Sys2Proof.Machine.execChallenge nonce s
  | .getMeasurements blk nonce => Sys2Proof.Machine.execGetMeasurements blk nonce s
  | .installKey slot key => Sys2Proof.Machine.execInstallKey slot key s
  | .errcnt d => Sys2Proof.Machine.execErrcnt d s
  | .errlog => Sys2Proof.Machine.execErrlog s
  | .remapget d => Sys2Proof.Machine.execRemapget d s
  | .remapset d y skip => Sys2Proof.Machine.execRemapset d y skip s
  | .logset f base en => Sys2Proof.Machine.execLogset f base en s
  | .ctxout t area key => Sys2Proof.Machine.execCtxout t area key s
  | .ctxin t area key => Sys2Proof.Machine.execCtxin t area key s
  | .poolget dep pool addr => Sys2Proof.Machine.execPoolget dep pool addr s
  | .poolset dep pool addr => Sys2Proof.Machine.execPoolset dep pool addr s
  | .registerWrite f off v => Sys2Proof.Machine.execRegisterWrite f off v s
  | .remoteAccessReply h n op idx r => Sys2Proof.Machine.execRemoteAccessReply h n op idx r s
  | .slotCommandArrival c => Sys2Proof.Machine.execSlotCommandArrival c s
  | .tableWalkDone d va => Sys2Proof.Machine.execTableWalkDone d va s
  | .sealedLineDrop h src n lo len => Sys2Proof.Machine.execSealedLineDrop h src n lo len s
  | .headerHomeTest t => Sys2Proof.Machine.execHeaderHomeTest t s
  | .bridgeFlitReceive b flit => Sys2Proof.Machine.execBridgeFlitReceive b flit s
  | .retainedHoldWithdrawal lk => Sys2Proof.Machine.execRetainedHoldWithdrawal lk s

end Sys2Proof.Machine
end

