-- ==== Sys2Proof/Machine/Tick.lean ====
section
/-! DEFINITION. The passing of a cycle: what falls due, and in which order it acts (R21, R37, R205, R344; logs 3 and 5). -/

namespace Sys2Proof.Machine

/-- Events of one core that fall due in a cycle. Each meaning acts only where its own conditions hold. -/
def Core.events (c : Core) (h clock : Nat) : List Ev :=
  (c.slots.ents.flatMap (fun e =>
    ((e.2.leases.filter (fun r => r.granted && !r.broken && decide (r.expiry ≤ clock))).map (fun r => Ev.leaseExpiry h e.1 r.va)) ++
    (match e.2.st with
     | .ready | .waiting _ => if e.2.defer.isEmpty then [] else [Ev.deferredFault h e.1]
     | _ => []))) ++
  (if c.tq.lk.isSome then
     [Ev.spill h, Ev.ringRefill h, Ev.dispatch h] ++
     (if c.tq.ordered then [Ev.progressAbort h] else [])
   else [])

/-- Events of launches, ports and switches that fall due in a cycle. -/
def Dev.launchEvents (d : Dev) : List Ev :=
  (d.launches.ents.flatMap (fun e =>
    match e.2.st with
    | .pending => [Ev.placement]
    | .placed => [Ev.launchLoad e.1]
    | .resident => (if e.2.ordered == some true && d.clock % 256 == 0 then [Ev.arbiterRound e.1] else []) ++ [Ev.launchComplete e.1]
    | .retained => [])).dedup ++
  (d.ports.ents.flatMap (fun p =>
    (if p.2.head != p.2.tail && p.2.stat.isNone then [Ev.portTransfer p.1, Ev.portReduceI32 p.1, Ev.portReduceF32 p.1, Ev.portMessage p.1] else []) ++
    (if p.2.inDone.isEmpty then [] else [Ev.partnerTransferApply p.1]))) ++
  (match d.switch with
   | some w => w.toSave.map Ev.contextSave ++ w.toRestore.map Ev.contextRestore
   | none => [])

/-- Waits in a wake class count once for each slot and cycle (R344 group 1). -/
def Core.countWaits (c : Core) : Core :=
  let ws := (c.parked.filterMap (fun p => match p.src with | .own n _ _ => some (p.cls, n) | _ => none)).dedup
  ws.foldl (fun c w => c.bump 1 w.1 1) c

/-- Slots that wait until their task is lowest become READY when it is (R207). -/
def Dev.wakeLowest (d : Dev) : Dev :=
  let low (lk : Nat) (s : Slot) : Bool := s.st == .waiting .lowest && (s.tasks.ents.all (fun e => d.isLowest lk e.2))
  if d.cores.ents.any (fun c => c.2.slots.ents.any (fun e => e.2.st == .waiting .lowest)) then
    { d with cores := ⟨d.cores.ents.map (fun c => (c.1, c.2.wake d.clock (fun _ s _ => low s.lk s)))⟩ }
  else d

/-- The next cycle: %clock advances once bring-up has ended (R35, R357), messages that are due arrive in the order sent, then
what falls due acts, then the engines, then each core's seat. -/
def Dev.tick (d : Dev) : Dev :=
  if !d.up then d else
  let d := d.wakeLowest
  let d : Dev := { d with clock := d.clock + 1, cores := ⟨d.cores.ents.map (fun e => (e.1, e.2.countWaits))⟩
                          ports := ⟨d.ports.ents.map (fun p => (p.1, p.2.ageOne (d.clock + 1)))⟩ }
  let d := d.countFlits
  let due := d.net.filter (fun f => decide (f.due ≤ d.clock))
  let courts := (d.cores.ents.filterMap (fun e => if e.2.mq.q.isEmpty then none else some (courtOf e.1))).dedup
  let copies := d.cores.ents.filterMap (fun e => if e.2.cq.q.isEmpty then none else some e.1)
  { d with
    net := d.net.filter (fun f => !decide (f.due ≤ d.clock))
    agenda := due.map (fun f => Act.ev f.e) ++
      (d.cores.ents.flatMap (fun e => (e.2.events e.1 d.clock).map Act.ev)) ++
      d.launchEvents.map Act.ev ++ courts.map Act.court ++ copies.map Act.copy ++
      d.cores.keys.map Act.turn ++
      (d.cores.ents.filter (fun e => e.2.tq.lk.isSome && e.2.tq.ordered)).map (fun e => Act.ev (.strandedRequeue e.1)) ++ (match d.switch with
        | some w => w.toSave.map (fun h => Act.ev (.seatLapse h (d.clock % 16)))
        | none => []) }

end Sys2Proof.Machine
end

