-- ==== Sys2Proof/Machine/Step.lean ====
section
/-! DEFINITION. One step of the machine: the next act of the present cycle, or the passing to the next cycle (log 3); and
placing an instruction where the next step runs it. -/

namespace Sys2Proof.Machine

/-- An event of the machine has the meaning of its row. -/
def runEv (e : Ev) (s : State) : Host.Outcome State Fault Refusal :=
  match e with
  -- events begin
  | .linkWriteArrival dst src slot reg lk val => Sys2Proof.Machine.execLinkWriteArrival dst src slot reg lk val s
  | .tableFlip h mask => Sys2Proof.Machine.execTableFlip h mask s
  | .remoteAccess acc => Sys2Proof.Machine.execRemoteAccess acc s
  | .windowStoreRefused acc cause sub => Sys2Proof.Machine.execWindowStoreRefused acc cause sub s
  | .homeRead h n op idx pa => Sys2Proof.Machine.execHomeRead h n op idx pa s
  | .resultLanding h n op => Sys2Proof.Machine.execResultLanding h n op s
  | .deferredFault h n => Sys2Proof.Machine.execDeferredFault h n s
  | .groupPhaseOne g q => Sys2Proof.Machine.execGroupPhaseOne g q s
  | .phaseOneAck g q => Sys2Proof.Machine.execPhaseOneAck g q s
  | .groupRelease g q => Sys2Proof.Machine.execGroupRelease g q s
  | .leaseRequestArrival r => Sys2Proof.Machine.execLeaseRequestArrival r s
  | .leaseRetry r => Sys2Proof.Machine.execLeaseRetry r s
  | .leaseGrant r data => Sys2Proof.Machine.execLeaseGrant r data s
  | .leaseExpiry h n va => Sys2Proof.Machine.execLeaseExpiry h n va s
  | .breakNotice r => Sys2Proof.Machine.execBreakNotice r s
  | .amoGrant r data => Sys2Proof.Machine.execAmoGrant r data s
  | .barrierArrival t b h n => Sys2Proof.Machine.execBarrierArrival t b h n s
  | .barrierAck h n sub => Sys2Proof.Machine.execBarrierAck h n sub s
  | .engineReport h cq seq bytes => Sys2Proof.Machine.execEngineReport h cq seq bytes s
  | .taskPushArrival m => Sys2Proof.Machine.execTaskPushArrival m s
  | .spill h => Sys2Proof.Machine.execSpill h s
  | .ringRefill h => Sys2Proof.Machine.execRingRefill h s
  | .ringAccessRetry h => Sys2Proof.Machine.execRingAccessRetry h s
  | .dispatch h => Sys2Proof.Machine.execDispatch h s
  | .arbiterRound lk => Sys2Proof.Machine.execArbiterRound lk s
  | .progressAbort h => Sys2Proof.Machine.execProgressAbort h s
  | .strandedRequeue h => Sys2Proof.Machine.execStrandedRequeue h s
  | .messageArrival m => Sys2Proof.Machine.execMessageArrival m s
  | .messageRetry m => Sys2Proof.Machine.execMessageRetry m s
  | .spredMerge rt u => Sys2Proof.Machine.execSpredMerge rt u s
  | .spredApply u => Sys2Proof.Machine.execSpredApply u s
  | .engineWordLanding w => Sys2Proof.Machine.execEngineWordLanding w s
  | .engineLandingRetry w => Sys2Proof.Machine.execEngineLandingRetry w s
  | .depotPop dep pool h n => Sys2Proof.Machine.execDepotPop dep pool h n s
  | .depotPush dep pool idx => Sys2Proof.Machine.execDepotPush dep pool idx s
  | .migrArrival h n t => Sys2Proof.Machine.execMigrArrival h n t s
  | .shootdownAck id h => Sys2Proof.Machine.execShootdownAck id h s
  | .profLeaseGrant t => Sys2Proof.Machine.execProfLeaseGrant t s
  | .seatAssign h => Sys2Proof.Machine.execSeatAssign h s
  | .granuleRefill h n g => Sys2Proof.Machine.execGranuleRefill h n g s
  | .launchRequest t req full sub => Sys2Proof.Machine.execLaunchRequest t req full sub s
  | .placement => Sys2Proof.Machine.execPlacement s
  | .launchLoad lk => Sys2Proof.Machine.execLaunchLoad lk s
  | .launchComplete lk => Sys2Proof.Machine.execLaunchComplete lk s
  | .seatLapse h seat => Sys2Proof.Machine.execSeatLapse h seat s
  | .contextSave h => Sys2Proof.Machine.execContextSave h s
  | .contextRestore h => Sys2Proof.Machine.execContextRestore h s
  | .portTransfer p => Sys2Proof.Machine.execPortTransfer p s
  | .portReduceI32 p => Sys2Proof.Machine.execPortReduceI32 p s
  | .portReduceF32 p => Sys2Proof.Machine.execPortReduceF32 p s
  | .portMessage p => Sys2Proof.Machine.execPortMessage p s
  | .partnerTransferApply p => Sys2Proof.Machine.execPartnerTransferApply p s
  | .remoteAccessReply h n op idx r => Sys2Proof.Machine.execRemoteAccessReply h n op idx r s
  | .slotCommandArrival c => Sys2Proof.Machine.execSlotCommandArrival c s
  | .tableWalkDone d va => Sys2Proof.Machine.execTableWalkDone d va s
  | .sealedLineDrop h src n lo len => Sys2Proof.Machine.execSealedLineDrop h src n lo len s
  | .headerHomeTest t => Sys2Proof.Machine.execHeaderHomeTest t s
  -- events end

/-- What a seat's turn comes to. -/
def runPlan (m : Memory) (p : Plan) : Host.Outcome State Fault Refusal :=
  match p with
  | .stay d => .next ⟨m, d⟩
  | .run d i => exec i ⟨m, d⟩

/-- One act. -/
def runAct (a : Act) (s : State) : Host.Outcome State Fault Refusal :=
  match a with
  | .turn h => runPlan s.mem (s.dev.turn s.mem h)
  | .court c => runPlan s.mem (s.dev.courtStep c)
  | .copy h => runPlan s.mem (s.dev.copyStep h)
  | .ev e => runEv e s
  | .req i => exec i s

/-- One step. -/
def step (s : State) : Host.Outcome State Fault Refusal :=
  match s.dev.agenda with
  | [] => .next ⟨s.mem, s.dev.tick⟩
  | a :: rest => runAct a ⟨s.mem, { s.dev with agenda := rest, cur := .none }⟩

/-- A thread word placed before slot 0 of core 0: the slot sits in the seat whose turn it is and has fetched the word. -/
def Dev.placeWord (d : Dev) (w : W64) : Dev :=
  { d.updSlot 0 0 (fun s => { s with st := .seated (d.clock % 16), stream := [(s.pc.toNat, w)] }) with agenda := [.turn 0] }

/-- A tile command at the head of the queue of core 0 that decodes it, with nothing that holds the queue back. -/
def Dev.placeCommand (d : Dev) (img : V512) : Dev :=
  let cq := match decodeTile false img with | .ok _ => false | .bad _ => true
  let bar := (img.extractLsb' 239 9).toNat
  let c : Cmd := ⟨1, img, none, bar, 0, 0, 0#64, 0#48, false, false, 0, false, 0, d.imgCount 0 cq 0 img, [], .empty, [], [], .empty, .empty, [], 0#64, 0, none⟩
  { d.updCore 0 (fun k => k.updEq cq (fun e => { e with frz := false, q := [c] })) with agenda := [if cq then .copy 0 else .court 0] }

/-- An instruction stored where the next step runs it (log 18): a thread word before slot 0 of core 0, a tile command at the
head of the queue of core 0 that its TOP names. -/
def State.withFetchWord (s : State) (nbits w : Nat) : State :=
  if nbits ≤ 64 then ⟨s.mem, s.dev.placeWord (BitVec.ofNat 64 w)⟩ else ⟨s.mem, s.dev.placeCommand (BitVec.ofNat 512 w)⟩

end Sys2Proof.Machine
end

