-- ==== Sys2Proof/Machine/HostReads.lean ====
section
/-! DEFINITION. What a host read of a register returns (R349 Table 2 with R243, R275, R328, R332, R334, R336, R338, R350 to R352, R357,
R374). No row of the opcode table reads a register; these functions say what the host sees of the state. -/

namespace Sys2Proof.Machine

/-- RECLAIM: the virtual function with the greatest RES − GUAR above zero, the lowest of those that tie; 0xFF when there is none (R328). -/
def Dev.reclaim (d : Dev) : Nat :=
  let excess (v : Nat) : Nat := (d.func v).res - (d.func v).guar
  let most := (List.range 32).foldl (fun k v => max k (excess v)) 0
  if most = 0 then 0xFF else ((List.range 32).find? (fun v => excess v == most)).getD 0xFF

/-- OCC(q, f): the valid lines that a function owns in a quay (R336). -/
def Dev.occ (d : Dev) (q f : Nat) : Nat :=
  ((List.range 4096).map (fun set => ((d.quayLines (q * 4096 + set)).filter (fun l => l.owner == f)).length)).sum

/-- The words of a pool descriptor (R243 Table 2). -/
def Pool.word0 (p : Pool) : W64 := p.base ||| BitVec.ofNat 64 (p.hc.toNat * 2 ^ 6 + p.fmt.toNat * 2 ^ 3 + p.v.toNat)
def Pool.word1 (p : Pool) : W64 := BitVec.ofNat 64 (p.terr * 2 ^ 58 + p.free * 2 ^ 32 + p.count)

/-- A register of a terrace's debug block, by its offset in the block (R352 Table 2c). Every command completes at once (R339). -/
def Dbg.reg (b : Dbg) (off : Nat) : W64 :=
  if off = 0x00 then (if b.hold then 1#64 else 0#64)
  else if off = 0x08 then b.dumpBase
  else if off = 0x10 then b.trBase
  else if off = 0x18 then BitVec.ofNat 64 b.trLen
  else if off = 0x1C then b.trDrop.setWidth 64
  else if off = 0x20 then b.trHead.setWidth 64
  else if off = 0x24 then b.trTail.setWidth 64
  else if 0x80 ≤ off ∧ off < 0x100 ∧ off % 8 = 0 then
    let e := b.bp.get (0#64, 0#64) ((off - 0x80) / 16)
    if off % 16 = 0 then e.1 else e.2
  else 0#64

/-- A register of an Extan port, by its offset in the block (R351 Table 2b). -/
def Port.reg (p : Port) (off : Nat) : W64 :=
  if off = 0x00 then p.rbase
  else if off = 0x08 then BitVec.ofNat 64 p.rlen
  else if off = 0x0C then p.state.setWidth 64
  else if off = 0x10 then p.head.setWidth 64
  else if off = 0x14 then p.tail.setWidth 64
  else if off = 0x18 then p.rxbase
  else if off = 0x20 then p.rxlen
  else if off = 0x28 then p.replay
  else if off = 0x30 then p.retrain.setWidth 64
  else 0#64

/-- A register of a virtual function. -/
def Dev.regVf (d : Dev) (f off : Nat) : W64 :=
  let x := d.func f
  if off = 0x2000 then x.hqBase
  else if off = 0x2008 then BitVec.ofNat 64 x.hqLen
  else if off = 0x2010 then x.hqHead.setWidth 64
  else if off = 0x2014 then x.hqTail.setWidth 64
  else if 0x2040 ≤ off ∧ off < 0x2060 ∧ off % 8 = 0 then x.slotcmd.extractLsb' (8 * (off - 0x2040)) 64
  else if off = 0x2080 then BitVec.ofNat 64 (x.busy.toNat + 2 * x.err.toNat)
  else if 0x20C0 ≤ off ∧ off < 0x2100 ∧ off % 8 = 0 then x.hmsg.extractLsb' (8 * (off - 0x20C0)) 64
  else if 0x3000 ≤ off ∧ off < 0x4000 then ((d.dbgTerr f).map (fun t => (d.terrace t).dbg.reg (off - 0x3000))).getD 0#64
  else 0#64

/-- A register of the physical function. The completion status of a switch reads at 0x2000 (log 50). -/
def Dev.regPf (d : Dev) (off : Nat) : W64 :=
  if off < 0x200 ∧ off % 8 = 0 then (if off % 16 = 0 then (d.terrace (off / 16)).w0 else (d.terrace (off / 16)).w1)
  else if 0x200 ≤ off ∧ off < 0x300 ∧ off % 8 = 0 then (d.terrace ((off - 0x200) / 8)).dtBase
  else if off = 0x300 then d.troot
  else if 0x400 ≤ off ∧ off < 0x400 + 576 then (d.court (off - 0x400)).group.setWidth 64
  else if 0x800 ≤ off ∧ off < 0x800 + 16 * 33 ∧ off % 8 = 0 then
    (if off % 16 = 0 then (d.func ((off - 0x800) / 16)).qpart else (d.func ((off - 0x800) / 16)).qmews)
  else if 0x1000 ≤ off ∧ off < 0x1200 ∧ off % 4 = 0 then
    let x := d.func ((off - 0x1000) / 16)
    if off % 16 = 0 then BitVec.ofNat 64 x.guar else if off % 16 = 4 then BitVec.ofNat 64 x.burst
    else if off % 16 = 8 then BitVec.ofNat 64 x.res else 0#64
  else if off = 0x1200 then BitVec.ofNat 64 d.reclaim
  else if 0x1400 ≤ off ∧ off < 0x1400 + 256 * 9 ∧ off % 8 = 0 then
    let p := d.pool ((off - 0x1400) / 256) ((off - 0x1400) % 256 / 16)
    if off % 16 = 0 then p.word0 else p.word1
  else if off = 0x2000 then BitVec.ofNat 64 d.switchDone
  else if 0x2100 ≤ off ∧ off < 0x2400 then (d.ports.get .init ((off - 0x2100) / 64)).reg ((off - 0x2100) % 64)
  else if off = 0x3000 then BitVec.ofNat 64 (d.stage + 256 * d.failure)
  else if 0x10000 ≤ off ∧ off < 0x30000 ∧ off % 4 = 0 then BitVec.ofNat 64 (d.occ ((off - 0x10000) / 256) ((off - 0x10000) % 256 / 4))
  else 0#64

/-- What a read of the register at an offset of a function's space returns: 0 where the tables name none (R349). -/
def Dev.hostReg (d : Dev) (f off : Nat) : W64 := if f = 32 then d.regPf off else if f < 32 then d.regVf f off else 0#64

end Sys2Proof.Machine
end

