-- ==== Sys2Proof/Safety.lean ====
section
/-! DEFINITION. The terms in which claims about the machine are made: a state whose slot may issue an instruction, what an
instruction leaves alone, the canonical form of memory, and a step that goes on. -/

namespace Sys2Proof.Machine

/-- The slot that presents an instruction, with what it works on. -/
def State.ctx (s : State) (h n : Nat) (w : W64) : Ctx := ⟨s.mem, h, n, w, s.dev.slot h n, s.dev⟩

/-- Slot n of core h presents the word w, and an instruction that names what u says may issue: it passes the checks of R64 (PRIV,
WINDOW, LAVIOL), no register it names is pending, awaiting a link write or unrestored (R24), a long-latency form finds fewer than 16
outstanding (R28), and no register it reads is poisoned (R362). No STEP of a debugger is pending (R340: with one, the slot stops again
after the instruction). -/
structure State.issues (s : State) (h n : Nat) (w : W64) (u : Use) : Prop where
  cur : s.dev.cur = .slot h n w
  free : (s.ctx h n w).gate u = none
  step : (s.dev.slot h n).stepReq = false

/-- A slot without its PC, its three register files, %tsw, its state and what serves one presentation. What remains are the special
registers and everything an instruction changes only where a rule says so. -/
def Slot.rest (s : Slot) : Slot := { s with
  pc := 0#64, aregs := .empty, vregs := .empty, kregs := .empty, tsw := 0#32, st := .free, readyAt := 0, yielded := false, wins := []
  residue := [], pushed := [], closed := false, resPh := false, reply := .idle, bpPass := none, stream := [], stepReq := false }

/-- A core without its slots, those saved there among them, and its list of poisoned register-file entries. -/
def Core.bare (c : Core) : Core := { c with slots := .empty, away := .empty, rfPoison := [] }

/-- The device without its cores. -/
def Dev.bare (d : Dev) : Dev := { d with cores := .empty }

/-- From s to t nothing changed but slot n of core h: every byte of memory reads as before, and every other slot, every core's
local store, tables, barriers, objects, queues and caches, and every other part of the device. -/
structure OnlySlot (s t : State) (h n : Nat) : Prop where
  mem : ∀ a, t.mem.read a = s.mem.read a
  slots : ∀ h' n', ¬(h' = h ∧ n' = n) → t.dev.slot h' n' = s.dev.slot h' n'
  cores : ∀ k, (t.dev.core k).bare = (s.dev.core k).bare
  dev : t.dev.bare = s.dev.bare

/-- The register files, %tsw and the rest of a slot are as before, but for the registers named. -/
structure KeptRegs (a b : Slot) (as vs ks : List Nat) : Prop where
  aregs : ∀ j, j ∉ as → b.A j = a.A j
  vregs : ∀ j, j ∉ vs → b.V j = a.V j
  kregs : ∀ j, j ∉ ks → b.K j = a.K j
  tsw : b.tsw = a.tsw
  rest : b.rest = a.rest

/-- The instruction completes wherever it may issue, changes nothing but its slot and there nothing but the registers named, and leaves
the slot as `post` says. -/
def CompletesBut (i : Instr) (u : Use) (as vs ks : List Nat) (post : Slot → Slot → Prop) : Prop :=
  ∀ s h n w, s.issues h n w u → ∃ t, exec i s = .next t ∧ OnlySlot s t h n ∧
    KeptRegs (s.dev.slot h n) (t.dev.slot h n) as vs ks ∧ post (s.dev.slot h n) (t.dev.slot h n)

/-- It writes a-register d (a0 discards the write, R31) with a value of the slot before it, and goes on at PC + 8. -/
def WritesA (i : Instr) (u : Use) (d : AReg) (val : Slot → W64) : Prop :=
  CompletesBut i u [d.toNat] [] [] (fun a b => b.pc = a.pc + 8#64 ∧ b.A d.toNat = if d = 0#4 then 0#64 else val a)

/-- It writes mask register d (k0 discards the write, R31), and goes on at PC + 8. -/
def WritesK (i : Instr) (u : Use) (d : KReg) (val : Slot → BitVec 16) : Prop :=
  CompletesBut i u [] [] [d.toNat] (fun a b => b.pc = a.pc + 8#64 ∧ b.K d.toNat = if d = 0#3 then 0xFFFF#16 else val a)

/-- It writes the active lanes of vector register d, lane l with a value of the slot before it; the other lanes keep their values
(KZ = 0) or become zero (KZ = 1, R15); and it goes on at PC + 8. -/
def WritesV (i : Instr) (u : Use) (km : KReg) (kz : Bool) (d : VReg) (val : Slot → Nat → W32) : Prop :=
  CompletesBut i u [] [d.toNat] [] (fun a b => b.pc = a.pc + 8#64 ∧ ∀ l, l < 16 →
    lane (b.V d.toNat) l = if (a.K km.toNat).getLsbD l then val a l else if kz then 0#32 else lane (a.V d.toNat) l)

/-- A form writes the bits of kD that its mask names, bit l with a value of the slot before it (R15, R31). -/
def WritesKm (i : Instr) (u : Use) (km : KReg) (kz : Bool) (d : KReg) (val : Slot → Nat → Bool) : Prop :=
  CompletesBut i u [] [] [d.toNat] (fun a b => b.pc = a.pc + 8#64 ∧ (d = 0#3 → b.K 0 = 0xFFFF#16) ∧
    (d ≠ 0#3 → ∀ l, l < 16 → (b.K d.toNat).getLsbD l =
      if (a.K km.toNat).getLsbD l then val a l else if kz then false else (a.K d.toNat).getLsbD l))

/-- It writes no register and goes to an address that the slot before it gives. -/
def GoesTo (i : Instr) (u : Use) (target : Slot → W64) : Prop :=
  CompletesBut i u [] [] [] (fun a b => b.pc = target a)

/-- The instruction completes wherever it may issue and `pre` holds of the state it finds, changes nothing but its slot and there
nothing but the registers named, and leaves the slot as `post` says. -/
def CompletesWhen (i : Instr) (u : Use) (pre : Ctx → Prop) (as vs ks : List Nat) (post : Ctx → Slot → Prop) : Prop :=
  ∀ s h n w, s.issues h n w u → pre (s.ctx h n w) → ∃ t, exec i s = .next t ∧ OnlySlot s t h n ∧
    KeptRegs (s.dev.slot h n) (t.dev.slot h n) as vs ks ∧ post (s.ctx h n w) (t.dev.slot h n)

/-- It writes a-register d with a value that it reads out of the device, and goes on at PC + 8. -/
def ReadsA (i : Instr) (u : Use) (pre : Ctx → Prop) (d : AReg) (val : Ctx → W64) : Prop :=
  CompletesWhen i u pre [d.toNat] [] [] (fun c b => b.pc = c.s.pc + 8#64 ∧ b.A d.toNat = if d = 0#4 then 0#64 else val c)

/-- The device without its cores and without what serves the order of acts: the agenda, the messages in flight, the counter that numbers
free values, and whose instruction runs. -/
def Dev.still (d : Dev) : Dev := { d with cores := .empty, agenda := [], net := [], count := 0, cur := .none }

/-- The instruction completes wherever it may issue and `pre` holds, goes on at PC + 8 and keeps its slot's registers but for those
named; memory reads as before, and `post` says what became of the device. -/
def Acts (i : Instr) (u : Use) (pre : Ctx → Prop) (as vs ks : List Nat) (post : Ctx → Dev → Prop) : Prop :=
  ∀ s h n w, s.issues h n w u → pre (s.ctx h n w) → ∃ t, exec i s = .next t ∧ (∀ a, t.mem.read a = s.mem.read a) ∧
    (t.dev.slot h n).pc = (s.dev.slot h n).pc + 8#64 ∧
    (∀ j, j ∉ as → (t.dev.slot h n).A j = (s.dev.slot h n).A j) ∧ (∀ j, j ∉ vs → (t.dev.slot h n).V j = (s.dev.slot h n).V j) ∧
    (∀ j, j ∉ ks → (t.dev.slot h n).K j = (s.dev.slot h n).K j) ∧ post (s.ctx h n w) t.dev

/-- From d to e no core but h changed, and nothing outside the cores (but for messages sent and the model's own order of acts). -/
structure OnlyCore (d e : Dev) (h : Nat) : Prop where
  cores : ∀ k, k ≠ h → e.core k = d.core k
  still : e.still = d.still

/-- The device without its cores, without what serves the order of acts, and without what its home quays keep of their lines: a copy
beside memory that no read can tell from it (R330). -/
def Dev.calm (d : Dev) : Dev := { d.still with qsets := .empty, shared := .empty, stalled := [], pins := [] }
/-- From d to e no core but h changed, and nothing outside the cores but the home quays (and messages sent). -/
structure OnlyCoreAndQuays (d e : Dev) (h : Nat) : Prop where
  cores : ∀ k, k ≠ h → e.core k = d.core k
  calm : e.calm = d.calm

/-- From d to e exactly one message was sent. -/
def Dev.sends (d e : Dev) (x : Ev) : Prop := ∃ due chan, d.clock < due ∧ e.net = d.net ++ [⟨due, chan, x⟩]
/-- From d to e one message was sent that is due after a fixed number of cycles. -/
def Dev.sendsAfter (d e : Dev) (cycles : Nat) (x : Ev) : Prop := e.net = d.net ++ [⟨d.clock + cycles, 0, x⟩]

/-- The slot takes an exception by the shared operation of R294, and nothing else happens. -/
def State.trapped (s : State) (h n : Nat) (t : Trap) : State := ⟨s.mem, s.dev.trap s.mem h n t false (s.dev.slot h n).pc⟩
/-- The slot takes a service wait by the shared operation of R295, and nothing else happens. -/
def State.serviced (s : State) (h n : Nat) (t : Trap) : State :=
  ⟨s.mem, s.dev.service s.mem h n t false (s.dev.slot h n).pc (fun _ => false)⟩

/-- The instruction traps wherever it may issue and `pre` holds: with the cause, the sub-code and the address given, and with lanes
that the spec leaves open (any value of them). -/
def TrapsWhen (i : Instr) (u : Use) (pre : Ctx → Prop) (cause : Nat) (sub : Ctx → Nat) (addr : Ctx → W64) : Prop :=
  ∀ s h n w, s.issues h n w u → pre (s.ctx h n w) →
    ∃ lanes, exec i s = .next (s.trapped h n ⟨cause, sub (s.ctx h n w), addr (s.ctx h n w), lanes⟩)

/-- From s to t nothing changed but slot n of core h and what `strip` takes out of core h. -/
structure OnlyPart (s t : State) (h n : Nat) (strip : Core → Core) : Prop where
  mem : ∀ a, t.mem.read a = s.mem.read a
  slots : ∀ h' n', ¬(h' = h ∧ n' = n) → t.dev.slot h' n' = s.dev.slot h' n'
  others : ∀ k, k ≠ h → t.dev.core k = s.dev.core k
  core : strip (t.dev.core h).bare = strip (s.dev.core h).bare
  dev : t.dev.bare = s.dev.bare

/-- The instruction completes wherever it may issue and `pre` holds, goes on at PC + 8, keeps its registers but for those named, and
changes nothing but its slot and what `strip` takes out of its core; `post` says what became of the core and the slot. -/
def CompletesOnCore (i : Instr) (u : Use) (pre : Ctx → Prop) (as vs ks : List Nat) (strip : Core → Core) (post : Ctx → Core → Slot → Prop) : Prop :=
  ∀ s h n w, s.issues h n w u → pre (s.ctx h n w) → ∃ t, exec i s = .next t ∧ OnlyPart s t h n strip ∧
    KeptRegs (s.dev.slot h n) (t.dev.slot h n) as vs ks ∧ (t.dev.slot h n).pc = (s.dev.slot h n).pc + 8#64 ∧
    post (s.ctx h n w) (t.dev.core h) (t.dev.slot h n)

/-- A word address that an access of the slot reaches without waiting and without a table's action: it lies in a region of the slot's
launch under table 0, nothing is parked on it, no restore has still to bring it back (R306), and (of a load) the word is not poisoned, (of a
store) it lies in no SEALED
object. -/
structure Ctx.plainWord (c : Ctx) (load : Bool) (a : W64) : Prop where
  low : a.toNat < 2 ^ 20
  reg : ∃ key g, (c.d.core c.h).regionOf a.toNat = some (key, g) ∧ key / 16 = c.s.lk ∧ rgnTbl g = 0
  free : ∀ p, p ∈ (c.d.core c.h).parked → p.addr ≠ a.toNat
  back : (c.d.core c.h).unrestored a.toNat = false
  good : load = true → (c.d.core c.h).lsPoison.contains (a.toNat / 4) = false
  open_ : load = false → (c.d.core c.h).sealedAt a.toNat = false

/-- What some words store at an address: the last lane's data (R113). -/
def storedAt (ws : List (Nat × W32)) (a : Nat) : Option W32 := ((ws.filter (fun w => w.1 == a)).getLast?).map (·.2)

/-- A core without the words of its local store and their poison. -/
def Core.noWords (c : Core) : Core := { c with words := .empty, lsPoison := [] }
/-- A core without the tags of its local store and the poison of its words. -/
def Core.noTags (c : Core) : Core := { c with tags := .empty, lsPoison := [] }

/-- The instruction traps wherever it may issue and `pre` holds, with a cause and a sub-code; the spec leaves the record's address and
lanes open (any values of them). -/
def TrapsFree (i : Instr) (u : Use) (pre : Ctx → Prop) (cause : Nat) (sub : Ctx → Nat) : Prop :=
  ∀ s h n w, s.issues h n w u → pre (s.ctx h n w) →
    ∃ addr lanes, exec i s = .next (s.trapped h n ⟨cause, sub (s.ctx h n w), addr, lanes⟩)

/-- The instruction, wherever it may issue and `pre` holds, gives up the seat: the slot waits as named, keeps its PC and its registers,
and the instruction will be presented again whole (R22). -/
def WaitsWhen (i : Instr) (u : Use) (pre : Ctx → Prop) (wt : Ctx → WaitFor) : Prop :=
  ∀ s h n w, s.issues h n w u → pre (s.ctx h n w) → ∃ t, exec i s = .next t ∧ (∀ a, t.mem.read a = s.mem.read a) ∧
    (t.dev.slot h n).st = .waiting (wt (s.ctx h n w)) ∧ (t.dev.slot h n).pc = (s.dev.slot h n).pc ∧
    (∀ j, (t.dev.slot h n).A j = (s.dev.slot h n).A j) ∧ (∀ j, (t.dev.slot h n).V j = (s.dev.slot h n).V j) ∧
    (∀ j, (t.dev.slot h n).K j = (s.dev.slot h n).K j)

/-- A virtual address that the slot may access with the rights named: it is no window address, its page is in the district's
translation cache, and the checks of R322 pass. -/
def Ctx.mapped (c : Ctx) (need : List Right) (va : W64) (pa : Nat) : Prop :=
  va.toNat < 2 ^ 57 ∧ isWindow va = false ∧ ∃ lf, c.d.findLeaf (districtOf c.h) va.toNat = some lf ∧
    c.d.protect c.m (c.s.who c.h) need lf = some none ∧ pa = lf.pa va.toNat

/-- A form of R174 may issue at once: the slot runs no tasks; or its lane set holds no task and it is not speculative; or its lane set
holds one task, and that is no longer speculative (R206). -/
abbrev Ctx.sure (c : Ctx) : Prop :=
  (c.s.kind != .ordered || match (lanesOf c.s.laneSet).filterMap (fun l => c.s.tasks.find? l) with
    | [] => !c.s.spec
    | [id] => c.plain id
    | _ => false) = true

/-- Nothing of the slot is still to be made visible: its open group is empty, its closed groups are released, its window stores are
performed; and a form of R174 may issue at once. -/
structure Ctx.quiet (c : Ctx) : Prop where
  sure : c.sure
  closed : c.s.closed = false
  open_ : c.openRecs = []
  seen : c.d.allVisible c.h c.n = true

/-- An event of the machine, wherever `pre` holds, answers a next state in which memory reads as before and the device is as `post`
says. -/
def Event (i : Instr) (pre : Memory → Dev → Prop) (post : Memory → Dev → Dev → Prop) : Prop :=
  ∀ s : State, pre s.mem s.dev → ∃ t, exec i s = .next t ∧ (∀ a, t.mem.read a = s.mem.read a) ∧ post s.mem s.dev t.dev

/-- A message of e that arrives after the present cycle. -/
def Dev.coming (e : Dev) (clock : Nat) (x : Ev) : Prop := ∃ f, f ∈ e.net ∧ f.e = x ∧ clock < f.due

/-- No register, PC or memory-order state of any slot differs. -/
def Dev.sameSlots (d e : Dev) : Prop := ∀ h n, e.slot h n = d.slot h n

/-- The machine goes on: one step answers a next state. -/
def State.goesOn (s : State) : Prop := ∃ t, step s = .next t

/-- A host access of device memory that names an address of HBM (R313): only one that does not ends a run. -/
def Act.named : Act → Bool
  | .req (.hostMemRead pa) => isHbm pa
  | .req (.hostMemWrite pa _ _) => isHbm pa
  | _ => true

/-- The first act of the agenda names an address that exists. -/
def State.named (s : State) : Bool :=
  match s.dev.agenda with
  | [] => true
  | a :: _ => a.named

/-! ### Commands of an engine queue -/

/-- A command of a queue, wherever it stands at the head of the queue whose turn it is and `pre` holds, answers a next state in which
memory reads as before and every slot has the registers and the PC it had; `post` says what became of the device, given the commands
behind it. -/
def Commands (i : Instr) (pre : QCtx → List Cmd → Prop) (post : QCtx → List Cmd → Dev → Prop) : Prop :=
  ∀ s h cq c r, s.dev.cur = .queue h cq → ((s.dev.core h).eq cq).q = c :: r → pre ⟨s.mem, h, cq, c, s.dev⟩ r →
    ∃ t, exec i s = .next t ∧ (∀ a, t.mem.read a = s.mem.read a) ∧
      (∀ h' n, (t.dev.slot h' n).pc = (s.dev.slot h' n).pc ∧
        ∀ j, (t.dev.slot h' n).A j = (s.dev.slot h' n).A j ∧ (t.dev.slot h' n).V j = (s.dev.slot h' n).V j ∧
          (t.dev.slot h' n).K j = (s.dev.slot h' n).K j) ∧ post ⟨s.mem, h, cq, c, s.dev⟩ r t.dev

/-- The command's sequence number names no other command of its queue. -/
def QCtx.alone (q : QCtx) (r : List Cmd) : Prop := ∀ x, x ∈ ((q.d.core q.h).eq q.cq).live ++ r → x.seq ≠ q.c.seq

/-- The command has left its queue, nothing of it remains to complete, and its barrier has one byte fewer pending (R178). -/
structure QCtx.retired (q : QCtx) (r : List Cmd) (e : Dev) : Prop where
  queue : ((e.core q.h).eq q.cq).q = r
  live : ((e.core q.h).eq q.cq).live = ((q.d.core q.h).eq q.cq).live
  pend : ((e.core q.h).bar q.c.bar).pend = ((q.d.core q.h).bar q.c.bar).pend - 1

/-- The command has left its queue, and its barrier, if it has an owner and no error yet, records the cause and the sub-code (R178). -/
structure QCtx.refusedWith (q : QCtx) (r : List Cmd) (e : Dev) (cause sub : Nat) : Prop where
  queue : ((e.core q.h).eq q.cq).q = r
  error : ∀ lk, ((q.d.core q.h).bar q.c.bar).owner = some lk → q.d.alive lk = true → ((q.d.core q.h).bar q.c.bar).err = false →
    ((e.core q.h).bar q.c.bar).err = true ∧ ((e.core q.h).bar q.c.bar).code = BitVec.ofNat 16 (256 * cause + sub)

/-- The command is at step s, or begins there (R217, R226). -/
def QCtx.atStep (q : QCtx) (hd : TileHdr) (s : Nat) : Prop := if q.c.begun then q.c.step = s else hd.rstep.toNat = s

/-- Step s is over: the command goes to its next step, or leaves the queue after its last. -/
def QCtx.goesOn (q : QCtx) (r : List Cmd) (e : Dev) (s last : Nat) : Prop :=
  if last ≤ s then ((e.core q.h).eq q.cq).q.map (·.seq) = r.map (·.seq)
  else ∃ c' r', ((e.core q.h).eq q.cq).q = c' :: r' ∧ c'.seq = q.c.seq ∧ c'.step = s + 1 ∧ r'.map (·.seq) = r.map (·.seq)

/-- A translated line needs nothing that its core's buffer of domain entries does not hold. -/
def QCtx.reaches (q : QCtx) (need : List Right) (va pa : Nat) : Prop :=
  ∃ lf, q.d.translate q.m q.who need (BitVec.ofNat 64 (lineOf va)) = .ok pa lf ∧
    (q.who.recov = true ∨ (q.d.core q.h).plb.any (fun e => e.terr == q.who.terr && e.dom == lf.dom) = true)

/-- The word can be read at once: in a region under table 0 of a local store, unpoisoned, with nothing of the queue on its way to that
core; or in global memory, its line mapped, not pending, unpoisoned and in its quay (or in host memory). -/
def QCtx.readable (q : QCtx) (x : Rd) : Prop :=
  match x.loc with
  | .bank t a => (∃ key g, (q.d.core t).regionOf a = some (key, g) ∧ rgnTbl g = 0) ∧
      (q.d.core t).lsPoison.contains (a / 4) = false ∧ q.d.queueBusy q.h q.cq t = false ∧
      (q.d.core t).unrestored a = false ∧ q.d.awayOn (terrOf q.c.lk) t = false
  | .mem va => ∃ pa, q.reaches [.r] va pa ∧ q.d.pending pa = false ∧ q.d.linePoison.contains pa = false ∧
      (homeOf (lineOf pa) = 512 ∨ ((q.d.quayLines (quayKey (lineOf pa))).any (fun y => y.pa == lineOf pa) = true ∧
        (q.d.quayLines (quayKey (lineOf pa))).any (fun y => y.pa == lineOf pa && y.trim) = false))
  | .bad _ => False

/-- Nothing of the command's present step has been read yet, and all its words can be read at once. -/
structure QCtx.reads (q : QCtx) (rs : List Rd) : Prop where
  trapped : q.c.trapped = []
  parked : q.c.parked = []
  now : q.c.retryAt ≤ q.d.clock
  unread : ∀ x, x ∈ rs → q.c.rd.find? x.ix = none
  all : ∀ x, x ∈ rs → q.readable x

/-- The value of a word where it lies. -/
def QCtx.value (q : QCtx) (x : Rd) : W32 :=
  match x.loc with
  | .bank t a => (q.d.core t).word a
  | .mem va => (match q.d.translate q.m q.who [.r] (BitVec.ofNat 64 (lineOf va)) with
      | .ok pa _ => q.m.w32 (pa + va % 128)
      | _ => 0#32)
  | .bad _ => 0#32

/-- The word can be written: at a bank, or in a mapped line. -/
def QCtx.writable (q : QCtx) (w : Wr) : Prop :=
  match w.loc with
  | .bank _ _ => True
  | .mem va => va % 4 = 0 ∧ ∃ pa, q.reaches [.w] va pa
  | .bad _ => False

/-- The word is on its way: a landing at its core, or bytes of a group of the command (R173, R237). -/
def QCtx.wrote (q : QCtx) (e : Dev) (w : Wr) : Prop :=
  match w.loc with
  | .bank t a => ∃ step, e.coming q.d.clock (.engineWordLanding ⟨t, a, w.data, q.h, q.cq, q.c.seq, step⟩)
  | .mem va => ∃ g x n, g ∈ e.groups ∧ g.fin = [.engine q.h q.cq q.c.seq n] ∧ x ∈ g.lines ∧ x.va = lineOf va ∧
      ∀ k, k < 4 → x.mask.getLsbD (va % 128 + k) = true ∧ Line.byte x.data (va % 128 + k) = w.data.extractLsb' (8 * k) 8
  | .bad _ => False

/-- Element k of a tile in row order. -/
def Tile.elem (x : Tile) (k : Nat) : W32 := (x.dense[k]?).getD 0#32

/-- Elements of a format packed into word w, lowest first. -/
def packed (f : Fmt) (el : Nat → W32) (w : Nat) : W32 :=
  match f.size with
  | 4 => el w
  | 2 => el (2 * w) ||| (el (2 * w + 1) <<< 16)
  | _ => el (4 * w) ||| (el (4 * w + 1) <<< 8) ||| (el (4 * w + 2) <<< 16) ||| (el (4 * w + 3) <<< 24)

end Sys2Proof.Machine
end

