-- ==== Sys2Proof/Certificates/Slice0/Obligations.lean ====
section
/-! DEFINITION. The statements for the provers, from the numbered rules of the spec. "May issue" is `State.issues`: the checks of R64 are
passed and the conditions of R24, R28 and R362 hold, with no STEP of a debugger pending. -/

open Sys2Proof Sys2Proof.Machine

/-! ### Control and address arithmetic -/

/-- R79 Table 3 and R80: what each form writes into aD, computed on integers. Every other register, memory and every other slot stays. -/
def Obligations.AddressArithmetic : Prop :=
  ∀ d a b c : AReg, ∀ imm : W32, ∀ cc : Cc, ∀ u : Bool,
    let u2 := useA [wa d, ra a, ra b]
    let u1 := useA [wa d, ra a]
    let X := fun s : Slot => s.A a.toNat
    let Y := fun s : Slot => s.A b.toNat
    WritesA (.aadd d a b) u2 d (fun s => BitVec.ofNat 64 ((X s).toNat + (Y s).toNat)) ∧
    WritesA (.asub d a b) u2 d (fun s => BitVec.ofInt 64 ((X s).toInt - (Y s).toInt)) ∧
    WritesA (.amul d a b) u2 d (fun s => BitVec.ofNat 64 ((X s).toNat * (Y s).toNat)) ∧
    WritesA (.amulh d a b) u2 d (fun s => BitVec.ofInt 64 ((X s).toInt * (Y s).toInt / 2 ^ 64)) ∧
    WritesA (.amulhu d a b) u2 d (fun s => BitVec.ofNat 64 ((X s).toNat * (Y s).toNat / 2 ^ 64)) ∧
    WritesA (.aand d a b) u2 d (fun s => X s &&& Y s) ∧
    WritesA (.aor d a b) u2 d (fun s => X s ||| Y s) ∧
    WritesA (.axor d a b) u2 d (fun s => X s ^^^ Y s) ∧
    WritesA (.ashl d a b) u2 d (fun s => BitVec.ofNat 64 ((X s).toNat * 2 ^ ((Y s).toNat % 64))) ∧
    WritesA (.ashr d a b) u2 d (fun s => BitVec.ofNat 64 ((X s).toNat / 2 ^ ((Y s).toNat % 64))) ∧
    WritesA (.asar d a b) u2 d (fun s => BitVec.ofInt 64 ((X s).toInt / 2 ^ ((Y s).toNat % 64))) ∧
    WritesA (.amin d a b) u2 d (fun s => BitVec.ofInt 64 (min (X s).toInt (Y s).toInt)) ∧
    WritesA (.amax d a b) u2 d (fun s => BitVec.ofInt 64 (max (X s).toInt (Y s).toInt)) ∧
    WritesA (.aminu d a b) u2 d (fun s => BitVec.ofNat 64 (min (X s).toNat (Y s).toNat)) ∧
    WritesA (.amaxu d a b) u2 d (fun s => BitVec.ofNat 64 (max (X s).toNat (Y s).toNat)) ∧
    WritesA (.amov d a) u1 d X ∧
    WritesA (.asel d a b c) (useA [wa d, ra a, ra b, ra c]) d (fun s => if s.A c.toNat ≠ 0#64 then X s else Y s) ∧
    WritesA (.aset cc d a b) u2 d (fun s => if cond cc (X s) (Y s) then 1#64 else 0#64) ∧
    WritesA (.aaddi u d a imm) u1 d (fun s => BitVec.ofInt 64 ((X s).toInt + if u then (imm.toNat : Int) else imm.toInt)) ∧
    WritesA (.ali u d imm) (useA [wa d]) d (fun _ => BitVec.ofInt 64 (if u then (imm.toNat : Int) else imm.toInt)) ∧
    WritesA (.alih d a imm) u1 d (fun s => BitVec.ofNat 64 (imm.toNat * 2 ^ 32 + (X s).toNat % 2 ^ 32))

/-- R74 and R72: nop and the branches write nothing and go where the rule says; call writes a15; loop counts its register down and
leaves when it reaches zero (a counter a0 is no legal form, R75).
R74 and R75: jr, callr and ret go to an address that is a multiple of 8; callr a15 goes to the old a15.
R75 and R56: a jump to an address that is no multiple of 8 raises ALIGN (0x05) at the transferring instruction, with the target in
the record's address field, and callr writes no a15. -/
def Obligations.ControlTransfers : Prop :=
  (∀ aa ab : AReg, ∀ k : KReg, ∀ off : W32, ∀ cc : Cc,
    let tgt := fun s : Slot => BitVec.ofInt 64 (s.pc.toInt + 8 * off.toInt)
    let on := fun s : Slot => s.pc + 8#64
    GoesTo .nop (useA []) on ∧
    GoesTo (.br off) (useA []) tgt ∧
    GoesTo (.bc cc aa ab off) (useA [ra aa, ra ab]) (fun s => if cond cc (s.A aa.toNat) (s.A ab.toNat) then tgt s else on s) ∧
    GoesTo (.bany k off) (useA [rk k]) (fun s => if s.K k.toNat ≠ 0#16 then tgt s else on s) ∧
    GoesTo (.ball k off) (useA [rk k]) (fun s => if s.K k.toNat = 0xFFFF#16 then tgt s else on s) ∧
    GoesTo (.bnone k off) (useA [rk k]) (fun s => if s.K k.toNat = 0#16 then tgt s else on s) ∧
    CompletesBut (.call off) (useA [wa 15#4]) [15] [] [] (fun a b => b.A 15 = a.pc + 8#64 ∧ b.pc = tgt a) ∧
    (aa ≠ 0#4 → CompletesBut (.loop aa off) (useA [wa aa, ra aa]) [aa.toNat] [] []
      (fun a b => b.A aa.toNat = a.A aa.toNat - 1#64 ∧ b.pc = if a.A aa.toNat = 1#64 then on a else tgt a))) ∧
  (∀ a : AReg,
    let ok := fun (r : Nat) (c : Ctx) => (c.s.A r).toNat % 8 = 0
    CompletesWhen (.jr a) (useA [ra a]) (ok a.toNat) [] [] [] (fun c b => b.pc = c.s.A a.toNat) ∧
    CompletesWhen (.callr a) (useA [ra a, wa 15#4]) (ok a.toNat) [15] [] []
      (fun c b => b.A 15 = c.s.pc + 8#64 ∧ b.pc = c.s.A a.toNat) ∧
    CompletesWhen .ret (useA [ra 15#4]) (ok 15) [] [] [] (fun c b => b.pc = c.s.A 15)) ∧
  (∀ a : AReg,
    let bad := fun (r : Nat) (c : Ctx) => (c.s.A r).toNat % 8 ≠ 0
    TrapsWhen (.jr a) (useA [ra a]) (bad a.toNat) 0x05 (fun _ => 0) (fun c => c.s.A a.toNat) ∧
    TrapsWhen (.callr a) (useA [ra a, wa 15#4]) (bad a.toNat) 0x05 (fun _ => 0) (fun c => c.s.A a.toNat) ∧
    TrapsWhen .ret (useA [ra 15#4]) (bad 15) 0x05 (fun _ => 0) (fun c => c.s.A 15))

/-- R77: nop has no effect but its own advance; yield makes the slot READY in the present cycle, behind every slot that is READY
already (by the order of R23), and changes no memory, no lease, no lane set. The bound of a READY slot's lease keeps running: its end
falls due in its cycle, and breaks the lease. -/
def Obligations.YieldAndNop : Prop :=
  GoesTo .nop (useA []) (fun s => s.pc + 8#64) ∧
  CompletesWhen .yield (useA []) (fun _ => True) [] [] [] (fun c b =>
    b.pc = c.s.pc + 8#64 ∧ b.st = .ready ∧ b.leases = c.s.leases ∧ b.laneSet = c.s.laneSet ∧
    ∀ m x, m ≠ c.n → m < 64 → c.n < 64 → x.readyAt < c.d.clock ∨ x.readyAt = c.d.clock ∧ x.yielded = false → readyBefore (m, x) (c.n, b) = true) ∧
  (∀ s : State, ∀ h n : Nat, ∀ l : LeaseRec, (s.dev.slot h n).st = .ready → l ∈ (s.dev.slot h n).leases → l.granted = true → l.broken = false →
    (n < 64 → s.dev.agenda = [] → s.dev.up = true → l.expiry = s.dev.clock + 1 → ∃ t, step s = .next t ∧ Act.ev (.leaseExpiry h n l.va) ∈ t.dev.agenda ∧
      l ∈ (t.dev.slot h n).leases ∧ (t.dev.slot h n).st = .ready) ∧
    (l.expiry ≤ s.dev.clock → ∃ t, exec (.leaseExpiry h n l.va) s = .next t ∧
      ∃ x, x ∈ (t.dev.slot h n).leases ∧ x.va = l.va ∧ x.expiry = l.expiry ∧ x.broken = true ∧ x.why = 1))

/-- R31: a0 and k0 read as constants and discard writes; a write of another register is read back and touches no other register. -/
def Obligations.HardWiredRegisters : Prop :=
  ∀ s : Slot, ∀ v : W64, ∀ m : BitVec 16,
    s.A 0 = 0#64 ∧ s.K 0 = 0xFFFF#16 ∧ s.setA 0 v = s ∧ s.setK 0 m = s ∧
    (∀ n, n ≠ 0 → (s.setA n v).A n = v ∧ ∀ j, j ≠ n → (s.setA n v).A j = s.A j) ∧
    (∀ n, n ≠ 0 → (s.setK n m).K n = m ∧ ∀ j, j ≠ n → (s.setK n m).K j = s.K j)

/-! ### Vector integer forms, masks, moves -/

/-- R17, R40: how an exact integer becomes a lane: wrapped modulo 2^32, or clamped to the type's range when SAT is 1. -/
def Obligations.IntegerReduction : Prop :=
  ∀ t : Int,
    (∀ ty, ((outInt ty false t).toNat : Int) = t % 2 ^ 32) ∧
    (outInt .i32 true t).toInt = max (-2 ^ 31) (min t (2 ^ 31 - 1)) ∧
    ((outInt .u32 true t).toNat : Int) = max 0 (min t (2 ^ 32 - 1))

/-- R95 Table 1: the integer forms, lane by lane, with the mask and the fill of R15. -/
def Obligations.VectorIntegerForms : Prop :=
  ∀ ty : IType, ∀ km : KReg, ∀ kz : Bool, ∀ d a b c : VReg,
    let u3 := useDAB km kz d a b
    let u2 := useDA km kz d a
    let x := fun (s : Slot) l => inInt ty (s.ln a l)
    let y := fun (s : Slot) l => inInt ty (s.ln b l)
    let n := fun (s : Slot) l => (s.ln b l).toNat % 32
    WritesV (.vadd ty km kz d a b) u3 km kz d (fun s l => outInt ty s.sat (x s l + y s l)) ∧
    WritesV (.vsub ty km kz d a b) u3 km kz d (fun s l => outInt ty s.sat (x s l - y s l)) ∧
    WritesV (.vmul ty km kz d a b) u3 km kz d (fun s l => outInt ty s.sat (x s l * y s l)) ∧
    WritesV (.vmulh ty km kz d a b) u3 km kz d (fun s l => BitVec.ofInt 32 (x s l * y s l / 2 ^ 32)) ∧
    WritesV (.vmin ty km kz d a b) u3 km kz d (fun s l => BitVec.ofInt 32 (min (x s l) (y s l))) ∧
    WritesV (.vmax ty km kz d a b) u3 km kz d (fun s l => BitVec.ofInt 32 (max (x s l) (y s l))) ∧
    WritesV (.vabs km kz d a) u2 km kz d (fun s l => outInt .i32 s.sat |(s.ln a l).toInt|) ∧
    WritesV (.vneg ty km kz d a) u2 km kz d (fun s l => outInt ty s.sat (-x s l)) ∧
    WritesV (.vand ty km kz d a b) u3 km kz d (fun s l => s.ln a l &&& s.ln b l) ∧
    WritesV (.vor ty km kz d a b) u3 km kz d (fun s l => s.ln a l ||| s.ln b l) ∧
    WritesV (.vxor ty km kz d a b) u3 km kz d (fun s l => s.ln a l ^^^ s.ln b l) ∧
    WritesV (.vnot ty km kz d a) u2 km kz d (fun s l => ~~~(s.ln a l)) ∧
    WritesV (.vshl ty km kz d a b) u3 km kz d (fun s l => BitVec.ofNat 32 ((s.ln a l).toNat * 2 ^ n s l)) ∧
    WritesV (.vshr ty km kz d a b) u3 km kz d (fun s l => BitVec.ofNat 32 ((s.ln a l).toNat / 2 ^ n s l)) ∧
    WritesV (.vsar ty km kz d a b) u3 km kz d (fun s l => BitVec.ofInt 32 ((s.ln a l).toInt / 2 ^ n s l)) ∧
    WritesV (.vmad ty km kz d a b c) (useDABC km kz d a b c) km kz d (fun s l => outInt ty s.sat (x s l * y s l + inInt ty (s.ln c l)))

/-- R96 and R106: vcmp and vfcmp set the bits of a mask by Cond on 32-bit integers and on floating values; with a NaN only ne holds;
k0 takes no write.
R97 Table 3: the mask forms. kpop counts ones; kfirst gives the lowest lane, or 16. R87: lanes copies the lane set. -/
def Obligations.ComparesAndMasks : Prop :=
  (∀ km : KReg, ∀ kz : Bool, ∀ d : KReg, ∀ a b : VReg, ∀ cc : Cc, ∀ fc : Fcc, ∀ ty : FType,
    let u := (useV [a, b] [wk d, rv a, rv b]).masked km kz
    WritesKm (.vcmp cc km kz d a b) u km kz d (fun s l => cond cc (s.ln a l) (s.ln b l)) ∧
    WritesKm (.vfcmp fc ty km kz d a b) u km kz d (fun s l =>
      if s.fl ty a l = .nan ∨ s.fl ty b l = .nan then decide (fc = .ne) else
      match fc with
      | .eq => decide (cmpF (s.fl ty a l) (s.fl ty b l) = 0)
      | .ne => decide (cmpF (s.fl ty a l) (s.fl ty b l) ≠ 0)
      | .lt => decide (cmpF (s.fl ty a l) (s.fl ty b l) < 0)
      | .ge => decide (cmpF (s.fl ty a l) (s.fl ty b l) ≥ 0))) ∧
  (∀ d a b : KReg, ∀ e f : AReg,
    let u2 := useA [wk d, rk a, rk b]
    let u1 := useA [wk d, rk a]
    WritesK (.kand d a b) u2 d (fun s => s.K a.toNat &&& s.K b.toNat) ∧
    WritesK (.kor d a b) u2 d (fun s => s.K a.toNat ||| s.K b.toNat) ∧
    WritesK (.kxor d a b) u2 d (fun s => s.K a.toNat ^^^ s.K b.toNat) ∧
    WritesK (.kandn d a b) u2 d (fun s => s.K a.toNat &&& ~~~(s.K b.toNat)) ∧
    WritesK (.knot d a) u1 d (fun s => ~~~(s.K a.toNat)) ∧
    WritesK (.kmov d a) u1 d (fun s => s.K a.toNat) ∧
    WritesK (.kset d f) (useA [wk d, ra f]) d (fun s => BitVec.ofNat 16 ((s.A f.toNat).toNat % 2 ^ 16)) ∧
    WritesA (.kpop e a) (useA [wa e, rk a]) e (fun s => BitVec.ofNat 64 ((List.range 16).countP (fun l => (s.K a.toNat).getLsbD l))) ∧
    CompletesBut (.kfirst e a) (useA [wa e, rk a]) [e.toNat] [] [] (fun s t => t.pc = s.pc + 8#64 ∧ (e ≠ 0#4 →
      (s.K a.toNat = 0#16 → t.A e.toNat = 16#64) ∧
      (s.K a.toNat ≠ 0#16 → ∃ l, l < 16 ∧ (s.K a.toNat).getLsbD l = true ∧ (∀ m, m < l → (s.K a.toNat).getLsbD m = false) ∧
        t.A e.toNat = BitVec.ofNat 64 l))))

/-- R87: lanes writes K[d] := LaneSet, in all 16 bits. -/
def Obligations.LanesReadsLaneSet : Prop :=
  ∀ d : KReg, WritesK (.lanes d) (useA [wk d]) d (fun s => s.laneSet)

/-- R98 and R99 Table 4: constants and lane moves. vins writes one lane, and no mask governs it.
R108: a reduction puts the root of the lane tree of R47 over the active lanes into every active lane (the identity of the operation
when there is none); a scan gives each active lane its prefix. Integer sums are exact and reduced once. -/
def Obligations.LaneMovesAndReductions : Prop :=
  (∀ km : KReg, ∀ kz : Bool, ∀ d a b : VReg, ∀ e : AReg, ∀ imm : W32, ∀ n : BitVec 4,
    WritesV (.vli km kz d e imm) ((useV [d] [wv d, ra e]).masked km kz) km kz d
      (fun s _ => BitVec.ofInt 32 ((s.A e.toNat).toInt + imm.toInt)) ∧
    WritesV (.vbcast n km kz d a) (useDA km kz d a) km kz d (fun s _ => s.ln a n.toNat) ∧
    WritesV (.viota km kz d) ((useV [d] [wv d]).masked km kz) km kz d (fun _ l => BitVec.ofNat 32 l) ∧
    WritesV (.vperm km kz d a b) (useDAB km kz d a b) km kz d (fun s l => s.ln a ((s.ln b l).toNat % 16)) ∧
    WritesV (.vrotl n km kz d a) (useDA km kz d a) km kz d (fun s l => s.ln a ((l + n.toNat) % 16)) ∧
    WritesV (.vmov km kz d a) (useDA km kz d a) km kz d (fun s l => s.ln a l) ∧
    WritesA (.vext n e a) (useV [a] [wa e, rv a]) e (fun s => BitVec.ofNat 64 (s.ln a n.toNat).toNat) ∧
    CompletesBut (.vins n d e) { useV [d] [wv d, ra e] with wr := .one } [] [d.toNat] [] (fun s t => t.pc = s.pc + 8#64 ∧
      ∀ l, l < 16 → lane (t.V d.toNat) l = if l = n.toNat then BitVec.ofNat 32 ((s.A e.toNat).toNat % 2 ^ 32) else lane (s.V d.toNat) l)) ∧
  (∀ ty : IType, ∀ km : KReg, ∀ kz : Bool, ∀ d a : VReg,
    let u := useDA km kz d a
    let root := fun (op : W32 → W32 → W32) (zero : W32) (s : Slot) (_ : Nat) => (treeNode op (s.leaf km a id) 4 0).getD zero
    let sum := fun (s : Slot) (ls : List Nat) => ((ls.filter (fun l => (s.K km.toNat).getLsbD l)).map (fun l => inInt ty (s.ln a l))).sum
    WritesV (.vredsum ty km kz d a) u km kz d (fun s _ => outInt ty s.sat (sum s (List.range 16))) ∧
    WritesV (.vredmin ty km kz d a) u km kz d (root (opVmin ty) (if ty = .i32 then 0x7FFFFFFF#32 else 0xFFFFFFFF#32)) ∧
    WritesV (.vredmax ty km kz d a) u km kz d (root (opVmax ty) (if ty = .i32 then 0x80000000#32 else 0#32)) ∧
    WritesV (.vredand ty km kz d a) u km kz d (root (· &&& ·) 0xFFFFFFFF#32) ∧
    WritesV (.vredor ty km kz d a) u km kz d (root (· ||| ·) 0#32) ∧
    WritesV (.vredxor ty km kz d a) u km kz d (root (· ^^^ ·) 0#32) ∧
    WritesV (.vscan ty km kz d a) u km kz d (fun s l => outInt ty s.sat (sum s (List.range (l + 1)))) ∧
    WritesV (.vscanx ty km kz d a) u km kz d (fun s l => outInt ty s.sat (sum s (List.range l))))

/-! ### Reductions, scans, floating forms, conversions -/

/-- R105, R107, R108 and R109: the floating forms take their inputs after FTZ (`Slot.fl`), compute the exact value and round it once in
Mode(rnd) with FTZ on the result (`encF`); minimum, maximum, absolute value and negation give a value that the format holds; a sum over
lanes rounds at every node of the tree. -/
def Obligations.FloatingForms : Prop :=
  ∀ ty : FType, ∀ rnd : Rnd, ∀ km : KReg, ∀ kz : Bool, ∀ d a b c : VReg, ∀ dst src : Fmt,
    let u2 := useDA km kz d a
    let u3 := useDAB km kz d a b
    let u4 := useDABC km kz d a b c
    let x := fun (s : Slot) l => s.fl ty a l
    let y := fun (s : Slot) l => s.fl ty b l
    let z := fun (s : Slot) l => s.fl ty c l
    let out := fun (s : Slot) v => encF ty.fmt (s.mode rnd) s.ftz v
    let same := fun v => encF ty.fmt .rn false v
    let add := fun (s : Slot) v w => addF (s.mode rnd) v w
    let lf := fun (s : Slot) => s.leaf km a (decF ty.fmt s.ftz)
    let node := fun (s : Slot) v w => decF ty.fmt s.ftz (out s (add s v w))
    let zero := FVal.fin false 0 0
    let approx := fun (f : FVal → FVal) (s : Slot) (l : Nat) => encF .f32 .rn s.ftz (f (s.fl .f32 a l))
    WritesV (.vfadd ty rnd km kz d a b) u3 km kz d (fun s l => out s (add s (x s l) (y s l))) ∧
    WritesV (.vfsub ty rnd km kz d a b) u3 km kz d (fun s l => out s (add s (x s l) (negF (y s l)))) ∧
    WritesV (.vfmul ty rnd km kz d a b) u3 km kz d (fun s l => out s (mulF (x s l) (y s l))) ∧
    WritesV (.vfma ty rnd km kz d a b c) u4 km kz d (fun s l => out s (add s (mulF (x s l) (y s l)) (z s l))) ∧
    WritesV (.vfms ty rnd km kz d a b c) u4 km kz d (fun s l => out s (add s (mulF (x s l) (y s l)) (negF (z s l)))) ∧
    WritesV (.vfnma ty rnd km kz d a b c) u4 km kz d (fun s l => out s (add s (negF (mulF (x s l) (y s l))) (z s l))) ∧
    WritesV (.vfmin ty km kz d a b) u3 km kz d (fun s l => same (minF (x s l) (y s l))) ∧
    WritesV (.vfmax ty km kz d a b) u3 km kz d (fun s l => same (maxF (x s l) (y s l))) ∧
    WritesV (.vfabs ty km kz d a) u2 km kz d (fun s l => same (absF (x s l))) ∧
    WritesV (.vfneg ty km kz d a) u2 km kz d (fun s l => same (negF (x s l))) ∧
    WritesV (.vfrcpa km kz d a) u2 km kz d (approx rcpF) ∧
    WritesV (.vfrsqa km kz d a) u2 km kz d (approx rsqF) ∧
    WritesV (.vfexp2a km kz d a) u2 km kz d (approx exp2F) ∧
    WritesV (.vflog2a km kz d a) u2 km kz d (approx log2F) ∧
    WritesV (.vfredsum ty rnd km kz d a) u2 km kz d (fun s _ => same ((treeNode (node s) (lf s) 4 0).getD zero)) ∧
    WritesV (.vfredmin ty km kz d a) u2 km kz d (fun s _ => same ((treeNode minF (lf s) 4 0).getD (.inf false))) ∧
    WritesV (.vfredmax ty km kz d a) u2 km kz d (fun s _ => same ((treeNode maxF (lf s) 4 0).getD (.inf true))) ∧
    WritesV (.vfscan ty rnd km kz d a) u2 km kz d (fun s l => same ((treePrefix (node s) (lf s) l).getD zero)) ∧
    WritesV (.vfscanx ty rnd km kz d a) u2 km kz d (fun s l => same ((treeBefore (node s) (lf s) l).getD zero)) ∧
    WritesV (.vcvt dst src rnd km kz d a) u2 km kz d (fun s l => conv dst src (s.mode rnd) s.ftz s.sat (s.ln a l))

/-- R41 to R43: a value that a format holds is its own rounding, in every mode: encoding a decoded element that is no NaN gives the
element back (infinities and signed zeros too). -/
def Obligations.RoundingKeepsRepresentable : Prop :=
  ∀ f : Fmt, ∀ md : RMode, ∀ x : W32, f ≠ .i32 → f ≠ .u32 → x.toNat < 2 ^ (1 + f.expBits + f.frac) →
    decF f false x ≠ .nan → encF f md false (decF f false x) = x

/-- R109, R110, R25 and R26: a conversion with an 8-bit format and vcvtsc are long-latency: at issue their values, computed from the
registers as they stand, join the outstanding instructions, their destinations are pending, and one message will land them.
R15, R26 and R146: the landing of an instruction whose accesses are answered writes its vector registers under its mask and its
a-registers, and takes it off the list of outstanding instructions (in a slot that stands on its core). -/
def Obligations.LongConversions : Prop :=
  (∀ la : BitVec 4, ∀ dst src : Fmt, ∀ rnd : Rnd, ∀ km : KReg, ∀ kz : Bool, ∀ d a b : VReg,
    let post := fun (vd : List Nat) (val : Slot → List V512) (c : Ctx) (e : Dev) => ∃ o,
      (e.slot c.h c.n).ops = c.s.ops ++ [o] ∧ o.pc = c.s.pc ∧ o.vd = vd ∧ o.ad = [] ∧ o.mask = c.s.K km.toNat ∧ o.kz = kz ∧ o.fin = true ∧
      o.vectors = vd.zip (val c.s) ∧ (∀ r, r ∈ vd → ∃ p, (e.slot c.h c.n).blockOf (rvn r) = some (.pending p)) ∧
      c.d.sends e (.resultLanding c.h c.n o.id) ∧ e.still = c.d.still
    Acts (.vcvtFp8 la dst src rnd km kz d a) ((useDA km kz d a).long la) (fun _ => True) [] [] []
      (post [d.toNat] (fun s => [ofLanes (fun l => conv dst src (s.mode rnd) s.ftz s.sat (s.ln a l))])) ∧
    Acts (.vcvtsc la dst src rnd km kz d a b) (((useDAB km kz d a b).also (wvn (d.toNat + 1))).long la) (fun _ => True) [] [] []
      (post [d.toNat, d.toNat + 1] (fun s =>
        [ofLanes (fun l => (convScale dst src (s.mode rnd) s.ftz (s.ln a l) (s.ln b l)).1),
         ofLanes (fun l => (convScale dst src (s.mode rnd) s.ftz (s.ln a l) (s.ln b l)).2)]))) ∧
  (∀ s : State, ∀ h n op : Nat, ∀ o : LongOp, n < 64 → s.dev.op? h n op = some o → o.fin = true → (o.vectors.map (·.1)).Nodup →
    ∃ t, exec (.resultLanding h n op) s = .next t ∧ (∀ a, t.mem.read a = s.mem.read a) ∧ t.dev.still = s.dev.still ∧
      (∀ h' n', ¬(h' = h ∧ n' = n) → t.dev.slot h' n' = s.dev.slot h' n') ∧
      let a := s.dev.slot h n
      let b := t.dev.slot h n
      b.pc = a.pc ∧ (∀ j, b.K j = a.K j) ∧ b.ops = a.ops.filter (fun x => x.id != op) ∧
      (∀ j, j ∉ o.vectors.map (·.1) → b.V j = a.V j) ∧ (∀ j, j ∉ o.ad → b.A j = a.A j) ∧
      (∀ e, e ∈ o.vectors → ∀ l, l < 16 → lane (b.V e.1) l =
        if o.mask.getLsbD l then lane e.2 l else if o.kz then 0#32 else lane (a.V e.1) l) ∧
      (∀ r, r ∈ o.ad → r ≠ 0 → b.A r = ((o.ares.find? (fun e => e.1 == r)).map (·.2)).getD 0#64))

/-! ### Local store -/

/-- R113, R119 and R130: loads of words, of word pairs and of an a-register from plain words of the local store. Nothing but the
destination changes; the slot's first presentation finds no residue.
R113, R119 and R130: stores into plain words of the local store. Every word but those stored to keeps its value, as do the tags and
everything else; where two lanes store to one word the higher lane's data stays; a stored word loses its poison (R362). -/
def Obligations.LocalAccesses : Prop :=
  (∀ kind : LKind, ∀ km : KReg, ∀ kz : Bool, ∀ d x : VReg, ∀ e base : AReg, ∀ off : BitVec 24,
    let at_ := fun (c : Ctx) step l => c.s.addr base x off step l
    let rd := fun (c : Ctx) (a : W64) => (c.d.core c.h).word a.toNat
    let ok := fun step (c : Ctx) => c.s.residue = [] ∧ ∀ l, l < 16 → (c.s.K km.toNat).getLsbD l = true → (at_ c step l).toNat % step = 0 ∧
      ∀ p, 4 * p < step → c.plainWord true (at_ c step l + BitVec.ofNat 64 (4 * p))
    let res := fun (c : Ctx) (b : Slot) (r : Nat) (val : Nat → W32) => ∀ l, l < 16 →
      lane (b.V r) l = if (c.s.K km.toNat).getLsbD l then val l else if kz then 0#32 else lane (c.s.V r) l
    CompletesWhen (.lld kind km kz d x base off) (useLoad km kz d x base) (ok 4) [] [d.toNat] []
      (fun c b => b.pc = c.s.pc + 8#64 ∧ res c b d.toNat (fun l => rd c (at_ c 4 l))) ∧
    CompletesWhen (.lldx kind km kz d x base off) ((useLoad km kz d x base).also (wvn (d.toNat + 1))) (ok 8) [] [d.toNat, d.toNat + 1] []
      (fun c b => b.pc = c.s.pc + 8#64 ∧ res c b d.toNat (fun l => rd c (at_ c 8 l)) ∧
        res c b (d.toNat + 1) (fun l => rd c (at_ c 8 l + 4#64))) ∧
    ReadsA (.ald kind e base off) (useA [wa e, ra base])
      (fun c => c.s.residue = [] ∧ (c.s.addr1 base off).toNat % 8 = 0 ∧ c.plainWord true (c.s.addr1 base off) ∧
        c.plainWord true (c.s.addr1 base off + 4#64)) e
      (fun c => rd c (c.s.addr1 base off + 4#64) ++ rd c (c.s.addr1 base off))) ∧
  (∀ kind : LKind, ∀ km : KReg, ∀ d x : VReg, ∀ e base : AReg, ∀ off : BitVec 24,
    let at_ := fun (s : Slot) step l => s.addr base x off step l
    let ok := fun step (c : Ctx) => c.s.residue = [] ∧ ∀ l, l < 16 → (c.s.K km.toNat).getLsbD l = true → (at_ c.s step l).toNat % step = 0 ∧
      ∀ p, 4 * p < step → c.plainWord false (at_ c.s step l + BitVec.ofNat 64 (4 * p))
    let res := fun (ws : Slot → List (Nat × W32)) (c : Ctx) (k : Core) (_ : Slot) =>
      ∀ a, a % 4 = 0 → k.word a = (storedAt (ws c.s) a).getD ((c.d.core c.h).word a) ∧
        ((storedAt (ws c.s) a).isSome → k.lsPoison.contains (a / 4) = false)
    CompletesOnCore (.lst kind km d x base off) (useStore km d x base) (ok 4) [] [] [] Core.noWords
      (res (fun s => (lanesOf (s.K km.toNat)).map (fun l => ((at_ s 4 l).toNat, s.ln d l)))) ∧
    CompletesOnCore (.lstx kind km d x base off) ((useStore km d x base).also (rvn (d.toNat + 1))) (ok 8) [] [] [] Core.noWords
      (res (fun s => (lanesOf (s.K km.toNat)).flatMap (fun l =>
        [((at_ s 8 l).toNat, s.ln d l), ((at_ s 8 l).toNat + 4, lane (s.V (d.toNat + 1)) l)]))) ∧
    CompletesOnCore (.ast kind e base off) (useA [ra e, ra base])
      (fun c => c.s.residue = [] ∧ (c.s.addr1 base off).toNat % 8 = 0 ∧ c.plainWord false (c.s.addr1 base off) ∧
        c.plainWord false (c.s.addr1 base off + 4#64)) [] [] [] Core.noWords
      (res (fun s => [((s.addr1 base off).toNat, (s.A e.toNat).setWidth 32), ((s.addr1 base off).toNat + 4, (s.A e.toNat).extractLsb' 32 32)])))

/-- R113 and R56's rule for data: an active lane of a local load or store whose address is no multiple of the form's size raises ALIGN
(0x05) with the lowest such lane's address, before anything is performed.
R113 and R148: a lane of a global load or store whose address is no multiple of the form's size raises ALIGN with the lowest such
lane's address. -/
def Obligations.MisalignedAccessesTrap : Prop :=
  (∀ kind : LKind, ∀ km : KReg, ∀ kz : Bool, ∀ d x : VReg, ∀ e base : AReg, ∀ off : BitVec 24, ∀ l : Nat,
    let first := fun step (c : Ctx) => c.s.residue = [] ∧ l < 16 ∧ (c.s.K km.toNat).getLsbD l = true ∧
      (c.s.addr base x off step l).toNat % step ≠ 0 ∧
      ∀ m, m < l → (c.s.K km.toNat).getLsbD m = true → (c.s.addr base x off step m).toNat % step = 0
    let one := fun (c : Ctx) => c.s.residue = [] ∧ (c.s.addr1 base off).toNat % 8 ≠ 0
    TrapsWhen (.lld kind km kz d x base off) (useLoad km kz d x base) (first 4) 0x05 (fun _ => 0) (fun c => c.s.addr base x off 4 l) ∧
    TrapsWhen (.lst kind km d x base off) (useStore km d x base) (first 4) 0x05 (fun _ => 0) (fun c => c.s.addr base x off 4 l) ∧
    TrapsWhen (.lldx kind km kz d x base off) ((useLoad km kz d x base).also (wvn (d.toNat + 1))) (first 8) 0x05 (fun _ => 0)
      (fun c => c.s.addr base x off 8 l) ∧
    TrapsWhen (.lstx kind km d x base off) ((useStore km d x base).also (rvn (d.toNat + 1))) (first 8) 0x05 (fun _ => 0)
      (fun c => c.s.addr base x off 8 l) ∧
    TrapsWhen (.ald kind e base off) (useA [wa e, ra base]) one 0x05 (fun _ => 0) (fun c => c.s.addr1 base off) ∧
    TrapsWhen (.ast kind e base off) (useA [ra e, ra base]) one 0x05 (fun _ => 0) (fun c => c.s.addr1 base off)) ∧
  (∀ la : BitVec 4, ∀ km : KReg, ∀ kz : Bool, ∀ d x : VReg, ∀ base : AReg, ∀ off : BitVec 24, ∀ l : Nat,
    let first := fun step (c : Ctx) => l < 16 ∧ (c.s.K km.toNat).getLsbD l = true ∧ (c.s.addr base x off step l).toNat % step ≠ 0 ∧
      ∀ m, m < l → (c.s.K km.toNat).getLsbD m = true → (c.s.addr base x off step m).toNat % step = 0
    let ad := fun step (c : Ctx) => c.s.addr base x off step l
    TrapsWhen (.gld la km kz d x base off) ((useLoad km kz d x base).long la) (first 4) 0x05 (fun _ => 0) (ad 4) ∧
    TrapsWhen (.gldx la km kz d x base off) (((useLoad km kz d x base).also (wvn (d.toNat + 1))).long la) (first 8) 0x05 (fun _ => 0) (ad 8) ∧
    TrapsWhen (.gst km d x base off) (useStore km d x base) (first 4) 0x05 (fun _ => 0) (ad 4) ∧
    TrapsWhen (.gstx km d x base off) ((useStore km d x base).also (rvn (d.toNat + 1))) (first 8) 0x05 (fun _ => 0) (ad 8))

/-- R119 and R120: one bank operation on a word of a region, by the action that the region's table gives for the kind of access and the
word's tag. Action 0 performs it; 1 leaves everything as it is, for the caller to park; 2 performs it at the same offset from a redirect base; 3 traps with BANKTRAP's sub-code; 4 completes
a load with the entry's code and drops a store.
R130: ltag and lpeek read tags and words without a table; stag writes tags, and touches no word. -/
def Obligations.BanksAndTags : Prop :=
  (∀ c : Core, ∀ a : Nat, ∀ k : BankKind, ∀ data : W32, ∀ key : Nat, ∀ g : W32,
    c.regionOf a = some (key, g) → c.sealedAt a = false → c.lsPoison.contains (a / 4) = false →
    let e := c.entry (rgnTbl g) (16 * k.code + (c.tag a).toNat)
    let marked := fun (x : Core) => if setTagOf e then x.setTag a (newTagOf e) else x
    (actOf e = 0 → k.load = true → c.bankStep a k data = (.out (c.word a), marked c, setTagOf e)) ∧
    (actOf e = 0 → k.load = false → c.bankStep a k data = (.out 0#32, marked (c.setWord a data), setTagOf e)) ∧
    (actOf e = 1 → c.bankStep a k data = (.parked (codeOf e), c, false)) ∧
    (actOf e = 2 → let p := c.rbase (rgnTbl g) (redirOf e) + (a - rgnBase g)
      (c.inLaunch (key / 16) p = false → c.bankStep a k data = (.trapped 0x04 3, c, false)) ∧
      (c.inLaunch (key / 16) p = true → k.load = true → c.lsPoison.contains (p / 4) = false →
        c.bankStep a k data = (.out (c.word p), marked c, setTagOf e)) ∧
      (c.inLaunch (key / 16) p = true → k.load = false → c.sealedAt p = false →
        c.bankStep a k data = (.out 0#32, marked (c.setWord p data), setTagOf e))) ∧
    (actOf e = 3 → c.bankStep a k data = (.trapped 0x10 (codeOf e + 16 * k.code + 128 * (c.tag a).toNat), c, false)) ∧
    (actOf e = 4 → ∃ w, c.bankStep a k data = (.out w, marked c, setTagOf e) ∧ w = 0xFFFFFFF0#32 ||| BitVec.ofNat 32 (codeOf e))) ∧
  (∀ km : KReg, ∀ kz : Bool, ∀ d x : VReg, ∀ base : AReg, ∀ off : BitVec 24,
    let at_ := fun (s : Slot) l => s.addr base x off 4 l
    let ok := fun (load : Bool) (c : Ctx) => (load = true → c.s.residue = []) ∧ ∀ l, l < 16 → (c.s.K km.toNat).getLsbD l = true →
      (at_ c.s l).toNat % 4 = 0 ∧ (at_ c.s l).toNat < 2 ^ 20 ∧ (c.d.core c.h).inLaunch c.s.lk (at_ c.s l).toNat = true ∧
      (c.d.core c.h).unrestored (at_ c.s l).toNat = false ∧
      if load then (c.d.core c.h).lsPoison.contains ((at_ c.s l).toNat / 4) = false
      else (c.d.core c.h).sealedAt (at_ c.s l).toNat = false ∧ ∀ p, p ∈ (c.d.core c.h).parked → p.addr ≠ (at_ c.s l).toNat
    let res := fun (c : Ctx) (b : Slot) (val : Nat → W32) => ∀ l, l < 16 →
      lane (b.V d.toNat) l = if (c.s.K km.toNat).getLsbD l then val l else if kz then 0#32 else lane (c.s.V d.toNat) l
    CompletesWhen (.ltag km kz d x base off) (useLoad km kz d x base) (ok true) [] [d.toNat] []
      (fun c b => b.pc = c.s.pc + 8#64 ∧ res c b (fun l => ((c.d.core c.h).tag (at_ c.s l).toNat).setWidth 32)) ∧
    CompletesWhen (.lpeek km kz d x base off) (useLoad km kz d x base) (ok true) [] [d.toNat] []
      (fun c b => b.pc = c.s.pc + 8#64 ∧ res c b (fun l => (c.d.core c.h).word (at_ c.s l).toNat)) ∧
    CompletesOnCore (.stag km d x base off) (useStore km d x base) (ok false) [] [] [] Core.noTags
      (fun c k _ => ∀ a, a % 4 = 0 → (k.tag a).setWidth 32 =
        ((storedAt ((lanesOf (c.s.K km.toNat)).map (fun l => ((at_ c.s l).toNat, c.s.ln d l &&& 0xF#32))) a).getD
          (((c.d.core c.h).tag a).setWidth 32))))

/-- R132 to R136 and R127: rgnset writes one descriptor of the slot's launch; tbld writes a group of the generation that is not in
force; tbsw has the named tables flip before the slot's next turn, and the flip exchanges their generations.
R135: tbrd writes all lanes from a group of the generation in force, or of the shadow; a table that is not supplied and bad selector
bits are TBLBAD 0x02. -/
def Obligations.RegionsAndTables : Prop :=
  ∀ a b : AReg, ∀ v : VReg,
    let ix := fun (c : Ctx) => 16 * c.s.lk + (c.s.A a.toNat).toNat
    let new := fun (c : Ctx) => BitVec.ofNat 32 (c.s.A b.toNat).toNat
    let old := fun (c : Ctx) => (c.d.core c.h).map.get 0#32 (ix c)
    let tn := fun (c : Ctx) => (c.s.A b.toNat).toNat % 8
    let gr := fun (c : Ctx) => (c.s.A b.toNat).toNat / 16 % 8
    let sup := fun (c : Ctx) n => (c.d.core c.h).supplied c.s.lk n = true
    CompletesOnCore (.rgnset a b) (useA [ra a, ra b])
      (fun c => (c.s.A a.toNat).toNat < 16 ∧ (rgnV (old c) = true → rgnRole (old c) = 0) ∧
        (rgnV (new c) = true → (c.d.core c.h).badRegion c.s.lk (c.s.A a.toNat).toNat (new c) = false) ∧ (c.d.core c.h).parked = [])
      [] [] [] (fun k => { k with map := .empty })
      (fun c k _ => k.map.get 0#32 (ix c) = new c ∧ ∀ j, j ≠ ix c → k.map.get 0#32 j = (c.d.core c.h).map.get 0#32 j) ∧
    CompletesOnCore (.tbld v b) (useV [v] [rv v, ra b])
      (fun c => (c.s.A b.toNat).toNat < 128 ∧ (c.s.A b.toNat).getLsbD 3 = false ∧ gr c ≤ 4 ∧ sup c (tn c) ∧
        (gr c < 4 → ∀ l, l < 16 → badEntry ((c.s.ln v l).setWidth 16) = false ∧ badEntry ((c.s.ln v l).extractLsb' 16 16) = false) ∧
        (gr c = 4 → ∀ l, l < 8 → badBase (c.s.ln v l) = false))
      [] [] [] (fun k => { k with gen0 := .empty, gen1 := .empty })
      (fun c k _ => (∀ m, k.gen m false = (c.d.core c.h).gen m false) ∧ (∀ m, m ≠ tn c → k.gen m true = (c.d.core c.h).gen m true) ∧
        (gr c < 4 → (k.gen (tn c) true).group (gr c) = c.s.V v.toNat) ∧
        (gr c = 4 → ∀ l, l < 8 → lane ((k.gen (tn c) true).group 4) l = c.s.ln v l)) ∧
    Acts (.tbsw a) (useA [ra a])
      (fun c => (c.s.A a.toNat).toNat < 256 ∧ (c.s.A a.toNat).getLsbD 0 = false ∧ c.s.A a.toNat ≠ 0#64 ∧
        ∀ n, n < 8 → (c.s.A a.toNat).getLsbD n = true → sup c n) [] [] []
      (fun c e => c.d.sendsAfter e 1 (.tableFlip c.h ((c.s.A a.toNat).setWidth 8)) ∧ e.still = c.d.still) ∧
    (∀ s h mask, (s.dev.core h).parked = [] → ∃ t, exec (.tableFlip h mask) s = .next t ∧ (∀ p, t.mem.read p = s.mem.read p) ∧
      OnlyCore s.dev t.dev h ∧ (∀ n, n < 8 → ∀ x, (t.dev.core h).gen n x = (s.dev.core h).gen n (x != mask.getLsbD n))) ∧
    CompletesWhen (.tbrd v b) (useV [v] [wv v, ra b])
      (fun c => (c.s.A b.toNat).toNat < 256 ∧ (c.s.A b.toNat).getLsbD 3 = false ∧ gr c ≤ 4 ∧ (tn c ≠ 0 → sup c (tn c))) [] [v.toNat] []
      (fun c d => d.pc = c.s.pc + 8#64 ∧ (tn c = 0 → d.V v.toNat = 0#512) ∧
        (tn c ≠ 0 → d.V v.toNat = ((c.d.core c.h).gen (tn c) ((c.s.A b.toNat).getLsbD 7)).group (gr c)) ∧
        (gr c = 4 → ∀ l, l < 16 → 8 ≤ l → lane (d.V v.toNat) l = 0#32)) ∧
    TrapsFree (.tbrd v b) (useV [v] [wv v, ra b])
      (fun c => 256 ≤ (c.s.A b.toNat).toNat ∨ (c.s.A b.toNat).getLsbD 3 = true ∨ 4 < gr c ∨ tn c ≠ 0 ∧ (c.d.core c.h).supplied c.s.lk (tn c) = false)
      0x11 (fun _ => 2)

/-! ### The neighbour link -/

/-- R101 and R102: linkw sends its source register to the neighbour in its direction, for the slot and register that A[b] names; linkw.arm
takes the oldest held write for its register, and else leaves the register awaiting.
R103 and R34: an arriving link write is discarded, and counted, where its slot is FREE, belongs to another launch or has no such
register; it lands in a register that awaits it from this neighbour; else it is held. No other register changes. While four are held it stands on
the link, and nothing of the core changes. -/
def Obligations.NeighbourLink : Prop :=
  (∀ dir : Dir, ∀ a d : VReg, ∀ b : AReg, ∀ t : Nat,
    let uw := useV [a] [rv a, ra b]
    let held := fun (c : Ctx) => ((c.d.core c.h).heldLink dir).find? (fun e => e.1 == c.n && e.2.1 == d.toNat && e.2.2.1 == c.s.lk)
    Acts (.linkw dir a b) uw
      (fun c => c.sure ∧ neighbour c.h dir = some t ∧ (c.d.terrace (terrOf c.s.lk)).has t = true ∧
        (c.d.core t).linkFull (Dir.flip dir) = false ∧ c.d.slotGroups c.h c.n = []) [] [] []
      (fun c e => c.d.sends e (.linkWriteArrival t (Dir.flip dir) ((c.s.A b.toNat).toNat % 64) ((c.s.A b.toNat).toNat / 256 % 128) c.s.lk
          (c.s.V a.toNat)) ∧ OnlyCore c.d e c.h) ∧
    WaitsWhen (.linkw dir a b) uw
      (fun c => c.sure ∧ neighbour c.h dir = some t ∧ (c.d.terrace (terrOf c.s.lk)).has t = true ∧
        (c.d.core t).linkFull (Dir.flip dir) = true) (fun _ => .link) ∧
    TrapsFree (.linkw dir a b) uw
      (fun c => c.sure ∧ ∀ t, neighbour c.h dir = some t → (c.d.terrace (terrOf c.s.lk)).has t = false) 0x21 (fun _ => 1) ∧
    Acts (.linkwArm dir d) (useV [d] [wv d]) (fun c => held c = none) [] [] []
      (fun c e => (e.slot c.h c.n).vst.get .present d.toNat = .awaiting dir ∧ e.still = c.d.still) ∧
    Acts (.linkwArm dir d) (useV [d] [wv d]) (fun c => (held c).isSome ∧ (c.d.core c.h).linkQueue dir = []) [] [d.toNat] []
      (fun c e => ∀ x, held c = some x → (e.slot c.h c.n).V d.toNat = x.2.2.2 ∧ (e.core c.h).heldLink dir = ((c.d.core c.h).heldLink dir).erase x)) ∧
  (∀ dst slot reg lk : Nat, ∀ src : Dir, ∀ v : V512,
    let i := Instr.linkWriteArrival dst src slot reg lk v
    let away := fun (d : Dev) => (d.slot dst slot).st = .free ∨ (d.slot dst slot).lk ≠ lk ∨ (d.slot dst slot).winCount ≤ reg
    let waits := fun (d : Dev) => (d.slot dst slot).vst.get .present reg = .awaiting src
    let open_ := fun (d : Dev) => d.savedSlot lk dst slot = none ∧ (d.core dst).linkQueue src = [] ∧ (d.core dst).linkFull src = false
    Event i (fun _ d => open_ d ∧ away d)
      (fun _ d e => (e.core dst).prof.get 0#64 512 = (d.core dst).prof.get 0#64 512 + 1#64 ∧
        (∀ h n j, (e.slot h n).V j = (d.slot h n).V j) ∧ (e.core dst).heldLink src = (d.core dst).heldLink src) ∧
    Event i (fun _ d => open_ d ∧ ¬away d ∧ waits d)
      (fun _ d e => (e.slot dst slot).V reg = v ∧ (e.slot dst slot).vst.get .present reg = .present ∧
        (∀ h n j, ¬(h = dst ∧ n = slot ∧ j = reg) → (e.slot h n).V j = (d.slot h n).V j)) ∧
    Event i (fun _ d => open_ d ∧ ¬away d ∧ ¬waits d)
      (fun _ d e => d.sameSlots e ∧ (e.core dst).heldLink src = (d.core dst).heldLink src ++ [(slot, reg, lk, v)]) ∧
    Event i (fun _ d => (d.core dst).linkFull src = true)
      (fun _ d e => d.sameSlots e ∧ (e.core dst).heldLink src = (d.core dst).heldLink src ∧
        (e.core dst).linkQueue src = (d.core dst).linkQueue src ++ [(slot, reg, lk, v)]))

/-! ### Global access -/

/-- R146 to R148: a gld or gldx of mapped, aligned lanes issues: it is outstanding with one access a lane, and each goes to the home of its
line. Its registers do not change before it lands.
R165 and R144: a load's read point at its home takes the line as it stands, under the slot's own bytes; memory does not change (the header
of an ldkr, whose checks come with it, apart).
R146 and R139: a gpf of one lane fills the L1 with its line; ginv takes the lines of its lanes out of the L1 and no other. -/
def Obligations.GlobalReads : Prop :=
  (∀ la : BitVec 4, ∀ km : KReg, ∀ kz : Bool, ∀ d x : VReg, ∀ base : AReg, ∀ off : BitVec 24, ∀ pa : Nat → Nat,
    let pre := fun step (c : Ctx) => c.s.kind ≠ .ordered ∧ c.bufferAway = false ∧ ∀ l, l < 16 → (c.s.K km.toNat).getLsbD l = true →
      let va := c.s.addr base x off step l
      va.toNat % step = 0 ∧ c.mapped [.r] va (pa l) ∧ (c.d.core c.h).l1.find? (lineOf va.toNat) = none
    let post := fun (vd : List Nat) step (c : Ctx) (e : Dev) => OnlyCoreAndQuays c.d e c.h ∧ ∃ o,
      o ∈ (e.slot c.h c.n).ops ∧ o.pc = c.s.pc ∧ o.vd = vd ∧ o.mask = c.s.K km.toNat ∧ o.kz = kz ∧
      o.acc.map (fun a => (a.lane, a.va, a.st)) =
        (lanesOf (c.s.K km.toNat)).map (fun l => (l, c.s.addr base x off step l, AccSt.home (pa l))) ∧
      ∀ j l, (lanesOf (c.s.K km.toNat))[j]? = some l → e.coming c.d.clock (.homeRead c.h c.n o.id j (pa l))
    Acts (.gld la km kz d x base off) ((useLoad km kz d x base).long la) (pre 4) [] [] [] (post [d.toNat] 4) ∧
    Acts (.gldx la km kz d x base off) (((useLoad km kz d x base).also (wvn (d.toNat + 1))).long la) (pre 8) [] [] []
      (post [d.toNat, d.toNat + 1] 8)) ∧
  (∀ h n op idx pa : Nat, ∀ o : LongOp, ∀ a : Acc,
    Event (.homeRead h n op idx pa)
      (fun _ d => d.op? h n op = some o ∧ o.acc[idx]? = some a ∧ a.st = .home pa ∧ d.pending pa = false ∧
        d.linePoison.contains (lineOf pa) = false ∧ (d.quay (d.slotFn h n) pa false).isSome = true ∧
        ((d.slot h n).ops.takeWhile (fun x => x.id != op)).any (fun x => x.reads a.va pa) = false ∧
        (idx = 0 → ∀ v off rot, o.kind ≠ .ldkr v off rot))
      (fun m _ e => ∃ o', e.op? h n op = some o' ∧
        o'.acc[idx]? = some { a with st := .got, line := Line.over (m.line (lineOf pa)) a.line a.own })) ∧
  (∀ km : KReg, ∀ x : VReg, ∀ base : AReg, ∀ off : BitVec 24, ∀ l pa : Nat,
    let u : Use := ⟨idxField x, [], idxUse x ++ [ra base, rk km], none, .all, false⟩
    let va := fun (c : Ctx) l => c.s.addr base x off 4 l
    Acts (.gpf km x base off) u
      (fun c => l < 16 ∧ c.s.K km.toNat = 1#16 <<< l ∧ (c.d.core c.h).l1.find? (lineOf (va c l).toNat) = none ∧ c.mapped [.r] (va c l) pa ∧
        c.d.pending pa = false ∧ c.d.linePoison.contains (lineOf pa) = false ∧ (c.d.quay (c.d.fnOf c.s.lk) pa false).isSome = true ∧
        c.d.wroteLine c.h (va c l).toNat = false ∧ (c.d.core c.h).l1.ents.length < 1024) [] [] []
      (fun c e => ∃ ln, (e.core c.h).l1.find? (lineOf (va c l).toNat) = some ln ∧ ln.data = c.m.line (lineOf pa) ∧ ln.sealed_ = false) ∧
    CompletesOnCore (.ginv km x base off) u (fun _ => True) [] [] [] (fun k => { k with l1 := .empty })
      (fun c k _ => (∀ j, j < 16 → (c.s.K km.toNat).getLsbD j = true → k.l1.find? (lineOf (va c j).toNat) = none) ∧
        ∀ a, (∀ j, j < 16 → (c.s.K km.toNat).getLsbD j = true → lineOf (va c j).toNat ≠ a) → k.l1.find? a = (c.d.core c.h).l1.find? a))

/-- R141, R143 and R146: a gst or gstx of mapped, aligned lanes enters the open records of the slot's buffer and no memory: each lane's
words stand in the record of their line, with their mask bytes set (the highest lane's where two lanes store to one word). Local words
outside the buffer keep their values. -/
def Obligations.GlobalStoresAreBuffered : Prop :=
  ∀ km : KReg, ∀ d x : VReg, ∀ base : AReg, ∀ off : BitVec 24,
    let va := fun (c : Ctx) step l => c.s.addr base x off step l
    let act := fun (c : Ctx) l => l < 16 ∧ (c.s.K km.toNat).getLsbD l = true
    let pre := fun step (c : Ctx) => c.s.kind ≠ .ordered ∧ c.bufferAway = false ∧
      (∀ l, act c l → (va c step l).toNat % step = 0 ∧ ∃ pa, c.mapped [.w] (va c step l) pa) ∧
      ((c.d.core c.h).dir.filter (fun e => e.buf == c.buffer.1)).length + 16 ≤ c.buffer.2 ∧
      ∀ e, e ∈ (c.d.core c.h).dir → e.buf = c.buffer.1 → e.rec_ < c.buffer.2
    let holds := fun (c : Ctx) (e : Dev) (a : W64) (v : W32) => ∃ r, r ∈ (e.core c.h).dir ∧ r.buf = c.buffer.1 ∧ r.va = lineOf a.toNat ∧
      r.gid = none ∧ r.task = 0#32 ∧ Line.w32 ((e.core c.h).recLine r.at) (a.toNat % 128) = v ∧
      ∀ i, i < 4 → ((e.core c.h).recMask r.at).getLsbD (a.toNat % 128 + i) = true
    let post := fun step (parts : Nat) (c : Ctx) (e : Dev) => OnlyCoreAndQuays c.d e c.h ∧
      (∀ a, (a + 4 ≤ c.buffer.1 ∨ c.buffer.1 + 256 * c.buffer.2 ≤ a) → (e.core c.h).word a = (c.d.core c.h).word a) ∧
      ∀ l, act c l → (∀ m, act c m → l < m → va c step m ≠ va c step l) → ∀ p, p < parts →
        holds c e (va c step l + BitVec.ofNat 64 (4 * p)) (lane (c.s.V (d.toNat + p)) l)
    Acts (.gst km d x base off) (useStore km d x base) (pre 4) [] [] [] (post 4 1) ∧
    Acts (.gstx km d x base off) ((useStore km d x base).also (rvn (d.toNat + 1))) (pre 8) [] [] [] (post 8 2)

/-- R142: phase one marks a group's lines pending at a home and acknowledges; the acknowledgement sends the group to its next home, or
after the last one releases it to all of them. Memory does not change.
R142: the release of a group at a home writes exactly the bytes that the masks of its lines there name, all in one step (a group of
ordinary stores, whose function keeps no log). -/
def Obligations.GroupRelease : Prop :=
  (∀ g q : Nat, ∀ x : Grp,
    Event (.groupPhaseOne g q)
      (fun _ d => d.groups.find? (fun y => y.id == g) = some x ∧ (∀ l, l ∈ x.at q → d.pending l.pa = false ∧ d.hostLines.contains l.pa = false) ∧
        d.queuedAhead q g (x.at q) = false)
      (fun _ d e => (e.home q).pend = (d.home q).pend ++ (x.at q).map (fun l => (l.pa, g)) ∧ d.sends e (.phaseOneAck g q) ∧
        ∀ h n, e.slot h n = d.slot h n) ∧
    (∀ q' rest, Event (.phaseOneAck g q)
      (fun _ d => d.groups.find? (fun y => y.id == g) = some x ∧ x.homes = q :: q' :: rest ∧ q' ≠ q)
      (fun _ d e => d.sends e (.groupPhaseOne g q') ∧ d.sameSlots e)) ∧
    Event (.phaseOneAck g q)
      (fun _ d => d.groups.find? (fun y => y.id == g) = some x ∧ x.homes = [q] ∧ x.lines ≠ [])
      (fun _ d e => (∀ p, p ∈ homesOf x.lines → e.coming d.clock (.groupRelease g p)) ∧
        ∃ y, y ∈ e.groups ∧ y.id = g ∧ y.phase = .two ∧ y.rel = homesOf x.lines)) ∧
  (∀ s : State, ∀ g q : Nat, ∀ x : Grp,
    s.dev.groups.find? (fun y => y.id == g) = some x → x.phase = .two → x.rel.contains q = true →
    (∀ f, f ∈ x.fin → (∃ h n, f = .slot h n) ∨ f = .nothing) →
    (∀ l, l ∈ x.at q → l.pa % 128 = 0 ∧ isDoorbell l.pa = false) → ((x.at q).map (·.pa)).Nodup →
    (s.dev.visit x.fn true ((x.at q).map (·.pa))).2 = true → (s.dev.func x.fn).logOn = false →
    ∃ t, exec (.groupRelease g q) s = .next t ∧ ∀ a, t.mem.read a =
      match (x.at q).find? (fun l => l.pa == lineOf a && l.mask.getLsbD (a % 128)) with
      | some l => Line.byte l.data (a % 128)
      | none => s.mem.read a)

/-! ### Leases, atomics, fences -/

/-- R150 to R152: a lease asks the home of its line; the home grants a line that nobody holds; the grant's shadow is the line, its bound the
class's.
R153 and R156: at the end of its bound a granted record breaks with reason 1, LB is set, and the line's home gets a notice; the notice
takes the holder off. -/
def Obligations.Leases : Prop :=
  (∀ la : BitVec 4, ∀ cls : LeaseCls, ∀ d base : AReg, ∀ off : BitVec 24, ∀ pa : Nat, ∀ r : LeaseReq, ∀ data : Line, ∀ l : LeaseRec,
    let a := fun (c : Ctx) => c.s.addr1 base off
    let arrives := fun (d : Dev) => r.amo = none ∧ (∀ y, y ∈ (d.home (homeOf r.pa)).holders → y.pa ≠ r.pa) ∧
      (∀ y, y ∈ (d.home (homeOf r.pa)).leaseQ → y.pa ≠ r.pa) ∧ d.pending r.pa = false ∧
      (d.quay (d.slotFn r.h r.n) r.pa false).isSome = true ∧
      (d.home (homeOf r.pa)).leaseQ.length + (d.home (homeOf r.pa)).holders.length < 64
    let granted := fun (m : Memory) (d e : Dev) => d.sends e (.leaseGrant r (m.line r.pa)) ∧
      (e.home (homeOf r.pa)).holders = (d.home (homeOf r.pa)).holders ++ [r] ∧ d.sameSlots e
    Acts (.lease la cls d base off) ((useA [wa d, ra base]).long la)
      (fun c => c.sure ∧ (a c).toNat % 8 = 0 ∧ c.s.leases.length < 2 ∧
        (c.d.core c.h).slots.ents.foldl (fun k e => k + e.2.leases.length) 0 < 16 ∧
        (∀ x, x ∈ c.s.leases → x.va < lineOf (a c).toNat) ∧ c.mapped [.r, .w, .a] (a c) pa) [] [] []
      (fun c e => c.d.sends e (.leaseRequestArrival ⟨c.h, c.n, lineOf (a c).toNat, lineOf pa, none⟩) ∧ e.still = c.d.still ∧
        (e.slot c.h c.n).leases.length = c.s.leases.length + 1 ∧ ∃ x o, x ∈ (e.slot c.h c.n).leases ∧ x.va = lineOf (a c).toNat ∧ x.pa = lineOf pa ∧ x.cls = cls ∧ x.granted = false ∧
          x.broken = false ∧ (e.slot c.h c.n).ops = c.s.ops ++ [o] ∧ o.ad = [d.toNat]) ∧
    Event (.leaseRequestArrival r) (fun _ => arrives) granted ∧ Event (.leaseRetry r) (fun _ => arrives) granted ∧
    Event (.leaseGrant r data)
      (fun _ d => (d.slot r.h r.n).leases.find? (fun x => x.va == r.va && !x.granted) = some l ∧ l.broken = false ∧ r.h < nCores ∧
        d.linePoison.contains r.pa = false)
      (fun _ d e => (∃ x, x ∈ (e.slot r.h r.n).leases ∧ x.va = r.va ∧ x.pa = r.pa ∧ x.granted = true ∧ x.broken = false ∧ x.shadow = data ∧
          x.mask = 0#128 ∧ x.expiry = d.clock + (match l.cls with | .short => 64 | .medium => 256 | .long => 1024)) ∧
        (e.slot r.h r.n).il = true ∧ (e.slot r.h r.n).lb = false ∧ (e.core r.h).l1.find? (lineOf r.va) = none ∧
        e.agenda = .ev (.resultLanding r.h r.n l.op) :: d.agenda)) ∧
  (∀ h n va : Nat, ∀ r : LeaseReq, ∀ l : LeaseRec,
    Event (.leaseExpiry h n va)
      (fun _ d => l ∈ (d.slot h n).leases ∧ l.va = va ∧ l.granted = true ∧ l.broken = false ∧ l.expiry ≤ d.clock)
      (fun _ d e => (e.slot h n).lb = true ∧ (∀ x, x ∈ (e.slot h n).leases → x.va = va → x.granted = true → x.expiry ≤ d.clock → x.broken = true) ∧
        { l with broken := true, why := 1 } ∈ (e.slot h n).leases ∧ (e.slot h n).pc = (d.slot h n).pc ∧
        e.coming d.clock (.breakNotice ⟨h, n, va, l.pa, none⟩)) ∧
    Event (.breakNotice r) (fun _ d => ∀ y, y ∈ (d.home (homeOf r.pa)).leaseQ → y.pa ≠ r.pa)
      (fun _ d e => (e.home (homeOf r.pa)).holders = (d.home (homeOf r.pa)).holders.filter (fun y => !(y.pa == r.pa && y.h == r.h && y.n == r.n)) ∧
        d.sameSlots e))

/-- R152 and R155: sld and sst act on the shadows of granted records and on nothing else; lstat reads a record. A lane without a record
raises LEASEFLT 0x02.
R154: release of an unbroken record writes 1 and sends the shadow's written bytes as a group of one line; of a broken one, or of a line
without a record, it writes 0 and sends nothing. The record goes in both cases. -/
def Obligations.LeasedData : Prop :=
  (∀ km : KReg, ∀ kz : Bool, ∀ d x : VReg, ∀ e base : AReg, ∀ off : BitVec 24, ∀ l : Nat,
    let va := fun (s : Slot) l => s.addr base x off 4 l
    let ok := fun (c : Ctx) => ∀ l, l < 16 → (c.s.K km.toNat).getLsbD l = true → (va c.s l).toNat % 4 = 0 ∧
      ∃ r, c.s.recFor (va c.s l) = some r ∧ r.granted = true
    CompletesWhen (.sld km kz d x base off) (useLoad km kz d x base) ok [] [d.toNat] []
      (fun c b => b.pc = c.s.pc + 8#64 ∧ ∀ l, l < 16 → lane (b.V d.toNat) l =
        if (c.s.K km.toNat).getLsbD l then (match c.s.recFor (va c.s l) with | some r => Line.w32 r.shadow ((va c.s l).toNat % 128) | none => 0#32)
        else if kz then 0#32 else lane (c.s.V d.toNat) l) ∧
    Acts (.sst km d x base off) (useStore km d x base)
      (fun c => ok c ∧ l < 16 ∧ (c.s.K km.toNat).getLsbD l = true ∧ ∀ m, m < 16 → l < m → (c.s.K km.toNat).getLsbD m = true → va c.s m ≠ va c.s l)
      [] [] []
      (fun c e => e.still = c.d.still ∧ (e.slot c.h c.n).leases.length = c.s.leases.length ∧ ∃ r, (e.slot c.h c.n).recFor (va c.s l) = some r ∧
        Line.w32 r.shadow ((va c.s l).toNat % 128) = c.s.ln d l ∧ ∀ i, i < 4 → r.mask.getLsbD ((va c.s l).toNat % 128 + i) = true) ∧
    ReadsA (.lstat e base) (useA [wa e, ra base]) (fun _ => True) e
      (fun c => match c.s.recFor (c.s.A base.toNat) with | some r => r.stat c.d.clock | none => 0#64) ∧
    TrapsWhen (.sld km kz d x base off) (useLoad km kz d x base)
      (fun c => (∀ m, m < 16 → (c.s.K km.toNat).getLsbD m = true → (va c.s m).toNat % 4 = 0) ∧ l < 16 ∧ (c.s.K km.toNat).getLsbD l = true ∧
        c.s.recFor (va c.s l) = none ∧ ∀ m, m < l → (c.s.K km.toNat).getLsbD m = true → (c.s.recFor (va c.s m)).isSome = true)
      0x32 (fun _ => 2) (fun c => va c.s l)) ∧
  (∀ d a : AReg,
    let ln := fun (c : Ctx) => lineOf (c.s.A a.toNat).toNat
    let rc := fun (c : Ctx) => c.s.recFor (c.s.A a.toNat)
    let ok := fun (c : Ctx) => c.quiet ∧ c.s.kind ≠ .ordered ∧ ∀ x, x ∈ c.s.leases → x.va = ln c → x.granted = true
    let left := fun (c : Ctx) (e : Dev) => (e.slot c.h c.n).leases = c.s.leases.filter (fun x => x.va != ln c)
    Acts (.release d a) (useA [wa d, ra a]) (fun c => ok c ∧ ∃ r, rc c = some r ∧ r.broken = false) [d.toNat] [] []
      (fun c e => (d ≠ 0#4 → (e.slot c.h c.n).A d.toNat = 1#64) ∧ left c e ∧
        ∀ r, rc c = some r → ∃ g, g ∈ e.groups ∧ g.lines = [⟨ln c, r.pa, r.shadow, r.mask, none⟩] ∧ g.fin = [.slot c.h c.n, .lease r.pa] ∧
          g.after = c.d.lastGroup c.h c.n) ∧
    Acts (.release d a) (useA [wa d, ra a]) (fun c => ok c ∧ ∀ r, rc c = some r → r.broken = true) [d.toNat] [] []
      (fun c e => (d ≠ 0#4 → (e.slot c.h c.n).A d.toNat = 0#64) ∧ left c e ∧ e.groups = c.d.groups))

/-- R157: an amo whose group is empty asks for its line; at the grant the new value leaves as a group of one line, and the old value waits
for that group to be visible. The values, on 32 and 64 bits. -/
def Obligations.Atomics : Prop :=
  ∀ la : BitVec 4, ∀ op : AmoOp, ∀ w64 : Bool, ∀ d x base : AReg, ∀ off : BitVec 24, ∀ pa : Nat, ∀ r : LeaseReq, ∀ data : Line, ∀ o : LongOp,
    let a := fun (c : Ctx) => c.s.addr1 base off
    Acts (.amo la op w64 d x base off) ((useA [wa d, ra d, ra x, ra base]).long la)
      (fun c => c.sure ∧ c.openRecs = [] ∧ c.s.winStores = [] ∧ (a c).toNat % (if w64 then 8 else 4) = 0 ∧ c.s.recFor (a c) = none ∧
        c.mapped [.r, .w, .a] (a c) pa) [] [] []
      (fun c e => e.still = c.d.still ∧ ∃ o, (e.slot c.h c.n).ops = c.s.ops ++ [o] ∧ o.ad = [d.toNat] ∧
        o.kind = .amo op w64 (c.s.A x.toNat) (c.s.A d.toNat) ∧
        c.d.sends e (.leaseRequestArrival ⟨c.h, c.n, lineOf (a c).toNat, lineOf pa, some o.id⟩)) ∧
    (∀ id w X C, Event (.amoGrant r data)
      (fun _ d => r.amo = some id ∧ d.op? r.h r.n id = some o ∧ o.kind = .amo op w X C ∧ (d.slot r.h r.n).kind ≠ .ordered ∧
        d.linePoison.contains r.pa = false)
      (fun _ _ e => ∃ g, g ∈ e.groups ∧
        let at_ := o.addr.toNat % 128
        let old : W64 := if w then Line.w64 data at_ else (Line.w32 data at_).setWidth 64
        let new : Nat := if w then (amoValue 64 op old X C).toNat else (amoValue 32 op (Line.w32 data at_) (X.setWidth 32) (C.setWidth 32)).toNat
        g.lines = [⟨r.va, r.pa, BitVec.ofNat 1024 (new * 2 ^ (8 * at_)), BitVec.ofNat 128 ((2 ^ (if w then 8 else 4) - 1) * 2 ^ at_), none⟩] ∧
        g.fin = [.slot r.h r.n, .amo r.h r.n o.id old r.pa])) ∧
    (∀ n, ∀ y z c : BitVec n,
      amoValue n .add y z c = y + z ∧ amoValue n .and y z c = y &&& z ∧ amoValue n .or y z c = y ||| z ∧ amoValue n .xor y z c = y ^^^ z ∧
      (amoValue n .min y z c).toInt = min y.toInt z.toInt ∧ (amoValue n .max y z c).toInt = max y.toInt z.toInt ∧
      (amoValue n .minu y z c).toNat = min y.toNat z.toNat ∧ (amoValue n .maxu y z c).toNat = max y.toNat z.toNat ∧
      amoValue n .swap y z c = z ∧ amoValue n .cas y z c = if y = c then z else y)

/-- R158 to R160 and R166, R167: fences, commit and isync where nothing of the slot is outstanding: a release has nothing to wait for, an
acquire of a scope wider than the core leaves only sealed lines in the L1; isync empties the core's instruction cache. -/
def Obligations.FencesCommitIsync : Prop :=
  ∀ sem : Sem, ∀ scope : Scope,
    let keeps := fun (x : CLine) => scope = .core ∨ sem = .rel ∨ x.sealed_ = true
    let acq := fun (c : Ctx) (k : Core) => (∀ a x, k.l1.find? a = some x → keeps x) ∧
      ∀ a x, (c.d.core c.h).l1.find? a = some x → keeps x → k.l1.find? a = some x
    CompletesOnCore (.fence sem scope) (useA []) (fun c => c.quiet ∧ c.s.loading = false) [] [] [] (fun k => { k with l1 := .empty })
      (fun c k _ => acq c k) ∧
    CompletesWhen .commit (useA []) (fun c => c.openRecs = [] ∨ c.s.spec = true) [] [] [] (fun c b => b.pc = c.s.pc + 8#64) ∧
    CompletesOnCore .isync (useA []) (fun c => c.d.slotGroups c.h c.n = []) [] [] [] (fun k => { k with ic := .empty })
      (fun _ k b => k.ic = .empty ∧ b.stream = [])

/-! ### Barriers and objects -/

/-- R176, R177, R180: bini makes a barrier the launch's; bexp sets the expected count, bclr frees a barrier without waiters, and bphs reads
its two words. Nothing else of the core changes.
R177 and R180: an arrival at a core is counted there and tested: when nothing is pending and the count reaches what is expected, the
phase flips and the count drops; the slot that arrived is answered. barr first sends its arrival and waits, and completes with the
answer; a refused arrival traps with BARCFG.
R180: bwait goes on, as an acquire, once the barrier's phase is the one given, and reads word 0; until then it waits. barw waits for the
end of the phase it arrived in.
R177, R178 and R223: a report of bytes that a command still owes is taken from its barrier's pending count. -/
def Obligations.Barriers : Prop :=
  (∀ bar : BitVec 9, ∀ a d : AReg, ∀ part : Bool,
    let b := bar.toNat
    let x := fun (c : Ctx) => (c.d.core c.h).bar b
    let v := fun (c : Ctx) => c.s.A a.toNat
    let idle := fun (c : Ctx) => (c.d.core c.h).barWaited b = false ∧ (x c).pend = 0
    let own := fun (c : Ctx) => (x c).owner = some c.s.lk
    let others := fun (c : Ctx) (k : Core) => ∀ j, j ≠ b → k.bar j = (c.d.core c.h).bar j
    let bars := fun (k : Core) => ({ k with bars := .empty } : Core)
    CompletesOnCore (.bini bar a) (useA [ra a]) (fun c => (v c).toNat < 2 ^ 16 ∧ ((x c).owner = none ∨ own c ∧ idle c)) [] [] [] bars
      (fun c k _ => k.bar b = ⟨BitVec.ofNat 16 (v c).toNat, 0, (x c).pend, (x c).ph, false, 0, 0, some c.s.lk⟩ ∧ others c k) ∧
    Acts (.bexp bar a) (useA [ra a]) (fun c => own c ∧ (v c).toNat < 2 ^ 16) [] [] []
      (fun c e => OnlyCore c.d e c.h ∧ others c (e.core c.h) ∧
        let y : Bar := { x c with exp := BitVec.ofNat 16 (v c).toNat }
        (e.core c.h).bar b = if y.pend = 0 ∧ y.exp ≠ 0#16 ∧ y.exp.toNat ≤ y.arr.toNat then { y with arr := y.arr - y.exp, ph := !y.ph } else y) ∧
    CompletesOnCore (.bclr bar) (useA []) (fun c => own c ∧ idle c) [] [] [] bars (fun c k _ => k.bar b = .init ∧ others c k) ∧
    ReadsA (.bphs bar part d) (useA [wa d]) own d (fun c =>
      if part then BitVec.ofNat 64 ((x c).exp.toNat + 2 ^ 16 * ((x c).pend % 2 ^ 32))
      else BitVec.ofNat 64 ((if (x c).ph then 1 else 0) + (if (x c).err then 2 else 0) + 4 + 2 ^ 16 * (x c).arr.toNat +
        2 ^ 32 * (x c).code.toNat + 2 ^ 48 * (x c).det.toNat))) ∧
  (∀ bar : BitVec 9, ∀ a : AReg, ∀ t b h n sub : Nat,
    let tgt := fun (c : Ctx) => if a = 0#4 then c.h else (c.s.A a.toNat).toNat
    let ok := fun (c : Ctx) => c.sure ∧ tgt c < 4096 ∧ ∃ l, c.d.launch? c.s.lk = some l ∧ l.has (tgt c) = true
    let x := fun (d : Dev) => (d.core t).bar b
    Event (.barrierArrival t b h n)
      (fun _ d => d.isSaved (d.slot h n).lk t = false ∧ (x d).owner = some (d.slot h n).lk ∧ (x d).arr ≠ 0xFFFF#16)
      (fun _ d e => let y := { x d with arr := (x d).arr + 1 }
        (e.core t).bar b = (if y.pend = 0 ∧ y.exp ≠ 0#16 ∧ y.exp.toNat ≤ y.arr.toNat then { y with arr := y.arr - y.exp, ph := !y.ph } else y) ∧
        e.coming d.clock (.barrierAck h n 0)) ∧
    Event (.barrierArrival t b h n)
      (fun _ d => d.isSaved (d.slot h n).lk t = false ∧ (x d).owner = none)
      (fun _ d e => d.sends e (.barrierAck h n 1) ∧ (e.core t).bar b = x d) ∧
    Event (.barrierAck h n sub) (fun _ d => (d.slot h n).reply = .sent ∧ h < nCores)
      (fun _ _ e => (e.slot h n).reply = if sub = 0 then .done 0#64 else .fail 0x40 sub) ∧
    WaitsWhen (.barr bar a) (useA [ra a]) (fun c => ok c ∧ c.quiet ∧ c.s.reply = .idle) (fun _ => .ack) ∧
    (∀ s h n w, s.issues h n w (useA [ra a]) → ok (s.ctx h n w) → (s.ctx h n w).quiet → (s.dev.slot h n).reply = .idle →
      ∃ u, exec (.barr bar a) s = .next u ∧
        (tgt (s.ctx h n w) ≠ h → u.dev.coming s.dev.clock (.barrierArrival (tgt (s.ctx h n w)) bar.toNat h n)) ∧
        (tgt (s.ctx h n w) = h → s.dev.isSaved (s.dev.slot h n).lk h = false →
          let z := (s.dev.core h).bar bar.toNat
          z.owner = some (s.dev.slot h n).lk → z.arr ≠ 0xFFFF#16 → u.dev.coming s.dev.clock (.barrierAck h n 0) ∧
            let y := { z with arr := z.arr + 1 }
            (u.dev.core h).bar bar.toNat =
              (if y.pend = 0 ∧ y.exp ≠ 0#16 ∧ y.exp.toNat ≤ y.arr.toNat then { y with arr := y.arr - y.exp, ph := !y.ph } else y))) ∧
    (∀ v, CompletesWhen (.barr bar a) (useA [ra a]) (fun c => ok c ∧ c.s.reply = .done v) [] [] [] (fun c s => s.pc = c.s.pc + 8#64)) ∧
    TrapsWhen (.barr bar a) (useA [ra a]) (fun c => ok c ∧ c.s.reply = .fail 0x40 sub) 0x40 (fun _ => sub)
      (fun c => BitVec.ofNat 64 (if tgt c = c.h then bar.toNat else tgt c * 512 + bar.toNat))) ∧
  (∀ bar : BitVec 9, ∀ d a : AReg,
    let b := bar.toNat
    let x := fun (c : Ctx) => (c.d.core c.h).bar b
    let own := fun (c : Ctx) => (x c).owner = some c.s.lk
    let takes := fun (y : Ctx → Bar) (c : Ctx) (e : Dev) =>
      (d ≠ 0#4 → (e.slot c.h c.n).A d.toNat = (y c).word0) ∧ (e.slot c.h c.n).ap = false ∧
      ∀ p l, (e.core c.h).l1.find? p = some l → l.sealed_ = true
    Acts (.bwait bar d a) (useA [wa d, ra a]) (fun c => own c ∧ (x c).ph = (c.s.A a.toNat).getLsbD 0 ∧ c.s.loading = false ∧ c.s.ap = false)
      [d.toNat] [] [] (takes x) ∧
    WaitsWhen (.bwait bar d a) (useA [wa d, ra a]) (fun c => own c ∧ (x c).ph ≠ (c.s.A a.toNat).getLsbD 0) (fun _ => .barrier b) ∧
    Acts (.barw bar d) (useA [wa d])
      (fun c => c.sure ∧ own c ∧ c.s.ap = true ∧ (x c).ph ≠ c.s.resPh ∧ c.s.loading = false) [d.toNat] [] [] (takes x) ∧
    WaitsWhen (.barw bar d) (useA [wa d]) (fun c => c.sure ∧ own c ∧ c.s.ap = true ∧ (x c).ph = c.s.resPh) (fun _ => .barrier b) ∧
    (∀ i, (i = Instr.bwait bar d a ∨ i = .bexp bar a) → TrapsWhen i (if i = .bwait bar d a then useA [wa d, ra a] else useA [ra a])
      (fun c => (x c).owner = none) 0x40 (fun _ => 1) (fun _ => BitVec.ofNat 64 b))) ∧
  (∀ h seq bytes : Nat, ∀ cq : Bool, ∀ c : Cmd,
    Event (.engineReport h cq seq bytes)
      (fun _ d => d.savedCmd h cq seq = false ∧ d.cmd? h cq seq = some c ∧ c.total ≠ 1 ∧ 0 < bytes ∧ bytes ≤ c.left ∧ bytes < ((d.core h).bar c.bar).pend)
      (fun _ d e => ((e.core h).bar c.bar).pend = ((d.core h).bar c.bar).pend - bytes ∧
        ((e.core h).bar c.bar).arr = ((d.core h).bar c.bar).arr ∧ ((e.core h).bar c.bar).ph = ((d.core h).bar c.bar).ph))

/-- R184 to R188: an object is declared from its shape record, sealed, copied, opened again and freed; ostat reads it.
R188: a core that drops the lines of an extent keeps every line outside it; the last of the cores that a form named completes the form. -/
def Obligations.Objects : Prop :=
  (∀ obj : BitVec 6, ∀ a b c' d : AReg,
    let o := obj.toNat
    let x := fun (c : Ctx) => (c.d.core c.h).obj o
    let own := fun (c : Ctx) (st : ObjSt) => (x c).st = st ∧ (x c).owner = c.s.lk
    let objs := fun (k : Core) => ({ k with objs := .empty } : Core)
    let others := fun (c : Ctx) (k : Core) => ∀ j, j ≠ o → k.obj j = (c.d.core c.h).obj j
    let w := fun (c : Ctx) i => (c.d.core c.h).word ((c.s.A a.toNat).toNat + 4 * i)
    let noLines := fun (c : Ctx) => ∀ e, e ∈ c.d.cores.ents → e.2.l1.ents = []
    CompletesOnCore (.odecl obj a) (useA [ra a])
      (fun c => (x c).st = .free ∧ (c.s.A a.toNat).toNat % 32 = 0 ∧ (c.s.A a.toNat).toNat < 2 ^ 20 ∧
        (c.d.core c.h).inLaunch c.s.lk (c.s.A a.toNat).toNat = true ∧ (c.d.core c.h).lsPoison = [] ∧ (c.d.core c.h).lsTodo = [] ∧
        shapeOk (w c) (shapeOf (w c) c.s.lk) = true ∧
        (∃ e, (c.d.core c.h).regionOf (shapeOf (w c) c.s.lk).base = some e ∧ e.1 / 16 = c.s.lk ∧ rgnRole e.2 = 0 ∧
          (shapeOf (w c) c.s.lk).base + (shapeOf (w c) c.s.lk).bytes ≤ rgnEnd e.2) ∧ (c.d.core c.h).objs.ents = [])
      [] [] [] objs
      (fun c k _ => k.obj o = { Obj.init with
          st := .open_, base := (w c 0).toNat, rows := (w c 1).toNat % 65536, cols := (w c 1).toNat / 65536, etype := (w c 2).toNat % 256,
          pitch := (w c 3).toNat, trows := (w c 4).toNat % 65536, tcols := (w c 4).toNat / 65536, owner := c.s.lk } ∧ others c k) ∧
    CompletesOnCore (.oseal obj) (useA []) (fun c => own c .open_) [] [] [] objs (fun c k _ => k.obj o = { x c with st := .sealed_ } ∧ others c k) ∧
    CompletesOnCore (.oreopen obj) (useA []) (fun c => own c .sealed_ ∧ (x c).ref = 0 ∧ (c.s.reply = .done 0#64 ∨ c.s.reply = .idle ∧ noLines c))
      [] [] [] objs (fun c k _ => k.obj o = { x c with st := .open_, drops := 0 } ∧ others c k) ∧
    CompletesOnCore (.ofree obj) (useA [])
      (fun c => own c .open_ ∨ own c .sealed_ ∧ (x c).ref = 0 ∧ (c.s.reply = .done 0#64 ∨ c.s.reply = .idle ∧ noLines c))
      [] [] [] objs (fun c k _ => (k.obj o).st = .free ∧ others c k) ∧
    ReadsA (.ostat obj d) (useA [wa d]) (fun _ => True) d (fun c => (x c).stat c.s.lk) ∧
    Acts (.ocopy obj a b c') (useA [ra a, ra b, ra c'])
      (fun c => c.sure ∧ own c .sealed_ ∧ (c.s.A a.toNat).toNat < 4096 ∧
        (∃ l, c.d.launch? c.s.lk = some l ∧ l.has (c.s.A a.toNat).toNat = true) ∧ (c.s.A b.toNat).toNat % 4 = 0 ∧
        (c.s.A b.toNat).toNat + (x c).bytes ≤ 2 ^ 20 ∧ (c.s.A b.toNat).toNat < 2 ^ 20 ∧ (x c).ref < 0xFFFF ∧ (c.s.A c'.toNat).toNat < 512 ∧
        ((c.d.core c.h).bar (c.s.A c'.toNat).toNat).owner = some c.s.lk ∧ ((c.d.core c.h).eq true).depth < 32 ∧
        ((c.d.core c.h).bar (c.s.A c'.toNat).toNat).pend + (x c).bytes < 2 ^ 32) [] [] []
      (fun c e => OnlyCore c.d e c.h ∧ (e.core c.h).obj o = { x c with ref := (x c).ref + 1 } ∧
        ((e.core c.h).bar (c.s.A c'.toNat).toNat).pend = ((c.d.core c.h).bar (c.s.A c'.toNat).toNat).pend + (x c).bytes ∧
        ∃ y, ((e.core c.h).eq true).q = ((c.d.core c.h).eq true).q ++ [y] ∧ y.bar = (c.s.A c'.toNat).toNat ∧ y.left = (x c).bytes ∧
          y.oc = some ⟨o, (x c).base, (x c).bytes, (c.s.A a.toNat).toNat, (c.s.A b.toNat).toNat⟩) ∧
    (∀ i st, (i = Instr.oseal obj ∧ st = ObjSt.free ∨ i = .oreopen obj ∧ st = .open_) →
      TrapsWhen i (useA []) (fun c => (x c).st = st ∧ ((x c).st ≠ .free → (x c).owner = c.s.lk)) 0x41
        (fun _ => if i = .oseal obj then 2 else 4) (fun _ => BitVec.ofNat 64 o))) ∧
  (∀ h src n lo len : Nat, ∀ x : Shoot,
    Event (.sealedLineDrop h src n lo len)
      (fun _ d => d.shoots.find? (fun y => y.h == src && y.n == n && y.lo == lo && y.len == len && y.cores.contains h) = some x ∧
        x.cores = [h] ∧ src < nCores ∧ (d.slot src n).reply ≠ .stale)
      (fun _ d e => (e.slot src n).reply = .done 0#64 ∧ (∀ a, lineOf lo ≤ a → a < lo + len → (e.core h).l1.find? a = none) ∧
        ∀ a, (a < lineOf lo ∨ lo + len ≤ a) → (e.core h).l1.find? a = (d.core h).l1.find? a))

/-! ### Tasks -/

/-- R193 and R203: tqcfg sets up the core's queue unit from lanes 0 to 7 of its register; tqstat reads a queue's counts.
R195, R200 and R202: a push form sends its descriptors and skips turns; it completes once every one is accepted. A queue with room on
chip accepts a descriptor under an identifier of its own. A push by tqpush carries the six lanes of its register.
R194 and R325: a spill moves the on-chip descriptor of highest pair to the ring; a refill moves the ring's lowest back, read from memory;
a unit that could not reach its ring tries again, and with nothing due its queue stands as it did. -/
def Obligations.TaskQueues : Prop :=
  (∀ v : VReg, ∀ a d : AReg, ∀ l : Launch,
    let f := fun (c : Ctx) (i : Nat) => (c.s.ln v i).toNat
    let t := fun (c : Ctx) => if a = 0#4 then BitVec.ofNat 64 c.h else c.s.A a.toNat
    Acts (.tqcfg v) (useV [v] [rv v])
      (fun c => c.d.launch? c.s.lk = some l ∧ (∀ i, 8 ≤ i → i < 16 → f c i = 0) ∧ f c 0 % 4096 = 0 ∧
        (f c 2 = 0 ∨ ∃ k, k ≤ 10 ∧ f c 2 = 512 * 2 ^ k) ∧ f c 3 ≤ 255 ∧ (f c 3 ≠ 0 → f c 4 < f c 3) ∧ f c 5 ≤ 1 ∧ f c 6 ≤ 255 ∧ f c 7 ≤ 16 ∧
        f c 7 ≤ l.nseats ∧ l.flags.getLsbD 2 = true ∧ (l.ordered = none ∨ l.ordered = some (f c 5 == 1)) ∧ (c.d.core c.h).tq.ring = []) [] [] []
      (fun c e => (∀ k, k ≠ c.h → e.core k = c.d.core k) ∧ (e.core c.h).tq = { (c.d.core c.h).tq with
        lk := some c.s.lk, rbase := BitVec.ofNat 64 (f c 0 + 2 ^ 32 * f c 1), rsize := f c 2, hi := if f c 3 = 0 then 192 else f c 3,
        lo := if f c 3 = 0 then 64 else f c 4, ordered := f c 5 == 1, pb := f c 6, smin := f c 7 }) ∧
    ReadsA (.tqstat d a) (useA [wa d, ra a])
      (fun c => (t c).toNat < 4096 ∧ ∃ l, c.d.launch? c.s.lk = some l ∧ l.has (t c).toNat = true) d
      (fun c => let q := (c.d.core (t c).toNat).tq
        BitVec.ofNat 64 (q.chip.length % 2 ^ 9 + 2 ^ 12 * (q.ring.length % 2 ^ 20) + 2 ^ 32 * (q.waiting.length % 2 ^ 8) +
          (if q.ordered then 2 ^ 40 else 0) + (if q.lk.isSome then 2 ^ 41 else 0)))) ∧
  (∀ km : KReg, ∀ v cc : VReg, ∀ b : AReg, ∀ p : PushMsg, ∀ l : Launch,
    let u1 := useV [v] [rv v, ra b]
    let u2 : Use := ⟨[v.toNat, cc.toNat], [v.toNat + 4], [rv v, rv cc, ra b, rk km] ++ (List.range 4).map (fun i => rvn (v.toNat + 1 + i)), none,
      .all, false⟩
    let img := fun (c : Ctx) => (⟨c.s.ln v 0, c.s.ln v 1, c.s.ln v 2, c.s.ln v 3, c.s.ln v 4, c.s.ln v 5, c.s.lowestTask, 0#32⟩ : Desc)
    let t := fun (c : Ctx) => (c.s.A b.toNat).toNat
    (∀ s h n w, s.issues h n w u1 → let c := s.ctx h n w
      c.s.kind ≠ .ordered → c.s.pushed = [] → c.s.reply = .idle → s.dev.launch? c.s.lk = some l → l.ordered ≠ some true →
      t c < 4096 → l.has (t c) = true → (s.dev.core (t c)).tq.lk = some c.s.lk → (c.s.ln v 0).toNat < 2 ^ 24 → l.entries.contains (c.s.ln v 0).toNat = true →
      ∃ x, exec (.tqpush v b) s = .next x ∧ (x.dev.slot h n).pc = c.s.pc ∧ (x.dev.slot h n).reply = .sent ∧
        x.dev.coming s.dev.clock (.taskPushArrival ⟨t c, h, n, 0, img c⟩)) ∧
    CompletesWhen (.tqpush v b) u1 (fun c => c.s.kind ≠ .ordered ∧ c.s.pushed.contains 0 = true) [] [] [] (fun c s => s.pc = c.s.pc + 8#64) ∧
    CompletesWhen (.tqpushv km v b cc) u2 (fun c => ∀ l, l < 16 → (c.s.K km.toNat).getLsbD l = true → c.s.pushed.contains l = true) [] [] []
      (fun c s => s.pc = c.s.pc + 8#64) ∧
    Event (.taskPushArrival p)
      (fun _ d => d.isSaved (d.slot p.h p.n).lk p.dst = false ∧ (d.core p.dst).tq.lk = some (d.slot p.h p.n).lk ∧ (d.core p.dst).tq.waiting = [] ∧
        (d.core p.dst).tq.requeue = [] ∧ (d.core p.dst).tq.inq = [] ∧ (d.core p.dst).tq.ring = [] ∧ d.ringWrites p.dst = false ∧
        (d.slot p.h p.n).reply ≠ .stale ∧
        (d.core p.dst).tq.chip.length < (d.core p.dst).tq.hi ∧ (d.core p.dst).tq.hi ≤ 255)
      (fun _ d e => ∃ id, (e.core p.dst).tq.chip = insertDesc { p.d with id := id } (d.core p.dst).tq.chip ∧
        id.extractLsb' 20 12 = BitVec.ofNat 12 p.dst ∧ p.lane ∈ (e.slot p.h p.n).pushed ∧ (e.slot p.h p.n).pc = (d.slot p.h p.n).pc)) ∧
  (∀ h lk pa : Nat, ∀ x : Desc, ∀ e : RingEnt, ∀ rest : List RingEnt, ∀ lf : Leaf, ∀ l : Launch,
    let q := fun (d : Dev) => (d.core h).tq
    let calm := fun (d : Dev) => (q d).lk = some lk ∧ (q d).waiting = [] ∧ (q d).requeue = [] ∧ (q d).inq = [] ∧ d.ringWrites h = false ∧
      ∀ e, e ∈ (q d).retry → e.2 ≤ d.clock
    let who := fun (d : Dev) => d.agentWho h lk
    (∀ i, (i = Instr.spill h ∨ i = .ringAccessRetry h) → Event i
      (fun m d => isWindow (q d).rbase = false ∧ calm d ∧ (q d).hi < (q d).chip.length ∧ (q d).ring = [] ∧ 0 < (q d).rsize ∧ (q d).chip.getLast? = some x ∧
        d.translate m (who d) [.w] (q d).rbase = .ok pa lf ∧ ∀ g, g ∈ d.groups → g.phase ≠ .waiting)
      (fun _ d e => (q e).chip = (q d).chip.erase x ∧ ∃ r, (q e).ring = [r] ∧ r.pos = 0 ∧ r.ts = x.ts ∧ r.id = x.id ∧ r.parent = x.parent)) ∧
    Event (.ringRefill h)
      (fun m d => calm d ∧ (q d).ring = e :: rest ∧ (q d).chip.length < (q d).lo ∧ d.launch? lk = some l ∧
        (q d).chip.length < (q d).hi ∧ (rest = [] ∨ (q d).lo ≤ (q d).chip.length + 1 ∧ ((q d).hi + (q d).lo) / 2 ≤ (q d).chip.length + 1) ∧
        isWindow ((q d).addr e.pos) = false ∧ d.translate m (who d) [.r] ((q d).addr e.pos) = .ok pa lf ∧ d.pending pa = false ∧
        ((d.fillPlb m (who d) lf.dom).quay (d.fnOf lk) pa false).isSome = true ∧ l.refillOk (m.w32 pa) = true)
      (fun m d f => (q f).ring = rest ∧ ∃ y, (q f).chip = insertDesc y (q d).chip ∧ y.ts = e.ts ∧ y.id = e.id ∧ y.parent = e.parent ∧
        y.w0 &&& 0x00FFFFFF#32 = m.w32 pa &&& 0x00FFFFFF#32 ∧ y.a1 = m.w32 (pa + 8) ∧ y.a2 = m.w32 (pa + 12) ∧ y.a3 = m.w32 (pa + 16) ∧
        y.a4 = m.w32 (pa + 20)) ∧
    Event (.ringAccessRetry h)
      (fun _ d => calm d ∧ (q d).ring = [] ∧ (q d).chip.length ≤ (q d).hi)
      (fun _ d e => q e = { q d with filling := false } ∧ d.sameSlots e))

/-- R196 and R197: a dispatch starts the task of lowest pair, with the next ones of the same entry up to sixteen, in the lowest FREE reserved
slot: v1 to v4 the arguments by lane, v5 the timestamps, v6 the identifiers, k1 and the lane set the lanes bound.
R201 and R202: tend takes its lanes out of the lane set; tabort of an ORDERED task sends its descriptor back to its queue, marked as
aborted, and takes its lanes out; in another slot tabort is TASKBAD 0x08. -/
def Obligations.TasksOnSlots : Prop :=
  (∀ h lk i n : Nat, ∀ x : Desc, ∀ rest : List Desc, ∀ l : Launch,
    let xs := x :: (rest.filter (fun y => descEntry y == descEntry x)).take 15
    Event (.dispatch h)
      (fun _ d => let q := (d.core h).tq
        q.lk = some lk ∧ q.ring = [] ∧ q.waiting = [] ∧ q.requeue = [] ∧ q.inq = [] ∧ d.ringWrites h = false ∧ q.chip.length ≤ q.hi ∧ q.hold = [] ∧ q.chip = x :: rest ∧
        d.freeSlot lk h = some (i, n) ∧ d.launch? lk = some l ∧ l.st = .resident ∧ l.out = false ∧ q.ordered = false)
      (fun _ d e => let s := e.slot h n
        s.st = .ready ∧ s.lk = lk ∧ s.kind = .freeTask ∧ s.pc = l.code + BitVec.ofNat 64 (descEntry x) ∧ (∀ j, s.A j = 0#64) ∧
        (∀ j, j < 16 → s.laneSet.getLsbD j = decide (j < xs.length) ∧ (s.K 1).getLsbD j = decide (j < xs.length)) ∧
        (∀ j y, xs[j]? = some y → lane (s.V 1) j = y.a1 ∧ lane (s.V 2) j = y.a2 ∧ lane (s.V 3) j = y.a3 ∧ lane (s.V 4) j = y.a4 ∧
          lane (s.V 5) j = y.ts ∧ lane (s.V 6) j = y.id ∧ s.tasks.find? j = some y.id) ∧
        s.winCount = l.nregs ∧ s.winBase = (l.resvOn h).rbase + i * l.nregs ∧ (e.core h).tq.chip = (d.core h).tq.chip.filter (fun y => !xs.contains y))) ∧
  (∀ a : KReg, ∀ id : W32, ∀ t : Task,
    let u := useA [rk a]
    let lanes := fun (c : Ctx) => c.s.K a.toNat &&& c.s.laneSet
    Acts (.tend a) u (fun c => c.quiet ∧ c.s.kind ≠ .ordered) [] [] []
      (fun c e => (e.slot c.h c.n).laneSet = c.s.laneSet &&& ~~~(lanes c) ∧
        (c.s.kind = .freeTask → ∀ j, j ∈ c.s.tasksIn (lanes c) → e.task? c.s.lk j = none)) ∧
    Acts (.tend a) u (fun c => c.s.kind = .ordered ∧ c.s.winStores = [] ∧ c.plain id = false ∧ c.s.tasksIn (lanes c) = [id] ∧ c.d.task? c.s.lk id = some t ∧
        (c.d.core c.h).taskRecs [id] = []) [] [] []
      (fun c e => (e.slot c.h c.n).laneSet = c.s.laneSet &&& ~~~(lanes c) ∧ ∃ t', e.task? c.s.lk id = some t' ∧ t'.ended = true ∧ t'.d = t.d) ∧
    Acts (.tabort a) u (fun c => c.s.kind = .ordered ∧ c.s.tasksIn (lanes c) = [id] ∧ c.d.task? c.s.lk id = some t ∧ t.core = c.h) [] [] []
      (fun c e => e.task? c.s.lk id = none ∧ { t.d with w0 := t.d.w0 ||| 0x20000000#32 } ∈ (e.core (queueCore id)).tq.requeue ∧
        ∀ l, l < 16 → c.s.tasks.find? l = some id → (e.slot c.h c.n).laneSet.getLsbD l = false) ∧
    TrapsFree (.tabort a) u (fun c => c.s.kind ≠ .ordered) 0x52 (fun _ => 8))

/-- R198, R205 and R209: every 256 cycles a round of the arbiter takes its bound; the arbiter commits the ended task of lowest pair below its
round's bound and ends a round with none; a blocked
lowest task has the highest task in its way aborted; tasks stranded in the pool go back to their queues. Each by the shared operations
that commit and abort a task.
R208: an abort removes the task and puts its descriptor, with RR set, back into its queue; the bound of the round falls to its pair. -/
def Obligations.ArbitrationAndAborts : Prop :=
  (∀ s : State, ∀ lk h bound : Nat, ∀ l : Launch, ∀ t : Task,
    s.dev.launch? lk = some l → l.ordered = some true → l.out = false →
    (s.dev.anySaved lk = false → s.dev.clock % 256 = 0 → s.dev.committing lk = true →
      exec (.arbiterRound lk) s = .next ⟨s.mem, s.dev.updLaunch lk (fun l => { l with round := some ((s.dev.bound lk).getD (2 ^ 64)) })⟩) ∧
    (s.dev.anySaved lk = false → s.dev.clock % 256 ≠ 0 → s.dev.committing lk = false → l.round = some bound → s.dev.nextCommit lk bound = none →
      exec (.arbiterRound lk) s = .next ⟨s.mem, s.dev.updLaunch lk Launch.endRound⟩) ∧
    (s.dev.anySaved lk = false → s.dev.clock % 256 ≠ 0 → s.dev.committing lk = false → l.round = some bound → s.dev.nextCommit lk bound = some t →
      exec (.arbiterRound lk) s = .next ⟨s.mem, s.dev.commitTask s.mem t⟩ ∧ t.ended = true ∧ descPair t.d < bound ∧
        ∀ u, u ∈ s.dev.running lk → u.ended = true → descPair t.d ≤ descPair u.d) ∧
    (∀ x rest, (s.dev.core h).tq.lk = some lk → (s.dev.core h).tq.ordered = true → (s.dev.core h).tq.ready s.dev.clock = x :: rest →
      (∀ p, p ∈ s.dev.queuedPairs lk → descPair x ≤ p) → (∀ u, u ∈ s.dev.running lk → descPair x ≤ descPair u.d) →
      s.dev.freeSlot lk h = none → s.dev.running lk = [t] → t.core = h → t.ended = false →
      (∃ e, e ∈ (s.dev.core h).slots.ents ∧ e.2.lk = lk ∧ ∃ y, y ∈ e.2.tasks.ents ∧ y.2 = t.d.id) →
      (∀ e, e ∈ (s.dev.core h).slots.ents → e.2.endReq = false) →
      exec (.progressAbort h) s = .next ⟨s.mem, s.dev.abort lk t.d.id s.dev.clock⟩) ∧
    (s.dev.anySaved lk = false → (s.dev.core h).tq.lk = some lk → (∀ n, n ∈ (l.resvOn h).slots → (s.dev.slot h n).st = .free) → s.dev.running lk = [t] →
      (∃ e, e ∈ (s.dev.core h).pool ∧ e.lk = lk ∧ e.task = t.d.id) →
      exec (.strandedRequeue h) s = .next ⟨s.mem, s.dev.abort lk t.d.id s.dev.clock⟩)) ∧
  (∀ d : Dev, ∀ lk until_ : Nat, ∀ id : W32, ∀ t : Task, ∀ l : Launch, d.task? lk id = some t → d.launch? lk = some l → 
    let e := d.abort lk id until_
    e.task? lk id = none ∧ { t.d with w0 := t.d.w0 ||| 0x20000000#32 } ∈ (e.core (queueCore id)).tq.requeue ∧
    (∀ b, l.round = some b → ∃ l', e.launch? lk = some l' ∧ l'.round = some (min (descPair t.d) b)) ∧
    (∀ h n j, (e.slot h n).A j = (d.slot h n).A j ∧ (e.slot h n).V j = (d.slot h n).V j ∧ (e.slot h n).K j = (d.slot h n).K j ∧
      (e.slot h n).pc = (d.slot h n).pc))

/-! ### Mailboxes -/

/-- R210 to R212: mbsend sends its register to a valid rank and waits until it is accepted; an arriving message takes an inbox buffer of the
rank's core, where there is room, and its sender goes on; mbrecv and mbpoll take the oldest message for the slot. -/
def Obligations.Mailboxes : Prop :=
  ∀ v : VReg, ∀ a b : AReg, ∀ g : Msg, ∀ h : Nat, ∀ m : InMsg,
    let us := useV [v] [rv v, ra b]
    let ur := useV [v] [wv v, wa a]
    let r := fun (c : Ctx) => (c.s.A b.toNat).toNat
    let first := fun (c : Ctx) => c.quiet ∧ c.s.reply = .idle ∧ r c < 4096 ∧ rankV (c.d.rankEnt (terrOf c.s.lk) (r c)) = true
    let arrives := fun (d : Dev) => g.rank < 4096 ∧ rankV (d.rankEnt g.terr g.rank) = true ∧ rankIt (d.rankEnt g.terr g.rank) = false ∧
      rankCore (d.rankEnt g.terr g.rank) = h ∧ (d.core h).inbox.length < 64
    let taken := fun (d e : Dev) => (e.core h).inbox = (d.core h).inbox ++ [⟨g.terr, g.rank, g.sRank, g.sCore, g.data⟩] ∧
      ∀ x y, g.waiter = some (x, y) → x < nCores → (d.slot x y).reply ≠ .stale → (e.slot x y).reply = .done 0#64
    let mail := fun (c : Ctx) => c.d.mailRanks c.h c.n ≠ [] ∧ c.oldestMail = some m ∧ c.s.loading = false
    let got := fun (c : Ctx) (e : Dev) => (e.slot c.h c.n).V v.toNat = m.data ∧ (e.core c.h).inbox = (c.d.core c.h).inbox.erase m ∧
      (a ≠ 0#4 → (e.slot c.h c.n).A a.toNat =
        BitVec.ofNat 64 (m.sRank % 2 ^ 16 + 2 ^ 16 * (m.sCore % 2 ^ 16) + 2 ^ 32 + 2 ^ 48 * (m.rank % 2 ^ 16)))
    WaitsWhen (.mbsend v b) us first (fun _ => .message) ∧
    (∀ s h n w, s.issues h n w us → first (s.ctx h n w) → ∃ t, exec (.mbsend v b) s = .next t ∧ ∃ x, t.dev.coming s.dev.clock (.messageArrival x) ∧
      x.data = (s.dev.slot h n).V v.toNat ∧ x.rank = r (s.ctx h n w) ∧ x.terr = terrOf (s.dev.slot h n).lk ∧ x.sCore = h ∧ x.waiter = some (h, n)) ∧
    (∀ x, CompletesWhen (.mbsend v b) us (fun c => c.sure ∧ c.s.reply = .done x) [] [] [] (fun c s => s.pc = c.s.pc + 8#64)) ∧
    TrapsWhen (.mbsend v b) us (fun c => c.sure ∧ c.s.closed = false ∧ c.s.reply = .idle ∧ r c < 4096 ∧
      rankV (c.d.rankEnt (terrOf c.s.lk) (r c)) = false) 0x52 (fun _ => 9) (fun c => c.s.A b.toNat) ∧
    Event (.messageArrival g) (fun _ => arrives) (fun _ => taken) ∧ Event (.messageRetry g) (fun _ => arrives) (fun _ => taken) ∧
    Acts (.mbrecv v a) ur mail [a.toNat] [v.toNat] [] got ∧ Acts (.mbpoll v a) ur mail [a.toNat] [v.toNat] [] got ∧
    WaitsWhen (.mbrecv v a) ur (fun c => c.d.mailRanks c.h c.n ≠ [] ∧ c.oldestMail = none) (fun _ => .mailbox) ∧
    Acts (.mbpoll v a) ur (fun c => c.d.mailRanks c.h c.n ≠ [] ∧ c.oldestMail = none) [a.toNat] [] []
      (fun c e => (a ≠ 0#4 → (e.slot c.h c.n).A a.toNat = 0#64) ∧ e.still = c.d.still)

/-! ### Regrouping -/

/-- R84 to R86: split sends its lanes to the pool, column by column; refill takes the oldest entry of its target into the lowest empty lane
and reports the lanes filled; join completes once its lanes are all there. -/
def Obligations.Regrouping : Prop :=
  ∀ km d a : KReg, ∀ v : VReg, ∀ n : BitVec 7, ∀ imm : W32, ∀ base l : Nat, ∀ x : PoolEnt,
    let us : Use := ⟨[v.toNat], if n = 0#7 then [] else [v.toNat + n.toNat - 1], (List.range n.toNat).map (fun j => rvn (v.toNat + j)) ++ [rk km],
      none, .all, false⟩
    let tgt := fun (c : Ctx) => c.s.pc + BitVec.ofInt 64 (8 * imm.toInt)
    let set := fun (c : Ctx) => c.s.K km.toNat &&& c.s.laneSet
    let mine := fun (c : Ctx) => (c.d.core c.h).poolOf c.s.lk
    let mineAt := fun (c : Ctx) t => (mine c).filter (fun e => e.tgt == t && e.kind == c.s.kind)
    let pool := fun (c : Ctx) => c.poolBase = some base ∧ (c.d.core c.h).unrestoredIn base (base + 65536) = false
    CompletesWhen (.split km v n imm) us (fun c => c.poolBase = some base ∧ set c = 0#16) [] [] [] (fun c s => s.pc = c.s.pc + 8#64) ∧
    Acts (.split km v n imm) us
      (fun c => pool c ∧ set c ≠ 0#16 ∧ (mine c).length + 16 ≤ 1024 ∧ ((mine c).map (·.tgt)).dedup.length < 64 ∧
        ∀ e, e ∈ (c.d.core c.h).slots.ents → joinsAt c.s.lk c.s.kind (tgt c) e = false) [] [] []
      (fun c e => (e.slot c.h c.n).laneSet = c.s.laneSet &&& ~~~(c.s.K km.toNat) ∧ OnlyCore c.d e c.h ∧
        ∀ l, l < 16 → (set c).getLsbD l = true → ∃ y, y ∈ (e.core c.h).pool ∧ y ∉ (c.d.core c.h).pool ∧ y.lk = c.s.lk ∧ y.tgt = tgt c ∧
          y.vlo = v.toNat ∧ y.n = n.toNat ∧ y.kind = c.s.kind ∧ y.task = (c.s.tasks.find? l).getD 0#32 ∧
          ∀ j, j < 16 → (e.core c.h).word (base + 64 * y.idx + 4 * j) = if j < n.toNat then lane (c.s.V (v.toNat + j)) l else 0#32) ∧
    Acts (.refill d imm) (useA [wk d])
      (fun c => pool c ∧ c.gate (useA (c.refillRegs (tgt c))) = none ∧ mineAt c (tgt c) = [x] ∧ l < 16 ∧
        c.s.laneSet.getLsbD l = false ∧ ∀ m, m < l → c.s.laneSet.getLsbD m = true)
      [] ((List.range x.n).map (fun j => x.vlo + j)) [d.toNat]
      (fun c e => (e.slot c.h c.n).laneSet = c.s.laneSet ||| 1#16 <<< l ∧ (d ≠ 0#3 → (e.slot c.h c.n).K d.toNat = 1#16 <<< l) ∧
        (e.core c.h).pool = (c.d.core c.h).pool.erase x ∧
        ∀ j, j < x.n → ∀ m, m < 16 → lane ((e.slot c.h c.n).V (x.vlo + j)) m =
          if m = l then (c.d.core c.h).word (base + 64 * x.idx + 4 * j) else lane (c.s.V (x.vlo + j)) m) ∧
    CompletesWhen (.refill d imm) (useA [wk d])
      (fun c => pool c ∧ c.gate (useA (c.refillRegs (tgt c))) = none ∧ mineAt c (tgt c) = []) [] [] [d.toNat]
      (fun c s => s.pc = c.s.pc + 8#64 ∧ (d ≠ 0#3 → s.K d.toNat = 0#16)) ∧
    CompletesWhen (.join a) (useA [rk a])
      (fun c => pool c ∧ (∀ o, o ∈ c.s.ops → o.vd = []) ∧ mineAt c c.s.pc = [] ∧ c.s.laneSet &&& c.s.K a.toNat = c.s.K a.toNat)
      [] [] [] (fun c s => s.pc = c.s.pc + 8#64) ∧
    WaitsWhen (.join a) (useA [rk a])
      (fun c => pool c ∧ (∀ o, o ∈ c.s.ops → o.vd = []) ∧ mineAt c c.s.pc = [] ∧ c.s.laneSet &&& c.s.K a.toNat ≠ c.s.K a.toNat)
      (fun c => .join c.s.pc (c.s.K a.toNat))

/-! ### Engines -/

/-- R219 and R220: a push whose barrier is the launch's, with a free entry and room in its pending count, appends its command to the queue
with the next sequence number, which lands in aD later; a barrier of no or another launch is BARFLT 7; qstat reads the queue's word.
R54, R224, R229 and R230: what the commands that read and write no memory do, each of which leaves its queue; a format context with a
reserved code is RSVFMT (R55), which freezes the queue and tells the supervisor; acc.rel of a tile that the queue does not own and sig or
twait on a barrier that is not the launch's are CMDBAD 5. -/
def Obligations.EngineQueues : Prop :=
  (∀ la : BitVec 4, ∀ d a : AReg, ∀ v : VReg,
    let img := fun (c : Ctx) => c.s.V v.toNat
    let b := fun (c : Ctx) => ((img c).extractLsb' 239 9).toNat
    let push := fun (cq : Bool) (i : Instr) =>
      let u := (useV [v] [rv v, wa d]).long la
      let n := fun (c : Ctx) => c.d.imgCount c.h cq c.s.lk (img c)
      Acts i u
        (fun c => ((c.d.core c.h).bar (b c)).owner = some c.s.lk ∧ c.sure ∧ ((c.d.core c.h).eq cq).depth < 32 ∧
          ((c.d.core c.h).bar (b c)).pend + n c < 2 ^ 32) [] [] []
        (fun c e => OnlyCore c.d e c.h ∧ ((e.core c.h).bar (b c)).pend = ((c.d.core c.h).bar (b c)).pend + n c ∧
          ((e.core c.h).eq cq).seqa = ((c.d.core c.h).eq cq).seqa + 1 ∧
          (∃ y, ((e.core c.h).eq cq).q = ((c.d.core c.h).eq cq).q ++ [y] ∧ y.img = img c ∧ y.oc = none ∧ y.bar = b c ∧ y.left = n c ∧
            y.lk = c.s.lk ∧ y.seq = (((c.d.core c.h).eq cq).seqa + 1).toNat) ∧
          (d ≠ 0#4 → ∃ o, o ∈ (e.slot c.h c.n).ops ∧ o.ad = [d.toNat] ∧
            o.ares = [(d.toNat, (((c.d.core c.h).eq cq).shown (((c.d.core c.h).eq cq).seqa + 1).toNat).setWidth 64)] ∧ e.coming c.d.clock (.resultLanding c.h c.n o.id))) ∧
      WaitsWhen i u (fun c => ((c.d.core c.h).bar (b c)).owner = some c.s.lk ∧ c.sure ∧
        32 ≤ ((c.d.core c.h).eq cq).depth) (fun _ => .queue cq) ∧
      TrapsWhen i u (fun c => ((c.d.core c.h).bar (b c)).owner ≠ some c.s.lk) 0x40 (fun _ => 7) (fun c => BitVec.ofNat 64 (b c))
    push false (.mqpush la d v) ∧ push true (.cqpush la d v) ∧
    ReadsA (.qstat d a) (useA [wa d, ra a]) (fun _ => True) d (fun c =>
      let cq := (c.s.A a.toNat).getLsbD 0
      let e := (c.d.core c.h).eq cq
      if (c.s.A a.toNat).getLsbD 1 then e.faddr else e.stat (if cq then 0#4 else c.d.ownTiles c.h))) ∧
  (∀ hd : TileHdr, ∀ ctx : W32, ∀ acc cnt : BitVec 2, ∀ sbar : BitVec 9, ∀ ph : Bool,
    let one := fun (q : QCtx) (r : List Cmd) => q.alone r ∧ q.c.left = 1
    let eq := fun (q : QCtx) (e : Dev) => (e.core q.h).eq q.cq
    let tiles := fun (q : QCtx) (e : Dev) (p : Nat → Prop) => ∀ t, ¬p t → e.tile q.h t = q.d.tile q.h t
    let named := fun t => t ∈ tilesFrom acc cnt
    let own := fun (q : QCtx) => ((q.d.core q.h).bar sbar.toNat).owner = some q.c.lk
    let x := fun (q : QCtx) => (q.d.core q.h).bar sbar.toNat
    Commands (.tnop hd) one (fun q r e => q.retired r e ∧ (eq q e).ctx = (eq q q.d).ctx ∧ tiles q e (fun _ => False)) ∧
    Commands (.fmtSet hd ctx) (fun q r => one q r ∧ ctxSub ctx = 0) (fun q r e => q.retired r e ∧ (eq q e).ctx = ctx) ∧
    Commands (.fmtSet hd ctx) (fun _ _ => ctxSub ctx ≠ 0)
      (fun q r e => q.refusedWith r e 6 (ctxSub ctx) ∧ (eq q e).frz = true ∧ (eq q e).ctx = (eq q q.d).ctx ∧
        ∃ g, e.coming q.d.clock (.messageArrival g) ∧ g.rank = 0xFFFF ∧ g.terr = terrOf q.c.lk) ∧
    Commands (.accZero hd acc cnt) one (fun q r e => q.retired r e ∧ tiles q e named ∧
      ∀ t, named t → e.tile q.h t = ⟨some (q.h % 4), .empty, q.c.lk⟩) ∧
    Commands (.accRel hd acc cnt) (fun q r => one q r ∧ ∀ t, named t → (q.d.tile q.h t).owner = some (q.h % 4))
      (fun q r e => q.retired r e ∧ tiles q e named ∧ ∀ t, named t → e.tile q.h t = { q.d.tile q.h t with owner := none }) ∧
    Commands (.accRel hd acc cnt) (fun q _ => ∃ t, named t ∧ (q.d.tile q.h t).owner ≠ some (q.h % 4))
      (fun q r e => q.refusedWith r e 0x60 5 ∧ tiles q e (fun _ => False)) ∧
    Commands (.sig hd sbar) (fun q r => one q r ∧ own q ∧ (x q).arr ≠ 0xFFFF#16)
      (fun q r e => q.retired r e ∧ (sbar.toNat ≠ q.c.bar → (e.core q.h).bar sbar.toNat = ({ x q with arr := (x q).arr + 1 }.test false).1)) ∧
    Commands (.twait hd sbar ph) (fun q r => one q r ∧ own q) (fun q r e => q.retired r e ∧ tiles q e (fun _ => False)) ∧
    (∀ i, (i = Instr.sig hd sbar ∨ i = .twait hd sbar ph) → Commands i (fun q _ => ¬own q) (fun q r e => q.refusedWith r e 0x60 5)) ∧
    Commands (.tfence hd) one (fun q r e => q.retired r e ∧ tiles q e (fun _ => False)))

/-- R229: acc.load puts the words of its rows into its tiles and owns them; acc.store writes their elements, converted to the output format
with the rounding of the format context, packed into words.
R49 and R231 to R233: a step of mm adds to every element of its tile, as R49 computes it, the product of one block of A rows and B
columns, scaled where the format context says so; every other tile keeps its elements. -/
def Obligations.MatrixUnit : Prop :=
  (∀ hd : TileHdr, ∀ x : AccArgs,
    let n := x.cnt.toNat + 1
    let words := fun (q : QCtx) => (List.range n).flatMap (fun t => (List.range 128).flatMap (fun r => (List.range 128).map (fun c =>
      q.rd (16384 * t + 128 * r + c) 4 x.sp (accRow x t r + BitVec.ofNat 64 (4 * c)))))
    let ctx := fun (q : QCtx) => ((q.d.core q.h).eq q.cq).ctx
    let f := fun (q : QCtx) => fmtOf (ofmtOf (ctx q))
    let out := fun (q : QCtx) t r w => q.wr x.sp (accRow x t r + BitVec.ofNat 64 (4 * w))
      (packed (f q) (fun k => encF (f q) (orndMode (ctx q)) false (decF .f32 false ((q.d.tile q.h (x.acc.toNat + t)).elem (128 * r + k)))) w)
    Commands (.accLoad hd x) (fun q _ => q.reads (words q))
      (fun q r e => ((e.core q.h).eq q.cq).q.map (·.seq) = r.map (·.seq) ∧
        ∀ t, t < n → (e.tile q.h (x.acc.toNat + t)).owner = some (q.h % 4) ∧ ∀ i j, i < 128 → j < 128 →
          (e.tile q.h (x.acc.toNat + t)).elem (128 * i + j) = q.value (q.rd 0 4 x.sp (accRow x t i + BitVec.ofNat 64 (4 * j)))) ∧
    Commands (.accStore hd x)
      (fun q _ => 128 * (f q).size ≤ x.pitch.toNat ∧ (∀ t, t < n → (q.d.tile q.h (x.acc.toNat + t)).owner = some (q.h % 4)) ∧
        x.base.toNat + 128 * n * x.pitch.toNat ≤ 2 ^ 64 ∧ ∀ t r w, t < n → r < 128 → w < 32 * (f q).size → q.writable (out q t r w))
      (fun q r e => ((e.core q.h).eq q.cq).q.map (·.seq) = r.map (·.seq) ∧
        ∀ t r w, t < n → r < 128 → w < 32 * (f q).size → q.wrote e (out q t r w)) ∧
    Commands (.accStore hd x) (fun q _ => x.pitch.toNat < 128 * (f q).size) (fun q r e => q.refusedWith r e 0x60 5)) ∧
  (∀ hd : TileHdr, ∀ x : MmArgs, ∀ s : Nat,
    let ctx := fun (q : QCtx) => ((q.d.core q.h).eq q.cq).ctx
    let z := fun q => mmShape x (ctx q)
    let steps := fun q => (z q).mt * (z q).nt * (z q).kb
    let t := fun q => s / (z q).kb
    let β := fun q => s % (z q).kb
    let mi := fun q => t q / (z q).nt
    let ni := fun q => t q % (z q).nt
    let wa := fun q => 32 * (z q).fa.size
    let wb := fun q => 32 * (z q).fb.size
    let as := fun (q : QCtx) => q.block 0 1 x.asrc x.abase x.apitch.toNat (128 * mi q) (128 * β q * (z q).fa.size) (wa q)
    let bs := fun (q : QCtx) => q.block 16384 2 x.bsrc x.bbase x.bpitch.toNat (128 * β q) (128 * ni q * (z q).fb.size) (wb q)
    let captures := fun (q : QCtx) => (z q).scaled = true ∧ s = hd.rstep.toNat ∧ q.c.sa.ents = []
    let elems := fun (f : Fmt) (ws : List Rd) (q : QCtx) => (ws.flatMap (fun w => wordElems f (q.value w))).map (decF f false)
    let rowA := fun q i => elems (z q).fa ((as q).drop (i * wa q) |>.take (wa q)) q
    let colB := fun q j => (List.range 128).map (fun k => ((elems (z q).fb ((bs q).drop (k * wb q) |>.take (wb q)) q)[j]?).getD .nan)
    let scale := fun (q : QCtx) (f : Nat → W32) (base : W64) k (w : W32) =>
      (captures q → w = q.value (q.rd 0 3 false (base + BitVec.ofNat 64 (4 * k)))) ∧ (¬captures q → w = f k)
    let factor := fun (q : QCtx) i (g : FVal) =>
      ((z q).scaled = false → g = .fin false 1 0) ∧
      ((z q).scaled = true → ∃ a b, scale q (q.c.sa.get 0#32) x.sabase ((128 * mi q + i) * (z q).kb + β q) a ∧
        scale q (q.c.sb.get 0#32) x.sbbase (β q * (z q).nt + ni q) b ∧
        g = decF .f32 false (encF .f32 .rn false (mulF (decF .f32 false a) (decF .f32 false b))))
    let T := fun q => x.acc.toNat + t q
    let fits := fun (q : QCtx) => mmFits x (z q) = true ∧ (∀ i, i < (z q).mt * (z q).nt → (q.d.tile q.h (x.acc.toNat + i)).owner = some (q.h % 4))
    Commands (.mm hd x)
      (fun q _ => q.atStep hd s ∧ s < steps q ∧ (q.c.begun = false → fits q ∧ q.badObject x (z q) (ctx q) = none) ∧ q.reads (as q ++ bs q) ∧
        (captures q → mmFits x (z q) = true ∧ q.reads (q.scales x (z q))))
      (fun q r e => q.goesOn r e s (steps q - 1) ∧ (∀ u, u ≠ T q → e.tile q.h u = q.d.tile q.h u) ∧
        ∀ i j, i < 128 → j < 128 → ∃ g, factor q i g ∧
          (e.tile q.h (T q)).elem (128 * i + j) = mmElem g ((q.d.tile q.h (T q)).elem (128 * i + j)) (rowA q i) (colB q j)) ∧
    Commands (.mm hd x) (fun q _ => q.c.begun = false ∧ ¬fits q) (fun q r e => q.refusedWith r e 0x60 5 ∧ ∀ u, e.tile q.h u = q.d.tile q.h u))

/-- R236 and R237: a step of cp.copy, cp.fill, cp.gather or cp.scatter sends its words to where they are written, each with the value that it
has where it was read, and goes on to the next step. -/
def Obligations.CopySteps : Prop :=
  ∀ hd : TileHdr, ∀ x : CpArgs, ∀ s : Nat,
    let os := stepWords x.len.toNat s
    let src := fun (q : QCtx) (o : Nat) => q.rd 0 6 x.ssp (x.src + BitVec.ofNat 64 o)
    let dst := fun (q : QCtx) (o : Nat) v => q.wr x.dsp (x.dst + BitVec.ofNat 64 o) v
    let rows := stepRows x.cnt.toNat s
    let ix := fun (q : QCtx) r => q.value (q.rd 0 8 x.isp (x.idx + BitVec.ofNat 64 (4 * r)))
    let ixs := fun (q : QCtx) => rows.zipIdx.map (fun r => q.rd r.2 8 x.isp (x.idx + BitVec.ofNat 64 (4 * r.1)))
    let byRows := fun (i : Instr) (from_ into : Nat → W32 → W64) =>
      let rs := fun (q : QCtx) => (rowWords x.len.toNat (rows.map (fun r => (r, ix q r))) from_).map (fun w => q.rd (64 + w.1) 6 x.ssp w.2)
      let to_ := fun (q : QCtx) r w => into r (ix q r) + BitVec.ofNat 64 (4 * w)
      Commands i
        (fun q _ => q.atStep hd s ∧ q.reads (ixs q ++ rs q) ∧
          ∀ r w, r ∈ rows → w < x.len.toNat / 4 → q.writable (q.wr x.dsp (to_ q r w) 0#32) ∧
            ∀ r' w', r' ∈ rows → w' < x.len.toNat / 4 → to_ q r w = to_ q r' w' → r = r' ∧ w = w')
        (fun q l e => q.goesOn l e s x.lastRows ∧ ∀ r w, r ∈ rows → w < x.len.toNat / 4 →
          q.wrote e (q.wr x.dsp (to_ q r w) (q.value (q.rd 0 6 x.ssp (from_ r (ix q r) + BitVec.ofNat 64 (4 * w))))))
    Commands (.cpCopy hd x)
      (fun q _ => q.atStep hd s ∧ q.reads (os.zipIdx.map (fun o => q.rd o.2 6 x.ssp (x.src + BitVec.ofNat 64 o.1))) ∧
        ∀ o, o ∈ os → q.writable (dst q o 0#32))
      (fun q r e => q.goesOn r e s x.lastCopy ∧ ∀ o, o ∈ os → q.wrote e (dst q o (q.value (src q o)))) ∧
    Commands (.cpFill hd x) (fun q _ => q.atStep hd s ∧ ∀ o, o ∈ os → q.writable (dst q o 0#32))
      (fun q r e => q.goesOn r e s x.lastCopy ∧ ∀ o, o ∈ os → q.wrote e (dst q o x.cnt)) ∧
    byRows (.cpGather hd x) (fun _ i => x.src + BitVec.ofNat 64 (i.toNat * x.ipitch.toNat)) (fun r _ => x.dst + BitVec.ofNat 64 (r * x.len.toNat)) ∧
    byRows (.cpScatter hd x) (fun r _ => x.src + BitVec.ofNat 64 (r * x.len.toNat)) (fun _ i => x.dst + BitVec.ofNat 64 (i.toNat * x.ipitch.toNat))

/-- R238: each pair of a step of cp.spred leaves as an update; a roundabout merges it with an update of the same word, type and operation, or
keeps it, or lets it go on, to the roundabout of its home's district (the route is the model's choice, log 65) and to its home; at its home it
is applied to the word at once, as a one-line group.
R126 and R237: an engine word lands as a bank store, and its four bytes are reported; one whose queue has a word waiting at the core is
held back. -/
def Obligations.EngineWrites : Prop :=
  (∀ hd : TileHdr, ∀ x : CpArgs, ∀ s rt : Nat, ∀ u : Upd,
    let n := min 512 (x.len.toNat - 512 * s)
    let word := fun (q : QCtx) i => q.rd i 6 x.ssp (x.src + BitVec.ofNat 64 (4096 * s + 4 * i))
    let tgt := fun (q : QCtx) j => x.dst + (q.value (word q (2 * j))).setWidth 64 <<< 2
    let need : List Right := [.r, .w, .a]
    let b := fun (m : Memory) => updValue u.typ u.op (m.w32 u.pa) u.vals
    let on_ := fun (y : Upd) => if homeOf u.pa = 512 ∨ rt = homeDistrict (homeOf u.pa) then Ev.spredApply y
      else .spredMerge (homeDistrict (homeOf u.pa)) y
    Commands (.cpSpred hd x)
      (fun q _ => q.atStep hd s ∧ x.typ.toNat ≤ 2 ∧ q.reads ((List.range (2 * n)).map (word q)) ∧
        ∀ j, j < n → isWindow (tgt q j) = false ∧ ∃ pa, q.reaches need (tgt q j).toNat pa)
      (fun q r e => q.goesOn r e s x.lastPairs ∧ ∀ j pa, j < n → q.reaches need (tgt q j).toNat pa →
        e.coming q.d.clock (.spredMerge (districtOf q.h) ⟨districtOf q.h, 0, q.c.lk, pa + (tgt q j).toNat % 128, x.typ.toNat, x.op.toNat,
          [q.value (word q (2 * j + 1))], [(updSrc q.h q.c.seq, 1)], [(tgt q j).toNat]⟩)) ∧
    Commands (.cpSpred hd x) (fun q _ => q.c.begun = false ∧ 2 < x.typ.toNat)
      (fun q r e => q.refusedWith r e 6 9 ∧ ((e.core q.h).eq q.cq).frz = true) ∧
    Event (.spredMerge rt u) (fun _ d => u.id = 0 ∧ ∃ y, y ∈ d.merges.get [] rt ∧ sameUpd y u = true)
      (fun _ d e => ∀ y, y ∈ d.merges.get [] rt →
        (if sameUpd y u then { y with vals := y.vals ++ u.vals, srcs := y.srcs ++ u.srcs, vas := y.vas ++ u.vas } else y) ∈ e.merges.get [] rt) ∧
    Event (.spredMerge rt u) (fun _ d => u.id = 0 ∧ (∀ y, y ∈ d.merges.get [] rt → sameUpd y u = false) ∧ (d.merges.get [] rt).length < 64)
      (fun _ d e => ∃ y, e.merges.get [] rt = d.merges.get [] rt ++ [y] ∧ y = { u with rt := rt, id := y.id } ∧ e.coming d.clock (on_ y)) ∧
    Event (.spredMerge rt u) (fun _ d => u.id = 0 ∧ (∀ y, y ∈ d.merges.get [] rt → sameUpd y u = false) ∧ 64 ≤ (d.merges.get [] rt).length)
      (fun _ d e => e.merges = d.merges ∧ e.coming d.clock (on_ { u with rt := rt, id := 0 })) ∧
    Event (.spredApply u)
      (fun _ d => u.id = 0 ∧ u.pa % 4 = 0 ∧ d.pending (lineOf u.pa) = false ∧ d.heldLine (lineOf u.pa) = false ∧
        d.hostLines.contains (lineOf u.pa) = false)
      (fun m d e => ∃ g l, e.groups = d.groups ++ [g] ∧ g.lines = [l] ∧ g.phase = .two ∧ l.pa = lineOf u.pa ∧
        (∀ k, l.mask.getLsbD k = true ↔ u.pa % 128 ≤ k ∧ k < u.pa % 128 + 4) ∧
        (∀ k, k < 4 → Line.byte l.data (u.pa % 128 + k) = (b m).extractLsb' (8 * k) 8) ∧
        e.coming d.clock (.groupRelease g.id (homeOf (lineOf u.pa))) ∧ e.pending (lineOf u.pa) = true) ∧
    Event (.spredApply u) (fun _ d => u.id = 0 ∧ d.pending (lineOf u.pa) = true)
      (fun _ d e => e.groups = d.groups ∧ e.coming d.clock (.spredApply u))) ∧
  (∀ w : EngWord,
    let plain := fun (d : Dev) => (∃ key g, (d.core w.dst).regionOf w.addr = some (key, g) ∧ rgnTbl g = 0) ∧
      (d.core w.dst).sealedAt w.addr = false ∧ d.landingBlocked w = false
    let lands := fun (d e : Dev) => (e.core w.dst).word w.addr = w.data ∧
      (∀ a, a / 4 ≠ w.addr / 4 → (e.core w.dst).word a = (d.core w.dst).word a) ∧ e.coming d.clock (.engineReport w.h w.cq w.seq 4)
    Event (.engineWordLanding w) (fun _ => plain) (fun _ => lands) ∧
    Event (.engineLandingRetry w) (fun _ d => plain d ∧ (∀ x, x ∈ (d.core w.dst).heldEng → ¬(x.h = w.h ∧ x.cq = w.cq))) (fun _ => lands) ∧
    Event (.engineWordLanding w) (fun _ d => d.landingBlocked w = true)
      (fun _ d e => e.core w.dst = { d.core w.dst with heldEng := (d.core w.dst).heldEng ++ [w] } ∧ e.net = d.net))

/-- R261: a step of kv.exp writes one block, body and hash, into the record, and its last step the header with the signature of the export
key; a step of kv.imp places one block in the frame on top of its pool's free list, with the terrace's tag, one holding and no successor.
R246 to R254: kvlook hashes its tokens into the chain; without a matching entry its frame is 0, with one the header is tested at its home,
where a hit takes a holding. kvfree, kvins and kvpos complete with their homes' answers; a bucket takes a new entry only where none matches
and one is free. -/
def Obligations.PrefixCache : Prop :=
  (∀ hd : TileHdr, ∀ x : KvArgs, ∀ s : Nat, ∀ f : W64, ∀ i : Nat, ∀ p' : Pool,
    let nb := x.nb.toNat
    let hs := recordHead nb
    let line := fun (q : QCtx) => lineOfBytes (wordBytes ((q.words f 32).map (fun w => some (q.value w))))
    let st := fun q => hStride (line q)
    let at_ := fun (q : QCtx) => s = 0 ∧ hd.rstep = 0 ∧ q.atStep hd 0 ∧ f = x.src ∨ q.c.begun = true ∧ q.c.step = s ∧ hd.rstep.toNat < s ∧ f = q.c.prev
    let p := fun (q : QCtx) => q.d.pool x.dep.toNat x.pool.toNat
    let body := fun (q : QCtx) => q.words (x.src + BitVec.ofNat 64 (hs + (s - 1) * (p q).stride)) ((p q).stride / 4)
    let g := fun (q : QCtx) => (p q).frame i
    let eq := fun (q : QCtx) => (q.d.core q.h).eq q.cq
    let ws := fun (q : QCtx) => q.puts (g q) (importFrame (q.d.terrace (terrOf q.c.lk)).ctx ((body q).map q.value)) ++
      (if s = 1 then [] else q.puts ((eq q).kvPrev + 24#64) (addrWords (g q))) ++
      (if s = nb then q.puts x.dst (addrWords (if s = 1 then g q else (eq q).kvFirst)) else [])
    Commands (.kvExp hd x)
      (fun q _ => at_ q ∧ s < nb ∧ nb ≤ 4096 ∧ f ≠ 0#64 ∧ f.toNat % 256 = 0 ∧ q.reads (q.words f (st q / 4)) ∧
        q.d.frameCheck (terrOf q.c.lk) f (line q) = 0 ∧
        ∀ w, w ∈ q.puts (x.dst + BitVec.ofNat 64 (hs + s * st q)) ((q.words f (st q / 4)).map q.value) ++
          q.puts (x.dst + BitVec.ofNat 64 (608 + 8 * s)) [0#32, 0#32] → q.writable w)
      (fun q r e => q.goesOn r e s nb ∧
        (∀ w, w ∈ q.puts (x.dst + BitVec.ofNat 64 (608 + 8 * s)) [(hHash (line q)).setWidth 32, (hHash (line q)).extractLsb' 32 32] → q.wrote e w) ∧
        (∀ w, w ∈ q.puts (x.dst + BitVec.ofNat 64 (hs + s * st q)) ((q.words f (st q / 4)).map q.value) → q.wrote e w) ∧
        ∀ y z, ((e.core q.h).eq q.cq).q = y :: z → y.prev = hNext (line q)) ∧
    Commands (.kvExp hd x)
      (fun q _ => q.c.begun = true ∧ q.c.step = nb ∧ hd.rstep.toNat < nb ∧ q.reads (q.words x.ses 18) ∧
        ∀ w, w ∈ q.puts x.dst (List.replicate 152 0#32) → q.writable w)
      (fun q r e => ((e.core q.h).eq q.cq).q.map (·.seq) = r.map (·.seq) ∧
        ∀ w, w ∈ q.puts x.dst (bytesWords (recordBytes q.d.fwVersion (wordBytes ((q.words x.ses 18).map (fun w => some (q.value w))))
          (q.d.terrace (terrOf q.c.lk)).tenant nb (q.c.sa.get 0#32 fmtKey).toNat (hashBytes nb q.c.sa))) → q.wrote e w) ∧
    Commands (.kvImp hd x)
      (fun q _ => q.atStep hd s ∧ 0 < s ∧ s ≤ nb ∧ (p q).of (terrOf q.c.lk) = true ∧ (p q).pop = some (i, p') ∧ q.reads (body q) ∧
        (∀ w, w ∈ ws q → q.writable w) ∧ ((ws q).map (·.va)).Nodup)
      (fun q r e => q.goesOn r e s nb ∧ e.pool x.dep.toNat x.pool.toNat = p' ∧ ∀ w, w ∈ ws q → q.wrote e w)) ∧
  (∀ la : BitVec 4, ∀ d a b : AReg, ∀ v : VReg, ∀ f hash : W64, ∀ pa h n op : Nat, ∀ tag : W32, ∀ o : LongOp, ∀ x y : Nat,
    let u := (useV [v] [wa d, ra a, wa a, rv v]).long la
    let chain := fun (c : Ctx) => kvChain (c.s.A a.toNat) ((List.range 16).map (lane (c.s.V v.toNat)))
    let mk := fun (c : Ctx) => c.d.findEnt (chain c) c.tag
    let opOf := fun (c : Ctx) (e : Dev) (p : LongOp → Prop) => ∃ o, o ∈ (e.slot c.h c.n).ops ∧ o.ad = [d.toNat, a.toNat] ∧ p o
    let clear := fun (d : Dev) => d.pending pa = false ∧ d.heldLine (lineOf pa) = false ∧ d.hostLines.contains (lineOf pa) = false
    let hd := fun (m : Memory) => m.line (lineOf pa)
    let puts := fun (e : Dev) (w : W32) (p : List Fin → Prop) => ∃ g l, g ∈ e.groups ∧ g.lines = [l] ∧ l.pa = lineOf pa ∧ g.phase = .two ∧
      (∀ k, k < 4 → l.mask.getLsbD (20 + k) = true ∧ Line.byte l.data (20 + k) = w.extractLsb' (8 * k) 8) ∧ p g.fin
    let answered := fun (i : Instr) (u : Use) (as : List Nat) (p : Ctx → W64 → Slot → Prop) => ∀ w,
      CompletesWhen i u (fun c => c.sure ∧ c.s.reply = .done w) as [] [] (fun c s => s.pc = c.s.pc + 8#64 ∧ p c w s)
    Acts (.kvlook la d a v) u (fun c => c.quiet ∧ mk c = none) [] [] []
      (fun c e => opOf c e (fun o => o.ares = [(d.toNat, 0#64), (a.toNat, chain c)] ∧ e.coming c.d.clock (.resultLanding c.h c.n o.id))) ∧
    (∀ ent, Acts (.kvlook la d a v) u
      (fun c => c.quiet ∧ mk c = some ent ∧ (c.d.pool (entDep ent) (entPool ent)).of (terrOf c.s.lk) = true ∧
        entIndex ent < (c.d.pool (entDep ent) (entPool ent)).count ∧ f = (c.d.pool (entDep ent) (entPool ent)).frame (entIndex ent) ∧
        c.mapped [.r] f pa ∧ ∀ o, o ∈ c.s.ops → o.id ≠ c.d.count) [] [] []
      (fun c e => opOf c e (fun o => o.kind = .kvlook d.toNat a.toNat ∧
        e.coming c.d.clock (.headerHomeTest (.look c.h c.n o.id pa f (chain c) c.tag))))) ∧
    Event (.headerHomeTest (.look h n op pa f hash tag))
      (fun m d => pa % 128 = 0 ∧ clear d ∧ d.linePoison.contains (lineOf pa) = false ∧ d.op? h n op = some o ∧ o.kind = .kvlook x y ∧ (hRefs (hd m) ≠ 0#32 ∧
        hIns (hd m) = true ∧ hHash (hd m) = hash ∧ hCtx (hd m) = tag))
      (fun m d e => puts e (hRefs (hd m) + 1#32) (fun _ => True) ∧ e.coming d.clock (.resultLanding h n op) ∧
        ∃ o', e.op? h n op = some o' ∧ o'.ares = [(x, f), (y, o.hash)] ∧ o'.fin = true) ∧
    Event (.headerHomeTest (.look h n op pa f hash tag))
      (fun m d => d.pending pa = false ∧ d.linePoison.contains (lineOf pa) = false ∧ d.op? h n op = some o ∧ o.kind = .kvlook x y ∧
        (d.visit (d.fnOf (d.slot h n).lk) false [pa]).2 = true ∧ (hRefs (hd m) = 0#32 ∨ hIns (hd m) = false ∨ hHash (hd m) ≠ hash ∨ hCtx (hd m) ≠ tag))
      (fun _ d e => e.groups = d.groups ∧ ∃ o', e.op? h n op = some o' ∧ o'.ares = [(x, 0#64), (y, o.hash)] ∧ o'.fin = true) ∧
    Event (.headerHomeTest (.free h n pa f)) (fun m d => pa % 128 = 0 ∧ clear d ∧ hRefs (hd m) ≠ 0#32)
      (fun m d e => puts e (hRefs (hd m) - 1#32) (fun l => Fin.reply h n ((hRefs (hd m) - 1#32).setWidth 64) ∈ l ∧
        (hRefs (hd m) = 1#32 → Fin.push (hDep (hd m)) (hPool (hd m)) (((d.pool (hDep (hd m)) (hPool (hd m))).index f.toNat).getD 0) ∈ l))) ∧
    Event (.headerHomeTest (.free h n pa f)) (fun m d => h < nCores ∧ d.pending pa = false ∧ hRefs (hd m) = 0#32 ∧
        (d.slot h n).reply ≠ .stale ∧ (d.visit (d.fnOf (d.slot h n).lk) false [pa]).2 = true)
      (fun _ d e => (e.slot h n).reply = .fail 0x72 2 ∧ e.groups = d.groups) ∧
    answered (.kvfree d a) (useA [wa d, ra a]) [d.toNat] (fun _ w s => s.A d.toNat = if d = 0#4 then 0#64 else w) ∧
    answered (.kvins d a b) (useA [wa d, ra a, ra b]) [d.toNat] (fun _ w s => s.A d.toNat = if d = 0#4 then 0#64 else w) ∧
    answered (.kvpos a b) (useA [ra a, ra b]) [] (fun _ _ _ => True) ∧
    (∀ i u, (i = Instr.kvfree d a ∧ u = useA [wa d, ra a] ∨ i = .kvins d b a ∧ u = useA [wa d, ra b, ra a] ∨ i = .kvpos a b ∧ u = useA [ra a, ra b]) →
      TrapsWhen i u (fun c => c.sure ∧ c.s.reply = .idle ∧ ((c.s.A a.toNat).toNat % 256 ≠ 0 ∨ isWindow (c.s.A a.toNat) = true))
        0x72 (fun _ => 2) (fun c => c.s.A a.toNat)) ∧
    (∀ m d g ls bk e rest, g.fin = Fin.insert h n bk e :: rest → h < nCores → (d.slot h n).reply ≠ .stale →
      let es := (List.range 4).map (bucketEnt (d.bucket bk))
      let t := Dev.groupTest m d g ls
      let same := es.any (fun z => entMatches z (entHash e) (entCtx e))
      (same = true → t.1 = false ∧ (t.2.slot h n).reply = .done 0#64 ∧ t.2.buckets = d.buckets) ∧
      (same = false → es.all entValid = true → t.1 = false ∧ (t.2.slot h n).reply = .done 2#64 ∧ t.2.buckets = d.buckets) ∧
      (same = false → es.all entValid = false → entValid e = true → t.1 = true ∧ (t.2.slot h n).reply = .done 1#64 ∧
        t.2.findEnt (entHash e) (entCtx e) = if bk = bucketOf (entHash e) then some e else d.findEnt (entHash e) (entCtx e))))

/-! ### Blocks, rotary on load, the walking thread -/

/-- R240, R244 and R252: a depot answers a pop with the index on top of its pool's free list, or KVEMPTY, and a push puts its index on top; kvapp
buffers the rows of its token, its scales and the count in a block with room, and asks for a new block where there is none.
R255 to R258: rtab loads its table once all its words have come; ldkr reads its header and its row at their homes; migr to a home that the
thread's own core is nearest to answers that core; a walking thread arrives with its live registers, and its old slot is FREE. -/
def Obligations.AttentionForms : Prop :=
  (∀ d cc : AReg, ∀ a b : VReg, ∀ dep pool idx h n : Nat, ∀ p : Pool, ∀ l : Line, ∀ pa : Nat, ∀ dv : Dev,
    let u := useV [a, b] [wa d, ra d, rv a, rv b, ra cc]
    let tail := fun (c : Ctx) => c.s.A d.toNat
    let rb := hRb l
    let rows := rb / 64
    let row := (hCount l)
    let c' := fun (c : Ctx) => ({ c with d := dv, s := dv.slot c.h c.n } : Ctx)
    let block := fun (c : Ctx) => c.sure ∧ (tail c).getLsbD 63 = false ∧ (tail c).toNat % 256 = 0 ∧ isWindow (tail c) = false ∧
      c.readLine (tail c) [.w] = .ok l pa dv ∧ dv.frameCheck (terrOf c.s.lk) (tail c) l = 0
    let holds := fun (c : Ctx) (e : Dev) (va : W64) (w size : Nat) => ∃ r, r ∈ (e.core c.h).dir ∧ r.buf = c.buffer.1 ∧ r.va = lineOf va.toNat ∧ r.gid = none ∧
      ∀ i, i < size → ((e.core c.h).recMask r.at).getLsbD (va.toNat % 128 + i) = true ∧
        Line.byte ((e.core c.h).recLine r.at) (va.toNat % 128 + i) = BitVec.ofNat 8 (w / 2 ^ (8 * i))
    let scales := fun (c : Ctx) => c.s.A cc.toNat
    Event (.depotPop dep pool h n) (fun _ d => h < nCores ∧ (d.slot h n).reply ≠ .stale ∧ (d.pool dep pool).pop = some (idx, p))
      (fun _ _ e => e.pool dep pool = p ∧ (e.slot h n).reply = .done (BitVec.ofNat 64 idx)) ∧
    Event (.depotPop dep pool h n) (fun _ d => h < nCores ∧ (d.slot h n).reply ≠ .stale ∧ (d.pool dep pool).pop = none)
      (fun _ d e => e.depots = d.depots ∧ (e.slot h n).reply = .fail 0x70 (16 * dep + pool)) ∧
    Event (.depotPush dep pool idx) (fun _ _ => True)
      (fun _ d e => e.pool dep pool = { d.pool dep pool with pushed := idx :: (d.pool dep pool).pushed } ∧
        (∀ k, k ≠ 16 * dep + pool → e.depots.find? k = d.depots.find? k) ∧ d.sameSlots e) ∧
    Acts (.kvapp d a b cc) u
      (fun c => block c ∧ hCount l < 16 ∧ (c' c).bufferAway = false ∧ (c' c).spanGate a.toNat b.toNat rows = none ∧ c.s.kind ≠ .ordered ∧
        (∀ w, w ∈ appSegs c.s a.toNat b.toNat rows rb row (scales c) (tail c) → ∃ q, (c' c).mapped [.w] w.va q) ∧
        ((dv.core c.h).dir.filter (fun e => e.buf == c.buffer.1)).length + 2 * rows + 3 ≤ c.buffer.2 ∧
        (∀ e, e ∈ (dv.core c.h).dir → e.buf = c.buffer.1 → e.rec_ < c.buffer.2) ∧ (tail c).toNat + 256 + 32 * rb ≤ 2 ^ 57)
      [] [] []
      (fun c e => (∀ i, i < rows →
          holds c e (tail c + BitVec.ofNat 64 (256 + row * rb + 64 * i)) (c.s.V (a.toNat + i)).toNat 64 ∧
          holds c e (tail c + BitVec.ofNat 64 (256 + 16 * rb + row * rb + 64 * i)) (c.s.V (b.toNat + i)).toNat 64) ∧
        holds c e (tail c + BitVec.ofNat 64 (32 + 4 * row)) ((scales c).extractLsb' 0 32).toNat 4 ∧
        holds c e (tail c + BitVec.ofNat 64 (96 + 4 * row)) ((scales c).extractLsb' 32 32).toNat 4 ∧
        holds c e (tail c + 4#64) (row + 1) 1) ∧
    (∀ s hh nn w, s.issues hh nn w u →
      let c := s.ctx hh nn w
      block c ∧ hCount l = 16 ∧ (dv.pool (hDep l) (hPool l)).of (terrOf c.s.lk) = true ∧ (c' c).spanGate a.toNat b.toNat (rowBytes (hHc l) (hFmt l) / 64) = none ∧
        (dv.slot hh nn).reply = .idle ∧ (c' c).newRecords (rowBytes (hHc l) (hFmt l)) (some (tail c)) ≤ (c' c).freeRecords →
      ∃ t, exec (.kvapp d a b cc) s = .next t ∧ (t.dev.slot hh nn).st = .waiting .reply ∧ (t.dev.slot hh nn).reply = .sent ∧
        t.dev.coming dv.clock (.depotPop (hDep l) (hPool l) hh nn)) ∧
    TrapsWhen (.kvapp d a b cc) u (fun c => c.sure ∧ (tail c).getLsbD 63 = true ∧ (tail c).extractLsb' 40 23 ≠ 0#23) 0x72 (fun _ => 2) tail) ∧
  (∀ la live : BitVec 4, ∀ km : KReg, ∀ kz : Bool, ∀ v : VReg, ∀ d a base : AReg, ∀ off : BitVec 24, ∀ o : LongOp, ∀ p₁ p₂ h n t i k : Nat, ∀ l : Launch,
    let at_ := fun (c : Ctx) => c.s.addr1 base off
    let f := fun (c : Ctx) => c.s.A base.toNat
    let row := fun (c : Ctx) => f c + 256#64 + off.signExtend 64
    let x := fun (c : Ctx) => c.s.A a.toNat
    let um := (useA [wa d, ra a]).long la
    let stays := fun (c : Ctx) => c.quiet ∧ c.s.reply ≠ .sent ∧ c.s.ops = [] ∧ c.d.launch? c.s.lk = some l ∧ live.toNat < l.lives.length
    Acts (.rtab base off) (useA [ra base])
      (fun c => (at_ c).toNat % 64 = 0 ∧ c.s.ops.find? (fun o => o.kind == .rtab) = some o ∧ ∀ y, y ∈ o.acc → y.st = .got) [] [] []
      (fun c e => (∀ j y, o.acc[j]? = some y → (e.slot c.h c.n).rot.get 0#32 j = Line.w32 y.line (y.va.toNat % 128)) ∧
        (∀ j, o.acc.length ≤ j → (e.slot c.h c.n).rot.get 0#32 j = 0#32) ∧ e.still = c.d.still) ∧
    TrapsWhen (.rtab base off) (useA [ra base]) (fun c => (at_ c).toNat % 64 ≠ 0) 0x05 (fun _ => 0) at_ ∧
    Acts (.ldkr la km kz v base off) (((⟨[v.toNat], [], [wv v, ra base], none, .all, false⟩ : Use).masked km kz).long la)
      (fun c => c.s.kind ≠ .ordered ∧ c.bufferAway = false ∧ (∀ o, o ∈ c.s.ops → o.id ≠ c.d.count) ∧ (f c).toNat % 256 = 0 ∧ c.mapped [.r] (f c) p₁ ∧ c.mapped [.r] (row c &&& ~~~(3#64)) p₂ ∧
        (c.d.core c.h).l1.find? (lineOf (f c).toNat) = none ∧ (c.d.core c.h).l1.find? (lineOf (row c &&& ~~~(3#64)).toNat) = none) [] [] []
      (fun c e => ∃ o, o ∈ (e.slot c.h c.n).ops ∧ o.kind = .ldkr v.toNat off c.s.rot ∧ o.vd = [v.toNat] ∧ o.mask = c.s.K km.toNat ∧ o.kz = kz ∧
        o.acc.map (fun y => (y.va, y.st)) = [(f c, .home p₁), (row c &&& ~~~(3#64), .home p₂)] ∧
        e.coming c.d.clock (.homeRead c.h c.n o.id 0 p₁) ∧ e.coming c.d.clock (.homeRead c.h c.n o.id 1 p₂)) ∧
    TrapsWhen (.ldkr la km kz v base off) (((⟨[v.toNat], [], [wv v, ra base], none, .all, false⟩ : Use).masked km kz).long la)
      (fun c => (f c).toNat % 256 ≠ 0) 0x72 (fun _ => 2) f ∧
    Acts (.migr la live d a) um
      (fun c => stays c ∧ (x c).toNat % 4 = 0 ∧ c.mapped [.r] (x c) p₁ ∧ c.s.leases = [] ∧ c.s.loading = false ∧ c.d.migrTarget c.s.lk c.h p₁ = c.h)
      [d.toNat] [] []
      (fun c e => (e.slot c.h c.n).A d.toNat = (if d = 0#4 then 0#64 else BitVec.ofNat 64 c.h) ∧
        ∀ q z, (e.core c.h).l1.find? q = some z → z.sealed_ = true) ∧
    TrapsWhen (.migr la live d a) um (fun c => stays c ∧ (x c).toNat % 4 ≠ 0) 0x05 (fun _ => 0) x ∧
    TrapsWhen (.migr la live d a) um (fun c => stays c ∧ (x c).toNat % 4 = 0 ∧ isWindow (x c) = true) 0x04 (fun _ => 6) x ∧
    Event (.migrArrival h n t)
      (fun _ d => (d.slot h n).reply = .sent ∧ (∀ w, (d.slot h n).st ≠ .held w) ∧ d.launch? (d.slot h n).lk = some l ∧ d.freeSlot (d.slot h n).lk t = some (i, k) ∧ t ≠ h)
      (fun _ d e =>
        let s := d.slot h n
        let r := e.slot t k
        let lv := l.lives.getD (s.live % 16) (0#128, 0#16, 0#8)
        let da := s.live / 16 % 16
        (e.slot h n).st = .free ∧ r.pc = s.pc + 8#64 ∧ r.gtid = s.gtid ∧ r.tsw = s.tsw ∧ r.lk = s.lk ∧
        (∀ j, r.V j = if lv.1.getLsbD j then s.V j else 0#512) ∧
        (∀ j, j ≠ 0 → r.K j = if lv.2.2.getLsbD j then s.K j else 0#16) ∧
        (∀ j, j ≠ 0 → r.A j = if j = da then BitVec.ofNat 64 t else if lv.2.1.getLsbD j then s.A j else 0#64)))

/-! ### System forms -/

/-- R35, R36 and R296: what mfs reads of each special register, and what mts writes: a read-only register ignores it, a fault record register
takes it from a privileged slot only, and %tsw takes each field as R36 says. -/
def Obligations.SpecialRegisters : Prop :=
  ∀ d a : AReg, ∀ sr : SReg, ∀ i : Nat,
    let only := fun (c : Ctx) (e : Dev) => (∀ h' n', ¬(h' = c.h ∧ n' = c.n) → e.slot h' n' = c.d.slot h' n') ∧
      (∀ k, (e.core k).bare = (c.d.core k).bare) ∧ e.bare = c.d.bare
    let r := fun (s : Slot) => [s.frec0, s.frec1, s.frec2, s.frec3]
    let mts := Instr.mts sr a
    let v := fun (c : Ctx) => c.s.A a.toNat
    let breach := fun (c : Ctx) => c.s.priv = false ∧ ((c.s.tsw.getLsbD 8 ≠ (v c).getLsbD 8) ∨ (c.s.tsw.getLsbD 9 ≠ (v c).getLsbD 9))
    ReadsA (.mfs sr d) (useA [wa d]) (fun _ => True) d (fun c => match sr with
      | .pc => c.s.pc
      | .tsw => c.s.tsw.setWidth 64
      | .gtid => c.s.gtid.setWidth 64
      | .core => BitVec.ofNat 64 c.h
      | .slot => BitVec.ofNat 64 c.n
      | .ts => ((((lanesOf c.s.laneSet).findSome? (fun l => c.s.tasks.find? l)).bind (fun id => c.d.task? c.s.lk id)).map (fun t => t.d.ts.setWidth 64)).getD 0#64
      | .taskid => (((lanesOf c.s.laneSet).findSome? (fun l => c.s.tasks.find? l)).getD 0#32).setWidth 64
      | .frec0 => c.s.frec0
      | .frec1 => c.s.frec1
      | .frec2 => c.s.frec2
      | .frec3 => c.s.frec3
      | .clock => BitVec.ofNat 64 c.d.clock
      | .tbgen => (c.d.core c.h).tbgen.setWidth 64
      | .mode => c.d.modeOf c.s) ∧
    CompletesWhen mts (useA [ra a]) (fun _ => sr ∈ [.pc, .gtid, .core, .slot, .ts, .taskid, .clock, .tbgen, .mode]) [] [] []
      (fun c s => s.pc = c.s.pc + 8#64) ∧
    Acts mts (useA [ra a]) (fun c => sr = .tsw ∧ ¬breach c) [] [] []
      (fun c e => only c e ∧ r (e.slot c.h c.n) = r c.s ∧ (i < 32 → (e.slot c.h c.n).tsw.getLsbD i =
        if (4 ≤ i ∧ i ≤ 9) ∧ i ≠ 8 ∧ i ≠ 9 ∨ 16 ≤ i then (v c).getLsbD i
        else if i = 8 ∨ i = 9 then (v c).getLsbD i
        else if i = 2 then c.s.tsw.getLsbD 2 && (v c).getLsbD 2 else c.s.tsw.getLsbD i)) ∧
    TrapsWhen mts (useA [ra a]) (fun c => sr = .tsw ∧ breach c) 0x80 (fun _ => 2) (fun c => c.w) ∧
    Acts mts (useA [ra a]) (fun c => c.s.priv = true ∧ sr ∈ [.frec0, .frec1, .frec2, .frec3]) [] [] []
      (fun c e => only c e ∧ (e.slot c.h c.n).tsw = c.s.tsw ∧ r (e.slot c.h c.n) = match sr with
        | .frec0 => [v c, c.s.frec1, c.s.frec2, c.s.frec3]
        | .frec1 => [c.s.frec0, v c, c.s.frec2, c.s.frec3]
        | .frec2 => [c.s.frec0, c.s.frec1, v c, c.s.frec3]
        | _ => [c.s.frec0, c.s.frec1, c.s.frec2, v c]) ∧
    TrapsWhen mts (useA [ra a]) (fun c => c.s.priv = false ∧ sr ∈ [.frec0, .frec1, .frec2, .frec3]) 0x80 (fun _ => 2) (fun c => c.w)

/-- R297 and R299: trap raises TRAPSW with its number and register; brk does so with 0xFFFF, unless a debugger holds the terrace, when it stops
the slot once; park waits for a wake, and takes one that came before. -/
def Obligations.TrapBreakPark : Prop :=
  ∀ a : AReg, ∀ imm : W32,
    let held := fun (c : Ctx) => (c.d.terrace (terrOf c.s.lk)).dbg.hold
    TrapsWhen (.trap a imm) (useA [ra a]) (fun _ => True) 0x81 (fun _ => imm.toNat % 65536) (fun c => c.s.A a.toNat) ∧
    TrapsWhen .brk (useA []) (fun c => held c = false) 0x81 (fun _ => 0xFFFF) (fun _ => 0#64) ∧
    CompletesWhen .brk (useA []) (fun c => held c = true ∧ c.s.bpPass = some c.s.pc) [] [] [] (fun c s => s.pc = c.s.pc + 8#64) ∧
    (∀ s h n w, s.issues h n w (useA []) → held (s.ctx h n w) = true → (s.dev.slot h n).bpPass ≠ some (s.dev.slot h n).pc →
      ∃ t, exec .brk s = .next t ∧ (t.dev.slot h n).st = .held .debug ∧ (t.dev.slot h n).pc = (s.dev.slot h n).pc ∧
        (t.dev.slot h n).frec0 = (s.dev.slot h n).frec0) ∧
    Acts .park (useA []) (fun c => c.s.wakeBit = true) [] [] [] (fun c e => (e.slot c.h c.n).wakeBit = false ∧ e.still = c.d.still) ∧
    WaitsWhen .park (useA []) (fun c => c.s.wakeBit = false) (fun _ => .park)

/-- R298 to R302: eret, wake, spawn and kill send their command to the named slot's core and complete with its answer; what each command does
when it reaches its slot: a return from an exception, a wake, a new thread, a slot that becomes FREE, a seated one at its turn. -/
def Obligations.SlotCommands : Prop :=
  ∀ a b cc d : AReg, ∀ r : W64, ∀ x : SlotCmd, ∀ i k ih im : Nat, ∀ l : Launch, ∀ e arg f v : W64, ∀ kind : BitVec 2,
    let ue := (useA [ra a, ra b, ra cc]).privileged
    let uw := useA [wa d, ra a]
    let us := useA [wa d, ra a, ra b, ra cc]
    let uk := useA [ra a]
    let va := fun (c : Ctx) => c.s.A a.toNat
    let named := fun (c : Ctx) k => c.sure ∧ c.s.reply = .idle ∧ c.d.nameOk (terrOf c.s.lk) (va c) k = true
    let asks := fun (i : Instr) (u : Use) (pre : Ctx → Prop) (h : Ctx → Nat) (n : Ctx → Nat) (op : Ctx → SlotOp) =>
      ∀ s h' n' w, s.issues h' n' w u → pre (s.ctx h' n' w) → ∃ t, exec i s = .next t ∧ (t.dev.slot h' n').pc = (s.dev.slot h' n').pc ∧
        (t.dev.slot h' n').reply = .sent ∧
        t.dev.coming s.dev.clock (.slotCommandArrival ⟨some (h', n'), none, h (s.ctx h' n' w), n (s.ctx h' n' w), op (s.ctx h' n' w)⟩)
    let arrives := fun (y : SlotOp) (pre : Dev → Prop) (post : Dev → Slot → Prop) (ans : Reply) =>
      Event (.slotCommandArrival x)
        (fun _ d => x.op = y ∧ d.savedTarget x = none ∧ (x.issuer = none ∨ terrOf (d.slot x.h x.n).lk = terrOf (d.slot ih im).lk) ∧ pre d ∧ (∀ z, x.issuer = some z → z = (ih, im) ∧ ih < nCores ∧ (ih, im) ≠ (x.h, x.n) ∧ (d.slot ih im).reply = .sent))
        (fun _ d e => post d (e.slot x.h x.n) ∧ (x.issuer = some (ih, im) → (e.slot ih im).reply = ans))
    let may := fun (d : Dev) => x.issuer = none ∨ (d.slot ih im).priv = true ∨ (d.slot x.h x.n).lk = (d.slot ih im).lk
    let act := (f.extractLsb' 0 2).toNat
    let reg := (f.extractLsb' 4 4).toNat
    asks (.eret a b cc) ue (fun c => c.d.nameOk (terrOf c.s.lk) (va c) false = true ∧ eretFlagsOk (c.s.A b.toNat) = true ∧ c.s.reply = .idle)
      (fun c => nameCore (va c)) (fun c => nameSlot (va c)) (fun c => .eret (c.s.A b.toNat) (c.s.A cc.toNat)) ∧
    CompletesWhen (.eret a b cc) ue
      (fun c => c.d.nameOk (terrOf c.s.lk) (va c) false = true ∧ eretFlagsOk (c.s.A b.toNat) = true ∧ c.s.reply = .done r) [] [] []
      (fun c s => s.pc = c.s.pc + 8#64) ∧
    TrapsWhen (.eret a b cc) ue (fun c => c.d.nameOk (terrOf c.s.lk) (va c) false = false) 0x82 (fun _ => 1) va ∧
    asks (.wake d a) uw (fun c => named c true ∧ (va c).extractLsb' 18 2 = 0#2) (fun c => nameCore (va c)) (fun c => nameSlot (va c))
      (fun _ => .wake 0#2) ∧
    CompletesWhen (.wake d a) uw (fun c => c.sure ∧ c.s.reply = .done r ∧ c.d.nameOk (terrOf c.s.lk) (va c) true = true ∧
        ((va c).extractLsb' 18 2 = 0#2 ∨ (va c).extractLsb' 18 2 = 1#2 ∧ c.s.priv = true)) [d.toNat] [] []
      (fun c s => s.pc = c.s.pc + 8#64 ∧ s.A d.toNat = if d = 0#4 then 0#64 else r) ∧
    TrapsWhen (.wake d a) uw (fun c => c.sure ∧ c.d.nameOk (terrOf c.s.lk) (va c) true = true ∧
        (va c).extractLsb' 18 2 = 1#2 ∧ c.s.priv = false) 0x80 (fun _ => 3) (fun c => c.w) ∧
    (let core := fun (c : Ctx) => if b = 0#4 then c.h else (c.s.A b.toNat).toNat
     let ok := fun (c : Ctx) => c.sure ∧ core c < 4096 ∧ c.d.launch? c.s.lk = some l ∧ l.has (core c) = true ∧
        l.entries.contains (va c).toNat = true
     asks (.spawn d a b cc) us (fun c => ok c ∧ c.s.reply = .idle) core (fun _ => 0)
       (fun c => .spawn (va c) (c.s.A cc.toNat)) ∧
     CompletesWhen (.spawn d a b cc) us (fun c => ok c ∧ c.s.reply = .done r) [d.toNat] [] []
       (fun c s => s.pc = c.s.pc + 8#64 ∧ s.A d.toNat = if d = 0#4 then 0#64 else r)) ∧
    asks (.kill a) uk (fun c => named c false ∧ ¬(nameCore (va c) = c.h ∧ nameSlot (va c) = c.n)) (fun c => nameCore (va c)) (fun c => nameSlot (va c)) (fun _ => .kill) ∧
    CompletesWhen (.kill a) uk (fun c => c.sure ∧ c.s.reply = .done r ∧ c.d.nameOk (terrOf c.s.lk) (va c) false = true ∧
        ¬(nameCore (va c) = c.h ∧ nameSlot (va c) = c.n)) [] [] []
      (fun c s => s.pc = c.s.pc + 8#64) ∧
    (∀ s h' n' w, s.issues h' n' w uk → (s.ctx h' n' w).sure → (s.ctx h' n' w).d.nameOk (terrOf (s.ctx h' n' w).s.lk) (va (s.ctx h' n' w)) false = true →
      nameCore (va (s.ctx h' n' w)) = h' → nameSlot (va (s.ctx h' n' w)) = n' → ∃ t, exec (.kill a) s = .next t ∧ (t.dev.slot h' n').st = .free) ∧
    arrives (.wake 0#2) (fun d => may d ∧ (d.slot x.h x.n).st ≠ .free ∧ (d.slot x.h x.n).wakeBit = false)
      (fun d s => s.wakeBit = true ∧ s.pc = (d.slot x.h x.n).pc ∧ ((d.slot x.h x.n).st = .waiting .park → s.st = .ready)) (.done 1#64) ∧
    arrives (.wake kind) (fun d => (d.slot x.h x.n).st = .free) (fun d s => s = d.slot x.h x.n) (.done 0#64) ∧
    arrives .kill (fun d => may d ∧ (d.slot x.h x.n).st ≠ .free ∧ ∀ z, (d.slot x.h x.n).st ≠ .seated z) (fun _ s => s.st = .free) (.done 0#64) ∧
    (∀ z, arrives .kill (fun d => may d ∧ (d.slot x.h x.n).st = .seated z ∧ (d.slot x.h x.n).killed = false)
      (fun _ s => s.st = .seated z ∧ s.killed = true) (.done 0#64)) ∧
    -- the turn of a killed slot is a kill that nobody sends
    (∀ z, arrives .kill (fun d => x.issuer = none ∧ x.host = none ∧ (d.slot x.h x.n).st = .seated z ∧ (d.slot x.h x.n).killed = true)
      (fun _ s => s.st = .free) (.done 0#64)) ∧
    (∀ (m : Memory) (dv : Dev) (h n : Nat), let e := dv.seatAssign h
      (e.core h).seatedIn (e.clock % 16) = some n → (e.slot h n).killed = true →
      dv.turn m h = .stay (e.first [.slotCommandArrival ⟨none, none, h, n, .kill⟩])) ∧
    arrives (.eret f v)
      (fun d => f.getLsbD 11 = false ∧ act < 3 ∧ (d.slot x.h x.n).st = .held .trap ∧ (d.slot x.h x.n).stopReq = false)
      (fun d s => s.st = .ready ∧
        s.pc = (if act = 0 ∨ act = 1 ∧ (d.slot x.h x.n).recDef = true then (d.slot x.h x.n).pc
          else if act = 1 then (d.slot x.h x.n).pc + 8#64 else v) ∧
        (∀ j, s.A j = if act < 2 ∧ j = reg ∧ j ≠ 0 then v else (d.slot x.h x.n).A j) ∧ (∀ j, s.V j = (d.slot x.h x.n).V j) ∧
        (∀ j, s.K j = (d.slot x.h x.n).K j)) (.done 0#64) ∧
    Event (.slotCommandArrival x)
      (fun _ d => x.op = .spawn e arg ∧ x.issuer = some (ih, im) ∧ ih < nCores ∧ d.spawnSaved x = false ∧ (d.slot ih im).reply = .sent ∧
        (d.slot ih im).st ≠ .free ∧ d.launch? (d.slot ih im).lk = some l ∧ l.st = .resident ∧ d.freeSlot (d.slot ih im).lk x.h = some (i, k))
      (fun _ d e' => (e'.slot ih im).reply = .done (slotName x.h k) ∧
        let s := e'.slot x.h k
        s.st = .ready ∧ s.pc = l.code + e ∧ s.lk = (d.slot ih im).lk ∧ s.laneSet = 0xFFFF#16 ∧ s.kind = .launch ∧ s.tsw = l.tsw ∧
        s.gtid = gtidOf (d.slot ih im).lk l.serial ∧ (∀ j, s.V j = 0#512) ∧ (∀ j, j ≠ 0 → s.K j = 0#16) ∧
        ∀ j, s.A j = if j = 1 then arg else 0#64)

/-- R76: halt of a thread whose stores are visible and that holds no lease makes its slot FREE, and with retain names its core for the
launch's successor. R23 and R33: a free seat goes to a READY slot, and a granule's refill makes its registers present. -/
def Obligations.HaltSeatsGranules : Prop :=
  ∀ retain : Bool, ∀ h g : Nat,
    (∀ s h n w, s.issues h n w (useA []) →
      let c := s.ctx h n w
      c.quiet ∧ c.s.ops = [] ∧ c.s.leases = [] ∧ c.s.kind ≠ .ordered →
      ∃ t, exec (.halt retain) s = .next t ∧ (∀ a, t.mem.read a = s.mem.read a) ∧ (t.dev.slot h n).st = .free ∧
        (∀ h' n' j, ¬(h' = h ∧ n' = n) → (t.dev.slot h' n').A j = (s.dev.slot h' n').A j ∧ (t.dev.slot h' n').V j = (s.dev.slot h' n').V j ∧
          (t.dev.slot h' n').K j = (s.dev.slot h' n').K j ∧ (t.dev.slot h' n').pc = (s.dev.slot h' n').pc) ∧
        ∀ l u, s.dev.launch? (s.dev.slot h n).lk = some l → l.succ = some u →
          ∃ l', t.dev.launch? (s.dev.slot h n).lk = some l' ∧ (retain = true → h ∈ l'.retain) ∧ (retain = false → l'.retain = l.retain)) ∧
    (∀ n, Event (.seatAssign h) (fun _ d => (d.core h).seatedIn (d.clock % 16) = none ∧ d.seatChoice h (d.clock % 16) = some n)
      (fun _ d e => (e.slot h n).st = .seated (d.clock % 16) ∧ ∀ h' n', ¬(h' = h ∧ n' = n) → e.slot h' n' = d.slot h' n')) ∧
    Event (.seatAssign h) (fun _ d => (d.core h).seatedIn (d.clock % 16) ≠ none ∨ d.seatChoice h (d.clock % 16) = none) (fun _ d e => e = d) ∧
    (∀ n, Event (.granuleRefill h n g) (fun _ d => (d.core h).entriesUsed n ((d.slot h n).winBase + 8 * g) = false)
      (fun _ d e => (∀ r, r / 8 = g → (e.slot h n).vst.get .present r ≠ .unrestored) ∧
        (∀ r, r / 8 ≠ g → (e.slot h n).vst.get .present r = (d.slot h n).vst.get .present r) ∧ (e.slot h n).pc = (d.slot h n).pc ∧
        ∀ j, (e.slot h n).A j = (d.slot h n).A j ∧ (e.slot h n).V j = (d.slot h n).V j ∧ (e.slot h n).K j = (d.slot h n).K j))

/-- R309, R310, R327, R344 and R345: plbinv and tlbinv drop the entries they name at once and complete when every core asked has answered, each
once it uses no entry of the range; prof.rd reads a counter, prof.clr zeroes it, and prof.lease asks for, holds or returns the lease. -/
def Obligations.ShootdownsAndProfiling : Prop :=
  ∀ a b d : AReg, ∀ r : W64, ∀ id h i g : Nat, ∀ x : Shoot, ∀ t : Nat,
    let v := fun (c : Ctx) => c.s.A a.toNat
    let w := fun (c : Ctx) => c.s.A b.toNat
    let up := (useA [ra a]).privileged
    let ut := (useA [ra a, ra b]).privileged
    let size := fun c => pageSize ((w c).toNat % 8)
    let okt := fun (c : Ctx) => (w c).toNat < 16 ∧ (v c).toNat % size c = 0
    let begins := fun (i : Instr) (u : Use) (pre : Ctx → Prop) (cores : Ctx → List Nat) (post : Ctx → Dev → Prop) =>
      ∀ s h n w', s.issues h n w' u → pre (s.ctx h n w') → (s.dev.slot h n).reply = .idle → cores (s.ctx h n w') ≠ [] →
        ∃ t, exec i s = .next t ∧ (t.dev.slot h n).reply = .sent ∧ (t.dev.slot h n).pc = (s.dev.slot h n).pc ∧ post (s.ctx h n w') t.dev ∧
          ∀ k, k ∈ cores (s.ctx h n w') → ∃ y, y ∈ t.dev.shoots ∧ y.h = h ∧ y.n = n ∧ t.dev.coming s.dev.clock (.shootdownAck y.id k)
    let sel := fun (c : Ctx) => g < 4 ∧ (v c).toNat = 256 * g + i ∧ i < ([64, 16, 1, 1].getD g 0)
    begins (.plbinv a) up (fun c => v c = BitVec.allOnes 64 ∨ (v c).toNat < 4096) (fun c => c.d.cores.keys.filter (c.d.terrace (terrOf c.s.lk)).has)
      (fun c e => ∀ k y, (c.d.terrace (terrOf c.s.lk)).has k = true → y ∈ (e.core k).plb → y.terr = terrOf c.s.lk →
        v c ≠ BitVec.allOnes 64 ∧ y.dom ≠ (v c).toNat) ∧
    CompletesWhen (.plbinv a) up (fun c => (v c = BitVec.allOnes 64 ∨ (v c).toNat < 4096) ∧ c.s.reply = .done r) [] [] []
      (fun c s => s.pc = c.s.pc + 8#64) ∧
    TrapsWhen (.plbinv a) up (fun c => v c ≠ BitVec.allOnes 64 ∧ 4096 ≤ (v c).toNat) 0x82 (fun _ => 5) v ∧
    begins (.tlbinv a b) ut okt (fun c => c.d.cores.keys)
      (fun c e => ∀ k ls y, e.xl.find? k = some ls → y ∈ ls →
        overlaps y.base y.size (if (w c).getLsbD 3 then 0 else (v c).toNat) (if (w c).getLsbD 3 then allPages else size c) = false) ∧
    CompletesWhen (.tlbinv a b) ut (fun c => okt c ∧ c.s.reply = .done r) [] [] [] (fun c s => s.pc = c.s.pc + 8#64) ∧
    TrapsWhen (.tlbinv a b) ut (fun c => 16 ≤ (w c).toNat) 0x82 (fun _ => 5) w ∧
    Event (.shootdownAck id h) (fun _ d => d.shoots.find? (fun y => y.id == id) = some x ∧ x.cores = [h] ∧ x.h < nCores ∧ (d.slot x.h x.n).reply ≠ .stale ∧
        d.usesOld x h = false)
      (fun _ _ e => (e.slot x.h x.n).reply = .done 0#64) ∧
    Event (.shootdownAck id h) (fun _ d => d.shoots.find? (fun y => y.id == id) = some x ∧ x.cores.contains h = true ∧ d.usesOld x h = true)
      (fun _ d e => e.coming d.clock (.shootdownAck id h) ∧ e.shoots = d.shoots) ∧
    Acts (.profRd d a) (useA [wa d, ra a]) sel [d.toNat] [] []
      (fun c e => ((e.slot c.h c.n).A d.toNat = if d = 0#4 then 0#64 else (c.d.core c.h).prof.get 0#64 (256 * g + i)) ∧ e.still = c.d.still) ∧
    Acts (.profClr a) (useA [ra a]) (fun c => sel c ∧ c.s.priv = true) [] [] []
      (fun c e => (e.core c.h).prof.get 0#64 (256 * g + i) = 0#64 ∧
        ∀ k, k ≠ 256 * g + i → (e.core c.h).prof.get 0#64 k = (c.d.core c.h).prof.get 0#64 k) ∧
    TrapsWhen (.profClr a) (useA [ra a]) (fun c => c.s.priv = false ∧ c.d.profHolder ≠ some (terrOf c.s.lk)) 0x80 (fun _ => 5) (fun c => c.w) ∧
    Acts (.profLease d a) (useA [wa d, ra a]) (fun c => v c = 0#64) [d.toNat] [] []
      (fun c e => (e.slot c.h c.n).A d.toNat = 0#64 ∧ e.profHolder ≠ some (terrOf c.s.lk) ∧ terrOf c.s.lk ∉ e.profQueue) ∧
    Acts (.profLease d a) (useA [wa d, ra a]) (fun c => v c = 1#64) [d.toNat] [] []
      (fun c e => e.profHolder = c.d.profHolder ∧
        (c.d.profHolder = some (terrOf c.s.lk) → (d ≠ 0#4 → (e.slot c.h c.n).A d.toNat = 2#64) ∧ e.profQueue = c.d.profQueue) ∧
        (c.d.profHolder ≠ some (terrOf c.s.lk) → (d ≠ 0#4 → (e.slot c.h c.n).A d.toNat = 1#64) ∧ terrOf c.s.lk ∈ e.profQueue)) ∧
    Event (.profLeaseGrant t) (fun _ d => d.profHolder = none ∧ d.profQueue.head? = some t)
      (fun _ d e => e.profHolder = some t ∧ e.profQueue = d.profQueue.drop 1 ∧ ∀ k, e.shared.get 0#64 (256 * t + k % 256) = 0#64)

/-! ### Launches and contexts -/

/-- R277 to R289: a good request becomes pending and a bad one is answered with its code; a pending launch whose image has been read and that
fits is placed; a placed one has its regions zeroed and starts one thread on every core; a resident one with nothing left ends, and its record
is sent. -/
def Obligations.LaunchLife : Prop :=
  ∀ t lk c h : Nat, ∀ r : V512, ∀ sub : Submitter, ∀ l : Launch, ∀ full : Bool,
    let mine := fun (d : Dev) => d.up = true ∧ ∀ f, sub = .host f → (d.terrace t).vf = f
    let code := fun (d : Dev) => d.requestCode t r full (launchOf d t r sub)
    let starts := fun (_d e : Dev) => (∃ l', e.launch? lk = some l' ∧ l'.st = .resident ∧ l'.serial = l.len) ∧
      ∀ h n rest, h ∈ l.cores → (l.resvOn h).slots = n :: rest →
        let s := e.slot h n
        s.st = .ready ∧ s.pc = l.code + BitVec.ofNat 64 (l.entries.headD 0) ∧ s.lk = lk ∧ s.kind = .launch ∧ s.laneSet = 0xFFFF#16 ∧ s.tsw = l.tsw ∧
        (∀ j, s.A j = if j = 1 then l.data else 0#64) ∧ (∀ j, s.V j = 0#512) ∧
        e.rankEnt l.terr (l.rankBase + (h - l.first)) = rankFor h n ∧ ∀ q x, (e.core h).l1.find? q = some x → x.sealed_ = true
    let placed := fun (d : Dev) => d.launch? lk = some l ∧ l.st = .placed ∧ l.retryAt ≤ d.clock ∧ l.predOf = none
    let resident := fun (d : Dev) => d.launch? lk = some l ∧ l.st = .resident ∧ l.retryAt ≤ d.clock
    Event (.launchRequest t r full sub) (fun _ d => mine d ∧ code d = 0)
      (fun _ d e => ∃ l, e.launch? (1024 * t + (r.extractLsb' 160 16).toNat) = some l ∧ l.st = .pending ∧ l.terr = t ∧ l.image = r.extractLsb' 0 64 ∧
        l.data = r.extractLsb' 64 64 ∧ l.first = (d.terrace t).base + (r.extractLsb' 128 16).toNat ∧ l.prio = (r.extractLsb' 152 8).toNat ∧
        l.rankBase = (r.extractLsb' 192 16).toNat ∧ l.exportA = r.extractLsb' 256 64 ∧ l.sub = sub) ∧
    Event (.launchRequest t r full sub) (fun _ d => mine d ∧ code d ≠ 0)
      (fun _ d e => e.launches = d.launches ∧ ∃ x, e.coming d.clock (.messageArrival x) ∧ (x.data.extractLsb' 32 16).toNat = code d) ∧
    Event .placement
      (fun _ d => d.launches.ents = [(lk, l)] ∧ l.st = .pending ∧ l.read = true ∧ (d.terrace l.terr).state = 1 ∧
        (d.terrace l.terr).base ≤ l.first ∧ l.first + l.len ≤ (d.terrace l.terr).base + (d.terrace l.terr).len ∧
        ∀ h, h ∈ l.cores → (d.fitOn lk l h).isSome = true)
      (fun _ d e => ∃ l', e.launch? lk = some l' ∧ l'.st = .placed ∧ ∀ h, h ∈ l.cores → some (l'.resvOn h) = d.fitOn lk l h ∧
        ∀ i w, l.maps[i]? = some w → (e.core h).map.find? (16 * lk + i) = some w) ∧
    Event (.launchLoad lk) (fun _ d => placed d ∧ l.grps = [] ∧ l.dataLen = 0)
      (fun _ d e => starts d e ∧ ∀ h w a, h ∈ l.cores → w ∈ l.maps → rgnV w = true → rgnBase w ≤ a → a < rgnEnd w → a % 4 = 0 →
        (e.core h).word a = 0#32 ∧ (e.core h).tag a = 0#4) ∧
    Event (.launchLoad lk) (fun _ d => placed d ∧ l.grps ≠ [] ∧ ∀ g, g ∈ d.groups → g.id ∉ l.grps) (fun _ => starts) ∧
    Event (.launchComplete lk) (fun _ d => resident d ∧ l.ending = none ∧ d.launchIdle lk l = true ∧ l.out = false)
      (fun _ d e => ∃ l', e.launch? lk = some l' ∧ l'.ending = some d.count ∧ l'.dropped = d.poolCount lk ∧ d.sameSlots e) ∧
    Event (.launchComplete lk)
      (fun _ d => resident d ∧ l.ending = some c ∧ (∀ g, g ∈ d.groups → (c ≤ g.id ∨ l.has g.core = false) ∧ g.id ∉ l.grps) ∧
        (l.exportA = 0#64 ∨ l.noFlush = true ∨ 17 ≤ l.flushAt) ∧ l.retain = [])
      (fun _ d e => e.launch? lk = none ∧ ∃ x, e.coming d.clock (.messageArrival x) ∧ x.rank = l.mailbox ∧ x.terr = l.mailTerr ∧
        x.data.extractLsb' 0 48 = 2#48 ∧ x.data.extractLsb' 48 16 = BitVec.ofNat 16 l.lnum) ∧
    Event (.retainedHoldWithdrawal lk) (fun _ d => d.launch? lk = some l ∧ l.st = .retained ∧ h ∈ l.cores)
      (fun _ _ e => e.launch? lk = none ∧ ∀ i, i < 16 → (e.core h).map.find? (16 * lk + i) = none)

/-- R275, R276 and R303 to R308: a descriptor write within the limits takes effect, any other is ignored; a switch suspends one terrace and makes
the other active, and while it runs none other begins; a seat that no outgoing slot holds lapses; on a core the slots are saved one by one
into its block, then what its launches hold there, and a launch is restored from it, its local store unit by unit. -/
def Obligations.TenantSwitches : Prop :=
  ∀ t h seat n lk' : Nat, ∀ w0 w1 : W64, ∀ req : BitVec 256, ∀ w : Switch, ∀ x : Saved, ∀ s0 : Slot,
    let y := fun (d : Dev) => (d.terrace t).withWords w0 w1
    let ok := fun (d : Dev) => t < 32 ∧ d.descriptorOk t (d.terrace t) (y d) = true
    let out := (req.extractLsb' 0 8).toNat
    let inn := (req.extractLsb' 8 8).toNat
    let oarea := req.extractLsb' 64 64
    let iarea := req.extractLsb' 128 64
    let block := fun (d : Dev) (area : W64) => area.toNat + 2 ^ 21 * (h - (d.terrace t).base)
    Event (.terraceDescriptorWrite t w0 w1) (fun _ d => ok d ∧ ((d.terrace t).state = (y d).state ∨ (d.terrace t).state = 0 ∨ (y d).state = 0))
      (fun _ d e => (e.terrace t).w0 = w0 ∧ (e.terrace t).w1 = w1 ∧ ∀ u, u ≠ t → e.terrace u = d.terrace u) ∧
    Event (.terraceDescriptorWrite t w0 w1) (fun _ d => ¬ok d) (fun _ d e => e = d) ∧
    Event (.switchRequest req) (fun _ d => d.up = true ∧ d.switchOk out inn oarea iarea = true)
      (fun _ d e => (out ≠ 0xFF → (e.terrace out).state = 2) ∧ (inn ≠ 0xFF → (e.terrace inn).state = 1) ∧
        ∀ u, u ≠ out → u ≠ inn → e.terrace u = d.terrace u) ∧
    Event (.switchRequest req) (fun _ d => d.switch ≠ none) (fun _ d e => e = d) ∧
    Event (.switchRequest req) (fun _ d => d.up = true ∧ d.switch = none ∧ d.switchOk out inn oarea iarea = false)
      (fun _ d e => e.switchDone = 2 ∧ e.switch = d.switch ∧ e.terr = d.terr) ∧
    Event (.seatLapse h seat)
      (fun _ d => d.switch = some w ∧ w.toSave.contains h = true ∧ w.start < d.clock ∧ d.clock % 16 = seat ∧ (d.core h).seatedIn seat = none ∧
        (d.core h).lapsed.contains seat = false)
      (fun _ d e => (e.core h).lapsed = (d.core h).lapsed ++ [seat] ∧ d.sameSlots e) ∧
    (∀ s : State, ∀ lk : Nat, ∀ rest : List Nat, s.dev.switch = some w → w.out = some t → w.toSave.contains h = true →
      let d := s.dev.holdTerrace t h
      let a := block s.dev w.oarea
      let rec_ := a + 0x140000 + 2048 * n
      let z := s.dev.slot h n
      let todo := (d.launchesOn t h).filter (fun lk => !d.isSaved lk h)
      let there := fun (f : List Host.Cell × Dev) => (d.visit (d.terrace t).vf true (linesOf (f.1.map (·.1)))).2 = true
      (n < 64 → d.nextSlot t h = some n → d.slotStill h n = true → there (d.saveSlot s.mem t h n w) →
        ∃ u, exec (.contextSave h) s = .next u ∧ (u.dev.slot h n).st = .free ∧ (u.dev.slot h (awayIx t n)).pc = z.pc ∧ u.mem.w64 rec_ = z.pc ∧
          (∀ j, j < 16 → u.mem.w64 (rec_ + 8 + 8 * j) = z.A j) ∧ (∀ j, j < 8 → u.mem.w16 (rec_ + 0x88 + 2 * j) = (z.K j).toNat) ∧
          ∀ j, j < z.winCount → BitVec.ofNat 512 (leNat (u.mem.bytes (a + 0x160000 + 64 * (z.winBase + j)) 64)) = z.V j) ∧
      (d.nextSlot t h = none → todo = lk :: rest → d.launchStill lk h = true → there (d.saveLaunch s.mem t lk h w) →
        ∃ u, exec (.contextSave h) s = .next u ∧ (∃ x, x ∈ u.dev.saved ∧ x.terr = t ∧ x.h = h ∧ x.lks = [lk]) ∧
          ∀ q, q ∈ (s.dev.core h).regionWords [lk] → q % 4 = 0 → q < 2 ^ 20 → u.mem.w32 (a + q) = (s.dev.core h).word q) ∧
      (d.nextSlot t h = none → todo = [] →
        ∃ u, exec (.contextSave h) s = .next u ∧ ∀ v, u.dev.switch = some v → h ∉ v.toSave)) ∧
    Event (.contextRestore h)
      (fun m d => let a := (d.terrace t).block w.iarea h
        n < 64 ∧ d.switch = some w ∧ w.inn = some t ∧ w.toRestore.contains h = true ∧ (d.core h).lsTodo = [] ∧ d.saved = [x] ∧ x.terr = t ∧ x.h = h ∧
        x.lks = [lk'] ∧ x.slots = [n] ∧ x.tiles.ents = [] ∧ d.savedAt m w.iarea false x = true ∧ d.canRestore x lk' = true ∧
        d.slot h (awayIx t n) = s0 ∧ s0.st ≠ .free ∧ (d.visit (d.terrace t).vf false (d.restoreReads x a)).2 = true)
      (fun m d e =>
        let b := block d w.iarea
        let a := b + 0x140000 + 2048 * n
        let s := e.slot h n
        e.saved = [] ∧ s.pc = m.w64 a ∧ (∀ j, 0 < j → j < 16 → s.A j = m.w64 (a + 8 + 8 * j)) ∧
        (∀ j, 0 < j → j < 8 → (s.K j).toNat = m.w16 (a + 0x88 + 2 * j)) ∧ s.tsw = m.w32 (a + 0x98) ∧ (s0.st ≠ .held .lost → s.frec0 = m.w64 (a + 0xA0)) ∧
        (∀ j, j < s0.winCount → (∀ z, s0.vst.get .present j ≠ .awaiting z) →
          s.V j = BitVec.ofNat 512 (leNat (m.bytes (b + 0x160000 + 64 * (s0.winBase + j)) 64)) ∧
          (s0.ops = [] → s.blockOf (rvn j) = some (.unrestored (j / 8)))) ∧
        (e.core h).lsTodo = (x.core.units lk').map (fun u => (4096 * u, b, lk'))) ∧
    (∀ u a rest, Event (.contextRestore h)
      (fun _ d => d.switch = some w ∧ w.inn = some t ∧ w.toRestore.contains h = true ∧ (d.core h).lsTodo = (u, a, lk') :: rest ∧
        (d.visit (d.terrace t).vf false (d.core h).unitReads).2 = true)
      (fun m d e => (e.core h).lsTodo = rest ∧ ∀ q, q ∈ (d.core h).regionWords [lk'] → q / 4096 = u / 4096 → q % 4 = 0 →
        (e.core h).word q = m.w32 (a + q)))

/-! ### The host -/

/-- R243, R328, R332 to R334, R349, R350 and R374: what a write of each host register does: taken within the limits of its rule, else ignored;
HMSGCTL sends the message or sets its error, and a slot command goes to its slot. What a host read of some registers returns (RECLAIM as R328
gives it).
R175, R347, R348 and R363: a host read of a line that is not pending reads it as it stands, and the host then holds it; a host write of a
line writes the bytes of its mask and no other, and a line written whole is no longer poisoned; a snoop response takes the line from the host,
its dirty data written first. A host access of an address that is no device memory faults. -/
def Obligations.HostAccesses : Prop :=
  (∀ dep pool f off op : Nat, ∀ w0 w1 v : W64, ∀ b : BitVec 256, ∀ len : Bool,
    let keeps := fun (i : Instr) (pre : Dev → Prop) => Event i (fun _ => pre) (fun _ d e => e = d)
    let funcs := fun (d e : Dev) (g : Func → Func) => e.func f = g (d.func f) ∧ (∀ k, k ≠ f → e.func k = d.func k) ∧ d.sameSlots e
    let v32 : W32 := v.setWidth 32
    let x := cmdOperand b 0
    let kind := x.extractLsb' 18 2
    let good := fun (d : Dev) (o : SlotOp) => f < 32 ∧ d.up = true ∧ (b.extractLsb' 0 8).toNat = op ∧ match o with
      | .eret fl _ => op = 1 ∧ d.hostName f x false = true ∧ eretFlagsOk fl = true
      | .wake k => op = 2 ∧ d.hostName f x true = true ∧ k.getLsbD 1 = false
      | _ => op = 3 ∧ d.hostName f x false = true
    let cmd := fun (i : Instr) (o : SlotOp) => Event i (fun _ d => good d o)
      (fun _ d e => (e.func f).slotcmd = b ∧ e.coming d.clock (.slotCommandArrival ⟨none, some f, nameCore x, nameSlot x, o⟩))
    let t := (v.extractLsb' 0 5).toNat
    let r := (v.extractLsb' 16 16).toNat
    Event (.poolDescriptorWrite dep pool w0 w1) (fun _ d => (d.pool dep pool).free = (d.pool dep pool).count ∧ poolOk w0 w1 = true ∧ dep < 9 ∧ pool < 16)
      (fun _ _ e => (e.pool dep pool).base = w0 &&& ~~~0xFFF#64 ∧ (e.pool dep pool).count = (w1.extractLsb' 0 23).toNat ∧
        (e.pool dep pool).terr = (w1.extractLsb' 58 6).toNat ∧ (e.pool dep pool).v = w0.getLsbD 0 ∧
        (∀ p, (e.pool dep pool).pop = some p → p.1 = 0)) ∧
    keeps (.poolDescriptorWrite dep pool w0 w1) (fun d => (d.pool dep pool).free ≠ (d.pool dep pool).count ∨ poolOk w0 w1 = false) ∧
    Event (.qpartWrite f v) (fun _ d => f < 33 ∧ d.qpartOk f v = true ∧ v.getLsbD 48 = false)
      (fun _ d e => funcs d e (fun x => { x with qpart := v &&& 0x0000FFFF0000FFFF#64 }) ∧ e.qsets = d.qsets) ∧
    Event (.qpartWrite f v) (fun _ d => f < 33 ∧ d.qpartOk f v = true ∧ v.getLsbD 48 = true)
      (fun _ _ e => (e.func f).qpart = v &&& 0x0000FFFF0000FFFF#64 ∧ ∀ k qs q, e.qsets.find? k = some qs → q ∈ qs →
        q.owner = f → (v.toNat % 65536).testBit q.way = false → q.trim = true ∧ e.pinned q = true) ∧
    keeps (.qpartWrite f v) (fun d => 33 ≤ f ∨ d.qpartOk f v = false) ∧
    Event (.qmewsWrite f v) (fun _ d => f < 33 ∧ d.qmewsOk f v = true) (fun _ d e => funcs d e (fun x => { x with qmews := v })) ∧
    keeps (.qmewsWrite f v) (fun d => 33 ≤ f ∨ d.qmewsOk f v = false) ∧
    (∀ k : Int, Event (.resWrite f v32) (fun _ d => f < 32 ∧ k = (d.func f).res + v32.toInt ∧ 0 ≤ k ∧ k ≤ (d.func f).burst)
      (fun _ d e => funcs d e (fun x => { x with res := k.toNat }))) ∧
    keeps (.resWrite f v32) (fun d => 32 ≤ f ∨ (d.func f).res + v32.toInt < 0 ∨ ((d.func f).burst : Int) < (d.func f).res + v32.toInt) ∧
    Event (.hqRingWrite f len v) (fun _ _ => f < 32 ∧ (len = true → ringLen (v.toNat % 2 ^ 32) = true) ∧ (len = false → v.toNat % 4096 = 0))
      (fun _ d e => funcs d e (fun x => { (if len then { x with hqLen := v.toNat % 2 ^ 32 } else { x with hqBase := v }) with hqHead := 0, hqTail := 0 })) ∧
    Event (.hqtailWrite f v32) (fun _ d => f < 32 ∧ ((d.func f).hqHead - v32).toNat ≤ (d.func f).hqLen)
      (fun _ d e => funcs d e (fun x => { x with hqTail := v32 })) ∧
    keeps (.hqtailWrite f v32) (fun d => 32 ≤ f ∨ (d.func f).hqLen < ((d.func f).hqHead - v32).toNat) ∧
    cmd (.slotcmdEret f b) (.eret (cmdOperand b 1) (cmdOperand b 2)) ∧ cmd (.slotcmdWake f b) (.wake kind) ∧ cmd (.slotcmdKill f b) .kill ∧
    Event (.hmsgctl f v) (fun _ d => f < 32 ∧ (d.func f).busy = false ∧ d.up = true ∧ (d.terrace t).vf = f ∧ (d.terrace t).state = 1 ∧ d.rankOk t r = true)
      (fun _ d e => funcs d e (fun x => { x with busy := true, err := false }) ∧ ∃ y, e.coming d.clock (.messageArrival y) ∧ y.terr = t ∧ y.rank = r ∧
        y.data = (d.func f).hmsg ∧ y.host = some f) ∧
    Event (.hmsgctl f v) (fun _ d => f < 32 ∧ (d.func f).busy = false ∧ d.up = true ∧ ((d.terrace t).vf ≠ f ∨ (d.terrace t).state ≠ 1 ∨ d.rankOk t r = false))
      (fun _ d e => funcs d e (fun x => { x with err := true }) ∧ e.net = d.net) ∧
    Event (.registerWrite 32 off v) (fun _ _ => off % 8 = 0 ∧ 0x200 ≤ off ∧ off < 0x300 ∧ v.toNat % 8192 = 0)
      (fun _ d e => (e.terrace ((off - 0x200) / 8)).dtBase = v ∧ ∀ u, u ≠ (off - 0x200) / 8 → e.terrace u = d.terrace u) ∧
    Event (.registerWrite 32 0x300 v) (fun _ _ => v.toNat % 8192 = 0) (fun _ d e => e.troot = v ∧ d.sameSlots e) ∧
    Event (.registerWrite f off v) (fun _ d => f < 32 ∧ (d.func f).busy = false ∧ off % 8 = 0 ∧ 0x20C0 ≤ off ∧ off < 0x2100)
      (fun _ d e => (e.func f).hmsg.extractLsb' (8 * (off - 0x20C0)) 64 = v ∧ d.sameSlots e) ∧
    keeps (.registerWrite f off v) (fun _ => 32 < f ∨ f < 32 ∧ (off < 0x20C0 ∨ 0x3100 ≤ off))) ∧
  (∀ d : Dev, ∀ f t v : Nat,
    (f < 32 → d.hostReg f 0x2010 = (d.func f).hqHead.setWidth 64 ∧ d.hostReg f 0x200C = 0#64 ∧
      (d.hostReg f 0x2080).getLsbD 0 = (d.func f).busy ∧ (d.hostReg f 0x2080).getLsbD 1 = (d.func f).err) ∧
    (t < 32 → d.hostReg 32 (16 * t) = (d.terrace t).w0 ∧ d.hostReg 32 (16 * t + 8) = (d.terrace t).w1) ∧
    ((∀ u, u < 32 → (d.func u).res ≤ (d.func u).guar) → d.reclaim = 0xFF) ∧
    (v < 32 → (d.func v).guar < (d.func v).res → (∀ u, u < 32 → (d.func u).res - (d.func u).guar ≤ (d.func v).res - (d.func v).guar) →
      (∀ u, u < v → (d.func u).res - (d.func u).guar < (d.func v).res - (d.func v).guar) → d.reclaim = v)) ∧
  (∀ pa : Nat, ∀ data : Line, ∀ mask : LineMask, ∀ dirty : Bool, ∀ s : State,
    let l := lineOf pa
    let d := s.dev
    let writes := fun (t : State) (m : LineMask) => ∀ a, t.mem.read a =
      if l ≤ a ∧ a < l + 128 ∧ m.getLsbD (a - l) = true then Line.byte data (a - l) else s.mem.read a
    (isHbm pa = true → d.up = true → d.pending l = false → (d.quay 32 l false).isSome = true → d.linePoison.contains l = false →
      ∃ t, exec (.hostMemRead pa) s = .next t ∧ t.mem = s.mem ∧ t.dev.hostRead = s.mem.bytes l 128 ∧ t.dev.hostLines.contains l = true ∧
        d.sameSlots t.dev) ∧
    (isHbm pa = true → d.up = true → d.pending l = true → exec (.hostMemRead pa) s = .next s) ∧
    (isHbm pa = true → d.up = true → d.pending l = false → (d.func 32).logOn = false → (d.quay 32 l true).isSome = true →
      ∃ t, exec (.hostMemWrite pa data mask) s = .next t ∧ writes t mask ∧ d.sameSlots t.dev ∧
        (mask = BitVec.allOnes 128 → t.dev.linePoison.contains l = false)) ∧
    ((d.home (homeOf l)).snoop.any (fun e => e.2 == l) = true → (d.func 32).logOn = false →
      (dirty = true → (d.quay 32 l true).isSome = true) →
      ∃ t, exec (.birsp pa dirty data) s = .next t ∧ t.dev.hostLines.contains l = false ∧
        (dirty = true → writes t (BitVec.allOnes 128)) ∧ (dirty = false → ∀ a, t.mem.read a = s.mem.read a)) ∧
    (isHbm pa = false → exec (.hostMemRead pa) s = .fault (.noSuchAddress pa) ∧ exec (.hostMemWrite pa data mask) s = .fault (.noSuchAddress pa)))

/-! ### Window accesses, walks and exceptions -/

/-- R114, R147: a window access that reaches the core of its word acts on that core's banks: a load takes the word and its answer goes back, a
store writes its word and is reported performed, and a refused store is filed with its slot. A word outside the regions of the slot's terrace
in that core's map (log 22) traps a load. An answer with data completes its lane, and a performed store no longer holds its slot back (the header of an ldkr, whose checks
come with it, apart).
R315 to R318: a walk that finds its leaf enters it in the district's translation cache with U set; a leaf without U has it set by a one-line
group of that byte alone, once its line is not pending, held or in the host's cache, and the walk goes on until then. A walk that finds a fault
writes nothing, and one that meets a pending line, or a line that finds no way in its quay, goes on. -/
def Obligations.WindowAccessesAndWalks : Prop :=
  (∀ acc : RemoteAcc, ∀ h n op idx cause sub : Nat, ∀ x : W32, ∀ o : LongOp, ∀ a : Acc, ∀ f : Deferred, ∀ r : List Deferred,
    let there := fun (d : Dev) => d.core acc.dst
    let back := fun (d e : Dev) (y : RReply) => e.coming d.clock (.remoteAccessReply acc.h acc.n acc.op acc.idx y)
    let free := fun (d : Dev) => d.awayOn (terrOf acc.lk) acc.dst = false ∧ (there d).unrestored acc.addr = false ∧
      (there d).held = [] ∧ (there d).parked = [] ∧ (d.slot acc.h acc.n).refused = []
    let plain := fun (d : Dev) => free d ∧ ∃ key g, (there d).regionOf acc.addr = some (key, g) ∧ rgnTbl g = 0 ∧ terrOf (key / 16) = terrOf acc.lk
    let same := fun (d e : Dev) => (e.slot h n).pc = (d.slot h n).pc ∧
      ∀ j, (e.slot h n).A j = (d.slot h n).A j ∧ (e.slot h n).V j = (d.slot h n).V j ∧ (e.slot h n).K j = (d.slot h n).K j
    let answered := fun (d : Dev) => d.op? h n op = some o ∧ o.acc[idx]? = some a
    Event (.remoteAccess acc) (fun _ d => acc.store = false ∧ plain d ∧ (there d).lsPoison.contains (acc.addr / 4) = false)
      (fun _ d e => d.sameSlots e ∧ back d e (.data ((there d).word acc.addr) ((there d).sealedAt acc.addr))) ∧
    Event (.remoteAccess acc) (fun _ d => acc.store = false ∧ free d ∧ (there d).inTerrace (terrOf acc.lk) acc.addr = false)
      (fun _ d e => d.sameSlots e ∧ back d e (.trapped 0x04 1)) ∧
    Event (.remoteAccess acc) (fun _ d => acc.store = true ∧ plain d ∧ (there d).sealedAt acc.addr = false)
      (fun _ d e => d.sameSlots e ∧ back d e .performed ∧
        ∀ b, (there e).word b = if b / 4 = acc.addr / 4 then acc.data else (there d).word b) ∧
    Event (.remoteAccess acc) (fun _ d => acc.store = true ∧ plain d ∧ (there d).sealedAt acc.addr = true ∧
        (d.slot acc.h acc.n).winStores.contains acc.op = true)
      (fun _ d e => e.slot acc.h acc.n = { d.slot acc.h acc.n with refused := [acc] } ∧
        e.agenda = Act.ev (.windowStoreRefused acc 0x41 9) :: d.agenda ∧ ∀ b, (there e).word b = (there d).word b) ∧
    Event (.windowStoreRefused acc cause sub) (fun _ d => ∀ y, y ∈ (d.slot acc.h acc.n).defer → y.op = some acc.op → y.svc = true)
      (fun _ d e => ∃ lanes, (e.slot acc.h acc.n) = { d.slot acc.h acc.n with
          defer := (d.slot acc.h acc.n).defer ++
            [⟨cause, sub, acc.pc, if cause = 0x41 then windowWord acc.va acc.addr else acc.va, lanes, false, some acc.op, 0⟩] } ∧
        ∀ l, l < 16 → lanes.getLsbD l = (d.slot acc.h acc.n).refused.any (fun y => y.op == acc.op && y.lane == l)) ∧
    Event (.remoteAccessReply h n op idx (.data x false)) (fun _ d => answered d ∧ (idx = 0 → ∀ v off rot, o.kind ≠ .ldkr v off rot))
      (fun _ d e => same d e ∧ (∃ o', e.op? h n op = some o' ∧ ∃ a', o'.acc[idx]? = some a' ∧ a'.st = .got ∧
          a'.line = x.setWidth 1024 <<< (8 * (a.va.toNat % 128))) ∧
        (∀ v, o.kind = .gld v → o.fin = false → (∀ j y, o.acc[j]? = some y → j ≠ idx → y.st = .got) → e.coming d.clock (.resultLanding h n op))) ∧
    Event (.remoteAccessReply h n op idx (.trapped cause sub)) (fun _ d => answered d)
      (fun _ d e => same d e ∧ ∃ o', e.op? h n op = some o' ∧ ∃ a', o'.acc[idx]? = some a' ∧ a'.st = .bad cause sub ∧ a'.va = a.va ∧
        a'.lane = a.lane) ∧
    Event (.remoteAccessReply h n op idx .parked) (fun _ d => answered d)
      (fun _ d e => same d e ∧ ∃ o', e.op? h n op = some o' ∧ o'.acc[idx]? = some { a with st := .parked }) ∧
    Event (.remoteAccessReply h n op idx .performed) (fun _ _ => True)
      (fun _ d e => same d e ∧ (e.slot h n).winStores = (d.slot h n).winStores.erase op) ∧
    Event (.deferredFault h n) (fun _ d => ((d.slot h n).st = .ready ∨ ∃ w, (d.slot h n).st = .waiting w) ∧
        (d.slot h n).defer = f :: r ∧ f.svc = false)
      (fun _ d e => same d e ∧ (e.slot h n).st = .held .trap ∧ (e.slot h n).defer = r ∧ (e.slot h n).frec1 = f.pc ∧
        (e.slot h n).frec2 = f.addr ∧ (e.slot h n).frec0.getLsbD 26 = true ∧ (e.slot h n).frec0.toNat % 256 = f.cause % 256 ∧
        (e.slot h n).frec0.extractLsb' 32 16 = f.lanes)) ∧
  (∀ dist va entry sub fn : Nat, ∀ l : Leaf,
    let i := Instr.tableWalkDone dist va
    let walks := fun (m : Memory) (d : Dev) (r : Walked) => d.walk m va = r ∧
      d.walks.find? (fun w => w.1 == dist && w.2.1 == va) = some (dist, va, fn)
    let reads := fun (m : Memory) (d : Dev) => (d.walkVisit m fn va).2 = true
    let line := lineOf entry
    let held := fun (d : Dev) => d.pending line = true ∨ d.heldLine line = true ∨ d.hostLines.contains line = true
    let enters := fun (d e : Dev) => { l with w0 := l.w0 ||| 0x40#64 } ∈ e.xl.get [] dist ∧
      ∀ h n, (e.slot h n).pc = (d.slot h n).pc ∧ ∀ j, (e.slot h n).A j = (d.slot h n).A j ∧ (e.slot h n).V j = (d.slot h n).V j
    let goesOn := fun (d e : Dev) => d.sendsAfter e 1 (.tableWalkDone dist va) ∧ d.sameSlots e ∧ e.xl = d.xl ∧ e.groups = d.groups
    Event i (fun m d => walks m d (.leaf l entry) ∧ reads m d ∧ l.w0.getLsbD 6 = true) (fun _ d e => enters d e ∧ e.groups = d.groups) ∧
    Event i (fun m d => walks m d (.leaf l entry) ∧ reads m d ∧ l.w0.getLsbD 6 = false ∧ ¬held d)
      (fun m d e => enters d e ∧ ∃ g x, e.groups = d.groups ++ [g] ∧ g.lines = [x] ∧ g.phase = .two ∧ x.pa = line ∧
        (line, g.id) ∈ (e.home (homeOf line)).pend ∧ e.coming d.clock (.groupRelease g.id (homeOf line)) ∧
        Line.byte x.data (entry % 128) = m.read entry ||| 0x40#8 ∧ ∀ b, b < 128 → (x.mask.getLsbD b = true ↔ b = entry % 128)) ∧
    Event i (fun m d => walks m d (.leaf l entry) ∧ reads m d ∧ l.w0.getLsbD 6 = false ∧ held d) (fun _ d e => goesOn d e) ∧
    Event i (fun m d => walks m d (.fault sub) ∧ reads m d) (fun _ d e => e.xl = d.xl ∧ e.groups = d.groups) ∧
    Event i (fun m d => walks m d .busy ∨ (∃ r, walks m d r ∧ ¬reads m d)) (fun _ d e => goesOn d e))

/-- R292, R294 and R295: taking an exception. The record of R292 is written (cause, sub-code, lanes, address, the instruction's address, core,
slot and GTID, with LFC and LFS of %tsw), the slot keeps its PC and its registers, every lease record breaks (but not by LEASEFLT 0x02), the
slot is HELD after a trap and WAITING after PAGE or KVEMPTY, and the report goes to the fault service; memory is untouched. -/
def Obligations.TakingAnException : Prop :=
  ∀ s : State, ∀ h n : Nat, ∀ t : Trap,
    let a := s.dev.slot h n
    let after := fun (u : State) (svc : Bool) =>
      let b := u.dev.slot h n
      (∀ x, u.mem.read x = s.mem.read x) ∧
      b.frec0.toNat % 256 = t.cause % 256 ∧ b.frec0.toNat / 256 % 65536 = t.sub % 65536 ∧ b.frec0.getLsbD 24 = true ∧
      b.frec0.getLsbD 25 = svc ∧ b.frec0.getLsbD 26 = false ∧ b.frec0.extractLsb' 32 16 = t.lanes ∧ b.frec0.toNat / 2 ^ 48 = h % 4096 ∧
      b.frec1 = a.pc ∧ b.frec2 = t.addr ∧ b.frec3.toNat = n % 64 * 2 ^ 48 + a.gtid.toNat ∧
      b.tsw.toNat / 2 ^ 24 = t.sub % 256 ∧ b.tsw.toNat / 2 ^ 16 % 256 = t.cause % 256 ∧
      b.pc = a.pc ∧ (∀ j, b.A j = a.A j ∧ b.V j = a.V j ∧ b.K j = a.K j) ∧
      (∀ r, r ∈ b.leases → ¬(t.cause = 0x32 ∧ t.sub = 2) → r.broken = true)
    after (s.trapped h n t) false ∧ ((s.trapped h n t).dev.slot h n).st = .held .trap ∧
    (t.cause ≠ 6 → ∃ x : Msg, (s.trapped h n t).dev.coming s.dev.clock (.messageArrival x) ∧ x.rank = 0xFFFF ∧ x.terr = terrOf a.lk ∧
      x.data.extractLsb' 0 64 = ((s.trapped h n t).dev.slot h n).frec0 ∧ x.data.extractLsb' 64 64 = a.pc ∧ x.data.extractLsb' 128 64 = t.addr) ∧
    (a.svcHeld = false → after (s.serviced h n t) true ∧ ((s.serviced h n t).dev.slot h n).st = .waiting .service ∧
      ((s.serviced h n t).dev.slot h n).svcWait = true) ∧
    (a.svcHeld = true → after (s.serviced h n t) true ∧ ((s.serviced h n t).dev.slot h n).st = .ready ∧
      ((s.serviced h n t).dev.slot h n).svcHeld = false)

/-! ### The debugger and the Extan ports -/

/-- R338 to R343 and R352: the debugger. A breakpoint entry is taken whole or not at all; HOLD and RELEASE; STOP of a WAITING slot at once (its
parked lanes withdrawn) and of another at its turn; CONT and STEP; FREEZE and THAW; DUMP writes the core's context block and changes nothing
else; a command that is dropped is reported; and the trace ring's registers. -/
def Obligations.Debugger : Prop :=
  ∀ t k h n : Nat, ∀ w0 w1 v : W64, ∀ s : State,
    let dbg := fun (d : Dev) => (d.terrace t).dbg
    let on := fun (d : Dev) => (d.terrace t).state ≠ 0
    let ok := fun (d : Dev) => on d ∧ (dbg d).hold = true ∧ (d.terrace t).base ≤ h ∧ h < (d.terrace t).base + (d.terrace t).len
    let turned := fun (d : Dev) => on d ∧ ((dbg d).hold = false ∨ h < (d.terrace t).base ∨ (d.terrace t).base + (d.terrace t).len ≤ h)
    let same := fun (d e : Dev) => (e.slot h n).pc = (d.slot h n).pc ∧
      ∀ j, (e.slot h n).A j = (d.slot h n).A j ∧ (e.slot h n).V j = (d.slot h n).V j ∧ (e.slot h n).K j = (d.slot h n).K j
    let st := fun (d : Dev) => (d.slot h n).st
    let frozen := fun (d : Dev) => (d.court (courtOf h)).frozen
    Event (.breakpointEntryWrite t k w0 w1) (fun _ d => on d ∧ k < 8 ∧ w0.toNat % 8 = 0 ∧ w1.toNat / 2 ^ 62 = 1 ∧ w1.toNat / 2 ^ 48 % 2 ^ 14 = 0)
      (fun _ d e => (dbg e).bp.find? k = some (w0, w1) ∧ (∀ j, j ≠ k → (dbg e).bp.find? j = (dbg d).bp.find? j) ∧ d.sameSlots e) ∧
    Event (.breakpointEntryWrite t k w0 w1) (fun _ d => 8 ≤ k ∨ w0.toNat % 8 ≠ 0 ∨ w1.toNat / 2 ^ 48 % 2 ^ 14 ≠ 0 ∨ (d.terrace t).state = 0)
      (fun _ d e => e = d) ∧
    Event (.traceRingWrite t false v) (fun _ d => on d ∧ v.toNat % 4096 = 0)
      (fun _ d e => dbg e =
        { dbg d with trBase := v, trHead := 0#32, trNext := 0#32, trTail := 0#32, trDrop := 0#32, epoch := (dbg d).epoch + 1 } ∧ d.sameSlots e) ∧
    Event (.traceRingWrite t true v) (fun _ d => on d ∧ ∃ i, i < 13 ∧ v.toNat % 2 ^ 32 = 16 * 2 ^ i)
      (fun _ d e => dbg e =
        { dbg d with trLen := v.toNat % 2 ^ 32, trHead := 0#32, trNext := 0#32, trTail := 0#32, trDrop := 0#32, epoch := (dbg d).epoch + 1 } ∧ d.sameSlots e) ∧
    Event (.hold t) (fun _ d => on d) (fun _ d e => (dbg e).hold = true ∧ d.sameSlots e) ∧
    Event (.debugRelease t) (fun _ d => on d ∧ (d.terrace t).base ≤ h ∧ h < (d.terrace t).base + (d.terrace t).len ∧ terrOf (d.slot h n).lk = t)
      (fun _ d e => (dbg e).hold = false ∧ same d e ∧ frozen e = false ∧
        (st d = .held .debug → st e = if (d.slot h n).svcWait then .waiting .service else .ready) ∧
        (st d ≠ .held .debug → st e = st d)) ∧
    Event (.stop t h n) (fun _ d => ok d ∧ (d.slot h n).leased = false ∧ ∃ w, st d = .waiting w)
      (fun _ d e => same d e ∧ st e = .held .debug ∧ ∀ p, p ∈ (e.core h).parked → ∀ m a b, p.src = .own m a b → m ≠ n) ∧
    Event (.stop t h n) (fun _ d => ok d ∧ (st d = .ready ∨ (∃ i, st d = .seated i) ∨ (d.slot h n).leased = true ∧ ∃ w, st d = .waiting w))
      (fun _ d e => e.slot h n = { d.slot h n with stopReq := true }) ∧
    (∀ b : Bool, Event (if b then .step t h n else .cont t h n) (fun _ d => ok d ∧ st d = .held .debug)
      (fun _ d e => same d e ∧ (st e = if (d.slot h n).svcWait then .waiting .service else .ready) ∧ (e.slot h n).bpPass = some (d.slot h n).pc ∧
        (e.slot h n).stepReq = b)) ∧
    Event (.freeze t h) (fun _ d => ok d) (fun _ d e => frozen e = true ∧ d.sameSlots e) ∧
    Event (.thaw t h) (fun _ d => ok d) (fun _ d e => frozen e = false ∧ d.sameSlots e) ∧
    (∀ i, i ∈ [Instr.stop t h n, .cont t h n, .step t h n, .freeze t h, .thaw t h, .dump t h] → Event i (fun _ d => turned d ∧ (dbg d).trLen = 0)
      (fun _ d e => d.sameSlots e ∧ frozen e = frozen d ∧ (dbg e).trDrop = (dbg d).trDrop + 1#32)) ∧
    (let vf := (s.dev.terrace t).vf
      let a := (dbg s.dev).dumpBase.toNat
      let lks := s.dev.launchesOn t h
      let cells := s.dev.dumpCells t h
      ok s.dev → s.dev.dumpOk t h = true → (s.dev.func vf).logOn = false → (s.dev.visit vf true (linesOf (cells.map (·.1)))).2 = true →
      (∃ u, exec (.dump t h) s = .next u ∧ u.mem = s.mem.writeAll cells ∧ u.dev.cores = s.dev.cores ∧
        ∀ x, (∀ c, c ∈ cells → c.1 ≠ x) → u.mem.read x = s.mem.read x) ∧
      (n ∈ s.dev.slotsOn lks h → st s.dev ≠ .free → terrOf (s.dev.slot h n).lk = t → ∀ c, c ∈ slotCells a n (s.dev.slot h n) → c ∈ cells) ∧
      ((∀ x, x ∈ s.dev.saved → x.terr = t → x.h ≠ h) → ∀ lk c, lk ∈ lks → c ∈ (s.dev.core h).storeCells a [lk] → c ∈ cells))

/-- R351 and R354 to R356: the Extan ports. A port that is up takes its next descriptor when it has nothing in hand: the descriptor and its source
go out as numbered flits that stay until they are acknowledged; a malformed descriptor, and any of a lost port, gets its status at once, a work
whose last flit is acknowledged its status then. A flit is taken in order, acknowledged again, or refused; a nak replays, and the naks of sixteen
replays start a retrain, which brings the port back or loses it.
R356: a partner's complete work. A transfer's bytes go to its destination as one group of the port, a reduction's words go one by one to the
port's roundabout, a message goes to the fault service of its terrace; what does not lie in the port's window is not applied. -/
def Obligations.Extan : Prop :=
  (∀ p : Nat, ∀ v : W64, ∀ flit : BitVec 2048,
    let x := fun (d : Dev) => d.port p
    let at0 := fun (d : Dev) => (x d).rbase.toNat + 64 * ((x d).head.toNat % (x d).rlen)
    let desc := fun (m : Memory) d => m.bytes (at0 d) 64
    let reads := fun (d : Dev) a n => d.visit 32 false (linesOf ((List.range n).map (fun i => a + i)))
    let idle := fun (d : Dev) => d.up = true ∧ (x d).rlen ≠ 0 ∧ (x d).head ≠ (x d).tail ∧ (x d).stat = none ∧ d.pendingIn (at0 d) 64 = false ∧
      (reads d (at0 d) 64).2 = true
    let work := fun (i : Instr) (is : Nat → Prop) vc =>
      Event i (fun m d => idle d ∧ (x d).st = 1 ∧ (x d).sent = [] ∧ is (pdOp (desc m d)) ∧ pdOk (desc m d) = true ∧
          d.pendingIn (pdSrc (desc m d)) (pdLen (desc m d)) = false ∧
          (reads ((reads d (at0 d) 64).1.updPort p (fun x => { x with head := x.head + 1#32 })) (pdSrc (desc m d)) (pdLen (desc m d))).2 = true)
        (fun m d e => d.sameSlots e ∧ (x e).head = (x d).head + 1#32 ∧ (x e).stat = some (BitVec.ofNat 64 (pdStat (desc m d))) ∧
          ∃ rest, (x e).sent = makeFlit (x d).freed vc 1 (x d).rxSeq ((x d).txSeq + 1#12)
              ((desc m d ++ m.bytes (pdSrc (desc m d)) (pdLen (desc m d))).take 240) :: rest ∧ (x e).out = (x d).out ++ (x e).sent) ∧
      Event i (fun m d => idle d ∧ is (pdOp (desc m d)) ∧ ((x d).st = 1 ∧ pdOk (desc m d) = false ∨ (x d).st = 3) ∧
          pdStat (desc m d) % 8 = 0 ∧ (isHbm (pdStat (desc m d)) || isLpddr (pdStat (desc m d))) = true)
        (fun m d e => (x e).head = (x d).head + 1#32 ∧ (x e).sent = (x d).sent ∧ ∃ g y, g ∈ e.groups ∧ y ∈ g.lines ∧
          y.va = lineOf (pdStat (desc m d)) ∧ ∀ k, k < 8 → y.mask.getLsbD (pdStat (desc m d) % 128 + k) = true ∧
            Line.byte y.data (pdStat (desc m d) % 128 + k) =
              if k = 0 then (if pdOk (desc m d) then 1#8 else 3#8) else 0#8)
    let good := fun (d : Dev) ty => p < 12 ∧ (x d).st = 1 ∧ flitGood flit = true ∧ flitType flit = ty ∧ (x d).covered (flitAck flit) = 0 ∧
      (x d).stat = none
    let ctl := fun (d e : Dev) ty (sq : BitVec 12) k => (x e).out = (x d).out ++ [makeFlit k 3 ty sq (x d).txSeq []] ∧ (x e).rxSeq = sq ∧ d.sameSlots e
    work (.portTransfer p) (fun o => o ≠ 2 ∧ o ≠ 3 ∧ o ≠ 4) 0 ∧ work (.portReduceI32 p) (fun o => o = 2) 1 ∧
    work (.portReduceF32 p) (fun o => o = 3) 1 ∧ work (.portMessage p) (fun o => o = 4) 2 ∧
    Event (.portRingWrite p false v) (fun _ d => p < 12 ∧ (x d).head = (x d).tail ∧ v.toNat % 4096 = 0)
      (fun _ d e => x e = { x d with rbase := v, head := 0#32, tail := 0#32 } ∧ d.sameSlots e) ∧
    Event (.portRingWrite p true v) (fun _ d => p < 12 ∧ (x d).head = (x d).tail ∧ ∃ i, i < 13 ∧ v.toNat % 2 ^ 32 = 16 * 2 ^ i)
      (fun _ d e => x e = { x d with rlen := v.toNat % 2 ^ 32, head := 0#32, tail := 0#32 } ∧ d.sameSlots e) ∧
    Event (.portTailWrite p (v.setWidth 32)) (fun _ d => p < 12 ∧ (v.setWidth 32 - (x d).head).toNat ≤ (x d).rlen)
      (fun _ d e => x e = { x d with tail := v.setWidth 32 } ∧ d.sameSlots e) ∧
    Event (.flitReceive p flit) (fun _ d => good d 1 ∧ flitSeq flit = (x d).rxSeq + 1#12)
      (fun _ d e => ctl d e 2 ((x d).rxSeq + 1#12) ((x d).freed + 1) ∧
        let got := (x d).inBytes ++ ((flitBytes flit).drop 8).take 240
        (flitVc flit ≠ 3 → 64 + pdLen got ≤ got.length → ∃ win, (x e).inDone = (x d).inDone ++ [(got.take (64 + pdLen got), win)] ∧ (x e).inBytes = []) ∧
        (flitVc flit ≠ 3 → got.length < 64 + pdLen got → (x e).inBytes = got ∧ (x e).inDone = (x d).inDone)) ∧
    Event (.flitReceive p flit) (fun _ d => good d 1 ∧ flitSeq flit ≠ (x d).rxSeq + 1#12)
      (fun _ d e => ctl d e (if 2048 ≤ (flitSeq flit - ((x d).rxSeq + 1#12)).toNat then 2 else 3) (x d).rxSeq (x d).freed ∧ (x e).inBytes = (x d).inBytes) ∧
    Event (.flitReceive p flit) (fun _ d => p < 12 ∧ (x d).st = 1 ∧ flitGood flit = false) (fun _ d e => ctl d e 3 (x d).rxSeq (x d).freed) ∧
    Event (.flitReceive p flit) (fun _ d => good d 3 ∧ (x d).fails < 16)
      (fun _ d e => (x e).out = (x d).out ++ (x d).sent ∧ (x e).replay.toNat = ((x d).replay.toNat + (x d).sent.length) % 2 ^ 64 ∧ (x e).fails = (x d).fails + 1) ∧
    Event (.flitReceive p flit) (fun _ d => good d 3 ∧ 16 ≤ (x d).fails) (fun _ d e => (x e).st = 2 ∧ (x e).out = (x d).out) ∧
    Event (.flitReceive p flit) (fun _ d => p < 12 ∧ (x d).st = 1 ∧ flitGood flit = true ∧ flitType flit = 2 ∧ (x d).stat = none ∧ (x d).toSend = [] ∧
        (x d).covered (flitAck flit) ≠ 0)
      (fun _ d e => (x e).sent = (x d).sent.drop ((x d).covered (flitAck flit)) ∧ (x e).fails = 0 ∧ (x e).out = (x d).out ∧ d.sameSlots e) ∧
    (∀ a : W64, Event (.flitReceive p flit) (fun _ d => p < 12 ∧ (x d).st = 1 ∧ flitGood flit = true ∧ flitType flit = 2 ∧ (x d).stat = some a ∧
        (x d).toSend = [] ∧ (x d).sent ≠ [] ∧ (x d).covered (flitAck flit) = (x d).sent.length ∧ a.toNat % 8 = 0 ∧
        (isHbm a.toNat || isLpddr a.toNat) = true)
      (fun _ d e => (x e).sent = [] ∧ (x e).stat = none ∧ ∃ g y, g ∈ e.groups ∧ y ∈ g.lines ∧ y.va = lineOf a.toNat ∧
        ∃ v : Byte, (v = 0#8 ∨ v = 2#8 ∧ (x d).vc ≠ 2) ∧ ∀ k, k < 8 → y.mask.getLsbD (a.toNat % 128 + k) = true ∧
          Line.byte y.data (a.toNat % 128 + k) = if k = 0 then v else 0#8)) ∧
    (∀ narrow : Bool, Event (.portRetrain p true narrow) (fun _ d => p < 12 ∧ (x d).st = 2)
      (fun _ d e => (x e).st = 1 ∧ (x e).retrain = (x d).retrain + 1#32 ∧ (x e).out = (x d).out ++ (x d).sent ∧ (x e).fails = 0 ∧ d.sameSlots e) ∧
    Event (.portRetrain p false narrow) (fun _ d => p < 12 ∧ (x d).st = 2)
      (fun _ d e => (x e).st = 3 ∧ (x e).retrain = (x d).retrain + 1#32 ∧ (x e).sent = [] ∧ (x e).stat = none ∧ (x e).inBytes = []))) ∧
  (∀ p : Nat, ∀ bs : List Byte, ∀ win : Nat × Nat, ∀ rest : List (List Byte × (Nat × Nat)),
    let n := pdLen bs
    let dst := pdDst bs
    let inside := win.1 ≤ dst ∧ dst + n ≤ win.1 + win.2 ∧ isHbm dst = true ∧ isHbm (dst + n - 1) = true
    let next := fun (op : Nat) (d : Dev) => (d.port p).inDone = (bs, win) :: rest ∧ pdOp bs = op ∧ bs.length = 64 + n
    let taken := fun (e : Dev) => (e.port p).inDone = rest
    Event (.partnerTransferApply p) (fun _ d => next 1 d ∧ inside)
      (fun _ _ e => taken e ∧ ∀ k b, k < n → bs[64 + k]? = some b → ∃ g y, g ∈ e.groups ∧ g.fn = 32 ∧ y ∈ g.lines ∧ y.va = lineOf (dst + k) ∧
        y.pa = y.va ∧ y.mask.getLsbD ((dst + k) % 128) = true ∧ Line.byte y.data ((dst + k) % 128) = b) ∧
    (∀ op, op = 2 ∨ op = 3 → Event (.partnerTransferApply p) (fun _ d => next op d ∧ inside ∧ dst % 4 = 0)
      (fun _ d e => taken e ∧ d.sameSlots e ∧ ∀ i, i < n / 4 → ∃ u : Upd, e.coming d.clock (.spredMerge (9 + p) u) ∧
        u.vals = [BitVec.ofNat 32 (leNat ((bs.drop (64 + 4 * i)).take 4))])) ∧
    Event (.partnerTransferApply p) (fun _ d => next 4 d)
      (fun _ d e => taken e ∧ d.sameSlots e ∧ ∃ y : Msg, e.coming d.clock (.messageArrival y) ∧ y.terr = dst % 32 ∧ y.rank = 0xFFFF ∧
        y.data = BitVec.ofNat 512 (leNat ((bs.drop 64).take 64))) ∧
    Event (.partnerTransferApply p) (fun _ d => (∃ op, op < 4 ∧ next op d) ∧ ¬inside) (fun _ d e => taken e ∧ d.sameSlots e ∧ e.groups = d.groups ∧ e.net = d.net) ∧
    Event (.partnerTransferApply p) (fun _ d => (d.port p).inDone = []) (fun _ d e => e = d))

/-! ### Errors, requests, bring-up -/

/-- R362 and R363: an error that is corrected counts; one that is not poisons the register-file entry, the local word or the line, drops the L1 or
instruction-cache line, or breaks the lease, and is logged while fewer than 256 records wait; a scrub that finds one poisons the line.
R364 and R368: a bridge that is lost quiesces each resident launch that spans it: its slots are HELD with cause 0xF1 and the bridge's number,
and keep their PC and their registers. A retrain after sixteen failed replays gives the failed lanes to the spares, and loses the bridge where a
group of 16 lanes has more failed lanes than spares; a good flit is acknowledged and its sender keeps it no longer; a bad one is refused, and the
sender replays what it keeps (its copy of the flit is a free value, log 59). -/
def Obligations.ErrorsAndBridges : Prop :=
  (∀ dist str h n r w va pa : Nat,
    let logs := fun (d e : Dev) (x : ErrRec) => e.errLog = if d.errLog.length < 256 then d.errLog ++ [x] else d.errLog
    let ix := 256 * dist + str
    Event (.correctableError dist str) (fun _ _ => True)
      (fun _ d e => (e.errCount.get 0#64 ix).toNat = ((d.errCount.get 0#64 ix).toNat + 1) % 2 ^ 64 ∧ d.sameSlots e) ∧
    Event (.uncorrectableError (.regfile h r)) (fun _ _ => True)
      (fun _ d e => r ∈ (e.core h).rfPoison ∧ d.sameSlots e ∧ ∃ g, logs d e ⟨1, districtOf h, r, g⟩) ∧
    Event (.uncorrectableError (.lword h w)) (fun _ _ => True)
      (fun _ d e => w ∈ (e.core h).lsPoison ∧ d.sameSlots e ∧ logs d e ⟨2, districtOf h, 4 * w, 0#48⟩) ∧
    Event (.uncorrectableError (.line pa)) (fun _ _ => True)
      (fun _ d e => lineOf pa ∈ e.linePoison ∧ d.sameSlots e ∧ ∃ sub, (sub = 3 ∨ sub = 4 ∨ sub = 5) ∧ logs d e ⟨sub, homeOf pa / 64, pa, 0#48⟩) ∧
    Event (.uncorrectableError (.l1 h va)) (fun _ _ => True)
      (fun _ d e => (e.core h).l1.find? (lineOf va) = none ∧ d.sameSlots e) ∧
    Event (.uncorrectableError (.icache h va)) (fun _ _ => True)
      (fun _ d e => (e.core h).ic.find? (lineOf va) = none ∧ d.sameSlots e) ∧
    Event (.uncorrectableError (.sync h n va)) (fun _ _ => True)
      (fun _ d e => (∀ x, x ∈ (e.slot h n).leases → x.va = lineOf va → x.broken = true) ∧ (e.slot h n).pc = (d.slot h n).pc ∧
        ∀ j, (e.slot h n).A j = (d.slot h n).A j ∧ (e.slot h n).V j = (d.slot h n).V j) ∧
    Event (.patrolScrub pa true) (fun _ _ => True) (fun _ d e => lineOf pa ∈ e.linePoison ∧ d.sameSlots e) ∧
    Event (.patrolScrub pa false) (fun _ _ => True) (fun _ d e => e = d)) ∧
  (∀ b : Nat, ∀ lanes flit : V512, ∀ spares : BitVec 32,
    let x := fun (d : Dev) => d.bridges.get .init b
    let bad := fun (d : Dev) => (x d).bad ||| lanes
    let sp := fun (d : Dev) => (x d).badSpare ||| spares
    let worn := fun (d : Dev) => ∃ g, g < 32 ∧ (if (sp d).getLsbD g then 0 else 1) <
      ((List.range 16).filter (fun i => (bad d).getLsbD (16 * g + i))).length
    let lost := fun (d e : Dev) => (x e).lost = true ∧ ∀ lk l h n, (lk, l) ∈ d.launches.ents → l.st = .resident → l.spans b = true →
      h ∈ d.launchCores lk → (d.slot h n).st ≠ .free → (d.slot h n).lk = lk →
        (e.slot h n).st = .held .lost ∧ (e.slot h n).frec0.toNat % 2 ^ 24 = 0xF1 + 256 * b ∧ (e.slot h n).pc = (d.slot h n).pc ∧
          ∀ j, (e.slot h n).A j = (d.slot h n).A j ∧ (e.slot h n).V j = (d.slot h n).V j ∧ (e.slot h n).K j = (d.slot h n).K j
    Event (.bridgeLost b) (fun _ d => b < 12 ∧ (x d).lost = false) (fun _ d e => lost d e) ∧
    Event (.bridgeLost b) (fun _ d => 12 ≤ b ∨ (x d).lost = true) (fun _ d e => e = d) ∧
    Event (.bridgeRetrain b lanes spares) (fun _ d => b < 12 ∧ (x d).lost = false ∧ 16 ≤ (x d).fails ∧ ¬worn d)
      (fun _ d e => x e = { x d with bad := bad d, badSpare := sp d, fails := 0, out := (x d).out ++ (x d).sent } ∧ d.sameSlots e) ∧
    Event (.bridgeRetrain b lanes spares) (fun _ d => b < 12 ∧ (x d).lost = false ∧ 16 ≤ (x d).fails ∧ worn d) (fun _ d e => lost d e) ∧
    Event (.bridgeRetrain b lanes spares) (fun _ d => 12 ≤ b ∨ (x d).lost = true ∨ (x d).fails < 16) (fun _ d e => e = d) ∧
    Event (.bridgeFlitReceive b flit) (fun _ d => b < 12 ∧ (x d).lost = false)
      (fun _ d e => d.sameSlots e ∧
        let kept := if (x d).sent = [] then [Config.bridgeCopy flit] else (x d).sent.take 256
        x e = if Config.bridgeFlitGood flit then
            { x d with rxSeq := (x d).rxSeq + 1, fails := 0, acks := (x d).acks ++ [(true, (x d).rxSeq + 1)], sent := (x d).sent.drop 1 }
          else
            { x d with fails := (x d).fails + (if (x d).sent = [] then 0 else 1), acks := (x d).acks ++ [(false, (x d).rxSeq)], sent := kept
                       out := (x d).out ++ kept }))

/-- R273 and R365: the 2,304 cores stand at different places of the 48 by 48 grid, each in its district's square, and each beside the next on the
curve; and in every row the sixteen columns are served by sixteen of the seventeen sites, the one at SKIP left out.
R361, R365 to R367, R370 and R371: the RAS requests of a device that is up. Each is answered with status 0 and its data, or with another
status and no effect; each leaves every slot as it was. -/
def Obligations.RasRequests : Prop :=
  ((∀ h, h < 2304 → (corePlace h).1 / 16 = (districtAt (h / 256)).1 ∧ (corePlace h).2 / 16 = (districtAt (h / 256)).2) ∧
    (∀ a b, a < 2304 → b < 2304 → corePlace a = corePlace b → a = b) ∧
    (∀ h, h < 2303 → ∃ p, p = corePlace h ∧ corePlace (h + 1) ∈ [(p.1 + 1, p.2), (p.1, p.2 + 1), (p.1 - 1, p.2), (p.1, p.2 - 1)]) ∧
    ∀ d : Dev, ∀ dist y a b : Nat, d.skipAt dist y ≤ 16 → a < 16 → b < 16 → d.siteColumn dist y a < 17 ∧ d.siteColumn dist y a ≠ d.skipAt dist y ∧
      (d.siteColumn dist y a = d.siteColumn dist y b → a = b)) ∧
  ∀ dist y skip f dep pool t key : Nat, ∀ base addr area : W64, ∀ en : Bool, ∀ s : State, ∀ r : ErrRec, ∀ rest : List ErrRec,
    let up := fun (d : Dev) => d.up = true
    let says_ := fun (d e : Dev) (bs : List Byte) => e.doe = bs ∧ d.sameSlots e
    let p := fun (d : Dev) => d.pool dep pool
    let poolNamed := dep < 9 ∧ pool < 16 ∧ (p s.dev).v = true ∧ paNamed addr.toNat = true
    let list := (p s.dev).pushed ++ (List.range ((p s.dev).count - (p s.dev).fresh)).map (fun i => (p s.dev).fresh + i)
    let given := (List.range (s.mem.w32 addr.toNat).toNat).map (fun i => (s.mem.w32 (addr.toNat + 4 + 4 * i)).toNat)
    let bitmap := en = false ∨ base.toNat % 2 ^ 21 = 0 ∧ (isHbm base.toNat = true ∧ isHbm (base.toNat + 96 * 2 ^ 20 - 1) = true ∨
      isLpddr base.toNat = true ∧ isLpddr (base.toNat + 96 * 2 ^ 20 - 1) = true)
    Event (.errcnt dist) (fun _ d => up d ∧ (dist < 9 ∨ dist = 255))
      (fun _ d e => says_ d e (0#8 :: (List.range 7).flatMap (fun i => leBytes 8 (d.errCount.get 0#64 (256 * dist + i + 1)).toNat))) ∧
    Event (.errcnt dist) (fun _ d => up d ∧ 9 ≤ dist ∧ dist ≠ 255) (fun _ d e => says_ d e [1#8]) ∧
    Event .errlog (fun _ d => up d ∧ d.errLog = r :: rest)
      (fun _ d e => e.errLog = rest ∧ says_ d e (0#8 :: (leBytes 1 r.sub ++ leBytes 1 r.district ++ leBytes 8 r.addr ++ leBytes 6 r.gtid.toNat))) ∧
    Event .errlog (fun _ d => up d ∧ d.errLog = []) (fun _ d e => says_ d e [2#8]) ∧
    Event (.remapget dist) (fun _ d => up d ∧ dist < 9)
      (fun _ d e => d.sameSlots e ∧ e.doe.length = 49 ∧ e.doe[0]? = some 0#8 ∧ (∀ i, i < 16 → e.doe[1 + i]? = some (BitVec.ofNat 8 (d.skipAt dist i))) ∧
        ∀ i, i < 256 → ((e.doe[17 + i / 8]?).getD 0#8).getLsbD (i % 8) = d.failed.contains (256 * dist + i)) ∧
    Event (.remapset dist y skip) (fun _ d => up d ∧ dist < 9 ∧ y < 16 ∧ skip ≤ 16 ∧ d.districtActive dist = false)
      (fun _ d e => e.skipAt dist y = skip ∧ (∀ i j, j < 16 → (i, j) ≠ (dist, y) → e.skipAt i j = d.skipAt i j) ∧ says_ d e [0#8]) ∧
    Event (.remapset dist y skip) (fun _ d => up d ∧ (9 ≤ dist ∨ 16 ≤ y ∨ 16 < skip ∨ d.districtActive dist = true))
      (fun _ d e => e.skip = d.skip ∧ says_ d e [1#8]) ∧
    Event (.logset f base en) (fun _ d => up d ∧ f ≤ 32 ∧ bitmap)
      (fun _ d e => (e.func f).logOn = en ∧ (en = true → (e.func f).logBase = base) ∧ (∀ k, k ≠ f → e.func k = d.func k) ∧ says_ d e [0#8]) ∧
    Event (.logset f base en) (fun _ d => up d ∧ (32 < f ∨ ¬bitmap)) (fun _ d e => (∀ k, e.func k = d.func k) ∧ says_ d e [1#8]) ∧
    (up s.dev → poolNamed → (∀ g, g ∈ s.dev.groups → g.lines ≠ []) →
      ∃ u, exec (.poolget dep pool addr) s = .next u ∧ u.mem = s.mem ∧ says_ s.dev u.dev [0#8] ∧ (∀ a b, u.dev.pool a b = s.dev.pool a b) ∧
        ∀ k b, (leBytes 4 list.length ++ list.flatMap (leBytes 4))[k]? = some b → ∃ g l, g ∈ u.dev.groups ∧ g.fn = 32 ∧ l ∈ g.lines ∧
          l.pa = lineOf (addr.toNat + k) ∧ l.mask.getLsbD ((addr.toNat + k) % 128) = true ∧ Line.byte l.data ((addr.toNat + k) % 128) = b) ∧
    (up s.dev → poolNamed → s.dev.pendingIn addr.toNat 4 = false →
      s.dev.pendingIn addr.toNat (4 * min given.length (p s.dev).count + 4) = false → given.length ≤ (p s.dev).count → (∀ x, x ∈ given → x < (p s.dev).count) → given.Nodup →
      ∃ u, exec (.poolset dep pool addr) s = .next u ∧ u.mem = s.mem ∧ says_ s.dev u.dev [0#8] ∧ (p u.dev).pushed = given ∧
        (p u.dev).fresh = (p u.dev).count ∧ (p u.dev).count = (p s.dev).count) ∧
    (∀ i, i ∈ [Instr.poolget dep pool addr, .poolset dep pool addr] → up s.dev → ¬poolNamed → (∀ k, s.dev.pendingIn addr.toNat k = false) →
      ∃ u, exec i s = .next u ∧ u.mem = s.mem ∧ says_ s.dev u.dev [1#8] ∧ ∀ a b, u.dev.pool a b = s.dev.pool a b) ∧
    (up s.dev → s.dev.areaHolds s.mem t area false = true →
      ∃ u, exec (.ctxout t area key) s = .next u ∧ u.dev.doe = 0#8 :: (exportKey s.dev.fwVersion).sign (u.dev.areaBytes u.mem t area) ∧ s.dev.sameSlots u.dev ∧
        ∀ x, x ∈ u.dev.saved → x.terr = t → x.lks ≠ [] → x.portable = true) ∧
    Event (.ctxout t area key) (fun m d => up d ∧ d.areaHolds m t area false = false) (fun _ d e => says_ d e [1#8] ∧ e.saved = d.saved) ∧
    (∀ k, up s.dev → s.dev.areaHolds s.mem t area true = true → s.dev.keys.find? key = some k → key < 8 →
      let bytes := s.dev.areaBytes s.mem t area
      ∃ u, exec (.ctxin t area key) s = .next u ∧ s.dev.sameSlots u.dev ∧
        if rsaVerify k ((exportKey s.dev.fwVersion).sign bytes) (sha512 bytes) = true then
          u.dev.doe = [0#8] ∧ ∀ x, x ∈ u.dev.saved → x.terr = t → x.lks ≠ [] → x.portable = false
        else u.dev.doe = [1#8] ∧ u.mem = s.mem ∧ u.dev.saved = s.dev.saved) ∧
    Event (.ctxin t area key) (fun m d => up d ∧ (d.areaHolds m t area true = false ∨ d.keys.find? key = none ∨ 8 ≤ key))
      (fun _ d e => says_ d e [1#8] ∧ e.saved = d.saved) ∧
    (∀ i, i ∈ [Instr.errcnt dist, .errlog, .remapget dist, .remapset dist y skip, .logset f base en, .poolget dep pool addr, .poolset dep pool addr,
        .ctxout t area key, .ctxin t area key] → Event i (fun _ d => d.up = false) (fun _ d e => e = d))

/-- R357 and R358: bring-up. Power-on leaves the machine as at reset in stage 1; a stage in hand passes on or stops the sequence; the ports and the
remap come up in their stages; every image is measured before it runs, and the first that fails a check stops stage 6 with the number of its
measurement register (the model's reading of n, log 60); and
the device takes work from stage 7 on, with its clock at 0.
R359 and R360: attestation, from stage 6 on: digests and certificates, a signed nonce, signed measurements, and the keys that kv.imp and CTXIN
trust. -/
def Obligations.BringUpAndIdentity : Prop :=
  (∀ n : Nat, ∀ ok : Bool, ∀ up narrow : BitVec 12, ∀ i : FwImage,
    let inHand := fun k (d : Dev) => d.stage = k ∧ d.failure = 0
    let passes := fun (d e : Dev) => e.stage = d.stage + 1 ∧ e.failure = 0
    let stops := fun (d e : Dev) => e.stage = d.stage ∧ e.failure ≠ 0
    let plain := [(1, Instr.powerStages ok), (2, .bridgeTraining ok), (3, .hbmTraining ok), (5, .cxlTraining ok)]
    Event .powerOn (fun _ _ => True) (fun _ _ e => e = { State.reset.dev with stage := 1 }) ∧
    (∀ k x, (k, x) ∈ plain → Event x (fun _ d => inHand k d) (fun _ d e => d.sameSlots e ∧ if ok then passes d e else stops d e) ∧
      Event x (fun _ d => ¬inHand k d) (fun _ d e => e = d)) ∧
    Event (.bridgeTraining true) (fun _ d => inHand 2 d) (fun _ _ e => ∀ j, j < 144 → e.skip.get 16 j ≤ 16) ∧
    Event (.extanNegotiation up narrow) (fun _ d => inHand 4 d)
      (fun _ d e => if Config.requiredPorts &&& ~~~up = 0#12 then passes d e ∧ d.sameSlots e ∧ ∀ p, p < 12 →
          (e.port p).st = (if up.getLsbD p then 1 else 0) ∧ (e.port p).state.getLsbD 9 = Config.requiredPorts.getLsbD p
        else stops d e) ∧
    Event (.firmwareVerify [i]) (fun _ d => inHand 6 d)
      (fun _ d e => d.sameSlots e ∧ if imageOk i = true then passes d e ∧ e.fwVersion = i.version ∧ e.mr.get 0#512 (i.mr % 8) =
          vecOfBytes (sha512 (vecBytes (d.mr.get 0#512 (i.mr % 8)) ++ vecBytes i.digest))
        else e.stage = 6 ∧ e.failure = 0x60 + i.mr % 8 ∧ e.mr = d.mr) ∧
    Event (.firmwareVerify [i]) (fun _ d => inHand 6 d ∧ (vecBytes i.digest ≠ sha512 i.body ∨ i.version < Config.fusedVersion))
      (fun _ d e => e.stage = 6 ∧ e.failure = 0x60 + i.mr % 8 ∧ e.mr = d.mr ∧ d.sameSlots e) ∧
    (∀ is, Event (.firmwareVerify is) (fun _ d => inHand 6 d ∧ (verifyAll is d.mr).2 = some n)
      (fun _ d e => e.stage = 6 ∧ e.failure = 0x60 + n ∧ d.sameSlots e)) ∧
    Event .ready (fun _ d => inHand 7 d ∧ d.up = false) (fun _ d e => e.up = true ∧ e.clock = 0 ∧ d.sameSlots e) ∧
    Event .ready (fun _ d => ¬inHand 7 d ∨ d.up = true) (fun _ d e => e = d)) ∧
  (∀ nonce : BitVec 256, ∀ blk slot : Nat, ∀ key : BitVec 4096,
    let serves := fun (d : Dev) => 6 ≤ d.stage
    let gives := fun (d e : Dev) (bs : List Byte) => e = { d with doe := bs }
    let nb := leBytes 32 nonce.toNat
    let signed := fun (b : List Byte) => identityKey.sign (nb ++ b)
    let cert := certOf 0 identityKey (RsaPair.of Config.caPrimes)
    let exportCert := fun (d : Dev) => certOf 1 (exportKey d.fwVersion) identityKey
    Event .getDigests (fun _ d => serves d) (fun _ d e => gives d e (0#8 :: (sha512 cert ++ sha512 (exportCert d)))) ∧
    Event .getCertificate (fun _ d => serves d) (fun _ d e => gives d e (0#8 :: cert)) ∧
    Event (.challenge nonce) (fun _ d => serves d) (fun _ d e => gives d e (0#8 :: signed [])) ∧
    Event (.getMeasurements blk nonce) (fun _ d => serves d ∧ blk < 8)
      (fun _ d e => let b := vecBytes (d.mr.get 0#512 blk); gives d e (0#8 :: (b ++ signed b))) ∧
    Event (.getMeasurements 8 nonce) (fun _ d => serves d) (fun _ d e => gives d e (0#8 :: (exportCert d ++ signed (exportCert d)))) ∧
    Event (.getMeasurements blk nonce) (fun _ d => serves d ∧ 8 < blk) (fun _ d e => gives d e [1#8]) ∧
    Event (.installKey slot key) (fun _ d => serves d ∧ slot < 8 ∧ ∀ c, c ∈ d.cores.ents → c.2.cq.q = [])
      (fun _ d e => e.keys.find? slot = some key ∧ (∀ k, k ≠ slot → e.keys.find? k = d.keys.find? k) ∧ e.doe = [0#8] ∧ d.sameSlots e) ∧
    Event (.installKey slot key) (fun _ d => serves d ∧ 8 ≤ slot) (fun _ d e => gives d e [1#8]) ∧
    (∀ i, i ∈ [Instr.getDigests, .getCertificate, .challenge nonce, .getMeasurements blk nonce, .installKey slot key] →
      Event i (fun _ d => d.stage < 6) (fun _ d e => e = d)))

/-! ### What comes before an instruction -/

/-- R64 with R24, R27, R28, R30, R33, R290 and R362: what comes before an instruction's own effect, in order. A privileged form in a slot
without PRIV raises PRIV 0x01 with the word; a register field beyond the window raises WINDOW with the field; a register inside an open
lookahead window raises LAVIOL; a pending register, or a 17th long-latency form, lets the turn pass and changes nothing; an unrestored
register asks for its granule; a poisoned source is an uncorrectable error. -/
def Obligations.ChecksBeforeAnInstruction : Prop :=
  ∀ s : State, ∀ h n : Nat, ∀ w : W64, s.dev.cur = .slot h n w →
    ∀ a b c : AReg, ∀ ty : IType, ∀ km : KReg, ∀ kz : Bool, ∀ d x y : VReg, ∀ la : BitVec 4,
    let p := s.dev.slot h n
    let traps := fun (i : Instr) cause sub => ∃ ad lanes, exec i s = .next (s.trapped h n ⟨cause, sub, ad, lanes⟩)
    let vadd := Instr.vadd ty km kz d x y
    let fits := d.toNat < p.winCount ∧ x.toNat < p.winCount ∧ y.toNat < p.winCount
    let present := fun (r : VReg) => p.vst.get .present r.toNat = .present
    let calm := fits ∧ p.wins = [] ∧ present d ∧ present x ∧ present y
    (∀ i, i ∈ [Instr.eret a b c, .plbinv a, .tlbinv a b] → p.priv = false →
      ∃ lanes, exec i s = .next (s.trapped h n ⟨0x80, 1, w, lanes⟩)) ∧
    (p.winCount ≤ d.toNat → traps vadd 0x03 d.toNat) ∧
    (d.toNat < p.winCount → p.winCount ≤ x.toNat → traps vadd 0x03 x.toNat) ∧
    (d.toNat < p.winCount → x.toNat < p.winCount → p.winCount ≤ y.toNat → traps vadd 0x03 y.toNat) ∧
    (fits → ∀ win, p.wins = [win] → win.kr = [] → ∀ sub,
      (d.toNat ∈ win.vr ∧ sub = 512 + d.toNat ∨ d.toNat ∉ win.vr ∧ x.toNat ∈ win.vr ∧ sub = x.toNat ∨
        d.toNat ∉ win.vr ∧ x.toNat ∉ win.vr ∧ y.toNat ∈ win.vr ∧ sub = y.toNat) →
      ∃ lanes, exec vadd s = .next (s.trapped h n ⟨0x02, sub, win.pc, lanes⟩)) ∧
    (calm → (∃ o, o ∈ p.ops ∧ (d.toNat ∈ o.vd ∨ x.toNat ∈ o.vd ∨ y.toNat ∈ o.vd)) → (∀ o q, o ∈ p.ops → q ∈ o.acc → q.st ≠ .parked) →
      exec vadd s = .next s) ∧
    (fits → p.wins = [] → p.ops = [] → present d → present y → p.vst.get .present x.toNat = .unrestored →
      exec vadd s = .next ⟨s.mem, s.dev.later 1 (.granuleRefill h n (x.toNat / 8))⟩) ∧
    (calm → (∀ o, o ∈ p.ops → o.vd = [] ∧ o.ad = []) → 16 ≤ p.ops.length → exec (.mqpush la a x) s = .next s) ∧
    (calm → p.ops = [] → (s.dev.core h).rfPoison.contains (p.winBase + x.toNat) = true →
      ∃ lanes, exec vadd s = .next (s.trapped h n ⟨0xF0, 1, BitVec.ofNat 64 x.toNat, lanes⟩))

/-! ### The whole machine -/

/-- Words that the spec itself writes out, in the worked examples of its sections 4 to 14 and 20, decode to the instructions it writes beside
them; and the words of the example under R64 are refused with the sub-codes of R63. -/
def Obligations.WordsOfTheSpec : Prop :=
  decode 0x20080E1C40000000#64 = .ok (.vadd .i32 4#3 false 7#7 7#7 8#7) ∧
  decode 0x705013FCC0000040#64 = .ok (.gld 5#4 0#3 false 9#7 127#7 3#4 0x40#24) ∧
  decode 0x20080E1C40000008#64 = .bad 5 ∧ decode 0x20180E1C40000000#64 = .bad 6 ∧ decode 0x20080E1C40100000#64 = .bad 5 ∧
  decode 0x20080E1C40010000#64 = .bad 3 ∧ decode 0#64 = .bad 1 ∧ decode 0xE000000000000000#64 = .bad 2 ∧
  decode 0xA804100800000006#64 = .ok (.split 2#3 8#7 2#7 6#32) ∧ decode 0x09000018FFFFFFFD#64 = .ok (.loop 6#4 0xFFFFFFFD#32) ∧
  decode 0x400408041040300B#64 = .ok (.vfma .bf16 .rz 2#3 false 4#7 1#7 2#7 4#7) ∧
  decode 0x6003061881000000#64 = .ok (.lld .x 1#3 true 3#7 6#7 2#4 0#24) ∧
  decode 0x6900001028001000#64 = .ok (.tbld 4#7 5#4) ∧ decode 0x80200BFCC1000000#64 = .ok (.lease 2#4 .medium 5#4 3#4 0#24) ∧
  decode 0x85100C1CD9000008#64 = .ok (.amo 1#4 .cas true 6#4 7#4 3#4 8#24) ∧ decode 0x860000000000001A#64 = .ok (.fence .full .device) ∧
  decode 0x90000C0000003009#64 = .ok (.barw 9#9 6#4) ∧ decode 0xA006002820602000#64 = .ok (.tqpushv 3#3 10#7 4#4 6#7) ∧
  decode 0xB0200C3000000000#64 = .ok (.mqpush 2#4 6#4 12#7) ∧ decode 0xC0300C1440000000#64 = .ok (.kvlook 3#4 6#4 5#4 8#7) ∧
  decode 0xD000040000000003#64 = .ok (.mfs .core 2#4) ∧ decode 0xD900000C20000000#64 = .ok (.tlbinv 3#4 4#4)

/-- R56 to R62: reading a thread word and writing it are inverse to each other. Every word that the decoder takes is the word of exactly the
instruction it gives, which is well formed; and the word of a well-formed thread instruction decodes to it, with every operand at every value. -/
def Obligations.ThreadWordsRoundTrip : Prop :=
  (∀ w : W64, ∀ i : Instr, decode w = .ok i → i.wf = true ∧ encode i = some w) ∧
  (∀ i : Instr, ∀ w : W64, i.wf = true → encode i = some w → decode w = .ok i)

/-- R65 to R67: reading a tile command and writing it are inverse to each other, in whichever queue R66 gives the command to. -/
def Obligations.TileCommandsRoundTrip : Prop :=
  (∀ cq : Bool, ∀ c : V512, ∀ i : Instr, decodeTile cq c = .ok i → i.wf = true ∧ encodeTile i = some c) ∧
  (∀ i : Instr, ∀ c : V512, i.wf = true → encodeTile i = some c → decodeTile false c = .ok i ∨ decodeTile true c = .ok i)

/-- R21 to R24 and R56: a step runs what is decoded. At the turn of a core, the slot in the seat of that cycle, with nothing that comes before an
instruction, executes the instruction that its fetched word decodes to; a word that is none traps as ILLEGAL with the word as its address. The
word is the one at its PC, in the words it has fetched or in its line at the home. An event, a request from outside and the head of an engine
queue run as their own instructions; and with no act left, a cycle passes. -/
def Obligations.StepRunsTheDecodedInstruction : Prop :=
  ∀ s : State, ∀ rest : List Act, ∀ h n sub : Nat, ∀ w : W64, ∀ d' : Dev, ∀ i : Instr, ∀ e : Ev, ∀ k : Nat, ∀ c : Cmd, ∀ r : List Cmd,
    let d : Dev := { s.dev with agenda := rest, cur := .none }
    let a := d.slot h n
    let seated := (d.core h).seatedIn (d.clock % 16) = some n
    let going := fun (x : Nat) (cq : Bool) => ∀ y, y ∈ ((d.core x).eq cq).live → y.stop = none
    let clear := a.killed = false ∧ (a.preempt = false ∨ a.leased = true) ∧ (a.stopReq = false ∨ a.leased = true) ∧ 
      a.defer = [] ∧ a.endReq = false ∧ d.atBreakpoint a = false
    (s.dev.agenda = .turn h :: rest → seated → clear → d.fetch s.mem h n = .word w d' → decode w = .ok i →
      step s = exec i ⟨s.mem, { d' with cur := .slot h n w }⟩) ∧
    (s.dev.agenda = .turn h :: rest → seated → clear → d.fetch s.mem h n = .word w d' → decode w = .bad sub →
      step s = .next (State.trapped ⟨s.mem, d'⟩ h n ⟨0x01, sub, w, 0xFFFF#16⟩)) ∧
    (s.dev.agenda = .turn h :: rest → (d.core h).seatedIn (d.clock % 16) = none → d.seatChoice h (d.clock % 16) = none → step s = .next ⟨s.mem, d⟩) ∧
    (∀ more, a.stream = (a.pc.toNat, w) :: more → d.fetch s.mem h n = .word w d) ∧
    (∀ pa lf, a.stream = [] → a.pc.toNat % 8 = 0 → isWindow a.pc = false → (d.core h).ic.find? (lineOf a.pc.toNat) = none →
      d.translate s.mem (a.who h) [.x] a.pc = .ok pa lf → d.pending pa = false → d.linePoison.contains (lineOf pa) = false →
      (d.quay (d.fnOf a.lk) pa false).isSome = true →
        ∃ d1, d.fetch s.mem h n = .word (Line.w64 (s.mem.line (lineOf pa)) (a.pc.toNat % 128)) d1 ∧ (d1.slot h n).pc = a.pc) ∧
    (s.dev.agenda = .ev e :: rest → step s = runEv e ⟨s.mem, d⟩) ∧
    (s.dev.agenda = .req i :: rest → step s = exec i ⟨s.mem, d⟩) ∧
    (s.dev.agenda = .copy h :: rest → going h true → (d.core h).cq.q = c :: r → d.headReady h true = true → c.stop = none → c.oc = none →
      decodeTile true c.img = .ok i → step s = exec i ⟨s.mem, { d with cur := .queue h true }⟩) ∧
    (s.dev.agenda = .court k :: rest → (∀ j, j < 4 → going (4 * k + j) false) →
      ((d.court k).ran = false → d.courtPick k = some h → (d.core h).mq.q = c :: r → c.stop = none → c.oc = none → decodeTile false c.img = .ok i →
        step s = exec i ⟨s.mem, { ({ d with agenda := .court k :: rest } : Dev).updCourt k (fun x => { x with tried := x.tried ++ [h % 4] }) with
          cur := .queue h false }⟩) ∧
      ((d.court k).ran = true ∨ d.courtPick k = none →
        ∃ e, step s = .next ⟨s.mem, e⟩ ∧ e.cores = d.cores ∧ e.agenda = rest ∧ (e.court k).tried = [] ∧ (e.court k).ran = false ∧
          (e.court k).last = (d.court k).last)) ∧
    (s.dev.agenda = [] → s.dev.up = true → ∃ t, step s = .next t ∧ t.mem = s.mem ∧ t.dev.clock = s.dev.clock + 1 ∧ ∀ j, (t.dev.slot h n).A j = (s.dev.slot h n).A j) ∧
    (s.dev.agenda = [] → s.dev.up = false → step s = .next s)

/-- What reset leaves. From the spec: a format context of 0x0000_02A4 (R216), WMASK 0xFFFF (R332), every barrier free, every slot FREE, no task,
launch or terrace active, the stage before bring-up. The model's choices (logs 1 and 2): every other register is 0, and so is every byte of
memory.
Memory right after reset is in its canonical form. -/
def Obligations.Reset : Prop :=
  (let d := State.reset.dev
  d.up = false ∧ d.clock = 0 ∧ d.stage = 0 ∧
  (∀ h, (d.core h).mq.ctx = 0x000002A4#32 ∧ (d.core h).mq.q = [] ∧ (d.core h).cq.q = [] ∧ ∀ b, ((d.core h).bar b).owner = none) ∧
  (∀ f, (d.func f).wmask = 0xFFFF#64) ∧ (∀ t, (d.terrace t).state = 0) ∧ (∀ lk, d.launch? lk = none) ∧ d.agenda = [] ∧ d.net = [] ∧
  (∀ h n, (d.slot h n).st = .free ∧ (d.slot h n).pc = 0#64 ∧ (d.slot h n).tsw = 0#32 ∧ (d.slot h n).K 0 = 0xFFFF#16 ∧
    (∀ j, (d.slot h n).A j = 0#64 ∧ (d.slot h n).V j = 0#512) ∧ (∀ j, 0 < j → (d.slot h n).K j = 0#16)) ∧
  (∀ h a, (d.core h).word a = 0#32 ∧ (d.core h).tag a = 0#4) ∧ ∀ a, State.reset.mem.read a = 0#8) ∧
  (State.reset.mem.wf = true)

/-- Whatever a step does, in whatever state, it leaves memory in its canonical form: addresses strictly rising, and no byte listed that an
unlisted address reads as. -/
def Obligations.EveryStepKeepsMemoryCanonical : Prop :=
  ∀ s t : State, s.mem.wf = true → step s = .next t → t.mem.wf = true

/-- No instruction, command, event or request ends a run, in whatever state: every step answers a next state, but for a host access of an address
that is no device memory (R313), which stops by name; and nothing is refused. -/
def Obligations.EveryStepGoesOn : Prop :=
  ∀ s : State, (s.named = true → s.goesOn) ∧
    (s.named = false → ∃ pa, step s = .fault (.noSuchAddress pa) ∧ isHbm pa = false) ∧ ∀ x, step s ≠ .refused x
end

