-- ==== Sys2Proof/Laws/Maps.lean ====
section
/-! SUPPORT. Laws of tables and of physical memory: read after write, other places unchanged, the canonical form kept. -/

namespace Sys2Proof.Machine

theorem find_putSorted_self {α : Type} (k : Nat) (v : α) (l : List (Nat × α)) (h : ∀ e ∈ l, e.1 ≠ k) :
    (putSorted k v l).find? (fun e => e.1 == k) = some (k, v) := by
  induction l with
  | nil => simp [putSorted]
  | cons e r ih =>
    obtain ⟨a, b⟩ := e
    have ha : a ≠ k := h (a, b) (by simp)
    simp only [putSorted]
    split
    · simp
    · rw [List.find?_cons_of_neg (by simpa using ha)]
      exact ih (fun e he => h e (by simp [he]))

theorem find_putSorted_ne {α : Type} (k j : Nat) (v : α) (l : List (Nat × α)) (h : j ≠ k) :
    (putSorted k v l).find? (fun e => e.1 == j) = l.find? (fun e => e.1 == j) := by
  induction l with
  | nil => simp [putSorted, Ne.symm h]
  | cons e r ih =>
    obtain ⟨a, b⟩ := e
    simp only [putSorted]
    split
    · rw [List.find?_cons_of_neg (by simpa using Ne.symm h)]
    · by_cases ha : a = j
      · simp [ha]
      · rw [List.find?_cons_of_neg (by simpa using ha), List.find?_cons_of_neg (by simpa using ha), ih]

theorem find_filter_ne {α : Type} (k j : Nat) (l : List (Nat × α)) (h : j ≠ k) :
    (l.filter (fun e => e.1 != k)).find? (fun e => e.1 == j) = l.find? (fun e => e.1 == j) := by
  induction l with
  | nil => simp
  | cons e r ih =>
    by_cases ha : e.1 = k
    · have : e.1 ≠ j := fun hj => h (hj.symm.trans ha)
      rw [List.filter_cons_of_neg (by simp [ha]), List.find?_cons_of_neg (by simpa using this), ih]
    · rw [List.filter_cons_of_pos (by simpa using ha)]
      by_cases hj : e.1 = j
      · simp [hj]
      · rw [List.find?_cons_of_neg (by simpa using hj), List.find?_cons_of_neg (by simpa using hj), ih]

@[simp] theorem AMap.find_put_self {α : Type} (m : AMap α) (k : Nat) (v : α) : (m.put k v).find? k = some v := by
  unfold AMap.find? AMap.put AMap.erase
  rw [find_putSorted_self k v _ (by simp)]

theorem AMap.find_put_ne {α : Type} (m : AMap α) (k j : Nat) (v : α) (h : j ≠ k) :
    (m.put k v).find? j = m.find? j := by
  unfold AMap.find? AMap.put AMap.erase
  rw [find_putSorted_ne k j v _ h, find_filter_ne k j _ h]

@[simp] theorem AMap.get_put_self {α : Type} (d : α) (m : AMap α) (k : Nat) (v : α) : (m.put k v).get d k = v := by
  simp [AMap.get]

theorem AMap.get_put_ne {α : Type} (d : α) (m : AMap α) (k j : Nat) (v : α) (h : j ≠ k) :
    (m.put k v).get d j = m.get d j := by
  simp [AMap.get, AMap.find_put_ne m k j v h]

@[simp] theorem AMap.get_empty {α : Type} (d : α) (k : Nat) : (AMap.empty : AMap α).get d k = d := rfl

/-! ### Memory -/

theorem risingFrom_mono {l : List Host.Cell} {a b : Nat} (h : a ≤ b) (hl : Memory.risingFrom b l = true) :
    Memory.risingFrom a l = true := by
  cases l with
  | nil => rfl
  | cons c r =>
    obtain ⟨x, y⟩ := c
    simp only [Memory.risingFrom, Bool.and_eq_true, decide_eq_true_eq] at hl ⊢
    exact ⟨by omega, hl.2⟩

theorem risingFrom_filter {l : List Host.Cell} {lo : Nat} (p : Host.Cell → Bool) (hl : Memory.risingFrom lo l = true) :
    Memory.risingFrom lo (l.filter p) = true := by
  induction l generalizing lo with
  | nil => rfl
  | cons c r ih =>
    obtain ⟨x, y⟩ := c
    simp only [Memory.risingFrom, Bool.and_eq_true, decide_eq_true_eq] at hl
    by_cases hp : p (x, y)
    · rw [List.filter_cons_of_pos hp]
      simp only [Memory.risingFrom, Bool.and_eq_true, decide_eq_true_eq]
      exact ⟨hl.1, ih hl.2⟩
    · rw [List.filter_cons_of_neg hp]
      exact risingFrom_mono (by omega) (ih hl.2)

theorem risingFrom_putSorted {l : List Host.Cell} {lo k : Nat} {v : Byte} (hk : lo ≤ k)
    (hl : Memory.risingFrom lo l = true) (hne : ∀ e ∈ l, e.1 ≠ k) :
    Memory.risingFrom lo (putSorted k v l) = true := by
  induction l generalizing lo with
  | nil => simp [putSorted, Memory.risingFrom, hk]
  | cons c r ih =>
    obtain ⟨x, y⟩ := c
    simp only [Memory.risingFrom, Bool.and_eq_true, decide_eq_true_eq] at hl
    have hx : x ≠ k := hne (x, y) (by simp)
    simp only [putSorted]
    split
    · simp only [Memory.risingFrom, Bool.and_eq_true, decide_eq_true_eq]
      exact ⟨hk, by omega, hl.2⟩
    · simp only [Memory.risingFrom, Bool.and_eq_true, decide_eq_true_eq]
      exact ⟨hl.1, ih (by omega) hl.2 (fun e he => hne e (by simp [he]))⟩

theorem all_putSorted {l : List Host.Cell} {k : Nat} {v : Byte} (p : Host.Cell → Bool) (hv : p (k, v) = true)
    (hl : l.all p = true) : (putSorted k v l).all p = true := by
  induction l with
  | nil => simp [putSorted, hv]
  | cons c r ih =>
    obtain ⟨x, y⟩ := c
    simp only [List.all_cons, Bool.and_eq_true] at hl
    simp only [putSorted]
    split
    · simp [hv, hl.1, hl.2]
    · simp [hl.1, ih hl.2]

/-- A write keeps the canonical form of memory. -/
theorem Memory.wf_write (m : Memory) (c : Host.Cell) (h : m.wf = true) : (m.write c).wf = true := by
  obtain ⟨a, b⟩ := c
  simp only [Memory.wf, Bool.and_eq_true] at h
  have hr := risingFrom_filter (fun e => e.1 != a) h.1
  have ha : (m.cells.filter (fun e => e.1 != a)).all (fun c => c.2 != Memory.unlisted) = true := by
    simp only [List.all_eq_true] at h ⊢
    exact fun x hx => h.2 x (List.mem_filter.mp hx).1
  simp only [Memory.write]
  split
  · simp only [Memory.wf, hr, ha, Bool.and_self]
  · rename_i hb
    simp only [Memory.wf, Bool.and_eq_true]
    exact ⟨risingFrom_putSorted (Nat.zero_le a) hr (by simp), all_putSorted _ (by simpa using hb) ha⟩

/-- Writes keep the canonical form of memory. -/
theorem Memory.wf_writeAll (m : Memory) (cs : List Host.Cell) (h : m.wf = true) : (m.writeAll cs).wf = true := by
  unfold Memory.writeAll
  induction cs generalizing m with
  | nil => exact h
  | cons c r ih => exact ih (m.write c) (Memory.wf_write m c h)

theorem Memory.read_write_self (m : Memory) (a : Nat) (b : Byte) : (m.write (a, b)).read a = b := by
  by_cases hb : b = Memory.unlisted
  · have : (m.cells.filter (fun e => e.1 != a)).find? (fun c => c.1 == a) = none := by
      simp [List.find?_eq_none]
    simp [Memory.write, Memory.read, hb, this]
  · simp only [Memory.write, Memory.read, hb, if_false]
    rw [find_putSorted_self a b _ (by simp)]

theorem Memory.read_write_ne (m : Memory) (a j : Nat) (b : Byte) (h : j ≠ a) : (m.write (a, b)).read j = m.read j := by
  by_cases hb : b = Memory.unlisted
  · simp only [Memory.write, Memory.read, hb, if_true, find_filter_ne a j _ h]
  · simp only [Memory.write, Memory.read, hb, if_false, find_putSorted_ne a j b _ h, find_filter_ne a j _ h]

/-- A byte outside the cells written reads as before. -/
theorem Memory.read_writeAll_ne (m : Memory) (cs : List Host.Cell) (j : Nat) (h : ∀ c ∈ cs, c.1 ≠ j) :
    (m.writeAll cs).read j = m.read j := by
  unfold Memory.writeAll
  induction cs generalizing m with
  | nil => rfl
  | cons c r ih =>
    obtain ⟨a, b⟩ := c
    rw [List.foldl_cons, ih _ (fun c hc => h c (by simp [hc])),
      Memory.read_write_ne m a j b (Ne.symm (h (a, b) (by simp)))]

end Sys2Proof.Machine
end

