-- ==== Sys2Proof/Laws/Ops.lean ====
section
/-! SUPPORT. Laws of the shared operations: parts of the device by number, register files, the issue of an instruction, and the lifts
by which events act. -/

namespace Sys2Proof.Machine

/-! ### Parts by number -/

@[simp] theorem Dev.core_updCore_self (d : Dev) (h : Nat) (f : Core → Core) : (d.updCore h f).core h = f (d.core h) := by
  simp [Dev.core, Dev.updCore, AMap.upd]
theorem Dev.core_updCore_ne (d : Dev) (h k : Nat) (f : Core → Core) (hk : k ≠ h) : (d.updCore h f).core k = d.core k := by
  simp [Dev.core, Dev.updCore, AMap.upd, AMap.get_put_ne _ _ _ _ _ hk]
@[simp] theorem Core.slot_updSlot_self (c : Core) (n : Nat) (f : Slot → Slot) : (c.updSlot n f).slot n = f (c.slot n) := by
  by_cases hn : n < 64 <;> simp [Core.slot, Core.updSlot, AMap.upd, hn]
theorem Core.slot_updSlot_ne (c : Core) (n k : Nat) (f : Slot → Slot) (hk : k ≠ n) : (c.updSlot n f).slot k = c.slot k := by
  by_cases hn : n < 64 <;> by_cases hk' : k < 64 <;> simp [Core.slot, Core.updSlot, AMap.upd, AMap.get_put_ne _ _ _ _ _ hk, hn, hk']
@[simp] theorem Dev.slot_updSlot_self (d : Dev) (h n : Nat) (f : Slot → Slot) : (d.updSlot h n f).slot h n = f (d.slot h n) := by
  simp [Dev.slot, Dev.updSlot]
theorem Dev.slot_updSlot_ne (d : Dev) (h n h' n' : Nat) (f : Slot → Slot) (hk : ¬(h' = h ∧ n' = n)) :
    (d.updSlot h n f).slot h' n' = d.slot h' n' := by
  by_cases hh : h' = h
  · subst hh
    simp only [true_and] at hk
    simp [Dev.slot, Dev.updSlot, Core.slot_updSlot_ne _ _ _ _ hk]
  · simp [Dev.slot, Dev.updSlot, Dev.core_updCore_ne _ _ _ _ hh]
@[simp] theorem Dev.slot_setSlot_self (d : Dev) (h n : Nat) (s : Slot) : (d.setSlot h n s).slot h n = s := by
  simp [Dev.setSlot]
theorem Dev.slot_setSlot_ne (d : Dev) (h n h' n' : Nat) (s : Slot) (hk : ¬(h' = h ∧ n' = n)) :
    (d.setSlot h n s).slot h' n' = d.slot h' n' := Dev.slot_updSlot_ne d h n h' n' _ hk
@[simp] theorem Dev.core_updSlot_bare (d : Dev) (h n k : Nat) (f : Slot → Slot) : ((d.updSlot h n f).core k).bare = (d.core k).bare := by
  by_cases hk : k = h
  · subst hk
    by_cases hn : n < 64 <;> simp [Dev.updSlot, Core.updSlot, Core.bare, hn]
  · simp [Dev.updSlot, Dev.core_updCore_ne _ _ _ _ hk]
@[simp] theorem Dev.bare_updCore (d : Dev) (h : Nat) (f : Core → Core) : (d.updCore h f).bare = d.bare := rfl
@[simp] theorem Dev.bare_updSlot (d : Dev) (h n : Nat) (f : Slot → Slot) : (d.updSlot h n f).bare = d.bare := rfl

/-! ### Register files -/

@[simp] theorem Slot.A_zero (s : Slot) : s.A 0 = 0#64 := by simp [Slot.A]
@[simp] theorem Slot.K_zero (s : Slot) : s.K 0 = 0xFFFF#16 := by simp [Slot.K]
theorem Slot.A_setA_self (s : Slot) (d : AReg) (v : W64) : (s.setA d.toNat v).A d.toNat = if d = 0#4 then 0#64 else v := by
  by_cases h : d = 0#4
  · simp [h, Slot.A]
  · have : d.toNat ≠ 0 := fun e => h (BitVec.eq_of_toNat_eq (by simpa using e))
    simp [Slot.setA, Slot.A, this, h]
theorem Slot.A_setA_ne (s : Slot) (d j : Nat) (v : W64) (h : j ≠ d) : (s.setA d v).A j = s.A j := by
  by_cases hd : d = 0
  · simp [Slot.setA, hd]
  · simp [Slot.setA, Slot.A, hd, AMap.get_put_ne _ _ _ _ _ h]
@[simp] theorem Slot.V_setA (s : Slot) (d j : Nat) (v : W64) : (s.setA d v).V j = s.V j := by unfold Slot.setA; split <;> rfl
@[simp] theorem Slot.K_setA (s : Slot) (d j : Nat) (v : W64) : (s.setA d v).K j = s.K j := by unfold Slot.setA; split <;> rfl
@[simp] theorem Slot.tsw_setA (s : Slot) (d : Nat) (v : W64) : (s.setA d v).tsw = s.tsw := by unfold Slot.setA; split <;> rfl
@[simp] theorem Slot.pc_setA (s : Slot) (d : Nat) (v : W64) : (s.setA d v).pc = s.pc := by unfold Slot.setA; split <;> rfl
@[simp] theorem Slot.rest_setA (s : Slot) (d : Nat) (v : W64) : (s.setA d v).rest = s.rest := by unfold Slot.setA; split <;> rfl
@[simp] theorem Slot.stepReq_setA (s : Slot) (d : Nat) (v : W64) : (s.setA d v).stepReq = s.stepReq := by unfold Slot.setA; split <;> rfl
theorem Slot.K_setK_self (s : Slot) (d : KReg) (v : BitVec 16) : (s.setK d.toNat v).K d.toNat = if d = 0#3 then 0xFFFF#16 else v := by
  by_cases h : d = 0#3
  · simp [h, Slot.K]
  · have : d.toNat ≠ 0 := fun e => h (BitVec.eq_of_toNat_eq (by simpa using e))
    simp [Slot.setK, Slot.K, this, h]
theorem Slot.K_setK_ne (s : Slot) (d j : Nat) (v : BitVec 16) (h : j ≠ d) : (s.setK d v).K j = s.K j := by
  by_cases hd : d = 0
  · simp [Slot.setK, hd]
  · simp [Slot.setK, Slot.K, hd, AMap.get_put_ne _ _ _ _ _ h]
@[simp] theorem Slot.A_setK (s : Slot) (d j : Nat) (v : BitVec 16) : (s.setK d v).A j = s.A j := by unfold Slot.setK; split <;> rfl
@[simp] theorem Slot.V_setK (s : Slot) (d j : Nat) (v : BitVec 16) : (s.setK d v).V j = s.V j := by unfold Slot.setK; split <;> rfl
@[simp] theorem Slot.tsw_setK (s : Slot) (d : Nat) (v : BitVec 16) : (s.setK d v).tsw = s.tsw := by unfold Slot.setK; split <;> rfl
@[simp] theorem Slot.pc_setK (s : Slot) (d : Nat) (v : BitVec 16) : (s.setK d v).pc = s.pc := by unfold Slot.setK; split <;> rfl
@[simp] theorem Slot.rest_setK (s : Slot) (d : Nat) (v : BitVec 16) : (s.setK d v).rest = s.rest := by unfold Slot.setK; split <;> rfl
@[simp] theorem Slot.stepReq_setK (s : Slot) (d : Nat) (v : BitVec 16) : (s.setK d v).stepReq = s.stepReq := by unfold Slot.setK; split <;> rfl
@[simp] theorem Slot.V_setV_self (s : Slot) (d : Nat) (v : V512) : (s.setV d v).V d = v := by simp [Slot.setV, Slot.V]
theorem Slot.V_setV_ne (s : Slot) (d j : Nat) (v : V512) (h : j ≠ d) : (s.setV d v).V j = s.V j := by
  simp [Slot.setV, Slot.V, AMap.get_put_ne _ _ _ _ _ h]
@[simp] theorem Slot.A_setV (s : Slot) (d j : Nat) (v : V512) : (s.setV d v).A j = s.A j := rfl
@[simp] theorem Slot.K_setV (s : Slot) (d j : Nat) (v : V512) : (s.setV d v).K j = s.K j := rfl
@[simp] theorem Slot.tsw_setV (s : Slot) (d : Nat) (v : V512) : (s.setV d v).tsw = s.tsw := rfl
@[simp] theorem Slot.pc_setV (s : Slot) (d : Nat) (v : V512) : (s.setV d v).pc = s.pc := rfl
@[simp] theorem Slot.rest_setV (s : Slot) (d : Nat) (v : V512) : (s.setV d v).rest = s.rest := rfl
@[simp] theorem Slot.stepReq_setV (s : Slot) (d : Nat) (v : V512) : (s.setV d v).stepReq = s.stepReq := rfl

theorem lane_append_succ {n : Nat} (x : BitVec n) (y : W32) (l : Nat) (h : l ≠ 0) :
    (x ++ y).extractLsb' (32 * l) 32 = x.extractLsb' (32 * (l - 1)) 32 := by
  rw [BitVec.extractLsb'_append_eq_of_le (by omega), show 32 * l - 32 = 32 * (l - 1) by omega]
theorem lane_append_zero {n : Nat} (x : BitVec n) (y : W32) : (x ++ y).extractLsb' (32 * 0) 32 = y := by
  rw [BitVec.extractLsb'_append_eq_of_add_le (by omega)]; simp

/-- Lane l of a value made of lanes. -/
theorem lane_ofLanes (f : Nat → W32) (l : Nat) (hl : l < 16) : lane (ofLanes f) l = f l := by
  unfold lane ofLanes
  by_cases h0 : l = 0
  · subst h0; exact lane_append_zero _ _
  rw [lane_append_succ _ _ _ (by omega)]
  by_cases h1 : l = 1
  · subst h1; exact lane_append_zero _ _
  rw [lane_append_succ _ _ _ (by omega)]
  by_cases h2 : l = 2
  · subst h2; exact lane_append_zero _ _
  rw [lane_append_succ _ _ _ (by omega)]
  by_cases h3 : l = 3
  · subst h3; exact lane_append_zero _ _
  rw [lane_append_succ _ _ _ (by omega)]
  by_cases h4 : l = 4
  · subst h4; exact lane_append_zero _ _
  rw [lane_append_succ _ _ _ (by omega)]
  by_cases h5 : l = 5
  · subst h5; exact lane_append_zero _ _
  rw [lane_append_succ _ _ _ (by omega)]
  by_cases h6 : l = 6
  · subst h6; exact lane_append_zero _ _
  rw [lane_append_succ _ _ _ (by omega)]
  by_cases h7 : l = 7
  · subst h7; exact lane_append_zero _ _
  rw [lane_append_succ _ _ _ (by omega)]
  by_cases h8 : l = 8
  · subst h8; exact lane_append_zero _ _
  rw [lane_append_succ _ _ _ (by omega)]
  by_cases h9 : l = 9
  · subst h9; exact lane_append_zero _ _
  rw [lane_append_succ _ _ _ (by omega)]
  by_cases h10 : l = 10
  · subst h10; exact lane_append_zero _ _
  rw [lane_append_succ _ _ _ (by omega)]
  by_cases h11 : l = 11
  · subst h11; exact lane_append_zero _ _
  rw [lane_append_succ _ _ _ (by omega)]
  by_cases h12 : l = 12
  · subst h12; exact lane_append_zero _ _
  rw [lane_append_succ _ _ _ (by omega)]
  by_cases h13 : l = 13
  · subst h13; exact lane_append_zero _ _
  rw [lane_append_succ _ _ _ (by omega)]
  by_cases h14 : l = 14
  · subst h14; exact lane_append_zero _ _
  rw [lane_append_succ _ _ _ (by omega)]
  have : l = 15 := by omega
  subst this; simp

/-- A masked vector write, lane by lane (R15). -/
theorem lane_maskV (m : BitVec 16) (kz : Bool) (old new : V512) (l : Nat) (hl : l < 16) :
    lane (maskV m kz old new) l = if m.getLsbD l then lane new l else if kz then 0#32 else lane old l := by
  unfold maskV
  rw [lane_ofLanes _ _ hl]

/-! ### The issue of an instruction -/

@[simp] theorem Slot.issued_pc (s : Slot) (p q : W64) (u : Use) : (s.issued p q u).pc = q := rfl
@[simp] theorem Slot.issued_A (s : Slot) (p q : W64) (u : Use) (j : Nat) : (s.issued p q u).A j = s.A j := rfl
@[simp] theorem Slot.issued_V (s : Slot) (p q : W64) (u : Use) (j : Nat) : (s.issued p q u).V j = s.V j := rfl
@[simp] theorem Slot.issued_K (s : Slot) (p q : W64) (u : Use) (j : Nat) : (s.issued p q u).K j = s.K j := rfl
@[simp] theorem Slot.issued_tsw (s : Slot) (p q : W64) (u : Use) : (s.issued p q u).tsw = s.tsw := rfl
@[simp] theorem Slot.issued_rest (s : Slot) (p q : W64) (u : Use) : (s.issued p q u).rest = s.rest := rfl
@[simp] theorem Slot.issued_st (s : Slot) (p q : W64) (u : Use) : (s.issued p q u).st = s.st := rfl

/-- What the end of an issue does to its slot when no STEP is pending. -/
theorem Ctx.finish_slot (c : Ctx) (u : Use) (d : Dev) (next : W64) (hs : c.s.stepReq = false) :
    (c.finish u d next).slot c.h c.n = (d.slot c.h c.n).issued c.s.pc next u := by
  unfold Ctx.finish
  simp only [hs, Bool.false_eq_true, if_false]
  rw [Dev.slot_updSlot_self]
  split
  · simp [Dev.slot, Core.slot]
  · rfl

/-- The end of an issue changes no other slot. -/
theorem Ctx.finish_slot_ne (c : Ctx) (u : Use) (d : Dev) (next : W64) (hs : c.s.stepReq = false) (h n : Nat) (hk : ¬(h = c.h ∧ n = c.n)) :
    (c.finish u d next).slot h n = d.slot h n := by
  unfold Ctx.finish
  simp only [hs, Bool.false_eq_true, if_false]
  rw [Dev.slot_updSlot_ne _ _ _ _ _ _ hk]
  split
  · by_cases hh : h = c.h
    · subst hh; simp [Dev.slot, Core.slot]
    · simp [Dev.slot, Dev.core_updCore_ne _ _ _ _ hh]
  · rfl

/-- It changes nothing else of any core. -/
theorem Ctx.finish_core_bare (c : Ctx) (u : Use) (d : Dev) (next : W64) (hs : c.s.stepReq = false) (k : Nat) :
    ((c.finish u d next).core k).bare = (d.core k).bare := by
  unfold Ctx.finish
  simp only [hs, Bool.false_eq_true, if_false, Dev.core_updSlot_bare]
  split
  · by_cases hh : k = c.h
    · subst hh; simp [Core.bare]
    · simp [Dev.core_updCore_ne _ _ _ _ hh]
  · rfl

/-- It changes nothing else of the device. -/
theorem Ctx.finish_bare (c : Ctx) (u : Use) (d : Dev) (next : W64) (hs : c.s.stepReq = false) : (c.finish u d next).bare = d.bare := by
  unfold Ctx.finish
  simp only [hs, Bool.false_eq_true, if_false, Dev.bare_updSlot]
  split <;> rfl

/-- A thread instruction that may issue does what its body says. -/
theorem thread_issues (u : Use) (body : Ctx → Res) (s : State) (h n : Nat) (w : W64) (hi : s.issues h n w u) :
    thread u body s = .next ⟨s.mem, (s.ctx h n w).settle u (body (s.ctx h n w))⟩ := by
  have hg := hi.free
  unfold State.ctx at hg
  simp only [thread, hi.cur, State.ctx, hg]

/-- A thread instruction always answers a next state and leaves memory alone. -/
theorem thread_next (u : Use) (body : Ctx → Res) (s : State) : ∃ d, thread u body s = .next ⟨s.mem, d⟩ := by
  unfold thread
  split
  · exact ⟨_, rfl⟩
  · exact ⟨s.dev, rfl⟩

/-- An instruction that only changes registers completes, and changes only what its function changes. -/
theorem regForm_completes (i : Instr) (u : Use) (f : Slot → Slot) (as vs ks : List Nat) (post : Slot → Slot → Prop)
    (he : ∀ s, exec i s = regForm u f s) (hk : ∀ a, KeptRegs a (f a) as vs ks)
    (hp : ∀ a, post a ((f a).issued a.pc (a.pc + 8#64) u)) : CompletesBut i u as vs ks post := by
  intro s h n w hi
  refine ⟨_, (he s).trans (thread_issues u _ s h n w hi), ?_, ?_, ?_⟩
  · constructor
    · intro a; rfl
    · intro h' n' hne
      show (Ctx.finish _ u _ _).slot h' n' = _
      rw [Ctx.finish_slot_ne (s.ctx h n w) u _ _ hi.step h' n' hne]
      exact Dev.slot_setSlot_ne _ _ _ _ _ _ hne
    · intro k
      show ((Ctx.finish _ u _ _).core k).bare = _
      rw [Ctx.finish_core_bare (s.ctx h n w) u _ _ hi.step k]
      exact Dev.core_updSlot_bare _ _ _ _ _
    · show (Ctx.finish _ u _ _).bare = _
      rw [Ctx.finish_bare (s.ctx h n w) u _ _ hi.step]
      rfl
  · have e := Ctx.finish_slot (s.ctx h n w) u ((s.ctx h n w).d.setSlot h n (f (s.ctx h n w).s)) ((s.ctx h n w).s.pc + 8#64) hi.step
    rw [show (s.ctx h n w).h = h from rfl, show (s.ctx h n w).n = n from rfl, Dev.slot_setSlot_self] at e
    show KeptRegs _ ((Ctx.finish _ u _ _).slot h n) as vs ks
    have k := hk (s.dev.slot h n)
    exact e ▸ ⟨k.aregs, k.vregs, k.kregs, k.tsw, k.rest⟩
  · have e := Ctx.finish_slot (s.ctx h n w) u ((s.ctx h n w).d.setSlot h n (f (s.ctx h n w).s)) ((s.ctx h n w).s.pc + 8#64) hi.step
    rw [show (s.ctx h n w).h = h from rfl, show (s.ctx h n w).n = n from rfl, Dev.slot_setSlot_self] at e
    show post _ ((Ctx.finish _ u _ _).slot h n)
    exact e ▸ hp _

/-- A form that writes one a-register. -/
theorem writesA_of (i : Instr) (u : Use) (d : AReg) (val : Slot → W64)
    (he : ∀ s, exec i s = regForm u (fun a => a.setA d.toNat (val a)) s) : WritesA i u d val :=
  regForm_completes i u _ _ _ _ _ he
    (fun a => ⟨fun j hj => Slot.A_setA_ne _ _ _ _ (by simpa using hj), fun j _ => by simp, fun j _ => by simp, by simp, by simp⟩)
    (fun a => ⟨rfl, by simp only [Slot.issued_A]; exact Slot.A_setA_self _ _ _⟩)

/-- A form that writes one mask register. -/
theorem writesK_of (i : Instr) (u : Use) (d : KReg) (val : Slot → BitVec 16)
    (he : ∀ s, exec i s = regForm u (fun a => a.setK d.toNat (val a)) s) : WritesK i u d val :=
  regForm_completes i u _ _ _ _ _ he
    (fun a => ⟨fun j _ => by simp, fun j _ => by simp, fun j hj => Slot.K_setK_ne _ _ _ _ (by simpa using hj), by simp, by simp⟩)
    (fun a => ⟨rfl, by simp only [Slot.issued_K]; exact Slot.K_setK_self _ _ _⟩)

/-- A form that writes the active lanes of one vector register. -/
theorem writesV_of (i : Instr) (u : Use) (km : KReg) (kz : Bool) (d : VReg) (val : Slot → Nat → W32)
    (he : ∀ s, exec i s = regForm u (fun a => a.setVm d.toNat (a.K km.toNat) kz (ofLanes (val a))) s) : WritesV i u km kz d val :=
  regForm_completes i u _ _ _ _ _ he
    (fun a => ⟨fun j _ => rfl, fun j hj => Slot.V_setV_ne _ _ _ _ (by simpa using hj), fun j _ => rfl, rfl, rfl⟩)
    (fun a => ⟨rfl, fun l hl => by
      simp only [Slot.issued_V, Slot.setVm, Slot.V_setV_self, lane_maskV _ _ _ _ _ hl, lane_ofLanes _ _ hl]⟩)

end Sys2Proof.Machine
end

