-- ==== Sys2Proof/Laws/State.lean ====
section
/-! SUPPORT. What the updates of the state leave alone: one lemma for each field of the device, of a core and of a slot under each
update, so that no proof unfolds a record. -/

namespace Sys2Proof.Machine

section
variable (d : Dev) (h : Nat) (f : Core → Core)
@[simp] theorem Dev.updCore_clock : (d.updCore h f).clock = d.clock := rfl
@[simp] theorem Dev.updCore_stage : (d.updCore h f).stage = d.stage := rfl
@[simp] theorem Dev.updCore_failure : (d.updCore h f).failure = d.failure := rfl
@[simp] theorem Dev.updCore_up : (d.updCore h f).up = d.up := rfl
@[simp] theorem Dev.updCore_courts : (d.updCore h f).courts = d.courts := rfl
@[simp] theorem Dev.updCore_homes : (d.updCore h f).homes = d.homes := rfl
@[simp] theorem Dev.updCore_groups : (d.updCore h f).groups = d.groups := rfl
@[simp] theorem Dev.updCore_qsets : (d.updCore h f).qsets = d.qsets := rfl
@[simp] theorem Dev.updCore_pins : (d.updCore h f).pins = d.pins := rfl
@[simp] theorem Dev.updCore_stalled : (d.updCore h f).stalled = d.stalled := rfl
@[simp] theorem Dev.updCore_linePoison : (d.updCore h f).linePoison = d.linePoison := rfl
@[simp] theorem Dev.updCore_hostLines : (d.updCore h f).hostLines = d.hostLines := rfl
@[simp] theorem Dev.updCore_buckets : (d.updCore h f).buckets = d.buckets := rfl
@[simp] theorem Dev.updCore_merges : (d.updCore h f).merges = d.merges := rfl
@[simp] theorem Dev.updCore_xl : (d.updCore h f).xl = d.xl := rfl
@[simp] theorem Dev.updCore_walks : (d.updCore h f).walks = d.walks := rfl
@[simp] theorem Dev.updCore_shoots : (d.updCore h f).shoots = d.shoots := rfl
@[simp] theorem Dev.updCore_troot : (d.updCore h f).troot = d.troot := rfl
@[simp] theorem Dev.updCore_depots : (d.updCore h f).depots = d.depots := rfl
@[simp] theorem Dev.updCore_launches : (d.updCore h f).launches = d.launches := rfl
@[simp] theorem Dev.updCore_tasks : (d.updCore h f).tasks = d.tasks := rfl
@[simp] theorem Dev.updCore_terr : (d.updCore h f).terr = d.terr := rfl
@[simp] theorem Dev.updCore_ranks : (d.updCore h f).ranks = d.ranks := rfl
@[simp] theorem Dev.updCore_ctlDrops : (d.updCore h f).ctlDrops = d.ctlDrops := rfl
@[simp] theorem Dev.updCore_funcs : (d.updCore h f).funcs = d.funcs := rfl
@[simp] theorem Dev.updCore_profHolder : (d.updCore h f).profHolder = d.profHolder := rfl
@[simp] theorem Dev.updCore_profQueue : (d.updCore h f).profQueue = d.profQueue := rfl
@[simp] theorem Dev.updCore_shared : (d.updCore h f).shared = d.shared := rfl
@[simp] theorem Dev.updCore_ports : (d.updCore h f).ports = d.ports := rfl
@[simp] theorem Dev.updCore_bridges : (d.updCore h f).bridges = d.bridges := rfl
@[simp] theorem Dev.updCore_mr : (d.updCore h f).mr = d.mr := rfl
@[simp] theorem Dev.updCore_fwVersion : (d.updCore h f).fwVersion = d.fwVersion := rfl
@[simp] theorem Dev.updCore_keys : (d.updCore h f).keys = d.keys := rfl
@[simp] theorem Dev.updCore_doe : (d.updCore h f).doe = d.doe := rfl
@[simp] theorem Dev.updCore_hostRead : (d.updCore h f).hostRead = d.hostRead := rfl
@[simp] theorem Dev.updCore_errCount : (d.updCore h f).errCount = d.errCount := rfl
@[simp] theorem Dev.updCore_errLog : (d.updCore h f).errLog = d.errLog := rfl
@[simp] theorem Dev.updCore_skip : (d.updCore h f).skip = d.skip := rfl
@[simp] theorem Dev.updCore_failed : (d.updCore h f).failed = d.failed := rfl
@[simp] theorem Dev.updCore_switch : (d.updCore h f).switch = d.switch := rfl
@[simp] theorem Dev.updCore_switchDone : (d.updCore h f).switchDone = d.switchDone := rfl
@[simp] theorem Dev.updCore_saved : (d.updCore h f).saved = d.saved := rfl
@[simp] theorem Dev.updCore_agenda : (d.updCore h f).agenda = d.agenda := rfl
@[simp] theorem Dev.updCore_net : (d.updCore h f).net = d.net := rfl
@[simp] theorem Dev.updCore_cur : (d.updCore h f).cur = d.cur := rfl
@[simp] theorem Dev.updCore_count : (d.updCore h f).count = d.count := rfl
end

section
variable (d : Dev) (h n : Nat) (f : Slot → Slot)
@[simp] theorem Dev.updSlot_clock : (d.updSlot h n f).clock = d.clock := rfl
@[simp] theorem Dev.updSlot_stage : (d.updSlot h n f).stage = d.stage := rfl
@[simp] theorem Dev.updSlot_failure : (d.updSlot h n f).failure = d.failure := rfl
@[simp] theorem Dev.updSlot_up : (d.updSlot h n f).up = d.up := rfl
@[simp] theorem Dev.updSlot_courts : (d.updSlot h n f).courts = d.courts := rfl
@[simp] theorem Dev.updSlot_homes : (d.updSlot h n f).homes = d.homes := rfl
@[simp] theorem Dev.updSlot_groups : (d.updSlot h n f).groups = d.groups := rfl
@[simp] theorem Dev.updSlot_qsets : (d.updSlot h n f).qsets = d.qsets := rfl
@[simp] theorem Dev.updSlot_pins : (d.updSlot h n f).pins = d.pins := rfl
@[simp] theorem Dev.updSlot_stalled : (d.updSlot h n f).stalled = d.stalled := rfl
@[simp] theorem Dev.updSlot_linePoison : (d.updSlot h n f).linePoison = d.linePoison := rfl
@[simp] theorem Dev.updSlot_hostLines : (d.updSlot h n f).hostLines = d.hostLines := rfl
@[simp] theorem Dev.updSlot_buckets : (d.updSlot h n f).buckets = d.buckets := rfl
@[simp] theorem Dev.updSlot_merges : (d.updSlot h n f).merges = d.merges := rfl
@[simp] theorem Dev.updSlot_xl : (d.updSlot h n f).xl = d.xl := rfl
@[simp] theorem Dev.updSlot_walks : (d.updSlot h n f).walks = d.walks := rfl
@[simp] theorem Dev.updSlot_shoots : (d.updSlot h n f).shoots = d.shoots := rfl
@[simp] theorem Dev.updSlot_troot : (d.updSlot h n f).troot = d.troot := rfl
@[simp] theorem Dev.updSlot_depots : (d.updSlot h n f).depots = d.depots := rfl
@[simp] theorem Dev.updSlot_launches : (d.updSlot h n f).launches = d.launches := rfl
@[simp] theorem Dev.updSlot_tasks : (d.updSlot h n f).tasks = d.tasks := rfl
@[simp] theorem Dev.updSlot_terr : (d.updSlot h n f).terr = d.terr := rfl
@[simp] theorem Dev.updSlot_ranks : (d.updSlot h n f).ranks = d.ranks := rfl
@[simp] theorem Dev.updSlot_ctlDrops : (d.updSlot h n f).ctlDrops = d.ctlDrops := rfl
@[simp] theorem Dev.updSlot_funcs : (d.updSlot h n f).funcs = d.funcs := rfl
@[simp] theorem Dev.updSlot_profHolder : (d.updSlot h n f).profHolder = d.profHolder := rfl
@[simp] theorem Dev.updSlot_profQueue : (d.updSlot h n f).profQueue = d.profQueue := rfl
@[simp] theorem Dev.updSlot_shared : (d.updSlot h n f).shared = d.shared := rfl
@[simp] theorem Dev.updSlot_ports : (d.updSlot h n f).ports = d.ports := rfl
@[simp] theorem Dev.updSlot_bridges : (d.updSlot h n f).bridges = d.bridges := rfl
@[simp] theorem Dev.updSlot_mr : (d.updSlot h n f).mr = d.mr := rfl
@[simp] theorem Dev.updSlot_fwVersion : (d.updSlot h n f).fwVersion = d.fwVersion := rfl
@[simp] theorem Dev.updSlot_keys : (d.updSlot h n f).keys = d.keys := rfl
@[simp] theorem Dev.updSlot_doe : (d.updSlot h n f).doe = d.doe := rfl
@[simp] theorem Dev.updSlot_hostRead : (d.updSlot h n f).hostRead = d.hostRead := rfl
@[simp] theorem Dev.updSlot_errCount : (d.updSlot h n f).errCount = d.errCount := rfl
@[simp] theorem Dev.updSlot_errLog : (d.updSlot h n f).errLog = d.errLog := rfl
@[simp] theorem Dev.updSlot_skip : (d.updSlot h n f).skip = d.skip := rfl
@[simp] theorem Dev.updSlot_failed : (d.updSlot h n f).failed = d.failed := rfl
@[simp] theorem Dev.updSlot_switch : (d.updSlot h n f).switch = d.switch := rfl
@[simp] theorem Dev.updSlot_switchDone : (d.updSlot h n f).switchDone = d.switchDone := rfl
@[simp] theorem Dev.updSlot_saved : (d.updSlot h n f).saved = d.saved := rfl
@[simp] theorem Dev.updSlot_agenda : (d.updSlot h n f).agenda = d.agenda := rfl
@[simp] theorem Dev.updSlot_net : (d.updSlot h n f).net = d.net := rfl
@[simp] theorem Dev.updSlot_cur : (d.updSlot h n f).cur = d.cur := rfl
@[simp] theorem Dev.updSlot_count : (d.updSlot h n f).count = d.count := rfl
end

section
variable (d : Dev) (h n : Nat) (s : Slot)
@[simp] theorem Dev.setSlot_clock : (d.setSlot h n s).clock = d.clock := rfl
@[simp] theorem Dev.setSlot_stage : (d.setSlot h n s).stage = d.stage := rfl
@[simp] theorem Dev.setSlot_failure : (d.setSlot h n s).failure = d.failure := rfl
@[simp] theorem Dev.setSlot_up : (d.setSlot h n s).up = d.up := rfl
@[simp] theorem Dev.setSlot_courts : (d.setSlot h n s).courts = d.courts := rfl
@[simp] theorem Dev.setSlot_homes : (d.setSlot h n s).homes = d.homes := rfl
@[simp] theorem Dev.setSlot_groups : (d.setSlot h n s).groups = d.groups := rfl
@[simp] theorem Dev.setSlot_qsets : (d.setSlot h n s).qsets = d.qsets := rfl
@[simp] theorem Dev.setSlot_pins : (d.setSlot h n s).pins = d.pins := rfl
@[simp] theorem Dev.setSlot_stalled : (d.setSlot h n s).stalled = d.stalled := rfl
@[simp] theorem Dev.setSlot_linePoison : (d.setSlot h n s).linePoison = d.linePoison := rfl
@[simp] theorem Dev.setSlot_hostLines : (d.setSlot h n s).hostLines = d.hostLines := rfl
@[simp] theorem Dev.setSlot_buckets : (d.setSlot h n s).buckets = d.buckets := rfl
@[simp] theorem Dev.setSlot_merges : (d.setSlot h n s).merges = d.merges := rfl
@[simp] theorem Dev.setSlot_xl : (d.setSlot h n s).xl = d.xl := rfl
@[simp] theorem Dev.setSlot_walks : (d.setSlot h n s).walks = d.walks := rfl
@[simp] theorem Dev.setSlot_shoots : (d.setSlot h n s).shoots = d.shoots := rfl
@[simp] theorem Dev.setSlot_troot : (d.setSlot h n s).troot = d.troot := rfl
@[simp] theorem Dev.setSlot_depots : (d.setSlot h n s).depots = d.depots := rfl
@[simp] theorem Dev.setSlot_launches : (d.setSlot h n s).launches = d.launches := rfl
@[simp] theorem Dev.setSlot_tasks : (d.setSlot h n s).tasks = d.tasks := rfl
@[simp] theorem Dev.setSlot_terr : (d.setSlot h n s).terr = d.terr := rfl
@[simp] theorem Dev.setSlot_ranks : (d.setSlot h n s).ranks = d.ranks := rfl
@[simp] theorem Dev.setSlot_ctlDrops : (d.setSlot h n s).ctlDrops = d.ctlDrops := rfl
@[simp] theorem Dev.setSlot_funcs : (d.setSlot h n s).funcs = d.funcs := rfl
@[simp] theorem Dev.setSlot_profHolder : (d.setSlot h n s).profHolder = d.profHolder := rfl
@[simp] theorem Dev.setSlot_profQueue : (d.setSlot h n s).profQueue = d.profQueue := rfl
@[simp] theorem Dev.setSlot_shared : (d.setSlot h n s).shared = d.shared := rfl
@[simp] theorem Dev.setSlot_ports : (d.setSlot h n s).ports = d.ports := rfl
@[simp] theorem Dev.setSlot_bridges : (d.setSlot h n s).bridges = d.bridges := rfl
@[simp] theorem Dev.setSlot_mr : (d.setSlot h n s).mr = d.mr := rfl
@[simp] theorem Dev.setSlot_fwVersion : (d.setSlot h n s).fwVersion = d.fwVersion := rfl
@[simp] theorem Dev.setSlot_keys : (d.setSlot h n s).keys = d.keys := rfl
@[simp] theorem Dev.setSlot_doe : (d.setSlot h n s).doe = d.doe := rfl
@[simp] theorem Dev.setSlot_hostRead : (d.setSlot h n s).hostRead = d.hostRead := rfl
@[simp] theorem Dev.setSlot_errCount : (d.setSlot h n s).errCount = d.errCount := rfl
@[simp] theorem Dev.setSlot_errLog : (d.setSlot h n s).errLog = d.errLog := rfl
@[simp] theorem Dev.setSlot_skip : (d.setSlot h n s).skip = d.skip := rfl
@[simp] theorem Dev.setSlot_failed : (d.setSlot h n s).failed = d.failed := rfl
@[simp] theorem Dev.setSlot_switch : (d.setSlot h n s).switch = d.switch := rfl
@[simp] theorem Dev.setSlot_switchDone : (d.setSlot h n s).switchDone = d.switchDone := rfl
@[simp] theorem Dev.setSlot_saved : (d.setSlot h n s).saved = d.saved := rfl
@[simp] theorem Dev.setSlot_agenda : (d.setSlot h n s).agenda = d.agenda := rfl
@[simp] theorem Dev.setSlot_net : (d.setSlot h n s).net = d.net := rfl
@[simp] theorem Dev.setSlot_cur : (d.setSlot h n s).cur = d.cur := rfl
@[simp] theorem Dev.setSlot_count : (d.setSlot h n s).count = d.count := rfl
end

section
variable (d : Dev) (h n : Nat)
@[simp] theorem Dev.ready_clock : (d.ready h n).clock = d.clock := rfl
@[simp] theorem Dev.ready_stage : (d.ready h n).stage = d.stage := rfl
@[simp] theorem Dev.ready_failure : (d.ready h n).failure = d.failure := rfl
@[simp] theorem Dev.ready_up : (d.ready h n).up = d.up := rfl
@[simp] theorem Dev.ready_courts : (d.ready h n).courts = d.courts := rfl
@[simp] theorem Dev.ready_homes : (d.ready h n).homes = d.homes := rfl
@[simp] theorem Dev.ready_groups : (d.ready h n).groups = d.groups := rfl
@[simp] theorem Dev.ready_qsets : (d.ready h n).qsets = d.qsets := rfl
@[simp] theorem Dev.ready_pins : (d.ready h n).pins = d.pins := rfl
@[simp] theorem Dev.ready_stalled : (d.ready h n).stalled = d.stalled := rfl
@[simp] theorem Dev.ready_linePoison : (d.ready h n).linePoison = d.linePoison := rfl
@[simp] theorem Dev.ready_hostLines : (d.ready h n).hostLines = d.hostLines := rfl
@[simp] theorem Dev.ready_buckets : (d.ready h n).buckets = d.buckets := rfl
@[simp] theorem Dev.ready_merges : (d.ready h n).merges = d.merges := rfl
@[simp] theorem Dev.ready_xl : (d.ready h n).xl = d.xl := rfl
@[simp] theorem Dev.ready_walks : (d.ready h n).walks = d.walks := rfl
@[simp] theorem Dev.ready_shoots : (d.ready h n).shoots = d.shoots := rfl
@[simp] theorem Dev.ready_troot : (d.ready h n).troot = d.troot := rfl
@[simp] theorem Dev.ready_depots : (d.ready h n).depots = d.depots := rfl
@[simp] theorem Dev.ready_launches : (d.ready h n).launches = d.launches := rfl
@[simp] theorem Dev.ready_tasks : (d.ready h n).tasks = d.tasks := rfl
@[simp] theorem Dev.ready_terr : (d.ready h n).terr = d.terr := rfl
@[simp] theorem Dev.ready_ranks : (d.ready h n).ranks = d.ranks := rfl
@[simp] theorem Dev.ready_ctlDrops : (d.ready h n).ctlDrops = d.ctlDrops := rfl
@[simp] theorem Dev.ready_funcs : (d.ready h n).funcs = d.funcs := rfl
@[simp] theorem Dev.ready_profHolder : (d.ready h n).profHolder = d.profHolder := rfl
@[simp] theorem Dev.ready_profQueue : (d.ready h n).profQueue = d.profQueue := rfl
@[simp] theorem Dev.ready_shared : (d.ready h n).shared = d.shared := rfl
@[simp] theorem Dev.ready_ports : (d.ready h n).ports = d.ports := rfl
@[simp] theorem Dev.ready_bridges : (d.ready h n).bridges = d.bridges := rfl
@[simp] theorem Dev.ready_mr : (d.ready h n).mr = d.mr := rfl
@[simp] theorem Dev.ready_fwVersion : (d.ready h n).fwVersion = d.fwVersion := rfl
@[simp] theorem Dev.ready_keys : (d.ready h n).keys = d.keys := rfl
@[simp] theorem Dev.ready_doe : (d.ready h n).doe = d.doe := rfl
@[simp] theorem Dev.ready_hostRead : (d.ready h n).hostRead = d.hostRead := rfl
@[simp] theorem Dev.ready_errCount : (d.ready h n).errCount = d.errCount := rfl
@[simp] theorem Dev.ready_errLog : (d.ready h n).errLog = d.errLog := rfl
@[simp] theorem Dev.ready_skip : (d.ready h n).skip = d.skip := rfl
@[simp] theorem Dev.ready_failed : (d.ready h n).failed = d.failed := rfl
@[simp] theorem Dev.ready_switch : (d.ready h n).switch = d.switch := rfl
@[simp] theorem Dev.ready_switchDone : (d.ready h n).switchDone = d.switchDone := rfl
@[simp] theorem Dev.ready_saved : (d.ready h n).saved = d.saved := rfl
@[simp] theorem Dev.ready_agenda : (d.ready h n).agenda = d.agenda := rfl
@[simp] theorem Dev.ready_net : (d.ready h n).net = d.net := rfl
@[simp] theorem Dev.ready_cur : (d.ready h n).cur = d.cur := rfl
@[simp] theorem Dev.ready_count : (d.ready h n).count = d.count := rfl
end

section
variable (d : Dev) (h : Nat) (p : Nat → Slot → WaitFor → Bool)
@[simp] theorem Dev.wake_clock : (d.wake h p).clock = d.clock := rfl
@[simp] theorem Dev.wake_stage : (d.wake h p).stage = d.stage := rfl
@[simp] theorem Dev.wake_failure : (d.wake h p).failure = d.failure := rfl
@[simp] theorem Dev.wake_up : (d.wake h p).up = d.up := rfl
@[simp] theorem Dev.wake_courts : (d.wake h p).courts = d.courts := rfl
@[simp] theorem Dev.wake_homes : (d.wake h p).homes = d.homes := rfl
@[simp] theorem Dev.wake_groups : (d.wake h p).groups = d.groups := rfl
@[simp] theorem Dev.wake_qsets : (d.wake h p).qsets = d.qsets := rfl
@[simp] theorem Dev.wake_pins : (d.wake h p).pins = d.pins := rfl
@[simp] theorem Dev.wake_stalled : (d.wake h p).stalled = d.stalled := rfl
@[simp] theorem Dev.wake_linePoison : (d.wake h p).linePoison = d.linePoison := rfl
@[simp] theorem Dev.wake_hostLines : (d.wake h p).hostLines = d.hostLines := rfl
@[simp] theorem Dev.wake_buckets : (d.wake h p).buckets = d.buckets := rfl
@[simp] theorem Dev.wake_merges : (d.wake h p).merges = d.merges := rfl
@[simp] theorem Dev.wake_xl : (d.wake h p).xl = d.xl := rfl
@[simp] theorem Dev.wake_walks : (d.wake h p).walks = d.walks := rfl
@[simp] theorem Dev.wake_shoots : (d.wake h p).shoots = d.shoots := rfl
@[simp] theorem Dev.wake_troot : (d.wake h p).troot = d.troot := rfl
@[simp] theorem Dev.wake_depots : (d.wake h p).depots = d.depots := rfl
@[simp] theorem Dev.wake_launches : (d.wake h p).launches = d.launches := rfl
@[simp] theorem Dev.wake_tasks : (d.wake h p).tasks = d.tasks := rfl
@[simp] theorem Dev.wake_terr : (d.wake h p).terr = d.terr := rfl
@[simp] theorem Dev.wake_ranks : (d.wake h p).ranks = d.ranks := rfl
@[simp] theorem Dev.wake_ctlDrops : (d.wake h p).ctlDrops = d.ctlDrops := rfl
@[simp] theorem Dev.wake_funcs : (d.wake h p).funcs = d.funcs := rfl
@[simp] theorem Dev.wake_profHolder : (d.wake h p).profHolder = d.profHolder := rfl
@[simp] theorem Dev.wake_profQueue : (d.wake h p).profQueue = d.profQueue := rfl
@[simp] theorem Dev.wake_shared : (d.wake h p).shared = d.shared := rfl
@[simp] theorem Dev.wake_ports : (d.wake h p).ports = d.ports := rfl
@[simp] theorem Dev.wake_bridges : (d.wake h p).bridges = d.bridges := rfl
@[simp] theorem Dev.wake_mr : (d.wake h p).mr = d.mr := rfl
@[simp] theorem Dev.wake_fwVersion : (d.wake h p).fwVersion = d.fwVersion := rfl
@[simp] theorem Dev.wake_keys : (d.wake h p).keys = d.keys := rfl
@[simp] theorem Dev.wake_doe : (d.wake h p).doe = d.doe := rfl
@[simp] theorem Dev.wake_hostRead : (d.wake h p).hostRead = d.hostRead := rfl
@[simp] theorem Dev.wake_errCount : (d.wake h p).errCount = d.errCount := rfl
@[simp] theorem Dev.wake_errLog : (d.wake h p).errLog = d.errLog := rfl
@[simp] theorem Dev.wake_skip : (d.wake h p).skip = d.skip := rfl
@[simp] theorem Dev.wake_failed : (d.wake h p).failed = d.failed := rfl
@[simp] theorem Dev.wake_switch : (d.wake h p).switch = d.switch := rfl
@[simp] theorem Dev.wake_switchDone : (d.wake h p).switchDone = d.switchDone := rfl
@[simp] theorem Dev.wake_saved : (d.wake h p).saved = d.saved := rfl
@[simp] theorem Dev.wake_agenda : (d.wake h p).agenda = d.agenda := rfl
@[simp] theorem Dev.wake_net : (d.wake h p).net = d.net := rfl
@[simp] theorem Dev.wake_cur : (d.wake h p).cur = d.cur := rfl
@[simp] theorem Dev.wake_count : (d.wake h p).count = d.count := rfl
end

section
variable (d : Dev) (c : Nat) (f : Court → Court)
@[simp] theorem Dev.updCourt_clock : (d.updCourt c f).clock = d.clock := rfl
@[simp] theorem Dev.updCourt_stage : (d.updCourt c f).stage = d.stage := rfl
@[simp] theorem Dev.updCourt_failure : (d.updCourt c f).failure = d.failure := rfl
@[simp] theorem Dev.updCourt_up : (d.updCourt c f).up = d.up := rfl
@[simp] theorem Dev.updCourt_cores : (d.updCourt c f).cores = d.cores := rfl
@[simp] theorem Dev.updCourt_homes : (d.updCourt c f).homes = d.homes := rfl
@[simp] theorem Dev.updCourt_groups : (d.updCourt c f).groups = d.groups := rfl
@[simp] theorem Dev.updCourt_qsets : (d.updCourt c f).qsets = d.qsets := rfl
@[simp] theorem Dev.updCourt_pins : (d.updCourt c f).pins = d.pins := rfl
@[simp] theorem Dev.updCourt_stalled : (d.updCourt c f).stalled = d.stalled := rfl
@[simp] theorem Dev.updCourt_linePoison : (d.updCourt c f).linePoison = d.linePoison := rfl
@[simp] theorem Dev.updCourt_hostLines : (d.updCourt c f).hostLines = d.hostLines := rfl
@[simp] theorem Dev.updCourt_buckets : (d.updCourt c f).buckets = d.buckets := rfl
@[simp] theorem Dev.updCourt_merges : (d.updCourt c f).merges = d.merges := rfl
@[simp] theorem Dev.updCourt_xl : (d.updCourt c f).xl = d.xl := rfl
@[simp] theorem Dev.updCourt_walks : (d.updCourt c f).walks = d.walks := rfl
@[simp] theorem Dev.updCourt_shoots : (d.updCourt c f).shoots = d.shoots := rfl
@[simp] theorem Dev.updCourt_troot : (d.updCourt c f).troot = d.troot := rfl
@[simp] theorem Dev.updCourt_depots : (d.updCourt c f).depots = d.depots := rfl
@[simp] theorem Dev.updCourt_launches : (d.updCourt c f).launches = d.launches := rfl
@[simp] theorem Dev.updCourt_tasks : (d.updCourt c f).tasks = d.tasks := rfl
@[simp] theorem Dev.updCourt_terr : (d.updCourt c f).terr = d.terr := rfl
@[simp] theorem Dev.updCourt_ranks : (d.updCourt c f).ranks = d.ranks := rfl
@[simp] theorem Dev.updCourt_ctlDrops : (d.updCourt c f).ctlDrops = d.ctlDrops := rfl
@[simp] theorem Dev.updCourt_funcs : (d.updCourt c f).funcs = d.funcs := rfl
@[simp] theorem Dev.updCourt_profHolder : (d.updCourt c f).profHolder = d.profHolder := rfl
@[simp] theorem Dev.updCourt_profQueue : (d.updCourt c f).profQueue = d.profQueue := rfl
@[simp] theorem Dev.updCourt_shared : (d.updCourt c f).shared = d.shared := rfl
@[simp] theorem Dev.updCourt_ports : (d.updCourt c f).ports = d.ports := rfl
@[simp] theorem Dev.updCourt_bridges : (d.updCourt c f).bridges = d.bridges := rfl
@[simp] theorem Dev.updCourt_mr : (d.updCourt c f).mr = d.mr := rfl
@[simp] theorem Dev.updCourt_fwVersion : (d.updCourt c f).fwVersion = d.fwVersion := rfl
@[simp] theorem Dev.updCourt_keys : (d.updCourt c f).keys = d.keys := rfl
@[simp] theorem Dev.updCourt_doe : (d.updCourt c f).doe = d.doe := rfl
@[simp] theorem Dev.updCourt_hostRead : (d.updCourt c f).hostRead = d.hostRead := rfl
@[simp] theorem Dev.updCourt_errCount : (d.updCourt c f).errCount = d.errCount := rfl
@[simp] theorem Dev.updCourt_errLog : (d.updCourt c f).errLog = d.errLog := rfl
@[simp] theorem Dev.updCourt_skip : (d.updCourt c f).skip = d.skip := rfl
@[simp] theorem Dev.updCourt_failed : (d.updCourt c f).failed = d.failed := rfl
@[simp] theorem Dev.updCourt_switch : (d.updCourt c f).switch = d.switch := rfl
@[simp] theorem Dev.updCourt_switchDone : (d.updCourt c f).switchDone = d.switchDone := rfl
@[simp] theorem Dev.updCourt_saved : (d.updCourt c f).saved = d.saved := rfl
@[simp] theorem Dev.updCourt_agenda : (d.updCourt c f).agenda = d.agenda := rfl
@[simp] theorem Dev.updCourt_net : (d.updCourt c f).net = d.net := rfl
@[simp] theorem Dev.updCourt_cur : (d.updCourt c f).cur = d.cur := rfl
@[simp] theorem Dev.updCourt_count : (d.updCourt c f).count = d.count := rfl
end

section
variable (d : Dev) (q : Nat) (f : Home → Home)
@[simp] theorem Dev.updHome_clock : (d.updHome q f).clock = d.clock := rfl
@[simp] theorem Dev.updHome_stage : (d.updHome q f).stage = d.stage := rfl
@[simp] theorem Dev.updHome_failure : (d.updHome q f).failure = d.failure := rfl
@[simp] theorem Dev.updHome_up : (d.updHome q f).up = d.up := rfl
@[simp] theorem Dev.updHome_cores : (d.updHome q f).cores = d.cores := rfl
@[simp] theorem Dev.updHome_courts : (d.updHome q f).courts = d.courts := rfl
@[simp] theorem Dev.updHome_groups : (d.updHome q f).groups = d.groups := rfl
@[simp] theorem Dev.updHome_qsets : (d.updHome q f).qsets = d.qsets := rfl
@[simp] theorem Dev.updHome_pins : (d.updHome q f).pins = d.pins := rfl
@[simp] theorem Dev.updHome_stalled : (d.updHome q f).stalled = d.stalled := rfl
@[simp] theorem Dev.updHome_linePoison : (d.updHome q f).linePoison = d.linePoison := rfl
@[simp] theorem Dev.updHome_hostLines : (d.updHome q f).hostLines = d.hostLines := rfl
@[simp] theorem Dev.updHome_buckets : (d.updHome q f).buckets = d.buckets := rfl
@[simp] theorem Dev.updHome_merges : (d.updHome q f).merges = d.merges := rfl
@[simp] theorem Dev.updHome_xl : (d.updHome q f).xl = d.xl := rfl
@[simp] theorem Dev.updHome_walks : (d.updHome q f).walks = d.walks := rfl
@[simp] theorem Dev.updHome_shoots : (d.updHome q f).shoots = d.shoots := rfl
@[simp] theorem Dev.updHome_troot : (d.updHome q f).troot = d.troot := rfl
@[simp] theorem Dev.updHome_depots : (d.updHome q f).depots = d.depots := rfl
@[simp] theorem Dev.updHome_launches : (d.updHome q f).launches = d.launches := rfl
@[simp] theorem Dev.updHome_tasks : (d.updHome q f).tasks = d.tasks := rfl
@[simp] theorem Dev.updHome_terr : (d.updHome q f).terr = d.terr := rfl
@[simp] theorem Dev.updHome_ranks : (d.updHome q f).ranks = d.ranks := rfl
@[simp] theorem Dev.updHome_ctlDrops : (d.updHome q f).ctlDrops = d.ctlDrops := rfl
@[simp] theorem Dev.updHome_funcs : (d.updHome q f).funcs = d.funcs := rfl
@[simp] theorem Dev.updHome_profHolder : (d.updHome q f).profHolder = d.profHolder := rfl
@[simp] theorem Dev.updHome_profQueue : (d.updHome q f).profQueue = d.profQueue := rfl
@[simp] theorem Dev.updHome_shared : (d.updHome q f).shared = d.shared := rfl
@[simp] theorem Dev.updHome_ports : (d.updHome q f).ports = d.ports := rfl
@[simp] theorem Dev.updHome_bridges : (d.updHome q f).bridges = d.bridges := rfl
@[simp] theorem Dev.updHome_mr : (d.updHome q f).mr = d.mr := rfl
@[simp] theorem Dev.updHome_fwVersion : (d.updHome q f).fwVersion = d.fwVersion := rfl
@[simp] theorem Dev.updHome_keys : (d.updHome q f).keys = d.keys := rfl
@[simp] theorem Dev.updHome_doe : (d.updHome q f).doe = d.doe := rfl
@[simp] theorem Dev.updHome_hostRead : (d.updHome q f).hostRead = d.hostRead := rfl
@[simp] theorem Dev.updHome_errCount : (d.updHome q f).errCount = d.errCount := rfl
@[simp] theorem Dev.updHome_errLog : (d.updHome q f).errLog = d.errLog := rfl
@[simp] theorem Dev.updHome_skip : (d.updHome q f).skip = d.skip := rfl
@[simp] theorem Dev.updHome_failed : (d.updHome q f).failed = d.failed := rfl
@[simp] theorem Dev.updHome_switch : (d.updHome q f).switch = d.switch := rfl
@[simp] theorem Dev.updHome_switchDone : (d.updHome q f).switchDone = d.switchDone := rfl
@[simp] theorem Dev.updHome_saved : (d.updHome q f).saved = d.saved := rfl
@[simp] theorem Dev.updHome_agenda : (d.updHome q f).agenda = d.agenda := rfl
@[simp] theorem Dev.updHome_net : (d.updHome q f).net = d.net := rfl
@[simp] theorem Dev.updHome_cur : (d.updHome q f).cur = d.cur := rfl
@[simp] theorem Dev.updHome_count : (d.updHome q f).count = d.count := rfl
end

section
variable (d : Dev) (t : Nat) (f : Terrace → Terrace)
@[simp] theorem Dev.updTerr_clock : (d.updTerr t f).clock = d.clock := rfl
@[simp] theorem Dev.updTerr_stage : (d.updTerr t f).stage = d.stage := rfl
@[simp] theorem Dev.updTerr_failure : (d.updTerr t f).failure = d.failure := rfl
@[simp] theorem Dev.updTerr_up : (d.updTerr t f).up = d.up := rfl
@[simp] theorem Dev.updTerr_cores : (d.updTerr t f).cores = d.cores := rfl
@[simp] theorem Dev.updTerr_courts : (d.updTerr t f).courts = d.courts := rfl
@[simp] theorem Dev.updTerr_homes : (d.updTerr t f).homes = d.homes := rfl
@[simp] theorem Dev.updTerr_groups : (d.updTerr t f).groups = d.groups := rfl
@[simp] theorem Dev.updTerr_qsets : (d.updTerr t f).qsets = d.qsets := rfl
@[simp] theorem Dev.updTerr_pins : (d.updTerr t f).pins = d.pins := rfl
@[simp] theorem Dev.updTerr_stalled : (d.updTerr t f).stalled = d.stalled := rfl
@[simp] theorem Dev.updTerr_linePoison : (d.updTerr t f).linePoison = d.linePoison := rfl
@[simp] theorem Dev.updTerr_hostLines : (d.updTerr t f).hostLines = d.hostLines := rfl
@[simp] theorem Dev.updTerr_buckets : (d.updTerr t f).buckets = d.buckets := rfl
@[simp] theorem Dev.updTerr_merges : (d.updTerr t f).merges = d.merges := rfl
@[simp] theorem Dev.updTerr_xl : (d.updTerr t f).xl = d.xl := rfl
@[simp] theorem Dev.updTerr_walks : (d.updTerr t f).walks = d.walks := rfl
@[simp] theorem Dev.updTerr_shoots : (d.updTerr t f).shoots = d.shoots := rfl
@[simp] theorem Dev.updTerr_troot : (d.updTerr t f).troot = d.troot := rfl
@[simp] theorem Dev.updTerr_depots : (d.updTerr t f).depots = d.depots := rfl
@[simp] theorem Dev.updTerr_launches : (d.updTerr t f).launches = d.launches := rfl
@[simp] theorem Dev.updTerr_tasks : (d.updTerr t f).tasks = d.tasks := rfl
@[simp] theorem Dev.updTerr_ranks : (d.updTerr t f).ranks = d.ranks := rfl
@[simp] theorem Dev.updTerr_ctlDrops : (d.updTerr t f).ctlDrops = d.ctlDrops := rfl
@[simp] theorem Dev.updTerr_funcs : (d.updTerr t f).funcs = d.funcs := rfl
@[simp] theorem Dev.updTerr_profHolder : (d.updTerr t f).profHolder = d.profHolder := rfl
@[simp] theorem Dev.updTerr_profQueue : (d.updTerr t f).profQueue = d.profQueue := rfl
@[simp] theorem Dev.updTerr_shared : (d.updTerr t f).shared = d.shared := rfl
@[simp] theorem Dev.updTerr_ports : (d.updTerr t f).ports = d.ports := rfl
@[simp] theorem Dev.updTerr_bridges : (d.updTerr t f).bridges = d.bridges := rfl
@[simp] theorem Dev.updTerr_mr : (d.updTerr t f).mr = d.mr := rfl
@[simp] theorem Dev.updTerr_fwVersion : (d.updTerr t f).fwVersion = d.fwVersion := rfl
@[simp] theorem Dev.updTerr_keys : (d.updTerr t f).keys = d.keys := rfl
@[simp] theorem Dev.updTerr_doe : (d.updTerr t f).doe = d.doe := rfl
@[simp] theorem Dev.updTerr_hostRead : (d.updTerr t f).hostRead = d.hostRead := rfl
@[simp] theorem Dev.updTerr_errCount : (d.updTerr t f).errCount = d.errCount := rfl
@[simp] theorem Dev.updTerr_errLog : (d.updTerr t f).errLog = d.errLog := rfl
@[simp] theorem Dev.updTerr_skip : (d.updTerr t f).skip = d.skip := rfl
@[simp] theorem Dev.updTerr_failed : (d.updTerr t f).failed = d.failed := rfl
@[simp] theorem Dev.updTerr_switch : (d.updTerr t f).switch = d.switch := rfl
@[simp] theorem Dev.updTerr_switchDone : (d.updTerr t f).switchDone = d.switchDone := rfl
@[simp] theorem Dev.updTerr_saved : (d.updTerr t f).saved = d.saved := rfl
@[simp] theorem Dev.updTerr_agenda : (d.updTerr t f).agenda = d.agenda := rfl
@[simp] theorem Dev.updTerr_net : (d.updTerr t f).net = d.net := rfl
@[simp] theorem Dev.updTerr_cur : (d.updTerr t f).cur = d.cur := rfl
@[simp] theorem Dev.updTerr_count : (d.updTerr t f).count = d.count := rfl
end

section
variable (d : Dev) (f : Nat) (g : Func → Func)
@[simp] theorem Dev.updFunc_clock : (d.updFunc f g).clock = d.clock := rfl
@[simp] theorem Dev.updFunc_stage : (d.updFunc f g).stage = d.stage := rfl
@[simp] theorem Dev.updFunc_failure : (d.updFunc f g).failure = d.failure := rfl
@[simp] theorem Dev.updFunc_up : (d.updFunc f g).up = d.up := rfl
@[simp] theorem Dev.updFunc_cores : (d.updFunc f g).cores = d.cores := rfl
@[simp] theorem Dev.updFunc_courts : (d.updFunc f g).courts = d.courts := rfl
@[simp] theorem Dev.updFunc_homes : (d.updFunc f g).homes = d.homes := rfl
@[simp] theorem Dev.updFunc_groups : (d.updFunc f g).groups = d.groups := rfl
@[simp] theorem Dev.updFunc_qsets : (d.updFunc f g).qsets = d.qsets := rfl
@[simp] theorem Dev.updFunc_pins : (d.updFunc f g).pins = d.pins := rfl
@[simp] theorem Dev.updFunc_stalled : (d.updFunc f g).stalled = d.stalled := rfl
@[simp] theorem Dev.updFunc_linePoison : (d.updFunc f g).linePoison = d.linePoison := rfl
@[simp] theorem Dev.updFunc_hostLines : (d.updFunc f g).hostLines = d.hostLines := rfl
@[simp] theorem Dev.updFunc_buckets : (d.updFunc f g).buckets = d.buckets := rfl
@[simp] theorem Dev.updFunc_merges : (d.updFunc f g).merges = d.merges := rfl
@[simp] theorem Dev.updFunc_xl : (d.updFunc f g).xl = d.xl := rfl
@[simp] theorem Dev.updFunc_walks : (d.updFunc f g).walks = d.walks := rfl
@[simp] theorem Dev.updFunc_shoots : (d.updFunc f g).shoots = d.shoots := rfl
@[simp] theorem Dev.updFunc_troot : (d.updFunc f g).troot = d.troot := rfl
@[simp] theorem Dev.updFunc_depots : (d.updFunc f g).depots = d.depots := rfl
@[simp] theorem Dev.updFunc_launches : (d.updFunc f g).launches = d.launches := rfl
@[simp] theorem Dev.updFunc_tasks : (d.updFunc f g).tasks = d.tasks := rfl
@[simp] theorem Dev.updFunc_terr : (d.updFunc f g).terr = d.terr := rfl
@[simp] theorem Dev.updFunc_ranks : (d.updFunc f g).ranks = d.ranks := rfl
@[simp] theorem Dev.updFunc_ctlDrops : (d.updFunc f g).ctlDrops = d.ctlDrops := rfl
@[simp] theorem Dev.updFunc_profHolder : (d.updFunc f g).profHolder = d.profHolder := rfl
@[simp] theorem Dev.updFunc_profQueue : (d.updFunc f g).profQueue = d.profQueue := rfl
@[simp] theorem Dev.updFunc_shared : (d.updFunc f g).shared = d.shared := rfl
@[simp] theorem Dev.updFunc_ports : (d.updFunc f g).ports = d.ports := rfl
@[simp] theorem Dev.updFunc_bridges : (d.updFunc f g).bridges = d.bridges := rfl
@[simp] theorem Dev.updFunc_mr : (d.updFunc f g).mr = d.mr := rfl
@[simp] theorem Dev.updFunc_fwVersion : (d.updFunc f g).fwVersion = d.fwVersion := rfl
@[simp] theorem Dev.updFunc_keys : (d.updFunc f g).keys = d.keys := rfl
@[simp] theorem Dev.updFunc_doe : (d.updFunc f g).doe = d.doe := rfl
@[simp] theorem Dev.updFunc_hostRead : (d.updFunc f g).hostRead = d.hostRead := rfl
@[simp] theorem Dev.updFunc_errCount : (d.updFunc f g).errCount = d.errCount := rfl
@[simp] theorem Dev.updFunc_errLog : (d.updFunc f g).errLog = d.errLog := rfl
@[simp] theorem Dev.updFunc_skip : (d.updFunc f g).skip = d.skip := rfl
@[simp] theorem Dev.updFunc_failed : (d.updFunc f g).failed = d.failed := rfl
@[simp] theorem Dev.updFunc_switch : (d.updFunc f g).switch = d.switch := rfl
@[simp] theorem Dev.updFunc_switchDone : (d.updFunc f g).switchDone = d.switchDone := rfl
@[simp] theorem Dev.updFunc_saved : (d.updFunc f g).saved = d.saved := rfl
@[simp] theorem Dev.updFunc_agenda : (d.updFunc f g).agenda = d.agenda := rfl
@[simp] theorem Dev.updFunc_net : (d.updFunc f g).net = d.net := rfl
@[simp] theorem Dev.updFunc_cur : (d.updFunc f g).cur = d.cur := rfl
@[simp] theorem Dev.updFunc_count : (d.updFunc f g).count = d.count := rfl
end

section
variable (d : Dev) (dep pool : Nat) (f : Pool → Pool)
@[simp] theorem Dev.updPool_clock : (d.updPool dep pool f).clock = d.clock := rfl
@[simp] theorem Dev.updPool_stage : (d.updPool dep pool f).stage = d.stage := rfl
@[simp] theorem Dev.updPool_failure : (d.updPool dep pool f).failure = d.failure := rfl
@[simp] theorem Dev.updPool_up : (d.updPool dep pool f).up = d.up := rfl
@[simp] theorem Dev.updPool_cores : (d.updPool dep pool f).cores = d.cores := rfl
@[simp] theorem Dev.updPool_courts : (d.updPool dep pool f).courts = d.courts := rfl
@[simp] theorem Dev.updPool_homes : (d.updPool dep pool f).homes = d.homes := rfl
@[simp] theorem Dev.updPool_groups : (d.updPool dep pool f).groups = d.groups := rfl
@[simp] theorem Dev.updPool_qsets : (d.updPool dep pool f).qsets = d.qsets := rfl
@[simp] theorem Dev.updPool_pins : (d.updPool dep pool f).pins = d.pins := rfl
@[simp] theorem Dev.updPool_stalled : (d.updPool dep pool f).stalled = d.stalled := rfl
@[simp] theorem Dev.updPool_linePoison : (d.updPool dep pool f).linePoison = d.linePoison := rfl
@[simp] theorem Dev.updPool_hostLines : (d.updPool dep pool f).hostLines = d.hostLines := rfl
@[simp] theorem Dev.updPool_buckets : (d.updPool dep pool f).buckets = d.buckets := rfl
@[simp] theorem Dev.updPool_merges : (d.updPool dep pool f).merges = d.merges := rfl
@[simp] theorem Dev.updPool_xl : (d.updPool dep pool f).xl = d.xl := rfl
@[simp] theorem Dev.updPool_walks : (d.updPool dep pool f).walks = d.walks := rfl
@[simp] theorem Dev.updPool_shoots : (d.updPool dep pool f).shoots = d.shoots := rfl
@[simp] theorem Dev.updPool_troot : (d.updPool dep pool f).troot = d.troot := rfl
@[simp] theorem Dev.updPool_launches : (d.updPool dep pool f).launches = d.launches := rfl
@[simp] theorem Dev.updPool_tasks : (d.updPool dep pool f).tasks = d.tasks := rfl
@[simp] theorem Dev.updPool_terr : (d.updPool dep pool f).terr = d.terr := rfl
@[simp] theorem Dev.updPool_ranks : (d.updPool dep pool f).ranks = d.ranks := rfl
@[simp] theorem Dev.updPool_ctlDrops : (d.updPool dep pool f).ctlDrops = d.ctlDrops := rfl
@[simp] theorem Dev.updPool_funcs : (d.updPool dep pool f).funcs = d.funcs := rfl
@[simp] theorem Dev.updPool_profHolder : (d.updPool dep pool f).profHolder = d.profHolder := rfl
@[simp] theorem Dev.updPool_profQueue : (d.updPool dep pool f).profQueue = d.profQueue := rfl
@[simp] theorem Dev.updPool_shared : (d.updPool dep pool f).shared = d.shared := rfl
@[simp] theorem Dev.updPool_ports : (d.updPool dep pool f).ports = d.ports := rfl
@[simp] theorem Dev.updPool_bridges : (d.updPool dep pool f).bridges = d.bridges := rfl
@[simp] theorem Dev.updPool_mr : (d.updPool dep pool f).mr = d.mr := rfl
@[simp] theorem Dev.updPool_fwVersion : (d.updPool dep pool f).fwVersion = d.fwVersion := rfl
@[simp] theorem Dev.updPool_keys : (d.updPool dep pool f).keys = d.keys := rfl
@[simp] theorem Dev.updPool_doe : (d.updPool dep pool f).doe = d.doe := rfl
@[simp] theorem Dev.updPool_hostRead : (d.updPool dep pool f).hostRead = d.hostRead := rfl
@[simp] theorem Dev.updPool_errCount : (d.updPool dep pool f).errCount = d.errCount := rfl
@[simp] theorem Dev.updPool_errLog : (d.updPool dep pool f).errLog = d.errLog := rfl
@[simp] theorem Dev.updPool_skip : (d.updPool dep pool f).skip = d.skip := rfl
@[simp] theorem Dev.updPool_failed : (d.updPool dep pool f).failed = d.failed := rfl
@[simp] theorem Dev.updPool_switch : (d.updPool dep pool f).switch = d.switch := rfl
@[simp] theorem Dev.updPool_switchDone : (d.updPool dep pool f).switchDone = d.switchDone := rfl
@[simp] theorem Dev.updPool_saved : (d.updPool dep pool f).saved = d.saved := rfl
@[simp] theorem Dev.updPool_agenda : (d.updPool dep pool f).agenda = d.agenda := rfl
@[simp] theorem Dev.updPool_net : (d.updPool dep pool f).net = d.net := rfl
@[simp] theorem Dev.updPool_cur : (d.updPool dep pool f).cur = d.cur := rfl
@[simp] theorem Dev.updPool_count : (d.updPool dep pool f).count = d.count := rfl
end

section
variable (d : Dev) (p : Nat) (f : Port → Port)
@[simp] theorem Dev.updPort_clock : (d.updPort p f).clock = d.clock := rfl
@[simp] theorem Dev.updPort_stage : (d.updPort p f).stage = d.stage := rfl
@[simp] theorem Dev.updPort_failure : (d.updPort p f).failure = d.failure := rfl
@[simp] theorem Dev.updPort_up : (d.updPort p f).up = d.up := rfl
@[simp] theorem Dev.updPort_cores : (d.updPort p f).cores = d.cores := rfl
@[simp] theorem Dev.updPort_courts : (d.updPort p f).courts = d.courts := rfl
@[simp] theorem Dev.updPort_homes : (d.updPort p f).homes = d.homes := rfl
@[simp] theorem Dev.updPort_groups : (d.updPort p f).groups = d.groups := rfl
@[simp] theorem Dev.updPort_qsets : (d.updPort p f).qsets = d.qsets := rfl
@[simp] theorem Dev.updPort_pins : (d.updPort p f).pins = d.pins := rfl
@[simp] theorem Dev.updPort_stalled : (d.updPort p f).stalled = d.stalled := rfl
@[simp] theorem Dev.updPort_linePoison : (d.updPort p f).linePoison = d.linePoison := rfl
@[simp] theorem Dev.updPort_hostLines : (d.updPort p f).hostLines = d.hostLines := rfl
@[simp] theorem Dev.updPort_buckets : (d.updPort p f).buckets = d.buckets := rfl
@[simp] theorem Dev.updPort_merges : (d.updPort p f).merges = d.merges := rfl
@[simp] theorem Dev.updPort_xl : (d.updPort p f).xl = d.xl := rfl
@[simp] theorem Dev.updPort_walks : (d.updPort p f).walks = d.walks := rfl
@[simp] theorem Dev.updPort_shoots : (d.updPort p f).shoots = d.shoots := rfl
@[simp] theorem Dev.updPort_troot : (d.updPort p f).troot = d.troot := rfl
@[simp] theorem Dev.updPort_depots : (d.updPort p f).depots = d.depots := rfl
@[simp] theorem Dev.updPort_launches : (d.updPort p f).launches = d.launches := rfl
@[simp] theorem Dev.updPort_tasks : (d.updPort p f).tasks = d.tasks := rfl
@[simp] theorem Dev.updPort_terr : (d.updPort p f).terr = d.terr := rfl
@[simp] theorem Dev.updPort_ranks : (d.updPort p f).ranks = d.ranks := rfl
@[simp] theorem Dev.updPort_ctlDrops : (d.updPort p f).ctlDrops = d.ctlDrops := rfl
@[simp] theorem Dev.updPort_funcs : (d.updPort p f).funcs = d.funcs := rfl
@[simp] theorem Dev.updPort_profHolder : (d.updPort p f).profHolder = d.profHolder := rfl
@[simp] theorem Dev.updPort_profQueue : (d.updPort p f).profQueue = d.profQueue := rfl
@[simp] theorem Dev.updPort_shared : (d.updPort p f).shared = d.shared := rfl
@[simp] theorem Dev.updPort_bridges : (d.updPort p f).bridges = d.bridges := rfl
@[simp] theorem Dev.updPort_mr : (d.updPort p f).mr = d.mr := rfl
@[simp] theorem Dev.updPort_fwVersion : (d.updPort p f).fwVersion = d.fwVersion := rfl
@[simp] theorem Dev.updPort_keys : (d.updPort p f).keys = d.keys := rfl
@[simp] theorem Dev.updPort_doe : (d.updPort p f).doe = d.doe := rfl
@[simp] theorem Dev.updPort_hostRead : (d.updPort p f).hostRead = d.hostRead := rfl
@[simp] theorem Dev.updPort_errCount : (d.updPort p f).errCount = d.errCount := rfl
@[simp] theorem Dev.updPort_errLog : (d.updPort p f).errLog = d.errLog := rfl
@[simp] theorem Dev.updPort_skip : (d.updPort p f).skip = d.skip := rfl
@[simp] theorem Dev.updPort_failed : (d.updPort p f).failed = d.failed := rfl
@[simp] theorem Dev.updPort_switch : (d.updPort p f).switch = d.switch := rfl
@[simp] theorem Dev.updPort_switchDone : (d.updPort p f).switchDone = d.switchDone := rfl
@[simp] theorem Dev.updPort_saved : (d.updPort p f).saved = d.saved := rfl
@[simp] theorem Dev.updPort_agenda : (d.updPort p f).agenda = d.agenda := rfl
@[simp] theorem Dev.updPort_net : (d.updPort p f).net = d.net := rfl
@[simp] theorem Dev.updPort_cur : (d.updPort p f).cur = d.cur := rfl
@[simp] theorem Dev.updPort_count : (d.updPort p f).count = d.count := rfl
end

section
variable (d : Dev) (chan : Nat) (e : Ev)
@[simp] theorem Dev.send_clock : (d.send chan e).clock = d.clock := rfl
@[simp] theorem Dev.send_stage : (d.send chan e).stage = d.stage := rfl
@[simp] theorem Dev.send_failure : (d.send chan e).failure = d.failure := rfl
@[simp] theorem Dev.send_up : (d.send chan e).up = d.up := rfl
@[simp] theorem Dev.send_cores : (d.send chan e).cores = d.cores := rfl
@[simp] theorem Dev.send_courts : (d.send chan e).courts = d.courts := rfl
@[simp] theorem Dev.send_homes : (d.send chan e).homes = d.homes := rfl
@[simp] theorem Dev.send_groups : (d.send chan e).groups = d.groups := rfl
@[simp] theorem Dev.send_qsets : (d.send chan e).qsets = d.qsets := rfl
@[simp] theorem Dev.send_pins : (d.send chan e).pins = d.pins := rfl
@[simp] theorem Dev.send_stalled : (d.send chan e).stalled = d.stalled := rfl
@[simp] theorem Dev.send_linePoison : (d.send chan e).linePoison = d.linePoison := rfl
@[simp] theorem Dev.send_hostLines : (d.send chan e).hostLines = d.hostLines := rfl
@[simp] theorem Dev.send_buckets : (d.send chan e).buckets = d.buckets := rfl
@[simp] theorem Dev.send_merges : (d.send chan e).merges = d.merges := rfl
@[simp] theorem Dev.send_xl : (d.send chan e).xl = d.xl := rfl
@[simp] theorem Dev.send_walks : (d.send chan e).walks = d.walks := rfl
@[simp] theorem Dev.send_shoots : (d.send chan e).shoots = d.shoots := rfl
@[simp] theorem Dev.send_troot : (d.send chan e).troot = d.troot := rfl
@[simp] theorem Dev.send_depots : (d.send chan e).depots = d.depots := rfl
@[simp] theorem Dev.send_launches : (d.send chan e).launches = d.launches := rfl
@[simp] theorem Dev.send_tasks : (d.send chan e).tasks = d.tasks := rfl
@[simp] theorem Dev.send_terr : (d.send chan e).terr = d.terr := rfl
@[simp] theorem Dev.send_ranks : (d.send chan e).ranks = d.ranks := rfl
@[simp] theorem Dev.send_ctlDrops : (d.send chan e).ctlDrops = d.ctlDrops := rfl
@[simp] theorem Dev.send_funcs : (d.send chan e).funcs = d.funcs := rfl
@[simp] theorem Dev.send_profHolder : (d.send chan e).profHolder = d.profHolder := rfl
@[simp] theorem Dev.send_profQueue : (d.send chan e).profQueue = d.profQueue := rfl
@[simp] theorem Dev.send_shared : (d.send chan e).shared = d.shared := rfl
@[simp] theorem Dev.send_ports : (d.send chan e).ports = d.ports := rfl
@[simp] theorem Dev.send_bridges : (d.send chan e).bridges = d.bridges := rfl
@[simp] theorem Dev.send_mr : (d.send chan e).mr = d.mr := rfl
@[simp] theorem Dev.send_fwVersion : (d.send chan e).fwVersion = d.fwVersion := rfl
@[simp] theorem Dev.send_keys : (d.send chan e).keys = d.keys := rfl
@[simp] theorem Dev.send_doe : (d.send chan e).doe = d.doe := rfl
@[simp] theorem Dev.send_hostRead : (d.send chan e).hostRead = d.hostRead := rfl
@[simp] theorem Dev.send_errCount : (d.send chan e).errCount = d.errCount := rfl
@[simp] theorem Dev.send_errLog : (d.send chan e).errLog = d.errLog := rfl
@[simp] theorem Dev.send_skip : (d.send chan e).skip = d.skip := rfl
@[simp] theorem Dev.send_failed : (d.send chan e).failed = d.failed := rfl
@[simp] theorem Dev.send_switch : (d.send chan e).switch = d.switch := rfl
@[simp] theorem Dev.send_switchDone : (d.send chan e).switchDone = d.switchDone := rfl
@[simp] theorem Dev.send_saved : (d.send chan e).saved = d.saved := rfl
@[simp] theorem Dev.send_agenda : (d.send chan e).agenda = d.agenda := rfl
@[simp] theorem Dev.send_cur : (d.send chan e).cur = d.cur := rfl
end

section
variable (d : Dev) (es : List (Nat × Ev))
@[simp] theorem Dev.sendAll_clock : (d.sendAll es).clock = d.clock := rfl
@[simp] theorem Dev.sendAll_stage : (d.sendAll es).stage = d.stage := rfl
@[simp] theorem Dev.sendAll_failure : (d.sendAll es).failure = d.failure := rfl
@[simp] theorem Dev.sendAll_up : (d.sendAll es).up = d.up := rfl
@[simp] theorem Dev.sendAll_cores : (d.sendAll es).cores = d.cores := rfl
@[simp] theorem Dev.sendAll_courts : (d.sendAll es).courts = d.courts := rfl
@[simp] theorem Dev.sendAll_homes : (d.sendAll es).homes = d.homes := rfl
@[simp] theorem Dev.sendAll_groups : (d.sendAll es).groups = d.groups := rfl
@[simp] theorem Dev.sendAll_qsets : (d.sendAll es).qsets = d.qsets := rfl
@[simp] theorem Dev.sendAll_pins : (d.sendAll es).pins = d.pins := rfl
@[simp] theorem Dev.sendAll_stalled : (d.sendAll es).stalled = d.stalled := rfl
@[simp] theorem Dev.sendAll_linePoison : (d.sendAll es).linePoison = d.linePoison := rfl
@[simp] theorem Dev.sendAll_hostLines : (d.sendAll es).hostLines = d.hostLines := rfl
@[simp] theorem Dev.sendAll_buckets : (d.sendAll es).buckets = d.buckets := rfl
@[simp] theorem Dev.sendAll_merges : (d.sendAll es).merges = d.merges := rfl
@[simp] theorem Dev.sendAll_xl : (d.sendAll es).xl = d.xl := rfl
@[simp] theorem Dev.sendAll_walks : (d.sendAll es).walks = d.walks := rfl
@[simp] theorem Dev.sendAll_shoots : (d.sendAll es).shoots = d.shoots := rfl
@[simp] theorem Dev.sendAll_troot : (d.sendAll es).troot = d.troot := rfl
@[simp] theorem Dev.sendAll_depots : (d.sendAll es).depots = d.depots := rfl
@[simp] theorem Dev.sendAll_launches : (d.sendAll es).launches = d.launches := rfl
@[simp] theorem Dev.sendAll_tasks : (d.sendAll es).tasks = d.tasks := rfl
@[simp] theorem Dev.sendAll_terr : (d.sendAll es).terr = d.terr := rfl
@[simp] theorem Dev.sendAll_ranks : (d.sendAll es).ranks = d.ranks := rfl
@[simp] theorem Dev.sendAll_ctlDrops : (d.sendAll es).ctlDrops = d.ctlDrops := rfl
@[simp] theorem Dev.sendAll_funcs : (d.sendAll es).funcs = d.funcs := rfl
@[simp] theorem Dev.sendAll_profHolder : (d.sendAll es).profHolder = d.profHolder := rfl
@[simp] theorem Dev.sendAll_profQueue : (d.sendAll es).profQueue = d.profQueue := rfl
@[simp] theorem Dev.sendAll_shared : (d.sendAll es).shared = d.shared := rfl
@[simp] theorem Dev.sendAll_ports : (d.sendAll es).ports = d.ports := rfl
@[simp] theorem Dev.sendAll_bridges : (d.sendAll es).bridges = d.bridges := rfl
@[simp] theorem Dev.sendAll_mr : (d.sendAll es).mr = d.mr := rfl
@[simp] theorem Dev.sendAll_fwVersion : (d.sendAll es).fwVersion = d.fwVersion := rfl
@[simp] theorem Dev.sendAll_keys : (d.sendAll es).keys = d.keys := rfl
@[simp] theorem Dev.sendAll_doe : (d.sendAll es).doe = d.doe := rfl
@[simp] theorem Dev.sendAll_hostRead : (d.sendAll es).hostRead = d.hostRead := rfl
@[simp] theorem Dev.sendAll_errCount : (d.sendAll es).errCount = d.errCount := rfl
@[simp] theorem Dev.sendAll_errLog : (d.sendAll es).errLog = d.errLog := rfl
@[simp] theorem Dev.sendAll_skip : (d.sendAll es).skip = d.skip := rfl
@[simp] theorem Dev.sendAll_failed : (d.sendAll es).failed = d.failed := rfl
@[simp] theorem Dev.sendAll_switch : (d.sendAll es).switch = d.switch := rfl
@[simp] theorem Dev.sendAll_switchDone : (d.sendAll es).switchDone = d.switchDone := rfl
@[simp] theorem Dev.sendAll_saved : (d.sendAll es).saved = d.saved := rfl
@[simp] theorem Dev.sendAll_agenda : (d.sendAll es).agenda = d.agenda := rfl
@[simp] theorem Dev.sendAll_cur : (d.sendAll es).cur = d.cur := rfl
end

section
variable (d : Dev) (cycles : Nat) (e : Ev)
@[simp] theorem Dev.later_clock : (d.later cycles e).clock = d.clock := rfl
@[simp] theorem Dev.later_stage : (d.later cycles e).stage = d.stage := rfl
@[simp] theorem Dev.later_failure : (d.later cycles e).failure = d.failure := rfl
@[simp] theorem Dev.later_up : (d.later cycles e).up = d.up := rfl
@[simp] theorem Dev.later_cores : (d.later cycles e).cores = d.cores := rfl
@[simp] theorem Dev.later_courts : (d.later cycles e).courts = d.courts := rfl
@[simp] theorem Dev.later_homes : (d.later cycles e).homes = d.homes := rfl
@[simp] theorem Dev.later_groups : (d.later cycles e).groups = d.groups := rfl
@[simp] theorem Dev.later_qsets : (d.later cycles e).qsets = d.qsets := rfl
@[simp] theorem Dev.later_pins : (d.later cycles e).pins = d.pins := rfl
@[simp] theorem Dev.later_stalled : (d.later cycles e).stalled = d.stalled := rfl
@[simp] theorem Dev.later_linePoison : (d.later cycles e).linePoison = d.linePoison := rfl
@[simp] theorem Dev.later_hostLines : (d.later cycles e).hostLines = d.hostLines := rfl
@[simp] theorem Dev.later_buckets : (d.later cycles e).buckets = d.buckets := rfl
@[simp] theorem Dev.later_merges : (d.later cycles e).merges = d.merges := rfl
@[simp] theorem Dev.later_xl : (d.later cycles e).xl = d.xl := rfl
@[simp] theorem Dev.later_walks : (d.later cycles e).walks = d.walks := rfl
@[simp] theorem Dev.later_shoots : (d.later cycles e).shoots = d.shoots := rfl
@[simp] theorem Dev.later_troot : (d.later cycles e).troot = d.troot := rfl
@[simp] theorem Dev.later_depots : (d.later cycles e).depots = d.depots := rfl
@[simp] theorem Dev.later_launches : (d.later cycles e).launches = d.launches := rfl
@[simp] theorem Dev.later_tasks : (d.later cycles e).tasks = d.tasks := rfl
@[simp] theorem Dev.later_terr : (d.later cycles e).terr = d.terr := rfl
@[simp] theorem Dev.later_ranks : (d.later cycles e).ranks = d.ranks := rfl
@[simp] theorem Dev.later_ctlDrops : (d.later cycles e).ctlDrops = d.ctlDrops := rfl
@[simp] theorem Dev.later_funcs : (d.later cycles e).funcs = d.funcs := rfl
@[simp] theorem Dev.later_profHolder : (d.later cycles e).profHolder = d.profHolder := rfl
@[simp] theorem Dev.later_profQueue : (d.later cycles e).profQueue = d.profQueue := rfl
@[simp] theorem Dev.later_shared : (d.later cycles e).shared = d.shared := rfl
@[simp] theorem Dev.later_ports : (d.later cycles e).ports = d.ports := rfl
@[simp] theorem Dev.later_bridges : (d.later cycles e).bridges = d.bridges := rfl
@[simp] theorem Dev.later_mr : (d.later cycles e).mr = d.mr := rfl
@[simp] theorem Dev.later_fwVersion : (d.later cycles e).fwVersion = d.fwVersion := rfl
@[simp] theorem Dev.later_keys : (d.later cycles e).keys = d.keys := rfl
@[simp] theorem Dev.later_doe : (d.later cycles e).doe = d.doe := rfl
@[simp] theorem Dev.later_hostRead : (d.later cycles e).hostRead = d.hostRead := rfl
@[simp] theorem Dev.later_errCount : (d.later cycles e).errCount = d.errCount := rfl
@[simp] theorem Dev.later_errLog : (d.later cycles e).errLog = d.errLog := rfl
@[simp] theorem Dev.later_skip : (d.later cycles e).skip = d.skip := rfl
@[simp] theorem Dev.later_failed : (d.later cycles e).failed = d.failed := rfl
@[simp] theorem Dev.later_switch : (d.later cycles e).switch = d.switch := rfl
@[simp] theorem Dev.later_switchDone : (d.later cycles e).switchDone = d.switchDone := rfl
@[simp] theorem Dev.later_saved : (d.later cycles e).saved = d.saved := rfl
@[simp] theorem Dev.later_agenda : (d.later cycles e).agenda = d.agenda := rfl
@[simp] theorem Dev.later_cur : (d.later cycles e).cur = d.cur := rfl
@[simp] theorem Dev.later_count : (d.later cycles e).count = d.count := rfl
end

section
variable (k : Core) (n : Nat) (f : Slot → Slot)
@[simp] theorem Core.updSlot_words : (k.updSlot n f).words = k.words := by unfold Core.updSlot; split <;> rfl
@[simp] theorem Core.updSlot_tags : (k.updSlot n f).tags = k.tags := by unfold Core.updSlot; split <;> rfl
@[simp] theorem Core.updSlot_map : (k.updSlot n f).map = k.map := by unfold Core.updSlot; split <;> rfl
@[simp] theorem Core.updSlot_gen0 : (k.updSlot n f).gen0 = k.gen0 := by unfold Core.updSlot; split <;> rfl
@[simp] theorem Core.updSlot_gen1 : (k.updSlot n f).gen1 = k.gen1 := by unfold Core.updSlot; split <;> rfl
@[simp] theorem Core.updSlot_tbgen : (k.updSlot n f).tbgen = k.tbgen := by unfold Core.updSlot; split <;> rfl
@[simp] theorem Core.updSlot_tlk : (k.updSlot n f).tlk = k.tlk := by unfold Core.updSlot; split <;> rfl
@[simp] theorem Core.updSlot_parked : (k.updSlot n f).parked = k.parked := by unfold Core.updSlot; split <;> rfl
@[simp] theorem Core.updSlot_held : (k.updSlot n f).held = k.held := by unfold Core.updSlot; split <;> rfl
@[simp] theorem Core.updSlot_heldEng : (k.updSlot n f).heldEng = k.heldEng := by unfold Core.updSlot; split <;> rfl
@[simp] theorem Core.updSlot_l1 : (k.updSlot n f).l1 = k.l1 := by unfold Core.updSlot; split <;> rfl
@[simp] theorem Core.updSlot_ic : (k.updSlot n f).ic = k.ic := by unfold Core.updSlot; split <;> rfl
@[simp] theorem Core.updSlot_plb : (k.updSlot n f).plb = k.plb := by unfold Core.updSlot; split <;> rfl
@[simp] theorem Core.updSlot_linkUp : (k.updSlot n f).linkUp = k.linkUp := by unfold Core.updSlot; split <;> rfl
@[simp] theorem Core.updSlot_linkDown : (k.updSlot n f).linkDown = k.linkDown := by unfold Core.updSlot; split <;> rfl
@[simp] theorem Core.updSlot_waitUp : (k.updSlot n f).waitUp = k.waitUp := by unfold Core.updSlot; split <;> rfl
@[simp] theorem Core.updSlot_waitDown : (k.updSlot n f).waitDown = k.waitDown := by unfold Core.updSlot; split <;> rfl
@[simp] theorem Core.updSlot_bars : (k.updSlot n f).bars = k.bars := by unfold Core.updSlot; split <;> rfl
@[simp] theorem Core.updSlot_objs : (k.updSlot n f).objs = k.objs := by unfold Core.updSlot; split <;> rfl
@[simp] theorem Core.updSlot_pool : (k.updSlot n f).pool = k.pool := by unfold Core.updSlot; split <;> rfl
@[simp] theorem Core.updSlot_tq : (k.updSlot n f).tq = k.tq := by unfold Core.updSlot; split <;> rfl
@[simp] theorem Core.updSlot_inbox : (k.updSlot n f).inbox = k.inbox := by unfold Core.updSlot; split <;> rfl
@[simp] theorem Core.updSlot_mq : (k.updSlot n f).mq = k.mq := by unfold Core.updSlot; split <;> rfl
@[simp] theorem Core.updSlot_cq : (k.updSlot n f).cq = k.cq := by unfold Core.updSlot; split <;> rfl
@[simp] theorem Core.updSlot_dir : (k.updSlot n f).dir = k.dir := by unfold Core.updSlot; split <;> rfl
@[simp] theorem Core.updSlot_prof : (k.updSlot n f).prof = k.prof := by unfold Core.updSlot; split <;> rfl
@[simp] theorem Core.updSlot_rfPoison : (k.updSlot n f).rfPoison = k.rfPoison := by unfold Core.updSlot; split <;> rfl
@[simp] theorem Core.updSlot_lsPoison : (k.updSlot n f).lsPoison = k.lsPoison := by unfold Core.updSlot; split <;> rfl
@[simp] theorem Core.updSlot_lapsed : (k.updSlot n f).lapsed = k.lapsed := by unfold Core.updSlot; split <;> rfl
@[simp] theorem Core.updSlot_lsTodo : (k.updSlot n f).lsTodo = k.lsTodo := by unfold Core.updSlot; split <;> rfl
end

section
variable (k : Core) (a : Nat) (v : BitVec 4)
@[simp] theorem Core.setTag_slots : (k.setTag a v).slots = k.slots := rfl
@[simp] theorem Core.setTag_away : (k.setTag a v).away = k.away := rfl
@[simp] theorem Core.setTag_words : (k.setTag a v).words = k.words := rfl
@[simp] theorem Core.setTag_map : (k.setTag a v).map = k.map := rfl
@[simp] theorem Core.setTag_gen0 : (k.setTag a v).gen0 = k.gen0 := rfl
@[simp] theorem Core.setTag_gen1 : (k.setTag a v).gen1 = k.gen1 := rfl
@[simp] theorem Core.setTag_tbgen : (k.setTag a v).tbgen = k.tbgen := rfl
@[simp] theorem Core.setTag_tlk : (k.setTag a v).tlk = k.tlk := rfl
@[simp] theorem Core.setTag_parked : (k.setTag a v).parked = k.parked := rfl
@[simp] theorem Core.setTag_held : (k.setTag a v).held = k.held := rfl
@[simp] theorem Core.setTag_heldEng : (k.setTag a v).heldEng = k.heldEng := rfl
@[simp] theorem Core.setTag_l1 : (k.setTag a v).l1 = k.l1 := rfl
@[simp] theorem Core.setTag_ic : (k.setTag a v).ic = k.ic := rfl
@[simp] theorem Core.setTag_plb : (k.setTag a v).plb = k.plb := rfl
@[simp] theorem Core.setTag_linkUp : (k.setTag a v).linkUp = k.linkUp := rfl
@[simp] theorem Core.setTag_linkDown : (k.setTag a v).linkDown = k.linkDown := rfl
@[simp] theorem Core.setTag_waitUp : (k.setTag a v).waitUp = k.waitUp := rfl
@[simp] theorem Core.setTag_waitDown : (k.setTag a v).waitDown = k.waitDown := rfl
@[simp] theorem Core.setTag_bars : (k.setTag a v).bars = k.bars := rfl
@[simp] theorem Core.setTag_objs : (k.setTag a v).objs = k.objs := rfl
@[simp] theorem Core.setTag_pool : (k.setTag a v).pool = k.pool := rfl
@[simp] theorem Core.setTag_tq : (k.setTag a v).tq = k.tq := rfl
@[simp] theorem Core.setTag_inbox : (k.setTag a v).inbox = k.inbox := rfl
@[simp] theorem Core.setTag_mq : (k.setTag a v).mq = k.mq := rfl
@[simp] theorem Core.setTag_cq : (k.setTag a v).cq = k.cq := rfl
@[simp] theorem Core.setTag_dir : (k.setTag a v).dir = k.dir := rfl
@[simp] theorem Core.setTag_prof : (k.setTag a v).prof = k.prof := rfl
@[simp] theorem Core.setTag_rfPoison : (k.setTag a v).rfPoison = k.rfPoison := rfl
@[simp] theorem Core.setTag_lapsed : (k.setTag a v).lapsed = k.lapsed := rfl
@[simp] theorem Core.setTag_lsTodo : (k.setTag a v).lsTodo = k.lsTodo := rfl
end

section
variable (k : Core) (a : Nat) (v : W32)
@[simp] theorem Core.setWord_slots : (k.setWord a v).slots = k.slots := rfl
@[simp] theorem Core.setWord_away : (k.setWord a v).away = k.away := rfl
@[simp] theorem Core.setWord_tags : (k.setWord a v).tags = k.tags := rfl
@[simp] theorem Core.setWord_map : (k.setWord a v).map = k.map := rfl
@[simp] theorem Core.setWord_gen0 : (k.setWord a v).gen0 = k.gen0 := rfl
@[simp] theorem Core.setWord_gen1 : (k.setWord a v).gen1 = k.gen1 := rfl
@[simp] theorem Core.setWord_tbgen : (k.setWord a v).tbgen = k.tbgen := rfl
@[simp] theorem Core.setWord_tlk : (k.setWord a v).tlk = k.tlk := rfl
@[simp] theorem Core.setWord_parked : (k.setWord a v).parked = k.parked := rfl
@[simp] theorem Core.setWord_held : (k.setWord a v).held = k.held := rfl
@[simp] theorem Core.setWord_heldEng : (k.setWord a v).heldEng = k.heldEng := rfl
@[simp] theorem Core.setWord_l1 : (k.setWord a v).l1 = k.l1 := rfl
@[simp] theorem Core.setWord_ic : (k.setWord a v).ic = k.ic := rfl
@[simp] theorem Core.setWord_plb : (k.setWord a v).plb = k.plb := rfl
@[simp] theorem Core.setWord_linkUp : (k.setWord a v).linkUp = k.linkUp := rfl
@[simp] theorem Core.setWord_linkDown : (k.setWord a v).linkDown = k.linkDown := rfl
@[simp] theorem Core.setWord_waitUp : (k.setWord a v).waitUp = k.waitUp := rfl
@[simp] theorem Core.setWord_waitDown : (k.setWord a v).waitDown = k.waitDown := rfl
@[simp] theorem Core.setWord_bars : (k.setWord a v).bars = k.bars := rfl
@[simp] theorem Core.setWord_objs : (k.setWord a v).objs = k.objs := rfl
@[simp] theorem Core.setWord_pool : (k.setWord a v).pool = k.pool := rfl
@[simp] theorem Core.setWord_tq : (k.setWord a v).tq = k.tq := rfl
@[simp] theorem Core.setWord_inbox : (k.setWord a v).inbox = k.inbox := rfl
@[simp] theorem Core.setWord_mq : (k.setWord a v).mq = k.mq := rfl
@[simp] theorem Core.setWord_cq : (k.setWord a v).cq = k.cq := rfl
@[simp] theorem Core.setWord_dir : (k.setWord a v).dir = k.dir := rfl
@[simp] theorem Core.setWord_prof : (k.setWord a v).prof = k.prof := rfl
@[simp] theorem Core.setWord_rfPoison : (k.setWord a v).rfPoison = k.rfPoison := rfl
@[simp] theorem Core.setWord_lapsed : (k.setWord a v).lapsed = k.lapsed := rfl
@[simp] theorem Core.setWord_lsTodo : (k.setWord a v).lsTodo = k.lsTodo := rfl
end

section
variable (x : Slot) (j : Nat) (v : V512)
@[simp] theorem Slot.setV_st : (x.setV j v).st = x.st := rfl
@[simp] theorem Slot.setV_readyAt : (x.setV j v).readyAt = x.readyAt := rfl
@[simp] theorem Slot.setV_yielded : (x.setV j v).yielded = x.yielded := rfl
@[simp] theorem Slot.setV_lk : (x.setV j v).lk = x.lk := rfl
@[simp] theorem Slot.setV_ri : (x.setV j v).ri = x.ri := rfl
@[simp] theorem Slot.setV_kind : (x.setV j v).kind = x.kind := rfl
@[simp] theorem Slot.setV_vst : (x.setV j v).vst = x.vst := rfl
@[simp] theorem Slot.setV_aregs : (x.setV j v).aregs = x.aregs := rfl
@[simp] theorem Slot.setV_kregs : (x.setV j v).kregs = x.kregs := rfl
@[simp] theorem Slot.setV_winBase : (x.setV j v).winBase = x.winBase := rfl
@[simp] theorem Slot.setV_winCount : (x.setV j v).winCount = x.winCount := rfl
@[simp] theorem Slot.setV_wins : (x.setV j v).wins = x.wins := rfl
@[simp] theorem Slot.setV_ops : (x.setV j v).ops = x.ops := rfl
@[simp] theorem Slot.setV_laneSet : (x.setV j v).laneSet = x.laneSet := rfl
@[simp] theorem Slot.setV_tasks : (x.setV j v).tasks = x.tasks := rfl
@[simp] theorem Slot.setV_gtid : (x.setV j v).gtid = x.gtid := rfl
@[simp] theorem Slot.setV_frec0 : (x.setV j v).frec0 = x.frec0 := rfl
@[simp] theorem Slot.setV_frec1 : (x.setV j v).frec1 = x.frec1 := rfl
@[simp] theorem Slot.setV_frec2 : (x.setV j v).frec2 = x.frec2 := rfl
@[simp] theorem Slot.setV_frec3 : (x.setV j v).frec3 = x.frec3 := rfl
@[simp] theorem Slot.setV_wakeBit : (x.setV j v).wakeBit = x.wakeBit := rfl
@[simp] theorem Slot.setV_svcHeld : (x.setV j v).svcHeld = x.svcHeld := rfl
@[simp] theorem Slot.setV_svcWait : (x.setV j v).svcWait = x.svcWait := rfl
@[simp] theorem Slot.setV_rot : (x.setV j v).rot = x.rot := rfl
@[simp] theorem Slot.setV_resPh : (x.setV j v).resPh = x.resPh := rfl
@[simp] theorem Slot.setV_residue : (x.setV j v).residue = x.residue := rfl
@[simp] theorem Slot.setV_pushed : (x.setV j v).pushed = x.pushed := rfl
@[simp] theorem Slot.setV_pushWait : (x.setV j v).pushWait = x.pushWait := rfl
@[simp] theorem Slot.setV_closed : (x.setV j v).closed = x.closed := rfl
@[simp] theorem Slot.setV_leases : (x.setV j v).leases = x.leases := rfl
@[simp] theorem Slot.setV_defer : (x.setV j v).defer = x.defer := rfl
@[simp] theorem Slot.setV_refused : (x.setV j v).refused = x.refused := rfl
@[simp] theorem Slot.setV_winStores : (x.setV j v).winStores = x.winStores := rfl
@[simp] theorem Slot.setV_stream : (x.setV j v).stream = x.stream := rfl
@[simp] theorem Slot.setV_reply : (x.setV j v).reply = x.reply := rfl
@[simp] theorem Slot.setV_stopReq : (x.setV j v).stopReq = x.stopReq := rfl
@[simp] theorem Slot.setV_preempt : (x.setV j v).preempt = x.preempt := rfl
@[simp] theorem Slot.setV_endReq : (x.setV j v).endReq = x.endReq := rfl
@[simp] theorem Slot.setV_bpPass : (x.setV j v).bpPass = x.bpPass := rfl
@[simp] theorem Slot.setV_bpDue : (x.setV j v).bpDue = x.bpDue := rfl
@[simp] theorem Slot.setV_stepDue : (x.setV j v).stepDue = x.stepDue := rfl
@[simp] theorem Slot.setV_killed : (x.setV j v).killed = x.killed := rfl
@[simp] theorem Slot.setV_heldAt : (x.setV j v).heldAt = x.heldAt := rfl
@[simp] theorem Slot.setV_live : (x.setV j v).live = x.live := rfl
end

section
variable (x : Slot) (b : Bool)
@[simp] theorem Slot.setAp_st : (x.setAp b).st = x.st := rfl
@[simp] theorem Slot.setAp_readyAt : (x.setAp b).readyAt = x.readyAt := rfl
@[simp] theorem Slot.setAp_yielded : (x.setAp b).yielded = x.yielded := rfl
@[simp] theorem Slot.setAp_lk : (x.setAp b).lk = x.lk := rfl
@[simp] theorem Slot.setAp_ri : (x.setAp b).ri = x.ri := rfl
@[simp] theorem Slot.setAp_kind : (x.setAp b).kind = x.kind := rfl
@[simp] theorem Slot.setAp_pc : (x.setAp b).pc = x.pc := rfl
@[simp] theorem Slot.setAp_vregs : (x.setAp b).vregs = x.vregs := rfl
@[simp] theorem Slot.setAp_vst : (x.setAp b).vst = x.vst := rfl
@[simp] theorem Slot.setAp_aregs : (x.setAp b).aregs = x.aregs := rfl
@[simp] theorem Slot.setAp_kregs : (x.setAp b).kregs = x.kregs := rfl
@[simp] theorem Slot.setAp_winBase : (x.setAp b).winBase = x.winBase := rfl
@[simp] theorem Slot.setAp_winCount : (x.setAp b).winCount = x.winCount := rfl
@[simp] theorem Slot.setAp_wins : (x.setAp b).wins = x.wins := rfl
@[simp] theorem Slot.setAp_ops : (x.setAp b).ops = x.ops := rfl
@[simp] theorem Slot.setAp_laneSet : (x.setAp b).laneSet = x.laneSet := rfl
@[simp] theorem Slot.setAp_tasks : (x.setAp b).tasks = x.tasks := rfl
@[simp] theorem Slot.setAp_gtid : (x.setAp b).gtid = x.gtid := rfl
@[simp] theorem Slot.setAp_frec0 : (x.setAp b).frec0 = x.frec0 := rfl
@[simp] theorem Slot.setAp_frec1 : (x.setAp b).frec1 = x.frec1 := rfl
@[simp] theorem Slot.setAp_frec2 : (x.setAp b).frec2 = x.frec2 := rfl
@[simp] theorem Slot.setAp_frec3 : (x.setAp b).frec3 = x.frec3 := rfl
@[simp] theorem Slot.setAp_wakeBit : (x.setAp b).wakeBit = x.wakeBit := rfl
@[simp] theorem Slot.setAp_svcHeld : (x.setAp b).svcHeld = x.svcHeld := rfl
@[simp] theorem Slot.setAp_svcWait : (x.setAp b).svcWait = x.svcWait := rfl
@[simp] theorem Slot.setAp_rot : (x.setAp b).rot = x.rot := rfl
@[simp] theorem Slot.setAp_resPh : (x.setAp b).resPh = x.resPh := rfl
@[simp] theorem Slot.setAp_residue : (x.setAp b).residue = x.residue := rfl
@[simp] theorem Slot.setAp_pushed : (x.setAp b).pushed = x.pushed := rfl
@[simp] theorem Slot.setAp_pushWait : (x.setAp b).pushWait = x.pushWait := rfl
@[simp] theorem Slot.setAp_closed : (x.setAp b).closed = x.closed := rfl
@[simp] theorem Slot.setAp_leases : (x.setAp b).leases = x.leases := rfl
@[simp] theorem Slot.setAp_defer : (x.setAp b).defer = x.defer := rfl
@[simp] theorem Slot.setAp_refused : (x.setAp b).refused = x.refused := rfl
@[simp] theorem Slot.setAp_winStores : (x.setAp b).winStores = x.winStores := rfl
@[simp] theorem Slot.setAp_stream : (x.setAp b).stream = x.stream := rfl
@[simp] theorem Slot.setAp_reply : (x.setAp b).reply = x.reply := rfl
@[simp] theorem Slot.setAp_stopReq : (x.setAp b).stopReq = x.stopReq := rfl
@[simp] theorem Slot.setAp_preempt : (x.setAp b).preempt = x.preempt := rfl
@[simp] theorem Slot.setAp_endReq : (x.setAp b).endReq = x.endReq := rfl
@[simp] theorem Slot.setAp_stepReq : (x.setAp b).stepReq = x.stepReq := rfl
@[simp] theorem Slot.setAp_bpPass : (x.setAp b).bpPass = x.bpPass := rfl
@[simp] theorem Slot.setAp_bpDue : (x.setAp b).bpDue = x.bpDue := rfl
@[simp] theorem Slot.setAp_stepDue : (x.setAp b).stepDue = x.stepDue := rfl
@[simp] theorem Slot.setAp_killed : (x.setAp b).killed = x.killed := rfl
@[simp] theorem Slot.setAp_heldAt : (x.setAp b).heldAt = x.heldAt := rfl
@[simp] theorem Slot.setAp_live : (x.setAp b).live = x.live := rfl
end

section
variable (x : Slot) (b : Bool)
@[simp] theorem Slot.setIl_st : (x.setIl b).st = x.st := rfl
@[simp] theorem Slot.setIl_readyAt : (x.setIl b).readyAt = x.readyAt := rfl
@[simp] theorem Slot.setIl_yielded : (x.setIl b).yielded = x.yielded := rfl
@[simp] theorem Slot.setIl_lk : (x.setIl b).lk = x.lk := rfl
@[simp] theorem Slot.setIl_ri : (x.setIl b).ri = x.ri := rfl
@[simp] theorem Slot.setIl_kind : (x.setIl b).kind = x.kind := rfl
@[simp] theorem Slot.setIl_pc : (x.setIl b).pc = x.pc := rfl
@[simp] theorem Slot.setIl_vregs : (x.setIl b).vregs = x.vregs := rfl
@[simp] theorem Slot.setIl_vst : (x.setIl b).vst = x.vst := rfl
@[simp] theorem Slot.setIl_aregs : (x.setIl b).aregs = x.aregs := rfl
@[simp] theorem Slot.setIl_kregs : (x.setIl b).kregs = x.kregs := rfl
@[simp] theorem Slot.setIl_winBase : (x.setIl b).winBase = x.winBase := rfl
@[simp] theorem Slot.setIl_winCount : (x.setIl b).winCount = x.winCount := rfl
@[simp] theorem Slot.setIl_wins : (x.setIl b).wins = x.wins := rfl
@[simp] theorem Slot.setIl_ops : (x.setIl b).ops = x.ops := rfl
@[simp] theorem Slot.setIl_laneSet : (x.setIl b).laneSet = x.laneSet := rfl
@[simp] theorem Slot.setIl_tasks : (x.setIl b).tasks = x.tasks := rfl
@[simp] theorem Slot.setIl_gtid : (x.setIl b).gtid = x.gtid := rfl
@[simp] theorem Slot.setIl_frec0 : (x.setIl b).frec0 = x.frec0 := rfl
@[simp] theorem Slot.setIl_frec1 : (x.setIl b).frec1 = x.frec1 := rfl
@[simp] theorem Slot.setIl_frec2 : (x.setIl b).frec2 = x.frec2 := rfl
@[simp] theorem Slot.setIl_frec3 : (x.setIl b).frec3 = x.frec3 := rfl
@[simp] theorem Slot.setIl_wakeBit : (x.setIl b).wakeBit = x.wakeBit := rfl
@[simp] theorem Slot.setIl_svcHeld : (x.setIl b).svcHeld = x.svcHeld := rfl
@[simp] theorem Slot.setIl_svcWait : (x.setIl b).svcWait = x.svcWait := rfl
@[simp] theorem Slot.setIl_rot : (x.setIl b).rot = x.rot := rfl
@[simp] theorem Slot.setIl_resPh : (x.setIl b).resPh = x.resPh := rfl
@[simp] theorem Slot.setIl_residue : (x.setIl b).residue = x.residue := rfl
@[simp] theorem Slot.setIl_pushed : (x.setIl b).pushed = x.pushed := rfl
@[simp] theorem Slot.setIl_pushWait : (x.setIl b).pushWait = x.pushWait := rfl
@[simp] theorem Slot.setIl_closed : (x.setIl b).closed = x.closed := rfl
@[simp] theorem Slot.setIl_leases : (x.setIl b).leases = x.leases := rfl
@[simp] theorem Slot.setIl_defer : (x.setIl b).defer = x.defer := rfl
@[simp] theorem Slot.setIl_refused : (x.setIl b).refused = x.refused := rfl
@[simp] theorem Slot.setIl_winStores : (x.setIl b).winStores = x.winStores := rfl
@[simp] theorem Slot.setIl_stream : (x.setIl b).stream = x.stream := rfl
@[simp] theorem Slot.setIl_reply : (x.setIl b).reply = x.reply := rfl
@[simp] theorem Slot.setIl_stopReq : (x.setIl b).stopReq = x.stopReq := rfl
@[simp] theorem Slot.setIl_preempt : (x.setIl b).preempt = x.preempt := rfl
@[simp] theorem Slot.setIl_endReq : (x.setIl b).endReq = x.endReq := rfl
@[simp] theorem Slot.setIl_stepReq : (x.setIl b).stepReq = x.stepReq := rfl
@[simp] theorem Slot.setIl_bpPass : (x.setIl b).bpPass = x.bpPass := rfl
@[simp] theorem Slot.setIl_bpDue : (x.setIl b).bpDue = x.bpDue := rfl
@[simp] theorem Slot.setIl_stepDue : (x.setIl b).stepDue = x.stepDue := rfl
@[simp] theorem Slot.setIl_killed : (x.setIl b).killed = x.killed := rfl
@[simp] theorem Slot.setIl_heldAt : (x.setIl b).heldAt = x.heldAt := rfl
@[simp] theorem Slot.setIl_live : (x.setIl b).live = x.live := rfl
end

section
variable (x : Slot) (b : Bool)
@[simp] theorem Slot.setLb_st : (x.setLb b).st = x.st := rfl
@[simp] theorem Slot.setLb_readyAt : (x.setLb b).readyAt = x.readyAt := rfl
@[simp] theorem Slot.setLb_yielded : (x.setLb b).yielded = x.yielded := rfl
@[simp] theorem Slot.setLb_lk : (x.setLb b).lk = x.lk := rfl
@[simp] theorem Slot.setLb_ri : (x.setLb b).ri = x.ri := rfl
@[simp] theorem Slot.setLb_kind : (x.setLb b).kind = x.kind := rfl
@[simp] theorem Slot.setLb_pc : (x.setLb b).pc = x.pc := rfl
@[simp] theorem Slot.setLb_vregs : (x.setLb b).vregs = x.vregs := rfl
@[simp] theorem Slot.setLb_vst : (x.setLb b).vst = x.vst := rfl
@[simp] theorem Slot.setLb_aregs : (x.setLb b).aregs = x.aregs := rfl
@[simp] theorem Slot.setLb_kregs : (x.setLb b).kregs = x.kregs := rfl
@[simp] theorem Slot.setLb_winBase : (x.setLb b).winBase = x.winBase := rfl
@[simp] theorem Slot.setLb_winCount : (x.setLb b).winCount = x.winCount := rfl
@[simp] theorem Slot.setLb_wins : (x.setLb b).wins = x.wins := rfl
@[simp] theorem Slot.setLb_ops : (x.setLb b).ops = x.ops := rfl
@[simp] theorem Slot.setLb_laneSet : (x.setLb b).laneSet = x.laneSet := rfl
@[simp] theorem Slot.setLb_tasks : (x.setLb b).tasks = x.tasks := rfl
@[simp] theorem Slot.setLb_gtid : (x.setLb b).gtid = x.gtid := rfl
@[simp] theorem Slot.setLb_frec0 : (x.setLb b).frec0 = x.frec0 := rfl
@[simp] theorem Slot.setLb_frec1 : (x.setLb b).frec1 = x.frec1 := rfl
@[simp] theorem Slot.setLb_frec2 : (x.setLb b).frec2 = x.frec2 := rfl
@[simp] theorem Slot.setLb_frec3 : (x.setLb b).frec3 = x.frec3 := rfl
@[simp] theorem Slot.setLb_wakeBit : (x.setLb b).wakeBit = x.wakeBit := rfl
@[simp] theorem Slot.setLb_svcHeld : (x.setLb b).svcHeld = x.svcHeld := rfl
@[simp] theorem Slot.setLb_svcWait : (x.setLb b).svcWait = x.svcWait := rfl
@[simp] theorem Slot.setLb_rot : (x.setLb b).rot = x.rot := rfl
@[simp] theorem Slot.setLb_resPh : (x.setLb b).resPh = x.resPh := rfl
@[simp] theorem Slot.setLb_residue : (x.setLb b).residue = x.residue := rfl
@[simp] theorem Slot.setLb_pushed : (x.setLb b).pushed = x.pushed := rfl
@[simp] theorem Slot.setLb_pushWait : (x.setLb b).pushWait = x.pushWait := rfl
@[simp] theorem Slot.setLb_closed : (x.setLb b).closed = x.closed := rfl
@[simp] theorem Slot.setLb_leases : (x.setLb b).leases = x.leases := rfl
@[simp] theorem Slot.setLb_defer : (x.setLb b).defer = x.defer := rfl
@[simp] theorem Slot.setLb_refused : (x.setLb b).refused = x.refused := rfl
@[simp] theorem Slot.setLb_winStores : (x.setLb b).winStores = x.winStores := rfl
@[simp] theorem Slot.setLb_stream : (x.setLb b).stream = x.stream := rfl
@[simp] theorem Slot.setLb_reply : (x.setLb b).reply = x.reply := rfl
@[simp] theorem Slot.setLb_stopReq : (x.setLb b).stopReq = x.stopReq := rfl
@[simp] theorem Slot.setLb_preempt : (x.setLb b).preempt = x.preempt := rfl
@[simp] theorem Slot.setLb_endReq : (x.setLb b).endReq = x.endReq := rfl
@[simp] theorem Slot.setLb_stepReq : (x.setLb b).stepReq = x.stepReq := rfl
@[simp] theorem Slot.setLb_bpPass : (x.setLb b).bpPass = x.bpPass := rfl
@[simp] theorem Slot.setLb_bpDue : (x.setLb b).bpDue = x.bpDue := rfl
@[simp] theorem Slot.setLb_stepDue : (x.setLb b).stepDue = x.stepDue := rfl
@[simp] theorem Slot.setLb_killed : (x.setLb b).killed = x.killed := rfl
@[simp] theorem Slot.setLb_heldAt : (x.setLb b).heldAt = x.heldAt := rfl
@[simp] theorem Slot.setLb_live : (x.setLb b).live = x.live := rfl
end

section
variable (x : Slot) (b : Bool)
@[simp] theorem Slot.setSpec_st : (x.setSpec b).st = x.st := rfl
@[simp] theorem Slot.setSpec_readyAt : (x.setSpec b).readyAt = x.readyAt := rfl
@[simp] theorem Slot.setSpec_yielded : (x.setSpec b).yielded = x.yielded := rfl
@[simp] theorem Slot.setSpec_lk : (x.setSpec b).lk = x.lk := rfl
@[simp] theorem Slot.setSpec_ri : (x.setSpec b).ri = x.ri := rfl
@[simp] theorem Slot.setSpec_kind : (x.setSpec b).kind = x.kind := rfl
@[simp] theorem Slot.setSpec_pc : (x.setSpec b).pc = x.pc := rfl
@[simp] theorem Slot.setSpec_vregs : (x.setSpec b).vregs = x.vregs := rfl
@[simp] theorem Slot.setSpec_vst : (x.setSpec b).vst = x.vst := rfl
@[simp] theorem Slot.setSpec_aregs : (x.setSpec b).aregs = x.aregs := rfl
@[simp] theorem Slot.setSpec_kregs : (x.setSpec b).kregs = x.kregs := rfl
@[simp] theorem Slot.setSpec_winBase : (x.setSpec b).winBase = x.winBase := rfl
@[simp] theorem Slot.setSpec_winCount : (x.setSpec b).winCount = x.winCount := rfl
@[simp] theorem Slot.setSpec_wins : (x.setSpec b).wins = x.wins := rfl
@[simp] theorem Slot.setSpec_ops : (x.setSpec b).ops = x.ops := rfl
@[simp] theorem Slot.setSpec_laneSet : (x.setSpec b).laneSet = x.laneSet := rfl
@[simp] theorem Slot.setSpec_tasks : (x.setSpec b).tasks = x.tasks := rfl
@[simp] theorem Slot.setSpec_gtid : (x.setSpec b).gtid = x.gtid := rfl
@[simp] theorem Slot.setSpec_frec0 : (x.setSpec b).frec0 = x.frec0 := rfl
@[simp] theorem Slot.setSpec_frec1 : (x.setSpec b).frec1 = x.frec1 := rfl
@[simp] theorem Slot.setSpec_frec2 : (x.setSpec b).frec2 = x.frec2 := rfl
@[simp] theorem Slot.setSpec_frec3 : (x.setSpec b).frec3 = x.frec3 := rfl
@[simp] theorem Slot.setSpec_wakeBit : (x.setSpec b).wakeBit = x.wakeBit := rfl
@[simp] theorem Slot.setSpec_svcHeld : (x.setSpec b).svcHeld = x.svcHeld := rfl
@[simp] theorem Slot.setSpec_svcWait : (x.setSpec b).svcWait = x.svcWait := rfl
@[simp] theorem Slot.setSpec_rot : (x.setSpec b).rot = x.rot := rfl
@[simp] theorem Slot.setSpec_resPh : (x.setSpec b).resPh = x.resPh := rfl
@[simp] theorem Slot.setSpec_residue : (x.setSpec b).residue = x.residue := rfl
@[simp] theorem Slot.setSpec_pushed : (x.setSpec b).pushed = x.pushed := rfl
@[simp] theorem Slot.setSpec_pushWait : (x.setSpec b).pushWait = x.pushWait := rfl
@[simp] theorem Slot.setSpec_closed : (x.setSpec b).closed = x.closed := rfl
@[simp] theorem Slot.setSpec_leases : (x.setSpec b).leases = x.leases := rfl
@[simp] theorem Slot.setSpec_defer : (x.setSpec b).defer = x.defer := rfl
@[simp] theorem Slot.setSpec_refused : (x.setSpec b).refused = x.refused := rfl
@[simp] theorem Slot.setSpec_winStores : (x.setSpec b).winStores = x.winStores := rfl
@[simp] theorem Slot.setSpec_stream : (x.setSpec b).stream = x.stream := rfl
@[simp] theorem Slot.setSpec_reply : (x.setSpec b).reply = x.reply := rfl
@[simp] theorem Slot.setSpec_stopReq : (x.setSpec b).stopReq = x.stopReq := rfl
@[simp] theorem Slot.setSpec_preempt : (x.setSpec b).preempt = x.preempt := rfl
@[simp] theorem Slot.setSpec_endReq : (x.setSpec b).endReq = x.endReq := rfl
@[simp] theorem Slot.setSpec_stepReq : (x.setSpec b).stepReq = x.stepReq := rfl
@[simp] theorem Slot.setSpec_bpPass : (x.setSpec b).bpPass = x.bpPass := rfl
@[simp] theorem Slot.setSpec_bpDue : (x.setSpec b).bpDue = x.bpDue := rfl
@[simp] theorem Slot.setSpec_stepDue : (x.setSpec b).stepDue = x.stepDue := rfl
@[simp] theorem Slot.setSpec_killed : (x.setSpec b).killed = x.killed := rfl
@[simp] theorem Slot.setSpec_heldAt : (x.setSpec b).heldAt = x.heldAt := rfl
@[simp] theorem Slot.setSpec_live : (x.setSpec b).live = x.live := rfl
end

section
variable (x : Slot) (t : Nat)
@[simp] theorem Slot.toReady_lk : (x.toReady t).lk = x.lk := rfl
@[simp] theorem Slot.toReady_ri : (x.toReady t).ri = x.ri := rfl
@[simp] theorem Slot.toReady_kind : (x.toReady t).kind = x.kind := rfl
@[simp] theorem Slot.toReady_pc : (x.toReady t).pc = x.pc := rfl
@[simp] theorem Slot.toReady_vregs : (x.toReady t).vregs = x.vregs := rfl
@[simp] theorem Slot.toReady_vst : (x.toReady t).vst = x.vst := rfl
@[simp] theorem Slot.toReady_aregs : (x.toReady t).aregs = x.aregs := rfl
@[simp] theorem Slot.toReady_kregs : (x.toReady t).kregs = x.kregs := rfl
@[simp] theorem Slot.toReady_winBase : (x.toReady t).winBase = x.winBase := rfl
@[simp] theorem Slot.toReady_winCount : (x.toReady t).winCount = x.winCount := rfl
@[simp] theorem Slot.toReady_wins : (x.toReady t).wins = x.wins := rfl
@[simp] theorem Slot.toReady_ops : (x.toReady t).ops = x.ops := rfl
@[simp] theorem Slot.toReady_laneSet : (x.toReady t).laneSet = x.laneSet := rfl
@[simp] theorem Slot.toReady_tasks : (x.toReady t).tasks = x.tasks := rfl
@[simp] theorem Slot.toReady_tsw : (x.toReady t).tsw = x.tsw := rfl
@[simp] theorem Slot.toReady_gtid : (x.toReady t).gtid = x.gtid := rfl
@[simp] theorem Slot.toReady_frec0 : (x.toReady t).frec0 = x.frec0 := rfl
@[simp] theorem Slot.toReady_frec1 : (x.toReady t).frec1 = x.frec1 := rfl
@[simp] theorem Slot.toReady_frec2 : (x.toReady t).frec2 = x.frec2 := rfl
@[simp] theorem Slot.toReady_frec3 : (x.toReady t).frec3 = x.frec3 := rfl
@[simp] theorem Slot.toReady_wakeBit : (x.toReady t).wakeBit = x.wakeBit := rfl
@[simp] theorem Slot.toReady_svcHeld : (x.toReady t).svcHeld = x.svcHeld := rfl
@[simp] theorem Slot.toReady_svcWait : (x.toReady t).svcWait = x.svcWait := rfl
@[simp] theorem Slot.toReady_rot : (x.toReady t).rot = x.rot := rfl
@[simp] theorem Slot.toReady_resPh : (x.toReady t).resPh = x.resPh := rfl
@[simp] theorem Slot.toReady_residue : (x.toReady t).residue = x.residue := rfl
@[simp] theorem Slot.toReady_pushed : (x.toReady t).pushed = x.pushed := rfl
@[simp] theorem Slot.toReady_pushWait : (x.toReady t).pushWait = x.pushWait := rfl
@[simp] theorem Slot.toReady_closed : (x.toReady t).closed = x.closed := rfl
@[simp] theorem Slot.toReady_leases : (x.toReady t).leases = x.leases := rfl
@[simp] theorem Slot.toReady_defer : (x.toReady t).defer = x.defer := rfl
@[simp] theorem Slot.toReady_refused : (x.toReady t).refused = x.refused := rfl
@[simp] theorem Slot.toReady_winStores : (x.toReady t).winStores = x.winStores := rfl
@[simp] theorem Slot.toReady_stream : (x.toReady t).stream = x.stream := rfl
@[simp] theorem Slot.toReady_reply : (x.toReady t).reply = x.reply := rfl
@[simp] theorem Slot.toReady_stopReq : (x.toReady t).stopReq = x.stopReq := rfl
@[simp] theorem Slot.toReady_preempt : (x.toReady t).preempt = x.preempt := rfl
@[simp] theorem Slot.toReady_endReq : (x.toReady t).endReq = x.endReq := rfl
@[simp] theorem Slot.toReady_stepReq : (x.toReady t).stepReq = x.stepReq := rfl
@[simp] theorem Slot.toReady_bpPass : (x.toReady t).bpPass = x.bpPass := rfl
@[simp] theorem Slot.toReady_bpDue : (x.toReady t).bpDue = x.bpDue := rfl
@[simp] theorem Slot.toReady_stepDue : (x.toReady t).stepDue = x.stepDue := rfl
@[simp] theorem Slot.toReady_killed : (x.toReady t).killed = x.killed := rfl
@[simp] theorem Slot.toReady_heldAt : (x.toReady t).heldAt = x.heldAt := rfl
@[simp] theorem Slot.toReady_live : (x.toReady t).live = x.live := rfl
end

section
variable (x : Slot) (j : Nat) (v : W64)
@[simp] theorem Slot.setA_st : (x.setA j v).st = x.st := by unfold Slot.setA; split <;> rfl
@[simp] theorem Slot.setA_readyAt : (x.setA j v).readyAt = x.readyAt := by unfold Slot.setA; split <;> rfl
@[simp] theorem Slot.setA_yielded : (x.setA j v).yielded = x.yielded := by unfold Slot.setA; split <;> rfl
@[simp] theorem Slot.setA_lk : (x.setA j v).lk = x.lk := by unfold Slot.setA; split <;> rfl
@[simp] theorem Slot.setA_ri : (x.setA j v).ri = x.ri := by unfold Slot.setA; split <;> rfl
@[simp] theorem Slot.setA_kind : (x.setA j v).kind = x.kind := by unfold Slot.setA; split <;> rfl
@[simp] theorem Slot.setA_vregs : (x.setA j v).vregs = x.vregs := by unfold Slot.setA; split <;> rfl
@[simp] theorem Slot.setA_vst : (x.setA j v).vst = x.vst := by unfold Slot.setA; split <;> rfl
@[simp] theorem Slot.setA_kregs : (x.setA j v).kregs = x.kregs := by unfold Slot.setA; split <;> rfl
@[simp] theorem Slot.setA_winBase : (x.setA j v).winBase = x.winBase := by unfold Slot.setA; split <;> rfl
@[simp] theorem Slot.setA_winCount : (x.setA j v).winCount = x.winCount := by unfold Slot.setA; split <;> rfl
@[simp] theorem Slot.setA_wins : (x.setA j v).wins = x.wins := by unfold Slot.setA; split <;> rfl
@[simp] theorem Slot.setA_ops : (x.setA j v).ops = x.ops := by unfold Slot.setA; split <;> rfl
@[simp] theorem Slot.setA_laneSet : (x.setA j v).laneSet = x.laneSet := by unfold Slot.setA; split <;> rfl
@[simp] theorem Slot.setA_tasks : (x.setA j v).tasks = x.tasks := by unfold Slot.setA; split <;> rfl
@[simp] theorem Slot.setA_gtid : (x.setA j v).gtid = x.gtid := by unfold Slot.setA; split <;> rfl
@[simp] theorem Slot.setA_frec0 : (x.setA j v).frec0 = x.frec0 := by unfold Slot.setA; split <;> rfl
@[simp] theorem Slot.setA_frec1 : (x.setA j v).frec1 = x.frec1 := by unfold Slot.setA; split <;> rfl
@[simp] theorem Slot.setA_frec2 : (x.setA j v).frec2 = x.frec2 := by unfold Slot.setA; split <;> rfl
@[simp] theorem Slot.setA_frec3 : (x.setA j v).frec3 = x.frec3 := by unfold Slot.setA; split <;> rfl
@[simp] theorem Slot.setA_wakeBit : (x.setA j v).wakeBit = x.wakeBit := by unfold Slot.setA; split <;> rfl
@[simp] theorem Slot.setA_svcHeld : (x.setA j v).svcHeld = x.svcHeld := by unfold Slot.setA; split <;> rfl
@[simp] theorem Slot.setA_svcWait : (x.setA j v).svcWait = x.svcWait := by unfold Slot.setA; split <;> rfl
@[simp] theorem Slot.setA_rot : (x.setA j v).rot = x.rot := by unfold Slot.setA; split <;> rfl
@[simp] theorem Slot.setA_resPh : (x.setA j v).resPh = x.resPh := by unfold Slot.setA; split <;> rfl
@[simp] theorem Slot.setA_residue : (x.setA j v).residue = x.residue := by unfold Slot.setA; split <;> rfl
@[simp] theorem Slot.setA_pushed : (x.setA j v).pushed = x.pushed := by unfold Slot.setA; split <;> rfl
@[simp] theorem Slot.setA_pushWait : (x.setA j v).pushWait = x.pushWait := by unfold Slot.setA; split <;> rfl
@[simp] theorem Slot.setA_closed : (x.setA j v).closed = x.closed := by unfold Slot.setA; split <;> rfl
@[simp] theorem Slot.setA_leases : (x.setA j v).leases = x.leases := by unfold Slot.setA; split <;> rfl
@[simp] theorem Slot.setA_defer : (x.setA j v).defer = x.defer := by unfold Slot.setA; split <;> rfl
@[simp] theorem Slot.setA_refused : (x.setA j v).refused = x.refused := by unfold Slot.setA; split <;> rfl
@[simp] theorem Slot.setA_winStores : (x.setA j v).winStores = x.winStores := by unfold Slot.setA; split <;> rfl
@[simp] theorem Slot.setA_stream : (x.setA j v).stream = x.stream := by unfold Slot.setA; split <;> rfl
@[simp] theorem Slot.setA_reply : (x.setA j v).reply = x.reply := by unfold Slot.setA; split <;> rfl
@[simp] theorem Slot.setA_stopReq : (x.setA j v).stopReq = x.stopReq := by unfold Slot.setA; split <;> rfl
@[simp] theorem Slot.setA_preempt : (x.setA j v).preempt = x.preempt := by unfold Slot.setA; split <;> rfl
@[simp] theorem Slot.setA_endReq : (x.setA j v).endReq = x.endReq := by unfold Slot.setA; split <;> rfl
@[simp] theorem Slot.setA_bpPass : (x.setA j v).bpPass = x.bpPass := by unfold Slot.setA; split <;> rfl
@[simp] theorem Slot.setA_bpDue : (x.setA j v).bpDue = x.bpDue := by unfold Slot.setA; split <;> rfl
@[simp] theorem Slot.setA_stepDue : (x.setA j v).stepDue = x.stepDue := by unfold Slot.setA; split <;> rfl
@[simp] theorem Slot.setA_killed : (x.setA j v).killed = x.killed := by unfold Slot.setA; split <;> rfl
@[simp] theorem Slot.setA_heldAt : (x.setA j v).heldAt = x.heldAt := by unfold Slot.setA; split <;> rfl
@[simp] theorem Slot.setA_live : (x.setA j v).live = x.live := by unfold Slot.setA; split <;> rfl
end

section
variable (x : Slot) (j : Nat) (v : BitVec 16)
@[simp] theorem Slot.setK_st : (x.setK j v).st = x.st := by unfold Slot.setK; split <;> rfl
@[simp] theorem Slot.setK_readyAt : (x.setK j v).readyAt = x.readyAt := by unfold Slot.setK; split <;> rfl
@[simp] theorem Slot.setK_yielded : (x.setK j v).yielded = x.yielded := by unfold Slot.setK; split <;> rfl
@[simp] theorem Slot.setK_lk : (x.setK j v).lk = x.lk := by unfold Slot.setK; split <;> rfl
@[simp] theorem Slot.setK_ri : (x.setK j v).ri = x.ri := by unfold Slot.setK; split <;> rfl
@[simp] theorem Slot.setK_kind : (x.setK j v).kind = x.kind := by unfold Slot.setK; split <;> rfl
@[simp] theorem Slot.setK_vregs : (x.setK j v).vregs = x.vregs := by unfold Slot.setK; split <;> rfl
@[simp] theorem Slot.setK_vst : (x.setK j v).vst = x.vst := by unfold Slot.setK; split <;> rfl
@[simp] theorem Slot.setK_aregs : (x.setK j v).aregs = x.aregs := by unfold Slot.setK; split <;> rfl
@[simp] theorem Slot.setK_winBase : (x.setK j v).winBase = x.winBase := by unfold Slot.setK; split <;> rfl
@[simp] theorem Slot.setK_winCount : (x.setK j v).winCount = x.winCount := by unfold Slot.setK; split <;> rfl
@[simp] theorem Slot.setK_wins : (x.setK j v).wins = x.wins := by unfold Slot.setK; split <;> rfl
@[simp] theorem Slot.setK_ops : (x.setK j v).ops = x.ops := by unfold Slot.setK; split <;> rfl
@[simp] theorem Slot.setK_laneSet : (x.setK j v).laneSet = x.laneSet := by unfold Slot.setK; split <;> rfl
@[simp] theorem Slot.setK_tasks : (x.setK j v).tasks = x.tasks := by unfold Slot.setK; split <;> rfl
@[simp] theorem Slot.setK_gtid : (x.setK j v).gtid = x.gtid := by unfold Slot.setK; split <;> rfl
@[simp] theorem Slot.setK_frec0 : (x.setK j v).frec0 = x.frec0 := by unfold Slot.setK; split <;> rfl
@[simp] theorem Slot.setK_frec1 : (x.setK j v).frec1 = x.frec1 := by unfold Slot.setK; split <;> rfl
@[simp] theorem Slot.setK_frec2 : (x.setK j v).frec2 = x.frec2 := by unfold Slot.setK; split <;> rfl
@[simp] theorem Slot.setK_frec3 : (x.setK j v).frec3 = x.frec3 := by unfold Slot.setK; split <;> rfl
@[simp] theorem Slot.setK_wakeBit : (x.setK j v).wakeBit = x.wakeBit := by unfold Slot.setK; split <;> rfl
@[simp] theorem Slot.setK_svcHeld : (x.setK j v).svcHeld = x.svcHeld := by unfold Slot.setK; split <;> rfl
@[simp] theorem Slot.setK_svcWait : (x.setK j v).svcWait = x.svcWait := by unfold Slot.setK; split <;> rfl
@[simp] theorem Slot.setK_rot : (x.setK j v).rot = x.rot := by unfold Slot.setK; split <;> rfl
@[simp] theorem Slot.setK_resPh : (x.setK j v).resPh = x.resPh := by unfold Slot.setK; split <;> rfl
@[simp] theorem Slot.setK_residue : (x.setK j v).residue = x.residue := by unfold Slot.setK; split <;> rfl
@[simp] theorem Slot.setK_pushed : (x.setK j v).pushed = x.pushed := by unfold Slot.setK; split <;> rfl
@[simp] theorem Slot.setK_pushWait : (x.setK j v).pushWait = x.pushWait := by unfold Slot.setK; split <;> rfl
@[simp] theorem Slot.setK_closed : (x.setK j v).closed = x.closed := by unfold Slot.setK; split <;> rfl
@[simp] theorem Slot.setK_leases : (x.setK j v).leases = x.leases := by unfold Slot.setK; split <;> rfl
@[simp] theorem Slot.setK_defer : (x.setK j v).defer = x.defer := by unfold Slot.setK; split <;> rfl
@[simp] theorem Slot.setK_refused : (x.setK j v).refused = x.refused := by unfold Slot.setK; split <;> rfl
@[simp] theorem Slot.setK_winStores : (x.setK j v).winStores = x.winStores := by unfold Slot.setK; split <;> rfl
@[simp] theorem Slot.setK_stream : (x.setK j v).stream = x.stream := by unfold Slot.setK; split <;> rfl
@[simp] theorem Slot.setK_reply : (x.setK j v).reply = x.reply := by unfold Slot.setK; split <;> rfl
@[simp] theorem Slot.setK_stopReq : (x.setK j v).stopReq = x.stopReq := by unfold Slot.setK; split <;> rfl
@[simp] theorem Slot.setK_preempt : (x.setK j v).preempt = x.preempt := by unfold Slot.setK; split <;> rfl
@[simp] theorem Slot.setK_endReq : (x.setK j v).endReq = x.endReq := by unfold Slot.setK; split <;> rfl
@[simp] theorem Slot.setK_bpPass : (x.setK j v).bpPass = x.bpPass := by unfold Slot.setK; split <;> rfl
@[simp] theorem Slot.setK_bpDue : (x.setK j v).bpDue = x.bpDue := by unfold Slot.setK; split <;> rfl
@[simp] theorem Slot.setK_stepDue : (x.setK j v).stepDue = x.stepDue := by unfold Slot.setK; split <;> rfl
@[simp] theorem Slot.setK_killed : (x.setK j v).killed = x.killed := by unfold Slot.setK; split <;> rfl
@[simp] theorem Slot.setK_heldAt : (x.setK j v).heldAt = x.heldAt := by unfold Slot.setK; split <;> rfl
@[simp] theorem Slot.setK_live : (x.setK j v).live = x.live := by unfold Slot.setK; split <;> rfl
end

end Sys2Proof.Machine
end

