-- ==== Sys2Proof/Tests/Slice0.lean ====
section
/-! SUPPORT. Our own tests: terms that WellFormed refuses, words written out from the spec's encodings, a few single steps, and for each
statement states and operands that meet its hypotheses. -/

set_option Elab.async false

namespace Sys2Proof.Tests

open Sys2Proof Sys2Proof.Machine

/-! ### Well-formedness -/

/-! ### Well-formedness: a term for each check, which the check refuses, beside one just inside the limit -/

theorem test_wf_loop : (Instr.wf (.loop 0#4 1#32), Instr.wf (.loop 1#4 1#32)) = (false, true) := by decide
theorem test_wf_vcvt : (Instr.wf (.vcvt .e4m3 .f32 .rn 0#3 false 1#7 2#7), Instr.wf (.vcvt .bf16 .f32 .rn 0#3 false 1#7 2#7)) = (false, true) := by decide
theorem test_wf_vcvt_int : (Instr.wf (.vcvt .i32 .u32 .rz 0#3 false 1#7 2#7), Instr.wf (.vcvt .i32 .u32 .rn 0#3 false 1#7 2#7)) = (false, true) := by decide
theorem test_wf_vcvtFp8 : (Instr.wf (.vcvtFp8 0#4 .bf16 .f32 .rn 0#3 false 1#7 2#7), Instr.wf (.vcvtFp8 0#4 .bf16 .e5m2 .rn 0#3 false 1#7 2#7)) = (false, true) := by decide
theorem test_wf_vcvtsc : (Instr.wf (.vcvtsc 0#4 .bf16 .f32 .rn 0#3 false 2#7 2#7 3#7), Instr.wf (.vcvtsc 0#4 .e4m3 .f32 .rn 0#3 false 2#7 2#7 3#7)) = (false, true) := by decide
theorem test_wf_vcvtsc_from : (Instr.wf (.vcvtsc 0#4 .e4m3 .i32 .rn 0#3 false 2#7 2#7 3#7), Instr.wf (.vcvtsc 0#4 .e4m3 .bf16 .rn 0#3 false 2#7 2#7 3#7)) = (false, true) := by decide
theorem test_wf_vcvtsc_odd : (Instr.wf (.vcvtsc 0#4 .e4m3 .f32 .rn 0#3 false 3#7 2#7 3#7), Instr.wf (.vcvtsc 0#4 .e4m3 .f32 .rn 0#3 false 126#7 2#7 3#7)) = (false, true) := by decide
theorem test_wf_lldx : (Instr.wf (.lldx .plain 0#3 false 1#7 127#7 0#4 0#24), Instr.wf (.lldx .plain 0#3 false 0#7 127#7 0#4 0#24)) = (false, true) := by decide
theorem test_wf_lstx : (Instr.wf (.lstx .plain 0#3 1#7 127#7 0#4 0#24), Instr.wf (.lstx .plain 0#3 0#7 127#7 0#4 0#24)) = (false, true) := by decide
theorem test_wf_gldx : (Instr.wf (.gldx 0#4 0#3 false 1#7 127#7 0#4 0#24), Instr.wf (.gldx 0#4 0#3 false 0#7 127#7 0#4 0#24)) = (false, true) := by decide
theorem test_wf_gstx : (Instr.wf (.gstx 0#3 1#7 127#7 0#4 0#24), Instr.wf (.gstx 0#3 0#7 127#7 0#4 0#24)) = (false, true) := by decide
theorem test_wf_split : (Instr.wf (.split 0#3 1#7 17#7 0#32), Instr.wf (.split 0#3 1#7 16#7 0#32)) = (false, true) := by decide
theorem test_wf_trap : (Instr.wf (.trap 0#4 0xFFFF#32), Instr.wf (.trap 0#4 0xFFFE#32)) = (false, true) := by decide
theorem test_wf_kvlook : (Instr.wf (.kvlook 0#4 2#4 2#4 0#7), Instr.wf (.kvlook 0#4 2#4 3#4 0#7)) = (false, true) := by decide
theorem test_wf_tnop : (Instr.wf (.tnop ⟨9#9, true, 0#16⟩), Instr.wf (.tnop ⟨9#9, false, 0#16⟩)) = (false, true) := by decide
theorem test_wf_rstep : (Instr.wf (.fmtSet ⟨9#9, false, 1#16⟩ 0#32), Instr.wf (.fmtSet ⟨9#9, false, 0#16⟩ 0#32)) = (false, true) := by decide
theorem test_wf_accZero : (Instr.wf (.accZero ⟨9#9, false, 0#16⟩ 2#2 2#2), Instr.wf (.accZero ⟨9#9, false, 0#16⟩ 2#2 1#2)) = (false, true) := by decide
theorem test_wf_accLoad : (Instr.wf (.accLoad ⟨9#9, false, 0#16⟩ ⟨3#2, 1#2, false, 0x80#64, 512#32⟩), Instr.wf (.accLoad ⟨9#9, false, 0#16⟩ ⟨3#2, 0#2, false, 0x80#64, 512#32⟩)) = (false, true) := by decide
theorem test_wf_accLoad_base : (Instr.wf (.accLoad ⟨9#9, false, 0#16⟩ ⟨0#2, 0#2, false, 0x2#64, 512#32⟩), Instr.wf (.accLoad ⟨9#9, false, 0#16⟩ ⟨0#2, 0#2, false, 0x4#64, 512#32⟩)) = (false, true) := by decide
theorem test_wf_accLoad_pitch : (Instr.wf (.accLoad ⟨9#9, false, 0#16⟩ ⟨0#2, 0#2, false, 0x80#64, 508#32⟩), Instr.wf (.accLoad ⟨9#9, false, 0#16⟩ ⟨0#2, 0#2, false, 0x80#64, 516#32⟩)) = (false, true) := by decide
theorem test_wf_accStore : (Instr.wf (.accStore ⟨9#9, false, 0#16⟩ ⟨0#2, 0#2, false, 0x80#64, 6#32⟩), Instr.wf (.accStore ⟨9#9, false, 0#16⟩ ⟨0#2, 0#2, false, 0x80#64, 8#32⟩)) = (false, true) := by decide
theorem test_wf_accRel : (Instr.wf (.accRel ⟨9#9, false, 0#16⟩ 1#2 3#2), Instr.wf (.accRel ⟨9#9, false, 0#16⟩ 0#2 3#2)) = (false, true) := by decide
theorem test_wf_mm_tiles : (Instr.wf (.mm ⟨9#9, false, 0#16⟩ ⟨0#2, 2#2, 1#2, 1#8, false, false, 0x80#64, 0x100#64, 256#32, 128#32, 0#64, 0#64⟩), Instr.wf (.mm ⟨9#9, false, 0#16⟩ ⟨0#2, 1#2, 1#2, 1#8, false, false, 0x80#64, 0x100#64, 256#32, 128#32, 0#64, 0#64⟩)) = (false, true) := by decide
theorem test_wf_mm_acc : (Instr.wf (.mm ⟨9#9, false, 0#16⟩ ⟨1#2, 1#2, 1#2, 1#8, false, false, 0x80#64, 0x100#64, 256#32, 128#32, 0#64, 0#64⟩), Instr.wf (.mm ⟨9#9, false, 0#16⟩ ⟨2#2, 1#2, 0#2, 1#8, false, false, 0x80#64, 0x100#64, 256#32, 128#32, 0#64, 0#64⟩)) = (false, true) := by decide
theorem test_wf_mm_base : (Instr.wf (.mm ⟨9#9, false, 0#16⟩ ⟨0#2, 0#2, 0#2, 1#8, false, false, 0x40#64, 0x100#64, 256#32, 128#32, 0#64, 0#64⟩), Instr.wf (.mm ⟨9#9, false, 0#16⟩ ⟨0#2, 0#2, 0#2, 1#8, false, false, 0x0#64, 0x100#64, 256#32, 128#32, 0#64, 0#64⟩)) = (false, true) := by decide
theorem test_wf_mm_object : (Instr.wf (.mm ⟨9#9, false, 0#16⟩ ⟨0#2, 0#2, 0#2, 1#8, false, true, 0x80#64, 0x145#64, 256#32, 0#32, 0#64, 0#64⟩), Instr.wf (.mm ⟨9#9, false, 0#16⟩ ⟨0#2, 0#2, 0#2, 1#8, false, true, 0x80#64, 0x45#64, 256#32, 0#32, 0#64, 0#64⟩)) = (false, true) := by decide
theorem test_wf_mm_step : (Instr.wf (.mm ⟨9#9, true, 2#16⟩ ⟨0#2, 0#2, 0#2, 1#8, false, false, 0x80#64, 0x100#64, 256#32, 128#32, 0#64, 0#64⟩), Instr.wf (.mm ⟨9#9, true, 1#16⟩ ⟨0#2, 0#2, 0#2, 1#8, false, false, 0x80#64, 0x100#64, 256#32, 128#32, 0#64, 0#64⟩)) = (false, true) := by decide
theorem test_wf_sig : (Instr.wf (.sig ⟨9#9, true, 0#16⟩ 0#9), Instr.wf (.sig ⟨9#9, false, 0#16⟩ 511#9)) = (false, true) := by decide
theorem test_wf_twait : (Instr.wf (.twait ⟨9#9, true, 0#16⟩ 0#9 true), Instr.wf (.twait ⟨9#9, false, 0#16⟩ 511#9 true)) = (false, true) := by decide
theorem test_wf_tfence : (Instr.wf (.tfence ⟨9#9, true, 0#16⟩), Instr.wf (.tfence ⟨9#9, false, 0#16⟩)) = (false, true) := by decide
theorem test_wf_cpCopy : (Instr.wf (.cpCopy ⟨9#9, false, 0#16⟩ ⟨false, false, false, 0x0#64, 0x0#64, 0x0#32, 0x0#32, 0x0#64, 0x0#32, 0#8, 0#4⟩), Instr.wf (.cpCopy ⟨9#9, false, 0#16⟩ ⟨false, false, false, 0x0#64, 0x0#64, 0x4#32, 0x0#32, 0x0#64, 0x0#32, 0#8, 0#4⟩)) = (false, true) := by decide
theorem test_wf_cpCopy_align : (Instr.wf (.cpCopy ⟨9#9, false, 0#16⟩ ⟨false, false, false, 0x0#64, 0x2#64, 0x4#32, 0x0#32, 0x0#64, 0x0#32, 0#8, 0#4⟩), Instr.wf (.cpCopy ⟨9#9, false, 0#16⟩ ⟨false, false, false, 0x0#64, 0x4#64, 0x4#32, 0x0#32, 0x0#64, 0x0#32, 0#8, 0#4⟩)) = (false, true) := by decide
theorem test_wf_cpCopy_unused : (Instr.wf (.cpCopy ⟨9#9, false, 0#16⟩ ⟨false, false, false, 0x0#64, 0x0#64, 0x4#32, 0x1#32, 0x0#64, 0x0#32, 0#8, 0#4⟩), Instr.wf (.cpCopy ⟨9#9, false, 0#16⟩ ⟨false, false, false, 0x0#64, 0x0#64, 0x4#32, 0x0#32, 0x0#64, 0x0#32, 0#8, 0#4⟩)) = (false, true) := by decide
theorem test_wf_cpCopy_step : (Instr.wf (.cpCopy ⟨9#9, true, 1#16⟩ ⟨false, false, false, 0x0#64, 0x0#64, 0x1000#32, 0x0#32, 0x0#64, 0x0#32, 0#8, 0#4⟩), Instr.wf (.cpCopy ⟨9#9, true, 1#16⟩ ⟨false, false, false, 0x0#64, 0x0#64, 0x1004#32, 0x0#32, 0x0#64, 0x0#32, 0#8, 0#4⟩)) = (false, true) := by decide
theorem test_wf_cpFill : (Instr.wf (.cpFill ⟨9#9, false, 0#16⟩ ⟨false, false, false, 0x4#64, 0x0#64, 0x4#32, 0x7#32, 0x0#64, 0x0#32, 0#8, 0#4⟩), Instr.wf (.cpFill ⟨9#9, false, 0#16⟩ ⟨false, false, false, 0x0#64, 0x0#64, 0x4#32, 0x7#32, 0x0#64, 0x0#32, 0#8, 0#4⟩)) = (false, true) := by decide
theorem test_wf_cpGather : (Instr.wf (.cpGather ⟨9#9, false, 0#16⟩ ⟨false, false, false, 0x0#64, 0x0#64, 0x10004#32, 0x1#32, 0x0#64, 0x0#32, 0#8, 0#4⟩), Instr.wf (.cpGather ⟨9#9, false, 0#16⟩ ⟨false, false, false, 0x0#64, 0x0#64, 0x10000#32, 0x1#32, 0x0#64, 0x0#32, 0#8, 0#4⟩)) = (false, true) := by decide
theorem test_wf_cpGather_rows : (Instr.wf (.cpGather ⟨9#9, false, 0#16⟩ ⟨false, false, false, 0x0#64, 0x0#64, 0x4#32, 0x0#32, 0x0#64, 0x0#32, 0#8, 0#4⟩), Instr.wf (.cpGather ⟨9#9, false, 0#16⟩ ⟨false, false, false, 0x0#64, 0x0#64, 0x4#32, 0x1#32, 0x0#64, 0x0#32, 0#8, 0#4⟩)) = (false, true) := by decide
theorem test_wf_cpScatter : (Instr.wf (.cpScatter ⟨9#9, false, 0#16⟩ ⟨false, false, false, 0x0#64, 0x0#64, 0x4#32, 0x1#32, 0x0#64, 0x2#32, 0#8, 0#4⟩), Instr.wf (.cpScatter ⟨9#9, false, 0#16⟩ ⟨false, false, false, 0x0#64, 0x0#64, 0x4#32, 0x1#32, 0x0#64, 0x4#32, 0#8, 0#4⟩)) = (false, true) := by decide
theorem test_wf_cpSpred : (Instr.wf (.cpSpred ⟨9#9, false, 0#16⟩ ⟨false, false, false, 0x0#64, 0x0#64, 0x4#32, 0x0#32, 0x0#64, 0x0#32, 0#8, 3#4⟩), Instr.wf (.cpSpred ⟨9#9, false, 0#16⟩ ⟨false, false, false, 0x0#64, 0x0#64, 0x4#32, 0x0#32, 0x0#64, 0x0#32, 0#8, 2#4⟩)) = (false, true) := by decide
theorem test_wf_cpSpred_window : (Instr.wf (.cpSpred ⟨9#9, false, 0#16⟩ ⟨false, false, false, 0x0#64, 0x1ff000000000000#64, 0x4#32, 0x0#32, 0x0#64, 0x0#32, 0#8, 0#4⟩), Instr.wf (.cpSpred ⟨9#9, false, 0#16⟩ ⟨false, false, false, 0x0#64, 0x1fe000000000000#64, 0x4#32, 0x0#32, 0x0#64, 0x0#32, 0#8, 0#4⟩)) = (false, true) := by decide
theorem test_wf_kvImp : (Instr.wf (.kvImp ⟨9#9, false, 0#16⟩ ⟨9#4, 0#4, 0x100#64, 0x100#64, 1#32, 0x8#64⟩), Instr.wf (.kvImp ⟨9#9, false, 0#16⟩ ⟨8#4, 0#4, 0x100#64, 0x100#64, 1#32, 0x8#64⟩)) = (false, true) := by decide
theorem test_wf_kvImp_nb : (Instr.wf (.kvImp ⟨9#9, false, 0#16⟩ ⟨0#4, 0#4, 0x100#64, 0x100#64, 4097#32, 0x8#64⟩), Instr.wf (.kvImp ⟨9#9, false, 0#16⟩ ⟨0#4, 0#4, 0x100#64, 0x100#64, 4096#32, 0x8#64⟩)) = (false, true) := by decide
theorem test_wf_kvImp_src : (Instr.wf (.kvImp ⟨9#9, false, 0#16⟩ ⟨0#4, 0#4, 0x80#64, 0x100#64, 1#32, 0x8#64⟩), Instr.wf (.kvImp ⟨9#9, false, 0#16⟩ ⟨0#4, 0#4, 0x100#64, 0x8#64, 1#32, 0x8#64⟩)) = (false, true) := by decide
theorem test_wf_kvExp : (Instr.wf (.kvExp ⟨9#9, false, 0#16⟩ ⟨0#4, 1#4, 0x100#64, 0x100#64, 1#32, 0x8#64⟩), Instr.wf (.kvExp ⟨9#9, false, 0#16⟩ ⟨0#4, 0#4, 0x100#64, 0x100#64, 1#32, 0x8#64⟩)) = (false, true) := by decide
theorem test_wf_kvExp_dst : (Instr.wf (.kvExp ⟨9#9, false, 0#16⟩ ⟨0#4, 0#4, 0x100#64, 0x8#64, 1#32, 0x8#64⟩), Instr.wf (.kvExp ⟨9#9, false, 0#16⟩ ⟨0#4, 0#4, 0x8#64, 0x100#64, 1#32, 0x8#64⟩)) = (false, true) := by decide

/-! ### Decoding: words from the encoding tables of the spec -/

def decodesAs (rows : List (W64 × Instr)) : Bool := rows.all (fun r => decide (decode r.1 = .ok r.2))
def tileDecodesAs (rows : List (Bool × V512 × Instr)) : Bool := rows.all (fun r => decide (decodeTile r.1 r.2.1 = .ok r.2.2))
theorem test_decode_control : decodesAs [
    (0x0100000000000000, .nop),
    (0x02000000FFFFFFFE, .br 0xFFFFFFFE#32),
    (0x0300240400000005, .bc .lt 1#4 2#4 5#32),
    (0x0406000000000001, .bany 3#3 1#32),
    (0x05040000FFFFFFFF, .ball 2#3 0xFFFFFFFF#32),
    (0x060E000000000009, .bnone 7#3 9#32),
    (0x0700000000000010, .call 16#32),
    (0x0800001800000000, .jr 6#4),
    (0x0800001800001000, .callr 6#4),
    (0x0800000000002000, .ret),
    (0x09000010FFFFFFFD, .loop 4#4 0xFFFFFFFD#32),
    (0x0A00000000000001, .halt true),
    (0x0A00000000001000, .yield)] = true := by decide +kernel

theorem test_decode_address : decodesAs [
    (0x1000060410000000, .aadd 3#4 1#4 2#4),
    (0x1000060410001000, .asub 3#4 1#4 2#4),
    (0x1000060410002000, .amul 3#4 1#4 2#4),
    (0x1000060410003000, .amulh 3#4 1#4 2#4),
    (0x1000060410004000, .amulhu 3#4 1#4 2#4),
    (0x1000060410005000, .aand 3#4 1#4 2#4),
    (0x1000060410006000, .aor 3#4 1#4 2#4),
    (0x1000060410007000, .axor 3#4 1#4 2#4),
    (0x1000060410008000, .ashl 3#4 1#4 2#4),
    (0x1000060410009000, .ashr 3#4 1#4 2#4),
    (0x100006041000A000, .asar 3#4 1#4 2#4),
    (0x100006041000B000, .amin 3#4 1#4 2#4),
    (0x100006041000C000, .amax 3#4 1#4 2#4),
    (0x100006041000D000, .aminu 3#4 1#4 2#4),
    (0x100006041000E000, .amaxu 3#4 1#4 2#4),
    (0x100006040000F000, .amov 3#4 1#4),
    (0x1000060410710000, .asel 3#4 1#4 2#4 7#4),
    (0x1100060410000140, .aset .geu 3#4 1#4 2#4),
    (0x1200060580000000, .aaddi true 3#4 1#4 0x80000000#32),
    (0x1300060000000009, .ali false 3#4 9#32),
    (0x140006040000ABCD, .alih 3#4 1#4 0xABCD#32)] = true := by decide +kernel

theorem test_decode_integer : decodesAs [
    (0x200BC80610000001, .vadd .u32 5#3 true 100#7 1#7 66#7),
    (0x200BC80610001001, .vsub .u32 5#3 true 100#7 1#7 66#7),
    (0x200BC80610002001, .vmul .u32 5#3 true 100#7 1#7 66#7),
    (0x200BC80610003001, .vmulh .u32 5#3 true 100#7 1#7 66#7),
    (0x200BC80610004001, .vmin .u32 5#3 true 100#7 1#7 66#7),
    (0x200BC80610005001, .vmax .u32 5#3 true 100#7 1#7 66#7),
    (0x200BC80400006000, .vabs 5#3 true 100#7 1#7),
    (0x200BC80400007001, .vneg .u32 5#3 true 100#7 1#7),
    (0x200BC80610008001, .vand .u32 5#3 true 100#7 1#7 66#7),
    (0x200BC80610009001, .vor .u32 5#3 true 100#7 1#7 66#7),
    (0x200BC8061000A001, .vxor .u32 5#3 true 100#7 1#7 66#7),
    (0x200BC8040000B001, .vnot .u32 5#3 true 100#7 1#7),
    (0x200BC8061000C001, .vshl .u32 5#3 true 100#7 1#7 66#7),
    (0x200BC8061000D001, .vshr .u32 5#3 true 100#7 1#7 66#7),
    (0x200BC8061000E001, .vsar .u32 5#3 true 100#7 1#7 66#7),
    (0x2005C8041030F001, .vmad .u32 2#3 true 100#7 1#7 2#7 3#7),
    (0x21020A24500000C0, .vcmp .ge 1#3 false 5#3 9#7 10#7)] = true := by decide +kernel

theorem test_decode_masks : decodesAs [
    (0x2200020818000000, .kand 1#3 2#3 3#3),
    (0x2200020818001000, .kor 1#3 2#3 3#3),
    (0x2200020818002000, .kxor 1#3 2#3 3#3),
    (0x2200020818003000, .kandn 1#3 2#3 3#3),
    (0x2200020800004000, .knot 1#3 2#3),
    (0x2200020800005000, .kmov 1#3 2#3),
    (0x2200120800006000, .kpop 9#4 2#3),
    (0x2200120800007000, .kfirst 9#4 2#3),
    (0x2200023000008000, .kset 1#3 12#4)] = true := by decide +kernel

theorem test_decode_moves : decodesAs [
    (0x23030E08FFFFFFFF, .vli 1#3 true 7#7 2#4 0xFFFFFFFF#32),
    (0x240208240000000F, .vbcast 15#4 1#3 false 4#7 9#7),
    (0x2502080000000000, .viota 1#3 false 4#7),
    (0x2502082450001000, .vperm 1#3 false 4#7 9#7 10#7),
    (0x2502082400002003, .vrotl 3#4 1#3 false 4#7 9#7),
    (0x250008240000300F, .vext 15#4 4#4 9#7),
    (0x2500082400004002, .vins 2#4 4#7 9#4),
    (0x2503082400005000, .vmov 1#3 true 4#7 9#7),
    (0x2600001C18000000, .linkw .up 7#7 3#4),
    (0x26000E0000001001, .linkwArm .down 7#7)] = true := by decide +kernel

theorem test_decode_reductions : decodesAs [
    (0x2702082400000001, .vredsum .u32 1#3 false 4#7 9#7),
    (0x2702082400001001, .vredmin .u32 1#3 false 4#7 9#7),
    (0x2702082400002001, .vredmax .u32 1#3 false 4#7 9#7),
    (0x2702082400003001, .vredand .u32 1#3 false 4#7 9#7),
    (0x2702082400004001, .vredor .u32 1#3 false 4#7 9#7),
    (0x2702082400005001, .vredxor .u32 1#3 false 4#7 9#7),
    (0x2702082400008001, .vscan .u32 1#3 false 4#7 9#7),
    (0x2702082400009001, .vscanx .u32 1#3 false 4#7 9#7)] = true := by decide +kernel

theorem test_decode_floating : decodesAs [
    (0x4002080410000013, .vfadd .bf16 .ru 1#3 false 4#7 1#7 2#7),
    (0x4002080410001013, .vfsub .bf16 .ru 1#3 false 4#7 1#7 2#7),
    (0x4002080410002013, .vfmul .bf16 .ru 1#3 false 4#7 1#7 2#7),
    (0x4002080410303013, .vfma .bf16 .ru 1#3 false 4#7 1#7 2#7 3#7),
    (0x4002080410304013, .vfms .bf16 .ru 1#3 false 4#7 1#7 2#7 3#7),
    (0x4002080410305013, .vfnma .bf16 .ru 1#3 false 4#7 1#7 2#7 3#7),
    (0x4002080410006003, .vfmin .bf16 1#3 false 4#7 1#7 2#7),
    (0x4002080410007003, .vfmax .bf16 1#3 false 4#7 1#7 2#7),
    (0x4002080400008003, .vfabs .bf16 1#3 false 4#7 1#7),
    (0x4002080400009003, .vfneg .bf16 1#3 false 4#7 1#7),
    (0x41020A2450000082, .vfcmp .lt .f32 1#3 false 5#3 9#7 10#7),
    (0x4202080400000002, .vfrcpa 1#3 false 4#7 1#7),
    (0x4202080400001002, .vfrsqa 1#3 false 4#7 1#7),
    (0x4202080400002002, .vfexp2a 1#3 false 4#7 1#7),
    (0x4202080400003002, .vflog2a 1#3 false 4#7 1#7),
    (0x4302080400000022, .vfredsum .f32 .dyn 1#3 false 4#7 1#7),
    (0x4302080400001002, .vfredmin .f32 1#3 false 4#7 1#7),
    (0x4302080400002002, .vfredmax .f32 1#3 false 4#7 1#7),
    (0x430208040000801A, .vfscan .f32 .rd 1#3 false 4#7 1#7),
    (0x430208040000900A, .vfscanx .f32 .rz 1#3 false 4#7 1#7),
    (0x4400080400000088, .vcvt .i32 .f32 .rz 0#3 false 4#7 1#7),
    (0x4560080400000084, .vcvtFp8 6#4 .e4m3 .f32 .rn 0#3 false 4#7 1#7),
    (0x4560080410001085, .vcvtsc 6#4 .e5m2 .f32 .rn 0#3 false 4#7 1#7 2#7)] = true := by decide +kernel

theorem test_decode_local : decodesAs [
    (0x60030C14C0FFFFFC, .lld .plain 1#3 true 6#7 5#7 3#4 0xFFFFFC#24),
    (0x61020C14C1000004, .lst .x 1#3 6#7 5#7 3#4 4#24),
    (0x62030C14C1FFFFFC, .lldx .x 1#3 true 6#7 5#7 3#4 0xFFFFFC#24),
    (0x63020C14C0000008, .lstx .plain 1#3 6#7 5#7 3#4 8#24),
    (0x640005FCC0000008, .ald .plain 2#4 3#4 8#24),
    (0x650005FCC1000008, .ast .x 2#4 3#4 8#24),
    (0x66020DFCC0000000, .ltag 1#3 false 6#7 127#7 3#4 0#24),
    (0x67000C14C0000000, .stag 0#3 6#7 5#7 3#4 0#24),
    (0x68000C14C0000000, .lpeek 0#3 false 6#7 5#7 3#4 0#24),
    (0x6900001028000000, .rgnset 4#4 5#4),
    (0x6900001028001000, .tbld 4#7 5#4),
    (0x6900001000002000, .tbsw 4#4),
    (0x6900080028003000, .tbrd 4#7 5#4)] = true := by decide +kernel

theorem test_decode_global : decodesAs [
    (0x70300DFCC0000080, .gld 3#4 0#3 false 6#7 127#7 3#4 128#24),
    (0x71040C04C0000008, .gst 2#3 6#7 1#7 3#4 8#24),
    (0x72F50C04C0000008, .gldx 15#4 2#3 true 6#7 1#7 3#4 8#24),
    (0x73040C04C0000008, .gstx 2#3 6#7 1#7 3#4 8#24),
    (0x74040004C0000008, .gpf 2#3 1#7 3#4 8#24),
    (0x75040004C0000008, .ginv 2#3 1#7 3#4 8#24),
    (0x801005FCC1000000, .lease 1#4 .medium 2#4 3#4 0#24),
    (0x81050C04C0000008, .sld 2#3 true 6#7 1#7 3#4 8#24),
    (0x82040C04C0000008, .sst 2#3 6#7 1#7 3#4 8#24),
    (0x8300040C00000000, .release 2#4 3#4),
    (0x8400040C00000000, .lstat 2#4 3#4),
    (0x85000410D8000000, .amo 0#4 .swap true 2#4 4#4 3#4 0#24),
    (0x8600000000000019, .fence .rel .device),
    (0x8700000000000000, .commit),
    (0x8800000000000000, .isync)] = true := by decide +kernel

theorem test_decode_barriers : decodesAs [
    (0x90000008000001FF, .bini 511#9 2#4),
    (0x9000000800001005, .barr 5#9 2#4),
    (0x90000A1000002009, .bwait 9#9 5#4 4#4),
    (0x90000C0000003009, .barw 9#9 6#4),
    (0x9000000800004009, .bexp 9#9 2#4),
    (0x90000C0000005209, .bphs 9#9 true 6#4),
    (0x9000000000006009, .bclr 9#9),
    (0x910000100000003F, .odecl 63#6 4#4),
    (0x9100000000001003, .oseal 3#6),
    (0x9100001028602003, .ocopy 3#6 4#4 5#4 6#4),
    (0x9100000000003003, .oreopen 3#6),
    (0x9100000000004003, .ofree 3#6),
    (0x910004000000503F, .ostat 63#6 2#4)] = true := by decide +kernel

theorem test_decode_tasks : decodesAs [
    (0xA000001400000000, .tqcfg 5#7),
    (0xA000001410001000, .tqpush 5#7 2#4),
    (0xA006002820602000, .tqpushv 3#3 10#7 4#4 6#7),
    (0xA000001400003000, .tend 5#3),
    (0xA000001400004000, .tabort 5#3),
    (0xA000041400005000, .tqstat 2#4 5#4),
    (0xA100001028000000, .mbsend 4#7 5#4),
    (0xA100182400001000, .mbrecv 12#7 9#4),
    (0xA100182400002000, .mbpoll 12#7 9#4),
    (0xA806124000000004, .split 3#3 9#7 16#7 4#32),
    (0xA900060000000004, .refill 3#3 4#32),
    (0xAA00000C00000000, .join 3#3),
    (0xAA00060000001000, .lanes 3#3),
    (0xB020042400000000, .mqpush 2#4 2#4 9#7),
    (0xB120042400000000, .cqpush 2#4 2#4 9#7),
    (0xB200042400000000, .qstat 2#4 9#4)] = true := by decide +kernel

theorem test_decode_attention : decodesAs [
    (0xC000040C48000000, .kvlook 0#4 2#4 3#4 9#7),
    (0xC100040C48000000, .kvins 2#4 3#4 9#4),
    (0xC200047940900000, .kvapp 2#4 30#7 40#7 9#4),
    (0xC300040C00000000, .kvfree 2#4 3#4),
    (0xC400000C48000000, .kvpos 3#4 9#4),
    (0xC50009FC80000010, .ldkr 0#4 0#3 false 4#7 2#4 16#24),
    (0xC60001FC80000040, .rtab 2#4 64#24),
    (0xC700040C0000000F, .migr 0#4 15#4 2#4 3#4)] = true := by decide +kernel

theorem test_decode_system : decodesAs [
    (0xD000040000000000, .mfs .pc 2#4),
    (0xD100000800000001, .mts .tsw 2#4),
    (0xD200020818400000, .spawn 1#4 2#4 3#4 4#4),
    (0xD300000800000000, .kill 2#4),
    (0xD40000080000FFFE, .trap 2#4 0xFFFE#32),
    (0xD500000818400000, .eret 2#4 3#4 4#4),
    (0xD600000000000000, .park),
    (0xD700040C00000000, .wake 2#4 3#4),
    (0xD800000800000000, .plbinv 2#4),
    (0xD900000C20000000, .tlbinv 3#4 4#4),
    (0xDA00040C00000000, .profRd 2#4 3#4),
    (0xDA00000800001000, .profClr 2#4),
    (0xDA00040C00002000, .profLease 2#4 3#4),
    (0xDB00000000000000, .brk)] = true := by decide +kernel

theorem test_decode_tile : tileDecodesAs [
    (false, 0x4800000000000000000000000000000000000000000000000000000000000, .tnop ⟨9#9, false, 0#16⟩),
    (true, 0x4800000000000000000000000000000000000000000000000000000000000, .tnop ⟨9#9, false, 0#16⟩),
    (false, 0x1048000000000000000000000000000000000000000000000000000000002ac, .fmtSet ⟨9#9, false, 0#16⟩ 0x2AC#32),
    (false, 0x204800000600000000000000000000000000000000000000000000000000000, .accZero ⟨9#9, false, 0#16⟩ 1#2 2#2),
    (false, 0x304800000500080000000000001000000000000000000000000020000000000, .accLoad ⟨9#9, false, 0#16⟩ ⟨1#2, 1#2, true, 0x10000#64, 512#32⟩),
    (false, 0x404800000400000000000000001000000000000000000000000040000000000, .accStore ⟨9#9, false, 0#16⟩ ⟨1#2, 0#2, false, 0x10000#64, 1024#32⟩),
    (false, 0x504800000c00000000000000000000000000000000000000000000000000000, .accRel ⟨9#9, false, 0#16⟩ 3#2 0#2),
    (false, 0x200000000000000021000000000000000000000000000000000001004c00001000140000000000001000000000000000000450000010000000000, .mm ⟨9#9, true, 1#16⟩ ⟨0#2, 0#2, 0#2, 1#8, false, true, 0x10000#64, 0x45#64, 256#32, 0#32, 0x20000#64, 0x21000#64⟩),
    (false, 0x3004800000ff8000000000000000000000000000000000000000000000000000, .sig ⟨9#9, false, 0#16⟩ 511#9),
    (true, 0x310480000002c000000000000000000000000000000000000000000000000000, .twait ⟨9#9, false, 0#16⟩ 5#9 true),
    (true, 0x3204800000000000000000000000000000000000000000000000000000000000, .tfence ⟨9#9, false, 0#16⟩),
    (true, 0x2004800000000040000000000001000000000000000004000000010000000000, .cpCopy ⟨9#9, false, 0#16⟩ ⟨false, true, false, 0x10000#64, 0x400#64, 256#32, 0#32, 0#64, 0#32, 0#8, 0#4⟩),
    (true, 0x8000000004000000000000000000000000000000000000000002104800000000020000000000001000000000000000004000000010000000007, .cpGather ⟨9#9, false, 0#16⟩ ⟨false, false, true, 0x10000#64, 0x400#64, 256#32, 7#32, 0x800#64, 64#32, 0#8, 0#4⟩),
    (true, 0x8000000004000000000000000000000000000000000000000002204800000000080000000000001000000000000000004000000010000000007, .cpScatter ⟨9#9, false, 0#16⟩ ⟨true, false, false, 0x10000#64, 0x400#64, 256#32, 7#32, 0x800#64, 64#32, 0#8, 0#4⟩),
    (true, 0x230480000000004000000000000000000000000000000400000001000000abcd, .cpFill ⟨9#9, false, 0#16⟩ ⟨false, true, false, 0#64, 0x400#64, 256#32, 0xABCD#32, 0#64, 0#32, 0#8, 0#4⟩),
    (true, 0x2100000000000000000000000000000000000002404800000000080000000000001000000000000000004000000002100000000, .cpSpred ⟨9#9, false, 0#16⟩ ⟨true, false, false, 0x10000#64, 0x400#64, 33#32, 0#32, 0#64, 0#32, 2#8, 1#4⟩),
    (true, 0x880000000000000000000000000000000000000000000000004004800000003700000000000001000000000000000004080000000c00000000, .kvImp ⟨9#9, false, 0#16⟩ ⟨3#4, 7#4, 0x10000#64, 0x408#64, 12#32, 0x88#64⟩),
    (true, 0x880000000000000000000000000000000000000000000000004104800000000000000000000001010000000000000005000000000c00000000, .kvExp ⟨9#9, false, 0#16⟩ ⟨0#4, 0#4, 0x10100#64, 0x500#64, 12#32, 0x88#64⟩)] = true := by decide +kernel

/-! ### Witnesses: for each statement, states and operands that meet its hypotheses, clause by clause -/

/-- A privileged slot in seat 0 with a full window and nothing outstanding. -/
def sl : Slot := { Slot.init with st := .seated 0, pc := 0x1000#64, tsw := 0x100#32, winCount := 128, laneSet := 0xFFFF#16 }
/-- The same with some a-registers. -/
def sa (as : List (Nat × W64)) : Slot := { sl with aregs := ⟨as⟩ }
/-- A core whose map has a region of 64 KiB under table 0 and, behind it, a buffer of 256 records, all of launch 0. -/
def cr : Core := { Core.init with map := ⟨[(0, 0x800F0000#32), (1, 0x810F0010#32)]⟩, plb := [⟨0, 0, 0xF#16⟩] }
/-- Launch 0, resident on cores 0 to 3, with two entries. -/
def la : Launch := { launchOf .reset 0 0#512 (.host 0) with st := .resident, read := true, len := 4, nslots := 1, entries := [0, 64] }
/-- The running device: terrace 0 with cores 0 to 7, one page of 2 MiB mapped at 0, launch 0. -/
def dv : Dev := { Dev.reset with
  up := true, stage := 7, launches := ⟨[(0, la)]⟩, terr := ⟨[(0, { Terrace.init with w0 := 0x0000080200000000#64 })]⟩
  xl := ⟨[(0, [⟨0, 2 ^ 21, 0x1E#64, BitVec.allOnes 64⟩])]⟩ }
/-- Slot 0 of core 0 presents the word 0: the slot, what else the core and the device hold, and memory. -/
def mk (s : Slot) (c : Core) (d : Dev) (m : List Host.Cell) : State :=
  ⟨⟨m⟩, { d with cur := .slot 0 0 0#64, cores := ⟨(0, { c with slots := ⟨(0, s) :: c.slots.ents⟩ }) :: d.cores.ents⟩ }⟩

/-- Slot 0 of core 0 may issue. -/
abbrev Free (s : State) (u : Use) : Prop :=
  s.dev.cur = .slot 0 0 0#64 ∧ ((s.ctx 0 0 0#64).gate u).isNone = true ∧ (s.dev.slot 0 0).stepReq = false
theorem issues_of {s : State} {u : Use} (h : Free s u := by decide +kernel) : s.issues 0 0 0#64 u := ⟨h.1, by simpa using h.2.1, h.2.2⟩
/-- Some slot may issue and meets what a statement asks beside that. -/
def Can (u : Use) (pre : Ctx → Prop) : Prop := ∃ s : State, ∃ h n w, s.issues h n w u ∧ pre (s.ctx h n w)
theorem can {u : Use} {pre : Ctx → Prop} (s : State) (hp : pre (s.ctx 0 0 0#64) := by decide +kernel) (h : Free s u := by decide +kernel) : Can u pre :=
  ⟨s, 0, 0, 0#64, issues_of h, hp⟩
/-- Some memory and device meet what a statement about an event asks. -/
def Has (pre : Memory → Dev → Prop) : Prop := ∃ m d, pre m d
theorem has {pre : Memory → Dev → Prop} (d : Dev) (h : pre ⟨[]⟩ d := by decide +kernel) : Has pre := ⟨⟨[]⟩, d, h⟩
theorem hasIn {pre : Memory → Dev → Prop} (m : List Host.Cell) (d : Dev) (h : pre ⟨m⟩ d := by decide +kernel) : Has pre := ⟨⟨m⟩, d, h⟩
/-- Some command at the head of its queue meets what a statement about it asks. -/
def HasCmd (pre : QCtx → List Cmd → Prop) : Prop :=
  ∃ s : State, ∃ h cq c r, s.dev.cur = .queue h cq ∧ ((s.dev.core h).eq cq).q = c :: r ∧ pre ⟨s.mem, h, cq, c, s.dev⟩ r

/-- A command that owes 8 bytes to barrier 9. -/
def cm : Cmd := ⟨3, 0#512, none, 9, 0, 0, 0#64, 0#48, false, false, 0, false, 8, 8, [], .empty, [], [], .empty, .empty, [], 0#64, 0, none⟩

/-- The plainest state: nothing but the slot. -/
def w0 : State := mk sl .init .reset []

theorem witness_AddressArithmetic :
    w0.issues 0 0 0#64 (useA [wa 3#4, ra 1#4, ra 2#4]) ∧ w0.issues 0 0 0#64 (useA [wa 0#4, ra 1#4]) ∧
    w0.issues 0 0 0#64 (useA [wa 15#4, ra 1#4, ra 2#4, ra 7#4]) ∧ w0.issues 0 0 0#64 (useA [wa 3#4]) :=
  ⟨issues_of, issues_of, issues_of, issues_of⟩
theorem witness_ControlTransfers_issue : w0.issues 0 0 0#64 (useA []) ∧ w0.issues 0 0 0#64 (useA [ra 1#4, ra 2#4]) ∧
    w0.issues 0 0 0#64 (useA [rk 7#3]) ∧ w0.issues 0 0 0#64 (useA [wa 15#4]) ∧ w0.issues 0 0 0#64 (useA [wa 4#4, ra 4#4]) :=
  ⟨issues_of, issues_of, issues_of, issues_of, issues_of⟩
theorem witness_ControlTransfers : 
    Can (useA [ra 1#4, wa 15#4]) (fun c => (c.s.A 1).toNat % 8 = 0) ∧ Can (useA [ra 15#4]) (fun c => (c.s.A 15).toNat % 8 = 0) ∧
    Can (useA [ra 1#4, wa 15#4]) (fun c => (c.s.A 1).toNat % 8 ≠ 0) ∧ Can (useA [ra 15#4]) (fun c => (c.s.A 15).toNat % 8 ≠ 0) :=
  ⟨can (mk (sa [(1, 0xFFFFFFFFFFFFFFF8#64)]) .init .reset []),
   can (mk (sa [(15, 8#64)]) .init .reset []),
   can (mk (sa [(1, 7#64)]) .init .reset []),
   can (mk (sa [(15, 0xFFFFFFFFFFFFFFFF#64)]) .init .reset [])⟩
theorem witness_YieldAndNop : Can (useA []) (fun _ => True) := can w0 trivial
/-- A READY slot whose lease ends in the next cycle, and one whose lease ends now. -/
theorem witness_YieldAndNop_bound : (0 : Nat) < 64 ∧
    let l : LeaseRec := ⟨0x80, 0x80, .medium, true, false, 0, 300, 0#1024, 0#128, false, 7⟩
    let s := fun t => mk { sl with st := .ready, leases := [l] } cr { dv with clock := t } []
    (((s 299).dev.slot 0 0).st = .ready ∧ l ∈ ((s 299).dev.slot 0 0).leases ∧ l.granted = true ∧ l.broken = false ∧ (s 299).dev.agenda = [] ∧
      (s 299).dev.up = true ∧ l.expiry = (s 299).dev.clock + 1) ∧
    l ∈ ((s 300).dev.slot 0 0).leases ∧ ((s 300).dev.slot 0 0).st = .ready ∧ l.expiry ≤ (s 300).dev.clock := by decide +kernel
/-- A slot READY since before the one that yields is chosen first. -/
theorem witness_YieldAndNop_order : readyBefore (1, { sl with st := .ready }) (0, { sl with st := .ready, yielded := true }) = true := by decide
theorem witness_VectorIntegerForms : w0.issues 0 0 0#64 (useDAB 1#3 true 127#7 1#7 2#7) ∧ w0.issues 0 0 0#64 (useDA 0#3 false 0#7 0#7) ∧
    w0.issues 0 0 0#64 (useDABC 7#3 false 3#7 3#7 3#7 3#7) :=
  ⟨issues_of, issues_of, issues_of⟩
theorem witness_ComparesAndMasks : w0.issues 0 0 0#64 ((useV [1#7, 2#7] [wk 5#3, rv 1#7, rv 2#7]).masked 1#3 true) ∧
    w0.issues 0 0 0#64 (useA [wk 0#3, rk 1#3, rk 2#3]) ∧ w0.issues 0 0 0#64 (useA [wk 1#3, ra 9#4]) ∧ w0.issues 0 0 0#64 (useA [wa 1#4, rk 2#3]) :=
  ⟨issues_of, issues_of, issues_of, issues_of⟩
theorem witness_LanesReadsLaneSet : w0.issues 0 0 0#64 (useA [wk 3#3]) := issues_of
theorem witness_LaneMovesAndReductions : w0.issues 0 0 0#64 ((useV [5#7] [wv 5#7, ra 2#4]).masked 1#3 true) ∧
    w0.issues 0 0 0#64 (useV [9#7] [wa 4#4, rv 9#7]) ∧ w0.issues 0 0 0#64 { useV [4#7] [wv 4#7, ra 9#4] with wr := .one } ∧
    w0.issues 0 0 0#64 (useDA 1#3 false 4#7 9#7) :=
  ⟨issues_of, issues_of, issues_of, issues_of⟩
theorem witness_FloatingForms : w0.issues 0 0 0#64 (useDABC 1#3 true 4#7 1#7 2#7 3#7) ∧ w0.issues 0 0 0#64 (useDA 1#3 true 4#7 4#7) :=
  ⟨issues_of, issues_of⟩
/-- The largest FP8 element, and a subnormal one, are no NaN. -/
theorem witness_RoundingKeepsRepresentable : (0x7E#32).toNat < 2 ^ (1 + Fmt.e4m3.expBits + Fmt.e4m3.frac) ∧
    decF .e4m3 false 0x7E#32 ≠ .nan ∧ decF .e4m3 false 0x81#32 ≠ .nan ∧ decF .bf16 false 0xFF80#32 ≠ .nan := by decide
/-- A load whose one access is answered. -/
def op7 : LongOp := ⟨7, 0x1000#64, .gld 5, [5], [], 1#16, false, [⟨0, 0, 0x80#64, .got, 0x11#1024, 0#128, 0⟩], [], [], 0#64, 0#64, true⟩
theorem witness_LongConversions :
    Can ((useDA 1#3 true 4#7 1#7).long 3#4) (fun _ => True) ∧
    Can (((useDAB 1#3 true 4#7 1#7 2#7).also (wvn 5)).long 0#4) (fun _ => True) ∧
    (∃ s : State, (0 : Nat) < 64 ∧ s.dev.op? 0 0 7 = some op7 ∧ op7.fin = true ∧ (op7.vectors.map (·.1)).Nodup) :=
  ⟨can w0 trivial, can w0 trivial, mk { sl with ops := [op7] } .init .reset [], by decide +kernel⟩
/-- Decidable forms of what the statements ask of an address. -/
def plainB (c : Ctx) (load : Bool) (a : W64) : Bool :=
  decide (a.toNat < 2 ^ 20) &&
  (match (c.d.core c.h).regionOf a.toNat with | some e => decide (e.1 / 16 = c.s.lk ∧ rgnTbl e.2 = 0) | none => false) &&
  (c.d.core c.h).parked.all (fun p => p.addr != a.toNat) &&
  (if load then !(c.d.core c.h).lsPoison.contains (a.toNat / 4) else !(c.d.core c.h).sealedAt a.toNat) && !(c.d.core c.h).unrestored a.toNat
theorem plain_of {c : Ctx} {load : Bool} {a : W64} (h : plainB c load a = true) : c.plainWord load a := by
  unfold plainB at h
  simp only [Bool.and_eq_true, decide_eq_true_eq] at h
  obtain ⟨⟨⟨⟨h1, h2⟩, h3⟩, h4⟩, h5⟩ := h
  refine ⟨h1, ?_, ?_, by simpa using h5, ?_, ?_⟩
  · split at h2
    · rename_i e he; exact ⟨e.1, e.2, he, by simpa using h2⟩
    · simp at h2
  · intro p hp; simpa using List.all_eq_true.mp h3 p hp
  · intro hl; simpa [hl] using h4
  · intro hl; simpa [hl] using h4
/-- Every active lane's words are plain. -/
theorem lanes_plain {c : Ctx} {load : Bool} {k : BitVec 16} {f : Nat → W64} {step : Nat} (hs : step = 4 ∨ step = 8)
    (h : ∀ l, l < 16 → k.getLsbD l = true → (f l).toNat % step = 0 ∧ plainB c load (f l) = true ∧ plainB c load (f l + 4#64) = true) :
    ∀ l, l < 16 → k.getLsbD l = true → (f l).toNat % step = 0 ∧ ∀ p, 4 * p < step → c.plainWord load (f l + BitVec.ofNat 64 (4 * p)) := by
  intro l hl hk
  obtain ⟨h1, h2, h3⟩ := h l hl hk
  refine ⟨h1, fun p hp => ?_⟩
  have : p = 0 ∨ p = 1 := by omega
  rcases this with rfl | rfl
  · simpa using plain_of h2
  · exact plain_of h3
def mappedB (c : Ctx) (need : List Right) (va : W64) (pa : Nat) : Bool :=
  decide (va.toNat < 2 ^ 57) && !isWindow va && (match c.d.findLeaf (districtOf c.h) va.toNat with
    | some lf => decide (c.d.protect c.m (c.s.who c.h) need lf = some none ∧ pa = lf.pa va.toNat)
    | none => false)
theorem mapped_of {c : Ctx} {need : List Right} {va : W64} {pa : Nat} (h : mappedB c need va pa = true) : c.mapped need va pa := by
  unfold mappedB at h
  simp only [Bool.and_eq_true, decide_eq_true_eq, Bool.not_eq_true'] at h
  obtain ⟨⟨h1, h2⟩, h3⟩ := h
  refine ⟨h1, h2, ?_⟩
  split at h3
  · rename_i lf hlf; exact ⟨lf, hlf, by simpa using h3⟩
  · simp at h3
theorem quiet_of {c : Ctx} (h : c.sure ∧ c.s.closed = false ∧ c.openRecs = [] ∧ c.d.allVisible c.h c.n = true) : c.quiet :=
  ⟨h.1, h.2.1, h.2.2.1, h.2.2.2⟩

/-- Lanes 0 to 7 active, base a3 at the end of the region of table 0. -/
def ls : State := mk { sa [(1, 3#64), (3, 0xFFE0#64), (4, 0x80000#64)] with kregs := ⟨[(1, 0xFF#16)]⟩ } cr dv []
theorem witness_LocalAccesses :
    Can (useLoad 1#3 true 5#7 127#7 3#4) (fun c => c.s.residue = [] ∧ ∀ l, l < 16 → (c.s.K 1).getLsbD l = true →
      (c.s.addr 3#4 127#7 0#24 4 l).toNat % 4 = 0 ∧ ∀ p, 4 * p < 4 → c.plainWord true (c.s.addr 3#4 127#7 0#24 4 l + BitVec.ofNat 64 (4 * p))) ∧
    Can ((useLoad 1#3 true 6#7 127#7 3#4).also (wvn 7)) (fun c => c.s.residue = [] ∧ ∀ l, l < 16 → (c.s.K 1).getLsbD l = true →
      (c.s.addr 3#4 127#7 0xFFFFE0#24 8 l).toNat % 8 = 0 ∧ ∀ p, 4 * p < 8 → c.plainWord true (c.s.addr 3#4 127#7 0xFFFFE0#24 8 l + BitVec.ofNat 64 (4 * p))) ∧
    Can (useA [wa 5#4, ra 3#4]) (fun c => c.s.residue = [] ∧ (c.s.addr1 3#4 0#24).toNat % 8 = 0 ∧ c.plainWord true (c.s.addr1 3#4 0#24) ∧
      c.plainWord true (c.s.addr1 3#4 0#24 + 4#64)) ∧
    Can (useStore 1#3 6#7 127#7 3#4) (fun c => c.s.residue = [] ∧ ∀ l, l < 16 → (c.s.K 1).getLsbD l = true →
      (c.s.addr 3#4 127#7 0#24 4 l).toNat % 4 = 0 ∧ ∀ p, 4 * p < 4 → c.plainWord false (c.s.addr 3#4 127#7 0#24 4 l + BitVec.ofNat 64 (4 * p))) ∧
    Can ((useStore 1#3 6#7 127#7 3#4).also (rvn 7)) (fun c => c.s.residue = [] ∧ ∀ l, l < 16 → (c.s.K 1).getLsbD l = true →
      (c.s.addr 3#4 127#7 0xFFFFE0#24 8 l).toNat % 8 = 0 ∧ ∀ p, 4 * p < 8 → c.plainWord false (c.s.addr 3#4 127#7 0xFFFFE0#24 8 l + BitVec.ofNat 64 (4 * p))) ∧
    Can (useA [ra 5#4, ra 3#4]) (fun c => c.s.residue = [] ∧ (c.s.addr1 3#4 0#24).toNat % 8 = 0 ∧ c.plainWord false (c.s.addr1 3#4 0#24) ∧
      c.plainWord false (c.s.addr1 3#4 0#24 + 4#64)) := by
  refine ⟨can ls ⟨rfl, lanes_plain (.inl rfl) ?_⟩, can ls ⟨rfl, lanes_plain (.inr rfl) ?_⟩, can ls ⟨rfl, by decide +kernel, plain_of ?_, plain_of ?_⟩,
    can ls ⟨rfl, lanes_plain (.inl rfl) ?_⟩, can ls ⟨rfl, lanes_plain (.inr rfl) ?_⟩, can ls ⟨rfl, by decide +kernel, plain_of ?_, plain_of ?_⟩⟩
  all_goals decide +kernel
theorem witness_MisalignedAccessesTrap :
    Can (useLoad 1#3 true 6#7 127#7 1#4) (fun c => c.s.residue = [] ∧ (0 : Nat) < 16 ∧ (c.s.K 1).getLsbD 0 = true ∧
      (c.s.addr 1#4 127#7 0#24 4 0).toNat % 4 ≠ 0 ∧ ∀ m, m < 0 → (c.s.K 1).getLsbD m = true → (c.s.addr 1#4 127#7 0#24 4 m).toNat % 4 = 0) ∧
    Can ((useStore 1#3 6#7 2#7 4#4).also (rvn 7)) (fun c => c.s.residue = [] ∧ (1 : Nat) < 16 ∧ (c.s.K 1).getLsbD 1 = true ∧
      (c.s.addr 4#4 2#7 0#24 8 1).toNat % 8 ≠ 0 ∧ ∀ m, m < 1 → (c.s.K 1).getLsbD m = true → (c.s.addr 4#4 2#7 0#24 8 m).toNat % 8 = 0) ∧
    Can (useA [wa 5#4, ra 1#4]) (fun c => c.s.residue = [] ∧ (c.s.addr1 1#4 4#24).toNat % 8 ≠ 0) ∧
    Can ((useLoad 1#3 true 6#7 127#7 1#4).long 15#4) (fun c => (15 : Nat) < 16 ∧ (c.s.K 2).getLsbD 15 = true ∧
      (c.s.addr 1#4 127#7 0#24 4 15).toNat % 4 ≠ 0 ∧ ∀ m, m < 15 → (c.s.K 2).getLsbD m = true → (c.s.addr 1#4 127#7 0#24 4 m).toNat % 4 = 0) :=
  ⟨can ls, can (mk { sa [(4, 0x80000#64)] with kregs := ⟨[(1, 0xFF#16)]⟩, vregs := ⟨[(2, 0x4#512 <<< 32)]⟩ } cr dv []), can ls,
   can (mk { sa [(1, 2#64)] with kregs := ⟨[(2, 0x8000#16)]⟩ } cr dv [])⟩
/-- One table entry for each action: 0 performs and marks, 1 parks, 2 redirects, 3 traps, 4 completes with a code. -/
def tb (e : BitVec 16) : Core := { cr with
  map := ⟨[(0, 0x900F0000#32), (2, 0x800F0020#32)]⟩, gen0 := ⟨[(1, ⟨⟨[(0, e), (16, e)]⟩, ⟨[(0, 0x20000#32), (1, 0x30000#32)]⟩⟩)]⟩ }
theorem witness_BanksAndTags_actions :
    let at_ := fun (e : BitVec 16) => (tb e).regionOf 0xFFFC = some (0, 0x900F0000#32) ∧ (tb e).sealedAt 0xFFFC = false ∧
      (tb e).lsPoison.contains (0xFFFC / 4) = false ∧ (tb e).entry (rgnTbl 0x900F0000#32) (16 * BankKind.ld.code + ((tb e).tag 0xFFFC).toNat) = e ∧
      (tb e).entry (rgnTbl 0x900F0000#32) (16 * BankKind.st.code + ((tb e).tag 0xFFFC).toNat) = e
    (at_ 0#16 ∧ actOf 0#16 = 0) ∧ (∃ e, at_ e ∧ actOf e = 1) ∧
    (∀ b, ∃ e, at_ e ∧ actOf e = 2 ∧ (tb e).inLaunch 0 ((tb e).rbase 1 (redirOf e) + (0xFFFC - rgnBase 0x900F0000#32)) = b) ∧
    (∃ e, at_ e ∧ actOf e = 3) ∧ ∃ e, at_ e ∧ actOf e = 4 ∧ setTagOf e = true := by
  refine ⟨by decide +kernel, ⟨0x1#16, by decide +kernel⟩, fun b => ⟨if b then 0x2#16 else 0x202#16, by cases b <;> decide +kernel⟩, ⟨0x3#16, by decide +kernel⟩, ?_⟩
  exact ⟨0xFFF4#16 &&& 0xFFF7#16, by decide +kernel⟩
theorem witness_BanksAndTags : ∀ load : Bool,
    Can (if load then useLoad 1#3 true 5#7 127#7 3#4 else useStore 1#3 5#7 127#7 3#4) (fun c => (load = true → c.s.residue = []) ∧ ∀ l, l < 16 → (c.s.K 1).getLsbD l = true →
      (c.s.addr 3#4 127#7 0#24 4 l).toNat % 4 = 0 ∧ (c.s.addr 3#4 127#7 0#24 4 l).toNat < 2 ^ 20 ∧
      (c.d.core c.h).unrestored (c.s.addr 3#4 127#7 0#24 4 l).toNat = false ∧
      (c.d.core c.h).inLaunch c.s.lk (c.s.addr 3#4 127#7 0#24 4 l).toNat = true ∧
      if load then (c.d.core c.h).lsPoison.contains ((c.s.addr 3#4 127#7 0#24 4 l).toNat / 4) = false
      else (c.d.core c.h).sealedAt (c.s.addr 3#4 127#7 0#24 4 l).toNat = false ∧
        ∀ p, p ∈ (c.d.core c.h).parked → p.addr ≠ (c.s.addr 3#4 127#7 0#24 4 l).toNat) := by
  intro load; cases load <;> exact can ls
/-- The tables 1 and 7 are the launch's. -/
def tk : Core := { cr with tlk := ⟨[(1, 0), (7, 0)]⟩ }
theorem witness_RegionsAndTables :
    Can (useA [ra 1#4, ra 2#4]) (fun c => (c.s.A 1).toNat < 16 ∧
      (rgnV ((c.d.core c.h).map.get 0#32 (16 * c.s.lk + (c.s.A 1).toNat)) = true → rgnRole ((c.d.core c.h).map.get 0#32 (16 * c.s.lk + (c.s.A 1).toNat)) = 0) ∧
      (rgnV (BitVec.ofNat 32 (c.s.A 2).toNat) = true → (c.d.core c.h).badRegion c.s.lk (c.s.A 1).toNat (BitVec.ofNat 32 (c.s.A 2).toNat) = false) ∧
      (c.d.core c.h).parked = []) ∧
    (∀ g, g < 5 → Can (useV [4#7] [rv 4#7, ra 2#4])
      (fun c => (c.s.A 2).toNat < 128 ∧ (c.s.A 2).getLsbD 3 = false ∧ (c.s.A 2).toNat / 16 % 8 = g ∧ (c.d.core c.h).supplied c.s.lk ((c.s.A 2).toNat % 8) = true ∧
        (∀ l, l < 16 → badEntry ((c.s.ln 4#7 l).setWidth 16) = false ∧ badEntry ((c.s.ln 4#7 l).extractLsb' 16 16) = false) ∧
        ∀ l, l < 8 → badBase (c.s.ln 4#7 l) = false)) ∧
    Can (useA [ra 1#4]) (fun c => (c.s.A 1).toNat < 256 ∧ (c.s.A 1).getLsbD 0 = false ∧ c.s.A 1 ≠ 0#64 ∧
      ∀ n, n < 8 → (c.s.A 1).getLsbD n = true → (c.d.core c.h).supplied c.s.lk n = true) ∧
    Has (fun _ d => (d.core 0).parked = []) ∧
    Can (useV [4#7] [wv 4#7, ra 2#4]) (fun c => (c.s.A 2).toNat < 256 ∧ (c.s.A 2).getLsbD 3 = false ∧ (c.s.A 2).toNat / 16 % 8 ≤ 4 ∧
      (c.s.A 2).toNat % 8 = 0) ∧
    Can (useV [4#7] [wv 4#7, ra 2#4]) (fun c => (c.s.A 2).toNat < 256 ∧ (c.s.A 2).getLsbD 3 = false ∧ (c.s.A 2).toNat / 16 % 8 ≤ 4 ∧
      (c.s.A 2).toNat % 8 = 7 ∧ (c.d.core c.h).supplied c.s.lk 7 = true) ∧
    (let u := useV [4#7] [wv 4#7, ra 2#4]
     Can u (fun c => 256 ≤ (c.s.A 2).toNat) ∧ Can u (fun c => (c.s.A 2).getLsbD 3 = true) ∧ Can u (fun c => 4 < (c.s.A 2).toNat / 16 % 8) ∧
     Can u (fun c => (c.s.A 2).toNat % 8 ≠ 0 ∧ (c.d.core c.h).supplied c.s.lk ((c.s.A 2).toNat % 8) = false)) := by
  refine ⟨can (mk (sa [(1, 15#64), (2, 0x800000FF#64)]) cr dv []), fun g hg => ?_, can (mk (sa [(1, 0x82#64)]) tk dv []), ⟨⟨[]⟩, .reset, rfl⟩,
    can w0, can (mk (sa [(2, 0xC7#64)]) tk dv []), can (mk (sa [(2, 0x100#64)]) cr dv []), can (mk (sa [(2, 8#64)]) cr dv []),
    can (mk (sa [(2, 0x50#64)]) cr dv []), can (mk (sa [(2, 7#64)]) cr dv [])⟩
  have : g = 0 ∨ g = 1 ∨ g = 2 ∨ g = 3 ∨ g = 4 := by omega
  rcases this with rfl | rfl | rfl | rfl | rfl
  · exact can (mk (sa [(2, 1#64)]) tk dv [])
  · exact can (mk (sa [(2, 0x17#64)]) tk dv [])
  · exact can (mk (sa [(2, 0x21#64)]) tk dv [])
  · exact can (mk (sa [(2, 0x37#64)]) tk dv [])
  · exact can (mk (sa [(2, 0x41#64)]) tk dv [])
theorem witness_NeighbourLink :
    Can (useV [7#7] [rv 7#7, ra 3#4]) (fun c => c.sure ∧ neighbour c.h .up = some 1 ∧ (c.d.terrace (terrOf c.s.lk)).has 1 = true ∧
      (c.d.core 1).linkFull (Dir.flip .up) = false ∧ c.d.slotGroups c.h c.n = []) ∧
    Can (useV [7#7] [rv 7#7, ra 3#4]) (fun c => c.sure ∧ neighbour c.h .up = some 1 ∧ (c.d.terrace (terrOf c.s.lk)).has 1 = true ∧
      (c.d.core 1).linkFull (Dir.flip .up) = true) ∧
    Can (useV [7#7] [rv 7#7, ra 3#4]) (fun c => c.sure ∧ ∀ t, neighbour c.h .down = some t → (c.d.terrace (terrOf c.s.lk)).has t = false) ∧
    Can (useV [7#7] [wv 7#7]) (fun c => ((c.d.core c.h).heldLink .up).find? (fun e => e.1 == c.n && e.2.1 == 7 && e.2.2.1 == c.s.lk) = none) ∧
    Can (useV [7#7] [wv 7#7]) (fun c => (((c.d.core c.h).heldLink .down).find? (fun e => e.1 == c.n && e.2.1 == 7 && e.2.2.1 == c.s.lk)).isSome ∧
      (c.d.core c.h).linkQueue .down = []) ∧
    (let open_ := fun (d : Dev) => d.savedSlot 0 0 0 = none ∧ (d.core 0).linkQueue .up = [] ∧ (d.core 0).linkFull .up = false
     let away := fun (d : Dev) => (d.slot 0 0).st = .free ∨ (d.slot 0 0).lk ≠ 0 ∨ (d.slot 0 0).winCount ≤ 7
     let waits := fun (d : Dev) => (d.slot 0 0).vst.get .present 7 = .awaiting .up
     Has (fun _ d => open_ d ∧ away d ∧ (d.slot 0 0).st = .free) ∧ Has (fun _ d => open_ d ∧ away d ∧ (d.slot 0 0).lk ≠ 0) ∧
     Has (fun _ d => open_ d ∧ away d ∧ (d.slot 0 0).winCount = 7) ∧
     Has (fun _ d => open_ d ∧ ¬away d ∧ waits d ∧ (d.slot 0 0).winCount = 8) ∧
     Has (fun _ d => open_ d ∧ ¬away d ∧ ¬waits d) ∧
     Has (fun _ d => (d.core 0).linkFull .up = true)) := by
  refine ⟨can (mk sl cr dv []), can (mk sl cr { dv with cores := ⟨[(1, { Core.init with linkDown := List.replicate 4 (0, 7, 0, 1#512) })]⟩ } []),
    can (mk sl cr dv []) ⟨by decide, fun t h => by simp [neighbour, State.ctx] at h⟩, can w0,
    can (mk sl { cr with linkDown := [(0, 7, 0, 1#512)] } dv []), has .reset, has (mk { sl with lk := 1 } cr dv []).dev,
    has (mk { sl with winCount := 7 } cr dv []).dev, has (mk { sl with winCount := 8, vst := ⟨[(7, .awaiting .up)]⟩ } cr dv []).dev, has (mk sl cr dv []).dev,
    has (mk sl { cr with linkUp := List.replicate 4 (0, 7, 0, 1#512) } dv []).dev⟩
/-- Lanes 0 to 7 active, index register v2 with lane 1 at the lane 0 address; a3 at a mapped line. -/
def gs : State := mk { sa [(1, 0x1000#64), (3, 0x1FFF80#64)] with kregs := ⟨[(1, 0xFF#16), (2, 0x8000#16)]⟩ } cr dv []
theorem gs_mapped (q : Right) (hr : q = .r ∨ q = .w) (step : Nat) (hs : step = 4 ∨ step = 8) :
    ∀ l, l < 16 → (BitVec.getLsbD (0xFF#16) l) = true →
      ((gs.ctx 0 0 0#64).s.addr 3#4 127#7 0#24 step l).toNat % step = 0 ∧
      (gs.ctx 0 0 0#64).mapped [q] ((gs.ctx 0 0 0#64).s.addr 3#4 127#7 0#24 step l) (0x1FFF80 + step * l) := by
  have h : ∀ l, l < 16 → (BitVec.getLsbD (0xFF#16) l) = true →
      ((gs.ctx 0 0 0#64).s.addr 3#4 127#7 0#24 step l).toNat % step = 0 ∧
      mappedB (gs.ctx 0 0 0#64) [q] ((gs.ctx 0 0 0#64).s.addr 3#4 127#7 0#24 step l) (0x1FFF80 + step * l) = true := by
    rcases hr with rfl | rfl <;> rcases hs with rfl | rfl <;> decide +kernel
  exact fun l hl hk => ⟨(h l hl hk).1, mapped_of (h l hl hk).2⟩
theorem witness_GlobalReads_loads : ∀ step, step = 4 ∨ step = 8 →
    Can (if step = 4 then (useLoad 1#3 true 6#7 127#7 3#4).long 3#4 else ((useLoad 1#3 true 6#7 127#7 3#4).also (wvn 7)).long 3#4)
      (fun c => c.s.kind ≠ .ordered ∧ c.bufferAway = false ∧ ∀ l, l < 16 → (c.s.K 1).getLsbD l = true →
        let va := c.s.addr 3#4 127#7 0#24 step l
        va.toNat % step = 0 ∧ c.mapped [.r] va (0x1FFF80 + step * l) ∧ (c.d.core c.h).l1.find? (lineOf va.toNat) = none) := by
  intro step hs
  have h1 : ∀ l, l < 16 → ((gs.ctx 0 0 0#64).d.core 0).l1.find? (lineOf ((gs.ctx 0 0 0#64).s.addr 3#4 127#7 0#24 step l).toNat) = none := by
    rcases hs with rfl | rfl <;> decide +kernel
  refine can gs ⟨by decide, by decide +kernel, fun l hl hk => ?_⟩ (by rcases hs with rfl | rfl <;> decide +kernel)
  have h := gs_mapped .r (.inl rfl) step hs l hl hk
  exact ⟨h.1, h.2, h1 l hl⟩
def acc0 : Acc := ⟨0, 0, 0x80#64, .home 0x80, 0#1024, 0#128, 0⟩
theorem witness_GlobalReads :
    (let o := { op7 with acc := [acc0], fin := false }
     Has (fun _ d => d.op? 0 0 7 = some o ∧ o.acc[0]? = some acc0 ∧ acc0.st = .home 0x80 ∧ d.pending 0x80 = false ∧
       d.linePoison.contains (lineOf 0x80) = false ∧ (d.quay (d.slotFn 0 0) 0x80 false).isSome = true ∧
       ((d.slot 0 0).ops.takeWhile (fun x => x.id != 7)).any (fun x => x.reads acc0.va 0x80) = false ∧
       ((0 : Nat) = 0 → ∀ v off rot, o.kind ≠ .ldkr v off rot))) ∧
    (let u : Use := ⟨idxField 127#7, [], idxUse 127#7 ++ [ra 1#4, rk 2#3], none, .all, false⟩
     let va := fun (c : Ctx) l => c.s.addr 1#4 127#7 0#24 4 l
     Can u (fun c => (15 : Nat) < 16 ∧ c.s.K 2 = 1#16 <<< 15 ∧ (c.d.core c.h).l1.find? (lineOf (va c 15).toNat) = none ∧ c.mapped [.r] (va c 15) 0x103C ∧
        c.d.pending 0x103C = false ∧ c.d.linePoison.contains (lineOf 0x103C) = false ∧ (c.d.quay (c.d.fnOf c.s.lk) 0x103C false).isSome = true ∧
        c.d.wroteLine c.h (va c 15).toNat = false ∧ (c.d.core c.h).l1.ents.length < 1024)) :=
  ⟨has (mk { sl with ops := [{ op7 with acc := [acc0], fin := false }] } cr dv []).dev
     ⟨by decide +kernel, by decide +kernel, rfl, by decide +kernel, by decide +kernel, by decide +kernel, by decide +kernel, fun _ _ _ _ h => nomatch h⟩,
   can gs ⟨by decide, by decide, by decide +kernel, mapped_of (by decide +kernel), by decide +kernel⟩⟩
theorem witness_GlobalStoresAreBuffered : ∀ step, step = 4 ∨ step = 8 →
    Can (if step = 4 then useStore 1#3 6#7 127#7 3#4 else (useStore 1#3 6#7 127#7 3#4).also (rvn 7)) (fun c => c.s.kind ≠ .ordered ∧ c.bufferAway = false ∧
      (∀ l, l < 16 ∧ (c.s.K 1).getLsbD l = true → (c.s.addr 3#4 127#7 0#24 step l).toNat % step = 0 ∧ ∃ pa, c.mapped [.w] (c.s.addr 3#4 127#7 0#24 step l) pa) ∧
      ((c.d.core c.h).dir.filter (fun e => e.buf == c.buffer.1)).length + 16 ≤ c.buffer.2 ∧
      ∀ e, e ∈ (c.d.core c.h).dir → e.buf = c.buffer.1 → e.rec_ < c.buffer.2) := by
  intro step hs
  refine can gs ⟨by decide, by decide +kernel, fun l hl => ?_, by decide +kernel, by decide +kernel⟩ (by rcases hs with rfl | rfl <;> decide +kernel)
  have h := gs_mapped .w (.inr rfl) step hs l hl.1 hl.2
  exact ⟨h.1, _, h.2⟩
/-- A group of one line at home 0, in a phase, with the homes still to acknowledge. -/
def gp (ph : GPhase) (homes rel : List Nat) : Grp := ⟨5, [⟨0x80, 0x80, 0x11#1024, 1#128, none⟩], ph, homes, rel, 0, none, 0, [.slot 0 0]⟩
theorem witness_GroupRelease :
    (let x := gp .one [0] []
     Has (fun _ d => d.groups.find? (fun y => y.id == 5) = some x ∧ (∀ l, l ∈ x.at 0 → d.pending l.pa = false ∧ d.hostLines.contains l.pa = false) ∧
        d.queuedAhead 0 5 (x.at 0) = false) ∧ Has (fun _ d => d.groups.find? (fun y => y.id == 5) = some x ∧ x.homes = [0] ∧ x.lines ≠ [])) ∧
    (let x := gp .one [0, 3] []
     Has (fun _ d => d.groups.find? (fun y => y.id == 5) = some x ∧ x.homes = 0 :: 3 :: [] ∧ 3 ≠ 0)) ∧
    (let x := gp .two [] [0]
     ∃ s : State, s.dev.groups.find? (fun y => y.id == 5) = some x ∧ x.phase = .two ∧ x.rel.contains 0 = true ∧
       (∀ f, f ∈ x.fin → (∃ h n, f = .slot h n) ∨ f = .nothing) ∧ (∀ l, l ∈ x.at 0 → l.pa % 128 = 0 ∧ isDoorbell l.pa = false) ∧
       ((x.at 0).map (·.pa)).Nodup ∧ x.at 0 ≠ [] ∧ (s.dev.visit x.fn true ((x.at 0).map (·.pa))).2 = true ∧ (s.dev.func x.fn).logOn = false) :=
  ⟨⟨has { dv with groups := [gp .one [0] []] }, has { dv with groups := [gp .one [0] []] }⟩, has { dv with groups := [gp .one [0, 3] []] },
   ⟨⟨[]⟩, { dv with groups := [gp .two [] [0]] }⟩, by decide +kernel, rfl, rfl, fun f h => .inl ⟨0, 0, by simpa [gp] using h⟩, by decide +kernel, by decide +kernel, by decide +kernel,
   by decide +kernel, by decide⟩
/-- A granted lease record of the line at 0x80. -/
def rc : LeaseRec := ⟨0x80, 0x80, .medium, true, false, 0, 300, 0#1024, 0#128, false, 7⟩
def rq : LeaseReq := ⟨0, 0, 0x80, 0x80, none⟩
theorem witness_Leases :
    Can ((useA [wa 2#4, ra 1#4]).long 1#4) (fun c => c.sure ∧ (c.s.addr1 1#4 8#24).toNat % 8 = 0 ∧ c.s.leases.length < 2 ∧
        (c.d.core c.h).slots.ents.foldl (fun k e => k + e.2.leases.length) 0 < 16 ∧
        (∀ x, x ∈ c.s.leases → x.va < lineOf (c.s.addr1 1#4 8#24).toNat) ∧ c.mapped [.r, .w, .a] (c.s.addr1 1#4 8#24) 0x1008) ∧
    Has (fun _ d => rq.amo = none ∧ (∀ y, y ∈ (d.home (homeOf rq.pa)).holders → y.pa ≠ rq.pa) ∧
      (∀ y, y ∈ (d.home (homeOf rq.pa)).leaseQ → y.pa ≠ rq.pa) ∧ d.pending rq.pa = false ∧
      (d.home (homeOf rq.pa)).leaseQ.length + (d.home (homeOf rq.pa)).holders.length < 64 ∧ (d.quay (d.slotFn rq.h rq.n) rq.pa false).isSome = true) ∧
    (let l := { rc with granted := false }
     Has (fun _ d => (d.slot rq.h rq.n).leases.find? (fun x => x.va == rq.va && !x.granted) = some l ∧ l.broken = false ∧ rq.h < nCores ∧
       d.linePoison.contains rq.pa = false)) ∧
    Has (fun _ d => rc ∈ (d.slot 0 0).leases ∧ rc.va = 0x80 ∧ rc.granted = true ∧ rc.broken = false ∧ rc.expiry ≤ d.clock) ∧
    Has (fun _ d => ∀ y, y ∈ (d.home (homeOf rq.pa)).leaseQ → y.pa ≠ rq.pa) :=
  ⟨can (mk { sa [(1, 0x1000#64)] with leases := [rc] } cr dv []) ⟨by decide, by decide, by decide, by decide, by decide, mapped_of (by decide +kernel)⟩,
   has dv, has (mk { sl with leases := [{ rc with granted := false }] } cr dv []).dev, has (mk { sl with leases := [rc] } cr { dv with clock := 300 } []).dev, has dv⟩
/-- Lanes 0 and 1 active, one lease record, its address in a1. -/
def ld (x : LeaseRec) (a : W64) : State := mk { sa [(1, a)] with kregs := ⟨[(1, 3#16)]⟩, leases := [x] } cr dv []
theorem witness_LeasedData :
    (let ok := fun (c : Ctx) => ∀ l, l < 16 → (c.s.K 1).getLsbD l = true → (c.s.addr 1#4 127#7 0#24 4 l).toNat % 4 = 0 ∧
      ∃ r, c.s.recFor (c.s.addr 1#4 127#7 0#24 4 l) = some r ∧ r.granted = true
     Can (useLoad 1#3 true 6#7 127#7 1#4) ok ∧
     Can (useStore 1#3 6#7 127#7 1#4) (fun c => ok c ∧ (1 : Nat) < 16 ∧ (c.s.K 1).getLsbD 1 = true ∧
       ∀ m, m < 16 → 1 < m → (c.s.K 1).getLsbD m = true → c.s.addr 1#4 127#7 0#24 4 m ≠ c.s.addr 1#4 127#7 0#24 4 1)) ∧
    Can (useA [wa 2#4, ra 1#4]) (fun c => (c.s.recFor (c.s.A 1)).isSome = true) ∧ Can (useA [wa 2#4, ra 1#4]) (fun c => c.s.recFor (c.s.A 1) = none) ∧
    Can (useLoad 1#3 true 6#7 127#7 1#4) (fun c => (∀ m, m < 16 → (c.s.K 1).getLsbD m = true → (c.s.addr 1#4 127#7 0#24 4 m).toNat % 4 = 0) ∧
      (1 : Nat) < 16 ∧ (c.s.K 1).getLsbD 1 = true ∧ c.s.recFor (c.s.addr 1#4 127#7 0#24 4 1) = none ∧
      ∀ m, m < 1 → (c.s.K 1).getLsbD m = true → (c.s.recFor (c.s.addr 1#4 127#7 0#24 4 m)).isSome = true) ∧
    (let ok := fun (c : Ctx) => c.quiet ∧ c.s.kind ≠ .ordered ∧ ∀ x, x ∈ c.s.leases → x.va = lineOf (c.s.A 1).toNat → x.granted = true
     Can (useA [wa 2#4, ra 1#4]) (fun c => ok c ∧ ∃ r, c.s.recFor (c.s.A 1) = some r ∧ r.broken = false) ∧
     Can (useA [wa 2#4, ra 1#4]) (fun c => ok c ∧ ∀ r, c.s.recFor (c.s.A 1) = some r → r.broken = true)) := by
  have two : ∀ l, l < 16 → (BitVec.getLsbD (3#16) l) = true → l = 0 ∨ l = 1 := by decide
  have ok : ∀ l, l < 16 → (((ld rc 0x80#64).ctx 0 0 0#64).s.K 1).getLsbD l = true → (((ld rc 0x80#64).ctx 0 0 0#64).s.addr 1#4 127#7 0#24 4 l).toNat % 4 = 0 ∧
      ∃ r, ((ld rc 0x80#64).ctx 0 0 0#64).s.recFor (((ld rc 0x80#64).ctx 0 0 0#64).s.addr 1#4 127#7 0#24 4 l) = some r ∧ r.granted = true := by
    intro l hl hk
    rcases two l hl hk with rfl | rfl <;> exact ⟨by decide +kernel, rc, by decide +kernel⟩
  refine ⟨⟨can (ld rc 0x80#64) ok, can (ld rc 0x80#64) ⟨ok, by decide +kernel⟩⟩, can (ld rc 0xFF#64), can (ld rc 0x100#64), can (ld rc 0xFC#64),
    can (ld rc 0x80#64) ⟨⟨quiet_of (by decide +kernel), by decide +kernel⟩, rc, by decide +kernel⟩,
    can (ld { rc with broken := true } 0x80#64) ⟨⟨quiet_of (by decide +kernel), by decide +kernel⟩, fun r h => ?_⟩⟩
  have e : ((ld { rc with broken := true } 0x80#64).ctx 0 0 0#64).s.recFor (((ld { rc with broken := true } 0x80#64).ctx 0 0 0#64).s.A 1) =
    some { rc with broken := true } := by decide +kernel
  rw [e] at h
  exact (Option.some.inj h) ▸ rfl
theorem witness_FencesCommitIsync :
    Can (useA []) (fun c => c.quiet ∧ c.s.loading = false) ∧ Can (useA []) (fun c => c.openRecs = [] ∨ c.s.spec = true) ∧
    Can (useA []) (fun c => c.d.slotGroups c.h c.n = []) :=
  ⟨can (mk sl cr dv []) ⟨quiet_of (by decide), by decide⟩, can (mk sl cr dv []), can (mk sl cr dv [])⟩
/-- Barrier 9 of launch 0, with counts and phase 1. -/
def bk (e a : BitVec 16) (p : Nat) : Core := { cr with bars := ⟨[(9, ⟨e, a, p, true, false, 0, 0, some 0⟩)]⟩ }
/-- The slot after the sending of an arrival, with its answer. -/
def rp (r : Reply) : Slot := { sa [(1, 3#64)] with reply := r, tsw := 0x101#32 }
theorem witness_Barriers_forms :
    let x := fun (c : Ctx) => (c.d.core c.h).bar 9
    let own := fun (c : Ctx) => (x c).owner = some c.s.lk
    let idle := fun (c : Ctx) => (c.d.core c.h).barWaited 9 = false ∧ (x c).pend = 0
    let ra1 := useA [ra 1#4]
    Can ra1 (fun c => (c.s.A 1).toNat < 2 ^ 16 ∧ ((x c).owner = none ∨ own c ∧ idle c) ∧ (x c).owner = none) ∧
    Can ra1 (fun c => (c.s.A 1).toNat < 2 ^ 16 ∧ ((x c).owner = none ∨ own c ∧ idle c) ∧ own c) ∧
    Can ra1 (fun c => own c ∧ (c.s.A 1).toNat < 2 ^ 16) ∧ Can (useA []) (fun c => own c ∧ idle c) ∧ Can (useA [wa 6#4]) own ∧
    Can ra1 (fun c => (x c).owner = none) ∧ Can (useA [wa 2#4, ra 1#4]) (fun c => (x c).owner = none) ∧
    Can (useA [wa 2#4, ra 1#4]) (fun c => own c ∧ (x c).ph = (c.s.A 1).getLsbD 0 ∧ c.s.loading = false ∧ c.s.ap = false) ∧
    Can (useA [wa 2#4, ra 1#4]) (fun c => own c ∧ (x c).ph ≠ (c.s.A 1).getLsbD 0) ∧
    Can (useA [wa 2#4]) (fun c => c.sure ∧ own c ∧ c.s.ap = true ∧ (x c).ph ≠ c.s.resPh ∧ c.s.loading = false) ∧
    Can (useA [wa 2#4]) (fun c => c.sure ∧ own c ∧ c.s.ap = true ∧ (x c).ph = c.s.resPh) :=
  ⟨can (mk (sa [(1, 0xFFFF#64)]) cr dv []), can (mk (sa [(1, 0#64)]) (bk 4 3 0) dv []), can (mk (sa [(1, 2#64)]) (bk 4 3 0) dv []),
   can (mk sl (bk 0 0 0) dv []), can (mk sl (bk 0xFFFF 0xFFFE 128) dv []), can (mk sl cr dv []), can (mk sl cr dv []),
   can (mk (sa [(1, 3#64)]) (bk 1 0 0) dv []), can (mk (sa [(1, 2#64)]) (bk 1 0 0) dv []), can (mk (rp .idle) (bk 1 0 0) dv []),
   can (mk { rp .idle with resPh := true } (bk 1 0 0) dv [])⟩
theorem witness_Barriers :
    let x := fun (d : Dev) => (d.core 0).bar 9
    let ok := fun (c : Ctx) => c.sure ∧ (c.s.A 1).toNat < 4096 ∧ ∃ l, c.d.launch? c.s.lk = some l ∧ l.has (c.s.A 1).toNat = true
    Has (fun _ d => d.isSaved (d.slot 0 0).lk 0 = false ∧ (x d).owner = some (d.slot 0 0).lk ∧ (x d).arr ≠ 0xFFFF#16) ∧
    Has (fun _ d => d.isSaved (d.slot 0 0).lk 0 = false ∧ (x d).owner = none) ∧ Has (fun _ d => (d.slot 0 0).reply = .sent ∧ 0 < nCores) ∧
    Can (useA [ra 1#4]) (fun c => ok c ∧ c.quiet ∧ c.s.reply = .idle) ∧ Can (useA [ra 1#4]) (fun c => ok c ∧ c.s.reply = .done 0#64) ∧
    Can (useA [ra 1#4]) (fun c => ok c ∧ c.s.reply = .fail 0x40 1) ∧
    Can (useA [ra 1#4]) (fun c => ok c ∧ c.quiet ∧ c.s.reply = .idle ∧ (c.s.A 1).toNat = 0 ∧ c.d.isSaved c.s.lk 0 = false ∧
      ((c.d.core 0).bar 9).owner = some c.s.lk ∧ ((c.d.core 0).bar 9).arr ≠ 0xFFFF#16) ∧
    Has (fun _ d => d.savedCmd 0 true 3 = false ∧ ∃ c, d.cmd? 0 true 3 = some c ∧ c.total ≠ 1 ∧ 0 < 4 ∧ 4 ≤ c.left ∧ 4 < ((d.core 0).bar c.bar).pend) :=
  ⟨has (mk sl (bk 4 3 0) dv []).dev, has (mk sl cr dv []).dev, has (mk (rp .sent) cr dv []).dev,
   can (mk (rp .idle) cr dv []) ⟨⟨by decide, by decide, la, by decide +kernel⟩, quiet_of (by decide), rfl⟩,
   can (mk (rp (.done 0#64)) cr dv []) ⟨⟨by decide, by decide, la, by decide +kernel⟩, rfl⟩,
   can (mk (rp (.fail 0x40 1)) cr dv []) ⟨⟨by decide, by decide, la, by decide +kernel⟩, rfl⟩,
   can (mk { rp .idle with aregs := .empty } (bk 4 3 0) dv []) ⟨⟨by decide, by decide, la, by decide +kernel⟩, quiet_of (by decide), by decide +kernel⟩,
   has { dv with cores := ⟨[(0, { bk 1 0 8 with cq := { EQ.init with live := [cm] } })]⟩ } ⟨by decide +kernel, cm, by decide +kernel⟩⟩
/-- Object 3 of launch 0 in a state: 4 rows of 16 words at 0x400, the record of its shape at 0x800. -/
def ob (st : ObjSt) : Core := { cr with
  objs := if st = .free then .empty else ⟨[(3, ⟨st, 0x400, 4, 16, 0, 64, 2, 8, 0, 0, 0⟩)]⟩, bars := (bk 1 0 0).bars
  words := ⟨[(0x200, 0x400#32), (0x201, 0x100004#32), (0x202, 0#32), (0x203, 64#32), (0x204, 0x80002#32)]⟩ }
theorem witness_Objects :
    let x := fun (c : Ctx) => (c.d.core c.h).obj 3
    let own := fun (c : Ctx) (st : ObjSt) => (x c).st = st ∧ (x c).owner = c.s.lk
    let w := fun (c : Ctx) i => (c.d.core c.h).word ((c.s.A 1).toNat + 4 * i)
    let noLines := fun (c : Ctx) => ∀ e, e ∈ c.d.cores.ents → e.2.l1.ents = []
    let dropped := fun (c : Ctx) => c.s.reply = .done 0#64 ∨ c.s.reply = .idle ∧ noLines c
    Can (useA [ra 1#4])
      (fun c => (x c).st = .free ∧ (c.s.A 1).toNat % 32 = 0 ∧ (c.s.A 1).toNat < 2 ^ 20 ∧ (c.d.core c.h).inLaunch c.s.lk (c.s.A 1).toNat = true ∧
        (c.d.core c.h).lsPoison = [] ∧ (c.d.core c.h).lsTodo = [] ∧ shapeOk (w c) (shapeOf (w c) c.s.lk) = true ∧
        (∃ e, (c.d.core c.h).regionOf (shapeOf (w c) c.s.lk).base = some e ∧ e.1 / 16 = c.s.lk ∧ rgnRole e.2 = 0 ∧
          (shapeOf (w c) c.s.lk).base + (shapeOf (w c) c.s.lk).bytes ≤ rgnEnd e.2) ∧ (c.d.core c.h).objs.ents = []) ∧
    Can (useA []) (fun c => own c .open_) ∧ Can (useA []) (fun c => own c .sealed_ ∧ (x c).ref = 0 ∧ dropped c ∧ c.s.reply = .done 0#64) ∧
    Can (useA []) (fun c => own c .open_ ∨ own c .sealed_ ∧ (x c).ref = 0 ∧ dropped c) ∧
    Can (useA []) (fun c => own c .sealed_ ∧ (x c).ref = 0 ∧ dropped c ∧ c.s.reply = .idle) ∧
    Can (useA [ra 2#4, ra 1#4, ra 3#4])
      (fun c => c.sure ∧ own c .sealed_ ∧ (c.s.A 2).toNat < 4096 ∧ (∃ l, c.d.launch? c.s.lk = some l ∧ l.has (c.s.A 2).toNat = true) ∧
        (c.s.A 1).toNat % 4 = 0 ∧ (c.s.A 1).toNat + (x c).bytes ≤ 2 ^ 20 ∧ (c.s.A 1).toNat < 2 ^ 20 ∧ (x c).ref < 0xFFFF ∧ (c.s.A 3).toNat < 512 ∧
        ((c.d.core c.h).bar (c.s.A 3).toNat).owner = some c.s.lk ∧ ((c.d.core c.h).eq true).depth < 32 ∧
        ((c.d.core c.h).bar (c.s.A 3).toNat).pend + (x c).bytes < 2 ^ 32) ∧
    Can (useA []) (fun c => (x c).st = .free ∧ ((x c).st ≠ .free → (x c).owner = c.s.lk)) ∧
    Can (useA []) (fun c => (x c).st = .open_ ∧ ((x c).st ≠ .free → (x c).owner = c.s.lk)) ∧
    Has (fun _ d => ∃ y, d.shoots.find? (fun y => y.h == 0 && y.n == 0 && y.lo == 0x400 && y.len == 256 && y.cores.contains 2) = some y ∧
      y.cores = [2] ∧ 0 < nCores ∧ (d.slot 0 0).reply ≠ .stale) :=
  ⟨can (mk (sa [(1, 0x800#64)]) (ob .free) dv []) ⟨by decide, by decide, by decide, by decide, by decide, by decide, by decide +kernel, ⟨(0, 0x800F0000#32), by decide +kernel⟩, by decide⟩,
   can (mk sl (ob .open_) dv []), can (mk (rp (.done 0#64)) (ob .sealed_) dv []), can (mk sl (ob .open_) dv []), can (mk sl (ob .sealed_) dv []),
   can (mk (sa [(1, 0xFFF00#64), (2, 3#64), (3, 9#64)]) (ob .sealed_) dv []) ⟨by decide, by decide, by decide, ⟨la, by decide +kernel⟩, by decide +kernel⟩,
   can (mk sl (ob .free) dv []), can (mk sl (ob .open_) dv []), has { dv with shoots := [⟨1, 0, 0, 0x400, 256, [2]⟩] } ⟨⟨1, 0, 0, 0x400, 256, [2]⟩, by decide⟩⟩
/-- A descriptor with a timestamp and an identifier that core 0's queue gave. -/
def ds (ts id : W32) : Desc := ⟨64#32, ts, 1#32, 2#32, 3#32, 4#32, 0#32, id⟩
/-- Core 0 with a configured queue of launch 0. -/
def qk (f : TQ → TQ) : Core := { cr with tq := f { TQ.init with lk := some 0, hi := 4, lo := 2, rsize := 512, rbase := 0x4000#64 } }
/-- Launch 0 with slot 1 reserved on core 0. -/
def lt : Launch := { la with flags := 4#8, nseats := 2, resv := ⟨[(0, ⟨[1], [0], 0⟩)]⟩ }
def dt : Dev := { dv with launches := ⟨[(0, lt)]⟩ }
def qc (f : TQ → TQ) (g : Dev → Dev) : Dev := (mk sl (qk f) (g dt) []).dev
/-- The vector register of a tqcfg: 512 x 4 entries, limits 200 and 100, FREE, PB 1, SMIN 2. -/
def cfgV : V512 := ofLanes (fun l => [0x4000#32, 0#32, 2048#32, 200#32, 100#32, 0#32, 1#32, 2#32].getD l 0#32)
theorem witness_TaskQueues_forms :
    let f := fun (c : Ctx) (i : Nat) => (c.s.ln 4#7 i).toNat
    let l := lt
    (∀ hi, hi = 0 ∨ hi = 200 → Can (useV [4#7] [rv 4#7])
      (fun c => c.d.launch? c.s.lk = some l ∧ (∀ i, 8 ≤ i → i < 16 → f c i = 0) ∧ f c 0 % 4096 = 0 ∧
        (f c 2 = 0 ∨ ∃ k, k ≤ 10 ∧ f c 2 = 512 * 2 ^ k) ∧ f c 3 ≤ 255 ∧ f c 3 = hi ∧ (f c 3 ≠ 0 → f c 4 < f c 3) ∧ f c 5 ≤ 1 ∧ f c 6 ≤ 255 ∧ f c 7 ≤ 16 ∧
        f c 7 ≤ l.nseats ∧ l.flags.getLsbD 2 = true ∧ (l.ordered = none ∨ l.ordered = some (f c 5 == 1)) ∧ (c.d.core c.h).tq.ring = [])) ∧
    Can (useA [wa 2#4, ra 5#4]) (fun c => (c.s.A 5).toNat < 4096 ∧ ∃ l, c.d.launch? c.s.lk = some l ∧ l.has (c.s.A 5).toNat = true) ∧
    Can (useV [4#7] [rv 4#7, ra 5#4]) (fun c => let t := (c.s.A 5).toNat
      c.s.kind ≠ .ordered ∧ c.s.pushed = [] ∧ c.s.reply = .idle ∧ c.d.launch? c.s.lk = some l ∧ l.ordered ≠ some true ∧
      t < 4096 ∧ l.has t = true ∧ (c.d.core t).tq.lk = some c.s.lk ∧ (c.s.ln 4#7 0).toNat < 2 ^ 24 ∧ l.entries.contains (c.s.ln 4#7 0).toNat = true) ∧
    Can (useV [4#7] [rv 4#7, ra 5#4]) (fun c => c.s.kind ≠ .ordered ∧ c.s.pushed.contains 0 = true) ∧
    Can ⟨[4, 9], [8], [rv 4#7, rv 9#7, ra 5#4, rk 1#3] ++ (List.range 4).map (fun i => rvn (4 + 1 + i)), none, .all, false⟩
      (fun c => ∀ l, l < 16 → (c.s.K 1).getLsbD l = true → c.s.pushed.contains l = true) := by
  refine ⟨fun hi hh => ?_, can (mk (sa [(5, 3#64)]) (qk id) dt []) ⟨by decide, lt, by decide +kernel⟩, can (mk { sl with vregs := ⟨[(4, 64#512)]⟩ } (qk id) dt []),
    can (mk { sl with pushed := [0] } (qk id) dt []), can (mk { sl with pushed := [3, 15], kregs := ⟨[(1, 0x8008#16)]⟩ } (qk id) dt [])⟩
  rcases hh with rfl | rfl
  · exact can (mk sl (qk id) dt []) ⟨by decide +kernel, by decide +kernel, by decide +kernel, .inl (by decide +kernel), by decide +kernel⟩
  · exact can (mk { sl with vregs := ⟨[(4, cfgV)]⟩ } (qk id) dt []) ⟨by decide +kernel, by decide +kernel, by decide +kernel, .inr ⟨2, by decide +kernel⟩, by decide +kernel⟩
theorem witness_TaskQueues :
    let q := fun (d : Dev) => (d.core 0).tq
    let calm := fun (d : Dev) => (q d).lk = some 0 ∧ (q d).waiting = [] ∧ (q d).requeue = [] ∧ (q d).inq = [] ∧ d.ringWrites 0 = false ∧
      ∀ e, e ∈ (q d).retry → e.2 ≤ d.clock
    let x := ds 9#32 2#32
    let e : RingEnt := ⟨0, 5#32, 0#32, 1#32, false⟩
    let lf : Leaf := ⟨0, 2 ^ 21, 0x1E#64, BitVec.allOnes 64⟩
    (let p : PushMsg := ⟨0, 0, 0, 0, x⟩
     Has (fun _ d => d.isSaved (d.slot p.h p.n).lk p.dst = false ∧ (d.core p.dst).tq.lk = some (d.slot p.h p.n).lk ∧ (d.core p.dst).tq.waiting = [] ∧
        (d.core p.dst).tq.requeue = [] ∧ (d.core p.dst).tq.inq = [] ∧ (d.core p.dst).tq.ring = [] ∧ d.ringWrites p.dst = false ∧
        (d.slot p.h p.n).reply ≠ .stale ∧
        (d.core p.dst).tq.chip.length < (d.core p.dst).tq.hi ∧ (d.core p.dst).tq.hi ≤ 255)) ∧
    Has (fun m d => isWindow (q d).rbase = false ∧ calm d ∧ (q d).hi < (q d).chip.length ∧ (q d).ring = [] ∧ 0 < (q d).rsize ∧ (q d).chip.getLast? = some x ∧
        d.translate m (d.agentWho 0 0) [.w] (q d).rbase = .ok 0x4000 lf ∧ ∀ g, g ∈ d.groups → g.phase ≠ .waiting) ∧
    Has (fun m d => calm d ∧ (q d).ring = e :: [] ∧ (q d).chip.length < (q d).lo ∧ d.launch? 0 = some lt ∧
        (q d).chip.length < (q d).hi ∧ (([] : List RingEnt) = [] ∨ (q d).lo ≤ (q d).chip.length + 1 ∧ ((q d).hi + (q d).lo) / 2 ≤ (q d).chip.length + 1) ∧
        isWindow ((q d).addr e.pos) = false ∧ d.translate m (d.agentWho 0 0) [.r] ((q d).addr e.pos) = .ok 0x4000 lf ∧ d.pending 0x4000 = false ∧
        ((d.fillPlb m (d.agentWho 0 0) lf.dom).quay (d.fnOf 0) 0x4000 false).isSome = true ∧ lt.refillOk (m.w32 0x4000) = true) ∧
    Has (fun _ d => calm d ∧ (q d).ring = [] ∧ (q d).chip.length ≤ (q d).hi) :=
  ⟨has (qc (fun q => { q with chip := [ds 1#32 1#32, ds 2#32 1#32, ds 3#32 1#32] }) id),
   has (qc (fun q => { q with chip := [ds 1#32 1#32, ds 2#32 1#32, ds 3#32 1#32, ds 4#32 1#32, ds 9#32 2#32] }) id),
   hasIn [(0x4000, 0x40#8)] (qc (fun q => { q with ring := [⟨0, 5#32, 0#32, 1#32, false⟩], chip := [ds 1#32 1#32] }) id),
   has (qc (fun q => { q with retry := [(0x4000, 4096)] }) (fun d => { d with clock := 4096 }))⟩
/-- An ORDERED slot with task 1 in lanes 0 and 3. -/
def so : Slot := { sl with kind := .ordered, tsw := 0x108#32, tasks := ⟨[(0, 1#32), (3, 1#32)]⟩, kregs := ⟨[(2, 1#16)]⟩ }
def tsk (e : Bool) : Task := ⟨0, ds 7#32 1#32, 0, 0, 0#1024, e, [], false, false, false⟩
theorem witness_TasksOnSlots :
    Has (fun _ d => let q := (d.core 0).tq
        q.lk = some 0 ∧ q.ring = [] ∧ q.waiting = [] ∧ q.requeue = [] ∧ q.inq = [] ∧ d.ringWrites 0 = false ∧ q.chip.length ≤ q.hi ∧ q.hold = [] ∧ q.chip = ds 1#32 1#32 :: [ds 2#32 2#32] ∧
        d.freeSlot 0 0 = some (0, 1) ∧ d.launch? 0 = some lt ∧ lt.st = .resident ∧ lt.out = false ∧ q.ordered = false) ∧
    Can (useA [rk 2#3]) (fun c => c.quiet ∧ c.s.kind ≠ .ordered) ∧
    (let lanes := fun (c : Ctx) => c.s.K 2 &&& c.s.laneSet
     Can (useA [rk 2#3]) (fun c => c.s.kind = .ordered ∧ c.s.winStores = [] ∧ c.plain 1#32 = false ∧ c.s.tasksIn (lanes c) = [1#32] ∧ c.d.task? c.s.lk 1#32 = some (tsk false) ∧
        (c.d.core c.h).taskRecs [1#32] = []) ∧
     Can (useA [rk 2#3]) (fun c => c.s.kind = .ordered ∧ c.s.tasksIn (lanes c) = [1#32] ∧ c.d.task? c.s.lk 1#32 = some (tsk false) ∧ (tsk false).core = c.h)) ∧
    Can (useA [rk 2#3]) (fun c => c.s.kind ≠ .ordered) :=
  ⟨has (qc (fun q => { q with chip := [ds 1#32 1#32, ds 2#32 2#32] }) id), can (mk sl cr dv []) ⟨quiet_of (by decide), by decide⟩,
   ⟨can (mk so cr { dv with tasks := ⟨[(1, tsk false)]⟩ } []), can (mk so cr { dv with tasks := ⟨[(1, tsk false)]⟩ } [])⟩, can (mk sl cr dv [])⟩
/-- Launch 0 is ORDERED, its arbiter's round is bounded; the queue of core 0 and task 1 of core 0. -/
def ab (f : TQ → TQ) (s : Slot) (c : Core → Core) (e : Bool) : Dev :=
  (mk s (c (qk (fun q => f { q with ordered := true }))) { dt with launches := ⟨[(0, { lt with ordered := some true, round := some (2 ^ 60) })]⟩, tasks := ⟨[(1, tsk e)]⟩ } []).dev
theorem witness_ArbitrationAndAborts :
    let l := { lt with ordered := some true, round := some (2 ^ 60) }
    Has (fun _ d => d.launch? 0 = some l ∧ l.ordered = some true ∧ l.out = false ∧ d.anySaved 0 = false ∧ d.clock % 256 = 0 ∧ d.committing 0 = true) ∧
    (∀ b : Bool, Has (fun _ d => d.launch? 0 = some l ∧ l.ordered = some true ∧ l.out = false ∧ d.anySaved 0 = false ∧ d.clock % 256 ≠ 0 ∧
      d.committing 0 = false ∧ l.round = some (2 ^ 60) ∧ d.nextCommit 0 (2 ^ 60) = if b then some (tsk true) else none)) ∧
    Has (fun _ d => d.launch? 0 = some l ∧ (d.core 0).tq.lk = some 0 ∧ (d.core 0).tq.ordered = true ∧ (d.core 0).tq.ready d.clock = ds 1#32 2#32 :: [] ∧
      (∀ p, p ∈ d.queuedPairs 0 → descPair (ds 1#32 2#32) ≤ p) ∧ (∀ u, u ∈ d.running 0 → descPair (ds 1#32 2#32) ≤ descPair u.d) ∧
      d.freeSlot 0 0 = none ∧ d.running 0 = [tsk false] ∧ (tsk false).core = 0 ∧ (tsk false).ended = false ∧
      (∃ e, e ∈ (d.core 0).slots.ents ∧ e.2.lk = 0 ∧ ∃ y, y ∈ e.2.tasks.ents ∧ y.2 = (tsk false).d.id) ∧ ∀ e, e ∈ (d.core 0).slots.ents → e.2.endReq = false) ∧
    Has (fun _ d => d.anySaved 0 = false ∧ (d.core 0).tq.lk = some 0 ∧ (∀ n, n ∈ (l.resvOn 0).slots → (d.slot 0 n).st = .free) ∧ d.running 0 = [tsk false] ∧
      (∃ e, e ∈ (d.core 0).pool ∧ e.lk = 0 ∧ e.task = (tsk false).d.id)) ∧
    ∃ d : Dev, d.task? 0 1#32 = some (tsk true) ∧ d.launch? 0 = some l := by
  refine ⟨has { ab id so id false with groups := [⟨5, [⟨0x80, 0x80, 0x11#1024, 1#128, none⟩], .two, [], [0], 0, none, 0, [.task 0 1#32 true]⟩] },
    fun b => ?_, has (ab (fun q => { q with chip := [ds 1#32 2#32] }) so (fun c => { c with slots := ⟨[(1, so)]⟩ }) false) ?_,
    has (ab id so (fun c => { c with pool := [⟨0, 0, 0x2000#64, 4, 2, .ordered, 1#32, 0⟩] }) false) ?_, ab id so id true, by decide +kernel, by decide +kernel⟩
  · cases b
    · exact has { ab id so id false with clock := 1 }
    · exact has { ab id so id true with clock := 1 }
  · exact ⟨by decide +kernel, by decide +kernel, by decide +kernel, by decide +kernel, by decide +kernel, by decide +kernel, by decide +kernel, by decide +kernel,
      rfl, rfl, ⟨(0, so), by decide +kernel, rfl, (0, 1#32), by decide, rfl⟩, by decide +kernel⟩
  · exact ⟨by decide +kernel, by decide +kernel, by decide +kernel, by decide +kernel, ⟨⟨0, 0, 0x2000#64, 4, 2, .ordered, 1#32, 0⟩, by decide +kernel, rfl, rfl⟩⟩
theorem witness_Mailboxes :
    let r := fun (c : Ctx) => (c.s.A 5).toNat
    let first := fun (c : Ctx) => c.quiet ∧ c.s.reply = .idle ∧ r c < 4096 ∧ rankV (c.d.rankEnt (terrOf c.s.lk) (r c)) = true
    let us := useV [4#7] [rv 4#7, ra 5#4]
    let ur := useV [4#7] [wv 4#7, wa 5#4]
    Can us first ∧ Can us (fun c => c.sure ∧ c.s.reply = .done 0#64) ∧
    Can us (fun c => c.sure ∧ c.s.closed = false ∧ c.s.reply = .idle ∧ r c < 4096 ∧ rankV (c.d.rankEnt (terrOf c.s.lk) (r c)) = false) ∧
    (let g : Msg := ⟨0, 3, 7#512, 1, 2, some (2, 0), none⟩
     Has (fun _ d => g.rank < 4096 ∧ rankV (d.rankEnt g.terr g.rank) = true ∧ rankIt (d.rankEnt g.terr g.rank) = false ∧
      rankCore (d.rankEnt g.terr g.rank) = 0 ∧ (d.core 0).inbox.length < 64)) ∧
    (let m : InMsg := ⟨0, 3, 1, 2, 7#512⟩
     Can ur (fun c => c.d.mailRanks c.h c.n ≠ [] ∧ c.oldestMail = some m ∧ c.s.loading = false)) ∧
    Can ur (fun c => c.d.mailRanks c.h c.n ≠ [] ∧ c.oldestMail = none) :=
  let d : Dev := { dv with ranks := ⟨[(3, rankFor 0 0)]⟩ }
  ⟨can (mk (sa [(5, 3#64)]) cr d []) ⟨quiet_of (by decide), by decide +kernel⟩, can (mk (rp (.done 0#64)) cr d []), can (mk (sa [(5, 4095#64)]) cr d []),
   has (mk sl cr d []).dev, can (mk sl { cr with inbox := [⟨0, 3, 1, 2, 7#512⟩] } d []), can (mk sl cr d [])⟩
/-- A core with a pool region behind its buffer. -/
def pk (es : List PoolEnt) : Core := { cr with map := ⟨cr.map.ents ++ [(2, 0x820F0020#32)]⟩, pool := es }
def pe : PoolEnt := ⟨5, 0, 0x1020#64, 8, 2, .launch, 0#32, 0⟩
theorem witness_Regrouping :
    let us : Use := ⟨[8], if (2#7 : BitVec 7) = 0#7 then [] else [8 + (2#7 : BitVec 7).toNat - 1],
      (List.range (2#7 : BitVec 7).toNat).map (fun j => rvn (8 + j)) ++ [rk 1#3], none, .all, false⟩
    let tgt := fun (c : Ctx) => c.s.pc + BitVec.ofInt 64 (8 * (4#32).toInt)
    let set := fun (c : Ctx) => c.s.K 1 &&& c.s.laneSet
    let mine := fun (c : Ctx) => (c.d.core c.h).poolOf c.s.lk
    let mineAt := fun (c : Ctx) t => (mine c).filter (fun e => e.tgt == t && e.kind == c.s.kind)
    let base := 0x20000
    let pool := fun (c : Ctx) => c.poolBase = some base ∧ (c.d.core c.h).unrestoredIn base (base + 65536) = false
    Can us (fun c => c.poolBase = some base ∧ set c = 0#16) ∧
    Can us (fun c => pool c ∧ set c ≠ 0#16 ∧ (mine c).length + 16 ≤ 1024 ∧ ((mine c).map (·.tgt)).dedup.length < 64 ∧
        ∀ e, e ∈ (c.d.core c.h).slots.ents → joinsAt c.s.lk c.s.kind (tgt c) e = false) ∧
    Can (useA [wk 3#3]) (fun c => pool c ∧ ((c.gate (useA (c.refillRegs (tgt c)))).isNone = true) ∧ mineAt c (tgt c) = [pe] ∧ (15 : Nat) < 16 ∧
        c.s.laneSet.getLsbD 15 = false ∧ ∀ m, m < 15 → c.s.laneSet.getLsbD m = true) ∧
    Can (useA [wk 3#3]) (fun c => pool c ∧ ((c.gate (useA (c.refillRegs (tgt c)))).isNone = true) ∧ mineAt c (tgt c) = []) ∧
    (let join := fun (c : Ctx) => pool c ∧ (∀ o, o ∈ c.s.ops → o.vd = []) ∧ mineAt c c.s.pc = []
     Can (useA [rk 1#3]) (fun c => join c ∧ c.s.laneSet &&& c.s.K 1 = c.s.K 1) ∧ Can (useA [rk 1#3]) (fun c => join c ∧ c.s.laneSet &&& c.s.K 1 ≠ c.s.K 1)) :=
  ⟨can (mk sl (pk []) dv []), can (mk { sl with kregs := ⟨[(1, 0x8001#16)]⟩ } (pk []) dv []), can (mk { sl with laneSet := 0x7FFF#16 } (pk [pe]) dv []),
   can (mk sl (pk []) dv []), can (mk { sl with kregs := ⟨[(1, 0x8001#16)]⟩ } (pk []) dv []),
   can (mk { sl with kregs := ⟨[(1, 0x8001#16)]⟩, laneSet := 1#16 } (pk [pe]) dv [])⟩
/-- Queue `cq` of core 0 with a command at its head and one behind it, and what else the core and the device hold. -/
def qs (cq : Bool) (c : Cmd) (k : Core) (d : Dev) (m : List Host.Cell) : State :=
  let q : EQ := { EQ.init with q := [c, { c with seq := 65535 }] }
  let k := if cq then { k with cq := q } else { k with mq := q }
  ⟨⟨m⟩, { d with cur := .queue 0 cq, cores := ⟨(0, k) :: d.cores.ents⟩ }⟩
theorem hasCmd {pre : QCtx → List Cmd → Prop} (cq : Bool) (c : Cmd) (k : Core) (d : Dev) (m : List Host.Cell)
    (h : pre ⟨⟨m⟩, 0, cq, c, (qs cq c k d m).dev⟩ [{ c with seq := 65535 }] := by decide +kernel) : HasCmd pre :=
  ⟨qs cq c k d m, 0, cq, c, _, rfl, by cases cq <;> rfl, h⟩
/-- A command that counts one. -/
def c1 : Cmd := { cm with total := 1, left := 1 }
/-- Barrier 9 and some tiles of court 0. -/
def ct (o : Option Nat) : Dev := { dv with courts := ⟨[(0, { Court.init with tiles := ⟨[(0, ⟨o, .empty, 0⟩), (1, ⟨o, .empty, 0⟩), (2, ⟨o, .empty, 0⟩), (3, ⟨o, .empty, 0⟩)]⟩ })]⟩ }
theorem witness_EngineQueues :
    let b := fun (c : Ctx) => ((c.s.V 4).extractLsb' 239 9).toNat
    let u := (useV [4#7] [rv 4#7, wa 2#4]).long 1#4
    (∀ cq : Bool,
      Can u (fun c => ((c.d.core c.h).bar (b c)).owner = some c.s.lk ∧ c.sure ∧ ((c.d.core c.h).eq cq).depth < 32 ∧
          ((c.d.core c.h).bar (b c)).pend + c.d.imgCount c.h cq c.s.lk (c.s.V 4) < 2 ^ 32) ∧
      Can u (fun c => ((c.d.core c.h).bar (b c)).owner = some c.s.lk ∧ c.sure ∧ 32 ≤ ((c.d.core c.h).eq cq).depth)) ∧
    Can u (fun c => ((c.d.core c.h).bar (b c)).owner ≠ some c.s.lk) ∧
    (let one := fun (q : QCtx) (r : List Cmd) => q.alone r ∧ q.c.left = 1
     let own := fun (q : QCtx) => ((q.d.core q.h).bar 9).owner = some q.c.lk
     HasCmd (fun q r => one q r ∧ ctxSub 0x2AC#32 = 0) ∧ ctxSub 7#32 ≠ 0 ∧
     HasCmd (fun q r => one q r ∧ ∀ t, t ∈ tilesFrom 2#2 1#2 → (q.d.tile q.h t).owner = some (q.h % 4)) ∧
     HasCmd (fun q _ => ∃ t, t ∈ tilesFrom 3#2 0#2 ∧ (q.d.tile q.h t).owner ≠ some (q.h % 4)) ∧
     HasCmd (fun q r => one q r ∧ own q ∧ ((q.d.core q.h).bar 9).arr ≠ 0xFFFF#16) ∧ HasCmd (fun q _ => ¬own q)) := by
  have alone : ∀ (k : Core) (d : Dev), (⟨⟨[]⟩, 0, false, c1, (qs false c1 k d []).dev⟩ : QCtx).alone [{ c1 with seq := 65535 }] := by
    intro k d x hx
    have : x = { c1 with seq := 65535 } := by simpa [qs, Dev.core, AMap.get, AMap.find?, Core.eq, EQ.init] using hx
    subst this; exact (by decide : (65535 : Nat) ≠ 3)
  refine ⟨fun cq => ⟨?_, ?_⟩, can (mk sl cr dv []), ⟨hasCmd false c1 cr dv [] ⟨⟨alone _ _, rfl⟩, by decide⟩, by decide,
    hasCmd false c1 cr (ct (some 0)) [] ⟨⟨alone _ _, rfl⟩, by decide⟩, hasCmd false c1 cr (ct (some 1)) [] ⟨3, by decide +kernel⟩,
    hasCmd false c1 (bk 1 0 8) dv [] ⟨⟨alone _ _, rfl⟩, by decide⟩, hasCmd false c1 cr dv [] (by decide)⟩⟩
  · exact can (mk { sl with vregs := ⟨[(4, 9#512 <<< 239)]⟩ } (bk 1 0 0xFFFFFFFE) dv []) (by cases cq <;> decide +kernel)
  · cases cq
    · exact can (mk { sl with vregs := ⟨[(4, 9#512 <<< 239)]⟩ } { bk 1 0 0 with mq := { EQ.init with q := List.replicate 32 c1 } } dv [])
    · exact can (mk { sl with vregs := ⟨[(4, 9#512 <<< 239)]⟩ } { bk 1 0 0 with cq := { EQ.init with q := List.replicate 32 c1 } } dv [])
def readableB (q : QCtx) (x : Rd) : Bool :=
  match x.loc with
  | .bank t a => (match (q.d.core t).regionOf a with | some e => rgnTbl e.2 == 0 | none => false) &&
      !(q.d.core t).lsPoison.contains (a / 4) && !q.d.queueBusy q.h q.cq t && !(q.d.core t).unrestored a && !q.d.awayOn (terrOf q.c.lk) t
  | .mem va => match q.d.translate q.m q.who [.r] (BitVec.ofNat 64 (lineOf va)) with
    | .ok pa lf => (q.d.core q.h).plb.any (fun e => e.terr == q.who.terr && e.dom == lf.dom) && !q.d.pending pa && !q.d.linePoison.contains pa &&
        (homeOf (lineOf pa) == 512 || ((q.d.quayLines (quayKey (lineOf pa))).any (fun y => y.pa == lineOf pa) &&
          !(q.d.quayLines (quayKey (lineOf pa))).any (fun y => y.pa == lineOf pa && y.trim)))
    | _ => false
  | .bad _ => false
theorem readable_of {q : QCtx} {x : Rd} (h : readableB q x = true) : q.readable x := by
  unfold readableB at h
  unfold QCtx.readable
  split at h
  · rename_i t a e
    simp only [Bool.and_eq_true, Bool.not_eq_true'] at h
    obtain ⟨⟨⟨⟨h1, h2⟩, h3⟩, h4⟩, h5⟩ := h
    split at h1
    · rename_i y hy
      try simp only [e]
      exact ⟨⟨y.1, y.2, hy, by simpa using h1⟩, h2, h3, h4, h5⟩
    · simp at h1
  · rename_i va e
    split at h
    · rename_i pa lf ht
      simp only [Bool.and_eq_true, Bool.not_eq_true', Bool.or_eq_true, beq_iff_eq] at h
      obtain ⟨⟨⟨h1, h2⟩, h3⟩, h4⟩ := h
      try simp only [e]
      exact ⟨pa, ⟨lf, ht, .inr (by simpa using h1)⟩, h2, h3, h4⟩
    · simp at h
  · simp at h
theorem reads_of {q : QCtx} {rs : List Rd} (h1 : q.c.trapped = [] ∧ q.c.parked = [] ∧ q.c.rd = .empty ∧ q.c.retryAt ≤ q.d.clock) (h : rs.all (readableB q) = true) : q.reads rs :=
  ⟨h1.1, h1.2.1, h1.2.2.2, fun x _ => by rw [h1.2.2.1]; rfl, fun x hx => readable_of (List.all_eq_true.mp h x hx)⟩
/-- A region of table 0 over the whole local store, and two sealed FP8 operand blocks. -/
def big : Core := { Core.init with
  map := ⟨[(0, 0x80FF0000#32)]⟩, plb := [⟨0, 0, 0xF#16⟩], objs := ⟨[(3, ⟨.sealed_, 0, 128, 128, 4, 128, 128, 128, 0, 0, 0⟩), (4, ⟨.sealed_, 0x4000, 128, 128, 4, 128, 128, 128, 0, 0, 0⟩)]⟩ }
def ax : AccArgs := ⟨1#2, 0#2, true, 0xF0000#64, 512#32⟩
def mx : MmArgs := ⟨0#2, 0#2, 0#2, 0#8, true, true, 3#64, 4#64, 0#32, 0#32, 0x01FF000000010000#64, 0x01FF000000020000#64⟩
def hd0 : TileHdr := ⟨9#9, false, 0#16⟩
def accWords (q : QCtx) : List Rd := (List.range 1).flatMap (fun t => (List.range 128).flatMap (fun r => (List.range 128).map (fun c =>
  q.rd (16384 * t + 128 * r + c) 4 ax.sp (accRow ax t r + BitVec.ofNat 64 (4 * c)))))
theorem big_region {k : Core} (h : k.map = big.map) {a : Nat} (ha : a < 2 ^ 20) : k.regionOf a = some (0, 0x80FF0000#32) := by
  have h1 : rgnV 0x80FF0000#32 = true := by decide
  have h2 : rgnBase 0x80FF0000#32 = 0 := by decide
  have h3 : rgnEnd 0x80FF0000#32 = 2 ^ 20 := by decide
  simp [Core.regionOf, h, big, h1, h2, h3]; omega
/-- A word of that local store can be read at once. -/
theorem big_readable {q : QCtx} {x : Rd} {a : Nat} (hl : x.loc = .bank 0 a) (ha : a < 2 ^ 20) (hm : (q.d.core 0).map = big.map)
    (hp : (q.d.core 0).lsPoison = []) (hb : q.d.queueBusy q.h q.cq 0 = false ∧ (q.d.core 0).lsTodo = [] ∧ q.d.awayOn (terrOf q.c.lk) 0 = false) : q.readable x := by
  unfold QCtx.readable
  rw [hl]
  exact ⟨⟨0, _, big_region hm ha, by decide⟩, by simp [hp], hb.1, by simp [Core.unrestored, hb.2.1], hb.2.2⟩
theorem ax_loc {q : QCtx} (hm : (q.d.core q.h).map = big.map) {r c : Nat} (hr : r < 128) (hc : c < 128) :
    q.loc true (accRow ax 0 r + BitVec.ofNat 64 (4 * c)) = .bank q.h (0xF0000 + 512 * r + 4 * c) := by
  have ha : (accRow ax 0 r + BitVec.ofNat 64 (4 * c)).toNat = 0xF0000 + 512 * r + 4 * c := by
    simp only [accRow, ax, BitVec.toNat_add, BitVec.toNat_ofNat]; omega
  simp only [QCtx.loc, ha, big_region hm (by omega : 0xF0000 + 512 * r + 4 * c < 2 ^ 20)]
  rw [if_pos trivial, if_neg (by simp; omega)]
theorem witness_MatrixUnit_load : HasCmd (fun q _ => q.reads (accWords q)) := by
  refine hasCmd false c1 big dv [] ⟨rfl, rfl, by decide, fun x _ => rfl, fun x hx => ?_⟩
  simp only [accWords, List.mem_flatMap, List.mem_map, List.mem_range] at hx
  obtain ⟨t, ht, r, hr, c, hc, rfl⟩ := hx
  obtain rfl : t = 0 := by omega
  exact big_readable (a := 0xF0000 + 512 * r + 4 * c) (ax_loc rfl hr hc) (by omega) rfl rfl (by decide +kernel)
theorem witness_MatrixUnit_store :
    let f := fun (q : QCtx) => fmtOf (ofmtOf ((q.d.core q.h).eq q.cq).ctx)
    HasCmd (fun q _ => 128 * (f q).size ≤ ax.pitch.toNat ∧ (∀ t, t < 1 → (q.d.tile q.h (ax.acc.toNat + t)).owner = some (q.h % 4)) ∧
      ax.base.toNat + 128 * 1 * ax.pitch.toNat ≤ 2 ^ 64 ∧ ∀ t r w, t < 1 → r < 128 → w < 32 * (f q).size →
        q.writable (q.wr ax.sp (accRow ax t r + BitVec.ofNat 64 (4 * w)) 0#32)) ∧
    HasCmd (fun q _ => ax.pitch.toNat - 4 < 128 * (f q).size) := by
  refine ⟨hasCmd false c1 big (ct (some 0)) [] ⟨by decide, fun t ht => ?_, by decide, fun t r w ht hr hw => ?_⟩, hasCmd false c1 big dv []⟩
  · obtain rfl : t = 0 := by omega
    decide +kernel
  · obtain rfl : t = 0 := by omega
    have : (⟨⟨[]⟩, 0, false, c1, (qs false c1 big (ct (some 0)) []).dev⟩ : QCtx).loc true (accRow ax 0 r + BitVec.ofNat 64 (4 * w)) = .bank 0 (0xF0000 + 512 * r + 4 * w) :=
      ax_loc rfl hr (Nat.lt_of_lt_of_le hw (by decide))
    simp only [QCtx.writable, QCtx.wr, show ax.sp = true from rfl, this]
theorem witness_MatrixUnit_mm :
    let ctx := fun (q : QCtx) => ((q.d.core q.h).eq q.cq).ctx
    let z := fun q => mmShape mx (ctx q)
    let as := fun (q : QCtx) => q.block 0 1 mx.asrc mx.abase mx.apitch.toNat 0 0 32
    let bs := fun (q : QCtx) => q.block 16384 2 mx.bsrc mx.bbase mx.bpitch.toNat 0 0 32
    let fits := fun (q : QCtx) => mmFits mx (z q) = true ∧ (∀ i, i < (z q).mt * (z q).nt → (q.d.tile q.h (mx.acc.toNat + i)).owner = some (q.h % 4))
    HasCmd (fun q _ => q.atStep hd0 0 ∧ 0 < (z q).mt * (z q).nt * (z q).kb ∧ (z q).scaled = true ∧
        (q.c.begun = false → fits q ∧ q.badObject mx (z q) (ctx q) = none) ∧ q.reads (as q ++ bs q) ∧ mmFits mx (z q) = true ∧ q.reads (q.scales mx (z q))) ∧
    HasCmd (fun q _ => q.c.begun = false ∧ ¬fits q) := by
  refine ⟨hasCmd false c1 big (ct (some 0)) [] ⟨(rfl : (0:Nat) = 0), by decide, by decide, fun _ => ⟨⟨by decide +kernel, fun i hi => ?_⟩, by decide +kernel⟩,
    ⟨rfl, rfl, by decide, fun x _ => rfl, fun x hx => ?_⟩, by decide +kernel, reads_of (by decide) (by decide +kernel)⟩, hasCmd false c1 big (ct none) [] ⟨rfl, fun h => ?_⟩⟩
  · have : i = 0 := Nat.lt_one_iff.mp hi
    subst this; decide +kernel
  · have hx' : ∃ b r w, r < 128 ∧ w < 32 ∧ (b = 0 ∨ b = 0x4000) ∧ x.loc = .bank 0 (b + r * 128 + 4 * w) := by
      rcases List.mem_append.mp hx with hx | hx <;> simp only [QCtx.block, List.mem_flatMap, List.mem_map, List.mem_range] at hx <;>
        obtain ⟨r, hr, w, hw, rfl⟩ := hx
      · exact ⟨0, r, w, hr, hw, .inl rfl, by simp [mx, qs, big, objCore, objIx, courtOf, Core.obj, Dev.core, AMap.get, AMap.find?]⟩
      · exact ⟨0x4000, r, w, hr, hw, .inr rfl, by simp [mx, qs, big, objCore, objIx, courtOf, Core.obj, Dev.core, AMap.get, AMap.find?]⟩
    obtain ⟨b, r, w, hr, hw, hb, hl⟩ := hx'
    exact big_readable hl (by omega) rfl rfl (by decide +kernel)
  · exact absurd (h.2 0 (by decide)) (by decide +kernel)
def reachB (q : QCtx) (need : List Right) (va pa : Nat) : Bool :=
  match q.d.translate q.m q.who need (BitVec.ofNat 64 (lineOf va)) with
  | .ok p lf => p == pa && (q.d.core q.h).plb.any (fun e => e.terr == q.who.terr && e.dom == lf.dom)
  | _ => false
theorem reach_of {q : QCtx} {need : List Right} {va pa : Nat} (h : reachB q need va pa = true) : q.reaches need va pa := by
  unfold reachB at h
  split at h
  · rename_i p lf ht
    simp only [Bool.and_eq_true, beq_iff_eq] at h
    exact ⟨lf, h.1 ▸ ht, .inr (by simpa using h.2)⟩
  · simp at h
/-- A word's line can be written, wherever its page lies. -/
def writableB (q : QCtx) (w : Wr) : Bool :=
  match w.loc with
  | .bank _ _ => true
  | .mem va => va % 4 == 0 && (match q.d.translate q.m q.who [.w] (BitVec.ofNat 64 (lineOf va)) with
    | .ok p _ => reachB q [.w] va p
    | _ => false)
  | .bad _ => false
theorem writable_of {q : QCtx} {w : Wr} (h : writableB q w = true) : q.writable w := by
  unfold writableB at h
  unfold QCtx.writable
  split at h
  · rename_i e; try simp only [e]
  · rename_i va e
    try simp only [e]
    simp only [Bool.and_eq_true, beq_iff_eq] at h
    refine ⟨h.1, ?_⟩
    have h2 := h.2
    split at h2
    · exact ⟨_, reach_of h2⟩
    · simp at h2
  · simp at h
/-- A matrix or copy queue over the local store `big`; the line at 0x100 is in its quay. -/
def dq : Dev := { dv with qsets := ⟨[(quayKey 0x100, [⟨0, 0x100, 0, false, false, false, 0⟩])]⟩ }
def cx (ssp dsp isp : Bool) (src dst idx : W64) (len cnt : W32) (op : BitVec 4) : CpArgs := ⟨ssp, dsp, isp, src, dst, len, cnt, idx, 16#32, 2#8, op⟩
theorem witness_CopySteps :
    (let x := cx false true false 0x100#64 0x40#64 0#64 8#32 0#32 0#4
     let os := stepWords x.len.toNat 0
     HasCmd (fun q _ => q.atStep hd0 0 ∧ q.reads (os.zipIdx.map (fun o => q.rd o.2 6 x.ssp (x.src + BitVec.ofNat 64 o.1))) ∧
        ∀ o, o ∈ os → q.writable (q.wr x.dsp (x.dst + BitVec.ofNat 64 o) 0#32))) ∧
    (let x := cx false false false 0#64 0x1FFFF8#64 0#64 8#32 7#32 0#4
     HasCmd (fun q _ => q.atStep hd0 0 ∧ ∀ o, o ∈ stepWords x.len.toNat 0 → q.writable (q.wr x.dsp (x.dst + BitVec.ofNat 64 o) 0#32))) ∧
    (∀ gather : Bool,
     let x := cx gather (!gather) true 0x100#64 0x8000#64 0x40#64 8#32 2#32 0#4
     let rows := stepRows x.cnt.toNat 0
     let ix := fun (q : QCtx) r => q.value (q.rd 0 8 x.isp (x.idx + BitVec.ofNat 64 (4 * r)))
     let ixs := fun (q : QCtx) => rows.zipIdx.map (fun r => q.rd r.2 8 x.isp (x.idx + BitVec.ofNat 64 (4 * r.1)))
     let from_ := fun r (i : W32) => if gather then x.src + BitVec.ofNat 64 (i.toNat * x.ipitch.toNat) else x.src + BitVec.ofNat 64 (r * x.len.toNat)
     let into := fun r (i : W32) => if gather then x.dst + BitVec.ofNat 64 (r * x.len.toNat) else x.dst + BitVec.ofNat 64 (i.toNat * x.ipitch.toNat)
     let rs := fun (q : QCtx) => (rowWords x.len.toNat (rows.map (fun r => (r, ix q r))) from_).map (fun w => q.rd (64 + w.1) 6 x.ssp w.2)
     let to_ := fun (q : QCtx) r w => into r (ix q r) + BitVec.ofNat 64 (4 * w)
     HasCmd (fun q _ => q.atStep hd0 0 ∧ q.reads (ixs q ++ rs q) ∧
          ∀ r w, r ∈ rows → w < x.len.toNat / 4 → q.writable (q.wr x.dsp (to_ q r w) 0#32) ∧
            ∀ r' w', r' ∈ rows → w' < x.len.toNat / 4 → to_ q r w = to_ q r' w' → r = r' ∧ w = w')) := by
  refine ⟨hasCmd true c1 big dq [] ⟨rfl, reads_of (by decide) (by decide +kernel), fun o ho => writable_of ?_⟩,
    hasCmd true c1 big dq [] ⟨rfl, fun o ho => writable_of ?_⟩, fun gather => ?_⟩
  · revert o; decide +kernel
  · revert o; decide +kernel
  · have two : ∀ (P : Nat → Nat → Prop), P 0 0 → P 0 1 → P 1 0 → P 1 1 → ∀ r w, r ∈ stepRows 2 0 → w < 2 → P r w := by
      intro P h1 h2 h3 h4 r w hr hw
      have hr : r = 0 ∨ r = 1 := by simpa [stepRows, List.range, List.range.loop] using hr
      have hw : w = 0 ∨ w = 1 := by omega
      rcases hr with rfl | rfl <;> rcases hw with rfl | rfl <;> assumption
    cases gather
    · refine hasCmd true c1 { big with words := ⟨[(16, 5#32), (17, 9#32)]⟩ } dq [] ⟨rfl, reads_of (by decide) (by decide +kernel), two _ ?_ ?_ ?_ ?_⟩ <;>
        exact ⟨writable_of (by decide +kernel), two _ (by decide +kernel) (by decide +kernel) (by decide +kernel) (by decide +kernel)⟩
    · refine hasCmd true c1 { big with words := ⟨[(16, 5#32), (17, 9#32)]⟩ } dq [] ⟨rfl, reads_of (by decide) (by decide +kernel), two _ ?_ ?_ ?_ ?_⟩ <;>
        exact ⟨writable_of (by decide +kernel), two _ (by decide +kernel) (by decide +kernel) (by decide +kernel) (by decide +kernel)⟩
/-- An atomic of slot 0 on the line at 0x80, with its grant to come. -/
def rqa : LeaseReq := ⟨0, 0, 0x80, 0x80, some 7⟩
theorem witness_Atomics :
    Can ((useA [wa 2#4, ra 2#4, ra 3#4, ra 1#4]).long 1#4) (fun c => c.sure ∧ c.openRecs = [] ∧ c.s.winStores = [] ∧ (c.s.addr1 1#4 8#24).toNat % 8 = 0 ∧
      c.s.recFor (c.s.addr1 1#4 8#24) = none ∧ c.mapped [.r, .w, .a] (c.s.addr1 1#4 8#24) 0x1000) ∧
    (let o := { op7 with kind := .amo .cas true 5#64 7#64 }
     Has (fun _ d => rqa.amo = some 7 ∧ d.op? rqa.h rqa.n 7 = some o ∧ o.kind = .amo .cas true 5#64 7#64 ∧ (d.slot rqa.h rqa.n).kind ≠ .ordered ∧
       d.linePoison.contains rqa.pa = false)) :=
  ⟨can (mk { sa [(1, 0xFF8#64)] with leases := [rc] } cr dv []) ⟨by decide, by decide, by decide, by decide, by decide, mapped_of (by decide +kernel)⟩,
   has (mk { sl with ops := [{ op7 with kind := .amo .cas true 5#64 7#64 }] } cr dv []).dev⟩
theorem writes_of {q : QCtx} {ws : List Wr} (h : ws.all (writableB q) = true) : ∀ w, w ∈ ws → q.writable w :=
  fun w hw => writable_of (List.all_eq_true.mp h w hw)
/-- Pairs that a cp.spred sends to the word at 0x1FFFFC. -/
def up : Upd := ⟨0, 0, 0, 0x1FFFFC, 0, 0, [5#32], [], []⟩
theorem witness_EngineWrites_pairs :
    (let x := { cx true false false 0x100#64 0x1FFFF0#64 0#64 1#32 0#32 0#4 with typ := 2#8 }
     let word := fun (q : QCtx) i => q.rd i 6 x.ssp (x.src + BitVec.ofNat 64 (4096 * 0 + 4 * i))
     let tgt := fun (q : QCtx) j => x.dst + (q.value (word q (2 * j))).setWidth 64 <<< 2
     HasCmd (fun q _ => q.atStep hd0 0 ∧ x.typ.toNat ≤ 2 ∧ q.reads ((List.range (2 * 1)).map (word q)) ∧
        ∀ j, j < 1 → isWindow (tgt q j) = false ∧ ∃ pa, q.reaches [.r, .w, .a] (tgt q j).toNat pa)) ∧
    HasCmd (fun q _ => q.c.begun = false ∧ 2 < (3#8).toNat) ∧
    Has (fun _ d => up.id = 0 ∧ ∃ y, y ∈ d.merges.get [] 2 ∧ sameUpd y up = true) ∧
    Has (fun _ d => up.id = 0 ∧ (∀ y, y ∈ d.merges.get [] 2 → sameUpd y up = false) ∧ (d.merges.get [] 2).length < 64) ∧
    Has (fun _ d => up.id = 0 ∧ (∀ y, y ∈ d.merges.get [] 2 → sameUpd y up = false) ∧ 64 ≤ (d.merges.get [] 2).length) ∧
    Has (fun _ d => up.id = 0 ∧ up.pa % 4 = 0 ∧ d.pending (lineOf up.pa) = false ∧ d.heldLine (lineOf up.pa) = false ∧
        d.hostLines.contains (lineOf up.pa) = false) ∧
    Has (fun _ d => up.id = 0 ∧ d.pending (lineOf up.pa) = true) := by
  refine ⟨hasCmd true c1 { big with words := ⟨[(64, 3#32), (65, 7#32)]⟩ } dv [] ⟨rfl, by decide, reads_of (by decide) (by decide +kernel), fun j hj => ?_⟩,
    hasCmd true c1 big dv [], has { dv with merges := ⟨[(2, [up])]⟩ } ⟨rfl, up, by decide⟩, has { dv with merges := ⟨[(2, [{ up with pa := 0x100 }])]⟩ },
    has { dv with merges := ⟨[(2, List.replicate 64 { up with pa := 0x100 })]⟩ }, has dv,
    has { dv with homes := ⟨[(homeOf 0x1FFF80, { Home.init with pend := [(0x1FFF80, 5)] })]⟩ }⟩
  obtain rfl : j = 0 := Nat.lt_one_iff.mp hj
  exact ⟨by decide +kernel, 0x1FFF80, reach_of (by decide +kernel)⟩
theorem witness_EngineWrites_landings :
    let w : EngWord := ⟨0, 0xFFFC, 7#32, 2, true, 3, 0⟩
    let plain := fun (d : Dev) => (∃ key g, (d.core w.dst).regionOf w.addr = some (key, g) ∧ rgnTbl g = 0) ∧
      (d.core w.dst).sealedAt w.addr = false ∧ d.landingBlocked w = false
    Has (fun _ d => plain d) ∧ Has (fun _ d => plain d ∧ (∀ x, x ∈ (d.core w.dst).heldEng → ¬(x.h = w.h ∧ x.cq = w.cq))) ∧
    Has (fun _ d => d.landingBlocked w = true) := by
  refine ⟨has { dv with cores := ⟨[(0, cr)]⟩ } ⟨⟨0, 0x800F0000#32, by decide +kernel⟩, by decide +kernel⟩,
    has { dv with cores := ⟨[(0, { cr with heldEng := [⟨0, 0xFFFC, 7#32, 2, false, 3, 0⟩] })]⟩ } ⟨⟨⟨0, 0x800F0000#32, by decide +kernel⟩, by decide +kernel⟩, by decide +kernel⟩,
    has { dv with cores := ⟨[(0, { cr with heldEng := [⟨0, 0xFFFC, 7#32, 2, true, 2, 0⟩] })]⟩ }⟩
/-- A second page, in host memory, whose first half is a pool of launch 0's terrace: blocks of 2304 bytes. -/
def pl : Pool := ⟨0x200000#64, 0, 0, true, 0, 8, [3], 5⟩
def kd : Dev := { dv with xl := ⟨[(0, [⟨0x200000, 2 ^ 21, 0x800000000001E#64, BitVec.allOnes 64⟩, ⟨0, 2 ^ 21, 0x1E#64, BitVec.allOnes 64⟩])]⟩, depots := ⟨[(0, pl)]⟩ }
/-- The header of the block at the pool's second frame: one holding. -/
def hm : List Host.Cell := [(2 ^ 51 + 2304 + 20, 1#8)]
def kx (src dst ses : W64) (nb : W32) : KvArgs := ⟨0#4, 0#4, src, dst, nb, ses⟩
theorem witness_PrefixCache_export :
    (let x := kx 0x200900#64 0x1000#64 0x300000#64 2#32
     let line := fun (q : QCtx) => lineOfBytes (wordBytes ((q.words x.src 32).map (fun w => some (q.value w))))
     let st := fun q => hStride (line q)
     HasCmd (fun q _ => (0 = 0 ∧ hd0.rstep = 0 ∧ q.atStep hd0 0 ∧ x.src = x.src) ∧ 0 < x.nb.toNat ∧ x.nb.toNat ≤ 4096 ∧ x.src ≠ 0#64 ∧ x.src.toNat % 256 = 0 ∧
        q.reads (q.words x.src (st q / 4)) ∧ q.d.frameCheck (terrOf q.c.lk) x.src (line q) = 0 ∧
        ∀ w, w ∈ q.puts (x.dst + BitVec.ofNat 64 (recordHead 2 + 0 * st q)) ((q.words x.src (st q / 4)).map q.value) ++
          q.puts (x.dst + BitVec.ofNat 64 (608 + 8 * 0)) [0#32, 0#32] → q.writable w) ∧
     HasCmd (fun q _ => q.c.begun = true ∧ q.c.step = x.nb.toNat ∧ hd0.rstep.toNat < x.nb.toNat ∧ q.reads (q.words x.ses 18) ∧
        ∀ w, w ∈ q.puts x.dst (List.replicate 152 0#32) → q.writable w)) :=
  ⟨hasCmd true c1 big kd hm ⟨⟨rfl, rfl, rfl, rfl⟩, by decide, by decide, by decide, by decide, reads_of (by decide) (by decide +kernel), by decide +kernel,
     writes_of (by decide +kernel)⟩,
   hasCmd true { c1 with begun := true, step := 2 } big kd hm ⟨rfl, rfl, by decide, reads_of (by decide) (by decide +kernel), writes_of (by decide +kernel)⟩⟩
/-- What step s of a kv.imp of two blocks reads, and what it writes. -/
def impX : KvArgs := kx 0x300000#64 0x3F0000#64 0#64 2#32
def impBody (s : Nat) (q : QCtx) : List Rd :=
  q.words (impX.src + BitVec.ofNat 64 (recordHead 2 + (s - 1) * (q.d.pool 0 0).stride)) ((q.d.pool 0 0).stride / 4)
def impWs (s : Nat) (q : QCtx) : List Wr :=
  let g := (q.d.pool 0 0).frame 3
  let eq := (q.d.core q.h).eq q.cq
  q.puts g (importFrame (q.d.terrace (terrOf q.c.lk)).ctx ((impBody s q).map q.value)) ++
    (if s = 1 then [] else q.puts (eq.kvPrev + 24#64) (addrWords g)) ++ (if s = 2 then q.puts impX.dst (addrWords (if s = 1 then g else eq.kvFirst)) else [])
/-- The copy queue with what its first step left. -/
def impD : Dev := { kd with cur := .queue 0 true, cores := ⟨[(0, { big with cq := { EQ.init with q := [c1], kvFirst := 0x200900#64, kvPrev := 0x210000#64 } })]⟩ }
def impQ : QCtx := ⟨⟨[]⟩, 0, true, c1, impD⟩
theorem imp_reads : (impBody 1 impQ).all (readableB impQ) = true ∧ (impBody 2 impQ).all (readableB impQ) = true := by decide +kernel
theorem imp_writes : (impWs 1 impQ).all (writableB impQ) = true ∧ (impWs 2 impQ).all (writableB impQ) = true := by decide +kernel
/-- Their addresses rise from word to word. -/
def risingB : List Nat → Bool
  | a :: b :: r => decide (a < b) && risingB (b :: r)
  | _ => true
theorem nodup_of {l : List W64} (h : risingB (l.map (·.toNat)) = true) : l.Nodup := by
  have key : ∀ l : List Nat, risingB l = true → l.Pairwise (· < ·) := by
    intro l
    induction l with
    | nil => exact fun _ => List.Pairwise.nil
    | cons a r ih =>
      intro h
      cases r with
      | nil => simp
      | cons b r =>
        simp only [risingB, Bool.and_eq_true, decide_eq_true_eq] at h
        have hp := ih h.2
        refine List.Pairwise.cons (fun x hx => ?_) hp
        rcases List.mem_cons.mp hx with rfl | hx
        · exact h.1
        · exact Nat.lt_trans h.1 ((List.pairwise_cons.mp hp).1 x hx)
  have h2 := List.pairwise_map.mp (key _ h)
  exact h2.imp (fun hab heq => absurd (congrArg BitVec.toNat heq) (Nat.ne_of_lt hab))
theorem imp_nodup : ((impWs 1 impQ).map (·.va)).Nodup ∧ ((impWs 2 impQ).map (·.va)).Nodup := ⟨nodup_of (by decide +kernel), nodup_of (by decide +kernel)⟩
theorem witness_PrefixCache_import (s : Nat) (hs : s = 1 ∨ s = 2) :
    HasCmd (fun q _ => q.atStep { hd0 with rstep := BitVec.ofNat 16 s } s ∧ 0 < s ∧ s ≤ impX.nb.toNat ∧ (q.d.pool 0 0).of (terrOf q.c.lk) = true ∧
      (q.d.pool 0 0).pop = some (3, { pl with pushed := [] }) ∧ q.reads (impBody s q) ∧ (∀ w, w ∈ impWs s q → q.writable w) ∧ ((impWs s q).map (·.va)).Nodup) := by
  refine ⟨⟨⟨[]⟩, impD⟩, 0, true, c1, [], rfl, rfl, ?_⟩
  show impQ.atStep _ s ∧ _
  rcases hs with rfl | rfl
  · exact ⟨rfl, by decide, by decide, by decide, by decide, reads_of (q := impQ) (by decide) imp_reads.1, writes_of (q := impQ) imp_writes.1, imp_nodup.1⟩
  · exact ⟨rfl, by decide, by decide, by decide, by decide, reads_of (q := impQ) (by decide) imp_reads.2, writes_of (q := impQ) imp_writes.2, imp_nodup.2⟩
/-- A bucket with an entry that the chain over 16 zero tokens matches. -/
def h0 : W64 := kvChain 0#64 (List.replicate 16 0#32)
def ke : BitVec 128 := mkEnt h0 0#32 0 0 1
theorem witness_PrefixCache_forms :
    let chain := fun (c : Ctx) => kvChain (c.s.A 1) ((List.range 16).map (lane (c.s.V 4)))
    let find := fun (c : Ctx) => c.d.findEnt (chain c) c.tag
    let u := (useV [4#7] [wa 2#4, ra 1#4, wa 1#4, rv 4#7]).long 1#4
    Can u (fun c => c.quiet ∧ find c = none) ∧
    Can u (fun c => c.quiet ∧ find c = some ke ∧ (c.d.pool (entDep ke) (entPool ke)).of (terrOf c.s.lk) = true ∧
      entIndex ke < (c.d.pool (entDep ke) (entPool ke)).count ∧ 0x200900#64 = (c.d.pool (entDep ke) (entPool ke)).frame (entIndex ke) ∧
      c.mapped [.r] 0x200900#64 (2 ^ 51 + 0x900) ∧ ∀ o, o ∈ c.s.ops → o.id ≠ c.d.count) ∧
    (Can (useA [wa 2#4, ra 1#4]) (fun c => c.sure ∧ c.s.reply = .done 7#64)) ∧
    (Can (useA [wa 2#4, ra 1#4, ra 3#4]) (fun c => c.sure ∧ c.s.reply = .done 7#64)) ∧
    (Can (useA [ra 1#4, ra 3#4]) (fun c => c.sure ∧ c.s.reply = .done 7#64)) ∧
    Can (useA [wa 2#4, ra 1#4]) (fun c => c.sure ∧ c.s.reply = .idle ∧ ((c.s.A 1).toNat % 256 ≠ 0 ∨ isWindow (c.s.A 1) = true)) ∧
    Can (useA [ra 1#4, ra 3#4]) (fun c => c.sure ∧ c.s.reply = .idle ∧ ((c.s.A 1).toNat % 256 ≠ 0 ∨ isWindow (c.s.A 1) = true)) :=
  ⟨can (mk sl cr kd []) ⟨quiet_of (by decide +kernel), by decide +kernel⟩,
   can (mk sl cr { kd with buckets := ⟨[(bucketOf h0, ke.setWidth 512)]⟩ } []) ⟨quiet_of (by decide +kernel), by decide +kernel, by decide +kernel, by decide +kernel,
     by decide +kernel, mapped_of (by decide +kernel), by decide +kernel⟩,
   can (mk { sl with reply := .done 7#64 } cr kd []), can (mk { sl with reply := .done 7#64 } cr kd []), can (mk { sl with reply := .done 7#64 } cr kd []),
   can (mk (sa [(1, 0x2009FF#64)]) cr kd []), can (mk (sa [(1, 0x01FF000000000000#64)]) cr kd [])⟩
/-- A lookup that waits for the header at 0x80; memory with that header: inserted, hash h0, one holding. -/
def kl : LongOp := { op7 with kind := .kvlook 2 1 }
def hx (refs : Byte) : List Host.Cell := [(0x87, 1#8)] ++ (leBytes 8 h0.toNat).zipIdx.map (fun b => (0x88 + b.2, b.1)) ++ [(0x94, refs)]
theorem witness_PrefixCache_headers :
    let clear := fun (d : Dev) => d.pending 0x80 = false ∧ d.heldLine (lineOf 0x80) = false ∧ d.hostLines.contains (lineOf 0x80) = false
    let hd := fun (m : Memory) => m.line (lineOf 0x80)
    let hit := fun (m : Memory) => hRefs (hd m) ≠ 0#32 ∧ hIns (hd m) = true ∧ hHash (hd m) = h0 ∧ hCtx (hd m) = 0#32
    let look := fun (d : Dev) => d.linePoison.contains (lineOf 0x80) = false ∧ d.op? 0 0 7 = some kl ∧ kl.kind = .kvlook 2 1
    Has (fun m d => 0x80 % 128 = 0 ∧ clear d ∧ look d ∧ hit m) ∧
    Has (fun m d => d.pending 0x80 = false ∧ look d ∧ (d.visit (d.fnOf (d.slot 0 0).lk) false [0x80]).2 = true ∧ (hRefs (hd m) = 0#32 ∨ hIns (hd m) = false ∨ hHash (hd m) ≠ h0 ∨ hCtx (hd m) ≠ 0#32)) ∧
    (∀ two : Bool, Has (fun m d => 0x80 % 128 = 0 ∧ clear d ∧ hRefs (hd m) = if two then 2#32 else 1#32)) ∧
    Has (fun m d => 0 < nCores ∧ d.pending 0x80 = false ∧ hRefs (hd m) = 0#32 ∧ (d.slot 0 0).reply ≠ .stale ∧
      (d.visit (d.fnOf (d.slot 0 0).lk) false [0x80]).2 = true) :=
  ⟨hasIn (hx 1#8) (mk { sl with ops := [kl] } cr dv []).dev, hasIn (hx 0#8) (mk { sl with ops := [kl] } cr dv []).dev,
   fun two => hasIn (hx (if two then 2#8 else 1#8)) dv (by cases two <;> decide +kernel), hasIn (hx 0#8) dv⟩
theorem witness_PrefixCache_buckets :
    let es := fun (d : Dev) => (List.range 4).map (bucketEnt (d.bucket (bucketOf h0)))
    let same := fun d => (es d).any (fun z => entMatches z (entHash ke) (entCtx ke))
    let here := fun (d : Dev) => 0 < nCores ∧ (d.slot 0 0).reply ≠ .stale
    Has (fun _ d => here d ∧ same d = true) ∧ Has (fun _ d => here d ∧ same d = false ∧ (es d).all entValid = true) ∧
    Has (fun _ d => here d ∧ same d = false ∧ (es d).all entValid = false ∧ entValid ke = true) :=
  let full (b : BitVec 128) : Dev := { kd with buckets := ⟨[(bucketOf h0, b ++ b ++ b ++ b)]⟩ }
  ⟨has { kd with buckets := ⟨[(bucketOf h0, ke.setWidth 512 <<< 384)]⟩ }, has (full (mkEnt 7#64 0#32 0 0 1)), has (full 0#128)⟩
/-- What a header at a slot's tail must be, decided. -/
def blockB (c : Ctx) (va : W64) (rest : Line → Nat → Dev → Bool) : Bool :=
  match c.readLine va [.w] with
  | .ok l p d => rest l p d
  | _ => false
theorem block_of {c : Ctx} {va : W64} {rest : Line → Nat → Dev → Bool} (h : blockB c va rest = true) :
    ∃ l p d, c.readLine va [.w] = .ok l p d ∧ rest l p d = true := by
  unfold blockB at h
  split at h
  · exact ⟨_, _, _, ‹_›, h⟩
  · simp at h
/-- An address is mapped at whatever its page gives. -/
def mappedAt (c : Ctx) (need : List Right) (va : W64) : Bool :=
  match c.d.findLeaf (districtOf c.h) va.toNat with | some lf => mappedB c need va (lf.pa va.toNat) | none => false
theorem mappedAt_of {c : Ctx} {need : List Right} {va : W64} (h : mappedAt c need va = true) : ∃ pa, c.mapped need va pa := by
  unfold mappedAt at h
  split at h
  · exact ⟨_, mapped_of h⟩
  · simp at h
/-- A thread's tail in the pool's second frame, whose header with n tokens and one holding is in the L1. -/
def kvs (n : Byte) : State := mk { sa [(2, 0x200900#64)] with winCount := 128 } { cr with l1 := ⟨[(0x200900, ⟨(0x0000000100000000#64 ++ 0#64 ++ 0#64).setWidth 1024 ||| (n.setWidth 1024 <<< 32), false, none, BitVec.allOnes 32⟩)]⟩ } kd []
theorem witness_AttentionForms_pools :
    let here := fun (d : Dev) => 0 < nCores ∧ (d.slot 0 0).reply ≠ .stale
    Has (fun _ d => here d ∧ (d.pool 0 0).pop = some (3, { pl with pushed := [] })) ∧
    Has (fun _ d => here d ∧ (d.pool 0 0).pop = some (7, { pl with pushed := [], fresh := 8 })) ∧ Has (fun _ d => here d ∧ (d.pool 0 0).pop = none) :=
  ⟨has kd, has { kd with depots := ⟨[(0, { pl with pushed := [], fresh := 7 })]⟩ }, has { kd with depots := ⟨[(0, { pl with pushed := [], fresh := 8 })]⟩ }⟩
theorem witness_AttentionForms_kvapp :
    let u := useV [8#7, 9#7] [wa 2#4, ra 2#4, rv 8#7, rv 9#7, ra 3#4]
    let tail := fun (c : Ctx) => c.s.A 2
    let c' := fun (c : Ctx) dv => ({ c with d := dv, s := dv.slot c.h c.n } : Ctx)
    let block := fun (c : Ctx) l pa dv => c.sure ∧ (tail c).getLsbD 63 = false ∧ (tail c).toNat % 256 = 0 ∧ isWindow (tail c) = false ∧
      c.readLine (tail c) [.w] = .ok l pa dv ∧ dv.frameCheck (terrOf c.s.lk) (tail c) l = 0
    (∀ n, n = 0 ∨ n = 15 → Can u (fun c => ∃ l pa dv, block c l pa dv ∧ hCount l = n ∧ hCount l < 16 ∧ (c' c dv).bufferAway = false ∧ (c' c dv).spanGate 8 9 (hRb l / 64) = none ∧ c.s.kind ≠ .ordered ∧
      (∀ w, w ∈ appSegs c.s 8 9 (hRb l / 64) (hRb l) (hCount l) (c.s.A 3) (tail c) → ∃ q, (c' c dv).mapped [.w] w.va q) ∧
      ((dv.core c.h).dir.filter (fun e => e.buf == c.buffer.1)).length + 2 * (hRb l / 64) + 3 ≤ c.buffer.2 ∧
      (∀ e, e ∈ (dv.core c.h).dir → e.buf = c.buffer.1 → e.rec_ < c.buffer.2) ∧ (tail c).toNat + 256 + 32 * hRb l ≤ 2 ^ 57)) ∧
    Can u (fun c => ∃ l pa dv, block c l pa dv ∧ hCount l = 16 ∧ (dv.pool (hDep l) (hPool l)).of (terrOf c.s.lk) = true ∧
      (c' c dv).spanGate 8 9 (rowBytes (hHc l) (hFmt l) / 64) = none ∧ (dv.slot c.h c.n).reply = .idle ∧
      (c' c dv).newRecords (rowBytes (hHc l) (hFmt l)) (some (tail c)) ≤ (c' c dv).freeRecords) ∧
    Can u (fun c => c.sure ∧ (tail c).getLsbD 63 = true ∧ (tail c).extractLsb' 40 23 ≠ 0#23) := by
  refine ⟨fun n hn => can (kvs (BitVec.ofNat 8 n)) ?_ (by rcases hn with rfl | rfl <;> decide +kernel), can (kvs 16#8) ?_,
    can (mk (sa [(2, 0x8000010000000000#64)]) cr kd [])⟩
  · have key : blockB ((kvs (BitVec.ofNat 8 n)).ctx 0 0 0#64) 0x200900#64 (fun l _ dv =>
        let c := (kvs (BitVec.ofNat 8 n)).ctx 0 0 0#64
        let c' : Ctx := { c with d := dv, s := dv.slot c.h c.n }
        decide (dv.frameCheck (terrOf c.s.lk) 0x200900#64 l = 0 ∧ hCount l = n ∧ hCount l < 16 ∧ c'.bufferAway = false) && (c'.spanGate 8 9 (hRb l / 64)).isNone &&
        (appSegs c.s 8 9 (hRb l / 64) (hRb l) (hCount l) (c.s.A 3) 0x200900#64).all (fun w => mappedAt c' [.w] w.va) &&
        decide (((dv.core c.h).dir.filter (fun e => e.buf == c.buffer.1)).length + 2 * (hRb l / 64) + 3 ≤ c.buffer.2 ∧ (dv.core c.h).dir = [] ∧
          (0x200900 : Nat) + 256 + 32 * hRb l ≤ 2 ^ 57)) = true := by rcases hn with rfl | rfl <;> decide +kernel
    obtain ⟨l, p, dv, h1, h2⟩ := block_of key
    simp only [Bool.and_eq_true, decide_eq_true_eq, List.all_eq_true, Option.isNone_iff_eq_none] at h2
    obtain ⟨⟨⟨h3, h4⟩, h5⟩, h6⟩ := h2
    exact ⟨l, p, dv, ⟨by rcases hn with rfl | rfl <;> decide, by rcases hn with rfl | rfl <;> decide, by rcases hn with rfl | rfl <;> decide, by rcases hn with rfl | rfl <;> decide,
      h1, h3.1⟩, h3.2.1, h3.2.2.1, h3.2.2.2, h4, by rcases hn with rfl | rfl <;> decide, fun w hw => mappedAt_of (h5 w hw), h6.1, by rw [h6.2.1]; simp, h6.2.2⟩
  · have key : blockB ((kvs 16#8).ctx 0 0 0#64) 0x200900#64 (fun l _ dv =>
        let c := (kvs 16#8).ctx 0 0 0#64
        let c' : Ctx := { c with d := dv, s := dv.slot c.h c.n }
        decide (dv.frameCheck (terrOf c.s.lk) 0x200900#64 l = 0 ∧ hCount l = 16 ∧ (dv.pool (hDep l) (hPool l)).of (terrOf c.s.lk) = true) &&
        (c'.spanGate 8 9 (rowBytes (hHc l) (hFmt l) / 64)).isNone && decide ((dv.slot c.h c.n).reply = .idle ∧
          c'.newRecords (rowBytes (hHc l) (hFmt l)) (some 0x200900#64) ≤ c'.freeRecords)) = true := by decide +kernel
    obtain ⟨l, p, dv, h1, h2⟩ := block_of key
    simp only [Bool.and_eq_true, decide_eq_true_eq, Option.isNone_iff_eq_none] at h2
    obtain ⟨⟨h3, h4⟩, h5⟩ := h2
    exact ⟨l, p, dv, ⟨by decide, by decide, by decide, by decide, h1, h3.1⟩, h3.2.1, h3.2.2, h4, h5⟩
/-- A launch with one live mask, and a slot of it that may migrate; its word at 0x200004 lies in host memory. -/
def ml : Launch := { la with lives := [(0#128, 4#16, 2#8)], resv := ⟨[(2, ⟨[1], [], 0⟩)]⟩ }
def md : Dev := { kd with launches := ⟨[(0, ml)]⟩ }
theorem witness_AttentionForms :
    let at_ := fun (c : Ctx) => c.s.addr1 3#4 0#24
    let f := fun (c : Ctx) => c.s.A 3
    let row := fun (c : Ctx) => f c + 256#64 + (64#24).signExtend 64
    let x := fun (c : Ctx) => c.s.A 1
    let um := (useA [wa 2#4, ra 1#4]).long 5#4
    let ul := ((⟨[6], [], [wv 6#7, ra 3#4], none, .all, false⟩ : Use).masked 1#3 true).long 5#4
    let stays := fun (c : Ctx) => c.quiet ∧ c.s.reply ≠ .sent ∧ c.s.ops = [] ∧ c.d.launch? c.s.lk = some ml ∧ (0#4).toNat < ml.lives.length
    let o := { op7 with kind := .rtab }
    Can (useA [ra 3#4]) (fun c => (at_ c).toNat % 64 = 0 ∧ c.s.ops.find? (fun o => o.kind == .rtab) = some o ∧ ∀ y, y ∈ o.acc → y.st = .got) ∧
    Can (useA [ra 3#4]) (fun c => (at_ c).toNat % 64 ≠ 0) ∧
    Can ul (fun c => c.s.kind ≠ .ordered ∧ c.bufferAway = false ∧ (∀ o, o ∈ c.s.ops → o.id ≠ c.d.count) ∧ (f c).toNat % 256 = 0 ∧ c.mapped [.r] (f c) 0x1000 ∧ c.mapped [.r] (row c &&& ~~~(3#64)) 0x1140 ∧
        (c.d.core c.h).l1.find? (lineOf (f c).toNat) = none ∧ (c.d.core c.h).l1.find? (lineOf (row c &&& ~~~(3#64)).toNat) = none) ∧
    Can ul (fun c => (f c).toNat % 256 ≠ 0) ∧
    Can um (fun c => stays c ∧ (x c).toNat % 4 = 0 ∧ c.mapped [.r] (x c) (2 ^ 51 + 4) ∧ c.s.leases = [] ∧ c.s.loading = false ∧ c.d.migrTarget c.s.lk c.h (2 ^ 51 + 4) = c.h) ∧
    Can um (fun c => stays c ∧ (x c).toNat % 4 ≠ 0) ∧ Can um (fun c => stays c ∧ (x c).toNat % 4 = 0 ∧ isWindow (x c) = true) ∧
    Has (fun _ d => (d.slot 0 0).reply = .sent ∧ (∀ w, (d.slot 0 0).st ≠ .held w) ∧ d.launch? (d.slot 0 0).lk = some ml ∧ d.freeSlot (d.slot 0 0).lk 2 = some (0, 1) ∧ 2 ≠ 0) :=
  ⟨can (mk { sa [(3, 0x1000#64)] with ops := [{ op7 with kind := .rtab }] } cr md []), can (mk (sa [(3, 0x103C#64)]) cr md []),
   can (mk (sa [(3, 0x1000#64)]) cr md []) ⟨by decide, by decide +kernel, fun _ h => (nomatch h), by decide, mapped_of (by decide +kernel), mapped_of (by decide +kernel), by decide +kernel⟩,
   can (mk (sa [(3, 0x10C0#64)]) cr md []),
   can (mk (sa [(1, 0x200004#64)]) cr md []) ⟨⟨quiet_of (by decide +kernel), by decide +kernel⟩, by decide, mapped_of (by decide +kernel), by decide +kernel⟩,
   can (mk (sa [(1, 0x200005#64)]) cr md []) ⟨⟨quiet_of (by decide +kernel), by decide +kernel⟩, by decide⟩,
   can (mk (sa [(1, 0x01FF000000000000#64)]) cr md []) ⟨⟨quiet_of (by decide +kernel), by decide +kernel⟩, by decide⟩,
   has (mk { sl with reply := .sent } cr md []).dev ⟨by decide +kernel, fun _ h => (nomatch h), by decide +kernel⟩⟩
/-- An unprivileged slot with some a-registers. -/
def un (as : List (Nat × W64)) : Slot := { sa as with tsw := 0#32 }
theorem witness_SpecialRegisters :
    let v := fun (c : Ctx) => c.s.A 1
    let breach := fun (c : Ctx) => c.s.priv = false ∧ ((c.s.tsw.getLsbD 8 ≠ (v c).getLsbD 8) ∨ (c.s.tsw.getLsbD 9 ≠ (v c).getLsbD 9))
    Can (useA [wa 2#4]) (fun _ => True) ∧ Can (useA [ra 1#4]) (fun _ => True) ∧ Can (useA [ra 1#4]) (fun c => c.s.priv = true ∧ ¬breach c) ∧
    Can (useA [ra 1#4]) (fun c => c.s.priv = false ∧ ¬breach c) ∧ Can (useA [ra 1#4]) breach ∧ Can (useA [ra 1#4]) (fun c => c.s.priv = true) ∧
    Can (useA [ra 1#4]) (fun c => c.s.priv = false) :=
  ⟨can (mk sl cr dv []) trivial, can (mk sl cr dv []) trivial, can (mk (sa [(1, 0xFFFFFFFF#64)]) cr dv []), can (mk (un [(1, 0xFFFFFCFF#64)]) cr dv []),
   can (mk (un [(1, 0x200#64)]) cr dv []), can (mk sl cr dv []), can (mk (un []) cr dv [])⟩
/-- A debugger holds terrace 0. -/
def hold : Dev := { dv with terr := ⟨[(0, { Terrace.init with w0 := 0x0000080200000000#64, dbg := { Dbg.init with hold := true } })]⟩ }
theorem witness_TrapBreakPark :
    let held := fun (c : Ctx) => (c.d.terrace (terrOf c.s.lk)).dbg.hold
    Can (useA [ra 1#4]) (fun _ => True) ∧ Can (useA []) (fun c => held c = false) ∧ Can (useA []) (fun c => held c = true ∧ c.s.bpPass = some c.s.pc) ∧
    Can (useA []) (fun c => held c = true ∧ c.s.bpPass ≠ some c.s.pc) ∧ Can (useA []) (fun c => c.s.wakeBit = true) ∧ Can (useA []) (fun c => c.s.wakeBit = false) :=
  ⟨can (mk sl cr dv []) trivial, can (mk sl cr dv []), can (mk { sl with bpPass := some 0x1000#64 } cr hold []), can (mk { sl with bpPass := some 0xFF8#64 } cr hold []),
   can (mk { sl with wakeBit := true } cr dv []), can (mk sl cr dv [])⟩
/-- The launch that spawn and eret act in, resident with slot 1 of core 0 reserved. -/
def lr : Launch := { la with resv := ⟨[(0, ⟨[1], [0], 0⟩)]⟩ }
def sp : Dev := { dv with launches := ⟨[(0, lr)]⟩ }
theorem witness_SlotCommands_forms :
    let ue := (useA [ra 1#4, ra 2#4, ra 3#4]).privileged
    let uw := useA [wa 4#4, ra 1#4]
    let uk := useA [ra 1#4]
    let va := fun (c : Ctx) => c.s.A 1
    let ok := fun (c : Ctx) k => c.d.nameOk (terrOf c.s.lk) (va c) k = true
    let named := fun (c : Ctx) k => c.sure ∧ c.s.reply = .idle ∧ c.d.nameOk (terrOf c.s.lk) (va c) k = true
    Can ue (fun c => ok c false ∧ eretFlagsOk (c.s.A 2) = true ∧ c.s.reply = .idle) ∧
    Can ue (fun c => ok c false ∧ eretFlagsOk (c.s.A 2) = true ∧ c.s.reply = .done 0#64) ∧
    Can ue (fun c => c.d.nameOk (terrOf c.s.lk) (va c) false = false) ∧
    Can uw (fun c => named c true ∧ (va c).extractLsb' 18 2 = 0#2) ∧
    Can uw (fun c => c.sure ∧ c.s.reply = .done 1#64 ∧ ok c true ∧ ((va c).extractLsb' 18 2 = 0#2 ∨ (va c).extractLsb' 18 2 = 1#2 ∧ c.s.priv = true) ∧
      (va c).extractLsb' 18 2 = 1#2) ∧
    Can uw (fun c => c.sure ∧ c.d.nameOk (terrOf c.s.lk) (va c) true = true ∧ (va c).extractLsb' 18 2 = 1#2 ∧ c.s.priv = false) ∧
    (∀ b : AReg, b = 0#4 ∨ b = 2#4 → ∀ r, r = Reply.idle ∨ r = .done 0x1003#64 →
      let us := useA [wa 4#4, ra 1#4, ra b, ra 3#4]
      let core := fun (c : Ctx) => if b = 0#4 then c.h else (c.s.A b.toNat).toNat
      Can us (fun c => (c.sure ∧ core c < 4096 ∧ c.d.launch? c.s.lk = some la ∧ la.has (core c) = true ∧ la.entries.contains (va c).toNat = true) ∧ c.s.reply = r)) ∧
    (let self := fun (c : Ctx) => nameCore (va c) = c.h ∧ nameSlot (va c) = c.n
     Can uk (fun c => named c false ∧ ¬self c) ∧ Can uk (fun c => c.sure ∧ c.s.reply = .done 0#64 ∧ ok c false ∧ ¬self c) ∧ Can uk (fun c => c.sure ∧ ok c false ∧ self c)) := by
  refine ⟨can (mk (sa [(1, 0x3F007#64), (2, 0x702#64)]) cr dv []), can (mk { sa [(1, 0x3F007#64), (2, 0xF2#64)] with reply := .done 0#64 } cr dv []),
    can (mk (sa [(1, 8#64)]) cr dv []), can (mk (un [(1, 0x3F007#64)]) cr dv []), can (mk { sa [(1, 0x40007#64)] with reply := .done 1#64 } cr dv []),
    can (mk (un [(1, 0x40007#64)]) cr dv []), fun b hb r hr => ?_, can (mk (un [(1, 0x3F007#64)]) cr dv []), can (mk { sa [(1, 7#64)] with reply := .done 0#64 } cr dv []), can (mk (sa [(1, 0#64)]) cr dv [])⟩
  rcases hr with rfl | rfl
  · exact can (mk (sa [(1, 64#64), (2, 3#64)]) cr dv []) (by rcases hb with rfl | rfl <;> decide +kernel) (by rcases hb with rfl | rfl <;> decide +kernel)
  · exact can (mk { sa [(1, 64#64), (2, 3#64)] with reply := .done 0x1003#64 } cr dv []) (by rcases hb with rfl | rfl <;> decide +kernel)
      (by rcases hb with rfl | rfl <;> decide +kernel)
/-- A command of slot 0 for slot 1 of core 0, which is in some state. -/
def cmd (y : SlotOp) : SlotCmd := ⟨some (0, 0), none, 0, 1, y⟩
def cd (s : Slot) : Dev := (mk { sl with reply := .sent } { cr with slots := ⟨[(1, s)]⟩ } sp []).dev
theorem witness_SlotCommands :
    let arrives := fun (x : SlotCmd) (y : SlotOp) (pre : Dev → Prop) => Has (fun _ d => x.op = y ∧ d.savedTarget x = none ∧
      (x.issuer = none ∨ terrOf (d.slot x.h x.n).lk = terrOf (d.slot 0 0).lk) ∧ pre d ∧
      (∀ z, x.issuer = some z → z = (0, 0) ∧ 0 < nCores ∧ (0, 0) ≠ (x.h, x.n) ∧ (d.slot 0 0).reply = .sent))
    let may := fun (x : SlotCmd) (d : Dev) => x.issuer = none ∨ (d.slot 0 0).priv = true ∨ (d.slot x.h x.n).lk = (d.slot 0 0).lk
    let tgt := fun (d : Dev) => d.slot 0 1
    arrives (cmd (.wake 0#2)) (.wake 0#2) (fun d => may (cmd (.wake 0#2)) d ∧ (tgt d).st ≠ .free ∧ (tgt d).wakeBit = false ∧ (tgt d).st = .waiting .park) ∧
    arrives (cmd (.wake 2#2)) (.wake 2#2) (fun d => (tgt d).st = .free) ∧
    arrives (cmd .kill) .kill (fun d => may (cmd .kill) d ∧ (tgt d).st ≠ .free ∧ ∀ z, (tgt d).st ≠ .seated z) ∧
    arrives (cmd .kill) .kill (fun d => may (cmd .kill) d ∧ (tgt d).st = .seated 15 ∧ (tgt d).killed = false) ∧
    arrives ⟨none, none, 0, 1, .kill⟩ .kill (fun d => (tgt d).st = .seated 15 ∧ (tgt d).killed = true) ∧
    (∃ e : Dev, (e.core 0).seatedIn (e.clock % 16) = some 0 ∧ (e.slot 0 0).killed = true ∧ e = e.seatAssign 0) ∧
    (∀ act, act = 0 ∨ act = 1 ∨ act = 2 → arrives (cmd (.eret (BitVec.ofNat 64 (0x70 + act)) 5#64)) (.eret (BitVec.ofNat 64 (0x70 + act)) 5#64)
      (fun d => (BitVec.ofNat 64 (0x70 + act)).getLsbD 11 = false ∧ ((BitVec.ofNat 64 (0x70 + act)).extractLsb' 0 2).toNat = act ∧
        (tgt d).st = .held .trap ∧ (tgt d).stopReq = false)) ∧
    (let x := cmd (.spawn 64#64 7#64)
     Has (fun _ d => x.op = .spawn 64#64 7#64 ∧ x.issuer = some (0, 0) ∧ 0 < nCores ∧ d.spawnSaved x = false ∧ (d.slot 0 0).reply = .sent ∧
        (d.slot 0 0).st ≠ .free ∧ d.launch? (d.slot 0 0).lk = some lr ∧ lr.st = .resident ∧ d.freeSlot (d.slot 0 0).lk x.h = some (0, 1))) := by
  have iss : ∀ (x : SlotCmd) (s : Slot), x.issuer = some (0, 0) ∧ (0, 0) ≠ (x.h, x.n) →
      ∀ z, x.issuer = some z → z = (0, 0) ∧ 0 < nCores ∧ (0, 0) ≠ (x.h, x.n) ∧ ((cd s).slot 0 0).reply = .sent := by
    intro x s h z hz
    rw [h.1] at hz
    exact ⟨(Option.some.inj hz).symm, by decide, h.2, rfl⟩
  refine ⟨has (cd { sl with st := .waiting .park }) ⟨by decide +kernel, by decide +kernel, by decide +kernel, by decide +kernel, iss _ _ (by decide)⟩,
    has (cd .init) ⟨by decide +kernel, by decide +kernel, by decide +kernel, by decide +kernel, iss _ _ (by decide)⟩,
    has (cd { sl with st := .held .trap }) ⟨by decide +kernel, by decide +kernel, by decide +kernel, ⟨by decide +kernel, by decide +kernel, fun z h => (nomatch h)⟩, iss _ _ (by decide)⟩,
    has (cd { sl with st := .seated 15 }) ⟨by decide +kernel, by decide +kernel, by decide +kernel, by decide +kernel, iss _ _ (by decide)⟩,
    has (cd { sl with st := .seated 15, killed := true }) ⟨by decide +kernel, by decide +kernel, by decide +kernel, by decide +kernel, fun _ h => (nomatch h)⟩,
    ⟨(mk { sl with killed := true } cr dv []).dev, by decide +kernel⟩, fun act ha => ?_, has (cd .init)⟩
  rcases ha with rfl | rfl | rfl <;>
    exact has (cd { sl with st := .held .trap }) ⟨by decide +kernel, by decide +kernel, by decide +kernel, by decide +kernel, iss _ _ (by decide)⟩
theorem witness_HaltSeatsGranules :
    Can (useA []) (fun c => c.quiet ∧ c.s.ops = [] ∧ c.s.leases = [] ∧ c.s.kind ≠ .ordered) ∧
    Has (fun _ d => (d.core 0).seatedIn (d.clock % 16) = none ∧ d.seatChoice 0 (d.clock % 16) = some 1) ∧
    Has (fun _ d => (d.core 0).seatedIn (d.clock % 16) ≠ none) ∧ Has (fun _ d => (d.core 0).seatedIn (d.clock % 16) = none ∧ d.seatChoice 0 (d.clock % 16) = none) ∧
    Has (fun _ d => (d.core 0).entriesUsed 0 ((d.slot 0 0).winBase + 8 * 15) = false) :=
  ⟨can (mk sl cr dv []) ⟨quiet_of (by decide), by decide⟩,
   has (mk { sl with st := .seated 3 } { cr with slots := ⟨[(1, { sl with st := .ready })]⟩ } sp []).dev, has (mk sl cr dv []).dev, has dv,
   has dv⟩
theorem witness_ShootdownsAndProfiling :
    let v := fun (c : Ctx) => c.s.A 1
    let w := fun (c : Ctx) => c.s.A 2
    let up := (useA [ra 1#4]).privileged
    let ut := (useA [ra 1#4, ra 2#4]).privileged
    let okt := fun (c : Ctx) => (w c).toNat < 16 ∧ (v c).toNat % pageSize ((w c).toNat % 8) = 0
    let okp := fun (c : Ctx) => v c = BitVec.allOnes 64 ∨ (v c).toNat < 4096
    let cores := fun (c : Ctx) => c.d.cores.keys.filter (c.d.terrace (terrOf c.s.lk)).has
    let sel := fun (c : Ctx) g i => g < 4 ∧ (v c).toNat = 256 * g + i ∧ i < ([64, 16, 1, 1].getD g 0)
    Can up (fun c => (okp c ∧ v c = BitVec.allOnes 64) ∧ c.s.reply = .idle ∧ cores c ≠ []) ∧ Can up (fun c => (okp c ∧ (v c).toNat = 4095) ∧ c.s.reply = .idle ∧ cores c ≠ []) ∧
    Can up (fun c => okp c ∧ c.s.reply = .done 0#64) ∧ Can up (fun c => v c ≠ BitVec.allOnes 64 ∧ 4096 ≤ (v c).toNat) ∧
    Can ut (fun c => (okt c ∧ (w c).toNat = 15) ∧ c.s.reply = .idle ∧ c.d.cores.keys ≠ []) ∧ Can ut (fun c => (okt c ∧ (w c).toNat = 1) ∧ c.s.reply = .idle ∧ c.d.cores.keys ≠ []) ∧
    Can ut (fun c => okt c ∧ c.s.reply = .done 0#64) ∧ Can ut (fun c => 16 ≤ (w c).toNat) ∧
    (let x : Shoot := ⟨9, 0, 0, 0, 4096, [2]⟩
     Has (fun _ d => d.shoots.find? (fun y => y.id == 9) = some x ∧ x.cores = [2] ∧ x.h < nCores ∧ (d.slot x.h x.n).reply ≠ .stale ∧ d.usesOld x 2 = false) ∧
     Has (fun _ d => d.shoots.find? (fun y => y.id == 9) = some x ∧ x.cores.contains 2 = true ∧ d.usesOld x 2 = true)) ∧
    Can (useA [wa 3#4, ra 1#4]) (fun c => sel c 0 63) ∧ Can (useA [wa 3#4, ra 1#4]) (fun c => sel c 3 0) ∧ Can (useA [ra 1#4]) (fun c => sel c 1 15 ∧ c.s.priv = true) ∧
    Can (useA [ra 1#4]) (fun c => c.s.priv = false ∧ c.d.profHolder ≠ some (terrOf c.s.lk)) ∧ Can (useA [wa 3#4, ra 1#4]) (fun c => v c = 0#64) ∧
    Can (useA [wa 3#4, ra 1#4]) (fun c => v c = 1#64 ∧ c.d.profHolder = some (terrOf c.s.lk)) ∧
    Can (useA [wa 3#4, ra 1#4]) (fun c => v c = 1#64 ∧ c.d.profHolder ≠ some (terrOf c.s.lk)) ∧ Has (fun _ d => d.profHolder = none ∧ d.profQueue.head? = some 4) :=
  ⟨can (mk (sa [(1, 0xFFFFFFFFFFFFFFFF#64)]) cr dv []), can (mk (sa [(1, 4095#64)]) cr dv []), can (mk { sl with reply := .done 0#64 } cr dv []),
   can (mk (sa [(1, 4096#64)]) cr dv []), can (mk (sa [(2, 15#64)]) cr dv []), can (mk (sa [(1, 0x200000#64), (2, 1#64)]) cr dv []),
   can (mk { sl with reply := .done 0#64 } cr dv []), can (mk (sa [(2, 16#64)]) cr dv []),
   ⟨has { dv with shoots := [⟨9, 0, 0, 0, 4096, [2]⟩] },
    has { dv with shoots := [⟨9, 0, 0, 0, 4096, [2]⟩], groups := [⟨5, [⟨0xF80, 0xF80, 0#1024, 1#128, none⟩], .one, [0], [], 0, none, 2, []⟩] }⟩,
   can (mk (sa [(1, 63#64)]) cr dv []), can (mk (sa [(1, 768#64)]) cr dv []), can (mk (sa [(1, 271#64)]) cr dv []), can (mk (un []) cr dv []),
   can (mk sl cr dv []), can (mk (sa [(1, 1#64)]) cr { dv with profHolder := some 0 } []), can (mk (sa [(1, 1#64)]) cr { dv with profHolder := some 5 } []),
   has { dv with profQueue := [4, 0] }⟩
/-- A request for 4 cores from core 4 of terrace 0, launch number 7, and one whose size names none. -/
def rqL : V512 := 2#512 <<< 144 ||| 4#512 <<< 128 ||| 7#512 <<< 160 ||| 4#512 <<< 192
def rqB : V512 := 9#512 <<< 144
/-- Launch 5 in a stage. -/
def l5 (st : LSt) : Launch := { launchOf .reset 0 (5#512 <<< 160) (.host 0) with
  st := st, first := 4, len := 2, read := true, nslots := 1, nseats := 1, nregs := 8, entries := [0], maps := [0x80000000#32], resv := ⟨[(4, ⟨[0], [0], 0⟩), (5, ⟨[0], [0], 0⟩)]⟩ }
def ll (l : Launch) : Dev := { dv with launches := ⟨[(5, l)]⟩ }
theorem witness_LaunchLife :
    let mine := fun (d : Dev) => d.up = true ∧ ∀ f, Submitter.host 0 = .host f → (d.terrace 0).vf = f
    let code := fun (d : Dev) r => d.requestCode 0 r true (launchOf d 0 r (.host 0))
    let placed := fun (d : Dev) l => d.launch? 5 = some l ∧ l.st = .placed ∧ l.retryAt ≤ d.clock ∧ l.predOf = none
    let resident := fun (d : Dev) l => d.launch? 5 = some l ∧ l.st = .resident ∧ l.retryAt ≤ d.clock
    Has (fun _ d => mine d ∧ code d rqL = 0) ∧ Has (fun _ d => mine d ∧ code d rqB ≠ 0) ∧
    (let l := { l5 .pending with resv := .empty }
     Has (fun _ d => d.launches.ents = [(5, l)] ∧ l.st = .pending ∧ l.read = true ∧ (d.terrace l.terr).state = 1 ∧
        (d.terrace l.terr).base ≤ l.first ∧ l.first + l.len ≤ (d.terrace l.terr).base + (d.terrace l.terr).len ∧
        ∀ h, h ∈ l.cores → (d.fitOn 5 l h).isSome = true)) ∧
    (let l := l5 .placed
     Has (fun _ d => placed d l ∧ l.grps = [] ∧ l.dataLen = 0) ∧
     Has (fun _ d => placed d { l with grps := [3] } ∧ { l with grps := [3] }.grps ≠ [] ∧ ∀ g, g ∈ d.groups → g.id ∉ { l with grps := [3] }.grps)) ∧
    (let l := l5 .resident
     Has (fun _ d => resident d l ∧ l.ending = none ∧ d.launchIdle 5 l = true ∧ l.out = false) ∧
     Has (fun _ d => resident d { l with ending := some 9 } ∧ { l with ending := some 9 }.ending = some 9 ∧
        (∀ g, g ∈ d.groups → (9 ≤ g.id ∨ { l with ending := some 9 }.has g.core = false) ∧ g.id ∉ { l with ending := some 9 }.grps) ∧
        ({ l with ending := some 9 }.exportA = 0#64 ∨ l.noFlush = true ∨ 17 ≤ l.flushAt) ∧ l.retain = [])) ∧
    Has (fun _ d => d.launch? 5 = some (l5 .retained) ∧ (l5 .retained).st = .retained ∧ 5 ∈ (l5 .retained).cores) :=
  have host : ∀ d : Dev, (d.terrace 0).vf = 0 → ∀ f, Submitter.host 0 = .host f → (d.terrace 0).vf = f := fun d h f hf => by cases hf; exact h
  ⟨has dv ⟨⟨rfl, host _ (by decide)⟩, by decide +kernel⟩, has dv ⟨⟨rfl, host _ (by decide)⟩, by decide +kernel⟩, has (ll { l5 .pending with resv := .empty }),
   ⟨has (ll (l5 .placed)), has (ll { l5 .placed with grps := [3] })⟩, ⟨has (ll (l5 .resident)), has (ll { l5 .resident with ending := some 9 })⟩, has (ll (l5 .retained))⟩
/-- Terrace 1 is suspended beside terrace 0; on core 8 slot 2 of its launch was saved, HELD by a debugger. The areas lie in host memory. -/
def sw (out inn : Option Nat) (save rest : List Nat) : Switch := ⟨out, inn, 0x8000000400000#64, 0x8000000800000#64, 3, 9, save, rest⟩
def so0 : Slot := { sl with st := .held .debug, lk := 1024, winCount := 8 }
def sx : Saved := ⟨1, [1024], 8, 5, false, [2], { Core.init with map := ⟨[(16384, 0x80000000#32)]⟩ }, .empty⟩
def dw (w : Option Switch) (s : Slot) (c : Core := cr) : Dev := { (mk s c { dv with cores := ⟨[(8, { Core.init with away := ⟨[(awayIx 1 2, so0)]⟩ })]⟩ } []).dev with
  clock := 21, switch := w, saved := [sx]
  terr := ⟨[(0, { Terrace.init with w0 := 0x0000080200000000#64 }), (1, { Terrace.init with w0 := 0x0080080400000000#64, w1 := 0x0008000000800000#64 })]⟩ }
/-- Memory that holds nothing but some cells, whose bytes their addresses give, reads as they say. -/
theorem read_self (f : Nat → Byte) (l : List Host.Cell) (h : ∀ c, c ∈ l → c.2 = f c.1) : l.all (fun c => Memory.read ⟨l⟩ c.1 == c.2) = true := by
  rw [List.all_eq_true]
  intro c hc
  have hf : (l.find? (fun e => e.1 == c.1)).isSome = true := List.find?_isSome.mpr ⟨c, hc, by simp⟩
  obtain ⟨e, he⟩ := Option.isSome_iff_exists.mp hf
  have h1 : e.1 = c.1 := by simpa using List.find?_some he
  have h2 := h e (List.mem_of_find?_eq_some he)
  simp only [Memory.read, he, h c hc, h2, h1, BEq.rfl]
theorem ranges_val (g : Nat → Byte) (a : Nat) (rs : List (Nat × Nat)) (c : Host.Cell)
    (hc : c ∈ rs.flatMap (fun r => (List.range r.2).map (fun i => (a + r.1 + i, g (r.1 + i))))) : c.2 = g (c.1 - a) := by
  simp only [List.mem_flatMap, List.mem_map] at hc
  obtain ⟨r, -, i, -, rfl⟩ := hc
  show g (r.1 + i) = g (a + r.1 + i - a)
  rw [show a + r.1 + i - a = r.1 + i by omega]
/-- An area that holds the device-private bytes of one saved launch is the one it was saved to. -/
theorem saved_of (d : Dev) (x : Saved) (area : W64) :
    d.savedAt ⟨x.priv ((d.terrace x.terr).block area x.h) x.portable⟩ area x.portable x = true := by
  unfold Dev.savedAt
  rw [BEq.rfl, Bool.true_and]
  exact read_self (fun y => Config.privateByte (2 * x.seed + (if x.portable then 1 else 0)) (y - (d.terrace x.terr).block area x.h)) _
    (fun c hc => ranges_val _ _ _ c hc)
/-- Lines of host memory have no quay, so any access to them goes on. -/
theorem visit_host {ls : List Nat} (h : ∀ l, l ∈ ls → 2 ^ 51 ≤ l ∧ l < 2 ^ 52) (d : Dev) (f : Nat) (w : Bool) : (d.visit f w ls).2 = true := by
  have q : ∀ l, l ∈ ls → d.quay f l w = some d := by
    intro l hl
    have hb := h l hl
    have : homeOf (lineOf l) = 512 := by
      have : isHostMem (lineOf l) = true := by
        unfold isHostMem lineOf
        simp only [Bool.and_eq_true, decide_eq_true_eq]
        omega
      unfold homeOf
      rw [if_pos this]
    unfold Dev.quay
    simp [this]
  have key : ∀ (g : Option Dev × Nat → Nat → Option Dev × Nat) (ls : List Nat), (∀ x l, l ∈ ls → g (some d, x) l = (some d, l)) →
      ∀ x y, ls.foldl g (some d, x) ≠ (none, y) := by
    intro g ls
    induction ls with
    | nil => exact fun _ x y h => by simp at h
    | cons l r ih =>
      intro hg x y
      rw [List.foldl_cons, hg x l (List.mem_cons_self ..)]
      exact ih (fun x y hy => hg x y (List.mem_cons_of_mem _ hy)) l y
  unfold Dev.visit
  split
  · rfl
  · rename_i l h
    exact absurd h (key _ _ (fun x l hl => by simp [q l hl]) _ _)
theorem mem_linesOf {as : List Nat} {l : Nat} (h : l ∈ linesOf as) : ∃ a, a ∈ as ∧ l = lineOf a := by
  have key : ∀ (as acc : List Nat), l ∈ as.foldl (fun acc a => match acc with
      | l :: _ => if l == lineOf a then acc else lineOf a :: acc
      | [] => [lineOf a]) acc → l ∈ acc ∨ ∃ a, a ∈ as ∧ l = lineOf a := by
    intro as
    induction as with
    | nil => exact fun acc h => .inl h
    | cons a r ih =>
      intro acc h
      rcases ih _ h with h | ⟨b, hb, e⟩
      · have : l ∈ acc ∨ l = lineOf a := by
          cases acc with
          | nil => exact .inr (List.mem_singleton.mp h)
          | cons z zs =>
            simp only at h
            split at h
            · exact .inl h
            · exact (List.mem_cons.mp h).symm
        exact this.imp id (fun e => ⟨a, List.mem_cons_self .., e⟩)
      · exact .inr ⟨b, List.mem_cons_of_mem _ hb, e⟩
  have := key as [] (List.mem_reverse.mp h)
  simpa using this
theorem lines_host {as : List Nat} (h : ∀ a, a ∈ as → 2 ^ 51 ≤ a ∧ a < 2 ^ 52) : ∀ l, l ∈ linesOf as → 2 ^ 51 ≤ l ∧ l < 2 ^ 52 := by
  intro l hl
  obtain ⟨a, ha, rfl⟩ := mem_linesOf hl
  have := h a ha
  unfold lineOf
  omega
theorem visit_cells {cs : List Host.Cell} (h : ∀ c, c ∈ cs → 2 ^ 51 ≤ c.1 ∧ c.1 < 2 ^ 52) (d : Dev) (f : Nat) (w : Bool) :
    (d.visit f w (linesOf (cs.map (·.1)))).2 = true :=
  visit_host (lines_host (fun a ha => by obtain ⟨c, hc, rfl⟩ := List.mem_map.mp ha; exact h c hc)) d f w
/-- A function that logs nothing writes what it writes. -/
theorem logged_off {d : Dev} {f : Nat} (h : (d.func f).logOn = false) (m : Memory) (cs : List Host.Cell) : d.logged m f cs = cs := by
  have key : ∀ (ps : List Nat) (r : Memory × List Host.Cell), (ps.foldl (fun (r : Memory × List Host.Cell) p =>
      let cs := d.logCells r.1 f (4096 * p)
      (r.1.writeAll cs, r.2 ++ cs)) r).2 = r.2 := by
    intro ps
    induction ps with
    | nil => exact fun _ => rfl
    | cons p ps ih =>
      intro r
      have e : ∀ m pa, d.logCells m f pa = [] := fun m pa => by simp [Dev.logCells, h]
      rw [List.foldl_cons, ih]
      simp only [e, List.append_nil]
  unfold Dev.logged
  rw [key]; rfl
theorem priv_host {a seed : Nat} {p : Bool} {rs : List (Nat × Nat)} (h1 : 2 ^ 51 ≤ a) (h2 : rs.all (fun r => decide (a + r.1 + r.2 ≤ 2 ^ 52)) = true) :
    ∀ c, c ∈ privCells a seed p rs → 2 ^ 51 ≤ c.1 ∧ c.1 < 2 ^ 52 := by
  intro c hc
  simp only [privCells, List.mem_flatMap, List.mem_map, List.mem_range] at hc
  obtain ⟨r, hr, i, hi, rfl⟩ := hc
  have := of_decide_eq_true (List.all_eq_true.mp h2 r hr)
  exact ⟨by show _ ≤ a + r.1 + i; omega, by show a + r.1 + i < _; omega⟩
theorem cells_host {a : Nat} {bs : List Byte} (h1 : 2 ^ 51 ≤ a) (h2 : a + bs.length ≤ 2 ^ 52) : ∀ c, c ∈ cellsAt a bs → 2 ^ 51 ≤ c.1 ∧ c.1 < 2 ^ 52 := by
  intro c hc
  simp only [cellsAt, List.mem_map] at hc
  obtain ⟨x, hx, rfl⟩ := hc
  have hl := List.mem_zipIdx hx
  exact ⟨by show _ ≤ a + x.2; omega, by show a + x.2 < _; omega⟩
theorem all_host {cs : List Host.Cell} (h : cs.all (fun c => decide (2 ^ 51 ≤ c.1) && decide (c.1 < 2 ^ 52)) = true) : ∀ c, c ∈ cs → 2 ^ 51 ≤ c.1 ∧ c.1 < 2 ^ 52 :=
  fun c hc => by simpa using List.all_eq_true.mp h c hc
theorem all_lines {ls : List Nat} (h : ls.all (fun l => decide (2 ^ 51 ≤ l) && decide (l < 2 ^ 52)) = true) : ∀ l, l ∈ ls → 2 ^ 51 ≤ l ∧ l < 2 ^ 52 :=
  fun l hl => by simpa using List.all_eq_true.mp h l hl
/-- One small region of launch 0 on a core. -/
def c4 : Core := { Core.init with map := ⟨[(0, 0x80000000#32)]⟩ }
def w00 : Switch := sw (some 0) none [0] []
def sh : Slot := { sl with st := .held .debug, winCount := 4 }
theorem witness_TenantSwitches_saves :
    let d := fun (s : State) => s.dev.holdTerrace 0 0
    let out := fun (s : State) => s.dev.switch = some w00 ∧ w00.out = some 0 ∧ w00.toSave.contains 0 = true
    let there := fun (s : State) (f : List Host.Cell × Dev) => ((d s).visit ((d s).terrace 0).vf true (linesOf (f.1.map (·.1)))).2 = true
    let todo := fun (s : State) => ((d s).launchesOn 0 0).filter (fun lk => !(d s).isSaved lk 0)
    (∃ s, out s ∧ 0 < 64 ∧ (d s).nextSlot 0 0 = some 0 ∧ (d s).slotStill 0 0 = true ∧ there s ((d s).saveSlot s.mem 0 0 0 w00)) ∧
    (∃ s, out s ∧ (d s).nextSlot 0 0 = none ∧ todo s = 0 :: [] ∧ (d s).launchStill 0 0 = true ∧ there s ((d s).saveLaunch s.mem 0 0 0 w00)) ∧
    (∃ s, out s ∧ (d s).nextSlot 0 0 = none ∧ todo s = []) := by
  refine ⟨⟨⟨⟨[]⟩, dw (some w00) sh c4⟩, ⟨rfl, rfl, rfl⟩, by decide, by decide +kernel, by decide +kernel, visit_cells ?_ _ _ _⟩,
    ⟨⟨⟨[]⟩, dw (some w00) .init c4⟩, ⟨rfl, rfl, rfl⟩, by decide +kernel, by decide +kernel, by decide +kernel, visit_cells ?_ _ _ _⟩,
    ⟨⟨⟨[]⟩, { dw (some w00) .init c4 with launches := .empty }⟩, ⟨rfl, rfl, rfl⟩, by decide +kernel, by decide +kernel⟩⟩
  · unfold Dev.saveSlot
    simp only
    rw [logged_off (by decide +kernel)]
    intro c hc
    rcases List.mem_append.mp hc with hc | hc
    · exact all_host (by decide +kernel) c hc
    · exact priv_host (by decide +kernel) (by decide +kernel) c hc
  · unfold Dev.saveLaunch
    simp only
    rw [logged_off (by decide +kernel)]
    intro c hc
    rcases List.mem_append.mp hc with hc | hc
    · rcases List.mem_append.mp hc with hc | hc
      · rcases List.mem_append.mp hc with hc | hc
        · exact all_host (by decide +kernel) c hc
        · exact all_host (by decide +kernel) c hc
      · exact cells_host (by decide +kernel) (by rw [List.length_replicate]; decide +kernel) c hc
    · exact priv_host (by decide +kernel) (by decide +kernel) c hc
theorem witness_TenantSwitches_restores :
    let w := sw none (some 1) [] [8]
    Has (fun m d => let a := (d.terrace 1).block w.iarea 8
      2 < 64 ∧ d.switch = some w ∧ w.inn = some 1 ∧ w.toRestore.contains 8 = true ∧ (d.core 8).lsTodo = [] ∧ d.saved = [sx] ∧ sx.terr = 1 ∧ sx.h = 8 ∧
      sx.lks = [1024] ∧ sx.slots = [2] ∧ sx.tiles.ents = [] ∧ d.savedAt m w.iarea false sx = true ∧ d.canRestore sx 1024 = true ∧
      d.slot 8 (awayIx 1 2) = so0 ∧ so0.st ≠ .free ∧ (d.visit (d.terrace 1).vf false (d.restoreReads sx a)).2 = true) ∧
    Has (fun _ d => d.switch = some w ∧ w.inn = some 1 ∧ w.toRestore.contains 8 = true ∧ (d.core 8).lsTodo = (4096, 0x8000000800000, 1024) :: [] ∧
      (d.visit (d.terrace 1).vf false (d.core 8).unitReads).2 = true) := by
  let d := dw (some (sw none (some 1) [] [8])) sl
  refine ⟨⟨_, d, by decide, rfl, rfl, rfl, rfl, rfl, rfl, rfl, rfl, rfl, rfl, saved_of d sx 0x8000000800000#64, by decide +kernel, rfl, by decide, visit_host ?_ _ _ _⟩,
    has { d with cores := ⟨[(8, { Core.init with lsTodo := [(4096, 0x8000000800000, 1024)] })]⟩ } ⟨rfl, rfl, rfl, rfl, visit_host (fun l hl => ?_) _ _ _⟩⟩
  · intro l hl
    unfold Dev.restoreReads at hl
    rcases List.mem_append.mp hl with hl | hl
    · rcases List.mem_append.mp hl with hl | hl
      · refine lines_host (fun a ha => ?_) l hl
        obtain ⟨c, hc, rfl⟩ := List.mem_map.mp ha
        exact priv_host (by decide +kernel) (by decide +kernel) c hc
      · exact all_lines (by decide +kernel) l hl
    · exact (List.not_mem_nil hl).elim
  · exact all_lines (by decide +kernel) l hl
theorem witness_TenantSwitches :
    let ok := fun (d : Dev) w0 w1 => 0 < 32 ∧ d.descriptorOk 0 (d.terrace 0) ((d.terrace 0).withWords w0 w1) = true
    (∀ w0, w0 = 0x0000080200000000#64 ∨ w0 = 0x0000080000000000#64 →
      Has (fun _ d => ok d w0 0#64 ∧ ((d.terrace 0).state = ((d.terrace 0).withWords w0 0#64).state ∨ (d.terrace 0).state = 0 ∨
        ((d.terrace 0).withWords w0 0#64).state = 0))) ∧
    Has (fun _ d => ¬ok d 0#64 0#64) ∧
    (∀ req, req = 0xFF00#256 ∨ req = 0xFFFF#256 ∨ req = 0x100#256 → Has (fun _ d => d.up = true ∧
      d.switchOk (req.extractLsb' 0 8).toNat (req.extractLsb' 8 8).toNat (req.extractLsb' 64 64) (req.extractLsb' 128 64) = true)) ∧
    Has (fun _ d => d.switch ≠ none) ∧
    (let req := 0xFF05#256
     Has (fun _ d => d.up = true ∧ d.switch = none ∧
       d.switchOk (req.extractLsb' 0 8).toNat (req.extractLsb' 8 8).toNat (req.extractLsb' 64 64) (req.extractLsb' 128 64) = false)) ∧
    (let w := w00
     Has (fun _ d => d.switch = some w ∧ w.toSave.contains 0 = true ∧ w.start < d.clock ∧ d.clock % 16 = 5 ∧ (d.core 0).seatedIn 5 = none ∧
        (d.core 0).lapsed.contains 5 = false)) := by
  refine ⟨fun w0 h => ?_, has dv, fun req h => ?_, has (dw (some w00) sl), has dv, has (dw (some w00) sl)⟩
  · rcases h with rfl | rfl
    · exact has dv
    · exact has { dv with launches := .empty }
  · rcases h with rfl | rfl | rfl
    · exact has dv
    · exact has dv
    · exact has { dw none sl with terr := ⟨[(0, { Terrace.init with w0 := 0x0000080200000000#64 }), (1, { Terrace.init with w0 := 0x0080080400000000#64 })]⟩ }
/-- A slot command register: byte 0 the operation, then its operands. -/
def hb (op : Nat) (x y : W64) : BitVec 256 := 0#64 ++ y ++ x ++ BitVec.ofNat 64 op
/-- Function 0 with some registers. -/
def fd (f : Func → Func) : Dev := { dv with funcs := ⟨[(0, f .init)]⟩ }
theorem witness_HostAccesses_registers :
    Has (fun _ d => (d.pool 0 1).free = (d.pool 0 1).count ∧ poolOk 0x100000000001F019#64 0#64 = false) ∧
    Has (fun _ d => (d.pool 0 1).free = (d.pool 0 1).count ∧ poolOk 0x1F019#64 0x7FFFFF#64 = true ∧ 0 < 9 ∧ 1 < 16) ∧
    Has (fun _ d => (d.pool 0 0).free ≠ (d.pool 0 0).count) ∧
    Has (fun _ d => 0 < 33 ∧ d.qpartOk 0 0xFF#64 = true ∧ (0xFF#64).getLsbD 48 = false) ∧
    Has (fun _ d => 0 < 33 ∧ d.qpartOk 0 0x10000000000FF#64 = true ∧ (0x10000000000FF#64).getLsbD 48 = true) ∧
    Has (fun _ d => d.qpartOk 0 0#64 = false) ∧ Has (fun _ d => 0 < 33 ∧ d.qmewsOk 0 0#64 = true) ∧ Has (fun _ d => d.qmewsOk 0 2#64 = false) ∧
    (∀ v, v = 0xFFFFFFFD#32 ∨ v = 2#32 → Has (fun _ d => ∃ k : Int, 0 < 32 ∧ k = (d.func 0).res + v.toInt ∧ 0 ≤ k ∧ k ≤ (d.func 0).burst)) ∧
    Has (fun _ d => (d.func 0).res + (0xFFFFFFFC#32).toInt < 0) ∧ Has (fun _ d => ((d.func 0).burst : Int) < (d.func 0).res + (3#32).toInt) ∧
    ringLen ((65536#64).toNat % 2 ^ 32) = true ∧ (0x5000#64).toNat % 4096 = 0 ∧
    Has (fun _ d => 0 < 32 ∧ ((d.func 0).hqHead - 0xFFFFFFF8#32).toNat ≤ (d.func 0).hqLen) ∧
    Has (fun _ d => (d.func 0).hqLen < ((d.func 0).hqHead - 0xFFFFFFF7#32).toNat) ∧
    (let good := fun (d : Dev) (b : BitVec 256) op => 0 < 32 ∧ d.up = true ∧ (b.extractLsb' 0 8).toNat = op
     Has (fun _ d => good d (hb 1 7#64 0xF2#64) 1 ∧ d.hostName 0 (cmdOperand (hb 1 7#64 0xF2#64) 0) false = true ∧ eretFlagsOk (cmdOperand (hb 1 7#64 0xF2#64) 1) = true) ∧
     Has (fun _ d => good d (hb 2 0x40007#64 0#64) 2 ∧ d.hostName 0 (cmdOperand (hb 2 0x40007#64 0#64) 0) true = true ∧
       ((cmdOperand (hb 2 0x40007#64 0#64) 0).extractLsb' 18 2).getLsbD 1 = false) ∧
     Has (fun _ d => good d (hb 3 7#64 0#64) 3 ∧ d.hostName 0 (cmdOperand (hb 3 7#64 0#64) 0) false = true)) ∧
    (let ok := fun (d : Dev) => (d.func 0).busy = false ∧ d.up = true
     Has (fun _ d => ok d ∧ (d.terrace 0).vf = 0 ∧ (d.terrace 0).state = 1 ∧ d.rankOk 0 0xFFFF = true) ∧
     Has (fun _ d => ok d ∧ ((d.terrace 5).vf ≠ 0 ∨ (d.terrace 5).state ≠ 1 ∨ d.rankOk 5 3 = false))) ∧
    Has (fun _ d => 0 < 32 ∧ (d.func 0).busy = false) := by
  refine ⟨has dv, has dv, has { dv with depots := ⟨[(0, { pl with pushed := [], fresh := 1 })]⟩ }, has dv, has dv, has dv, has dv, has dv, fun v hv => ?_,
    has (fd (fun f => { f with res := 3, burst := 5 })), has (fd (fun f => { f with res := 3, burst := 5 })), by decide, by decide,
    has (fd (fun f => { f with hqLen := 16, hqHead := 8 })), has (fd (fun f => { f with hqLen := 16, hqHead := 8 })), ⟨has dv, has dv, has dv⟩, ⟨has dv, has dv⟩, has dv⟩
  rcases hv with rfl | rfl
  · exact has (fd (fun f => { f with res := 3, burst := 5 })) ⟨0, by decide⟩
  · exact has (fd (fun f => { f with res := 3, burst := 5 })) ⟨5, by decide⟩
/-- Functions 3 and 5 are above their guarantee, by 2 and by 4; then by as many. -/
def fg (r : Nat) : Dev := { dv with funcs := ⟨[(3, { Func.init with res := r, guar := 4 }), (5, { Func.init with res := 7, guar := 3 })]⟩ }
theorem witness_HostAccesses_reads : (∀ u, u < 32 → ((fg 4).func u).res ≤ ((fg 4).func u).guar ∨ u = 5) ∧ (∀ u, u < 32 → (dv.func u).res ≤ (dv.func u).guar) ∧
    ((fg 6).func 5).guar < ((fg 6).func 5).res ∧ (∀ u, u < 32 → ((fg 6).func u).res - ((fg 6).func u).guar ≤ ((fg 6).func 5).res - ((fg 6).func 5).guar) ∧
    (∀ u, u < 5 → ((fg 6).func u).res - ((fg 6).func u).guar < ((fg 6).func 5).res - ((fg 6).func 5).guar) := by decide +kernel
/-- R328: the greatest excess is reclaimed first, the lowest function on a tie, and none reads 0xFF. -/
theorem test_reclaim : ((fg 6).hostReg 32 0x1200, (fg 8).hostReg 32 0x1200, dv.hostReg 32 0x1200) = (5#64, 3#64, 0xFF#64) := by decide +kernel
theorem witness_HostAccesses :
    let l := lineOf 0x1FFFFF
    (∃ s : State, isHbm 0x1FFFFF = true ∧ s.dev.up = true ∧ s.dev.pending l = false ∧ (s.dev.quay 32 l false).isSome = true ∧ s.dev.linePoison.contains l = false ∧
      (s.dev.quay 32 l true).isSome = true ∧ (s.dev.func 32).logOn = false) ∧
    (∃ s : State, s.dev.up = true ∧ s.dev.pending l = true) ∧
    (∃ s : State, (s.dev.home (homeOf l)).snoop.any (fun e => e.2 == l) = true ∧ (s.dev.func 32).logOn = false ∧ (s.dev.quay 32 l true).isSome = true) ∧ isHbm 0x10000000000 = false :=
  ⟨⟨⟨⟨[]⟩, dv⟩, by decide +kernel⟩, ⟨⟨⟨[]⟩, { dv with homes := ⟨[(homeOf 0x1FFF80, { Home.init with pend := [(0x1FFF80, 5)] })]⟩ }⟩, by decide +kernel⟩,
   ⟨⟨⟨[]⟩, { dv with homes := ⟨[(homeOf 0x1FFF80, { Home.init with snoop := [(5, 0x1FFF80)] })]⟩ }⟩, by decide +kernel⟩, by decide⟩
/-- A window access of core 0's slot 0 to the last word of core 2's region. -/
def wx (st : Bool) : RemoteAcc := ⟨2, 0xFFFC, st, 7#32, 0, 0, 7, 0, 15, 0x100#64, 0x01FF00200000FFFC#64, 0⟩
def wd (s : Slot) (c : Core) : Dev := (mk s cr { dv with cores := ⟨[(2, c)]⟩ } []).dev
/-- The last 8 bytes of core 2's region under table 0 lie in a SEALED object. -/
def sealedCore : Core := { cr with objs := ⟨[(3, ⟨.sealed_, 0xFF00, 4, 16, 0, 64, 2, 8, 0, 0, 0⟩)]⟩ }
def of : Deferred := ⟨0x41, 9, 0x100#64, 8#64, 1#16, false, none, 0⟩
theorem witness_WindowAccesses :
    let there := fun (d : Dev) (acc : RemoteAcc) => d.core acc.dst
    let free := fun (d : Dev) acc => d.awayOn (terrOf acc.lk) acc.dst = false ∧ (there d acc).unrestored acc.addr = false ∧
      (there d acc).held = [] ∧ (there d acc).parked = [] ∧ (d.slot acc.h acc.n).refused = []
    let plain := fun (d : Dev) acc => free d acc ∧ ∃ key g, (there d acc).regionOf acc.addr = some (key, g) ∧ rgnTbl g = 0 ∧ terrOf (key / 16) = terrOf acc.lk
    Has (fun _ d => (wx false).store = false ∧ plain d (wx false) ∧ (there d (wx false)).lsPoison.contains ((wx false).addr / 4) = false) ∧
    Has (fun _ d => (wx false).store = false ∧ free d (wx false) ∧ (there d (wx false)).inTerrace (terrOf (wx false).lk) (wx false).addr = false) ∧
    Has (fun _ d => (wx true).store = true ∧ plain d (wx true) ∧ (there d (wx true)).sealedAt (wx true).addr = false) ∧
    Has (fun _ d => (wx true).store = true ∧ plain d (wx true) ∧ (there d (wx true)).sealedAt (wx true).addr = true ∧ (d.slot 0 0).winStores.contains 7 = true) ∧
    Has (fun _ d => ∀ y, y ∈ (d.slot 0 0).defer → y.op = some 7 → y.svc = true) ∧
    (∃ a, Has (fun _ d => (d.op? 0 0 7 = some op7 ∧ op7.acc[0]? = some a) ∧ ((0 : Nat) = 0 → ∀ v off rot, op7.kind ≠ .ldkr v off rot))) ∧
    (let o : LongOp := { op7 with fin := false }
     Has (fun _ d => d.op? 0 0 7 = some o ∧ o.kind = .gld 5 ∧ o.fin = false ∧ ∀ j y, o.acc[j]? = some y → j ≠ 0 → y.st = .got)) ∧
    (∀ st : SlotSt, st = .ready ∨ st = .waiting .park → Has (fun _ d => ((d.slot 0 0).st = .ready ∨ ∃ w, (d.slot 0 0).st = .waiting w) ∧ (d.slot 0 0).defer = of :: [of] ∧ of.svc = false)) := by
  have pr : ∀ (st : Bool) (s : Slot) (c : Core), s.refused = [] → ((wd s c).awayOn 0 2 = false ∧ c.unrestored 0xFFFC = false ∧ c.held = [] ∧ c.parked = []) →
      c.regionOf 0xFFFC = some (0, 0x800F0000#32) →
      ((wd s c).awayOn 0 2 = false ∧ ((wd s c).core 2).unrestored 0xFFFC = false ∧ ((wd s c).core 2).held = [] ∧ ((wd s c).core 2).parked = [] ∧
        ((wd s c).slot 0 0).refused = []) ∧ ∃ key g, ((wd s c).core 2).regionOf 0xFFFC = some (key, g) ∧ rgnTbl g = 0 ∧ terrOf (key / 16) = terrOf 0 := by
    intro st s c h1 h2 h3
    exact ⟨⟨h2.1, h2.2.1, h2.2.2.1, h2.2.2.2, h1⟩, 0, 0x800F0000#32, h3, by decide⟩
  refine ⟨has (wd sl cr) ⟨rfl, pr false _ _ rfl (by decide +kernel) (by decide +kernel), by decide +kernel⟩, has (wd sl { cr with map := .empty }),
    has (wd sl cr) ⟨rfl, pr true _ _ rfl (by decide +kernel) (by decide +kernel), by decide +kernel⟩,
    has (wd { sl with winStores := [7] } sealedCore) ⟨rfl, pr true _ _ rfl (by decide +kernel) (by decide +kernel), by decide +kernel⟩,
    has (wd { sl with defer := [{ of with op := some 7, svc := true }] } cr),
    ⟨_, has (wd { sl with ops := [op7] } cr) ⟨⟨by decide +kernel, rfl⟩, fun _ _ _ _ h => nomatch h⟩⟩,
    has (wd { sl with ops := [{ op7 with fin := false }] } cr) ⟨by decide +kernel, rfl, rfl, fun j y h1 h2 => ?_⟩, fun st h => ?_⟩
  · cases j with
    | zero => exact absurd rfl h2
    | succ j => simp [op7] at h1
  rcases h with rfl | rfl
  · exact has (wd { sl with st := .ready, defer := [of, of] } cr) ⟨.inl (by decide +kernel), by decide +kernel⟩
  · exact has (wd { sl with st := .waiting .park, defer := [of, of] } cr) ⟨.inr ⟨.park, by decide +kernel⟩, by decide +kernel⟩
/-- Four tables that lead to one leaf for the page at address 0, which lies at 0x200000. -/
def walkMem : List Host.Cell := [(0x2000, 1#8), (0x2001, 0x41#8), (0x4000, 1#8), (0x4001, 0x61#8), (0x6000, 1#8), (0x6001, 0x81#8), (0x8000, 1#8), (0x8001, 8#8), (0x8002, 0x20#8)]
theorem witness_Walks :
    let walks := fun (m : Memory) (d : Dev) (va : Nat) (r : Walked) => d.walk m va = r ∧ d.walks.find? (fun w => w.1 == 0 && w.2.1 == va) = some (0, va, 3)
    let reads := fun (m : Memory) (d : Dev) (va : Nat) => (d.walkVisit m 3 va).2 = true
    let held := fun (d : Dev) => d.pending 0x8000 = true ∨ d.heldLine 0x8000 = true ∨ d.hostLines.contains 0x8000 = true
    let clear : Leaf := ⟨0, 2 ^ 21, 0x200801#64, 0#64⟩
    let set : Leaf := ⟨0, 2 ^ 21, 0x200841#64, 0#64⟩
    Has (fun m d => walks m d 0x1FFFFF (.leaf set 0x8000) ∧ reads m d 0x1FFFFF ∧ set.w0.getLsbD 6 = true) ∧
    Has (fun m d => walks m d 0x1FFFFF (.leaf clear 0x8000) ∧ reads m d 0x1FFFFF ∧ clear.w0.getLsbD 6 = false ∧ ¬held d) ∧
    Has (fun m d => walks m d 0x1FFFFF (.leaf clear 0x8000) ∧ reads m d 0x1FFFFF ∧ clear.w0.getLsbD 6 = false ∧ held d) ∧
    Has (fun m d => walks m d 0 (.fault 1) ∧ reads m d 0) ∧ Has (fun m d => walks m d 0 .busy) ∧
    Has (fun m d => walks m d 0x1FFFFF (.leaf clear 0x8000) ∧ ¬reads m d 0x1FFFFF) := by
  let wk : Dev := { dv with troot := 0x2000#64, walks := [(0, 0x1FFFFF, 3)] }
  refine ⟨hasIn (walkMem.map (fun c => if c.1 = 0x8000 then (c.1, 0x41#8) else c)) wk, hasIn walkMem wk, hasIn walkMem { wk with hostLines := [0x8000] },
    has { dv with walks := [(0, 0, 3)] }, has { dv with walks := [(0, 0, 3)], homes := ⟨[(0, { Home.init with pend := [(0, 5)] })]⟩ },
    hasIn walkMem { wk with funcs := ⟨[(3, { Func.init with qpart := 0#64 })]⟩ }⟩
theorem witness_TakingAnException : (∃ s : State, (s.dev.slot 0 0).svcHeld = false) ∧ (∃ s : State, (s.dev.slot 0 0).svcHeld = true) ∧ (0x01 : Nat) ≠ 6 :=
  ⟨⟨w0, by decide +kernel⟩, ⟨mk { sl with svcHeld := true } cr dv [], by decide +kernel⟩, by decide⟩
/-- A debugger holds terrace 0; slot 0 of core 0 in a state. -/
def hd (f : Slot → Slot) : Dev := (mk (f sl) { cr with parked := [⟨0x40, .ld, 0#32, 0, .own 0 3 0⟩] } hold []).dev
theorem witness_Debugger :
    let dbg := fun (d : Dev) => (d.terrace 0).dbg
    let on := fun (d : Dev) => (d.terrace 0).state ≠ 0
    let ok := fun (d : Dev) => on d ∧ (dbg d).hold = true ∧ (d.terrace 0).base ≤ 0 ∧ 0 < (d.terrace 0).base + (d.terrace 0).len
    let st := fun (d : Dev) => (d.slot 0 0).st
    Has (fun _ d => on d ∧ 7 < 8 ∧ (0xFFF8#64).toNat % 8 = 0 ∧ (0x40000000000000FF#64).toNat / 2 ^ 62 = 1 ∧ (0x40000000000000FF#64).toNat / 2 ^ 48 % 2 ^ 14 = 0) ∧
    (0xFFFC#64).toNat % 8 ≠ 0 ∧ (0x4001000000000000#64).toNat / 2 ^ 48 % 2 ^ 14 ≠ 0 ∧ Has (fun _ d => (d.terrace 5).state = 0) ∧
    Has (fun _ d => on d ∧ (0x7000#64).toNat % 4096 = 0) ∧ Has (fun _ d => on d ∧ ∃ i, i < 13 ∧ (65536#64).toNat % 2 ^ 32 = 16 * 2 ^ i) ∧
    (∀ f, f = SlotSt.held .debug ∨ f = .ready → Has (fun _ d => on d ∧ (d.terrace 0).base ≤ 0 ∧ 0 < (d.terrace 0).base + (d.terrace 0).len ∧ terrOf (d.slot 0 0).lk = 0 ∧ st d = f)) ∧
    Has (fun _ d => ok d ∧ (d.slot 0 0).leased = false ∧ ∃ w, st d = .waiting w) ∧ Has (fun _ d => ok d ∧ st d = .ready) ∧ Has (fun _ d => ok d ∧ ∃ i, st d = .seated i) ∧
    Has (fun _ d => ok d ∧ (d.slot 0 0).leased = true ∧ ∃ w, st d = .waiting w) ∧ Has (fun _ d => ok d ∧ st d = .held .debug) ∧
    Has (fun _ d => (on d ∧ ((dbg d).hold = false ∨ 0 < (d.terrace 0).base ∨ (d.terrace 0).base + (d.terrace 0).len ≤ 0)) ∧ (dbg d).trLen = 0) ∧
    Has (fun _ d => on d ∧ (d.terrace 0).base + (d.terrace 0).len ≤ 8) := by
  refine ⟨has dv, by decide, by decide, has dv, has dv, has dv ⟨by decide, 12, by decide⟩, fun f h => ?_, has (hd (fun s => { s with st := .waiting .park })) ⟨by decide +kernel, by decide +kernel, .park, by decide +kernel⟩,
    has (hd (fun s => { s with st := .ready })), has (hd id) ⟨by decide +kernel, 0, by decide +kernel⟩,
    has (hd (fun s => { s with st := .waiting .park, tsw := 0x102#32, leases := [rc] })) ⟨by decide +kernel, by decide +kernel, .park, by decide +kernel⟩, has (hd (fun s => { s with st := .held .debug })),
    has dv, has dv⟩
  rcases h with rfl | rfl
  · exact has (hd (fun s => { s with st := .held .debug }))
  · exact has (hd (fun s => { s with st := .ready }))
/-- Core 0's court is frozen and its slot HELD; the dump area lies in host memory. -/
def dm : Dev := { (mk sh c4 { dv with launches := ⟨[(0, { la with resv := ⟨[(0, ⟨[0], [0], 0⟩)]⟩ })]⟩ } []).dev with
  courts := ⟨[(0, { Court.init with frozen := true })]⟩
  terr := ⟨[(0, { Terrace.init with w0 := 0x0000080200000000#64, dbg := { Dbg.init with hold := true, dumpBase := 0x8000000000000#64 } })]⟩ }
theorem witness_Debugger_dump :
    Has (fun _ d => ((d.terrace 0).state ≠ 0 ∧ (d.terrace 0).dbg.hold = true ∧ (d.terrace 0).base ≤ 0 ∧ 0 < (d.terrace 0).base + (d.terrace 0).len) ∧ d.dumpOk 0 0 = true ∧
      (d.func (d.terrace 0).vf).logOn = false ∧ (d.visit (d.terrace 0).vf true (linesOf ((d.dumpCells 0 0).map (·.1)))).2 = true) ∧
    Has (fun _ d => 0 ∈ d.slotsOn (d.launchesOn 0 0) 0 ∧ (d.slot 0 0).st ≠ .free ∧ terrOf (d.slot 0 0).lk = 0) ∧
    Has (fun _ d => (∀ x, x ∈ d.saved → x.terr = 0 → x.h ≠ 0) ∧ 0 ∈ d.launchesOn 0 0) := by
  refine ⟨⟨⟨[]⟩, dm, by decide +kernel, by decide +kernel, by decide +kernel, visit_cells (fun c hc => ?_) _ _ _⟩, has dm, has dm⟩
  unfold Dev.dumpCells at hc
  rcases List.mem_append.mp hc with hc | hc
  · rcases List.mem_append.mp hc with hc | hc
    · rcases List.mem_append.mp hc with hc | hc
      · exact all_host (by decide +kernel) c hc
      · exact (List.not_mem_nil hc).elim
    · exact cells_host (by decide +kernel) (by rw [List.length_replicate]; decide +kernel) c hc
  · exact priv_host (by decide +kernel) (by decide +kernel) c hc
/-- Port 3 in a state with a descriptor in its ring, and memory with a descriptor of an operation and a length. -/
def pt (st : W32) (f : Port → Port) : Dev := { dv with ports := ⟨[(3, f { Port.init with state := st, rbase := 0x1000#64, rlen := 16, tail := 1#32 })]⟩ }
def pm (op len : Byte) : List Host.Cell := [(0x1000, op), (0x1004, len), (0x1009, 0x20#8), (0x1019, 0x30#8)]
theorem witness_Extan_descriptors :
    let x := fun (d : Dev) => d.port 3
    let at0 := fun (d : Dev) => (x d).rbase.toNat + 64 * ((x d).head.toNat % (x d).rlen)
    let desc := fun (m : Memory) d => m.bytes (at0 d) 64
    let reads := fun (d : Dev) a n => d.visit 32 false (linesOf ((List.range n).map (fun i => a + i)))
    let idle := fun (d : Dev) => d.up = true ∧ (x d).rlen ≠ 0 ∧ (x d).head ≠ (x d).tail ∧ (x d).stat = none ∧ d.pendingIn (at0 d) 64 = false ∧
      (reads d (at0 d) 64).2 = true
    let posts := fun (m : Memory) d => pdStat (desc m d) % 8 = 0 ∧ (isHbm (pdStat (desc m d)) || isLpddr (pdStat (desc m d))) = true
    (∀ op, op = 1 ∨ op = 2 ∨ op = 3 ∨ op = 4 → Has (fun m d => idle d ∧ (x d).st = 1 ∧ (x d).sent = [] ∧ pdOp (desc m d) = op ∧ pdOk (desc m d) = true ∧
      d.pendingIn (pdSrc (desc m d)) (pdLen (desc m d)) = false ∧
      (reads ((reads d (at0 d) 64).1.updPort 3 (fun x => { x with head := x.head + 1#32 })) (pdSrc (desc m d)) (pdLen (desc m d))).2 = true)) ∧
    (∀ op, op = 0 ∨ op = 2 ∨ op = 3 ∨ op = 4 ∨ op = 5 → Has (fun m d => idle d ∧ pdOp (desc m d) = op ∧ ((x d).st = 1 ∧ pdOk (desc m d) = false) ∧ posts m d)) ∧
    (∀ op, op = 1 ∨ op = 2 ∨ op = 3 ∨ op = 4 → Has (fun m d => idle d ∧ pdOp (desc m d) = op ∧ (x d).st = 3 ∧ posts m d)) := by
  refine ⟨fun op h => ?_, fun op h => ?_, fun op h => ?_⟩
  · rcases h with rfl | rfl | rfl | rfl
    · exact hasIn (pm 1 64) (pt 1 id)
    · exact hasIn (pm 2 64) (pt 1 id)
    · exact hasIn (pm 3 64) (pt 1 id)
    · exact hasIn (pm 4 64) (pt 1 id)
  · rcases h with rfl | rfl | rfl | rfl | rfl
    · exact hasIn (pm 0 64) (pt 1 id)
    · exact hasIn (pm 2 6) (pt 1 id)
    · exact hasIn (pm 3 0) (pt 1 id)
    · exact hasIn (pm 4 60) (pt 1 id)
    · exact hasIn (pm 5 64) (pt 1 id)
  · rcases h with rfl | rfl | rfl | rfl
    · exact hasIn (pm 1 64) (pt 3 id)
    · exact hasIn (pm 2 64) (pt 3 id)
    · exact hasIn (pm 3 64) (pt 3 id)
    · exact hasIn (pm 4 64) (pt 3 id)
/-- The CRC, byte by byte on numbers: what the kernel evaluates. -/
def crcN : List Byte → Nat → Nat
  | [], n => n
  | b :: r, 0 => crcN r (crcByte 0#64 b).toNat
  | b :: r, n + 1 => crcN r (crcByte (BitVec.ofNat 64 (n + 1)) b).toNat
theorem crcN_eq : ∀ (l : List Byte) (c : W64), crcN l c.toNat = (l.foldl crcByte c).toNat := by
  intro l
  induction l with
  | nil => intro c; rfl
  | cons b r ih =>
    intro c
    have step : ∀ n, BitVec.ofNat 64 n = c → crcN (b :: r) n = ((b :: r).foldl crcByte c).toNat := by
      intro n hn
      cases n with
      | zero => rw [← hn]; exact ih _
      | succ n => rw [← hn]; exact ih _
    exact step c.toNat (by simp)
theorem good_of {f : BitVec 2048} (h : (BitVec.ofNat 64 (crcN ((flitBytes f).take 248) 0) == f.extractLsb' 1984 64 && (flitHdr f).extractLsb' 48 16 == 0#16 &&
    decide (flitVc f ≤ 3) && decide (flitType f ≤ 3)) = true) : flitGood f = true := by
  have e : crc64 ((flitBytes f).take 248) = BitVec.ofNat 64 (crcN ((flitBytes f).take 248) 0) := by
    have := crcN_eq ((flitBytes f).take 248) 0#64
    rw [show (0#64).toNat = 0 from rfl] at this
    rw [this]; simp [crc64]
  unfold flitGood
  rw [e]; exact h
/-- Flits whose last 8 bytes are their CRC: data with sequence number 1, a nak, and an acknowledgement of flit 1. -/
def fl1 : BitVec 2048 := 0x12C0A22A4D550C5B#2048 <<< 1984 ||| 0x302040010000000001000001#2048
def fl2 : BitVec 2048 := 0x019F0F4E4A81B400#2048 <<< 1984 ||| 0x33000000#2048
def fl3 : BitVec 2048 := 0x649D80B8B8E4139A#2048 <<< 1984 ||| 0x32001000#2048
theorem bad_of {f : BitVec 2048} (h : ((flitHdr f).extractLsb' 48 16 == 0#16) = false) : flitGood f = false := by unfold flitGood; rw [h]; simp
def fl0 : BitVec 2048 := 0x1000000000000#2048
/-- Port 3 with one flit that awaits its acknowledgement. -/
def pa : Dev := pt 1 (fun p => { p with sent := [0#2048], txSeq := 1#12 })
theorem good1 : flitGood fl1 = true := good_of (by decide +kernel)
theorem good2 : flitGood fl2 = true := good_of (by decide +kernel)
theorem good3 : flitGood fl3 = true := good_of (by decide +kernel)
theorem witness_Extan_flits :
    let x := fun (d : Dev) => d.port 3
    let good := fun (d : Dev) f ty => 3 < 12 ∧ (x d).st = 1 ∧ flitGood f = true ∧ flitType f = ty ∧ (x d).covered (flitAck f) = 0 ∧ (x d).stat = none
    Has (fun _ d => 3 < 12 ∧ (x d).head = (x d).tail ∧ (0x5000#64).toNat % 4096 = 0) ∧ (∃ i, i < 13 ∧ (65536#64).toNat % 2 ^ 32 = 16 * 2 ^ i) ∧
    Has (fun _ d => 3 < 12 ∧ ((16#64).setWidth 32 - (x d).head).toNat ≤ (x d).rlen) ∧
    Has (fun _ d => good d fl1 1 ∧ flitSeq fl1 = (x d).rxSeq + 1#12) ∧ Has (fun _ d => good d fl1 1 ∧ flitSeq fl1 ≠ (x d).rxSeq + 1#12) ∧
    Has (fun _ d => 3 < 12 ∧ (x d).st = 1 ∧ flitGood fl0 = false) ∧
    Has (fun _ d => good d fl2 3 ∧ (x d).fails < 16) ∧ Has (fun _ d => good d fl2 3 ∧ 16 ≤ (x d).fails) ∧
    Has (fun _ d => 3 < 12 ∧ (x d).st = 1 ∧ flitGood fl3 = true ∧ flitType fl3 = 2 ∧ (x d).stat = none ∧ (x d).toSend = [] ∧ (x d).covered (flitAck fl3) ≠ 0) ∧
    (let a := 0xFFFFFFFF8#64
     Has (fun _ d => 3 < 12 ∧ (x d).st = 1 ∧ flitGood fl3 = true ∧ flitType fl3 = 2 ∧ (x d).stat = some a ∧ (x d).toSend = [] ∧ (x d).sent ≠ [] ∧
       (x d).covered (flitAck fl3) = (x d).sent.length ∧ a.toNat % 8 = 0 ∧ (isHbm a.toNat || isLpddr a.toNat) = true)) ∧
    Has (fun _ d => 3 < 12 ∧ (x d).st = 2) :=
  ⟨has dv, ⟨12, by decide⟩, has (pt 1 id),
   has (pt 1 id) ⟨⟨by decide, by decide +kernel, good1, by decide +kernel⟩, by decide +kernel⟩,
   has (pt 1 (fun p => { p with rxSeq := 1#12 })) ⟨⟨by decide, by decide +kernel, good1, by decide +kernel⟩, by decide +kernel⟩,
   has (pt 1 id) ⟨by decide, by decide +kernel, bad_of (by decide +kernel)⟩,
   has (pt 1 (fun p => { p with fails := 15 })) ⟨⟨by decide, by decide +kernel, good2, by decide +kernel⟩, by decide +kernel⟩,
   has (pt 1 (fun p => { p with fails := 16 })) ⟨⟨by decide, by decide +kernel, good2, by decide +kernel⟩, by decide +kernel⟩,
   has pa ⟨by decide, by decide +kernel, good3, by decide +kernel⟩,
   has (pt 1 (fun p => { p with sent := [0#2048], txSeq := 1#12, stat := some 0xFFFFFFFF8#64 })) ⟨by decide, by decide +kernel, good3, by decide +kernel⟩, has (pt 2 id)⟩
/-- A partner's work of 4 bytes to 0x1FC (a message: of 64 bytes), received under a window of 512 bytes. -/
def pw (op : Byte) (len : Nat) (dst : Nat) : List Byte := [op, 0#8, 0#8, 0#8] ++ leBytes 4 len ++ leBytes 8 0 ++ leBytes 8 dst ++ List.replicate 40 0#8 ++ List.replicate len 7#8
theorem witness_Extan_partner :
    let inside := fun (bs : List Byte) (win : Nat × Nat) => win.1 ≤ pdDst bs ∧ pdDst bs + pdLen bs ≤ win.1 + win.2 ∧ isHbm (pdDst bs) = true ∧ isHbm (pdDst bs + pdLen bs - 1) = true
    let next := fun (bs : List Byte) (op : Nat) (d : Dev) => (d.port 3).inDone = (bs, (0, 512)) :: [] ∧ pdOp bs = op ∧ bs.length = 64 + pdLen bs
    (∀ op, op = 1 ∨ op = 2 ∨ op = 3 → ∃ bs, Has (fun _ d => next bs op d ∧ inside bs (0, 512) ∧ pdDst bs % 4 = 0)) ∧
    (∃ bs, Has (fun _ d => next bs 4 d)) ∧ (∃ bs, Has (fun _ d => next bs 3 d ∧ ¬inside bs (0, 512))) ∧ Has (fun _ d => (d.port 3).inDone = []) := by
  refine ⟨fun op h => ?_, ⟨pw 4 64 0, has (pt 1 (fun p => { p with inDone := [(pw 4 64 0, (0, 512))] }))⟩,
    ⟨pw 3 4 0x200, has (pt 1 (fun p => { p with inDone := [(pw 3 4 0x200, (0, 512))] }))⟩, has dv⟩
  rcases h with rfl | rfl | rfl
  · exact ⟨pw 1 4 0x1FC, has (pt 1 (fun p => { p with inDone := [(pw 1 4 0x1FC, (0, 512))] }))⟩
  · exact ⟨pw 2 4 0x1FC, has (pt 1 (fun p => { p with inDone := [(pw 2 4 0x1FC, (0, 512))] }))⟩
  · exact ⟨pw 3 4 0x1FC, has (pt 1 (fun p => { p with inDone := [(pw 3 4 0x1FC, (0, 512))] }))⟩
theorem witness_ErrorsAndBridges :
    let x := fun (d : Dev) => d.bridges.get .init 6
    let worn := fun (d : Dev) (lanes : V512) (spares : BitVec 32) => ∃ g, g < 32 ∧ (if ((x d).badSpare ||| spares).getLsbD g then 0 else 1) <
      ((List.range 16).filter (fun i => ((x d).bad ||| lanes).getLsbD (16 * g + i))).length
    Has (fun _ d => 6 < 12 ∧ (x d).lost = false) ∧ Has (fun _ d => 12 ≤ 12 ∨ (d.bridges.get .init 12).lost = true) ∧ Has (fun _ d => (x d).lost = true) ∧
    Has (fun _ d => 6 < 12 ∧ (x d).lost = false ∧ 16 ≤ (x d).fails ∧ ¬worn d (1#512 <<< 511) 0#32) ∧
    Has (fun _ d => 6 < 12 ∧ (x d).lost = false ∧ 16 ≤ (x d).fails ∧ worn d (3#512 <<< 510) 0#32) ∧
    Has (fun _ d => 6 < 12 ∧ (x d).lost = false ∧ 16 ≤ (x d).fails ∧ worn d (1#512 <<< 511) 0x80000000#32) ∧ Has (fun _ d => (x d).fails < 16) ∧
    ∃ l : Launch, l.st = .resident ∧ l.spans 0 = true := by
  have key : ∀ (bad : V512) (sp : BitVec 32), ((List.range 32).all (fun g => decide (((List.range 16).filter (fun i => bad.getLsbD (16 * g + i))).length ≤
      if sp.getLsbD g then 0 else 1))) = true → ¬∃ g, g < 32 ∧ (if sp.getLsbD g then 0 else 1) < ((List.range 16).filter (fun i => bad.getLsbD (16 * g + i))).length := by
    intro bad sp h ⟨g, hg, hl⟩
    have := List.all_eq_true.mp h g (List.mem_range.mpr hg)
    simp only [decide_eq_true_eq] at this
    omega
  let br (f : Bridge → Bridge) : Dev := { dv with bridges := ⟨[(6, f .init)]⟩ }
  refine ⟨has dv, has dv, has (br (fun b => { b with lost := true })), has (br (fun b => { b with fails := 16 })) ⟨by decide, by decide, by decide, key _ _ (by decide +kernel)⟩,
    has (br (fun b => { b with fails := 16 })) ⟨by decide, by decide, by decide, 31, by decide, by decide +kernel⟩,
    has (br (fun b => { b with fails := 16 })) ⟨by decide, by decide, by decide, 31, by decide, by decide +kernel⟩, has dv, { la with first := 255, len := 2 }, by decide⟩
/-- A pool's list as POOLSET takes it: two indices. -/
def pq : List Host.Cell := [(0x1000, 2#8), (0x1004, 5#8), (0x1008, 1#8)]
theorem area_of (d : Dev) (x : Saved) (area : W64) (h : d.saved = [x]) (hl : x.lks.isEmpty = false) :
    d.areaHolds ⟨x.priv ((d.terrace x.terr).block area x.h) x.portable⟩ x.terr area x.portable = true := by
  have e : d.savedOf x.terr = [x] := by simp [Dev.savedOf, h, hl]
  unfold Dev.areaHolds
  rw [e, List.all_cons, saved_of]
  rfl
theorem witness_RasRequests :
    let up := fun (d : Dev) => d.up = true
    let r : ErrRec := ⟨3, 0, 0x80, 0#48⟩
    let named := fun (d : Dev) => 0 < 9 ∧ 0 < 16 ∧ (d.pool 0 0).v = true ∧ paNamed (0x1000#64).toNat = true
    let given := fun (m : Memory) => (List.range (m.w32 0x1000).toNat).map (fun i => (m.w32 (0x1000 + 4 + 4 * i)).toNat)
    let bitmap := fun (en : Bool) (base : W64) => en = false ∨ base.toNat % 2 ^ 21 = 0 ∧ (isHbm base.toNat = true ∧ isHbm (base.toNat + 96 * 2 ^ 20 - 1) = true ∨
      isLpddr base.toNat = true ∧ isLpddr (base.toNat + 96 * 2 ^ 20 - 1) = true)
    Has (fun _ d => d.skipAt 8 15 ≤ 16 ∧ 15 < 16 ∧ 0 < 16) ∧
    Has (fun _ d => up d ∧ (8 < 9 ∨ 8 = 255)) ∧ Has (fun _ d => up d ∧ (255 < 9 ∨ 255 = 255)) ∧ Has (fun _ d => up d ∧ 9 ≤ 254 ∧ 254 ≠ 255) ∧
    Has (fun _ d => up d ∧ d.errLog = r :: [r]) ∧ Has (fun _ d => up d ∧ d.errLog = []) ∧
    Has (fun _ d => up d ∧ 8 < 9 ∧ 15 < 16 ∧ 16 ≤ 16 ∧ d.districtActive 8 = false) ∧ Has (fun _ d => up d ∧ d.districtActive 0 = true) ∧
    bitmap false 5#64 ∧ bitmap true 0x20000000000#64 ∧ ¬bitmap true 0x100000#64 ∧ ¬bitmap true 0xFFFFE00000#64 ∧
    Has (fun _ d => up d ∧ named d ∧ ∀ g, g ∈ d.groups → g.lines ≠ []) ∧
    Has (fun m d => up d ∧ named d ∧ d.pendingIn (0x1000#64).toNat 4 = false ∧ d.pendingIn (0x1000#64).toNat (4 * min (given m).length (d.pool 0 0).count + 4) = false ∧
      (given m).length ≤ (d.pool 0 0).count ∧ (∀ x, x ∈ given m → x < (d.pool 0 0).count) ∧ (given m).Nodup) ∧
    Has (fun _ d => up d ∧ ¬((d.pool 0 1).v = true) ∧ ∀ k, d.pendingIn 0x1000 k = false) ∧ Has (fun m d => up d ∧ d.areaHolds m 1 0x8000000800000#64 false = true) ∧
    Has (fun m d => up d ∧ d.areaHolds m 1 0x8000000800000#64 false = false) ∧
    Has (fun m d => up d ∧ d.areaHolds m 1 0x8000000800000#64 true = true ∧ d.keys.find? 7 = some 3#4096 ∧ 7 < 8) ∧
    Has (fun m d => up d ∧ d.areaHolds m 1 0x8000000800000#64 true = false) ∧ Has (fun _ d => up d ∧ d.keys.find? 7 = none) ∧ Has (fun _ d => d.up = false) := by
  refine ⟨has dv, has dv, has dv, has dv, has { dv with errLog := [⟨3, 0, 0x80, 0#48⟩, ⟨3, 0, 0x80, 0#48⟩] }, has dv, has dv, has dv, .inl rfl, .inr (by decide +kernel),
    by decide +kernel, by decide +kernel, has kd, hasIn pq kd ⟨rfl, by decide, by decide +kernel⟩, ⟨⟨[]⟩, kd, rfl, by decide +kernel, fun k => ?_⟩, ?_, has dv, ?_, has dv, has dv,
    has .reset⟩
  · have e : ∀ pa, kd.pending pa = false := fun _ => rfl
    simp [Dev.pendingIn, e]
  · exact ⟨_, dw none sl, rfl, area_of (dw none sl) sx 0x8000000800000#64 rfl rfl⟩
  · let d : Dev := { dw none sl with saved := [{ sx with portable := true }], keys := ⟨[(7, 3#4096)]⟩ }
    exact ⟨_, d, rfl, area_of d { sx with portable := true } 0x8000000800000#64 rfl rfl, rfl, by decide⟩
/-- R273, R365: core 0 stands at a corner of its square, a core of another district in that one's; and the base of district 8's curve. -/
theorem test_places : (corePlace 1000, districtAt (1000 / 256)) = ((33, 25), (2, 1)) := by decide +kernel
/-- The device in a bring-up stage. -/
def bu (n : Nat) : Dev := { Dev.reset with stage := n }
theorem bad_image : ∃ i : FwImage, vecBytes i.digest ≠ sha512 i.body := by
  by_cases h : vecBytes 0#512 = sha512 []
  · exact ⟨⟨[], 1#512, 0#4096, 0#4096, 0, 0⟩, fun h1 => absurd (h.trans h1.symm) (by decide +kernel)⟩
  · exact ⟨⟨[], 0#512, 0#4096, 0#4096, 0, 0⟩, h⟩
theorem witness_BringUpAndIdentity :
    let inHand := fun k (d : Dev) => d.stage = k ∧ d.failure = 0
    let serves := fun (d : Dev) => 6 ≤ d.stage
    (∀ k, k ≤ 7 → Has (fun _ d => inHand k d)) ∧ Has (fun _ d => ¬inHand 4 d) ∧
    (∃ i : FwImage, Has (fun _ d => inHand 6 d ∧ (vecBytes i.digest ≠ sha512 i.body ∨ i.version < Config.fusedVersion)) ∧
      Has (fun _ d => inHand 6 d ∧ (verifyAll [i] d.mr).2 = some (i.mr % 8))) ∧
    Has (fun _ d => inHand 7 d ∧ d.up = false) ∧ Has (fun _ d => d.up = true) ∧ Has (fun _ d => serves d) ∧ Has (fun _ d => serves d ∧ 7 < 8) ∧
    Has (fun _ d => serves d ∧ 8 < 9) ∧ Has (fun _ d => serves d ∧ 7 < 8 ∧ ∀ c, c ∈ d.cores.ents → c.2.cq.q = []) ∧ Has (fun _ d => serves d ∧ 8 ≤ 8) ∧
    Has (fun _ d => d.stage < 6) := by
  refine ⟨fun k _ => ⟨⟨[]⟩, bu k, rfl, rfl⟩, has dv, ?_, has (bu 7), has dv, has (bu 6), has (bu 6), has (bu 7), has (bu 6), has (bu 6), has (bu 5)⟩
  obtain ⟨i, hi⟩ := bad_image
  have hb : (vecBytes i.digest == sha512 i.body) = false := by simpa using hi
  have ho : imageOk i = false := by unfold imageOk; rw [hb]; rfl
  refine ⟨i, ⟨⟨[]⟩, bu 6, ⟨rfl, rfl⟩, .inl hi⟩, ⟨[]⟩, bu 6, ⟨rfl, rfl⟩, ?_⟩
  unfold verifyAll
  rw [ho]; simp
/-- A long-latency instruction that will write v9, of which nothing has come. -/
def o9 : LongOp := { op7 with vd := [9], acc := [acc0], fin := false }
theorem witness_ChecksBeforeAnInstruction :
    let d : VReg := 4#7
    let x : VReg := 9#7
    let y : VReg := 10#7
    let at_ := fun (f : Slot → Slot) (p : State → Slot → Prop) => p (mk (f sl) cr dv []) ((mk (f sl) cr dv []).dev.slot 0 0) ∧ (mk (f sl) cr dv []).dev.cur = .slot 0 0 0#64
    let fits := fun (p : Slot) => d.toNat < p.winCount ∧ x.toNat < p.winCount ∧ y.toNat < p.winCount
    let present := fun (p : Slot) (r : VReg) => p.vst.get .present r.toNat = .present
    let calm := fun p => fits p ∧ p.wins = [] ∧ present p d ∧ present p x ∧ present p y
    at_ (fun s => { s with tsw := 0#32 }) (fun _ p => p.priv = false) ∧ at_ (fun s => { s with winCount := 4 }) (fun _ p => p.winCount ≤ d.toNat) ∧
    at_ (fun s => { s with winCount := 9 }) (fun _ p => d.toNat < p.winCount ∧ p.winCount ≤ x.toNat) ∧
    at_ (fun s => { s with winCount := 10 }) (fun _ p => d.toNat < p.winCount ∧ x.toNat < p.winCount ∧ p.winCount ≤ y.toNat) ∧
    (let w : Win := ⟨8#64, [4, 9], [], [], 2⟩
     at_ (fun s => { s with wins := [w] }) (fun _ p => fits p ∧ p.wins = [w] ∧ w.kr = [] ∧ d.toNat ∈ w.vr)) ∧
    (let w : Win := ⟨8#64, [9, 10], [], [], 2⟩
     at_ (fun s => { s with wins := [w] }) (fun _ p => fits p ∧ p.wins = [w] ∧ w.kr = [] ∧ d.toNat ∉ w.vr ∧ x.toNat ∈ w.vr)) ∧
    (let w : Win := ⟨8#64, [10], [], [], 2⟩
     at_ (fun s => { s with wins := [w] }) (fun _ p => fits p ∧ p.wins = [w] ∧ w.kr = [] ∧ d.toNat ∉ w.vr ∧ x.toNat ∉ w.vr ∧ y.toNat ∈ w.vr)) ∧
    at_ (fun s => { s with ops := [o9] }) (fun _ p => calm p ∧ (∃ o, o ∈ p.ops ∧ (d.toNat ∈ o.vd ∨ x.toNat ∈ o.vd ∨ y.toNat ∈ o.vd)) ∧
      (∀ o q, o ∈ p.ops → q ∈ o.acc → q.st ≠ .parked)) ∧
    at_ (fun s => { s with vst := ⟨[(9, .unrestored)]⟩ }) (fun _ p => fits p ∧ p.wins = [] ∧ p.ops = [] ∧ present p d ∧ present p y ∧
      p.vst.get .present x.toNat = .unrestored) ∧
    at_ (fun s => { s with ops := List.replicate 16 { o9 with vd := [] } }) (fun _ p => calm p ∧ (∀ o, o ∈ p.ops → o.vd = [] ∧ o.ad = []) ∧ 16 ≤ p.ops.length) ∧
    (let s := mk sl { cr with rfPoison := [9] } dv []
     s.dev.cur = .slot 0 0 0#64 ∧ calm (s.dev.slot 0 0) ∧ (s.dev.slot 0 0).ops = [] ∧ (s.dev.core 0).rfPoison.contains ((s.dev.slot 0 0).winBase + x.toNat) = true) := by
  refine ⟨by decide +kernel, by decide +kernel, by decide +kernel, by decide +kernel, by decide +kernel, by decide +kernel, by decide +kernel,
    ⟨⟨by decide +kernel, ⟨o9, by decide +kernel⟩, fun o q ho hq => ?_⟩, rfl⟩, by decide +kernel, by decide +kernel, by decide +kernel⟩
  have h1 : o = o9 := List.mem_singleton.mp ho
  subst h1
  have h2 : q = acc0 := List.mem_singleton.mp hq
  subst h2
  decide
/-- Core 0's turn, with slot 0 in its seat and a word fetched already. -/
def turn (w : W64) (s : Slot) : State := ⟨⟨[]⟩, { (mk { s with stream := [(0x1000, w)] } cr dv []).dev with agenda := [.turn 0, .copy 0] }⟩
/-- What a translation gives, decided. -/
def goes (d : Dev) (m : Memory) (who : Who) (need : List Right) (va : W64) (pa : Nat) : Bool :=
  match d.translate m who need va with | .ok p _ => p == pa | _ => false
theorem goes_of {d : Dev} {m : Memory} {who : Who} {need : List Right} {va : W64} {pa : Nat} (h : goes d m who need va pa = true) : ∃ lf, d.translate m who need va = .ok pa lf := by
  unfold goes at h
  split at h
  · rename_i p lf e; exact ⟨lf, by rw [e, beq_iff_eq.mp h]⟩
  · simp at h
/-- Slot 0 of core 0, whose line is not in the instruction cache. -/
def w0' : State := mk sl cr dv []
/-- A copy command that waits for nothing, and a matrix command. -/
def cfill : Cmd := { c1 with img := 0#512 }
theorem witness_StepRunsTheDecodedInstruction :
    let clear := fun (d : Dev) (a : Slot) => a.killed = false ∧ (a.preempt = false ∨ a.leased = true) ∧ (a.stopReq = false ∨ a.leased = true) ∧ a.defer = [] ∧ a.endReq = false ∧ d.atBreakpoint a = false
    let going := fun (d : Dev) (x : Nat) (cq : Bool) => ∀ y, y ∈ ((d.core x).eq cq).live → y.stop = none
    let d := fun (s : State) (rest : List Act) => ({ s.dev with agenda := rest, cur := .none } : Dev)
    let at_ := fun (s : State) => s.dev.agenda = .turn 0 :: [.copy 0] ∧ ((d s [.copy 0]).core 0).seatedIn ((d s [.copy 0]).clock % 16) = some 0 ∧
      clear (d s [.copy 0]) ((d s [.copy 0]).slot 0 0)
    (∃ s w i, at_ s ∧ (d s [.copy 0]).fetch s.mem 0 0 = .word w (d s [.copy 0]) ∧ decode w = .ok i) ∧
    (∃ s w sub, at_ s ∧ (d s [.copy 0]).fetch s.mem 0 0 = .word w (d s [.copy 0]) ∧ decode w = .bad sub) ∧
    (∃ s : State, s.dev.agenda = .turn 0 :: [] ∧ ((d s []).core 0).seatedIn ((d s []).clock % 16) = none ∧ (d s []).seatChoice 0 ((d s []).clock % 16) = none) ∧
    (∃ s : State, ((d s []).slot 0 0).stream = (((d s []).slot 0 0).pc.toNat, 7#64) :: []) ∧
    (∃ s : State, let a := (d s []).slot 0 0
      ∃ pa lf, a.stream = [] ∧ a.pc.toNat % 8 = 0 ∧ isWindow a.pc = false ∧ ((d s []).core 0).ic.find? (lineOf a.pc.toNat) = none ∧
      (d s []).translate s.mem (a.who 0) [.x] a.pc = .ok pa lf ∧ (d s []).pending pa = false ∧ (d s []).linePoison.contains (lineOf pa) = false ∧
      ((d s []).quay ((d s []).fnOf a.lk) pa false).isSome = true) ∧
    (∃ (s : State) (i : Instr), s.dev.agenda = .copy 0 :: [] ∧ going (d s []) 0 true ∧ cfill.stop = none ∧ ((d s []).core 0).cq.q = cfill :: [] ∧ (d s []).headReady 0 true = true ∧ cfill.oc = none ∧
      decodeTile true cfill.img = .ok i) ∧
    (∃ (s : State) (i : Instr), s.dev.agenda = .court 0 :: [] ∧ (∀ j, j < 4 → going (d s []) j false) ∧ ((d s []).court 0).ran = false ∧ cfill.stop = none ∧ (d s []).courtPick 0 = some 3 ∧ ((d s []).core 3).mq.q = cfill :: [] ∧ cfill.oc = none ∧
      decodeTile false cfill.img = .ok i) ∧
    (∀ r : Bool, ∃ s : State, s.dev.agenda = .court 0 :: [] ∧ (∀ j, j < 4 → going (d s []) j false) ∧ (((d s []).court 0).ran = true ∨ (d s []).courtPick 0 = none) ∧
      ((d s []).court 0).ran = r) ∧
    (∃ s : State, s.dev.agenda = [] ∧ s.dev.up = true) ∧ (∃ s : State, s.dev.agenda = [] ∧ s.dev.up = false) := by
  refine ⟨⟨turn 0x0100000000000000#64 sl, _, .nop, by decide +kernel, rfl, by decide +kernel⟩, ⟨turn 0#64 sl, 0#64, 1, by decide +kernel, rfl, by decide +kernel⟩,
    ⟨⟨⟨[]⟩, { dv with agenda := [.turn 0] }⟩, by decide +kernel⟩, ⟨turn 7#64 sl, by decide +kernel⟩, ⟨w0', ?_⟩,
    ⟨⟨⟨[]⟩, { dv with agenda := [.copy 0], cores := ⟨[(0, { cr with cq := { EQ.init with q := [cfill] } })]⟩ }⟩, .tnop ⟨0#9, false, 0#16⟩, by decide +kernel⟩,
    ⟨⟨⟨[]⟩, { dv with agenda := [.court 0], courts := ⟨[(0, { Court.init with last := 2 })]⟩, cores := ⟨[(3, { cr with mq := { EQ.init with q := [cfill] } })]⟩ }⟩, .tnop ⟨0#9, false, 0#16⟩, by decide +kernel⟩,
    fun r => ⟨⟨⟨[]⟩, { dv with agenda := [.court 0], courts := ⟨[(0, { Court.init with ran := r })]⟩ }⟩, by cases r <;> decide +kernel⟩,
    ⟨⟨⟨[]⟩, dv⟩, rfl, rfl⟩, ⟨.reset, rfl, rfl⟩⟩
  obtain ⟨lf, hlf⟩ := goes_of (d := { w0'.dev with agenda := [], cur := .none }) (m := w0'.mem) (who := sl.who 0) (need := [.x]) (va := 0x1000#64) (pa := 0x1000) (by decide +kernel)
  exact ⟨0x1000, lf, by decide +kernel, by decide +kernel, by decide +kernel, by decide +kernel, hlf, by decide +kernel⟩
theorem witness_EveryStepKeepsMemoryCanonical : (∃ s t : State, s.mem.wf = true ∧ step s = .next t) ∧ ∃ s : State, s.mem.cells ≠ [] ∧ s.mem.wf = true :=
  ⟨⟨.reset, .reset, by decide, rfl⟩, ⟨⟨[(0x80, 1#8), (2 ^ 51, 0xFF#8)]⟩, .reset⟩, by decide, by decide⟩
theorem witness_EveryStepGoesOn : (∃ s : State, s.named = true) ∧ ∃ s : State, s.named = false :=
  ⟨⟨.reset, rfl⟩, ⟨⟨⟨[]⟩, { dv with agenda := [.req (.hostMemRead 0x10000000000)] }⟩, by decide⟩⟩
/-- Words that the decoder takes, and words that the encoder gives. -/
theorem witness_ThreadWordsRoundTrip : (∃ w i, decode w = .ok i) ∧ ∃ i w, Instr.wf i = true ∧ encode i = some w :=
  ⟨⟨0x0100000000000000#64, .nop, by decide +kernel⟩, .nop, 0x0100000000000000#64, by decide +kernel⟩
theorem witness_TileCommandsRoundTrip : (∃ cq c i, decodeTile cq c = .ok i) ∧ ∃ i c, Instr.wf i = true ∧ encodeTile i = some c :=
  ⟨⟨true, 0#512, .tnop ⟨0#9, false, 0#16⟩, by decide +kernel⟩, .tnop ⟨0#9, false, 0#16⟩, 0#512, by decide +kernel⟩

/-! ### Single steps. Expected values come from the spec's worked examples where a test names a rule's example, else by hand from the rule. -/

/-- The slot after one instruction of slot 0, from some registers. -/
def after {α : Type} (i : Instr) (s : Slot) (f : Slot → α) : Option α := match exec i (mk s .init .reset []) with
  | .next t => some (f (t.dev.slot 0 0))
  | _ => none
def vs (v : List (Nat × V512)) : Slot := { sl with vregs := ⟨v⟩ }
/-- Sixteen equal lanes, and lanes of a list with zeros above. -/
def all (w : W32) : V512 := ofLanes (fun _ => w)
def lanes (l : List W32) : V512 := ofLanes (fun i => l.getD i 0#32)
-- by hand from R79, R80: the largest number and 1; −1 times −1's high part; a shift count of 65 counts as 1; a register as its own source
theorem test_step_aadd_wraps : after (.aadd 3#4 1#4 2#4) (sa [(1, 0xFFFFFFFFFFFFFFFF#64), (2, 1#64)]) (·.A 3) = some 0#64 := by decide +kernel
theorem test_step_asub_self : after (.asub 1#4 2#4 1#4) (sa [(1, 7#64), (2, 5#64)]) (·.A 1) = some 0xFFFFFFFFFFFFFFFE#64 := by decide +kernel
theorem test_step_amulh_signed : after (.amulh 3#4 1#4 1#4) (sa [(1, 0xFFFFFFFFFFFFFFFF#64)]) (·.A 3) = some 0#64 := by decide +kernel
theorem test_step_amulhu_unsigned : after (.amulhu 3#4 1#4 1#4) (sa [(1, 0xFFFFFFFFFFFFFFFF#64)]) (·.A 3) = some 0xFFFFFFFFFFFFFFFE#64 := by decide +kernel
theorem test_step_asar_count : after (.asar 3#4 1#4 2#4) (sa [(1, 0x8000000000000000#64), (2, 65#64)]) (·.A 3) = some 0xC000000000000000#64 := by decide +kernel
theorem test_step_a0_discards : after (.ali true 0#4 5#32) sl (fun s => (s.A 0, s.pc)) = some (0#64, 0x1008#64) := by decide +kernel
theorem test_step_ali_signed : after (.ali false 4#4 0x80000000#32) sl (·.A 4) = some 0xFFFFFFFF80000000#64 := by decide +kernel
-- by hand from R72, R74, R75: callr a15 goes to the old a15; loop leaves at 1
theorem test_step_callr_a15 : after (.callr 15#4) (sa [(15, 0x4000#64)]) (fun s => (s.pc, s.A 15)) = some (0x4000#64, 0x1008#64) := by decide +kernel
theorem test_step_loop_leaves : after (.loop 6#4 0xFFFFFFFD#32) (sa [(6, 1#64)]) (fun s => (s.pc, s.A 6)) = some (0x1008#64, 0#64) := by decide +kernel
theorem test_step_loop_goes : after (.loop 6#4 0xFFFFFFFD#32) (sa [(6, 2#64)]) (fun s => (s.pc, s.A 6)) = some (0xFE8#64, 1#64) := by decide +kernel
-- by hand from R15, R40, R95: saturation at the top of i32, a masked lane kept (merge) or zeroed (fill)
theorem test_step_vadd_saturates : after (.vadd .i32 0#3 false 7#7 8#7 9#7) { vs [(8, all 0x7FFFFFFF#32), (9, all 1#32)] with tsw := 0x180#32 } (·.V 7) = some (all 0x7FFFFFFF#32) := by
  decide +kernel
theorem test_step_vadd_masked : after (.vadd .u32 1#3 true 8#7 8#7 8#7) { vs [(8, all 0x80000001#32)] with kregs := ⟨[(1, 2#16)]⟩ } (·.V 8) = some (lanes [0#32, 2#32]) := by decide +kernel
theorem test_step_kfirst_none : after (.kfirst 3#4 1#3) sl (·.A 3) = some 16#64 := by decide +kernel
theorem test_step_vext_unsigned : after (.vext 15#4 4#4 8#7) (vs [(8, all 0x80000000#32)]) (·.A 4) = some 0x80000000#64 := by decide +kernel
-- the example of R99: lane 15 receives the old lane 0
theorem test_step_vrotl : after (.vrotl 1#4 0#3 false 4#7 4#7) (vs [(4, lanes [5#32, 6#32])]) (·.V 4) = some (ofLanes (fun l => if l = 0 then 6#32 else if l = 15 then 5#32 else 0#32)) := by
  decide +kernel
-- the worked example of R46: the fused result, not 0x3A000000
theorem test_step_vfma_fused : after (.vfma .f32 .rn 0#3 false 4#7 1#7 1#7 2#7) (vs [(1, all 0x3F800800#32), (2, all 0xBF800000#32)]) (·.V 4) = some (all 0x3A000400#32) := by decide +kernel
-- the worked example of R48: 16,777,218 by the tree, and the inclusive scan of its first lanes
theorem test_step_vfredsum_tree : after (.vfredsum .f32 .rn 0#3 false 4#7 1#7) (vs [(1, lanes [0x3F800000#32, 0x4B800000#32, 0x3F800000#32, 0x3F800000#32])]) (fun s => lane (s.V 4) 0) =
    some 0x4B800001#32 := by decide +kernel
theorem test_step_vfscan_tree : after (.vfscan .f32 .rn 0#3 false 4#7 1#7) (vs [(1, lanes [0x3F800000#32, 0x4B800000#32, 0x3F800000#32, 0x3F800000#32])])
    (fun s => (List.range 4).map (lane (s.V 4))) = some [0x3F800000#32, 0x4B800000#32, 0x4B800000#32, 0x4B800001#32] := by decide +kernel
-- by hand from R296: special registers
theorem test_step_mfs_pc : after (.mfs .pc 2#4) sl (·.A 2) = some 0x1000#64 := by decide +kernel
-- by hand from R113: two words at an address of 8 bytes, low word first, and a misaligned one (ALIGN, R56)
theorem test_step_ald : (match exec (.ald .x 5#4 3#4 0xFFFFF8#24) (mk (sa [(3, 0x108#64)]) { cr with words := ⟨[(64, 7#32), (65, 9#32)]⟩ } dv []) with
    | .next t => some ((t.dev.slot 0 0).A 5) | _ => none) = some 0x0000000900000007#64 := by decide +kernel
theorem test_step_ald_misaligned : (match exec (.ald .x 5#4 3#4 4#24) (mk (sa [(3, 0x108#64)]) cr dv []) with
    | .next t => some ((t.dev.slot 0 0).st, (t.dev.slot 0 0).tsw, (t.dev.slot 0 0).frec2) | _ => none) = some (.held .trap, 0x00050100#32, 0x10C#64) := by decide +kernel
-- by hand from R63: a step refuses a word that is none with ILLEGAL and its sub-code
theorem test_step_illegal : (match step (turn 0xE000000000000000#64 sl) with
    | .next t => some ((t.dev.slot 0 0).st, (t.dev.slot 0 0).frec0.toNat % 2 ^ 24, (t.dev.slot 0 0).frec2) | _ => none) = some (.held .trap, 0x201, 0xE000000000000000#64) := by
  decide +kernel
-- the worked example of vcvtsc (R110): every largest magnitude 100.0 gives the scale 0.25, and 100.0 quantises to 0x7C
theorem test_step_vcvtsc : [0x42C80000#32, 0xC0533333#32, 0x3C23D70A#32].map (fun x => convScale .e4m3 .f32 .rn false x 0x42C80000#32) =
    [(0x7C#32, 0x3E800000#32), (0xD5#32, 0x3E800000#32), (0x12#32, 0x3E800000#32)] := by decide +kernel
-- by hand from R72 and R66: a thread word and a tile command, stored where the next step runs them
theorem test_step_runs_word : (match step (State.reset.withFetchWord 64 0x0100000000000000) with
    | .next t => some ((t.dev.slot 0 0).pc - ((State.reset.withFetchWord 64 0x0100000000000000).dev.slot 0 0).pc) | _ => none) = some 8#64 := by decide +kernel
theorem test_decodeTableWord : decodeTableWord 64 0x0100000000000000 = some .nop ∧ decodeTableWord 64 0 = none ∧ (decodeTableWord 512 0).isSome = true := by decide +kernel
-- the textbook pair of 61 and 53: 65 enciphers to 2790 under 17 modulo 3233, and 413 takes it back
theorem test_powMod : powMod 2790 413 3233 = 65 ∧ powMod 65 17 3233 = 2790 := by decide +kernel

end Sys2Proof.Tests
end

section
/-! PROOFS. Control: lanes (R87), nop and yield (R77), and the bounds of leases, which a READY slot's records keep (R153). -/

namespace Sys2Proof.Machine

/-! ### Instructions that end by writing their slot -/

/-- An instruction that writes its slot from what it finds, the clock of its device included, completes and changes only what its
function changes. -/
theorem slotForm_completes (i : Instr) (u : Use) (f : Ctx → Slot) (as vs ks : List Nat) (post : Ctx → Slot → Prop)
    (he : ∀ s, exec i s = thread u (fun c => c.done (f c)) s) (hk : ∀ c, KeptRegs c.s (f c) as vs ks)
    (hp : ∀ c, post c ((f c).issued c.s.pc (c.s.pc + 8#64) u)) : CompletesWhen i u (fun _ => True) as vs ks post := by
  intro s h n w hi _
  have hslot := Ctx.finish_slot (s.ctx h n w) u (s.dev.setSlot h n (f (s.ctx h n w))) ((s.dev.slot h n).pc + 8#64) hi.step
  rw [show (s.ctx h n w).h = h from rfl, show (s.ctx h n w).n = n from rfl, Dev.slot_setSlot_self] at hslot
  refine ⟨_, (he s).trans (thread_issues u _ s h n w hi), ⟨fun _ => rfl, fun h' n' hne => ?_, fun k => ?_, ?_⟩, ?_, ?_⟩
  · exact (Ctx.finish_slot_ne (s.ctx h n w) u _ _ hi.step h' n' hne).trans (Dev.slot_setSlot_ne _ _ _ _ _ _ hne)
  · exact (Ctx.finish_core_bare (s.ctx h n w) u _ _ hi.step k).trans (Dev.core_updSlot_bare _ _ _ _ _)
  · exact Ctx.finish_bare (s.ctx h n w) u _ _ hi.step
  · obtain ⟨ha, hv, hm, htsw, hrest⟩ := hk (s.ctx h n w)
    exact hslot ▸ ⟨ha, hv, hm, htsw, hrest⟩
  · exact hslot ▸ hp (s.ctx h n w)

/-! ### The order of R23 -/

/-- A slot READY since an earlier cycle, or since this one without a yield, stands before one that yields in this cycle. -/
theorem readyBefore_of_yielded {m n : Nat} {x y : Slot} (hm : m < 64) (hy : y.yielded = true)
    (hx : x.readyAt < y.readyAt ∨ x.readyAt = y.readyAt ∧ x.yielded = false) : readyBefore (m, x) (n, y) = true := by
  simp only [readyBefore, hy, if_true, decide_eq_true_eq]
  obtain hlt | ⟨heq, hf⟩ := hx
  · have : (if x.yielded = true then 64 else 0) ≤ 64 := by split <;> omega
    omega
  · simp only [hf, Bool.false_eq_true, if_false]
    omega

/-! ### Breaks (R153) -/

/-- Messages sent one after another leave every core as it is. -/
theorem Dev.cores_foldl_send {α : Type} (l : List α) (chan : α → Nat) (e : α → Ev) (d : Dev) :
    (l.foldl (fun d r => d.send (chan r) (e r)) d).cores = d.cores :=
  List.foldlRecOn (motive := fun x : Dev => x.cores = d.cores) l _ rfl (fun _ hx _ _ => hx)

/-- A break marks the records it names with its reason, and leaves the slot's other records as they are. -/
theorem Dev.leases_breakLeases (d : Dev) (h n why : Nat) (p : LeaseRec → Bool) :
    ((d.breakLeases h n why p).slot h n).leases =
      (d.slot h n).leases.map (fun r => if !r.broken && p r then { r with broken := true, why := why } else r) := by
  unfold Dev.breakLeases
  simp only
  split
  · next hnone =>
    have hkept : ∀ r ∈ (d.slot h n).leases, (!r.broken && p r) = false := by simpa using hnone
    exact ((List.map_congr_left (fun r hr => by simp [hkept r hr])).trans (List.map_id _)).symm
  · rw [Dev.slot, Dev.core, Dev.cores_foldl_send, ← Dev.core, ← Dev.slot, Dev.slot_updSlot_self]
    simp [Slot.fixIl]

/-- An unbroken record that a break names is broken after it, with its reason. -/
theorem Dev.broken_mem_breakLeases {d : Dev} {h n : Nat} {l : LeaseRec} (why : Nat) (p : LeaseRec → Bool)
    (hl : l ∈ (d.slot h n).leases) (hb : l.broken = false) (hp : p l = true) :
    { l with broken := true, why := why } ∈ ((d.breakLeases h n why p).slot h n).leases := by
  rw [Dev.leases_breakLeases]
  exact List.mem_map.mpr ⟨l, hl, by simp [hb, hp]⟩

/-! ### Slots that a cycle finds on their cores -/

/-- What a key finds stands under it among the entries. -/
theorem AMap.mem_of_find? {α : Type} {m : AMap α} {k : Nat} {v : α} (hf : m.find? k = some v) : (k, v) ∈ m.ents := by
  unfold AMap.find? at hf
  split at hf
  · next e he =>
    obtain rfl : e.1 = k := by simpa using List.find?_some he
    obtain rfl : e.2 = v := by simpa using hf
    exact List.mem_of_find?_eq_some he
  · cases hf

/-- A change of a table's values that keeps its keys changes what a key finds. -/
theorem AMap.find?_map {α β : Type} (m : AMap α) (g : Nat × α → Nat × β) (hg : ∀ e, (g e).1 = e.1) (k : Nat) :
    (⟨m.ents.map g⟩ : AMap β).find? k = (m.find? k).map (fun v => (g (k, v)).2) := by
  have hcomp : (fun e : Nat × β => e.1 == k) ∘ g = fun e => e.1 == k := funext fun e => by simp [hg]
  simp only [AMap.find?, List.find?_map, hcomp]
  cases he : m.ents.find? (fun e => e.1 == k) with
  | none => rfl
  | some e =>
    obtain rfl : e.1 = k := by simpa using List.find?_some he
    rfl

/-- Core h stands in the device's table and slot n, as it is, in the core's: what a cycle goes through, place by place. -/
def Dev.Lists (d : Dev) (h n : Nat) (x : Slot) : Prop :=
  ∃ c, d.cores.find? h = some c ∧ c.slots.find? n = some x

/-- What stands in the tables is the slot. -/
theorem Dev.Lists.slot_eq {d : Dev} {h n : Nat} {x : Slot} (hx : d.Lists h n x) (hn : n < 64) : d.slot h n = x := by
  obtain ⟨c, hc, hs⟩ := hx
  simp [Dev.slot, Dev.core, Core.slot, AMap.get, hc, hs, hn]

/-- A slot that is not FREE stands in the tables. -/
theorem Dev.lists_of_not_free {d : Dev} {h n : Nat} (hn : n < 64) (hst : (d.slot h n).st ≠ .free) : d.Lists h n (d.slot h n) := by
  simp only [Dev.slot, Dev.core, Core.slot, AMap.get, hn, if_true] at hst ⊢
  cases hc : d.cores.find? h with
  | none => exact absurd (by rw [hc]; rfl) hst
  | some c =>
    cases hs : c.slots.find? n with
    | none => exact absurd (by simp [hc, hs, Slot.init]) hst
    | some x => exact ⟨c, hc, by simp [hs]⟩

/-- A change of every core that keeps what place n of each holds keeps slot n of every core. -/
theorem Dev.Lists.of_map {d e : Dev} {h n : Nat} {x : Slot} (hx : d.Lists h n x) (g : Core → Core)
    (he : e.cores = ⟨d.cores.ents.map (fun c => (c.1, g c.2))⟩)
    (hg : ∀ c : Core, c.slots.find? n = some x → (g c).slots.find? n = some x) : e.Lists h n x := by
  obtain ⟨c, hc, hs⟩ := hx
  exact ⟨g c, by rw [he, AMap.find?_map d.cores (fun c => (c.1, g c.2)) (fun _ => rfl), hc]; rfl, hg c hs⟩

/-- Waking passes over a READY slot. -/
theorem Core.find?_slots_wake {c : Core} {n : Nat} {x : Slot} (clock : Nat) (p : Nat → Slot → WaitFor → Bool)
    (hx : x.st = .ready) (hc : c.slots.find? n = some x) : (c.wake clock p).slots.find? n = some x := by
  unfold Core.wake
  rw [AMap.find?_map, hc]
  · simp [hx]
  · intro e
    split
    · split <;> rfl
    · rfl

/-- Counting waits touches no slot. -/
@[simp] theorem Core.countWaits_slots (c : Core) : c.countWaits.slots = c.slots :=
  List.foldlRecOn (motive := fun x : Core => x.slots = c.slots) _ _ rfl (fun _ hx _ _ => hx)

/-! ### The passing of a cycle -/

@[simp] theorem Dev.wakeLowest_clock (d : Dev) : d.wakeLowest.clock = d.clock := by
  unfold Dev.wakeLowest
  simp only
  split <;> rfl

/-- The wait for a task to be the lowest passes over a READY slot. -/
theorem Dev.Lists.wakeLowest {d : Dev} {h n : Nat} {x : Slot} (hx : d.Lists h n x) (hst : x.st = .ready) : d.wakeLowest.Lists h n x := by
  unfold Dev.wakeLowest
  simp only
  split
  · exact hx.of_map _ rfl (fun _ hc => Core.find?_slots_wake _ _ hst hc)
  · exact hx

/-- Counting flits touches neither a core nor the clock. -/
theorem Dev.countFlits_keeps (d : Dev) : d.countFlits.cores = d.cores ∧ d.countFlits.clock = d.clock :=
  List.foldlRecOn (motive := fun x : Dev => x.cores = d.cores ∧ x.clock = d.clock) _ _ ⟨rfl, rfl⟩ (fun x hx i _ => by
    unfold Dev.addShared
    split
    · split <;> exact hx
    · exact hx)

/-- A cycle that passes leaves every core as it was but for the waits it ends and counts. -/
theorem Dev.tick_cores {d : Dev} (hu : d.up = true) :
    d.tick.cores = ⟨d.wakeLowest.cores.ents.map (fun c => (c.1, c.2.countWaits))⟩ := by
  simp [Dev.tick, hu, Dev.countFlits_keeps]

/-- A READY slot is as it was when a cycle has passed. -/
theorem Dev.Lists.tick {d : Dev} {h n : Nat} {x : Slot} (hx : d.Lists h n x) (hst : x.st = .ready) (hu : d.up = true) :
    d.tick.Lists h n x :=
  (hx.wakeLowest hst).of_map _ (Dev.tick_cores hu) (fun c hc => by simpa using hc)

/-- What falls due on a core as a cycle passes is among the acts of the next one. -/
theorem Dev.event_mem_tick_agenda {d : Dev} {h : Nat} {c : Core} {e : Ev} (hu : d.up = true) (hc : (h, c) ∈ d.tick.cores.ents)
    (he : e ∈ c.events h (d.clock + 1)) : Act.ev e ∈ d.tick.agenda := by
  rw [Dev.tick_cores hu] at hc
  have hdue := List.mem_flatMap (f := fun x : Nat × Core => (x.2.events x.1 (d.clock + 1)).map Act.ev) |>.mpr
    ⟨(h, c), hc, List.mem_map_of_mem he⟩
  simp only [Dev.tick, hu, Bool.not_true, Bool.false_eq_true, if_false, Dev.countFlits_keeps, Dev.wakeLowest_clock, List.mem_append]
  tauto

/-- The end of an unbroken record's bound falls due on its core. -/
theorem Core.leaseExpiry_mem_events {c : Core} {n clock : Nat} {x : Slot} {l : LeaseRec} (h : Nat) (hx : (n, x) ∈ c.slots.ents)
    (hl : l ∈ x.leases) (hg : l.granted = true) (hb : l.broken = false) (he : l.expiry ≤ clock) :
    Ev.leaseExpiry h n l.va ∈ c.events h clock := by
  refine List.mem_append_left _ (List.mem_flatMap.mpr ⟨(n, x), hx, List.mem_append_left _ ?_⟩)
  exact List.mem_map.mpr ⟨l, List.mem_filter.mpr ⟨hl, by simp [hg, hb, he]⟩, rfl⟩

/-- With no act left a step lets a cycle pass. -/
theorem step_of_agenda_nil {s : State} (ha : s.dev.agenda = []) : step s = .next ⟨s.mem, s.dev.tick⟩ := by
  simp [step, ha]

/-- A READY slot keeps its records through a cycle, and the end of a bound is an act of the cycle in which it falls due. -/
theorem Dev.leaseExpiry_mem_tick_agenda {d : Dev} {h n : Nat} {l : LeaseRec} (hn : n < 64) (hst : (d.slot h n).st = .ready)
    (hl : l ∈ (d.slot h n).leases) (hg : l.granted = true) (hb : l.broken = false) (hu : d.up = true) (he : l.expiry ≤ d.clock + 1) :
    Act.ev (.leaseExpiry h n l.va) ∈ d.tick.agenda ∧ d.tick.slot h n = d.slot h n := by
  have hx : d.tick.Lists h n (d.slot h n) := (Dev.lists_of_not_free hn (by simp [hst])).tick hst hu
  refine ⟨?_, hx.slot_eq hn⟩
  obtain ⟨c, hc, hs⟩ := hx
  exact Dev.event_mem_tick_agenda hu (AMap.mem_of_find? hc) (Core.leaseExpiry_mem_events h (AMap.mem_of_find? hs) hl hg hb he)

/-! ### The statements -/

/-- Settles O8: lanes writes one mask register with the slot's lane set. -/
theorem lanesReadsLaneSet : Obligations.LanesReadsLaneSet := by
  intro d
  exact writesK_of _ _ d _ (fun _ => rfl)

/-- nop changes nothing and goes on at the next instruction (R77). -/
theorem nop_goesTo_next : GoesTo .nop (useA []) (fun s => s.pc + 8#64) :=
  regForm_completes _ _ id _ _ _ _ (fun _ => rfl) (fun _ => ⟨fun _ _ => rfl, fun _ _ => rfl, fun _ _ => rfl, rfl, rfl⟩) (fun _ => rfl)

/-- A slot that yields in a cycle (R77). -/
def Slot.yieldedAt (s : Slot) (clock : Nat) : Slot := { s with st := .ready, readyAt := clock, yielded := true }

/-- yield leaves its slot READY in this cycle, marked as one that yielded, and touches nothing else but the PC (R77). -/
theorem yield_completes : CompletesWhen .yield (useA []) (fun _ => True) [] [] [] (fun c b =>
    b = (c.s.yieldedAt c.d.clock).issued c.s.pc (c.s.pc + 8#64) (useA [])) :=
  slotForm_completes _ _ (fun c => c.s.yieldedAt c.d.clock) _ _ _ _ (fun _ => rfl)
    (fun _ => ⟨fun _ _ => rfl, fun _ _ => rfl, fun _ _ => rfl, rfl, rfl⟩) (fun _ => rfl)

/-- Settles O3: yield's slot has this cycle's key of R23 with the mark of a yield; a READY slot's records pass a cycle unchanged, and
the end of a bound breaks its record. -/
theorem yieldAndNop : Obligations.YieldAndNop := by
  refine ⟨nop_goesTo_next, fun s h n w hi hpre => ?_, fun s h n l hst hl hg hb => ⟨fun hn ha hu he => ?_, fun he => ?_⟩⟩
  · obtain ⟨t, hexec, honly, hkept, hslot⟩ := yield_completes s h n w hi hpre
    refine ⟨t, hexec, honly, hkept, ?_⟩
    rw [hslot]
    exact ⟨rfl, rfl, rfl, rfl, fun m x _ hm _ hx => readyBefore_of_yielded hm rfl hx⟩
  · obtain ⟨hdue, hsame⟩ := Dev.leaseExpiry_mem_tick_agenda hn hst hl hg hb hu he.le
    exact ⟨_, step_of_agenda_nil ha, hdue, hsame ▸ hl, hsame ▸ hst⟩
  · exact ⟨_, rfl, _, Dev.broken_mem_breakLeases 1 _ hl hb (by simp [hg, he]), rfl, rfl, rfl, rfl⟩

end Sys2Proof.Machine
end

section
/-! PROOFS. Regions and action tables: rgnset, tbld, tbsw with the flip, and tbrd (R127, R132 to R136). -/

namespace Sys2Proof.Machine

/-! ### What an issued instruction leaves of its core and slot -/

/-- The end of an issue changes no other core. -/
theorem Ctx.finish_core_ne (c : Ctx) (u : Use) (d : Dev) (next : W64) (hs : c.s.stepReq = false) (k : Nat) (hk : k ≠ c.h) :
    (c.finish u d next).core k = d.core k := by
  unfold Ctx.finish
  simp only [hs, Bool.false_eq_true, if_false, Dev.updSlot, Dev.core_updCore_ne _ _ _ _ hk]
  split
  · exact Dev.core_updCore_ne _ _ _ _ hk
  · rfl

/-- A slot keeps its own registers. -/
theorem KeptRegs.refl (s : Slot) : KeptRegs s s [] [] [] :=
  ⟨fun _ _ => rfl, fun _ _ => rfl, fun _ _ => rfl, rfl, rfl⟩

/-- A write of a v-register keeps every other register. -/
theorem KeptRegs.setV (s : Slot) (j : Nat) (v : V512) : KeptRegs s (s.setV j v) [] [j] [] :=
  ⟨fun _ _ => Slot.A_setV _ _ _ _, fun _ hm => Slot.V_setV_ne _ _ _ _ (by simpa using hm), fun _ _ => Slot.K_setV _ _ _ _,
    Slot.tsw_setV _ _ _, Slot.rest_setV _ _ _⟩

/-- The end of an issue changes no register. -/
theorem KeptRegs.issued {a b : Slot} {as vs ks : List Nat} (hk : KeptRegs a b as vs ks) (p q : W64) (u : Use) :
    KeptRegs a (b.issued p q u) as vs ks :=
  ⟨hk.aregs, hk.vregs, hk.kregs, hk.tsw, hk.rest⟩

/-- An instruction that may issue and whose body completes ends with that issue. -/
theorem exec_of_body_done {i : Instr} {u : Use} {body : Ctx → Res} {s : State} {h n : Nat} {w : W64} {d : Dev}
    (he : exec i s = thread u body s) (hi : s.issues h n w u) (hb : body (s.ctx h n w) = .done d) :
    exec i s = .next ⟨s.mem, (s.ctx h n w).finish u d ((s.dev.slot h n).pc + 8#64)⟩ := by
  rw [he, thread_issues u body s h n w hi, hb]
  rfl

/-- An instruction whose body, under its condition, changes a part of its core that holds no slot completes there and changes nothing
else. -/
theorem coreForm_completes {i : Instr} {u : Use} {body : Ctx → Res} {pre : Ctx → Prop} {strip : Core → Core} {post : Ctx → Core → Prop}
    (g : Ctx → Core → Core) (he : ∀ s, exec i s = thread u body s) (hb : ∀ c, pre c → body c = .done (c.d.updCore c.h (g c)))
    (hslot : ∀ c k n, (g c k).slot n = k.slot n) (hstrip : ∀ c k, strip (g c k).bare = strip k.bare)
    (hp : ∀ c k, pre c → k.bare = (g c (c.d.core c.h)).bare → post c k) :
    CompletesOnCore i u pre [] [] [] strip (fun c k _ => post c k) := by
  intro s h n w hi hpre
  have hcore := Ctx.finish_core_bare (s.ctx h n w) u (s.dev.updCore h (g (s.ctx h n w))) ((s.dev.slot h n).pc + 8#64) hi.step h
  have hslots : ∀ h' n', (s.dev.updCore h (g (s.ctx h n w))).slot h' n' = s.dev.slot h' n' := by
    intro h' n'
    by_cases hh : h' = h
    · subst hh
      simp [Dev.slot, hslot]
    · simp [Dev.slot, Dev.core_updCore_ne _ _ _ _ hh]
  have hself := Ctx.finish_slot (s.ctx h n w) u (s.dev.updCore h (g (s.ctx h n w))) ((s.dev.slot h n).pc + 8#64) hi.step
  rw [hslots] at hself
  rw [Dev.core_updCore_self] at hcore
  refine ⟨_, exec_of_body_done (he s) hi (hb _ hpre), ⟨fun _ => rfl, fun h' n' hne => ?_, fun k hk => ?_, ?_, ?_⟩, ?_, ?_,
    hp _ _ hpre hcore⟩
  · exact (Ctx.finish_slot_ne (s.ctx h n w) u _ _ hi.step h' n' hne).trans (hslots h' n')
  · exact (Ctx.finish_core_ne (s.ctx h n w) u _ _ hi.step k hk).trans (Dev.core_updCore_ne _ _ _ _ hk)
  · exact (congrArg strip hcore).trans (hstrip _ _)
  · exact Ctx.finish_bare (s.ctx h n w) u _ _ hi.step
  · exact hself ▸ (KeptRegs.refl _).issued _ _ u
  · exact congrArg Slot.pc hself

/-- An instruction whose body, under its condition, writes one v-register completes with that value in it. -/
theorem setVForm_completes {i : Instr} {u : Use} {body : Ctx → Res} {pre : Ctx → Prop} {post : Ctx → Slot → Prop} (j : Nat)
    (val : Ctx → V512) (he : ∀ s, exec i s = thread u body s) (hb : ∀ c, pre c → body c = c.done (c.s.setV j (val c)))
    (hp : ∀ c x, pre c → x.pc = c.s.pc + 8#64 → x.V j = val c → post c x) : CompletesWhen i u pre [] [j] [] post := by
  intro s h n w hi hpre
  have hself := Ctx.finish_slot (s.ctx h n w) u (s.dev.setSlot h n ((s.dev.slot h n).setV j (val (s.ctx h n w))))
    ((s.dev.slot h n).pc + 8#64) hi.step
  rw [show (s.ctx h n w).h = h from rfl, show (s.ctx h n w).n = n from rfl, Dev.slot_setSlot_self] at hself
  refine ⟨_, exec_of_body_done (he s) hi (hb _ hpre), ⟨fun _ => rfl, fun h' n' hne => ?_, fun k => ?_, ?_⟩, ?_, hp _ _ hpre ?_ ?_⟩
  · exact (Ctx.finish_slot_ne (s.ctx h n w) u _ _ hi.step h' n' hne).trans (Dev.slot_setSlot_ne _ _ _ _ _ _ hne)
  · exact (Ctx.finish_core_bare (s.ctx h n w) u _ _ hi.step k).trans (Dev.core_updSlot_bare _ _ _ _ _)
  · exact Ctx.finish_bare (s.ctx h n w) u _ _ hi.step
  · exact hself ▸ (KeptRegs.setV _ _ _).issued _ _ u
  · exact congrArg Slot.pc hself
  · exact (congrArg (Slot.V · j) hself).trans (Slot.V_setV_self _ _ _)

/-- An instruction whose body, under its condition, sends one message of a fixed time acts by that alone. -/
theorem laterForm_acts {i : Instr} {u : Use} {body : Ctx → Res} {pre : Ctx → Prop} (cycles : Nat) (x : Ctx → Ev)
    (he : ∀ s, exec i s = thread u body s) (hb : ∀ c, pre c → body c = .done (c.d.later cycles (x c))) :
    Acts i u pre [] [] [] (fun c e => c.d.sendsAfter e cycles (x c) ∧ e.still = c.d.still) := by
  intro s h n w hi hpre
  have hself := Ctx.finish_slot (s.ctx h n w) u (s.dev.later cycles (x (s.ctx h n w))) ((s.dev.slot h n).pc + 8#64) hi.step
  rw [show (s.dev.later cycles (x (s.ctx h n w))).slot (s.ctx h n w).h (s.ctx h n w).n = s.dev.slot h n from rfl] at hself
  have hbare := Ctx.finish_bare (s.ctx h n w) u (s.dev.later cycles (x (s.ctx h n w))) ((s.dev.slot h n).pc + 8#64) hi.step
  obtain ⟨ha, hv, hk, -, -⟩ := hself ▸ (KeptRegs.refl (s.dev.slot h n)).issued (s.dev.slot h n).pc ((s.dev.slot h n).pc + 8#64) u
  exact ⟨_, exec_of_body_done (he s) hi (hb _ hpre), fun _ => rfl, congrArg Slot.pc hself, ha, hv, hk, (congrArg Dev.net hbare :),
    (congrArg Dev.still hbare :)⟩

/-- An instruction whose body, under its condition, faults with neither address nor lanes defined traps. -/
theorem faultForm_traps {i : Instr} {u : Use} {body : Ctx → Res} {pre : Ctx → Prop} (cause sub : Nat)
    (he : ∀ s, exec i s = thread u body s) (hb : ∀ c, pre c → body c = c.fault cause sub) : TrapsFree i u pre cause (fun _ => sub) := by
  intro s h n w hi hpre
  have hexec := (he s).trans (thread_issues u body s h n w hi)
  rw [hb _ hpre] at hexec
  exact ⟨_, _, hexec⟩

/-! ### Selectors -/

/-- The bits of a register value from bit k on are zero exactly when it is below 2 ^ k. -/
theorem extractLsb'_high_eq_zero {k m : Nat} (hkm : k + m = 64) (x : W64) : x.extractLsb' k m = 0#m ↔ x.toNat < 2 ^ k := by
  have hlt : x.toNat / 2 ^ k < 2 ^ m := Nat.div_lt_of_lt_mul (by rw [← Nat.pow_add, hkm]; exact x.isLt)
  rw [← BitVec.toNat_inj, BitVec.extractLsb'_toNat, Nat.shiftRight_eq_div_pow, Nat.mod_eq_of_lt hlt]
  simp [Nat.div_eq_zero_iff]

/-- The group that a selector names (R133, R135). -/
theorem selector_group (x : W64) : (x.extractLsb' 4 3).toNat = x.toNat / 16 % 8 := by
  simp [BitVec.extractLsb'_toNat, Nat.shiftRight_eq_div_pow]

/-! ### Groups of a generation (R132, R133) -/

/-- Two values with the same lanes are the same. -/
theorem eq_of_lanes {v w : V512} (hl : ∀ l, l < 16 → lane v l = lane w l) : v = w := by
  refine BitVec.eq_of_getLsbD_eq (fun i hi => ?_)
  have hlane := congrArg (·.getLsbD (i % 32)) (hl (i / 32) (by omega))
  simpa [lane, Nat.mod_lt, Nat.div_add_mod] using hlane

/-- Writes made one after another, of which one writes a key and the others leave it alone. -/
theorem AMap.get_foldl_range {α : Type} {d : α} {put : AMap α → Nat → AMap α} {key l n : Nat} {v : α} (m : AMap α) (hl : l < n)
    (hself : ∀ m, (put m l).get d key = v) (hne : ∀ m i, i ≠ l → (put m i).get d key = m.get d key) :
    ((List.range n).foldl put m).get d key = v := by
  induction n with
  | zero => omega
  | succ n ih =>
    rw [List.range_succ, List.foldl_append, List.foldl_cons, List.foldl_nil]
    by_cases h : n = l
    · rw [h, hself]
    · rw [hne _ _ h, ih (by omega)]

/-- A group of entries reads as it was written. -/
theorem TGen.group_setGroup_entries (t : TGen) {g : Nat} (v : V512) (hg : g ≠ 4) : (t.setGroup g v).group g = v := by
  refine eq_of_lanes (fun l hl => ?_)
  simp only [TGen.group, TGen.setGroup, hg, if_false]
  rw [lane_ofLanes _ _ hl, AMap.get_foldl_range (l := l) (v := (lane v l).extractLsb' 16 16) _ hl,
    AMap.get_foldl_range (l := l) (v := (lane v l).setWidth 16) _ hl, BitVec.setWidth_eq_extractLsb' (by omega),
    BitVec.extractLsb'_append_extractLsb'_eq_extractLsb' (by omega), BitVec.extractLsb'_eq_self]
  · intro m
    rw [AMap.get_put_ne _ _ _ _ _ (by omega), AMap.get_put_self]
  · intro m i hi
    rw [AMap.get_put_ne _ _ _ _ _ (by omega), AMap.get_put_ne _ _ _ _ _ (by omega)]
  · intro m
    rw [AMap.get_put_self]
  · intro m i hi
    rw [AMap.get_put_ne _ _ _ _ _ (by omega), AMap.get_put_ne _ _ _ _ _ (by omega)]

/-- The redirect bases read as they were written. -/
theorem TGen.lane_group_setGroup_bases (t : TGen) (v : V512) {l : Nat} (hl : l < 8) : lane ((t.setGroup 4 v).group 4) l = lane v l := by
  simp only [TGen.group, TGen.setGroup, if_true]
  rw [lane_ofLanes _ _ (by omega), if_pos hl]
  exact AMap.get_foldl_range _ hl (fun m => AMap.get_put_self _ _ _ _) (fun m i hi => AMap.get_put_ne _ _ _ _ _ hi.symm)

/-- Lanes 8 to 15 of the group of bases are zero (R135). -/
theorem TGen.lane_group_bases_high (t : TGen) {l : Nat} (hl : l < 16) (h8 : 8 ≤ l) : lane (t.group 4) l = 0#32 := by
  simp only [TGen.group, if_true]
  rw [lane_ofLanes _ _ hl, if_neg (by omega)]

/-! ### Generations of a core (R116, R127) -/

/-- The generation that an update names is changed by it. -/
theorem Core.gen_updGen_self (c : Core) (n : Nat) (shadow : Bool) (f : TGen → TGen) :
    (c.updGen n shadow f).gen n shadow = f (c.gen n shadow) := by
  unfold Core.updGen
  split <;> simp_all [Core.gen, AMap.upd]

/-- An update of a generation leaves every other one alone, that of the same table included. -/
theorem Core.gen_updGen_ne (c : Core) {n m : Nat} {shadow x : Bool} (f : TGen → TGen) (h : m = n → x ≠ shadow) :
    (c.updGen n shadow f).gen m x = c.gen m x := by
  by_cases hm : m = n
  · subst hm
    obtain rfl : x = !shadow := Bool.eq_not.mpr (h rfl)
    unfold Core.updGen
    split <;> simp_all [Core.gen]
  · unfold Core.updGen
    split <;> simp only [Core.gen, AMap.upd] <;> split <;> simp [AMap.get_put_ne _ _ _ _ _ hm]

/-- An update of a generation touches no slot. -/
theorem Core.slot_updGen (c : Core) (n : Nat) (shadow : Bool) (f : TGen → TGen) (m : Nat) : (c.updGen n shadow f).slot m = c.slot m := by
  unfold Core.updGen
  split <;> rfl

/-- An update of a generation touches nothing of its core but the generations. -/
theorem Core.bare_updGen (c : Core) (n : Nat) (shadow : Bool) (f : TGen → TGen) :
    { (c.updGen n shadow f).bare with gen0 := .empty, gen1 := .empty } = { c.bare with gen0 := .empty, gen1 := .empty } := by
  unfold Core.updGen
  split <;> rfl

/-- The flip of a mask of tables: a named table's generations change places, and every other table's stay. -/
theorem Core.gen_flip (c : Core) (mask : BitVec 8) (n : Nat) (x : Bool) :
    { c with tbgen := c.tbgen ^^^ mask }.gen n x = c.gen n (x != mask.getLsbD n) := by
  have hbit : ((c.tbgen ^^^ mask).getLsbD n != x) = (c.tbgen.getLsbD n != (x != mask.getLsbD n)) := by
    rw [BitVec.getLsbD_xor]
    cases c.tbgen.getLsbD n <;> cases mask.getLsbD n <;> cases x <;> rfl
  simp only [Core.gen, hbit]

/-- Where nothing is parked nothing is re-evaluated. -/
theorem Dev.reevalWhere_of_parked_nil {d : Dev} {h : Nat} (hp : (d.core h).parked = []) (p : Nat → Bool) : d.reevalWhere h p = d := by
  simp [Dev.reevalWhere, Core.parkedAt, hp]

/-! ### What the instructions are -/

theorem exec_rgnset (a b : AReg) (s : State) : exec (.rgnset a b) s = execRgnset a b s := rfl
theorem exec_tbld (a : VReg) (b : AReg) (s : State) : exec (.tbld a b) s = execTbld a b s := rfl
theorem exec_tbsw (a : AReg) (s : State) : exec (.tbsw a) s = execTbsw a s := rfl
theorem exec_tableFlip (h : Nat) (mask : BitVec 8) (s : State) : exec (.tableFlip h mask) s = execTableFlip h mask s := rfl
theorem exec_tbrd (d : VReg) (b : AReg) (s : State) : exec (.tbrd d b) s = execTbrd d b s := rfl

/-! ### The statement -/

/-- Settles O16: each form comes down to its one change once its checks pass; a group written reads back lane by lane, and the flip
exchanges the places of a table's two generations. That bit 3 of a selector is a bad bit is the model's reading (log 23). -/
theorem regionsAndTables : Obligations.RegionsAndTables := by
  intro a b v
  dsimp only
  refine ⟨?rgnset, ?tbld, ?tbsw, ?tableFlip, ?tbrd, ?tbrdBad⟩
  case rgnset =>
    refine coreForm_completes
      (fun c k => { k with map := k.map.put (16 * c.s.lk + (c.s.A a.toNat).toNat) (BitVec.ofNat 32 (c.s.A b.toNat).toNat) })
      (fun s => (exec_rgnset a b s).trans rfl) ?_ (fun _ _ _ => rfl) (fun _ _ => rfl) ?_
    · rintro c ⟨hi, hold, hnew, hparked⟩
      have hix := (extractLsb'_high_eq_zero (k := 4) (m := 60) rfl (c.s.A a.toNat)).2 hi
      simp only [hix, Nat.mod_eq_of_lt hi, BitVec.ofNat_toNat]
      rw [if_neg (by simpa using ⟨hold, hnew⟩), Dev.reevalWhere_of_parked_nil (by simpa using hparked)]
    · rintro c k - hk
      have hmap : k.map = _ := (congrArg Core.map hk :)
      rw [hmap]
      exact ⟨AMap.get_put_self _ _ _ _, fun j hj => AMap.get_put_ne _ _ _ _ _ hj⟩
  case tbld =>
    refine coreForm_completes
      (fun c k => k.updGen ((c.s.A b.toNat).toNat % 8) true (fun t => t.setGroup ((c.s.A b.toNat).toNat / 16 % 8) (c.s.V v.toNat)))
      (fun s => (exec_tbld v b s).trans rfl) ?_ (fun _ _ _ => Core.slot_updGen _ _ _ _ _) (fun _ _ => Core.bare_updGen _ _ _ _) ?_
    · rintro c ⟨hsel, hbit, hg, hsup, hents, hbases⟩
      have hhigh := (extractLsb'_high_eq_zero (k := 7) (m := 57) rfl (c.s.A b.toNat)).2 hsel
      simp only [selector_group, hhigh, hbit, hsup]
      rw [if_neg (by simpa using hg), if_neg (by simpa [Slot.ln] using hents), if_neg (by simpa [Slot.ln] using hbases)]
    · rintro c k - hk
      have hgen : ∀ m x, k.gen m x = (Core.bare _).gen m x := fun m x => congrArg (fun k => k.gen m x) hk
      have hshadow : k.gen _ true = _ := (hgen _ true).trans (Core.gen_updGen_self _ _ _ _)
      refine ⟨fun m => ?_, fun m hm => ?_, fun hg => ?_, fun hg l hl => ?_⟩
      · exact (hgen m false).trans (Core.gen_updGen_ne _ _ (by simp))
      · exact (hgen m true).trans (Core.gen_updGen_ne _ _ (fun e => absurd e hm))
      · rw [hshadow]
        exact TGen.group_setGroup_entries _ _ (by omega)
      · rw [hshadow, hg]
        exact TGen.lane_group_setGroup_bases _ _ hl
  case tbsw =>
    refine laterForm_acts 1 _ (fun s => (exec_tbsw a s).trans rfl) ?_
    rintro c ⟨hsel, hbit, hne, hsup⟩
    have hhigh := (extractLsb'_high_eq_zero (k := 8) (m := 56) rfl (c.s.A a.toNat)).2 hsel
    simp only [hhigh, hbit]
    rw [if_neg (by simpa using hsup), if_neg hne]
  case tableFlip =>
    intro s h mask hparked
    refine ⟨⟨s.mem, s.dev.updCore h (fun c => { c with tbgen := c.tbgen ^^^ mask })⟩, ?_, fun _ => rfl,
      ⟨fun k hk => Dev.core_updCore_ne _ _ _ _ hk, rfl⟩, fun n _ x => ?_⟩
    · rw [exec_tableFlip, execTableFlip, onDev, Dev.reevalWhere_of_parked_nil (by simpa using hparked)]
    · rw [Dev.core_updCore_self]
      exact Core.gen_flip _ _ _ _
  case tbrd =>
    refine setVForm_completes v.toNat (fun c => if (c.s.A b.toNat).toNat % 8 = 0 then 0#512 else
      ((c.d.core c.h).gen ((c.s.A b.toNat).toNat % 8) ((c.s.A b.toNat).getLsbD 7)).group ((c.s.A b.toNat).toNat / 16 % 8))
      (fun s => (exec_tbrd v b s).trans rfl) ?_ ?_
    · rintro c ⟨hsel, hbit, hg, hsup⟩
      have hhigh := (extractLsb'_high_eq_zero (k := 8) (m := 56) rfl (c.s.A b.toNat)).2 hsel
      simp only [selector_group, hhigh, hbit]
      rw [if_neg (by simpa using ⟨hg, hsup⟩)]
    · rintro c x - hpc hval
      refine ⟨hpc, fun h0 => by rw [hval, if_pos h0], fun h0 => by rw [hval, if_neg h0], fun hg l hl h8 => ?_⟩
      rw [hval, hg]
      split
      · simp [lane]
      · exact TGen.lane_group_bases_high _ hl h8
  case tbrdBad =>
    refine faultForm_traps 0x11 2 (fun s => (exec_tbrd v b s).trans rfl) (fun c hbad => ?_)
    simp only [selector_group]
    have hhigh := extractLsb'_high_eq_zero (k := 8) (m := 56) rfl (c.s.A b.toNat)
    rw [if_pos]
    simp only [Bool.or_eq_true, Bool.and_eq_true, bne_iff_ne, ne_eq, decide_eq_true_eq, Bool.not_eq_true', hhigh, Nat.not_lt]
    tauto

end Sys2Proof.Machine
end

section
/-! PROOFS. Thread words: decoding and encoding are inverse to each other (R56 to R63). -/

namespace Sys2Proof

/-! ### Fields of a word -/

theorem FieldsV.pack_split (w : W64) : (FieldsV.split w).pack = w := by
  simp only [FieldsV.pack, FieldsV.split]
  iterate 9 rw [BitVec.extractLsb'_append_extractLsb'_eq_extractLsb' (by rfl)]
  exact BitVec.extractLsb'_eq_self
theorem FieldsI.pack_split (w : W64) : (FieldsI.split w).pack = w := by
  simp only [FieldsI.pack, FieldsI.split]
  iterate 7 rw [BitVec.extractLsb'_append_extractLsb'_eq_extractLsb' (by rfl)]
  exact BitVec.extractLsb'_eq_self
theorem FieldsM.pack_split (w : W64) : (FieldsM.split w).pack = w := by
  simp only [FieldsM.pack, FieldsM.split]
  iterate 8 rw [BitVec.extractLsb'_append_extractLsb'_eq_extractLsb' (by rfl)]
  exact BitVec.extractLsb'_eq_self
theorem FieldsB.pack_split (w : W64) : (FieldsB.split w).pack = w := by
  simp only [FieldsB.pack, FieldsB.split]
  iterate 9 rw [BitVec.extractLsb'_append_extractLsb'_eq_extractLsb' (by rfl)]
  exact BitVec.extractLsb'_eq_self
theorem FieldsA.pack_split (w : W64) : (FieldsA.split w).pack = w := by
  simp only [FieldsA.pack, FieldsA.split]
  iterate 13 rw [BitVec.extractLsb'_append_extractLsb'_eq_extractLsb' (by rfl)]
  exact BitVec.extractLsb'_eq_self

theorem FieldsV.split_pack (f : FieldsV) : FieldsV.split f.pack = f := by
  simp (disch := omega) only [FieldsV.pack, FieldsV.split, BitVec.extractLsb'_append_eq_of_add_le, BitVec.extractLsb'_append_eq_of_le,
    Nat.reduceSub, Nat.sub_self, BitVec.extractLsb'_eq_self]
theorem FieldsI.split_pack (f : FieldsI) : FieldsI.split f.pack = f := by
  simp (disch := omega) only [FieldsI.pack, FieldsI.split, BitVec.extractLsb'_append_eq_of_add_le, BitVec.extractLsb'_append_eq_of_le,
    Nat.reduceSub, Nat.sub_self, BitVec.extractLsb'_eq_self]
theorem FieldsM.split_pack (f : FieldsM) : FieldsM.split f.pack = f := by
  simp (disch := omega) only [FieldsM.pack, FieldsM.split, BitVec.extractLsb'_append_eq_of_add_le, BitVec.extractLsb'_append_eq_of_le,
    Nat.reduceSub, Nat.sub_self, BitVec.extractLsb'_eq_self]
theorem FieldsB.split_pack (f : FieldsB) : FieldsB.split f.pack = f := by
  simp (disch := omega) only [FieldsB.pack, FieldsB.split, BitVec.extractLsb'_append_eq_of_add_le, BitVec.extractLsb'_append_eq_of_le,
    Nat.reduceSub, Nat.sub_self, BitVec.extractLsb'_eq_self]
theorem FieldsA.split_pack (f : FieldsA) : FieldsA.split f.pack = f := by
  simp (disch := omega) only [FieldsA.pack, FieldsA.split, BitVec.extractLsb'_append_eq_of_add_le, BitVec.extractLsb'_append_eq_of_le,
    Nat.reduceSub, Nat.sub_self, BitVec.extractLsb'_eq_self]

/-! ### Coded fields -/

@[simp] theorem IType.ofCode_code (x : IType) : IType.ofCode x.code = some x := by cases x <;> rfl
@[simp] theorem FType.ofCode_code (x : FType) : FType.ofCode x.code = some x := by cases x <;> rfl
@[simp] theorem Fmt.ofCode_code (x : Fmt) : Fmt.ofCode x.code = some x := by cases x <;> rfl
@[simp] theorem Rnd.ofCode_code (x : Rnd) : Rnd.ofCode x.code = some x := by cases x <;> rfl
@[simp] theorem Cc.ofCode_code (x : Cc) : Cc.ofCode x.code = some x := by cases x <;> rfl
@[simp] theorem Fcc.ofCode_code (x : Fcc) : Fcc.ofCode x.code = some x := by cases x <;> rfl
@[simp] theorem Dir.ofBit_bit (x : Dir) : Dir.ofBit x.bit = x := by cases x <;> rfl
@[simp] theorem LKind.ofBit_bit (x : LKind) : LKind.ofBit x.bit = x := by cases x <;> rfl
@[simp] theorem LeaseCls.ofCode_code (x : LeaseCls) : LeaseCls.ofCode x.code = some x := by cases x <;> rfl
@[simp] theorem AmoOp.ofCode_code (x : AmoOp) : AmoOp.ofCode x.code = some x := by cases x <;> rfl
@[simp] theorem Sem.ofCode_code (x : Sem) : Sem.ofCode x.code = some x := by cases x <;> rfl
@[simp] theorem Scope.ofCode_code (x : Scope) : Scope.ofCode x.code = some x := by cases x <;> rfl
@[simp] theorem SReg.ofCode_code (x : SReg) : SReg.ofCode x.code = some x := by cases x <;> rfl

@[simp] theorem aOf_fA (a : AReg) : aOf (fA a) = a := BitVec.extractLsb'_append_eq_right
@[simp] theorem aZ_fA (a : AReg) : aZ (fA a) = true := beq_iff_eq.mpr BitVec.extractLsb'_append_eq_left
@[simp] theorem kOf_fK (k : KReg) : kOf (fK k) = k := BitVec.extractLsb'_append_eq_right
@[simp] theorem kZ_fK (k : KReg) : kZ (fK k) = true := beq_iff_eq.mpr BitVec.extractLsb'_append_eq_left

/-- What the checks of R63 after the first three come to: the instruction of a row whose every check holds. -/
theorem Row.check_eq_ok {r : Row} {la : BitVec 4} {i : Instr} :
    r.check la = .ok i ↔ r.ok4 = true ∧ r.ok5 = true ∧ (r.long = false → la = 0#4) ∧ r.ok7 = true ∧ r.i = i := by
  obtain ⟨ok4, ok5, long, ok7, j⟩ := r
  cases ok4 <;> cases ok5 <;> cases long <;> cases ok7 <;> simp [Row.check]
  all_goals split <;> simp_all

/-- A word whose operation code has a format is neither all zeros nor all ones (R63). -/
theorem not_blank_of_formatOf {w : W64} {x : Format} (h : formatOf (w.extractLsb' 56 8) = some x) :
    (w == 0#64 || w == BitVec.allOnes 64) = false := by
  rw [Bool.or_eq_false_iff, beq_eq_false_iff_ne, beq_eq_false_iff_ne]
  exact ⟨by rintro rfl; exact absurd h (by simp [formatOf]), by rintro rfl; exact absurd h (by simp [formatOf])⟩

theorem FieldsV.op_pack (f : FieldsV) : f.pack.extractLsb' 56 8 = f.op := congrArg FieldsV.op f.split_pack
theorem FieldsI.op_pack (f : FieldsI) : f.pack.extractLsb' 56 8 = f.op := congrArg FieldsI.op f.split_pack
theorem FieldsM.op_pack (f : FieldsM) : f.pack.extractLsb' 56 8 = f.op := congrArg FieldsM.op f.split_pack
theorem FieldsB.op_pack (f : FieldsB) : f.pack.extractLsb' 56 8 = f.op := congrArg FieldsB.op f.split_pack
theorem FieldsA.op_pack (f : FieldsA) : f.pack.extractLsb' 56 8 = f.op := congrArg FieldsA.op f.split_pack

/-- A word of a format is decoded by its row, where the row's checks hold. -/
theorem decode_packV {f : FieldsV} {r : Row} {i : Instr} (hop : formatOf f.op = some .v) (hr : rowV f = some (some r))
    (hc : r.check f.la = .ok i) : decode f.pack = .ok i := by
  have hb := not_blank_of_formatOf ((congrArg formatOf f.op_pack).trans hop)
  simp only [decode, hb, f.op_pack, hop, f.split_pack, hr, finishRow, hc, Bool.false_eq_true, if_false]

@[simp] theorem FieldsV.z_mk (op : BitVec 8) (la : BitVec 4) (km : KReg) (kz : BitVec 1) (d a b c : BitVec 7) (fn : BitVec 8) (mod : BitVec 12) :
  (FieldsV.mk op la km kz d a b c fn mod).z = (kz == 1#1) := rfl
@[simp] theorem ofBool_beq_one (b : BitVec 1) : BitVec.ofBool (b == 1#1) = b := by revert b; decide
@[simp] theorem ofBool_beq_one' (b : Bool) : (BitVec.ofBool b == 1#1) = b := by revert b; decide

/-- The four parts of MOD. -/
theorem mod4_parts (m : BitVec 12) : ∃ m3 m2 m1 m0, m = mod4 m3 m2 m1 m0 := by
  refine ⟨m.extractLsb' 9 3, m.extractLsb' 6 3, m.extractLsb' 3 3, m.extractLsb' 0 3, ?_⟩
  simp only [mod4]
  iterate 3 rw [BitVec.extractLsb'_append_extractLsb'_eq_extractLsb' (by rfl)]
  exact BitVec.extractLsb'_eq_self.symm

@[simp] theorem mod4_m0 (m3 m2 m1 m0 : BitVec 3) : (mod4 m3 m2 m1 m0).extractLsb' 0 3 = m0 := BitVec.extractLsb'_append_eq_right
@[simp] theorem mod4_m1 (m3 m2 m1 m0 : BitVec 3) : (mod4 m3 m2 m1 m0).extractLsb' 3 3 = m1 := by
  simp (disch := omega) only [mod4, BitVec.extractLsb'_append_eq_of_add_le, BitVec.extractLsb'_append_eq_of_le, Nat.reduceSub, BitVec.extractLsb'_eq_self]
@[simp] theorem mod4_m2 (m3 m2 m1 m0 : BitVec 3) : (mod4 m3 m2 m1 m0).extractLsb' 6 3 = m2 := by
  simp (disch := omega) only [mod4, BitVec.extractLsb'_append_eq_of_add_le, BitVec.extractLsb'_append_eq_of_le, Nat.reduceSub, BitVec.extractLsb'_eq_self]
@[simp] theorem mod4_m3 (m3 m2 m1 m0 : BitVec 3) : (mod4 m3 m2 m1 m0).extractLsb' 9 3 = m3 := by
  simp (disch := omega) only [mod4, BitVec.extractLsb'_append_eq_of_add_le, BitVec.extractLsb'_append_eq_of_le, Nat.reduceSub, BitVec.extractLsb'_eq_self]

theorem zero_append_low {n k : Nat} {x : BitVec (n + k)} (h : x.extractLsb' k n = 0#n) : 0#n ++ x.extractLsb' 0 k = x := by
  rw [← h, BitVec.extractLsb'_append_extractLsb'_eq_extractLsb' (by omega)]
  exact BitVec.extractLsb'_eq_self

theorem append_eq_zero {n m : Nat} (x : BitVec n) (y : BitVec m) : x ++ y = 0#(n+m) ↔ x = 0#n ∧ y = 0#m := by
  constructor
  · intro h
    have h1 := congrArg (BitVec.extractLsb' m n) h
    have h2 := congrArg (BitVec.extractLsb' 0 m) h
    rw [BitVec.extractLsb'_append_eq_left, BitVec.extractLsb'_zero] at h1
    rw [BitVec.extractLsb'_append_eq_right, BitVec.extractLsb'_zero] at h2
    exact ⟨h1, h2⟩
  · rintro ⟨rfl, rfl⟩
    simp

@[simp] theorem mod4_high9 (m3 m2 m1 m0 : BitVec 3) : (mod4 m3 m2 m1 m0).extractLsb' 3 9 = 0#9 ↔ m3 = 0#3 ∧ m2 = 0#3 ∧ m1 = 0#3 := by
  rw [show (mod4 m3 m2 m1 m0).extractLsb' 3 9 = m3 ++ m2 ++ m1 from BitVec.extractLsb'_append_eq_left]
  rw [append_eq_zero (n := 6), append_eq_zero (n := 3), and_assoc]

theorem fA_aOf {x : BitVec 7} (h : aZ x = true) : fA (aOf x) = x := by revert x; decide
theorem fK_kOf {x : BitVec 7} (h : kZ x = true) : fK (kOf x) = x := by revert x; decide
theorem IType.code_ofCode {x : BitVec 3} (d : IType) (h : (IType.ofCode x).isSome = true) : ((IType.ofCode x).getD d).code = x := by
  have hcode : ∀ x : BitVec 3, ∀ y, IType.ofCode x = some y → y.code = x := by decide +revert
  obtain ⟨y, hy⟩ := Option.isSome_iff_exists.mp h
  simpa [hy] using hcode x y hy
theorem FType.code_ofCode {x : BitVec 3} (d : FType) (h : (FType.ofCode x).isSome = true) : ((FType.ofCode x).getD d).code = x := by
  have hcode : ∀ x : BitVec 3, ∀ y, FType.ofCode x = some y → y.code = x := by decide +revert
  obtain ⟨y, hy⟩ := Option.isSome_iff_exists.mp h
  simpa [hy] using hcode x y hy
theorem Fmt.code_ofCode {x : BitVec 3} (d : Fmt) (h : (Fmt.ofCode x).isSome = true) : ((Fmt.ofCode x).getD d).code = x := by
  have hcode : ∀ x : BitVec 3, ∀ y, Fmt.ofCode x = some y → y.code = x := by decide +revert
  obtain ⟨y, hy⟩ := Option.isSome_iff_exists.mp h
  simpa [hy] using hcode x y hy
theorem Rnd.code_ofCode {x : BitVec 3} (d : Rnd) (h : (Rnd.ofCode x).isSome = true) : ((Rnd.ofCode x).getD d).code = x := by
  have hcode : ∀ x : BitVec 3, ∀ y, Rnd.ofCode x = some y → y.code = x := by decide +revert
  obtain ⟨y, hy⟩ := Option.isSome_iff_exists.mp h
  simpa [hy] using hcode x y hy
theorem Cc.code_ofCode {x : BitVec 3} (d : Cc) (h : (Cc.ofCode x).isSome = true) : ((Cc.ofCode x).getD d).code = x := by
  have hcode : ∀ x : BitVec 3, ∀ y, Cc.ofCode x = some y → y.code = x := by decide +revert
  obtain ⟨y, hy⟩ := Option.isSome_iff_exists.mp h
  simpa [hy] using hcode x y hy
theorem Fcc.code_ofCode {x : BitVec 3} (d : Fcc) (h : (Fcc.ofCode x).isSome = true) : ((Fcc.ofCode x).getD d).code = x := by
  have hcode : ∀ x : BitVec 3, ∀ y, Fcc.ofCode x = some y → y.code = x := by decide +revert
  obtain ⟨y, hy⟩ := Option.isSome_iff_exists.mp h
  simpa [hy] using hcode x y hy
theorem Sem.code_ofCode {x : BitVec 3} (d : Sem) (h : (Sem.ofCode x).isSome = true) : ((Sem.ofCode x).getD d).code = x := by
  have hcode : ∀ x : BitVec 3, ∀ y, Sem.ofCode x = some y → y.code = x := by decide +revert
  obtain ⟨y, hy⟩ := Option.isSome_iff_exists.mp h
  simpa [hy] using hcode x y hy
theorem Scope.code_ofCode {x : BitVec 3} (d : Scope) (h : (Scope.ofCode x).isSome = true) : ((Scope.ofCode x).getD d).code = x := by
  have hcode : ∀ x : BitVec 3, ∀ y, Scope.ofCode x = some y → y.code = x := by decide +revert
  obtain ⟨y, hy⟩ := Option.isSome_iff_exists.mp h
  simpa [hy] using hcode x y hy
theorem LeaseCls.code_ofCode {x : BitVec 2} (d : LeaseCls) (h : (LeaseCls.ofCode x).isSome = true) : ((LeaseCls.ofCode x).getD d).code = x := by
  have hcode : ∀ x : BitVec 2, ∀ y, LeaseCls.ofCode x = some y → y.code = x := by decide +revert
  obtain ⟨y, hy⟩ := Option.isSome_iff_exists.mp h
  simpa [hy] using hcode x y hy
theorem AmoOp.code_ofCode {x : BitVec 4} (d : AmoOp) (h : (AmoOp.ofCode x).isSome = true) : ((AmoOp.ofCode x).getD d).code = x := by
  have hcode : ∀ x : BitVec 4, ∀ y, AmoOp.ofCode x = some y → y.code = x := by decide +revert
  obtain ⟨y, hy⟩ := Option.isSome_iff_exists.mp h
  simpa [hy] using hcode x y hy
theorem SReg.code_ofCode {x : BitVec 8} (d : SReg) (h : (SReg.ofCode x).isSome = true) : ((SReg.ofCode x).getD d).code = x := by
  have hcode : ∀ x : BitVec 8, ∀ y, SReg.ofCode x = some y → y.code = x := by decide +revert
  obtain ⟨y, hy⟩ := Option.isSome_iff_exists.mp h
  simpa [hy] using hcode x y hy

/-- What a row of format V reads is the word it was read from. -/
def FieldsV.Reads (f : FieldsV) (r : Row) : Prop := ∀ i, r.check f.la = .ok i → i.wf = true ∧ encode i = some f.pack

theorem FieldsV.reads_of (f : FieldsV) {g : FieldsV} {r : Row}
    (h : r.ok4 = true → r.ok5 = true → (r.long = false → f.la = 0#4) → r.ok7 = true → r.i.wf = true ∧ encode r.i = some g.pack ∧ g = f) : f.Reads r := by
  intro i hi
  obtain ⟨h4, h5, hl, h7, rfl⟩ := Row.check_eq_ok.mp hi
  obtain ⟨hw, he, rfl⟩ := h h4 h5 hl h7
  exact ⟨hw, he⟩

@[simp] theorem IType.code_i32 : IType.i32.code = 0#3 := rfl
@[simp] theorem Rnd.code_rn : Rnd.rn.code = 0#3 := rfl
@[simp] theorem mod4_zero : mod4 0#3 0#3 0#3 0#3 = 0#12 := rfl

@[simp] theorem mod4_high6 (m3 m2 m1 m0 : BitVec 3) : (mod4 m3 m2 m1 m0).extractLsb' 6 6 = 0#6 ↔ m3 = 0#3 ∧ m2 = 0#3 := by
  rw [show (mod4 m3 m2 m1 m0).extractLsb' 6 6 = m3 ++ m2 by
    simp (disch := omega) only [mod4, BitVec.extractLsb'_append_eq_of_le, Nat.reduceSub, BitVec.extractLsb'_eq_self]]
  exact append_eq_zero (n := 3) _ _

section RowReads

variable {la : BitVec 4} {km : BitVec 3} {kz : BitVec 1} {d a b c : BitVec 7} {fn : BitVec 8} {mod : BitVec 12} {r : Row}
theorem rowInt_reads (h : rowInt ⟨0x20, la, km, kz, d, a, b, c, fn, mod⟩ = some r) :
    FieldsV.Reads ⟨0x20, la, km, kz, d, a, b, c, fn, mod⟩ r := by
  obtain ⟨m3, m2, m1, m0, rfl⟩ := mod4_parts mod
  dsimp only [rowInt] at h
  split at h <;> cases h <;> refine FieldsV.reads_of _ (fun h4 h5 hl _ => ⟨rfl, rfl, ?_⟩) <;>
    simp only [Row.coded, FieldsV.m0, mod4_m0, mod4_high9, Bool.and_eq_true, beq_iff_eq] at h4 h5 hl <;>
    simp [h4, h5, hl, IType.code_ofCode, FieldsV.m0]
theorem rowRed_reads (h : rowRed ⟨0x27, la, km, kz, d, a, b, c, fn, mod⟩ = some r) :
    FieldsV.Reads ⟨0x27, la, km, kz, d, a, b, c, fn, mod⟩ r := by
  obtain ⟨m3, m2, m1, m0, rfl⟩ := mod4_parts mod
  dsimp only [rowRed] at h
  split at h <;> cases h <;> refine FieldsV.reads_of _ (fun h4 h5 hl _ => ⟨rfl, rfl, ?_⟩) <;>
    simp only [Row.coded, FieldsV.m0, mod4_m0, mod4_high9, Bool.and_eq_true, beq_iff_eq] at h4 h5 hl <;>
    simp [h4, h5, hl, IType.code_ofCode, FieldsV.m0]
theorem rowMask_reads (h : rowMask ⟨0x22, la, km, kz, d, a, b, c, fn, mod⟩ = some r) :
    FieldsV.Reads ⟨0x22, la, km, kz, d, a, b, c, fn, mod⟩ r := by
  dsimp only [rowMask] at h
  split at h <;> cases h <;> refine FieldsV.reads_of _ (fun _ h5 hl _ => ⟨rfl, rfl, ?_⟩) <;>
    simp only [Row.short, FieldsV.noMask, Bool.and_eq_true, beq_iff_eq] at h5 hl <;>
    simp [h5, hl, fA_aOf, fK_kOf]

@[simp] theorem Dir.bit_ofBit (x : BitVec 1) : (Dir.ofBit x).bit = x := by revert x; decide
@[simp] theorem LKind.bit_ofBit (x : BitVec 1) : (LKind.ofBit x).bit = x := by revert x; decide
theorem mod_lane {m : BitVec 12} (h : m.extractLsb' 4 8 = 0#8) : 0#8 ++ m.extractLsb' 0 4 = m := zero_append_low h
theorem mod_bit {m : BitVec 12} (h : m.extractLsb' 1 11 = 0#11) : 0#11 ++ m.extractLsb' 0 1 = m := zero_append_low h
theorem mod_obj {m : BitVec 12} (h : m.extractLsb' 6 6 = 0#6) : 0#6 ++ m.extractLsb' 0 6 = m := zero_append_low h
theorem mod_bar {m : BitVec 12} {p : Bool} (h : m.extractLsb' 10 2 = 0#2) (hp : (m.extractLsb' 9 1 == 1#1) = p) :
    0#2 ++ BitVec.ofBool p ++ m.extractLsb' 0 9 = m := by
  rw [← h, ← hp, ofBool_beq_one]
  iterate 2 rw [BitVec.extractLsb'_append_extractLsb'_eq_extractLsb' (by rfl)]
  exact BitVec.extractLsb'_eq_self

theorem mod_bar_low {m : BitVec 12} (h : m.extractLsb' 10 2 = 0#2) (hp : (m.extractLsb' 9 1 == 1#1) = false) :
    0#2 ++ 0#1 ++ m.extractLsb' 0 9 = m := by
  rw [show 0#1 = BitVec.ofBool false from rfl]
  exact mod_bar h hp

theorem rowLane_reads_24 (h : rowLane true ⟨0x24, la, km, kz, d, a, b, c, fn, mod⟩ = some r) :
    FieldsV.Reads ⟨0x24, la, km, kz, d, a, b, c, fn, mod⟩ r := by
  simp only [rowLane, if_true] at h
  split at h <;> cases h
  refine FieldsV.reads_of _ (fun _ h5 hl _ => ⟨rfl, rfl, ?_⟩)
  simp only [Row.short, Bool.and_eq_true, beq_iff_eq] at h5 hl
  simp [h5, hl, mod_lane]
theorem rowLane_reads_25 (h : rowLane false ⟨0x25, la, km, kz, d, a, b, c, fn, mod⟩ = some r) :
    FieldsV.Reads ⟨0x25, la, km, kz, d, a, b, c, fn, mod⟩ r := by
  simp only [rowLane, Bool.false_eq_true, if_false] at h
  split at h <;> cases h <;> refine FieldsV.reads_of _ (fun _ h5 hl _ => ⟨rfl, rfl, ?_⟩) <;>
    simp only [Row.short, FieldsV.noMask, Bool.and_eq_true, beq_iff_eq] at h5 hl <;>
    simp [h5, hl, fA_aOf, mod_lane]
theorem rowLink_reads (h : rowLink ⟨0x26, la, km, kz, d, a, b, c, fn, mod⟩ = some r) :
    FieldsV.Reads ⟨0x26, la, km, kz, d, a, b, c, fn, mod⟩ r := by
  dsimp only [rowLink] at h
  split at h <;> cases h <;> refine FieldsV.reads_of _ (fun _ h5 hl _ => ⟨rfl, rfl, ?_⟩) <;>
    simp only [Row.short, FieldsV.noMask, Bool.and_eq_true, beq_iff_eq] at h5 hl <;>
    simp [h5, hl, fA_aOf, mod_bit]
theorem rowBar_reads (h : rowBar ⟨0x90, la, km, kz, d, a, b, c, fn, mod⟩ = some r) :
    FieldsV.Reads ⟨0x90, la, km, kz, d, a, b, c, fn, mod⟩ r := by
  dsimp only [rowBar] at h
  split at h <;> cases h <;> refine FieldsV.reads_of _ (fun _ h5 hl _ => ⟨rfl, rfl, ?_⟩) <;>
    simp only [Row.short, FieldsV.noMask, Bool.and_eq_true, Bool.not_eq_true', beq_iff_eq] at h5 hl <;>
    simp only [h5, hl, fA_aOf, mod_bar, mod_bar_low, BitVec.ofNat_eq_ofNat, BitVec.ofBool_false]
theorem rowObj_reads (h : rowObj ⟨0x91, la, km, kz, d, a, b, c, fn, mod⟩ = some r) :
    FieldsV.Reads ⟨0x91, la, km, kz, d, a, b, c, fn, mod⟩ r := by
  dsimp only [rowObj] at h
  split at h <;> cases h <;> refine FieldsV.reads_of _ (fun _ h5 hl _ => ⟨rfl, rfl, ?_⟩) <;>
    simp only [Row.short, FieldsV.noMask, Bool.and_eq_true, beq_iff_eq] at h5 hl <;>
    simp [h5, hl, fA_aOf, mod_obj]
theorem rowTable_reads (h : rowTable ⟨0x69, la, km, kz, d, a, b, c, fn, mod⟩ = some r) :
    FieldsV.Reads ⟨0x69, la, km, kz, d, a, b, c, fn, mod⟩ r := by
  dsimp only [rowTable] at h
  split at h <;> cases h <;> refine FieldsV.reads_of _ (fun _ h5 hl _ => ⟨rfl, rfl, ?_⟩) <;>
    simp only [Row.short, FieldsV.noMask, Bool.and_eq_true, beq_iff_eq] at h5 hl <;>
    simp [h5, hl, fA_aOf]
theorem rowTask_reads (h : rowTask ⟨0xA0, la, km, kz, d, a, b, c, fn, mod⟩ = some r) :
    FieldsV.Reads ⟨0xA0, la, km, kz, d, a, b, c, fn, mod⟩ r := by
  dsimp only [rowTask] at h
  split at h <;> cases h <;> refine FieldsV.reads_of _ (fun _ h5 hl _ => ⟨rfl, rfl, ?_⟩) <;>
    simp only [Row.short, FieldsV.noMask, Bool.and_eq_true, beq_iff_eq] at h5 hl <;>
    simp [h5, hl, fA_aOf, fK_kOf]
theorem rowMail_reads (h : rowMail ⟨0xA1, la, km, kz, d, a, b, c, fn, mod⟩ = some r) :
    FieldsV.Reads ⟨0xA1, la, km, kz, d, a, b, c, fn, mod⟩ r := by
  dsimp only [rowMail] at h
  split at h <;> cases h <;> refine FieldsV.reads_of _ (fun _ h5 hl _ => ⟨rfl, rfl, ?_⟩) <;>
    simp only [Row.short, FieldsV.noMask, Bool.and_eq_true, beq_iff_eq] at h5 hl <;>
    simp [h5, hl, fA_aOf]
theorem rowGroup_reads (h : rowGroup ⟨0xAA, la, km, kz, d, a, b, c, fn, mod⟩ = some r) :
    FieldsV.Reads ⟨0xAA, la, km, kz, d, a, b, c, fn, mod⟩ r := by
  dsimp only [rowGroup] at h
  split at h <;> cases h <;> refine FieldsV.reads_of _ (fun _ h5 hl _ => ⟨rfl, rfl, ?_⟩) <;>
    simp only [Row.short, FieldsV.noMask, Bool.and_eq_true, beq_iff_eq] at h5 hl <;>
    simp [h5, hl, fK_kOf]
theorem rowProf_reads (h : rowProf ⟨0xDA, la, km, kz, d, a, b, c, fn, mod⟩ = some r) :
    FieldsV.Reads ⟨0xDA, la, km, kz, d, a, b, c, fn, mod⟩ r := by
  dsimp only [rowProf] at h
  split at h <;> cases h <;> refine FieldsV.reads_of _ (fun _ h5 hl _ => ⟨rfl, rfl, ?_⟩) <;>
    simp only [Row.short, FieldsV.noMask, Bool.and_eq_true, beq_iff_eq] at h5 hl <;>
    simp [h5, hl, fA_aOf]
theorem rowCvt_reads_44 (h : rowCvt true ⟨0x44, la, km, kz, d, a, b, c, fn, mod⟩ = some r) :
    FieldsV.Reads ⟨0x44, la, km, kz, d, a, b, c, fn, mod⟩ r := by
  obtain ⟨m3, m2, m1, m0, rfl⟩ := mod4_parts mod
  simp only [rowCvt, if_true] at h
  split at h <;> cases h
  refine FieldsV.reads_of _ (fun h4 h5 hl _ => ⟨(Bool.and_eq_true_iff.mp h4).2, rfl, ?_⟩)
  simp only [Row.coded, FieldsV.m0, FieldsV.m1, FieldsV.m2, FieldsV.m3, mod4_m0, mod4_m1, mod4_m2, mod4_m3, Bool.and_eq_true,
      beq_iff_eq] at h4 h5 hl
  simp [h4, h5, hl, Fmt.code_ofCode, Rnd.code_ofCode, FieldsV.m0, FieldsV.m1, FieldsV.m2]
theorem rowCvt_reads_45 (h : rowCvt false ⟨0x45, la, km, kz, d, a, b, c, fn, mod⟩ = some r) :
    FieldsV.Reads ⟨0x45, la, km, kz, d, a, b, c, fn, mod⟩ r := by
  obtain ⟨m3, m2, m1, m0, rfl⟩ := mod4_parts mod
  simp only [rowCvt, Bool.false_eq_true, if_false] at h
  split at h <;> cases h <;> refine FieldsV.reads_of _ (fun h4 h5 hl h7 => ⟨?_, rfl, ?_⟩)
  · exact (Bool.and_eq_true_iff.mp h4).2
  · simp only [FieldsV.m0, FieldsV.m1, FieldsV.m2, FieldsV.m3, mod4_m0, mod4_m1, mod4_m2, mod4_m3, Bool.and_eq_true,
      beq_iff_eq] at h4 h5
    simp [h4, h5, Fmt.code_ofCode, Rnd.code_ofCode, FieldsV.m0, FieldsV.m1, FieldsV.m2]
  · simp only [Bool.and_eq_true] at h4
    obtain ⟨⟨-, hdst⟩, hsrc⟩ := h4
    exact Bool.and_eq_true_iff.mpr ⟨Bool.and_eq_true_iff.mpr ⟨hdst, hsrc⟩, h7⟩
  · simp only [FieldsV.m0, FieldsV.m1, FieldsV.m2, FieldsV.m3, mod4_m0, mod4_m1, mod4_m2, mod4_m3, Bool.and_eq_true,
      beq_iff_eq] at h4 h5
    simp [h4, h5, Fmt.code_ofCode, Rnd.code_ofCode, FieldsV.m0, FieldsV.m1, FieldsV.m2]
theorem rowFloat_reads (h : rowFloat ⟨0x40, la, km, kz, d, a, b, c, fn, mod⟩ = some r) :
    FieldsV.Reads ⟨0x40, la, km, kz, d, a, b, c, fn, mod⟩ r := by
  obtain ⟨m3, m2, m1, m0, rfl⟩ := mod4_parts mod
  dsimp only [rowFloat] at h
  split at h <;> cases h <;> refine FieldsV.reads_of _ (fun h4 h5 hl _ => ⟨rfl, rfl, ?_⟩) <;>
    simp only [Row.coded, FieldsV.m0, FieldsV.m1, mod4_m0, mod4_m1, mod4_high6, Bool.and_eq_true, beq_iff_eq] at h4 h5 hl <;>
    simp [h4, h5, hl, FType.code_ofCode, Rnd.code_ofCode, FieldsV.m0, FieldsV.m1]
theorem rowApprox_reads (h : rowApprox ⟨0x42, la, km, kz, d, a, b, c, fn, mod⟩ = some r) :
    FieldsV.Reads ⟨0x42, la, km, kz, d, a, b, c, fn, mod⟩ r := by
  obtain ⟨m3, m2, m1, m0, rfl⟩ := mod4_parts mod
  dsimp only [rowApprox] at h
  split at h <;> cases h <;> refine FieldsV.reads_of _ (fun h4 h5 hl _ => ⟨rfl, rfl, ?_⟩) <;>
    simp only [Row.coded, FieldsV.m0, FieldsV.m1, mod4_m0, mod4_m1, mod4_high6, Bool.and_eq_true, beq_iff_eq] at h4 h5 hl <;>
    simp [h4, h5, hl]
theorem rowFred_reads (h : rowFred ⟨0x43, la, km, kz, d, a, b, c, fn, mod⟩ = some r) :
    FieldsV.Reads ⟨0x43, la, km, kz, d, a, b, c, fn, mod⟩ r := by
  obtain ⟨m3, m2, m1, m0, rfl⟩ := mod4_parts mod
  dsimp only [rowFred] at h
  split at h <;> cases h <;> refine FieldsV.reads_of _ (fun h4 h5 hl _ => ⟨rfl, rfl, ?_⟩) <;>
    simp only [Row.coded, FieldsV.m0, FieldsV.m1, mod4_m0, mod4_m1, mod4_high6, Bool.and_eq_true, beq_iff_eq] at h4 h5 hl <;>
    simp [h4, h5, hl, FType.code_ofCode, Rnd.code_ofCode, FieldsV.m0, FieldsV.m1]

end RowReads

theorem rowOne_eq_some {f : FieldsV} {q r : Row} : rowOne f q = some r ↔ f.fn = 0#8 ∧ q = r := by
  simp [rowOne]

/-- Every word of format V that its row takes is the word of the row's instruction. -/
theorem rowV_reads {f : FieldsV} {r : Row} (h : rowV f = some (some r)) : f.Reads r := by
  obtain ⟨op, la, km, kz, d, a, b, c, fn, mod⟩ := f
  simp only [rowV] at h
  split at h
  case h_2 =>
    have h := Option.some.inj h
    split at h <;> cases h <;> refine FieldsV.reads_of _ (fun _ h5 hl _ => ⟨rfl, rfl, ?_⟩) <;>
      simp only [Row.short, FieldsV.noMask, Bool.and_eq_true, beq_iff_eq] at h5 hl <;>
      simp [h5, hl, mod_bit]
  case h_3 => exact rowInt_reads (Option.some.inj h)
  case h_4 =>
    obtain ⟨m3, m2, m1, m0, rfl⟩ := mod4_parts mod
    obtain ⟨rfl, rfl⟩ := rowOne_eq_some.mp (Option.some.inj h)
    refine FieldsV.reads_of _ (fun h4 h5 hl _ => ⟨rfl, rfl, ?_⟩)
    simp only [Row.coded, FieldsV.m0, FieldsV.m1, FieldsV.m2, FieldsV.m3, mod4_m0, mod4_m1, mod4_m2, mod4_m3, Bool.and_eq_true,
      beq_iff_eq] at h4 h5 hl
    simp [h4, h5, hl, Cc.code_ofCode, fK_kOf, FieldsV.m2]
  case h_5 => exact rowMask_reads (Option.some.inj h)
  case h_6 => exact rowLane_reads_24 (Option.some.inj h)
  case h_7 => exact rowLane_reads_25 (Option.some.inj h)
  case h_8 => exact rowLink_reads (Option.some.inj h)
  case h_9 => exact rowRed_reads (Option.some.inj h)
  case h_10 => exact rowFloat_reads (Option.some.inj h)
  case h_11 =>
    obtain ⟨m3, m2, m1, m0, rfl⟩ := mod4_parts mod
    obtain ⟨rfl, rfl⟩ := rowOne_eq_some.mp (Option.some.inj h)
    refine FieldsV.reads_of _ (fun h4 h5 hl _ => ⟨rfl, rfl, ?_⟩)
    simp only [Row.coded, FieldsV.m0, FieldsV.m1, FieldsV.m2, FieldsV.m3, mod4_m0, mod4_m1, mod4_m2, mod4_m3, Bool.and_eq_true,
      beq_iff_eq] at h4 h5 hl
    simp [h4, h5, hl, Fcc.code_ofCode, FType.code_ofCode, fK_kOf, FieldsV.m2, FieldsV.m0]
  case h_12 => exact rowApprox_reads (Option.some.inj h)
  case h_13 => exact rowFred_reads (Option.some.inj h)
  case h_14 => exact rowCvt_reads_44 (Option.some.inj h)
  case h_15 => exact rowCvt_reads_45 (Option.some.inj h)
  case h_16 => exact rowTable_reads (Option.some.inj h)
  case h_17 =>
    obtain ⟨m3, m2, m1, m0, rfl⟩ := mod4_parts mod
    obtain ⟨rfl, rfl⟩ := rowOne_eq_some.mp (Option.some.inj h)
    refine FieldsV.reads_of _ (fun h4 h5 hl _ => ⟨rfl, rfl, ?_⟩)
    simp only [Row.coded, FieldsV.noMask, FieldsV.m0, FieldsV.m1, mod4_m0, mod4_m1, mod4_high6, Bool.and_eq_true,
      beq_iff_eq] at h4 h5 hl
    simp [h4, h5, hl, Sem.code_ofCode, Scope.code_ofCode, FieldsV.m1, FieldsV.m0]
  case h_20 => exact rowBar_reads (Option.some.inj h)
  case h_21 => exact rowObj_reads (Option.some.inj h)
  case h_22 => exact rowTask_reads (Option.some.inj h)
  case h_23 => exact rowMail_reads (Option.some.inj h)
  case h_24 => exact rowGroup_reads (Option.some.inj h)
  case h_28 =>
    obtain ⟨rfl, rfl⟩ := rowOne_eq_some.mp (Option.some.inj h)
    refine FieldsV.reads_of _ (fun h4 h5 _ _ => ⟨h4, rfl, ?_⟩)
    simp only [FieldsV.noMask, Bool.and_eq_true, beq_iff_eq] at h5
    simp [h5, fA_aOf]
  case h_33 =>
    obtain ⟨rfl, rfl⟩ := rowOne_eq_some.mp (Option.some.inj h)
    refine FieldsV.reads_of _ (fun _ h5 _ _ => ⟨rfl, rfl, ?_⟩)
    simp only [FieldsV.noMask, Bool.and_eq_true, beq_iff_eq] at h5
    simp [h5, fA_aOf, zero_append_low (n := 8) (k := 4)]
  case h_41 => exact rowProf_reads (Option.some.inj h)
  case h_43 => cases h
  all_goals
    obtain ⟨rfl, rfl⟩ := rowOne_eq_some.mp (Option.some.inj h)
    refine FieldsV.reads_of _ (fun _ h5 hl _ => ⟨rfl, rfl, ?_⟩)
    simp only [Row.short, FieldsV.noMask, Bool.and_eq_true, beq_iff_eq] at h5 hl
    simp [h5, hl, fA_aOf]

/-- What a row of format I reads is the word it was read from. -/
def FieldsI.Reads (f : FieldsI) (r : Row) : Prop := ∀ i, r.check f.la = .ok i → i.wf = true ∧ encode i = some f.pack

theorem FieldsI.reads_of (f : FieldsI) {g : FieldsI} {r : Row}
    (h : r.ok4 = true → r.ok5 = true → (r.long = false → f.la = 0#4) → r.ok7 = true → r.i.wf = true ∧ encode r.i = some g.pack ∧ g = f) :
    f.Reads r := by
  intro i hi
  obtain ⟨h4, h5, hl, h7, rfl⟩ := Row.check_eq_ok.mp hi
  obtain ⟨hw, he, rfl⟩ := h h4 h5 hl h7
  exact ⟨hw, he⟩

/-- What a row of format M reads is the word it was read from. -/
def FieldsM.Reads (f : FieldsM) (r : Row) : Prop := ∀ i, r.check f.la = .ok i → i.wf = true ∧ encode i = some f.pack

theorem FieldsM.reads_of (f : FieldsM) {g : FieldsM} {r : Row}
    (h : r.ok4 = true → r.ok5 = true → (r.long = false → f.la = 0#4) → r.ok7 = true → r.i.wf = true ∧ encode r.i = some g.pack ∧ g = f) :
    f.Reads r := by
  intro i hi
  obtain ⟨h4, h5, hl, h7, rfl⟩ := Row.check_eq_ok.mp hi
  obtain ⟨hw, he, rfl⟩ := h h4 h5 hl h7
  exact ⟨hw, he⟩

/-- What a row of format B reads is the word it was read from. -/
def FieldsB.Reads (f : FieldsB) (r : Row) : Prop := ∀ i, r.check 0#4 = .ok i → i.wf = true ∧ encode i = some f.pack

theorem FieldsB.reads_of (f : FieldsB) {g : FieldsB} {r : Row}
    (h : r.ok4 = true → r.ok5 = true → r.ok7 = true → r.i.wf = true ∧ encode r.i = some g.pack ∧ g = f) :
    f.Reads r := by
  intro i hi
  obtain ⟨h4, h5, hl, h7, rfl⟩ := Row.check_eq_ok.mp hi
  obtain ⟨hw, he, rfl⟩ := h h4 h5 h7
  exact ⟨hw, he⟩

/-- What a row of format A reads is the word it was read from. -/
def FieldsA.Reads (f : FieldsA) (r : Row) : Prop := ∀ i, r.check 0#4 = .ok i → i.wf = true ∧ encode i = some f.pack

theorem FieldsA.reads_of (f : FieldsA) {g : FieldsA} {r : Row}
    (h : r.ok4 = true → r.ok5 = true → r.ok7 = true → r.i.wf = true ∧ encode r.i = some g.pack ∧ g = f) :
    f.Reads r := by
  intro i hi
  obtain ⟨h4, h5, hl, h7, rfl⟩ := Row.check_eq_ok.mp hi
  obtain ⟨hw, he, rfl⟩ := h h4 h5 h7
  exact ⟨hw, he⟩

theorem subOf_eq {x : BitVec 2} (h : x = 0#2 ∨ x = 1#2) : subOf (x == 1#2) = x := by
  obtain rfl | rfl := h <;> rfl

theorem rowI_reads {f : FieldsI} {r : Row} (h : rowI f = some r) : f.Reads r := by
  obtain ⟨op, la, km, kz, d, a, sub, imm⟩ := f
  simp only [rowI] at h
  split at h <;> cases h
  case h_5.refl =>
    refine FieldsI.reads_of _ (fun h4 h5 hl _ => ⟨(Bool.and_eq_true_iff.mp h4).2, rfl, ?_⟩)
    simp only [Row.coded, Bool.and_eq_true, beq_iff_eq] at h4 h5 hl
    simp [h4, h5, hl]
  case h_7.refl =>
    refine FieldsI.reads_of _ (fun h4 h5 hl _ => ⟨(Bool.and_eq_true_iff.mp h4).2, rfl, ?_⟩)
    simp only [Row.coded, FieldsI.noMask, Bool.and_eq_true, beq_iff_eq] at h4 h5 hl
    simp [h4, h5, hl, fA_aOf]
  all_goals
    refine FieldsI.reads_of _ (fun h4 h5 hl _ => ⟨rfl, rfl, ?_⟩)
    simp only [Row.coded, FieldsI.noMask, Bool.and_eq_true, Bool.or_eq_true, beq_iff_eq] at h4 h5 hl
    simp [h4, h5, hl, fA_aOf, fK_kOf, subOf_eq]

theorem kMod_ofBit {m : BitVec 6} (h : m.extractLsb' 1 5 = 0#5) : kMod (LKind.ofBit (m.extractLsb' 0 1)) = m := by
  rw [kMod, LKind.bit_ofBit]
  exact zero_append_low (n := 5) (k := 1) h

theorem mod_lease {m : BitVec 6} (h : m.extractLsb' 2 4 = 0#4) : 0#4 ++ m.extractLsb' 0 2 = m := zero_append_low h
theorem mod_amo {m : BitVec 6} (h : m.extractLsb' 5 1 = 0#1) : 0#1 ++ m.extractLsb' 4 1 ++ m.extractLsb' 0 4 = m := by
  rw [← h]
  iterate 2 rw [BitVec.extractLsb'_append_extractLsb'_eq_extractLsb' (by rfl)]
  exact BitVec.extractLsb'_eq_self

theorem rowM_reads {f : FieldsM} {r : Row} (h : rowM f = some r) : f.Reads r := by
  obtain ⟨op, la, km, kz, d, x, base, mod, off⟩ := f
  simp only [rowM] at h
  split at h <;> cases h
  case h_3.refl | h_4.refl | h_12.refl | h_13.refl =>
    refine FieldsM.reads_of _ (fun _ h5 hl h7 => ⟨h7, rfl, ?_⟩)
    simp only [Bool.and_eq_true, beq_iff_eq] at h5 hl
    simp [h5, hl, FieldsM.z, kMod_ofBit]
  all_goals
    refine FieldsM.reads_of _ (fun h4 h5 hl _ => ⟨rfl, rfl, ?_⟩)
    simp only [Row.coded, Row.short, FieldsM.noMask, Bool.and_eq_true, beq_iff_eq] at h4 h5 hl
    simp [h4, h5, hl, FieldsM.z, fA_aOf, kMod_ofBit, LeaseCls.code_ofCode, AmoOp.code_ofCode, mod_lease, mod_amo]

theorem rowB_reads {f : FieldsB} {r : Row} (h : rowB f = some r) : f.Reads r := by
  obtain ⟨op, la, km, kz, ab, cc, z1, aa, z2, off⟩ := f
  simp only [rowB] at h
  split at h <;> cases h
  case h_7.refl =>
    refine FieldsB.reads_of _ (fun h4 h5 _ => ⟨h4, rfl, ?_⟩)
    simp only [Row.coded, Bool.and_eq_true, beq_iff_eq] at h5
    simp [h5]
  all_goals
    refine FieldsB.reads_of _ (fun h4 h5 _ => ⟨rfl, rfl, ?_⟩)
    simp only [Row.coded, Row.short, Bool.and_eq_true, beq_iff_eq] at h4 h5
    simp [h4, h5, Cc.code_ofCode]

theorem mod_sreg {m : BitVec 12} (h : m.extractLsb' 8 4 = 0#4) : 0#4 ++ m.extractLsb' 0 8 = m := zero_append_low h
theorem mod_cc {m : BitVec 12} (hl : m.extractLsb' 0 6 = 0#6) (hh : m.extractLsb' 9 3 = 0#3) :
    mod4 0#3 (m.extractLsb' 6 3) 0#3 0#3 = m := by
  have hlow : m.extractLsb' 3 3 ++ m.extractLsb' 0 3 = 0#6 :=
    (BitVec.extractLsb'_append_extractLsb'_eq_extractLsb' (by rfl)).trans hl
  obtain ⟨h1, h0⟩ := (append_eq_zero (n := 3) _ _).mp hlow
  obtain ⟨m3, m2, m1, m0, rfl⟩ := mod4_parts m
  rw [mod4_m3] at hh
  rw [mod4_m1] at h1
  rw [mod4_m0] at h0
  rw [mod4_m2, h0, h1, hh]

theorem rowA_reads {f : FieldsA} {r : Row} (h : rowA f = some (some r)) : f.Reads r := by
  obtain ⟨op, la, km, kz, z1, d, z2, a, z3, b, z4, c, fn, mod⟩ := f
  simp only [rowA] at h
  split at h
  case h_8 => cases h
  case h_1 | h_2 =>
    have h := Option.some.inj h
    split at h <;> cases h <;> refine FieldsA.reads_of _ (fun h4 h5 _ => ⟨rfl, rfl, ?_⟩) <;>
      simp only [Row.short, FieldsA.noMask, Bool.and_eq_true, beq_iff_eq] at h5 <;> simp [h5]
  all_goals
    have h := Option.some.inj h
    split at h <;> cases h
    rename_i hfn
    obtain rfl : fn = 0#8 := by simpa using hfn
    refine FieldsA.reads_of _ (fun h4 h5 _ => ⟨rfl, rfl, ?_⟩)
    simp only [Row.coded, Row.short, FieldsA.noMask, Bool.and_eq_true, beq_iff_eq] at h4 h5
    simp [h4, h5, Cc.code_ofCode, SReg.code_ofCode, mod_sreg, mod_cc]

theorem finishRow_eq_ok {la : BitVec 4} {x : Option Row} {i : Instr} (h : finishRow la x = .ok i) : ∃ r, x = some r ∧ r.check la = .ok i := by
  cases x with
  | none => cases h
  | some r => exact ⟨r, rfl, h⟩

/-- A word that the decoder takes is the word of the well-formed instruction that it gives. -/
theorem encode_of_decode {w : W64} {i : Instr} (h : decode w = .ok i) : i.wf = true ∧ encode i = some w := by
  unfold decode at h
  split at h
  · cases h
  split at h
  · cases h
  · dsimp only at h
    split at h
    · cases h
    · next r hr =>
      obtain ⟨r, rfl, hc⟩ := finishRow_eq_ok h
      exact FieldsV.pack_split w ▸ rowV_reads hr i hc
  · obtain ⟨r, hr, hc⟩ := finishRow_eq_ok h
    exact FieldsI.pack_split w ▸ rowI_reads hr i hc
  · obtain ⟨r, hr, hc⟩ := finishRow_eq_ok h
    exact FieldsM.pack_split w ▸ rowM_reads hr i hc
  · obtain ⟨r, hr, hc⟩ := finishRow_eq_ok h
    exact FieldsB.pack_split w ▸ rowB_reads hr i hc
  · dsimp only at h
    split at h
    · cases h
    · next r hr =>
      obtain ⟨r, rfl, hc⟩ := finishRow_eq_ok h
      exact FieldsA.pack_split w ▸ rowA_reads hr i hc

theorem decode_packI {f : FieldsI} {r : Row} {i : Instr} (hop : formatOf f.op = some .i) (hr : rowI f = some r)
    (hc : r.check f.la = .ok i) : decode f.pack = .ok i := by
  have hb := not_blank_of_formatOf ((congrArg formatOf f.op_pack).trans hop)
  simp only [decode, hb, f.op_pack, hop, f.split_pack, hr, finishRow, hc, Bool.false_eq_true, if_false]

theorem decode_packM {f : FieldsM} {r : Row} {i : Instr} (hop : formatOf f.op = some .m) (hr : rowM f = some r)
    (hc : r.check f.la = .ok i) : decode f.pack = .ok i := by
  have hb := not_blank_of_formatOf ((congrArg formatOf f.op_pack).trans hop)
  simp only [decode, hb, f.op_pack, hop, f.split_pack, hr, finishRow, hc, Bool.false_eq_true, if_false]

theorem decode_packB {f : FieldsB} {r : Row} {i : Instr} (hop : formatOf f.op = some .b) (hr : rowB f = some r)
    (hc : r.check 0#4 = .ok i) : decode f.pack = .ok i := by
  have hb := not_blank_of_formatOf ((congrArg formatOf f.op_pack).trans hop)
  simp only [decode, hb, f.op_pack, hop, f.split_pack, hr, finishRow, hc, Bool.false_eq_true, if_false]

theorem decode_packA {f : FieldsA} {r : Row} {i : Instr} (hop : formatOf f.op = some .a) (hr : rowA f = some (some r))
    (hc : r.check 0#4 = .ok i) : decode f.pack = .ok i := by
  have hb := not_blank_of_formatOf ((congrArg formatOf f.op_pack).trans hop)
  simp only [decode, hb, f.op_pack, hop, f.split_pack, hr, finishRow, hc, Bool.false_eq_true, if_false]

/-! ### Parts of MOD as the encoder writes it -/

@[simp] theorem extract_mod_lane_high (x : BitVec 4) : BitVec.extractLsb' (n := 12) 4 8 (0#8 ++ x) = 0#8 := BitVec.extractLsb'_append_eq_left
@[simp] theorem extract_mod_lane_low (x : BitVec 4) : BitVec.extractLsb' (n := 12) 0 4 (0#8 ++ x) = x := BitVec.extractLsb'_append_eq_right
@[simp] theorem extract_mod_bit_high (x : BitVec 1) : BitVec.extractLsb' (n := 12) 1 11 (0#11 ++ x) = 0#11 := BitVec.extractLsb'_append_eq_left
@[simp] theorem extract_mod_bit_low (x : BitVec 1) : BitVec.extractLsb' (n := 12) 0 1 (0#11 ++ x) = x := BitVec.extractLsb'_append_eq_right
@[simp] theorem extract_mod_obj_high (x : BitVec 6) : BitVec.extractLsb' (n := 12) 6 6 (0#6 ++ x) = 0#6 := BitVec.extractLsb'_append_eq_left
@[simp] theorem extract_mod_obj_low (x : BitVec 6) : BitVec.extractLsb' (n := 12) 0 6 (0#6 ++ x) = x := BitVec.extractLsb'_append_eq_right
@[simp] theorem extract_mod_sreg_high (x : BitVec 8) : BitVec.extractLsb' (n := 12) 8 4 (0#4 ++ x) = 0#4 := BitVec.extractLsb'_append_eq_left
@[simp] theorem extract_mod_sreg_low (x : BitVec 8) : BitVec.extractLsb' (n := 12) 0 8 (0#4 ++ x) = x := BitVec.extractLsb'_append_eq_right
@[simp] theorem extract_kMod_high (x : BitVec 1) : BitVec.extractLsb' (n := 6) 1 5 (0#5 ++ x) = 0#5 := BitVec.extractLsb'_append_eq_left
@[simp] theorem extract_kMod_low (x : BitVec 1) : BitVec.extractLsb' (n := 6) 0 1 (0#5 ++ x) = x := BitVec.extractLsb'_append_eq_right
@[simp] theorem extract_mod_lease_high (x : BitVec 2) : BitVec.extractLsb' (n := 6) 2 4 (0#4 ++ x) = 0#4 := BitVec.extractLsb'_append_eq_left
@[simp] theorem extract_mod_lease_low (x : BitVec 2) : BitVec.extractLsb' (n := 6) 0 2 (0#4 ++ x) = x := BitVec.extractLsb'_append_eq_right
@[simp] theorem extract_mod_bar_high (p : BitVec 1) (x : BitVec 9) : BitVec.extractLsb' (n := 12) 10 2 (0#2 ++ p ++ x) = 0#2 := by
  simp (disch := omega) only [BitVec.extractLsb'_append_eq_of_add_le, BitVec.extractLsb'_append_eq_of_le, Nat.reduceSub, Nat.sub_self, BitVec.extractLsb'_eq_self]
@[simp] theorem extract_mod_bar_part (p : BitVec 1) (x : BitVec 9) : BitVec.extractLsb' (n := 12) 9 1 (0#2 ++ p ++ x) = p := by
  simp (disch := omega) only [BitVec.extractLsb'_append_eq_of_add_le, BitVec.extractLsb'_append_eq_of_le, Nat.reduceSub, Nat.sub_self, BitVec.extractLsb'_eq_self]
@[simp] theorem extract_mod_bar_low (p : BitVec 1) (x : BitVec 9) : BitVec.extractLsb' (n := 12) 0 9 (0#2 ++ p ++ x) = x := by
  simp (disch := omega) only [BitVec.extractLsb'_append_eq_of_add_le, BitVec.extractLsb'_append_eq_of_le, Nat.reduceSub, Nat.sub_self, BitVec.extractLsb'_eq_self]
@[simp] theorem extract_mod_bar0_high (x : BitVec 9) : BitVec.extractLsb' (n := 12) 10 2 (0#3 ++ x) = 0#2 := extract_mod_bar_high 0#1 x
@[simp] theorem extract_mod_bar0_part (x : BitVec 9) : BitVec.extractLsb' (n := 12) 9 1 (0#3 ++ x) = 0#1 := extract_mod_bar_part 0#1 x
@[simp] theorem extract_mod_bar0_low (x : BitVec 9) : BitVec.extractLsb' (n := 12) 0 9 (0#3 ++ x) = x := extract_mod_bar_low 0#1 x
@[simp] theorem extract_mod_amo_high (p : BitVec 1) (x : BitVec 4) : BitVec.extractLsb' (n := 6) 5 1 (0#1 ++ p ++ x) = 0#1 := by
  simp (disch := omega) only [BitVec.extractLsb'_append_eq_of_add_le, BitVec.extractLsb'_append_eq_of_le, Nat.reduceSub, Nat.sub_self, BitVec.extractLsb'_eq_self]
@[simp] theorem extract_mod_amo_part (p : BitVec 1) (x : BitVec 4) : BitVec.extractLsb' (n := 6) 4 1 (0#1 ++ p ++ x) = p := by
  simp (disch := omega) only [BitVec.extractLsb'_append_eq_of_add_le, BitVec.extractLsb'_append_eq_of_le, Nat.reduceSub, Nat.sub_self, BitVec.extractLsb'_eq_self]
@[simp] theorem extract_mod_amo_low (p : BitVec 1) (x : BitVec 4) : BitVec.extractLsb' (n := 6) 0 4 (0#1 ++ p ++ x) = x := by
  simp (disch := omega) only [BitVec.extractLsb'_append_eq_of_add_le, BitVec.extractLsb'_append_eq_of_le, Nat.reduceSub, Nat.sub_self, BitVec.extractLsb'_eq_self]
@[simp] theorem extract_mod4_low6 (m3 m2 : BitVec 3) : (mod4 m3 m2 0#3 0#3).extractLsb' 0 6 = 0#6 :=
  (BitVec.extractLsb'_append_extractLsb'_eq_extractLsb' (start₁ := 0) (len₁ := 3) (start₂ := 3) (len₂ := 3) (by rfl)).symm.trans (by simp)
@[simp] theorem subOf_beq_one (u : Bool) : (subOf u == 1#2) = u := by cases u <;> rfl
@[simp] theorem subOf_eq_zero (u : Bool) : subOf u = 0#2 ↔ u = false := by cases u <;> simp [subOf]

/-- The word of a well-formed instruction is taken by its format's row, whose checks hold of it. -/
theorem decode_of_encode {i : Instr} {w : W64} (hwf : i.wf = true) (h : encode i = some w) : decode w = .ok i := by
  cases i
  case vcvt | vcvtFp8 | vcvtsc | kvlook =>
    cases h
    exact decode_packV rfl rfl (by simpa [Row.check_eq_ok, Row.coded, Row.short, FieldsV.noMask, FieldsV.m0, FieldsV.m1, FieldsV.m2, FieldsV.m3, Instr.wf] using hwf)
  case nop | halt | yield | vadd | vsub | vmul | vmulh | vmin | vmax | vabs | vneg | vand | vor | vxor | vnot | vshl | vshr |
      vsar | vmad | vcmp | kand | kor | kxor | kandn | knot | kmov | kpop | kfirst | kset | vbcast | viota | vperm | vrotl |
      vext | vins | vmov | linkw | linkwArm | vredsum | vredmin | vredmax | vredand | vredor | vredxor | vscan | vscanx | vfadd |
      vfsub | vfmul | vfma | vfms | vfnma | vfmin | vfmax | vfabs | vfneg | vfcmp | vfrcpa | vfrsqa | vfexp2a | vflog2a |
      vfredsum | vfredmin | vfredmax | vfscan | vfscanx | rgnset | tbld | tbsw | tbrd | fence | commit | isync | bini | barr |
      bwait | barw | bexp | bphs | bclr | odecl | oseal | ocopy | oreopen | ofree | ostat | tqcfg | tqpush | tqpushv | tend |
      tabort | tqstat | mbsend | mbrecv | mbpoll | join | lanes | mqpush | cqpush | qstat | kvins | kvapp | kvfree | kvpos |
      migr | spawn | kill | brk | eret | park | wake | plbinv | tlbinv | profRd | profClr | profLease =>
    cases h
    exact decode_packV rfl rfl (by simp [Row.check_eq_ok, Row.coded, Row.short, FieldsV.noMask, FieldsV.m0, FieldsV.m1, FieldsV.m2, FieldsV.m3])
  case split | trap =>
    cases h
    exact decode_packI rfl rfl (by simpa [Row.check_eq_ok, Row.coded, Row.short, FieldsI.noMask, Instr.wf] using hwf)
  case aaddi | ali | alih | vli | refill =>
    cases h
    exact decode_packI rfl rfl (by simp [Row.check_eq_ok, Row.coded, Row.short, FieldsI.noMask])
  case lldx | lstx | gldx | gstx =>
    cases h
    exact decode_packM rfl rfl (by simpa [Row.check_eq_ok, Row.coded, Row.short, FieldsM.noMask, FieldsM.z, kMod, Instr.wf] using hwf)
  case lld | lst | ald | ast | ltag | stag | lpeek | gld | gst | gpf | ginv | lease | sld | sst | amo | ldkr | rtab =>
    cases h
    exact decode_packM rfl rfl (by simp [Row.check_eq_ok, Row.coded, Row.short, FieldsM.noMask, FieldsM.z, kMod])
  case loop =>
    cases h
    exact decode_packB rfl rfl (by simpa [Row.check_eq_ok, Row.coded, Row.short, Instr.wf] using hwf)
  case br | bc | bany | ball | bnone | call =>
    cases h
    exact decode_packB rfl rfl (by simp [Row.check_eq_ok, Row.coded, Row.short])
  case jr | callr | ret | aadd | asub | amul | amulh | amulhu | aand | aor | axor | ashl | ashr | asar | amin | amax | aminu |
      amaxu | amov | asel | aset | release | lstat | mfs | mts =>
    cases h
    exact decode_packA rfl rfl (by simp [Row.check_eq_ok, Row.coded, Row.short, FieldsA.noMask])
  all_goals cases h

/-- Settles O55, format by format: each row reads its words back, and passes the words of its instructions. -/
theorem threadWordsRoundTrip : Obligations.ThreadWordsRoundTrip :=
  ⟨fun _ _ h => encode_of_decode h, fun _ _ hwf h => decode_of_encode hwf h⟩
end Sys2Proof
end

section
/-! PROOFS. Tile commands: decoding and encoding are inverse to each other (R65 to R67). -/

namespace Sys2Proof

/-! ### Fields of an image -/

theorem TileFields.pack_split (c : V512) : (TileFields.split c).pack = c := by
  simp only [TileFields.pack, TileFields.split]
  iterate 6 rw [BitVec.extractLsb'_append_extractLsb'_eq_extractLsb' (by rfl)]
  exact BitVec.extractLsb'_eq_self
theorem TileFields.split_pack (f : TileFields) : TileFields.split f.pack = f := by
  simp (disch := omega) only [TileFields.pack, TileFields.split, BitVec.extractLsb'_append_eq_of_add_le,
    BitVec.extractLsb'_append_eq_of_le, Nat.reduceSub, Nat.sub_self, BitVec.extractLsb'_eq_self]

/-! ### Operand bits -/

theorem accArgsOf_ops (x : AccArgs) : accArgsOf x.ops = x := by
  obtain ⟨acc, cnt, sp, base, pitch⟩ := x
  simp (disch := omega) only [accArgsOf, AccArgs.ops, BitVec.extractLsb'_append_eq_of_add_le, BitVec.extractLsb'_append_eq_of_le,
    Nat.reduceSub, Nat.sub_self, BitVec.extractLsb'_eq_self, ofBool_beq_one']
theorem cpArgsOf_ops (x : CpArgs) : cpArgsOf x.ops x.w1 = x := by
  obtain ⟨ssp, dsp, isp, src, dst, len, cnt, idx, ipitch, typ, op⟩ := x
  simp (disch := omega) only [cpArgsOf, CpArgs.ops, CpArgs.w1, BitVec.extractLsb'_append_eq_of_add_le, BitVec.extractLsb'_append_eq_of_le,
    Nat.reduceSub, Nat.sub_self, BitVec.extractLsb'_eq_self, ofBool_beq_one']
theorem kvArgsOf_ops (x : KvArgs) : kvArgsOf x.ops x.w1 = x := by
  obtain ⟨dep, pool, src, dst, nb, ses⟩ := x
  simp (disch := omega) only [kvArgsOf, KvArgs.ops, KvArgs.w1, BitVec.extractLsb'_append_eq_of_add_le, BitVec.extractLsb'_append_eq_of_le,
    Nat.reduceSub, Nat.sub_self, BitVec.extractLsb'_eq_self]
theorem mmArgsOf_ops (x : MmArgs) : mmArgsOf x.ops x.w1 = x := by
  obtain ⟨acc, mt, nt, kb, asrc, bsrc, abase, bbase, apitch, bpitch, sabase, sbbase⟩ := x
  simp (disch := omega) only [mmArgsOf, MmArgs.ops, MmArgs.w1, BitVec.extractLsb'_append_eq_of_add_le, BitVec.extractLsb'_append_eq_of_le,
    Nat.reduceSub, Nat.sub_self, BitVec.extractLsb'_eq_self, ofBool_beq_one']

/-! Operand bits are those of the operands they hold, where the bits beside them are zero. -/

theorem AccArgs.ops_of {o : BitVec 216} (h200 : o.extractLsb' 200 12 = 0#12) (h192 : o.extractLsb' 192 7 = 0#7)
    (h64 : o.extractLsb' 64 64 = 0#64) (h0 : o.extractLsb' 0 32 = 0#32) : (accArgsOf o).ops = o := by
  simp only [accArgsOf, AccArgs.ops, ofBool_beq_one]
  rw [← h200, ← h192, ← h64, ← h0]
  iterate 8 rw [BitVec.extractLsb'_append_extractLsb'_eq_extractLsb' (by rfl)]
  exact BitVec.extractLsb'_eq_self
theorem CpArgs.ops_of {o : BitVec 216} {w1 : BitVec 256} (h : cpZero o w1 = true) :
    (cpArgsOf o w1).ops = o ∧ (cpArgsOf o w1).w1 = w1 := by
  simp only [cpZero, Bool.and_eq_true, beq_iff_eq] at h
  obtain ⟨⟨h200, h192⟩, hw⟩ := h
  constructor
  · simp only [cpArgsOf, CpArgs.ops, ofBool_beq_one]
    rw [← h200, ← h192]
    iterate 8 rw [BitVec.extractLsb'_append_extractLsb'_eq_extractLsb' (by rfl)]
    exact BitVec.extractLsb'_eq_self
  · simp only [cpArgsOf, CpArgs.w1]
    rw [← hw]
    iterate 4 rw [BitVec.extractLsb'_append_extractLsb'_eq_extractLsb' (by rfl)]
    exact BitVec.extractLsb'_eq_self
theorem KvArgs.ops_of {o : BitVec 216} {w1 : BitVec 256} (h208 : o.extractLsb' 208 8 = 0#8) (h192 : o.extractLsb' 192 8 = 0#8)
    (h0 : o.extractLsb' 0 32 = 0#32) (hw : w1.extractLsb' 0 192 = 0#192) :
    (kvArgsOf o w1).ops = o ∧ (kvArgsOf o w1).w1 = w1 := by
  constructor
  · have hsplit : o.extractLsb' 208 8 ++ o.extractLsb' 204 4 ++ o.extractLsb' 200 4 ++ o.extractLsb' 192 8 ++ o.extractLsb' 128 64 ++
        o.extractLsb' 64 64 ++ o.extractLsb' 32 32 ++ o.extractLsb' 0 32 = o := by
      iterate 7 rw [BitVec.extractLsb'_append_extractLsb'_eq_extractLsb' (by rfl)]
      exact BitVec.extractLsb'_eq_self
    rwa [h208, h192, h0] at hsplit
  · simp only [kvArgsOf, KvArgs.w1]
    rw [← hw]
    rw [BitVec.extractLsb'_append_extractLsb'_eq_extractLsb' (by rfl)]
    exact BitVec.extractLsb'_eq_self
theorem MmArgs.ops_of {o : BitVec 216} {w1 : BitVec 256} (h208 : o.extractLsb' 208 2 = 0#2) (h192 : o.extractLsb' 192 6 = 0#6)
    (hw : w1.extractLsb' 0 128 = 0#128) : (mmArgsOf o w1).ops = o ∧ (mmArgsOf o w1).w1 = w1 := by
  constructor
  · simp only [mmArgsOf, MmArgs.ops, ofBool_beq_one]
    rw [← h208, ← h192]
    iterate 11 rw [BitVec.extractLsb'_append_extractLsb'_eq_extractLsb' (by rfl)]
    exact BitVec.extractLsb'_eq_self
  · simp only [mmArgsOf, MmArgs.w1]
    rw [← hw]
    iterate 2 rw [BitVec.extractLsb'_append_extractLsb'_eq_extractLsb' (by rfl)]
    exact BitVec.extractLsb'_eq_self

/-! ### Rows -/

/-- What a row of Table 7 reads is the image it was read from, where its checks hold. -/
def TileFields.Reads (f : TileFields) (r : TileRow) : Prop :=
  f.res = 0#6 → r.ok3 = true → r.ok4 = true → r.ok5 = true → r.i.wf = true ∧ encodeTile r.i = some f.pack

theorem TileFields.reads_of (f : TileFields) {g : TileFields} {r : TileRow}
    (h : f.res = 0#6 → r.ok3 = true → r.ok4 = true → r.ok5 = true → r.i.wf = true ∧ encodeTile r.i = some g.pack ∧ g = f) :
    f.Reads r := by
  intro hres h3 h4 h5
  obtain ⟨hw, he, rfl⟩ := h hres h3 h4 h5
  exact ⟨hw, he⟩

/-- The image of a command whose operand bits are the fields' own is the fields' image. -/
theorem encT_hdr {ops o : BitVec 216} {w1 w : BitVec 256} {top : BitVec 8} {cb : BitVec 9} {rst : BitVec 1} {res : BitVec 6}
    {rstep : BitVec 16} (hres : res = 0#6) (hops : o = ops) (hw1 : w = w1) :
    encT top (TileFields.hdr ⟨w1, top, cb, rst, res, rstep, ops⟩) o w = some (TileFields.pack ⟨w1, top, cb, rst, res, rstep, ops⟩) := by
  subst hops hw1 hres
  simp only [encT, TileFields.hdr, ofBool_beq_one]

/-! The operand bits of a row put together from its parts and the bits that must be zero. -/

theorem join_acc {o : BitVec 216} (h : o.extractLsb' 0 212 = 0#212) : o.extractLsb' 214 2 ++ o.extractLsb' 212 2 ++ 0#212 = o := by
  rw [← h]
  iterate 2 rw [BitVec.extractLsb'_append_extractLsb'_eq_extractLsb' (by rfl)]
  exact BitVec.extractLsb'_eq_self

theorem join_fmt {o : BitVec 216} (h : o.extractLsb' 32 184 = 0#184) : 0#184 ++ o.extractLsb' 0 32 = o := by
  rw [← h, BitVec.extractLsb'_append_extractLsb'_eq_extractLsb' (by rfl)]
  exact BitVec.extractLsb'_eq_self

theorem join_sig {o : BitVec 216} (h : o.extractLsb' 0 207 = 0#207) : o.extractLsb' 207 9 ++ 0#207 = o := by
  rw [← h, BitVec.extractLsb'_append_extractLsb'_eq_extractLsb' (by rfl)]
  exact BitVec.extractLsb'_eq_self

theorem join_twait {o : BitVec 216} (h : o.extractLsb' 0 206 = 0#206) :
    o.extractLsb' 207 9 ++ BitVec.ofBool (o.extractLsb' 206 1 == 1#1) ++ 0#206 = o := by
  rw [← h, ofBool_beq_one]
  iterate 2 rw [BitVec.extractLsb'_append_extractLsb'_eq_extractLsb' (by rfl)]
  exact BitVec.extractLsb'_eq_self

/-- Every row of Table 7 reads what its word says. -/
theorem tileRow_reads {f : TileFields} {r : TileRow} (h : tileRow f = some r) : f.Reads r := by
  obtain ⟨w1, top, cb, rst, res, rstep, ops⟩ := f
  simp only [tileRow] at h
  split at h <;> cases h <;> intro hres h3 h4 h5 <;> simp only [Bool.and_eq_true, beq_iff_eq] at h3
  case h_1.refl | h_15.refl =>
    obtain ⟨hops, hw1⟩ := h3
    exact ⟨h4, encT_hdr hres hops.symm hw1.symm⟩
  case h_2.refl =>
    obtain ⟨hops, hw1⟩ := h3
    exact ⟨h4, encT_hdr hres (join_fmt hops) hw1.symm⟩
  case h_3.refl | h_6.refl =>
    obtain ⟨hops, hw1⟩ := h3
    exact ⟨Bool.and_eq_true_iff.mpr ⟨h4, h5⟩, encT_hdr hres (join_acc hops) hw1.symm⟩
  case h_4.refl =>
    obtain ⟨⟨⟨⟨h200, h192⟩, h64⟩, h0⟩, hw1⟩ := h3
    obtain ⟨hok, hpitch⟩ := Bool.and_eq_true_iff.mp h5
    exact ⟨Bool.and_eq_true_iff.mpr ⟨Bool.and_eq_true_iff.mpr ⟨h4, hok⟩, hpitch⟩, encT_hdr hres (AccArgs.ops_of h200 h192 h64 h0) hw1.symm⟩
  case h_5.refl =>
    obtain ⟨⟨⟨⟨h200, h192⟩, h64⟩, h0⟩, hw1⟩ := h3
    exact ⟨Bool.and_eq_true_iff.mpr ⟨h4, h5⟩, encT_hdr hres (AccArgs.ops_of h200 h192 h64 h0) hw1.symm⟩
  case h_7.refl =>
    obtain ⟨⟨⟨h208, h192⟩, hw⟩, hun⟩ := h3
    obtain ⟨hops, hw1⟩ := MmArgs.ops_of h208 h192 hw
    exact ⟨Bool.and_eq_true_iff.mpr ⟨Bool.and_eq_true_iff.mpr ⟨hun, h4⟩, h5⟩, encT_hdr hres hops hw1⟩
  case h_8.refl | h_9.refl | h_10.refl | h_11.refl | h_12.refl =>
    obtain ⟨hzero, hun⟩ := h3
    obtain ⟨hops, hw1⟩ := CpArgs.ops_of hzero
    exact ⟨Bool.and_eq_true_iff.mpr ⟨Bool.and_eq_true_iff.mpr ⟨hun, h4⟩, h5⟩, encT_hdr hres hops hw1⟩
  case h_13.refl =>
    obtain ⟨hops, hw1⟩ := h3
    exact ⟨h4, encT_hdr hres (join_sig hops) hw1.symm⟩
  case h_14.refl =>
    obtain ⟨hops, hw1⟩ := h3
    exact ⟨h4, encT_hdr hres (join_twait hops) hw1.symm⟩
  case h_16.refl =>
    obtain ⟨⟨⟨h208, h192⟩, h0⟩, hw⟩ := h3
    obtain ⟨hops, hw1⟩ := KvArgs.ops_of h208 h192 h0 hw
    exact ⟨Bool.and_eq_true_iff.mpr ⟨h4, h5⟩, encT_hdr hres hops hw1⟩
  case h_17.refl =>
    obtain ⟨⟨⟨⟨⟨h208, h192⟩, h0⟩, hw⟩, hdep⟩, hpool⟩ := h3
    obtain ⟨hops, hw1⟩ := KvArgs.ops_of h208 h192 h0 hw
    refine ⟨?_, encT_hdr hres hops hw1⟩
    simp only [Instr.wf, Bool.and_eq_true, beq_iff_eq]
    exact ⟨⟨⟨hdep, hpool⟩, h4⟩, h5⟩

/-- A check that refuses, and what follows it, answer a command only where the check passes. -/
theorem eq_ok_of_check {p : Bool} {k : Nat} {x : Decoded} {i : Instr} (h : (if p = true then Decoded.bad k else x) = .ok i) :
    p = false ∧ x = .ok i := by
  cases p with
  | false => exact ⟨rfl, h⟩
  | true => cases h

/-- What the decoder takes is the image of the well-formed command it gives. -/
theorem encodeTile_of_decodeTile {cq : Bool} {c : V512} {i : Instr} (h : decodeTile cq c = .ok i) :
    i.wf = true ∧ encodeTile i = some c := by
  unfold decodeTile at h
  dsimp only at h
  split at h
  · cases h
  · next r hr =>
    obtain ⟨-, h⟩ := eq_ok_of_check h
    obtain ⟨h3, h⟩ := eq_ok_of_check h
    obtain ⟨h4, h⟩ := eq_ok_of_check h
    obtain ⟨h5, h⟩ := eq_ok_of_check h
    cases h
    simp only [Bool.not_eq_false', Bool.and_eq_true, beq_iff_eq] at h3 h4 h5
    obtain ⟨hres, h3⟩ := h3
    exact TileFields.pack_split c ▸ tileRow_reads hr hres h3 h4 h5

/-- An image is decoded by its row, where the row's checks hold. -/
theorem decodeTile_pack {cq : Bool} {f : TileFields} {r : TileRow} {i : Instr} (hr : tileRow f = some r)
    (hq : (if cq then r.cq else r.mq) = true) (hres : f.res = 0#6) (h3 : r.ok3 = true) (h4 : r.ok4 = true) (h5 : r.ok5 = true)
    (hi : r.i = i) : decodeTile cq f.pack = .ok i := by
  simp only [decodeTile, f.split_pack, hr, hq, hres, h3, h4, h5, hi, beq_self_eq_true, Bool.and_self, Bool.not_true,
    Bool.false_eq_true, if_false]

@[simp] theorem TileFields.hdr_mk (w1 : BitVec 256) (top : BitVec 8) (hd : TileHdr) (ops : BitVec 216) :
    TileFields.hdr ⟨w1, top, hd.cb, BitVec.ofBool hd.rst, 0#6, hd.rstep, ops⟩ = hd := by
  simp only [TileFields.hdr, ofBool_beq_one']

theorem CpArgs.cpZero_ops (x : CpArgs) : cpZero x.ops x.w1 = true := by
  obtain ⟨ssp, dsp, isp, src, dst, len, cnt, idx, ipitch, typ, op⟩ := x
  simp (disch := omega) only [cpZero, CpArgs.ops, CpArgs.w1, BitVec.extractLsb'_append_eq_of_add_le, BitVec.extractLsb'_append_eq_of_le,
    Nat.reduceSub, Nat.sub_self, BitVec.extractLsb'_eq_self, beq_self_eq_true, Bool.and_self]

/-! ### Parts of operand bits as the encoder writes them -/

@[simp] theorem extract_accCnt_acc (acc cnt : BitVec 2) : BitVec.extractLsb' (n := 216) 214 2 (acc ++ cnt ++ 0#212) = acc := by
  simp (disch := omega) only [BitVec.extractLsb'_append_eq_of_add_le, BitVec.extractLsb'_append_eq_of_le, Nat.reduceSub, Nat.sub_self, BitVec.extractLsb'_eq_self]
@[simp] theorem extract_accCnt_cnt (acc cnt : BitVec 2) : BitVec.extractLsb' (n := 216) 212 2 (acc ++ cnt ++ 0#212) = cnt := by
  simp (disch := omega) only [BitVec.extractLsb'_append_eq_of_add_le, BitVec.extractLsb'_append_eq_of_le, Nat.reduceSub, Nat.sub_self, BitVec.extractLsb'_eq_self]
@[simp] theorem extract_accCnt_rest (acc cnt : BitVec 2) : BitVec.extractLsb' (n := 216) 0 212 (acc ++ cnt ++ 0#212) = 0#212 := by
  simp (disch := omega) only [BitVec.extractLsb'_append_eq_of_add_le, BitVec.extractLsb'_append_eq_of_le, Nat.reduceSub, Nat.sub_self, BitVec.extractLsb'_eq_self]
@[simp] theorem extract_fmt_rest (x : BitVec 32) : BitVec.extractLsb' (n := 216) 32 184 (0#184 ++ x) = 0#184 := by
  simp (disch := omega) only [BitVec.extractLsb'_append_eq_of_add_le, BitVec.extractLsb'_append_eq_of_le, Nat.reduceSub, Nat.sub_self, BitVec.extractLsb'_eq_self]
@[simp] theorem extract_fmt_low (x : BitVec 32) : BitVec.extractLsb' (n := 216) 0 32 (0#184 ++ x) = x := by
  simp (disch := omega) only [BitVec.extractLsb'_append_eq_of_add_le, BitVec.extractLsb'_append_eq_of_le, Nat.reduceSub, Nat.sub_self, BitVec.extractLsb'_eq_self]
@[simp] theorem extract_sig_rest (x : BitVec 9) : BitVec.extractLsb' (n := 216) 0 207 (x ++ 0#207) = 0#207 := by
  simp (disch := omega) only [BitVec.extractLsb'_append_eq_of_add_le, BitVec.extractLsb'_append_eq_of_le, Nat.reduceSub, Nat.sub_self, BitVec.extractLsb'_eq_self]
@[simp] theorem extract_sig_bar (x : BitVec 9) : BitVec.extractLsb' (n := 216) 207 9 (x ++ 0#207) = x := by
  simp (disch := omega) only [BitVec.extractLsb'_append_eq_of_add_le, BitVec.extractLsb'_append_eq_of_le, Nat.reduceSub, Nat.sub_self, BitVec.extractLsb'_eq_self]
@[simp] theorem extract_twait_rest (x : BitVec 9) (p : BitVec 1) : BitVec.extractLsb' (n := 216) 0 206 (x ++ p ++ 0#206) = 0#206 := by
  simp (disch := omega) only [BitVec.extractLsb'_append_eq_of_add_le, BitVec.extractLsb'_append_eq_of_le, Nat.reduceSub, Nat.sub_self, BitVec.extractLsb'_eq_self]
@[simp] theorem extract_twait_phase (x : BitVec 9) (p : BitVec 1) : BitVec.extractLsb' (n := 216) 206 1 (x ++ p ++ 0#206) = p := by
  simp (disch := omega) only [BitVec.extractLsb'_append_eq_of_add_le, BitVec.extractLsb'_append_eq_of_le, Nat.reduceSub, Nat.sub_self, BitVec.extractLsb'_eq_self]
@[simp] theorem extract_twait_bar (x : BitVec 9) (p : BitVec 1) : BitVec.extractLsb' (n := 216) 207 9 (x ++ p ++ 0#206) = x := by
  simp (disch := omega) only [BitVec.extractLsb'_append_eq_of_add_le, BitVec.extractLsb'_append_eq_of_le, Nat.reduceSub, Nat.sub_self, BitVec.extractLsb'_eq_self]
theorem AccArgs.ops_zero (x : AccArgs) : x.ops.extractLsb' 200 12 = 0#12 ∧ x.ops.extractLsb' 192 7 = 0#7 ∧ x.ops.extractLsb' 64 64 = 0#64 ∧ x.ops.extractLsb' 0 32 = 0#32 := by
  obtain ⟨acc, cnt, sp, base, pitch⟩ := x
  simp (disch := omega) only [AccArgs.ops, BitVec.extractLsb'_append_eq_of_add_le, BitVec.extractLsb'_append_eq_of_le,
    Nat.reduceSub, Nat.sub_self, BitVec.extractLsb'_eq_self, and_self]
theorem KvArgs.ops_zero (x : KvArgs) : x.ops.extractLsb' 208 8 = 0#8 ∧ x.ops.extractLsb' 192 8 = 0#8 ∧ x.ops.extractLsb' 0 32 = 0#32 ∧ x.w1.extractLsb' 0 192 = 0#192 := by
  obtain ⟨dep, pool, src, dst, nb, ses⟩ := x
  simp (disch := omega) only [KvArgs.ops, KvArgs.w1, BitVec.extractLsb'_append_eq_of_add_le, BitVec.extractLsb'_append_eq_of_le,
    Nat.reduceSub, Nat.sub_self, BitVec.extractLsb'_eq_self, and_self]
theorem MmArgs.ops_zero (x : MmArgs) : x.ops.extractLsb' 208 2 = 0#2 ∧ x.ops.extractLsb' 192 6 = 0#6 ∧ x.w1.extractLsb' 0 128 = 0#128 := by
  obtain ⟨acc, mt, nt, kb, asrc, bsrc, abase, bbase, apitch, bpitch, sabase, sbbase⟩ := x
  simp (disch := omega) only [MmArgs.ops, MmArgs.w1, BitVec.extractLsb'_append_eq_of_add_le, BitVec.extractLsb'_append_eq_of_le,
    Nat.reduceSub, Nat.sub_self, BitVec.extractLsb'_eq_self, and_self]

/-- The image of a well-formed command decodes to it in the queue that Table 7 gives it to. -/
theorem decodeTile_of_encodeTile {i : Instr} {c : V512} (hwf : i.wf = true) (h : encodeTile i = some c) :
    decodeTile false c = .ok i ∨ decodeTile true c = .ok i := by
  cases i
  case tnop | tfence | fmtSet | accZero | accRel | sig | twait =>
    cases h
    simp only [Instr.wf, Bool.and_eq_true, decide_eq_true_eq] at hwf
    exact .inl (decodeTile_pack rfl rfl rfl (by simp) (by simp [hwf]) (by simp [hwf]) (by simp))
  case accLoad hd x | accStore hd x =>
    cases h
    simp only [Instr.wf, Bool.and_eq_true, decide_eq_true_eq] at hwf
    exact .inl (decodeTile_pack rfl rfl rfl (by simp [x.ops_zero]) (by simp [hwf]) (by simp [accArgsOf_ops, hwf])
      (by simp [accArgsOf_ops]))
  case mm hd x =>
    cases h
    simp only [Instr.wf, Bool.and_eq_true] at hwf
    obtain ⟨⟨hun, hup⟩, hok⟩ := hwf
    exact .inl (decodeTile_pack rfl rfl rfl (by simp [x.ops_zero, mmArgsOf_ops, hun]) (by simpa [mmArgsOf_ops] using hup)
      (by simpa [mmArgsOf_ops] using hok) (by simp [mmArgsOf_ops]))
  case cpCopy hd x | cpGather hd x | cpScatter hd x | cpFill hd x | cpSpred hd x =>
    cases h
    simp only [Instr.wf, Bool.and_eq_true] at hwf
    obtain ⟨⟨hun, hup⟩, hok⟩ := hwf
    exact .inr (decodeTile_pack rfl rfl rfl (by simp [x.cpZero_ops, cpArgsOf_ops, hun]) (by simpa [cpArgsOf_ops] using hup)
      (by simpa [cpArgsOf_ops] using hok) (by simp [cpArgsOf_ops]))
  case kvImp hd x | kvExp hd x =>
    cases h
    simp only [Instr.wf, Bool.and_eq_true, beq_iff_eq] at hwf
    exact .inr (decodeTile_pack rfl rfl rfl (by simp [x.ops_zero, kvArgsOf_ops, hwf]) (by simp [kvArgsOf_ops, hwf])
      (by simp [kvArgsOf_ops, hwf]) (by simp [kvArgsOf_ops]))
  all_goals cases h

/-- Settles O56: row by row, the bits a row checks and the operands it reads make up the image, and the encoder writes bits that pass
its checks. -/
theorem tileCommandsRoundTrip : Obligations.TileCommandsRoundTrip :=
  ⟨fun _ _ _ h => encodeTile_of_decodeTile h, fun _ _ hwf h => decodeTile_of_encodeTile hwf h⟩
end Sys2Proof
end

section
/-! PROOFS. What every step answers: a next state whose memory is in its canonical form, but for a host access of an address
that does not exist (R313). -/

namespace Sys2Proof.Machine

/-- The outcome is a next state, and its memory is in its canonical form if it was before. -/
def Proceeds (s : State) (o : Host.Outcome State Fault Refusal) : Prop :=
  ∃ t, o = .next t ∧ (s.mem.wf = true → t.mem.wf = true)

/-! ### The shapes of meanings -/

theorem Proceeds.of_mem (s : State) (d : Dev) : Proceeds s (.next ⟨s.mem, d⟩) := ⟨_, rfl, id⟩

/-- What a meaning does in every state, from what it does by whose turn it is. -/
theorem Proceeds.of_cur {f : State → Host.Outcome State Fault Refusal}
    (h : ∀ m (d : Dev) c, Proceeds ⟨m, { d with cur := c }⟩ (f ⟨m, { d with cur := c }⟩)) (s : State) : Proceeds s (f s) :=
  h s.mem s.dev s.dev.cur

theorem Proceeds.of_writes (s : State) (cs : List Host.Cell) (d : Dev) : Proceeds s (.next ⟨s.mem.writeAll cs, d⟩) :=
  ⟨_, rfl, Memory.wf_writeAll s.mem cs⟩

theorem command_proceeds (body : QCtx → Dev) (s : State) : Proceeds s (command body s) := by
  unfold command
  split
  · split
    · exact Proceeds.of_mem s _
    · exact ⟨s, rfl, id⟩
  · exact ⟨s, rfl, id⟩

/-! ### Releases, registers and host accesses -/

theorem writeLine_mem (m : Memory) (d : Dev) (f a : Nat) (data : Line) (mask : LineMask) :
    ∃ cs, (writeLine m d f a data mask).1 = m.writeAll cs := by
  exact ⟨d.logCells m f a ++ maskedCells a data mask, (List.foldl_append ..).symm⟩

theorem wf_writeLines (f : Nat) (ls : List GLine) (m : Memory) (d : Dev) (h : m.wf = true) : (writeLines f ls m d).1.wf = true := by
  induction ls generalizing m d with
  | nil => exact h
  | cons l r ih =>
    obtain ⟨cs, hcs⟩ := writeLine_mem m d f l.pa l.data l.mask
    exact ih _ _ (hcs ▸ Memory.wf_writeAll m cs h)

theorem wf_releaseAt (m : Memory) (d : Dev) (g q : Nat) (h : m.wf = true) : (releaseAt m d g q).1.wf = true := by
  unfold releaseAt
  split
  · exact h
  · dsimp only
    split
    · exact h
    · split
      · exact h
      · exact wf_writeLines _ _ m _ h

theorem execGroupRelease_proceeds (g q : Nat) (s : State) : Proceeds s (execGroupRelease g q s) :=
  ⟨_, rfl, wf_releaseAt s.mem s.dev g q⟩

theorem dbgCmd_proceeds (t : Nat) (v : W64) (s : State) : Proceeds s (dbgCmd t v s) := by
  unfold dbgCmd
  split
  · exact Proceeds.of_mem s _
  · generalize (v.extractLsb' 0 8).toNat = k
    match k with
    | 8 => exact Proceeds.of_writes s _ _
    | 0 | 1 | 2 | 3 | 4 | 5 | 6 | 7 | _ + 9 => exact Proceeds.of_mem s _

theorem execRegisterWrite_proceeds (f off : Nat) (v : W64) (s : State) : Proceeds s (execRegisterWrite f off v s) := by
  unfold execRegisterWrite
  split
  · exact dbgCmd_proceeds _ v s
  · exact Proceeds.of_mem s _

theorem execHostMemRead_proceeds {pa : Nat} (h : isHbm pa = true) (s : State) : Proceeds s (execHostMemRead pa s) := by
  simp only [execHostMemRead, h, if_true]
  exact Proceeds.of_mem s _

theorem execHostMemWrite_proceeds {pa : Nat} (h : isHbm pa = true) (data : Line) (mask : LineMask) (s : State) :
    Proceeds s (execHostMemWrite pa data mask s) := by
  simp only [execHostMemWrite, h, if_true]
  exact Proceeds.of_writes s _ _

/-! ### Every meaning -/

/-- Every instruction, command, event and request proceeds, but for a host access of an address that does not exist. -/
theorem exec_proceeds (i : Instr) (s : State) (h : (Act.req i).named = true) : Proceeds s (exec i s) := by
  cases i
  case nop | br | bc | bany | ball | bnone | call | jr | callr | ret | loop | halt | yield | aadd | asub | amul | amulh |
      amulhu | aand | aor | axor | ashl | ashr | asar | amin | amax | aminu | amaxu | amov | asel | aset | aaddi | ali |
      alih | vadd | vsub | vmul | vmulh | vmin | vmax | vabs | vneg | vand | vor | vxor | vnot | vshl | vshr | vsar |
      vmad | vcmp | kand | kor | kxor | kandn | knot | kmov | kpop | kfirst | kset | vli | vbcast | viota | vperm |
      vrotl | vext | vins | vmov | linkw | linkwArm | vredsum | vredmin | vredmax | vredand | vredor | vredxor | vscan |
      vscanx | vfadd | vfsub | vfmul | vfma | vfms | vfnma | vfmin | vfmax | vfabs | vfneg | vfcmp | vfrcpa | vfrsqa |
      vfexp2a | vflog2a | vfredsum | vfredmin | vfredmax | vfscan | vfscanx | vcvt | vcvtFp8 | vcvtsc | lld | lst | lldx
      | lstx | ald | ast | ltag | stag | lpeek | rgnset | tbld | tbsw | tbrd | gld | gldx | gst | gstx | gpf | ginv |
      lease | sld | sst | release | lstat | amo | fence | commit | isync | bini | barr | bwait | barw | bexp | bphs |
      bclr | odecl | oseal | ocopy | oreopen | ofree | ostat | tqcfg | tqpush | tqpushv | tend | tabort | tqstat |
      mbsend | mbrecv | mbpoll | split | refill | join | lanes | mqpush | cqpush | qstat | kvlook | kvins | kvapp |
      kvfree | kvpos | ldkr | rtab | migr | mfs | mts | spawn | kill | trap | brk | eret | park | wake | plbinv | tlbinv
      | profRd | profClr | profLease =>
    refine Proceeds.of_cur (fun m d c => ?_) s
    cases c <;> exact Proceeds.of_mem _ _
  case tnop | fmtSet | accZero | accLoad | accStore | accRel | mm | sig | twait | tfence | cpCopy | cpGather | cpScatter |
      cpFill | cpSpred | kvImp | kvExp =>
    simp only [exec, execTnop, execFmtSet, execAccZero, execAccLoad, execAccStore, execAccRel, execMm, execSig, execTwait,
      execTfence, execCpCopy, execCpGather, execCpScatter, execCpFill, execCpSpred, execKvImp, execKvExp, rowsForm]
    exact command_proceeds _ s
  case resultLanding | messageArrival | messageRetry | contextSave | birsp | dump | errcnt | errlog | remapget | remapset |
      logset | ctxout | ctxin | poolset | slotCommandArrival =>
    exact Proceeds.of_writes s _ _
  case groupRelease g q => exact execGroupRelease_proceeds g q s
  case registerWrite f off v => exact execRegisterWrite_proceeds f off v s
  case hostMemRead pa => exact execHostMemRead_proceeds h s
  case hostMemWrite pa data mask => exact execHostMemWrite_proceeds h data mask s
  all_goals exact Proceeds.of_mem s _

theorem runEv_proceeds (e : Ev) (s : State) : Proceeds s (runEv e s) := by
  cases e
  case groupRelease g q => exact execGroupRelease_proceeds g q s
  case messageArrival | messageRetry | resultLanding | slotCommandArrival | contextSave => exact Proceeds.of_writes s _ _
  all_goals exact Proceeds.of_mem s _

/-! ### Acts -/

theorem named_of_encode {i : Instr} {w : W64} (h : encode i = some w) : (Act.req i).named = true := by
  cases i
  case hostMemRead | hostMemWrite => cases h
  all_goals rfl

theorem named_of_encodeTile {i : Instr} {w : V512} (h : encodeTile i = some w) : (Act.req i).named = true := by
  cases i
  case hostMemRead | hostMemWrite => cases h
  all_goals rfl

/-- A plan runs an instruction that is no host access of an address that does not exist. -/
def Plan.named (p : Plan) : Prop := ∀ d i, p = .run d i → (Act.req i).named = true

theorem Plan.named.stay (d : Dev) : (Plan.stay d).named := fun _ _ h => nomatch h
theorem Plan.named.run (d : Dev) {i : Instr} (h : (Act.req i).named = true) : (Plan.run d i).named := fun _ _ hp => by
  cases hp
  exact h
theorem Plan.named.ite {c : Prop} [Decidable c] {p q : Plan} (hp : p.named) (hq : q.named) : (if c then p else q).named := by
  split
  · exact hp
  · exact hq

theorem runPlan_proceeds {p : Plan} (h : p.named) (s : State) : Proceeds s (runPlan s.mem p) := by
  cases p with
  | stay d => exact Proceeds.of_mem s d
  | run d i => exact exec_proceeds i ⟨s.mem, d⟩ (h d i rfl)

theorem Dev.present_named (m : Memory) (d : Dev) (h n : Nat) : (d.present m h n).named := by
  intro e i hp
  unfold Dev.present at hp
  split at hp
  case h_4 w _ _ =>
    split at hp
    · next j hj =>
      cases hp
      exact named_of_encode (encode_of_decode hj).2
    · cases hp
  all_goals cases hp

theorem Dev.turn_named (m : Memory) (d : Dev) (h : Nat) : (d.turn m h).named := by
  unfold Dev.turn
  dsimp only
  split
  · exact Plan.named.stay _
  · exact .ite (.stay _) <| .ite (.stay _) <| .ite (.stay _) <| .ite (.stay _) <| .ite (.run _ rfl) <|
      .ite (.ite (Dev.present_named _ _ _ _) (.stay _)) (Dev.present_named _ _ _ _)

theorem Dev.queuePlan_named (d : Dev) (h : Nat) (cq : Bool) : (d.queuePlan h cq).named := by
  intro e i hp
  unfold Dev.queuePlan at hp
  split at hp
  · cases hp
  · dsimp only at hp
    split at hp
    · cases hp
    · split at hp
      · cases hp
        rfl
      · split at hp
        · cases hp
        · next j hj =>
          cases hp
          exact named_of_encodeTile (encodeTile_of_decodeTile hj).2

theorem Dev.courtStep_named (d : Dev) (c : Nat) : (d.courtStep c).named := by
  unfold Dev.courtStep
  dsimp only
  split
  · exact Plan.named.stay _
  · split
    · exact Dev.queuePlan_named _ _ _
    · exact Plan.named.stay _

theorem Dev.copyStep_named (d : Dev) (h : Nat) : (d.copyStep h).named := by
  unfold Dev.copyStep
  dsimp only
  split
  · exact Dev.queuePlan_named _ _ _
  · exact Plan.named.stay _

theorem runAct_proceeds (a : Act) (s : State) (h : a.named = true) : Proceeds s (runAct a s) := by
  cases a with
  | turn c => exact runPlan_proceeds (s.dev.turn_named s.mem c) s
  | court c => exact runPlan_proceeds (s.dev.courtStep_named c) s
  | copy c => exact runPlan_proceeds (s.dev.copyStep_named c) s
  | ev e => exact runEv_proceeds e s
  | req i => exact exec_proceeds i s h

/-- A step whose act names no address that does not exist proceeds. -/
theorem step_proceeds (s : State) (h : s.named = true) : Proceeds s (step s) := by
  unfold step
  unfold State.named at h
  split
  · exact Proceeds.of_mem s _
  · next a rest ha =>
    rw [ha] at h
    exact runAct_proceeds a ⟨s.mem, _⟩ h

/-- An act that is not named is a host access of an address that is no device memory, and faults. -/
theorem runAct_of_unnamed {a : Act} (s : State) (h : a.named = false) :
    ∃ pa, runAct a s = .fault (.noSuchAddress pa) ∧ isHbm pa = false := by
  unfold Act.named at h
  split at h
  case h_1 pa => exact ⟨pa, by simp [runAct, exec, execHostMemRead, h], h⟩
  case h_2 pa _ _ => exact ⟨pa, by simp [runAct, exec, execHostMemWrite, h], h⟩
  case h_3 => cases h

theorem step_of_unnamed (s : State) (h : s.named = false) : ∃ pa, step s = .fault (.noSuchAddress pa) ∧ isHbm pa = false := by
  unfold State.named at h
  split at h
  · cases h
  · next a rest ha =>
    unfold step
    rw [ha]
    exact runAct_of_unnamed _ h

/-- Settles O60: a step goes on, or is the fault of a host access. -/
theorem everyStepGoesOn : Obligations.EveryStepGoesOn := by
  intro s
  refine ⟨fun h => ?_, step_of_unnamed s, fun x hx => ?_⟩
  · obtain ⟨t, ht, -⟩ := step_proceeds s h
    exact ⟨t, ht⟩
  · cases hn : s.named with
    | true =>
      obtain ⟨t, ht, -⟩ := step_proceeds s hn
      cases ht.symm.trans hx
    | false =>
      obtain ⟨pa, hpa, -⟩ := step_of_unnamed s hn
      cases hpa.symm.trans hx

/-- Settles O59: a step that answers a next state is no host access that faults, and only lists of cells are written. -/
theorem everyStepKeepsMemoryCanonical : Obligations.EveryStepKeepsMemoryCanonical := by
  intro s t hwf hst
  cases hn : s.named with
  | true =>
    obtain ⟨t', ht, hmem⟩ := step_proceeds s hn
    cases ht.symm.trans hst
    exact hmem hwf
  | false =>
    obtain ⟨pa, hpa, -⟩ := step_of_unnamed s hn
    cases hpa.symm.trans hst

end Sys2Proof.Machine
end

section
/-! PROOFS. How a thread instruction ends: what follows for the outcome from what its body answers (R63, R64). -/

namespace Sys2Proof.Machine

/-- The context of an instruction that may issue: the slot is the one that the device holds, and no STEP is pending. -/
structure Ctx.Ready (c : Ctx) : Prop where
  own : c.d.slot c.h c.n = c.s
  step : c.s.stepReq = false

theorem State.issues.ready {s : State} {h n : Nat} {w : W64} {u : Use} (hi : s.issues h n w u) : (s.ctx h n w).Ready := ⟨rfl, hi.step⟩

/-! ### The end of an issue -/

/-- The end of an issue changes nothing but cores. -/
theorem Ctx.finish_eq (c : Ctx) (u : Use) (d : Dev) (next : W64) : ∃ cs, c.finish u d next = { d with cores := cs } := by
  unfold Ctx.finish
  dsimp only
  split <;> split <;> exact ⟨_, rfl⟩

@[simp] theorem Ctx.finish_net (c : Ctx) (u : Use) (d : Dev) (next : W64) : (c.finish u d next).net = d.net := by
  obtain ⟨cs, h⟩ := c.finish_eq u d next
  rw [h]
@[simp] theorem Ctx.finish_groups (c : Ctx) (u : Use) (d : Dev) (next : W64) : (c.finish u d next).groups = d.groups := by
  obtain ⟨cs, h⟩ := c.finish_eq u d next
  rw [h]
@[simp] theorem Ctx.finish_still (c : Ctx) (u : Use) (d : Dev) (next : W64) : (c.finish u d next).still = d.still := by
  obtain ⟨cs, h⟩ := c.finish_eq u d next
  rw [h]
  rfl
@[simp] theorem Ctx.finish_calm (c : Ctx) (u : Use) (d : Dev) (next : W64) : (c.finish u d next).calm = d.calm := by
  obtain ⟨cs, h⟩ := c.finish_eq u d next
  rw [h]
  rfl

/-- From the context's device to d nothing changed but the context's slot, which is x in d. -/
structure Ctx.Only (c : Ctx) (d : Dev) (x : Slot) : Prop where
  slot : d.slot c.h c.n = x
  slots : ∀ h n, ¬(h = c.h ∧ n = c.n) → d.slot h n = c.d.slot h n
  cores : ∀ k, (d.core k).bare = (c.d.core k).bare
  dev : d.bare = c.d.bare

theorem Ctx.Only.refl {c : Ctx} (hc : c.Ready) : c.Only c.d c.s := ⟨hc.own, fun _ _ _ => rfl, fun _ => rfl, rfl⟩

theorem Ctx.Only.setSlot (c : Ctx) (x : Slot) : c.Only (c.d.setSlot c.h c.n x) x :=
  ⟨Dev.slot_setSlot_self _ _ _ _, fun _ _ h => Dev.slot_setSlot_ne _ _ _ _ _ _ h, fun _ => Dev.core_updSlot_bare _ _ _ _ _, rfl⟩

/-! ### Messages -/

theorem Dev.sends_send (d : Dev) (chan : Nat) (e : Ev) : d.sends (d.send chan e) e := by
  refine ⟨_, chan, ?_, rfl⟩
  split <;> omega

theorem Dev.sendsAfter_later (d : Dev) (cycles : Nat) (e : Ev) : d.sendsAfter (d.later cycles e) cycles e := rfl

/-! ### Outcomes from bodies -/

/-- An instruction whose body changes its own slot alone, and ends its issue there, completes. -/
theorem completesWhen_of {i : Instr} {u : Use} {body : Ctx → Res} {pre : Ctx → Prop} {as vs ks : List Nat} {post : Ctx → Slot → Prop}
    (he : ∀ s, exec i s = thread u body s)
    (hb : ∀ c : Ctx, c.Ready → pre c → ∃ d x next, c.settle u (body c) = c.finish u d next ∧ c.Only d x ∧
      KeptRegs c.s x as vs ks ∧ post c (x.issued c.s.pc next u)) : CompletesWhen i u pre as vs ks post := by
  intro s h n w hi hpre
  obtain ⟨d, x, next, hend, honly, hkept, hpost⟩ := hb (s.ctx h n w) hi.ready hpre
  have hself := (Ctx.finish_slot (s.ctx h n w) u d next hi.step).trans (congrArg (Slot.issued · _ next u) honly.slot)
  refine ⟨⟨s.mem, (s.ctx h n w).finish u d next⟩, ?_, ⟨fun _ => rfl, fun h' n' hne => ?_, fun k => ?_, ?_⟩, ?_, ?_⟩
  · rw [he, thread_issues u body s h n w hi, hend]
  · exact (Ctx.finish_slot_ne (s.ctx h n w) u d next hi.step h' n' hne).trans (honly.slots h' n' hne)
  · exact (Ctx.finish_core_bare (s.ctx h n w) u d next hi.step k).trans (honly.cores k)
  · exact (Ctx.finish_bare (s.ctx h n w) u d next hi.step).trans honly.dev
  · exact hself ▸ hkept.issued _ _ u
  · exact hself ▸ hpost

theorem completesBut_of {i : Instr} {u : Use} {as vs ks : List Nat} {post : Slot → Slot → Prop}
    (h : CompletesWhen i u (fun _ => True) as vs ks (fun c b => post c.s b)) : CompletesBut i u as vs ks post :=
  fun s h' n w hi => h s h' n w hi trivial

/-- An instruction whose body raises a trap traps. -/
theorem trapsWhen_of {i : Instr} {u : Use} {body : Ctx → Res} {pre : Ctx → Prop} {cause : Nat} {sub : Ctx → Nat} {addr : Ctx → W64}
    (he : ∀ s, exec i s = thread u body s)
    (hb : ∀ c : Ctx, c.Ready → pre c → ∃ lanes, body c = .trap c.d ⟨cause, sub c, addr c, lanes⟩) : TrapsWhen i u pre cause sub addr := by
  intro s h n w hi hpre
  obtain ⟨lanes, hbody⟩ := hb (s.ctx h n w) hi.ready hpre
  refine ⟨lanes, ?_⟩
  rw [he, thread_issues u body s h n w hi, hbody]
  rfl

/-- Slot b has the registers of a, but for those named. -/
structure KeptFiles (a b : Slot) (as vs ks : List Nat) : Prop where
  aregs : ∀ j, j ∉ as → b.A j = a.A j
  vregs : ∀ j, j ∉ vs → b.V j = a.V j
  kregs : ∀ j, j ∉ ks → b.K j = a.K j

/-- A change of a slot outside its register files. -/
theorem KeptFiles.of_files {a b : Slot} (ha : b.aregs = a.aregs) (hv : b.vregs = a.vregs) (hk : b.kregs = a.kregs) :
    KeptFiles a b [] [] [] :=
  ⟨fun _ _ => by rw [Slot.A, ha, Slot.A], fun _ _ => by rw [Slot.V, hv, Slot.V], fun _ _ => by rw [Slot.K, hk, Slot.K]⟩

theorem KeptFiles.refl (a : Slot) : KeptFiles a a [] [] [] := .of_files rfl rfl rfl

/-- An instruction whose body changes the device, and keeps registers of its slot but for those named, acts. -/
theorem acts_of {i : Instr} {u : Use} {body : Ctx → Res} {pre : Ctx → Prop} {as vs ks : List Nat} {post : Ctx → Dev → Prop}
    (he : ∀ s, exec i s = thread u body s)
    (hb : ∀ c : Ctx, c.Ready → pre c → ∃ d, body c = .done d ∧ KeptFiles c.s (d.slot c.h c.n) as vs ks ∧
      post c (c.finish u d (c.s.pc + 8#64))) : Acts i u pre as vs ks post := by
  intro s h n w hi hpre
  obtain ⟨d, hbody, ⟨ha, hv, hk⟩, hpost⟩ := hb (s.ctx h n w) hi.ready hpre
  have hself : ((s.ctx h n w).finish u d ((s.dev.slot h n).pc + 8#64)).slot h n = _ := Ctx.finish_slot (s.ctx h n w) u d _ hi.step
  refine ⟨_, exec_of_body_done (he s) hi hbody, fun _ => rfl, congrArg Slot.pc hself, fun j hj => ?_, fun j hj => ?_, fun j hj => ?_, hpost⟩
  · exact (congrArg (Slot.A · j) hself).trans (ha j hj)
  · exact (congrArg (Slot.V · j) hself).trans (hv j hj)
  · exact (congrArg (Slot.K · j) hself).trans (hk j hj)

/-- An instruction whose body waits, and has kept its slot's registers and PC, waits. -/
theorem waitsWhen_of {i : Instr} {u : Use} {body : Ctx → Res} {pre : Ctx → Prop} {wt : Ctx → WaitFor}
    (he : ∀ s, exec i s = thread u body s)
    (hb : ∀ c : Ctx, c.Ready → pre c → ∃ d, body c = .wait d (wt c) ∧ (d.slot c.h c.n).pc = c.s.pc ∧
      KeptFiles c.s (d.slot c.h c.n) [] [] []) :
    WaitsWhen i u pre wt := by
  intro s h n w hi hpre
  obtain ⟨d, hbody, hpc, ha, hv, hk⟩ := hb (s.ctx h n w) hi.ready hpre
  refine ⟨⟨s.mem, d.updSlot h n (fun x => { x with st := .waiting (wt (s.ctx h n w)), readyAt := d.clock })⟩, ?_, fun _ => rfl, ?_⟩
  · rw [he, thread_issues u body s h n w hi, hbody]
    rfl
  · simp only [Dev.slot_updSlot_self]
    exact ⟨trivial, hpc, fun j => ha j List.not_mem_nil, fun j => hv j List.not_mem_nil, fun j => hk j List.not_mem_nil⟩

end Sys2Proof.Machine
end

section
/-! PROOFS. Address arithmetic (R79, R80), transfers of control (R72 to R75) and the constant registers (R31). -/

namespace Sys2Proof.Machine

/-! ### The operations of R79 on integers -/

theorem opAadd_eq (x y : W64) : opAadd x y = BitVec.ofNat 64 (x.toNat + y.toNat) := by
  simp [opAadd, BitVec.ofNat_add]

theorem opAsub_eq (x y : W64) : opAsub x y = BitVec.ofInt 64 (x.toInt - y.toInt) := by
  apply BitVec.eq_of_toInt_eq
  rw [opAsub, BitVec.toInt_sub, BitVec.toInt_ofInt]
theorem opAmul_eq (x y : W64) : opAmul x y = BitVec.ofNat 64 (x.toNat * y.toNat) := by
  simp [opAmul, BitVec.ofNat_mul]
/-- The high half of a word that holds an exact integer. -/
theorem extract_high_ofInt (w : Nat) (t : Int) : (BitVec.ofInt (w + w) t).extractLsb' w w = BitVec.ofInt w (t / 2 ^ w) := by
  apply BitVec.eq_of_toNat_eq
  have hpos : (0 : Int) < 2 ^ w := by positivity
  have hmod : t % (2 ^ w * 2 ^ w) / 2 ^ w = t / 2 ^ w % 2 ^ w := by
    rw [Int.emod_def, Int.emod_def, Int.ediv_ediv_of_nonneg hpos.le, mul_assoc, Int.sub_mul_ediv_left _ _ hpos.ne']
  have hnn : 0 ≤ t % (2 ^ w * 2 ^ w) := Int.emod_nonneg _ (mul_pos hpos hpos).ne'
  have hnn' : 0 ≤ t / 2 ^ w % 2 ^ w := Int.emod_nonneg _ hpos.ne'
  zify
  rw [BitVec.extractLsb'_toNat, BitVec.toNat_ofInt, BitVec.toNat_ofInt, Nat.shiftRight_eq_div_pow]
  push_cast
  rw [pow_add, Int.toNat_of_nonneg hnn, hmod, Int.emod_emod, Int.toNat_of_nonneg hnn']
theorem opAmulh_eq (x y : W64) : opAmulh x y = BitVec.ofInt 64 (x.toInt * y.toInt / 2 ^ 64) := by
  rw [← extract_high_ofInt 64, BitVec.ofInt_mul]
  rfl
theorem opAmulhu_eq (x y : W64) : opAmulhu x y = BitVec.ofNat 64 (x.toNat * y.toNat / 2 ^ 64) := by
  apply BitVec.eq_of_toNat_eq
  have h : x.toNat * y.toNat < 2 ^ 128 := Nat.mul_lt_mul'' (c := 2 ^ 64) (d := 2 ^ 64) x.isLt y.isLt
  simp [opAmulhu, Nat.shiftRight_eq_div_pow, Nat.mod_eq_of_lt (b := 340282366920938463463374607431768211456) h]
theorem opAshl_eq (x y : W64) : opAshl x y = BitVec.ofNat 64 (x.toNat * 2 ^ (y.toNat % 64)) := by
  apply BitVec.eq_of_toNat_eq
  simp [opAshl, cnt6, Nat.shiftLeft_eq]
theorem opAshr_eq (x y : W64) : opAshr x y = BitVec.ofNat 64 (x.toNat / 2 ^ (y.toNat % 64)) := by
  apply BitVec.eq_of_toNat_eq
  rw [opAshr, BitVec.toNat_ushiftRight, Nat.shiftRight_eq_div_pow, BitVec.toNat_ofNat, Nat.mod_eq_of_lt]
  · rfl
  · exact (Nat.div_le_self ..).trans_lt x.isLt
theorem opAsar_eq (x y : W64) : opAsar x y = BitVec.ofInt 64 (x.toInt / 2 ^ (y.toNat % 64)) := by
  rw [opAsar, BitVec.sshiftRight, Int.shiftRight_eq_div_pow]
  rfl
theorem opAmin_eq (x y : W64) : opAmin x y = BitVec.ofInt 64 (min x.toInt y.toInt) := by
  unfold opAmin
  rw [Int.min_def]
  split <;> rw [BitVec.ofInt_toInt]
theorem opAmax_eq (x y : W64) : opAmax x y = BitVec.ofInt 64 (max x.toInt y.toInt) := by
  unfold opAmax
  rw [max_comm, Int.max_def]
  split <;> rw [BitVec.ofInt_toInt]
theorem opAminu_eq (x y : W64) : opAminu x y = BitVec.ofNat 64 (min x.toNat y.toNat) := by
  unfold opAminu
  rw [Nat.min_def]
  split <;> rw [BitVec.ofNat_toNat, BitVec.setWidth_eq]
theorem opAmaxu_eq (x y : W64) : opAmaxu x y = BitVec.ofNat 64 (max x.toNat y.toNat) := by
  unfold opAmaxu
  rw [max_comm, Nat.max_def]
  split <;> rw [BitVec.ofNat_toNat, BitVec.setWidth_eq]
theorem opAlih_eq (imm : W32) (x : W64) : opAlih imm x = BitVec.ofNat 64 (imm.toNat * 2 ^ 32 + x.toNat % 2 ^ 32) := by
  apply BitVec.eq_of_toNat_eq
  have hlow : (x &&& 0xFFFFFFFF#64).toNat = x.toNat % 2 ^ 32 := Nat.and_two_pow_sub_one_eq_mod x.toNat 32
  have hhigh : (imm.setWidth 64 <<< 32).toNat = imm.toNat <<< 32 := by simp [Nat.shiftLeft_eq]; omega
  have hx : x.toNat % 2 ^ 32 < 2 ^ 32 := Nat.mod_lt _ (by decide)
  have himm : imm.toNat < 2 ^ 32 := imm.isLt
  rw [opAlih, BitVec.toNat_or, hlow, hhigh, ← Nat.shiftLeft_add_eq_or_of_lt hx, Nat.shiftLeft_eq, BitVec.toNat_ofNat, Nat.mod_eq_of_lt (b := 2 ^ 64)]
  generalize x.toNat % 2 ^ 32 = y at hx
  omega

theorem extImm_eq (u : Bool) (imm : W32) : extImm u imm = BitVec.ofInt 64 (if u then (imm.toNat : Int) else imm.toInt) := by
  cases u
  · rfl
  · simp [extImm, BitVec.ofInt_natCast]

theorem add_extImm (u : Bool) (x : W64) (imm : W32) :
    x + extImm u imm = BitVec.ofInt 64 (x.toInt + if u then (imm.toNat : Int) else imm.toInt) := by
  rw [extImm_eq, BitVec.ofInt_add, BitVec.ofInt_toInt]

/-! ### Forms that write an a-register -/

theorem aForm_writesA {i : Instr} {d a b : AReg} {val : Slot → W64}
    (f : W64 → W64 → W64) (he : ∀ s, exec i s = aForm d a b f s) (hv : ∀ s : Slot, f (s.A a.toNat) (s.A b.toNat) = val s) :
    WritesA i (useA [wa d, ra a, ra b]) d val := by
  obtain rfl : (fun s : Slot => f (s.A a.toNat) (s.A b.toNat)) = val := funext hv
  exact writesA_of _ _ _ _ he

theorem iForm_writesA {i : Instr} {d a : AReg} {val : Slot → W64}
    (f : W64 → W64) (he : ∀ s, exec i s = iForm d a f s) (hv : ∀ s : Slot, f (s.A a.toNat) = val s) : WritesA i (useA [wa d, ra a]) d val := by
  obtain rfl : (fun s : Slot => f (s.A a.toNat)) = val := funext hv
  exact writesA_of _ _ _ _ he

/-- Settles O1, form by form: each is `aForm` or `iForm` of an operation that the lemmas above give on integers. -/
theorem addressArithmetic : Obligations.AddressArithmetic := by
  intro d a b c imm cc u
  refine ⟨aForm_writesA opAadd (fun _ => rfl) (fun _ => opAadd_eq _ _),
    aForm_writesA opAsub (fun _ => rfl) (fun _ => opAsub_eq _ _),
    aForm_writesA opAmul (fun _ => rfl) (fun _ => opAmul_eq _ _),
    aForm_writesA opAmulh (fun _ => rfl) (fun _ => opAmulh_eq _ _),
    aForm_writesA opAmulhu (fun _ => rfl) (fun _ => opAmulhu_eq _ _),
    aForm_writesA (· &&& ·) (fun _ => rfl) (fun _ => rfl),
    aForm_writesA (· ||| ·) (fun _ => rfl) (fun _ => rfl),
    aForm_writesA (· ^^^ ·) (fun _ => rfl) (fun _ => rfl),
    aForm_writesA opAshl (fun _ => rfl) (fun _ => opAshl_eq _ _),
    aForm_writesA opAshr (fun _ => rfl) (fun _ => opAshr_eq _ _),
    aForm_writesA opAsar (fun _ => rfl) (fun _ => opAsar_eq _ _),
    aForm_writesA opAmin (fun _ => rfl) (fun _ => opAmin_eq _ _),
    aForm_writesA opAmax (fun _ => rfl) (fun _ => opAmax_eq _ _),
    aForm_writesA opAminu (fun _ => rfl) (fun _ => opAminu_eq _ _),
    aForm_writesA opAmaxu (fun _ => rfl) (fun _ => opAmaxu_eq _ _),
    iForm_writesA id (fun _ => rfl) (fun _ => rfl),
    ?asel,
    aForm_writesA (fun x y => if cond cc x y then 1#64 else 0#64) (fun _ => rfl) (fun _ => rfl),
    iForm_writesA (· + extImm u imm) (fun _ => rfl) (fun _ => add_extImm u _ imm),
    ?ali,
    iForm_writesA (opAlih imm) (fun _ => rfl) (fun _ => opAlih_eq imm _)⟩
  case asel => exact writesA_of _ _ _ _ (fun _ => by simp only [exec, execAsel, bne_iff_ne])
  case ali => exact writesA_of _ _ _ _ (fun _ => by simp only [exec, execAli, extImm_eq])

/-- Settles O4, from the laws of the register files. -/
theorem hardWiredRegisters : Obligations.HardWiredRegisters := by
  intro s v m
  refine ⟨s.A_zero, s.K_zero, rfl, rfl, fun n hn => ⟨?_, fun j hj => s.A_setA_ne n j v hj⟩, fun n hn => ⟨?_, fun j hj => s.K_setK_ne n j m hj⟩⟩
  · simp [Slot.setA, Slot.A, hn]
  · simp [Slot.setK, Slot.K, hn]

/-! ### Transfers -/

theorem branchTarget_eq (pc : W64) (off : W32) : branchTarget pc off = BitVec.ofInt 64 (pc.toInt + 8 * off.toInt) := by
  have h : off.signExtend 64 <<< 3 = BitVec.ofInt 64 (8 * off.toInt) := by
    rw [BitVec.shiftLeft_eq_mul_twoPow, BitVec.ofInt_mul, BitVec.mul_comm]
    rfl
  rw [branchTarget, h, BitVec.ofInt_add, BitVec.ofInt_toInt]

/-- A branch goes to its target where its condition holds, and else on. -/
theorem branchIf_goesTo {i : Instr} {u : Use} {cnd : Slot → Bool} {off : W32} {target : Slot → W64}
    (he : ∀ s, exec i s = branchIf u cnd off s)
    (ht : ∀ s : Slot, target s = if cnd s then BitVec.ofInt 64 (s.pc.toInt + 8 * off.toInt) else s.pc + 8#64) : GoesTo i u target := by
  refine completesBut_of (completesWhen_of he (fun c hc _ =>
    ⟨c.d, c.s, target c.s, ?_, Ctx.Only.refl hc, KeptRegs.refl c.s, rfl⟩))
  rw [ht, ← branchTarget_eq]
  split <;> rfl

/-- A write of one a-register keeps every other register. -/
theorem KeptRegs.setA (s : Slot) (j : Nat) (v : W64) : KeptRegs s (s.setA j v) [j] [] [] :=
  ⟨fun _ hm => Slot.A_setA_ne _ _ _ _ (by simpa using hm), fun _ _ => by simp, fun _ _ => by simp, by simp, by simp⟩

theorem call_completes (off : W32) : CompletesBut (.call off) (useA [wa 15#4]) [15] [] []
    (fun a b => b.A 15 = a.pc + 8#64 ∧ b.pc = BitVec.ofInt 64 (a.pc.toInt + 8 * off.toInt)) :=
  completesBut_of (completesWhen_of (fun _ => by unfold exec execCall; rfl) (fun c _ _ => ⟨_, _, _, by rfl, Ctx.Only.setSlot c _,
    KeptRegs.setA _ _ _, Slot.A_setA_self _ 15#4 _, branchTarget_eq _ _⟩))

theorem loop_completes {a : AReg} (ha : a ≠ 0#4) (off : W32) : CompletesBut (.loop a off) (useA [wa a, ra a]) [a.toNat] [] []
    (fun s t => t.A a.toNat = s.A a.toNat - 1#64 ∧
      t.pc = if s.A a.toNat = 1#64 then s.pc + 8#64 else BitVec.ofInt 64 (s.pc.toInt + 8 * off.toInt)) := by
  refine completesBut_of (completesWhen_of (fun _ => by unfold exec execLoop; rfl) (fun c _ _ => ?_))
  refine ⟨_, c.s.setA a.toNat (c.s.A a.toNat - 1#64),
    if c.s.A a.toNat = 1#64 then c.s.pc + 8#64 else BitVec.ofInt 64 (c.s.pc.toInt + 8 * off.toInt),
    ?_, Ctx.Only.setSlot c _, KeptRegs.setA _ _ _, (Slot.A_setA_self _ a _).trans (if_neg ha), rfl⟩
  have h1 : c.s.A a.toNat - 1#64 = 0#64 ↔ c.s.A a.toNat = 1#64 := by
    rw [BitVec.sub_eq_iff_eq_add, BitVec.zero_add]
  simp only [h1, ← branchTarget_eq]
  split <;> rfl

theorem aligned8_iff (t : W64) : (t.extractLsb' 0 3 != 0#3) = false ↔ t.toNat % 8 = 0 := by
  rw [bne_eq_false_iff_eq, ← BitVec.toNat_inj]
  simp

/-- The body of a transfer to a register's address, where that is a multiple of 8. -/
theorem settle_jump_of_aligned {c : Ctx} {t : W64} (u : Use) (d : Dev) (x : Res) (ht : t.toNat % 8 = 0) :
    c.settle u (if t.extractLsb' 0 3 != 0#3 then x else .jump d t) = c.finish u d t :=
  congrArg (c.settle u) (if_neg (by rw [(aligned8_iff t).mpr ht]; decide))

theorem jumpTo_completes {i : Instr} {u : Use} {r : Nat} (he : ∀ s, exec i s = jumpTo u r false s) :
    CompletesWhen i u (fun c => (c.s.A r).toNat % 8 = 0) [] [] [] (fun c b => b.pc = c.s.A r) :=
  completesWhen_of he (fun c hc hok => ⟨c.d, c.s, _, settle_jump_of_aligned u _ _ hok, Ctx.Only.refl hc, KeptRegs.refl c.s, rfl⟩)

theorem jumpTo_links {i : Instr} {u : Use} {r : Nat} (he : ∀ s, exec i s = jumpTo u r true s) :
    CompletesWhen i u (fun c => (c.s.A r).toNat % 8 = 0) [15] [] [] (fun c b => b.A 15 = c.s.pc + 8#64 ∧ b.pc = c.s.A r) :=
  completesWhen_of he (fun c _ hok => ⟨_, _, _, settle_jump_of_aligned u _ _ hok, Ctx.Only.setSlot c _, KeptRegs.setA _ _ _,
    Slot.A_setA_self _ 15#4 _, rfl⟩)

theorem jumpTo_traps {i : Instr} {u : Use} {r : Nat} {link : Bool} (he : ∀ s, exec i s = jumpTo u r link s) :
    TrapsWhen i u (fun c => (c.s.A r).toNat % 8 ≠ 0) 0x05 (fun _ => 0) (fun c => c.s.A r) :=
  trapsWhen_of he (fun c _ hbad => ⟨_, if_pos (by simpa [← aligned8_iff] using hbad)⟩)

/-- Settles O2: branches by `branchIf`, jumps by `jumpTo`, and call and loop by the slot they leave. -/
theorem controlTransfers : Obligations.ControlTransfers := by
  refine ⟨fun aa ab k off cc => ⟨nop_goesTo_next, branchIf_goesTo (cnd := fun _ => true) (fun _ => rfl) (fun _ => rfl),
      branchIf_goesTo (cnd := fun s => cond cc (s.A aa.toNat) (s.A ab.toNat)) (fun _ => rfl) (fun _ => rfl),
      branchIf_goesTo (cnd := fun s => s.K k.toNat != 0#16) (fun _ => rfl) (fun _ => by simp),
      branchIf_goesTo (cnd := fun s => s.K k.toNat == 0xFFFF#16) (fun _ => rfl) (fun _ => by simp),
      branchIf_goesTo (cnd := fun s => s.K k.toNat == 0#16) (fun _ => rfl) (fun _ => by simp),
      call_completes off, fun ha => loop_completes ha off⟩,
    fun a => ⟨jumpTo_completes (fun _ => rfl), jumpTo_links (fun _ => rfl), jumpTo_completes (fun _ => rfl)⟩,
    fun a => ⟨jumpTo_traps (link := false) (fun _ => rfl), jumpTo_traps (link := true) (fun _ => rfl),
      jumpTo_traps (link := false) (fun _ => rfl)⟩⟩

end Sys2Proof.Machine
end

section
/-! PROOFS. Lane forms: integer forms, compares and masks, moves, reductions and scans, floating forms (R17, R40, R95 to R99, R105 to
R109). -/

namespace Sys2Proof.Machine

/-! ### Integer results (R17, R40) -/

/-- Settles O5: wrapping is the residue, and clamping is the nearest value of the type. -/
theorem integerReduction : Obligations.IntegerReduction := by
  intro t
  refine ⟨fun ty => ?_, ?_, ?_⟩
  · simp [outInt, wrap32]
    omega
  · rw [outInt, if_pos rfl, sat32, BitVec.toInt_ofInt, Int.bmod_eq_of_le] <;> omega
  · simp [outInt, satU32]
    omega

/-! ### Forms that write the active lanes of a vector register -/

/-- Only lanes 0 to 15 are written. -/
theorem WritesV.congr {i : Instr} {u : Use} {km : KReg} {kz : Bool} {d : VReg} {f val : Slot → Nat → W32}
    (h : WritesV i u km kz d f) (hv : ∀ (s : Slot) (l : Nat), l < 16 → f s l = val s l) : WritesV i u km kz d val := by
  intro s hc n w hi
  obtain ⟨t, ht, honly, hkept, hpc, hlanes⟩ := h s hc n w hi
  exact ⟨t, ht, honly, hkept, hpc, fun l hl => (hlanes l hl).trans (by rw [hv _ l hl])⟩

theorem vBits_writesV {i : Instr} {km : KReg} {kz : Bool} {d a b : VReg} {val : Slot → Nat → W32} (op : W32 → W32 → W32)
    (he : ∀ s, exec i s = vBits km kz d a b op s) (hv : ∀ (s : Slot) (l : Nat), op (s.ln a l) (s.ln b l) = val s l) :
    WritesV i (useDAB km kz d a b) km kz d val :=
  (writesV_of i _ km kz d (fun s l => op (s.ln a l) (s.ln b l)) he).congr (fun s l _ => hv s l)

theorem inInt_injective (ty : IType) {x y : W32} (h : inInt ty x = inInt ty y) : x = y := by
  cases ty
  · exact BitVec.eq_of_toInt_eq h
  · exact BitVec.eq_of_toNat_eq (Int.ofNat.inj h)

theorem ofInt_inInt (ty : IType) (x : W32) : BitVec.ofInt 32 (inInt ty x) = x := by
  cases ty
  · exact BitVec.ofInt_toInt
  · exact (BitVec.ofInt_natCast ..).trans ((BitVec.ofNat_toNat ..).trans (BitVec.setWidth_eq x))

theorem opVmin_eq (ty : IType) (x y : W32) : opVmin ty x y = BitVec.ofInt 32 (min (inInt ty x) (inInt ty y)) := by
  unfold opVmin
  rw [Int.min_def]
  split <;> rw [ofInt_inInt]

theorem opVmax_eq (ty : IType) (x y : W32) : opVmax ty x y = BitVec.ofInt 32 (max (inInt ty x) (inInt ty y)) := by
  unfold opVmax
  rw [max_comm, Int.max_def]
  split <;> rw [ofInt_inInt]

theorem shl_cnt5 (x y : W32) : x <<< cnt5 y = BitVec.ofNat 32 (x.toNat * 2 ^ (y.toNat % 32)) := by
  apply BitVec.eq_of_toNat_eq
  simp [cnt5, Nat.shiftLeft_eq]

theorem shr_cnt5 (x y : W32) : x >>> cnt5 y = BitVec.ofNat 32 (x.toNat / 2 ^ (y.toNat % 32)) := by
  apply BitVec.eq_of_toNat_eq
  rw [BitVec.toNat_ushiftRight, Nat.shiftRight_eq_div_pow, BitVec.toNat_ofNat, Nat.mod_eq_of_lt]
  · rfl
  · exact (Nat.div_le_self ..).trans_lt x.isLt

theorem sar_cnt5 (x y : W32) : x.sshiftRight (cnt5 y) = BitVec.ofInt 32 (x.toInt / 2 ^ (y.toNat % 32)) := by
  rw [BitVec.sshiftRight, Int.shiftRight_eq_div_pow]
  rfl

/-- Settles O6, form by form. -/
theorem vectorIntegerForms : Obligations.VectorIntegerForms := by
  intro ty km kz d a b c
  refine ⟨writesV_of _ _ _ _ _ _ (fun _ => rfl), writesV_of _ _ _ _ _ _ (fun _ => rfl), writesV_of _ _ _ _ _ _ (fun _ => rfl),
    writesV_of _ _ _ _ _ _ (fun _ => rfl), vBits_writesV (opVmin ty) (fun _ => rfl) (fun _ _ => opVmin_eq _ _ _),
    vBits_writesV (opVmax ty) (fun _ => rfl) (fun _ _ => opVmax_eq _ _ _), ?vabs, writesV_of _ _ _ _ _ _ (fun _ => rfl),
    writesV_of _ _ _ _ _ _ (fun _ => rfl), writesV_of _ _ _ _ _ _ (fun _ => rfl), writesV_of _ _ _ _ _ _ (fun _ => rfl),
    writesV_of _ _ _ _ _ _ (fun _ => rfl), vBits_writesV (fun x y => x <<< cnt5 y) (fun _ => rfl) (fun _ _ => shl_cnt5 _ _),
    vBits_writesV (fun x y => x >>> cnt5 y) (fun _ => rfl) (fun _ _ => shr_cnt5 _ _),
    vBits_writesV (fun x y => x.sshiftRight (cnt5 y)) (fun _ => rfl) (fun _ _ => sar_cnt5 _ _), writesV_of _ _ _ _ _ _ (fun _ => rfl)⟩
  case vabs =>
    refine (writesV_of _ _ _ _ _ (fun s l => outInt .i32 s.sat ((s.ln a l).toInt.natAbs : Int)) (fun _ => rfl)).congr (fun s l _ => ?_)
    rw [Int.abs_eq_natAbs]

/-! ### Compares and masks (R96, R97, R106) -/

theorem getLsbD_shiftLeft_one {n : Nat} {l m : Nat} (hl : l < n) : (1#n <<< m).getLsbD l = decide (l = m) := by
  rw [BitVec.getLsbD_shiftLeft, BitVec.getLsbD_one, Bool.eq_iff_iff]
  simp only [Bool.and_eq_true, decide_eq_true_eq, Bool.not_eq_true', decide_eq_false_iff_not]
  omega

theorem getLsbD_ofBits (f : Nat → Bool) {l : Nat} (hl : l < 16) : (ofBits f).getLsbD l = f l := by
  have h : ∀ n, ((List.range n).foldl (fun acc l => if f l then acc ||| (1#16 <<< l) else acc) 0#16).getLsbD l =
      (decide (l < n) && f l) := by
    intro n
    induction n with
    | zero => simp
    | succ n ih =>
      have hlt : decide (l < n + 1) = (decide (l < n) || decide (l = n)) := by
        rw [← Bool.decide_or]
        exact decide_eq_decide.mpr Nat.lt_succ_iff_lt_or_eq
      rw [List.range_succ, List.foldl_append, List.foldl_cons, List.foldl_nil, hlt]
      split
      · next hf =>
        rw [BitVec.getLsbD_or, ih, getLsbD_shiftLeft_one hl]
        by_cases h : l = n
        · simp [h, hf]
        · simp [h]
      · next hf =>
        rw [ih]
        by_cases h : l = n
        · simp [h, hf]
        · simp [h]
  rw [ofBits, h 16]
  simp [hl]

theorem getLsbD_maskK (m : BitVec 16) (kz : Bool) (old new : BitVec 16) {l : Nat} (hl : l < 16) :
    (maskK m kz old new).getLsbD l = if m.getLsbD l then new.getLsbD l else if kz then false else old.getLsbD l := by
  cases hm : m.getLsbD l <;> cases kz <;>
    simp only [maskK, BitVec.getLsbD_or, BitVec.getLsbD_and, BitVec.getLsbD_not, BitVec.getLsbD_zero, hm, hl, if_true, if_false,
      Bool.false_eq_true] <;> simp

/-- A write of one mask register keeps every other register. -/
theorem KeptRegs.setK (s : Slot) (j : Nat) (v : BitVec 16) : KeptRegs s (s.setK j v) [] [] [j] :=
  ⟨fun _ _ => by simp, fun _ _ => by simp, fun _ hm => Slot.K_setK_ne _ _ _ _ (by simpa using hm), by simp, by simp⟩

theorem kForm_writesKm {i : Instr} {u : Use} {km : KReg} {kz : Bool} {d : KReg} {val : Slot → Nat → Bool}
    (f : Slot → Nat → Bool) (he : ∀ s, exec i s = kForm u km kz d f s) (hv : ∀ (s : Slot) (l : Nat), f s l = val s l) :
    WritesKm i u km kz d val := by
  obtain rfl : f = val := funext fun s => funext (hv s)
  refine regForm_completes i u _ _ _ _ _ he (fun a => KeptRegs.setK _ _ _) (fun a => ⟨rfl, fun _ => Slot.K_zero _, fun hd l hl => ?_⟩)
  rw [Slot.issued_K, Slot.setKm, Slot.K_setK_self, if_neg hd, getLsbD_maskK _ _ _ _ hl, getLsbD_ofBits _ hl]

theorem fcond_eq (fc : Fcc) (x y : FVal) : fcond fc x y =
    if x = .nan ∨ y = .nan then decide (fc = .ne) else
      match fc with
      | .eq => decide (cmpF x y = 0)
      | .ne => decide (cmpF x y ≠ 0)
      | .lt => decide (cmpF x y < 0)
      | .ge => decide (cmpF x y ≥ 0) := by
  unfold fcond
  by_cases h : x = .nan ∨ y = .nan
  · rw [if_pos h, if_pos (by simpa using h)]
    cases fc <;> rfl
  · rw [if_neg h, if_neg (by simpa using h)]
    cases fc
    · exact Bool.beq_eq_decide_eq ..
    · rw [bne, Bool.beq_eq_decide_eq, decide_not]
    · rfl
    · rfl

theorem writesK_of_eq {i : Instr} {u : Use} {d : KReg} {val : Slot → BitVec 16} (f : Slot → BitVec 16)
    (he : ∀ s, exec i s = regForm u (fun a => a.setK d.toNat (f a)) s) (hv : ∀ s : Slot, f s = val s) : WritesK i u d val := by
  obtain rfl : f = val := funext hv
  exact writesK_of _ _ _ _ he

theorem kBits_writesK {i : Instr} {d a b : KReg} (op : BitVec 16 → BitVec 16 → BitVec 16) (he : ∀ s, exec i s = kBits d a b op s) :
    WritesK i (useA [wk d, rk a, rk b]) d (fun s => op (s.K a.toNat) (s.K b.toNat)) :=
  writesK_of _ _ _ _ he

theorem writesA_of_eq {i : Instr} {u : Use} {d : AReg} {val : Slot → W64} (f : Slot → W64)
    (he : ∀ s, exec i s = regForm u (fun a => a.setA d.toNat (f a)) s) (hv : ∀ s : Slot, f s = val s) : WritesA i u d val := by
  obtain rfl : f = val := funext hv
  exact writesA_of _ _ _ _ he

theorem extractLsb'_zero_eq_ofNat {n : Nat} (k : Nat) (x : BitVec n) : x.extractLsb' 0 k = BitVec.ofNat k (x.toNat % 2 ^ k) := by
  apply BitVec.eq_of_toNat_eq
  simp

theorem firstLane_of_ne_zero {m : BitVec 16} (hm : m ≠ 0#16) :
    firstLane m < 16 ∧ m.getLsbD (firstLane m) = true ∧ ∀ j, j < firstLane m → m.getLsbD j = false := by
  have hsome : ((List.range 16).find? (fun l => m.getLsbD l)).isSome := by
    rw [List.find?_isSome]
    by_contra h
    refine hm (BitVec.eq_of_getLsbD_eq fun j hj => ?_)
    simpa using fun hj' => h ⟨j, List.mem_range.mpr hj, hj'⟩
  obtain ⟨l, hl⟩ := Option.isSome_iff_exists.mp hsome
  have hfirst : firstLane m = l := by rw [firstLane, lanesOf, List.head?_filter, hl, Option.getD_some]
  rw [List.find?_range_eq_some] at hl
  obtain ⟨hbit, hmem, hbefore⟩ := hl
  rw [hfirst]
  exact ⟨List.mem_range.mp hmem, hbit, fun j hj => by simpa using hbefore j hj⟩

theorem kfirst_completes (e : AReg) (a : KReg) : CompletesBut (.kfirst e a) (useA [wa e, rk a]) [e.toNat] [] []
    (fun s t => t.pc = s.pc + 8#64 ∧ (e ≠ 0#4 →
      (s.K a.toNat = 0#16 → t.A e.toNat = 16#64) ∧
      (s.K a.toNat ≠ 0#16 → ∃ l, l < 16 ∧ (s.K a.toNat).getLsbD l = true ∧ (∀ m, m < l → (s.K a.toNat).getLsbD m = false) ∧
        t.A e.toNat = BitVec.ofNat 64 l))) := by
  refine regForm_completes _ _ (fun s => s.setA e.toNat (BitVec.ofNat 64 (firstLane (s.K a.toNat)))) _ _ _ _ (fun _ => rfl)
    (fun s => KeptRegs.setA _ _ _) (fun s => ⟨rfl, fun he => ?_⟩)
  rw [Slot.issued_A, Slot.A_setA_self, if_neg he]
  refine ⟨fun h => by rw [h]; rfl, fun h => ?_⟩
  obtain ⟨hlt, hbit, hbefore⟩ := firstLane_of_ne_zero h
  exact ⟨_, hlt, hbit, hbefore, rfl⟩

/-- Settles O7: the compares by `kForm`, the mask forms by the register they write. -/
theorem comparesAndMasks : Obligations.ComparesAndMasks := by
  refine ⟨fun km kz d a b cc fc ty => ⟨kForm_writesKm (fun s l => cond cc (s.ln a l) (s.ln b l)) (fun _ => rfl) (fun _ _ => rfl),
      kForm_writesKm (fun s l => fcond fc (s.fl ty a l) (s.fl ty b l)) (fun _ => rfl) (fun _ _ => fcond_eq _ _ _)⟩,
    fun d a b e f => ⟨kBits_writesK (· &&& ·) (fun _ => rfl), kBits_writesK (· ||| ·) (fun _ => rfl),
      kBits_writesK (· ^^^ ·) (fun _ => rfl), kBits_writesK (fun x y => x &&& ~~~y) (fun _ => rfl), writesK_of _ _ _ _ (fun _ => rfl), writesK_of _ _ _ _ (fun _ => rfl),
      writesK_of_eq (fun s => (s.A f.toNat).extractLsb' 0 16) (fun _ => rfl) (fun _ => extractLsb'_zero_eq_ofNat 16 _),
      writesA_of_eq (fun s => BitVec.ofNat 64 (popcount (s.K a.toNat))) (fun _ => rfl) (fun s => ?_), kfirst_completes e a⟩⟩
  rw [popcount, lanesOf, ← List.countP_eq_length_filter]

/-! ### Lane moves, reductions and scans (R98, R99, R108) -/

theorem vins_completes (n : BitVec 4) (d : VReg) (e : AReg) :
    CompletesBut (.vins n d e) { useV [d] [wv d, ra e] with wr := .one } [] [d.toNat] [] (fun s t => t.pc = s.pc + 8#64 ∧
      ∀ l, l < 16 → lane (t.V d.toNat) l = if l = n.toNat then BitVec.ofNat 32 ((s.A e.toNat).toNat % 2 ^ 32) else lane (s.V d.toNat) l) := by
  refine regForm_completes _ _ (fun s => s.setVm d.toNat (1#16 <<< n.toNat) false (ofLanes (fun _ => (s.A e.toNat).extractLsb' 0 32)))
    _ _ _ _ (fun _ => rfl) (fun s => KeptRegs.setV _ _ _) (fun s => ⟨rfl, fun l hl => ?_⟩)
  simp only [Slot.issued_V, Slot.setVm, Slot.V_setV_self, lane_maskV _ _ _ _ _ hl, lane_ofLanes _ _ hl, getLsbD_shiftLeft_one hl,
    extractLsb'_zero_eq_ofNat, decide_eq_true_eq, Bool.false_eq_true, if_false]

theorem extractLsb'_add_signExtend (x : W64) (imm : W32) :
    (x + imm.signExtend 64).extractLsb' 0 32 = BitVec.ofInt 32 (x.toInt + imm.toInt) := by
  have hsum : x + imm.signExtend 64 = BitVec.ofInt 64 (x.toInt + imm.toInt) := by
    rw [BitVec.ofInt_add, BitVec.ofInt_toInt]
    rfl
  apply BitVec.eq_of_toNat_eq
  rw [hsum, BitVec.extractLsb'_toNat, BitVec.toNat_ofInt, BitVec.toNat_ofInt, Nat.shiftRight_zero]
  omega

section Sums
variable (lf : Nat → Option Int)

theorem getD_comb_add (x y : Option Int) : (comb (· + ·) x y).getD 0 = x.getD 0 + y.getD 0 := by
  cases x <;> cases y <;> simp [comb]

/-- A node of a tree of exact sums is the sum of its block of leaves. -/
theorem getD_treeNode_add (j i : Nat) :
    (treeNode (· + ·) lf j i).getD 0 = ((List.range (2 ^ j)).map (fun k => (lf (2 ^ j * i + k)).getD 0)).sum := by
  induction j generalizing i with
  | zero => simp [treeNode]
  | succ j ih =>
    rw [treeNode, getD_comb_add, ih, ih, pow_succ, mul_two, List.range_add, List.map_append, List.sum_append, List.map_map]
    congr 3
    · exact funext fun k => by rw [show 2 ^ j * (2 * i) + k = (2 ^ j + 2 ^ j) * i + k by ring]
    · exact funext fun k => by
        rw [Function.comp_apply, show 2 ^ j * (2 * i + 1) + k = (2 ^ j + 2 ^ j) * i + (2 ^ j + k) by ring]

/-- One step of a prefix: the fold has summed the leaves below the bits of n above j, and takes those of bit j. -/
theorem treePrefix_step (n j : Nat) (acc : Option Int × Nat) (hp : acc.2 = n / 2 ^ (j + 1) * 2 ^ (j + 1))
    (hs : acc.1.getD 0 = ((List.range acc.2).map (fun k => (lf k).getD 0)).sum) :
    let next := if n.testBit j then (comb (· + ·) acc.1 (treeNode (· + ·) lf j (acc.2 / 2 ^ j)), acc.2 + 2 ^ j) else acc
    next.2 = n / 2 ^ j * 2 ^ j ∧ next.1.getD 0 = ((List.range next.2).map (fun k => (lf k).getD 0)).sum := by
  obtain ⟨x, p⟩ := acc
  have hpos : 0 < 2 ^ j := Nat.two_pow_pos j
  have hsplit : n / 2 ^ j = 2 * (n / 2 ^ (j + 1)) + n / 2 ^ j % 2 := by
    rw [pow_succ, ← Nat.div_div_eq_div_mul]
    omega
  have hp' : p = 2 * (n / 2 ^ (j + 1)) * 2 ^ j := hp.trans (by rw [pow_succ]; ring)
  rw [Nat.testBit_eq_decide_div_mod_eq]
  by_cases hbit : n / 2 ^ j % 2 = 1
  · rw [decide_eq_true hbit, if_pos rfl]
    dsimp only
    refine ⟨by rw [hsplit, hbit, hp']; ring, ?_⟩
    rw [getD_comb_add, getD_treeNode_add, hs, List.range_add, List.map_append, List.sum_append, List.map_map, hp',
      Nat.mul_div_cancel _ hpos]
    congr 3
    exact funext fun k => by rw [Function.comp_apply, Nat.mul_comm]
  · rw [decide_eq_false hbit, if_neg Bool.false_ne_true]
    have h0 : n / 2 ^ j % 2 = 0 := by omega
    exact ⟨by rw [hsplit, h0, Nat.add_zero]; exact hp', hs⟩

theorem getD_treePrefix_add {l : Nat} (hl : l < 31) :
    (treePrefix (· + ·) lf l).getD 0 = ((List.range (l + 1)).map (fun k => (lf k).getD 0)).sum := by
  have h4 := treePrefix_step lf (l + 1) 4 (none, 0) (by simp; omega) rfl
  have h3 := treePrefix_step lf (l + 1) 3 _ h4.1 h4.2
  have h2 := treePrefix_step lf (l + 1) 2 _ h3.1 h3.2
  have h1 := treePrefix_step lf (l + 1) 1 _ h2.1 h2.2
  have h0 := treePrefix_step lf (l + 1) 0 _ h1.1 h1.2
  exact h0.2.trans (by rw [h0.1, pow_zero, Nat.div_one, Nat.mul_one])

theorem getD_treeBefore_add {l : Nat} (hl : l < 31) :
    (treeBefore (· + ·) lf l).getD 0 = ((List.range l).map (fun k => (lf k).getD 0)).sum := by
  cases l with
  | zero => rfl
  | succ l => exact getD_treePrefix_add lf (by omega)

end Sums

/-- The sum over the active leaves. -/
theorem sum_leaf (s : Slot) (km : KReg) (a : VReg) (f : W32 → Int) (ls : List Nat) :
    (ls.map (fun l => (s.leaf km a f l).getD 0)).sum = ((ls.filter (fun l => (s.K km.toNat).getLsbD l)).map (fun l => f (s.ln a l))).sum := by
  induction ls with
  | nil => rfl
  | cons l ls ih =>
    rw [List.map_cons, List.sum_cons, ih, Slot.leaf, List.filter_cons]
    split <;> simp

/-- Settles O9: moves by the lanes they write; sums by the tree's exact nodes, other reductions by the tree itself. -/
theorem laneMovesAndReductions : Obligations.LaneMovesAndReductions := by
  refine ⟨fun km kz d a b e imm n => ⟨?vli, writesV_of _ _ _ _ _ _ (fun _ => rfl), writesV_of _ _ _ _ _ _ (fun _ => rfl),
      writesV_of _ _ _ _ _ _ (fun _ => rfl), writesV_of _ _ _ _ _ _ (fun _ => rfl), writesV_of _ _ _ _ _ _ (fun _ => rfl),
      ?vext, vins_completes n d e⟩,
    fun ty km kz d a => ⟨?vredsum, ?vredmin, ?vredmax, writesV_of _ _ _ _ _ _ (fun _ => rfl), writesV_of _ _ _ _ _ _ (fun _ => rfl),
      writesV_of _ _ _ _ _ _ (fun _ => rfl), ?vscan, ?vscanx⟩⟩
  case vli =>
    exact (writesV_of _ _ _ _ _ (fun s _ => (s.A e.toNat + imm.signExtend 64).extractLsb' 0 32) (fun _ => rfl)).congr
      (fun _ _ _ => extractLsb'_add_signExtend _ _)
  case vext =>
    exact writesA_of_eq (fun s => (s.ln a n.toNat).setWidth 64) (fun _ => rfl) (fun _ => (BitVec.ofNat_toNat ..).symm)
  case vredmin => cases ty <;> exact writesV_of _ _ _ _ _ _ (fun _ => rfl)
  case vredmax => cases ty <;> exact writesV_of _ _ _ _ _ _ (fun _ => rfl)
  case vredsum =>
    refine (writesV_of _ _ _ _ _ (fun s _ => outInt ty s.sat ((treeNode (· + ·) (s.leaf km a (inInt ty)) 4 0).getD 0))
      (fun _ => rfl)).congr (fun s _ _ => ?_)
    rw [getD_treeNode_add]
    simp only [Nat.mul_zero, Nat.zero_add, sum_leaf]
    rfl
  case vscan =>
    refine (writesV_of _ _ _ _ _ (fun s l => outInt ty s.sat ((treePrefix (· + ·) (s.leaf km a (inInt ty)) l).getD 0))
      (fun _ => rfl)).congr (fun s l hl => ?_)
    rw [getD_treePrefix_add _ (by omega), sum_leaf]
  case vscanx =>
    refine (writesV_of _ _ _ _ _ (fun s l => outInt ty s.sat ((treeBefore (· + ·) (s.leaf km a (inInt ty)) l).getD 0))
      (fun _ => rfl)).congr (fun s l hl => ?_)
    rw [getD_treeBefore_add _ (by omega), sum_leaf]

/-- Settles O10: each floating form writes its active lanes with the value given. -/
theorem floatingForms : Obligations.FloatingForms := by
  intro ty rnd km kz d a b c dst src
  refine ⟨?_, ?_, ?_, ?_, ?_, ?_, ?_, ?_, ?_, ?_, ?_, ?_, ?_, ?_, ?_, ?_, ?_, ?_, ?_, ?_⟩ <;>
    exact writesV_of _ _ _ _ _ _ (fun _ => rfl)

end Sys2Proof.Machine
end

section
/-! PROOFS. Home quays (R329 to R331): an access that finds its way changes nothing but what the quays keep. -/

namespace Sys2Proof.Machine

/-- From d to e nothing changed but what home quays keep of their lines, with its counts, and the counter of free values. -/
def Dev.QuaysOnly (d e : Dev) : Prop :=
  e = { d with qsets := e.qsets, shared := e.shared, stalled := e.stalled, pins := e.pins, count := e.count }

theorem Dev.QuaysOnly.refl (d : Dev) : d.QuaysOnly d := rfl

theorem Dev.QuaysOnly.trans {d e f : Dev} (h : d.QuaysOnly e) (g : e.QuaysOnly f) : d.QuaysOnly f := by
  unfold Dev.QuaysOnly at *
  rw [h] at g
  exact g

theorem Dev.QuaysOnly.cores {d e : Dev} (h : d.QuaysOnly e) : e.cores = d.cores := by rw [h]
theorem Dev.QuaysOnly.core {d e : Dev} (h : d.QuaysOnly e) (k : Nat) : e.core k = d.core k := by rw [h]; rfl
theorem Dev.QuaysOnly.slot {d e : Dev} (h : d.QuaysOnly e) (k n : Nat) : e.slot k n = d.slot k n := by rw [h]; rfl
theorem Dev.QuaysOnly.net {d e : Dev} (h : d.QuaysOnly e) : e.net = d.net := by rw [h]
theorem Dev.QuaysOnly.clock {d e : Dev} (h : d.QuaysOnly e) : e.clock = d.clock := by rw [h]
theorem Dev.QuaysOnly.agenda {d e : Dev} (h : d.QuaysOnly e) : e.agenda = d.agenda := by rw [h]
theorem Dev.QuaysOnly.groups {d e : Dev} (h : d.QuaysOnly e) : e.groups = d.groups := by rw [h]
theorem Dev.QuaysOnly.calm {d e : Dev} (h : d.QuaysOnly e) : e.calm = d.calm := by rw [h]; rfl

theorem Dev.addShared_quaysOnly (d : Dev) (i : Nat) (k : W64) : d.QuaysOnly (d.addShared i k) := by
  unfold Dev.addShared
  split
  · split <;> rfl
  · rfl

theorem Dev.bumpShared_quaysOnly (d : Dev) (i : Nat) : d.QuaysOnly (d.bumpShared i) := d.addShared_quaysOnly i _

theorem Dev.quay_quaysOnly {d e : Dev} {f pa : Nat} {write : Bool} (h : d.quay f pa write = some e) : d.QuaysOnly e := by
  have hon : ∀ g q, d.QuaysOnly { ({ d with stalled := d.stalled.filter (· != (f, lineOf pa)), count := d.count + 1 } : Dev).bumpShared g with
      qsets := q } := by
    intro g q
    have hb := Dev.bumpShared_quaysOnly { d with stalled := d.stalled.filter (· != (f, lineOf pa)), count := d.count + 1 } g
    rw [hb]
    rfl
  unfold Dev.quay at h
  dsimp only at h
  split at h
  · cases h; rfl
  · split at h
    · cases h
    · split at h
      · cases h
        exact hon _ _
      · split at h
        · cases h
        · cases h
          exact hon _ _

theorem Dev.quayWaited_quaysOnly (d : Dev) (f pa : Nat) : d.QuaysOnly (d.quayWaited f pa) := by
  unfold Dev.quayWaited
  split
  · rfl
  · have hb := d.bumpShared_quaysOnly (128 + homeOf pa / 8)
    rw [hb]
    rfl

/-- Accesses of some lines at once change nothing but quays. -/
theorem Dev.visit_quaysOnly (d : Dev) (f : Nat) (write : Bool) (ls : List Nat) (pin : Bool) : d.QuaysOnly (d.visit f write ls pin).1 := by
  have hfold : ∀ e, (ls.foldl (fun (a : Option Dev × Nat) l => match a.1 with
      | some d => ((d.quay f l write).map (fun d => { d with pins := if pin then lineOf l :: d.pins else d.pins }), l)
      | none => a) (some d, 0)).1 = some e → d.QuaysOnly e := by
    refine List.foldlRecOn (motive := fun a : Option Dev × Nat => ∀ e, a.1 = some e → d.QuaysOnly e) _ _ ?_ ?_
    · intro e he
      cases he
      rfl
    · rintro ⟨x, k⟩ hx l -
      cases x with
      | none => exact hx
      | some y =>
        intro e he
        obtain ⟨z, hz, rfl⟩ := Option.map_eq_some_iff.mp he
        have hyz := (hx y rfl).trans (Dev.quay_quaysOnly hz)
        rw [hyz]
        rfl
  unfold Dev.visit
  split
  · next e k he =>
    have hde := hfold e (congrArg Prod.fst he)
    rw [hde]
    rfl
  · exact d.quayWaited_quaysOnly f _

/-- A change of a core that keeps its slots keeps every slot of the device. -/
theorem Dev.slot_updCore_of {f : Core → Core} (hf : ∀ c n, (f c).slot n = c.slot n) (d : Dev) (k h n : Nat) :
    (d.updCore k f).slot h n = d.slot h n := by
  by_cases hh : h = k
  · subst hh
    simp [Dev.slot, hf]
  · simp [Dev.slot, Dev.core_updCore_ne _ _ _ _ hh]

/-- A fill of the buffer of domain entries keeps every slot (R319). -/
theorem Dev.slot_fillPlb (d : Dev) (m : Memory) (who : Who) (dom h n : Nat) : (d.fillPlb m who dom).slot h n = d.slot h n := by
  have hq := d.visit_quaysOnly (d.terrace who.terr).vf false [(d.terrace who.terr).dtBase.toNat + 2 * dom] false
  unfold Dev.fillPlb
  split
  · rfl
  · split
    · split
      · next e he =>
        rw [he] at hq
        exact (Dev.slot_updCore_of (by simp [Core.slot]) e who.h h n).trans (hq.slot h n)
      · next e he =>
        rw [he] at hq
        exact hq.slot h n
    · rfl

end Sys2Proof.Machine
end

section
/-! PROOFS. The whole machine: words that the spec writes out, what reset leaves, and what each act of a step runs (R21 to R24, R56). -/

namespace Sys2Proof.Machine

/-- Settles O54: each word is decoded by computation. -/
theorem wordsOfTheSpec : Obligations.WordsOfTheSpec := by
  refine ⟨?_, ?_, ?_, ?_, ?_, ?_, ?_, ?_, ?_, ?_, ?_, ?_, ?_, ?_, ?_, ?_, ?_, ?_, ?_, ?_, ?_, ?_⟩ <;> rfl

/-- Settles O58: every table of the reset state is empty, and reads as its default. -/
theorem reset : Obligations.Reset := by
  refine ⟨⟨rfl, rfl, rfl, fun h => ⟨rfl, rfl, rfl, fun b => rfl⟩, fun f => rfl, fun t => (by decide : Terrace.init.state = 0), fun lk => rfl, rfl, rfl, fun h n => ?_,
    fun h a => ⟨rfl, rfl⟩, fun a => rfl⟩, rfl⟩
  have hslot : State.reset.dev.slot h n = Slot.init := by
    show (if n < 64 then (AMap.empty : AMap Slot) else .empty).get .init n = _
    split <;> rfl
  rw [hslot]
  refine ⟨rfl, rfl, rfl, Slot.K_zero _, fun j => ⟨?_, rfl⟩, fun j hj => ?_⟩
  · show (if j = 0 then 0#64 else 0#64) = _
    split <;> rfl
  · show (if j = 0 then 0xFFFF#16 else 0#16) = _
    rw [if_neg hj.ne']

/-! ### The turn of a seat -/

theorem Dev.seatAssign_of_seated {d : Dev} {h n : Nat} (hs : (d.core h).seatedIn (d.clock % 16) = some n) : d.seatAssign h = d := by
  simp [Dev.seatAssign, hs]

theorem Dev.seatAssign_of_none {d : Dev} {h : Nat} (hs : (d.core h).seatedIn (d.clock % 16) = none)
    (hc : d.seatChoice h (d.clock % 16) = none) : d.seatAssign h = d := by
  simp [Dev.seatAssign, hs, hc]

/-- Nothing comes before the instruction of the slot in the seat: no kill, no pre-emption, no stop, no deferred fault, no end, no
breakpoint. -/
theorem Dev.turn_of_clear {d : Dev} {m : Memory} {h n : Nat} (hs : (d.core h).seatedIn (d.clock % 16) = some n)
    (hkill : (d.slot h n).killed = false) (hpre : (d.slot h n).preempt = false ∨ (d.slot h n).leased = true)
    (hstop : (d.slot h n).stopReq = false ∨ (d.slot h n).leased = true) (hdef : (d.slot h n).defer = []) (hend : (d.slot h n).endReq = false)
    (hbp : d.atBreakpoint (d.slot h n) = false) : d.turn m h = d.present m h n := by
  have hp : ((d.slot h n).preempt && !(d.slot h n).leased) = false := by simpa [or_iff_not_imp_left] using hpre
  have hq : ((d.slot h n).stopReq && !(d.slot h n).leased) = false := by simpa [or_iff_not_imp_left] using hstop
  simp [Dev.turn, Dev.seatAssign_of_seated hs, hs, hkill, hp, hq, hdef, hend, hbp]

theorem Dev.present_of_decode {m : Memory} {d e : Dev} {h n : Nat} {w : W64} {i : Instr} (hf : d.fetch m h n = .word w e)
    (hi : decode w = .ok i) : d.present m h n = .run { e with cur := .slot h n w } i := by
  simp [Dev.present, hf, hi]

theorem Dev.present_of_bad {m : Memory} {d e : Dev} {h n sub : Nat} {w : W64} (hf : d.fetch m h n = .word w e)
    (hi : decode w = .bad sub) : d.present m h n = .stay (e.trap m h n ⟨0x01, sub, w, 0xFFFF#16⟩ false (e.slot h n).pc) := by
  simp [Dev.present, hf, hi]

theorem Dev.turn_of_empty {d : Dev} {m : Memory} {h : Nat} (hs : (d.core h).seatedIn (d.clock % 16) = none)
    (hc : d.seatChoice h (d.clock % 16) = none) : d.turn m h = .stay d := by
  simp [Dev.turn, Dev.seatAssign_of_none hs hc, hs]

/-- A slot that has fetched the word at its PC takes it. -/
theorem Dev.fetch_of_stream {m : Memory} {d : Dev} {h n : Nat} {w : W64} {more : List (Nat × W64)}
    (hs : (d.slot h n).stream = ((d.slot h n).pc.toNat, w) :: more) : d.fetch m h n = .word w d := by
  simp [Dev.fetch, hs, Option.filter]

/-- A fetch from the home of the line answers the word there. -/
theorem Dev.fetch_of_home {m : Memory} {d : Dev} {h n pa : Nat} {lf : Leaf} (hs : (d.slot h n).stream = [])
    (hal : (d.slot h n).pc.toNat % 8 = 0) (hw : isWindow (d.slot h n).pc = false)
    (hic : (d.core h).ic.find? (lineOf (d.slot h n).pc.toNat) = none)
    (htr : d.translate m ((d.slot h n).who h) [.x] (d.slot h n).pc = .ok pa lf) (hp : d.pending pa = false)
    (hpoi : d.linePoison.contains (lineOf pa) = false) (hq : (d.quay (d.fnOf (d.slot h n).lk) pa false).isSome = true) :
    ∃ e, d.fetch m h n = .word (Line.w64 (m.line (lineOf pa)) ((d.slot h n).pc.toNat % 128)) e ∧ (e.slot h n).pc = (d.slot h n).pc := by
  obtain ⟨q, hq⟩ := Option.isSome_iff_exists.mp hq
  refine ⟨_, by simp only [Dev.fetch, hs, List.head?_nil, Option.filter_none, (aligned8_iff _).mpr hal, hw, hic, htr, hp, hpoi, hq,
    Bool.false_eq_true, if_false]; rfl, ?_⟩
  rw [Dev.slot_updSlot_self]
  have hput : ∀ (c : Core) (p va : Nat) (l : CLine) (j : Nat), (c.putIc p va l).slot j = c.slot j := fun _ _ _ _ _ => rfl
  rw [Dev.slot_updCore_of (fun _ _ => hput _ _ _ _ _), Dev.slot_fillPlb, (Dev.quay_quaysOnly hq).slot]

/-! ### Engine queues -/

theorem Dev.stopLive_of_going {d : Dev} {h : Nat} {cq : Bool} (hg : ∀ y, y ∈ ((d.core h).eq cq).live → y.stop = none) :
    d.stopLive h cq = d := by
  have hany : (((d.core h).eq cq).live.any (fun c => c.stop.isSome)) = false := by
    rw [List.any_eq_false]
    intro y hy
    simp [hg y hy]
  simp [Dev.stopLive, hany]

theorem Dev.queuePlan_of_decode {d : Dev} {h : Nat} {cq : Bool} {c : Cmd} {r : List Cmd} {i : Instr} (hq : ((d.core h).eq cq).q = c :: r)
    (hs : c.stop = none) (ho : c.oc = none) (hi : decodeTile cq c.img = .ok i) :
    d.queuePlan h cq = .run { d with cur := .queue h cq } i := by
  simp [Dev.queuePlan, hq, hs, ho, hi]

theorem Dev.copyStep_of_decode {d : Dev} {h : Nat} {c : Cmd} {r : List Cmd} {i : Instr}
    (hg : ∀ y, y ∈ ((d.core h).eq true).live → y.stop = none) (hq : (d.core h).cq.q = c :: r) (hr : d.headReady h true = true)
    (hs : c.stop = none) (ho : c.oc = none) (hi : decodeTile true c.img = .ok i) :
    d.copyStep h = .run { d with cur := .queue h true } i := by
  simp only [Dev.copyStep, Dev.stopLive_of_going hg, hr, if_true]
  exact Dev.queuePlan_of_decode hq hs ho hi

/-- Where no command of a court's queues is to stop, the court's step begins with the device as it is. -/
theorem Dev.stopLives_of_going {d : Dev} {k : Nat} (hg : ∀ j, j < 4 → ∀ y, y ∈ ((d.core (4 * k + j)).eq false).live → y.stop = none) :
    (List.range 4).foldl (fun d i => d.stopLive (4 * k + i) false) d = d :=
  List.foldlRecOn (motive := fun x : Dev => x = d) _ _ rfl
    (fun x hx j hj => by subst hx; exact Dev.stopLive_of_going (hg j (List.mem_range.mp hj)))

theorem Dev.courtStep_of_pick {d : Dev} {k h : Nat} {c : Cmd} {r : List Cmd} {i : Instr}
    (hg : ∀ j, j < 4 → ∀ y, y ∈ ((d.core (4 * k + j)).eq false).live → y.stop = none) (hran : (d.court k).ran = false)
    (hp : d.courtPick k = some h) (hq : (d.core h).mq.q = c :: r) (hs : c.stop = none) (ho : c.oc = none)
    (hi : decodeTile false c.img = .ok i) :
    d.courtStep k = .run { ({ d with agenda := .court k :: d.agenda } : Dev).updCourt k (fun x => { x with tried := x.tried ++ [h % 4] }) with
      cur := .queue h false } i := by
  simp only [Dev.courtStep, Dev.stopLives_of_going hg, hran, hp, Bool.false_eq_true, if_false]
  exact Dev.queuePlan_of_decode hq hs ho hi

/-- A court none of whose queues comes to a step any more is ready for the next cycle. -/
theorem Dev.courtStep_of_over {d : Dev} {k : Nat}
    (hg : ∀ j, j < 4 → ∀ y, y ∈ ((d.core (4 * k + j)).eq false).live → y.stop = none)
    (ho : (d.court k).ran = true ∨ d.courtPick k = none) :
    ∃ e, d.courtStep k = .stay e ∧ e.cores = d.cores ∧ e.agenda = d.agenda ∧ (e.court k).tried = [] ∧ (e.court k).ran = false ∧
      (e.court k).last = (d.court k).last := by
  have hend : d.courtStep k =
      .stay (if (d.court k).tried.isEmpty && !(d.court k).ran then d else d.updCourt k (fun x => { x with tried := [], ran := false })) := by
    simp only [Dev.courtStep, Dev.stopLives_of_going hg]
    obtain h | h := ho
    · rw [if_pos h]
    · simp [h]
  refine ⟨_, hend, ?_⟩
  split
  · next h =>
    simp only [Bool.and_eq_true, List.isEmpty_iff, Bool.not_eq_true'] at h
    exact ⟨rfl, rfl, h.1, h.2, rfl⟩
  · simp [Dev.updCourt, Dev.court, AMap.upd]

/-! ### The passing of a cycle -/

theorem AMap.get_map {α : Type} (x : α) (m : AMap α) (g : Nat × α → Nat × α) (hk : ∀ e, (g e).1 = e.1) (k : Nat)
    (hx : (g (k, x)).2 = x) : (⟨m.ents.map g⟩ : AMap α).get x k = (g (k, m.get x k)).2 := by
  rw [AMap.get, AMap.find?_map m g hk, AMap.get]
  cases m.find? k with
  | none => exact hx.symm
  | some y => rfl

theorem AMap.get_map_snd {α : Type} (x : α) (m : AMap α) (g : α → α) (k : Nat) (hx : g x = x) :
    (⟨m.ents.map (fun e => (e.1, g e.2))⟩ : AMap α).get x k = g (m.get x k) :=
  AMap.get_map x m (fun e => (e.1, g e.2)) (fun _ => rfl) k hx

theorem Core.countWaits_slot (c : Core) (n : Nat) : c.countWaits.slot n = c.slot n :=
  List.foldlRecOn (motive := fun x : Core => x.slot n = c.slot n) _ _ rfl (fun _ hx _ _ => hx)

/-- Waking a slot touches no a-register. -/
theorem Core.wake_A (c : Core) (clock : Nat) (p : Nat → Slot → WaitFor → Bool) (n j : Nat) :
    ((c.wake clock p).slot n).A j = (c.slot n).A j := by
  unfold Core.slot Core.wake
  split
  · rw [AMap.get_map]
    · split
      · split <;> rfl
      · rfl
    · intro e
      split
      · split <;> rfl
      · rfl
    · rfl
  · rfl

theorem Dev.wakeLowest_A (d : Dev) (h n j : Nat) : (d.wakeLowest.slot h n).A j = (d.slot h n).A j := by
  unfold Dev.wakeLowest
  dsimp only
  split
  · refine (congrArg (fun c : Core => (c.slot n).A j) (AMap.get_map_snd Core.init d.cores (fun c => c.wake d.clock _) h rfl)).trans ?_
    exact Core.wake_A _ _ _ _ _
  · rfl

theorem Dev.tick_A {d : Dev} (hu : d.up = true) (h n j : Nat) : (d.tick.slot h n).A j = (d.slot h n).A j := by
  have hcore : d.tick.core h = (d.wakeLowest.core h).countWaits := by
    rw [Dev.core, Dev.tick_cores hu]
    exact AMap.get_map_snd Core.init d.wakeLowest.cores Core.countWaits h rfl
  rw [Dev.slot, hcore, Core.countWaits_slot]
  exact d.wakeLowest_A h n j

theorem Dev.tick_clock {d : Dev} (hu : d.up = true) : d.tick.clock = d.clock + 1 := by
  simp [Dev.tick, hu, Dev.countFlits_keeps]

/-! ### Steps -/

theorem step_of_act {s : State} {a : Act} {rest : List Act} (ha : s.dev.agenda = a :: rest) :
    step s = runAct a ⟨s.mem, { s.dev with agenda := rest, cur := .none }⟩ := by
  simp [step, ha]

/-- Settles O57: what each act of the agenda comes to, and the passing of a cycle when none is left. -/
theorem stepRunsTheDecodedInstruction : Obligations.StepRunsTheDecodedInstruction := by
  intro s rest h n sub w d' i e k c r
  dsimp only
  refine ⟨fun ha hs hc hf hi => ?_, fun ha hs hc hf hi => ?_, fun ha hs hc => ?_, fun more hs => Dev.fetch_of_stream hs,
    fun pa lf hs hal hw hic htr hp hpoi hq => Dev.fetch_of_home hs hal hw hic htr hp hpoi hq, fun ha => step_of_act ha,
    fun ha => step_of_act ha, fun ha hg hq hr hs ho hi => ?_, fun ha hg => ⟨fun hran hp hq hs ho hi => ?_, fun ho => ?_⟩,
    fun ha hu => ⟨_, step_of_agenda_nil ha, rfl, Dev.tick_clock hu, fun j => Dev.tick_A hu h n j⟩, fun ha hu => ?_⟩
  · obtain ⟨hkill, hpre, hstop, hdef, hend, hbp⟩ := hc
    rw [step_of_act ha, runAct, Dev.turn_of_clear hs hkill hpre hstop hdef hend hbp, Dev.present_of_decode hf hi]
    rfl
  · obtain ⟨hkill, hpre, hstop, hdef, hend, hbp⟩ := hc
    rw [step_of_act ha, runAct, Dev.turn_of_clear hs hkill hpre hstop hdef hend hbp, Dev.present_of_bad hf hi]
    rfl
  · rw [step_of_act ha, runAct, Dev.turn_of_empty hs hc]
    rfl
  · rw [step_of_act ha, runAct, Dev.copyStep_of_decode hg hq hr hs ho hi]
    rfl
  · rw [step_of_act ha, runAct, Dev.courtStep_of_pick hg hran hp hq hs ho hi]
    rfl
  · obtain ⟨x, hx, hcores, hagenda, htried, hran, hlast⟩ := Dev.courtStep_of_over hg ho
    exact ⟨x, by rw [step_of_act ha, runAct, hx]; rfl, hcores, hagenda, htried, hran, hlast⟩
  · rw [step_of_agenda_nil ha, Dev.tick, hu]
    rfl

end Sys2Proof.Machine
end

section
/-! PROOFS. The checks before an instruction (R64): a slot that waits for a stale answer lets its turn pass before poison is looked for. -/

namespace Sys2Proof.Machine

/-- Slot 0 of core 0 presents a word while the answer to what it no longer presents is still under way; v0 of its window is poisoned. -/
def staleState : State :=
  ⟨⟨[]⟩, { Dev.reset.updCore 0 (fun c => { c with
    slots := c.slots.put 0 { Slot.init with winCount := 1, reply := .stale }, rfPoison := [0] }) with cur := .slot 0 0 0#64 }⟩

/-- The turn passes: nothing changes. -/
theorem exec_vadd_staleState : exec (.vadd .i32 0#3 false 0#7 0#7 0#7) staleState = .next staleState := rfl

/-- A trap leaves the slot HELD. -/
theorem State.trapped_ne_staleState (sub : Nat) (ad : W64) (lanes : BitVec 16) : staleState.trapped 0 0 ⟨0xF0, sub, ad, lanes⟩ ≠ staleState := by
  intro h
  have hst : (SlotSt.held .trap : SlotSt) = .free := congrArg (fun s : State => (s.dev.slot 0 0).st) h
  cases hst

/-- Refutes O53: its last clause leaves the slot's awaited answer free, and a slot whose answer is stale lets its turn pass (the condition
of issue that stands before the check of R362), so that vadd of a poisoned v0 does not trap there. -/
theorem not_checksBeforeAnInstruction : ¬ Obligations.ChecksBeforeAnInstruction := by
  intro h
  obtain ⟨-, -, -, -, -, -, -, -, hpoison⟩ := h staleState 0 0 0#64 rfl 0#4 0#4 0#4 .i32 0#3 false 0#7 0#7 0#7 0#4
  obtain ⟨lanes, htrap⟩ := hpoison ⟨by decide, rfl, rfl, rfl, rfl⟩ rfl rfl
  exact State.trapped_ne_staleState _ _ _ (Host.Outcome.next.inj (exec_vadd_staleState.symm.trans htrap)).symm

end Sys2Proof.Machine
end

section
/-! PROOFS. Rounding (R41 to R43): a value that a format holds is its own rounding. -/

namespace Sys2Proof.Machine

/-- The fields of an element put together again. -/
theorem signed_fields (f : Fmt) (x : W32) (h : x.toNat < 2 ^ (1 + f.expBits + f.frac)) :
    signed f (x.toNat.testBit (f.frac + f.expBits)) (x.toNat % 2 ^ f.frac + x.toNat / 2 ^ f.frac % 2 ^ f.expBits * 2 ^ f.frac) = x := by
  apply BitVec.eq_of_toNat_eq
  have hb : x.toNat / 2 ^ (f.frac + f.expBits) < 2 := by
    rw [Nat.div_lt_iff_lt_mul (Nat.two_pow_pos _), ← pow_succ']
    rwa [show f.frac + f.expBits + 1 = 1 + f.expBits + f.frac by omega]
  have hsplit : x.toNat = x.toNat % 2 ^ f.frac + x.toNat / 2 ^ f.frac % 2 ^ f.expBits * 2 ^ f.frac +
      x.toNat / 2 ^ (f.frac + f.expBits) * 2 ^ (f.frac + f.expBits) := by
    have h1 := Nat.mod_add_div x.toNat (2 ^ f.frac)
    have h2 := Nat.mod_add_div (x.toNat / 2 ^ f.frac) (2 ^ f.expBits)
    rw [pow_add, ← Nat.div_div_eq_div_mul]
    calc x.toNat = x.toNat % 2 ^ f.frac + 2 ^ f.frac * (x.toNat / 2 ^ f.frac % 2 ^ f.expBits +
          2 ^ f.expBits * (x.toNat / 2 ^ f.frac / 2 ^ f.expBits)) := by rw [h2, h1]
      _ = _ := by ring
  have hsign : (if x.toNat.testBit (f.frac + f.expBits) then 2 ^ (f.frac + f.expBits) else 0) =
      x.toNat / 2 ^ (f.frac + f.expBits) * 2 ^ (f.frac + f.expBits) := by
    rw [Nat.testBit_eq_decide_div_mod_eq]
    generalize x.toNat / 2 ^ (f.frac + f.expBits) = b at hb
    interval_cases b <;> simp
  rw [signed, BitVec.toNat_ofNat, hsign, ← hsplit]
  exact Nat.mod_eq_of_lt x.isLt

/-- The constants of a floating format (R41 Table 2): its binades lie above the subnormals' and have their codes in order. -/
structure FloatFormat (f : Fmt) : Prop where
  low : 1 - f.bias < f.emax
  top : f ≠ .e4m3 → f.emax + f.bias + 1 = ((2 ^ f.expBits - 1 : Nat) : Int) ∧ f.maxUnits + 1 = 2 * 2 ^ f.frac ∧ f.infCode = (2 ^ f.expBits - 1) * 2 ^ f.frac
  e4m3 : f = .e4m3 → f.emax + f.bias = 15 ∧ f.maxUnits = 14 ∧ f.frac = 3 ∧ f.expBits = 4

theorem floatFormat_of_ne {f : Fmt} (hi : f ≠ .i32) (hu : f ≠ .u32) : FloatFormat f := by
  cases f
  case i32 => exact absurd rfl hi
  case u32 => exact absurd rfl hu
  case f32 | bf16 | e5m2 => exact ⟨by decide, fun _ => by decide, nofun⟩
  case e4m3 => exact ⟨by decide, fun h => absurd rfl h, fun _ => by decide⟩

/-- A subnormal, or a zero, rounds to itself. -/
theorem encF_subnormal {f : Fmt} (hf : FloatFormat f) (md : RMode) (neg : Bool) {m : Nat} (hm : m < 2 ^ f.frac) :
    encF f md false (.fin neg m f.qmin) = signed f neg m := by
  by_cases h0 : m = 0
  · subst h0
    rfl
  have hlow := hf.low
  have hlog : m.log2 < f.frac := (Nat.log2_lt h0).mpr hm
  have hq : min (max ((m.log2 : Int) + f.qmin - f.frac) f.qmin) (f.emax - f.frac) = f.qmin := by
    unfold Fmt.qmin
    omega
  have hne : (f.qmin == f.emax - f.frac) = false := by
    rw [beq_eq_false_iff_ne]
    unfold Fmt.qmin
    omega
  have htop : ¬ f.emax + 1 < (m.log2 : Int) + f.qmin := by
    unfold Fmt.qmin
    omega
  simp only [encF, if_neg h0, if_neg htop, hq, hne, le_refl, if_true, sub_self, Int.toNat_zero, pow_zero, Nat.mul_one, Bool.false_and,
    Bool.false_eq_true, if_false, hm]

/-- A normal value rounds to itself. -/
theorem encF_normal {f : Fmt} (hf : FloatFormat f) (md : RMode) (neg : Bool) {m e : Nat} (hm : m < 2 ^ f.frac) (he : 0 < e)
    (htop : (e : Int) - f.bias ≤ f.emax) (hmax : (e : Int) - f.bias = f.emax → 2 ^ f.frac + m ≤ f.maxUnits) :
    encF f md false (.fin neg (2 ^ f.frac + m) (e - f.bias - f.frac)) = signed f neg (m + e * 2 ^ f.frac) := by
  have hlog : (2 ^ f.frac + m).log2 = f.frac := by
    rw [Nat.log2_eq_iff (by positivity)]
    exact ⟨Nat.le_add_right .., by rw [pow_succ]; omega⟩
  have h0 : ¬ 2 ^ f.frac + m = 0 := by positivity
  have hq : min (max ((f.frac : Int) + (e - f.bias - f.frac) - f.frac) f.qmin) (f.emax - f.frac) = e - f.bias - f.frac := by
    unfold Fmt.qmin
    omega
  have hov : ((e : Int) - f.bias - f.frac == f.emax - f.frac && decide (f.maxUnits < 2 ^ f.frac + m)) = false := by
    rw [Bool.and_eq_false_iff, beq_eq_false_iff_ne, decide_eq_false_iff_not]
    by_cases h : (e : Int) - f.bias = f.emax
    · exact Or.inr (Nat.not_lt.mpr (hmax h))
    · exact Or.inl (by omega)
  have hnt : ¬ f.emax + 1 < (f.frac : Int) + (e - f.bias - f.frac) := by omega
  have hexp : ((e : Int) - f.bias - f.frac + f.frac + f.bias).toNat = e := by omega
  simp only [encF, if_neg h0, hlog, if_neg hnt, hq, hov, le_refl, if_true, sub_self, Int.toNat_zero, pow_zero, Nat.mul_one,
    Bool.false_eq_true, if_false, Nat.not_lt.mpr (Nat.le_add_right _ _), hexp, Nat.add_sub_cancel_left]

/-- Settles O11: the element's fields name an infinity, a subnormal (or zero) or a normal value, each its own rounding. -/
theorem roundingKeepsRepresentable : Obligations.RoundingKeepsRepresentable := by
  intro f md x hi hu hx hnan
  have hf := floatFormat_of_ne hi hu
  have hm : x.toNat % 2 ^ f.frac < 2 ^ f.frac := Nat.mod_lt _ (Nat.two_pow_pos _)
  have he : x.toNat / 2 ^ f.frac % 2 ^ f.expBits < 2 ^ f.expBits := Nat.mod_lt _ (Nat.two_pow_pos _)
  have hsigned := signed_fields f x hx
  unfold decF at hnan ⊢
  dsimp only at hnan ⊢
  generalize x.toNat % 2 ^ f.frac = m at *
  generalize x.toNat / 2 ^ f.frac % 2 ^ f.expBits = e at *
  generalize x.toNat.testBit (f.frac + f.expBits) = neg at *
  split at hnan
  · exact absurd rfl hnan
  next hnan4 =>
  rw [if_neg hnan4]
  split at hnan
  · next htop =>
    rw [if_pos htop]
    simp only [Bool.and_eq_true, bne_iff_ne, ne_eq, beq_iff_eq] at htop
    obtain ⟨h4, rfl⟩ := htop
    split at hnan
    · next h0 =>
      obtain ⟨-, -, hinf⟩ := hf.top h4
      rw [if_pos h0, encF, if_neg (by simpa using h4), hinf]
      rwa [h0, Nat.zero_add] at hsigned
    · exact absurd rfl hnan
  next htop =>
  rw [if_neg htop]
  split
  · next h0 =>
    rw [h0, Nat.zero_mul, Nat.add_zero] at hsigned
    rw [if_neg Bool.false_ne_true, encF_subnormal hf md neg hm, hsigned]
  · next h0 =>
    have hbound : (e : Int) - f.bias ≤ f.emax ∧ ((e : Int) - f.bias = f.emax → 2 ^ f.frac + m ≤ f.maxUnits) := by
      by_cases h4 : f = .e4m3
      · obtain ⟨hexp, hunits, hfrac, hbits⟩ := hf.e4m3 h4
        rw [hfrac] at hm
        rw [hbits] at he
        simp only [h4, beq_self_eq_true, Bool.true_and, Bool.and_eq_true, beq_iff_eq, not_and] at hnan4
        rw [hfrac, hunits]
        refine ⟨by omega, fun heq => ?_⟩
        have h7 := hnan4 (by omega)
        omega
      · obtain ⟨hexp, hunits, -⟩ := hf.top h4
        have hne : e ≠ 2 ^ f.expBits - 1 := by simpa [h4] using htop
        exact ⟨by omega, fun _ => by omega⟩
    rw [encF_normal hf md neg hm (Nat.pos_of_ne_zero h0) hbound.1 hbound.2, hsigned]

end Sys2Proof.Machine
end

section
/-! PROOFS. Long conversions (R25, R26, R109, R110): what their issue leaves outstanding, and what their landing writes (R15, R146). -/

namespace Sys2Proof.Machine

/-! ### Issue -/

/-- What an instruction outstanding for a register makes of it (R28). -/
theorem Slot.blockOf_of_op {s : Slot} {r : RegUse} {o : LongOp} (hr : r.hard = false) (ho : o ∈ s.ops) (hh : o.has r = true) :
    ∃ p, s.blockOf r = some (.pending p) := by
  have hsome : (s.ops.find? (fun x => x.has r)).isSome = true := List.find?_isSome.mpr ⟨o, ho, hh⟩
  obtain ⟨x, hx⟩ := Option.isSome_iff_exists.mp hsome
  refine ⟨x.acc.any (fun a => a.st == .parked), ?_⟩
  simp only [Slot.blockOf, hr, hx, Bool.false_eq_true, if_false]

/-- The device once an instruction of the context is outstanding whose results are settled. -/
def Ctx.opened (c : Ctx) (o : LongOp) : Dev :=
  (({ c.d with count := c.d.count + 1 } : Dev).setSlot c.h c.n { c.s with ops := c.s.ops ++ [o] }).send 0 (.resultLanding c.h c.n o.id)

theorem Ctx.opened_slot (c : Ctx) (o : LongOp) : (c.opened o).slot c.h c.n = { c.s with ops := c.s.ops ++ [o] } :=
  Dev.slot_setSlot_self _ _ _ _

theorem Ctx.opened_sends (c : Ctx) (o : LongOp) : c.d.sends (c.opened o) (.resultLanding c.h c.n o.id) :=
  Dev.sends_send (({ c.d with count := c.d.count + 1 } : Dev).setSlot c.h c.n { c.s with ops := c.s.ops ++ [o] }) 0 _

/-- A form whose results are settled at issue leaves them outstanding, with the message that will land them under way. -/
theorem longValue_acts {i : Instr} {u : Use} {km : KReg} {kz : Bool} (vd : List Nat) (val : Slot → List V512)
    (he : ∀ s, exec i s = longValue u km kz vd val s) :
    Acts i u (fun _ => True) [] [] [] (fun c e => ∃ o,
      (e.slot c.h c.n).ops = c.s.ops ++ [o] ∧ o.pc = c.s.pc ∧ o.vd = vd ∧ o.ad = [] ∧ o.mask = c.s.K km.toNat ∧ o.kz = kz ∧ o.fin = true ∧
      o.vectors = vd.zip (val c.s) ∧ (∀ r, r ∈ vd → ∃ p, (e.slot c.h c.n).blockOf (rvn r) = some (.pending p)) ∧
      c.d.sends e (.resultLanding c.h c.n o.id) ∧ e.still = c.d.still) := by
  refine acts_of he (fun c hc _ => ?_)
  let o : LongOp := ⟨c.d.count, c.s.pc, .value, vd, [], c.s.K km.toNat, kz, [], vd.zip (val c.s), [], 0, 0, true⟩
  have hops : ((c.finish u (c.opened o) (c.s.pc + 8#64)).slot c.h c.n).ops = c.s.ops ++ [o] :=
    congrArg Slot.ops ((c.finish_slot u (c.opened o) _ hc.step).trans (congrArg (Slot.issued · _ _ u) (c.opened_slot o)))
  have hmem : o ∈ ((c.finish u (c.opened o) (c.s.pc + 8#64)).slot c.h c.n).ops :=
    hops ▸ List.mem_append_right _ (List.mem_singleton_self o)
  refine ⟨c.opened o, rfl, (c.opened_slot o).symm ▸ .of_files rfl rfl rfl, o, hops, rfl, rfl, rfl, rfl, rfl, rfl, rfl, fun r hr => ?_, ?_, ?_⟩
  · exact Slot.blockOf_of_op (by simp [RegUse.hard, rvn]) hmem (List.contains_iff_mem.mpr hr)
  · obtain ⟨due, chan, hdue, hnet⟩ := c.opened_sends o
    exact ⟨due, chan, hdue, (c.finish_net u _ _).trans hnet⟩
  · exact c.finish_still u _ _

/-! ### Landing -/

theorem Slot.foldl_setVm_V_ne (s : Slot) (m : BitVec 16) (kz : Bool) (l : List (Nat × V512)) {j : Nat} (hj : j ∉ l.map (·.1)) :
    (l.foldl (fun s e => s.setVm e.1 m kz e.2) s).V j = s.V j := by
  induction l generalizing s with
  | nil => rfl
  | cons e l ih =>
    simp only [List.map_cons, List.mem_cons, not_or] at hj
    rw [List.foldl_cons, ih _ hj.2]
    exact Slot.V_setV_ne _ _ _ _ hj.1

theorem Slot.foldl_setVm_V_mem (s : Slot) (m : BitVec 16) (kz : Bool) (l : List (Nat × V512)) (hn : (l.map (·.1)).Nodup)
    {e : Nat × V512} (he : e ∈ l) : (l.foldl (fun s e => s.setVm e.1 m kz e.2) s).V e.1 = maskV m kz (s.V e.1) e.2 := by
  induction l generalizing s with
  | nil => cases he
  | cons x l ih =>
    rw [List.map_cons, List.nodup_cons] at hn
    rw [List.foldl_cons]
    rcases List.mem_cons.mp he with rfl | hmem
    · rw [Slot.foldl_setVm_V_ne _ _ _ _ hn.1, Slot.setVm, Slot.V_setV_self]
    · rw [ih _ hn.2 hmem, Slot.setVm, Slot.V_setV_ne]
      rintro heq
      exact hn.1 (heq ▸ List.mem_map_of_mem hmem)

/-- Writes of vector registers change nothing else. -/
theorem Slot.foldl_setVm_keeps (s : Slot) (m : BitVec 16) (kz : Bool) (l : List (Nat × V512)) :
    ∃ v, l.foldl (fun s e => s.setVm e.1 m kz e.2) s = { s with vregs := v } :=
  List.foldlRecOn (motive := fun x : Slot => ∃ v, x = { s with vregs := v }) _ _ ⟨_, rfl⟩
    (fun x hx e _ => by obtain ⟨v, rfl⟩ := hx; exact ⟨_, rfl⟩)

theorem Slot.foldl_setA_A_ne (s : Slot) (val : Nat → W64) (l : List Nat) {j : Nat} (hj : j ∉ l) :
    (l.foldl (fun s a => s.setA a (val a)) s).A j = s.A j := by
  induction l generalizing s with
  | nil => rfl
  | cons a l ih =>
    simp only [List.mem_cons, not_or] at hj
    rw [List.foldl_cons, ih _ hj.2, Slot.A_setA_ne _ _ _ _ hj.1]

theorem Slot.foldl_setA_A_mem (s : Slot) (val : Nat → W64) (l : List Nat) {r : Nat} (hr : r ∈ l) (h0 : r ≠ 0) :
    (l.foldl (fun s a => s.setA a (val a)) s).A r = val r := by
  induction l generalizing s with
  | nil => cases hr
  | cons a l ih =>
    rw [List.foldl_cons]
    by_cases hl : r ∈ l
    · exact ih _ hl
    · obtain rfl : r = a := by simpa [hl] using hr
      rw [Slot.foldl_setA_A_ne _ _ _ hl]
      simp [Slot.setA, Slot.A, h0]

/-- Writes of a-registers change nothing else. -/
theorem Slot.foldl_setA_keeps (s : Slot) (val : Nat → W64) (l : List Nat) :
    ∃ a, l.foldl (fun s a => s.setA a (val a)) s = { s with aregs := a } :=
  List.foldlRecOn (motive := fun x : Slot => ∃ v, x = { s with aregs := v }) _ _ ⟨_, rfl⟩
    (fun x hx e _ => by
      obtain ⟨v, rfl⟩ := hx
      unfold Slot.setA
      split
      · exact ⟨v, rfl⟩
      · exact ⟨_, rfl⟩)

/-- What a landing leaves of its slot: registers written, and the instruction off the list. -/
structure Slot.Landed (a b : Slot) (o : LongOp) : Prop where
  pc : b.pc = a.pc
  kregs : ∀ j, b.K j = a.K j
  ops : b.ops = a.ops.filter (fun x => x.id != o.id)
  vkept : ∀ j, j ∉ o.vectors.map (·.1) → b.V j = a.V j
  akept : ∀ j, j ∉ o.ad → b.A j = a.A j
  vwritten : ∀ e, e ∈ o.vectors → b.V e.1 = maskV o.mask o.kz (a.V e.1) e.2
  awritten : ∀ r, r ∈ o.ad → r ≠ 0 → b.A r = ((o.ares.find? (fun e => e.1 == r)).map (·.2)).getD 0#64

theorem Slot.landed_landed (s : Slot) (o : LongOp) (hn : (o.vectors.map (·.1)).Nodup) : s.Landed (s.landed o) o := by
  let val : Nat → W64 := fun a => ((o.ares.find? (fun e => e.1 == a)).map (·.2)).getD 0#64
  have hv := s.foldl_setVm_keeps o.mask o.kz o.vectors
  have hvne := fun j => s.foldl_setVm_V_ne o.mask o.kz o.vectors (j := j)
  have hvmem := fun e => s.foldl_setVm_V_mem o.mask o.kz o.vectors hn (e := e)
  unfold Slot.landed
  dsimp only
  generalize o.vectors.foldl (fun s e => s.setVm e.1 o.mask o.kz e.2) s = x at *
  obtain ⟨v, rfl⟩ := hv
  have ha := ({ s with vregs := v } : Slot).foldl_setA_keeps val o.ad
  have hane := fun j => ({ s with vregs := v } : Slot).foldl_setA_A_ne val o.ad (j := j)
  have hamem := fun r => ({ s with vregs := v } : Slot).foldl_setA_A_mem val o.ad (r := r)
  generalize hx : o.ad.foldl (fun s a => s.setA a (val a)) { s with vregs := v } = y at *
  obtain ⟨w, rfl⟩ := ha
  exact ⟨rfl, fun _ => rfl, rfl, fun j hj => hvne j hj, fun j hj => hane j hj, fun e he => hvmem e he, fun r hr h0 => hamem r hr h0⟩

/-- Slot x once waked, or as it is. -/
theorem Slot.Landed.toReady {a b : Slot} {o : LongOp} (h : a.Landed b o) (clock : Nat) : a.Landed (b.toReady clock) o :=
  ⟨h.pc, h.kregs, h.ops, h.vkept, h.akept, h.vwritten, h.awritten⟩

/-- Waking a slot changes nothing but its state and the cycle since which it is READY. -/
theorem Dev.wakeSlot_eq (d : Dev) (h n : Nat) (p : WaitFor → Bool) :
    d.wakeSlot h n p = d ∨ d.wakeSlot h n p = d.updSlot h n (fun s => s.toReady d.clock) := by
  unfold Dev.wakeSlot
  split
  · split
    · exact Or.inr rfl
    · exact Or.inl rfl
  · exact Or.inl rfl

/-- The landing of an instruction whose accesses are answered writes its slot alone, and its poison there. -/
theorem Dev.landResult_landed {d : Dev} {h n op : Nat} {o : LongOp} (ho : d.op? h n op = some o) (hf : o.fin = true)
    (hn : (o.vectors.map (·.1)).Nodup) :
    (d.slot h n).Landed ((d.landResult h n op).slot h n) o ∧ (d.landResult h n op).still = d.still ∧
      ∀ h' n', ¬(h' = h ∧ n' = n) → (d.landResult h n op).slot h' n' = d.slot h' n' := by
  unfold Dev.landResult
  simp only [ho, hf, Bool.not_true, Bool.false_eq_true, if_false]
  generalize hd : (if (o.kz || o.mask == 0xFFFF#16) && !(d.core h).rfPoison.isEmpty then
      d.updCore h (fun c => { c with rfPoison := c.rfPoison.filter (fun e => !(o.vd.map ((d.core h).entryOf n)).contains e) }) else d) = e
  have hslots : ∀ h' n', e.slot h' n' = d.slot h' n' := by
    intro h' n'
    subst hd
    split
    · refine Dev.slot_updCore_of ?_ d h h' n'
      exact fun _ _ => rfl
    · rfl
  have hstill : e.still = d.still := by
    subst hd
    split <;> rfl
  have hself : (e.updSlot h n (fun s => s.landed o)).slot h n = (d.slot h n).landed o := by
    rw [Dev.slot_updSlot_self, hslots]
  have hne : ∀ h' n', ¬(h' = h ∧ n' = n) → (e.updSlot h n (fun s => s.landed o)).slot h' n' = d.slot h' n' :=
    fun h' n' hk => (Dev.slot_updSlot_ne _ _ _ _ _ _ hk).trans (hslots h' n')
  rcases Dev.wakeSlot_eq (e.updSlot h n (fun s => s.landed o)) h n (· == .reply) with hw | hw <;> rw [hw]
  · exact ⟨hself ▸ Slot.landed_landed _ _ hn, hstill, hne⟩
  · refine ⟨?_, hstill, fun h' n' hk => (Dev.slot_updSlot_ne _ _ _ _ _ _ hk).trans (hne h' n' hk)⟩
    rw [Dev.slot_updSlot_self, hself]
    exact (Slot.landed_landed _ _ hn).toReady _

/-- Settles O12: issue by `longValue`, landing by `landResult`. -/
theorem longConversions : Obligations.LongConversions := by
  refine ⟨fun la dst src rnd km kz d a b => ⟨longValue_acts [d.toNat]
        (fun s => [ofLanes (fun l => conv dst src (s.mode rnd) s.ftz s.sat (s.ln a l))]) (fun _ => rfl),
      longValue_acts [d.toNat, d.toNat + 1] (fun s =>
        [ofLanes (fun l => (convScale dst src (s.mode rnd) s.ftz (s.ln a l) (s.ln b l)).1),
         ofLanes (fun l => (convScale dst src (s.mode rnd) s.ftz (s.ln a l) (s.ln b l)).2)]) (fun _ => rfl)⟩,
    fun s h n op o hn ho hf hnodup => ?_⟩
  obtain ⟨hl, hstill, hne⟩ := Dev.landResult_landed ho hf hnodup
  have hid : o.id = op := by simpa using List.find?_some ho
  refine ⟨_, rfl, fun a => ?_, hstill, hne, hl.pc, hl.kregs, hid ▸ hl.ops, hl.vkept, hl.akept, fun e he l hl' => ?_, hl.awritten⟩
  · show (s.mem.writeAll (Dev.awayCells s.dev (s.dev.landResult h n op) s.mem h n)).read a = _
    rw [Dev.awayCells, if_pos hn]
    rfl
  · exact (congrArg (lane · l) (hl.vwritten e he)).trans (lane_maskV _ _ _ _ _ hl')

end Sys2Proof.Machine
end

section
/-! PROOFS. Local-store forms: alignment, loads and stores of plain words, tags and peeks (R113, R119, R120, R130); global forms' ALIGN
(R148). -/

namespace Sys2Proof.Machine

/-! ### Lanes in order -/

/-- The lowest active lane of which something holds. -/
theorem find?_lanesOf {m : BitVec 16} {p : Nat → Bool} {l : Nat} (hl : l < 16) (hm : m.getLsbD l = true) (hp : p l = true)
    (hlow : ∀ j, j < l → m.getLsbD j = true → p j = false) : (lanesOf m).find? p = some l := by
  rw [lanesOf, List.find?_filter, List.find?_range_eq_some]
  refine ⟨by simp [hm, hp], List.mem_range.mpr hl, fun j hj => ?_⟩
  cases hmj : m.getLsbD j
  · simp
  · simp [hlow j hj hmj]

theorem mem_lanesOf {m : BitVec 16} {l : Nat} : l ∈ lanesOf m ↔ l < 16 ∧ m.getLsbD l = true := by
  rw [lanesOf, List.mem_filter, List.mem_range]

/-! ### Misaligned accesses (R56, R113, R148) -/

/-- A slot none of whose settled lanes trapped raises nothing. -/
theorem Ctx.raiseLane_none (c : Ctx) (single : Bool) (ws : List LaneWord) {d : Dev} (h : ∀ r, r ∈ (d.slot c.h c.n).residue → r.trap = none) :
    c.raiseLane single ws d = none := by
  have hnone : ∀ w : LaneWord, (d.slot c.h c.n).residue.find? (fun r => r.lane == w.lane && r.part == w.part && r.trap.isSome) = none := by
    intro w
    refine List.find?_eq_none.mpr fun r hr => ?_
    simp [h r hr]
  simp only [Ctx.raiseLane, hnone, Option.map_none]
  rw [List.findSome?_eq_none_iff.mpr (fun _ _ => rfl)]
  rfl

/-- Of a slot without residue no lane word has been performed. -/
theorem Slot.resDone_of_nil {s : Slot} (h : s.residue = []) (l p : Nat) : s.resDone l p = false := by
  rw [Slot.resDone, h]
  rfl

/-- The lowest misaligned word is raised before anything else. -/
theorem Ctx.access_misaligned {c : Ctx} (hc : c.Ready) (hres : c.s.residue = []) (k : BankKind) (single : Bool) (align : Nat)
    (ws : List LaneWord) (fin : Slot → Slot) {w : LaneWord}
    (hw : ws.find? (fun w => w.part == 0 && w.addr.toNat % align != 0) = some w) :
    ∃ lanes, c.access k single align ws fin = .trap c.d ⟨0x05, 0, w.addr, lanes⟩ := by
  have hraise : c.raiseLane single ws c.d = none := c.raiseLane_none single ws (by rw [hc.own, hres]; exact fun _ h => nomatch h)
  simp only [Ctx.access, Ctx.touch, hraise, Slot.resDone_of_nil hres, Bool.not_false, List.filter_true, Ctx.checkLanes, hw]
  cases single
  · exact ⟨_, rfl⟩
  · exact ⟨_, rfl⟩

/-- A search through pairs of which the second never fits. -/
theorem find?_pairs {α β : Type} (a b : α → β) {p : β → Bool} (hb : ∀ x, p (b x) = false) (xs : List α) :
    (xs.flatMap (fun x => [a x, b x])).find? p = (xs.find? (fun x => p (a x))).map a := by
  induction xs with
  | nil => rfl
  | cons x xs ih =>
    rw [List.flatMap_cons, List.cons_append, List.cons_append, List.nil_append, List.find?_cons, List.find?_cons, List.find?_cons, hb x]
    cases p (a x)
    · exact ih
    · rfl

/-- Lane l is the lowest active lane whose address is no multiple of the form's size. -/
structure Slot.LowestMisaligned (s : Slot) (km : KReg) (x : VReg) (base : AReg) (off : BitVec 24) (step l : Nat) : Prop where
  bound : l < 16
  active : (s.K km.toNat).getLsbD l = true
  odd : (s.addr base x off step l).toNat % step ≠ 0
  lowest : ∀ m, m < l → (s.K km.toNat).getLsbD m = true → (s.addr base x off step m).toNat % step = 0

section
variable {s : Slot} {km : KReg} {x : VReg} {base : AReg} {off : BitVec 24} {step l : Nat}

theorem Slot.LowestMisaligned.find (h : s.LowestMisaligned km x base off step l) :
    (lanesOf (s.K km.toNat)).find? (fun m => (s.addr base x off step m).toNat % step != 0) = some l :=
  find?_lanesOf h.bound h.active (by simpa using h.odd) (fun m hm ha => by simpa using h.lowest m hm ha)

theorem Slot.LowestMisaligned.find_words1 (d : VReg) (h : s.LowestMisaligned km x base off 4 l) :
    (s.words1 km d x base off).find? (fun w => w.part == 0 && w.addr.toNat % 4 != 0) =
      some ⟨l, 0, s.addr base x off 4 l, lane (s.V d.toNat) l⟩ := by
  rw [Slot.words1, List.find?_map]
  exact congrArg (Option.map _) h.find

theorem Slot.LowestMisaligned.find_words2 (d : VReg) (h : s.LowestMisaligned km x base off 8 l) :
    (s.words2 km d x base off).find? (fun w => w.part == 0 && w.addr.toNat % 8 != 0) =
      some ⟨l, 0, s.addr base x off 8 l, lane (s.V d.toNat) l⟩ := by
  rw [Slot.words2, find?_pairs _ _ (fun _ => rfl)]
  exact congrArg (Option.map _) h.find

theorem Slot.LowestMisaligned.find_lanesAt (h : s.LowestMisaligned km x base off step l) :
    (s.lanesAt km x base off step).find? (fun a => a.2.toNat % step != 0) = some (l, s.addr base x off step l) := by
  rw [Slot.lanesAt, List.find?_map]
  exact congrArg (Option.map _) h.find

end

/-- ald and ast of a misaligned address. -/
theorem Slot.find_wordsA {s : Slot} (d : AReg) {base : AReg} {off : BitVec 24} (h : (s.addr1 base off).toNat % 8 ≠ 0) :
    (s.wordsA d base off).find? (fun w => w.part == 0 && w.addr.toNat % 8 != 0) =
      some ⟨0, 0, s.addr1 base off, (s.A d.toNat).setWidth 32⟩ := by
  rw [Slot.wordsA, List.find?_cons, show (((s.addr1 base off).toNat % 8 != 0) = true) by simpa using h]
  rfl

theorem Ctx.load_misaligned (c : Ctx) (kind : OpKind) (vd : List Nat) (mask : BitVec 16) (kz : Bool) (parts : Nat)
    {as : List (Nat × W64)} {a : Nat × W64} (h : as.find? (fun a => a.2.toNat % (4 * parts) != 0) = some a) :
    c.load kind vd mask kz parts as = .trap c.d ⟨0x05, 0, a.2, mask⟩ := by
  simp only [Ctx.load, h, Ctx.faultLanes]

theorem Ctx.store_misaligned (c : Ctx) (mask : BitVec 16) (align : Nat) {as : List (Nat × W64)} (words : List StWord)
    {a : Nat × W64} (h : as.find? (fun a => a.2.toNat % align != 0) = some a) :
    c.store mask align as words = .trap c.d ⟨0x05, 0, a.2, mask⟩ := by
  simp only [Ctx.store, h, Ctx.faultLanes]

/-- Settles O14: ALIGN is the first check of a form. -/
theorem misalignedAccessesTrap : Obligations.MisalignedAccessesTrap := by
  refine ⟨fun kind km kz d x e base off l => ⟨?lld, ?lst, ?lldx, ?lstx, ?ald, ?ast⟩, fun la km kz d x base off l => ⟨?gld, ?gldx, ?gst, ?gstx⟩⟩
  case lld =>
    exact trapsWhen_of (fun _ => rfl) (fun c hc ⟨hres, h1, h2, h3, h4⟩ =>
      c.access_misaligned hc hres _ _ _ _ _ (Slot.LowestMisaligned.find_words1 d ⟨h1, h2, h3, h4⟩))
  case lst =>
    exact trapsWhen_of (fun _ => rfl) (fun c hc ⟨hres, h1, h2, h3, h4⟩ =>
      c.access_misaligned hc hres _ _ _ _ _ (Slot.LowestMisaligned.find_words1 d ⟨h1, h2, h3, h4⟩))
  case lldx =>
    exact trapsWhen_of (fun _ => rfl) (fun c hc ⟨hres, h1, h2, h3, h4⟩ =>
      c.access_misaligned hc hres _ _ _ _ _ (Slot.LowestMisaligned.find_words2 d ⟨h1, h2, h3, h4⟩))
  case lstx =>
    exact trapsWhen_of (fun _ => rfl) (fun c hc ⟨hres, h1, h2, h3, h4⟩ =>
      c.access_misaligned hc hres _ _ _ _ _ (Slot.LowestMisaligned.find_words2 d ⟨h1, h2, h3, h4⟩))
  case ald =>
    exact trapsWhen_of (fun _ => rfl) (fun c hc ⟨hres, h⟩ => c.access_misaligned hc hres _ _ _ _ _ (Slot.find_wordsA e h))
  case ast =>
    exact trapsWhen_of (fun _ => rfl) (fun c hc ⟨hres, h⟩ => c.access_misaligned hc hres _ _ _ _ _ (Slot.find_wordsA e h))
  case gld =>
    exact trapsWhen_of (body := fun c => c.load (.gld d.toNat) [d.toNat] (c.s.K km.toNat) kz 1 (c.s.lanesAt km x base off 4))
      (fun _ => rfl) (fun c _ ⟨h1, h2, h3, h4⟩ => ⟨_, c.load_misaligned _ _ _ _ 1 (Slot.LowestMisaligned.find_lanesAt ⟨h1, h2, h3, h4⟩)⟩)
  case gldx =>
    exact trapsWhen_of
      (body := fun c => c.load (.gldx d.toNat) [d.toNat, d.toNat + 1] (c.s.K km.toNat) kz 2 (c.s.lanesAt km x base off 8))
      (fun _ => rfl) (fun c _ ⟨h1, h2, h3, h4⟩ => ⟨_, c.load_misaligned _ _ _ _ 2 (Slot.LowestMisaligned.find_lanesAt ⟨h1, h2, h3, h4⟩)⟩)
  case gst =>
    exact trapsWhen_of (fun _ => by unfold exec execGst; rfl) (fun c _ ⟨h1, h2, h3, h4⟩ =>
      ⟨_, c.store_misaligned _ _ _ (Slot.LowestMisaligned.find_lanesAt ⟨h1, h2, h3, h4⟩)⟩)
  case gstx =>
    exact trapsWhen_of (fun _ => by unfold exec execGstx; rfl) (fun c _ ⟨h1, h2, h3, h4⟩ =>
      ⟨_, c.store_misaligned _ _ _ (Slot.LowestMisaligned.find_lanesAt ⟨h1, h2, h3, h4⟩)⟩)

/-! ### Words of a bank that no table acts on (R119, R130) -/

/-- A word of a core that an access of launch lk reaches without waiting and without a table's action. -/
structure Core.Plain (k : Core) (lk : Nat) (load : Bool) (a : Nat) : Prop where
  low : a < 2 ^ 20
  reg : ∃ key g, k.regionOf a = some (key, g) ∧ key / 16 = lk ∧ rgnTbl g = 0
  free : ∀ p, p ∈ k.parked → p.addr ≠ a
  good : load = true → k.lsPoison.contains (a / 4) = false
  open_ : load = false → k.sealedAt a = false

theorem Ctx.plainWord.plain {c : Ctx} {load : Bool} {a : W64} (h : c.plainWord load a) :
    (c.d.core c.h).Plain c.s.lk load a.toNat := ⟨h.low, h.reg, h.free, h.good, h.open_⟩

/-- The slots of a core have no part in it. -/
theorem Core.Plain.congr {k k' : Core} {lk : Nat} {load : Bool} {a : Nat} (h : k.Plain lk load a) (hk : k'.bare = k.bare) :
    k'.Plain lk load a := by
  have hmap : k'.map = k.map := (congrArg Core.map hk :)
  have hparked : k'.parked = k.parked := (congrArg Core.parked hk :)
  have hpoison : k'.lsPoison = k.lsPoison := (congrArg Core.lsPoison hk :)
  have hobjs : k'.objs = k.objs := (congrArg Core.objs hk :)
  obtain ⟨hlow, hreg, hfree, hgood, hopen⟩ := h
  refine ⟨hlow, ?_, hparked ▸ hfree, hpoison ▸ hgood, ?_⟩
  · rw [Core.regionOf, hmap]
    exact hreg
  · rw [Core.sealedAt, hobjs]
    exact hopen

/-- A store elsewhere leaves a store's word plain. -/
theorem Core.Plain.setWord {k : Core} {lk a : Nat} (h : k.Plain lk false a) (b : Nat) (v : W32) : (k.setWord b v).Plain lk false a :=
  ⟨h.low, h.reg, h.free, fun hl => (nomatch hl), h.open_⟩

theorem Core.bankStep_load {k : Core} {lk a : Nat} (h : k.Plain lk true a) {kind : BankKind} (hkind : kind.load = true) (v : W32) :
    k.bankStep a kind v = (.out (k.word a), k, false) := by
  obtain ⟨-, ⟨key, g, hreg, -, htbl⟩, -, hgood, -⟩ := h
  simp [Core.bankStep, hreg, hkind, hgood rfl, htbl, Core.entry, actOf, setTagOf, Core.target, -List.contains_eq_mem]

theorem Core.bankStep_store {k : Core} {lk a : Nat} (h : k.Plain lk false a) {kind : BankKind} (hkind : kind.load = false) (v : W32) :
    k.bankStep a kind v = (.out 0#32, k.setWord a v, false) := by
  obtain ⟨-, ⟨key, g, hreg, -, htbl⟩, -, -, hopen⟩ := h
  simp [Core.bankStep, hreg, hkind, hopen rfl, htbl, Core.entry, actOf, setTagOf, Core.target]

theorem Core.refuses_plain {k : Core} {lk a : Nat} {kind : BankKind} (h : k.Plain lk kind.load a) : k.refuses kind a = none := by
  obtain ⟨-, ⟨key, g, hreg, -, htbl⟩, -, -, hopen⟩ := h
  cases hkind : kind.load <;>
    simp_all [Core.refuses, Core.entry, actOf, setTagOf, Core.target]

theorem Ctx.outside_plain {c : Ctx} {load : Bool} {w : LaneWord} (h : (c.d.core c.h).Plain c.s.lk load w.addr.toNat) :
    c.outside w = false := by
  obtain ⟨hlow, ⟨key, g, hreg, hkey, -⟩, -, -, -⟩ := h
  simpa [Ctx.outside, Core.inLaunch, hreg, hkey] using hlow

theorem Core.slot_setWord (k : Core) (a : Nat) (v : W32) (n : Nat) : (k.setWord a v).slot n = k.slot n := rfl
theorem Core.bare_setWord (k : Core) (a : Nat) (v : W32) : (k.setWord a v).bare = k.bare.setWord a v := rfl

/-! ### Lane words sent and settled (R113, R124) -/

/-- The residue of a lane word that was performed. -/
def LaneWord.settled (w : LaneWord) (v : W32) : ResLane := ⟨w.lane, w.part, v, none⟩

/-- The context's device once some lane words of its instruction are settled: their residue stands in the slot, and its core is
k (its slots apart). -/
structure Ctx.Sent (c : Ctx) (d : Dev) (rs : List ResLane) (k : Core) : Prop where
  slot : ∃ st t y, d.slot c.h c.n = { c.s with residue := rs, st := st, readyAt := t, yielded := y }
  slots : ∀ h n, ¬(h = c.h ∧ n = c.n) → d.slot h n = c.d.slot h n
  others : ∀ h, h ≠ c.h → d.core h = c.d.core h
  core : (d.core c.h).bare = k.bare
  dev : d.bare = c.d.bare

theorem Ctx.Sent.refl {c : Ctx} (hc : c.Ready) (hres : c.s.residue = []) : c.Sent c.d [] (c.d.core c.h) := by
  refine ⟨⟨c.s.st, c.s.readyAt, c.s.yielded, ?_⟩, fun _ _ _ => rfl, fun _ _ => rfl, rfl, rfl⟩
  rw [hc.own, ← hres]

section
variable {c : Ctx} {d : Dev} {rs : List ResLane} {k : Core}

/-- A change of the slot's residue, or of its state. -/
theorem Ctx.Sent.updSlot (h : c.Sent d rs k) {f : Slot → Slot} {rs' : List ResLane}
    (hf : ∀ st t y, ∃ st' t' y', f { c.s with residue := rs, st := st, readyAt := t, yielded := y } =
      { c.s with residue := rs', st := st', readyAt := t', yielded := y' }) :
    c.Sent (d.updSlot c.h c.n f) rs' k := by
  obtain ⟨⟨st, t, y, hslot⟩, hslots, hothers, hcore, hdev⟩ := h
  refine ⟨?_, fun h' n' hne => ?_, fun h' hne => ?_, ?_, hdev⟩
  · rw [Dev.slot_updSlot_self, hslot]
    exact hf st t y
  · exact (Dev.slot_updSlot_ne _ _ _ _ _ _ hne).trans (hslots h' n' hne)
  · exact (Dev.core_updCore_ne _ _ _ _ hne).trans (hothers h' hne)
  · exact (Dev.core_updSlot_bare _ _ _ _ _).trans hcore

/-- A change of the core outside its slots. -/
theorem Ctx.Sent.setCore (h : c.Sent d rs k) {k' x : Core} (hslot : ∀ n, x.slot n = (d.core c.h).slot n) (hx : x.bare = k'.bare) :
    c.Sent (d.updCore c.h (fun _ => x)) rs k' := by
  have hsame : ∀ h' n', (d.updCore c.h (fun _ => x)).slot h' n' = d.slot h' n' := by
    intro h' n'
    by_cases hh : h' = c.h
    · subst hh
      simp [Dev.slot, hslot]
    · simp [Dev.slot, Dev.core_updCore_ne _ _ _ _ hh]
  obtain ⟨⟨st, t, y, hs⟩, hslots, hothers, -, hdev⟩ := h
  refine ⟨⟨st, t, y, (hsame _ _).trans hs⟩, fun h' n' hne => (hsame _ _).trans (hslots h' n' hne), fun h' hne => ?_, ?_, hdev⟩
  · exact (Dev.core_updCore_ne _ _ _ _ hne).trans (hothers h' hne)
  · rw [Dev.core_updCore_self]
    exact hx

theorem Ctx.Sent.wakeSlot (h : c.Sent d rs k) (p : WaitFor → Bool) : c.Sent (d.wakeSlot c.h c.n p) rs k := by
  obtain hw | hw := d.wakeSlot_eq c.h c.n p
  · rw [hw]
    exact h
  · rw [hw]
    exact h.updSlot (fun _ _ _ => ⟨.ready, d.clock, false, rfl⟩)

/-- A lane word that is performed joins the residue. -/
theorem Ctx.Sent.settleOwn (h : c.Sent d rs k) (w : LaneWord) (v : W32) :
    c.Sent (d.settleOwn c.h c.n w.lane w.part (.out v)) (rs ++ [w.settled v]) k := by
  have hadd := h.updSlot (f := fun s => { s with residue := s.residue ++ [w.settled v] }) (rs' := rs ++ [w.settled v])
    (fun st t y => ⟨st, t, y, rfl⟩)
  unfold Dev.settleOwn
  dsimp only
  split
  · exact hadd.wakeSlot _
  · exact hadd

/-- Nothing is parked on a plain word, so that its access goes to its bank. -/
theorem Ctx.Sent.sendLane_eq (h : c.Sent d rs k) {lk : Nat} {w : LaneWord} {kind : BankKind} {load : Bool}
    (hp : k.Plain lk load w.addr.toNat) {v : W32} {x : Core}
    (hstep : (d.core c.h).bankStep w.addr.toNat kind w.data = (.out v, x, false)) :
    c.sendLane kind d w = (d.updCore c.h (fun _ => x)).settleOwn c.h c.n w.lane w.part (.out v) := by
  have hfree := (hp.congr h.core).free
  have hbehind : ∀ q : Parked → Bool, (d.core c.h).parked.find? (fun p => p.addr == w.addr.toNat && q p) = none :=
    fun q => List.find?_eq_none.mpr fun p hp => by simp [hfree p hp]
  simp only [Ctx.sendLane, hbehind, Dev.bankOp, hstep, Bool.false_eq_true, if_false]

theorem Ctx.Sent.load (h : c.Sent d rs k) {lk : Nat} {w : LaneWord} {kind : BankKind} (hkind : kind.load = true)
    (hp : k.Plain lk true w.addr.toNat) : c.Sent (c.sendLane kind d w) (rs ++ [w.settled (k.word w.addr.toNat)]) k := by
  have hword : (d.core c.h).word w.addr.toNat = k.word w.addr.toNat := (congrArg (Core.word · w.addr.toNat) h.core :)
  rw [h.sendLane_eq hp (Core.bankStep_load (hp.congr h.core) hkind w.data), hword]
  exact (h.setCore (fun _ => rfl) h.core).settleOwn w _

theorem Ctx.Sent.store (h : c.Sent d rs k) {lk : Nat} {w : LaneWord} {kind : BankKind} (hkind : kind.load = false)
    (hp : k.Plain lk false w.addr.toNat) : c.Sent (c.sendLane kind d w) (rs ++ [w.settled 0#32]) (k.setWord w.addr.toNat w.data) := by
  rw [h.sendLane_eq hp (Core.bankStep_store (hp.congr h.core) hkind w.data)]
  have hbare : ((d.core c.h).setWord w.addr.toNat w.data).bare = (k.setWord w.addr.toNat w.data).bare := by
    rw [Core.bare_setWord, h.core, Core.bare_setWord]
  exact (h.setCore (Core.slot_setWord _ _ _) hbare).settleOwn w _

/-- Words sent one after another, each of which takes the core on by one step. -/
theorem Ctx.Sent.foldl {send : Dev → LaneWord → Dev} {put : Core → LaneWord → Core} {val : LaneWord → W32} {good : Core → Prop}
    (ws : List LaneWord) (hstep : ∀ w, w ∈ ws → ∀ d rs k, c.Sent d rs k → good k →
      c.Sent (send d w) (rs ++ [w.settled (val w)]) (put k w) ∧ good (put k w))
    (h : c.Sent d rs k) (hk : good k) :
    c.Sent (ws.foldl send d) (rs ++ ws.map (fun w => w.settled (val w))) (ws.foldl put k) := by
  induction ws generalizing d rs k with
  | nil => simpa using h
  | cons w ws ih =>
    obtain ⟨h1, hk1⟩ := hstep w List.mem_cons_self d rs k h hk
    have := ih (fun x hx => hstep x (List.mem_cons_of_mem _ hx)) h1 hk1
    rwa [List.append_assoc] at this

end

/-- A form all of whose words are good ones completes from their residue. -/
theorem Ctx.touch_done {c : Ctx} (hc : c.Ready) (hres : c.s.residue = []) {single : Bool} {align : Nat} {ws : List LaneWord}
    {refuses : Nat → Option Nat} {send : Dev → LaneWord → Dev} {fin : Slot → Slot} {val : LaneWord → W32} {k : Core}
    (halign : ∀ w, w ∈ ws → w.part = 0 → w.addr.toNat % align = 0) (hin : ∀ w, w ∈ ws → c.outside w = false)
    (hopen : ∀ w, w ∈ ws → refuses w.addr.toNat = none) (hback : ∀ w, w ∈ ws → (c.d.core c.h).unrestored w.addr.toNat = false)
    (hsent : c.Sent (ws.foldl send c.d) (ws.map (fun w => w.settled (val w))) k) :
    c.touch single align ws refuses send fin =
      .done ((ws.foldl send c.d).setSlot c.h c.n (fin ((ws.foldl send c.d).slot c.h c.n))) := by
  have hr1 : c.raiseLane single ws c.d = none := c.raiseLane_none single ws (by rw [hc.own, hres]; exact fun _ h => nomatch h)
  have hresidue : ((ws.foldl send c.d).slot c.h c.n).residue = ws.map (fun w => w.settled (val w)) := by
    obtain ⟨_, _, _, h⟩ := hsent.slot
    rw [h]
  have hr2 : c.raiseLane single ws (ws.foldl send c.d) = none := by
    refine c.raiseLane_none single ws (fun r hr => ?_)
    rw [hresidue, List.mem_map] at hr
    obtain ⟨w, -, rfl⟩ := hr
    rfl
  have hcheck : ∀ flt, c.checkLanes align ws refuses flt = none := by
    intro flt
    have hfind : ws.find? (fun w => w.part == 0 && w.addr.toNat % align != 0) = none :=
      List.find?_eq_none.mpr fun w hw => by simpa using halign w hw
    simp only [Ctx.checkLanes, hfind]
    exact List.findSome?_eq_none_iff.mpr fun w hw => by simp [hin w hw, hopen w hw]
  have hrest : ws.any (fun w => (c.d.core c.h).unrestored w.addr.toNat) = false := by simpa using hback
  have hall : ws.all (fun w => ((ws.foldl send c.d).slot c.h c.n).resDone w.lane w.part) = true := by
    refine List.all_eq_true.mpr fun w hw => ?_
    rw [Slot.resDone, hresidue, List.any_map]
    exact List.any_eq_true.mpr ⟨w, hw, by simp [LaneWord.settled]⟩
  simp only [Ctx.touch, hr1, Slot.resDone_of_nil hres, Bool.not_false, List.filter_true, hcheck, hrest, Bool.false_eq_true, if_false, hr2,
    hall, if_true]

/-- A lane word's data stand in the residue. -/
theorem Slot.resData_of {s : Slot} {ws : List LaneWord} {val : LaneWord → W32} {l p : Nat} {v : W32}
    (hres : s.residue = ws.map (fun w => w.settled (val w))) (hmem : ∃ w, w ∈ ws ∧ w.lane = l ∧ w.part = p)
    (hval : ∀ w, w ∈ ws → w.lane = l → w.part = p → val w = v) : s.resData l p = v := by
  obtain ⟨w, hw, hl, hp⟩ := hmem
  have hsome : ((ws.map (fun w => w.settled (val w))).find? (fun r => r.lane == l && r.part == p && r.trap.isNone)).isSome = true := by
    rw [List.find?_isSome]
    exact ⟨w.settled (val w), List.mem_map_of_mem hw, by simp [LaneWord.settled, hl, hp]⟩
  rw [Slot.resData, hres]
  obtain ⟨r, hr⟩ := Option.isSome_iff_exists.mp hsome
  have hfit := List.find?_some hr
  obtain ⟨x, hx, rfl⟩ := List.mem_map.mp (List.mem_of_find?_eq_some hr)
  rw [hr]
  simp only [LaneWord.settled, Bool.and_eq_true, beq_iff_eq] at hfit
  exact hval x hx hfit.1.1 hfit.1.2

/-- The words of an access that nothing hinders. -/
structure Ctx.GoodWords (c : Ctx) (load : Bool) (align : Nat) (ws : List LaneWord) : Prop where
  fresh : c.s.residue = []
  aligned : ∀ w, w ∈ ws → w.part = 0 → w.addr.toNat % align = 0
  plain : ∀ w, w ∈ ws → c.plainWord load w.addr

/-- The slot once the words of an access are settled. -/
def Slot.withResidue (s : Slot) (rs : List ResLane) (st : SlotSt) (t : Nat) (y : Bool) : Slot :=
  { s with residue := rs, st := st, readyAt := t, yielded := y }

theorem KeptRegs.withResidue (s : Slot) (rs : List ResLane) (st : SlotSt) (t : Nat) (y : Bool) :
    KeptRegs s (s.withResidue rs st t y) [] [] [] := ⟨fun _ _ => rfl, fun _ _ => rfl, fun _ _ => rfl, rfl, rfl⟩

/-- An access of good words ends with all of them settled. -/
theorem Ctx.access_done {c : Ctx} (hc : c.Ready) {kind : BankKind} {single : Bool} {align : Nat} {ws : List LaneWord}
    {fin : Slot → Slot} {val : LaneWord → W32} {k : Core} (h : c.GoodWords kind.load align ws)
    (hsent : c.Sent (ws.foldl (c.sendLane kind) c.d) (ws.map (fun w => w.settled (val w))) k) :
    c.access kind single align ws fin = .done ((ws.foldl (c.sendLane kind) c.d).setSlot c.h c.n
      (fin ((ws.foldl (c.sendLane kind) c.d).slot c.h c.n))) :=
  c.touch_done hc h.fresh h.aligned (fun w hw => Ctx.outside_plain (h.plain w hw).plain)
    (fun w hw => Core.refuses_plain (h.plain w hw).plain) (fun w hw => (h.plain w hw).back) hsent

theorem Ctx.sent_loads {c : Ctx} (hc : c.Ready) {kind : BankKind} (hkind : kind.load = true) {align : Nat} {ws : List LaneWord}
    (h : c.GoodWords true align ws) : c.Sent (ws.foldl (c.sendLane kind) c.d)
      (ws.map (fun w => w.settled ((c.d.core c.h).word w.addr.toNat))) (c.d.core c.h) := by
  have hfold := (Ctx.Sent.refl hc h.fresh).foldl (send := c.sendLane kind) (put := fun k _ => k) (good := fun k => k = c.d.core c.h)
    (val := fun w => (c.d.core c.h).word w.addr.toNat) ws (fun w hw d rs k hk hg => by
      subst hg
      exact ⟨hk.load hkind (h.plain w hw).plain, rfl⟩) rfl
  rwa [List.foldl_fixed, List.nil_append] at hfold

/-- Words stored into a core, in order. -/
def Core.setWords (k : Core) (ws : List LaneWord) : Core := ws.foldl (fun k w => k.setWord w.addr.toNat w.data) k

theorem Ctx.sent_stores {c : Ctx} (hc : c.Ready) {kind : BankKind} (hkind : kind.load = false) {align : Nat} {ws : List LaneWord}
    (h : c.GoodWords false align ws) : c.Sent (ws.foldl (c.sendLane kind) c.d) (ws.map (fun w => w.settled 0#32))
      ((c.d.core c.h).setWords ws) :=
  (Ctx.Sent.refl hc h.fresh).foldl (send := c.sendLane kind) (put := fun k w => k.setWord w.addr.toNat w.data)
    (good := fun k => ∀ w, w ∈ ws → k.Plain c.s.lk false w.addr.toNat) (val := fun _ => 0#32) ws
    (fun w hw d rs k hk hg => ⟨hk.store hkind (hg w hw), fun x hx => (hg x hx).setWord _ _⟩) (fun w hw => (h.plain w hw).plain)

/-- A form that reads words and ends with all of them settled completes: it changes its slot alone. -/
theorem readForm_completes {i : Instr} {u : Use} {body : Ctx → Res} {pre : Ctx → Prop} {as vs ks : List Nat} {post : Ctx → Slot → Prop}
    (rs : Ctx → List ResLane) (fin : Ctx → Slot → Slot) (he : ∀ s, exec i s = thread u body s)
    (hb : ∀ c : Ctx, c.Ready → pre c → ∃ d, body c = .done (d.setSlot c.h c.n (fin c (d.slot c.h c.n))) ∧ c.Sent d (rs c) (c.d.core c.h))
    (hpost : ∀ c x st t y, pre c → x = c.s.withResidue (rs c) st t y →
      KeptRegs c.s (fin c x) as vs ks ∧ post c ((fin c x).issued c.s.pc (c.s.pc + 8#64) u)) : CompletesWhen i u pre as vs ks post := by
  refine completesWhen_of he (fun c hc hpre => ?_)
  obtain ⟨d, hbody, ⟨st, t, y, hslot⟩, hslots, hothers, hcore, hdev⟩ := hb c hc hpre
  obtain ⟨hkept, hp⟩ := hpost c _ st t y hpre hslot
  rw [hbody]
  refine ⟨_, _, _, rfl, ⟨Dev.slot_setSlot_self _ _ _ _, fun h n hne => ?_, fun h => ?_, hdev⟩, hkept, hp⟩
  · exact (Dev.slot_setSlot_ne _ _ _ _ _ _ hne).trans (hslots h n hne)
  · refine (Dev.core_updSlot_bare _ _ _ _ _).trans ?_
    by_cases hh : h = c.h
    · rw [hh, hcore]
    · rw [hothers h hh]

/-- A load of good words completes. -/
theorem loadForm_completes {i : Instr} {u : Use} {pre : Ctx → Prop} {as vs ks : List Nat} {post : Ctx → Slot → Prop} (kind : LKind)
    (single : Bool) (align : Nat) (ws : Ctx → List LaneWord) (fin : Ctx → Slot → Slot)
    (he : ∀ s, exec i s = thread u (fun c => c.access (ldKind kind) single align (ws c) (fin c)) s)
    (hgood : ∀ c, pre c → c.GoodWords true align (ws c))
    (hpost : ∀ c x st t y, pre c → x = c.s.withResidue ((ws c).map (fun w => w.settled ((c.d.core c.h).word w.addr.toNat))) st t y →
      KeptRegs c.s (fin c x) as vs ks ∧ post c ((fin c x).issued c.s.pc (c.s.pc + 8#64) u)) : CompletesWhen i u pre as vs ks post := by
  have hkind : (ldKind kind).load = true := by cases kind <;> rfl
  refine readForm_completes _ fin he (fun c hc hpre => ?_) hpost
  have hsent := Ctx.sent_loads hc hkind (hgood c hpre)
  exact ⟨_, Ctx.access_done hc (hkind ▸ hgood c hpre) hsent, hsent⟩

/-- From the context's device to d nothing changed but the context's slot and a part of its core. -/
structure Ctx.OnlyOwn (c : Ctx) (d : Dev) (strip : Core → Core) : Prop where
  slots : ∀ h n, ¬(h = c.h ∧ n = c.n) → d.slot h n = c.d.slot h n
  others : ∀ h, h ≠ c.h → d.core h = c.d.core h
  core : strip (d.core c.h).bare = strip (c.d.core c.h).bare
  dev : d.bare = c.d.bare

/-- An instruction whose body changes its slot and a part of its core alone completes there. -/
theorem completesOnCore_of {i : Instr} {u : Use} {body : Ctx → Res} {pre : Ctx → Prop} {as vs ks : List Nat} {strip : Core → Core}
    {post : Ctx → Core → Slot → Prop} (he : ∀ s, exec i s = thread u body s)
    (hb : ∀ c : Ctx, c.Ready → pre c → ∃ d, body c = .done d ∧ c.OnlyOwn d strip ∧ KeptRegs c.s (d.slot c.h c.n) as vs ks ∧
      ∀ k, k.bare = (d.core c.h).bare → post c k ((d.slot c.h c.n).issued c.s.pc (c.s.pc + 8#64) u)) :
    CompletesOnCore i u pre as vs ks strip post := by
  intro s h n w hi hpre
  obtain ⟨d, hbody, honly, hkept, hpost⟩ := hb (s.ctx h n w) hi.ready hpre
  have hself : ((s.ctx h n w).finish u d ((s.dev.slot h n).pc + 8#64)).slot h n = _ := Ctx.finish_slot (s.ctx h n w) u d _ hi.step
  have hcore := Ctx.finish_core_bare (s.ctx h n w) u d ((s.dev.slot h n).pc + 8#64) hi.step
  refine ⟨_, exec_of_body_done (he s) hi hbody, ⟨fun _ => rfl, fun h' n' hne => ?_, fun k hk => ?_, ?_, ?_⟩, ?_, congrArg Slot.pc hself, ?_⟩
  · exact (Ctx.finish_slot_ne (s.ctx h n w) u d _ hi.step h' n' hne).trans (honly.slots h' n' hne)
  · exact (Ctx.finish_core_ne (s.ctx h n w) u d _ hi.step k hk).trans (honly.others k hk)
  · exact (congrArg strip (hcore h)).trans honly.core
  · exact (Ctx.finish_bare (s.ctx h n w) u d _ hi.step).trans honly.dev
  · exact hself ▸ hkept.issued _ _ u
  · exact hself ▸ hpost _ (hcore h)

theorem Core.noWords_setWords (k : Core) (ws : List LaneWord) : (k.setWords ws).bare.noWords = k.bare.noWords := by
  induction ws generalizing k with
  | nil => rfl
  | cons w ws ih => exact (ih _).trans rfl

/-- A store of good words completes: it changes words of its core alone. -/
theorem storeForm_completes {i : Instr} {u : Use} {pre : Ctx → Prop} {post : Ctx → Core → Slot → Prop} (kind : LKind)
    (single : Bool) (align : Nat) (ws : Ctx → List LaneWord)
    (he : ∀ s, exec i s = thread u (fun c => c.access (stKind kind) single align (ws c) id) s)
    (hgood : ∀ c, pre c → c.GoodWords false align (ws c))
    (hpost : ∀ c k x, pre c → k.bare = ((c.d.core c.h).setWords (ws c)).bare → post c k x) :
    CompletesOnCore i u pre [] [] [] Core.noWords post := by
  refine completesOnCore_of he (fun c hc hpre => ?_)
  have hkind : (stKind kind).load = false := by cases kind <;> rfl
  have hsent := Ctx.sent_stores hc hkind (hgood c hpre)
  refine ⟨_, Ctx.access_done hc (hkind ▸ hgood c hpre) hsent, ?_⟩
  generalize (ws c).foldl (c.sendLane (stKind kind)) c.d = d at *
  obtain ⟨⟨st, t, y, hslot⟩, hslots, hothers, hcore, hdev⟩ := hsent
  have hbare : ((d.setSlot c.h c.n (id (d.slot c.h c.n))).core c.h).bare = ((c.d.core c.h).setWords (ws c)).bare :=
    (Dev.core_updSlot_bare _ _ _ _ _).trans hcore
  refine ⟨⟨fun h n hne => ?_, fun h hh => ?_, ?_, hdev⟩, ?_, fun k hk => hpost c k _ hpre (hk.trans hbare)⟩
  · exact (Dev.slot_setSlot_ne _ _ _ _ _ _ hne).trans (hslots h n hne)
  · exact (Dev.core_updCore_ne _ _ _ _ hh).trans (hothers h hh)
  · rw [hbare, Core.noWords_setWords]
  · rw [Dev.slot_setSlot_self, id, hslot]
    exact KeptRegs.withResidue c.s _ st t y

/-! ### What stores leave (R113, R362) -/

/-- Of the words stored to an address the last stays. -/
theorem storedAt_append (ws : List (Nat × W32)) (x : Nat × W32) (a : Nat) :
    storedAt (ws ++ [x]) a = if x.1 = a then some x.2 else storedAt ws a := by
  unfold storedAt
  rw [List.filter_append, List.filter_singleton]
  by_cases h : x.1 = a
  · simp [h]
  · rw [beq_false_of_ne h, cond_false, List.append_nil, if_neg h]

/-- What is erased reads as the default. -/
theorem AMap.get_erase {α : Type} (d : α) (m : AMap α) (k j : Nat) : (m.erase k).get d j = if k = j then d else m.get d j := by
  unfold AMap.get AMap.find? AMap.erase
  rw [List.find?_filter]
  by_cases h : k = j
  · rw [if_pos h, List.find?_eq_none.mpr (fun e _ => by simp [h])]
    rfl
  · rw [if_neg h]
    have hsame : (fun e : Nat × α => decide ((e.1 != k) = true ∧ (e.1 == j) = true)) = fun e => e.1 == j := by
      funext e
      by_cases he : e.1 = j
      · simp [he, Ne.symm h]
      · simp [he]
    rw [hsame]

/-- A table that lists no defaults, with a value put or erased. -/
theorem AMap.get_put_erase {α : Type} [BEq α] [LawfulBEq α] (d : α) (m : AMap α) (k j : Nat) (v : α) :
    (if v == d then m.erase k else m.put k v).get d j = if k = j then v else m.get d j := by
  by_cases hv : v = d
  · rw [if_pos (beq_iff_eq.mpr hv), AMap.get_erase, hv]
  · rw [if_neg (by simpa using hv)]
    by_cases h : k = j
    · rw [if_pos h, h, AMap.get_put_self]
    · rw [if_neg h, AMap.get_put_ne _ _ _ _ _ (Ne.symm h)]

theorem Core.word_setWord (k : Core) (x a : Nat) (v : W32) : (k.setWord x v).word a = if x / 4 = a / 4 then v else k.word a := by
  exact AMap.get_put_erase _ _ _ _ _

/-- What writes of aligned words one after another leave: the last word stored to an address, or what was there. -/
theorem get_foldl_stores {put : Core → Nat → W32 → Core} {get : Core → Nat → W32} {val : W32 → W32}
    (h : ∀ k x v a, get (put k x v) a = if x / 4 = a / 4 then val v else get k a) (ws : List LaneWord) (k : Core) {a : Nat} (ha : a % 4 = 0)
    (hws : ∀ w, w ∈ ws → w.addr.toNat % 4 = 0) :
    get (ws.foldl (fun k w => put k w.addr.toNat w.data) k) a =
      (storedAt (ws.map (fun w => (w.addr.toNat, val w.data))) a).getD (get k a) := by
  induction ws using List.reverseRecOn with
  | nil => rfl
  | append_singleton ws w ih =>
    have hw := hws w (by simp)
    rw [List.foldl_append, List.foldl_cons, List.foldl_nil, h, List.map_append, List.map_singleton, storedAt_append]
    by_cases hx : w.addr.toNat = a
    · rw [if_pos (by rw [hx]), if_pos hx]
      rfl
    · rw [if_neg (by omega), if_neg hx]
      exact ih (fun x hx => hws x (List.mem_append_left _ hx))

/-- A stored word is no longer poisoned. -/
theorem Core.poison_setWords (k : Core) (ws : List LaneWord) {a : Nat} (h : ∃ w, w ∈ ws ∧ w.addr.toNat = a) :
    (k.setWords ws).lsPoison.contains (a / 4) = false := by
  obtain ⟨w, hw, rfl⟩ := h
  induction ws using List.reverseRecOn with
  | nil => nomatch hw
  | append_singleton ws x ih =>
    rw [Core.setWords, List.foldl_append, List.foldl_cons, List.foldl_nil]
    simp only [Core.setWord, List.contains_eq_mem, List.mem_filter, bne_iff_ne, decide_eq_false_iff_not, not_and, not_not]
    rcases List.mem_append.mp hw with hw | hw
    · have := ih hw
      simp only [Core.setWords, List.contains_eq_mem, decide_eq_false_iff_not] at this
      exact fun h => absurd h this
    · rw [List.mem_singleton.mp hw]
      exact fun _ => rfl

theorem KeptRegs.of_withResidue {s b : Slot} {rs : List ResLane} {st : SlotSt} {t : Nat} {y : Bool} {as vs ks : List Nat}
    (h : KeptRegs (s.withResidue rs st t y) b as vs ks) : KeptRegs s b as vs ks := ⟨h.aregs, h.vregs, h.kregs, h.tsw, h.rest⟩

theorem KeptRegs.trans {a b c : Slot} {as vs ks as' vs' ks' : List Nat} (h : KeptRegs a b as vs ks) (h' : KeptRegs b c as' vs' ks') :
    KeptRegs a c (as ++ as') (vs ++ vs') (ks ++ ks') := by
  refine ⟨fun j hj => ?_, fun j hj => ?_, fun j hj => ?_, h'.tsw.trans h.tsw, h'.rest.trans h.rest⟩ <;>
    rw [List.mem_append, not_or] at hj
  · exact (h'.aregs j hj.2).trans (h.aregs j hj.1)
  · exact (h'.vregs j hj.2).trans (h.vregs j hj.1)
  · exact (h'.kregs j hj.2).trans (h.kregs j hj.1)

/-- The lanes of a masked result. -/
theorem Slot.lane_setVm (s : Slot) (j : Nat) (m : BitVec 16) (kz : Bool) (f : Nat → W32) {l : Nat} {v : W32} (hl : l < 16)
    (hv : m.getLsbD l = true → f l = v) :
    lane ((s.setVm j m kz (ofLanes f)).V j) l = if m.getLsbD l then v else if kz then 0#32 else lane (s.V j) l := by
  rw [Slot.setVm, Slot.V_setV_self, lane_maskV _ _ _ _ _ hl, lane_ofLanes _ _ hl]
  split
  · next h => exact hv h
  · rfl

section
variable {s : Slot} {km : KReg} {d x : VReg} {base : AReg} {off : BitVec 24} {w : LaneWord} {l : Nat}

theorem Slot.mem_words1 : w ∈ s.words1 km d x base off ↔
    ∃ l, l ∈ lanesOf (s.K km.toNat) ∧ (⟨l, 0, s.addr base x off 4 l, lane (s.V d.toNat) l⟩ : LaneWord) = w := List.mem_map

theorem Slot.mem_words2 : w ∈ s.words2 km d x base off ↔ ∃ l, l ∈ lanesOf (s.K km.toNat) ∧
    (w = ⟨l, 0, s.addr base x off 8 l, lane (s.V d.toNat) l⟩ ∨ w = ⟨l, 1, s.addr base x off 8 l + 4#64, lane (s.V (d.toNat + 1)) l⟩) := by
  simp [Slot.words2, List.mem_flatMap]

/-- A lane's word of a one-word form. -/
theorem Slot.resData_words1 {b : Slot} {val : W64 → W32}
    (hres : b.residue = (s.words1 km d x base off).map (fun w => w.settled (val w.addr))) (hl : l ∈ lanesOf (s.K km.toNat)) :
    b.resData l 0 = val (s.addr base x off 4 l) := by
  refine Slot.resData_of hres ⟨_, Slot.mem_words1.mpr ⟨l, hl, rfl⟩, rfl, rfl⟩ (fun w hw hwl _ => ?_)
  obtain ⟨m, -, rfl⟩ := Slot.mem_words1.mp hw
  rw [← show m = l from hwl]

/-- A lane's words of a two-word form. -/
theorem Slot.resData_words2 {b : Slot} {val : W64 → W32}
    (hres : b.residue = (s.words2 km d x base off).map (fun w => w.settled (val w.addr))) (hl : l ∈ lanesOf (s.K km.toNat)) :
    b.resData l 0 = val (s.addr base x off 8 l) ∧ b.resData l 1 = val (s.addr base x off 8 l + 4#64) := by
  refine ⟨Slot.resData_of hres ⟨_, Slot.mem_words2.mpr ⟨l, hl, Or.inl rfl⟩, rfl, rfl⟩ (fun w hw hwl hp => ?_),
    Slot.resData_of hres ⟨_, Slot.mem_words2.mpr ⟨l, hl, Or.inr rfl⟩, rfl, rfl⟩ (fun w hw hwl hp => ?_)⟩ <;>
  · obtain ⟨m, -, rfl | rfl⟩ := Slot.mem_words2.mp hw <;> simp_all

end

/-- The words of a one-word form whose lanes are aligned and plain. -/
theorem Ctx.goodWords1 {c : Ctx} {km : KReg} {d x : VReg} {base : AReg} {off : BitVec 24} {load : Bool} (hres : c.s.residue = [])
    (h : ∀ l, l < 16 → (c.s.K km.toNat).getLsbD l = true → (c.s.addr base x off 4 l).toNat % 4 = 0 ∧
      ∀ p, 4 * p < 4 → c.plainWord load (c.s.addr base x off 4 l + BitVec.ofNat 64 (4 * p))) :
    c.GoodWords load 4 (c.s.words1 km d x base off) := by
  refine ⟨hres, fun w hw _ => ?_, fun w hw => ?_⟩ <;> obtain ⟨l, hl, rfl⟩ := Slot.mem_words1.mp hw <;>
    obtain ⟨h16, hact⟩ := mem_lanesOf.mp hl
  · exact (h l h16 hact).1
  · simpa using (h l h16 hact).2 0 (by omega)

/-- The words of a two-word form whose lanes are aligned and plain. -/
theorem Ctx.goodWords2 {c : Ctx} {km : KReg} {d x : VReg} {base : AReg} {off : BitVec 24} {load : Bool} (hres : c.s.residue = [])
    (h : ∀ l, l < 16 → (c.s.K km.toNat).getLsbD l = true → (c.s.addr base x off 8 l).toNat % 8 = 0 ∧
      ∀ p, 4 * p < 8 → c.plainWord load (c.s.addr base x off 8 l + BitVec.ofNat 64 (4 * p))) :
    c.GoodWords load 8 (c.s.words2 km d x base off) := by
  refine ⟨hres, fun w hw hp => ?_, fun w hw => ?_⟩ <;> obtain ⟨l, hl, hw⟩ := Slot.mem_words2.mp hw <;>
    obtain ⟨h16, hact⟩ := mem_lanesOf.mp hl
  · rcases hw with rfl | rfl
    · exact (h l h16 hact).1
    · exact nomatch hp
  · rcases hw with rfl | rfl
    · simpa using (h l h16 hact).2 0 (by omega)
    · exact (h l h16 hact).2 1 (by omega)

/-- The words of ald and ast. -/
theorem Ctx.goodWordsA {c : Ctx} {d base : AReg} {off : BitVec 24} {load : Bool}
    (h : c.s.residue = [] ∧ (c.s.addr1 base off).toNat % 8 = 0 ∧ c.plainWord load (c.s.addr1 base off) ∧
      c.plainWord load (c.s.addr1 base off + 4#64)) : c.GoodWords load 8 (c.s.wordsA d base off) := by
  obtain ⟨hres, halign, h0, h1⟩ := h
  refine ⟨hres, fun w hw hp => ?_, fun w hw => ?_⟩ <;> rcases List.mem_pair.mp hw with rfl | rfl
  · exact halign
  · exact nomatch hp
  · exact h0
  · exact h1

/-- What a store's words leave in its core. -/
theorem Core.setWords_stored {k k' : Core} {ws : List LaneWord} (h : k'.bare = (k.setWords ws).bare) {ps : List (Nat × W32)}
    (hps : ps = ws.map (fun w => (w.addr.toNat, w.data))) (hws : ∀ w, w ∈ ws → w.addr.toNat % 4 = 0) {a : Nat} (ha : a % 4 = 0) :
    k'.word a = (storedAt ps a).getD (k.word a) ∧ ((storedAt ps a).isSome → k'.lsPoison.contains (a / 4) = false) := by
  subst hps
  have hword : k'.word a = (k.setWords ws).word a := (congrArg (Core.word · a) h :)
  have hpoison : k'.lsPoison = (k.setWords ws).lsPoison := (congrArg Core.lsPoison h :)
  refine ⟨hword.trans (get_foldl_stores (val := id) (fun k x v a => Core.word_setWord k x a v) ws k ha hws), fun hsome => ?_⟩
  rw [hpoison]
  refine Core.poison_setWords k ws ?_
  rw [storedAt, Option.isSome_map] at hsome
  obtain ⟨x, hx⟩ := Option.isSome_iff_exists.mp hsome
  replace hx := List.mem_of_getLast? hx
  obtain ⟨hmem, hxa⟩ := List.mem_filter.mp hx
  obtain ⟨w, hw, rfl⟩ := List.mem_map.mp hmem
  exact ⟨w, hw, by simpa using hxa⟩

/-- The second word of an aligned pair. -/
theorem addr_add_four {a : W64} (h : a.toNat < 2 ^ 20) : (a + 4#64).toNat = a.toNat + 4 := by
  rw [BitVec.toNat_add_of_lt]
  · rfl
  · exact Nat.lt_trans (Nat.add_lt_add_right h 4) (by decide)

/-- The two words of ald, from the residue. -/
theorem Slot.resData_wordsA {s b : Slot} {d base : AReg} {off : BitVec 24} {val : W64 → W32}
    (hres : b.residue = (s.wordsA d base off).map (fun w => w.settled (val w.addr))) :
    b.resData 0 0 = val (s.addr1 base off) ∧ b.resData 0 1 = val (s.addr1 base off + 4#64) := by
  refine ⟨Slot.resData_of hres ⟨_, List.mem_cons_self, rfl, rfl⟩ (fun w hw _ hp => ?_),
    Slot.resData_of hres ⟨_, List.mem_cons_of_mem _ List.mem_cons_self, rfl, rfl⟩ (fun w hw _ hp => ?_)⟩ <;>
  · rcases List.mem_pair.mp hw with rfl | rfl <;> simp_all

/-- Settles O13: a word of a region under table 0 is read or written by its bank operation at once (`bankStep_load`, `bankStep_store`). -/
theorem localAccesses : Obligations.LocalAccesses := by
  refine ⟨fun kind km kz d x e base off => ⟨?lld, ?lldx, ?ald⟩, fun kind km d x e base off => ⟨?lst, ?lstx, ?ast⟩⟩
  case lld =>
    refine loadForm_completes kind false 4 (fun c => c.s.words1 km d x base off)
      (fun c s => s.setVm d.toNat (s.K km.toNat) kz (ofLanes (fun l => s.resData l 0))) (fun _ => rfl)
      (fun c h => Ctx.goodWords1 h.1 h.2) (fun c y st t z _ hy => ⟨?_, rfl, fun l hl => ?_⟩) <;> subst hy
    · exact (KeptRegs.setV _ _ _).of_withResidue
    · exact Slot.lane_setVm _ _ _ _ _ hl fun ha =>
        Slot.resData_words1 (val := fun a => (c.d.core c.h).word a.toNat) rfl (mem_lanesOf.mpr ⟨hl, ha⟩)
  case ald =>
    refine loadForm_completes kind true 8 (fun c => c.s.wordsA e base off) (fun c s => s.setA e.toNat (s.resData 0 1 ++ s.resData 0 0))
      (fun _ => rfl) (fun c h => Ctx.goodWordsA h) (fun c y st t z _ hy => ⟨?_, rfl, ?_⟩) <;> subst hy
    · exact (KeptRegs.setA _ _ _).of_withResidue
    · refine (Slot.A_setA_self _ _ _).trans ?_
      obtain ⟨h0, h1⟩ := Slot.resData_wordsA (s := c.s) (d := e) (base := base) (off := off)
        (b := c.s.withResidue ((c.s.wordsA e base off).map (fun w => w.settled ((c.d.core c.h).word w.addr.toNat))) st t z)
        (val := fun a => (c.d.core c.h).word a.toNat) rfl
      rw [h0, h1]
  case lldx =>
    have hne : d.toNat ≠ d.toNat + 1 := by omega
    refine loadForm_completes kind false 8 (fun c => c.s.words2 km d x base off)
      (fun c s => (s.setVm d.toNat (s.K km.toNat) kz (ofLanes (fun l => s.resData l 0))).setVm (d.toNat + 1) (s.K km.toNat) kz
        (ofLanes (fun l => s.resData l 1))) (fun _ => rfl)
      (fun c h => Ctx.goodWords2 h.1 h.2) (fun c y st t z _ hy => ?_)
    have hres : y.residue = (c.s.words2 km d x base off).map (fun w => w.settled ((c.d.core c.h).word w.addr.toNat)) := by rw [hy]; rfl
    have hK : y.K km.toNat = c.s.K km.toNat := by rw [hy]; rfl
    have hV : y.V = c.s.V := by rw [hy]; rfl
    have hkept : KeptRegs c.s y [] [] [] := by rw [hy]; exact KeptRegs.withResidue _ _ _ _ _
    clear hy
    have hdata := fun l (hl : l < 16) (ha : (y.K km.toNat).getLsbD l = true) =>
      Slot.resData_words2 (val := fun a => (c.d.core c.h).word a.toNat) hres (mem_lanesOf.mpr ⟨hl, hK ▸ ha⟩)
    refine ⟨hkept.trans ((KeptRegs.setV _ _ _).trans (KeptRegs.setV _ _ _)), rfl, fun l hl => ?_, fun l hl => ?_⟩
    · rw [← hK, ← hV, Slot.issued_V, Slot.setVm, Slot.V_setV_ne _ _ _ _ hne]
      exact Slot.lane_setVm _ _ _ _ _ hl fun ha => (hdata l hl ha).1
    · rw [Slot.issued_V]
      refine (Slot.lane_setVm _ _ _ _ _ hl fun ha => (hdata l hl ha).2).trans ?_
      rw [Slot.setVm, Slot.V_setV_ne _ _ _ _ hne.symm, hK, hV]
  case lst =>
    refine storeForm_completes kind false 4 (fun c => c.s.words1 km d x base off) (fun _ => rfl) (fun c h => Ctx.goodWords1 h.1 h.2)
      (fun c k _ h hk a ha => Core.setWords_stored hk ?_ (fun w hw => ?_) ha)
    · rw [Slot.words1, List.map_map]
      rfl
    · refine (Ctx.goodWords1 h.1 h.2).aligned w hw ?_
      obtain ⟨l, -, rfl⟩ := Slot.mem_words1.mp hw
      rfl
  case lstx =>
    refine storeForm_completes kind false 8 (fun c => c.s.words2 km d x base off) (fun _ => rfl) (fun c h => Ctx.goodWords2 h.1 h.2)
      (fun c k _ h hk a ha => ?_)
    have hgood := Ctx.goodWords2 (d := d) h.1 h.2
    have hlow : ∀ l, l ∈ lanesOf (c.s.K km.toNat) →
        (c.s.addr base x off 8 l).toNat % 8 = 0 ∧ (c.s.addr base x off 8 l + 4#64).toNat = (c.s.addr base x off 8 l).toNat + 4 := by
      intro l hl
      have hw := Slot.mem_words2 (s := c.s) (d := d) (x := x) (base := base) (off := off).mpr ⟨l, hl, Or.inl rfl⟩
      exact ⟨hgood.aligned _ hw rfl, addr_add_four (hgood.plain _ hw).low⟩
    refine Core.setWords_stored hk ?_ (fun w hw => ?_) ha
    · rw [Slot.words2, List.map_flatMap]
      refine List.flatMap_congr fun l hl => ?_
      rw [List.map_cons, List.map_cons, (hlow l hl).2]
      rfl
    · obtain ⟨l, hl, hw⟩ := Slot.mem_words2.mp hw
      obtain ⟨h8, h4⟩ := hlow l hl
      rcases hw with rfl | rfl
      · show (c.s.addr base x off 8 l).toNat % 4 = 0
        omega
      · show (c.s.addr base x off 8 l + 4#64).toNat % 4 = 0
        omega
  case ast =>
    refine storeForm_completes kind true 8 (fun c => c.s.wordsA e base off) (fun _ => rfl) (fun c h => Ctx.goodWordsA h)
      (fun c k _ h hk a ha => ?_)
    obtain ⟨-, halign, hp, -⟩ := h
    have h4 := addr_add_four hp.low
    refine Core.setWords_stored hk ?_ (fun w hw => ?_) ha
    · rw [Slot.wordsA, List.map_cons, List.map_cons, h4]
      rfl
    · rcases List.mem_pair.mp hw with rfl | rfl
      · show (c.s.addr1 base off).toNat % 4 = 0
        omega
      · show (c.s.addr1 base off + 4#64).toNat % 4 = 0
        omega

/-! ### One bank operation by a region's table (R119, R120) -/

/-- What the entry of a region's table has a bank do with a good word. -/
theorem bankStep_table (c : Core) (a : Nat) (k : BankKind) (data : W32) (key : Nat) (g : W32) (hreg : c.regionOf a = some (key, g))
    (hopen : c.sealedAt a = false) (hgood : c.lsPoison.contains (a / 4) = false) :
    let e := c.entry (rgnTbl g) (16 * k.code + (c.tag a).toNat)
    let marked := fun (x : Core) => if setTagOf e then x.setTag a (newTagOf e) else x
    c.bankStep a k data = match actOf e with
      | 1 => (.parked (codeOf e), c, false)
      | 3 => (.trapped 0x10 (codeOf e + 16 * k.code + 128 * (c.tag a).toNat), c, false)
      | _ => match c.target key g e a with
        | .bad => (.trapped 0x04 3, c, false)
        | .nowhere => (.out (0xFFFFFFF0#32 ||| BitVec.ofNat 32 (codeOf e)), marked c, setTagOf e)
        | .word p =>
          if k.load then (if c.lsPoison.contains (p / 4) then (.trapped 0xF0 2, c, false) else (.out (c.word p), marked c, setTagOf e))
          else if p != a && c.sealedAt p then (.refused p, c, false)
          else (.out 0#32, marked (c.setWord p data), setTagOf e) := by
  unfold Core.bankStep
  simp only [hreg, hopen, hgood, Bool.and_false, Bool.false_and, Bool.false_eq_true, if_false] <;> rfl

theorem bankActions (c : Core) (a : Nat) (k : BankKind) (data : W32) (key : Nat) (g : W32) :
    c.regionOf a = some (key, g) → c.sealedAt a = false → c.lsPoison.contains (a / 4) = false →
    let e := c.entry (rgnTbl g) (16 * k.code + (c.tag a).toNat)
    let marked := fun (x : Core) => if setTagOf e then x.setTag a (newTagOf e) else x
    (actOf e = 0 → k.load = true → c.bankStep a k data = (.out (c.word a), marked c, setTagOf e)) ∧
    (actOf e = 0 → k.load = false → c.bankStep a k data = (.out 0#32, marked (c.setWord a data), setTagOf e)) ∧
    (actOf e = 1 → c.bankStep a k data = (.parked (codeOf e), c, false)) ∧
    (actOf e = 2 → let p := c.rbase (rgnTbl g) (redirOf e) + (a - rgnBase g)
      (c.inLaunch (key / 16) p = false → c.bankStep a k data = (.trapped 0x04 3, c, false)) ∧
      (c.inLaunch (key / 16) p = true → k.load = true → c.lsPoison.contains (p / 4) = false →
        c.bankStep a k data = (.out (c.word p), marked c, setTagOf e)) ∧
      (c.inLaunch (key / 16) p = true → k.load = false → c.sealedAt p = false →
        c.bankStep a k data = (.out 0#32, marked (c.setWord p data), setTagOf e))) ∧
    (actOf e = 3 → c.bankStep a k data = (.trapped 0x10 (codeOf e + 16 * k.code + 128 * (c.tag a).toNat), c, false)) ∧
    (actOf e = 4 → ∃ w, c.bankStep a k data = (.out w, marked c, setTagOf e) ∧ w = 0xFFFFFFF0#32 ||| BitVec.ofNat 32 (codeOf e)) := by
  intro hreg hopen hgood
  rw [bankStep_table c a k data key g hreg hopen hgood]
  dsimp only
  generalize c.entry (rgnTbl g) (16 * k.code + (c.tag a).toNat) = e
  refine ⟨fun h hk => ?_, fun h hk => ?_, fun h => ?_, fun h => ⟨fun hin => ?_, fun hin hk hp => ?_, fun hin hk hp => ?_⟩, fun h => ?_, fun h => ?_⟩
  · simp only [h, Core.target, hk, hgood, if_true, Bool.false_eq_true, if_false]
  · simp only [h, Core.target, hk, bne_self_eq_false, Bool.false_and, Bool.false_eq_true, if_false]
  · simp only [h]
  · simp only [h, Core.target, hin, Bool.false_eq_true, if_false]
  · simp only [h, Core.target, hin, hk, hp, if_true, Bool.false_eq_true, if_false]
  · simp only [h, Core.target, hin, hk, hp, Bool.and_false, if_true, Bool.false_eq_true, if_false]
  · simp only [h]
  · simp only [h, Core.target]
    exact ⟨_, rfl, rfl⟩

/-! ### Tags and peeks (R130) -/

/-- The words of a tag form that nothing hinders. -/
structure Ctx.OpenWords (c : Ctx) (load : Bool) (ws : List LaneWord) : Prop where
  fresh : load = true → c.s.residue = []
  word : ∀ w, w ∈ ws → w.addr.toNat % 4 = 0 ∧ w.addr.toNat < 2 ^ 20 ∧ (c.d.core c.h).inLaunch c.s.lk w.addr.toNat = true ∧
    (c.d.core c.h).unrestored w.addr.toNat = false ∧
    if load then (c.d.core c.h).lsPoison.contains (w.addr.toNat / 4) = false
    else (c.d.core c.h).sealedAt w.addr.toNat = false ∧ ∀ p, p ∈ (c.d.core c.h).parked → p.addr ≠ w.addr.toNat

theorem Ctx.OpenWords.inside {c : Ctx} {load : Bool} {ws : List LaneWord} (h : c.OpenWords load ws) {w : LaneWord} (hw : w ∈ ws) :
    c.outside w = false := by
  obtain ⟨-, hlow, hin, -, -⟩ := h.word w hw
  simpa [Ctx.outside, hin] using hlow

/-- A peek of good words ends with all of them read. -/
theorem Ctx.peek_done {c : Ctx} (hc : c.Ready) {ws : List LaneWord} (h : c.OpenWords true ws) {read : Core → Nat → W32}
    (hread : ∀ k a, read k.bare a = read k a) (fin : Slot → Slot) :
    ∃ d, c.peek ws read fin = .done (d.setSlot c.h c.n (fin (d.slot c.h c.n))) ∧
      c.Sent d (ws.map (fun w => w.settled (read (c.d.core c.h) w.addr.toNat))) (c.d.core c.h) := by
  have hres := h.fresh rfl
  have hsent : c.Sent (ws.foldl (fun d w => d.settleOwn c.h c.n w.lane w.part
        (if (d.core c.h).lsPoison.contains (w.addr.toNat / 4) then .trapped 0xF0 2 else .out (read (d.core c.h) w.addr.toNat))) c.d)
      (ws.map (fun w => w.settled (read (c.d.core c.h) w.addr.toNat))) (c.d.core c.h) := by
    have hfold := (Ctx.Sent.refl hc hres).foldl (send := fun d w => d.settleOwn c.h c.n w.lane w.part
        (if (d.core c.h).lsPoison.contains (w.addr.toNat / 4) then .trapped 0xF0 2 else .out (read (d.core c.h) w.addr.toNat)))
      (put := fun k _ => k) (good := fun k => k = c.d.core c.h) (val := fun w => read (c.d.core c.h) w.addr.toNat) ws
      (fun w hw d rs k hk hg => by
        subst hg
        have hpoison : (d.core c.h).lsPoison = (c.d.core c.h).lsPoison := (congrArg Core.lsPoison hk.core :)
        have hgood : (c.d.core c.h).lsPoison.contains (w.addr.toNat / 4) = false := (h.word w hw).2.2.2.2
        have hval : read (d.core c.h) w.addr.toNat = read (c.d.core c.h) w.addr.toNat := by rw [← hread, hk.core, hread]
        refine ⟨?_, rfl⟩
        rw [hpoison, hgood, if_neg Bool.false_ne_true, hval]
        exact hk.settleOwn w _) rfl
    rwa [List.foldl_fixed, List.nil_append] at hfold
  exact ⟨_, c.touch_done hc hres (fun w hw _ => (h.word w hw).1) (fun w hw => h.inside hw) (fun _ _ => rfl)
    (fun w hw => (h.word w hw).2.2.2.1) hsent, hsent⟩

/-- A form that reads one word a lane into its register. -/
theorem peekForm_completes {i : Instr} {km : KReg} {kz : Bool} {d x : VReg} {base : AReg} {off : BitVec 24} {pre : Ctx → Prop}
    {val : Ctx → Nat → W32} (read : Core → Nat → W32) (hread : ∀ k a, read k.bare a = read k a)
    (he : ∀ s, exec i s = thread (useLoad km kz d x base) (fun c => c.peek (c.s.words1 km d x base off) read
      (fun s => s.setVm d.toNat (s.K km.toNat) kz (ofLanes (fun l => s.resData l 0)))) s)
    (hgood : ∀ c, pre c → c.OpenWords true (c.s.words1 km d x base off))
    (hv : ∀ (c : Ctx) l, read (c.d.core c.h) (c.s.addr base x off 4 l).toNat = val c l) :
    CompletesWhen i (useLoad km kz d x base) pre [] [d.toNat] [] (fun c b => b.pc = c.s.pc + 8#64 ∧ ∀ l, l < 16 →
      lane (b.V d.toNat) l = if (c.s.K km.toNat).getLsbD l then val c l else if kz then 0#32 else lane (c.s.V d.toNat) l) := by
  refine readForm_completes (fun c => (c.s.words1 km d x base off).map (fun w => w.settled (read (c.d.core c.h) w.addr.toNat)))
    (fun _ s => s.setVm d.toNat (s.K km.toNat) kz (ofLanes (fun l => s.resData l 0))) he
    (fun c hc h => c.peek_done hc (hgood c h) hread _) (fun c y st t z _ hy => ⟨?_, rfl, fun l hl => ?_⟩) <;> subst hy
  · exact (KeptRegs.setV _ _ _).of_withResidue
  · refine Slot.lane_setVm _ _ _ _ _ hl fun ha => ?_
    rw [← hv c l]
    exact Slot.resData_words1 (val := fun a => read (c.d.core c.h) a.toNat) rfl (mem_lanesOf.mpr ⟨hl, ha⟩)

/-- From d to e one core became k and nothing else changed. -/
structure Dev.CoreIs (d e : Dev) (h : Nat) (k : Core) : Prop where
  core : e.core h = k
  others : ∀ j, j ≠ h → e.core j = d.core j
  dev : e.bare = d.bare

theorem Dev.CoreIs.updCore {d e : Dev} {h : Nat} {k : Core} (he : d.CoreIs e h k) (f : Core → Core) :
    d.CoreIs (e.updCore h f) h (f k) := by
  refine ⟨?_, fun j hj => (Dev.core_updCore_ne _ _ _ _ hj).trans (he.others j hj), he.dev⟩
  rw [Dev.core_updCore_self, he.core]

/-- Where nothing is parked on a word, re-evaluating it changes nothing. -/
theorem Dev.CoreIs.reeval {d e : Dev} {h a : Nat} {k : Core} (he : d.CoreIs e h k) (hfree : ∀ p, p ∈ k.parked → p.addr ≠ a) :
    d.CoreIs (e.reeval h a) h k := by
  have hnone : k.parked.filter (fun p => p.addr == a) = [] := List.filter_eq_nil_iff.mpr fun p hp => by simpa using hfree p hp
  have hpass : k.reeval a (k.parked.length + 1) = (k, []) := by
    rw [Core.reeval, hnone]
    rfl
  rw [Dev.reeval, he.core, hpass]
  exact he.updCore (fun _ => k)

theorem Dev.CoreIs.writeTag {d e : Dev} {h a : Nat} {k : Core} (he : d.CoreIs e h k) (hfree : ∀ p, p ∈ k.parked → p.addr ≠ a)
    (t : BitVec 4) : d.CoreIs (e.writeTag h a t) h (k.setTag a t) :=
  (he.updCore (fun c => c.setTag a t)).reeval hfree

/-- Tags written into a core, in order. -/
def Core.setTags (k : Core) (ws : List LaneWord) : Core := ws.foldl (fun k w => k.setTag w.addr.toNat (w.data.setWidth 4)) k

theorem Dev.CoreIs.writeTags {d e : Dev} {h : Nat} {k : Core} (ws : List LaneWord) (he : d.CoreIs e h k)
    (hfree : ∀ w, w ∈ ws → ∀ p, p ∈ k.parked → p.addr ≠ w.addr.toNat) :
    d.CoreIs (ws.foldl (fun d w => d.writeTag h w.addr.toNat (w.data.setWidth 4)) e) h (k.setTags ws) := by
  induction ws generalizing e k with
  | nil => exact he
  | cons w ws ih =>
    exact ih (he.writeTag (hfree w List.mem_cons_self) (w.data.setWidth 4)) (fun x hx => hfree x (List.mem_cons_of_mem _ hx))

theorem Core.noTags_setTags (k : Core) (ws : List LaneWord) : (k.setTags ws).bare.noTags = k.bare.noTags := by
  induction ws generalizing k with
  | nil => rfl
  | cons w ws ih => exact (ih _).trans rfl

theorem Core.slot_setTags (k : Core) (ws : List LaneWord) (n : Nat) : (k.setTags ws).slot n = k.slot n := by
  induction ws generalizing k with
  | nil => rfl
  | cons w ws ih => exact (ih _).trans rfl

theorem Core.tag_setTag (k : Core) (x a : Nat) (v : BitVec 4) : (k.setTag x v).tag a = if x / 4 = a / 4 then v else k.tag a :=
  AMap.get_put_erase _ _ _ _ _

/-- The four bits of a tag, in a word. -/
theorem setWidth_setWidth_four (v : W32) : (v.setWidth 4).setWidth 32 = v &&& 0xF#32 := by
  apply BitVec.eq_of_toNat_eq
  rw [BitVec.toNat_and, show (0xF#32).toNat = 2 ^ 4 - 1 from rfl, Nat.and_two_pow_sub_one_eq_mod, BitVec.toNat_setWidth,
    BitVec.toNat_setWidth]
  omega

/-- A form that changes its core, and no slot, completes there. -/
theorem Ctx.onlyOwn_of_coreIs {c : Ctx} {d : Dev} {k : Core} {strip : Core → Core} (h : c.d.CoreIs d c.h k)
    (hslot : ∀ n, k.slot n = (c.d.core c.h).slot n) (hstrip : strip k.bare = strip (c.d.core c.h).bare) :
    c.OnlyOwn d strip ∧ ∀ h n, d.slot h n = c.d.slot h n := by
  have hslots : ∀ h n, d.slot h n = c.d.slot h n := by
    intro j n
    by_cases hj : j = c.h
    · rw [hj, Dev.slot, h.core, hslot]
      rfl
    · rw [Dev.slot, h.others j hj]
      rfl
  refine ⟨⟨fun j n _ => hslots j n, h.others, ?_, h.dev⟩, hslots⟩
  rw [h.core, hstrip]

/-- stag writes the tags of its words. -/
theorem stag_completes {km : KReg} {d x : VReg} {base : AReg} {off : BitVec 24} {pre : Ctx → Prop}
    (hgood : ∀ c, pre c → c.OpenWords false (c.s.words1 km d x base off)) :
    CompletesOnCore (.stag km d x base off) (useStore km d x base) pre [] [] [] Core.noTags
      (fun c k _ => ∀ a, a % 4 = 0 → (k.tag a).setWidth 32 =
        ((storedAt ((lanesOf (c.s.K km.toNat)).map (fun l => ((c.s.addr base x off 4 l).toNat, c.s.ln d l &&& 0xF#32))) a).getD
          (((c.d.core c.h).tag a).setWidth 32))) := by
  refine completesOnCore_of (fun _ => by unfold exec execStag; rfl) (fun c hc hpre => ?_)
  have h := hgood c hpre
  have hws : ∀ w, w ∈ c.s.words1 km d x base off → _ := h.word
  have hfind : (c.s.words1 km d x base off).find? (fun w => w.part == 0 && w.addr.toNat % 4 != 0) = none :=
    List.find?_eq_none.mpr fun w hw => by simp [(hws w hw).1]
  have hcheck : ∀ flt, c.checkLanes 4 (c.s.words1 km d x base off) (fun a => if (c.d.core c.h).sealedAt a then some a else none) flt =
      none := by
    intro flt
    simp only [Ctx.checkLanes, hfind]
    refine List.findSome?_eq_none_iff.mpr fun w hw => ?_
    have hopen : (c.d.core c.h).sealedAt w.addr.toNat = false := (hws w hw).2.2.2.2.1
    simp [h.inside hw, hopen]
  have hrest : (c.s.words1 km d x base off).any (fun w => (c.d.core c.h).unrestored w.addr.toNat) = false :=
    List.any_eq_false.mpr fun w hw => by simp [(hws w hw).2.2.2.1]
  have hcore := Dev.CoreIs.writeTags (d := c.d) (c.s.words1 km d x base off) ⟨rfl, fun _ _ => rfl, rfl⟩
    (fun w hw => (hws w hw).2.2.2.2.2)
  obtain ⟨honly, hslots⟩ := c.onlyOwn_of_coreIs (strip := Core.noTags) hcore (Core.slot_setTags _ _) (Core.noTags_setTags _ _)
  refine ⟨_, by simp only [hcheck, hrest, Bool.false_eq_true, if_false], honly, ?_, fun k hk a ha => ?_⟩
  · rw [hslots, hc.own]
    exact KeptRegs.refl _
  · rw [hcore.core] at hk
    have htag : k.tag a = ((c.d.core c.h).setTags (c.s.words1 km d x base off)).tag a := (congrArg (Core.tag · a) hk :)
    rw [htag]
    refine (get_foldl_stores (get := fun k a => (k.tag a).setWidth 32) (put := fun k x v => k.setTag x (v.setWidth 4))
      (val := fun v => v &&& 0xF#32) (fun k x v a => ?_) _ _ ha (fun w hw => (hws w hw).1)).trans ?_
    · rw [Core.tag_setTag]
      split
      · exact setWidth_setWidth_four v
      · rfl
    · rw [Slot.words1, List.map_map]
      rfl

/-- Settles O15: `bankActions` for the actions of a table, `peekForm_completes` and `stag_completes` for the tag forms. -/
theorem banksAndTags : Obligations.BanksAndTags := by
  refine ⟨bankActions, fun km kz d x base off => ⟨?ltag, ?lpeek, ?stag⟩⟩
  case ltag =>
    exact peekForm_completes (fun k a => (k.tag a).setWidth 32) (fun _ _ => rfl) (fun _ => rfl) (fun c h => ⟨h.1, fun w hw => by
      obtain ⟨l, hl, rfl⟩ := Slot.mem_words1.mp hw
      exact h.2 l (mem_lanesOf.mp hl).1 (mem_lanesOf.mp hl).2⟩) (fun _ _ => rfl)
  case lpeek =>
    exact peekForm_completes Core.word (fun _ _ => rfl) (fun _ => rfl) (fun c h => ⟨h.1, fun w hw => by
      obtain ⟨l, hl, rfl⟩ := Slot.mem_words1.mp hw
      exact h.2 l (mem_lanesOf.mp hl).1 (mem_lanesOf.mp hl).2⟩) (fun _ _ => rfl)
  case stag =>
    exact stag_completes (fun c h => ⟨h.1, fun w hw => by
      obtain ⟨l, hl, rfl⟩ := Slot.mem_words1.mp hw
      exact h.2 l (mem_lanesOf.mp hl).1 (mem_lanesOf.mp hl).2⟩)

end Sys2Proof.Machine
end

section
/-! PROOFS. The neighbour link, and slots that are woken (R22, R34, R101 to R103). -/

namespace Sys2Proof.Machine

/-- A form of R174 that may issue at once runs its body. -/
theorem Ctx.sure.unspec {c : Ctx} (h : c.sure) (k : Ctx → Res) : c.unspec k = k c := by
  unfold Ctx.sure at h
  unfold Ctx.unspec
  cases hk : c.s.kind != .ordered
  · rw [hk, Bool.false_or] at h
    rw [if_neg Bool.false_ne_true]
    split
    · next hl => rw [hl] at h; rw [if_neg (by simpa using h)]
    · next hl => rw [hl] at h; rw [if_pos h]
    · next hne hne1 => 
      split at h
      · next hl => exact absurd hl hne
      · next hl => exact absurd hl (hne1 _)
      · exact nomatch h
  · rw [if_pos rfl]

/-! ### Slots that are woken (R22) -/

/-- Slot b is slot a, woken or not. -/
def Slot.Woken (a b : Slot) : Prop := b = a ∨ ∃ clock, b = a.toReady clock

theorem Slot.Woken.refl (a : Slot) : a.Woken a := Or.inl rfl

theorem Slot.Woken.files {a b : Slot} (h : a.Woken b) : b.aregs = a.aregs ∧ b.vregs = a.vregs ∧ b.kregs = a.kregs ∧ b.pc = a.pc := by
  rcases h with rfl | ⟨clock, rfl⟩ <;> exact ⟨rfl, rfl, rfl, rfl⟩

theorem Slot.Woken.V {a b : Slot} (h : a.Woken b) (j : Nat) : b.V j = a.V j := by
  rw [Slot.V, h.files.2.1, Slot.V]

theorem Core.slot_wake (c : Core) (clock : Nat) (p : Nat → Slot → WaitFor → Bool) (n : Nat) :
    (c.slot n).Woken ((c.wake clock p).slot n) := by
  unfold Core.slot Core.wake
  split
  · rw [AMap.get_map]
    · split
      · split
        · exact Or.inr ⟨_, rfl⟩
        · exact Or.inl rfl
      · exact Or.inl rfl
    · intro e
      split
      · split <;> rfl
      · rfl
    · rfl
  · exact Or.inl rfl

theorem Core.bare_wake (c : Core) (clock : Nat) (p : Nat → Slot → WaitFor → Bool) : (c.wake clock p).bare = c.bare := rfl

theorem Dev.slot_wake (d : Dev) (k : Nat) (p : Nat → Slot → WaitFor → Bool) (h n : Nat) : (d.slot h n).Woken ((d.wake k p).slot h n) := by
  unfold Dev.wake Dev.slot
  by_cases hk : h = k
  · rw [hk, Dev.core_updCore_self]
    exact Core.slot_wake _ _ _ _
  · rw [Dev.core_updCore_ne _ _ _ _ hk]
    exact Slot.Woken.refl _

theorem Dev.bare_core_wake (d : Dev) (k : Nat) (p : Nat → Slot → WaitFor → Bool) (h : Nat) :
    ((d.wake k p).core h).bare = (d.core h).bare := by
  unfold Dev.wake
  by_cases hk : h = k
  · rw [hk, Dev.core_updCore_self, Core.bare_wake]
  · rw [Dev.core_updCore_ne _ _ _ _ hk]

/-! ### Writes on the link (R34, R103) -/

section
variable (c : Core) (dir : Dir) (l : List (Nat × Nat × Nat × V512))

@[simp] theorem Core.heldLink_setQueue : (c.setQueue dir l).heldLink dir = c.heldLink dir := by cases dir <;> rfl
@[simp] theorem Core.linkQueue_setQueue : (c.setQueue dir l).linkQueue dir = l := by cases dir <;> rfl
@[simp] theorem Core.slot_setQueue (n : Nat) : (c.setQueue dir l).slot n = c.slot n := by cases dir <;> rfl
@[simp] theorem Core.prof_setQueue : (c.setQueue dir l).prof = c.prof := by cases dir <;> rfl
@[simp] theorem Core.heldLink_setLink : (c.setLink dir l).heldLink dir = l := by cases dir <;> rfl
@[simp] theorem Core.linkQueue_setLink : (c.setLink dir l).linkQueue dir = c.linkQueue dir := by cases dir <;> rfl
@[simp] theorem Core.slot_setLink (n : Nat) : (c.setLink dir l).slot n = c.slot n := by cases dir <;> rfl
@[simp] theorem Core.heldLink_bump (g i b : Nat) : (c.bump g i b).heldLink dir = c.heldLink dir := by cases dir <;> rfl

end

theorem Dev.CoreIs.refl (d : Dev) (h : Nat) : d.CoreIs d h (d.core h) := ⟨rfl, fun _ _ => rfl, rfl⟩

/-- A slot of a core that became k. -/
theorem Dev.CoreIs.slot {d e : Dev} {h : Nat} {k : Core} (he : d.CoreIs e h k) (j n : Nat) :
    e.slot j n = if j = h then k.slot n else d.slot j n := by
  split
  · next hj => rw [Dev.slot, hj, he.core]
  · next hj => rw [Dev.slot, he.others j hj, Dev.slot]

theorem Dev.CoreIs.sameSlots {d e : Dev} {h : Nat} {k : Core} (he : d.CoreIs e h k) (hk : ∀ n, k.slot n = (d.core h).slot n) :
    d.sameSlots e := by
  intro j n
  rw [he.slot]
  split
  · next hj => rw [hk, hj, Dev.slot]
  · rfl

/-- One write comes off the link of a core that has room: what it does is the core's change f, and the link is empty. -/
theorem takeLinks_one {d : Dev} {src : Dir} {h : Nat} {e : Nat × Nat × Nat × V512} {f : Core → Core}
    (hq : (d.core h).linkQueue src = []) (hroom : (d.core h).linkFull src = false) (htake : d.takeLink h src e = d.updCore h f) :
    d.CoreIs (Dev.takeLinks src h ((d.core h).linkQueue src ++ [e]) d) h ((f (d.core h)).setQueue src []) := by
  rw [hq, List.nil_append, Dev.takeLinks, hroom, if_neg Bool.false_ne_true, Dev.takeLinks, htake]
  exact ((Dev.CoreIs.refl d h).updCore f).updCore _

/-- Behind four held writes an arrival stands on the link. -/
theorem takeLinks_full {d : Dev} {src : Dir} {h : Nat} (e : Nat × Nat × Nat × V512) (hfull : (d.core h).linkFull src = true) :
    d.CoreIs (Dev.takeLinks src h ((d.core h).linkQueue src ++ [e]) d) h
      ((d.core h).setQueue src ((d.core h).linkQueue src ++ [e])) := by
  cases hq : (d.core h).linkQueue src with
  | nil =>
    rw [List.nil_append, Dev.takeLinks, hfull, if_pos rfl]
    exact (Dev.CoreIs.refl d h).updCore _
  | cons x xs =>
    rw [List.cons_append, Dev.takeLinks, hfull, if_pos rfl]
    exact (Dev.CoreIs.refl d h).updCore _

section
variable {d : Dev} {h slot reg lk : Nat} {src : Dir} {v : V512}

/-- An arrival for a slot that has no such register, or is not the launch's, is discarded and counted. -/
theorem takeLink_away (hs : d.savedSlot lk h slot = none)
    (haway : (d.slot h slot).st = .free ∨ (d.slot h slot).lk ≠ lk ∨ (d.slot h slot).winCount ≤ reg) :
    d.takeLink h src (slot, reg, lk, v) = d.updCore h (fun c => c.bump 2 0 1) := by
  have htarget : ((d.linkTarget h slot lk).filter (fun t => decide (reg < t.2.winCount))) = none := by
    unfold Dev.linkTarget
    rw [hs]
    dsimp only
    split
    · next hlive =>
      simp only [Bool.and_eq_true, bne_iff_ne, beq_iff_eq] at hlive
      rcases haway with h1 | h2 | h3
      · exact absurd h1 hlive.1
      · exact absurd hlive.2 h2
      · simp [Option.filter, h3]
    · rfl
  simp only [Dev.takeLink, htarget]

/-- An arrival for a live register lands where it is awaited from this neighbour, and is held elsewhere. -/
theorem takeLink_live (hs : d.savedSlot lk h slot = none)
    (hlive : ¬((d.slot h slot).st = .free ∨ (d.slot h slot).lk ≠ lk ∨ (d.slot h slot).winCount ≤ reg)) :
    d.takeLink h src (slot, reg, lk, v) = if (d.slot h slot).vst.get .present reg = .awaiting src then
        d.updCore h (fun c => c.land slot reg v) else d.updCore h (fun c => c.setLink src (c.heldLink src ++ [(slot, reg, lk, v)])) := by
  simp only [not_or, not_not, not_le] at hlive
  obtain ⟨h1, h2, h3⟩ := hlive
  have htarget : ((d.linkTarget h slot lk).filter (fun t => decide (reg < t.2.winCount))) = some (false, d.slot h slot) := by
    unfold Dev.linkTarget
    rw [hs]
    simp [h1, h2, Option.filter, h3]
  simp only [Dev.takeLink, htarget, Bool.not_false, Bool.true_and, beq_iff_eq]

end

theorem Core.slot_land (c : Core) (n reg : Nat) (v : V512) (m : Nat) :
    (c.land n reg v).slot m = if m = n then (c.slot n).land reg v else c.slot m := by
  have h : (c.land n reg v).slot m = (c.updSlot n (fun s => s.land reg v)).slot m := rfl
  rw [h]
  split
  · next hm => rw [hm, Core.slot_updSlot_self]
  · next hm => exact Core.slot_updSlot_ne _ _ _ _ hm

theorem Slot.V_land (s : Slot) (reg : Nat) (v : V512) (j : Nat) : (s.land reg v).V j = if j = reg then v else s.V j := by
  have h : (s.land reg v).V j = (s.setV reg v).V j := rfl
  rw [h]
  split
  · next hj => rw [hj, Slot.V_setV_self]
  · next hj => exact Slot.V_setV_ne _ _ _ _ hj

theorem Slot.present_land (s : Slot) (reg : Nat) (v : V512) : (s.land reg v).vst.get .present reg = .present := by
  have h : (s.land reg v).vst = s.vst.erase reg := rfl
  rw [h, AMap.get_erase, if_pos rfl]

/-- What an arrival does, case by case. -/
theorem linkWriteArrival_events (dst slot reg lk : Nat) (src : Dir) (v : V512) :
    let i := Instr.linkWriteArrival dst src slot reg lk v
    let away := fun (d : Dev) => (d.slot dst slot).st = .free ∨ (d.slot dst slot).lk ≠ lk ∨ (d.slot dst slot).winCount ≤ reg
    let waits := fun (d : Dev) => (d.slot dst slot).vst.get .present reg = .awaiting src
    let open_ := fun (d : Dev) => d.savedSlot lk dst slot = none ∧ (d.core dst).linkQueue src = [] ∧ (d.core dst).linkFull src = false
    Event i (fun _ d => open_ d ∧ away d)
      (fun _ d e => (e.core dst).prof.get 0#64 512 = (d.core dst).prof.get 0#64 512 + 1#64 ∧
        (∀ h n j, (e.slot h n).V j = (d.slot h n).V j) ∧ (e.core dst).heldLink src = (d.core dst).heldLink src) ∧
    Event i (fun _ d => open_ d ∧ ¬away d ∧ waits d)
      (fun _ d e => (e.slot dst slot).V reg = v ∧ (e.slot dst slot).vst.get .present reg = .present ∧
        (∀ h n j, ¬(h = dst ∧ n = slot ∧ j = reg) → (e.slot h n).V j = (d.slot h n).V j)) ∧
    Event i (fun _ d => open_ d ∧ ¬away d ∧ ¬waits d)
      (fun _ d e => d.sameSlots e ∧ (e.core dst).heldLink src = (d.core dst).heldLink src ++ [(slot, reg, lk, v)]) ∧
    Event i (fun _ d => (d.core dst).linkFull src = true)
      (fun _ d e => d.sameSlots e ∧ (e.core dst).heldLink src = (d.core dst).heldLink src ∧
        (e.core dst).linkQueue src = (d.core dst).linkQueue src ++ [(slot, reg, lk, v)]) := by
  refine ⟨fun s ⟨⟨hs, hq, hroom⟩, haway⟩ => ?_, fun s ⟨⟨hs, hq, hroom⟩, hlive, hwaits⟩ => ?_, fun s ⟨⟨hs, hq, hroom⟩, hlive, hwaits⟩ => ?_,
    fun s hfull => ?_⟩ <;> refine ⟨_, rfl, fun _ => rfl, ?_⟩
  · have he := takeLinks_one hq hroom (takeLink_away (v := v) hs haway)
    have hslots := he.sameSlots (fun n => by rw [Core.slot_setQueue]; rfl)
    refine ⟨?_, fun h n j => by rw [hslots h n], ?_⟩
    · rw [he.core, Core.prof_setQueue]
      exact AMap.get_put_self _ _ _ _
    · rw [he.core, Core.heldLink_setQueue, Core.heldLink_bump]
  · have he := takeLinks_one (f := fun c => c.land slot reg v) hq hroom ((takeLink_live hs hlive).trans (if_pos hwaits))
    have hslot : ∀ h n, _ = _ := he.slot
    simp only [Core.slot_setQueue, Core.slot_land] at hslot
    refine ⟨?_, ?_, fun h n j hne => ?_⟩
    · rw [hslot, if_pos rfl, if_pos rfl, Slot.V_land, if_pos rfl]
    · rw [hslot, if_pos rfl, if_pos rfl, Slot.present_land]
    · rw [hslot]
      split
      · next hh =>
        subst hh
        split
        · next hn =>
          subst hn
          rw [Slot.V_land, if_neg (fun hj => hne ⟨rfl, rfl, hj⟩)]
          rfl
        · rfl
      · rfl
  · have he := takeLinks_one (f := fun c => c.setLink src (c.heldLink src ++ [(slot, reg, lk, v)])) hq hroom
      ((takeLink_live hs hlive).trans (if_neg hwaits))
    refine ⟨he.sameSlots (fun n => by rw [Core.slot_setQueue, Core.slot_setLink]), ?_⟩
    rw [he.core, Core.heldLink_setQueue, Core.heldLink_setLink]
  · have he := takeLinks_full (slot, reg, lk, v) hfull
    refine ⟨he.sameSlots (fun n => by rw [Core.slot_setQueue]), ?_, ?_⟩
    · rw [he.core, Core.heldLink_setQueue]
    · rw [he.core, Core.linkQueue_setQueue]

/-- Room on an empty link wakes a neighbour at most. -/
theorem linkRoom_of_empty {d : Dev} {h : Nat} {src : Dir} (hq : (d.core h).linkQueue src = []) :
    ((d.linkRoom h src).core h).heldLink src = (d.core h).heldLink src ∧ ∀ j n, (d.slot j n).Woken ((d.linkRoom h src).slot j n) := by
  have he := (Dev.CoreIs.refl d h).updCore (fun c => c.setQueue src [])
  have hslots := he.sameSlots (fun n => by rw [Core.slot_setQueue])
  have hheld : ((d.updCore h (fun c => c.setQueue src [])).core h).heldLink src = (d.core h).heldLink src := by
    rw [he.core, Core.heldLink_setQueue]
  unfold Dev.linkRoom
  rw [hq, Dev.takeLinks]
  dsimp only
  split
  · exact ⟨hheld, fun j n => Or.inl (hslots j n)⟩
  · split
    · exact ⟨hheld, fun j n => Or.inl (hslots j n)⟩
    · next p _ _ =>
      refine ⟨?_, fun j n => hslots j n ▸ Dev.slot_wake _ _ _ _ _⟩
      have hbare := Dev.bare_core_wake (d.updCore h (fun c => c.setQueue src [])) p (fun _ _ w => w == .link) h
      rw [← hheld]
      cases src
      · exact (congrArg Core.linkUp hbare :)
      · exact (congrArg Core.linkDown hbare :)

theorem linkwArm_lands (dir : Dir) (d : VReg) :
    let held := fun (c : Ctx) => ((c.d.core c.h).heldLink dir).find? (fun e => e.1 == c.n && e.2.1 == d.toNat && e.2.2.1 == c.s.lk)
    Acts (.linkwArm dir d) (useV [d] [wv d]) (fun c => (held c).isSome ∧ (c.d.core c.h).linkQueue dir = []) [] [d.toNat] []
      (fun c e => ∀ x, held c = some x → (e.slot c.h c.n).V d.toNat = x.2.2.2 ∧
        (e.core c.h).heldLink dir = ((c.d.core c.h).heldLink dir).erase x) := by
  intro held
  refine acts_of (fun _ => by unfold exec execLinkwArm; rfl) (fun c hc ⟨hsome, hq⟩ => ?_)
  obtain ⟨e, he⟩ := Option.isSome_iff_exists.mp hsome
  have hfind : ((c.d.core c.h).heldLink dir).find? (fun e => e.1 == c.n && e.2.1 == d.toNat && e.2.2.1 == c.s.lk) = some e := he
  simp only [hfind]
  refine ⟨_, rfl, ?_⟩
  have hbare : (((c.d.updCore c.h (fun k => k.setLink dir (((c.d.core c.h).heldLink dir).erase e))).setSlot c.h c.n
      (c.s.land d.toNat e.2.2.2)).core c.h).bare = ((c.d.core c.h).setLink dir (((c.d.core c.h).heldLink dir).erase e)).bare := by
    rw [Dev.setSlot, Dev.core_updSlot_bare, Dev.core_updCore_self]
  have hself := Dev.slot_setSlot_self (c.d.updCore c.h (fun k => k.setLink dir (((c.d.core c.h).heldLink dir).erase e))) c.h c.n
    (c.s.land d.toNat e.2.2.2)
  generalize (c.d.updCore c.h (fun k => k.setLink dir (((c.d.core c.h).heldLink dir).erase e))).setSlot c.h c.n
      (c.s.land d.toNat e.2.2.2) = x at *
  have hqueue : (x.core c.h).linkQueue dir = [] := by
    cases dir
    · exact (congrArg Core.waitUp hbare :).trans hq
    · exact (congrArg Core.waitDown hbare :).trans hq
  have hheld : (x.core c.h).heldLink dir = ((c.d.core c.h).heldLink dir).erase e := by
    cases dir
    · exact (congrArg Core.linkUp hbare :)
    · exact (congrArg Core.linkDown hbare :)
  obtain ⟨hroom, hwoken⟩ := linkRoom_of_empty hqueue
  have hslot : (c.s.land d.toNat e.2.2.2).Woken ((x.linkRoom c.h dir).slot c.h c.n) := hself ▸ hwoken c.h c.n
  generalize x.linkRoom c.h dir = y at *
  obtain ⟨ha, hv, hk, -⟩ := hslot.files
  refine ⟨⟨fun j _ => ?_, fun j hj => ?_, fun j _ => ?_⟩, fun z hz => ?_⟩
  · rw [Slot.A, ha]
    rfl
  · rw [hslot.V, Slot.V_land, if_neg (by simpa using hj)]
  · rw [Slot.K, hk]
    rfl
  · obtain rfl : e = z := Option.some.inj (he.symm.trans hz)
    refine ⟨?_, ?_⟩
    · rw [Ctx.finish_slot _ _ _ _ hc.step, Slot.issued_V, hslot.V, Slot.V_land, if_pos rfl]
    · have hfin := Ctx.finish_core_bare c (useV [d] [wv d]) y (c.s.pc + 8#64) hc.step c.h
      rw [← hheld, ← hroom]
      cases dir
      · exact (congrArg Core.linkUp hfin :)
      · exact (congrArg Core.linkDown hfin :)

/-- Settles O17: `linkWriteArrival_events` for what arrives, `linkwArm_lands` for a held write that is taken. -/
theorem neighbourLink : Obligations.NeighbourLink := by
  refine ⟨fun dir a d b t => ⟨?send, ?full, ?none, ?arm, linkwArm_lands dir d⟩, linkWriteArrival_events⟩
  case send =>
    refine acts_of (fun _ => by unfold exec execLinkw; rfl) (fun c hc ⟨hsure, hn, hhas, hroom, hgroups⟩ => ?_)
    rw [hsure.unspec]
    simp only [hn, hhas, hroom, hgroups, Bool.not_true, List.isEmpty_nil, Bool.false_eq_true, if_false]
    refine ⟨_, rfl, ?_, ?_, fun k hk => ?_, ?_⟩
    · exact hc.own ▸ KeptFiles.refl _
    · obtain ⟨due, chan, hdue, hnet⟩ := c.d.sends_send (chanOf 6 c.h t) (.linkWriteArrival t (Dir.flip dir) ((c.s.A b.toNat).toNat % 64)
        ((c.s.A b.toNat).extractLsb' 8 7).toNat c.s.lk (c.s.V a.toNat))
      refine ⟨due, chan, hdue, ?_⟩
      rw [Ctx.finish_net, hnet]
      simp [BitVec.extractLsb'_toNat, Nat.shiftRight_eq_div_pow]
    · exact Ctx.finish_core_ne _ _ _ _ hc.step k hk
    · exact Ctx.finish_still _ _ _ _
  case full =>
    refine waitsWhen_of (fun _ => by unfold exec execLinkw; rfl) (fun c hc ⟨hsure, hn, hhas, hfull⟩ => ?_)
    rw [hsure.unspec]
    simp only [hn, hhas, hfull, Bool.not_true, Bool.false_eq_true, if_false, if_true]
    exact ⟨_, rfl, by rw [hc.own], hc.own ▸ KeptFiles.refl _⟩
  case none =>
    refine faultForm_traps 0x21 1 (fun _ => by unfold exec execLinkw; rfl) (fun c ⟨hsure, hn⟩ => ?_)
    rw [hsure.unspec]
    cases ht : neighbour c.h dir with
    | none => rfl
    | some t => simp [hn t ht]
  case arm =>
    refine acts_of (fun _ => by unfold exec execLinkwArm; rfl) (fun c hc hnone => ?_)
    simp only [hnone, Ctx.done]
    refine ⟨_, rfl, ?_, ?_, Ctx.finish_still _ _ _ _⟩
    · rw [Dev.slot_setSlot_self]
      exact .of_files rfl rfl rfl
    · rw [Ctx.finish_slot _ _ _ _ hc.step, Dev.slot_setSlot_self]
      exact AMap.get_put_self _ _ _ _

end Sys2Proof.Machine
end

section
/-! PROOFS. Groups that start and end leave slots alone (R142); special registers, traps and breakpoints (R35, R36, R296, R297, R299). -/

namespace Sys2Proof.Machine

/-! ### Slots beside an operation of the groups -/

/-- Slot b is slot a, but for its outstanding instructions and its answer; if it waited, for another thing than a service wake, it may be
READY. -/
def Slot.Aside (a b : Slot) : Prop := ∃ o r st t y, b = { a with ops := o, reply := r, st := st, readyAt := t, yielded := y } ∧
  (st = a.st ∨ (∃ w, w ≠ .service ∧ a.st = .waiting w) ∧ st = .ready)

theorem Slot.Aside.refl (a : Slot) : a.Aside a := ⟨a.ops, a.reply, a.st, a.readyAt, a.yielded, rfl, Or.inl rfl⟩

theorem Slot.Aside.trans {a b c : Slot} (h : a.Aside b) (g : b.Aside c) : a.Aside c := by
  obtain ⟨o, r, st, t, y, rfl, hst⟩ := h
  obtain ⟨o', r', st', t', y', rfl, hst'⟩ := g
  refine ⟨o', r', st', t', y', rfl, ?_⟩
  rcases hst with rfl | ⟨hw, rfl⟩
  · exact hst'
  · rcases hst' with rfl | ⟨⟨w, -, hw'⟩, -⟩
    · exact Or.inr ⟨hw, rfl⟩
    · exact nomatch hw'

theorem Slot.Aside.pc {a b : Slot} (h : a.Aside b) : b.pc = a.pc := by obtain ⟨_, _, _, _, _, rfl, -⟩ := h; rfl
theorem Slot.Aside.frec0 {a b : Slot} (h : a.Aside b) : b.frec0 = a.frec0 := by obtain ⟨_, _, _, _, _, rfl, -⟩ := h; rfl
theorem Slot.Aside.A {a b : Slot} (h : a.Aside b) (j : Nat) : b.A j = a.A j := by obtain ⟨_, _, _, _, _, rfl, -⟩ := h; rfl
theorem Slot.Aside.V {a b : Slot} (h : a.Aside b) (j : Nat) : b.V j = a.V j := by obtain ⟨_, _, _, _, _, rfl, -⟩ := h; rfl
theorem Slot.Aside.K {a b : Slot} (h : a.Aside b) (j : Nat) : b.K j = a.K j := by obtain ⟨_, _, _, _, _, rfl, -⟩ := h; rfl
theorem Slot.Aside.lk {a b : Slot} (h : a.Aside b) : b.lk = a.lk := by obtain ⟨_, _, _, _, _, rfl, -⟩ := h; rfl

/-- A slot that does not wait, or waits for a service wake, keeps its state. -/
theorem Slot.Aside.st_eq {a b : Slot} (h : a.Aside b) (hw : ∀ w, w ≠ .service → a.st ≠ .waiting w) : b.st = a.st := by
  obtain ⟨_, _, _, _, _, rfl, rfl | ⟨⟨w, hne, hst⟩, -⟩⟩ := h
  · rfl
  · exact absurd hst (hw w hne)

theorem Slot.Aside.st {a b : Slot} (h : a.Aside b) (hw : ∀ w, a.st ≠ .waiting w) : b.st = a.st := h.st_eq (fun w _ => hw w)

/-- From d to e every slot is as it was, but as `Slot.Aside` says. -/
def Dev.Aside (d e : Dev) : Prop := ∀ h n, (d.slot h n).Aside (e.slot h n)

theorem Dev.Aside.refl (d : Dev) : d.Aside d := fun _ _ => .refl _
theorem Dev.Aside.trans {d e f : Dev} (h : d.Aside e) (g : e.Aside f) : d.Aside f := fun j n => (h j n).trans (g j n)

theorem Dev.Aside.of_cores {d e : Dev} (h : e.cores = d.cores) : d.Aside e := by
  intro j n
  have hs : e.slot j n = d.slot j n := by rw [Dev.slot, Dev.core, h, ← Dev.core, ← Dev.slot]
  rw [hs]
  exact .refl _

theorem Dev.Aside.of_slots {d e : Dev} (h : ∀ j n, e.slot j n = d.slot j n) : d.Aside e := by
  intro j n
  rw [h]
  exact .refl _

theorem Dev.QuaysOnly.aside {d e : Dev} (h : d.QuaysOnly e) : d.Aside e := .of_cores h.cores

theorem Dev.aside_updSlot {d : Dev} {h n : Nat} {f : Slot → Slot} (hf : (d.slot h n).Aside (f (d.slot h n))) : d.Aside (d.updSlot h n f) := by
  intro j m
  by_cases hj : j = h ∧ m = n
  · obtain ⟨rfl, rfl⟩ := hj
    rw [Dev.slot_updSlot_self]
    exact hf
  · rw [Dev.slot_updSlot_ne _ _ _ _ _ _ hj]
    exact .refl _

theorem Dev.aside_wakeSlot (d : Dev) (h n : Nat) (p : WaitFor → Bool) (hp : p .service = false) : d.Aside (d.wakeSlot h n p) := by
  unfold Dev.wakeSlot
  split
  · next w hw =>
    split
    · next hpw =>
      exact Dev.aside_updSlot ⟨_, _, _, _, _, rfl, Or.inr ⟨⟨w, fun hs => Bool.noConfusion (hp.symm.trans (hs ▸ hpw)), hw⟩, rfl⟩⟩
    · exact .refl _
  · exact .refl _

theorem Dev.aside_wakeVisible (d : Dev) (h n : Nat) : d.Aside (d.wakeVisible h n) := by
  unfold Dev.wakeVisible
  split <;> exact Dev.aside_wakeSlot _ _ _ _ rfl

theorem Dev.aside_reply (d : Dev) (h n : Nat) (r : Reply) : d.Aside (d.reply h n r) := by
  unfold Dev.reply
  split
  · exact .refl _
  · split
    · exact Dev.aside_updSlot ⟨_, _, _, _, _, rfl, Or.inl rfl⟩
    · exact (Dev.aside_updSlot (f := fun s => { s with reply := r }) ⟨_, _, _, _, _, rfl, Or.inl rfl⟩).trans (Dev.aside_wakeSlot _ _ _ _ rfl)

theorem Core.aside_wake (c : Core) (clock : Nat) (p : Nat → Slot → WaitFor → Bool) (hp : ∀ n s, p n s .service = false) (n : Nat) :
    (c.slot n).Aside ((c.wake clock p).slot n) := by
  unfold Core.slot Core.wake
  split
  · rw [AMap.get_map]
    · split
      · next w hw =>
        split
        · next hpw =>
          exact ⟨_, _, _, _, _, rfl, Or.inr ⟨⟨w, fun hs => Bool.noConfusion ((hp _ _).symm.trans (hs ▸ hpw)), hw⟩, rfl⟩⟩
        · exact .refl _
      · exact .refl _
    · intro e
      split
      · split <;> rfl
      · rfl
    · rfl
  · exact .refl _

theorem Dev.aside_wake (d : Dev) (k : Nat) (p : Nat → Slot → WaitFor → Bool) (hp : ∀ n s, p n s .service = false) : d.Aside (d.wake k p) := by
  intro h n
  unfold Dev.wake Dev.slot
  by_cases hk : h = k
  · rw [hk, Dev.core_updCore_self]
    exact Core.aside_wake _ _ _ hp _
  · rw [Dev.core_updCore_ne _ _ _ _ hk]
    exact .refl _

theorem Dev.aside_grantNext (d : Dev) (m : Memory) (pa : Nat) : d.Aside (d.grantNext m pa) := by
  unfold Dev.grantNext
  dsimp only
  split
  · exact .refl _
  · split
    · exact .refl _
    · split
      · split
        · exact (Dev.quayWaited_quaysOnly _ _ _).aside
        · exact (Dev.quayWaited_quaysOnly _ _ _).aside
      · next e he =>
        refine (Dev.quay_quaysOnly he).aside.trans ?_
        split <;> exact .of_cores rfl

theorem Dev.unpin_cores (d : Dev) (pa : Nat) : (d.unpin pa).cores = d.cores := by
  unfold Dev.unpin
  dsimp only
  split <;> rfl

theorem Dev.aside_later (d : Dev) (cycles : Nat) (e : Ev) : d.Aside (d.later cycles e) := .of_cores rfl
theorem Dev.aside_send (d : Dev) (chan : Nat) (e : Ev) : d.Aside (d.send chan e) := .of_cores rfl
theorem Dev.aside_updLaunch (d : Dev) (lk : Nat) (f : Launch → Launch) : d.Aside (d.updLaunch lk f) := by
  refine .of_cores ?_
  unfold Dev.updLaunch
  split <;> rfl
theorem Dev.aside_updTerr (d : Dev) (t : Nat) (f : Terrace → Terrace) : d.Aside (d.updTerr t f) := .of_cores rfl
theorem Dev.aside_updGroup (d : Dev) (id : Nat) (f : Grp → Grp) : d.Aside (d.updGroup id f) := .of_cores rfl
theorem Dev.aside_dropTask (d : Dev) (lk : Nat) (id : W32) : d.Aside (d.dropTask lk id) := .of_cores rfl

theorem Dev.aside_unhold (d : Dev) (m : Memory) (pa h n : Nat) : d.Aside (d.unhold m pa h n) :=
  (Dev.Aside.of_cores (e := (d.updHome (homeOf pa) (fun x =>
    { x with holders := x.holders.filter (fun r => !(r.pa == pa && r.h == h && r.n == n)) })).unpin pa) (Dev.unpin_cores _ _)).trans
    (Dev.aside_grantNext _ _ _)

/-! ### Groups that start and end (R142) -/

/-- A group without lines meets no task's signature. -/
theorem Dev.broadcast_nil (d : Dev) (lk pair : Nat) : d.broadcast lk pair [] = d := by
  simp [Dev.broadcast]

theorem Dev.aside_finish (d : Dev) (m : Memory) (f : Fin) : d.Aside (d.finish m [] f) := by
  unfold Dev.finish
  split
  · exact d.aside_wakeVisible _ _
  · split
    · exact .refl _
    · rw [Dev.broadcast_nil]
      refine Dev.Aside.trans ?_ (Dev.aside_later _ _ _)
      split
      · exact (d.aside_updLaunch _ _).trans ((Dev.aside_dropTask _ _ _).trans (Dev.aside_wake _ _ (fun _ _ w => w == .records) (fun _ _ => rfl)))
      · exact d.aside_updLaunch _ _
  · split
    · exact d.aside_unhold _ _ _ _
    · exact .refl _
  · refine (Dev.aside_updSlot ?_).trans ((Dev.aside_unhold _ _ _ _ _).trans (Dev.aside_send _ _ _))
    exact ⟨_, _, _, _, _, rfl, Or.inl rfl⟩
  · exact d.aside_send _ _
  · exact d.aside_reply _ _ _
  · exact .of_cores rfl
  · exact .of_cores rfl
  all_goals exact .refl _

theorem Dev.aside_retire (d : Dev) (m : Memory) {g : Grp} (hg : g.lines = []) : d.Aside (d.retire m g) := by
  unfold Dev.retire
  rw [hg]
  refine List.foldlRecOn (motive := fun x : Dev => d.Aside x) _ _ ?_ (fun x hx f _ => hx.trans (x.aside_finish m f))
  refine .of_slots (fun j n => ?_)
  refine Dev.slot_updCore_of ?_ { d with groups := d.groups.filter (fun x => x.id != g.id) } g.core j n
  exact fun _ _ => rfl

/-- Lines have homes. -/
theorem homesOf_eq_nil {ls : List GLine} (h : (homesOf ls).isEmpty = true) : ls = [] := by
  have hfirst : ∀ (qs acc : List Nat), qs ≠ [] ∨ acc ≠ [] →
      qs.foldl (fun acc q => if acc.contains q then acc else acc ++ [q]) acc ≠ [] := by
    intro qs
    induction qs with
    | nil => exact fun acc hne => hne.resolve_left (fun h => h rfl)
    | cons q qs ih =>
      refine fun acc _ => ih _ (Or.inr ?_)
      dsimp only
      split
      · next hq => exact List.ne_nil_of_mem (by simpa using hq)
      · simp
  have hsorted : ∀ qs : List Nat, qs ≠ [] → qs.foldl (fun acc q => acc.takeWhile (· < q) ++ q :: acc.dropWhile (· < q)) [] ≠ [] := by
    intro qs hne
    rw [← List.dropLast_append_getLast hne, List.foldl_append]
    simp
  by_contra hne
  exact hsorted _ (hfirst _ [] (Or.inl (by simpa using hne))) (List.isEmpty_iff.mp h)

theorem Dev.aside_advance (d : Dev) (m : Memory) (id : Nat) : d.Aside (d.advance m id) := by
  unfold Dev.advance
  split
  · exact .refl _
  · split
    · exact .of_cores rfl
    · dsimp only
      split
      · next hall => exact d.aside_retire m (homesOf_eq_nil hall)
      · refine .of_cores (Dev.cores_foldl_send _ (fun _ => 0) (fun q => .groupRelease id q) _)

theorem Dev.aside_startGroups (m : Memory) (k : Nat) (d : Dev) : d.Aside (d.startGroups m k) := by
  induction k generalizing d with
  | zero => exact .refl _
  | succ k ih =>
    unfold Dev.startGroups
    split
    · exact .refl _
    · exact (d.aside_updGroup _ _).trans ((Dev.aside_advance _ _ _).trans (ih _))

theorem Dev.aside_settle (d : Dev) (m : Memory) : d.Aside (d.settle m) := d.aside_startGroups m _

theorem Dev.aside_addGroup (d : Dev) (m : Memory) (lines : List GLine) (fn core : Nat) (after : Option Nat) (fin : List Fin) :
    d.Aside (d.addGroup m lines fn core after fin) := by
  unfold Dev.addGroup
  refine Dev.Aside.trans ?_ (Dev.aside_settle _ _)
  exact .of_cores rfl

theorem Dev.aside_traceRec (d : Dev) (m : Memory) (t type status core : Nat) (task : W32) (gtid : BitVec 48) (n : Nat) (pc : W64) :
    d.Aside (d.traceRec m t type status core task gtid n pc) := by
  unfold Dev.traceRec
  dsimp only
  split
  · exact d.aside_updTerr _ _
  · exact (d.aside_updTerr _ _).trans (Dev.aside_addGroup _ _ _ _ _ _ _)

theorem Dev.aside_traceSlot (d : Dev) (m : Memory) (h n type : Nat) : d.Aside (d.traceSlot m h n type) := d.aside_traceRec m _ _ _ _ _ _ _ _

/-! ### Special registers (R35, R36, R296) -/

theorem getLsbD_tswUser {i : Nat} (hi : i < 32) : tswUser.getLsbD i = decide (4 ≤ i ∧ i ≤ 7 ∨ 16 ≤ i) := by
  have h : ∀ j, j < 32 → tswUser.getLsbD j = decide (4 ≤ j ∧ j ≤ 7 ∨ 16 ≤ j) := by decide
  exact h i hi

theorem getLsbD_tswPriv {i : Nat} (hi : i < 32) : tswPriv.getLsbD i = decide (i = 8 ∨ i = 9) := by
  have h : ∀ j, j < 32 → tswPriv.getLsbD j = decide (j = 8 ∨ j = 9) := by decide
  exact h i hi

theorem getLsbD_putBit (w : W32) (j : Nat) (b : Bool) {i : Nat} (hi : i < 32) :
    (putBit w j b).getLsbD i = if i = j then b else w.getLsbD i := by
  unfold putBit
  cases b
  · rw [if_neg Bool.false_ne_true, BitVec.getLsbD_and, BitVec.getLsbD_not, getLsbD_shiftLeft_one hi]
    by_cases h : i = j <;> simp [h, hi]
  · rw [if_pos rfl, BitVec.getLsbD_or, getLsbD_shiftLeft_one hi]
    by_cases h : i = j <;> simp [h]

/-- A write would change PRIV or RECOV. -/
theorem tswPrivBreach_iff (x y : W32) : tswPrivBreach x y = true ↔ x.getLsbD 8 ≠ y.getLsbD 8 ∨ x.getLsbD 9 ≠ y.getLsbD 9 := by
  rw [tswPrivBreach, bne_iff_ne, ← not_iff_not, not_not, not_or, not_not, not_not]
  constructor
  · intro h
    have hbit := fun i => congrArg (·.getLsbD i) h
    simp only [BitVec.getLsbD_and] at hbit
    have h8 := hbit 8
    have h9 := hbit 9
    rw [getLsbD_tswPriv (by decide)] at h8 h9
    simpa using And.intro h8 h9
  · rintro ⟨h8, h9⟩
    refine BitVec.eq_of_getLsbD_eq fun i hi => ?_
    rw [BitVec.getLsbD_and, BitVec.getLsbD_and, getLsbD_tswPriv hi]
    by_cases h : i = 8 ∨ i = 9
    · rcases h with rfl | rfl
      · rw [h8]
      · rw [h9]
    · simp [h]

/-- The bits of %tsw after an mts that changes PRIV and RECOV only where it may. -/
theorem getLsbD_tswWrite (old v : W32) (priv : Bool) (hok : ¬(priv = false ∧ (old.getLsbD 8 ≠ v.getLsbD 8 ∨ old.getLsbD 9 ≠ v.getLsbD 9)))
    {i : Nat} (hi : i < 32) : (tswWrite old v priv).getLsbD i =
      if (4 ≤ i ∧ i ≤ 9) ∧ i ≠ 8 ∧ i ≠ 9 ∨ 16 ≤ i then v.getLsbD i
      else if i = 8 ∨ i = 9 then v.getLsbD i
      else if i = 2 then old.getLsbD 2 && v.getLsbD 2 else old.getLsbD i := by
  have hmask : (tswUser ||| (if priv then tswPriv else 0#32)).getLsbD i =
      decide ((4 ≤ i ∧ i ≤ 7 ∨ 16 ≤ i) ∨ priv = true ∧ (i = 8 ∨ i = 9)) := by
    rw [BitVec.getLsbD_or, getLsbD_tswUser hi]
    cases priv
    · simp
    · simp [getLsbD_tswPriv hi]
  have ht : ((old &&& ~~~(tswUser ||| (if priv then tswPriv else 0#32))) ||| (v &&& (tswUser ||| (if priv then tswPriv else 0#32)))).getLsbD i =
      if (4 ≤ i ∧ i ≤ 7 ∨ 16 ≤ i) ∨ priv = true ∧ (i = 8 ∨ i = 9) then v.getLsbD i else old.getLsbD i := by
    rw [BitVec.getLsbD_or, BitVec.getLsbD_and, BitVec.getLsbD_and, BitVec.getLsbD_not, hmask]
    split
    · next h => simp [h]
    · next h => simp [h, hi]
  have hpriv : i = 8 ∨ i = 9 → priv = false → old.getLsbD i = v.getLsbD i := by
    intro h8 hp
    simp only [hp, true_and, not_or, not_not] at hok
    rcases h8 with rfl | rfl
    · exact hok.1
    · exact hok.2
  have hlb : (tswWrite old v priv).getLsbD i = if i = 2 then old.getLsbD 2 && v.getLsbD 2 else
      if (4 ≤ i ∧ i ≤ 7 ∨ 16 ≤ i) ∨ priv = true ∧ (i = 8 ∨ i = 9) then v.getLsbD i else old.getLsbD i := by
    unfold tswWrite
    dsimp only
    split
    · next hv2 =>
      rw [ht]
      by_cases h2 : i = 2
      · subst h2
        simp [hv2]
      · rw [if_neg h2]
    · next hv2 =>
      rw [getLsbD_putBit _ _ _ hi, ht]
      by_cases h2 : i = 2
      · subst h2
        rw [if_pos rfl, if_pos rfl, Bool.eq_false_iff.mpr hv2, Bool.and_false]
      · rw [if_neg h2, if_neg h2]
  rw [hlb]
  by_cases h2 : i = 2
  · subst h2
    simp
  · rw [if_neg h2]
    by_cases h8 : i = 8 ∨ i = 9
    · rw [if_neg (by omega : ¬((4 ≤ i ∧ i ≤ 9) ∧ i ≠ 8 ∧ i ≠ 9 ∨ 16 ≤ i)), if_pos h8]
      split
      · rfl
      · next hp => exact hpriv h8 (by simpa [h8] using fun h : priv = true => hp (Or.inr ⟨h, h8⟩))
    · rw [if_neg h8, if_neg h2]
      exact if_congr (by omega) rfl rfl

/-- A form that changes its slot outside the register files acts there alone. -/
theorem slotRest_acts {i : Instr} {u : Use} {body : Ctx → Res} {pre : Ctx → Prop} {post : Ctx → Slot → Prop} (x : Ctx → Slot)
    (he : ∀ s, exec i s = thread u body s) (hb : ∀ c, pre c → body c = c.done (x c))
    (hfiles : ∀ c, KeptFiles c.s (x c) [] [] []) (hp : ∀ c, pre c → post c ((x c).issued c.s.pc (c.s.pc + 8#64) u)) :
    Acts i u pre [] [] [] (fun c e => ((∀ h' n', ¬(h' = c.h ∧ n' = c.n) → e.slot h' n' = c.d.slot h' n') ∧
      (∀ k, (e.core k).bare = (c.d.core k).bare) ∧ e.bare = c.d.bare) ∧ post c (e.slot c.h c.n)) := by
  refine acts_of he (fun c hc hpre => ⟨_, hb c hpre, ?_, ⟨fun h' n' hne => ?_, fun k => ?_, ?_⟩, ?_⟩)
  · rw [Dev.slot_setSlot_self]
    exact hfiles c
  · exact (Ctx.finish_slot_ne _ _ _ _ hc.step h' n' hne).trans (Dev.slot_setSlot_ne _ _ _ _ _ _ hne)
  · exact (Ctx.finish_core_bare _ _ _ _ hc.step k).trans (Dev.core_updSlot_bare _ _ _ _ _)
  · exact Ctx.finish_bare _ _ _ _ hc.step
  · rw [Ctx.finish_slot _ _ _ _ hc.step, Dev.slot_setSlot_self]
    exact hp c hpre

theorem getLsbD_setWidth_32 (v : W64) {i : Nat} (hi : i < 32) : (v.setWidth 32).getLsbD i = v.getLsbD i := by
  rw [BitVec.getLsbD_setWidth, decide_eq_true hi, Bool.true_and]

theorem breach_iff (c : Ctx) (a : AReg) : tswPrivBreach c.s.tsw ((c.s.A a.toNat).setWidth 32) = true ↔
    c.s.tsw.getLsbD 8 ≠ (c.s.A a.toNat).getLsbD 8 ∨ c.s.tsw.getLsbD 9 ≠ (c.s.A a.toNat).getLsbD 9 := by
  rw [tswPrivBreach_iff, getLsbD_setWidth_32 _ (by decide), getLsbD_setWidth_32 _ (by decide)]

/-- A slot with fault record register k set. -/
def Slot.setFrec (s : Slot) (sr : SReg) (v : W64) : Slot :=
  match sr with
  | .frec0 => { s with frec0 := v }
  | .frec1 => { s with frec1 := v }
  | .frec2 => { s with frec2 := v }
  | .frec3 => { s with frec3 := v }
  | _ => s

theorem setWidth_getD_map (o : Option Task) :
    ((o.map (fun t => t.d.ts)).getD 0#32).setWidth 64 = (o.map (fun t => t.d.ts.setWidth 64)).getD 0#64 := by
  cases o <;> rfl

/-- Settles O38: mfs by `sreg`, mts case by case. -/
theorem specialRegisters : Obligations.SpecialRegisters := by
  intro d a sr i
  dsimp only
  refine ⟨?mfs, ?readOnly, ?tsw, ?breach, ?frec, ?frecTrap⟩
  case mfs =>
    refine completesWhen_of (body := fun c => c.done (c.s.setA d.toNat (c.sreg sr))) (fun _ => rfl) (fun c hc _ =>
      ⟨_, _, _, rfl, Ctx.Only.setSlot c _, KeptRegs.setA _ _ _, rfl, (Slot.A_setA_self _ _ _).trans (if_congr Iff.rfl rfl ?_)⟩)
    cases sr
    case ts =>
      exact setWidth_getD_map _
    all_goals rfl
  case readOnly =>
    refine completesWhen_of (fun _ => by unfold exec execMts; rfl) (fun c hc hsr => ?_)
    simp only [List.mem_cons, List.not_mem_nil, or_false] at hsr
    refine ⟨c.d, c.s, c.s.pc + 8#64, ?_, .refl hc, .refl _, rfl⟩
    rcases hsr with rfl | rfl | rfl | rfl | rfl | rfl | rfl | rfl | rfl <;> rfl
  case tsw =>
    refine slotRest_acts (i := .mts sr a) (post := fun c s => [s.frec0, s.frec1, s.frec2, s.frec3] =
          [c.s.frec0, c.s.frec1, c.s.frec2, c.s.frec3] ∧ (i < 32 → s.tsw.getLsbD i =
        if (4 ≤ i ∧ i ≤ 9) ∧ i ≠ 8 ∧ i ≠ 9 ∨ 16 ≤ i then (c.s.A a.toNat).getLsbD i
        else if i = 8 ∨ i = 9 then (c.s.A a.toNat).getLsbD i
        else if i = 2 then c.s.tsw.getLsbD 2 && (c.s.A a.toNat).getLsbD 2 else c.s.tsw.getLsbD i))
      (fun c => { c.s with tsw := tswWrite c.s.tsw ((c.s.A a.toNat).setWidth 32) c.s.priv })
      (fun _ => by unfold exec execMts; rfl) (fun c ⟨hsr, hno⟩ => ?_) (fun c => .of_files rfl rfl rfl) (fun c ⟨hsr, hno⟩ => ⟨rfl, fun hi => ?_⟩)
    · subst hsr
      have hpass : (!c.s.priv && tswPrivBreach c.s.tsw ((c.s.A a.toNat).setWidth 32)) = false := by
        rw [Bool.eq_false_iff]
        intro h
        rw [Bool.and_eq_true, Bool.not_eq_true', breach_iff] at h
        exact hno h
      simp only [hpass, Bool.false_eq_true, if_false]
    · rw [← getLsbD_setWidth_32 (c.s.A a.toNat) hi, ← getLsbD_setWidth_32 (c.s.A a.toNat) (by decide : 2 < 32)]
      refine getLsbD_tswWrite _ _ _ ?_ hi
      rw [getLsbD_setWidth_32 _ (by decide), getLsbD_setWidth_32 _ (by decide)]
      exact hno
  case breach =>
    refine trapsWhen_of (fun _ => by unfold exec execMts; rfl) (fun c _ ⟨hsr, hpriv, hbreach⟩ => ?_)
    subst hsr
    simp only [hpriv, Bool.not_false, Bool.true_and, (breach_iff c a).mpr hbreach, if_true]
    exact ⟨_, rfl⟩
  case frec =>
    refine slotRest_acts (i := .mts sr a) (post := fun c s => s.tsw = c.s.tsw ∧ [s.frec0, s.frec1, s.frec2, s.frec3] = match sr with
        | .frec0 => [c.s.A a.toNat, c.s.frec1, c.s.frec2, c.s.frec3]
        | .frec1 => [c.s.frec0, c.s.A a.toNat, c.s.frec2, c.s.frec3]
        | .frec2 => [c.s.frec0, c.s.frec1, c.s.A a.toNat, c.s.frec3]
        | _ => [c.s.frec0, c.s.frec1, c.s.frec2, c.s.A a.toNat]) (fun c => c.s.setFrec sr (c.s.A a.toNat)) (fun _ => by unfold exec execMts; rfl) (fun c ⟨hpriv, hsr⟩ => ?_)
      (fun c => by cases sr <;> exact .of_files rfl rfl rfl) (fun c ⟨hpriv, hsr⟩ => ?_) <;>
      simp only [List.mem_cons, List.not_mem_nil, or_false] at hsr
    · rcases hsr with rfl | rfl | rfl | rfl <;> simp only [Ctx.setRec, hpriv, if_true, Slot.setFrec]
    · rcases hsr with rfl | rfl | rfl | rfl <;> exact ⟨rfl, rfl⟩
  case frecTrap =>
    refine trapsWhen_of (fun _ => by unfold exec execMts; rfl) (fun c _ ⟨hpriv, hsr⟩ => ?_)
    simp only [List.mem_cons, List.not_mem_nil, or_false] at hsr
    rcases hsr with rfl | rfl | rfl | rfl <;> simp only [Ctx.setRec, hpriv, Bool.false_eq_true, if_false] <;> exact ⟨_, rfl⟩

/-- A break of leases touches of its slot only its lease records and %tsw. -/
theorem Dev.slot_breakLeases (d : Dev) (h n why : Nat) (p : LeaseRec → Bool) :
    ∃ ls w, (d.breakLeases h n why p).slot h n = { d.slot h n with leases := ls, tsw := w } := by
  unfold Dev.breakLeases
  dsimp only
  split
  · exact ⟨(d.slot h n).leases, (d.slot h n).tsw, rfl⟩
  · rw [Dev.slot, Dev.core, Dev.cores_foldl_send, ← Dev.core, ← Dev.slot, Dev.slot_updSlot_self]
    exact ⟨_, _, rfl⟩

/-- Settles O39. -/
theorem trapBreakPark : Obligations.TrapBreakPark := by
  intro a imm
  dsimp only
  refine ⟨?trap, ?brk, ?pass, ?hold, ?woken, ?park⟩
  case trap => exact trapsWhen_of (fun _ => by unfold exec execTrap; rfl) (fun c _ _ => ⟨_, rfl⟩)
  case brk =>
    refine trapsWhen_of (fun _ => by unfold exec execBrk; rfl) (fun c _ h => ?_)
    simp only [h, Bool.not_false, if_true]
    exact ⟨_, rfl⟩
  case pass =>
    refine completesWhen_of (fun _ => by unfold exec execBrk; rfl) (fun c hc ⟨h, hpass⟩ => ⟨c.d, c.s, c.s.pc + 8#64, ?_, .refl hc, .refl _, rfl⟩)
    simp only [h, hpass, Bool.not_true, Bool.false_eq_true, if_false, beq_self_eq_true, if_true]
    rfl
  case hold =>
    intro s h n w hi hheld hpass
    have hexec : exec .brk s = _ := (show exec .brk s = thread (useA []) _ s by unfold exec execBrk; rfl).trans (thread_issues _ _ s h n w hi)
    have hheld' : ((s.ctx h n w).d.terrace (terrOf (s.ctx h n w).s.lk)).dbg.hold = true := hheld
    have hpass' : ((s.ctx h n w).s.bpPass == some (s.ctx h n w).s.pc) = false := beq_false_of_ne hpass
    simp only [hheld', hpass', Bool.not_true, Bool.false_eq_true, if_false] at hexec
    refine ⟨_, hexec, ?_⟩
    obtain ⟨ls, tsw, hb⟩ := s.dev.slot_breakLeases h n 2 (fun _ => true)
    have hself : ((s.dev.breakLeases h n 2 (fun _ => true)).hold h n .debug).slot h n = _ := Dev.slot_updSlot_self _ _ _ _
    have haside := Dev.aside_traceSlot ((s.dev.breakLeases h n 2 (fun _ => true)).hold h n .debug) s.mem h n 1 h n
    rw [hself, hb] at haside
    exact ⟨haside.st (fun w hw => nomatch hw), haside.pc, haside.frec0⟩
  case woken =>
    refine acts_of (fun _ => by unfold exec execPark; rfl) (fun c hc h => ?_)
    simp only [h, if_true]
    refine ⟨_, rfl, ?_, ?_, Ctx.finish_still _ _ _ _⟩
    · rw [Dev.slot_setSlot_self]
      exact .of_files rfl rfl rfl
    · rw [Ctx.finish_slot _ _ _ _ hc.step, Dev.slot_setSlot_self]
      rfl
  case park =>
    refine waitsWhen_of (fun _ => by unfold exec execPark; rfl) (fun c hc h => ?_)
    simp only [h, Bool.false_eq_true, if_false]
    exact ⟨_, rfl, by rw [hc.own], hc.own ▸ KeptFiles.refl _⟩

end Sys2Proof.Machine
end

section
/-! PROOFS. Global loads, their read points, prefetch and invalidation (R139, R144 to R149, R165). -/

namespace Sys2Proof.Machine

/-! ### Outstanding instructions that are settled (R29, R146) -/

theorem LongOp.getElem?_updAcc (o : LongOp) (k : Nat) (f : Acc → Acc) (i : Nat) :
    (o.updAcc k f).acc[i]? = o.acc[i]?.map (fun a => if i = k then f a else a) := by
  rw [LongOp.updAcc, List.getElem?_map, List.getElem?_zipIdx, Option.map_map]
  cases o.acc[i]? with
  | none => rfl
  | some a =>
    simp only [Option.map_some, Function.comp, Nat.zero_add, beq_iff_eq]

/-- Instruction b is a with faults told: its accesses are as they were, but those that failed and an ldkr's header. -/
structure LongOp.Told (a b : LongOp) : Prop where
  id : b.id = a.id
  pc : b.pc = a.pc
  kind : b.kind = a.kind
  vd : b.vd = a.vd
  ad : b.ad = a.ad
  mask : b.mask = a.mask
  kz : b.kz = a.kz
  length : b.acc.length = a.acc.length
  acc : ∀ i x, a.acc[i]? = some x → x.st.faulty = false → (i = 0 → ∀ v off rot, a.kind ≠ .ldkr v off rot) → b.acc[i]? = some x

theorem LongOp.Told.refl (a : LongOp) : a.Told a := ⟨rfl, rfl, rfl, rfl, rfl, rfl, rfl, rfl, fun _ _ h _ _ => h⟩

theorem LongOp.Told.trans {a b c : LongOp} (h : a.Told b) (g : b.Told c) : a.Told c :=
  ⟨g.id.trans h.id, g.pc.trans h.pc, g.kind.trans h.kind, g.vd.trans h.vd, g.ad.trans h.ad, g.mask.trans h.mask, g.kz.trans h.kz,
    g.length.trans h.length, fun i x hx hf hk => g.acc i x (h.acc i x hx hf hk) hf (h.kind ▸ hk)⟩

/-- A change of accesses one by one that leaves those that did not fail. -/
theorem LongOp.told_map (a : LongOp) {f : Acc → Acc} (hf : ∀ x, x.st.faulty = false → f x = x) : a.Told { a with acc := a.acc.map f } := by
  refine ⟨rfl, rfl, rfl, rfl, rfl, rfl, rfl, List.length_map _, fun i x hx hx' _ => ?_⟩
  rw [List.getElem?_map, hx, Option.map_some, hf x hx']

/-- A change of an ldkr's header. -/
theorem LongOp.told_header (a : LongOp) (f : Acc → Acc) {v off rot} (hk : a.kind = .ldkr v off rot) : a.Told (a.updAcc 0 f) := by
  refine ⟨rfl, rfl, rfl, rfl, rfl, rfl, rfl, ?_, fun i x hx _ hi => ?_⟩
  · rw [LongOp.updAcc, List.length_map, List.length_zipIdx]
  · rw [LongOp.getElem?_updAcc, hx, Option.map_some, if_neg (fun h0 => hi h0 v off rot hk)]

theorem LongOp.hits_faulty {o : LongOp} {x : Acc} (h : x.st.faulty = false) : o.hits.contains x = false := by
  rw [List.contains_eq_mem, decide_eq_false_iff_not]
  intro hx
  have hx' := (List.mem_filter.mp (List.mem_filter.mp hx).1).2
  simp [h] at hx'

theorem LongOp.told_blame (o : LongOp) (f : Deferred) : o.Told (o.blame f) := by
  have hmap : ∀ g : Acc → Acc, o.Told { o with acc := o.acc.map (fun a => if o.hits.contains a then g a else a) } := fun g =>
    o.told_map (fun x hx => by rw [LongOp.hits_faulty hx, if_neg Bool.false_ne_true])
  unfold LongOp.blame
  dsimp only
  split
  · next v off rot hk =>
    split
    · exact o.told_header _ hk
    · split
      · exact o.told_header _ hk
      · exact hmap _
  · exact hmap _

/-- From d to e an instruction of slot n of core h was settled: faults are told, and a message may have been sent. -/
structure Dev.Settling (d e : Dev) (h n : Nat) : Prop where
  slot : ∃ f df, (∀ o : LongOp, o.Told (f o)) ∧ e.slot h n = { d.slot h n with ops := (d.slot h n).ops.map f, defer := df }
  slots : ∀ j m, ¬(j = h ∧ m = n) → e.slot j m = d.slot j m
  cores : ∀ k, k ≠ h → e.core k = d.core k
  bare : (e.core h).bare = (d.core h).bare
  still : e.still = d.still
  net : ∃ l, e.net = d.net ++ l

theorem Dev.Settling.refl (d : Dev) (h n : Nat) : d.Settling d h n :=
  ⟨⟨fun o => o, (d.slot h n).defer, LongOp.Told.refl, by rw [List.map_id']⟩, fun _ _ _ => rfl, fun _ _ => rfl, rfl, rfl, ⟨[], (List.append_nil _).symm⟩⟩

theorem Dev.Settling.trans {d e f : Dev} {h n : Nat} (x : d.Settling e h n) (y : e.Settling f h n) : d.Settling f h n := by
  obtain ⟨⟨p, df, hp, hps⟩, hslots, hcores, hbare, hstill, ⟨l, hl⟩⟩ := x
  obtain ⟨⟨q, dg, hq, hqs⟩, hslots', hcores', hbare', hstill', ⟨l', hl'⟩⟩ := y
  refine ⟨⟨fun o => q (p o), dg, fun o => (hp o).trans (hq _), ?_⟩, fun j m hne => (hslots' j m hne).trans (hslots j m hne),
    fun k hk => (hcores' k hk).trans (hcores k hk), hbare'.trans hbare, hstill'.trans hstill, ⟨l ++ l', ?_⟩⟩
  · rw [hqs, hps, List.map_map]
    rfl
  · rw [hl', hl, List.append_assoc]

/-- The clock and the other parts that stand still. -/
theorem Dev.Settling.clock {d e : Dev} {h n : Nat} (x : d.Settling e h n) : e.clock = d.clock := (congrArg Dev.clock x.still :)

theorem Dev.settling_updSlot (d : Dev) (h n : Nat) {f : Slot → Slot} {p : LongOp → LongOp} {df : List Deferred} (hp : ∀ o : LongOp, o.Told (p o))
    (hf : f (d.slot h n) = { d.slot h n with ops := (d.slot h n).ops.map p, defer := df }) : d.Settling (d.updSlot h n f) h n :=
  ⟨⟨p, df, hp, (Dev.slot_updSlot_self _ _ _ _).trans hf⟩, fun j m hne => Dev.slot_updSlot_ne _ _ _ _ _ _ hne,
    fun k hk => Dev.core_updCore_ne _ _ _ _ hk, Dev.core_updSlot_bare _ _ _ _ _, rfl, ⟨[], (List.append_nil _).symm⟩⟩

theorem Dev.settling_updOp (d : Dev) (h n id : Nat) {g : LongOp → LongOp} (hg : ∀ o : LongOp, o.Told (g o)) : d.Settling (d.updOp h n id g) h n := by
  refine d.settling_updSlot h n (p := fun o => if o.id == id then g o else o) (df := (d.slot h n).defer) (fun o => ?_) rfl
  split
  · exact hg o
  · exact .refl o

theorem Dev.settling_defer (d : Dev) (h n : Nat) (f : List Deferred → List Deferred) :
    d.Settling (d.updSlot h n (fun s => { s with defer := f s.defer })) h n :=
  d.settling_updSlot h n (p := fun o => o) (df := f (d.slot h n).defer) LongOp.Told.refl (by rw [List.map_id'])

theorem Dev.settling_count (d : Dev) (h n k : Nat) : d.Settling { d with count := k } h n :=
  ⟨(Dev.Settling.refl d h n).slot, fun _ _ _ => rfl, fun _ _ => rfl, rfl, rfl, ⟨[], (List.append_nil _).symm⟩⟩

theorem Dev.settling_send (d : Dev) (h n chan : Nat) (e : Ev) : d.Settling (d.send chan e) h n :=
  ⟨(Dev.Settling.refl d h n).slot, fun _ _ _ => rfl, fun _ _ => rfl, rfl, rfl, ⟨_, rfl⟩⟩

theorem Dev.settling_fileFaults (h n id k : Nat) (d : Dev) : d.Settling (Dev.fileFaults h n id k d) h n := by
  induction k generalizing d with
  | zero => exact .refl _ _ _
  | succ k ih =>
    unfold Dev.fileFaults
    split
    · exact .refl _ _ _
    · refine Dev.Settling.trans ?_ (ih _)
      refine Dev.Settling.trans ?_ (Dev.settling_count _ h n _)
      exact (d.settling_updOp h n id (fun o => o.told_blame _)).trans (Dev.settling_defer _ h n (fun l => l ++ [_]))

theorem Dev.settling_refile (d : Dev) (h n id : Nat) : d.Settling (d.refile h n id) h n := by
  unfold Dev.refile
  split
  · split
    · exact .refl _ _ _
    · dsimp only
      refine (d.settling_updOp h n id (fun o => o.told_map (fun x hx => ?_))).trans
        (Dev.settling_defer _ h n (fun l => l.filter (fun f => f.op != some id)))
      simp [hx]
  · exact .refl _ _ _

theorem Dev.settling_settleOp (d : Dev) (h n id : Nat) : d.Settling (d.settleOp h n id) h n := by
  have hfirst := (d.settling_refile h n id).trans (Dev.settling_fileFaults h n id 3 (d.refile h n id))
  unfold Dev.settleOp
  dsimp only
  split
  · exact hfirst
  · split
    · exact hfirst
    · exact (hfirst.trans (Dev.settling_updOp _ h n id (g := fun o => { o with fin := true })
        (fun o => ⟨rfl, rfl, rfl, rfl, rfl, rfl, rfl, rfl, fun _ _ hx _ _ => hx⟩))).trans (Dev.settling_send _ h n _ _)

/-- What an instruction of a number becomes. -/
theorem Dev.Settling.op? {d e : Dev} {h n id : Nat} (x : d.Settling e h n) {o : LongOp} (ho : d.op? h n id = some o) :
    ∃ o', e.op? h n id = some o' ∧ o.Told o' := by
  obtain ⟨f, df, hf, hs⟩ := x.slot
  refine ⟨f o, ?_, hf o⟩
  have hid : (fun o : LongOp => (f o).id == id) = fun o => o.id == id := funext fun o => by rw [(hf o).id]
  rw [Dev.op?, hs, List.find?_map]
  show Option.map f ((d.slot h n).ops.find? (fun o => (f o).id == id)) = _
  rw [hid]
  exact congrArg (Option.map f) ho

/-! ### The L1 (R139) -/

theorem Dev.slot_keepLine (d : Dev) (h va : Nat) (line : Line) (j n : Nat) : (d.keepLine h va line).slot j n = d.slot j n := by
  unfold Dev.keepLine
  split
  · rfl
  · split
    · refine Dev.slot_updCore_of ?_ d h j n
      exact fun _ _ => rfl
    · rfl

theorem Dev.slot_delay (d : Dev) (h idx j n : Nat) : (d.delay h idx).slot j n = d.slot j n := by
  refine (Dev.slot_updCore_of ?_ d h j n :)
  exact fun _ _ => rfl

/-- An instruction whose access was changed. -/
theorem Dev.op?_updOp {d : Dev} {h n id : Nat} {o : LongOp} {g : LongOp → LongOp} (hg : ∀ o, (g o).id = o.id) (ho : d.op? h n id = some o) :
    (d.updOp h n id g).op? h n id = some (g o) := by
  unfold Dev.op? at ho
  have hid : (o.id == id) = true := by simpa using List.find?_some ho
  unfold Dev.op? Dev.updOp
  rw [Dev.slot_updSlot_self, List.find?_map]
  have hsame : ((fun o : LongOp => o.id == id) ∘ fun o => if o.id == id then g o else o) = fun o => o.id == id := by
    funext x
    rw [Function.comp]
    split
    · rw [hg]
    · rfl
  rw [hsame, ho, Option.map_some, if_pos hid]

/-- A read point takes its line as it stands, under the slot's own bytes. -/
theorem homeRead_reads (h n op idx pa : Nat) (o : LongOp) (a : Acc) :
    Event (.homeRead h n op idx pa)
      (fun _ d => d.op? h n op = some o ∧ o.acc[idx]? = some a ∧ a.st = .home pa ∧ d.pending pa = false ∧
        d.linePoison.contains (lineOf pa) = false ∧ (d.quay (d.slotFn h n) pa false).isSome = true ∧
        ((d.slot h n).ops.takeWhile (fun x => x.id != op)).any (fun x => x.reads a.va pa) = false ∧
        (idx = 0 → ∀ v off rot, o.kind ≠ .ldkr v off rot))
      (fun m _ e => ∃ o', e.op? h n op = some o' ∧
        o'.acc[idx]? = some { a with st := .got, line := Line.over (m.line (lineOf pa)) a.line a.own }) := by
  intro s ⟨ho, ha, hst, hpend, hpoison, hquay, hreads, hkind⟩
  obtain ⟨d, hd⟩ := Option.isSome_iff_exists.mp hquay
  refine ⟨_, rfl, fun _ => rfl, ?_⟩
  simp only [ho, ha, hst, hpend, hpoison, hreads, hd, bne_self_eq_false, Bool.false_eq_true, if_false]
  have hslot : (d.keepLine h a.va.toNat (s.mem.line (lineOf pa))).op? h n op = some o := by
    rw [← ho, Dev.op?, Dev.slot_keepLine, (Dev.quay_quaysOnly hd).slot, ← Dev.op?]
  have hdelay : (if (homeOf pa == 512) = true then d.keepLine h a.va.toNat (s.mem.line (lineOf pa)) else
      (d.keepLine h a.va.toNat (s.mem.line (lineOf pa))).delay h (homeOf pa / 8)).op? h n op = some o := by
    split
    · exact hslot
    · rw [Dev.op?, Dev.slot_delay, ← Dev.op?]
      exact hslot
  generalize (if (homeOf pa == 512) = true then d.keepLine h a.va.toNat (s.mem.line (lineOf pa)) else
      (d.keepLine h a.va.toNat (s.mem.line (lineOf pa))).delay h (homeOf pa / 8)) = e at *
  have hop := Dev.op?_updOp (g := fun o => o.updAcc idx (fun a => { a with st := .got, line := Line.over (s.mem.line (lineOf pa)) a.line a.own }))
    (fun _ => rfl) hdelay
  obtain ⟨o', ho', htold⟩ := (Dev.settling_settleOp _ h n op).op? hop
  refine ⟨o', ho', htold.acc idx _ ?_ rfl hkind⟩
  rw [LongOp.getElem?_updAcc, ha, Option.map_some, if_pos rfl]

/-! ### Loads at issue (R146 to R148) -/

/-- From d to e nothing changed but a core outside its slots, and what the home quays keep. -/
structure Dev.CoreAndQuays (d e : Dev) (h : Nat) : Prop where
  slots : ∀ j n, e.slot j n = d.slot j n
  cores : ∀ k, k ≠ h → e.core k = d.core k
  calm : e.calm = d.calm
  net : e.net = d.net

theorem Dev.CoreAndQuays.refl (d : Dev) (h : Nat) : d.CoreAndQuays d h := ⟨fun _ _ => rfl, fun _ _ => rfl, rfl, rfl⟩
theorem Dev.CoreAndQuays.trans {d e f : Dev} {h : Nat} (x : d.CoreAndQuays e h) (y : e.CoreAndQuays f h) : d.CoreAndQuays f h :=
  ⟨fun j n => (y.slots j n).trans (x.slots j n), fun k hk => (y.cores k hk).trans (x.cores k hk), y.calm.trans x.calm, y.net.trans x.net⟩

theorem Dev.QuaysOnly.coreAndQuays {d e : Dev} (x : d.QuaysOnly e) (h : Nat) : d.CoreAndQuays e h :=
  ⟨x.slot, fun k _ => x.core k, x.calm, x.net⟩

theorem Dev.coreAndQuays_fillPlb (d : Dev) (m : Memory) (who : Who) (dom : Nat) : d.CoreAndQuays (d.fillPlb m who dom) who.h := by
  have hq := d.visit_quaysOnly (d.terrace who.terr).vf false [(d.terrace who.terr).dtBase.toNat + 2 * dom] false
  refine ⟨fun j n => Dev.slot_fillPlb _ _ _ _ _ _, ?_, ?_, ?_⟩ <;> unfold Dev.fillPlb
  · intro k hk
    split
    · rfl
    · split
      · split
        · next e he =>
          rw [he] at hq
          exact (Dev.core_updCore_ne _ _ _ _ hk).trans (hq.core k)
        · next e he =>
          rw [he] at hq
          exact hq.core k
      · rfl
  · split
    · rfl
    · split
      · split
        · next e he =>
          rw [he] at hq
          exact hq.calm
        · next e he =>
          rw [he] at hq
          exact hq.calm
      · rfl
  · split
    · rfl
    · split
      · split
        · next e he =>
          rw [he] at hq
          exact hq.net
        · next e he =>
          rw [he] at hq
          exact hq.net
      · rfl

/-- Where a mapped lane whose line the L1 does not hold stands at issue: on its way to its home. -/
theorem Ctx.loadLane_mapped {c : Ctx} {l words pa : Nat} {va : W64} (h : c.mapped [.r] va pa)
    (hl1 : (c.d.core c.h).l1.find? (lineOf va.toNat) = none) : c.loadLane l va words = .at_ (.home pa) 0#1024 := by
  obtain ⟨hlow, hwin, lf, hleaf, hprot, rfl⟩ := h
  simp only [Ctx.loadLane, hl1, hwin, hleaf, hprot, Bool.false_eq_true, if_false, if_neg (Nat.not_le.mpr hlow)]

/-- The access of a lane on its way to its home. -/
def Ctx.homeAcc (c : Ctx) (l : Nat) (va : W64) (pa : Nat) : Acc :=
  ⟨l, 0, va, .home pa, (c.ownBytes l va).1, (c.ownBytes l va).2, 0⟩

/-- A load all of whose lanes are on their way to their homes. -/
theorem Ctx.load_mapped {c : Ctx} {kind : OpKind} {vd : List Nat} {mask : BitVec 16} {kz : Bool} {parts : Nat} {ls : List Nat} {at_ : Nat → W64}
    {pa : Nat → Nat} (haway : c.bufferAway = false)
    (h : ∀ l, l ∈ ls → (at_ l).toNat % (4 * parts) = 0 ∧ c.mapped [.r] (at_ l) (pa l) ∧
      (c.d.core c.h).l1.find? (lineOf (at_ l).toNat) = none) :
    ∃ d, c.d.CoreAndQuays d c.h ∧ c.load kind vd mask kz parts (ls.map (fun l => (l, at_ l))) =
      Ctx.startLoad { c with d := d }
        ⟨c.d.count, c.s.pc, kind, vd, [], mask, kz, ls.map (fun l => c.homeAcc l (at_ l) (pa l)), [], [], 0#64, 0#64, false⟩ := by
  have halign : (ls.map (fun l => (l, at_ l))).find? (fun a => a.2.toNat % (4 * parts) != 0) = none := by
    refine List.find?_eq_none.mpr fun a ha => ?_
    obtain ⟨l, hl, rfl⟩ := List.mem_map.mp ha
    simp [(h l hl).1]
  have hlanes : (ls.map (fun l => (l, at_ l))).map (fun a => (a.1, a.2, c.loadLane a.1 a.2 parts)) =
      ls.map (fun l => (l, at_ l, LoadAt.at_ (.home (pa l)) 0#1024)) := by
    rw [List.map_map]
    refine List.map_congr_left fun l hl => ?_
    exact congrArg (fun x => (l, at_ l, x)) (Ctx.loadLane_mapped (h l hl).2.1 (h l hl).2.2)
  have hnone : ∀ {β : Type} (f : Nat × W64 × LoadAt → Option β), (∀ l, f (l, at_ l, .at_ (.home (pa l)) 0#1024) = none) →
      (ls.map (fun l => (l, at_ l, LoadAt.at_ (.home (pa l)) 0#1024))).findSome? f = none := by
    intro β f hf
    refine List.findSome?_eq_none_iff.mpr fun x hx => ?_
    obtain ⟨l, -, rfl⟩ := List.mem_map.mp hx
    exact hf l
  have hany : ∀ f : Nat × W64 × LoadAt → Bool, (∀ l, f (l, at_ l, .at_ (.home (pa l)) 0#1024) = false) →
      (ls.map (fun l => (l, at_ l, LoadAt.at_ (.home (pa l)) 0#1024))).any f = false := by
    intro f hf
    refine List.any_eq_false.mpr fun x hx => ?_
    obtain ⟨l, -, rfl⟩ := List.mem_map.mp hx
    rw [hf l]
    exact Bool.false_ne_true
  have hacc : ∀ f : Nat × W64 × LoadAt → List Acc, (∀ l, f (l, at_ l, .at_ (.home (pa l)) 0#1024) = [c.homeAcc l (at_ l) (pa l)]) →
      (ls.map (fun l => (l, at_ l, LoadAt.at_ (.home (pa l)) 0#1024))).flatMap f = ls.map (fun l => c.homeAcc l (at_ l) (pa l)) := by
    intro f hf
    rw [List.flatMap_map]
    simp only [hf, List.flatMap_singleton']
    exact List.flatMap_pure_eq_map _ _
  have hfold : ∀ f : Dev → Nat × W64 × LoadAt → Dev, (∀ (d : Dev) x, d.CoreAndQuays (f d x) c.h) →
      ∀ xs : List (Nat × W64 × LoadAt), c.d.CoreAndQuays (xs.foldl f c.d) c.h := fun f hf xs =>
    List.foldlRecOn (motive := fun d : Dev => c.d.CoreAndQuays d c.h) _ _ (.refl _ _) (fun d hd x _ => hd.trans (hf d x))
  unfold Ctx.load
  rw [halign]
  dsimp only
  rw [hlanes, hnone _ (fun _ => rfl), haway, hany _ (fun _ => rfl), hacc _ (fun _ => rfl), Bool.or_false]
  refine ⟨_, hfold _ (fun d x => ?_) _, rfl⟩
  split
  · split
    · exact .refl _ _
    · exact Dev.coreAndQuays_fillPlb _ _ _ _
  · exact .refl _ _

/-- Messages sent together arrive after the present cycle. -/
theorem Dev.net_sendAll (d : Dev) (es : List (Nat × Ev)) :
    ∃ due, d.clock < due ∧ (d.sendAll es).net = d.net ++ es.map (fun e => ⟨due, e.1, e.2⟩) := by
  refine ⟨_, ?_, rfl⟩
  refine List.foldlRecOn (motive := fun t => d.clock < t) es _ ?_ (fun t ht e _ => ?_)
  · omega
  · split
    · exact ht
    · exact lt_of_lt_of_le ht (le_max_left _ _)

/-- The message of an access that goes to its home. -/
theorem LongOp.mem_sends_home {o : LongOp} {i pa : Nat} {a : Acc} (ha : o.acc[i]? = some a) (hst : a.st = .home pa) (h n lk : Nat) :
    (0, Ev.homeRead h n o.id i pa) ∈ o.sends h n lk := by
  rw [LongOp.sends, List.mem_filterMap]
  exact ⟨(a, i), List.mem_zipIdx_iff_getElem?.mpr ha, by simp only [hst]⟩

/-- What a load leaves all of whose lanes went to their homes. -/
structure Ctx.Loads (c : Ctx) (e : Dev) (vd : List Nat) (mask : BitVec 16) (kz : Bool) (ls : List Nat) (at_ : Nat → W64) (pa : Nat → Nat) :
    Prop where
  only : OnlyCoreAndQuays c.d e c.h
  op : ∃ o, o ∈ (e.slot c.h c.n).ops ∧ o.pc = c.s.pc ∧ o.vd = vd ∧ o.mask = mask ∧ o.kz = kz ∧
    o.acc.map (fun a => (a.lane, a.va, a.st)) = ls.map (fun l => (l, at_ l, AccSt.home (pa l))) ∧
    ∀ j l, ls[j]? = some l → e.coming c.d.clock (.homeRead c.h c.n o.id j (pa l))

theorem Ctx.startLoad_homes {c : Ctx} (hc : c.Ready) {d : Dev} (hd : c.d.CoreAndQuays d c.h) (hkind : c.s.kind ≠ .ordered) {o : LongOp}
    {ls : List Nat} {at_ : Nat → W64} {pa : Nat → Nat} (hacc : o.acc = ls.map (fun l => c.homeAcc l (at_ l) (pa l)))
    (hpc : o.pc = c.s.pc) (hldkr : ∀ v off rot, o.kind ≠ .ldkr v off rot) (u : Use) (next : W64) :
    ∃ e, Ctx.startLoad { c with d := d } o = .done e ∧ KeptFiles c.s (e.slot c.h c.n) [] [] [] ∧
      c.Loads (c.finish u e next) o.vd o.mask o.kz ls at_ pa := by
  have hnone : (c.s.kind != .ordered) = true := by simpa using hkind
  have hxlat : o.acc.filter (fun a => a.st == .xlat) = [] := by
    rw [hacc, List.filter_eq_nil_iff]
    intro a ha
    obtain ⟨l, -, rfl⟩ := List.mem_map.mp ha
    simp [Ctx.homeAcc]
  have hsig : ∀ (f : Dev → Acc → Dev) x, (∀ y a, f y a = y) → o.acc.foldl f x = x := fun f x hf =>
    List.foldlRecOn (motive := fun y => y = x) _ _ rfl (fun y hy a _ => (hf y a).trans hy)
  unfold Ctx.startLoad
  dsimp only
  rw [hsig _ _ (fun y a => by simp only [hnone, Bool.or_true, Bool.true_or, if_true]), hxlat, List.foldl_nil]
  refine ⟨_, rfl, ?_⟩
  have hbefore : ({ d.updSlot c.h c.n (fun s => { s with ops := s.ops ++ [o] }) with count := d.count + 1 } : Dev).slot c.h c.n =
      { c.s with ops := c.s.ops ++ [o] } := by
    have hself := Dev.slot_updSlot_self d c.h c.n (fun s => { s with ops := s.ops ++ [o] })
    rw [hd.slots, hc.own] at hself
    exact hself
  obtain ⟨due, hdue, hnet⟩ := Dev.net_sendAll
    ({ d.updSlot c.h c.n (fun s => { s with ops := s.ops ++ [o] }) with count := d.count + 1 } : Dev) (o.sends c.h c.n c.s.lk)
  have hset := Dev.settling_settleOp (({ d.updSlot c.h c.n (fun s => { s with ops := s.ops ++ [o] }) with count := d.count + 1 } : Dev).sendAll
    (o.sends c.h c.n c.s.lk)) c.h c.n o.id
  generalize hx : ({ d.updSlot c.h c.n (fun s => { s with ops := s.ops ++ [o] }) with count := d.count + 1 } : Dev) = x at *
  have hxcalm : x.calm = c.d.calm := by
    rw [← hx]
    exact hd.calm
  have hxcores : ∀ k, k ≠ c.h → x.core k = c.d.core k := by
    intro k hk
    rw [← hx, ← hd.cores k hk]
    exact Dev.core_updCore_ne _ _ _ _ hk
  have hxslot : (x.sendAll (o.sends c.h c.n c.s.lk)).slot c.h c.n = { c.s with ops := c.s.ops ++ [o] } := hbefore
  have hxclock : x.clock = c.d.clock := (congrArg Dev.clock hxcalm :)
  generalize ((x.sendAll (o.sends c.h c.n c.s.lk)).settleOp c.h c.n o.id) = e at *
  obtain ⟨⟨f, df, hf, hslot⟩, -, hcores, -, hstill, l, hl⟩ := hset
  rw [hxslot] at hslot
  have htold := hf o
  have hsame : (f o).acc = o.acc := by
    refine List.ext_getElem? fun i => ?_
    cases hi : o.acc[i]? with
    | none =>
      rw [List.getElem?_eq_none_iff] at hi ⊢
      rw [htold.length]
      exact hi
    | some a =>
      refine htold.acc i a hi ?_ (fun _ => hldkr)
      rw [hacc] at hi
      obtain ⟨l, -, rfl⟩ := List.mem_map.mp (List.mem_of_getElem? hi)
      rfl
  refine ⟨?_, ⟨fun k hk => ?_, ?_⟩, f o, ?_, htold.pc.trans hpc, htold.vd, htold.mask, htold.kz, ?_, fun j m hj => ?_⟩
  · rw [hslot]
    exact .of_files rfl rfl rfl
  · exact (Ctx.finish_core_ne _ _ _ _ hc.step k hk).trans ((hcores k hk).trans (hxcores k hk))
  · rw [Ctx.finish_calm, ← hxcalm, Dev.calm, hstill]
    rfl
  · rw [Ctx.finish_slot _ _ _ _ hc.step, hslot]
    exact List.mem_map_of_mem (List.mem_append_right _ List.mem_cons_self)
  · rw [hsame, hacc, List.map_map]
    rfl
  · have ha : o.acc[j]? = some (c.homeAcc m (at_ m) (pa m)) := by rw [hacc, List.getElem?_map, hj, Option.map_some]
    refine ⟨⟨due, 0, .homeRead c.h c.n o.id j (pa m)⟩, ?_, by rw [htold.id], hxclock ▸ hdue⟩
    rw [Ctx.finish_net, hl, hnet]
    refine List.mem_append_left _ (List.mem_append_right _ (List.mem_map.mpr ⟨_, LongOp.mem_sends_home ha rfl _ _ _, rfl⟩))

/-! ### Prefetch and invalidation (R139, R146) -/

theorem lanesOf_one {l : Nat} (hl : l < 16) : lanesOf (1#16 <<< l) = [l] := by
  have h : ∀ j, j < 16 → lanesOf (1#16 <<< j) = [j] := by decide
  exact h l hl

theorem Ctx.translate_mapped {c : Ctx} {need : List Right} {va : W64} {pa : Nat} (h : c.mapped need va pa) :
    ∃ lf, c.d.findLeaf (districtOf c.h) va.toNat = some lf ∧ c.d.translate c.m (c.s.who c.h) need va = .ok pa lf := by
  obtain ⟨hlow, hwin, lf, hleaf, hprot, rfl⟩ := h
  refine ⟨lf, hleaf, ?_⟩
  have hleaf' : c.d.findLeaf (districtOf (c.s.who c.h).h) va.toNat = some lf := hleaf
  unfold Dev.translate
  simp only [hleaf', hprot, if_neg (Nat.not_le.mpr hlow)]

/-- A prefetched line stands in the L1. -/
theorem Ctx.prefetch_mapped {c : Ctx} {va : W64} {pa : Nat} (hl1 : (c.d.core c.h).l1.find? (lineOf va.toNat) = none)
    (hm : c.mapped [.r] va pa) (hpend : c.d.pending pa = false) (hpoison : c.d.linePoison.contains (lineOf pa) = false)
    (hquay : (c.d.quay (c.d.fnOf c.s.lk) pa false).isSome = true) (hwrote : c.d.wroteLine c.h va.toNat = false) :
    ∃ d ln, c.prefetch c.d va = (d, true) ∧ (∀ h n, d.slot h n = c.d.slot h n) ∧ (d.core c.h).l1.find? (lineOf va.toNat) = some ln ∧
      ln.data = c.m.line (lineOf pa) ∧ ln.sealed_ = false := by
  obtain ⟨d, hd⟩ := Option.isSome_iff_exists.mp hquay
  have hq := Dev.quay_quaysOnly hd
  obtain ⟨lf, hleaf, htr⟩ := Ctx.translate_mapped hm
  have hwin : isWindow va = false := hm.2.1
  have hwrote' : d.wroteLine c.h va.toNat = false := by
    rw [← hwrote, Dev.wroteLine, hq.groups, Dev.wroteLine]
  have hleaf' : d.findLeaf (districtOf c.h) va.toNat = some lf := by
    rw [← hleaf, hq]
    rfl
  refine ⟨d.keepLine c.h va.toNat (c.m.line (lineOf pa)), ⟨c.m.line (lineOf pa), false, some lf, BitVec.allOnes 32⟩, ?_,
    fun h n => (Dev.slot_keepLine _ _ _ _ _ _).trans (hq.slot h n), ?_, rfl, rfl⟩
  · simp only [Ctx.prefetch, hl1, hwin, htr, hpend, hpoison, hd, Option.isSome_none, Bool.false_eq_true, if_false]
  · simp only [Dev.keepLine, hwrote', hleaf', Bool.false_eq_true, if_false]
    rw [Dev.core_updCore_self]
    exact AMap.find_put_self _ _ _

/-- gpf of one lane. -/
theorem gpf_acts (km : KReg) (x : VReg) (base : AReg) (off : BitVec 24) (l pa : Nat) :
    Acts (.gpf km x base off) ⟨idxField x, [], idxUse x ++ [ra base, rk km], none, .all, false⟩
      (fun c => l < 16 ∧ c.s.K km.toNat = 1#16 <<< l ∧ (c.d.core c.h).l1.find? (lineOf (c.s.addr base x off 4 l).toNat) = none ∧
        c.mapped [.r] (c.s.addr base x off 4 l) pa ∧
        c.d.pending pa = false ∧ c.d.linePoison.contains (lineOf pa) = false ∧ (c.d.quay (c.d.fnOf c.s.lk) pa false).isSome = true ∧
        c.d.wroteLine c.h (c.s.addr base x off 4 l).toNat = false ∧ (c.d.core c.h).l1.ents.length < 1024) [] [] []
      (fun c e => ∃ ln, (e.core c.h).l1.find? (lineOf (c.s.addr base x off 4 l).toNat) = some ln ∧ ln.data = c.m.line (lineOf pa) ∧
        ln.sealed_ = false) := by
  refine acts_of (fun _ => by unfold exec execGpf; rfl) (fun c hc ⟨hl, hk, hl1, hm, hpend, hpoison, hquay, hwrote, _⟩ => ?_)
  obtain ⟨d, ln, hpre, hslots, hfind, hdata, hsealed⟩ := Ctx.prefetch_mapped hl1 hm hpend hpoison hquay hwrote
  simp only [Slot.lanesAt, hk, lanesOf_one hl, List.map_cons, List.map_nil, List.foldl_cons, List.foldl_nil, hpre, Bool.and_self, if_true]
  refine ⟨d, rfl, ?_, ln, ?_, hdata, hsealed⟩
  · rw [hslots, hc.own]
    exact .refl _
  · have hbare := Ctx.finish_core_bare c ⟨idxField x, [], idxUse x ++ [ra base, rk km], none, .all, false⟩ d (c.s.pc + 8#64) hc.step c.h
    have hl1' : ((c.finish ⟨idxField x, [], idxUse x ++ [ra base, rk km], none, .all, false⟩ d (c.s.pc + 8#64)).core c.h).l1 =
        (d.core c.h).l1 := (congrArg Core.l1 hbare :)
    rw [hl1']
    exact hfind

/-- Lines dropped from an L1. -/
def Core.dropLines (k : Core) (vas : List Nat) : Core := vas.foldl (fun k va => k.dropLine va) k

theorem AMap.find?_erase {α : Type} (m : AMap α) (k j : Nat) : (m.erase k).find? j = if j = k then none else m.find? j := by
  unfold AMap.find? AMap.erase
  by_cases h : j = k
  · rw [if_pos h, List.find?_eq_none.mpr]
    intro e he
    simpa [h] using (List.mem_filter.mp he).2
  · rw [if_neg h, find_filter_ne k j _ h]

theorem Core.find?_dropLines (k : Core) (vas : List Nat) (a : Nat) :
    (k.dropLines vas).l1.find? a = if a ∈ vas.map lineOf then none else k.l1.find? a := by
  induction vas generalizing k with
  | nil => rfl
  | cons va vas ih =>
    refine (ih _).trans ?_
    have hone : (k.dropLine va).l1.find? a = if a = lineOf va then none else k.l1.find? a := AMap.find?_erase _ _ _
    rw [hone, List.map_cons]
    by_cases h : a ∈ vas.map lineOf
    · rw [if_pos h, if_pos (List.mem_cons_of_mem _ h)]
    · by_cases ha : a = lineOf va
      · rw [if_neg h, if_pos ha, if_pos (ha ▸ List.mem_cons_self)]
      · rw [if_neg h, if_neg ha, if_neg (by simpa [ha] using h)]

theorem Core.slot_dropLines (k : Core) (vas : List Nat) (n : Nat) : (k.dropLines vas).slot n = k.slot n := by
  induction vas generalizing k with
  | nil => rfl
  | cons va vas ih => exact (ih _).trans rfl

theorem Core.bare_dropLines (k : Core) (vas : List Nat) : ({ (k.dropLines vas).bare with l1 := .empty } : Core) = { k.bare with l1 := .empty } := by
  induction vas generalizing k with
  | nil => rfl
  | cons va vas ih => exact (ih _).trans rfl

theorem Dev.CoreIs.dropLines {d e : Dev} {h : Nat} {k : Core} {α : Type} (va : α → Nat) (xs : List α) (he : d.CoreIs e h k) :
    d.CoreIs (xs.foldl (fun d x => d.updCore h (fun k => k.dropLine (va x))) e) h (k.dropLines (xs.map va)) := by
  induction xs generalizing e k with
  | nil => exact he
  | cons x xs ih => exact ih (he.updCore (fun k => k.dropLine (va x)))

/-- ginv takes the lines of its lanes out of the L1. -/
theorem ginv_completes (km : KReg) (x : VReg) (base : AReg) (off : BitVec 24) :
    CompletesOnCore (.ginv km x base off) ⟨idxField x, [], idxUse x ++ [ra base, rk km], none, .all, false⟩ (fun _ => True) [] [] []
      (fun k => { k with l1 := .empty })
      (fun c k _ => (∀ j, j < 16 → (c.s.K km.toNat).getLsbD j = true → k.l1.find? (lineOf (c.s.addr base x off 4 j).toNat) = none) ∧
        ∀ a, (∀ j, j < 16 → (c.s.K km.toNat).getLsbD j = true → lineOf (c.s.addr base x off 4 j).toNat ≠ a) →
          k.l1.find? a = (c.d.core c.h).l1.find? a) := by
  refine completesOnCore_of (fun _ => by unfold exec execGinv; rfl) (fun c hc _ => ?_)
  have hcore := (Dev.CoreIs.refl c.d c.h).dropLines (fun a : Nat × W64 => a.2.toNat) (c.s.lanesAt km x base off 4)
  obtain ⟨honly, hslots⟩ := c.onlyOwn_of_coreIs (strip := fun k => { k with l1 := .empty }) hcore (Core.slot_dropLines _ _)
    (Core.bare_dropLines _ _)
  refine ⟨_, rfl, honly, ?_, fun k hk => ?_⟩
  · rw [hslots, hc.own]
    exact .refl _
  · rw [hcore.core] at hk
    have hl1 : k.l1 = _ := (congrArg Core.l1 hk :)
    have hmem : ∀ a, a ∈ ((c.s.lanesAt km x base off 4).map (fun a => a.2.toNat)).map lineOf ↔
        ∃ j, j ∈ lanesOf (c.s.K km.toNat) ∧ lineOf (c.s.addr base x off 4 j).toNat = a := by
      intro a
      simp [Slot.lanesAt]
    refine ⟨fun j hj ha => ?_, fun a ha => ?_⟩
    · rw [hl1]
      refine (Core.find?_dropLines _ _ _).trans (if_pos ((hmem _).mpr ⟨j, mem_lanesOf.mpr ⟨hj, ha⟩, rfl⟩))
    · rw [hl1]
      refine (Core.find?_dropLines _ _ _).trans (if_neg fun h => ?_)
      obtain ⟨j, hj, hja⟩ := (hmem _).mp h
      exact ha j (mem_lanesOf.mp hj).1 (mem_lanesOf.mp hj).2 hja

/-- A load of mapped lanes issues. -/
theorem load_acts {i : Instr} {u : Use} {pre : Ctx → Prop} (kind : OpKind) (vd : List Nat) (kz : Bool) (parts : Nat) (km : KReg) (x : VReg)
    (base : AReg) (off : BitVec 24) (pa : Nat → Nat)
    (he : ∀ s, exec i s = thread u (fun c => c.load kind vd (c.s.K km.toNat) kz parts (c.s.lanesAt km x base off (4 * parts))) s)
    (hkind : ∀ v off rot, kind ≠ .ldkr v off rot)
    (hpre : ∀ c, pre c → c.s.kind ≠ .ordered ∧ c.bufferAway = false ∧ ∀ l, l < 16 → (c.s.K km.toNat).getLsbD l = true →
      (c.s.addr base x off (4 * parts) l).toNat % (4 * parts) = 0 ∧ c.mapped [.r] (c.s.addr base x off (4 * parts) l) (pa l) ∧
        (c.d.core c.h).l1.find? (lineOf (c.s.addr base x off (4 * parts) l).toNat) = none) :
    Acts i u pre [] [] [] (fun c e => c.Loads e vd (c.s.K km.toNat) kz (lanesOf (c.s.K km.toNat)) (c.s.addr base x off (4 * parts)) pa) := by
  refine acts_of he (fun c hc h => ?_)
  obtain ⟨hord, haway, hlanes⟩ := hpre c h
  obtain ⟨d, hd, hload⟩ := c.load_mapped (kind := kind) (vd := vd) (mask := c.s.K km.toNat) (kz := kz) (parts := parts)
    (ls := lanesOf (c.s.K km.toNat)) (at_ := c.s.addr base x off (4 * parts)) (pa := pa) haway
    (fun l hl => hlanes l (mem_lanesOf.mp hl).1 (mem_lanesOf.mp hl).2)
  rw [Slot.lanesAt, hload]
  exact Ctx.startLoad_homes hc hd hord rfl rfl hkind u _

/-- Settles O18. -/
theorem globalReads : Obligations.GlobalReads := by
  refine ⟨fun la km kz d x base off pa => ⟨?gld, ?gldx⟩, homeRead_reads, fun km x base off l pa => ⟨gpf_acts km x base off l pa,
    ginv_completes km x base off⟩⟩
  case gld =>
    intro s h n w hi hp
    obtain ⟨t, ht, hm, hpc, ha, hv, hk, hpost⟩ := load_acts (i := .gld la km kz d x base off) (.gld d.toNat) [d.toNat] kz 1 km x base off pa (fun _ => rfl)
      (fun _ _ _ => nofun) (fun _ => id) s h n w hi hp
    exact ⟨t, ht, hm, hpc, ha, hv, hk, hpost.only, hpost.op⟩
  case gldx =>
    intro s h n w hi hp
    obtain ⟨t, ht, hm, hpc, ha, hv, hk, hpost⟩ := load_acts (i := .gldx la km kz d x base off) (.gldx d.toNat) [d.toNat, d.toNat + 1] kz 2 km x base off pa (fun _ => rfl)
      (fun _ _ _ => nofun) (fun _ => id) s h n w hi hp
    exact ⟨t, ht, hm, hpc, ha, hv, hk, hpost.only, hpost.op⟩

end Sys2Proof.Machine
end

section
/-! PROOFS. Global stores enter open records (R141, R143, R146). -/

namespace Sys2Proof.Machine

/-! ### Words of a local store, put and read as records (R112, R141) -/

theorem Core.word_putWords (k : Core) (a : Nat) (ws : List W32) (x : Nat) :
    (k.putWords a ws).word x = if a / 4 ≤ x / 4 then ws[x / 4 - a / 4]?.getD (k.word x) else k.word x := by
  induction ws generalizing k a with
  | nil => simp [Core.putWords]
  | cons w ws ih =>
    rw [Core.putWords, ih, Core.word_setWord]
    have ha : (a + 4) / 4 = a / 4 + 1 := by omega
    rw [ha]
    by_cases h1 : a / 4 + 1 ≤ x / 4
    · rw [if_pos h1, if_neg (by omega), if_pos (by omega), show x / 4 - a / 4 = (x / 4 - (a / 4 + 1)) + 1 by omega, List.getElem?_cons_succ]
    · rw [if_neg h1]
      by_cases h2 : a / 4 = x / 4
      · rw [if_pos h2, if_pos (by omega), show x / 4 - a / 4 = 0 by omega]
        rfl
      · rw [if_neg h2, if_neg (by omega)]

/-- The words of a record. -/
theorem Core.word_putRecord (k : Core) (a : Nat) (l : Line) (m : LineMask) (x : Nat) :
    (k.putRecord a l m).word x = if a / 4 ≤ x / 4 ∧ x / 4 < a / 4 + 64 then
      if x / 4 - a / 4 < 32 then Line.w32 l (4 * (x / 4 - a / 4)) else
      if x / 4 - a / 4 < 36 then m.extractLsb' (32 * (x / 4 - a / 4 - 32)) 32 else 0#32
    else k.word x := by
  unfold Core.putRecord
  rw [Core.word_putWords, Core.word_putWords, Core.word_putWords]
  have h1 : (a + 128) / 4 = a / 4 + 32 := by omega
  have h2 : (a + 144) / 4 = a / 4 + 36 := by omega
  rw [h1, h2]
  generalize a / 4 = i
  generalize x / 4 = j
  by_cases h0 : i ≤ j
  · by_cases h1 : j < i + 32
    · rw [if_neg (by omega), if_neg (by omega), if_pos h0, if_pos (by omega), if_pos (by omega), List.getElem?_map,
        List.getElem?_range (by omega)]
      rfl
    · rw [if_pos (by omega : i + 32 ≤ j)]
      by_cases h2 : j < i + 36
      · have h36 : ¬i + 36 ≤ j := by omega
        have h64 : i ≤ j ∧ j < i + 64 := by omega
        have hlt : ¬j - i < 32 := by omega
        have hlt' : j - i < 36 := by omega
        rw [if_neg h36, if_pos h64, if_neg hlt, if_pos hlt', List.getElem?_map, List.getElem?_range (by omega),
          show j - (i + 32) = j - i - 32 by omega]
        rfl
      · rw [if_pos (by omega : i + 36 ≤ j), List.getElem?_eq_none (by simp; omega : ((List.range 4).map _).length ≤ j - (i + 32)),
          Option.getD_none, if_pos h0, List.getElem?_eq_none (by simp; omega : ((List.range 32).map _).length ≤ j - i), Option.getD_none]
        by_cases h3 : j < i + 64
        · rw [if_pos (by omega), if_neg (by omega), if_neg (by omega), List.getElem?_replicate, if_pos (by omega)]
          rfl
        · rw [if_neg (by omega), List.getElem?_replicate, if_neg (by omega), Option.getD_none]
  · rw [if_neg (by omega), if_neg (by omega), if_neg h0, if_neg (by omega)]

/-- Bits of some words as one number. -/
theorem testBit_foldr_words (f : Nat → W32) (n j : Nat) :
    ((List.range n).foldr (fun i acc => (f i).toNat + 2 ^ 32 * acc) 0).testBit j = (decide (j / 32 < n) && (f (j / 32)).getLsbD (j % 32)) := by
  induction n generalizing f j with
  | zero => simp
  | succ n ih =>
    rw [List.range_succ_eq_map, List.foldr_cons, List.foldr_map, Nat.add_comm, Nat.testBit_two_pow_mul_add _ (f 0).isLt,
      ih (fun i => f (i + 1))]
    split
    · next h =>
      rw [Nat.div_eq_of_lt h, Nat.mod_eq_of_lt h]
      simp
      rfl
    · next h =>
      have h1 : (j - 32) / 32 + 1 = j / 32 := by omega
      have h2 : (j - 32) % 32 = j % 32 := by omega
      rw [h1, h2]
      congr 1
      exact decide_eq_decide.mpr (by omega)

theorem Core.getLsbD_recLine (k : Core) (a : Nat) {j : Nat} (hj : j < 1024) :
    (k.recLine a).getLsbD j = (k.word (a + 4 * (j / 32))).getLsbD (j % 32) := by
  rw [Core.recLine, Core.wordsNat, BitVec.getLsbD_ofNat, testBit_foldr_words (fun i => k.word (a + 4 * i)), decide_eq_true hj,
    decide_eq_true (by omega : j / 32 < 32), Bool.true_and, Bool.true_and]

theorem Core.getLsbD_recMask (k : Core) (a : Nat) {j : Nat} (hj : j < 128) :
    (k.recMask a).getLsbD j = (k.word (a + 128 + 4 * (j / 32))).getLsbD (j % 32) := by
  rw [Core.recMask, Core.wordsNat, BitVec.getLsbD_ofNat, testBit_foldr_words (fun i => k.word (a + 128 + 4 * i)), decide_eq_true hj,
    decide_eq_true (by omega : j / 32 < 4), Bool.true_and, Bool.true_and]

theorem Core.recLine_putRecord (k : Core) (a : Nat) (l : Line) (m : LineMask) : (k.putRecord a l m).recLine a = l := by
  refine BitVec.eq_of_getLsbD_eq fun j hj => ?_
  have hi : (a + 4 * (j / 32)) / 4 - a / 4 = j / 32 := by omega
  rw [Core.getLsbD_recLine _ _ hj, Core.word_putRecord, if_pos (by omega), if_pos (by omega), hi, Line.w32, BitVec.getLsbD_extractLsb',
    decide_eq_true (Nat.mod_lt _ (by decide)), Bool.true_and]
  congr 1
  omega

theorem Core.recMask_putRecord (k : Core) (a : Nat) (l : Line) (m : LineMask) : (k.putRecord a l m).recMask a = m := by
  refine BitVec.eq_of_getLsbD_eq fun j hj => ?_
  have hi : (a + 128 + 4 * (j / 32)) / 4 - a / 4 - 32 = j / 32 := by omega
  rw [Core.getLsbD_recMask _ _ hj, Core.word_putRecord, if_pos (by omega), if_neg (by omega), if_pos (by omega), hi,
    BitVec.getLsbD_extractLsb', decide_eq_true (Nat.mod_lt _ (by decide)), Bool.true_and]
  congr 1
  omega

/-- A record put leaves the words outside it alone. -/
theorem Core.word_putRecord_ne (k : Core) {a x : Nat} (l : Line) (m : LineMask) (h : x + 4 ≤ a ∨ a + 256 ≤ x) :
    (k.putRecord a l m).word x = k.word x := by
  rw [Core.word_putRecord, if_neg (by omega)]

theorem Core.recLine_putRecord_ne (k : Core) {a b : Nat} (l : Line) (m : LineMask) (h : b + 256 ≤ a ∨ a + 256 ≤ b) :
    (k.putRecord a l m).recLine b = k.recLine b := by
  refine BitVec.eq_of_getLsbD_eq fun j hj => ?_
  rw [Core.getLsbD_recLine _ _ hj, Core.getLsbD_recLine _ _ hj, Core.word_putRecord_ne _ _ _ (by omega)]

theorem Core.recMask_putRecord_ne (k : Core) {a b : Nat} (l : Line) (m : LineMask) (h : b + 256 ≤ a ∨ a + 256 ≤ b) :
    (k.putRecord a l m).recMask b = k.recMask b := by
  refine BitVec.eq_of_getLsbD_eq fun j hj => ?_
  rw [Core.getLsbD_recMask _ _ hj, Core.getLsbD_recMask _ _ hj, Core.word_putRecord_ne _ _ _ (by omega)]

/-! ### Masked bytes of a line (R142) -/

theorem LineMask.getLsbD_bits (m : LineMask) {j : Nat} (hj : j < 1024) : (LineMask.bits m).getLsbD j = m.getLsbD (j / 8) := by
  have h : ∀ n, ((List.range n).foldl (fun acc i => if m.getLsbD i then acc ||| ((0xFF#1024) <<< (8 * i)) else acc) 0#1024).getLsbD j =
      (decide (j / 8 < n) && m.getLsbD (j / 8)) := by
    intro n
    induction n with
    | zero => simp
    | succ n ih =>
      have hbyte : ((0xFF#1024) <<< (8 * n)).getLsbD j = decide (j / 8 = n) := by
        have hff : ∀ k, (0xFF#1024).getLsbD k = decide (k < 8) := by
          intro k
          have h255 : Nat.testBit 255 k = decide (k < 8) := Nat.testBit_two_pow_sub_one 8 k
          rw [BitVec.getLsbD_ofNat, h255, ← Bool.decide_and]
          exact decide_eq_decide.mpr (by omega)
        rw [BitVec.getLsbD_shiftLeft, hff, decide_eq_true hj, Bool.true_and, ← decide_not, ← Bool.decide_and]
        exact decide_eq_decide.mpr (by omega)
      rw [List.range_succ, List.foldl_append, List.foldl_cons, List.foldl_nil]
      split
      · next hm =>
        rw [BitVec.getLsbD_or, ih, hbyte]
        by_cases h : j / 8 = n
        · simp [h, hm]
        · simp [h, show (j / 8 < n + 1) = (j / 8 < n) by rw [Nat.lt_succ_iff_lt_or_eq]; simp [h]]
      · next hm =>
        rw [ih]
        by_cases h : j / 8 = n
        · simp [h, hm]
        · simp [show (j / 8 < n + 1) = (j / 8 < n) by rw [Nat.lt_succ_iff_lt_or_eq]; simp [h]]
  rw [LineMask.bits, h 128, decide_eq_true (by omega), Bool.true_and]

theorem Line.getLsbD_over (old new : Line) (m : LineMask) {j : Nat} (hj : j < 1024) :
    (Line.over old new m).getLsbD j = if m.getLsbD (j / 8) then new.getLsbD j else old.getLsbD j := by
  rw [Line.over, BitVec.getLsbD_or, BitVec.getLsbD_and, BitVec.getLsbD_and, BitVec.getLsbD_not, LineMask.getLsbD_bits m hj]
  cases m.getLsbD (j / 8) <;> simp [hj]

/-! ### A word as a line's data and mask -/

theorem getLsbD_lineBytes_data (va v n : Nat) {j : Nat} (hj : j < 1024) :
    (lineBytes va v n).1.getLsbD j = (decide (8 * (va % 128) ≤ j) && v.testBit (j - 8 * (va % 128))) := by
  rw [lineBytes, BitVec.getLsbD_ofNat, decide_eq_true hj, Bool.true_and, Nat.testBit_mul_two_pow]

theorem getLsbD_lineBytes_mask (va v n : Nat) {i : Nat} (hi : i < 128) :
    (lineBytes va v n).2.getLsbD i = decide (va % 128 ≤ i ∧ i < va % 128 + n) := by
  rw [lineBytes, BitVec.getLsbD_ofNat, decide_eq_true hi, Bool.true_and, Nat.testBit_mul_two_pow, Nat.testBit_two_pow_sub_one,
    ← Bool.decide_and]
  exact decide_eq_decide.mpr (by omega)

/-- A word stored into a line is read back. -/
theorem w32_over_self (old : Line) {va : Nat} (v : W32) (hva : va % 4 = 0) :
    Line.w32 (Line.over old (lineBytes va v.toNat 4).1 (lineBytes va v.toNat 4).2) (va % 128) = v := by
  refine BitVec.eq_of_getLsbD_eq fun j hj => ?_
  have hlow : 8 * (va % 128) + j < 1024 := by omega
  rw [Line.w32, BitVec.getLsbD_extractLsb', decide_eq_true hj, Bool.true_and, Line.getLsbD_over _ _ _ hlow,
    getLsbD_lineBytes_mask _ _ _ (by omega), if_pos (by simp; omega), getLsbD_lineBytes_data _ _ _ hlow, decide_eq_true (by omega),
    Bool.true_and, Nat.add_sub_cancel_left]
  rfl

/-- Another word of the line keeps its value. -/
theorem w32_over_ne (old : Line) {va o : Nat} (v : W32) (hva : va % 4 = 0) (ho : o % 4 = 0) (ho' : o < 128) (hne : o ≠ va % 128) :
    Line.w32 (Line.over old (lineBytes va v.toNat 4).1 (lineBytes va v.toNat 4).2) o = Line.w32 old o := by
  refine BitVec.eq_of_getLsbD_eq fun j hj => ?_
  have hlow : 8 * o + j < 1024 := by omega
  rw [Line.w32, Line.w32, BitVec.getLsbD_extractLsb', BitVec.getLsbD_extractLsb', decide_eq_true hj, Bool.true_and, Bool.true_and,
    Line.getLsbD_over _ _ _ hlow, getLsbD_lineBytes_mask _ _ _ (by omega), if_neg (by simp; omega)]

/-! ### Open records (R141) -/

/-- A search that finds an element which a change leaves alone, where the change makes nothing fit that did not. -/
theorem find?_map_kept {α : Type} {p : α → Bool} {g : α → α} {l : List α} {r : α} (h : l.find? p = some r) (hr : g r = r)
    (hg : ∀ x, p (g x) = true → p x = true) : (l.map g).find? p = some r := by
  induction l with
  | nil => cases h
  | cons x xs ih =>
    rw [List.map_cons, List.find?_cons]
    rw [List.find?_cons] at h
    cases hx : p x with
    | true =>
      rw [hx] at h
      obtain rfl : x = r := Option.some.inj h
      rw [hr, hx]
    | false =>
      rw [hx] at h
      have hgx : p (g x) = false := Bool.eq_false_iff.mpr (fun hp => by rw [hg x hp] at hx; cases hx)
      rw [hgx]
      exact ih h

/-- A search that finds what a change has put for the element found before. -/
theorem find?_map_put {α : Type} {p : α → Bool} {g : α → α} {l : List α} {r r' : α} (h : l.find? p = some r) (hr : g r = r')
    (hr' : p r' = true) (hg : ∀ x, g x = x ∨ g x = r') : (l.map g).find? p = some r' := by
  induction l with
  | nil => cases h
  | cons x xs ih =>
    rw [List.map_cons, List.find?_cons]
    rw [List.find?_cons] at h
    rcases hg x with hx | hx
    · cases hpx : p x with
      | true =>
        rw [hpx] at h
        obtain rfl : x = r := Option.some.inj h
        rw [hr, hr']
      | false =>
        rw [hpx] at h
        rw [hx, hpx]
        exact ih h
    · rw [hx, hr']

/-- r is the open record of a line in a buffer of no task, and no record of another line stands in its place. -/
structure Core.Owns (k : Core) (buf : Nat) (va : Nat) (r : DirEnt) : Prop where
  open_ : k.openRec buf 0#32 va = some r
  alone : ∀ x, x ∈ k.dir → x.buf = buf → x.rec_ = r.rec_ → x.va = lineOf va

theorem Core.openRec_spec {k : Core} {buf va : Nat} {task : W32} {r : DirEnt} (h : k.openRec buf task va = some r) :
    r ∈ k.dir ∧ r.buf = buf ∧ r.task = task ∧ r.gid = none ∧ r.va = lineOf va := by
  unfold Core.openRec at h
  have hr := List.find?_some h
  simp only [Bool.and_eq_true, beq_iff_eq, Option.isNone_iff_eq_none] at hr
  exact ⟨List.mem_of_find?_eq_some h, hr.1.1.1, hr.1.1.2, hr.1.2, hr.2⟩

/-- The word at an address stands in the open record of its line. -/
def Core.Holds (k : Core) (buf : Nat) (a : Nat) (v : W32) : Prop :=
  ∃ r, k.Owns buf a r ∧ Line.w32 (k.recLine r.at) (a % 128) = v ∧ ∀ i, i < 4 → (k.recMask r.at).getLsbD (a % 128 + i) = true

/-- What buffering may rely on, and what it leaves outside the buffer: n records may have been taken since k0. -/
structure Core.Buffering (k0 k : Core) (buf cap n : Nat) : Prop where
  low : ∀ e, e ∈ k.dir → e.buf = buf → e.rec_ < cap
  count : (k.dir.filter (fun e => e.buf == buf)).length ≤ (k0.dir.filter (fun e => e.buf == buf)).length + n
  words : ∀ a, (a + 4 ≤ buf ∨ buf + 256 * cap ≤ a) → k.word a = k0.word a
  slots : ∀ m, k.slot m = k0.slot m

/-- A word buffered in no task's record. -/
def Core.bufferWord (k : Core) (buf cap seq : Nat) (va : Nat) (v : W32) : Option Core :=
  k.buffer buf cap seq 0#32 va (lineBytes va v.toNat 4).1 (lineBytes va v.toNat 4).2

theorem DirEnt.at_ne {x y : DirEnt} (hb : x.buf = y.buf) (hr : x.rec_ ≠ y.rec_) : x.at + 256 ≤ y.at ∨ y.at + 256 ≤ x.at := by
  unfold DirEnt.at
  omega

/-- Records put change no slot and no directory. -/
theorem Core.putWords_keeps (k : Core) (a : Nat) (ws : List W32) :
    (k.putWords a ws).dir = k.dir ∧ ∀ m, (k.putWords a ws).slot m = k.slot m := by
  induction ws generalizing k a with
  | nil => exact ⟨rfl, fun _ => rfl⟩
  | cons w ws ih => exact ih _ _

theorem Core.putRecord_keeps (k : Core) (a : Nat) (l : Line) (m : LineMask) :
    (k.putRecord a l m).dir = k.dir ∧ ∀ j, (k.putRecord a l m).slot j = k.slot j := by
  unfold Core.putRecord
  obtain ⟨h1, g1⟩ := k.putWords_keeps a ((List.range 32).map (fun i => Line.w32 l (4 * i)))
  obtain ⟨h2, g2⟩ := (k.putWords a ((List.range 32).map (fun i => Line.w32 l (4 * i)))).putWords_keeps (a + 128)
    ((List.range 4).map (fun i => m.extractLsb' (32 * i) 32))
  obtain ⟨h3, g3⟩ := ((k.putWords a ((List.range 32).map (fun i => Line.w32 l (4 * i)))).putWords (a + 128)
    ((List.range 4).map (fun i => m.extractLsb' (32 * i) 32))).putWords_keeps (a + 144) (List.replicate 28 0#32)
  exact ⟨h3.trans (h2.trans h1), fun j => (g3 j).trans ((g2 j).trans (g1 j))⟩

/-- A record's words changed in its place by bytes x of its line, and its entry by e. -/
structure Core.Wrote (k k' : Core) (e : DirEnt) (old : Line) (oldMask : LineMask) (x : Line × LineMask) : Prop where
  line : k'.recLine e.at = Line.over old x.1 x.2
  mask : k'.recMask e.at = oldMask ||| x.2
  lines : ∀ a, a + 256 ≤ e.at ∨ e.at + 256 ≤ a → k'.recLine a = k.recLine a ∧ k'.recMask a = k.recMask a
  words : ∀ a, a + 4 ≤ e.at ∨ e.at + 256 ≤ a → k'.word a = k.word a
  slots : ∀ m, k'.slot m = k.slot m

theorem Core.wrote_putRecord (k : Core) (e : DirEnt) (old : Line) (oldMask : LineMask) (x : Line × LineMask) :
    k.Wrote (k.putRecord e.at (Line.over old x.1 x.2) (oldMask ||| x.2)) e old oldMask x :=
  ⟨k.recLine_putRecord e.at _ _, k.recMask_putRecord e.at _ _, fun _ ha => ⟨k.recLine_putRecord_ne _ _ ha, k.recMask_putRecord_ne _ _ ha⟩,
    fun _ ha => k.word_putRecord_ne _ _ ha, fun m => (k.putRecord_keeps e.at _ _).2 m⟩

/-- The directory and the poison of a core are no part of its records' words. -/
theorem Core.Wrote.setDir {k c : Core} {e : DirEnt} {old : Line} {oldMask : LineMask} {x : Line × LineMask} (h : k.Wrote c e old oldMask x)
    (p : List Nat) (dir : List DirEnt) : k.Wrote { c with lsPoison := p, dir := dir } e old oldMask x :=
  ⟨h.line, h.mask, h.lines, h.words, h.slots⟩

section
variable {k0 k k' : Core} {buf cap n va : Nat} {v : W32} {e : DirEnt} {old : Line} {oldMask : LineMask} {x : Line × LineMask}

/-- The mask bits of a word are set. -/
theorem Core.Wrote.bits (h : k.Wrote k' e old oldMask (lineBytes va v.toNat 4)) (hva : va % 4 = 0) {i : Nat} (hi : i < 4) :
    (k'.recMask e.at).getLsbD (va % 128 + i) = true := by
  rw [h.mask, BitVec.getLsbD_or, getLsbD_lineBytes_mask _ _ _ (by omega)]
  simp [hi]

/-- The word written stands in the record that took it. -/
theorem Core.Wrote.holds (h : k.Wrote k' e old oldMask (lineBytes va v.toNat 4)) (hva : va % 4 = 0) {r : DirEnt} (hat : r.at = e.at) (howns : k'.Owns buf va r) :
    k'.Holds buf va v := by
  refine ⟨r, howns, ?_, fun i hi => ?_⟩
  · rw [hat, h.line]
    exact w32_over_self old v hva
  · rw [hat]
    exact h.bits hva hi

/-- A word of another line keeps its place and value. -/
theorem Core.Wrote.holds_other (h : k.Wrote k' e old oldMask x) {a : Nat} {u : W32} {r : DirEnt} (howns : k'.Owns buf a r)
    (hne : r.at + 256 ≤ e.at ∨ e.at + 256 ≤ r.at) (hw : Line.w32 (k.recLine r.at) (a % 128) = u)
    (hm : ∀ i, i < 4 → (k.recMask r.at).getLsbD (a % 128 + i) = true) : k'.Holds buf a u := by
  obtain ⟨hl, hk⟩ := h.lines r.at hne
  exact ⟨r, howns, by rw [hl]; exact hw, fun i hi => by rw [hk]; exact hm i hi⟩

theorem mod_128_ne {a b : Nat} (hl : lineOf a = lineOf b) (hne : a ≠ b) : a % 128 ≠ b % 128 := by
  unfold lineOf at hl
  omega

/-- The directory once the open record of a line has been written again. -/
def rewritten (e : DirEnt) (seq : Nat) (dir : List DirEnt) : List DirEnt :=
  dir.map (fun x => if x.buf == e.buf && x.rec_ == e.rec_ then { e with seq := seq } else x)

theorem Core.Owns.congr {a b : Nat} {r : DirEnt} (h : k.Owns buf a r) (hab : lineOf a = lineOf b) : k.Owns buf b r :=
  ⟨by rw [← h.open_, Core.openRec, Core.openRec, hab], fun x hx hb hr => (h.alone x hx hb hr).trans hab⟩

theorem mem_rewritten {e x : DirEnt} {seq : Nat} {dir : List DirEnt} (h : x ∈ rewritten e seq dir) :
    x = { e with seq := seq } ∨ x ∈ dir ∧ ¬(x.buf = e.buf ∧ x.rec_ = e.rec_) := by
  obtain ⟨y, hy, rfl⟩ := List.mem_map.mp h
  split
  · exact Or.inl rfl
  · next hne => exact Or.inr ⟨hy, by simpa using hne⟩

/-- The record that is written again is its line's own. -/
theorem owns_rewritten {seq : Nat} (he : k.openRec buf 0#32 va = some e) (hdir : k'.dir = rewritten e seq k.dir) :
    k'.Owns buf va { e with seq := seq } := by
  obtain ⟨-, hbuf, htask, hgid, heva⟩ := Core.openRec_spec he
  refine ⟨?_, fun x hx hxb hxr => ?_⟩
  · rw [Core.openRec, hdir, rewritten]
    refine find?_map_put he (by simp) ?_ (fun x => ?_)
    · simp [hbuf, htask, hgid, heva]
    · split
      · exact Or.inr rfl
      · exact Or.inl rfl
  · rcases mem_rewritten (hdir ▸ hx) with rfl | ⟨-, hne⟩
    · exact heva
    · exact absurd ⟨hxb.trans hbuf.symm, hxr⟩ hne

/-- Another line keeps its own record when a record is written again. -/
theorem Core.Owns.rewritten_other {seq a : Nat} {r : DirEnt} (he : k.openRec buf 0#32 va = some e)
    (hdir : k'.dir = rewritten e seq k.dir) (h : k.Owns buf a r) (hne : lineOf a ≠ lineOf va) :
    k'.Owns buf a r ∧ (r.at + 256 ≤ e.at ∨ e.at + 256 ≤ r.at) := by
  obtain ⟨hmem, hbuf, htask, hgid, heva⟩ := Core.openRec_spec he
  obtain ⟨-, hrbuf, -, -, -⟩ := Core.openRec_spec h.open_
  have hrec : r.rec_ ≠ e.rec_ := fun heq => hne ((h.alone e hmem hbuf heq.symm).symm.trans heva)
  refine ⟨⟨?_, fun x hx hxb hxr => ?_⟩, DirEnt.at_ne (hrbuf.trans hbuf.symm) hrec⟩
  · rw [Core.openRec, hdir, rewritten]
    refine find?_map_kept h.open_ ?_ (fun x hx => ?_)
    · simp [hrec]
    · split at hx
      · simp only [Bool.and_eq_true, beq_iff_eq] at hx
        exact absurd (hx.2.symm.trans heva) hne
      · exact hx
  · rcases mem_rewritten (hdir ▸ hx) with rfl | ⟨hx', -⟩
    · exact absurd hxr.symm hrec
    · exact h.alone x hx' hxb hxr

/-- A new record is its line's own. -/
theorem owns_new (hnone : k.openRec buf 0#32 va = none) (hfree : ∀ x, x ∈ k.dir → x.buf = buf → x.rec_ ≠ e.rec_)
    (he : e.buf = buf ∧ e.task = 0#32 ∧ e.gid = none ∧ e.va = lineOf va) (hdir : k'.dir = k.dir ++ [e]) : k'.Owns buf va e := by
  obtain ⟨hbuf, htask, hgid, heva⟩ := he
  refine ⟨?_, fun x hx hxb hxr => ?_⟩
  · unfold Core.openRec at hnone ⊢
    rw [hdir, List.find?_append, hnone]
    simp [hbuf, htask, hgid, heva]
  · rcases List.mem_append.mp (hdir ▸ hx) with hx | hx
    · exact absurd hxr (hfree x hx hxb)
    · rw [List.mem_singleton.mp hx, heva]

theorem Core.Owns.new_other {a : Nat} {r : DirEnt} (hfree : ∀ x, x ∈ k.dir → x.buf = buf → x.rec_ ≠ e.rec_) (hbuf : e.buf = buf)
    (hdir : k'.dir = k.dir ++ [e]) (h : k.Owns buf a r) : k'.Owns buf a r ∧ (r.at + 256 ≤ e.at ∨ e.at + 256 ≤ r.at) := by
  obtain ⟨hmem, hrbuf, -, -, -⟩ := Core.openRec_spec h.open_
  have hrec := hfree r hmem hrbuf
  refine ⟨⟨?_, fun x hx hxb hxr => ?_⟩, DirEnt.at_ne (hrbuf.trans hbuf.symm) hrec⟩
  · have hopen := h.open_
    unfold Core.openRec at hopen ⊢
    rw [hdir, List.find?_append, hopen]
    rfl
  · rcases List.mem_append.mp (hdir ▸ hx) with hx | hx
    · exact h.alone x hx hxb hxr
    · rw [List.mem_singleton.mp hx] at hxr
      exact absurd hxr.symm hrec

end

/-! ### Buffering words (R141, R143) -/

theorem DirEnt.at_bounds {e : DirEnt} {buf cap : Nat} (hb : e.buf = buf) (hr : e.rec_ < cap) :
    buf ≤ e.at ∧ e.at + 256 ≤ buf + 256 * cap := by
  unfold DirEnt.at
  omega

theorem length_filter_rewritten {e : DirEnt} {seq buf : Nat} (hb : e.buf = buf) (dir : List DirEnt) :
    ((rewritten e seq dir).filter (fun x => x.buf == buf)).length = (dir.filter (fun x => x.buf == buf)).length := by
  rw [rewritten, List.filter_map, List.length_map]
  congr 2
  funext x
  rw [Function.comp]
  split
  · next h =>
    simp only [Bool.and_eq_true, beq_iff_eq] at h
    simp [h.1]
  · rfl

/-- A buffer with room has a free record. -/
theorem Core.freeRec_isSome {k : Core} {buf cap : Nat} (h : (k.dir.filter (fun e => e.buf == buf)).length < cap) :
    ∃ r, k.freeRec buf cap = some r ∧ r < cap ∧ ∀ x, x ∈ k.dir → x.buf = buf → x.rec_ ≠ r := by
  cases hf : k.freeRec buf cap with
  | some r =>
    refine ⟨r, rfl, List.mem_range.mp (List.mem_of_find?_eq_some hf), fun x hx hb hr => ?_⟩
    have hfree := List.find?_some hf
    simp only [Bool.not_eq_true', List.any_eq_false, Bool.and_eq_true, beq_iff_eq, not_and] at hfree
    exact hfree x hx hb hr
  | none =>
    exfalso
    have hall : ∀ r, r ∈ List.range cap → r ∈ (k.dir.filter (fun e => e.buf == buf)).map (·.rec_) := by
      intro r hr
      have hused := List.find?_eq_none.mp hf r hr
      simp only [Bool.not_eq_true, Bool.not_eq_false', List.any_eq_true, Bool.and_eq_true, beq_iff_eq] at hused
      obtain ⟨x, hx, hb, hxr⟩ := hused
      exact List.mem_map.mpr ⟨x, List.mem_filter.mpr ⟨hx, by simpa using hb⟩, hxr⟩
    have hle := (List.nodup_range (n := cap)).subperm hall |>.length_le
    rw [List.length_range, List.length_map] at hle
    omega

section
variable {k0 k k' : Core} {buf cap n seq va : Nat} {v : W32} {e : DirEnt} {old : Line} {oldMask : LineMask} {x : Line × LineMask}

/-- What buffering relies on stays where a word is written into the open record of its line. -/
theorem Core.Buffering.rewritten (hk : k0.Buffering k buf cap n) (he : k.openRec buf 0#32 va = some e)
    (hdir : k'.dir = Machine.rewritten e seq k.dir) (hw : k.Wrote k' e old oldMask x) : k0.Buffering k' buf cap n := by
  obtain ⟨hlow, hcount, hwords, hslots⟩ := hk
  obtain ⟨hmem, hbuf, -, -, -⟩ := Core.openRec_spec he
  obtain ⟨hge, hle⟩ := DirEnt.at_bounds hbuf (hlow e hmem hbuf)
  refine ⟨fun x hx hxb => ?_, ?_, fun a ha => (hw.words a (by omega)).trans (hwords a ha), fun m => (hw.slots m).trans (hslots m)⟩
  · rw [hdir] at hx
    rcases mem_rewritten hx with rfl | ⟨hx', -⟩
    · exact hlow e hmem hbuf
    · exact hlow x hx' hxb
  · rw [hdir, length_filter_rewritten hbuf]
    exact hcount

/-- And where a word is written into a record of its own. -/
theorem Core.Buffering.new (hk : k0.Buffering k buf cap n) (hbuf : e.buf = buf) (hrec : e.rec_ < cap)
    (hdir : k'.dir = k.dir ++ [e]) (hw : k.Wrote k' e old oldMask x) : k0.Buffering k' buf cap (n + 1) := by
  obtain ⟨hlow, hcount, hwords, hslots⟩ := hk
  obtain ⟨hge, hle⟩ := DirEnt.at_bounds hbuf hrec
  refine ⟨fun x hx hxb => ?_, ?_, fun a ha => (hw.words a (by omega)).trans (hwords a ha), fun m => (hw.slots m).trans (hslots m)⟩
  · rw [hdir] at hx
    rcases List.mem_append.mp hx with hx | hx
    · exact hlow x hx hxb
    · rw [List.mem_singleton.mp hx]
      exact hrec
  · have hone : ([e].filter (fun x => x.buf == buf)).length = 1 := by simp [hbuf]
    rw [hdir, List.filter_append, List.length_append, hone]
    omega

/-- The other words of the line that is written stay. -/
theorem Core.Wrote.holds_same {a : Nat} {u : W32} {r : DirEnt} (hw : k.Wrote k' e (k.recLine e.at) (k.recMask e.at) (lineBytes va v.toNat 4)) (hva : va % 4 = 0)
    (ha : a % 4 = 0) (hne : a ≠ va) (hl : lineOf a = lineOf va) (hat : r.at = e.at) (howns : k'.Owns buf va r)
    (hu : Line.w32 (k.recLine e.at) (a % 128) = u) (hm : ∀ i, i < 4 → (k.recMask e.at).getLsbD (a % 128 + i) = true) : k'.Holds buf a u := by
  refine ⟨r, howns.congr hl.symm, ?_, fun i hi => ?_⟩
  · rw [hat, hw.line, w32_over_ne _ v hva (by omega) (Nat.mod_lt _ (by decide)) (mod_128_ne hl hne)]
    exact hu
  · rw [hat, hw.mask, BitVec.getLsbD_or, hm i hi, Bool.true_or]

/-- Every other word that stood in its line's open record still does. -/
theorem Core.Holds.rewritten {a : Nat} {u : W32} (h : k.Holds buf a u) (he : k.openRec buf 0#32 va = some e)
    (hdir : k'.dir = Machine.rewritten e seq k.dir) (hw : k.Wrote k' e (k.recLine e.at) (k.recMask e.at) (lineBytes va v.toNat 4)) (hva : va % 4 = 0)
    (ha : a % 4 = 0) (hne : a ≠ va) : k'.Holds buf a u := by
  obtain ⟨r, howns, hu, hm⟩ := h
  by_cases hl : lineOf a = lineOf va
  · obtain rfl : r = e := Option.some.inj ((howns.congr hl).open_.symm.trans he)
    exact hw.holds_same (r := { r with seq := seq }) hva ha hne hl rfl (owns_rewritten (seq := seq) he hdir) hu hm
  · obtain ⟨howns', hat⟩ := howns.rewritten_other he hdir hl
    exact hw.holds_other howns' hat hu hm

theorem Core.Holds.new {a : Nat} {u : W32} (h : k.Holds buf a u) (hfree : ∀ x, x ∈ k.dir → x.buf = buf → x.rec_ ≠ e.rec_)
    (hbuf : e.buf = buf) (hdir : k'.dir = k.dir ++ [e]) (hw : k.Wrote k' e old oldMask x) : k'.Holds buf a u := by
  obtain ⟨r, howns, hu, hm⟩ := h
  obtain ⟨howns', hat⟩ := howns.new_other hfree hbuf hdir
  exact hw.holds_other howns' hat hu hm

end

/-- The core once the open record e of a line has taken bytes x of it. -/
def Core.bufferedIn (k : Core) (e : DirEnt) (seq : Nat) (x : Line × LineMask) : Core :=
  let c := k.putRecord e.at (Line.over (k.recLine e.at) x.1 x.2)
    (k.recMask e.at ||| x.2)
  { c with lsPoison := (c.keepPoison k.lsPoison e.at x.2).lsPoison, dir := rewritten e seq c.dir }

/-- The core once a new record e has taken the bytes. -/
def Core.bufferedNew (k : Core) (e : DirEnt) (x : Line × LineMask) : Core :=
  let c := k.putRecord e.at (Line.over 0#1024 x.1 x.2) x.2
  { c with dir := c.dir ++ [e] }

theorem Core.keepPoison_dir (c : Core) (p : List Nat) (a : Nat) (m : LineMask) (dir : List DirEnt) :
    ({ c.keepPoison p a m with dir := dir } : Core) = { c with lsPoison := (c.keepPoison p a m).lsPoison, dir := dir } := rfl

theorem Core.buffer_eq (k : Core) (buf cap seq va : Nat) (x : Line × LineMask) : k.buffer buf cap seq 0#32 va x.1 x.2 =
    match k.openRec buf 0#32 va with
    | some e => some (k.bufferedIn e seq x)
    | none => (k.freeRec buf cap).map (fun r => k.bufferedNew ⟨buf, r, lineOf va, none, 0#32, seq⟩ x) := by
  have hsup : k.supersede buf 0#32 va x.2 = k := rfl
  unfold Core.buffer
  rw [hsup]
  dsimp only
  cases k.openRec buf 0#32 va with
  | some e => exact congrArg some (Core.keepPoison_dir _ _ _ _ _)
  | none =>
    cases k.freeRec buf cap with
    | some r => rfl
    | none => rfl

theorem Core.dir_bufferedIn (k : Core) (e : DirEnt) (seq : Nat) (x : Line × LineMask) : (k.bufferedIn e seq x).dir = rewritten e seq k.dir := by
  have h := (k.putRecord_keeps e.at (Line.over (k.recLine e.at) x.1 x.2)
    (k.recMask e.at ||| x.2)).1
  unfold Core.bufferedIn
  exact congrArg (rewritten e seq) h

theorem Core.bufferedIn_spec (k : Core) (e : DirEnt) (seq : Nat) (x : Line × LineMask) :
    (k.bufferedIn e seq x).dir = rewritten e seq k.dir ∧
      k.Wrote (k.bufferedIn e seq x) e (k.recLine e.at) (k.recMask e.at) x :=
  ⟨k.dir_bufferedIn e seq x, (k.wrote_putRecord e (k.recLine e.at) (k.recMask e.at) x).setDir _ _⟩

theorem Core.bufferedNew_spec (k : Core) (e : DirEnt) (x : Line × LineMask) :
    (k.bufferedNew e x).dir = k.dir ++ [e] ∧ k.Wrote (k.bufferedNew e x) e 0#1024 0#128 x := by
  have hw := k.wrote_putRecord e 0#1024 0#128 x
  rw [BitVec.zero_or] at hw
  exact ⟨congrArg (· ++ [e]) (k.putRecord_keeps e.at _ _).1, hw.setDir _ _⟩

/-- Buffering into the open record of a line. -/
theorem Core.bufferedIn_step {k0 k : Core} {buf cap n : Nat} (seq : Nat) {va : Nat} (v : W32) {e : DirEnt} (hk : k0.Buffering k buf cap n)
    (hva : va % 4 = 0) (he : k.openRec buf 0#32 va = some e) :
    k0.Buffering (k.bufferedIn e seq (lineBytes va v.toNat 4)) buf cap n ∧ (k.bufferedIn e seq (lineBytes va v.toNat 4)).Holds buf va v ∧
      ∀ a u, a % 4 = 0 → a ≠ va → k.Holds buf a u → (k.bufferedIn e seq (lineBytes va v.toNat 4)).Holds buf a u := by
  obtain ⟨hdir, hw⟩ := k.bufferedIn_spec e seq (lineBytes va v.toNat 4)
  generalize k.bufferedIn e seq (lineBytes va v.toNat 4) = k' at hdir hw
  exact ⟨hk.rewritten he hdir hw, hw.holds (r := { e with seq := seq }) hva rfl (owns_rewritten he hdir),
    fun a u ha hne h => h.rewritten he hdir hw hva ha hne⟩

/-- Buffering into a new record. -/
theorem Core.bufferedNew_step {k0 k : Core} {buf cap n va : Nat} (v : W32) {e : DirEnt} (hk : k0.Buffering k buf cap n)
    (hva : va % 4 = 0) (hnone : k.openRec buf 0#32 va = none) (hlow : e.rec_ < cap) (hfree : ∀ x, x ∈ k.dir → x.buf = buf → x.rec_ ≠ e.rec_)
    (he : e.buf = buf ∧ e.task = 0#32 ∧ e.gid = none ∧ e.va = lineOf va) :
    k0.Buffering (k.bufferedNew e (lineBytes va v.toNat 4)) buf cap (n + 1) ∧ (k.bufferedNew e (lineBytes va v.toNat 4)).Holds buf va v ∧
      ∀ a u, a % 4 = 0 → a ≠ va → k.Holds buf a u → (k.bufferedNew e (lineBytes va v.toNat 4)).Holds buf a u := by
  obtain ⟨hdir, hw⟩ := k.bufferedNew_spec e (lineBytes va v.toNat 4)
  generalize k.bufferedNew e (lineBytes va v.toNat 4) = k' at hdir hw
  exact ⟨hk.new he.1 hlow hdir hw, hw.holds hva rfl (owns_new hnone hfree he hdir), fun a u _ _ h => h.new hfree he.1 hdir hw⟩

/-- One word is buffered: it stands in its line's open record, every word that stood in one still does, and a record is taken only where
the line had none. -/
theorem Core.bufferWord_step {k0 k : Core} {buf cap n seq va : Nat} (v : W32) (hk : k0.Buffering k buf cap n) (hva : va % 4 = 0)
    (hroom : (k.openRec buf 0#32 va).isSome = true ∨ (k.dir.filter (fun e => e.buf == buf)).length < cap) :
    ∃ k', k.bufferWord buf cap seq va v = some k' ∧
      k0.Buffering k' buf cap (if (k.openRec buf 0#32 va).isSome then n else n + 1) ∧ k'.Holds buf va v ∧
      ∀ a u, a % 4 = 0 → a ≠ va → k.Holds buf a u → k'.Holds buf a u := by
  cases he : k.openRec buf 0#32 va with
  | some e => exact ⟨_, by simp only [Core.bufferWord, Core.buffer_eq, he], Core.bufferedIn_step seq v hk hva he⟩
  | none =>
    obtain ⟨r, hr, hlow, hfree⟩ := Core.freeRec_isSome (hroom.resolve_left (by simp [he]))
    exact ⟨_, by simp only [Core.bufferWord, Core.buffer_eq, he, hr, Option.map_some],
      Core.bufferedNew_step (e := ⟨buf, r, lineOf va, none, 0#32, seq⟩) v hk hva he hlow hfree ⟨rfl, rfl, rfl, rfl⟩⟩

/-! ### The words of a store's lanes, buffered in order (R141, R143) -/

section
variable {k0 : Core} {buf cap seq parts : Nat} {at_ : Nat → Nat} {val : Nat → Nat → W32} {words : Nat → List StWord}

/-- One word of a store buffered in no task's record. -/
def bufferStep (buf cap seq : Nat) (k : Option Core) (w : StWord) : Option Core :=
  k.bind (fun k => k.bufferWord buf cap seq w.va.toNat w.data)

/-- The words of a lane have been buffered: they stand in their line's open record, and so does every other word that did. -/
structure Core.LaneBuffered (k k' : Core) (buf parts a : Nat) (val : Nat → W32) : Prop where
  here : ∀ p, p < parts → k'.Holds buf (a + 4 * p) (val p)
  others : ∀ b u, b % 4 = 0 → (∀ p, p < parts → b ≠ a + 4 * p) → k.Holds buf b u → k'.Holds buf b u

theorem Core.Buffering.room {k : Core} {n : Nat} (h : k0.Buffering k buf cap n) (hn : n < 16)
    (hcap : (k0.dir.filter (fun e => e.buf == buf)).length + 16 ≤ cap) : (k.dir.filter (fun e => e.buf == buf)).length < cap := by
  have hcount := h.count
  omega

theorem Core.Buffering.mono {k : Core} {n m : Nat} (h : k0.Buffering k buf cap n) (hnm : n ≤ m) : k0.Buffering k buf cap m :=
  ⟨h.low, h.count.trans (by omega), h.words, h.slots⟩

/-- A lane of one word. -/
theorem Core.buffer_word {k : Core} {n : Nat} (w : StWord) (h : k0.Buffering k buf cap n)
    (hroom : (k.dir.filter (fun e => e.buf == buf)).length < cap) (hw : w.va.toNat % 4 = 0) :
    ∃ k', [w].foldl (bufferStep buf cap seq) (some k) = some k' ∧ k0.Buffering k' buf cap (n + 1) ∧
      k.LaneBuffered k' buf 1 w.va.toNat (fun _ => w.data) := by
  obtain ⟨k', hk', hbuf, hholds, hothers⟩ := Core.bufferWord_step (seq := seq) w.data h hw (Or.inr hroom)
  refine ⟨k', hk', hbuf.mono (by split <;> omega), ⟨fun p hp => ?_, fun b u hb hne hu => hothers b u hb (by simpa using hne 0) hu⟩⟩
  obtain rfl : p = 0 := by omega
  exact hholds

/-- A lane of two words of one line: the second finds the record of the first. -/
theorem Core.buffer_pair {k : Core} {n : Nat} (w₁ w₂ : StWord) (h : k0.Buffering k buf cap n)
    (hroom : (k.dir.filter (fun e => e.buf == buf)).length < cap) (hw : w₁.va.toNat % 8 = 0) (hw₂ : w₂.va.toNat = w₁.va.toNat + 4) :
    ∃ k', [w₁, w₂].foldl (bufferStep buf cap seq) (some k) = some k' ∧ k0.Buffering k' buf cap (n + 1) ∧
      k.LaneBuffered k' buf 2 w₁.va.toNat (fun p => if p = 0 then w₁.data else w₂.data) := by
  obtain ⟨k₁, hk₁, hbuf₁, hholds₁, hothers₁⟩ := Core.bufferWord_step (seq := seq) (va := w₁.va.toNat) w₁.data h (by omega) (Or.inr hroom)
  have hline : lineOf w₁.va.toNat = lineOf w₂.va.toNat := by
    unfold lineOf
    omega
  have hfound : (k₁.openRec buf 0#32 w₂.va.toNat).isSome = true := by
    obtain ⟨r, howns, -⟩ := hholds₁
    rw [(howns.congr hline).open_]
    rfl
  obtain ⟨k₂, hk₂, hbuf₂, hholds₂, hothers₂⟩ := Core.bufferWord_step (seq := seq) w₂.data hbuf₁ (by omega) (Or.inl hfound)
  rw [hfound, if_pos rfl] at hbuf₂
  refine ⟨k₂, ?_, hbuf₂.mono (by split <;> omega), ⟨fun p hp => ?_, fun b u hb hne hu => ?_⟩⟩
  · simp only [List.foldl_cons, List.foldl_nil, bufferStep, Option.bind_some, hk₁, hk₂]
  · obtain rfl | rfl : p = 0 ∨ p = 1 := by omega
    · exact hothers₂ _ _ (by omega) (by omega) hholds₁
    · rw [← hw₂]
      exact hholds₂
  · have h0 := hne 0 (by omega)
    have h1 := hne 1 (by omega)
    exact hothers₂ b u hb (by omega) (hothers₁ b u hb (by omega) hu)

/-- The lanes of a store in rising order: each word stays but where a higher lane stores to the same place. -/
theorem Core.buffer_lanes {ls : List Nat} (hls : ls.Pairwise (· < ·)) (hparts : 0 < parts) (halign : ∀ l, l ∈ ls → at_ l % (4 * parts) = 0)
    (hlane : ∀ l, l ∈ ls → ∀ k n, k0.Buffering k buf cap n → (k.dir.filter (fun e => e.buf == buf)).length < cap →
      ∃ k', (words l).foldl (bufferStep buf cap seq) (some k) = some k' ∧ k0.Buffering k' buf cap (n + 1) ∧
        k.LaneBuffered k' buf parts (at_ l) (val l))
    (hcap : (k0.dir.filter (fun e => e.buf == buf)).length + 16 ≤ cap) (k : Core) (n : Nat) (h : k0.Buffering k buf cap n)
    (hn : n + ls.length ≤ 16) :
    ∃ k', (ls.flatMap words).foldl (bufferStep buf cap seq) (some k) = some k' ∧ k0.Buffering k' buf cap (n + ls.length) ∧
      (∀ b u, b % 4 = 0 → (∀ l, l ∈ ls → ∀ p, p < parts → b ≠ at_ l + 4 * p) → k.Holds buf b u → k'.Holds buf b u) ∧
      ∀ l, l ∈ ls → (∀ m, m ∈ ls → l < m → at_ m ≠ at_ l) → ∀ p, p < parts → k'.Holds buf (at_ l + 4 * p) (val l p) := by
  induction ls generalizing k n with
  | nil => exact ⟨k, rfl, h, fun b u _ _ hu => hu, nofun⟩
  | cons l ls ih =>
    rw [List.length_cons] at hn
    obtain ⟨hlow, hls⟩ := List.pairwise_cons.mp hls
    obtain ⟨k₁, hk₁, hbuf₁, hhere, hothers⟩ := hlane l List.mem_cons_self k n h (h.room (by omega) hcap)
    obtain ⟨k₂, hk₂, hbuf₂, hkept, hholds⟩ := ih hls (fun m hm => halign m (List.mem_cons_of_mem _ hm))
      (fun m hm => hlane m (List.mem_cons_of_mem _ hm)) k₁ (n + 1) hbuf₁ (by omega)
    have hal := halign l List.mem_cons_self
    have hfour : ∀ l', l' ∈ l :: ls → at_ l' % 4 = 0 := fun l' hl' =>
      Nat.mod_eq_zero_of_dvd (Nat.dvd_trans (Nat.dvd_mul_right 4 parts) (Nat.dvd_of_mod_eq_zero (halign l' hl')))
    refine ⟨k₂, ?_, hbuf₂.mono (by rw [List.length_cons]; omega), fun b u hb hne hu => ?_, fun l' hl' hhigh p hp => ?_⟩
    · rw [List.flatMap_cons, List.foldl_append, hk₁, hk₂]
    · exact hkept b u hb (fun m hm => hne m (List.mem_cons_of_mem _ hm)) (hothers b u hb (hne l List.mem_cons_self) hu)
    · rcases List.mem_cons.mp hl' with rfl | hl'
      · refine hkept _ _ (by have := hfour l' List.mem_cons_self; omega) (fun m hm q hq heq => ?_) (hhere p hp)
        have hne := hhigh m (List.mem_cons_of_mem _ hm) (hlow m hm)
        have hm0 := halign m (List.mem_cons_of_mem _ hm)
        obtain ⟨i, hi⟩ := Nat.dvd_of_mod_eq_zero hal
        obtain ⟨j, hj⟩ := Nat.dvd_of_mod_eq_zero hm0
        refine hne ?_
        rw [hi, hj]
        congr 1
        have hpq : 4 * parts * i + 4 * p = 4 * parts * j + 4 * q := by rw [← hi, ← hj]; exact heq
        have hdi : (4 * parts * i + 4 * p) / (4 * parts) = i := by
          rw [Nat.mul_add_div (by omega), Nat.div_eq_of_lt (by omega), Nat.add_zero]
        have hdj : (4 * parts * j + 4 * q) / (4 * parts) = j := by
          rw [Nat.mul_add_div (by omega), Nat.div_eq_of_lt (by omega), Nat.add_zero]
        rw [← hdi, ← hdj, hpq]
      · exact hholds l' hl' (fun m hm => hhigh m (List.mem_cons_of_mem _ hm)) p hp

end

/-! ### A store whose lanes are mapped -/

theorem pairwise_lanesOf (m : BitVec 16) : (lanesOf m).Pairwise (· < ·) :=
  List.Pairwise.filter _ List.pairwise_lt_range

theorem length_lanesOf_le (m : BitVec 16) : (lanesOf m).length ≤ 16 := by
  refine (List.length_filter_le _ _).trans ?_
  rw [List.length_range]

/-- From d to e only translation caches of core h and home quays changed. -/
structure Dev.Filled (d e : Dev) (h : Nat) : Prop where
  quays : d.CoreAndQuays e h
  core : ∃ p, e.core h = { d.core h with plb := p }

theorem Dev.Filled.refl (d : Dev) (h : Nat) : d.Filled d h := ⟨.refl _ _, _, rfl⟩

theorem Dev.Filled.trans {d e f : Dev} {h : Nat} (x : d.Filled e h) (y : e.Filled f h) : d.Filled f h := by
  obtain ⟨p, hp⟩ := x.core
  obtain ⟨q, hq⟩ := y.core
  exact ⟨x.quays.trans y.quays, q, by rw [hq, hp]⟩

theorem Dev.filled_fillPlb (d : Dev) (m : Memory) (who : Who) (dom : Nat) : d.Filled (d.fillPlb m who dom) who.h := by
  refine ⟨d.coreAndQuays_fillPlb m who dom, ?_⟩
  have hq := d.visit_quaysOnly (d.terrace who.terr).vf false [(d.terrace who.terr).dtBase.toNat + 2 * dom] false
  unfold Dev.fillPlb
  split
  · exact ⟨_, rfl⟩
  · split
    · split
      · next e he =>
        rw [he] at hq
        rw [Dev.core_updCore_self, hq.core]
        exact ⟨_, rfl⟩
      · next e he =>
        rw [he] at hq
        exact ⟨_, hq.core _⟩
    · exact ⟨_, rfl⟩

/-- Lanes that are all mapped translate together, and only fill caches. -/
theorem Ctx.translateLanes_mapped {c : Ctx} {need : List Right} {as : List (Nat × W64)}
    (h : ∀ a, a ∈ as → ∃ pa, c.mapped need a.2 pa) :
    ∃ ls d, c.d.translateLanes c.m (c.s.who c.h) need as = .ok ls d ∧ c.d.Filled d c.h := by
  have hok : ∀ r, r ∈ as.map (fun p => (p.1, p.2, c.d.translate c.m (c.s.who c.h) need p.2)) → ∃ pa lf, r.2.2 = .ok pa lf := by
    intro r hr
    obtain ⟨a, ha, rfl⟩ := List.mem_map.mp hr
    obtain ⟨pa, hpa⟩ := h a ha
    obtain ⟨lf, -, htr⟩ := Ctx.translate_mapped hpa
    exact ⟨pa, lf, htr⟩
  unfold Dev.translateLanes
  generalize as.map (fun p => (p.1, p.2, c.d.translate c.m (c.s.who c.h) need p.2)) = rs at hok
  have hmiss : rs.filter (fun r => r.2.2 == .miss) = [] := by
    refine List.filter_eq_nil_iff.mpr fun r hr => ?_
    obtain ⟨pa, lf, hrr⟩ := hok r hr
    rw [hrr]
    simp
  have hfind : ∀ {β : Type} (f : Nat × W64 × Tr → Option β), (∀ l va pa lf, f (l, va, .ok pa lf) = none) → rs.findSome? f = none := by
    intro β f hf
    refine List.findSome?_eq_none_iff.mpr fun r hr => ?_
    obtain ⟨pa, lf, hrr⟩ := hok r hr
    obtain ⟨l, va, t⟩ := r
    rw [show t = .ok pa lf from hrr]
    exact hf _ _ _ _
  have hpages : ∀ {β : Type} (f : Nat × W64 × Tr → Option β), (∀ l va pa lf, f (l, va, .ok pa lf) = none) → rs.filterMap f = [] := by
    intro β f hf
    refine List.filterMap_eq_nil_iff.mpr fun r hr => ?_
    obtain ⟨pa, lf, hrr⟩ := hok r hr
    obtain ⟨l, va, t⟩ := r
    rw [show t = .ok pa lf from hrr]
    exact hf _ _ _ _
  dsimp only
  rw [hmiss, hfind _ (fun _ _ _ _ => rfl)]
  dsimp only
  rw [hpages _ (fun _ _ _ _ => rfl)]
  exact ⟨_, _, rfl, List.foldlRecOn (motive := fun d : Dev => c.d.Filled d c.h) _ _ (.refl _ _)
    (fun d hd p _ => hd.trans (Dev.filled_fillPlb _ _ _ _))⟩

/-- A store whose lanes are all mapped passes its checks. -/
theorem Ctx.storeLanes_mapped {c : Ctx} {as : List (Nat × W64)} (h : ∀ a, a ∈ as → ∃ pa, c.mapped [.w] a.2 pa) :
    ∃ d, c.storeLanes as = .ok d ∧ c.d.Filled d c.h := by
  have hwin : as.filter (fun a => isWindow a.2) = [] := by
    refine List.filter_eq_nil_iff.mpr fun a ha => ?_
    obtain ⟨pa, -, hw, -⟩ := h a ha
    simp [hw]
  have hrest : as.filter (fun a => !isWindow a.2) = as := by
    refine List.filter_eq_self.mpr fun a ha => ?_
    obtain ⟨pa, -, hw, -⟩ := h a ha
    simp [hw]
  obtain ⟨ls, d, htr, hd⟩ := c.translateLanes_mapped h
  refine ⟨d, ?_, hd⟩
  unfold Ctx.storeLanes
  rw [hwin, hrest]
  dsimp only
  rw [htr]
  rfl

/-- Caches filled move no record of the slot. -/
theorem Ctx.buffer_filled {c : Ctx} {d : Dev} (h : c.d.Filled d c.h) :
    Ctx.buffer { c with d := d } = c.buffer ∧ Ctx.bufferAway { c with d := d } = c.bufferAway := by
  obtain ⟨p, hp⟩ := h.core
  have hlaunch : d.launch? c.s.lk = c.d.launch? c.s.lk := by
    have := (congrArg Dev.launches h.quays.calm :)
    unfold Dev.launch?
    exact congrArg (fun l : AMap Launch => l.find? c.s.lk) this
  have hbuf : Ctx.buffer { c with d := d } = c.buffer := by
    unfold Ctx.buffer Dev.bufferOf
    dsimp only
    rw [hp, hlaunch]
    rfl
  refine ⟨hbuf, ?_⟩
  unfold Ctx.bufferAway
  rw [hbuf]
  dsimp only
  rw [hp]
  rfl

/-- A store of mapped, aligned lanes has its words buffered, and sends nothing. -/
theorem Ctx.store_mapped {c : Ctx} {mask : BitVec 16} {align : Nat} {as : List (Nat × W64)} {ws : List StWord} (hkind : c.s.kind ≠ .ordered)
    (haway : c.bufferAway = false) (halign : ∀ a, a ∈ as → a.2.toNat % align = 0) (has : ∀ a, a ∈ as → ∃ pa, c.mapped [.w] a.2 pa)
    (hws : ∀ w, w ∈ ws → isWindow w.va = false) {post : Dev → Core → Prop}
    (hfold : ∀ p seq, ∃ k', ws.foldl (bufferStep c.buffer.1 c.buffer.2 seq) (some { c.d.core c.h with plb := p }) = some k' ∧
      ∀ d, c.d.Filled d c.h → post ({ d.updCore c.h (fun _ => k') with count := d.count + 1 } : Dev) k') :
    ∃ e k', c.store mask align as ws = .done e ∧ post e k' := by
  obtain ⟨d, hst, hd⟩ := c.storeLanes_mapped has
  obtain ⟨hbuf, haway'⟩ := Ctx.buffer_filled hd
  obtain ⟨p, hp⟩ := hd.core
  obtain ⟨k', hk', hpost⟩ := hfold p d.count
  have hnone : as.find? (fun a => a.2.toNat % align != 0) = none :=
    List.find?_eq_none.mpr fun a ha => by simp [halign a ha]
  have hany : as.any (fun a => isWindow a.2) = false := by
    refine List.any_eq_false.mpr fun a ha => ?_
    obtain ⟨pa, -, hw, -⟩ := has a ha
    simp [hw]
  have hlive : ws.filter (fun w => !isWindow w.va) = ws := List.filter_eq_self.mpr fun w hw => by simp [hws w hw]
  have hwin : ws.filter (fun w => isWindow w.va) = [] := List.filter_eq_nil_iff.mpr fun w hw => by simp [hws w hw]
  have hord : (c.s.kind == .ordered) = false := by simpa using hkind
  have hall : Ctx.bufferAll { c with d := d } d ws = some { d.updCore c.h (fun _ => k') with count := d.count + 1 } := by
    unfold Ctx.bufferAll
    rw [hbuf]
    dsimp only
    simp only [Slot.laneTask, hord, Bool.false_eq_true, if_false]
    rw [hp]
    exact congrArg (Option.map _) hk'
  refine ⟨_, k', ?_, hpost d hd⟩
  unfold Ctx.store
  rw [hnone]
  dsimp only
  rw [hst]
  dsimp only
  rw [hany, haway', haway]
  simp only [Bool.false_eq_true, if_false, hord, hlive, hall, hwin, List.isEmpty_nil, if_true]

/-- What O19 says of a word that stands in an open record. -/
theorem Core.Holds.record {k : Core} {buf a : Nat} {v : W32} (h : k.Holds buf a v) : ∃ r, r ∈ k.dir ∧ r.buf = buf ∧ r.va = lineOf a ∧
    r.gid = none ∧ r.task = 0#32 ∧ Line.w32 (k.recLine r.at) (a % 128) = v ∧ ∀ i, i < 4 → (k.recMask r.at).getLsbD (a % 128 + i) = true := by
  obtain ⟨r, howns, hw, hm⟩ := h
  obtain ⟨hmem, hbuf, htask, hgid, hva⟩ := Core.openRec_spec howns.open_
  exact ⟨r, hmem, hbuf, hva, hgid, htask, hw, hm⟩

/-- What a store leaves: words buffered in open records, the highest lane's where two store to one place. -/
structure Ctx.Stores (c : Ctx) (e : Dev) (parts : Nat) (ls : List Nat) (at_ : Nat → W64) (val : Nat → Nat → W32) : Prop where
  only : OnlyCoreAndQuays c.d e c.h
  words : ∀ a, (a + 4 ≤ c.buffer.1 ∨ c.buffer.1 + 256 * c.buffer.2 ≤ a) → (e.core c.h).word a = (c.d.core c.h).word a
  held : ∀ l, l ∈ ls → (∀ m, m ∈ ls → l < m → at_ m ≠ at_ l) → ∀ p, p < parts → (e.core c.h).Holds c.buffer.1 ((at_ l).toNat + 4 * p) (val l p)

/-- The words of a core and its records are no part of its slots. -/
theorem Core.Holds.of_bare {k k' : Core} (h : k'.bare = k.bare) {buf a : Nat} {v : W32} (hk : k.Holds buf a v) : k'.Holds buf a v := by
  obtain ⟨r, ⟨hopen, halone⟩, hw, hm⟩ := hk
  have hdir : k'.dir = k.dir := (congrArg Core.dir h :)
  have hline : k'.recLine r.at = k.recLine r.at := (congrArg (fun k => Core.recLine k r.at) h :)
  have hmask : k'.recMask r.at = k.recMask r.at := (congrArg (fun k => Core.recMask k r.at) h :)
  exact ⟨r, ⟨by rw [← hopen, Core.openRec, Core.openRec, hdir], fun x hx => halone x (hdir ▸ hx)⟩, by rw [hline]; exact hw,
    fun i hi => by rw [hmask]; exact hm i hi⟩

/-- Where a store's lanes are aligned and mapped, and its buffer has room for all of them. -/
structure Ctx.CanStore (c : Ctx) (km : KReg) (x : VReg) (base : AReg) (off : BitVec 24) (step : Nat) : Prop where
  kind : c.s.kind ≠ .ordered
  here : c.bufferAway = false
  lanes : ∀ l, l < 16 → (c.s.K km.toNat).getLsbD l = true → (c.s.addr base x off step l).toNat % step = 0 ∧
    ∃ pa, c.mapped [.w] (c.s.addr base x off step l) pa
  room : ((c.d.core c.h).dir.filter (fun e => e.buf == c.buffer.1)).length + 16 ≤ c.buffer.2
  low : ∀ e, e ∈ (c.d.core c.h).dir → e.buf = c.buffer.1 → e.rec_ < c.buffer.2

/-- A store of mapped lanes buffers its words. -/
theorem store_acts {i : Instr} {u : Use} (parts : Nat) (hparts : 0 < parts) (km : KReg) (x : VReg)
    (base : AReg) (off : BitVec 24) (words : Ctx → Nat → List StWord) (val : Ctx → Nat → Nat → W32)
    (he : ∀ s, exec i s = thread u (fun c => c.store (c.s.K km.toNat) (4 * parts) (c.s.lanesAt km x base off (4 * parts))
      ((lanesOf (c.s.K km.toNat)).flatMap (words c))) s)
    (hwords : ∀ c l, (c.s.addr base x off (4 * parts) l).toNat % (4 * parts) = 0 → isWindow (c.s.addr base x off (4 * parts) l) = false →
      (∀ w, w ∈ words c l → isWindow w.va = false) ∧
      ∀ (k0 k : Core) (cap seq n buf : Nat), k0.Buffering k buf cap n → (k.dir.filter (fun e => e.buf == buf)).length < cap →
        ∃ k', (words c l).foldl (bufferStep buf cap seq) (some k) = some k' ∧ k0.Buffering k' buf cap (n + 1) ∧
          k.LaneBuffered k' buf parts (c.s.addr base x off (4 * parts) l).toNat (val c l)) :
    Acts i u (fun c => c.CanStore km x base off (4 * parts)) [] [] [] (fun c e => c.Stores e parts (lanesOf (c.s.K km.toNat)) (c.s.addr base x off (4 * parts)) (val c)) := by
  refine acts_of he (fun c hc h => ?_)
  obtain ⟨hord, haway, hlanes, hcap, hlow⟩ := h
  have hlanes' : ∀ l, l ∈ lanesOf (c.s.K km.toNat) → (c.s.addr base x off (4 * parts) l).toNat % (4 * parts) = 0 ∧
      ∃ pa, c.mapped [.w] (c.s.addr base x off (4 * parts) l) pa := fun l hl => hlanes l (mem_lanesOf.mp hl).1 (mem_lanesOf.mp hl).2
  have hwin : ∀ l, l ∈ lanesOf (c.s.K km.toNat) → isWindow (c.s.addr base x off (4 * parts) l) = false := by
    intro l hl
    obtain ⟨pa, -, hw, -⟩ := (hlanes' l hl).2
    exact hw
  have has : ∀ a, a ∈ c.s.lanesAt km x base off (4 * parts) → ∃ l, l ∈ lanesOf (c.s.K km.toNat) ∧ c.s.addr base x off (4 * parts) l = a.2 := by
    intro a ha
    obtain ⟨l, hl, rfl⟩ := List.mem_map.mp ha
    exact ⟨l, hl, rfl⟩
  obtain ⟨e, k', hst, hfill, hbuffering, hholds⟩ := c.store_mapped (mask := c.s.K km.toNat) (align := 4 * parts)
    (as := c.s.lanesAt km x base off (4 * parts)) (ws := (lanesOf (c.s.K km.toNat)).flatMap (words c)) hord haway
    (fun a ha => by obtain ⟨l, hl, hla⟩ := has a ha; rw [← hla]; exact (hlanes' l hl).1)
    (fun a ha => by obtain ⟨l, hl, hla⟩ := has a ha; rw [← hla]; exact (hlanes' l hl).2)
    (fun w hw => by
      obtain ⟨l, hl, hwl⟩ := List.mem_flatMap.mp hw
      exact (hwords c l (hlanes' l hl).1 (hwin l hl)).1 w hwl)
    (post := fun e k' => (∃ d, c.d.Filled d c.h ∧ e = ({ d.updCore c.h (fun _ => k') with count := d.count + 1 } : Dev)) ∧
      (c.d.core c.h).Buffering k' c.buffer.1 c.buffer.2 (0 + (lanesOf (c.s.K km.toNat)).length) ∧
      ∀ l, l ∈ lanesOf (c.s.K km.toNat) → (∀ m, m ∈ lanesOf (c.s.K km.toNat) → l < m →
        (c.s.addr base x off (4 * parts) m).toNat ≠ (c.s.addr base x off (4 * parts) l).toNat) → ∀ p, p < parts →
          k'.Holds c.buffer.1 ((c.s.addr base x off (4 * parts) l).toNat + 4 * p) (val c l p))
    (fun p seq => by
      obtain ⟨k', hk', hb, -, hh⟩ := Core.buffer_lanes (k0 := c.d.core c.h) (seq := seq) (words := words c) (val := val c)
        (at_ := fun l => (c.s.addr base x off (4 * parts) l).toNat) (pairwise_lanesOf (c.s.K km.toNat)) hparts (fun l hl => (hlanes' l hl).1)
        (fun l hl k n => (hwords c l (hlanes' l hl).1 (hwin l hl)).2 (c.d.core c.h) k c.buffer.2 seq n c.buffer.1) hcap { c.d.core c.h with plb := p } 0
        ⟨hlow, by simp, fun _ _ => rfl, fun _ => rfl⟩ (by have := length_lanesOf_le (c.s.K km.toNat); omega)
      exact ⟨k', hk', fun d hd => ⟨⟨d, hd, rfl⟩, hb, hh⟩⟩)
  obtain ⟨d, hd, rfl⟩ := hfill
  have hslot : (({ d.updCore c.h (fun _ => k') with count := d.count + 1 } : Dev)).slot c.h c.n = c.s := by
    have h1 : ((d.updCore c.h (fun _ => k')).core c.h).slot c.n = (c.d.core c.h).slot c.n := by
      rw [Dev.core_updCore_self]
      exact hbuffering.slots _
    exact h1.trans hc.own
  have hcore : ((c.finish u ({ d.updCore c.h (fun _ => k') with count := d.count + 1 } : Dev) (c.s.pc + 8#64)).core c.h).bare = k'.bare := by
    rw [Ctx.finish_core_bare _ _ _ _ hc.step]
    exact congrArg Core.bare (Dev.core_updCore_self d c.h (fun _ => k'))
  refine ⟨_, hst, ?_, ⟨fun j hj => ?_, ?_⟩, fun a ha => ?_, fun l hl hhigh p hp => ?_⟩
  · rw [hslot]
    exact .refl _
  · rw [Ctx.finish_core_ne _ _ _ _ hc.step j hj, ← hd.quays.cores j hj]
    exact Dev.core_updCore_ne _ _ _ _ hj
  · rw [Ctx.finish_calm, ← hd.quays.calm]
    rfl
  · rw [← hbuffering.words a ha]
    exact (congrArg (fun k => Core.word k a) hcore :)
  · exact (hholds l hl (fun m hm hlt heq => hhigh m hm hlt (BitVec.eq_of_toNat_eq heq)) p hp).of_bare hcore

theorem toNat_add_part {va : W64} {step p : Nat} (h : va.toNat % step = 0) (hstep : step ∣ 2 ^ 64) (hp : 4 * p < step) :
    (va + BitVec.ofNat 64 (4 * p)).toNat = va.toNat + 4 * p := by
  obtain ⟨i, hi⟩ := Nat.dvd_of_mod_eq_zero h
  obtain ⟨j, hj⟩ := hstep
  have hlt := va.isLt
  have hij : i < j := by
    rw [hi, hj] at hlt
    exact Nat.lt_of_mul_lt_mul_left hlt
  have hle : step * i + step ≤ step * j := by
    rw [← Nat.mul_succ]
    exact Nat.mul_le_mul_left step hij
  rw [BitVec.toNat_add, BitVec.toNat_ofNat]
  omega

/-- An aligned address and the word after it are in the window together. -/
theorem isWindow_add_four {va : W64} (h : va.toNat % 8 = 0) : isWindow (va + 4#64) = isWindow va := by
  have hfour : (va + 4#64).toNat = va.toNat + 4 := toNat_add_part (p := 1) h (by decide) (by decide)
  have hext : ∀ s n, 3 ≤ s → (va + 4#64).extractLsb' s n = va.extractLsb' s n := by
    intro s n hs
    refine BitVec.eq_of_toNat_eq ?_
    rw [BitVec.extractLsb'_toNat, BitVec.extractLsb'_toNat, hfour, Nat.shiftRight_eq_div_pow, Nat.shiftRight_eq_div_pow]
    obtain ⟨t, rfl⟩ := Nat.exists_eq_add_of_le hs
    rw [Nat.pow_add, ← Nat.div_div_eq_div_mul, ← Nat.div_div_eq_div_mul, show (va.toNat + 4) / 2 ^ 3 = va.toNat / 2 ^ 3 by omega]
  rw [isWindow, isWindow, hext 48 9 (by decide), hext 57 7 (by decide)]

theorem flatMap_one {α β : Type} (f : α → β) (l : List α) : l.flatMap (fun x => [f x]) = l.map f := List.flatMap_pure_eq_map f l

/-- gst buffers one word a lane. -/
theorem gst_acts (km : KReg) (d x : VReg) (base : AReg) (off : BitVec 24) :
    Acts (.gst km d x base off) (useStore km d x base) (fun c => c.CanStore km x base off 4) [] [] []
      (fun c e => c.Stores e 1 (lanesOf (c.s.K km.toNat)) (c.s.addr base x off 4) (fun l p => lane (c.s.V (d.toNat + p)) l)) := by
  refine store_acts 1 (by decide) km x base off (fun c l => [⟨l, c.s.addr base x off 4 l, lane (c.s.V d.toNat) l⟩]) _ (fun s => ?_)
    (fun c l hal hwin => ⟨by simpa using hwin, fun k0 k cap seq n buf hk hroom => ?_⟩)
  · unfold exec execGst
    simp only [Slot.lanesAt, List.map_map, flatMap_one]
    rfl
  · obtain ⟨k', hk', hb, hhere, hothers⟩ := Core.buffer_word (seq := seq) ⟨l, c.s.addr base x off 4 l, lane (c.s.V d.toNat) l⟩ hk hroom hal
    refine ⟨k', hk', hb, fun p hp => ?_, hothers⟩
    obtain rfl : p = 0 := by omega
    exact hhere 0 hp

/-- gstx buffers two. -/
theorem gstx_acts (km : KReg) (d x : VReg) (base : AReg) (off : BitVec 24) :
    Acts (.gstx km d x base off) ((useStore km d x base).also (rvn (d.toNat + 1))) (fun c => c.CanStore km x base off 8) [] [] []
      (fun c e => c.Stores e 2 (lanesOf (c.s.K km.toNat)) (c.s.addr base x off 8) (fun l p => lane (c.s.V (d.toNat + p)) l)) := by
  refine store_acts 2 (by decide) km x base off (fun c l => [⟨l, c.s.addr base x off 8 l, lane (c.s.V d.toNat) l⟩,
    ⟨l, c.s.addr base x off 8 l + 4#64, lane (c.s.V (d.toNat + 1)) l⟩]) _ (fun s => ?_)
    (fun c l hal hwin => ⟨fun w hw => ?_, fun k0 k cap seq n buf hk hroom => ?_⟩)
  · unfold exec execGstx
    simp only [Slot.lanesAt, List.flatMap_map]
  · rcases List.mem_cons.mp hw with rfl | hw
    · exact hwin
    · rw [List.mem_singleton.mp hw]
      exact (isWindow_add_four hal).trans hwin
  · obtain ⟨k', hk', hb, hhere, hothers⟩ := Core.buffer_pair (seq := seq) ⟨l, c.s.addr base x off 8 l, lane (c.s.V d.toNat) l⟩
      ⟨l, c.s.addr base x off 8 l + 4#64, lane (c.s.V (d.toNat + 1)) l⟩ hk hroom hal (toNat_add_part (p := 1) hal (by decide) (by decide))
    refine ⟨k', hk', hb, fun p hp => ?_, hothers⟩
    obtain rfl | rfl : p = 0 ∨ p = 1 := by omega
    · exact hhere 0 hp
    · exact hhere 1 hp

/-- What a store leaves, as O19 says it. -/
theorem Ctx.Stores.record {c : Ctx} {e : Dev} {parts step : Nat} {km : KReg} {d x : VReg} {base : AReg} {off : BitVec 24}
    (h : c.Stores e parts (lanesOf (c.s.K km.toNat)) (c.s.addr base x off step) (fun l p => lane (c.s.V (d.toNat + p)) l))
    (hc : c.CanStore km x base off step) (hstep : step = 4 * parts) (hdvd : step ∣ 2 ^ 64) {l : Nat} (hl : l < 16) (hk : (c.s.K km.toNat).getLsbD l = true)
    (hhigh : ∀ m, (m < 16 ∧ (c.s.K km.toNat).getLsbD m = true) → l < m → c.s.addr base x off step m ≠ c.s.addr base x off step l) {p : Nat} (hp : p < parts) :
    ∃ r, r ∈ (e.core c.h).dir ∧ r.buf = c.buffer.1 ∧ r.va = lineOf (c.s.addr base x off step l + BitVec.ofNat 64 (4 * p)).toNat ∧
      r.gid = none ∧ r.task = 0#32 ∧
      Line.w32 ((e.core c.h).recLine r.at) ((c.s.addr base x off step l + BitVec.ofNat 64 (4 * p)).toNat % 128) = lane (c.s.V (d.toNat + p)) l ∧
      ∀ i, i < 4 → ((e.core c.h).recMask r.at).getLsbD ((c.s.addr base x off step l + BitVec.ofNat 64 (4 * p)).toNat % 128 + i) = true := by
  rw [toNat_add_part (hc.lanes l hl hk).1 hdvd (by omega)]
  exact (h.held l (mem_lanesOf.mpr ⟨hl, hk⟩) (fun m hm => hhigh m (mem_lanesOf.mp hm)) p hp).record

/-- Settles O19. -/
theorem globalStoresAreBuffered : Obligations.GlobalStoresAreBuffered := by
  intro km d x base off
  refine ⟨?gst, ?gstx⟩
  case gst =>
    intro s h n w hi ⟨hkind, haway, hlanes, hroom, hlow⟩
    have hcan : (s.ctx h n w).CanStore km x base off 4 := ⟨hkind, haway, fun l hl hk => hlanes l ⟨hl, hk⟩, hroom, hlow⟩
    obtain ⟨t, ht, hm, hpc, ha, hv, hk, hpost⟩ := gst_acts km d x base off s h n w hi hcan
    exact ⟨t, ht, hm, hpc, ha, hv, hk, hpost.only, hpost.words, fun l hl hhigh p hp => hpost.record hcan rfl (by decide) hl.1 hl.2 hhigh hp⟩
  case gstx =>
    intro s h n w hi ⟨hkind, haway, hlanes, hroom, hlow⟩
    have hcan : (s.ctx h n w).CanStore km x base off 8 := ⟨hkind, haway, fun l hl hk => hlanes l ⟨hl, hk⟩, hroom, hlow⟩
    obtain ⟨t, ht, hm, hpc, ha, hv, hk, hpost⟩ := gstx_acts km d x base off s h n w hi hcan
    exact ⟨t, ht, hm, hpc, ha, hv, hk, hpost.only, hpost.words, fun l hl hhigh p hp => hpost.record hcan rfl (by decide) hl.1 hl.2 hhigh hp⟩

end Sys2Proof.Machine
end

section
/-! PROOFS. Groups, leases and atomics at their homes (R142, R150 to R157). -/

namespace Sys2Proof.Machine

/-! ### Bytes written (R142) -/

/-- Bytes written at different addresses are read back. -/
theorem Memory.read_writeAll_mem (m : Memory) {cs : List Host.Cell} (hcs : (cs.map Prod.fst).Nodup) {a : Nat} {b : Byte} (h : (a, b) ∈ cs) :
    (m.writeAll cs).read a = b := by
  induction cs generalizing m with
  | nil => cases h
  | cons c cs ih =>
    obtain ⟨hc, hcs⟩ := List.nodup_cons.mp hcs
    rcases List.mem_cons.mp h with rfl | h
    · refine (Memory.read_writeAll_ne _ cs a fun x hx hxa => ?_).trans (Memory.read_write_self m a b)
      exact hc (List.mem_map.mpr ⟨x, hx, hxa⟩)
    · exact ih (m.write c) hcs h

/-- The bytes of a line that its mask names are written, and no other. -/
theorem Memory.read_writeAll_masked (m : Memory) (pa : Nat) (l : Line) (k : LineMask) (a : Nat) :
    (m.writeAll (maskedCells pa l k)).read a =
      if pa ≤ a ∧ a < pa + 128 ∧ k.getLsbD (a - pa) = true then Line.byte l (a - pa) else m.read a := by
  split
  · next h =>
    obtain ⟨hle, hlt, hk⟩ := h
    refine Memory.read_writeAll_mem m ?_ (List.mem_map.mpr ⟨a - pa, List.mem_filter.mpr ⟨List.mem_range.mpr (by omega), hk⟩, ?_⟩)
    · rw [maskedCells, List.map_map]
      refine (List.Nodup.map (fun x y hxy => ?_) (List.Nodup.filter _ List.nodup_range))
      simpa using hxy
    · rw [Nat.add_sub_cancel' hle]
  · next h =>
    refine Memory.read_writeAll_ne m _ a fun c hc hca => h ?_
    obtain ⟨i, hi, rfl⟩ := List.mem_map.mp hc
    obtain ⟨hi, hk⟩ := List.mem_filter.mp hi
    have hlt := List.mem_range.mp hi
    obtain rfl : pa + i = a := hca
    exact ⟨by omega, by omega, by rwa [Nat.add_sub_cancel_left]⟩

/-- Lines of different addresses written at their home by a function that keeps no log. -/
theorem read_writeLines {f : Nat} {ls : List GLine} (hal : ∀ l, l ∈ ls → l.pa % 128 = 0) (hnodup : (ls.map (·.pa)).Nodup) (m : Memory) {d : Dev}
    (hlog : (d.func f).logOn = false) (a : Nat) :
    (writeLines f ls m d).1.read a = match ls.find? (fun l => l.pa == lineOf a && l.mask.getLsbD (a % 128)) with
      | some l => Line.byte l.data (a % 128)
      | none => m.read a := by
  induction ls generalizing m d with
  | nil => rfl
  | cons l ls ih =>
    obtain ⟨hne, hnodup⟩ := List.nodup_cons.mp hnodup
    have hcells : d.logCells m f l.pa = [] := by
      unfold Dev.logCells
      simp only [hlog, Bool.false_eq_true, if_false]
    have hmem : (writeLine m d f l.pa l.data l.mask).1 = m.writeAll (maskedCells l.pa l.data l.mask) := by
      unfold writeLine
      rw [hcells]
      rfl
    have hfunc : ((writeLine m d f l.pa l.data l.mask).2.func f).logOn = false := by
      rw [← hlog]
      unfold writeLine
      dsimp only
      split <;> rfl
    have hl0 := hal l List.mem_cons_self
    rw [writeLines, ih (fun x hx => hal x (List.mem_cons_of_mem _ hx)) hnodup _ hfunc, hmem, Memory.read_writeAll_masked, List.find?_cons]
    have hhere : (l.pa ≤ a ∧ a < l.pa + 128 ∧ l.mask.getLsbD (a - l.pa) = true) ↔
        (l.pa == lineOf a && l.mask.getLsbD (a % 128)) = true := by
      rw [Bool.and_eq_true, beq_iff_eq, lineOf]
      constructor
      · rintro ⟨h1, h2, h3⟩
        exact ⟨by omega, by rwa [show a - l.pa = a % 128 by omega] at h3⟩
      · rintro ⟨h1, h2⟩
        exact ⟨by omega, by omega, by rwa [show a - l.pa = a % 128 by omega]⟩
    by_cases hp : (l.pa == lineOf a && l.mask.getLsbD (a % 128)) = true
    · have hla : l.pa = lineOf a := beq_iff_eq.mp (Bool.and_eq_true_iff.mp hp).1
      have hnone : ls.find? (fun l => l.pa == lineOf a && l.mask.getLsbD (a % 128)) = none := by
        refine List.find?_eq_none.mpr fun x hx hxa => hne ?_
        have hxpa : x.pa = lineOf a := beq_iff_eq.mp (Bool.and_eq_true_iff.mp hxa).1
        exact List.mem_map.mpr ⟨x, hx, hxpa.trans hla.symm⟩
      rw [hnone, hp, if_pos (hhere.mpr hp)]
      dsimp only
      rw [hla, show a - lineOf a = a % 128 by unfold lineOf; omega]
    · rw [if_neg (fun h => hp (hhere.mp h)), Bool.eq_false_iff.mpr hp]

/-! ### The two phases of a group (R142) -/

section
variable {d : Dev} {g q : Nat} {x : Grp}

theorem Dev.home_updHome_self (d : Dev) (q : Nat) (f : Home → Home) : (d.updHome q f).home q = f (d.home q) := by
  simp [Dev.home, Dev.updHome, AMap.upd]

theorem Dev.find?_updGroup (hx : d.groups.find? (fun y => y.id == g) = some x) (f : Grp → Grp) (hf : ∀ y, (f y).id = y.id) :
    (d.updGroup g f).groups.find? (fun y => y.id == g) = some (f x) := by
  have hid : (x.id == g) = true := List.find?_some (p := fun y : Grp => y.id == g) hx
  unfold Dev.updGroup
  dsimp only
  rw [List.find?_map, show (fun y : Grp => y.id == g) ∘ (fun y => if y.id == g then f y else y) = fun y => y.id == g from ?_, hx, Option.map_some,
    if_pos hid]
  funext y
  rw [Function.comp]
  split
  · rw [hf]
  · rfl

/-- Phase one at a home where nothing is in its way. -/
theorem Dev.phaseOne_free (hx : d.groups.find? (fun y => y.id == g) = some x)
    (hls : ∀ l, l ∈ x.at q → d.pending l.pa = false ∧ d.hostLines.contains l.pa = false) (hq : d.queuedAhead q g (x.at q) = false) :
    d.phaseOne g q = (d.updHome q (fun y => { y with
      wait := y.wait.filter (· != g), pend := y.pend ++ (x.at q).map (fun l => (l.pa, g)) })).send 0 (.phaseOneAck g q) := by
  have hpend : (x.at q).any (fun l => d.pending l.pa) = false := List.any_eq_false.mpr fun l hl => by simp [(hls l hl).1]
  have hhost : (x.at q).filter (fun l => d.hostLines.contains l.pa) = [] := List.filter_eq_nil_iff.mpr fun l hl => by simp only [(hls l hl).2, Bool.false_eq_true, not_false_eq_true]
  unfold Dev.phaseOne
  rw [hx]
  dsimp only
  rw [hpend, hq, hhost]
  rfl

theorem groupPhaseOne_event : Event (.groupPhaseOne g q)
    (fun _ d => d.groups.find? (fun y => y.id == g) = some x ∧ (∀ l, l ∈ x.at q → d.pending l.pa = false ∧ d.hostLines.contains l.pa = false) ∧
      d.queuedAhead q g (x.at q) = false)
    (fun _ d e => (e.home q).pend = (d.home q).pend ++ (x.at q).map (fun l => (l.pa, g)) ∧ d.sends e (.phaseOneAck g q) ∧
      ∀ h n, e.slot h n = d.slot h n) := by
  intro s ⟨hx, hls, hq⟩
  refine ⟨_, rfl, fun _ => rfl, ?_⟩
  have heq := Dev.phaseOne_free hx hls hq
  dsimp only
  rw [heq]
  refine ⟨?_, Dev.sends_send (s.dev.updHome q _) 0 _, fun _ _ => rfl⟩
  exact congrArg Home.pend (Dev.home_updHome_self _ _ _)

/-- A home's acknowledgement, as the group stands after it. -/
theorem Dev.ackPhase_eq (m : Memory) (hx : d.groups.find? (fun y => y.id == g) = some x) :
    (d.updGroup g (fun y => { y with homes := y.homes.filter (· != q) })).groups.find? (fun y => y.id == g) =
      some { x with homes := x.homes.filter (· != q) } :=
  Dev.find?_updGroup hx _ (fun _ => rfl)

theorem phaseOneAck_next (q' : Nat) (rest : List Nat) : Event (.phaseOneAck g q)
    (fun _ d => d.groups.find? (fun y => y.id == g) = some x ∧ x.homes = q :: q' :: rest ∧ q' ≠ q)
    (fun _ d e => d.sends e (.groupPhaseOne g q') ∧ d.sameSlots e) := by
  intro s ⟨hx, hhomes, hne⟩
  refine ⟨_, rfl, fun _ => rfl, ?_⟩
  have hfound := Dev.ackPhase_eq (q := q) s.mem hx
  have hleft : x.homes.filter (· != q) = q' :: rest.filter (· != q) := by simp [hhomes, hne]
  dsimp only
  unfold Dev.ackPhase Dev.advance
  rw [hfound]
  dsimp only
  rw [hleft]
  exact ⟨Dev.sends_send _ 0 _, fun _ _ => rfl⟩

/-- Messages sent one after another on channels of their own all arrive later. -/
theorem Dev.coming_foldl_send_on {α : Type} (ev : α → Ev) (ch : α → Nat) (qs : List α) (d : Dev) {clock : Nat} (hclock : d.clock = clock) :
    (∀ p, p ∈ qs → (qs.foldl (fun d p => d.send (ch p) (ev p)) d).coming clock (ev p)) ∧
      ∀ f, f ∈ d.net → f ∈ (qs.foldl (fun d p => d.send (ch p) (ev p)) d).net := by
  induction qs generalizing d with
  | nil => exact ⟨nofun, fun f hf => hf⟩
  | cons p ps ih =>
    obtain ⟨hcoming, hkept⟩ := ih (d.send (ch p) (ev p)) hclock
    obtain ⟨due, chan, hdue, hnet⟩ := d.sends_send (ch p) (ev p)
    refine ⟨fun p' hp' => ?_, fun f hf => hkept f ?_⟩
    · rcases List.mem_cons.mp hp' with rfl | hp'
      · exact ⟨_, hkept ⟨due, chan, ev p'⟩ (by rw [hnet]; exact List.mem_append_right _ List.mem_cons_self), rfl, hclock ▸ hdue⟩
      · exact hcoming p' hp'
    · rw [hnet]
      exact List.mem_append_left _ hf

theorem Dev.groups_foldl_send {α : Type} (ev : α → Ev) (qs : List α) (d : Dev) : (qs.foldl (fun d p => d.send 0 (ev p)) d).groups = d.groups :=
  List.foldlRecOn (motive := fun e : Dev => e.groups = d.groups) _ _ rfl (fun _ h _ _ => h)

theorem phaseOneAck_last : Event (.phaseOneAck g q)
    (fun _ d => d.groups.find? (fun y => y.id == g) = some x ∧ x.homes = [q] ∧ x.lines ≠ [])
    (fun _ d e => (∀ p, p ∈ homesOf x.lines → e.coming d.clock (.groupRelease g p)) ∧
      ∃ y, y ∈ e.groups ∧ y.id = g ∧ y.phase = .two ∧ y.rel = homesOf x.lines) := by
  intro s ⟨hx, hhomes, hlines⟩
  refine ⟨_, rfl, fun _ => rfl, ?_⟩
  have hfound := Dev.ackPhase_eq (q := q) s.mem hx
  have hid : x.id = g := by simpa using List.find?_some (p := fun y : Grp => y.id == g) hx
  have hleft : x.homes.filter (· != q) = [] := by simp [hhomes]
  have hall : (homesOf x.lines).isEmpty = false := Bool.eq_false_iff.mpr fun h => hlines (homesOf_eq_nil h)
  dsimp only
  unfold Dev.ackPhase Dev.advance
  rw [hfound]
  dsimp only
  rw [hleft]
  dsimp only
  rw [hall]
  simp only [Bool.false_eq_true, if_false]
  refine ⟨(Dev.coming_foldl_send_on (fun p => .groupRelease g p) (fun _ => 0) _ _ rfl).1, ?_⟩
  rw [Dev.groups_foldl_send (fun p => .groupRelease g p)]
  exact ⟨_, List.mem_of_find?_eq_some (Dev.find?_updGroup hfound (fun y => { y with phase := .two, rel := homesOf x.lines }) (fun _ => rfl)),
    hid, rfl, rfl⟩

/-- A group of plain stores is written as it stands. -/
theorem Dev.groupTest_plain (m : Memory) (d : Dev) (ls : List GLine) (hfin : ∀ f, f ∈ x.fin → (∃ h n, f = .slot h n) ∨ f = .nothing) :
    d.groupTest m x ls = (true, d) := by
  unfold Dev.groupTest
  cases hf : x.fin with
  | nil => rfl
  | cons f r =>
    rcases hfin f (hf ▸ List.mem_cons_self) with ⟨h, n, rfl⟩ | rfl
    · rfl
    · rfl

theorem groupRelease_writes (s : State) (hx : s.dev.groups.find? (fun y => y.id == g) = some x) (hphase : x.phase = .two)
    (hrel : x.rel.contains q = true) (hfin : ∀ f, f ∈ x.fin → (∃ h n, f = .slot h n) ∨ f = .nothing)
    (hls : ∀ l, l ∈ x.at q → l.pa % 128 = 0 ∧ isDoorbell l.pa = false) (hnodup : ((x.at q).map (·.pa)).Nodup)
    (hvisit : (s.dev.visit x.fn true ((x.at q).map (·.pa))).2 = true) (hlog : (s.dev.func x.fn).logOn = false) :
    (releaseAt s.mem s.dev g q).1 = (writeLines x.fn (x.at q) s.mem (s.dev.visit x.fn true ((x.at q).map (·.pa))).1).1 := by
  have hlines : (x.at q).filter (fun l => !isDoorbell l.pa) = x.at q := List.filter_eq_self.mpr fun l hl => by simp [(hls l hl).2]
  have hgo : (x.phase != .two || !x.rel.contains q) = false := by rw [hphase, hrel]; rfl
  unfold releaseAt
  rw [hx]
  dsimp only
  rw [hgo]
  simp only [Bool.false_eq_true, if_false]
  generalize s.dev.visit x.fn true ((x.at q).map (·.pa)) = v at hvisit
  obtain ⟨d, b⟩ := v
  obtain rfl : b = true := hvisit
  dsimp only
  rw [Dev.groupTest_plain _ _ _ hfin]
  simp only [if_true, hlines]

end

/-- Settles O20. -/
theorem groupRelease : Obligations.GroupRelease := by
  refine ⟨fun g q x => ⟨groupPhaseOne_event, phaseOneAck_next, phaseOneAck_last⟩, ?_⟩
  intro s g q x hx hphase hrel hfin hls hnodup hvisit hlog
  refine ⟨_, rfl, fun a => ?_⟩
  have hquays := s.dev.visit_quaysOnly x.fn true ((x.at q).map (·.pa)) false
  have hlog' : (((s.dev.visit x.fn true ((x.at q).map (·.pa))).1.func x.fn).logOn = false) := by
    refine Eq.trans ?_ hlog
    exact congrArg (fun l : AMap Func => (l.get .init x.fn).logOn) (congrArg Dev.funcs hquays.calm :)
  refine (congrArg (fun m : Memory => m.read a) (groupRelease_writes s hx hphase hrel hfin hls hnodup hvisit hlog)).trans ?_
  exact read_writeLines (fun l hl => (hls l hl).1) hnodup _ hlog' a

/-! ### What a quay answers (R330, R331) -/

/-- A quay's answer depends on the lines of its set, the functions and what is pinned. -/
theorem Dev.quay_isSome_of {d e : Dev} (hset : e.qsets = d.qsets) (hfunc : e.funcs = d.funcs) (hpin : ∀ q, e.pinned q = d.pinned q) (f pa : Nat)
    (write : Bool) : (e.quay f pa write).isSome = (d.quay f pa write).isSome := by
  have hlines : ∀ key, e.quayLines key = d.quayLines key := fun key => by
    unfold Dev.quayLines
    rw [hset]
    simp only [hpin]
  have hfill : ∀ pa mask, e.fillWay pa mask = d.fillWay pa mask := fun pa mask => by
    unfold Dev.fillWay
    simp only [hlines, hpin]
  have hf : ∀ g, e.func g = d.func g := fun g => by
    unfold Dev.func
    rw [hfunc]
  have hmews : ∀ pa, e.mewsOf pa = d.mewsOf pa := fun pa => by
    unfold Dev.mewsOf
    simp only [hf]
  unfold Dev.quay
  dsimp only
  rw [hlines, hmews]
  simp only [hf, hfill]
  split
  · rfl
  · split
    · rfl
    · split
      · rfl
      · cases d.fillWay (lineOf pa) (match d.mewsOf (lineOf pa) with | some m => (d.func m).mways | none => (d.func f).wmask) with
        | none => rfl
        | some w => rfl

theorem Dev.home_updHome (d : Dev) (q : Nat) (f : Home → Home) (p : Nat) :
    (d.updHome q f).home p = if p = q then f (d.home q) else d.home p := by
  unfold Dev.home Dev.updHome AMap.upd
  dsimp only
  split
  · next h =>
    subst h
    exact AMap.get_put_self _ _ _ _
  · next h => exact AMap.get_put_ne _ _ _ _ _ h

/-- A home whose requests alone change pins the same lines. -/
theorem Dev.pinned_updHome {f : Home → Home} (hh : ∀ x, (f x).holders = x.holders) (hp : ∀ x, (f x).pend = x.pend) (d : Dev) (q : Nat)
    (l : QLine) : (d.updHome q f).pinned l = d.pinned l ∧ ∀ pa, (d.updHome q f).pending pa = d.pending pa := by
  have hholders : ∀ p, ((d.updHome q f).home p).holders = (d.home p).holders := fun p => by
    rw [Dev.home_updHome]
    split
    · next h => rw [hh, h]
    · rfl
  have hpend : ∀ p, ((d.updHome q f).home p).pend = (d.home p).pend := fun p => by
    rw [Dev.home_updHome]
    split
    · next h => rw [hp, h]
    · rfl
  refine ⟨?_, fun pa => ?_⟩
  · unfold Dev.pinned Dev.heldLine Dev.pending
    rw [hholders, hpend]
    rfl
  · unfold Dev.pending
    rw [hpend]

/-! ### Leases at a home (R150, R151, R156) -/

/-- A home grants a line that nobody holds to its oldest request. -/
theorem Dev.grantNext_free {m : Memory} {d : Dev} {pa : Nat} {r : LeaseReq} (hhold : ∀ y, y ∈ (d.home (homeOf pa)).holders → y.pa ≠ pa)
    (hpend : d.pending pa = false) (hr : (d.home (homeOf pa)).leaseQ.find? (fun y => y.pa == pa) = some r) (hamo : r.amo = none)
    (hquay : (d.quay (d.slotFn r.h r.n) pa false).isSome = true) :
    ∃ e, d.QuaysOnly e ∧ d.grantNext m pa = (e.updHome (homeOf pa) (fun x => { x with leaseQ := x.leaseQ.erase r, holders := x.holders ++ [r] })).send
      (chanOf 1 (homeOf pa) (slotKey r.h r.n)) (.leaseGrant r (m.line pa)) := by
  obtain ⟨e, he⟩ := Option.isSome_iff_exists.mp hquay
  have hheld : ((d.home (homeOf pa)).holders.any (fun r => r.pa == pa) || d.pending pa) = false := by
    rw [hpend, Bool.or_false]
    exact List.any_eq_false.mpr fun y hy => by simp [hhold y hy]
  refine ⟨e, Dev.quay_quaysOnly he, ?_⟩
  unfold Dev.grantNext
  dsimp only
  rw [hheld, hr]
  simp only [Bool.false_eq_true, if_false, he, hamo]

/-- The home with a request that has just come to it. -/
def Dev.queueLease (d : Dev) (r : LeaseReq) : Dev := d.updHome (homeOf r.pa) (fun x => { x with leaseQ := x.leaseQ ++ [r] })

theorem Dev.home_queueLease (d : Dev) (r : LeaseReq) :
    (d.queueLease r).home (homeOf r.pa) = { d.home (homeOf r.pa) with leaseQ := (d.home (homeOf r.pa)).leaseQ ++ [r] } :=
  Dev.home_updHome_self _ _ _

/-- A lease request that finds its line free is granted at once. -/
theorem Dev.requestArrives_grants {m : Memory} {d : Dev} {r : LeaseReq} (hamo : r.amo = none)
    (hhold : ∀ y, y ∈ (d.home (homeOf r.pa)).holders → y.pa ≠ r.pa) (hq : ∀ y, y ∈ (d.home (homeOf r.pa)).leaseQ → y.pa ≠ r.pa)
    (hpend : d.pending r.pa = false) (hquay : (d.quay (d.slotFn r.h r.n) r.pa false).isSome = true)
    (hroom : (d.home (homeOf r.pa)).leaseQ.length + (d.home (homeOf r.pa)).holders.length < 64) :
    d.sends (d.requestArrives m r) (.leaseGrant r (m.line r.pa)) ∧
      ((d.requestArrives m r).home (homeOf r.pa)).holders = (d.home (homeOf r.pa)).holders ++ [r] ∧ d.sameSlots (d.requestArrives m r) := by
  have hnone : (d.home (homeOf r.pa)).holders.find? (fun x => x.pa == r.pa) = none :=
    List.find?_eq_none.mpr fun y hy => by simp [hhold y hy]
  have hnew : (d.home (homeOf r.pa)).leaseQ.contains r = false := by
    rw [Bool.eq_false_iff]
    intro h
    exact hq r (List.contains_iff_mem.mp h) rfl
  have hin : d.requestArrives m r = (d.queueLease r).grantNext m r.pa := by
    unfold Dev.requestArrives Dev.leaseArrive
    dsimp only
    rw [hamo, hnone]
    simp only [Bool.false_eq_true, if_false, hnew, if_neg (Nat.not_le.mpr hroom)]
    rfl
  have hpins := Dev.pinned_updHome (f := fun x => { x with leaseQ := x.leaseQ ++ [r] }) (fun _ => rfl) (fun _ => rfl) d (homeOf r.pa)
  have hquay' := (Dev.quay_isSome_of (d := d) (e := d.queueLease r) rfl rfl (fun q => (hpins q).1)
    (d.slotFn r.h r.n) r.pa false).trans hquay
  obtain ⟨e, he, hgrant⟩ := Dev.grantNext_free (m := m) (d := d.queueLease r) (pa := r.pa) (r := r)
    (by rw [Dev.home_queueLease]; exact hhold)
    (((hpins ⟨0, 0, 0, false, false, false, 0⟩).2 r.pa).trans hpend)
    (by
      rw [Dev.home_queueLease]
      refine List.find?_append.trans ?_
      rw [List.find?_eq_none.mpr fun y hy => by simp [hq y hy]]
      simp) hamo hquay'
  rw [hin, hgrant]
  refine ⟨?_, ?_, fun h n => (he.slot h n).trans rfl⟩
  · obtain ⟨due, chan, hdue, hnet⟩ := Dev.sends_send (e.updHome (homeOf r.pa) (fun x => { x with leaseQ := x.leaseQ.erase r, holders := x.holders ++ [r] }))
      (chanOf 1 (homeOf r.pa) (slotKey r.h r.n)) (.leaseGrant r (m.line r.pa))
    refine ⟨due, chan, ?_, hnet.trans ?_⟩
    · rw [← show e.clock = d.clock from he.clock]
      exact hdue
    · rw [← show e.net = d.net from he.net]
      rfl
  · have hhome : ∀ (x : Dev) (f : Home → Home), ((x.updHome (homeOf r.pa) f).send (chanOf 1 (homeOf r.pa) (slotKey r.h r.n))
        (.leaseGrant r (m.line r.pa))).home (homeOf r.pa) = f (x.home (homeOf r.pa)) := fun x f => Dev.home_updHome_self _ _ _
    have hsame : e.home (homeOf r.pa) = (d.queueLease r).home (homeOf r.pa) :=
      congrArg (fun h : AMap Home => h.get Home.init (homeOf r.pa)) (congrArg Dev.homes he.calm :)
    rw [hhome, hsame, Dev.home_queueLease]

/-- A break notice takes the holder off where nobody else waits for the line. -/
theorem Dev.unhold_alone {m : Memory} {d : Dev} {pa h n : Nat} (hq : ∀ y, y ∈ (d.home (homeOf pa)).leaseQ → y.pa ≠ pa) :
    ((d.unhold m pa h n).home (homeOf pa)).holders = (d.home (homeOf pa)).holders.filter (fun y => !(y.pa == pa && y.h == h && y.n == n)) ∧
      d.sameSlots (d.unhold m pa h n) := by
  have hhome := d.home_updHome_self (homeOf pa) (fun x => { x with holders := x.holders.filter (fun r => !(r.pa == pa && r.h == h && r.n == n)) })
  have hunpin : ∀ (x : Dev), (x.unpin pa).home (homeOf pa) = x.home (homeOf pa) ∧ x.sameSlots (x.unpin pa) := by
    intro x
    unfold Dev.unpin
    dsimp only
    split
    · exact ⟨rfl, fun _ _ => rfl⟩
    · exact ⟨rfl, fun _ _ => rfl⟩
  have hgrant : ∀ x : Dev, (∀ y, y ∈ (x.home (homeOf pa)).leaseQ → y.pa ≠ pa) → x.grantNext m pa = x := by
    intro x hx
    unfold Dev.grantNext
    dsimp only
    rw [List.find?_eq_none.mpr fun y hy => by simp [hx y hy]]
    exact ite_self _
  unfold Dev.unhold
  rw [hgrant _ (by rw [(hunpin _).1, hhome]; exact hq), (hunpin _).1, hhome]
  exact ⟨rfl, fun j k => ((hunpin _).2 j k).trans rfl⟩

/-! ### Leases at a slot (R151, R153) -/

/-- A new record whose request is on its way to its home. -/
def Slot.asking (s : Slot) (r : LeaseRec) (o : LongOp) (pa : Nat) : Slot :=
  { s with leases := (s.leases ++ [r]).map (fun x => if x.op == o.id && !x.granted then { x with pa := lineOf pa } else x), ops := s.ops ++ [o] }

theorem Slot.mem_asking (s : Slot) {r : LeaseRec} {o : LongOp} (pa : Nat) (hop : r.op = o.id) (hg : r.granted = false) :
    ∃ x, x ∈ (s.asking r o pa).leases ∧ x.va = r.va ∧ x.pa = lineOf pa ∧ x.cls = r.cls ∧ x.granted = false ∧ x.broken = r.broken := by
  refine ⟨{ r with pa := lineOf pa }, List.mem_map.mpr ⟨r, List.mem_append_right _ List.mem_cons_self, ?_⟩, rfl, rfl, rfl, hg, rfl⟩
  rw [hop, hg, beq_self_eq_true]
  rfl

/-- A message is sent in a device whose messages and cycle are those of d. -/
theorem Dev.sends_send_of {d e : Dev} (hnet : e.net = d.net) (hclock : e.clock = d.clock) (chan : Nat) (x : Ev) : d.sends (e.send chan x) x := by
  obtain ⟨due, ch, hdue, h⟩ := e.sends_send chan x
  exact ⟨due, ch, hclock ▸ hdue, hnet ▸ h⟩

/-- The request of a lease leaves for its home. -/
theorem Ctx.ask_lease {c : Ctx} {x : Dev} (r : LeaseRec) (o : LongOp) {a : W64} {acc : Acc} (pa : Nat)
    (hx : x.slot c.h c.n = { c.s with leases := c.s.leases ++ [r] }) (hkind : o.kind = .lease) (hacc : o.acc[0]? = some acc) :
    (c.ask x o a (.home pa)).slot c.h c.n = c.s.asking r o pa ∧ (c.ask x o a (.home pa)).still = x.still ∧
      x.sends (c.ask x o a (.home pa)) (.leaseRequestArrival ⟨c.h, c.n, lineOf acc.va.toNat, lineOf pa, none⟩) := by
  unfold Ctx.ask Dev.toHome
  dsimp only
  rw [hkind]
  dsimp only
  have hsend : ∀ (e : Dev) k v, (e.send k v).slot c.h c.n = e.slot c.h c.n := fun _ _ _ => rfl
  refine ⟨?_, rfl, ?_⟩
  · rw [hsend, Dev.slot_updSlot_self, Dev.slot_updSlot_self, hx]
    rfl
  · rw [hacc]
    exact Dev.sends_send_of rfl rfl 0 _

/-- The device where a slot has a new lease record. -/
def Ctx.withRecord (c : Ctx) (r : LeaseRec) : Dev :=
  { c.d.updSlot c.h c.n (fun s => { s with leases := s.leases ++ [r] }) with count := c.d.count + 1 }

theorem Ctx.withRecord_slot {c : Ctx} (hown : c.d.slot c.h c.n = c.s) (r : LeaseRec) :
    (c.withRecord r).slot c.h c.n = { c.s with leases := c.s.leases ++ [r] } := by
  have h := Dev.slot_updSlot_self c.d c.h c.n (fun s => { s with leases := s.leases ++ [r] })
  rw [hown] at h
  exact h

/-- The record of a lease of the line of an address. -/
def Ctx.leaseRecord (c : Ctx) (cls : LeaseCls) (a : W64) : LeaseRec := ⟨lineOf a.toNat, 0, cls, false, false, 0, 0, 0#1024, 0#128, false, c.d.count⟩

/-- The lease as an outstanding instruction. -/
def Ctx.leaseOp (c : Ctx) (d : AReg) (a : W64) (pa : Nat) : LongOp :=
  ⟨c.d.count, c.s.pc, .lease, [], [d.toNat], 0#16, false, [⟨0, 0, a, .home pa, 0#1024, 0#128, 0⟩], [], [], a, 0#64, false⟩

/-- A lease's record is asked for at its home. -/
theorem lease_acts (la : BitVec 4) (cls : LeaseCls) (d base : AReg) (off : BitVec 24) (pa : Nat) :
    Acts (.lease la cls d base off) ((useA [wa d, ra base]).long la)
      (fun c => c.sure ∧ (c.s.addr1 base off).toNat % 8 = 0 ∧ c.s.leases.length < 2 ∧
        (c.d.core c.h).slots.ents.foldl (fun k e => k + e.2.leases.length) 0 < 16 ∧
        (∀ x, x ∈ c.s.leases → x.va < lineOf (c.s.addr1 base off).toNat) ∧ c.mapped [.r, .w, .a] (c.s.addr1 base off) pa) [] [] []
      (fun c e => c.d.sends e (.leaseRequestArrival ⟨c.h, c.n, lineOf (c.s.addr1 base off).toNat, lineOf pa, none⟩) ∧ e.still = c.d.still ∧
        (e.slot c.h c.n).leases.length = c.s.leases.length + 1 ∧ ∃ x o, x ∈ (e.slot c.h c.n).leases ∧
          x.va = lineOf (c.s.addr1 base off).toNat ∧ x.pa = lineOf pa ∧ x.cls = cls ∧ x.granted = false ∧
          x.broken = false ∧ (e.slot c.h c.n).ops = c.s.ops ++ [o] ∧ o.ad = [d.toNat]) := by
  refine acts_of (fun _ => by unfold exec execLease specForm; rfl) (fun c hc ⟨hsure, hal, htwo, hsixteen, hlow, hm⟩ => ?_)
  obtain ⟨hin, hwin, lf, hleaf, hprot, rfl⟩ := hm
  have hany : c.s.leases.any (fun r => decide (lineOf (c.s.addr1 base off).toNat ≤ r.va)) = false :=
    List.any_eq_false.mpr fun x hx => by simp [hlow x hx]
  have hex : c.exclusive (c.s.addr1 base off) = .at_ (.home (lf.pa (c.s.addr1 base off).toNat)) 0#1024 := by
    unfold Ctx.exclusive
    simp only [if_neg (Nat.not_le.mpr hin), hleaf, hprot]
  dsimp only
  rw [hsure.unspec, (aligned8_iff _).mpr hal, hwin, hany, hex]
  simp only [Bool.false_eq_true, if_false, if_neg (Nat.not_le.mpr htwo), if_neg (Nat.not_le.mpr hsixteen)]
  obtain ⟨hslot, hstill, due, chan, hdue, hnet⟩ := Ctx.ask_lease (c.leaseRecord cls (c.s.addr1 base off))
    (c.leaseOp d (c.s.addr1 base off) (lf.pa (c.s.addr1 base off).toNat)) (a := c.s.addr1 base off) (lf.pa (c.s.addr1 base off).toNat)
    (Ctx.withRecord_slot hc.own _) rfl rfl
  refine ⟨_, rfl, ?_, ⟨due, chan, hdue, (Ctx.finish_net _ _ _ _).trans hnet⟩, (Ctx.finish_still _ _ _ _).trans hstill, ?_⟩
  · refine KeptFiles.of_files (hslot ▸ rfl) (hslot ▸ rfl) (hslot ▸ rfl)
  · obtain ⟨x, hx, hva, hpa, hcls, hg, hb⟩ := Slot.mem_asking c.s (r := c.leaseRecord cls (c.s.addr1 base off))
      (o := c.leaseOp d (c.s.addr1 base off) (lf.pa (c.s.addr1 base off).toNat)) (lf.pa (c.s.addr1 base off).toNat) rfl rfl
    rw [← hslot] at hx
    rw [Ctx.finish_slot _ _ _ _ hc.step]
    refine ⟨(congrArg (fun s => s.leases.length) hslot).trans ((List.length_map _).trans List.length_append), x, _, hx, hva, hpa, hcls, hg, hb,
      (congrArg Slot.ops hslot :), rfl⟩

/-- A slot whose break is over and which holds a lease. -/
theorem Slot.il_setIl (s : Slot) (b : Bool) : (s.setIl b).il = b := (getLsbD_putBit s.tsw 1 b (by decide)).trans (if_pos rfl)
theorem Slot.lb_setIl (s : Slot) (b : Bool) : (s.setIl b).lb = s.lb := (getLsbD_putBit s.tsw 1 b (by decide)).trans (if_neg (by decide))
theorem Slot.lb_setLb (s : Slot) (b : Bool) : (s.setLb b).lb = b := (getLsbD_putBit s.tsw 2 b (by decide)).trans (if_pos rfl)

/-- What a slot's lease record is once its line has been granted. -/
def LeaseRec.grantedAt (l : LeaseRec) (clock pa : Nat) (data : Line) (more : Bool) : LeaseRec :=
  { l with pa := pa, granted := true, shadow := data, mask := 0#128, waitq := more, expiry := clock + LeaseCls.bound l.cls }

/-- The device once a grant has changed its slot by f and its instruction by g. -/
def Dev.landGrant (d : Dev) (h n va idx op : Nat) (f : Slot → Slot) (g : LongOp → LongOp) : Dev :=
  ((((d.updSlot h n f).updCore h (fun c => c.dropLine va)).delay h idx).updOp h n op g).first [.resultLanding h n op]

section
variable (d : Dev) (h n va idx op : Nat) (f : Slot → Slot) (g : LongOp → LongOp)

theorem Dev.slot_landGrant : (d.landGrant h n va idx op f g).slot h n =
    { f (d.slot h n) with ops := (f (d.slot h n)).ops.map (fun o => if o.id == op then g o else o) } := by
  have hdrop : ((d.updSlot h n f).updCore h (fun c => c.dropLine va)).slot h n = f (d.slot h n) := by
    rw [Dev.slot_updCore_of (f := fun c => c.dropLine va) (fun _ _ => rfl), Dev.slot_updSlot_self]
  have hfirst : ∀ (x : Dev) es, (x.first es).slot h n = x.slot h n := fun _ _ => rfl
  unfold Dev.landGrant Dev.updOp
  rw [hfirst, Dev.slot_updSlot_self, Dev.slot_delay, hdrop]

theorem Dev.l1_landGrant : ((d.landGrant h n va idx op f g).core h).l1.find? (lineOf va) = none := by
  have hslot : ∀ (x : Dev) (f : Slot → Slot), ((x.updSlot h n f).core h).l1 = (x.core h).l1 := fun x f =>
    (congrArg Core.l1 (Dev.core_updSlot_bare x h n h f) :)
  have hdelay : ∀ x : Dev, ((x.delay h idx).core h).l1 = (x.core h).l1 := fun x =>
    (congrArg Core.l1 (Dev.core_updCore_self x h (fun c => c.bump 0 idx (min 65535 (Config.latency x.count)))) :)
  have hfirst : ∀ (x : Dev) es, ((x.first es).core h).l1 = (x.core h).l1 := fun _ _ => rfl
  unfold Dev.landGrant Dev.updOp
  rw [hfirst, hslot, hdelay, Dev.core_updCore_self]
  exact (AMap.find?_erase _ _ _).trans (if_pos rfl)

theorem Dev.agenda_landGrant : (d.landGrant h n va idx op f g).agenda = .ev (.resultLanding h n op) :: d.agenda := rfl

end

/-- A slot's record takes its grant: LB clears and IL is set. -/
def Slot.takesGrant (l l' : LeaseRec) (s : Slot) : Slot :=
  ({ s with leases := s.leases.map (fun x => if x = l then l' else x) }.setLb false).setIl true

/-- The lease's own instruction has its result. -/
def LongOp.takesGrant (data : Line) (o : LongOp) : LongOp :=
  { o with ares := o.ad.map (fun a => (a, Line.w64 data (o.addr.toNat % 128))), fin := true }

theorem leaseGrant_eq {r : LeaseReq} {l : LeaseRec} (data : Line) {s : State}
    (hl : (s.dev.slot r.h r.n).leases.find? (fun x => x.va == r.va && !x.granted) = some l) (hb : l.broken = false)
    (hp : s.dev.linePoison.contains r.pa = false) :
    exec (.leaseGrant r data) s = .next ⟨s.mem, s.dev.landGrant r.h r.n r.va (homeOf r.pa / 8) l.op
      (Slot.takesGrant l (l.grantedAt s.dev.clock r.pa data ((s.dev.home (homeOf r.pa)).leaseQ.any (fun x => x.pa == r.pa))))
      (LongOp.takesGrant data)⟩ := by
  unfold exec execLeaseGrant onDev
  dsimp only
  rw [hl]
  dsimp only
  rw [hp, hb]
  simp only [Bool.not_false, Bool.and_true, Bool.false_eq_true, if_false, LeaseRec.grantedAt, hb]
  rfl

/-- A grant lands in its slot's record. -/
theorem leaseGrant_event (r : LeaseReq) (data : Line) (l : LeaseRec) : Event (.leaseGrant r data)
    (fun _ d => (d.slot r.h r.n).leases.find? (fun x => x.va == r.va && !x.granted) = some l ∧ l.broken = false ∧ r.h < nCores ∧
      d.linePoison.contains r.pa = false)
    (fun _ d e => (∃ x, x ∈ (e.slot r.h r.n).leases ∧ x.va = r.va ∧ x.pa = r.pa ∧ x.granted = true ∧ x.broken = false ∧ x.shadow = data ∧
        x.mask = 0#128 ∧ x.expiry = d.clock + (match l.cls with | .short => 64 | .medium => 256 | .long => 1024)) ∧
      (e.slot r.h r.n).il = true ∧ (e.slot r.h r.n).lb = false ∧ (e.core r.h).l1.find? (lineOf r.va) = none ∧
      e.agenda = .ev (.resultLanding r.h r.n l.op) :: d.agenda) := by
  intro s ⟨hl, hb, _, hp⟩
  refine ⟨_, leaseGrant_eq data hl hb hp, fun _ => rfl, ?_⟩
  have hva : l.va = r.va := by
    have h := List.find?_some hl
    simp only [Bool.and_eq_true, beq_iff_eq] at h
    exact h.1
  dsimp only
  refine ⟨?_, ?_, ?_, Dev.l1_landGrant _ _ _ _ _ _ _ _, rfl⟩
  · refine ⟨l.grantedAt s.dev.clock r.pa data ((s.dev.home (homeOf r.pa)).leaseQ.any (fun x => x.pa == r.pa)), ?_, hva, rfl, rfl, hb, rfl, rfl, ?_⟩
    · rw [Dev.slot_landGrant]
      exact List.mem_map.mpr ⟨l, List.mem_of_find?_eq_some hl, if_pos rfl⟩
    · cases hcls : l.cls <;> simp only [LeaseRec.grantedAt, hcls, LeaseCls.bound]
  · rw [Dev.slot_landGrant]
    exact Slot.il_setIl _ _
  · rw [Dev.slot_landGrant]
    exact (Slot.lb_setIl _ _).trans (Slot.lb_setLb _ _)

/-- A record that p names breaks for a reason. -/
def LeaseRec.breaks (why : Nat) (p : LeaseRec → Bool) (r : LeaseRec) : LeaseRec := if !r.broken && p r then { r with broken := true, why := why } else r

/-- Where a break finds a record: its slot's records, LB, and the notices of those that were granted. -/
theorem Dev.breakLeases_hit {d : Dev} {h n why : Nat} {p : LeaseRec → Bool} {l : LeaseRec} (hmem : l ∈ (d.slot h n).leases)
    (hb : l.broken = false) (hp : p l = true) :
    (d.breakLeases h n why p).slot h n = ({ d.slot h n with leases := (d.slot h n).leases.map (LeaseRec.breaks why p) }.setLb true).fixIl ∧
      (l.granted = true → (d.breakLeases h n why p).coming d.clock (.breakNotice ⟨h, n, l.va, l.pa, none⟩)) := by
  have hhit : l ∈ (d.slot h n).leases.filter (fun (r : LeaseRec) => !r.broken && p r) := List.mem_filter.mpr ⟨hmem, by rw [hb, hp]; rfl⟩
  have hne : ((d.slot h n).leases.filter (fun (r : LeaseRec) => !r.broken && p r)).isEmpty = false :=
    Bool.eq_false_iff.mpr fun he => by rw [List.isEmpty_iff.mp he] at hhit; cases hhit
  unfold Dev.breakLeases
  dsimp only
  rw [hne]
  simp only [Bool.false_eq_true, if_false]
  refine ⟨?_, fun hg => ?_⟩
  · rw [Dev.slot, Dev.core, Dev.cores_foldl_send, ← Dev.core, ← Dev.slot, Dev.slot_updSlot_self]
    rfl
  · refine (Dev.coming_foldl_send_on (fun r : LeaseRec => .breakNotice ⟨h, n, r.va, r.pa, none⟩) (fun r => chanOf 2 (slotKey h n) (homeOf r.pa)) _ _ ?_).1 l
      (List.mem_filter.mpr ⟨hhit, hg⟩)
    rfl

/-- At the end of its bound a granted record breaks with reason 1, and its home gets a notice. -/
theorem leaseExpiry_event (h n va : Nat) (l : LeaseRec) : Event (.leaseExpiry h n va)
    (fun _ d => l ∈ (d.slot h n).leases ∧ l.va = va ∧ l.granted = true ∧ l.broken = false ∧ l.expiry ≤ d.clock)
    (fun _ d e => (e.slot h n).lb = true ∧ (∀ x, x ∈ (e.slot h n).leases → x.va = va → x.granted = true → x.expiry ≤ d.clock → x.broken = true) ∧
      { l with broken := true, why := 1 } ∈ (e.slot h n).leases ∧ (e.slot h n).pc = (d.slot h n).pc ∧
      e.coming d.clock (.breakNotice ⟨h, n, va, l.pa, none⟩)) := by
  intro s ⟨hmem, hva, hg, hb, hex⟩
  refine ⟨_, rfl, fun _ => rfl, ?_⟩
  have hp : (fun r : LeaseRec => r.va == va && r.granted && decide (r.expiry ≤ s.dev.clock)) l = true := by simp [hva, hg, hex]
  obtain ⟨hslot, hnotice⟩ := Dev.breakLeases_hit (why := 1) (p := fun r : LeaseRec => r.va == va && r.granted && decide (r.expiry ≤ s.dev.clock)) hmem hb hp
  dsimp only
  rw [hslot]
  refine ⟨(Slot.lb_setIl _ _).trans (Slot.lb_setLb _ _), fun x hx hxva hxg hxe => ?_, List.mem_map.mpr ⟨l, hmem, ?_⟩, rfl, hva ▸ hnotice hg⟩
  · obtain ⟨y, hy, rfl⟩ := List.mem_map.mp hx
    cases hyb : y.broken with
    | true => simp [LeaseRec.breaks, hyb]
    | false =>
      by_cases hyp : (y.va == va && y.granted && decide (y.expiry ≤ s.dev.clock)) = true
      · simp [LeaseRec.breaks, hyb, hyp]
      · rw [LeaseRec.breaks, hyb, if_neg (by simpa using hyp)] at hxva hxg hxe
        exact absurd (by simp [hxva, hxg, hxe]) hyp
  · rw [LeaseRec.breaks, hb]
    exact if_pos hp

/-- Settles O21. -/
theorem leases : Obligations.Leases :=
  ⟨fun la cls d base off pa r data l => ⟨lease_acts la cls d base off pa,
      fun s ⟨hamo, hhold, hq, hpend, hquay, hroom⟩ => ⟨_, rfl, fun _ => rfl, Dev.requestArrives_grants hamo hhold hq hpend hquay hroom⟩,
      fun s ⟨hamo, hhold, hq, hpend, hquay, hroom⟩ => ⟨_, rfl, fun _ => rfl, Dev.requestArrives_grants hamo hhold hq hpend hquay hroom⟩,
      leaseGrant_event r data l⟩,
    fun h n va r l => ⟨leaseExpiry_event h n va l, fun s hq => ⟨_, rfl, fun _ => rfl, Dev.unhold_alone hq⟩⟩⟩

end Sys2Proof.Machine
end

section
/-! PROOFS. Leased data, atomics and fences (R152 to R160). -/

namespace Sys2Proof.Machine

/-! ### A group that has just closed stands among those in flight (R142) -/

theorem Dev.groups_wakeSlot (d : Dev) (h n : Nat) (p : WaitFor → Bool) : (d.wakeSlot h n p).groups = d.groups := by
  unfold Dev.wakeSlot
  split
  · split
    · rfl
    · rfl
  · rfl

theorem Dev.groups_wakeVisible (d : Dev) (h n : Nat) : (d.wakeVisible h n).groups = d.groups := by
  unfold Dev.wakeVisible
  split
  · exact d.groups_wakeSlot _ _ _
  · exact d.groups_wakeSlot _ _ _

theorem Dev.groups_reply (d : Dev) (h n : Nat) (r : Reply) : (d.reply h n r).groups = d.groups := by
  unfold Dev.reply
  split
  · rfl
  · split
    · rfl
    · exact Dev.groups_wakeSlot _ _ _ _

theorem Dev.groups_grantNext (d : Dev) (m : Memory) (pa : Nat) : (d.grantNext m pa).groups = d.groups := by
  unfold Dev.grantNext
  dsimp only
  split
  · rfl
  · split
    · rfl
    · split
      · split
        · exact (Dev.quayWaited_quaysOnly _ _ _).groups
        · exact (Dev.quayWaited_quaysOnly _ _ _).groups
      · next e he =>
        refine Eq.trans ?_ (Dev.quay_quaysOnly he).groups
        split <;> rfl

theorem Dev.groups_unhold (d : Dev) (m : Memory) (pa h n : Nat) : (d.unhold m pa h n).groups = d.groups := by
  unfold Dev.unhold
  refine (Dev.groups_grantNext _ _ _).trans ?_
  unfold Dev.unpin
  dsimp only
  split <;> rfl

theorem Dev.groups_finish (d : Dev) (m : Memory) (f : Fin) : (d.finish m [] f).groups = d.groups := by
  unfold Dev.finish
  split
  · exact d.groups_wakeVisible _ _
  · split
    · rfl
    · rw [Dev.broadcast_nil]
      have hl : ∀ (lk : Nat) g, (d.updLaunch lk g).groups = d.groups := fun lk g => by
        unfold Dev.updLaunch
        split <;> rfl
      dsimp only
      split
      · exact hl _ _
      · exact hl _ _
  · split
    · exact d.groups_unhold _ _ _ _
    · rfl
  · exact Dev.groups_unhold _ _ _ _ _
  · rfl
  · exact d.groups_reply _ _ _
  all_goals rfl

/-- The group of number i carries these lines for these ends behind that group, and its lines are no records'. -/
structure Dev.InFlight (d : Dev) (i : Nat) (ls : List GLine) (fin : List Fin) (after : Option Nat) : Prop where
  found : ∃ g, d.groups.find? (fun g => g.id == i) = some g ∧ g.lines = ls ∧ g.fin = fin ∧ g.after = after

section
variable {d : Dev} {i : Nat} {ls : List GLine} {fin : List Fin} {after : Option Nat}

theorem Dev.InFlight.mem (h : d.InFlight i ls fin after) : ∃ g, g ∈ d.groups ∧ g.lines = ls ∧ g.fin = fin ∧ g.after = after := by
  obtain ⟨g, hg, hl, hf, ha⟩ := h.found
  exact ⟨g, List.mem_of_find?_eq_some hg, hl, hf, ha⟩

theorem Dev.InFlight.congr {e : Dev} (h : d.InFlight i ls fin after) (he : e.groups = d.groups) : e.InFlight i ls fin after :=
  ⟨by rw [he]; exact h.found⟩

theorem Dev.InFlight.updGroup (h : d.InFlight i ls fin after) (j : Nat) {f : Grp → Grp} (hid : ∀ g, (f g).id = g.id)
    (hf : ∀ g, g.lines = ls → (f g).lines = ls) (hfin : ∀ g, (f g).fin = g.fin) (haf : ∀ g, (f g).after = g.after) :
    (d.updGroup j f).InFlight i ls fin after := by
  obtain ⟨g, hg, hl, hgf, ha⟩ := h.found
  have hfun : (fun y : Grp => y.id == i) ∘ (fun y => if y.id == j then f y else y) = fun y => y.id == i := by
    funext y
    rw [Function.comp]
    split
    · rw [hid]
    · rfl
  refine ⟨if g.id == j then f g else g, ?_, ?_, ?_, ?_⟩
  · unfold Dev.updGroup
    dsimp only
    rw [List.find?_map, hfun, hg]
    rfl
  · split
    · exact hf g hl
    · exact hl
  · split
    · exact (hfin g).trans hgf
    · exact hgf
  · split
    · exact (haf g).trans ha
    · exact ha

theorem Grp.capture_plain {g : Grp} (hl : ∀ l, l ∈ g.lines → l.rec_ = none) (c : Core) (q : Nat) : g.capture c q = g := by
  have hmap : (g.capture c q).lines = g.lines := by
    unfold Grp.capture
    dsimp only
    refine (List.map_congr_left fun l hl' => ?_).trans (List.map_id _)
    rw [hl l hl']
    rfl
  calc g.capture c q = { g with lines := (g.capture c q).lines } := rfl
    _ = g := by rw [hmap]

theorem Dev.InFlight.retire (h : d.InFlight i ls fin after) (m : Memory) {g : Grp} (hg : g.lines = []) (hi : g.id ≠ i) :
    (d.retire m g).InFlight i ls fin after := by
  have hgroups : (d.retire m g).groups = d.groups.filter (fun x => x.id != g.id) := by
    unfold Dev.retire
    rw [hg]
    exact List.foldlRecOn (motive := fun x : Dev => x.groups = d.groups.filter (fun x => x.id != g.id)) _ _ rfl
      (fun x hx f _ => (x.groups_finish m f).trans hx)
  obtain ⟨x, hx, hl, hf, ha⟩ := h.found
  refine ⟨x, ?_, hl, hf, ha⟩
  rw [hgroups, List.find?_filter]
  refine (List.find?_congr fun y _ => ?_).trans hx
  by_cases hy : y.id = i
  · simp [hy, Ne.symm hi]
  · simp [hy]

variable (hls : ls ≠ []) (hrec : ∀ l, l ∈ ls → l.rec_ = none)
include hls hrec

theorem Dev.InFlight.advance (h : d.InFlight i ls fin after) (m : Memory) (j : Nat) : (d.advance m j).InFlight i ls fin after := by
  unfold Dev.advance
  split
  · exact h
  · next g hg =>
    have hid : g.id = j := by simpa using List.find?_some (p := fun y : Grp => y.id == j) hg
    split
    · refine Dev.InFlight.congr (d := d.updGroup j _) ?_ rfl
      refine h.updGroup j (fun _ => rfl) (fun x hx => ?_) (fun _ => rfl) (fun _ => rfl)
      exact (congrArg Grp.lines (Grp.capture_plain (hx ▸ hrec) _ _)).trans hx
    · dsimp only
      split
      · next hall =>
        have hg0 := homesOf_eq_nil hall
        refine h.retire m hg0 (fun hi => hls ?_)
        obtain ⟨x, hx, hl, -, -⟩ := h.found
        rw [← hi, hid] at hx
        rw [← hl, ← hg0, Option.some.inj (hx.symm.trans hg)]
      · refine Dev.InFlight.congr (d := d.updGroup j _) ?_ (Dev.groups_foldl_send (fun q => .groupRelease j q) _ _)
        exact h.updGroup j (fun _ => rfl) (fun x hx => hx) (fun _ => rfl) (fun _ => rfl)

theorem Dev.InFlight.startGroups (m : Memory) (k : Nat) (h : d.InFlight i ls fin after) : (d.startGroups m k).InFlight i ls fin after := by
  induction k generalizing d with
  | zero => exact h
  | succ k ih =>
    unfold Dev.startGroups
    split
    · exact h
    · next g hg =>
      have hstart := h.updGroup g.id (f := fun g => { g with phase := .one }) (fun _ => rfl) (fun x hx => hx) (fun _ => rfl) (fun _ => rfl)
      exact ih (hstart.advance hls hrec m _)

omit hls hrec in
theorem Dev.newGid_fresh (d : Dev) {g : Grp} (hg : g ∈ d.groups) : g.id < d.newGid := by
  have h : ∀ (gs : List Grp) (m : Nat), m ≤ gs.foldl (fun m g => max m (g.id + 1)) m ∧
      ∀ g, g ∈ gs → g.id < gs.foldl (fun m g => max m (g.id + 1)) m := by
    intro gs
    induction gs with
    | nil => exact fun m => ⟨le_rfl, nofun⟩
    | cons x xs ih =>
      intro m
      obtain ⟨hle, hall⟩ := ih (max m (x.id + 1))
      refine ⟨(le_max_left _ _).trans hle, fun g hg => ?_⟩
      rcases List.mem_cons.mp hg with rfl | hg
      · exact lt_of_lt_of_le (Nat.lt_succ_self _) ((le_max_right _ _).trans hle)
      · exact hall g hg
  exact (h d.groups d.count).2 g hg

/-- A group that closes with lines of its own stands among those in flight. -/
theorem Dev.addGroup_inFlight (d : Dev) (m : Memory) (fn core : Nat) (after : Option Nat) (fin : List Fin) :
    (d.addGroup m ls fn core after fin).InFlight d.newGid ls fin after := by
  unfold Dev.addGroup Dev.settle
  refine Dev.InFlight.startGroups hls hrec m _ ⟨⟨d.newGid, ls, .waiting, homesOf ls, [], fn, after, core, fin⟩, ?_, rfl, rfl, rfl⟩
  dsimp only
  rw [List.find?_append, List.find?_eq_none.mpr fun x hx => by simp [(d.newGid_fresh hx).ne]]
  simp

end

/-! ### Shadows of leased lines (R152, R155) -/

/-- Every lane of a form on the shadow is aligned and has a granted record. -/
def Ctx.Shadowed (c : Ctx) (km : KReg) (x : VReg) (base : AReg) (off : BitVec 24) : Prop :=
  ∀ l, l < 16 → (c.s.K km.toNat).getLsbD l = true → (c.s.addr base x off 4 l).toNat % 4 = 0 ∧
    ∃ r, c.s.recFor (c.s.addr base x off 4 l) = some r ∧ r.granted = true

section
variable {c : Ctx} {km : KReg} {x : VReg} {base : AReg} {off : BitVec 24}

/-- A form on shadows that are all there completes. -/
theorem Ctx.shadow_done (h : c.Shadowed km x base off) (k : Slot → Slot) :
    c.shadow (c.s.K km.toNat) (c.s.lanesAt km x base off 4) k = c.done (k c.s) := by
  have hlanes : ∀ a, a ∈ c.s.lanesAt km x base off 4 → a.2.toNat % 4 = 0 ∧ ∃ r, c.s.recFor a.2 = some r ∧ r.granted = true := by
    intro a ha
    obtain ⟨l, hl, rfl⟩ := List.mem_map.mp ha
    exact h l (mem_lanesOf.mp hl).1 (mem_lanesOf.mp hl).2
  have halign : (c.s.lanesAt km x base off 4).find? (fun a => a.2.toNat % 4 != 0) = none :=
    List.find?_eq_none.mpr fun a ha => by simp [(hlanes a ha).1]
  have hrec : (c.s.lanesAt km x base off 4).find? (fun a => (c.s.recFor a.2).isNone) = none := by
    refine List.find?_eq_none.mpr fun a ha => ?_
    obtain ⟨-, r, hr, -⟩ := hlanes a ha
    simp [hr]
  unfold Ctx.shadow
  rw [halign]
  dsimp only
  rw [hrec]
  dsimp only
  rw [List.any_eq_false.mpr fun a ha => ?_]
  · rfl
  · obtain ⟨-, r, hr, hg⟩ := hlanes a ha
    simp [hr, hg]

/-- sld reads the words of its lanes' records. -/
theorem sld_completes (kz : Bool) (d : VReg) :
    CompletesWhen (.sld km kz d x base off) (useLoad km kz d x base) (fun c => c.Shadowed km x base off) [] [d.toNat] []
      (fun c b => b.pc = c.s.pc + 8#64 ∧ ∀ l, l < 16 → lane (b.V d.toNat) l =
        if (c.s.K km.toNat).getLsbD l then c.s.shadowWord (c.s.addr base x off 4 l) else if kz then 0#32 else lane (c.s.V d.toNat) l) := by
  refine completesWhen_of (fun _ => by unfold exec execSld; rfl) (fun c hc h => ?_)
  rw [Ctx.shadow_done h]
  refine ⟨_, _, c.s.pc + 8#64, rfl, .setSlot c _, KeptRegs.setV _ _ _, rfl, fun l hl => ?_⟩
  exact Slot.lane_setVm c.s d.toNat _ kz _ hl (fun _ => rfl)

/-- The lowest lane without a record raises LEASEFLT. -/
theorem sld_traps (kz : Bool) (d : VReg) (l : Nat) :
    TrapsWhen (.sld km kz d x base off) (useLoad km kz d x base)
      (fun c => (∀ m, m < 16 → (c.s.K km.toNat).getLsbD m = true → (c.s.addr base x off 4 m).toNat % 4 = 0) ∧ l < 16 ∧
        (c.s.K km.toNat).getLsbD l = true ∧ c.s.recFor (c.s.addr base x off 4 l) = none ∧
        ∀ m, m < l → (c.s.K km.toNat).getLsbD m = true → (c.s.recFor (c.s.addr base x off 4 m)).isSome = true)
      0x32 (fun _ => 2) (fun c => c.s.addr base x off 4 l) := by
  refine trapsWhen_of (fun _ => by unfold exec execSld; rfl) (fun c _ ⟨hal, hl, hk, hnone, hlow⟩ => ?_)
  have halign : (c.s.lanesAt km x base off 4).find? (fun a => a.2.toNat % 4 != 0) = none := by
    refine List.find?_eq_none.mpr fun a ha => ?_
    obtain ⟨m, hm, rfl⟩ := List.mem_map.mp ha
    simp [hal m (mem_lanesOf.mp hm).1 (mem_lanesOf.mp hm).2]
  have hfind : (c.s.lanesAt km x base off 4).find? (fun a => (c.s.recFor a.2).isNone) = some (l, c.s.addr base x off 4 l) := by
    rw [Slot.lanesAt, List.find?_map]
    refine congrArg (Option.map _) (find?_lanesOf hl hk ?_ fun m hm hkm => ?_)
    · simp [hnone]
    · have := hlow m hm hkm
      simpa [Option.isSome_iff_ne_none] using this
  unfold Ctx.shadow
  rw [halign]
  dsimp only
  rw [hfind]
  exact ⟨_, rfl⟩

/-! ### Words stored into shadows -/

/-- A record with a word stored into its shadow. -/
def LeaseRec.store (r : LeaseRec) (a : W64) (v : W32) : LeaseRec :=
  { r with shadow := Line.over r.shadow (lineBytes a.toNat v.toNat 4).1 (lineBytes a.toNat v.toNat 4).2, mask := r.mask ||| (lineBytes a.toNat v.toNat 4).2 }

theorem Slot.recFor_setShadow (s : Slot) (a b : W64) (v : W32) :
    (s.setShadow a v).recFor b = if lineOf b.toNat = lineOf a.toNat then (s.recFor b).map (fun r => r.store a v) else s.recFor b := by
  have hfun : (fun r : LeaseRec => r.va == lineOf b.toNat) ∘ (fun r => if r.va == lineOf a.toNat then r.store a v else r) =
      fun r => r.va == lineOf b.toNat := by
    funext r
    rw [Function.comp]
    split <;> rfl
  have hmap : (s.setShadow a v).recFor b = (s.recFor b).map (fun r => if r.va == lineOf a.toNat then r.store a v else r) := by
    unfold Slot.recFor Slot.setShadow
    dsimp only
    exact List.find?_map.trans (congrArg (Option.map _) (congrArg (List.find? · s.leases) hfun))
  rw [hmap]
  cases hr : s.recFor b with
  | none => simp
  | some r =>
    have hva : r.va = lineOf b.toNat := by simpa using List.find?_some (p := fun r : LeaseRec => r.va == lineOf b.toNat) hr
    rw [Option.map_some, hva]
    by_cases h : lineOf b.toNat = lineOf a.toNat
    · rw [if_pos h, if_pos (beq_iff_eq.mpr h)]
      rfl
    · rw [if_neg h, if_neg (by simpa using h)]

/-- A word stands in the record of its line. -/
def Slot.HoldsShadow (s : Slot) (a : W64) (v : W32) : Prop :=
  ∃ r, s.recFor a = some r ∧ Line.w32 r.shadow (a.toNat % 128) = v ∧ ∀ i, i < 4 → r.mask.getLsbD (a.toNat % 128 + i) = true

theorem Slot.holdsShadow_self {s : Slot} {a : W64} (v : W32) (ha : a.toNat % 4 = 0) (hr : (s.recFor a).isSome = true) :
    (s.setShadow a v).HoldsShadow a v := by
  obtain ⟨r, hr⟩ := Option.isSome_iff_exists.mp hr
  refine ⟨r.store a v, by rw [Slot.recFor_setShadow, if_pos rfl, hr]; rfl, w32_over_self _ _ ha, fun i hi => ?_⟩
  rw [LeaseRec.store, BitVec.getLsbD_or, getLsbD_lineBytes_mask _ _ _ (by omega)]
  simp [hi]

theorem Slot.HoldsShadow.setShadow {s : Slot} {a b : W64} {v : W32} (h : s.HoldsShadow b v) (w : W32) (ha : a.toNat % 4 = 0)
    (hb : b.toNat % 4 = 0) (hne : a ≠ b) : (s.setShadow a w).HoldsShadow b v := by
  obtain ⟨r, hr, hv, hm⟩ := h
  by_cases hl : lineOf b.toNat = lineOf a.toNat
  · refine ⟨r.store a w, by rw [Slot.recFor_setShadow, if_pos hl, hr]; rfl, ?_, fun i hi => ?_⟩
    · rw [← hv]
      exact w32_over_ne _ _ ha (by omega) (Nat.mod_lt _ (by decide)) (mod_128_ne hl (fun h => hne (BitVec.eq_of_toNat_eq h.symm)))
    · rw [LeaseRec.store, BitVec.getLsbD_or, hm i hi, Bool.true_or]
  · exact ⟨r, by rw [Slot.recFor_setShadow, if_neg hl, hr], hv, hm⟩

theorem Slot.isSome_recFor_setShadow (s : Slot) (a b : W64) (v : W32) : ((s.setShadow a v).recFor b).isSome = (s.recFor b).isSome := by
  rw [Slot.recFor_setShadow]
  split
  · rw [Option.isSome_map]
  · rfl

/-- Lanes stored in order: of two that store to one place the later stays. -/
theorem Slot.foldl_setShadow {s : Slot} {ls : List Nat} (at_ : Nat → W64) (val : Nat → W32) (hal : ∀ l, l ∈ ls → (at_ l).toNat % 4 = 0)
    (hrec : ∀ l, l ∈ ls → (s.recFor (at_ l)).isSome = true) (hls : ls.Pairwise (· < ·)) :
    (∀ b v, b.toNat % 4 = 0 → (∀ l, l ∈ ls → at_ l ≠ b) → s.HoldsShadow b v →
      (ls.foldl (fun s l => s.setShadow (at_ l) (val l)) s).HoldsShadow b v) ∧
    ∀ l, l ∈ ls → (∀ m, m ∈ ls → l < m → at_ m ≠ at_ l) → (ls.foldl (fun s l => s.setShadow (at_ l) (val l)) s).HoldsShadow (at_ l) (val l) := by
  induction ls generalizing s with
  | nil => exact ⟨fun _ _ _ _ h => h, nofun⟩
  | cons l ls ih =>
    obtain ⟨hlow, hls⟩ := List.pairwise_cons.mp hls
    obtain ⟨hkept, hheld⟩ := ih (s := s.setShadow (at_ l) (val l)) (fun m hm => hal m (List.mem_cons_of_mem _ hm))
      (fun m hm => (Slot.isSome_recFor_setShadow _ _ _ _).trans (hrec m (List.mem_cons_of_mem _ hm))) hls
    refine ⟨fun b v hb hne h => hkept b v hb (fun m hm => hne m (List.mem_cons_of_mem _ hm)) ?_, fun m hm hhigh => ?_⟩
    · exact h.setShadow _ (hal l List.mem_cons_self) hb (hne l List.mem_cons_self)
    · rcases List.mem_cons.mp hm with rfl | hm
      · exact hkept _ _ (hal m List.mem_cons_self) (fun j hj => hhigh j (List.mem_cons_of_mem _ hj) (hlow j hj))
          (Slot.holdsShadow_self _ (hal m List.mem_cons_self) (hrec m List.mem_cons_self))
      · exact hheld m hm (fun j hj => hhigh j (List.mem_cons_of_mem _ hj))

theorem Slot.foldl_setShadow_keeps {α : Type} (s : Slot) (xs : List α) (at_ : α → W64) (val : α → W32) :
    (xs.foldl (fun s y => s.setShadow (at_ y) (val y)) s).leases.length = s.leases.length ∧
      KeptFiles s (xs.foldl (fun s y => s.setShadow (at_ y) (val y)) s) [] [] [] := by
  have h : ∀ t : Slot, (xs.foldl (fun s y => s.setShadow (at_ y) (val y)) t).leases.length = t.leases.length ∧
      (xs.foldl (fun s y => s.setShadow (at_ y) (val y)) t).aregs = t.aregs ∧ (xs.foldl (fun s y => s.setShadow (at_ y) (val y)) t).vregs = t.vregs ∧
      (xs.foldl (fun s y => s.setShadow (at_ y) (val y)) t).kregs = t.kregs := by
    induction xs with
    | nil => exact fun t => ⟨rfl, rfl, rfl, rfl⟩
    | cons y ys ih =>
      intro t
      obtain ⟨hl, ha, hv, hk⟩ := ih (t.setShadow (at_ y) (val y))
      exact ⟨hl.trans (List.length_map _), ha, hv, hk⟩
  obtain ⟨hl, ha, hv, hk⟩ := h s
  exact ⟨hl, .of_files ha hv hk⟩

theorem Slot.V_setShadow (s : Slot) (a : W64) (v : W32) : (s.setShadow a v).V = s.V := by
  funext j
  unfold Slot.V Slot.setShadow
  rfl

/-- The data of a store into shadows may be read as it goes: no vector register changes. -/
theorem Slot.foldl_setShadow_own {α : Type} (f : Nat → V512) (xs : List α) (at_ : α → W64) (val : (Nat → V512) → α → W32) (t : Slot) (ht : t.V = f) :
    xs.foldl (fun s y => s.setShadow (at_ y) (val s.V y)) t = xs.foldl (fun t y => t.setShadow (at_ y) (val f y)) t := by
  induction xs generalizing t with
  | nil => rfl
  | cons y ys ih =>
    rw [List.foldl_cons, List.foldl_cons, ht]
    generalize hu : t.setShadow (at_ y) (val f y) = u
    exact ih u (by rw [← hu, Slot.V_setShadow, ht])

/-- The slot once sst has stored its lanes' words. -/
def Slot.sstored (s : Slot) (km : KReg) (d x : VReg) (base : AReg) (off : BitVec 24) : Slot :=
  (s.lanesAt km x base off 4).foldl (fun s a => s.setShadow a.2 (lane (s.V d.toNat) a.1)) s

theorem Slot.sstored_eq (s : Slot) (km : KReg) (d x : VReg) (base : AReg) (off : BitVec 24) : s.sstored km d x base off =
    (lanesOf (s.K km.toNat)).foldl (fun t l => t.setShadow (s.addr base x off 4 l) (lane (s.V d.toNat) l)) s := by
  have hown := Slot.foldl_setShadow_own s.V (s.lanesAt km x base off 4) (fun a => a.2) (fun V a => lane (V d.toNat) a.1) s rfl
  exact hown.trans List.foldl_map

theorem Ctx.Shadowed.sstored (h : c.Shadowed km x base off) (d : VReg) {l : Nat} (hl : l < 16) (hk : (c.s.K km.toNat).getLsbD l = true)
    (hhigh : ∀ m, m < 16 → l < m → (c.s.K km.toNat).getLsbD m = true → c.s.addr base x off 4 m ≠ c.s.addr base x off 4 l) :
    (c.s.sstored km d x base off).HoldsShadow (c.s.addr base x off 4 l) (c.s.ln d l) := by
  have hrec : ∀ m, m ∈ lanesOf (c.s.K km.toNat) → (c.s.recFor (c.s.addr base x off 4 m)).isSome = true := by
    intro m hm
    obtain ⟨r, hr, -⟩ := (h m (mem_lanesOf.mp hm).1 (mem_lanesOf.mp hm).2).2
    rw [hr]
    rfl
  have hheld := (Slot.foldl_setShadow (s := c.s) (ls := lanesOf (c.s.K km.toNat)) (c.s.addr base x off 4) (fun l => lane (c.s.V d.toNat) l)
    (fun m hm => (h m (mem_lanesOf.mp hm).1 (mem_lanesOf.mp hm).2).1) hrec (pairwise_lanesOf _)).2 l (mem_lanesOf.mpr ⟨hl, hk⟩)
    (fun m hm hlt => hhigh m (mem_lanesOf.mp hm).1 hlt (mem_lanesOf.mp hm).2)
  rw [Slot.sstored_eq]
  exact hheld

/-- sst writes the words of its lanes into their records. -/
theorem sst_acts (d : VReg) (l : Nat) :
    Acts (.sst km d x base off) (useStore km d x base)
      (fun c => c.Shadowed km x base off ∧ l < 16 ∧ (c.s.K km.toNat).getLsbD l = true ∧
        ∀ m, m < 16 → l < m → (c.s.K km.toNat).getLsbD m = true → c.s.addr base x off 4 m ≠ c.s.addr base x off 4 l)
      [] [] []
      (fun c e => e.still = c.d.still ∧ (e.slot c.h c.n).leases.length = c.s.leases.length ∧
        (e.slot c.h c.n).HoldsShadow (c.s.addr base x off 4 l) (c.s.ln d l)) := by
  refine acts_of (fun _ => by unfold exec execSst; rfl) (fun c hc ⟨h, hl, hk, hhigh⟩ => ?_)
  rw [Ctx.shadow_done h]
  obtain ⟨hlen, hfiles⟩ : (c.s.sstored km d x base off).leases.length = c.s.leases.length ∧ KeptFiles c.s (c.s.sstored km d x base off) [] [] [] := by
    rw [Slot.sstored_eq]
    exact Slot.foldl_setShadow_keeps c.s (lanesOf (c.s.K km.toNat)) (c.s.addr base x off 4) (fun l => lane (c.s.V d.toNat) l)
  obtain ⟨r, hr, hv, hm⟩ := h.sstored d hl hk hhigh
  refine ⟨c.d.setSlot c.h c.n (c.s.sstored km d x base off), rfl, ?_⟩
  generalize c.s.sstored km d x base off = y at hlen hfiles hr hv hm
  refine ⟨?_, (Ctx.finish_still _ _ _ _).trans rfl, ?_, ?_⟩
  · rw [Dev.slot_setSlot_self]
    exact hfiles
  · rw [Ctx.finish_slot _ _ _ _ hc.step, Dev.slot_setSlot_self]
    exact hlen
  · rw [Ctx.finish_slot _ _ _ _ hc.step, Dev.slot_setSlot_self]
    exact ⟨r, hr, hv, hm⟩

theorem lstat_reads (e : AReg) : ReadsA (.lstat e base) (useA [wa e, ra base]) (fun _ => True) e
    (fun c => ((c.s.recFor (c.s.A base.toNat)).map (fun r => r.stat c.d.clock)).getD 0#64) := by
  refine completesWhen_of (fun _ => by unfold exec execLstat; rfl) (fun c hc _ => ?_)
  exact ⟨_, _, c.s.pc + 8#64, rfl, .setSlot c _, KeptRegs.setA _ _ _, rfl, Slot.A_setA_self _ _ _⟩

end

/-! ### Releases of a slot that has nothing to make visible (R142, R166) -/

/-- A slot changed is a slot put. -/
theorem Dev.updSlot_eq_setSlot (d : Dev) (h n : Nat) (f : Slot → Slot) : d.updSlot h n f = d.setSlot h n (f (d.slot h n)) := by
  have hcore : ∀ k : Core, k.updSlot n f = k.updSlot n (fun _ => f (k.slot n)) := by
    intro k
    unfold Core.updSlot Core.slot
    split <;> rfl
  exact congrArg (fun k => ({ d with cores := d.cores.put h k } : Dev)) (hcore (d.core h))

/-- What is open for a slot stands in its core's directory. -/
theorem Ctx.openRecs_setSlot (c : Ctx) {s : Slot} (hlk : s.lk = c.s.lk) (hri : s.ri = c.s.ri) (hkind : s.kind = c.s.kind) (htasks : s.tasks = c.s.tasks) :
    Ctx.openRecs { c with s := s, d := c.d.setSlot c.h c.n s } = c.openRecs := by
  have hbare := Dev.core_updSlot_bare c.d c.h c.n c.h (fun _ => s)
  have hdir : ((c.d.setSlot c.h c.n s).core c.h).dir = (c.d.core c.h).dir := (congrArg Core.dir hbare :)
  have hregion : ((c.d.setSlot c.h c.n s).core c.h).roleRegion c.s.lk 1 = (c.d.core c.h).roleRegion c.s.lk 1 :=
    (congrArg (fun k : Core => k.roleRegion c.s.lk 1) hbare :)
  have hbuf : Ctx.buffer { c with s := s, d := c.d.setSlot c.h c.n s } = c.buffer := by
    unfold Ctx.buffer Dev.bufferOf
    dsimp only
    rw [hlk, hri, hregion]
    rfl
  have hplain : Ctx.plain { c with s := s, d := c.d.setSlot c.h c.n s } = c.plain := by
    funext id
    unfold Ctx.plain
    dsimp only
    rw [hlk]
    rfl
  unfold Ctx.openRecs
  rw [hbuf, hplain]
  dsimp only
  rw [hdir, hkind, htasks]

/-- A slot that has nothing open, nothing closed and no window store goes on from a release at once. -/
theorem Ctx.release_quiet {c : Ctx} (hclosed : c.s.closed = false) (hopen : c.openRecs = []) (hown : c.d.slot c.h c.n = c.s)
    (hgroups : c.d.slotGroups c.h c.n = []) (hwin : c.s.winStores = []) (k : Ctx → Res) :
    c.release k = k { c with d := c.d.setSlot c.h c.n { c.s with closed := true }, s := { c.s with closed := true } } := by
  have hset : c.d.updSlot c.h c.n (fun s => { s with closed := true }) = c.d.setSlot c.h c.n { c.s with closed := true } := by
    rw [Dev.updSlot_eq_setSlot, hown]
  have hseen : (c.d.setSlot c.h c.n { c.s with closed := true }).allVisible c.h c.n = true := by
    unfold Dev.allVisible
    rw [Dev.slot_setSlot_self, Bool.and_eq_true]
    exact ⟨List.isEmpty_iff.mpr hgroups, List.isEmpty_iff.mpr hwin⟩
  unfold Ctx.release Ctx.close
  dsimp only
  rw [hclosed, hopen, hset]
  simp only [Bool.false_eq_true, if_false, List.isEmpty_nil, if_true, hseen, Dev.slot_setSlot_self]

theorem Ctx.quiet.release {c : Ctx} (h : c.quiet) (hc : c.Ready) (k : Ctx → Res) :
    c.release k = k { c with d := c.d.setSlot c.h c.n { c.s with closed := true }, s := { c.s with closed := true } } := by
  obtain ⟨hgroups, hwin⟩ := Bool.and_eq_true_iff.mp h.seen
  rw [hc.own] at hwin
  exact Ctx.release_quiet h.closed h.open_ hc.own (List.isEmpty_iff.mp hgroups) (List.isEmpty_iff.mp hwin) k

theorem Dev.setSlot_setSlot (d : Dev) (h n : Nat) (s t : Slot) (k : Nat) : ((d.setSlot h n s).setSlot h n t).slot h n = t ∧
    (((d.setSlot h n s).setSlot h n t).core k).bare = (d.core k).bare := by
  refine ⟨Dev.slot_setSlot_self _ _ _ _, ?_⟩
  rw [Dev.setSlot, Dev.core_updSlot_bare, Dev.setSlot, Dev.core_updSlot_bare]

/-! ### release (R154) -/

/-- The slot's records but for one line's. -/
def Slot.dropped (s : Slot) (ln : Nat) : Slot :=
  { s with leases := s.leases.filter (fun x : LeaseRec => x.va != ln) }.setIl (!(s.leases.filter (fun x : LeaseRec => x.va != ln)).isEmpty)

/-- A record whose bound is stopped. -/
def LeaseRec.stopped (ln : Nat) (r : LeaseRec) : LeaseRec := if r.va == ln && !r.broken then { r with expiry := r.expiry + 2 ^ 64 } else r

theorem LeaseRec.va_stopped (ln : Nat) (r : LeaseRec) : (r.stopped ln).va = r.va := by
  unfold LeaseRec.stopped
  split <;> rfl

theorem Slot.leases_dropped_stopBound (s : Slot) (ln : Nat) : ((s.stopBound ln).dropped ln).leases = s.leases.filter (fun x => x.va != ln) := by
  have h : ∀ ls : List LeaseRec, (ls.map (LeaseRec.stopped ln)).filter (fun x : LeaseRec => x.va != ln) = ls.filter (fun x => x.va != ln) := by
    intro ls
    induction ls with
    | nil => rfl
    | cons r ls ih =>
      rw [List.map_cons, List.filter_cons, List.filter_cons, ih, LeaseRec.va_stopped]
      by_cases hr : r.va = ln
      · rw [hr, bne_self_eq_false]
        rfl
      · rw [LeaseRec.stopped, beq_eq_false_iff_ne.mpr hr]
        rfl
  exact h s.leases

/-- Stopping a record's bound moves its expiry alone. -/
theorem Slot.recFor_stopBound (s : Slot) (ln : Nat) (a : W64) : ∃ e : LeaseRec → Nat,
    (s.stopBound ln).recFor a = (s.recFor a).map (fun r => { r with expiry := e r }) := by
  refine ⟨fun r => if r.va == ln && !r.broken then r.expiry + 2 ^ 64 else r.expiry, ?_⟩
  have hmap : s.leases.map (fun r => if r.va == ln && !r.broken then { r with expiry := r.expiry + 2 ^ 64 } else r) =
      s.leases.map (fun r => { r with expiry := if r.va == ln && !r.broken then r.expiry + 2 ^ 64 else r.expiry }) := by
    refine List.map_congr_left fun r _ => ?_
    split <;> rfl
  unfold Slot.recFor Slot.stopBound
  dsimp only
  rw [hmap, List.find?_map]
  rfl

/-- The slot while its release ends. -/
def Slot.releasing (s : Slot) (ln : Nat) : Slot := { s.stopBound ln with closed := true }

/-- The release with its slot as it ends. -/
def Ctx.releasing (c : Ctx) (ln : Nat) : Ctx :=
  { c with s := c.s.releasing ln, d := (c.d.setSlot c.h c.n (c.s.stopBound ln)).setSlot c.h c.n (c.s.releasing ln) }

/-- release of a slot with nothing to make visible: what follows once the bound of its record has been stopped. -/
theorem Ctx.release_body {c : Ctx} (hc : c.Ready) (hq : c.quiet) {ln : Nat} (k : Ctx → Res) :
    Ctx.release { c with s := c.s.stopBound ln, d := c.d.setSlot c.h c.n (c.s.stopBound ln) } k =
      k (c.releasing ln) := by
  obtain ⟨hgroups, hwin⟩ := Bool.and_eq_true_iff.mp hq.seen
  rw [hc.own] at hwin
  refine Ctx.release_quiet (c := { c with s := c.s.stopBound ln, d := c.d.setSlot c.h c.n (c.s.stopBound ln) }) hq.closed ?_
    (Dev.slot_setSlot_self _ _ _ _) (List.isEmpty_iff.mp hgroups) (List.isEmpty_iff.mp hwin) k
  exact (c.openRecs_setSlot (s := c.s.stopBound ln) rfl rfl rfl rfl).trans hq.open_

/-- The slot when a release ends: its record gone, and v in its destination. -/
def Slot.released (s : Slot) (ln : Nat) (d : AReg) (v : W64) : Slot := (({ s.stopBound ln with closed := true }).dropped ln).setA d.toNat v

theorem Slot.released_spec (s : Slot) (ln : Nat) (d : AReg) (v : W64) :
    (s.released ln d v).leases = s.leases.filter (fun x => x.va != ln) ∧ KeptFiles s (s.released ln d v) [d.toNat] [] [] ∧
      (d ≠ 0#4 → (s.released ln d v).A d.toNat = v) := by
  refine ⟨?_, ⟨fun j hj => ?_, fun j _ => ?_, fun j _ => ?_⟩, fun hd => (Slot.A_setA_self _ _ _).trans (if_neg hd)⟩
  · rw [← s.leases_dropped_stopBound ln]
    unfold Slot.released Slot.setA
    split <;> rfl
  · exact (Slot.A_setA_ne _ _ _ _ (by simpa using hj)).trans rfl
  · exact (Slot.V_setA _ _ _ _).trans rfl
  · exact (Slot.K_setA _ _ _ _).trans rfl

/-- What a release does once its slot's stores are visible. -/
def Ctx.endRelease (d : AReg) (v : W64) (c : Ctx) : Res :=
  match c.s.recFor v with
  | none => c.done ((c.s.dropped (lineOf v.toNat)).setA d.toNat 0#64)
  | some r =>
    if r.broken then c.done ((c.s.dropped (lineOf v.toNat)).setA d.toNat 0#64)
    else
      let dv := (c.d.setSlot c.h c.n ((c.s.dropped (lineOf v.toNat)).setA d.toNat 1#64)).updCore c.h (fun k => k.dropLine (lineOf v.toNat))
      .done (dv.addGroup c.m [⟨lineOf v.toNat, r.pa, r.shadow, r.mask, none⟩] (dv.fnOf c.s.lk) c.h (dv.lastGroup c.h c.n)
        (.slot c.h c.n :: .lease r.pa :: c.broadcastFin))

/-- A release may go on at once: nothing of the slot waits to be seen, and no record of the line awaits its grant. -/
structure Ctx.Releases (c : Ctx) (a : AReg) : Prop where
  quiet : c.quiet
  kind : c.s.kind ≠ .ordered
  granted : ∀ x, x ∈ c.s.leases → x.va = lineOf (c.s.A a.toNat).toNat → x.granted = true

theorem release_acts (d a : AReg) {pre : Ctx → Prop} {post : Ctx → Dev → Prop} (hpre : ∀ c, pre c → c.Releases a)
    (hb : ∀ c : Ctx, c.Ready → pre c → ∃ e, Ctx.endRelease d (c.s.A a.toNat) (c.releasing (lineOf (c.s.A a.toNat).toNat)) = .done e ∧
      KeptFiles c.s (e.slot c.h c.n) [d.toNat] [] [] ∧ post c (c.finish (useA [wa d, ra a]) e (c.s.pc + 8#64))) :
    Acts (.release d a) (useA [wa d, ra a]) pre [d.toNat] [] [] post := by
  refine acts_of (fun _ => by unfold exec execRelease specForm; rfl) (fun c hc hp => ?_)
  obtain ⟨e, he, hend⟩ := hb c hc hp
  obtain ⟨hq, hkind, hg⟩ := hpre c hp
  have hany : c.s.leases.any (fun x => x.va == lineOf (c.s.A a.toNat).toNat && !x.granted) = false :=
    List.any_eq_false.mpr fun x hx => by
      rw [Bool.and_eq_true, beq_iff_eq]
      rintro ⟨hva, hng⟩
      rw [hg x hx hva] at hng
      cases hng
  refine ⟨e, ?_, hend⟩
  dsimp only
  rw [hq.sure.unspec, hany, hq.closed]
  simp only [Bool.false_eq_true, if_false]
  rw [Ctx.release_body hc hq, ← he]
  generalize c.releasing (lineOf (c.s.A a.toNat).toNat) = c'
  unfold Ctx.endRelease
  cases c'.s.recFor (c.s.A a.toNat) with
  | none => rfl
  | some r => rfl

/-- A broken record, or none, sends nothing. -/
theorem release_drops (d a : AReg) :
    Acts (.release d a) (useA [wa d, ra a]) (fun c => c.Releases a ∧ ∀ r, c.s.recFor (c.s.A a.toNat) = some r → r.broken = true) [d.toNat] [] []
      (fun c e => (d ≠ 0#4 → (e.slot c.h c.n).A d.toNat = 0#64) ∧
        (e.slot c.h c.n).leases = c.s.leases.filter (fun x => x.va != lineOf (c.s.A a.toNat).toNat) ∧ e.groups = c.d.groups) := by
  refine release_acts d a (fun _ h => h.1) (fun c hc ⟨_, hbroken⟩ => ?_)
  obtain ⟨hleases, hkept, hA⟩ := c.s.released_spec (lineOf (c.s.A a.toNat).toNat) d 0#64
  obtain ⟨f, hf⟩ := c.s.recFor_stopBound (lineOf (c.s.A a.toNat).toNat) (c.s.A a.toNat)
  have hend : Ctx.endRelease d (c.s.A a.toNat) (c.releasing (lineOf (c.s.A a.toNat).toNat)) =
      (c.releasing (lineOf (c.s.A a.toNat).toNat)).done (c.s.released (lineOf (c.s.A a.toNat).toNat) d 0#64) := by
    unfold Ctx.endRelease
    rw [show (c.releasing (lineOf (c.s.A a.toNat).toNat)).s.recFor (c.s.A a.toNat) = _ from hf]
    cases hr : c.s.recFor (c.s.A a.toNat) with
    | none => rfl
    | some r =>
      dsimp only [Option.map]
      rw [hbroken r hr]
      rfl
  refine ⟨(c.releasing (lineOf (c.s.A a.toNat).toNat)).d.setSlot c.h c.n (c.s.released (lineOf (c.s.A a.toNat).toNat) d 0#64), hend, ?_, ?_, ?_,
    Ctx.finish_groups _ _ _ _⟩
  · rw [Dev.slot_setSlot_self]
    exact hkept
  · rw [Ctx.finish_slot _ _ _ _ hc.step, Dev.slot_setSlot_self]
    exact hA
  · rw [Ctx.finish_slot _ _ _ _ hc.step, Dev.slot_setSlot_self]
    exact hleases

theorem Slot.Aside.leases {a b : Slot} (h : a.Aside b) : b.leases = a.leases := by obtain ⟨_, _, _, _, _, rfl, -⟩ := h; rfl

/-- An unbroken record sends what was written of its line. -/
theorem release_sends (d a : AReg) :
    Acts (.release d a) (useA [wa d, ra a]) (fun c => c.Releases a ∧ ∃ r, c.s.recFor (c.s.A a.toNat) = some r ∧ r.broken = false)
      [d.toNat] [] []
      (fun c e => (d ≠ 0#4 → (e.slot c.h c.n).A d.toNat = 1#64) ∧
        (e.slot c.h c.n).leases = c.s.leases.filter (fun x => x.va != lineOf (c.s.A a.toNat).toNat) ∧
        ∀ r, c.s.recFor (c.s.A a.toNat) = some r → ∃ g, g ∈ e.groups ∧
          g.lines = [⟨lineOf (c.s.A a.toNat).toNat, r.pa, r.shadow, r.mask, none⟩] ∧ g.fin = [.slot c.h c.n, .lease r.pa] ∧
          g.after = c.d.lastGroup c.h c.n) := by
  refine release_acts d a (fun _ h => h.1) (fun c hc ⟨⟨_, hkind, _⟩, r, hr, hb⟩ => ?_)
  obtain ⟨hleases, hkept, hA⟩ := c.s.released_spec (lineOf (c.s.A a.toNat).toNat) d 1#64
  obtain ⟨f, hf⟩ := c.s.recFor_stopBound (lineOf (c.s.A a.toNat).toNat) (c.s.A a.toNat)
  have hbroad : (c.releasing (lineOf (c.s.A a.toNat).toNat)).broadcastFin = [] := by
    unfold Ctx.broadcastFin
    rw [show (c.releasing (lineOf (c.s.A a.toNat).toNat)).s.kind = c.s.kind from rfl, if_neg (by simpa using hkind)]
  have hdv : ∃ dv : Dev, dv.slot c.h c.n = c.s.released (lineOf (c.s.A a.toNat).toNat) d 1#64 ∧ dv.groups = c.d.groups ∧
      Ctx.endRelease d (c.s.A a.toNat) (c.releasing (lineOf (c.s.A a.toNat).toNat)) = .done (dv.addGroup c.m
        [⟨lineOf (c.s.A a.toNat).toNat, r.pa, r.shadow, r.mask, none⟩] (dv.fnOf c.s.lk) c.h (dv.lastGroup c.h c.n) [.slot c.h c.n, .lease r.pa]) := by
    refine ⟨((c.releasing (lineOf (c.s.A a.toNat).toNat)).d.setSlot c.h c.n (c.s.released (lineOf (c.s.A a.toNat).toNat) d 1#64)).updCore c.h
      (fun k => k.dropLine (lineOf (c.s.A a.toNat).toNat)), ?_, rfl, ?_⟩
    · rw [Dev.slot_updCore_of (f := fun k => k.dropLine (lineOf (c.s.A a.toNat).toNat)) (fun _ _ => rfl), Dev.slot_setSlot_self]
    · unfold Ctx.endRelease
      rw [show (c.releasing (lineOf (c.s.A a.toNat).toNat)).s.recFor (c.s.A a.toNat) = _ from hf, hr]
      dsimp only [Option.map]
      rw [hb, hbroad]
      rfl
  obtain ⟨dv, hslot, hgroups, hend⟩ := hdv
  have haside := dv.aside_addGroup c.m [⟨lineOf (c.s.A a.toNat).toNat, r.pa, r.shadow, r.mask, none⟩] (dv.fnOf c.s.lk) c.h (dv.lastGroup c.h c.n)
    [.slot c.h c.n, .lease r.pa] c.h c.n
  rw [hslot] at haside
  refine ⟨_, hend, ⟨fun j hj => (haside.A j).trans (hkept.aregs j hj), fun j hj => (haside.V j).trans (hkept.vregs j hj),
    fun j hj => (haside.K j).trans (hkept.kregs j hj)⟩, fun hd => ?_, ?_, fun r' hr' => ?_⟩
  · rw [Ctx.finish_slot _ _ _ _ hc.step]
    exact (haside.A _).trans (hA hd)
  · rw [Ctx.finish_slot _ _ _ _ hc.step]
    exact haside.leases.trans hleases
  · obtain rfl : r = r' := Option.some.inj (hr.symm.trans hr')
    obtain ⟨g, hg, hl, hfin, haft⟩ := (Dev.addGroup_inFlight (ls := [⟨lineOf (c.s.A a.toNat).toNat, r.pa, r.shadow, r.mask, none⟩])
      (List.cons_ne_nil _ _) (by simp) dv c.m (dv.fnOf c.s.lk) c.h (dv.lastGroup c.h c.n) [.slot c.h c.n, .lease r.pa]).mem
    refine ⟨g, by rw [Ctx.finish_groups]; exact hg, hl, hfin, haft.trans ?_⟩
    unfold Dev.lastGroup Dev.slotGroups
    rw [hgroups]

/-- Settles O22. -/
theorem leasedData : Obligations.LeasedData := by
  refine ⟨fun km kz d x e base off l => ⟨?sld, ?sst, ?lstat, sld_traps kz d l⟩, fun d a => ⟨?sends, ?drops⟩⟩
  case sld =>
    intro s h n w hi hok
    obtain ⟨t, ht, honly, hkept, hpc, hlanes⟩ := sld_completes (km := km) (x := x) (base := base) (off := off) kz d s h n w hi hok
    refine ⟨t, ht, honly, hkept, hpc, fun j hj => (hlanes j hj).trans (congrArg (fun v => if ((s.ctx h n w).s.K km.toNat).getLsbD j then v
      else if kz then 0#32 else lane ((s.ctx h n w).s.V d.toNat) j) ?_)⟩
    unfold Slot.shadowWord
    dsimp only
    cases (s.ctx h n w).s.recFor ((s.ctx h n w).s.addr base x off 4 j) with
    | some r => rfl
    | none => rfl
  case sst => exact sst_acts d l
  case lstat =>
    have hstat : ∀ c : Ctx, ((c.s.recFor (c.s.A base.toNat)).map (fun r => r.stat c.d.clock)).getD 0#64 =
        match c.s.recFor (c.s.A base.toNat) with | some r => r.stat c.d.clock | none => 0#64 := by
      intro c
      cases c.s.recFor (c.s.A base.toNat) with
      | some r => rfl
      | none => rfl
    have hreads := lstat_reads (base := base) e
    simp only [hstat] at hreads
    exact hreads
  case sends =>
    intro s h n w hi ⟨⟨hq, hkind, hg⟩, hr⟩
    exact release_sends d a s h n w hi ⟨⟨hq, hkind, hg⟩, hr⟩
  case drops =>
    intro s h n w hi ⟨⟨hq, hkind, hg⟩, hr⟩
    exact release_drops d a s h n w hi ⟨⟨hq, hkind, hg⟩, hr⟩

/-! ### Atomics (R157) -/

/-- An access of right need stands at its home. -/
theorem Ctx.exclusive_mapped {c : Ctx} {a : W64} {pa : Nat} (hm : c.mapped [.r, .w, .a] a pa) :
    c.exclusive a = .at_ (.home pa) 0#1024 := by
  obtain ⟨hin, -, lf, hleaf, hprot, rfl⟩ := hm
  unfold Ctx.exclusive
  simp only [if_neg (Nat.not_le.mpr hin), hleaf, hprot]

/-- The amo as an outstanding instruction. -/
def Ctx.amoOp (c : Ctx) (op : AmoOp) (w64 : Bool) (d x : AReg) (a : W64) (pa : Nat) : LongOp :=
  ⟨c.d.count, c.s.pc, .amo op w64 (c.s.A x.toNat) (c.s.A d.toNat), [], [d.toNat], 0#16, false, [⟨0, 0, a, .home pa, 0#1024, 0#128, 0⟩], [], [], a,
    match c.d.lastGroup c.h c.n with | some g => BitVec.ofNat 64 (g + 1) | none => 0#64, false⟩

/-- The request of an amo leaves for its home. -/
theorem Ctx.ask_amo (c : Ctx) {x : Dev} {o : LongOp} (a : W64) (pa : Nat) {op : AmoOp} {w64 : Bool} {v w : W64} (hkind : o.kind = .amo op w64 v w) :
    (c.ask x o a (.home pa)).slot c.h c.n = { x.slot c.h c.n with ops := (x.slot c.h c.n).ops ++ [o] } ∧ (c.ask x o a (.home pa)).still = x.still ∧
      x.sends (c.ask x o a (.home pa)) (.leaseRequestArrival ⟨c.h, c.n, lineOf o.addr.toNat, lineOf pa, some o.id⟩) := by
  unfold Ctx.ask Dev.toHome
  dsimp only
  rw [hkind]
  dsimp only
  have hsend : ∀ (e : Dev) k v, (e.send k v).slot c.h c.n = e.slot c.h c.n := fun _ _ _ => rfl
  refine ⟨?_, rfl, Dev.sends_send_of rfl rfl 0 _⟩
  rw [hsend, Dev.slot_updSlot_self]

theorem amo_acts (la : BitVec 4) (op : AmoOp) (w64 : Bool) (d x base : AReg) (off : BitVec 24) (pa : Nat) :
    Acts (.amo la op w64 d x base off) ((useA [wa d, ra d, ra x, ra base]).long la)
      (fun c => c.sure ∧ c.openRecs = [] ∧ c.s.winStores = [] ∧ (c.s.addr1 base off).toNat % (if w64 then 8 else 4) = 0 ∧
        c.s.recFor (c.s.addr1 base off) = none ∧ c.mapped [.r, .w, .a] (c.s.addr1 base off) pa) [] [] []
      (fun c e => e.still = c.d.still ∧ ∃ o, (e.slot c.h c.n).ops = c.s.ops ++ [o] ∧ o.ad = [d.toNat] ∧
        o.kind = .amo op w64 (c.s.A x.toNat) (c.s.A d.toNat) ∧
        c.d.sends e (.leaseRequestArrival ⟨c.h, c.n, lineOf (c.s.addr1 base off).toNat, lineOf pa, some o.id⟩)) := by
  refine acts_of (fun _ => by unfold exec execAmo specForm; rfl) (fun c hc ⟨hsure, hopen, hwin, hal, hrec, hm⟩ => ?_)
  obtain ⟨hslot, hstill, due, chan, hdue, hnet⟩ := Ctx.ask_amo c (x := { c.d with count := c.d.count + 1 })
    (o := c.amoOp op w64 d x (c.s.addr1 base off) pa) (c.s.addr1 base off) pa rfl
  have hbefore : Dev.slot { c.d with count := c.d.count + 1 } c.h c.n = c.s := hc.own
  rw [hbefore] at hslot
  dsimp only
  rw [hsure.unspec, hm.2.1, hrec, Ctx.exclusive_mapped hm, hwin]
  unfold Ctx.close
  rw [hopen]
  simp only [hal, ne_eq, not_true_eq_false, Bool.false_eq_true, if_false, Option.isSome_none, List.isEmpty_nil, Bool.not_true, if_true]
  refine ⟨_, rfl, ?_, (Ctx.finish_still _ _ _ _).trans hstill, c.amoOp op w64 d x (c.s.addr1 base off) pa, ?_, rfl, rfl, due, chan, hdue, ?_⟩
  · exact KeptFiles.of_files (hslot ▸ rfl) (hslot ▸ rfl) (hslot ▸ rfl)
  · rw [Ctx.finish_slot _ _ _ _ hc.step]
    exact (congrArg Slot.ops hslot :)
  · exact (Ctx.finish_net _ _ _ _).trans hnet

/-- A group of one line of its own. -/
theorem Dev.addGroup_one (d : Dev) (m : Memory) {l : GLine} (hl : l.rec_ = none) (fn core : Nat) (after : Option Nat) (fin : List Fin) :
    ∃ g, g ∈ (d.addGroup m [l] fn core after fin).groups ∧ g.lines = [l] ∧ g.fin = fin ∧ g.after = after :=
  (Dev.addGroup_inFlight (List.cons_ne_nil l []) (by simp [hl]) d m fn core after fin).mem

/-- An amo's line is granted: the new value leaves as a group of one line. -/
theorem amoGrant_event (r : LeaseReq) (data : Line) (o : LongOp) (op : AmoOp) (id : Nat) (w : Bool) (X C : W64) : Event (.amoGrant r data)
    (fun _ d => r.amo = some id ∧ d.op? r.h r.n id = some o ∧ o.kind = .amo op w X C ∧ (d.slot r.h r.n).kind ≠ .ordered ∧
      d.linePoison.contains r.pa = false)
    (fun _ _ e => ∃ g, g ∈ e.groups ∧
      let at_ := o.addr.toNat % 128
      let old : W64 := if w then Line.w64 data at_ else (Line.w32 data at_).setWidth 64
      let new : Nat := if w then (amoValue 64 op old X C).toNat else (amoValue 32 op (Line.w32 data at_) (X.setWidth 32) (C.setWidth 32)).toNat
      g.lines = [⟨r.va, r.pa, BitVec.ofNat 1024 (new * 2 ^ (8 * at_)), BitVec.ofNat 128 ((2 ^ (if w then 8 else 4) - 1) * 2 ^ at_), none⟩] ∧
      g.fin = [.slot r.h r.n, .amo r.h r.n o.id old r.pa]) := by
  intro s ⟨hamo, hop, hkind, hord, hpoison⟩
  refine ⟨_, rfl, fun _ => rfl, ?_⟩
  have hk : ((s.dev.slot r.h r.n).kind == .ordered) = false := by simpa using hord
  dsimp only
  rw [hamo, Option.bind_some, hop]
  dsimp only
  rw [hpoison, hkind, hk]
  simp only [Bool.false_eq_true, if_false]
  refine Exists.imp (fun g h => ⟨h.1, h.2.1.trans ?_, h.2.2.1⟩) (Dev.addGroup_one _ _ ?_ _ _ _ _)
  · rfl
  · cases w <;> rfl

theorem amoValue_min {n : Nat} (y z c : BitVec n) : (amoValue n .min y z c).toInt = min y.toInt z.toInt ∧
    (amoValue n .max y z c).toInt = max y.toInt z.toInt ∧ (amoValue n .minu y z c).toNat = min y.toNat z.toNat ∧
    (amoValue n .maxu y z c).toNat = max y.toNat z.toNat := by
  refine ⟨?_, ?_, ?_, ?_⟩ <;> unfold amoValue <;> dsimp only <;> split <;> omega

/-- Settles O23. -/
theorem atomics : Obligations.Atomics :=
  fun la op w64 d x base off pa r data o => ⟨amo_acts la op w64 d x base off pa, fun id w X C => amoGrant_event r data o op id w X C,
    fun n y z c => ⟨rfl, rfl, rfl, rfl, (amoValue_min y z c).1, (amoValue_min y z c).2.1, (amoValue_min y z c).2.2.1, (amoValue_min y z c).2.2.2, rfl, rfl⟩⟩

/-! ### Fences, commit and isync (R158 to R160, R166, R167) -/

/-- A form that changes its slot and its core completes there. -/
theorem Ctx.onlyOwn_of_ownCore {c : Ctx} {d : Dev} {k : Core} {strip : Core → Core} (h : c.d.CoreIs d c.h k)
    (hslot : ∀ m, m ≠ c.n → k.slot m = (c.d.core c.h).slot m) (hstrip : strip k.bare = strip (c.d.core c.h).bare) : c.OnlyOwn d strip := by
  refine ⟨fun j n hne => ?_, h.others, by rw [h.core, hstrip], h.dev⟩
  by_cases hj : j = c.h
  · rw [hj, Dev.slot, h.core, hslot n (fun hn => hne ⟨hj, hn⟩)]
    rfl
  · rw [Dev.slot, h.others j hj]
    rfl

theorem Core.bare_updSlot (k : Core) (n : Nat) (f : Slot → Slot) : (k.updSlot n f).bare = k.bare := by
  unfold Core.updSlot
  split <;> rfl

/-- A core whose L1 was perhaps acquired. -/
def Core.fenced (k : Core) (drops : Bool) : Core := if drops then k.acquire else k

theorem Core.fenced_slot (k : Core) (drops : Bool) (m : Nat) : (k.fenced drops).slot m = k.slot m := by
  unfold Core.fenced
  split <;> rfl

theorem Core.fenced_bare {k p : Core} (hp : p.bare = k.bare) (drops : Bool) :
    ({ (p.fenced drops).bare with l1 := .empty } : Core) = { k.bare with l1 := .empty } := by
  rw [← hp]
  unfold Core.fenced
  split <;> rfl

theorem AMap.find?_eq_map {α : Type} (m : AMap α) (a : Nat) : m.find? a = (m.ents.find? (fun e => e.1 == a)).map (·.2) := by
  unfold AMap.find?
  cases m.ents.find? (fun e => e.1 == a) with
  | some e => rfl
  | none => rfl

/-- A line in the L1 after an acquire is sealed. -/
theorem AMap.find?_sealed {m : AMap CLine} {a : Nat} {x : CLine}
    (h : (⟨m.ents.filter (fun e => e.2.sealed_)⟩ : AMap CLine).find? a = some x) : x.sealed_ = true := by
  rw [AMap.find?_eq_map] at h
  obtain ⟨e, he, rfl⟩ := Option.map_eq_some_iff.mp h
  exact (List.mem_filter.mp (List.mem_of_find?_eq_some he)).2

/-- An acquire keeps the sealed lines. -/
theorem AMap.find?_keeps_sealed {m : AMap CLine} {a : Nat} {x : CLine} (h : m.find? a = some x) (hs : x.sealed_ = true) :
    (⟨m.ents.filter (fun e => e.2.sealed_)⟩ : AMap CLine).find? a = some x := by
  rw [AMap.find?_eq_map] at h ⊢
  obtain ⟨e, he, rfl⟩ := Option.map_eq_some_iff.mp h
  refine Option.map_eq_some_iff.mpr ⟨e, ?_, rfl⟩
  obtain ⟨hp, as, bs, hsplit, has⟩ := List.find?_eq_some_iff_append.mp he
  rw [hsplit, List.filter_append, List.find?_append, List.find?_eq_none.mpr fun y hy => ?_, List.filter_cons, if_pos hs, List.find?_cons, hp]
  · rfl
  · simpa using has y (List.mem_filter.mp hy).1

/-- What a fence leaves in the L1. -/
theorem Core.fenced_l1 {k p k' : Core} {drops : Bool} (hp : p.bare = k.bare) (h : k'.bare = (p.fenced drops).bare) :
    (∀ a l, k'.l1.find? a = some l → drops = false ∨ l.sealed_ = true) ∧
      ∀ a l, k.l1.find? a = some l → (drops = false ∨ l.sealed_ = true) → k'.l1.find? a = some l := by
  have hput : p.l1 = k.l1 := (congrArg Core.l1 hp :)
  have hl1 : k'.l1 = (p.fenced drops).l1 := (congrArg Core.l1 h :)
  rw [hl1]
  cases drops with
  | false => exact ⟨fun _ _ _ => Or.inl rfl, fun a l hl _ => hput ▸ hl⟩
  | true =>
    have hacq : (p.fenced true).l1 = ⟨k.l1.ents.filter (fun e => e.2.sealed_)⟩ := by rw [← hput]; rfl
    rw [hacq]
    exact ⟨fun a l hl => Or.inr (AMap.find?_sealed hl), fun a l hl hs => AMap.find?_keeps_sealed hl (hs.resolve_left Bool.noConfusion)⟩

/-- A fence has ended in d: of its core only the L1 changed, of its slot nothing that is seen. -/
structure Ctx.Fenced (c : Ctx) (d : Dev) (drops : Bool) : Prop where
  core : ∃ p : Core, c.d.CoreIs d c.h (p.fenced drops) ∧ p.bare = (c.d.core c.h).bare ∧ (∀ m, m ≠ c.n → p.slot m = (c.d.core c.h).slot m)
  slot : KeptRegs c.s (d.slot c.h c.n) [] [] []

/-- An acquire once no load is outstanding. -/
theorem Ctx.acquire_done {c : Ctx} (hload : c.s.loading = false) (drops : Bool) :
    c.acquire drops (fun c => .done c.d) = .done (if drops then c.d.updCore c.h Core.acquire else c.d) := by
  unfold Ctx.acquire
  rw [hload]
  cases drops <;> rfl

theorem Dev.CoreIs.fenced {d e : Dev} {h : Nat} {p : Core} (he : d.CoreIs e h p) (drops : Bool) :
    d.CoreIs (if drops then e.updCore h Core.acquire else e) h (p.fenced drops) := by
  cases drops with
  | true => exact he.updCore Core.acquire
  | false => exact he

theorem Dev.slot_fenced (d : Dev) (h n : Nat) (drops : Bool) : (if drops then d.updCore h Core.acquire else d).slot h n = d.slot h n := by
  cases drops with
  | true => exact Dev.slot_updCore_of (f := Core.acquire) (fun _ _ => rfl) d h h n
  | false => rfl

theorem Ctx.fenced_own {c : Ctx} (hc : c.Ready) (drops : Bool) : c.Fenced (if drops then c.d.updCore c.h Core.acquire else c.d) drops :=
  ⟨⟨_, (Dev.CoreIs.refl c.d c.h).fenced drops, rfl, fun _ _ => rfl⟩, by rw [Dev.slot_fenced, hc.own]; exact .refl _⟩

theorem Ctx.fenced_closed (c : Ctx) (drops : Bool) :
    c.Fenced (if drops then (c.d.setSlot c.h c.n { c.s with closed := true }).updCore c.h Core.acquire else c.d.setSlot c.h c.n { c.s with closed := true })
      drops := by
  refine ⟨⟨_, ((Dev.CoreIs.refl c.d c.h).updCore (fun k => k.updSlot c.n (fun _ => { c.s with closed := true }))).fenced drops,
    Core.bare_updSlot _ _ _, fun m hm => Core.slot_updSlot_ne _ _ _ _ hm⟩, ?_⟩
  rw [Dev.slot_fenced, Dev.slot_setSlot_self]
  exact ⟨fun _ _ => rfl, fun _ _ => rfl, fun _ _ => rfl, rfl, rfl⟩

theorem fence_body {c : Ctx} (hc : c.Ready) (hq : c.quiet) (hload : c.s.loading = false) (sem : Sem) (scope : Scope) :
    ∃ d, (match sem with
      | .acq => c.acquire (scopeDrops scope) (fun c => .done c.d)
      | .rel => c.unspec (fun c => c.release (fun c => .done c.d))
      | .full => c.unspec (fun c => c.release (fun c => c.acquire (scopeDrops scope) (fun c => .done c.d)))) = .done d ∧
      c.Fenced d (sem != .rel && scopeDrops scope) := by
  cases sem with
  | acq => exact ⟨_, Ctx.acquire_done hload _, c.fenced_own hc _⟩
  | rel =>
    refine ⟨_, ?_, c.fenced_closed false⟩
    dsimp only
    rw [hq.sure.unspec, hq.release hc]
    rfl
  | full =>
    refine ⟨_, ?_, c.fenced_closed (scopeDrops scope)⟩
    dsimp only
    rw [hq.sure.unspec, hq.release hc]
    exact Ctx.acquire_done (c := { c with d := c.d.setSlot c.h c.n { c.s with closed := true }, s := { c.s with closed := true } }) hload _

/-- Settles O24. -/
theorem fencesCommitIsync : Obligations.FencesCommitIsync := by
  refine fun sem scope => ⟨?fence, ?commit, ?isync⟩
  case fence =>
    have hkeeps : ∀ x : CLine, ((sem != .rel && scopeDrops scope) = false ∨ x.sealed_ = true) ↔ (scope = .core ∨ sem = .rel ∨ x.sealed_ = true) := by
      intro x
      cases sem <;> cases scope <;> simp [scopeDrops]
    refine completesOnCore_of (fun _ => by unfold exec execFence; rfl) (fun c hc ⟨hq, hload⟩ => ?_)
    obtain ⟨d, hd, ⟨p, hcore, hbare, hslots⟩, hslot⟩ := fence_body hc hq hload sem scope
    refine ⟨d, hd, Ctx.onlyOwn_of_ownCore hcore (fun m hm => (Core.fenced_slot _ _ _).trans (hslots m hm)) (Core.fenced_bare hbare _), hslot, fun k hk => ?_⟩
    rw [hcore.core] at hk
    obtain ⟨hleft, hkept⟩ := Core.fenced_l1 hbare hk
    exact ⟨fun a x hx => (hkeeps x).mp (hleft a x hx), fun a x hx hs => hkept a x hx ((hkeeps x).mpr hs)⟩
  case commit =>
    refine completesWhen_of (fun _ => by unfold exec execCommit; rfl) (fun c hc h => ⟨c.d, c.s, c.s.pc + 8#64, ?_, .refl hc, .refl _, rfl⟩)
    have hdone : (if c.s.spec then Res.done c.d else c.close (fun d => .done d)) = .done c.d := by
      split
      · rfl
      · next hs =>
        unfold Ctx.close
        rw [h.resolve_right hs]
        rfl
    rw [hdone]
    rfl
  case isync =>
    have hstrip : ∀ p k : Core, p.bare = k.bare → ({ ({ p with ic := .empty } : Core).bare with ic := .empty } : Core) = { k.bare with ic := .empty } :=
      fun _ _ h => (congrArg (fun c : Core => ({ c with ic := .empty } : Core)) h :)
    refine completesOnCore_of (fun _ => by unfold exec execIsync; rfl) (fun c hc h => ?_)
    have hcore := ((Dev.CoreIs.refl c.d c.h).updCore (fun k => k.updSlot c.n (fun _ => { c.s with stream := [] }))).updCore (fun k => { k with ic := .empty })
    rw [h]
    simp only [List.isEmpty_nil, Bool.not_true, Bool.false_eq_true, if_false]
    have hslot : ((c.d.setSlot c.h c.n { c.s with stream := [] }).updCore c.h (fun k => { k with ic := .empty })).slot c.h c.n = { c.s with stream := [] } := by
      rw [Dev.slot_updCore_of (f := fun k => { k with ic := .empty }) (fun _ _ => rfl), Dev.slot_setSlot_self]
    refine ⟨_, rfl, Ctx.onlyOwn_of_ownCore hcore (fun m hm => Core.slot_updSlot_ne _ _ _ _ hm) ?_, ?_, fun k hk => ?_⟩
    · exact hstrip _ _ ((c.d.core c.h).bare_updSlot c.n (fun _ => { c.s with stream := [] }))
    · rw [hslot]
      exact ⟨fun _ _ => rfl, fun _ _ => rfl, fun _ _ => rfl, rfl, rfl⟩
    · rw [hslot]
      refine ⟨?_, rfl⟩
      have hic := congrArg Core.ic hk
      exact hic.trans (congrArg Core.ic (Dev.core_updCore_self (c.d.setSlot c.h c.n { c.s with stream := [] }) c.h (fun k => { k with ic := .empty })) :)

end Sys2Proof.Machine
end

section
/-! PROOFS. Barriers (R176 to R180). -/

namespace Sys2Proof.Machine

/-! ### One barrier of a core (R176, R177) -/

theorem Core.bar_setBar (k : Core) (b j : Nat) (x : Bar) : (k.setBar b x).bar j = if j = b then x else k.bar j := by
  unfold Core.setBar Core.bar
  dsimp only
  split
  · next hx => rw [AMap.get_erase, hx, if_congr eq_comm rfl rfl]
  · next hx =>
    split
    · next hj => rw [hj, AMap.get_put_self]
    · next hj => rw [AMap.get_put_ne _ _ _ _ _ hj]

theorem Core.bar_of_bare {k p : Core} (h : k.bare = p.bare) : k.bar = p.bar :=
  funext fun j => (congrArg (fun c : Core => c.bars.get .init j) h :)

/-- A barrier after its test, where no drain is reported. -/
theorem Bar.test_fst (y : Bar) : (y.test false).1 =
    if y.pend = 0 ∧ y.exp ≠ 0#16 ∧ y.exp.toNat ≤ y.arr.toNat then { y with arr := y.arr - y.exp, ph := !y.ph } else y := by
  have hiff : (y.pend = 0 ∧ y.exp.toNat ≤ y.arr.toNat ∧ (y.exp ≠ 0#16 ∨ false = true)) ↔ (y.pend = 0 ∧ y.exp ≠ 0#16 ∧ y.exp.toNat ≤ y.arr.toNat) := by
    simp only [Bool.false_eq_true, or_false]
    exact and_congr_right fun _ => and_comm
  unfold Bar.test
  split
  · next h => rw [if_pos (hiff.mp h)]
  · next h => rw [if_neg (fun g => h (hiff.mpr g))]

/-- A step of a barrier changes its core alone, and there the barrier alone. -/
theorem Dev.barStep_spec (d : Dev) (h b : Nat) (f : Bar → Bar) (drain : Bool) : ∃ k, d.CoreIs (d.barStep h b f drain) h k ∧
    ({ k.bare with bars := .empty } : Core) = { (d.core h).bare with bars := .empty } ∧
    ∀ j, k.bar j = if j = b then ((f ((d.core h).bar b)).test drain).1 else (d.core h).bar j := by
  have hset := (Dev.CoreIs.refl d h).updCore (fun k => k.setBar b ((f ((d.core h).bar b)).test drain).1)
  unfold Dev.barStep
  dsimp only
  split
  · exact ⟨_, hset.updCore _, rfl, fun j => Core.bar_setBar _ _ _ _⟩
  · exact ⟨_, hset, rfl, fun j => Core.bar_setBar _ _ _ _⟩

theorem Dev.net_barStep (d : Dev) (h b : Nat) (f : Bar → Bar) (drain : Bool) : (d.barStep h b f drain).net = d.net := by
  unfold Dev.barStep
  dsimp only
  split <;> rfl

theorem Dev.clock_barStep (d : Dev) (h b : Nat) (f : Bar → Bar) (drain : Bool) : (d.barStep h b f drain).clock = d.clock := by
  unfold Dev.barStep
  dsimp only
  split <;> rfl

theorem Dev.aside_updCore {d : Dev} {h : Nat} {f : Core → Core} (hf : ∀ c n, (f c).slot n = c.slot n) : d.Aside (d.updCore h f) :=
  .of_slots fun _ _ => Dev.slot_updCore_of hf _ _ _ _

theorem Dev.aside_barStep (d : Dev) (h b : Nat) (f : Bar → Bar) (drain : Bool) : d.Aside (d.barStep h b f drain) := by
  have hset : ∀ x, d.Aside (d.updCore h (fun k => k.setBar b x)) := fun x => Dev.aside_updCore (f := fun k => k.setBar b x) (fun _ _ => rfl)
  unfold Dev.barStep
  dsimp only
  split
  · exact (hset _).trans (Dev.aside_wake _ _ (fun _ _ w => w == .barrier b) (fun _ _ => rfl))
  · exact hset _

/-- The end of an issue that changed its own core alone. -/
theorem Ctx.onlyCore_finish {c : Ctx} (hc : c.Ready) {d : Dev} {k : Core} (h : c.d.CoreIs d c.h k) (u : Use) (next : W64) :
    OnlyCore c.d (c.finish u d next) c.h :=
  ⟨fun j hj => (Ctx.finish_core_ne _ _ _ _ hc.step j hj).trans (h.others j hj), (Ctx.finish_still _ _ _ _).trans
    (congrArg (fun e : Dev => e.still) h.dev :)⟩

/-- The core of an issue at its end. -/
theorem Ctx.bar_finish {c : Ctx} (hc : c.Ready) (d : Dev) (u : Use) (next : W64) (h : Nat) : ((c.finish u d next).core h).bar = (d.core h).bar :=
  Core.bar_of_bare (Ctx.finish_core_bare _ _ _ _ hc.step h)

theorem Bar.check_own {x : Bar} {lk : Nat} (h : x.owner = some lk) : x.check lk = 0 := by
  unfold Bar.check
  rw [h]
  simp

theorem Bar.check_none {x : Bar} {lk : Nat} (h : x.owner = none) : x.check lk = 1 := by
  unfold Bar.check
  rw [h]

/-- A form on a barrier of its launch. -/
theorem Ctx.onBar_own {c : Ctx} {b : Nat} (h : ((c.d.core c.h).bar b).owner = some c.s.lk) (k : Bar → Res) :
    c.onBar b k = k ((c.d.core c.h).bar b) := if_pos (Bar.check_own h)

/-- A form on a barrier of no launch. -/
theorem Ctx.onBar_none {c : Ctx} {b : Nat} (h : ((c.d.core c.h).bar b).owner = none) (k : Bar → Res) :
    c.onBar b k = c.faultAt 0x40 1 (BitVec.ofNat 64 b) := by
  unfold Ctx.onBar
  dsimp only
  rw [Bar.check_none h]
  rfl

theorem extractLsb'_16_48 {v : W64} : v.extractLsb' 16 48 = 0#48 ↔ v.toNat < 2 ^ 16 := by
  rw [← BitVec.toNat_inj]
  simp only [BitVec.extractLsb'_toNat, BitVec.toNat_ofNat, Nat.shiftRight_eq_div_pow]
  have := v.isLt
  omega

theorem setWidth_16 (v : W64) : v.setWidth 16 = BitVec.ofNat 16 v.toNat := by
  apply BitVec.eq_of_toNat_eq
  simp

/-! ### bini, bexp, bclr, bphs (R180) -/

section
variable (bar : BitVec 9) (a : AReg)

/-- A form that sets its barrier completes on its core. -/
theorem setBar_completes {i : Instr} {u : Use} {body : Ctx → Res} {pre : Ctx → Prop} (b : Nat) (x : Ctx → Bar) (he : ∀ s, exec i s = thread u body s)
    (hb : ∀ c, pre c → body c = .done (c.d.updCore c.h (fun k => k.setBar b (x c)))) :
    CompletesOnCore i u pre [] [] [] (fun k => { k with bars := .empty })
      (fun c k _ => k.bar b = x c ∧ ∀ j, j ≠ b → k.bar j = (c.d.core c.h).bar j) := by
  refine completesOnCore_of he (fun c hc hp => ⟨_, hb c hp, ?_, ?_, fun k hk => ?_⟩)
  · exact Ctx.onlyOwn_of_ownCore ((Dev.CoreIs.refl _ _).updCore _) (fun _ _ => rfl) rfl
  · rw [Dev.slot_updCore_of (f := fun k => k.setBar b (x c)) (fun _ _ => rfl), hc.own]
    exact .refl _
  · rw [Core.bar_of_bare hk, Dev.core_updCore_self]
    exact ⟨by rw [Core.bar_setBar, if_pos rfl], fun j hj => by rw [Core.bar_setBar, if_neg hj]⟩

theorem bini_completes : CompletesOnCore (.bini bar a) (useA [ra a])
    (fun c => (c.s.A a.toNat).toNat < 2 ^ 16 ∧ (((c.d.core c.h).bar bar.toNat).owner = none ∨ ((c.d.core c.h).bar bar.toNat).owner = some c.s.lk ∧
      (c.d.core c.h).barWaited bar.toNat = false ∧ ((c.d.core c.h).bar bar.toNat).pend = 0)) [] [] [] (fun k => { k with bars := .empty })
    (fun c k _ => k.bar bar.toNat = ⟨BitVec.ofNat 16 (c.s.A a.toNat).toNat, 0, ((c.d.core c.h).bar bar.toNat).pend,
      ((c.d.core c.h).bar bar.toNat).ph, false, 0, 0, some c.s.lk⟩ ∧ ∀ j, j ≠ bar.toNat → k.bar j = (c.d.core c.h).bar j) := by
  refine setBar_completes bar.toNat _ (fun _ => by unfold exec execBini; rfl) (fun c ⟨hv, ho⟩ => ?_)
  dsimp only
  rw [← setWidth_16]
  have hcheck : ((c.d.core c.h).bar bar.toNat).check c.s.lk ≠ 2 := by
    rcases ho with ho | ⟨ho, -⟩
    · rw [Bar.check_none ho]; decide
    · rw [Bar.check_own ho]; decide
  have hidle : (((c.d.core c.h).bar bar.toNat).owner.isSome && ((c.d.core c.h).barWaited bar.toNat || ((c.d.core c.h).bar bar.toNat).pend != 0)) = false := by
    rcases ho with ho | ⟨ho, hw, hp⟩
    · rw [ho]; rfl
    · rw [hw, hp]; simp
  rw [if_neg hcheck, hidle, if_neg Bool.false_ne_true, if_neg (fun h => h (extractLsb'_16_48.mpr hv))]

theorem bclr_completes : CompletesOnCore (.bclr bar) (useA [])
    (fun c => ((c.d.core c.h).bar bar.toNat).owner = some c.s.lk ∧ (c.d.core c.h).barWaited bar.toNat = false ∧ ((c.d.core c.h).bar bar.toNat).pend = 0)
    [] [] [] (fun k => { k with bars := .empty }) (fun c k _ => k.bar bar.toNat = .init ∧ ∀ j, j ≠ bar.toNat → k.bar j = (c.d.core c.h).bar j) := by
  refine setBar_completes bar.toNat _ (fun _ => by unfold exec execBclr; rfl) (fun c ⟨ho, hw, hp⟩ => ?_)
  rw [Ctx.onBar_own ho, hw, hp]
  rfl

theorem bexp_acts : Acts (.bexp bar a) (useA [ra a])
    (fun c => ((c.d.core c.h).bar bar.toNat).owner = some c.s.lk ∧ (c.s.A a.toNat).toNat < 2 ^ 16) [] [] []
    (fun c e => OnlyCore c.d e c.h ∧ (∀ j, j ≠ bar.toNat → (e.core c.h).bar j = (c.d.core c.h).bar j) ∧
      let y : Bar := { (c.d.core c.h).bar bar.toNat with exp := BitVec.ofNat 16 (c.s.A a.toNat).toNat }
      (e.core c.h).bar bar.toNat = if y.pend = 0 ∧ y.exp ≠ 0#16 ∧ y.exp.toNat ≤ y.arr.toNat then { y with arr := y.arr - y.exp, ph := !y.ph } else y) := by
  refine acts_of (fun _ => by unfold exec execBexp; rfl) (fun c hc ⟨ho, hv⟩ => ?_)
  obtain ⟨k, hk, -, hbar⟩ := c.d.barStep_spec c.h bar.toNat (fun x => { x with exp := (c.s.A a.toNat).setWidth 16 }) false
  refine ⟨_, ?_, ?_, Ctx.onlyCore_finish hc hk _ _, fun j hj => ?_, ?_⟩
  · exact (Ctx.onBar_own ho _).trans (if_neg (fun h => h (extractLsb'_16_48.mpr hv)))
  · have h := hc.own ▸ c.d.aside_barStep c.h bar.toNat (fun x => { x with exp := (c.s.A a.toNat).setWidth 16 }) false c.h c.n
    exact ⟨fun j _ => h.A j, fun j _ => h.V j, fun j _ => h.K j⟩
  · rw [Ctx.bar_finish hc, hk.core, hbar, if_neg hj]
  · dsimp only
    rw [Ctx.bar_finish hc, hk.core, hbar, if_pos rfl, Bar.test_fst, setWidth_16]

end

theorem toNat_append_add {m n : Nat} (x : BitVec m) (y : BitVec n) : (x ++ y).toNat = x.toNat * 2 ^ n + y.toNat := by
  rw [BitVec.toNat_append, ← Nat.shiftLeft_add_eq_or_of_lt y.isLt, Nat.shiftLeft_eq]

/-- A number written in the fields of a barrier's word 0. -/
theorem toNat_barFields (det code arr : BitVec 16) (gap : BitVec 13) (o e p : BitVec 1) : (det ++ code ++ arr ++ gap ++ o ++ e ++ p).toNat =
    p.toNat + 2 * e.toNat + 4 * o.toNat + 8 * gap.toNat + 2 ^ 16 * arr.toNat + 2 ^ 32 * code.toNat + 2 ^ 48 * det.toNat := by
  simp only [toNat_append_add]
  omega

theorem Bar.word0_owned (x : Bar) (ho : x.owner.isSome = true) : x.word0 = BitVec.ofNat 64 ((if x.ph then 1 else 0) + (if x.err then 2 else 0) + 4 +
    2 ^ 16 * x.arr.toNat + 2 ^ 32 * x.code.toNat + 2 ^ 48 * x.det.toNat) := by
  apply BitVec.eq_of_toNat_eq
  have hword : x.word0.toNat = _ := toNat_barFields x.det x.code x.arr 0#13 (BitVec.ofBool x.owner.isSome) (BitVec.ofBool x.err) (BitVec.ofBool x.ph)
  have := x.arr.isLt
  have := x.code.isLt
  have := x.det.isLt
  rw [hword, ho, BitVec.toNat_ofNat]
  cases x.ph <;> cases x.err <;> simp <;> omega

theorem toNat_append3 (a : BitVec 16) (b : BitVec 32) (c : BitVec 16) : (a ++ b ++ c).toNat = c.toNat + 2 ^ 16 * b.toNat + 2 ^ 48 * a.toNat := by
  simp only [toNat_append_add]
  omega

theorem Bar.word1_eq (x : Bar) : x.word1 = BitVec.ofNat 64 (x.exp.toNat + 2 ^ 16 * (x.pend % 2 ^ 32)) := by
  apply BitVec.eq_of_toNat_eq
  have hword : x.word1.toNat = _ := toNat_append3 0#16 (BitVec.ofNat 32 x.pend) x.exp
  have := x.exp.isLt
  rw [hword, BitVec.toNat_ofNat, BitVec.toNat_ofNat]
  simp
  omega

theorem bphs_reads (bar : BitVec 9) (part : Bool) (d : AReg) : ReadsA (.bphs bar part d) (useA [wa d])
    (fun c => ((c.d.core c.h).bar bar.toNat).owner = some c.s.lk) d (fun c =>
      if part then BitVec.ofNat 64 (((c.d.core c.h).bar bar.toNat).exp.toNat + 2 ^ 16 * (((c.d.core c.h).bar bar.toNat).pend % 2 ^ 32))
      else BitVec.ofNat 64 ((if ((c.d.core c.h).bar bar.toNat).ph then 1 else 0) + (if ((c.d.core c.h).bar bar.toNat).err then 2 else 0) + 4 +
        2 ^ 16 * ((c.d.core c.h).bar bar.toNat).arr.toNat + 2 ^ 32 * ((c.d.core c.h).bar bar.toNat).code.toNat +
        2 ^ 48 * ((c.d.core c.h).bar bar.toNat).det.toNat)) := by
  refine completesWhen_of (fun _ => by unfold exec execBphs; rfl) (fun c hc ho => ⟨_, _, c.s.pc + 8#64, ?_, .setSlot c _, KeptRegs.setA _ _ _, rfl,
    Slot.A_setA_self _ _ _⟩)
  rw [Ctx.onBar_own ho, Bar.word1_eq, Bar.word0_owned _ (by rw [ho]; rfl)]
  rfl

/-! ### Arrivals (R177, R180) -/

/-- An arrival that counts. -/
theorem Dev.arriveAt_counts {d : Dev} {t b h n : Nat} (hs : d.isSaved (d.slot h n).lk t = false)
    (ho : ((d.core t).bar b).owner = some (d.slot h n).lk) (ha : ((d.core t).bar b).arr ≠ 0xFFFF#16) :
    d.arriveAt t b h n = (d.barStep t b (fun x => { x with arr := x.arr + 1 }) false).send 0 (.barrierAck h n 0) := by
  unfold Dev.arriveAt
  dsimp only
  rw [hs, if_neg Bool.false_ne_true, Bar.check_own ho, if_neg (fun h => h rfl), if_neg ha]

/-- An arrival at a barrier that nobody owns. -/
theorem Dev.arriveAt_refused {d : Dev} {t b h n : Nat} (hs : d.isSaved (d.slot h n).lk t = false) (ho : ((d.core t).bar b).owner = none) :
    d.arriveAt t b h n = d.send 0 (.barrierAck h n 1) := by
  unfold Dev.arriveAt
  dsimp only
  rw [hs, if_neg Bool.false_ne_true, Bar.check_none ho, if_pos (by decide)]

theorem Dev.aside_arriveAt (d : Dev) (t b h n : Nat) : d.Aside (d.arriveAt t b h n) := by
  unfold Dev.arriveAt
  dsimp only
  split
  · exact Dev.aside_later _ _ _
  · split
    · exact Dev.aside_send _ _ _
    · split
      · exact Dev.aside_send _ _ _
      · exact (Dev.aside_barStep _ _ _ _ _).trans (Dev.aside_send _ _ _)

theorem Dev.coming_send (d : Dev) (chan : Nat) (e : Ev) : (d.send chan e).coming d.clock e := by
  obtain ⟨due, ch, hdue, hnet⟩ := d.sends_send chan e
  exact ⟨_, hnet ▸ List.mem_append_right _ (List.mem_singleton.mpr rfl), rfl, hdue⟩

/-- What an arrival that counts leaves of its barrier, and what it sends. -/
theorem Dev.counted_spec (d : Dev) (t b h n : Nat) : let y : Bar := { (d.core t).bar b with arr := ((d.core t).bar b).arr + 1 }
    let e := (d.barStep t b (fun x => { x with arr := x.arr + 1 }) false).send 0 (.barrierAck h n 0)
    (e.core t).bar b = (if y.pend = 0 ∧ y.exp ≠ 0#16 ∧ y.exp.toNat ≤ y.arr.toNat then { y with arr := y.arr - y.exp, ph := !y.ph } else y) ∧
      e.coming d.clock (.barrierAck h n 0) := by
  obtain ⟨k, hk, -, hbar⟩ := d.barStep_spec t b (fun x => { x with arr := x.arr + 1 }) false
  refine ⟨?_, Dev.clock_barStep d t b (fun x => { x with arr := x.arr + 1 }) false ▸ Dev.coming_send _ _ _⟩
  have hb := hbar b
  rw [if_pos rfl, Bar.test_fst, ← hk.core] at hb
  exact hb

theorem barrierArrival_counts (t b h n : Nat) : Event (.barrierArrival t b h n)
    (fun _ d => d.isSaved (d.slot h n).lk t = false ∧ ((d.core t).bar b).owner = some (d.slot h n).lk ∧ ((d.core t).bar b).arr ≠ 0xFFFF#16)
    (fun _ d e => let y : Bar := { (d.core t).bar b with arr := ((d.core t).bar b).arr + 1 }
      (e.core t).bar b = (if y.pend = 0 ∧ y.exp ≠ 0#16 ∧ y.exp.toNat ≤ y.arr.toNat then { y with arr := y.arr - y.exp, ph := !y.ph } else y) ∧
      e.coming d.clock (.barrierAck h n 0)) := by
  intro s ⟨hs, ho, ha⟩
  refine ⟨_, rfl, fun _ => rfl, ?_⟩
  dsimp only
  rw [Dev.arriveAt_counts hs ho ha]
  exact s.dev.counted_spec t b h n

theorem barrierArrival_refused (t b h n : Nat) : Event (.barrierArrival t b h n)
    (fun _ d => d.isSaved (d.slot h n).lk t = false ∧ ((d.core t).bar b).owner = none)
    (fun _ d e => d.sends e (.barrierAck h n 1) ∧ (e.core t).bar b = (d.core t).bar b) := by
  intro s ⟨hs, ho⟩
  refine ⟨_, rfl, fun _ => rfl, ?_⟩
  dsimp only
  rw [Dev.arriveAt_refused hs ho]
  exact ⟨Dev.sends_send _ _ _, rfl⟩

theorem Dev.reply_wakeSlot (d : Dev) (h n : Nat) (p : WaitFor → Bool) (j m : Nat) : ((d.wakeSlot h n p).slot j m).reply = (d.slot j m).reply := by
  unfold Dev.wakeSlot
  split
  · split
    · unfold Dev.ready
      by_cases hj : j = h ∧ m = n
      · obtain ⟨rfl, rfl⟩ := hj
        rw [Dev.slot_updSlot_self]
        rfl
      · rw [Dev.slot_updSlot_ne _ _ _ _ _ _ hj]
    · rfl
  · rfl

/-- A slot that presents a request takes its answer. -/
theorem Dev.reply_reply {d : Dev} {h n : Nat} (hh : h < nCores) (hr : (d.slot h n).reply ≠ .stale) (r : Reply) :
    ((d.reply h n r).slot h n).reply = r := by
  unfold Dev.reply
  rw [if_neg (by omega), if_neg (by simpa using hr), Dev.reply_wakeSlot, Dev.slot_updSlot_self]

theorem barrierAck_answers (h n sub : Nat) : Event (.barrierAck h n sub) (fun _ d => (d.slot h n).reply = .sent ∧ h < nCores)
    (fun _ _ e => (e.slot h n).reply = if sub = 0 then .done 0#64 else .fail 0x40 sub) := by
  intro s ⟨hr, hh⟩
  refine ⟨_, rfl, fun _ => rfl, ?_⟩
  dsimp only
  rw [hr]
  exact Dev.reply_reply hh (by rw [hr]; exact Reply.noConfusion) _

/-! ### barr (R180) -/

/-- A barr names a core of its launch. -/
structure Ctx.BarrOk (c : Ctx) (a : AReg) : Prop where
  sure : c.sure
  low : (if a = 0#4 then c.h else (c.s.A a.toNat).toNat) < 4096
  has : ∃ l, c.d.launch? c.s.lk = some l ∧ l.has (if a = 0#4 then c.h else (c.s.A a.toNat).toNat) = true

section
variable {c : Ctx} {a : AReg} {bar : BitVec 9}

theorem Ctx.BarrOk.target (h : c.BarrOk a) : c.barTarget a = if a = 0#4 then c.h else (c.s.A a.toNat).toNat := by
  have hlow := h.low
  unfold Ctx.barTarget
  split
  · rfl
  · next ha => rw [if_neg ha] at hlow; exact Nat.mod_eq_of_lt hlow

theorem extractLsb'_12_52 {v : W64} : v.extractLsb' 12 52 = 0#52 ↔ v.toNat < 4096 := by
  rw [← BitVec.toNat_inj]
  simp only [BitVec.extractLsb'_toNat, BitVec.toNat_ofNat, Nat.shiftRight_eq_div_pow]
  have := v.isLt
  omega

/-- What a barr does once its checks have passed. -/
def Ctx.barrGoes (c : Ctx) (bar : BitVec 9) (a : AReg) : Res :=
  match c.s.reply with
  | .done _ => .done c.d
  | .fail cause sub => c.faultAt cause sub (BitVec.ofNat 64 (if c.barTarget a = c.h then bar.toNat else c.barTarget a * 512 + bar.toNat))
  | .sent | .stale => .wait c.d .ack
  | .idle => c.release (fun c' =>
      let d := c'.d.updSlot c'.h c'.n (fun s => { s with reply := .sent })
      .wait (if c.barTarget a = c'.h then d.arriveAt (c.barTarget a) bar.toNat c'.h c'.n
        else d.send 0 (.barrierArrival (c.barTarget a) bar.toNat c'.h c'.n)) .ack)

/-- The body of barr. -/
def barrBody (bar : BitVec 9) (a : AReg) (c : Ctx) : Res :=
  c.unspec (fun c =>
    if a ≠ 0#4 ∧ (c.s.A a.toNat).extractLsb' 12 52 ≠ 0#52 then c.faultAt 0x40 6 (BitVec.ofNat 64 (if c.barTarget a = c.h then bar.toNat else c.barTarget a * 512 + bar.toNat))
    else if !((c.d.launch? c.s.lk).map (fun l => l.has (c.barTarget a))).getD false then
      c.faultAt 0x40 4 (BitVec.ofNat 64 (if c.barTarget a = c.h then bar.toNat else c.barTarget a * 512 + bar.toNat))
    else c.barrGoes bar a)

theorem exec_barr (bar : BitVec 9) (a : AReg) (s : State) : exec (.barr bar a) s = thread (useA [ra a]) (barrBody bar a) s := by
  unfold exec execBarr specForm
  rfl

theorem Ctx.BarrOk.body (h : c.BarrOk a) : barrBody bar a c = c.barrGoes bar a := by
  obtain ⟨l, hl, hhas⟩ := h.has
  have hlow := h.low
  have hfield : ¬(a ≠ 0#4 ∧ (c.s.A a.toNat).extractLsb' 12 52 ≠ 0#52) := by
    rintro ⟨ha, hv⟩
    rw [if_neg ha] at hlow
    exact hv (extractLsb'_12_52.mpr hlow)
  unfold barrBody
  rw [h.sure.unspec, if_neg hfield, hl, h.target, Option.map_some, Option.getD_some, hhas]
  rfl

/-- The device as a barr leaves it when it has closed its group and asks for an answer. -/
def Ctx.asking (c : Ctx) : Dev := (c.d.setSlot c.h c.n { c.s with closed := true }).updSlot c.h c.n (fun s => { s with reply := .sent })

theorem Ctx.slot_asking (c : Ctx) : c.asking.slot c.h c.n = { c.s with closed := true, reply := .sent } := by
  unfold Ctx.asking
  rw [Dev.slot_updSlot_self, Dev.slot_setSlot_self]

theorem Ctx.bar_asking (c : Ctx) (j : Nat) : (c.asking.core j).bar = (c.d.core j).bar :=
  Core.bar_of_bare ((Dev.core_updSlot_bare _ _ _ _ _).trans (Dev.core_updSlot_bare _ _ _ _ _))

/-- A barr sends its arrival, or arrives at its own core at once. -/
def Ctx.barrSent (c : Ctx) (bar : BitVec 9) (a : AReg) : Dev :=
  if c.barTarget a = c.h then c.asking.arriveAt (c.barTarget a) bar.toNat c.h c.n
  else c.asking.send 0 (.barrierArrival (c.barTarget a) bar.toNat c.h c.n)

theorem Ctx.barrGoes_idle (hc : c.Ready) (hq : c.quiet) (hr : c.s.reply = .idle) : c.barrGoes bar a = .wait (c.barrSent bar a) .ack := by
  unfold Ctx.barrGoes
  rw [hr]
  dsimp only
  rw [hq.release hc]
  rfl

theorem Ctx.aside_barrSent (c : Ctx) (bar : BitVec 9) (a : AReg) : c.asking.Aside (c.barrSent bar a) := by
  unfold Ctx.barrSent
  split
  · exact Dev.aside_arriveAt _ _ _ _ _
  · exact Dev.aside_send _ _ _

end

section
variable (bar : BitVec 9) (a : AReg)

theorem barr_waits : WaitsWhen (.barr bar a) (useA [ra a]) (fun c => c.BarrOk a ∧ c.quiet ∧ c.s.reply = .idle) (fun _ => .ack) := by
  refine waitsWhen_of (exec_barr bar a) (fun c hc ⟨hok, hq, hr⟩ => ⟨c.barrSent bar a, ?_, ?_, ?_⟩)
  · rw [hok.body, Ctx.barrGoes_idle hc hq hr]
  · exact (c.aside_barrSent bar a c.h c.n).pc.trans (by rw [c.slot_asking])
  · have h := c.slot_asking ▸ c.aside_barrSent bar a c.h c.n
    exact ⟨fun j _ => h.A j, fun j _ => h.V j, fun j _ => h.K j⟩

theorem barr_sends (s : State) (h n : Nat) (w : W64) (hi : s.issues h n w (useA [ra a])) (hok : (s.ctx h n w).BarrOk a) (hq : (s.ctx h n w).quiet)
    (hr : (s.dev.slot h n).reply = .idle) : ∃ u, exec (.barr bar a) s = .next u ∧
      (((s.ctx h n w).barTarget a ≠ h → u.dev.coming s.dev.clock (.barrierArrival ((s.ctx h n w).barTarget a) bar.toNat h n)) ∧
      ((s.ctx h n w).barTarget a = h → s.dev.isSaved (s.dev.slot h n).lk h = false →
        let z := (s.dev.core h).bar bar.toNat
        z.owner = some (s.dev.slot h n).lk → z.arr ≠ 0xFFFF#16 → u.dev.coming s.dev.clock (.barrierAck h n 0) ∧
          let y := { z with arr := z.arr + 1 }
          (u.dev.core h).bar bar.toNat =
            (if y.pend = 0 ∧ y.exp ≠ 0#16 ∧ y.exp.toNat ≤ y.arr.toNat then { y with arr := y.arr - y.exp, ph := !y.ph } else y))) := by
  have hbody : barrBody bar a (s.ctx h n w) = .wait ((s.ctx h n w).barrSent bar a) .ack := by
    rw [hok.body, Ctx.barrGoes_idle hi.ready hq hr]
  refine ⟨⟨s.mem, ((s.ctx h n w).barrSent bar a).updSlot h n (fun x => { x with st := .waiting .ack, readyAt := ((s.ctx h n w).barrSent bar a).clock })⟩,
    ?_, fun ht => ?_, fun ht hs => ?_⟩
  · rw [exec_barr, thread_issues _ _ s h n w hi, hbody]
    rfl
  · have hsent : (s.ctx h n w).barrSent bar a = _ := if_neg ht
    rw [hsent]
    exact Dev.coming_send _ _ _
  · intro z ho ha
    have hsent : (s.ctx h n w).barrSent bar a = (s.ctx h n w).asking.arriveAt h bar.toNat h n := (if_pos ht).trans (by rw [ht]; rfl)
    have hbar : ((s.ctx h n w).asking.core h).bar bar.toNat = z := congrFun ((s.ctx h n w).bar_asking h) bar.toNat
    have hlk : ((s.ctx h n w).asking.slot h n).lk = (s.dev.slot h n).lk := (congrArg Slot.lk (s.ctx h n w).slot_asking :)
    have hcount := (s.ctx h n w).asking.counted_spec h bar.toNat h n
    rw [Dev.arriveAt_counts (hlk ▸ hs) (by rw [hlk, hbar]; exact ho) (by rw [hbar]; exact ha)] at hsent
    rw [hbar, ← hsent] at hcount
    obtain ⟨hb, hcoming⟩ := hcount
    refine ⟨hcoming, ?_⟩
    exact (congrFun (Core.bar_of_bare (Dev.core_updSlot_bare _ _ _ _ _)) _).trans hb

theorem barr_done (v : W64) : CompletesWhen (.barr bar a) (useA [ra a]) (fun c => c.BarrOk a ∧ c.s.reply = .done v) [] [] []
    (fun c s => s.pc = c.s.pc + 8#64) := by
  refine completesWhen_of (exec_barr bar a) (fun c hc ⟨hok, hr⟩ => ⟨c.d, c.s, c.s.pc + 8#64, ?_, .refl hc, .refl _, rfl⟩)
  rw [hok.body, Ctx.barrGoes, hr]
  rfl

theorem barr_traps (sub : Nat) : TrapsWhen (.barr bar a) (useA [ra a]) (fun c => c.BarrOk a ∧ c.s.reply = .fail 0x40 sub) 0x40 (fun _ => sub)
    (fun c => BitVec.ofNat 64 (if (if a = 0#4 then c.h else (c.s.A a.toNat).toNat) = c.h then bar.toNat
      else (if a = 0#4 then c.h else (c.s.A a.toNat).toNat) * 512 + bar.toNat)) := by
  refine trapsWhen_of (exec_barr bar a) (fun c hc ⟨hok, hr⟩ => ⟨Config.freeLanes c.d.count, ?_⟩)
  rw [hok.body, Ctx.barrGoes, hr, hok.target]
  rfl

end

/-! ### bwait and barw (R180) -/

/-- What a form that takes a phase leaves: the barrier's word 0, AP cleared, and only sealed lines in the L1. -/
def Ctx.Takes (c : Ctx) (d : AReg) (b : Nat) (e : Dev) : Prop :=
  (d ≠ 0#4 → (e.slot c.h c.n).A d.toNat = ((c.d.core c.h).bar b).word0) ∧ (e.slot c.h c.n).ap = false ∧
    ∀ p l, (e.core c.h).l1.find? p = some l → l.sealed_ = true

section
variable (bar : BitVec 9) (d a : AReg)

theorem Ctx.takePhase_done {c : Ctx} (hload : c.s.loading = false) (b : Nat) (f : Slot → Slot) : c.takePhase b d f =
    .done ((c.d.updCore c.h Core.acquire).setSlot c.h c.n (f (c.s.setA d.toNat ((c.d.core c.h).bar b).word0))) := by
  have hbar : ((c.d.updCore c.h Core.acquire).core c.h).bar b = (c.d.core c.h).bar b := by rw [Dev.core_updCore_self]; rfl
  unfold Ctx.takePhase Ctx.acquire
  rw [hload, if_neg Bool.false_ne_true, if_pos rfl]
  dsimp only
  rw [hbar]
  rfl

/-- A form that takes a phase and ends its issue. -/
theorem takesPhase_acts {i : Instr} {u : Use} {body : Ctx → Res} {pre : Ctx → Prop} (b : Nat) (f : Slot → Slot)
    (hA : ∀ s, (f s).aregs = s.aregs) (hV : ∀ s, (f s).vregs = s.vregs) (hK : ∀ s, (f s).kregs = s.kregs)
    (he : ∀ s, exec i s = thread u body s)
    (hb : ∀ c, pre c → body c = c.takePhase b d f ∧ c.s.loading = false ∧ (f (c.s.setA d.toNat ((c.d.core c.h).bar b).word0)).ap = false) :
    Acts i u pre [d.toNat] [] [] (fun c e => c.Takes d b e) := by
  refine acts_of he (fun c hc hp => ?_)
  obtain ⟨hbody, hload, hap⟩ := hb c hp
  refine ⟨_, hbody.trans (Ctx.takePhase_done d hload b f), ?_, fun hd => ?_, ?_, fun p l hl => ?_⟩
  · rw [Dev.slot_setSlot_self]
    have hkept := KeptRegs.setA c.s d.toNat ((c.d.core c.h).bar b).word0
    refine ⟨fun j hj => ?_, fun j hj => ?_, fun j hj => ?_⟩
    · rw [Slot.A, hA, ← Slot.A]
      exact hkept.aregs j hj
    · rw [Slot.V, hV, ← Slot.V]
      exact hkept.vregs j hj
    · rw [Slot.K, hK, ← Slot.K]
      exact hkept.kregs j hj
  · rw [Ctx.finish_slot _ _ _ _ hc.step, Dev.slot_setSlot_self]
    have hself : (f (c.s.setA d.toNat ((c.d.core c.h).bar b).word0)).A d.toNat = (c.s.setA d.toNat ((c.d.core c.h).bar b).word0).A d.toNat := by
      rw [Slot.A, hA, ← Slot.A]
    exact hself.trans ((Slot.A_setA_self _ _ _).trans (if_neg hd))
  · rw [Ctx.finish_slot _ _ _ _ hc.step, Dev.slot_setSlot_self]
    exact hap
  · have hl1 : ((c.finish u ((c.d.updCore c.h Core.acquire).setSlot c.h c.n (f (c.s.setA d.toNat ((c.d.core c.h).bar b).word0)))
        (c.s.pc + 8#64)).core c.h).l1 = (c.d.core c.h).acquire.l1 := by
      have hbare := (Ctx.finish_core_bare c u ((c.d.updCore c.h Core.acquire).setSlot c.h c.n (f (c.s.setA d.toNat ((c.d.core c.h).bar b).word0)))
        (c.s.pc + 8#64) hc.step c.h).trans (Dev.core_updSlot_bare _ _ _ _ _)
      rw [Dev.core_updCore_self] at hbare
      exact (congrArg Core.l1 hbare :)
    rw [hl1] at hl
    exact AMap.find?_sealed hl

theorem bwait_takes : Acts (.bwait bar d a) (useA [wa d, ra a]) (fun c => ((c.d.core c.h).bar bar.toNat).owner = some c.s.lk ∧
    ((c.d.core c.h).bar bar.toNat).ph = (c.s.A a.toNat).getLsbD 0 ∧ c.s.loading = false ∧ c.s.ap = false) [d.toNat] [] []
    (fun c e => c.Takes d bar.toNat e) := by
  refine takesPhase_acts d bar.toNat id (fun _ => rfl) (fun _ => rfl) (fun _ => rfl) (fun _ => by unfold exec execBwait; rfl)
    (fun c ⟨ho, hph, hload, hap⟩ => ⟨?_, hload, (congrArg (fun t : W32 => t.getLsbD 0) (KeptRegs.setA c.s _ _).tsw).trans hap⟩)
  rw [Ctx.onBar_own ho, hph]
  simp

theorem bwait_waits : WaitsWhen (.bwait bar d a) (useA [wa d, ra a]) (fun c => ((c.d.core c.h).bar bar.toNat).owner = some c.s.lk ∧
    ((c.d.core c.h).bar bar.toNat).ph ≠ (c.s.A a.toNat).getLsbD 0) (fun _ => .barrier bar.toNat) := by
  refine waitsWhen_of (fun _ => by unfold exec execBwait; rfl) (fun c hc ⟨ho, hph⟩ => ⟨c.d, ?_, by rw [hc.own], by rw [hc.own]; exact .refl _⟩)
  rw [Ctx.onBar_own ho, if_pos (by simpa using hph)]

theorem exec_barw (s : State) : exec (.barw bar d) s = thread (useA [wa d]) (fun c => c.unspec (fun c => c.onBar bar.toNat (fun _ =>
    if c.s.ap then c.barWait bar.toNat d
    else c.release (fun c =>
      if ((c.d.core c.h).bar bar.toNat).arr = 0xFFFF#16 then c.faultAt 0x40 5 (BitVec.ofNat 64 bar.toNat)
      else Ctx.barWait { c with
        d := (c.d.setSlot c.h c.n ({ c.s with resPh := ((c.d.core c.h).bar bar.toNat).ph }.setAp true)).barStep c.h bar.toNat (fun x => { x with arr := x.arr + 1 }) false
        s := { c.s with resPh := ((c.d.core c.h).bar bar.toNat).ph }.setAp true } bar.toNat d)))) s := by
  unfold exec execBarw specForm
  rfl

theorem ap_setAp (s : Slot) (b : Bool) : (s.setAp b).ap = b := by
  unfold Slot.ap Slot.setAp
  rw [getLsbD_putBit _ _ _ (by decide)]
  simp

theorem barw_takes : Acts (.barw bar d) (useA [wa d]) (fun c => c.sure ∧ ((c.d.core c.h).bar bar.toNat).owner = some c.s.lk ∧ c.s.ap = true ∧
    ((c.d.core c.h).bar bar.toNat).ph ≠ c.s.resPh ∧ c.s.loading = false) [d.toNat] [] [] (fun c e => c.Takes d bar.toNat e) := by
  refine takesPhase_acts d bar.toNat (fun s => { s.setAp false with resPh := false }) (fun _ => rfl) (fun _ => rfl) (fun _ => rfl)
    (exec_barw bar d) (fun c ⟨hs, ho, hap, hph, hload⟩ => ⟨?_, hload, ap_setAp _ false⟩)
  rw [hs.unspec, Ctx.onBar_own ho, if_pos hap]
  exact if_neg (by simpa using hph)

theorem barw_waits : WaitsWhen (.barw bar d) (useA [wa d]) (fun c => c.sure ∧ ((c.d.core c.h).bar bar.toNat).owner = some c.s.lk ∧ c.s.ap = true ∧
    ((c.d.core c.h).bar bar.toNat).ph = c.s.resPh) (fun _ => .barrier bar.toNat) := by
  refine waitsWhen_of (exec_barw bar d) (fun c hc ⟨hs, ho, hap, hph⟩ => ⟨c.d, ?_, by rw [hc.own], by rw [hc.own]; exact .refl _⟩)
  rw [hs.unspec, Ctx.onBar_own ho, if_pos hap]
  exact if_pos (by simpa using hph)

theorem unowned_traps (i : Instr) (hi : i = Instr.bwait bar d a ∨ i = .bexp bar a) : TrapsWhen i (if i = .bwait bar d a then useA [wa d, ra a] else useA [ra a])
    (fun c => ((c.d.core c.h).bar bar.toNat).owner = none) 0x40 (fun _ => 1) (fun _ => BitVec.ofNat 64 bar.toNat) := by
  rcases hi with rfl | rfl
  · rw [if_pos rfl]
    exact trapsWhen_of (fun _ => by unfold exec execBwait; rfl) (fun c _ ho => ⟨_, Ctx.onBar_none ho _⟩)
  · rw [if_neg Instr.noConfusion]
    exact trapsWhen_of (fun _ => by unfold exec execBexp; rfl) (fun c _ ho => ⟨_, Ctx.onBar_none ho _⟩)

end

/-! ### Reports of an engine (R177, R178, R223) -/

theorem Dev.bar_updCore {f : Core → Core} (hf : ∀ k, (f k).bars = k.bars) (d : Dev) (h j : Nat) : ((d.updCore h f).core j).bar = (d.core j).bar := by
  by_cases hj : j = h
  · rw [hj, Dev.core_updCore_self]
    funext b
    rw [Core.bar, hf, Core.bar]
  · rw [Dev.core_updCore_ne _ _ _ _ hj]

theorem Dev.bar_wake (d : Dev) (h : Nat) (p : Nat → Slot → WaitFor → Bool) (j : Nat) : ((d.wake h p).core j).bar = (d.core j).bar :=
  Dev.bar_updCore (f := fun k => k.wake d.clock p) (fun _ => rfl) d h j

theorem Dev.bar_dropSealed (d : Dev) (h : Nat) (o : Obj) (j : Nat) : ((d.dropSealed h o).core j).bar = (d.core j).bar := by
  unfold Dev.dropSealed Dev.core
  rw [AMap.get_map]
  · rfl
  · exact fun _ => rfl
  · rfl

/-- The end of an object's transfer leaves barriers alone. -/
theorem Dev.bar_objUnref (d : Dev) (h o j : Nat) : ((d.objUnref h o).core j).bar = (d.core j).bar := by
  have hobj : ∀ (x : Obj) (e : Dev), ((e.updCore h (fun k => k.setObj o x)).core j).bar = (e.core j).bar :=
    fun x e => Dev.bar_updCore (f := fun k => k.setObj o x) (fun _ => rfl) e h j
  unfold Dev.objUnref
  dsimp only
  split
  · exact hobj _ _
  · split
    · exact (Dev.bar_wake _ _ _ _).trans (hobj _ _)
    · exact (hobj _ _).trans ((Dev.bar_dropSealed _ _ _ _).trans ((Dev.bar_wake _ _ _ _).trans (hobj _ _)))

theorem Dev.bar_completed (d : Dev) (h : Nat) (c : Cmd) (j : Nat) : ((d.completed h c).core j).bar = (d.core j).bar := by
  unfold Dev.completed
  dsimp only
  have hfold : ∀ (xs : List (Nat × Nat)) (e : Dev), ((xs.foldl (fun d o => d.objUnref o.1 o.2) e).core j).bar = (e.core j).bar := by
    intro xs
    induction xs with
    | nil => exact fun _ => rfl
    | cons x xs ih => exact fun e => (ih _).trans (Dev.bar_objUnref _ _ _ _)
  refine (hfold _ _).trans ?_
  split
  · exact Dev.bar_objUnref _ _ _ _
  · rfl

theorem Core.bars_updEq (k : Core) (cq : Bool) (f : EQ → EQ) : (k.updEq cq f).bars = k.bars := by
  unfold Core.updEq
  split <;> rfl

/-- A report of fewer bytes than are owed takes them from PEND. -/
theorem Dev.bar_barReport {d : Dev} {h b bytes : Nat} (h0 : 0 < bytes) (hlt : bytes < ((d.core h).bar b).pend) :
    ((d.barReport h b bytes).core h).bar b = { (d.core h).bar b with pend := ((d.core h).bar b).pend - bytes } := by
  unfold Dev.barReport
  dsimp only
  rw [if_neg (by omega), if_pos hlt, Dev.core_updCore_self, Core.bar_setBar, if_pos rfl]

theorem engineReport_counts (h seq bytes : Nat) (cq : Bool) (c : Cmd) : Event (.engineReport h cq seq bytes)
    (fun _ d => d.savedCmd h cq seq = false ∧ d.cmd? h cq seq = some c ∧ c.total ≠ 1 ∧ 0 < bytes ∧ bytes ≤ c.left ∧ bytes < ((d.core h).bar c.bar).pend)
    (fun _ d e => (e.core h).bar c.bar = { (d.core h).bar c.bar with pend := ((d.core h).bar c.bar).pend - bytes }) := by
  intro s ⟨hs, hcmd, htotal, h0, hleft, hpend⟩
  refine ⟨_, rfl, fun _ => rfl, ?_⟩
  dsimp only
  rw [hs, if_neg Bool.false_ne_true]
  have hupd : ∀ g : Cmd → Cmd, ((s.dev.updCmd h cq seq g).core h).bar = (s.dev.core h).bar := fun g =>
    Dev.bar_updCore (f := fun k => k.updEq cq (fun e => e.updCmd seq g)) (fun k => k.bars_updEq _ _) s.dev h h
  have hrep : ∀ g : Cmd → Cmd, (((s.dev.updCmd h cq seq g).barReport h c.bar bytes).core h).bar c.bar =
      { (s.dev.core h).bar c.bar with pend := ((s.dev.core h).bar c.bar).pend - bytes } := by
    intro g
    rw [Dev.bar_barReport h0 (by rw [hupd]; exact hpend), hupd]
  unfold Dev.cmdReport
  rw [hcmd]
  dsimp only
  rw [if_neg htotal, Nat.min_eq_left hleft]
  split
  · rw [Dev.bar_wake, Dev.bar_completed, Dev.bar_updCore (fun k => k.bars_updEq _ _)]
    exact hrep _
  · exact hrep _

/-- Settles O25. -/
theorem barriers : Obligations.Barriers := by
  refine ⟨fun bar a d part => ⟨bini_completes bar a, bexp_acts bar a, bclr_completes bar, bphs_reads bar part d⟩,
    fun bar a t b h n sub => ⟨barrierArrival_counts t b h n, barrierArrival_refused t b h n, barrierAck_answers h n sub, ?_, ?_, fun v => ?_, ?_⟩,
    fun bar d a => ⟨bwait_takes bar d a, bwait_waits bar d a, barw_takes bar d, barw_waits bar d, unowned_traps bar d a⟩,
    fun h seq bytes cq c s hpre => ?_⟩
  · exact fun s h n w hi ⟨⟨hs, hl, hh⟩, hq, hr⟩ => barr_waits bar a s h n w hi ⟨⟨hs, hl, hh⟩, hq, hr⟩
  · intro s h n w hi ⟨hs, hl, hh⟩ hq hr
    have hok : (s.ctx h n w).BarrOk a := ⟨hs, hl, hh⟩
    have hsends := barr_sends bar a s h n w hi hok hq hr
    rw [hok.target] at hsends
    exact hsends
  · exact fun s h n w hi ⟨⟨hs, hl, hh⟩, hr⟩ => barr_done bar a v s h n w hi ⟨⟨hs, hl, hh⟩, hr⟩
  · exact fun s h n w hi ⟨⟨hs, hl, hh⟩, hr⟩ => barr_traps bar a sub s h n w hi ⟨⟨hs, hl, hh⟩, hr⟩
  · obtain ⟨t, ht, hm, hb⟩ := engineReport_counts h seq bytes cq c s hpre
    exact ⟨t, ht, hm, (congrArg Bar.pend hb :), (congrArg Bar.arr hb :), (congrArg Bar.ph hb :)⟩

end Sys2Proof.Machine
end

section
/-! PROOFS. Objects (R184 to R188). -/

namespace Sys2Proof.Machine

/-! ### One entry of the object table (R184) -/

theorem Core.obj_setObj (k : Core) (o j : Nat) (x : Obj) (h : x.st = .free → x = .init) : (k.setObj o x).obj j = if j = o then x else k.obj j := by
  unfold Core.setObj Core.obj
  dsimp only
  split
  · next hx => rw [AMap.get_erase, h (by simpa using hx), if_congr eq_comm rfl rfl]
  · next hx =>
    split
    · next hj => rw [hj, AMap.get_put_self]
    · next hj => rw [AMap.get_put_ne _ _ _ _ _ hj]

theorem Core.obj_of_bare {k p : Core} (h : k.bare = p.bare) : k.obj = p.obj :=
  funext fun j => (congrArg (fun c : Core => c.objs.get .init j) h :)

/-- A form on an entry that is free or its launch's. -/
theorem Ctx.onObj_own {c : Ctx} {o : Nat} (h : ((c.d.core c.h).obj o).st ≠ .free → ((c.d.core c.h).obj o).owner = c.s.lk) (k : Obj → Res) :
    c.onObj o k = k ((c.d.core c.h).obj o) := by
  refine if_neg fun hother => ?_
  rw [Bool.and_eq_true, bne_iff_ne, bne_iff_ne] at hother
  exact hother.2 (h hother.1)

/-- A form that sets its entry completes on its core. -/
theorem setObj_completes {i : Instr} {u : Use} {body : Ctx → Res} {pre : Ctx → Prop} (o : Nat) (x : Ctx → Obj) (he : ∀ s, exec i s = thread u body s)
    (hx : ∀ c, (x c).st = .free → x c = .init) (hb : ∀ c, pre c → body c = .done (c.d.updCore c.h (fun k => k.setObj o (x c)))) :
    CompletesOnCore i u pre [] [] [] (fun k => { k with objs := .empty })
      (fun c k _ => k.obj o = x c ∧ ∀ j, j ≠ o → k.obj j = (c.d.core c.h).obj j) := by
  refine completesOnCore_of he (fun c hc hp => ⟨_, hb c hp, ?_, ?_, fun k hk => ?_⟩)
  · exact Ctx.onlyOwn_of_ownCore ((Dev.CoreIs.refl _ _).updCore _) (fun _ _ => rfl) rfl
  · rw [Dev.slot_updCore_of (f := fun k => k.setObj o (x c)) (fun _ _ => rfl), hc.own]
    exact .refl _
  · rw [Core.obj_of_bare hk, Dev.core_updCore_self]
    exact ⟨by rw [Core.obj_setObj _ _ _ _ (hx c), if_pos rfl], fun j hj => by rw [Core.obj_setObj _ _ _ _ (hx c), if_neg hj]⟩

/-! ### odecl, oseal, oreopen, ofree, ostat (R184, R185, R188) -/

section
variable (obj : BitVec 6) (a d : AReg)

/-- What odecl needs of the shape record and of its core. -/
structure Ctx.Declares (c : Ctx) (o : Nat) (a : AReg) : Prop where
  free : ((c.d.core c.h).obj o).st = .free
  align : (c.s.A a.toNat).toNat % 32 = 0
  low : (c.s.A a.toNat).toNat < 2 ^ 20
  launch : (c.d.core c.h).inLaunch c.s.lk (c.s.A a.toNat).toNat = true
  poison : (c.d.core c.h).lsPoison = []
  todo : (c.d.core c.h).lsTodo = []
  shape : shapeOk (fun i => (c.d.core c.h).word ((c.s.A a.toNat).toNat + 4 * i))
    (shapeOf (fun i => (c.d.core c.h).word ((c.s.A a.toNat).toNat + 4 * i)) c.s.lk) = true
  inside : ∃ e, (c.d.core c.h).regionOf (shapeOf (fun i => (c.d.core c.h).word ((c.s.A a.toNat).toNat + 4 * i)) c.s.lk).base = some e ∧
    e.1 / 16 = c.s.lk ∧ rgnRole e.2 = 0 ∧ (shapeOf (fun i => (c.d.core c.h).word ((c.s.A a.toNat).toNat + 4 * i)) c.s.lk).base +
      (shapeOf (fun i => (c.d.core c.h).word ((c.s.A a.toNat).toNat + 4 * i)) c.s.lk).bytes ≤ rgnEnd e.2
  alone : (c.d.core c.h).objs.ents = []

theorem extractLsb'_0_5 {v : W64} : v.extractLsb' 0 5 = 0#5 ↔ v.toNat % 32 = 0 := by
  rw [← BitVec.toNat_inj]
  simp only [BitVec.extractLsb'_toNat, BitVec.toNat_ofNat, Nat.shiftRight_eq_div_pow]
  omega

theorem odecl_completes : CompletesOnCore (.odecl obj a) (useA [ra a]) (fun c => c.Declares obj.toNat a) [] [] [] (fun k => { k with objs := .empty })
    (fun c k _ => k.obj obj.toNat = shapeOf (fun i => (c.d.core c.h).word ((c.s.A a.toNat).toNat + 4 * i)) c.s.lk ∧
      ∀ j, j ≠ obj.toNat → k.obj j = (c.d.core c.h).obj j) := by
  refine setObj_completes obj.toNat _ (fun _ => by unfold exec execOdecl; rfl) (fun c h => nomatch h) (fun c h => ?_)
  obtain ⟨e, he, hlk, hrole, hend⟩ := h.inside
  have hback : ∀ b, (c.d.core c.h).unrestored b = false := fun b => by unfold Core.unrestored; rw [h.todo]; rfl
  dsimp only
  rw [h.free, if_neg (by decide), if_neg (fun g => g (extractLsb'_0_5.mpr h.align)), h.launch, h.shape, he, h.alone, h.poison]
  simp only [hback, hlk, hrole, hend]
  simp
  exact fun hhigh => absurd h.low (by omega)

theorem oseal_completes : CompletesOnCore (.oseal obj) (useA []) (fun c => ((c.d.core c.h).obj obj.toNat).st = .open_ ∧
    ((c.d.core c.h).obj obj.toNat).owner = c.s.lk) [] [] [] (fun k => { k with objs := .empty })
    (fun c k _ => k.obj obj.toNat = { (c.d.core c.h).obj obj.toNat with st := .sealed_ } ∧ ∀ j, j ≠ obj.toNat → k.obj j = (c.d.core c.h).obj j) := by
  refine setObj_completes obj.toNat _ (fun _ => by unfold exec execOseal; rfl) (fun c h => nomatch h) (fun c ⟨hst, ho⟩ => ?_)
  rw [Ctx.onObj_own (fun _ => ho), hst]
  rfl

/-- Nothing is cached, or the drops have been acknowledged: an entry that is unsealed changes at once. -/
theorem Ctx.unseal_done {c : Ctx} (h : c.s.reply = .done 0#64 ∨ c.s.reply = .idle ∧ ∀ e, e ∈ c.d.cores.ents → e.2.l1.ents = []) (o : Nat) (x k : Obj) :
    c.unseal o x k = .done (c.d.updCore c.h (fun y => y.setObj o k)) := by
  unfold Ctx.unseal
  rcases h with h | ⟨h, hno⟩
  · rw [h]
  · have hnone : (c.d.cores.ents.filter (fun e => !e.2.l1.ents.isEmpty)).map (·.1) = [] := by
      rw [List.filter_eq_nil_iff.mpr (fun e he => by rw [hno e he]; decide), List.map_nil]
    rw [h, hnone]
    rfl

theorem oreopen_completes : CompletesOnCore (.oreopen obj) (useA []) (fun c => (((c.d.core c.h).obj obj.toNat).st = .sealed_ ∧
    ((c.d.core c.h).obj obj.toNat).owner = c.s.lk) ∧ ((c.d.core c.h).obj obj.toNat).ref = 0 ∧
    (c.s.reply = .done 0#64 ∨ c.s.reply = .idle ∧ ∀ e, e ∈ c.d.cores.ents → e.2.l1.ents = [])) [] [] [] (fun k => { k with objs := .empty })
    (fun c k _ => k.obj obj.toNat = { (c.d.core c.h).obj obj.toNat with st := .open_, drops := 0 } ∧ ∀ j, j ≠ obj.toNat → k.obj j = (c.d.core c.h).obj j) := by
  refine setObj_completes obj.toNat _ (fun _ => by unfold exec execOreopen; rfl) (fun c h => nomatch h) (fun c ⟨⟨hst, ho⟩, href, hr⟩ => ?_)
  rw [Ctx.onObj_own (fun _ => ho), if_neg (by rw [hst]; decide), if_neg (fun g => g href), Ctx.unseal_done hr]

theorem ofree_completes : CompletesOnCore (.ofree obj) (useA []) (fun c => (((c.d.core c.h).obj obj.toNat).st = .open_ ∧
    ((c.d.core c.h).obj obj.toNat).owner = c.s.lk) ∨ (((c.d.core c.h).obj obj.toNat).st = .sealed_ ∧
    ((c.d.core c.h).obj obj.toNat).owner = c.s.lk) ∧ ((c.d.core c.h).obj obj.toNat).ref = 0 ∧
    (c.s.reply = .done 0#64 ∨ c.s.reply = .idle ∧ ∀ e, e ∈ c.d.cores.ents → e.2.l1.ents = [])) [] [] [] (fun k => { k with objs := .empty })
    (fun c k _ => k.obj obj.toNat = Obj.init ∧ ∀ j, j ≠ obj.toNat → k.obj j = (c.d.core c.h).obj j) := by
  refine setObj_completes obj.toNat _ (fun _ => by unfold exec execOfree; rfl) (fun c h => rfl) (fun c h => ?_)
  rcases h with ⟨hst, ho⟩ | ⟨⟨hst, ho⟩, href, hr⟩
  · rw [Ctx.onObj_own (fun _ => ho), hst]
  · rw [Ctx.onObj_own (fun _ => ho), hst, href, Ctx.unseal_done hr]
    rfl

theorem ostat_reads : ReadsA (.ostat obj d) (useA [wa d]) (fun _ => True) d (fun c => ((c.d.core c.h).obj obj.toNat).stat c.s.lk) :=
  completesWhen_of (fun _ => by unfold exec execOstat; rfl) (fun c _ _ => ⟨_, _, c.s.pc + 8#64, rfl, .setSlot c _, KeptRegs.setA _ _ _, rfl,
    Slot.A_setA_self _ _ _⟩)

theorem sealing_traps (i : Instr) (st : ObjSt) (hi : i = Instr.oseal obj ∧ st = ObjSt.free ∨ i = .oreopen obj ∧ st = .open_) :
    TrapsWhen i (useA []) (fun c => ((c.d.core c.h).obj obj.toNat).st = st ∧
      (((c.d.core c.h).obj obj.toNat).st ≠ .free → ((c.d.core c.h).obj obj.toNat).owner = c.s.lk)) 0x41
      (fun _ => if i = .oseal obj then 2 else 4) (fun _ => BitVec.ofNat 64 obj.toNat) := by
  rcases hi with ⟨rfl, rfl⟩ | ⟨rfl, rfl⟩
  · refine trapsWhen_of (fun _ => by unfold exec execOseal; rfl) (fun c _ ⟨hst, ho⟩ => ⟨Config.freeLanes c.d.count, ?_⟩)
    rw [Ctx.onObj_own ho, hst, if_pos rfl]
    rfl
  · refine trapsWhen_of (fun _ => by unfold exec execOreopen; rfl) (fun c _ ⟨hst, ho⟩ => ⟨Config.freeLanes c.d.count, ?_⟩)
    rw [Ctx.onObj_own ho, hst, if_neg (show ¬(Instr.oreopen obj = .oseal obj) from Instr.noConfusion)]
    rfl

end

/-! ### ocopy (R188, R219) -/

section
variable (obj : BitVec 6) (a b bc : AReg)

theorem Core.eq_updEq (k : Core) (cq : Bool) (f : EQ → EQ) : (k.updEq cq f).eq cq = f (k.eq cq) := by
  cases cq <;> rfl

theorem Core.objs_updEq (k : Core) (cq : Bool) (f : EQ → EQ) : (k.updEq cq f).objs = k.objs := by
  cases cq <;> rfl

theorem Core.slot_updEq (k : Core) (cq : Bool) (f : EQ → EQ) (n : Nat) : (k.updEq cq f).slot n = k.slot n := by
  cases cq <;> rfl

/-- What ocopy needs. -/
structure Ctx.Copies (c : Ctx) (o : Nat) (a b bc : AReg) : Prop where
  sure : c.sure
  sealed_ : ((c.d.core c.h).obj o).st = .sealed_
  owner : ((c.d.core c.h).obj o).owner = c.s.lk
  target : (c.s.A a.toNat).toNat < 4096
  has : ∃ l, c.d.launch? c.s.lk = some l ∧ l.has (c.s.A a.toNat).toNat = true
  align : (c.s.A b.toNat).toNat % 4 = 0
  fits : (c.s.A b.toNat).toNat + ((c.d.core c.h).obj o).bytes ≤ 2 ^ 20
  low : (c.s.A b.toNat).toNat < 2 ^ 20
  ref : ((c.d.core c.h).obj o).ref < 0xFFFF
  bar : (c.s.A bc.toNat).toNat < 512
  own : ((c.d.core c.h).bar (c.s.A bc.toNat).toNat).owner = some c.s.lk
  entry : ((c.d.core c.h).eq true).depth < 32
  room : ((c.d.core c.h).bar (c.s.A bc.toNat).toNat).pend + ((c.d.core c.h).obj o).bytes < 2 ^ 32

/-- A queue entry and room in PEND: a push need not wait. -/
theorem Ctx.pushRoom_none {c : Ctx} {cq : Bool} {bar cnt : Nat} (he : ((c.d.core c.h).eq cq).depth < 32)
    (hr : ((c.d.core c.h).bar bar).pend + cnt < 2 ^ 32) : c.pushRoom cq bar cnt = none :=
  (if_neg (by omega)).trans (if_neg (by omega))

/-- The command that enters a queue. -/
def Ctx.newCmd (c : Ctx) (cq : Bool) (img : V512) (oc : Option OCopy) (bar cnt : Nat) : Cmd :=
  ⟨(((c.d.core c.h).eq cq).seqa + 1).toNat, img, oc, bar, c.s.lk, c.n, c.s.pc, c.s.gtid, c.s.recov, c.s.priv, 0, false, 0, cnt,
    (c.d.slotGroups c.h c.n).map (·.id), .empty, [], [], .empty, .empty, [], 0#64, 0, none⟩

/-- A core whose queue has taken a command. -/
def Core.accepted (k : Core) (cq : Bool) (y : Cmd) (seq : BitVec 16) : Core :=
  (k.setBar y.bar { k.bar y.bar with pend := (k.bar y.bar).pend + y.left }).updEq cq (fun e => { e with q := e.q ++ [y], seqa := seq })

theorem Ctx.accept_eq (c : Ctx) (cq : Bool) (img : V512) (oc : Option OCopy) (bar cnt : Nat) : (c.accept cq img oc bar cnt).1 =
    c.d.updCore c.h (fun k => k.accepted cq (c.newCmd cq img oc bar cnt) (((c.d.core c.h).eq cq).seqa + 1)) := rfl

section
variable (k : Core) (cq : Bool) (y : Cmd) (seq : BitVec 16)

theorem Core.slot_accepted (n : Nat) : (k.accepted cq y seq).slot n = k.slot n := Core.slot_updEq _ _ _ _

theorem Core.obj_accepted : (k.accepted cq y seq).obj = k.obj := by
  funext j
  rw [Core.obj, Core.accepted, Core.objs_updEq]
  rfl

theorem Core.bar_accepted (j : Nat) : (k.accepted cq y seq).bar j =
    if j = y.bar then { k.bar y.bar with pend := (k.bar y.bar).pend + y.left } else k.bar j := by
  rw [Core.bar, Core.accepted, Core.bars_updEq]
  exact Core.bar_setBar _ _ _ _

theorem Core.eq_accepted : (k.accepted cq y seq).eq cq = { k.eq cq with q := (k.eq cq).q ++ [y], seqa := seq } := by
  cases cq <;> rfl

end

/-- The entry of an object that is copied once more. -/
def Obj.held (x : Obj) : Obj := { x with ref := x.ref + 1 }

theorem ocopy_acts : Acts (.ocopy obj a b bc) (useA [ra a, ra b, ra bc]) (fun c => c.Copies obj.toNat a b bc) [] [] []
    (fun c e => OnlyCore c.d e c.h ∧ (e.core c.h).obj obj.toNat = { (c.d.core c.h).obj obj.toNat with ref := ((c.d.core c.h).obj obj.toNat).ref + 1 } ∧
      ((e.core c.h).bar (c.s.A bc.toNat).toNat).pend = ((c.d.core c.h).bar (c.s.A bc.toNat).toNat).pend + ((c.d.core c.h).obj obj.toNat).bytes ∧
      ∃ y, ((e.core c.h).eq true).q = ((c.d.core c.h).eq true).q ++ [y] ∧ y.bar = (c.s.A bc.toNat).toNat ∧
        y.left = ((c.d.core c.h).obj obj.toNat).bytes ∧ y.oc = some ⟨obj.toNat, ((c.d.core c.h).obj obj.toNat).base,
          ((c.d.core c.h).obj obj.toNat).bytes, (c.s.A a.toNat).toNat, (c.s.A b.toNat).toNat⟩) := by
  refine acts_of (fun _ => by unfold exec execOcopy specForm; rfl) (fun c hc h => ?_)
  obtain ⟨y, hy⟩ : ∃ y, y = c.newCmd true 0#512 (some ⟨obj.toNat, ((c.d.core c.h).obj obj.toNat).base, ((c.d.core c.h).obj obj.toNat).bytes,
    (c.s.A a.toNat).toNat, (c.s.A b.toNat).toNat⟩) (c.s.A bc.toNat).toNat ((c.d.core c.h).obj obj.toNat).bytes := ⟨_, rfl⟩
  have hbar : y.bar = (c.s.A bc.toNat).toNat := by rw [hy]; rfl
  have hcnt : y.left = ((c.d.core c.h).obj obj.toNat).bytes := by rw [hy]; rfl
  have hoc : y.oc = _ := congrArg Cmd.oc hy
  refine ⟨(c.d.updCore c.h (fun k => k.accepted true y (((c.d.core c.h).eq true).seqa + 1))).updCore c.h
    (fun k => k.setObj obj.toNat ((c.d.core c.h).obj obj.toNat).held), ?_, ?_, ?_⟩
  · obtain ⟨l, hl, hhas⟩ := h.has
    have hplace : (decide (4096 ≤ (c.s.A a.toNat).toNat) || !((c.d.launch? c.s.lk).map (fun l => l.has (c.s.A a.toNat).toNat)).getD false ||
        decide (2 ^ 20 ≤ (c.s.A b.toNat).toNat) || (c.s.A b.toNat).toNat % 4 != 0 ||
        decide (2 ^ 20 < (c.s.A b.toNat).toNat + ((c.d.core c.h).obj obj.toNat).bytes) || ((c.d.core c.h).obj obj.toNat).ref == 0xFFFF) = false := by
      have ht := h.target
      have hf := h.fits
      have hlow := h.low
      have hr := h.ref
      rw [hl, Option.map_some, Option.getD_some, hhas, h.align, decide_eq_false (by omega), decide_eq_false (by omega), decide_eq_false (by omega),
        beq_eq_false_iff_ne.mpr (by omega)]
      rfl
    rw [h.sure.unspec, Ctx.onObj_own (fun _ => h.owner), if_neg (by rw [h.sealed_]; decide), hplace, if_neg Bool.false_ne_true,
      if_neg (by have := h.bar; omega), if_neg (fun g => g (Bar.check_own h.own)), Ctx.pushRoom_none h.entry h.room, hy]
    rfl
  · have hslot : ∀ e : Dev, (e.updCore c.h (fun k => k.setObj obj.toNat ((c.d.core c.h).obj obj.toNat).held)).slot c.h c.n = e.slot c.h c.n :=
      fun e => Dev.slot_updCore_of (f := fun k => k.setObj obj.toNat ((c.d.core c.h).obj obj.toNat).held) (fun _ _ => rfl) e _ _ _
    rw [hslot, Dev.slot_updCore_of (fun k n => Core.slot_accepted k true y _ n), hc.own]
    exact .refl _
  · have hcore := ((Dev.CoreIs.refl c.d c.h).updCore (fun k => k.accepted true y (((c.d.core c.h).eq true).seqa + 1))).updCore
      (fun k => k.setObj obj.toNat ((c.d.core c.h).obj obj.toNat).held)
    have hbare := (Ctx.finish_core_bare c (useA [ra a, ra b, ra bc]) _ (c.s.pc + 8#64) hc.step c.h).trans (congrArg Core.bare hcore.core)
    refine ⟨Ctx.onlyCore_finish hc hcore _ _, ?_, ?_, y, ?_, hbar, hcnt, hoc⟩
    · have hst : ((c.d.core c.h).obj obj.toNat).held.st ≠ .free := fun hf => absurd (h.sealed_.symm.trans hf) (by decide)
      rw [Core.obj_of_bare hbare, Core.obj_setObj _ _ _ _ (fun hf => absurd hf hst), if_pos rfl]
      rfl
    · have hb : ∀ k : Core, (k.setObj obj.toNat ((c.d.core c.h).obj obj.toNat).held).bar = k.bar := fun _ => rfl
      rw [Core.bar_of_bare hbare, hb, Core.bar_accepted, if_pos hbar.symm, hbar, hcnt]
    · have hq : ((((c.d.core c.h).accepted true y (((c.d.core c.h).eq true).seqa + 1)).setObj obj.toNat ((c.d.core c.h).obj obj.toNat).held).eq true).q =
          ((c.d.core c.h).eq true).q ++ [y] := by
        have := congrArg EQ.q (Core.eq_accepted (c.d.core c.h) true y (((c.d.core c.h).eq true).seqa + 1))
        exact this
      exact (congrArg (fun k : Core => (k.eq true).q) hbare).trans hq

end

/-! ### Drops of sealed lines (R188) -/

theorem AMap.find?_filter_key {α : Type} (m : AMap α) (p : Nat → Bool) (a : Nat) :
    (⟨m.ents.filter (fun e => p e.1)⟩ : AMap α).find? a = if p a then m.find? a else none := by
  rw [AMap.find?_eq_map, AMap.find?_eq_map, List.find?_filter]
  split
  · next hp =>
    congr 1
    refine List.find?_congr fun e _ => ?_
    by_cases he : e.1 = a
    · simp [he, hp]
    · simp [he]
  · next hp =>
    rw [List.find?_eq_none.mpr fun e _ => ?_]
    · rfl
    · by_cases he : e.1 = a
      · simp [he, hp]
      · simp [he]

theorem Dev.bare_core_reply (d : Dev) (h n : Nat) (r : Reply) (j : Nat) : ((d.reply h n r).core j).bare = (d.core j).bare := by
  unfold Dev.reply Dev.wakeSlot Dev.ready
  split
  · rfl
  · split
    · exact Dev.core_updSlot_bare _ _ _ _ _
    · dsimp only
      split
      · split
        · exact (Dev.core_updSlot_bare _ _ _ _ _).trans (Dev.core_updSlot_bare _ _ _ _ _)
        · exact Dev.core_updSlot_bare _ _ _ _ _
      · exact Dev.core_updSlot_bare _ _ _ _ _

/-- What the drops of an extent leave in the L1 of a core. -/
theorem Dev.dropped_spec {e : Dev} {k : Core} {h lo len : Nat} {ss : List Shoot} (hcore : e.core h = k.dropRange lo len) (src n : Nat) :
    (∀ a, lineOf lo ≤ a → a < lo + len → ((Dev.reply { e with shoots := ss } src n (.done 0#64)).core h).l1.find? a = none) ∧
    ∀ a, (a < lineOf lo ∨ lo + len ≤ a) → ((Dev.reply { e with shoots := ss } src n (.done 0#64)).core h).l1.find? a = k.l1.find? a := by
  have hb : ((Dev.reply { e with shoots := ss } src n (.done 0#64)).core h).bare = (k.dropRange lo len).bare :=
    (Dev.bare_core_reply _ _ _ _ _).trans (congrArg Core.bare hcore)
  have hl1 : ∀ a, ((Dev.reply { e with shoots := ss } src n (.done 0#64)).core h).l1.find? a =
      if (!(decide (lineOf lo ≤ a) && decide (a < lo + len))) = true then k.l1.find? a else none := by
    intro a
    refine (congrArg (fun m : AMap CLine => m.find? a) (congrArg Core.l1 hb :)).trans ?_
    exact AMap.find?_filter_key k.l1 (fun b => !(decide (lineOf lo ≤ b) && decide (b < lo + len))) a
  refine ⟨fun a h1 h2 => ?_, fun a hout => ?_⟩
  · rw [hl1, decide_eq_true h1, decide_eq_true h2]
    rfl
  · rw [hl1, if_pos]
    simp only [Bool.not_eq_true', Bool.and_eq_false_iff, decide_eq_false_iff_not]
    omega

theorem sealedLineDrop_completes (h src n lo len : Nat) (x : Shoot) : Event (.sealedLineDrop h src n lo len)
    (fun _ d => d.shoots.find? (fun y => y.h == src && y.n == n && y.lo == lo && y.len == len && y.cores.contains h) = some x ∧
      x.cores = [h] ∧ src < nCores ∧ (d.slot src n).reply ≠ .stale)
    (fun _ d e => (e.slot src n).reply = .done 0#64 ∧ (∀ a, lineOf lo ≤ a → a < lo + len → (e.core h).l1.find? a = none) ∧
      ∀ a, (a < lineOf lo ∨ lo + len ≤ a) → (e.core h).l1.find? a = (d.core h).l1.find? a) := by
  intro s ⟨hfind, hcores, hsrc, hr⟩
  obtain ⟨e, he⟩ : ∃ e, e = s.dev.updCore h (fun c => c.dropRange lo len) := ⟨_, rfl⟩
  have hcore : e.core h = (s.dev.core h).dropRange lo len := by rw [he, Dev.core_updCore_self]
  have hslot : e.slot src n = s.dev.slot src n := by
    rw [he]
    exact Dev.slot_updCore_of (f := fun c => c.dropRange lo len) (fun _ _ => rfl) s.dev h src n
  have hshoots : e.shoots.find? (fun x => x.h == src && x.n == n && x.lo == lo && x.len == len && x.cores.contains h) = some x := by
    rw [he]
    exact hfind
  have herase : (x.cores.erase h).isEmpty = true := by rw [hcores]; simp
  refine ⟨⟨s.mem, { e with shoots := e.shoots.erase x }.reply src n (.done 0#64)⟩, ?_, fun _ => rfl, ?_⟩
  · unfold exec execSealedLineDrop onDev
    dsimp only
    rw [← he, hshoots]
    dsimp only
    rw [if_pos herase, if_pos herase]
  · obtain ⟨h1, h2⟩ := Dev.dropped_spec (ss := e.shoots.erase x) hcore src n
    exact ⟨Dev.reply_reply (d := { e with shoots := e.shoots.erase x }) hsrc (fun hs => hr (hslot ▸ hs)) _, h1, h2⟩

/-- Settles O26. -/
theorem objects : Obligations.Objects := by
  refine ⟨fun obj a b c' d => ⟨?_, oseal_completes obj, oreopen_completes obj, ?_, ostat_reads obj d, ?_, sealing_traps obj⟩,
    sealedLineDrop_completes⟩
  · exact fun s h n w hi ⟨h1, h2, h3, h4, h5, h6, h7, h8, h9⟩ => odecl_completes obj a s h n w hi ⟨h1, h2, h3, h4, h5, h6, h7, h8, h9⟩
  · intro s h n w hi hpre
    obtain ⟨t, ht, hpart, hkept, hpc, hobj, hothers⟩ := ofree_completes obj s h n w hi hpre
    exact ⟨t, ht, hpart, hkept, hpc, congrArg Obj.st hobj, hothers⟩
  · exact fun s h n w hi ⟨h1, ⟨h2, h3⟩, h4, h5, h6, h7, h8, h9, h10, h11, h12, h13⟩ =>
      ocopy_acts obj a b c' s h n w hi ⟨h1, h2, h3, h4, h5, h6, h7, h8, h9, h10, h11, h12, h13⟩

end Sys2Proof.Machine
end

section
/-! PROOFS. Shoot-downs and profiling (R309, R310, R327, R344, R345). -/

namespace Sys2Proof.Machine

/-! ### Shoot-downs begin (R309, R327) -/

/-- Messages sent one by one change nothing but the messages in flight. -/
theorem Dev.foldl_send_eq {α : Type} (ev : α → Ev) (ts : List α) (d : Dev) :
    ∃ net count, ts.foldl (fun d t => d.send 0 (ev t)) d = { d with net := net, count := count } := by
  induction ts generalizing d with
  | nil => exact ⟨d.net, d.count, rfl⟩
  | cons t ts ih =>
    obtain ⟨net, count, h⟩ := ih (d.send 0 (ev t))
    exact ⟨net, count, h⟩

/-- A shoot-down that begins: the slot asks, and every core named is to acknowledge. -/
structure Ctx.ShotFrom (c : Ctx) (dv e : Dev) (cores : List Nat) : Prop where
  reply : (e.slot c.h c.n).reply = .sent
  pc : (e.slot c.h c.n).pc = (dv.slot c.h c.n).pc
  bare : ∀ k, (e.core k).bare = (dv.core k).bare
  xl : e.xl = dv.xl
  asked : ∀ k, k ∈ cores → ∃ y, y ∈ e.shoots ∧ y.h = c.h ∧ y.n = c.n ∧ e.coming dv.clock (.shootdownAck y.id k)

theorem Ctx.shoot_begins (c : Ctx) (dv : Dev) (lo len : Nat) {cores : List Nat} (hne : cores ≠ []) :
    ∃ e, c.shoot dv lo len cores = .skip e ∧ c.ShotFrom dv e cores := by
  obtain ⟨d0, h0⟩ : ∃ d0, d0 = ({ dv.updSlot c.h c.n (fun s => { s with reply := .sent }) with
    shoots := dv.shoots ++ [⟨dv.count, c.h, c.n, lo, len, cores⟩], count := dv.count + 1 } : Dev) := ⟨_, rfl⟩
  obtain ⟨net, count, hfold⟩ := Dev.foldl_send_eq (fun t => .shootdownAck dv.count t) cores d0
  have hcoming := (Dev.coming_foldl_send_on (fun t => .shootdownAck dv.count t) (fun _ => 0) cores d0 (clock := dv.clock) (by rw [h0]; rfl)).1
  have hslot : d0.slot c.h c.n = { dv.slot c.h c.n with reply := .sent } := by
    rw [h0]
    exact Dev.slot_updSlot_self _ _ _ _
  have hbare : ∀ k, (d0.core k).bare = (dv.core k).bare := fun k => by
    rw [h0]
    exact Dev.core_updSlot_bare _ _ _ _ _
  refine ⟨cores.foldl (fun d t => d.send 0 (.shootdownAck dv.count t)) d0, ?_, ?_, ?_, ?_, ?_, ?_⟩
  · unfold Ctx.shoot
    rw [if_neg (by simpa using hne), h0]
  · rw [hfold]
    exact congrArg Slot.reply hslot
  · rw [hfold]
    exact (congrArg Slot.pc hslot :)
  · rw [hfold]
    exact hbare
  · rw [hfold, h0]
    rfl
  · refine fun k hk => ⟨⟨dv.count, c.h, c.n, lo, len, cores⟩, ?_, rfl, rfl, hcoming k hk⟩
    rw [hfold, h0]
    exact List.mem_append_right _ (List.mem_singleton.mpr rfl)

/-- A shoot-down form that begins. -/
theorem shootForm_begins {i : Instr} {u : Use} {body : Ctx → Res} {pre : Ctx → Prop} {post : Ctx → Dev → Prop} (dv : Ctx → Dev) (lo len : Ctx → Nat)
    (cores : Ctx → List Nat) (he : ∀ s, exec i s = thread u body s)
    (hb : ∀ c, pre c → body c = c.shootForm (c.shoot (dv c) (lo c) (len c) (cores c)))
    (hslot : ∀ c, (dv c).slot c.h c.n = c.d.slot c.h c.n) (hclock : ∀ c, (dv c).clock = c.d.clock)
    (hpost : ∀ c e, pre c → (∀ k, (e.core k).bare = ((dv c).core k).bare) → e.xl = (dv c).xl → post c e) :
    ∀ s h n w', s.issues h n w' u → pre (s.ctx h n w') → (s.dev.slot h n).reply = .idle → cores (s.ctx h n w') ≠ [] →
      ∃ t, exec i s = .next t ∧ (t.dev.slot h n).reply = .sent ∧ (t.dev.slot h n).pc = (s.dev.slot h n).pc ∧ post (s.ctx h n w') t.dev ∧
        ∀ k, k ∈ cores (s.ctx h n w') → ∃ y, y ∈ t.dev.shoots ∧ y.h = h ∧ y.n = n ∧ t.dev.coming s.dev.clock (.shootdownAck y.id k) := by
  intro s h n w' hi hpre hr hne
  obtain ⟨e, hshoot, hfrom⟩ := (s.ctx h n w').shoot_begins (dv (s.ctx h n w')) (lo _) (len _) hne
  have hform : body (s.ctx h n w') = .skip e := by
    rw [hb _ hpre, Ctx.shootForm, show (s.ctx h n w').s.reply = .idle from hr]
    exact hshoot
  refine ⟨⟨s.mem, e⟩, ?_, hfrom.reply, hfrom.pc.trans (congrArg Slot.pc (hslot _)), hpost _ _ hpre hfrom.bare hfrom.xl, fun k hk => ?_⟩
  · rw [he, thread_issues u body s h n w' hi, hform]
    rfl
  · obtain ⟨y, hy, hyh, hyn, hack⟩ := hfrom.asked k hk
    exact ⟨y, hy, hyh, hyn, hclock (s.ctx h n w') ▸ hack⟩

/-- A shoot-down form that every core has answered completes. -/
theorem shootForm_completes {i : Instr} {u : Use} {body : Ctx → Res} {pre : Ctx → Prop} {r : W64} (begin_ : Ctx → Res)
    (he : ∀ s, exec i s = thread u body s) (hb : ∀ c, pre c → body c = c.shootForm (begin_ c)) :
    CompletesWhen i u (fun c => pre c ∧ c.s.reply = .done r) [] [] [] (fun c s => s.pc = c.s.pc + 8#64) := by
  refine completesWhen_of he (fun c hc ⟨hp, hr⟩ => ⟨c.d, c.s, c.s.pc + 8#64, ?_, .refl hc, .refl _, rfl⟩)
  rw [hb c hp, Ctx.shootForm, hr]
  rfl

/-! ### plbinv (R309) -/

section
variable (a b : AReg)

/-- The entry of a protection buffer that a plbinv names. -/
def Ctx.plbGone (c : Ctx) (v : W64) (e : PlbEnt) : Bool := e.terr == terrOf c.s.lk && (v == BitVec.allOnes 64 || e.dom == v.toNat)

/-- The cores of the terrace. -/
def Ctx.terrCores (c : Ctx) : List Nat := c.d.cores.keys.filter (c.d.terrace (terrOf c.s.lk)).has

/-- The device without the entries that a plbinv names. -/
def Ctx.plbDropped (c : Ctx) (v : W64) : Dev :=
  c.terrCores.foldl (fun d h => d.updCore h (fun k => { k with plb := k.plb.filter (fun e => !c.plbGone v e) })) c.d

theorem Dev.foldl_dropPlb (p : PlbEnt → Bool) (hs : List Nat) (d : Dev) (k : Nat) :
    ((hs.foldl (fun d h => d.updCore h (fun k => { k with plb := k.plb.filter p })) d).core k).plb =
      if k ∈ hs then (d.core k).plb.filter p else (d.core k).plb := by
  induction hs generalizing d with
  | nil => rfl
  | cons h hs ih =>
    rw [List.foldl_cons, ih]
    by_cases hk : k = h
    · rw [hk, Dev.core_updCore_self, if_pos List.mem_cons_self]
      split
      · exact List.filter_filter.trans (by simp)
      · rfl
    · rw [Dev.core_updCore_ne _ _ _ _ hk]
      simp [hk]

theorem Dev.foldl_dropPlb_slot (p : PlbEnt → Bool) (hs : List Nat) (d : Dev) (h n : Nat) :
    (hs.foldl (fun d h => d.updCore h (fun k => { k with plb := k.plb.filter p })) d).slot h n = d.slot h n ∧
    (hs.foldl (fun d h => d.updCore h (fun k => { k with plb := k.plb.filter p })) d).clock = d.clock := by
  induction hs generalizing d with
  | nil => exact ⟨rfl, rfl⟩
  | cons x hs ih =>
    obtain ⟨h1, h2⟩ := ih (d.updCore x (fun k => { k with plb := k.plb.filter p }))
    exact ⟨h1.trans (Dev.slot_updCore_of (f := fun k => { k with plb := k.plb.filter p }) (fun _ _ => rfl) d x h n), h2⟩

/-- A core that the device does not list is as at reset. -/
theorem Dev.core_of_not_mem {d : Dev} {k : Nat} (h : k ∉ d.cores.keys) : d.core k = Core.init := by
  have hnone : d.cores.find? k = none := by
    rw [AMap.find?_eq_map, List.find?_eq_none.mpr, Option.map_none]
    intro e he hk
    exact h (List.mem_map.mpr ⟨e, he, by simpa using hk⟩)
  rw [Dev.core, AMap.get, hnone]
  rfl

/-- What is left of a terrace's buffers after a plbinv. -/
theorem Ctx.plb_dropped (c : Ctx) (v : W64) {k : Nat} (hk : (c.d.terrace (terrOf c.s.lk)).has k = true) :
    ((c.plbDropped v).core k).plb = (c.d.core k).plb.filter (fun e => !c.plbGone v e) := by
  unfold Ctx.plbDropped
  rw [Dev.foldl_dropPlb]
  split
  · rfl
  · next hmem =>
    have hout : k ∉ c.d.cores.keys := fun h => hmem (List.mem_filter.mpr ⟨h, hk⟩)
    rw [Dev.core_of_not_mem hout]
    rfl

theorem exec_plbinv (s : State) : exec (.plbinv a) s = thread ((useA [ra a]).privileged) (fun c =>
    if c.s.A a.toNat ≠ BitVec.allOnes 64 ∧ 4096 ≤ (c.s.A a.toNat).toNat then c.faultAt 0x82 5 (c.s.A a.toNat)
    else c.shootForm (c.shoot (c.plbDropped (c.s.A a.toNat)) 0 allRights c.terrCores)) s := by
  unfold exec execPlbinv
  rfl

theorem plbinv_named {c : Ctx} (h : c.s.A a.toNat = BitVec.allOnes 64 ∨ (c.s.A a.toNat).toNat < 4096) :
    ¬(c.s.A a.toNat ≠ BitVec.allOnes 64 ∧ 4096 ≤ (c.s.A a.toNat).toNat) := by
  rintro ⟨h1, h2⟩
  exact h.elim h1 (fun h3 => by omega)

theorem plbinv_begins : ∀ s h n w', s.issues h n w' (useA [ra a]).privileged →
    ((s.ctx h n w').s.A a.toNat = BitVec.allOnes 64 ∨ ((s.ctx h n w').s.A a.toNat).toNat < 4096) → (s.dev.slot h n).reply = .idle →
    (s.ctx h n w').terrCores ≠ [] →
      ∃ t, exec (.plbinv a) s = .next t ∧ (t.dev.slot h n).reply = .sent ∧ (t.dev.slot h n).pc = (s.dev.slot h n).pc ∧
        (∀ k y, (s.dev.terrace (terrOf (s.dev.slot h n).lk)).has k = true → y ∈ (t.dev.core k).plb → y.terr = terrOf (s.dev.slot h n).lk →
          (s.dev.slot h n).A a.toNat ≠ BitVec.allOnes 64 ∧ y.dom ≠ ((s.dev.slot h n).A a.toNat).toNat) ∧
        ∀ k, k ∈ (s.ctx h n w').terrCores → ∃ y, y ∈ t.dev.shoots ∧ y.h = h ∧ y.n = n ∧ t.dev.coming s.dev.clock (.shootdownAck y.id k) := by
  refine shootForm_begins (pre := fun c => c.s.A a.toNat = BitVec.allOnes 64 ∨ (c.s.A a.toNat).toNat < 4096)
    (post := fun c e => ∀ k y, (c.d.terrace (terrOf c.s.lk)).has k = true → y ∈ (e.core k).plb → y.terr = terrOf c.s.lk →
      c.s.A a.toNat ≠ BitVec.allOnes 64 ∧ y.dom ≠ (c.s.A a.toNat).toNat)
    (fun c => c.plbDropped (c.s.A a.toNat)) (fun _ => 0) (fun _ => allRights) Ctx.terrCores (exec_plbinv a)
    (fun c h => if_neg (plbinv_named a h)) (fun c => (Dev.foldl_dropPlb_slot _ _ _ _ _).1) (fun c => (Dev.foldl_dropPlb_slot _ _ _ c.h c.n).2) ?_
  intro c e _ hbare _ k y hk hy ht
  have hplb : (e.core k).plb = (c.d.core k).plb.filter (fun e => !c.plbGone (c.s.A a.toNat) e) :=
    (congrArg Core.plb (hbare k) :).trans (c.plb_dropped _ hk)
  rw [hplb] at hy
  have hkept := (List.mem_filter.mp hy).2
  unfold Ctx.plbGone at hkept
  rw [ht] at hkept
  simpa using hkept

theorem plbinv_completes (r : W64) : CompletesWhen (.plbinv a) (useA [ra a]).privileged
    (fun c => (c.s.A a.toNat = BitVec.allOnes 64 ∨ (c.s.A a.toNat).toNat < 4096) ∧ c.s.reply = .done r) [] [] [] (fun c s => s.pc = c.s.pc + 8#64) :=
  shootForm_completes _ (exec_plbinv a) (fun _ h => if_neg (plbinv_named a h))

theorem plbinv_traps : TrapsWhen (.plbinv a) (useA [ra a]).privileged
    (fun c => c.s.A a.toNat ≠ BitVec.allOnes 64 ∧ 4096 ≤ (c.s.A a.toNat).toNat) 0x82 (fun _ => 5) (fun c => c.s.A a.toNat) :=
  trapsWhen_of (exec_plbinv a) (fun _ _ h => ⟨_, if_pos h⟩)

/-! ### tlbinv (R309) -/

/-- The range of a tlbinv. -/
def Ctx.tlbLo (c : Ctx) : Nat := if (c.s.A b.toNat).getLsbD 3 then 0 else (c.s.A a.toNat).toNat
def Ctx.tlbLen (c : Ctx) : Nat := if (c.s.A b.toNat).getLsbD 3 then allPages else pageSize ((c.s.A b.toNat).toNat % 8)

/-- The device without the translations of a range. -/
def Dev.xlDropped (d : Dev) (lo len : Nat) : Dev :=
  { d.redoTasks lo len with xl := ⟨d.xl.ents.map (fun e => (e.1, e.2.filter (fun l => !overlaps l.base l.size lo len)))⟩ }

theorem exec_tlbinv (s : State) : exec (.tlbinv a b) s = thread ((useA [ra a, ra b]).privileged) (fun c =>
    if (c.s.A b.toNat).extractLsb' 4 60 ≠ 0#60 then c.faultAt 0x82 5 (c.s.A b.toNat)
    else if (c.s.A a.toNat).toNat % pageSize ((c.s.A b.toNat).toNat % 8) ≠ 0 then c.faultAt 0x82 5 (c.s.A a.toNat)
    else c.shootForm (c.shoot (c.d.xlDropped (c.tlbLo a b) (c.tlbLen b)) (c.tlbLo a b) (c.tlbLen b) c.d.cores.keys)) s := by
  unfold exec execTlbinv
  rfl

theorem extractLsb'_4_60 {v : W64} : v.extractLsb' 4 60 = 0#60 ↔ v.toNat < 16 := by
  rw [← BitVec.toNat_inj]
  simp only [BitVec.extractLsb'_toNat, BitVec.toNat_ofNat, Nat.shiftRight_eq_div_pow]
  have := v.isLt
  omega

theorem tlbinv_body {c : Ctx} (h : (c.s.A b.toNat).toNat < 16 ∧ (c.s.A a.toNat).toNat % pageSize ((c.s.A b.toNat).toNat % 8) = 0) (r : Res) :
    (if (c.s.A b.toNat).extractLsb' 4 60 ≠ 0#60 then c.faultAt 0x82 5 (c.s.A b.toNat)
    else if (c.s.A a.toNat).toNat % pageSize ((c.s.A b.toNat).toNat % 8) ≠ 0 then c.faultAt 0x82 5 (c.s.A a.toNat) else r) = r := by
  rw [if_neg (fun g => g (extractLsb'_4_60.mpr h.1)), if_neg (fun g => g h.2)]

theorem tlbinv_begins : ∀ s h n w', s.issues h n w' (useA [ra a, ra b]).privileged →
    (((s.ctx h n w').s.A b.toNat).toNat < 16 ∧ ((s.ctx h n w').s.A a.toNat).toNat % pageSize (((s.ctx h n w').s.A b.toNat).toNat % 8) = 0) →
    (s.dev.slot h n).reply = .idle → (s.ctx h n w').d.cores.keys ≠ [] →
      ∃ t, exec (.tlbinv a b) s = .next t ∧ (t.dev.slot h n).reply = .sent ∧ (t.dev.slot h n).pc = (s.dev.slot h n).pc ∧
        (∀ k ls y, t.dev.xl.find? k = some ls → y ∈ ls → overlaps y.base y.size ((s.ctx h n w').tlbLo a b) ((s.ctx h n w').tlbLen b) = false) ∧
        ∀ k, k ∈ (s.ctx h n w').d.cores.keys → ∃ y, y ∈ t.dev.shoots ∧ y.h = h ∧ y.n = n ∧ t.dev.coming s.dev.clock (.shootdownAck y.id k) := by
  refine shootForm_begins (pre := fun c => (c.s.A b.toNat).toNat < 16 ∧ (c.s.A a.toNat).toNat % pageSize ((c.s.A b.toNat).toNat % 8) = 0)
    (post := fun c e => ∀ k ls y, e.xl.find? k = some ls → y ∈ ls → overlaps y.base y.size (c.tlbLo a b) (c.tlbLen b) = false)
    (fun c => c.d.xlDropped (c.tlbLo a b) (c.tlbLen b)) _ _ (fun c => c.d.cores.keys) (exec_tlbinv a b) (fun c h => tlbinv_body a b h _)
    (fun _ => rfl) (fun _ => rfl) ?_
  intro c e _ _ hxl k ls y hls hy
  rw [hxl] at hls
  obtain ⟨x, -, hx⟩ := List.mem_map.mp (AMap.mem_of_find? hls)
  obtain ⟨rfl, rfl⟩ := Prod.mk.inj hx
  simpa using (List.mem_filter.mp hy).2

theorem tlbinv_completes (r : W64) : CompletesWhen (.tlbinv a b) (useA [ra a, ra b]).privileged
    (fun c => ((c.s.A b.toNat).toNat < 16 ∧ (c.s.A a.toNat).toNat % pageSize ((c.s.A b.toNat).toNat % 8) = 0) ∧ c.s.reply = .done r) [] [] []
    (fun c s => s.pc = c.s.pc + 8#64) :=
  shootForm_completes _ (exec_tlbinv a b) (fun _ h => tlbinv_body a b h _)

theorem tlbinv_traps : TrapsWhen (.tlbinv a b) (useA [ra a, ra b]).privileged (fun c => 16 ≤ (c.s.A b.toNat).toNat) 0x82 (fun _ => 5)
    (fun c => c.s.A b.toNat) :=
  trapsWhen_of (exec_tlbinv a b) (fun c _ h => ⟨_, if_pos (fun g => by have := extractLsb'_4_60.mp g; omega)⟩)

end

/-! ### Acknowledgements of a shoot-down (R327) -/

/-- What the acknowledgement of a core does to its L1 and its instruction cache. -/
def Dev.ackDropped (d : Dev) (x : Shoot) (h : Nat) : Dev :=
  if (d.terrace (terrOf (d.slot x.h x.n).lk)).has h && decide (x.len ≤ allPages) then d.updCore h (fun c => c.dropPages x.lo x.len) else d

theorem Dev.slot_ackDropped (d : Dev) (x : Shoot) (h j n : Nat) : (d.ackDropped x h).slot j n = d.slot j n := by
  unfold Dev.ackDropped
  split
  · exact Dev.slot_updCore_of (f := fun c => c.dropPages x.lo x.len) (fun _ _ => rfl) d h j n
  · rfl

/-- The device once a shoot-down that all have acknowledged is taken off the list. -/
def Dev.shotDown (d : Dev) (x : Shoot) : Dev := { d with shoots := d.shoots.erase x }

theorem exec_shootdownAck_last {s : State} {id h : Nat} {x : Shoot} (hfind : s.dev.shoots.find? (fun y => y.id == id) = some x)
    (hcores : x.cores = [h]) (hold : s.dev.usesOld x h = false) :
    exec (.shootdownAck id h) s = .next ⟨s.mem, ((s.dev.ackDropped x h).shotDown x).reply x.h x.n (.done 0#64)⟩ := by
  have herase : (x.cores.erase h).isEmpty = true := by rw [hcores]; simp
  have hhas : x.cores.contains h = true := by rw [hcores]; simp
  unfold exec execShootdownAck onDev
  dsimp only
  rw [hfind]
  dsimp only
  rw [hhas, hold, if_pos herase, if_pos herase]
  rfl

theorem shootdownAck_ends (id h : Nat) (x : Shoot) : Event (.shootdownAck id h)
    (fun _ d => d.shoots.find? (fun y => y.id == id) = some x ∧ x.cores = [h] ∧ x.h < nCores ∧ (d.slot x.h x.n).reply ≠ .stale ∧ d.usesOld x h = false)
    (fun _ _ e => (e.slot x.h x.n).reply = .done 0#64) := by
  intro s ⟨hfind, hcores, hh, hr, hold⟩
  refine ⟨_, exec_shootdownAck_last hfind hcores hold, fun _ => rfl, Dev.reply_reply hh (fun hs => hr ?_) _⟩
  exact (congrArg Slot.reply (s.dev.slot_ackDropped x h x.h x.n)).symm.trans hs

theorem shootdownAck_waits (id h : Nat) (x : Shoot) : Event (.shootdownAck id h)
    (fun _ d => d.shoots.find? (fun y => y.id == id) = some x ∧ x.cores.contains h = true ∧ d.usesOld x h = true)
    (fun _ d e => e.coming d.clock (.shootdownAck id h) ∧ e.shoots = d.shoots) := by
  intro s ⟨hfind, hhas, hold⟩
  refine ⟨_, rfl, fun _ => rfl, ?_⟩
  dsimp only
  rw [hfind]
  dsimp only
  rw [hhas, hold, if_neg (by decide), if_pos rfl]
  exact ⟨⟨_, List.mem_append_right _ (List.mem_singleton.mpr rfl), rfl, Nat.lt_succ_self _⟩, rfl⟩

/-! ### Profiling (R310, R344, R345) -/

section
variable (d a : AReg) (g i : Nat)

/-- The selector names a count of the core's own. -/
structure Selects (v : W64) : Prop where
  group : g < 4
  value : v.toNat = 256 * g + i
  index : i < [64, 16, 1, 1].getD g 0

variable {g i}

theorem Selects.selector {v : W64} (h : Selects g i v) (whole : Bool) : selector v whole = some (g, i) := by
  have hv := h.value
  have hg := h.group
  have hi : i < 256 ∧ [64, 16, 1, 1, 210].getD g 0 = [64, 16, 1, 1].getD g 0 := by
    have := h.index
    match g, hg with
    | 0, _ => exact ⟨by simp at this; omega, rfl⟩
    | 1, _ => exact ⟨by simp at this; omega, rfl⟩
    | 2, _ => exact ⟨by simp at this; omega, rfl⟩
    | 3, _ => exact ⟨by simp at this; omega, rfl⟩
  have h8 : (v.extractLsb' 8 4).toNat = g := by
    rw [BitVec.extractLsb'_toNat, Nat.shiftRight_eq_div_pow]
    omega
  have h0 : (v.extractLsb' 0 8).toNat = i := by
    rw [BitVec.extractLsb'_toNat, Nat.shiftRight_eq_div_pow]
    omega
  have h12 : v.extractLsb' 12 52 = 0#52 := by
    rw [← BitVec.toNat_inj, BitVec.extractLsb'_toNat, Nat.shiftRight_eq_div_pow, BitVec.toNat_ofNat]
    omega
  unfold Machine.selector
  rw [h8, h0, h12]
  exact if_pos ⟨rfl, Or.inl (hi.2 ▸ h.index)⟩

/-- A form that answers in its register and changes what lies beyond the cores. -/
theorem answers_acts {i : Instr} {u : Use} {body : Ctx → Res} {pre : Ctx → Prop} {post : Ctx → Dev → Prop} (dv : Ctx → Dev) (r : Ctx → W64)
    (he : ∀ s, exec i s = thread u body s) (hb : ∀ c, pre c → body c = .done ((dv c).setSlot c.h c.n (c.s.setA d.toNat (r c))))
    (hp : ∀ c e, pre c → (e.slot c.h c.n).A d.toNat = (if d = 0#4 then 0#64 else r c) → e.still = (dv c).still → post c e) :
    Acts i u pre [d.toNat] [] [] post := by
  refine acts_of he (fun c hc h => ⟨_, hb c h, ?_, hp c _ h ?_ (Ctx.finish_still _ _ _ _)⟩)
  · rw [Dev.slot_setSlot_self]
    have hkept := KeptRegs.setA c.s d.toNat (r c)
    exact ⟨hkept.aregs, hkept.vregs, hkept.kregs⟩
  · rw [Ctx.finish_slot _ _ _ _ hc.step, Dev.slot_setSlot_self]
    exact Slot.A_setA_self _ _ _

theorem profRd_acts : Acts (.profRd d a) (useA [wa d, ra a]) (fun c => Selects g i (c.s.A a.toNat)) [d.toNat] [] []
    (fun c e => ((e.slot c.h c.n).A d.toNat = if d = 0#4 then 0#64 else (c.d.core c.h).prof.get 0#64 (256 * g + i)) ∧ e.still = c.d.still) := by
  refine answers_acts d (fun c => c.d) (fun c => (c.d.core c.h).prof.get 0#64 (256 * g + i)) (fun _ => by unfold exec execProfRd; rfl)
    (fun c h => ?_) (fun c e _ hA hs => ⟨hA, hs⟩)
  have hcount : c.d.profCount c.h (terrOf c.s.lk) g i = (c.d.core c.h).prof.get 0#64 (256 * g + i) := by
    have := h.group
    rw [Dev.profCount, if_neg (by omega), Nat.mul_comm]
  dsimp only
  rw [h.selector false, ← hcount]
  rfl

theorem profClr_acts : Acts (.profClr a) (useA [ra a]) (fun c => Selects g i (c.s.A a.toNat) ∧ c.s.priv = true) [] [] []
    (fun c e => (e.core c.h).prof.get 0#64 (256 * g + i) = 0#64 ∧
      ∀ k, k ≠ 256 * g + i → (e.core c.h).prof.get 0#64 k = (c.d.core c.h).prof.get 0#64 k) := by
  refine acts_of (fun _ => by unfold exec execProfClr; rfl) (fun c hc ⟨h, hpriv⟩ => ?_)
  have hg := h.group
  have hi : i ≠ 255 := by
    have := h.index
    rintro rfl
    match g, hg with
    | 0, _ => exact absurd this (by decide)
    | 1, _ => exact absurd this (by decide)
    | 2, _ => exact absurd this (by decide)
    | 3, _ => exact absurd this (by decide)
  dsimp only
  rw [hpriv, h.selector true]
  refine ⟨c.d.profZero c.h (terrOf c.s.lk) g i, ?_, ?_, ?_⟩
  · simp only [Bool.not_true, Bool.false_and, Bool.false_eq_true, if_false]
    rw [if_neg hi]
    rfl
  · have hslot : (c.d.profZero c.h (terrOf c.s.lk) g i).slot c.h c.n = c.d.slot c.h c.n := by
      have hset : ∀ f : AMap W64 → AMap W64, (c.d.updCore c.h (fun k => { k with prof := f k.prof })).slot c.h c.n = c.d.slot c.h c.n :=
        fun f => Dev.slot_updCore_of (f := fun k => { k with prof := f k.prof }) (fun _ _ => rfl) c.d c.h c.h c.n
      exact hset (fun m => if g = 4 then m.put (1024 + i) (c.d.shared.get 0#64 (terrOf c.s.lk * 256 + i)) else m.erase (g * 256 + i))
    rw [hslot, hc.own]
    exact .refl _
  · have hprof : ((c.finish (useA [ra a]) (c.d.profZero c.h (terrOf c.s.lk) g i) (c.s.pc + 8#64)).core c.h).prof =
        (c.d.core c.h).prof.erase (256 * g + i) := by
      have hbare := Ctx.finish_core_bare c (useA [ra a]) (c.d.profZero c.h (terrOf c.s.lk) g i) (c.s.pc + 8#64) hc.step c.h
      refine (congrArg Core.prof hbare :).trans ?_
      unfold Dev.profZero
      rw [Dev.core_updCore_self]
      exact (if_neg (by omega)).trans (by rw [Nat.mul_comm])
    rw [hprof]
    exact ⟨by rw [AMap.get_erase, if_pos rfl], fun k hk => by rw [AMap.get_erase, if_neg (Ne.symm hk)]⟩

theorem profClr_traps : TrapsWhen (.profClr a) (useA [ra a]) (fun c => c.s.priv = false ∧ c.d.profHolder ≠ some (terrOf c.s.lk)) 0x80
    (fun _ => 5) (fun c => c.w) := by
  refine trapsWhen_of (fun _ => by unfold exec execProfClr; rfl) (fun c hc ⟨hp, hh⟩ => ⟨Config.freeLanes c.d.count, if_pos ?_⟩)
  rw [hp]
  simpa using hh

theorem profLease_returns : Acts (.profLease d a) (useA [wa d, ra a]) (fun c => c.s.A a.toNat = 0#64) [d.toNat] [] []
    (fun c e => (e.slot c.h c.n).A d.toNat = 0#64 ∧ e.profHolder ≠ some (terrOf c.s.lk) ∧ terrOf c.s.lk ∉ e.profQueue) := by
  refine answers_acts d (fun c => c.d.profReturn (terrOf c.s.lk)) (fun _ => 0#64) (fun _ => by unfold exec execProfLease; rfl)
    (fun c h => if_pos h) (fun c e _ hA hs => ?_)
  have hholder : e.profHolder = if c.d.profHolder = some (terrOf c.s.lk) then none else c.d.profHolder := (congrArg Dev.profHolder hs :)
  have hqueue : e.profQueue = c.d.profQueue.filter (· != terrOf c.s.lk) := (congrArg Dev.profQueue hs :)
  refine ⟨hA.trans (by split <;> rfl), fun hh => ?_, fun hq => ?_⟩
  · have hret := hholder.symm.trans hh
    by_cases hown : c.d.profHolder = some (terrOf c.s.lk)
    · exact nomatch (if_pos hown).symm.trans hret
    · exact hown ((if_neg hown).symm.trans hret)
  · rw [hqueue] at hq
    simpa using (List.mem_filter.mp hq).2

/-- The device once a terrace has asked for the profiling lease. -/
def Ctx.profAsked (c : Ctx) : Dev :=
  if c.d.profHolder = some (terrOf c.s.lk) then c.d
  else { c.d with profQueue := if c.d.profQueue.contains (terrOf c.s.lk) then c.d.profQueue else c.d.profQueue ++ [terrOf c.s.lk] }

theorem profLease_asks : Acts (.profLease d a) (useA [wa d, ra a]) (fun c => c.s.A a.toNat = 1#64) [d.toNat] [] []
    (fun c e => e.profHolder = c.d.profHolder ∧
      (c.d.profHolder = some (terrOf c.s.lk) → (d ≠ 0#4 → (e.slot c.h c.n).A d.toNat = 2#64) ∧ e.profQueue = c.d.profQueue) ∧
      (c.d.profHolder ≠ some (terrOf c.s.lk) → (d ≠ 0#4 → (e.slot c.h c.n).A d.toNat = 1#64) ∧ terrOf c.s.lk ∈ e.profQueue)) := by
  refine answers_acts d Ctx.profAsked (fun c => if c.d.profHolder = some (terrOf c.s.lk) then 2#64 else 1#64) (fun _ => by unfold exec execProfLease; rfl)
    (fun c h => ?_) (fun c e _ hA hs => ?_)
  · dsimp only
    unfold Ctx.profAsked
    rw [h, if_neg (by decide), if_pos rfl]
    by_cases hown : c.d.profHolder = some (terrOf c.s.lk)
    · rw [if_pos hown, if_pos hown, if_pos hown]
    · rw [if_neg hown, if_neg hown, if_neg hown]
  · have hholder : e.profHolder = c.profAsked.profHolder := (congrArg Dev.profHolder hs :)
    have hqueue : e.profQueue = c.profAsked.profQueue := (congrArg Dev.profQueue hs :)
    rw [hholder, hqueue, hA]
    unfold Ctx.profAsked
    by_cases hown : c.d.profHolder = some (terrOf c.s.lk)
    · rw [if_pos hown, if_pos hown]
      exact ⟨rfl, fun _ => ⟨fun hd => if_neg hd, rfl⟩, fun hn => absurd hown hn⟩
    · rw [if_neg hown, if_neg hown]
      refine ⟨rfl, fun hn => absurd hn hown, fun _ => ⟨fun hd => if_neg hd, ?_⟩⟩
      dsimp only
      split
      · next hin => exact List.contains_iff_mem.mp hin
      · exact List.mem_append_right _ (List.mem_singleton.mpr rfl)

theorem profLease_granted (t : Nat) : Event (.profLeaseGrant t) (fun _ d => d.profHolder = none ∧ d.profQueue.head? = some t)
    (fun _ d e => e.profHolder = some t ∧ e.profQueue = d.profQueue.drop 1 ∧ ∀ k, e.shared.get 0#64 (256 * t + k % 256) = 0#64) := by
  intro s ⟨hh, hq⟩
  refine ⟨_, rfl, fun _ => rfl, ?_⟩
  dsimp only
  rw [hh, hq]
  simp only [Option.isSome_none, Bool.false_or, bne_self_eq_false, Bool.false_eq_true, if_false]
  refine ⟨trivial, trivial, fun k => ?_⟩
  have hkey := AMap.find?_filter_key s.dev.shared (fun k => k / 256 != t) (256 * t + k % 256)
  rw [if_neg (by simp; omega)] at hkey
  rw [AMap.get, hkey]
  rfl

end

/-- Settles O42. -/
theorem shootdownsAndProfiling : Obligations.ShootdownsAndProfiling := by
  refine fun a b d r id h i g x t => ⟨plbinv_begins a, plbinv_completes a r, plbinv_traps a, tlbinv_begins a b, tlbinv_completes a b r, tlbinv_traps a b,
    shootdownAck_ends id h x, shootdownAck_waits id h x, ?_, ?_, profClr_traps a, profLease_returns d a, profLease_asks d a, profLease_granted t⟩
  · exact fun s h' n w hi ⟨h1, h2, h3⟩ => profRd_acts d a s h' n w hi ⟨h1, h2, h3⟩
  · exact fun s h' n w hi ⟨⟨h1, h2, h3⟩, hp⟩ => profClr_acts a s h' n w hi ⟨⟨h1, h2, h3⟩, hp⟩

end Sys2Proof.Machine
end

section
/-! PROOFS. A halt whose FREE slot makes room on the link (R76, R103). -/

namespace Sys2Proof.Machine

/-- Core 0 holds four writes from above for slot 0, whose turn it is; behind them on the link stands a write for a register of slot 1 that
awaits one. -/
def heldLinkState : State :=
  ⟨⟨[]⟩, { Dev.reset.updCore 0 (fun c => { c with
    slots := (c.slots.put 0 { Slot.init with st := .seated 0 }).put 1
      { Slot.init with st := .ready, winCount := 1, vst := AMap.empty.put 0 (.awaiting .up) }
    linkUp := List.replicate 4 (0, 0, 0, 0#512), waitUp := [(1, 0, 0, 1#512)] }) with cur := .slot 0 0 0#64 }⟩

/-- The halt of slot 0 makes room on the link, and the write for slot 1 lands. -/
theorem exec_halt_heldLinkState : ∃ t, exec (.halt false) heldLinkState = .next t ∧ (t.dev.slot 0 1).V 0 = 1#512 :=
  ⟨_, rfl, rfl⟩

/-- Refutes O41: its clause on halt says that every other slot keeps its registers. A FREE slot's held link writes are discarded
(R103), so that a write which stood on the link behind four of them lands in a register of another slot that awaits it. -/
theorem not_haltSeatsGranules : ¬ Obligations.HaltSeatsGranules := by
  intro h
  obtain ⟨hhalt, -⟩ := h false 0 0
  obtain ⟨t, ht, -, -, hothers, -⟩ := hhalt heldLinkState 0 0 0#64 ⟨rfl, rfl, rfl⟩ ⟨⟨by decide, rfl, rfl, by decide⟩, rfl, rfl, by decide⟩
  obtain ⟨u, hu, hv⟩ := exec_halt_heldLinkState
  have htu : t = u := Host.Outcome.next.inj (ht.symm.trans hu)
  have hkept := (hothers 0 1 0 (by decide)).2.1
  rw [htu, hv] at hkept
  have hbit : (1#512).getLsbD 0 = (0#512).getLsbD 0 := congrArg (fun v : V512 => v.getLsbD 0) hkept
  exact absurd hbit (by simp)

end Sys2Proof.Machine
end

section
/-! PROOFS. Commands to slots (R298 to R302). -/

namespace Sys2Proof.Machine

/-! ### Slots that wait for an answer go on waiting (R24) -/

/-- From d to e every slot that waits for an answer still waits for it. -/
def Dev.KeepsSent (d e : Dev) : Prop := ∀ h n, (d.slot h n).reply = .sent → (e.slot h n).reply = .sent

namespace Dev.KeepsSent

theorem refl (d : Dev) : d.KeepsSent d := fun _ _ h => h
theorem trans {d e f : Dev} (h : d.KeepsSent e) (g : e.KeepsSent f) : d.KeepsSent f := fun j n hs => g j n (h j n hs)

theorem of_slots {d e : Dev} (h : ∀ j n, e.slot j n = d.slot j n) : d.KeepsSent e := fun j n hs => (congrArg Slot.reply (h j n)).trans hs

theorem of_cores {d e : Dev} (h : e.cores = d.cores) : d.KeepsSent e :=
  of_slots fun j n => by rw [Dev.slot, Dev.core, h, ← Dev.core, ← Dev.slot]

theorem updSlot (d : Dev) (h n : Nat) {f : Slot → Slot} (hf : (d.slot h n).reply = .sent → (f (d.slot h n)).reply = .sent) :
    d.KeepsSent (d.updSlot h n f) := by
  intro j m hs
  by_cases hj : j = h ∧ m = n
  · obtain ⟨rfl, rfl⟩ := hj
    rw [Dev.slot_updSlot_self]
    exact hf hs
  · rw [Dev.slot_updSlot_ne _ _ _ _ _ _ hj]
    exact hs

theorem updCore (d : Dev) (h : Nat) {f : Core → Core} (hf : ∀ n, ((d.core h).slot n).reply = .sent → ((f (d.core h)).slot n).reply = .sent) :
    d.KeepsSent (d.updCore h f) := by
  intro j m hs
  by_cases hj : j = h
  · rw [hj] at hs ⊢
    rw [Dev.slot, Dev.core_updCore_self]
    exact hf m hs
  · rw [Dev.slot, Dev.core_updCore_ne _ _ _ _ hj]
    exact hs

/-- A change of a core that keeps its slots. -/
theorem updCore_slots (d : Dev) (h : Nat) {f : Core → Core} (hf : ∀ k n, (f k).slot n = k.slot n) : d.KeepsSent (d.updCore h f) :=
  updCore d h fun n hs => (congrArg Slot.reply (hf _ n)).trans hs

theorem send (d : Dev) (chan : Nat) (e : Ev) : d.KeepsSent (d.send chan e) := of_cores rfl
theorem later (d : Dev) (cycles : Nat) (e : Ev) : d.KeepsSent (d.later cycles e) := of_cores rfl

theorem foldl {α : Type} {f : Dev → α → Dev} (hf : ∀ (e : Dev) x, e.KeepsSent (f e x)) (xs : List α) (d : Dev) : d.KeepsSent (xs.foldl f d) :=
  List.foldlRecOn (motive := fun e => d.KeepsSent e) _ _ (refl d) (fun e he x _ => he.trans (hf e x))

/-- Two steps, the later one first: its shape names what lies between. -/
theorem after {d e f : Dev} (g : e.KeepsSent f) (h : d.KeepsSent e) : d.KeepsSent f := h.trans g

theorem thenCores {d e e' : Dev} (hc : e'.cores = e.cores) (h : d.KeepsSent e) : d.KeepsSent e' := h.trans (of_cores hc)

theorem thenFoldl {α : Type} {f : Dev → α → Dev} {xs : List α} {d e : Dev} (hf : ∀ (e : Dev) x, e.KeepsSent (f e x)) (h : d.KeepsSent e) :
    d.KeepsSent (xs.foldl f e) := h.trans (foldl hf xs e)

theorem wake (d : Dev) (h : Nat) (p : Nat → Slot → WaitFor → Bool) : d.KeepsSent (d.wake h p) := by
  intro j n hs
  rcases d.slot_wake h p j n with he | ⟨clock, he⟩ <;> rw [he] <;> exact hs

theorem wakeSlot (d : Dev) (h n : Nat) (p : WaitFor → Bool) : d.KeepsSent (d.wakeSlot h n p) :=
  fun j m hs => (d.reply_wakeSlot h n p j m).trans hs

theorem first (d : Dev) (es : List Ev) : d.KeepsSent (d.first es) := of_cores rfl

theorem takeUp (d : Dev) (t h n : Nat) : d.KeepsSent (d.takeUp t h n) := by
  unfold Dev.takeUp
  dsimp only
  split
  · exact refl d
  · exact after (first _ _) (updCore_slots d t (fun _ _ => rfl))

theorem arriveAt (d : Dev) (t b h n : Nat) : d.KeepsSent (d.arriveAt t b h n) := by
  have hstep : ∀ f drain, d.KeepsSent (d.barStep t b f drain) := by
    intro f drain
    have hset : ∀ x, d.KeepsSent (d.updCore t (fun k => k.setBar b x)) := fun x => updCore_slots (f := fun k => k.setBar b x) d t (fun _ _ => rfl)
    unfold Dev.barStep
    dsimp only
    split
    · exact (hset _).trans (wake _ _ _)
    · exact hset _
  unfold Dev.arriveAt
  dsimp only
  split
  · exact later _ _ _
  · split
    · exact send _ _ _
    · split
      · exact send _ _ _
      · exact (hstep _ _).trans (send _ _ _)

theorem breakLeases (d : Dev) (h n why : Nat) (p : LeaseRec → Bool) : d.KeepsSent (d.breakLeases h n why p) := by
  unfold Dev.breakLeases
  dsimp only
  split
  · exact refl d
  · exact thenFoldl (fun d r => send d _ _) (updSlot d h n (fun hs => hs))

end Dev.KeepsSent

/-! ### Tasks that leave (R208, R301) -/

theorem Slot.reply_unbind (s : Slot) (id : W32) : (s.unbind id).reply = s.reply := by
  unfold Slot.unbind
  dsimp only
  split <;> rfl

theorem Core.reply_dropTask (k : Core) (lk : Nat) (id : W32) (n : Nat) : ((k.dropTask lk id).slot n).reply = (k.slot n).reply := by
  have hmap : ∀ m : AMap Slot, ((⟨m.ents.map (fun e => if e.2.lk == lk && e.2.kind == .ordered then (e.1, e.2.unbind id) else e)⟩ : AMap Slot).get .init n).reply =
      (m.get .init n).reply := by
    intro m
    rw [AMap.get_map]
    · dsimp only
      split
      · exact Slot.reply_unbind _ _
      · rfl
    · intro e
      split <;> rfl
    · exact congrArg Prod.snd (if_neg (by rw [Bool.and_comm]; exact Bool.false_ne_true))
  unfold Core.slot Core.dropTask
  split
  · exact hmap _
  · exact hmap _

namespace Dev.KeepsSent

theorem discardTask (d : Dev) (lk : Nat) (id : W32) : d.KeepsSent (d.discardTask lk id) := by
  unfold Dev.discardTask
  split
  · exact refl d
  · exact ((updCore d _ (fun n hs => (Core.reply_dropTask _ _ _ n).trans hs)).trans (wake _ _ _)).trans (of_cores rfl)

theorem pushDone (d : Dev) (h n lane : Nat) : d.KeepsSent (d.pushDone h n lane) := by
  unfold Dev.pushDone
  dsimp only
  have hset := updSlot (f := fun s => { s with pushed := if s.reply == .stale then s.pushed else s.pushed ++ [lane], pushWait := s.pushWait.erase lane })
    d h n (fun hs => hs)
  split
  · exact hset
  · split
    · next hst =>
      refine hset.trans (updSlot _ h n (fun hs => ?_))
      rw [hs] at hst
      exact absurd hst (by decide)
    · exact hset.trans (wakeSlot _ _ _ _)

theorem dropChildren (d : Dev) (lk : Nat) (id : W32) : d.KeepsSent (d.dropChildren lk id) := by
  unfold Dev.dropChildren
  dsimp only
  refine thenFoldl (fun d m => pushDone d _ _ _) (thenCores rfl (thenFoldl (fun d e => updCore_slots d e.1 (fun _ _ => rfl)) ?_))
  exact foldl (fun d k => discardTask d lk k) _ d

theorem dropWhole (d : Dev) (lk : Nat) (id : W32) : d.KeepsSent (d.dropWhole lk id) := (dropChildren d lk id).trans (discardTask _ lk id)

theorem recalled (d : Dev) (h n : Nat) : d.KeepsSent (d.recall h n) := by
  unfold Dev.recall
  dsimp only
  exact thenFoldl (fun d e => updCore_slots d e.1 (fun _ _ => rfl)) (thenCores (e := d) rfl (refl d))

theorem arrivalsCounted (d : Dev) (h n : Nat) (arrivals : List (Nat × Nat)) :
    d.KeepsSent ((arrivals.foldl (fun d a => d.arriveAt a.1 a.2 h n) d).recall h n) := by
  have hstep : ∀ (e : Dev) (a : Nat × Nat), e.KeepsSent (e.arriveAt a.1 a.2 h n) := fun e a => arriveAt e a.1 a.2 h n
  generalize Dev.arriveAt = g at hstep
  exact (foldl hstep arrivals d).trans (recalled _ h n)

theorem orphan (d : Dev) (h n : Nat) : d.KeepsSent (d.orphan h n) := by
  unfold Dev.orphan
  extract_lets arrivals d1 d2 load d3
  have h2 : d.KeepsSent d2 := arrivalsCounted d h n arrivals
  have h3 : d.KeepsSent d3 := h2.trans (of_cores rfl)
  clear_value d3
  refine thenFoldl (fun d t => ?_) h3
  split
  · exact after (takeUp _ _ _ _) (updCore_slots _ t (fun _ _ => rfl))
  · exact refl _

theorem dropRanks (d : Dev) (t h n : Nat) : d.KeepsSent (d.dropRanks t h n) := by
  unfold Dev.dropRanks
  refine foldl (fun d r => ?_) _ d
  exact after (updCore_slots _ h (fun _ _ => rfl)) (of_cores (e := d.setRank t r 0#32) rfl)

theorem takeLink (d : Dev) (h : Nat) (src : Dir) (e : Nat × Nat × Nat × V512) : d.KeepsSent (d.takeLink h src e) := by
  unfold Dev.takeLink
  split
  · exact updCore_slots d h (fun _ _ => rfl)
  · split
    · refine updCore d h (fun n hs => ?_)
      rw [Core.slot_land]
      split
      · next hn => exact (hn ▸ hs : ((d.core h).slot e.1).reply = .sent)
      · exact hs
    · exact updCore_slots d h (fun k n => Core.slot_setLink _ _ _ _)

theorem takeLinks (src : Dir) (h : Nat) (es : List (Nat × Nat × Nat × V512)) (d : Dev) : d.KeepsSent (Dev.takeLinks src h es d) := by
  induction es generalizing d with
  | nil => exact updCore_slots d h (fun k n => Core.slot_setQueue _ _ _ _)
  | cons e es ih =>
    unfold Dev.takeLinks
    split
    · exact updCore_slots d h (fun k n => Core.slot_setQueue _ _ _ _)
    · exact (takeLink d h src e).trans (ih _)

theorem linkRoom (d : Dev) (h : Nat) (src : Dir) : d.KeepsSent (d.linkRoom h src) := by
  unfold Dev.linkRoom
  dsimp only
  have htake := takeLinks src h ((d.core h).linkQueue src) d
  split
  · exact htake
  · split
    · exact htake
    · exact htake.trans (wake _ _ _)

theorem dropLinks (d : Dev) (h n : Nat) : d.KeepsSent (d.dropLinks h n) := by
  have hgo : ∀ (d : Dev) (dir : Dir) (l : Core → List (Nat × Nat × Nat × V512)) (by_ : Nat),
      d.KeepsSent ((d.updCore h (fun c => (c.setLink dir (l c)).bump 2 0 by_)).linkRoom h dir) := fun d dir l by_ =>
    after (linkRoom _ _ _) (updCore_slots d h (fun k n => Core.slot_setLink _ _ _ _))
  unfold Dev.dropLinks Dev.dropLinksOf
  dsimp only
  split
  · exact (hgo d .up _ _).trans (hgo _ .down _ _)
  · exact refl d

theorem discard (d : Dev) (h n : Nat) (rs : List RemoteAcc) : d.KeepsSent (d.discard h n rs) := by
  unfold Dev.discard
  dsimp only
  exact thenFoldl (fun d t => takeUp d t h n) (updSlot d h n (fun hs => hs))

end Dev.KeepsSent

/-! ### A slot that becomes FREE (R76, R301) -/

/-- A slot that becomes FREE is FREE, and no other slot loses what it waits for. -/
theorem Dev.vacate_spec (d : Dev) (h n : Nat) : ((d.vacate h n).slot h n).st = .free ∧
    ∀ j m, ¬(j = h ∧ m = n) → (d.slot j m).reply = .sent → ((d.vacate h n).slot j m).reply = .sent := by
  obtain ⟨d0, h0⟩ : ∃ d0, d0 = ((d.dropLinks h n).discardRefused h n) := ⟨_, rfl⟩
  have hpre : d.KeepsSent d0 := h0 ▸ (Dev.KeepsSent.dropLinks d h n).trans (Dev.KeepsSent.discard _ _ _ _)
  have haside : ∀ (p : Nat → Slot → WaitFor → Bool) (_ : ∀ n s, p n s .service = false) (ks : List Nat) (e : Dev),
      e.Aside (ks.foldl (fun d t => d.wake t p) e) := fun p hp ks e =>
    List.foldlRecOn (motive := fun x => e.Aside x) _ _ (.refl e) (fun x hx t _ => hx.trans (Dev.aside_wake x t p hp))
  have hsent : ∀ (p : Nat → Slot → WaitFor → Bool) (ks : List Nat) (e : Dev), e.KeepsSent (ks.foldl (fun d t => d.wake t p) e) := fun p ks e =>
    .foldl (fun d t => .wake d t p) ks e
  have hinit : ∀ f : Core → Core, ((d0.updCore h f).setSlot h n Slot.init).slot h n = Slot.init := fun f => Dev.slot_setSlot_self _ _ _ _
  unfold Dev.vacate
  dsimp only
  rw [← h0]
  refine ⟨?_, fun j m hne hs => hsent _ _ _ j m ?_⟩
  · refine (haside _ (fun _ _ => rfl) _ _ h n).st (fun w hw => ?_) |>.trans ?_
    · rw [hinit] at hw
      exact nomatch hw
    · rw [hinit]
      rfl
  · rw [Dev.slot_setSlot_ne _ _ _ _ _ _ hne]
    refine Dev.KeepsSent.after (?_ : d0.KeepsSent _) hpre j m hs
    exact .updCore_slots d0 h (fun _ _ => rfl)

theorem Dev.killSlot_spec (d : Dev) (h n : Nat) : ((d.killSlot h n).slot h n).st = .free ∧
    ∀ j m, ¬(j = h ∧ m = n) → (d.slot j m).reply = .sent → ((d.killSlot h n).slot j m).reply = .sent := by
  unfold Dev.killSlot
  dsimp only
  obtain ⟨hfree, hothers⟩ := Dev.vacate_spec ((((d.slot h n).tasks.ents.map (·.2)).foldl (fun d' i => d'.dropWhole (d.slot h n).lk i)
    ((d.breakLeases h n 2 (fun _ => true)).orphan h n)).dropRanks (terrOf (d.slot h n).lk) h n) h n
  refine ⟨hfree, fun j m hne hs => hothers j m hne ?_⟩
  have hpre := ((Dev.KeepsSent.breakLeases d h n 2 (fun _ => true)).trans (.orphan _ h n)).trans
    (.foldl (fun d' i => .dropWhole d' (d.slot h n).lk i) ((d.slot h n).tasks.ents.map (·.2)) _)
  exact (hpre.trans (.dropRanks _ _ h n)) j m hs

/-! ### Operations that at most wake slots (R22) -/

theorem Slot.Woken.trans {a b c : Slot} (h : a.Woken b) (g : b.Woken c) : a.Woken c := by
  rcases h with rfl | ⟨k, rfl⟩
  · exact g
  · rcases g with rfl | ⟨k', rfl⟩
    · exact Or.inr ⟨k, rfl⟩
    · exact Or.inr ⟨k', rfl⟩

theorem Slot.Woken.reply {a b : Slot} (h : a.Woken b) : b.reply = a.reply := by rcases h with rfl | ⟨k, rfl⟩ <;> rfl

theorem Slot.Woken.ready {a b : Slot} (h : a.Woken b) (hr : a.st = .ready) : b.st = .ready := by
  rcases h with rfl | ⟨k, rfl⟩
  · exact hr
  · rfl

/-- From d to e slots were at most woken. -/
def Dev.AtMostWakes (d e : Dev) : Prop := ∀ h n, (d.slot h n).Woken (e.slot h n)

namespace Dev.AtMostWakes

theorem refl (d : Dev) : d.AtMostWakes d := fun _ _ => .refl _
theorem trans {d e f : Dev} (h : d.AtMostWakes e) (g : e.AtMostWakes f) : d.AtMostWakes f := fun j n => (h j n).trans (g j n)
/-- Two steps, the later one first: its shape names what lies between. -/
theorem after {d e f : Dev} (g : e.AtMostWakes f) (h : d.AtMostWakes e) : d.AtMostWakes f := h.trans g
theorem of_slots {d e : Dev} (h : ∀ j n, e.slot j n = d.slot j n) : d.AtMostWakes e := fun j n => by rw [h]; exact .refl _
theorem updCore_slots (d : Dev) (h : Nat) {f : Core → Core} (hf : ∀ k n, (f k).slot n = k.slot n) : d.AtMostWakes (d.updCore h f) :=
  of_slots fun j n => Dev.slot_updCore_of hf d h j n
theorem wake (d : Dev) (h : Nat) (p : Nat → Slot → WaitFor → Bool) : d.AtMostWakes (d.wake h p) := fun j n => Dev.slot_wake d h p j n
theorem foldl {α : Type} {f : Dev → α → Dev} (hf : ∀ (e : Dev) x, e.AtMostWakes (f e x)) (xs : List α) (d : Dev) : d.AtMostWakes (xs.foldl f d) :=
  List.foldlRecOn (motive := fun e => d.AtMostWakes e) _ _ (refl d) (fun e he x _ => he.trans (hf e x))

theorem keepsSent {d e : Dev} (h : d.AtMostWakes e) : d.KeepsSent e := fun j n hs => (h j n).reply.trans hs

theorem setBar (d : Dev) (h b : Nat) (x : Bar) : d.AtMostWakes (d.updCore h (fun k => k.setBar b x)) := updCore_slots d h (fun _ _ => rfl)

theorem barStep (d : Dev) (h b : Nat) (f : Bar → Bar) (drain : Bool) : d.AtMostWakes (d.barStep h b f drain) := by
  unfold Dev.barStep
  dsimp only
  split
  · exact after (wake _ _ _) (setBar d h b _)
  · exact setBar d h b _

theorem barReport (d : Dev) (h b bytes : Nat) : d.AtMostWakes (d.barReport h b bytes) := by
  have hwake := wake d h (fun _ _ w => w == .pend b)
  unfold Dev.barReport
  dsimp only
  split
  · exact refl d
  · split
    · exact hwake.trans (setBar _ h b _)
    · have hstep := hwake.trans (barStep _ h b (fun x => { x with pend := 0 }) true)
      split
      · split
        · exact hstep
        · exact hstep.trans (setBar _ h b _)
      · exact hstep

theorem dropSealed (d : Dev) (h : Nat) (o : Obj) : d.AtMostWakes (d.dropSealed h o) := by
  refine of_slots fun j n => ?_
  have hcore : (d.dropSealed h o).core j = (d.core j).dropRange (windowOf h o.base) o.bytes := by
    unfold Dev.dropSealed Dev.core
    exact AMap.get_map_snd Core.init d.cores (fun c => c.dropRange (windowOf h o.base) o.bytes) j rfl
  rw [Dev.slot, hcore]
  rfl

theorem objUnref (d : Dev) (h o : Nat) : d.AtMostWakes (d.objUnref h o) := by
  have hobj : ∀ (e : Dev) (x : Obj), e.AtMostWakes (e.updCore h (fun k => k.setObj o x)) := fun e x => updCore_slots e h (fun _ _ => rfl)
  unfold Dev.objUnref
  extract_lets x x' d1 d2
  have h1 : d.AtMostWakes d1 := hobj d x'
  have h2 : d.AtMostWakes d2 := h1.trans (wake d1 h _)
  clear_value d1 d2
  split
  · exact h1
  · split
    · exact h2
    · exact (h2.trans (dropSealed d2 h x)).trans (hobj _ _)

theorem completed (d : Dev) (h : Nat) (c : Cmd) : d.AtMostWakes (d.completed h c) := by
  have hstep : ∀ (e : Dev) (o : Nat × Nat), e.AtMostWakes (e.objUnref o.1 o.2) := fun e o => objUnref e o.1 o.2
  unfold Dev.completed
  generalize Dev.objUnref = g at hstep
  extract_lets d1
  have h1 : d.AtMostWakes d1 := by
    unfold d1
    split
    · exact hstep d (h, _)
    · exact refl d
  exact h1.trans (foldl hstep _ _)

theorem removed (d : Dev) (h : Nat) (c : Cmd) : d.AtMostWakes (d.removed h c) := (barReport d h c.bar c.left).trans (completed _ h c)

theorem thaw (d : Dev) (h : Nat) (cq flush : Bool) : d.AtMostWakes (d.thaw h cq flush) := by
  have heq : ∀ (e : Dev) f, e.AtMostWakes (e.updCore h (fun k => k.updEq cq f)) := fun e f => updCore_slots e h (fun _ _ => Core.slot_updEq _ _ _ _)
  have hstep : ∀ (e : Dev) (c : Cmd), e.AtMostWakes ((e.barError h c.bar 6 0xFF 0).removed h c) := fun e c =>
    after (removed _ h c) (updCore_slots e h (fun _ _ => rfl))
  unfold Dev.thaw
  dsimp only
  split
  · exact after (heq _ _) (after (foldl hstep _ _) (after (wake _ _ _) (heq d _)))
  · exact heq d _

end Dev.AtMostWakes

/-! ### Return from an exception (R298) -/

/-- Slot b has the PC, the registers and the fault record of a. -/
structure Slot.SameFiles (a b : Slot) : Prop where
  pc : b.pc = a.pc
  aregs : b.aregs = a.aregs
  vregs : b.vregs = a.vregs
  kregs : b.kregs = a.kregs
  frec0 : b.frec0 = a.frec0

theorem Slot.SameFiles.refl (a : Slot) : a.SameFiles a := ⟨rfl, rfl, rfl, rfl, rfl⟩
theorem Slot.SameFiles.trans {a b c : Slot} (h : a.SameFiles b) (g : b.SameFiles c) : a.SameFiles c :=
  ⟨g.pc.trans h.pc, g.aregs.trans h.aregs, g.vregs.trans h.vregs, g.kregs.trans h.kregs, g.frec0.trans h.frec0⟩

/-- From d to e slot n of core h keeps its PC, registers and fault record, and every slot keeps waiting for its answer. -/
structure Dev.Reissues (d e : Dev) (h n : Nat) : Prop where
  files : (d.slot h n).SameFiles (e.slot h n)
  sent : d.KeepsSent e

theorem Dev.Reissues.trans {d e f : Dev} {h n : Nat} (a : d.Reissues e h n) (b : e.Reissues f h n) : d.Reissues f h n :=
  ⟨a.files.trans b.files, a.sent.trans b.sent⟩

theorem Dev.Reissues.of_slots {d e : Dev} {h n : Nat} (hs : ∀ j m, e.slot j m = d.slot j m) : d.Reissues e h n :=
  ⟨by rw [hs]; exact .refl _, .of_slots hs⟩

theorem Dev.Reissues.of_cores {d e : Dev} {h n : Nat} (hc : e.cores = d.cores) : d.Reissues e h n :=
  .of_slots fun j n => by rw [Dev.slot, Dev.core, hc, ← Dev.core, ← Dev.slot]

theorem Dev.Reissues.updSlot {d : Dev} {h n : Nat} {f : Slot → Slot} (hf : (d.slot h n).SameFiles (f (d.slot h n)))
    (hr : (f (d.slot h n)).reply = (d.slot h n).reply) : d.Reissues (d.updSlot h n f) h n :=
  ⟨by rw [Dev.slot_updSlot_self]; exact hf, .updSlot d h n (fun hs => hr.trans hs)⟩

theorem Dev.Reissues.foldl {α : Type} {f : Dev → α → Dev} {h n : Nat} (hf : ∀ (e : Dev) x, e.Reissues (f e x) h n) (xs : List α) (d : Dev) :
    d.Reissues (xs.foldl f d) h n :=
  List.foldlRecOn (motive := fun e => d.Reissues e h n) _ _ ⟨.refl _, .refl _⟩ (fun e he x _ => he.trans (hf e x))

theorem Dev.slot_takeUp (d : Dev) (t h n j m : Nat) : (d.takeUp t h n).slot j m = d.slot j m := by
  unfold Dev.takeUp
  dsimp only
  split
  · rfl
  · exact Dev.slot_updCore_of (f := fun c => { c with held := c.held.filter (fun r => !(r.h == h && r.n == n)) }) (fun _ _ => rfl) d t j m

section
variable (d : Dev) (h n : Nat)

theorem Dev.cores_askWalk (dist va terr : Nat) : (d.askWalk dist va terr).cores = d.cores := by
  unfold Dev.askWalk
  dsimp only
  split <;> rfl

theorem Dev.reissues_reissue : d.Reissues (d.reissue h n) h n := by
  unfold Dev.reissue
  extract_lets s lost d1
  have h1 : d.Reissues d1 h n := .updSlot ⟨rfl, rfl, rfl, rfl, rfl⟩ rfl
  clear_value d1
  refine h1.trans (.foldl (fun e x => ?_) _ _)
  extract_lets va
  split
  · exact .of_cores rfl
  · exact .of_cores (e.cores_askWalk _ _ _)

theorem Dev.reissues_resend : d.Reissues (d.resend h n) h n := by
  unfold Dev.resend
  extract_lets s rs d1
  have h1 : d.Reissues d1 h n := .updSlot ⟨rfl, rfl, rfl, rfl, rfl⟩ rfl
  clear_value d1
  exact (h1.trans (.foldl (fun e t => .of_slots (e.slot_takeUp t h n)) _ _)).trans (.of_cores rfl)

theorem Dev.reissues_giveUp : d.Reissues (d.giveUp h n) h n := by
  unfold Dev.giveUp
  extract_lets s lost whole d1
  have h1 : d.Reissues d1 h n := .updSlot ⟨rfl, rfl, rfl, rfl, rfl⟩ rfl
  clear_value d1
  exact h1.trans (.foldl (f := fun d (o : LongOp) => d.send 0 (.resultLanding h n o.id)) (fun e o => .of_cores rfl) _ _)

theorem Dev.reissues_discard (rs : List RemoteAcc) : d.Reissues (d.discard h n rs) h n := by
  unfold Dev.discard
  extract_lets d1
  have h1 : d.Reissues d1 h n := .updSlot ⟨rfl, rfl, rfl, rfl, rfl⟩ rfl
  clear_value d1
  exact h1.trans (.foldl (fun e t => .of_slots (e.slot_takeUp t h n)) _ _)

/-- What an eret leaves of its target. -/
structure Slot.Returned (a b : Slot) (f v : W64) : Prop where
  st : b.st = .ready
  pc : b.pc = if (f.extractLsb' 0 2).toNat = 0 ∨ (f.extractLsb' 0 2).toNat = 1 ∧ a.recDef = true then a.pc
    else if (f.extractLsb' 0 2).toNat = 1 then a.pc + 8#64 else v
  A : ∀ j, b.A j = if (f.extractLsb' 0 2).toNat < 2 ∧ j = (f.extractLsb' 4 4).toNat ∧ j ≠ 0 then v else a.A j
  V : ∀ j, b.V j = a.V j
  K : ∀ j, b.K j = a.K j

/-- The slot as eret leaves it once what was outstanding has been reissued or given up. -/
def Slot.returning (s : Slot) (f v : W64) : Slot :=
  if (f.extractLsb' 0 2).toNat = 0 then s
  else Slot.noTable (if (f.extractLsb' 0 2).toNat = 1 then
      (if s.recDef then s else { s with pc := s.pc + 8#64, residue := [], pushed := [], closed := false })
    else { s with pc := v, residue := [], pushed := [], closed := false, reply := if s.reply == .sent then .stale else .idle })

theorem Slot.returning_files (s : Slot) (f v : W64) : (s.returning f v).aregs = s.aregs ∧ (s.returning f v).vregs = s.vregs ∧
    (s.returning f v).kregs = s.kregs ∧ (s.returning f v).pc = if (f.extractLsb' 0 2).toNat = 0 ∨ (f.extractLsb' 0 2).toNat = 1 ∧ s.recDef = true then s.pc
      else if (f.extractLsb' 0 2).toNat = 1 then s.pc + 8#64 else v := by
  unfold Slot.returning
  by_cases h0 : (f.extractLsb' 0 2).toNat = 0
  · simp [h0]
  · rw [if_neg h0]
    by_cases h1 : (f.extractLsb' 0 2).toNat = 1
    · cases hd : s.recDef <;> simp [h1, Slot.noTable]
    · have hn : ¬((f.extractLsb' 0 2).toNat = 0 ∨ (f.extractLsb' 0 2).toNat = 1 ∧ s.recDef = true) := fun h => h.elim h0 (fun g => h1 g.1)
      rw [if_neg h1, if_neg hn, if_neg h1]
      exact ⟨rfl, rfl, rfl, rfl⟩

theorem Slot.returned_of {a s : Slot} (hs : a.SameFiles s) (f v : W64) (clock : Nat) :
    a.Returned ({ (if (f.extractLsb' 0 2).toNat < 2 then (s.returning f v).setA (f.extractLsb' 4 4).toNat v else s.returning f v) with
      svcWait := false }.toReady clock) f v := by
  obtain ⟨ha, hv, hk, hpc⟩ := s.returning_files f v
  have hdef : s.recDef = a.recDef := congrArg (fun w : W64 => w.getLsbD 26) hs.frec0
  have hkept := KeptRegs.setA (s.returning f v) (f.extractLsb' 4 4).toNat v
  have hA : ∀ j, (s.returning f v).A j = a.A j := fun j => by rw [Slot.A, ha, hs.aregs, Slot.A]
  have hset : ∀ j, ((s.returning f v).setA (f.extractLsb' 4 4).toNat v).A j = if j = (f.extractLsb' 4 4).toNat ∧ j ≠ 0 then v else a.A j := by
    intro j
    by_cases hj : j = (f.extractLsb' 4 4).toNat
    · rw [hj, Slot.A_setA_self]
      by_cases hz : f.extractLsb' 4 4 = 0#4
      · rw [if_pos hz, hz, if_neg (by simp)]
        rfl
      · rw [if_neg hz, if_pos ⟨rfl, fun h => hz (BitVec.eq_of_toNat_eq (by simpa using h))⟩]
    · rw [if_neg (fun h => hj h.1), ← hA]
      exact hkept.aregs j (by simpa using hj)
  by_cases h2 : (f.extractLsb' 0 2).toNat < 2
  · rw [if_pos h2]
    refine ⟨rfl, ?_, fun j => ?_, fun j => ?_, fun j => ?_⟩
    · rw [← hdef, ← hs.pc]
      exact Eq.trans (by unfold Slot.setA; split <;> rfl) hpc
    · simp only [h2, true_and]
      exact hset j
    · exact (hkept.vregs j (by simp)).trans (by rw [Slot.V, hv, hs.vregs, Slot.V])
    · exact (hkept.kregs j (by simp)).trans (by rw [Slot.K, hk, hs.kregs, Slot.K])
  · rw [if_neg h2]
    refine ⟨rfl, ?_, fun j => ?_, fun j => ?_, fun j => ?_⟩
    · rw [← hdef, ← hs.pc]
      exact hpc
    · rw [if_neg (fun h => h2 h.1)]
      exact hA j
    · exact (by rw [Slot.V, hv, hs.vregs, Slot.V] : (s.returning f v).V j = a.V j)
    · exact (by rw [Slot.K, hk, hs.kregs, Slot.K] : (s.returning f v).K j = a.K j)


/-- An eret of a slot HELD by a trap. -/
theorem Dev.eretSlot_spec (f v : W64) (hst : (d.slot h n).st = .held .trap) :
    ∃ e, d.eretSlot h n f v = some e ∧ (d.slot h n).Returned (e.slot h n) f v ∧
      ∀ j m, ¬(j = h ∧ m = n) → (d.slot j m).reply = .sent → (e.slot j m).reply = .sent := by
  unfold Dev.eretSlot
  extract_lets s act reg set g d1 d2
  have hheld : (s.st == .held .trap || s.st == .waiting .service) = true := by
    unfold s
    rw [hst]
    rfl
  rw [hheld, if_neg (by decide)]
  -- before the slot's own fields are set
  have hd2 : ∃ x : Dev, d.Reissues x h n ∧ d2.slot h n = (x.slot h n).returning f v ∧ ∀ j m, ¬(j = h ∧ m = n) → d2.slot j m = x.slot j m := by
    have hd : d.Reissues d h n := ⟨.refl _, .refl _⟩
    by_cases h0 : act = 0
    · refine ⟨d1, ?_, ?_, fun j m _ => ?_⟩
      · unfold d1
        rw [if_pos h0]
        split
        · exact (d.reissues_reissue h n).trans (Dev.reissues_resend _ h n)
        · exact hd
      · unfold d2
        rw [if_pos h0, Slot.returning, if_pos h0]
      · unfold d2
        rw [if_pos h0]
    · refine ⟨g, ?_, ?_, fun j m hne => ?_⟩
      · unfold g
        split
        · exact (d.reissues_giveUp h n).trans (Dev.reissues_discard _ h n _)
        · exact hd
      · unfold d2 d1
        rw [if_neg h0, if_neg h0, Dev.slot_updSlot_self, Dev.slot_updSlot_self, Slot.returning, if_neg h0]
      · unfold d2 d1
        rw [if_neg h0, if_neg h0, Dev.slot_updSlot_ne _ _ _ _ _ _ hne, Dev.slot_updSlot_ne _ _ _ _ _ _ hne]
  obtain ⟨x, hx, hown, hothers⟩ := hd2
  clear_value d2
  have hend : ((d2.updSlot h n set).endService h n).slot h n = { set (d2.slot h n) with svcWait := false }.toReady d2.clock := by
    unfold Dev.endService Dev.ready
    rw [Dev.slot_updSlot_self, Dev.slot_updSlot_self, Dev.slot_updSlot_self]
    rfl
  refine ⟨_, rfl, ?_, fun j m hne hs => ?_⟩
  · rw [hend, hown]
    exact Slot.returned_of hx.files f v d2.clock
  · unfold Dev.endService Dev.ready
    rw [Dev.slot_updSlot_ne _ _ _ _ _ _ hne, Dev.slot_updSlot_ne _ _ _ _ _ _ hne, Dev.slot_updSlot_ne _ _ _ _ _ _ hne, hothers j m hne]
    exact hx.sent j m hs
end

/-! ### What a command does at its slot (R298 to R301) -/

/-- The answer to a command reaches its issuer. -/
def answeredTo (x : SlotCmd) (r : Dev × Reply) : Dev :=
  match x.issuer with
  | some i => if (r.1.slot i.1 i.2).reply == .sent || (r.1.slot i.1 i.2).reply == .stale then r.1.reply i.1 i.2 r.2 else r.1
  | none => r.1

section
variable {x : SlotCmd} {d : Dev} {ih im : Nat}

/-- A command that stands at its slot, from nobody or from a slot that waits for the answer. -/
structure Dev.Commands (d : Dev) (x : SlotCmd) (ih im : Nat) : Prop where
  away : d.savedTarget x = none
  terr : x.issuer = none ∨ terrOf (d.slot x.h x.n).lk = terrOf (d.slot ih im).lk
  issuer : ∀ z, x.issuer = some z → z = (ih, im) ∧ ih < nCores ∧ (ih, im) ≠ (x.h, x.n) ∧ (d.slot ih im).reply = .sent

theorem Dev.slot_reply_ne (d : Dev) (h n : Nat) (r : Reply) {j m : Nat} (hne : ¬(j = h ∧ m = n)) : (d.reply h n r).slot j m = d.slot j m := by
  unfold Dev.reply Dev.wakeSlot Dev.ready
  split
  · rfl
  · split
    · exact Dev.slot_updSlot_ne _ _ _ _ _ _ hne
    · dsimp only
      split
      · split
        · exact (Dev.slot_updSlot_ne _ _ _ _ _ _ hne).trans (Dev.slot_updSlot_ne _ _ _ _ _ _ hne)
        · exact Dev.slot_updSlot_ne _ _ _ _ _ _ hne
      · exact Dev.slot_updSlot_ne _ _ _ _ _ _ hne

/-- A command that takes effect answers its issuer and touches no other slot by it. -/
theorem arrival_event {op : SlotOp} {pre : Dev → Prop} {post : Dev → Slot → Prop} {ans : Reply} (hop : ∀ e a, op ≠ .spawn e a)
    (hact : ∀ d, x.op = op → d.Commands x ih im → pre d → ∃ e, d.slotCmd x = (e, ans) ∧ post d (e.slot x.h x.n) ∧
      ∀ j m, ¬(j = x.h ∧ m = x.n) → (d.slot j m).reply = .sent → (e.slot j m).reply = .sent) :
    Event (.slotCommandArrival x)
      (fun _ d => x.op = op ∧ d.savedTarget x = none ∧ (x.issuer = none ∨ terrOf (d.slot x.h x.n).lk = terrOf (d.slot ih im).lk) ∧ pre d ∧
        (∀ z, x.issuer = some z → z = (ih, im) ∧ ih < nCores ∧ (ih, im) ≠ (x.h, x.n) ∧ (d.slot ih im).reply = .sent))
      (fun _ d e => post d (e.slot x.h x.n) ∧ (x.issuer = some (ih, im) → (e.slot ih im).reply = ans)) := by
  intro s ⟨hx, haway, hterr, hpre, hiss⟩
  obtain ⟨e, he, hpost, hkeep⟩ := hact s.dev hx ⟨haway, hterr, hiss⟩ hpre
  refine ⟨⟨s.mem, answeredTo x (e, ans)⟩, ?_, fun _ => rfl, ?_⟩
  · have hsp : s.dev.spawnSaved x = false := by
      unfold Dev.spawnSaved
      rw [hx]
      cases op with
      | spawn a b => exact absurd rfl (hop a b)
      | _ => rfl
    unfold exec execSlotCommandArrival onMem
    dsimp only
    rw [hsp, if_neg Bool.false_ne_true, haway, ite_self]
    dsimp only
    rw [he]
    rfl
  · cases hi : x.issuer with
    | none => exact ⟨by unfold answeredTo; rw [hi]; exact hpost, nofun⟩
    | some z =>
      obtain ⟨rfl, hc, hne, hsent⟩ := hiss z hi
      have hne' : ¬(ih = x.h ∧ im = x.n) := fun h => hne (Prod.ext h.1 h.2)
      have hs := hkeep ih im hne' hsent
      have hans : answeredTo x (e, ans) = e.reply ih im ans := by
        unfold answeredTo
        rw [hi]
        dsimp only
        rw [hs]
        rfl
      dsimp only
      rw [hans]
      exact ⟨by rw [Dev.slot_reply_ne _ _ _ _ (fun h => hne' ⟨h.1.symm, h.2.symm⟩)]; exact hpost,
        fun _ => Dev.reply_reply hc (by rw [hs]; decide) _⟩
end

section
variable {x : SlotCmd} {d : Dev} {ih im : Nat}

/-- The slot that commands. -/
def Dev.commander (d : Dev) (x : SlotCmd) : Slot := match x.issuer with | some i => d.slot i.1 i.2 | none => Slot.init

theorem Dev.Commands.target (h : d.Commands x ih im) :
    (if x.issuer.isSome && terrOf (d.slot x.h x.n).lk != terrOf (d.commander x).lk then Slot.init else d.slot x.h x.n) = d.slot x.h x.n := by
  refine if_neg fun hother => ?_
  rw [Bool.and_eq_true, bne_iff_ne, Option.isSome_iff_exists] at hother
  obtain ⟨⟨z, hz⟩, hne⟩ := hother
  obtain ⟨rfl, -⟩ := h.issuer z hz
  rcases h.terr with hn | ht
  · rw [hz] at hn
    exact nomatch hn
  · unfold Dev.commander at hne
    rw [hz] at hne
    exact hne ht

theorem Dev.Commands.allowed (h : d.Commands x ih im) (hm : x.issuer = none ∨ (d.slot ih im).priv = true ∨ (d.slot x.h x.n).lk = (d.slot ih im).lk) :
    (x.issuer.isNone || (d.commander x).priv || (d.slot x.h x.n).lk == (d.commander x).lk) = true := by
  unfold Dev.commander
  cases hi : x.issuer with
  | none => rfl
  | some z =>
    obtain ⟨rfl, -⟩ := h.issuer z hi
    rcases hm with hn | hp | hl
    · rw [hi] at hn
      exact nomatch hn
    · simp [hp]
    · simp [hl]

/-- What a command does, with the slot that it finds named. -/
theorem Dev.Commands.slotCmd_wake (h : d.Commands x ih im) {kind : BitVec 2} (hx : x.op = .wake kind) : d.slotCmd x =
    if (d.slot x.h x.n).st == .free then (d, .done 0#64)
    else if kind == 1#2 then
      (if (d.slot x.h x.n).svcWait then (d.serviceWake x.h x.n, .done 1#64)
       else (d.updSlot x.h x.n (fun s => { s with svcHeld := true }), .done 0#64))
    else if !(x.issuer.isNone || (d.commander x).priv || (d.slot x.h x.n).lk == (d.commander x).lk) then (d, .fail 0x80 3)
    else if (d.slot x.h x.n).wakeBit then (d, .done 0#64)
    else ((d.updSlot x.h x.n (fun s => { s with wakeBit := true })).wakeSlot x.h x.n (· == .park), .done 1#64) := by
  unfold Dev.slotCmd
  extract_lets +onlyGivenNames from_ may t
  have ht : t = d.slot x.h x.n := h.target
  have hmay : ∀ s : Slot, may s = (x.issuer.isNone || (d.commander x).priv || s.lk == (d.commander x).lk) := fun _ => rfl
  clear_value t may
  rw [hx, ht]
  dsimp only
  rw [hmay] <;> rfl

theorem Dev.Commands.slotCmd_kill (h : d.Commands x ih im) (hx : x.op = .kill) : d.slotCmd x =
    if (d.slot x.h x.n).st == .free then (d, .done 0#64)
    else if !(x.issuer.isNone || (d.commander x).priv || (d.slot x.h x.n).lk == (d.commander x).lk) then (d, .fail 0x80 4)
    else
      match (d.slot x.h x.n).st with
      | .seated _ => (if (d.slot x.h x.n).killed && x.issuer.isNone && x.host.isNone then d.killSlot x.h x.n
          else d.updSlot x.h x.n (fun s => { s with killed := true }), .done 0#64)
      | _ => (d.killSlot x.h x.n, .done 0#64) := by
  unfold Dev.slotCmd
  extract_lets +onlyGivenNames from_ may t
  have ht : t = d.slot x.h x.n := h.target
  have hmay : ∀ s : Slot, may s = (x.issuer.isNone || (d.commander x).priv || s.lk == (d.commander x).lk) := fun _ => rfl
  clear_value t may
  rw [hx, ht]
  dsimp only
  rw [hmay] <;> rfl

theorem Dev.Commands.slotCmd_eret (h : d.Commands x ih im) {f v : W64} (hx : x.op = .eret f v) (hf : f.getLsbD 11 = false) {e : Dev}
    (hst : (d.slot x.h x.n).st ≠ .free) (he : d.eretSlot x.h x.n f v = some e) : d.slotCmd x =
    (if f.getLsbD 8 then e.thaw x.h (f.getLsbD 10) (f.getLsbD 9) else e, .done 0#64) := by
  unfold Dev.slotCmd
  extract_lets +onlyGivenNames from_ may t
  have ht : t = d.slot x.h x.n := h.target
  clear_value t
  rw [hx, ht]
  dsimp only
  rw [hf, if_neg Bool.false_ne_true, if_neg (by simpa using hst), he]

/-- A change of the commanded slot alone. -/
theorem Dev.keeps_updSlot (d : Dev) (h n : Nat) (f : Slot → Slot) (j m : Nat) (hne : ¬(j = h ∧ m = n)) (hs : (d.slot j m).reply = .sent) :
    ((d.updSlot h n f).slot j m).reply = .sent := by
  rw [Dev.slot_updSlot_ne _ _ _ _ _ _ hne]
  exact hs

theorem wake_arrives : Event (.slotCommandArrival x)
    (fun _ d => x.op = .wake 0#2 ∧ d.savedTarget x = none ∧ (x.issuer = none ∨ terrOf (d.slot x.h x.n).lk = terrOf (d.slot ih im).lk) ∧
      ((x.issuer = none ∨ (d.slot ih im).priv = true ∨ (d.slot x.h x.n).lk = (d.slot ih im).lk) ∧ (d.slot x.h x.n).st ≠ .free ∧
        (d.slot x.h x.n).wakeBit = false) ∧
      (∀ z, x.issuer = some z → z = (ih, im) ∧ ih < nCores ∧ (ih, im) ≠ (x.h, x.n) ∧ (d.slot ih im).reply = .sent))
    (fun _ d e => ((e.slot x.h x.n).wakeBit = true ∧ (e.slot x.h x.n).pc = (d.slot x.h x.n).pc ∧
      ((d.slot x.h x.n).st = .waiting .park → (e.slot x.h x.n).st = .ready)) ∧ (x.issuer = some (ih, im) → (e.slot ih im).reply = .done 1#64)) := by
  refine arrival_event (op := .wake 0#2)
    (pre := fun d => (x.issuer = none ∨ (d.slot ih im).priv = true ∨ (d.slot x.h x.n).lk = (d.slot ih im).lk) ∧ (d.slot x.h x.n).st ≠ .free ∧
      (d.slot x.h x.n).wakeBit = false)
    (post := fun d s => s.wakeBit = true ∧ s.pc = (d.slot x.h x.n).pc ∧ ((d.slot x.h x.n).st = .waiting .park → s.st = .ready))
    (fun _ _ => SlotOp.noConfusion) (fun d hx hc ⟨hm, hst, hbit⟩ => ?_)
  obtain ⟨e, he⟩ : ∃ e, e = d.updSlot x.h x.n (fun s => { s with wakeBit := true }) := ⟨_, rfl⟩
  have hslot : e.slot x.h x.n = { d.slot x.h x.n with wakeBit := true } := by rw [he, Dev.slot_updSlot_self]
  have hst' : (e.slot x.h x.n).st = (d.slot x.h x.n).st := by rw [hslot]
  refine ⟨e.wakeSlot x.h x.n (· == .park), ?_, ?_, fun j m hne hs => ?_⟩
  · rw [hc.slotCmd_wake hx, if_neg (by simpa using hst), if_neg (by decide), hc.allowed hm, hbit, he]
    rfl
  · have hwoken : ((d.slot x.h x.n).st = .waiting .park → ((e.wakeSlot x.h x.n (· == .park)).slot x.h x.n).st = .ready) ∧
        (e.slot x.h x.n).Woken ((e.wakeSlot x.h x.n (· == .park)).slot x.h x.n) := by
      unfold Dev.wakeSlot Dev.ready
      rw [hst']
      split
      · split
        · rw [Dev.slot_updSlot_self]
          exact ⟨fun _ => rfl, Or.inr ⟨_, rfl⟩⟩
        · next w hw hp => exact ⟨fun h => absurd (SlotSt.waiting.inj (hw.symm.trans h)) (by simpa using hp), .refl _⟩
      · next hw => exact ⟨fun h => absurd h (hw _), .refl _⟩
    have hbit' : ∀ {a b : Slot}, a.Woken b → b.wakeBit = a.wakeBit := fun h => by rcases h with rfl | ⟨k, rfl⟩ <;> rfl
    exact ⟨(hbit' hwoken.2).trans (by rw [hslot]), hwoken.2.files.2.2.2.trans (by rw [hslot]), hwoken.1⟩
  · exact Dev.KeepsSent.wakeSlot e x.h x.n _ j m (he ▸ d.keeps_updSlot _ _ _ j m hne hs)

theorem wake_free (kind : BitVec 2) : Event (.slotCommandArrival x)
    (fun _ d => x.op = .wake kind ∧ d.savedTarget x = none ∧ (x.issuer = none ∨ terrOf (d.slot x.h x.n).lk = terrOf (d.slot ih im).lk) ∧
      (d.slot x.h x.n).st = .free ∧
      (∀ z, x.issuer = some z → z = (ih, im) ∧ ih < nCores ∧ (ih, im) ≠ (x.h, x.n) ∧ (d.slot ih im).reply = .sent))
    (fun _ d e => e.slot x.h x.n = d.slot x.h x.n ∧ (x.issuer = some (ih, im) → (e.slot ih im).reply = .done 0#64)) := by
  refine arrival_event (op := .wake kind) (pre := fun d => (d.slot x.h x.n).st = .free) (post := fun d s => s = d.slot x.h x.n)
    (fun _ _ => SlotOp.noConfusion) (fun d hx hc hst => ⟨d, ?_, rfl, fun _ _ _ hs => hs⟩)
  rw [hc.slotCmd_wake hx, hst, if_pos (by decide)]

theorem kill_arrives : Event (.slotCommandArrival x)
    (fun _ d => x.op = .kill ∧ d.savedTarget x = none ∧ (x.issuer = none ∨ terrOf (d.slot x.h x.n).lk = terrOf (d.slot ih im).lk) ∧
      ((x.issuer = none ∨ (d.slot ih im).priv = true ∨ (d.slot x.h x.n).lk = (d.slot ih im).lk) ∧ (d.slot x.h x.n).st ≠ .free ∧
        ∀ z, (d.slot x.h x.n).st ≠ .seated z) ∧
      (∀ z, x.issuer = some z → z = (ih, im) ∧ ih < nCores ∧ (ih, im) ≠ (x.h, x.n) ∧ (d.slot ih im).reply = .sent))
    (fun _ _ e => (e.slot x.h x.n).st = .free ∧ (x.issuer = some (ih, im) → (e.slot ih im).reply = .done 0#64)) := by
  refine arrival_event (op := .kill)
    (pre := fun d => (x.issuer = none ∨ (d.slot ih im).priv = true ∨ (d.slot x.h x.n).lk = (d.slot ih im).lk) ∧ (d.slot x.h x.n).st ≠ .free ∧
      ∀ z, (d.slot x.h x.n).st ≠ .seated z)
    (post := fun _ s => s.st = .free) (fun _ _ => SlotOp.noConfusion) (fun d hx hc ⟨hm, hst, hseat⟩ => ?_)
  obtain ⟨hfree, hkeep⟩ := d.killSlot_spec x.h x.n
  refine ⟨d.killSlot x.h x.n, ?_, hfree, hkeep⟩
  rw [hc.slotCmd_kill hx, if_neg (by simpa using hst), hc.allowed hm]
  simp only [Bool.not_true, Bool.false_eq_true, if_false]

theorem kill_seated (z : Nat) : Event (.slotCommandArrival x)
    (fun _ d => x.op = .kill ∧ d.savedTarget x = none ∧ (x.issuer = none ∨ terrOf (d.slot x.h x.n).lk = terrOf (d.slot ih im).lk) ∧
      ((x.issuer = none ∨ (d.slot ih im).priv = true ∨ (d.slot x.h x.n).lk = (d.slot ih im).lk) ∧ (d.slot x.h x.n).st = .seated z ∧
        (d.slot x.h x.n).killed = false) ∧
      (∀ z, x.issuer = some z → z = (ih, im) ∧ ih < nCores ∧ (ih, im) ≠ (x.h, x.n) ∧ (d.slot ih im).reply = .sent))
    (fun _ _ e => ((e.slot x.h x.n).st = .seated z ∧ (e.slot x.h x.n).killed = true) ∧ (x.issuer = some (ih, im) → (e.slot ih im).reply = .done 0#64)) := by
  refine arrival_event (op := .kill)
    (pre := fun d => (x.issuer = none ∨ (d.slot ih im).priv = true ∨ (d.slot x.h x.n).lk = (d.slot ih im).lk) ∧ (d.slot x.h x.n).st = .seated z ∧
      (d.slot x.h x.n).killed = false)
    (post := fun _ s => s.st = .seated z ∧ s.killed = true) (fun _ _ => SlotOp.noConfusion) (fun d hx hc ⟨hm, hst, hk⟩ => ?_)
  refine ⟨d.updSlot x.h x.n (fun s => { s with killed := true }), ?_, ?_, fun j m hne hs => d.keeps_updSlot _ _ _ j m hne hs⟩
  · rw [hc.slotCmd_kill hx, hc.allowed hm, hst, hk]
    rfl
  · rw [Dev.slot_updSlot_self]
    exact ⟨hst, rfl⟩

theorem kill_turn (z : Nat) : Event (.slotCommandArrival x)
    (fun _ d => x.op = .kill ∧ d.savedTarget x = none ∧ (x.issuer = none ∨ terrOf (d.slot x.h x.n).lk = terrOf (d.slot ih im).lk) ∧
      (x.issuer = none ∧ x.host = none ∧ (d.slot x.h x.n).st = .seated z ∧ (d.slot x.h x.n).killed = true) ∧
      (∀ z, x.issuer = some z → z = (ih, im) ∧ ih < nCores ∧ (ih, im) ≠ (x.h, x.n) ∧ (d.slot ih im).reply = .sent))
    (fun _ _ e => (e.slot x.h x.n).st = .free ∧ (x.issuer = some (ih, im) → (e.slot ih im).reply = .done 0#64)) := by
  refine arrival_event (op := .kill)
    (pre := fun d => x.issuer = none ∧ x.host = none ∧ (d.slot x.h x.n).st = .seated z ∧ (d.slot x.h x.n).killed = true)
    (post := fun _ s => s.st = .free) (fun _ _ => SlotOp.noConfusion) (fun d hx hc ⟨hi, hh, hst, hk⟩ => ?_)
  obtain ⟨hfree, hkeep⟩ := d.killSlot_spec x.h x.n
  refine ⟨d.killSlot x.h x.n, ?_, hfree, hkeep⟩
  rw [hc.slotCmd_kill hx, hc.allowed (Or.inl hi), hst, hk, hi, hh]
  rfl

theorem eret_arrives (f v : W64) : Event (.slotCommandArrival x)
    (fun _ d => x.op = .eret f v ∧ d.savedTarget x = none ∧ (x.issuer = none ∨ terrOf (d.slot x.h x.n).lk = terrOf (d.slot ih im).lk) ∧
      (f.getLsbD 11 = false ∧ (f.extractLsb' 0 2).toNat < 3 ∧ (d.slot x.h x.n).st = .held .trap ∧ (d.slot x.h x.n).stopReq = false) ∧
      (∀ z, x.issuer = some z → z = (ih, im) ∧ ih < nCores ∧ (ih, im) ≠ (x.h, x.n) ∧ (d.slot ih im).reply = .sent))
    (fun _ d e => (d.slot x.h x.n).Returned (e.slot x.h x.n) f v ∧ (x.issuer = some (ih, im) → (e.slot ih im).reply = .done 0#64)) := by
  refine arrival_event (op := .eret f v)
    (pre := fun d => f.getLsbD 11 = false ∧ (f.extractLsb' 0 2).toNat < 3 ∧ (d.slot x.h x.n).st = .held .trap ∧ (d.slot x.h x.n).stopReq = false)
    (post := fun d s => (d.slot x.h x.n).Returned s f v) (fun _ _ => SlotOp.noConfusion) (fun d hx hc ⟨hf, _, hst, _⟩ => ?_)
  obtain ⟨e, he, hret, hkeep⟩ := d.eretSlot_spec x.h x.n f v hst
  have hthaw : e.AtMostWakes (if f.getLsbD 8 then e.thaw x.h (f.getLsbD 10) (f.getLsbD 9) else e) := by
    split
    · exact .thaw e _ _ _
    · exact .refl e
  refine ⟨_, hc.slotCmd_eret hx hf (by rw [hst]; exact SlotSt.noConfusion) he, ?_, fun j m hne hs => hthaw.keepsSent j m (hkeep j m hne hs)⟩
  have hw := hthaw x.h x.n
  obtain ⟨ha, hv, hk, hpc⟩ := hw.files
  refine ⟨hw.ready hret.st, hpc.trans hret.pc, ?_, fun j => (hw.V j).trans (hret.V j),
    ?_⟩
  · exact fun j => (congrArg (fun m => if j = 0 then 0#64 else AMap.get 0#64 m j) ha).trans (hret.A j)
  · exact fun j => (congrArg (fun m => if j = 0 then 0xFFFF#16 else AMap.get 0#16 m j) hk).trans (hret.K j)

/-! ### A spawned thread (R285, R300) -/

/-- The slot of a new thread. -/
structure Slot.Fresh (s : Slot) (l : Launch) (key : Nat) (e arg : W64) : Prop where
  st : s.st = .ready
  pc : s.pc = l.code + e
  lk : s.lk = key
  laneSet : s.laneSet = 0xFFFF#16
  kind : s.kind = .launch
  tsw : s.tsw = l.tsw
  gtid : s.gtid = gtidOf key l.serial
  V : ∀ j, s.V j = 0#512
  K : ∀ j, j ≠ 0 → s.K j = 0#16
  A : ∀ j, s.A j = if j = 1 then arg else 0#64

theorem Dev.freeSlot_free {d : Dev} {lk h i k : Nat} (hf : d.freeSlot lk h = some (i, k)) : (d.slot h k).st = .free := by
  unfold Dev.freeSlot at hf
  split at hf
  · exact nomatch hf
  · obtain ⟨e, he, hik⟩ := Option.map_eq_some_iff.mp hf
    have hp := List.find?_some he
    rw [Bool.and_eq_true] at hp
    obtain ⟨-, rfl⟩ := Prod.mk.inj hik
    simpa using hp.1

theorem Dev.launch?_updLaunch {d : Dev} {lk : Nat} {l : Launch} (hl : d.launch? lk = some l) (f : Launch → Launch) :
    (d.updLaunch lk f).launch? lk = some (f l) := by
  unfold Dev.updLaunch Dev.launch? at *
  rw [hl]
  exact AMap.find_put_self _ _ _

theorem Dev.slot_updLaunch (d : Dev) (lk : Nat) (f : Launch → Launch) (j m : Nat) : (d.updLaunch lk f).slot j m = d.slot j m := by
  unfold Dev.updLaunch
  split <;> rfl

/-- A new thread stands in its slot, and in no other. -/
theorem Dev.newThread_spec {d : Dev} {lk : Nat} {l : Launch} (hl : d.launch? lk = some l) (h i k serial : Nat) (kind : Kind)
    (pc : W64) (f : Slot → Slot) : (d.newThread lk h i k kind pc serial f).slot h k = f { Slot.init with
      st := .ready, readyAt := d.clock, lk := lk, ri := i, kind := kind, pc := pc, winBase := (l.resvOn h).rbase + i * l.nregs, winCount := l.nregs,
      tsw := l.tsw, gtid := gtidOf lk serial } ∧
    ∀ j m, ¬(j = h ∧ m = k) → (d.newThread lk h i k kind pc serial f).slot j m = d.slot j m := by
  unfold Dev.newThread
  rw [hl]
  dsimp only
  have hpoison : ∀ (e : Dev) (g : List Nat → List Nat) j m, (e.updCore h (fun c => { c with rfPoison := g c.rfPoison })).slot j m = e.slot j m :=
    fun e g j m => Dev.slot_updCore_of (f := fun c => { c with rfPoison := g c.rfPoison }) (fun _ _ => rfl) e h j m
  refine ⟨?_, fun j m hne => ?_⟩
  · exact (hpoison _ (List.filter _) h k).trans (Dev.slot_setSlot_self _ _ _ _)
  · exact (hpoison _ (List.filter _) j m).trans (Dev.slot_setSlot_ne _ _ _ _ _ _ hne)

/-- What a spawn gives its thread. -/
def Slot.spawned (arg : W64) (s : Slot) : Slot := { s.setA 1 arg with laneSet := 0xFFFF#16 }

theorem Slot.fresh_spawned (l : Launch) (lk clock i b : Nat) (e arg : W64) : (Slot.spawned arg { Slot.init with
    st := .ready, readyAt := clock, lk := lk, ri := i, kind := .launch, pc := l.code + e, winBase := b, winCount := l.nregs, tsw := l.tsw,
    gtid := gtidOf lk l.serial }).Fresh l lk e arg := by
  refine ⟨rfl, rfl, rfl, rfl, rfl, rfl, rfl, fun j => rfl, fun j hj => if_neg hj, fun j => ?_⟩
  by_cases hj : j = 1
  · rw [hj]
    rfl
  · rw [if_neg hj]
    refine (Slot.A_setA_ne _ 1 j arg hj).trans ?_
    unfold Slot.A
    split <;> rfl

/-- What a spawn does at its core. -/
theorem Dev.slotCmd_spawn {e arg : W64} {l : Launch} {i k : Nat} (hx : x.op = .spawn e arg) (hi : x.issuer = some (ih, im))
    (hl : d.launch? (d.slot ih im).lk = some l) (hst : l.st = .resident) (hfree : d.freeSlot (d.slot ih im).lk x.h = some (i, k)) :
    ∃ u, d.slotCmd x = (u, .done (slotName x.h k)) ∧ (u.slot x.h k).Fresh l (d.slot ih im).lk e arg ∧
      ∀ j m, ¬(j = x.h ∧ m = k) → u.slot j m = d.slot j m := by
  have halive : d.alive (d.slot ih im).lk = true := by
    unfold Dev.alive
    rw [hl]
    simp [hst]
  have hserial : d.takeSerial (d.slot ih im).lk = (d.updLaunch (d.slot ih im).lk (fun l => { l with serial := (l.serial + 1) % 2 ^ 32 }), l.serial) := by
    unfold Dev.takeSerial
    rw [hl]
  obtain ⟨v, hv⟩ : ∃ v, v = (d.updLaunch (d.slot ih im).lk (fun l => { l with serial := (l.serial + 1) % 2 ^ 32 })).newThread (d.slot ih im).lk x.h i k
    .launch (l.code + e) l.serial (Slot.spawned arg) := ⟨_, rfl⟩
  obtain ⟨hnew, hothers⟩ := Dev.newThread_spec (Dev.launch?_updLaunch hl (fun l => { l with serial := (l.serial + 1) % 2 ^ 32 })) x.h i k l.serial .launch
    (l.code + e) (Slot.spawned arg)
  rw [← hv] at hnew hothers
  have hacq : ∀ j m, (v.updCore x.h Core.acquire).slot j m = v.slot j m := fun j m => Dev.slot_updCore_of (f := Core.acquire) (fun _ _ => rfl) v x.h j m
  refine ⟨v.updCore x.h Core.acquire, ?_, ?_, fun j m hne => ?_⟩
  · unfold Dev.slotCmd
    rw [hx, hi]
    dsimp only
    rw [hfree, hl]
    dsimp only
    rw [halive, hserial, hv]
    rfl
  · rw [hacq, hnew]
    exact Slot.fresh_spawned l _ _ _ _ _ _
  · rw [hacq, hothers j m hne, Dev.slot_updLaunch]

theorem spawn_arrives (i k : Nat) (l : Launch) (e arg : W64) : Event (.slotCommandArrival x)
    (fun _ d => x.op = .spawn e arg ∧ x.issuer = some (ih, im) ∧ ih < nCores ∧ d.spawnSaved x = false ∧ (d.slot ih im).reply = .sent ∧
      (d.slot ih im).st ≠ .free ∧ d.launch? (d.slot ih im).lk = some l ∧ l.st = .resident ∧ d.freeSlot (d.slot ih im).lk x.h = some (i, k))
    (fun _ d e' => (e'.slot ih im).reply = .done (slotName x.h k) ∧ (e'.slot x.h k).Fresh l (d.slot ih im).lk e arg) := by
  intro s ⟨hx, hi, hh, hsaved, hr, hst, hl, hres, hfree⟩
  obtain ⟨u, hu, hfresh, hothers⟩ := Dev.slotCmd_spawn hx hi hl hres hfree
  have hne : ¬(ih = x.h ∧ im = k) := by
    rintro ⟨rfl, rfl⟩
    exact hst (Dev.freeSlot_free hfree)
  have hsent : (u.slot ih im).reply = .sent := by rw [hothers ih im hne]; exact hr
  refine ⟨⟨s.mem, u.reply ih im (.done (slotName x.h k))⟩, ?_, fun _ => rfl, Dev.reply_reply hh (by rw [hsent]; decide) _, ?_⟩
  · unfold exec execSlotCommandArrival onMem
    dsimp only
    rw [hsaved, if_neg Bool.false_ne_true, hx]
    dsimp only
    rw [if_pos rfl]
    dsimp only
    rw [hu, hi]
    dsimp only
    rw [hsent]
    rfl
  · dsimp only
    rw [Dev.slot_reply_ne _ _ _ _ (fun h => hne ⟨h.1.symm, h.2.symm⟩)]
    exact hfresh
end

/-! ### Forms that command (R298 to R302) -/

/-- A form that sends its command and skips its turn. -/
theorem asks_of {i : Instr} {u : Use} {body : Ctx → Res} {pre : Ctx → Prop} (h n : Ctx → Nat) (op : Ctx → SlotOp)
    (he : ∀ s, exec i s = thread u body s) (hb : ∀ c, pre c → body c =
      .skip ((c.d.updSlot c.h c.n (fun s => { s with reply := .sent })).sendCmd ⟨some (c.h, c.n), none, h c, n c, op c⟩)) :
    ∀ s h' n' w, s.issues h' n' w u → pre (s.ctx h' n' w) → ∃ t, exec i s = .next t ∧ (t.dev.slot h' n').pc = (s.dev.slot h' n').pc ∧
      (t.dev.slot h' n').reply = .sent ∧
      t.dev.coming s.dev.clock (.slotCommandArrival ⟨some (h', n'), none, h (s.ctx h' n' w), n (s.ctx h' n' w), op (s.ctx h' n' w)⟩) := by
  intro s h' n' w hi hp
  have hslot : (s.dev.updSlot h' n' (fun s => { s with reply := .sent })).slot h' n' = { s.dev.slot h' n' with reply := .sent } := Dev.slot_updSlot_self _ _ _ _
  refine ⟨⟨s.mem, (s.dev.updSlot h' n' (fun s => { s with reply := .sent })).sendCmd ⟨some (h', n'), none, h (s.ctx h' n' w), n (s.ctx h' n' w), op (s.ctx h' n' w)⟩⟩,
    ?_, (congrArg Slot.pc hslot :), (congrArg Slot.reply hslot :), ⟨_, List.mem_append_right _ (List.mem_singleton.mpr rfl), rfl, ?_⟩⟩
  · rw [he, thread_issues u body s h' n' w hi, hb _ hp]
    rfl
  · exact lt_of_lt_of_le (by omega : s.dev.clock < s.dev.clock + 1 + Config.latency s.dev.count) (le_max_left _ _)

theorem Ctx.askSlot_idle {c : Ctx} (h : c.s.reply = .idle) (j m : Nat) (op : SlotOp) (v : W64) (k : W64 → Res) : c.askSlot j m op v k =
    .skip ((c.d.updSlot c.h c.n (fun s => { s with reply := .sent })).sendCmd ⟨some (c.h, c.n), none, j, m, op⟩) := by
  unfold Ctx.askSlot
  rw [h]

theorem Ctx.askSlot_done {c : Ctx} {r : W64} (h : c.s.reply = .done r) (j m : Nat) (op : SlotOp) (v : W64) (k : W64 → Res) :
    c.askSlot j m op v k = k r := by
  unfold Ctx.askSlot
  rw [h]

section
variable (a b cc d : AReg)

theorem exec_eret (s : State) : exec (.eret a b cc) s = thread ((useA [ra a, ra b, ra cc]).privileged) (fun c =>
    if !c.d.nameOk (terrOf c.s.lk) (c.s.A a.toNat) false then c.faultAt 0x82 1 (c.s.A a.toNat)
    else if !eretFlagsOk (c.s.A b.toNat) then c.faultAt 0x82 3 (c.s.A b.toNat)
    else c.askSlot (nameCore (c.s.A a.toNat)) (nameSlot (c.s.A a.toNat)) (.eret (c.s.A b.toNat) (c.s.A cc.toNat)) (c.s.A a.toNat) (fun _ => .done c.d)) s := by
  unfold exec execEret
  rfl

theorem eret_body {c : Ctx} (hn : c.d.nameOk (terrOf c.s.lk) (c.s.A a.toNat) false = true) (hf : eretFlagsOk (c.s.A b.toNat) = true) (r : Res) :
    (if !c.d.nameOk (terrOf c.s.lk) (c.s.A a.toNat) false then c.faultAt 0x82 1 (c.s.A a.toNat)
    else if !eretFlagsOk (c.s.A b.toNat) then c.faultAt 0x82 3 (c.s.A b.toNat) else r) = r := by
  rw [hn, hf]
  rfl

theorem eret_completes (r : W64) : CompletesWhen (.eret a b cc) (useA [ra a, ra b, ra cc]).privileged
    (fun c => c.d.nameOk (terrOf c.s.lk) (c.s.A a.toNat) false = true ∧ eretFlagsOk (c.s.A b.toNat) = true ∧ c.s.reply = .done r) [] [] []
    (fun c s => s.pc = c.s.pc + 8#64) := by
  refine completesWhen_of (exec_eret a b cc) (fun c hc ⟨hn, hf, hr⟩ => ⟨c.d, c.s, c.s.pc + 8#64, ?_, .refl hc, .refl _, rfl⟩)
  rw [eret_body a b hn hf, Ctx.askSlot_done hr]
  rfl

theorem eret_traps : TrapsWhen (.eret a b cc) (useA [ra a, ra b, ra cc]).privileged
    (fun c => c.d.nameOk (terrOf c.s.lk) (c.s.A a.toNat) false = false) 0x82 (fun _ => 1) (fun c => c.s.A a.toNat) :=
  trapsWhen_of (exec_eret a b cc) (fun c _ h => ⟨_, if_pos (by rw [h]; rfl)⟩)

/-- The body of wake, past R174. -/
def wakeBody (c : Ctx) : Res :=
  if !c.d.nameOk (terrOf c.s.lk) (c.s.A a.toNat) true || (c.s.A a.toNat).extractLsb' 18 2 == 2#2 || (c.s.A a.toNat).extractLsb' 18 2 == 3#2 then
    c.faultAt 0x82 1 (c.s.A a.toNat)
  else if (c.s.A a.toNat).extractLsb' 18 2 == 1#2 && !c.s.priv then c.faultAt 0x80 3 c.w
  else c.askSlot (nameCore (c.s.A a.toNat)) (nameSlot (c.s.A a.toNat)) (.wake ((c.s.A a.toNat).extractLsb' 18 2)) (c.s.A a.toNat)
    (fun r => c.done (c.s.setA d.toNat r))

theorem exec_wake (s : State) : exec (.wake d a) s = thread (useA [wa d, ra a]) (fun c => c.unspec (wakeBody a d)) s := by
  unfold exec execWake specForm
  rfl

theorem wakeBody_asks {c : Ctx} (hn : c.d.nameOk (terrOf c.s.lk) (c.s.A a.toNat) true = true)
    (hk : (c.s.A a.toNat).extractLsb' 18 2 = 0#2 ∨ (c.s.A a.toNat).extractLsb' 18 2 = 1#2 ∧ c.s.priv = true) : wakeBody a d c =
    c.askSlot (nameCore (c.s.A a.toNat)) (nameSlot (c.s.A a.toNat)) (.wake ((c.s.A a.toNat).extractLsb' 18 2)) (c.s.A a.toNat)
      (fun r => c.done (c.s.setA d.toNat r)) := by
  unfold wakeBody
  rcases hk with hk | ⟨hk, hp⟩
  · rw [hn, hk]
    rfl
  · rw [hn, hk, hp]
    rfl

theorem wake_completes (r : W64) : CompletesWhen (.wake d a) (useA [wa d, ra a])
    (fun c => c.sure ∧ c.s.reply = .done r ∧ c.d.nameOk (terrOf c.s.lk) (c.s.A a.toNat) true = true ∧
      ((c.s.A a.toNat).extractLsb' 18 2 = 0#2 ∨ (c.s.A a.toNat).extractLsb' 18 2 = 1#2 ∧ c.s.priv = true)) [d.toNat] [] []
    (fun c s => s.pc = c.s.pc + 8#64 ∧ s.A d.toNat = if d = 0#4 then 0#64 else r) := by
  refine completesWhen_of (exec_wake a d) (fun c hc ⟨hs, hr, hn, hk⟩ => ⟨_, _, c.s.pc + 8#64, ?_, .setSlot c _, KeptRegs.setA _ _ r, rfl,
    Slot.A_setA_self _ _ _⟩)
  rw [hs.unspec, wakeBody_asks a d hn hk, Ctx.askSlot_done hr]
  rfl

theorem wake_traps : TrapsWhen (.wake d a) (useA [wa d, ra a]) (fun c => c.sure ∧ c.d.nameOk (terrOf c.s.lk) (c.s.A a.toNat) true = true ∧
    (c.s.A a.toNat).extractLsb' 18 2 = 1#2 ∧ c.s.priv = false) 0x80 (fun _ => 3) (fun c => c.w) := by
  refine trapsWhen_of (exec_wake a d) (fun c _ ⟨hs, hn, hk, hp⟩ => ⟨Config.freeLanes c.d.count, ?_⟩)
  rw [hs.unspec]
  unfold wakeBody
  rw [hn, hk, hp]
  rfl

/-- The core that a spawn names. -/
def Ctx.spawnCore (c : Ctx) (b : AReg) : Nat := if b = 0#4 then c.h else (c.s.A b.toNat).toNat

/-- What spawn needs. -/
structure Ctx.Spawns (c : Ctx) (l : Launch) (a b : AReg) : Prop where
  sure : c.sure
  low : c.spawnCore b < 4096
  launch : c.d.launch? c.s.lk = some l
  has : l.has (c.spawnCore b) = true
  entry : l.entries.contains (c.s.A a.toNat).toNat = true

theorem Ctx.Spawns.body {c : Ctx} {l : Launch} (h : c.Spawns l a b) : ∃ v,
    (fun c : Ctx => c.unspec (fun c =>
      let t : W64 := if b = 0#4 then BitVec.ofNat 64 c.h else c.s.A b.toNat
      let e := c.s.A a.toNat
      if t.extractLsb' 12 52 ≠ 0#52 ∨ ((c.d.launch? c.s.lk).map (fun l => l.has t.toNat)).getD false = false then c.faultAt 0x82 1 t
      else if ((c.d.launch? c.s.lk).map (fun l => l.entries.contains e.toNat)).getD false = false then c.faultAt 0x82 2 e
      else c.askSlot t.toNat 0 (.spawn e (c.s.A cc.toNat)) t (fun r => c.done (c.s.setA d.toNat r)))) c =
    c.askSlot (c.spawnCore b) 0 (.spawn (c.s.A a.toNat) (c.s.A cc.toNat)) v (fun r => c.done (c.s.setA d.toNat r)) := by
  have ht : (if b = 0#4 then BitVec.ofNat 64 c.h else c.s.A b.toNat : W64).toNat = c.spawnCore b := by
    have hlow := h.low
    unfold Ctx.spawnCore at hlow ⊢
    split
    · next hb =>
      rw [if_pos hb] at hlow
      rw [BitVec.toNat_ofNat]
      exact Nat.mod_eq_of_lt (by omega)
    · rfl
  refine ⟨if b = 0#4 then BitVec.ofNat 64 c.h else c.s.A b.toNat, ?_⟩
  dsimp only
  rw [h.sure.unspec]
  generalize (if b = 0#4 then BitVec.ofNat 64 c.h else c.s.A b.toNat : W64) = t at ht ⊢
  have hfield : ¬(t.extractLsb' 12 52 ≠ 0#52 ∨ ((c.d.launch? c.s.lk).map (fun l => l.has t.toNat)).getD false = false) := by
    rw [h.launch, Option.map_some, Option.getD_some, ht, h.has]
    exact fun g => g.elim (fun hv => hv (extractLsb'_12_52.mpr (ht ▸ h.low))) (fun hv => nomatch hv)
  rw [if_neg hfield, ht, h.launch, Option.map_some, Option.getD_some, h.entry]
  rfl

theorem spawn_completes (l : Launch) (r : W64) : CompletesWhen (.spawn d a b cc) (useA [wa d, ra a, ra b, ra cc])
    (fun c => c.Spawns l a b ∧ c.s.reply = .done r) [d.toNat] [] []
    (fun c s => s.pc = c.s.pc + 8#64 ∧ s.A d.toNat = if d = 0#4 then 0#64 else r) := by
  refine completesWhen_of (fun _ => by unfold exec execSpawn specForm; rfl) (fun c hc ⟨hs, hr⟩ => ⟨_, _, c.s.pc + 8#64, ?_, .setSlot c _,
    KeptRegs.setA _ _ r, rfl, Slot.A_setA_self _ _ _⟩)
  obtain ⟨v, hv⟩ := hs.body a b cc d
  exact congrArg (c.settle _) (hv.trans (Ctx.askSlot_done hr _ _ _ _ _))

theorem exec_kill (s : State) : exec (.kill a) s = thread (useA [ra a]) (fun c => c.unspec (fun c =>
    if !c.d.nameOk (terrOf c.s.lk) (c.s.A a.toNat) false then c.faultAt 0x82 1 (c.s.A a.toNat)
    else if nameCore (c.s.A a.toNat) = c.h ∧ nameSlot (c.s.A a.toNat) = c.n then .left (c.d.killSlot c.h c.n)
    else c.askSlot (nameCore (c.s.A a.toNat)) (nameSlot (c.s.A a.toNat)) .kill (c.s.A a.toNat) (fun _ => .done c.d))) s := by
  unfold exec execKill specForm
  rfl

theorem kill_completes (r : W64) : CompletesWhen (.kill a) (useA [ra a])
    (fun c => c.sure ∧ c.s.reply = .done r ∧ c.d.nameOk (terrOf c.s.lk) (c.s.A a.toNat) false = true ∧
      ¬(nameCore (c.s.A a.toNat) = c.h ∧ nameSlot (c.s.A a.toNat) = c.n)) [] [] [] (fun c s => s.pc = c.s.pc + 8#64) := by
  refine completesWhen_of (exec_kill a) (fun c hc ⟨hs, hr, hn, hne⟩ => ⟨c.d, c.s, c.s.pc + 8#64, ?_, .refl hc, .refl _, rfl⟩)
  rw [hs.unspec, hn, if_neg hne, Ctx.askSlot_done hr]
  rfl

theorem kill_own (s : State) (h' n' : Nat) (w : W64) (hi : s.issues h' n' w (useA [ra a])) (hs : (s.ctx h' n' w).sure)
    (hn : (s.ctx h' n' w).d.nameOk (terrOf (s.ctx h' n' w).s.lk) ((s.ctx h' n' w).s.A a.toNat) false = true)
    (hc : nameCore ((s.ctx h' n' w).s.A a.toNat) = h') (hsl : nameSlot ((s.ctx h' n' w).s.A a.toNat) = n') :
    ∃ t, exec (.kill a) s = .next t ∧ (t.dev.slot h' n').st = .free := by
  refine ⟨⟨s.mem, s.dev.killSlot h' n'⟩, ?_, (s.dev.killSlot_spec h' n').1⟩
  have hown : nameCore ((s.ctx h' n' w).s.A a.toNat) = (s.ctx h' n' w).h ∧ nameSlot ((s.ctx h' n' w).s.A a.toNat) = (s.ctx h' n' w).n := ⟨hc, hsl⟩
  rw [exec_kill, thread_issues _ _ s h' n' w hi, hs.unspec, hn, if_neg (by decide), if_pos hown]
  rfl

end

/-- The turn of a killed slot (R22, R301). -/
theorem killed_turn (m : Memory) (dv : Dev) (h n : Nat) (hseat : ((dv.seatAssign h).core h).seatedIn ((dv.seatAssign h).clock % 16) = some n)
    (hk : ((dv.seatAssign h).slot h n).killed = true) :
    dv.turn m h = .stay ((dv.seatAssign h).first [.slotCommandArrival ⟨none, none, h, n, .kill⟩]) := by
  unfold Dev.turn
  dsimp only
  rw [hseat]
  dsimp only
  rw [hk, if_pos rfl]

/-- Settles O40. -/
theorem slotCommands : Obligations.SlotCommands := by
  intro a b cc d r x i k ih im l e arg f v kind
  refine ⟨?_, eret_completes a b cc r, eret_traps a b cc, ?_, wake_completes a d r, wake_traps a d, ⟨?_, ?_⟩, ?_, kill_completes a r, kill_own a,
    wake_arrives, wake_free kind, kill_arrives, fun z => kill_seated z, fun z => kill_turn z, killed_turn, ?_, ?_⟩
  · exact asks_of (pre := fun c => c.d.nameOk (terrOf c.s.lk) (c.s.A a.toNat) false = true ∧ eretFlagsOk (c.s.A b.toNat) = true ∧ c.s.reply = .idle)
      _ _ _ (exec_eret a b cc) (fun c ⟨hn, hf, hr⟩ => (eret_body a b hn hf _).trans (Ctx.askSlot_idle hr _ _ _ _ _))
  · intro s h' n' w hi ⟨⟨hs, hr, hn⟩, hk⟩
    refine asks_of (pre := fun c => c.sure ∧ c.s.reply = .idle ∧ c.d.nameOk (terrOf c.s.lk) (c.s.A a.toNat) true = true ∧ (c.s.A a.toNat).extractLsb' 18 2 = 0#2)
      (fun c => nameCore (c.s.A a.toNat)) (fun c => nameSlot (c.s.A a.toNat)) (fun _ => .wake 0#2) (exec_wake a d) (fun c ⟨hs, hr, hn, hk⟩ => ?_)
      s h' n' w hi ⟨hs, hr, hn, hk⟩
    rw [hs.unspec, wakeBody_asks a d hn (Or.inl hk), Ctx.askSlot_idle hr, hk]
  · intro s h' n' w hi ⟨⟨h1, h2, h3, h4, h5⟩, hr⟩
    refine asks_of (pre := fun c => c.Spawns l a b ∧ c.s.reply = .idle) (fun c => c.spawnCore b) (fun _ => 0) (fun c => .spawn (c.s.A a.toNat) (c.s.A cc.toNat))
      (fun _ => by unfold exec execSpawn specForm; rfl) (fun c ⟨hs, hr⟩ => ?_) s h' n' w hi ⟨⟨h1, h2, h3, h4, h5⟩, hr⟩
    obtain ⟨v, hv⟩ := hs.body a b cc d
    exact hv.trans (Ctx.askSlot_idle hr _ _ _ _ _)
  · exact fun s h' n' w hi ⟨⟨h1, h2, h3, h4, h5⟩, hr⟩ => spawn_completes a b cc d l r s h' n' w hi ⟨⟨h1, h2, h3, h4, h5⟩, hr⟩
  · intro s h' n' w hi ⟨⟨hs, hr, hn⟩, hne⟩
    refine asks_of (pre := fun c => c.sure ∧ c.s.reply = .idle ∧ c.d.nameOk (terrOf c.s.lk) (c.s.A a.toNat) false = true ∧
        ¬(nameCore (c.s.A a.toNat) = c.h ∧ nameSlot (c.s.A a.toNat) = c.n))
      (fun c => nameCore (c.s.A a.toNat)) (fun c => nameSlot (c.s.A a.toNat)) (fun _ => .kill) (exec_kill a) (fun c ⟨hs, hr, hn, hne⟩ => ?_)
      s h' n' w hi ⟨hs, hr, hn, hne⟩
    rw [hs.unspec, hn, if_neg hne, Ctx.askSlot_idle hr]
    rfl
  · intro s hpre
    obtain ⟨t, ht, hm, ⟨h1, h2, h3, h4, h5⟩, hans⟩ := eret_arrives f v s hpre
    exact ⟨t, ht, hm, ⟨h1, h2, h3, h4, h5⟩, hans⟩
  · intro s hpre
    obtain ⟨t, ht, hm, hans, ⟨h1, h2, h3, h4, h5, h6, h7, h8, h9, h10⟩⟩ := spawn_arrives i k l e arg s hpre
    exact ⟨t, ht, hm, hans, h1, h2, h3, h4, h5, h6, h7, h8, h9, h10⟩

end Sys2Proof.Machine
end

section
/-! PROOFS. Messages that stay on their way; what taking an exception saves (R292, R294, R295). -/

namespace Sys2Proof.Machine

/-! ### What is on its way stays on its way -/

/-- From d to e messages were sent at most, in the same cycle. -/
structure Dev.Flows (d e : Dev) : Prop where
  clock : e.clock = d.clock
  net : d.net <+: e.net

namespace Dev.Flows

theorem refl (d : Dev) : d.Flows d := ⟨rfl, List.prefix_refl _⟩
theorem trans {d e f : Dev} (h : d.Flows e) (g : e.Flows f) : d.Flows f := ⟨g.clock.trans h.clock, h.net.trans g.net⟩
theorem after {d e f : Dev} (g : e.Flows f) (h : d.Flows e) : d.Flows f := h.trans g
theorem of_net {d e : Dev} (hc : e.clock = d.clock) (hn : e.net = d.net) : d.Flows e := ⟨hc, hn ▸ List.prefix_refl _⟩
theorem send (d : Dev) (chan : Nat) (e : Ev) : d.Flows (d.send chan e) := ⟨rfl, List.prefix_append _ _⟩
theorem later (d : Dev) (cycles : Nat) (e : Ev) : d.Flows (d.later cycles e) := ⟨rfl, List.prefix_append _ _⟩
theorem quays {d e : Dev} (h : d.QuaysOnly e) : d.Flows e := of_net h.clock h.net
theorem updSlot (d : Dev) (h n : Nat) (f : Slot → Slot) : d.Flows (d.updSlot h n f) := of_net rfl rfl
theorem wake (d : Dev) (h : Nat) (p : Nat → Slot → WaitFor → Bool) : d.Flows (d.wake h p) := of_net rfl rfl

theorem foldl {α : Type} {f : Dev → α → Dev} (hf : ∀ (e : Dev) (a : α), e.Flows (f e a)) (l : List α) (d : Dev) : d.Flows (l.foldl f d) :=
  List.foldlRecOn (motive := fun x : Dev => d.Flows x) l f (refl d) (fun _ hx a _ => hx.trans (hf _ a))

theorem coming {d e : Dev} {clock : Nat} {x : Ev} (h : d.Flows e) (hx : d.coming clock x) : e.coming clock x := by
  obtain ⟨f, hf, hfe, hdue⟩ := hx
  exact ⟨f, h.net.subset hf, hfe, hdue⟩

theorem wakeSlot (d : Dev) (h n : Nat) (p : WaitFor → Bool) : d.Flows (d.wakeSlot h n p) := by
  unfold Dev.wakeSlot
  split
  · split
    · exact updSlot _ _ _ _
    · exact refl _
  · exact refl _

theorem reply (d : Dev) (h n : Nat) (r : Reply) : d.Flows (d.reply h n r) := by
  unfold Dev.reply
  split
  · exact refl _
  · split
    · exact updSlot _ _ _ _
    · exact (updSlot _ _ _ _).trans (wakeSlot _ _ _ _)

theorem grantNext (d : Dev) (m : Memory) (pa : Nat) : d.Flows (d.grantNext m pa) := by
  unfold Dev.grantNext
  dsimp only
  split
  · exact refl _
  · split
    · exact refl _
    · split
      · split
        · exact quays (Dev.quayWaited_quaysOnly _ _ _)
        · exact (quays (Dev.quayWaited_quaysOnly _ _ _)).trans (later _ _ _)
      · next e he =>
        refine (quays (Dev.quay_quaysOnly he)).trans ?_
        split <;> exact after (send _ _ _) (of_net rfl rfl)

theorem unhold (d : Dev) (m : Memory) (pa h n : Nat) : d.Flows (d.unhold m pa h n) := by
  refine trans (of_net ?_ ?_) (grantNext _ m pa)
  · unfold Dev.unpin
    dsimp only
    split <;> rfl
  · unfold Dev.unpin
    dsimp only
    split <;> rfl

theorem finish (d : Dev) (m : Memory) (f : Fin) : d.Flows (d.finish m [] f) := by
  unfold Dev.finish
  split
  · unfold Dev.wakeVisible
    split <;> exact wakeSlot _ _ _ _
  · split
    · exact refl _
    · rw [Dev.broadcast_nil]
      refine trans ?_ (later _ _ _)
      have hlaunch : ∀ lk f, d.Flows (d.updLaunch lk f) := fun lk f => by
        unfold Dev.updLaunch
        split <;> exact of_net rfl rfl
      split
      · exact (hlaunch _ _).trans (of_net rfl rfl)
      · exact hlaunch _ _
  · split
    · exact unhold _ _ _ _ _
    · exact refl _
  · exact (updSlot _ _ _ _).trans ((unhold _ _ _ _ _).trans (send _ _ _))
  · exact send _ _ _
  · exact reply _ _ _ _
  · exact send _ _ _
  · exact of_net rfl rfl
  all_goals exact refl _

theorem advance (d : Dev) (m : Memory) (id : Nat) : d.Flows (d.advance m id) := by
  unfold Dev.advance
  split
  · exact refl _
  · split
    · exact after (send _ _ _) (of_net rfl rfl)
    · dsimp only
      split
      · next g _ _ hall =>
        unfold Dev.retire
        rw [homesOf_eq_nil hall]
        exact after (foldl (fun e f => finish e m f) _ _) (of_net rfl rfl)
      · exact after (foldl (fun e q => send e 0 (.groupRelease id q)) _ _) (of_net rfl rfl)

theorem settle (d : Dev) (m : Memory) : d.Flows (d.settle m) := by
  suffices h : ∀ k (d : Dev), d.Flows (d.startGroups m k) from h _ d
  intro k
  induction k with
  | zero => exact refl
  | succ k ih =>
    intro d
    unfold Dev.startGroups
    split
    · exact refl _
    · exact after ((advance _ _ _).trans (ih _)) (of_net rfl rfl)

theorem traceSlot (d : Dev) (m : Memory) (h n type : Nat) : d.Flows (d.traceSlot m h n type) := by
  unfold Dev.traceSlot Dev.traceRec
  dsimp only
  split
  · exact of_net rfl rfl
  · unfold Dev.addGroup
    exact after (settle _ _) (of_net rfl rfl)

theorem breakLeases (d : Dev) (h n why : Nat) (p : LeaseRec → Bool) : d.Flows (d.breakLeases h n why p) := by
  unfold Dev.breakLeases
  dsimp only
  split
  · exact refl _
  · exact (updSlot _ _ _ _).trans (foldl (fun e r => send e _ _) _ _)

end Dev.Flows

theorem Slot.Aside.svcHeld {a b : Slot} (h : a.Aside b) : b.svcHeld = a.svcHeld := by obtain ⟨_, _, _, _, _, rfl, -⟩ := h; rfl
theorem Slot.Aside.svcWait {a b : Slot} (h : a.Aside b) : b.svcWait = a.svcWait := by obtain ⟨_, _, _, _, _, rfl, -⟩ := h; rfl

/-! ### Taking an exception (R292, R294, R295) -/

theorem toNat_frec0 (h sub cause : Nat) (lanes : BitVec 16) (d s : Bool) :
    (0#4 ++ BitVec.ofNat 12 h ++ lanes ++ 0#5 ++ BitVec.ofBool d ++ BitVec.ofBool s ++ 1#1 ++ BitVec.ofNat 16 sub ++ BitVec.ofNat 8 cause).toNat =
      cause % 2 ^ 8 + 2 ^ 8 * (sub % 2 ^ 16) + 2 ^ 24 + 2 ^ 25 * s.toNat + 2 ^ 26 * d.toNat + 2 ^ 32 * lanes.toNat + 2 ^ 48 * (h % 2 ^ 12) := by
  simp only [toNat_append_add, BitVec.toNat_ofNat, BitVec.toNat_ofBool]
  omega

theorem tswFault_toNat (w : W32) (cause sub : Nat) : (tswFault w cause sub).toNat / 2 ^ 24 = sub % 256 ∧
    (tswFault w cause sub).toNat / 2 ^ 16 % 256 = cause % 256 := by
  have hval : tswFault w cause sub = (BitVec.ofNat 8 sub ++ BitVec.ofNat 8 cause ++ w.extractLsb' 0 16 : W32) := by
    have hlow : (0xFFFF#32 : W32) = (0#16 ++ 0xFFFF#16 : W32) := rfl
    have hbyte : ∀ x : Nat, BitVec.ofNat 32 (x % 256) = (0#24 ++ BitVec.ofNat 8 x : W32) := fun x => by
      apply BitVec.eq_of_toNat_eq
      simp only [toNat_append_add, BitVec.toNat_ofNat]
      omega
    rw [tswFault, hbyte, hbyte]
    apply BitVec.eq_of_getLsbD_eq
    intro i hi
    simp only [BitVec.getLsbD_or, BitVec.getLsbD_and, BitVec.getLsbD_shiftLeft, BitVec.getLsbD_append, BitVec.getLsbD_extractLsb', hlow]
    by_cases h16 : i < 16
    · have hones : (0xFFFF#16).getLsbD i = true := by
        rw [show (0xFFFF#16) = BitVec.allOnes 16 from rfl, BitVec.getLsbD_allOnes]
        exact decide_eq_true h16
      simp [h16, hones, show i < 24 by omega]
    · by_cases h24 : i < 24
      · simp [h16, h24, show i - 16 < 8 by omega, hi]
      · simp [h16, h24, show ¬(i - 16 < 8) by omega, show i - 16 - 8 = i - 24 by omega, show i - 24 < 8 by omega, hi]
  rw [hval]
  simp only [toNat_append_add, BitVec.toNat_ofNat]
  have := (w.extractLsb' 0 16).isLt
  omega

/-- What an exception leaves in a slot, but for its state: the record, LFC and LFS, the PC, the registers, broken leases. -/
def Slot.Taken (a b : Slot) (h n : Nat) (t : Trap) (svc : Bool) : Prop :=
  b.frec0.toNat % 256 = t.cause % 256 ∧ b.frec0.toNat / 256 % 65536 = t.sub % 65536 ∧ b.frec0.getLsbD 24 = true ∧
  b.frec0.getLsbD 25 = svc ∧ b.frec0.getLsbD 26 = false ∧ b.frec0.extractLsb' 32 16 = t.lanes ∧ b.frec0.toNat / 2 ^ 48 = h % 4096 ∧
  b.frec1 = a.pc ∧ b.frec2 = t.addr ∧ b.frec3.toNat = n % 64 * 2 ^ 48 + a.gtid.toNat ∧
  b.tsw.toNat / 2 ^ 24 = t.sub % 256 ∧ b.tsw.toNat / 2 ^ 16 % 256 = t.cause % 256 ∧
  b.pc = a.pc ∧ (∀ j, b.A j = a.A j ∧ b.V j = a.V j ∧ b.K j = a.K j) ∧
  (∀ r, r ∈ b.leases → ¬(t.cause = 0x32 ∧ t.sub = 2) → r.broken = true)

theorem getLsbD_of_toNat {w : W64} {i : Nat} (b : Bool) (h : w.toNat / 2 ^ i % 2 = b.toNat) : w.getLsbD i = b := by
  rw [BitVec.getLsbD, Nat.testBit_eq_decide_div_mod_eq, h]
  cases b <;> rfl

/-- The record of R292 in a slot whose leases have broken. -/
theorem Slot.taken_record (a : Slot) (ls : List LeaseRec) (w : W32) (h n : Nat) (t : Trap) (svc : Bool)
    (hls : ∀ r, r ∈ ls → ¬(t.cause = 0x32 ∧ t.sub = 2) → r.broken = true) :
    a.Taken ({ a with leases := ls, tsw := w }.record h n t false svc a.pc) h n t svc := by
  have hf := toNat_frec0 h t.sub t.cause t.lanes false svc
  have hl := t.lanes.isLt
  have hs : svc.toNat < 2 := Bool.toNat_lt svc
  obtain ⟨hsub, hcause⟩ := tswFault_toNat w t.cause t.sub
  have hd : false.toNat = 0 := rfl
  rw [hd] at hf
  refine ⟨?_, ?_, getLsbD_of_toNat _ ?_, getLsbD_of_toNat _ ?_, getLsbD_of_toNat _ ?_, ?_, ?_, rfl, rfl, ?_, hsub, hcause, rfl,
    fun _ => ⟨rfl, rfl, rfl⟩, hls⟩
  · exact hf ▸ (by omega)
  · exact hf ▸ (by omega)
  · rw [show (Slot.record _ h n t false svc a.pc).frec0.toNat = _ from hf, Bool.toNat_true]
    omega
  · rw [show (Slot.record _ h n t false svc a.pc).frec0.toNat = _ from hf]
    omega
  · rw [show (Slot.record _ h n t false svc a.pc).frec0.toNat = _ from hf, Bool.toNat_false]
    omega
  · apply BitVec.eq_of_toNat_eq
    rw [BitVec.extractLsb'_toNat, Nat.shiftRight_eq_div_pow, show (Slot.record _ h n t false svc a.pc).frec0.toNat = _ from hf]
    omega
  · exact hf ▸ (by omega)
  · change (0#10 ++ BitVec.ofNat 6 n ++ a.gtid : BitVec 64).toNat = _
    simp only [toNat_append_add, BitVec.toNat_ofNat]
    omega

/-- The parts of a slot that an exception's record does not speak of. -/
theorem Slot.Taken.beside {a b : Slot} {h n : Nat} {t : Trap} {svc : Bool} (hb : a.Taken b h n t svc) (o : List LongOp) (r : Reply) (st : SlotSt)
    (ra : Nat) (y cl : Bool) (ha : Nat) (sh sw : Bool) : 
    a.Taken { b with ops := o, reply := r, st := st, readyAt := ra, yielded := y, closed := cl, heldAt := ha, svcHeld := sh, svcWait := sw } h n t svc := hb

theorem Slot.Taken.aside {a b c : Slot} {h n : Nat} {t : Trap} {svc : Bool} (hb : a.Taken b h n t svc) (hc : b.Aside c) : a.Taken c h n t svc := by
  obtain ⟨o, r, st, ra, y, rfl, -⟩ := hc
  exact hb.beside o r st ra y _ _ _ _

/-- The leases that an exception breaks. -/
theorem Dev.breakLeases_taken (d : Dev) (h n : Nat) (t : Trap) (p : LeaseRec → Bool) (hp : ¬(t.cause = 0x32 ∧ t.sub = 2) → ∀ r, p r = true) :
    ∃ ls w, (d.breakLeases h n 2 p).slot h n = { d.slot h n with leases := ls, tsw := w } ∧
      ∀ r, r ∈ ls → ¬(t.cause = 0x32 ∧ t.sub = 2) → r.broken = true := by
  obtain ⟨ls, w, hb⟩ := d.slot_breakLeases h n 2 p
  refine ⟨ls, w, hb, fun r hr hc => ?_⟩
  have hls : ls = (d.slot h n).leases.map _ := (congrArg Slot.leases hb).symm.trans (Dev.leases_breakLeases d h n 2 p)
  obtain ⟨l, -, rfl⟩ := List.mem_map.mp (hls ▸ hr)
  by_cases hl : l.broken <;> simp [hl, hp hc]

theorem Dev.metError_flows (d : Dev) (h : Nat) (t : Trap) (g : BitVec 48) : (d.metError h t g).cores = d.cores ∧ d.Flows (d.metError h t g) := by
  unfold Dev.metError
  split
  · exact ⟨rfl, .refl _⟩
  · exact ⟨rfl, .of_net rfl rfl⟩

/-- The report goes to the fault service (R291). -/
theorem Dev.coming_report (d : Dev) (h n kind : Nat) : (d.report h n kind).coming d.clock (.messageArrival
    ⟨terrOf (d.slot h n).lk, 0xFFFF, reportImage (d.slot h n) h n kind, 0xFFFD, h, none, none⟩) := Dev.coming_send _ _ _

theorem reportImage_fields (s : Slot) (h n kind : Nat) : (reportImage s h n kind).extractLsb' 0 64 = s.frec0 ∧
    (reportImage s h n kind).extractLsb' 64 64 = s.frec1 ∧ (reportImage s h n kind).extractLsb' 128 64 = s.frec2 := by
  unfold reportImage
  refine ⟨BitVec.extractLsb'_append_eq_right, ?_, ?_⟩ <;>
    simp (disch := omega) only [BitVec.extractLsb'_append_eq_of_le, Nat.reduceSub, BitVec.extractLsb'_append_eq_right]

/-- A slot that takes a trap at its instruction. -/
def Slot.trapAt (x : Slot) (h n : Nat) (t : Trap) (pc : W64) (clock : Nat) : Slot :=
  { (x.record h n t false false pc).noTable with st := .held .trap, heldAt := clock, reply := .idle, closed := false }

/-- A slot that takes a service wait at its instruction. -/
def Slot.serviceAt (x : Slot) (h n : Nat) (t : Trap) (pc : W64) : Slot :=
  { (x.record h n t false true pc).noTable with st := .waiting .service, svcWait := true, reply := .idle }

theorem Dev.trap_eq (m : Memory) (d : Dev) (h n : Nat) (t : Trap) (pc : W64) : ∃ d1 clock,
    d1.slot h n = (d.breakLeases h n 2 (fun _ => !(t.cause == 0x32 && t.sub == 2))).slot h n ∧ d.Flows d1 ∧
    d.trap m h n t false pc = Dev.traceSlot m (if t.cause == 6 then d1.updSlot h n (fun x => x.trapAt h n t pc clock)
      else (d1.updSlot h n (fun x => x.trapAt h n t pc clock)).report h n 1) h n 2 := by
  obtain ⟨hcores, hmet⟩ := (d.breakLeases h n 2 (fun _ => !(t.cause == 0x32 && t.sub == 2))).metError_flows h t
    ((d.breakLeases h n 2 (fun _ => !(t.cause == 0x32 && t.sub == 2))).slot h n).gtid
  refine ⟨_, _, ?_, (Dev.Flows.breakLeases d h n 2 _).trans hmet, rfl⟩
  rw [Dev.slot, Dev.core, hcores, ← Dev.core, ← Dev.slot]

theorem State.trapped_spec (s : State) (h n : Nat) (t : Trap) :
    (s.dev.slot h n).Taken ((s.trapped h n t).dev.slot h n) h n t false ∧ ((s.trapped h n t).dev.slot h n).st = .held .trap ∧
    (t.cause ≠ 6 → ∃ x : Msg, (s.trapped h n t).dev.coming s.dev.clock (.messageArrival x) ∧ x.rank = 0xFFFF ∧ x.terr = terrOf (s.dev.slot h n).lk ∧
      x.data.extractLsb' 0 64 = ((s.trapped h n t).dev.slot h n).frec0 ∧ x.data.extractLsb' 64 64 = (s.dev.slot h n).pc ∧ x.data.extractLsb' 128 64 = t.addr) := by
  obtain ⟨ls, w, hb, hbroken⟩ := s.dev.breakLeases_taken h n t (fun _ => !(t.cause == 0x32 && t.sub == 2)) (fun hc _ => by simpa [← not_and_or] using hc)
  obtain ⟨d2, clock, hslot, hflow, heq⟩ := s.dev.trap_eq s.mem h n t (s.dev.slot h n).pc
  rw [State.trapped, heq]
  rw [hb] at hslot
  have hrec := Slot.taken_record (s.dev.slot h n) ls w h n t false hbroken
  obtain ⟨d3, hd3⟩ : ∃ d3, d3 = d2.updSlot h n (fun x => x.trapAt h n t (s.dev.slot h n).pc clock) := ⟨_, rfl⟩
  have h3 : d3.slot h n = _ := hd3 ▸ Dev.slot_updSlot_self _ _ _ _
  rw [hslot] at h3
  have htaken : (s.dev.slot h n).Taken (d3.slot h n) h n t false := h3 ▸ hrec.beside _ _ _ _ _ _ _ _ _
  have hst : (d3.slot h n).st = .held .trap := h3 ▸ rfl
  have hlk : (d3.slot h n).lk = (s.dev.slot h n).lk := h3 ▸ rfl
  have hflow3 : s.dev.Flows d3 := hd3 ▸ hflow.trans (.updSlot _ _ _ _)
  rw [← hd3]
  obtain ⟨d4, hd4⟩ : ∃ d4, d4 = if t.cause == 6 then d3 else d3.report h n 1 := ⟨_, rfl⟩
  have h4 : d4.slot h n = d3.slot h n := by rw [hd4]; split <;> rfl
  have haside : (d3.slot h n).Aside ((d4.traceSlot s.mem h n 2).slot h n) := h4 ▸ Dev.aside_traceSlot d4 s.mem h n 2 h n
  rw [← hd4]
  refine ⟨htaken.aside haside, (haside.st (fun w hw => nomatch hst.symm.trans hw)).trans hst, fun hc => ?_⟩
  have hcome := d3.coming_report h n 1
  rw [if_neg (by simpa using hc)] at hd4
  rw [hflow3.clock, hlk, ← hd4] at hcome
  obtain ⟨hf0, hf1, hf2⟩ := reportImage_fields (d3.slot h n) h n 1
  obtain ⟨-, -, -, -, -, -, -, hpc, haddr, -⟩ := htaken
  generalize reportImage (d3.slot h n) h n 1 = img at hcome hf0 hf1 hf2
  exact ⟨_, (Dev.Flows.traceSlot d4 s.mem h n 2).coming hcome, rfl, rfl, hf0.trans haside.frec0.symm, hf1.trans hpc, hf2.trans haddr⟩

/-- A slot in a service wait that took no deferred fault goes on at its service wake. -/
theorem Dev.serviceWake_waiting {d : Dev} {h n : Nat} (hr : (d.slot h n).recDef = false) (hst : (d.slot h n).st = .waiting .service) :
    (d.serviceWake h n).slot h n = ({ d.slot h n with svcWait := false }.toReady d.clock) := by
  have hpre : (if (d.slot h n).recDef = true then d.reissue h n else d) = d := by rw [hr, if_neg (by decide)]
  have hend : (d.endService h n).slot h n = ({ d.slot h n with svcWait := false }.toReady d.clock) := by
    unfold Dev.endService Dev.ready
    rw [Dev.slot_updSlot_self, Dev.slot_updSlot_self]
    rfl
  unfold Dev.serviceWake
  rw [hpre]
  dsimp only
  rw [hst, if_pos (by decide)]
  exact hend

theorem State.serviced_spec (s : State) (h n : Nat) (t : Trap) :
    (s.dev.slot h n).Taken ((s.serviced h n t).dev.slot h n) h n t true ∧
    ((s.dev.slot h n).svcHeld = false → ((s.serviced h n t).dev.slot h n).st = .waiting .service ∧ ((s.serviced h n t).dev.slot h n).svcWait = true) ∧
    ((s.dev.slot h n).svcHeld = true → ((s.serviced h n t).dev.slot h n).st = .ready ∧ ((s.serviced h n t).dev.slot h n).svcHeld = false) := by
  obtain ⟨ls, w, hb, hbroken⟩ := s.dev.breakLeases_taken h n t (fun _ => !false) (fun _ _ => rfl)
  have hrec := Slot.taken_record (s.dev.slot h n) ls w h n t true hbroken
  obtain ⟨d1, hd1⟩ : ∃ d1, d1 = s.dev.breakLeases h n 2 (fun _ => !false) := ⟨_, rfl⟩
  obtain ⟨d3, hd3⟩ : ∃ d3, d3 = d1.updSlot h n (fun x => x.serviceAt h n t (s.dev.slot h n).pc) := ⟨_, rfl⟩
  obtain ⟨d5, hd5⟩ : ∃ d5, d5 = (d3.report h n 2).traceSlot s.mem h n 3 := ⟨_, rfl⟩
  have heq : s.serviced h n t = ⟨s.mem, if (d5.slot h n).svcHeld then (d5.updSlot h n (fun x => { x with svcHeld := false })).serviceWake h n else d5⟩ := by
    rw [hd5, hd3, hd1]
    rfl
  have h3 : d3.slot h n = _ := hd3 ▸ Dev.slot_updSlot_self _ _ _ _
  rw [hd1, hb] at h3
  have htaken : (s.dev.slot h n).Taken (d3.slot h n) h n t true := h3 ▸ hrec.beside _ _ _ _ _ _ _ _ _
  have hst : (d3.slot h n).st = .waiting .service := h3 ▸ rfl
  have hheld : (d3.slot h n).svcHeld = (s.dev.slot h n).svcHeld := h3 ▸ rfl
  have hwait : (d3.slot h n).svcWait = true := h3 ▸ rfl
  have haside : (d3.slot h n).Aside (d5.slot h n) := hd5 ▸ Dev.aside_traceSlot (d3.report h n 2) s.mem h n 3 h n
  have hst5 : (d5.slot h n).st = .waiting .service :=
    (haside.st_eq (fun w hne hw => hne (SlotSt.waiting.inj (hw.symm.trans hst)))).trans hst
  have htaken5 := htaken.aside haside
  have hheld5 : (d5.slot h n).svcHeld = (s.dev.slot h n).svcHeld := haside.svcHeld.trans hheld
  rw [heq]
  dsimp only
  cases hs : (s.dev.slot h n).svcHeld with
  | false =>
    rw [hheld5, hs, if_neg (by decide)]
    exact ⟨htaken5, fun _ => ⟨hst5, haside.svcWait.trans hwait⟩, fun hc => nomatch hc⟩
  | true =>
    rw [hheld5, hs, if_pos rfl]
    have hself := Dev.slot_updSlot_self d5 h n (fun x => { x with svcHeld := false })
    obtain ⟨-, -, -, -, hdef, -⟩ := id htaken5
    rw [Dev.serviceWake_waiting (by rw [hself]; exact hdef) (by rw [hself]; exact hst5), hself]
    exact ⟨htaken5.beside _ _ _ _ _ _ _ _ _, fun hc => (nomatch hc), fun _ => ⟨rfl, rfl⟩⟩

/-- Settles O47. -/
theorem takingAnException : Obligations.TakingAnException := by
  intro s h n t a after
  obtain ⟨htrap, hheld, hreport⟩ := s.trapped_spec h n t
  obtain ⟨hserv, hwaits, hwoken⟩ := s.serviced_spec h n t
  exact ⟨⟨fun _ => rfl, htrap⟩, hheld, hreport, fun hs => ⟨⟨fun _ => rfl, hserv⟩, hwaits hs⟩, fun hs => ⟨⟨fun _ => rfl, hserv⟩, hwoken hs⟩⟩

end Sys2Proof.Machine
end

section
/-! PROOFS. Tasks that are aborted, the arbiter, dispatches, and the queue units (R192 to R209). -/

namespace Sys2Proof.Machine

/-! ### Tasks that leave their slots (R208) -/

/-- From slot a to slot b lanes were taken out at most, and no lane of the task named changed its task. -/
structure Slot.Thins (id : W32) (a b : Slot) : Prop where
  pc : b.pc = a.pc
  aregs : b.aregs = a.aregs
  vregs : b.vregs = a.vregs
  kregs : b.kregs = a.kregs
  lk : b.lk = a.lk
  kind : b.kind = a.kind
  lanes : ∀ l, b.laneSet.getLsbD l = true → a.laneSet.getLsbD l = true
  bound : ∀ l, a.tasks.find? l = some id → b.tasks.find? l = some id

theorem Slot.Thins.refl (id : W32) (a : Slot) : a.Thins id a := ⟨rfl, rfl, rfl, rfl, rfl, rfl, fun _ h => h, fun _ h => h⟩
theorem Slot.Thins.trans {id : W32} {a b c : Slot} (h : a.Thins id b) (g : b.Thins id c) : a.Thins id c :=
  ⟨g.pc.trans h.pc, g.aregs.trans h.aregs, g.vregs.trans h.vregs, g.kregs.trans h.kregs, g.lk.trans h.lk, g.kind.trans h.kind,
    fun l hl => h.lanes l (g.lanes l hl), fun l hl => g.bound l (h.bound l hl)⟩

theorem AMap.find?_filter_snd {α : Type} [BEq α] [LawfulBEq α] {m : AMap α} {k : Nat} {v w : α} (hv : m.find? k = some v) (hne : v ≠ w) :
    (⟨m.ents.filter (fun e => e.2 != w)⟩ : AMap α).find? k = some v := by
  rw [AMap.find?_eq_map] at hv ⊢
  obtain ⟨e, he, rfl⟩ := Option.map_eq_some_iff.mp hv
  obtain ⟨hk, as, bs, hsplit, has⟩ := List.find?_eq_some_iff_append.mp he
  have hkeep : (e.2 != w) = true := bne_iff_ne.mpr hne
  rw [Option.map_eq_some_iff]
  refine ⟨e, List.find?_eq_some_iff_append.mpr ⟨hk, as.filter (fun e => e.2 != w), bs.filter (fun e => e.2 != w), ?_, ?_⟩, rfl⟩
  · dsimp only
    rw [hsplit, List.filter_append, List.filter_cons, if_pos hkeep]
  · exact fun a ha => has a (List.mem_of_mem_filter ha)

theorem Slot.thins_unbind (s : Slot) {id k : W32} (hne : id ≠ k) : s.Thins id (s.unbind k) := by
  unfold Slot.unbind
  dsimp only
  split
  · exact .refl _ _
  · refine ⟨rfl, rfl, rfl, rfl, rfl, rfl, fun l hl => ?_, fun l hl => AMap.find?_filter_snd hl hne⟩
    rw [BitVec.getLsbD_and, Bool.and_eq_true] at hl
    exact hl.1

/-- No lane of an unbound task stays in the lane set. -/
theorem Slot.laneSet_unbind {s : Slot} {id : W32} {l : Nat} (hl : l < 16) (ht : s.tasks.find? l = some id) :
    (s.unbind id).laneSet.getLsbD l = false := by
  unfold Slot.unbind
  dsimp only
  by_cases hin : s.laneSet.getLsbD l = true
  · have hmem : l ∈ (lanesOf s.laneSet).filter (fun l => s.tasks.find? l == some id) :=
      List.mem_filter.mpr ⟨mem_lanesOf.mpr ⟨hl, hin⟩, by simp [ht]⟩
    rw [if_neg (by simpa [List.isEmpty_iff] using List.ne_nil_of_mem hmem)]
    rw [BitVec.getLsbD_and, BitVec.getLsbD_not, getLsbD_ofBits _ hl, List.contains_eq_mem, decide_eq_true hmem]
    simp
  · split
    · exact Bool.eq_false_iff.mpr hin
    · rw [BitVec.getLsbD_and, Bool.eq_false_iff.mpr hin, Bool.false_and]

/-- What becomes of a slot of a core that a task leaves. -/
def Slot.losing (s : Slot) (lk : Nat) (id : W32) : Slot := if s.lk == lk && s.kind == .ordered then s.unbind id else s

theorem Core.slot_dropTask (k : Core) (lk : Nat) (id : W32) (n : Nat) : (k.dropTask lk id).slot n = (k.slot n).losing lk id := by
  have hmap : ∀ m : AMap Slot, (⟨m.ents.map (fun e => if e.2.lk == lk && e.2.kind == .ordered then (e.1, e.2.unbind id) else e)⟩ : AMap Slot).get .init n =
      (m.get .init n).losing lk id := by
    intro m
    rw [AMap.get_map]
    · unfold Slot.losing
      dsimp only
      split <;> rfl
    · intro e
      split <;> rfl
    · exact congrArg Prod.snd (if_neg (by rw [Bool.and_comm]; exact Bool.false_ne_true))
  unfold Core.slot Core.dropTask
  split
  · exact hmap _
  · exact hmap _

theorem Slot.thins_losing (s : Slot) (lk : Nat) {id k : W32} (hne : id ≠ k) : s.Thins id (s.losing lk k) := by
  unfold Slot.losing
  split
  · exact s.thins_unbind hne
  · exact .refl _ _

/-- From d to e slots lost lanes at most, and the task named and the launches stand as they did. -/
structure Dev.Thins (lk : Nat) (id : W32) (d e : Dev) : Prop where
  slots : ∀ h n, (d.slot h n).Thins id (e.slot h n)
  task : e.task? lk id = d.task? lk id
  launches : e.launches = d.launches

namespace Dev.Thins

theorem refl (lk : Nat) (id : W32) (d : Dev) : d.Thins lk id d := ⟨fun _ _ => .refl _ _, rfl, rfl⟩
theorem trans {lk : Nat} {id : W32} {d e f : Dev} (h : d.Thins lk id e) (g : e.Thins lk id f) : d.Thins lk id f :=
  ⟨fun j n => (h.slots j n).trans (g.slots j n), g.task.trans h.task, g.launches.trans h.launches⟩

/-- A step that leaves launches and tasks alone. -/
theorem of_slots {lk : Nat} {id : W32} {d e : Dev} (h : ∀ j n, (d.slot j n).Thins id (e.slot j n)) (ht : e.tasks = d.tasks) (hl : e.launches = d.launches) :
    d.Thins lk id e := ⟨h, by rw [Dev.task?, Dev.task?, ht], hl⟩

theorem updSlot (lk : Nat) (id : W32) (d : Dev) (h n : Nat) {f : Slot → Slot} (hf : ∀ s : Slot, s.Thins id (f s)) : d.Thins lk id (d.updSlot h n f) := by
  refine of_slots (fun j m => ?_) rfl rfl
  by_cases hj : j = h ∧ m = n
  · obtain ⟨rfl, rfl⟩ := hj
    rw [Dev.slot_updSlot_self]
    exact hf _
  · rw [Dev.slot_updSlot_ne _ _ _ _ _ _ hj]
    exact .refl _ _

theorem updCore (lk : Nat) (id : W32) (d : Dev) (h : Nat) {f : Core → Core} (hf : ∀ (k : Core) n, (k.slot n).Thins id ((f k).slot n)) : d.Thins lk id (d.updCore h f) := by
  refine of_slots (fun j m => ?_) rfl rfl
  by_cases hj : j = h
  · rw [hj, Dev.slot, Dev.slot, Dev.core_updCore_self]
    exact hf _ m
  · rw [Dev.slot, Dev.slot, Dev.core_updCore_ne _ _ _ _ hj]
    exact .refl _ _

theorem of_aside {lk : Nat} {id : W32} {d e : Dev} (h : d.Aside e) (ht : e.tasks = d.tasks) (hl : e.launches = d.launches) : d.Thins lk id e := by
  refine of_slots (fun j m => ?_) ht hl
  obtain ⟨o, r, st, t, y, hb, -⟩ := h j m
  rw [hb]
  exact ⟨rfl, rfl, rfl, rfl, rfl, rfl, fun _ h => h, fun _ h => h⟩

theorem foldl {α : Type} {lk : Nat} {id : W32} {f : Dev → α → Dev} {xs : List α} (hf : ∀ (e : Dev) x, x ∈ xs → e.Thins lk id (f e x)) (d : Dev) :
    d.Thins lk id (xs.foldl f d) :=
  List.foldlRecOn (motive := fun e => d.Thins lk id e) _ _ (refl lk id d) (fun e he x hx => he.trans (hf e x hx))

theorem discardTask (lk : Nat) {id k : W32} (hne : id ≠ k) (d : Dev) : d.Thins lk id (d.discardTask lk k) := by
  unfold Dev.discardTask
  split
  · exact refl _ _ _
  · next t _ =>
    have hdrop := updCore lk id d t.core (f := fun c => c.dropTask lk k) (fun c n => (Core.slot_dropTask c lk k n) ▸ (c.slot n).thins_losing lk hne)
    refine hdrop.trans ((of_aside (Dev.aside_wake _ _ (fun _ _ w => w == .pool || w == .records) (fun _ _ => rfl)) rfl rfl).trans
      ⟨fun _ _ => .refl _ _, ?_, rfl⟩)
    refine (AMap.find?_erase _ _ _).trans (if_neg (fun hk => hne ?_))
    exact BitVec.eq_of_toNat_eq (Nat.add_left_cancel hk)

theorem pushDone (lk : Nat) (id : W32) (d : Dev) (h n lane : Nat) : d.Thins lk id (d.pushDone h n lane) := by
  unfold Dev.pushDone
  dsimp only
  have hset := updSlot lk id d h n (f := fun s => { s with pushed := if s.reply == .stale then s.pushed else s.pushed ++ [lane], pushWait := s.pushWait.erase lane })
    (fun s => ⟨rfl, rfl, rfl, rfl, rfl, rfl, fun _ h => h, fun _ h => h⟩)
  split
  · exact hset
  · split
    · exact hset.trans (updSlot lk id _ h n (fun s => ⟨rfl, rfl, rfl, rfl, rfl, rfl, fun _ h => h, fun _ h => h⟩))
    · have hwake : ∀ e : Dev, e.Thins lk id (e.wakeSlot h n (fun w => w == .push)) := fun e => by
        refine of_aside (Dev.aside_wakeSlot _ _ _ _ rfl) ?_ ?_ <;> unfold Dev.wakeSlot
        · split
          · split <;> rfl
          · rfl
        · split
          · split <;> rfl
          · rfl
      exact hset.trans (hwake _)

theorem dropChildren (lk : Nat) (id : W32) (d : Dev) : d.Thins lk id (d.dropChildren lk id) := by
  unfold Dev.dropChildren
  extract_lets ps all kids waiting inNet d1 d2 d3
  have h1 : d.Thins lk id d1 := foldl (fun e k hk => discardTask lk (fun hid => by simpa [hid] using (List.mem_filter.mp hk).2) e) d
  have h2 : d.Thins lk id d2 := h1.trans (foldl (fun e q _ => updCore lk id e q.1 (f := fun c => { c with tq := c.tq.without kids all }) (fun c n => .refl _ _)) d1)
  have h3 : d.Thins lk id d3 := h2.trans (of_slots (fun _ _ => .refl _ _) rfl rfl)
  clear_value d3
  exact h3.trans (foldl (fun e m _ => pushDone lk id e _ _ _) d3)

end Dev.Thins

/-- A task that leaves is no task any more, and its lanes are out of the lane sets of its core. -/
theorem Dev.discardTask_spec {d : Dev} {lk : Nat} {id : W32} {t : Task} (ht : d.task? lk id = some t) :
    (d.discardTask lk id).task? lk id = none ∧ (d.discardTask lk id).launches = d.launches ∧
    ∀ h n, (((d.updCore t.core (fun c => c.dropTask lk id)).slot h n).Aside ((d.discardTask lk id).slot h n)) := by
  unfold Dev.discardTask
  rw [ht]
  exact ⟨(AMap.find?_erase _ _ _).trans (if_pos rfl), rfl, Dev.aside_wake _ _ (fun _ _ w => w == .pool || w == .records) (fun _ _ => rfl)⟩

/-- What an abort of a task does (R208). -/
structure Dev.Aborts (lk : Nat) (id : W32) (t : Task) (d e : Dev) : Prop where
  gone : e.task? lk id = none
  requeued : { t.d with w0 := t.d.w0 ||| 0x20000000#32 } ∈ (e.core (queueCore id)).tq.requeue
  round : ∀ l b, d.launch? lk = some l → l.round = some b → ∃ l', e.launch? lk = some l' ∧ l'.round = some (min (descPair t.d) b)
  slots : ∃ d1, d.Thins lk id d1 ∧ ∀ h n, ((d1.updCore t.core (fun c => c.dropTask lk id)).slot h n).Aside (e.slot h n)

/-- A core whose queue takes the descriptor of an aborted task back. -/
def Core.requeues (c : Core) (x : Desc) (id : W32) (until_ : Nat) : Core := { c with tq := { c.tq with
  requeue := c.tq.requeue ++ [x], hold := c.tq.hold.filter (fun e => e.1 != id.toNat) ++ [(id.toNat, until_)] } }

theorem Core.slot_requeues (c : Core) (x : Desc) (id : W32) (until_ n : Nat) : (c.requeues x id until_).slot n = c.slot n := rfl

theorem Dev.abort_eq {d : Dev} {lk : Nat} {id : W32} {t : Task} (ht : d.task? lk id = some t) (until_ : Nat) :
    d.abort lk id until_ = (((d.dropChildren lk id).discardTask lk id).updCore (queueCore id) (fun c =>
      c.requeues { t.d with w0 := t.d.w0 ||| 0x20000000#32 } id until_)).lowerBound lk (descPair t.d) := by
  unfold Dev.abort
  rw [ht]
  rfl

theorem Dev.aborts {d : Dev} {lk until_ : Nat} {id : W32} {t : Task} (ht : d.task? lk id = some t) : Dev.Aborts lk id t d (d.abort lk id until_) := by
  have hkids := Dev.Thins.dropChildren lk id d
  obtain ⟨hgone, hlaunches, haside⟩ := Dev.discardTask_spec (hkids.task.trans ht)
  have hround : ∀ e : Dev, (e.lowerBound lk (descPair t.d)).cores = e.cores ∧ (e.lowerBound lk (descPair t.d)).tasks = e.tasks ∧
      ∀ l, e.launch? lk = some l → (e.lowerBound lk (descPair t.d)).launch? lk = some { l with round := l.round.map (min (descPair t.d)) } := by
    intro e
    refine ⟨?_, ?_, fun l hl => Dev.launch?_updLaunch hl _⟩
    · unfold Dev.lowerBound Dev.updLaunch
      split <;> rfl
    · unfold Dev.lowerBound Dev.updLaunch
      split <;> rfl
  rw [Dev.abort_eq ht]
  generalize (d.dropChildren lk id).discardTask lk id = d1 at hgone hlaunches haside ⊢
  generalize hd : d1.updCore (queueCore id) _ = d2
  have hd2 : d2.tasks = d1.tasks ∧ d2.launches = d1.launches := hd ▸ ⟨rfl, rfl⟩
  have hslot2 : ∀ h n, d2.slot h n = d1.slot h n := fun h n => by
    rw [← hd]
    exact Dev.slot_updCore_of (fun c m => c.slot_requeues _ id until_ m) d1 (queueCore id) h n
  have hreq2 : { t.d with w0 := t.d.w0 ||| 0x20000000#32 } ∈ (d2.core (queueCore id)).tq.requeue := by
    rw [← hd, Dev.core_updCore_self]
    exact List.mem_append_right _ (List.mem_singleton_self _)
  obtain ⟨hcores, htasks, hlaunch⟩ := hround d2
  refine ⟨?_, ?_, fun l b hl hb => ?_, _, hkids, fun h n => ?_⟩
  · rw [Dev.task?, htasks, hd2.1]
    exact hgone
  · rw [Dev.core, hcores]
    exact hreq2
  · refine ⟨_, hlaunch l ?_, ?_⟩
    · rw [Dev.launch?, hd2.2, hlaunches, hkids.launches]
      exact hl
    · dsimp only
      rw [hb]
      rfl
  · have hslot : (d2.lowerBound lk (descPair t.d)).slot h n = d2.slot h n := by rw [Dev.slot, Dev.core, hcores, ← Dev.core, ← Dev.slot]
    rw [hslot, hslot2]
    exact haside h n

/-- A slot after an abort: its registers and its PC, and no lane of the task in a slot of the task's core. -/
theorem Dev.Aborts.slot {lk : Nat} {id : W32} {t : Task} {d e : Dev} (ha : Dev.Aborts lk id t d e) (h n : Nat) :
    ((e.slot h n).pc = (d.slot h n).pc ∧ ∀ j, (e.slot h n).A j = (d.slot h n).A j ∧ (e.slot h n).V j = (d.slot h n).V j ∧ (e.slot h n).K j = (d.slot h n).K j) ∧
    (t.core = h → (d.slot h n).lk = lk → (d.slot h n).kind = .ordered → ∀ l, l < 16 → (d.slot h n).tasks.find? l = some id →
      (e.slot h n).laneSet.getLsbD l = false) := by
  obtain ⟨d1, hthin, haside⟩ := ha.slots
  have hs := hthin.slots h n
  obtain ⟨o, r, st, ra, y, hb, -⟩ := haside h n
  have hdrop : (d1.updCore t.core (fun c => c.dropTask lk id)).slot h n = if t.core = h then (d1.slot h n).losing lk id else d1.slot h n := by
    split
    · next hc => rw [← hc, Dev.slot, Dev.core_updCore_self, Core.slot_dropTask]; rfl
    · next hc => rw [Dev.slot, Dev.core_updCore_ne _ _ _ _ (Ne.symm hc)]; rfl
  have hkeep : ∀ x : Slot, (x.losing lk id).pc = x.pc ∧ (x.losing lk id).aregs = x.aregs ∧ (x.losing lk id).vregs = x.vregs ∧ (x.losing lk id).kregs = x.kregs := by
    intro x
    unfold Slot.losing Slot.unbind
    dsimp only
    split
    · split <;> exact ⟨rfl, rfl, rfl, rfl⟩
    · exact ⟨rfl, rfl, rfl, rfl⟩
  obtain ⟨hpc, ha, hv, hk⟩ : (e.slot h n).pc = (d.slot h n).pc ∧ (e.slot h n).aregs = (d.slot h n).aregs ∧ (e.slot h n).vregs = (d.slot h n).vregs ∧
      (e.slot h n).kregs = (d.slot h n).kregs := by
    rw [hb, hdrop, ← hs.pc, ← hs.aregs, ← hs.vregs, ← hs.kregs]
    split
    · exact hkeep _
    · exact ⟨rfl, rfl, rfl, rfl⟩
  refine ⟨⟨hpc, fun j => ⟨?_, ?_, ?_⟩⟩, fun hc hlk hkind l hl ht => ?_⟩
  · rw [Slot.A, Slot.A, ha]
  · rw [Slot.V, Slot.V, hv]
  · rw [Slot.K, Slot.K, hk]
  · rw [hb, hdrop, if_pos hc]
    unfold Slot.losing
    rw [hs.lk, hs.kind, hlk, hkind, if_pos (by simp)]
    exact Slot.laneSet_unbind hl (hs.bound l ht)

/-! ### The arbiter (R198, R205, R209) -/

theorem find?_all {α : Type} {l : List α} {p : α → α → Bool} {x : α} (h : l.find? (fun a => l.all (fun b => p a b)) = some x) :
    x ∈ l ∧ ∀ y, y ∈ l → p x y = true :=
  ⟨List.mem_of_find?_eq_some h, List.all_eq_true.mp (List.find?_some h :)⟩

/-- The task that commits next has ended, lies below the bound, and is the lowest that has ended. -/
theorem Dev.nextCommit_lowest {d : Dev} {lk bound : Nat} {t : Task} (h : d.nextCommit lk bound = some t) :
    t.ended = true ∧ descPair t.d < bound ∧ ∀ u, u ∈ d.running lk → u.ended = true → descPair t.d ≤ descPair u.d := by
  obtain ⟨hmem, hleast⟩ := find?_all (p := fun t u : Task => decide (descPair t.d ≤ descPair u.d)) h
  have hp := (List.mem_filter.mp hmem).2
  rw [Bool.and_eq_true, decide_eq_true_eq] at hp
  refine ⟨hp.1, hp.2, fun u hu he => ?_⟩
  by_cases hb : descPair u.d < bound
  · exact of_decide_eq_true (hleast u (List.mem_filter.mpr ⟨hu, by simp [he, hb]⟩))
  · omega

theorem Dev.anySaved_updLaunch {d : Dev} {lk : Nat} (k : Nat) (f : Launch → Launch) : (d.updLaunch k f).anySaved lk = d.anySaved lk := by
  unfold Dev.updLaunch
  split <;> rfl

theorem Dev.committing_updLaunch {d : Dev} {lk : Nat} (k : Nat) (f : Launch → Launch) : (d.updLaunch k f).committing lk = d.committing lk := by
  unfold Dev.updLaunch
  split <;> rfl

/-- A round of the arbiter, of an ORDERED launch that is not saved. -/
theorem exec_arbiterRound (s : State) {lk : Nat} {l : Launch} (hl : s.dev.launch? lk = some l) (ho : l.ordered = some true) (hs : s.dev.anySaved lk = false) :
    (s.dev.clock % 256 = 0 → s.dev.committing lk = true →
      exec (.arbiterRound lk) s = .next ⟨s.mem, s.dev.updLaunch lk (fun l => { l with round := some ((s.dev.bound lk).getD (2 ^ 64)) })⟩) ∧
    ∀ bound, s.dev.clock % 256 ≠ 0 → s.dev.committing lk = false → l.round = some bound → exec (.arbiterRound lk) s = .next ⟨s.mem,
      (s.dev.nextCommit lk bound).elim (s.dev.updLaunch lk Launch.endRound) (s.dev.commitTask s.mem)⟩ := by
  have hgo : (l.ordered != some true || s.dev.anySaved lk) = false := by rw [ho, hs]; rfl
  refine ⟨fun hclock hcommit => ?_, fun bound hclock hcommit hround => ?_⟩
  · unfold exec execArbiterRound onDev
    dsimp only
    rw [hl]
    dsimp only
    rw [hgo, if_neg (by decide), if_pos hclock, Dev.committing_updLaunch, hcommit, if_pos rfl]
  · unfold exec execArbiterRound onDev
    dsimp only
    rw [hl]
    dsimp only
    rw [hgo, if_neg (by decide), if_neg hclock, hcommit, if_neg (by decide), hl, Option.bind_some, hround]
    dsimp only
    cases s.dev.nextCommit lk bound <;> rfl

/-- The highest task in the way of a blocked lowest task is aborted (R198). -/
theorem exec_progressAbort (s : State) {lk h : Nat} {l : Launch} {t : Task} {x : Desc} {rest : List Desc} (hl : s.dev.launch? lk = some l)
    (hout : l.out = false) (hlk : (s.dev.core h).tq.lk = some lk) (hord : (s.dev.core h).tq.ordered = true)
    (hready : (s.dev.core h).tq.ready s.dev.clock = x :: rest) (hq : ∀ p, p ∈ s.dev.queuedPairs lk → descPair x ≤ p)
    (hr : ∀ u, u ∈ s.dev.running lk → descPair x ≤ descPair u.d) (hfree : s.dev.freeSlot lk h = none) (hrun : s.dev.running lk = [t])
    (hcore : t.core = h) (hended : t.ended = false)
    (hin : ∃ e, e ∈ (s.dev.core h).slots.ents ∧ e.2.lk = lk ∧ ∃ y, y ∈ e.2.tasks.ents ∧ y.2 = t.d.id)
    (hend : ∀ e, e ∈ (s.dev.core h).slots.ents → e.2.endReq = false) :
    exec (.progressAbort h) s = .next ⟨s.mem, s.dev.abort lk t.d.id s.dev.clock⟩ := by
  have hlowest : (s.dev.queuedPairs lk ++ (s.dev.running lk).map (fun t => descPair t.d)).all (fun p => decide (descPair x ≤ p)) = true := by
    rw [List.all_eq_true]
    intro p hp
    refine decide_eq_true ?_
    rcases List.mem_append.mp hp with hp | hp
    · exact hq p hp
    · obtain ⟨u, hu, rfl⟩ := List.mem_map.mp hp
      exact hr u hu
  have hending : (s.dev.core h).slots.ents.any (fun e => e.2.lk == lk && e.2.kind == .ordered && e.2.st != .free && e.2.endReq) = false := by
    rw [List.any_eq_false]
    intro e he
    rw [hend e he, Bool.and_false]
    exact Bool.false_ne_true
  have hslots : (s.dev.core h).allSlots.any (fun e => e.2.lk == lk && e.2.tasks.ents.any (fun y => y.2 == t.d.id)) = true := by
    obtain ⟨e, he, hek, y, hy, hyid⟩ := hin
    exact List.any_eq_true.mpr ⟨e, List.mem_append_left _ he, by
      rw [hek, beq_self_eq_true, Bool.true_and]
      exact List.any_eq_true.mpr ⟨y, hy, by simp [hyid]⟩⟩
  have hcand : (s.dev.running lk).filter (fun t => t.core == h && !t.ended &&
      (s.dev.core h).allSlots.any (fun e => e.2.lk == lk && e.2.tasks.ents.any (fun y => y.2 == t.d.id))) = [t] := by
    rw [hrun, List.filter_cons, if_pos (by rw [hcore, hended, hslots]; simp)]
    rfl
  unfold exec execProgressAbort onDev
  dsimp only
  rw [hlk]
  dsimp only
  rw [hl, hready]
  dsimp only
  rw [hlowest, hord, hending, hfree, hcand]
  simp [hout]

/-- A task stranded in the pool of a core without its slots is aborted (R209). -/
theorem exec_strandedRequeue (s : State) {lk h : Nat} {l : Launch} {t : Task} (hl : s.dev.launch? lk = some l) (ho : l.ordered = some true)
    (hout : l.out = false) (hs : s.dev.anySaved lk = false) (hlk : (s.dev.core h).tq.lk = some lk)
    (hfree : ∀ n, n ∈ (l.resvOn h).slots → (s.dev.slot h n).st = .free) (hrun : s.dev.running lk = [t])
    (hin : ∃ e, e ∈ (s.dev.core h).pool ∧ e.lk = lk ∧ e.task = t.d.id) :
    exec (.strandedRequeue h) s = .next ⟨s.mem, s.dev.abort lk t.d.id s.dev.clock⟩ := by
  have hslots : (l.resvOn h).slots.any (fun n => (s.dev.slot h n).st != .free) = false := by
    rw [List.any_eq_false]
    intro n hn
    simp [hfree n hn]
  have hheld : (s.dev.running lk).filter (fun t => (s.dev.core h).pool.any (fun e => e.lk == lk && e.task == t.d.id)) = [t] := by
    obtain ⟨e, he, hek, het⟩ := hin
    rw [hrun, List.filter_cons, if_pos (List.any_eq_true.mpr ⟨e, he, by simp [hek, het]⟩)]
    rfl
  unfold exec execStrandedRequeue onDev
  dsimp only
  rw [hlk]
  dsimp only
  rw [hl]
  dsimp only
  rw [hslots, hheld, hs, ho, hout]
  rfl

/-- Settles O29. -/
theorem arbitrationAndAborts : Obligations.ArbitrationAndAborts := by
  refine ⟨fun s lk h bound l t hl ho hout => ⟨fun hs hclock hcommit => ?_, fun hs hclock hcommit hround hnext => ?_,
    fun hs hclock hcommit hround hnext => ?_, ?_, ?_⟩, fun d lk until_ id t l ht hl => ?_⟩
  · exact (exec_arbiterRound s hl ho hs).1 hclock hcommit
  · rw [(exec_arbiterRound s hl ho hs).2 bound hclock hcommit hround, hnext, Option.elim_none]
  · refine ⟨?_, Dev.nextCommit_lowest hnext⟩
    rw [(exec_arbiterRound s hl ho hs).2 bound hclock hcommit hround, hnext, Option.elim_some]
  · exact fun x rest hlk hord hready hq hr hfree hrun hcore hended hin hend =>
      exec_progressAbort s hl hout hlk hord hready hq hr hfree hrun hcore hended hin hend
  · exact fun hs hlk hfree hrun hin => exec_strandedRequeue s hl ho hout hs hlk hfree hrun hin
  · have ha : Dev.Aborts lk id t d (d.abort lk id until_) := Dev.aborts ht
    refine ⟨ha.gone, ha.requeued, fun b hb => ha.round l b hl hb, fun h n j => ?_⟩
    obtain ⟨⟨hpc, hfiles⟩, -⟩ := ha.slot h n
    obtain ⟨hA, hV, hK⟩ := hfiles j
    exact ⟨hA, hV, hK, hpc⟩

theorem Ctx.finish_tq (c : Ctx) (u : Use) (d : Dev) (next : W64) (hs : c.s.stepReq = false) (k : Nat) :
    ((c.finish u d next).core k).tq = (d.core k).tq := (congrArg Core.tq (c.finish_core_bare u d next hs k) :)

/-! ### tend and tabort (R201, R202) -/

theorem exec_tabort (a : KReg) (s : State) : exec (.tabort a) s = thread (useA [rk a]) (fun c =>
    if c.s.kind != .ordered then c.fault 0x52 8
    else .done ((c.s.tasksIn (c.s.K a.toNat &&& c.s.laneSet)).foldl (fun d i => d.abort c.s.lk i (nextRound d.clock)) c.d)) s := by
  unfold exec execTabort
  rfl

theorem tabort_acts (a : KReg) (id : W32) (t : Task) : Acts (.tabort a) (useA [rk a])
    (fun c => c.s.kind = .ordered ∧ c.s.tasksIn (c.s.K a.toNat &&& c.s.laneSet) = [id] ∧ c.d.task? c.s.lk id = some t ∧ t.core = c.h) [] [] []
    (fun c e => e.task? c.s.lk id = none ∧ { t.d with w0 := t.d.w0 ||| 0x20000000#32 } ∈ (e.core (queueCore id)).tq.requeue ∧
      ∀ l, l < 16 → c.s.tasks.find? l = some id → (e.slot c.h c.n).laneSet.getLsbD l = false) := by
  refine acts_of (exec_tabort a) (fun c hc ⟨hkind, hids, ht, hcore⟩ => ?_)
  have ha : Dev.Aborts c.s.lk id t c.d (c.d.abort c.s.lk id (nextRound c.d.clock)) := Dev.aborts ht
  obtain ⟨⟨-, hfiles⟩, hlanes⟩ := ha.slot c.h c.n
  rw [hc.own] at hfiles hlanes
  refine ⟨_, ?_, ⟨fun j _ => (hfiles j).1, fun j _ => (hfiles j).2.1, fun j _ => (hfiles j).2.2⟩, ?_, ?_, fun l hl htask => ?_⟩
  · rw [hkind, hids]
    rfl
  · obtain ⟨cs, hfin⟩ := c.finish_eq (useA [rk a]) (c.d.abort c.s.lk id (nextRound c.d.clock)) (c.s.pc + 8#64)
    rw [hfin]
    exact ha.gone
  · rw [Ctx.finish_tq _ _ _ _ hc.step]
    exact ha.requeued
  · rw [Ctx.finish_slot _ _ _ _ hc.step]
    exact hlanes hcore rfl hkind l hl htask

theorem exec_tend (a : KReg) (s : State) : exec (.tend a) s = thread (useA [rk a]) (fun c =>
    if c.s.kind == .ordered then (if c.s.winStores.isEmpty then c.endTasks (c.s.K a.toNat &&& c.s.laneSet) (fun d => .done d) else .wait c.d .visible)
    else c.release (fun c' => c'.endTasks (c.s.K a.toNat &&& c.s.laneSet) (fun d => .done d))) s := by
  unfold exec execTend
  rfl

theorem Dev.task?_foldl_dropTask (lk : Nat) (j : W32) (ids : List W32) (d : Dev) (h : j ∈ ids ∨ d.task? lk j = none) :
    (ids.foldl (fun d i => d.dropTask lk i) d).task? lk j = none := by
  induction ids generalizing d with
  | nil => exact h.resolve_left (List.not_mem_nil)
  | cons i is ih =>
    refine ih _ ?_
    have herase : (d.dropTask lk i).task? lk j = if lk * 2 ^ 32 + j.toNat = lk * 2 ^ 32 + i.toNat then none else d.task? lk j := AMap.find?_erase _ _ _
    by_cases hj : j = i
    · exact Or.inr (by rw [herase, if_pos (by rw [hj])])
    · refine (h.imp_left (fun hm => (List.mem_cons.mp hm).resolve_left hj)).imp_right (fun hn => ?_)
      rw [herase, hn, ite_self]

theorem Dev.cores_foldl_dropTask (lk : Nat) (ids : List W32) (d : Dev) : (ids.foldl (fun d i => d.dropTask lk i) d).cores = d.cores :=
  List.foldlRecOn (motive := fun e : Dev => e.cores = d.cores) _ _ rfl (fun _ he _ _ => he)

/-- The tasks of lanes of a slot without ORDERED tasks end. -/
theorem Ctx.endTasks_unordered {c : Ctx} (hk : c.s.kind ≠ .ordered) (t : BitVec 16) : ∃ d, c.endTasks t (fun d => .done d) = .done d ∧
    d.slot c.h c.n = (c.d.slot c.h c.n).leaveLanes t ∧ (c.s.kind = .freeTask → ∀ j, j ∈ c.s.tasksIn t → d.task? c.s.lk j = none) := by
  unfold Ctx.endTasks
  cases hkind : c.s.kind with
  | launch => exact ⟨_, rfl, Dev.slot_updSlot_self _ _ _ _, fun h => nomatch h⟩
  | freeTask =>
    refine ⟨_, rfl, (Dev.slot_updSlot_self _ _ _ _).trans ?_, fun _ j hj => Dev.task?_foldl_dropTask _ _ _ _ (Or.inl hj)⟩
    rw [Dev.slot, Dev.core, Dev.cores_foldl_dropTask, ← Dev.core, ← Dev.slot]
  | ordered => exact absurd hkind hk

theorem tend_acts (a : KReg) : Acts (.tend a) (useA [rk a]) (fun c => c.quiet ∧ c.s.kind ≠ .ordered) [] [] []
    (fun c e => (e.slot c.h c.n).laneSet = c.s.laneSet &&& ~~~(c.s.K a.toNat &&& c.s.laneSet) ∧
      (c.s.kind = .freeTask → ∀ j, j ∈ c.s.tasksIn (c.s.K a.toNat &&& c.s.laneSet) → e.task? c.s.lk j = none)) := by
  refine acts_of (exec_tend a) (fun c hc ⟨hq, hkind⟩ => ?_)
  obtain ⟨d, hd, hslot, htasks⟩ := Ctx.endTasks_unordered
    (c := { c with d := c.d.setSlot c.h c.n { c.s with closed := true }, s := { c.s with closed := true } }) hkind (c.s.K a.toNat &&& c.s.laneSet)
  have hs : d.slot c.h c.n = ({ c.s with closed := true } : Slot).leaveLanes (c.s.K a.toNat &&& c.s.laneSet) :=
    hslot.trans (congrArg (Slot.leaveLanes · _) (Dev.slot_setSlot_self _ _ _ _))
  refine ⟨d, ?_, ?_, ?_, fun hfree j hj => ?_⟩
  · rw [if_neg (by simpa using hkind), hq.release hc, hd]
  · rw [hs]
    exact .of_files rfl rfl rfl
  · rw [Ctx.finish_slot _ _ _ _ hc.step, hs]
    rfl
  · obtain ⟨cs, hfin⟩ := c.finish_eq (useA [rk a]) d (c.s.pc + 8#64)
    rw [hfin]
    exact htasks hfree j hj

theorem Dev.closing_nil (d : Dev) (m : Memory) (who : Who) : d.closing m who [] = .ok [] d := rfl

theorem tend_ordered (a : KReg) (id : W32) (t : Task) : Acts (.tend a) (useA [rk a])
    (fun c => c.s.kind = .ordered ∧ c.s.winStores = [] ∧ c.plain id = false ∧ c.s.tasksIn (c.s.K a.toNat &&& c.s.laneSet) = [id] ∧
      c.d.task? c.s.lk id = some t ∧ (c.d.core c.h).taskRecs [id] = []) [] [] []
    (fun c e => (e.slot c.h c.n).laneSet = c.s.laneSet &&& ~~~(c.s.K a.toNat &&& c.s.laneSet) ∧
      ∃ t', e.task? c.s.lk id = some t' ∧ t'.ended = true ∧ t'.d = t.d) := by
  refine acts_of (exec_tend a) (fun c hc ⟨hkind, hwin, hplain, hids, ht, hrecs⟩ => ?_)
  obtain ⟨d1, hd1, hcores, htask⟩ : ∃ d1, d1 = c.d.updTask c.s.lk id (fun x => { x with ended := true, xl := [], redo := false, recov := c.s.recov }) ∧
      d1.cores = c.d.cores ∧ d1.task? c.s.lk id = some { t with ended := true, xl := [], redo := false, recov := c.s.recov } := by
    refine ⟨_, rfl, ?_, ?_⟩ <;> rw [Dev.updTask, ht]
    · rfl
    · exact AMap.find_put_self _ _ _
  have hend : c.endTasks (c.s.K a.toNat &&& c.s.laneSet) (fun d => .done d) = .done ((d1.updSlot c.h c.n
      (fun s => s.leaveLanes (c.s.K a.toNat &&& c.s.laneSet))).wake c.h (fun _ s w => w == .records && s.kind == .ordered)) := by
    unfold Ctx.endTasks
    rw [hkind]
    dsimp only
    rw [hids, hrecs, Dev.closing_nil]
    simp only [List.any_nil, Bool.false_eq_true, if_false, List.foldl_cons, List.foldl_nil, List.filter_nil, List.filterMap_nil, List.dedup_nil,
      List.filter_cons, hplain]
    rw [hd1]
  have haside := Dev.aside_wake (d1.updSlot c.h c.n (fun s => s.leaveLanes (c.s.K a.toNat &&& c.s.laneSet))) c.h
    (fun _ s w => w == .records && s.kind == .ordered) (fun _ _ => rfl) c.h c.n
  obtain ⟨o, r, st, ra, y, hs, -⟩ := haside
  have hself : (d1.updSlot c.h c.n (fun s => s.leaveLanes (c.s.K a.toNat &&& c.s.laneSet))).slot c.h c.n = c.s.leaveLanes (c.s.K a.toNat &&& c.s.laneSet) := by
    rw [Dev.slot_updSlot_self, Dev.slot, Dev.core, hcores, ← Dev.core, ← Dev.slot, hc.own]
  rw [hself] at hs
  refine ⟨_, ((if_pos (by rw [hkind]; rfl)).trans (if_pos (by rw [hwin]; rfl))).trans hend, ?_, ?_, ?_⟩
  · rw [hs]
    exact .of_files rfl rfl rfl
  · rw [Ctx.finish_slot _ _ _ _ hc.step, hs]
    rfl
  · obtain ⟨cs, hfin⟩ := c.finish_eq (useA [rk a]) ((d1.updSlot c.h c.n (fun s => s.leaveLanes (c.s.K a.toNat &&& c.s.laneSet))).wake c.h
      (fun _ s w => w == .records && s.kind == .ordered)) (c.s.pc + 8#64)
    rw [hfin]
    exact ⟨_, htask, rfl, rfl⟩

/-! ### The queue unit with nothing due (R194) -/

/-- Nothing of the unit's is on its way to the ring, and neither a spill nor a refill is due. -/
structure Dev.Level (d : Dev) (h : Nat) : Prop where
  writes : d.ringWrites h = false
  spill : (d.core h).tq.spillDue = false
  refill : (d.core h).tq.refillDue = false

/-- The queue takes up nothing: no descriptor of an aborted task, and no push. -/
structure TQ.Idle (q : TQ) : Prop where
  requeue : q.requeue = []
  waiting : q.waiting = []
  inq : q.inq = []

/-- A queue that is not being refilled. -/
def TQ.steady (q : TQ) : TQ := { q with filling := false }

theorem Dev.Level.balance {d : Dev} {h : Nat} (hl : d.Level h) (m : Memory) (lk : Nat) : d.balance m h lk = (d.updTq h TQ.steady, false) := by
  have hone : d.refillOne m h lk = (d.updTq h TQ.steady, .shut) := by
    unfold Dev.refillOne
    rw [hl.refill]
    rfl
  unfold Dev.balance
  rw [hl.writes]
  dsimp only
  rw [hl.spill]
  simp only [Bool.false_eq_true, if_false]
  unfold Dev.untilDone
  rw [hone]

theorem Dev.core_updTq_self (d : Dev) (h : Nat) (f : TQ → TQ) : (d.updTq h f).core h = { d.core h with tq := f (d.core h).tq } :=
  Dev.core_updCore_self _ _ _

theorem Dev.slot_updTq (d : Dev) (h : Nat) (f : TQ → TQ) (j n : Nat) : (d.updTq h f).slot j n = d.slot j n :=
  Dev.slot_updCore_of (f := fun c => { c with tq := f c.tq }) (fun _ _ => rfl) d h j n

theorem Dev.Level.serveQueue {d : Dev} {h : Nat} (hl : d.Level h) (hi : (d.core h).tq.Idle) (m : Memory) (lk : Nat) :
    d.serveQueue m h lk = (d.updTq h TQ.steady, false) := by
  unfold Dev.serveQueue
  rw [hl.balance]
  dsimp only
  rw [Dev.core_updTq_self]
  dsimp only [TQ.steady]
  rw [hi.requeue, hi.waiting, hi.inq]
  rfl

/-- A unit without a ring that holds no more than its upper mark. -/
theorem Dev.level_of_ring_nil {d : Dev} {h : Nat} (hw : d.ringWrites h = false) (hring : (d.core h).tq.ring = []) (hhi : (d.core h).tq.chip.length ≤ (d.core h).tq.hi) :
    d.Level h := by
  refine ⟨hw, ?_, ?_⟩
  · unfold TQ.spillDue
    rw [decide_eq_false (by omega), Bool.false_and]
  · unfold TQ.refillDue
    rw [hring]
    rfl

/-! ### Dispatches (R196, R197) -/

theorem Dev.freeSlot_updTq (d : Dev) (lk h k : Nat) (f : TQ → TQ) : (d.updTq k f).freeSlot lk h = d.freeSlot lk h := by
  have hsaved : ∀ n, (d.updTq k f).savedSlot lk h n = d.savedSlot lk h n := by
    intro n
    unfold Dev.savedSlot
    by_cases hk : h = k
    · rw [hk, Dev.core_updTq_self]
    · rw [Dev.updTq, Dev.core_updCore_ne _ _ _ _ hk]
  unfold Dev.freeSlot
  simp only [Dev.slot_updTq, hsaved]
  rfl

/-- The lanes and the mask that a bundle of tasks begins with. -/
def Slot.laned (xs : List Desc) (s : Slot) : Slot :=
  { (s.setK 1 (ofBits (fun j => decide (j < xs.length)))).setSpec false with
    laneSet := ofBits (fun j => decide (j < xs.length)), tasks := ⟨xs.zipIdx.map (fun e => (e.2, e.1.id))⟩ }

/-- The registers and lanes that a bundle of tasks begins with. -/
def Slot.tasked (xs : List Desc) (s : Slot) : Slot :=
  ((((((s.setV 1 (taskLanes xs (·.a1))).setV 2 (taskLanes xs (·.a2))).setV 3 (taskLanes xs (·.a3))).setV 4 (taskLanes xs (·.a4))).setV 5
    (taskLanes xs (·.ts))).setV 6 (taskLanes xs (·.id))).laned xs

theorem Dev.tq_newThread (d : Dev) (lk h i n : Nat) (kind : Kind) (pc : W64) (serial : Nat) (f : Slot → Slot) (j : Nat) :
    ((d.newThread lk h i n kind pc serial f).core j).tq = (d.core j).tq ∧ (d.newThread lk h i n kind pc serial f).groups = d.groups := by
  unfold Dev.newThread
  split
  · exact ⟨rfl, rfl⟩
  · dsimp only
    refine ⟨?_, rfl⟩
    by_cases hj : j = h
    · rw [hj, Dev.core_updCore_self]
      exact (congrArg Core.tq (Dev.core_updSlot_bare _ _ _ _ _) :)
    · rw [Dev.core_updCore_ne _ _ _ _ hj]
      exact (congrArg Core.tq (Dev.core_updSlot_bare _ _ _ _ _) :)

/-- A bundle of FREE tasks starts in its slot, and leaves the queue units and the groups alone. -/
theorem Dev.bundle_spec {d : Dev} {lk h : Nat} {l : Launch} (hl : d.launch? lk = some l) (hord : (d.core h).tq.ordered = false) (i n : Nat) (x : Desc)
    (xs : List Desc) : ∃ clock g, (d.bundle lk h i n (x :: xs)).slot h n = Slot.tasked (x :: xs) { Slot.init with
      st := .ready, readyAt := clock, lk := lk, ri := i, kind := .freeTask, pc := l.code + BitVec.ofNat 64 (descEntry x),
      winBase := (l.resvOn h).rbase + i * l.nregs, winCount := l.nregs, tsw := l.tsw, gtid := g } ∧
    (∀ j, ((d.bundle lk h i n (x :: xs)).core j).tq = (d.core j).tq) ∧ (d.bundle lk h i n (x :: xs)).groups = d.groups := by
  have hserial : d.takeSerial lk = (d.updLaunch lk (fun l => { l with serial := (l.serial + 1) % 2 ^ 32 }), l.serial) := by
    unfold Dev.takeSerial
    rw [hl]
  obtain ⟨d1, hd1⟩ : ∃ d1, d1 = d.updLaunch lk (fun l => { l with serial := (l.serial + 1) % 2 ^ 32 }) := ⟨_, rfl⟩
  obtain ⟨hlaunch, hcores, hgroups⟩ : d1.launch? lk = some { l with serial := (l.serial + 1) % 2 ^ 32 } ∧ d1.cores = d.cores ∧ d1.groups = d.groups := by
    rw [hd1]
    refine ⟨Dev.launch?_updLaunch hl _, ?_, ?_⟩ <;> unfold Dev.updLaunch <;> split <;> rfl
  have hfold : ∀ (ys : List Desc) (buf : Nat) (e : Dev), (ys.foldl (fun d y => d.putTask lk y.id ⟨lk, y, h, buf, 0#1024, false, [], false, false, false⟩) e).cores = e.cores ∧
      (ys.foldl (fun d y => d.putTask lk y.id ⟨lk, y, h, buf, 0#1024, false, [], false, false, false⟩) e).groups = e.groups := fun ys buf e =>
    List.foldlRecOn (motive := fun f : Dev => f.cores = e.cores ∧ f.groups = e.groups) _ _ ⟨rfl, rfl⟩ (fun _ he _ _ => he)
  obtain ⟨d2, hd2⟩ : ∃ d2, d2 = d1.newThread lk h i n .freeTask (l.code + BitVec.ofNat 64 (descEntry x)) l.serial (Slot.tasked (x :: xs)) := ⟨_, rfl⟩
  have hbundle : ∃ buf, d.bundle lk h i n (x :: xs) = (x :: xs).foldl (fun d y => d.putTask lk y.id ⟨lk, y, h, buf, 0#1024, false, [], false, false, false⟩) d2 := by
    unfold Dev.bundle
    rw [hl]
    dsimp only
    rw [hord, hserial, hd2, hd1]
    exact ⟨_, rfl⟩
  obtain ⟨buf, hbundle⟩ := hbundle
  obtain ⟨hfc, hfg⟩ := hfold (x :: xs) buf d2
  refine ⟨d1.clock, gtidOf lk l.serial, ?_, fun j => ?_, ?_⟩
  · rw [hbundle, Dev.slot, Dev.core, hfc, ← Dev.core, ← Dev.slot, hd2]
    exact (Dev.newThread_spec hlaunch h i n l.serial .freeTask _ _).1
  · rw [hbundle, Dev.core, hfc, ← Dev.core, hd2, (Dev.tq_newThread _ _ _ _ _ _ _ _ _ j).1, Dev.core, hcores, ← Dev.core]
  · rw [hbundle, hfg, hd2, (Dev.tq_newThread _ _ _ _ _ _ _ _ _ h).2, hgroups]

theorem lane_taskLanes {xs : List Desc} {j : Nat} {y : Desc} (hj : j < 16) (hy : xs[j]? = some y) (f : Desc → W32) : lane (taskLanes xs f) j = f y := by
  rw [taskLanes, lane_ofLanes _ _ hj, hy]
  rfl

theorem find?_zipIdx {xs : List Desc} {j : Nat} {y : Desc} (hy : xs[j]? = some y) :
    (⟨xs.zipIdx.map (fun e => (e.2, e.1.id))⟩ : AMap W32).find? j = some y.id := by
  have h : ∀ (ys : List Desc) (k i : Nat), ys[i]? = some y → (⟨(ys.zipIdx k).map (fun e => (e.2, e.1.id))⟩ : AMap W32).find? (k + i) = some y.id := by
    intro ys
    induction ys with
    | nil => exact fun k i hi => nomatch hi
    | cons z zs ih =>
      intro k i hi
      rw [AMap.find?_eq_map, List.zipIdx_cons, List.map_cons, List.find?_cons]
      cases i with
      | zero =>
        rw [show (k == k + 0) = true from beq_self_eq_true k]
        exact congrArg (fun o : Option Desc => o.map (·.id)) hi
      | succ i =>
        rw [show (k == k + (i + 1)) = false from beq_false_of_ne (by omega), show k + (i + 1) = k + 1 + i by omega]
        exact (AMap.find?_eq_map _ _).symm.trans (ih (k + 1) i hi)
  simpa using h xs 0 j hy

theorem Slot.V_laned (s : Slot) (xs : List Desc) (j : Nat) : (s.laned xs).V j = s.V j := rfl
theorem Slot.A_laned (s : Slot) (xs : List Desc) (j : Nat) : (s.laned xs).A j = s.A j := rfl
theorem Slot.K_laned (s : Slot) (xs : List Desc) : (s.laned xs).K 1 = ofBits (fun j => decide (j < xs.length)) :=
  (Slot.K_setK_self s 1#3 (ofBits (fun j => decide (j < xs.length))) :)

theorem Slot.V_tasked (s : Slot) (xs : List Desc) : (Slot.tasked xs s).V 1 = taskLanes xs (·.a1) ∧ (Slot.tasked xs s).V 2 = taskLanes xs (·.a2) ∧
    (Slot.tasked xs s).V 3 = taskLanes xs (·.a3) ∧ (Slot.tasked xs s).V 4 = taskLanes xs (·.a4) ∧ (Slot.tasked xs s).V 5 = taskLanes xs (·.ts) ∧
    (Slot.tasked xs s).V 6 = taskLanes xs (·.id) := by
  unfold Slot.tasked
  rw [Slot.V_laned, Slot.V_laned, Slot.V_laned, Slot.V_laned, Slot.V_laned, Slot.V_laned]
  simp [Slot.V_setV_ne]

/-- Slot b runs the same thread as a, in the same window and with the same a-registers. -/
structure Slot.SameThread (a b : Slot) : Prop where
  st : b.st = a.st
  lk : b.lk = a.lk
  kind : b.kind = a.kind
  pc : b.pc = a.pc
  aregs : b.aregs = a.aregs
  winCount : b.winCount = a.winCount
  winBase : b.winBase = a.winBase

theorem Slot.SameThread.trans {a b c : Slot} (h : a.SameThread b) (g : b.SameThread c) : a.SameThread c :=
  ⟨g.st.trans h.st, g.lk.trans h.lk, g.kind.trans h.kind, g.pc.trans h.pc, g.aregs.trans h.aregs, g.winCount.trans h.winCount, g.winBase.trans h.winBase⟩

theorem Slot.SameThread.setV {a b : Slot} (h : a.SameThread b) (j : Nat) (v : V512) : a.SameThread (b.setV j v) :=
  h.trans ⟨rfl, rfl, rfl, rfl, rfl, rfl, rfl⟩

theorem Slot.SameThread.laned {a b : Slot} (h : a.SameThread b) (xs : List Desc) : a.SameThread (b.laned xs) :=
  h.trans ⟨rfl, rfl, rfl, rfl, rfl, rfl, rfl⟩

theorem Slot.sameThread_tasked (s : Slot) (xs : List Desc) : s.SameThread (Slot.tasked xs s) :=
  ((((((Slot.SameThread.mk rfl rfl rfl rfl rfl rfl rfl).setV _ _).setV _ _).setV _ _).setV _ _).setV _ _).setV _ _ |>.laned xs

/-- A queue whose descriptors start. -/
def TQ.started (xs : List Desc) (q : TQ) : TQ :=
  { q with chip := q.chip.filter (fun y => !xs.contains y), hold := q.hold.filter (fun e => !xs.any (fun y => y.id.toNat == e.1)) }

theorem TQ.ready_of_hold_nil {q : TQ} (h : q.hold = []) (clock : Nat) : q.ready clock = q.chip := by
  unfold TQ.ready
  rw [h]
  exact List.filter_eq_self.mpr (fun _ _ => rfl)

theorem dispatch_event (h lk i n : Nat) (x : Desc) (rest : List Desc) (l : Launch) :
    let xs := x :: (rest.filter (fun y => descEntry y == descEntry x)).take 15
    Event (.dispatch h)
      (fun _ d => let q := (d.core h).tq
        q.lk = some lk ∧ q.ring = [] ∧ q.waiting = [] ∧ q.requeue = [] ∧ q.inq = [] ∧ d.ringWrites h = false ∧ q.chip.length ≤ q.hi ∧ q.hold = [] ∧ q.chip = x :: rest ∧
        d.freeSlot lk h = some (i, n) ∧ d.launch? lk = some l ∧ l.st = .resident ∧ l.out = false ∧ q.ordered = false)
      (fun _ d e => let s := e.slot h n
        s.st = .ready ∧ s.lk = lk ∧ s.kind = .freeTask ∧ s.pc = l.code + BitVec.ofNat 64 (descEntry x) ∧ (∀ j, s.A j = 0#64) ∧
        (∀ j, j < 16 → s.laneSet.getLsbD j = decide (j < xs.length) ∧ (s.K 1).getLsbD j = decide (j < xs.length)) ∧
        (∀ j y, xs[j]? = some y → lane (s.V 1) j = y.a1 ∧ lane (s.V 2) j = y.a2 ∧ lane (s.V 3) j = y.a3 ∧ lane (s.V 4) j = y.a4 ∧
          lane (s.V 5) j = y.ts ∧ lane (s.V 6) j = y.id ∧ s.tasks.find? j = some y.id) ∧
        s.winCount = l.nregs ∧ s.winBase = (l.resvOn h).rbase + i * l.nregs ∧ (e.core h).tq.chip = (d.core h).tq.chip.filter (fun y => !xs.contains y)) := by
  intro xs s ⟨hlk, hring, hwait, hreq, hinq, hwrites, hhi, hhold, hchip, hfree, hl, hres, hout, hord⟩
  refine ⟨_, rfl, fun _ => rfl, ?_⟩
  dsimp only
  have hlevel : s.dev.Level h := Dev.level_of_ring_nil hwrites hring hhi
  obtain ⟨d1, hd1⟩ : ∃ d1, d1 = s.dev.updTq h TQ.steady := ⟨_, rfl⟩
  have hq1 : (d1.core h).tq = (s.dev.core h).tq.steady := by rw [hd1, Dev.core_updTq_self]
  obtain ⟨d2, hd2⟩ : ∃ d2, d2 = d1.updTq h (TQ.started xs) := ⟨_, rfl⟩
  have hq2 : (d2.core h).tq = { (s.dev.core h).tq.steady with chip := (s.dev.core h).tq.chip.filter (fun y => !xs.contains y), hold := [] } := by
    rw [hd2, Dev.core_updTq_self, hq1]
    dsimp only [TQ.steady, TQ.started]
    rw [hhold]
    rfl
  have hl2 : d2.launch? lk = some l := by rw [hd2, hd1]; exact hl
  obtain ⟨clock, g, hslot, htq, hgroups⟩ := Dev.bundle_spec hl2 (h := h) (by rw [hq2]; exact hord) i n x ((rest.filter (fun y => descEntry y == descEntry x)).take 15)
  obtain ⟨d3, hd3⟩ : ∃ d3, d3 = d2.bundle lk h i n xs := ⟨_, rfl⟩
  rw [← hd3] at hslot htq hgroups
  have hq3 := (htq h).trans hq2
  have hlevel3 : d3.Level h := by
    refine Dev.level_of_ring_nil ?_ (by rw [hq3]; exact hring) ?_
    · unfold Dev.ringWrites
      rw [hgroups, hd2, hd1]
      exact hwrites
    · rw [hq3]
      exact (List.length_filter_le _ _).trans hhi
  have hgo : s.dev.dispatch s.mem h = d3.updTq h TQ.steady := by
    have halive : d1.alive lk = true := by
      unfold Dev.alive
      rw [hd1, show (s.dev.updTq h TQ.steady).launch? lk = some l from hl]
      simp [hres]
    have hfree1 : d1.freeSlot lk h = some (i, n) := by rw [hd1, Dev.freeSlot_updTq, hfree]
    have hl1 : d1.launch? lk = some l := by rw [hd1]; exact hl
    have hready : (d1.core h).tq.ready d1.clock = x :: rest := by
      rw [TQ.ready_of_hold_nil (by rw [hq1]; exact hhold), hq1]
      exact hchip
    unfold Dev.dispatch
    dsimp only
    rw [hlk]
    dsimp only
    rw [hlevel.balance, ← hd1]
    dsimp only
    rw [hready, hfree1]
    have hcond : (!d1.alive lk || ((d1.launch? lk).map (·.out)).getD true || ((d1.core h).tq.ordered && decide (1024 ≤ (d1.districtTasks lk h).length))) = false := by
      rw [halive, hl1, hq1, Option.map_some, Option.getD_some, hout, show (s.dev.core h).tq.steady.ordered = false from hord]
      rfl
    have hend : (Dev.serveQueue s.mem (d2.bundle lk h i n xs) h lk).1 = d3.updTq h TQ.steady := by
      rw [← hd3, hlevel3.serveQueue ⟨by rw [hq3]; exact hreq, by rw [hq3]; exact hwait, by rw [hq3]; exact hinq⟩]
    rw [hd2] at hend
    exact (if_neg (by rw [hcond]; exact Bool.false_ne_true)).trans hend
  rw [hgo, Dev.slot_updTq, Dev.core_updTq_self, hslot]
  have hlen : xs.length ≤ 16 := by
    have := List.length_take_le 15 (rest.filter (fun y => descEntry y == descEntry x))
    simp only [xs, List.length_cons]
    omega
  obtain ⟨hst, hslk, hkind, hpc, haregs, hcount, hbase⟩ := Slot.sameThread_tasked { Slot.init with
    st := .ready, readyAt := clock, lk := lk, ri := i, kind := .freeTask, pc := l.code + BitVec.ofNat 64 (descEntry x),
    winBase := (l.resvOn h).rbase + i * l.nregs, winCount := l.nregs, tsw := l.tsw, gtid := g } xs
  obtain ⟨h1, h2, h3, h4, h5, h6⟩ := Slot.V_tasked { Slot.init with
    st := .ready, readyAt := clock, lk := lk, ri := i, kind := .freeTask, pc := l.code + BitVec.ofNat 64 (descEntry x),
    winBase := (l.resvOn h).rbase + i * l.nregs, winCount := l.nregs, tsw := l.tsw, gtid := g } xs
  refine ⟨hst, hslk, hkind, hpc, fun j => ?_, fun j hj => ⟨?_, ?_⟩, fun j y hy => ?_, hcount, hbase, ?_⟩
  · rw [Slot.A, haregs]
    split <;> rfl
  · exact getLsbD_ofBits _ hj
  · exact (congrArg (BitVec.getLsbD · j) (Slot.K_laned _ _)).trans (getLsbD_ofBits _ hj)
  · obtain ⟨hjl, -⟩ := List.getElem?_eq_some_iff.mp hy
    have hj : j < 16 := by omega
    rw [h1, h2, h3, h4, h5, h6]
    exact ⟨lane_taskLanes hj hy _, lane_taskLanes hj hy _, lane_taskLanes hj hy _, lane_taskLanes hj hy _, lane_taskLanes hj hy _,
      lane_taskLanes hj hy _, find?_zipIdx hy⟩
  · exact congrArg TQ.chip hq3

/-- Settles O28. -/
theorem tasksOnSlots : Obligations.TasksOnSlots := by
  refine ⟨fun h lk i n x rest l => dispatch_event h lk i n x rest l, fun a id t => ⟨tend_acts a, tend_ordered a id t, tabort_acts a id t, ?_⟩⟩
  exact faultForm_traps 0x52 8 (exec_tabort a) (fun c hk => if_pos (by simpa using hk))

end Sys2Proof.Machine
end

section
/-! PROOFS. The queue units: pushes, spills and refills (R193 to R195, R200, R325). -/

namespace Sys2Proof.Machine

/-! ### A group that closes while no other waits (R142) -/

theorem Dev.startGroups_none {d : Dev} (hw : ∀ g, g ∈ d.groups → g.phase ≠ .waiting) (m : Memory) (k : Nat) : d.startGroups m k = d := by
  cases k with
  | zero => rfl
  | succ k =>
    unfold Dev.startGroups
    rw [List.find?_eq_none.mpr fun g hg => by simp [hw g hg]]

/-- A group with lines that follows no other goes out at once, and changes no core. -/
theorem Dev.cores_addGroup_lone {d : Dev} (hw : ∀ g, g ∈ d.groups → g.phase ≠ .waiting) (m : Memory) {ls : List GLine} (hls : ls ≠ []) (fn core : Nat)
    (fin : List Fin) : (d.addGroup m ls fn core none fin).cores = d.cores := by
  obtain ⟨g, hg⟩ : ∃ g : Grp, g = ⟨d.newGid, ls, .waiting, homesOf ls, [], fn, none, core, fin⟩ := ⟨_, rfl⟩
  have hgid : g.id = d.newGid := by rw [hg]
  have hfresh : ∀ x, x ∈ d.groups → x.id ≠ g.id := fun x hx => hgid ▸ (d.newGid_fresh hx).ne
  obtain ⟨e, he⟩ : ∃ e : Dev, e = ({ d with groups := d.groups ++ [g], count := d.newGid + 1 } : Dev).updGroup g.id (fun g => { g with phase := .one }) := ⟨_, rfl⟩
  have hegroups : e.groups = d.groups ++ [{ g with phase := .one }] := by
    rw [he]
    refine (List.map_append ..).trans (congrArg₂ _ ?_ ?_)
    · exact (List.map_congr_left (fun x hx => if_neg (by simpa using hfresh x hx))).trans (List.map_id' _)
    · simp
  have hfound : e.groups.find? (fun x => x.id == g.id) = some { g with phase := .one } := by
    rw [hegroups, List.find?_append, List.find?_eq_none.mpr fun x hx => by simpa using hfresh x hx]
    simp
  have hhomes : homesOf ls ≠ [] := fun h => hls (homesOf_eq_nil (by rw [h]; rfl))
  obtain ⟨q, qs, hq⟩ := List.exists_cons_of_ne_nil hhomes
  have hadv : ∃ f : Grp → Grp, (∀ x, (f x).phase = .one) ∧ e.advance m g.id = (e.updGroup g.id f).send 0 (.groupPhaseOne g.id q) := by
    unfold Dev.advance
    rw [hfound]
    dsimp only
    rw [show g.homes = q :: qs by rw [hg]; exact hq]
    exact ⟨_, fun _ => rfl, rfl⟩
  obtain ⟨f, hf, hadv⟩ := hadv
  unfold Dev.addGroup
  dsimp only
  rw [← hg]
  unfold Dev.settle Dev.startGroups
  split
  · rfl
  · next x hx =>
    have hxg : x = g := by
      rcases List.mem_append.mp (List.mem_of_find?_eq_some hx) with hm | hm
      · have hph := List.find?_some hx
        rw [Bool.and_eq_true, beq_iff_eq] at hph
        exact absurd hph.1 (hw x hm)
      · exact List.mem_singleton.mp hm
    rw [hxg, ← he, hadv, Dev.startGroups_none]
    · rw [he]
      rfl
    intro x hx
    obtain ⟨y, hy, rfl⟩ := List.mem_map.mp hx
    rw [hegroups] at hy
    split
    · rw [hf]
      exact fun h => nomatch h
    · rcases List.mem_append.mp hy with hy | hy
      · exact hw y hy
      · rw [List.mem_singleton.mp hy]
        exact fun h => nomatch h

/-! ### tqcfg and tqstat (R193, R203) -/

/-- A queue unit as tqcfg leaves it, by the lanes of its register. -/
def TQ.configured (q : TQ) (lk : Nat) (f : Nat → Nat) : TQ :=
  { q with lk := some lk, rbase := BitVec.ofNat 64 (f 0 + 2 ^ 32 * f 1), rsize := f 2, hi := if f 3 = 0 then 192 else f 3, lo := if f 3 = 0 then 64 else f 4, ordered := f 5 == 1, pb := f 6, smin := f 7 }

theorem tqcfg_acts (v : VReg) (l : Launch) :
    let f := fun (c : Ctx) (i : Nat) => (c.s.ln v i).toNat
    Acts (.tqcfg v) (useV [v] [rv v])
      (fun c => c.d.launch? c.s.lk = some l ∧ (∀ i, 8 ≤ i → i < 16 → f c i = 0) ∧ f c 0 % 4096 = 0 ∧
        (f c 2 = 0 ∨ ∃ k, k ≤ 10 ∧ f c 2 = 512 * 2 ^ k) ∧ f c 3 ≤ 255 ∧ (f c 3 ≠ 0 → f c 4 < f c 3) ∧ f c 5 ≤ 1 ∧ f c 6 ≤ 255 ∧ f c 7 ≤ 16 ∧
        f c 7 ≤ l.nseats ∧ l.flags.getLsbD 2 = true ∧ (l.ordered = none ∨ l.ordered = some (f c 5 == 1)) ∧ (c.d.core c.h).tq.ring = []) [] [] []
      (fun c e => (∀ k, k ≠ c.h → e.core k = c.d.core k) ∧ (e.core c.h).tq = { (c.d.core c.h).tq with
        lk := some c.s.lk, rbase := BitVec.ofNat 64 (f c 0 + 2 ^ 32 * f c 1), rsize := f c 2, hi := if f c 3 = 0 then 192 else f c 3,
        lo := if f c 3 = 0 then 64 else f c 4, ordered := f c 5 == 1, pb := f c 6, smin := f c 7 }) := by
  intro f
  refine acts_of (fun _ => by unfold exec execTqcfg; rfl) (fun c hc ⟨hl, hhigh, h0, h2, h3, h4, h5, h6, h7, h7s, hflag, hord, hring⟩ => ?_)
  have hrbase : (lane (c.s.V v.toNat) 1 ++ lane (c.s.V v.toNat) 0 : W64) = BitVec.ofNat 64 (f c 0 + 2 ^ 32 * f c 1) := by
    apply BitVec.eq_of_toNat_eq
    rw [toNat_append_add, BitVec.toNat_ofNat]
    have hb0 : f c 0 < 2 ^ 32 := BitVec.isLt _
    have hb1 : f c 1 < 2 ^ 32 := BitVec.isLt _
    have h1 : (lane (c.s.V v.toNat) 1).toNat = f c 1 := rfl
    have h0 : (lane (c.s.V v.toNat) 0).toNat = f c 0 := rfl
    rw [h1, h0]
    omega
  have hok : ((List.range 8).all (fun i => lane (c.s.V v.toNat) (8 + i) == 0#32) && f c 0 % 4096 == 0 &&
      (f c 2 == 0 || (List.range 11).any (fun i => f c 2 == 512 * 2 ^ i)) && decide (f c 3 ≤ 255) &&
      decide ((if f c 3 = 0 then 64 else f c 4) < (if f c 3 = 0 then 192 else f c 3)) && decide (f c 5 ≤ 1) &&
      decide (f c 6 ≤ 255) && decide (f c 7 ≤ 16) && decide (f c 7 ≤ l.nseats) && l.flags.getLsbD 2) = true := by
    have ha : (List.range 8).all (fun i => lane (c.s.V v.toNat) (8 + i) == 0#32) = true := by
      rw [List.all_eq_true]
      intro i hi
      exact beq_iff_eq.mpr (BitVec.eq_of_toNat_eq (hhigh (8 + i) (by omega) (by have := List.mem_range.mp hi; omega)))
    have hb : (f c 2 == 0 || (List.range 11).any (fun i => f c 2 == 512 * 2 ^ i)) = true := by
      rw [Bool.or_eq_true]
      rcases h2 with h2 | ⟨k, hk, h2⟩
      · exact Or.inl (beq_iff_eq.mpr h2)
      · exact Or.inr (List.any_eq_true.mpr ⟨k, List.mem_range.mpr (by omega), beq_iff_eq.mpr h2⟩)
    have hd : (if f c 3 = 0 then 64 else f c 4) < (if f c 3 = 0 then 192 else f c 3) := by
      split
      · decide
      · next hne => exact h4 hne
    rw [ha, hb, hflag]
    simp [h0, h3, hd, h5, h6, h7, h7s]
  have hord' : (l.ordered == some (f c 5 == 0)) = false := by
    refine beq_false_of_ne (fun h => ?_)
    rcases hord with hn | hs
    · rw [hn] at h
      exact nomatch h
    · rw [hs] at h
      have hb : (f c 5 == 1) = (f c 5 == 0) := Option.some.inj h
      have : f c 5 = 0 ∨ f c 5 = 1 := by omega
      rcases this with h | h <;> rw [h] at hb <;> exact absurd hb (by decide)
  have hcores : ∀ g, (c.d.updLaunch c.s.lk g).cores = c.d.cores := fun g => by
    unfold Dev.updLaunch
    split <;> rfl
  obtain ⟨d1, hd1⟩ : ∃ d1, d1 = c.d.updLaunch c.s.lk (fun l => { l with ordered := some (f c 5 == 1) }) := ⟨_, rfl⟩
  have hcore1 : ∀ k, d1.core k = c.d.core k := fun k => by rw [hd1, Dev.core, hcores, ← Dev.core]
  obtain ⟨d2, hd2⟩ : ∃ d2, d2 = d1.updTq c.h (fun q => q.configured c.s.lk (f c)) := ⟨_, rfl⟩
  refine ⟨d2, ?_, ?_, fun k hk => ?_, ?_⟩
  · rw [hd2, hd1]
    dsimp only
    rw [hl]
    dsimp only
    refine (if_neg (fun h => absurd ((congrArg not hok).symm.trans h) Bool.false_ne_true)).trans
      ((if_neg (fun h => absurd (hord'.symm.trans h) Bool.false_ne_true)).trans ((if_neg ?_).trans ?_))
    · rw [hring]
      exact Bool.false_ne_true
    · rw [hrbase]
      rfl
  · have hslot : d2.slot c.h c.n = c.s := by
      rw [hd2, Dev.slot_updTq, Dev.slot, hcore1, hc.own.symm]
      rfl
    rw [hslot]
    exact .refl _
  · rw [Ctx.finish_core_ne _ _ _ _ hc.step _ hk, hd2, Dev.updTq, Dev.core_updCore_ne _ _ _ _ hk, hcore1]
  · rw [Ctx.finish_tq _ _ _ _ hc.step, hd2, Dev.core_updTq_self, hcore1]
    rfl

theorem toNat_stat (q : TQ) : q.stat = BitVec.ofNat 64 (q.chip.length % 2 ^ 9 + 2 ^ 12 * (q.ring.length % 2 ^ 20) + 2 ^ 32 * (q.waiting.length % 2 ^ 8) +
    (if q.ordered then 2 ^ 40 else 0) + (if q.lk.isSome then 2 ^ 41 else 0)) := by
  apply BitVec.eq_of_toNat_eq
  unfold TQ.stat
  simp only [toNat_append_add, BitVec.toNat_ofNat, BitVec.toNat_ofBool]
  cases q.ordered <;> cases q.lk.isSome <;> simp <;> omega

theorem tqstat_reads (a d : AReg) :
    let t := fun (c : Ctx) => if a = 0#4 then BitVec.ofNat 64 c.h else c.s.A a.toNat
    ReadsA (.tqstat d a) (useA [wa d, ra a])
      (fun c => (t c).toNat < 4096 ∧ ∃ l, c.d.launch? c.s.lk = some l ∧ l.has (t c).toNat = true) d
      (fun c => let q := (c.d.core (t c).toNat).tq
        BitVec.ofNat 64 (q.chip.length % 2 ^ 9 + 2 ^ 12 * (q.ring.length % 2 ^ 20) + 2 ^ 32 * (q.waiting.length % 2 ^ 8) +
          (if q.ordered then 2 ^ 40 else 0) + (if q.lk.isSome then 2 ^ 41 else 0))) := by
  intro t
  refine completesWhen_of (fun _ => by unfold exec execTqstat; rfl) (fun c hc ⟨hlow, l, hl, hhas⟩ => ⟨_, _, c.s.pc + 8#64, ?_, .setSlot c _,
    KeptRegs.setA c.s d.toNat (c.d.core (t c).toNat).tq.stat, rfl, ?_⟩)
  · refine congrArg (c.settle _) (if_neg ?_)
    rw [hl, Option.map_some, Option.getD_some, Bool.or_eq_true, not_or]
    exact ⟨by rw [decide_eq_true_eq]; exact Nat.not_le.mpr hlow, by rw [show l.has _ = true from hhas]; exact Bool.false_ne_true⟩
  · exact (Slot.A_setA_self _ _ _).trans (by rw [toNat_stat])

/-! ### Pushes (R200) -/

/-- Messages sent together arrive later. -/
theorem Dev.coming_sendAll (d : Dev) (es : List (Nat × Ev)) {x : Nat × Ev} (hx : x ∈ es) : (d.sendAll es).coming d.clock x.2 := by
  obtain ⟨due, hdue, hnet⟩ := d.net_sendAll es
  exact ⟨_, hnet ▸ List.mem_append_right _ (List.mem_map.mpr ⟨x, hx, rfl⟩), rfl, hdue⟩

theorem exec_tqpush (v : VReg) (b : AReg) (s : State) : exec (.tqpush v b) s = thread (useV [v] [rv v, ra b]) (fun c =>
    if c.s.kind == .ordered && c.s.tasks.ents.isEmpty then .done c.d else c.push true [⟨0, c.s.A b.toNat, false,
      ⟨c.s.ln v 0, c.s.ln v 1, c.s.ln v 2, c.s.ln v 3, c.s.ln v 4, c.s.ln v 5, c.s.lowestTask, 0#32⟩⟩]) s := by
  unfold exec execTqpush
  rfl

/-- A push form whose descriptors are all accepted completes. -/
theorem Ctx.push_accepted {c : Ctx} {ps : List Push} (h : ∀ p, p ∈ ps → c.s.pushed.contains p.lane = true) (single : Bool) : c.push single ps = .done c.d := by
  have htodo : ps.filter (fun p => !c.s.pushed.contains p.lane) = [] := List.filter_eq_nil_iff.mpr (fun p hp => by rw [h p hp]; decide)
  unfold Ctx.push
  dsimp only
  rw [htodo]
  rfl

theorem tqpush_completes (v : VReg) (b : AReg) : CompletesWhen (.tqpush v b) (useV [v] [rv v, ra b])
    (fun c => c.s.kind ≠ .ordered ∧ c.s.pushed.contains 0 = true) [] [] [] (fun c s => s.pc = c.s.pc + 8#64) := by
  refine completesWhen_of (exec_tqpush v b) (fun c hc ⟨hkind, hpushed⟩ => ⟨c.d, c.s, c.s.pc + 8#64, ?_, .refl hc, .refl _, rfl⟩)
  refine congrArg (c.settle _) ((if_neg ?_).trans (Ctx.push_accepted (fun p hp => ?_) true))
  · rw [beq_false_of_ne hkind]
    exact Bool.false_ne_true
  · rw [List.mem_singleton.mp hp]
    exact hpushed

theorem tqpushv_completes (km : KReg) (v cc : VReg) (b : AReg) : CompletesWhen (.tqpushv km v b cc)
    ⟨[v.toNat, cc.toNat], [v.toNat + 4], [rv v, rv cc, ra b, rk km] ++ (List.range 4).map (fun i => rvn (v.toNat + 1 + i)), none, .all, false⟩
    (fun c => ∀ l, l < 16 → (c.s.K km.toNat).getLsbD l = true → c.s.pushed.contains l = true) [] [] [] (fun c s => s.pc = c.s.pc + 8#64) := by
  refine completesWhen_of (fun _ => by unfold exec execTqpushv; rfl) (fun c hc hpushed => ⟨c.d, c.s, c.s.pc + 8#64, ?_, .refl hc, .refl _, rfl⟩)
  refine congrArg (c.settle _) (Ctx.push_accepted (fun p hp => ?_) false)
  obtain ⟨l, hl, rfl⟩ := List.mem_map.mp hp
  obtain ⟨hlt, hk⟩ := mem_lanesOf.mp (List.mem_of_mem_filter hl)
  exact hpushed l hlt hk

/-- A first presentation of tqpush sends its descriptor and waits. -/
theorem tqpush_sends (v : VReg) (b : AReg) (l : Launch) (s : State) (h n : Nat) (w : W64) (hi : s.issues h n w (useV [v] [rv v, ra b])) :
    let c := s.ctx h n w
    let t := (c.s.A b.toNat).toNat
    c.s.kind ≠ .ordered → c.s.pushed = [] → c.s.reply = .idle → s.dev.launch? c.s.lk = some l → l.ordered ≠ some true →
    t < 4096 → l.has t = true → (s.dev.core t).tq.lk = some c.s.lk → (c.s.ln v 0).toNat < 2 ^ 24 → l.entries.contains (c.s.ln v 0).toNat = true →
    ∃ x, exec (.tqpush v b) s = .next x ∧ (x.dev.slot h n).pc = c.s.pc ∧ (x.dev.slot h n).reply = .sent ∧
      x.dev.coming s.dev.clock (.taskPushArrival ⟨t, h, n, 0,
        ⟨c.s.ln v 0, c.s.ln v 1, c.s.ln v 2, c.s.ln v 3, c.s.ln v 4, c.s.ln v 5, c.s.lowestTask, 0#32⟩⟩) := by
  intro c t hkind hpushed hreply hl hord hlow hhas hlk hw0 hentry
  obtain ⟨p, hp⟩ : ∃ p : Push, p = ⟨0, c.s.A b.toNat, false, ⟨c.s.ln v 0, c.s.ln v 1, c.s.ln v 2, c.s.ln v 3, c.s.ln v 4, c.s.ln v 5, c.s.lowestTask, 0#32⟩⟩ := ⟨_, rfl⟩
  have hcheck : c.pushCheck p = none := by
    have hw0' : (c.s.ln v 0).extractLsb' 24 8 = 0#8 := by
      apply BitVec.eq_of_toNat_eq
      rw [BitVec.extractLsb'_toNat, Nat.shiftRight_eq_div_pow, Nat.div_eq_of_lt hw0]
      rfl
    have hent : ((c.s.ln v 0).extractLsb' 0 24).toNat = (c.s.ln v 0).toNat := by
      rw [BitVec.extractLsb'_toNat, Nat.shiftRight_zero]
      exact Nat.mod_eq_of_lt hw0
    unfold Ctx.pushCheck descEntry
    rw [show c.d.launch? c.s.lk = some l from hl, hp]
    dsimp only
    rw [hw0', hent, hentry, show (c.d.core (c.s.A b.toNat).toNat).tq.lk = some c.s.lk from hlk, show l.has (c.s.A b.toNat).toNat = true from hhas]
    simp [show (c.s.A b.toNat).toNat < 4096 from hlow, hord]
  have hpush : c.push true [p] = .skip ((c.d.updSlot c.h c.n (fun s => { s with reply := .sent, pushWait := [0] })).sendAll
      [(chanOf 7 (slotKey c.h c.n) t, .taskPushArrival ⟨t, c.h, c.n, 0, p.d⟩)]) := by
    unfold Ctx.push
    dsimp only
    rw [hpushed, show [p].filter (fun p => !([] : List Nat).contains p.lane) = [p] from rfl, hreply]
    simp only [List.isEmpty_cons, Bool.false_eq_true, if_false, List.findSome?_cons, List.findSome?_nil, hcheck, Option.map_none]
    rw [hp]
    rfl
  obtain ⟨d1, hd1⟩ : ∃ d1, d1 = c.d.updSlot c.h c.n (fun s => { s with reply := .sent, pushWait := [0] }) := ⟨_, rfl⟩
  have hslot : d1.slot h n = { c.s with reply := .sent, pushWait := [0] } := by
    rw [hd1]
    exact Dev.slot_updSlot_self _ _ _ _
  have hclock : d1.clock = s.dev.clock := by rw [hd1]; rfl
  have hcome := d1.coming_sendAll _ (List.mem_singleton_self (chanOf 7 (slotKey c.h c.n) t, Ev.taskPushArrival ⟨t, c.h, c.n, 0, p.d⟩))
  rw [← hd1] at hpush
  refine ⟨⟨s.mem, d1.sendAll [(chanOf 7 (slotKey c.h c.n) t, .taskPushArrival ⟨t, c.h, c.n, 0, p.d⟩)]⟩, ?_, (congrArg Slot.pc hslot :), (congrArg Slot.reply hslot :), ?_⟩
  · rw [exec_tqpush, thread_issues _ _ s h n w hi, if_neg (by rw [beq_false_of_ne (show (s.ctx h n w).s.kind ≠ .ordered from hkind)]; exact Bool.false_ne_true)]
    rw [hp] at hpush
    rw [hp]
    exact congrArg (fun r => (Host.Outcome.next (⟨s.mem, c.settle (useV [v] [rv v, ra b]) r⟩ : State) : Host.Outcome State Fault Refusal)) hpush
  · rw [hclock, hp] at hcome
    rw [hp]
    exact hcome

/-! ### Pushes that arrive (R192, R195) -/

theorem length_insertDesc (x : Desc) (l : List Desc) : (insertDesc x l).length = l.length + 1 := by
  unfold insertDesc
  rw [List.length_append, List.length_cons, ← Nat.add_assoc, ← List.length_append, List.takeWhile_append_dropWhile]


theorem nextId_core (h : Nat) (used : List W32) (f : Nat) (k : BitVec 20) : (nextId h used f k).1.extractLsb' 20 12 = BitVec.ofNat 12 h := by
  induction f generalizing k with
  | zero => exact BitVec.extractLsb'_append_eq_left
  | succ f ih =>
    unfold nextId
    dsimp only
    split
    · exact ih _
    · exact BitVec.extractLsb'_append_eq_left

/-- Without a ring a descriptor goes on chip. -/
theorem Dev.place_chip {d : Dev} {h : Nat} (hring : (d.core h).tq.ring = []) (hroom : (d.core h).tq.chip.length < 256) (m : Memory) (lk : Nat) (x : Desc) :
    d.place m h lk x = (d.updTq h (fun q => { q with chip := insertDesc x q.chip }), .made) := by
  unfold Dev.place
  dsimp only
  rw [hring]
  simp only [Bool.false_and, Bool.false_eq_true, if_false]
  rw [if_neg (by omega)]

theorem Dev.pushDone_tq (d : Dev) (h n lane k : Nat) : ((d.pushDone h n lane).core k).tq = (d.core k).tq ∧ (d.pushDone h n lane).groups = d.groups := by
  have hslot : ∀ (e : Dev) (f : Slot → Slot), ((e.updSlot h n f).core k).tq = (e.core k).tq ∧ (e.updSlot h n f).groups = e.groups :=
    fun e f => ⟨(congrArg Core.tq (Dev.core_updSlot_bare _ _ _ _ _) :), rfl⟩
  have hwake : ∀ (e : Dev) (p : WaitFor → Bool), ((e.wakeSlot h n p).core k).tq = (e.core k).tq ∧ (e.wakeSlot h n p).groups = e.groups := by
    intro e p
    unfold Dev.wakeSlot
    split
    · split
      · exact hslot _ _
      · exact ⟨rfl, rfl⟩
    · exact ⟨rfl, rfl⟩
  unfold Dev.pushDone
  dsimp only
  split
  · exact hslot _ _
  · split
    · exact ⟨((hslot _ _).1).trans (hslot _ _).1, rfl⟩
    · exact ⟨((hwake _ _).1).trans (hslot _ _).1, ((hwake _ _).2).trans rfl⟩

/-- A slot whose push is accepted has its lane among those pushed. -/
theorem Dev.pushDone_slot {d : Dev} {h n : Nat} (hr : (d.slot h n).reply ≠ .stale) (lane : Nat) :
    lane ∈ ((d.pushDone h n lane).slot h n).pushed ∧ ((d.pushDone h n lane).slot h n).pc = (d.slot h n).pc := by
  obtain ⟨d1, hd1⟩ : ∃ d1, d1 = d.updSlot h n (fun s => { s with pushed := if s.reply == .stale then s.pushed else s.pushed ++ [lane], pushWait := s.pushWait.erase lane }) := ⟨_, rfl⟩
  have hslot : d1.slot h n = _ := hd1 ▸ Dev.slot_updSlot_self _ _ _ _
  have hpushed : lane ∈ (d1.slot h n).pushed := by
    rw [hslot]
    dsimp only
    rw [if_neg (by simpa using hr)]
    exact List.mem_append_right _ (List.mem_singleton_self _)
  have hreply : (d1.slot h n).reply = (d.slot h n).reply := by rw [hslot]
  have hpc : (d1.slot h n).pc = (d.slot h n).pc := by rw [hslot]
  unfold Dev.pushDone
  dsimp only
  rw [← hd1, hreply, beq_false_of_ne hr]
  split
  · exact ⟨hpushed, hpc⟩
  · rw [if_neg Bool.false_ne_true]
    obtain ⟨o, r, st, t, y, hb, -⟩ := Dev.aside_wakeSlot d1 h n (fun w => w == .push) rfl h n
    rw [hb]
    exact ⟨hpushed, hpc⟩

/-- A queue that a push has entered, before the push is taken off what has come. -/
def TQ.entered (q : TQ) (x : Desc) (k : BitVec 20) (p : PushMsg) : TQ := { q with chip := insertDesc x q.chip, counter := k, waiting := q.waiting.erase p }

theorem Dev.lowerBound_eq (d : Dev) (lk pair : Nat) : (d.lowerBound lk pair).cores = d.cores ∧ (d.lowerBound lk pair).groups = d.groups := by
  unfold Dev.lowerBound Dev.updLaunch
  split <;> exact ⟨rfl, rfl⟩

/-- A queue with room on chip accepts a push under an identifier of its own. -/
theorem Dev.acceptPush_chip {d : Dev} {h : Nat} (hring : (d.core h).tq.ring = []) (hroom : (d.core h).tq.chip.length < 256) (m : Memory) (lk : Nat)
    {p : PushMsg} (hr : (d.slot p.h p.n).reply ≠ .stale) : ∃ id k e, d.acceptPush m h lk p = (e, .made) ∧ id.extractLsb' 20 12 = BitVec.ofNat 12 h ∧
      (e.core h).tq = (d.core h).tq.entered { p.d with id := id } k p ∧ e.groups = d.groups ∧ p.lane ∈ (e.slot p.h p.n).pushed ∧
      (e.slot p.h p.n).pc = (d.slot p.h p.n).pc := by
  obtain ⟨nid, hnid⟩ : ∃ nid, nid = nextId h (d.idsOf h lk) ((d.idsOf h lk).length + 1) (d.core h).tq.counter := ⟨_, rfl⟩
  obtain ⟨d1, hd1⟩ : ∃ d1, d1 = (d.updTq h (fun q => { q with chip := insertDesc { p.d with id := nid.1 } q.chip })).updTq h
    (fun q => { q with counter := nid.2, waiting := q.waiting.erase p }) := ⟨_, rfl⟩
  obtain ⟨d2, hd2⟩ : ∃ d2, d2 = d1.lowerBound lk (descPair { p.d with id := nid.1 }) := ⟨_, rfl⟩
  obtain ⟨hcores, hgroups⟩ := d1.lowerBound_eq lk (descPair { p.d with id := nid.1 })
  rw [← hd2] at hcores hgroups
  have hslot : d2.slot p.h p.n = d.slot p.h p.n := by
    rw [Dev.slot, Dev.core, hcores, ← Dev.core, ← Dev.slot, hd1, Dev.slot_updTq, Dev.slot_updTq]
  obtain ⟨htq, hg⟩ := d2.pushDone_tq p.h p.n p.lane h
  obtain ⟨hlane, hpc⟩ := Dev.pushDone_slot (d := d2) (h := p.h) (n := p.n) (by rw [hslot]; exact hr) p.lane
  refine ⟨nid.1, nid.2, d2.pushDone p.h p.n p.lane, ?_, hnid ▸ nextId_core _ _ _ _, ?_, ?_, hlane, hpc.trans (congrArg Slot.pc hslot)⟩
  · unfold Dev.acceptPush
    dsimp only
    rw [← hnid, Dev.place_chip hring hroom]
    dsimp only
    rw [hd2, hd1]
  · rw [htq, Dev.core, hcores, ← Dev.core, hd1, Dev.core_updTq_self, Dev.core_updTq_self]
    rfl
  · rw [hg, hgroups, hd1]
    rfl

/-- R195. -/
theorem taskPushArrival_event (p : PushMsg) : Event (.taskPushArrival p)
    (fun _ d => d.isSaved (d.slot p.h p.n).lk p.dst = false ∧ (d.core p.dst).tq.lk = some (d.slot p.h p.n).lk ∧ (d.core p.dst).tq.waiting = [] ∧
      (d.core p.dst).tq.requeue = [] ∧ (d.core p.dst).tq.inq = [] ∧ (d.core p.dst).tq.ring = [] ∧ d.ringWrites p.dst = false ∧
      (d.slot p.h p.n).reply ≠ .stale ∧
      (d.core p.dst).tq.chip.length < (d.core p.dst).tq.hi ∧ (d.core p.dst).tq.hi ≤ 255)
    (fun _ d e => ∃ id, (e.core p.dst).tq.chip = insertDesc { p.d with id := id } (d.core p.dst).tq.chip ∧
      id.extractLsb' 20 12 = BitVec.ofNat 12 p.dst ∧ p.lane ∈ (e.slot p.h p.n).pushed ∧ (e.slot p.h p.n).pc = (d.slot p.h p.n).pc) := by
  intro s ⟨hsaved, hlk, hwait, hreq, hinq, hring, hwrites, hreply, hlen, hhi⟩
  refine ⟨_, rfl, fun _ => rfl, ?_⟩
  dsimp only
  obtain ⟨d1, hd1⟩ : ∃ d1, d1 = (s.dev.updTq p.dst (fun q => { q with inq := q.inq ++ [p] })) := ⟨_, rfl⟩
  have hq1 : (d1.core p.dst).tq = { (s.dev.core p.dst).tq with inq := [p] } := by rw [hd1, Dev.core_updTq_self, hinq]; rfl
  have hl1 : d1.Level p.dst := Dev.level_of_ring_nil (by rw [hd1]; exact hwrites) (by rw [hq1]; exact hring) (by rw [hq1]; exact hlen.le)
  obtain ⟨d2, hd2⟩ : ∃ d2, d2 = d1.updTq p.dst TQ.steady := ⟨_, rfl⟩
  have hq2 : (d2.core p.dst).tq = { (s.dev.core p.dst).tq with inq := [p], filling := false } := by rw [hd2, Dev.core_updTq_self, hq1]; rfl
  have hslot2 : d2.slot p.h p.n = s.dev.slot p.h p.n := by rw [hd2, Dev.slot_updTq, hd1, Dev.slot_updTq]
  obtain ⟨id, k, e, hacc, hid, hqe, hge, hlane, hpc⟩ := Dev.acceptPush_chip (d := d2) (h := p.dst) (by rw [hq2]; exact hring) (by rw [hq2]; exact lt_of_lt_of_le hlen (by omega)) s.mem
    (s.dev.slot p.h p.n).lk (p := p) (by rw [hslot2]; exact hreply)
  obtain ⟨d3, hd3⟩ : ∃ d3, d3 = e.updTq p.dst (fun q => { q with inq := q.inq.drop 1 }) := ⟨_, rfl⟩
  have hlen' : (insertDesc { p.d with id := id } (s.dev.core p.dst).tq.chip).length = (s.dev.core p.dst).tq.chip.length + 1 := length_insertDesc _ _
  have hq3 : (d3.core p.dst).tq.ring = [] ∧ (d3.core p.dst).tq.chip = insertDesc { p.d with id := id } (s.dev.core p.dst).tq.chip ∧
      (d3.core p.dst).tq.hi = (s.dev.core p.dst).tq.hi := by
    rw [hd3, Dev.core_updTq_self, hqe, hq2]
    exact ⟨hring, rfl, rfl⟩
  obtain ⟨hring3, hchip3, hhi3⟩ := hq3
  have hl3 : d3.Level p.dst := by
    refine Dev.level_of_ring_nil ?_ hring3 ?_
    · unfold Dev.ringWrites
      rw [hd3, show (e.updTq _ _).groups = e.groups from rfl, hge, hd2, hd1]
      exact hwrites
    · rw [hchip3, hhi3, hlen']
      omega
  have hgo : (d1.serveQueue s.mem p.dst (s.dev.slot p.h p.n).lk).1 = d3.updTq p.dst TQ.steady := by
    unfold Dev.serveQueue
    rw [hl1.balance, ← hd2]
    dsimp only
    rw [hq2]
    dsimp only
    rw [hreq, hwait]
    simp only [List.map_nil, List.map_cons, List.nil_append, List.foldl_cons, List.foldl_nil]
    rw [if_neg Bool.false_ne_true]
    unfold Dev.takeOne
    dsimp only
    rw [hacc]
    dsimp only
    rw [← hd3, hl3.balance]
  rw [hsaved, if_neg Bool.false_ne_true, hlk, if_neg (by simp), ← hd1, hgo, Dev.core_updTq_self, Dev.slot_updTq, hd3, Dev.slot_updTq]
  refine ⟨id, hd3 ▸ hchip3, hid, hlane, hpc.trans (congrArg Slot.pc hslot2)⟩

/-! ### Spills and refills (R194, R325) -/

/-- The unit serves the launch, takes up nothing, and tries no page again later. -/
structure Dev.Calm (d : Dev) (h lk : Nat) : Prop where
  lk : (d.core h).tq.lk = some lk
  waiting : (d.core h).tq.waiting = []
  requeue : (d.core h).tq.requeue = []
  inq : (d.core h).tq.inq = []
  writes : d.ringWrites h = false
  retry : ∀ e, e ∈ (d.core h).tq.retry → e.2 ≤ d.clock

theorem Dev.Calm.idle {d : Dev} {h lk : Nat} (hc : d.Calm h lk) : (d.core h).tq.Idle := ⟨hc.requeue, hc.waiting, hc.inq⟩

/-- A ring address that translates is reached: caches fill, and the queue stands but for the pages it tries again. -/
theorem Dev.ringAt_ok {d : Dev} {h lk pa : Nat} {m : Memory} {need : Right} {va : W64} {lf : Leaf} (hc : d.Calm h lk) (hw : isWindow va = false)
    (ht : d.translate m (d.agentWho h lk) [need] va = .ok pa lf) : ∃ r : List (Nat × Nat) → List (Nat × Nat), d.ringAt m h lk need va =
      ((d.fillPlb m (d.agentWho h lk) lf.dom).updTq h (fun q => { q with retry := r q.retry }), some pa, .made) := by
  refine ⟨fun l => l.filter (fun e => e.1 != va.toNat / 4096), ?_⟩
  have hretry : (d.core h).tq.retry.any (fun e => e.1 == va.toNat / 4096 && decide (d.clock < e.2)) = false := by
    rw [List.any_eq_false]
    intro e he
    rw [decide_eq_false (Nat.not_lt.mpr (hc.retry e he)), Bool.and_false]
    exact Bool.false_ne_true
  unfold Dev.ringAt
  dsimp only
  rw [hretry, if_neg Bool.false_ne_true, hw, if_neg Bool.false_ne_true, ht]

/-- A unit that may spill. -/
structure Dev.Spills (m : Memory) (d : Dev) (h lk pa : Nat) (x : Desc) (lf : Leaf) : Prop where
  calm : d.Calm h lk
  window : isWindow (d.core h).tq.rbase = false
  above : (d.core h).tq.hi < (d.core h).tq.chip.length
  ring : (d.core h).tq.ring = []
  room : 0 < (d.core h).tq.rsize
  highest : (d.core h).tq.chip.getLast? = some x
  mapped : d.translate m (d.agentWho h lk) [.w] (d.core h).tq.rbase = .ok pa lf
  alone : ∀ g, g ∈ d.groups → g.phase ≠ .waiting

theorem Dev.Spills.due {m : Memory} {d : Dev} {h lk pa : Nat} {x : Desc} {lf : Leaf} (hs : Dev.Spills m d h lk pa x lf) : (d.core h).tq.spillDue = true := by
  unfold TQ.spillDue TQ.room
  rw [decide_eq_true hs.above, hs.ring, decide_eq_true (show ([] : List RingEnt).length < _ from hs.room)]
  rfl

/-- A spill puts the descriptor of highest pair into the ring. -/
theorem Dev.Spills.spillOne {m : Memory} {d : Dev} {h lk pa : Nat} {x : Desc} {lf : Leaf} (hs : Dev.Spills m d h lk pa x lf) : ∃ e,
    d.spillOne m h lk = (e, .made) ∧ e.ringWrites h = true ∧ (e.core h).tq.Idle ∧ (e.core h).tq.chip = (d.core h).tq.chip.erase x ∧
    (e.core h).tq.ring = [⟨0, x.ts, x.parent, x.id, descRr x⟩] := by
  have hpos : (d.core h).tq.freePos = some 0 := by
    unfold TQ.freePos
    rw [hs.ring]
    simp [List.range_succ, hs.room]
  have haddr : (d.core h).tq.addr 0 = (d.core h).tq.rbase := by
    unfold TQ.addr
    simp
  obtain ⟨r, hr⟩ := Dev.ringAt_ok hs.calm hs.window hs.mapped
  obtain ⟨d1, hd1⟩ : ∃ d1, d1 = (d.fillPlb m (d.agentWho h lk) lf.dom).updTq h (fun q => { q with retry := r q.retry }) := ⟨_, rfl⟩
  have hfill := d.filled_fillPlb m (d.agentWho h lk) lf.dom
  obtain ⟨p, hp⟩ := hfill.core
  have hq1 : (d1.core h).tq = { (d.core h).tq with retry := r (d.core h).tq.retry } := by
    rw [hd1, Dev.core_updTq_self, show (d.fillPlb m (d.agentWho h lk) lf.dom).core h = _ from hp]
    rfl
  have hg1 : d1.groups = d.groups := by
    rw [hd1]
    exact (congrArg Dev.groups hfill.quays.calm :)
  obtain ⟨d2, hd2⟩ : ∃ d2, d2 = d1.updTq h (fun q => { q with ring := insertEnt ⟨0, x.ts, x.parent, x.id, descRr x⟩ q.ring }) := ⟨_, rfl⟩
  have hq2 : (d2.core h).tq = { (d.core h).tq with retry := r (d.core h).tq.retry, ring := [⟨0, x.ts, x.parent, x.id, descRr x⟩] } := by
    rw [hd2, Dev.core_updTq_self, hq1]
    dsimp only
    rw [hs.ring]
    rfl
  obtain ⟨l, fn, d3, hl, hd3⟩ : ∃ (l : GLine) (fn : Nat) (d3 : Dev), l.rec_ = none ∧ d3 = d2.addGroup m [l] fn h none [.ring h] ∧ d1.ringWrite m h lk 0 pa x = d3 := by
    unfold Dev.ringWrite
    dsimp only
    rw [← hd2]
    exact ⟨_, _, _, rfl, rfl, rfl⟩
  obtain ⟨hd3, hwrite⟩ := hd3
  have hcores3 : d3.cores = d2.cores := by
    rw [hd3]
    exact Dev.cores_addGroup_lone (by rw [hd2]; exact hg1 ▸ hs.alone) m (List.cons_ne_nil _ _) _ _ _
  have hq3 : (d3.core h).tq = (d2.core h).tq := by rw [Dev.core, hcores3, ← Dev.core]
  have hwrites3 : d3.ringWrites h = true := by
    obtain ⟨g, hg, -, hfin, -⟩ := Dev.addGroup_one d2 m hl fn h none [.ring h]
    rw [← hd3] at hg
    exact List.any_eq_true.mpr ⟨g, hg, by rw [hfin]; simp⟩
  refine ⟨d3.updTq h (fun q => { q with chip := q.chip.erase x }), ?_, hwrites3, ?_, ?_, ?_⟩
  · unfold Dev.spillOne
    dsimp only
    rw [hs.due, if_neg (by decide), hs.highest]
    dsimp only
    unfold Dev.ringPut
    dsimp only
    rw [hpos]
    dsimp only
    rw [haddr, hr]
    dsimp only
    rw [← hd1, hwrite]
  all_goals rw [Dev.core_updTq_self, hq3, hq2]
  · exact ⟨hs.calm.requeue, hs.calm.waiting, hs.calm.inq⟩

theorem spill_event (h lk pa : Nat) (x : Desc) (lf : Leaf) (i : Instr) (hi : i = .spill h ∨ i = .ringAccessRetry h) : Event i
    (fun m d => Dev.Spills m d h lk pa x lf)
    (fun _ d e => (e.core h).tq.chip = (d.core h).tq.chip.erase x ∧ ∃ r, (e.core h).tq.ring = [r] ∧ r.pos = 0 ∧ r.ts = x.ts ∧ r.id = x.id ∧ r.parent = x.parent) := by
  intro s hs
  obtain ⟨e, he, hwrites, hidle, hchip, hring⟩ := hs.spillOne
  have hserve : ∀ b : Bool, ((((e.core h).tq.requeue.map Take.again ++ (e.core h).tq.waiting.map Take.waiting ++ (e.core h).tq.inq.map Take.come).foldl
    (fun a t => if a.2 then a else Dev.takeOne s.mem h lk a.1 t) (e, b))).1 = e := by
    intro b
    rw [hidle.requeue, hidle.waiting, hidle.inq]
    rfl
  have hend : ∃ t, exec i s = .next ⟨s.mem, t⟩ ∧ t = e := by
    rcases hi with rfl | rfl
    · refine ⟨_, rfl, ?_⟩
      dsimp only
      rw [hs.calm.lk]
      dsimp only
      rw [hs.calm.writes, if_neg Bool.false_ne_true, he]
      unfold Dev.serveQueue Dev.balance
      dsimp only
      rw [hwrites, if_pos rfl]
      exact hserve true
    · refine ⟨_, rfl, ?_⟩
      dsimp only
      rw [hs.calm.lk]
      dsimp only
      unfold Dev.serveQueue Dev.balance
      dsimp only
      rw [hs.calm.writes, if_neg Bool.false_ne_true, hs.due, if_pos rfl, he]
      exact hserve _
  obtain ⟨t, ht, rfl⟩ := hend
  exact ⟨_, ht, fun _ => rfl, hchip, _, hring, rfl, rfl, rfl, rfl⟩

theorem ringRetry_event (h lk : Nat) : Event (.ringAccessRetry h)
    (fun _ d => d.Calm h lk ∧ (d.core h).tq.ring = [] ∧ (d.core h).tq.chip.length ≤ (d.core h).tq.hi)
    (fun _ d e => (e.core h).tq = { (d.core h).tq with filling := false } ∧ d.sameSlots e) := by
  intro s ⟨hc, hring, hhi⟩
  refine ⟨_, rfl, fun _ => rfl, ?_⟩
  dsimp only
  rw [hc.lk]
  dsimp only
  rw [(Dev.level_of_ring_nil hc.writes hring hhi).serveQueue hc.idle]
  exact ⟨(congrArg Core.tq (Dev.core_updTq_self s.dev h TQ.steady) :).trans (by rw [← hc.lk]; rfl), fun j n => Dev.slot_updTq _ _ _ j n⟩

theorem Dev.quay_isSome_updTq (d : Dev) (h : Nat) (f : TQ → TQ) (fn pa : Nat) (write : Bool) :
    ((d.updTq h f).quay fn pa write).isSome = (d.quay fn pa write).isSome :=
  Dev.quay_isSome_of (d := d) (e := d.updTq h f) rfl rfl (fun _ => rfl) fn pa write

/-- A unit that may move its ring's lowest descriptor on chip, and no other after it. -/
structure Dev.Refills (m : Memory) (d : Dev) (h lk pa : Nat) (e : RingEnt) (rest : List RingEnt) (l : Launch) (lf : Leaf) : Prop where
  calm : d.Calm h lk
  ring : (d.core h).tq.ring = e :: rest
  below : (d.core h).tq.chip.length < (d.core h).tq.lo
  launch : d.launch? lk = some l
  room : (d.core h).tq.chip.length < (d.core h).tq.hi
  last : rest = [] ∨ (d.core h).tq.lo ≤ (d.core h).tq.chip.length + 1 ∧ ((d.core h).tq.hi + (d.core h).tq.lo) / 2 ≤ (d.core h).tq.chip.length + 1
  window : isWindow ((d.core h).tq.addr e.pos) = false
  mapped : d.translate m (d.agentWho h lk) [.r] ((d.core h).tq.addr e.pos) = .ok pa lf
  free : d.pending pa = false
  way : ((d.fillPlb m (d.agentWho h lk) lf.dom).quay (d.fnOf lk) pa false).isSome = true
  good : l.refillOk (m.w32 pa) = true

/-- A descriptor as it is read back from the ring. -/
def RingEnt.read (m : Memory) (pa : Nat) (e : RingEnt) : Desc :=
  ⟨(m.w32 pa &&& 0x00FFFFFF#32) ||| (if e.rr then 0x20000000#32 else 0#32), e.ts, m.w32 (pa + 8), m.w32 (pa + 12), m.w32 (pa + 16), m.w32 (pa + 20),
    e.parent, e.id⟩

/-- The lowest descriptor of the ring is taken on chip. -/
theorem Dev.Refills.ringTake {m : Memory} {d : Dev} {h lk pa : Nat} {e : RingEnt} {rest : List RingEnt} {l : Launch} {lf : Leaf}
    (hr : Dev.Refills m d h lk pa e rest l lf) : ∃ f r, d.ringTake m h lk = (f, .made) ∧ f.groups = d.groups ∧
      (f.core h).tq = { (d.core h).tq with retry := r, ring := rest, chip := insertDesc (e.read m pa) (d.core h).tq.chip } := by
  obtain ⟨r, hat⟩ := Dev.ringAt_ok hr.calm hr.window hr.mapped
  obtain ⟨d1, hd1⟩ : ∃ d1, d1 = (d.fillPlb m (d.agentWho h lk) lf.dom).updTq h (fun q => { q with retry := r q.retry }) := ⟨_, rfl⟩
  have hfill := d.filled_fillPlb m (d.agentWho h lk) lf.dom
  obtain ⟨p, hp⟩ := hfill.core
  have hq1 : (d1.core h).tq = { (d.core h).tq with retry := r (d.core h).tq.retry } := by
    rw [hd1, Dev.core_updTq_self, show (d.fillPlb m (d.agentWho h lk) lf.dom).core h = _ from hp]
    rfl
  have hcalm1 : d1.calm = d.calm := by
    rw [hd1]
    exact hfill.quays.calm
  have hpend1 : d1.pending pa = d.pending pa := by
    unfold Dev.pending Dev.home
    rw [show d1.homes = d.homes from (congrArg Dev.homes hcalm1 :)]
  have hfn1 : d1.fnOf lk = d.fnOf lk := by
    unfold Dev.fnOf Dev.terrace
    rw [show d1.terr = d.terr from (congrArg Dev.terr hcalm1 :)]
  obtain ⟨d2, hd2⟩ : ∃ d2, d1.quay (d.fnOf lk) pa false = some d2 := by
    refine Option.isSome_iff_exists.mp (Eq.trans ?_ hr.way)
    rw [hd1]
    exact Dev.quay_isSome_updTq _ _ _ _ _ _
  have hquay := Dev.quay_quaysOnly hd2
  have hl2 : d2.launch? lk = some l := by
    refine Eq.trans ?_ hr.launch
    unfold Dev.launch?
    rw [show d2.launches = d.launches from (congrArg Dev.launches (hquay.calm.trans hcalm1) :)]
  have hq2 : (d2.core h).tq = { (d.core h).tq with retry := r (d.core h).tq.retry } := by rw [hquay.core, hq1]
  have hread : d2.ringRead m h lk pa e = d2.updTq h (fun q => { q with ring := q.ring.erase e, chip := insertDesc (e.read m pa) q.chip }) := by
    unfold Dev.ringRead
    dsimp only
    rw [hl2, Option.map_some, Option.getD_some, show l.refillOk (m.w32 (pa + 4 * 0)) = true from hr.good]
    rfl
  refine ⟨d2.updTq h (fun q => { q with ring := q.ring.erase e, chip := insertDesc (e.read m pa) q.chip }), r (d.core h).tq.retry, ?_, ?_, ?_⟩
  · unfold Dev.ringTake
    rw [hr.ring]
    dsimp only
    rw [hat, ← hd1]
    dsimp only
    rw [hpend1, hr.free, if_neg Bool.false_ne_true, hfn1, hd2]
    dsimp only
    rw [hread]
  · exact (congrArg Dev.groups (hquay.calm.trans hcalm1) :)
  · rw [Dev.core_updTq_self, hq2]
    dsimp only
    rw [hr.ring, List.erase_cons_head]

theorem and_or_mask (a : W32) (b : Bool) : ((a &&& 0x00FFFFFF#32) ||| (if b then 0x20000000#32 else 0#32)) &&& 0x00FFFFFF#32 = a &&& 0x00FFFFFF#32 := by
  have hmask : (if b then 0x20000000#32 else 0#32) &&& 0x00FFFFFF#32 = 0#32 := by cases b <;> decide
  have ha : 0x00FFFFFF#32 &&& (a &&& 0x00FFFFFF#32) = a &&& 0x00FFFFFF#32 := by rw [BitVec.and_comm a, ← BitVec.and_assoc, BitVec.and_self]
  rw [BitVec.and_comm, BitVec.and_or_distrib_left, ha, BitVec.and_comm 0x00FFFFFF#32, hmask, BitVec.or_zero]

theorem ringRefill_event (h lk pa : Nat) (e : RingEnt) (rest : List RingEnt) (lf : Leaf) (l : Launch) : Event (.ringRefill h)
    (fun m d => Dev.Refills m d h lk pa e rest l lf)
    (fun m d f => (f.core h).tq.ring = rest ∧ ∃ y, (f.core h).tq.chip = insertDesc y (d.core h).tq.chip ∧ y.ts = e.ts ∧ y.id = e.id ∧ y.parent = e.parent ∧
      y.w0 &&& 0x00FFFFFF#32 = m.w32 pa &&& 0x00FFFFFF#32 ∧ y.a1 = m.w32 (pa + 8) ∧ y.a2 = m.w32 (pa + 12) ∧ y.a3 = m.w32 (pa + 16) ∧
      y.a4 = m.w32 (pa + 20)) := by
  intro s hr
  refine ⟨_, rfl, fun _ => rfl, ?_⟩
  dsimp only
  obtain ⟨f, r, hf, hgroups, hq⟩ := hr.ringTake
  have hdue : (s.dev.core h).tq.refillDue = true := by
    unfold TQ.refillDue
    rw [hr.ring, decide_eq_true hr.below]
    rfl
  have hlen : (insertDesc (e.read s.mem pa) (s.dev.core h).tq.chip).length = (s.dev.core h).tq.chip.length + 1 := length_insertDesc _ _
  obtain ⟨g, hg⟩ : ∃ g, g = f.updTq h (fun q => { q with filling := decide (q.chip.length < (q.hi + q.lo) / 2) && !q.ring.isEmpty }) := ⟨_, rfl⟩
  have hqg : (g.core h).tq = { (s.dev.core h).tq with retry := r, ring := rest, chip := insertDesc (e.read s.mem pa) (s.dev.core h).tq.chip, filling := false } := by
    rw [hg, Dev.core_updTq_self, hq]
    dsimp only
    have hfilling : (decide ((insertDesc (e.read s.mem pa) (s.dev.core h).tq.chip).length < ((s.dev.core h).tq.hi + (s.dev.core h).tq.lo) / 2) && !rest.isEmpty) = false := by
      rw [hlen]
      rcases hr.last with hrest | ⟨-, hhalf⟩
      · rw [hrest]
        simp
      · rw [decide_eq_false (by omega), Bool.false_and]
    rw [hfilling]
  have hlevel : g.Level h := by
    refine ⟨?_, ?_, ?_⟩
    · unfold Dev.ringWrites
      rw [hg, show (f.updTq _ _).groups = f.groups from rfl, hgroups]
      exact hr.calm.writes
    · unfold TQ.spillDue
      rw [hqg]
      dsimp only
      rw [hlen, decide_eq_false (by have := hr.room; omega), Bool.false_and]
    · unfold TQ.refillDue
      rw [hqg]
      dsimp only
      rw [hlen, Bool.false_and, Bool.or_false]
      rcases hr.last with hrest | ⟨hlo, -⟩
      · rw [hrest]
        rfl
      · rw [decide_eq_false (by omega), Bool.and_false]
  have hidle : (g.core h).tq.Idle := by
    rw [hqg]
    exact ⟨hr.calm.requeue, hr.calm.waiting, hr.calm.inq⟩
  have hone : (s.dev.refillOne s.mem h lk).1 = g := by
    unfold Dev.refillOne
    rw [hdue, if_neg (by decide), hf, hg]
  rw [hr.calm.lk]
  dsimp only
  rw [hr.calm.writes, if_neg Bool.false_ne_true, hone, hlevel.serveQueue hidle, Dev.core_updTq_self]
  dsimp only [TQ.steady]
  rw [hqg]
  exact ⟨rfl, _, rfl, rfl, rfl, rfl, and_or_mask _ _, rfl, rfl, rfl, rfl⟩

/-- Settles O27. -/
theorem taskQueues : Obligations.TaskQueues := by
  refine ⟨fun v a d l => ⟨tqcfg_acts v l, tqstat_reads a d⟩, fun km v cc b p l => ⟨tqpush_sends v b l, tqpush_completes v b, tqpushv_completes km v cc b,
    taskPushArrival_event p⟩, fun h lk pa x e rest lf l => ⟨fun i hi s ⟨hw, ⟨h1, h2, h3, h4, h5, h6⟩, habove, hring, hroom, hx, ht, hg⟩ => ?_,
    fun s ⟨⟨h1, h2, h3, h4, h5, h6⟩, hring, hlo, hl, hhi, hlast, hw, ht, hp, hq, hok⟩ => ?_, fun s ⟨⟨h1, h2, h3, h4, h5, h6⟩, hring, hhi⟩ => ?_⟩⟩
  · exact spill_event h lk pa x lf i hi s ⟨⟨h1, h2, h3, h4, h5, h6⟩, hw, habove, hring, hroom, hx, ht, hg⟩
  · exact ringRefill_event h lk pa e rest lf l s ⟨⟨h1, h2, h3, h4, h5, h6⟩, hring, hlo, hl, hhi, hlast, hw, ht, hp, hq, hok⟩
  · exact ringRetry_event h lk s ⟨⟨h1, h2, h3, h4, h5, h6⟩, hring, hhi⟩

end Sys2Proof.Machine
end

section
/-! PROOFS. Mailboxes (O30). -/

namespace Sys2Proof.Machine

/-! ## Mailboxes (R210 to R212) -/

/-! ### mbsend -/

/-- mbsend, as a form of R174. -/
def mbsendBody (v : VReg) (b : AReg) (c : Ctx) : Res :=
  let r := c.s.A b.toNat
  let t := terrOf c.s.lk
  let bad : Res := c.faultAt 0x52 9 r
  match c.s.reply with
  | .done _ => .done c.d
  | .fail cause sub => c.faultAt cause sub r
  | .sent | .stale => .wait c.d .message
  | .idle =>
    if !c.s.closed && (decide (2 ^ 16 ≤ r.toNat) || !c.d.rankOk t r.toNat) then bad
    else c.release (fun c =>
      let dst := if r.toNat = 0xFFFE then ((c.d.launch? c.s.lk).map Launch.mailbox).getD 0xFFFE else r.toNat
      let dt := if r.toNat = 0xFFFE then ((c.d.launch? c.s.lk).map Launch.mailTerr).getD t else t
      let d := c.d.updSlot c.h c.n (fun s => { s with reply := .sent })
      .wait (d.send 0 (.messageArrival ⟨dt, dst, c.s.V v.toNat, d.senderRank c.h c.n, c.h, some (c.h, c.n), none⟩)) .message)

theorem exec_mbsend (v : VReg) (b : AReg) (s : State) : exec (.mbsend v b) s = thread (useV [v] [rv v, ra b]) (fun c => c.unspec (mbsendBody v b)) s := by
  unfold exec execMbsend specForm
  rfl

theorem rankOk_of_valid {d : Dev} {t r : Nat} (hr : r < 4096) : d.rankOk t r = rankV (d.rankEnt t r) := by
  unfold Dev.rankOk
  have h1 : (r == 0xFFFF) = false := by simp; omega
  have h2 : (r == 0xFFFE) = false := by simp; omega
  rw [h1, h2, decide_eq_true hr]
  rfl

/-- The device once a first mbsend has its slot's group closed and its request marked as sent. -/
def Ctx.mailing (c : Ctx) : Dev := (c.d.setSlot c.h c.n { c.s with closed := true }).updSlot c.h c.n (fun s => { s with reply := .sent })

/-- The message that a first mbsend sends: dest and sender. -/
def Ctx.mail (c : Ctx) (v : VReg) (b : AReg) : Msg :=
  ⟨terrOf c.s.lk, (c.s.A b.toNat).toNat, c.s.V v.toNat, c.mailing.senderRank c.h c.n, c.h, some (c.h, c.n), none⟩

/-- The message that a first mbsend sends, to a valid rank. -/
theorem mbsendBody_first {v : VReg} {b : AReg} {c : Ctx} (hc : c.Ready) (hq : c.quiet) (hi : c.s.reply = .idle) (hr : (c.s.A b.toNat).toNat < 4096)
    (hv : rankV (c.d.rankEnt (terrOf c.s.lk) (c.s.A b.toNat).toNat) = true) :
    mbsendBody v b c = .wait (c.mailing.send 0 (.messageArrival (c.mail v b))) .message := by
  unfold mbsendBody
  dsimp only
  rw [hi]
  dsimp only
  have hbad : (decide (2 ^ 16 ≤ (c.s.A b.toNat).toNat) || !c.d.rankOk (terrOf c.s.lk) (c.s.A b.toNat).toNat) = false := by
    rw [rankOk_of_valid hr, hv, decide_eq_false (by omega)]
    rfl
  rw [hbad, Bool.and_false, if_neg Bool.false_ne_true, hq.release hc]
  dsimp only
  rw [if_neg (show ¬(c.s.A b.toNat).toNat = 0xFFFE by omega), if_neg (show ¬(c.s.A b.toNat).toNat = 0xFFFE by omega)]
  rfl

theorem mbsend_waits (v : VReg) (b : AReg) : WaitsWhen (.mbsend v b) (useV [v] [rv v, ra b])
    (fun c => c.quiet ∧ c.s.reply = .idle ∧ (c.s.A b.toNat).toNat < 4096 ∧ rankV (c.d.rankEnt (terrOf c.s.lk) (c.s.A b.toNat).toNat) = true)
    (fun _ => .message) := by
  refine waitsWhen_of (exec_mbsend v b) (fun c hc ⟨hq, hi, hr, hv⟩ => ?_)
  refine ⟨_, (hq.sure.unspec _).trans (mbsendBody_first hc hq hi hr hv), ?_⟩
  rw [show (c.mailing.send 0 (.messageArrival (c.mail v b))).slot c.h c.n = c.mailing.slot c.h c.n from rfl, Ctx.mailing, Dev.slot_updSlot_self,
    Dev.slot_setSlot_self]
  exact ⟨rfl, .of_files rfl rfl rfl⟩

theorem mbsend_sends (v : VReg) (b : AReg) (s : State) (h n : Nat) (w : W64) (hi : s.issues h n w (useV [v] [rv v, ra b]))
    (hf : (s.ctx h n w).quiet ∧ (s.ctx h n w).s.reply = .idle ∧ ((s.ctx h n w).s.A b.toNat).toNat < 4096 ∧
      rankV ((s.ctx h n w).d.rankEnt (terrOf (s.ctx h n w).s.lk) ((s.ctx h n w).s.A b.toNat).toNat) = true) :
    ∃ t, exec (.mbsend v b) s = .next t ∧ ∃ x, t.dev.coming s.dev.clock (.messageArrival x) ∧ x.data = (s.dev.slot h n).V v.toNat ∧
      x.rank = ((s.ctx h n w).s.A b.toNat).toNat ∧ x.terr = terrOf (s.dev.slot h n).lk ∧ x.sCore = h ∧ x.waiter = some (h, n) := by
  obtain ⟨hq, hidle, hr, hv⟩ := hf
  have hsent := Dev.coming_send (s.ctx h n w).mailing 0 (.messageArrival ((s.ctx h n w).mail v b))
  refine ⟨⟨s.mem, ((s.ctx h n w).mailing.send 0 (.messageArrival ((s.ctx h n w).mail v b))).updSlot h n
    (fun x => { x with st := .waiting .message, readyAt := s.dev.clock })⟩, ?_, (s.ctx h n w).mail v b, hsent, rfl, rfl, rfl, rfl, rfl⟩
  rw [exec_mbsend, thread_issues _ _ s h n w hi, hq.sure.unspec, mbsendBody_first hi.ready hq hidle hr hv]
  rfl

theorem mbsend_completes (v : VReg) (b : AReg) (x : W64) : CompletesWhen (.mbsend v b) (useV [v] [rv v, ra b])
    (fun c => c.sure ∧ c.s.reply = .done x) [] [] [] (fun c s => s.pc = c.s.pc + 8#64) := by
  refine completesWhen_of (exec_mbsend v b) (fun c hc ⟨hs, hr⟩ => ⟨c.d, c.s, c.s.pc + 8#64, ?_, .refl hc, .refl _, ?_⟩)
  · rw [hs.unspec, show mbsendBody v b c = .done c.d by unfold mbsendBody; dsimp only; rw [hr]]
    rfl
  · rfl

theorem mbsend_traps (v : VReg) (b : AReg) : TrapsWhen (.mbsend v b) (useV [v] [rv v, ra b])
    (fun c => c.sure ∧ c.s.closed = false ∧ c.s.reply = .idle ∧ (c.s.A b.toNat).toNat < 4096 ∧
      rankV (c.d.rankEnt (terrOf c.s.lk) (c.s.A b.toNat).toNat) = false) 0x52 (fun _ => 9) (fun c => c.s.A b.toNat) := by
  refine trapsWhen_of (exec_mbsend v b) (fun c _ ⟨hs, hcl, hi, hr, hv⟩ => ⟨Config.freeLanes c.d.count, ?_⟩)
  rw [hs.unspec]
  unfold mbsendBody
  dsimp only
  rw [hi]
  dsimp only
  rw [hcl, rankOk_of_valid hr, hv, if_pos (by simp)]
  rfl

/-! ### Acceptance -/

theorem Core.inbox_of_bare {k p : Core} (h : k.bare = p.bare) : k.inbox = p.inbox := (congrArg Core.inbox h :)

/-- A core with one more message in its inbox, or with one taken from it. -/
def Core.getMail (x : InMsg) (c : Core) : Core := { c with inbox := c.inbox ++ [x] }
def Core.takeMail (x : InMsg) (c : Core) : Core := { c with inbox := c.inbox.erase x }

/-- The sender of an accepted message has its answer, and no inbox changes. -/
theorem Dev.mailDone_spec (d : Dev) (g : Msg) (h : Nat) : ((d.mailDone g).core h).inbox = (d.core h).inbox ∧
    ∀ x y, g.waiter = some (x, y) → x < nCores → (d.slot x y).reply ≠ .stale → ((d.mailDone g).slot x y).reply = .done 0#64 := by
  have hhost : ∀ (e : Dev), (match g.host with | some f => e.updFunc f (fun x => { x with busy := false }) | none => e).cores = e.cores := by
    intro e
    cases g.host <;> rfl
  have hcore : ∀ j, (d.mailDone g).core j = ((g.waiter.elim d (fun w => d.reply w.1 w.2 (.done 0#64))).core j) := by
    intro j
    unfold Dev.mailDone
    cases g.waiter with
    | none => exact congrArg (AMap.get Core.init · j) (hhost d)
    | some w => exact congrArg (AMap.get Core.init · j) (hhost _)
  refine ⟨?_, fun x y hw hx hr => ?_⟩
  · rw [hcore]
    cases g.waiter with
    | none => rfl
    | some w => exact Core.inbox_of_bare (Dev.bare_core_reply d w.1 w.2 (.done 0#64) h)
  · rw [Dev.slot, hcore, hw]
    exact Dev.reply_reply hx hr _

theorem mail_arrives (g : Msg) (h : Nat) (i : Instr) (hi : ∀ s, exec i s = onMem (fun mem d => d.mailArrive mem g) s) : Event i
    (fun _ d => g.rank < 4096 ∧ rankV (d.rankEnt g.terr g.rank) = true ∧ rankIt (d.rankEnt g.terr g.rank) = false ∧
      rankCore (d.rankEnt g.terr g.rank) = h ∧ (d.core h).inbox.length < 64)
    (fun _ d e => (e.core h).inbox = (d.core h).inbox ++ [⟨g.terr, g.rank, g.sRank, g.sCore, g.data⟩] ∧
      ∀ x y, g.waiter = some (x, y) → x < nCores → (d.slot x y).reply ≠ .stale → (e.slot x y).reply = .done 0#64) := by
  intro s ⟨hr, hv, hit, hcore, hroom⟩
  have hto : s.dev.mailTo g = .inbox h := by
    unfold Dev.mailTo
    dsimp only
    rw [if_neg (by omega), if_neg (by omega), if_neg (by omega), hv, hit, hcore]
    rfl
  obtain ⟨d1, hd1⟩ : ∃ d1, d1 = s.dev.updCore h (Core.getMail ⟨g.terr, g.rank, g.sRank, g.sCore, g.data⟩) := ⟨_, rfl⟩
  obtain ⟨d2, hd2⟩ : ∃ d2, d2 = d1.wake h (fun _ _ w => w == .mailbox) := ⟨_, rfl⟩
  have harr : s.dev.mailArrive s.mem g = ([], d2.mailDone g) := by
    unfold Dev.mailArrive
    rw [hto]
    dsimp only
    rw [if_neg (by omega), hd2, hd1]
    rfl
  have hinbox : (d2.core h).inbox = (s.dev.core h).inbox ++ [⟨g.terr, g.rank, g.sRank, g.sCore, g.data⟩] := by
    rw [hd2, Core.inbox_of_bare (Dev.bare_core_wake d1 h _ h), hd1, Dev.core_updCore_self]
    rfl
  have hreply : ∀ x y, (d2.slot x y).reply = (s.dev.slot x y).reply := by
    intro x y
    rw [hd2, (Dev.slot_wake d1 h _ x y).reply, hd1]
    exact congrArg Slot.reply (Dev.slot_updCore_of (f := Core.getMail ⟨g.terr, g.rank, g.sRank, g.sCore, g.data⟩) (fun _ _ => rfl) s.dev h x y)
  obtain ⟨hin, hans⟩ := Dev.mailDone_spec d2 g h
  refine ⟨⟨s.mem, d2.mailDone g⟩, ?_, fun _ => rfl, hin.trans hinbox, fun x y hw hx hst => hans x y hw hx (by rw [hreply]; exact hst)⟩
  rw [hi]
  show Host.Outcome.next (State.mk (s.mem.writeAll (s.dev.mailArrive s.mem g).1) (s.dev.mailArrive s.mem g).2) = _
  rw [harr]
  rfl

/-! ### mbrecv and mbpoll -/

theorem InMsg.status_eq (m : InMsg) : m.status = BitVec.ofNat 64 (m.sRank % 2 ^ 16 + 2 ^ 16 * (m.sCore % 2 ^ 16) + 2 ^ 32 + 2 ^ 48 * (m.rank % 2 ^ 16)) := by
  apply BitVec.eq_of_toNat_eq
  unfold InMsg.status
  rw [toNat_append_add, toNat_append_add, toNat_append_add]
  simp only [BitVec.toNat_ofNat]
  omega

section Receive
variable {i : Instr} {v : VReg} {a : AReg} {empty : Ctx → Res}

theorem receive_acts (he : ∀ s, exec i s = receive v a empty s) (m : InMsg) : Acts i (useV [v] [wv v, wa a])
    (fun c => c.d.mailRanks c.h c.n ≠ [] ∧ c.oldestMail = some m ∧ c.s.loading = false) [a.toNat] [v.toNat] []
    (fun c e => (e.slot c.h c.n).V v.toNat = m.data ∧ (e.core c.h).inbox = (c.d.core c.h).inbox.erase m ∧
      (a ≠ 0#4 → (e.slot c.h c.n).A a.toNat =
        BitVec.ofNat 64 (m.sRank % 2 ^ 16 + 2 ^ 16 * (m.sCore % 2 ^ 16) + 2 ^ 32 + 2 ^ 48 * (m.rank % 2 ^ 16)))) := by
  refine acts_of he (fun c hc ⟨hranks, hm, hload⟩ => ?_)
  obtain ⟨d1, hd1⟩ : ∃ d1, d1 = (c.d.updCore c.h Core.acquire).setSlot c.h c.n ((c.s.setV v.toNat m.data).setA a.toNat m.status) := ⟨_, rfl⟩
  obtain ⟨d2, hd2⟩ : ∃ d2, d2 = d1.updCore c.h (Core.takeMail m) := ⟨_, rfl⟩
  have hslot : d2.slot c.h c.n = (c.s.setV v.toNat m.data).setA a.toNat m.status := by
    rw [hd2]
    refine (Dev.slot_updCore_of (f := Core.takeMail m) (fun _ _ => rfl) d1 c.h c.h c.n).trans ?_
    rw [hd1, Dev.slot_setSlot_self]
  have hinbox : (d2.core c.h).inbox = (c.d.core c.h).inbox.erase m := by
    rw [hd2, Dev.core_updCore_self]
    show (d1.core c.h).inbox.erase m = _
    rw [hd1, Dev.setSlot, Core.inbox_of_bare (Dev.core_updSlot_bare (c.d.updCore c.h Core.acquire) c.h c.n c.h _), Dev.core_updCore_self]
    rfl
  refine ⟨d2, ?_, ?_, ?_, ?_, fun ha => ?_⟩
  · rw [if_neg (by simpa using hranks), hm]
    dsimp only
    unfold Ctx.acquire
    rw [hload, if_neg Bool.false_ne_true, if_pos rfl, hd2, hd1]
    rfl
  · rw [hslot]
    have hkept := (KeptRegs.setV c.s v.toNat m.data).trans (KeptRegs.setA _ a.toNat m.status)
    exact ⟨hkept.aregs, hkept.vregs, hkept.kregs⟩
  · rw [Ctx.finish_slot _ _ _ _ hc.step, hslot]
    exact (Slot.V_setA _ _ _ _).trans (Slot.V_setV_self _ _ _)
  · exact (Core.inbox_of_bare (Ctx.finish_core_bare c _ d2 _ hc.step c.h)).trans hinbox
  · rw [Ctx.finish_slot _ _ _ _ hc.step, hslot, ← InMsg.status_eq]
    exact (Slot.A_setA_self _ _ _).trans (if_neg ha)

end Receive

theorem mbrecv_waits (v : VReg) (a : AReg) : WaitsWhen (.mbrecv v a) (useV [v] [wv v, wa a])
    (fun c => c.d.mailRanks c.h c.n ≠ [] ∧ c.oldestMail = none) (fun _ => .mailbox) := by
  refine waitsWhen_of (fun _ => by unfold exec execMbrecv receive; rfl) (fun c hc ⟨hranks, hm⟩ => ⟨c.d, ?_, ?_⟩)
  · dsimp only
    rw [if_neg (by simpa using hranks), hm]
  · rw [hc.own]
    exact ⟨rfl, .refl _⟩

theorem mbpoll_empty (v : VReg) (a : AReg) : Acts (.mbpoll v a) (useV [v] [wv v, wa a])
    (fun c => c.d.mailRanks c.h c.n ≠ [] ∧ c.oldestMail = none) [a.toNat] [] []
    (fun c e => (a ≠ 0#4 → (e.slot c.h c.n).A a.toNat = 0#64) ∧ e.still = c.d.still) := by
  refine answers_acts a (fun c => c.d) (fun _ => 0#64) (fun _ => by unfold exec execMbpoll receive; rfl) (fun c ⟨hranks, hm⟩ => ?_)
    (fun c e _ ha hs => ⟨fun hne => ha.trans (if_neg hne), hs⟩)
  dsimp only
  rw [if_neg (by simpa using hranks), hm]
  rfl

/-- Settles O30. -/
theorem mailboxes : Obligations.Mailboxes := fun v a b g h m =>
  ⟨mbsend_waits v b, fun s h n w hi hf => mbsend_sends v b s h n w hi hf, mbsend_completes v b, mbsend_traps v b,
    mail_arrives g h _ (fun _ => by unfold exec execMessageArrival; rfl), mail_arrives g h _ (fun _ => by unfold exec execMessageRetry; rfl),
    receive_acts (fun _ => by unfold exec execMbrecv; rfl) m, receive_acts (fun _ => by unfold exec execMbpoll; rfl) m,
    mbrecv_waits v a, mbpoll_empty v a⟩

end Sys2Proof.Machine
end

section
/-! PROOFS. Regrouping (O31). -/

namespace Sys2Proof.Machine

/-! ## Regrouping (R84 to R86) -/

theorem branchTarget_add (pc : W64) (imm : W32) : branchTarget pc imm = pc + BitVec.ofInt 64 (8 * imm.toInt) := by
  rw [branchTarget_eq, BitVec.ofInt_add, BitVec.ofInt_toInt]

/-! ### The pool's words -/

/-- Entries of a pool region, each of sixteen words: `ls` gives lanes and the indices of their entries. -/
def Core.putEntries (k : Core) (base : Nat) (ws : Nat → List W32) (ls : List (Nat × Nat)) : Core :=
  ls.foldl (fun k x => k.putWords (base + 64 * x.2) (ws x.1)) k

theorem Core.putWords_pool (k : Core) (a : Nat) (ws : List W32) : (k.putWords a ws).pool = k.pool ∧ (k.putWords a ws).slots = k.slots ∧
    (k.putWords a ws).away = k.away := by
  induction ws generalizing k a with
  | nil => exact ⟨rfl, rfl, rfl⟩
  | cons w ws ih => exact ih _ _

section Entries
variable {k : Core} {base : Nat} {ws : Nat → List W32} {ls : List (Nat × Nat)} (hws : ∀ l, (ws l).length = 16)

theorem Core.putEntries_keeps (k : Core) (base : Nat) (ws : Nat → List W32) (ls : List (Nat × Nat)) : (k.putEntries base ws ls).pool = k.pool ∧
    (k.putEntries base ws ls).slots = k.slots ∧ (k.putEntries base ws ls).away = k.away := by
  induction ls generalizing k with
  | nil => exact ⟨rfl, rfl, rfl⟩
  | cons x ls ih =>
    obtain ⟨hp, hs, ha⟩ := ih (k.putWords (base + 64 * x.2) (ws x.1))
    obtain ⟨hp', hs', ha'⟩ := k.putWords_pool (base + 64 * x.2) (ws x.1)
    exact ⟨hp.trans hp', hs.trans hs', ha.trans ha'⟩

include hws

theorem Core.word_putEntries_ne {i j : Nat} (hi : ∀ x, x ∈ ls → x.2 ≠ i) (hj : j < 16) :
    (k.putEntries base ws ls).word (base + 64 * i + 4 * j) = k.word (base + 64 * i + 4 * j) := by
  induction ls generalizing k with
  | nil => rfl
  | cons x ls ih =>
    refine (ih (k := k.putWords (base + 64 * x.2) (ws x.1)) (fun y hy => hi y (List.mem_cons_of_mem _ hy))).trans ?_
    have hne := hi x List.mem_cons_self
    rw [Core.word_putWords]
    split
    · rw [List.getElem?_eq_none (by rw [hws]; omega), Option.getD_none]
    · rfl

/-- The words of an entry written. -/
theorem Core.word_putEntries {x : Nat × Nat} (hd : ls.Pairwise (fun y z => y.2 ≠ z.2)) (hx : x ∈ ls) {j : Nat} (hj : j < 16) :
    (k.putEntries base ws ls).word (base + 64 * x.2 + 4 * j) = (ws x.1)[j]'(by rw [hws]; exact hj) := by
  induction ls generalizing k with
  | nil => exact absurd hx List.not_mem_nil
  | cons y ls ih =>
    obtain ⟨hy, hd⟩ := List.pairwise_cons.mp hd
    rcases List.mem_cons.mp hx with rfl | hx
    · refine (Core.word_putEntries_ne (k := k.putWords (base + 64 * x.2) (ws x.1)) (ls := ls) hws (fun z hz => (hy z hz).symm) hj).trans ?_
      rw [Core.word_putWords, if_pos (by omega), show (base + 64 * x.2 + 4 * j) / 4 - (base + 64 * x.2) / 4 = j by omega,
        List.getElem?_eq_getElem (by rw [hws]; exact hj), Option.getD_some]
    · exact ih (k := k.putWords (base + 64 * y.2) (ws y.1)) hd hx

end Entries

/-- The free entries of a launch's pool. -/
def freeEntries (mine : List PoolEnt) : List Nat := (List.range 1024).filter (fun i => !mine.any (fun e => e.idx == i))

theorem length_unused {xs : List Nat} (hd : xs.Nodup) (mine : List PoolEnt) :
    xs.length ≤ (xs.filter (fun i => !mine.any (fun e => e.idx == i))).length + mine.length := by
  have hsplit := List.length_eq_countP_add_countP (fun i => !mine.any (fun e => e.idx == i)) (l := xs)
  rw [List.countP_eq_length_filter, List.countP_eq_length_filter] at hsplit
  have hused : (xs.filter (fun i => decide ¬(!mine.any (fun e => e.idx == i)) = true)).length ≤ (mine.map (·.idx)).length := by
    refine (List.subperm_of_subset (hd.filter _) (fun i hi => ?_)).length_le
    obtain ⟨e, he, hei⟩ : ∃ e, e ∈ mine ∧ e.idx = i := by simpa using (List.mem_filter.mp hi).2
    exact List.mem_map.mpr ⟨e, he, hei⟩
  rw [List.length_map] at hused
  omega

theorem length_freeEntries (mine : List PoolEnt) : 1024 ≤ (freeEntries mine).length + mine.length := by
  have h := length_unused (List.nodup_range (n := 1024)) mine
  rwa [List.length_range] at h

theorem not_mem_freeEntries {mine : List PoolEnt} {i : Nat} (hi : i ∈ freeEntries mine) {e : PoolEnt} (he : e ∈ mine) : e.idx ≠ i := by
  intro h
  have := (List.mem_filter.mp hi).2
  rw [List.any_eq_true.mpr ⟨e, he, by simpa using h⟩] at this
  exact Bool.noConfusion this

/-! ### split -/

theorem mem_putSorted {α : Type} {k : Nat} {v : α} {e : Nat × α} {l : List (Nat × α)} (h : e ∈ putSorted k v l) : e = (k, v) ∨ e ∈ l := by
  induction l with
  | nil => exact Or.inl (List.mem_singleton.mp h)
  | cons x l ih =>
    unfold putSorted at h
    split at h
    · exact (List.mem_cons.mp h)
    · rcases List.mem_cons.mp h with rfl | h
      · exact Or.inr List.mem_cons_self
      · exact (ih h).imp_right (List.mem_cons_of_mem _)

theorem AMap.mem_upd {α : Type} {x : α} {m : AMap α} {k : Nat} {f : α → α} {e : Nat × α} (h : e ∈ (m.upd x k f).ents) :
    e = (k, f (m.get x k)) ∨ e ∈ m.ents :=
  (mem_putSorted h).imp_right (fun h => (List.mem_filter.mp h).1)

/-- A target that no slot of the core waits for at a join: delivery finds nobody. -/
theorem Dev.deliverTo_nobody {d : Dev} {h : Nat} {lk : Nat} {k : Kind} {tgt : W64}
    (hn : ∀ e, e ∈ (d.core h).slots.ents → joinsAt lk k tgt e = false) (base : Nat) : d.deliverTo h base lk k tgt = d := by
  unfold Dev.deliverTo
  rw [List.filter_eq_nil_iff.mpr (fun e he => by rw [hn e he]; exact Bool.false_ne_true)]
  rfl

theorem joinsAt_of_state {lk : Nat} {k : Kind} {tgt : W64} {n : Nat} {s t : Slot} (hst : t.st = s.st) (hlk : t.lk = s.lk) (hk : t.kind = s.kind) :
    joinsAt lk k tgt (n, t) = joinsAt lk k tgt (n, s) := by
  unfold joinsAt
  rw [hst, hlk, hk]

/-- A slot of the core that has no entry in its table is FREE and waits for nothing. -/
theorem Core.joins_slot {c : Core} {n : Nat} {lk : Nat} {k : Kind} {tgt : W64} (hn : ∀ e, e ∈ c.slots.ents → joinsAt lk k tgt e = false) :
    joinsAt lk k tgt (n, c.slots.get .init n) = false := by
  unfold AMap.get
  cases hf : c.slots.find? n with
  | none => rfl
  | some x => exact hn _ (AMap.mem_of_find? hf)

/-- The slot after a split, without the lanes that went to the pool. -/
def Slot.splitOff (s : Slot) (set : BitVec 16) : Slot :=
  { s with laneSet := s.laneSet &&& ~~~set, tasks := ⟨s.tasks.ents.filter (fun e => !set.getLsbD e.1)⟩ }

/-- The words of a lane's entry in the pool. -/
def Slot.columns (s : Slot) (v n l : Nat) : List W32 := (List.range 16).map (fun j => if j < n then lane (s.V (v + j)) l else 0#32)

/-- The entries that a split adds to the pool. -/
def Ctx.splitEnts (c : Ctx) (tgt : W64) (v n : Nat) (ls : List (Nat × Nat)) : List PoolEnt :=
  ls.map (fun x => ⟨x.2, c.s.lk, tgt, v, n, c.s.kind, (c.s.tasks.find? x.1).getD 0#32, c.d.count + x.1⟩)

/-- A core with entries put into its pool region and its pool. -/
def Core.withEntries (k : Core) (base : Nat) (ws : Nat → List W32) (ls : List (Nat × Nat)) (es : List PoolEnt) : Core :=
  { k.putEntries base ws ls with pool := (k.putEntries base ws ls).pool ++ es }

/-- The device after a split. -/
def Ctx.splitDev (c : Ctx) (tgt : W64) (base v n : Nat) (set : BitVec 16) (ls : List (Nat × Nat)) : Dev :=
  ({ c.d.updCore c.h (fun _ => (c.d.core c.h).withEntries base (c.s.columns v n) ls (c.splitEnts tgt v n ls)) with count := c.d.count + 16 } : Dev).setSlot c.h c.n
    (c.s.splitOff set)

section Split
variable (km : KReg) (v : VReg) (n : BitVec 7) (imm : W32)

/-- What a split reads. -/
def splitUse : Use := ⟨[v.toNat], if n = 0#7 then [] else [v.toNat + n.toNat - 1], (List.range n.toNat).map (fun j => rvn (v.toNat + j)) ++ [rk km],
  none, .all, false⟩

def splitBody (c : Ctx) : Res :=
  let tgt := branchTarget c.s.pc imm
  match c.poolBase with
  | none => c.faultAt 0x04 2 tgt
  | some base =>
    let set := c.s.K km.toNat &&& c.s.laneSet
    if set = 0#16 then .done c.d else
    let k := c.d.core c.h
    if k.unrestoredIn base (base + 65536) then .skip c.d else
    let mine := k.poolOf c.s.lk
    let free := freeEntries mine
    let tgts := (mine.map (·.tgt)).dedup
    if free.length < popcount set || (!tgts.contains tgt && decide (64 ≤ tgts.length)) then .wait c.d .pool
    else .done ((c.splitDev tgt base v.toNat n.toNat set ((lanesOf set).zip free)).deliverTo c.h base c.s.lk c.s.kind tgt)

theorem exec_split (s : State) : exec (.split km v n imm) s = thread (splitUse km v n) (splitBody km v n imm) s := by
  unfold exec execSplit
  rfl

theorem split_none (base : Nat) : CompletesWhen (.split km v n imm) (splitUse km v n)
    (fun c => c.poolBase = some base ∧ c.s.K km.toNat &&& c.s.laneSet = 0#16) [] [] [] (fun c s => s.pc = c.s.pc + 8#64) := by
  refine completesWhen_of (exec_split km v n imm) (fun c hc ⟨hb, hset⟩ => ⟨c.d, c.s, c.s.pc + 8#64, ?_, .refl hc, .refl _, rfl⟩)
  unfold splitBody
  dsimp only
  rw [hb]
  dsimp only
  rw [if_pos hset]
  rfl

theorem Ctx.splitDev_spec {c : Ctx} (tgt : W64) (base v n : Nat) (set : BitVec 16) (ls : List (Nat × Nat)) :
    (c.splitDev tgt base v n set ls).slot c.h c.n = c.s.splitOff set ∧
    ((c.splitDev tgt base v n set ls).core c.h).bare = ((c.d.core c.h).withEntries base (c.s.columns v n) ls (c.splitEnts tgt v n ls)).bare ∧
    (∀ k, k ≠ c.h → (c.splitDev tgt base v n set ls).core k = c.d.core k) ∧ (c.splitDev tgt base v n set ls).still = c.d.still := by
  unfold Ctx.splitDev
  refine ⟨Dev.slot_setSlot_self _ _ _ _, ?_, fun k hk => ?_, rfl⟩
  · rw [Dev.setSlot, Dev.core_updSlot_bare]
    exact congrArg Core.bare (Dev.core_updCore_self _ _ _)
  · rw [Dev.setSlot, Dev.updSlot, Dev.core_updCore_ne _ _ _ _ hk]
    exact Dev.core_updCore_ne _ _ _ _ hk

/-- Nobody waits at the target of a split once none did before it. -/
theorem Ctx.splitDev_nobody {c : Ctx} (hc : c.Ready) {tgt : W64} (hn : ∀ e, e ∈ (c.d.core c.h).slots.ents → joinsAt c.s.lk c.s.kind tgt e = false)
    (base v n : Nat) (set : BitVec 16) (ls : List (Nat × Nat)) :
    ∀ e, e ∈ ((c.splitDev tgt base v n set ls).core c.h).slots.ents → joinsAt c.s.lk c.s.kind tgt e = false := by
  intro e he
  obtain ⟨k, hk⟩ : ∃ k, k = (c.d.core c.h).withEntries base (c.s.columns v n) ls (c.splitEnts tgt v n ls) := ⟨_, rfl⟩
  have hslots : k.slots = (c.d.core c.h).slots := by
    rw [hk]
    exact (Core.putEntries_keeps _ _ _ _).2.1
  have hcore : (c.splitDev tgt base v n set ls).core c.h = k.updSlot c.n (fun _ => c.s.splitOff set) := by
    unfold Ctx.splitDev
    rw [← hk, Dev.setSlot, Dev.updSlot, Dev.core_updCore_self]
    exact congrArg (Core.updSlot · c.n _) (Dev.core_updCore_self _ _ _)
  rw [hcore, Core.updSlot] at he
  split at he
  · next hlow =>
    rcases AMap.mem_upd he with rfl | he
    · have hown : (c.d.core c.h).slots.get .init c.n = c.s := by
        rw [← hc.own, Dev.slot, Core.slot, if_pos hlow]
      refine (joinsAt_of_state (n := c.n) (s := c.s) (t := c.s.splitOff set) rfl rfl rfl).trans ?_
      have hj := Core.joins_slot (n := c.n) hn
      rwa [hown] at hj
    · exact hn e (hslots ▸ he)
  · exact hn e (hslots ▸ he)

theorem split_acts (base : Nat) : Acts (.split km v n imm) (splitUse km v n)
    (fun c => (c.poolBase = some base ∧ (c.d.core c.h).unrestoredIn base (base + 65536) = false) ∧ c.s.K km.toNat &&& c.s.laneSet ≠ 0#16 ∧
      ((c.d.core c.h).poolOf c.s.lk).length + 16 ≤ 1024 ∧ (((c.d.core c.h).poolOf c.s.lk).map (·.tgt)).dedup.length < 64 ∧
      ∀ e, e ∈ (c.d.core c.h).slots.ents → joinsAt c.s.lk c.s.kind (c.s.pc + BitVec.ofInt 64 (8 * imm.toInt)) e = false) [] [] []
    (fun c e => (e.slot c.h c.n).laneSet = c.s.laneSet &&& ~~~(c.s.K km.toNat) ∧ OnlyCore c.d e c.h ∧
      ∀ l, l < 16 → (c.s.K km.toNat &&& c.s.laneSet).getLsbD l = true → ∃ y, y ∈ (e.core c.h).pool ∧ y ∉ (c.d.core c.h).pool ∧ y.lk = c.s.lk ∧
        y.tgt = c.s.pc + BitVec.ofInt 64 (8 * imm.toInt) ∧ y.vlo = v.toNat ∧ y.n = n.toNat ∧ y.kind = c.s.kind ∧
        y.task = (c.s.tasks.find? l).getD 0#32 ∧
        ∀ j, j < 16 → (e.core c.h).word (base + 64 * y.idx + 4 * j) = if j < n.toNat then lane (c.s.V (v.toNat + j)) l else 0#32) := by
  refine acts_of (exec_split km v n imm) (fun c hc ⟨⟨hb, hun⟩, hset, hroom, htgts, hn⟩ => ?_)
  rw [← branchTarget_add] at hn ⊢
  obtain ⟨set, hs⟩ : ∃ set, set = c.s.K km.toNat &&& c.s.laneSet := ⟨_, rfl⟩
  obtain ⟨free, hf⟩ : ∃ free, free = freeEntries ((c.d.core c.h).poolOf c.s.lk) := ⟨_, rfl⟩
  obtain ⟨ls, hls⟩ : ∃ ls, ls = (lanesOf set).zip free := ⟨_, rfl⟩
  obtain ⟨hslot, hcore, hothers, hstill⟩ := c.splitDev_spec (branchTarget c.s.pc imm) base v.toNat n.toNat set ls
  have hlen := length_freeEntries ((c.d.core c.h).poolOf c.s.lk)
  have hpop : popcount set ≤ free.length := by
    have := length_lanesOf_le set
    rw [← hf] at hlen
    unfold popcount
    omega
  rw [← hs] at hset ⊢
  refine ⟨c.splitDev (branchTarget c.s.pc imm) base v.toNat n.toNat set ls, ?_, ?_, ?_, ⟨fun k hk => ?_, ?_⟩, fun l hl hbit => ?_⟩
  · unfold splitBody
    dsimp only
    rw [hb]
    dsimp only
    rw [← hs, if_neg hset, hun, if_neg Bool.false_ne_true, ← hf, decide_eq_false (Nat.not_lt.mpr hpop),
      decide_eq_false (Nat.not_le.mpr htgts), Bool.and_false, Bool.or_false,
      if_neg Bool.false_ne_true, ← hls, Dev.deliverTo_nobody (Ctx.splitDev_nobody hc hn _ _ _ _ _)]
  · rw [hslot]
    exact .of_files rfl rfl rfl
  · rw [Ctx.finish_slot _ _ _ _ hc.step, hslot]
    show c.s.laneSet &&& ~~~set = _
    rw [hs]
    ext i
    simp
    grind
  · rw [Ctx.finish_core_ne _ _ _ _ hc.step _ hk]
    exact hothers k hk
  · rw [Ctx.finish_still]
    exact hstill
  · have hend : ((c.finish (splitUse km v n) (c.splitDev (branchTarget c.s.pc imm) base v.toNat n.toNat set ls) (c.s.pc + 8#64)).core c.h).bare =
        ((c.d.core c.h).withEntries base (c.s.columns v.toNat n.toNat) ls (c.splitEnts (branchTarget c.s.pc imm) v.toNat n.toNat ls)).bare :=
      (Ctx.finish_core_bare c _ _ _ hc.step c.h).trans hcore
    obtain ⟨i, hi, hli⟩ := List.getElem_of_mem (mem_lanesOf.mpr ⟨hl, hbit⟩)
    have hif : i < free.length := lt_of_lt_of_le hi hpop
    have hmem : (l, free[i]) ∈ ls := by
      rw [hls]
      refine List.mem_of_getElem? (i := i) (List.getElem?_zip_eq_some.mpr ⟨?_, List.getElem?_eq_getElem hif⟩)
      rw [List.getElem?_eq_getElem hi, hli]
    have hdist : ls.Pairwise (fun y z => y.2 ≠ z.2) := by
      have hnd : free.Nodup := by
        rw [hf]
        exact List.nodup_range.filter _
      refine List.pairwise_iff_getElem.mpr (fun i j hi hj hlt heq => ?_)
      simp only [hls, List.getElem_zip] at heq
      exact absurd ((hnd.getElem_inj_iff).mp heq) (by omega)
    refine ⟨⟨free[i], c.s.lk, branchTarget c.s.pc imm, v.toNat, n.toNat, c.s.kind, (c.s.tasks.find? l).getD 0#32, c.d.count + l⟩, ?_, fun hold => ?_,
      rfl, rfl, rfl, rfl, rfl, rfl, fun j hj => ?_⟩
    · have hpool : ((c.finish (splitUse km v n) (c.splitDev (branchTarget c.s.pc imm) base v.toNat n.toNat set ls) (c.s.pc + 8#64)).core c.h).pool =
          ((c.d.core c.h).putEntries base (c.s.columns v.toNat n.toNat) ls).pool ++ c.splitEnts (branchTarget c.s.pc imm) v.toNat n.toNat ls :=
        (congrArg Core.pool hend :)
      rw [hpool]
      exact List.mem_append_right _ (List.mem_map.mpr ⟨_, hmem, rfl⟩)
    · refine not_mem_freeEntries (mine := (c.d.core c.h).poolOf c.s.lk) (i := free[i]) ?_ (List.mem_filter.mpr ⟨hold, by simp⟩) rfl
      exact hf ▸ List.getElem_mem hif
    · have hw := Core.word_putEntries (k := c.d.core c.h) (base := base) (ws := c.s.columns v.toNat n.toNat) (fun _ => by simp [Slot.columns]) hdist hmem hj
      have hwords : ((c.finish (splitUse km v n) (c.splitDev (branchTarget c.s.pc imm) base v.toNat n.toNat set ls) (c.s.pc + 8#64)).core c.h).words =
          ((c.d.core c.h).putEntries base (c.s.columns v.toNat n.toNat) ls).words := (congrArg Core.words hend :)
      rw [Core.word, hwords]
      exact hw.trans (by simp [Slot.columns])

end Split

/-! ### Lanes filled from the pool -/

/-- The columns of an entry, given as a function, written into lane l of registers from vlo on. -/
def Slot.fillCols (s : Slot) (w : Nat → W32) (vlo l n : Nat) : Slot :=
  (List.range n).foldl (fun s j => s.setV (vlo + j) (maskV (1#16 <<< l) false (s.V (vlo + j)) (ofLanes (fun _ => w j)))) s

theorem Slot.fillCols_succ (s : Slot) (w : Nat → W32) (vlo l n : Nat) : s.fillCols w vlo l (n + 1) =
    (s.fillCols w vlo l n).setV (vlo + n) (maskV (1#16 <<< l) false ((s.fillCols w vlo l n).V (vlo + n)) (ofLanes (fun _ => w n))) := by
  unfold Slot.fillCols
  rw [List.range_succ, List.foldl_append]
  rfl

/-- Filling changes vector registers only. -/
theorem Slot.fillCols_eq (s : Slot) (w : Nat → W32) (vlo l n : Nat) : ∃ r, s.fillCols w vlo l n = { s with vregs := r } := by
  induction n with
  | zero => exact ⟨_, rfl⟩
  | succ n ih =>
    obtain ⟨r, hr⟩ := ih
    rw [Slot.fillCols_succ, hr]
    exact ⟨_, rfl⟩

theorem Slot.V_fillCols_ne (s : Slot) (w : Nat → W32) (vlo l n : Nat) {x : Nat} (hx : ∀ j, j < n → x ≠ vlo + j) : (s.fillCols w vlo l n).V x = s.V x := by
  induction n with
  | zero => rfl
  | succ n ih =>
    rw [Slot.fillCols_succ, Slot.V_setV_ne _ _ _ _ (hx n (by omega))]
    exact ih (fun j hj => hx j (by omega))

theorem Slot.V_fillCols (s : Slot) (w : Nat → W32) (vlo l : Nat) {n j : Nat} (hj : j < n) :
    (s.fillCols w vlo l n).V (vlo + j) = maskV (1#16 <<< l) false (s.V (vlo + j)) (ofLanes (fun _ => w j)) := by
  induction n with
  | zero => omega
  | succ n ih =>
    rw [Slot.fillCols_succ]
    by_cases h : j = n
    · rw [h, Slot.V_setV_self, Slot.V_fillCols_ne _ _ _ _ _ (fun i hi => by omega)]
    · rw [Slot.V_setV_ne _ _ _ _ (by omega)]
      exact ih (by omega)

theorem getLsbD_oneHot {l m : Nat} (hl : l < 16) (hm : m < 16) : (1#16 <<< l).getLsbD m = decide (m = l) := by
  have h : ∀ i, i < 16 → ∀ j, j < 16 → (1#16 <<< i).getLsbD j = decide (j = i) := by decide
  exact h l hl m hm

theorem Slot.lane_fillCols (s : Slot) (w : Nat → W32) (vlo : Nat) {l n j m : Nat} (hl : l < 16) (hm : m < 16) (hj : j < n) :
    lane ((s.fillCols w vlo l n).V (vlo + j)) m = if m = l then w j else lane (s.V (vlo + j)) m := by
  rw [Slot.V_fillCols s w vlo l hj, lane_maskV _ _ _ _ _ hm, getLsbD_oneHot hl hm, lane_ofLanes _ _ hm]
  simp

/-- The lowest lane of a mask. -/
theorem lanesOf_lowest {m : BitVec 16} {l : Nat} (hl : l < 16) (hm : m.getLsbD l = true) (hlow : ∀ k, k < l → m.getLsbD k = false) :
    ∃ rest, lanesOf m = l :: rest := by
  have hmem := mem_lanesOf.mpr ⟨hl, hm⟩
  cases hx : lanesOf m with
  | nil => rw [hx] at hmem; exact absurd hmem List.not_mem_nil
  | cons a rest =>
    refine ⟨rest, ?_⟩
    have ha : m.getLsbD a = true := (mem_lanesOf.mp (hx ▸ List.mem_cons_self : a ∈ lanesOf m)).2
    have hord := pairwise_lanesOf m
    rw [hx] at hmem hord
    rcases List.mem_cons.mp hmem with rfl | hin
    · rfl
    · exact absurd (hlow a ((List.pairwise_cons.mp hord).1 l hin)) (by rw [ha]; decide)

section Oldest
variable {c : Core} {lk : Nat} {tgt : W64} {k : Kind}

theorem Core.oldest_none (h : (c.poolOf lk).filter (fun e => e.tgt == tgt && e.kind == k) = []) : c.oldest lk tgt k = none := by
  unfold Core.oldest
  rw [h]
  rfl

theorem Core.oldest_one {x : PoolEnt} (h : (c.poolOf lk).filter (fun e => e.tgt == tgt && e.kind == k) = [x]) : c.oldest lk tgt k = some x := by
  unfold Core.oldest
  rw [h]
  simp

theorem Core.takes_none (h : (c.poolOf lk).filter (fun e => e.tgt == tgt && e.kind == k) = []) (lanes : Nat) : c.takes lk tgt k lanes = [] := by
  unfold Core.takes
  rw [h]
  exact List.take_nil

/-- A target's only entry taken: nothing waits at the target any more. -/
theorem Core.oldest_erase {x : PoolEnt} {p : Core} (h : (c.poolOf lk).filter (fun e => e.tgt == tgt && e.kind == k) = [x]) (hp : p.pool = c.pool.erase x) :
    p.oldest lk tgt k = none := by
  refine Core.oldest_none ?_
  unfold Core.poolOf at h ⊢
  rw [hp, ← List.erase_filter, ← List.erase_filter, h]
  simp

end Oldest

theorem fillLanes_none {c : Core} {s : Slot} {tgt : W64} (h : c.oldest s.lk tgt s.kind = none) (base : Nat) (ls : List Nat) (f : BitVec 16) :
    fillLanes base tgt ls (c, s, f) = (c, s, f) := by
  cases ls with
  | nil => rfl
  | cons l ls =>
    unfold fillLanes
    rw [h]

/-- The core after one entry has been taken from its pool. -/
def Core.poolTaken (c : Core) (s : Slot) (base : Nat) (e : PoolEnt) : Core :=
  { c with pool := c.pool.erase e, rfPoison := c.rfPoison ++ s.fillPoison c base e }

/-- One entry at a target, and an empty lane: the entry fills it. -/
theorem fillLanes_one {c : Core} {s : Slot} {tgt : W64} {x : PoolEnt} (h : (c.poolOf s.lk).filter (fun e => e.tgt == tgt && e.kind == s.kind) = [x])
    (base l : Nat) (ls : List Nat) : fillLanes base tgt (l :: ls) (c, s, 0#16) = (c.poolTaken s base x, s.fillLane c base l x, 0#16 ||| (1#16 <<< l)) := by
  unfold fillLanes
  rw [Core.oldest_one h]
  obtain ⟨r, hr⟩ := s.fillCols_eq (fun j => c.word (base + 64 * x.idx + 4 * j)) x.vlo l x.n
  have hfill : s.fillLane c base l x = { s.fillCols (fun j => c.word (base + 64 * x.idx + 4 * j)) x.vlo l x.n with
    laneSet := (s.fillCols (fun j => c.word (base + 64 * x.idx + 4 * j)) x.vlo l x.n).laneSet ||| (1#16 <<< l),
    tasks := if x.task == 0#32 then (s.fillCols (fun j => c.word (base + 64 * x.idx + 4 * j)) x.vlo l x.n).tasks
      else (s.fillCols (fun j => c.word (base + 64 * x.idx + 4 * j)) x.vlo l x.n).tasks.put l x.task } := rfl
  refine fillLanes_none (Core.oldest_erase (c := c) (x := x) ?_ rfl) base ls _
  rw [hfill, hr]
  exact h

/-- A slot with a lane filled. -/
structure Slot.Filled (a b : Slot) (w : Nat → W32) (x : PoolEnt) (l : Nat) : Prop where
  aregs : b.aregs = a.aregs
  kregs : b.kregs = a.kregs
  lanes : b.laneSet = a.laneSet ||| (1#16 <<< l)
  others : ∀ y, (∀ j, j < x.n → y ≠ x.vlo + j) → b.V y = a.V y
  cols : ∀ j, j < x.n → ∀ m, m < 16 → lane (b.V (x.vlo + j)) m = if m = l then w j else lane (a.V (x.vlo + j)) m

theorem Slot.filled_fillLane (s : Slot) (c : Core) (base : Nat) {l : Nat} (hl : l < 16) (x : PoolEnt) :
    s.Filled (s.fillLane c base l x) (fun j => c.word (base + 64 * x.idx + 4 * j)) x l := by
  obtain ⟨r, hr⟩ := s.fillCols_eq (fun j => c.word (base + 64 * x.idx + 4 * j)) x.vlo l x.n
  have hV : ∀ y, (s.fillLane c base l x).V y = (s.fillCols (fun j => c.word (base + 64 * x.idx + 4 * j)) x.vlo l x.n).V y := fun _ => rfl
  refine ⟨(congrArg Slot.aregs hr :), (congrArg Slot.kregs hr :), (congrArg (fun s : Slot => s.laneSet ||| (1#16 <<< l)) hr :), fun y hy => ?_, fun j hj m hm => ?_⟩
  · rw [hV, Slot.V_fillCols_ne _ _ _ _ _ hy]
  · rw [hV, Slot.lane_fillCols _ _ _ hl hm hj]

/-! ### refill and join -/

section Fill
variable {c : Ctx} {tgt : W64}

/-- With nothing at the target a fill leaves the device's cores and slots as they were. -/
theorem Ctx.fill_none (hc : c.Ready) (h : ((c.d.core c.h).poolOf c.s.lk).filter (fun e => e.tgt == tgt && e.kind == c.s.kind) = []) (base : Nat) :
    c.Only (c.d.fill c.h c.n base tgt).1 c.s ∧ (c.d.fill c.h c.n base tgt).2 = 0#16 := by
  unfold Dev.fill
  dsimp only
  rw [hc.own, fillLanes_none (Core.oldest_none h)]
  dsimp only
  rw [if_pos rfl]
  have hcore : ∀ k, (c.d.updCore c.h (fun _ => c.d.core c.h)).core k = c.d.core k := by
    intro k
    by_cases hk : k = c.h
    · rw [hk, Dev.core_updCore_self]
    · rw [Dev.core_updCore_ne _ _ _ _ hk]
  refine ⟨⟨Dev.slot_setSlot_self _ _ _ _, fun j m hne => ?_, fun k => ?_, rfl⟩, rfl⟩
  · rw [Dev.slot_setSlot_ne _ _ _ _ _ _ hne, Dev.slot, hcore, Dev.slot]
  · rw [Dev.setSlot, Dev.core_updSlot_bare, hcore]

/-- With one entry at the target a fill puts it into the lowest empty lane. -/
theorem Ctx.fill_one (hc : c.Ready) {x : PoolEnt} {l : Nat} (h : ((c.d.core c.h).poolOf c.s.lk).filter (fun e => e.tgt == tgt && e.kind == c.s.kind) = [x])
    (hl : l < 16) (hempty : c.s.laneSet.getLsbD l = false) (hlow : ∀ m, m < l → c.s.laneSet.getLsbD m = true) (base : Nat) :
    c.s.Filled ((c.d.fill c.h c.n base tgt).1.slot c.h c.n) (fun j => (c.d.core c.h).word (base + 64 * x.idx + 4 * j)) x l ∧
    ((c.d.fill c.h c.n base tgt).1.core c.h).pool = (c.d.core c.h).pool.erase x ∧ (c.d.fill c.h c.n base tgt).2 = 1#16 <<< l := by
  obtain ⟨rest, hrest⟩ := lanesOf_lowest (m := ~~~c.s.laneSet) hl (by rw [BitVec.getLsbD_not, hempty]; simp [hl]) (fun k hk => by simp [hlow k hk])
  obtain ⟨d1, hd1⟩ : ∃ d1, d1 = (c.d.updCore c.h (fun _ => (c.d.core c.h).poolTaken c.s base x)).setSlot c.h c.n (c.s.fillLane (c.d.core c.h) base l x) := ⟨_, rfl⟩
  have hne : 0#16 ||| (1#16 <<< l) ≠ 0#16 := by
    have h : ∀ i, i < 16 → 0#16 ||| (1#16 <<< i) ≠ 0#16 := by decide
    exact h l hl
  have hfill : c.d.fill c.h c.n base tgt = (d1.wake c.h (fun _ _ w => w == .pool), 0#16 ||| (1#16 <<< l)) := by
    unfold Dev.fill
    dsimp only
    rw [hc.own, hrest, fillLanes_one h]
    dsimp only
    rw [if_neg hne, hd1]
  have hslot : d1.slot c.h c.n = c.s.fillLane (c.d.core c.h) base l x := by rw [hd1, Dev.slot_setSlot_self]
  have hpool : (d1.core c.h).bare = ((c.d.core c.h).poolTaken c.s base x).bare := by
    rw [hd1, Dev.setSlot, Dev.core_updSlot_bare, Dev.core_updCore_self]
  rw [hfill]
  refine ⟨?_, ?_, by simp⟩
  · have hf := c.s.filled_fillLane (c.d.core c.h) base hl x
    rw [← hslot] at hf
    rcases Dev.slot_wake d1 c.h (fun _ _ w => w == .pool) c.h c.n with hw | ⟨k, hw⟩
    · rw [hw]
      exact hf
    · rw [hw]
      exact ⟨hf.aregs, hf.kregs, hf.lanes, hf.others, hf.cols⟩
  · have hb := (Dev.bare_core_wake d1 c.h (fun _ _ w => w == .pool) c.h).trans hpool
    exact (congrArg Core.pool hb :)

end Fill

def refillBody (d : KReg) (imm : W32) (c : Ctx) : Res :=
  let tgt := branchTarget c.s.pc imm
  match c.poolBase with
  | none => c.faultAt 0x04 2 tgt
  | some base =>
    match c.gate (useA (c.refillRegs tgt)) with
    | some r => r
    | none =>
      if (c.d.core c.h).unrestoredIn base (base + 65536) then .skip c.d else
      let r := c.d.fill c.h c.n base tgt
      .done (r.1.updSlot c.h c.n (fun s => s.setK d.toNat r.2))

theorem exec_refill (d : KReg) (imm : W32) (s : State) : exec (.refill d imm) s = thread (useA [wk d]) (refillBody d imm) s := by
  unfold exec execRefill
  rfl

theorem refillBody_fills {d : KReg} {imm : W32} {c : Ctx} {base : Nat} (hb : c.poolBase = some base)
    (hu : (c.d.core c.h).unrestoredIn base (base + 65536) = false) (hg : c.gate (useA (c.refillRegs (branchTarget c.s.pc imm))) = none) :
    refillBody d imm c = .done ((c.d.fill c.h c.n base (branchTarget c.s.pc imm)).1.updSlot c.h c.n
      (fun s => s.setK d.toNat (c.d.fill c.h c.n base (branchTarget c.s.pc imm)).2)) := by
  unfold refillBody
  dsimp only
  rw [hb]
  dsimp only
  rw [hg]
  dsimp only
  rw [hu, if_neg Bool.false_ne_true]

theorem refill_acts (d : KReg) (imm : W32) (base l : Nat) (x : PoolEnt) : Acts (.refill d imm) (useA [wk d])
    (fun c => (c.poolBase = some base ∧ (c.d.core c.h).unrestoredIn base (base + 65536) = false) ∧
      c.gate (useA (c.refillRegs (c.s.pc + BitVec.ofInt 64 (8 * imm.toInt)))) = none ∧
      ((c.d.core c.h).poolOf c.s.lk).filter (fun e => e.tgt == c.s.pc + BitVec.ofInt 64 (8 * imm.toInt) && e.kind == c.s.kind) = [x] ∧ l < 16 ∧
      c.s.laneSet.getLsbD l = false ∧ ∀ m, m < l → c.s.laneSet.getLsbD m = true)
    [] ((List.range x.n).map (fun j => x.vlo + j)) [d.toNat]
    (fun c e => (e.slot c.h c.n).laneSet = c.s.laneSet ||| 1#16 <<< l ∧ (d ≠ 0#3 → (e.slot c.h c.n).K d.toNat = 1#16 <<< l) ∧
      (e.core c.h).pool = (c.d.core c.h).pool.erase x ∧
      ∀ j, j < x.n → ∀ m, m < 16 → lane ((e.slot c.h c.n).V (x.vlo + j)) m =
        if m = l then (c.d.core c.h).word (base + 64 * x.idx + 4 * j) else lane (c.s.V (x.vlo + j)) m) := by
  refine acts_of (exec_refill d imm) (fun c hc ⟨⟨hb, hu⟩, hg, hx, hl, hempty, hlow⟩ => ?_)
  rw [← branchTarget_add] at hg hx
  obtain ⟨hf, hpool, hk⟩ := Ctx.fill_one hc hx hl hempty hlow base
  refine ⟨_, refillBody_fills hb hu hg, ?_, ?_, fun hd => ?_, ?_, fun j hj m hm => ?_⟩
  · rw [Dev.slot_updSlot_self]
    refine ⟨fun j _ => ?_, fun j hj => ?_, fun j hj => ?_⟩
    · rw [Slot.A_setK, Slot.A, hf.aregs, Slot.A]
    · rw [Slot.V_setK]
      exact hf.others j (fun i hi heq => hj (List.mem_map.mpr ⟨i, List.mem_range.mpr hi, heq.symm⟩))
    · rw [Slot.K_setK_ne _ _ _ _ (by simpa using hj), Slot.K, hf.kregs, Slot.K]
  · rw [Ctx.finish_slot _ _ _ _ hc.step, Dev.slot_updSlot_self]
    refine Eq.trans ?_ hf.lanes
    unfold Slot.setK
    split <;> rfl
  · rw [Ctx.finish_slot _ _ _ _ hc.step, Dev.slot_updSlot_self, hk]
    exact (Slot.K_setK_self _ _ _).trans (if_neg hd)
  · have hend := (Ctx.finish_core_bare c (useA [wk d]) ((c.d.fill c.h c.n base (branchTarget c.s.pc imm)).1.updSlot c.h c.n
      (fun s => s.setK d.toNat (c.d.fill c.h c.n base (branchTarget c.s.pc imm)).2)) (c.s.pc + 8#64) hc.step c.h).trans (Dev.core_updSlot_bare _ _ _ _ _)
    exact (congrArg Core.pool hend :).trans hpool
  · rw [Ctx.finish_slot _ _ _ _ hc.step, Dev.slot_updSlot_self]
    exact (congrArg (lane · m) (Slot.V_setK _ _ _ _)).trans (hf.cols j hj m hm)

theorem Ctx.Only.updSlot {c : Ctx} {d : Dev} {x : Slot} (h : c.Only d x) (f : Slot → Slot) : c.Only (d.updSlot c.h c.n f) (f x) :=
  ⟨(Dev.slot_updSlot_self _ _ _ _).trans (congrArg f h.slot), fun j m hne => (Dev.slot_updSlot_ne _ _ _ _ _ _ hne).trans (h.slots j m hne),
    fun k => (Dev.core_updSlot_bare _ _ _ _ _).trans (h.cores k), h.dev⟩

theorem refill_none (d : KReg) (imm : W32) (base : Nat) : CompletesWhen (.refill d imm) (useA [wk d])
    (fun c => (c.poolBase = some base ∧ (c.d.core c.h).unrestoredIn base (base + 65536) = false) ∧
      c.gate (useA (c.refillRegs (c.s.pc + BitVec.ofInt 64 (8 * imm.toInt)))) = none ∧
      ((c.d.core c.h).poolOf c.s.lk).filter (fun e => e.tgt == c.s.pc + BitVec.ofInt 64 (8 * imm.toInt) && e.kind == c.s.kind) = []) [] [] [d.toNat]
    (fun c s => s.pc = c.s.pc + 8#64 ∧ (d ≠ 0#3 → s.K d.toNat = 0#16)) := by
  refine completesWhen_of (exec_refill d imm) (fun c hc ⟨⟨hb, hu⟩, hg, hx⟩ => ?_)
  rw [← branchTarget_add] at hg hx
  obtain ⟨honly, hk⟩ := Ctx.fill_none hc hx base
  refine ⟨_, c.s.setK d.toNat 0#16, c.s.pc + 8#64, ?_, honly.updSlot (fun s => s.setK d.toNat 0#16), .setK _ _ _,
    rfl, fun hd => ?_⟩
  · rw [refillBody_fills hb hu hg, hk]
    rfl
  · exact (Slot.K_setK_self _ _ _).trans (if_neg hd)

def joinBody (a : KReg) (c : Ctx) : Res :=
  match c.poolBase with
  | none => c.faultAt 0x04 2 c.s.pc
  | some base =>
    if c.s.ops.any (fun o => !o.vd.isEmpty) || (c.d.core c.h).unrestoredIn base (base + 65536) then .skip c.d else
    match (c.refillRegs c.s.pc).findSome? c.s.blockOf with
    | some (.unrestored g) => .skip (c.d.later 1 (.granuleRefill c.h c.n g))
    | some _ => .skip c.d
    | none =>
      let d := (c.d.fill c.h c.n base c.s.pc).1
      let m := c.s.K a.toNat
      if (d.slot c.h c.n).laneSet &&& m = m then .done d else .wait d (.join c.s.pc m)

section Join
variable (a : KReg)

theorem exec_join (s : State) : exec (.join a) s = thread (useA [rk a]) (joinBody a) s := by
  unfold exec execJoin
  rfl

/-- A join with nothing in the pool for it looks at its own lanes. -/
theorem joinBody_none {c : Ctx} {base : Nat} (hc : c.Ready) (hb : c.poolBase = some base) (hu : (c.d.core c.h).unrestoredIn base (base + 65536) = false)
    (hops : ∀ o, o ∈ c.s.ops → o.vd = []) (hx : ((c.d.core c.h).poolOf c.s.lk).filter (fun e => e.tgt == c.s.pc && e.kind == c.s.kind) = []) :
    ∃ d, c.Only d c.s ∧ joinBody a c = if c.s.laneSet &&& c.s.K a.toNat = c.s.K a.toNat then .done d else .wait d (.join c.s.pc (c.s.K a.toNat)) := by
  obtain ⟨honly, -⟩ := Ctx.fill_none hc hx base
  refine ⟨_, honly, ?_⟩
  have hany : c.s.ops.any (fun o => !o.vd.isEmpty) = false := List.any_eq_false.mpr (fun o ho => by rw [hops o ho]; decide)
  have hregs : c.refillRegs c.s.pc = [] := by
    unfold Ctx.refillRegs
    rw [Core.takes_none hx]
    rfl
  unfold joinBody
  rw [hb]
  dsimp only
  rw [hany, hu, Bool.false_or, if_neg Bool.false_ne_true, hregs]
  show (if ((c.d.fill c.h c.n base c.s.pc).1.slot c.h c.n).laneSet &&& c.s.K a.toNat = c.s.K a.toNat then _ else _) = _
  rw [honly.slot]

theorem join_completes (base : Nat) : CompletesWhen (.join a) (useA [rk a])
    (fun c => (c.poolBase = some base ∧ (c.d.core c.h).unrestoredIn base (base + 65536) = false) ∧ (∀ o, o ∈ c.s.ops → o.vd = []) ∧
      ((c.d.core c.h).poolOf c.s.lk).filter (fun e => e.tgt == c.s.pc && e.kind == c.s.kind) = [] ∧ c.s.laneSet &&& c.s.K a.toNat = c.s.K a.toNat)
    [] [] [] (fun c s => s.pc = c.s.pc + 8#64) := by
  refine completesWhen_of (exec_join a) (fun c hc ⟨⟨hb, hu⟩, hops, hx, hall⟩ => ?_)
  obtain ⟨d, honly, hbody⟩ := joinBody_none a hc hb hu hops hx
  refine ⟨d, c.s, c.s.pc + 8#64, ?_, honly, .refl _, rfl⟩
  rw [hbody, if_pos hall]
  rfl

theorem join_waits (base : Nat) : WaitsWhen (.join a) (useA [rk a])
    (fun c => (c.poolBase = some base ∧ (c.d.core c.h).unrestoredIn base (base + 65536) = false) ∧ (∀ o, o ∈ c.s.ops → o.vd = []) ∧
      ((c.d.core c.h).poolOf c.s.lk).filter (fun e => e.tgt == c.s.pc && e.kind == c.s.kind) = [] ∧ c.s.laneSet &&& c.s.K a.toNat ≠ c.s.K a.toNat)
    (fun c => .join c.s.pc (c.s.K a.toNat)) := by
  refine waitsWhen_of (exec_join a) (fun c hc ⟨⟨hb, hu⟩, hops, hx, hall⟩ => ?_)
  obtain ⟨d, honly, hbody⟩ := joinBody_none a hc hb hu hops hx
  refine ⟨d, hbody.trans (if_neg hall), ?_⟩
  rw [honly.slot]
  exact ⟨rfl, .refl _⟩

end Join

/-- Settles O31. -/
theorem regrouping : Obligations.Regrouping := fun km d a v n imm base l x =>
  ⟨split_none km v n imm base, split_acts km v n imm base, refill_acts d imm base l x, refill_none d imm base, join_completes a base, join_waits a base⟩

end Sys2Proof.Machine
end

section
/-! PROOFS. Engine queues (O32). -/

namespace Sys2Proof.Machine

/-! ## Engine queues (R219, R220, R224, R229, R230) -/

/-! ### What the accounts of a command keep -/

/-- From d to e slots were at most woken, of the barriers only those that P names may differ, and of the engine queues only those that Q
names; the tiles, the clock and the launches stay. -/
structure Dev.Tallies (P : Nat → Nat → Prop) (Q : Nat → Bool → Prop) (d e : Dev) : Prop where
  woken : d.AtMostWakes e
  tile : ∀ h t, e.tile h t = d.tile h t
  clock : e.clock = d.clock
  launches : e.launches = d.launches
  bars : ∀ k j, ¬P k j → (e.core k).bar j = (d.core k).bar j
  queues : ∀ k cq, ¬Q k cq → (e.core k).eq cq = (d.core k).eq cq

theorem Core.eq_of_bare {k p : Core} (h : k.bare = p.bare) (cq : Bool) : k.eq cq = p.eq cq := (congrArg (Core.eq · cq) h :)

theorem Core.eq_updEq_ne (k : Core) {cq j : Bool} (hj : j ≠ cq) (f : EQ → EQ) : (k.updEq cq f).eq j = k.eq j := by
  obtain rfl : j = !cq := Bool.eq_not.mpr hj
  cases cq <;> rfl

namespace Dev.Tallies
variable {P : Nat → Nat → Prop} {Q : Nat → Bool → Prop} {d e f : Dev}

theorem refl (P : Nat → Nat → Prop) (Q : Nat → Bool → Prop) (d : Dev) : d.Tallies P Q d := ⟨.refl d, fun _ _ => rfl, rfl, rfl, fun _ _ _ => rfl, fun _ _ _ => rfl⟩
theorem trans (h : d.Tallies P Q e) (g : e.Tallies P Q f) : d.Tallies P Q f :=
  ⟨h.woken.trans g.woken, fun j t => (g.tile j t).trans (h.tile j t), g.clock.trans h.clock, g.launches.trans h.launches,
    fun k j hp => (g.bars k j hp).trans (h.bars k j hp), fun k cq hq => (g.queues k cq hq).trans (h.queues k cq hq)⟩
theorem alive (h : d.Tallies P Q e) (lk : Nat) : e.alive lk = d.alive lk := by rw [Dev.alive, Dev.launch?, h.launches]; rfl

theorem updCore (d : Dev) (h : Nat) {g : Core → Core} (hs : ∀ k n, (g k).slot n = k.slot n) (hb : ∀ k j, ¬P h j → (g k).bar j = k.bar j)
    (hq : ∀ k cq, ¬Q h cq → (g k).eq cq = k.eq cq) : d.Tallies P Q (d.updCore h g) := by
  refine ⟨.updCore_slots d h hs, fun _ _ => rfl, rfl, rfl, fun k j hp => ?_, fun k cq hp => ?_⟩ <;> by_cases hk : k = h
  · rw [hk, Dev.core_updCore_self]
    exact hb _ _ (hk ▸ hp)
  · rw [Dev.core_updCore_ne _ _ _ _ hk]
  · rw [hk, Dev.core_updCore_self]
    exact hq _ _ (hk ▸ hp)
  · rw [Dev.core_updCore_ne _ _ _ _ hk]

theorem wake (d : Dev) (h : Nat) (p : Nat → Slot → WaitFor → Bool) : d.Tallies P Q (d.wake h p) :=
  ⟨.wake d h p, fun _ _ => rfl, rfl, rfl, fun k j _ => congrFun (Core.bar_of_bare (Dev.bare_core_wake d h p k)) j,
    fun k cq _ => Core.eq_of_bare (Dev.bare_core_wake d h p k) cq⟩

theorem setBar (d : Dev) {h b : Nat} (hp : P h b) (x : Bar) : d.Tallies P Q (d.updCore h (fun k => k.setBar b x)) :=
  updCore d h (fun _ _ => rfl) (fun k j hj => (Core.bar_setBar k b j x).trans (if_neg (fun hx : j = b => hj (hx ▸ hp)))) (fun _ _ _ => rfl)

theorem updEq (d : Dev) {h : Nat} {cq : Bool} (hq : Q h cq) (g : EQ → EQ) : d.Tallies P Q (d.updCore h (fun k => k.updEq cq g)) :=
  updCore d h (fun _ _ => Core.slot_updEq _ _ _ _) (fun k j _ => by rw [Core.bar, Core.bars_updEq, Core.bar])
    (fun k cq' hn => Core.eq_updEq_ne k (fun hx : cq' = cq => hn (hx ▸ hq)) g)

theorem setObj (d : Dev) (h o : Nat) (x : Obj) : d.Tallies P Q (d.updCore h (fun k => k.setObj o x)) := updCore d h (fun _ _ => rfl) (fun _ _ _ => rfl) (fun _ _ _ => rfl)

theorem dropSealed (d : Dev) (h : Nat) (o : Obj) : d.Tallies P Q (d.dropSealed h o) := by
  have hcore : ∀ k, (d.dropSealed h o).core k = (d.core k).dropRange (windowOf h o.base) o.bytes := by
    intro k
    unfold Dev.dropSealed Dev.core
    exact AMap.get_map_snd Core.init d.cores (fun c => c.dropRange (windowOf h o.base) o.bytes) k rfl
  refine ⟨.dropSealed d h o, fun _ _ => rfl, rfl, rfl, fun k j _ => ?_, fun k cq _ => ?_⟩ <;> rw [hcore] <;> rfl

theorem foldl {α : Type} {g : Dev → α → Dev} (hg : ∀ (e : Dev) x, e.Tallies P Q (g e x)) (xs : List α) (d : Dev) : d.Tallies P Q (xs.foldl g d) :=
  List.foldlRecOn (motive := fun e => d.Tallies P Q e) _ _ (refl P Q d) (fun e he x _ => he.trans (hg e x))

theorem objUnref (d : Dev) (h o : Nat) : d.Tallies P Q (d.objUnref h o) := by
  unfold Dev.objUnref
  extract_lets x x' d1 d2
  have h1 : d.Tallies P Q d1 := setObj d h o x'
  have h2 : d.Tallies P Q d2 := h1.trans (wake d1 h _)
  clear_value d1 d2
  split
  · exact h1
  · split
    · exact h2
    · exact (h2.trans (dropSealed d2 h x)).trans (setObj _ _ _ _)

theorem completed (d : Dev) (h : Nat) (c : Cmd) : d.Tallies P Q (d.completed h c) := by
  have hstep : ∀ (e : Dev) (o : Nat × Nat), e.Tallies P Q (e.objUnref o.1 o.2) := fun e o => objUnref e o.1 o.2
  unfold Dev.completed
  generalize Dev.objUnref = g at hstep
  extract_lets d1
  have h1 : d.Tallies P Q d1 := by
    unfold d1
    split
    · exact hstep d (h, _)
    · exact refl P Q d
  exact h1.trans (foldl hstep _ _)

theorem barStep (d : Dev) {h b : Nat} (hp : P h b) (f : Bar → Bar) (drain : Bool) : d.Tallies P Q (d.barStep h b f drain) := by
  unfold Dev.barStep
  dsimp only
  split
  · exact (setBar d hp _).trans (wake _ _ _)
  · exact setBar d hp _

theorem barReport (d : Dev) {h b : Nat} (hp : P h b) (n : Nat) : d.Tallies P Q (d.barReport h b n) := by
  have hwake : d.Tallies P Q (d.wake h (fun _ _ w => w == .pend b)) := wake d h _
  unfold Dev.barReport
  dsimp only
  split
  · exact refl P Q d
  · split
    · exact hwake.trans (setBar _ hp _)
    · have hstep := hwake.trans (barStep _ hp (fun x => { x with pend := 0 }) true)
      split
      · split
        · exact hstep
        · exact hstep.trans (setBar _ hp _)
      · exact hstep

theorem removed (d : Dev) {h : Nat} {c : Cmd} (hp : P h c.bar) : d.Tallies P Q (d.removed h c) := (barReport d hp _).trans (completed _ h c)

theorem barError (d : Dev) {h b : Nat} (hp : P h b) (cause sub det : Nat) : d.Tallies P Q (d.barError h b cause sub det) := by
  refine updCore d h (fun _ _ => rfl) (fun k j hj => (Core.bar_setBar k b j _).trans (if_neg (fun hx : j = b => hj (hx ▸ hp)))) (fun _ _ _ => rfl)

theorem unitRan (d : Dev) (h : Nat) (cq : Bool) : d.Tallies P Q (d.unitRan h cq) := by
  unfold Dev.unitRan
  split
  · exact refl P Q d
  · refine ⟨.of_slots (fun _ _ => rfl), fun j t => ?_, rfl, rfl, fun _ _ _ => rfl, fun _ _ _ => rfl⟩
    unfold Dev.tile
    by_cases hj : courtOf j = courtOf h
    · rw [hj, Dev.court, Dev.updCourt, AMap.upd, AMap.get_put_self]
      rfl
    · rw [Dev.court, Dev.updCourt, AMap.upd, AMap.get_put_ne _ _ _ _ _ hj, Dev.court]

end Dev.Tallies

/-! ### Bytes reported (R177, R178) -/

theorem Bar.test_same (x : Bar) (drain : Bool) : ∃ a p, (x.test drain).1 = { x with arr := a, ph := p } := by
  unfold Bar.test
  split <;> exact ⟨_, _, rfl⟩

/-- A barrier after a report of bytes: a pending count, arrivals and a phase; or reset, at the drain of an ended launch's. -/
theorem Dev.bar_of_report (d : Dev) (h b n : Nat) : let x := (d.core h).bar b
    (∃ a p, ((d.barReport h b n).core h).bar b = { x with pend := x.pend - n, arr := a, ph := p }) ∨
    ((((d.barReport h b n).core h).bar b = .init) ∧ x.pend ≤ n ∧ ∃ lk, x.owner = some lk ∧ d.alive lk = false) := by
  intro x
  obtain ⟨d1, hd1⟩ : ∃ d1, d1 = d.wake h (fun _ _ w => w == .pend b) := ⟨_, rfl⟩
  have hx1 : (d1.core h).bar b = x := by
    rw [hd1]
    exact congrFun (Core.bar_of_bare (Dev.bare_core_wake d h _ h)) b
  unfold Dev.barReport
  dsimp only
  rw [← hd1]
  split
  · next h0 =>
    refine Or.inl ⟨x.arr, x.ph, ?_⟩
    have hp : x.pend - n = x.pend := by rcases h0 with h0 | h0 <;> [omega; (show x.pend - n = x.pend; have : x.pend = 0 := h0; omega)]
    rw [hp]
  · split
    · refine Or.inl ⟨x.arr, x.ph, ?_⟩
      rw [Dev.core_updCore_self, Core.bar_setBar, if_pos rfl]
    · next hle =>
      have hz : x.pend - n = 0 := by have : ¬n < x.pend := hle; omega
      obtain ⟨k, hk, -, hbar⟩ := d1.barStep_spec h b (fun x => { x with pend := 0 }) true
      have hb := hbar b
      rw [if_pos rfl, hx1] at hb
      obtain ⟨a, p, htest⟩ := Bar.test_same { x with pend := 0 } true
      have hstep : ((d1.barStep h b (fun x => { x with pend := 0 }) true).core h).bar b = { x with pend := x.pend - n, arr := a, ph := p } := by
        rw [hk.core, hb, htest, hz]
      split
      · next lk hlk =>
        split
        · exact Or.inl ⟨a, p, hstep⟩
        · next hal =>
          refine Or.inr ⟨?_, by omega, lk, hlk, ?_⟩
          · rw [Dev.core_updCore_self, Core.bar_setBar, if_pos rfl]
          · have hsame : (d1.barStep h b (fun x => { x with pend := 0 }) true).alive lk = d.alive lk :=
              (Dev.Tallies.barStep (P := fun _ _ => True) (Q := fun _ _ => True) d1 trivial _ _).alive lk |>.trans
                (hd1 ▸ (Dev.Tallies.wake (P := fun _ _ => True) (Q := fun _ _ => True) d h _).alive lk)
            rw [← hsame]
            exact Bool.eq_false_iff.mpr hal
      · exact Or.inl ⟨a, p, hstep⟩

theorem Dev.pend_barReport (d : Dev) (h b n : Nat) : (((d.barReport h b n).core h).bar b).pend = ((d.core h).bar b).pend - n := by
  rcases d.bar_of_report h b n with ⟨a, p, hb⟩ | ⟨hb, hle, -⟩
  · rw [hb]
  · rw [hb]
    show 0 = _
    omega

/-- What an operation that may not change a queue at all, and no barrier, does to a core's barriers and queues. -/
def nobody {α β : Type} (_ : α) (_ : β) : Prop := False

/-! ### A command that has executed (R223, R225) -/

/-- A queue at whose head a command stands. -/
structure QCtx.Heads (q : QCtx) (d : Dev) (r : List Cmd) : Prop where
  queue : ((d.core q.h).eq q.cq).q = q.c :: r
  left : q.c.left = 1
  live : ∀ x, x ∈ ((d.core q.h).eq q.cq).live → x.seq ≠ q.c.seq
  rest : ∀ x, x ∈ r → x.seq ≠ q.c.seq

/-- A queue whose head has executed and waits to complete, and one whose head has been reported. -/
def EQ.retiring (e : EQ) (c : Cmd) (r : List Cmd) : EQ := { e with q := r, live := e.live ++ [c] }

theorem EQ.cmd?_retiring {e : EQ} {c : Cmd} (hl : ∀ x, x ∈ e.live → x.seq ≠ c.seq) (r : List Cmd) : (e.retiring c r).cmd? c.seq = some c := by
  unfold EQ.cmd? EQ.retiring
  dsimp only
  rw [List.append_assoc, List.find?_append, List.find?_eq_none.mpr (fun x hx => by simpa using hl x hx), Option.none_or, List.singleton_append,
    List.find?_cons_of_pos (by simp)]

theorem map_seq_ne {l : List Cmd} {seq : Nat} (h : ∀ x, x ∈ l → x.seq ≠ seq) (f : Cmd → Cmd) : l.map (fun c => if c.seq == seq then f c else c) = l := by
  refine (List.map_congr_left (g := id) (fun x hx => ?_)).trans (List.map_id l)
  exact if_neg (by simpa using h x hx)

theorem EQ.updCmd_retiring {e : EQ} {c : Cmd} {r : List Cmd} (hl : ∀ x, x ∈ e.live → x.seq ≠ c.seq) (hr : ∀ x, x ∈ r → x.seq ≠ c.seq) (f : Cmd → Cmd) :
    (e.retiring c r).updCmd c.seq f = e.retiring (f c) r := by
  unfold EQ.updCmd EQ.retiring
  dsimp only
  rw [List.map_append, map_seq_ne hl, map_seq_ne hr, List.map_cons, if_pos (by simp), List.map_nil]

/-- The command after its report. -/
def Cmd.reported (c : Cmd) (take : Nat) : Cmd := { c with left := c.left - take, total := c.total - 1 }
def EQ.completed (e : EQ) (seq : Nat) : EQ := { e with live := e.live.filter (fun x => x.seq != seq) }

theorem EQ.completed_retiring {e : EQ} {c : Cmd} {seq : Nat} (hl : ∀ x, x ∈ e.live → x.seq ≠ seq) (hc : c.seq = seq) (r : List Cmd) :
    (e.retiring c r).completed seq = { e with q := r } := by
  unfold EQ.completed EQ.retiring
  dsimp only
  rw [List.filter_append, List.filter_eq_self.mpr (fun x hx => by simpa using hl x hx), List.filter_cons_of_neg (by simp [hc]), List.filter_nil,
    List.append_nil]

/-- A command of one byte that has executed is gone; its barrier owes one byte fewer. -/
theorem QCtx.executed_spec {q : QCtx} {d : Dev} {r : List Cmd} (hd : q.Heads d r) :
    d.Tallies (fun h b => h = q.h ∧ b = q.c.bar) (fun h cq => h = q.h ∧ cq = q.cq) (q.executed d) ∧
    ((q.executed d).core q.h).eq q.cq = { (d.core q.h).eq q.cq with q := r } ∧
    (((q.executed d).core q.h).bar q.c.bar).pend = ((d.core q.h).bar q.c.bar).pend - 1 := by
  obtain ⟨P, hP⟩ : ∃ P : Nat → Nat → Prop, P = fun h b => h = q.h ∧ b = q.c.bar := ⟨_, rfl⟩
  obtain ⟨Q, hQ⟩ : ∃ Q : Nat → Bool → Prop, Q = fun h cq => h = q.h ∧ cq = q.cq := ⟨_, rfl⟩
  have hp : P q.h q.c.bar := by rw [hP]; exact ⟨rfl, rfl⟩
  have hq : Q q.h q.cq := by rw [hQ]; exact ⟨rfl, rfl⟩
  rw [← hP, ← hQ]
  obtain ⟨E, hE⟩ : ∃ E, E = (d.core q.h).eq q.cq := ⟨_, rfl⟩
  obtain ⟨d1, hd1⟩ : ∃ d1, d1 = (d.unitRan q.h q.cq).updCore q.h (fun k => k.updEq q.cq (fun e => e.retiring q.c r)) := ⟨_, rfl⟩
  obtain ⟨d2, hd2⟩ : ∃ d2, d2 = d1.updCmd q.h q.cq q.c.seq (fun c => c.reported 1) := ⟨_, rfl⟩
  obtain ⟨d3, hd3⟩ : ∃ d3, d3 = d2.barReport q.h q.c.bar 1 := ⟨_, rfl⟩
  obtain ⟨d4, hd4⟩ : ∃ d4, d4 = d3.updCore q.h (fun k => k.updEq q.cq (fun e => e.completed q.c.seq)) := ⟨_, rfl⟩
  obtain ⟨d5, hd5⟩ : ∃ d5, d5 = (d4.completed q.h q.c).wake q.h (fun _ _ w => w == .queue q.cq) := ⟨_, rfl⟩
  have hret : d.retireHead q.h q.cq = d1 := by
    unfold Dev.retireHead
    rw [hd.queue]
    dsimp only
    rw [if_neg (by rw [hd.left]; decide), hd1]
    refine congrArg (Dev.updCore (d.unitRan q.h q.cq) q.h) (funext fun k => congrArg (Core.updEq k q.cq) (funext fun e => ?_))
    rw [if_neg (by rw [hd.left]; decide)]
    rfl
  have h1 : (d1.core q.h).eq q.cq = E.retiring q.c r := by
    rw [hd1, Dev.core_updCore_self, Core.eq_updEq, (Dev.Tallies.unitRan (P := nobody) (Q := nobody) d q.h q.cq).queues _ _ (fun h => h), hE]
  have h2 : (d2.core q.h).eq q.cq = E.retiring (q.c.reported 1) r := by
    rw [hd2, Dev.updCmd, Dev.core_updCore_self, Core.eq_updEq, h1, EQ.updCmd_retiring (hE ▸ hd.live) hd.rest]
  have hrep : d2.Tallies P nobody d3 := hd3 ▸ Dev.Tallies.barReport d2 hp 1
  have h3 : (d3.core q.h).eq q.cq = E.retiring (q.c.reported 1) r := (hrep.queues _ _ (fun h => h)).trans h2
  have h4 : (d4.core q.h).eq q.cq = { E with q := r } := by
    rw [hd4, Dev.core_updCore_self, Core.eq_updEq, h3]
    exact EQ.completed_retiring (hE ▸ hd.live) rfl r
  have hend : ∀ P Q, d4.Tallies P Q d5 := fun P Q => hd5 ▸ (Dev.Tallies.completed d4 q.h q.c).trans (Dev.Tallies.wake _ _ _)
  have hexec : q.executed d = d5 := by
    unfold QCtx.executed
    rw [hret]
    unfold Dev.cmdReport
    rw [show d1.cmd? q.h q.cq q.c.seq = some q.c by rw [Dev.cmd?, h1, EQ.cmd?_retiring (hE ▸ hd.live)]]
    dsimp only
    have htake : (if q.c.total = 1 then q.c.left else min 1 q.c.left) = 1 := by rw [hd.left]; simp
    rw [htake]
    have hupd : d1.updCmd q.h q.cq q.c.seq (fun c => { c with left := c.left - 1, total := c.total - 1 }) = d2 := hd2.symm
    have hlive : (((d3.core q.h).eq q.cq).live.any (fun x => x.seq == q.c.seq)) = true := by
      rw [h3]
      exact List.any_eq_true.mpr ⟨q.c.reported 1, List.mem_append_right _ (List.mem_singleton.mpr rfl), by simp [Cmd.reported]⟩
    rw [hupd, ← hd3, if_pos ⟨hd.left, hlive⟩, hd5, hd4]
    rfl
  have hbase : d.Tallies P Q d4 := by
    have ht1 : d.Tallies P Q d1 := hd1 ▸ (Dev.Tallies.unitRan d q.h q.cq).trans (Dev.Tallies.updEq _ hq _)
    have ht2 : d1.Tallies P Q d2 := hd2 ▸ Dev.Tallies.updEq _ hq _
    have ht3 : d2.Tallies P Q d3 := hd3 ▸ Dev.Tallies.barReport d2 hp 1
    exact ((ht1.trans ht2).trans ht3).trans (hd4 ▸ Dev.Tallies.updEq _ hq _)
  have hbar2 : (d2.core q.h).bar q.c.bar = (d.core q.h).bar q.c.bar := by
    have ht1 : d.Tallies nobody Q d1 := hd1 ▸ (Dev.Tallies.unitRan d q.h q.cq).trans (Dev.Tallies.updEq _ hq _)
    have ht2 : d1.Tallies nobody Q d2 := hd2 ▸ Dev.Tallies.updEq _ hq _
    exact (ht1.trans ht2).bars _ _ (fun h => h)
  have hbar5 : (d5.core q.h).bar q.c.bar = (d3.core q.h).bar q.c.bar := by
    have ht4 : d3.Tallies nobody Q d4 := hd4 ▸ Dev.Tallies.updEq _ hq _
    exact (ht4.trans (hend nobody Q)).bars _ _ (fun h => h)
  rw [hexec]
  refine ⟨hbase.trans (hend P Q), ?_, ?_⟩
  · rw [(hend nobody nobody).queues _ _ (fun h => h), h4, hE]
  · rw [hbar5, hd3, Dev.pend_barReport, hbar2]

/-! ### A command that leaves with an error (R67, R178) -/

/-- A command that leaves with an error: its queue goes on behind it, and its barrier records the error, if it has none yet. -/
theorem Dev.failHead_spec {d : Dev} {h : Nat} {cq : Bool} {c : Cmd} {r : List Cmd} (hq : ((d.core h).eq cq).q = c :: r) (cause sub det : Nat) :
    d.Tallies (fun k b => k = h ∧ b = c.bar) (fun k j => k = h ∧ j = cq) (d.failHead h cq cause sub det) ∧
    ((d.failHead h cq cause sub det).core h).eq cq = { (d.core h).eq cq with q := r } ∧
    ∀ lk, ((d.core h).bar c.bar).owner = some lk → d.alive lk = true → ((d.core h).bar c.bar).err = false →
      (((d.failHead h cq cause sub det).core h).bar c.bar).err = true ∧
      (((d.failHead h cq cause sub det).core h).bar c.bar).code = BitVec.ofNat 16 (256 * (cause % 256) + sub % 256) := by
  obtain ⟨P, hP⟩ : ∃ P : Nat → Nat → Prop, P = fun k b => k = h ∧ b = c.bar := ⟨_, rfl⟩
  obtain ⟨Q, hQ⟩ : ∃ Q : Nat → Bool → Prop, Q = fun k j => k = h ∧ j = cq := ⟨_, rfl⟩
  have hp : P h c.bar := by rw [hP]; exact ⟨rfl, rfl⟩
  have hqq : Q h cq := by rw [hQ]; exact ⟨rfl, rfl⟩
  rw [← hP, ← hQ]
  obtain ⟨d1, hd1⟩ : ∃ d1, d1 = d.updCore h (fun k => k.updEq cq (fun e => { e with q := r })) := ⟨_, rfl⟩
  obtain ⟨d2, hd2⟩ : ∃ d2, d2 = d1.wakeQueue h cq := ⟨_, rfl⟩
  obtain ⟨d3, hd3⟩ : ∃ d3, d3 = d2.barError h c.bar cause sub det := ⟨_, rfl⟩
  obtain ⟨d4, hd4⟩ : ∃ d4, d4 = d3.barReport h c.bar c.left := ⟨_, rfl⟩
  have hfail : d.failHead h cq cause sub det = d4.completed h c := by
    unfold Dev.failHead Dev.removed
    rw [hq]
    dsimp only
    rw [hd4, hd3, hd2, hd1]
  have ht1 : ∀ P, d.Tallies P Q d1 := fun P => hd1 ▸ Dev.Tallies.updEq _ hqq _
  have ht2 : ∀ P Q, d1.Tallies P Q d2 := fun P Q => hd2 ▸ Dev.Tallies.wake _ _ _
  have ht3 : ∀ Q, d2.Tallies P Q d3 := fun Q => hd3 ▸ Dev.Tallies.barError _ hp _ _ _
  have ht4 : ∀ Q, d3.Tallies P Q d4 := fun Q => hd4 ▸ Dev.Tallies.barReport _ hp _
  have ht5 : ∀ P Q, d4.Tallies P Q (d4.completed h c) := fun P Q => Dev.Tallies.completed d4 h c
  rw [hfail]
  refine ⟨((((ht1 P).trans (ht2 P Q)).trans (ht3 Q)).trans (ht4 Q)).trans (ht5 P Q), ?_, fun lk hlk hal herr => ?_⟩
  · rw [((((ht2 P nobody).trans (ht3 nobody)).trans (ht4 nobody)).trans (ht5 P nobody)).queues _ _ (fun h => h), hd1, Dev.core_updCore_self, Core.eq_updEq]
  · have hb2 : (d2.core h).bar c.bar = (d.core h).bar c.bar := ((ht1 nobody).trans (ht2 nobody Q)).bars _ _ (fun h => h)
    have hb3 : (d3.core h).bar c.bar = ((d.core h).bar c.bar).error cause sub det := by
      rw [hd3, Dev.barError, Dev.core_updCore_self, Core.bar_setBar, if_pos rfl, hb2]
    have herror : ((d.core h).bar c.bar).error cause sub det = { (d.core h).bar c.bar with err := true, code := BitVec.ofNat 16 (256 * (cause % 256) + sub % 256), det := BitVec.ofNat 16 det } := by
      unfold Bar.error
      rw [if_neg (by simp [herr, hlk])]
    rw [(ht5 nobody Q).bars _ _ (fun h => h), hd4]
    rcases d3.bar_of_report h c.bar c.left with ⟨a, p, hb⟩ | ⟨-, -, lk', hlk', hal'⟩
    · rw [hb, hb3, herror]
      exact ⟨rfl, rfl⟩
    · rw [hb3, herror] at hlk'
      obtain rfl : lk = lk' := Option.some.inj (hlk.symm.trans hlk')
      rw [(((ht1 P).trans (ht2 P Q)).trans (ht3 Q)).alive, hal] at hal'
      exact Bool.noConfusion hal'

/-! ### Commands -/

/-- What every command keeps of a slot. -/
def Slot.SameUser (a b : Slot) : Prop := b.pc = a.pc ∧ ∀ j, b.A j = a.A j ∧ b.V j = a.V j ∧ b.K j = a.K j

theorem Slot.Woken.sameUser {a b : Slot} (h : a.Woken b) : a.SameUser b := by
  rcases h with rfl | ⟨k, rfl⟩ <;> exact ⟨rfl, fun _ => ⟨rfl, rfl, rfl⟩⟩

theorem commands_of {i : Instr} {body : QCtx → Dev} {pre : QCtx → List Cmd → Prop} {post : QCtx → List Cmd → Dev → Prop}
    (he : ∀ s, exec i s = command body s) (hb : ∀ q r, ((q.d.core q.h).eq q.cq).q = q.c :: r → pre q r →
      (∀ h n, (q.d.slot h n).SameUser ((body q).slot h n)) ∧ post q r (body q)) : Commands i pre post := by
  intro s h cq c r hcur hq hpre
  obtain ⟨hslots, hpost⟩ := hb ⟨s.mem, h, cq, c, s.dev⟩ r hq hpre
  refine ⟨⟨s.mem, body ⟨s.mem, h, cq, c, s.dev⟩⟩, ?_, fun _ => rfl, hslots, hpost⟩
  rw [he]
  unfold command
  rw [hcur]
  dsimp only
  rw [hq]

theorem QCtx.heads {q : QCtx} {r : List Cmd} (hq : ((q.d.core q.h).eq q.cq).q = q.c :: r) (h : q.alone r ∧ q.c.left = 1) : q.Heads q.d r :=
  ⟨hq, h.2, fun x hx => h.1 x (List.mem_append_left _ hx), fun x hx => h.1 x (List.mem_append_right _ hx)⟩

section Executed
variable {q : QCtx} {d : Dev} {r : List Cmd}

/-- A change of tiles or of one's own queue's context before a command executes. -/
theorem QCtx.Heads.of_queue (h : q.Heads q.d r) (hq : ((d.core q.h).eq q.cq).q = ((q.d.core q.h).eq q.cq).q)
    (hl : ((d.core q.h).eq q.cq).live = ((q.d.core q.h).eq q.cq).live) : q.Heads d r :=
  ⟨hq.trans h.queue, h.left, hl ▸ h.live, h.rest⟩

/-- The command retires, whatever it did before that left its barrier's pending bytes and its queue's commands as they were. -/
theorem QCtx.retired_executed (h : q.Heads d r) (hl : ((d.core q.h).eq q.cq).live = ((q.d.core q.h).eq q.cq).live)
    (hp : ((d.core q.h).bar q.c.bar).pend = ((q.d.core q.h).bar q.c.bar).pend) : q.retired r (q.executed d) := by
  obtain ⟨-, heq, hpend⟩ := QCtx.executed_spec h
  exact ⟨congrArg EQ.q heq, (congrArg EQ.live heq).trans hl, hpend.trans (by rw [hp])⟩

theorem QCtx.sameUser_executed (h : q.Heads d r) (hd : ∀ j n, (q.d.slot j n).Woken (d.slot j n)) (j n : Nat) :
    (q.d.slot j n).SameUser ((q.executed d).slot j n) :=
  ((hd j n).trans ((QCtx.executed_spec h).1.woken j n)).sameUser

end Executed

section Plain
variable {i : Instr} (he : ∀ s, exec i s = command (fun q => q.executed q.d) s)
include he

/-- A command that only executes. -/
theorem plain_commands : Commands i (fun q r => q.alone r ∧ q.c.left = 1)
    (fun q r e => q.retired r e ∧ ((e.core q.h).eq q.cq).ctx = ((q.d.core q.h).eq q.cq).ctx ∧ ∀ t, ¬False → e.tile q.h t = q.d.tile q.h t) := by
  refine commands_of he (fun q r hq h => ?_)
  have hh := QCtx.heads hq h
  obtain ⟨htal, heq, -⟩ := QCtx.executed_spec hh
  exact ⟨QCtx.sameUser_executed hh (fun _ _ => .refl _), QCtx.retired_executed hh rfl rfl, (congrArg EQ.ctx heq :), fun t _ => htal.tile q.h t⟩

end Plain

theorem Commands.mono {i : Instr} {pre pre' : QCtx → List Cmd → Prop} {post post' : QCtx → List Cmd → Dev → Prop} (h : Commands i pre post)
    (hpre : ∀ q r, pre' q r → pre q r) (hpost : ∀ q r e, pre' q r → post q r e → post' q r e) : Commands i pre' post' := by
  intro s h' cq c r hcur hq hp
  obtain ⟨t, ht, hm, hs, hpo⟩ := h s h' cq c r hcur hq (hpre _ _ hp)
  exact ⟨t, ht, hm, hs, hpost _ _ _ hp hpo⟩

section Commands
variable (hd : TileHdr) (ctx : W32) (acc cnt : BitVec 2) (sbar : BitVec 9) (ph : Bool)

/-- An engine queue with another format context. -/
def EQ.setCtx (e : EQ) (ctx : W32) : EQ := { e with ctx := ctx }

theorem fmtSet_commands : Commands (.fmtSet hd ctx) (fun q r => (q.alone r ∧ q.c.left = 1) ∧ ctxSub ctx = 0)
    (fun q r e => q.retired r e ∧ ((e.core q.h).eq q.cq).ctx = ctx) := by
  refine commands_of (body := fun q => if ctxSub ctx ≠ 0 then q.d.rsvfmt q.h q.cq (ctxSub ctx) ctx
    else q.executed (q.d.updCore q.h (fun k => k.updEq q.cq (fun e => e.setCtx ctx)))) (fun _ => by unfold exec execFmtSet; rfl) (fun q r hq ⟨h, hc⟩ => ?_)
  rw [if_neg (not_not_intro hc)]
  obtain ⟨d, hdd⟩ : ∃ d, d = q.d.updCore q.h (fun k => k.updEq q.cq (fun e => e.setCtx ctx)) := ⟨_, rfl⟩
  have heq : (d.core q.h).eq q.cq = ((q.d.core q.h).eq q.cq).setCtx ctx := by rw [hdd, Dev.core_updCore_self, Core.eq_updEq]
  have htal : q.d.Tallies nobody (fun _ _ => True) d := hdd ▸ Dev.Tallies.updEq q.d trivial _
  have hh : q.Heads d r := (QCtx.heads hq h).of_queue (congrArg EQ.q heq :) (congrArg EQ.live heq :)
  rw [← hdd]
  refine ⟨QCtx.sameUser_executed hh htal.woken, QCtx.retired_executed hh (congrArg EQ.live heq :) (congrArg Bar.pend (htal.bars _ _ (fun h => h))), ?_⟩
  exact (congrArg EQ.ctx (QCtx.executed_spec hh).2.1).trans (congrArg EQ.ctx heq)

theorem refusedWith_failHead {q : QCtx} {r : List Cmd} (hq : ((q.d.core q.h).eq q.cq).q = q.c :: r) {cause sub : Nat} (det : Nat) (hc : cause < 256) (hs : sub < 256) :
    q.refusedWith r (q.d.failHead q.h q.cq cause sub det) cause sub := by
  obtain ⟨-, heq, herr⟩ := Dev.failHead_spec hq cause sub det
  refine ⟨congrArg EQ.q heq, fun lk hlk hal he => ?_⟩
  have h := herr lk hlk hal he
  rwa [Nat.mod_eq_of_lt hc, Nat.mod_eq_of_lt hs] at h

/-- A command that its queue rejects. -/
theorem rejected {i : Instr} {body : QCtx → Dev} {pre : QCtx → List Cmd → Prop} (he : ∀ s, exec i s = command body s)
    (hb : ∀ q r, pre q r → body q = q.d.rejectHead q.h q.cq 5) :
    Commands i pre (fun q r e => q.refusedWith r e 0x60 5 ∧ ∀ t, ¬False → e.tile q.h t = q.d.tile q.h t) := by
  refine commands_of he (fun q r hq hp => ?_)
  rw [hb q r hp, Dev.rejectHead]
  obtain ⟨htal, -, -⟩ := Dev.failHead_spec hq 0x60 5 0
  exact ⟨fun j n => (htal.woken j n).sameUser, refusedWith_failHead hq 0 (by decide) (by decide), fun t _ => htal.tile _ _⟩

/-! ### Tiles -/

theorem Dev.tile_setTile (d : Dev) (h t j : Nat) (x : Tile) : (d.setTile h t x).tile h j = if j = t then x else d.tile h j := by
  unfold Dev.tile Dev.setTile Dev.court Dev.updCourt AMap.upd
  dsimp only
  rw [AMap.get_put_self]
  split
  · next hj => rw [hj, AMap.get_put_self]
  · next hj => rw [AMap.get_put_ne _ _ _ _ _ hj]

/-- Tiles changed one after another, each by what it held. -/
def Dev.mapTiles (d : Dev) (h : Nat) (f : Tile → Tile) (ts : List Nat) : Dev := ts.foldl (fun d t => d.setTile h t (f (d.tile h t))) d

theorem Dev.mapTiles_cores (d : Dev) (h : Nat) (f : Tile → Tile) (ts : List Nat) : (d.mapTiles h f ts).cores = d.cores := by
  induction ts generalizing d with
  | nil => rfl
  | cons t ts ih => exact ih _

theorem Dev.tile_mapTiles {f : Tile → Tile} (hf : ∀ x, f (f x) = f x) (d : Dev) (h : Nat) (ts : List Nat) (j : Nat) :
    (d.mapTiles h f ts).tile h j = if j ∈ ts then f (d.tile h j) else d.tile h j := by
  induction ts generalizing d with
  | nil => rfl
  | cons t ts ih =>
    refine (ih (d.setTile h t (f (d.tile h t)))).trans ?_
    rw [Dev.tile_setTile]
    by_cases hj : j = t
    · rw [if_pos hj, if_pos (hj ▸ List.mem_cons_self : j ∈ t :: ts), hj, hf, ite_self]
    · rw [if_neg hj]
      simp [hj]

/-- A command that changes its tiles and executes. -/
theorem tiles_commands {i : Instr} {pre : QCtx → List Cmd → Prop} {body : QCtx → Dev} (f : QCtx → Tile → Tile) (hf : ∀ q x, f q (f q x) = f q x)
    (he : ∀ s, exec i s = command body s) (hpre : ∀ q r, pre q r → q.alone r ∧ q.c.left = 1)
    (hb : ∀ q r, pre q r → body q = q.executed (q.d.mapTiles q.h (f q) (tilesFrom acc cnt))) :
    Commands i pre (fun q r e => q.retired r e ∧ (∀ t, t ∉ tilesFrom acc cnt → e.tile q.h t = q.d.tile q.h t) ∧
      ∀ t, t ∈ tilesFrom acc cnt → e.tile q.h t = f q (q.d.tile q.h t)) := by
  refine commands_of he (fun q r hq hp => ?_)
  rw [hb q r hp]
  obtain ⟨d, hdd⟩ : ∃ d, d = q.d.mapTiles q.h (f q) (tilesFrom acc cnt) := ⟨_, rfl⟩
  have hcore : ∀ k, d.core k = q.d.core k := fun k => by rw [Dev.core, hdd, Dev.mapTiles_cores, Dev.core]
  have hh : q.Heads d r := (QCtx.heads hq (hpre q r hp)).of_queue (by rw [hcore]) (by rw [hcore])
  have htile : ∀ t, (q.executed d).tile q.h t = if t ∈ tilesFrom acc cnt then f q (q.d.tile q.h t) else q.d.tile q.h t := by
    intro t
    rw [(QCtx.executed_spec hh).1.tile, hdd, Dev.tile_mapTiles (hf q)]
  rw [← hdd]
  refine ⟨QCtx.sameUser_executed hh (fun j n => by rw [Dev.slot, Dev.slot, hcore]; exact .refl _), QCtx.retired_executed hh (by rw [hcore]) (by rw [hcore]),
    fun t ht => (htile t).trans (if_neg ht), fun t ht => (htile t).trans (if_pos ht)⟩

theorem accZero_commands : Commands (.accZero hd acc cnt) (fun q r => q.alone r ∧ q.c.left = 1)
    (fun q r e => q.retired r e ∧ (∀ t, t ∉ tilesFrom acc cnt → e.tile q.h t = q.d.tile q.h t) ∧
      ∀ t, t ∈ tilesFrom acc cnt → e.tile q.h t = ⟨some (q.h % 4), .empty, q.c.lk⟩) :=
  tiles_commands acc cnt (fun q _ => ⟨some (q.h % 4), .empty, q.c.lk⟩) (fun _ _ => rfl) (fun _ => by unfold exec execAccZero; rfl) (fun _ _ h => h) (fun _ _ _ => rfl)

theorem ownsAll_iff (d : Dev) (h : Nat) (ts : List Nat) : d.ownsAll h ts = true ↔ ∀ t, t ∈ ts → (d.tile h t).owner = some (h % 4) := by
  unfold Dev.ownsAll
  simp

def accRelBody (q : QCtx) : Dev :=
  if !q.d.ownsAll q.h (tilesFrom acc cnt) then q.d.rejectHead q.h q.cq 5
  else q.executed (q.d.mapTiles q.h (fun x => { x with owner := none }) (tilesFrom acc cnt))

theorem exec_accRel (s : State) : exec (.accRel hd acc cnt) s = command (accRelBody acc cnt) s := by
  unfold exec execAccRel
  rfl

theorem accRel_commands : Commands (.accRel hd acc cnt)
    (fun q r => (q.alone r ∧ q.c.left = 1) ∧ ∀ t, t ∈ tilesFrom acc cnt → (q.d.tile q.h t).owner = some (q.h % 4))
    (fun q r e => q.retired r e ∧ (∀ t, t ∉ tilesFrom acc cnt → e.tile q.h t = q.d.tile q.h t) ∧
      ∀ t, t ∈ tilesFrom acc cnt → e.tile q.h t = { q.d.tile q.h t with owner := none }) := by
  refine tiles_commands acc cnt (fun _ x => { x with owner := none }) (fun _ _ => rfl) (exec_accRel hd acc cnt) (fun _ _ h => h.1) (fun q r ⟨_, hown⟩ => ?_)
  unfold accRelBody
  rw [(ownsAll_iff _ _ _).mpr hown]
  rfl

theorem accRel_rejected : Commands (.accRel hd acc cnt) (fun q _ => ∃ t, t ∈ tilesFrom acc cnt ∧ (q.d.tile q.h t).owner ≠ some (q.h % 4))
    (fun q r e => q.refusedWith r e 0x60 5 ∧ ∀ t, ¬False → e.tile q.h t = q.d.tile q.h t) := by
  refine rejected (exec_accRel hd acc cnt) (fun q r ⟨t, ht, hne⟩ => ?_)
  unfold accRelBody
  rw [if_pos (by rw [Bool.not_eq_true', Bool.eq_false_iff]; exact fun h => hne ((ownsAll_iff _ _ _).mp h t ht))]

/-! ### sig and twait -/

def sigBody (q : QCtx) : Dev :=
  let x := (q.d.core q.h).bar sbar.toNat
  if x.check q.c.lk ≠ 0 then q.d.rejectHead q.h q.cq 5
  else if x.arr = 0xFFFF#16 then q.executed (q.d.barError q.h q.c.bar 0x60 5 0)
  else q.executed (q.d.barStep q.h sbar.toNat (fun x => { x with arr := x.arr + 1 }) false)

theorem exec_sig (s : State) : exec (.sig hd sbar) s = command (sigBody sbar) s := by
  unfold exec execSig
  rfl

def twaitBody (q : QCtx) : Dev :=
  if ((q.d.core q.h).bar sbar.toNat).check q.c.lk ≠ 0 then q.d.rejectHead q.h q.cq 5 else q.executed q.d

theorem exec_twait (s : State) : exec (.twait hd sbar ph) s = command (twaitBody sbar) s := by
  unfold exec execTwait
  rfl

theorem Bar.check_other {x : Bar} {lk : Nat} (h : x.owner ≠ some lk) : x.check lk ≠ 0 := by
  unfold Bar.check
  split
  · decide
  · next o ho =>
    rw [if_neg (fun he => h (by rw [ho, beq_iff_eq.mp he]))]
    decide

theorem sig_commands : Commands (.sig hd sbar) (fun q r => (q.alone r ∧ q.c.left = 1) ∧ ((q.d.core q.h).bar sbar.toNat).owner = some q.c.lk ∧
      ((q.d.core q.h).bar sbar.toNat).arr ≠ 0xFFFF#16)
    (fun q r e => q.retired r e ∧ (sbar.toNat ≠ q.c.bar → (e.core q.h).bar sbar.toNat =
      ({ (q.d.core q.h).bar sbar.toNat with arr := ((q.d.core q.h).bar sbar.toNat).arr + 1 }.test false).1)) := by
  refine commands_of (exec_sig hd sbar) (fun q r hq ⟨h, hown, harr⟩ => ?_)
  unfold sigBody
  dsimp only
  rw [if_neg (not_not_intro (Bar.check_own hown)), if_neg harr]
  obtain ⟨k, hk, -, hbar⟩ := q.d.barStep_spec q.h sbar.toNat (fun x => { x with arr := x.arr + 1 }) false
  have htal : q.d.Tallies (fun _ _ => True) nobody (q.d.barStep q.h sbar.toNat (fun x => { x with arr := x.arr + 1 }) false) := .barStep q.d trivial _ _
  obtain ⟨d, hdd⟩ : ∃ d, d = q.d.barStep q.h sbar.toNat (fun x => { x with arr := x.arr + 1 }) false := ⟨_, rfl⟩
  rw [← hdd] at hk htal ⊢
  have heq : (d.core q.h).eq q.cq = (q.d.core q.h).eq q.cq := htal.queues _ _ (fun h => h)
  have hh : q.Heads d r := (QCtx.heads hq h).of_queue (congrArg EQ.q heq) (congrArg EQ.live heq)
  refine ⟨QCtx.sameUser_executed hh htal.woken, QCtx.retired_executed hh (congrArg EQ.live heq) ?_, fun hne => ?_⟩
  · rw [hk.core, hbar]
    split
    · next hb =>
      obtain ⟨a, p, ht⟩ := Bar.test_same { (q.d.core q.h).bar sbar.toNat with arr := ((q.d.core q.h).bar sbar.toNat).arr + 1 } false
      rw [ht, hb]
    · rfl
  · rw [(QCtx.executed_spec hh).1.bars _ _ (fun hx => hne hx.2), hk.core, hbar, if_pos rfl]

theorem twait_commands : Commands (.twait hd sbar ph) (fun q r => (q.alone r ∧ q.c.left = 1) ∧ ((q.d.core q.h).bar sbar.toNat).owner = some q.c.lk)
    (fun q r e => q.retired r e ∧ ∀ t, ¬False → e.tile q.h t = q.d.tile q.h t) := by
  refine commands_of (exec_twait hd sbar ph) (fun q r hq ⟨h, hown⟩ => ?_)
  unfold twaitBody
  rw [if_neg (not_not_intro (Bar.check_own hown))]
  have hh := QCtx.heads hq h
  exact ⟨QCtx.sameUser_executed hh (fun _ _ => .refl _), QCtx.retired_executed hh rfl rfl, fun t _ => (QCtx.executed_spec hh).1.tile q.h t⟩

theorem sync_rejected (i : Instr) (hi : i = .sig hd sbar ∨ i = .twait hd sbar ph) :
    Commands i (fun q _ => ¬((q.d.core q.h).bar sbar.toNat).owner = some q.c.lk) (fun q r e => q.refusedWith r e 0x60 5) := by
  rcases hi with rfl | rfl
  · exact (rejected (exec_sig hd sbar) (fun q r h => if_pos (Bar.check_other h))).mono (fun _ _ h => h) (fun _ _ _ _ h => h.1)
  · exact (rejected (exec_twait hd sbar ph) (fun q r h => if_pos (Bar.check_other h))).mono (fun _ _ h => h) (fun _ _ _ _ h => h.1)

/-! ### A reserved format (R55) -/

theorem ctxSub_lt (ctx : W32) : ctxSub ctx < 256 := by
  unfold ctxSub
  dsimp only
  split_ifs <;> decide

theorem Slot.SameUser.trans {a b c : Slot} (h : a.SameUser b) (g : b.SameUser c) : a.SameUser c :=
  ⟨g.1.trans h.1, fun j => ⟨(g.2 j).1.trans (h.2 j).1, (g.2 j).2.1.trans (h.2 j).2.1, (g.2 j).2.2.trans (h.2 j).2.2⟩⟩

def EQ.freeze (e : EQ) : EQ := { e with frz := true }

/-- RSVFMT: the head is gone with its error, the queue is frozen, and the supervisor is told. -/
theorem Dev.rsvfmt_spec {d : Dev} {h : Nat} {cq : Bool} {c : Cmd} {r : List Cmd} (hq : ((d.core h).eq cq).q = c :: r) (sub : Nat) (word : W32) :
    ∃ (e f : Dev) (img : V512), d.rsvfmt h cq sub word = e.send 0 (.messageArrival ⟨terrOf c.lk, 0xFFFF, img, 0xFFFD, h, none, none⟩) ∧ e.clock = d.clock ∧
      f = (d.failHead h cq 6 sub 0).updCore h (fun k => k.updEq cq EQ.freeze) ∧
      (∀ j n, (f.slot j n).SameUser (e.slot j n)) ∧ ∀ k, (e.core k).bare = (f.core k).bare := by
  obtain ⟨f, hf⟩ : ∃ f, f = (d.failHead h cq 6 sub 0).updCore h (fun k => k.updEq cq EQ.freeze) := ⟨_, rfl⟩
  have hclock : f.clock = d.clock := by
    rw [hf]
    exact (Dev.failHead_spec hq 6 sub 0).1.clock
  unfold Dev.rsvfmt
  rw [hq]
  dsimp -zeta only
  rw [show (d.failHead h cq 6 sub 0).updCore h (fun k => k.updEq cq (fun e => { e with frz := true })) = f from hf.symm]
  extract_lets s here t img d2 d3 d4
  have h3 : d3.clock = f.clock ∧ (∀ j n, (f.slot j n).SameUser (d3.slot j n)) ∧ ∀ k, (d3.core k).bare = (f.core k).bare := by
    unfold d3
    split
    · refine ⟨rfl, fun j n => ?_, fun k => Dev.core_updSlot_bare _ _ _ _ _⟩
      by_cases hj : j = h ∧ n = c.n
      · rw [hj.1, hj.2, Dev.slot_updSlot_self]
        exact ⟨rfl, fun _ => ⟨rfl, rfl, rfl⟩⟩
      · rw [Dev.slot_updSlot_ne _ _ _ _ _ _ hj]
        exact ⟨rfl, fun _ => ⟨rfl, rfl, rfl⟩⟩
    · exact ⟨rfl, fun _ _ => ⟨rfl, fun _ => ⟨rfl, rfl, rfl⟩⟩, fun _ => rfl⟩
  have h4 : d4.clock = d3.clock ∧ d4.cores = d3.cores := by
    unfold d4
    split
    · split <;> exact ⟨rfl, rfl⟩
    · split <;> exact ⟨rfl, rfl⟩
    · exact ⟨rfl, rfl⟩
  have hcore : ∀ k, d4.core k = d3.core k := fun k => by rw [Dev.core, h4.2, Dev.core]
  refine ⟨d4, f, img, rfl, h4.1.trans (h3.1.trans hclock), hf, fun j n => ?_, fun k => ?_⟩
  · rw [show d4.slot j n = d3.slot j n by rw [Dev.slot, hcore, Dev.slot]]
    exact h3.2.1 j n
  · rw [hcore]
    exact h3.2.2 k

/-- RSVFMT refuses the head of a queue. -/
theorem rsvfmt_refuses {q : QCtx} {r : List Cmd} (hq : ((q.d.core q.h).eq q.cq).q = q.c :: r) {sub : Nat} (hsub : sub < 256) (word : W32) :
    (∀ j n, (q.d.slot j n).SameUser ((q.d.rsvfmt q.h q.cq sub word).slot j n)) ∧ q.refusedWith r (q.d.rsvfmt q.h q.cq sub word) 6 sub ∧
    (((q.d.rsvfmt q.h q.cq sub word).core q.h).eq q.cq).frz = true ∧
    (((q.d.rsvfmt q.h q.cq sub word).core q.h).eq q.cq).ctx = ((q.d.core q.h).eq q.cq).ctx ∧
    ∃ g, (q.d.rsvfmt q.h q.cq sub word).coming q.d.clock (.messageArrival g) ∧ g.rank = 0xFFFF ∧ g.terr = terrOf q.c.lk := by
  obtain ⟨e, f, img, hrsv, hclock, hf, hslots, hbare⟩ := Dev.rsvfmt_spec hq sub word
  obtain ⟨htal, heq, -⟩ := Dev.failHead_spec hq 6 sub 0
  have href := refusedWith_failHead hq 0 (show 6 < 256 by decide) hsub
  have hfeq : (f.core q.h).eq q.cq = EQ.freeze { (q.d.core q.h).eq q.cq with q := r } := by rw [hf, Dev.core_updCore_self, Core.eq_updEq, heq]
  have heeq : ∀ x, ((e.send 0 x).core q.h).eq q.cq = EQ.freeze { (q.d.core q.h).eq q.cq with q := r } := fun x => (Core.eq_of_bare (hbare q.h) q.cq).trans hfeq
  have hebar : ∀ x, ((e.send 0 x).core q.h).bar q.c.bar = ((q.d.failHead q.h q.cq 6 sub 0).core q.h).bar q.c.bar := by
    intro x
    refine (congrFun (Core.bar_of_bare (hbare q.h)) _).trans ?_
    rw [hf]
    exact (Dev.Tallies.updEq (P := nobody) (Q := fun _ _ => True) _ trivial _).bars _ _ (fun h => h)
  rw [hrsv]
  refine ⟨fun j n => Slot.SameUser.trans ?_ (hslots j n), ⟨congrArg EQ.q (heeq _), fun lk hlk hal herr => ?_⟩, (congrArg EQ.frz (heeq _) :), (congrArg EQ.ctx (heeq _) :), _,
    hclock ▸ Dev.coming_send e 0 _, rfl, rfl⟩
  · rw [hf, Dev.slot_updCore_of (fun _ _ => Core.slot_updEq _ _ _ _)]
    exact (htal.woken j n).sameUser
  · rw [hebar]
    exact href.error lk hlk hal herr

theorem fmtSet_reserved : Commands (.fmtSet hd ctx) (fun _ _ => ctxSub ctx ≠ 0)
    (fun q r e => q.refusedWith r e 6 (ctxSub ctx) ∧ ((e.core q.h).eq q.cq).frz = true ∧ ((e.core q.h).eq q.cq).ctx = ((q.d.core q.h).eq q.cq).ctx ∧
      ∃ g, e.coming q.d.clock (.messageArrival g) ∧ g.rank = 0xFFFF ∧ g.terr = terrOf q.c.lk) := by
  refine commands_of (body := fun q => if ctxSub ctx ≠ 0 then q.d.rsvfmt q.h q.cq (ctxSub ctx) ctx
    else q.executed (q.d.updCore q.h (fun k => k.updEq q.cq (fun e => e.setCtx ctx)))) (fun _ => by unfold exec execFmtSet; rfl) (fun q r hq hc => ?_)
  rw [if_pos hc]
  exact rsvfmt_refuses hq (ctxSub_lt ctx) ctx

end Commands

/-! ### Push forms (R219) -/

theorem Ctx.landValue_spec (c : Ctx) (d : Dev) (a : AReg) (v : W64) :
    (∀ k, k ≠ c.h → (c.landValue d a v).core k = d.core k) ∧ (c.landValue d a v).still = d.still ∧
    ((c.landValue d a v).core c.h).bare = (d.core c.h).bare ∧ KeptFiles (d.slot c.h c.n) ((c.landValue d a v).slot c.h c.n) [] [] [] ∧
    (a ≠ 0#4 → ∃ o, o ∈ ((c.landValue d a v).slot c.h c.n).ops ∧ o.ad = [a.toNat] ∧ o.ares = [(a.toNat, v)] ∧
      (c.landValue d a v).coming d.clock (.resultLanding c.h c.n o.id)) := by
  unfold Ctx.landValue
  split
  · next h0 => exact ⟨fun _ _ => rfl, rfl, rfl, .refl _, fun h => absurd h0 h⟩
  · obtain ⟨o, ho⟩ : ∃ o, o = (⟨d.count, c.s.pc, .value, [], [a.toNat], 0#16, false, [], [], [(a.toNat, v)], 0#64, 0#64, true⟩ : LongOp) := ⟨_, rfl⟩
    dsimp only
    rw [← ho]
    have hslot : (d.updSlot c.h c.n (fun s => { s with ops := s.ops ++ [o] })).slot c.h c.n = { d.slot c.h c.n with ops := (d.slot c.h c.n).ops ++ [o] } :=
      Dev.slot_updSlot_self _ _ _ _
    have hops : ((d.updSlot c.h c.n (fun s => { s with ops := s.ops ++ [o] })).slot c.h c.n).ops = (d.slot c.h c.n).ops ++ [o] := by rw [hslot]
    refine ⟨fun k hk => Dev.core_updCore_ne _ _ _ _ hk, rfl, Dev.core_updSlot_bare _ _ _ _ _,
      .of_files (congrArg Slot.aregs hslot :) (congrArg Slot.vregs hslot :) (congrArg Slot.kregs hslot :),
      fun _ => ⟨o, hops ▸ List.mem_append_right _ (List.mem_singleton.mpr rfl), by rw [ho], by rw [ho], ?_⟩⟩
    rw [show o.id = d.count by rw [ho]]
    exact Dev.coming_send ({ d.updSlot c.h c.n (fun s => { s with ops := s.ops ++ [o] }) with count := d.count + 1 } : Dev) 0 _

section Push
variable (cq : Bool) (la : BitVec 4) (d : AReg) (v : VReg)

/-- The barrier of a command image, and the bytes it counts. -/
def Ctx.imgBar (c : Ctx) (v : VReg) : Nat := ((c.s.V v.toNat).extractLsb' 239 9).toNat
def Ctx.imgBytes (c : Ctx) (cq : Bool) (v : VReg) : Nat := c.d.imgCount c.h cq c.s.lk (c.s.V v.toNat)

def pushBody (c : Ctx) : Res :=
  if ((c.d.core c.h).bar (c.imgBar v)).check c.s.lk ≠ 0 then c.faultAt 0x40 7 (BitVec.ofNat 64 (c.imgBar v))
  else c.unspec (fun e =>
    match e.pushRoom cq (c.imgBar v) (e.d.imgCount e.h cq e.s.lk (c.s.V v.toNat)) with
    | some w => .wait e.d w
    | none => .done (e.landValue (e.accept cq (c.s.V v.toNat) none (c.imgBar v) (e.d.imgCount e.h cq e.s.lk (c.s.V v.toNat))).1 d
      ((e.accept cq (c.s.V v.toNat) none (c.imgBar v) (e.d.imgCount e.h cq e.s.lk (c.s.V v.toNat))).2.setWidth 64)))

theorem pushForm_eq (s : State) : pushForm cq la d v s = thread ((useV [v] [rv v, wa d]).long la) (pushBody cq d v) s := by
  unfold pushForm
  refine congrArg (thread _ · s) (funext fun c => ?_)
  unfold pushBody Ctx.imgBar
  rfl

variable {cq la d v} {i : Instr} (he : ∀ s, exec i s = pushForm cq la d v s)
include he

theorem push_acts : Acts i ((useV [v] [rv v, wa d]).long la)
    (fun c => ((c.d.core c.h).bar (c.imgBar v)).owner = some c.s.lk ∧ c.sure ∧ ((c.d.core c.h).eq cq).depth < 32 ∧
      ((c.d.core c.h).bar (c.imgBar v)).pend + c.imgBytes cq v < 2 ^ 32) [] [] []
    (fun c e => OnlyCore c.d e c.h ∧ ((e.core c.h).bar (c.imgBar v)).pend = ((c.d.core c.h).bar (c.imgBar v)).pend + c.imgBytes cq v ∧
      ((e.core c.h).eq cq).seqa = ((c.d.core c.h).eq cq).seqa + 1 ∧
      (∃ y, ((e.core c.h).eq cq).q = ((c.d.core c.h).eq cq).q ++ [y] ∧ y.img = c.s.V v.toNat ∧ y.oc = none ∧ y.bar = c.imgBar v ∧
        y.left = c.imgBytes cq v ∧ y.lk = c.s.lk ∧ y.seq = (((c.d.core c.h).eq cq).seqa + 1).toNat) ∧
      (d ≠ 0#4 → ∃ o, o ∈ (e.slot c.h c.n).ops ∧ o.ad = [d.toNat] ∧
        o.ares = [(d.toNat, (((c.d.core c.h).eq cq).shown (((c.d.core c.h).eq cq).seqa + 1).toNat).setWidth 64)] ∧
        e.coming c.d.clock (.resultLanding c.h c.n o.id))) := by
  refine acts_of (fun s => (he s).trans (pushForm_eq cq la d v s)) (fun c hc ⟨hown, hsure, hdepth, hroom⟩ => ?_)
  obtain ⟨y, hy⟩ : ∃ y, y = c.newCmd cq (c.s.V v.toNat) none (c.imgBar v) (c.imgBytes cq v) := ⟨_, rfl⟩
  obtain ⟨d1, hd1⟩ : ∃ d1, d1 = c.d.updCore c.h (fun k => k.accepted cq y (((c.d.core c.h).eq cq).seqa + 1)) := ⟨_, rfl⟩
  obtain ⟨x, hx⟩ : ∃ x, x = (((c.d.core c.h).eq cq).shown (((c.d.core c.h).eq cq).seqa + 1).toNat).setWidth 64 := ⟨_, rfl⟩
  obtain ⟨hothers, hstill, hbare, hfiles, hland⟩ := c.landValue_spec d1 d x
  have hslot : d1.slot c.h c.n = c.s := by rw [hd1, Dev.slot_updCore_of (fun k n => Core.slot_accepted k cq y _ n), hc.own]
  have hbody : pushBody cq d v c = .done (c.landValue d1 d x) := by
    unfold pushBody
    rw [if_neg (not_not_intro (Bar.check_own hown)), hsure.unspec, show c.pushRoom cq (c.imgBar v) (c.d.imgCount c.h cq c.s.lk (c.s.V v.toNat)) = none from Ctx.pushRoom_none hdepth hroom, hd1, hy, hx]
    rfl
  have hend := (Ctx.finish_core_bare c ((useV [v] [rv v, wa d]).long la) (c.landValue d1 d x) (c.s.pc + 8#64) hc.step c.h).trans hbare
  have hcore : d1.core c.h = (c.d.core c.h).accepted cq y (((c.d.core c.h).eq cq).seqa + 1) := by rw [hd1, Dev.core_updCore_self]
  have hbar : y.bar = c.imgBar v := by rw [hy]; rfl
  have heq := (Core.eq_of_bare hend cq).trans (by rw [hcore, Core.eq_accepted])
  refine ⟨_, hbody, hslot ▸ hfiles, ⟨fun k hk => ?_, ?_⟩, ?_, congrArg EQ.seqa heq, ⟨y, congrArg EQ.q heq, ?_⟩, fun hne => ?_⟩
  · rw [Ctx.finish_core_ne _ _ _ _ hc.step _ hk, hothers k hk, hd1, Dev.core_updCore_ne _ _ _ _ hk]
  · rw [Ctx.finish_still, hstill, hd1]
    rfl
  · rw [Core.bar_of_bare hend, hcore, Core.bar_accepted, if_pos hbar.symm, hbar, hy]
    rfl
  · rw [hy]
    exact ⟨rfl, rfl, rfl, rfl, rfl, rfl⟩
  · obtain ⟨o, ho, had, hares, hcome⟩ := hland hne
    refine ⟨o, ?_, had, hx ▸ hares, ?_⟩
    · rw [Ctx.finish_slot _ _ _ _ hc.step]
      exact ho
    · obtain ⟨f, hf, hfe, hdue⟩ := hcome
      refine ⟨f, ?_, hfe, ?_⟩
      · rw [Ctx.finish_net]
        exact hf
      · rw [hd1] at hdue
        exact hdue

theorem push_waits : WaitsWhen i ((useV [v] [rv v, wa d]).long la)
    (fun c => ((c.d.core c.h).bar (c.imgBar v)).owner = some c.s.lk ∧ c.sure ∧ 32 ≤ ((c.d.core c.h).eq cq).depth) (fun _ => .queue cq) := by
  refine waitsWhen_of (fun s => (he s).trans (pushForm_eq cq la d v s)) (fun c hc ⟨hown, hsure, hdepth⟩ => ⟨c.d, ?_, ?_⟩)
  · unfold pushBody
    rw [if_neg (not_not_intro (Bar.check_own hown)), hsure.unspec, Ctx.pushRoom, if_pos hdepth]
  · rw [hc.own]
    exact ⟨rfl, .refl _⟩

theorem push_traps : TrapsWhen i ((useV [v] [rv v, wa d]).long la) (fun c => ((c.d.core c.h).bar (c.imgBar v)).owner ≠ some c.s.lk) 0x40 (fun _ => 7)
    (fun c => BitVec.ofNat 64 (c.imgBar v)) :=
  trapsWhen_of (fun s => (he s).trans (pushForm_eq cq la d v s)) (fun c _ hown => ⟨Config.freeLanes c.d.count, if_pos (Bar.check_other hown)⟩)

end Push

theorem qstat_reads (d a : AReg) : ReadsA (.qstat d a) (useA [wa d, ra a]) (fun _ => True) d (fun c =>
    if (c.s.A a.toNat).getLsbD 1 then ((c.d.core c.h).eq ((c.s.A a.toNat).getLsbD 0)).faddr
    else ((c.d.core c.h).eq ((c.s.A a.toNat).getLsbD 0)).stat (if (c.s.A a.toNat).getLsbD 0 then 0#4 else c.d.ownTiles c.h)) :=
  completesWhen_of (fun _ => by unfold exec execQstat; rfl) (fun c _ _ => ⟨_, _, _, by rfl, Ctx.Only.setSlot c _, KeptRegs.setA _ _ _, rfl, Slot.A_setA_self _ _ _⟩)

/-- Settles O32. -/
theorem engineQueues : Obligations.EngineQueues := by
  have hm : ∀ la d v s, exec (.mqpush la d v) s = pushForm false la d v s := fun _ _ _ _ => by unfold exec execMqpush; rfl
  have hc : ∀ la d v s, exec (.cqpush la d v) s = pushForm true la d v s := fun _ _ _ _ => by unfold exec execCqpush; rfl
  refine ⟨fun la d a v => ⟨⟨push_acts (hm la d v), push_waits (hm la d v), push_traps (hm la d v)⟩,
    ⟨push_acts (hc la d v), push_waits (hc la d v), push_traps (hc la d v)⟩, qstat_reads d a⟩, fun hd ctx acc cnt sbar ph => ⟨?_, fmtSet_commands hd ctx,
    fmtSet_reserved hd ctx, accZero_commands hd acc cnt, accRel_commands hd acc cnt, accRel_rejected hd acc cnt, sig_commands hd sbar, ?_,
    sync_rejected hd sbar ph, ?_⟩⟩
  · exact plain_commands (fun _ => by unfold exec execTnop; rfl)
  · exact twait_commands hd sbar ph
  · exact (plain_commands (fun _ => by unfold exec execTfence; rfl)).mono (fun _ _ h => h) (fun _ _ _ _ ⟨hr, _, ht⟩ => ⟨hr, ht⟩)

end Sys2Proof.Machine
end

section
/-! PROOFS. Host accesses (O45). -/

namespace Sys2Proof.Machine

/-! ## Host accesses (R243, R328, R332 to R334, R347 to R350, R363, R374) -/

/-! ### Registers that belong to a function -/

/-- From d to e nothing of a slot changed, and of the functions only f, by g. -/
def Dev.SetsFunc (f : Nat) (g : Func → Func) (d e : Dev) : Prop :=
  e.func f = g (d.func f) ∧ (∀ k, k ≠ f → e.func k = d.func k) ∧ d.sameSlots e

theorem Dev.setsFunc_of {f : Nat} {g : Func → Func} {d e : Dev} (hf : e.funcs = (d.updFunc f g).funcs) (hs : d.sameSlots e) : Dev.SetsFunc f g d e := by
  refine ⟨?_, fun k hk => ?_, hs⟩
  · rw [Dev.func, hf]
    exact AMap.get_put_self _ _ _ _
  · rw [Dev.func, hf]
    exact AMap.get_put_ne _ _ _ _ _ hk

theorem Dev.setsFunc_updFunc (f : Nat) (g : Func → Func) (d : Dev) : Dev.SetsFunc f g d (d.updFunc f g) := Dev.setsFunc_of rfl (fun _ _ => rfl)

theorem Dev.func_updFunc (d : Dev) (f : Nat) (g : Func → Func) : (d.updFunc f g).func f = g (d.func f) := AMap.get_put_self _ _ _ _

/-- An event that works on the device alone. -/
theorem onDev_event {i : Instr} {f : Memory → Dev → Dev} {pre : Memory → Dev → Prop} {post : Memory → Dev → Dev → Prop} (he : ∀ s, exec i s = onDev f s)
    (hf : ∀ m d, pre m d → post m d (f m d)) : Event i pre post := fun s hp => ⟨⟨s.mem, f s.mem s.dev⟩, he s, fun _ => rfl, hf _ _ hp⟩

section Registers
variable (dep pool f off : Nat) (w0 w1 v : W64)

def poolWrite (d : Dev) : Dev :=
  let p := d.pool dep pool
  if p.free ≠ p.count ∨ poolOk w0 w1 = false ∨ 9 ≤ dep ∨ 16 ≤ pool then d else
  d.updPool dep pool (fun _ => ⟨w0 &&& ~~~0xFFF#64, w0.extractLsb' 6 2, w0.extractLsb' 3 3, w0.getLsbD 0, (w1.extractLsb' 58 6).toNat,
    (w1.extractLsb' 0 23).toNat, [], 0⟩)

theorem exec_poolDescriptorWrite (s : State) : exec (.poolDescriptorWrite dep pool w0 w1) s = onDev (fun _ d => poolWrite dep pool w0 w1 d) s := by
  unfold exec execPoolDescriptorWrite
  rfl

theorem poolDescriptorWrite_taken : Event (.poolDescriptorWrite dep pool w0 w1)
    (fun _ d => (d.pool dep pool).free = (d.pool dep pool).count ∧ poolOk w0 w1 = true ∧ dep < 9 ∧ pool < 16)
    (fun _ _ e => (e.pool dep pool).base = w0 &&& ~~~0xFFF#64 ∧ (e.pool dep pool).count = (w1.extractLsb' 0 23).toNat ∧
      (e.pool dep pool).terr = (w1.extractLsb' 58 6).toNat ∧ (e.pool dep pool).v = w0.getLsbD 0 ∧
      (∀ p, (e.pool dep pool).pop = some p → p.1 = 0)) := by
  refine onDev_event (exec_poolDescriptorWrite dep pool w0 w1) (fun m d ⟨hfree, hok, hdep, hpool⟩ => ?_)
  have hnew : (poolWrite dep pool w0 w1 d).pool dep pool = ⟨w0 &&& ~~~0xFFF#64, w0.extractLsb' 6 2, w0.extractLsb' 3 3, w0.getLsbD 0,
      (w1.extractLsb' 58 6).toNat, (w1.extractLsb' 0 23).toNat, [], 0⟩ := by
    unfold poolWrite
    dsimp only
    rw [if_neg (by simp [hfree, hok]; omega)]
    exact AMap.get_put_self _ _ _ _
  rw [hnew]
  refine ⟨rfl, rfl, rfl, rfl, fun p hp => ?_⟩
  unfold Pool.pop at hp
  dsimp only at hp
  split at hp
  · exact (Option.some.inj hp) ▸ rfl
  · cases hp

theorem poolDescriptorWrite_kept : Event (.poolDescriptorWrite dep pool w0 w1)
    (fun _ d => (d.pool dep pool).free ≠ (d.pool dep pool).count ∨ poolOk w0 w1 = false) (fun _ d e => e = d) :=
  onDev_event (exec_poolDescriptorWrite dep pool w0 w1) (fun _ _ h => if_pos (h.imp_right Or.inl))

/-! ### QPART and QMEWS -/

/-- The function's lines outside a mask that leave their quay. -/
def QLine.trimmed (w : Nat) (q : QLine) : QLine := if q.owner == f && !(w.testBit q.way) then { q with trim := true } else q

/-- Quay sets changed line by line; a line to be trimmed stays while it is pinned. -/
def Dev.eachLine (d : Dev) (g : QLine → QLine) : Dev :=
  { d with qsets := ⟨d.qsets.ents.map (fun e => (e.1, (e.2.map g).filter (fun q => !q.trim || d.pinned q)))⟩ }

def qpartSet (d : Dev) : Dev := d.updFunc f (fun x => { x with qpart := v &&& 0x0000FFFF0000FFFF#64 })

def qpartBody (d : Dev) : Dev :=
  if 33 ≤ f ∨ d.qpartOk f v = false then d else
  if v.getLsbD 48 then (qpartSet f v d).eachLine (QLine.trimmed f (v.toNat % 65536)) else qpartSet f v d

theorem exec_qpartWrite (s : State) : exec (.qpartWrite f v) s = onDev (fun _ d => qpartBody f v d) s := by
  unfold exec execQpartWrite
  rfl

theorem qpartBody_ok {d : Dev} (hf : f < 33) (hok : d.qpartOk f v = true) :
    qpartBody f v d = if v.getLsbD 48 then (qpartSet f v d).eachLine (QLine.trimmed f (v.toNat % 65536)) else qpartSet f v d :=
  if_neg (by rw [hok]; simp; omega)

theorem qpartWrite_plain : Event (.qpartWrite f v) (fun _ d => f < 33 ∧ d.qpartOk f v = true ∧ v.getLsbD 48 = false)
    (fun _ d e => Dev.SetsFunc f (fun x => { x with qpart := v &&& 0x0000FFFF0000FFFF#64 }) d e ∧ e.qsets = d.qsets) := by
  refine onDev_event (exec_qpartWrite f v) (fun m d ⟨hf, hok, htrim⟩ => ?_)
  rw [qpartBody_ok f v hf hok, htrim, if_neg Bool.false_ne_true]
  exact ⟨Dev.setsFunc_updFunc _ _ _, rfl⟩

theorem qpartWrite_trims : Event (.qpartWrite f v) (fun _ d => f < 33 ∧ d.qpartOk f v = true ∧ v.getLsbD 48 = true)
    (fun _ _ e => (e.func f).qpart = v &&& 0x0000FFFF0000FFFF#64 ∧ ∀ k qs q, e.qsets.find? k = some qs → q ∈ qs →
      q.owner = f → (v.toNat % 65536).testBit q.way = false → q.trim = true ∧ e.pinned q = true) := by
  refine onDev_event (exec_qpartWrite f v) (fun m d ⟨hf, hok, htrim⟩ => ?_)
  rw [qpartBody_ok f v hf hok, htrim, if_pos rfl]
  refine ⟨congrArg Func.qpart (Dev.func_updFunc d f _), fun k qs q hqs hq howner hway => ?_⟩
  have hmap : ((qpartSet f v d).eachLine (QLine.trimmed f (v.toNat % 65536))).qsets.find? k = ((qpartSet f v d).qsets.find? k).map (fun qs =>
      (qs.map (QLine.trimmed f (v.toNat % 65536))).filter (fun q => !q.trim || (qpartSet f v d).pinned q)) :=
    AMap.find?_map (qpartSet f v d).qsets (fun e : Nat × List QLine => (e.1, (e.2.map (QLine.trimmed f (v.toNat % 65536))).filter
      (fun q : QLine => !q.trim || (qpartSet f v d).pinned q))) (fun _ => rfl) k
  rw [hmap] at hqs
  obtain ⟨old, -, rfl⟩ := Option.map_eq_some_iff.mp hqs
  obtain ⟨hq, hpin⟩ := List.mem_filter.mp hq
  obtain ⟨q0, -, rfl⟩ := List.mem_map.mp hq
  have ht : (QLine.trimmed f (v.toNat % 65536) q0).trim = true := by
    unfold QLine.trimmed at howner hway ⊢
    split at howner
    · next h => rw [if_pos h]
    · next h =>
      rw [if_neg h] at hway
      exact absurd (by rw [howner, hway]; simp) h
  rw [ht] at hpin
  exact ⟨ht, hpin⟩

theorem qpartWrite_kept : Event (.qpartWrite f v) (fun _ d => 33 ≤ f ∨ d.qpartOk f v = false) (fun _ d e => e = d) :=
  onDev_event (exec_qpartWrite f v) (fun _ _ h => if_pos h)

def qmewsSet (d : Dev) : Dev := d.updFunc f (fun x => { x with qmews := v })

def qmewsBody (d : Dev) : Dev :=
  if 33 ≤ f ∨ d.qmewsOk f v = false then d else
  let x := d.func f
  let y : Func := { x with qmews := v }
  if !x.mewsV && y.mewsV then (qmewsSet f v d).eachLine (fun q => if !q.mews && y.inMews q.pa then { q with trim := true } else q)
  else if x.mewsV && !y.mewsV then (qmewsSet f v d).eachLine (fun q => if q.mews && x.inMews q.pa then { q with mews := false, dirty := false, owner := f } else q)
  else qmewsSet f v d

theorem exec_qmewsWrite (s : State) : exec (.qmewsWrite f v) s = onDev (fun _ d => qmewsBody f v d) s := by
  unfold exec execQmewsWrite
  rfl

theorem qmewsWrite_taken : Event (.qmewsWrite f v) (fun _ d => f < 33 ∧ d.qmewsOk f v = true) (fun _ d e => Dev.SetsFunc f (fun x => { x with qmews := v }) d e) := by
  refine onDev_event (exec_qmewsWrite f v) (fun m d ⟨hf, hok⟩ => ?_)
  unfold qmewsBody
  rw [if_neg (by rw [hok]; simp; omega)]
  dsimp only
  split
  · exact Dev.setsFunc_of rfl (fun _ _ => rfl)
  · split
    · exact Dev.setsFunc_of rfl (fun _ _ => rfl)
    · exact Dev.setsFunc_updFunc _ _ _

theorem qmewsWrite_kept : Event (.qmewsWrite f v) (fun _ d => 33 ≤ f ∨ d.qmewsOk f v = false) (fun _ d e => e = d) :=
  onDev_event (exec_qmewsWrite f v) (fun _ _ h => if_pos h)

/-! ### RES and the inbox rings -/

def resBody (x : W32) (d : Dev) : Dev :=
  let r : Int := (d.func f).res + x.toInt
  if 32 ≤ f ∨ r < 0 ∨ ((d.func f).burst : Int) < r then d else d.updFunc f (fun x => { x with res := r.toNat })

theorem exec_resWrite (x : W32) (s : State) : exec (.resWrite f x) s = onDev (fun _ d => resBody f x d) s := by
  unfold exec execResWrite
  rfl

theorem resWrite_taken (x : W32) (k : Int) : Event (.resWrite f x) (fun _ d => f < 32 ∧ k = (d.func f).res + x.toInt ∧ 0 ≤ k ∧ k ≤ (d.func f).burst)
    (fun _ d e => Dev.SetsFunc f (fun x => { x with res := k.toNat }) d e) := by
  refine onDev_event (exec_resWrite f x) (fun m d ⟨hf, hk, h0, hb⟩ => ?_)
  unfold resBody
  dsimp only
  rw [← hk, if_neg (by omega)]
  exact Dev.setsFunc_updFunc _ _ _

theorem resWrite_kept (x : W32) : Event (.resWrite f x)
    (fun _ d => 32 ≤ f ∨ (d.func f).res + x.toInt < 0 ∨ ((d.func f).burst : Int) < (d.func f).res + x.toInt) (fun _ d e => e = d) :=
  onDev_event (exec_resWrite f x) (fun _ _ h => if_pos h)

theorem hqRingWrite_taken (len : Bool) : Event (.hqRingWrite f len v)
    (fun _ _ => f < 32 ∧ (len = true → ringLen (v.toNat % 2 ^ 32) = true) ∧ (len = false → v.toNat % 4096 = 0))
    (fun _ d e => Dev.SetsFunc f (fun x => { (if len then { x with hqLen := v.toNat % 2 ^ 32 } else { x with hqBase := v }) with hqHead := 0, hqTail := 0 }) d e) := by
  refine onDev_event (f := fun _ d => if 32 ≤ f then d
    else if len then
      (if ringLen (v.toNat % 2 ^ 32) then d.updFunc f (fun x => { x with hqLen := v.toNat % 2 ^ 32, hqHead := 0, hqTail := 0 }) else d)
    else if v.toNat % 4096 ≠ 0 then d
    else d.updFunc f (fun x => { x with hqBase := v, hqHead := 0, hqTail := 0 })) (fun _ => by unfold exec execHqRingWrite; rfl) (fun m d ⟨hf, hl, hb⟩ => ?_)
  dsimp only
  rw [if_neg (by omega)]
  cases len with
  | true =>
    rw [if_pos rfl, if_pos (hl rfl)]
    exact Dev.setsFunc_updFunc _ _ _
  | false =>
    rw [if_neg Bool.false_ne_true, if_neg (not_not_intro (hb rfl))]
    exact Dev.setsFunc_updFunc _ _ _

def hqtailBody (x : W32) (d : Dev) : Dev :=
  if 32 ≤ f ∨ (d.func f).hqLen < ((d.func f).hqHead - x).toNat then d else d.updFunc f (fun y => { y with hqTail := x })

theorem exec_hqtailWrite (x : W32) (s : State) : exec (.hqtailWrite f x) s = onDev (fun _ d => hqtailBody f x d) s := by
  unfold exec execHqtailWrite
  rfl

theorem hqtailWrite_taken (x : W32) : Event (.hqtailWrite f x) (fun _ d => f < 32 ∧ ((d.func f).hqHead - x).toNat ≤ (d.func f).hqLen)
    (fun _ d e => Dev.SetsFunc f (fun y => { y with hqTail := x }) d e) := by
  refine onDev_event (exec_hqtailWrite f x) (fun m d ⟨hf, hle⟩ => ?_)
  unfold hqtailBody
  rw [if_neg (by omega)]
  exact Dev.setsFunc_updFunc _ _ _

theorem hqtailWrite_kept (x : W32) : Event (.hqtailWrite f x) (fun _ d => 32 ≤ f ∨ (d.func f).hqLen < ((d.func f).hqHead - x).toNat) (fun _ d e => e = d) :=
  onDev_event (exec_hqtailWrite f x) (fun _ _ h => if_pos h)

/-! ### Slot commands of the host (R349) -/

theorem hostCmd_sends {i : Instr} {op : Nat} {b : BitVec 256} {good : Dev → Bool} {o : SlotOp} {pre : Dev → Prop}
    (he : ∀ s, exec i s = onDev (fun _ d => d.hostCmd f op b (good d) o) s) (hp : ∀ d, pre d → f < 32 ∧ d.up = true ∧ (b.extractLsb' 0 8).toNat = op ∧ good d = true) :
    Event i (fun _ d => pre d) (fun _ d e => (e.func f).slotcmd = b ∧
      e.coming d.clock (.slotCommandArrival ⟨none, some f, nameCore (cmdOperand b 0), nameSlot (cmdOperand b 0), o⟩)) := by
  refine onDev_event he (fun m d h => ?_)
  obtain ⟨hf, hup, hop, hgood⟩ := hp d h
  unfold Dev.hostCmd
  rw [if_neg (by rw [hup]; simp; omega)]
  dsimp only
  rw [if_pos ⟨hop, hgood⟩]
  refine ⟨congrArg Func.slotcmd (Dev.func_updFunc d f _), _, List.mem_append_right _ (List.mem_singleton.mpr rfl), rfl, ?_⟩
  exact lt_of_lt_of_le (by omega : d.clock < d.clock + 1 + Config.latency d.count) (le_max_left _ _)

/-! ### HMSGCTL (R374) -/

def hmsgBody (d : Dev) : Dev :=
  let x := d.func f
  if 32 ≤ f ∨ x.busy = true ∨ d.up = false then d else
  let t := (v.extractLsb' 0 5).toNat
  let r := (v.extractLsb' 16 16).toNat
  let y := d.terrace t
  if y.vf ≠ f ∨ y.state ≠ 1 ∨ d.rankOk t r = false then d.updFunc f (fun x => { x with err := true })
  else (d.updFunc f (fun x => { x with busy := true, err := false })).send 0 (.messageArrival ⟨t, r, x.hmsg, 0xFFFF, y.supH, none, some f⟩)

theorem exec_hmsgctl (s : State) : exec (.hmsgctl f v) s = onDev (fun _ d => hmsgBody f v d) s := by
  unfold exec execHmsgctl
  rfl

theorem hmsgctl_sends : Event (.hmsgctl f v) (fun _ d => f < 32 ∧ (d.func f).busy = false ∧ d.up = true ∧ (d.terrace (v.extractLsb' 0 5).toNat).vf = f ∧
      (d.terrace (v.extractLsb' 0 5).toNat).state = 1 ∧ d.rankOk (v.extractLsb' 0 5).toNat (v.extractLsb' 16 16).toNat = true)
    (fun _ d e => Dev.SetsFunc f (fun x => { x with busy := true, err := false }) d e ∧ ∃ y, e.coming d.clock (.messageArrival y) ∧
      y.terr = (v.extractLsb' 0 5).toNat ∧ y.rank = (v.extractLsb' 16 16).toNat ∧ y.data = (d.func f).hmsg ∧ y.host = some f) := by
  refine onDev_event (exec_hmsgctl f v) (fun m d ⟨hf, hbusy, hup, hvf, hst, hr⟩ => ?_)
  unfold hmsgBody
  dsimp only
  rw [if_neg (by rw [hbusy, hup]; simp; omega), if_neg (by rw [hvf, hst, hr]; simp)]
  exact ⟨Dev.setsFunc_of rfl (fun _ _ => rfl), _, Dev.coming_send (d.updFunc f (fun x => { x with busy := true, err := false })) 0 _, rfl, rfl, rfl, rfl⟩

theorem hmsgctl_error : Event (.hmsgctl f v) (fun _ d => f < 32 ∧ (d.func f).busy = false ∧ d.up = true ∧ ((d.terrace (v.extractLsb' 0 5).toNat).vf ≠ f ∨
      (d.terrace (v.extractLsb' 0 5).toNat).state ≠ 1 ∨ d.rankOk (v.extractLsb' 0 5).toNat (v.extractLsb' 16 16).toNat = false))
    (fun _ d e => Dev.SetsFunc f (fun x => { x with err := true }) d e ∧ e.net = d.net) := by
  refine onDev_event (exec_hmsgctl f v) (fun m d ⟨hf, hbusy, hup, hbad⟩ => ?_)
  unfold hmsgBody
  dsimp only
  rw [if_neg (by rw [hbusy, hup]; simp; omega), if_pos hbad]
  exact ⟨Dev.setsFunc_updFunc _ _ _, rfl⟩

/-! ### Registers without behaviour of their own (R349) -/

theorem exec_registerWrite (h : ¬(off = 0x3000 ∧ f < 32)) (s : State) :
    exec (.registerWrite f off v) s = onDev (fun _ d => if f = 32 then d.writePf off v else if f < 32 then d.writeVf f off v else d) s := by
  show execRegisterWrite f off v s = _
  unfold execRegisterWrite
  rw [if_neg h]

theorem registerWrite_dtBase : Event (.registerWrite 32 off v) (fun _ _ => off % 8 = 0 ∧ 0x200 ≤ off ∧ off < 0x300 ∧ v.toNat % 8192 = 0)
    (fun _ d e => (e.terrace ((off - 0x200) / 8)).dtBase = v ∧ ∀ u, u ≠ (off - 0x200) / 8 → e.terrace u = d.terrace u) := by
  refine onDev_event (exec_registerWrite 32 off v (by omega)) (fun m d ⟨h8, hlo, hhi, hv⟩ => ?_)
  rw [if_pos rfl]
  unfold Dev.writePf
  rw [if_pos ⟨hlo, hhi, h8⟩, if_pos hv]
  refine ⟨?_, fun u hu => AMap.get_put_ne _ _ _ _ _ hu⟩
  exact congrArg Terrace.dtBase (AMap.get_put_self _ _ _ _)

theorem registerWrite_troot : Event (.registerWrite 32 0x300 v) (fun _ _ => v.toNat % 8192 = 0) (fun _ d e => e.troot = v ∧ d.sameSlots e) := by
  refine onDev_event (exec_registerWrite 32 0x300 v (by omega)) (fun m d hv => ?_)
  rw [if_pos rfl]
  unfold Dev.writePf
  rw [if_neg (by omega), if_pos rfl, if_pos hv]
  exact ⟨rfl, fun _ _ => rfl⟩

theorem extract_insert (x : V512) {i : Nat} (hi : i + 64 ≤ 512) (w : W64) :
    ((x &&& ~~~((0xFFFFFFFFFFFFFFFF#512) <<< i)) ||| ((w.setWidth 512) <<< i)).extractLsb' i 64 = w := by
  have hm : ∀ j, j < 64 → (0xFFFFFFFFFFFFFFFF#512).getLsbD j = true := by
    intro j hj
    rw [BitVec.getLsbD_ofNat, show 0xFFFFFFFFFFFFFFFF = 2 ^ 64 - 1 from rfl, Nat.testBit_two_pow_sub_one]
    simp [hj, show j < 512 by omega]
  refine BitVec.eq_of_getLsbD_eq (fun j hj => ?_)
  simp only [BitVec.getLsbD_extractLsb', BitVec.getLsbD_or, BitVec.getLsbD_and, BitVec.getLsbD_not, BitVec.getLsbD_shiftLeft, BitVec.getLsbD_setWidth,
    Nat.add_sub_cancel_left, hm j hj]
  simp [hj, show i + j < 512 by omega, show j < 512 by omega]

theorem registerWrite_hmsg : Event (.registerWrite f off v) (fun _ d => f < 32 ∧ (d.func f).busy = false ∧ off % 8 = 0 ∧ 0x20C0 ≤ off ∧ off < 0x2100)
    (fun _ d e => (e.func f).hmsg.extractLsb' (8 * (off - 0x20C0)) 64 = v ∧ d.sameSlots e) := by
  intro s ⟨hf, hbusy, h8, hlo, hhi⟩
  refine ⟨_, exec_registerWrite f off v (by omega) s, fun _ => rfl, ?_⟩
  dsimp only
  rw [if_neg (by omega), if_pos hf]
  unfold Dev.writeVf
  dsimp only
  rw [if_pos ⟨hlo, hhi, h8⟩, hbusy, if_neg Bool.false_ne_true]
  refine ⟨?_, fun _ _ => rfl⟩
  rw [Dev.func_updFunc]
  exact extract_insert _ (by omega) v

theorem registerWrite_kept : Event (.registerWrite f off v) (fun _ _ => 32 < f ∨ f < 32 ∧ (off < 0x20C0 ∨ 0x3100 ≤ off)) (fun _ d e => e = d) := by
  intro s h
  refine ⟨_, exec_registerWrite f off v (by omega) s, fun _ => rfl, ?_⟩
  dsimp only
  rw [if_neg (by omega)]
  split
  · unfold Dev.writeVf
    dsimp only
    rw [if_neg (by omega), if_neg (by omega), if_neg (by omega)]
  · rfl

end Registers

/-! ### What the host reads (R328, R349) -/

section Reads
variable (d : Dev)

theorem Dev.hostReg_vf {f : Nat} (hf : f < 32) : d.hostReg f 0x2010 = (d.func f).hqHead.setWidth 64 ∧ d.hostReg f 0x200C = 0#64 ∧
    (d.hostReg f 0x2080).getLsbD 0 = (d.func f).busy ∧ (d.hostReg f 0x2080).getLsbD 1 = (d.func f).err := by
  have h : ∀ off, d.hostReg f off = d.regVf f off := fun off => by rw [Dev.hostReg, if_neg (by omega), if_pos hf]
  refine ⟨h _, h _, ?_, ?_⟩
  · rw [h, show d.regVf f 0x2080 = BitVec.ofNat 64 ((d.func f).busy.toNat + 2 * (d.func f).err.toNat) from rfl]
    cases (d.func f).busy <;> cases (d.func f).err <;> rfl
  · rw [h, show d.regVf f 0x2080 = BitVec.ofNat 64 ((d.func f).busy.toNat + 2 * (d.func f).err.toNat) from rfl]
    cases (d.func f).busy <;> cases (d.func f).err <;> rfl

theorem Dev.hostReg_terrace {t : Nat} (ht : t < 32) : d.hostReg 32 (16 * t) = (d.terrace t).w0 ∧ d.hostReg 32 (16 * t + 8) = (d.terrace t).w1 := by
  have h : ∀ off, d.hostReg 32 off = d.regPf off := fun off => if_pos rfl
  rw [h, h, Dev.regPf, Dev.regPf, if_pos (by omega), if_pos (by omega), if_pos (by omega), if_neg (by omega), show 16 * t / 16 = t by omega,
    show (16 * t + 8) / 16 = t by omega]
  exact ⟨rfl, rfl⟩

theorem le_foldl_max (g : Nat → Nat) (l : List Nat) (k : Nat) : k ≤ l.foldl (fun k v => max k (g v)) k ∧ ∀ v, v ∈ l → g v ≤ l.foldl (fun k v => max k (g v)) k := by
  induction l generalizing k with
  | nil => exact ⟨le_refl _, fun _ h => absurd h List.not_mem_nil⟩
  | cons x l ih =>
    obtain ⟨h1, h2⟩ := ih (max k (g x))
    refine ⟨(le_max_left _ _).trans h1, fun v hv => ?_⟩
    rcases List.mem_cons.mp hv with rfl | hv
    · exact (le_max_right _ _).trans h1
    · exact h2 v hv

theorem foldl_max_le {g : Nat → Nat} {l : List Nat} {k m : Nat} (hk : k ≤ m) (h : ∀ v, v ∈ l → g v ≤ m) : l.foldl (fun k v => max k (g v)) k ≤ m :=
  List.foldlRecOn (motive := fun x => x ≤ m) _ _ hk (fun _ hx v hv => max_le hx (h v hv))

theorem Dev.reclaim_none (h : ∀ u, u < 32 → (d.func u).res ≤ (d.func u).guar) : d.reclaim = 0xFF := by
  have hmost := foldl_max_le (g := fun v => (d.func v).res - (d.func v).guar) (l := List.range 32) (k := 0) (m := 0) (le_refl _)
    (fun v hv => by have := h v (List.mem_range.mp hv); omega)
  unfold Dev.reclaim
  dsimp only
  rw [if_pos (Nat.le_zero.mp hmost)]

theorem Dev.reclaim_most {v : Nat} (hv : v < 32) (hpos : (d.func v).guar < (d.func v).res)
    (hmax : ∀ u, u < 32 → (d.func u).res - (d.func u).guar ≤ (d.func v).res - (d.func v).guar)
    (hlow : ∀ u, u < v → (d.func u).res - (d.func u).guar < (d.func v).res - (d.func v).guar) : d.reclaim = v := by
  have hle := foldl_max_le (g := fun v => (d.func v).res - (d.func v).guar) (l := List.range 32) (k := 0) (Nat.zero_le _)
    (fun u hu => hmax u (List.mem_range.mp hu))
  have hge := (le_foldl_max (fun v => (d.func v).res - (d.func v).guar) (List.range 32) 0).2 v (List.mem_range.mpr hv)
  have hmost := le_antisymm hle hge
  have hfind : (List.range 32).find? (fun u => (d.func u).res - (d.func u).guar == (d.func v).res - (d.func v).guar) = some v := by
    rw [List.find?_range_eq_some]
    exact ⟨by simp, List.mem_range.mpr hv, fun u hu => by have := hlow u hu; simp; omega⟩
  unfold Dev.reclaim
  dsimp only at hmost ⊢
  rw [hmost, if_neg (by omega), hfind]
  rfl

end Reads

/-! ### Accesses of device memory (R175, R347, R348, R363) -/

section Memory
variable {pa : Nat} {s : State} (data : Line) (mask : LineMask)

theorem Dev.QuaysOnly.out {d e : Dev} (h : d.QuaysOnly e) : e.hostLines = d.hostLines ∧ e.linePoison = d.linePoison ∧ e.funcs = d.funcs := by
  rw [h]
  exact ⟨rfl, rfl, rfl⟩

theorem hostMemRead_reads (hpa : isHbm pa = true) (hup : s.dev.up = true) (hpend : s.dev.pending (lineOf pa) = false)
    (hway : (s.dev.quay 32 (lineOf pa) false).isSome = true) (hgood : s.dev.linePoison.contains (lineOf pa) = false) :
    ∃ t, exec (.hostMemRead pa) s = .next t ∧ t.mem = s.mem ∧ t.dev.hostRead = s.mem.bytes (lineOf pa) 128 ∧
      t.dev.hostLines.contains (lineOf pa) = true ∧ s.dev.sameSlots t.dev := by
  obtain ⟨d, hd⟩ := Option.isSome_iff_exists.mp hway
  have hq := Dev.quay_quaysOnly hd
  refine ⟨⟨s.mem, { d with
    hostRead := s.mem.bytes (lineOf pa) 128
    hostLines := if d.hostLines.contains (lineOf pa) then d.hostLines else d.hostLines ++ [lineOf pa] }⟩, ?_, rfl, rfl, ?_, hq.slot⟩
  · show execHostMemRead pa s = _
    unfold execHostMemRead onDev
    dsimp only
    rw [if_pos hpa, hup, hpend, hd]
    dsimp only
    rw [hq.out.2.1, hgood]
    rfl
  · dsimp only
    split
    · next h => exact h
    · simp

theorem hostMemRead_pending (hpa : isHbm pa = true) (hup : s.dev.up = true) (hpend : s.dev.pending (lineOf pa) = true) : exec (.hostMemRead pa) s = .next s := by
  show execHostMemRead pa s = _
  unfold execHostMemRead onDev
  dsimp only
  rw [if_pos hpa, hup, hpend]
  rfl

/-- A host group of one line, where its function keeps no log. -/
theorem hostApply_spec {d d' : Dev} (m : Memory) {l : Nat} (hlog : (d.func 32).logOn = false) (hway : d.quay 32 l true = some d') (k : LineMask) (f : Dev → Dev) :
    hostApply m d l data k f = (maskedCells l data k, f (if k == BitVec.allOnes 128 then { d' with linePoison := d'.linePoison.filter (· != l) } else d')) := by
  unfold hostApply
  rw [hway]
  dsimp only
  have hcells : d'.logCells m 32 l = [] := by
    unfold Dev.logCells
    have hfunc : d'.func 32 = d.func 32 := by rw [Dev.func, (Dev.quay_quaysOnly hway).out.2.2, Dev.func]
    exact if_neg (by rw [hfunc, hlog]; decide)
  rw [hcells]
  rfl

/-- The device after a line has been written whole or in part. -/
def Dev.lineWritten (d : Dev) (l : Nat) (k : LineMask) : Dev := if k == BitVec.allOnes 128 then { d with linePoison := d.linePoison.filter (· != l) } else d

theorem Dev.lineWritten_keeps (d : Dev) (l : Nat) (k : LineMask) : (∀ h n, (d.lineWritten l k).slot h n = d.slot h n) ∧
    (k = BitVec.allOnes 128 → (d.lineWritten l k).linePoison.contains l = false) := by
  unfold Dev.lineWritten
  split
  · exact ⟨fun _ _ => rfl, fun _ => by simp⟩
  · next h => exact ⟨fun _ _ => rfl, fun hk => absurd (beq_iff_eq.mpr hk) h⟩

theorem hostMemWrite_writes (hpa : isHbm pa = true) (hup : s.dev.up = true) (hpend : s.dev.pending (lineOf pa) = false)
    (hlog : (s.dev.func 32).logOn = false) (hway : (s.dev.quay 32 (lineOf pa) true).isSome = true) :
    ∃ t, exec (.hostMemWrite pa data mask) s = .next t ∧ (∀ a, t.mem.read a =
      if lineOf pa ≤ a ∧ a < lineOf pa + 128 ∧ mask.getLsbD (a - lineOf pa) = true then Line.byte data (a - lineOf pa) else s.mem.read a) ∧
      s.dev.sameSlots t.dev ∧ (mask = BitVec.allOnes 128 → t.dev.linePoison.contains (lineOf pa) = false) := by
  obtain ⟨d, hd⟩ := Option.isSome_iff_exists.mp hway
  obtain ⟨hslots, hpoison⟩ := d.lineWritten_keeps (lineOf pa) mask
  refine ⟨⟨s.mem.writeAll (maskedCells (lineOf pa) data mask), d.lineWritten (lineOf pa) mask⟩, ?_, Memory.read_writeAll_masked _ _ _ _,
    fun h n => (hslots h n).trans ((Dev.quay_quaysOnly hd).slot h n), hpoison⟩
  show execHostMemWrite pa data mask s = _
  unfold execHostMemWrite onMem
  dsimp only
  rw [if_pos hpa, if_neg (by rw [hup, hpend]; decide), hostApply_spec data s.mem hlog hd]
  rfl

theorem Dev.hostLines_phaseOne (d : Dev) (id q : Nat) : (d.phaseOne id q).hostLines = d.hostLines := by
  unfold Dev.phaseOne
  split
  · rfl
  · dsimp only
    split
    · rfl
    · split <;> rfl

theorem Dev.hostLines_serveHome (d : Dev) (q : Nat) : (d.serveHome q).hostLines = d.hostLines :=
  List.foldlRecOn (motive := fun e : Dev => e.hostLines = d.hostLines) _ _ rfl (fun e he id _ => (e.hostLines_phaseOne id q).trans he)

/-- The home goes on once the host has given its line up. -/
def Dev.givenUp (d : Dev) (l : Nat) : Dev :=
  (({ d with hostLines := d.hostLines.filter (· != l) } : Dev).updHome (homeOf l) (fun x => { x with snoop := x.snoop.filter (fun e => e.2 != l) })).serveHome (homeOf l)

theorem Dev.hostLines_givenUp (d : Dev) (l : Nat) : (d.givenUp l).hostLines.contains l = false := by
  rw [Dev.givenUp, Dev.hostLines_serveHome]
  simp

theorem exec_birsp (dirty : Bool) : exec (.birsp pa dirty data) s = onMem (fun m d =>
    if !((d.home (homeOf (lineOf pa))).snoop.any (fun e => e.2 == lineOf pa)) then ([], d) else
    if dirty then hostApply m d (lineOf pa) data (BitVec.allOnes 128) (fun d => d.givenUp (lineOf pa)) else ([], d.givenUp (lineOf pa))) s := rfl

theorem birsp_gives (dirty : Bool) (hsnoop : (s.dev.home (homeOf (lineOf pa))).snoop.any (fun e => e.2 == lineOf pa) = true)
    (hlog : (s.dev.func 32).logOn = false) (hway : dirty = true → (s.dev.quay 32 (lineOf pa) true).isSome = true) :
    ∃ t, exec (.birsp pa dirty data) s = .next t ∧ t.dev.hostLines.contains (lineOf pa) = false ∧
      (dirty = true → ∀ a, t.mem.read a = if lineOf pa ≤ a ∧ a < lineOf pa + 128 ∧ (BitVec.allOnes 128).getLsbD (a - lineOf pa) = true
        then Line.byte data (a - lineOf pa) else s.mem.read a) ∧ (dirty = false → ∀ a, t.mem.read a = s.mem.read a) := by
  rw [exec_birsp]
  unfold onMem
  dsimp only
  rw [hsnoop]
  cases dirty with
  | false => exact ⟨⟨s.mem, s.dev.givenUp (lineOf pa)⟩, rfl, Dev.hostLines_givenUp _ _, fun h => Bool.noConfusion h, fun _ _ => rfl⟩
  | true =>
    obtain ⟨d, hd⟩ := Option.isSome_iff_exists.mp (hway rfl)
    refine ⟨⟨s.mem.writeAll (maskedCells (lineOf pa) data (BitVec.allOnes 128)), (d.lineWritten (lineOf pa) (BitVec.allOnes 128)).givenUp (lineOf pa)⟩, ?_,
      Dev.hostLines_givenUp _ _, fun _ => Memory.read_writeAll_masked _ _ _ _, fun h => Bool.noConfusion h⟩
    rw [if_neg (by decide), if_pos rfl, hostApply_spec data s.mem hlog hd]
    rfl

theorem host_noSuchAddress (hpa : isHbm pa = false) : exec (.hostMemRead pa) s = .fault (.noSuchAddress pa) ∧
    exec (.hostMemWrite pa data mask) s = .fault (.noSuchAddress pa) :=
  ⟨if_neg (by rw [hpa]; decide), if_neg (by rw [hpa]; decide)⟩

end Memory

/-- Settles O45. -/
theorem hostAccesses : Obligations.HostAccesses := by
  refine ⟨fun dep pool f off op w0 w1 v b len => ⟨poolDescriptorWrite_taken dep pool w0 w1, poolDescriptorWrite_kept dep pool w0 w1, qpartWrite_plain f v,
    qpartWrite_trims f v, qpartWrite_kept f v, qmewsWrite_taken f v, qmewsWrite_kept f v, resWrite_taken f _, resWrite_kept f _, hqRingWrite_taken f v len,
    hqtailWrite_taken f _, hqtailWrite_kept f _, ?_, ?_, ?_, hmsgctl_sends f v, hmsgctl_error f v, registerWrite_dtBase off v, registerWrite_troot v,
    registerWrite_hmsg f off v, registerWrite_kept f off v⟩, fun d f t v => ⟨d.hostReg_vf, d.hostReg_terrace, d.reclaim_none, d.reclaim_most⟩,
    fun pa data mask dirty s => ⟨hostMemRead_reads, hostMemRead_pending, hostMemWrite_writes data mask, birsp_gives data dirty, host_noSuchAddress data mask⟩⟩
  · refine hostCmd_sends f (op := 1) (good := fun d => d.hostName f (cmdOperand b 0) false && eretFlagsOk (cmdOperand b 1))
      (fun _ => by unfold exec execSlotcmdEret; rfl) (fun d ⟨hf, hup, hop, h1, hn, hfl⟩ => ⟨hf, hup, hop.trans h1, by rw [hn, hfl]; rfl⟩)
  · refine hostCmd_sends f (op := 2) (good := fun d => d.hostName f (cmdOperand b 0) true && !((cmdOperand b 0).extractLsb' 18 2).getLsbD 1)
      (fun _ => by unfold exec execSlotcmdWake; rfl) (fun d ⟨hf, hup, hop, h1, hn, hk⟩ => ⟨hf, hup, hop.trans h1, by rw [hn, hk]; rfl⟩)
  · exact hostCmd_sends f (op := 3) (good := fun d => d.hostName f (cmdOperand b 0) false)
      (fun _ => by unfold exec execSlotcmdKill; rfl) (fun d ⟨hf, hup, hop, h1, hn⟩ => ⟨hf, hup, hop.trans h1, hn⟩)

end Sys2Proof.Machine
end

section
/-! PROOFS. RELEASE and saved slots (R302, R339). -/

namespace Sys2Proof.Machine

/-- A slot of terrace 0 that the debugger had stopped when its terrace was saved. -/
def savedStop : Slot := { Slot.init with st := .held .debug }

/-- Terrace 0 is suspended and has core 0, where that slot stands among the saved ones. -/
def savedStopState : State :=
  ⟨⟨[]⟩, (Dev.reset.updCore 0 (fun c => { c with away := c.away.put (awayIx 0 0) savedStop })).updTerr 0 (fun x => { x with w0 := (1#64 <<< 40) ||| (2#64 <<< 33) })⟩

/-- RELEASE lets the slots that stand on the core go on, and leaves the saved ones as they are. -/
theorem exec_debugRelease_savedStopState :
    ∃ t, exec (.debugRelease 0) savedStopState = .next t ∧ (t.dev.slot 0 (awayIx 0 0)).st = .held .debug :=
  ⟨_, rfl, rfl⟩

/-- Refutes O48: its clause on RELEASE says of every slot of the terrace that a debugger had stopped it goes on. One that has been saved
with its terrace (R302) is not on its core, and the release leaves it HELD. -/
theorem not_debugger : ¬ Obligations.Debugger := by
  intro h
  obtain ⟨-, -, -, -, -, hrelease, -⟩ := h 0 0 0 (awayIx 0 0) 0#64 0#64 0#64 savedStopState
  obtain ⟨t, ht, -, -, -, -, hst, -⟩ := hrelease savedStopState ⟨by decide, by decide, by decide, by decide⟩
  obtain ⟨u, hu, hheld⟩ := exec_debugRelease_savedStopState
  have htu : t = u := Host.Outcome.next.inj (ht.symm.trans hu)
  have hgoes : (t.dev.slot 0 (awayIx 0 0)).st = .ready := hst rfl
  rw [htu, hheld] at hgoes
  exact SlotSt.noConfusion hgoes

end Sys2Proof.Machine
end

section
/-! PROOFS. Bring-up and identity (O52). -/

namespace Sys2Proof.Machine

/-! ### Stages (R357) -/

/-- A stage is in hand: it is the present one, and has not failed. -/
def Dev.InHand (k : Nat) (d : Dev) : Prop := d.stage = k ∧ d.failure = 0
/-- The stage in hand is over, and the next one begins. -/
def Dev.Passes (d e : Dev) : Prop := e.stage = d.stage + 1 ∧ e.failure = 0
/-- The sequence stops at the stage in hand. -/
def Dev.Stops (d e : Dev) : Prop := e.stage = d.stage ∧ e.failure ≠ 0

theorem Dev.inStage_iff (d : Dev) (k : Nat) : d.inStage k = true ↔ d.InHand k := by simp [Dev.inStage, Dev.InHand]

theorem Dev.inStage_false {d : Dev} {k : Nat} (h : ¬d.InHand k) : d.inStage k = false := by rwa [← d.inStage_iff, Bool.not_eq_true] at h

theorem Dev.stops_failStage (d : Dev) : d.Stops d.failStage := ⟨rfl, by unfold Dev.failStage; dsimp only; omega⟩

section
variable {i : Instr} {n : Nat} {ok : Bool} {f : Dev → Dev}

theorem stage_event {post : Dev → Dev → Prop} (he : ∀ s, exec i s = stage n ok f s)
    (hf : ∀ d, d.InHand n → post d (if ok then (f d).passStage else d.failStage)) : Event i (fun _ d => d.InHand n) (fun _ => post) := by
  refine onDev_event he (fun m d hd => ?_)
  rw [(d.inStage_iff n).mpr hd]
  exact hf d hd

theorem stage_else (he : ∀ s, exec i s = stage n ok f s) : Event i (fun _ d => ¬d.InHand n) (fun _ d e => e = d) := by
  refine onDev_event he (fun m d hd => ?_)
  rw [Dev.inStage_false hd]
  rfl

/-- A stage that passes or fails, whose work leaves the slots and the sequence alone. -/
theorem plainStage (he : ∀ s, exec i s = stage n ok f s) (hf : ∀ d, (f d).stage = d.stage ∧ (f d).failure = d.failure ∧ d.sameSlots (f d)) :
    Event i (fun _ d => d.InHand n) (fun _ d e => d.sameSlots e ∧ if ok then d.Passes e else d.Stops e) ∧
      Event i (fun _ d => ¬d.InHand n) (fun _ d e => e = d) := by
  refine ⟨stage_event he (fun d hd => ?_), stage_else he⟩
  obtain ⟨hst, hfail, hslots⟩ := hf d
  cases ok with
  | true => exact ⟨hslots, congrArg (· + 1) hst, hfail.trans hd.2⟩
  | false => exact ⟨fun _ _ => rfl, d.stops_failStage⟩

end

/-- What stage 2 sets: the remap of every row, and the cores that failed. -/
def trainBridges (d : Dev) : Dev := { d with
  skip := ⟨(List.range 144).map (fun i => (i, min 16 (Config.skipOf i)))⟩
  failed := Config.failedCores }

theorem exec_bridgeTraining (ok : Bool) (s : State) : exec (.bridgeTraining ok) s = stage 2 ok trainBridges s := by
  unfold exec execBridgeTraining
  rfl

/-- The stages that only pass or fail. -/
theorem plainStages (ok : Bool) (k : Nat) (x : Instr)
    (h : (k, x) ∈ [(1, Instr.powerStages ok), (2, .bridgeTraining ok), (3, .hbmTraining ok), (5, .cxlTraining ok)]) :
    Event x (fun _ d => d.InHand k) (fun _ d e => d.sameSlots e ∧ if ok then d.Passes e else d.Stops e) ∧
      Event x (fun _ d => ¬d.InHand k) (fun _ d e => e = d) := by
  simp only [List.mem_cons, Prod.mk.injEq, List.not_mem_nil, or_false] at h
  rcases h with ⟨rfl, rfl⟩ | ⟨rfl, rfl⟩ | ⟨rfl, rfl⟩ | ⟨rfl, rfl⟩
  · exact plainStage (fun _ => by unfold exec execPowerStages; rfl) (fun _ => ⟨rfl, rfl, fun _ _ => rfl⟩)
  · exact plainStage (exec_bridgeTraining _) (fun _ => ⟨rfl, rfl, fun _ _ => rfl⟩)
  · exact plainStage (fun _ => by unfold exec execHbmTraining; rfl) (fun _ => ⟨rfl, rfl, fun _ _ => rfl⟩)
  · exact plainStage (fun _ => by unfold exec execCxlTraining; rfl) (fun _ => ⟨rfl, rfl, fun _ _ => rfl⟩)

/-- Where all values of a table are within a bound, and so is its default, what it reads is. -/
theorem AMap.get_le {x b : Nat} {m : AMap Nat} (hx : x ≤ b) (hm : ∀ e, e ∈ m.ents → e.2 ≤ b) (k : Nat) : m.get x k ≤ b := by
  unfold AMap.get
  cases hf : m.find? k with
  | none => exact hx
  | some v => exact hm _ (AMap.mem_of_find? hf)

theorem bridgeTraining_skips : Event (.bridgeTraining true) (fun _ d => d.InHand 2) (fun _ _ e => ∀ j, j < 144 → e.skip.get 16 j ≤ 16) := by
  refine stage_event (post := fun _ e => ∀ j, j < 144 → e.skip.get 16 j ≤ 16) (exec_bridgeTraining _)
    (fun d _ j _ => AMap.get_le le_rfl (fun e he => ?_) j)
  obtain ⟨i, -, rfl⟩ := List.mem_map.mp he
  exact min_le_left _ _

/-! ### Ports that train (R351) -/

theorem portState_st : ∀ up narrow required : Bool, ((portState up narrow required).extractLsb' 0 2).toNat = (if up then 1 else 0) := by decide

theorem portState_required (up narrow required : Bool) : (portState up narrow required).getLsbD 9 = required := by
  cases up <;> cases narrow <;> cases required <;> rfl

/-- Writes made one after another, of which one gives a key what P says and the others leave it alone. -/
theorem AMap.foldl_range_sets {α : Type} {d : α} {put : AMap α → Nat → AMap α} {P : α → Prop} {key n : Nat} (m : AMap α) (hk : key < n)
    (hself : ∀ m, P ((put m key).get d key)) (hne : ∀ m i, i ≠ key → (put m i).get d key = m.get d key) :
    P (((List.range n).foldl put m).get d key) := by
  induction n with
  | zero => omega
  | succ n ih =>
    rw [List.range_succ, List.foldl_append, List.foldl_cons, List.foldl_nil]
    by_cases h : n = key
    · subst h
      exact hself _
    · rw [hne _ _ h]
      exact ih (by omega)

/-- What stage 4 gives a port. -/
def trainPort (up narrow : BitVec 12) (i : Nat) (p : Port) : Port :=
  { p with state := portState (up.getLsbD i) (narrow.getLsbD i) (Config.requiredPorts.getLsbD i) }

def trainPorts (up narrow : BitVec 12) (d : Dev) : Dev :=
  { d with ports := (List.range 12).foldl (fun m i => m.upd .init i (trainPort up narrow i)) d.ports }

theorem exec_extanNegotiation (up narrow : BitVec 12) (s : State) :
    exec (.extanNegotiation up narrow) s = stage 4 ((Config.requiredPorts &&& ~~~up) == 0#12) (trainPorts up narrow) s := by
  unfold exec execExtanNegotiation
  rfl

theorem trainPorts_port (up narrow : BitVec 12) (d : Dev) {p : Nat} (hp : p < 12) : ∃ x, (trainPorts up narrow d).port p = trainPort up narrow p x :=
  AMap.foldl_range_sets (P := fun y => ∃ x, y = trainPort up narrow p x) d.ports hp (fun m => ⟨m.get .init p, AMap.get_put_self _ _ _ _⟩)
    (fun m i hi => AMap.get_put_ne _ _ _ _ _ hi.symm)

theorem Dev.passStage_port (d : Dev) (p : Nat) : d.passStage.port p = d.port p := rfl

theorem trainPorts_passes (up narrow : BitVec 12) {d : Dev} {n : Nat} (hd : d.InHand n) : d.Passes (trainPorts up narrow d).passStage := by
  unfold trainPorts
  exact ⟨rfl, hd.2⟩

theorem trainPorts_slots (up narrow : BitVec 12) (d : Dev) : d.sameSlots (trainPorts up narrow d).passStage := by
  unfold trainPorts
  exact fun _ _ => rfl

theorem extanNegotiation_event (up narrow : BitVec 12) : Event (.extanNegotiation up narrow) (fun _ d => d.InHand 4)
    (fun _ d e => if Config.requiredPorts &&& ~~~up = 0#12 then d.Passes e ∧ d.sameSlots e ∧ ∀ p, p < 12 →
        (e.port p).st = (if up.getLsbD p then 1 else 0) ∧ (e.port p).state.getLsbD 9 = Config.requiredPorts.getLsbD p
      else d.Stops e) := by
  refine stage_event (post := fun d e => if Config.requiredPorts &&& ~~~up = 0#12 then d.Passes e ∧ d.sameSlots e ∧ ∀ p, p < 12 →
      (e.port p).st = (if up.getLsbD p then 1 else 0) ∧ (e.port p).state.getLsbD 9 = Config.requiredPorts.getLsbD p
    else d.Stops e) (exec_extanNegotiation up narrow) (fun d hd => ?_)
  by_cases h : Config.requiredPorts &&& ~~~up = 0#12
  · rw [if_pos h, if_pos (by simpa using h)]
    refine ⟨trainPorts_passes up narrow hd, trainPorts_slots up narrow d, fun p hp => ?_⟩
    obtain ⟨x, hx⟩ := trainPorts_port up narrow d hp
    rw [Dev.passStage_port, hx]
    exact ⟨portState_st _ _ _, portState_required _ _ _⟩
  · rw [if_neg h, if_neg (by simpa using h)]
    exact d.stops_failStage


/-! ### Firmware (R358) -/

def verifyFirmware (images : List FwImage) (d : Dev) : Dev :=
  if !d.inStage 6 then d else
  let r := verifyAll images d.mr
  r.2.elim { d with mr := r.1, fwVersion := (images.getLast?.map FwImage.version).getD 0 }.passStage
    (fun n => { d with mr := r.1, failure := 0x60 + n })

theorem exec_firmwareVerify (images : List FwImage) (s : State) : exec (.firmwareVerify images) s = onDev (fun _ => verifyFirmware images) s := by
  unfold exec execFirmwareVerify onDev verifyFirmware
  dsimp only
  congr 2
  split
  · rfl
  · split <;> simp [*]

section
variable {is : List FwImage} {d : Dev} (hd : d.InHand 6)
include hd

theorem verifyFirmware_passes (hr : (verifyAll is d.mr).2 = none) :
    verifyFirmware is d = { d with mr := (verifyAll is d.mr).1, fwVersion := (is.getLast?.map FwImage.version).getD 0 }.passStage := by
  unfold verifyFirmware
  rw [(d.inStage_iff 6).mpr hd]
  dsimp only
  rw [hr]
  rfl

theorem verifyFirmware_stops {n : Nat} (hr : (verifyAll is d.mr).2 = some n) :
    verifyFirmware is d = { d with mr := (verifyAll is d.mr).1, failure := 0x60 + n } := by
  unfold verifyFirmware
  rw [(d.inStage_iff 6).mpr hd]
  dsimp only
  rw [hr]
  rfl

end

theorem verifyAll_bad {i : FwImage} (h : imageOk i = false) (mr : AMap V512) : verifyAll [i] mr = (mr, some (i.mr % 8)) := by
  unfold verifyAll
  rw [h]
  rfl

theorem verifyAll_good {i : FwImage} (h : imageOk i = true) (mr : AMap V512) :
    verifyAll [i] mr = (mr.upd 0#512 (i.mr % 8) (fun v => extendMr v i.digest), none) := by
  unfold verifyAll
  rw [h]
  rfl

/-- An image that fails a check stops stage 6, and no register takes its measurement. -/
theorem verifyFirmware_bad {i : FwImage} {d : Dev} (hd : d.InHand 6) (h : imageOk i = false) :
    (verifyFirmware [i] d).stage = 6 ∧ (verifyFirmware [i] d).failure = 0x60 + i.mr % 8 ∧ (verifyFirmware [i] d).mr = d.mr ∧
      d.sameSlots (verifyFirmware [i] d) := by
  have hv := verifyAll_bad h d.mr
  rw [verifyFirmware_stops hd (congrArg Prod.snd hv), hv]
  exact ⟨hd.1, rfl, rfl, fun _ _ => rfl⟩

theorem firmwareVerify_event (i : FwImage) : Event (.firmwareVerify [i]) (fun _ d => d.InHand 6)
    (fun _ d e => d.sameSlots e ∧ if imageOk i = true then d.Passes e ∧ e.fwVersion = i.version ∧ e.mr.get 0#512 (i.mr % 8) =
        vecOfBytes (sha512 (vecBytes (d.mr.get 0#512 (i.mr % 8)) ++ vecBytes i.digest))
      else e.stage = 6 ∧ e.failure = 0x60 + i.mr % 8 ∧ e.mr = d.mr) := by
  refine onDev_event (exec_firmwareVerify [i]) (fun m d hd => ?_)
  cases h : imageOk i with
  | false =>
    obtain ⟨hstage, hfail, hmr, hslots⟩ := verifyFirmware_bad hd h
    exact ⟨hslots, hstage, hfail, hmr⟩
  | true =>
    have hv := verifyAll_good h d.mr
    rw [verifyFirmware_passes hd (congrArg Prod.snd hv), hv]
    exact ⟨fun _ _ => rfl, ⟨rfl, hd.2⟩, rfl, AMap.get_put_self _ _ _ _⟩

/-- A digest that is not the body's, or an old version, fails the check. -/
theorem imageOk_bad {i : FwImage} (h : vecBytes i.digest ≠ sha512 i.body ∨ i.version < Config.fusedVersion) : imageOk i = false := by
  unfold imageOk
  rcases h with h | h
  · rw [beq_eq_false_iff_ne.mpr h]
    rfl
  · rw [decide_eq_false (by omega), Bool.and_false]

/-! ### Attestation (R359, R360) -/

section
variable {i : Instr} {f : Memory → Dev → Dev} (he : ∀ s, exec i s = doe f s)
include he

theorem doe_event {pre : Memory → Dev → Prop} {post : Memory → Dev → Dev → Prop} (hpre : ∀ m d, pre m d → 6 ≤ d.stage)
    (hf : ∀ m d, pre m d → post m d (f m d)) : Event i pre post := by
  refine onDev_event he (fun m d hd => ?_)
  rw [if_pos (hpre m d hd)]
  exact hf m d hd

/-- A request whose answer is all it does. -/
theorem doe_answers {pre : Memory → Dev → Prop} {bs : Dev → List Byte} (hpre : ∀ m d, pre m d → 6 ≤ d.stage)
    (hf : ∀ m d, pre m d → f m d = { d with doe := bs d }) : Event i pre (fun _ d e => e = { d with doe := bs d }) := doe_event he hpre hf

theorem doe_early : Event i (fun _ d => d.stage < 6) (fun _ d e => e = d) :=
  onDev_event he (fun _ _ hd => if_neg (by omega))

end

def measurement (blk : Nat) (nonce : BitVec 256) (d : Dev) : Dev :=
  (if blk < 8 then some (vecBytes (d.mr.get 0#512 blk)) else if blk = 8 then some d.exportCert else none).elim (d.answer 1 [])
    (fun b => d.answer 0 (b ++ identityKey.sign (nonceBytes nonce ++ b)))

theorem exec_getMeasurements (blk : Nat) (nonce : BitVec 256) (s : State) :
    exec (.getMeasurements blk nonce) s = doe (fun _ => measurement blk nonce) s := by
  unfold exec execGetMeasurements measurement doe onDev
  dsimp only
  congr 2
  split
  · split <;> simp [*]
  · rfl

def installKey (slot : Nat) (key : BitVec 4096) (m : Memory) (d : Dev) : Dev :=
  if 8 ≤ slot ∨ d.cores.ents.any (fun c => c.2.cq.q.any (d.namesKey m slot)) = true then d.answer 1 []
  else { d with keys := d.keys.put slot key }.answer 0 []

theorem exec_installKey (slot : Nat) (key : BitVec 4096) (s : State) : exec (.installKey slot key) s = doe (installKey slot key) s := by
  unfold exec execInstallKey
  rfl

theorem installKey_taken (slot : Nat) (key : BitVec 4096) :
    Event (.installKey slot key) (fun _ d => 6 ≤ d.stage ∧ slot < 8 ∧ ∀ c, c ∈ d.cores.ents → c.2.cq.q = [])
      (fun _ d e => e.keys.find? slot = some key ∧ (∀ k, k ≠ slot → e.keys.find? k = d.keys.find? k) ∧ e.doe = [0#8] ∧ d.sameSlots e) := by
  refine doe_event (exec_installKey slot key) (fun _ _ h => h.1) (fun m d ⟨_, hslot, hq⟩ => ?_)
  have hnone : ¬(8 ≤ slot ∨ d.cores.ents.any (fun c => c.2.cq.q.any (d.namesKey m slot)) = true) := by
    rw [not_or, Bool.not_eq_true, List.any_eq_false]
    exact ⟨by omega, fun c hc => by rw [hq c hc]; exact Bool.false_ne_true⟩
  unfold installKey
  rw [if_neg hnone]
  exact ⟨AMap.find_put_self _ _ _, fun k hk => AMap.find_put_ne _ _ _ _ hk, rfl, fun _ _ => rfl⟩

theorem attestation_early (nonce : BitVec 256) (blk slot : Nat) (key : BitVec 4096) (i : Instr)
    (hi : i ∈ [Instr.getDigests, .getCertificate, .challenge nonce, .getMeasurements blk nonce, .installKey slot key]) :
    Event i (fun _ d => d.stage < 6) (fun _ d e => e = d) := by
  simp only [List.mem_cons, List.not_mem_nil, or_false] at hi
  rcases hi with rfl | rfl | rfl | rfl | rfl
  · exact doe_early (fun _ => by unfold exec execGetDigests; rfl)
  · exact doe_early (fun _ => by unfold exec execGetCertificate; rfl)
  · exact doe_early (fun _ => by unfold exec execChallenge; rfl)
  · exact doe_early (exec_getMeasurements blk nonce)
  · exact doe_early (exec_installKey slot key)

/-- Settles O52, stage by stage and request by request. -/
theorem bringUpAndIdentity : Obligations.BringUpAndIdentity := by
  refine ⟨fun n ok up narrow i => ⟨?powerOn, plainStages ok, bridgeTraining_skips, extanNegotiation_event up narrow, firmwareVerify_event i, ?bad, ?first,
    ?ready, ?notReady⟩, fun nonce blk slot key => ⟨?digests, ?certificate, ?challenge, ?block, ?export_, ?noBlock, installKey_taken slot key, ?noSlot,
    attestation_early nonce blk slot key⟩⟩
  case powerOn => exact onDev_event (f := fun _ _ => { Dev.reset with stage := 1 }) (fun _ => by unfold exec execPowerOn; rfl) (fun _ _ _ => rfl)
  case bad => exact onDev_event (exec_firmwareVerify [i]) (fun _ d hd => verifyFirmware_bad hd.1 (imageOk_bad hd.2))
  case first =>
    refine fun is => onDev_event (exec_firmwareVerify is) (fun _ d hd => ?_)
    rw [verifyFirmware_stops hd.1 hd.2]
    exact ⟨hd.1.1, rfl, fun _ _ => rfl⟩
  case ready =>
    refine onDev_event (f := fun _ d => if d.inStage 7 && !d.up then { d with up := true, clock := 0 } else d) (fun _ => by unfold exec execReady; rfl)
      (fun _ d ⟨hd, hup⟩ => ?_)
    rw [(d.inStage_iff 7).mpr hd, hup]
    exact ⟨rfl, rfl, fun _ _ => rfl⟩
  case notReady =>
    refine onDev_event (f := fun _ d => if d.inStage 7 && !d.up then { d with up := true, clock := 0 } else d) (fun _ => by unfold exec execReady; rfl)
      (fun _ d hd => if_neg ?_)
    rcases hd with hd | hd
    · rw [Dev.inStage_false hd]
      exact Bool.false_ne_true
    · simp [hd]
  case digests => exact doe_answers (fun _ => by unfold exec execGetDigests; rfl) (fun _ _ h => h) (fun _ _ _ => rfl)
  case certificate => exact doe_answers (fun _ => by unfold exec execGetCertificate; rfl) (fun _ _ h => h) (fun _ _ _ => rfl)
  case challenge =>
    exact doe_answers (fun _ => by unfold exec execChallenge; rfl) (fun _ _ h => h)
      (fun _ d _ => congrArg (fun b => d.answer 0 (identityKey.sign b)) (List.append_nil _).symm)
  case block =>
    refine doe_answers (exec_getMeasurements blk nonce) (fun _ _ h => h.1) (fun _ d hd => ?_)
    unfold measurement
    rw [if_pos hd.2]
    rfl
  case export_ =>
    refine doe_answers (exec_getMeasurements 8 nonce) (fun _ _ h => h) (fun _ d _ => ?_)
    unfold measurement
    rw [if_neg (by omega), if_pos rfl]
    rfl
  case noBlock =>
    refine doe_answers (exec_getMeasurements blk nonce) (fun _ _ h => h.1) (fun _ d hd => ?_)
    unfold measurement
    rw [if_neg (by omega), if_neg (by omega)]
    rfl
  case noSlot =>
    refine doe_answers (exec_installKey slot key) (fun _ _ h => h.1) (fun _ d hd => ?_)
    unfold installKey
    rw [if_pos (.inl hd.2)]
    rfl

end Sys2Proof.Machine
end

section
/-! PROOFS. Places of the cores, and RAS requests (O51). -/

namespace Sys2Proof.Machine

/-! ### Places on the grid (R273) -/

/-- The base position of a base point: the digits of R273's curve read off from the largest square down. -/
def basePos (p : Nat × Nat) : Nat :=
  ([8, 4, 2, 1].foldl (fun (a : (Nat × Nat) × Nat) s =>
    let rx := a.1.1 / s
    let ry := a.1.2 / s
    let u := a.1.1 - s * rx
    let v := a.1.2 - s * ry
    ((if ry = 0 then (if rx = 1 then (s - 1 - v, s - 1 - u) else (v, u)) else (u, v)), 4 * a.2 + (2 * rx + (rx + ry) % 2))) (p, 0)).2

/-- Two places stand side by side. -/
def Beside (p q : Nat × Nat) : Prop := p.1 = q.1 ∧ (p.2 + 1 = q.2 ∨ q.2 + 1 = p.2) ∨ p.2 = q.2 ∧ (p.1 + 1 = q.1 ∨ q.1 + 1 = p.1)

/-- A point of a square of 16 by 16. -/
def InSquare (p : Nat × Nat) : Prop := p.1 < 16 ∧ p.2 < 16

/-- What holds of all positions, from rows of sixteen of them. -/
theorem forall_position {P : Nat → Prop} (h : ∀ a, a < 16 → ∀ b, b < 16 → P (16 * a + b)) {k : Nat} (hk : k < 256) : P k := by
  have := h (k / 16) (by omega) (k % 16) (by omega)
  rwa [Nat.div_add_mod] at this

theorem basePoint_inSquare {k : Nat} (hk : k < 256) : InSquare (basePoint k) := by
  refine forall_position (P := fun k => InSquare (basePoint k)) ?_ hk
  unfold InSquare
  decide

theorem basePos_basePoint {k : Nat} (hk : k < 256) : basePos (basePoint k) = k :=
  forall_position (P := fun k => basePos (basePoint k) = k) (by decide) hk

theorem basePoint_beside {k : Nat} (hk : k < 255) : Beside (basePoint k) (basePoint (k + 1)) := by
  refine forall_position (P := fun k => k < 255 → Beside (basePoint k) (basePoint (k + 1))) ?_ (by omega) hk
  unfold Beside
  decide

/-- A district's local coordinates are a base point as it stands, mirrored in the diagonal, or turned by a half. -/
theorem localPoint_cases (dist : Nat) :
    (∀ p, localPoint dist p = p) ∨ (∀ p, localPoint dist p = (p.2, p.1)) ∨ ∀ p, localPoint dist p = (15 - p.1, 15 - p.2) := by
  unfold localPoint
  split
  · exact .inr (.inl fun _ => rfl)
  · exact .inr (.inl fun _ => rfl)
  · exact .inr (.inr fun _ => rfl)
  · exact .inr (.inr fun _ => rfl)
  · exact .inl fun _ => rfl

section
variable (dist : Nat) {p q : Nat × Nat} (hp : InSquare p) (hq : InSquare q)
include hp

theorem localPoint_inSquare : InSquare (localPoint dist p) := by
  obtain ⟨hx, hy⟩ := hp
  rcases localPoint_cases dist with h | h | h
  · rw [h p]
    exact ⟨hx, hy⟩
  · rw [h p]
    exact ⟨hy, hx⟩
  · rw [h p]
    constructor <;> dsimp only <;> omega

include hq

theorem localPoint_inj (h : localPoint dist p = localPoint dist q) : p = q := by
  obtain ⟨hx, hy⟩ := hp
  obtain ⟨hu, hv⟩ := hq
  rcases localPoint_cases dist with hl | hl | hl
  · rwa [hl, hl] at h
  · rw [hl, hl, Prod.mk.injEq] at h
    exact Prod.ext h.2 h.1
  · rw [hl, hl, Prod.mk.injEq] at h
    refine Prod.ext ?_ ?_ <;> omega

theorem localPoint_beside (h : Beside p q) : Beside (localPoint dist p) (localPoint dist q) := by
  obtain ⟨hx, hy⟩ := hp
  obtain ⟨hu, hv⟩ := hq
  unfold Beside at h ⊢
  rcases localPoint_cases dist with hl | hl | hl
  · rwa [hl, hl]
  · rw [hl, hl]
    exact h.symm
  · rw [hl, hl]
    dsimp only
    omega

end

theorem corePoint_inSquare (h : Nat) : InSquare (corePoint h) := localPoint_inSquare _ (basePoint_inSquare (Nat.mod_lt _ (by decide)))

/-- Each core stands in its district's square. -/
theorem corePlace_district (h : Nat) : (corePlace h).1 / 16 = (districtAt (h / 256)).1 ∧ (corePlace h).2 / 16 = (districtAt (h / 256)).2 := by
  obtain ⟨hx, hy⟩ := corePoint_inSquare h
  unfold corePlace districtOf
  dsimp only
  omega

theorem districtAt_inj : ∀ a, a < 9 → ∀ b, b < 9 → districtAt a = districtAt b → a = b := by decide

theorem corePlace_inj {a b : Nat} (ha : a < 2304) (hb : b < 2304) (h : corePlace a = corePlace b) : a = b := by
  have hdist : a / 256 = b / 256 := by
    obtain ⟨hax, hay⟩ := corePlace_district a
    obtain ⟨hbx, hby⟩ := corePlace_district b
    refine districtAt_inj _ (by omega) _ (by omega) (Prod.ext ?_ ?_)
    · rw [← hax, ← hbx, h]
    · rw [← hay, ← hby, h]
  have hpoint : corePoint a = corePoint b := by
    unfold corePlace districtOf at h
    rw [hdist, Prod.mk.injEq] at h
    exact Prod.ext (by omega) (by omega)
  have hmod : ∀ h, h % 256 < 256 := fun h => Nat.mod_lt _ (by decide)
  unfold corePoint districtOf at hpoint
  rw [hdist] at hpoint
  have hbase := localPoint_inj _ (basePoint_inSquare (hmod a)) (basePoint_inSquare (hmod b)) hpoint
  have hpos : a % 256 = b % 256 := by rw [← basePos_basePoint (hmod a), hbase, basePos_basePoint (hmod b)]
  omega

/-- The curve leaves each district beside where it enters the next. -/
theorem corePlace_border : ∀ d, d < 8 → Beside (corePlace (256 * d + 255)) (corePlace (256 * d + 256)) := by
  unfold Beside
  decide

theorem corePlace_beside {h : Nat} (hh : h < 2303) : Beside (corePlace h) (corePlace (h + 1)) := by
  by_cases hlast : h % 256 = 255
  · have := corePlace_border (h / 256) (by omega)
    rwa [show 256 * (h / 256) + 255 = h by omega, show 256 * (h / 256) + 256 = h + 1 by omega] at this
  · have hd : (h + 1) / 256 = h / 256 := by omega
    have hk : (h + 1) % 256 = h % 256 + 1 := by omega
    have hbase := localPoint_beside (h / 256) (basePoint_inSquare (by omega)) (basePoint_inSquare (by omega))
      (basePoint_beside (k := h % 256) (by omega))
    unfold corePlace corePoint districtOf Beside
    unfold Beside at hbase
    rw [hd, hk]
    dsimp only
    omega

theorem Beside.mem {p q : Nat × Nat} (h : Beside p q) : q ∈ [(p.1 + 1, p.2), (p.1, p.2 + 1), (p.1 - 1, p.2), (p.1, p.2 - 1)] := by
  obtain ⟨x, y⟩ := p
  obtain ⟨u, v⟩ := q
  unfold Beside at h
  simp only [List.mem_cons, Prod.mk.injEq, List.not_mem_nil, or_false]
  dsimp only at h
  omega

/-- The sites of a row serve its columns one to one, and the one left out none (R365). -/
theorem siteColumn_spec (d : Dev) (dist y a b : Nat) (hs : d.skipAt dist y ≤ 16) (ha : a < 16) (hb : b < 16) : d.siteColumn dist y a < 17 ∧
    d.siteColumn dist y a ≠ d.skipAt dist y ∧ (d.siteColumn dist y a = d.siteColumn dist y b → a = b) := by
  unfold Dev.siteColumn
  split <;> split <;> omega

/-! ### Bytes cut into the lines of a group -/

/-- Bit b of byte j of a little-endian value. -/
theorem testBit_leNat (bs : List Byte) {j b : Nat} (hj : j < bs.length) (hb : b < 8) : (leNat bs).testBit (8 * j + b) = bs[j].getLsbD b := by
  induction bs generalizing j with
  | nil => exact absurd hj (Nat.not_lt_zero _)
  | cons x xs ih =>
    have hsum : leNat (x :: xs) = 2 ^ 8 * leNat xs + x.toNat := by rw [leNat]; omega
    rw [hsum, Nat.testBit_two_pow_mul_add _ x.isLt]
    cases j with
    | zero => rw [if_pos (by omega), BitVec.testBit_toNat, show 8 * 0 + b = b by omega, List.getElem_cons_zero]
    | succ j =>
      rw [if_neg (by omega), show 8 * (j + 1) + b - 8 = 8 * j + b by omega, ih (by simpa using hj), List.getElem_cons_succ]

/-- Byte j of bytes in a line. -/
theorem byte_lineBytes (va n : Nat) (bs : List Byte) {j : Nat} (hj : j < bs.length) (hline : va % 128 + j < 128) :
    Line.byte (lineBytes va (leNat bs) n).1 (va % 128 + j) = bs[j] := by
  refine BitVec.eq_of_getLsbD_eq (fun b hb => ?_)
  rw [Line.byte, BitVec.getLsbD_extractLsb', decide_eq_true hb, Bool.true_and, getLsbD_lineBytes_data _ _ _ (by omega), decide_eq_true (by omega),
    Bool.true_and, ← testBit_leNat bs hj hb]
  congr 1
  omega

/-- Every byte stands in the line of its address, under the line's mask. -/
theorem cutLines_byte {k va j : Nat} {bs : List Byte} (hk : bs.length < k) (hj : j < bs.length) : ∃ t, t ∈ cutLines k va bs ∧
    t.1 = lineOf (va + j) ∧ t.2.2.getLsbD ((va + j) % 128) = true ∧ Line.byte t.2.1 ((va + j) % 128) = bs[j] := by
  induction k generalizing va j bs with
  | zero => exact absurd hk (Nat.not_lt_zero _)
  | succ k ih =>
    obtain ⟨n, hn⟩ : ∃ n, n = min (128 - va % 128) bs.length := ⟨_, rfl⟩
    have hcut : cutLines (k + 1) va bs = (lineOf va, lineBytes va (leNat (bs.take n)) n) :: cutLines k (va + n) (bs.drop n) := by
      rw [cutLines, if_neg (by simpa using List.ne_nil_of_length_pos (by omega)), hn]
    rw [hcut]
    by_cases hjn : j < n
    · have hmod : (va + j) % 128 = va % 128 + j := by omega
      refine ⟨_, List.mem_cons_self, ?_, ?_, ?_⟩
      · unfold lineOf
        dsimp only
        omega
      · rw [hmod, getLsbD_lineBytes_mask _ _ _ (by omega)]
        exact decide_eq_true (by omega)
      · rw [hmod, byte_lineBytes _ _ _ (by rw [List.length_take]; omega) (by omega), List.getElem_take]
    · have hlen : (bs.drop n).length = bs.length - n := List.length_drop
      obtain ⟨t, ht, hline, hmask, hbyte⟩ := ih (va := va + n) (j := j - n) (bs := bs.drop n) (by omega) (by omega)
      have haddr : va + n + (j - n) = va + j := by omega
      rw [haddr] at hline hmask hbyte
      refine ⟨t, List.mem_cons_of_mem _ ht, hline, hmask, hbyte.trans ?_⟩
      rw [List.getElem_drop]
      congr 1
      omega

/-! ### A group that closes where every group has lines (R142) -/

/-- From d to e only groups and messages went on: a group of function fn with lines ls that stood there stands there still. -/
structure Dev.Regroups (fn : Nat) (ls : List GLine) (d e : Dev) : Prop where
  rest : ∃ gs ns k, e = { d with groups := gs, net := ns, count := k }
  keeps : (∃ g, g ∈ d.groups ∧ g.fn = fn ∧ g.lines = ls) → ∃ g, g ∈ e.groups ∧ g.fn = fn ∧ g.lines = ls
  full : (∀ g, g ∈ d.groups → g.lines ≠ []) → ∀ g, g ∈ e.groups → g.lines ≠ []

namespace Dev.Regroups
variable {fn : Nat} {ls : List GLine} {d e f : Dev}

theorem refl (d : Dev) : Dev.Regroups fn ls d d := ⟨⟨_, _, _, rfl⟩, id, id⟩

theorem trans (h : Dev.Regroups fn ls d e) (g : Dev.Regroups fn ls e f) : Dev.Regroups fn ls d f := by
  obtain ⟨gs, ns, k, rfl⟩ := h.rest
  obtain ⟨gs', ns', k', rfl⟩ := g.rest
  exact ⟨⟨gs', ns', k', rfl⟩, fun x => g.keeps (h.keeps x), fun x => g.full (h.full x)⟩

theorem send (chan : Nat) (x : Ev) (d : Dev) : Dev.Regroups fn ls d (d.send chan x) := ⟨⟨_, _, _, rfl⟩, id, id⟩

theorem updGroup (id : Nat) {u : Grp → Grp} (hfn : ∀ g, (u g).fn = g.fn) (hls : ∀ g, g.lines = ls → (u g).lines = ls)
    (hne : ∀ g, g.lines ≠ [] → (u g).lines ≠ []) : Dev.Regroups fn ls d (d.updGroup id u) := by
  refine ⟨⟨_, _, _, rfl⟩, fun ⟨g, hg, hf, hl⟩ => ⟨_, List.mem_map_of_mem hg, ?_, ?_⟩, fun hfull g hg => ?_⟩
  · split
    · exact (hfn g).trans hf
    · exact hf
  · split
    · exact hls g hl
    · exact hl
  · obtain ⟨y, hy, rfl⟩ := List.mem_map.mp hg
    split
    · exact hne y (hfull y hy)
    · exact hfull y hy

theorem foldl {α : Type} {s : Dev → α → Dev} (xs : List α) (hs : ∀ d x, Dev.Regroups fn ls d (s d x)) (d : Dev) :
    Dev.Regroups fn ls d (xs.foldl s d) := by
  induction xs generalizing d with
  | nil => exact refl d
  | cons x xs ih => exact (hs d x).trans (ih _)

theorem slots (h : Dev.Regroups fn ls d e) : d.sameSlots e := by
  obtain ⟨gs, ns, k, rfl⟩ := h.rest
  exact fun _ _ => rfl

theorem pool (h : Dev.Regroups fn ls d e) (a b : Nat) : e.pool a b = d.pool a b := by
  obtain ⟨gs, ns, k, rfl⟩ := h.rest
  rfl

variable (hrec : ∀ l, l ∈ ls → l.rec_ = none)
include hrec

theorem advance (m : Memory) (id : Nat) (hfull : ∀ g, g ∈ d.groups → g.lines ≠ []) : Dev.Regroups fn ls d (d.advance m id) := by
  unfold Dev.advance
  split
  · exact refl d
  · next g hg =>
    split
    · refine trans ?_ (send _ _ _)
      refine updGroup id (fun _ => rfl) (fun x hx => ?_) (fun x hx => ?_)
      · exact (congrArg Grp.lines (Grp.capture_plain (hx ▸ hrec) _ _)).trans hx
      · exact fun h => hx (List.map_eq_nil_iff.mp h)
    · dsimp only
      rw [if_neg (fun h => hfull g (List.mem_of_find?_eq_some hg) (homesOf_eq_nil h))]
      refine trans ?_ (foldl _ (fun d q => send _ _ d) _)
      exact updGroup id (fun _ => rfl) (fun _ h => h) (fun _ h => h)

theorem startGroups (m : Memory) (k : Nat) (hfull : ∀ g, g ∈ d.groups → g.lines ≠ []) : Dev.Regroups fn ls d (d.startGroups m k) := by
  induction k generalizing d with
  | zero => exact refl d
  | succ k ih =>
    unfold Dev.startGroups
    split
    · exact refl d
    · next g hg =>
      have hstart : Dev.Regroups fn ls d (d.updGroup g.id (fun g => { g with phase := .one })) :=
        updGroup g.id (fun _ => rfl) (fun _ h => h) (fun _ h => h)
      have hadv := hstart.trans (advance hrec m g.id (hstart.full hfull))
      exact hadv.trans (ih (hadv.full hfull))

theorem addGroup (hls : ls ≠ []) (m : Memory) (core : Nat) (after : Option Nat) (fin : List Fin) (hfull : ∀ g, g ∈ d.groups → g.lines ≠ []) :
    Dev.Regroups fn ls d (d.addGroup m ls fn core after fin) ∧ ∃ g, g ∈ (d.addGroup m ls fn core after fin).groups ∧ g.fn = fn ∧ g.lines = ls := by
  unfold Dev.addGroup Dev.settle
  obtain ⟨g, hg⟩ : ∃ g : Grp, g = ⟨d.newGid, ls, .waiting, homesOf ls, [], fn, after, core, fin⟩ := ⟨_, rfl⟩
  dsimp only
  rw [← hg]
  have hnew : Dev.Regroups fn ls d { d with groups := d.groups ++ [g], count := d.newGid + 1 } := by
    refine ⟨⟨_, _, _, rfl⟩, fun ⟨x, hx, h⟩ => ⟨x, List.mem_append_left _ hx, h⟩, fun h x hx => ?_⟩
    rcases List.mem_append.mp hx with hx | hx
    · exact h x hx
    · rw [List.mem_singleton.mp hx, hg]
      exact hls
  have hgo := startGroups hrec (fn := fn) m ((d.groups ++ [g]).length + 1) (hnew.full hfull)
  exact ⟨hnew.trans hgo, hgo.keeps ⟨g, List.mem_append_right _ List.mem_cons_self, by rw [hg], by rw [hg]⟩⟩

end Dev.Regroups

/-! ### RAS requests (R361) -/

section
variable {i : Instr} {f : Memory → Dev → List Host.Cell × Dev} (he : ∀ s, exec i s = ras f s)
include he

/-- A request that writes no memory. -/
theorem ras_event {pre : Memory → Dev → Prop} {post : Memory → Dev → Dev → Prop} (hpre : ∀ m d, pre m d → d.up = true)
    (hf : ∀ m d, pre m d → (f m d).1 = [] ∧ post m d (f m d).2) : Event i pre post := by
  intro s hs
  obtain ⟨hnone, hpost⟩ := hf _ _ hs
  refine ⟨⟨s.mem.writeAll (f s.mem s.dev).1, (f s.mem s.dev).2⟩, ?_, fun a => by rw [hnone]; rfl, hpost⟩
  rw [he, ras, onMem, if_pos (hpre _ _ hs)]

theorem ras_next {s : State} (hup : s.dev.up = true) : exec i s = .next ⟨s.mem.writeAll (f s.mem s.dev).1, (f s.mem s.dev).2⟩ := by
  rw [he, ras, onMem, if_pos hup]

/-- Before the device is up no request does anything. -/
theorem ras_down : Event i (fun _ d => d.up = false) (fun _ d e => e = d) := by
  intro s hs
  refine ⟨s, ?_, fun _ => rfl, rfl⟩
  rw [he, ras, onMem, hs]
  rfl

end

/-- The device's answer, with no slot changed. -/
def Dev.Says (d e : Dev) (bs : List Byte) : Prop := e.doe = bs ∧ d.sameSlots e

/-! ### Counts, the log and the remap -/

def errcntBody (dist : Nat) (x : Dev) : Dev :=
  if okDistrict dist then x.answer 0 ((List.range 7).flatMap (fun s => leBytes 8 (x.errCount.get 0#64 (256 * dist + s + 1)).toNat)) else x.answer 1 []

theorem exec_errcnt (dist : Nat) (s : State) : exec (.errcnt dist) s = ras (fun _ x => ([], errcntBody dist x)) s := by
  unfold exec execErrcnt
  rfl

theorem okDistrict_iff (dist : Nat) : okDistrict dist = true ↔ dist < 9 ∨ dist = 255 := by simp [okDistrict]

theorem errcnt_counts (dist : Nat) : Event (.errcnt dist) (fun _ d => d.up = true ∧ (dist < 9 ∨ dist = 255))
    (fun _ d e => d.Says e (0#8 :: (List.range 7).flatMap (fun i => leBytes 8 (d.errCount.get 0#64 (256 * dist + i + 1)).toNat))) := by
  refine ras_event (exec_errcnt dist) (fun _ _ h => h.1) (fun _ d ⟨_, hd⟩ => ⟨rfl, ?_⟩)
  unfold errcntBody
  rw [if_pos ((okDistrict_iff dist).mpr hd)]
  exact ⟨rfl, fun _ _ => rfl⟩

theorem errcnt_refused (dist : Nat) : Event (.errcnt dist) (fun _ d => d.up = true ∧ 9 ≤ dist ∧ dist ≠ 255) (fun _ d e => d.Says e [1#8]) := by
  refine ras_event (exec_errcnt dist) (fun _ _ h => h.1) (fun _ d ⟨_, hd⟩ => ⟨rfl, ?_⟩)
  unfold errcntBody
  rw [if_neg (fun h => by have := (okDistrict_iff dist).mp h; omega)]
  exact ⟨rfl, fun _ _ => rfl⟩

def errlogBody (x : Dev) : Dev :=
  x.errLog.rec (x.answer 2 []) (fun r rest _ =>
    { x with errLog := rest }.answer 0 (leBytes 1 r.sub ++ leBytes 1 r.district ++ leBytes 8 r.addr ++ leBytes 6 r.gtid.toNat))

theorem exec_errlog (s : State) : exec .errlog s = ras (fun _ x => ([], errlogBody x)) s := by
  unfold exec execErrlog ras onMem
  dsimp only
  split
  · unfold errlogBody
    split <;> simp [*]
  · rfl

theorem errlog_oldest (r : ErrRec) (rest : List ErrRec) : Event .errlog (fun _ d => d.up = true ∧ d.errLog = r :: rest)
    (fun _ d e => e.errLog = rest ∧ d.Says e (0#8 :: (leBytes 1 r.sub ++ leBytes 1 r.district ++ leBytes 8 r.addr ++ leBytes 6 r.gtid.toNat))) := by
  refine ras_event exec_errlog (fun _ _ h => h.1) (fun _ d ⟨_, hlog⟩ => ⟨rfl, ?_⟩)
  unfold errlogBody
  rw [hlog]
  exact ⟨rfl, rfl, fun _ _ => rfl⟩

theorem errlog_empty : Event .errlog (fun _ d => d.up = true ∧ d.errLog = []) (fun _ d e => d.Says e [2#8]) := by
  refine ras_event exec_errlog (fun _ _ h => h.1) (fun _ d ⟨_, hlog⟩ => ⟨rfl, ?_⟩)
  unfold errlogBody
  rw [hlog]
  exact ⟨rfl, fun _ _ => rfl⟩

/-- The value whose bits, below n, are those of f. -/
def bitsOf (f : Nat → Bool) (n : Nat) : Nat := (List.range n).foldl (fun a k => a + bitNat (f k) k) 0

theorem bitsOf_succ (f : Nat → Bool) (n : Nat) : bitsOf f (n + 1) = bitsOf f n + bitNat (f n) n := by
  unfold bitsOf
  rw [List.range_succ, List.foldl_append, List.foldl_cons, List.foldl_nil]

theorem bitsOf_lt (f : Nat → Bool) (n : Nat) : bitsOf f n < 2 ^ n := by
  induction n with
  | zero => exact Nat.one_pos
  | succ n ih =>
    rw [bitsOf_succ, bitNat]
    split <;> omega

theorem testBit_bitsOf (f : Nat → Bool) {n k : Nat} (hk : k < n) : (bitsOf f n).testBit k = f k := by
  induction n with
  | zero => exact absurd hk (Nat.not_lt_zero _)
  | succ n ih =>
    have hsum : bitsOf f (n + 1) = 2 ^ n * (f n).toNat + bitsOf f n := by
      rw [bitsOf_succ, bitNat]
      cases f n <;> simp [Nat.add_comm]
    rw [hsum, Nat.testBit_two_pow_mul_add _ (bitsOf_lt f n)]
    by_cases h : k < n
    · rw [if_pos h, ih h]
    · have : k = n := by omega
      rw [if_neg h, this]
      cases f n <;> simp

/-- Byte i of the mask of failed cores. -/
def Dev.failedByte (x : Dev) (dist i : Nat) : Byte := BitVec.ofNat 8 (bitsOf (fun k => x.failed.contains (256 * dist + 8 * i + k)) 8)

def remapgetBody (dist : Nat) (x : Dev) : Dev :=
  if dist < 9 then x.answer 0 ((List.range 16).flatMap (fun y => leBytes 1 (x.skipAt dist y)) ++ (List.range 32).map (x.failedByte dist)) else x.answer 1 []

theorem exec_remapget (dist : Nat) (s : State) : exec (.remapget dist) s = ras (fun _ x => ([], remapgetBody dist x)) s := by
  unfold exec execRemapget
  rfl

theorem remapget_answer (dist : Nat) : Event (.remapget dist) (fun _ d => d.up = true ∧ dist < 9)
    (fun _ d e => d.sameSlots e ∧ e.doe.length = 49 ∧ e.doe[0]? = some 0#8 ∧ (∀ i, i < 16 → e.doe[1 + i]? = some (BitVec.ofNat 8 (d.skipAt dist i))) ∧
      ∀ i, i < 256 → ((e.doe[17 + i / 8]?).getD 0#8).getLsbD (i % 8) = d.failed.contains (256 * dist + i)) := by
  refine ras_event (exec_remapget dist) (fun _ _ h => h.1) (fun _ d ⟨_, hd⟩ => ⟨rfl, ?_⟩)
  have hdoe : (remapgetBody dist d).doe = 0#8 :: ((List.range 16).map (fun y => BitVec.ofNat 8 (d.skipAt dist y)) ++ (List.range 32).map (d.failedByte dist)) := by
    unfold remapgetBody
    rw [if_pos hd]
    rfl
  dsimp only
  rw [hdoe]
  refine ⟨?_, by simp, rfl, fun i hi => ?_, fun i hi => ?_⟩
  · unfold remapgetBody
    rw [if_pos hd]
    exact fun _ _ => rfl
  · rw [show 1 + i = i + 1 by omega, List.getElem?_cons_succ, List.getElem?_append_left (by simpa using hi)]
    simp [hi]
  · rw [show 17 + i / 8 = (i / 8 + 16) + 1 by omega, List.getElem?_cons_succ, List.getElem?_append_right (by simp)]
    have hbyte : ((List.range 32).map (d.failedByte dist))[i / 8]? = some (d.failedByte dist (i / 8)) := by simp [show i / 8 < 32 by omega]
    rw [show i / 8 + 16 - ((List.range 16).map (fun y => BitVec.ofNat 8 (d.skipAt dist y))).length = i / 8 by simp, hbyte, Option.getD_some,
      Dev.failedByte, BitVec.getLsbD_ofNat, decide_eq_true (by omega), Bool.true_and, testBit_bitsOf _ (by omega)]
    congr 1
    omega

def remapsetBody (dist y skip : Nat) (x : Dev) : Dev :=
  if dist < 9 ∧ y < 16 ∧ skip ≤ 16 ∧ x.districtActive dist = false then { x with skip := x.skip.put (16 * dist + y) skip }.answer 0 [] else x.answer 1 []

theorem exec_remapset (dist y skip : Nat) (s : State) : exec (.remapset dist y skip) s = ras (fun _ x => ([], remapsetBody dist y skip x)) s := by
  unfold exec execRemapset
  rfl

theorem remapset_taken (dist y skip : Nat) :
    Event (.remapset dist y skip) (fun _ d => d.up = true ∧ dist < 9 ∧ y < 16 ∧ skip ≤ 16 ∧ d.districtActive dist = false)
      (fun _ d e => e.skipAt dist y = skip ∧ (∀ i j, j < 16 → (i, j) ≠ (dist, y) → e.skipAt i j = d.skipAt i j) ∧ d.Says e [0#8]) := by
  refine ras_event (exec_remapset dist y skip) (fun _ _ h => h.1) (fun _ d ⟨_, hok⟩ => ⟨rfl, ?_⟩)
  unfold remapsetBody
  rw [if_pos hok]
  refine ⟨AMap.get_put_self _ _ _ _, fun i j hj hne => AMap.get_put_ne _ _ _ _ _ (fun h => hne ?_), rfl, fun _ _ => rfl⟩
  have := hok.2.1
  exact Prod.ext (by dsimp only; omega) (by dsimp only; omega)

theorem remapset_refused (dist y skip : Nat) :
    Event (.remapset dist y skip) (fun _ d => d.up = true ∧ (9 ≤ dist ∨ 16 ≤ y ∨ 16 < skip ∨ d.districtActive dist = true))
      (fun _ d e => e.skip = d.skip ∧ d.Says e [1#8]) := by
  refine ras_event (exec_remapset dist y skip) (fun _ _ h => h.1) (fun _ d ⟨_, hbad⟩ => ⟨rfl, ?_⟩)
  unfold remapsetBody
  rw [if_neg]
  · exact ⟨rfl, rfl, fun _ _ => rfl⟩
  · rintro ⟨hd, hy, hs, ha⟩
    rcases hbad with h | h | h | h
    · omega
    · omega
    · omega
    · exact Bool.false_ne_true (ha.symm.trans h)

/-! ### Write logs (R370) -/

/-- A write log's bitmap lies in device memory, where it is on. -/
def LogFits (base : W64) (en : Bool) : Prop :=
  en = false ∨ base.toNat % 2 ^ 21 = 0 ∧ (isHbm base.toNat = true ∧ isHbm (base.toNat + 96 * 2 ^ 20 - 1) = true ∨
    isLpddr base.toNat = true ∧ isLpddr (base.toNat + 96 * 2 ^ 20 - 1) = true)

def setLog (base : W64) (en : Bool) (y : Func) : Func := { y with logOn := en, logBase := if en then base else y.logBase }

def logsetBody (f : Nat) (base : W64) (en : Bool) (x : Dev) : Dev :=
  let last := base.toNat + 96 * 2 ^ 20 - 1
  if f ≤ 32 ∧ (en = false ∨ (base.toNat % 2 ^ 21 = 0 ∧ ((isHbm base.toNat && isHbm last) || (isLpddr base.toNat && isLpddr last)) = true)) then
    (x.updFunc f (setLog base en)).answer 0 []
  else x.answer 1 []

theorem exec_logset (f : Nat) (base : W64) (en : Bool) (s : State) : exec (.logset f base en) s = ras (fun _ x => ([], logsetBody f base en x)) s := by
  unfold exec execLogset
  rfl

section
variable (f : Nat) (base : W64) (en : Bool)

theorem logsetBody_taken (d : Dev) (hf : f ≤ 32) (hb : LogFits base en) : logsetBody f base en d = (d.updFunc f (setLog base en)).answer 0 [] := by
  unfold logsetBody
  exact if_pos ⟨hf, by simpa only [LogFits, Bool.or_eq_true, Bool.and_eq_true] using hb⟩

theorem logsetBody_refused (d : Dev) (h : 32 < f ∨ ¬LogFits base en) : logsetBody f base en d = d.answer 1 [] := by
  unfold logsetBody
  refine if_neg (fun ⟨hf, hb⟩ => ?_)
  rcases h with h | h
  · omega
  · exact h (by simpa only [LogFits, Bool.or_eq_true, Bool.and_eq_true] using hb)

theorem logset_taken : Event (.logset f base en) (fun _ d => d.up = true ∧ f ≤ 32 ∧ LogFits base en)
    (fun _ d e => (e.func f).logOn = en ∧ (en = true → (e.func f).logBase = base) ∧ (∀ k, k ≠ f → e.func k = d.func k) ∧ d.Says e [0#8]) := by
  refine ras_event (exec_logset f base en) (fun _ _ h => h.1) (fun _ d ⟨_, hf, hb⟩ => ⟨rfl, ?_⟩)
  dsimp only
  rw [logsetBody_taken f base en d hf hb]
  obtain ⟨hfunc, hother, hslots⟩ := Dev.setsFunc_of (f := f) (g := setLog base en) (d := d) (e := (d.updFunc f (setLog base en)).answer 0 []) rfl (fun _ _ => rfl)
  rw [hfunc]
  exact ⟨rfl, fun h => if_pos h, hother, rfl, hslots⟩

theorem logset_refused : Event (.logset f base en) (fun _ d => d.up = true ∧ (32 < f ∨ ¬LogFits base en))
    (fun _ d e => (∀ k, e.func k = d.func k) ∧ d.Says e [1#8]) := by
  refine ras_event (exec_logset f base en) (fun _ _ h => h.1) (fun _ d ⟨_, h⟩ => ⟨rfl, ?_⟩)
  dsimp only
  rw [logsetBody_refused f base en d h]
  exact ⟨fun _ => rfl, rfl, fun _ _ => rfl⟩

end

/-! ### Pools (R361) -/

/-- The pool exists and is valid, and the address is one of device memory. -/
def Dev.PoolNamed (d : Dev) (dep pool : Nat) (addr : W64) : Prop := dep < 9 ∧ pool < 16 ∧ (d.pool dep pool).v = true ∧ paNamed addr.toNat = true

/-- The indices that a pool has free, from the top down. -/
def Pool.list (p : Pool) : List Nat := p.pushed ++ (List.range (p.count - p.fresh)).map (fun i => p.fresh + i)

def Pool.image (p : Pool) : List Byte := leBytes 4 p.list.length ++ p.list.flatMap (leBytes 4)

/-- The lines of bytes from a physical address. -/
def bytesLines (a : Nat) (bs : List Byte) : List GLine := (cutLines (bs.length + 1) a bs).map (fun l => ⟨l.1, l.1, l.2.1, l.2.2, none⟩)

/-- Every byte stands in a line of its address. -/
theorem bytesLines_byte {a k : Nat} {bs : List Byte} {b : Byte} (h : bs[k]? = some b) : ∃ l, l ∈ bytesLines a bs ∧ l.pa = lineOf (a + k) ∧
    l.mask.getLsbD ((a + k) % 128) = true ∧ Line.byte l.data ((a + k) % 128) = b := by
  obtain ⟨hk, rfl⟩ := List.getElem?_eq_some_iff.mp h
  obtain ⟨t, ht, hline, hmask, hbyte⟩ := cutLines_byte (k := bs.length + 1) (va := a) (Nat.lt_succ_self _) hk
  exact ⟨_, List.mem_map_of_mem ht, hline, hmask, hbyte⟩

theorem bytesLines_plain (a : Nat) (bs : List Byte) : ∀ l, l ∈ bytesLines a bs → l.rec_ = none := by
  intro l hl
  obtain ⟨t, -, rfl⟩ := List.mem_map.mp hl
  rfl

def poolgetBody (dep pool : Nat) (addr : W64) (m : Memory) (x : Dev) : Dev :=
  if !x.up then x else
  if dep < 9 ∧ pool < 16 ∧ (x.pool dep pool).v = true ∧ paNamed addr.toNat = true then
    (x.addGroup m (bytesLines addr.toNat (x.pool dep pool).image) 32 0 none [.nothing]).answer 0 []
  else x.answer 1 []

theorem exec_poolget (dep pool : Nat) (addr : W64) (s : State) : exec (.poolget dep pool addr) s = onDev (poolgetBody dep pool addr) s := by
  unfold exec execPoolget
  rfl

theorem poolget_writes (dep pool : Nat) (addr : W64) (s : State) (hup : s.dev.up = true) (hn : s.dev.PoolNamed dep pool addr)
    (hfull : ∀ g, g ∈ s.dev.groups → g.lines ≠ []) : ∃ u, exec (.poolget dep pool addr) s = .next u ∧ u.mem = s.mem ∧ s.dev.Says u.dev [0#8] ∧
      (∀ a b, u.dev.pool a b = s.dev.pool a b) ∧ ∀ k b, (s.dev.pool dep pool).image[k]? = some b → ∃ g l, g ∈ u.dev.groups ∧ g.fn = 32 ∧ l ∈ g.lines ∧
        l.pa = lineOf (addr.toNat + k) ∧ l.mask.getLsbD ((addr.toNat + k) % 128) = true ∧ Line.byte l.data ((addr.toNat + k) % 128) = b := by
  obtain ⟨ls, hls⟩ : ∃ ls, ls = bytesLines addr.toNat (s.dev.pool dep pool).image := ⟨_, rfl⟩
  have hne : ls ≠ [] := by
    have hfirst : (s.dev.pool dep pool).image[0]? = some (BitVec.ofNat 8 (s.dev.pool dep pool).list.length) := rfl
    obtain ⟨l, hl, -⟩ := bytesLines_byte (a := addr.toNat) hfirst
    exact hls ▸ List.ne_nil_of_mem hl
  obtain ⟨hgo, g, hg, hfn, hlines⟩ := Dev.Regroups.addGroup (fn := 32) (hls ▸ bytesLines_plain _ _) hne s.mem 0 none [.nothing] hfull
  refine ⟨⟨s.mem, poolgetBody dep pool addr s.mem s.dev⟩, exec_poolget dep pool addr s, rfl, ?_⟩
  have hbody : poolgetBody dep pool addr s.mem s.dev = (s.dev.addGroup s.mem ls 32 0 none [.nothing]).answer 0 [] := by
    have hnamed : dep < 9 ∧ pool < 16 ∧ (s.dev.pool dep pool).v = true ∧ paNamed addr.toNat = true := hn
    unfold poolgetBody
    rw [hup, if_pos hnamed, hls]
    rfl
  dsimp only
  rw [hbody]
  refine ⟨⟨rfl, hgo.slots⟩, hgo.pool, fun k b hk => ?_⟩
  obtain ⟨l, hl, hpa, hmask, hbyte⟩ := bytesLines_byte (a := addr.toNat) hk
  exact ⟨g, l, hg, hfn, hlines ▸ hls ▸ hl, hpa, hmask, hbyte⟩

def givenPool (list : List Nat) (p : Pool) : Pool := { p with pushed := list, fresh := p.count }

/-- The indices of a list in memory. -/
def Memory.givenList (m : Memory) (addr : W64) : List Nat := (List.range (m.w32 addr.toNat).toNat).map (fun i => (m.w32 (addr.toNat + 4 + 4 * i)).toNat)

def poolsetBody (dep pool : Nat) (addr : W64) (m : Memory) (x : Dev) : List Host.Cell × Dev :=
  let p := x.pool dep pool
  let n := m.w32 addr.toNat
  if x.pendingIn addr.toNat 4 || x.pendingIn addr.toNat (4 * min n.toNat p.count + 4) then ([], x)
  else if dep < 9 ∧ pool < 16 ∧ p.v = true ∧ paNamed addr.toNat = true ∧ n.toNat ≤ p.count ∧
      (m.givenList addr).all (fun i => decide (i < p.count)) = true ∧ (m.givenList addr).dedup.length = (m.givenList addr).length then
    ([], (x.updPool dep pool (givenPool (m.givenList addr))).answer 0 [])
  else ([], x.answer 1 [])

theorem exec_poolset (dep pool : Nat) (addr : W64) (s : State) : exec (.poolset dep pool addr) s = ras (poolsetBody dep pool addr) s := by
  unfold exec execPoolset
  rfl

theorem poolset_taken (dep pool : Nat) (addr : W64) (s : State) (hup : s.dev.up = true) (hn : s.dev.PoolNamed dep pool addr)
    (hfirst : s.dev.pendingIn addr.toNat 4 = false)
    (hall : s.dev.pendingIn addr.toNat (4 * min (s.mem.givenList addr).length (s.dev.pool dep pool).count + 4) = false)
    (hlen : (s.mem.givenList addr).length ≤ (s.dev.pool dep pool).count) (hlt : ∀ x, x ∈ s.mem.givenList addr → x < (s.dev.pool dep pool).count)
    (hdup : (s.mem.givenList addr).Nodup) : ∃ u, exec (.poolset dep pool addr) s = .next u ∧ u.mem = s.mem ∧ s.dev.Says u.dev [0#8] ∧
      (u.dev.pool dep pool).pushed = s.mem.givenList addr ∧ (u.dev.pool dep pool).fresh = (u.dev.pool dep pool).count ∧
      (u.dev.pool dep pool).count = (s.dev.pool dep pool).count := by
  have hcount : (s.mem.givenList addr).length = (s.mem.w32 addr.toNat).toNat := by rw [Memory.givenList, List.length_map, List.length_range]
  rw [hcount] at hall hlen
  obtain ⟨hdep, hpool, hv, hpa⟩ := hn
  refine ⟨_, ras_next (exec_poolset dep pool addr) hup, ?_⟩
  have hbody : poolsetBody dep pool addr s.mem s.dev = ([], (s.dev.updPool dep pool (givenPool (s.mem.givenList addr))).answer 0 []) := by
    unfold poolsetBody
    dsimp only
    rw [hfirst, hall, if_neg (by decide), if_pos ⟨hdep, hpool, hv, hpa, hlen, List.all_eq_true.mpr (fun x hx => decide_eq_true (hlt x hx)),
      by rw [hdup.dedup]⟩]
  dsimp only
  rw [hbody]
  have hnew : ((s.dev.updPool dep pool (givenPool (s.mem.givenList addr))).answer 0 []).pool dep pool = givenPool (s.mem.givenList addr) (s.dev.pool dep pool) :=
    AMap.get_put_self _ _ _ _
  rw [hnew]
  exact ⟨rfl, ⟨rfl, fun _ _ => rfl⟩, rfl, rfl, rfl⟩

/-- A request about a pool that is none, or an address that is none. -/
theorem pool_refused (dep pool : Nat) (addr : W64) (s : State) (i : Instr) (hi : i ∈ [Instr.poolget dep pool addr, .poolset dep pool addr])
    (hup : s.dev.up = true) (hn : ¬s.dev.PoolNamed dep pool addr) (hp : ∀ k, s.dev.pendingIn addr.toNat k = false) :
    ∃ u, exec i s = .next u ∧ u.mem = s.mem ∧ s.dev.Says u.dev [1#8] ∧ ∀ a b, u.dev.pool a b = s.dev.pool a b := by
  simp only [List.mem_cons, List.not_mem_nil, or_false] at hi
  rcases hi with rfl | rfl
  · have hbody : poolgetBody dep pool addr s.mem s.dev = s.dev.answer 1 [] := by
      have hnamed : ¬(dep < 9 ∧ pool < 16 ∧ (s.dev.pool dep pool).v = true ∧ paNamed addr.toNat = true) := hn
      unfold poolgetBody
      rw [hup, if_neg hnamed]
      rfl
    refine ⟨⟨s.mem, _⟩, exec_poolget dep pool addr s, rfl, ?_⟩
    dsimp only
    rw [hbody]
    exact ⟨⟨rfl, fun _ _ => rfl⟩, fun _ _ => rfl⟩
  · have hbody : poolsetBody dep pool addr s.mem s.dev = ([], s.dev.answer 1 []) := by
      unfold poolsetBody
      dsimp only
      rw [hp, hp, if_neg (by decide), if_neg (fun ⟨hdep, hpool, hv, hpa, _⟩ => hn ⟨hdep, hpool, hv, hpa⟩)]
    refine ⟨_, ras_next (exec_poolset dep pool addr) hup, ?_⟩
    dsimp only
    rw [hbody]
    exact ⟨rfl, ⟨rfl, fun _ _ => rfl⟩, fun _ _ => rfl⟩

/-! ### Context areas that move (R371) -/

theorem Dev.savedOf_rewriteArea (d : Dev) (t : Nat) (area : W64) (portable : Bool) :
    ((d.rewriteArea t area portable).2.savedOf t).map Saved.h = (d.savedOf t).map Saved.h := by
  unfold Dev.savedOf Dev.rewriteArea
  dsimp only
  induction d.saved with
  | nil => rfl
  | cons x xs ih =>
    have hkeep : ∀ y : Saved, (y.terr == t && !y.lks.isEmpty) = (x.terr == t && !x.lks.isEmpty) → y.h = x.h →
        ((y :: xs.map (fun x => if x.terr == t && !x.lks.isEmpty then { x with portable := portable } else x)).filter
          (fun x => x.terr == t && !x.lks.isEmpty)).map Saved.h = ((x :: xs).filter (fun x => x.terr == t && !x.lks.isEmpty)).map Saved.h := by
      intro y hy hh
      rw [List.filter_cons, List.filter_cons, hy]
      split
      · rw [List.map_cons, List.map_cons, hh, ih]
      · exact ih
    rw [List.map_cons]
    split
    · exact hkeep _ rfl rfl
    · exact hkeep _ rfl rfl

theorem Dev.areaBytes_rewriteArea (d : Dev) (m : Memory) (t : Nat) (area : W64) (portable : Bool) (st : Nat) (bs : List Byte) :
    ((d.rewriteArea t area portable).2.answer st bs).areaBytes m t area = d.areaBytes m t area := by
  unfold Dev.areaBytes
  have hh : (((d.rewriteArea t area portable).2.answer st bs).savedOf t).map Saved.h = (d.savedOf t).map Saved.h := d.savedOf_rewriteArea t area portable
  rw [hh]
  rfl

/-- The saved parts of the terrace stand in the form asked for. -/
theorem Dev.portable_rewriteArea (d : Dev) (t : Nat) (area : W64) (portable : Bool) (x : Saved) (hx : x ∈ (d.rewriteArea t area portable).2.saved)
    (ht : x.terr = t) (hl : x.lks ≠ []) : x.portable = portable := by
  obtain ⟨y, hy, rfl⟩ := List.mem_map.mp hx
  split
  · rfl
  · next hno =>
    rw [if_neg hno] at ht hl
    exact absurd (by simp [ht, hl]) hno

def ctxoutBody (t : Nat) (area : W64) (m : Memory) (d : Dev) : List Host.Cell × Dev :=
  if d.areaHolds m t area false then
    let r := d.rewriteArea t area true
    (r.1, r.2.answer 0 ((exportKey d.fwVersion).sign (d.areaBytes (m.writeAll r.1) t area)))
  else ([], d.answer 1 [])

theorem exec_ctxout (t : Nat) (area : W64) (key : Nat) (s : State) : exec (.ctxout t area key) s = ras (ctxoutBody t area) s := by
  unfold exec execCtxout
  rfl

theorem ctxout_taken (t key : Nat) (area : W64) (s : State) (hup : s.dev.up = true) (hh : s.dev.areaHolds s.mem t area false = true) :
    ∃ u, exec (.ctxout t area key) s = .next u ∧ u.dev.doe = 0#8 :: (exportKey s.dev.fwVersion).sign (u.dev.areaBytes u.mem t area) ∧
      s.dev.sameSlots u.dev ∧ ∀ x, x ∈ u.dev.saved → x.terr = t → x.lks ≠ [] → x.portable = true := by
  refine ⟨_, ras_next (exec_ctxout t area key) hup, ?_⟩
  unfold ctxoutBody
  rw [if_pos hh]
  dsimp only
  rw [Dev.areaBytes_rewriteArea]
  exact ⟨rfl, fun _ _ => rfl, s.dev.portable_rewriteArea t area true⟩

theorem ctxout_refused (t key : Nat) (area : W64) : Event (.ctxout t area key) (fun m d => d.up = true ∧ d.areaHolds m t area false = false)
    (fun _ d e => d.Says e [1#8] ∧ e.saved = d.saved) := by
  refine ras_event (exec_ctxout t area key) (fun _ _ h => h.1) (fun m d ⟨_, hh⟩ => ?_)
  unfold ctxoutBody
  rw [if_neg (by simp [hh])]
  exact ⟨rfl, ⟨rfl, fun _ _ => rfl⟩, rfl⟩

/-- The area's signature holds under a key. -/
def Dev.areaSigned (d : Dev) (m : Memory) (t : Nat) (area : W64) (k : BitVec 4096) : Bool :=
  rsaVerify k ((exportKey d.fwVersion).sign (d.areaBytes m t area)) (sha512 (d.areaBytes m t area))

def ctxinBody (t : Nat) (area : W64) (key : Nat) (m : Memory) (d : Dev) : List Host.Cell × Dev :=
  if d.areaHolds m t area true && (d.keys.find? key).elim false (fun k => decide (key < 8) && d.areaSigned m t area k) then
    let r := d.rewriteArea t area false
    (r.1, r.2.answer 0 [])
  else ([], d.answer 1 [])

theorem exec_ctxin (t : Nat) (area : W64) (key : Nat) (s : State) : exec (.ctxin t area key) s = ras (ctxinBody t area key) s := by
  unfold exec execCtxin ras onMem ctxinBody
  dsimp only
  cases s.dev.keys.find? key <;> rfl

theorem ctxin_checked (t key : Nat) (area : W64) (s : State) (k : BitVec 4096) (hup : s.dev.up = true) (hh : s.dev.areaHolds s.mem t area true = true)
    (hk : s.dev.keys.find? key = some k) (hkey : key < 8) : ∃ u, exec (.ctxin t area key) s = .next u ∧ s.dev.sameSlots u.dev ∧
      if s.dev.areaSigned s.mem t area k = true then u.dev.doe = [0#8] ∧ ∀ x, x ∈ u.dev.saved → x.terr = t → x.lks ≠ [] → x.portable = false
      else u.dev.doe = [1#8] ∧ u.mem = s.mem ∧ u.dev.saved = s.dev.saved := by
  refine ⟨_, ras_next (exec_ctxin t area key) hup, ?_⟩
  unfold ctxinBody
  rw [hh, hk, Option.elim_some, decide_eq_true hkey, Bool.true_and, Bool.true_and]
  split
  · exact ⟨fun _ _ => rfl, rfl, s.dev.portable_rewriteArea t area false⟩
  · exact ⟨fun _ _ => rfl, rfl, rfl, rfl⟩

theorem ctxin_refused (t key : Nat) (area : W64) :
    Event (.ctxin t area key) (fun m d => d.up = true ∧ (d.areaHolds m t area true = false ∨ d.keys.find? key = none ∨ 8 ≤ key))
      (fun _ d e => d.Says e [1#8] ∧ e.saved = d.saved) := by
  refine ras_event (exec_ctxin t area key) (fun _ _ h => h.1) (fun m d ⟨_, hbad⟩ => ?_)
  unfold ctxinBody
  rw [if_neg]
  · exact ⟨rfl, ⟨rfl, fun _ _ => rfl⟩, rfl⟩
  · rcases hbad with h | h | h
    · simp [h]
    · simp [h]
    · cases d.keys.find? key <;> simp [show ¬key < 8 by omega]

theorem ras_before_up (dist y skip f dep pool t key : Nat) (base addr area : W64) (en : Bool) (i : Instr)
    (hi : i ∈ [Instr.errcnt dist, .errlog, .remapget dist, .remapset dist y skip, .logset f base en, .poolget dep pool addr, .poolset dep pool addr,
      .ctxout t area key, .ctxin t area key]) : Event i (fun _ d => d.up = false) (fun _ d e => e = d) := by
  simp only [List.mem_cons, List.not_mem_nil, or_false] at hi
  rcases hi with rfl | rfl | rfl | rfl | rfl | rfl | rfl | rfl | rfl
  · exact ras_down (exec_errcnt dist)
  · exact ras_down exec_errlog
  · exact ras_down (exec_remapget dist)
  · exact ras_down (exec_remapset dist y skip)
  · exact ras_down (exec_logset f base en)
  · refine onDev_event (exec_poolget dep pool addr) (fun m d hd => ?_)
    unfold poolgetBody
    rw [hd]
    rfl
  · exact ras_down (exec_poolset dep pool addr)
  · exact ras_down (exec_ctxout t area key)
  · exact ras_down (exec_ctxin t area key)

/-- Settles O51, request by request. -/
theorem rasRequests : Obligations.RasRequests :=
  ⟨⟨fun h _ => corePlace_district h, fun _ _ ha hb h => corePlace_inj ha hb h, fun h hh => ⟨corePlace h, rfl, (corePlace_beside hh).mem⟩,
    fun d dist y a b hs ha hb => siteColumn_spec d dist y a b hs ha hb⟩,
  fun dist y skip f dep pool t key base addr area en s r rest => ⟨errcnt_counts dist, errcnt_refused dist, errlog_oldest r rest, errlog_empty,
    remapget_answer dist, remapset_taken dist y skip, remapset_refused dist y skip, logset_taken f base en, logset_refused f base en,
    poolget_writes dep pool addr s, fun hup hn hfirst hall hlen hlt hdup => poolset_taken dep pool addr s hup hn hfirst hall hlen hlt hdup,
    pool_refused dep pool addr s, ctxout_taken t key area s, ctxout_refused t key area, ctxin_checked t key area s, ctxin_refused t key area,
    ras_before_up dist y skip f dep pool t key base addr area en⟩⟩

end Sys2Proof.Machine
end

section
/-! PROOFS. A launch's life (O43). -/

namespace Sys2Proof.Machine

/-! ### Steps over a list, one of which does what is wanted -/

/-- Steps made one after another, of which one brings about what P says, and the others keep it. -/
theorem foldl_reaches {α β : Type} {step : β → α → β} {L P : β → Prop} {xs : List α} {a : α} (ha : a ∈ xs) (hL : ∀ d x, x ∈ xs → L d → L (step d x))
    (hP : ∀ d, L d → P (step d a)) (hkeep : ∀ d x, x ∈ xs → x ≠ a → L d → P d → P (step d x)) {d : β} (hd : L d) : P (xs.foldl step d) := by
  suffices h : ∀ ys : List α, (∀ y, y ∈ ys → y ∈ xs) → ∀ d, L d → (a ∈ ys ∨ P d) → P (ys.foldl step d) from h xs (fun _ h => h) d hd (.inl ha)
  intro ys
  induction ys with
  | nil => exact fun _ d _ h => h.resolve_left List.not_mem_nil
  | cons y ys ih =>
    intro hsub d hd h
    refine ih (fun z hz => hsub z (List.mem_cons_of_mem _ hz)) _ (hL d y (hsub y List.mem_cons_self) hd) ?_
    by_cases hy : y = a
    · exact .inr (hy ▸ hP d hd)
    · exact h.imp (fun h => (List.mem_cons.mp h).resolve_left (Ne.symm hy)) (hkeep d y (hsub y List.mem_cons_self) hy hd)

/-! ### Requests (R277, R280) -/

/-- A field of a request as its bits. -/
theorem toNat_reqField (r : V512) (o n : Nat) : (r.extractLsb' (8 * o) (8 * n)).toNat = reqField r o n := by
  rw [BitVec.extractLsb'_toNat, Nat.shiftRight_eq_div_pow, reqField]

theorem ofNat_reqField (r : V512) (o n : Nat) : BitVec.ofNat (8 * n) (reqField r o n) = r.extractLsb' (8 * o) (8 * n) := by
  rw [← toNat_reqField, BitVec.ofNat_toNat, BitVec.setWidth_eq]

/-- The submitter may ask for launches of the terrace (R349). -/
def mayAsk (sub : Submitter) (d : Dev) (t : Nat) : Bool :=
  match sub with
  | .host f => (d.terrace t).vf == f
  | .slot _ _ => true

theorem mayAsk_of {sub : Submitter} {d : Dev} {t : Nat} (h : ∀ f, sub = .host f → (d.terrace t).vf = f) : mayAsk sub d t = true := by
  cases sub with
  | host f => exact beq_iff_eq.mpr (h f rfl)
  | slot _ _ => rfl

def launchRequest (t : Nat) (req : V512) (full : Bool) (sub : Submitter) (d : Dev) : Dev :=
  if d.up = false ∨ mayAsk sub d t = false then d else
  let l := launchOf d t req sub
  let code := d.requestCode t req full l
  let d := { d with count := d.count + 1 }
  if code ≠ 0 then d.sendRecord l code false else
  let pred := (d.launches.ents.find? (fun e => e.2.terr == t && e.2.st == .retained && e.2.succ == some l.lnum)).map (·.1)
  { d with launches := d.launches.put (1024 * t + l.lnum) { l with predOf := pred, succDone := pred.isSome } }

theorem exec_launchRequest (t : Nat) (req : V512) (full : Bool) (sub : Submitter) (s : State) :
    exec (.launchRequest t req full sub) s = onDev (fun _ => launchRequest t req full sub) s := by
  unfold exec execLaunchRequest
  cases sub <;> rfl

/-- A submitter's request, and the code that it is refused with, or 0. -/
def Asks (t : Nat) (r : V512) (sub : Submitter) (d : Dev) : Prop := d.up = true ∧ ∀ f, sub = .host f → (d.terrace t).vf = f

section
variable (t : Nat) (r : V512) (full : Bool) (sub : Submitter)

theorem launchRequest_good : Event (.launchRequest t r full sub)
    (fun _ d => Asks t r sub d ∧ d.requestCode t r full (launchOf d t r sub) = 0)
    (fun _ d e => ∃ l, e.launch? (1024 * t + (r.extractLsb' 160 16).toNat) = some l ∧ l.st = .pending ∧ l.terr = t ∧ l.image = r.extractLsb' 0 64 ∧
      l.data = r.extractLsb' 64 64 ∧ l.first = (d.terrace t).base + (r.extractLsb' 128 16).toNat ∧ l.prio = (r.extractLsb' 152 8).toNat ∧
      l.rankBase = (r.extractLsb' 192 16).toNat ∧ l.exportA = r.extractLsb' 256 64 ∧ l.sub = sub) := by
  refine onDev_event (exec_launchRequest t r full sub) (fun m d ⟨⟨hup, hmine⟩, hcode⟩ => ?_)
  unfold launchRequest
  rw [if_neg (by simp [hup, mayAsk_of hmine])]
  dsimp only
  rw [if_neg (fun h => h hcode), toNat_reqField r 20 2]
  exact ⟨_, AMap.find_put_self _ _ _, rfl, rfl, ofNat_reqField r 0 8, ofNat_reqField r 8 8, congrArg _ (toNat_reqField r 16 2).symm,
    (toNat_reqField r 19 1).symm, (toNat_reqField r 24 2).symm, ofNat_reqField r 32 8, rfl⟩

theorem requestCode_le (d : Dev) (l : Launch) : d.requestCode t r full l ≤ 2 := by
  unfold Dev.requestCode
  split
  · decide
  · split <;> decide

/-- The record's version and status. -/
theorem launchRecord_status (l : Launch) (status : Nat) (flush : Bool) : (launchRecord l status flush).extractLsb' 32 16 = BitVec.ofNat 16 status := by
  unfold launchRecord
  simp (disch := omega) only [BitVec.extractLsb'_append_eq_of_add_le, BitVec.extractLsb'_append_eq_of_le, Nat.sub_self, BitVec.extractLsb'_eq_self]

theorem launchRecord_lnum (l : Launch) (status : Nat) (flush : Bool) : (launchRecord l status flush).extractLsb' 48 16 = BitVec.ofNat 16 l.lnum := by
  unfold launchRecord
  simp (disch := omega) only [BitVec.extractLsb'_append_eq_of_add_le, BitVec.extractLsb'_append_eq_of_le, Nat.reduceSub, Nat.sub_self,
    BitVec.extractLsb'_eq_self]

theorem launchRecord_done (l : Launch) (flush : Bool) : (launchRecord l 0 flush).extractLsb' 0 48 = 2#48 := by
  have hlow : (launchRecord l 0 flush).extractLsb' 0 32 = 2#32 := by
    unfold launchRecord
    simp (disch := omega) only [BitVec.extractLsb'_append_eq_of_add_le, BitVec.extractLsb'_eq_self]
  have hsplit : (launchRecord l 0 flush).extractLsb' 0 48 = (launchRecord l 0 flush).extractLsb' 32 16 ++ (launchRecord l 0 flush).extractLsb' 0 32 :=
    (BitVec.extractLsb'_append_extractLsb'_eq_extractLsb' (x := launchRecord l 0 flush) (start₁ := 0) (len₁ := 32) (start₂ := 32) (len₂ := 16) rfl).symm
  rw [hsplit, hlow, launchRecord_status]
  rfl

theorem launchRequest_bad : Event (.launchRequest t r full sub)
    (fun _ d => Asks t r sub d ∧ d.requestCode t r full (launchOf d t r sub) ≠ 0)
    (fun _ d e => e.launches = d.launches ∧ ∃ x, e.coming d.clock (.messageArrival x) ∧
      (x.data.extractLsb' 32 16).toNat = d.requestCode t r full (launchOf d t r sub)) := by
  refine onDev_event (exec_launchRequest t r full sub) (fun m d ⟨⟨hup, hmine⟩, hcode⟩ => ?_)
  unfold launchRequest
  rw [if_neg (by simp [hup, mayAsk_of hmine])]
  dsimp only
  rw [if_pos hcode]
  refine ⟨rfl, _, Dev.coming_send { d with count := d.count + 1 } 0 _, ?_⟩
  rw [launchRecord_status, BitVec.toNat_ofNat, Nat.mod_eq_of_lt]
  exact lt_of_le_of_lt (requestCode_le t r full d _) (by decide)

end

/-! ### Placement (R281, R282) -/

/-- What a placed launch's core holds of it. -/
def setMap (lk : Nat) (l : Launch) (c : Core) : Core := { c with
  map := l.maps.zipIdx.foldl (fun m w => m.put (16 * lk + w.2) w.1) c.map
  tlk := (tableNums l.tmask).foldl (fun m n => m.put n lk) c.tlk }

theorem setMap_map (lk : Nat) (l : Launch) (c : Core) {i : Nat} {w : W32} (hw : l.maps[i]? = some w) : (setMap lk l c).map.find? (16 * lk + i) = some w := by
  refine foldl_reaches (a := (w, i)) (L := fun _ => True) (P := fun m : AMap W32 => m.find? (16 * lk + i) = some w) ?_ (fun _ _ _ _ => trivial)
    (fun m _ => AMap.find_put_self _ _ _) (fun m x hx hne _ hm => ?_) trivial
  · exact List.mem_zipIdx_iff_getElem?.mpr hw
  · have hi : x.2 ≠ i := by
      intro hi
      have hx' := List.mem_zipIdx_iff_getElem?.mp hx
      rw [hi, hw] at hx'
      exact hne (Prod.ext (Option.some.inj hx').symm hi)
    exact (AMap.find_put_ne _ _ _ _ (by omega)).trans hm

theorem Dev.placeOn_eq (d : Dev) (lk : Nat) (l : Launch) (rs : List (Nat × Resv)) : d.placeOn lk l rs =
    rs.foldl (fun d r => d.updCore r.1 (setMap lk l)) (d.updLaunch lk (fun l => { l with st := .placed, resv := ⟨rs⟩ })) := rfl

theorem Dev.launch?_foldl_updCore {α : Type} (key : α → Nat) (f : α → Core → Core) (xs : List α) (d : Dev) (lk : Nat) :
    (xs.foldl (fun d x => d.updCore (key x) (f x)) d).launch? lk = d.launch? lk :=
  List.foldlRecOn (motive := fun e : Dev => e.launch? lk = d.launch? lk) _ _ rfl (fun _ he _ _ => he)

/-- A table whose entries of one key all hold the same value reads it there. -/
theorem AMap.get_of_all {α : Type} {x v : α} {m : AMap α} {k : Nat} (hin : (k, v) ∈ m.ents) (hall : ∀ w, (k, w) ∈ m.ents → w = v) : m.get x k = v := by
  unfold AMap.get
  cases hf : m.find? k with
  | none =>
    rw [AMap.find?_eq_map, Option.map_eq_none_iff, List.find?_eq_none] at hf
    exact absurd (beq_self_eq_true k) (hf _ hin)
  | some w => exact hall w (AMap.mem_of_find? hf)

/-- The reservations of a launch that fits everywhere. -/
def Dev.fits (d : Dev) (lk : Nat) (l : Launch) : List (Nat × Resv) := (l.cores.map (fun h => (h, d.fitOn lk l h))).filterMap (fun r => r.2.map (fun x => (r.1, x)))

theorem Dev.mem_fits {d : Dev} {lk : Nat} {l : Launch} {h : Nat} {x : Resv} : (h, x) ∈ d.fits lk l ↔ h ∈ l.cores ∧ d.fitOn lk l h = some x := by
  unfold Dev.fits
  simp only [List.mem_filterMap, List.mem_map, Option.map_eq_some_iff]
  constructor
  · rintro ⟨_, ⟨k, hk, rfl⟩, y, hy, heq⟩
    obtain ⟨rfl, rfl⟩ := Prod.mk.inj heq
    exact ⟨hk, hy⟩
  · rintro ⟨hk, hx⟩
    exact ⟨_, ⟨h, hk, rfl⟩, x, hx, rfl⟩

/-- The one pending launch, read and with room on every core, is placed. -/
theorem placeOne_placed {d : Dev} {lk : Nat} {l : Launch} (hents : d.launches.ents = [(lk, l)]) (hst : l.st = .pending) (hread : l.read = true)
    (hterr : (d.terrace l.terr).state = 1) (hbase : (d.terrace l.terr).base ≤ l.first)
    (hend : l.first + l.len ≤ (d.terrace l.terr).base + (d.terrace l.terr).len) (hfit : ∀ h, h ∈ l.cores → (d.fitOn lk l h).isSome = true) :
    placeOne (d, []) (lk, l) = (d.placeOn lk l (d.fits lk l), []) := by
  have hawait : d.awaited l = false := by
    unfold Dev.awaited
    rw [hents]
    simp [hst]
  have hall : (l.cores.map (fun h => (h, d.fitOn lk l h))).all (fun r => r.2.isSome) = true := by
    rw [List.all_map]
    exact List.all_eq_true.mpr hfit
  unfold placeOne
  dsimp only
  rw [hterr, hawait, hread, decide_eq_true hbase, decide_eq_true hend, hall]
  simp only [List.any_nil, Bool.and_false, bne_self_eq_false, Bool.or_self, Bool.false_eq_true, if_false, Bool.and_self, if_true]
  rfl

theorem placement_places (lk : Nat) (l : Launch) : Event .placement
    (fun _ d => d.launches.ents = [(lk, l)] ∧ l.st = .pending ∧ l.read = true ∧ (d.terrace l.terr).state = 1 ∧
      (d.terrace l.terr).base ≤ l.first ∧ l.first + l.len ≤ (d.terrace l.terr).base + (d.terrace l.terr).len ∧
      ∀ h, h ∈ l.cores → (d.fitOn lk l h).isSome = true)
    (fun _ d e => ∃ l', e.launch? lk = some l' ∧ l'.st = .placed ∧ ∀ h, h ∈ l.cores → some (l'.resvOn h) = d.fitOn lk l h ∧
      ∀ i w, l.maps[i]? = some w → (e.core h).map.find? (16 * lk + i) = some w) := by
  refine onDev_event (f := fun m d =>
    ((((d.launches.ents.filter (fun e => e.2.st == .pending)).foldl (fun d e => d.readImage m e.1) d).pendingOrder.foldl placeOne
      ((d.launches.ents.filter (fun e => e.2.st == .pending)).foldl (fun d e => d.readImage m e.1) d, [])).1))
    (fun _ => by unfold exec execPlacement; rfl) (fun m d ⟨hents, hst, hread, hterr, hbase, hend, hfit⟩ => ?_)
  have hl : d.launch? lk = some l := by
    unfold Dev.launch?
    rw [AMap.find?_eq_map, hents]
    simp
  have hpending : d.launches.ents.filter (fun e => e.2.st == .pending) = [(lk, l)] := by
    rw [hents]
    simp [hst]
  have himage : d.readImage m lk = d := by
    unfold Dev.readImage
    rw [hl]
    dsimp only
    rw [hread]
    rfl
  have horder : d.pendingOrder = [(lk, l)] := by
    unfold Dev.pendingOrder
    rw [hpending]
    rfl
  rw [hpending, List.foldl_cons, List.foldl_nil, himage, horder, List.foldl_cons, List.foldl_nil,
    placeOne_placed hents hst hread hterr hbase hend hfit]
  dsimp only
  rw [Dev.placeOn_eq, Dev.launch?_foldl_updCore]
  refine ⟨_, Dev.launch?_updLaunch hl _, rfl, fun h hh => ?_⟩
  obtain ⟨x, hx⟩ := Option.isSome_iff_exists.mp (hfit h hh)
  have hin := Dev.mem_fits.mpr ⟨hh, hx⟩
  refine ⟨?_, fun i w hw => ?_⟩
  · rw [hx]
    refine congrArg some (AMap.get_of_all hin (fun w hw => ?_))
    exact Option.some.inj ((Dev.mem_fits.mp hw).2.symm.trans hx)
  · refine foldl_reaches (a := (h, x)) (L := fun _ => True) (P := fun e : Dev => (e.core h).map.find? (16 * lk + i) = some w) hin
      (fun _ _ _ _ => trivial) (fun e _ => ?_) (fun e y hy hne _ he => ?_) trivial
    · rw [Dev.core_updCore_self]
      exact setMap_map lk l _ hw
    · have hkey : y.1 ≠ h := by
        intro hkey
        refine hne (Prod.ext hkey ?_)
        exact Option.some.inj (((Dev.mem_fits (h := y.1) (x := y.2)).mp hy).2.symm.trans (hkey ▸ hx))
      rw [Dev.core_updCore_ne _ _ _ _ hkey.symm]
      exact he

/-! ### Start (R284, R285) -/

/-- One core's launch thread starts: its rank, its slot, an acquire. -/
def startOn (lk : Nat) (l : Launch) (d : Dev) (h : Nat) : Dev :=
  (l.resvOn h).slots.head?.elim d (fun n =>
    ((d.setRank l.terr (l.rankBase + (h - l.first)) (rankFor h n)).newThread lk h 0 n .launch (l.code + BitVec.ofNat 64 (l.entries.headD 0)) (h - l.first)
      (Slot.spawned l.data)).updCore h Core.acquire)

theorem Dev.startThreads_eq (d : Dev) (lk : Nat) (l : Launch) : d.startThreads lk l =
    (l.cores.foldl (startOn lk l) d).updLaunch lk (fun l => { l with st := .resident, serial := l.len, grps := [], predOf := none }) := by
  unfold Dev.startThreads
  refine congrArg (fun e => Dev.updLaunch e lk _) (List.foldl_ext _ _ _ (fun e h _ => ?_))
  unfold startOn
  split
  · next n _ hs =>
    rw [hs]
    rfl
  · next hs =>
    rw [hs]
    rfl

section
variable {lk : Nat} {l : Launch}

theorem startOn_launch? (d : Dev) (h k : Nat) : (startOn lk l d h).launch? k = d.launch? k := by
  unfold startOn
  cases (l.resvOn h).slots.head? with
  | none => rfl
  | some n =>
    dsimp only [Option.elim]
    unfold Dev.newThread
    split
    · unfold Dev.setRank
      rfl
    · unfold Dev.setRank
      rfl

/-- A start at one core changes no other. -/
theorem startOn_core_ne (d : Dev) {h j : Nat} (hj : j ≠ h) : (startOn lk l d h).core j = d.core j := by
  unfold startOn
  cases (l.resvOn h).slots.head? with
  | none => rfl
  | some n =>
    dsimp only [Option.elim]
    rw [Dev.core_updCore_ne _ _ _ _ hj]
    unfold Dev.newThread
    split
    · rfl
    · rw [Dev.core_updCore_ne _ _ _ _ hj]
      exact Dev.core_updCore_ne _ _ _ _ hj

/-- No word or tag of a local store changes at a start. -/
theorem startOn_store (d : Dev) (h j : Nat) : ((startOn lk l d h).core j).words = (d.core j).words ∧ ((startOn lk l d h).core j).tags = (d.core j).tags := by
  by_cases hj : j = h
  · subst hj
    unfold startOn
    cases (l.resvOn j).slots.head? with
    | none => exact ⟨rfl, rfl⟩
    | some n =>
      dsimp only [Option.elim]
      rw [Dev.core_updCore_self]
      unfold Dev.newThread
      split
      · exact ⟨rfl, rfl⟩
      · rw [Dev.core_updCore_self]
        have hstore : ∀ s, (((d.setRank l.terr (l.rankBase + (j - l.first)) (rankFor j n)).setSlot j n s).core j).words = (d.core j).words ∧
            (((d.setRank l.terr (l.rankBase + (j - l.first)) (rankFor j n)).setSlot j n s).core j).tags = (d.core j).tags := fun s =>
          have hbare := Dev.core_updSlot_bare (d.setRank l.terr (l.rankBase + (j - l.first)) (rankFor j n)) j n j (fun _ => s)
          ⟨(congrArg Core.words hbare :), (congrArg Core.tags hbare :)⟩
        exact hstore _
  · rw [startOn_core_ne d hj]
    exact ⟨rfl, rfl⟩

theorem startOn_rank_ne (d : Dev) (h t r : Nat) (hne : t * 4096 + r ≠ l.terr * 4096 + (l.rankBase + (h - l.first))) :
    (startOn lk l d h).rankEnt t r = d.rankEnt t r := by
  unfold startOn
  cases (l.resvOn h).slots.head? with
  | none => rfl
  | some n =>
    dsimp only [Option.elim]
    have hrank : ((d.setRank l.terr (l.rankBase + (h - l.first)) (rankFor h n)).rankEnt t r) = d.rankEnt t r := by
      unfold Dev.setRank Dev.rankEnt
      split
      · exact (AMap.get_erase _ _ _ _).trans (if_neg hne.symm)
      · exact AMap.get_put_ne _ _ _ _ _ hne
    unfold Dev.newThread
    split
    · exact hrank
    · exact hrank

/-- The thread that a launch starts on a core: in its lowest slot, with its rank, behind an acquire. -/
structure Dev.StartedOn (d : Dev) (lk : Nat) (l : Launch) (h n : Nat) : Prop where
  slot : (d.slot h n).Fresh { l with serial := h - l.first } lk (BitVec.ofNat 64 (l.entries.headD 0)) l.data
  rank : d.rankEnt l.terr (l.rankBase + (h - l.first)) = rankFor h n
  l1 : ∀ q x, (d.core h).l1.find? q = some x → x.sealed_ = true

theorem rankFor_ne_zero (h n : Nat) : rankFor h n ≠ 0#32 := by
  intro h0
  have hv := congrArg (BitVec.extractLsb' 31 1) h0
  unfold rankFor at hv
  simp (disch := omega) only [BitVec.extractLsb'_append_eq_of_le, Nat.reduceSub, BitVec.extractLsb'_eq_self] at hv
  exact absurd hv (by decide)

theorem startOn_starts {d : Dev} (hl : d.launch? lk = some l) {h n : Nat} {rest : List Nat} (hs : (l.resvOn h).slots = n :: rest) :
    (startOn lk l d h).StartedOn lk l h n := by
  obtain ⟨e, he⟩ : ∃ e, e = d.setRank l.terr (l.rankBase + (h - l.first)) (rankFor h n) := ⟨_, rfl⟩
  have hle : e.launch? lk = some l := he ▸ hl
  have hrank : e.rankEnt l.terr (l.rankBase + (h - l.first)) = rankFor h n := by
    rw [he]
    unfold Dev.setRank Dev.rankEnt
    rw [if_neg (by simpa using rankFor_ne_zero h n)]
    exact AMap.get_put_self _ _ _ _
  have hstart : startOn lk l d h = (e.newThread lk h 0 n .launch (l.code + BitVec.ofNat 64 (l.entries.headD 0)) (h - l.first)
      (Slot.spawned l.data)).updCore h Core.acquire := by
    unfold startOn
    rw [hs, he]
    rfl
  rw [hstart]
  refine ⟨?_, ?_, fun q x hx => ?_⟩
  · rw [Dev.slot_updCore_of (f := Core.acquire) (fun _ _ => rfl), (Dev.newThread_spec hle h 0 n (h - l.first) .launch _ (Slot.spawned l.data)).1]
    exact Slot.fresh_spawned { l with serial := h - l.first } lk _ _ _ _ _
  · unfold Dev.newThread
    rw [hle]
    exact hrank
  · rw [Dev.core_updCore_self] at hx
    exact (List.mem_filter.mp (AMap.mem_of_find? hx)).2

/-- The threads of a launch have started. -/
structure Dev.Started (e : Dev) (lk : Nat) (l : Launch) : Prop where
  launch : ∃ l', e.launch? lk = some l' ∧ l'.st = .resident ∧ l'.serial = l.len
  threads : ∀ h n rest, h ∈ l.cores → (l.resvOn h).slots = n :: rest → e.StartedOn lk l h n

theorem Dev.StartedOn.congr {d e : Dev} {h n : Nat} (hd : d.StartedOn lk l h n) (hc : e.core h = d.core h)
    (hr : e.rankEnt l.terr (l.rankBase + (h - l.first)) = d.rankEnt l.terr (l.rankBase + (h - l.first))) : e.StartedOn lk l h n := by
  refine ⟨?_, hr.trans hd.rank, hc ▸ hd.l1⟩
  have hs : e.slot h n = d.slot h n := congrArg (fun c => c.slot n) hc
  rw [hs]
  exact hd.slot

theorem mem_cores {l : Launch} {h : Nat} : h ∈ l.cores ↔ l.first ≤ h ∧ h < l.first + l.len := by
  unfold Launch.cores
  simp only [List.mem_map, List.mem_range]
  exact ⟨fun ⟨i, hi, he⟩ => by omega, fun ⟨h1, h2⟩ => ⟨h - l.first, by omega, by omega⟩⟩

theorem Dev.startThreads_starts {d : Dev} (hl : d.launch? lk = some l) : (d.startThreads lk l).Started lk l := by
  rw [Dev.startThreads_eq]
  have hl' : (l.cores.foldl (startOn lk l) d).launch? lk = some l :=
    List.foldlRecOn (motive := fun e : Dev => e.launch? lk = some l) _ _ hl (fun e he h _ => (startOn_launch? e h lk).trans he)
  obtain ⟨e, he⟩ : ∃ e, e = l.cores.foldl (startOn lk l) d := ⟨_, rfl⟩
  rw [← he] at hl' ⊢
  refine ⟨⟨_, Dev.launch?_updLaunch hl' _, rfl, rfl⟩, fun h n rest hh hs => ?_⟩
  have hon : e.StartedOn lk l h n := by
    rw [he]
    refine foldl_reaches (a := h) (L := fun e : Dev => e.launch? lk = some l) (P := fun e => e.StartedOn lk l h n) hh
      (fun e x _ he => (startOn_launch? e x lk).trans he)
      (fun e he => startOn_starts he hs) (fun e x hx hne _ hon => ?_) hl
    refine hon.congr (startOn_core_ne e hne.symm) (startOn_rank_ne e x _ _ ?_)
    have := mem_cores.mp hx
    have := mem_cores.mp hh
    omega
  refine hon.congr ?_ ?_
  · unfold Dev.updLaunch
    split <;> rfl
  · unfold Dev.updLaunch
    split <;> rfl

/-- No word or tag of a local store changes as the threads of a launch start. -/
theorem Dev.startThreads_store (d : Dev) (j : Nat) :
    ((d.startThreads lk l).core j).words = (d.core j).words ∧ ((d.startThreads lk l).core j).tags = (d.core j).tags := by
  rw [Dev.startThreads_eq]
  have hfold : ((l.cores.foldl (startOn lk l) d).core j).words = (d.core j).words ∧ ((l.cores.foldl (startOn lk l) d).core j).tags = (d.core j).tags :=
    List.foldlRecOn (motive := fun e : Dev => (e.core j).words = (d.core j).words ∧ (e.core j).tags = (d.core j).tags) _ _ ⟨rfl, rfl⟩
      (fun e he h _ => ⟨(startOn_store e h j).1.trans he.1, (startOn_store e h j).2.trans he.2⟩)
  unfold Dev.updLaunch
  split
  · exact hfold
  · exact hfold

end

/-! ### Loading (R216, R284) -/

/-- A word and its tag are zero. -/
def Core.Blank (c : Core) (a : Nat) : Prop := c.word a = 0#32 ∧ c.tag a = 0#4

/-- The index of a word that a region's zeroing takes. -/
def zeroed (w : W32) (keep : Nat → Bool) (i : Nat) : Bool := decide (rgnBase w ≤ 4 * i) && decide (4 * i < rgnEnd w) && !keep (4 * i)

theorem Core.word_zeroRegion (c : Core) (w : W32) (keep : Nat → Bool) (a : Nat) :
    (c.zeroRegion w keep).word a = if zeroed w keep (a / 4) then 0#32 else c.word a := by
  have hf : (c.zeroRegion w keep).words.find? (a / 4) = if !zeroed w keep (a / 4) then c.words.find? (a / 4) else none :=
    AMap.find?_filter_key c.words (fun i => !zeroed w keep i) (a / 4)
  unfold Core.word AMap.get
  rw [hf]
  cases zeroed w keep (a / 4) <;> rfl

theorem Core.tag_zeroRegion (c : Core) (w : W32) (keep : Nat → Bool) (a : Nat) :
    (c.zeroRegion w keep).tag a = if zeroed w keep (a / 4) then 0#4 else c.tag a := by
  have hf : (c.zeroRegion w keep).tags.find? (a / 4) = if !zeroed w keep (a / 4) then c.tags.find? (a / 4) else none :=
    AMap.find?_filter_key c.tags (fun i => !zeroed w keep i) (a / 4)
  unfold Core.tag AMap.get
  rw [hf]
  cases zeroed w keep (a / 4) <;> rfl

theorem Core.Blank.zeroRegion {c : Core} {a : Nat} (h : c.Blank a) (w : W32) (keep : Nat → Bool) : (c.zeroRegion w keep).Blank a := by
  refine ⟨?_, ?_⟩
  · rw [Core.word_zeroRegion, h.1, ite_self]
  · rw [Core.tag_zeroRegion, h.2, ite_self]

theorem Core.blank_zeroRegion (c : Core) {w : W32} {keep : Nat → Bool} {a : Nat} (ha : a % 4 = 0) (hlo : rgnBase w ≤ a) (hhi : a < rgnEnd w)
    (hk : keep a = false) : (c.zeroRegion w keep).Blank a := by
  have hz : zeroed w keep (a / 4) = true := by
    unfold zeroed
    rw [show 4 * (a / 4) = a by omega, decide_eq_true hlo, decide_eq_true hhi, hk]
    rfl
  refine ⟨?_, ?_⟩
  · rw [Core.word_zeroRegion, if_pos hz]
  · rw [Core.tag_zeroRegion, if_pos hz]

/-- The core of a launch without a predecessor is loaded: every word of the launch's regions is zero. -/
theorem Dev.loadCore_blank (d : Dev) (lk : Nat) {l : Launch} {h a : Nat} {w : W32} (hw : w ∈ l.maps) (hv : rgnV w = true) (hlo : rgnBase w ≤ a)
    (hhi : a < rgnEnd w) (ha : a % 4 = 0) (hp : l.predOf = none) : ((d.loadCore lk l h).core h).Blank a := by
  have hkeep : ∀ b, d.kept l h b = false := by
    intro b
    unfold Dev.kept
    rw [hp]
    rfl
  have hzero : ∀ c : Core, ((l.maps.filter rgnV).foldl (fun c w => c.zeroRegion w (fun a => rgnRole w == 0 && d.kept l h a)) c).Blank a := by
    intro c
    refine foldl_reaches (a := w) (L := fun _ => True) (P := fun c : Core => c.Blank a) (List.mem_filter.mpr ⟨hw, hv⟩) (fun _ _ _ _ => trivial)
      (fun c _ => c.blank_zeroRegion ha hlo hhi (by rw [hkeep, Bool.and_false])) (fun c x _ _ _ hc => hc.zeroRegion _ _) trivial
  unfold Dev.loadCore
  rw [Dev.core_updCore_self]
  exact hzero _

theorem Dev.loadCore_core_ne (d : Dev) (lk : Nat) (l : Launch) {h j : Nat} (hj : j ≠ h) : (d.loadCore lk l h).core j = d.core j :=
  Dev.core_updCore_ne _ _ _ _ hj

theorem Dev.loadCores_blank (d : Dev) (lk : Nat) {l : Launch} {h a : Nat} {w : W32} (hh : h ∈ l.cores) (hw : w ∈ l.maps) (hv : rgnV w = true)
    (hlo : rgnBase w ≤ a) (hhi : a < rgnEnd w) (ha : a % 4 = 0) (hp : l.predOf = none) :
    ((l.cores.foldl (fun d h => d.loadCore lk l h) d).core h).Blank a := by
  refine foldl_reaches (a := h) (L := fun _ => True) (P := fun e : Dev => (e.core h).Blank a) hh (fun _ _ _ _ => trivial)
    (fun e _ => e.loadCore_blank lk hw hv hlo hhi ha hp) (fun e x _ hne _ he => ?_) trivial
  rw [Dev.loadCore_core_ne _ _ _ hne.symm]
  exact he

/-- What the data's bytes come to. -/
def loadData (m : Memory) (lk : Nat) (l : Launch) (d : Dev) (bs : List Byte) : Dev :=
  match d.ctlWrite m lk l.first l.data.toNat bs with
  | .wait d => d
  | .refused d c b v => d.ctlBlocked lk c b v
  | .ok () d =>
    let d := l.cores.foldl (fun d h => d.loadCore lk l h) d
    let d := match l.predOf with | some p => d.dropRetained p | none => d
    if bs.isEmpty then d.startThreads lk l else d

def loadLaunch (m : Memory) (lk : Nat) (l : Launch) (d : Dev) : Dev :=
  if l.st != .placed || decide (d.clock < l.retryAt) then d else
  if !l.grps.isEmpty then
    (if d.groups.any (fun g => l.grps.contains g.id) then d else d.startThreads lk l)
  else
    match d.ctlRead m lk l.first (l.image.toNat + l.dataOff) l.dataLen with
    | .wait d => d
    | .refused d c b v => d.ctlBlocked lk c b v
    | .ok bs d => loadData m lk l d bs

theorem exec_launchLoad {lk : Nat} {l : Launch} {s : State} (hl : s.dev.launch? lk = some l) :
    exec (.launchLoad lk) s = .next ⟨s.mem, loadLaunch s.mem lk l s.dev⟩ := by
  unfold exec execLaunchLoad onDev
  dsimp only
  rw [hl]
  rfl

/-- A range of no bytes takes no line. -/
theorem Dev.ctlRead_empty (m : Memory) (d : Dev) (lk first va : Nat) : d.ctlRead m lk first va 0 = .ok [] { d with pins := [] } := by
  unfold Dev.ctlRead Dev.ctlLines
  rw [if_pos rfl]
  rfl

theorem Dev.ctlWrite_empty (m : Memory) (d : Dev) (lk first va : Nat) : d.ctlWrite m lk first va [] = .ok () d := by
  unfold Dev.ctlWrite Dev.ctlLines
  rfl

/-- The launch is placed and may be loaded, and takes no predecessor's banks. -/
def Dev.Placed (d : Dev) (lk : Nat) (l : Launch) : Prop := d.launch? lk = some l ∧ l.st = .placed ∧ l.retryAt ≤ d.clock ∧ l.predOf = none

theorem Dev.Placed.go {d : Dev} {lk : Nat} {l : Launch} (h : d.Placed lk l) : (l.st != .placed || decide (d.clock < l.retryAt)) = false := by
  rw [h.2.1, decide_eq_false (Nat.not_lt.mpr h.2.2.1)]
  rfl

theorem launchLoad_noData (lk : Nat) (l : Launch) : Event (.launchLoad lk) (fun _ d => d.Placed lk l ∧ l.grps = [] ∧ l.dataLen = 0)
    (fun _ _ e => e.Started lk l ∧ ∀ h w a, h ∈ l.cores → w ∈ l.maps → rgnV w = true → rgnBase w ≤ a → a < rgnEnd w → a % 4 = 0 → (e.core h).Blank a) := by
  intro s ⟨hp, hgrps, hlen⟩
  have hbody : loadLaunch s.mem lk l s.dev = (l.cores.foldl (fun d h => Dev.loadCore d lk l h) { s.dev with pins := [] }).startThreads lk l := by
    unfold loadLaunch
    rw [hp.go, hgrps, hlen, Dev.ctlRead_empty]
    dsimp only
    unfold loadData
    rw [Dev.ctlWrite_empty]
    dsimp only
    rw [hp.2.2.2]
    rfl
  refine ⟨_, exec_launchLoad hp.1, fun _ => rfl, ?_⟩
  dsimp only
  rw [hbody]
  refine ⟨Dev.startThreads_starts ?_, fun h w a hh hw hv hlo hhi ha => ?_⟩
  · exact List.foldlRecOn (motive := fun e : Dev => e.launch? lk = some l) _ _ hp.1 (fun _ he _ _ => he)
  · obtain ⟨hwords, htags⟩ := Dev.startThreads_store (lk := lk) (l := l) (l.cores.foldl (fun d h => Dev.loadCore d lk l h) { s.dev with pins := [] }) h
    unfold Core.Blank Core.word Core.tag
    rw [hwords, htags]
    exact Dev.loadCores_blank _ lk hh hw hv hlo hhi ha hp.2.2.2

theorem launchLoad_dataWritten (lk : Nat) (l : Launch) :
    Event (.launchLoad lk) (fun _ d => d.Placed lk l ∧ l.grps ≠ [] ∧ ∀ g, g ∈ d.groups → g.id ∉ l.grps) (fun _ _ e => e.Started lk l) := by
  intro s ⟨hp, hgrps, hdone⟩
  have hnone : s.dev.groups.any (fun g => l.grps.contains g.id) = false := by
    rw [List.any_eq_false]
    exact fun g hg => by simpa using hdone g hg
  have hbody : loadLaunch s.mem lk l s.dev = s.dev.startThreads lk l := by
    unfold loadLaunch
    rw [hp.go, hnone, if_neg Bool.false_ne_true, if_pos (by simpa using hgrps), if_neg Bool.false_ne_true]
  refine ⟨_, exec_launchLoad hp.1, fun _ => rfl, ?_⟩
  dsimp only
  rw [hbody]
  exact Dev.startThreads_starts hp.1

theorem Dev.Started.thread {e : Dev} {lk h n : Nat} {l : Launch} {rest : List Nat} (hs : e.Started lk l) (hh : h ∈ l.cores)
    (hr : (l.resvOn h).slots = n :: rest) : (e.slot h n).st = .ready ∧ (e.slot h n).pc = l.code + BitVec.ofNat 64 (l.entries.headD 0) ∧
      (e.slot h n).lk = lk ∧ (e.slot h n).kind = .launch ∧ (e.slot h n).laneSet = 0xFFFF#16 ∧ (e.slot h n).tsw = l.tsw ∧
      (∀ j, (e.slot h n).A j = if j = 1 then l.data else 0#64) ∧ (∀ j, (e.slot h n).V j = 0#512) ∧
      e.rankEnt l.terr (l.rankBase + (h - l.first)) = rankFor h n ∧ ∀ q x, (e.core h).l1.find? q = some x → x.sealed_ = true := by
  obtain ⟨hslot, hrank, hl1⟩ := hs.threads h n rest hh hr
  exact ⟨hslot.st, hslot.pc, hslot.lk, hslot.kind, hslot.laneSet, hslot.tsw, hslot.A, hslot.V, hrank, hl1⟩

/-! ### Completion (R287, R289) -/

def completeLaunch (m : Memory) (lk : Nat) (l : Launch) (d : Dev) : Dev :=
  if l.st != .resident || decide (d.clock < l.retryAt) then d else
  match l.ending with
  | none => if d.launchIdle lk l && !l.out then d.beginEnd lk l else d
  | some c =>
    if d.groups.any (fun g => decide (g.id < c) && l.has g.core) then d
    else if l.exportA ≠ 0#64 ∧ !l.noFlush ∧ l.flushAt < 17 then d.flushOne m lk l
    else if d.groups.any (fun g => l.grps.contains g.id) then d
    else d.endLaunch m lk l

theorem exec_launchComplete {lk : Nat} {l : Launch} {s : State} (hl : s.dev.launch? lk = some l) :
    exec (.launchComplete lk) s = .next ⟨s.mem, completeLaunch s.mem lk l s.dev⟩ := by
  unfold exec execLaunchComplete onDev
  dsimp only
  rw [hl]
  rfl

def Dev.Resident (d : Dev) (lk : Nat) (l : Launch) : Prop := d.launch? lk = some l ∧ l.st = .resident ∧ l.retryAt ≤ d.clock

theorem Dev.Resident.go {d : Dev} {lk : Nat} {l : Launch} (h : d.Resident lk l) : (l.st != .resident || decide (d.clock < l.retryAt)) = false := by
  rw [h.2.1, decide_eq_false (Nat.not_lt.mpr h.2.2)]
  rfl

/-- A core without the launch's entries in its pool. -/
def leavePool (lk : Nat) (c : Core) : Core := { c with pool := c.pool.filter (fun e => e.lk != lk) }

/-- The launch's entries leave its pools, and its tasks their table. -/
def Dev.dropRest (d : Dev) (lk : Nat) : Dev :=
  let d := (d.launchCores lk).foldl (fun d h => d.updCore h (leavePool lk)) d
  (d.running lk).foldl (fun d t => d.dropTask lk t.d.id) d

def Launch.ended (c n : Nat) (flushed : Bool) (kept : List Nat) (x : Launch) : Launch :=
  { x with ending := some c, dropped := n, noFlush := flushed, retain := kept, grps := [] }

theorem Dev.beginEnd_eq (d : Dev) (lk : Nat) (l : Launch) : ∃ flushed kept,
    d.beginEnd lk l = (d.dropRest lk).updLaunch lk (Launch.ended (d.dropRest lk).count (d.poolCount lk) flushed kept) := by
  unfold Dev.beginEnd
  exact ⟨_, _, rfl⟩

theorem Dev.dropRest_keeps (d : Dev) (lk : Nat) : (d.dropRest lk).launches = d.launches ∧ (d.dropRest lk).count = d.count ∧ d.sameSlots (d.dropRest lk) := by
  obtain ⟨d1, hd1⟩ : ∃ d1 : Dev, d1 = (d.launchCores lk).foldl (fun d h => d.updCore h (leavePool lk)) d := ⟨_, rfl⟩
  have h1 : d1.launches = d.launches ∧ d1.count = d.count ∧ d.sameSlots d1 := by
    rw [hd1]
    refine List.foldlRecOn (motive := fun e : Dev => e.launches = d.launches ∧ e.count = d.count ∧ d.sameSlots e) _ _
      ⟨rfl, rfl, fun _ _ => rfl⟩ (fun e he h _ => ⟨he.1, he.2.1, fun j n => ?_⟩)
    exact (Dev.slot_updCore_of (f := leavePool lk) (fun _ _ => rfl) e h j n).trans (he.2.2 j n)
  unfold Dev.dropRest
  dsimp only
  rw [← hd1]
  exact List.foldlRecOn (motive := fun e : Dev => e.launches = d.launches ∧ e.count = d.count ∧ d.sameSlots e) _ _ h1 (fun _ he _ _ => he)

theorem launchComplete_begins (lk : Nat) (l : Launch) :
    Event (.launchComplete lk) (fun _ d => d.Resident lk l ∧ l.ending = none ∧ d.launchIdle lk l = true ∧ l.out = false)
      (fun _ d e => ∃ l', e.launch? lk = some l' ∧ l'.ending = some d.count ∧ l'.dropped = d.poolCount lk ∧ d.sameSlots e) := by
  intro s ⟨hr, hend, hidle, hout⟩
  refine ⟨_, exec_launchComplete hr.1, fun _ => rfl, ?_⟩
  dsimp only
  unfold completeLaunch
  rw [hr.go, hend, hidle, hout, if_neg Bool.false_ne_true]
  simp only [Bool.not_false, Bool.and_self, if_true]
  obtain ⟨flushed, kept, heq⟩ := s.dev.beginEnd_eq lk l
  obtain ⟨hlaunches, hcount, hslots⟩ := s.dev.dropRest_keeps lk
  have hl : (s.dev.dropRest lk).launch? lk = some l := by
    unfold Dev.launch?
    rw [hlaunches]
    exact hr.1
  rw [heq, hcount]
  refine ⟨_, Dev.launch?_updLaunch hl _, rfl, rfl, fun j n => ?_⟩
  rw [Dev.slot_updLaunch]
  exact hslots j n

theorem Dev.Flows.traceRec (d : Dev) (m : Memory) (t type status core : Nat) (task : W32) (gtid : BitVec 48) (n : Nat) (pc : W64) :
    d.Flows (d.traceRec m t type status core task gtid n pc) := by
  unfold Dev.traceRec
  dsimp only
  split
  · exact of_net rfl rfl
  · unfold Dev.addGroup
    exact after (Dev.Flows.settle _ _) (of_net rfl rfl)

theorem Dev.Flows.updCore (d : Dev) (h : Nat) (f : Core → Core) : d.Flows (d.updCore h f) := of_net rfl rfl

theorem Dev.Flows.setLaunches (d : Dev) (ls : AMap Launch) : d.Flows { d with launches := ls } := of_net rfl rfl

theorem Dev.Flows.freeLaunch (d : Dev) (lk : Nat) (l : Launch) : d.Flows (d.freeLaunch lk l) := by
  unfold Dev.freeLaunch
  dsimp only
  refine after (foldl (fun e i => ?_) _ _) (foldl (fun e h => after (updCore _ _ _) (foldl (fun e o => ?_) _ _)) _ _)
  · unfold Dev.freeLaunch.dropRank
    dsimp only
    split
    · exact refl _
    · exact of_net rfl rfl
  · split
    · exact of_net rfl rfl
    · exact refl _

theorem Dev.Flows.updLaunch (d : Dev) (lk : Nat) (f : Launch → Launch) : d.Flows (d.updLaunch lk f) := by
  unfold Dev.updLaunch
  split
  · exact of_net rfl rfl
  · exact refl _

/-- The record of a launch that ends is sent, and where no bank is retained nothing of the launch stays. -/
theorem Dev.endLaunch_spec (d : Dev) (m : Memory) (lk : Nat) {l : Launch} (hr : l.retain = []) : (d.endLaunch m lk l).launch? lk = none ∧
    (d.endLaunch m lk l).coming d.clock (.messageArrival ⟨l.mailTerr, l.mailbox, launchRecord l 0 (l.flushAt == 17), 0xFFFE, l.first % 4096, none, none⟩) := by
  obtain ⟨d1, hd1⟩ : ∃ d1 : Dev, d1 = d.sendRecord l 0 (l.flushAt == 17) := ⟨_, rfl⟩
  have hsent : d1.coming d.clock (.messageArrival ⟨l.mailTerr, l.mailbox, launchRecord l 0 (l.flushAt == 17), 0xFFFE, l.first % 4096, none, none⟩) :=
    hd1 ▸ Dev.coming_send d 0 _
  unfold Dev.endLaunch
  dsimp only
  rw [← hd1, hr]
  simp only [List.isEmpty_nil, if_true]
  refine ⟨(AMap.find?_erase _ _ _).trans (if_pos rfl), Dev.Flows.coming ?_ hsent⟩
  refine Dev.Flows.after (.setLaunches _ _) ?_
  have htrace : d1.Flows (({ d1 with count := d1.count + 1 } : Dev).traceRec m l.terr 5 0 l.first 0#32 ((Config.freeAddr d1.count).setWidth 48)
      ((Config.freeAddr d1.count).toNat / 2 ^ 48 % 64) (Config.freeAddr (d1.count + 1))) := .after (.traceRec _ _ _ _ _ _ _ _ _ _) (.of_net rfl rfl)
  split
  · exact .after (.updLaunch _ _ _) (.after (.freeLaunch _ _ _) htrace)
  · exact .after (.freeLaunch _ _ _) htrace

theorem launchComplete_ends (lk c : Nat) (l : Launch) : Event (.launchComplete lk)
    (fun _ d => d.Resident lk l ∧ l.ending = some c ∧ (∀ g, g ∈ d.groups → (c ≤ g.id ∨ l.has g.core = false) ∧ g.id ∉ l.grps) ∧
      (l.exportA = 0#64 ∨ l.noFlush = true ∨ 17 ≤ l.flushAt) ∧ l.retain = [])
    (fun _ d e => e.launch? lk = none ∧ ∃ x, e.coming d.clock (.messageArrival x) ∧ x.rank = l.mailbox ∧ x.terr = l.mailTerr ∧
      x.data.extractLsb' 0 48 = 2#48 ∧ x.data.extractLsb' 48 16 = BitVec.ofNat 16 l.lnum) := by
  intro s ⟨hr, hend, hgroups, hflush, hretain⟩
  have hseen : s.dev.groups.any (fun g => decide (g.id < c) && l.has g.core) = false := by
    rw [List.any_eq_false]
    intro g hg
    rcases (hgroups g hg).1 with h | h
    · simp [Nat.not_lt.mpr h]
    · simp [h]
  have hown : s.dev.groups.any (fun g => l.grps.contains g.id) = false := by
    rw [List.any_eq_false]
    exact fun g hg => by simpa using (hgroups g hg).2
  have hnoFlush : ¬(l.exportA ≠ 0#64 ∧ (!l.noFlush) = true ∧ l.flushAt < 17) := by
    rintro ⟨ha, hn, hlt⟩
    rcases hflush with h | h | h
    · exact ha h
    · rw [h] at hn
      exact Bool.false_ne_true hn
    · omega
  have hbody : completeLaunch s.mem lk l s.dev = s.dev.endLaunch s.mem lk l := by
    unfold completeLaunch
    rw [hr.go, hend, if_neg Bool.false_ne_true]
    dsimp only
    rw [hseen, hown, if_neg Bool.false_ne_true, if_neg hnoFlush, if_neg Bool.false_ne_true]
  obtain ⟨hgone, hcoming⟩ := s.dev.endLaunch_spec s.mem lk hretain
  refine ⟨_, exec_launchComplete hr.1, fun _ => rfl, ?_⟩
  dsimp only
  rw [hbody]
  exact ⟨hgone, _, hcoming, rfl, rfl, launchRecord_done l _, launchRecord_lnum l 0 _⟩

/-- A core without a launch's map. -/
def dropMap (p : Nat) (c : Core) : Core := { c with map := ⟨c.map.ents.filter (fun e => e.1 / 16 != p)⟩ }

theorem dropMap_map (p : Nat) (c : Core) {i : Nat} (hi : i < 16) : (dropMap p c).map.find? (16 * p + i) = none := by
  refine (AMap.find?_filter_key c.map (fun k => k / 16 != p) _).trans (if_neg ?_)
  rw [show (16 * p + i) / 16 = p by omega, bne_self_eq_false]
  exact Bool.false_ne_true

/-- A successor that waited for a predecessor waits for it no more. -/
def forget (p : Nat) (e : Nat × Launch) : Nat × Launch := if e.2.st == .pending && e.2.predOf == some p then (e.1, { e.2 with predOf := none }) else e

theorem retained_withdrawn (lk h : Nat) (l : Launch) :
    Event (.retainedHoldWithdrawal lk) (fun _ d => d.launch? lk = some l ∧ l.st = .retained ∧ h ∈ l.cores)
      (fun _ _ e => e.launch? lk = none ∧ ∀ i, i < 16 → (e.core h).map.find? (16 * lk + i) = none) := by
  refine onDev_event (f := fun _ d => d.dropRetained lk) (fun _ => by unfold exec execRetainedHoldWithdrawal; rfl) (fun m d ⟨hl, hst, hh⟩ => ?_)
  unfold Dev.dropRetained
  rw [hl]
  dsimp only
  rw [hst]
  refine ⟨?_, fun i hi => ?_⟩
  · refine (AMap.find?_map (d.launches.erase lk) (forget lk) (fun e => ?_) lk).trans ?_
    · unfold forget
      split <;> rfl
    · rw [AMap.find?_erase, if_pos rfl]
      rfl
  · refine foldl_reaches (a := h) (L := fun _ => True) (P := fun e : Dev => (e.core h).map.find? (16 * lk + i) = none) (step := fun d h => d.updCore h (dropMap lk)) hh
      (fun _ _ _ _ => trivial) (fun e _ => ?_) (fun e x _ hne _ he => ?_) trivial
    · rw [Dev.core_updCore_self]
      exact dropMap_map lk _ hi
    · rw [Dev.core_updCore_ne _ _ _ _ hne.symm]
      exact he

/-- Settles O43, act by act. -/
theorem launchLife : Obligations.LaunchLife := by
  intro t lk c h r sub l full
  refine ⟨launchRequest_good t r full sub, launchRequest_bad t r full sub, placement_places lk l, fun s hs => ?_, fun s hs => ?_,
    launchComplete_begins lk l, launchComplete_ends lk c l, retained_withdrawn lk h l⟩
  · obtain ⟨u, hu, hm, hstarted, hblank⟩ := launchLoad_noData lk l s hs
    exact ⟨u, hu, hm, ⟨hstarted.launch, fun h n rest hh hr => hstarted.thread hh hr⟩, hblank⟩
  · obtain ⟨u, hu, hm, hstarted⟩ := launchLoad_dataWritten lk l s hs
    exact ⟨u, hu, hm, hstarted.launch, fun h n rest hh hr => hstarted.thread hh hr⟩

end Sys2Proof.Machine
end

section
/-! PROOFS. Extan ports (O49) -/

namespace Sys2Proof.Machine

/-! ### What groups that settle leave of the ports -/

/-- From d to e the ports stay as they are, and every group was there, with its function. -/
structure Dev.Settles (d e : Dev) : Prop where
  ports : e.ports = d.ports
  fns : ∀ g, g ∈ e.groups → ∃ x, x ∈ d.groups ∧ x.id = g.id ∧ x.fn = g.fn

namespace Dev.Settles

theorem refl (d : Dev) : d.Settles d := ⟨rfl, fun g hg => ⟨g, hg, rfl, rfl⟩⟩
theorem of_groups {d e : Dev} (hp : e.ports = d.ports) (hg : e.groups = d.groups) : d.Settles e := ⟨hp, fun g h => ⟨g, hg ▸ h, rfl, rfl⟩⟩
theorem trans {d e f : Dev} (h : d.Settles e) (g : e.Settles f) : d.Settles f :=
  ⟨g.ports.trans h.ports, fun x hx => by
    obtain ⟨y, hy, hid, hfn⟩ := g.fns x hx
    obtain ⟨z, hz, hid', hfn'⟩ := h.fns y hy
    exact ⟨z, hz, hid'.trans hid, hfn'.trans hfn⟩⟩
theorem quays {d e : Dev} (h : d.QuaysOnly e) : d.Settles e := of_groups (by rw [h]) h.groups

theorem foldl {α : Type} {f : Dev → α → Dev} (hf : ∀ (e : Dev) (a : α), e.Settles (f e a)) (l : List α) (d : Dev) : d.Settles (l.foldl f d) :=
  List.foldlRecOn (motive := fun x : Dev => d.Settles x) l f (refl d) (fun _ hx a _ => hx.trans (hf _ a))

theorem updGroup (d : Dev) (id : Nat) {f : Grp → Grp} (hid : ∀ g, (f g).id = g.id) (hfn : ∀ g, (f g).fn = g.fn) : d.Settles (d.updGroup id f) := by
  refine ⟨rfl, fun g hg => ?_⟩
  obtain ⟨x, hx, rfl⟩ := List.mem_map.mp hg
  refine ⟨x, hx, ?_, ?_⟩
  · split
    · exact (hid x).symm
    · rfl
  · split
    · exact (hfn x).symm
    · rfl

theorem grantNext (d : Dev) (m : Memory) (pa : Nat) : d.Settles (d.grantNext m pa) := by
  refine of_groups ?_ (d.groups_grantNext m pa)
  unfold Dev.grantNext
  dsimp only
  split
  · rfl
  · split
    · rfl
    · split
      · split
        · exact (quays (Dev.quayWaited_quaysOnly _ _ _)).ports
        · exact (quays (Dev.quayWaited_quaysOnly _ _ _)).ports
      · next e he =>
        refine Eq.trans ?_ (quays (Dev.quay_quaysOnly he)).ports
        split <;> rfl

theorem unhold (d : Dev) (m : Memory) (pa h n : Nat) : d.Settles (d.unhold m pa h n) := by
  refine of_groups ((grantNext _ m pa).ports.trans ?_) (d.groups_unhold m pa h n)
  unfold Dev.unpin
  dsimp only
  split <;> rfl

theorem ports_wakeSlot (d : Dev) (h n : Nat) (p : WaitFor → Bool) : (d.wakeSlot h n p).ports = d.ports := by
  unfold Dev.wakeSlot
  split
  · split <;> rfl
  · rfl

theorem ports_updLaunch (d : Dev) (lk : Nat) (f : Launch → Launch) : (d.updLaunch lk f).ports = d.ports := by
  unfold Dev.updLaunch
  split <;> rfl

theorem ports_reply (d : Dev) (h n : Nat) (r : Reply) : (d.reply h n r).ports = d.ports := by
  unfold Dev.reply
  split
  · rfl
  · split
    · rfl
    · exact ports_wakeSlot _ _ _ _

theorem finish (d : Dev) (m : Memory) (f : Fin) : d.Settles (d.finish m [] f) := by
  refine of_groups ?_ (d.groups_finish m f)
  unfold Dev.finish
  split
  · unfold Dev.wakeVisible
    split <;> exact ports_wakeSlot _ _ _ _
  · split
    · rfl
    · rw [Dev.broadcast_nil]
      dsimp only
      split <;> exact ports_updLaunch _ _ _
  · split
    · exact (unhold _ _ _ _ _).ports
    · rfl
  · exact (unhold _ _ _ _ _).ports
  · rfl
  · exact ports_reply _ _ _ _
  all_goals rfl

theorem retire (d : Dev) (m : Memory) {g : Grp} (hg : g.lines = []) : d.Settles (d.retire m g) := by
  unfold Dev.retire
  rw [hg]
  refine trans ?_ (foldl (fun e f => finish e m f) _ _)
  exact ⟨rfl, fun x hx => ⟨x, (List.mem_filter.mp hx).1, rfl, rfl⟩⟩

theorem send (d : Dev) (chan : Nat) (e : Ev) : d.Settles (d.send chan e) := of_groups rfl rfl

theorem advance (d : Dev) (m : Memory) (id : Nat) : d.Settles (d.advance m id) := by
  unfold Dev.advance
  split
  · exact refl _
  · split
    · refine trans ?_ (send _ _ _)
      exact updGroup d id (fun _ => rfl) (fun _ => rfl)
    · dsimp only
      split
      · next hall => exact retire d m (homesOf_eq_nil hall)
      · refine trans ?_ (foldl (fun e q => send e 0 (.groupRelease id q)) _ _)
        exact updGroup d id (fun _ => rfl) (fun _ => rfl)

theorem settle (d : Dev) (m : Memory) : d.Settles (d.settle m) := by
  suffices h : ∀ k (d : Dev), d.Settles (d.startGroups m k) from h _ d
  intro k
  induction k with
  | zero => exact refl
  | succ k ih =>
    intro d
    unfold Dev.startGroups
    split
    · exact refl _
    · refine trans ?_ ((advance _ _ _).trans (ih _))
      exact updGroup d _ (fun _ => rfl) (fun _ => rfl)

end Dev.Settles

section
variable (d : Dev) (m : Memory) (ls : List GLine) (fn core : Nat) (after : Option Nat) (fin : List Fin)

theorem Dev.ports_addGroup : (d.addGroup m ls fn core after fin).ports = d.ports := by
  unfold Dev.addGroup
  exact (Dev.Settles.settle _ m).ports

/-- A group that closes with lines of its own stands among those in flight, with its function. -/
theorem Dev.addGroup_fn (hls : ls ≠ []) (hrec : ∀ l, l ∈ ls → l.rec_ = none) :
    ∃ g, g ∈ (d.addGroup m ls fn core after fin).groups ∧ g.lines = ls ∧ g.fn = fn := by
  obtain ⟨g, hg, hl, -, -⟩ := (Dev.addGroup_inFlight hls hrec d m fn core after fin).found
  have hmem := List.mem_of_find?_eq_some hg
  have hid : g.id = d.newGid := by simpa using List.find?_some (p := fun y : Grp => y.id == d.newGid) hg
  refine ⟨g, hmem, hl, ?_⟩
  unfold Dev.addGroup at hmem
  obtain ⟨x, hx, hxid, hxfn⟩ := (Dev.Settles.settle _ m).fns g hmem
  rcases List.mem_append.mp hx with hx | hx
  · exact absurd (hxid.trans hid) (d.newGid_fresh hx).ne
  · rw [← hxfn, List.mem_singleton.mp hx]

end

/-! ### Ports and their rings (R351) -/

theorem Dev.port_updPort (d : Dev) (p : Nat) (f : Port → Port) : (d.updPort p f).port p = f (d.port p) := AMap.get_put_self _ _ _ _

theorem Dev.sameSlots_updPort (d : Dev) (p : Nat) (f : Port → Port) : d.sameSlots (d.updPort p f) := fun _ _ => rfl

/-- The lengths a ring may have. -/
theorem ringLen_of {n : Nat} (h : ∃ i, i < 13 ∧ n = 16 * 2 ^ i) : ringLen n = true := by
  unfold ringLen
  simpa using .inr h

section
variable (p : Nat) (v : W64)

theorem portRingWrite_base : Event (.portRingWrite p false v) (fun _ d => p < 12 ∧ (d.port p).head = (d.port p).tail ∧ v.toNat % 4096 = 0)
    (fun _ d e => e.port p = { d.port p with rbase := v, head := 0#32, tail := 0#32 } ∧ d.sameSlots e) := by
  refine onDev_event (fun _ => by unfold exec execPortRingWrite; rfl) (fun m d ⟨hp, hempty, hv⟩ => ?_)
  rw [if_neg (by simp [hempty, hp]), if_neg (by decide), if_neg (not_not_intro hv)]
  exact ⟨d.port_updPort p _, d.sameSlots_updPort p _⟩

theorem portRingWrite_length : Event (.portRingWrite p true v)
    (fun _ d => p < 12 ∧ (d.port p).head = (d.port p).tail ∧ ∃ i, i < 13 ∧ v.toNat % 2 ^ 32 = 16 * 2 ^ i)
    (fun _ d e => e.port p = { d.port p with rlen := v.toNat % 2 ^ 32, head := 0#32, tail := 0#32 } ∧ d.sameSlots e) := by
  refine onDev_event (fun _ => by unfold exec execPortRingWrite; rfl) (fun m d ⟨hp, hempty, hlen⟩ => ?_)
  rw [if_neg (by simp [hempty, hp]), if_pos rfl, if_pos (ringLen_of hlen)]
  exact ⟨d.port_updPort p _, d.sameSlots_updPort p _⟩

theorem portTailWrite_taken : Event (.portTailWrite p (v.setWidth 32))
    (fun _ d => p < 12 ∧ (v.setWidth 32 - (d.port p).head).toNat ≤ (d.port p).rlen)
    (fun _ d e => e.port p = { d.port p with tail := v.setWidth 32 } ∧ d.sameSlots e) := by
  refine onDev_event (fun _ => by unfold exec execPortTailWrite; rfl) (fun m d ⟨hp, hlen⟩ => ?_)
  dsimp only
  rw [if_neg (by omega)]
  exact ⟨d.port_updPort p _, d.sameSlots_updPort p _⟩

end

/-! ### Data flits and the status of a work (R354, R356) -/

/-- The data flit that goes out next, and a port that has sent it. -/
def Port.nextFlit (x : Port) : BitVec 2048 := makeFlit x.freed x.vc 1 x.rxSeq (x.txSeq + 1#12) (x.toSend.take 240)
def Port.sendOne (x : Port) : Port := { x with
  txSeq := x.txSeq + 1#12, freed := 0, sent := x.sent ++ [x.nextFlit], out := x.out ++ [x.nextFlit], toSend := x.toSend.drop 240 }

theorem Port.pump_succ (k : Nat) (x : Port) :
    Port.pump (k + 1) x = if (x.toSend.isEmpty || decide (1024 ≤ x.sent.length)) = true then x else Port.pump k x.sendOne := rfl

/-- The flits of a pump join those that are kept and those that go out. -/
theorem Port.pump_joins (k : Nat) (x : Port) : (Port.pump k x).head = x.head ∧ (Port.pump k x).stat = x.stat ∧
    ∃ fs, (Port.pump k x).sent = x.sent ++ fs ∧ (Port.pump k x).out = x.out ++ fs := by
  induction k generalizing x with
  | zero => exact ⟨rfl, rfl, [], (List.append_nil _).symm, (List.append_nil _).symm⟩
  | succ k ih =>
    rw [Port.pump_succ]
    split
    · exact ⟨rfl, rfl, [], (List.append_nil _).symm, (List.append_nil _).symm⟩
    · obtain ⟨hhead, hstat, fs, hsent, hout⟩ := ih x.sendOne
      exact ⟨hhead, hstat, _ :: fs, hsent.trans (List.append_assoc _ _ _), hout.trans (List.append_assoc _ _ _)⟩

/-- With none kept, the first flit carries the first bytes. -/
theorem Port.pump_first (k : Nat) {x : Port} (hsent : x.sent = []) (hsend : x.toSend ≠ []) :
    (Port.pump (k + 1) x).head = x.head ∧ (Port.pump (k + 1) x).stat = x.stat ∧
    ∃ rest, (Port.pump (k + 1) x).sent = x.nextFlit :: rest ∧ (Port.pump (k + 1) x).out = x.out ++ (Port.pump (k + 1) x).sent := by
  rw [Port.pump_succ, if_neg (by simp [hsent, hsend])]
  obtain ⟨hhead, hstat, fs, hkept, hout⟩ := Port.pump_joins k x.sendOne
  have hone : x.sendOne.sent = [x.nextFlit] := congrArg (· ++ [x.nextFlit]) hsent
  rw [hone] at hkept
  exact ⟨hhead, hstat, fs, hkept, hkept ▸ hout.trans (List.append_assoc _ _ _)⟩

theorem Port.pump_idle (k : Nat) {x : Port} (hsend : x.toSend = []) : Port.pump k x = x := by
  cases k with
  | zero => rfl
  | succ k =>
    unfold Port.pump
    rw [if_pos (by simp [hsend])]

/-- The status of a work, written where its descriptor says. -/
def Dev.Marks (e : Dev) (a : Nat) (v : Byte) : Prop := ∃ g y, g ∈ e.groups ∧ y ∈ g.lines ∧ y.va = lineOf a ∧
  ∀ k, k < 8 → y.mask.getLsbD (a % 128 + k) = true ∧ Line.byte y.data (a % 128 + k) = if k = 0 then v else 0#8

theorem Dev.portStatus_marks (d : Dev) (m : Memory) {a : Nat} (hal : a % 8 = 0) (hin : (isHbm a || isLpddr a) = true) (v : Byte) :
    (d.portStatus m a v.toNat).Marks a v ∧ (d.portStatus m a v.toNat).ports = d.ports := by
  unfold Dev.portStatus
  rw [if_neg (by simp [hin]; omega)]
  dsimp only
  obtain ⟨g, hg, hl, -⟩ := d.addGroup_one m (l := ⟨lineOf a, lineOf a, (lineBytes a v.toNat 8).1, (lineBytes a v.toNat 8).2, none⟩) rfl 32 0 none [.nothing]
  refine ⟨⟨g, _, hg, hl ▸ List.mem_singleton.mpr rfl, rfl, fun k hk => ⟨?_, ?_⟩⟩, d.ports_addGroup _ _ _ _ _ _⟩
  · rw [getLsbD_lineBytes_mask _ _ _ (by omega)]
    exact decide_eq_true (by omega)
  · have hv : v.toNat = leNat (v :: List.replicate 7 0#8) := by simp [leNat, List.replicate]
    have hbyte := byte_lineBytes a 8 (v :: List.replicate 7 0#8) (j := k) (by simpa using hk) (by omega)
    dsimp only
    rw [hv, hbyte]
    cases k with
    | zero => rfl
    | succ k => exact (List.getElem_replicate (n := 7) (by simpa using Nat.lt_of_succ_lt_succ hk) :)

theorem Dev.ports_portStatus (d : Dev) (m : Memory) (a v : Nat) : (d.portStatus m a v).ports = d.ports := by
  unfold Dev.portStatus
  split
  · rfl
  · exact d.ports_addGroup _ _ _ _ _ _

theorem Dev.port_of_ports {d e : Dev} (h : e.ports = d.ports) (p : Nat) : e.port p = d.port p := by
  unfold Dev.port
  rw [h]

/-! ### The engine takes a descriptor (R356) -/

/-- The address of the next descriptor, its bytes, and the read of bytes at their homes. -/
def Dev.portAt (d : Dev) (p : Nat) : Nat := (d.port p).rbase.toNat + 64 * ((d.port p).head.toNat % (d.port p).rlen)
def Dev.portDesc (m : Memory) (d : Dev) (p : Nat) : List Byte := m.bytes (d.portAt p) 64
def Dev.portRead (d : Dev) (a n : Nat) : Dev × Bool := d.visit 32 false (linesOf ((List.range n).map (fun i => a + i)))
/-- The port has a descriptor that it can read, and nothing in hand. -/
def Dev.PortIdle (d : Dev) (p : Nat) : Prop := d.up = true ∧ (d.port p).rlen ≠ 0 ∧ (d.port p).head ≠ (d.port p).tail ∧ (d.port p).stat = none ∧
  d.pendingIn (d.portAt p) 64 = false ∧ (d.portRead (d.portAt p) 64).2 = true
/-- Its ring with the descriptor taken. -/
def Dev.portTaken (d : Dev) (p : Nat) : Dev := (d.portRead (d.portAt p) 64).1.updPort p (fun x => { x with head := x.head + 1#32 })
/-- A work in hand: its status and its bytes. -/
def Port.works (x : Port) (m : Memory) (b : List Byte) (clock : Nat) : Port := Port.pump 1024 { x with
  stat := some (BitVec.ofNat 64 (pdStat b)), ackAt := clock, vc := (if pdOp b = 1 then 0 else if pdOp b = 4 then 2 else 1)
  toSend := b ++ m.bytes (pdSrc b) (pdLen b) }

theorem Port.works_spec {x : Port} (m : Memory) {b : List Byte} (clock : Nat) (hsent : x.sent = []) (hb : b ≠ []) :
    (x.works m b clock).head = x.head ∧ (x.works m b clock).stat = some (BitVec.ofNat 64 (pdStat b)) ∧
    ∃ rest, (x.works m b clock).sent = makeFlit x.freed (if pdOp b = 1 then 0 else if pdOp b = 4 then 2 else 1) 1 x.rxSeq (x.txSeq + 1#12)
        ((b ++ m.bytes (pdSrc b) (pdLen b)).take 240) :: rest ∧ (x.works m b clock).out = x.out ++ (x.works m b clock).sent :=
  Port.pump_first 1023 (x := { x with
    stat := some (BitVec.ofNat 64 (pdStat b)), ackAt := clock, vc := (if pdOp b = 1 then 0 else if pdOp b = 4 then 2 else 1)
    toSend := b ++ m.bytes (pdSrc b) (pdLen b) }) hsent (fun h => hb (List.append_eq_nil_iff.mp h).1)

section
variable {d : Dev} {m : Memory} {p : Nat} {ops : Nat → Bool}

theorem Dev.portRead_quays (d : Dev) (a n : Nat) : d.QuaysOnly (d.portRead a n).1 := d.visit_quaysOnly _ _ _ _

theorem Dev.portTaken_port (d : Dev) (p : Nat) : (d.portTaken p).port p = { d.port p with head := (d.port p).head + 1#32 } := by
  rw [Dev.portTaken, Dev.port_updPort, Dev.port_of_ports (Dev.Settles.quays (d.portRead_quays _ _)).ports]

/-- A descriptor that the form names, in a port that is up or lost. -/
theorem Dev.portTake_eq (hi : d.PortIdle p) (hst : (d.port p).st = 1 ∨ (d.port p).st = 3) (hops : ops (pdOp (d.portDesc m p)) = true) :
    d.portTake m p ops =
      if (!pdOk (d.portDesc m p)) = true then (d.portTaken p).portStatus m (pdStat (d.portDesc m p)) 3
      else if ((d.port p).st == 3) = true then (d.portTaken p).portStatus m (pdStat (d.portDesc m p)) 1
      else if (d.portRead (d.portAt p) 64).1.pendingIn (pdSrc (d.portDesc m p)) (pdLen (d.portDesc m p)) = true then (d.portRead (d.portAt p) 64).1
      else if ((d.portTaken p).portRead (pdSrc (d.portDesc m p)) (pdLen (d.portDesc m p))).2 = true then
        ((d.portTaken p).portRead (pdSrc (d.portDesc m p)) (pdLen (d.portDesc m p))).1.updPort p
          (fun x => x.works m (d.portDesc m p) (d.portRead (d.portAt p) 64).1.clock)
      else (d.portRead (d.portAt p) 64).1 := by
  obtain ⟨hup, hlen, hhead, hstat, hpend, hread⟩ := hi
  obtain ⟨e, he⟩ : ∃ e, d.portRead (d.portAt p) 64 = (e, true) := ⟨_, Prod.ext rfl hread⟩
  have htaken : d.portTaken p = e.updPort p (fun x => { x with head := x.head + 1#32 }) := by rw [Dev.portTaken, he]
  rw [htaken, he]
  unfold Dev.portTake
  dsimp only
  rw [if_neg (by rcases hst with hst | hst <;> simp [hup, hlen, hhead, hstat, hst])]
  unfold Dev.portDesc at hops ⊢
  unfold Dev.portRead at he ⊢
  unfold Dev.portAt at hpend hops he ⊢
  rw [if_neg (by simp [hpend]), if_neg (by simp [hops]), he]
  dsimp only
  split
  · rfl
  · split
    · rfl
    · split
      · rfl
      · split
        · next h => rw [h]; rfl
        · next h => rw [h]; rfl


section
variable {i : Instr} {is : Nat → Prop} (he : ∀ s, exec i s = onDev (fun m d => d.portTake m p ops) s) (hops : ∀ o, is o → ops o = true)
include he hops

/-- A work goes out as flits. -/
theorem portTake_works (vc : Nat) (hvc : ∀ o, is o → 1 ≤ o → o ≤ 4 → (if o = 1 then 0 else if o = 4 then 2 else 1) = vc) : Event i
    (fun m d => d.PortIdle p ∧ (d.port p).st = 1 ∧ (d.port p).sent = [] ∧ is (pdOp (d.portDesc m p)) ∧ pdOk (d.portDesc m p) = true ∧
      d.pendingIn (pdSrc (d.portDesc m p)) (pdLen (d.portDesc m p)) = false ∧
      ((d.portTaken p).portRead (pdSrc (d.portDesc m p)) (pdLen (d.portDesc m p))).2 = true)
    (fun m d e => d.sameSlots e ∧ (e.port p).head = (d.port p).head + 1#32 ∧ (e.port p).stat = some (BitVec.ofNat 64 (pdStat (d.portDesc m p))) ∧
      ∃ rest, (e.port p).sent = makeFlit (d.port p).freed vc 1 (d.port p).rxSeq ((d.port p).txSeq + 1#12)
          ((d.portDesc m p ++ m.bytes (pdSrc (d.portDesc m p)) (pdLen (d.portDesc m p))).take 240) :: rest ∧
        (e.port p).out = (d.port p).out ++ (e.port p).sent) := by
  refine onDev_event he (fun m d ⟨hi, hst, hsent, his, hok, hpend, hread⟩ => ?_)
  have hq := d.portRead_quays (d.portAt p) 64
  have hpend' : (d.portRead (d.portAt p) 64).1.pendingIn (pdSrc (d.portDesc m p)) (pdLen (d.portDesc m p)) = false := by
    rw [hq]
    exact hpend
  have hop : 1 ≤ pdOp (d.portDesc m p) ∧ pdOp (d.portDesc m p) ≤ 4 := by
    simp only [pdOk, Bool.and_eq_true, decide_eq_true_eq, and_assoc] at hok
    exact ⟨hok.1, hok.2.1⟩
  have hq' := (d.portTaken p).portRead_quays (pdSrc (d.portDesc m p)) (pdLen (d.portDesc m p))
  rw [Dev.portTake_eq hi (.inl hst) (hops _ his), if_neg (by simp [hok]), if_neg (by simp [hst]), if_neg (by simp [hpend']), if_pos hread]
  have hdesc : (d.portDesc m p).length = 64 := by simp [Dev.portDesc, Memory.bytes]
  obtain ⟨hhead, hstat, hsent⟩ := Port.works_spec (x := (d.portTaken p).port p) m (b := d.portDesc m p) (d.portRead (d.portAt p) 64).1.clock
    (by rw [d.portTaken_port]; exact hsent) (List.ne_nil_of_length_pos (by omega))
  obtain ⟨y, hy⟩ : ∃ y, y = ((d.portTaken p).port p).works m (d.portDesc m p) (d.portRead (d.portAt p) 64).1.clock := ⟨_, rfl⟩
  rw [hvc _ his hop.1 hop.2] at hsent
  rw [← hy] at hhead hstat hsent
  rw [d.portTaken_port] at hhead hsent
  rw [Dev.port_updPort, Dev.port_of_ports (Dev.Settles.quays hq').ports, ← hy]
  refine ⟨fun h n => ?_, hhead, hstat, hsent⟩
  exact (Dev.sameSlots_updPort _ p _ h n).trans ((hq'.slot h n).trans ((Dev.sameSlots_updPort _ p _ h n).trans (hq.slot h n)))

/-- A malformed descriptor, and one of a lost port, gets its status. -/
theorem portTake_status : Event i
    (fun m d => d.PortIdle p ∧ is (pdOp (d.portDesc m p)) ∧ ((d.port p).st = 1 ∧ pdOk (d.portDesc m p) = false ∨ (d.port p).st = 3) ∧
      pdStat (d.portDesc m p) % 8 = 0 ∧ (isHbm (pdStat (d.portDesc m p)) || isLpddr (pdStat (d.portDesc m p))) = true)
    (fun m d e => (e.port p).head = (d.port p).head + 1#32 ∧ (e.port p).sent = (d.port p).sent ∧
      e.Marks (pdStat (d.portDesc m p)) (if pdOk (d.portDesc m p) then 1#8 else 3#8)) := by
  refine onDev_event he (fun m d ⟨hi, his, hst, hal, hin⟩ => ?_)
  have heq : d.portTake m p ops =
      (d.portTaken p).portStatus m (pdStat (d.portDesc m p)) (if pdOk (d.portDesc m p) then 1#8 else 3#8 : Byte).toNat := by
    rw [Dev.portTake_eq hi (hst.imp And.left id) (hops _ his)]
    by_cases hok : pdOk (d.portDesc m p) = true
    · rw [if_neg (by simp [hok]), if_pos (by simpa [hok] using hst), if_pos hok]
      rfl
    · rw [if_pos (by simpa using hok), if_neg hok]
      rfl
  obtain ⟨hmarks, hports⟩ := (d.portTaken p).portStatus_marks m hal hin (if pdOk (d.portDesc m p) then 1#8 else 3#8)
  rw [heq, Dev.port_of_ports hports, d.portTaken_port]
  exact ⟨rfl, rfl, hmarks⟩

end
end

/-! ### Flits that arrive (R355) -/

theorem Port.acked_none {x : Port} {a : BitVec 12} (h : x.covered a = 0) (clock : Nat) : x.acked a clock = x := if_pos h

theorem Port.acked_idle {x : Port} {a : BitVec 12} (h : x.covered a ≠ 0) (hsend : x.toSend = []) (clock : Nat) :
    x.acked a clock = { x with sent := x.sent.drop (x.covered a), fails := 0, ackAt := clock } :=
  (if_neg h).trans (Port.pump_idle 1024 hsend)

/-- What a good flit makes of its port. -/
def Port.takes (x : Port) (flit : BitVec 2048) (clock : Nat) : Port :=
  let x := x.acked (flitAck flit) clock
  match flitType flit with
  | 1 => x.data flit
  | 3 => if 16 < x.fails + 1 then { x with fails := x.fails + 1 }.withSt 2 else { x with fails := x.fails + 1 }.replayAll
  | _ => x

def flitIn (p : Nat) (flit : BitVec 2048) (m : Memory) (d : Dev) : Dev :=
  if 12 ≤ p ∨ (d.port p).st ≠ 1 then d
  else if (!flitGood flit) = true then d.updPort p (fun x => x.control 3)
  else (d.updPort p (fun _ => (d.port p).takes flit d.clock)).portDone m p

theorem exec_flitReceive (p : Nat) (flit : BitVec 2048) (s : State) : exec (.flitReceive p flit) s = onDev (flitIn p flit) s := by
  unfold exec execFlitReceive
  rfl

theorem Dev.portDone_idle {d : Dev} {p : Nat} (h : (d.port p).stat = none) (m : Memory) : d.portDone m p = d := by
  unfold Dev.portDone
  dsimp only
  rw [h]

section
variable {p : Nat} {flit : BitVec 2048} {m : Memory} {d : Dev}

theorem flitIn_eq (hp : p < 12) (hst : (d.port p).st = 1) (hgood : flitGood flit = true) :
    flitIn p flit m d = (d.updPort p (fun _ => (d.port p).takes flit d.clock)).portDone m p := by
  rw [flitIn, if_neg (by omega), if_neg (by simp [hgood])]

/-- A port without a work in hand only takes the flit. -/
theorem flitIn_idle (hp : p < 12) (hst : (d.port p).st = 1) (hgood : flitGood flit = true)
    (hstat : ((d.port p).takes flit d.clock).stat = none) : (flitIn p flit m d).port p = (d.port p).takes flit d.clock ∧ d.sameSlots (flitIn p flit m d) := by
  rw [flitIn_eq hp hst hgood, Dev.portDone_idle (by rw [Dev.port_updPort]; exact hstat)]
  exact ⟨d.port_updPort p _, d.sameSlots_updPort p _⟩

theorem Port.takes_data {x : Port} (ht : flitType flit = 1) (hack : x.covered (flitAck flit) = 0) (clock : Nat) : x.takes flit clock = x.data flit := by
  unfold Port.takes
  rw [Port.acked_none hack, ht] <;> rfl

theorem Port.takes_nak {x : Port} (ht : flitType flit = 3) (hack : x.covered (flitAck flit) = 0) (clock : Nat) : x.takes flit clock =
    if 16 < x.fails + 1 then { x with fails := x.fails + 1 }.withSt 2 else { x with fails := x.fails + 1 }.replayAll := by
  unfold Port.takes
  rw [Port.acked_none hack, ht] <;> rfl

theorem Port.takes_ack {x : Port} (ht : flitType flit = 2) (clock : Nat) : x.takes flit clock = x.acked (flitAck flit) clock := by
  unfold Port.takes
  rw [ht] <;> rfl

end

theorem withSt_state (w : W32) (n : Nat) (hn : n < 4) : (((w &&& ~~~3#32) ||| BitVec.ofNat 32 n).extractLsb' 0 2).toNat = n := by
  have hz : ((w &&& ~~~3#32) ||| BitVec.ofNat 32 n).extractLsb' 0 2 = BitVec.ofNat 2 n := by
    apply BitVec.eq_of_getLsbD_eq
    intro i hi
    rcases (by omega : i = 0 ∨ i = 1) with rfl | rfl <;> simp only [BitVec.getLsbD_extractLsb', BitVec.getLsbD_or, BitVec.getLsbD_and, BitVec.getLsbD_ofNat] <;> simp
  rw [hz, BitVec.toNat_ofNat]
  omega

theorem Port.st_withSt (x : Port) (n : Nat) (hn : n < 4) : (x.withSt n).st = n := withSt_state x.state n hn

/-- What a data flit in order adds to a partner's work. -/
theorem Port.gather_spec (x : Port) (bs : List Byte) :
    ((x.gather bs).out = x.out ∧ (x.gather bs).rxSeq = x.rxSeq ∧ (x.gather bs).txSeq = x.txSeq ∧ (x.gather bs).freed = x.freed ∧ (x.gather bs).stat = x.stat) ∧
    (64 + pdLen (x.inBytes ++ bs) ≤ (x.inBytes ++ bs).length →
      ∃ win, (x.gather bs).inDone = x.inDone ++ [((x.inBytes ++ bs).take (64 + pdLen (x.inBytes ++ bs)), win)] ∧ (x.gather bs).inBytes = []) ∧
    ((x.inBytes ++ bs).length < 64 + pdLen (x.inBytes ++ bs) → (x.gather bs).inBytes = x.inBytes ++ bs ∧ (x.gather bs).inDone = x.inDone) := by
  unfold Port.gather
  dsimp only
  split
  · next h => exact ⟨⟨rfl, rfl, rfl, rfl, rfl⟩, fun _ => ⟨_, rfl, rfl⟩, fun hlt => absurd h (Nat.not_le.mpr hlt)⟩
  · next h => exact ⟨⟨rfl, rfl, rfl, rfl, rfl⟩, fun hle => absurd hle h, fun _ => ⟨rfl, rfl⟩⟩

section
variable (p : Nat) (flit : BitVec 2048)

/-- A good flit of a type that acknowledges nothing, at a port without a work in hand. -/
def Dev.PortGood (d : Dev) (p : Nat) (flit : BitVec 2048) (ty : Nat) : Prop :=
  p < 12 ∧ (d.port p).st = 1 ∧ flitGood flit = true ∧ flitType flit = ty ∧ (d.port p).covered (flitAck flit) = 0 ∧ (d.port p).stat = none

/-- A flit without data goes out, and the slots stay. -/
def Dev.Answers (d e : Dev) (p ty : Nat) (sq : BitVec 12) (k : Nat) : Prop :=
  (e.port p).out = (d.port p).out ++ [makeFlit k 3 ty sq (d.port p).txSeq []] ∧ (e.port p).rxSeq = sq ∧ d.sameSlots e

theorem flitReceive_inOrder : Event (.flitReceive p flit) (fun _ d => d.PortGood p flit 1 ∧ flitSeq flit = (d.port p).rxSeq + 1#12)
    (fun _ d e => Dev.Answers d e p 2 ((d.port p).rxSeq + 1#12) ((d.port p).freed + 1) ∧
      let got := (d.port p).inBytes ++ ((flitBytes flit).drop 8).take 240
      (flitVc flit ≠ 3 → 64 + pdLen got ≤ got.length →
        ∃ win, (e.port p).inDone = (d.port p).inDone ++ [(got.take (64 + pdLen got), win)] ∧ (e.port p).inBytes = []) ∧
      (flitVc flit ≠ 3 → got.length < 64 + pdLen got → (e.port p).inBytes = got ∧ (e.port p).inDone = (d.port p).inDone)) := by
  refine onDev_event (exec_flitReceive p flit) (fun m d ⟨⟨hp, hst, hgood, hty, hack, hstat⟩, hseq⟩ => ?_)
  obtain ⟨x, hx⟩ : ∃ x : Port, x = { d.port p with rxSeq := (d.port p).rxSeq + 1#12, freed := (d.port p).freed + 1 } := ⟨_, rfl⟩
  have htake : (d.port p).takes flit d.clock = (if flitVc flit = 3 then x else x.gather (((flitBytes flit).drop 8).take 240)).control 2 := by
    rw [Port.takes_data hty hack, Port.data, if_pos (by rw [hseq, BitVec.sub_self]; rfl), hx]
  obtain ⟨⟨hout, hrx, htx, hfreed, hst'⟩, hdone, hmore⟩ := x.gather_spec (((flitBytes flit).drop 8).take 240)
  obtain ⟨hport, hslots⟩ := flitIn_idle (m := m) hp hst hgood (by
    rw [htake]
    split
    · exact hx ▸ hstat
    · exact hst'.trans (hx ▸ hstat))
  unfold Dev.Answers
  rw [hport, htake]
  unfold Port.control
  dsimp only
  by_cases hvc : flitVc flit = 3
  · rw [if_pos hvc, hx]
    exact ⟨⟨rfl, rfl, hslots⟩, fun h => absurd hvc h, fun h => absurd hvc h⟩
  · rw [if_neg hvc, hout, hrx, htx, hfreed]
    rw [hx] at hdone hmore ⊢
    exact ⟨⟨rfl, rfl, hslots⟩, fun _ => hdone, fun _ => hmore⟩

theorem flitReceive_outOfOrder : Event (.flitReceive p flit) (fun _ d => d.PortGood p flit 1 ∧ flitSeq flit ≠ (d.port p).rxSeq + 1#12)
    (fun _ d e => Dev.Answers d e p (if 2048 ≤ (flitSeq flit - ((d.port p).rxSeq + 1#12)).toNat then 2 else 3) (d.port p).rxSeq (d.port p).freed ∧
      (e.port p).inBytes = (d.port p).inBytes) := by
  refine onDev_event (exec_flitReceive p flit) (fun m d ⟨⟨hp, hst, hgood, hty, hack, hstat⟩, hseq⟩ => ?_)
  have htake : (d.port p).takes flit d.clock =
      (d.port p).control (if 2048 ≤ (flitSeq flit - ((d.port p).rxSeq + 1#12)).toNat then 2 else 3) := by
    rw [Port.takes_data hty hack, Port.data, if_neg (fun h => hseq ?_)]
    · split <;> rfl
    · have h0 : flitSeq flit - ((d.port p).rxSeq + 1#12) = 0#12 := BitVec.eq_of_toNat_eq h
      exact BitVec.sub_eq_iff_eq_add.mp h0 |>.trans (BitVec.zero_add _)
  obtain ⟨hport, hslots⟩ := flitIn_idle (m := m) hp hst hgood (by rw [htake]; exact hstat)
  unfold Dev.Answers
  rw [hport, htake]
  exact ⟨⟨rfl, rfl, hslots⟩, rfl⟩

theorem flitReceive_bad : Event (.flitReceive p flit) (fun _ d => p < 12 ∧ (d.port p).st = 1 ∧ flitGood flit = false)
    (fun _ d e => Dev.Answers d e p 3 (d.port p).rxSeq (d.port p).freed) := by
  refine onDev_event (exec_flitReceive p flit) (fun m d ⟨hp, hst, hbad⟩ => ?_)
  rw [flitIn, if_neg (by omega), if_pos (by simp [hbad]), Dev.Answers, Dev.port_updPort]
  exact ⟨rfl, rfl, d.sameSlots_updPort p _⟩

theorem flitReceive_replay : Event (.flitReceive p flit) (fun _ d => d.PortGood p flit 3 ∧ (d.port p).fails < 16)
    (fun _ d e => (e.port p).out = (d.port p).out ++ (d.port p).sent ∧
      (e.port p).replay.toNat = ((d.port p).replay.toNat + (d.port p).sent.length) % 2 ^ 64 ∧ (e.port p).fails = (d.port p).fails + 1) := by
  refine onDev_event (exec_flitReceive p flit) (fun m d ⟨⟨hp, hst, hgood, hty, hack, hstat⟩, hfails⟩ => ?_)
  have htake : (d.port p).takes flit d.clock = { d.port p with fails := (d.port p).fails + 1 }.replayAll := by
    rw [Port.takes_nak hty hack, if_neg (by omega)]
  obtain ⟨hport, -⟩ := flitIn_idle (m := m) hp hst hgood (by rw [htake]; exact hstat)
  rw [hport, htake]
  refine ⟨rfl, ?_, rfl⟩
  change ((d.port p).replay + BitVec.ofNat 64 (d.port p).sent.length).toNat = _
  rw [BitVec.toNat_add, BitVec.toNat_ofNat, Nat.add_mod_mod]

theorem flitReceive_retrain : Event (.flitReceive p flit) (fun _ d => d.PortGood p flit 3 ∧ 16 ≤ (d.port p).fails)
    (fun _ d e => (e.port p).st = 2 ∧ (e.port p).out = (d.port p).out) := by
  refine onDev_event (exec_flitReceive p flit) (fun m d ⟨⟨hp, hst, hgood, hty, hack, hstat⟩, hfails⟩ => ?_)
  have htake : (d.port p).takes flit d.clock = { d.port p with fails := (d.port p).fails + 1 }.withSt 2 := by
    rw [Port.takes_nak hty hack, if_pos (by omega)]
  obtain ⟨hport, -⟩ := flitIn_idle (m := m) hp hst hgood (by rw [htake]; exact hstat)
  rw [hport, htake]
  exact ⟨Port.st_withSt _ 2 (by decide), rfl⟩

theorem flitReceive_ack : Event (.flitReceive p flit)
    (fun _ d => p < 12 ∧ (d.port p).st = 1 ∧ flitGood flit = true ∧ flitType flit = 2 ∧ (d.port p).stat = none ∧ (d.port p).toSend = [] ∧
      (d.port p).covered (flitAck flit) ≠ 0)
    (fun _ d e => (e.port p).sent = (d.port p).sent.drop ((d.port p).covered (flitAck flit)) ∧ (e.port p).fails = 0 ∧
      (e.port p).out = (d.port p).out ∧ d.sameSlots e) := by
  refine onDev_event (exec_flitReceive p flit) (fun m d ⟨hp, hst, hgood, hty, hstat, hsend, hack⟩ => ?_)
  have htake := (Port.takes_ack hty d.clock).trans (Port.acked_idle hack hsend d.clock)
  obtain ⟨hport, hslots⟩ := flitIn_idle (m := m) hp hst hgood (by rw [htake]; exact hstat)
  rw [hport, htake]
  exact ⟨rfl, rfl, rfl, hslots⟩

theorem flitReceive_done (a : W64) : Event (.flitReceive p flit)
    (fun _ d => p < 12 ∧ (d.port p).st = 1 ∧ flitGood flit = true ∧ flitType flit = 2 ∧ (d.port p).stat = some a ∧
      (d.port p).toSend = [] ∧ (d.port p).sent ≠ [] ∧ (d.port p).covered (flitAck flit) = (d.port p).sent.length ∧ a.toNat % 8 = 0 ∧
      (isHbm a.toNat || isLpddr a.toNat) = true)
    (fun _ d e => (e.port p).sent = [] ∧ (e.port p).stat = none ∧ ∃ g y, g ∈ e.groups ∧ y ∈ g.lines ∧ y.va = lineOf a.toNat ∧
      ∃ v : Byte, (v = 0#8 ∨ v = 2#8 ∧ (d.port p).vc ≠ 2) ∧ ∀ k, k < 8 → y.mask.getLsbD (a.toNat % 128 + k) = true ∧
        Line.byte y.data (a.toNat % 128 + k) = if k = 0 then v else 0#8) := by
  refine onDev_event (exec_flitReceive p flit) (fun m d ⟨hp, hst, hgood, hty, hstat, hsend, hsent, hack, hal, hin⟩ => ?_)
  have hne : (d.port p).covered (flitAck flit) ≠ 0 := fun h => hsent (List.length_eq_zero_iff.mp (hack ▸ h))
  obtain ⟨x, hx⟩ : ∃ x : Port, x = { d.port p with sent := [], fails := 0, ackAt := d.clock } := ⟨_, rfl⟩
  have htake : (d.port p).takes flit d.clock = x := by
    rw [Port.takes_ack hty, Port.acked_idle hne hsend, hack, List.drop_length, hx]
  rw [flitIn_eq hp hst hgood, htake]
  obtain ⟨e, he⟩ : ∃ e, e = d.updPort p (fun _ => x) := ⟨_, rfl⟩
  have hport : e.port p = x := he ▸ d.port_updPort p _
  obtain ⟨v, hv, hval⟩ : ∃ v : Byte, (v = 0#8 ∨ v = 2#8 ∧ (d.port p).vc ≠ 2) ∧
      (if x.vc ≠ 2 ∧ Config.partnerRefuses e.count = true then 2 else 0) = v.toNat := by
    have hvc : x.vc = (d.port p).vc := hx ▸ rfl
    by_cases h : x.vc ≠ 2 ∧ Config.partnerRefuses e.count = true
    · exact ⟨2#8, .inr ⟨rfl, hvc ▸ h.1⟩, if_pos h⟩
    · exact ⟨0#8, .inl rfl, if_neg h⟩
  have hdone : e.portDone m p = { ((e.updPort p (fun x => { x with stat := none })).portStatus m a.toNat v.toNat) with count := e.count + 1 } := by
    unfold Dev.portDone
    dsimp only
    rw [hport, show x.stat = some a from hx ▸ hstat]
    dsimp only
    rw [if_pos (by rw [hx]; simp [hsend]), hval]
  obtain ⟨hmarks, hports⟩ := (e.updPort p (fun x => { x with stat := none })).portStatus_marks m hal hin v
  have hend : (e.portDone m p).port p = { x with stat := none } := by
    rw [hdone]
    exact (Dev.port_of_ports hports p).trans ((e.port_updPort p _).trans (by rw [hport]))
  rw [← he, hend]
  obtain ⟨g, y, hg, hy, hva, hbytes⟩ := hmarks
  exact ⟨hx ▸ rfl, rfl, g, y, hdone ▸ hg, hy, hva, v, hv, hbytes⟩

end

/-! ### The end of a retrain (R355) -/

theorem exec_portRetrain_up (p : Nat) (narrow : Bool) (m : Memory) (d : Dev) (hp : p < 12) (hst : (d.port p).st = 2) :
    exec (.portRetrain p true narrow) ⟨m, d⟩ = .next ⟨m, d.updPort p (fun _ => { d.port p with
      retrain := (d.port p).retrain + 1#32, fails := 0, ackAt := d.clock
      state := ((d.port p).state &&& 0xFFFFFE0C#32) ||| (if narrow then 0x140#32 else (d.port p).state &&& 0x1F0#32) ||| 1#32 }.replayAll)⟩ := by
  unfold exec execPortRetrain onDev
  dsimp only
  rw [if_neg (by omega)]
  rfl

theorem exec_portRetrain_lost (p : Nat) (narrow : Bool) (m : Memory) (d : Dev) (hp : p < 12) (hst : (d.port p).st = 2) :
    ∃ e : Dev, exec (.portRetrain p false narrow) ⟨m, d⟩ = .next ⟨m, e.updPort p (fun _ =>
      { { d.port p with retrain := (d.port p).retrain + 1#32, fails := 0, ackAt := d.clock }.withSt 3 with
        stat := none, sent := [], toSend := [], inBytes := [], inWin := (0, 0) })⟩ := by
  unfold exec execPortRetrain onDev
  dsimp only
  rw [if_neg (by omega)]
  exact ⟨_, rfl⟩

theorem upState_low (w lanes : W32) (hlanes : lanes.extractLsb' 0 2 = 0#2) :
    (((w &&& 0xFFFFFE0C#32) ||| lanes ||| 1#32).extractLsb' 0 2).toNat = 1 := by
  have hw : (w &&& 0xFFFFFE0C#32).extractLsb' 0 2 = 0#2 := by
    apply BitVec.eq_of_getLsbD_eq
    intro i hi
    rcases (by omega : i = 0 ∨ i = 1) with rfl | rfl <;> simp [BitVec.getLsbD_extractLsb']
  rw [BitVec.extractLsb'_or, BitVec.extractLsb'_or, hw, hlanes]
  rfl

section
variable (p : Nat) (narrow : Bool)

theorem portRetrain_up : Event (.portRetrain p true narrow) (fun _ d => p < 12 ∧ (d.port p).st = 2)
    (fun _ d e => (e.port p).st = 1 ∧ (e.port p).retrain = (d.port p).retrain + 1#32 ∧ (e.port p).out = (d.port p).out ++ (d.port p).sent ∧
      (e.port p).fails = 0 ∧ d.sameSlots e) := by
  rintro ⟨m, d⟩ ⟨hp, hst⟩
  refine ⟨_, exec_portRetrain_up p narrow m d hp hst, fun _ => rfl, ?_⟩
  dsimp only
  rw [Dev.port_updPort]
  refine ⟨upState_low _ _ ?_, rfl, rfl, rfl, d.sameSlots_updPort p _⟩
  cases narrow
  · apply BitVec.eq_of_getLsbD_eq
    intro i hi
    rcases (by omega : i = 0 ∨ i = 1) with rfl | rfl <;> simp [BitVec.getLsbD_extractLsb']
  · rw [if_pos rfl]
    decide

theorem portRetrain_lost : Event (.portRetrain p false narrow) (fun _ d => p < 12 ∧ (d.port p).st = 2)
    (fun _ d e => (e.port p).st = 3 ∧ (e.port p).retrain = (d.port p).retrain + 1#32 ∧ (e.port p).sent = [] ∧ (e.port p).stat = none ∧
      (e.port p).inBytes = []) := by
  rintro ⟨m, d⟩ ⟨hp, hst⟩
  obtain ⟨e, he⟩ := exec_portRetrain_lost p narrow m d hp hst
  refine ⟨_, he, fun _ => rfl, ?_⟩
  dsimp only
  rw [Dev.port_updPort]
  exact ⟨withSt_state _ 3 (by decide), rfl, rfl, rfl, rfl⟩

end

/-! ### A partner's work (R356) -/

/-- The work of a partner that is next, taken off its port. -/
def Dev.partnerTaken (d : Dev) (p : Nat) (rest : List (List Byte × (Nat × Nat))) : Dev := d.updPort p (fun x => { x with inDone := rest })

section
variable {p : Nat} {bs : List Byte} {win : Nat × Nat} {rest : List (List Byte × (Nat × Nat))}

/-- The work lies in the window and in the first tier. -/
def WorkInside (bs : List Byte) (win : Nat × Nat) : Prop :=
  win.1 ≤ pdDst bs ∧ pdDst bs + pdLen bs ≤ win.1 + win.2 ∧ isHbm (pdDst bs) = true ∧ isHbm (pdDst bs + pdLen bs - 1) = true

theorem workInside_iff : (inWindow win (pdDst bs) (pdLen bs) && inTier (pdDst bs) (pdLen bs)) = true ↔ WorkInside bs win := by
  simp [inWindow, inTier, WorkInside, and_assoc]

/-- The lines of a transfer. -/
def workLines (bs : List Byte) : List GLine :=
  (cutLines (pdLen bs + 1) (pdDst bs) (bs.drop 64)).map (fun x => ⟨x.1, x.1, x.2.1, x.2.2, none⟩)

/-- The update that a word of a reduction leaves as. -/
def workUpd (p : Nat) (bs : List Byte) (i : Nat) : Upd :=
  ⟨9 + p, 0, 2 ^ 20 + p, pdDst bs + 4 * i, (if pdOp bs = 3 then 2 else 0), 0, [BitVec.ofNat 32 (at_ (bs.drop 64) (4 * i) 4)], [(2 ^ 32 + p, 1)], []⟩

def applyWork (p : Nat) (m : Memory) (d : Dev) : Dev :=
  match (d.port p).inDone with
  | [] => d
  | (bs, win) :: rest =>
    let d := d.partnerTaken p rest
    let n := pdLen bs
    let dst := pdDst bs
    let inside := inWindow win dst n && inTier dst n
    match pdOp bs with
    | 1 => if !inside then d else d.addGroup m (workLines bs) 32 0 none [.nothing]
    | 2 | 3 => if !inside || dst % 4 != 0 then d else (List.range (n / 4)).foldl (fun d i => d.send 0 (.spredMerge (9 + p) (workUpd p bs i))) d
    | 4 =>
      { d.send 0 (.messageArrival ⟨dst % 32, 0xFFFF, BitVec.ofNat 512 (leNat ((bs.drop 64).take 64)), 0xFFFC,
          (Config.freeAddr d.count).toNat % 4096, none, none⟩) with count := d.count + 2 }
    | _ => d

theorem exec_partnerTransferApply (p : Nat) (s : State) : exec (.partnerTransferApply p) s = onDev (applyWork p) s := by
  unfold exec execPartnerTransferApply
  rfl

theorem Dev.port_partnerTaken (d : Dev) (p : Nat) (rest : List (List Byte × (Nat × Nat))) : ((d.partnerTaken p rest).port p).inDone = rest :=
  congrArg Port.inDone (d.port_updPort p _)

section
variable {m : Memory} {d : Dev} (hin : (d.port p).inDone = (bs, win) :: rest)
include hin

theorem applyWork_transfer (hop : pdOp bs = 1) (hi : WorkInside bs win) :
    applyWork p m d = (d.partnerTaken p rest).addGroup m (workLines bs) 32 0 none [.nothing] := by
  unfold applyWork
  rw [hin]
  dsimp only
  rw [hop, workInside_iff.mpr hi]
  rfl

theorem applyWork_reduction (hop : pdOp bs = 2 ∨ pdOp bs = 3) (hi : WorkInside bs win) (hal : pdDst bs % 4 = 0) : applyWork p m d =
    (List.range (pdLen bs / 4)).foldl (fun d i => d.send 0 (.spredMerge (9 + p) (workUpd p bs i))) (d.partnerTaken p rest) := by
  unfold applyWork
  rw [hin]
  dsimp only
  rw [workInside_iff.mpr hi]
  rcases hop with hop | hop
  · rw [hop]
    simp [hal]
  · rw [hop]
    simp [hal]

theorem applyWork_outside (hop : pdOp bs < 4) (hi : ¬WorkInside bs win) : applyWork p m d = d.partnerTaken p rest := by
  have hout : (inWindow win (pdDst bs) (pdLen bs) && inTier (pdDst bs) (pdLen bs)) = false := by
    rw [← Bool.not_eq_true, workInside_iff]
    exact hi
  unfold applyWork
  rw [hin]
  dsimp only
  rw [hout]
  rcases (by omega : pdOp bs = 0 ∨ pdOp bs = 1 ∨ pdOp bs = 2 ∨ pdOp bs = 3) with h | h | h | h <;> rw [h] <;> rfl

end

theorem partner_transfer : Event (.partnerTransferApply p)
    (fun _ d => ((d.port p).inDone = (bs, win) :: rest ∧ pdOp bs = 1 ∧ bs.length = 64 + pdLen bs) ∧ WorkInside bs win)
    (fun _ _ e => (e.port p).inDone = rest ∧ ∀ k b, k < pdLen bs → bs[64 + k]? = some b → ∃ g y, g ∈ e.groups ∧ g.fn = 32 ∧ y ∈ g.lines ∧
      y.va = lineOf (pdDst bs + k) ∧ y.pa = y.va ∧ y.mask.getLsbD ((pdDst bs + k) % 128) = true ∧ Line.byte y.data ((pdDst bs + k) % 128) = b) := by
  refine onDev_event (exec_partnerTransferApply p) (fun m d ⟨⟨hin, hop, hlen⟩, hi⟩ => ?_)
  rw [applyWork_transfer hin hop hi]
  refine ⟨(congrArg Port.inDone (Dev.port_of_ports (Dev.ports_addGroup _ _ _ _ _ _ _) p)).trans (d.port_partnerTaken p rest), fun k b hk hb => ?_⟩
  have hbody : (bs.drop 64).length = pdLen bs := by rw [List.length_drop]; omega
  obtain ⟨t, ht, hline, hmask, hbyte⟩ := cutLines_byte (k := pdLen bs + 1) (va := pdDst bs) (j := k) (bs := bs.drop 64) (by omega) (by omega)
  have hmem : (⟨t.1, t.1, t.2.1, t.2.2, none⟩ : GLine) ∈ workLines bs := List.mem_map.mpr ⟨t, ht, rfl⟩
  obtain ⟨g, hg, hl, hfn⟩ := Dev.addGroup_fn (d.partnerTaken p rest) m (workLines bs) 32 0 none [.nothing] (List.ne_nil_of_mem hmem) (fun l hl => by
    obtain ⟨x, -, rfl⟩ := List.mem_map.mp hl
    rfl)
  refine ⟨g, _, hg, hfn, hl ▸ hmem, hline, rfl, hmask, hbyte.trans ?_⟩
  rw [List.getElem_drop]
  exact List.getElem_eq_iff _ |>.mpr hb

theorem Dev.sameSlots_foldl_send {α : Type} (d : Dev) (ev : α → Ev) (xs : List α) : d.sameSlots (xs.foldl (fun d x => d.send 0 (ev x)) d) :=
  List.foldlRecOn (motive := fun e : Dev => d.sameSlots e) _ _ (fun _ _ => rfl) (fun _ h _ _ => h)

theorem Dev.ports_foldl_send {α : Type} (d : Dev) (ev : α → Ev) (xs : List α) : (xs.foldl (fun d x => d.send 0 (ev x)) d).ports = d.ports :=
  List.foldlRecOn (motive := fun e : Dev => e.ports = d.ports) _ _ rfl (fun _ h _ _ => h)

theorem partner_reduction (op : Nat) (hop : op = 2 ∨ op = 3) : Event (.partnerTransferApply p)
    (fun _ d => ((d.port p).inDone = (bs, win) :: rest ∧ pdOp bs = op ∧ bs.length = 64 + pdLen bs) ∧ WorkInside bs win ∧ pdDst bs % 4 = 0)
    (fun _ d e => (e.port p).inDone = rest ∧ d.sameSlots e ∧ ∀ i, i < pdLen bs / 4 → ∃ u : Upd, e.coming d.clock (.spredMerge (9 + p) u) ∧
      u.vals = [BitVec.ofNat 32 (leNat ((bs.drop (64 + 4 * i)).take 4))]) := by
  refine onDev_event (exec_partnerTransferApply p) (fun m d ⟨⟨hin, hop', _⟩, hi, hal⟩ => ?_)
  rw [applyWork_reduction hin (hop' ▸ hop) hi hal]
  refine ⟨(congrArg Port.inDone (Dev.port_of_ports (Dev.ports_foldl_send _ _ _) p)).trans (d.port_partnerTaken p rest),
    (d.partnerTaken p rest).sameSlots_foldl_send _ _, fun i hlt => ⟨workUpd p bs i, ?_, ?_⟩⟩
  · exact (Dev.coming_foldl_send_on (fun i => .spredMerge (9 + p) (workUpd p bs i)) (fun _ => 0) _ (d.partnerTaken p rest) rfl).1 i (List.mem_range.mpr hlt)
  · rw [workUpd, at_, List.drop_drop]

theorem partner_message : Event (.partnerTransferApply p)
    (fun _ d => (d.port p).inDone = (bs, win) :: rest ∧ pdOp bs = 4 ∧ bs.length = 64 + pdLen bs)
    (fun _ d e => (e.port p).inDone = rest ∧ d.sameSlots e ∧ ∃ y : Msg, e.coming d.clock (.messageArrival y) ∧ y.terr = pdDst bs % 32 ∧
      y.rank = 0xFFFF ∧ y.data = BitVec.ofNat 512 (leNat ((bs.drop 64).take 64))) := by
  refine onDev_event (exec_partnerTransferApply p) (fun m d ⟨hin, hop, _⟩ => ?_)
  unfold applyWork
  rw [hin]
  dsimp only
  rw [hop]
  exact ⟨d.port_partnerTaken p rest, fun _ _ => rfl, _, Dev.coming_send (d.partnerTaken p rest) 0 _, rfl, rfl, rfl⟩

theorem partner_outside : Event (.partnerTransferApply p)
    (fun _ d => (∃ op, op < 4 ∧ (d.port p).inDone = (bs, win) :: rest ∧ pdOp bs = op ∧ bs.length = 64 + pdLen bs) ∧ ¬WorkInside bs win)
    (fun _ d e => (e.port p).inDone = rest ∧ d.sameSlots e ∧ e.groups = d.groups ∧ e.net = d.net) := by
  refine onDev_event (exec_partnerTransferApply p) (fun m d ⟨⟨op, hlt, hin, hop, _⟩, hi⟩ => ?_)
  rw [applyWork_outside hin (hop ▸ hlt) hi]
  exact ⟨d.port_partnerTaken p rest, fun _ _ => rfl, rfl, rfl⟩

theorem partner_none : Event (.partnerTransferApply p) (fun _ d => (d.port p).inDone = []) (fun _ d e => e = d) := by
  refine onDev_event (exec_partnerTransferApply p) (fun m d hin => ?_)
  unfold applyWork
  rw [hin]

end

/-- Settles O49: each clause is the event's lemma. -/
theorem extan : Obligations.Extan := by
  unfold Obligations.Extan
  refine ⟨fun p v flit => ?_, fun p bs win rest => ⟨partner_transfer, partner_reduction, partner_message, partner_outside, partner_none⟩⟩
  refine ⟨⟨?_, ?_⟩, ⟨?_, ?_⟩, ⟨?_, ?_⟩, ⟨?_, ?_⟩, portRingWrite_base p v, portRingWrite_length p v, portTailWrite_taken p v, flitReceive_inOrder p flit,
    flitReceive_outOfOrder p flit, flitReceive_bad p flit, flitReceive_replay p flit, flitReceive_retrain p flit, flitReceive_ack p flit,
    flitReceive_done p flit, fun narrow => ⟨portRetrain_up p narrow, portRetrain_lost p narrow⟩⟩
  · exact portTake_works (i := .portTransfer p) (ops := fun o => o != 2 && o != 3 && o != 4) (fun _ => by unfold exec execPortTransfer; rfl)
      (fun o ho => by simpa [and_assoc] using ho) 0 (fun o ho h1 h4 => if_pos (by omega))
  · exact portTake_status (i := .portTransfer p) (ops := fun o => o != 2 && o != 3 && o != 4) (fun _ => by unfold exec execPortTransfer; rfl)
      (fun o ho => by simpa [and_assoc] using ho)
  · exact portTake_works (i := .portReduceI32 p) (ops := (· == 2)) (fun _ => by unfold exec execPortReduceI32; rfl)
      (fun o ho => by simpa using ho) 1 (fun o ho _ _ => by rw [ho]; rfl)
  · exact portTake_status (i := .portReduceI32 p) (ops := (· == 2)) (fun _ => by unfold exec execPortReduceI32; rfl)
      (fun o ho => by simpa using ho)
  · exact portTake_works (i := .portReduceF32 p) (ops := (· == 3)) (fun _ => by unfold exec execPortReduceF32; rfl)
      (fun o ho => by simpa using ho) 1 (fun o ho _ _ => by rw [ho]; rfl)
  · exact portTake_status (i := .portReduceF32 p) (ops := (· == 3)) (fun _ => by unfold exec execPortReduceF32; rfl)
      (fun o ho => by simpa using ho)
  · exact portTake_works (i := .portMessage p) (ops := (· == 4)) (fun _ => by unfold exec execPortMessage; rfl)
      (fun o ho => by simpa using ho) 2 (fun o ho _ _ => by rw [ho]; rfl)
  · exact portTake_status (i := .portMessage p) (ops := (· == 4)) (fun _ => by unfold exec execPortMessage; rfl)
      (fun o ho => by simpa using ho)

end Sys2Proof.Machine
end

section
/-! PROOFS. Errors, scrubs and bridges (O50) -/

namespace Sys2Proof.Machine

/-! ### Soft errors (R362, R363) -/

/-- The log keeps a record while fewer than 256 wait. -/
def Dev.Logs (d e : Dev) (x : ErrRec) : Prop := e.errLog = if d.errLog.length < 256 then d.errLog ++ [x] else d.errLog

theorem Dev.logs_logError {d e : Dev} (h : e.errLog = d.errLog) (x : ErrRec) : Dev.Logs d (e.logError x) x := by
  unfold Dev.Logs Dev.logError
  rw [h]
  by_cases hlen : d.errLog.length < 256
  · rw [if_neg (by omega), if_pos hlen]
  · rw [if_pos (by omega), if_neg hlen]
    exact h

theorem Dev.cores_logError (d : Dev) (x : ErrRec) : (d.logError x).cores = d.cores := by
  unfold Dev.logError
  split <;> rfl

theorem Dev.core_logError (d : Dev) (x : ErrRec) (h : Nat) : (d.logError x).core h = d.core h := by rw [Dev.core, d.cores_logError, Dev.core]

theorem Dev.sameSlots_logError {d e : Dev} (h : d.sameSlots e) (x : ErrRec) : d.sameSlots (e.logError x) := fun j n => by
  rw [Dev.slot, e.core_logError, ← Dev.slot, h]

theorem Dev.linePoison_logError (d : Dev) (x : ErrRec) : (d.logError x).linePoison = d.linePoison := by
  unfold Dev.logError
  split <;> rfl

/-- An entry is among those that a list holds once it is put there. -/
theorem mem_notedIn (l : List Nat) (r : Nat) : r ∈ if l.contains r then l else l ++ [r] := by
  split
  · next h => exact List.contains_iff_mem.mp h
  · exact List.mem_append_right _ (List.mem_singleton.mpr rfl)

section
variable (h n r w va pa : Nat)

theorem correctableError_counts (dist str : Nat) : Event (.correctableError dist str) (fun _ _ => True)
    (fun _ d e => (e.errCount.get 0#64 (256 * dist + str)).toNat = ((d.errCount.get 0#64 (256 * dist + str)).toNat + 1) % 2 ^ 64 ∧ d.sameSlots e) := by
  refine onDev_event (f := fun _ x => { x with errCount := x.errCount.upd 0#64 (256 * dist + str) (fun v => v + 1#64) })
    (fun _ => by unfold exec execCorrectableError; rfl) (fun m d _ => ⟨?_, fun _ _ => rfl⟩)
  rw [AMap.upd, AMap.get_put_self, BitVec.toNat_add]
  rfl

/-- An error of what a core keeps: the core changes, no slot does, and the error is logged. -/
theorem coreError {e : UncErr} {f : Core → Core} {x : Dev → ErrRec} (hs : ∀ c n, (f c).slot n = c.slot n)
    (he : ∀ s, exec (.uncorrectableError e) s = onDev (fun _ d => (d.updCore h f).logError (x d)) s) : Event (.uncorrectableError e) (fun _ _ => True)
    (fun _ d e => e.core h = f (d.core h) ∧ d.sameSlots e ∧ Dev.Logs d e (x d)) :=
  onDev_event he (fun _ d _ => ⟨((d.updCore h f).core_logError _ h).trans (d.core_updCore_self h f),
    Dev.sameSlots_logError (fun j n => Dev.slot_updCore_of hs d h j n) _, Dev.logs_logError rfl _⟩)

theorem Event.mono {i : Instr} {pre : Memory → Dev → Prop} {post post' : Memory → Dev → Dev → Prop} (h : Event i pre post)
    (hp : ∀ m d e, pre m d → post m d e → post' m d e) : Event i pre post' := fun s hs => by
  obtain ⟨t, ht, hm, hpost⟩ := h s hs
  exact ⟨t, ht, hm, hp _ _ _ hs hpost⟩

theorem regfileError : Event (.uncorrectableError (.regfile h r)) (fun _ _ => True)
    (fun _ d e => r ∈ (e.core h).rfPoison ∧ d.sameSlots e ∧ ∃ g, Dev.Logs d e ⟨1, districtOf h, r, g⟩) :=
  (coreError h (f := fun c => { c with rfPoison := if c.rfPoison.contains r then c.rfPoison else c.rfPoison ++ [r] })
    (x := fun d => ⟨1, districtOf h, r, (((d.core h).entryOwner r).map Slot.gtid).getD 0⟩) (fun _ _ => rfl)
    (fun _ => by unfold exec execUncorrectableError; rfl)).mono (fun _ _ _ _ ⟨hcore, hslots, hlogs⟩ => ⟨hcore ▸ mem_notedIn _ r, hslots, _, hlogs⟩)

theorem lwordError : Event (.uncorrectableError (.lword h w)) (fun _ _ => True)
    (fun _ d e => w ∈ (e.core h).lsPoison ∧ d.sameSlots e ∧ Dev.Logs d e ⟨2, districtOf h, 4 * w, 0#48⟩) :=
  (coreError h (f := fun c => { c with lsPoison := if c.lsPoison.contains w then c.lsPoison else c.lsPoison ++ [w] })
    (x := fun _ => ⟨2, districtOf h, 4 * w, 0⟩) (fun _ _ => rfl)
    (fun _ => by unfold exec execUncorrectableError; rfl)).mono (fun _ _ _ _ ⟨hcore, hslots, hlogs⟩ => ⟨hcore ▸ mem_notedIn _ w, hslots, hlogs⟩)

theorem l1Error : Event (.uncorrectableError (.l1 h va)) (fun _ _ => True)
    (fun _ d e => (e.core h).l1.find? (lineOf va) = none ∧ d.sameSlots e) :=
  (coreError h (f := fun c => c.dropLine va) (x := fun _ => ⟨0, districtOf h, va, 0⟩) (fun _ _ => rfl)
    (fun _ => by unfold exec execUncorrectableError; rfl)).mono (fun _ _ _ _ ⟨hcore, hslots, _⟩ => ⟨hcore ▸ (AMap.find?_erase _ _ _).trans (if_pos rfl), hslots⟩)

theorem icacheError : Event (.uncorrectableError (.icache h va)) (fun _ _ => True)
    (fun _ d e => (e.core h).ic.find? (lineOf va) = none ∧ d.sameSlots e) :=
  (coreError h (f := fun c => { c with ic := c.ic.erase (lineOf va) }) (x := fun _ => ⟨0, districtOf h, va, 0⟩) (fun _ _ => rfl)
    (fun _ => by unfold exec execUncorrectableError; rfl)).mono (fun _ _ _ _ ⟨hcore, hslots, _⟩ => ⟨hcore ▸ (AMap.find?_erase _ _ _).trans (if_pos rfl), hslots⟩)

theorem Dev.poisonLine_spec (d : Dev) : lineOf pa ∈ (d.poisonLine pa).linePoison ∧ d.sameSlots (d.poisonLine pa) ∧
    Dev.Logs d (d.poisonLine pa) ⟨d.lineSub pa, homeOf pa / 64, pa, 0#48⟩ := by
  unfold Dev.poisonLine
  refine ⟨?_, Dev.sameSlots_logError (fun _ _ => rfl) _, Dev.logs_logError rfl _⟩
  rw [Dev.linePoison_logError]
  exact mem_notedIn _ _

theorem Dev.lineSub_cases (d : Dev) : d.lineSub pa = 3 ∨ d.lineSub pa = 4 ∨ d.lineSub pa = 5 := by
  unfold Dev.lineSub
  split
  · exact .inl rfl
  · split
    · exact .inr (.inl rfl)
    · exact .inr (.inr rfl)

theorem lineError : Event (.uncorrectableError (.line pa)) (fun _ _ => True)
    (fun _ d e => lineOf pa ∈ e.linePoison ∧ d.sameSlots e ∧ ∃ sub, (sub = 3 ∨ sub = 4 ∨ sub = 5) ∧ Dev.Logs d e ⟨sub, homeOf pa / 64, pa, 0#48⟩) := by
  refine onDev_event (f := fun _ d => d.poisonLine pa) (fun _ => by unfold exec execUncorrectableError; rfl) (fun m d _ => ?_)
  obtain ⟨hmem, hslots, hlogs⟩ := d.poisonLine_spec pa
  exact ⟨hmem, hslots, _, d.lineSub_cases pa, hlogs⟩

theorem syncError : Event (.uncorrectableError (.sync h n va)) (fun _ _ => True)
    (fun _ d e => (∀ x, x ∈ (e.slot h n).leases → x.va = lineOf va → x.broken = true) ∧ (e.slot h n).pc = (d.slot h n).pc ∧
      ∀ j, (e.slot h n).A j = (d.slot h n).A j ∧ (e.slot h n).V j = (d.slot h n).V j) := by
  refine onDev_event (f := fun _ d => (d.breakLeases h n 2 (fun r => r.va == lineOf va)).logError ⟨0, districtOf h, va, (d.slot h n).gtid⟩)
    (fun _ => by unfold exec execUncorrectableError; rfl) (fun m d _ => ?_)
  rw [Dev.sameSlots_logError (fun _ _ => rfl) _ h n]
  refine ⟨fun x hx hva => ?_, ?_⟩
  · rw [Dev.leases_breakLeases] at hx
    obtain ⟨l, -, rfl⟩ := List.mem_map.mp hx
    by_cases hl : l.broken = true
    · simp [hl]
    · by_cases hv : l.va = lineOf va
      · simp [hl, hv]
      · simp [hv] at hva
  · obtain ⟨ls, t, hs⟩ := d.slot_breakLeases h n 2 (fun r => r.va == lineOf va)
    rw [hs]
    exact ⟨rfl, fun _ => ⟨rfl, rfl⟩⟩

theorem patrolScrub_bad : Event (.patrolScrub pa true) (fun _ _ => True) (fun _ d e => lineOf pa ∈ e.linePoison ∧ d.sameSlots e) := by
  refine onDev_event (fun _ => by unfold exec execPatrolScrub; rfl) (fun m d _ => ?_)
  split
  · obtain ⟨hmem, hslots, -⟩ := d.poisonLine_spec pa
    exact ⟨hmem, hslots⟩
  · next hin => exact ⟨by simpa using hin, fun _ _ => rfl⟩

theorem patrolScrub_good : Event (.patrolScrub pa false) (fun _ _ => True) (fun _ d e => e = d) :=
  onDev_event (fun _ => by unfold exec execPatrolScrub; rfl) (fun _ _ _ => rfl)

end
/-! ### What a quiesce leaves in place (R368) -/

theorem AMap.mem_keys_iff {α : Type} (m : AMap α) (k : Nat) : k ∈ m.keys ↔ (m.find? k).isSome = true := by
  rw [AMap.find?_eq_map, Option.isSome_map, List.find?_isSome]
  unfold AMap.keys
  rw [List.mem_map]
  exact ⟨fun ⟨e, he, hk⟩ => ⟨e, he, beq_iff_eq.mpr hk⟩, fun ⟨e, he, hk⟩ => ⟨e, he, beq_iff_eq.mp hk⟩⟩

theorem AMap.mem_keys_put {α : Type} {m : AMap α} {j : Nat} (h : j ∈ m.keys) (k : Nat) (v : α) : j ∈ (m.put k v).keys := by
  rw [AMap.mem_keys_iff] at h ⊢
  by_cases hj : j = k
  · rw [hj, AMap.find_put_self]
    rfl
  · rw [AMap.find_put_ne _ _ _ _ hj]
    exact h

theorem Dev.mem_launchCores {d : Dev} {lk h : Nat} : h ∈ d.launchCores lk ↔ h ∈ d.cores.keys ∧ ∃ l, d.launch? lk = some l ∧ l.has h = true := by
  unfold Dev.launchCores
  cases d.launch? lk with
  | none => simp
  | some l => simp

/-- From d to e every launch keeps its cores, and the bridges stay. -/
structure Dev.KeepsCores (d e : Dev) : Prop where
  cores : ∀ lk h, h ∈ d.launchCores lk → h ∈ e.launchCores lk
  bridges : e.bridges = d.bridges

namespace Dev.KeepsCores

theorem refl (d : Dev) : d.KeepsCores d := ⟨fun _ _ h => h, rfl⟩
theorem trans {d e f : Dev} (h : d.KeepsCores e) (g : e.KeepsCores f) : d.KeepsCores f :=
  ⟨fun lk j hj => g.cores lk j (h.cores lk j hj), g.bridges.trans h.bridges⟩
theorem of_keys {d e : Dev} (hk : ∀ h, h ∈ d.cores.keys → h ∈ e.cores.keys) (hl : e.launches = d.launches) (hb : e.bridges = d.bridges) : d.KeepsCores e :=
  ⟨fun lk h hh => by
    rw [Dev.mem_launchCores] at hh ⊢
    exact ⟨hk h hh.1, by rw [Dev.launch?, hl]; exact hh.2⟩, hb⟩
theorem of_same {d e : Dev} (hc : e.cores = d.cores) (hl : e.launches = d.launches) (hb : e.bridges = d.bridges) : d.KeepsCores e :=
  of_keys (fun _ h => hc ▸ h) hl hb

theorem foldl {α : Type} {f : Dev → α → Dev} (hf : ∀ (e : Dev) (a : α), e.KeepsCores (f e a)) (l : List α) (d : Dev) : d.KeepsCores (l.foldl f d) :=
  List.foldlRecOn (motive := fun x : Dev => d.KeepsCores x) l f (refl d) (fun _ hx a _ => hx.trans (hf _ a))

theorem quays {d e : Dev} (h : d.QuaysOnly e) : d.KeepsCores e := of_same h.cores (by rw [h]) (by rw [h])
theorem updCore (d : Dev) (h : Nat) (f : Core → Core) : d.KeepsCores (d.updCore h f) := of_keys (fun _ hj => AMap.mem_keys_put hj _ _) rfl rfl
theorem updSlot (d : Dev) (h n : Nat) (f : Slot → Slot) : d.KeepsCores (d.updSlot h n f) := updCore d h _
theorem setSlot (d : Dev) (h n : Nat) (s : Slot) : d.KeepsCores (d.setSlot h n s) := updCore d h _
theorem wake (d : Dev) (h : Nat) (p : Nat → Slot → WaitFor → Bool) : d.KeepsCores (d.wake h p) := updCore d h _
theorem send (d : Dev) (chan : Nat) (e : Ev) : d.KeepsCores (d.send chan e) := of_same rfl rfl rfl
theorem later (d : Dev) (cycles : Nat) (e : Ev) : d.KeepsCores (d.later cycles e) := of_same rfl rfl rfl
theorem mapCores (d : Dev) (f : Nat × Core → Core) : d.KeepsCores { d with cores := ⟨d.cores.ents.map (fun c => (c.1, f c))⟩ } :=
  of_keys (fun h hh => by
    obtain ⟨c, hc, rfl⟩ := List.mem_map.mp hh
    exact List.mem_map.mpr ⟨(c.1, f c), List.mem_map.mpr ⟨c, hc, rfl⟩, rfl⟩) rfl rfl

theorem dropTask (d : Dev) (lk : Nat) (id : W32) : d.KeepsCores (d.dropTask lk id) := of_same rfl rfl rfl

theorem updLaunch (d : Dev) (lk : Nat) {f : Launch → Launch} (hf : ∀ l h, (f l).has h = l.has h) : d.KeepsCores (d.updLaunch lk f) := by
  unfold Dev.updLaunch
  split
  · next l hl =>
    refine ⟨fun j h hh => ?_, rfl⟩
    rw [Dev.mem_launchCores] at hh ⊢
    obtain ⟨hkey, x, hx, hhas⟩ := hh
    refine ⟨hkey, ?_⟩
    by_cases hj : j = lk
    · rw [hj, Dev.launch?, hl] at hx
      rw [hj, Dev.launch?]
      exact ⟨_, AMap.find_put_self _ _ _, (hf l h).trans (Option.some.inj hx ▸ hhas)⟩
    · rw [Dev.launch?]
      exact ⟨x, (AMap.find_put_ne _ _ _ _ hj).trans hx, hhas⟩
  · exact refl d

theorem wakeSlot (d : Dev) (h n : Nat) (p : WaitFor → Bool) : d.KeepsCores (d.wakeSlot h n p) := by
  unfold Dev.wakeSlot
  split
  · split
    · exact updSlot _ _ _ _
    · exact refl _
  · exact refl _

theorem reply (d : Dev) (h n : Nat) (r : Reply) : d.KeepsCores (d.reply h n r) := by
  unfold Dev.reply
  split
  · exact refl _
  · split
    · exact updSlot _ _ _ _
    · exact (updSlot _ _ _ _).trans (wakeSlot _ _ _ _)

theorem grantNext (d : Dev) (m : Memory) (pa : Nat) : d.KeepsCores (d.grantNext m pa) := by
  unfold Dev.grantNext
  dsimp only
  split
  · exact refl _
  · split
    · exact refl _
    · split
      · split
        · exact quays (Dev.quayWaited_quaysOnly _ _ _)
        · exact (quays (Dev.quayWaited_quaysOnly _ _ _)).trans (later _ _ _)
      · next e he =>
        refine (quays (Dev.quay_quaysOnly he)).trans ?_
        split <;> exact of_same rfl rfl rfl

theorem unpin (d : Dev) (pa : Nat) : d.KeepsCores (d.unpin pa) := by
  unfold Dev.unpin
  dsimp only
  split <;> exact of_same rfl rfl rfl

theorem updHome (d : Dev) (q : Nat) (f : Home → Home) : d.KeepsCores (d.updHome q f) := of_same rfl rfl rfl

theorem unhold (d : Dev) (m : Memory) (pa h n : Nat) : d.KeepsCores (d.unhold m pa h n) :=
  (updHome d _ _).trans ((unpin _ _).trans (grantNext _ m pa))

theorem finish (d : Dev) (m : Memory) (f : Fin) : d.KeepsCores (d.finish m [] f) := by
  unfold Dev.finish
  split
  · unfold Dev.wakeVisible
    split <;> exact wakeSlot _ _ _ _
  · split
    · exact refl _
    · rw [Dev.broadcast_nil]
      refine trans ?_ (later _ _ _)
      have hlaunch : ∀ lk (t : W32), d.KeepsCores (d.updLaunch lk (fun l => { l with horizon := if l.horizon.toNat < t.toNat then t else l.horizon })) :=
        fun lk t => updLaunch d lk (fun _ _ => rfl)
      split
      · refine trans ?_ (wake _ _ _)
        refine trans ?_ (dropTask _ _ _)
        exact hlaunch _ _
      · exact hlaunch _ _
  · split
    · exact unhold _ _ _ _ _
    · exact refl _
  · exact (updSlot _ _ _ _).trans ((unhold _ _ _ _ _).trans (send _ _ _))
  · exact send _ _ _
  · exact reply _ _ _ _
  · exact send _ _ _
  · exact of_same rfl rfl rfl
  all_goals exact refl _

theorem updGroup (d : Dev) (id : Nat) (f : Grp → Grp) : d.KeepsCores (d.updGroup id f) := of_same rfl rfl rfl

theorem retire (d : Dev) (m : Memory) {g : Grp} (hg : g.lines = []) : d.KeepsCores (d.retire m g) := by
  unfold Dev.retire
  rw [hg]
  refine trans ?_ (foldl (fun e f => finish e m f) _ _)
  refine trans (e := { d with groups := d.groups.filter (fun x => x.id != g.id) }) (of_same rfl rfl rfl) ?_
  exact updCore _ _ _

theorem advance (d : Dev) (m : Memory) (id : Nat) : d.KeepsCores (d.advance m id) := by
  unfold Dev.advance
  split
  · exact refl _
  · split
    · exact (updGroup _ _ _).trans (send _ _ _)
    · dsimp only
      split
      · next hall => exact retire d m (homesOf_eq_nil hall)
      · exact (updGroup _ _ _).trans (foldl (fun e q => send e 0 (.groupRelease id q)) _ _)

theorem settle (d : Dev) (m : Memory) : d.KeepsCores (d.settle m) := by
  suffices h : ∀ k (d : Dev), d.KeepsCores (d.startGroups m k) from h _ d
  intro k
  induction k with
  | zero => exact refl
  | succ k ih =>
    intro d
    unfold Dev.startGroups
    split
    · exact refl _
    · exact (updGroup _ _ _).trans ((advance _ _ _).trans (ih _))

theorem traceRec (d : Dev) (m : Memory) (t type status core : Nat) (task : W32) (gtid : BitVec 48) (n : Nat) (pc : W64) :
    d.KeepsCores (d.traceRec m t type status core task gtid n pc) := by
  unfold Dev.traceRec
  dsimp only
  split
  · exact of_same rfl rfl rfl
  · unfold Dev.addGroup
    refine trans ?_ (settle _ _)
    exact of_same rfl rfl rfl

theorem breakLeases (d : Dev) (h n why : Nat) (p : LeaseRec → Bool) : d.KeepsCores (d.breakLeases h n why p) := by
  unfold Dev.breakLeases
  dsimp only
  split
  · exact refl _
  · exact (updSlot _ _ _ _).trans (foldl (fun e r => send e _ _) _ _)

theorem phaseOne (d : Dev) (id q : Nat) : d.KeepsCores (d.phaseOne id q) := by
  unfold Dev.phaseOne
  split
  · exact updHome _ _ _
  · dsimp only
    split
    · exact updHome _ _ _
    · split
      · exact updHome _ _ _
      · exact (updHome _ _ _).trans (send _ _ _)

theorem dropSealed (d : Dev) (h : Nat) (o : Obj) : d.KeepsCores (d.dropSealed h o) := mapCores d _

end Dev.KeepsCores

/-- A slot that a lost bridge stopped (R368). -/
def Slot.LostTo (b : Nat) (s : Slot) : Prop := s.st = .held .lost ∧ s.frec0.toNat % 2 ^ 24 = 0xF1 + 256 * b

/-- From slot a to c: what the loss of bridge b may change on the way. -/
structure Slot.Quieter (b : Nat) (a c : Slot) : Prop where
  busy : a.st ≠ .free → c.st ≠ .free
  lk : c.lk = a.lk
  pc : c.pc = a.pc
  regs : ∀ j, c.A j = a.A j ∧ c.V j = a.V j ∧ c.K j = a.K j
  lost : a.LostTo b → c.LostTo b

theorem Slot.Quieter.refl (b : Nat) (a : Slot) : a.Quieter b a := ⟨id, rfl, rfl, fun _ => ⟨rfl, rfl, rfl⟩, id⟩
theorem Slot.Quieter.trans {b : Nat} {a c e : Slot} (h : a.Quieter b c) (g : c.Quieter b e) : a.Quieter b e :=
  ⟨fun hs => g.busy (h.busy hs), g.lk.trans h.lk, g.pc.trans h.pc,
    fun j => ⟨(g.regs j).1.trans (h.regs j).1, (g.regs j).2.1.trans (h.regs j).2.1, (g.regs j).2.2.trans (h.regs j).2.2⟩, fun hl => g.lost (h.lost hl)⟩

theorem Slot.Aside.quieter {a c : Slot} (h : a.Aside c) (b : Nat) : a.Quieter b c := by
  refine ⟨fun hs hf => ?_, h.lk, h.pc, fun j => ⟨h.A j, h.V j, h.K j⟩, fun ⟨hst, hrec⟩ => ⟨(h.st fun w hw => nomatch hst.symm.trans hw).trans hst, h.frec0 ▸ hrec⟩⟩
  obtain ⟨_, _, st, _, _, rfl, hst | ⟨-, hst⟩⟩ := h
  · exact hs (hst.symm.trans hf)
  · exact nomatch hst.symm.trans hf

/-- From d to e: what the loss of bridge b may change on the way. -/
structure Dev.Quieter (b : Nat) (d e : Dev) : Prop where
  slots : ∀ h n, (d.slot h n).Quieter b (e.slot h n)
  cores : d.KeepsCores e

namespace Dev.Quieter
variable {b : Nat}

theorem refl (d : Dev) : d.Quieter b d := ⟨fun _ _ => .refl _ _, .refl _⟩
theorem trans {d e f : Dev} (h : d.Quieter b e) (g : e.Quieter b f) : d.Quieter b f := ⟨fun j n => (h.slots j n).trans (g.slots j n), h.cores.trans g.cores⟩
theorem of_aside {d e : Dev} (ha : d.Aside e) (hk : d.KeepsCores e) : d.Quieter b e := ⟨fun h n => (ha h n).quieter b, hk⟩
theorem of_same {d e : Dev} (hc : e.cores = d.cores) (hl : e.launches = d.launches) (hb : e.bridges = d.bridges) : d.Quieter b e :=
  of_aside (.of_cores hc) (.of_same hc hl hb)
theorem foldl {α : Type} {f : Dev → α → Dev} (hf : ∀ (e : Dev) (a : α), e.Quieter b (f e a)) (l : List α) (d : Dev) : d.Quieter b (l.foldl f d) :=
  List.foldlRecOn (motive := fun x : Dev => d.Quieter b x) l f (refl d) (fun _ hx a _ => hx.trans (hf _ a))

theorem updCore (d : Dev) (h : Nat) {f : Core → Core} (hf : ∀ c n, (f c).slot n = c.slot n) : d.Quieter b (d.updCore h f) :=
  of_aside (Dev.aside_updCore hf) (.updCore _ _ _)
theorem wake (d : Dev) (h : Nat) (p : Nat → Slot → WaitFor → Bool) (hp : ∀ n s, p n s .service = false) : d.Quieter b (d.wake h p) :=
  of_aside (d.aside_wake h p hp) (.wake _ _ _)
theorem setBar (d : Dev) (h j : Nat) (x : Bar) : d.Quieter b (d.updCore h (fun k => k.setBar j x)) := updCore d h (fun _ _ => rfl)

theorem barReport (d : Dev) (h j bytes : Nat) : d.Quieter b (d.barReport h j bytes) := by
  have hstep : ∀ (e : Dev) (f : Bar → Bar), e.Quieter b (e.barStep h j f true) := fun e f => by
    unfold Dev.barStep
    extract_lets r d1
    split
    · exact (setBar e h j r.1).trans (wake d1 h _ (fun _ _ => rfl))
    · exact setBar e h j r.1
  unfold Dev.barReport
  extract_lets x d1 d2
  have h1 : d.Quieter b d1 := wake d h _ (fun _ _ => rfl)
  split
  · exact refl d
  · split
    · exact h1.trans (setBar d1 h j _)
    · have h2 : d.Quieter b d2 := h1.trans (hstep d1 _)
      split
      · split
        · exact h2
        · exact h2.trans (setBar d2 h j _)
      · exact h2

theorem dropSealed (d : Dev) (h : Nat) (o : Obj) : d.Quieter b (d.dropSealed h o) := by
  refine of_aside (.of_slots fun k n => ?_) (.dropSealed d h o)
  have hcore : (d.dropSealed h o).core k = (d.core k).dropRange (windowOf h o.base) o.bytes := by
    unfold Dev.dropSealed Dev.core
    exact AMap.get_map_snd Core.init d.cores (fun c => c.dropRange (windowOf h o.base) o.bytes) k rfl
  rw [Dev.slot, hcore]
  rfl

theorem objUnref (d : Dev) (h o : Nat) : d.Quieter b (d.objUnref h o) := by
  have hobj : ∀ (e : Dev) (x : Obj), e.Quieter b (e.updCore h (fun k => k.setObj o x)) := fun e x => updCore e h (fun _ _ => rfl)
  unfold Dev.objUnref
  extract_lets x x' d1 d2
  have h1 : d.Quieter b d1 := hobj d x'
  split
  · exact h1
  · have h2 : d.Quieter b d2 := h1.trans (wake d1 h _ (fun _ _ => rfl))
    split
    · exact h2
    · exact h2.trans ((dropSealed d2 h x).trans (hobj _ _))

theorem completed (d : Dev) (h : Nat) (c : Cmd) : d.Quieter b (d.completed h c) := by
  have hstep : ∀ (e : Dev) (o : Nat × Nat), e.Quieter b (e.objUnref o.1 o.2) := fun e o => objUnref e o.1 o.2
  unfold Dev.completed
  extract_lets d1
  have h1 : d.Quieter b d1 := by
    unfold d1
    split
    · exact objUnref d h _
    · exact refl d
  exact h1.trans (foldl hstep c.objs d1)

theorem settle (d : Dev) (m : Memory) : d.Quieter b (d.settle m) := of_aside (d.aside_settle m) (.settle d m)
theorem unhold (d : Dev) (m : Memory) (pa h n : Nat) : d.Quieter b (d.unhold m pa h n) := of_aside (d.aside_unhold m pa h n) (.unhold d m pa h n)
theorem unpin (d : Dev) (pa : Nat) : d.Quieter b (d.unpin pa) := of_aside (.of_cores (d.unpin_cores pa)) (.unpin d pa)
theorem updHome (d : Dev) (q : Nat) (f : Home → Home) : d.Quieter b (d.updHome q f) := of_same rfl rfl rfl

theorem phaseOne (d : Dev) (id q : Nat) : d.Quieter b (d.phaseOne id q) := by
  refine of_aside (.of_cores ?_) (.phaseOne d id q)
  unfold Dev.phaseOne
  split
  · rfl
  · dsimp only
    split
    · rfl
    · split <;> rfl

theorem abortGroup (d : Dev) (m : Memory) (g : Grp) : d.Quieter b (d.abortGroup m g) := by
  unfold Dev.abortGroup
  extract_lets d1 d2 d3 d4
  have h1 : d.Quieter b d1 := of_same rfl rfl rfl
  have h2 : d1.Quieter b d2 := updCore d1 g.core (f := fun c => { c with dir := c.dir.filter (fun e => e.gid != some g.id) }) (fun _ _ => rfl)
  have h3 : d2.Quieter b d3 := foldl (fun e q => (updHome e q _).trans (foldl (fun e id => phaseOne e id q) _ _)) _ d2
  have h4 : d3.Quieter b d4 := foldl (f := fun (d : Dev) (l : GLine) => d.unpin l.pa) (fun e l => unpin e l.pa) g.lines d3
  refine (h1.trans (h2.trans (h3.trans h4))).trans (foldl (fun e f => ?_) _ d4)
  split
  · split
    · exact unhold e m _ _ _
    · exact refl e
  · exact unhold e m _ _ _
  · exact refl e

theorem purge (d : Dev) (lk : Nat) : d.Quieter b (d.purge lk) := by
  unfold Dev.purge
  extract_lets mine load
  refine trans (of_aside (.of_slots fun h n => ?_) (.mapCores d fun c => { c.2.withdraw (fun s => match s with | .remote r => load r | _ => false) with
      held := c.2.held.filter (fun r => !load r) })) (of_same rfl rfl rfl)
  rw [Dev.slot, Dev.core]
  refine (congrArg (Core.slot · n) (AMap.get_map_snd Core.init d.cores (fun c => { c.withdraw (fun s => match s with | .remote r => load r | _ => false) with
      held := c.held.filter (fun r => !load r) }) h rfl)).trans ?_
  rfl


theorem breakLeases (d : Dev) (h n why : Nat) (p : LeaseRec → Bool) : d.Quieter b (d.breakLeases h n why p) := by
  refine ⟨fun k j => ?_, .breakLeases d h n why p⟩
  by_cases hk : k = h ∧ j = n
  · obtain ⟨rfl, rfl⟩ := hk
    obtain ⟨ls, w, hs⟩ := d.slot_breakLeases k j why p
    rw [hs]
    exact ⟨id, rfl, rfl, fun _ => ⟨rfl, rfl, rfl⟩, id⟩
  · have hs : (d.breakLeases h n why p).slot k j = d.slot k j := by
      unfold Dev.breakLeases
      dsimp only
      split
      · rfl
      · rw [Dev.slot, Dev.core, Dev.cores_foldl_send, ← Dev.core, ← Dev.slot, Dev.slot_updSlot_ne _ _ _ _ _ _ hk]
    rw [hs]
    exact .refl _ _

end Dev.Quieter

/-- A slot with the record of an error, HELD for a lost bridge. -/
def Slot.lostAs (a : Slot) (h n : Nat) (t : Trap) (clock : Nat) : Slot := { (a.record h n t false false a.pc).noTable with
  st := .held .lost, heldAt := clock, svcWait := false, reply := .idle, closed := false, refused := [], winStores := [], defer := [] }

section
variable {b : Nat} (hb : b < 12)
include hb

theorem Slot.lostAs_spec (a : Slot) (h n : Nat) (addr : W64) (lanes : BitVec 16) (clock : Nat) :
    a.Quieter b (a.lostAs h n ⟨0xF1, b, addr, lanes⟩ clock) ∧ (a.lostAs h n ⟨0xF1, b, addr, lanes⟩ clock).LostTo b := by
  have hlost : (a.lostAs h n ⟨0xF1, b, addr, lanes⟩ clock).LostTo b := by
    refine ⟨rfl, ?_⟩
    have hval := toNat_frec0 h b 0xF1 lanes false false
    rw [show (a.lostAs h n ⟨0xF1, b, addr, lanes⟩ clock).frec0.toNat = _ from hval]
    simp only [Bool.toNat_false]
    omega
  exact ⟨⟨fun _ => SlotSt.noConfusion, rfl, rfl, fun _ => ⟨rfl, rfl, rfl⟩, fun _ => hlost⟩, hlost⟩

/-- A device of which one slot changes to a lost one. -/
theorem Dev.Quieter.of_lost {d e : Dev} {h n : Nat} {t : Trap} {clock : Nat} (ht : ∃ addr lanes, t = ⟨0xF1, b, addr, lanes⟩)
    (hself : e.slot h n = (d.slot h n).lostAs h n t clock ∨ e.slot h n = (d.slot h n).lostAs h (n % 64) t clock)
    (hne : ∀ k j, ¬(k = h ∧ j = n) → (d.slot k j).Quieter b (e.slot k j)) (hk : d.KeepsCores e) : d.Quieter b e ∧ (e.slot h n).LostTo b := by
  obtain ⟨addr, lanes, rfl⟩ := ht
  have hq : (d.slot h n).Quieter b (e.slot h n) ∧ (e.slot h n).LostTo b := by
    rcases hself with hs | hs <;> rw [hs] <;> exact Slot.lostAs_spec hb _ _ _ _ _ _
  refine ⟨⟨fun k j => ?_, hk⟩, hq.2⟩
  by_cases hkj : k = h ∧ j = n
  · obtain ⟨rfl, rfl⟩ := hkj
    exact hq.1
  · exact hne k j hkj

theorem Dev.loseSlot_spec (d : Dev) (m : Memory) (h n : Nat) : d.Quieter b (d.loseSlot m h n b) ∧ ((d.loseSlot m h n b).slot h n).LostTo b := by
  obtain ⟨d1, hd1⟩ : ∃ d1, d1 = d.breakLeases h n 2 (fun _ => true) := ⟨_, rfl⟩
  obtain ⟨t, ht⟩ : ∃ t : Trap, t = ⟨0xF1, b, Config.freeAddr d1.count, Config.freeLanes d1.count⟩ := ⟨_, rfl⟩
  obtain ⟨d2, hd2⟩ : ∃ d2, d2 = d1.updCore h (fun c => (c.withdrawSlot n).updSlot n (fun s => s.lostAs h n t d1.clock)) := ⟨_, rfl⟩
  have heq : d.loseSlot m h n b = (d2.report h n 1).traceSlot m h n 2 := by
    rw [hd2, ht, hd1]
    rfl
  have h1 : d.Quieter b d1 := hd1 ▸ .breakLeases d h n 2 _
  obtain ⟨h2, hlost⟩ := Dev.Quieter.of_lost hb (d := d1) (e := d2) (h := h) (n := n) ⟨_, _, ht⟩ (.inl (by
      rw [hd2, Dev.slot, Dev.core_updCore_self, Core.slot_updSlot_self]
      rfl)) (fun k j hk => by
      have hs : d2.slot k j = d1.slot k j := by
        rw [hd2]
        by_cases hkh : k = h
        · rw [hkh, Dev.slot, Dev.core_updCore_self, Core.slot_updSlot_ne _ _ _ _ (fun hj => hk ⟨hkh, hj⟩)]
          rfl
        · rw [Dev.slot, Dev.core_updCore_ne _ _ _ _ hkh, ← Dev.slot]
      rw [hs]
      exact .refl _ _) (hd2 ▸ .updCore d1 h _)
  have h3 : d2.Quieter b (d2.report h n 1) := .of_same rfl rfl rfl
  have h4 : (d2.report h n 1).Quieter b ((d2.report h n 1).traceSlot m h n 2) := .of_aside (Dev.aside_traceSlot _ m h n 2) (.traceRec _ m _ _ _ _ _ _ _ _)
  rw [heq]
  exact ⟨h1.trans (h2.trans (h3.trans h4)), ((h3.trans h4).slots h n).lost hlost⟩

theorem Dev.loseSaved_spec (d : Dev) (m : Memory) (h i : Nat) : d.Quieter b (d.loseSaved m h i b) ∧ ((d.loseSaved m h i b).slot h i).LostTo b := by
  obtain ⟨t, ht⟩ : ∃ t : Trap, t = ⟨0xF1, b, Config.freeAddr d.count, Config.freeLanes d.count⟩ := ⟨_, rfl⟩
  obtain ⟨d1, hd1⟩ : ∃ d1, d1 = d.breakLeases h i 2 (fun _ => true) := ⟨_, rfl⟩
  obtain ⟨d2, hd2⟩ : ∃ d2, d2 = d1.setSlot h i ((d.slot h i).lostAs h (i % 64) t (d.slot h i).heldAt) := ⟨_, rfl⟩
  obtain ⟨y, hy⟩ : ∃ y : Msg, y = ⟨terrOf (d.slot h i).lk, 0xFFFF,
    reportImage ((d.slot h i).record h (i % 64) t false false (d.slot h i).pc).noTable h (i % 64) 1, 0xFFFD, h, none, none⟩ := ⟨_, rfl⟩
  have heq : d.loseSaved m h i b =
      (d2.traceRec m (terrOf (d.slot h i).lk) 2 0 h (d.slot h i).taskId (d.slot h i).gtid (i % 64) (d.slot h i).pc).send 0 (.messageArrival y) := by
    rw [hy, hd2, ht, hd1]
    rfl
  have h1 : d.Quieter b d1 := hd1 ▸ .breakLeases d h i 2 _
  obtain ⟨h2, hlost⟩ := Dev.Quieter.of_lost hb (d := d) (e := d2) (h := h) (n := i) ⟨_, _, ht⟩
    (.inr (by rw [hd2]; exact Dev.slot_setSlot_self _ _ _ _))
    (fun k j hk => by
      rw [hd2, Dev.slot_setSlot_ne _ _ _ _ _ _ hk]
      exact h1.slots k j) (hd2 ▸ h1.cores.trans (.setSlot d1 h i _))
  obtain ⟨d3, hd3⟩ : ∃ d3, d3 = d2.traceRec m (terrOf (d.slot h i).lk) 2 0 h (d.slot h i).taskId (d.slot h i).gtid
    (i % 64) (d.slot h i).pc := ⟨_, rfl⟩
  have h3 : d2.Quieter b d3 := hd3 ▸ .of_aside (Dev.aside_traceRec _ m _ _ _ _ _ _ _ _) (.traceRec _ m _ _ _ _ _ _ _ _)
  have h4 : d3.Quieter b (d3.send 0 (.messageArrival y)) := .of_same rfl rfl rfl
  rw [heq, ← hd3]
  exact ⟨h2.trans (h3.trans h4), ((h3.trans h4).slots h i).lost hlost⟩

omit hb in
theorem Dev.Quieter.loseQueues (d : Dev) (h lk : Nat) : d.Quieter b (d.loseQueues h lk b) := by
  unfold Dev.loseQueues
  extract_lets gone keep d1 d2
  have h1 : d.Quieter b d1 := .updCore d h (f := fun c => { c with mq := keep c.mq, cq := keep c.cq }) (fun _ _ => rfl)
  have h2 : d1.Quieter b d2 := .foldl (f := fun (d : Dev) (c : Cmd) => d.completed h c) (fun e c => .completed e h c) gone d1
  refine (h1.trans h2).trans (.foldl (fun e x => ?_) _ d2)
  exact (Dev.Quieter.setBar e h x.1 _).trans (.barReport _ h x.1 x.2.pend)

omit hb in
/-- A slot that is not FREE stands in the table that holds it. -/
theorem mem_slotsOf {m : AMap Slot} {n lk : Nat} (hst : (m.get .init n).st ≠ .free) (hlk : (m.get .init n).lk = lk) :
    n ∈ (m.ents.filter (fun e => e.2.st != .free && e.2.lk == lk)).map (·.1) := by
  have hfind : m.find? n = some (m.get .init n) := by
    cases hf : m.find? n with
    | none => exact absurd (by rw [AMap.get, hf]; rfl) hst
    | some s => rw [AMap.get, hf]; rfl
  exact List.mem_map.mpr ⟨_, List.mem_filter.mpr ⟨AMap.mem_of_find? hfind, by simp [hst, hlk]⟩, rfl⟩

/-- The slots of the launch that stand on a core, and those saved there, stop. -/
def Dev.loseSlots (m : Memory) (b lk h : Nat) (d : Dev) : Dev :=
  (((d.core h).slots.ents.filter (fun e => e.2.st != .free && e.2.lk == lk)).map (·.1)).foldl (fun d n => d.loseSlot m h n b) d
def Dev.loseAway (m : Memory) (b lk h : Nat) (d : Dev) : Dev :=
  (((d.core h).away.ents.filter (fun e => e.2.st != .free && e.2.lk == lk)).map (·.1)).foldl (fun d i => d.loseSaved m h i b) d

theorem Dev.loseSlots_spec (d : Dev) (m : Memory) (lk h : Nat) : d.Quieter b (d.loseSlots m b lk h) ∧
    ∀ n, n < 64 → (d.slot h n).st ≠ .free → (d.slot h n).lk = lk → ((d.loseSlots m b lk h).slot h n).LostTo b := by
  unfold Dev.loseSlots
  refine ⟨.foldl (f := fun (d : Dev) n => d.loseSlot m h n b) (fun e n => (e.loseSlot_spec hb m h n).1) _ d, fun n hn hst hlk => ?_⟩
  rw [Dev.slot, Core.slot, if_pos hn] at hst hlk
  exact foldl_reaches (step := fun (d : Dev) n => d.loseSlot m h n b) (L := fun _ => True) (P := fun e : Dev => (e.slot h n).LostTo b)
    (mem_slotsOf hst hlk) (fun _ _ _ _ => trivial) (fun e _ => (e.loseSlot_spec hb m h n).2) (fun e x _ _ _ he => ((e.loseSlot_spec hb m h x).1.slots h n).lost he) trivial

theorem Dev.loseAway_spec (d : Dev) (m : Memory) (lk h : Nat) : d.Quieter b (d.loseAway m b lk h) ∧
    ∀ n, 64 ≤ n → (d.slot h n).st ≠ .free → (d.slot h n).lk = lk → ((d.loseAway m b lk h).slot h n).LostTo b := by
  unfold Dev.loseAway
  refine ⟨.foldl (f := fun (d : Dev) n => d.loseSaved m h n b) (fun e n => (e.loseSaved_spec hb m h n).1) _ d, fun n hn hst hlk => ?_⟩
  rw [Dev.slot, Core.slot, if_neg (by omega)] at hst hlk
  exact foldl_reaches (step := fun (d : Dev) n => d.loseSaved m h n b) (L := fun _ => True) (P := fun e : Dev => (e.slot h n).LostTo b)
    (mem_slotsOf hst hlk) (fun _ _ _ _ => trivial) (fun e _ => (e.loseSaved_spec hb m h n).2) (fun e x _ _ _ he => ((e.loseSaved_spec hb m h x).1.slots h n).lost he) trivial

/-- What a quiesce does on a core of the launch. -/
def Dev.dropOpen (l : Launch) (h : Nat) (d : Dev) : Dev := d.updCore h (fun c => { c with dir := c.dir.filter (fun e => e.gid.isSome ||
  !(l.maps.any (fun w => rgnV w && rgnRole w == 1 && decide (rgnBase w ≤ e.buf) && decide (e.buf < rgnEnd w)))) })
def Dev.quiesceCore (m : Memory) (b lk : Nat) (l : Launch) (d : Dev) (h : Nat) : Dev :=
  (((d.dropOpen l h).loseSlots m b lk h).loseAway m b lk h).loseQueues h lk b

theorem Dev.quiesceCore_spec (d : Dev) (m : Memory) (lk : Nat) (l : Launch) (h : Nat) : d.Quieter b (d.quiesceCore m b lk l h) ∧
    ∀ n, (d.slot h n).st ≠ .free → (d.slot h n).lk = lk → ((d.quiesceCore m b lk l h).slot h n).LostTo b := by
  have h1 : d.Quieter b (d.dropOpen l h) := .updCore d h (fun _ _ => rfl)
  obtain ⟨h2, hown⟩ := (d.dropOpen l h).loseSlots_spec hb m lk h
  obtain ⟨h3, haway⟩ := ((d.dropOpen l h).loseSlots m b lk h).loseAway_spec hb m lk h
  have h4 : (((d.dropOpen l h).loseSlots m b lk h).loseAway m b lk h).Quieter b (d.quiesceCore m b lk l h) := .loseQueues _ h lk
  refine ⟨h1.trans (h2.trans (h3.trans h4)), fun n hst hlk => (h4.slots h n).lost ?_⟩
  have hs1 := h1.slots h n
  by_cases hn : n < 64
  · exact (h3.slots h n).lost (hown n hn (hs1.busy hst) (hs1.lk.trans hlk))
  · have hs2 := hs1.trans (h2.slots h n)
    exact haway n (by omega) (hs2.busy hst) (hs2.lk.trans hlk)

/-- A launch that is quiesced: every slot of it on its cores is stopped. -/
theorem Dev.quiesce_spec (d : Dev) (m : Memory) (lk : Nat) (l : Launch) : d.Quieter b (d.quiesce m b lk l) ∧
    ∀ h n, h ∈ d.launchCores lk → (d.slot h n).st ≠ .free → (d.slot h n).lk = lk → ((d.quiesce m b lk l).slot h n).LostTo b := by
  obtain ⟨d1, hd1⟩ : ∃ d1, d1 = (((d.groups.filter (fun g => g.phase != .two && d.grpLaunch g == some lk)).foldl (fun d g => d.abortGroup m g) d).settle m).purge lk :=
    ⟨_, rfl⟩
  have heq : (d.quiesce m b lk l) = { (d1.launchCores lk).foldl (Dev.quiesceCore m b lk l) d1 with
      saved := ((d1.launchCores lk).foldl (Dev.quiesceCore m b lk l) d1).saved.map (fun x => if x.lks.contains lk then x.lose lk b else x) } := by
    rw [hd1]
    rfl
  have h1 : d.Quieter b d1 := hd1 ▸ ((Dev.Quieter.foldl (fun e g => .abortGroup e m g) _ d).trans (.settle _ m)).trans (.purge _ lk)
  have h2 : d1.Quieter b ((d1.launchCores lk).foldl (Dev.quiesceCore m b lk l) d1) := .foldl (fun e h => (e.quiesceCore_spec hb m lk l h).1) _ d1
  rw [heq]
  refine ⟨(h1.trans h2).trans (.of_same rfl rfl rfl), fun h n hh hst hlk => ?_⟩
  exact foldl_reaches (L := fun e : Dev => d1.Quieter b e) (P := fun e : Dev => (e.slot h n).LostTo b) (h1.cores.cores lk h hh)
    (fun e x _ he => he.trans (e.quiesceCore_spec hb m lk l x).1)
    (fun e he => (e.quiesceCore_spec hb m lk l h).2 n (((h1.trans he).slots h n).busy hst) (((h1.trans he).slots h n).lk.trans hlk))
    (fun e x _ _ _ he => ((e.quiesceCore_spec hb m lk l x).1.slots h n).lost he) (.refl d1)

end
/-! ### Bridges (R364, R368) -/

def Dev.bridge (d : Dev) (b : Nat) : Bridge := d.bridges.get .init b
def Dev.setBridge (d : Dev) (b : Nat) (x : Bridge) : Dev := { d with bridges := d.bridges.put b x }

theorem Dev.bridge_setBridge (d : Dev) (b : Nat) (x : Bridge) : (d.setBridge b x).bridge b = x := AMap.get_put_self _ _ _ _

/-- A bridge that is lost, and the slots of the resident launches that span it. -/
def Dev.Stopped (d e : Dev) (b : Nat) : Prop := (e.bridge b).lost = true ∧ ∀ lk l h n, (lk, l) ∈ d.launches.ents → l.st = .resident → l.spans b = true →
  h ∈ d.launchCores lk → (d.slot h n).st ≠ .free → (d.slot h n).lk = lk →
    (e.slot h n).st = .held .lost ∧ (e.slot h n).frec0.toNat % 2 ^ 24 = 0xF1 + 256 * b ∧ (e.slot h n).pc = (d.slot h n).pc ∧
      ∀ j, (e.slot h n).A j = (d.slot h n).A j ∧ (e.slot h n).V j = (d.slot h n).V j ∧ (e.slot h n).K j = (d.slot h n).K j

/-- The flits that are resent go out on another bridge. -/
theorem Dev.resendFlits_spec {d : Dev} {b : Nat} (hl : (d.bridge b).lost = true) :
    ((d.resendFlits b).bridge b).lost = true ∧ ∃ m, d.resendFlits b = { d with bridges := m } := by
  unfold Dev.resendFlits
  dsimp only
  split
  · exact ⟨hl, _, rfl⟩
  · next i hi =>
    have hne : b ≠ i := by
      have hi' := List.find?_some hi
      rintro rfl
      rw [← Dev.bridge, hl] at hi'
      exact Bool.noConfusion hi'
    refine ⟨?_, _, rfl⟩
    change (((d.bridges.put b { d.bridge b with sent := [] }).put i _).get Bridge.init b).lost = true
    rw [AMap.get_put_ne _ _ _ _ _ hne, AMap.get_put_self]
    exact hl

/-- The launches that a lost bridge stops. -/
def Dev.spanning (d : Dev) (b : Nat) : List (Nat × Launch) :=
  d.launches.ents.filter (fun e => (e.2.st == .resident || e.2.st == .placed) && e.2.spans b)

theorem Dev.loseBridge_eq (d : Dev) (m : Memory) {b : Nat} (hb : b < 12) (hl : (d.bridge b).lost = false) : d.loseBridge m b =
    (((d.setBridge b { d.bridge b with lost := true }).resendFlits b).spanning b).foldl (fun d e => d.quiesce m b e.1 e.2)
      ((d.setBridge b { d.bridge b with lost := true }).resendFlits b) := by
  unfold Dev.loseBridge
  dsimp only
  rw [if_neg]
  · rfl
  · rw [← Dev.bridge, hl]
    simpa using hb

theorem Dev.loseBridge_stops (d : Dev) (m : Memory) {b : Nat} (hb : b < 12) (hl : (d.bridge b).lost = false) : Dev.Stopped d (d.loseBridge m b) b := by
  obtain ⟨hlost, bs, heq⟩ := Dev.resendFlits_spec (d := d.setBridge b { d.bridge b with lost := true }) (b := b) (by rw [Dev.bridge_setBridge])
  rw [d.loseBridge_eq m hb hl]
  obtain ⟨d1, hd1⟩ : ∃ d1, d1 = (d.setBridge b { d.bridge b with lost := true }).resendFlits b := ⟨_, rfl⟩
  rw [← hd1] at hlost heq ⊢
  have hall : d1.Quieter b ((d1.spanning b).foldl (fun d e => d.quiesce m b e.1 e.2) d1) :=
    .foldl (f := fun (d : Dev) (e : Nat × Launch) => d.quiesce m b e.1 e.2) (fun e x => (e.quiesce_spec hb m x.1 x.2).1) (d1.spanning b) d1
  have hslot : ∀ h n, d1.slot h n = d.slot h n := fun h n => by rw [heq]; rfl
  have hcores : ∀ lk, d1.launchCores lk = d.launchCores lk := fun lk => by rw [heq]; rfl
  refine ⟨by rw [Dev.bridge, hall.cores.bridges, ← Dev.bridge]; exact hlost, fun lk l h n hmem hst hspan hh hbusy hlk => ?_⟩
  have hin : (lk, l) ∈ d1.spanning b := by
    rw [heq]
    exact List.mem_filter.mpr ⟨hmem, by simp [hst, hspan]⟩
  obtain ⟨hheld, hrec⟩ := foldl_reaches (step := fun (d : Dev) (e : Nat × Launch) => d.quiesce m b e.1 e.2) (L := fun e : Dev => d1.Quieter b e)
    (P := fun e : Dev => (e.slot h n).LostTo b) hin (fun e x _ he => he.trans (e.quiesce_spec hb m x.1 x.2).1)
    (fun e he => (e.quiesce_spec hb m lk l).2 h n (he.cores.cores lk h (hcores lk ▸ hh)) ((he.slots h n).busy (hslot h n ▸ hbusy))
      ((he.slots h n).lk.trans (hslot h n ▸ hlk)))
    (fun e x _ _ _ he => ((e.quiesce_spec hb m x.1 x.2).1.slots h n).lost he) (.refl d1)
  have hq := hall.slots h n
  rw [hslot] at hq
  exact ⟨hheld, hrec, hq.pc, hq.regs⟩

theorem Dev.loseBridge_kept (d : Dev) (m : Memory) {b : Nat} (h : 12 ≤ b ∨ (d.bridge b).lost = true) : d.loseBridge m b = d := by
  unfold Dev.loseBridge
  dsimp only
  rw [if_pos]
  rw [← Dev.bridge]
  simpa using h.symm

section
variable (b : Nat) (lanes flit : V512) (spares : BitVec 32)

theorem bridgeLost_stops : Event (.bridgeLost b) (fun _ d => b < 12 ∧ (d.bridge b).lost = false) (fun _ d e => Dev.Stopped d e b) :=
  onDev_event (f := fun m d => d.loseBridge m b) (fun _ => by unfold exec execBridgeLost; rfl) (fun m d ⟨hb, hl⟩ => d.loseBridge_stops m hb hl)

theorem bridgeLost_kept : Event (.bridgeLost b) (fun _ d => 12 ≤ b ∨ (d.bridge b).lost = true) (fun _ d e => e = d) :=
  onDev_event (f := fun m d => d.loseBridge m b) (fun _ => by unfold exec execBridgeLost; rfl) (fun m d h => d.loseBridge_kept m h)

/-- A bridge after a retrain. -/
def Bridge.retrained (x : Bridge) (lanes : V512) (spares : BitVec 32) : Bridge :=
  { x with bad := x.bad ||| lanes, badSpare := x.badSpare ||| spares, fails := 0, out := x.out ++ x.sent }

/-- A group of 16 lanes has more failed lanes than spares. -/
def Bridge.Worn (x : Bridge) : Prop := ∃ g, g < 32 ∧ (if x.badSpare.getLsbD g then 0 else 1) < ((List.range 16).filter (fun i => x.bad.getLsbD (16 * g + i))).length

theorem Bridge.worn_iff (x : Bridge) : (List.range 32).any (laneGroupLost x.bad x.badSpare) = true ↔ x.Worn := by
  have hcount : ∀ g, popcount (x.bad.extractLsb' (16 * g) 16) = ((List.range 16).filter (fun i => x.bad.getLsbD (16 * g + i))).length := fun g => by
    unfold popcount lanesOf
    refine congrArg List.length (List.filter_congr fun i hi => ?_)
    rw [BitVec.getLsbD_extractLsb', decide_eq_true (List.mem_range.mp hi), Bool.true_and]
  simp only [List.any_eq_true, List.mem_range, laneGroupLost, decide_eq_true_eq, hcount]
  exact Iff.rfl

def Dev.retrainBridge (m : Memory) (d : Dev) (b : Nat) (lanes : V512) (spares : BitVec 32) : Dev :=
  if 12 ≤ b ∨ (d.bridge b).lost = true ∨ (d.bridge b).fails < 16 then d
  else if (List.range 32).any (laneGroupLost ((d.bridge b).retrained lanes spares).bad ((d.bridge b).retrained lanes spares).badSpare) then
    (d.setBridge b ((d.bridge b).retrained lanes spares)).loseBridge m b
  else d.setBridge b ((d.bridge b).retrained lanes spares)

theorem exec_bridgeRetrain (s : State) : exec (.bridgeRetrain b lanes spares) s = onDev (fun m d => d.retrainBridge m b lanes spares) s := by
  unfold exec execBridgeRetrain
  rfl

theorem bridgeRetrain_spared : Event (.bridgeRetrain b lanes spares)
    (fun _ d => b < 12 ∧ (d.bridge b).lost = false ∧ 16 ≤ (d.bridge b).fails ∧ ¬((d.bridge b).retrained lanes spares).Worn)
    (fun _ d e => e.bridge b = (d.bridge b).retrained lanes spares ∧ d.sameSlots e) := by
  refine onDev_event (exec_bridgeRetrain b lanes spares) (fun m d ⟨hb, hl, hf, hw⟩ => ?_)
  rw [Dev.retrainBridge, if_neg (by simp [hl]; omega), if_neg (by rw [Bridge.worn_iff]; exact hw)]
  exact ⟨d.bridge_setBridge b _, fun _ _ => rfl⟩

theorem bridgeRetrain_stops : Event (.bridgeRetrain b lanes spares)
    (fun _ d => b < 12 ∧ (d.bridge b).lost = false ∧ 16 ≤ (d.bridge b).fails ∧ ((d.bridge b).retrained lanes spares).Worn)
    (fun _ d e => Dev.Stopped d e b) := by
  refine onDev_event (exec_bridgeRetrain b lanes spares) (fun m d ⟨hb, hl, hf, hw⟩ => ?_)
  rw [Dev.retrainBridge, if_neg (by simp [hl]; omega), if_pos (by rw [Bridge.worn_iff]; exact hw)]
  have hstop := (d.setBridge b ((d.bridge b).retrained lanes spares)).loseBridge_stops m hb (by rw [Dev.bridge_setBridge]; exact hl)
  exact hstop

theorem bridgeRetrain_kept : Event (.bridgeRetrain b lanes spares)
    (fun _ d => 12 ≤ b ∨ (d.bridge b).lost = true ∨ (d.bridge b).fails < 16) (fun _ d e => e = d) :=
  onDev_event (exec_bridgeRetrain b lanes spares) (fun _ _ h => if_pos h)

theorem exec_bridgeFlitReceive (m : Memory) (d : Dev) (hb : b < 12) (hl : (d.bridge b).lost = false) : exec (.bridgeFlitReceive b flit) ⟨m, d⟩ =
    .next ⟨m, d.setBridge b (if Config.bridgeFlitGood flit then (d.bridge b).takeGood else (d.bridge b).takeBad flit)⟩ := by
  have hl' : (d.bridges.get .init b).lost = false := hl
  unfold exec execBridgeFlitReceive onDev
  dsimp only
  rw [if_neg (by rw [hl']; simpa using hb)]
  rfl

/-- What the sender keeps once its flit was refused. -/
def Bridge.kept (x : Bridge) (flit : V512) : List V512 := if x.sent = [] then [Config.bridgeCopy flit] else x.sent.take 256

theorem Bridge.takeBad_eq (x : Bridge) (flit : V512) : x.takeBad flit = { x with
    fails := x.fails + (if x.sent = [] then 0 else 1), acks := x.acks ++ [(false, x.rxSeq)], sent := x.kept flit, out := x.out ++ x.kept flit } := by
  unfold Bridge.takeBad Bridge.kept
  simp only [List.isEmpty_iff]

theorem bridgeFlitReceive_taken : Event (.bridgeFlitReceive b flit) (fun _ d => b < 12 ∧ (d.bridge b).lost = false)
    (fun _ d e => d.sameSlots e ∧ e.bridge b = if Config.bridgeFlitGood flit then
        { d.bridge b with rxSeq := (d.bridge b).rxSeq + 1, fails := 0, acks := (d.bridge b).acks ++ [(true, (d.bridge b).rxSeq + 1)], sent := (d.bridge b).sent.drop 1 }
      else
        { d.bridge b with fails := (d.bridge b).fails + (if (d.bridge b).sent = [] then 0 else 1), acks := (d.bridge b).acks ++ [(false, (d.bridge b).rxSeq)]
                          sent := (d.bridge b).kept flit, out := (d.bridge b).out ++ (d.bridge b).kept flit }) := by
  rintro ⟨m, d⟩ ⟨hb, hl⟩
  refine ⟨_, exec_bridgeFlitReceive b flit m d hb hl, fun _ => rfl, fun _ _ => rfl, ?_⟩
  dsimp only
  rw [Dev.bridge_setBridge, Bridge.takeBad_eq]
  rfl

end

/-- Settles O50: each clause is the event's lemma. -/
theorem errorsAndBridges : Obligations.ErrorsAndBridges := by
  unfold Obligations.ErrorsAndBridges
  refine ⟨fun dist str h n r w va pa => ⟨correctableError_counts dist str, regfileError h r, lwordError h w, lineError pa, l1Error h va, icacheError h va,
    syncError h n va, patrolScrub_bad pa, patrolScrub_good pa⟩, fun b lanes flit spares => ?_⟩
  exact ⟨bridgeLost_stops b, bridgeLost_kept b, bridgeRetrain_spared b lanes spares, bridgeRetrain_stops b lanes spares, bridgeRetrain_kept b lanes spares,
    bridgeFlitReceive_taken b flit⟩

end Sys2Proof.Machine
end

section
/-! PROOFS. Window accesses at their core, faults found after issue, and table walks (R29, R114, R147, R315 to R318). -/

namespace Sys2Proof.Machine

/-! ### Window accesses at their core (R114, R147) -/

/-- A word of a region under table 0, of a core where nothing is parked. -/
def Core.Bare0 (c : Core) (a : Nat) : Prop := ∃ key g, c.regionOf a = some (key, g) ∧ rgnTbl g = 0

theorem Core.bankStep_rld {c : Core} {a : Nat} (h : c.Bare0 a) (hgood : c.lsPoison.contains (a / 4) = false) (v : W32) :
    c.bankStep a .rld v = (.out (c.word a), c, false) := by
  obtain ⟨key, g, hreg, htbl⟩ := h
  simp [Core.bankStep, hreg, BankKind.load, hgood, htbl, Core.entry, actOf, setTagOf, Core.target, -List.contains_eq_mem]

theorem Core.bankStep_rst {c : Core} {a : Nat} (h : c.Bare0 a) (hopen : c.sealedAt a = false) (v : W32) :
    c.bankStep a .rst v = (.out 0#32, c.setWord a v, false) := by
  obtain ⟨key, g, hreg, htbl⟩ := h
  simp [Core.bankStep, hreg, BankKind.load, hopen, htbl, Core.entry, actOf, setTagOf, Core.target]

theorem Core.bankStep_rst_sealed {c : Core} {a : Nat} (h : c.Bare0 a) (hopen : c.sealedAt a = true) (v : W32) :
    c.bankStep a .rst v = (.refused a, c, false) := by
  obtain ⟨key, g, hreg, htbl⟩ := h
  simp [Core.bankStep, hreg, BankKind.load, hopen]

/-- A bank operation that neither parks nor writes a tag. -/
theorem Dev.bankOp_of {d : Dev} {h a : Nat} {k : BankKind} {v : W32} {src : ParkSrc} {o : BankOut} {c' : Core}
    (hb : (d.core h).bankStep a k v = (o, c', false)) (ho : ∀ cls, o ≠ .parked cls) : d.bankOp h a k v src = (o, d.updCore h (fun _ => c')) := by
  unfold Dev.bankOp
  dsimp only
  split
  · next cls _ _ he => exact absurd (congrArg Prod.fst (hb.symm.trans he)) (ho cls)
  · next o' c'' wrote _ he =>
    obtain ⟨rfl, rfl, rfl⟩ : o = o' ∧ c' = c'' ∧ false = wrote := by simpa using hb.symm.trans he
    rfl

variable {acc : RemoteAcc}

/-- A window access that nothing holds back at its core. -/
structure Dev.Reaches (d : Dev) (acc : RemoteAcc) : Prop where
  away : d.awayOn (terrOf acc.lk) acc.dst = false
  back : (d.core acc.dst).unrestored acc.addr = false
  held : (d.core acc.dst).held = []
  parked : (d.core acc.dst).parked = []
  refused : (d.slot acc.h acc.n).refused = []

/-- What a core does with a window access that it takes up. -/
def Dev.windowAccess (d : Dev) (acc : RemoteAcc) : BankOut × Dev :=
  if (d.core acc.dst).inTerrace (terrOf acc.lk) acc.addr then d.bankOp acc.dst acc.addr (if acc.store then .rst else .rld) acc.data (.remote acc)
  else (.trapped 0x04 1, d)

theorem exec_remoteAccess {s : State} (h : s.dev.Reaches acc) :
    exec (.remoteAccess acc) s = .next ⟨s.mem, (s.dev.windowAccess acc).2.settleRemote acc (s.dev.windowAccess acc).1⟩ := by
  obtain ⟨haway, hback, hheld, hparked, hrefused⟩ := h
  have hfree : ¬(s.dev.awayOn (terrOf acc.lk) acc.dst || (s.dev.core acc.dst).unrestored acc.addr ||
      (s.dev.core acc.dst).held.any (fun r => r.h == acc.h && r.n == acc.n) ||
      (s.dev.core acc.dst).parked.any (fun p => match p.src with | .remote r => r.h == acc.h && r.n == acc.n | _ => false) ||
      (s.dev.slot acc.h acc.n).refused.any (fun r => r.dst == acc.dst && r.op != acc.op)) = true := by
    rw [haway, hback, hheld, hparked, hrefused]
    exact Bool.false_ne_true
  unfold exec execRemoteAccess onDev
  exact congrArg (fun d => Host.Outcome.next (State.mk s.mem d)) (if_neg hfree)

theorem Dev.windowAccess_of {d : Dev} {key : Nat} {g : W32} (hreg : (d.core acc.dst).regionOf acc.addr = some (key, g))
    (hterr : terrOf (key / 16) = terrOf acc.lk) {o : BankOut} {c' : Core}
    (hb : (d.core acc.dst).bankStep acc.addr (if acc.store then .rst else .rld) acc.data = (o, c', false)) (ho : ∀ cls, o ≠ .parked cls) :
    d.windowAccess acc = (o, d.updCore acc.dst (fun _ => c')) := by
  rw [Dev.windowAccess, if_pos, Dev.bankOp_of hb ho]
  simp [Core.inTerrace, hreg, hterr]

theorem Dev.slot_setCore {d : Dev} {h : Nat} {k : Core} (hk : ∀ n, k.slot n = (d.core h).slot n) (j n : Nat) :
    (d.updCore h (fun _ => k)).slot j n = d.slot j n := by
  by_cases hj : j = h
  · subst hj
    rw [Dev.slot, Dev.core_updCore_self, hk, ← Dev.slot]
  · rw [Dev.slot, Dev.core_updCore_ne _ _ _ _ hj, ← Dev.slot]

/-- The word lies in a region of the slot's terrace under table 0. -/
def Dev.PlainAt (d : Dev) (acc : RemoteAcc) : Prop :=
  ∃ key g, (d.core acc.dst).regionOf acc.addr = some (key, g) ∧ rgnTbl g = 0 ∧ terrOf (key / 16) = terrOf acc.lk

theorem remoteAccess_loads : Event (.remoteAccess acc)
    (fun _ d => acc.store = false ∧ (d.Reaches acc ∧ d.PlainAt acc) ∧ (d.core acc.dst).lsPoison.contains (acc.addr / 4) = false)
    (fun _ d e => d.sameSlots e ∧ e.coming d.clock (.remoteAccessReply acc.h acc.n acc.op acc.idx
      (.data ((d.core acc.dst).word acc.addr) ((d.core acc.dst).sealedAt acc.addr)))) := by
  intro s ⟨hload, ⟨hfree, key, g, hreg, htbl, hterr⟩, hgood⟩
  have hout : s.dev.windowAccess acc = (.out ((s.dev.core acc.dst).word acc.addr), s.dev.updCore acc.dst (fun _ => s.dev.core acc.dst)) :=
    Dev.windowAccess_of hreg hterr (by rw [hload]; exact Core.bankStep_rld ⟨key, g, hreg, htbl⟩ hgood _) (fun _ => nofun)
  refine ⟨_, exec_remoteAccess hfree, fun _ => rfl, ?_⟩
  rw [hout]
  simp only [Dev.settleRemote, hload, Bool.false_eq_true, if_false, Dev.core_updCore_self]
  exact ⟨fun j n => (Dev.slot_setCore (fun _ => rfl) j n :), Dev.coming_send _ _ _⟩

theorem remoteAccess_outside : Event (.remoteAccess acc)
    (fun _ d => acc.store = false ∧ d.Reaches acc ∧ (d.core acc.dst).inTerrace (terrOf acc.lk) acc.addr = false)
    (fun _ d e => d.sameSlots e ∧ e.coming d.clock (.remoteAccessReply acc.h acc.n acc.op acc.idx (.trapped 0x04 1))) := by
  intro s ⟨hload, hfree, hout⟩
  refine ⟨_, exec_remoteAccess hfree, fun _ => rfl, ?_⟩
  have hw : s.dev.windowAccess acc = (.trapped 0x04 1, s.dev) := by
    rw [Dev.windowAccess, if_neg (by rw [hout]; exact Bool.false_ne_true)]
  rw [hw]
  simp only [Dev.settleRemote, hload, Bool.not_false, if_true]
  exact ⟨fun _ _ => rfl, Dev.coming_send _ _ _⟩

theorem remoteAccess_stores : Event (.remoteAccess acc)
    (fun _ d => acc.store = true ∧ (d.Reaches acc ∧ d.PlainAt acc) ∧ (d.core acc.dst).sealedAt acc.addr = false)
    (fun _ d e => d.sameSlots e ∧ e.coming d.clock (.remoteAccessReply acc.h acc.n acc.op acc.idx .performed) ∧
      ∀ b, (e.core acc.dst).word b = if b / 4 = acc.addr / 4 then acc.data else (d.core acc.dst).word b) := by
  intro s ⟨hstore, ⟨hfree, key, g, hreg, htbl, hterr⟩, hopen⟩
  have hout : s.dev.windowAccess acc = (.out 0#32, s.dev.updCore acc.dst (fun _ => (s.dev.core acc.dst).setWord acc.addr acc.data)) :=
    Dev.windowAccess_of hreg hterr (by rw [hstore]; exact Core.bankStep_rst ⟨key, g, hreg, htbl⟩ hopen _) (fun _ => nofun)
  refine ⟨_, exec_remoteAccess hfree, fun _ => rfl, ?_⟩
  rw [hout]
  simp only [Dev.settleRemote, hstore, if_true]
  refine ⟨fun j n => (Dev.slot_setCore (fun _ => Core.slot_setWord _ _ _ _) j n :), Dev.coming_send _ _ _, fun b => ?_⟩
  refine (congrArg (fun c : Core => c.word b) (Dev.core_updCore_self s.dev acc.dst (fun _ => (s.dev.core acc.dst).setWord acc.addr acc.data)) :).trans ?_
  rw [Core.word_setWord]
  exact if_congr eq_comm rfl rfl

theorem remoteAccess_refused : Event (.remoteAccess acc)
    (fun _ d => acc.store = true ∧ (d.Reaches acc ∧ d.PlainAt acc) ∧ (d.core acc.dst).sealedAt acc.addr = true ∧
      (d.slot acc.h acc.n).winStores.contains acc.op = true)
    (fun _ d e => e.slot acc.h acc.n = { d.slot acc.h acc.n with refused := [acc] } ∧
      e.agenda = Act.ev (.windowStoreRefused acc 0x41 9) :: d.agenda ∧ ∀ b, (e.core acc.dst).word b = (d.core acc.dst).word b) := by
  intro s ⟨hstore, ⟨hfree, key, g, hreg, htbl, hterr⟩, hsealed, hwin⟩
  have hout : s.dev.windowAccess acc = (.refused acc.addr, s.dev.updCore acc.dst (fun _ => s.dev.core acc.dst)) :=
    Dev.windowAccess_of hreg hterr (by rw [hstore]; exact Core.bankStep_rst_sealed ⟨key, g, hreg, htbl⟩ hsealed _) (fun _ => nofun)
  refine ⟨_, exec_remoteAccess hfree, fun _ => rfl, ?_⟩
  rw [hout]
  obtain ⟨d, hd⟩ : ∃ d, d = s.dev.updCore acc.dst (fun _ => s.dev.core acc.dst) := ⟨_, rfl⟩
  have hslot : ∀ j n, d.slot j n = s.dev.slot j n := hd ▸ Dev.slot_setCore (fun _ => rfl)
  have hcore : d.core acc.dst = s.dev.core acc.dst := hd ▸ Dev.core_updCore_self _ _ _
  have hagenda : d.agenda = s.dev.agenda := hd ▸ rfl
  rw [← hd]
  rw [Dev.settleRemote]
  dsimp only
  rw [if_neg (by simp [hstore]), if_pos (by rw [hslot]; exact hwin)]
  refine ⟨?_, (congrArg (Act.ev (.windowStoreRefused acc 0x41 9) :: ·) hagenda :), fun b => ?_⟩
  · refine (Dev.slot_updSlot_self _ _ _ _).trans ?_
    rw [hslot, hfree.refused]
    rfl
  · exact (congrArg (fun c : Core => c.word b) (Dev.core_updSlot_bare d acc.h acc.n acc.dst _) :).trans (congrArg (fun c : Core => c.word b) hcore :)

theorem windowStoreRefused_files (cause sub : Nat) : Event (.windowStoreRefused acc cause sub)
    (fun _ d => ∀ y, y ∈ (d.slot acc.h acc.n).defer → y.op = some acc.op → y.svc = true)
    (fun _ d e => ∃ lanes, (e.slot acc.h acc.n) = { d.slot acc.h acc.n with defer := (d.slot acc.h acc.n).defer ++
        [⟨cause, sub, acc.pc, if cause = 0x41 then windowWord acc.va acc.addr else acc.va, lanes, false, some acc.op, 0⟩] } ∧
      ∀ l, l < 16 → lanes.getLsbD l = (d.slot acc.h acc.n).refused.any (fun y => y.op == acc.op && y.lane == l)) := by
  intro s hnone
  have hfind : (s.dev.slot acc.h acc.n).defer.find? (fun f => f.op == some acc.op && !f.svc) = none := List.find?_eq_none.mpr fun y hy => by
    simpa using hnone y hy
  refine ⟨_, rfl, fun _ => rfl, ?_⟩
  dsimp only
  rw [hfind]
  exact ⟨_, Dev.slot_updSlot_self _ _ _ _, fun l hl => getLsbD_ofBits _ hl⟩

/-! ### Answers to window accesses (R147) -/

/-- Access number i of an instruction stands as x does, but for the fault that tells of it. -/
def LongOp.At (o : LongOp) (i : Nat) (x : Acc) : Prop := ∃ y, o.acc[i]? = some y ∧ y.st = x.st ∧ y.va = x.va ∧ y.lane = x.lane

theorem LongOp.At.updAcc {o : LongOp} {i : Nat} {x : Acc} (h : o.At i x) (k : Nat) {f : Acc → Acc}
    (hf : i = k → ∀ y, (f y).st = y.st ∧ (f y).va = y.va ∧ (f y).lane = y.lane) : (o.updAcc k f).At i x := by
  obtain ⟨y, hy, hst, hva, hlane⟩ := h
  refine ⟨if i = k then f y else y, by rw [LongOp.getElem?_updAcc, hy]; rfl, ?_⟩
  by_cases hi : i = k
  · obtain ⟨h1, h2, h3⟩ := hf hi y
    rw [if_pos hi]
    exact ⟨h1.trans hst, h2.trans hva, h3.trans hlane⟩
  · rw [if_neg hi]
    exact ⟨hst, hva, hlane⟩

theorem LongOp.At.map {o : LongOp} {i : Nat} {x : Acc} (h : o.At i x) {f : Acc → Acc}
    (hf : ∀ y, (f y).st = y.st ∧ (f y).va = y.va ∧ (f y).lane = y.lane) : LongOp.At { o with acc := o.acc.map f } i x := by
  obtain ⟨y, hy, hst, hva, hlane⟩ := h
  obtain ⟨h1, h2, h3⟩ := hf y
  exact ⟨f y, by rw [List.getElem?_map, hy]; rfl, h1.trans hst, h2.trans hva, h3.trans hlane⟩

/-- Telling a fault leaves where an access stands that failed. -/
theorem LongOp.At.blame {o : LongOp} {i : Nat} {x : Acc} {d : Dev} {terr : Nat} {f : Deferred} (h : o.At i x) (hx : x.st.faulty = true)
    (hf : d.nextFault terr o = some f) (g : Deferred) : (o.blame g).At i x := by
  have hmap : LongOp.At { o with acc := o.acc.map (fun a => if o.hits.contains a then { a with flt := g.id } else a) } i x :=
    h.map (fun y => by split <;> exact ⟨rfl, rfl, rfl⟩)
  unfold LongOp.blame
  dsimp only
  split
  · next v off rot hk =>
    split
    · exact h.updAcc 0 (fun _ _ => ⟨rfl, rfl, rfl⟩)
    · next hfirst =>
      split
      · refine h.updAcc 0 (fun hi => ?_)
        obtain ⟨y, hy, hst, -⟩ := h
        have hmem : y ∈ o.acc.take 1 := List.mem_of_getElem? (i := 0) (by rw [List.getElem?_take_of_lt Nat.one_pos, ← hi]; exact hy)
        have hany : (o.acc.take 1).any (fun a => a.st.faulty) = true := List.any_eq_true.mpr ⟨y, hmem, hst ▸ hx⟩
        simp only [Dev.nextFault, hk, Bool.not_eq_true] at hf hfirst
        rw [hfirst, hany] at hf
        simp at hf
      · exact hmap
  · exact hmap

theorem Dev.fileFaults_at {h n id i : Nat} {x : Acc} (hx : x.st.faulty = true) (k : Nat) {d : Dev} {o : LongOp} (ho : d.op? h n id = some o)
    (hat : o.At i x) : ∃ o', (Dev.fileFaults h n id k d).op? h n id = some o' ∧ o'.At i x := by
  induction k generalizing d o with
  | zero => exact ⟨o, ho, hat⟩
  | succ k ih =>
    unfold Dev.fileFaults
    split
    · exact ⟨o, ho, hat⟩
    · next f hf =>
      rw [ho, Option.bind_some] at hf
      refine ih (o := o.blame { f with id := d.count + 1 }) ?_ (hat.blame hx hf _)
      have hop := Dev.op?_updOp (g := fun o => o.blame { f with id := d.count + 1 }) (fun o => (o.told_blame _).id) ho
      rw [Dev.op?] at hop
      refine Eq.trans (congrArg (fun s : Slot => s.ops.find? (fun o => o.id == id)) (Dev.slot_updSlot_self _ _ _ _) :) hop

theorem Dev.refile_at {h n id i : Nat} {x : Acc} {d : Dev} {o : LongOp} (ho : d.op? h n id = some o) (hat : o.At i x) :
    ∃ o', (d.refile h n id).op? h n id = some o' ∧ o'.At i x := by
  unfold Dev.refile
  rw [ho]
  dsimp only
  split
  · exact ⟨o, ho, hat⟩
  · have hop := Dev.op?_updOp (g := fun o : LongOp => { o with acc := o.acc.map (fun a => if a.st.faulty &&
      (((d.slot h n).defer.filter (fun f => f.op == some id)).map (·.id)).contains a.flt then { a with flt := 0 } else a) }) (fun _ => rfl) ho
    rw [Dev.op?] at hop
    exact ⟨_, Eq.trans (congrArg (fun s : Slot => s.ops.find? (fun o => o.id == id)) (Dev.slot_updSlot_self _ _ _ _) :) hop,
      hat.map (fun y => by split <;> exact ⟨rfl, rfl, rfl⟩)⟩

/-- What an access that failed was and where it stands stays through the telling of faults. -/
theorem Dev.settleOp_at {h n id i : Nat} {x : Acc} (hx : x.st.faulty = true) {d : Dev} {o : LongOp} (ho : d.op? h n id = some o)
    (hat : o.At i x) : ∃ o', (d.settleOp h n id).op? h n id = some o' ∧ o'.At i x := by
  obtain ⟨o1, ho1, hat1⟩ := Dev.refile_at ho hat
  obtain ⟨o2, ho2, hat2⟩ := Dev.fileFaults_at hx 3 ho1 hat1
  unfold Dev.settleOp
  dsimp only
  rw [ho2]
  dsimp only
  split
  · exact ⟨o2, ho2, hat2⟩
  · exact ⟨_, Dev.op?_updOp (g := fun o => { o with fin := true }) (fun _ => rfl) ho2, hat2⟩

/-- A load all of whose accesses have their data lands. -/
theorem Dev.settleOp_lands {h n id : Nat} {d : Dev} {o : LongOp} {v : Nat} (ho : d.op? h n id = some o) (hk : o.kind = .gld v) (hf : o.fin = false)
    (hgot : ∀ x, x ∈ o.acc → x.st = .got) : (d.settleOp h n id).coming d.clock (.resultLanding h n id) := by
  have hnone : ∀ p : Acc → Bool, (∀ x, x.st = .got → p x = false) → o.acc.any p = false := fun p hp =>
    List.any_eq_false.mpr fun x hx => by rw [hp x (hgot x hx)]; exact Bool.false_ne_true
  obtain ⟨d1, hd1, hc1, ho1⟩ : ∃ d1, d1 = d.refile h n id ∧ d1.clock = d.clock ∧ d1.op? h n id = some o := by
    refine ⟨_, rfl, (d.settling_refile h n id).clock, ?_⟩
    unfold Dev.refile
    rw [ho]
    dsimp only
    rw [hk]
    have hop := Dev.op?_updOp (g := fun o : LongOp => { o with acc := o.acc.map (fun a => if a.st.faulty &&
      (((d.slot h n).defer.filter (fun f => f.op == some id)).map (·.id)).contains a.flt then { a with flt := 0 } else a) }) (fun _ => rfl) ho
    rw [Dev.op?] at hop
    refine Eq.trans (congrArg (fun s : Slot => s.ops.find? (fun o => o.id == id)) (Dev.slot_updSlot_self _ _ _ _) :) (hop.trans ?_)
    rw [List.map_congr_left (g := fun a => a) (fun a ha => if_neg (by rw [hgot a ha]; exact Bool.false_ne_true)), List.map_id']
  have hnext : d1.nextFault (terrOf (d1.slot h n).lk) o = none := by
    have hhits : o.hits = [] := by
      have hus : o.acc.filter (fun a => a.st.faulty && a.flt == 0) = [] := List.filter_eq_nil_iff.mpr fun a ha => by rw [hgot a ha]; exact Bool.false_ne_true
      rw [LongOp.hits, hus]
      rfl
    unfold Dev.nextFault
    rw [hk]
    dsimp only
    rw [hnone _ (fun x hx => by rw [hx]; rfl), if_neg Bool.false_ne_true, LongOp.fault, hhits]
  have hfile : Dev.fileFaults h n id 3 d1 = d1 := by
    unfold Dev.fileFaults
    rw [ho1, Option.bind_some, hnext]
  unfold Dev.settleOp
  dsimp only
  rw [← hd1, hfile, ho1]
  dsimp only
  rw [hf, hk, hnone _ (fun x hx => by rw [hx]; rfl), if_neg (by exact Bool.false_ne_true), ← hc1]
  exact Dev.coming_send _ _ _

/-- The registers and the PC of a slot through the telling of faults. -/
theorem Dev.Settling.sameUser {d e : Dev} {h n : Nat} (x : d.Settling e h n) (j m : Nat) : (d.slot j m).SameUser (e.slot j m) := by
  by_cases hj : j = h ∧ m = n
  · obtain ⟨rfl, rfl⟩ := hj
    obtain ⟨f, df, -, hs⟩ := x.slot
    rw [hs]
    exact ⟨rfl, fun _ => ⟨rfl, rfl, rfl⟩⟩
  · rw [x.slots j m hj]
    exact ⟨rfl, fun _ => ⟨rfl, rfl, rfl⟩⟩

theorem Slot.SameUser.refl (a : Slot) : a.SameUser a := ⟨rfl, fun _ => ⟨rfl, rfl, rfl⟩⟩

theorem Dev.sameUser_updSlot (d : Dev) (h n : Nat) {f : Slot → Slot} (hf : (d.slot h n).SameUser (f (d.slot h n))) (j m : Nat) :
    (d.slot j m).SameUser ((d.updSlot h n f).slot j m) := by
  by_cases hj : j = h ∧ m = n
  · obtain ⟨rfl, rfl⟩ := hj
    rw [Dev.slot_updSlot_self]
    exact hf
  · rw [Dev.slot_updSlot_ne _ _ _ _ _ _ hj]
    exact .refl _

theorem Dev.sameUser_updOp (d : Dev) (h n id : Nat) (f : LongOp → LongOp) (j m : Nat) : (d.slot j m).SameUser ((d.updOp h n id f).slot j m) :=
  d.sameUser_updSlot h n (f := fun s => { s with ops := s.ops.map (fun o => if o.id == id then f o else o) }) ⟨rfl, fun _ => ⟨rfl, rfl, rfl⟩⟩ j m

theorem Dev.slot_wakeSlot (d : Dev) (h n : Nat) (p : WaitFor → Bool) (j m : Nat) : (d.slot j m).Woken ((d.wakeSlot h n p).slot j m) := by
  unfold Dev.wakeSlot
  split
  · split
    · by_cases hj : j = h ∧ m = n
      · obtain ⟨rfl, rfl⟩ := hj
        exact Or.inr ⟨d.clock, Dev.slot_updSlot_self _ _ _ _⟩
      · exact Or.inl (Dev.slot_updSlot_ne _ _ _ _ _ _ hj)
    · exact .refl _
  · exact .refl _

theorem Dev.sameUser_wakeSlot (d : Dev) (h n : Nat) (p : WaitFor → Bool) (j m : Nat) : (d.slot j m).SameUser ((d.wakeSlot h n p).slot j m) :=
  (d.slot_wakeSlot h n p j m).sameUser

theorem Dev.ops_wakeSlot (d : Dev) (h n : Nat) (p : WaitFor → Bool) (id : Nat) : (d.wakeSlot h n p).op? h n id = d.op? h n id := by
  rcases d.slot_wakeSlot h n p h n with hs | ⟨k, hs⟩ <;> rw [Dev.op?, hs] <;> rfl

/-- An access of an outstanding instruction is answered: the faults are told, and the slot may go on. -/
def Dev.answerAcc (d : Dev) (h n op idx : Nat) (f : Acc → Acc) : Dev :=
  ((d.updOp h n op (fun o => o.updAcc idx f)).settleOp h n op).wakeSlot h n (· == .reply)

theorem Dev.answerAcc_sameUser (d : Dev) (h n op idx : Nat) (f : Acc → Acc) : (d.slot h n).SameUser ((d.answerAcc h n op idx f).slot h n) :=
  ((d.sameUser_updOp h n op _ h n).trans ((Dev.settling_settleOp _ h n op).sameUser h n)).trans (Dev.sameUser_wakeSlot _ _ _ _ _ _)

/-- The instruction as its answered access leaves it, before faults are told. -/
theorem Dev.op?_answered {d : Dev} {h n op idx : Nat} {o : LongOp} {a : Acc} (ho : d.op? h n op = some o) (ha : o.acc[idx]? = some a) (f : Acc → Acc) :
    (d.updOp h n op (fun o => o.updAcc idx f)).op? h n op = some (o.updAcc idx f) ∧ (o.updAcc idx f).acc[idx]? = some (f a) := by
  refine ⟨Dev.op?_updOp (fun _ => rfl) ho, ?_⟩
  rw [LongOp.getElem?_updAcc, ha, Option.map_some, if_pos rfl]

theorem remoteAccessReply_trapped (h n op idx cause sub : Nat) (o : LongOp) (a : Acc) : Event (.remoteAccessReply h n op idx (.trapped cause sub))
    (fun _ d => d.op? h n op = some o ∧ o.acc[idx]? = some a)
    (fun _ d e => (d.slot h n).SameUser (e.slot h n) ∧ ∃ o', e.op? h n op = some o' ∧ ∃ a', o'.acc[idx]? = some a' ∧ a'.st = .bad cause sub ∧
      a'.va = a.va ∧ a'.lane = a.lane) := by
  intro s ⟨ho, ha⟩
  refine ⟨⟨s.mem, s.dev.answerAcc h n op idx (fun a => { a with st := .bad cause sub })⟩, rfl, fun _ => rfl, Dev.answerAcc_sameUser _ _ _ _ _ _, ?_⟩
  obtain ⟨ho1, ha1⟩ := Dev.op?_answered ho ha (fun a => { a with st := .bad cause sub })
  obtain ⟨o', ho', hat⟩ := Dev.settleOp_at (x := { a with st := .bad cause sub }) rfl ho1 ⟨_, ha1, rfl, rfl, rfl⟩
  exact ⟨o', by rw [Dev.answerAcc, Dev.ops_wakeSlot, ho'], hat⟩

theorem remoteAccessReply_parked (h n op idx : Nat) (o : LongOp) (a : Acc) : Event (.remoteAccessReply h n op idx .parked)
    (fun _ d => d.op? h n op = some o ∧ o.acc[idx]? = some a)
    (fun _ d e => (d.slot h n).SameUser (e.slot h n) ∧ ∃ o', e.op? h n op = some o' ∧ o'.acc[idx]? = some { a with st := .parked }) := by
  intro s ⟨ho, ha⟩
  exact ⟨_, rfl, fun _ => rfl, s.dev.sameUser_updOp h n op _ h n, _, Dev.op?_answered ho ha (fun a => { a with st := .parked })⟩

theorem remoteAccessReply_performed (h n op idx : Nat) : Event (.remoteAccessReply h n op idx .performed) (fun _ _ => True)
    (fun _ d e => (d.slot h n).SameUser (e.slot h n) ∧ (e.slot h n).winStores = (d.slot h n).winStores.erase op) := by
  intro s _
  obtain ⟨d1, hd1⟩ : ∃ d1, d1 = s.dev.updSlot h n (fun s => { s with winStores := s.winStores.erase op }) := ⟨_, rfl⟩
  have h1 : d1.slot h n = { s.dev.slot h n with winStores := (s.dev.slot h n).winStores.erase op } := hd1 ▸ Dev.slot_updSlot_self _ _ _ _
  have hw : (d1.slot h n).Woken ((d1.wakeVisible h n).slot h n) := by
    unfold Dev.wakeVisible
    split <;> exact Dev.slot_wakeSlot _ _ _ _ _ _
  refine ⟨⟨s.mem, d1.wakeVisible h n⟩, by rw [hd1]; rfl, fun _ => rfl, ?_, ?_⟩
  · refine Slot.SameUser.trans ?_ hw.sameUser
    rw [h1]
    exact ⟨rfl, fun _ => ⟨rfl, rfl, rfl⟩⟩
  · have hwin : (d1.slot h n).winStores = (s.dev.slot h n).winStores.erase op := by rw [h1]
    rcases hw with hw | ⟨k, hw⟩ <;> rw [hw, ← hwin] <;> rfl

/-- The core of an answered word is told of its delay, and its L1 may take a sealed line. -/
def Dev.filledBy (d : Dev) (h : Nat) (a : Acc) (sealedWord : Bool) : Dev :=
  let k := d.core (windowCore a.va)
  let base := lineOf (windowAddr a.va)
  let d := d.delay h (windowCore a.va / 36)
  if sealedWord && (k.lineWords base).getLsbD (windowAddr a.va % 128 / 4) then
    d.updCore h (fun c => c.fillL1 (d.victim (lineOf a.va.toNat)) a.va.toNat ⟨k.recLine base, true, none, k.lineWords base⟩) else d

theorem Dev.slot_filledBy (d : Dev) (h : Nat) (a : Acc) (b : Bool) (j n : Nat) : (d.filledBy h a b).slot j n = d.slot j n := by
  unfold Dev.filledBy
  dsimp only
  split
  · refine (Dev.slot_updCore_of ?_ _ h j n).trans (d.slot_delay _ _ _ _)
    exact fun _ _ => rfl
  · exact d.slot_delay _ _ _ _

theorem Dev.clock_filledBy (d : Dev) (h : Nat) (a : Acc) (b : Bool) : (d.filledBy h a b).clock = d.clock := by
  unfold Dev.filledBy
  dsimp only
  split <;> rfl

theorem remoteAccessReply_data (h n op idx : Nat) (x : W32) (o : LongOp) (a : Acc) : Event (.remoteAccessReply h n op idx (.data x false))
    (fun _ d => (d.op? h n op = some o ∧ o.acc[idx]? = some a) ∧ (idx = 0 → ∀ v off rot, o.kind ≠ .ldkr v off rot))
    (fun _ d e => (d.slot h n).SameUser (e.slot h n) ∧ (∃ o', e.op? h n op = some o' ∧ ∃ a', o'.acc[idx]? = some a' ∧ a'.st = .got ∧
        a'.line = x.setWidth 1024 <<< (8 * (a.va.toNat % 128))) ∧
      (∀ v, o.kind = .gld v → o.fin = false → (∀ j y, o.acc[j]? = some y → j ≠ idx → y.st = .got) → e.coming d.clock (.resultLanding h n op))) := by
  intro s ⟨⟨ho, ha⟩, hk⟩
  obtain ⟨d0, hd0⟩ : ∃ d0, d0 = s.dev.filledBy h a false := ⟨_, rfl⟩
  have hslot : ∀ j m, d0.slot j m = s.dev.slot j m := hd0 ▸ s.dev.slot_filledBy h a false
  have hclock : d0.clock = s.dev.clock := hd0 ▸ s.dev.clock_filledBy h a false
  have ho0 : d0.op? h n op = some o := by rw [Dev.op?, hslot, ← Dev.op?, ho]
  have he : exec (.remoteAccessReply h n op idx (.data x false)) s =
      .next ⟨s.mem, d0.answerAcc h n op idx (fun y => { y with st := .got, line := x.setWidth 1024 <<< (8 * (a.va.toNat % 128)) })⟩ := by
    have hbind : ((s.dev.op? h n op).bind (fun o => o.acc[idx]?)) = some a := by rw [ho]; exact ha
    rw [hd0]
    unfold exec execRemoteAccessReply onDev
    dsimp only
    rw [hbind]
    rfl
  obtain ⟨f, hf⟩ : ∃ f : Acc → Acc, f = fun y => { y with st := .got, line := x.setWidth 1024 <<< (8 * (a.va.toNat % 128)) } := ⟨_, rfl⟩
  rw [← hf] at he
  obtain ⟨ho1, ha1⟩ := Dev.op?_answered ho0 ha f
  refine ⟨_, he, fun _ => rfl, hslot h n ▸ Dev.answerAcc_sameUser _ _ _ _ _ _, ?_, fun v hv hfin hall => ?_⟩
  · obtain ⟨o', ho', htold⟩ := (Dev.settling_settleOp _ h n op).op? ho1
    have ha' := htold.acc idx _ ha1 (by rw [hf]; rfl) hk
    exact ⟨o', by rw [Dev.answerAcc, Dev.ops_wakeSlot, ho'], _, ha', by rw [hf], by rw [hf]⟩
  · have hgot : ∀ y, y ∈ (o.updAcc idx f).acc → y.st = .got := fun y hy => by
      obtain ⟨j, hj⟩ := List.mem_iff_getElem?.mp hy
      rw [LongOp.getElem?_updAcc] at hj
      obtain ⟨z, hz, rfl⟩ := Option.map_eq_some_iff.mp hj
      by_cases hji : j = idx
      · rw [if_pos hji, hf]
      · rw [if_neg hji]
        exact hall j z hz hji
    have hcome := Dev.settleOp_lands ho1 (show (o.updAcc idx f).kind = .gld v from hv) hfin hgot
    rw [show (d0.updOp h n op fun o => o.updAcc idx f).clock = d0.clock from rfl, hclock] at hcome
    exact (Dev.Flows.wakeSlot _ _ _ _).coming hcome

/-! ### A fault found after issue (R29, R292) -/

/-- A slot that takes a trap found after issue. -/
def Slot.faultedAt (x : Slot) (h n : Nat) (t : Trap) (pc : W64) (clock : Nat) : Slot :=
  { (x.record h n t true false pc).noTable with st := .held .trap, heldAt := clock, closed := x.closed }

theorem Dev.trap_deferred (m : Memory) (d : Dev) (h n : Nat) (t : Trap) (pc : W64) : ∃ (d1 : Dev) (clock : Nat) (ls : List LeaseRec) (w : W32),
    d1.slot h n = { d.slot h n with leases := ls, tsw := w } ∧
    d.trap m h n t true pc = Dev.traceSlot m (if t.cause == 6 then d1.updSlot h n (fun x => x.faultedAt h n t pc clock)
      else (d1.updSlot h n (fun x => x.faultedAt h n t pc clock)).report h n 1) h n 2 := by
  obtain ⟨ls, w, hb⟩ := d.slot_breakLeases h n 2 (fun _ => !(t.cause == 0x32 && t.sub == 2))
  obtain ⟨hcores, -⟩ := (d.breakLeases h n 2 (fun _ => !(t.cause == 0x32 && t.sub == 2))).metError_flows h t
    ((d.breakLeases h n 2 (fun _ => !(t.cause == 0x32 && t.sub == 2))).slot h n).gtid
  refine ⟨_, _, ls, w, ?_, rfl⟩
  rw [Dev.slot, Dev.core, hcores, ← Dev.core, ← Dev.slot, hb]

theorem Slot.Aside.defer {a b : Slot} (h : a.Aside b) : b.defer = a.defer := by obtain ⟨_, _, _, _, _, rfl, -⟩ := h; rfl
theorem Slot.Aside.frec {a b : Slot} (h : a.Aside b) : b.frec1 = a.frec1 ∧ b.frec2 = a.frec2 := by obtain ⟨_, _, _, _, _, rfl, -⟩ := h; exact ⟨rfl, rfl⟩
theorem Slot.Aside.sameUser {a b : Slot} (h : a.Aside b) : a.SameUser b := ⟨h.pc, fun j => ⟨h.A j, h.V j, h.K j⟩⟩

/-- What a slot that takes a trap found after issue keeps, and what its record says. -/
theorem Dev.trap_deferred_spec (m : Memory) (d : Dev) (h n : Nat) (t : Trap) (pc : W64) :
    let e := (d.trap m h n t true pc).slot h n
    (d.slot h n).SameUser e ∧ e.st = .held .trap ∧ e.defer = (d.slot h n).defer ∧ e.frec1 = pc ∧ e.frec2 = t.addr ∧
      e.frec0.getLsbD 26 = true ∧ e.frec0.toNat % 256 = t.cause % 256 ∧ e.frec0.extractLsb' 32 16 = t.lanes := by
  obtain ⟨d1, clock, ls, w, hslot, heq⟩ := d.trap_deferred m h n t pc
  obtain ⟨d3, hd3⟩ : ∃ d3, d3 = d1.updSlot h n (fun x => x.faultedAt h n t pc clock) := ⟨_, rfl⟩
  have h3 : d3.slot h n = ({ d.slot h n with leases := ls, tsw := w } : Slot).faultedAt h n t pc clock := by
    rw [hd3, Dev.slot_updSlot_self, hslot]
  obtain ⟨d4, hd4⟩ : ∃ d4, d4 = if t.cause == 6 then d3 else d3.report h n 1 := ⟨_, rfl⟩
  have h4 : d4.slot h n = d3.slot h n := by rw [hd4]; split <;> rfl
  have haside : (d3.slot h n).Aside ((d4.traceSlot m h n 2).slot h n) := h4 ▸ Dev.aside_traceSlot d4 m h n 2 h n
  rw [heq, ← hd3, ← hd4]
  have hf := toNat_frec0 h t.sub t.cause t.lanes true false
  have hl := t.lanes.isLt
  rw [show true.toNat = 1 from rfl, show false.toNat = 0 from rfl] at hf
  have hrec : (d3.slot h n).frec0.toNat = _ := (congrArg (fun x : Slot => x.frec0.toNat) h3 :).trans hf
  obtain ⟨hf1, hf2⟩ := haside.frec
  refine ⟨Slot.SameUser.trans ?_ haside.sameUser, (haside.st (fun w hw => ?_)).trans (h3 ▸ rfl), haside.defer.trans (h3 ▸ rfl), hf1.trans (h3 ▸ rfl),
    hf2.trans (h3 ▸ rfl), ?_, ?_, ?_⟩
  · rw [h3]
    exact ⟨rfl, fun _ => ⟨rfl, rfl, rfl⟩⟩
  · rw [h3] at hw
    exact nomatch hw
  all_goals rw [haside.frec0]
  · refine getLsbD_of_toNat true ?_
    rw [hrec, Bool.toNat_true]
    omega
  · rw [hrec]
    omega
  · apply BitVec.eq_of_toNat_eq
    rw [BitVec.extractLsb'_toNat, Nat.shiftRight_eq_div_pow, hrec]
    omega

theorem deferredFault_taken (h n : Nat) (f : Deferred) (r : List Deferred) : Event (.deferredFault h n)
    (fun _ d => ((d.slot h n).st = .ready ∨ ∃ w, (d.slot h n).st = .waiting w) ∧ (d.slot h n).defer = f :: r ∧ f.svc = false)
    (fun _ d e => (d.slot h n).SameUser (e.slot h n) ∧ (e.slot h n).st = .held .trap ∧ (e.slot h n).defer = r ∧ (e.slot h n).frec1 = f.pc ∧
      (e.slot h n).frec2 = f.addr ∧ (e.slot h n).frec0.getLsbD 26 = true ∧ (e.slot h n).frec0.toNat % 256 = f.cause % 256 ∧
      (e.slot h n).frec0.extractLsb' 32 16 = f.lanes) := by
  intro s ⟨hst, hdefer, hsvc⟩
  obtain ⟨d1, hd1⟩ : ∃ d1, d1 = s.dev.updSlot h n (fun s => { s with defer := r }) := ⟨_, rfl⟩
  have h1 : d1.slot h n = { s.dev.slot h n with defer := r } := hd1 ▸ Dev.slot_updSlot_self _ _ _ _
  have he : exec (.deferredFault h n) s = .next ⟨s.mem, d1.trap s.mem h n ⟨f.cause, f.sub, f.addr, f.lanes⟩ true f.pc⟩ := by
    have hbody : exec (.deferredFault h n) s = execDeferredFault h n s := rfl
    rw [hbody, hd1]
    unfold execDeferredFault onDev
    dsimp only
    rcases hst with hst | ⟨w, hst⟩
    all_goals
      rw [hst, hdefer]
      dsimp only
      rw [hsvc]
      rfl
  obtain ⟨huser, hrest⟩ := d1.trap_deferred_spec s.mem h n ⟨f.cause, f.sub, f.addr, f.lanes⟩ f.pc
  refine ⟨_, he, fun _ => rfl, ?_⟩
  rw [h1] at huser hrest
  exact ⟨huser, hrest⟩

/-! ### Walks of the page table (R315 to R318) -/

/-- From d to e what waited for a page went on: translation caches, groups and homes are as they were, no slot's registers changed, and
messages were sent at most. -/
structure Dev.Resumes (d e : Dev) : Prop where
  xl : e.xl = d.xl
  groups : e.groups = d.groups
  homes : e.homes = d.homes
  flows : d.Flows e
  slots : ∀ h n, (d.slot h n).SameUser (e.slot h n)

namespace Dev.Resumes

theorem refl (d : Dev) : d.Resumes d := ⟨rfl, rfl, rfl, .refl d, fun _ _ => .refl _⟩
theorem trans {d e f : Dev} (h : d.Resumes e) (g : e.Resumes f) : d.Resumes f :=
  ⟨g.xl.trans h.xl, g.groups.trans h.groups, g.homes.trans h.homes, h.flows.trans g.flows, fun j n => (h.slots j n).trans (g.slots j n)⟩

theorem send (d : Dev) (chan : Nat) (e : Ev) : d.Resumes (d.send chan e) := ⟨rfl, rfl, rfl, .send d chan e, fun _ _ => .refl _⟩

theorem updSlot (d : Dev) (h n : Nat) {f : Slot → Slot} (hf : (d.slot h n).SameUser (f (d.slot h n))) : d.Resumes (d.updSlot h n f) :=
  ⟨rfl, rfl, rfl, .updSlot d h n f, d.sameUser_updSlot h n hf⟩

theorem updOp (d : Dev) (h n id : Nat) (f : LongOp → LongOp) : d.Resumes (d.updOp h n id f) :=
  updSlot d h n (f := fun s => { s with ops := s.ops.map (fun o => if o.id == id then f o else o) }) ⟨rfl, fun _ => ⟨rfl, rfl, rfl⟩⟩

theorem settleOp (d : Dev) (h n id : Nat) : d.Resumes (d.settleOp h n id) := by
  have hs := d.settling_settleOp h n id
  obtain ⟨l, hl⟩ := hs.net
  exact ⟨(congrArg Dev.xl hs.still :), (congrArg Dev.groups hs.still :), (congrArg Dev.homes hs.still :),
    ⟨hs.clock, hl ▸ List.prefix_append _ _⟩, hs.sameUser⟩

theorem fillPlb (d : Dev) (m : Memory) (who : Who) (dom : Nat) : d.Resumes (d.fillPlb m who dom) := by
  obtain ⟨hslots, -, hcalm, hnet⟩ := d.coreAndQuays_fillPlb m who dom
  exact ⟨(congrArg Dev.xl hcalm :), (congrArg Dev.groups hcalm :), (congrArg Dev.homes hcalm :),
    .of_net (congrArg Dev.clock hcalm :) hnet, fun j n => hslots j n ▸ .refl _⟩

theorem askWalk (d : Dev) (dist va terr : Nat) : d.Resumes (d.askWalk dist va terr) := by
  unfold Dev.askWalk
  dsimp only
  split
  · exact refl d
  · exact ⟨rfl, rfl, rfl, (Dev.Flows.send _ _ _).after (.of_net rfl rfl), fun _ _ => .refl _⟩

theorem lookDone (d : Dev) (h n id : Nat) (frame : W64) : d.Resumes (d.lookDone h n id frame) := (updOp d h n id _).trans (send _ _ _)

theorem toHome (d : Dev) (h n : Nat) (o : LongOp) (i pa : Nat) : d.Resumes (d.toHome h n o i pa) := by
  unfold Dev.toHome
  split
  · refine trans (updSlot d h n ?_) (send _ _ _)
    exact ⟨rfl, fun _ => ⟨rfl, rfl, rfl⟩⟩
  · exact send _ _ _
  · exact send _ _ _
  · exact send _ _ _

theorem resolve (m : Memory) (d : Dev) (h n id i : Nat) : d.Resumes (d.resolve m h n id i) := by
  unfold Dev.resolve
  split
  · exact refl d
  · split
    · exact refl d
    · dsimp only
      split
      · exact askWalk _ _ _ _
      · exact (updOp _ _ _ _ _).trans (settleOp _ _ _ _)
      · split
        · exact lookDone _ _ _ _ _
        · exact (updOp _ _ _ _ _).trans (settleOp _ _ _ _)
      · exact ((fillPlb _ _ _ _).trans (updOp _ _ _ _ _)).trans (toHome _ _ _ _ _ _)

theorem quays {d e : Dev} (h : d.QuaysOnly e) : d.Resumes e :=
  ⟨by rw [h], h.groups, by rw [h], .quays h, fun j n => h.slot j n ▸ .refl _⟩

end Dev.Resumes

variable {dist va entry sub fn : Nat} {l : Leaf}

/-- The walk of a page in a district that is in hand. -/
def walkMine (dist va : Nat) (w : Nat × Nat × Nat) : Bool := w.1 == dist && w.2.1 == va

/-- The walk is no longer in flight. -/
def Dev.pastWalk (d : Dev) (dist va : Nat) : Dev := { d with walks := d.walks.filter (fun w => !walkMine dist va w) }

/-- What waited for a page goes on. -/
def Dev.resumeAll (m : Memory) (d : Dev) (dist va : Nat) : Dev := (d.waitingFor dist va).foldl (fun d x => d.resolve m x.1 x.2.1 x.2.2.1 x.2.2.2) d

theorem Dev.resumeAll_resumes (m : Memory) (d : Dev) (dist va : Nat) : d.Resumes (d.resumeAll m dist va) :=
  List.foldlRecOn (motive := fun e => d.Resumes e) _ _ (.refl d) (fun e he x _ => he.trans (Dev.Resumes.resolve m e _ _ _ _))

theorem Dev.pastWalk_resumes (d : Dev) (dist va : Nat) : d.Resumes (d.pastWalk dist va) := ⟨rfl, rfl, rfl, .of_net rfl rfl, fun _ _ => .refl _⟩

/-- What the end of a walk does, by what it found. -/
def Dev.walkEnds (m : Memory) (d v : Dev) (dist va fn : Nat) : Walked → Dev
  | .leaf l entry =>
    let l' : Leaf := { l with w0 := l.w0 ||| 0x40#64 }
    if l.w0.getLsbD 6 then ((v.pastWalk dist va).cacheLeaf dist l').resumeAll m dist va
    else ((v.pastWalk dist va).setU m fn entry).elim ((d.askHost (lineOf entry)).later 1 (.tableWalkDone dist va))
      (fun v => (v.cacheLeaf dist l').resumeAll m dist va)
  | _ => (v.pastWalk dist va).resumeAll m dist va

/-- A walk that is in flight for a function. -/
def Dev.Walks (m : Memory) (d : Dev) (dist va fn : Nat) (r : Walked) : Prop :=
  d.walk m va = r ∧ d.walks.find? (fun w => w.1 == dist && w.2.1 == va) = some (dist, va, fn)

theorem exec_tableWalkDone {s : State} {r : Walked} (h : s.dev.Walks s.mem dist va fn r) (hr : r ≠ .busy)
    (hreads : (s.dev.walkVisit s.mem fn va).2 = true) :
    exec (.tableWalkDone dist va) s = .next ⟨s.mem, s.dev.walkEnds s.mem (s.dev.walkVisit s.mem fn va).1 dist va fn r⟩ := by
  obtain ⟨hwalk, hfind⟩ := h
  have hv : s.dev.walkVisit s.mem fn va = ((s.dev.walkVisit s.mem fn va).1, true) := Prod.ext rfl hreads
  have hbody : exec (.tableWalkDone dist va) s = execTableWalkDone dist va s := rfl
  rw [hbody]
  unfold execTableWalkDone onDev
  dsimp only
  rw [hfind, hwalk, Option.map_some, Option.getD_some, hv]
  cases r with
  | busy => exact absurd rfl hr
  | fault sub => rfl
  | leaf l entry =>
    refine congrArg (fun d => Host.Outcome.next (State.mk s.mem d)) ?_
    dsimp only [Dev.walkEnds]
    split
    · rfl
    · cases h : (Dev.setU s.mem (Dev.pastWalk (s.dev.walkVisit s.mem fn va).1 dist va) fn entry) <;>
      · simp only [Dev.pastWalk, walkMine] at h
        rw [h]
        rfl

theorem exec_tableWalkDone_again {s : State} {r : Walked} (h : s.dev.walk s.mem va = r)
    (hfind : s.dev.walks.find? (fun w => w.1 == dist && w.2.1 == va) = some (dist, va, fn))
    (hr : r = .busy ∨ (s.dev.walkVisit s.mem fn va).2 = false) :
    ∃ v, s.dev.QuaysOnly v ∧ exec (.tableWalkDone dist va) s = .next ⟨s.mem, v.later 1 (.tableWalkDone dist va)⟩ := by
  have hbody : exec (.tableWalkDone dist va) s = execTableWalkDone dist va s := rfl
  rw [hbody]
  unfold execTableWalkDone onDev
  dsimp only
  by_cases hb : r = .busy
  · rw [h, hb]
    exact ⟨s.dev, .refl _, rfl⟩
  · have hreads := hr.resolve_left hb
    have hv : s.dev.walkVisit s.mem fn va = ((s.dev.walkVisit s.mem fn va).1, false) := Prod.ext rfl hreads
    refine ⟨(s.dev.walkVisit s.mem fn va).1, s.dev.visit_quaysOnly _ _ _ _, ?_⟩
    rw [h, hfind, Option.map_some, Option.getD_some, hv]
    cases r with
    | busy => exact absurd rfl hb
    | fault sub => rfl
    | leaf l entry => rfl

theorem Dev.mem_cacheLeaf (d : Dev) (dist : Nat) (l : Leaf) : l ∈ (d.cacheLeaf dist l).xl.get [] dist := by
  unfold Dev.cacheLeaf AMap.upd
  dsimp only
  rw [AMap.get_put_self]
  exact List.mem_append_right _ (List.mem_singleton_self l)

/-- A leaf found by a walk stands in the district's cache, and registers are as they were. -/
def Dev.Enters (d e : Dev) (dist : Nat) (l : Leaf) : Prop := { l with w0 := l.w0 ||| 0x40#64 } ∈ e.xl.get [] dist ∧
  ∀ h n, (e.slot h n).pc = (d.slot h n).pc ∧ ∀ j, (e.slot h n).A j = (d.slot h n).A j ∧ (e.slot h n).V j = (d.slot h n).V j

theorem Dev.enters_of {d v e : Dev} (hv : ∀ h n, v.slot h n = d.slot h n)
    (he : (v.cacheLeaf dist { l with w0 := l.w0 ||| 0x40#64 }).Resumes e) : d.Enters e dist l := by
  refine ⟨he.xl ▸ Dev.mem_cacheLeaf _ _ _, fun h n => ?_⟩
  obtain ⟨hpc, hregs⟩ := he.slots h n
  rw [show (v.cacheLeaf dist { l with w0 := l.w0 ||| 0x40#64 }).slot h n = d.slot h n from hv h n] at hpc hregs
  exact ⟨hpc, fun j => ⟨(hregs j).1, (hregs j).2.1⟩⟩

/-- A walk goes on after a cycle. -/
def Dev.WalksOn (d e : Dev) (dist va : Nat) : Prop := d.sendsAfter e 1 (.tableWalkDone dist va) ∧ d.sameSlots e ∧ e.xl = d.xl ∧ e.groups = d.groups

theorem tableWalkDone_leaf : Event (.tableWalkDone dist va)
    (fun m d => d.Walks m dist va fn (.leaf l entry) ∧ (d.walkVisit m fn va).2 = true ∧ l.w0.getLsbD 6 = true)
    (fun _ d e => d.Enters e dist l ∧ e.groups = d.groups) := by
  intro s ⟨hw, hreads, hu⟩
  have hq : s.dev.QuaysOnly (s.dev.walkVisit s.mem fn va).1 := s.dev.visit_quaysOnly _ _ _ _
  refine ⟨_, exec_tableWalkDone hw nofun hreads, fun _ => rfl, ?_⟩
  obtain ⟨v, hv⟩ : ∃ v, v = (s.dev.walkVisit s.mem fn va).1 := ⟨_, rfl⟩
  rw [← hv] at hq ⊢
  simp only [Dev.walkEnds, hu, if_true]
  have hres := Dev.resumeAll_resumes s.mem ((v.pastWalk dist va).cacheLeaf dist { l with w0 := l.w0 ||| 0x40#64 }) dist va
  exact ⟨Dev.enters_of (v := v.pastWalk dist va) hq.slot hres, hres.groups.trans hq.groups⟩

theorem tableWalkDone_fault : Event (.tableWalkDone dist va) (fun m d => d.Walks m dist va fn (.fault sub) ∧ (d.walkVisit m fn va).2 = true)
    (fun _ d e => e.xl = d.xl ∧ e.groups = d.groups) := by
  intro s ⟨hw, hreads⟩
  have hq : s.dev.QuaysOnly (s.dev.walkVisit s.mem fn va).1 := s.dev.visit_quaysOnly _ _ _ _
  refine ⟨_, exec_tableWalkDone hw nofun hreads, fun _ => rfl, ?_⟩
  have hres := ((Dev.Resumes.quays hq).trans (Dev.pastWalk_resumes _ dist va)).trans (Dev.resumeAll_resumes s.mem _ dist va)
  exact ⟨hres.xl, hres.groups⟩

theorem tableWalkDone_again : Event (.tableWalkDone dist va)
    (fun m d => d.Walks m dist va fn .busy ∨ (∃ r, d.Walks m dist va fn r ∧ ¬(d.walkVisit m fn va).2 = true))
    (fun _ d e => d.WalksOn e dist va) := by
  intro s h
  obtain ⟨v, hq, he⟩ : ∃ v, s.dev.QuaysOnly v ∧ exec (.tableWalkDone dist va) s = .next ⟨s.mem, v.later 1 (.tableWalkDone dist va)⟩ := by
    rcases h with ⟨hw, hf⟩ | ⟨r, ⟨hw, hf⟩, hreads⟩
    · exact exec_tableWalkDone_again hw hf (Or.inl rfl)
    · exact exec_tableWalkDone_again hw hf (Or.inr (Bool.eq_false_iff.mpr hreads))
  refine ⟨_, he, fun _ => rfl, ?_, hq.slot, by rw [hq]; rfl, hq.groups⟩
  show v.net ++ [⟨v.clock + 1, 0, .tableWalkDone dist va⟩] = _
  rw [hq.net, hq.clock]

theorem lineOf_lineOf (a : Nat) : lineOf (lineOf a) = lineOf a := by
  unfold lineOf
  omega

/-- The line of an entry may not take U at once. -/
def Dev.Kept (d : Dev) (pa : Nat) : Prop := d.pending pa = true ∨ d.heldLine pa = true ∨ d.hostLines.contains pa = true

/-- The byte that U of a leaf's entry is in, with U set, as a one-line group. -/
def uLine (m : Memory) (entry : Nat) : GLine := ⟨lineOf entry, lineOf entry, (lineBytes entry (m.read entry ||| 0x40#8).toNat 1).1,
  (lineBytes entry (m.read entry ||| 0x40#8).toNat 1).2, none⟩

theorem Dev.setU_kept {m : Memory} {d : Dev} (h : d.Kept (lineOf entry)) : d.setU m fn entry = none := by
  have hk : (d.pending (lineOf entry) || d.heldLine (lineOf entry) || d.hostLines.contains (lineOf entry)) = true := by
    simpa [Dev.Kept, or_assoc] using h
  exact if_pos hk

theorem tableWalkDone_kept : Event (.tableWalkDone dist va)
    (fun m d => d.Walks m dist va fn (.leaf l entry) ∧ (d.walkVisit m fn va).2 = true ∧ l.w0.getLsbD 6 = false ∧ d.Kept (lineOf entry))
    (fun _ d e => d.WalksOn e dist va) := by
  intro s ⟨hw, hreads, hu, hk⟩
  have hq : s.dev.QuaysOnly (s.dev.walkVisit s.mem fn va).1 := s.dev.visit_quaysOnly _ _ _ _
  refine ⟨_, exec_tableWalkDone hw nofun hreads, fun _ => rfl, ?_⟩
  have hkept : (Dev.pastWalk (s.dev.walkVisit s.mem fn va).1 dist va).Kept (lineOf entry) := by
    rw [hq]
    exact hk
  simp only [Dev.walkEnds, hu, Bool.false_eq_true, if_false, Dev.setU_kept hkept, Option.elim]
  have hask : ∀ pa, (s.dev.askHost pa).net = s.dev.net ∧ (s.dev.askHost pa).clock = s.dev.clock ∧ s.dev.sameSlots (s.dev.askHost pa) ∧
      (s.dev.askHost pa).xl = s.dev.xl ∧ (s.dev.askHost pa).groups = s.dev.groups := fun pa => by
    unfold Dev.askHost
    split <;> exact ⟨rfl, rfl, fun _ _ => rfl, rfl, rfl⟩
  obtain ⟨hnet, hclock, hslots, hxl, hgroups⟩ := hask (lineOf entry)
  refine ⟨?_, hslots, hxl, hgroups⟩
  show (s.dev.askHost (lineOf entry)).net ++ [⟨(s.dev.askHost (lineOf entry)).clock + 1, 0, .tableWalkDone dist va⟩] = _
  rw [hnet, hclock]

/-- U is set by a one-line group that its home has marked. -/
def Dev.MarksU (m : Memory) (d e : Dev) (entry : Nat) : Prop := ∃ g x, e.groups = d.groups ++ [g] ∧ g.lines = [x] ∧ g.phase = .two ∧ x.pa = lineOf entry ∧
  (lineOf entry, g.id) ∈ (e.home (homeOf (lineOf entry))).pend ∧ e.coming d.clock (.groupRelease g.id (homeOf (lineOf entry))) ∧
  Line.byte x.data (entry % 128) = m.read entry ||| 0x40#8 ∧ ∀ b, b < 128 → (x.mask.getLsbD b = true ↔ b = entry % 128)

theorem uLine_bytes (m : Memory) (entry : Nat) : Line.byte (uLine m entry).data (entry % 128) = m.read entry ||| 0x40#8 ∧
    ∀ b, b < 128 → ((uLine m entry).mask.getLsbD b = true ↔ b = entry % 128) := by
  refine ⟨?_, fun b hb => ?_⟩
  · have h1 : leNat [m.read entry ||| 0x40#8] = (m.read entry ||| 0x40#8).toNat := by simp [leNat]
    rw [uLine, ← h1]
    exact byte_lineBytes entry 1 [m.read entry ||| 0x40#8] (j := 0) Nat.one_pos (Nat.mod_lt _ (by omega))
  · refine (Bool.eq_iff_iff.mp (getLsbD_lineBytes_mask entry (m.read entry ||| 0x40#8).toNat 1 hb)).trans ?_
    rw [decide_eq_true_iff]
    omega

theorem Dev.setU_marks {m : Memory} {d : Dev} (h : ¬d.Kept (lineOf entry)) : ∃ e, d.setU m fn entry = some e ∧ d.MarksU m e entry ∧
    e.xl = d.xl ∧ (∀ h n, e.slot h n = d.slot h n) := by
  have hk : ¬(d.pending (lineOf entry) || d.heldLine (lineOf entry) || d.hostLines.contains (lineOf entry)) = true := by
    simpa [Dev.Kept, or_assoc] using h
  obtain ⟨hbyte, hmask⟩ := uLine_bytes m entry
  obtain ⟨g, hg⟩ : ∃ g : Grp, g = ⟨d.newGid, [uLine m entry], .two, [], [homeOf (lineOf entry)], fn, none, 0, [.nothing]⟩ := ⟨_, rfl⟩
  obtain ⟨f, hf⟩ : ∃ f : Dev, f = { d with groups := d.groups ++ [g], count := d.newGid + 1 } := ⟨_, rfl⟩
  have hset : d.setU m fn entry = some ((f.updHome (homeOf (lineOf entry)) (fun x => { x with pend := x.pend ++ [(lineOf entry, d.newGid)] })).send 0
      (.groupRelease d.newGid (homeOf (lineOf entry)))) := by
    rw [hf, hg]
    exact if_neg hk
  have hgroups : f.groups = d.groups ++ [g] := by rw [hf]
  refine ⟨_, hset, ⟨g, uLine m entry, hgroups, by rw [hg], by rw [hg], rfl, ?_, ?_, hbyte, hmask⟩, by rw [hf]; rfl, fun _ _ => by rw [hf]; rfl⟩
  · have hhome := f.home_updHome_self (homeOf (lineOf entry)) (fun x => { x with pend := x.pend ++ [(lineOf entry, d.newGid)] })
    rw [show g.id = d.newGid by rw [hg]]
    exact (congrArg (fun x : Home => (lineOf entry, d.newGid) ∈ x.pend) hhome).mpr (List.mem_append_right _ (List.mem_singleton_self _))
  · rw [show g.id = d.newGid by rw [hg], show d.clock = f.clock by rw [hf]]
    exact Dev.coming_send _ _ _

theorem tableWalkDone_marks : Event (.tableWalkDone dist va)
    (fun m d => d.Walks m dist va fn (.leaf l entry) ∧ (d.walkVisit m fn va).2 = true ∧ l.w0.getLsbD 6 = false ∧ ¬d.Kept (lineOf entry))
    (fun m d e => d.Enters e dist l ∧ d.MarksU m e entry) := by
  intro s ⟨hw, hreads, hu, hk⟩
  have hq : s.dev.QuaysOnly (s.dev.walkVisit s.mem fn va).1 := s.dev.visit_quaysOnly _ _ _ _
  refine ⟨_, exec_tableWalkDone hw nofun hreads, fun _ => rfl, ?_⟩
  obtain ⟨v, hv⟩ : ∃ v, v = Dev.pastWalk (s.dev.walkVisit s.mem fn va).1 dist va := ⟨_, rfl⟩
  have hkept : ¬v.Kept (lineOf entry) := by
    rw [hv, hq]
    exact hk
  have hvs : ∀ h n, v.slot h n = s.dev.slot h n := by rw [hv]; exact hq.slot
  have hvg : v.groups = s.dev.groups ∧ v.clock = s.dev.clock := by rw [hv]; exact ⟨hq.groups, hq.clock⟩
  obtain ⟨e, hset, ⟨g, x, hgroups, hlines, hphase, hpa, hpend, hcome, hbyte, hmask⟩, -, hes⟩ := Dev.setU_marks (fn := fn) (m := s.mem) hkept
  simp only [Dev.walkEnds, hu, Bool.false_eq_true, if_false]
  rw [← hv, hset]
  dsimp only [Option.elim]
  have hres := Dev.resumeAll_resumes s.mem (e.cacheLeaf dist { l with w0 := l.w0 ||| 0x40#64 }) dist va
  refine ⟨Dev.enters_of (fun h n => (hes h n).trans (hvs h n)) hres, g, x, ?_, hlines, hphase, hpa, ?_, ?_, hbyte, hmask⟩
  · exact hres.groups.trans (hgroups.trans (by rw [hvg.1]))
  · rw [Dev.home, hres.homes]
    exact hpend
  · rw [hvg.2] at hcome
    exact hres.flows.coming hcome

theorem Event.of_pre {i : Instr} {pre pre' : Memory → Dev → Prop} {post : Memory → Dev → Dev → Prop} (h : Event i pre post)
    (hp : ∀ m d, pre' m d → pre m d) : Event i pre' post := fun s hs => h s (hp _ _ hs)

/-- Settles O46. -/
theorem windowAccessesAndWalks : Obligations.WindowAccessesAndWalks := by
  refine ⟨fun acc h n op idx cause sub x o a f r => ?_, fun dist va entry sub fn l => ?_⟩
  · dsimp only
    have hfree : ∀ {d : Dev}, (d.awayOn (terrOf acc.lk) acc.dst = false ∧ (d.core acc.dst).unrestored acc.addr = false ∧ (d.core acc.dst).held = [] ∧
        (d.core acc.dst).parked = [] ∧ (d.slot acc.h acc.n).refused = []) → d.Reaches acc := fun ⟨h1, h2, h3, h4, h5⟩ => ⟨h1, h2, h3, h4, h5⟩
    refine ⟨Event.of_pre remoteAccess_loads (fun _ _ ⟨h1, ⟨h2, h3⟩, h4⟩ => ⟨h1, ⟨hfree h2, h3⟩, h4⟩),
      Event.of_pre remoteAccess_outside (fun _ _ ⟨h1, h2, h3⟩ => ⟨h1, hfree h2, h3⟩),
      Event.of_pre remoteAccess_stores (fun _ _ ⟨h1, ⟨h2, h3⟩, h4⟩ => ⟨h1, ⟨hfree h2, h3⟩, h4⟩),
      Event.of_pre remoteAccess_refused (fun _ _ ⟨h1, ⟨h2, h3⟩, h4, h5⟩ => ⟨h1, ⟨hfree h2, h3⟩, h4, h5⟩), windowStoreRefused_files cause sub,
      remoteAccessReply_data h n op idx x o a, remoteAccessReply_trapped h n op idx cause sub o a,
      remoteAccessReply_parked h n op idx o a, remoteAccessReply_performed h n op idx, deferredFault_taken h n f r⟩
  · exact ⟨tableWalkDone_leaf, tableWalkDone_marks, tableWalkDone_kept, tableWalkDone_fault, tableWalkDone_again⟩

end Sys2Proof.Machine
end

section
/-! PROOFS. Blocks: a header read at issue, and kvapp (R240 to R252). -/

namespace Sys2Proof.Machine

/-! ### Bytes buffered in open records (R141, R252) -/

/-- The bytes from an address on stand in the open record of their line. -/
def Core.HoldsBytes (k : Core) (buf va w n : Nat) : Prop := ∃ r, k.Owns buf va r ∧ ∀ i, i < n →
  (k.recMask r.at).getLsbD (va % 128 + i) = true ∧ Line.byte (k.recLine r.at) (va % 128 + i) = BitVec.ofNat 8 (w / 2 ^ (8 * i))

/-- Bytes to be buffered that lie in one line. -/
def Seg.inLine (w : Seg) : Prop := w.va.toNat % 128 + w.n ≤ 128

/-- Two runs of bytes share none. -/
def Seg.apart (x y : Seg) : Prop := x.va.toNat + x.n ≤ y.va.toNat ∨ y.va.toNat + y.n ≤ x.va.toNat

theorem Seg.apart.symm {x y : Seg} (h : x.apart y) : y.apart x := Or.symm h

theorem byte_over_self (old : Line) (va w n : Nat) {i : Nat} (hi : i < n) (hline : va % 128 + n ≤ 128) :
    Line.byte (Line.over old (lineBytes va w n).1 (lineBytes va w n).2) (va % 128 + i) = BitVec.ofNat 8 (w / 2 ^ (8 * i)) := by
  refine BitVec.eq_of_getLsbD_eq (fun b hb => ?_)
  have hlow : 8 * (va % 128 + i) + b < 1024 := by omega
  rw [Line.byte, BitVec.getLsbD_extractLsb', decide_eq_true hb, Bool.true_and, Line.getLsbD_over _ _ _ hlow,
    getLsbD_lineBytes_mask _ _ _ (by omega), if_pos (by simp; omega), getLsbD_lineBytes_data _ _ _ hlow, decide_eq_true (by omega), Bool.true_and,
    BitVec.getLsbD_ofNat, decide_eq_true hb, Bool.true_and, Nat.testBit_div_two_pow]
  congr 1
  omega

theorem byte_over_ne (old : Line) (va w n : Nat) {j : Nat} (hj : j < 128) (hne : j < va % 128 ∨ va % 128 + n ≤ j) :
    Line.byte (Line.over old (lineBytes va w n).1 (lineBytes va w n).2) j = Line.byte old j := by
  refine BitVec.eq_of_getLsbD_eq (fun b hb => ?_)
  have hlow : 8 * j + b < 1024 := by omega
  rw [Line.byte, Line.byte, BitVec.getLsbD_extractLsb', BitVec.getLsbD_extractLsb', Line.getLsbD_over _ _ _ hlow,
    getLsbD_lineBytes_mask _ _ _ (by omega), if_neg (by simp; omega)]

section
variable {k0 k k' : Core} {buf cap n seq : Nat} {e : DirEnt} {old : Line} {oldMask : LineMask} {s t : Seg} {x : Line × LineMask}

/-- The line's bytes and the mask that a run of bytes makes. -/
def Seg.line (s : Seg) : Line × LineMask := lineBytes s.va.toNat s.v s.n

/-- The bytes written stand in the record that took them. -/
theorem Core.Wrote.holdsBytes (h : k.Wrote k' e old oldMask s.line) (hs : s.inLine) {r : DirEnt} (hat : r.at = e.at) (howns : k'.Owns buf s.va.toNat r) :
    k'.HoldsBytes buf s.va.toNat s.v s.n := by
  unfold Seg.inLine at hs
  refine ⟨r, howns, fun i hi => ⟨?_, ?_⟩⟩
  · rw [hat, h.mask, BitVec.getLsbD_or, Seg.line, getLsbD_lineBytes_mask _ _ _ (by omega)]
    simp [hi]
  · rw [hat, h.line]
    exact byte_over_self old _ _ _ hi hs

/-- Bytes of another line stand where they stood. -/
theorem Core.Wrote.holdsBytes_other (h : k.Wrote k' e old oldMask x) {a w m : Nat} {r : DirEnt} (howns : k'.Owns buf a r)
    (hne : r.at + 256 ≤ e.at ∨ e.at + 256 ≤ r.at) (hb : ∀ i, i < m → (k.recMask r.at).getLsbD (a % 128 + i) = true ∧
      Line.byte (k.recLine r.at) (a % 128 + i) = BitVec.ofNat 8 (w / 2 ^ (8 * i))) : k'.HoldsBytes buf a w m := by
  obtain ⟨hl, hk⟩ := h.lines r.at hne
  exact ⟨r, howns, fun i hi => by rw [hl, hk]; exact hb i hi⟩

/-- Other bytes that stood in their line's open record still do where a record is written again. -/
theorem Core.HoldsBytes.rewritten (h : k.HoldsBytes buf t.va.toNat t.v t.n) (he : k.openRec buf 0#32 s.va.toNat = some e)
    (hdir : k'.dir = Machine.rewritten e seq k.dir) (hw : k.Wrote k' e (k.recLine e.at) (k.recMask e.at) s.line) (hs : s.inLine) (ht : t.inLine)
    (hne : t.apart s) : k'.HoldsBytes buf t.va.toNat t.v t.n := by
  obtain ⟨r, howns, hb⟩ := h
  by_cases hl : lineOf t.va.toNat = lineOf s.va.toNat
  · obtain rfl : r = e := Option.some.inj ((howns.congr hl).open_.symm.trans he)
    refine ⟨{ r with seq := seq }, (owns_rewritten (seq := seq) he hdir).congr hl.symm, fun i hi => ?_⟩
    obtain ⟨hm, hv⟩ := hb i hi
    have hat : ({ r with seq := seq } : DirEnt).at = r.at := rfl
    unfold Seg.inLine at hs ht
    unfold Seg.apart at hne
    unfold lineOf at hl
    refine ⟨by rw [hat, hw.mask, BitVec.getLsbD_or, hm, Bool.true_or], ?_⟩
    rw [hat, hw.line, Seg.line, byte_over_ne _ _ _ _ (by omega) (by omega)]
    exact hv
  · obtain ⟨howns', hat⟩ := howns.rewritten_other he hdir hl
    exact hw.holdsBytes_other howns' hat hb

theorem Core.HoldsBytes.new {a w m : Nat} (h : k.HoldsBytes buf a w m) (hfree : ∀ x, x ∈ k.dir → x.buf = buf → x.rec_ ≠ e.rec_)
    (hbuf : e.buf = buf) (hdir : k'.dir = k.dir ++ [e]) (hw : k.Wrote k' e old oldMask x) : k'.HoldsBytes buf a w m := by
  obtain ⟨r, howns, hb⟩ := h
  obtain ⟨howns', hat⟩ := howns.new_other hfree hbuf hdir
  exact hw.holdsBytes_other howns' hat hb

/-- One run of bytes buffered in no task's record. -/
def segStep (buf cap seq : Nat) (k : Option Core) (s : Seg) : Option Core :=
  k.bind (fun k => k.buffer buf cap seq 0#32 s.va.toNat s.line.1 s.line.2)

/-- One run of bytes is buffered: it stands in its line's open record, every other that stood in one still does, and one record is taken at
most. -/
theorem Core.buffer_seg (hk : k0.Buffering k buf cap n) (hs : s.inLine) (hroom : (k.dir.filter (fun e => e.buf == buf)).length < cap) :
    ∃ k', segStep buf cap seq (some k) s = some k' ∧ k0.Buffering k' buf cap (n + 1) ∧ k'.HoldsBytes buf s.va.toNat s.v s.n ∧
      ∀ t : Seg, t.inLine → t.apart s → k.HoldsBytes buf t.va.toNat t.v t.n → k'.HoldsBytes buf t.va.toNat t.v t.n := by
  cases he : k.openRec buf 0#32 s.va.toNat with
  | some e =>
    obtain ⟨hdir, hw⟩ := k.bufferedIn_spec e seq s.line
    refine ⟨k.bufferedIn e seq s.line, by simp only [segStep, Option.bind_some, Core.buffer_eq, he], (hk.rewritten he hdir hw).mono (Nat.le_succ n),
      hw.holdsBytes (r := { e with seq := seq }) hs rfl (owns_rewritten he hdir), fun t ht hne h => h.rewritten he hdir hw hs ht hne⟩
  | none =>
    obtain ⟨r, hr, hlow, hfree⟩ := Core.freeRec_isSome hroom
    obtain ⟨hdir, hw⟩ := k.bufferedNew_spec ⟨buf, r, lineOf s.va.toNat, none, 0#32, seq⟩ s.line
    exact ⟨_, by simp only [segStep, Option.bind_some, Core.buffer_eq, he, hr, Option.map_some], hk.new rfl hlow hdir hw,
      hw.holdsBytes hs rfl (owns_new he hfree ⟨rfl, rfl, rfl, rfl⟩ hdir), fun t _ _ h => h.new hfree rfl hdir hw⟩

/-- Runs of bytes that share none, buffered in order, all stand in their lines' open records. -/
theorem Core.buffer_segs {ss : List Seg} (hss : ss.Pairwise Seg.apart) (hin : ∀ s, s ∈ ss → s.inLine)
    (hcap : (k0.dir.filter (fun e => e.buf == buf)).length + (n + ss.length) ≤ cap) (hk : k0.Buffering k buf cap n) :
    ∃ k', ss.foldl (segStep buf cap seq) (some k) = some k' ∧ k0.Buffering k' buf cap (n + ss.length) ∧
      (∀ s, s ∈ ss → k'.HoldsBytes buf s.va.toNat s.v s.n) ∧
      ∀ t : Seg, t.inLine → (∀ s, s ∈ ss → t.apart s) → k.HoldsBytes buf t.va.toNat t.v t.n → k'.HoldsBytes buf t.va.toNat t.v t.n := by
  induction ss generalizing k n with
  | nil => exact ⟨k, rfl, hk, nofun, fun _ _ _ h => h⟩
  | cons s ss ih =>
    rw [List.length_cons] at hcap
    obtain ⟨hfirst, hrest⟩ := List.pairwise_cons.mp hss
    have hcount := hk.count
    obtain ⟨k₁, hk₁, hbuf₁, hhere, hothers⟩ := Core.buffer_seg (seq := seq) hk (hin s List.mem_cons_self) (by omega)
    obtain ⟨k₂, hk₂, hbuf₂, hall, hkept⟩ := ih hrest (fun t ht => hin t (List.mem_cons_of_mem _ ht)) (by omega) hbuf₁
    refine ⟨k₂, by rw [List.foldl_cons, hk₁, hk₂], hbuf₂.mono (by rw [List.length_cons]; omega), fun t ht => ?_, fun t ht hne h => ?_⟩
    · rcases List.mem_cons.mp ht with rfl | ht
      · exact hkept t (hin t List.mem_cons_self) hfirst hhere
      · exact hall t ht
    · exact hkept t ht (fun u hu => hne u (List.mem_cons_of_mem _ hu)) (hothers t ht (hne s List.mem_cons_self) h)

end


/-! ### The rows of a token (R252) -/

theorem toNat_add_off (g : W64) {k : Nat} (h : g.toNat + k < 2 ^ 64) : (g + BitVec.ofNat 64 k).toNat = g.toNat + k := by
  rw [BitVec.toNat_add, BitVec.toNat_ofNat]
  omega

section
variable {s : Slot} {ra rb_ q r : Nat} {scales g : W64}

theorem mem_rowSegs {r0 n : Nat} {a : W64} {w : Seg} (ha : a.toNat + 64 * n < 2 ^ 64) (hw : w ∈ rowSegs s r0 n a) :
    ∃ i, i < n ∧ w.va.toNat = a.toNat + 64 * i ∧ w.n = 64 := by
  obtain ⟨i, hi, rfl⟩ := List.mem_map.mp hw
  have hlt := List.mem_range.mp hi
  exact ⟨i, hlt, toNat_add_off a (by omega), rfl⟩

theorem rowSegs_apart {r0 n : Nat} {a : W64} (ha : a.toNat + 64 * n < 2 ^ 64) : (rowSegs s r0 n a).Pairwise Seg.apart := by
  rw [rowSegs, List.pairwise_map]
  refine List.Pairwise.imp_of_mem (fun {i j} hi hj hij => ?_) (List.pairwise_lt_range (n := n))
  have hi' := List.mem_range.mp hi
  have hj' := List.mem_range.mp hj
  refine Or.inl (?_ : (a + BitVec.ofNat 64 (64 * i)).toNat + 64 ≤ (a + BitVec.ofNat 64 (64 * j)).toNat)
  rw [toNat_add_off a (by omega), toNat_add_off a (by omega)]
  omega

/-- A row of a block: where it stands among the block's bytes. -/
theorem rowAt (hg : g.toNat + 256 + 32 * (64 * q) ≤ 2 ^ 57) (hr : r < 16) (v : Bool) :
    (g + BitVec.ofNat 64 (256 + (if v then 16 * (64 * q) else 0) + r * (64 * q))).toNat = g.toNat + 256 + (if v then 1024 * q else 0) + 64 * (r * q) ∧
      g.toNat + 256 + (if v then 1024 * q else 0) + 64 * (r * q) + 64 * q ≤ g.toNat + 256 + (if v then 2048 * q else 1024 * q) := by
  have hrq : r * (64 * q) = 64 * (r * q) := by ring
  have hle : r * q ≤ 15 * q := Nat.mul_le_mul_right q (by omega)
  refine ⟨?_, by split <;> omega⟩
  rw [toNat_add_off g (by rw [hrq]; split <;> omega), hrq]
  split <;> omega

theorem mem_appSegs (hg : g.toNat + 256 + 32 * (64 * q) ≤ 2 ^ 57) (hr : r < 16) {w : Seg} (hw : w ∈ appSegs s ra rb_ q (64 * q) r scales g) :
    (∃ i, i < q ∧ w.va.toNat = g.toNat + 256 + 64 * (r * q) + 64 * i ∧ w.n = 64) ∨
    (∃ i, i < q ∧ w.va.toNat = g.toNat + 256 + 1024 * q + 64 * (r * q) + 64 * i ∧ w.n = 64) ∨
    (w.va.toNat = g.toNat + 32 + 4 * r ∧ w.n = 4) ∨ (w.va.toNat = g.toNat + 96 + 4 * r ∧ w.n = 4) ∨ (w.va.toNat = g.toNat + 4 ∧ w.n = 1) := by
  obtain ⟨hk, hkl⟩ := rowAt hg hr false
  obtain ⟨hv, hvl⟩ := rowAt hg hr true
  simp only [Bool.false_eq_true, if_false, if_true, Nat.add_zero] at hk hkl hv hvl
  rw [appSegs, List.mem_append, List.mem_append] at hw
  rcases hw with (hw | hw) | hw
  · obtain ⟨i, hi, hva, hn⟩ := mem_rowSegs (by rw [hk]; omega) hw
    exact Or.inl ⟨i, hi, hva.trans (by rw [hk]), hn⟩
  · obtain ⟨i, hi, hva, hn⟩ := mem_rowSegs (by rw [hv]; omega) hw
    exact Or.inr (Or.inl ⟨i, hi, hva.trans (by rw [hv]), hn⟩)
  · simp only [List.mem_cons, List.not_mem_nil, or_false] at hw
    rcases hw with rfl | rfl | rfl
    · exact Or.inr (Or.inr (Or.inl ⟨(toNat_add_off g (by omega)).trans (by omega), rfl⟩))
    · exact Or.inr (Or.inr (Or.inr (Or.inl ⟨(toNat_add_off g (by omega)).trans (by omega), rfl⟩)))
    · exact Or.inr (Or.inr (Or.inr (Or.inr ⟨toNat_add_off g (by omega), rfl⟩)))

theorem appSegs_inLine (hal : g.toNat % 256 = 0) (hg : g.toNat + 256 + 32 * (64 * q) ≤ 2 ^ 57) (hr : r < 16) {w : Seg}
    (hw : w ∈ appSegs s ra rb_ q (64 * q) r scales g) : w.inLine := by
  unfold Seg.inLine
  rcases mem_appSegs hg hr hw with ⟨i, -, hva, hn⟩ | ⟨i, -, hva, hn⟩ | ⟨hva, hn⟩ | ⟨hva, hn⟩ | ⟨hva, hn⟩ <;> rw [hva, hn] <;> omega

theorem appSegs_apart (hg : g.toNat + 256 + 32 * (64 * q) ≤ 2 ^ 57) (hr : r < 16) : (appSegs s ra rb_ q (64 * q) r scales g).Pairwise Seg.apart := by
  obtain ⟨hk, hkl⟩ := rowAt hg hr false
  obtain ⟨hv, hvl⟩ := rowAt hg hr true
  simp only [Bool.false_eq_true, if_false, if_true, Nat.add_zero] at hk hkl hv hvl
  have h1 : (g + BitVec.ofNat 64 (32 + 4 * r)).toNat = g.toNat + (32 + 4 * r) := toNat_add_off g (by omega)
  have h2 : (g + BitVec.ofNat 64 (96 + 4 * r)).toNat = g.toNat + (96 + 4 * r) := toNat_add_off g (by omega)
  have h3 : (g + 4#64).toNat = g.toNat + 4 := toNat_add_off g (k := 4) (by omega)
  have hrow : ∀ {r0 : Nat} {a : W64} {x : Seg} (y : Seg), a.toNat + 64 * q < 2 ^ 64 → x ∈ rowSegs s r0 q a → y.va.toNat + y.n ≤ a.toNat → x.apart y :=
    fun y ha hx hy => by
      obtain ⟨i, -, hva, -⟩ := mem_rowSegs ha hx
      exact Or.inr (by omega)
  refine List.pairwise_append.mpr ⟨List.pairwise_append.mpr ⟨rowSegs_apart (by rw [hk]; omega), rowSegs_apart (by rw [hv]; omega), fun x hx y hy => ?_⟩, ?_,
    fun x hx y hy => ?_⟩
  · obtain ⟨i, hi, hva, hn⟩ := mem_rowSegs (by rw [hk]; omega) hx
    obtain ⟨j, -, hva', -⟩ := mem_rowSegs (by rw [hv]; omega) hy
    rw [hk] at hva
    rw [hv] at hva'
    exact Or.inl (by omega)
  · simp only [List.pairwise_cons, List.mem_cons, List.not_mem_nil, or_false, Seg.apart, forall_eq_or_imp, forall_eq, h1, h2, h3]
    exact ⟨⟨by omega, by omega⟩, by omega, fun _ h => h.elim, List.Pairwise.nil⟩
  · have hy' : y.va.toNat + y.n ≤ g.toNat + 256 := by
      simp only [List.mem_cons, List.not_mem_nil, or_false] at hy
      rcases hy with rfl | rfl | rfl
      · rw [h1]; dsimp only; omega
      · rw [h2]; dsimp only; omega
      · rw [h3]; dsimp only; omega
    rcases List.mem_append.mp hx with hx | hx
    · exact hrow y (by rw [hk]; omega) hx (by rw [hk]; omega)
    · exact hrow y (by rw [hv]; omega) hx (by rw [hv]; omega)

theorem length_appSegs : (appSegs s ra rb_ q (64 * q) r scales g).length = 2 * q + 3 := by
  simp only [appSegs, rowSegs, List.length_append, List.length_map, List.length_range, List.length_cons, List.length_nil]
  omega

end

theorem rowBytes_eq (hc fmt : Nat) : rowBytes hc fmt = 64 * (rowBytes hc fmt / 64) := by
  unfold rowBytes
  rw [Nat.mul_assoc, Nat.mul_div_cancel_left _ (by omega)]


/-! ### A header read at issue (R242) -/

/-- From d to e a line was read: slots, the regions and the records of every core, and launches are as they were. -/
structure Dev.LineRead (d e : Dev) : Prop where
  slots : ∀ j n, e.slot j n = d.slot j n
  map : ∀ k, (e.core k).map = (d.core k).map
  dir : ∀ k, (e.core k).dir = (d.core k).dir
  launches : e.launches = d.launches

namespace Dev.LineRead

theorem refl (d : Dev) : d.LineRead d := ⟨fun _ _ => rfl, fun _ => rfl, fun _ => rfl, rfl⟩
theorem trans {d e f : Dev} (h : d.LineRead e) (g : e.LineRead f) : d.LineRead f :=
  ⟨fun j n => (g.slots j n).trans (h.slots j n), fun k => (g.map k).trans (h.map k), fun k => (g.dir k).trans (h.dir k), g.launches.trans h.launches⟩

theorem quays {d e : Dev} (h : d.QuaysOnly e) : d.LineRead e :=
  ⟨h.slot, fun k => by rw [h.core], fun k => by rw [h.core], by rw [h]⟩

theorem updCore (d : Dev) (h : Nat) {f : Core → Core} (hf : ∀ c n, (f c).slot n = c.slot n) (hm : ∀ c, (f c).map = c.map ∧ (f c).dir = c.dir) :
    d.LineRead (d.updCore h f) := by
  have hcore : ∀ k, ((d.updCore h f).core k).map = (d.core k).map ∧ ((d.updCore h f).core k).dir = (d.core k).dir := fun k => by
    by_cases hk : k = h
    · subst hk
      rw [Dev.core_updCore_self]
      exact hm _
    · rw [Dev.core_updCore_ne _ _ _ _ hk]
      exact ⟨rfl, rfl⟩
  exact ⟨Dev.slot_updCore_of hf d h, fun k => (hcore k).1, fun k => (hcore k).2, rfl⟩

theorem filled {d e : Dev} {h : Nat} (x : d.Filled e h) : d.LineRead e := by
  obtain ⟨p, hp⟩ := x.core
  have hcore : ∀ k, (e.core k).map = (d.core k).map ∧ (e.core k).dir = (d.core k).dir := fun k => by
    by_cases hk : k = h
    · rw [hk, hp]
      exact ⟨rfl, rfl⟩
    · rw [x.quays.cores k hk]
      exact ⟨rfl, rfl⟩
  exact ⟨x.quays.slots, fun k => (hcore k).1, fun k => (hcore k).2, (congrArg Dev.launches x.quays.calm :)⟩

theorem keepLine (d : Dev) (h va : Nat) (line : Line) : d.LineRead (d.keepLine h va line) := by
  unfold Dev.keepLine
  split
  · exact refl d
  · split
    · refine updCore d h ?_ ?_
      · exact fun _ _ => rfl
      · exact fun _ => ⟨rfl, rfl⟩
    · exact refl d

theorem delay (d : Dev) (h idx : Nat) : d.LineRead (d.delay h idx) := by
  have hupd : d.LineRead (d.updCore h (fun c => c.bump 0 idx (min 65535 (Config.latency d.count)))) :=
    updCore d h (fun _ _ => rfl) (fun _ => ⟨rfl, rfl⟩)
  exact ⟨hupd.slots, hupd.map, hupd.dir, hupd.launches⟩

end Dev.LineRead

theorem Ctx.readLine_ok {c : Ctx} {va : W64} {need : List Right} {l : Line} {pa : Nat} {dv : Dev} (h : c.readLine va need = .ok l pa dv) :
    c.d.LineRead dv := by
  unfold Ctx.readLine at h
  split at h
  · exact nomatch h
  · exact nomatch h
  · exact nomatch h
  · next pa' lf _ =>
    have hfill := Dev.LineRead.filled (c.d.filled_fillPlb c.m (c.s.who c.h) lf.dom)
    dsimp only at h
    split at h
    · exact nomatch h
    · split at h
      · obtain ⟨-, -, rfl⟩ := HeaderAt.ok.inj h
        exact hfill
      · split at h
        · exact nomatch h
        · split at h
          · exact nomatch h
          · split at h
            · exact nomatch h
            · next d hq =>
              obtain ⟨-, -, rfl⟩ := HeaderAt.ok.inj h
              exact ((hfill.trans (.quays (Dev.quay_quaysOnly hq))).trans (.keepLine _ _ _ _)).trans (.delay _ _ _)

/-- A block's header that can be read, and names the block's frame as one of the slot's terrace. -/
structure Ctx.Block (c : Ctx) (f : W64) (need : List Right) (l : Line) (pa : Nat) (dv : Dev) : Prop where
  aligned : f.toNat % 256 = 0
  window : isWindow f = false
  read : c.readLine f need = .ok l pa dv
  good : dv.frameCheck (terrOf c.s.lk) f l = 0

theorem Ctx.Block.onBlock {c : Ctx} {f : W64} {need : List Right} {l : Line} {pa : Nat} {dv : Dev} (h : c.Block f need l pa dv)
    (k : Ctx → Line → Nat → Res) : c.onBlock f need k = k { c with d := dv, s := dv.slot c.h c.n } l pa := by
  unfold Ctx.onBlock
  rw [if_neg (by simp [h.aligned, h.window]), h.read]
  dsimp only
  rw [h.good, if_neg (by simp)]

/-- A context whose header has been read is the slot's own still. -/
theorem Ctx.Block.slot {c : Ctx} {f : W64} {need : List Right} {l : Line} {pa : Nat} {dv : Dev} (h : c.Block f need l pa dv) (hc : c.Ready) :
    dv.slot c.h c.n = c.s := ((Ctx.readLine_ok h.read).slots _ _).trans hc.own

theorem Ctx.Block.buffer {c : Ctx} {f : W64} {need : List Right} {l : Line} {pa : Nat} {dv : Dev} (h : c.Block f need l pa dv) :
    Ctx.buffer { c with d := dv } = c.buffer := by
  have hr := Ctx.readLine_ok h.read
  unfold Ctx.buffer Dev.bufferOf Core.roleRegion Core.regions Dev.launch?
  dsimp only
  rw [hr.map, hr.launches]

/-! ### kvapp (R252) -/

variable {d cc : AReg} {a b : VReg}

/-- The rows of a token in block f at row r, with what else is written, and aD. -/
def Ctx.kvPut (c : Ctx) (d : AReg) (ss : List Seg) (f : W64) : Res :=
  if c.bufferAway then .skip c.d else
  match c.storeLanes (ss.map (fun w => (0, w.va))) with
  | .skip d => .skip d
  | .bad va cause sub => c.faultAt cause sub va
  | .page va sub _ => c.page sub va (Config.freeLanes c.d.count)
  | .ok dv =>
    match c.bufferSegs dv ss with
    | none => c.full
    | some dv => .done (dv.updSlot c.h c.n (fun s => s.setA d.toNat f))

/-- A new block of a pool: its records are reserved, an index popped, and the block written. -/
def Ctx.kvFresh (c : Ctx) (d : AReg) (a b : VReg) (scales tail : W64) (terr dep pool fmt hc : Nat) (pos : W32) (old : Option W64) : Res :=
  let p := c.d.pool dep pool
  let rb := rowBytes hc fmt
  if !p.of terr then c.faultAt 0x72 6 tail else
  match c.spanGate a.toNat b.toNat (rb / 64) with
  | some r => r
  | none =>
    match c.s.reply with
    | .done v =>
      let g := p.frame v.toNat
      c.kvPut d (headSegs g (newHeader pos dep pool fmt hc c.tag) ++ appSegs c.s a.toNat b.toNat (rb / 64) rb 0 scales g ++
        (match old with | some f => [⟨f + 24#64, g.toNat, 8⟩] | none => [])) g
    | .sent | .stale => .wait c.d .reply
    | .fail cause sub => .service c.d ⟨cause, sub, tail, Config.freeLanes c.d.count⟩
    | .idle =>
      if c.freeRecords < c.newRecords rb old then c.full
      else .wait ((c.d.updSlot c.h c.n (fun s => { s with reply := .sent })).send 0 (.depotPop dep pool c.h c.n)) .reply

/-- kvapp where the header of its tail has been read. -/
def Ctx.kvAppend (c : Ctx) (d : AReg) (a b : VReg) (scales tail : W64) (terr : Nat) (l : Line) : Res :=
  if hCount l = 16 then c.kvFresh d a b scales tail terr (hDep l) (hPool l) (hFmt l) (hHc l) (hPos l + 16#32) (some tail)
  else
    match c.spanGate a.toNat b.toNat (hRb l / 64) with
    | some r => r
    | none => c.kvPut d ([] ++ appSegs c.s a.toNat b.toNat (hRb l / 64) (hRb l) (hCount l) scales tail ++ []) tail

/-- What kvapp does. -/
def Ctx.kvapp (c : Ctx) (d : AReg) (a b : VReg) (cc : AReg) : Res :=
  let tail := c.s.A d.toNat
  if tail.getLsbD 63 then
    (if tail.extractLsb' 40 23 ≠ 0#23 then c.faultAt 0x72 2 tail
     else
       let p := c.d.pool (tail.extractLsb' 36 4).toNat (tail.extractLsb' 32 4).toNat
       c.kvFresh d a b (c.s.A cc.toNat) tail (terrOf c.s.lk) (tail.extractLsb' 36 4).toNat (tail.extractLsb' 32 4).toNat p.fmt.toNat p.hc.toNat
         (tail.extractLsb' 0 32) none)
  else c.onBlock tail [.w] (fun x l _ => x.kvAppend d a b (c.s.A cc.toNat) tail (terrOf c.s.lk) l)

theorem exec_kvapp (d : AReg) (a b : VReg) (cc : AReg) (s : State) : exec (.kvapp d a b cc) s =
    thread (useV [a, b] [wa d, ra d, rv a, rv b, ra cc]) (fun c => c.unspec (fun c => c.kvapp d a b cc)) s := by
  unfold exec execKvapp specForm
  rfl

/-- The tail of a sequence whose header has been read. -/
structure Ctx.TailBlock (c : Ctx) (d : AReg) (l : Line) (pa : Nat) (dv : Dev) : Prop where
  sure : c.sure
  named : (c.s.A d.toNat).getLsbD 63 = false
  block : c.Block (c.s.A d.toNat) [.w] l pa dv

theorem Ctx.TailBlock.kvapp {c : Ctx} {l : Line} {pa : Nat} {dv : Dev} (h : c.TailBlock d l pa dv) : c.unspec (fun c => c.kvapp d a b cc) =
    Ctx.kvAppend { c with d := dv, s := dv.slot c.h c.n } d a b (c.s.A cc.toNat) (c.s.A d.toNat) (terrOf c.s.lk) l := by
  rw [h.sure.unspec, Ctx.kvapp]
  dsimp only
  rw [h.named, if_neg Bool.false_ne_true, h.block.onBlock]

/-- Runs of bytes of mapped addresses that share none stand in open records. -/
theorem Ctx.kvPut_done {c : Ctx} {ss : List Seg} {f : W64} (haway : c.bufferAway = false) (hkind : c.s.kind ≠ .ordered)
    (hmap : ∀ w, w ∈ ss → ∃ q, c.mapped [.w] w.va q) (hapart : ss.Pairwise Seg.apart) (hin : ∀ w, w ∈ ss → w.inLine)
    (hroom : ((c.d.core c.h).dir.filter (fun e => e.buf == c.buffer.1)).length + ss.length ≤ c.buffer.2)
    (hlow : ∀ e, e ∈ (c.d.core c.h).dir → e.buf = c.buffer.1 → e.rec_ < c.buffer.2) :
    ∃ e : Dev, c.kvPut d ss f = .done (e.updSlot c.h c.n (fun s => s.setA d.toNat f)) ∧ e.slot c.h c.n = c.d.slot c.h c.n ∧
      ∀ s, s ∈ ss → (e.core c.h).HoldsBytes c.buffer.1 s.va.toNat s.v s.n := by
  obtain ⟨dv, hst, hfill⟩ := c.storeLanes_mapped (as := ss.map (fun w => (0, w.va))) (fun x hx => by
    obtain ⟨w, hw, rfl⟩ := List.mem_map.mp hx
    exact hmap w hw)
  have hr := Dev.LineRead.filled hfill
  have hbuf0 : (dv.core c.h).Buffering (dv.core c.h) c.buffer.1 c.buffer.2 0 := ⟨hr.dir c.h ▸ hlow, Nat.le_refl _, fun _ _ => rfl, fun _ => rfl⟩
  obtain ⟨k', hk', hbuf, hall, -⟩ := Core.buffer_segs (seq := dv.count) (n := 0) hapart hin (by rw [hr.dir, Nat.zero_add]; exact hroom) hbuf0
  have htask : c.s.ownTask = 0#32 := if_neg (by simpa using hkind)
  have hsegs : c.bufferSegs dv ss = some { dv.updCore c.h (fun _ => k') with count := dv.count + 1 } := by
    unfold Ctx.bufferSegs
    rw [htask]
    exact congrArg (Option.map _) hk'
  refine ⟨{ dv.updCore c.h (fun _ => k') with count := dv.count + 1 }, ?_, ?_, fun s hs => ?_⟩
  · unfold Ctx.kvPut
    rw [haway, if_neg Bool.false_ne_true, hst]
    dsimp only
    rw [hsegs]
  · refine Eq.trans ?_ (hr.slots c.h c.n)
    show (dv.updCore c.h (fun _ => k')).slot c.h c.n = _
    exact Dev.slot_setCore hbuf.slots _ _
  · have hcore : ({ dv.updCore c.h (fun _ => k') with count := dv.count + 1 } : Dev).core c.h = k' := Dev.core_updCore_self _ _ _
    rw [hcore]
    exact hall s hs

/-- Bytes in records are no part of the slots of their core. -/
theorem Core.HoldsBytes.of_bare {k k' : Core} (h : k'.bare = k.bare) {buf a w n : Nat} (hk : k.HoldsBytes buf a w n) : k'.HoldsBytes buf a w n := by
  obtain ⟨r, ⟨hopen, halone⟩, hb⟩ := hk
  have hdir : k'.dir = k.dir := (congrArg Core.dir h :)
  have hline : k'.recLine r.at = k.recLine r.at := (congrArg (fun k => Core.recLine k r.at) h :)
  have hmask : k'.recMask r.at = k.recMask r.at := (congrArg (fun k => Core.recMask k r.at) h :)
  exact ⟨r, ⟨by rw [← hopen, Core.openRec, Core.openRec, hdir], fun x hx => halone x (hdir ▸ hx)⟩, fun i hi => by rw [hline, hmask]; exact hb i hi⟩

/-- The record of bytes that stand in one. -/
theorem Core.HoldsBytes.record {k : Core} {buf a w n : Nat} (h : k.HoldsBytes buf a w n) : ∃ r, r ∈ k.dir ∧ r.buf = buf ∧ r.va = lineOf a ∧ r.gid = none ∧
    ∀ i, i < n → (k.recMask r.at).getLsbD (a % 128 + i) = true ∧ Line.byte (k.recLine r.at) (a % 128 + i) = BitVec.ofNat 8 (w / 2 ^ (8 * i)) := by
  obtain ⟨r, howns, hb⟩ := h
  obtain ⟨hmem, hbuf, -, hgid, hva⟩ := Core.openRec_spec howns.open_
  exact ⟨r, hmem, hbuf, hva, hgid, hb⟩

theorem kvapp_row (l : Line) (pa : Nat) (dv : Dev) : Acts (.kvapp d a b cc) (useV [a, b] [wa d, ra d, rv a, rv b, ra cc])
    (fun c => c.TailBlock d l pa dv ∧ hCount l < 16 ∧ Ctx.bufferAway { c with d := dv, s := dv.slot c.h c.n } = false ∧
      Ctx.spanGate { c with d := dv, s := dv.slot c.h c.n } a.toNat b.toNat (hRb l / 64) = none ∧ c.s.kind ≠ .ordered ∧
      (∀ w, w ∈ appSegs c.s a.toNat b.toNat (hRb l / 64) (hRb l) (hCount l) (c.s.A cc.toNat) (c.s.A d.toNat) →
        ∃ q, Ctx.mapped { c with d := dv, s := dv.slot c.h c.n } [.w] w.va q) ∧
      ((dv.core c.h).dir.filter (fun e => e.buf == c.buffer.1)).length + 2 * (hRb l / 64) + 3 ≤ c.buffer.2 ∧
      (∀ e, e ∈ (dv.core c.h).dir → e.buf = c.buffer.1 → e.rec_ < c.buffer.2) ∧ (c.s.A d.toNat).toNat + 256 + 32 * hRb l ≤ 2 ^ 57) [] [] []
    (fun c e => ∀ w, w ∈ appSegs c.s a.toNat b.toNat (hRb l / 64) (hRb l) (hCount l) (c.s.A cc.toNat) (c.s.A d.toNat) →
      (e.core c.h).HoldsBytes c.buffer.1 w.va.toNat w.v w.n) := by
  refine acts_of (exec_kvapp d a b cc) (fun c hc ⟨ht, hcount, haway, hgate, hkind, hmap, hroom, hlow, hspan⟩ => ?_)
  have hslot := ht.block.slot hc
  have hal := ht.block.aligned
  obtain ⟨q, hq⟩ : ∃ q, q = hRb l / 64 := ⟨_, rfl⟩
  have hrb : hRb l = 64 * q := hq ▸ rowBytes_eq _ _
  rw [← hq] at hgate hmap hroom ⊢
  rw [hrb] at hmap hspan ⊢
  obtain ⟨c', hc'⟩ : ∃ c' : Ctx, c' = { c with d := dv, s := dv.slot c.h c.n } := ⟨_, rfl⟩
  have hs' : c'.s = c.s := hc' ▸ hslot
  have hown' : c'.d.slot c'.h c'.n = c.s := hc' ▸ hslot
  have hbuf' : c'.buffer = c.buffer := by rw [hc', ← ht.block.buffer, hslot]
  obtain ⟨e, hput, heslot, hall⟩ := Ctx.kvPut_done (d := d) (c := c') (f := c.s.A d.toNat)
    (ss := appSegs c.s a.toNat b.toNat q (64 * q) (hCount l) (c.s.A cc.toNat) (c.s.A d.toNat)) (hc' ▸ haway) (hs'.symm ▸ hkind)
    (fun w hw => hc' ▸ hmap w hw) (appSegs_apart hspan hcount) (fun w hw => appSegs_inLine hal hspan hcount hw)
    (by rw [hbuf', length_appSegs, hc']; omega) (by rw [hbuf', hc']; exact hlow)
  rw [hbuf'] at hall
  rw [ht.kvapp, ← hc', Ctx.kvAppend, if_neg (by omega), ← hq, hc', hgate, ← hc', hs', hrb]
  simp only [List.nil_append, List.append_nil]
  have hh : c'.h = c.h ∧ c'.n = c.n := hc' ▸ ⟨rfl, rfl⟩
  rw [hh.1, hh.2] at heslot hput
  rw [hh.1] at hall
  rw [hh.1, hh.2] at hown'
  refine ⟨_, hput, ?_, fun w hw => ?_⟩
  · rw [Dev.slot_updSlot_self, heslot, hown']
    refine ⟨fun j _ => ?_, fun j _ => Slot.V_setA _ _ _ _, fun j _ => Slot.K_setA _ _ _ _⟩
    by_cases hj : j = d.toNat
    · rw [hj, Slot.A_setA_self]
      by_cases hd : d = 0#4
      · rw [if_pos hd, hd]
        rfl
      · rw [if_neg hd]
    · exact Slot.A_setA_ne _ _ _ _ hj
  · refine (hall w hw).of_bare ?_
    rw [Ctx.finish_core_bare _ _ _ _ hc.step, Dev.core_updSlot_bare]

theorem kvapp_asks (l : Line) (pa : Nat) (dv : Dev) (s : State) (hh nn : Nat) (w : W64) (hi : s.issues hh nn w (useV [a, b] [wa d, ra d, rv a, rv b, ra cc]))
    (ht : (s.ctx hh nn w).TailBlock d l pa dv) (hcount : hCount l = 16) (hof : (dv.pool (hDep l) (hPool l)).of (terrOf (s.ctx hh nn w).s.lk) = true)
    (hgate : Ctx.spanGate { s.ctx hh nn w with d := dv, s := dv.slot hh nn } a.toNat b.toNat (rowBytes (hHc l) (hFmt l) / 64) = none)
    (hidle : (dv.slot hh nn).reply = .idle)
    (hroom : Ctx.newRecords { s.ctx hh nn w with d := dv, s := dv.slot hh nn } (rowBytes (hHc l) (hFmt l)) (some ((s.ctx hh nn w).s.A d.toNat)) ≤
      Ctx.freeRecords { s.ctx hh nn w with d := dv, s := dv.slot hh nn }) :
    ∃ t, exec (.kvapp d a b cc) s = .next t ∧ (t.dev.slot hh nn).st = .waiting .reply ∧ (t.dev.slot hh nn).reply = .sent ∧
      t.dev.coming dv.clock (.depotPop (hDep l) (hPool l) hh nn) := by
  have hbody : (s.ctx hh nn w).unspec (fun c => c.kvapp d a b cc) =
      .wait ((dv.updSlot hh nn (fun s => { s with reply := .sent })).send 0 (.depotPop (hDep l) (hPool l) hh nn)) .reply := by
    rw [ht.kvapp, Ctx.kvAppend, if_pos hcount, Ctx.kvFresh]
    dsimp only
    rw [hof, if_neg (by decide)]
    have hg : (Ctx.spanGate { s.ctx hh nn w with d := dv, s := dv.slot (s.ctx hh nn w).h (s.ctx hh nn w).n } a.toNat b.toNat
      (rowBytes (hHc l) (hFmt l) / 64)) = none := hgate
    have hr : (dv.slot (s.ctx hh nn w).h (s.ctx hh nn w).n).reply = .idle := hidle
    rw [hg, hr]
    exact if_neg (Nat.not_lt.mpr hroom)
  obtain ⟨e, he⟩ : ∃ e, e = (dv.updSlot hh nn (fun s => { s with reply := .sent })).send 0 (.depotPop (hDep l) (hPool l) hh nn) := ⟨_, rfl⟩
  rw [← he] at hbody
  have hslot : (e.updSlot hh nn (fun x => { x with st := .waiting .reply, readyAt := e.clock })).slot hh nn =
      { e.slot hh nn with st := .waiting .reply, readyAt := e.clock } := Dev.slot_updSlot_self _ _ _ _
  have heslot : e.slot hh nn = { dv.slot hh nn with reply := .sent } := he ▸ (Dev.slot_updSlot_self dv hh nn (fun s => { s with reply := .sent }) :)
  refine ⟨⟨s.mem, e.updSlot hh nn (fun x => { x with st := .waiting .reply, readyAt := e.clock })⟩, ?_, ?_, ?_, ?_⟩
  · rw [exec_kvapp, thread_issues _ _ s hh nn w hi, hbody]
    rfl
  · rw [hslot]
  · rw [hslot, heslot]
  · have hcome : e.coming dv.clock (.depotPop (hDep l) (hPool l) hh nn) := he ▸ Dev.coming_send _ _ _
    exact hcome

theorem kvapp_traps : TrapsWhen (.kvapp d a b cc) (useV [a, b] [wa d, ra d, rv a, rv b, ra cc])
    (fun c => c.sure ∧ (c.s.A d.toNat).getLsbD 63 = true ∧ (c.s.A d.toNat).extractLsb' 40 23 ≠ 0#23) 0x72 (fun _ => 2) (fun c => c.s.A d.toNat) :=
  trapsWhen_of (exec_kvapp d a b cc) (fun c _ ⟨hsure, hbit, hbits⟩ => ⟨_, (hsure.unspec _).trans ((if_pos hbit).trans (if_pos hbits))⟩)

end Sys2Proof.Machine
end

section
/-! PROOFS. The attention forms: depots, rotary tables, ldkr and the walking thread (R244, R255 to R258). -/

namespace Sys2Proof.Machine

/-! ### The depot (R244) -/

theorem Dev.pool_updPool (d : Dev) (dep pool : Nat) (f : Pool → Pool) : (d.updPool dep pool f).pool dep pool = f (d.pool dep pool) :=
  AMap.get_put_self _ _ _ _

theorem Dev.depots_wakeSlot (d : Dev) (h n : Nat) (p : WaitFor → Bool) : (d.wakeSlot h n p).depots = d.depots := by
  unfold Dev.wakeSlot
  split
  · split <;> rfl
  · rfl

theorem Dev.depots_reply (d : Dev) (h n : Nat) (r : Reply) : (d.reply h n r).depots = d.depots := by
  unfold Dev.reply
  split
  · rfl
  · split
    · rfl
    · exact Dev.depots_wakeSlot _ _ _ _

section
variable {dep pool idx h n : Nat} {p : Pool}

theorem depotPop_pops : Event (.depotPop dep pool h n) (fun _ d => h < nCores ∧ (d.slot h n).reply ≠ .stale ∧ (d.pool dep pool).pop = some (idx, p))
    (fun _ _ e => e.pool dep pool = p ∧ (e.slot h n).reply = .done (BitVec.ofNat 64 idx)) := by
  intro s ⟨hh, hs, hpop⟩
  have he : exec (.depotPop dep pool h n) s =
      .next ⟨s.mem, (s.dev.updPool dep pool (fun _ => p)).reply h n (.done (BitVec.ofNat 64 idx))⟩ := by
    unfold exec execDepotPop onDev
    dsimp only
    rw [hpop]
  refine ⟨_, he, fun _ => rfl, ?_, Dev.reply_reply (d := s.dev.updPool dep pool (fun _ => p)) hh hs _⟩
  rw [Dev.pool, Dev.depots_reply, ← Dev.pool, Dev.pool_updPool]

theorem depotPop_empty : Event (.depotPop dep pool h n) (fun _ d => h < nCores ∧ (d.slot h n).reply ≠ .stale ∧ (d.pool dep pool).pop = none)
    (fun _ d e => e.depots = d.depots ∧ (e.slot h n).reply = .fail 0x70 (16 * dep + pool)) := by
  intro s ⟨hh, hs, hpop⟩
  have he : exec (.depotPop dep pool h n) s = .next ⟨s.mem, s.dev.reply h n (.fail 0x70 (16 * dep + pool))⟩ := by
    unfold exec execDepotPop onDev
    dsimp only
    rw [hpop]
  exact ⟨_, he, fun _ => rfl, Dev.depots_reply _ _ _ _, Dev.reply_reply hh hs _⟩

theorem depotPush_pushes : Event (.depotPush dep pool idx) (fun _ _ => True)
    (fun _ d e => e.pool dep pool = { d.pool dep pool with pushed := idx :: (d.pool dep pool).pushed } ∧
      (∀ k, k ≠ 16 * dep + pool → e.depots.find? k = d.depots.find? k) ∧ d.sameSlots e) :=
  fun s _ => ⟨⟨s.mem, s.dev.updPool dep pool (fun p => p.push idx)⟩, rfl, fun _ => rfl, Dev.pool_updPool _ _ _ _,
    fun k hk => AMap.find_put_ne _ _ _ _ hk, fun _ _ => rfl⟩

end

/-! ### Rotary on load (R255, R256) -/

/-- The nonzero values of a list, by their place. -/
def placed {α : Type} (f : α → W32) (xs : List α) : AMap W32 := ⟨(xs.zipIdx.map (fun x => (x.2, f x.1))).filter (fun e => e.2 != 0#32)⟩

theorem mem_placed {α : Type} {f : α → W32} {xs : List α} {j : Nat} {w : W32} : (j, w) ∈ (placed f xs).ents ↔ (∃ y, xs[j]? = some y ∧ f y = w) ∧ w ≠ 0#32 := by
  simp only [placed, List.mem_filter, List.mem_map, Prod.mk.injEq, bne_iff_ne]
  refine and_congr_left fun _ => ⟨fun ⟨x, hx, hj, hw⟩ => ⟨x.1, ?_, hw⟩, fun ⟨y, hy, hw⟩ => ⟨(y, j), List.mem_zipIdx_iff_getElem?.mpr hy, rfl, hw⟩⟩
  rw [← hj]
  exact List.mem_zipIdx_iff_getElem?.mp hx

theorem get_placed {α : Type} (f : α → W32) (xs : List α) (j : Nat) : (placed f xs).get 0#32 j = (xs[j]?.map f).getD 0#32 := by
  by_cases hin : ∃ w, (j, w) ∈ (placed f xs).ents
  · obtain ⟨w, hw⟩ := hin
    obtain ⟨⟨y, hy, hyw⟩, -⟩ := mem_placed.mp hw
    rw [AMap.get_of_all hw (fun v hv => ?_), hy, Option.map_some, Option.getD_some, hyw]
    obtain ⟨⟨z, hz, hzv⟩, -⟩ := mem_placed.mp hv
    rw [← hzv, ← hyw, Option.some.inj (hz.symm.trans hy)]
  · have hnone : (placed f xs).find? j = none := by
      cases hf : (placed f xs).find? j with
      | none => rfl
      | some w => exact absurd ⟨w, AMap.mem_of_find? hf⟩ hin
    rw [AMap.get, hnone]
    cases hy : xs[j]? with
    | none => rfl
    | some y =>
      by_cases hz : f y = 0#32
      · exact hz.symm
      · exact absurd ⟨f y, mem_placed.mpr ⟨⟨y, hy, rfl⟩, hz⟩⟩ hin

/-- A reading of a rotary table whose words have all come has no fault. -/
theorem LongOp.fault_got {o : LongOp} (h : ∀ y, y ∈ o.acc → y.st = .got) : o.fault = none := by
  have hus : o.acc.filter (fun a => a.st.faulty && a.flt == 0) = [] := List.filter_eq_nil_iff.mpr fun a ha => by rw [h a ha]; exact Bool.false_ne_true
  rw [LongOp.fault, LongOp.hits, hus]
  rfl

theorem rtab_loads (base : AReg) (off : BitVec 24) (o : LongOp) : Acts (.rtab base off) (useA [ra base])
    (fun c => (c.s.addr1 base off).toNat % 64 = 0 ∧ c.s.ops.find? (fun o => o.kind == .rtab) = some o ∧ ∀ y, y ∈ o.acc → y.st = .got) [] [] []
    (fun c e => (∀ j y, o.acc[j]? = some y → (e.slot c.h c.n).rot.get 0#32 j = Line.w32 y.line (y.va.toNat % 128)) ∧
      (∀ j, o.acc.length ≤ j → (e.slot c.h c.n).rot.get 0#32 j = 0#32) ∧ e.still = c.d.still) := by
  refine acts_of (fun _ => by unfold exec execRtab; rfl) (fun c hc ⟨hal, hop, hgot⟩ => ?_)
  have hfly : o.acc.any (fun x => x.st.flying) = false := List.any_eq_false.mpr fun x hx => by rw [hgot x hx]; exact Bool.false_ne_true
  obtain ⟨z, hz⟩ : ∃ z : Slot, z = { c.s.noTable with rot := placed (fun x : Acc => Line.w32 x.line (x.va.toNat % 128)) o.acc } := ⟨_, rfl⟩
  refine ⟨(c.d.setSlot c.h c.n c.s.noTable).setSlot c.h c.n z, ?_, ?_, ?_⟩
  · rw [if_neg (by simp [hal]), hop]
    dsimp only
    rw [hfly, if_neg Bool.false_ne_true, LongOp.fault_got hgot, hz]
    rfl
  · rw [Dev.slot_setSlot_self, hz]
    exact .of_files rfl rfl rfl
  · have hrot : ((c.finish (useA [ra base]) ((c.d.setSlot c.h c.n c.s.noTable).setSlot c.h c.n z) (c.s.pc + 8#64)).slot c.h c.n).rot =
        placed (fun x : Acc => Line.w32 x.line (x.va.toNat % 128)) o.acc := by
      rw [Ctx.finish_slot _ _ _ _ hc.step, Dev.slot_setSlot_self, hz]
      rfl
    refine ⟨fun j y hy => ?_, fun j hj => ?_, ?_⟩
    · rw [hrot, get_placed, hy]
      rfl
    · rw [hrot, get_placed, List.getElem?_eq_none hj]
      rfl
    · exact Ctx.finish_still _ _ _ _

theorem rtab_traps (base : AReg) (off : BitVec 24) : TrapsWhen (.rtab base off) (useA [ra base]) (fun c => (c.s.addr1 base off).toNat % 64 ≠ 0) 0x05
    (fun _ => 0) (fun c => c.s.addr1 base off) :=
  trapsWhen_of (fun _ => by unfold exec execRtab; rfl) (fun c _ h => ⟨_, if_pos h⟩)

/-- The slot after the issue of an ldkr whose two lines are on their way. -/
theorem Dev.settleOp_ldkr {d : Dev} {h n id : Nat} {o : LongOp} {v : Nat} {off : BitVec 24} {rot : AMap W32} (ho : d.op? h n id = some o)
    (hk : o.kind = .ldkr v off rot) (hf : o.fin = false) (hne : o.acc ≠ []) (hfly : ∀ x, x ∈ o.acc → ∃ pa, x.st = .home pa) : d.settleOp h n id = d := by
  obtain ⟨x, xs, hacc⟩ := List.exists_cons_of_ne_nil hne
  have hall : ∀ x, x ∈ o.acc → x.st.faulty = false ∧ x.st.flying = true ∧ (x.st != .got) = true := fun x hx => by
    obtain ⟨pa, hpa⟩ := hfly x hx
    rw [hpa]
    exact ⟨rfl, rfl, rfl⟩
  have hx : x ∈ o.acc := hacc ▸ List.mem_cons_self
  have hany : o.acc.any (fun a => a.st.flying) = true := List.any_eq_true.mpr ⟨x, hx, (hall x hx).2.1⟩
  have hgot : o.acc.any (fun a => a.st != .got) = true := List.any_eq_true.mpr ⟨x, hx, (hall x hx).2.2⟩
  have hhead : (o.acc.take 1).any (fun a => a.st.faulty && a.flt == 0) = false := by
    rw [hacc, List.take_succ_cons, List.take_zero, List.any_cons, List.any_nil, (hall x hx).1]
    rfl
  have hrefile : d.refile h n id = d := by
    unfold Dev.refile
    rw [ho]
    dsimp only
    rw [hk]
  have hfile : Dev.fileFaults h n id 3 d = d := by
    unfold Dev.fileFaults
    rw [ho, Option.bind_some, Dev.nextFault, hk]
    dsimp only
    rw [hhead, hany]
    rfl
  unfold Dev.settleOp
  dsimp only
  rw [hrefile, hfile, ho]
  dsimp only
  rw [hf, hk, hgot, if_pos (by simp)]

/-- One lane of a form that reads lines as gld does. -/
theorem Ctx.accesses_mapped {c : Ctx} {l pa : Nat} {va : W64} (haway : c.bufferAway = false) (hm : c.mapped [.r] va pa)
    (hl1 : (c.d.core c.h).l1.find? (lineOf va.toNat) = none) : c.accesses true [(l, va)] = some (.inr [c.homeAcc l va pa]) := by
  unfold Ctx.accesses
  simp only [List.map_cons, List.map_nil, Ctx.loadLane_mapped hm hl1, List.findSome?_cons, List.findSome?_nil, haway, List.any_cons, List.any_nil,
    Bool.or_false, Bool.false_eq_true, if_false, if_true]
  rfl

section
variable {la : BitVec 4} {km : KReg} {kz : Bool} {v : VReg} {base : AReg} {off : BitVec 24}

/-- The registers that ldkr names. -/
def useLdkr (la : BitVec 4) (km : KReg) (kz : Bool) (v : VReg) (base : AReg) : Use :=
  ((⟨[v.toNat], [], [wv v, ra base], none, .all, false⟩ : Use).masked km kz).long la

/-- The address of the row that ldkr reads. -/
def Slot.ldkrRow (s : Slot) (base : AReg) (off : BitVec 24) : W64 := s.A base.toNat + 256#64 + off.signExtend 64

theorem ldkr_issues (p₁ p₂ : Nat) : Acts (.ldkr la km kz v base off) (useLdkr la km kz v base)
    (fun c => c.s.kind ≠ .ordered ∧ c.bufferAway = false ∧ (∀ o, o ∈ c.s.ops → o.id ≠ c.d.count) ∧ (c.s.A base.toNat).toNat % 256 = 0 ∧
      c.mapped [.r] (c.s.A base.toNat) p₁ ∧ c.mapped [.r] (c.s.ldkrRow base off &&& ~~~(3#64)) p₂ ∧
      (c.d.core c.h).l1.find? (lineOf (c.s.A base.toNat).toNat) = none ∧
      (c.d.core c.h).l1.find? (lineOf (c.s.ldkrRow base off &&& ~~~(3#64)).toNat) = none) [] [] []
    (fun c e => ∃ o, o ∈ (e.slot c.h c.n).ops ∧ o.kind = .ldkr v.toNat off c.s.rot ∧ o.vd = [v.toNat] ∧ o.mask = c.s.K km.toNat ∧ o.kz = kz ∧
      o.acc.map (fun y => (y.va, y.st)) = [(c.s.A base.toNat, .home p₁), (c.s.ldkrRow base off &&& ~~~(3#64), .home p₂)] ∧
      e.coming c.d.clock (.homeRead c.h c.n o.id 0 p₁) ∧ e.coming c.d.clock (.homeRead c.h c.n o.id 1 p₂)) := by
  refine acts_of (u := useLdkr la km kz v base) (fun _ => by unfold exec execLdkr; rfl) (fun c hc ⟨hkind, haway, hfresh, hal, hm₁, hm₂, hl₁, hl₂⟩ => ?_)
  have hord : (c.s.kind == .ordered) = false := by simpa using hkind
  obtain ⟨row, hrow⟩ : ∃ row, row = c.s.ldkrRow base off &&& ~~~(3#64) := ⟨_, rfl⟩
  have hrow' : (c.s.A base.toNat + 256#64 + off.signExtend 64) &&& ~~~(3#64) = row := hrow.symm
  rw [← hrow] at hm₂ hl₂ ⊢
  obtain ⟨o, ho⟩ : ∃ o : LongOp, o = ⟨c.d.count, c.s.pc, .ldkr v.toNat off c.s.rot, [v.toNat], [], c.s.K km.toNat, kz,
    [c.homeAcc 0 (c.s.A base.toNat) p₁] ++ [c.homeAcc 0 row p₂] ++ [], [], [], c.s.A base.toNat, 0#64, false⟩ := ⟨_, rfl⟩
  have hacc : o.acc = [c.homeAcc 0 (c.s.A base.toNat) p₁, c.homeAcc 0 row p₂] := by rw [ho]; rfl
  obtain ⟨x, hx⟩ : ∃ x : Dev, x = { c.d.updSlot c.h c.n (fun s => { s with ops := s.ops ++ [o] }) with count := c.d.count + 1 } := ⟨_, rfl⟩
  have hxslot : x.slot c.h c.n = { c.s with ops := c.s.ops ++ [o] } := by
    rw [hx]
    exact (Dev.slot_updSlot_self c.d c.h c.n (fun s => { s with ops := s.ops ++ [o] })).trans (by rw [hc.own])
  have hop : (x.sendAll (o.sends c.h c.n c.s.lk)).op? c.h c.n o.id = some o := by
    have hnone : c.s.ops.find? (fun y => y.id == o.id) = none := List.find?_eq_none.mpr fun y hy => by
      have := hfresh y hy
      rw [ho]
      simpa using this
    rw [Dev.op?, show (x.sendAll (o.sends c.h c.n c.s.lk)).slot c.h c.n = _ from hxslot]
    simp [List.find?_append, hnone]
  have hset := Dev.settleOp_ldkr hop (by rw [ho]) (by rw [ho]) (by rw [hacc]; exact List.cons_ne_nil _ _) (fun y hy => by
    rw [hacc] at hy
    simp only [List.mem_cons, List.not_mem_nil, or_false] at hy
    rcases hy with rfl | rfl
    · exact ⟨p₁, rfl⟩
    · exact ⟨p₂, rfl⟩)
  have hstart : Ctx.startLoad c o = .done (x.sendAll (o.sends c.h c.n c.s.lk)) := by
    unfold Ctx.startLoad
    rw [hacc]
    simp only [List.foldl_cons, List.foldl_nil, bne, hord, Bool.not_false, Bool.or_true, Bool.true_or, if_true, Ctx.homeAcc, List.filter_cons,
      List.filter_nil]
    rw [← hx]
    exact congrArg Res.done hset
  refine ⟨x.sendAll (o.sends c.h c.n c.s.lk), ?_, ?_, o, ?_, by rw [ho], by rw [ho], by rw [ho], by rw [ho], by rw [hacc]; rfl, ?_⟩
  · rw [if_neg (by simp [hal, hm₁.2.1])]
    dsimp only
    rw [hord, hrow']
    simp only [Bool.false_eq_true, if_false, Bool.not_false, if_true, Ctx.accesses_mapped haway hm₁ hl₁, Ctx.accesses_mapped haway hm₂ hl₂]
    rw [execLdkr.go, ← ho]
    exact hstart
  · rw [show (x.sendAll (o.sends c.h c.n c.s.lk)).slot c.h c.n = _ from hxslot]
    exact .of_files rfl rfl rfl
  · rw [Ctx.finish_slot _ _ _ _ hc.step, show (x.sendAll (o.sends c.h c.n c.s.lk)).slot c.h c.n = _ from hxslot]
    exact List.mem_append_right _ (List.mem_singleton_self o)
  · obtain ⟨due, hdue, hnet⟩ := x.net_sendAll (o.sends c.h c.n c.s.lk)
    have hclock : x.clock = c.d.clock := by rw [hx]; rfl
    rw [hclock] at hdue
    have hmem : ∀ i a pa, o.acc[i]? = some a → a.st = .home pa →
        (c.finish (useLdkr la km kz v base) (x.sendAll (o.sends c.h c.n c.s.lk)) (c.s.pc + 8#64)).coming c.d.clock (.homeRead c.h c.n o.id i pa) :=
      fun i a pa ha hst => ⟨⟨due, 0, .homeRead c.h c.n o.id i pa⟩, by
        rw [Ctx.finish_net, hnet]
        exact List.mem_append_right _ (List.mem_map.mpr ⟨_, LongOp.mem_sends_home ha hst _ _ _, rfl⟩), rfl, hdue⟩
    exact ⟨hmem 0 _ p₁ (by rw [hacc]; rfl) rfl, hmem 1 _ p₂ (by rw [hacc]; rfl) rfl⟩

theorem ldkr_traps : TrapsWhen (.ldkr la km kz v base off) (useLdkr la km kz v base) (fun c => (c.s.A base.toNat).toNat % 256 ≠ 0) 0x72 (fun _ => 2)
    (fun c => c.s.A base.toNat) :=
  trapsWhen_of (fun _ => by unfold exec execLdkr; rfl) (fun c _ h => ⟨_, if_pos (Or.inl h)⟩)

end

/-! ### The walking thread (R257) -/

/-- Caches filled leave the slot with the open records it had. -/
theorem Ctx.openRecs_filled {c : Ctx} {d : Dev} (h : c.d.Filled d c.h) : Ctx.openRecs { c with d := d } = c.openRecs := by
  obtain ⟨p, hp⟩ := h.core
  have htasks : d.tasks = c.d.tasks := (congrArg Dev.tasks h.quays.calm :)
  have hplain : Ctx.plain { c with d := d } = c.plain := by
    funext id
    unfold Ctx.plain Dev.task?
    dsimp only
    rw [htasks]
  unfold Ctx.openRecs
  rw [(Ctx.buffer_filled h).1, hplain]
  dsimp only
  rw [hp]

theorem Dev.breakLeases_none {d : Dev} {h n : Nat} (hl : (d.slot h n).leases = []) (why : Nat) (p : LeaseRec → Bool) : d.breakLeases h n why p = d := by
  unfold Dev.breakLeases
  dsimp only
  rw [hl]
  rfl

/-- The target of a walk depends on the launches alone. -/
theorem Dev.migrTarget_congr {d e : Dev} (h : e.launches = d.launches) (lk k pa : Nat) : e.migrTarget lk k pa = d.migrTarget lk k pa := by
  unfold Dev.migrTarget Dev.launch?
  rw [h]

section
variable {la live : BitVec 4} {d a : AReg} {pa : Nat} {l : Launch}

/-- The registers that migr names. -/
def useMigr (la : BitVec 4) (d a : AReg) : Use := (useA [wa d, ra a]).long la

/-- A slot that may walk: it has nothing unspoken for, and its launch names the live set. -/
def Ctx.mayWalk (c : Ctx) (l : Launch) (live : BitVec 4) : Prop :=
  c.quiet ∧ c.s.reply ≠ .sent ∧ c.s.ops = [] ∧ c.d.launch? c.s.lk = some l ∧ live.toNat < l.lives.length

/-- What a migr does once its faults are past. -/
def Ctx.walk (c : Ctx) (la live : BitVec 4) (d : AReg) (x : W64) : Res :=
  match c.d.translate c.m (c.s.who c.h) [.r] x with
  | .bad cause sub => c.faultAt cause sub x
  | .page sub => c.page sub x (Config.freeLanes c.d.count)
  | .miss => .skip (c.d.askFor (c.s.who c.h) x)
  | .ok pa lf =>
    let dv := (c.d.fillPlb c.m (c.s.who c.h) lf.dom).breakLeases c.h c.n 2 (fun _ => true)
    Ctx.release { c with d := dv, s := dv.slot c.h c.n } (fun c =>
      let t := c.d.migrTarget c.s.lk c.h pa
      if t = c.h then c.acquire true (fun c => c.done (c.s.setA d.toNat (BitVec.ofNat 64 c.h)))
      else if (c.d.freeSlot c.s.lk t).isNone then .wait c.d .move
      else
        let dv := (c.d.updSlot c.h c.n (fun s => { s with reply := .sent, live := live.toNat + 16 * d.toNat + 256 * la.toNat })).transit (terrOf c.s.lk) c.h c.n true
        .wait (dv.send 0 (.migrArrival c.h c.n t)) .reply)

/-- The body of a migr. -/
def Ctx.migr (la live : BitVec 4) (d a : AReg) (c : Ctx) : Res :=
  match c.s.reply with
  | .sent => .wait c.d .reply
  | _ =>
    if !c.s.ops.isEmpty then .skip c.d
    else if ((c.d.launch? c.s.lk).map (fun l => l.lives.length)).getD 0 ≤ live.toNat then c.faultAt 0x01 4 c.w
    else if (c.s.A a.toNat).toNat % 4 ≠ 0 then c.faultAt 0x05 0 (c.s.A a.toNat)
    else if isWindow (c.s.A a.toNat) then c.faultAt 0x04 6 (c.s.A a.toNat)
    else c.walk la live d (c.s.A a.toNat)

theorem exec_migr (s : State) : exec (.migr la live d a) s = thread (useMigr la d a) (fun c => c.unspec (Ctx.migr la live d a)) s := by
  unfold exec execMigr specForm useMigr
  rfl

/-- A slot that may walk comes to the faults of its address. -/
theorem Ctx.mayWalk.migr {c : Ctx} (h : c.mayWalk l live) : c.unspec (Ctx.migr la live d a) =
    if (c.s.A a.toNat).toNat % 4 ≠ 0 then c.faultAt 0x05 0 (c.s.A a.toNat)
    else if isWindow (c.s.A a.toNat) then c.faultAt 0x04 6 (c.s.A a.toNat)
    else c.walk la live d (c.s.A a.toNat) := by
  obtain ⟨hq, hsent, hops, hlaunch, hlives⟩ := h
  rw [hq.sure.unspec]
  unfold Ctx.migr
  split
  · next hr => exact absurd hr hsent
  · rw [hops, hlaunch, Option.map_some, Option.getD_some, if_neg (by simp), if_neg (by omega)]

theorem migr_traps_misaligned : TrapsWhen (.migr la live d a) (useMigr la d a) (fun c => c.mayWalk l live ∧ (c.s.A a.toNat).toNat % 4 ≠ 0) 0x05
    (fun _ => 0) (fun c => c.s.A a.toNat) :=
  trapsWhen_of exec_migr (fun c _ ⟨hw, hal⟩ => ⟨_, hw.migr.trans (if_pos hal)⟩)

theorem migr_traps_window : TrapsWhen (.migr la live d a) (useMigr la d a)
    (fun c => c.mayWalk l live ∧ (c.s.A a.toNat).toNat % 4 = 0 ∧ isWindow (c.s.A a.toNat) = true) 0x04 (fun _ => 6) (fun c => c.s.A a.toNat) :=
  trapsWhen_of exec_migr (fun c _ ⟨hw, hal, hwin⟩ => ⟨_, hw.migr.trans ((if_neg (not_not_intro hal)).trans (if_pos hwin))⟩)

theorem migr_stays : Acts (.migr la live d a) (useMigr la d a)
    (fun c => c.mayWalk l live ∧ (c.s.A a.toNat).toNat % 4 = 0 ∧ c.mapped [.r] (c.s.A a.toNat) pa ∧ c.s.leases = [] ∧ c.s.loading = false ∧
      c.d.migrTarget c.s.lk c.h pa = c.h) [d.toNat] [] []
    (fun c e => (e.slot c.h c.n).A d.toNat = (if d = 0#4 then 0#64 else BitVec.ofNat 64 c.h) ∧
      ∀ q z, (e.core c.h).l1.find? q = some z → z.sealed_ = true) := by
  refine acts_of exec_migr (fun c hc ⟨hw, hal, hm, hleases, hload, htarget⟩ => ?_)
  obtain ⟨lf, -, htr⟩ := Ctx.translate_mapped hm
  obtain ⟨d1, hd1⟩ : ∃ d1, d1 = c.d.fillPlb c.m (c.s.who c.h) lf.dom := ⟨_, rfl⟩
  have hfill : c.d.Filled d1 c.h := hd1 ▸ c.d.filled_fillPlb c.m (c.s.who c.h) lf.dom
  have hown1 : d1.slot c.h c.n = c.s := (hfill.quays.slots _ _).trans hc.own
  obtain ⟨hseen, hwin⟩ := Bool.and_eq_true_iff.mp hw.1.seen
  have hgroups : d1.slotGroups c.h c.n = [] := by
    rw [Dev.slotGroups, show d1.groups = c.d.groups from (congrArg Dev.groups hfill.quays.calm :)]
    exact List.isEmpty_iff.mp hseen
  obtain ⟨s2, hs2⟩ : ∃ s2, s2 = { c.s with closed := true } := ⟨_, rfl⟩
  obtain ⟨d2, hd2⟩ : ∃ d2, d2 = (d1.setSlot c.h c.n s2).updCore c.h Core.acquire := ⟨_, rfl⟩
  obtain ⟨s3, hs3⟩ : ∃ s3, s3 = s2.setA d.toNat (BitVec.ofNat 64 c.h) := ⟨_, rfl⟩
  have hlaunches : (d1.setSlot c.h c.n s2).launches = c.d.launches := (congrArg Dev.launches hfill.quays.calm :)
  have hself : (d2.setSlot c.h c.n s3).slot c.h c.n = s3 := Dev.slot_setSlot_self _ _ _ _
  refine ⟨d2.setSlot c.h c.n s3, ?_, ?_, ?_, fun q z hz => ?_⟩
  · rw [hw.migr, if_neg (not_not_intro hal), if_neg (by rw [hm.2.1]; exact Bool.false_ne_true)]
    unfold Ctx.walk
    rw [htr]
    dsimp only
    rw [← hd1, Dev.breakLeases_none (by rw [hown1]; exact hleases), hown1, Ctx.release_quiet (c := { c with d := d1 }) hw.1.closed
      ((Ctx.openRecs_filled hfill).trans hw.1.open_) hown1 hgroups (List.isEmpty_iff.mp (by rw [hc.own] at hwin; exact hwin)), ← hs2]
    dsimp only
    have hlk : s2.lk = c.s.lk := by rw [hs2]
    rw [hlk, Dev.migrTarget_congr hlaunches, htarget, if_pos rfl]
    unfold Ctx.acquire
    rw [if_neg (by rw [show s2.loading = false by rw [hs2]; exact hload]; exact Bool.false_ne_true), if_pos rfl, hs3, hd2]
    rfl
  · rw [hself, hs3, hs2]
    exact ⟨fun j hj => Slot.A_setA_ne _ _ _ _ (List.mem_singleton.not.mp hj), fun j _ => Slot.V_setA _ _ j _, fun j _ => Slot.K_setA _ _ j _⟩
  · rw [Ctx.finish_slot _ _ _ _ hc.step, hself, hs3]
    exact Slot.A_setA_self s2 d (BitVec.ofNat 64 c.h)
  · have hbare := Ctx.finish_core_bare c (useMigr la d a) (d2.setSlot c.h c.n s3) (c.s.pc + 8#64) hc.step c.h
    rw [Dev.setSlot, Dev.core_updSlot_bare, hd2, Dev.core_updCore_self] at hbare
    have hl1 : ((c.finish (useMigr la d a) (d2.setSlot c.h c.n s3) (c.s.pc + 8#64)).core c.h).l1 = ((d1.setSlot c.h c.n s2).core c.h).acquire.l1 := by
      rw [hd2]
      exact (congrArg Core.l1 hbare :)
    rw [hl1] at hz
    exact AMap.find?_sealed hz

end

/-! ### A slot that becomes FREE leaves those of other cores (R76) -/

/-- From d to e the slots of every core but one were at most woken. -/
def Dev.WakesBut (d e : Dev) (h : Nat) : Prop := ∀ j m, j ≠ h → (d.slot j m).Woken (e.slot j m)

namespace Dev.WakesBut

theorem of_wakes {d e : Dev} (x : d.AtMostWakes e) (h : Nat) : d.WakesBut e h := fun j m _ => x j m
theorem trans {d e f : Dev} {h : Nat} (x : d.WakesBut e h) (y : e.WakesBut f h) : d.WakesBut f h := fun j m hj => (x j m hj).trans (y j m hj)
/-- Two steps, the later one first: its shape names what lies between. -/
theorem after {d e f : Dev} {h : Nat} (y : e.WakesBut f h) (x : d.WakesBut e h) : d.WakesBut f h := x.trans y
theorem first (d : Dev) (h : Nat) (es : List Ev) : d.WakesBut (d.first es) h := of_wakes (.of_slots fun _ _ => rfl) h
theorem updCore_slots (d : Dev) (t h : Nat) {f : Core → Core} (hf : ∀ k n, (f k).slot n = k.slot n) : d.WakesBut (d.updCore t f) h :=
  of_wakes (.updCore_slots d t hf) h
theorem refl (d : Dev) (h : Nat) : d.WakesBut d h := of_wakes (.refl d) h

theorem updCore (d : Dev) (h : Nat) (f : Core → Core) : d.WakesBut (d.updCore h f) h := fun j m hj => by
  rw [Dev.slot, Dev.slot, Dev.core_updCore_ne _ _ _ _ hj]
  exact .refl _

theorem updSlot (d : Dev) (h n : Nat) (f : Slot → Slot) : d.WakesBut (d.updSlot h n f) h := fun j m hj => by
  rw [Dev.slot_updSlot_ne _ _ _ _ _ _ (fun x => hj x.1)]
  exact .refl _

theorem foldl {α : Type} {h : Nat} {f : Dev → α → Dev} (hf : ∀ (e : Dev) x, e.WakesBut (f e x) h) (xs : List α) (d : Dev) : d.WakesBut (xs.foldl f d) h :=
  List.foldlRecOn (motive := fun e => d.WakesBut e h) _ _ (refl d h) (fun e he x _ => he.trans (hf e x))

theorem takeUp (d : Dev) (t h n : Nat) : d.WakesBut (d.takeUp t h n) h := by
  unfold Dev.takeUp
  dsimp only
  split
  · exact refl d h
  · exact after (first _ h _) (updCore_slots d t h (fun _ _ => rfl))

theorem takeLink (d : Dev) (h : Nat) (src : Dir) (e : Nat × Nat × Nat × V512) : d.WakesBut (d.takeLink h src e) h := by
  unfold Dev.takeLink
  split
  · exact updCore d h _
  · split
    · exact updCore d h _
    · exact updCore d h _

theorem takeLinks (src : Dir) (h : Nat) (es : List (Nat × Nat × Nat × V512)) (d : Dev) : d.WakesBut (Dev.takeLinks src h es d) h := by
  induction es generalizing d with
  | nil => exact updCore d h _
  | cons e es ih =>
    unfold Dev.takeLinks
    split
    · exact updCore d h _
    · exact (takeLink d h src e).trans (ih _)

theorem linkRoom (d : Dev) (h : Nat) (src : Dir) : d.WakesBut (d.linkRoom h src) h := by
  unfold Dev.linkRoom
  dsimp only
  have htake := takeLinks src h ((d.core h).linkQueue src) d
  split
  · exact htake
  · split
    · exact htake
    · exact htake.trans (of_wakes (.wake _ _ _) h)

theorem dropLinks (d : Dev) (h n : Nat) : d.WakesBut (d.dropLinks h n) h := by
  have hgo : ∀ (d : Dev) (dir : Dir) (f : Core → Core), d.WakesBut ((d.updCore h f).linkRoom h dir) h := fun d dir f =>
    (updCore d h f).trans (linkRoom _ h dir)
  unfold Dev.dropLinks Dev.dropLinksOf
  dsimp only
  split
  · exact (hgo d .up _).trans (hgo _ .down _)
  · exact refl d h

theorem discard (d : Dev) (h n : Nat) (rs : List RemoteAcc) : d.WakesBut (d.discard h n rs) h := by
  unfold Dev.discard
  dsimp only
  exact (updSlot d h n _).trans (foldl (fun d t => takeUp d t h n) _ _)

theorem vacate (d : Dev) (h n : Nat) : d.WakesBut (d.vacate h n) h := by
  unfold Dev.vacate
  dsimp only
  refine after (foldl (fun d t => of_wakes (.wake d t _) h) _ _) (after (updSlot _ h n _) (after (updCore _ h _) ?_))
  exact (dropLinks d h n).trans (discard _ h n _)

end Dev.WakesBut

/-! ### A walking thread arrives (R258) -/

/-- Slot b runs the thread that slot a runs, at the same place and with the same registers. -/
structure Slot.SameRun (a b : Slot) : Prop where
  user : a.SameUser b
  gtid : b.gtid = a.gtid
  tsw : b.tsw = a.tsw
  lk : b.lk = a.lk

theorem Slot.SameRun.trans {a b c : Slot} (x : a.SameRun b) (y : b.SameRun c) : a.SameRun c :=
  ⟨x.user.trans y.user, y.gtid.trans x.gtid, y.tsw.trans x.tsw, y.lk.trans x.lk⟩

theorem Slot.Woken.sameRun {a b : Slot} (h : a.Woken b) : a.SameRun b := by
  refine ⟨h.sameUser, ?_, ?_, ?_⟩ <;> rcases h with rfl | ⟨k, rfl⟩ <;> rfl

theorem Slot.Aside.sameRun {a b : Slot} (h : a.Aside b) : a.SameRun b := by
  refine ⟨h.sameUser, ?_, ?_, h.lk⟩ <;> obtain ⟨_, _, _, _, _, rfl, -⟩ := h <;> rfl

/-- The registers that a walk keeps. -/
theorem Slot.V_liveRegs (s z : Slot) (l : BitVec 128 × BitVec 16 × BitVec 8) (j : Nat) :
    (liveRegs s l z).V j = if l.1.getLsbD j then s.V j else 0#512 := by
  unfold liveRegs Slot.V AMap.get
  rw [AMap.find?_filter_key]
  split <;> rfl

theorem Slot.K_liveRegs (s z : Slot) (l : BitVec 128 × BitVec 16 × BitVec 8) {j : Nat} (hj : j ≠ 0) :
    (liveRegs s l z).K j = if l.2.2.getLsbD j then s.K j else 0#16 := by
  unfold liveRegs Slot.K AMap.get
  rw [if_neg hj, if_neg hj, AMap.find?_filter_key]
  split <;> rfl

theorem Slot.A_liveRegs (s z : Slot) (l : BitVec 128 × BitVec 16 × BitVec 8) {j : Nat} (hj : j ≠ 0) :
    (liveRegs s l z).A j = if l.2.1.getLsbD j then s.A j else 0#64 := by
  unfold liveRegs Slot.A AMap.get
  rw [if_neg hj, if_neg hj, AMap.find?_filter_key]
  split <;> rfl

theorem Slot.A_setA_at (s : Slot) (d : Nat) (v : W64) {j : Nat} (hj : j ≠ 0) : (s.setA d v).A j = if j = d then v else s.A j := by
  split
  · next h =>
    rw [← h, Slot.setA, if_neg hj, Slot.A, if_neg hj]
    exact AMap.get_put_self _ _ _ _
  · next h => exact Slot.A_setA_ne s d j v h

/-- What stands in the slot that a walking thread comes to. -/
def Slot.walked (s : Slot) (l : BitVec 128 × BitVec 16 × BitVec 8) (t : Nat) (z : Slot) : Slot :=
  { (liveRegs s l z).setA (s.live / 16 % 16) (BitVec.ofNat 64 t) with
    tsw := s.tsw, gtid := s.gtid, laneSet := s.laneSet, tasks := s.tasks, rot := s.rot
    wins := (s.issued s.pc (s.pc + 8#64) ((useA [⟨.a, s.live / 16 % 16, true⟩]).long (BitVec.ofNat 4 (s.live / 256)))).wins
    st := if s.stepReq then .held .debug else .ready }

/-- Slot b runs the thread of slot s, past its migr to core t, with the registers of the live set l. -/
structure Slot.WalkedTo (s b : Slot) (l : BitVec 128 × BitVec 16 × BitVec 8) (t : Nat) : Prop where
  pc : b.pc = s.pc + 8#64
  gtid : b.gtid = s.gtid
  tsw : b.tsw = s.tsw
  lk : b.lk = s.lk
  V : ∀ j, b.V j = if l.1.getLsbD j then s.V j else 0#512
  K : ∀ j, j ≠ 0 → b.K j = if l.2.2.getLsbD j then s.K j else 0#16
  A : ∀ j, j ≠ 0 → b.A j = if j = s.live / 16 % 16 then BitVec.ofNat 64 t else if l.2.1.getLsbD j then s.A j else 0#64

theorem Slot.lk_setA (s : Slot) (d : Nat) (v : W64) : (s.setA d v).lk = s.lk := by
  unfold Slot.setA
  split <;> rfl

theorem Slot.walkedTo_walked (s z : Slot) (l : BitVec 128 × BitVec 16 × BitVec 8) (t : Nat) (hpc : z.pc = s.pc + 8#64) (hlk : z.lk = s.lk) :
    s.WalkedTo (s.walked l t z) l t where
  pc := (Slot.pc_setA (liveRegs s l z) _ _).trans hpc
  gtid := rfl
  tsw := rfl
  lk := (Slot.lk_setA (liveRegs s l z) _ _).trans hlk
  V j := (Slot.V_setA (liveRegs s l z) _ j _).trans (Slot.V_liveRegs s z l j)
  K j hj := (Slot.K_setA (liveRegs s l z) _ j _).trans (Slot.K_liveRegs s z l hj)
  A j hj := (Slot.A_setA_at (liveRegs s l z) _ _ hj).trans (by rw [Slot.A_liveRegs s z l hj])

theorem Slot.WalkedTo.sameRun {s a b : Slot} {l : BitVec 128 × BitVec 16 × BitVec 8} {t : Nat} (x : s.WalkedTo a l t) (y : a.SameRun b) :
    s.WalkedTo b l t :=
  ⟨y.user.1.trans x.pc, y.gtid.trans x.gtid, y.tsw.trans x.tsw, y.lk.trans x.lk, fun j => (y.user.2 j).2.1.trans (x.V j),
    fun j hj => (y.user.2 j).2.2.trans (x.K j hj), fun j hj => (y.user.2 j).1.trans (x.A j hj)⟩

section
variable {d : Dev} {h n t i k : Nat} {l : Launch}

/-- The moves of a walk between its new slot and its old one: tasks, messages and ranks go along. -/
def Dev.carried (d0 d : Dev) (h n t i : Nat) (s : Slot) : Dev :=
  let ranks := d0.ranksOf (terrOf s.lk) h n
  let d := d.updCore t Core.acquire
  let buf := (d.bufferOf t s.lk i).1
  let d := (s.tasks.ents.map (·.2)).foldl (fun d id => d.updTask s.lk id (fun x => { x with core := t, buf := buf })) d
  let moved := (d.core h).inbox.filter (fun x => x.terr == terrOf s.lk && ranks.contains x.rank)
  (d.updCore h (fun c => { c with inbox := c.inbox.filter (fun x => !(x.terr == terrOf s.lk && ranks.contains x.rank)) })).updCore t (fun c =>
    { c with inbox := c.inbox ++ moved })

theorem Dev.cores_updTask (d : Dev) (lk : Nat) (id : W32) (f : Task → Task) : (d.updTask lk id f).cores = d.cores := by
  unfold Dev.updTask
  split <;> rfl

theorem Dev.AtMostWakes.of_cores {d e : Dev} (h : e.cores = d.cores) : d.AtMostWakes e :=
  .of_slots fun j n => by rw [Dev.slot, Dev.core, h, ← Dev.core, ← Dev.slot]

theorem Dev.wakes_carried (d0 d : Dev) (h n t i : Nat) (s : Slot) : d.AtMostWakes (d0.carried d h n t i s) := by
  unfold Dev.carried
  extract_lets ranks d1 buf d2 moved
  have h1 : d.AtMostWakes d1 := .updCore_slots d t (fun _ _ => rfl)
  have h2 : d1.AtMostWakes d2 := .foldl (fun e id => .of_cores (e.cores_updTask _ _ _)) _ _
  clear_value d2
  exact .after (.updCore_slots _ t (fun _ _ => rfl)) (.after (.updCore_slots _ h (fun _ _ => rfl)) (h1.trans h2))

theorem Dev.wakes_setRanks (d : Dev) (t : Nat) (w : W32) (rs : List Nat) : d.AtMostWakes (rs.foldl (fun d r => d.setRank t r w) d) :=
  .foldl (f := fun d r => d.setRank t r w) (fun e r => .of_slots fun _ _ => rfl) rs d

/-- The device once a walking thread stands in slot k of core t, its old slot FREE. -/
def Dev.arrived (d : Dev) (m : Memory) (h n t i k : Nat) (lv : BitVec 128 × BitVec 16 × BitVec 8) (s : Slot) : Dev :=
  let d1 := d.newThread s.lk t i k s.kind (s.pc + 8#64) 0 (s.walked lv t)
  let d2 := (d.ranksOf (terrOf s.lk) h n).foldl (fun d r => d.setRank (terrOf s.lk) r (rankFor t k)) (d.carried d1 h n t i s)
  let d3 := (d2.vacate h n).traceSlot m t k 4
  if s.stepReq then d3.traceSlot m t k 6 else d3

theorem exec_migrArrival {s : State} (hsent : (s.dev.slot h n).reply = .sent) (hheld : ∀ w, (s.dev.slot h n).st ≠ .held w)
    (hl : s.dev.launch? (s.dev.slot h n).lk = some l) (hfree : s.dev.freeSlot (s.dev.slot h n).lk t = some (i, k)) : exec (.migrArrival h n t) s =
      .next ⟨s.mem, s.dev.arrived s.mem h n t i k (l.lives.getD ((s.dev.slot h n).live % 16) (0#128, 0#16, 0#8)) (s.dev.slot h n)⟩ := by
  unfold exec execMigrArrival onDev
  dsimp only
  rw [hsent, hl, hfree, if_neg (by decide), if_neg (by decide)]
  cases hst : (s.dev.slot h n).st with
  | held w => exact absurd hst (hheld w)
  | _ => rfl

theorem Dev.arrived_spec {d : Dev} {s : Slot} (hl : d.launch? s.lk = some l) (hne : t ≠ h) (m : Memory) (i : Nat)
    (lv : BitVec 128 × BitVec 16 × BitVec 8) : ((d.arrived m h n t i k lv s).slot h n).st = .free ∧
      s.WalkedTo ((d.arrived m h n t i k lv s).slot t k) lv t := by
  obtain ⟨e, he⟩ : ∃ e, e = d.arrived m h n t i k lv s := ⟨_, rfl⟩
  rw [← he]
  unfold Dev.arrived at he
  extract_lets d1 d2 d3 at he
  obtain ⟨hnew, -⟩ := Dev.newThread_spec hl t i k 0 s.kind (s.pc + 8#64) (s.walked lv t)
  have h1 : s.WalkedTo (d1.slot t k) lv t := by
    rw [show d1.slot t k = _ from hnew]
    exact Slot.walkedTo_walked s _ lv t rfl rfl
  have h2 : d1.AtMostWakes d2 := Dev.AtMostWakes.after (Dev.wakes_setRanks _ _ _ _) (Dev.wakes_carried d d1 h n t i s)
  clear_value d1 d2
  have h3 : (d2.vacate h n).Aside d3 := Dev.aside_traceSlot (d2.vacate h n) m t k 4
  clear_value d3
  have h4 : d3.Aside e := by
    rw [he]
    split
    · exact Dev.aside_traceSlot _ _ _ _ _
    · exact .refl _
  have hall := h3.trans h4
  have hvac := (Dev.vacate_spec d2 h n).1
  refine ⟨((hall h n).st (fun w hw => ?_)).trans hvac, ?_⟩
  · rw [hvac] at hw
    exact nomatch hw
  · exact h1.sameRun (((h2 t k).sameRun.trans (Dev.WakesBut.vacate d2 h n t k hne).sameRun).trans (hall t k).sameRun)

theorem migrArrival_arrives : Event (.migrArrival h n t)
    (fun _ d => (d.slot h n).reply = .sent ∧ (∀ w, (d.slot h n).st ≠ .held w) ∧ d.launch? (d.slot h n).lk = some l ∧
      d.freeSlot (d.slot h n).lk t = some (i, k) ∧ t ≠ h)
    (fun _ d e => (e.slot h n).st = .free ∧ (d.slot h n).WalkedTo (e.slot t k) (l.lives.getD ((d.slot h n).live % 16) (0#128, 0#16, 0#8)) t) :=
  fun _ ⟨hsent, hheld, hl, hfree, hne⟩ => ⟨_, exec_migrArrival hsent hheld hl hfree, fun _ => rfl, Dev.arrived_spec hl hne _ _ _⟩

end

/-! ### The attention forms (O37) -/

/-- What kvapp buffers for a row, one run of bytes after the other. -/
theorem kvapp_holds {k : Core} {s : Slot} {ra rb_ rb row buf : Nat} {scales g : W64}
    (h : ∀ w, w ∈ appSegs s ra rb_ (rb / 64) rb row scales g → k.HoldsBytes buf w.va.toNat w.v w.n) :
    (∀ i, i < rb / 64 → k.HoldsBytes buf (g + BitVec.ofNat 64 (256 + row * rb + 64 * i)).toNat (s.V (ra + i)).toNat 64 ∧
      k.HoldsBytes buf (g + BitVec.ofNat 64 (256 + 16 * rb + row * rb + 64 * i)).toNat (s.V (rb_ + i)).toNat 64) ∧
    k.HoldsBytes buf (g + BitVec.ofNat 64 (32 + 4 * row)).toNat (scales.extractLsb' 0 32).toNat 4 ∧
    k.HoldsBytes buf (g + BitVec.ofNat 64 (96 + 4 * row)).toNat (scales.extractLsb' 32 32).toNat 4 ∧
    k.HoldsBytes buf (g + 4#64).toNat (row + 1) 1 := by
  have hmem : ∀ {r0 : Nat} {a : W64} {i : Nat}, i < rb / 64 → (⟨a + BitVec.ofNat 64 (64 * i), (s.V (r0 + i)).toNat, 64⟩ : Seg) ∈ rowSegs s r0 (rb / 64) a :=
    fun hi => List.mem_map.mpr ⟨_, List.mem_range.mpr hi, rfl⟩
  have hva : ∀ x i : Nat, g + BitVec.ofNat 64 (x + 64 * i) = g + BitVec.ofNat 64 x + BitVec.ofNat 64 (64 * i) := fun x i => by
    rw [BitVec.ofNat_add, BitVec.add_assoc]
  have hlast : ∀ x : Seg, x ∈ [(⟨g + BitVec.ofNat 64 (32 + 4 * row), (scales.extractLsb' 0 32).toNat, 4⟩ : Seg),
      ⟨g + BitVec.ofNat 64 (96 + 4 * row), (scales.extractLsb' 32 32).toNat, 4⟩, ⟨g + 4#64, row + 1, 1⟩] → k.HoldsBytes buf x.va.toNat x.v x.n :=
    fun x hx => h x (List.mem_append_right _ hx)
  refine ⟨fun i hi => ⟨?_, ?_⟩, hlast ⟨_, _, _⟩ (by simp), hlast ⟨_, _, _⟩ (by simp), hlast ⟨_, _, _⟩ (by simp)⟩
  · rw [hva]
    exact h _ (List.mem_append_left _ (List.mem_append_left _ (hmem hi)))
  · rw [hva]
    exact h _ (List.mem_append_left _ (List.mem_append_right _ (hmem hi)))

/-- Settles O37, form by form: `kvapp_row` and `kvapp_asks` for kvapp, `ldkr_issues`, `migr_stays` and `migrArrival_arrives` for what reads and walks. -/
theorem attentionForms : Obligations.AttentionForms := by
  unfold Obligations.AttentionForms
  refine ⟨fun d cc a b dep pool idx h n p l pa dv => ?_, fun la live km kz v d a base off o p₁ p₂ h n t i k l => ?_⟩
  · refine ⟨depotPop_pops, depotPop_empty, depotPush_pushes, ?_, ?_, kvapp_traps⟩
    · intro s hh nn w hi ⟨⟨hsure, hname, hal, hwin, hread, hgood⟩, hrest⟩
      obtain ⟨t, he, hmem, hpc, hA, hV, hK, hpost⟩ := kvapp_row (d := d) (cc := cc) (a := a) (b := b) l pa dv s hh nn w hi
        ⟨⟨hsure, hname, ⟨hal, hwin, hread, hgood⟩⟩, hrest⟩
      obtain ⟨hrows, hs1, hs2, hcount⟩ := kvapp_holds hpost
      exact ⟨t, he, hmem, hpc, hA, hV, hK, fun i hi => ⟨(hrows i hi).1.record, (hrows i hi).2.record⟩, hs1.record, hs2.record, hcount.record⟩
    · intro s hh nn w hi c ⟨⟨hsure, hname, hal, hwin, hread, hgood⟩, hcount, hof, hgate, hidle, hroom⟩
      exact kvapp_asks l pa dv s hh nn w hi ⟨hsure, hname, ⟨hal, hwin, hread, hgood⟩⟩ hcount hof hgate hidle hroom
  · refine ⟨rtab_loads base off o, rtab_traps base off, ldkr_issues p₁ p₂, ldkr_traps, migr_stays, migr_traps_misaligned, migr_traps_window, ?_⟩
    intro s hpre
    obtain ⟨t', he, hmem, hfree, hw⟩ := migrArrival_arrives (l := l) s hpre
    exact ⟨t', he, hmem, hfree, hw.pc, hw.gtid, hw.tsw, hw.lk, hw.V, hw.K, hw.A⟩

end Sys2Proof.Machine
end

section
/-! PROOFS. What a step of a command reads, at once (R126, R173, R226, R233). -/

namespace Sys2Proof.Machine

/-! ### What a step of a command sees (R173, R226, R233) -/

/-- What a command's step sees of a core: all but its slots, barriers, objects, L1 and engine queues. -/
def Core.seen (c : Core) : Core := { c.bare with bars := .empty, objs := .empty, l1 := .empty, mq := .init, cq := .init }

/-- What it sees outside the cores: all but what quays keep of their lines. -/
def Dev.seen (d : Dev) : Dev := { d with cores := .empty, qsets := .empty, shared := .empty, stalled := [], pins := [], count := 0 }

/-- The line stands in its quay, not to be trimmed (R329). -/
structure Dev.InQuay (d : Dev) (pa : Nat) : Prop where
  found : ∃ y, y ∈ d.qsets.get [] (quayKey (lineOf pa)) ∧ y.pa = lineOf pa ∧ y.trim = false
  kept : ∀ y, y ∈ d.quayLines (quayKey (lineOf pa)) → y.pa = lineOf pa → y.trim = false

/-- An access of the line finds it: in host memory, in a doorbell's place, or in its quay. -/
def Dev.AtHand (d : Dev) (pa : Nat) : Prop := homeOf (lineOf pa) = 512 ∨ isDoorbell (lineOf pa) = true ∨ d.InQuay pa

theorem Dev.AtHand.congr {d e : Dev} {pa : Nat} (h : d.AtHand pa) (hq : e.qsets = d.qsets) (hp : e.pins = d.pins) (hh : e.homes = d.homes) : e.AtHand pa := by
  refine h.imp_right (Or.imp_right fun ⟨hf, hk⟩ => ⟨hq ▸ hf, ?_⟩)
  unfold Dev.quayLines Dev.pinned Dev.heldLine Dev.pending Dev.home at hk ⊢
  rw [hq, hp, hh]
  exact hk

/-- What a queue keeps from one step of a command to the next: its format context and the frames of an import (R216, R261). -/
def EQ.kept (e : EQ) : W32 × W64 × W64 := (e.ctx, e.kvFirst, e.kvPrev)

/-- From d to e nothing changed that a command's step sees, and slots were at most woken. -/
structure Dev.Sees (d e : Dev) : Prop where
  cores : ∀ t, (e.core t).seen = (d.core t).seen
  rest : e.seen = d.seen
  quays : ∀ pa, d.AtHand pa → e.AtHand pa
  woken : d.AtMostWakes e
  kept : ∀ t cq, ((e.core t).eq cq).kept = ((d.core t).eq cq).kept

namespace Dev.Sees

theorem refl (d : Dev) : d.Sees d := ⟨fun _ => rfl, rfl, fun _ h => h, .refl d, fun _ _ => rfl⟩
theorem trans {d e f : Dev} (h : d.Sees e) (g : e.Sees f) : d.Sees f :=
  ⟨fun t => (g.cores t).trans (h.cores t), g.rest.trans h.rest, fun pa x => g.quays pa (h.quays pa x), h.woken.trans g.woken,
    fun t cq => (g.kept t cq).trans (h.kept t cq)⟩

theorem updCore (d : Dev) (h : Nat) {f : Core → Core} (hseen : ∀ k, (f k).seen = k.seen) (hs : ∀ k n, (f k).slot n = k.slot n)
    (hkept : ∀ k cq, ((f k).eq cq).kept = (k.eq cq).kept) : d.Sees (d.updCore h f) := by
  refine ⟨fun t => ?_, rfl, fun _ x => x.congr rfl rfl rfl, .updCore_slots d h hs, fun t cq => ?_⟩ <;> by_cases ht : t = h
  · rw [ht, Dev.core_updCore_self, hseen]
  · rw [Dev.core_updCore_ne _ _ _ _ ht]
  · rw [ht, Dev.core_updCore_self, hkept]
  · rw [Dev.core_updCore_ne _ _ _ _ ht]

theorem wake (d : Dev) (h : Nat) (p : Nat → Slot → WaitFor → Bool) : d.Sees (d.wake h p) :=
  ⟨fun t => (congrArg Core.seen (Dev.bare_core_wake d h p t) :), rfl, fun _ x => x.congr rfl rfl rfl, .wake d h p,
    fun t cq => congrArg EQ.kept (Core.eq_of_bare (Dev.bare_core_wake d h p t) cq)⟩

theorem setBar (d : Dev) (h b : Nat) (x : Bar) : d.Sees (d.updCore h (fun k => k.setBar b x)) := updCore d h (fun _ => rfl) (fun _ _ => rfl) (fun _ _ => rfl)
theorem setObj (d : Dev) (h o : Nat) (x : Obj) : d.Sees (d.updCore h (fun k => k.setObj o x)) := updCore d h (fun _ => rfl) (fun _ _ => rfl) (fun _ _ => rfl)

theorem updEq (d : Dev) (h : Nat) (cq : Bool) {g : EQ → EQ} (hg : ∀ e, (g e).kept = e.kept) : d.Sees (d.updCore h (fun k => k.updEq cq g)) :=
  updCore d h (fun _ => by cases cq <;> rfl) (fun _ _ => Core.slot_updEq _ _ _ _) (fun k j => by
    by_cases hj : j = cq
    · rw [hj, Core.eq_updEq, hg]
    · rw [Core.eq_updEq_ne k hj])

theorem dropSealed (d : Dev) (h : Nat) (o : Obj) : d.Sees (d.dropSealed h o) := by
  have hcore : ∀ k, (d.dropSealed h o).core k = (d.core k).dropRange (windowOf h o.base) o.bytes := by
    intro k
    unfold Dev.dropSealed Dev.core
    exact AMap.get_map_snd Core.init d.cores (fun c => c.dropRange (windowOf h o.base) o.bytes) k rfl
  refine ⟨fun t => ?_, rfl, fun _ x => x.congr rfl rfl rfl, .dropSealed d h o, fun t cq => ?_⟩ <;> rw [hcore] <;> rfl

theorem foldl {α : Type} {g : Dev → α → Dev} (hg : ∀ (e : Dev) x, e.Sees (g e x)) (xs : List α) (d : Dev) : d.Sees (xs.foldl g d) :=
  List.foldlRecOn (motive := fun e => d.Sees e) _ _ (refl d) (fun e he x _ => he.trans (hg e x))

theorem objUnref (d : Dev) (h o : Nat) : d.Sees (d.objUnref h o) := by
  unfold Dev.objUnref
  extract_lets x x' d1 d2
  have h1 : d.Sees d1 := setObj d h o x'
  have h2 : d.Sees d2 := h1.trans (wake d1 h _)
  clear_value d1 d2
  split
  · exact h1
  · split
    · exact h2
    · exact (h2.trans (dropSealed d2 h x)).trans (setObj _ _ _ _)

theorem completed (d : Dev) (h : Nat) (c : Cmd) : d.Sees (d.completed h c) := by
  have hstep : ∀ (e : Dev) (o : Nat × Nat), e.Sees (e.objUnref o.1 o.2) := fun e o => objUnref e o.1 o.2
  unfold Dev.completed
  generalize Dev.objUnref = g at hstep
  extract_lets d1
  have h1 : d.Sees d1 := by
    unfold d1
    split
    · exact hstep d (h, _)
    · exact refl d
  exact h1.trans (foldl hstep _ _)

theorem barStep (d : Dev) (h b : Nat) (f : Bar → Bar) (drain : Bool) : d.Sees (d.barStep h b f drain) := by
  unfold Dev.barStep
  dsimp only
  split
  · exact (setBar d h b _).trans (wake _ _ _)
  · exact setBar d h b _

theorem barReport (d : Dev) (h b n : Nat) : d.Sees (d.barReport h b n) := by
  have hwake : d.Sees (d.wake h (fun _ _ w => w == .pend b)) := wake d h _
  unfold Dev.barReport
  dsimp only
  split
  · exact refl d
  · split
    · exact hwake.trans (setBar _ _ _ _)
    · have hstep := hwake.trans (barStep _ h b (fun x => { x with pend := 0 }) true)
      split
      · split
        · exact hstep
        · exact hstep.trans (setBar _ _ _ _)
      · exact hstep

end Dev.Sees

/-- The command without what a step changes of it. -/
def Cmd.fixed (c : Cmd) : Cmd := { c with left := 0, total := 0 }

theorem Dev.eq_of_updEq (d : Dev) (h : Nat) (cq : Bool) (g : EQ → EQ) : ((d.updCore h (fun k => k.updEq cq g)).core h).eq cq = g ((d.core h).eq cq) := by
  rw [Dev.core_updCore_self, Core.eq_updEq]

/-- Bytes of a command counted as reported leave the commands of its queue in place. -/
theorem Dev.cmdReport_sees (d : Dev) (h : Nat) (cq : Bool) (seq bytes : Nat) : d.Sees (d.cmdReport h cq seq bytes) ∧
    (((d.cmdReport h cq seq bytes).core h).eq cq).q.map Cmd.fixed = ((d.core h).eq cq).q.map Cmd.fixed := by
  unfold Dev.cmdReport
  split
  · exact ⟨.refl d, rfl⟩
  · next c hc =>
    extract_lets take d1 d2 e
    have h1 : d.Sees d1 := .updEq d h cq (fun _ => rfl)
    have hq1 : ((d1.core h).eq cq).q.map Cmd.fixed = ((d.core h).eq cq).q.map Cmd.fixed := by
      have heq : (d1.core h).eq cq = ((d.core h).eq cq).updCmd seq (fun c => { c with left := c.left - take, total := c.total - 1 }) := d.eq_of_updEq h cq _
      rw [heq]
      unfold EQ.updCmd
      dsimp only
      rw [List.map_map]
      refine List.map_congr_left fun x _ => ?_
      rw [Function.comp]
      split <;> rfl
    clear_value d1
    have h2 : d1.Sees d2 := .barReport d1 h c.bar take
    have hq2 : (d2.core h).eq cq = (d1.core h).eq cq :=
      (Dev.Tallies.barReport (P := fun _ _ => True) (Q := nobody) d1 trivial take).queues h cq (fun x => x)
    clear_value d2
    have hsees := h1.trans h2
    have hqs : ((d2.core h).eq cq).q.map Cmd.fixed = ((d.core h).eq cq).q.map Cmd.fixed := by rw [hq2, hq1]
    split
    · obtain ⟨d3, hd3⟩ : ∃ d3, d3 = d2.updCore h (fun k => k.updEq cq (fun e => e.completed seq)) := ⟨_, rfl⟩
      have h3 : d2.Sees d3 := hd3 ▸ .updEq d2 h cq (fun _ => rfl)
      have hq3 : ((d3.core h).eq cq).q = ((d2.core h).eq cq).q := by
        rw [hd3, Dev.eq_of_updEq]
        rfl
      have hend : d3.Tallies nobody nobody ((d3.completed h c).wake h (fun _ _ w => w == .queue cq)) :=
        (Dev.Tallies.completed d3 h c).trans (Dev.Tallies.wake _ _ _)
      have hgoal : d.Sees ((d3.completed h c).wake h (fun _ _ w => w == .queue cq)) ∧
          ((((d3.completed h c).wake h (fun _ _ w => w == .queue cq)).core h).eq cq).q.map Cmd.fixed = ((d.core h).eq cq).q.map Cmd.fixed :=
        ⟨((hsees.trans h3).trans (.completed d3 h c)).trans (.wake _ _ _), by rw [hend.queues h cq (fun x => x), hq3, hqs]⟩
      rw [hd3] at hgoal
      exact hgoal
    · exact ⟨hsees, hqs⟩

/-! ### What a step sees, it sees again -/

/-- A translation found is found again where its leaf, rights and tables are as they were. -/
theorem Dev.translate_ok_of {d e : Dev} (hxl : e.xl = d.xl) (hplb : ∀ t, (e.core t).plb = (d.core t).plb) (hterr : ∀ t, e.terrace t = d.terrace t)
    (hpend : ∀ pa, e.pending pa = d.pending pa) (hgroup : ∀ t, (e.court t).group = (d.court t).group) {m : Memory} {who : Who} {need : List Right} {va : W64} {pa : Nat} {lf : Leaf}
    (ht : d.translate m who need va = .ok pa lf) : e.translate m who need va = .ok pa lf := by
  have hfind : e.findLeaf (districtOf who.h) va.toNat = d.findLeaf (districtOf who.h) va.toNat := by
    unfold Dev.findLeaf
    rw [hxl]
  have hrights : ∀ dom, e.domRights m who dom = d.domRights m who dom := fun dom => by
    unfold Dev.domRights
    rw [hplb, hterr]
    simp only [hpend]
  have hprot : ∀ l, e.protect m who need l = d.protect m who need l := fun l => by
    unfold Dev.protect
    rw [hrights, hgroup]
  unfold Dev.translate at ht ⊢
  dsimp only at ht ⊢
  rw [hfind]
  split
  · next hlim => rw [if_pos hlim] at ht; exact nomatch ht
  · next hlim =>
    rw [if_neg hlim] at ht
    cases hl : d.findLeaf (districtOf who.h) va.toNat with
    | none =>
      rw [hl] at ht
      dsimp only at ht
      split at ht <;> exact nomatch ht
    | some l =>
      rw [hl] at ht
      dsimp only at ht ⊢
      rw [hprot]
      exact ht

namespace Dev.Sees
variable {d e : Dev}

theorem regionOf (h : d.Sees e) (t a : Nat) : (e.core t).regionOf a = (d.core t).regionOf a := (congrArg (fun k => Core.regionOf k a) (h.cores t) :)
theorem word (h : d.Sees e) (t a : Nat) : (e.core t).word a = (d.core t).word a := (congrArg (fun k => Core.word k a) (h.cores t) :)
theorem unrestored (h : d.Sees e) (t a : Nat) : (e.core t).unrestored a = (d.core t).unrestored a := (congrArg (fun k => Core.unrestored k a) (h.cores t) :)
theorem lsPoison (h : d.Sees e) (t : Nat) : (e.core t).lsPoison = (d.core t).lsPoison := (congrArg Core.lsPoison (h.cores t) :)
theorem parked (h : d.Sees e) (t : Nat) : (e.core t).parked = (d.core t).parked := (congrArg Core.parked (h.cores t) :)
theorem heldEng (h : d.Sees e) (t : Nat) : (e.core t).heldEng = (d.core t).heldEng := (congrArg Core.heldEng (h.cores t) :)
theorem plb (h : d.Sees e) (t : Nat) : (e.core t).plb = (d.core t).plb := (congrArg Core.plb (h.cores t) :)
theorem terrace (h : d.Sees e) (t : Nat) : e.terrace t = d.terrace t := (congrArg (fun x => Dev.terrace x t) h.rest :)
theorem awayOn (h : d.Sees e) (t k : Nat) : e.awayOn t k = d.awayOn t k := (congrArg (fun x => Dev.awayOn x t k) h.rest :)
theorem pending (h : d.Sees e) (pa : Nat) : e.pending pa = d.pending pa := (congrArg (fun x => Dev.pending x pa) h.rest :)
theorem linePoison (h : d.Sees e) : e.linePoison = d.linePoison := (congrArg Dev.linePoison h.rest :)
theorem clock (h : d.Sees e) : e.clock = d.clock := (congrArg Dev.clock h.rest :)
theorem net (h : d.Sees e) : e.net = d.net := (congrArg Dev.net h.rest :)
theorem agenda (h : d.Sees e) : e.agenda = d.agenda := (congrArg Dev.agenda h.rest :)
theorem groups (h : d.Sees e) : e.groups = d.groups := (congrArg Dev.groups h.rest :)
theorem xl (h : d.Sees e) : e.xl = d.xl := (congrArg Dev.xl h.rest :)
theorem courts (h : d.Sees e) : e.courts = d.courts := (congrArg Dev.courts h.rest :)
theorem tile (h : d.Sees e) (k t : Nat) : e.tile k t = d.tile k t := (congrArg (fun x => Dev.tile x k t) h.rest :)

theorem queueBusy (h : d.Sees e) (k : Nat) (cq : Bool) (t : Nat) : e.queueBusy k cq t = d.queueBusy k cq t := by
  unfold Dev.queueBusy
  rw [h.parked, h.heldEng, h.net, h.agenda]

theorem windowFault (h : d.Sees e) (t : Nat) (va : W64) : e.windowFault t va = d.windowFault t va := by
  unfold Dev.windowFault
  rw [h.terrace]

theorem translate_ok (h : d.Sees e) {m : Memory} {who : Who} {need : List Right} {va : W64} {pa : Nat} {lf : Leaf} (ht : d.translate m who need va = .ok pa lf) :
    e.translate m who need va = .ok pa lf :=
  Dev.translate_ok_of h.xl h.plb h.terrace h.pending (fun t => by rw [Dev.court, h.courts, ← Dev.court]) ht

end Dev.Sees

/-- p works on the command that q works on, and sees what q sees. -/
structure QCtx.Sees (q p : QCtx) : Prop where
  m : p.m = q.m
  h : p.h = q.h
  cq : p.cq = q.cq
  seq : p.c.seq = q.c.seq
  lk : p.c.lk = q.c.lk
  who : p.who = q.who
  dev : q.d.Sees p.d

namespace QCtx.Sees
variable {q p : QCtx}

theorem refl (q : QCtx) : q.Sees q := ⟨rfl, rfl, rfl, rfl, rfl, rfl, .refl _⟩

theorem loc (s : q.Sees p) (own : Bool) (va : W64) : p.loc own va = q.loc own va := by
  unfold QCtx.loc
  rw [s.h, s.lk, s.dev.windowFault]
  simp only [s.dev.regionOf]

theorem rd (s : q.Sees p) (ix op : Nat) (own : Bool) (va : W64) : p.rd ix op own va = q.rd ix op own va := by
  unfold QCtx.rd
  rw [s.loc, s.h]

theorem wr (s : q.Sees p) (own : Bool) (va : W64) (v : W32) : p.wr own va v = q.wr own va v := by
  unfold QCtx.wr
  rw [s.loc, s.h]

theorem reaches (s : q.Sees p) {need : List Right} {va pa : Nat} (h : q.reaches need va pa) : p.reaches need va pa := by
  obtain ⟨lf, ht, hp⟩ := h
  refine ⟨lf, ?_, ?_⟩
  · rw [s.who, s.m]
    exact s.dev.translate_ok ht
  · rw [s.who, s.h, s.dev.plb]
    exact hp

theorem writable (s : q.Sees p) {w : Wr} (h : q.writable w) : p.writable w := by
  unfold QCtx.writable at h ⊢
  split at h
  · exact trivial
  · obtain ⟨hal, pa, hpa⟩ := h
    exact ⟨hal, pa, s.reaches hpa⟩
  · exact h.elim

/-- A readable word is read as it was. -/
theorem value (s : q.Sees p) {x : Rd} (h : q.readable x) : p.value x = q.value x := by
  unfold QCtx.readable at h
  unfold QCtx.value
  split
  · exact s.dev.word _ _
  · next va hva =>
    rw [hva] at h
    obtain ⟨pa, ⟨lf, ht, -⟩, -⟩ := h
    rw [ht, s.who, s.m, s.dev.translate_ok ht]
  · rfl

theorem memory (s : q.Sees p) {own : Bool} {va : W64} {va' : Nat} (h : q.loc own va = .mem va') : p.loc own va = .mem va' := (s.loc own va).trans h

end QCtx.Sees

/-! ### Words that can be read at once (R126, R173) -/

/-- A word of a local store that a step reads at once. -/
structure QCtx.BankRead (q : QCtx) (t a : Nat) : Prop where
  table : (q.d.core t).Bare0 a
  sound : (q.d.core t).lsPoison.contains (a / 4) = false
  free : q.d.queueBusy q.h q.cq t = false
  restored : (q.d.core t).unrestored a = false
  here : q.d.awayOn (terrOf q.c.lk) t = false

/-- A word of global memory that a step reads at once. -/
structure QCtx.LineRead (q : QCtx) (va pa : Nat) : Prop where
  reaches : q.reaches [.r] va pa
  pend : q.d.pending pa = false
  sound : q.d.linePoison.contains pa = false
  hand : q.d.AtHand pa

/-- A word that a step reads at once. -/
def QCtx.Readable (q : QCtx) (x : Rd) : Prop := (∃ t a, x.loc = .bank t a ∧ q.BankRead t a) ∨ ∃ va pa, x.loc = .mem va ∧ q.LineRead va pa

/-- A line seen in its quay and not to be trimmed stands in it. -/
theorem Dev.inQuay_of_seen {d : Dev} {pa : Nat} (hin : (d.quayLines (quayKey (lineOf pa))).any (fun y => y.pa == lineOf pa) = true)
    (hkept : (d.quayLines (quayKey (lineOf pa))).any (fun y => y.pa == lineOf pa && y.trim) = false) : d.InQuay pa := by
  have hk : ∀ y, y ∈ d.quayLines (quayKey (lineOf pa)) → y.pa = lineOf pa → y.trim = false := fun y hy hpa => by
    have := List.any_eq_false.mp hkept y hy
    simpa [hpa] using this
  obtain ⟨y, hy, hpa⟩ := List.any_eq_true.mp hin
  have hpa' : y.pa = lineOf pa := by simpa using hpa
  exact ⟨⟨y, (List.mem_filter.mp hy).1, hpa', hk y hy hpa'⟩, hk⟩

theorem QCtx.Readable.of {q : QCtx} {x : Rd} (h : q.readable x) : q.Readable x := by
  unfold QCtx.readable at h
  split at h
  · next t a hl =>
    obtain ⟨ht, hs, hf, hr, hh⟩ := h
    exact Or.inl ⟨t, a, hl, ht, hs, hf, hr, hh⟩
  · next va hl =>
    obtain ⟨pa, hr, hp, hs, hh⟩ := h
    exact Or.inr ⟨va, pa, hl, hr, hp, hs, hh.imp_right fun h => Or.inr (Dev.inQuay_of_seen h.1 h.2)⟩
  · exact h.elim

theorem QCtx.Sees.readable {q p : QCtx} (s : q.Sees p) {x : Rd} (h : q.Readable x) : p.Readable x := by
  rcases h with ⟨t, a, hl, ⟨key, g, hreg, htbl⟩, hs, hf, hr, hh⟩ | ⟨va, pa, hl, hr, hp, hs, hh⟩
  · refine Or.inl ⟨t, a, hl, ⟨key, g, ?_, htbl⟩, ?_, ?_, ?_, ?_⟩
    · rw [s.dev.regionOf, hreg]
    · rw [s.dev.lsPoison, hs]
    · rw [s.h, s.cq, s.dev.queueBusy, hf]
    · rw [s.dev.unrestored, hr]
    · rw [s.lk, s.dev.awayOn, hh]
  · exact Or.inr ⟨va, pa, hl, s.reaches hr, by rw [s.dev.pending, hp], by rw [s.dev.linePoison, hs], s.dev.quays pa hh⟩

/-! ### Bank words read in order -/

/-- The command stands at the head of its queue, the commands r behind it. -/
def QCtx.Stands (q : QCtx) (r : List Cmd) : Prop := ((q.d.core q.h).eq q.cq).q = q.c :: r

/-- Nothing of the command's step is on its way. -/
structure QCtx.Fresh (q : QCtx) : Prop where
  trapped : q.c.trapped = []
  parked : q.c.parked = []
  now : q.c.retryAt ≤ q.d.clock

/-- The same command, with other words read, in another device. -/
def QCtx.took (q : QCtx) (m : AMap W32) (e : Dev) : QCtx := { q with c := { q.c with rd := m }, d := e }

theorem QCtx.sees_took {q : QCtx} {e : Dev} (h : q.d.Sees e) (m : AMap W32) : q.Sees (q.took m e) := ⟨rfl, rfl, rfl, rfl, rfl, rfl, h⟩

theorem QCtx.Fresh.took {q : QCtx} (h : q.Fresh) {e : Dev} (hs : q.d.Sees e) (m : AMap W32) : (q.took m e).Fresh :=
  ⟨h.trapped, h.parked, hs.clock ▸ h.now⟩

/-- The head's command takes another form. -/
theorem Dev.keepHead_spec {d : Dev} {h : Nat} {cq : Bool} {c : Cmd} {r : List Cmd} (hq : ((d.core h).eq cq).q = c :: r) (f : Cmd → Cmd) :
    d.Sees (d.keepHead h cq f) ∧ (((d.keepHead h cq f).core h).eq cq).q = f c :: r := by
  refine ⟨.updEq d h cq (fun e => ?_), ?_⟩
  · split <;> rfl
  · rw [Dev.keepHead, Dev.eq_of_updEq]
    split
    · next c' r' hq' =>
      obtain ⟨rfl, rfl⟩ := List.cons.inj (hq.symm.trans hq')
      rfl
    · next hq' => rw [hq] at hq'; exact nomatch hq'

theorem Core.bankStep_erd {c : Core} {a : Nat} (h : c.Bare0 a) (hgood : c.lsPoison.contains (a / 4) = false) (v : W32) :
    c.bankStep a .erd v = (.out (c.word a), c, false) := by
  obtain ⟨key, g, hreg, htbl⟩ := h
  simp [Core.bankStep, hreg, BankKind.load, hgood, htbl, Core.entry, actOf, setTagOf, Core.target, -List.contains_eq_mem]

theorem Dev.sees_setCore (d : Dev) (t : Nat) : d.Sees (d.updCore t (fun _ => d.core t)) := by
  have hcore : ∀ k, (d.updCore t (fun _ => d.core t)).core k = d.core k := fun k => by
    by_cases hk : k = t
    · rw [hk, Dev.core_updCore_self]
    · rw [Dev.core_updCore_ne _ _ _ _ hk]
  exact ⟨fun k => by rw [hcore], rfl, fun _ x => x.congr rfl rfl rfl, .of_slots fun j n => by rw [Dev.slot, hcore, ← Dev.slot], fun k cq => by rw [hcore]⟩

theorem QCtx.readBank_on {q : QCtx} {r : List Cmd} (hq : q.Stands r) (hf : q.Fresh) {t a ix : Nat} (hb : q.BankRead t a)
    (hix : q.c.rd.find? ix = none) (tol : Bool) : ∃ e, q.d.readBank q.h q.cq tol ix t a = .on e ∧ q.d.Sees e ∧
      (q.took (q.c.rd.put ix ((q.d.core t).word a)) e).Stands r := by
  obtain ⟨d1, hd1⟩ : ∃ d1, d1 = q.d.updCore t (fun _ => q.d.core t) := ⟨_, rfl⟩
  have h1 : q.d.Sees d1 := hd1 ▸ q.d.sees_setCore t
  have hq1 : ((d1.core q.h).eq q.cq).q = q.c :: r := by
    have hcore : d1.core q.h = q.d.core q.h := by
      rw [hd1]
      by_cases hk : q.h = t
      · rw [hk, Dev.core_updCore_self]
      · rw [Dev.core_updCore_ne _ _ _ _ hk]
    rw [hcore]
    exact hq
  obtain ⟨hsees, hhead⟩ := Dev.keepHead_spec hq1 (fun c => { c with rd := c.rd.put ix ((q.d.core t).word a) })
  have hop : q.d.bankOp t a .erd 0#32 (.engine q.h q.cq ix) = (.out ((q.d.core t).word a), d1) :=
    hd1 ▸ Dev.bankOp_of (Core.bankStep_erd hb.table hb.sound 0#32) (fun _ h => nomatch h)
  refine ⟨_, ?_, h1.trans hsees, hhead⟩
  unfold Dev.readBank
  rw [show ((q.d.core q.h).eq q.cq).q = q.c :: r from hq]
  dsimp only
  rw [hf.trapped, hix, hf.parked, decide_eq_false (Nat.not_lt.mpr hf.now), hb.free, hb.here, hb.restored, hop]
  rfl

/-- The words of a step that lie in local stores are all read, in order. -/
theorem QCtx.readBanks_on {rs : List Rd} (tol : Bool) : ∀ {q : QCtx} {r : List Cmd}, q.Stands r → q.Fresh → (∀ x, x ∈ rs → q.Readable x) →
    (∀ x, x ∈ rs → q.c.rd.find? x.ix = none) → (rs.map (·.ix)).Nodup →
    ∃ e m, Dev.readBanks q.h q.cq tol rs [] q.d = (e, [], none) ∧ q.d.Sees e ∧ (q.took m e).Stands r ∧
      (∀ x t a, x ∈ rs → x.loc = .bank t a → m.find? x.ix = some ((q.d.core t).word a)) ∧
      ∀ i, i ∉ rs.map (·.ix) → m.find? i = q.c.rd.find? i := by
  induction rs with
  | nil => exact fun hq _ _ _ _ => ⟨_, _, rfl, .refl _, hq, nofun, fun _ _ => rfl⟩
  | cons x rs ih =>
    intro q r hq hf hall hun hnd
    rw [List.map_cons, List.nodup_cons] at hnd
    rcases hall x List.mem_cons_self with ⟨t, a, hl, hb⟩ | ⟨va, pa, hl, -⟩
    · obtain ⟨e, he, hs, hq'⟩ := QCtx.readBank_on hq hf hb (hun x List.mem_cons_self) tol
      obtain ⟨e', m, hrest, hs', hq'', hvals, hothers⟩ := ih hq' (hf.took hs _) (fun y hy => (QCtx.sees_took hs _).readable (hall y (List.mem_cons_of_mem _ hy)))
        (fun y hy => (AMap.find_put_ne _ _ _ _ (fun heq : y.ix = x.ix => hnd.1 (heq ▸ List.mem_map_of_mem (f := (·.ix)) hy))).trans (hun y (List.mem_cons_of_mem _ hy))) hnd.2
      refine ⟨e', m, ?_, hs.trans hs', hq'', fun y u b hy hyl => ?_, fun i hi => ?_⟩
      · rw [Dev.readBanks, hl]
        dsimp only
        rw [if_neg (by simp), he]
        exact hrest
      · rcases List.mem_cons.mp hy with rfl | hy
        · obtain ⟨rfl, rfl⟩ : u = t ∧ b = a := by simpa [hl] using hyl.symm
          rw [hothers _ hnd.1]
          exact AMap.find_put_self _ _ _
        · rw [hvals y u b hy hyl]
          exact congrArg some (hs.word u b)
      · rw [List.map_cons, List.mem_cons, not_or] at hi
        rw [hothers i hi.2]
        exact AMap.find_put_ne _ _ _ _ hi.1
    · obtain ⟨e', m, hrest, hs', hq'', hvals, hothers⟩ := ih hq hf (fun y hy => hall y (List.mem_cons_of_mem _ hy)) (fun y hy => hun y (List.mem_cons_of_mem _ hy)) hnd.2
      refine ⟨e', m, ?_, hs', hq'', fun y u b hy hyl => ?_, fun i hi => ?_⟩
      · rw [Dev.readBanks, hl]
        exact hrest
      · rcases List.mem_cons.mp hy with rfl | hy
        · rw [hl] at hyl
          exact nomatch hyl
        · exact hvals y u b hy hyl
      · rw [List.map_cons, List.mem_cons, not_or] at hi
        exact hothers i hi.2

/-! ### Lines of a step (R173) -/

theorem mem_runLines {acc xs : List (Nat × W64)} {l : Nat × W64} (h : l ∈ runLines acc xs) : l ∈ acc ∨ ∃ x, x ∈ xs ∧ l.1 = lineOf x.1 := by
  induction xs generalizing acc with
  | nil =>
    rw [runLines] at h
    exact Or.inl (List.mem_reverse.mp h)
  | cons x xs ih =>
    have hnext : ∀ {acc'}, l ∈ runLines acc' xs → (l ∈ acc' → l ∈ acc ∨ l.1 = lineOf x.1) → l ∈ acc ∨ ∃ y, y ∈ x :: xs ∧ l.1 = lineOf y.1 := fun h' hacc => by
      rcases ih h' with hl | ⟨y, hy, hyl⟩
      · exact (hacc hl).imp_right fun hx => ⟨x, List.mem_cons_self, hx⟩
      · exact Or.inr ⟨y, List.mem_cons_of_mem _ hy, hyl⟩
    have hnew : ∀ {acc' : List (Nat × W64)}, l ∈ (lineOf x.1, x.2) :: acc' → l ∈ acc' ∨ l.1 = lineOf x.1 := fun hm => by
      rcases List.mem_cons.mp hm with rfl | hm
      · exact Or.inr rfl
      · exact Or.inl hm
    cases acc with
    | nil => exact hnext h hnew
    | cons a acc =>
      rw [runLines] at h
      split at h
      · exact hnext h Or.inl
      · exact hnext h hnew

theorem runLines_keeps {acc xs : List (Nat × W64)} {l : Nat × W64} (h : l ∈ acc) : l ∈ runLines acc xs := by
  induction xs generalizing acc with
  | nil => exact List.mem_reverse.mpr h
  | cons x xs ih =>
    cases acc with
    | nil => exact nomatch h
    | cons a acc =>
      rw [runLines]
      split
      · exact ih h
      · exact ih (List.mem_cons_of_mem _ h)

theorem runLines_covers {acc xs : List (Nat × W64)} {x : Nat × W64} (h : x ∈ xs) : ∃ l, l ∈ runLines acc xs ∧ l.1 = lineOf x.1 := by
  induction xs generalizing acc with
  | nil => exact nomatch h
  | cons y xs ih =>
    rcases List.mem_cons.mp h with rfl | h
    · cases acc with
      | nil => exact ⟨(lineOf x.1, x.2), runLines_keeps (acc := [(lineOf x.1, x.2)]) List.mem_cons_self, rfl⟩
      | cons a acc =>
        rw [runLines]
        split
        · next ha => exact ⟨a, runLines_keeps List.mem_cons_self, ha⟩
        · exact ⟨(lineOf x.1, x.2), runLines_keeps List.mem_cons_self, rfl⟩
    · cases acc with
      | nil => exact ih h
      | cons a acc =>
        rw [runLines]
        split <;> exact ih h

/-- Lines with their physical addresses, each as the queue's rights reach it. -/
structure QCtx.Placed (q : QCtx) (need : List Right) (ls : List (Nat × W64)) (ps : List (Nat × Nat)) : Prop where
  sound : ∀ p, p ∈ ps → ∃ l, l ∈ ls ∧ l.1 = p.1 ∧ ∃ lf, q.d.translate q.m q.who need (BitVec.ofNat 64 p.1) = .ok p.2 lf
  covers : ∀ l, l ∈ ls → ∃ p, p ∈ ps ∧ p.1 = l.1

/-- Lines that the queue reaches are all there at once, and nothing changes. -/
theorem QCtx.lines_reached {q : QCtx} {need : List Right} {ls : List (Nat × W64)}
    (h : ∀ l, l ∈ ls → ∃ pa lf, q.d.translate q.m q.who need (BitVec.ofNat 64 l.1) = .ok pa lf ∧
      (q.who.recov = true ∨ (q.d.core q.h).plb.any (fun e => e.terr == q.who.terr && e.dom == lf.dom) = true)) :
    ∃ ps, q.lines q.d need ls = .ok ps q.d ∧ q.Placed need ls ps := by
  obtain ⟨rs, hrs⟩ : ∃ rs, rs = ls.map (fun l => (l, q.d.translate q.m q.who need (BitVec.ofNat 64 l.1))) := ⟨_, rfl⟩
  have hok : ∀ x, x ∈ rs → x.1 ∈ ls ∧ x.2 = q.d.translate q.m q.who need (BitVec.ofNat 64 x.1.1) ∧ ∃ pa lf, x.2 = .ok pa lf ∧
      (q.who.recov = true ∨ (q.d.core q.h).plb.any (fun e => e.terr == q.who.terr && e.dom == lf.dom) = true) := fun x hx => by
    rw [hrs] at hx
    obtain ⟨l, hl, rfl⟩ := List.mem_map.mp hx
    exact ⟨hl, rfl, h l hl⟩
  have hmiss : rs.filter (fun r => r.2 == .miss) = [] := List.filter_eq_nil_iff.mpr fun x hx => by
    obtain ⟨-, -, pa, lf, hx2, -⟩ := hok x hx
    rw [hx2]
    exact Bool.false_ne_true
  have hfind : ∀ {β : Type} (f : (Nat × W64) × Tr → Option β), (∀ l pa lf, f (l, .ok pa lf) = none) → rs.findSome? f = none :=
    fun f hf => List.findSome?_eq_none_iff.mpr fun x hx => by
      obtain ⟨-, -, pa, lf, hx2, -⟩ := hok x hx
      rw [← Prod.eta x, hx2, hf]
  have hfill : ∀ g : Dev → (Nat × W64) × Tr → Dev, (∀ d l pa lf, g d (l, .ok pa lf) = d.fillPlb q.m q.who lf.dom) → rs.foldl g q.d = q.d :=
    fun g hg => List.foldlRecOn (motive := fun d => d = q.d) _ _ rfl fun d hd x hx => by
      obtain ⟨-, -, pa, lf, hx2, hp⟩ := hok x hx
      rw [hd, ← Prod.eta x, hx2, hg]
      exact if_pos (Bool.or_eq_true_iff.mpr hp)
  have hplaced : ∀ f : (Nat × W64) × Tr → Option (Nat × Nat), (∀ l pa lf, f (l, .ok pa lf) = some (l.1, pa)) → q.Placed need ls (rs.filterMap f) :=
    fun f hf => by
      refine ⟨fun p hp => ?_, fun l hl => ?_⟩
      · obtain ⟨x, hx, hxp⟩ := List.mem_filterMap.mp hp
        obtain ⟨hxl, htr, pa, lf, hx2, -⟩ := hok x hx
        rw [← Prod.eta x, hx2, hf] at hxp
        obtain rfl : (x.1.1, pa) = p := Option.some.inj hxp
        exact ⟨x.1, hxl, rfl, lf, by rw [← hx2, htr]⟩
      · obtain ⟨pa, lf, ht, -⟩ := h l hl
        refine ⟨(l.1, pa), List.mem_filterMap.mpr ⟨(l, .ok pa lf), ?_, hf _ _ _⟩, rfl⟩
        rw [hrs]
        exact List.mem_map.mpr ⟨l, hl, by rw [ht]⟩
  unfold QCtx.lines
  dsimp only
  rw [← hrs, hmiss, hfind _ (fun _ _ _ => rfl), hfill _ (fun _ _ _ _ => rfl)]
  exact ⟨_, rfl, hplaced _ (fun _ _ _ => rfl)⟩

/-! ### Lines at hand are visited (R329, R331, R233) -/

/-- The device with another list of pinned lines. -/
def Dev.pinning (d : Dev) (ps : List Nat) : Dev := { d with pins := ps }

theorem Dev.seen_of_quays {d e : Dev} (h : d.QuaysOnly e) : e.seen = d.seen := by
  rw [h]
  rfl

theorem Dev.Sees.of_quays {d e : Dev} (h : d.QuaysOnly e) (hq : ∀ pa, d.AtHand pa → e.AtHand pa) : d.Sees e :=
  ⟨fun t => by rw [h.core], Dev.seen_of_quays h, hq, .of_slots h.slot, fun t cq => by rw [h.core]⟩

/-- Fewer pinned lines leave at hand what was. -/
theorem Dev.AtHand.unpin {d : Dev} {pa : Nat} (h : d.AtHand pa) : (d.pinning []).AtHand pa := by
  refine h.imp_right (Or.imp_right fun ⟨hf, hk⟩ => ⟨hf, fun y hy => hk y ?_⟩)
  obtain ⟨hmem, hvis⟩ := List.mem_filter.mp hy
  refine List.mem_filter.mpr ⟨hmem, ?_⟩
  rcases Bool.or_eq_true_iff.mp hvis with ht | hp
  · rw [ht, Bool.true_or]
  · unfold Dev.pinned at hp ⊢
    have hp' : (y.mews || d.heldLine y.pa || d.pending y.pa) = true := (Bool.or_eq_true_iff.mp hp).resolve_right (fun h => nomatch h)
    rw [hp', Bool.true_or, Bool.or_true]

/-- A line that is pinned leaves at hand the other lines, and itself where no line of its place awaits a trim. -/
theorem Dev.AtHand.pin {d : Dev} {pa l : Nat} (h : d.AtHand pa) (hl : lineOf pa = lineOf l → ∀ y, y ∈ d.qsets.get [] (quayKey (lineOf pa)) → y.pa = lineOf pa → y.trim = false) :
    (d.pinning (lineOf l :: d.pins)).AtHand pa := by
  refine h.imp_right (Or.imp_right fun ⟨hf, hk⟩ => ⟨hf, fun y hy hpa => ?_⟩)
  obtain ⟨hmem, hvis⟩ := List.mem_filter.mp hy
  by_cases heq : lineOf pa = lineOf l
  · exact hl heq y hmem hpa
  · refine hk y (List.mem_filter.mpr ⟨hmem, ?_⟩) hpa
    have hpin : (d.pinning (lineOf l :: d.pins)).pinned y = d.pinned y := by
      unfold Dev.pinned
      rw [show (d.pinning (lineOf l :: d.pins)).pins.contains y.pa = d.pins.contains y.pa by
        rw [Dev.pinning, List.contains_cons, hpa, beq_false_of_ne heq, Bool.false_or]]
      rfl
    rw [← hpin]
    exact hvis

/-- An access finds a line in its quay. -/
theorem Dev.quay_inQuay {d : Dev} {f l : Nat} (hl : d.InQuay l) (hh : homeOf (lineOf l) ≠ 512) (hb : isDoorbell (lineOf l) = false) :
    ∃ (e : Dev) (g : QLine → QLine), d.quay f l false = some e ∧ e.pins = d.pins ∧ e.homes = d.homes ∧ (∀ y, (g y).pa = y.pa ∧ (g y).trim = y.trim) ∧
      e.qsets = d.qsets.put (quayKey (lineOf l)) ((d.quayLines (quayKey (lineOf l))).map g) := by
  obtain ⟨⟨y, hy, hpa, htrim⟩, hk⟩ := hl
  have hvis : y ∈ d.quayLines (quayKey (lineOf l)) := List.mem_filter.mpr ⟨hy, by rw [htrim]; rfl⟩
  have h1 : (d.quayLines (quayKey (lineOf l))).any (fun q => q.pa == lineOf l && q.trim) = false := List.any_eq_false.mpr fun z hz => by
    by_cases hz' : z.pa = lineOf l
    · simp [hz', hk z hz hz']
    · simp [hz']
  have h2 : (d.quayLines (quayKey (lineOf l))).any (fun q => q.pa == lineOf l) = true := List.any_eq_true.mpr ⟨y, hvis, by simp [hpa]⟩
  obtain ⟨d1, hd1⟩ : ∃ d1, d1 = ({ d with stalled := d.stalled.filter (· != (f, lineOf l)), count := d.count + 1 } : Dev).bumpShared (homeOf (lineOf l) / 8) := ⟨_, rfl⟩
  have hon : Dev.QuaysOnly ({ d with stalled := d.stalled.filter (· != (f, lineOf l)), count := d.count + 1 } : Dev) d1 := hd1 ▸ Dev.bumpShared_quaysOnly _ _
  have hpins : d1.pins = d.pins := by
    rw [hd1, Dev.bumpShared, Dev.addShared]
    split
    · split <;> rfl
    · rfl
  refine ⟨{ d1 with qsets := d.qsets.put (quayKey (lineOf l)) ((d.quayLines (quayKey (lineOf l))).map (fun q =>
    if q.pa == lineOf l then { q with age := d.count, dirty := q.dirty || false } else q)) }, _, ?_, hpins, ?_, fun q => ?_, rfl⟩
  · unfold Dev.quay
    dsimp only
    rw [if_neg (by simp [hh, hb]), h1, if_neg (by decide), h2, if_pos rfl, ← hd1]
  · rw [hon]
  · split <;> exact ⟨rfl, rfl⟩

/-- A line at hand is accessed and pinned, and what was at hand still is. -/
theorem Dev.quay_pins {d : Dev} {l : Nat} (hl : d.AtHand l) (f : Nat) : ∃ e, d.quay f l false = some e ∧ d.QuaysOnly (e.pinning (lineOf l :: e.pins)) ∧
    ∀ pa, d.AtHand pa → (e.pinning (lineOf l :: e.pins)).AtHand pa := by
  by_cases hfar : homeOf (lineOf l) = 512 ∨ isDoorbell (lineOf l) = true
  · refine ⟨d, if_pos (by simpa using hfar), rfl, fun pa h => ?_⟩
    by_cases heq : lineOf pa = lineOf l
    · rcases hfar with hf | hf
      · exact Or.inl (heq ▸ hf)
      · exact Or.inr (Or.inl (heq ▸ hf))
    · exact h.pin (fun h' => absurd h' heq)
  · obtain ⟨hh, hb⟩ := not_or.mp hfar
    obtain ⟨e, g, he, hpins, hhomes, hg, hsets⟩ := Dev.quay_inQuay (f := f) ((hl.resolve_left hh).resolve_left hb) hh (Bool.eq_false_iff.mpr hb)
    have hon := Dev.quay_quaysOnly he
    refine ⟨e, he, by rw [Dev.pinning, hon]; rfl, fun pa h => ?_⟩
    have hkey : quayKey (lineOf pa) = quayKey (lineOf l) → ∀ z, z ∈ e.qsets.get [] (quayKey (lineOf pa)) →
        ∃ y, y ∈ d.quayLines (quayKey (lineOf pa)) ∧ g y = z := fun hk z hz => by
      rw [hk, hsets, AMap.get_put_self] at hz
      rw [hk]
      exact List.mem_map.mp hz
    have hat : e.AtHand pa := by
      refine h.imp_right (Or.imp_right fun ⟨hf, hk⟩ => ?_)
      by_cases hk' : quayKey (lineOf pa) = quayKey (lineOf l)
      · refine ⟨?_, fun z hz hpa => ?_⟩
        · obtain ⟨y, hy, hpa, htrim⟩ := hf
          refine ⟨g y, ?_, (hg y).1.trans hpa, (hg y).2.trans htrim⟩
          rw [hk', hsets, AMap.get_put_self, ← hk']
          exact List.mem_map_of_mem (List.mem_filter.mpr ⟨hy, by rw [htrim]; rfl⟩)
        · obtain ⟨y, hy, rfl⟩ := hkey hk' z (List.mem_filter.mp hz).1
          exact (hg y).2.trans (hk y hy ((hg y).1.symm.trans hpa))
      · have hraw : e.qsets.get [] (quayKey (lineOf pa)) = d.qsets.get [] (quayKey (lineOf pa)) := by
          rw [hsets]
          exact AMap.get_put_ne _ _ _ _ _ hk'
        refine ⟨by rw [hraw]; exact hf, fun z hz hpa => hk z ?_ hpa⟩
        unfold Dev.quayLines Dev.pinned Dev.heldLine Dev.pending Dev.home at hz ⊢
        rw [hraw, hpins, hhomes] at hz
        exact hz
    refine hat.pin (fun heq z hz hpa => ?_)
    rcases hl with hl | hl | hl
    · exact absurd hl hh
    · exact absurd hl hb
    · obtain ⟨y, hy, rfl⟩ := hkey (congrArg quayKey heq) z hz
      exact (hg y).2.trans (hl.kept y (heq ▸ hy) ((hg y).1.symm.trans (hpa.trans heq)))

/-- Lines at hand are all accessed at once. -/
theorem Dev.visit_atHand {ls : List Nat} {d : Dev} (h : ∀ l, l ∈ ls → d.AtHand l) (f : Nat) : ∃ e, d.visit f false ls true = (e, true) ∧ d.Sees e := by
  have hfold : ∀ (step : Option Dev × Nat → Nat → Option Dev × Nat),
      (∀ d k l, step (some d, k) l = ((d.quay f l false).map (fun d => d.pinning (lineOf l :: d.pins)), l)) → ∀ (ls : List Nat) (d : Dev) (k : Nat),
      (∀ l, l ∈ ls → d.AtHand l) → ∃ e k', ls.foldl step (some d, k) = (some e, k') ∧ d.Sees e := by
    intro step hstep ls
    induction ls with
    | nil => exact fun d k _ => ⟨d, k, rfl, .refl d⟩
    | cons l ls ih =>
      intro d k hall
      obtain ⟨e, he, hon, hat⟩ := Dev.quay_pins (hall l List.mem_cons_self) f
      obtain ⟨e', k', he', hs⟩ := ih _ l (fun x hx => hat x (hall x (List.mem_cons_of_mem _ hx)))
      refine ⟨e', k', ?_, (Dev.Sees.of_quays hon hat).trans hs⟩
      rw [List.foldl_cons, hstep, he]
      exact he'
  unfold Dev.visit
  obtain ⟨e, k', he, hs⟩ := hfold (fun a l => match a.1 with
      | some d => ((d.quay f l false).map (fun d => { d with pins := if true then lineOf l :: d.pins else d.pins }), l)
      | none => a) (fun _ _ _ => rfl) ls d 0 h
  refine ⟨e.pinning [], ?_, hs.trans (.of_quays rfl (fun pa => Dev.AtHand.unpin))⟩
  split
  · next e' l' he' =>
    obtain ⟨rfl, -⟩ : e = e' ∧ k' = l' := by simpa using he.symm.trans he'
    rfl
  · next l' he' => exact nomatch (congrArg Prod.fst (he.symm.trans he') :)

/-! ### A step's reads (R173, R226, R233) -/

section
variable {q : QCtx} {r : List Cmd} {rs : List Rd}

theorem QCtx.Readable.located {x : Rd} (h : q.Readable x) : ∀ reason, x.loc ≠ .bad reason := by
  rcases h with ⟨t, a, hl, -⟩ | ⟨va, pa, hl, -⟩ <;> exact fun _ h' => nomatch hl.symm.trans h'

/-- The words of a step that lie in global memory, with their addresses. -/
def Rd.glob (x : Rd) : Option (Nat × Rd) :=
  match x.loc with
  | .mem va => some (va, x)
  | _ => none

theorem Rd.glob_eq_some {x : Rd} {g : Nat × Rd} : x.glob = some g ↔ x.loc = .mem g.1 ∧ g.2 = x := by
  unfold Rd.glob
  split
  · next va h => rw [h, Option.some.injEq, Loc.mem.injEq, Prod.ext_iff]; exact and_congr_right fun _ => eq_comm
  · next h => exact iff_of_false (fun h' => nomatch h') (fun h' => h g.1 h'.1)

/-- What a step's lines are, and where. -/
structure QCtx.LinesRead (q : QCtx) (rs : List Rd) (ps : List (Nat × Nat)) : Prop where
  sound : ∀ p, p ∈ ps → q.d.pending p.2 = false ∧ q.d.linePoison.contains p.2 = false ∧ q.d.AtHand p.2
  found : ∀ x va, x ∈ rs → x.loc = .mem va → ∃ p, ps.find? (fun p => p.1 == lineOf va) = some p ∧ q.value x = q.m.w32 (p.2 + va % 128)

theorem QCtx.lines_read (hall : ∀ x, x ∈ rs → q.Readable x) : ∃ ps, q.lines q.d [.r] (runLines [] ((rs.filterMap Rd.glob).map (fun g => (g.1, g.2.va)))) = .ok ps q.d ∧
    q.LinesRead rs ps := by
  have hline : ∀ l, l ∈ runLines [] ((rs.filterMap Rd.glob).map (fun g => (g.1, g.2.va))) → ∃ va pa, l.1 = lineOf va ∧ q.LineRead va pa := fun l hl => by
    rcases mem_runLines hl with hl | ⟨x, hx, hxl⟩
    · exact nomatch hl
    · obtain ⟨g, hg, rfl⟩ := List.mem_map.mp hx
      obtain ⟨y, hy, hyg⟩ := List.mem_filterMap.mp hg
      obtain ⟨hloc, -⟩ := Rd.glob_eq_some.mp hyg
      rcases hall y hy with ⟨t, a, hl', -⟩ | ⟨va, pa, hl', hr⟩
      · exact nomatch hl'.symm.trans hloc
      · obtain rfl : va = g.1 := Loc.mem.inj (hl'.symm.trans hloc)
        exact ⟨_, pa, hxl, hr⟩
  obtain ⟨ps, hps, hplaced⟩ := QCtx.lines_reached (q := q) (need := [.r]) (fun l hl => by
    obtain ⟨va, pa, hl', hr⟩ := hline l hl
    obtain ⟨lf, ht, hp⟩ := hr.reaches
    exact ⟨pa, lf, hl' ▸ ht, hp⟩)
  refine ⟨ps, hps, fun p hp => ?_, fun x va hx hl => ?_⟩
  · obtain ⟨l, hl, hlp, lf, ht⟩ := hplaced.sound p hp
    obtain ⟨va, pa, hl', hr⟩ := hline l hl
    obtain ⟨lf', ht', -⟩ := hr.reaches
    rw [← hlp, hl', ht'] at ht
    obtain ⟨rfl, -⟩ := Tr.ok.inj ht
    exact ⟨hr.pend, hr.sound, hr.hand⟩
  · obtain ⟨l, hl', hlva⟩ := runLines_covers (acc := []) (xs := (rs.filterMap Rd.glob).map (fun g => (g.1, g.2.va))) (x := (va, x.va))
      (List.mem_map.mpr ⟨(va, x), List.mem_filterMap.mpr ⟨x, hx, Rd.glob_eq_some.mpr ⟨hl, rfl⟩⟩, rfl⟩)
    obtain ⟨p, hp, hpl⟩ := hplaced.covers l hl'
    obtain ⟨p', hp'⟩ := Option.isSome_iff_exists.mp (List.find?_isSome.mpr ⟨p, hp, by simp [hpl, hlva]⟩ : (ps.find? (fun p => p.1 == lineOf va)).isSome)
    refine ⟨p', hp', ?_⟩
    have hkey : p'.1 = lineOf va := by simpa using List.find?_some hp'
    obtain ⟨-, -, -, lf, ht⟩ := hplaced.sound p' (List.mem_of_find?_eq_some hp')
    unfold QCtx.value
    rw [hl]
    dsimp only
    rw [← hkey, ht]

/-- The words of a step, all at once: each has its value where it lies. -/
theorem QCtx.readAll_read {e : Dev} {m : AMap W32} {ps : List (Nat × Nat)} {globs : List (Nat × Rd)} (hs : q.d.Sees e) (hq : (q.took m e).Stands r) (hf : q.Fresh)
    (hps : q.LinesRead rs ps) (hbank : ∀ x t a, x ∈ rs → x.loc = .bank t a → m.find? x.ix = some ((q.d.core t).word a)) (hall : ∀ x, x ∈ rs → q.Readable x) :
    ∃ e', q.readAll e rs globs ps = .ok (rs.map (fun x => some (q.value x))) e' ∧ q.d.Sees e' ∧ (q.took m e').Stands r := by
  obtain ⟨e', he', hs'⟩ := Dev.visit_atHand (d := e) (ls := ps.map (·.2)) (fun l hl => by
    obtain ⟨p, hp, rfl⟩ := List.mem_map.mp hl
    exact hs.quays _ (hps.sound p hp).2.2) (e.fnOf q.c.lk)
  have hon : e.QuaysOnly e' := by
    have := e.visit_quaysOnly (e.fnOf q.c.lk) false (ps.map (·.2)) true
    rwa [he'] at this
  have hq' : ((e'.core q.h).eq q.cq).q = { q.c with rd := m } :: r := by
    rw [hon.core]
    exact hq
  refine ⟨e', ?_, hs.trans hs', hq'⟩
  have hpend : ps.any (fun p => e.pending p.2) = false := List.any_eq_false.mpr fun p hp => by
    rw [hs.pending, (hps.sound p hp).1]
    exact Bool.false_ne_true
  have hpoison : ps.find? (fun p => e.linePoison.contains p.2) = none := List.find?_eq_none.mpr fun p hp => by
    rw [hs.linePoison, (hps.sound p hp).2.1]
    exact Bool.false_ne_true
  unfold QCtx.readAll
  rw [hpend, if_neg Bool.false_ne_true, hpoison]
  dsimp only
  rw [he']
  dsimp only
  rw [hq']
  refine congrArg (Fetch.ok · e') (List.map_congr_left fun x hx => ?_)
  rcases hall x hx with ⟨t, a, hl, -⟩ | ⟨va, pa, hl, -⟩
  · rw [hl]
    dsimp only
    rw [List.head?_cons, Option.getD_some, if_neg (by rw [hf.trapped]; exact Bool.false_ne_true), hbank x t a hx hl]
    unfold QCtx.value
    rw [hl]
  · obtain ⟨p, hp, hv⟩ := hps.found x va hx hl
    rw [hl]
    dsimp only
    rw [hp, hv]
    rfl

theorem takeWhile_all {α : Type} {p : α → Bool} {l : List α} (h : ∀ x, x ∈ l → p x = true) : l.takeWhile p = l :=
  List.takeWhile_eq_self_iff.mpr h

/-- A step that has its words of banks has all its words, where all can be read at once. -/
theorem QCtx.fetch_of_banks {e1 : Dev} {m : AMap W32} {tol : Bool} (hf : q.Fresh) (hall : ∀ x, x ∈ rs → q.Readable x)
    (hbanks : Dev.readBanks q.h q.cq tol rs [] q.d = (e1, [], none)) (hs1 : q.d.Sees e1) (hq1 : (q.took m e1).Stands r)
    (hvals : ∀ x t a, x ∈ rs → x.loc = .bank t a → m.find? x.ix = some ((q.d.core t).word a)) :
    ∃ e, q.fetch tol rs = .ok (rs.map (fun x => some (q.value x))) e ∧ q.d.Sees e ∧ (q.took m e).Stands r := by
  obtain ⟨ps, hps, hread⟩ := QCtx.lines_read hall
  obtain ⟨e, he, hs, hqe⟩ := QCtx.readAll_read (globs := rs.filterMap Rd.glob) hs1 hq1 hf hread hvals hall
  refine ⟨e, ?_, hs, hqe⟩
  unfold QCtx.fetch
  dsimp only
  rw [takeWhile_all]
  · split
    · next d h => exact nomatch hps.symm.trans h
    · next reason va h => exact nomatch hps.symm.trans h
    · next ps' d h =>
      obtain ⟨rfl, rfl⟩ := Lines.ok.inj (hps.symm.trans h)
      rw [hbanks]
      dsimp only
      rw [List.drop_length, List.findSome?_nil]
      exact he
  · intro x hx
    split
    · next reason h => exact absurd h ((hall x hx).located reason)
    · rfl

/-- A step whose words can all be read at once has them, and nothing that a step sees has changed. -/
theorem QCtx.fetch_reads (hq : q.Stands r) (hf : q.Fresh) (hall : ∀ x, x ∈ rs → q.Readable x) (hun : ∀ x, x ∈ rs → q.c.rd.find? x.ix = none)
    (hnd : (rs.map (·.ix)).Nodup) (tol : Bool) : ∃ e m, q.fetch tol rs = .ok (rs.map (fun x => some (q.value x))) e ∧ q.d.Sees e ∧ (q.took m e).Stands r ∧
      ∀ i, i ∉ rs.map (·.ix) → m.find? i = q.c.rd.find? i := by
  obtain ⟨e1, m, hbanks, hs1, hq1, hvals, hothers⟩ := QCtx.readBanks_on tol hq hf hall hun hnd
  obtain ⟨e, he, hs, hqe⟩ := QCtx.fetch_of_banks hf hall hbanks hs1 hq1 hvals
  exact ⟨e, m, he, hs, hqe, hothers⟩

theorem Dev.readBanks_mem (h : Nat) (cq tol : Bool) {rs : List Rd} (hmem : ∀ x, x ∈ rs → ∃ va, x.loc = .mem va) (d : Dev) :
    Dev.readBanks h cq tol rs [] d = (d, [], none) := by
  induction rs with
  | nil => rfl
  | cons x rs ih =>
    obtain ⟨va, hva⟩ := hmem x List.mem_cons_self
    rw [Dev.readBanks, hva]
    exact ih fun y hy => hmem y (List.mem_cons_of_mem _ hy)

/-- A step whose words all lie in global memory has them, and no word of its own is noted. -/
theorem QCtx.fetch_mem (hq : q.Stands r) (hf : q.Fresh) (hall : ∀ x, x ∈ rs → q.Readable x) (hmem : ∀ x, x ∈ rs → ∃ va, x.loc = .mem va) (tol : Bool) :
    ∃ e, q.fetch tol rs = .ok (rs.map (fun x => some (q.value x))) e ∧ q.d.Sees e ∧ ({ q with d := e } : QCtx).Stands r := by
  refine QCtx.fetch_of_banks (m := q.c.rd) hf hall (Dev.readBanks_mem _ _ _ hmem _) (.refl _) hq (fun x t a hx hl => ?_)
  obtain ⟨va, hva⟩ := hmem x hx
  exact nomatch hl.symm.trans hva

end

end Sys2Proof.Machine
end

section
/-! PROOFS. A command begins, writes and goes on (R173, R217, R226, R237). -/

namespace Sys2Proof.Machine

/-! ### A command begins (R217, R226) -/

section
variable {q : QCtx} {r : List Cmd}

/-- The command at step s. -/
def Cmd.atStep (c : Cmd) (s : Nat) : Cmd := { c with begun := true, step := s }

theorem map_seq_of_fixed {r r' : List Cmd} (h : r'.map Cmd.fixed = r.map Cmd.fixed) : r'.map (·.seq) = r.map (·.seq) := by
  have := congrArg (List.map (fun c : Cmd => c.seq)) h
  rwa [List.map_map, List.map_map] at this

/-- p works on the command of q at its step s; the commands r' stand behind it. -/
structure QCtx.OnStep (q p : QCtx) (s : Nat) (r r' : List Cmd) : Prop where
  sees : q.Sees p
  stands : p.Stands r'
  step : p.c.step = s
  rest : r'.map (·.seq) = r.map (·.seq)

theorem QCtx.Sees.took {p : QCtx} {e : Dev} (s : q.Sees p) (h : p.d.Sees e) (m : AMap W32) : q.Sees (p.took m e) :=
  ⟨s.m, s.h, s.cq, s.seq, s.lk, s.who, s.dev.trans h⟩

theorem QCtx.OnStep.took {p : QCtx} {s : Nat} {r' : List Cmd} (b : q.OnStep p s r r') {e : Dev} {m : AMap W32} (hs : p.d.Sees e)
    (hq : (p.took m e).Stands r') : q.OnStep (p.took m e) s r r' := ⟨b.sees.took hs m, hq, b.step, b.rest⟩

/-- p works on the command of q, which has begun with step s. -/
structure QCtx.Begun (q p : QCtx) (s : Nat) (r r' : List Cmd) : Prop extends QCtx.OnStep q p s r r' where
  cmd : p.c.fixed = (q.c.atStep s).fixed

theorem QCtx.begins (hq : q.Stands r) {hd : TileHdr} {s : Nat} (hs : q.atStep hd s) (skipped : Nat) : ∃ r', q.Begun (q.begin_ hd skipped) s r r' := by
  unfold QCtx.atStep at hs
  unfold QCtx.begin_
  split
  · next hb =>
    rw [if_pos hb] at hs
    refine ⟨r, ⟨.refl q, hq, hs, rfl⟩, ?_⟩
    unfold Cmd.atStep
    rw [← hs, ← hb]
  · next hb =>
    rw [if_neg hb] at hs
    extract_lets src c d1 d2
    have hc : c = q.c.atStep s := by rw [← hs]; rfl
    have hq' : ((q.d.core q.h).eq q.cq).q = q.c :: r := hq
    have h1 : q.d.Sees d1 := .updEq q.d q.h q.cq (fun e => by split <;> rfl)
    have hq1 : ((d1.core q.h).eq q.cq).q = c :: r := by
      show (((q.d.updCore q.h _).core q.h).eq q.cq).q = _
      rw [Dev.eq_of_updEq]
      split
      · next c' r' he => rw [(List.cons.inj (hq'.symm.trans he)).2]
      · next he => rw [hq'] at he; exact nomatch he
    have h2 : d1.Sees d2 ∧ ((d2.core q.h).eq q.cq).q.map Cmd.fixed = ((d1.core q.h).eq q.cq).q.map Cmd.fixed := by
      unfold d2
      split
      · exact ⟨.refl _, rfl⟩
      · exact d1.cmdReport_sees q.h q.cq c.seq skipped
    clear_value d1 d2
    obtain ⟨c', r', hq2, hcf, hrf⟩ : ∃ c' r', ((d2.core q.h).eq q.cq).q = c' :: r' ∧ c'.fixed = c.fixed ∧ r'.map Cmd.fixed = r.map Cmd.fixed := by
      have := h2.2.trans (congrArg (List.map Cmd.fixed) hq1)
      exact List.map_eq_cons_iff.mp this
    have hhead : ((((d2.core q.h).eq q.cq).q).head?).getD c = c' := by rw [hq2]; rfl
    rw [hhead]
    have hcf' : c'.fixed = (q.c.atStep s).fixed := hcf.trans (congrArg Cmd.fixed hc)
    refine ⟨r', ⟨⟨rfl, rfl, rfl, (congrArg Cmd.seq hcf' :), (congrArg Cmd.lk hcf' :), ?_, h1.trans h2.1⟩, hq2, (congrArg Cmd.step hcf' :),
      map_seq_of_fixed hrf⟩, hcf'⟩
    exact (congrArg (fun c : Cmd => (⟨q.h, terrOf c.lk, c.priv, c.recov⟩ : Who)) hcf' :)

section
variable {p : QCtx} {s : Nat} {r' : List Cmd}

theorem QCtx.Begun.rd (b : q.Begun p s r r') : p.c.rd = q.c.rd := (congrArg Cmd.rd b.cmd :)

/-- What can be read before the command begins can be read once it has begun. -/
theorem QCtx.Begun.fresh (b : q.Begun p s r r') {rs : List Rd} (h : q.reads rs) : p.Fresh :=
  ⟨(congrArg Cmd.trapped b.cmd :).trans h.trapped, (congrArg Cmd.parked b.cmd :).trans h.parked,
    (congrArg Cmd.retryAt b.cmd :).le.trans (b.sees.dev.clock ▸ h.now)⟩

/-- The step's words are read at once, each with the value that it had before the command began. -/
theorem QCtx.Begun.fetch (b : q.Begun p s r r') {rs : List Rd} (h : q.reads rs) (hnd : (rs.map (·.ix)).Nodup) (tol : Bool) :
    ∃ e m, p.fetch tol rs = .ok (rs.map (fun x => some (q.value x))) e ∧ p.d.Sees e ∧ (p.took m e).Stands r' ∧
      ∀ i, i ∉ rs.map (·.ix) → m.find? i = q.c.rd.find? i := by
  obtain ⟨e, m, hf, hs, hq, ho⟩ := QCtx.fetch_reads b.stands (b.fresh h) (fun x hx => b.sees.readable (.of (h.all x hx)))
    (fun x hx => by rw [b.rd]; exact h.unread x hx) hnd tol
  refine ⟨e, m, ?_, hs, hq, fun i hi => by rw [ho i hi, b.rd]⟩
  rw [hf]
  exact congrArg (Fetch.ok · e) (List.map_congr_left fun x hx => congrArg some (b.sees.value (h.all x hx)))

end

end

/-! ### A step is over (R226) -/

/-- From d to e no engine queue changed, and no court. -/
structure Dev.KeepsEngines (d e : Dev) : Prop where
  queues : ∀ k cq, (e.core k).eq cq = (d.core k).eq cq
  courts : e.courts = d.courts

namespace Dev.KeepsEngines

theorem refl (d : Dev) : d.KeepsEngines d := ⟨fun _ _ => rfl, rfl⟩
theorem trans {d e f : Dev} (h : d.KeepsEngines e) (g : e.KeepsEngines f) : d.KeepsEngines f :=
  ⟨fun k cq => (g.queues k cq).trans (h.queues k cq), g.courts.trans h.courts⟩
theorem of_same {d e : Dev} (hc : e.cores = d.cores) (ht : e.courts = d.courts) : d.KeepsEngines e :=
  ⟨fun k cq => by rw [Dev.core, hc, ← Dev.core], ht⟩
theorem foldl {α : Type} {f : Dev → α → Dev} (hf : ∀ (e : Dev) (a : α), e.KeepsEngines (f e a)) (l : List α) (d : Dev) : d.KeepsEngines (l.foldl f d) :=
  List.foldlRecOn (motive := fun x : Dev => d.KeepsEngines x) l f (refl d) (fun _ hx a _ => hx.trans (hf _ a))
theorem quays {d e : Dev} (h : d.QuaysOnly e) : d.KeepsEngines e := of_same h.cores (by rw [h])

theorem updCore (d : Dev) (h : Nat) {f : Core → Core} (hf : ∀ c cq, (f c).eq cq = c.eq cq) : d.KeepsEngines (d.updCore h f) := by
  refine ⟨fun k cq => ?_, rfl⟩
  by_cases hk : k = h
  · rw [hk, Dev.core_updCore_self, hf]
  · rw [Dev.core_updCore_ne _ _ _ _ hk]

theorem updSlot (d : Dev) (h n : Nat) (f : Slot → Slot) : d.KeepsEngines (d.updSlot h n f) := updCore d h (fun c cq => Core.eq_of_bare (Core.bare_updSlot c n f) cq)
theorem wake (d : Dev) (h : Nat) (p : Nat → Slot → WaitFor → Bool) : d.KeepsEngines (d.wake h p) := ⟨fun k cq => Core.eq_of_bare (Dev.bare_core_wake d h p k) cq, rfl⟩
theorem send (d : Dev) (chan : Nat) (e : Ev) : d.KeepsEngines (d.send chan e) := of_same rfl rfl
theorem later (d : Dev) (cycles : Nat) (e : Ev) : d.KeepsEngines (d.later cycles e) := of_same rfl rfl
theorem updHome (d : Dev) (q : Nat) (f : Home → Home) : d.KeepsEngines (d.updHome q f) := of_same rfl rfl
theorem updGroup (d : Dev) (id : Nat) (f : Grp → Grp) : d.KeepsEngines (d.updGroup id f) := of_same rfl rfl
theorem dropTask (d : Dev) (lk : Nat) (id : W32) : d.KeepsEngines (d.dropTask lk id) := of_same rfl rfl

theorem updLaunch (d : Dev) (lk : Nat) (f : Launch → Launch) : d.KeepsEngines (d.updLaunch lk f) := by
  unfold Dev.updLaunch
  split <;> exact of_same rfl rfl

theorem wakeSlot (d : Dev) (h n : Nat) (p : WaitFor → Bool) : d.KeepsEngines (d.wakeSlot h n p) := by
  unfold Dev.wakeSlot
  split
  · split
    · exact updSlot _ _ _ _
    · exact refl _
  · exact refl _

theorem reply (d : Dev) (h n : Nat) (r : Reply) : d.KeepsEngines (d.reply h n r) := by
  unfold Dev.reply
  split
  · exact refl _
  · split
    · exact updSlot _ _ _ _
    · exact (updSlot _ _ _ _).trans (wakeSlot _ _ _ _)

theorem grantNext (d : Dev) (m : Memory) (pa : Nat) : d.KeepsEngines (d.grantNext m pa) := by
  unfold Dev.grantNext
  dsimp only
  split
  · exact refl _
  · split
    · exact refl _
    · split
      · split
        · exact quays (Dev.quayWaited_quaysOnly _ _ _)
        · exact (quays (Dev.quayWaited_quaysOnly _ _ _)).trans (later _ _ _)
      · next e he =>
        refine (quays (Dev.quay_quaysOnly he)).trans ?_
        split <;> exact of_same rfl rfl

theorem unpin (d : Dev) (pa : Nat) : d.KeepsEngines (d.unpin pa) := by
  unfold Dev.unpin
  dsimp only
  split <;> exact of_same rfl rfl

theorem unhold (d : Dev) (m : Memory) (pa h n : Nat) : d.KeepsEngines (d.unhold m pa h n) :=
  (updHome d _ _).trans ((unpin _ _).trans (grantNext _ m pa))

theorem finish (d : Dev) (m : Memory) (f : Fin) : d.KeepsEngines (d.finish m [] f) := by
  unfold Dev.finish
  split
  · unfold Dev.wakeVisible
    split <;> exact wakeSlot _ _ _ _
  · split
    · exact refl _
    · rw [Dev.broadcast_nil]
      refine trans ?_ (later _ _ _)
      split
      · exact (updLaunch d _ _).trans ((dropTask _ _ _).trans (wake _ _ _))
      · exact updLaunch d _ _
  · split
    · exact unhold _ _ _ _ _
    · exact refl _
  · exact (updSlot _ _ _ _).trans ((unhold _ _ _ _ _).trans (send _ _ _))
  · exact send _ _ _
  · exact reply _ _ _ _
  · exact send _ _ _
  · exact of_same rfl rfl
  all_goals exact refl _

theorem retire (d : Dev) (m : Memory) {g : Grp} (hg : g.lines = []) : d.KeepsEngines (d.retire m g) := by
  unfold Dev.retire
  rw [hg]
  refine trans ?_ (foldl (fun e f => finish e m f) _ _)
  refine trans (e := { d with groups := d.groups.filter (fun x => x.id != g.id) }) (of_same rfl rfl) (updCore _ _ (fun _ cq => by cases cq <;> rfl))

theorem advance (d : Dev) (m : Memory) (id : Nat) : d.KeepsEngines (d.advance m id) := by
  unfold Dev.advance
  split
  · exact refl _
  · split
    · exact (updGroup _ _ _).trans (send _ _ _)
    · dsimp only
      split
      · next hall => exact retire d m (homesOf_eq_nil hall)
      · exact (updGroup _ _ _).trans (foldl (fun e q => send e 0 (.groupRelease id q)) _ _)

theorem startGroups (m : Memory) (k : Nat) (d : Dev) : d.KeepsEngines (d.startGroups m k) := by
  induction k generalizing d with
  | zero => exact refl d
  | succ k ih =>
    unfold Dev.startGroups
    split
    · exact refl d
    · exact ((updGroup _ _ _).trans (advance _ m _)).trans (ih _)

theorem addGroup (d : Dev) (m : Memory) (lines : List GLine) (fn core : Nat) (after : Option Nat) (fin : List Fin) :
    d.KeepsEngines (d.addGroup m lines fn core after fin) := by
  unfold Dev.addGroup Dev.settle
  refine trans ?_ (startGroups _ _ _)
  exact of_same rfl rfl

end Dev.KeepsEngines

/-! ### Words laid into lines (R173) -/

/-- A line holds a word. -/
def GLine.Has (l : GLine) (va : Nat) (v : W32) : Prop := l.va = lineOf va ∧
  ∀ k, k < 4 → l.mask.getLsbD (va % 128 + k) = true ∧ Line.byte l.data (va % 128 + k) = v.extractLsb' (8 * k) 8

/-- A word laid over a line. -/
def GLine.over (l : GLine) (va : Nat) (v : W32) : GLine :=
  { l with data := Line.over l.data (lineBytes va v.toNat 4).1 (lineBytes va v.toNat 4).2, mask := l.mask ||| (lineBytes va v.toNat 4).2 }

theorem GLine.has_over {l : GLine} {va : Nat} {v : W32} (hl : l.va = lineOf va) (hal : va % 4 = 0) : (l.over va v).Has va v := by
  refine ⟨hl, fun k hk => ⟨?_, ?_⟩⟩
  · unfold GLine.over
    dsimp only
    rw [BitVec.getLsbD_or, getLsbD_lineBytes_mask _ _ _ (by omega)]
    simp [hk]
  · unfold GLine.over
    dsimp only
    rw [byte_over_self _ _ _ _ hk (by omega)]
    refine BitVec.eq_of_toNat_eq ?_
    rw [BitVec.toNat_ofNat, BitVec.extractLsb'_toNat, Nat.shiftRight_eq_div_pow]

/-- Two words of a line do not touch. -/
theorem GLine.Has.over {l : GLine} {va va' : Nat} {v v' : W32} (h : l.Has va v) (hne : va ≠ va') (hal : va % 4 = 0) (hal' : va' % 4 = 0)
    (hline : l.va = lineOf va') : (l.over va' v').Has va v := by
  obtain ⟨hl, hb⟩ := h
  have hoff : va % 128 ≠ va' % 128 := by
    have hsame : lineOf va = lineOf va' := hl.symm.trans hline
    unfold lineOf at hsame
    omega
  refine ⟨hl, fun k hk => ⟨?_, ?_⟩⟩
  · unfold GLine.over
    dsimp only
    rw [BitVec.getLsbD_or, (hb k hk).1, Bool.true_or]
  · unfold GLine.over
    dsimp only
    rw [byte_over_ne _ _ _ _ (by omega) (by omega)]
    exact (hb k hk).2

/-- One word laid into the line that stands for it, or into a new one. -/
def putWord (pa : Nat → Nat) (va : Nat) (v : W32) (ls : List GLine) : List GLine :=
  match ls with
  | l :: rest =>
    if l.va = lineOf va then l.over va v :: rest
    else if rest.any (fun x => x.va == lineOf va) then l :: rest.map (fun x => if x.va == lineOf va then x.over va v else x)
    else ⟨lineOf va, pa (lineOf va), (lineBytes va v.toNat 4).1, (lineBytes va v.toNat 4).2, none⟩ :: l :: rest
  | [] => [⟨lineOf va, pa (lineOf va), (lineBytes va v.toNat 4).1, (lineBytes va v.toNat 4).2, none⟩]

theorem putLine_cons (pa : Nat → Nat) (va : Nat) (v : W32) (ws : List (Nat × W32)) (ls : List GLine) :
    putLine pa ((va, v) :: ws) ls = putLine pa ws (putWord pa va v ls) := by
  cases ls with
  | nil => rfl
  | cons l rest =>
    conv_lhs => unfold putLine
    unfold putWord
    dsimp only
    split
    · rfl
    · split <;> rfl

/-- The new line of a word. -/
def newLine (pa : Nat → Nat) (va : Nat) (v : W32) : GLine := ⟨lineOf va, pa (lineOf va), (lineBytes va v.toNat 4).1, (lineBytes va v.toNat 4).2, none⟩

theorem newLine_has (pa : Nat → Nat) {va : Nat} (v : W32) (hal : va % 4 = 0) : (newLine pa va v).Has va v := by
  refine ⟨rfl, fun k hk => ⟨?_, ?_⟩⟩
  · unfold newLine
    dsimp only
    rw [getLsbD_lineBytes_mask _ _ _ (by omega)]
    simp [hk]
  · unfold newLine
    refine BitVec.eq_of_getLsbD_eq (fun b hb => ?_)
    rw [Line.byte, BitVec.getLsbD_extractLsb', decide_eq_true hb, Bool.true_and, getLsbD_lineBytes_data _ _ _ (by omega), BitVec.getLsbD_extractLsb',
      decide_eq_true hb, Bool.true_and, decide_eq_true (by omega), Bool.true_and, BitVec.getLsbD, show 8 * (va % 128 + k) + b - 8 * (va % 128) = 8 * k + b by omega]

/-- Where a word is laid, it is held; every other word held before still is, and no line becomes a record's. -/
theorem putWord_spec (pa : Nat → Nat) {va : Nat} (v : W32) (hal : va % 4 = 0) (ls : List GLine) :
    (∃ l, l ∈ putWord pa va v ls ∧ l.Has va v) ∧
    (∀ va' v', va' % 4 = 0 → va' ≠ va → (∃ l, l ∈ ls ∧ l.Has va' v') → ∃ l, l ∈ putWord pa va v ls ∧ l.Has va' v') ∧
    ((∀ l, l ∈ ls → l.rec_ = none) → ∀ l, l ∈ putWord pa va v ls → l.rec_ = none) := by
  cases ls with
  | nil =>
    refine ⟨⟨newLine pa va v, List.mem_singleton_self _, newLine_has pa v hal⟩, fun _ _ _ _ h => ?_, fun _ l hl => ?_⟩
    · obtain ⟨l, hl, -⟩ := h
      exact nomatch hl
    · rw [List.mem_singleton.mp hl]
  | cons l rest =>
    unfold putWord
    dsimp only
    split
    · next hl =>
      refine ⟨⟨_, List.mem_cons_self, GLine.has_over hl hal⟩, fun va' v' hal' hne ⟨x, hx, hh⟩ => ?_, fun h x hx => ?_⟩
      · rcases List.mem_cons.mp hx with rfl | hx
        · exact ⟨_, List.mem_cons_self, hh.over hne hal' hal hl⟩
        · exact ⟨x, List.mem_cons_of_mem _ hx, hh⟩
      · rcases List.mem_cons.mp hx with rfl | hx
        · exact h l List.mem_cons_self
        · exact h x (List.mem_cons_of_mem _ hx)
    · split
      · next hany =>
        refine ⟨?_, fun va' v' hal' hne ⟨x, hx, hh⟩ => ?_, fun h x hx => ?_⟩
        · obtain ⟨x, hx, hxl⟩ := List.any_eq_true.mp hany
          exact ⟨_, List.mem_cons_of_mem _ (List.mem_map.mpr ⟨x, hx, if_pos hxl⟩), GLine.has_over (by simpa using hxl) hal⟩
        · rcases List.mem_cons.mp hx with rfl | hx
          · exact ⟨_, List.mem_cons_self, hh⟩
          · refine ⟨_, List.mem_cons_of_mem _ (List.mem_map_of_mem hx), ?_⟩
            split
            · next hxl => exact hh.over hne hal' hal (by simpa using hxl)
            · exact hh
        · rcases List.mem_cons.mp hx with rfl | hx
          · exact h x List.mem_cons_self
          · obtain ⟨y, hy, rfl⟩ := List.mem_map.mp hx
            split
            · exact h y (List.mem_cons_of_mem _ hy)
            · exact h y (List.mem_cons_of_mem _ hy)
      · refine ⟨⟨_, List.mem_cons_self, newLine_has pa v hal⟩, fun va' v' _ _ ⟨x, hx, hh⟩ => ⟨x, List.mem_cons_of_mem _ hx, hh⟩, fun h x hx => ?_⟩
        rcases List.mem_cons.mp hx with rfl | hx
        · rfl
        · exact h x hx

/-- Words at different addresses, laid into lines one after another, are all held. -/
theorem putLine_spec (pa : Nat → Nat) {ws : List (Nat × W32)} (hal : ∀ w, w ∈ ws → w.1 % 4 = 0) (hne : ws.Pairwise (fun x y => x.1 ≠ y.1)) (ls : List GLine) :
    (∀ w, w ∈ ws → ∃ l, l ∈ putLine pa ws ls ∧ l.Has w.1 w.2) ∧
    (∀ va v, va % 4 = 0 → (∀ w, w ∈ ws → va ≠ w.1) → (∃ l, l ∈ ls ∧ l.Has va v) → ∃ l, l ∈ putLine pa ws ls ∧ l.Has va v) ∧
    ((∀ l, l ∈ ls → l.rec_ = none) → ∀ l, l ∈ putLine pa ws ls → l.rec_ = none) := by
  induction ws generalizing ls with
  | nil =>
    have hnil : putLine pa [] ls = ls := by unfold putLine; rfl
    rw [hnil]
    exact ⟨nofun, fun _ _ _ _ h => h, fun h => h⟩
  | cons w ws ih =>
    obtain ⟨va, v⟩ := w
    obtain ⟨hfirst, hrest⟩ := List.pairwise_cons.mp hne
    have halw := hal _ List.mem_cons_self
    rw [putLine_cons]
    obtain ⟨hhere, hkept, hrec⟩ := putWord_spec pa v halw ls
    obtain ⟨hall, hothers, hrec'⟩ := ih (fun w hw => hal w (List.mem_cons_of_mem _ hw)) hrest (putWord pa va v ls)
    refine ⟨fun w hw => ?_, fun va' v' hal' hne' h => ?_, fun h => hrec' (hrec h)⟩
    · rcases List.mem_cons.mp hw with rfl | hw
      · exact hothers va v halw (fun x hx => hfirst x hx) hhere
      · exact hall w hw
    · exact hothers va' v' hal' (fun x hx => hne' x (List.mem_cons_of_mem _ hx)) (hkept va' v' hal' (hne' _ List.mem_cons_self) h)

/-! ### A step's writes (R173, R237) -/

section
variable {q p : QCtx} {d : Dev} {ws : List Wr}

/-- The words for banks leave, in order. -/
def QCtx.sendWords (q : QCtx) (ws : List Wr) (d : Dev) : Dev :=
  ws.foldl (fun d w => match w.loc with
    | .bank t a => d.send (chanOf 8 (2 * q.h + (if q.cq then 1 else 0)) t) (.engineWordLanding ⟨t, a, w.data, q.h, q.cq, q.c.seq, q.c.step⟩)
    | _ => d) d

theorem QCtx.sendWords_spec (q : QCtx) (ws : List Wr) (d : Dev) : (q.sendWords ws d).cores = d.cores ∧ (q.sendWords ws d).courts = d.courts ∧ d.Flows (q.sendWords ws d) ∧
    ∀ w t a, w ∈ ws → w.loc = .bank t a → (q.sendWords ws d).coming d.clock (.engineWordLanding ⟨t, a, w.data, q.h, q.cq, q.c.seq, q.c.step⟩) := by
  induction ws generalizing d with
  | nil => exact ⟨rfl, rfl, .refl d, nofun⟩
  | cons x ws ih =>
    unfold QCtx.sendWords
    rw [List.foldl_cons]
    rw [← QCtx.sendWords]
    cases hx : x.loc with
    | bank t a =>
      dsimp only
      obtain ⟨hc, ht, hf, hall⟩ := ih (d.send (chanOf 8 (2 * q.h + (if q.cq then 1 else 0)) t) (.engineWordLanding ⟨t, a, x.data, q.h, q.cq, q.c.seq, q.c.step⟩))
      refine ⟨hc, ht, (Dev.Flows.send _ _ _).trans hf, fun w u b hw hl => ?_⟩
      rcases List.mem_cons.mp hw with rfl | hw
      · obtain ⟨rfl, rfl⟩ := Loc.bank.inj (hx.symm.trans hl)
        exact hf.coming (Dev.coming_send _ _ _)
      · exact hall w u b hw hl
    | mem va =>
      obtain ⟨hc, ht, hf, hall⟩ := ih d
      refine ⟨hc, ht, hf, fun w u b hw hl => ?_⟩
      rcases List.mem_cons.mp hw with rfl | hw
      · exact nomatch hx.symm.trans hl
      · exact hall w u b hw hl
    | bad reason =>
      obtain ⟨hc, ht, hf, hall⟩ := ih d
      refine ⟨hc, ht, hf, fun w u b hw hl => ?_⟩
      rcases List.mem_cons.mp hw with rfl | hw
      · exact nomatch hx.symm.trans hl
      · exact hall w u b hw hl

/-- A word to be written that lies in global memory, with its address. -/
def Wr.glob (w : Wr) : Option (Nat × Wr) :=
  match w.loc with
  | .mem va => some (va, w)
  | _ => none

theorem Wr.glob_eq_some {w : Wr} {g : Nat × Wr} : w.glob = some g ↔ w.loc = .mem g.1 ∧ g.2 = w := by
  unfold Wr.glob
  split
  · next va h => rw [h, Option.some.injEq, Loc.mem.injEq, Prod.ext_iff]; exact and_congr_right fun _ => eq_comm
  · next h => exact iff_of_false (fun h' => nomatch h') (fun h' => h g.1 h'.1)

/-- Words to be written at addresses of their own. -/
def apart (ws : List Wr) : Prop := ws.Pairwise (fun x y => ∀ va, x.loc = .mem va → y.loc ≠ .mem va)

theorem Dev.Flows.addGroup (d : Dev) (m : Memory) (lines : List GLine) (fn core : Nat) (after : Option Nat) (fin : List Fin) :
    d.Flows (d.addGroup m lines fn core after fin) := by
  unfold Dev.addGroup
  refine trans ?_ (settle _ m)
  exact of_net rfl rfl

/-- The bytes of the command that words to be written in global memory carry, as a group of lines. -/
theorem globLines_spec (pa : Nat → Nat) (hw : ∀ w va, w ∈ ws → w.loc = .mem va → va % 4 = 0) (hne : apart ws) :
    (∀ w va, w ∈ ws → w.loc = .mem va → ∃ l, l ∈ putLine pa ((ws.filterMap Wr.glob).map (fun g => (g.1, g.2.data))) [] ∧ l.Has va w.data) ∧
    ∀ l, l ∈ putLine pa ((ws.filterMap Wr.glob).map (fun g => (g.1, g.2.data))) [] → l.rec_ = none := by
  obtain ⟨hall, -, hrec⟩ := putLine_spec pa (ws := (ws.filterMap Wr.glob).map (fun g => (g.1, g.2.data))) (fun x hx => by
      obtain ⟨g, hg, rfl⟩ := List.mem_map.mp hx
      obtain ⟨w, hw', hwg⟩ := List.mem_filterMap.mp hg
      exact hw w g.1 hw' (Wr.glob_eq_some.mp hwg).1) (by
    rw [List.pairwise_map, List.pairwise_filterMap]
    refine hne.imp fun {x y} hxy g hg g' hg' heq => ?_
    exact hxy g.1 (Wr.glob_eq_some.mp hg).1 (heq ▸ (Wr.glob_eq_some.mp hg').1)) []
  exact ⟨fun w va hw' hl => hall (va, w.data) (List.mem_map.mpr ⟨(va, w), List.mem_filterMap.mpr ⟨w, hw', Wr.glob_eq_some.mpr ⟨hl, rfl⟩⟩, rfl⟩),
    hrec (fun _ h => nomatch h)⟩

/-- The words of a step whose places can all be written are on their way. -/
theorem QCtx.writeAs_done (hs : p.d.Sees d) (hw : ∀ w, w ∈ ws → p.writable w) (hne : apart ws) (op bytes : Nat) :
    ∃ e, p.writeAs d op [.w] ws bytes = .ok e ∧ d.KeepsEngines e ∧ d.Aside e ∧ d.Flows e ∧ ∀ w, w ∈ ws → p.wrote e w := by
  obtain ⟨p', hp'⟩ : ∃ p' : QCtx, p' = { p with d := d } := ⟨_, rfl⟩
  have hsees : p.Sees p' := by
    rw [hp']
    exact ⟨rfl, rfl, rfl, rfl, rfl, rfl, hs⟩
  have hmem : ∀ w va, w ∈ ws → w.loc = .mem va → va % 4 = 0 ∧ ∃ pa, p'.reaches [.w] va pa := fun w va hw' hl => by
    have := hw w hw'
    unfold QCtx.writable at this
    rw [hl] at this
    exact ⟨this.1, this.2.imp fun pa h => hsees.reaches h⟩
  obtain ⟨ps, hps, -⟩ := QCtx.lines_reached (q := p') (need := [.w]) (ls := runLines [] ((ws.filterMap Wr.glob).map (fun g => (g.1, g.2.va)))) (fun l hl => by
    rcases mem_runLines hl with hl | ⟨x, hx, hxl⟩
    · exact nomatch hl
    · obtain ⟨g, hg, rfl⟩ := List.mem_map.mp hx
      obtain ⟨w, hw', hwg⟩ := List.mem_filterMap.mp hg
      obtain ⟨-, pa, lf, ht, hp⟩ := hmem w g.1 hw' (Wr.glob_eq_some.mp hwg).1
      exact ⟨pa, lf, hxl ▸ ht, hp⟩)
  have hps' : p.lines d [.w] (runLines [] ((ws.filterMap Wr.glob).map (fun g => (g.1, g.2.va)))) = .ok ps d := by
    rw [hp'] at hps
    exact hps
  obtain ⟨lines, hlines⟩ : ∃ lines, lines = putLine (fun v => ((ps.find? (fun p => p.1 == v)).map (·.2)).getD 0)
    ((ws.filterMap Wr.glob).map (fun g => (g.1, g.2.data))) [] := ⟨_, rfl⟩
  obtain ⟨hhas, hrec⟩ := globLines_spec (fun v => ((ps.find? (fun p => p.1 == v)).map (·.2)).getD 0) (fun w va hw' hl => (hmem w va hw' hl).1) hne
  rw [← hlines] at hhas hrec
  obtain ⟨hcores, hcourts, hflows, hbank⟩ := p.sendWords_spec ws d
  obtain ⟨d1, hd1⟩ : ∃ d1, d1 = p.sendWords ws d := ⟨_, rfl⟩
  rw [← hd1] at hcores hcourts hflows hbank
  have hbody : p.writeAs d op [.w] ws bytes = (if lines.isEmpty then .ok d1 else
      .ok (d1.addGroup p.m lines (d1.fnOf p.c.lk) p.h (d1.lastQueueGroup p.h p.cq) [.engine p.h p.cq p.c.seq bytes])) := by
    unfold QCtx.writeAs
    split
    · next e he =>
      obtain ⟨w, hw', hwe⟩ := List.exists_of_findSome?_eq_some he
      have hok := hw w hw'
      unfold QCtx.writable at hok
      split at hwe
      · next reason hl => rw [hl] at hok; exact hok.elim
      · exact nomatch hwe
    · dsimp only
      split
      · next x h => exact nomatch hps'.symm.trans h
      · next reason va h => exact nomatch hps'.symm.trans h
      · next ps' x h =>
        obtain ⟨rfl, rfl⟩ := Lines.ok.inj (hps'.symm.trans h)
        rw [hlines, hd1]
        rfl
  have hwrote : ∀ e : Dev, d1.Flows e → (lines ≠ [] → ∃ g, g ∈ e.groups ∧ g.fin = [.engine p.h p.cq p.c.seq bytes] ∧ g.lines = lines) → ∀ w, w ∈ ws → p.wrote e w := by
    intro e hf hg w hw'
    unfold QCtx.wrote
    split
    · next t a hl => exact ⟨p.c.step, hs.clock ▸ hf.coming (hbank w t a hw' hl)⟩
    · next va hl =>
      obtain ⟨l, hl', hva, hb⟩ := hhas w va hw' hl
      obtain ⟨g, hg', hfin, hgl⟩ := hg (List.ne_nil_of_mem hl')
      exact ⟨g, l, bytes, hg', hfin, hgl ▸ hl', hva, hb⟩
    · next reason hl =>
      have := hw w hw'
      unfold QCtx.writable at this
      rw [hl] at this
      exact this
  rw [hbody]
  split
  · next hempty =>
    exact ⟨d1, rfl, .of_same hcores hcourts, .of_cores hcores, hflows, hwrote d1 (.refl _) (fun h => absurd (List.isEmpty_iff.mp hempty) h)⟩
  · next hempty =>
    refine ⟨_, rfl, .trans (.of_same hcores hcourts) (.addGroup _ _ _ _ _ _ _), .trans (.of_cores hcores) (Dev.aside_addGroup _ _ _ _ _ _ _),
      hflows.trans (.addGroup _ _ _ _ _ _ _), hwrote _ (.addGroup _ _ _ _ _ _ _) (fun h => ?_)⟩
    obtain ⟨g, hg, hgl, hfin, -⟩ := (Dev.addGroup_inFlight h hrec d1 p.m (d1.fnOf p.c.lk) p.h (d1.lastQueueGroup p.h p.cq)
      [.engine p.h p.cq p.c.seq bytes]).mem
    exact ⟨g, hg, hfin, hgl⟩

end

/-! ### A step is over (R223, R226) -/

/-- From d to e no group or message changed, no tile or depot, and slots were at most woken. -/
structure Dev.Closes (d e : Dev) : Prop where
  depots : e.depots = d.depots
  groups : e.groups = d.groups
  flows : d.Flows e
  woken : d.AtMostWakes e
  tile : ∀ h t, e.tile h t = d.tile h t

theorem Dev.Closes.trans {d e f : Dev} (x : d.Closes e) (y : e.Closes f) : d.Closes f :=
  ⟨y.depots.trans x.depots, y.groups.trans x.groups, x.flows.trans y.flows, x.woken.trans y.woken, fun h t => (y.tile h t).trans (x.tile h t)⟩

theorem Dev.Sees.closes {d e : Dev} (h : d.Sees e) : d.Closes e := ⟨(congrArg Dev.depots h.rest :), h.groups, .of_net h.clock h.net, h.woken, h.tile⟩

theorem Dev.closes_unitRan (d : Dev) (h : Nat) (cq : Bool) : d.Closes (d.unitRan h cq) := by
  obtain ⟨hwoken, htile, -, -, -, -⟩ := Dev.Tallies.unitRan (P := nobody) (Q := nobody) d h cq
  refine ⟨?_, ?_, ?_, hwoken, htile⟩ <;> unfold Dev.unitRan <;> split
  · rfl
  · rfl
  · rfl
  · rfl
  · exact .refl d
  · exact .of_net rfl rfl

theorem Dev.cores_unitRan (d : Dev) (h : Nat) (cq : Bool) : (d.unitRan h cq).cores = d.cores := by
  unfold Dev.unitRan
  split <;> rfl

section
variable {d : Dev} {h : Nat} {cq : Bool} {c : Cmd} {r : List Cmd}

theorem Dev.eq_unitRan (d : Dev) (h k : Nat) (cq j : Bool) : ((d.unitRan h cq).core k).eq j = (d.core k).eq j := by
  rw [Dev.core, Dev.cores_unitRan, ← Dev.core]

/-- The head leaves its queue, to complete or completed. -/
theorem Dev.retireHead_spec (hq : ((d.core h).eq cq).q = c :: r) : d.Closes (d.retireHead h cq) ∧ (((d.retireHead h cq).core h).eq cq).q = r := by
  unfold Dev.retireHead
  rw [hq]
  dsimp only
  obtain ⟨d1, hd1⟩ : ∃ d1, d1 = (d.unitRan h cq).updCore h (fun k => k.updEq cq (fun e =>
    { e with q := r, live := if c.left = 0 then e.live else e.live ++ [c] })) := ⟨_, rfl⟩
  have h1 : d.Closes d1 := hd1 ▸ (d.closes_unitRan h cq).trans (Dev.Sees.updEq (d.unitRan h cq) h cq (g := fun e =>
    { e with q := r, live := if c.left = 0 then e.live else e.live ++ [c] }) (fun _ => rfl)).closes
  have hq1 : ((d1.core h).eq cq).q = r := by
    rw [hd1, Dev.eq_of_updEq]
  rw [← hd1]
  split
  · refine ⟨(h1.trans (Dev.Sees.completed d1 h c).closes).trans (Dev.Sees.wake _ _ _).closes, ?_⟩
    have hend : d1.Tallies nobody nobody ((d1.completed h c).wakeQueue h cq) := (Dev.Tallies.completed d1 h c).trans (Dev.Tallies.wake _ _ _)
    rw [hend.queues h cq (fun x => x), hq1]
  · exact ⟨h1, hq1⟩

end

/-- The command is at its next step. -/
def Cmd.next (c : Cmd) : Cmd := { c with step := c.step + 1, rd := .empty, trapped := [], parked := [] }

section
variable {q p : QCtx} {s : Nat} {r r' : List Cmd} {d : Dev} {c : Cmd}

/-- A step is over and another follows: the command stands at the head of its queue at its next step. -/
theorem QCtx.stepped_on (hq : ((d.core q.h).eq q.cq).q = c :: r) {last : Nat} (h : ¬ last ≤ q.c.step) :
    (((q.stepped d last).core q.h).eq q.cq).q = c.next :: r ∧ d.Closes (q.stepped d last) := by
  have hran : (((d.unitRan q.h q.cq).core q.h).eq q.cq).q = c :: r := by rw [Dev.eq_unitRan]; exact hq
  obtain ⟨hsees, hhead⟩ := Dev.keepHead_spec hran Cmd.next
  unfold QCtx.stepped
  rw [if_neg h]
  exact ⟨hhead, (d.closes_unitRan _ _).trans hsees.closes⟩

/-- A step of a command of q's queue is over: the command goes on, or has left its queue. -/
theorem QCtx.stepped_goes (hh : p.h = q.h) (hcq : p.cq = q.cq) (hps : p.c.step = s) (hr : r'.map (·.seq) = r.map (·.seq))
    (hq : ((d.core q.h).eq q.cq).q = c :: r') (hseq : c.seq = q.c.seq) (hstep : c.step = s) (last : Nat) :
    d.Closes (p.stepped d last) ∧ q.goesOn r (p.stepped d last) s last := by
  have hq' : ((d.core p.h).eq p.cq).q = c :: r' := by rw [hh, hcq]; exact hq
  unfold QCtx.goesOn
  by_cases hlast : last ≤ s
  · unfold QCtx.stepped
    rw [hps, ← hh, ← hcq, if_pos hlast, if_pos hlast]
    obtain ⟨hc, hr'⟩ := Dev.retireHead_spec hq'
    exact ⟨hc, by rw [hr', hr]⟩
  · obtain ⟨hhead, hc⟩ := QCtx.stepped_on hq' (last := last) (by rw [hps]; exact hlast)
    rw [if_neg hlast, ← hh, ← hcq]
    exact ⟨hc, c.next, r', hhead, hseq, congrArg (· + 1) hstep, hr⟩

theorem QCtx.OnStep.stepped (b : q.OnStep p s r r') (hq : ((d.core q.h).eq q.cq).q = c :: r') (hseq : c.seq = q.c.seq) (hstep : c.step = s) (last : Nat) :
    d.Closes (p.stepped d last) ∧ q.goesOn r (p.stepped d last) s last := QCtx.stepped_goes b.sees.h b.sees.cq b.step b.rest hq hseq hstep last

/-! ### Words on their way stay so -/

theorem QCtx.Sees.wrote {e : Dev} (s : q.Sees p) {w : Wr} (h : p.wrote e w) : q.wrote e w := by
  unfold QCtx.wrote at h ⊢
  rw [s.h, s.cq, s.seq, s.dev.clock] at h
  exact h

theorem QCtx.wrote.mono {d e : Dev} {w : Wr} (h : q.wrote d w) (hf : d.Flows e) (hg : e.groups = d.groups) : q.wrote e w := by
  unfold QCtx.wrote at h ⊢
  split
  · next t a hl =>
    rw [hl] at h
    obtain ⟨step, hs⟩ := h
    exact ⟨step, hf.coming hs⟩
  · next va hl =>
    rw [hl] at h
    rw [hg]
    exact h
  · next reason hl =>
    rw [hl] at h
    exact h

theorem QCtx.wrote.closes {d e : Dev} {w : Wr} (h : q.wrote d w) (hc : d.Closes e) : q.wrote e w := h.mono hc.flows hc.groups

/-- What every slot keeps over a command's step. -/
theorem Dev.sameUser_of {d e f : Dev} (hs : d.AtMostWakes e) (ha : e.Aside f) (j n : Nat) : (d.slot j n).SameUser (f.slot j n) :=
  (hs j n).sameUser.trans (ha j n).sameUser

/-- A step that writes the words it has: they are on their way, and the command goes on. -/
theorem QCtx.OnStep.move {α : Type} (b : q.OnStep p s r r') (hs : p.d.Sees d) (hq : ((d.core q.h).eq q.cq).q = c :: r') (hseq : c.seq = q.c.seq)
    (hstep : c.step = s) {os : List α} {f : α → W32} {g : α → W64} {dsp : Bool} (hw : ∀ o, o ∈ os → q.writable (q.wr dsp (g o) (f o)))
    (hne : apart (os.map (fun o => q.wr dsp (g o) (f o)))) (last : Nat) :
    ∃ e, p.move d last 0 dsp (os.map g) (os.map (fun o => some (f o))) = e ∧ (∀ j n, (q.d.slot j n).SameUser (e.slot j n)) ∧ q.goesOn r e s last ∧
      (∀ o, o ∈ os → q.wrote e (q.wr dsp (g o) (f o))) := by
  obtain ⟨ws, hws⟩ : ∃ ws, ws = os.map (fun o => q.wr dsp (g o) (f o)) := ⟨_, rfl⟩
  have hps : ((os.map (fun o => some (f o))).zip (os.map g)).filterMap (fun x => x.1.map (fun v => p.wr dsp x.2 v)) = ws := by
    rw [hws, List.zip_map', List.filterMap_map]
    rw [← List.filterMap_eq_map]
    refine List.filterMap_congr fun o _ => ?_
    rw [Function.comp, Function.comp, Option.map_some, b.sees.wr]
  have hlen : ((os.map (fun o => some (f o))).zip (os.map g)).length = ws.length := by
    rw [hws, List.zip_map', List.length_map, List.length_map]
  rw [← hws] at hne
  obtain ⟨e1, he1, hkeep, haside, hflows, hwrote⟩ := QCtx.writeAs_done (p := p) hs (ws := ws) (fun w hw' => by
    rw [hws] at hw'
    obtain ⟨o, ho, rfl⟩ := List.mem_map.mp hw'
    exact b.sees.writable (hw o ho)) hne 7 (4 * (ws.filter (fun w => match w.loc with | .mem _ => true | _ => false)).length)
  have hq1 : ((e1.core q.h).eq q.cq).q = c :: r' := by rw [hkeep.queues, hq]
  obtain ⟨hcl, hgoes⟩ := b.stepped hq1 hseq hstep last
  refine ⟨p.stepped e1 last, ?_, fun j n => ?_, hgoes, fun o ho => ?_⟩
  · unfold QCtx.move
    dsimp only
    rw [hps, hlen, Nat.sub_self]
    unfold QCtx.write
    split
    · next x hx => exact nomatch he1.symm.trans hx
    · next x op reason va hx => exact nomatch he1.symm.trans hx
    · next x hx =>
      obtain rfl : e1 = x := Store.ok.inj (he1.symm.trans hx)
      rfl
  · exact (Dev.sameUser_of (b.sees.dev.woken.trans hs.woken) haside j n).trans (hcl.woken j n).sameUser
  · exact (b.sees.wrote (hwrote _ (hws ▸ List.mem_map_of_mem ho))).closes hcl

end

end Sys2Proof.Machine
end

section
/-! PROOFS. Copies, fills, gathers and scatters (R236, R237). -/

namespace Sys2Proof.Machine

/-! ### cp.copy and cp.fill (R237) -/

theorem QCtx.loc_mem {q : QCtx} {own : Bool} {va : W64} {a : Nat} (h : q.loc own va = .mem a) : a = va.toNat := by
  unfold QCtx.loc at h
  split at h
  · split at h <;> exact nomatch h
  · split at h
    · split at h
      · exact nomatch h
      · split at h <;> exact nomatch h
    · exact (Loc.mem.inj h).symm

/-- Words of different addresses lie apart. -/
theorem apart_wr {α : Type} {q : QCtx} {own : Bool} {os : List α} {g : α → W64} {f : α → W32} (h : os.Pairwise (fun x y => g x ≠ g y)) :
    apart (os.map (fun o => q.wr own (g o) (f o))) := by
  refine List.pairwise_map.mpr (h.imp fun {x y} hxy va hx hy => hxy (BitVec.eq_of_toNat_eq ?_))
  rw [← QCtx.loc_mem hx, ← QCtx.loc_mem hy]

theorem mem_stepWords {len s o : Nat} (h : o ∈ stepWords len s) : ∃ i, o = 4096 * s + 4 * i ∧ 4096 * s + 4 * i < len := by
  obtain ⟨i, hi, rfl⟩ := List.mem_map.mp h
  have := List.mem_range.mp hi
  exact ⟨i, rfl, by omega⟩

theorem stepWords_apart (base : W64) {len s : Nat} (hlen : len < 2 ^ 32) : (stepWords len s).Pairwise (fun x y => base + BitVec.ofNat 64 x ≠ base + BitVec.ofNat 64 y) := by
  refine List.Pairwise.imp_of_mem (R := fun x y => x ≠ y) (fun {x y} hx hy hne heq => hne ?_) ?_
  · obtain ⟨i, rfl, hi⟩ := mem_stepWords hx
    obtain ⟨j, rfl, hj⟩ := mem_stepWords hy
    have := congrArg BitVec.toNat (BitVec.add_right_inj base |>.mp heq)
    rw [BitVec.toNat_ofNat, BitVec.toNat_ofNat, Nat.mod_eq_of_lt (by omega), Nat.mod_eq_of_lt (by omega)] at this
    exact this
  · exact List.pairwise_map.mpr (List.nodup_range.imp fun {i j} hij heq => hij (by omega))

theorem map_zipIdx {α β : Type} (os : List α) (f : α → β) : os.zipIdx.map (fun o => f o.1) = os.map f := by
  have h := congrArg (List.map f) (List.zipIdx_map_fst 0 os)
  rwa [List.map_map] at h

/-- A step that has its words, some just read, writes them. -/
theorem QCtx.OnStep.moves {α : Type} {q p : QCtx} {s : Nat} {r r' : List Cmd} (b : q.OnStep p s r r') {e : Dev} {m : AMap W32} (hs : p.d.Sees e)
    (hq : (p.took m e).Stands r') {os : List α} {f : α → W32} {g : α → W64} {dsp : Bool} (hw : ∀ o, o ∈ os → q.writable (q.wr dsp (g o) (f o)))
    (hne : apart (os.map (fun o => q.wr dsp (g o) (f o)))) (last : Nat) :
    ∃ e', p.move e last 0 dsp (os.map g) (os.map (fun o => some (f o))) = e' ∧ (∀ j n, (q.d.slot j n).SameUser (e'.slot j n)) ∧ q.goesOn r e' s last ∧
      (∀ o, o ∈ os → q.wrote e' (q.wr dsp (g o) (f o))) := by
  have hq' : ((e.core p.h).eq p.cq).q = { p.c with rd := m } :: r' := hq
  rw [b.sees.h, b.sees.cq] at hq'
  exact b.move hs hq' b.sees.seq b.step hw hne last

section
variable {hd : TileHdr} {x : CpArgs} {s : Nat}

/-- A step of cp.copy. -/
def copyBody (hd : TileHdr) (x : CpArgs) (q : QCtx) : Dev :=
  let q := q.begin_ hd (4096 * hd.rstep.toNat)
  let os := stepWords x.len.toNat q.c.step
  match q.fetch true (os.zipIdx.map (fun o => q.rd o.2 6 x.ssp (x.src + BitVec.ofNat 64 o.1))) with
  | .wait d => d
  | .stop d op reason va => q.stopAt d op reason va
  | .ok vs d => q.move d x.lastCopy 0 x.dsp (os.map (fun o => x.dst + BitVec.ofNat 64 o)) vs

theorem exec_cpCopy (st : State) : exec (.cpCopy hd x) st = command (copyBody hd x) st := by
  unfold exec execCpCopy
  rfl

theorem cpCopy_step : Commands (.cpCopy hd x)
    (fun q _ => q.atStep hd s ∧ q.reads ((stepWords x.len.toNat s).zipIdx.map (fun o => q.rd o.2 6 x.ssp (x.src + BitVec.ofNat 64 o.1))) ∧
      ∀ o, o ∈ stepWords x.len.toNat s → q.writable (q.wr x.dsp (x.dst + BitVec.ofNat 64 o) 0#32))
    (fun q r e => q.goesOn r e s x.lastCopy ∧ ∀ o, o ∈ stepWords x.len.toNat s →
      q.wrote e (q.wr x.dsp (x.dst + BitVec.ofNat 64 o) (q.value (q.rd 0 6 x.ssp (x.src + BitVec.ofNat 64 o))))) := by
  refine commands_of exec_cpCopy (fun q r hq ⟨hs, hreads, hw⟩ => ?_)
  obtain ⟨r', b⟩ := QCtx.begins hq hs (4096 * hd.rstep.toNat)
  unfold copyBody
  generalize q.begin_ hd (4096 * hd.rstep.toNat) = p at b
  dsimp only
  obtain ⟨e, m, hf, hsees, hst, -⟩ := b.fetch hreads (by
    rw [List.map_map]
    exact (List.zipIdx_map_snd 0 (stepWords x.len.toNat s)).symm ▸ List.nodup_range') true
  have hrd : (stepWords x.len.toNat p.c.step).zipIdx.map (fun o => p.rd o.2 6 x.ssp (x.src + BitVec.ofNat 64 o.1)) =
      (stepWords x.len.toNat s).zipIdx.map (fun o => q.rd o.2 6 x.ssp (x.src + BitVec.ofNat 64 o.1)) := by
    rw [b.step]
    exact List.map_congr_left fun o _ => b.sees.rd _ _ _ _
  rw [hrd, hf]
  dsimp only
  rw [List.map_map, b.step]
  have hvals : (stepWords x.len.toNat s).zipIdx.map ((fun y => some (q.value y)) ∘ fun o => q.rd o.2 6 x.ssp (x.src + BitVec.ofNat 64 o.1)) =
      (stepWords x.len.toNat s).map (fun o => some (q.value (q.rd 0 6 x.ssp (x.src + BitVec.ofNat 64 o)))) :=
    map_zipIdx (stepWords x.len.toNat s) (fun o => some (q.value (q.rd 0 6 x.ssp (x.src + BitVec.ofNat 64 o))))
  rw [hvals]
  obtain ⟨e', he', hslots, hgoes, hwrote⟩ := b.moves hsees hst (g := fun o => x.dst + BitVec.ofNat 64 o)
    (f := fun o => q.value (q.rd 0 6 x.ssp (x.src + BitVec.ofNat 64 o))) (dsp := x.dsp) hw (apart_wr (stepWords_apart x.dst x.len.isLt)) x.lastCopy
  exact he' ▸ ⟨hslots, hgoes, hwrote⟩

/-- A step of cp.fill. -/
def fillBody (hd : TileHdr) (x : CpArgs) (q : QCtx) : Dev :=
  let q := q.begin_ hd (4096 * hd.rstep.toNat)
  let os := stepWords x.len.toNat q.c.step
  q.move q.d x.lastCopy 0 x.dsp (os.map (fun o => x.dst + BitVec.ofNat 64 o)) (os.map (fun _ => some x.cnt))

theorem exec_cpFill (st : State) : exec (.cpFill hd x) st = command (fillBody hd x) st := by
  unfold exec execCpFill
  rfl

theorem cpFill_step : Commands (.cpFill hd x)
    (fun q _ => q.atStep hd s ∧ ∀ o, o ∈ stepWords x.len.toNat s → q.writable (q.wr x.dsp (x.dst + BitVec.ofNat 64 o) 0#32))
    (fun q r e => q.goesOn r e s x.lastCopy ∧ ∀ o, o ∈ stepWords x.len.toNat s → q.wrote e (q.wr x.dsp (x.dst + BitVec.ofNat 64 o) x.cnt)) := by
  refine commands_of exec_cpFill (fun q r hq ⟨hs, hw⟩ => ?_)
  obtain ⟨r', b⟩ := QCtx.begins hq hs (4096 * hd.rstep.toNat)
  unfold fillBody
  generalize q.begin_ hd (4096 * hd.rstep.toNat) = p at b
  dsimp only
  rw [b.step]
  obtain ⟨e', he', hslots, hgoes, hwrote⟩ := b.moves (.refl p.d) (m := p.c.rd) b.stands (g := fun o => x.dst + BitVec.ofNat 64 o)
    (f := fun _ => x.cnt) (dsp := x.dsp) hw (apart_wr (stepWords_apart x.dst x.len.isLt)) x.lastCopy
  exact he' ▸ ⟨hslots, hgoes, hwrote⟩

end

/-! ### cp.gather and cp.scatter (R237) -/

theorem QCtx.reads.append {q : QCtx} {a b : List Rd} (h : q.reads (a ++ b)) : q.reads a ∧ q.reads b :=
  ⟨⟨h.trapped, h.parked, h.now, fun x hx => h.unread x (List.mem_append_left _ hx), fun x hx => h.all x (List.mem_append_left _ hx)⟩,
    ⟨h.trapped, h.parked, h.now, fun x hx => h.unread x (List.mem_append_right _ hx), fun x hx => h.all x (List.mem_append_right _ hx)⟩⟩

section
variable {q p : QCtx} {s : Nat} {r r' : List Cmd} {x : CpArgs}

/-- The words of a step's indices. -/
def QCtx.ixWords (q : QCtx) (x : CpArgs) (s : Nat) : List Rd :=
  (stepRows x.cnt.toNat s).zipIdx.map (fun r => q.rd r.2 8 x.isp (x.idx + BitVec.ofNat 64 (4 * r.1)))

/-- The index of a row. -/
def QCtx.rowIx (q : QCtx) (x : CpArgs) (r : Nat) : W32 := q.value (q.rd 0 8 x.isp (x.idx + BitVec.ofNat 64 (4 * r)))

theorem QCtx.ixWords_ix (q : QCtx) (x : CpArgs) (s : Nat) : (q.ixWords x s).map (·.ix) = List.range' 0 (stepRows x.cnt.toNat s).length := by
  unfold QCtx.ixWords
  rw [List.map_map]
  exact List.zipIdx_map_snd 0 _

theorem length_stepRows (cnt s : Nat) : (stepRows cnt s).length ≤ 64 := by
  unfold stepRows
  rw [List.length_map, List.length_range]
  omega

/-- Values taken up by their place, over those there were. -/
def keepIxs (vs : List (Option W32)) (m : AMap W32) : AMap W32 := vs.zipIdx.foldl (fun m v => match v.1 with | some w => m.put v.2 w | none => m) m

/-- Values kept by their place leave every place beyond them. -/
theorem find?_keepIxs (vs : List (Option W32)) (m : AMap W32) {i : Nat} (hi : vs.length ≤ i) :
    (keepIxs vs m).find? i = m.find? i := by
  refine List.foldlRecOn (motive := fun x : AMap W32 => x.find? i = m.find? i) _ _ rfl fun y hy v hv => ?_
  have hlt : v.2 < vs.length := by
    have := List.snd_lt_of_mem_zipIdx hv
    omega
  split
  · rw [AMap.find_put_ne _ _ _ _ (by omega)]
    exact hy
  · exact hy

/-- The indices of a step, all at once. -/
theorem QCtx.Begun.indices (b : q.Begun p s r r') (h : q.reads (q.ixWords x s)) : ∃ e m,
    p.indices x = .ok ((stepRows x.cnt.toNat s).map (fun r => some (q.rowIx x r))) e ∧ p.d.Sees e ∧ (p.took m e).Stands r' ∧
      ∀ i, 64 ≤ i → m.find? i = q.c.rd.find? i := by
  obtain ⟨e, m, hf, hs, hq, ho⟩ := b.fetch h (by rw [q.ixWords_ix]; exact List.nodup_range') true
  have hwords : (stepRows x.cnt.toNat s).zipIdx.map (fun r => p.rd r.2 8 x.isp (x.idx + BitVec.ofNat 64 (4 * r.1))) = q.ixWords x s :=
    List.map_congr_left fun o _ => b.sees.rd _ _ _ _
  have hvals : (q.ixWords x s).map (fun x => some (q.value x)) = (stepRows x.cnt.toNat s).map (fun r => some (q.rowIx x r)) := by
    unfold QCtx.ixWords
    rw [List.map_map]
    exact map_zipIdx (stepRows x.cnt.toNat s) (fun r => some (q.rowIx x r))
  unfold QCtx.indices
  dsimp only
  rw [b.step]
  split
  · next hknown =>
    have hempty : stepRows x.cnt.toNat s = [] := by
      cases hrows : stepRows x.cnt.toNat s with
      | nil => rfl
      | cons y ys =>
        rw [hrows] at hknown
        have hmem : q.rd 0 8 x.isp (x.idx + BitVec.ofNat 64 (4 * y)) ∈ q.ixWords x s := by
          unfold QCtx.ixWords
          rw [hrows]
          exact List.mem_cons_self
        have hnone : p.c.rd.find? 0 = none := b.rd ▸ h.unread _ hmem
        rw [List.zipIdx_cons, List.map_cons, List.all_cons, hnone] at hknown
        exact nomatch hknown
    rw [hempty]
    exact ⟨p.d, p.c.rd, rfl, .refl _, b.stands, fun i _ => by rw [b.rd]⟩
  · rw [hwords, hf, hvals]
    obtain ⟨vs, hvs⟩ : ∃ vs, vs = (stepRows x.cnt.toNat s).map (fun r => some (q.rowIx x r)) := ⟨_, rfl⟩
    rw [← hvs]
    obtain ⟨hsees, hhead⟩ := Dev.keepHead_spec (d := e) hq (fun c => { c with rd := keepIxs vs c.rd })
    refine ⟨e.keepHead p.h p.cq (fun c => { c with rd := keepIxs vs c.rd }), keepIxs vs m, rfl, hs.trans hsees, hhead, fun i hi => ?_⟩
    have hlen := length_stepRows x.cnt.toNat s
    rw [find?_keepIxs _ _ (by rw [hvs, List.length_map]; omega)]
    refine ho i ?_
    rw [q.ixWords_ix, List.mem_range']
    omega

/-- The words of some rows, by row and place. -/
theorem rowWords_eq (rlen : Nat) (rows : List Nat) (ix : Nat → W32) (at_ : Nat → W32 → W64) : rowWords rlen (rows.map (fun r => (r, ix r))) at_ =
    (rows.product (List.range (rlen / 4))).map (fun p => (p.1 % 64 * (rlen / 4) + p.2, at_ p.1 (ix p.1) + BitVec.ofNat 64 (4 * p.2))) := by
  unfold rowWords List.product
  rw [List.flatMap_map, List.map_flatMap]
  refine List.flatMap_congr fun r _ => ?_
  rw [List.map_map]
  rfl

theorem mem_stepRows {cnt s i : Nat} (h : i ∈ stepRows cnt s) : i / 64 = s := by
  obtain ⟨j, hj, rfl⟩ := List.mem_map.mp h
  have := List.mem_range.mp hj
  omega

theorem nodup_stepRows (cnt s : Nat) : (stepRows cnt s).Nodup :=
  List.pairwise_map.mpr (List.nodup_range.imp fun {i j} hij heq => hij (by omega))

/-- Rows and places of a step's words, each once. -/
theorem nodup_rowPlaces (cnt s n : Nat) : ((stepRows cnt s).product (List.range n)).Nodup := (nodup_stepRows cnt s).product List.nodup_range

theorem nodup_rowWords (cnt s n k : Nat) : (((stepRows cnt s).product (List.range n)).map (fun p => k + (p.1 % 64 * n + p.2))).Nodup := by
  refine (nodup_rowPlaces cnt s n).map_on fun a ha b hb heq => ?_
  obtain ⟨ha1, ha2⟩ := List.mem_product.mp ha
  obtain ⟨hb1, hb2⟩ := List.mem_product.mp hb
  have hla := List.mem_range.mp ha2
  have hlb := List.mem_range.mp hb2
  have hsa := mem_stepRows ha1
  have hsb := mem_stepRows hb1
  have heq' : a.1 % 64 * n + a.2 = b.1 % 64 * n + b.2 := by omega
  have hdiv : a.1 % 64 = b.1 % 64 := by
    have h1 : (a.1 % 64 * n + a.2) / n = a.1 % 64 := by rw [Nat.mul_comm, Nat.mul_add_div (by omega), Nat.div_eq_of_lt hla, Nat.add_zero]
    have h2 : (b.1 % 64 * n + b.2) / n = b.1 % 64 := by rw [Nat.mul_comm, Nat.mul_add_div (by omega), Nat.div_eq_of_lt hlb, Nat.add_zero]
    rw [← h1, ← h2, heq']
  rw [hdiv] at heq'
  exact Prod.ext (by omega) (by omega)

end

section
variable {hd : TileHdr} {x : CpArgs} {s : Nat}

/-- A step of a gather or a scatter that has its indices. -/
def QCtx.moveRows (q : QCtx) (x : CpArgs) (src dst : Nat → W32 → W64) (is : List (Option W32)) : Dev :=
  let rlen := x.len.toNat
  let rows := (stepRows x.cnt.toNat q.c.step).zip is
  let live := rows.filterMap (fun r => r.2.map (fun i => (r.1, i)))
  match q.fetch true ((rowWords rlen live src).map (fun w => q.rd (64 + w.1) 6 x.ssp w.2)) with
  | .wait d => d
  | .stop d op reason va => q.stopAt d op reason va
  | .ok vs d => q.move d x.lastRows (rlen * (rows.length - live.length)) x.dsp ((rowWords rlen live dst).map (·.2)) vs

/-- A step of a gather or a scatter, by where its rows are read and written. -/
def rowsBody (hd : TileHdr) (x : CpArgs) (src dst : Nat → W32 → W64) (q : QCtx) : Dev :=
  let q := q.begin_ hd (64 * hd.rstep.toNat * x.len.toNat)
  match q.indices x with
  | .wait d => d
  | .stop d op reason va => q.stopAt d op reason va
  | .ok is d => QCtx.moveRows { q with d := d, c := ((((d.core q.h).eq q.cq).q).head?).getD q.c } x src dst is

theorem rowsForm_eq (src dst : Nat → W32 → W64) (st : State) : rowsForm hd x src dst st = command (rowsBody hd x src dst) st := by
  unfold rowsForm
  refine congrArg (fun f => command f st) (funext fun q => ?_)
  unfold rowsBody
  dsimp only
  generalize q.begin_ hd (64 * hd.rstep.toNat * x.len.toNat) = p
  generalize p.indices x = f
  cases f with
  | wait d => rfl
  | stop d op reason va => rfl
  | ok is d =>
    unfold QCtx.moveRows
    dsimp only <;> split <;> (next h => rw [h])

/-- The words that a step of a gather or a scatter reads from its rows. -/
def QCtx.rowReads (q : QCtx) (x : CpArgs) (s : Nat) (src : Nat → W32 → W64) : List Rd :=
  (rowWords x.len.toNat ((stepRows x.cnt.toNat s).map (fun r => (r, q.rowIx x r))) src).map (fun w => q.rd (64 + w.1) 6 x.ssp w.2)

/-- A step of a gather or a scatter whose words can all be read and written at once. -/
theorem rows_step {i : Instr} {src dst : Nat → W32 → W64} (hi : ∀ st, exec i st = rowsForm hd x src dst st) : Commands i
    (fun q _ => q.atStep hd s ∧ q.reads (q.ixWords x s ++ q.rowReads x s src) ∧
      ∀ r w, r ∈ stepRows x.cnt.toNat s → w < x.len.toNat / 4 → q.writable (q.wr x.dsp (dst r (q.rowIx x r) + BitVec.ofNat 64 (4 * w)) 0#32) ∧
        ∀ r' w', r' ∈ stepRows x.cnt.toNat s → w' < x.len.toNat / 4 →
          dst r (q.rowIx x r) + BitVec.ofNat 64 (4 * w) = dst r' (q.rowIx x r') + BitVec.ofNat 64 (4 * w') → r = r' ∧ w = w')
    (fun q l e => q.goesOn l e s x.lastRows ∧ ∀ r w, r ∈ stepRows x.cnt.toNat s → w < x.len.toNat / 4 →
      q.wrote e (q.wr x.dsp (dst r (q.rowIx x r) + BitVec.ofNat 64 (4 * w)) (q.value (q.rd 0 6 x.ssp (src r (q.rowIx x r) + BitVec.ofNat 64 (4 * w)))))) := by
  refine commands_of (fun st => (hi st).trans (rowsForm_eq src dst st)) (fun q r hq ⟨hs, hreads, hw⟩ => ?_)
  obtain ⟨hixs, hrows⟩ := hreads.append
  obtain ⟨r', b⟩ := QCtx.begins hq hs (64 * hd.rstep.toNat * x.len.toNat)
  unfold rowsBody
  generalize q.begin_ hd (64 * hd.rstep.toNat * x.len.toNat) = p at b
  dsimp only
  obtain ⟨e, m, hind, hsees, hst, hrd⟩ := b.indices hixs
  rw [hind]
  dsimp only
  have hhead : ({ p with d := e, c := ((((e.core p.h).eq p.cq).q).head?).getD p.c } : QCtx) = p.took m e := by
    rw [show ((e.core p.h).eq p.cq).q = _ from hst]
    rfl
  rw [hhead]
  unfold QCtx.moveRows
  dsimp only
  have b2 := b.took hsees hst
  obtain ⟨R, hR⟩ : ∃ R, R = stepRows x.cnt.toNat s := ⟨_, rfl⟩
  have hstep : stepRows x.cnt.toNat (p.took m e).c.step = R := by rw [b2.step, hR]
  have hzip : R.zip (R.map (fun r => some (q.rowIx x r))) = R.map (fun r => (r, some (q.rowIx x r))) := by
    have := List.zip_map' (f := id) (g := fun r => some (q.rowIx x r)) (l := R)
    rwa [List.map_id] at this
  have hlive : (R.map (fun r => (r, some (q.rowIx x r)))).filterMap (fun r => r.2.map (fun i => (r.1, i))) = R.map (fun r => (r, q.rowIx x r)) := by
    rw [List.filterMap_map, ← List.filterMap_eq_map]
    rfl
  rw [hstep, ← hR, hzip, hlive, List.length_map, List.length_map, Nat.sub_self, Nat.mul_zero]
  have hwords : (rowWords x.len.toNat (R.map (fun r => (r, q.rowIx x r))) src).map (fun w => (p.took m e).rd (64 + w.1) 6 x.ssp w.2) = q.rowReads x s src := by
    rw [hR]
    exact List.map_congr_left fun w _ => b2.sees.rd _ _ _ _
  obtain ⟨e2, m2, hf, hsees2, hst2, -⟩ := QCtx.fetch_reads (q := p.took m e) (rs := q.rowReads x s src) hst ((b.fresh hrows).took hsees m)
    (fun y hy => b2.sees.readable (.of (hrows.all y hy))) (fun y hy => by
      refine (hrd y.ix ?_).trans (hrows.unread y hy)
      obtain ⟨w, -, rfl⟩ := List.mem_map.mp hy
      exact Nat.le_add_right 64 w.1) (by
      unfold QCtx.rowReads
      rw [rowWords_eq, List.map_map, List.map_map]
      exact nodup_rowWords x.cnt.toNat s (x.len.toNat / 4) 64) true
  rw [hwords, hf]
  dsimp only
  have hvals : (q.rowReads x s src).map (fun y => some ((p.took m e).value y)) = (R.product (List.range (x.len.toNat / 4))).map
      (fun o => some (q.value (q.rd 0 6 x.ssp (src o.1 (q.rowIx x o.1) + BitVec.ofNat 64 (4 * o.2))))) := by
    rw [List.map_congr_left fun y hy => congrArg some (b2.sees.value (hrows.all y hy))]
    unfold QCtx.rowReads
    rw [rowWords_eq, List.map_map, List.map_map, hR]
    rfl
  have hdst : (rowWords x.len.toNat (R.map (fun r => (r, q.rowIx x r))) dst).map (·.2) = (R.product (List.range (x.len.toNat / 4))).map
      (fun o => dst o.1 (q.rowIx x o.1) + BitVec.ofNat 64 (4 * o.2)) := by
    rw [rowWords_eq, List.map_map]
    rfl
  rw [hvals, hdst]
  rw [← hR] at hw
  have hmem : ∀ o, o ∈ R.product (List.range (x.len.toNat / 4)) → o.1 ∈ R ∧ o.2 < x.len.toNat / 4 := fun o ho => by
    obtain ⟨h1, h2⟩ := List.mem_product.mp ho
    exact ⟨h1, List.mem_range.mp h2⟩
  obtain ⟨e', he', hslots, hgoes, hwrote⟩ := b2.moves hsees2 hst2 (os := R.product (List.range (x.len.toNat / 4)))
    (f := fun o => q.value (q.rd 0 6 x.ssp (src o.1 (q.rowIx x o.1) + BitVec.ofNat 64 (4 * o.2))))
    (g := fun o => dst o.1 (q.rowIx x o.1) + BitVec.ofNat 64 (4 * o.2)) (dsp := x.dsp) (fun o ho => (hw o.1 o.2 (hmem o ho).1 (hmem o ho).2).1)
    (apart_wr (List.Pairwise.imp_of_mem (fun {a c} ha hc hne heq => hne (by
      obtain ⟨h1, h2⟩ := (hw a.1 a.2 (hmem a ha).1 (hmem a ha).2).2 c.1 c.2 (hmem c hc).1 (hmem c hc).2 heq
      exact Prod.ext h1 h2)) (hR ▸ nodup_rowPlaces x.cnt.toNat s (x.len.toNat / 4)))) x.lastRows
  refine he' ▸ ⟨hslots, hgoes, fun r w hr hw' => ?_⟩
  exact hwrote (r, w) (List.mem_product.mpr ⟨hr, List.mem_range.mpr hw'⟩)

theorem exec_cpGather (hd : TileHdr) (x : CpArgs) (st : State) : exec (.cpGather hd x) st =
    rowsForm hd x (fun _ i => byIndex x.src x.ipitch i) (fun r _ => byRow x.dst x.len.toNat r) st := by
  unfold exec execCpGather
  rfl

theorem exec_cpScatter (hd : TileHdr) (x : CpArgs) (st : State) : exec (.cpScatter hd x) st =
    rowsForm hd x (fun r _ => byRow x.src x.len.toNat r) (fun _ i => byIndex x.dst x.ipitch i) st := by
  unfold exec execCpScatter
  rfl

end

/-- Settles O34: each form reads its words (`QCtx.fetch_reads`) and sends them on (`QCtx.OnStep.move`). -/
theorem copySteps : Obligations.CopySteps := by
  unfold Obligations.CopySteps
  intro hd x s
  have hg := rows_step (s := s) (exec_cpGather hd x)
  have hsc := rows_step (s := s) (exec_cpScatter hd x)
  unfold QCtx.ixWords QCtx.rowReads QCtx.rowIx byIndex byRow at hg hsc
  exact ⟨cpCopy_step, cpFill_step, hg, hsc⟩

end Sys2Proof.Machine
end

section
/-! PROOFS. Updates and engine words (R126, R237, R238). -/

namespace Sys2Proof.Machine

/-! ### cp.spred (R238) -/

theorem pairsOf_range (f : Nat → Option W32) (n : Nat) :
    execCpSpred.pairsOf ((List.range (2 * n)).map f) = (List.range n).map (fun j => (f (2 * j), f (2 * j + 1))) := by
  induction n generalizing f with
  | zero => rfl
  | succ n ih =>
    rw [show 2 * (n + 1) = (2 * n + 1) + 1 from rfl, List.range_succ_eq_map, List.range_succ_eq_map, List.range_succ_eq_map]
    simp only [List.map_cons, List.map_map]
    rw [execCpSpred.pairsOf]
    exact congrArg (List.cons _) (ih (fun i => f (i + 2)))

/-- Messages that leave one after another. -/
theorem Dev.sends_foldl {α : Type} (e : α → Ev) (l : List α) (d : Dev) :
    (l.foldl (fun d p => d.send 0 (e p)) d).cores = d.cores ∧ d.Flows (l.foldl (fun d p => d.send 0 (e p)) d) ∧
      ∀ p, p ∈ l → (l.foldl (fun d p => d.send 0 (e p)) d).coming d.clock (e p) := by
  induction l generalizing d with
  | nil => exact ⟨rfl, .refl d, nofun⟩
  | cons x l ih =>
    obtain ⟨hc, hf, hall⟩ := ih (d.send 0 (e x))
    refine ⟨hc, (Dev.Flows.send _ _ _).trans hf, fun p hp => ?_⟩
    rcases List.mem_cons.mp hp with rfl | hp
    · exact hf.coming (Dev.coming_send _ _ _)
    · exact hall p hp

section
variable {hd : TileHdr} {x : CpArgs} {s : Nat}

/-- A pair whose words were both read, with the address of the word it updates. -/
def spredPair (x : CpArgs) (p : Option W32 × Option W32) : Option (W64 × W32) := p.1.bind (fun i => p.2.map (fun v => (x.dst + (i.setWidth 64 <<< 2), v)))

/-- The pairs of a step, as they are read. -/
def spredPairs (x : CpArgs) (vs : List (Option W32)) : List (W64 × W32) := (execCpSpred.pairsOf vs).filterMap (spredPair x)

theorem spredPairs_of {g : Option W32 × Option W32 → Option (W64 × W32)} (hg : ∀ p, g p = spredPair x p) (vs : List (Option W32)) :
    (execCpSpred.pairsOf vs).filterMap g = spredPairs x vs := by
  rw [funext hg, spredPairs]

/-- The update that a pair of a step leaves as. -/
def QCtx.update (q : QCtx) (x : CpArgs) (pa : Nat) (p : W64 × W32) : Ev :=
  .spredMerge (districtOf q.h) ⟨districtOf q.h, 0, q.c.lk, pa, x.typ.toNat, x.op.toNat, [p.2], [(updSrc q.h q.c.seq, 1)], [p.1.toNat]⟩

/-- Where a word lies, among lines with their physical addresses. -/
def placeOf (ps : List (Nat × Nat)) (va : Nat) : Nat := ((ps.find? (fun e => e.1 == lineOf va)).map (·.2)).getD 0 + va % 128

/-- A step of cp.spred that has its pairs. -/
def QCtx.updates (q : QCtx) (x : CpArgs) (d : Dev) (n : Nat) (pairs : List (W64 × W32)) : Dev :=
  match pairs.find? (fun p => isWindow p.1) with
  | some p => q.stopAt d 7 1 p.1
  | none =>
    match q.lines d [.r, .w, .a] (runLines [] (pairs.map (fun p => (p.1.toNat, p.1)))) with
    | .wait d => d
    | .bad reason va => q.stopAt d 7 reason va
    | .ok ps d =>
      let d := pairs.foldl (fun d p => d.send 0 (q.update x (placeOf ps p.1.toNat) p)) d
      q.stepped (q.skip d (8 * (n - pairs.length))) x.lastPairs

/-- A step of cp.spred. -/
def spredBody (hd : TileHdr) (x : CpArgs) (q : QCtx) : Dev :=
  if !q.c.begun && decide (2 < x.typ.toNat) then q.d.rsvfmt q.h q.cq 9 (x.typ.setWidth 32) else
  let q := q.begin_ hd (4096 * hd.rstep.toNat)
  let n := min 512 (x.len.toNat - 512 * q.c.step)
  match q.fetch true ((List.range (2 * n)).map (fun i => q.rd i 6 x.ssp (x.src + BitVec.ofNat 64 (4096 * q.c.step + 4 * i)))) with
  | .wait d => d
  | .stop d op reason va => q.stopAt d op reason va
  | .ok vs d => q.updates x d n (spredPairs x vs)

theorem exec_cpSpred (st : State) : exec (.cpSpred hd x) st = command (spredBody hd x) st := by
  unfold exec execCpSpred
  refine congrArg (fun f => command f st) (funext fun q => ?_)
  unfold spredBody QCtx.updates
  refine congrArg (ite _ _) ?_
  generalize q.begin_ hd (4096 * hd.rstep.toNat) = p
  dsimp only
  generalize p.fetch true ((List.range (2 * min 512 (x.len.toNat - 512 * p.c.step))).map
    (fun i => p.rd i 6 x.ssp (x.src + BitVec.ofNat 64 (4096 * p.c.step + 4 * i)))) = f
  cases f with
  | wait d => rfl
  | stop d op reason va => rfl
  | ok vs d =>
    dsimp only
    rw [spredPairs_of (x := x) (fun p => by obtain ⟨i | i, v | v⟩ := p <;> rfl)]
    generalize List.find? (fun p => isWindow p.1) (spredPairs x vs) = o
    cases o with
    | some p => rfl
    | none =>
      dsimp only
      generalize p.lines d [.r, .w, .a] (runLines [] ((spredPairs x vs).map (fun p => (p.1.toNat, p.1)))) = g
      cases g <;> rfl

/-- The word of a step of cp.spred. -/
def QCtx.spredWord (q : QCtx) (x : CpArgs) (s i : Nat) : Rd := q.rd i 6 x.ssp (x.src + BitVec.ofNat 64 (4096 * s + 4 * i))

/-- The word that a pair updates. -/
def QCtx.spredTgt (q : QCtx) (x : CpArgs) (s j : Nat) : W64 := x.dst + (q.value (q.spredWord x s (2 * j))).setWidth 64 <<< 2

/-- Updates of a step whose words are all reached leave. -/
theorem QCtx.OnStep.updates {q p : QCtx} {r r' : List Cmd} (b : q.OnStep p s r r') {e : Dev} {m : AMap W32} (hs : p.d.Sees e) (hq : (p.took m e).Stands r')
    {n : Nat} {tgt : Nat → W64} {v : Nat → W32} (ht : ∀ j, j < n → isWindow (tgt j) = false ∧ ∃ pa, q.reaches [.r, .w, .a] (tgt j).toNat pa) :
    (∀ j k, (q.d.slot j k).SameUser ((p.updates x e n ((List.range n).map (fun j => (tgt j, v j)))).slot j k)) ∧
    q.goesOn r (p.updates x e n ((List.range n).map (fun j => (tgt j, v j)))) s x.lastPairs ∧
    ∀ j pa, j < n → q.reaches [.r, .w, .a] (tgt j).toNat pa →
      (p.updates x e n ((List.range n).map (fun j => (tgt j, v j)))).coming q.d.clock (q.update x (pa + (tgt j).toNat % 128) (tgt j, v j)) := by
  obtain ⟨pairs, hpairs⟩ : ∃ pairs, pairs = (List.range n).map (fun j => (tgt j, v j)) := ⟨_, rfl⟩
  have hmem : ∀ y, y ∈ pairs → ∃ j, j < n ∧ (tgt j, v j) = y := fun y hy => by
    rw [hpairs] at hy
    obtain ⟨j, hj, rfl⟩ := List.mem_map.mp hy
    exact ⟨j, List.mem_range.mp hj, rfl⟩
  have hlen : pairs.length = n := by rw [hpairs, List.length_map, List.length_range]
  have hsees : q.Sees { p with d := e } := ⟨b.sees.m, b.sees.h, b.sees.cq, b.sees.seq, b.sees.lk, b.sees.who, b.sees.dev.trans hs⟩
  obtain ⟨ps, hps, hplaced⟩ := QCtx.lines_reached (q := { p with d := e }) (need := [.r, .w, .a])
    (ls := runLines [] (pairs.map (fun p => (p.1.toNat, p.1)))) (fun l hl => by
    rcases mem_runLines hl with hl | ⟨y, hy, hyl⟩
    · exact nomatch hl
    · obtain ⟨y', hy', rfl⟩ := List.mem_map.mp hy
      obtain ⟨j, hj, rfl⟩ := hmem y' hy'
      obtain ⟨-, pa, hr⟩ := ht j hj
      obtain ⟨lf, ht', hp⟩ := hsees.reaches hr
      exact ⟨pa, lf, hyl ▸ ht', hp⟩)
  have hps' : p.lines e [.r, .w, .a] (runLines [] (pairs.map (fun p => (p.1.toNat, p.1)))) = .ok ps e := hps
  have hplace : ∀ j pa, j < n → q.reaches [.r, .w, .a] (tgt j).toNat pa → placeOf ps (tgt j).toNat = pa + (tgt j).toNat % 128 := fun j pa hj hr => by
    obtain ⟨lf, ht', -⟩ := hsees.reaches hr
    obtain ⟨l, hl, hlva⟩ := runLines_covers (acc := []) (xs := pairs.map (fun p => (p.1.toNat, p.1))) (x := ((tgt j).toNat, tgt j))
      (List.mem_map.mpr ⟨(tgt j, v j), hpairs ▸ List.mem_map.mpr ⟨j, List.mem_range.mpr hj, rfl⟩, rfl⟩)
    obtain ⟨y, hy, hyl⟩ := hplaced.covers l hl
    obtain ⟨y', hy'⟩ := Option.isSome_iff_exists.mp (List.find?_isSome.mpr ⟨y, hy, by simp [hyl, hlva]⟩ :
      (ps.find? (fun e => e.1 == lineOf (tgt j).toNat)).isSome)
    have hkey : y'.1 = lineOf (tgt j).toNat := by simpa using List.find?_some hy'
    obtain ⟨-, -, -, lf', ht2⟩ := hplaced.sound y' (List.mem_of_find?_eq_some hy')
    rw [hkey, ht'] at ht2
    unfold placeOf
    rw [hy', (Tr.ok.inj ht2).1]
    rfl
  have hfind : pairs.find? (fun p => isWindow p.1) = none := List.find?_eq_none.mpr fun y hy => by
    obtain ⟨j, hj, rfl⟩ := hmem y hy
    rw [(ht j hj).1]
    exact Bool.false_ne_true
  obtain ⟨hcores, hflows, hcoming⟩ := Dev.sends_foldl (fun y => p.update x (placeOf ps y.1.toNat) y) pairs e
  obtain ⟨e1, he1⟩ : ∃ e1, e1 = pairs.foldl (fun d y => d.send 0 (p.update x (placeOf ps y.1.toNat) y)) e := ⟨_, rfl⟩
  rw [← he1] at hcores hflows hcoming
  have hbody : p.updates x e n pairs = p.stepped e1 x.lastPairs := by
    unfold QCtx.updates
    rw [hfind]
    dsimp only
    split
    · next d h => exact nomatch hps'.symm.trans h
    · next reason va h => exact nomatch hps'.symm.trans h
    · next ps' d h =>
      obtain ⟨rfl, rfl⟩ := Lines.ok.inj (hps'.symm.trans h)
      rw [hlen, Nat.sub_self, Nat.mul_zero, he1]
      rfl
  have hq' : ((e.core p.h).eq p.cq).q = { p.c with rd := m } :: r' := hq
  have hq1 : ((e1.core q.h).eq q.cq).q = { p.c with rd := m } :: r' := by
    rw [Dev.core, hcores, ← Dev.core, ← b.sees.h, ← b.sees.cq, hq']
  obtain ⟨hcl, hgoes⟩ := b.stepped hq1 b.sees.seq b.step x.lastPairs
  rw [← hpairs, hbody]
  refine ⟨fun j k => ?_, hgoes, fun j pa hj hr => ?_⟩
  · have hslot : e1.slot j k = e.slot j k := by rw [Dev.slot, Dev.core, hcores, ← Dev.core, ← Dev.slot]
    exact ((b.sees.dev.woken.trans hs.woken) j k).sameUser.trans (hslot ▸ (hcl.woken j k).sameUser)
  · have := hcoming (tgt j, v j) (hpairs ▸ List.mem_map.mpr ⟨j, List.mem_range.mpr hj, rfl⟩)
    dsimp only at this
    rw [hplace j pa hj hr, QCtx.update, b.sees.h, b.sees.seq, b.sees.lk, hs.clock, b.sees.dev.clock] at this
    exact hcl.flows.coming this

theorem spredPairs_range (x : CpArgs) (f : Nat → W32) (n : Nat) : spredPairs x ((List.range (2 * n)).map (fun i => some (f i))) =
    (List.range n).map (fun j => (x.dst + (f (2 * j)).setWidth 64 <<< 2, f (2 * j + 1))) := by
  unfold spredPairs
  rw [pairsOf_range, List.filterMap_map, ← List.filterMap_eq_map]
  rfl

theorem cpSpred_step : Commands (.cpSpred hd x)
    (fun q _ => q.atStep hd s ∧ x.typ.toNat ≤ 2 ∧ q.reads ((List.range (2 * min 512 (x.len.toNat - 512 * s))).map (q.spredWord x s)) ∧
      ∀ j, j < min 512 (x.len.toNat - 512 * s) → isWindow (q.spredTgt x s j) = false ∧ ∃ pa, q.reaches [.r, .w, .a] (q.spredTgt x s j).toNat pa)
    (fun q r e => q.goesOn r e s x.lastPairs ∧ ∀ j pa, j < min 512 (x.len.toNat - 512 * s) → q.reaches [.r, .w, .a] (q.spredTgt x s j).toNat pa →
      e.coming q.d.clock (q.update x (pa + (q.spredTgt x s j).toNat % 128) (q.spredTgt x s j, q.value (q.spredWord x s (2 * j + 1))))) := by
  refine commands_of exec_cpSpred (fun q r hq ⟨hs, htyp, hreads, ht⟩ => ?_)
  obtain ⟨r', b⟩ := QCtx.begins hq hs (4096 * hd.rstep.toNat)
  unfold spredBody
  rw [if_neg (by simp [Nat.not_lt.mpr htyp])]
  generalize q.begin_ hd (4096 * hd.rstep.toNat) = p at b
  dsimp only
  rw [b.step]
  obtain ⟨n, hn⟩ : ∃ n, n = min 512 (x.len.toNat - 512 * s) := ⟨_, rfl⟩
  rw [← hn] at hreads ht ⊢
  obtain ⟨e, m, hf, hsees, hst, -⟩ := b.fetch hreads (by
    rw [List.map_map, show (fun y : Rd => y.ix) ∘ q.spredWord x s = id from rfl, List.map_id]
    exact List.nodup_range) true
  have hrd : (List.range (2 * n)).map (fun i => p.rd i 6 x.ssp (x.src + BitVec.ofNat 64 (4096 * s + 4 * i))) = (List.range (2 * n)).map (q.spredWord x s) :=
    List.map_congr_left fun i _ => b.sees.rd _ _ _ _
  rw [hrd, hf]
  dsimp only
  rw [List.map_map]
  have hpairs : spredPairs x ((List.range (2 * n)).map ((fun y => some (q.value y)) ∘ q.spredWord x s)) =
      (List.range n).map (fun j => (q.spredTgt x s j, q.value (q.spredWord x s (2 * j + 1)))) :=
    spredPairs_range x (fun i => q.value (q.spredWord x s i)) n
  rw [hpairs]
  exact b.toOnStep.updates hsees hst ht

/-- A reserved type of a cp.spred is RSVFMT (R55, R238). -/
theorem cpSpred_reserved : Commands (.cpSpred hd x) (fun q _ => q.c.begun = false ∧ 2 < x.typ.toNat)
    (fun q r e => q.refusedWith r e 6 9 ∧ ((e.core q.h).eq q.cq).frz = true) := by
  refine commands_of exec_cpSpred (fun q r hq ⟨hb, htyp⟩ => ?_)
  unfold spredBody
  rw [if_pos (by simp [hb, htyp])]
  obtain ⟨hslots, href, hfrz, -⟩ := rsvfmt_refuses hq (show 9 < 256 by decide) (x.typ.setWidth 32)
  exact ⟨hslots, href, hfrz⟩

end

/-! ### Updates at roundabouts and homes (R238) -/

section
variable {rt : Nat} {u : Upd}

/-- An update that does not come from a roundabout's window. -/
theorem Dev.leaveWindow_fresh (d : Dev) (h : u.id = 0) : d.leaveWindow u = (d, u) := by
  unfold Dev.leaveWindow
  dsimp only
  rw [if_pos h]
  dsimp only
  rw [← h]

/-- Where an update goes on to from a roundabout (log 65). -/
def onward (rt : Nat) (u : Upd) : Ev := if homeOf u.pa = 512 ∨ rt = homeDistrict (homeOf u.pa) then .spredApply u else .spredMerge (homeDistrict (homeOf u.pa)) u

theorem Dev.updOn_eq (d : Dev) (rt : Nat) (u : Upd) : d.updOn rt u = d.send 0 (onward rt u) := by
  unfold Dev.updOn onward
  dsimp only
  by_cases h : homeOf u.pa = 512 ∨ rt = homeDistrict (homeOf u.pa)
  · rw [if_pos h, if_pos (by simpa using h)]
  · rw [if_neg h, if_neg (by simpa using h)]

/-- An update merged into another. -/
def mergedWith (y u : Upd) : Upd := { y with vals := y.vals ++ u.vals, srcs := y.srcs ++ u.srcs, vas := y.vas ++ u.vas }

/-- An update at a roundabout. -/
def mergeBody (rt : Nat) (u : Upd) (d : Dev) : Dev :=
  if (d.merges.get [] rt).any (fun e => sameUpd e u) then
    { (if rt < 9 then d.bumpShared (201 + rt) else d) with
      merges := d.merges.put rt ((d.merges.get [] rt).map (fun e => if sameUpd e u then mergedWith e u else e)) }
  else if (d.merges.get [] rt).length < 64 then
    { d with merges := d.merges.put rt ((d.merges.get [] rt) ++ [{ u with rt := rt, id := d.count + 1 }]), count := d.count + 1 }.updOn rt
      { u with rt := rt, id := d.count + 1 }
  else d.updOn rt { u with rt := rt, id := 0 }

theorem exec_spredMerge (st : State) : exec (.spredMerge rt u) st = onDev (fun _ d => mergeBody rt (d.leaveWindow u).2 (d.leaveWindow u).1) st := by
  unfold exec execSpredMerge
  rfl

/-- An update that joins one of its word, type and operation. -/
theorem spredMerge_joins : Event (.spredMerge rt u) (fun _ d => u.id = 0 ∧ ∃ y, y ∈ d.merges.get [] rt ∧ sameUpd y u = true)
    (fun _ d e => ∀ y, y ∈ d.merges.get [] rt → (if sameUpd y u then mergedWith y u else y) ∈ e.merges.get [] rt) := by
  refine onDev_event exec_spredMerge (fun m d ⟨hid, z, hz, hzu⟩ y hy => ?_)
  rw [d.leaveWindow_fresh hid]
  unfold mergeBody
  rw [if_pos (List.any_eq_true.mpr ⟨z, hz, hzu⟩)]
  dsimp only
  rw [AMap.get_put_self]
  exact List.mem_map.mpr ⟨y, hy, rfl⟩

theorem not_any_sameUpd {d : Dev} (h : ∀ y, y ∈ d.merges.get [] rt → sameUpd y u = false) : ¬ (d.merges.get [] rt).any (fun e => sameUpd e u) = true := by
  rw [List.any_eq_true]
  exact fun ⟨y, hy, hyu⟩ => Bool.false_ne_true ((h y hy).symm.trans hyu)

/-- An update that takes an entry of its own. -/
theorem spredMerge_enters : Event (.spredMerge rt u)
    (fun _ d => u.id = 0 ∧ (∀ y, y ∈ d.merges.get [] rt → sameUpd y u = false) ∧ (d.merges.get [] rt).length < 64)
    (fun _ d e => ∃ y, e.merges.get [] rt = d.merges.get [] rt ++ [y] ∧ y = { u with rt := rt, id := y.id } ∧ e.coming d.clock (onward rt y)) := by
  refine onDev_event exec_spredMerge (fun m d ⟨hid, hno, hroom⟩ => ?_)
  rw [d.leaveWindow_fresh hid]
  unfold mergeBody
  rw [if_neg (not_any_sameUpd hno), if_pos hroom, Dev.updOn_eq]
  exact ⟨{ u with rt := rt, id := d.count + 1 }, AMap.get_put_self _ _ _ _, rfl, Dev.coming_send _ 0 _⟩

/-- An update that finds every entry taken. -/
theorem spredMerge_passes : Event (.spredMerge rt u)
    (fun _ d => u.id = 0 ∧ (∀ y, y ∈ d.merges.get [] rt → sameUpd y u = false) ∧ 64 ≤ (d.merges.get [] rt).length)
    (fun _ d e => e.merges = d.merges ∧ e.coming d.clock (onward rt { u with rt := rt, id := 0 })) := by
  refine onDev_event exec_spredMerge (fun m d ⟨hid, hno, hfull⟩ => ?_)
  rw [d.leaveWindow_fresh hid]
  unfold mergeBody
  rw [if_neg (not_any_sameUpd hno), if_neg (Nat.not_lt.mpr hfull), Dev.updOn_eq]
  exact ⟨rfl, Dev.coming_send _ 0 _⟩

/-- The line that an update writes. -/
def updLine (u : Upd) (m : Memory) : GLine :=
  newLine (fun _ => lineOf u.pa) u.pa (updValue u.typ u.op (m.w32 u.pa) u.vals)

/-- The function whose group an update's is. -/
def Dev.updFn (d : Dev) (u : Upd) : Nat := if 2 ^ 20 ≤ u.lk then 32 else d.fnOf u.lk

/-- An update at the home of its word. -/
def applyBody (u : Upd) (m : Memory) (d : Dev) : Dev :=
  (d.groupNow (updLine u m) (d.updFn u) (u.srcs.map updFin)).getD ((d.askHost (lineOf u.pa)).later 1 (.spredApply u))

theorem exec_spredApply (st : State) : exec (.spredApply u) st = onDev (fun m d => applyBody (d.leaveWindow u).2 m (d.leaveWindow u).1) st := by
  unfold exec execSpredApply
  refine congrArg (fun f => onDev f st) (funext fun m => funext fun d => ?_)
  unfold applyBody updLine newLine Dev.updFn
  dsimp only
  split
  · next h => rw [h, Option.getD_some]
  · next h => rw [h, Option.getD_none]

/-- A group of one line that no home has to wait for. -/
theorem Dev.groupNow_free {d : Dev} {l : GLine} (hp : d.pending l.pa = false) (hh : d.heldLine l.pa = false) (hc : d.hostLines.contains l.pa = false) (fn : Nat)
    (fin : List Fin) : ∃ e id, d.groupNow l fn fin = some e ∧ e.groups = d.groups ++ [⟨id, [l], .two, [], [homeOf l.pa], fn, none, 0, fin⟩] ∧
      e.coming d.clock (.groupRelease id (homeOf l.pa)) ∧ (lineOf l.pa = l.pa → e.pending l.pa = true) := by
  obtain ⟨e, he⟩ : ∃ e, e = (({ d with
    groups := d.groups ++ [⟨d.newGid, [l], .two, [], [homeOf l.pa], fn, none, 0, fin⟩], count := d.newGid + 1 } : Dev).updHome (homeOf l.pa)
    (fun x => { x with pend := x.pend ++ [(l.pa, d.newGid)] })) := ⟨_, rfl⟩
  refine ⟨e.send 0 (.groupRelease d.newGid (homeOf l.pa)), d.newGid, ?_, ?_, ?_, fun hl => ?_⟩
  · unfold Dev.groupNow
    dsimp only
    rw [hp, hh, hc, he]
    rfl
  · rw [he]
    rfl
  · rw [show d.clock = e.clock by rw [he]; rfl]
    exact Dev.coming_send e 0 _
  · unfold Dev.pending
    rw [show (e.send 0 (.groupRelease d.newGid (homeOf l.pa))).home (homeOf l.pa) = e.home (homeOf l.pa) from rfl, he, Dev.home_updHome_self, List.any_append]
    simp [hl]

/-- An update at the home of a word that is free: it is applied as a group of one line. -/
theorem spredApply_free : Event (.spredApply u)
    (fun _ d => u.id = 0 ∧ u.pa % 4 = 0 ∧ d.pending (lineOf u.pa) = false ∧ d.heldLine (lineOf u.pa) = false ∧ d.hostLines.contains (lineOf u.pa) = false)
    (fun m d e => ∃ g l, e.groups = d.groups ++ [g] ∧ g.lines = [l] ∧ g.phase = .two ∧ l.pa = lineOf u.pa ∧
      (∀ k, l.mask.getLsbD k = true ↔ u.pa % 128 ≤ k ∧ k < u.pa % 128 + 4) ∧
      (∀ k, k < 4 → Line.byte l.data (u.pa % 128 + k) = (updValue u.typ u.op (m.w32 u.pa) u.vals).extractLsb' (8 * k) 8) ∧
      e.coming d.clock (.groupRelease g.id (homeOf (lineOf u.pa))) ∧ e.pending (lineOf u.pa) = true) := by
  refine onDev_event exec_spredApply (fun m d ⟨hid, hal, hp, hh, hc⟩ => ?_)
  rw [d.leaveWindow_fresh hid]
  obtain ⟨e, id, he, hgroups, hcoming, hpend⟩ := Dev.groupNow_free (l := updLine u m) hp hh hc (d.updFn u) (u.srcs.map updFin)
  unfold applyBody
  rw [he, Option.getD_some]
  refine ⟨_, updLine u m, hgroups, rfl, rfl, rfl, fun k => ?_, fun k hk => ?_, hcoming, hpend (lineOf_lineOf u.pa)⟩
  · unfold updLine newLine
    dsimp only
    by_cases hk : k < 128
    · rw [getLsbD_lineBytes_mask _ _ _ hk, decide_eq_true_iff]
    · rw [BitVec.getLsbD_of_ge _ _ (Nat.le_of_not_lt hk)]
      exact iff_of_false Bool.false_ne_true (by omega)
  · exact ((newLine_has (fun _ => lineOf u.pa) (updValue u.typ u.op (m.w32 u.pa) u.vals) hal).2 k hk).2

/-- An update whose line is pending is tried again. -/
theorem spredApply_waits : Event (.spredApply u) (fun _ d => u.id = 0 ∧ d.pending (lineOf u.pa) = true)
    (fun _ d e => e.groups = d.groups ∧ e.coming d.clock (.spredApply u)) := by
  refine onDev_event exec_spredApply (fun m d ⟨hid, hp⟩ => ?_)
  rw [d.leaveWindow_fresh hid]
  have hnone : d.groupNow (updLine u m) (d.updFn u) (u.srcs.map updFin) = none := by
    unfold Dev.groupNow
    dsimp only
    rw [show (updLine u m).pa = lineOf u.pa from rfl, hp]
    rfl
  unfold applyBody
  rw [hnone, Option.getD_none]
  have hask : (d.askHost (lineOf u.pa)).groups = d.groups ∧ (d.askHost (lineOf u.pa)).clock = d.clock := by
    unfold Dev.askHost
    split <;> exact ⟨rfl, rfl⟩
  refine ⟨hask.1, ⟨(d.askHost (lineOf u.pa)).clock + 1, 0, .spredApply u⟩, List.mem_append_right _ (List.mem_singleton.mpr rfl), rfl, ?_⟩
  show d.clock < (d.askHost (lineOf u.pa)).clock + 1
  rw [hask.2]
  exact Nat.lt_succ_self _

end

/-! ### Engine words (R126, R237) -/

theorem Core.bankStep_ewr {c : Core} {a : Nat} (h : c.Bare0 a) (hopen : c.sealedAt a = false) (v : W32) :
    c.bankStep a .ewr v = (.out 0#32, c.setWord a v, false) := by
  obtain ⟨key, g, hreg, htbl⟩ := h
  simp [Core.bankStep, hreg, BankKind.load, hopen, htbl, Core.entry, actOf, setTagOf, Core.target]

section
variable {w : EngWord}

/-- A word that nothing refuses lands, and its bytes are reported. -/
theorem Dev.land_bare {d : Dev} (hb : (d.core w.dst).Bare0 w.addr) (hopen : (d.core w.dst).sealedAt w.addr = false) :
    d.land w = (d.updCore w.dst (fun _ => (d.core w.dst).setWord w.addr w.data)).send (chanOf 3 w.h (if w.cq then 1 else 0)) (.engineReport w.h w.cq w.seq 4) := by
  have hop : d.bankOp w.dst w.addr .ewr w.data (.landing w) = (.out 0#32, d.updCore w.dst (fun _ => (d.core w.dst).setWord w.addr w.data)) :=
    Dev.bankOp_of (Core.bankStep_ewr hb hopen w.data) (fun _ h => nomatch h)
  unfold Dev.land
  rw [hop]
  rfl

/-- The word stands where it was to land, every other word as before, and four bytes are reported. -/
structure Landed (w : EngWord) (d e : Dev) : Prop where
  here : (e.core w.dst).word w.addr = w.data
  others : ∀ a, a / 4 ≠ w.addr / 4 → (e.core w.dst).word a = (d.core w.dst).word a
  report : e.coming d.clock (.engineReport w.h w.cq w.seq 4)
  held : (e.core w.dst).heldEng = (d.core w.dst).heldEng

theorem Dev.landed {d : Dev} (hb : (d.core w.dst).Bare0 w.addr) (hopen : (d.core w.dst).sealedAt w.addr = false) : Landed w d (d.land w) := by
  rw [Dev.land_bare hb hopen]
  have hcore : ((d.updCore w.dst (fun _ => (d.core w.dst).setWord w.addr w.data)).send (chanOf 3 w.h (if w.cq then 1 else 0))
      (.engineReport w.h w.cq w.seq 4)).core w.dst = (d.core w.dst).setWord w.addr w.data := Dev.core_updCore_self _ _ _
  refine ⟨?_, fun a ha => ?_, Dev.coming_send (d.updCore w.dst _) _ _, ?_⟩
  · rw [hcore, Core.word_setWord, if_pos rfl]
  · rw [hcore, Core.word_setWord, if_neg (Ne.symm ha)]
  · rw [hcore]
    rfl

theorem exec_engineWordLanding (st : State) : exec (.engineWordLanding w) st = onDev (fun _ d =>
    if d.landingBlocked w then d.updCore w.dst (fun c => { c with heldEng := c.heldEng ++ [w] }) else d.land w) st := by
  unfold exec execEngineWordLanding
  rfl

/-- The rest of a landing that was tried again. -/
def takeUpAfter (w : EngWord) (d : Dev) : Dev :=
  if (d.core w.dst).parked.any (fun p => p.src.ofQueue w.h w.cq) ||
      d.net.any (fun f => match f.e with | .engineLandingRetry x => x.dst == w.dst && x.h == w.h && x.cq == w.cq | _ => false)
  then d else d.takeUpEng w.dst w.h w.cq

theorem exec_engineLandingRetry (st : State) : exec (.engineLandingRetry w) st = onDev (fun _ d =>
    if d.wordAway w then d.updCore w.dst (fun c => { c with heldEng := w :: c.heldEng }) else takeUpAfter w (d.land w)) st := by
  unfold exec execEngineLandingRetry takeUpAfter
  rfl

/-- With no word held at the core for the queue, nothing is taken up. -/
theorem takeUpAfter_none {d : Dev} (h : ∀ x, x ∈ (d.core w.dst).heldEng → ¬(x.h = w.h ∧ x.cq = w.cq)) : takeUpAfter w d = d := by
  unfold takeUpAfter Dev.takeUpEng
  split
  · rfl
  · refine if_pos (List.isEmpty_iff.mpr (List.filter_eq_nil_iff.mpr fun x hx hxw => h x hx ?_))
    simpa using hxw

/-- Nothing refuses the word at its core. -/
def plainWord (w : EngWord) (d : Dev) : Prop := (∃ key g, (d.core w.dst).regionOf w.addr = some (key, g) ∧ rgnTbl g = 0) ∧
  (d.core w.dst).sealedAt w.addr = false ∧ d.landingBlocked w = false

theorem engineWordLanding_lands : Event (.engineWordLanding w) (fun _ => plainWord w) (fun _ => Landed w) := by
  refine onDev_event exec_engineWordLanding (fun m d ⟨hb, hopen, hfree⟩ => ?_)
  rw [if_neg (by rw [hfree]; exact Bool.false_ne_true)]
  exact Dev.landed hb hopen

theorem engineLandingRetry_lands : Event (.engineLandingRetry w)
    (fun _ d => plainWord w d ∧ ∀ x, x ∈ (d.core w.dst).heldEng → ¬(x.h = w.h ∧ x.cq = w.cq)) (fun _ => Landed w) := by
  refine onDev_event exec_engineLandingRetry (fun m d ⟨⟨hb, hopen, hfree⟩, hheld⟩ => ?_)
  have hland := Dev.landed hb hopen
  have haway : d.wordAway w = false := by
    unfold Dev.landingBlocked at hfree
    simp only [Bool.or_eq_false_iff] at hfree
    exact hfree.1.1.1
  rw [if_neg (by rw [haway]; exact Bool.false_ne_true), takeUpAfter_none (by rw [hland.held]; exact hheld)]
  exact hland

theorem engineWordLanding_held : Event (.engineWordLanding w) (fun _ d => d.landingBlocked w = true)
    (fun _ d e => e.core w.dst = { d.core w.dst with heldEng := (d.core w.dst).heldEng ++ [w] } ∧ e.net = d.net) := by
  refine onDev_event exec_engineWordLanding (fun m d hb => ?_)
  rw [if_pos hb]
  exact ⟨Dev.core_updCore_self _ _ _, rfl⟩

end

/-- Settles O35: the updates of a step (`QCtx.OnStep.updates`), at roundabouts and homes, and words that land (`Dev.landed`). -/
theorem engineWrites : Obligations.EngineWrites := by
  unfold Obligations.EngineWrites
  refine ⟨fun hd x s rt u => ?_, fun w => ?_⟩
  · have hstep := cpSpred_step (hd := hd) (x := x) (s := s)
    unfold QCtx.update QCtx.spredTgt QCtx.spredWord at hstep
    have henters := spredMerge_enters (rt := rt) (u := u)
    have hpasses := spredMerge_passes (rt := rt) (u := u)
    unfold onward at henters hpasses
    refine ⟨hstep, cpSpred_reserved, spredMerge_joins, ?_, hpasses, spredApply_free, spredApply_waits⟩
    refine henters.mono (fun _ _ _ _ ⟨y, hy, hyu, hc⟩ => ⟨y, hy, hyu, ?_⟩)
    rw [(congrArg Upd.pa hyu : y.pa = _)] at hc
    exact hc
  · exact ⟨engineWordLanding_lands.mono (fun _ _ _ _ h => ⟨h.here, h.others, h.report⟩),
      engineLandingRetry_lands.mono (fun _ _ _ _ h => ⟨h.here, h.others, h.report⟩), engineWordLanding_held⟩

end Sys2Proof.Machine
end

section
/-! PROOFS. The prefix table, and the forms that ask a block's home (R246 to R254). -/

namespace Sys2Proof.Machine

/-! ### The header's home (R250, R253) -/

section
variable {d : Dev} {h n id : Nat} {o : LongOp} {x a : Nat}

/-- A kvlook that has ended. -/
def LongOp.looked (o : LongOp) (frame : W64) : LongOp :=
  match o.kind with
  | .kvlook x a => { o with acc := [], ares := [(x, frame), (a, o.hash)], fin := true }
  | _ => o

theorem LongOp.looked_id (o : LongOp) (frame : W64) : (o.looked frame).id = o.id := by
  unfold LongOp.looked
  split <;> rfl

theorem LongOp.looked_of (hk : o.kind = .kvlook x a) (frame : W64) : o.looked frame = { o with acc := [], ares := [(x, frame), (a, o.hash)], fin := true } := by
  unfold LongOp.looked
  rw [hk]

theorem Dev.lookDone_eq (d : Dev) (h n id : Nat) (frame : W64) : d.lookDone h n id frame = (d.updOp h n id (fun o => o.looked frame)).send 0 (.resultLanding h n id) := by
  unfold Dev.lookDone LongOp.looked
  refine congrArg (fun f => (d.updOp h n id f).send 0 (.resultLanding h n id)) (funext fun o => ?_)
  cases o.kind <;> rfl

/-- A kvlook ends: the frame and the hash are to land. -/
theorem Dev.lookDone_spec (ho : d.op? h n id = some o) (hk : o.kind = .kvlook x a) (frame : W64) :
    (∃ o', (d.lookDone h n id frame).op? h n id = some o' ∧ o'.ares = [(x, frame), (a, o.hash)] ∧ o'.fin = true) ∧
    (d.lookDone h n id frame).groups = d.groups ∧ (d.lookDone h n id frame).coming d.clock (.resultLanding h n id) := by
  rw [Dev.lookDone_eq]
  refine ⟨⟨o.looked frame, ?_, ?_, ?_⟩, rfl, Dev.coming_send (d.updOp h n id _) 0 _⟩
  · exact Dev.op?_updOp (fun o => o.looked_id frame) ho
  · rw [o.looked_of hk]
  · rw [o.looked_of hk]

end

section
variable {pa : Nat} {w : W32}

/-- The four bytes of a header's word at offset 20. -/
theorem headerWord_bytes (hpa : pa % 128 = 0) (w : W32) {k : Nat} (hk : k < 4) : (lineBytes (pa + 20) w.toNat 4).2.getLsbD (20 + k) = true ∧
    Line.byte (lineBytes (pa + 20) w.toNat 4).1 (20 + k) = w.extractLsb' (8 * k) 8 := by
  have hat : (pa + 20) % 128 = 20 := by omega
  have := (newLine_has (fun _ => 0) w (show (pa + 20) % 4 = 0 by omega)).2 k hk
  rw [hat] at this
  exact this

/-- Nothing holds the line at its home. -/
def Dev.clearLine (d : Dev) (pa : Nat) : Prop := d.pending pa = false ∧ d.heldLine (lineOf pa) = false ∧ d.hostLines.contains (lineOf pa) = false

theorem Dev.pending_lineOf (d : Dev) (pa : Nat) (hpa : pa % 128 = 0) : d.pending (lineOf pa) = d.pending pa := by
  rw [show lineOf pa = pa by unfold lineOf; omega]

/-- A one-line group that writes a word at offset 20 of a header's line. -/
theorem Dev.groupNow_header {d : Dev} {l : GLine} (hpa : pa % 128 = 0) (hc : d.clearLine pa) (hl : l.pa = lineOf pa)
    (hb : ∀ k, k < 4 → l.mask.getLsbD (20 + k) = true ∧ Line.byte l.data (20 + k) = w.extractLsb' (8 * k) 8) (fn : Nat) (fin : List Fin) :
    ∃ e, d.groupNow l fn fin = some e ∧ e.cores = d.cores ∧ e.depots = d.depots ∧ e.buckets = d.buckets ∧ e.clock = d.clock ∧
      ∃ g, g ∈ e.groups ∧ g.lines = [l] ∧ l.pa = lineOf pa ∧ g.phase = .two ∧
      (∀ k, k < 4 → l.mask.getLsbD (20 + k) = true ∧ Line.byte l.data (20 + k) = w.extractLsb' (8 * k) 8) ∧ g.fin = fin := by
  obtain ⟨hp, hh, hh'⟩ := hc
  have hnow : d.groupNow l fn fin = some ((({ d with groups := d.groups ++ [⟨d.newGid, [l], .two, [], [homeOf l.pa], fn, none, 0, fin⟩], count := d.newGid + 1 } : Dev).updHome
    (homeOf l.pa) (fun x => { x with pend := x.pend ++ [(l.pa, d.newGid)] })).send 0 (.groupRelease d.newGid (homeOf l.pa))) := by
    unfold Dev.groupNow
    dsimp only
    rw [hl, d.pending_lineOf pa hpa, hp, hh, hh']
    rfl
  exact ⟨_, hnow, rfl, rfl, rfl, rfl, _, List.mem_append_right _ (List.mem_singleton_self _), rfl, hl, rfl, hb, rfl⟩

end

section
variable {h n op pa x y : Nat} {f hash : W64} {tag : W32} {o : LongOp}

theorem exec_lookTest (s : State) : exec (.headerHomeTest (.look h n op pa f hash tag)) s =
    onDev (fun m d => d.lookTest m (.look h n op pa f hash tag) h n op pa f hash tag) s := by
  unfold exec execHeaderHomeTest
  rfl

theorem exec_freeTest (s : State) : exec (.headerHomeTest (.free h n pa f)) s = onDev (fun m d => d.freeTest m (.free h n pa f) h n pa f) s := by
  unfold exec execHeaderHomeTest
  rfl

/-- A header that a lookup hits. -/
def hits (l : Line) (hash : W64) (tag : W32) : Prop := hRefs l ≠ 0#32 ∧ hIns l = true ∧ hHash l = hash ∧ hCtx l = tag

theorem not_hits {l : Line} : (hRefs l == 0#32 || !hIns l || hHash l != hash || hCtx l != tag) = true ↔
    hRefs l = 0#32 ∨ hIns l = false ∨ hHash l ≠ hash ∨ hCtx l ≠ tag := by
  simp only [Bool.or_eq_true, beq_iff_eq, Bool.not_eq_true', bne_iff_ne, or_assoc]

/-- The slots of a core are as they were when a frame's lines leave its L1. -/
theorem Dev.op?_dropFrame (d : Dev) (h n op k : Nat) (f : W64) (stride : Nat) : (d.dropFrame k f stride).op? h n op = d.op? h n op := by
  unfold Dev.op? Dev.dropFrame
  rw [Dev.slot_updCore_of (f := fun c => { c with l1 := ⟨c.l1.ents.filter (fun e => !(decide (f.toNat ≤ e.1) && decide (e.1 < f.toNat + stride)))⟩ }) (fun _ _ => rfl)]

theorem lookTest_hits : Event (.headerHomeTest (.look h n op pa f hash tag))
    (fun m d => pa % 128 = 0 ∧ d.clearLine pa ∧ d.linePoison.contains (lineOf pa) = false ∧ d.op? h n op = some o ∧ o.kind = .kvlook x y ∧
      hits (m.line (lineOf pa)) hash tag)
    (fun m d e => (∃ g l, g ∈ e.groups ∧ g.lines = [l] ∧ l.pa = lineOf pa ∧ g.phase = .two ∧
      ∀ k, k < 4 → l.mask.getLsbD (20 + k) = true ∧ Line.byte l.data (20 + k) = (hRefs (m.line (lineOf pa)) + 1#32).extractLsb' (8 * k) 8) ∧
      e.coming d.clock (.resultLanding h n op) ∧ ∃ o', e.op? h n op = some o' ∧ o'.ares = [(x, f), (y, o.hash)] ∧ o'.fin = true) := by
  refine onDev_event exec_lookTest (fun m d ⟨hpa, hclear, hpoison, ho, hk, hhit⟩ => ?_)
  obtain ⟨e, he, hcores, -, -, hclock, g, hg, hgl, hlpa, hphase, hb, -⟩ := Dev.groupNow_header (l := headerLine f.toNat pa 20 (hRefs (m.line (lineOf pa)) + 1#32).toNat 4)
    (w := hRefs (m.line (lineOf pa)) + 1#32) hpa hclear rfl (fun k hk => headerWord_bytes hpa _ hk) (d.fnOf (d.slot h n).lk) (.nothing :: (d.slot h n).taskFin)
  unfold Dev.lookTest
  rw [hclear.1, hpoison, if_neg Bool.false_ne_true, if_neg Bool.false_ne_true]
  dsimp only
  rw [if_neg (by rw [not_hits]; obtain ⟨h1, h2, h3, h4⟩ := hhit; simp [h1, h2, h3, h4]), he]
  dsimp only
  have hop : (e.dropFrame h f (256 + 32 * hRb (m.line (lineOf pa)))).op? h n op = some o := by
    rw [Dev.op?_dropFrame, Dev.op?, Dev.slot, Dev.core, hcores, ← Dev.core, ← Dev.slot, ← Dev.op?, ho]
  obtain ⟨hend, hgroups, hcoming⟩ := Dev.lookDone_spec hop hk f
  refine ⟨⟨g, _, ?_, hgl, hlpa, hphase, hb⟩, ?_, hend⟩
  · rw [hgroups]
    exact hg
  · rw [← hclock]
    exact hcoming

theorem lookTest_misses : Event (.headerHomeTest (.look h n op pa f hash tag))
    (fun m d => d.pending pa = false ∧ d.linePoison.contains (lineOf pa) = false ∧ d.op? h n op = some o ∧ o.kind = .kvlook x y ∧
      (d.visit (d.fnOf (d.slot h n).lk) false [pa]).2 = true ∧ (hRefs (m.line (lineOf pa)) = 0#32 ∨ hIns (m.line (lineOf pa)) = false ∨
        hHash (m.line (lineOf pa)) ≠ hash ∨ hCtx (m.line (lineOf pa)) ≠ tag))
    (fun _ d e => e.groups = d.groups ∧ ∃ o', e.op? h n op = some o' ∧ o'.ares = [(x, 0#64), (y, o.hash)] ∧ o'.fin = true) := by
  refine onDev_event exec_lookTest (fun m d ⟨hpend, hpoison, ho, hk, hvisit, hmiss⟩ => ?_)
  have hon := d.visit_quaysOnly (d.fnOf (d.slot h n).lk) false [pa] false
  unfold Dev.lookTest
  rw [hpend, hpoison, if_neg Bool.false_ne_true, if_neg Bool.false_ne_true]
  dsimp only
  rw [if_pos (not_hits.mpr hmiss)]
  split
  · next e he =>
    rw [he] at hon
    obtain ⟨hend, hgroups, -⟩ := Dev.lookDone_spec (d := e) (by rw [Dev.op?, hon.slot, ← Dev.op?, ho]) hk 0#64
    exact ⟨hgroups.trans hon.groups, hend⟩
  · next e he => exact absurd hvisit (by rw [he]; exact Bool.false_ne_true)

/-- The line of a header whose holdings are counted down. -/
def freeLine (f : W64) (pa : Nat) (left : W32) : GLine :=
  if left = 0#32 then ⟨lineOf f.toNat, lineOf pa, (lineBytes (pa + 20) left.toNat 4).1 ||| (lineBytes (pa + 7) 0 1).1,
    (lineBytes (pa + 20) left.toNat 4).2 ||| (lineBytes (pa + 7) 0 1).2, none⟩
  else ⟨lineOf f.toNat, lineOf pa, (lineBytes (pa + 20) left.toNat 4).1, (lineBytes (pa + 20) left.toNat 4).2, none⟩

theorem freeLine_word (hpa : pa % 128 = 0) (left : W32) {k : Nat} (hk : k < 4) : (freeLine f pa left).mask.getLsbD (20 + k) = true ∧
    Line.byte (freeLine f pa left).data (20 + k) = left.extractLsb' (8 * k) 8 := by
  obtain ⟨hm, hd⟩ := headerWord_bytes hpa left hk
  unfold freeLine
  split
  · have hz : (lineBytes (pa + 7) 0 1).1 = 0#1024 := by
      unfold lineBytes
      simp
    dsimp only
    rw [BitVec.getLsbD_or, hm, hz, BitVec.or_zero]
    exact ⟨rfl, hd⟩
  · exact ⟨hm, hd⟩

theorem Dev.groups_setEnt (d : Dev) (b i : Nat) (e : BitVec 128) : (d.setEnt b i e).groups = d.groups := rfl

theorem freeTest_frees : Event (.headerHomeTest (.free h n pa f)) (fun m d => pa % 128 = 0 ∧ d.clearLine pa ∧ hRefs (m.line (lineOf pa)) ≠ 0#32)
    (fun m d e => ∃ g l, g ∈ e.groups ∧ g.lines = [l] ∧ l.pa = lineOf pa ∧ g.phase = .two ∧
      (∀ k, k < 4 → l.mask.getLsbD (20 + k) = true ∧ Line.byte l.data (20 + k) = (hRefs (m.line (lineOf pa)) - 1#32).extractLsb' (8 * k) 8) ∧
      Fin.reply h n ((hRefs (m.line (lineOf pa)) - 1#32).setWidth 64) ∈ g.fin ∧
      (hRefs (m.line (lineOf pa)) = 1#32 → Fin.push (hDep (m.line (lineOf pa))) (hPool (m.line (lineOf pa)))
        (((d.pool (hDep (m.line (lineOf pa))) (hPool (m.line (lineOf pa)))).index f.toNat).getD 0) ∈ g.fin)) := by
  refine onDev_event exec_freeTest (fun m d ⟨hpa, hclear, hrefs⟩ => ?_)
  obtain ⟨l, hl⟩ : ∃ l, l = m.line (lineOf pa) := ⟨_, rfl⟩
  rw [← hl] at hrefs ⊢
  obtain ⟨left, hleft⟩ : ∃ left, left = hRefs l - 1#32 := ⟨_, rfl⟩
  obtain ⟨fin, hfin⟩ : ∃ fin, fin = (.reply h n (left.setWidth 64) ::
    (if (left == 0#32) = true then [.push (hDep l) (hPool l) (((d.pool (hDep l) (hPool l)).index f.toNat).getD 0)] else [])) ++ (d.slot h n).taskFin := ⟨_, rfl⟩
  obtain ⟨e, he, -, -, -, -, g, hg, hgl, hlpa, hphase, hb, hgf⟩ := Dev.groupNow_header (l := freeLine f pa left) (w := left) hpa hclear
    (by unfold freeLine; split <;> rfl) (fun k hk => freeLine_word hpa left hk) (d.fnOf (d.slot h n).lk) fin
  have hend : ∀ e' : Dev, e'.groups = e.groups → ∃ g l', g ∈ e'.groups ∧ g.lines = [l'] ∧ l'.pa = lineOf pa ∧ g.phase = .two ∧
      (∀ k, k < 4 → l'.mask.getLsbD (20 + k) = true ∧ Line.byte l'.data (20 + k) = left.extractLsb' (8 * k) 8) ∧
      Fin.reply h n (left.setWidth 64) ∈ g.fin ∧
      (hRefs l = 1#32 → Fin.push (hDep l) (hPool l) (((d.pool (hDep l) (hPool l)).index f.toNat).getD 0) ∈ g.fin) := fun e' he' => by
    refine ⟨g, _, he' ▸ hg, hgl, hlpa, hphase, hb, ?_, fun h1 => ?_⟩
    · rw [hgf, hfin]
      exact List.mem_cons_self
    · rw [hgf, hfin, hleft, h1]
      exact List.mem_append_left _ (List.mem_cons_of_mem _ (List.mem_singleton_self _))
  unfold Dev.freeTest
  rw [hclear.1, if_neg Bool.false_ne_true]
  dsimp only
  rw [← hl, if_neg (by simpa using hrefs), ← hleft]
  have hline : (if (left == 0#32) = true then (⟨lineOf f.toNat, lineOf pa, (lineBytes (pa + 20) left.toNat 4).1 ||| (lineBytes (pa + 7) 0 1).1,
      (lineBytes (pa + 20) left.toNat 4).2 ||| (lineBytes (pa + 7) 0 1).2, none⟩ : GLine)
      else ⟨lineOf f.toNat, lineOf pa, (lineBytes (pa + 20) left.toNat 4).1, (lineBytes (pa + 20) left.toNat 4).2, none⟩) = freeLine f pa left := by
    unfold freeLine
    by_cases h0 : left = 0#32 <;> simp [h0]
  rw [hline, ← hfin, he]
  dsimp only
  split
  · exact hend e rfl
  · split
    · exact hend _ (Dev.groups_setEnt _ _ _ _)
    · exact hend e rfl

theorem freeTest_fails : Event (.headerHomeTest (.free h n pa f)) (fun m d => h < nCores ∧ d.pending pa = false ∧ hRefs (m.line (lineOf pa)) = 0#32 ∧
      (d.slot h n).reply ≠ .stale ∧ (d.visit (d.fnOf (d.slot h n).lk) false [pa]).2 = true)
    (fun _ d e => (e.slot h n).reply = .fail 0x72 2 ∧ e.groups = d.groups) := by
  refine onDev_event exec_freeTest (fun m d ⟨hh, hpend, hrefs, hstale, hvisit⟩ => ?_)
  have hon := d.visit_quaysOnly (d.fnOf (d.slot h n).lk) false [pa] false
  unfold Dev.freeTest
  rw [hpend, if_neg Bool.false_ne_true]
  dsimp only
  rw [if_pos (by simp [hrefs])]
  split
  · next e he =>
    rw [he] at hon
    refine ⟨Dev.reply_reply hh (by rw [hon.slot]; exact hstale) _, ?_⟩
    rw [Dev.groups_reply, hon.groups]
  · next e he => exact absurd hvisit (by rw [he]; exact Bool.false_ne_true)

end

/-! ### The prefix table (R247 to R251) -/

section
variable {d : Dev} {b i j : Nat} {e : BitVec 128}

/-- A bucket with an entry replaced. -/
def bucketWith (v : V512) (i : Nat) (e : BitVec 128) : V512 :=
  (v &&& ~~~((BitVec.allOnes 128).setWidth 512 <<< (128 * i))) ||| (e.setWidth 512 <<< (128 * i))

theorem bucketEnt_bucketWith (v : V512) (e : BitVec 128) (hi : i < 4) (hj : j < 4) : bucketEnt (bucketWith v i e) j = if j = i then e else bucketEnt v j := by
  refine BitVec.eq_of_getLsbD_eq (fun k hk => ?_)
  have hlt : 128 * j + k < 512 := by omega
  unfold bucketEnt bucketWith
  rw [BitVec.getLsbD_extractLsb', BitVec.getLsbD_or, BitVec.getLsbD_and, BitVec.getLsbD_not, BitVec.getLsbD_shiftLeft, BitVec.getLsbD_shiftLeft,
    BitVec.getLsbD_setWidth, BitVec.getLsbD_setWidth, BitVec.getLsbD_allOnes, decide_eq_true hk, decide_eq_true hlt]
  by_cases hji : j = i
  · rw [if_pos hji, hji, show 128 * i + k - 128 * i = k by omega, decide_eq_true hk, decide_eq_false (by omega : ¬ 128 * i + k < 128 * i),
      decide_eq_true (by omega : k < 512)]
    simp
  · rw [if_neg hji, BitVec.getLsbD_extractLsb', decide_eq_true hk]
    rcases Nat.lt_or_ge j i with hlt' | hge
    · rw [decide_eq_true (by omega : 128 * j + k < 128 * i)]
      simp
    · rw [decide_eq_false (by omega : ¬ 128 * j + k - 128 * i < 128), BitVec.getLsbD_of_ge e _ (by omega)]
      simp

theorem Dev.bucket_setEnt (d : Dev) (b i : Nat) (e : BitVec 128) (b' : Nat) : (d.setEnt b i e).bucket b' = if b' = b then bucketWith (d.bucket b) i e else d.bucket b' := by
  have hv : (d.setEnt b i e).buckets = if (bucketWith (d.bucket b) i e == 0#512) = true then d.buckets.erase b else d.buckets.put b (bucketWith (d.bucket b) i e) := rfl
  unfold Dev.bucket at hv ⊢
  rw [hv]
  split
  · next h0 =>
    rw [AMap.get, AMap.find?_erase]
    split
    · rw [eq_of_beq h0]
      rfl
    · rfl
  · split
    · next hb => rw [hb, AMap.get_put_self]
    · next hb => exact AMap.get_put_ne _ _ _ _ _ hb

/-- An element found is the only one that there is to be found. -/
theorem find?_eq_some_of_unique {α : Type} {p : α → Bool} {l : List α} {x : α} (hx : x ∈ l) (hp : p x = true) (hu : ∀ y, y ∈ l → p y = true → y = x) :
    l.find? p = some x := by
  obtain ⟨y, hy⟩ := Option.isSome_iff_exists.mp (List.find?_isSome.mpr ⟨x, hx, hp⟩)
  rw [hy, hu y (List.mem_of_find?_eq_some hy) (List.find?_some hy)]

theorem entMatches_self (h : entValid e = true) : entMatches e (entHash e) (entCtx e) = true := by
  unfold entMatches
  rw [h, beq_self_eq_true, beq_self_eq_true]
  rfl

/-- A new entry is found by its hash and tag, where none was found before. -/
theorem Dev.findEnt_setEnt (hi : i < 4) (hv : entValid e = true)
    (hno : ∀ z, z ∈ (List.range 4).map (bucketEnt (d.bucket b)) → entMatches z (entHash e) (entCtx e) = false) :
    (d.setEnt b i e).findEnt (entHash e) (entCtx e) = if b = bucketOf (entHash e) then some e else d.findEnt (entHash e) (entCtx e) := by
  unfold Dev.findEnt
  rw [Dev.bucket_setEnt]
  by_cases hb : b = bucketOf (entHash e)
  · rw [if_pos hb, if_pos hb.symm]
    refine find?_eq_some_of_unique (List.mem_map.mpr ⟨i, List.mem_range.mpr hi, ?_⟩) (entMatches_self hv) (fun y hy hym => ?_)
    · rw [bucketEnt_bucketWith _ _ hi hi, if_pos rfl]
    · obtain ⟨j, hj, rfl⟩ := List.mem_map.mp hy
      rw [bucketEnt_bucketWith _ _ hi (List.mem_range.mp hj)] at hym ⊢
      split at hym
      · next hji => rw [if_pos hji]
      · exact absurd hym (by rw [hno _ (List.mem_map.mpr ⟨j, hj, rfl⟩)]; exact Bool.false_ne_true)
  · rw [if_neg hb, if_neg (Ne.symm hb)]

theorem Dev.buckets_wakeSlot (d : Dev) (h n : Nat) (p : WaitFor → Bool) : (d.wakeSlot h n p).buckets = d.buckets := by
  unfold Dev.wakeSlot
  split
  · split <;> rfl
  · rfl

theorem Dev.buckets_reply (d : Dev) (h n : Nat) (r : Reply) : (d.reply h n r).buckets = d.buckets := by
  unfold Dev.reply
  split
  · rfl
  · split
    · rfl
    · exact Dev.buckets_wakeSlot _ _ _ _

theorem Dev.findEnt_congr {d e : Dev} (h : e.buckets = d.buckets) (hash : W64) (tag : W32) : e.findEnt hash tag = d.findEnt hash tag := by
  unfold Dev.findEnt Dev.bucket
  rw [h]

end

/-- The tests of an insertion, where its line is released. -/
theorem groupTest_insert (m : Memory) (d : Dev) {g : Grp} (ls : List GLine) {h n bk : Nat} {e : BitVec 128} {rest : List Fin}
    (hfin : g.fin = Fin.insert h n bk e :: rest) (hh : h < nCores) (hs : (d.slot h n).reply ≠ .stale) :
    let es := (List.range 4).map (bucketEnt (d.bucket bk))
    let t := Dev.groupTest m d g ls
    let same := es.any (fun z => entMatches z (entHash e) (entCtx e))
    (same = true → t.1 = false ∧ (t.2.slot h n).reply = .done 0#64 ∧ t.2.buckets = d.buckets) ∧
    (same = false → es.all entValid = true → t.1 = false ∧ (t.2.slot h n).reply = .done 2#64 ∧ t.2.buckets = d.buckets) ∧
    (same = false → es.all entValid = false → entValid e = true → t.1 = true ∧ (t.2.slot h n).reply = .done 1#64 ∧
      t.2.findEnt (entHash e) (entCtx e) = if bk = bucketOf (entHash e) then some e else d.findEnt (entHash e) (entCtx e)) := by
  dsimp only
  unfold Dev.groupTest
  rw [hfin]
  dsimp only
  refine ⟨fun hsame => ?_, fun hsame hall => ?_, fun hsame hall hv => ?_⟩
  · rw [if_pos hsame]
    exact ⟨rfl, Dev.reply_reply hh hs _, d.buckets_reply _ _ _⟩
  · rw [if_neg (by rw [hsame]; exact Bool.false_ne_true)]
    have hnone : (List.range 4).find? (fun i => !entValid (bucketEnt (d.bucket bk) i)) = none := List.find?_eq_none.mpr fun i hi => by
      rw [List.all_eq_true.mp hall _ (List.mem_map_of_mem hi)]
      exact Bool.false_ne_true
    rw [hnone]
    exact ⟨rfl, Dev.reply_reply hh hs _, d.buckets_reply _ _ _⟩
  · rw [if_neg (by rw [hsame]; exact Bool.false_ne_true)]
    obtain ⟨i, hi⟩ : ∃ i, (List.range 4).find? (fun i => !entValid (bucketEnt (d.bucket bk) i)) = some i := by
      refine Option.isSome_iff_exists.mp (List.find?_isSome.mpr ?_)
      obtain ⟨z, hz, hzv⟩ := List.all_eq_false.mp hall
      obtain ⟨i, hi, rfl⟩ := List.mem_map.mp hz
      exact ⟨i, hi, by simpa using hzv⟩
    rw [hi]
    have hlt : i < 4 := List.mem_range.mp (List.mem_of_find?_eq_some hi)
    refine ⟨rfl, Dev.reply_reply (d := d.setEnt bk i e) hh hs _, ?_⟩
    rw [Dev.findEnt_congr (Dev.buckets_reply _ _ _ _)]
    exact Dev.findEnt_setEnt hlt hv (fun z hz => by simpa using List.any_eq_false.mp hsame z hz)

/-! ### kvlook (R250) -/

section
variable {la : BitVec 4} {d a : AReg} {v : VReg}

/-- The chain that a kvlook looks up. -/
def Ctx.chain (c : Ctx) (a : AReg) (v : VReg) : W64 := kvChain (c.s.A a.toNat) ((List.range 16).map (lane (c.s.V v.toNat)))

/-- The frame of a matching entry. -/
def Ctx.lookFrame (c : Ctx) (hash : W64) : Option W64 := (c.d.findEnt hash c.tag).bind (fun e =>
  if (c.d.pool (entDep e) (entPool e)).of (terrOf c.s.lk) && decide (entIndex e < (c.d.pool (entDep e) (entPool e)).count)
  then some ((c.d.pool (entDep e) (entPool e)).frame (entIndex e)) else none)

/-- A kvlook at issue. -/
def Ctx.lookOp (c : Ctx) (d a : AReg) (hash f : W64) (acc : List Acc) : LongOp :=
  ⟨c.d.count, c.s.pc, .kvlook d.toNat a.toNat, [], [d.toNat, a.toNat], 0#16, false, acc, [], [], f, hash, false⟩

/-- The device with a kvlook outstanding. -/
def Ctx.looking (c : Ctx) (d a : AReg) (hash f : W64) (acc : List Acc) : Dev :=
  { (if c.s.ownTask == 0#32 || acc.isEmpty then c.d else c.d.setSig c.s.lk c.s.ownTask (lineOf f.toNat)).updSlot c.h c.n
    (fun s => { s with ops := s.ops ++ [c.lookOp d a hash f acc] }) with count := c.d.count + 1 }

/-- What a kvlook does once its group is empty. -/
def Ctx.kvlook (c : Ctx) (d a : AReg) (v : VReg) : Res :=
  match c.lookFrame (c.chain a v) with
  | none => .done ((c.looking d a (c.chain a v) 0#64 []).lookDone c.h c.n c.d.count 0#64)
  | some f => .done ((c.looking d a (c.chain a v) f [⟨0, 0, f, .xlat, 0#1024, 0#128, 0⟩]).resolve c.m c.h c.n c.d.count 0)

theorem exec_kvlook (s : State) : exec (.kvlook la d a v) s =
    thread ((useV [v] [wa d, ra a, wa a, rv v]).long la) (fun c => c.unspec (fun c => c.release (fun c => c.kvlook d a v))) s := by
  unfold exec execKvlook specForm
  rfl

/-- The slot with another instruction outstanding. -/
def Slot.withOp (s : Slot) (o : LongOp) : Slot := { s with ops := s.ops ++ [o] }

section
variable {c : Ctx} {hash f : W64} {acc : List Acc}

/-- What a lookup reads of a device but for its tasks. -/
def Dev.taskless (d : Dev) : Dev := { d with tasks := .empty }

theorem Dev.taskless_setSig (d : Dev) (lk : Nat) (id : W32) (va : Nat) : (d.setSig lk id va).taskless = d.taskless := by
  unfold Dev.setSig Dev.updTask
  split <;> rfl

/-- The device in which a kvlook takes its place among the outstanding instructions. -/
def Ctx.signed (c : Ctx) (f : W64) (acc : List Acc) : Dev :=
  if c.s.ownTask == 0#32 || acc.isEmpty then c.d else c.d.setSig c.s.lk c.s.ownTask (lineOf f.toNat)

theorem Ctx.taskless_signed (c : Ctx) (f : W64) (acc : List Acc) : (c.signed f acc).taskless = c.d.taskless := by
  unfold Ctx.signed
  split
  · rfl
  · exact Dev.taskless_setSig _ _ _ _

theorem Ctx.core_signed (c : Ctx) (f : W64) (acc : List Acc) (t : Nat) : (c.signed f acc).core t = c.d.core t :=
  (congrArg (fun d => Dev.core d t) (c.taskless_signed f acc) :)

theorem Ctx.looking_eq (c : Ctx) (d a : AReg) (hash f : W64) (acc : List Acc) : c.looking d a hash f acc =
    { (c.signed f acc).updSlot c.h c.n (fun s => { s with ops := s.ops ++ [c.lookOp d a hash f acc] }) with count := c.d.count + 1 } := rfl

theorem Ctx.clock_looking (c : Ctx) (d a : AReg) (hash f : W64) (acc : List Acc) : (c.looking d a hash f acc).clock = c.d.clock :=
  (congrArg Dev.clock (c.taskless_signed f acc) :)

theorem Ctx.slot_looking (hown : c.d.slot c.h c.n = c.s) : (c.looking d a hash f acc).slot c.h c.n = c.s.withOp (c.lookOp d a hash f acc) := by
  refine (Dev.slot_updSlot_self (c.signed f acc) c.h c.n (fun s => { s with ops := s.ops ++ [c.lookOp d a hash f acc] })).trans ?_
  rw [Dev.slot, Ctx.core_signed, ← Dev.slot, hown]
  rfl

theorem Ctx.op?_looking (hown : c.d.slot c.h c.n = c.s) (hfresh : ∀ o, o ∈ c.s.ops → o.id ≠ c.d.count) :
    (c.looking d a hash f acc).op? c.h c.n c.d.count = some (c.lookOp d a hash f acc) := by
  have hnone : c.s.ops.find? (fun y => y.id == c.d.count) = none := List.find?_eq_none.mpr fun y hy => by simpa using hfresh y hy
  unfold Dev.op?
  rw [Ctx.slot_looking hown]
  unfold Slot.withOp
  rw [List.find?_append, hnone, Option.none_or]
  simp [Ctx.lookOp]

/-- A lookup without a frame ends at once: its answer, 0 and the hash, is on its way. -/
theorem Ctx.kvlook_none (hown : c.d.slot c.h c.n = c.s) (hnone : c.lookFrame (c.chain a v) = none) : ∃ e ops, c.kvlook d a v = .done e ∧
    e.slot c.h c.n = { c.s with ops := ops } ∧ ∃ o, o ∈ ops ∧ o.ad = [d.toNat, a.toNat] ∧
      o.ares = [(d.toNat, 0#64), (a.toNat, c.chain a v)] ∧ e.coming c.d.clock (.resultLanding c.h c.n o.id) := by
  unfold Ctx.kvlook
  rw [hnone, Dev.lookDone_eq]
  dsimp only
  obtain ⟨e, he⟩ : ∃ e, e = c.looking d a (c.chain a v) 0#64 [] := ⟨_, rfl⟩
  have hslot : e.slot c.h c.n = c.s.withOp (c.lookOp d a (c.chain a v) 0#64 []) := he ▸ Ctx.slot_looking hown
  have hclock : e.clock = c.d.clock := he ▸ c.clock_looking _ _ _ _ _
  rw [← he]
  refine ⟨_, (e.slot c.h c.n).ops.map (fun o => if o.id == c.d.count then o.looked 0#64 else o), rfl, ?_, ?_⟩
  · refine (Dev.slot_updSlot_self e c.h c.n _).trans ?_
    rw [hslot]
    rfl
  · refine ⟨(c.lookOp d a (c.chain a v) 0#64 []).looked 0#64, ?_, rfl, rfl, hclock ▸ Dev.coming_send (e.updOp c.h c.n c.d.count _) 0 _⟩
    rw [hslot]
    exact List.mem_map.mpr ⟨_, List.mem_append_right _ (List.mem_singleton_self _), if_pos (beq_self_eq_true c.d.count)⟩

/-- A lookup whose frame is mapped goes to the home of the frame's header. -/
theorem Ctx.kvlook_some {pa : Nat} {lf : Leaf} (hown : c.d.slot c.h c.n = c.s) (hf : c.lookFrame (c.chain a v) = some f) (ht : c.d.translate c.m (c.s.who c.h) [.r] f = .ok pa lf)
    (hfresh : ∀ o, o ∈ c.s.ops → o.id ≠ c.d.count) : ∃ e ops, c.kvlook d a v = .done e ∧
    e.slot c.h c.n = { c.s with ops := ops } ∧ ∃ o, o ∈ ops ∧ o.ad = [d.toNat, a.toNat] ∧ o.kind = .kvlook d.toNat a.toNat ∧
      e.coming c.d.clock (.headerHomeTest (.look c.h c.n o.id pa f (c.chain a v) c.tag)) := by
  unfold Ctx.kvlook
  rw [hf]
  dsimp only
  obtain ⟨e, he⟩ : ∃ e, e = c.looking d a (c.chain a v) f [⟨0, 0, f, .xlat, 0#1024, 0#128, 0⟩] := ⟨_, rfl⟩
  obtain ⟨o, ho⟩ : ∃ o, o = c.lookOp d a (c.chain a v) f [⟨0, 0, f, .xlat, 0#1024, 0#128, 0⟩] := ⟨_, rfl⟩
  have hslot : e.slot c.h c.n = c.s.withOp o := he ▸ ho ▸ Ctx.slot_looking hown
  have hop : e.op? c.h c.n c.d.count = some o := he ▸ ho ▸ Ctx.op?_looking hown hfresh
  have hless := c.taskless_signed f [⟨0, 0, f, .xlat, 0#1024, 0#128, 0⟩]
  have hbare : ∀ t, (e.core t).bare = (c.d.core t).bare := fun t => by
    rw [← c.core_signed f [⟨0, 0, f, .xlat, 0#1024, 0#128, 0⟩] t, he, Ctx.looking_eq]
    exact Dev.core_updSlot_bare _ _ _ _ _
  have hxl : e.xl = c.d.xl := he ▸ (congrArg Dev.xl hless :)
  have hterr : ∀ t, e.terrace t = c.d.terrace t := fun t => he ▸ (congrArg (fun d => Dev.terrace d t) hless :)
  have hpend : ∀ p, e.pending p = c.d.pending p := fun p => he ▸ (congrArg (fun d => Dev.pending d p) hless :)
  have hcourts : e.courts = c.d.courts := he ▸ (congrArg Dev.courts hless :)
  have hclock : e.clock = c.d.clock := he ▸ c.clock_looking _ _ _ _ _
  have htr : e.translate c.m (c.s.who c.h) [.r] f = .ok pa lf :=
    Dev.translate_ok_of hxl (fun t => (congrArg Core.plb (hbare t) :)) hterr hpend
      (fun t => by rw [Dev.court, hcourts, ← Dev.court]) ht
  have hacc : o.acc[0]? = some ⟨0, 0, f, .xlat, 0#1024, 0#128, 0⟩ := by rw [ho]; rfl
  have hfill := e.coreAndQuays_fillPlb c.m (c.s.who c.h) lf.dom
  have hfslot : ∀ g : LongOp → LongOp, ((e.fillPlb c.m (c.s.who c.h) lf.dom).updOp c.h c.n c.d.count g).slot c.h c.n =
      { c.s with ops := (c.s.ops ++ [o]).map (fun o => if o.id == c.d.count then g o else o) } := fun g => by
    refine (Dev.slot_updSlot_self _ c.h c.n _).trans ?_
    rw [hfill.slots, hslot]
    rfl
  have hfterr : ∀ (g : LongOp → LongOp) (t : Nat), ((e.fillPlb c.m (c.s.who c.h) lf.dom).updOp c.h c.n c.d.count g).terrace t = c.d.terrace t := fun g t =>
    ((congrArg (fun d => Dev.terrace d t) hfill.calm :) : (e.fillPlb c.m (c.s.who c.h) lf.dom).terrace t = e.terrace t).trans (hterr t)
  have hres : e.resolve c.m c.h c.n c.d.count 0 = ((e.fillPlb c.m (c.s.who c.h) lf.dom).updOp c.h c.n c.d.count
      (fun o => o.updAcc 0 (fun a => { a with st := .home pa }))).send 0 (.headerHomeTest (.look c.h c.n c.d.count pa f (c.chain a v) c.tag)) := by
    unfold Dev.resolve
    rw [hop]
    dsimp only
    rw [hacc]
    dsimp only
    rw [hslot, show (c.s.withOp o).who c.h = c.s.who c.h from rfl, show o.kind.need = [.r] by rw [ho]; rfl, htr]
    dsimp only
    unfold Dev.toHome
    rw [show o.kind = .kvlook d.toNat a.toNat by rw [ho]; rfl, show o.id = c.d.count by rw [ho]; rfl]
    dsimp only
    rw [hfslot, hfterr, ho]
    rfl
  rw [← he, hres]
  refine ⟨_, _, rfl, (hfslot _).trans rfl, o.updAcc 0 (fun a => { a with st := .home pa }), ?_, by rw [ho]; rfl, by rw [ho]; rfl, ?_⟩
  · exact List.mem_map.mpr ⟨o, List.mem_append_right _ (List.mem_singleton_self _), if_pos (by rw [ho]; exact beq_self_eq_true c.d.count)⟩
  · rw [show (o.updAcc 0 (fun a => { a with st := .home pa })).id = c.d.count by rw [ho]; rfl, ← hclock]
    have hfclock : (e.fillPlb c.m (c.s.who c.h) lf.dom).clock = e.clock := (congrArg Dev.clock hfill.calm :)
    rw [← hfclock]
    exact Dev.coming_send ((e.fillPlb c.m (c.s.who c.h) lf.dom).updOp c.h c.n c.d.count _) 0 _

end

/-- The use of kvlook. -/
def useKvlook (la : BitVec 4) (d a : AReg) (v : VReg) : Use := (useV [v] [wa d, ra a, wa a, rv v]).long la

/-- A quiet slot's context once its group has been closed. -/
def Ctx.closed (c : Ctx) : Ctx := { c with d := c.d.setSlot c.h c.n { c.s with closed := true }, s := { c.s with closed := true } }

theorem Ctx.quiet.kvlook {c : Ctx} (hq : c.quiet) (hc : c.Ready) : c.unspec (fun c => c.release (fun c => c.kvlook d a v)) = c.closed.kvlook d a v := by
  rw [hq.sure.unspec]
  exact hq.release hc _

theorem Ctx.bare_closed (c : Ctx) (t : Nat) : (c.closed.d.core t).bare = (c.d.core t).bare := Dev.core_updSlot_bare _ _ _ _ _

theorem Ctx.closed_own (c : Ctx) : c.closed.d.slot c.closed.h c.closed.n = c.closed.s := Dev.slot_setSlot_self _ _ _ _

/-- An entry found outside the launch's pools gives no frame either. -/
theorem kvlook_nothing : Acts (.kvlook la d a v) (useKvlook la d a v) (fun c => c.quiet ∧ c.d.findEnt (c.chain a v) c.tag = none) [] [] []
    (fun c e => ∃ o, o ∈ (e.slot c.h c.n).ops ∧ o.ad = [d.toNat, a.toNat] ∧ o.ares = [(d.toNat, 0#64), (a.toNat, c.chain a v)] ∧
      e.coming c.d.clock (.resultLanding c.h c.n o.id)) := by
  refine acts_of (u := useKvlook la d a v) exec_kvlook (fun c hc ⟨hq, hnone⟩ => ?_)
  rw [hq.kvlook hc]
  obtain ⟨e, ops, he, hslot, o, ho, had, hares, hcoming⟩ := Ctx.kvlook_none (d := d) (a := a) (v := v) c.closed_own (by
    unfold Ctx.lookFrame
    rw [show c.closed.d.findEnt (c.closed.chain a v) c.closed.tag = none from hnone]
    rfl)
  have hslot' : e.slot c.h c.n = { c.closed.s with ops := ops } := hslot
  refine ⟨e, he, ?_, o, ?_, had, hares, ?_⟩
  · rw [hslot']
    exact .of_files rfl rfl rfl
  · rw [Ctx.finish_slot _ _ _ _ hc.step, hslot']
    exact ho
  · unfold Dev.coming
    rw [Ctx.finish_net]
    exact hcoming

theorem kvlook_finds (f : W64) (pa : Nat) (ent : BitVec 128) : Acts (.kvlook la d a v) (useKvlook la d a v)
    (fun c => c.quiet ∧ c.d.findEnt (c.chain a v) c.tag = some ent ∧ (c.d.pool (entDep ent) (entPool ent)).of (terrOf c.s.lk) = true ∧
      entIndex ent < (c.d.pool (entDep ent) (entPool ent)).count ∧ f = (c.d.pool (entDep ent) (entPool ent)).frame (entIndex ent) ∧
      c.mapped [.r] f pa ∧ ∀ o, o ∈ c.s.ops → o.id ≠ c.d.count) [] [] []
    (fun c e => ∃ o, o ∈ (e.slot c.h c.n).ops ∧ o.ad = [d.toNat, a.toNat] ∧ o.kind = .kvlook d.toNat a.toNat ∧
      e.coming c.d.clock (.headerHomeTest (.look c.h c.n o.id pa f (c.chain a v) c.tag))) := by
  refine acts_of (u := useKvlook la d a v) exec_kvlook (fun c hc ⟨hq, hent, hof, hix, hf, hm, hfresh⟩ => ?_)
  rw [hq.kvlook hc]
  have hframe : c.closed.lookFrame (c.closed.chain a v) = some f := by
    have hent' : c.closed.d.findEnt (c.closed.chain a v) c.closed.tag = some ent := hent
    unfold Ctx.lookFrame
    rw [hent', Option.bind_some]
    refine (if_pos (Bool.and_eq_true_iff.mpr ⟨hof, decide_eq_true hix⟩)).trans (congrArg some hf.symm)
  obtain ⟨lf, -, ht⟩ := Ctx.translate_mapped hm
  have ht' : c.closed.d.translate c.closed.m (c.closed.s.who c.closed.h) [.r] f = .ok pa lf :=
    Dev.translate_ok_of (d := c.d) (e := c.closed.d) rfl (fun t => (congrArg Core.plb (c.bare_closed t) :)) (fun _ => rfl)
      (fun _ => rfl) (fun _ => rfl) ht
  obtain ⟨e, ops, he, hslot, o, ho, had, hkind, hcoming⟩ := Ctx.kvlook_some (d := d) (a := a) (v := v) c.closed_own hframe ht' hfresh
  have hslot' : e.slot c.h c.n = { c.closed.s with ops := ops } := hslot
  refine ⟨e, he, ?_, o, ?_, had, hkind, ?_⟩
  · rw [hslot']
    exact .of_files rfl rfl rfl
  · rw [Ctx.finish_slot _ _ _ _ hc.step, hslot']
    exact ho
  · unfold Dev.coming
    rw [Ctx.finish_net]
    exact hcoming

end

/-! ### Forms that ask a block's home (R251, R253, R254) -/

section
variable {d a b : AReg}

theorem exec_kvfree (s : State) : exec (.kvfree d a) s = thread (useA [wa d, ra a]) (fun c => c.unspec (fun c =>
    c.askHome (c.s.A a.toNat) (c.exclusiveBlock (c.s.A a.toNat)) (fun c' pa _ => c'.d.send 0 (.headerHomeTest (.free c'.h c'.n pa (c.s.A a.toNat))))
      (fun v => c.done (c.s.setA d.toNat v)))) s := by
  unfold exec execKvfree specForm
  rfl

/-- The first test of kvins: a full block that is not inserted yet. -/
def Ctx.insBlock (c : Ctx) (f : W64) (k : Ctx → Line → Nat → Res) : Res := c.exclusiveBlock f (fun c l pa =>
  if !c.s.closed && (hCount l != 16 || hIns l) then c.faultAt 0x72 7 f else k c l pa)

/-- The group that a kvins sends. -/
def Ctx.insSend (f hash : W64) (c : Ctx) (pa : Nat) (l : Line) : Dev :=
  c.d.addGroup c.m [⟨lineOf f.toNat, lineOf pa, (lineBytes (pa + 8) hash.toNat 8).1 ||| (lineBytes (pa + 7) 1 1).1,
    (lineBytes (pa + 8) hash.toNat 8).2 ||| (lineBytes (pa + 7) 1 1).2, none⟩] (c.d.fnOf c.s.lk) c.h none (.insert c.h c.n (bucketOf hash)
    (mkEnt hash c.tag (hDep l) (hPool l) (((c.d.pool (hDep l) (hPool l)).index f.toNat).getD 0)) :: c.s.taskFin)

theorem exec_kvins (s : State) : exec (.kvins d a b) s = thread (useA [wa d, ra a, ra b]) (fun c => c.unspec (fun c =>
    c.askHome (c.s.A b.toNat) (c.insBlock (c.s.A b.toNat)) (Ctx.insSend (c.s.A b.toNat) (c.s.A a.toNat)) (fun v => c.done (c.s.setA d.toNat v)))) s := by
  unfold exec execKvins specForm
  rfl

theorem exec_kvpos (s : State) : exec (.kvpos a b) s = thread (useA [ra a, ra b]) (fun c => c.unspec (fun c =>
    c.askHome (c.s.A a.toNat) (c.exclusiveBlock (c.s.A a.toNat)) (fun c' pa l => c'.d.addGroup c'.m
      [headerLine (c.s.A a.toNat).toNat pa 0 ((c'.s.A b.toNat).toNat % 2 ^ 32) 4] (c'.d.fnOf c'.s.lk) c'.h none (.pos c'.h c'.n :: c'.s.taskFin))
      (fun _ => .done c.d))) s := by
  unfold exec execKvpos specForm
  rfl

theorem Ctx.askHome_done {c : Ctx} {w : W64} (hr : c.s.reply = .done w) (f : W64) (first : (Ctx → Line → Nat → Res) → Res) (send : Ctx → Nat → Line → Dev)
    (k : W64 → Res) : c.askHome f first send k = k w := by
  unfold Ctx.askHome
  rw [hr]

theorem Ctx.askHome_idle {c : Ctx} (hr : c.s.reply = .idle) (f : W64) (first : (Ctx → Line → Nat → Res) → Res) (send : Ctx → Nat → Line → Dev)
    (k : W64 → Res) : c.askHome f first send k = first (fun c l pa => c.release (fun c =>
      .wait ((send c pa l).updSlot c.h c.n (fun s => { s with reply := .sent })) .home)) := by
  unfold Ctx.askHome
  rw [hr]

theorem Ctx.onBlock_unaligned {c : Ctx} {f : W64} (h : f.toNat % 256 ≠ 0 ∨ isWindow f = true) (need : List Right) (k : Ctx → Line → Nat → Res) :
    c.onBlock f need k = c.faultAt 0x72 2 f := if_pos h

/-- A form that has its home's answer writes it. -/
theorem answered_writes {i : Instr} {u : Use} {body : Ctx → Res} (he : ∀ s, exec i s = thread u body s)
    (hb : ∀ (c : Ctx) (w : W64), c.sure → c.s.reply = .done w → body c = c.done (c.s.setA d.toNat w)) (w : W64) :
    CompletesWhen i u (fun c => c.sure ∧ c.s.reply = .done w) [d.toNat] [] []
      (fun c s => s.pc = c.s.pc + 8#64 ∧ s.A d.toNat = if d = 0#4 then 0#64 else w) := by
  refine completesWhen_of he (fun c hc ⟨hs, hr⟩ => ⟨_, _, c.s.pc + 8#64, ?_, .setSlot c _, KeptRegs.setA _ _ _, rfl, Slot.A_setA_self _ _ _⟩)
  rw [hb c w hs hr]
  rfl

theorem kvfree_answered (w : W64) : CompletesWhen (.kvfree d a) (useA [wa d, ra a]) (fun c => c.sure ∧ c.s.reply = .done w) [d.toNat] [] []
    (fun c s => s.pc = c.s.pc + 8#64 ∧ s.A d.toNat = if d = 0#4 then 0#64 else w) :=
  answered_writes exec_kvfree (fun c w hs hr => by rw [hs.unspec, Ctx.askHome_done hr]) w

theorem kvins_answered (w : W64) : CompletesWhen (.kvins d a b) (useA [wa d, ra a, ra b]) (fun c => c.sure ∧ c.s.reply = .done w) [d.toNat] [] []
    (fun c s => s.pc = c.s.pc + 8#64 ∧ s.A d.toNat = if d = 0#4 then 0#64 else w) :=
  answered_writes exec_kvins (fun c w hs hr => by rw [hs.unspec, Ctx.askHome_done hr]) w

theorem kvpos_answered (w : W64) : CompletesWhen (.kvpos a b) (useA [ra a, ra b]) (fun c => c.sure ∧ c.s.reply = .done w) [] [] []
    (fun c s => s.pc = c.s.pc + 8#64 ∧ True) := by
  refine completesWhen_of exec_kvpos (fun c hc ⟨hs, hr⟩ => ⟨c.d, c.s, c.s.pc + 8#64, ?_, .refl hc, .refl _, rfl, trivial⟩)
  rw [hs.unspec, Ctx.askHome_done hr]
  rfl

/-- A frame at no multiple of 256, or in a window, traps. -/
theorem askHome_traps {i : Instr} {u : Use} (hi : i = Instr.kvfree d a ∧ u = useA [wa d, ra a] ∨ i = .kvins d b a ∧ u = useA [wa d, ra b, ra a] ∨
      i = .kvpos a b ∧ u = useA [ra a, ra b]) :
    TrapsWhen i u (fun c => c.sure ∧ c.s.reply = .idle ∧ ((c.s.A a.toNat).toNat % 256 ≠ 0 ∨ isWindow (c.s.A a.toNat) = true))
      0x72 (fun _ => 2) (fun c => c.s.A a.toNat) := by
  rcases hi with ⟨rfl, rfl⟩ | ⟨rfl, rfl⟩ | ⟨rfl, rfl⟩
  · refine trapsWhen_of exec_kvfree (fun c _ ⟨hs, hr, hf⟩ => ⟨Config.freeLanes c.d.count, ?_⟩)
    rw [hs.unspec, Ctx.askHome_idle hr]
    exact Ctx.onBlock_unaligned hf _ _
  · refine trapsWhen_of exec_kvins (fun c _ ⟨hs, hr, hf⟩ => ⟨Config.freeLanes c.d.count, ?_⟩)
    rw [hs.unspec, Ctx.askHome_idle hr]
    exact if_pos hf
  · refine trapsWhen_of exec_kvpos (fun c _ ⟨hs, hr, hf⟩ => ⟨Config.freeLanes c.d.count, ?_⟩)
    rw [hs.unspec, Ctx.askHome_idle hr]
    exact Ctx.onBlock_unaligned hf _ _

end

end Sys2Proof.Machine
end

section
/-! PROOFS. Saved prefixes: kv.exp and kv.imp (R260, R261). -/

namespace Sys2Proof.Machine

/-! ### Words of records (R260) -/

section
variable {q p : QCtx} {s : Nat} {r r' : List Cmd}

/-- A word of global memory that a step reads. -/
def QCtx.wordAt (q : QCtx) (va : W64) : Rd := if isWindow (q.rd 0 6 false va).va then { q.rd 0 6 false va with loc := .bad 5 } else q.rd 0 6 false va

theorem QCtx.words_eq (q : QCtx) (va : W64) (n : Nat) : q.words va n = (List.range n).map (fun i => q.wordAt (va + BitVec.ofNat 64 (4 * i))) := rfl

theorem QCtx.loc_global (q : QCtx) {va : W64} (h : isWindow va = false) : q.loc false va = .mem va.toNat := by
  unfold QCtx.loc
  rw [if_neg Bool.false_ne_true, h, if_neg Bool.false_ne_true]

theorem QCtx.wordAt_readable {va : W64} (h : q.Readable (q.wordAt va)) : isWindow va = false ∧ q.wordAt va = ⟨0, 6, .mem va.toNat, va⟩ := by
  have hw : isWindow va = false := by
    refine Bool.eq_false_iff.mpr fun hw => ?_
    refine h.located 5 ?_
    unfold QCtx.wordAt
    rw [if_pos (show isWindow (q.rd 0 6 false va).va = true from hw)]
  refine ⟨hw, ?_⟩
  unfold QCtx.wordAt
  rw [if_neg (by rw [show (q.rd 0 6 false va).va = va from rfl, hw]; exact Bool.false_ne_true)]
  unfold QCtx.rd
  rw [q.loc_global hw]
  rfl

theorem QCtx.mem_words {va : W64} {n : Nat} {x : Rd} (h : x ∈ q.words va n) (hr : q.Readable x) : ∃ a, x.loc = .mem a := by
  obtain ⟨i, -, rfl⟩ := List.mem_map.mp h
  exact ⟨_, (congrArg Rd.loc (QCtx.wordAt_readable hr).2 :)⟩

theorem QCtx.Sees.words (h : q.Sees p) (va : W64) (n : Nat) : p.words va n = q.words va n :=
  List.map_congr_left fun i _ => by rw [h.rd]

/-- The words of a record are read at once, each with its value before the command began. -/
theorem QCtx.OnStep.words (b : q.OnStep p s r r') (hf : p.Fresh) {va : W64} {n : Nat} (h : ∀ x, x ∈ q.words va n → q.readable x) :
    ∃ e, p.fetch false (q.words va n) = .ok ((q.words va n).map (fun x => some (q.value x))) e ∧ p.d.Sees e ∧ ({ p with d := e } : QCtx).Stands r' := by
  obtain ⟨e, he, hs, hq⟩ := QCtx.fetch_mem b.stands hf (fun x hx => b.sees.readable (.of (h x hx)))
    (fun x hx => QCtx.mem_words hx (.of (h x hx))) false
  refine ⟨e, ?_, hs, hq⟩
  rw [he]
  exact congrArg (Fetch.ok · e) (List.map_congr_left fun x hx => congrArg some (b.sees.value (h x hx)))

/-- The step goes on with what it has read. -/
theorem QCtx.OnStep.on (b : q.OnStep p s r r') {e : Dev} (hs : p.d.Sees e) (hq : ({ p with d := e } : QCtx).Stands r') : q.OnStep { p with d := e } s r r' :=
  b.took (m := p.c.rd) hs hq

theorem QCtx.Fresh.on (h : p.Fresh) {e : Dev} (hs : p.d.Sees e) : ({ p with d := e } : QCtx).Fresh := h.took hs p.c.rd

/-! ### Words laid down (R260) -/

/-- A word of global memory that a step writes. -/
def QCtx.putAt (q : QCtx) (va : W64) (v : W32) : Wr := if isWindow (q.wr false va v).va then { q.wr false va v with loc := .bad 5 } else q.wr false va v

theorem QCtx.puts_eq (q : QCtx) (va : W64) (ws : List W32) : q.puts va ws = ws.zipIdx.map (fun w => q.putAt (va + BitVec.ofNat 64 (4 * w.2)) w.1) := rfl

theorem QCtx.putAt_writable {va : W64} {v w : W32} (h : q.writable (q.putAt va v)) : isWindow va = false ∧ q.putAt va w = ⟨.mem va.toNat, va, w⟩ := by
  have hw : isWindow va = false := by
    refine Bool.eq_false_iff.mpr fun hw => ?_
    unfold QCtx.putAt at h
    rw [if_pos (show isWindow (q.wr false va v).va = true from hw)] at h
    exact h
  refine ⟨hw, ?_⟩
  unfold QCtx.putAt
  rw [if_neg (by rw [show (q.wr false va w).va = va from rfl, hw]; exact Bool.false_ne_true)]
  unfold QCtx.wr
  rw [q.loc_global hw]
  rfl

theorem QCtx.writable_congr {x y : Wr} (h : x.loc = y.loc) (hx : q.writable x) : q.writable y := by
  unfold QCtx.writable at hx ⊢
  rw [← h]
  exact hx

/-- Whether a word can be written does not depend on it. -/
theorem QCtx.putAt_writable_other {va : W64} {v : W32} (h : q.writable (q.putAt va v)) (w : W32) : q.writable (q.putAt va w) := by
  refine QCtx.writable_congr ?_ h
  rw [(QCtx.putAt_writable h (w := v)).2, (QCtx.putAt_writable h (w := w)).2]

theorem QCtx.mem_puts {va : W64} {ws : List W32} {w : Wr} (h : w ∈ q.puts va ws) : ∃ i v, i < ws.length ∧ w = q.putAt (va + BitVec.ofNat 64 (4 * i)) v := by
  obtain ⟨x, hx, rfl⟩ := List.mem_map.mp h
  have := List.snd_lt_of_mem_zipIdx hx
  exact ⟨x.2, x.1, by omega, rfl⟩

theorem QCtx.puts_writable {va : W64} {ws vs : List W32} (h : ∀ w, w ∈ q.puts va ws → q.writable w) (hlen : vs.length = ws.length) :
    ∀ w, w ∈ q.puts va vs → q.writable w := fun w hw => by
  obtain ⟨i, v, hi, rfl⟩ := QCtx.mem_puts hw
  refine QCtx.putAt_writable_other (v := ws[i]'(hlen ▸ hi)) (h _ (List.mem_map.mpr ⟨(ws[i]'(hlen ▸ hi), i), ?_, rfl⟩)) v
  exact List.mk_mem_zipIdx_iff_getElem?.mpr (List.getElem?_eq_getElem _)

theorem QCtx.Sees.puts (h : q.Sees p) (va : W64) (ws : List W32) : p.puts va ws = q.puts va ws :=
  List.map_congr_left fun i _ => by rw [h.wr]

/-- Words of different addresses lie apart. -/
theorem apart_of_va {ws : List Wr} (h : (ws.map (·.va)).Nodup) (hloc : ∀ w, w ∈ ws → ∀ a, w.loc = .mem a → a = w.va.toNat) : apart ws := by
  rw [List.nodup_iff_pairwise_ne, List.pairwise_map] at h
  refine List.Pairwise.imp_of_mem (fun {x y} hx hy hne va hlx hly => hne (BitVec.eq_of_toNat_eq ?_)) h
  rw [← hloc x hx va hlx, ← hloc y hy va hly]

theorem QCtx.puts_va (q : QCtx) (va : W64) (ws : List W32) : (q.puts va ws).map (·.va) = (List.range ws.length).map (fun i => va + BitVec.ofNat 64 (4 * i)) := by
  rw [QCtx.puts_eq, List.map_map, List.range_eq_range', ← List.zipIdx_map_snd 0 ws, List.map_map]
  refine List.map_congr_left fun w _ => ?_
  unfold QCtx.putAt
  rw [Function.comp]
  split <;> rfl

theorem QCtx.putAt_loc {va : W64} {v : W32} {a : Nat} (h : (q.putAt va v).loc = .mem a) : a = (q.putAt va v).va.toNat := by
  unfold QCtx.putAt at h ⊢
  split at h
  · exact nomatch h
  · next hw =>
    rw [if_neg hw]
    exact QCtx.loc_mem (own := false) (va := va) h

/-- Words that a step writes where it can are on their way, whatever else its end does. -/
theorem QCtx.OnStep.laid (b : q.OnStep p s r r') {d : Dev} (hs : p.d.Sees d) (hq : ({ p with d := d } : QCtx).Stands r') {ws : List Wr}
    (hw : ∀ w, w ∈ ws → q.writable w) (hne : apart ws) (op bytes : Nat) : ∃ e, p.writeAs d op [.w] ws bytes = .ok e ∧
    ((e.core p.h).eq p.cq).q = p.c :: r' ∧ ∀ f : Dev, e.AtMostWakes f → e.Flows f → f.groups = e.groups →
      (∀ j n, (q.d.slot j n).SameUser (f.slot j n)) ∧ ∀ w, w ∈ ws → q.wrote f w := by
  obtain ⟨e, he, hkeep, haside, hflows, hwrote⟩ := QCtx.writeAs_done hs (fun w hw' => b.sees.writable (hw w hw')) hne op bytes
  refine ⟨e, he, (congrArg EQ.q (hkeep.queues _ _)).trans hq, fun f hwake hfl hg => ⟨fun j n => ?_, fun w hw' => ?_⟩⟩
  · exact (Dev.sameUser_of (b.sees.dev.woken.trans hs.woken) haside j n).trans (hwake j n).sameUser
  · exact (b.sees.wrote (hwrote w hw')).mono hfl hg

end

/-! ### kv.exp (R261) -/

section
variable {hd : TileHdr} {x : KvArgs} {s : Nat}

/-- A step of kv.exp that has its block. -/
def QCtx.exportBlock (q : QCtx) (x : KvArgs) (f next : W64) (d : Dev) (hashes : AMap W32) : Dev :=
  match QCtx.fetch { q with d := d } false (q.words f ((hashes.get 0#32 8193).toNat / 4)) with
  | .wait d => d
  | .stop d _ reason va => q.stopAt d 6 reason va
  | .ok vs d =>
    match q.writeAs d 7 [.w] (q.puts (x.dst + BitVec.ofNat 64 (recordHead x.nb.toNat + q.c.step * (hashes.get 0#32 8193).toNat)) (vs.map (fun v => v.getD 0#32)) ++
        q.puts (x.dst + BitVec.ofNat 64 (608 + 8 * q.c.step)) [hashes.get 0#32 (2 * q.c.step), hashes.get 0#32 (2 * q.c.step + 1)])
        ((hashes.get 0#32 8193).toNat + 8) with
    | .wait d => d
    | .stop d op reason va => q.stopAt d op reason va
    | .ok d => q.stepped (d.keepHead q.h q.cq (fun c => { c with prev := next, sa := hashes })) x.nb.toNat

/-- The last step of kv.exp. -/
def QCtx.exportHeader (q : QCtx) (x : KvArgs) (hashes : AMap W32) : Dev :=
  match q.fetch false (q.words x.ses 18) with
  | .wait d => d
  | .stop d _ reason va => q.stopAt d 6 reason va
  | .ok vs d =>
    match q.writeAs d 7 [.w] (q.puts x.dst (bytesWords (recordBytes d.fwVersion (wordBytes vs) (d.terrace (terrOf q.c.lk)).tenant x.nb.toNat
        (hashes.get 0#32 fmtKey).toNat (hashBytes x.nb.toNat hashes)))) (recordHead x.nb.toNat - 8 * x.nb.toNat) with
    | .wait d => d
    | .stop d op reason va => q.stopAt d op reason va
    | .ok d => q.stepped d x.nb.toNat

/-- A step of kv.exp that has its place in the chain. -/
def QCtx.exportAt (q : QCtx) (x : KvArgs) (f : W64) (hashes : AMap W32) : Dev :=
  if q.c.step = x.nb.toNat then q.exportHeader x hashes
  else if f = 0#64 ∧ q.c.step ≠ 0 then q.d.stopWith q.h q.cq 0x72 5 (Config.freeAddr q.d.count)
  else
    match q.header f (fun l d => .ok (hNext l) d (QCtx.chase.noteHash (hashes.put 8193 (BitVec.ofNat 32 (hStride l))) q.c.step l)) with
    | .wait d => d
    | .stop d cause sub va => q.tagFails d cause sub va
    | .flt d reason va => q.stopAt d 6 reason va
    | .ok next d hashes => q.exportBlock x f next d hashes

/-- The body of kv.exp. -/
def exportBody (hd : TileHdr) (x : KvArgs) (q : QCtx) : Dev :=
  let stride0 := ((q.d.poolAt (terrOf q.c.lk) x.src.toNat).map (fun i => (q.d.depots.get Pool.init i).stride)).getD 0
  let q := q.begin_ hd (hd.rstep.toNat * (stride0 + 8))
  match (if q.c.step = hd.rstep.toNat then q.chase q.c.step 0 x.src .empty else .ok q.c.prev q.d q.c.sa : Chain) with
  | .wait d => d
  | .stop d cause sub va => q.tagFails d cause sub va
  | .flt d reason va => q.stopAt d 6 reason va
  | .ok f d hashes => QCtx.exportAt { q with d := d } x f hashes

theorem exec_kvExp (st : State) : exec (.kvExp hd x) st = command (exportBody hd x) st := by
  unfold exec execKvExp
  rfl

/-! What a record's hashes hold -/

theorem get_noteHash {m : AMap W32} {i : Nat} (l : Line) (hi : i < 4096) :
    (QCtx.chase.noteHash m i l).get 0#32 (2 * i) = (hHash l).setWidth 32 ∧
    (QCtx.chase.noteHash m i l).get 0#32 (2 * i + 1) = (hHash l).extractLsb' 32 32 ∧
    (QCtx.chase.noteHash m i l).get 0#32 8193 = m.get 0#32 8193 := by
  obtain ⟨y, hy⟩ : ∃ y, y = (m.put (2 * i) ((hHash l).setWidth 32)).put (2 * i + 1) ((hHash l).extractLsb' 32 32) := ⟨_, rfl⟩
  have hlow : y.get 0#32 (2 * i) = (hHash l).setWidth 32 := by
    rw [hy, AMap.get_put_ne _ _ (2 * i + 1) (2 * i) _ (by omega), AMap.get_put_self]
  have hhigh : y.get 0#32 (2 * i + 1) = (hHash l).extractLsb' 32 32 := by rw [hy, AMap.get_put_self]
  have hstride : y.get 0#32 8193 = m.get 0#32 8193 := by
    rw [hy, AMap.get_put_ne _ _ (2 * i + 1) 8193 _ (by omega), AMap.get_put_ne _ _ (2 * i) 8193 _ (by omega)]
  have hother : ∀ k v, k ≠ 8192 → (y.put fmtKey v).get 0#32 k = y.get 0#32 k := fun k v hk => AMap.get_put_ne _ _ _ _ _ hk
  unfold QCtx.chase.noteHash
  dsimp only
  rw [← hy]
  split
  · rw [hother _ _ (by omega), hother _ _ (by omega), hother _ _ (by omega)]
    exact ⟨hlow, hhigh, hstride⟩
  · exact ⟨hlow, hhigh, hstride⟩

/-- Rows of a block and its header, in words. -/
theorem hStride_bounds (l : Line) : hStride l % 4 = 0 ∧ 256 ≤ hStride l ∧ hStride l ≤ 2 ^ 20 := by
  have hhc : hHc l < 4 := Nat.mod_lt _ (by decide)
  have hpow : 2 ^ hHc l ≤ 2 ^ 3 := Nat.pow_le_pow_right (by decide) (by omega)
  have hrb : hRb l ≤ 64 * 8 * 2 := by
    unfold hRb rowBytes
    exact Nat.mul_le_mul (Nat.mul_le_mul_left _ hpow) (by split <;> decide)
  unfold hStride
  omega

/-- The header of a block that passes R242 has been read. -/
theorem QCtx.OnStep.header {q p : QCtx} {r r' : List Cmd} (b : q.OnStep p s r r') (hf : p.Fresh) {f : W64} {n : Nat} (hn : 32 ≤ n)
    (hal : f.toNat % 256 = 0) (h : ∀ x, x ∈ q.words f n → q.readable x) {l : Line}
    (hl : l = lineOfBytes (wordBytes ((q.words f 32).map (fun w => some (q.value w))))) (hgood : q.d.frameCheck (terrOf q.c.lk) f l = 0) :
    ∃ e, (∀ k : Line → Dev → Chain, p.header f k = k l e) ∧ p.d.Sees e ∧ ({ p with d := e } : QCtx).Stands r' := by
  have hsub : ∀ x, x ∈ q.words f 32 → q.readable x := fun x hx => by
    obtain ⟨i, hi, rfl⟩ := List.mem_map.mp hx
    exact h _ (List.mem_map.mpr ⟨i, List.mem_range.mpr (Nat.lt_of_lt_of_le (List.mem_range.mp hi) hn), rfl⟩)
  have hwin : isWindow f = false := by
    have := (QCtx.wordAt_readable (q := q) (va := f + BitVec.ofNat 64 (4 * 0)) (.of (hsub _ (List.mem_map.mpr ⟨0, List.mem_range.mpr (by decide), rfl⟩)))).1
    rwa [BitVec.add_zero] at this
  obtain ⟨e, he, hs, hq⟩ := b.words hf hsub
  refine ⟨e, fun k => ?_, hs, hq⟩
  have hcheck : e.frameCheck (terrOf p.c.lk) f l = 0 := by
    rw [b.sees.lk, ← hgood]
    exact (congrArg (fun d => Dev.frameCheck d (terrOf q.c.lk) f l) (hs.rest.trans b.sees.dev.rest) :)
  unfold QCtx.header
  rw [if_neg (by rw [hwin, hal]; simp), b.sees.words, he]
  dsimp only
  rw [← hl, hcheck, if_neg (by simp)]

/-- Words laid at distinct offsets from a base lie apart. -/
theorem nodup_offsets {ws : List Wr} {base : W64} {os : List Nat} (h : ws.map (·.va) = os.map (fun o => base + BitVec.ofNat 64 o)) (hnd : os.Nodup)
    (hlt : ∀ o, o ∈ os → o < 2 ^ 64) : (ws.map (·.va)).Nodup := by
  rw [h]
  refine hnd.map_on fun a ha b hb heq => ?_
  have := congrArg BitVec.toNat (BitVec.add_right_inj base |>.mp heq)
  rwa [BitVec.toNat_ofNat, BitVec.toNat_ofNat, Nat.mod_eq_of_lt (hlt a ha), Nat.mod_eq_of_lt (hlt b hb)] at this

theorem QCtx.puts_va_off (q : QCtx) (base : W64) (k : Nat) (ws : List W32) : (q.puts (base + BitVec.ofNat 64 k) ws).map (·.va) =
    ((List.range ws.length).map (fun i => k + 4 * i)).map (fun o => base + BitVec.ofNat 64 o) := by
  rw [QCtx.puts_va, List.map_map]
  refine List.map_congr_left fun i _ => ?_
  rw [Function.comp, BitVec.add_assoc, ← BitVec.ofNat_add]

theorem nodup_stride (k n : Nat) : ((List.range n).map (fun i => k + 4 * i)).Nodup :=
  List.nodup_range.map_on fun a _ b _ h => by omega

theorem QCtx.puts_loc {q : QCtx} {va : W64} {ws : List W32} {w : Wr} (h : w ∈ q.puts va ws) {a : Nat} (hl : w.loc = .mem a) : a = w.va.toNat := by
  obtain ⟨i, v, -, rfl⟩ := QCtx.mem_puts h
  exact QCtx.putAt_loc hl

/-- The words of a record's head lie apart. -/
theorem QCtx.puts_apart (q : QCtx) (va : W64) {ws : List W32} (h : ws.length < 2 ^ 32) : apart (q.puts va ws) := by
  refine apart_of_va (nodup_offsets (base := va) (q.puts_va_off va 0 ws ▸ (by rw [BitVec.add_zero])) (nodup_stride 0 ws.length) (fun o ho => ?_))
    (fun w hw a hl => QCtx.puts_loc hw hl)
  obtain ⟨i, hi, rfl⟩ := List.mem_map.mp ho
  have := List.mem_range.mp hi
  omega

/-- A block of a record lies apart from its hash. -/
theorem QCtx.block_apart (q : QCtx) (dst : W64) {nb st : Nat} (hs : s < nb) (hnb : nb ≤ 4096) (hst : st ≤ 2 ^ 20) {vs ws : List W32} (hvs : vs.length = st / 4)
    (hws : ws.length = 2) : apart (q.puts (dst + BitVec.ofNat 64 (recordHead nb + s * st)) vs ++ q.puts (dst + BitVec.ofNat 64 (608 + 8 * s)) ws) := by
  have hhead : 608 + 8 * nb ≤ recordHead nb ∧ recordHead nb ≤ 608 + 8 * nb + 255 := by
    unfold recordHead
    omega
  have hmul : s * st ≤ 4096 * 2 ^ 20 := Nat.mul_le_mul (by omega) hst
  refine apart_of_va (nodup_offsets (base := dst) (os := (List.range vs.length).map (fun i => recordHead nb + s * st + 4 * i) ++
    (List.range ws.length).map (fun i => 608 + 8 * s + 4 * i)) ?_ ?_ (fun o ho => ?_)) (fun w hw a hl => ?_)
  · rw [List.map_append, List.map_append, QCtx.puts_va_off, QCtx.puts_va_off]
  · refine List.nodup_append.mpr ⟨nodup_stride _ _, nodup_stride _ _, fun a ha b hb => ?_⟩
    obtain ⟨i, hi, rfl⟩ := List.mem_map.mp ha
    obtain ⟨j, hj, rfl⟩ := List.mem_map.mp hb
    have := List.mem_range.mp hj
    omega
  · rcases List.mem_append.mp ho with ho | ho
    · obtain ⟨i, hi, rfl⟩ := List.mem_map.mp ho
      have := List.mem_range.mp hi
      omega
    · obtain ⟨i, hi, rfl⟩ := List.mem_map.mp ho
      have := List.mem_range.mp hi
      omega
  · rcases List.mem_append.mp hw with hw | hw <;> exact QCtx.puts_loc hw hl

/-- Where a step of kv.exp stands in its chain. -/
def QCtx.exportsAt (q : QCtx) (hd : TileHdr) (x : KvArgs) (s : Nat) (f : W64) : Prop :=
  s = 0 ∧ hd.rstep = 0 ∧ q.atStep hd 0 ∧ f = x.src ∨ q.c.begun = true ∧ q.c.step = s ∧ hd.rstep.toNat < s ∧ f = q.c.prev

theorem QCtx.exportsAt.atStep {q : QCtx} {f : W64} (h : q.exportsAt hd x s f) : q.atStep hd s := by
  rcases h with ⟨rfl, -, hs, -⟩ | ⟨hb, hs, -, -⟩
  · exact hs
  · unfold QCtx.atStep
    rw [if_pos hb]
    exact hs

/-- A step of kv.exp begins where the last one left its chain. -/
theorem QCtx.exportsAt.body {q : QCtx} {f : W64} (h : q.exportsAt hd x s f) {skipped : Nat} {r r' : List Cmd} (b : q.Begun (q.begin_ hd skipped) s r r') :
    ∃ hashes, (if (q.begin_ hd skipped).c.step = hd.rstep.toNat then (q.begin_ hd skipped).chase (q.begin_ hd skipped).c.step 0 x.src .empty
      else .ok (q.begin_ hd skipped).c.prev (q.begin_ hd skipped).d (q.begin_ hd skipped).c.sa : Chain) = .ok f (q.begin_ hd skipped).d hashes ∧
      (hd.rstep.toNat < s → hashes = q.c.sa) := by
  have hprev : (q.begin_ hd skipped).c.prev = q.c.prev := (congrArg Cmd.prev b.cmd :)
  have hsa : (q.begin_ hd skipped).c.sa = q.c.sa := (congrArg Cmd.sa b.cmd :)
  rw [b.step, hprev, hsa]
  rcases h with ⟨rfl, hr, -, hf⟩ | ⟨-, -, hlt, hf⟩
  · refine ⟨.empty, ?_, fun h => absurd h (Nat.not_lt_zero _)⟩
    rw [hr, hf]
    rfl
  · exact ⟨q.c.sa, by rw [if_neg (by omega), hf], fun _ => rfl⟩

/-- The header that a step of kv.exp reads. -/
def QCtx.headerAt (q : QCtx) (f : W64) : Line := lineOfBytes (wordBytes ((q.words f 32).map (fun w => some (q.value w))))

theorem kvExp_block {f : W64} : Commands (.kvExp hd x)
    (fun q _ => q.exportsAt hd x s f ∧ s < x.nb.toNat ∧ x.nb.toNat ≤ 4096 ∧ f ≠ 0#64 ∧ f.toNat % 256 = 0 ∧
      q.reads (q.words f (hStride (q.headerAt f) / 4)) ∧ q.d.frameCheck (terrOf q.c.lk) f (q.headerAt f) = 0 ∧
      ∀ w, w ∈ q.puts (x.dst + BitVec.ofNat 64 (recordHead x.nb.toNat + s * hStride (q.headerAt f))) ((q.words f (hStride (q.headerAt f) / 4)).map q.value) ++
        q.puts (x.dst + BitVec.ofNat 64 (608 + 8 * s)) [0#32, 0#32] → q.writable w)
    (fun q r e => q.goesOn r e s x.nb.toNat ∧
      (∀ w, w ∈ q.puts (x.dst + BitVec.ofNat 64 (608 + 8 * s)) [(hHash (q.headerAt f)).setWidth 32, (hHash (q.headerAt f)).extractLsb' 32 32] → q.wrote e w) ∧
      (∀ w, w ∈ q.puts (x.dst + BitVec.ofNat 64 (recordHead x.nb.toNat + s * hStride (q.headerAt f))) ((q.words f (hStride (q.headerAt f) / 4)).map q.value) →
        q.wrote e w) ∧
      ∀ y z, ((e.core q.h).eq q.cq).q = y :: z → y.prev = hNext (q.headerAt f)) := by
  refine commands_of exec_kvExp (fun q r hq ⟨hat, hlt, hnb, hf0, hal, hreads, hgood, hw⟩ => ?_)
  obtain ⟨skipped, hsk⟩ : ∃ k, k = hd.rstep.toNat * (((q.d.poolAt (terrOf q.c.lk) x.src.toNat).map (fun i => (q.d.depots.get Pool.init i).stride)).getD 0 + 8) := ⟨_, rfl⟩
  obtain ⟨r', b⟩ := QCtx.begins hq hat.atStep skipped
  obtain ⟨hashes, hchain, -⟩ := hat.body (x := x) b
  obtain ⟨l, hl⟩ : ∃ l, l = q.headerAt f := ⟨_, rfl⟩
  obtain ⟨hst4, hst1, hst2⟩ := hStride_bounds l
  rw [← hl] at hreads hgood hw ⊢
  unfold exportBody
  dsimp only
  rw [← hsk, hchain]
  dsimp only
  generalize q.begin_ hd skipped = p at b
  have hfresh := b.fresh hreads
  obtain ⟨e1, hheader, hs1, hq1⟩ := b.header hfresh (n := hStride l / 4) (by omega) hal hreads.all hl hgood
  have b1 := b.toOnStep.on hs1 hq1
  obtain ⟨e2, hf2, hs2, hq2⟩ := b1.words (hfresh.on hs1) hreads.all
  obtain ⟨hlow, hhigh, hstride⟩ := get_noteHash (m := hashes.put 8193 (BitVec.ofNat 32 (hStride l))) (i := s) l (by omega)
  obtain ⟨m, hm⟩ : ∃ m, m = QCtx.chase.noteHash (hashes.put 8193 (BitVec.ofNat 32 (hStride l))) s l := ⟨_, rfl⟩
  rw [← hm] at hlow hhigh hstride
  have hstride' : (m.get 0#32 8193).toNat = hStride l := by
    rw [hstride, AMap.get_put_self, BitVec.toNat_ofNat]
    exact Nat.mod_eq_of_lt (by omega)
  obtain ⟨vs, hvs⟩ : ∃ vs, vs = (q.words f (hStride l / 4)).map q.value := ⟨_, rfl⟩
  have hlen : vs.length = hStride l / 4 := by rw [hvs, List.length_map, QCtx.words_eq, List.length_map, List.length_range]
  obtain ⟨ws, hws⟩ : ∃ ws, ws = q.puts (x.dst + BitVec.ofNat 64 (recordHead x.nb.toNat + s * hStride l)) vs ++
    q.puts (x.dst + BitVec.ofNat 64 (608 + 8 * s)) [(hHash l).setWidth 32, (hHash l).extractLsb' 32 32] := ⟨_, rfl⟩
  obtain ⟨e3, he3, hq3, hend⟩ := b.toOnStep.laid (hs1.trans hs2) hq2 (ws := ws) (fun w hw' => by
    rw [hws] at hw'
    rcases List.mem_append.mp hw' with hw' | hw'
    · exact hw w (List.mem_append_left _ (hvs ▸ hw'))
    · exact QCtx.puts_writable (ws := [0#32, 0#32]) (vs := [(hHash l).setWidth 32, (hHash l).extractLsb' 32 32]) (fun w hw'' => hw w (List.mem_append_right _ hw'')) rfl w hw') (hws ▸ q.block_apart x.dst hlt hnb hst2 hlen rfl) 7 (hStride l + 8)
  have hbody : QCtx.exportAt { p with d := p.d } x f hashes = p.stepped (e3.keepHead p.h p.cq (fun c => { c with prev := hNext l, sa := m })) x.nb.toNat := by
    unfold QCtx.exportAt
    rw [if_neg (by rw [b.step]; omega), if_neg (by simp [hf0]), hheader, b.step, ← hm]
    dsimp only
    unfold QCtx.exportBlock
    rw [hstride', b.sees.words, hf2]
    dsimp only
    rw [b.sees.puts, b.sees.puts, b.step, hlow, hhigh, List.map_map, show (fun v : Option W32 => v.getD 0#32) ∘ (fun x => some (q.value x)) = q.value from rfl,
      ← hvs, ← hws, he3]
  obtain ⟨hkeep, hhead⟩ := Dev.keepHead_spec hq3 (fun c => { c with prev := hNext l, sa := m })
  obtain ⟨hq4, hcl⟩ := QCtx.stepped_on (q := p) hhead (last := x.nb.toNat) (by rw [b.step]; omega)
  obtain ⟨hslots, hwrote⟩ := hend _ (hkeep.woken.trans hcl.woken) (hkeep.closes.flows.trans hcl.flows) (hcl.groups.trans hkeep.groups)
  rw [hbody, ← hvs]
  rw [b.sees.h, b.sees.cq] at hhead hq4
  obtain ⟨-, hgoes⟩ := b.toOnStep.stepped (d := e3.keepHead p.h p.cq (fun c => { c with prev := hNext l, sa := m }))
    (c := { p.c with prev := hNext l, sa := m }) (by rw [b.sees.h, b.sees.cq]; exact hhead)
    b.sees.seq b.step x.nb.toNat
  refine ⟨hslots, hgoes, fun w hw' => hwrote w (hws ▸ List.mem_append_right _ hw'), fun w hw' => hwrote w (hws ▸ List.mem_append_left _ hw'), fun y z hyz => ?_⟩
  rw [b.sees.h, b.sees.cq] at hyz
  obtain ⟨rfl, -⟩ := List.cons.inj (hq4.symm.trans hyz)
  rfl

theorem length_leBytes (n v : Nat) : (leBytes n v).length = n := by
  induction n generalizing v with
  | zero => rfl
  | succ n ih => rw [leBytes, List.length_cons, ih]

theorem length_wordBytes (ws : List (Option W32)) : (wordBytes ws).length = 4 * ws.length := by
  induction ws with
  | nil => rfl
  | cons w ws ih =>
    unfold wordBytes at ih ⊢
    rw [List.flatMap_cons, List.length_append, ih, length_leBytes, List.length_cons]
    omega

/-- A record's head has 608 bytes. -/
theorem length_recordBytes (version : Nat) {ses : List Byte} (h : ses.length = 72) (tenant : W32) (nb fmt : Nat) (hashes : List Byte) :
    (recordBytes version ses tenant nb fmt hashes).length = 608 := by
  unfold recordBytes RsaPair.sign beBytes
  simp only [List.length_append, List.length_take, List.length_replicate, List.length_reverse, length_leBytes, h]
  rfl

theorem kvExp_header : Commands (.kvExp hd x)
    (fun q _ => q.c.begun = true ∧ q.c.step = x.nb.toNat ∧ hd.rstep.toNat < x.nb.toNat ∧ q.reads (q.words x.ses 18) ∧
      ∀ w, w ∈ q.puts x.dst (List.replicate 152 0#32) → q.writable w)
    (fun q r e => ((e.core q.h).eq q.cq).q.map (·.seq) = r.map (·.seq) ∧
      ∀ w, w ∈ q.puts x.dst (bytesWords (recordBytes q.d.fwVersion (wordBytes ((q.words x.ses 18).map (fun w => some (q.value w))))
        (q.d.terrace (terrOf q.c.lk)).tenant x.nb.toNat (q.c.sa.get 0#32 fmtKey).toNat (hashBytes x.nb.toNat q.c.sa))) → q.wrote e w) := by
  refine commands_of exec_kvExp (fun q r hq ⟨hbegun, hstep, hrs, hreads, hw⟩ => ?_)
  obtain ⟨skipped, hsk⟩ : ∃ k, k = hd.rstep.toNat * (((q.d.poolAt (terrOf q.c.lk) x.src.toNat).map (fun i => (q.d.depots.get Pool.init i).stride)).getD 0 + 8) := ⟨_, rfl⟩
  have hat : q.exportsAt hd x x.nb.toNat q.c.prev := Or.inr ⟨hbegun, hstep, hrs, rfl⟩
  obtain ⟨r', b⟩ := QCtx.begins hq hat.atStep skipped
  obtain ⟨hashes, hchain, hsa⟩ := hat.body (x := x) b
  obtain rfl := hsa hrs
  unfold exportBody
  dsimp only
  rw [← hsk, hchain]
  dsimp only
  generalize q.begin_ hd skipped = p at b
  obtain ⟨e2, hf2, hs2, hq2⟩ := b.toOnStep.words (b.fresh hreads) hreads.all
  obtain ⟨ses, hses⟩ : ∃ ses, ses = wordBytes ((q.words x.ses 18).map (fun w => some (q.value w))) := ⟨_, rfl⟩
  obtain ⟨vs, hvs⟩ : ∃ vs, vs = bytesWords (recordBytes q.d.fwVersion ses (q.d.terrace (terrOf q.c.lk)).tenant x.nb.toNat
    (q.c.sa.get 0#32 fmtKey).toNat (hashBytes x.nb.toNat q.c.sa)) := ⟨_, rfl⟩
  have hlen : vs.length = 152 := by
    rw [hvs, bytesWords, List.length_map, List.length_range, length_recordBytes _ (by rw [hses, length_wordBytes]; rfl)]
  obtain ⟨e3, he3, hq3, hend⟩ := b.toOnStep.laid hs2 hq2 (ws := q.puts x.dst vs) (QCtx.puts_writable hw (by rw [hlen]; rfl))
    (q.puts_apart x.dst (by rw [hlen]; decide)) 7 (recordHead x.nb.toNat - 8 * x.nb.toNat)
  have hrest := hs2.rest.trans b.sees.dev.rest
  have hversion : e2.fwVersion = q.d.fwVersion := (congrArg Dev.fwVersion hrest :)
  have hterr : e2.terrace (terrOf q.c.lk) = q.d.terrace (terrOf q.c.lk) := (congrArg (fun d => Dev.terrace d (terrOf q.c.lk)) hrest :)
  have hbody : QCtx.exportAt { p with d := p.d } x q.c.prev q.c.sa = p.stepped e3 x.nb.toNat := by
    unfold QCtx.exportAt
    rw [if_pos b.step]
    unfold QCtx.exportHeader
    rw [b.sees.words, hf2]
    dsimp only
    rw [b.sees.puts, b.sees.lk, hversion, hterr, ← hses, ← hvs, he3]
  rw [hbody, ← hses, ← hvs]
  rw [b.sees.h, b.sees.cq] at hq3
  obtain ⟨hcl, hgoes⟩ := b.toOnStep.stepped hq3 b.sees.seq b.step x.nb.toNat
  obtain ⟨hslots, hwrote⟩ := hend _ hcl.woken hcl.flows hcl.groups
  unfold QCtx.goesOn at hgoes
  rw [if_pos (Nat.le_refl _)] at hgoes
  exact ⟨hslots, hgoes, hwrote⟩

end

/-! ### kv.imp (R261) -/

section
variable {hd : TileHdr} {x : KvArgs} {s : Nat}

/-- The words that a step of kv.imp writes: the frame, its address behind the one before it, and with the last the address of the first. -/
def QCtx.importWords (q : QCtx) (x : KvArgs) (first : Prop) [Decidable first] (s : Nat) (e : EQ) (g : W64) (tag : W32) (body : List W32) : List Wr :=
  q.puts g (importFrame tag body) ++ (if first then [] else q.puts (e.kvPrev + 24#64) (addrWords g)) ++
    (if s = x.nb.toNat then q.puts x.dst (addrWords (if first then g else e.kvFirst)) else [])

theorem QCtx.importWords_congr (q : QCtx) (x : KvArgs) {a b : Prop} [Decidable a] [Decidable b] (h : a ↔ b) (s : Nat) (e : EQ) (g : W64) (tag : W32) (body : List W32) :
    q.importWords x a s e g tag body = q.importWords x b s e g tag body := by
  unfold QCtx.importWords
  rw [if_congr h rfl rfl, if_congr h rfl rfl]

/-- A step of kv.imp after its first that has a frame. -/
def QCtx.importStep (q : QCtx) (x : KvArgs) (terr : Nat) (p : Pool) (i : Nat) (p' : Pool) : Dev :=
  let e := (q.d.core q.h).eq q.cq
  match q.fetch false (q.words (x.src + BitVec.ofNat 64 (recordHead x.nb.toNat + (q.c.step - 1) * p.stride)) (p.stride / 4)) with
  | .wait d => d
  | .stop d _ reason va => q.stopAt d 6 reason va
  | .ok vs d =>
    match q.writeAs d 7 [.w] (q.importWords x (q.c.step - 1 = 0) q.c.step e (p.frame i) (d.terrace terr).ctx (vs.map (fun v => v.getD 0#32)))
        (p.stride + (if q.c.step = x.nb.toNat then 8 else 0)) with
    | .wait d => d
    | .stop d op reason va => q.stopAt d op reason va
    | .ok d => q.stepped ((d.updPool x.dep.toNat x.pool.toNat (fun _ => p')).updCore q.h (fun k => k.updEq q.cq (fun y =>
        { y with kvFirst := if q.c.step - 1 = 0 then p.frame i else e.kvFirst, kvPrev := p.frame i }))) x.nb.toNat

/-- A step of kv.imp after its first. -/
def QCtx.importAt (q : QCtx) (x : KvArgs) (terr : Nat) (p : Pool) : Dev :=
  if !p.of terr then q.d.stopWith q.h q.cq 0x72 6 (Config.freeAddr q.d.count) else
  match p.pop with
  | none => q.d.stopWith q.h q.cq 0x70 (16 * x.dep.toNat + x.pool.toNat) (Config.freeAddr q.d.count)
  | some (i, p') => q.importStep x terr p i p'

/-- The body of kv.imp. -/
def importBody (hd : TileHdr) (x : KvArgs) (q : QCtx) : Dev :=
  let nb := x.nb.toNat
  let terr := terrOf q.c.lk
  let p := q.d.pool x.dep.toNat x.pool.toNat
  let q := q.begin_ hd ((hd.rstep.toNat - 1) * p.stride)
  if q.c.step = 0 then
    (match q.fetch false (q.words x.src 152 ++ q.words (x.src + 608#64) (2 * nb) ++ q.words x.ses 18) with
     | .wait d => d
     | .stop d _ reason va => q.stopAt d 6 reason va
     | .ok vs d =>
       let e := d.importCheck terr nb p (wordBytes (vs.take 152)) (wordBytes ((vs.drop 152).take (2 * nb))) (wordBytes (vs.drop (152 + 2 * nb)))
       if e.1 ≠ 0 then d.failHead q.h q.cq e.1 e.2 0 else q.stepped d nb)
  else q.importAt x terr p

theorem exec_kvImp (st : State) : exec (.kvImp hd x) st = command (importBody hd x) st := by
  unfold exec execKvImp
  rfl

/-- The words of a saved block that a step of kv.imp reads. -/
def QCtx.importReads (q : QCtx) (x : KvArgs) (s : Nat) : List Rd :=
  q.words (x.src + BitVec.ofNat 64 (recordHead x.nb.toNat + (s - 1) * (q.d.pool x.dep.toNat x.pool.toNat).stride)) ((q.d.pool x.dep.toNat x.pool.toNat).stride / 4)

/-- What a step of kv.imp writes, by what stood before it. -/
def QCtx.imports (q : QCtx) (x : KvArgs) (s i : Nat) : List Wr :=
  q.importWords x (s = 1) s ((q.d.core q.h).eq q.cq) ((q.d.pool x.dep.toNat x.pool.toNat).frame i) (q.d.terrace (terrOf q.c.lk)).ctx ((q.importReads x s).map q.value)

theorem QCtx.Sees.importWords {q p : QCtx} (h : q.Sees p) (x : KvArgs) (first : Prop) [Decidable first] (s : Nat) (g : W64) (tag : W32) (body : List W32) :
    p.importWords x first s ((p.d.core p.h).eq p.cq) g tag body = q.importWords x first s ((q.d.core q.h).eq q.cq) g tag body := by
  have hkept := h.dev.kept q.h q.cq
  have hfirst : ((p.d.core q.h).eq q.cq).kvFirst = ((q.d.core q.h).eq q.cq).kvFirst := (congrArg (fun k => k.2.1) hkept :)
  have hprev : ((p.d.core q.h).eq q.cq).kvPrev = ((q.d.core q.h).eq q.cq).kvPrev := (congrArg (fun k => k.2.2) hkept :)
  unfold QCtx.importWords
  rw [h.h, h.cq, hfirst, hprev]
  simp only [h.puts]

theorem QCtx.importWords_loc {q : QCtx} {first : Prop} [Decidable first] {e : EQ} {g : W64} {tag : W32} {body : List W32} {w : Wr}
    (h : w ∈ q.importWords x first s e g tag body) {a : Nat} (hl : w.loc = .mem a) : a = w.va.toNat := by
  unfold QCtx.importWords at h
  rcases List.mem_append.mp h with h | h
  · rcases List.mem_append.mp h with h | h
    · exact QCtx.puts_loc h hl
    · split at h
      · exact nomatch h
      · exact QCtx.puts_loc h hl
  · split at h
    · exact QCtx.puts_loc h hl
    · exact nomatch h

theorem kvImp_block (i : Nat) (p' : Pool) : Commands (.kvImp hd x)
    (fun q _ => q.atStep hd s ∧ 0 < s ∧ s ≤ x.nb.toNat ∧ (q.d.pool x.dep.toNat x.pool.toNat).of (terrOf q.c.lk) = true ∧
      (q.d.pool x.dep.toNat x.pool.toNat).pop = some (i, p') ∧ q.reads (q.importReads x s) ∧ (∀ w, w ∈ q.imports x s i → q.writable w) ∧
      ((q.imports x s i).map (·.va)).Nodup)
    (fun q r e => q.goesOn r e s x.nb.toNat ∧ e.pool x.dep.toNat x.pool.toNat = p' ∧ ∀ w, w ∈ q.imports x s i → q.wrote e w) := by
  refine commands_of exec_kvImp (fun q r hq ⟨hat, hpos, hle, hof, hpop, hreads, hw, hnd⟩ => ?_)
  obtain ⟨pl, hpl⟩ : ∃ pl, pl = q.d.pool x.dep.toNat x.pool.toNat := ⟨_, rfl⟩
  obtain ⟨r', b⟩ := QCtx.begins hq hat ((hd.rstep.toNat - 1) * pl.stride)
  unfold importBody
  dsimp only
  rw [← hpl] at hof hpop ⊢
  generalize q.begin_ hd ((hd.rstep.toNat - 1) * pl.stride) = p at b
  rw [if_neg (by rw [b.step]; omega)]
  obtain ⟨e2, hf2, hs2, hq2⟩ := b.toOnStep.words (b.fresh hreads) hreads.all
  rw [← QCtx.importReads] at hf2
  obtain ⟨ws, hws⟩ : ∃ ws, ws = q.imports x s i := ⟨_, rfl⟩
  rw [← hws] at hw hnd ⊢
  have hterr : e2.terrace (terrOf q.c.lk) = q.d.terrace (terrOf q.c.lk) := (congrArg (fun d => Dev.terrace d (terrOf q.c.lk)) (hs2.rest.trans b.sees.dev.rest) :)
  obtain ⟨e3, he3, hq3, hend⟩ := b.toOnStep.laid hs2 hq2 hw (apart_of_va hnd (fun w hw' a hl => QCtx.importWords_loc (hws ▸ hw') hl)) 7
    (pl.stride + (if s = x.nb.toNat then 8 else 0))
  obtain ⟨first, hfirst⟩ : ∃ first, first = (if s - 1 = 0 then pl.frame i else ((p.d.core p.h).eq p.cq).kvFirst) := ⟨_, rfl⟩
  obtain ⟨e4, he4⟩ : ∃ e4, e4 = (e3.updPool x.dep.toNat x.pool.toNat (fun _ => p')).updCore p.h (fun k => k.updEq p.cq (fun y =>
    { y with kvFirst := first, kvPrev := pl.frame i })) := ⟨_, rfl⟩
  have hbody : p.importAt x (terrOf q.c.lk) pl = p.stepped e4 x.nb.toNat := by
    unfold QCtx.importAt
    rw [if_neg (by rw [hof]; simp), hpop]
    dsimp only
    unfold QCtx.importStep
    rw [b.sees.words, b.step]
    have hreads' : q.words (x.src + BitVec.ofNat 64 (recordHead x.nb.toNat + (s - 1) * pl.stride)) (pl.stride / 4) = q.importReads x s := by
      rw [hpl]
      rfl
    rw [hreads', hf2]
    dsimp only
    have hwords : p.importWords x (s - 1 = 0) s ((p.d.core p.h).eq p.cq) (pl.frame i) (e2.terrace (terrOf q.c.lk)).ctx
        (((q.importReads x s).map (fun x => some (q.value x))).map (fun v => v.getD 0#32)) = ws := by
      rw [hterr, b.sees.importWords, QCtx.importWords_congr (b := s = 1) _ _ (by omega), List.map_map, hws, hpl]
      rfl
    rw [hwords, he3, he4, hfirst]
  rw [hbody]
  have hq4 : ((e4.core q.h).eq q.cq).q = p.c :: r' := by
    rw [he4, ← b.sees.h, ← b.sees.cq, Dev.eq_of_updEq]
    exact hq3
  obtain ⟨hcl, hgoes⟩ := b.toOnStep.stepped hq4 b.sees.seq b.step x.nb.toNat
  have hwake : e3.AtMostWakes e4 := by
    rw [he4]
    exact Dev.AtMostWakes.updCore_slots _ _ (fun _ _ => Core.slot_updEq _ _ _ _)
  obtain ⟨hslots, hwrote⟩ := hend _ (hwake.trans hcl.woken) (Dev.Flows.trans (he4 ▸ .of_net rfl rfl) hcl.flows) (hcl.groups.trans (he4 ▸ rfl))
  refine ⟨hslots, hgoes, ?_, hwrote⟩
  rw [Dev.pool, hcl.depots, ← Dev.pool, he4]
  exact Dev.pool_updPool e3 _ _ _

end

/-- Settles O36: the steps of kv.exp and kv.imp (`kvExp_block`, `kvExp_header`, `kvImp_block`), and the prefix table's forms, tests and insertions. -/
theorem prefixCache : Obligations.PrefixCache := by
  unfold Obligations.PrefixCache
  refine ⟨fun hd x s f i p' => ?_, fun la d a b v f hash pa h n op tag o x y => ?_⟩
  · exact ⟨kvExp_block (f := f), kvExp_header, kvImp_block i p'⟩
  · refine ⟨kvlook_nothing, kvlook_finds f pa, ?_, lookTest_misses, ?_, freeTest_fails, kvfree_answered, kvins_answered,
      kvpos_answered, fun i u hi => askHome_traps hi, fun m d g ls bk e rest hfin hh hs => groupTest_insert m d ls hfin hh hs⟩
    · exact lookTest_hits.mono (fun _ _ _ _ ⟨⟨g, l, hg, hgl, hlpa, hphase, hb⟩, h⟩ => ⟨⟨g, l, hg, hgl, hlpa, hphase, hb, trivial⟩, h⟩)
    · exact freeTest_frees.mono (fun _ _ _ _ h => h)

end Sys2Proof.Machine
end

section
/-! PROOFS. The accumulator tiles: acc.load and acc.store (R224, R229). -/

namespace Sys2Proof.Machine

/-! ### Elements of tiles and words (R41, R224) -/

/-- The listed elements of a tile, from place i on. -/
def listed (i : Nat) (l : List W32) : List (Nat × W32) := ((l.zipIdx i).filter (fun e => e.1 != 0#32)).map (fun e => (e.2, e.1))

theorem listed_cons (i : Nat) (v : W32) (l : List W32) : listed i (v :: l) = if v = 0#32 then listed (i + 1) l else (i, v) :: listed (i + 1) l := by
  unfold listed
  rw [List.zipIdx_cons, List.filter_cons]
  by_cases hv : v = 0#32
  · rw [if_pos hv, if_neg (by simp [hv])]
  · rw [if_neg hv, if_pos (by simp [hv])]
    rfl

theorem le_of_mem_listed {i : Nat} {l : List W32} {e : Nat × W32} (h : e ∈ listed i l) : i ≤ e.1 := by
  obtain ⟨x, hx, rfl⟩ := List.mem_map.mp h
  exact List.le_snd_of_mem_zipIdx (List.mem_filter.mp hx).1

/-- A place before all that are listed holds 0. -/
theorem denseFrom_later {n i : Nat} {es : List (Nat × W32)} (h : ∀ e, e ∈ es → i < e.1) : denseFrom (n + 1) i es = 0#32 :: denseFrom n (i + 1) es := by
  cases es with
  | nil => rfl
  | cons e es => exact if_neg (Nat.ne_of_gt (h e List.mem_cons_self))

/-- Elements listed and read again are the same. -/
theorem denseFrom_listed (l : List W32) (i : Nat) : denseFrom l.length i (listed i l) = l := by
  induction l generalizing i with
  | nil => rfl
  | cons v l ih =>
    rw [listed_cons, List.length_cons]
    split
    · next hv =>
      rw [denseFrom_later (fun e he => le_of_mem_listed he), ih, hv]
    · exact (if_pos rfl).trans (congrArg (v :: ·) (ih (i + 1)))

/-- A tile of 16,384 elements. -/
theorem dense_sparse {l : List W32} (h : l.length = 16384) (owner : Option Nat) (lk : Nat) : Tile.dense ⟨owner, sparse l, lk⟩ = l := by
  have := denseFrom_listed l 0
  rw [h] at this
  exact this

theorem length_denseFrom (n i : Nat) (es : List (Nat × W32)) : (denseFrom n i es).length = n := by
  induction n generalizing i es with
  | zero => rfl
  | succ n ih =>
    cases es with
    | nil => exact congrArg (· + 1) (ih (i + 1) [])
    | cons e es =>
      obtain ⟨k, v⟩ := e
      rw [denseFrom]
      split
      · exact congrArg (· + 1) (ih (i + 1) es)
      · exact congrArg (· + 1) (ih (i + 1) ((k, v) :: es))

theorem Tile.length_dense (t : Tile) : t.dense.length = 16384 := length_denseFrom _ _ _

/-! Lists in pieces -/

section
variable {α β : Type}

theorem getElem?_pieces (n k : Nat) (l : List α) (i : Nat) : (pieces n k l)[i]? = if i < k then some ((l.drop (i * n)).take n) else none := by
  induction k generalizing l i with
  | zero => rfl
  | succ k ih =>
    rw [pieces]
    cases i with
    | zero => rw [List.getElem?_cons_zero, if_pos (Nat.succ_pos k), Nat.zero_mul, List.drop_zero]
    | succ i =>
      rw [List.getElem?_cons_succ, ih, List.drop_drop]
      have hmul : n + i * n = (i + 1) * n := by rw [Nat.succ_mul, Nat.add_comm]
      rw [hmul]
      by_cases hi : i < k
      · rw [if_pos hi, if_pos (Nat.succ_lt_succ hi)]
      · rw [if_neg hi, if_neg (fun h => hi (Nat.lt_of_succ_lt_succ h))]

theorem length_pieces (n k : Nat) (l : List α) : (pieces n k l).length = k := by
  induction k generalizing l with
  | zero => rfl
  | succ k ih => rw [pieces, List.length_cons, ih]

/-- Pieces of equal length put one after another: the element at a place of one. -/
theorem getElem?_flatMap_const {f : α → List β} {n : Nat} {l : List α} (h : ∀ x, x ∈ l → (f x).length = n) {i j : Nat} (hj : j < n) :
    (l.flatMap f)[n * i + j]? = l[i]?.bind (fun x => (f x)[j]?) := by
  induction l generalizing i with
  | nil => rfl
  | cons x l ih =>
    rw [List.flatMap_cons]
    have hx := h x List.mem_cons_self
    cases i with
    | zero => rw [Nat.mul_zero, Nat.zero_add, List.getElem?_append_left (by omega)]; rfl
    | succ i =>
      rw [List.getElem?_append_right (by rw [hx, Nat.mul_succ]; omega), hx, show n * (i + 1) + j - n = n * i + j by rw [Nat.mul_succ]; omega,
        ih (fun y hy => h y (List.mem_cons_of_mem _ hy))]
      rfl

theorem length_flatMap_const {f : α → List β} {n : Nat} {l : List α} (h : ∀ x, x ∈ l → (f x).length = n) : (l.flatMap f).length = n * l.length := by
  induction l with
  | nil => rfl
  | cons x l ih =>
    rw [List.flatMap_cons, List.length_append, h x List.mem_cons_self, ih (fun y hy => h y (List.mem_cons_of_mem _ hy)), List.length_cons, Nat.mul_succ,
      Nat.add_comm]

/-- A list of known elements, with their places. -/
theorem zipIdx_eq {l : List α} {k : Nat} {v : Nat → α} (hl : l.length = k) (h : ∀ i, i < k → l[i]? = some (v i)) : l.zipIdx = (List.range k).map (fun i => (v i, i)) := by
  refine List.ext_getElem? fun i => ?_
  rw [List.getElem?_zipIdx, List.getElem?_map]
  by_cases hi : i < k
  · rw [h i hi, List.getElem?_range hi, Option.map_some, Option.map_some, Nat.zero_add]
  · rw [List.getElem?_eq_none (by omega), List.getElem?_eq_none (by rw [List.length_range]; omega)]
    rfl

/-- Places numbered row by row, with room between the rows. -/
theorem nodup_grid (b n k m : Nat) (hm : m ≤ k) : ((List.range n).flatMap (fun r => (List.range m).map (fun c => b + k * r + c))).Nodup := by
  refine List.nodup_flatMap.mpr ⟨fun r _ => List.pairwise_map.mpr (List.nodup_range.imp fun {i j} hij heq => hij (by omega)), ?_⟩
  refine List.nodup_range.imp fun {r r'} hne y hy hy' => hne ?_
  obtain ⟨c, hc, rfl⟩ := List.mem_map.mp hy
  obtain ⟨c', hc', heq⟩ := List.mem_map.mp hy'
  have h1 : (k * r + c) / k = r := by rw [Nat.mul_add_div (by have := List.mem_range.mp hc; omega), Nat.div_eq_of_lt (by have := List.mem_range.mp hc; omega), Nat.add_zero]
  have h2 : (k * r' + c') / k = r' := by rw [Nat.mul_add_div (by have := List.mem_range.mp hc; omega), Nat.div_eq_of_lt (by have := List.mem_range.mp hc'; omega), Nat.add_zero]
  rw [← h1, ← h2, show k * r' + c' = k * r + c by omega]

end

/-- The elements of a word of a format. -/
def Fmt.lanes (f : Fmt) : Nat := 4 / f.size

theorem packed_add_one (f : Fmt) (el : Nat → W32) (w : Nat) : packed f el (w + 1) = packed f (fun i => el (i + Fmt.lanes f)) w := by
  cases f
  case bf16 => exact congrArg₂ (fun a b => el a ||| (el b <<< 16)) (by simp only [Fmt.lanes, Fmt.size]; omega) (by simp only [Fmt.lanes, Fmt.size]; omega)
  case e4m3 => rfl
  case e5m2 => rfl
  all_goals rfl

theorem elemWords_add_one (f : Fmt) (k : Nat) (l : List W32) :
    elemWords f (k + 1) l = packed f (fun i => (l[i]?).getD 0#32) 0 :: elemWords f k (l.drop (Fmt.lanes f)) := by
  cases f <;> rfl

/-- A word of a row of elements. -/
theorem getElem?_elemWords (f : Fmt) (k : Nat) (l : List W32) {w : Nat} (hw : w < k) : (elemWords f k l)[w]? = some (packed f (fun i => (l[i]?).getD 0#32) w) := by
  induction k generalizing l w with
  | zero => exact absurd hw (Nat.not_lt_zero w)
  | succ k ih =>
    rw [elemWords_add_one]
    cases w with
    | zero => rfl
    | succ w =>
      rw [List.getElem?_cons_succ, ih _ (Nat.lt_of_succ_lt_succ hw), packed_add_one]
      simp only [List.getElem?_drop, Nat.add_comm]

theorem length_elemWords (f : Fmt) (k : Nat) (l : List W32) : (elemWords f k l).length = k := by
  induction k generalizing l with
  | zero => rfl
  | succ k ih => rw [elemWords_add_one, List.length_cons, ih]

/-- The words of a row of bytes take none but its elements. -/
theorem packed_bytes_congr {el el' : Nat → W32} (h : ∀ k, k < 128 → el k = el' k) {w : Nat} (hw : w < 32) :
    el (4 * w) ||| (el (4 * w + 1) <<< 8) ||| (el (4 * w + 2) <<< 16) ||| (el (4 * w + 3) <<< 24) =
      el' (4 * w) ||| (el' (4 * w + 1) <<< 8) ||| (el' (4 * w + 2) <<< 16) ||| (el' (4 * w + 3) <<< 24) := by
  rw [h (4 * w) (by omega), h (4 * w + 1) (by omega), h (4 * w + 2) (by omega), h (4 * w + 3) (by omega)]

/-- The words of a row take none but its elements. -/
theorem packed_congr {f : Fmt} {el el' : Nat → W32} (h : ∀ k, k < 128 → el k = el' k) {w : Nat} (hw : w < 32 * f.size) : packed f el w = packed f el' w := by
  cases f
  case bf16 =>
    have hw' : w < 64 := hw
    exact congrArg₂ (fun a b : W32 => a ||| (b <<< 16)) (h (2 * w) (by omega)) (h (2 * w + 1) (by omega))
  case e4m3 => exact packed_bytes_congr h hw
  case e5m2 => exact packed_bytes_congr h hw
  all_goals exact h w hw

/-- Tiles set one after another. -/
theorem Dev.tile_foldl_setTile {α : Type} (h a : Nat) (f : α → Tile) {l : List (α × Nat)} (hnd : (l.map (·.2)).Nodup) (d : Dev) :
    let e := l.foldl (fun d p => d.setTile h (a + p.2) (f p.1)) d
    e.cores = d.cores ∧ (∀ p, p ∈ l → e.tile h (a + p.2) = f p.1) ∧ ∀ t, (∀ p, p ∈ l → t ≠ a + p.2) → e.tile h t = d.tile h t := by
  induction l generalizing d with
  | nil => exact ⟨rfl, nofun, fun _ _ => rfl⟩
  | cons p l ih =>
    rw [List.map_cons, List.nodup_cons] at hnd
    obtain ⟨hc, hin, hout⟩ := ih hnd.2 (d.setTile h (a + p.2) (f p.1))
    refine ⟨hc, fun p' hp' => ?_, fun t ht => ?_⟩
    · rcases List.mem_cons.mp hp' with rfl | hp'
      · refine (hout _ (fun y hy heq => hnd.1 ?_)).trans ((Dev.tile_setTile _ _ _ _ _).trans (if_pos rfl))
        exact (show p'.2 = y.2 by omega) ▸ List.mem_map_of_mem hy
      · exact hin p' hp'
    · refine (hout t (fun y hy => ht y (List.mem_cons_of_mem _ hy))).trans ((Dev.tile_setTile _ _ _ _ _).trans (if_neg (ht p List.mem_cons_self)))

/-! ### Tiles set before words are read (R229) -/

/-- From d to e tiles alone changed. -/
structure Dev.TilesOnly (d e : Dev) : Prop where
  rest : e = { d with courts := e.courts }
  group : ∀ t, (e.court t).group = (d.court t).group

theorem Dev.TilesOnly.refl (d : Dev) : d.TilesOnly d := ⟨rfl, fun _ => rfl⟩

theorem Dev.TilesOnly.trans {d e f : Dev} (h : d.TilesOnly e) (g : e.TilesOnly f) : d.TilesOnly f :=
  ⟨by rw [g.rest, h.rest], fun t => (g.group t).trans (h.group t)⟩

theorem Dev.TilesOnly.setTile (d : Dev) (h t : Nat) (x : Tile) : d.TilesOnly (d.setTile h t x) := by
  refine ⟨rfl, fun j => ?_⟩
  unfold Dev.setTile
  by_cases hj : j = courtOf h
  · rw [hj, Dev.court, Dev.updCourt, AMap.upd, AMap.get_put_self]
    rfl
  · rw [Dev.court, Dev.updCourt, AMap.upd, AMap.get_put_ne _ _ _ _ _ hj, Dev.court]

theorem Dev.TilesOnly.foldl {α : Type} {f : Dev → α → Dev} (hf : ∀ (e : Dev) (a : α), e.TilesOnly (f e a)) (l : List α) (d : Dev) : d.TilesOnly (l.foldl f d) :=
  List.foldlRecOn (motive := fun x : Dev => d.TilesOnly x) l f (refl d) (fun _ hx a _ => hx.trans (hf _ a))

theorem Dev.TilesOnly.cores {d e : Dev} (h : d.TilesOnly e) : e.cores = d.cores := (congrArg Dev.cores h.rest :)
theorem Dev.TilesOnly.core {d e : Dev} (h : d.TilesOnly e) (k : Nat) : e.core k = d.core k := by rw [Dev.core, h.cores, ← Dev.core]

section
variable {q : QCtx} {e : Dev}

/-- The same command in another device. -/
def QCtx.inDev (q : QCtx) (e : Dev) : QCtx := { q with d := e }

theorem QCtx.rd_inDev (h : q.d.TilesOnly e) (ix op : Nat) (own : Bool) (va : W64) : (q.inDev e).rd ix op own va = q.rd ix op own va := by
  unfold QCtx.inDev
  rw [h.rest]
  rfl

/-- What can be read stays so, with its value, when tiles are set. -/
theorem QCtx.readable_inDev (h : q.d.TilesOnly e) {x : Rd} (hx : q.readable x) : (q.inDev e).readable x ∧ (q.inDev e).value x = q.value x := by
  have htr : ∀ {need va pa lf}, q.d.translate q.m q.who need va = .ok pa lf → e.translate q.m q.who need va = .ok pa lf := fun ht => by
    rw [h.rest]
    exact Dev.translate_ok_of (d := q.d) (e := { q.d with courts := e.courts }) rfl (fun _ => rfl) (fun _ => rfl) (fun _ => rfl) h.group ht
  have hcore := h.core
  have hrest := h.rest
  unfold QCtx.readable at hx ⊢
  unfold QCtx.value
  split
  · next t a hl =>
    rw [hl] at hx
    obtain ⟨htable, hsound, hfree, hrestored, haway⟩ := hx
    refine ⟨⟨(hcore t).symm ▸ htable, (hcore t).symm ▸ hsound, ?_, (hcore t).symm ▸ hrestored, ?_⟩, congrArg (fun k => Core.word k a) (hcore t)⟩
    · rw [← hfree]
      unfold QCtx.inDev
      rw [hrest]
      rfl
    · rw [← haway]
      unfold QCtx.inDev
      rw [hrest]
      rfl
  · next va hl =>
    rw [hl] at hx
    obtain ⟨pa, ⟨lf, ht, hp⟩, hpend, hsound, hhand⟩ := hx
    have ht' : (q.inDev e).d.translate (q.inDev e).m (q.inDev e).who [.r] (BitVec.ofNat 64 (lineOf va)) = .ok pa lf := htr ht
    refine ⟨⟨pa, ⟨lf, ht', ?_⟩, ?_, ?_, ?_⟩, ?_⟩
    · exact hp.imp_right fun hp => (congrArg (fun k : Core => k.plb.any _) (hcore q.h)).trans hp
    · rw [← hpend]
      unfold QCtx.inDev
      rw [hrest]
      rfl
    · rw [← hsound]
      unfold QCtx.inDev
      rw [hrest]
    · unfold QCtx.inDev
      rw [hrest]
      exact hhand
    · rw [ht', ht]
      rfl
  · next reason hl =>
    rw [hl] at hx
    exact hx.elim

/-- The words of a step are read at once, once tiles have been set. -/
theorem QCtx.fetch_inDev {r : List Cmd} {rs : List Rd} (hq : q.Stands r) (h : q.d.TilesOnly e) (hr : q.reads rs) (hnd : (rs.map (·.ix)).Nodup) (tol : Bool) :
    ∃ e' m, (q.inDev e).fetch tol rs = .ok (rs.map (fun x => some (q.value x))) e' ∧ e.Sees e' ∧ ((q.inDev e).took m e').Stands r := by
  obtain ⟨e', m, hf, hs, hst, -⟩ := QCtx.fetch_reads (q := q.inDev e) (r := r) (rs := rs) ((congrArg (fun k : Core => (k.eq q.cq).q) (h.core q.h)).trans hq)
    ⟨hr.trapped, hr.parked, by
      refine hr.now.trans (Nat.le_of_eq ?_)
      unfold QCtx.inDev
      rw [h.rest]⟩
    (fun x hx => .of (QCtx.readable_inDev h (hr.all x hx)).1) hr.unread hnd tol
  refine ⟨e', m, ?_, hs, hst⟩
  rw [hf]
  exact congrArg (Fetch.ok · e') (List.map_congr_left fun x hx => congrArg some (QCtx.readable_inDev h (hr.all x hx)).2)

end

/-! ### acc.load (R229) -/

section
variable {hd : TileHdr} {x : AccArgs}

/-- The tiles of a command claimed. -/
def QCtx.claimed (q : QCtx) (x : AccArgs) : Dev :=
  (tilesFrom x.acc x.cnt).foldl (fun d t => d.setTile q.h t { d.tile q.h t with owner := some (q.h % 4), lk := q.c.lk }) q.d

/-- The words of the rows of n tiles. -/
def QCtx.accWords (q : QCtx) (x : AccArgs) (n : Nat) : List Rd :=
  (List.range n).flatMap (fun t => (List.range 128).flatMap (fun r => (List.range 128).map (fun c =>
    q.rd (16384 * t + 128 * r + c) 4 x.sp (accRow x t r + BitVec.ofNat 64 (4 * c)))))

/-- acc.load. -/
def accLoadBody (x : AccArgs) (q : QCtx) : Dev :=
  match (q.inDev (q.claimed x)).fetch false ((q.inDev (q.claimed x)).accWords x (x.cnt.toNat + 1)) with
  | .wait d => d
  | .stop d op reason va => (q.inDev (q.claimed x)).stopAt d op reason va
  | .ok vs d =>
    ((((pieces 16384 (x.cnt.toNat + 1) vs).zipIdx).foldl (fun d p =>
        d.setTile q.h (x.acc.toNat + p.2) ⟨some (q.h % 4), sparse (p.1.map (fun v => v.getD 0#32)), q.c.lk⟩) d).retireHead q.h q.cq).cmdReport
      q.h q.cq q.c.seq (65536 * (x.cnt.toNat + 1))

theorem exec_accLoad (st : State) : exec (.accLoad hd x) st = command (accLoadBody x) st := by
  unfold exec execAccLoad
  rfl

/-- Places numbered without gaps. -/
theorem flatMap_range_range {β : Type} (f : Nat → β) (n k : Nat) :
    (List.range n).flatMap (fun t => (List.range k).map (fun c => f (k * t + c))) = (List.range (k * n)).map f := by
  induction n with
  | zero => rfl
  | succ n ih =>
    rw [List.range_succ, List.flatMap_append, ih, List.flatMap_singleton, Nat.mul_succ, List.range_add, List.map_append, List.map_map]
    rfl

theorem QCtx.accWords_ix (q : QCtx) (x : AccArgs) (n : Nat) : (q.accWords x n).map (·.ix) = List.range (16384 * n) := by
  unfold QCtx.accWords
  rw [List.map_flatMap]
  have hin : ∀ t, ((List.range 128).flatMap (fun r => (List.range 128).map (fun c => q.rd (16384 * t + 128 * r + c) 4 x.sp (accRow x t r + BitVec.ofNat 64 (4 * c))))).map
      (·.ix) = (List.range 16384).map (fun m => 16384 * t + m) := fun t => by
    rw [List.map_flatMap, ← flatMap_range_range (fun m => 16384 * t + m) 128 128]
    refine List.flatMap_congr fun r _ => ?_
    rw [List.map_map]
    exact List.map_congr_left fun c _ => Nat.add_assoc _ _ _
  rw [List.flatMap_congr fun t _ => hin t, flatMap_range_range (fun m => m) n 16384, List.map_id']

theorem QCtx.length_accWords (q : QCtx) (x : AccArgs) (n : Nat) : (q.accWords x n).length = 16384 * n := by
  have := congrArg List.length (q.accWords_ix x n)
  rwa [List.length_map, List.length_range] at this

/-- A word of a tile's rows. -/
theorem QCtx.getElem?_accWords (q : QCtx) (x : AccArgs) {n t i j : Nat} (ht : t < n) (hi : i < 128) (hj : j < 128) :
    (q.accWords x n)[16384 * t + (128 * i + j)]? = some (q.rd (16384 * t + 128 * i + j) 4 x.sp (accRow x t i + BitVec.ofNat 64 (4 * j))) := by
  have hrow : ∀ t r, r ∈ List.range 128 → ((List.range 128).map (fun c => q.rd (16384 * t + 128 * r + c) 4 x.sp (accRow x t r + BitVec.ofNat 64 (4 * c)))).length = 128 :=
    fun t r _ => by rw [List.length_map, List.length_range]
  unfold QCtx.accWords
  rw [getElem?_flatMap_const (n := 16384) (fun t _ => by rw [length_flatMap_const (hrow t), List.length_range]) (by omega), List.getElem?_range ht,
    Option.bind_some, getElem?_flatMap_const (hrow t) hj, List.getElem?_range hi, Option.bind_some, List.getElem?_map, List.getElem?_range hj, Option.map_some]

theorem QCtx.claimed_tilesOnly (q : QCtx) (x : AccArgs) : q.d.TilesOnly (q.claimed x) :=
  .foldl (f := fun (d : Dev) t => d.setTile q.h t { d.tile q.h t with owner := some (q.h % 4), lk := q.c.lk }) (fun _ _ => .setTile _ _ _ _) _ _

/-- A command that is over reports its bytes: the commands behind it stay. -/
theorem Dev.retired_report {d : Dev} {h : Nat} {cq : Bool} {c : Cmd} {r : List Cmd} (hq : ((d.core h).eq cq).q = c :: r) (seq n : Nat) :
    d.Closes ((d.retireHead h cq).cmdReport h cq seq n) ∧ ((((d.retireHead h cq).cmdReport h cq seq n).core h).eq cq).q.map (·.seq) = r.map (·.seq) := by
  obtain ⟨hc, hr⟩ := Dev.retireHead_spec hq
  obtain ⟨hs, hf⟩ := (d.retireHead h cq).cmdReport_sees h cq seq n
  exact ⟨hc.trans hs.closes, map_seq_of_fixed (hr ▸ hf)⟩

/-- The tile that a command's words make. -/
def QCtx.tileOf (q : QCtx) (vs : List (Option W32)) : Tile := ⟨some (q.h % 4), sparse (vs.map (fun v => v.getD 0#32)), q.c.lk⟩

theorem accLoad_tiles : Commands (.accLoad hd x) (fun q _ => q.reads (q.accWords x (x.cnt.toNat + 1)))
    (fun q r e => ((e.core q.h).eq q.cq).q.map (·.seq) = r.map (·.seq) ∧ ∀ t, t < x.cnt.toNat + 1 →
      (e.tile q.h (x.acc.toNat + t)).owner = some (q.h % 4) ∧ ∀ i j, i < 128 → j < 128 →
        (e.tile q.h (x.acc.toNat + t)).elem (128 * i + j) = q.value (q.rd 0 4 x.sp (accRow x t i + BitVec.ofNat 64 (4 * j)))) := by
  refine commands_of exec_accLoad (fun q r hq hreads => ?_)
  have hon := q.claimed_tilesOnly x
  obtain ⟨e, m, hf, hsees, hst⟩ := QCtx.fetch_inDev hq hon hreads (by rw [q.accWords_ix]; exact List.nodup_range) false
  have hrd : (q.inDev (q.claimed x)).accWords x (x.cnt.toNat + 1) = q.accWords x (x.cnt.toNat + 1) := by
    unfold QCtx.accWords
    exact List.flatMap_congr fun t _ => List.flatMap_congr fun r _ => List.map_congr_left fun c _ => QCtx.rd_inDev hon _ _ _ _
  unfold accLoadBody
  rw [hrd, hf]
  dsimp only
  obtain ⟨vs, hvs⟩ : ∃ vs, vs = (q.accWords x (x.cnt.toNat + 1)).map (fun y => some (q.value y)) := ⟨_, rfl⟩
  rw [← hvs]
  have hlen : vs.length = 16384 * (x.cnt.toNat + 1) := by rw [hvs, List.length_map, q.length_accWords]
  have hidx : (pieces 16384 (x.cnt.toNat + 1) vs).zipIdx = (List.range (x.cnt.toNat + 1)).map (fun t => ((vs.drop (t * 16384)).take 16384, t)) :=
    zipIdx_eq (length_pieces _ _ _) (fun t ht => by rw [getElem?_pieces, if_pos ht])
  obtain ⟨hcores, hin, -⟩ := Dev.tile_foldl_setTile (l := (pieces 16384 (x.cnt.toNat + 1) vs).zipIdx) q.h x.acc.toNat q.tileOf (by
    rw [List.zipIdx_map_snd]
    exact List.nodup_range') e
  obtain ⟨e1, he1⟩ : ∃ e1, e1 = (pieces 16384 (x.cnt.toNat + 1) vs).zipIdx.foldl (fun (d : Dev) p => d.setTile q.h (x.acc.toNat + p.2) (q.tileOf p.1)) e := ⟨_, rfl⟩
  rw [← he1] at hcores hin
  have hq1 : ((e1.core q.h).eq q.cq).q = { q.c with rd := m } :: r := by
    rw [Dev.core, hcores, ← Dev.core]
    exact hst
  obtain ⟨hcl, hr⟩ := Dev.retired_report hq1 q.c.seq (65536 * (x.cnt.toNat + 1))
  unfold QCtx.tileOf at he1
  rw [← he1]
  refine ⟨fun j n => ?_, hr, fun t ht => ?_⟩
  · have h1 : (q.d.slot j n).SameUser (e.slot j n) := (congrArg (fun k => Slot.SameUser (k.slot n) (e.slot j n)) (hon.core j)).mp (hsees.woken j n).sameUser
    have h2 : (e.slot j n).SameUser (e1.slot j n) := (Dev.Aside.of_cores hcores j n).sameUser
    exact (h1.trans h2).trans (hcl.woken j n).sameUser
  · have htile : e1.tile q.h (x.acc.toNat + t) = q.tileOf ((vs.drop (t * 16384)).take 16384) :=
      hin ((vs.drop (t * 16384)).take 16384, t) (by rw [hidx]; exact List.mem_map_of_mem (List.mem_range.mpr ht))
    rw [hcl.tile, htile]
    refine ⟨rfl, fun i j hi hj => ?_⟩
    unfold Tile.elem QCtx.tileOf
    rw [dense_sparse (by rw [List.length_map, List.length_take, List.length_drop, hlen]; omega), List.getElem?_map, List.getElem?_take_of_lt (by omega),
      List.getElem?_drop, hvs, List.getElem?_map, Nat.mul_comm t, q.getElem?_accWords x ht hi hj]
    rfl

/-! ### acc.store (R229) -/

/-- The output format of a command (R224). -/
def QCtx.outFmt (q : QCtx) : Fmt := fmtOf (ofmtOf ((q.d.core q.h).eq q.cq).ctx)

/-- An element as acc.store writes it (R229). -/
def QCtx.outElem (q : QCtx) (v : W32) : W32 := encF q.outFmt (orndMode ((q.d.core q.h).eq q.cq).ctx) false (decF .f32 false v)

/-- acc.store, once it is not refused. -/
def QCtx.storeAcc (q : QCtx) (ws : List Wr) : Dev :=
  match q.write q.d 5 [.w] ws with
  | .wait d => d
  | .stop d op reason va => q.stopAt d op reason va
  | .ok d =>
    let banks := (ws.filter (fun w => match w.loc with | .bank _ _ => true | _ => false)).length
    let reports := banks + (if banks < ws.length then 1 else 0)
    (d.retireHead q.h q.cq).updCmd q.h q.cq q.c.seq (fun c => { c with total := reports })

/-- acc.store. -/
def accStoreBody (x : AccArgs) (q : QCtx) : Dev :=
  if x.pitch.toNat < 128 * q.outFmt.size || !q.d.ownsAll q.h (tilesFrom x.acc x.cnt) then q.d.rejectHead q.h q.cq 5 else
  q.storeAcc ((tilesFrom x.acc x.cnt).zipIdx.flatMap (fun t => ((pieces 128 128 (q.d.tile q.h t.1).dense).zipIdx).flatMap (fun r =>
    ((elemWords q.outFmt (32 * q.outFmt.size) (r.1.map q.outElem)).zipIdx).map (fun w => q.wr x.sp (accRow x t.2 r.2 + BitVec.ofNat 64 (4 * w.2)) w.1))))

theorem exec_accStore (st : State) : exec (.accStore hd x) st = command (accStoreBody x) st := by
  unfold exec execAccStore
  refine congrArg (fun f => command f st) (funext fun q => ?_)
  unfold accStoreBody QCtx.storeAcc QCtx.outElem QCtx.outFmt
  dsimp only <;> split <;> rfl

/-- A word that acc.store writes, by its tile, row and place. -/
def QCtx.accOut (q : QCtx) (x : AccArgs) (o : Nat × Nat × Nat) : Wr :=
  q.wr x.sp (accRow x o.1 o.2.1 + BitVec.ofNat 64 (4 * o.2.2)) (packed q.outFmt (fun k => q.outElem ((q.d.tile q.h (x.acc.toNat + o.1)).elem (128 * o.2.1 + k))) o.2.2)

/-- Tiles, rows and places of the words that acc.store writes. -/
def accPlaces (n per : Nat) : List (Nat × Nat × Nat) := (List.range n).product ((List.range 128).product (List.range per))

theorem mem_accPlaces {n per : Nat} {o : Nat × Nat × Nat} : o ∈ accPlaces n per ↔ o.1 < n ∧ o.2.1 < 128 ∧ o.2.2 < per := by
  refine ⟨fun h => ?_, fun ⟨h1, h2, h3⟩ => List.mem_product.mpr ⟨List.mem_range.mpr h1, List.mem_product.mpr ⟨List.mem_range.mpr h2, List.mem_range.mpr h3⟩⟩⟩
  obtain ⟨h1, h23⟩ := List.mem_product.mp h
  obtain ⟨h2, h3⟩ := List.mem_product.mp h23
  exact ⟨List.mem_range.mp h1, List.mem_range.mp h2, List.mem_range.mp h3⟩

theorem map_product {α β γ : Type} (l : List α) (m : List β) (f : α × β → γ) : (l.product m).map f = l.flatMap (fun a => m.map (fun b => f (a, b))) := by
  unfold List.product
  rw [List.map_flatMap]
  exact List.flatMap_congr fun a _ => List.map_map

/-- The words of a tile's row, converted and packed. -/
theorem getElem?_outRow (q : QCtx) (tl : Tile) {r w : Nat} (hr : r < 128) (hw : w < 32 * q.outFmt.size) :
    (elemWords q.outFmt (32 * q.outFmt.size) (((tl.dense.drop (r * 128)).take 128).map q.outElem))[w]? =
      some (packed q.outFmt (fun k => q.outElem (tl.elem (128 * r + k))) w) := by
  rw [getElem?_elemWords _ _ _ hw]
  refine congrArg some (packed_congr (fun k hk => ?_) hw)
  have hlt : r * 128 + k < tl.dense.length := by rw [Tile.length_dense]; omega
  unfold Tile.elem
  rw [List.getElem?_map, List.getElem?_take_of_lt hk, List.getElem?_drop, Nat.mul_comm 128 r, List.getElem?_eq_getElem hlt]
  rfl

/-- The words that acc.store writes. -/
theorem QCtx.accOut_list (q : QCtx) (x : AccArgs) :
    (tilesFrom x.acc x.cnt).zipIdx.flatMap (fun t => ((pieces 128 128 (q.d.tile q.h t.1).dense).zipIdx).flatMap (fun r =>
      ((elemWords q.outFmt (32 * q.outFmt.size) (r.1.map q.outElem)).zipIdx).map (fun w => q.wr x.sp (accRow x t.2 r.2 + BitVec.ofNat 64 (4 * w.2)) w.1))) =
    (accPlaces (x.cnt.toNat + 1) (32 * q.outFmt.size)).map (q.accOut x) := by
  unfold accPlaces
  rw [map_product, zipIdx_eq (k := x.cnt.toNat + 1) (v := fun t => x.acc.toNat + t) (by rw [tilesFrom, List.length_map, List.length_range])
    (fun t ht => by rw [tilesFrom, List.getElem?_map, List.getElem?_range ht]; rfl), List.flatMap_map]
  refine List.flatMap_congr fun t _ => ?_
  rw [map_product, zipIdx_eq (length_pieces _ _ _) (fun r hr => by rw [getElem?_pieces, if_pos hr]), List.flatMap_map]
  refine List.flatMap_congr fun r hr => ?_
  rw [zipIdx_eq (length_elemWords _ _ _) (fun w hw => getElem?_outRow q _ (List.mem_range.mp hr) hw), List.map_map]
  rfl

theorem Fmt.size_le (f : Fmt) : f.size ≤ 4 := by cases f <;> decide

/-- Words of different places lie apart. -/
theorem accPlaces_apart {per size : Nat} (hper : per = 32 * size) (hp : 128 * size ≤ x.pitch.toNat)
    (hend : x.base.toNat + 128 * (x.cnt.toNat + 1) * x.pitch.toNat ≤ 2 ^ 64) :
    (accPlaces (x.cnt.toNat + 1) per).Pairwise (fun a b => accRow x a.1 a.2.1 + BitVec.ofNat 64 (4 * a.2.2) ≠ accRow x b.1 b.2.1 + BitVec.ofNat 64 (4 * b.2.2)) := by
  have hat : ∀ a, a ∈ accPlaces (x.cnt.toNat + 1) per → (accRow x a.1 a.2.1 + BitVec.ofNat 64 (4 * a.2.2)).toNat =
      x.base.toNat + ((128 * a.1 + a.2.1) * x.pitch.toNat + 4 * a.2.2) ∧ 4 * a.2.2 < x.pitch.toNat := fun a ha => by
    obtain ⟨h1, h2, h3⟩ := mem_accPlaces.mp ha
    have hmul : (128 * a.1 + a.2.1) * x.pitch.toNat + x.pitch.toNat ≤ 128 * (x.cnt.toNat + 1) * x.pitch.toNat := by
      rw [← Nat.succ_mul]
      exact Nat.mul_le_mul_right _ (by omega)
    refine ⟨?_, by omega⟩
    unfold accRow
    rw [BitVec.toNat_add, BitVec.toNat_add, BitVec.toNat_ofNat, BitVec.toNat_ofNat]
    omega
  refine List.Pairwise.imp_of_mem (R := fun a b => a ≠ b) (fun {a b} ha hb hne heq => hne ?_)
    (List.nodup_range.product (List.nodup_range.product List.nodup_range))
  obtain ⟨hva, hla⟩ := hat a ha
  obtain ⟨hvb, hlb⟩ := hat b hb
  obtain ⟨-, ha2, -⟩ := mem_accPlaces.mp ha
  obtain ⟨-, hb2, -⟩ := mem_accPlaces.mp hb
  have hsame : (128 * a.1 + a.2.1) * x.pitch.toNat + 4 * a.2.2 = (128 * b.1 + b.2.1) * x.pitch.toNat + 4 * b.2.2 := by
    have := congrArg BitVec.toNat heq
    omega
  have hrow : 128 * a.1 + a.2.1 = 128 * b.1 + b.2.1 := by
    have hdiv : ∀ m w, w < x.pitch.toNat → (m * x.pitch.toNat + w) / x.pitch.toNat = m := fun m w hw => by
      rw [Nat.mul_comm, Nat.mul_add_div (by omega), Nat.div_eq_of_lt hw, Nat.add_zero]
    rw [← hdiv (128 * a.1 + a.2.1) _ hla, hsame, hdiv _ _ hlb]
  rw [hrow] at hsame
  exact Prod.ext (by omega) (Prod.ext (by omega) (by omega))

/-- A command of the queue changed: nothing that a step sees has changed, and the queue's commands keep their numbers. -/
theorem Dev.updCmd_spec (d : Dev) (h : Nat) (cq : Bool) (seq : Nat) {f : Cmd → Cmd} (hf : ∀ c, (f c).seq = c.seq) :
    d.Sees (d.updCmd h cq seq f) ∧ (((d.updCmd h cq seq f).core h).eq cq).q.map (·.seq) = ((d.core h).eq cq).q.map (·.seq) := by
  refine ⟨.updEq d h cq (fun _ => rfl), ?_⟩
  rw [Dev.updCmd, Dev.eq_of_updEq, EQ.updCmd, List.map_map]
  refine List.map_congr_left fun c _ => ?_
  rw [Function.comp]
  split
  · exact hf c
  · rfl

/-- acc.store is taken where its format and tiles are right. -/
def accTaken (q : QCtx) (x : AccArgs) : Prop := 128 * q.outFmt.size ≤ x.pitch.toNat ∧
  ∀ t, t < x.cnt.toNat + 1 → (q.d.tile q.h (x.acc.toNat + t)).owner = some (q.h % 4)

theorem accStore_writes : Commands (.accStore hd x)
    (fun q _ => accTaken q x ∧ x.base.toNat + 128 * (x.cnt.toNat + 1) * x.pitch.toNat ≤ 2 ^ 64 ∧
      ∀ o, o ∈ accPlaces (x.cnt.toNat + 1) (32 * q.outFmt.size) → q.writable (q.accOut x o))
    (fun q r e => ((e.core q.h).eq q.cq).q.map (·.seq) = r.map (·.seq) ∧
      ∀ o, o ∈ accPlaces (x.cnt.toNat + 1) (32 * q.outFmt.size) → q.wrote e (q.accOut x o)) := by
  refine commands_of exec_accStore (fun q r hq ⟨⟨hp, hown⟩, hend, hw⟩ => ?_)
  have howns : q.d.ownsAll q.h (tilesFrom x.acc x.cnt) = true := List.all_eq_true.mpr fun t ht => by
    obtain ⟨i, hi, rfl⟩ := List.mem_map.mp ht
    rw [hown i (List.mem_range.mp hi)]
    exact beq_self_eq_true _
  unfold accStoreBody
  rw [if_neg (by rw [howns]; simp [hp]), q.accOut_list]
  obtain ⟨ws, hws⟩ : ∃ ws, ws = (accPlaces (x.cnt.toNat + 1) (32 * q.outFmt.size)).map (q.accOut x) := ⟨_, rfl⟩
  obtain ⟨e1, he1, hkeep, haside, hflows, hwrote⟩ := QCtx.writeAs_done (p := q) (.refl q.d) (ws := ws) (fun w hw' => by
    rw [hws] at hw'
    obtain ⟨o, ho, rfl⟩ := List.mem_map.mp hw'
    exact hw o ho) (hws ▸ apart_wr (accPlaces_apart rfl hp hend)) 5 (4 * (ws.filter (fun w => match w.loc with | .mem _ => true | _ => false)).length)
  obtain ⟨hc, hr⟩ := Dev.retireHead_spec (d := e1) (by rw [hkeep.queues]; exact hq)
  have hend : ∀ n, (∀ j k, (q.d.slot j k).SameUser (((e1.retireHead q.h q.cq).updCmd q.h q.cq q.c.seq (fun c => { c with total := n })).slot j k)) ∧
      ((((e1.retireHead q.h q.cq).updCmd q.h q.cq q.c.seq (fun c => { c with total := n })).core q.h).eq q.cq).q.map (·.seq) = r.map (·.seq) ∧
      ∀ o, o ∈ accPlaces (x.cnt.toNat + 1) (32 * q.outFmt.size) →
        q.wrote ((e1.retireHead q.h q.cq).updCmd q.h q.cq q.c.seq (fun c => { c with total := n })) (q.accOut x o) := fun n => by
    obtain ⟨hs, hseq⟩ := (e1.retireHead q.h q.cq).updCmd_spec q.h q.cq q.c.seq (f := fun c => { c with total := n }) (fun _ => rfl)
    have hcl := hc.trans hs.closes
    exact ⟨fun j n => (Dev.sameUser_of (.refl q.d) haside j n).trans (hcl.woken j n).sameUser, by rw [hseq, hr],
      fun o ho => (hwrote _ (hws ▸ List.mem_map_of_mem ho)).closes hcl⟩
  rw [← hws]
  unfold QCtx.storeAcc QCtx.write
  split
  · next d h => exact nomatch he1.symm.trans h
  · next d op reason va h => exact nomatch he1.symm.trans h
  · next d h =>
    obtain rfl : e1 = d := Store.ok.inj (he1.symm.trans h)
    exact hend _

theorem accStore_refused : Commands (.accStore hd x) (fun q _ => x.pitch.toNat < 128 * q.outFmt.size) (fun q r e => q.refusedWith r e 0x60 5) := by
  have h := rejected (pre := fun q _ => x.pitch.toNat < 128 * q.outFmt.size) (exec_accStore (hd := hd) (x := x)) (fun q r hp => by
    unfold accStoreBody
    rw [if_pos (by simp [hp])])
  exact h.mono (fun _ _ h => h) (fun _ _ _ _ h => h.1)

end

end Sys2Proof.Machine
end

section
/-! PROOFS. The matrix unit: mm (R49, R231 to R235). -/

namespace Sys2Proof.Machine

/-! ### The command as cases (R231 to R235) -/

/-- The elements of words. -/
def mmElems (f : Fmt) (ws : List W32) : List FVal := (ws.flatMap (wordElems f)).map (decF f false)

/-- The elements of a tile after a block of rows and columns, given by their words and scaled row by row (R49). -/
def mmTile (z : MmShape) (g : Nat → FVal) (vs old : List W32) : List W32 :=
  let rows := (pieces (32 * z.fa.size) 128 vs).map (mmElems z.fa)
  let cols := columns ((pieces (32 * z.fb.size) 128 (vs.drop (128 * (32 * z.fa.size)))).map (mmElems z.fb))
  ((rows.zip (pieces 128 128 old)).zipIdx).flatMap (fun r => (r.1.2.zip cols).map (fun c => mmElem (g r.2) c.1 r.1.1 c.2))

/-- The scale of row i of a block, from the scales of rows and columns (R233). -/
def mmGain (z : MmShape) (sa sb : AMap W32) (mi ni β i : Nat) : FVal :=
  if z.scaled then
    decF .f32 false (encF .f32 .rn false (mulF (decF .f32 false (sa.get 0#32 ((128 * mi + i) * z.kb + β))) (decF .f32 false (sb.get 0#32 (β * z.nt + ni)))))
  else .fin false 1 0

/-- Values by their places. -/
def byPlace (l : List W32) : AMap W32 := ⟨l.zipIdx.map (fun e => (e.2, e.1))⟩

/-- The step's tile is updated, its scales kept, and the step is over. -/
def QCtx.mmDone (q : QCtx) (x : MmArgs) (z : MmShape) (sa sb : AMap W32) (vs : List W32) (d : Dev) : Dev :=
  let s := q.c.step
  let t := x.acc.toNat + s / z.kb
  let d := d.setTile q.h t { d.tile q.h t with
    el := sparse (mmTile z (mmGain z sa sb (s / z.kb / z.nt) (s / z.kb % z.nt) (s % z.kb)) vs (d.tile q.h t).dense) }
  let d := d.updCmd q.h q.cq q.c.seq (fun c => { c with sa := sa, sb := sb })
  let d := q.stepped d (z.mt * z.nt * z.kb - 1)
  if z.mt * z.nt * z.kb - 1 ≤ s then d.cmdReport q.h q.cq q.c.seq 1 else d

/-- The step captures the scales. -/
def QCtx.captures (q : QCtx) (z : MmShape) (first : Nat) : Bool := z.scaled && q.c.step == first && q.c.sa.ents.isEmpty

/-- The words of rows of A that step s reads. -/
def QCtx.mmRows (q : QCtx) (x : MmArgs) (z : MmShape) (s : Nat) : List Rd :=
  q.block 0 1 x.asrc x.abase x.apitch.toNat (128 * (s / z.kb / z.nt)) (128 * (s % z.kb) * z.fa.size) (32 * z.fa.size)

/-- The words of rows of B that step s reads. -/
def QCtx.mmCols (q : QCtx) (x : MmArgs) (z : MmShape) (s : Nat) : List Rd :=
  q.block 16384 2 x.bsrc x.bbase x.bpitch.toNat (128 * (s % z.kb)) (128 * (s / z.kb % z.nt) * z.fb.size) (32 * z.fb.size)

/-- A step of mm of a command that has begun. -/
def QCtx.mmStep (q : QCtx) (x : MmArgs) (z : MmShape) (first : Nat) : Dev :=
  let cap := q.captures z first
  let scs := if cap then q.scales x z else []
  match q.fetch false (scs ++ q.mmRows x z q.c.step ++ q.mmCols x z q.c.step) with
  | .wait d => d
  | .stop d op reason va => q.stopAt d op reason va
  | .ok vs d =>
    let vs := vs.map (fun v => v.getD 0#32)
    let sc := vs.take scs.length
    let nsa := 128 * z.mt * z.kb
    q.mmDone x z (if cap then byPlace (sc.take nsa) else q.c.sa) (if cap then byPlace (sc.drop nsa) else q.c.sb) (vs.drop scs.length) d

/-- The object operands of a command, each once (R234). -/
def mmObjs (h : Nat) (x : MmArgs) : List (Nat × Nat) :=
  ((if x.asrc then [(objCore h x.abase, objIx x.abase)] else []) ++ (if x.bsrc then [(objCore h x.bbase, objIx x.bbase)] else [])).dedup

/-- An object used once more. -/
def Core.refObj (k : Core) (o : Nat) : Core := k.setObj o { k.obj o with ref := (k.obj o).ref + 1 }

/-- Objects used once more. -/
def Dev.refObjs (d : Dev) (os : List (Nat × Nat)) : Dev := os.foldl (fun d o => d.updCore o.1 (fun k => k.refObj o.2)) d

/-- The command has begun, and uses its objects. -/
def QCtx.mmStart (q : QCtx) (hd : TileHdr) (x : MmArgs) : QCtx :=
  let p := q.begin_ hd 0
  { p with d := if !q.c.begun then (p.d.refObjs (mmObjs p.h x)).updCmd p.h p.cq p.c.seq (fun c => { c with objs := mmObjs p.h x }) else p.d }

/-- The shape of a command. -/
def QCtx.mmShape (q : QCtx) (x : MmArgs) : MmShape := Machine.mmShape x ((q.d.core q.h).eq q.cq).ctx

/-- mm. -/
def mmBody (hd : TileHdr) (x : MmArgs) (q : QCtx) : Dev :=
  let z := q.mmShape x
  if !q.c.begun && (!mmFits x z || !q.d.ownsAll q.h ((List.range (z.mt * z.nt)).map (fun t => x.acc.toNat + t))) then q.d.rejectHead q.h q.cq 5 else
  match (if q.c.begun then none else q.badObject x z ((q.d.core q.h).eq q.cq).ctx) with
  | some e => (q.begin_ hd 0).stopAt (q.begin_ hd 0).d e.1 4 e.2
  | none => (q.mmStart hd x).mmStep x z hd.rstep.toNat

theorem exec_mm (hd : TileHdr) (x : MmArgs) (st : State) : exec (.mm hd x) st = command (mmBody hd x) st := by
  unfold exec execMm
  refine congrArg (fun f => command f st) (funext fun q => ?_)
  unfold mmBody QCtx.mmShape
  refine ite_congr rfl (fun _ => rfl) (fun _ => ?_)
  generalize (if q.c.begun then none else q.badObject x (Machine.mmShape x ((q.d.core q.h).eq q.cq).ctx) ((q.d.core q.h).eq q.cq).ctx) = o
  cases o with
  | some e => rfl
  | none =>
    unfold QCtx.mmStart Dev.refObjs mmObjs
    rfl

/-! ### Values by places, and a tile after a block (R49, R233) -/

theorem byPlace_find? (l : List W32) (b k : Nat) : ((l.zipIdx b).map (fun e => (e.2, e.1))).find? (fun e => e.1 == b + k) = (l[k]?).map (fun v => (b + k, v)) := by
  induction l generalizing b k with
  | nil => rfl
  | cons v l ih =>
    rw [List.zipIdx_cons, List.map_cons, List.find?_cons]
    cases k with
    | zero => simp
    | succ k =>
      have h := ih (b + 1) k
      rw [show b + 1 + k = b + (k + 1) by omega] at h
      rw [h, List.getElem?_cons_succ, beq_false_of_ne (show b ≠ b + (k + 1) by omega)]

theorem get_byPlace (l : List W32) (k : Nat) : (byPlace l).get 0#32 k = (l[k]?).getD 0#32 := by
  unfold AMap.get
  rw [AMap.find?_eq_map]
  have h := byPlace_find? l 0 k
  rw [Nat.zero_add] at h
  unfold byPlace
  rw [h, Option.map_map]
  exact congrArg (Option.getD · 0#32) Option.map_id'

theorem pieces_eq {α : Type} (n k : Nat) (l : List α) : pieces n k l = (List.range k).map (fun i => (l.drop (i * n)).take n) := by
  refine List.ext_getElem? fun i => ?_
  rw [getElem?_pieces, List.getElem?_map]
  split
  · next hi => rw [List.getElem?_range hi, Option.map_some]
  · next hi => rw [List.getElem?_eq_none (by rw [List.length_range]; omega), Option.map_none]

/-- The column of a block given by its rows' words. -/
def mmColumn (f : Fmt) (row : Nat → List W32) (j : Nat) : List FVal := (List.range 128).map (fun k => ((mmElems f (row k))[j]?).getD .nan)

section
variable {z : MmShape} {g : Nat → FVal} {vs old : List W32}

theorem mmTile_eq (z : MmShape) (g : Nat → FVal) (vs old : List W32) : mmTile z g vs old = (List.range 128).flatMap (fun i => (((old.drop (i * 128)).take 128).zip
    ((List.range 128).map (mmColumn z.fb (fun k => ((vs.drop (128 * (32 * z.fa.size))).drop (k * (32 * z.fb.size))).take (32 * z.fb.size))))).map
      (fun c => mmElem (g i) c.1 (mmElems z.fa ((vs.drop (i * (32 * z.fa.size))).take (32 * z.fa.size))) c.2)) := by
  have hcols : columns ((pieces (32 * z.fb.size) 128 (vs.drop (128 * (32 * z.fa.size)))).map (mmElems z.fb)) =
      (List.range 128).map (mmColumn z.fb (fun k => ((vs.drop (128 * (32 * z.fa.size))).drop (k * (32 * z.fb.size))).take (32 * z.fb.size))) := by
    unfold columns
    refine List.map_congr_left fun j _ => ?_
    rw [pieces_eq, List.map_map, List.map_map]
    rfl
  unfold mmTile
  rw [hcols]
  dsimp only
  rw [pieces_eq (32 * z.fa.size), pieces_eq 128, List.map_map, List.zip_map', zipIdx_eq (k := 128) (by rw [List.length_map, List.length_range]) (fun i hi => by
    rw [List.getElem?_map, List.getElem?_range hi, Option.map_some]), List.flatMap_map]
  rfl

theorem mmTile_row_length (hold : old.length = 16384) {f : W32 × List FVal → W32} {cols : List (List FVal)} (hc : cols.length = 128) :
    ∀ i, i ∈ List.range 128 → ((((old.drop (i * 128)).take 128).zip cols).map f).length = 128 := fun i hi => by
  have := List.mem_range.mp hi
  rw [List.length_map, List.length_zip, List.length_take, List.length_drop, hold, hc]
  omega

theorem length_mmTile (hold : old.length = 16384) : (mmTile z g vs old).length = 16384 := by
  rw [mmTile_eq, length_flatMap_const (n := 128) (fun i hi => mmTile_row_length hold (by rw [List.length_map, List.length_range]) i hi), List.length_range]

/-- An element of a tile after a block: R49's sum over its row and column. -/
theorem getElem?_mmTile (hold : old.length = 16384) {i j : Nat} (hi : i < 128) (hj : j < 128) : (mmTile z g vs old)[128 * i + j]? =
    some (mmElem (g i) ((old[128 * i + j]?).getD 0#32) (mmElems z.fa ((vs.drop (i * (32 * z.fa.size))).take (32 * z.fa.size)))
      (mmColumn z.fb (fun k => ((vs.drop (128 * (32 * z.fa.size))).drop (k * (32 * z.fb.size))).take (32 * z.fb.size)) j)) := by
  have hlt : 128 * i + j < old.length := by omega
  rw [mmTile_eq, getElem?_flatMap_const (n := 128) (fun i hi => mmTile_row_length hold (by rw [List.length_map, List.length_range]) i hi) hj, List.getElem?_range hi,
    Option.bind_some, List.getElem?_map, List.getElem?_zip_eq_some (z := (old[128 * i + j], _)) |>.mpr ⟨?_, ?_⟩, Option.map_some, List.getElem?_eq_getElem hlt,
    Option.getD_some]
  · rw [List.getElem?_take_of_lt hj, List.getElem?_drop, Nat.mul_comm i, List.getElem?_eq_getElem hlt]
  · rw [List.getElem?_map, List.getElem?_range hj, Option.map_some]

end

/-! ### A command's objects (R234) -/

/-- From d to e each object's words lie where they lay. -/
def Dev.ObjsLie (d e : Dev) : Prop := ∀ t i, ((e.core t).obj i).base = ((d.core t).obj i).base ∧ ((e.core t).obj i).pitch = ((d.core t).obj i).pitch ∧
  ((e.core t).obj i).st = ((d.core t).obj i).st

theorem Dev.ObjsLie.refl (d : Dev) : d.ObjsLie d := fun _ _ => ⟨rfl, rfl, rfl⟩
theorem Dev.ObjsLie.trans {d e f : Dev} (h : d.ObjsLie e) (g : e.ObjsLie f) : d.ObjsLie f := fun t i =>
  ⟨(g t i).1.trans (h t i).1, (g t i).2.1.trans (h t i).2.1, (g t i).2.2.trans (h t i).2.2⟩

theorem Dev.ObjsLie.updEq (d : Dev) (h : Nat) (cq : Bool) (f : EQ → EQ) : d.ObjsLie (d.updCore h (fun k => k.updEq cq f)) := fun t i => by
  have hobj : ((d.updCore h (fun k => k.updEq cq f)).core t).obj i = (d.core t).obj i := by
    by_cases ht : t = h
    · rw [ht, Dev.core_updCore_self, Core.obj, Core.objs_updEq, Core.obj]
    · rw [Dev.core_updCore_ne _ _ _ _ ht]
  rw [hobj]
  exact ⟨rfl, rfl, rfl⟩

theorem Core.obj_refObj {k : Core} {o : Nat} (ho : (k.obj o).st ≠ .free) (i : Nat) :
    (k.refObj o).obj i = if i = o then { k.obj o with ref := (k.obj o).ref + 1 } else k.obj i := Core.obj_setObj k o i _ (fun h' => absurd h' ho)

theorem Dev.ObjsLie.ref (d : Dev) {h o : Nat} (ho : ((d.core h).obj o).st ≠ .free) : d.ObjsLie (d.updCore h (fun k => k.refObj o)) := fun t i => by
  by_cases ht : t = h
  · rw [ht, Dev.core_updCore_self, Core.obj_refObj ho]
    split
    · next hi => rw [hi]; exact ⟨rfl, rfl, rfl⟩
    · exact ⟨rfl, rfl, rfl⟩
  · rw [Dev.core_updCore_ne _ _ _ _ ht]
    exact ⟨rfl, rfl, rfl⟩

/-- Objects used once more: their words stay where they are, and nothing that a step sees has changed, nor any queue. -/
theorem Dev.refObjs_spec {os : List (Nat × Nat)} {d : Dev} (ho : ∀ o, o ∈ os → ((d.core o.1).obj o.2).st ≠ .free) :
    d.Sees (d.refObjs os) ∧ d.ObjsLie (d.refObjs os) ∧ ∀ k cq, ((d.refObjs os).core k).eq cq = (d.core k).eq cq := by
  induction os generalizing d with
  | nil => exact ⟨.refl d, .refl d, fun _ _ => rfl⟩
  | cons o os ih =>
    have h1 : d.ObjsLie (d.updCore o.1 (fun k => k.refObj o.2)) := .ref d (ho o List.mem_cons_self)
    have hs1 : d.Sees (d.updCore o.1 (fun k => k.refObj o.2)) := .updCore d o.1 (fun _ => rfl) (fun _ _ => rfl) (fun _ _ => rfl)
    obtain ⟨hs, hl, hq⟩ := ih (d := d.updCore o.1 (fun k => k.refObj o.2)) (fun y hy => by
      rw [(h1 y.1 y.2).2.2]
      exact ho y (List.mem_cons_of_mem _ hy))
    refine ⟨hs1.trans hs, h1.trans hl, fun k cq => (hq k cq).trans ?_⟩
    by_cases hk : k = o.1
    · rw [hk, Dev.core_updCore_self]
      rfl
    · rw [Dev.core_updCore_ne _ _ _ _ hk]

/-- Operands that pass their checks are no free objects. -/
theorem QCtx.not_free_of_badObject {q : QCtx} {x : MmArgs} {z : MmShape} {ctx : W32} (h : q.badObject x z ctx = none) :
    ∀ o, o ∈ mmObjs q.h x → ((q.d.core o.1).obj o.2).st ≠ .free := by
  have hok : ∀ (b : Obj) {code rows cols : Nat}, b.operandOk q.c.lk code rows cols = true → b.st ≠ .free := fun b _ _ _ hb hst => by
    unfold Obj.operandOk at hb
    rw [hst] at hb
    exact absurd hb (by simp)
  unfold QCtx.badObject at h
  extract_lets bad at h
  obtain ⟨h1, h2⟩ := Option.or_eq_none_iff.mp h
  have hbad : ∀ {n src base code rows cols}, bad n src base code rows cols = none → src = true → ((q.d.core (objCore q.h base)).obj (objIx base)).st ≠ .free := by
    intro n src base code rows cols hb hsrc
    unfold bad at hb
    rw [hsrc] at hb
    dsimp only at hb
    split at hb
    · next h' => exact nomatch h'
    · split at hb
      · next hgood => exact hok _ hgood
      · exact nomatch hb
  intro o ho
  unfold mmObjs at ho
  rcases List.mem_append.mp (List.mem_dedup.mp ho) with ho | ho
  · split at ho
    · next hsrc =>
      rw [List.mem_singleton.mp ho]
      exact hbad h1 hsrc
    · exact nomatch ho
  · split at ho
    · next hsrc =>
      rw [List.mem_singleton.mp ho]
      exact hbad h2 hsrc
    · exact nomatch ho

/-! ### A step begins (R226, R232, R234) -/

/-- The command with its objects noted. -/
def QCtx.using (q : QCtx) (os : List (Nat × Nat)) : QCtx := { q with c := { q.c with objs := os } }

theorem QCtx.objsLie_begin (q : QCtx) (hd : TileHdr) : q.d.ObjsLie (q.begin_ hd 0).d := by
  unfold QCtx.begin_
  split
  · exact .refl _
  · exact .updEq _ _ _ _

/-- The command has begun with its step, and where its objects' words lie is as it was. -/
theorem QCtx.mmStart_spec {q : QCtx} {r : List Cmd} (hq : q.Stands r) {hd : TileHdr} {x : MmArgs} {s : Nat} (hs : q.atStep hd s)
    (hbad : q.c.begun = false → q.badObject x (q.mmShape x) ((q.d.core q.h).eq q.cq).ctx = none) :
    ∃ os r', q.OnStep ((q.mmStart hd x).using os) s r r' ∧ (q.mmStart hd x).c.fixed = (q.c.atStep s).fixed ∧ q.d.ObjsLie (q.mmStart hd x).d := by
  obtain ⟨r', b⟩ := QCtx.begins hq hs 0
  have hlie := q.objsLie_begin hd
  unfold QCtx.mmStart
  generalize q.begin_ hd 0 = p at b hlie
  dsimp only
  by_cases hbegun : q.c.begun = true
  · rw [if_neg (by rw [hbegun]; exact Bool.false_ne_true)]
    exact ⟨p.c.objs, r', b.toOnStep, b.cmd, hlie⟩
  · rw [if_pos (by rw [Bool.eq_false_iff.mpr hbegun]; rfl)]
    obtain ⟨hs1, hl1, hq1⟩ := Dev.refObjs_spec (d := p.d) (os := mmObjs p.h x) (fun o ho => by
      rw [(hlie o.1 o.2).2.2]
      exact QCtx.not_free_of_badObject (hbad (Bool.eq_false_iff.mpr hbegun)) o (b.sees.h ▸ ho))
    obtain ⟨d1, hd1⟩ : ∃ d1, d1 = p.d.refObjs (mmObjs p.h x) := ⟨_, rfl⟩
    rw [← hd1] at hs1 hl1 hq1 ⊢
    obtain ⟨hs2, hseq⟩ := d1.updCmd_spec p.h p.cq p.c.seq (f := fun c => { c with objs := mmObjs p.h x }) (fun _ => rfl)
    have hq2 : ((d1.core p.h).eq p.cq).q = p.c :: r' := by rw [hq1]; exact b.stands
    obtain ⟨r2, hst, hr2⟩ : ∃ r2, (((d1.updCmd p.h p.cq p.c.seq (fun c => { c with objs := mmObjs p.h x })).core p.h).eq p.cq).q =
        { p.c with objs := mmObjs p.h x } :: r2 ∧ r2.map (·.seq) = r'.map (·.seq) := by
      rw [hq2] at hseq
      rw [Dev.updCmd, Dev.eq_of_updEq, EQ.updCmd] at hseq ⊢
      dsimp only at hseq ⊢
      rw [hq2, List.map_cons, if_pos (beq_self_eq_true p.c.seq)] at hseq ⊢
      exact ⟨_, rfl, (List.cons.inj hseq).2⟩
    refine ⟨mmObjs p.h x, r2, ⟨⟨b.sees.m, b.sees.h, b.sees.cq, b.sees.seq, b.sees.lk, b.sees.who, (b.sees.dev.trans hs1).trans hs2⟩, hst, b.step, hr2.trans b.rest⟩,
      b.cmd, (hlie.trans hl1).trans (.updEq _ _ _ _)⟩

theorem QCtx.readAll_using (q : QCtx) (os : List (Nat × Nat)) (d : Dev) (rs : List Rd) (globs : List (Nat × Rd)) (ps : List (Nat × Nat)) :
    (q.using os).readAll d rs globs ps = q.readAll d rs globs ps := by
  have ht : ∀ o : Option Cmd, (o.getD (q.using os).c).trapped = (o.getD q.c).trapped := fun o => by cases o <;> rfl
  have hr : ∀ o : Option Cmd, (o.getD (q.using os).c).rd = (o.getD q.c).rd := fun o => by cases o <;> rfl
  unfold QCtx.readAll
  dsimp only
  simp only [ht, hr]
  rfl

theorem QCtx.fetch_using (q : QCtx) (os : List (Nat × Nat)) (tol : Bool) (rs : List Rd) : (q.using os).fetch tol rs = q.fetch tol rs := by
  unfold QCtx.fetch
  simp only [QCtx.readAll_using]
  rfl

/-! ### The words of a step (R232) -/

section
variable {q p : QCtx} {s : Nat} {r r' : List Cmd}

theorem QCtx.block_eq (hs : q.Sees p) (hl : q.d.ObjsLie p.d) (ix0 op : Nat) (src : Bool) (base : W64) (pitch row0 b0 words : Nat) :
    p.block ix0 op src base pitch row0 b0 words = q.block ix0 op src base pitch row0 b0 words := by
  unfold QCtx.block
  refine List.flatMap_congr fun r _ => List.map_congr_left fun w _ => ?_
  split
  · dsimp only
    rw [hs.h, (hl _ _).1, (hl _ _).2.1]
  · exact hs.rd _ _ _ _

theorem QCtx.scales_eq (hs : q.Sees p) (x : MmArgs) (z : MmShape) : p.scales x z = q.scales x z :=
  congrArg₂ (· ++ ·) (List.map_congr_left fun _ _ => hs.rd _ _ _ _) (List.map_congr_left fun _ _ => hs.rd _ _ _ _)

theorem QCtx.block_ix (q : QCtx) (ix0 op : Nat) (src : Bool) (base : W64) (pitch row0 b0 words : Nat) :
    (q.block ix0 op src base pitch row0 b0 words).map (·.ix) = (List.range 128).flatMap (fun r => (List.range words).map (fun w => ix0 + 128 * r + w)) := by
  unfold QCtx.block
  rw [List.map_flatMap]
  refine List.flatMap_congr fun r _ => ?_
  rw [List.map_map]
  refine List.map_congr_left fun w _ => ?_
  rw [Function.comp]
  split <;> rfl

theorem QCtx.length_block (q : QCtx) (ix0 op : Nat) (src : Bool) (base : W64) (pitch row0 b0 words : Nat) :
    (q.block ix0 op src base pitch row0 b0 words).length = words * 128 := by
  unfold QCtx.block
  rw [length_flatMap_const (n := words) (fun _ _ => by rw [List.length_map, List.length_range]), List.length_range]

theorem QCtx.mem_block_ix {q : QCtx} {ix0 op : Nat} {src : Bool} {base : W64} {pitch row0 b0 words i : Nat} (hw : words ≤ 128)
    (hi : i ∈ (q.block ix0 op src base pitch row0 b0 words).map (·.ix)) : ix0 ≤ i ∧ i < ix0 + 16384 := by
  rw [q.block_ix] at hi
  obtain ⟨r, hr, hi⟩ := List.mem_flatMap.mp hi
  obtain ⟨w, hw', rfl⟩ := List.mem_map.mp hi
  have := List.mem_range.mp hr
  have := List.mem_range.mp hw'
  omega

theorem QCtx.scales_ix (q : QCtx) (x : MmArgs) (z : MmShape) : (q.scales x z).map (·.ix) =
    (List.range (128 * z.mt * z.kb)).map (32768 + ·) ++ (List.range (z.kb * z.nt)).map (40960 + ·) := by
  unfold QCtx.scales
  rw [List.map_append, List.map_map, List.map_map]
  rfl

theorem words_le (f : Fmt) : 32 * f.size ≤ 128 := by have := Fmt.size_le f; omega

/-- The step's words have places of their own. -/
theorem QCtx.nodup_mm (q : QCtx) (x : MmArgs) (z : MmShape) (s : Nat) : ((q.mmRows x z s ++ q.mmCols x z s).map (·.ix)).Nodup := by
  rw [List.map_append]
  refine List.Nodup.append ?_ ?_ (fun i hi hi' => ?_)
  · exact (q.block_ix _ _ _ _ _ _ _ _) ▸ nodup_grid _ _ _ _ (words_le z.fa)
  · exact (q.block_ix _ _ _ _ _ _ _ _) ▸ nodup_grid _ _ _ _ (words_le z.fb)
  · have h1 := QCtx.mem_block_ix (words_le z.fa) hi
    have h2 := QCtx.mem_block_ix (words_le z.fb) hi'
    omega

theorem QCtx.nodup_scales (q : QCtx) {x : MmArgs} {z : MmShape} (h : 128 * z.mt * z.kb + z.kb * z.nt ≤ 8192) (s : Nat) :
    ((q.scales x z ++ (q.mmRows x z s ++ q.mmCols x z s)).map (·.ix)).Nodup := by
  rw [List.map_append]
  refine List.Nodup.append ?_ (q.nodup_mm x z s) (fun i hi hi' => ?_)
  · rw [q.scales_ix]
    refine List.Nodup.append (List.nodup_range.map (fun a b => Nat.add_left_cancel)) (List.nodup_range.map (fun a b => Nat.add_left_cancel)) (fun i hi hi' => ?_)
    obtain ⟨a, ha, rfl⟩ := List.mem_map.mp hi
    obtain ⟨b, hb, heq⟩ := List.mem_map.mp hi'
    have := List.mem_range.mp ha
    omega
  · have hlow : 32768 ≤ i := by
      rw [q.scales_ix] at hi
      rcases List.mem_append.mp hi with hi | hi
      · obtain ⟨a, -, rfl⟩ := List.mem_map.mp hi
        exact Nat.le_add_right _ _
      · obtain ⟨a, -, rfl⟩ := List.mem_map.mp hi
        omega
    rw [List.map_append] at hi'
    rcases List.mem_append.mp hi' with hi' | hi'
    · have := QCtx.mem_block_ix (words_le z.fa) hi'
      omega
    · have := QCtx.mem_block_ix (words_le z.fb) hi'
      omega

theorem mmFits_scales {x : MmArgs} {z : MmShape} (h : mmFits x z = true) (hs : z.scaled = true) : 128 * z.mt * z.kb + z.kb * z.nt ≤ 8192 := by
  unfold mmFits at h
  rw [hs] at h
  simp only [Bool.and_eq_true, Bool.not_true, Bool.false_or, decide_eq_true_eq] at h
  exact h.2.2

theorem QCtx.reads.join {a b : List Rd} (ha : q.reads a) (hb : q.reads b) : q.reads (a ++ b) :=
  ⟨ha.trapped, ha.parked, ha.now, fun x hx => (List.mem_append.mp hx).elim (ha.unread x) (hb.unread x),
    fun x hx => (List.mem_append.mp hx).elim (ha.all x) (hb.all x)⟩

/-- What a command's step reads it reads at once, from its own place. -/
theorem QCtx.OnStep.fetch_using {os : List (Nat × Nat)} (b : q.OnStep (p.using os) s r r') (hc : p.c.fixed = (q.c.atStep s).fixed) {rs : List Rd} (h : q.reads rs)
    (hnd : (rs.map (·.ix)).Nodup) : ∃ e m, p.fetch false rs = .ok (rs.map (fun x => some (q.value x))) e ∧ p.d.Sees e ∧ ((p.using os).took m e).Stands r' := by
  obtain ⟨e, m, hf, hs, hst, -⟩ := QCtx.fetch_reads b.stands
    ⟨(congrArg Cmd.trapped hc :).trans h.trapped, (congrArg Cmd.parked hc :).trans h.parked, (congrArg Cmd.retryAt hc :).le.trans (b.sees.dev.clock ▸ h.now)⟩
    (fun x hx => b.sees.readable (.of (h.all x hx))) (fun x hx => by
      rw [show (p.using os).c.rd = q.c.rd from (congrArg Cmd.rd hc :)]
      exact h.unread x hx) hnd false
  refine ⟨e, m, ?_, hs, hst⟩
  rw [← p.fetch_using os, hf]
  exact congrArg (Fetch.ok · e) (List.map_congr_left fun x hx => congrArg some (b.sees.value (h.all x hx)))

end

/-! ### A step is done (R49, R233) -/

section
variable {q p : QCtx} {x : MmArgs} {z : MmShape} {s : Nat} {r r' : List Cmd} {hd : TileHdr}

/-- The values of the words of a step. -/
def QCtx.values (q : QCtx) (rs : List Rd) : List W32 := rs.map q.value

theorem mmElems_values (q : QCtx) (f : Fmt) (rs : List Rd) : mmElems f (q.values rs) = (rs.flatMap (fun w => wordElems f (q.value w))).map (decF f false) := by
  unfold mmElems QCtx.values
  rw [List.flatMap_map]

/-- The words of row i among a step's words. -/
theorem QCtx.row_values (q : QCtx) (x : MmArgs) (z : MmShape) (s : Nat) {i : Nat} (hi : i < 128) :
    ((q.values (q.mmRows x z s ++ q.mmCols x z s)).drop (i * (32 * z.fa.size))).take (32 * z.fa.size) =
      q.values (((q.mmRows x z s).drop (i * (32 * z.fa.size))).take (32 * z.fa.size)) := by
  have hlen : (q.mmRows x z s).length = 32 * z.fa.size * 128 := q.length_block _ _ _ _ _ _ _ _
  have hle : i * (32 * z.fa.size) + 32 * z.fa.size ≤ 32 * z.fa.size * 128 := by
    rw [← Nat.succ_mul, Nat.mul_comm _ 128]
    exact Nat.mul_le_mul_right _ hi
  unfold QCtx.values
  rw [← List.map_drop, ← List.map_take, List.drop_append_of_le_length (by omega), List.take_append_of_le_length (by rw [List.length_drop]; omega)]

/-- The words of row k of B among a step's words. -/
theorem QCtx.col_values (q : QCtx) (x : MmArgs) (z : MmShape) (s k : Nat) :
    (((q.values (q.mmRows x z s ++ q.mmCols x z s)).drop (128 * (32 * z.fa.size))).drop (k * (32 * z.fb.size))).take (32 * z.fb.size) =
      q.values (((q.mmCols x z s).drop (k * (32 * z.fb.size))).take (32 * z.fb.size)) := by
  have hlen : (q.mmRows x z s).length = 128 * (32 * z.fa.size) := (q.length_block _ _ _ _ _ _ _ _).trans (Nat.mul_comm _ _)
  unfold QCtx.values
  rw [← List.map_drop, ← List.map_drop, ← List.map_take, ← hlen, List.drop_left]

/-- The step's tile has its block added, the other tiles stay, and the command goes on. -/
theorem QCtx.OnStep.mmDone {os : List (Nat × Nat)} (b : q.OnStep (p.using os) s r r') {e : Dev} {m : AMap W32} (hs : p.d.Sees e)
    (hst : ((p.using os).took m e).Stands r') (sa sb : AMap W32) (vs : List W32) : (∀ j n, (q.d.slot j n).SameUser ((p.mmDone x z sa sb vs e).slot j n)) ∧
    q.goesOn r (p.mmDone x z sa sb vs e) s (z.mt * z.nt * z.kb - 1) ∧
    (∀ u, u ≠ x.acc.toNat + s / z.kb → (p.mmDone x z sa sb vs e).tile q.h u = q.d.tile q.h u) ∧
    ((p.mmDone x z sa sb vs e).tile q.h (x.acc.toNat + s / z.kb)).dense =
      mmTile z (mmGain z sa sb (s / z.kb / z.nt) (s / z.kb % z.nt) (s % z.kb)) vs (q.d.tile q.h (x.acc.toNat + s / z.kb)).dense := by
  have hh : p.h = q.h := b.sees.h
  have hcq : p.cq = q.cq := b.sees.cq
  have hstep : p.c.step = s := b.step
  have hsees : q.d.Sees e := b.sees.dev.trans hs
  obtain ⟨t, ht⟩ : ∃ t, t = x.acc.toNat + s / z.kb := ⟨_, rfl⟩
  obtain ⟨new, hnew⟩ : ∃ new, new = mmTile z (mmGain z sa sb (s / z.kb / z.nt) (s / z.kb % z.nt) (s % z.kb)) vs (e.tile q.h t).dense := ⟨_, rfl⟩
  obtain ⟨d1, hd1⟩ : ∃ d1, d1 = e.setTile q.h t { e.tile q.h t with el := sparse new } := ⟨_, rfl⟩
  have hcores1 : d1.cores = e.cores := by rw [hd1]; rfl
  have hq1 : ((d1.core q.h).eq q.cq).q = { (p.using os).c with rd := m } :: r' := by
    rw [Dev.core, hcores1, ← Dev.core, ← hh, ← hcq]
    exact hst
  obtain ⟨d2, hd2⟩ : ∃ d2, d2 = d1.updCmd q.h q.cq p.c.seq (fun c => { c with sa := sa, sb := sb }) := ⟨_, rfl⟩
  have hq2 : ∃ c2 r2, ((d2.core q.h).eq q.cq).q = c2 :: r2 ∧ c2.seq = q.c.seq ∧ c2.step = s ∧ r2.map (·.seq) = r'.map (·.seq) := by
    refine ⟨{ (p.using os).c with rd := m, sa := sa, sb := sb }, r'.map (fun c => if c.seq == p.c.seq then { c with sa := sa, sb := sb } else c), ?_, b.sees.seq,
      hstep, ?_⟩
    · rw [hd2, Dev.updCmd, Dev.eq_of_updEq, EQ.updCmd]
      dsimp only
      rw [hq1, List.map_cons, if_pos (show ((p.using os).c.seq == p.c.seq) = true from beq_self_eq_true _)]
    · rw [List.map_map]
      refine List.map_congr_left fun c _ => ?_
      rw [Function.comp]
      split <;> rfl
  obtain ⟨c2, r2, hst2, hseq2, hstep2, hr2⟩ := hq2
  have hs2 : d1.Sees d2 := hd2 ▸ .updEq d1 q.h q.cq (fun _ => rfl)
  obtain ⟨hcl, hgoes⟩ := QCtx.stepped_goes (p := p) hh hcq hstep (hr2.trans b.rest) hst2 hseq2 hstep2 (z.mt * z.nt * z.kb - 1)
  have hdone : p.mmDone x z sa sb vs e = if z.mt * z.nt * z.kb - 1 ≤ s then (p.stepped d2 (z.mt * z.nt * z.kb - 1)).cmdReport q.h q.cq p.c.seq 1
      else p.stepped d2 (z.mt * z.nt * z.kb - 1) := by
    unfold QCtx.mmDone
    dsimp only
    rw [hstep, hh, hcq, ← ht, ← hnew, ← hd1, ← hd2]
  have hend : (p.stepped d2 (z.mt * z.nt * z.kb - 1)).Closes (p.mmDone x z sa sb vs e) ∧ q.goesOn r (p.mmDone x z sa sb vs e) s (z.mt * z.nt * z.kb - 1) := by
    rw [hdone]
    unfold QCtx.goesOn at hgoes ⊢
    split
    · next hlast =>
      rw [if_pos hlast] at hgoes
      obtain ⟨hsr, hf⟩ := (p.stepped d2 (z.mt * z.nt * z.kb - 1)).cmdReport_sees q.h q.cq p.c.seq 1
      exact ⟨hsr.closes, (map_seq_of_fixed hf).trans hgoes⟩
    · next hlast =>
      rw [if_neg hlast] at hgoes
      exact ⟨(Dev.Sees.refl _).closes, hgoes⟩
  have hcl' := (hs2.closes.trans hcl).trans hend.1
  rw [← ht]
  refine ⟨fun j n => ?_, hend.2, fun u hu => ?_, ?_⟩
  · exact ((hsees.woken j n).sameUser.trans (Dev.Aside.of_cores hcores1 j n).sameUser).trans (hcl'.woken j n).sameUser
  · rw [hcl'.tile, hd1, Dev.tile_setTile, if_neg hu, hsees.tile]
  · rw [hcl'.tile, hd1, Dev.tile_setTile, if_pos rfl, dense_sparse (hnew ▸ length_mmTile (Tile.length_dense _)), hnew, hsees.tile]

/-! ### Scales (R232, R233) -/

/-- The scale k of A's rows where it lies. -/
def QCtx.scaleA (q : QCtx) (x : MmArgs) (k : Nat) : W32 := q.value (q.rd 0 3 false (x.sabase + BitVec.ofNat 64 (4 * k)))

/-- The scale k of B's columns where it lies. -/
def QCtx.scaleB (q : QCtx) (x : MmArgs) (k : Nat) : W32 := q.value (q.rd 0 3 false (x.sbbase + BitVec.ofNat 64 (4 * k)))

theorem QCtx.values_scales (q : QCtx) (x : MmArgs) (z : MmShape) :
    q.values (q.scales x z) = (List.range (128 * z.mt * z.kb)).map (q.scaleA x) ++ (List.range (z.kb * z.nt)).map (q.scaleB x) := by
  unfold QCtx.values QCtx.scales
  rw [List.map_append, List.map_map, List.map_map]
  rfl

theorem get_scaleA (q : QCtx) (x : MmArgs) (z : MmShape) {k : Nat} (hk : k < 128 * z.mt * z.kb) :
    (byPlace ((q.values (q.scales x z)).take (128 * z.mt * z.kb))).get 0#32 k = q.scaleA x k := by
  rw [q.values_scales, List.take_left' (by rw [List.length_map, List.length_range]), get_byPlace, List.getElem?_map, List.getElem?_range hk]
  rfl

theorem get_scaleB (q : QCtx) (x : MmArgs) (z : MmShape) {k : Nat} (hk : k < z.kb * z.nt) :
    (byPlace ((q.values (q.scales x z)).drop (128 * z.mt * z.kb))).get 0#32 k = q.scaleB x k := by
  rw [q.values_scales, List.drop_left' (by rw [List.length_map, List.length_range]), get_byPlace, List.getElem?_map, List.getElem?_range hk]
  rfl

theorem scale_place_lt {a n k β : Nat} (ha : a < n) (hβ : β < k) : a * k + β < n * k :=
  calc a * k + β < a * k + k := Nat.add_lt_add_left hβ _
    _ = (a + 1) * k := (Nat.succ_mul a k).symm
    _ ≤ n * k := Nat.mul_le_mul_right _ ha

/-- What a step of a scaled command captures its scales from (R232). -/
def QCtx.capturing (q : QCtx) (z : MmShape) (hd : TileHdr) (s : Nat) : Prop := z.scaled = true ∧ s = hd.rstep.toNat ∧ q.c.sa.ents = []

/-- The scale of a row of a block: captured where the step captures, else as kept. -/
def QCtx.factor (q : QCtx) (x : MmArgs) (z : MmShape) (hd : TileHdr) (s i : Nat) (g : FVal) : Prop :=
  (z.scaled = false → g = .fin false 1 0) ∧ (z.scaled = true → ∃ a b,
    ((q.capturing z hd s → a = q.scaleA x ((128 * (s / z.kb / z.nt) + i) * z.kb + s % z.kb)) ∧
      (¬q.capturing z hd s → a = q.c.sa.get 0#32 ((128 * (s / z.kb / z.nt) + i) * z.kb + s % z.kb))) ∧
    ((q.capturing z hd s → b = q.scaleB x (s % z.kb * z.nt + s / z.kb % z.nt)) ∧
      (¬q.capturing z hd s → b = q.c.sb.get 0#32 (s % z.kb * z.nt + s / z.kb % z.nt))) ∧
    g = decF .f32 false (encF .f32 .rn false (mulF (decF .f32 false a) (decF .f32 false b))))

/-- Whether the step captures, as the command that has begun sees it. -/
theorem QCtx.captures_iff (hc : p.c.fixed = (q.c.atStep s).fixed) : p.captures z hd.rstep.toNat = true ↔ q.capturing z hd s := by
  have hsa : p.c.sa = q.c.sa := (congrArg Cmd.sa hc :)
  have hs : p.c.step = s := (congrArg Cmd.step hc :)
  unfold QCtx.captures QCtx.capturing
  rw [hsa, hs, Bool.and_eq_true, Bool.and_eq_true, beq_iff_eq, List.isEmpty_iff, and_assoc]

theorem QCtx.factor_of (hkb : 0 < z.kb) (hnt : 0 < z.nt) (hlt : s < z.mt * z.nt * z.kb) {i : Nat} (hi : i < 128) {cap : Bool} (hcap : cap = true ↔ q.capturing z hd s) :
    q.factor x z hd s i (mmGain z (if cap then byPlace ((q.values (q.scales x z)).take (128 * z.mt * z.kb)) else q.c.sa)
      (if cap then byPlace ((q.values (q.scales x z)).drop (128 * z.mt * z.kb)) else q.c.sb) (s / z.kb / z.nt) (s / z.kb % z.nt) (s % z.kb) i) := by
  have hmi : s / z.kb / z.nt < z.mt := Nat.div_lt_of_lt_mul (Nat.mul_comm z.mt _ ▸ Nat.div_lt_of_lt_mul (Nat.mul_comm _ z.kb ▸ hlt))
  unfold mmGain
  refine ⟨fun hz => by rw [if_neg (by rw [hz]; exact Bool.false_ne_true)], fun hz => ?_⟩
  rw [if_pos hz]
  refine ⟨_, _, ⟨fun h => ?_, fun h => ?_⟩, ⟨fun h => ?_, fun h => ?_⟩, rfl⟩
  · rw [if_pos (hcap.mpr h)]
    exact get_scaleA q x z (scale_place_lt (by omega) (Nat.mod_lt _ hkb))
  · rw [if_neg (fun h' => h (hcap.mp h'))]
  · rw [if_pos (hcap.mpr h)]
    exact get_scaleB q x z (scale_place_lt (Nat.mod_lt _ hkb) (Nat.mod_lt _ hnt))
  · rw [if_neg (fun h' => h (hcap.mp h'))]

end

/-! ### A step of mm (R231 to R235) -/

section
variable {hd : TileHdr} {x : MmArgs} {s : Nat}

/-- The command fits its format context, and the queue owns its tiles (R231). -/
def QCtx.mmTaken (q : QCtx) (x : MmArgs) (z : MmShape) : Prop := mmFits x z = true ∧ ∀ i, i < z.mt * z.nt → (q.d.tile q.h (x.acc.toNat + i)).owner = some (q.h % 4)

theorem QCtx.ownsAll_iff (q : QCtx) (x : MmArgs) (n : Nat) : q.d.ownsAll q.h ((List.range n).map (fun t => x.acc.toNat + t)) = true ↔
    ∀ i, i < n → (q.d.tile q.h (x.acc.toNat + i)).owner = some (q.h % 4) := by
  unfold Dev.ownsAll
  rw [List.all_eq_true]
  refine ⟨fun h i hi => ?_, fun h t ht => ?_⟩
  · have := h _ (List.mem_map_of_mem (List.mem_range.mpr hi))
    simpa using this
  · obtain ⟨i, hi, rfl⟩ := List.mem_map.mp ht
    rw [h i (List.mem_range.mp hi)]
    exact beq_self_eq_true _

theorem mm_refused : Commands (.mm hd x) (fun q _ => q.c.begun = false ∧ ¬q.mmTaken x (q.mmShape x))
    (fun q r e => q.refusedWith r e 0x60 5 ∧ ∀ u, e.tile q.h u = q.d.tile q.h u) := by
  have h := rejected (pre := fun q _ => q.c.begun = false ∧ ¬q.mmTaken x (q.mmShape x)) (exec_mm hd x) (fun q r ⟨hb, hn⟩ => by
    have howns := q.ownsAll_iff x ((q.mmShape x).mt * (q.mmShape x).nt)
    unfold mmBody
    dsimp only
    refine if_pos ?_
    rw [hb, Bool.not_false, Bool.true_and]
    by_cases hfit : mmFits x (q.mmShape x) = true
    · rw [hfit, Bool.not_true, Bool.false_or, Bool.not_eq_true']
      exact Bool.eq_false_iff.mpr (fun ho => hn ⟨hfit, howns.mp ho⟩)
    · rw [Bool.eq_false_iff.mpr hfit, Bool.not_false, Bool.true_or])
  exact h.mono (fun _ _ h => h) (fun _ _ _ _ h => ⟨h.1, fun u => h.2 u (fun f => f)⟩)

/-- A command that is not refused runs its step. -/
theorem mmBody_taken {q : QCtx} (h : q.c.begun = false → q.mmTaken x (q.mmShape x) ∧ q.badObject x (q.mmShape x) ((q.d.core q.h).eq q.cq).ctx = none) :
    mmBody hd x q = (q.mmStart hd x).mmStep x (q.mmShape x) hd.rstep.toNat := by
  unfold mmBody
  dsimp only
  by_cases hb : q.c.begun = true
  · rw [if_neg (by rw [hb, Bool.not_true, Bool.false_and]; exact Bool.false_ne_true), if_pos hb]
  · obtain ⟨⟨hfit, hown⟩, hbad⟩ := h (Bool.eq_false_iff.mpr hb)
    rw [if_neg (by rw [hfit, (q.ownsAll_iff x _).mpr hown]; simp), if_neg hb, hbad]

theorem mm_step : Commands (.mm hd x)
    (fun q _ => q.atStep hd s ∧ s < (q.mmShape x).mt * (q.mmShape x).nt * (q.mmShape x).kb ∧
      (q.c.begun = false → q.mmTaken x (q.mmShape x) ∧ q.badObject x (q.mmShape x) ((q.d.core q.h).eq q.cq).ctx = none) ∧
      q.reads (q.mmRows x (q.mmShape x) s ++ q.mmCols x (q.mmShape x) s) ∧
      (q.capturing (q.mmShape x) hd s → mmFits x (q.mmShape x) = true ∧ q.reads (q.scales x (q.mmShape x))))
    (fun q r e => q.goesOn r e s ((q.mmShape x).mt * (q.mmShape x).nt * (q.mmShape x).kb - 1) ∧
      (∀ u, u ≠ x.acc.toNat + s / (q.mmShape x).kb → e.tile q.h u = q.d.tile q.h u) ∧
      ∀ i j, i < 128 → j < 128 → ∃ g, q.factor x (q.mmShape x) hd s i g ∧
        (e.tile q.h (x.acc.toNat + s / (q.mmShape x).kb)).elem (128 * i + j) = mmElem g ((q.d.tile q.h (x.acc.toNat + s / (q.mmShape x).kb)).elem (128 * i + j))
          (mmElems (q.mmShape x).fa (q.values (((q.mmRows x (q.mmShape x) s).drop (i * (32 * (q.mmShape x).fa.size))).take (32 * (q.mmShape x).fa.size))))
          (mmColumn (q.mmShape x).fb (fun k => q.values (((q.mmCols x (q.mmShape x) s).drop (k * (32 * (q.mmShape x).fb.size))).take (32 * (q.mmShape x).fb.size))) j)) := by
  refine commands_of (exec_mm hd x) (fun q r hq ⟨hs, hlt, htaken, hreads, hscales⟩ => ?_)
  rw [mmBody_taken htaken]
  have hkb : 0 < (q.mmShape x).kb := Nat.succ_pos _
  have hnt : 0 < (q.mmShape x).nt := Nat.succ_pos _
  obtain ⟨os, r', b, hc, hlie⟩ := QCtx.mmStart_spec (x := x) hq hs (fun h => (htaken h).2)
  generalize q.mmStart hd x = p at b hc hlie
  generalize q.mmShape x = z at hlt hreads hscales hkb hnt
  have hcap := QCtx.captures_iff (z := z) (hd := hd) hc
  have hrows : p.mmRows x z p.c.step = q.mmRows x z s := by
    rw [show p.c.step = s from b.step]
    exact QCtx.block_eq b.sees hlie _ _ _ _ _ _ _ _
  have hcols : p.mmCols x z p.c.step = q.mmCols x z s := by
    rw [show p.c.step = s from b.step]
    exact QCtx.block_eq b.sees hlie _ _ _ _ _ _ _ _
  have hsc : p.scales x z = q.scales x z := QCtx.scales_eq b.sees x z
  have hsa : p.c.sa = q.c.sa := (congrArg Cmd.sa hc :)
  have hsb : p.c.sb = q.c.sb := (congrArg Cmd.sb hc :)
  obtain ⟨cap, hcap'⟩ : ∃ cap, cap = p.captures z hd.rstep.toNat := ⟨_, rfl⟩
  rw [← hcap'] at hcap
  obtain ⟨scs, hscs⟩ : ∃ scs, scs = if cap then q.scales x z else [] := ⟨_, rfl⟩
  have hall : q.reads (scs ++ (q.mmRows x z s ++ q.mmCols x z s)) ∧ ((scs ++ (q.mmRows x z s ++ q.mmCols x z s)).map (·.ix)).Nodup := by
    rw [hscs]
    split
    · next h =>
      obtain ⟨hfit, hr⟩ := hscales (hcap.mp h)
      exact ⟨hr.join hreads, q.nodup_scales (mmFits_scales hfit (hcap.mp h).1) s⟩
    · exact ⟨hreads, q.nodup_mm x z s⟩
  obtain ⟨e, m, hf, hsees, hst⟩ := b.fetch_using hc hall.1 hall.2
  unfold QCtx.mmStep
  dsimp only
  rw [hrows, hcols, hsc, hsa, hsb, ← hcap', ← hscs, List.append_assoc, hf]
  dsimp only
  have hvals : ((scs ++ (q.mmRows x z s ++ q.mmCols x z s)).map (fun y => some (q.value y))).map (fun v => v.getD 0#32) =
      q.values scs ++ q.values (q.mmRows x z s ++ q.mmCols x z s) := by
    rw [List.map_map]
    exact List.map_append
  rw [hvals, List.take_left' (by rw [QCtx.values, List.length_map]), List.drop_left' (by rw [QCtx.values, List.length_map])]
  have hkept : ∀ (f : List W32 → AMap W32) (k : AMap W32), (if cap then f (q.values scs) else k) = if cap then f (q.values (q.scales x z)) else k := fun f k => by
    split
    · next h => rw [hscs, if_pos h]
    · rfl
  rw [hkept (fun l => byPlace (l.take (128 * z.mt * z.kb))), hkept (fun l => byPlace (l.drop (128 * z.mt * z.kb)))]
  obtain ⟨hslots, hgoes, hother, hdense⟩ := b.mmDone (x := x) (z := z) hsees hst
    (if cap then byPlace ((q.values (q.scales x z)).take (128 * z.mt * z.kb)) else q.c.sa)
    (if cap then byPlace ((q.values (q.scales x z)).drop (128 * z.mt * z.kb)) else q.c.sb) (q.values (q.mmRows x z s ++ q.mmCols x z s))
  refine ⟨hslots, hgoes, hother, fun i j hi hj => ⟨_, QCtx.factor_of hkb hnt hlt hi hcap, ?_⟩⟩
  rw [Tile.elem, hdense, getElem?_mmTile (Tile.length_dense _) hi hj, q.row_values x z s hi]
  simp only [QCtx.col_values]
  rfl

end

/-- Settles O33: `accLoad_tiles`, `accStore_writes` and `mm_step`. -/
theorem matrixUnit : Obligations.MatrixUnit := by
  unfold Obligations.MatrixUnit
  refine ⟨fun hd x => ⟨accLoad_tiles, ?_, accStore_refused⟩, fun hd x s => ⟨?_, mm_refused⟩⟩
  · exact accStore_writes.mono (fun q r ⟨hp, hown, hend, hw⟩ => ⟨⟨hp, hown⟩, hend, fun o ho => by
      obtain ⟨h1, h2, h3⟩ := mem_accPlaces.mp ho
      exact hw o.1 o.2.1 o.2.2 h1 h2 h3⟩) (fun q r e _ ⟨hseq, hw⟩ => ⟨hseq, fun t r w ht hr hw' => hw (t, r, w) (mem_accPlaces.mpr ⟨ht, hr, hw'⟩)⟩)
  · refine mm_step.mono (fun q r h => h) (fun q r e _ ⟨hgoes, hother, hel⟩ => ⟨hgoes, hother, fun i j hi hj => ?_⟩)
    obtain ⟨g, hg, helem⟩ := hel i j hi hj
    refine ⟨g, hg, ?_⟩
    unfold mmColumn at helem
    simp only [mmElems_values] at helem
    exact helem

end Sys2Proof.Machine
end

section
/-! PROOFS. Context blocks: what a save writes stands in memory (R305). -/

namespace Sys2Proof.Machine

/-! ### The last of the bytes written at an address (R18) -/

theorem Memory.writeAll_append (m : Memory) (a b : List Host.Cell) : m.writeAll (a ++ b) = (m.writeAll a).writeAll b := List.foldl_append

/-- Where every byte written at an address is the same, it stands there. -/
theorem Memory.read_writeAll_all (m : Memory) {cs : List Host.Cell} {a : Nat} {v : Byte} (hall : ∀ c, c ∈ cs → c.1 = a → c.2 = v) (hex : ∃ c, c ∈ cs ∧ c.1 = a) :
    (m.writeAll cs).read a = v := by
  induction cs generalizing m with
  | nil => exact nomatch hex.choose_spec.1
  | cons c cs ih =>
    by_cases hlater : ∃ x, x ∈ cs ∧ x.1 = a
    · exact ih _ (fun x hx => hall x (List.mem_cons_of_mem _ hx)) hlater
    · obtain ⟨x, hx, hxa⟩ := hex
      have hxc : x = c := (List.mem_cons.mp hx).resolve_right (fun h => hlater ⟨x, h, hxa⟩)
      have hv : c.2 = v := hall c List.mem_cons_self (hxc ▸ hxa)
      have hrest : ((m.write c).writeAll cs).read a = (m.write c).read a :=
        Memory.read_writeAll_ne _ _ _ (fun y hy hya => hlater ⟨y, hy, hya⟩)
      refine hrest.trans ?_
      rw [← hv, ← hxa, hxc]
      exact m.read_write_self c.1 c.2

/-- What is written before, and elsewhere after, does not count. -/
theorem Memory.read_writeAll_within (m : Memory) {l cs r : List Host.Cell} {a : Nat} {v : Byte} (hall : ∀ c, c ∈ cs → c.1 = a → c.2 = v)
    (hex : ∃ c, c ∈ cs ∧ c.1 = a) (hr : ∀ c, c ∈ r → c.1 ≠ a) : (m.writeAll (l ++ (cs ++ r))).read a = v := by
  rw [Memory.writeAll_append, Memory.writeAll_append, Memory.read_writeAll_ne _ _ _ hr]
  exact Memory.read_writeAll_all _ hall hex

theorem mem_cellsAt {a : Nat} {bs : List Byte} {c : Host.Cell} : c ∈ cellsAt a bs ↔ ∃ i, bs[i]? = some c.2 ∧ c.1 = a + i := by
  unfold cellsAt
  rw [List.mem_map]
  refine ⟨fun ⟨p, hp, hc⟩ => ?_, fun ⟨i, hi, hc⟩ => ⟨(c.2, i), List.mem_zipIdx_iff_getElem?.mpr hi, Prod.ext hc.symm rfl⟩⟩
  rw [← hc]
  exact ⟨p.2, List.mem_zipIdx_iff_getElem?.mp hp, rfl⟩

theorem le_of_mem_cellsAt {a : Nat} {bs : List Byte} {c : Host.Cell} (h : c ∈ cellsAt a bs) : a ≤ c.1 ∧ c.1 < a + bs.length := by
  obtain ⟨i, hi, hc⟩ := mem_cellsAt.mp h
  have := (List.getElem?_eq_some_iff.mp hi).1
  omega

/-- A run of bytes written stands in memory, where nothing is written over it. -/
theorem Memory.bytes_writeAll (m : Memory) {l r : List Host.Cell} {a o n : Nat} {bs : List Byte} (hr : ∀ c, c ∈ r → c.1 < a + o ∨ a + o + n ≤ c.1) (hn : o + n ≤ bs.length) :
    (m.writeAll (l ++ (cellsAt a bs ++ r))).bytes (a + o) n = (bs.drop o).take n := by
  refine List.ext_getElem? fun i => ?_
  unfold Memory.bytes
  rw [List.getElem?_map]
  by_cases hi : i < n
  · have hlt : o + i < bs.length := by omega
    rw [List.getElem?_range hi, Option.map_some, List.getElem?_take_of_lt hi, List.getElem?_drop, List.getElem?_eq_getElem hlt]
    refine congrArg some (Memory.read_writeAll_within m (fun c hc hca => ?_) ⟨(a + (o + i), bs[o + i]), mem_cellsAt.mpr ⟨o + i, List.getElem?_eq_getElem hlt, rfl⟩,
      (Nat.add_assoc _ _ _).symm⟩ (fun c hc => by have := hr c hc; omega))
    obtain ⟨k, hk, hck⟩ := mem_cellsAt.mp hc
    obtain rfl : k = o + i := by omega
    exact Option.some.inj (hk.symm.trans (List.getElem?_eq_getElem hlt))
  · rw [List.getElem?_eq_none (by rw [List.length_range]; omega), List.getElem?_eq_none (by rw [List.length_take]; omega)]
    rfl

/-! ### Values and their bytes (R18) -/

theorem leNat_leBytes (n v : Nat) : leNat (leBytes n v) = v % 256 ^ n := by
  induction n generalizing v with
  | zero => rw [Nat.pow_zero, Nat.mod_one]; rfl
  | succ n ih => rw [leBytes, leNat, ih, BitVec.toNat_ofNat, Nat.pow_succ 256 n, Nat.mul_comm (256 ^ n), Nat.mod_mul]

theorem leNat_vecBytes (v : V512) : BitVec.ofNat 512 (leNat (vecBytes v)) = v := by
  have hlen : (vecBytes v).length = 64 := by unfold vecBytes; rw [List.length_map, List.length_range]
  refine BitVec.eq_of_getLsbD_eq fun i hi => ?_
  have hj : i / 8 < (vecBytes v).length := by omega
  rw [BitVec.getLsbD_ofNat, decide_eq_true hi, Bool.true_and]
  have h := testBit_leNat (vecBytes v) hj (b := i % 8) (Nat.mod_lt _ (by decide))
  rw [show 8 * (i / 8) + i % 8 = i by omega] at h
  rw [h]
  have hget : (vecBytes v)[i / 8] = v.extractLsb' (8 * (i / 8)) 8 :=
    (List.getElem_map (f := fun i => v.extractLsb' (8 * i) 8) (l := List.range 64) (i := i / 8) (h := hj)).trans
      (congrArg (fun k => v.extractLsb' (8 * k) 8) (List.getElem_range _))
  rw [hget, BitVec.getLsbD_extractLsb', decide_eq_true (Nat.mod_lt _ (by decide)), Bool.true_and, show 8 * (i / 8) + i % 8 = i by omega]

/-- One of some values of equal size, among their bytes. -/
theorem take_drop_leBytes (k n j : Nat) (hj : j < n) (f : Nat → Nat) : ((((List.range n).flatMap (fun i => leBytes k (f i))).drop (k * j)).take k) = leBytes k (f j) := by
  refine List.ext_getElem? fun i => ?_
  by_cases hi : i < k
  · rw [List.getElem?_take_of_lt hi, List.getElem?_drop, getElem?_flatMap_const (n := k) (fun _ _ => length_leBytes _ _) hi, List.getElem?_range hj]
    rfl
  · rw [List.getElem?_eq_none (by rw [List.length_take]; omega), List.getElem?_eq_none (by rw [length_leBytes]; omega)]

theorem length_flatMap_leBytes (k n : Nat) (f : Nat → Nat) : ((List.range n).flatMap (fun i => leBytes k (f i))).length = k * n := by
  rw [length_flatMap_const (n := k) (fun _ _ => length_leBytes _ _), List.length_range]

/-! ### A slot's record (R305) -/

section
variable {s : Slot} {a n : Nat} {m : Memory} {l r : List Host.Cell}

/-- The record of a slot but for its first three fields. -/
def Slot.recordTail (s : Slot) : List (Nat × List Byte) := s.record'.drop 3

theorem Slot.record_eq (s : Slot) : s.record' = (0x000, leBytes 8 s.pc.toNat) :: (0x008, (List.range 16).flatMap (fun i => leBytes 8 (s.A i).toNat)) ::
    (0x088, (List.range 8).flatMap (fun i => leBytes 2 (s.K i).toNat)) :: s.recordTail := rfl

theorem Slot.recordTail_ge {s : Slot} {f : Nat × List Byte} (h : f ∈ s.recordTail) : 0x098 ≤ f.1 := by
  unfold Slot.recordTail Slot.record' at h
  simp only [List.drop_succ_cons, List.drop_zero, List.mem_cons, List.not_mem_nil, or_false] at h
  rcases h with rfl | rfl | rfl | rfl | rfl | rfl | rfl | rfl <;> exact Nat.le_of_ble_eq_true rfl

/-- The cells of a slot's window. -/
def windowCells (a : Nat) (s : Slot) : List Host.Cell :=
  (List.range s.winCount).flatMap (fun j => cellsAt (a + 0x160000 + 64 * (s.winBase + j)) (vecBytes (s.V j)))

/-- The cells of the fields of a record from its fourth on. -/
def tailCells (a n : Nat) (s : Slot) : List Host.Cell := s.recordTail.flatMap (fun f => cellsAt (a + 0x140000 + 2048 * n + f.1) f.2)

/-- The cells of a slot that is not free. -/
theorem slotCells_eq (h : (s.st == .free) = false) : slotCells a n s = cellsAt (a + 0x140000 + 2048 * n) (List.replicate 2048 0#8) ++
    (cellsAt (a + 0x140000 + 2048 * n + 0x000) (leBytes 8 s.pc.toNat) ++ (cellsAt (a + 0x140000 + 2048 * n + 0x008) ((List.range 16).flatMap (fun i => leBytes 8 (s.A i).toNat)) ++
      (cellsAt (a + 0x140000 + 2048 * n + 0x088) ((List.range 8).flatMap (fun i => leBytes 2 (s.K i).toNat)) ++ (tailCells a n s ++ windowCells a s)))) := by
  unfold slotCells
  dsimp only
  rw [h, if_neg Bool.false_ne_true, s.record_eq, List.flatMap_cons, List.flatMap_cons, List.flatMap_cons, ← tailCells, ← windowCells, List.append_assoc, List.append_assoc,
    List.append_assoc]

/-- The cells of a slot before its window's. -/
def windowBefore (a n : Nat) (s : Slot) : List Host.Cell := cellsAt (a + 0x140000 + 2048 * n) (List.replicate 2048 0#8) ++
  (cellsAt (a + 0x140000 + 2048 * n + 0x000) (leBytes 8 s.pc.toNat) ++ (cellsAt (a + 0x140000 + 2048 * n + 0x008) ((List.range 16).flatMap (fun i => leBytes 8 (s.A i).toNat)) ++
    (cellsAt (a + 0x140000 + 2048 * n + 0x088) ((List.range 8).flatMap (fun i => leBytes 2 (s.K i).toNat)) ++ tailCells a n s)))

theorem slotCells_window (h : (s.st == .free) = false) : slotCells a n s = windowBefore a n s ++ windowCells a s := by
  rw [slotCells_eq h, windowBefore]
  simp only [List.append_assoc]

theorem le_of_mem_tailCells {c : Host.Cell} (h : c ∈ tailCells a n s) : a + 0x140000 + 2048 * n + 0x098 ≤ c.1 := by
  obtain ⟨f, hf, hc⟩ := List.mem_flatMap.mp h
  have h1 := Slot.recordTail_ge hf
  have h2 := le_of_mem_cellsAt hc
  omega

theorem le_of_mem_windowCells {c : Host.Cell} (h : c ∈ windowCells a s) : a + 0x160000 ≤ c.1 := by
  obtain ⟨j, -, hc⟩ := List.mem_flatMap.mp h
  have := le_of_mem_cellsAt hc
  omega

/-- What is written after a slot's cells: device-private bytes, beyond the first fields of its record and before its window. -/
def Beyond (a n : Nat) (r : List Host.Cell) : Prop := ∀ c, c ∈ r → a + 0x140000 + 2048 * n + 0x098 ≤ c.1 ∧ c.1 < a + 0x160000

theorem beyond_privOf (hn : n < 64) (seed : Nat) (portable : Bool) : Beyond a n (privCells a seed portable (privOf n)) := fun c hc => by
  unfold privCells privOf privSlot at hc
  rw [List.flatMap_map] at hc
  obtain ⟨p, hp, hc⟩ := List.mem_flatMap.mp hc
  obtain ⟨i, hi, rfl⟩ := List.mem_map.mp hc
  have := List.mem_range.mp hi
  simp only [List.mem_cons, List.not_mem_nil, or_false] at hp
  rcases hp with rfl | rfl | rfl <;> dsimp only at this ⊢ <;> omega

/-- A field of a slot's record, all that comes later lying beyond it. -/
theorem field_written (m : Memory) {cs b4 af : List Host.Cell} {b o k : Nat} {bs : List Byte} (hcs : cs = b4 ++ (cellsAt b bs ++ af)) (haf : ∀ c, c ∈ af → b + o + k ≤ c.1)
    (hr : ∀ c, c ∈ r → b + o + k ≤ c.1) (hk : o + k ≤ bs.length) : (m.writeAll (l ++ (cs ++ r))).bytes (b + o) k = (bs.drop o).take k := by
  have h := Memory.bytes_writeAll m (l := l ++ b4) (r := af ++ r) (a := b) (o := o) (n := k) (bs := bs)
    (fun c hc => Or.inr ((List.mem_append.mp hc).elim (haf c) (hr c))) hk
  rw [← h, hcs]
  simp only [List.append_assoc]

/-- The cells after the third field of a record lie beyond it. -/
theorem le_of_mem_later (hn : n < 64) {c : Host.Cell} (h : c ∈ tailCells a n s ++ windowCells a s) : a + 0x140000 + 2048 * n + 0x098 ≤ c.1 := by
  rcases List.mem_append.mp h with h | h
  · exact le_of_mem_tailCells h
  · have := le_of_mem_windowCells h
    omega

section
variable (hfree : (s.st == .free) = false) (hn : n < 64) (hr : Beyond a n r) (m : Memory) (l : List Host.Cell)
include hfree hn hr

/-- The record of a saved slot holds its PC. -/
theorem pc_written : (m.writeAll (l ++ (slotCells a n s ++ r))).w64 (a + 0x140000 + 2048 * n) = s.pc := by
  have hcs := slotCells_eq (a := a) (n := n) hfree
  have h := field_written (l := l) (r := r) m hcs (o := 0) (k := 8) (fun c hc => ?_) (fun c hc => ?_) (by rw [length_leBytes])
  · unfold Memory.w64
    rw [show a + 0x140000 + 2048 * n = a + 0x140000 + 2048 * n + 0x000 + 0 from rfl, h, List.drop_zero, List.take_of_length_le (by rw [length_leBytes]), leNat_leBytes]
    exact BitVec.eq_of_toNat_eq (by rw [BitVec.toNat_ofNat]; omega)
  · rcases List.mem_append.mp hc with hc | hc
    · have := le_of_mem_cellsAt hc
      omega
    · rcases List.mem_append.mp hc with hc | hc
      · have := le_of_mem_cellsAt hc
        omega
      · have := le_of_mem_later hn hc
        omega
  · have := hr c hc
    omega

/-- It holds its a-registers. -/
theorem aregs_written {j : Nat} (hj : j < 16) : (m.writeAll (l ++ (slotCells a n s ++ r))).w64 (a + 0x140000 + 2048 * n + 8 + 8 * j) = s.A j := by
  have hcs := slotCells_eq (a := a) (n := n) hfree
  rw [← List.append_assoc (cellsAt _ (List.replicate 2048 0#8))] at hcs
  have h := field_written (l := l) (r := r) m hcs (o := 8 * j) (k := 8) (fun c hc => ?_) (fun c hc => ?_) (by rw [length_flatMap_leBytes]; omega)
  · unfold Memory.w64
    rw [h, take_drop_leBytes 8 16 j hj (fun i => (s.A i).toNat), leNat_leBytes]
    exact BitVec.eq_of_toNat_eq (by rw [BitVec.toNat_ofNat]; omega)
  · rcases List.mem_append.mp hc with hc | hc
    · have := le_of_mem_cellsAt hc
      omega
    · have := le_of_mem_later hn hc
      omega
  · have := hr c hc
    omega

/-- It holds its mask registers. -/
theorem kregs_written {j : Nat} (hj : j < 8) : (m.writeAll (l ++ (slotCells a n s ++ r))).w16 (a + 0x140000 + 2048 * n + 0x88 + 2 * j) = (s.K j).toNat := by
  have hcs := slotCells_eq (a := a) (n := n) hfree
  rw [← List.append_assoc (cellsAt _ (List.replicate 2048 0#8)), ← List.append_assoc (_ ++ _) (cellsAt _ _)] at hcs
  have h := field_written (l := l) (r := r) m hcs (o := 2 * j) (k := 2) (fun c hc => ?_) (fun c hc => ?_) (by rw [length_flatMap_leBytes]; omega)
  · unfold Memory.w16
    rw [h, take_drop_leBytes 2 8 j hj (fun i => (s.K i).toNat), leNat_leBytes]
    exact Nat.mod_eq_of_lt (s.K j).isLt
  · have := le_of_mem_later hn hc
    omega
  · have := hr c hc
    omega

/-- The entries of its window stand in the block. -/
theorem vregs_written {j : Nat} (hj : j < s.winCount) :
    BitVec.ofNat 512 (leNat ((m.writeAll (l ++ (slotCells a n s ++ r))).bytes (a + 0x160000 + 64 * (s.winBase + j)) 64)) = s.V j := by
  have hbytes : (m.writeAll (l ++ (slotCells a n s ++ r))).bytes (a + 0x160000 + 64 * (s.winBase + j)) 64 = vecBytes (s.V j) := by
    refine List.ext_getElem? fun i => ?_
    unfold Memory.bytes
    rw [List.getElem?_map]
    by_cases hi : i < 64
    · have hget : (vecBytes (s.V j))[i]? = some ((s.V j).extractLsb' (8 * i) 8) := by
        unfold vecBytes
        rw [List.getElem?_map, List.getElem?_range hi]
        rfl
      rw [List.getElem?_range hi, Option.map_some, hget]
      refine congrArg some ?_
      have hall := Memory.read_writeAll_within m (l := l ++ windowBefore a n s) (cs := windowCells a s) (r := r) (a := a + 0x160000 + 64 * (s.winBase + j) + i)
        (v := (s.V j).extractLsb' (8 * i) 8) (fun c hc hca => ?_) ⟨(a + 0x160000 + 64 * (s.winBase + j) + i, (s.V j).extractLsb' (8 * i) 8),
          List.mem_flatMap.mpr ⟨j, List.mem_range.mpr hj, mem_cellsAt.mpr ⟨i, hget, rfl⟩⟩, rfl⟩ (fun c hc => by have := hr c hc; omega)
      · rw [← hall, slotCells_window hfree]
        simp only [List.append_assoc]
      · obtain ⟨j', -, hc⟩ := List.mem_flatMap.mp hc
        obtain ⟨i', hi', hca'⟩ := mem_cellsAt.mp hc
        have hlt : i' < 64 := (List.getElem?_eq_some_iff.mp hi').1.trans_eq (by unfold vecBytes; rw [List.length_map, List.length_range])
        obtain rfl : j' = j := by omega
        obtain rfl : i' = i := by omega
        exact Option.some.inj (hi'.symm.trans hget)
    · rw [List.getElem?_eq_none (by rw [List.length_range]; omega), List.getElem?_eq_none (by unfold vecBytes; rw [List.length_map, List.length_range]; omega)]
      rfl
  rw [hbytes, leNat_vecBytes]

end

end

/-! ### A launch's local store in its block (R305) -/

section
variable {c : Core} {lks : List Nat} {q a : Nat} {r : List Host.Cell}

theorem regionWords_aligned {w : Nat} (h : w ∈ c.regionWords lks) : w % 4 = 0 := by
  obtain ⟨e, -, hw⟩ := List.mem_flatMap.mp h
  obtain ⟨i, -, rfl⟩ := List.mem_map.mp hw
  unfold rgnBase
  omega

/-- The cells of the words of a launch's regions. -/
def wordCells (c : Core) (a : Nat) (lks : List Nat) : List Host.Cell := (c.regionWords lks).flatMap (fun w => cellsAt (a + w) (leBytes 4 (c.word w).toNat))

/-- The cells of their tags. -/
def tagCells (c : Core) (a : Nat) (lks : List Nat) : List Host.Cell := (c.regionWords lks).map (fun w => (a + 0x100000 + w / 8, (c.tag (8 * (w / 8) + 4)) ++ (c.tag (8 * (w / 8)))))

theorem storeCells_eq (c : Core) (a : Nat) (lks : List Nat) : c.storeCells a lks = wordCells c a lks ++ tagCells c a lks := rfl

theorem le_of_mem_tagCells {x : Host.Cell} (h : x ∈ tagCells c a lks) : a + 0x100000 ≤ x.1 := by
  obtain ⟨w, -, rfl⟩ := List.mem_map.mp h
  exact Nat.le_add_right _ _

/-- A word of a saved launch stands in the block. -/
theorem word_written (m : Memory) (l : List Host.Cell) (hq : q ∈ c.regionWords lks) (hlt : q < 2 ^ 20) (hr : ∀ x, x ∈ r → a + 0x100000 ≤ x.1) :
    (m.writeAll (l ++ (c.storeCells a lks ++ r))).w32 (a + q) = c.word q := by
  have hq4 := regionWords_aligned hq
  have hbytes : (m.writeAll (l ++ (c.storeCells a lks ++ r))).bytes (a + q) 4 = leBytes 4 (c.word q).toNat := by
    refine List.ext_getElem? fun i => ?_
    unfold Memory.bytes
    rw [List.getElem?_map]
    by_cases hi : i < 4
    · have hlen : i < (leBytes 4 (c.word q).toNat).length := by rw [length_leBytes]; exact hi
      have hget := List.getElem?_eq_getElem hlen
      rw [List.getElem?_range hi, Option.map_some, hget]
      refine congrArg some ?_
      rw [storeCells_eq, List.append_assoc]
      refine Memory.read_writeAll_within m (fun x hx hxa => ?_) ⟨(a + q + i, _), List.mem_flatMap.mpr ⟨q, hq, mem_cellsAt.mpr ⟨i, hget, rfl⟩⟩, rfl⟩ (fun x hx => ?_)
      · obtain ⟨w, hw, hx⟩ := List.mem_flatMap.mp hx
        obtain ⟨i', hi', hxa'⟩ := mem_cellsAt.mp hx
        have hlt' : i' < 4 := (List.getElem?_eq_some_iff.mp hi').1.trans_eq (length_leBytes _ _)
        have hw4 := regionWords_aligned hw
        obtain rfl : w = q := by omega
        obtain rfl : i' = i := by omega
        exact Option.some.inj (hi'.symm.trans hget)
      · have hge : a + 0x100000 ≤ x.1 := (List.mem_append.mp hx).elim le_of_mem_tagCells (hr x)
        omega
    · rw [List.getElem?_eq_none (by rw [List.length_range]; omega), List.getElem?_eq_none (by rw [length_leBytes]; omega)]
      rfl
  unfold Memory.w32
  rw [hbytes, leNat_leBytes]
  exact BitVec.eq_of_toNat_eq (by rw [BitVec.toNat_ofNat]; omega)

theorem le_of_mem_tileCells {tiles : AMap Tile} {x : Host.Cell} (h : x ∈ tileCells a tiles) : a + 0x100000 ≤ x.1 := by
  obtain ⟨t, -, hx⟩ := List.mem_flatMap.mp h
  obtain ⟨i, -, hx⟩ := List.mem_flatMap.mp hx
  have := le_of_mem_cellsAt hx
  omega

theorem le_of_mem_privCore {seed : Nat} {portable : Bool} {x : Host.Cell} (h : x ∈ privCells a seed portable privCore) : a + 0x100000 ≤ x.1 := by
  unfold privCells privCore at h
  obtain ⟨p, hp, hx⟩ := List.mem_flatMap.mp h
  obtain ⟨i, -, rfl⟩ := List.mem_map.mp hx
  simp only [List.mem_cons, List.not_mem_nil, or_false] at hp
  rcases hp with rfl | rfl <;> dsimp only <;> omega

end

end Sys2Proof.Machine
end

section
/-! PROOFS. Slots and launches are saved (R304 to R307). -/

namespace Sys2Proof.Machine

/-! ### A terrace is held (R304) -/

/-- What a slot keeps while it is held and saved: its PC, its registers and its window. -/
def Slot.keeps (s : Slot) : W64 × AMap W64 × AMap (BitVec 16) × AMap V512 × Nat × Nat := (s.pc, s.aregs, s.kregs, s.vregs, s.winBase, s.winCount)

section
variable {s z : Slot} (h : s.keeps = z.keeps)
include h

theorem Slot.A_of_keeps (i : Nat) : s.A i = z.A i := (congrArg (fun x => if i = 0 then 0#64 else x.2.1.get 0#64 i) h :)
theorem Slot.K_of_keeps (i : Nat) : s.K i = z.K i := (congrArg (fun x => if i = 0 then 0xFFFF#16 else x.2.2.1.get 0#16 i) h :)
theorem Slot.V_of_keeps (i : Nat) : s.V i = z.V i := (congrArg (fun x => x.2.2.2.1.get 0#512 i) h :)
theorem Slot.pc_of_keeps : s.pc = z.pc := (congrArg (fun x => x.1) h :)
theorem Slot.winBase_of_keeps : s.winBase = z.winBase := (congrArg (fun x => x.2.2.2.2.1) h :)
theorem Slot.winCount_of_keeps : s.winCount = z.winCount := (congrArg (fun x => x.2.2.2.2.2) h :)

end

/-- From d to e every slot keeps its PC and its registers, every core its words and its map, and the terraces are as they were. -/
structure Dev.Steady (d e : Dev) : Prop where
  slots : ∀ j n, (e.slot j n).keeps = (d.slot j n).keeps
  words : ∀ k, (e.core k).words = (d.core k).words
  map : ∀ k, (e.core k).map = (d.core k).map
  terr : e.terr = d.terr

namespace Dev.Steady
variable {d e f : Dev}

theorem refl (d : Dev) : d.Steady d := ⟨fun _ _ => rfl, fun _ => rfl, fun _ => rfl, rfl⟩
theorem trans (h : d.Steady e) (g : e.Steady f) : d.Steady f :=
  ⟨fun j n => (g.slots j n).trans (h.slots j n), fun k => (g.words k).trans (h.words k), fun k => (g.map k).trans (h.map k), g.terr.trans h.terr⟩
theorem of_same (hc : e.cores = d.cores) (ht : e.terr = d.terr) : d.Steady e :=
  ⟨fun j n => by rw [Dev.slot, Dev.core, hc, ← Dev.core, ← Dev.slot], fun k => by rw [Dev.core, hc, ← Dev.core], fun k => by rw [Dev.core, hc, ← Dev.core], ht⟩
theorem foldl {α : Type} {g : Dev → α → Dev} (hg : ∀ (e : Dev) x, e.Steady (g e x)) (xs : List α) (d : Dev) : d.Steady (xs.foldl g d) :=
  List.foldlRecOn (motive := fun e => d.Steady e) _ _ (refl d) (fun e he x _ => he.trans (hg e x))

theorem updCore (d : Dev) (h : Nat) {g : Core → Core} (hs : ∀ k n, ((g k).slot n).keeps = (k.slot n).keeps) (hw : ∀ k, (g k).words = k.words)
    (hm : ∀ k, (g k).map = k.map) : d.Steady (d.updCore h g) := by
  refine ⟨fun j n => ?_, fun k => ?_, fun k => ?_, rfl⟩
  · by_cases hj : j = h
    · rw [Dev.slot, hj, Dev.core_updCore_self, hs, ← Dev.slot]
    · rw [Dev.slot, Dev.core_updCore_ne _ _ _ _ hj, ← Dev.slot]
  · by_cases hj : k = h
    · rw [hj, Dev.core_updCore_self, hw]
    · rw [Dev.core_updCore_ne _ _ _ _ hj]
  · by_cases hj : k = h
    · rw [hj, Dev.core_updCore_self, hm]
    · rw [Dev.core_updCore_ne _ _ _ _ hj]

theorem keeps_updSlot (k : Core) (n j : Nat) {g : Slot → Slot} (hg : ∀ s, (g s).keeps = s.keeps) : ((k.updSlot n g).slot j).keeps = (k.slot j).keeps := by
  by_cases hj : j = n
  · rw [hj, Core.slot_updSlot_self, hg]
  · rw [Core.slot_updSlot_ne _ _ _ _ hj]

theorem updSlot (d : Dev) (h n : Nat) {g : Slot → Slot} (hg : ∀ s, (g s).keeps = s.keeps) : d.Steady (d.updSlot h n g) :=
  updCore d h (fun k j => keeps_updSlot k n j hg) (fun k => by unfold Core.updSlot; split <;> rfl) (fun k => by unfold Core.updSlot; split <;> rfl)

theorem preempt (d : Dev) (h n : Nat) : d.Steady (d.preempt h n) := by
  unfold Dev.preempt
  dsimp only
  exact updCore d h (fun k j => keeps_updSlot (k.withdrawSlot n) n j (fun _ => rfl)) (fun k => by unfold Core.updSlot; split <;> rfl)
    (fun k => by unfold Core.updSlot; split <;> rfl)

theorem holdTerrace (d : Dev) (t h : Nat) : d.Steady (d.holdTerrace t h) := by
  refine foldl (fun e n => ?_) _ d
  have hflag : e.Steady (e.updSlot h n (fun s => { s with preempt := true })) := updSlot e h n (fun _ => rfl)
  dsimp only
  split
  · split
    · exact hflag
    · exact preempt e h n
  · split
    · exact hflag
    · exact preempt e h n
  · exact hflag
  · exact refl e
  · exact refl e

theorem quays (h : d.QuaysOnly e) : d.Steady e := of_same h.cores (by rw [h])

theorem recallSlot (d : Dev) (h n : Nat) : d.Steady (d.recall h n) := by
  unfold Dev.recall
  dsimp only
  refine trans (of_same (e := { d with
    net := d.net.filter (fun f => !(f.e.requester == some (h, n)))
    saved := d.saved.map (fun x => if x.lks.contains (d.slot h n).lk then { x with core := { x.core with tq := x.core.tq.dropSlot h n } } else x) }) rfl rfl)
    (foldl (fun e x => ?_) _ _)
  exact updCore e x.1 (fun _ _ => rfl) (fun _ => rfl) (fun _ => rfl)

theorem terrace (h : d.Steady e) (t : Nat) : e.terrace t = d.terrace t := by rw [Dev.terrace, h.terr, ← Dev.terrace]
theorem word (h : d.Steady e) (k a : Nat) : (e.core k).word a = (d.core k).word a := by rw [Core.word, h.words, ← Core.word]
theorem regionWords (h : d.Steady e) (k : Nat) (lks : List Nat) : (e.core k).regionWords lks = (d.core k).regionWords lks := by
  rw [Core.regionWords, h.map, ← Core.regionWords]

end Dev.Steady

/-! ### Saving (R304 to R307) -/

section
variable {fs fl : Memory → Dev → Nat → Nat → Nat → Switch → List Host.Cell × Dev}

/-- The context engine at a core of the outgoing terrace, by how it saves a slot and a launch. -/
def saveWith (fs fl : Memory → Dev → Nat → Nat → Nat → Switch → List Host.Cell × Dev) (h : Nat) (m : Memory) (d : Dev) : List Host.Cell × Dev :=
  match d.switch with
  | none => ([], d)
  | some w =>
    match w.out with
    | none => ([], d)
    | some t =>
      if !w.toSave.contains h then ([], d) else
      let d := d.holdTerrace t h
      let write (f : Dev → List Host.Cell × Dev) : List Host.Cell × Dev :=
        match d.visit (d.terrace t).vf true (linesOf ((f d).1.map (·.1))) with
        | (d, true) => f d
        | (d, false) => ([], d)
      match d.nextSlot t h with
      | some n => if d.slotStill h n then write (fun d => fs m d t h n w) else ([], d)
      | none =>
        let todo := (d.launchesOn t h).filter (fun lk => !d.isSaved lk h)
        if todo.isEmpty then
          ([], { d.updCore h (fun c => { c with lapsed := [] }) with switch := some { w with toSave := w.toSave.filter (· != h) } }.endSwitch)
        else
          match todo.find? (fun lk => d.launchStill lk h) with
          | some lk => write (fun d => fl m d t lk h w)
          | none => ([], d)

theorem exec_contextSave (h : Nat) (s : State) : exec (.contextSave h) s = onMem (saveWith Dev.saveSlot Dev.saveLaunch h) s := by
  unfold exec execContextSave
  generalize Dev.saveSlot = fs
  generalize Dev.saveLaunch = fl
  rfl

variable {m : Memory} {d : Dev} {h t n lk : Nat} {w : Switch} {rest : List Nat}

/-- The next slot is saved where its lines find their way. -/
theorem saveWith_slot (hw : d.switch = some w) (hout : w.out = some t) (hin : w.toSave.contains h = true) (hnext : (d.holdTerrace t h).nextSlot t h = some n)
    (hstill : (d.holdTerrace t h).slotStill h n = true)
    (hthere : ((d.holdTerrace t h).visit ((d.holdTerrace t h).terrace t).vf true (linesOf ((fs m (d.holdTerrace t h) t h n w).1.map (·.1)))).2 = true) :
    saveWith fs fl h m d = fs m ((d.holdTerrace t h).visit ((d.holdTerrace t h).terrace t).vf true (linesOf ((fs m (d.holdTerrace t h) t h n w).1.map (·.1)))).1 t h n w := by
  unfold saveWith
  rw [hw]
  dsimp only
  rw [hout]
  dsimp only
  generalize d.holdTerrace t h = d at *
  rw [if_neg (by rw [hin]; decide), hnext]
  dsimp only
  rw [if_pos hstill]
  generalize d.visit (d.terrace t).vf true (linesOf ((fs m d t h n w).1.map (·.1))) = r at *
  obtain ⟨e, ok⟩ := r
  dsimp only at hthere
  rw [hthere]

/-- With no slot left the first launch is saved that is still, where its lines find their way. -/
theorem saveWith_launch (hw : d.switch = some w) (hout : w.out = some t) (hin : w.toSave.contains h = true) (hnext : (d.holdTerrace t h).nextSlot t h = none)
    (htodo : ((d.holdTerrace t h).launchesOn t h).filter (fun lk => !(d.holdTerrace t h).isSaved lk h) = lk :: rest) (hstill : (d.holdTerrace t h).launchStill lk h = true)
    (hthere : ((d.holdTerrace t h).visit ((d.holdTerrace t h).terrace t).vf true (linesOf ((fl m (d.holdTerrace t h) t lk h w).1.map (·.1)))).2 = true) :
    saveWith fs fl h m d = fl m ((d.holdTerrace t h).visit ((d.holdTerrace t h).terrace t).vf true (linesOf ((fl m (d.holdTerrace t h) t lk h w).1.map (·.1)))).1 t lk h w := by
  unfold saveWith
  rw [hw]
  dsimp only
  rw [hout]
  dsimp only
  generalize d.holdTerrace t h = d at *
  rw [if_neg (by rw [hin]; decide), hnext]
  dsimp only
  rw [htodo, List.isEmpty_cons, if_neg Bool.false_ne_true, List.find?_cons_of_pos (p := fun lk => d.launchStill lk h) hstill]
  dsimp only
  generalize d.visit (d.terrace t).vf true (linesOf ((fl m d t lk h w).1.map (·.1))) = r at *
  obtain ⟨e, ok⟩ := r
  dsimp only at hthere
  rw [hthere]

theorem Dev.endSwitch_toSave {d : Dev} {w v : Switch} (hw : d.switch = some w) (hv : d.endSwitch.switch = some v) : v = w := by
  unfold Dev.endSwitch at hv
  rw [hw] at hv
  dsimp only at hv
  split at hv
  · exact nomatch hv
  · exact Option.some.inj (hv.symm.trans hw)

/-- With nothing left the core is off the list. -/
theorem saveWith_done (hw : d.switch = some w) (hout : w.out = some t) (hin : w.toSave.contains h = true) (hnext : (d.holdTerrace t h).nextSlot t h = none)
    (htodo : ((d.holdTerrace t h).launchesOn t h).filter (fun lk => !(d.holdTerrace t h).isSaved lk h) = []) :
    ∀ v, (saveWith fs fl h m d).2.switch = some v → h ∉ v.toSave := by
  unfold saveWith
  rw [hw]
  dsimp only
  rw [hout]
  dsimp only
  generalize d.holdTerrace t h = d at *
  rw [if_neg (by rw [hin]; decide), hnext]
  dsimp only
  rw [htodo, List.isEmpty_nil, if_pos rfl]
  intro v hv
  rw [Dev.endSwitch_toSave rfl hv]
  simp

end

/-! ### What a save writes, and where the slot is (R305, R307) -/

theorem Dev.cores_putPoison (d : Dev) (as : List Nat) : (d.putPoison as).cores = d.cores := by
  refine List.foldlRecOn (motive := fun e : Dev => e.cores = d.cores) _ _ rfl fun e he a _ => ?_
  split <;> exact he

theorem Dev.slot_rename (d : Dev) (h n k j i : Nat) : (d.rename h n k).slot j i = d.slot j i := by
  unfold Dev.rename Dev.slot Dev.core
  dsimp only
  rw [AMap.get_map_snd Core.init d.cores (fun c => { c with
      parked := c.parked.map (fun p => { p with src := p.src.rename h n k })
      held := c.held.map (accFor h n k) }) j rfl]
  rfl

theorem Dev.slot_recall (d : Dev) (h n j i : Nat) : (d.recall h n).slot j i = d.slot j i := by
  unfold Dev.recall
  dsimp only
  refine List.foldlRecOn (motive := fun e : Dev => e.slot j i = d.slot j i) _ _ rfl fun e he x _ => ?_
  by_cases hj : j = x.1
  · rw [Dev.slot, Dev.updTq, hj, Dev.core_updCore_self]
    exact hj ▸ he
  · rw [Dev.slot, Dev.updTq, Dev.core_updCore_ne _ _ _ _ hj]
    exact he

theorem logged_eq (d : Dev) (m : Memory) (f : Nat) (cells : List Host.Cell) : ∃ l, d.logged m f cells = l ++ cells := ⟨_, rfl⟩

section
variable {m : Memory} {d : Dev} {h t n lk : Nat} {w : Switch}

/-- A slot is saved: its cells are written last but for private ones, it is free, and it stands aside with its PC. -/
theorem saveSlot_spec (hn : n < 64) : ∃ s l r, (d.saveSlot m t h n w).1 = l ++ (slotCells ((d.terrace t).block w.oarea h) n s ++ r) ∧
    s.keeps = (d.slot h n).keeps ∧ s.st = (d.slot h n).st ∧ Beyond ((d.terrace t).block w.oarea h) n r ∧
    ((d.saveSlot m t h n w).2.slot h n).st = .free ∧ ((d.saveSlot m t h n w).2.slot h (awayIx t n)).pc = (d.slot h n).pc := by
  unfold Dev.saveSlot
  extract_lets k asking d1 d2 s bad a cells d3 d4
  have hslot : d2.slot h n = d.slot h n := d.slot_recall h n h n
  have hterr : d2.terrace t = d.terrace t := (Dev.Steady.recallSlot d h n).terrace t
  have ha : a = (d.terrace t).block w.oarea h := congrArg (fun x => Terrace.block x w.oarea h) hterr
  have hk : 64 ≤ k := by unfold k awayIx; omega
  obtain ⟨l, hl⟩ := logged_eq d4 m (d4.terrace t).vf cells
  have hcore : ((d4.clearPoison cells).putPoison (bad.map (fun j => a + 0x160000 + 64 * (s.winBase + j)))).core h = d4.core h := by
    rw [Dev.core, Dev.cores_putPoison]
    rfl
  refine ⟨s, l, privCells a w.seed false (privOf n), ?_, ?_, ?_, ha ▸ beyond_privOf hn _ _, ?_, ?_⟩
  · rw [← ha]
    exact hl
  · exact (congrArg Slot.keeps hslot :)
  · exact (congrArg Slot.st hslot :)
  · rw [Dev.slot, hcore]
    unfold d4
    rw [Dev.core_updCore_self, Core.slot, if_pos hn, AMap.get_erase, if_pos rfl]
    rfl
  · rw [Dev.slot, hcore]
    unfold d4
    rw [Dev.core_updCore_self, Core.slot, if_neg (by omega : ¬awayIx t n < 64), AMap.get_put_self]
    exact (congrArg Slot.pc hslot :)

/-- A launch is saved: its local store's cells are written, nothing after them among its words, and its record names it. -/
theorem saveLaunch_spec : ∃ (l r : List Host.Cell) (c : Core), (d.saveLaunch m t lk h w).1 = l ++ (c.storeCells ((d.terrace t).block w.oarea h) [lk] ++ r) ∧
    (∀ q, c.word q = (d.core h).word q) ∧ c.regionWords [lk] = (d.core h).regionWords [lk] ∧ (∀ x, x ∈ r → (d.terrace t).block w.oarea h + 0x100000 ≤ x.1) ∧
    ∃ x, x ∈ (d.saveLaunch m t lk h w).2.saved ∧ x.terr = t ∧ x.h = h ∧ x.lks = [lk] := by
  unfold Dev.saveLaunch
  extract_lets slots whole cmds mine here reads d1 c mail x tiles a cells bad d2 d3 d4
  obtain ⟨l, hl⟩ := logged_eq d4 m (d4.terrace t).vf cells
  have hcore : c.words = (d.core h).words ∧ c.map = (d.core h).map := by
    have hget := AMap.get_map Core.init d.cores (fun (c : Nat × Core) => (c.1, (c.2.backOut lk (if c.1 = h then here else mine) (c.1 == h)).withdraw reads)) (fun _ => rfl) h rfl
    exact ⟨(congrArg Core.words hget :), (congrArg Core.map hget :)⟩
  have hcells : cells = c.storeCells a [lk] ++ (tileCells a tiles ++ (endCells a ++ privCells a w.seed false privCore)) := by
    unfold cells
    rw [List.append_assoc, List.append_assoc]
  refine ⟨l, tileCells a tiles ++ (endCells a ++ privCells a w.seed false privCore), c, ?_, fun q => ?_, ?_, fun x hx => ?_, _, List.mem_append_right _ List.mem_cons_self, rfl, rfl, rfl⟩
  · exact hl.trans (congrArg (l ++ ·) hcells)
  · rw [Core.word, hcore.1, ← Core.word]
  · rw [Core.regionWords, hcore.2, ← Core.regionWords]
  · rcases List.mem_append.mp hx with hx | hx
    · exact le_of_mem_tileCells hx
    · rcases List.mem_append.mp hx with hx | hx
      · have := le_of_mem_cellsAt hx
        change a + 0x100000 ≤ x.1
        omega
      · exact le_of_mem_privCore hx

end

/-! ### The context engine's steps (R304 to R307) -/

section
variable {s : State} {h t n lk : Nat} {w : Switch} {rest : List Nat}

/-- The slot that is saved next is held. -/
theorem Dev.nextSlot_held {d : Dev} (hnext : d.nextSlot t h = some n) : ((d.slot h n).st == .free) = false := by
  unfold Dev.nextSlot at hnext
  have hmem := (List.mem_filter.mp (List.mem_of_find?_eq_some hnext)).2
  split at hmem
  · next why hst => rw [hst]; rfl
  · exact nomatch hmem

/-- What a core's slots and words are as it saves: what they were. -/
theorem steady_saving (d : Dev) (t h : Nat) (ls : List Nat) : d.Steady ((d.holdTerrace t h).visit ((d.holdTerrace t h).terrace t).vf true ls).1 :=
  (Dev.Steady.holdTerrace d t h).trans (.quays (Dev.visit_quaysOnly _ _ _ _ _))

theorem contextSave_slot (hw : s.dev.switch = some w) (hout : w.out = some t) (hin : w.toSave.contains h = true) (hn : n < 64)
    (hnext : (s.dev.holdTerrace t h).nextSlot t h = some n) (hstill : (s.dev.holdTerrace t h).slotStill h n = true)
    (hthere : ((s.dev.holdTerrace t h).visit ((s.dev.holdTerrace t h).terrace t).vf true
      (linesOf ((Dev.saveSlot s.mem (s.dev.holdTerrace t h) t h n w).1.map (·.1)))).2 = true) :
    ∃ u, exec (.contextSave h) s = .next u ∧ (u.dev.slot h n).st = .free ∧ (u.dev.slot h (awayIx t n)).pc = (s.dev.slot h n).pc ∧
      let a := (s.dev.terrace t).block w.oarea h
      u.mem.w64 (a + 0x140000 + 2048 * n) = (s.dev.slot h n).pc ∧ (∀ j, j < 16 → u.mem.w64 (a + 0x140000 + 2048 * n + 8 + 8 * j) = (s.dev.slot h n).A j) ∧
      (∀ j, j < 8 → u.mem.w16 (a + 0x140000 + 2048 * n + 0x88 + 2 * j) = ((s.dev.slot h n).K j).toNat) ∧
      ∀ j, j < (s.dev.slot h n).winCount →
        BitVec.ofNat 512 (leNat (u.mem.bytes (a + 0x160000 + 64 * ((s.dev.slot h n).winBase + j)) 64)) = (s.dev.slot h n).V j := by
  have hsteady := steady_saving s.dev t h (linesOf ((Dev.saveSlot s.mem (s.dev.holdTerrace t h) t h n w).1.map (·.1)))
  have hquays := Dev.visit_quaysOnly (s.dev.holdTerrace t h) ((s.dev.holdTerrace t h).terrace t).vf true
    (linesOf ((Dev.saveSlot s.mem (s.dev.holdTerrace t h) t h n w).1.map (·.1))) false
  have hbody := saveWith_slot (fl := Dev.saveLaunch) (d := s.dev) (m := s.mem) hw hout hin hnext hstill hthere
  generalize ((s.dev.holdTerrace t h).visit ((s.dev.holdTerrace t h).terrace t).vf true
    (linesOf ((Dev.saveSlot s.mem (s.dev.holdTerrace t h) t h n w).1.map (·.1)))).1 = e at hsteady hbody hquays
  obtain ⟨z, l, r, hcells, hkeeps, hst, hbeyond, hfree, hpc⟩ := saveSlot_spec (m := s.mem) (d := e) (h := h) (t := t) (w := w) hn
  rw [hsteady.terrace] at hcells hbeyond
  have hheld : (z.st == .free) = false := by
    rw [hst, hquays.slot]
    exact Dev.nextSlot_held hnext
  have hz : z.keeps = (s.dev.slot h n).keeps := hkeeps.trans (hsteady.slots h n)
  refine ⟨⟨s.mem.writeAll (saveWith Dev.saveSlot Dev.saveLaunch h s.mem s.dev).1, (saveWith Dev.saveSlot Dev.saveLaunch h s.mem s.dev).2⟩, exec_contextSave h s, ?_⟩
  rw [hbody, hcells]
  refine ⟨hfree, hpc.trans (Slot.pc_of_keeps (hsteady.slots h n)), ?_⟩
  rw [← Slot.pc_of_keeps hz, ← Slot.winCount_of_keeps hz, ← Slot.winBase_of_keeps hz]
  refine ⟨pc_written hheld hn hbeyond _ _, fun j hj => ?_, fun j hj => ?_, fun j hj => ?_⟩
  · rw [← Slot.A_of_keeps hz]
    exact aregs_written hheld hn hbeyond _ _ hj
  · rw [← Slot.K_of_keeps hz]
    exact kregs_written hheld hn hbeyond _ _ hj
  · rw [← Slot.V_of_keeps hz]
    exact vregs_written hheld hn hbeyond _ _ hj

theorem contextSave_launch (hw : s.dev.switch = some w) (hout : w.out = some t) (hin : w.toSave.contains h = true)
    (hnext : (s.dev.holdTerrace t h).nextSlot t h = none)
    (htodo : ((s.dev.holdTerrace t h).launchesOn t h).filter (fun lk => !(s.dev.holdTerrace t h).isSaved lk h) = lk :: rest)
    (hstill : (s.dev.holdTerrace t h).launchStill lk h = true)
    (hthere : ((s.dev.holdTerrace t h).visit ((s.dev.holdTerrace t h).terrace t).vf true
      (linesOf ((Dev.saveLaunch s.mem (s.dev.holdTerrace t h) t lk h w).1.map (·.1)))).2 = true) :
    ∃ u, exec (.contextSave h) s = .next u ∧ (∃ x, x ∈ u.dev.saved ∧ x.terr = t ∧ x.h = h ∧ x.lks = [lk]) ∧
      ∀ q, q ∈ (s.dev.core h).regionWords [lk] → q % 4 = 0 → q < 2 ^ 20 → u.mem.w32 ((s.dev.terrace t).block w.oarea h + q) = (s.dev.core h).word q := by
  have hsteady := steady_saving s.dev t h (linesOf ((Dev.saveLaunch s.mem (s.dev.holdTerrace t h) t lk h w).1.map (·.1)))
  have hbody := saveWith_launch (fs := Dev.saveSlot) (d := s.dev) (m := s.mem) hw hout hin hnext htodo hstill hthere
  generalize ((s.dev.holdTerrace t h).visit ((s.dev.holdTerrace t h).terrace t).vf true
    (linesOf ((Dev.saveLaunch s.mem (s.dev.holdTerrace t h) t lk h w).1.map (·.1)))).1 = e at hsteady hbody
  obtain ⟨l, r, c, hcells, hword, hreg, hr, hsaved⟩ := saveLaunch_spec (m := s.mem) (d := e) (h := h) (t := t) (lk := lk) (w := w)
  rw [hsteady.terrace] at hcells hr
  refine ⟨⟨s.mem.writeAll (saveWith Dev.saveSlot Dev.saveLaunch h s.mem s.dev).1, (saveWith Dev.saveSlot Dev.saveLaunch h s.mem s.dev).2⟩, exec_contextSave h s, ?_⟩
  rw [hbody, hcells]
  refine ⟨hsaved, fun q hq _ hlt => ?_⟩
  refine (word_written _ _ ?_ hlt hr).trans ((hword q).trans (hsteady.word h q))
  rw [hreg, hsteady.regionWords]
  exact hq

theorem contextSave_done (hw : s.dev.switch = some w) (hout : w.out = some t) (hin : w.toSave.contains h = true)
    (hnext : (s.dev.holdTerrace t h).nextSlot t h = none)
    (htodo : ((s.dev.holdTerrace t h).launchesOn t h).filter (fun lk => !(s.dev.holdTerrace t h).isSaved lk h) = []) :
    ∃ u, exec (.contextSave h) s = .next u ∧ ∀ v, u.dev.switch = some v → h ∉ v.toSave :=
  ⟨_, exec_contextSave h s, saveWith_done hw hout hin hnext htodo⟩

end

end Sys2Proof.Machine
end

section
/-! PROOFS. Slots and launches come back (R306 to R308). -/

namespace Sys2Proof.Machine

/-! ### Writes that land in awaiting registers (R33, R34) -/

/-- From s to z only vector registers other than those that J names may differ, with their states; the PC, the other registers and what is
outstanding are as they were. -/
structure Slot.Lands (J : Nat → Prop) (s z : Slot) : Prop where
  pc : z.pc = s.pc
  aregs : z.aregs = s.aregs
  kregs : z.kregs = s.kregs
  tsw : z.tsw = s.tsw
  frec0 : z.frec0 = s.frec0
  ops : z.ops = s.ops
  vregs : ∀ j, J j → z.V j = s.V j ∧ z.vst.get .present j = s.vst.get .present j

namespace Slot.Lands
variable {J : Nat → Prop} {s y z : Slot}

theorem refl (J : Nat → Prop) (s : Slot) : Slot.Lands J s s := ⟨rfl, rfl, rfl, rfl, rfl, rfl, fun _ _ => ⟨rfl, rfl⟩⟩

theorem trans (x : Slot.Lands J s y) (w : Slot.Lands J y z) : Slot.Lands J s z :=
  ⟨w.pc.trans x.pc, w.aregs.trans x.aregs, w.kregs.trans x.kregs, w.tsw.trans x.tsw, w.frec0.trans x.frec0, w.ops.trans x.ops,
    fun j hj => ⟨(w.vregs j hj).1.trans (x.vregs j hj).1, (w.vregs j hj).2.trans (x.vregs j hj).2⟩⟩

theorem of_woken (h : s.Woken z) : Slot.Lands J s z := by
  rcases h with rfl | ⟨clock, rfl⟩
  · exact refl J _
  · exact ⟨rfl, rfl, rfl, rfl, rfl, rfl, fun _ _ => ⟨rfl, rfl⟩⟩

theorem land {r : Nat} (hr : ¬J r) (v : V512) : Slot.Lands J s (s.land r v) := by
  refine ⟨rfl, rfl, rfl, rfl, rfl, rfl, fun j hj => ?_⟩
  have hne : j ≠ r := fun h => hr (h ▸ hj)
  exact ⟨AMap.get_put_ne _ _ _ _ _ hne, (AMap.get_erase _ _ _ _).trans (if_neg (Ne.symm hne))⟩

end Slot.Lands

/-- The registers that J names await no write. -/
def Slot.Settled (J : Nat → Prop) (s : Slot) : Prop := ∀ j, J j → ∀ x, s.vst.get .present j ≠ .awaiting x

theorem Slot.Settled.lands {J : Nat → Prop} {s z : Slot} (h : s.Settled J) (x : Slot.Lands J s z) : z.Settled J := fun j hj w => by
  rw [(x.vregs j hj).2]
  exact h j hj w

/-- From d to e writes landed on core h that leave what J names of its slot n. -/
structure Dev.LandsAt (h n : Nat) (J : Nat → Prop) (d e : Dev) : Prop where
  slot : Slot.Lands J (d.slot h n) (e.slot h n)
  lsTodo : ∀ k, (e.core k).lsTodo = (d.core k).lsTodo
  saved : e.saved = d.saved

namespace Dev.LandsAt
variable {h n : Nat} {J : Nat → Prop} {d e f : Dev}

theorem refl (h n : Nat) (J : Nat → Prop) (d : Dev) : Dev.LandsAt h n J d d := ⟨.refl _ _, fun _ => rfl, rfl⟩
theorem trans (x : Dev.LandsAt h n J d e) (y : Dev.LandsAt h n J e f) : Dev.LandsAt h n J d f :=
  ⟨x.slot.trans y.slot, fun k => (y.lsTodo k).trans (x.lsTodo k), y.saved.trans x.saved⟩

theorem updCore (d : Dev) {g : Core → Core} (hs : Slot.Lands J (d.slot h n) ((g (d.core h)).slot n)) (ht : (g (d.core h)).lsTodo = (d.core h).lsTodo) :
    Dev.LandsAt h n J d (d.updCore h g) := by
  refine ⟨?_, fun k => ?_, rfl⟩
  · change Slot.Lands J (d.slot h n) (((d.updCore h g).core h).slot n)
    rw [Dev.core_updCore_self]
    exact hs
  · by_cases hk : k = h
    · rw [hk, Dev.core_updCore_self, ht]
    · rw [Dev.core_updCore_ne _ _ _ _ hk]

/-- A change of the core that leaves its slots. -/
theorem aside (d : Dev) {g : Core → Core} (hs : (g (d.core h)).slot n = (d.core h).slot n) (ht : (g (d.core h)).lsTodo = (d.core h).lsTodo) :
    Dev.LandsAt h n J d (d.updCore h g) := updCore d (hs ▸ .refl _ _) ht

theorem land (d : Dev) {i r : Nat} (hr : i = n → ¬J r) (v : V512) : Dev.LandsAt h n J d (d.updCore h (fun c => c.land i r v)) := by
  refine updCore d ?_ (by unfold Core.land Core.updSlot; dsimp only; split <;> rfl)
  rw [Core.slot_land]
  split
  · next hi => exact hi ▸ .land (hr hi.symm) v
  · exact .refl _ _

theorem takeLink (hset : (d.slot h n).Settled J) (src : Dir) (e : Nat × Nat × Nat × V512) : Dev.LandsAt h n J d (d.takeLink h src e) := by
  unfold Dev.takeLink
  split
  · exact aside d rfl rfl
  · next x hx =>
    split
    · next haw =>
      refine land d (fun he hj => ?_) _
      obtain ⟨hstands, hawaits⟩ := Bool.and_eq_true_iff.mp haw
      have hx' : d.linkTarget h e.1 e.2.2.1 = some x := (Option.filter_eq_some_iff.mp hx).1
      have hslot : x.2 = d.slot h e.1 := by
        unfold Dev.linkTarget at hx'
        split at hx'
        · rw [← Option.some.inj hx'] at hstands
          exact nomatch hstands
        · dsimp only at hx'
          split at hx'
          · rw [← Option.some.inj hx']
          · exact nomatch hx'
      rw [hslot, he] at hawaits
      exact hset _ hj src (by simpa using hawaits)
    · exact aside d (Core.slot_setLink _ _ _ _) (by cases src <;> rfl)

theorem takeLinks (src : Dir) (es : List (Nat × Nat × Nat × V512)) : ∀ {d : Dev}, (d.slot h n).Settled J → Dev.LandsAt h n J d (Dev.takeLinks src h es d) := by
  induction es with
  | nil => exact fun {d} _ => aside d (Core.slot_setQueue _ _ _ _) (by cases src <;> rfl)
  | cons e es ih =>
    intro d hset
    unfold Dev.takeLinks
    split
    · exact aside d (Core.slot_setQueue _ _ _ _) (by cases src <;> rfl)
    · have h1 := takeLink hset src e
      exact h1.trans (ih (hset.lands h1.slot))

theorem wake (d : Dev) (k : Nat) (p : Nat → Slot → WaitFor → Bool) : Dev.LandsAt h n J d (d.wake k p) :=
  ⟨.of_woken (Dev.slot_wake _ _ _ _ _), fun t => (congrArg Core.lsTodo (Dev.bare_core_wake d k p t) :), rfl⟩

theorem linkRoom (hset : (d.slot h n).Settled J) (src : Dir) : Dev.LandsAt h n J d (d.linkRoom h src) := by
  have htake := takeLinks src ((d.core h).linkQueue src) hset
  unfold Dev.linkRoom
  dsimp only
  split
  · exact htake
  · split
    · exact htake
    · exact htake.trans (wake _ _ _)

/-- Held writes land in the registers that await them. -/
theorem landHeld (hset : (d.slot h n).Settled J) (hout : ∀ x w, (x, VSt.awaiting w) ∈ (d.slot h n).vst.ents → ¬J x) : Dev.LandsAt h n J d (d.landHeld h n) := by
  unfold Dev.landHeld
  refine List.foldlRecOn (motive := fun e : Dev => Dev.LandsAt h n J d e) _ _ (refl h n J d) fun e he x hx => ?_
  have hsete := hset.lands he.slot
  split
  · next w hw =>
    split
    · next y hy =>
      have hland : Dev.LandsAt h n J e (e.updCore h (fun c => (c.setLink w ((c.heldLink w).erase y)).land n x.1 y.2.2.2)) := by
        refine updCore e ?_ (by unfold Core.land Core.updSlot; dsimp only; split <;> cases w <;> rfl)
        rw [Core.slot_land, if_pos rfl, Core.slot_setLink]
        exact .land (hout x.1 w (hw ▸ hx)) _
      exact he.trans (hland.trans (linkRoom (hsete.lands hland.slot) w))
    · exact he
  · exact he

end Dev.LandsAt

/-! ### A slot from its record (R305, R306) -/

/-- A table made of the values of some keys. -/
theorem AMap.get_ofKeys {α : Type} (z : α) (f : Nat → α) (l : List Nat) (k : Nat) : (⟨l.map (fun i => (i, f i))⟩ : AMap α).get z k = if k ∈ l then f k else z := by
  have hfind : (l.map (fun i => (i, f i))).find? (fun e => e.1 == k) = if k ∈ l then some (k, f k) else none := by
    induction l with
    | nil => rfl
    | cons i l ih =>
      rw [List.map_cons, List.find?_cons]
      by_cases hik : i = k
      · rw [hik, beq_self_eq_true, if_pos List.mem_cons_self]
      · rw [beq_false_of_ne hik]
        refine ih.trans ?_
        simp only [List.mem_cons, Ne.symm hik, false_or]
  unfold AMap.get
  rw [AMap.find?_eq_map, hfind]
  split <;> rfl

section
variable {s : Slot} {m : Memory} {a clock : Nat} {entry : Nat → V512}

/-- A register of the window that awaits no write. -/
def Slot.bare (s : Slot) (j : Nat) : Prop := j < s.winCount ∧ ∀ x, s.vst.get .present j ≠ .awaiting x

theorem restored_A {j : Nat} (hj : 0 < j) (hlt : j < 16) : (s.restored m a clock entry).A j = m.w64 (a + 8 + 8 * j) := by
  unfold Slot.A Slot.restored
  dsimp only
  rw [if_neg (Nat.pos_iff_ne_zero.mp hj), AMap.get_ofKeys, if_pos (List.mem_range.mpr hlt), Memory.w64, Nat.add_assoc]

theorem restored_K {j : Nat} (hj : 0 < j) (hlt : j < 8) : ((s.restored m a clock entry).K j).toNat = m.w16 (a + 0x88 + 2 * j) := by
  have hb : m.w16 (a + 0x88 + 2 * j) < 2 ^ 16 := by
    unfold Memory.w16 Memory.bytes
    simp only [List.range_succ, List.range_zero, List.nil_append, List.map_append, List.map_cons, List.map_nil, List.cons_append, leNat]
    omega
  unfold Slot.K Slot.restored
  dsimp only
  rw [if_neg (Nat.pos_iff_ne_zero.mp hj), AMap.get_ofKeys, if_pos (List.mem_range.mpr hlt), BitVec.toNat_ofNat]
  exact Nat.mod_eq_of_lt hb

theorem restored_frec0 (h : s.st ≠ .held .lost) : (s.restored m a clock entry).frec0 = m.w64 (a + 0xA0) := by
  unfold Slot.restored
  dsimp only
  rw [beq_false_of_ne h]
  rfl

theorem restored_V {j : Nat} (hj : j < s.winCount) : (s.restored m a clock entry).V j = entry (s.winBase + j) := by
  unfold Slot.V Slot.restored
  dsimp only
  rw [AMap.get_ofKeys, if_pos (List.mem_range.mpr hj)]

/-- The state of a restored register. -/
def Slot.stored (s : Slot) (j : Nat) : VSt :=
  match s.vst.get .present j with
  | .awaiting x => VSt.awaiting x
  | _ => VSt.unrestored

theorem Slot.stored_of_bare {j : Nat} (h : ∀ x, s.vst.get .present j ≠ .awaiting x) : s.stored j = .unrestored := by
  unfold Slot.stored
  split
  · next x hx => exact absurd hx (h x)
  · rfl

theorem restored_vst : (s.restored m a clock entry).vst = ⟨((List.range s.winCount).filter (fun j => !s.ops.any (fun o => o.vd.contains j))).map (fun j => (j, s.stored j))⟩ := by
  unfold Slot.restored
  rfl

theorem restored_settled : (s.restored m a clock entry).Settled s.bare := fun j hj x => by
  rw [restored_vst, AMap.get_ofKeys]
  split
  · rw [Slot.stored_of_bare hj.2]
    exact fun h => nomatch h
  · exact fun h => nomatch h

theorem restored_awaiting {j : Nat} {x : Dir} (h : (j, VSt.awaiting x) ∈ (s.restored m a clock entry).vst.ents) : ¬s.bare j := fun hj => by
  rw [restored_vst] at h
  obtain ⟨i, -, hi⟩ := List.mem_map.mp h
  obtain ⟨rfl, hst⟩ := Prod.mk.inj hi
  rw [Slot.stored_of_bare hj.2] at hst
  exact nomatch hst

theorem restored_unrestored {j : Nat} (hj : s.bare j) (ho : s.ops = []) : (s.restored m a clock entry).vst.get .present j = .unrestored := by
  rw [restored_vst, AMap.get_ofKeys, if_pos (List.mem_filter.mpr ⟨List.mem_range.mpr hj.1, by rw [ho]; rfl⟩), Slot.stored_of_bare hj.2]

end

/-! ### What had been held back is taken up (R126, R147) -/

/-- From d to e every slot, every core's words and every launch's record are as they were, and what a restore has still to bring. -/
structure Dev.TakesUp (d e : Dev) : Prop where
  slots : ∀ j n, e.slot j n = d.slot j n
  words : ∀ k, (e.core k).words = (d.core k).words
  lsTodo : ∀ k, (e.core k).lsTodo = (d.core k).lsTodo
  saved : e.saved = d.saved

namespace Dev.TakesUp
variable {d e f : Dev}

theorem refl (d : Dev) : d.TakesUp d := ⟨fun _ _ => rfl, fun _ => rfl, fun _ => rfl, rfl⟩
theorem trans (x : d.TakesUp e) (y : e.TakesUp f) : d.TakesUp f :=
  ⟨fun j n => (y.slots j n).trans (x.slots j n), fun k => (y.words k).trans (x.words k), fun k => (y.lsTodo k).trans (x.lsTodo k), y.saved.trans x.saved⟩
theorem of_cores (hc : e.cores = d.cores) (hs : e.saved = d.saved) : d.TakesUp e :=
  ⟨fun j n => by rw [Dev.slot, Dev.core, hc, ← Dev.core, ← Dev.slot], fun k => by rw [Dev.core, hc, ← Dev.core], fun k => by rw [Dev.core, hc, ← Dev.core], hs⟩
theorem foldl {α : Type} {g : Dev → α → Dev} (hg : ∀ (e : Dev) x, e.TakesUp (g e x)) (xs : List α) (d : Dev) : d.TakesUp (xs.foldl g d) :=
  List.foldlRecOn (motive := fun e => d.TakesUp e) _ _ (refl d) (fun e he x _ => he.trans (hg e x))

theorem updCore (d : Dev) (h : Nat) {g : Core → Core} (hs : ∀ k n, (g k).slot n = k.slot n) (hw : ∀ k, (g k).words = k.words) (ht : ∀ k, (g k).lsTodo = k.lsTodo) :
    d.TakesUp (d.updCore h g) := by
  refine ⟨fun j n => ?_, fun k => ?_, fun k => ?_, rfl⟩
  · by_cases hj : j = h
    · rw [Dev.slot, hj, Dev.core_updCore_self, hs, ← Dev.slot]
    · rw [Dev.slot, Dev.core_updCore_ne _ _ _ _ hj, ← Dev.slot]
  · by_cases hj : k = h
    · rw [hj, Dev.core_updCore_self, hw]
    · rw [Dev.core_updCore_ne _ _ _ _ hj]
  · by_cases hj : k = h
    · rw [hj, Dev.core_updCore_self, ht]
    · rw [Dev.core_updCore_ne _ _ _ _ hj]

theorem takeUp (d : Dev) (t h n : Nat) : d.TakesUp (d.takeUp t h n) := by
  unfold Dev.takeUp
  dsimp only
  split
  · exact refl d
  · refine (updCore d t (g := fun c => { c with held := c.held.filter (fun r => !(r.h == h && r.n == n)) }) (fun _ _ => rfl) (fun _ => rfl) (fun _ => rfl)).trans ?_
    exact of_cores rfl rfl

theorem takeUpEng (d : Dev) (t h : Nat) (cq : Bool) : d.TakesUp (d.takeUpEng t h cq) := by
  unfold Dev.takeUpEng
  dsimp only
  split
  · exact refl d
  · refine (updCore d t (g := fun c => { c with heldEng := c.heldEng.filter (fun w => !(w.h == h && w.cq == cq)) }) (fun _ _ => rfl) (fun _ => rfl) (fun _ => rfl)).trans ?_
    exact of_cores rfl rfl

theorem takeUpAll (d : Dev) (h : Nat) : d.TakesUp (d.takeUpAll h) :=
  (foldl (fun e (x : Nat × Nat) => takeUp e h x.1 x.2) _ d).trans (foldl (fun e (x : Nat × Bool) => takeUpEng e h x.1 x.2) _ _)

theorem setRank (d : Dev) (t r : Nat) (w : W32) : d.TakesUp (d.setRank t r w) := of_cores rfl rfl

theorem rankTransit (d : Dev) (t h : Nat) (slots : List Nat) (on : Bool) : d.TakesUp (d.rankTransit t h slots on) :=
  foldl (fun e _ => setRank e _ _ _) _ d

theorem launchesBack (d : Dev) (t : Nat) : d.TakesUp (d.launchesBack t) := of_cores rfl rfl

end Dev.TakesUp

/-! ### A saved slot stands on its core again (R306) -/

section
variable {m : Memory} {d : Dev} {a t h n lk : Nat} {s0 : Slot} {x : Saved} {w : Switch}

theorem Dev.lsTodo_rename (d : Dev) (h n k j : Nat) : ((d.rename h n k).core j).lsTodo = (d.core j).lsTodo := by
  unfold Dev.rename Dev.core
  dsimp only
  rw [AMap.get_map_snd Core.init d.cores (fun c => { c with
      parked := c.parked.map (fun p => { p with src := p.src.rename h n k })
      held := c.held.map (accFor h n k) }) j rfl]

/-- An entry of the register file in a block. -/
def blockEntry (m : Memory) (a e : Nat) : V512 := BitVec.ofNat 512 (leNat (m.bytes (a + 0x160000 + 64 * e) 64))

/-- The slot has what its record and its window hold, but for registers that awaited a link write. -/
theorem restoreSlot_spec (hn : n < 64) (hs0 : d.slot h (awayIx t n) = s0) (hst : s0.st ≠ .free) : ∃ clock,
    Slot.Lands s0.bare (s0.restored m (a + 0x140000 + 2048 * n) clock (blockEntry m a)) ((Dev.restoreSlot m a t h d n).slot h n) ∧
    (∀ k, ((Dev.restoreSlot m a t h d n).core k).lsTodo = (d.core k).lsTodo) ∧ (Dev.restoreSlot m a t h d n).saved = d.saved := by
  subst hs0
  unfold Dev.restoreSlot
  extract_lets k s entry bad bad' z d1
  have hz : z = (d.slot h (awayIx t n)).restored m (a + 0x140000 + 2048 * n) d.clock (blockEntry m a) := rfl
  have hslot : d1.slot h n = { z with refused := z.refused.map (accFor h k n) } := by
    unfold d1
    rw [Dev.slot, Dev.core_updCore_self, Core.slot, if_pos hn, AMap.get_put_self]
  have hlands : Slot.Lands (d.slot h (awayIx t n)).bare z (d1.slot h n) := by
    rw [hslot]
    exact ⟨rfl, rfl, rfl, rfl, rfl, rfl, fun _ _ => ⟨rfl, rfl⟩⟩
  have hvst : (d1.slot h n).vst = z.vst := by rw [hslot]
  have htodo : ∀ j, (d1.core j).lsTodo = (d.core j).lsTodo := fun j => by
    unfold d1
    by_cases hj : j = h
    · rw [hj, Dev.core_updCore_self]
      exact Dev.lsTodo_rename d h k n h
    · rw [Dev.core_updCore_ne _ _ _ _ hj]
      exact Dev.lsTodo_rename d h k n j
  have hland : Dev.LandsAt h n (d.slot h (awayIx t n)).bare d1 (d1.landHeld h n) := .landHeld (restored_settled.lands hlands) (fun j y hj => by
    rw [hvst] at hj
    exact restored_awaiting hj)
  rw [if_neg (by simpa using hst)]
  exact ⟨d.clock, hlands.trans hland.slot, fun j => (hland.lsTodo j).trans (htodo j), hland.saved⟩

/-- A launch with one slot and no tiles is back: its slot has what its record holds, and the units of its local store follow. -/
theorem restoreLaunch_spec (hn : n < 64) (hs0 : d.slot h (awayIx t n) = s0) (hst : s0.st ≠ .free) (hterr : x.terr = t) (hh : x.h = h) (hslots : x.slots = [n])
    (htiles : x.tiles.ents = []) (hsaved : d.saved = [x]) : ∃ clock,
    Slot.Lands s0.bare (s0.restored m (a + 0x140000 + 2048 * n) clock (blockEntry m a)) ((d.restoreLaunch m x lk a).slot h n) ∧
    ((d.restoreLaunch m x lk a).core h).lsTodo = (d.core h).lsTodo ++ (x.core.units lk).map (fun u => (4096 * u, a, lk)) ∧ (d.restoreLaunch m x lk a).saved = [] := by
  unfold Dev.restoreLaunch
  extract_lets tile tiles bad rest src d1 d2 d3 d4
  have hrest : rest = [] := by
    unfold rest
    rw [hsaved, List.filter_cons_of_neg (by simp), List.filter_nil]
  have htiles' : tiles = ⟨[]⟩ := by
    unfold tiles
    rw [htiles]
    rfl
  have h2 : d1.TakesUp d2 := by
    unfold d2
    rw [htiles']
    exact .of_cores rfl rfl
  have h1 : (∀ j i, d1.slot j i = d.slot j i) ∧ (d1.core h).lsTodo = (d.core h).lsTodo ++ (x.core.units lk).map (fun u => (4096 * u, a, lk)) ∧ d1.saved = [] := by
    refine ⟨fun j i => ?_, ?_, hrest⟩ <;> unfold d1
    · by_cases hj : j = x.h
      · rw [Dev.slot, hj, Dev.core_updCore_self]
        rfl
      · rw [Dev.slot, Dev.core_updCore_ne _ _ _ _ hj]
        rfl
    · rw [← hh, Dev.core_updCore_self]
      rfl
  have h3 := h2.trans (.rankTransit d2 x.terr x.h x.slots false)
  obtain ⟨clock, hlands, htodo, hsv⟩ := restoreSlot_spec (m := m) (a := a) (d := d2.rankTransit x.terr x.h x.slots false) (t := t) (h := h) hn
    ((h3.slots _ _).trans ((h1.1 _ _).trans hs0)) hst
  have hd3 : d3 = Dev.restoreSlot m a t h (d2.rankTransit x.terr x.h x.slots false) n := by
    unfold d3
    rw [hslots, hterr, hh]
    rfl
  have h4 : d3.TakesUp d4 := (Dev.TakesUp.launchesBack d3 x.terr).trans (.takeUpAll _ _)
  have h5 := h4.trans (.foldl (g := fun d t => (d.takeUpEng t x.h false).takeUpEng t x.h true) (fun e t => (Dev.TakesUp.takeUpEng e t x.h false).trans (.takeUpEng _ _ _ _)) d4.cores.keys d4)
  rw [← hd3] at hlands htodo hsv
  exact ⟨clock, h5.slots h n ▸ hlands, (h5.lsTodo h).trans ((htodo h).trans ((h3.lsTodo h).trans h1.2.1)), h5.saved.trans (hsv.trans (h3.saved.trans h1.2.2))⟩

/-! ### A unit of local store comes back (R306) -/

/-- A word of the unit is the block's. -/
theorem word_restoreUnit {c : Core} {u lk q : Nat} {rest : List (Nat × Nat × Nat)} (htodo : c.lsTodo = (u, a, lk) :: rest) (hq : q ∈ c.regionWords [lk])
    (hu : q / 4096 = u / 4096) (hq4 : q % 4 = 0) : (c.restoreUnit m).word q = m.w32 (a + q) := by
  obtain ⟨ws, hws⟩ : ∃ ws, ws = (c.regionWords [lk]).filter (fun w => w / 4096 == u / 4096) := ⟨_, rfl⟩
  have hmem : q ∈ ws := by
    rw [hws]
    exact List.mem_filter.mpr ⟨hq, by simp [hu]⟩
  have hwords : (c.restoreUnit m).words = ⟨(c.words.ents.filter (fun e => !ws.contains (4 * e.1))) ++
      (ws.filter (fun w => m.w32 (a + w) != 0#32)).map (fun w => (w / 4, m.w32 (a + w)))⟩ := by
    unfold Core.restoreUnit
    rw [htodo, hws]
    rfl
  have h4 : 4 * (q / 4) = q := by omega
  have hall : ∀ v, (q / 4, v) ∈ (c.restoreUnit m).words.ents → v = m.w32 (a + q) := fun v hv => by
    rw [hwords] at hv
    rcases List.mem_append.mp hv with hold | hnew
    · have hout := (List.mem_filter.mp hold).2
      rw [h4, List.contains_iff_mem.mpr hmem] at hout
      exact nomatch hout
    · obtain ⟨w, hw, he⟩ := List.mem_map.mp hnew
      obtain ⟨hkey, rfl⟩ := Prod.mk.inj he
      have hw4 : w % 4 = 0 := regionWords_aligned (List.mem_filter.mp (hws ▸ (List.mem_filter.mp hw).1)).1
      obtain rfl : w = q := by omega
      rfl
  unfold Core.word
  by_cases hz : m.w32 (a + q) = 0#32
  · rw [AMap.get]
    cases hf : (c.restoreUnit m).words.find? (q / 4) with
    | none => exact hz.symm
    | some v => exact hall v (AMap.mem_of_find? hf)
  · refine AMap.get_of_all ?_ hall
    rw [hwords]
    exact List.mem_append_right _ (List.mem_map.mpr ⟨q, List.mem_filter.mpr ⟨hmem, by simpa using hz⟩, rfl⟩)

end

end Sys2Proof.Machine
end

section
/-! PROOFS. The context engine restores (R306). -/

namespace Sys2Proof.Machine

/-! ### The context engine at a core of the incoming terrace (R306) -/

section
variable {visit : Dev → Nat → Bool → List Nat → Bool → Dev × Bool} {reads : Dev → Saved → Nat → List Nat} {fr : Memory → Dev → Saved → Nat → Nat → Dev}

/-- The context engine at a core of the incoming terrace, by how lines are visited, what a launch is read from, and how it is restored: kept
as parameters, so that no proof about the engine's choice evaluates what these do with a whole block. -/
def restoreWith (visit : Dev → Nat → Bool → List Nat → Bool → Dev × Bool) (reads : Dev → Saved → Nat → List Nat)
    (fr : Memory → Dev → Saved → Nat → Nat → Dev) (h : Nat) (m : Memory) (d : Dev) : Dev :=
  match d.switch with
  | none => d
  | some w =>
    match w.inn with
    | none => d
    | some t =>
      if !w.toRestore.contains h then d else
      let read (ls : List Nat) (f : Dev → Dev) : Dev :=
        match visit d (d.terrace t).vf false ls false with
        | (d, true) => f d
        | (d, false) => d
      if !(d.core h).lsTodo.isEmpty then read (d.core h).unitReads (fun d => (d.updCore h (fun c => c.restoreUnit m)).takeUpAll h) else
      let here := d.saved.filter (fun x => x.terr == t && x.h == h)
      if here.isEmpty then { d with switch := some { w with toRestore := w.toRestore.filter (· != h) } }.endSwitch
      else if (d.saved.filter (fun x => x.terr == t && !x.lks.isEmpty)).any (fun x => !d.savedAt m w.iarea false x) then d.refuseRestore w
      else
        match here.find? (fun x => x.lks.isEmpty) with
        | some x =>
          (match d.tilesBack h x.tiles with
           | some d => { d with saved := d.saved.filter (· != x) }
           | none => d)
        | none =>
          match here.find? (fun x => x.lks.all (fun lk => d.canRestore x lk)) with
          | some x =>
            let a := (d.terrace t).block w.iarea h
            read (reads d x a) (fun d => fr m d x (x.lks.headD 0) a)
          | none => d

theorem exec_contextRestore (h : Nat) (s : State) : exec (.contextRestore h) s = onDev (restoreWith @Dev.visit Dev.restoreReads Dev.restoreLaunch h) s := by
  unfold exec execContextRestore
  generalize Dev.restoreLaunch = fr
  unfold restoreWith
  generalize Dev.savedAt = good
  generalize Dev.canRestore = can
  generalize Dev.tilesBack = tiles
  generalize @Dev.visit = visit
  generalize Dev.restoreReads = reads
  generalize Dev.refuseRestore = refuse
  rfl

variable {m : Memory} {d : Dev} {h t lk : Nat} {w : Switch} {x : Saved}

/-- The first unit still to come is read where its lines find their way. -/
theorem restoreWith_unit (hw : d.switch = some w) (hinn : w.inn = some t) (hin : w.toRestore.contains h = true) (htodo : (d.core h).lsTodo ≠ [])
    (hthere : (visit d (d.terrace t).vf false (d.core h).unitReads false).2 = true) :
    restoreWith visit reads fr h m d = ((visit d (d.terrace t).vf false (d.core h).unitReads false).1.updCore h (fun c => c.restoreUnit m)).takeUpAll h := by
  unfold restoreWith
  rw [hw]
  dsimp only
  rw [hinn]
  dsimp only
  rw [if_neg (by rw [hin]; decide), if_pos (by simpa using htodo)]
  generalize visit d (d.terrace t).vf false (d.core h).unitReads false = r at *
  obtain ⟨e, b⟩ := r
  obtain rfl : b = true := hthere
  rfl

/-- The one launch saved here is restored where its block is good and its resources are free. -/
theorem restoreWith_launch (hw : d.switch = some w) (hinn : w.inn = some t) (hin : w.toRestore.contains h = true) (htodo : (d.core h).lsTodo = [])
    (hsaved : d.saved = [x]) (hterr : x.terr = t) (hh : x.h = h) (hlks : x.lks = [lk]) (hgood : d.savedAt m w.iarea false x = true)
    (hcan : d.canRestore x lk = true)
    (hthere : (visit d (d.terrace t).vf false (reads d x ((d.terrace t).block w.iarea h)) false).2 = true) :
    restoreWith visit reads fr h m d = fr m (visit d (d.terrace t).vf false (reads d x ((d.terrace t).block w.iarea h)) false).1 x lk ((d.terrace t).block w.iarea h) := by
  have hhere : d.saved.filter (fun x => x.terr == t && x.h == h) = [x] := by
    rw [hsaved, List.filter_cons_of_pos (by simp [hterr, hh]), List.filter_nil]
  have hbad : (d.saved.filter (fun x => x.terr == t && !x.lks.isEmpty)).any (fun x => !d.savedAt m w.iarea false x) = false := by
    rw [hsaved, List.filter_cons_of_pos (by simp [hterr, hlks]), List.filter_nil, List.any_cons, hgood]
    rfl
  have hfind : [x].find? (fun x => x.lks.all (fun lk => d.canRestore x lk)) = some x :=
    List.find?_cons_of_pos (by simp [hlks, hcan])
  unfold restoreWith
  rw [hw]
  dsimp only
  rw [hinn]
  dsimp only
  rw [if_neg (by rw [hin]; decide), if_neg (by rw [htodo]; decide), hhere, if_neg (by simp), hbad, if_neg (by decide),
    List.find?_cons_of_neg (by simp [hlks]), List.find?_nil]
  dsimp only
  rw [hfind]
  dsimp only
  generalize visit d (d.terrace t).vf false (reads d x ((d.terrace t).block w.iarea h)) false = r at *
  obtain ⟨e, b⟩ := r
  obtain rfl : b = true := hthere
  rw [hlks]
  rfl

end

section
variable {m : Memory} {d : Dev} {h n t lk : Nat} {w : Switch} {x : Saved} {s0 : Slot}

/-- A restored register of the window waits for its granule. -/
theorem Slot.Lands.blockOf {s z : Slot} {a clock j : Nat} {entry : Nat → V512} (hl : Slot.Lands s.bare (s.restored m a clock entry) z) (hj : s.bare j) (ho : s.ops = []) :
    z.blockOf (rvn j) = some (.unrestored (j / 8)) := by
  have hops : z.ops = [] := hl.ops.trans ho
  have hvst : z.vst.get .present j = .unrestored := ((hl.vregs j hj).2).trans (restored_unrestored hj ho)
  unfold Slot.blockOf
  rw [if_neg (by simp [RegUse.hard, rvn]), hops]
  change (if _ then _ else _) = _
  rw [if_neg (show ¬((rvn j).cls != .v) = true from Bool.false_ne_true), show (rvn j).reg = j from rfl, hvst]

/-- A launch with one slot and no tiles comes back on its core. -/
theorem contextRestore_launch (m : Memory) (d : Dev) (hn : n < 64) (hw : d.switch = some w) (hinn : w.inn = some t) (hin : w.toRestore.contains h = true)
    (htodo : (d.core h).lsTodo = []) (hsaved : d.saved = [x]) (hterr : x.terr = t) (hh : x.h = h) (hlks : x.lks = [lk]) (hslots : x.slots = [n])
    (htiles : x.tiles.ents = []) (hgood : d.savedAt m w.iarea false x = true) (hcan : d.canRestore x lk = true) (hs0 : d.slot h (awayIx t n) = s0)
    (hst : s0.st ≠ .free) (hthere : (d.visit (d.terrace t).vf false (d.restoreReads x ((d.terrace t).block w.iarea h))).2 = true) :
    ∃ clock, Slot.Lands s0.bare (s0.restored m ((d.terrace t).block w.iarea h + 0x140000 + 2048 * n) clock (blockEntry m ((d.terrace t).block w.iarea h)))
        ((restoreWith @Dev.visit Dev.restoreReads Dev.restoreLaunch h m d).slot h n) ∧
      ((restoreWith @Dev.visit Dev.restoreReads Dev.restoreLaunch h m d).core h).lsTodo = (x.core.units lk).map (fun u => (4096 * u, (d.terrace t).block w.iarea h, lk)) ∧
      (restoreWith @Dev.visit Dev.restoreReads Dev.restoreLaunch h m d).saved = [] := by
  have hquays := Dev.visit_quaysOnly d (d.terrace t).vf false (d.restoreReads x ((d.terrace t).block w.iarea h))
  rw [restoreWith_launch hw hinn hin htodo hsaved hterr hh hlks hgood hcan hthere]
  have hspec := restoreLaunch_spec (m := m) (a := (d.terrace t).block w.iarea h) (lk := lk) hn ((hquays false).slot h (awayIx t n) |>.trans hs0) hst hterr hh hslots htiles
    ((congrArg Dev.saved (hquays false)).trans hsaved)
  rw [(hquays false).core, htodo] at hspec
  exact hspec

/-- The first unit still to come stands in the local store again, and the others stay to come. -/
theorem contextRestore_unit (m : Memory) (d : Dev) {u a : Nat} {rest : List (Nat × Nat × Nat)} (hw : d.switch = some w) (hinn : w.inn = some t)
    (hin : w.toRestore.contains h = true) (htodo : (d.core h).lsTodo = (u, a, lk) :: rest)
    (hthere : (d.visit (d.terrace t).vf false (d.core h).unitReads).2 = true) :
    ((restoreWith @Dev.visit Dev.restoreReads Dev.restoreLaunch h m d).core h).lsTodo = rest ∧ ∀ q, q ∈ (d.core h).regionWords [lk] → q / 4096 = u / 4096 → q % 4 = 0 →
      ((restoreWith @Dev.visit Dev.restoreReads Dev.restoreLaunch h m d).core h).word q = m.w32 (a + q) := by
  have hquays := Dev.visit_quaysOnly d (d.terrace t).vf false (d.core h).unitReads false
  rw [restoreWith_unit hw hinn hin (by rw [htodo]; exact List.cons_ne_nil _ _) hthere]
  generalize (d.visit (d.terrace t).vf false (d.core h).unitReads).1 = e at *
  have hup := Dev.TakesUp.takeUpAll (e.updCore h (fun c => c.restoreUnit m)) h
  have hcore : (e.updCore h (fun c => c.restoreUnit m)).core h = (d.core h).restoreUnit m := by rw [Dev.core_updCore_self, hquays.core]
  refine ⟨(hup.lsTodo h).trans ?_, fun q hq hu hq4 => ?_⟩
  · rw [hcore]
    unfold Core.restoreUnit
    rw [htodo]
  · rw [Core.word, hup.words, hcore, ← Core.word]
    exact word_restoreUnit htodo hq hu hq4

end

end Sys2Proof.Machine
end

section
/-! PROOFS. Terraces are described and switched (R275, R276, R303, R304). -/

namespace Sys2Proof.Machine

/-! ### Terraces change (R275, R276, R303) -/

section
variable {d e : Dev} {t u : Nat} {f : Terrace → Terrace}

theorem Dev.terrace_updTerr_self (d : Dev) (t : Nat) (f : Terrace → Terrace) : (d.updTerr t f).terrace t = f (d.terrace t) := AMap.get_put_self _ _ _ _
theorem Dev.terrace_updTerr_ne (d : Dev) (f : Terrace → Terrace) (h : u ≠ t) : (d.updTerr t f).terrace u = d.terrace u := AMap.get_put_ne _ _ _ _ _ h
theorem Dev.terrace_of_terr (h : e.terr = d.terr) (u : Nat) : e.terrace u = d.terrace u := by
  rw [Dev.terrace, h, ← Dev.terrace]
theorem Dev.terr_updTerr (h : e.terr = d.terr) (t : Nat) (f : Terrace → Terrace) : (e.updTerr t f).terr = (d.updTerr t f).terr := by
  unfold Dev.updTerr
  rw [h]

/-- A change of STATE is read back. -/
theorem Terrace.state_withState (x : Terrace) {n : Nat} (hn : n < 4) : (x.withState n).state = n := by
  have hbits : ((x.w0 &&& ~~~(3#64 <<< 33)) ||| (BitVec.ofNat 64 n <<< 33)).extractLsb' 33 2 = BitVec.ofNat 2 n := by
    refine BitVec.eq_of_getLsbD_eq fun i hi => ?_
    obtain rfl | rfl : i = 0 ∨ i = 1 := by omega
    · simp [← BitVec.getLsbD_eq_getElem, BitVec.getLsbD_ofNat, show Nat.testBit 18446744047939747839 33 = false by decide]
    · simp [← BitVec.getLsbD_eq_getElem, BitVec.getLsbD_ofNat, show Nat.testBit 18446744047939747839 34 = false by decide]
  unfold Terrace.state Terrace.withState
  rw [hbits, BitVec.toNat_ofNat]
  exact Nat.mod_eq_of_lt hn

theorem Dev.terr_sliceStarts (d : Dev) (t : Nat) : (d.sliceStarts t).terr = d.terr := by
  unfold Dev.sliceStarts
  split <;> rfl

theorem Dev.terr_endSwitch (d : Dev) : d.endSwitch.terr = d.terr := by
  unfold Dev.endSwitch
  split
  · split <;> rfl
  · rfl

end

/-! ### A descriptor is written (R276) -/

section
variable {d : Dev} {t : Nat} {w0 w1 : W64}

/-- A write that neither suspends nor resumes sets the two words of its terrace and no other's. -/
theorem writeDescriptor_words (hst : (d.terrace t).state = ((d.terrace t).withWords w0 w1).state ∨ (d.terrace t).state = 0 ∨ ((d.terrace t).withWords w0 w1).state = 0) :
    ((d.writeDescriptor t w0 w1).terrace t).w0 = w0 ∧ ((d.writeDescriptor t w0 w1).terrace t).w1 = w1 ∧
      ∀ u, u ≠ t → (d.writeDescriptor t w0 w1).terrace u = d.terrace u := by
  unfold Dev.writeDescriptor
  extract_lets x y d1 d2
  change x.state = y.state ∨ x.state = 0 ∨ y.state = 0 at hst
  rw [if_neg (by omega), if_neg (by omega)]
  obtain ⟨z, hz⟩ : ∃ z, z = if y.state = 0 then d2.profReturn t else if x.state = 0 then d2.sliceStarts t else d2 := ⟨_, rfl⟩
  have hterr : z.terr = d2.terr := by
    rw [hz]
    split
    · rfl
    · split
      · exact d2.terr_sliceStarts t
      · rfl
  rw [← hz]
  have hself : z.terrace t = if x.state = 0 ∧ y.state ≠ 0 then { y with dbg := .init } else y :=
    (Dev.terrace_of_terr hterr t).trans (Dev.terrace_updTerr_self d1 t _)
  refine ⟨?_, ?_, fun u hu => (Dev.terrace_of_terr hterr u).trans (Dev.terrace_updTerr_ne d1 _ hu)⟩ <;> rw [hself] <;> split <;> rfl

end

/-! ### A switch is requested (R303) -/

section
variable {d : Dev} {t : Nat} {out inn : Option Nat} {oarea iarea : W64}

/-- The outgoing terrace is suspended. -/
def Dev.suspended (d : Dev) (out : Option Nat) (area : W64) : Dev :=
  match out with
  | some t => d.updTerr t (fun x => { x.withState 2 with area := area })
  | none => d

/-- The incoming terrace is active. -/
def Dev.resumed (d : Dev) (inn : Option Nat) (area : W64) : Dev :=
  match inn with
  | some t => d.updTerr t (fun x => { x.withState 1 with area := if x.state = 2 then area else x.area })
  | none => d

theorem Dev.terrace_suspended (d : Dev) (out : Option Nat) (area : W64) (u : Nat) : ((d.suspended out area).terrace u = d.terrace u ∧ out ≠ some u) ∨
    (((d.suspended out area).terrace u).state = 2 ∧ out = some u) := by
  cases out with
  | none => exact .inl ⟨rfl, fun h => nomatch h⟩
  | some t =>
    by_cases hu : u = t
    · refine .inr ⟨?_, congrArg some hu.symm⟩
      rw [hu, Dev.suspended, Dev.terrace_updTerr_self]
      exact Terrace.state_withState _ (by decide)
    · exact .inl ⟨Dev.terrace_updTerr_ne _ _ hu, fun h => hu (Option.some.inj h).symm⟩

theorem Dev.terrace_resumed (d : Dev) (inn : Option Nat) (area : W64) (u : Nat) : ((d.resumed inn area).terrace u = d.terrace u ∧ inn ≠ some u) ∨
    (((d.resumed inn area).terrace u).state = 1 ∧ inn = some u) := by
  cases inn with
  | none => exact .inl ⟨rfl, fun h => nomatch h⟩
  | some t =>
    by_cases hu : u = t
    · refine .inr ⟨?_, congrArg some hu.symm⟩
      rw [hu, Dev.resumed, Dev.terrace_updTerr_self]
      exact Terrace.state_withState _ (by decide)
    · exact .inl ⟨Dev.terrace_updTerr_ne _ _ hu, fun h => hu (Option.some.inj h).symm⟩

/-- A hand-over changes no terrace but the two. -/
theorem startSwitch_terr (d : Dev) (out inn : Option Nat) (oarea iarea : W64) :
    (d.startSwitch out inn oarea iarea).terr = ((d.suspended out oarea).resumed inn iarea).terr := by
  unfold Dev.startSwitch
  extract_lets d1 toSave toRestore d2 d3
  have h1 : d1.terr = d.terr := by
    unfold d1
    split
    · split <;> rfl
    · rfl
  have h2 : d2.terr = (d.suspended out oarea).terr := by
    unfold d2
    cases out with
    | none => exact h1
    | some t =>
      refine (Dev.Steady.foldl (fun e h => Dev.Steady.holdTerrace e t h) toSave _).terr.trans ?_
      exact Dev.terr_updTerr h1 t (fun x => { x.withState 2 with area := oarea })
  have h3 : d3.terr = ((d.suspended out oarea).resumed inn iarea).terr := by
    unfold d3
    cases inn with
    | none => exact h2
    | some t =>
      refine (Dev.terr_sliceStarts _ t).trans ?_
      exact Dev.terr_updTerr h2 t (fun x => { x.withState 1 with area := if x.state = 2 then iarea else x.area })
  exact (Dev.terr_endSwitch _).trans h3

/-- The device at a switch request. -/
def Dev.switchRequested (d : Dev) (req : BitVec 256) : Dev :=
  if !d.up || d.switch.isSome then d else
  let out := (req.extractLsb' 0 8).toNat
  let inn := (req.extractLsb' 8 8).toNat
  let oarea := req.extractLsb' 64 64
  let iarea := req.extractLsb' 128 64
  if d.switchOk out inn oarea iarea then
    d.startSwitch (if out = 0xFF then none else some out) (if inn = 0xFF then none else some inn) oarea iarea
  else { d with switchDone := 2 }

theorem exec_switchRequest (req : BitVec 256) (s : State) : exec (.switchRequest req) s = onDev (fun _ d => d.switchRequested req) s := by
  unfold exec execSwitchRequest
  rfl

/-- A terrace that is active and one that is not are two terraces. -/
theorem out_ne_inn_of_switchOk {out inn : Nat} (hok : d.switchOk out inn oarea iarea = true) (hout : out ≠ 0xFF) (hinn : inn ≠ 0xFF) : out ≠ inn := by
  rintro rfl
  unfold Dev.switchOk at hok
  simp only [Bool.and_eq_true, Bool.or_eq_true, beq_iff_eq, decide_eq_true_eq] at hok
  omega

/-- The switch is taken: one terrace is suspended, the other becomes active. -/
theorem switchRequested_ok {req : BitVec 256} {out inn : Nat} (hout : (req.extractLsb' 0 8).toNat = out) (hinn : (req.extractLsb' 8 8).toNat = inn) (hup : d.up = true)
    (hok : d.switchOk out inn (req.extractLsb' 64 64) (req.extractLsb' 128 64) = true) :
    (out ≠ 0xFF → ((d.switchRequested req).terrace out).state = 2) ∧ (inn ≠ 0xFF → ((d.switchRequested req).terrace inn).state = 1) ∧
      ∀ u, u ≠ out → u ≠ inn → (d.switchRequested req).terrace u = d.terrace u := by
  have hidle : d.switch.isSome = false := by
    have h := hok
    unfold Dev.switchOk at h
    simp only [Bool.and_eq_true, Option.isNone_iff_eq_none] at h
    rw [h.1.1]
    rfl
  have he : d.switchRequested req = d.startSwitch (if out = 0xFF then none else some out) (if inn = 0xFF then none else some inn)
      (req.extractLsb' 64 64) (req.extractLsb' 128 64) := by
    unfold Dev.switchRequested
    rw [hup, hidle, if_neg (by decide), hout, hinn]
    exact if_pos hok
  have hne := out_ne_inn_of_switchOk hok
  have hterr := startSwitch_terr d (if out = 0xFF then none else some out) (if inn = 0xFF then none else some inn) (req.extractLsb' 64 64) (req.extractLsb' 128 64)
  rw [← he] at hterr
  refine ⟨fun ho => ?_, fun hi => ?_, fun u huo hui => ?_⟩ <;> rw [Dev.terrace_of_terr hterr]
  · rcases Dev.terrace_resumed (d.suspended (if out = 0xFF then none else some out) (req.extractLsb' 64 64)) (if inn = 0xFF then none else some inn)
      (req.extractLsb' 128 64) out with ⟨hr, -⟩ | ⟨-, hr⟩
    · rw [hr]
      rcases Dev.terrace_suspended d (if out = 0xFF then none else some out) (req.extractLsb' 64 64) out with ⟨-, hs⟩ | ⟨hs, -⟩
      · exact absurd (if_neg ho) hs
      · exact hs
    · split at hr
      · exact nomatch hr
      · next hi => exact absurd (Option.some.inj hr).symm (hne ho hi)
  · rcases Dev.terrace_resumed (d.suspended (if out = 0xFF then none else some out) (req.extractLsb' 64 64)) (if inn = 0xFF then none else some inn)
      (req.extractLsb' 128 64) inn with ⟨-, hr⟩ | ⟨hr, -⟩
    · exact absurd (if_neg hi) hr
    · exact hr
  · have hother : ∀ k, u ≠ k → (if k = 0xFF then none else some k) ≠ some u := fun k hk h => by
      split at h
      · exact nomatch h
      · exact hk (Option.some.inj h).symm
    rcases Dev.terrace_resumed (d.suspended (if out = 0xFF then none else some out) (req.extractLsb' 64 64)) (if inn = 0xFF then none else some inn)
      (req.extractLsb' 128 64) u with ⟨hr, -⟩ | ⟨-, hr⟩
    · rw [hr]
      rcases Dev.terrace_suspended d (if out = 0xFF then none else some out) (req.extractLsb' 64 64) u with ⟨hs, -⟩ | ⟨-, hs⟩
      · exact hs
      · exact absurd hs (hother out huo)
    · exact absurd hr (hother inn hui)

end

/-! ### A seat's reservation lapses (R304 step 5) -/

section
variable {d : Dev} {h seat : Nat} {w : Switch}

/-- The device at a lapse of a seat. -/
def Dev.seatLapsed (d : Dev) (h seat : Nat) : Dev :=
  match d.switch with
  | none => d
  | some w =>
    let held := match (d.core h).seatedIn seat, w.out with
      | some n, some t => terrOf (d.slot h n).lk == t
      | _, _ => false
    if !w.toSave.contains h || decide (d.clock ≤ w.start) || d.clock % 16 != seat || held || (d.core h).lapsed.contains seat then d
    else d.updCore h (fun c => { c with lapsed := c.lapsed ++ [seat] })

theorem exec_seatLapse (h seat : Nat) (s : State) : exec (.seatLapse h seat) s = onDev (fun _ d => d.seatLapsed h seat) s := by
  unfold exec execSeatLapse
  rfl

/-- A seat in which nothing sits lapses at its turn. -/
theorem seatLapsed_empty (hw : d.switch = some w) (hin : w.toSave.contains h = true) (hstart : w.start < d.clock) (hturn : d.clock % 16 = seat)
    (hempty : (d.core h).seatedIn seat = none) (hnot : (d.core h).lapsed.contains seat = false) :
    d.seatLapsed h seat = d.updCore h (fun c => { c with lapsed := c.lapsed ++ [seat] }) := by
  unfold Dev.seatLapsed
  rw [hw]
  dsimp only
  rw [hempty, hin, hnot, hturn, decide_eq_false (Nat.not_le.mpr hstart)]
  simp

end

/-! ### The obligation -/

/-- The device at a descriptor write. -/
def Dev.descriptorWritten (d : Dev) (t : Nat) (w0 w1 : W64) : Dev :=
  if t < 32 ∧ d.descriptorOk t (d.terrace t) ((d.terrace t).withWords w0 w1) = true then d.writeDescriptor t w0 w1 else d

theorem exec_terraceDescriptorWrite (t : Nat) (w0 w1 : W64) (s : State) :
    exec (.terraceDescriptorWrite t w0 w1) s = onDev (fun _ d => d.descriptorWritten t w0 w1) s := by
  unfold exec execTerraceDescriptorWrite
  rfl

/-- Settles O44: each event by what it leaves behind, a switch by the states of its two terraces, and what is saved and restored by the block of
the core. -/
theorem tenantSwitches : Obligations.TenantSwitches := by
  intro t h seat n lk' w0 w1 req w x s0
  refine ⟨?_, ?_, ?_, ?_, ?_, ?_, ?_, ?_, ?_⟩
  · refine onDev_event (exec_terraceDescriptorWrite t w0 w1) fun _ d hp => ?_
    rw [Dev.descriptorWritten, if_pos hp.1]
    exact writeDescriptor_words hp.2
  · exact onDev_event (exec_terraceDescriptorWrite t w0 w1) fun _ d hp => if_neg hp
  · exact onDev_event (exec_switchRequest req) fun _ d hp => switchRequested_ok rfl rfl hp.1 hp.2
  · refine onDev_event (exec_switchRequest req) fun _ d hp => if_pos ?_
    rw [Option.isSome_iff_ne_none.mpr hp, Bool.or_true]
  · refine onDev_event (exec_switchRequest req) fun _ d ⟨hup, hidle, hno⟩ => ?_
    have he : d.switchRequested req = { d with switchDone := 2 } := by
      unfold Dev.switchRequested
      rw [hup, hidle, if_neg (by decide)]
      exact if_neg (by rw [hno]; decide)
    rw [he]
    exact ⟨rfl, rfl, rfl⟩
  · refine onDev_event (exec_seatLapse h seat) fun _ d ⟨hw, hin, hstart, hturn, hempty, hnot⟩ => ?_
    rw [seatLapsed_empty hw hin hstart hturn hempty hnot]
    refine ⟨by rw [Dev.core_updCore_self], fun k i => ?_⟩
    by_cases hk : k = h
    · rw [Dev.slot, hk, Dev.core_updCore_self]
      rfl
    · rw [Dev.slot, Dev.core_updCore_ne _ _ _ _ hk, ← Dev.slot]
  · intro s lk rest hw hout hin
    exact ⟨fun hn hnext hstill hthere => contextSave_slot hw hout hin hn hnext hstill hthere,
      fun hnext htodo hstill hthere => contextSave_launch hw hout hin hnext htodo hstill hthere,
      fun hnext htodo => contextSave_done hw hout hin hnext htodo⟩
  · refine onDev_event (exec_contextRestore h) fun m d hp => ?_
    obtain ⟨hn, hw, hinn, hin, htodo, hsaved, hterr, hh, hlks, hslots, htiles, hgood, hcan, hs0, hst, hthere⟩ := hp
    obtain ⟨clock, hl, hunits, hnone⟩ := contextRestore_launch m d hn hw hinn hin htodo hsaved hterr hh hlks hslots htiles hgood hcan hs0 hst hthere
    generalize restoreWith @Dev.visit Dev.restoreReads Dev.restoreLaunch h m d = e at *
    refine ⟨hnone, hl.pc, fun j hj hlt => ?_, fun j hj hlt => ?_, hl.tsw, fun hlost => hl.frec0.trans (restored_frec0 hlost), fun j hj haw => ⟨?_, fun ho => ?_⟩, hunits⟩
    · exact ((congrArg (fun (a : AMap W64) => if j = 0 then 0#64 else a.get 0#64 j) hl.aregs) :).trans (restored_A hj hlt)
    · exact (congrArg BitVec.toNat ((congrArg (fun (k : AMap (BitVec 16)) => if j = 0 then 0xFFFF#16 else k.get 0#16 j) hl.kregs) :)).trans (restored_K hj hlt)
    · exact ((hl.vregs j ⟨hj, haw⟩).1).trans (restored_V hj)
    · exact hl.blockOf ⟨hj, haw⟩ ho
  · intro u a rest
    refine onDev_event (exec_contextRestore h) fun m d ⟨hw, hinn, hin, htodo, hthere⟩ => ?_
    exact contextRestore_unit m d hw hinn hin htodo hthere

end Sys2Proof.Machine
end
